-- ==== Sys2Proof/Word.lean ====
section
/-! DEFINITION. The words of the machine and the one sparse map that every memory, register file and table uses. -/

namespace Sys2Proof

/-- A register: 32 bits (R4). -/
abbrev Word := BitVec 32

/-- One byte of memory. -/
abbrev Byte := BitVec 8

/-- A sparse map from addresses or indices to values. Its canonical form (`Sparse.wf`): keys strictly rising, and no entry
equal to what its key reads as when it is not listed. -/
abbrev Map (α : Type) := List (Nat × α)

end Sys2Proof
end

