-- ==== Sys2Proof/Syntax/Types.lean ====
section
/-! DEFINITION. The operand types of the commands, below `Instr`: host paths, classes, what a memory's check bits show, and the slots of
a voice-core bundle. -/

namespace Sys2Proof

/-- A host path to the registers (R426, R429). -/
inductive Path where
  | pcie | spi
deriving DecidableEq, Repr

/-- Who writes a register: host software over a path, or the boot sequencer applying an image (R408, R423). -/
inductive Writer where
  | host (path : Path)
  | image
deriving DecidableEq, Repr

/-- The three event and task classes, in rising priority (spec/01, "Classes"). -/
inductive Cls where
  | bulk | normal | express
deriving DecidableEq, Repr

/-- The sources of the media clock (CLK_MEDIA_STAT.SRC). -/
inductive ClockSource where
  | gptp | wclk | crystal
deriving DecidableEq, Repr

/-- What the check bits of a memory word show at a read: nothing, a corrected single bit, a word that only the row's parity can
rebuild, or one that nothing can (R153, R295, R297). -/
inductive Upset where
  | clean | single | rebuilt | lost
deriving DecidableEq, Repr

/-- The write of another Concourse master that meets an access in the same cycle (R299 to R301). -/
structure Rival where
  master : Fin 48
  cls : Cls
  addr : BitVec 25
  data : List Byte
deriving DecidableEq, Repr

/-- What the gPTP engine has come to by the 802.1AS standard, which the spec does not restate (R326): the roles of the two ports
(0 disabled, 1 master, 2 active slave, 3 passive or standby), whether the one that is no active slave is a slave of the same
grandmaster, whether the device is grandmaster and each port asCapable, the grandmaster and the mean link delays. -/
structure PtpView where
  roleA : Fin 4
  roleB : Fin 4
  standby : Bool
  gm : Bool
  ascA : Bool
  ascB : Bool
  gmId : BitVec 64
  delayA : Word
  delayB : Word
deriving DecidableEq, Repr

/-- What a memory access meets besides its own data. `stall` counts the cycles for which a core holds issue for it (R157, R222). -/
structure Access where
  upset : Upset
  rival : Option Rival
  stall : Nat
deriving DecidableEq, Repr

/-- A PCIe reset (R339, R401). -/
inductive PcieReset where
  | functionLevel | hot | perst
deriving DecidableEq, Repr

/-- A PCIe AtomicOp (R304). -/
inductive AtomicKind where
  | fetchAdd | swap | compareSwap
deriving DecidableEq, Repr

/-- What a DMA transfer meets (R341): the bytes that its reads of host memory return, short when a read fails, and whether the failure is a
poisoned completion; what its Concourse reads and writes meet, by 16-byte word; the byte errors of Sample Memory lines; and, when
PAGE_CTRL.EN is cleared during the transfer, the 4 KiB pieces done by then. -/
structure DmaMeet where
  host : List Byte
  poisoned : Bool
  reads : List (Nat × Access)
  writes : List (Nat × Access)
  errs : List (Nat × Nat)
  stop : Nat
deriving DecidableEq, Repr

/-- A predicate field (R197). -/
inductive Pred where
  | always
  | on (f : Fin 8)
  | off (f : Fin 8)
deriving DecidableEq, Repr

/-- The four slots of a bundle (R196). -/
inductive SlotName where
  | m | x | y | c
deriving DecidableEq, Repr

/-- The operations of the M slot (R199). -/
inductive MKind where
  | nop | mul | mac | msc | cmul | cmac | cmsc | cmacj | dot2 | dot2a | dot4 | dot4a | cres0 | cres
deriving DecidableEq, Repr

/-- An M body: operation, N, A and B (R199). -/
structure MOp where
  kind : MKind
  n : Fin 4
  a : Fin 32
  b : Fin 32
deriving DecidableEq, Repr

/-- The operations of the X and Y slots (R202). -/
inductive MemKind where
  | ld | st | ld2 | st2 | lda | stq | ldx | stx
deriving DecidableEq, Repr

/-- Addressing codes (R202). `offset` counts access sizes. -/
inductive Addressing where
  | postM (j : Fin 8)
  | plain
  | postInc
  | postDec
  | bitRev
  | offset (k : Fin 5)      -- 0 to 3 for +0 to +3 sizes, 4 for −1 size; 0 stands for no code
deriving DecidableEq, Repr

/-- An X or Y body: operation, REG, PTR and AM (R202). -/
structure MemOp where
  kind : MemKind
  reg : Fin 32
  ptr : Fin 8
  am : Addressing
deriving DecidableEq, Repr

/-- The register files that MTX, MFX, LDX and STX name (R202). -/
inductive AddrFile where
  | p | m | l | b
deriving DecidableEq, Repr

/-- The two-operand ALU operations (R181, R206). -/
inductive AluKind where
  | add | sub | adds | subs | and | or | xor | lsl | lsr | asr | lsls
deriving DecidableEq, Repr

/-- A second operand: a G register or an unsigned 5-bit immediate (R206). -/
inductive Operand2 where
  | reg (b : Fin 32)
  | imm (u : Fin 32)
deriving DecidableEq, Repr

/-- The conditions of CMPcc (R206). -/
inductive Cond where
  | eq | ne | lt | ge | ltu | geu
deriving DecidableEq, Repr

/-- A REP or LOOP count: immediate or G register. -/
inductive Count where
  | imm (n : BitVec 16)
  | reg (s : Fin 32)
deriving DecidableEq, Repr

/-- The rotation steps of LOOP.R (R206). -/
inductive RotStep where
  | one | two | four
deriving DecidableEq, Repr

/-- A part of an accumulator, as MVA and MFA code it (R206). -/
inductive AccPart where
  | p0 | p1 | p2 | p3
deriving DecidableEq, Repr

/-- The operations of the C slot (R204, R206). -/
inductive COp where
  | nop
  | rep (n : Count)
  | clrav (mask : Fin 16)
  | mov (d s : Fin 32)
  | not (d s : Fin 32)
  | negs (d s : Fin 32)
  | abss (d s : Fin 32)
  | mtx (file : AddrFile) (i : Fin 8) (s : Fin 32)
  | mfx (d : Fin 32) (file : AddrFile) (i : Fin 8)
  | mva (part : AccPart) (n : Fin 4) (s : Fin 32)
  | mfa (part : AccPart) (n : Fin 4) (d : Fin 32)
  | mvr (q23 : Bool) (n : Fin 4) (d : Fin 32)
  | pset (v : Bool) (d : Fin 8)
  | pand (d a b : Fin 8)
  | por (d a b : Fin 8)
  | pxor (d a b : Fin 8)
  | pnot (d a : Fin 8)
  | mff (d : Fin 32)
  | mtf (s : Fin 32)
  | take (d : Fin 32)
  | yield_ (flags : Fin 4)
  | eret
  | br (s : Fin 32)
  | rnd (d : Fin 32)
  | rseed (s : Fin 32)
  | paset (incr : Bool) (k : Fin 16) (s : Fin 32)
  | paget (incr : Bool) (k : Fin 16) (d : Fin 32)
  | alu (op : AluKind) (d a : Fin 32) (b : Operand2)
  | cmp (cc : Cond) (d : Fin 8) (a b : Fin 32)
  | addi (d a : Fin 32) (imm : BitVec 16)
  | movi (d : Fin 32) (imm : BitVec 21)
  | mfc (d : Fin 32) (cr : Fin 64)
  | mtc (cr : Fin 64) (s : Fin 32)
  | b (t : Fin 8192)
  | bl (d : Fin 32) (t : Fin 8192)
  | loop (n : Count) (stop : Fin 8192)
  | venter (t : Fin 8192)
  | pacc (carry : Option (Fin 8)) (k : Fin 16) (d : Fin 32)
  | pramp (k : Fin 128) (d : Fin 32)
  | tfetch (cubic : Bool) (r : Fin 64) (g : Fin 4) (a : Fin 32)
  | tread (r : Fin 64) (d a : Fin 32)
  | blep (t : Fin 8) (d a : Fin 32)
  | movl (d : Fin 32) (imm : BitVec 32)
  | loopR (n : Count) (stop : Fin 8192) (step : RotStep) (stages : Fin 4)   -- stages minus 1
deriving DecidableEq, Repr

/-- A bundle: the operation of each slot under its predicate (R196, R197). A slot that the bundle's format lacks is a
no-operation. -/
structure Bundle where
  mp : Pred
  m : MOp
  xp : Pred
  x : Option MemOp
  yp : Pred
  y : Option MemOp
  cp : Pred
  c : COp
deriving DecidableEq, Repr

/-- The M no-operation. -/
def MOp.nop : MOp := { kind := .nop, n := 0, a := 0, b := 0 }

/-- The bundle of four no-operations. -/
def Bundle.nop : Bundle :=
  { mp := .always, m := MOp.nop, xp := .always, x := none, yp := .always, y := none, cp := .always, c := .nop }

end Sys2Proof
end

