-- ==== Sys2Proof/Syntax.lean ====
section
/-! DEFINITION. The commands of the block: one constructor for every row of the command table, each with what its event brings from outside
the state. A write of a register carries its path and the word written; a voice-core operation carries the core that issues it, its predicate, its
operands, the bundle that holds it, and what its first memory accesses meet. -/

namespace Sys2Proof

/-- A command. -/
inductive Instr where
  /-- MEDIA_CONFIG_WRITE (R27): A host write of CLK_MEDIA_CFG is performed, or refused with CFG_REJ, and a change of rate family relocks
  the media PLL. -/
  | mediaConfigWrite (path : Path) (v : Word)
  /-- MEDIA_STOP (R28): Clearing CLK_MEDIA_CTRL.RUN stops block scheduling and routing, and lets the output queues drain and fade. -/
  | mediaStop (path : Path) (v : Word)
  /-- MEDIA_STOP_COMPLETE (R28): Once every queue has faded, the media-time counter stops at a block boundary, RUNNING clears and IDLE is
  set. -/
  | mediaStopComplete
  /-- MEDIA_RUN (R29): Setting CLK_MEDIA_CTRL.RUN requests a start of media time, which waits for a usable PLL state. -/
  | mediaRun (path : Path) (v : Word)
  /-- MEDIA_COUNTER_START (R29): Once STATE is LOCKED, HOLDOVER or FREERUN, the counter starts at the block boundary given by R21 or R22,
  and WCLK_OUT is realigned. -/
  | mediaCounterStart (t : BitVec 64)
  /-- MT_LOAD (R22): Writing CLK_MEDIA_CTRL.MT_LOAD while media time is stopped copies CLK_MT_LOAD into MT, rounded down to a block
  boundary. -/
  | mtLoad (path : Path) (v : Word)
  /-- MT_READ (R25): A read of CLK_MT_LO returns MT[31:0] and latches the upper half for the path's next CLK_MT_HI read. -/
  | mtRead (path : Path) (frac : BitVec 8)
  /-- SOURCE_QUALIFIED (R30): A media clock source becomes qualified once its condition has held continuously for the stated time. -/
  | sourceQualified (x : ClockSource)
  /-- SOURCE_LOST (R30): A source meets its loss condition, and the PLL enters HOLDOVER and selects the next qualified source. -/
  | sourceLost (x : ClockSource) (avg : Word)
  /-- MEDIA_PLL_LOCKED (R31): After 16 consecutive measurements within CLK_LOCK_THR, the media PLL moves from ACQUIRE to LOCKED. -/
  | mediaPllLocked (ns : Int) (adj : Word)
  /-- SOURCE_PROMOTION (R32): A higher-ranked source that has stayed qualified for 2.0 s becomes the source to select. -/
  | sourcePromotion (x : ClockSource)
  /-- SOURCE_CHANGE (R32): A change of selected source takes effect at the next block boundary in SYS, without stepping MT. -/
  | sourceChange (ns : Int) (avg : Word)
  /-- PLL_LOCK_LOSS (R370): An on-die PLL loses lock, and the device acts by PLL: module restart, DAC clamp, or dropping the link. -/
  | pllLockLoss (pll : Fin 7)
  /-- BOUNDARY_STEP (R67): At the start of each period the Voice Allocator applies Part writes, processes ends and trims, and handles the
  released Normal and Bulk events. -/
  | boundaryStep (recs : List (List Byte))
  /-- EXPRESS_STEP (R67): At the Express cut-off the Timetable closes the Express release set, and the allocator processes the released
  Express events. -/
  | expressStep
  /-- RING_DOORBELL (R42): A write of ING_RINGn_PI makes the new entries arrive, or is refused when PI − CI would exceed the ring size. -/
  | ringDoorbell (path : Path) (n : Fin 8) (v : Word)
  /-- RING_ENTRY_READ (R57): The device reads a host ring entry and passes it on, or drains it when its source is disabled, and advances
  CI. -/
  | ringEntryRead (n : Fin 8) (data : List Byte)
  /-- SPI_FIFO_FORWARD (R45): An SPI FIFO entry passes to the Timetable once there is room, or is discarded when its source is disabled.
  -/
  | spiFifoForward
  /-- NMID_COMMAND (R46): A UMP Data command reaches the Timetable and is accepted, or discarded as redundant, duplicate or stale, and
  gaps are counted. -/
  | nmidCommand (sess : Fin 32) (seqno : Fin 65536) (umps : List (List Word))
  /-- TIMETABLE_ENTRY (R55): An event enters the Timetable with its stamp, class and lane, or is rejected or dropped. -/
  | timetableEntry (src : Fin 41) (ump : List Word) (stamp : Option (BitVec 64)) (cls : Option Cls) (notify : Bool) (tag : Word)
  /-- FENCE_PLACE (R62): A fence is placed in the fence list once every earlier event of its scope has entered the Timetable. -/
  | fencePlace
  /-- FENCE_COMPLETE (R63): When the last covered event is released or discarded, the fence completes, updates ING_LAST_FENCE and raises
  FENCE_DONE. -/
  | fenceComplete
  /-- NOTIFICATION_FLUSH (R65): A notification held internally is written into the ring once host software frees room. -/
  | notificationFlush
  /-- PART_QUOTA_WRITE (R73): A write of VA_PART_QUOTAn is performed, or refused when RSV and MAX break the limits. -/
  | partQuotaWrite (path : Path) (p : Fin 64) (v : Word)
  /-- HOST_PARAMETER_WRITE (R109): A write of PS_WR_DATA queues a host parameter write, or refuses it. -/
  | hostParameterWrite (path : Path) (v : Word)
  /-- MODULATION_EVAL (R115): After an allocation step, the Modulation Matrix computes targets and writes the ramp pairs of every voice in
  the set. -/
  | modulationEval (cycles : Nat)
  /-- TASK_BIND (R131): The Scheduler creates a task descriptor and places it on a Platform once the voice's pairs are written. -/
  | taskBind (x : Fin 1152) (cyc : Nat)
  /-- TASK_STAGE (R132): A free Siding slot is filled with the best available task and its state. -/
  | taskStage (n : Fin 34) (slot1 : Bool) (a : BitVec 25) (upset : Upset)
  /-- SIDING_MOVE (R133): Once the back frames are released, the Siding moves or exchanges the tasks of slots 0 and 1. -/
  | sidingMove (n : Fin 34)
  /-- TAKE (R160): The runtime issues TAKE and waits until the Siding offers a task whose staging is complete. -/
  | take (core : Fin 34) (p : Pred) (d : Fin 32) (rest : Bundle)
  /-- TAKE_DELIVERY (R160): A waiting TAKE completes: the frames swap, descriptor word 0 goes to Gd and the task's cycle count starts. -/
  | takeDelivery (n : Fin 34) (cyc wait : Nat)
  /-- YIELD (R161): YIELD ends the dispatched task with flags END or ERR and hands its front frames to the state mover. -/
  | yieldTask (core : Fin 34) (p : Pred) (flags : Fin 4) (rest : Bundle)
  /-- COMMIT_CHECK (R135): After copying the checkpoint, the state mover checks epoch, BSEQ and deadline, and commits or discards. -/
  | commitCheck (n : Fin 34) (ux uy : Upset)
  /-- STREAM_FILL_RETURN (R234): A Sample Memory read returns, and its frames are converted and written into the stream ring. -/
  | streamFillReturn (slot : Fin 1088) (k : Fin 2) (errs : List Nat)
  /-- TASK_DEADLINE (R140): A task's deadline passes: uncommitted blocks are concealed, misses are counted and slot states advance. -/
  | taskDeadline
  /-- TASK_ABORT (R142): A task's cycle count exceeds its limit: it is aborted and muted, and an ABORT core event is delivered. -/
  | taskAbort (n : Fin 34)
  /-- ABORT_TIMEOUT (R142): An aborted or recalled task has not YIELDed within 1,024 cycles, and its core enters the core-fault path. -/
  | abortTimeout (n : Fin 34)
  /-- SHUNT_REQUEST (R146): A write of SCH_SHUNT with GO requests a host shunt, or is refused. -/
  | shuntRequest (path : Path) (v : Word)
  /-- EXP_CYCLES_WRITE (R137): A write of SCH_EXP_CYCLES is performed, or refused when the hold would exceed the Express window. -/
  | expCyclesWrite (path : Path) (v : Word)
  /-- EXP_CFG_WRITE (R137): A write of SCH_EXP_CFG is performed, or refused when the hold would exceed the Express window. -/
  | expCfgWrite (path : Path) (v : Word)
  /-- HIST_CLEAR (R147): Writing SCH_CTRL.HCLR clears every wait histogram and every Platform peak. -/
  | histClear (path : Path) (v : Word)
  /-- VOICE_SUM_CLOSE (R247): After the voice deadline, once every accepted and concealed contribution is added, the buses' voice sums
  close. -/
  | voiceSumClose
  /-- BUS_TASK_DEADLINE (R15): The bus-task deadline passes ⌊0.2 × B⌋ samples into the period. -/
  | busTaskDeadline
  /-- FINAL_SUM_CLOSE (R247): After the bus-task deadline, once all terms are added, the final sums of the block close. -/
  | finalSumClose
  /-- FRAME_BOUNDARY (R260): At ⌊0.25 × B⌋ samples into the period, the held outputs are released and the router writes the block into
  every enabled queue. -/
  | frameBoundary
  /-- QUEUE_BLOCK_ARRIVAL (R264): A block completes in a queue in the MEDIA domain, and is dropped as newest when the queue is full. -/
  | queueBlockArrival (q : Fin 48)
  /-- OUTPUT_SAMPLE (R262): At each sample boundary, each queue releases a sample with its VALID mark, or starts an underrun fade or
  discards a late block. -/
  | outputSample (late : BitVec 8)
  /-- QUEUE_ENABLE (R265): Setting OQ_QqCFG.EN activates the queue at the next block boundary, to be primed by the first present block. -/
  | queueEnable (path : Path) (q : Fin 48) (v : Word)
  /-- QUEUE_DISABLE (R265): Clearing OQ_QqCFG.EN stops releases, plays the fade-out and clears PRIMED. -/
  | queueDisable (path : Path) (q : Fin 48) (v : Word)
  /-- CAPTURE_SAMPLE (R255): A port input sample arrives and is written into its capture block against its media time, or discarded when
  late. -/
  | captureSample (port : Fin 4) (ch : Fin 256) (t : BitVec 56) (second : Bool) (w : Word)
  /-- MONITOR_SAMPLE (R256): A monitor converter sample enters the cascade, and every eighth gives a monitor output. -/
  | monitorSample (c : Fin 8) (x : BitVec 12)
  /-- READBACK_ACTION (R286): At least 2 µs after a fault, FAULT_ACT applies NONE, MUTE or MIRROR at a sample boundary. -/
  | readbackAction (c : Fin 8)
  /-- COEF_WRITE (R252): A DEC_COEF_DATA write loads a tap and advances TAP, or is refused for a set that is in use. -/
  | coefWrite (path : Path) (v : Word)
  /-- TAPS_WRITE (R252): A DEC_TAPS write changes a set's tap count, or is refused for a set that is in use. -/
  | tapsWrite (path : Path) (v : Word)
  /-- BUS_SET_CHANGE (R253): A change of DEC_CTRL.BUS_SET starts a 64-sample cross-fade to the other coefficient set. -/
  | busSetChange (path : Path) (v : Word)
  /-- CAP_SET_CHANGE (R253): A change of DEC_CTRL.CAP_SET starts a 64-sample cross-fade for the capture channels. -/
  | capSetChange (path : Path) (v : Word)
  /-- MONITOR_LENGTH_WRITE (R257): A change of DEC_MON_CFG.LEN clears the cascades and marks outputs as settling. -/
  | monitorLengthWrite (path : Path) (v : Word)
  /-- CAPTURE_SOURCE_WRITE (R255): A DEC_CAPk_SRC write is performed, or refused when it sets RATE2X at double-rate Fs. -/
  | captureSourceWrite (path : Path) (k : Fin 128) (v : Word)
  /-- CLAMP_RELEASE (R275): After 1,024 modulator cycles at the clear code, the analog clamp is released and the channel enters CLEAR. -/
  | clampRelease (c : Fin 8)
  /-- CLEAR_RAMP_END (R276): A 64-sample clear ramp ends, and the channel holds its clear code or goes to CLAMP. -/
  | clearRampEnd (c : Fin 8)
  /-- OUTCLR_ASSERT (R278): OUTCLR is recognised as asserted: every channel is forced to its clear code and OUTCLR_ACTIVE is raised. -/
  | outclrAssert
  /-- OUTCLR_RELEASE (R279): OUTCLR is recognised as released, and each channel ramps back over 64 samples. -/
  | outclrRelease
  /-- SOFTWARE_CLEAR (R278): DAC_CTRL.SWCLR forces or releases a clear, as the OUTCLR pin does. -/
  | softwareClear (path : Path) (v : Word)
  /-- FILTER_SWITCH (R280): A write of DAC_CTRL.FILT_MP runs a switch sequence on every channel, or is refused during a switch. -/
  | filterSwitch (path : Path) (v : Word)
  /-- RANGE_SWITCH (R280): A write of DAC_CHc_CFG.RANGE runs a switch sequence, or is refused for ×2 without AVDD_HI or in SWITCH. -/
  | rangeSwitch (path : Path) (c : Fin 8) (v : Word)
  /-- SWITCH_GAIN_CHANGE (R280): At sample 64 of a switch sequence, the reference gain, the attenuator and the filter mode change. -/
  | switchGainChange (c : Fin 8)
  /-- SWITCH_SEQUENCE_END (R280): After 144 samples the switch sequence ends, and the channel returns to its former state. -/
  | switchSequenceEnd (c : Fin 8)
  /-- CLEAR_CODE_WRITE (R277): A DAC_CHc_CLR write moves the clear level at the next output sample boundary. -/
  | clearCodeWrite (path : Path) (c : Fin 8) (v : Word)
  /-- MASK_WRITE (R277): A DAC_CHc_CFG.MASK write masks or unmasks data from the next output sample boundary. -/
  | maskWrite (path : Path) (c : Fin 8) (v : Word)
  /-- CHANNEL_ENABLE (R275): Setting DAC_CHc_CFG.EN lets the channel start leaving CLAMP once its conditions hold. -/
  | channelEnable (path : Path) (c : Fin 8) (v : Word)
  /-- CHANNEL_DISABLE (R289): Clearing DAC_CHc_CFG.EN takes the channel through a clear ramp to CLAMP. -/
  | channelDisable (path : Path) (c : Fin 8) (v : Word)
  /-- TONE_ENABLE (R282): Setting the tone EN resets the phase and fades the test tone in over 64 samples. -/
  | toneEnable (path : Path) (c : Fin 8) (v : Word)
  /-- TONE_DISABLE (R282): Clearing the tone EN fades the test tone out over 64 samples. -/
  | toneDisable (path : Path) (c : Fin 8) (v : Word)
  /-- READBACK_FAULT_CLEAR (R287): Writing 1 to RB_FAULT returns the channel to CLEAR and ends the partner's mirroring. -/
  | readbackFaultClear (path : Path) (c : Fin 8) (v : Word)
  /-- OVERCURRENT_TRIP (R288): A leg exceeds 40 mA: its current is limited, the clamp engages, OC is set and FAULT_ACT applies. -/
  | overcurrentTrip (c : Fin 8) (nLeg : Bool)
  /-- OVERCURRENT_CLEAR (R288): Host software clears both OC bits, and the channel restarts under R275. -/
  | overcurrentClear (path : Path) (c : Fin 8) (v : Word)
  /-- AVDD_CHANGE (R400): AVDD crosses the 2.9 V supervision level; AVDD_OK changes and channels are held in CLAMP or released. -/
  | avddChange (ok hi : Bool)
  /-- CONCOURSE_WRITEBACK (R295): A corrected Concourse word is written back in the bank's next idle cycle, unless a write came first. -/
  | concourseWriteback (w : BitVec 21)
  /-- TEST_MODE_WRITE (R301): A write of CON_CTRL.TEST enters or leaves TEST mode, or is refused while media time runs or cores are in
  service. -/
  | testModeWrite (path : Path) (v : Word)
  /-- ATTRIBUTE_WRITE (R302): A CON_ATTRi write sets granule modes and NOBORROW, or is refused whole for mode 0b11. -/
  | attributeWrite (path : Path) (i : Fin 64) (v : Word)
  /-- BACKGROUND_TEST_START (R306): Every BT_DIV + 1 block periods, the tester saves the next region and starts its March. -/
  | backgroundTestStart
  /-- MARCH_DONE (R305): A region's March completes, the region is restored and counted, and the redirect ends. -/
  | marchDone (fail : Option (Fin 256 × Fin 137))
  /-- BACKGROUND_TEST_TIMEOUT (R306): A March not finished within one block period is restored, counted as aborted and retried. -/
  | backgroundTestTimeout
  /-- BANK_REBUILD (R309): Service operation 0x03 starts rebuilding an in-service bank onto a spare, and its group enters RECOVERY. -/
  | bankRebuild (path : Path) (v : Word)
  /-- REBUILD_ROW (R309): Once per PACE cycles the rebuild engine writes the XOR of one row's other words into the spare. -/
  | rebuildRow (redo : Bool) (upsets : List (Fin 9 × Upset))
  /-- BANK_RETURN (R312): Service operation 0x04 starts testing a RETIRED bank with the March. -/
  | bankReturn (path : Path) (v : Word)
  /-- BANK_RETURN_DONE (R312): The returned bank's March ends, and the bank becomes SPARE or stays RETIRED. -/
  | bankReturnDone (fail : Option (Fin 128 × Fin 256 × Fin 137))
  /-- SCRUB_LINE (R318): The patrol scrub reads the next Sample Memory line and writes it back when corrected. -/
  | scrubLine (errs odecc0 odecc1 : Nat)
  /-- PAGE_RETIRE_DONE (R319): The copied page's address switches to the replacement unit in one cycle. -/
  | pageRetireDone (page : BitVec 20) (failed : Nat) (errs : List Nat)
  /-- TABLE_REGION_WRITE (R219): A write of SPF_TBLr_BASE or SPF_TBLr_CFG is performed, or refused when the region would overlap device
  areas. -/
  | tableRegionWrite (path : Path) (r : Fin 60) (isCfg : Bool) (v : Word)
  /-- NOP (R199): A no-operation performs nothing. -/
  | nop (core : Fin 34) (rest : Bundle)
  /-- MUL (R173): MUL places the exact product in an accumulator and clears its AV. -/
  | mul (core : Fin 34) (p : Pred) (n : Fin 4) (a b : Fin 32) (rest : Bundle)
  /-- MAC (R173): MAC adds the exact product to an accumulator under R175. -/
  | mac (core : Fin 34) (p : Pred) (n : Fin 4) (a b : Fin 32) (rest : Bundle)
  /-- MSC (R173): MSC subtracts the exact product from an accumulator under R175. -/
  | msc (core : Fin 34) (p : Pred) (n : Fin 4) (a b : Fin 32) (rest : Bundle)
  /-- CMUL (R174): CMUL forms a complex product into an accumulator pair. -/
  | cmul (core : Fin 34) (p : Pred) (n : Fin 4) (a b : Fin 32) (rest : Bundle)
  /-- CMAC (R174): CMAC adds a complex product to an accumulator pair. -/
  | cmac (core : Fin 34) (p : Pred) (n : Fin 4) (a b : Fin 32) (rest : Bundle)
  /-- CMSC (R174): CMSC subtracts a complex product from an accumulator pair. -/
  | cmsc (core : Fin 34) (p : Pred) (n : Fin 4) (a b : Fin 32) (rest : Bundle)
  /-- CMACJ (R174): CMACJ adds x times the conjugate of y to an accumulator pair. -/
  | cmacj (core : Fin 34) (p : Pred) (n : Fin 4) (a b : Fin 32) (rest : Bundle)
  /-- DOT2 (R200): DOT2 replaces an accumulator with the sum of two products. -/
  | dot2 (core : Fin 34) (p : Pred) (n : Fin 4) (a b : Fin 32) (rest : Bundle)
  /-- DOT2A (R200): DOT2A adds the sum of two products to an accumulator. -/
  | dot2a (core : Fin 34) (p : Pred) (n : Fin 4) (a b : Fin 32) (rest : Bundle)
  /-- DOT4 (R200): DOT4 replaces an accumulator with the sum of four products. -/
  | dot4 (core : Fin 34) (p : Pred) (n : Fin 4) (a b : Fin 32) (rest : Bundle)
  /-- DOT4A (R200): DOT4A adds the sum of four products to an accumulator. -/
  | dot4a (core : Fin 34) (p : Pred) (n : Fin 4) (a b : Fin 32) (rest : Bundle)
  /-- CRES0 (R201): CRES0 steps a resonator, replacing the accumulators in repetition 0 and writing the new state. -/
  | cres0 (core : Fin 34) (p : Pred) (n : Fin 4) (a b : Fin 32) (rest : Bundle)
  /-- CRES (R201): CRES steps a resonator, accumulating its output and writing the new state. -/
  | cres (core : Fin 34) (p : Pred) (n : Fin 4) (a b : Fin 32) (rest : Bundle)
  /-- LD (R202): LD loads a word into a G register through a pointer, with post-modify. -/
  | ld (core : Fin 34) (y : Bool) (p : Pred) (reg : Fin 32) (ptr : Fin 8) (am : Addressing) (rest : Bundle) (acc other : Access)
  /-- ST (R202): ST stores a G register unchanged through a pointer. -/
  | st (core : Fin 34) (y : Bool) (p : Pred) (reg : Fin 32) (ptr : Fin 8) (am : Addressing) (rest : Bundle) (acc other : Access)
  /-- LD2 (R202): LD2 loads a 64-bit pair into an even/odd G register pair. -/
  | ld2 (core : Fin 34) (y : Bool) (p : Pred) (reg : Fin 32) (ptr : Fin 8) (am : Addressing) (rest : Bundle) (acc other : Access)
  /-- ST2 (R202): ST2 stores an even/odd G register pair as 64 bits. -/
  | st2 (core : Fin 34) (y : Bool) (p : Pred) (reg : Fin 32) (ptr : Fin 8) (am : Addressing) (rest : Bundle) (acc other : Access)
  /-- LDA (R202): LDA loads an accumulator explicitly from a word and clears its AV. -/
  | lda (core : Fin 34) (y : Bool) (p : Pred) (reg : Fin 32) (ptr : Fin 8) (am : Addressing) (rest : Bundle) (acc other : Access)
  /-- ST_Q (R178): ST.Q31 or ST.Q23 stores a rounded, saturated read of an accumulator. -/
  | stQ (core : Fin 34) (y : Bool) (p : Pred) (reg : Fin 32) (ptr : Fin 8) (am : Addressing) (rest : Bundle) (acc other : Access)
  /-- LDX (R202): LDX loads a pointer, modifier, length or base register from memory. -/
  | ldx (core : Fin 34) (y : Bool) (p : Pred) (reg : Fin 32) (ptr : Fin 8) (am : Addressing) (rest : Bundle) (acc other : Access)
  /-- STX (R202): STX stores a pointer, modifier, length or base register to memory. -/
  | stx (core : Fin 34) (y : Bool) (p : Pred) (reg : Fin 32) (ptr : Fin 8) (am : Addressing) (rest : Bundle) (acc other : Access)
  /-- REP (R191): REP repeats the bundle's M, X and Y operations n more times. -/
  | rep (core : Fin 34) (p : Pred) (count : Count) (rest : Bundle)
  /-- CLRAV (R177): CLRAV clears the AV and direction bits of the selected accumulators in the write cycle. -/
  | clrav (core : Fin 34) (p : Pred) (mask : Fin 16) (rest : Bundle)
  /-- MOV (R206): MOV copies a G register. -/
  | mov (core : Fin 34) (p : Pred) (d a : Fin 32) (rest : Bundle)
  /-- NOT (R206): NOT writes the bitwise inverse of a G register. -/
  | not (core : Fin 34) (p : Pred) (d a : Fin 32) (rest : Bundle)
  /-- NEGS (R181): NEGS writes the saturated negation of a G register. -/
  | negs (core : Fin 34) (p : Pred) (d a : Fin 32) (rest : Bundle)
  /-- ABSS (R181): ABSS writes the saturated absolute value of a G register. -/
  | abss (core : Fin 34) (p : Pred) (d a : Fin 32) (rest : Bundle)
  /-- MTX (R206): MTX writes a pointer, modifier, length or base register from a G register. -/
  | mtx (core : Fin 34) (p : Pred) (file : AddrFile) (i : Fin 8) (a : Fin 32) (rest : Bundle)
  /-- MFX (R206): MFX reads a pointer, modifier, length or base register into a G register. -/
  | mfx (core : Fin 34) (p : Pred) (d : Fin 32) (file : AddrFile) (i : Fin 8) (rest : Bundle)
  /-- MVA (R206): MVA loads an accumulator, or part of one, from a G register and clears its AV. -/
  | mva (core : Fin 34) (p : Pred) (part : AccPart) (n : Fin 4) (a : Fin 32) (rest : Bundle)
  /-- MFA (R206): MFA reads a raw part of an accumulator into a G register. -/
  | mfa (core : Fin 34) (p : Pred) (part : AccPart) (n : Fin 4) (d : Fin 32) (rest : Bundle)
  /-- MVR (R178): MVR moves a rounded read of an accumulator into a G register. -/
  | mvr (core : Fin 34) (p : Pred) (q23 : Bool) (n : Fin 4) (d : Fin 32) (rest : Bundle)
  /-- PSET (R206): PSET sets a predicate flag to a constant. -/
  | pset (core : Fin 34) (p : Pred) (v : Bool) (d : Fin 8) (rest : Bundle)
  /-- PAND (R206): PAND writes the AND of two predicate flags. -/
  | pand (core : Fin 34) (p : Pred) (d a b : Fin 8) (rest : Bundle)
  /-- POR (R206): POR writes the OR of two predicate flags. -/
  | por (core : Fin 34) (p : Pred) (d a b : Fin 8) (rest : Bundle)
  /-- PXOR (R206): PXOR writes the XOR of two predicate flags. -/
  | pxor (core : Fin 34) (p : Pred) (d a b : Fin 8) (rest : Bundle)
  /-- PNOT (R206): PNOT writes the inverse of a predicate flag. -/
  | pnot (core : Fin 34) (p : Pred) (d a : Fin 8) (rest : Bundle)
  /-- MFF (R206): MFF copies F7–F0 into a G register. -/
  | mff (core : Fin 34) (p : Pred) (d : Fin 32) (rest : Bundle)
  /-- MTF (R206): MTF sets F7–F0 from a G register. -/
  | mtf (core : Fin 34) (p : Pred) (a : Fin 32) (rest : Bundle)
  /-- ERET (R165): ERET restores the mode, sets EIE and resumes at EPC. -/
  | eret (core : Fin 34) (p : Pred) (rest : Bundle)
  /-- BR (R209): BR branches to the address in a G register after two delay slots. -/
  | br (core : Fin 34) (p : Pred) (a : Fin 32) (rest : Bundle)
  /-- B (R209): B branches to an immediate address after two delay slots. -/
  | b (core : Fin 34) (p : Pred) (t : Fin 8192) (rest : Bundle)
  /-- BL (R209): BL branches and writes the return address into a G register. -/
  | bl (core : Fin 34) (p : Pred) (d : Fin 32) (t : Fin 8192) (rest : Bundle)
  /-- RND (R225): RND writes the next noise value h(K0, K1, C) and advances C. -/
  | rnd (core : Fin 34) (p : Pred) (d : Fin 32) (rest : Bundle)
  /-- RSEED (R225): RSEED sets the noise key from a register pair and clears the counter. -/
  | rseed (core : Fin 34) (p : Pred) (a : Fin 32) (rest : Bundle)
  /-- PASET (R216): PASET writes the phase or increment of a phase accumulator. -/
  | paset (core : Fin 34) (p : Pred) (incr : Bool) (k : Fin 16) (a : Fin 32) (rest : Bundle)
  /-- PAGET (R216): PAGET reads the phase or increment of a phase accumulator. -/
  | paget (core : Fin 34) (p : Pred) (incr : Bool) (k : Fin 16) (d : Fin 32) (rest : Bundle)
  /-- PACC (R216): PACC writes the phase, advances it by the increment and may set a carry flag. -/
  | pacc (core : Fin 34) (p : Pred) (carry : Option (Fin 8)) (k : Fin 16) (d : Fin 32) (rest : Bundle)
  /-- ADD (R181): ADD writes the wrapping sum of two operands. -/
  | add (core : Fin 34) (p : Pred) (d a : Fin 32) (b : Operand2) (rest : Bundle)
  /-- SUB (R181): SUB writes the wrapping difference of two operands. -/
  | sub (core : Fin 34) (p : Pred) (d a : Fin 32) (b : Operand2) (rest : Bundle)
  /-- ADDS (R181): ADDS writes the saturating sum of two operands. -/
  | adds (core : Fin 34) (p : Pred) (d a : Fin 32) (b : Operand2) (rest : Bundle)
  /-- SUBS (R181): SUBS writes the saturating difference of two operands. -/
  | subs (core : Fin 34) (p : Pred) (d a : Fin 32) (b : Operand2) (rest : Bundle)
  /-- AND (R181): AND writes the bitwise AND of two operands. -/
  | and (core : Fin 34) (p : Pred) (d a : Fin 32) (b : Operand2) (rest : Bundle)
  /-- OR (R181): OR writes the bitwise OR of two operands. -/
  | or (core : Fin 34) (p : Pred) (d a : Fin 32) (b : Operand2) (rest : Bundle)
  /-- XOR (R181): XOR writes the bitwise XOR of two operands. -/
  | xor (core : Fin 34) (p : Pred) (d a : Fin 32) (b : Operand2) (rest : Bundle)
  /-- LSL (R181): LSL writes a logical left shift. -/
  | lsl (core : Fin 34) (p : Pred) (d a : Fin 32) (b : Operand2) (rest : Bundle)
  /-- LSR (R181): LSR writes a logical right shift. -/
  | lsr (core : Fin 34) (p : Pred) (d a : Fin 32) (b : Operand2) (rest : Bundle)
  /-- ASR (R181): ASR writes an arithmetic right shift. -/
  | asr (core : Fin 34) (p : Pred) (d a : Fin 32) (b : Operand2) (rest : Bundle)
  /-- LSLS (R181): LSLS writes a saturating left shift. -/
  | lsls (core : Fin 34) (p : Pred) (d a : Fin 32) (b : Operand2) (rest : Bundle)
  /-- CMPCC (R206): CMPcc writes the result of a signed or unsigned comparison into a predicate flag. -/
  | cmpcc (core : Fin 34) (p : Pred) (cc : Cond) (d : Fin 8) (a b : Fin 32) (rest : Bundle)
  /-- ADDI (R206): ADDI adds a signed 16-bit immediate to a G register. -/
  | addi (core : Fin 34) (p : Pred) (d a : Fin 32) (imm : BitVec 16) (rest : Bundle)
  /-- MOVI (R206): MOVI loads a sign-extended 21-bit immediate. -/
  | movi (core : Fin 34) (p : Pred) (d : Fin 32) (imm : BitVec 21) (rest : Bundle)
  /-- MOVL (R206): MOVL loads a 32-bit immediate. -/
  | movl (core : Fin 34) (p : Pred) (d : Fin 32) (imm : BitVec 32) (rest : Bundle)
  /-- MFC (R158): MFC reads a control register by number, latching the high half of counter pairs. -/
  | mfc (core : Fin 34) (p : Pred) (d : Fin 32) (cr : Fin 64) (rest : Bundle)
  /-- MTC (R158): MTC writes a control register by number, subject to mode. -/
  | mtc (core : Fin 34) (p : Pred) (cr : Fin 64) (a : Fin 32) (rest : Bundle)
  /-- LOOP (R192): LOOP starts a zero-overhead loop of t iterations over a body. -/
  | loop (core : Fin 34) (p : Pred) (count : Count) (stop : Fin 8192) (rest : Bundle)
  /-- LOOP_R (R194): LOOP.R starts a loop with rotating registers and stage predicates. -/
  | loopR (core : Fin 34) (p : Pred) (count : Count) (stop : Fin 8192) (step : RotStep) (stages : Fin 4) (rest : Bundle)
  /-- VENTER (R150): VENTER branches to a voice program and switches to Voice mode. -/
  | venter (core : Fin 34) (p : Pred) (t : Fin 8192) (rest : Bundle)
  /-- PRAMP (R218): PRAMP reads a ramped Modulated value and advances the ramp position. -/
  | pramp (core : Fin 34) (p : Pred) (k : Fin 128) (d : Fin 32) (rest : Bundle)
  /-- TFETCH (R220): TFETCH reads interpolation points and weights from a table region. -/
  | tfetch (core : Fin 34) (p : Pred) (cubic : Bool) (r : Fin 64) (g : Fin 4) (a : Fin 32) (rest : Bundle) (acc : Access)
  /-- TREAD (R220): TREAD reads one word of a table region. -/
  | tread (core : Fin 34) (p : Pred) (r : Fin 64) (d a : Fin 32) (rest : Bundle) (acc : Access)
  /-- BLEP (R224): BLEP reads a band-limited correction from a fixed table. -/
  | blep (core : Fin 34) (p : Pred) (t : Fin 8) (d a : Fin 32) (rest : Bundle)
  /-- CORE_EVENT_TAKE (R165): At a permitted bundle boundary the core takes the highest pending unmasked event and branches to EVEC. -/
  | coreEventTake (n : Fin 34)
  /-- DOORBELL_WRITE (R164): A write of VC_DBELL sets DBELL and makes a DOORBELL event pending. -/
  | doorbellWrite (path : Path) (n : Fin 34) (v : Word)
  /-- HALT_REQUEST (R164): Writing VC_CTRL.HALT raises a DEBUG event, or resumes the core when cleared. -/
  | haltRequest (path : Path) (n : Fin 34) (v : Word)
  /-- SINGLE_STEP (R164): Writing VC_CTRL.STEP while halted executes one bundle and halts again. -/
  | singleStep (path : Path) (n : Fin 34) (v : Word) (ax ay : Access)
  /-- PROGRAM_LOAD (R170): A write of VC_PM_DATA_HI loads a bundle and advances VC_PM_ADDR, or is refused while in service. -/
  | programLoad (path : Path) (n : Fin 34) (v : Word)
  /-- CORE_LOGIC_CHECK_FAIL (R360): A parity check on a core register or latch fails, and the core enters the core-fault path. -/
  | coreLogicCheckFail (n : Fin 34)
  /-- CORE_UE_TIMEOUT (R360): 1,024 cycles after a core memory error without a YIELD or TAKE, the core enters the core-fault path. -/
  | coreUeTimeout (n : Fin 34) (idle : Nat)
  /-- SPARE_ENTER_SERVICE (R366): After its program copy, a spare from the Roundhouse enters service and the departed core's slots are
  shunted to it. -/
  | spareEnterService (n : Fin 34) (upset : Upset)
  /-- LINK_CHANGE (R322): An Ethernet link goes up or down and raises NETA_LINK or NETB_LINK. -/
  | linkChange (port : Fin 2) (up gbe : Bool) (avg : Word)
  /-- FRAME_RECEIVE (R323): A received Ethernet frame is checked and classified to gPTP, a stream, a session or the host path. -/
  | frameReceive (port : Fin 2) (bad : Bool) (frame : List Byte) (now : BitVec 64) (ptp : Option PtpView) (buf : BitVec 64)
  /-- SYNC_TRANSMIT (R326): At each Sync interval the PTP instance sends a two-step Sync. -/
  | syncTransmit
  /-- SYNC_TIMEOUT (R30): No Sync has been received for 3 Sync intervals, and the port's gPTP slave is lost. -/
  | syncTimeout (port : Fin 2) (avg : Word)
  /-- PACKET_DEADLINE (R333): At a packet's deadline the device counts it as repaired, or as missing with its samples zero. -/
  | packetDeadline (i : Fin 32)
  /-- STREAM_PACKET_TRANSMIT (R331): After the queue releases SPP samples, the port launches the stream packet, or discards it when late.
  -/
  | streamPacketTransmit (i : Fin 32)
  /-- STREAM_CONFIG_WRITE (R330): A stream register write is performed, or refused under the budget and enable rules. -/
  | streamConfigWrite (path : Path) (o : Fin 0x600) (v : Word)
  /-- SESSION_ENABLE (R335): Setting NMID_SESSn_CFG.EN installs the session with an empty sequence window. -/
  | sessionEnable (path : Path) (n : Fin 32) (v : Word)
  /-- SESSION_DISABLE (R335): Clearing NMID_SESSn_CFG.EN makes later packets of the session be discarded and counted. -/
  | sessionDisable (path : Path) (n : Fin 32) (v : Word)
  /-- SESSION_ADDRESS_WRITE (R335): A write of NMID_SESSn_ADDR or NMID_SESSn_PORT is performed, or refused while the session is enabled.
  -/
  | sessionAddressWrite (path : Path) (n : Fin 32) (isPort : Bool) (v : Word)
  /-- HOST_TX_DOORBELL (R337): A write of NETx_HTX_PI adds host transmit entries. -/
  | hostTxDoorbell (path : Path) (port : Fin 2) (v : Word)
  /-- HOST_FRAME_SENT (R337): The port sends a host frame in ring order and sets DONE on its entry. -/
  | hostFrameSent (port : Fin 2) (pcp : Fin 8) (frame : List Byte)
  /-- PCIE_RESET (R339): A FLR, hot reset or PERST# resets only the endpoint, the DMA engine and the host streams. -/
  | pcieReset (kind : PcieReset) (gen width : Fin 4)
  /-- REGISTER_WRITE (R425): A host write to a register with no row of its own is performed under the access codes, lock and ordering
  rules. -/
  | registerWrite (path : Path) (off : BitVec 20) (be : BitVec 4) (v : Word)
  /-- GLB_READ (R431): A host read of a GLB register returns only after the path's earlier writes have taken effect. -/
  | glbRead (path : Path) (o : Fin 1024)
  /-- PCIE_CONCOURSE_ACCESS (R338): A BAR2 request reads or writes the Concourse through port B. -/
  | pcieConcourseAccess (a : BitVec 25) (wr : Option (List Byte)) (n : Fin 4097) (meet : List (Nat × Access))
  /-- PCIE_SAMPLE_MEMORY_ACCESS (R338): A BAR4 request reads or writes the Sample Memory data range. -/
  | pcieSampleMemoryAccess (a : BitVec 32) (wr : Option (List Byte)) (n : Fin 4097) (errs : List (Nat × Nat))
  /-- PCIE_ATOMIC (R304): A 32-bit FetchAdd or Swap is performed at the bank, or completes as Unsupported Request. -/
  | pcieAtomic (kind : AtomicKind) (bar2 wide : Bool) (a : BitVec 25) (v : Word) (acc : Access)
  /-- DMA_DOORBELL (R341): A write of PCI_DMA_PI adds DMA descriptors. -/
  | dmaDoorbell (path : Path) (v : Word)
  /-- DMA_COPY (R341): A COPY descriptor moves data between host, Concourse and Sample Memory, and its status is written. -/
  | dmaCopy (desc : List Byte) (m : DmaMeet)
  /-- DMA_FILL (R341): A FILL descriptor writes its operand over the destination. -/
  | dmaFill (desc : List Byte) (m : DmaMeet)
  /-- DMA_ADD32 (R304): An ADD32 descriptor adds its operand atomically and returns the old value. -/
  | dmaAdd32 (desc : List Byte) (m : DmaMeet)
  /-- DMA_SWAP (R304): A SWAP descriptor swaps a word atomically and returns the old value. -/
  | dmaSwap (desc : List Byte) (m : DmaMeet)
  /-- SPI_WRITE (R345): An SPI WRITE transaction writes 1–64 register words. -/
  | spiWrite (off : BitVec 20) (words : List Word) (clocks : BitVec 16)
  /-- SPI_RDREQ (R345): An SPI RDREQ transaction latches up to 16 register words for reading. -/
  | spiRdreq (off : BitVec 20) (n : Fin 16) (clocks : BitVec 16)
  /-- SPI_RDDATA (R345): An SPI RDDATA transaction returns the status byte and the latched words. -/
  | spiRddata (clocks : BitVec 16)
  /-- SPI_EVENT (R345): An SPI EVENT transaction places a 32-byte entry in the SPI FIFO. -/
  | spiEvent (entry : List Byte) (clocks : BitVec 16)
  /-- SPI_STATUS (R345): An SPI STATUS transaction returns the status byte and clears REFUSED and FRAME_ERR. -/
  | spiStatus (clocks : BitVec 16)
  /-- TDM_FRAME (R350): A TDM frame carries one queue sample out and one capture sample in for each slot. -/
  | tdmFrame (p : Fin 4) (din : List Word) (edge : BitVec 64) (wrongLength : Bool)
  /-- TDM_LOCK (R351): After 16 frames a slave port measures its phase and sets LOCKED. -/
  | tdmLock (p : Fin 4) (phase : BitVec 8)
  /-- TDM_BCLK_LOSS (R351): A slave port loses BCLK and clears LOCKED. -/
  | tdmBclkLoss (p : Fin 4)
  /-- TDM_CONFIG_WRITE (R349): A TDM_Pp_CFG write is performed, or refused for 16 slots at double rate or a change while enabled. -/
  | tdmConfigWrite (path : Path) (p : Fin 4) (v : Word)
  /-- CORE_RETIRE (R373): Service operation 0x01 takes an in-service core out of service. -/
  | coreRetire (path : Path) (v : Word)
  /-- CORE_RECALL (R168): At the first block boundary after CORE_RETIRE, RECALL is raised on the core. -/
  | coreRecall (n : Fin 34)
  /-- CORE_RESTORE (R373): Service operation 0x02 tests an out-of-service core and puts it in the Roundhouse. -/
  | coreRestore (path : Path) (v : Word)
  /-- DRAM_PAGE_RETIRE (R373): Service operation 0x05 retires a Sample Memory page. -/
  | dramPageRetire (path : Path) (v : Word)
  /-- DRAM_SCRUB_FULL (R318): Service operation 0x06 runs one full scrub pass at up to 2.0 GB/s. -/
  | dramScrubFull (path : Path) (v : Word)
  /-- CFG_COMMIT (R411): Service operation 0x07 writes an image from the Concourse into a flash slot, with VALID last. -/
  | cfgCommit (path : Path) (v : Word)
  /-- CFG_RELOAD (R411): Service operation 0x08 ends every stream, then loads and applies a flash image. -/
  | cfgReload (path : Path) (v : Word)
  /-- STANDBY_ENTER (R413): Service operation 0x09 stops ingress and media time and prepares entry to standby. -/
  | standbyEnter (path : Path) (v : Word)
  /-- STANDBY_REACHED (R413): After media time stops, slots are freed, memories enter retention, VCORE turns off and STATE becomes
  STANDBY. -/
  | standbyReached
  /-- PORT_FAILOVER_TEST (R373): Service operation 0x0A suppresses a port's receive traffic for a time and reports the losses. -/
  | portFailoverTest (path : Path) (v : Word)
  /-- SVC_ABORT (R374): An SVC_ABORT naming the running operation stops it before its commit point, or loses after it. -/
  | svcAbort (path : Path) (v : Word)
  /-- SERVICE_OPERATION_COMPLETE (R372): A running service operation completes: BUSY clears, DONE and its flags are set, and SVC_DONE is
  raised. -/
  | serviceOperationComplete (fail : Bool) (flashLog : Fin 7) (image : List Byte)
  /-- AUTO_REBUILD_START (R375): A queued automatic BANK_REBUILD starts in the first cycle in which the Service Port is not busy. -/
  | autoRebuildStart
  /-- ERROR_INJECT_ARM (R357): A PAGE_ERR_INJ write with GO arms a detector, or is refused. -/
  | errorInjectArm (path : Path) (p : Fin 66) (v : Word)
  /-- HEARTBEAT_KICK (R380): A write of IRQ_HB_KICK restarts the host heartbeat timer. -/
  | heartbeatKick (path : Path) (v : Word)
  /-- HEARTBEAT_EXPIRY (R380): The heartbeat timer expires: HOST_HEARTBEAT_LOST is raised and ACT is applied. -/
  | heartbeatExpiry
  /-- WATCHDOG_EXPIRY (R371): A domain has been silent for 1 ms, and the domain watchdog performs a module restart. -/
  | watchdogExpiry
  /-- MODULE_RESTART_REQUEST (R401): A write of PWR_CTRL.MRST with KEY 0x5253 performs a module restart. -/
  | moduleRestartRequest (path : Path) (v : Word)
  /-- PAGE_DISABLE (R354): Clearing a page's PAGE_CTRL.EN sets DRAINING and drains the block under its own rule. -/
  | pageDisable (path : Path) (p : Fin 66) (v : Word)
  /-- PAGE_ENABLE (R354): Setting a page's PAGE_CTRL.EN resumes the block, deferred until IDLE when a drain is running. -/
  | pageEnable (path : Path) (p : Fin 66) (v : Word)
  /-- PAGE_IDLE (R354): A draining block finishes and sets PAGE_STAT.IDLE. -/
  | pageIdle (p : Fin 66)
  /-- PAGE_SOFT_RESET (R424): Writing PAGE_CTRL.SRST clears the page's counters and W1C flags. -/
  | pageSoftReset (path : Path) (p : Fin 66) (v : Word)
  /-- PAGE_LOCK (R423): Writing PAGE_CTRL.LOCK makes later configuration writes to the page be refused. -/
  | pageLock (path : Path) (p : Fin 66) (v : Word)
  /-- GLB_FENCE (R430): A GLB_FENCE write orders host register writes and places an event fence, or is refused. -/
  | glbFence (path : Path) (v : Word)
  /-- PMU_DUMP (R387): At a due block boundary the PMU snapshots its counters and starts writing a record, or skips the dump. -/
  | pmuDump
  /-- PMU_DUMP_COMPLETE (R389): The record is written, PMU_PI advances and PERF_DUMP_DONE is raised. -/
  | pmuDumpComplete
  /-- PMU_COUNTER_READ (R394): A read of PMU_CNT_LO returns the selected counter's low bits and latches its high bits. -/
  | pmuCounterRead (path : Path)
  /-- PMU_RING_CONFIG_WRITE (R391): A write of the PMU ring base or configuration is performed, or refused while dumps are enabled or
  running. -/
  | pmuRingConfigWrite (path : Path) (i : Fin 3) (v : Word)
  /-- POWER_ON_RESET (R399): VIN crosses the POR threshold, and the whole module is reset or released. -/
  | powerOnReset (rises : Bool)
  /-- VIO_BANK_CHANGE (R399): A VIO bank falls below or rises above 1.6 V, and its pads go high-impedance or return. -/
  | vioBankChange (bankB up : Bool) (txn : Option (BitVec 8 × Nat))
  /-- BOOT_INIT_DONE (R403): INIT ends after PLL lock, Concourse initialisation, core self-tests and DRAM and flash set-up. -/
  | bootInitDone (passed : BitVec 34) (validA validB : Bool) (seqA seqB : Word)
  /-- IMAGE_CHECK (R407): A configuration image has been read and buffered, and is checked; a failure leads to BACKOFF. -/
  | imageCheck (identified : Bool) (flashLog : Fin 7) (bytes : List Byte)
  /-- BACKOFF_EXPIRY (R403): The 100 ms back-off ends, and the next image attempt starts. -/
  | backoffExpiry
  /-- HOST_IMAGE_GO (R410): A write of BOOT_CTRL.HOST_GO requests LOAD_HOST, or is ignored. -/
  | hostImageGo (path : Path) (v : Word)
  /-- FUSE_PROGRAM (R409): A BOOT_FUSE_CTRL write with PROG and KEY starts programming the signature fuse, or is refused. -/
  | fuseProgram (path : Path) (v : Word)
  /-- FUSE_PROGRAM_DONE (R409): After 10 ms the fuse is programmed and PROGRAMMED becomes 1. -/
  | fuseProgramDone
  /-- WAKE_PIN (R415): A WAKE pin edge held for 1 µs is a wake event. -/
  | wakePin (rising : Bool)
  /-- WAKE_REQUEST (R415): A write of PWR_CTRL.WAKE is a wake event. -/
  | wakeRequest (path : Path) (v : Word)
  /-- WAKE_COMPLETE (R416): Exactly 4.0 ms after the wake event, STATE becomes ACTIVE and STANDBY_WAKE is raised. -/
  | wakeComplete (bad : List (Fin 34))
  /-- THERMAL_SAMPLE (R418): Every 1 ms the junction sensors are read, and warning and critical thresholds are checked. -/
  | thermalSample (temp : BitVec 12)
  /-- RAIL_FAULT (R420): An internal rail outside ±8 % for 10 µs is recorded, raises RAIL_FAULT and causes a module restart. -/
  | railFault (rail : Fin 8)
  /-- PLL_RELOCK (R356): An on-die PLL that lost lock regains it: the media PLL relocks from its last frequency word within 1 ms, and a
  port PLL's link retrains. -/
  | pllRelock (pll : Fin 7) (gen width : Fin 4)
  /-- PDELAY_REQUEST_TRANSMIT (R326): At each peer-delay log interval of 0, each PTP port sends a Pdelay_Req to measure its link delay. -/
  | pdelayRequestTransmit
  /-- ILLEGAL_BUNDLE (R198): A bundle with a reserved format, opcode or field, or one breaking R188, R190 or R192, performs none of its
  operations, increments VC_ILL_CNT and raises ILL. -/
  | illegalBundle (n : Fin 34) (bits : BitVec 64)
  /-- STAGING_COMPLETE (R133): The staging of a task into a Siding slot finishes, so that a later TAKE finds it ready. -/
  | stagingComplete (n : Fin 34) (slot1 : Bool)
  /-- BOOT_DONE (R403): APPLY ends: BOOT_STAT.STATE becomes DONE, the Concourse enters SERVICE mode, BOOT_EVENT is raised and host writes
  to the CON, DRC and VC pages are performed from then on. -/
  | bootDone
  /-- SPI_REGISTER_ACCESS_DONE (R346): A WRITE or RDREQ transaction's register access completes, within 2 µs, and HBUSY is driven low. -/
  | spiRegisterAccessDone
  /-- SPI_UNKNOWN_COMMAND (R347): A host SPI transaction with an unknown command byte is not performed, sets FRAME_ERR, is recorded in
  HSP_ERR_INFO and raises HSPI_ERR. -/
  | spiUnknownCommand (cmd : Byte) (clocks : BitVec 16)
  /-- PTP_TIME_READ (R426): A host read of PTP_TIME_LO returns gPTP time [31:0] and latches [63:32] for that path's next PTP_TIME_HI read.
  -/
  | ptpTimeRead (path : Path) (now : BitVec 64)
  /-- DMA_INVALID_DESCRIPTOR (R341): A DMA descriptor with an invalid OP, space or alignment is not performed, and is completed with ERR
  and REASON 0x1. -/
  | dmaInvalidDescriptor (desc : List Byte)
  /-- PCIE_AER_ERROR (R338): An error on the PCIe link or in a received TLP is logged by AER, raises PCIE_AER and is counted in the PCI
  page's PAGE_ERR_CNT. -/
  | pcieAerError
deriving DecidableEq, Repr

end Sys2Proof
end

