-- ==== Sys2Proof/Decode.lean ====
section
/-! DEFINITION. The commands that table words spell: none, since no row of the command table gives bits. -/

namespace Sys2Proof

/-- The command that a word of the table spells. -/
def decodeTableWord (_nbits _w : Nat) : Option Instr := none

end Sys2Proof
end

