-- ==== Sys2Proof/Config.lean ====
section
/-! DEFINITION. What an implementation fixes and the free values: constants with no body, of which nothing can be proved. -/

namespace Sys2Proof.Config

/-- Silicon revision, as manufactured (GLB_REV [15:0]). -/
opaque glbRev : BitVec 16

/-- Module identity, as manufactured (GLB_UID). -/
opaque glbUid : BitVec 64

/-- The value the machine takes where the spec leaves a value open: draw number `n` of the state's counter (log entry 2). -/
opaque freeValue : Nat → BitVec 64

/-- Point `m` of BLEP table `t` (R224): the spec gives each point only to within 2^-24 (log entry 10). -/
opaque blepPoint : Nat → Nat → BitVec 32

/-- Tap `i` of coefficient set A (0) or B (1) as it stands at reset (R252): the spec gives the response, not the taps (log entry 11). -/
opaque resetTap : Nat → Nat → BitVec 24

/-- Whether the Ed25519 signature of an image verifies against the fused key (R407); R409 fuses the hash of the key (log entry 12). -/
opaque signatureValid : List Byte → List Word → Bool

/-- Output of a DAC interpolation filter in Q1.27 (R270): the mode (true for minimum phase), whether Fs is double-rate, the last 64 input
samples, newest first, and the modulator cycle within the output sample. The spec gives the response, not the coefficients (log
entry 13). -/
opaque interpolated : Bool → Bool → List Word → Nat → BitVec 28

end Sys2Proof.Config
end

