-- ==== Sys2Proof/Machine/RegMap.lean ====
section
/-! DEFINITION. The register map: the BAR0 offset of every register (R421) and, register by register, its access masks, its reset
value, whether PAGE_CTRL.SRST clears it and whether LOCK exempts it, from the page and field tables of spec/02 to spec/18. -/

namespace Sys2Proof.Machine.Reg

-- CLK page
abbrev CLK_MEDIA_CFG : Nat := 0x2040
abbrev CLK_MEDIA_CTRL : Nat := 0x2044
abbrev CLK_MEDIA_STAT : Nat := 0x2048
abbrev CLK_SRC_ORDER : Nat := 0x204c
abbrev CLK_SLEW : Nat := 0x2050
abbrev CLK_LOCK_THR : Nat := 0x2054
abbrev CLK_WCLK_CFG : Nat := 0x2058
abbrev CLK_EPOCH_OFS_LO : Nat := 0x205c
abbrev CLK_EPOCH_OFS_HI : Nat := 0x2060
abbrev CLK_MT_LO : Nat := 0x2064
abbrev CLK_MT_HI : Nat := 0x2068
abbrev CLK_MT_LOAD_LO : Nat := 0x206c
abbrev CLK_MT_LOAD_HI : Nat := 0x2070
abbrev CLK_OFFSET : Nat := 0x2074
abbrev CLK_FREQ_ADJ : Nat := 0x2078
abbrev CLK_FALLBACK_CNT : Nat := 0x207c
abbrev CLK_PLL_STAT : Nat := 0x2080
-- ING page
abbrev ING_CTRL : Nat := 0x8040
abbrev ING_STAT : Nat := 0x8044
abbrev ING_TT_CFG : Nat := 0x8048
abbrev ING_MAL_INFO : Nat := 0x804c
abbrev ING_LAST_FENCE : Nat := 0x8050
abbrev ING_LATE_CNT : Nat := 0x8060
abbrev ING_DUP_CNT : Nat := 0x8064
abbrev ING_REDUNDANT_CNT : Nat := 0x8068
abbrev ING_MAL_CNT : Nat := 0x806c
abbrev ING_DROP_CNT : Nat := 0x8070
abbrev ING_NET_GAP_CNT : Nat := 0x8074
abbrev ING_EXP_DEFER_CNT : Nat := 0x8078
abbrev ING_NTF_LOST_CNT : Nat := 0x807c
abbrev ING_NTF_BASE_LO : Nat := 0x8080
abbrev ING_NTF_BASE_HI : Nat := 0x8084
abbrev ING_NTF_CFG : Nat := 0x8088
abbrev ING_NTF_PI : Nat := 0x808c
abbrev ING_NTF_CI : Nat := 0x8090
abbrev ING_SPI_STAT : Nat := 0x8094
abbrev ING_RING_BASE_LO (n : Nat) : Nat := 0x8100 + 0x20 * n
abbrev ING_RING_BASE_HI (n : Nat) : Nat := 0x8104 + 0x20 * n
abbrev ING_RING_CFG (n : Nat) : Nat := 0x8108 + 0x20 * n
abbrev ING_RING_PI (n : Nat) : Nat := 0x810c + 0x20 * n
abbrev ING_RING_CI (n : Nat) : Nat := 0x8110 + 0x20 * n
abbrev ING_RING_STAT (n : Nat) : Nat := 0x8114 + 0x20 * n
abbrev ING_SRC_CFG (n : Nat) : Nat := 0x8200 + 0x4 * n
abbrev ING_PART_MAP (n : Nat) : Nat := 0x8400 + 0x4 * n
-- VA page
abbrev VA_CTRL : Nat := 0x9040
abbrev VA_STAT : Nat := 0x9044
abbrev VA_SHADOW_CFG : Nat := 0x9048
abbrev VA_REFUSE_INFO : Nat := 0x904c
abbrev VA_VOICE_SEL : Nat := 0x9050
abbrev VA_VOICE_STAT : Nat := 0x9054
abbrev VA_ALLOC_CNT : Nat := 0x9060
abbrev VA_STEAL_CNT : Nat := 0x9064
abbrev VA_HARD_STEAL_CNT : Nat := 0x9068
abbrev VA_REFUSED_CNT : Nat := 0x906c
abbrev VA_TRIM_CNT : Nat := 0x9070
abbrev VA_CANCEL_CNT : Nat := 0x9074
abbrev VA_CHOKE_CNT : Nat := 0x9078
abbrev VA_FLOOR_END_CNT : Nat := 0x907c
abbrev VA_PART_CFG (n : Nat) : Nat := 0x9100 + 0x20 * n
abbrev VA_PART_QUOTA (n : Nat) : Nat := 0x9104 + 0x20 * n
abbrev VA_PART_STEAL (n : Nat) : Nat := 0x9108 + 0x20 * n
abbrev VA_PART_END (n : Nat) : Nat := 0x910c + 0x20 * n
abbrev VA_PART_PROG (n : Nat) : Nat := 0x9110 + 0x20 * n
abbrev VA_PART_TMPL (n : Nat) : Nat := 0x9114 + 0x20 * n
abbrev VA_PART_CNT (n : Nat) : Nat := 0x9118 + 0x20 * n
-- PS page
abbrev PS_STAT : Nat := 0xa040
abbrev PS_WR_TGT : Nat := 0xa044
abbrev PS_WR_DATA : Nat := 0xa048
abbrev PS_IDX_DROP_CNT : Nat := 0xa060
abbrev PS_WR_REJ_CNT : Nat := 0xa064
abbrev PS_REBLOCK_CNT : Nat := 0xa068
abbrev PS_HWR_CNT : Nat := 0xa06c
-- MM page
abbrev MM_SEED : Nat := 0xb040
abbrev MM_EVAL_MAX : Nat := 0xb044
abbrev MM_SAT_CNT : Nat := 0xb048
abbrev MM_VOICE_SEL : Nat := 0xb04c
abbrev MM_VOICE_EG : Nat := 0xb050
-- SCH page
abbrev SCH_CTRL : Nat := 0xc040
abbrev SCH_STAT : Nat := 0xc044
abbrev SCH_EXP_CYCLES : Nat := 0xc048
abbrev SCH_EXP_CFG : Nat := 0xc04c
abbrev SCH_BUDGET : Nat := 0xc050
abbrev SCH_HOLD : Nat := 0xc054
abbrev SCH_SHUNT : Nat := 0xc058
abbrev SCH_SHUNT_STAT : Nat := 0xc05c
abbrev SCH_PLAT_SEL : Nat := 0xc060
abbrev SCH_PLAT_STAT : Nat := 0xc064
abbrev SCH_PSET0 : Nat := 0xc068
abbrev SCH_PSET1 : Nat := 0xc06c
abbrev SCH_PSET2 : Nat := 0xc070
abbrev SCH_PSET3 : Nat := 0xc074
abbrev SCH_PSET4 : Nat := 0xc078
abbrev SCH_MISS_CNT : Nat := 0xc080
abbrev SCH_CONCEAL_CNT : Nat := 0xc084
abbrev SCH_ABORT_CNT : Nat := 0xc088
abbrev SCH_DEFER_NRM_CNT : Nat := 0xc08c
abbrev SCH_DEFER_BULK_CNT : Nat := 0xc090
abbrev SCH_EXP_OVER_CNT : Nat := 0xc094
abbrev SCH_SHUNT_CNT : Nat := 0xc098
abbrev SCH_STALE_CNT : Nat := 0xc09c
abbrev SCH_RERENDER_CNT : Nat := 0xc0a0
abbrev SCH_SPLIT_DEFER_CNT : Nat := 0xc0a4
abbrev SCH_SIDING_HIT_CNT : Nat := 0xc0a8
abbrev SCH_SIDING_MISS_CNT : Nat := 0xc0ac
abbrev SCH_HIST (n : Nat) : Nat := 0xc100 + 0x4 * n
abbrev SCH_CORE_BUSY (n : Nat) : Nat := 0xc200 + 0x8 * n
abbrev SCH_CORE_AVG (n : Nat) : Nat := 0xc204 + 0x8 * n
abbrev SCH_PART_CFG (n : Nat) : Nat := 0xc400 + 0x4 * n
abbrev SCH_BUS_CFG (n : Nat) : Nat := 0xc500 + 0x10 * n
abbrev SCH_BUS_HOME (n : Nat) : Nat := 0xc504 + 0x10 * n
abbrev SCH_BUS_LIM (n : Nat) : Nat := 0xc508 + 0x10 * n
-- VC page
abbrev VC_CTRL (n : Nat) : Nat := 0x20040 + 0x1000 * n
abbrev VC_STAT (n : Nat) : Nat := 0x20044 + 0x1000 * n
abbrev VC_RESET_VEC (n : Nat) : Nat := 0x20048 + 0x1000 * n
abbrev VC_PC (n : Nat) : Nat := 0x2004c + 0x1000 * n
abbrev VC_TASK (n : Nat) : Nat := 0x20050 + 0x1000 * n
abbrev VC_TCYC (n : Nat) : Nat := 0x20054 + 0x1000 * n
abbrev VC_DBELL (n : Nat) : Nat := 0x20058 + 0x1000 * n
abbrev VC_MBOX (n : Nat) : Nat := 0x2005c + 0x1000 * n
abbrev VC_VIOL_INFO (n : Nat) : Nat := 0x20060 + 0x1000 * n
abbrev VC_PM_ADDR (n : Nat) : Nat := 0x20064 + 0x1000 * n
abbrev VC_PM_DATA_LO (n : Nat) : Nat := 0x20068 + 0x1000 * n
abbrev VC_PM_DATA_HI (n : Nat) : Nat := 0x2006c + 0x1000 * n
abbrev VC_VIOL_CNT (n : Nat) : Nat := 0x20080 + 0x1000 * n
abbrev VC_ILL_CNT (n : Nat) : Nat := 0x20084 + 0x1000 * n
abbrev VC_EVENT_CNT (n : Nat) : Nat := 0x20088 + 0x1000 * n
abbrev VC_PM_REJ_CNT (n : Nat) : Nat := 0x2008c + 0x1000 * n
-- SPF page
abbrev SPF_STAT : Nat := 0xd040
abbrev SPF_STBL_BASE : Nat := 0xd044
abbrev SPF_STBL_CFG : Nat := 0xd048
abbrev SPF_SLOT_SEL : Nat := 0xd04c
abbrev SPF_SLOT_STAT : Nat := 0xd050
abbrev SPF_SLOT_AVAIL : Nat := 0xd054
abbrev SPF_START_CNT : Nat := 0xd060
abbrev SPF_UNDERRUN_CNT : Nat := 0xd064
abbrev SPF_FAULT_CNT : Nat := 0xd068
abbrev SPF_CLAMP_CNT : Nat := 0xd06c
abbrev SPF_TBL_ERR_CNT : Nat := 0xd070
abbrev SPF_PART_CFG (n : Nat) : Nat := 0xd100 + 0x4 * n
abbrev SPF_TBL_BASE (n : Nat) : Nat := 0xd200 + 0x8 * n
abbrev SPF_TBL_CFG (n : Nat) : Nat := 0xd204 + 0x8 * n
-- MIX page
abbrev MIX_CTRL : Nat := 0xe040
abbrev MIX_STAT : Nat := 0xe044
abbrev MIX_ACCEPT_CNT : Nat := 0xe060
abbrev MIX_SAT_CNT : Nat := 0xe064
abbrev MIX_PART_CFG (n : Nat) : Nat := 0xe100 + 0x4 * n
abbrev MIX_BUS_CFG (n : Nat) : Nat := 0xe200 + 0x8 * n
abbrev MIX_BUS_IN (n : Nat) : Nat := 0xe204 + 0x8 * n
-- DEC page
abbrev DEC_CTRL : Nat := 0xf040
abbrev DEC_STAT : Nat := 0xf044
abbrev DEC_TAPS : Nat := 0xf048
abbrev DEC_COEF_ADDR : Nat := 0xf04c
abbrev DEC_COEF_DATA : Nat := 0xf050
abbrev DEC_DCB_CFG : Nat := 0xf054
abbrev DEC_DCB_EN0 : Nat := 0xf058
abbrev DEC_DCB_EN1 : Nat := 0xf05c
abbrev DEC_DCB_EN2 : Nat := 0xf060
abbrev DEC_DCB_EN3 : Nat := 0xf064
abbrev DEC_MON_CFG : Nat := 0xf068
abbrev DEC_MON_STAT : Nat := 0xf06c
abbrev DEC_MON_DATA (n : Nat) : Nat := 0xf070 + 0x4 * n
abbrev DEC_CAP_MISS_CNT : Nat := 0xf090
abbrev DEC_SAT_CNT : Nat := 0xf094
abbrev DEC_CAP_SRC (n : Nat) : Nat := 0xf200 + 0x4 * n
-- ORT page
abbrev ORT_CTRL : Nat := 0x10040
abbrev ORT_STAT : Nat := 0x10044
-- OQ page
abbrev OQ_STAT : Nat := 0x11040
abbrev OQ_UNDERRUN_CNT : Nat := 0x11060
abbrev OQ_OVERRUN_CNT : Nat := 0x11064
abbrev OQ_LATE_CNT : Nat := 0x11068
abbrev OQ_Q_CFG (n : Nat) : Nat := 0x11100 + 0x4 * n
abbrev OQ_Q_STAT (n : Nat) : Nat := 0x11200 + 0x4 * n
-- DAC page
abbrev DAC_CTRL : Nat := 0x12040
abbrev DAC_STAT : Nat := 0x12044
abbrev DAC_RB_CFG : Nat := 0x12048
abbrev DAC_RB_MISMATCH_CNT : Nat := 0x12060
abbrev DAC_RB_FAULT_CNT : Nat := 0x12064
abbrev DAC_OC_CNT : Nat := 0x12068
abbrev DAC_SAT_CNT : Nat := 0x1206c
abbrev DAC_OUTCLR_CNT : Nat := 0x12070
abbrev DAC_CH_CFG (n : Nat) : Nat := 0x12100 + 0x20 * n
abbrev DAC_CH_CLR (n : Nat) : Nat := 0x12104 + 0x20 * n
abbrev DAC_CH_STAT (n : Nat) : Nat := 0x12108 + 0x20 * n
abbrev DAC_CH_TONE_INC (n : Nat) : Nat := 0x1210c + 0x20 * n
abbrev DAC_CH_TONE_CFG (n : Nat) : Nat := 0x12110 + 0x20 * n
abbrev DAC_CH_RB (n : Nat) : Nat := 0x12114 + 0x20 * n
-- CON page
abbrev CON_CTRL : Nat := 0x13040
abbrev CON_STAT : Nat := 0x13044
abbrev CON_BT_POS : Nat := 0x13048
abbrev CON_BT_FAIL : Nat := 0x1304c
abbrev CON_ERR_INFO : Nat := 0x13050
abbrev CON_WCOLL_INFO : Nat := 0x13054
abbrev CON_RB_CFG : Nat := 0x13058
abbrev CON_RB_STAT : Nat := 0x1305c
abbrev CON_CE_CNT : Nat := 0x13060
abbrev CON_PARITY_CNT : Nat := 0x13064
abbrev CON_UE_CNT : Nat := 0x13068
abbrev CON_WCOLL_CNT : Nat := 0x1306c
abbrev CON_BUSY_CNT : Nat := 0x13070
abbrev CON_BT_REGION_CNT : Nat := 0x13074
abbrev CON_BT_ABORT_CNT : Nat := 0x13078
abbrev CON_BT_FAIL_CNT : Nat := 0x1307c
abbrev CON_RB_REDO_CNT : Nat := 0x13080
abbrev CON_CONFLICT (n : Nat) : Nat := 0x13100 + 0x4 * n
abbrev CON_ATTR (n : Nat) : Nat := 0x13200 + 0x4 * n
abbrev CON_BANK (n : Nat) : Nat := 0x13300 + 0x4 * n
-- DRC page
abbrev DRC_CFG : Nat := 0x14040
abbrev DRC_STAT : Nat := 0x14044
abbrev DRC_SCRUB_CFG : Nat := 0x14048
abbrev DRC_SCRUB_STAT : Nat := 0x1404c
abbrev DRC_RETIRE_CFG : Nat := 0x14050
abbrev DRC_ERR_INFO : Nat := 0x14054
abbrev DRC_EXP_LAT : Nat := 0x14058
abbrev DRC_TEMP : Nat := 0x1405c
abbrev DRC_CE_CNT : Nat := 0x14060
abbrev DRC_UE_CNT : Nat := 0x14064
abbrev DRC_RETIRED_CNT : Nat := 0x14068
abbrev DRC_RETIRE_REJ_CNT : Nat := 0x1406c
abbrev DRC_SCRUB_PASS_CNT : Nat := 0x14070
abbrev DRC_ODECC0_CNT : Nat := 0x14074
abbrev DRC_ODECC1_CNT : Nat := 0x14078
abbrev DRC_BAD_UNIT_CNT : Nat := 0x1407c
-- NETA page
abbrev NET_CFG (n : Nat) : Nat := 0x15040 + 0x1000 * n
abbrev NET_STAT (n : Nat) : Nat := 0x15044 + 0x1000 * n
abbrev NET_MAC_LO (n : Nat) : Nat := 0x15048 + 0x1000 * n
abbrev NET_MAC_HI (n : Nat) : Nat := 0x1504c + 0x1000 * n
abbrev NET_IPV4 (n : Nat) : Nat := 0x15050 + 0x1000 * n
abbrev NET_RX_FRM_CNT (n : Nat) : Nat := 0x15060 + 0x1000 * n
abbrev NET_RX_ERR_CNT (n : Nat) : Nat := 0x15064 + 0x1000 * n
abbrev NET_HOST_DROP_CNT (n : Nat) : Nat := 0x15068 + 0x1000 * n
abbrev NET_TX_LATE_CNT (n : Nat) : Nat := 0x1506c + 0x1000 * n
abbrev NET_HRX_BASE_LO (n : Nat) : Nat := 0x15080 + 0x1000 * n
abbrev NET_HRX_BASE_HI (n : Nat) : Nat := 0x15084 + 0x1000 * n
abbrev NET_HRX_CFG (n : Nat) : Nat := 0x15088 + 0x1000 * n
abbrev NET_HRX_PI (n : Nat) : Nat := 0x1508c + 0x1000 * n
abbrev NET_HRX_CI (n : Nat) : Nat := 0x15090 + 0x1000 * n
abbrev NET_HTX_BASE_LO (n : Nat) : Nat := 0x150a0 + 0x1000 * n
abbrev NET_HTX_BASE_HI (n : Nat) : Nat := 0x150a4 + 0x1000 * n
abbrev NET_HTX_CFG (n : Nat) : Nat := 0x150a8 + 0x1000 * n
abbrev NET_HTX_PI (n : Nat) : Nat := 0x150ac + 0x1000 * n
abbrev NET_HTX_CI (n : Nat) : Nat := 0x150b0 + 0x1000 * n
-- PTP page
abbrev PTP_CFG : Nat := 0x17040
abbrev PTP_STAT : Nat := 0x17044
abbrev PTP_GM_ID_LO : Nat := 0x17048
abbrev PTP_GM_ID_HI : Nat := 0x1704c
abbrev PTP_TIME_LO : Nat := 0x17050
abbrev PTP_TIME_HI : Nat := 0x17054
abbrev PTP_PDELAY_A : Nat := 0x17058
abbrev PTP_PDELAY_B : Nat := 0x1705c
abbrev PTP_FAILOVER_CNT : Nat := 0x17060
-- STRM page
abbrev STRM_STAT : Nat := 0x18040
abbrev STRM_RX_PKT_CNT : Nat := 0x18060
abbrev STRM_RX_REPAIRED_CNT : Nat := 0x18064
abbrev STRM_RX_UNDERRUN_CNT : Nat := 0x18068
abbrev STRM_RX_BAD_CNT : Nat := 0x1806c
abbrev STRM_TX_PKT_CNT : Nat := 0x18070
abbrev STRM_RX_CFG (n : Nat) : Nat := 0x18100 + 0x10 * n
abbrev STRM_RX_ID_LO (n : Nat) : Nat := 0x18104 + 0x10 * n
abbrev STRM_RX_ID_HI (n : Nat) : Nat := 0x18108 + 0x10 * n
abbrev STRM_RX_OFS (n : Nat) : Nat := 0x1810c + 0x10 * n
abbrev STRM_TX_CFG (n : Nat) : Nat := 0x18300 + 0x20 * n
abbrev STRM_TX_ID_LO (n : Nat) : Nat := 0x18304 + 0x20 * n
abbrev STRM_TX_ID_HI (n : Nat) : Nat := 0x18308 + 0x20 * n
abbrev STRM_TX_DST (n : Nat) : Nat := 0x1830c + 0x20 * n
abbrev STRM_TX_OFS (n : Nat) : Nat := 0x18310 + 0x20 * n
-- NMID page
abbrev NMID_STAT : Nat := 0x19040
abbrev NMID_DATA_CNT : Nat := 0x19060
abbrev NMID_FWD_CNT : Nat := 0x19064
abbrev NMID_DROP_CNT : Nat := 0x19068
abbrev NMID_SESS_CFG (n : Nat) : Nat := 0x19100 + 0x10 * n
abbrev NMID_SESS_ADDR (n : Nat) : Nat := 0x19104 + 0x10 * n
abbrev NMID_SESS_PORT (n : Nat) : Nat := 0x19108 + 0x10 * n
abbrev NMID_SESS_SEQ (n : Nat) : Nat := 0x1910c + 0x10 * n
-- PCI page
abbrev PCI_STAT : Nat := 0x1a040
abbrev PCI_DMA_BASE_LO : Nat := 0x1a044
abbrev PCI_DMA_BASE_HI : Nat := 0x1a048
abbrev PCI_DMA_CFG : Nat := 0x1a04c
abbrev PCI_DMA_PI : Nat := 0x1a050
abbrev PCI_DMA_CI : Nat := 0x1a054
abbrev PCI_DMA_DONE_CNT : Nat := 0x1a060
abbrev PCI_DMA_ERR_CNT : Nat := 0x1a064
abbrev PCI_HS_LATE_CNT : Nat := 0x1a068
abbrev PCI_HSO_BASE_LO (n : Nat) : Nat := 0x1a100 + 0x20 * n
abbrev PCI_HSO_BASE_HI (n : Nat) : Nat := 0x1a104 + 0x20 * n
abbrev PCI_HSO_CFG (n : Nat) : Nat := 0x1a108 + 0x20 * n
abbrev PCI_HSO_BLK (n : Nat) : Nat := 0x1a10c + 0x20 * n
abbrev PCI_HSI_BASE_LO (n : Nat) : Nat := 0x1a110 + 0x20 * n
abbrev PCI_HSI_BASE_HI (n : Nat) : Nat := 0x1a114 + 0x20 * n
abbrev PCI_HSI_CFG (n : Nat) : Nat := 0x1a118 + 0x20 * n
-- HSP page
abbrev HSP_ERR_INFO : Nat := 0x1b040
abbrev HSP_TXN_CNT : Nat := 0x1b060
abbrev HSP_REFUSE_CNT : Nat := 0x1b064
abbrev HSP_FRAME_ERR_CNT : Nat := 0x1b068
-- TDM page
abbrev TDM_STAT : Nat := 0x1c040
abbrev TDM_SLIP_CNT : Nat := 0x1c060
abbrev TDM_P_CFG (n : Nat) : Nat := 0x1c100 + 0x10 * n
abbrev TDM_P_STAT (n : Nat) : Nat := 0x1c104 + 0x10 * n
-- SVC page
abbrev SVC_CMD : Nat := 0x1040
abbrev SVC_ARG : Nat := 0x1044
abbrev SVC_STAT : Nat := 0x1048
abbrev SVC_ABORT : Nat := 0x104c
abbrev SVC_RESULT : Nat := 0x1050
abbrev SVC_PROG : Nat := 0x1054
abbrev SVC_POLICY : Nat := 0x1058
abbrev SVC_RH : Nat := 0x105c
abbrev SVC_REFUSE_CNT : Nat := 0x1060
abbrev SVC_AUTO_CNT : Nat := 0x1064
-- ERR page
abbrev ERR_CTRL : Nat := 0x7040
abbrev ERR_CAT_SEL : Nat := 0x7044
abbrev ERR_CAT : Nat := 0x7048
abbrev ERR_LOG_HEAD : Nat := 0x704c
abbrev ERR_LOG_CNT : Nat := 0x7050
abbrev ERR_INJ_REJ_CNT : Nat := 0x7054
abbrev ERR_LOG_W0 (n : Nat) : Nat := 0x7100 + 0x10 * n
abbrev ERR_LOG_W1 (n : Nat) : Nat := 0x7104 + 0x10 * n
abbrev ERR_LOG_W2 (n : Nat) : Nat := 0x7108 + 0x10 * n
abbrev ERR_LOG_W3 (n : Nat) : Nat := 0x710c + 0x10 * n
-- IRQ page
abbrev IRQ_PEND_LO : Nat := 0x6040
abbrev IRQ_PEND_HI : Nat := 0x6044
abbrev IRQ_MSI_EN_LO : Nat := 0x6048
abbrev IRQ_MSI_EN_HI : Nat := 0x604c
abbrev IRQ_HINT_EN_LO : Nat := 0x6050
abbrev IRQ_HINT_EN_HI : Nat := 0x6054
abbrev IRQ_HB_CFG : Nat := 0x6058
abbrev IRQ_HB_KICK : Nat := 0x605c
abbrev IRQ_HB_LOST_CNT : Nat := 0x6060
-- PMU page
abbrev PMU_CTRL : Nat := 0x5040
abbrev PMU_STAT : Nat := 0x5044
abbrev PMU_RING_BASE_LO : Nat := 0x5048
abbrev PMU_RING_BASE_HI : Nat := 0x504c
abbrev PMU_RING_CFG : Nat := 0x5050
abbrev PMU_PI : Nat := 0x5054
abbrev PMU_CI : Nat := 0x5058
abbrev PMU_CNT_SEL : Nat := 0x505c
abbrev PMU_DUMP_CNT : Nat := 0x5060
abbrev PMU_CNT_LO : Nat := 0x5070
abbrev PMU_CNT_HI : Nat := 0x5074
-- PWR page
abbrev PWR_CTRL : Nat := 0x3040
abbrev PWR_STAT : Nat := 0x3044
abbrev PWR_WAKE_CFG : Nat := 0x3048
abbrev PWR_WAKE_SRC : Nat := 0x304c
abbrev PWR_THERM_CFG : Nat := 0x3050
abbrev PWR_TEMP : Nat := 0x3054
abbrev PWR_RST_CAUSE : Nat := 0x3058
abbrev PWR_RAIL_STAT : Nat := 0x305c
abbrev PWR_RESTART_CNT : Nat := 0x3060
abbrev PWR_WAKE_CNT : Nat := 0x3064
abbrev PWR_STBY_REJ_CNT : Nat := 0x3068
-- BOOT page
abbrev BOOT_CTRL : Nat := 0x4040
abbrev BOOT_STAT : Nat := 0x4044
abbrev BOOT_HOST_ADDR : Nat := 0x4048
abbrev BOOT_IMG_SEQ : Nat := 0x404c
abbrev BOOT_FUSE_CTRL : Nat := 0x4050
abbrev BOOT_FUSE_STAT : Nat := 0x4054
abbrev BOOT_ATTEMPT_CNT : Nat := 0x4058
abbrev BOOT_REC_REJ_CNT : Nat := 0x405c
abbrev BOOT_FUSE_DATA (n : Nat) : Nat := 0x4080 + 0x4 * n
-- GLB page
abbrev GLB_DEV_ID : Nat := 0x40
abbrev GLB_REV : Nat := 0x44
abbrev GLB_UID_LO : Nat := 0x48
abbrev GLB_UID_HI : Nat := 0x4c
abbrev GLB_FENCE : Nat := 0x50
abbrev GLB_FENCE_STAT : Nat := 0x54
abbrev GLB_SCRATCH : Nat := 0x58
-- DBG page
abbrev DBG_CTRL : Nat := 0x1d040
abbrev DBG_HIT : Nat := 0x1d044
abbrev DBG_BP_CFG (n : Nat) : Nat := 0x1d100 + 0x4 * n
-- the common header, by page number (R422)
abbrev PAGE_ID (p : Nat) : Nat := 0x1000 * p + 0x0
abbrev PAGE_CTRL (p : Nat) : Nat := 0x1000 * p + 0x4
abbrev PAGE_STAT (p : Nat) : Nat := 0x1000 * p + 0x8
abbrev PAGE_IRQ_STAT (p : Nat) : Nat := 0x1000 * p + 0xc
abbrev PAGE_IRQ_EN (p : Nat) : Nat := 0x1000 * p + 0x10
abbrev PAGE_ERR_STAT (p : Nat) : Nat := 0x1000 * p + 0x14
abbrev PAGE_ERR_CNT (p : Nat) : Nat := 0x1000 * p + 0x18
abbrev PAGE_ERR_INJ (p : Nat) : Nat := 0x1000 * p + 0x1c
-- the MSI-X table (16 bytes a vector) and pending bits of the PCI page
abbrev MSIX_TABLE (n : Nat) : Nat := 0x1a800 + 4 * n
abbrev MSIX_PBA (n : Nat) : Nat := 0x1ac00 + 4 * n

end Sys2Proof.Machine.Reg

namespace Sys2Proof.Machine

/-- One register, or `count` like registers `stride` bytes apart: the masks of its RW, W1C, W1S and WO bits, the bits that
SRST clears (R424), its reset value (R427) and whether LOCK exempts its RW fields (R423). Bits in no mask are read-only or
reserved (R4, R5). -/
structure RegRow where
  base : Nat
  count : Nat
  stride : Nat
  rw : Nat
  w1c : Nat
  w1s : Nat
  wo : Nat
  srst : Nat
  reset : Nat
  exempt : Bool
deriving DecidableEq, Repr

/-- The CLK page (0x02). -/
def regRowsClk : List RegRow :=
  [⟨0x2040, 1, 0x0, 0x1f, 0x0, 0x0, 0x0, 0x0, 0x14, false⟩,   -- CLK_MEDIA_CFG
   ⟨0x2044, 1, 0x0, 0x1, 0x0, 0x0, 0x2, 0x0, 0x0, false⟩,   -- CLK_MEDIA_CTRL
   ⟨0x2048, 1, 0x0, 0x0, 0x40, 0x0, 0x0, 0x0, 0x20, false⟩,   -- CLK_MEDIA_STAT
   ⟨0x204c, 1, 0x0, 0xf, 0x0, 0x0, 0x0, 0x0, 0x4, false⟩,   -- CLK_SRC_ORDER
   ⟨0x2050, 1, 0x0, 0xff, 0x0, 0x0, 0x0, 0x0, 0x32, false⟩,   -- CLK_SLEW
   ⟨0x2054, 1, 0x0, 0xffff, 0x0, 0x0, 0x0, 0x0, 0x3e8, false⟩,   -- CLK_LOCK_THR
   ⟨0x2058, 1, 0x0, 0x1331, 0x0, 0x0, 0x0, 0x0, 0x0, false⟩,   -- CLK_WCLK_CFG
   ⟨0x205c, 1, 0x0, 0xffffffff, 0x0, 0x0, 0x0, 0x0, 0x0, false⟩,   -- CLK_EPOCH_OFS_LO
   ⟨0x2060, 1, 0x0, 0xffffffff, 0x0, 0x0, 0x0, 0x0, 0x0, false⟩,   -- CLK_EPOCH_OFS_HI
   ⟨0x2064, 1, 0x0, 0x0, 0x0, 0x0, 0x0, 0x0, 0x0, false⟩,   -- CLK_MT_LO
   ⟨0x2068, 1, 0x0, 0x0, 0x0, 0x0, 0x0, 0x0, 0x0, false⟩,   -- CLK_MT_HI
   ⟨0x206c, 1, 0x0, 0xffffffff, 0x0, 0x0, 0x0, 0x0, 0x0, false⟩,   -- CLK_MT_LOAD_LO
   ⟨0x2070, 1, 0x0, 0xffffffff, 0x0, 0x0, 0x0, 0x0, 0x0, false⟩,   -- CLK_MT_LOAD_HI
   ⟨0x2074, 1, 0x0, 0x0, 0x0, 0x0, 0x0, 0x0, 0x0, false⟩,   -- CLK_OFFSET
   ⟨0x2078, 1, 0x0, 0x0, 0x0, 0x0, 0x0, 0x0, 0x0, false⟩,   -- CLK_FREQ_ADJ
   ⟨0x207c, 1, 0x0, 0x0, 0x0, 0x0, 0x0, 0x0, 0x0, false⟩,   -- CLK_FALLBACK_CNT
   ⟨0x2080, 1, 0x0, 0x0, 0x0, 0x0, 0x0, 0x0, 0x0, false⟩]   -- CLK_PLL_STAT

/-- The ING page (0x08). -/
def regRowsIng : List RegRow :=
  [⟨0x8040, 1, 0x0, 0x7, 0x0, 0x0, 0x0, 0x0, 0x0, false⟩,   -- ING_CTRL
   ⟨0x8044, 1, 0x0, 0x0, 0x0, 0x0, 0x0, 0x0, 0x0, false⟩,   -- ING_STAT
   ⟨0x8048, 1, 0x0, 0x1ff3fff, 0x0, 0x0, 0x0, 0x0, 0x1000400, false⟩,   -- ING_TT_CFG
   ⟨0x804c, 1, 0x0, 0x0, 0x0, 0x0, 0x0, 0x0, 0x0, false⟩,   -- ING_MAL_INFO
   ⟨0x8050, 1, 0x0, 0x0, 0x0, 0x0, 0x0, 0x0, 0x0, false⟩,   -- ING_LAST_FENCE
   ⟨0x8060, 1, 0x0, 0x0, 0x0, 0x0, 0x0, 0xffffffff, 0x0, false⟩,   -- ING_LATE_CNT
   ⟨0x8064, 1, 0x0, 0x0, 0x0, 0x0, 0x0, 0xffffffff, 0x0, false⟩,   -- ING_DUP_CNT
   ⟨0x8068, 1, 0x0, 0x0, 0x0, 0x0, 0x0, 0xffffffff, 0x0, false⟩,   -- ING_REDUNDANT_CNT
   ⟨0x806c, 1, 0x0, 0x0, 0x0, 0x0, 0x0, 0xffffffff, 0x0, false⟩,   -- ING_MAL_CNT
   ⟨0x8070, 1, 0x0, 0x0, 0x0, 0x0, 0x0, 0xffffffff, 0x0, false⟩,   -- ING_DROP_CNT
   ⟨0x8074, 1, 0x0, 0x0, 0x0, 0x0, 0x0, 0xffffffff, 0x0, false⟩,   -- ING_NET_GAP_CNT
   ⟨0x8078, 1, 0x0, 0x0, 0x0, 0x0, 0x0, 0xffffffff, 0x0, false⟩,   -- ING_EXP_DEFER_CNT
   ⟨0x807c, 1, 0x0, 0x0, 0x0, 0x0, 0x0, 0xffffffff, 0x0, false⟩,   -- ING_NTF_LOST_CNT
   ⟨0x8080, 1, 0x0, 0xffffffff, 0x0, 0x0, 0x0, 0x0, 0x0, false⟩,   -- ING_NTF_BASE_LO
   ⟨0x8084, 1, 0x0, 0xffffffff, 0x0, 0x0, 0x0, 0x0, 0x0, false⟩,   -- ING_NTF_BASE_HI
   ⟨0x8088, 1, 0x0, 0x1f030f, 0x0, 0x0, 0x0, 0x0, 0x8, false⟩,   -- ING_NTF_CFG
   ⟨0x808c, 1, 0x0, 0x0, 0x0, 0x0, 0x0, 0x0, 0x0, true⟩,   -- ING_NTF_PI
   ⟨0x8090, 1, 0x0, 0xffff, 0x0, 0x0, 0x0, 0x0, 0x0, true⟩,   -- ING_NTF_CI
   ⟨0x8094, 1, 0x0, 0x0, 0x0, 0x0, 0x0, 0x0, 0x0, false⟩,   -- ING_SPI_STAT
   ⟨0x8100, 8, 0x20, 0xffffffff, 0x0, 0x0, 0x0, 0x0, 0x0, false⟩,   -- ING_RINGn_BASE_LO
   ⟨0x8104, 8, 0x20, 0xffffffff, 0x0, 0x0, 0x0, 0x0, 0x0, false⟩,   -- ING_RINGn_BASE_HI
   ⟨0x8108, 8, 0x20, 0xff070f, 0x0, 0x0, 0x0, 0x0, 0x8, false⟩,   -- ING_RINGn_CFG
   ⟨0x810c, 8, 0x20, 0xffff, 0x0, 0x0, 0x0, 0x0, 0x0, true⟩,   -- ING_RINGn_PI
   ⟨0x8110, 8, 0x20, 0x0, 0x0, 0x0, 0x0, 0x0, 0x0, true⟩,   -- ING_RINGn_CI
   ⟨0x8114, 8, 0x20, 0x0, 0x20000, 0x0, 0x0, 0x0, 0x0, false⟩,   -- ING_RINGn_STAT
   ⟨0x8200, 41, 0x4, 0x1f, 0x0, 0x0, 0x0, 0x0, 0x19, false⟩,   -- ING_SRC_CFGn
   ⟨0x8400, 256, 0x4, 0xbf, 0x0, 0x0, 0x0, 0x0, 0x0, false⟩]   -- ING_PART_MAPk

/-- The VA page (0x09). -/
def regRowsVa : List RegRow :=
  [⟨0x9040, 1, 0x0, 0x3f, 0x0, 0x0, 0x0, 0x0, 0x8, false⟩,   -- VA_CTRL
   ⟨0x9044, 1, 0x0, 0x0, 0x80000000, 0x0, 0x0, 0x0, 0x400400, false⟩,   -- VA_STAT
   ⟨0x9048, 1, 0x0, 0x3f, 0x0, 0x0, 0x0, 0x0, 0x8, false⟩,   -- VA_SHADOW_CFG
   ⟨0x904c, 1, 0x0, 0x0, 0x0, 0x0, 0x0, 0x0, 0x0, false⟩,   -- VA_REFUSE_INFO
   ⟨0x9050, 1, 0x0, 0x7ff, 0x0, 0x0, 0x0, 0x0, 0x0, true⟩,   -- VA_VOICE_SEL
   ⟨0x9054, 1, 0x0, 0x0, 0x0, 0x0, 0x0, 0x0, 0x0, false⟩,   -- VA_VOICE_STAT
   ⟨0x9060, 1, 0x0, 0x0, 0x0, 0x0, 0x0, 0xffffffff, 0x0, false⟩,   -- VA_ALLOC_CNT
   ⟨0x9064, 1, 0x0, 0x0, 0x0, 0x0, 0x0, 0xffffffff, 0x0, false⟩,   -- VA_STEAL_CNT
   ⟨0x9068, 1, 0x0, 0x0, 0x0, 0x0, 0x0, 0xffffffff, 0x0, false⟩,   -- VA_HARD_STEAL_CNT
   ⟨0x906c, 1, 0x0, 0x0, 0x0, 0x0, 0x0, 0xffffffff, 0x0, false⟩,   -- VA_REFUSED_CNT
   ⟨0x9070, 1, 0x0, 0x0, 0x0, 0x0, 0x0, 0xffffffff, 0x0, false⟩,   -- VA_TRIM_CNT
   ⟨0x9074, 1, 0x0, 0x0, 0x0, 0x0, 0x0, 0xffffffff, 0x0, false⟩,   -- VA_CANCEL_CNT
   ⟨0x9078, 1, 0x0, 0x0, 0x0, 0x0, 0x0, 0xffffffff, 0x0, false⟩,   -- VA_CHOKE_CNT
   ⟨0x907c, 1, 0x0, 0x0, 0x0, 0x0, 0x0, 0xffffffff, 0x0, false⟩,   -- VA_FLOOR_END_CNT
   ⟨0x9100, 64, 0x20, 0x73fff37, 0x0, 0x0, 0x0, 0x0, 0x2001004, false⟩,   -- VA_PART_CFGn
   ⟨0x9104, 64, 0x20, 0x7ff07ff, 0x0, 0x0, 0x0, 0x0, 0x400, false⟩,   -- VA_PART_QUOTAn
   ⟨0x9108, 64, 0x20, 0x7777, 0x0, 0x0, 0x0, 0x0, 0x1432, false⟩,   -- VA_PART_STEALn
   ⟨0x910c, 64, 0x20, 0x1ffff, 0x0, 0x0, 0x0, 0x0, 0x10b4, false⟩,   -- VA_PART_ENDn
   ⟨0x9110, 64, 0x20, 0x1fff, 0x0, 0x0, 0x0, 0x0, 0x0, false⟩,   -- VA_PART_PROGn
   ⟨0x9114, 64, 0x20, 0xfffffc00, 0x0, 0x0, 0x0, 0x0, 0x0, false⟩,   -- VA_PART_TMPLn
   ⟨0x9118, 64, 0x20, 0x0, 0x0, 0x0, 0x0, 0x0, 0x0, false⟩]   -- VA_PART_CNTn

/-- The PS page (0x0A). -/
def regRowsPs : List RegRow :=
  [⟨0xa040, 1, 0x0, 0x0, 0x80000000, 0x0, 0x0, 0x0, 0x0, false⟩,   -- PS_STAT
   ⟨0xa044, 1, 0x0, 0xc7ff3fff, 0x0, 0x0, 0x0, 0x0, 0x0, true⟩,   -- PS_WR_TGT
   ⟨0xa048, 1, 0x0, 0x0, 0x0, 0x0, 0xffffffff, 0x0, 0x0, false⟩,   -- PS_WR_DATA
   ⟨0xa060, 1, 0x0, 0x0, 0x0, 0x0, 0x0, 0xffffffff, 0x0, false⟩,   -- PS_IDX_DROP_CNT
   ⟨0xa064, 1, 0x0, 0x0, 0x0, 0x0, 0x0, 0xffffffff, 0x0, false⟩,   -- PS_WR_REJ_CNT
   ⟨0xa068, 1, 0x0, 0x0, 0x0, 0x0, 0x0, 0xffffffff, 0x0, false⟩,   -- PS_REBLOCK_CNT
   ⟨0xa06c, 1, 0x0, 0x0, 0x0, 0x0, 0x0, 0xffffffff, 0x0, false⟩]   -- PS_HWR_CNT

/-- The MM page (0x0B). -/
def regRowsMm : List RegRow :=
  [⟨0xb040, 1, 0x0, 0xffffffff, 0x0, 0x0, 0x0, 0x0, 0x0, false⟩,   -- MM_SEED
   ⟨0xb044, 1, 0x0, 0x0, 0x80000000, 0x0, 0x0, 0x0, 0x0, false⟩,   -- MM_EVAL_MAX
   ⟨0xb048, 1, 0x0, 0x0, 0x0, 0x0, 0x0, 0xffffffff, 0x0, false⟩,   -- MM_SAT_CNT
   ⟨0xb04c, 1, 0x0, 0x7ff, 0x0, 0x0, 0x0, 0x0, 0x0, true⟩,   -- MM_VOICE_SEL
   ⟨0xb050, 1, 0x0, 0x0, 0x0, 0x0, 0x0, 0x0, 0x0, false⟩]   -- MM_VOICE_EG

/-- The SCH page (0x0C). -/
def regRowsSch : List RegRow :=
  [⟨0xc040, 1, 0x0, 0xff0f, 0x0, 0x0, 0x10000, 0x0, 0x1404, false⟩,   -- SCH_CTRL
   ⟨0xc044, 1, 0x0, 0x0, 0xc0000000, 0x0, 0x0, 0x0, 0x0, false⟩,   -- SCH_STAT
   ⟨0xc048, 1, 0x0, 0xffffff, 0x0, 0x0, 0x0, 0x0, 0x0, false⟩,   -- SCH_EXP_CYCLES
   ⟨0xc04c, 1, 0x0, 0xffffff, 0x0, 0x0, 0x0, 0x0, 0x4000, false⟩,   -- SCH_EXP_CFG
   ⟨0xc050, 1, 0x0, 0x7f7f7f, 0x0, 0x0, 0x0, 0x0, 0x64640a, false⟩,   -- SCH_BUDGET
   ⟨0xc054, 1, 0x0, 0x0, 0x0, 0x0, 0x0, 0x0, 0x0, false⟩,   -- SCH_HOLD
   ⟨0xc058, 1, 0x0, 0x3f07ff, 0x0, 0x0, 0x80000000, 0x0, 0x0, false⟩,   -- SCH_SHUNT
   ⟨0xc05c, 1, 0x0, 0x0, 0x0, 0x0, 0x0, 0x0, 0x0, false⟩,   -- SCH_SHUNT_STAT
   ⟨0xc060, 1, 0x0, 0x3f03, 0x0, 0x0, 0x0, 0x0, 0x2, true⟩,   -- SCH_PLAT_SEL
   ⟨0xc064, 1, 0x0, 0x0, 0x0, 0x0, 0x0, 0x0, 0x0, false⟩,   -- SCH_PLAT_STAT
   ⟨0xc068, 1, 0x0, 0xffffffff, 0x0, 0x0, 0x0, 0x0, 0x0, false⟩,   -- SCH_PSET0
   ⟨0xc06c, 1, 0x0, 0xffffffff, 0x0, 0x0, 0x0, 0x0, 0x0, false⟩,   -- SCH_PSET1
   ⟨0xc070, 1, 0x0, 0xffffffff, 0x0, 0x0, 0x0, 0x0, 0x0, false⟩,   -- SCH_PSET2
   ⟨0xc074, 1, 0x0, 0xffffffff, 0x0, 0x0, 0x0, 0x0, 0x0, false⟩,   -- SCH_PSET3
   ⟨0xc078, 1, 0x0, 0xff, 0x0, 0x0, 0x0, 0x0, 0x0, false⟩,   -- SCH_PSET4
   ⟨0xc080, 1, 0x0, 0x0, 0x0, 0x0, 0x0, 0xffffffff, 0x0, false⟩,   -- SCH_MISS_CNT
   ⟨0xc084, 1, 0x0, 0x0, 0x0, 0x0, 0x0, 0xffffffff, 0x0, false⟩,   -- SCH_CONCEAL_CNT
   ⟨0xc088, 1, 0x0, 0x0, 0x0, 0x0, 0x0, 0xffffffff, 0x0, false⟩,   -- SCH_ABORT_CNT
   ⟨0xc08c, 1, 0x0, 0x0, 0x0, 0x0, 0x0, 0xffffffff, 0x0, false⟩,   -- SCH_DEFER_NRM_CNT
   ⟨0xc090, 1, 0x0, 0x0, 0x0, 0x0, 0x0, 0xffffffff, 0x0, false⟩,   -- SCH_DEFER_BULK_CNT
   ⟨0xc094, 1, 0x0, 0x0, 0x0, 0x0, 0x0, 0xffffffff, 0x0, false⟩,   -- SCH_EXP_OVER_CNT
   ⟨0xc098, 1, 0x0, 0x0, 0x0, 0x0, 0x0, 0xffffffff, 0x0, false⟩,   -- SCH_SHUNT_CNT
   ⟨0xc09c, 1, 0x0, 0x0, 0x0, 0x0, 0x0, 0xffffffff, 0x0, false⟩,   -- SCH_STALE_CNT
   ⟨0xc0a0, 1, 0x0, 0x0, 0x0, 0x0, 0x0, 0xffffffff, 0x0, false⟩,   -- SCH_RERENDER_CNT
   ⟨0xc0a4, 1, 0x0, 0x0, 0x0, 0x0, 0x0, 0xffffffff, 0x0, false⟩,   -- SCH_SPLIT_DEFER_CNT
   ⟨0xc0a8, 1, 0x0, 0x0, 0x0, 0x0, 0x0, 0xffffffff, 0x0, false⟩,   -- SCH_SIDING_HIT_CNT
   ⟨0xc0ac, 1, 0x0, 0x0, 0x0, 0x0, 0x0, 0xffffffff, 0x0, false⟩,   -- SCH_SIDING_MISS_CNT
   ⟨0xc100, 48, 0x4, 0x0, 0x0, 0x0, 0x0, 0x0, 0x0, false⟩,   -- SCH_HISTc_k
   ⟨0xc200, 34, 0x8, 0x0, 0x0, 0x0, 0x0, 0x0, 0x0, false⟩,   -- SCH_CORE_BUSYn
   ⟨0xc204, 34, 0x8, 0x0, 0x0, 0x0, 0x0, 0x0, 0x0, false⟩,   -- SCH_CORE_AVGn
   ⟨0xc400, 64, 0x4, 0xfffffff, 0x0, 0x0, 0x0, 0x0, 0x4000, false⟩,   -- SCH_PART_CFGn
   ⟨0xc500, 64, 0x10, 0x1fff00f7, 0x0, 0x0, 0x0, 0x0, 0x4, false⟩,   -- SCH_BUSk_CFG
   ⟨0xc504, 64, 0x10, 0x1ffffff, 0x0, 0x0, 0x0, 0x0, 0x0, false⟩,   -- SCH_BUSk_HOME
   ⟨0xc508, 64, 0x10, 0xffffff, 0x0, 0x0, 0x0, 0x0, 0x4000, false⟩]   -- SCH_BUSk_LIM

/-- The VC page (0x20). -/
def regRowsVc : List RegRow :=
  [⟨0x20040, 34, 0x1000, 0x5, 0x0, 0x0, 0x2, 0x0, 0x0, false⟩,   -- VC_CTRL
   ⟨0x20044, 34, 0x1000, 0x0, 0x0, 0x0, 0x0, 0x0, 0x0, false⟩,   -- VC_STAT
   ⟨0x20048, 34, 0x1000, 0x1fff, 0x0, 0x0, 0x0, 0x0, 0x0, false⟩,   -- VC_RESET_VEC
   ⟨0x2004c, 34, 0x1000, 0x0, 0x0, 0x0, 0x0, 0x0, 0x0, false⟩,   -- VC_PC
   ⟨0x20050, 34, 0x1000, 0x0, 0x0, 0x0, 0x0, 0x0, 0x0, false⟩,   -- VC_TASK
   ⟨0x20054, 34, 0x1000, 0x0, 0x0, 0x0, 0x0, 0x0, 0x0, false⟩,   -- VC_TCYC
   ⟨0x20058, 34, 0x1000, 0xffffffff, 0x0, 0x0, 0x0, 0x0, 0x0, true⟩,   -- VC_DBELL
   ⟨0x2005c, 34, 0x1000, 0x0, 0x0, 0x0, 0x0, 0x0, 0x0, false⟩,   -- VC_MBOX
   ⟨0x20060, 34, 0x1000, 0x0, 0x0, 0x0, 0x0, 0x0, 0x0, false⟩,   -- VC_VIOL_INFO
   ⟨0x20064, 34, 0x1000, 0x1fff, 0x0, 0x0, 0x0, 0x0, 0x0, false⟩,   -- VC_PM_ADDR
   ⟨0x20068, 34, 0x1000, 0xffffffff, 0x0, 0x0, 0x0, 0x0, 0x0, false⟩,   -- VC_PM_DATA_LO
   ⟨0x2006c, 34, 0x1000, 0xffffffff, 0x0, 0x0, 0x0, 0x0, 0x0, false⟩,   -- VC_PM_DATA_HI
   ⟨0x20080, 34, 0x1000, 0x0, 0x0, 0x0, 0x0, 0xffffffff, 0x0, false⟩,   -- VC_VIOL_CNT
   ⟨0x20084, 34, 0x1000, 0x0, 0x0, 0x0, 0x0, 0xffffffff, 0x0, false⟩,   -- VC_ILL_CNT
   ⟨0x20088, 34, 0x1000, 0x0, 0x0, 0x0, 0x0, 0xffffffff, 0x0, false⟩,   -- VC_EVENT_CNT
   ⟨0x2008c, 34, 0x1000, 0x0, 0x0, 0x0, 0x0, 0xffffffff, 0x0, false⟩]   -- VC_PM_REJ_CNT

/-- The SPF page (0x0D). -/
def regRowsSpf : List RegRow :=
  [⟨0xd040, 1, 0x0, 0x0, 0x80000000, 0x0, 0x0, 0x0, 0x0, false⟩,   -- SPF_STAT
   ⟨0xd044, 1, 0x0, 0xffffffc0, 0x0, 0x0, 0x0, 0x0, 0x0, false⟩,   -- SPF_STBL_BASE
   ⟨0xd048, 1, 0x0, 0x1ffff, 0x0, 0x0, 0x0, 0x0, 0x0, false⟩,   -- SPF_STBL_CFG
   ⟨0xd04c, 1, 0x0, 0xfff, 0x0, 0x0, 0x0, 0x0, 0x0, true⟩,   -- SPF_SLOT_SEL
   ⟨0xd050, 1, 0x0, 0x0, 0x0, 0x0, 0x0, 0x0, 0x0, false⟩,   -- SPF_SLOT_STAT
   ⟨0xd054, 1, 0x0, 0x0, 0x0, 0x0, 0x0, 0x0, 0x0, false⟩,   -- SPF_SLOT_AVAIL
   ⟨0xd060, 1, 0x0, 0x0, 0x0, 0x0, 0x0, 0xffffffff, 0x0, false⟩,   -- SPF_START_CNT
   ⟨0xd064, 1, 0x0, 0x0, 0x0, 0x0, 0x0, 0xffffffff, 0x0, false⟩,   -- SPF_UNDERRUN_CNT
   ⟨0xd068, 1, 0x0, 0x0, 0x0, 0x0, 0x0, 0xffffffff, 0x0, false⟩,   -- SPF_FAULT_CNT
   ⟨0xd06c, 1, 0x0, 0x0, 0x0, 0x0, 0x0, 0xffffffff, 0x0, false⟩,   -- SPF_CLAMP_CNT
   ⟨0xd070, 1, 0x0, 0x0, 0x0, 0x0, 0x0, 0xffffffff, 0x0, false⟩,   -- SPF_TBL_ERR_CNT
   ⟨0xd100, 64, 0x4, 0x7f7f03, 0x0, 0x0, 0x0, 0x0, 0x0, false⟩,   -- SPF_PARTn_CFG
   ⟨0xd200, 60, 0x8, 0x1ffffc0, 0x0, 0x0, 0x0, 0x0, 0x0, false⟩,   -- SPF_TBLr_BASE
   ⟨0xd204, 60, 0x8, 0x8000011f, 0x0, 0x0, 0x0, 0x0, 0x4, false⟩]   -- SPF_TBLr_CFG

/-- The MIX page (0x0E). -/
def regRowsMix : List RegRow :=
  [⟨0xe040, 1, 0x0, 0x1, 0x0, 0x0, 0x0, 0x0, 0x0, false⟩,   -- MIX_CTRL
   ⟨0xe044, 1, 0x0, 0x0, 0x0, 0x0, 0x0, 0x0, 0x0, false⟩,   -- MIX_STAT
   ⟨0xe060, 1, 0x0, 0x0, 0x0, 0x0, 0x0, 0xffffffff, 0x0, false⟩,   -- MIX_ACCEPT_CNT
   ⟨0xe064, 1, 0x0, 0x0, 0x0, 0x0, 0x0, 0xffffffff, 0x0, false⟩,   -- MIX_SAT_CNT
   ⟨0xe100, 64, 0x4, 0x3, 0x0, 0x0, 0x0, 0x0, 0x0, false⟩,   -- MIX_PARTn_CFG
   ⟨0xe200, 64, 0x8, 0x73, 0x0, 0x0, 0x0, 0x0, 0x0, false⟩,   -- MIX_BUSk_CFG
   ⟨0xe204, 64, 0x8, 0xffffffff, 0x0, 0x0, 0x0, 0x0, 0x0, false⟩]   -- MIX_BUSk_IN

/-- The DEC page (0x0F). -/
def regRowsDec : List RegRow :=
  [⟨0xf040, 1, 0x0, 0x3, 0x0, 0x0, 0x0, 0x0, 0x0, false⟩,   -- DEC_CTRL
   ⟨0xf044, 1, 0x0, 0x0, 0x80000000, 0x0, 0x0, 0x0, 0x0, false⟩,   -- DEC_STAT
   ⟨0xf048, 1, 0x0, 0x7f7f, 0x0, 0x0, 0x0, 0x0, 0x303f, false⟩,   -- DEC_TAPS
   ⟨0xf04c, 1, 0x0, 0x13f, 0x0, 0x0, 0x0, 0x0, 0x0, false⟩,   -- DEC_COEF_ADDR
   ⟨0xf050, 1, 0x0, 0xffffff, 0x0, 0x0, 0x0, 0x0, 0x0, false⟩,   -- DEC_COEF_DATA
   ⟨0xf054, 1, 0x0, 0x103, 0x0, 0x0, 0x0, 0x0, 0x0, false⟩,   -- DEC_DCB_CFG
   ⟨0xf058, 1, 0x0, 0xffffffff, 0x0, 0x0, 0x0, 0x0, 0x0, false⟩,   -- DEC_DCB_EN0
   ⟨0xf05c, 1, 0x0, 0xffffffff, 0x0, 0x0, 0x0, 0x0, 0x0, false⟩,   -- DEC_DCB_EN1
   ⟨0xf060, 1, 0x0, 0xffffffff, 0x0, 0x0, 0x0, 0x0, 0x0, false⟩,   -- DEC_DCB_EN2
   ⟨0xf064, 1, 0x0, 0xffffffff, 0x0, 0x0, 0x0, 0x0, 0x0, false⟩,   -- DEC_DCB_EN3
   ⟨0xf068, 1, 0x0, 0x3f, 0x0, 0x0, 0x0, 0x0, 0x7, false⟩,   -- DEC_MON_CFG
   ⟨0xf06c, 1, 0x0, 0x0, 0x0, 0x0, 0x0, 0x0, 0x0, false⟩,   -- DEC_MON_STAT
   ⟨0xf070, 8, 0x4, 0x0, 0x0, 0x0, 0x0, 0x0, 0x0, false⟩,   -- DEC_MONc_DATA
   ⟨0xf090, 1, 0x0, 0x0, 0x0, 0x0, 0x0, 0xffffffff, 0x0, false⟩,   -- DEC_CAP_MISS_CNT
   ⟨0xf094, 1, 0x0, 0x0, 0x0, 0x0, 0x0, 0xffffffff, 0x0, false⟩,   -- DEC_SAT_CNT
   ⟨0xf200, 128, 0x4, 0xc00003ff, 0x0, 0x0, 0x0, 0x0, 0x0, false⟩]   -- DEC_CAPk_SRC

/-- The ORT page (0x10). -/
def regRowsOrt : List RegRow :=
  [⟨0x10040, 1, 0x0, 0x1, 0x0, 0x0, 0x0, 0x0, 0x0, false⟩,   -- ORT_CTRL
   ⟨0x10044, 1, 0x0, 0x0, 0x0, 0x0, 0x0, 0x0, 0x0, false⟩]   -- ORT_STAT

/-- The OQ page (0x11). -/
def regRowsOq : List RegRow :=
  [⟨0x11040, 1, 0x0, 0x0, 0x80000000, 0x0, 0x0, 0x0, 0x0, false⟩,   -- OQ_STAT
   ⟨0x11060, 1, 0x0, 0x0, 0x0, 0x0, 0x0, 0xffffffff, 0x0, false⟩,   -- OQ_UNDERRUN_CNT
   ⟨0x11064, 1, 0x0, 0x0, 0x0, 0x0, 0x0, 0xffffffff, 0x0, false⟩,   -- OQ_OVERRUN_CNT
   ⟨0x11068, 1, 0x0, 0x0, 0x0, 0x0, 0x0, 0xffffffff, 0x0, false⟩,   -- OQ_LATE_CNT
   ⟨0x11100, 48, 0x4, 0xff0071, 0x0, 0x0, 0x0, 0x0, 0x0, false⟩,   -- OQ_QqCFG
   ⟨0x11200, 48, 0x4, 0x0, 0xe0000000, 0x0, 0x0, 0x0, 0x0, false⟩]   -- OQ_QqSTAT

/-- The DAC page (0x12). -/
def regRowsDac : List RegRow :=
  [⟨0x12040, 1, 0x0, 0x11, 0x0, 0x0, 0x0, 0x0, 0x1, false⟩,   -- DAC_CTRL
   ⟨0x12044, 1, 0x0, 0x0, 0x80000000, 0x0, 0x0, 0x0, 0x0, false⟩,   -- DAC_STAT
   ⟨0x12048, 1, 0x0, 0x1ffffff, 0x0, 0x0, 0x0, 0x0, 0x300200, false⟩,   -- DAC_RB_CFG
   ⟨0x12060, 1, 0x0, 0x0, 0x0, 0x0, 0x0, 0xffffffff, 0x0, false⟩,   -- DAC_RB_MISMATCH_CNT
   ⟨0x12064, 1, 0x0, 0x0, 0x0, 0x0, 0x0, 0xffffffff, 0x0, false⟩,   -- DAC_RB_FAULT_CNT
   ⟨0x12068, 1, 0x0, 0x0, 0x0, 0x0, 0x0, 0xffffffff, 0x0, false⟩,   -- DAC_OC_CNT
   ⟨0x1206c, 1, 0x0, 0x0, 0x0, 0x0, 0x0, 0xffffffff, 0x0, false⟩,   -- DAC_SAT_CNT
   ⟨0x12070, 1, 0x0, 0x0, 0x0, 0x0, 0x0, 0xffffffff, 0x0, false⟩,   -- DAC_OUTCLR_CNT
   ⟨0x12100, 8, 0x20, 0x737, 0x0, 0x0, 0x0, 0x0, 0x0, false⟩,   -- DAC_CHc_CFG
   ⟨0x12104, 8, 0x20, 0xffff, 0x0, 0x0, 0x0, 0x0, 0x0, false⟩,   -- DAC_CHc_CLR
   ⟨0x12108, 8, 0x20, 0x0, 0x2700, 0x0, 0x0, 0x0, 0x0, false⟩,   -- DAC_CHc_STAT
   ⟨0x1210c, 8, 0x20, 0xffffffff, 0x0, 0x0, 0x0, 0x0, 0x0, false⟩,   -- DAC_CHc_TONE_INC
   ⟨0x12110, 8, 0x20, 0x3ffff, 0x0, 0x0, 0x0, 0x0, 0x0, false⟩,   -- DAC_CHc_TONE_CFG
   ⟨0x12114, 8, 0x20, 0x0, 0x0, 0x0, 0x0, 0x0, 0x0, false⟩]   -- DAC_CHc_RB

/-- The CON page (0x13). -/
def regRowsCon : List RegRow :=
  [⟨0x13040, 1, 0x0, 0xff0101, 0x0, 0x0, 0x0, 0x0, 0x100, false⟩,   -- CON_CTRL
   ⟨0x13044, 1, 0x0, 0x0, 0x80000000, 0x0, 0x0, 0x0, 0xf21, false⟩,   -- CON_STAT
   ⟨0x13048, 1, 0x0, 0x0, 0x0, 0x0, 0x0, 0x0, 0x0, false⟩,   -- CON_BT_POS
   ⟨0x1304c, 1, 0x0, 0x0, 0x0, 0x0, 0x0, 0x0, 0x0, false⟩,   -- CON_BT_FAIL
   ⟨0x13050, 1, 0x0, 0x0, 0x0, 0x0, 0x0, 0x0, 0x0, false⟩,   -- CON_ERR_INFO
   ⟨0x13054, 1, 0x0, 0x0, 0x0, 0x0, 0x0, 0x0, 0x0, false⟩,   -- CON_WCOLL_INFO
   ⟨0x13058, 1, 0x0, 0xff, 0x0, 0x0, 0x0, 0x0, 0x40, false⟩,   -- CON_RB_CFG
   ⟨0x1305c, 1, 0x0, 0x0, 0x0, 0x0, 0x0, 0x0, 0x0, false⟩,   -- CON_RB_STAT
   ⟨0x13060, 1, 0x0, 0x0, 0x0, 0x0, 0x0, 0xffffffff, 0x0, false⟩,   -- CON_CE_CNT
   ⟨0x13064, 1, 0x0, 0x0, 0x0, 0x0, 0x0, 0xffffffff, 0x0, false⟩,   -- CON_PARITY_CNT
   ⟨0x13068, 1, 0x0, 0x0, 0x0, 0x0, 0x0, 0xffffffff, 0x0, false⟩,   -- CON_UE_CNT
   ⟨0x1306c, 1, 0x0, 0x0, 0x0, 0x0, 0x0, 0xffffffff, 0x0, false⟩,   -- CON_WCOLL_CNT
   ⟨0x13070, 1, 0x0, 0x0, 0x0, 0x0, 0x0, 0xffffffff, 0x0, false⟩,   -- CON_BUSY_CNT
   ⟨0x13074, 1, 0x0, 0x0, 0x0, 0x0, 0x0, 0xffffffff, 0x0, false⟩,   -- CON_BT_REGION_CNT
   ⟨0x13078, 1, 0x0, 0x0, 0x0, 0x0, 0x0, 0xffffffff, 0x0, false⟩,   -- CON_BT_ABORT_CNT
   ⟨0x1307c, 1, 0x0, 0x0, 0x0, 0x0, 0x0, 0xffffffff, 0x0, false⟩,   -- CON_BT_FAIL_CNT
   ⟨0x13080, 1, 0x0, 0x0, 0x0, 0x0, 0x0, 0xffffffff, 0x0, false⟩,   -- CON_RB_REDO_CNT
   ⟨0x13100, 48, 0x4, 0x0, 0x0, 0x0, 0x0, 0xffffffff, 0x0, false⟩,   -- CON_CONFLICTm
   ⟨0x13200, 64, 0x4, 0x77777777, 0x0, 0x0, 0x0, 0x0, 0x0, false⟩,   -- CON_ATTRi
   ⟨0x13300, 74, 0x4, 0x0, 0x0, 0x0, 0x0, 0x0, 0x0, false⟩]   -- CON_BANKb

/-- The DRC page (0x14). -/
def regRowsDrc : List RegRow :=
  [⟨0x14040, 1, 0x0, 0x107, 0x0, 0x0, 0x0, 0x0, 0x104, false⟩,   -- DRC_CFG
   ⟨0x14044, 1, 0x0, 0x0, 0x40000000, 0x0, 0x0, 0x0, 0x0, false⟩,   -- DRC_STAT
   ⟨0x14048, 1, 0x0, 0xff, 0x0, 0x0, 0x0, 0x0, 0x18, false⟩,   -- DRC_SCRUB_CFG
   ⟨0x1404c, 1, 0x0, 0x0, 0x0, 0x0, 0x0, 0x0, 0x0, false⟩,   -- DRC_SCRUB_STAT
   ⟨0x14050, 1, 0x0, 0xf, 0x0, 0x0, 0x0, 0x0, 0x3, false⟩,   -- DRC_RETIRE_CFG
   ⟨0x14054, 1, 0x0, 0x0, 0x0, 0x0, 0x0, 0x0, 0x0, false⟩,   -- DRC_ERR_INFO
   ⟨0x14058, 1, 0x0, 0x0, 0x80000000, 0x0, 0x0, 0x0, 0x0, false⟩,   -- DRC_EXP_LAT
   ⟨0x1405c, 1, 0x0, 0x0, 0x0, 0x0, 0x0, 0x0, 0x0, false⟩,   -- DRC_TEMP
   ⟨0x14060, 1, 0x0, 0x0, 0x0, 0x0, 0x0, 0xffffffff, 0x0, false⟩,   -- DRC_CE_CNT
   ⟨0x14064, 1, 0x0, 0x0, 0x0, 0x0, 0x0, 0xffffffff, 0x0, false⟩,   -- DRC_UE_CNT
   ⟨0x14068, 1, 0x0, 0x0, 0x0, 0x0, 0x0, 0xffffffff, 0x0, false⟩,   -- DRC_RETIRED_CNT
   ⟨0x1406c, 1, 0x0, 0x0, 0x0, 0x0, 0x0, 0xffffffff, 0x0, false⟩,   -- DRC_RETIRE_REJ_CNT
   ⟨0x14070, 1, 0x0, 0x0, 0x0, 0x0, 0x0, 0xffffffff, 0x0, false⟩,   -- DRC_SCRUB_PASS_CNT
   ⟨0x14074, 1, 0x0, 0x0, 0x0, 0x0, 0x0, 0xffffffff, 0x0, false⟩,   -- DRC_ODECC0_CNT
   ⟨0x14078, 1, 0x0, 0x0, 0x0, 0x0, 0x0, 0xffffffff, 0x0, false⟩,   -- DRC_ODECC1_CNT
   ⟨0x1407c, 1, 0x0, 0x0, 0x0, 0x0, 0x0, 0xffffffff, 0x0, false⟩]   -- DRC_BAD_UNIT_CNT

/-- The NETA and NETB page (0x15). -/
def regRowsNeta : List RegRow :=
  [⟨0x15040, 2, 0x1000, 0xfff0103, 0x0, 0x0, 0x0, 0x0, 0x0, false⟩,   -- NETA_CFG
   ⟨0x15044, 2, 0x1000, 0x0, 0x0, 0x0, 0x0, 0x0, 0x0, false⟩,   -- NETA_STAT
   ⟨0x15048, 2, 0x1000, 0xffffffff, 0x0, 0x0, 0x0, 0x0, 0x0, false⟩,   -- NETA_MAC_LO
   ⟨0x1504c, 2, 0x1000, 0xffffffff, 0x0, 0x0, 0x0, 0x0, 0x0, false⟩,   -- NETA_MAC_HI
   ⟨0x15050, 2, 0x1000, 0xffffffff, 0x0, 0x0, 0x0, 0x0, 0x0, false⟩,   -- NETA_IPV4
   ⟨0x15060, 2, 0x1000, 0x0, 0x0, 0x0, 0x0, 0xffffffff, 0x0, false⟩,   -- NETA_RX_FRM_CNT
   ⟨0x15064, 2, 0x1000, 0x0, 0x0, 0x0, 0x0, 0xffffffff, 0x0, false⟩,   -- NETA_RX_ERR_CNT
   ⟨0x15068, 2, 0x1000, 0x0, 0x0, 0x0, 0x0, 0xffffffff, 0x0, false⟩,   -- NETA_HOST_DROP_CNT
   ⟨0x1506c, 2, 0x1000, 0x0, 0x0, 0x0, 0x0, 0xffffffff, 0x0, false⟩,   -- NETA_TX_LATE_CNT
   ⟨0x15080, 2, 0x1000, 0xffffffff, 0x0, 0x0, 0x0, 0x0, 0x0, false⟩,   -- NETA_HRX_BASE_LO
   ⟨0x15084, 2, 0x1000, 0xffffffff, 0x0, 0x0, 0x0, 0x0, 0x0, false⟩,   -- NETA_HRX_BASE_HI
   ⟨0x15088, 2, 0x1000, 0x10f, 0x0, 0x0, 0x0, 0x0, 0x8, false⟩,   -- NETA_HRX_CFG
   ⟨0x1508c, 2, 0x1000, 0x0, 0x0, 0x0, 0x0, 0x0, 0x0, true⟩,   -- NETA_HRX_PI
   ⟨0x15090, 2, 0x1000, 0xffff, 0x0, 0x0, 0x0, 0x0, 0x0, true⟩,   -- NETA_HRX_CI
   ⟨0x150a0, 2, 0x1000, 0xffffffff, 0x0, 0x0, 0x0, 0x0, 0x0, false⟩,   -- NETA_HTX_BASE_LO
   ⟨0x150a4, 2, 0x1000, 0xffffffff, 0x0, 0x0, 0x0, 0x0, 0x0, false⟩,   -- NETA_HTX_BASE_HI
   ⟨0x150a8, 2, 0x1000, 0x10f, 0x0, 0x0, 0x0, 0x0, 0x8, false⟩,   -- NETA_HTX_CFG
   ⟨0x150ac, 2, 0x1000, 0xffff, 0x0, 0x0, 0x0, 0x0, 0x0, true⟩,   -- NETA_HTX_PI
   ⟨0x150b0, 2, 0x1000, 0x0, 0x0, 0x0, 0x0, 0x0, 0x0, true⟩]   -- NETA_HTX_CI

/-- The PTP page (0x17). -/
def regRowsPtp : List RegRow :=
  [⟨0x17040, 1, 0x0, 0xf0ffff01, 0x0, 0x0, 0x0, 0x0, 0xd0f8ff01, false⟩,   -- PTP_CFG
   ⟨0x17044, 1, 0x0, 0x0, 0x0, 0x0, 0x0, 0x0, 0x0, false⟩,   -- PTP_STAT
   ⟨0x17048, 1, 0x0, 0x0, 0x0, 0x0, 0x0, 0x0, 0x0, false⟩,   -- PTP_GM_ID_LO
   ⟨0x1704c, 1, 0x0, 0x0, 0x0, 0x0, 0x0, 0x0, 0x0, false⟩,   -- PTP_GM_ID_HI
   ⟨0x17050, 1, 0x0, 0x0, 0x0, 0x0, 0x0, 0x0, 0x0, false⟩,   -- PTP_TIME_LO
   ⟨0x17054, 1, 0x0, 0x0, 0x0, 0x0, 0x0, 0x0, 0x0, false⟩,   -- PTP_TIME_HI
   ⟨0x17058, 1, 0x0, 0x0, 0x0, 0x0, 0x0, 0x0, 0x0, false⟩,   -- PTP_PDELAY_A
   ⟨0x1705c, 1, 0x0, 0x0, 0x0, 0x0, 0x0, 0x0, 0x0, false⟩,   -- PTP_PDELAY_B
   ⟨0x17060, 1, 0x0, 0x0, 0x0, 0x0, 0x0, 0x0, 0x0, false⟩]   -- PTP_FAILOVER_CNT

/-- The STRM page (0x18). -/
def regRowsStrm : List RegRow :=
  [⟨0x18040, 1, 0x0, 0x0, 0x80000000, 0x0, 0x0, 0x0, 0x0, false⟩,   -- STRM_STAT
   ⟨0x18060, 1, 0x0, 0x0, 0x0, 0x0, 0x0, 0xffffffff, 0x0, false⟩,   -- STRM_RX_PKT_CNT
   ⟨0x18064, 1, 0x0, 0x0, 0x0, 0x0, 0x0, 0xffffffff, 0x0, false⟩,   -- STRM_RX_REPAIRED_CNT
   ⟨0x18068, 1, 0x0, 0x0, 0x0, 0x0, 0x0, 0xffffffff, 0x0, false⟩,   -- STRM_RX_UNDERRUN_CNT
   ⟨0x1806c, 1, 0x0, 0x0, 0x0, 0x0, 0x0, 0xffffffff, 0x0, false⟩,   -- STRM_RX_BAD_CNT
   ⟨0x18070, 1, 0x0, 0x0, 0x0, 0x0, 0x0, 0xffffffff, 0x0, false⟩,   -- STRM_TX_PKT_CNT
   ⟨0x18100, 32, 0x10, 0xffffbfff, 0x0, 0x0, 0x0, 0x0, 0x0, false⟩,   -- STRM_RXs_CFG
   ⟨0x18104, 32, 0x10, 0xffffffff, 0x0, 0x0, 0x0, 0x0, 0x0, false⟩,   -- STRM_RXs_ID_LO
   ⟨0x18108, 32, 0x10, 0xffffffff, 0x0, 0x0, 0x0, 0x0, 0x0, false⟩,   -- STRM_RXs_ID_HI
   ⟨0x1810c, 32, 0x10, 0xffffffff, 0x0, 0x0, 0x0, 0x0, 0x0, false⟩,   -- STRM_RXs_OFS
   ⟨0x18300, 32, 0x20, 0xfff800ff, 0x0, 0x0, 0x0, 0x0, 0x0, false⟩,   -- STRM_TXs_CFG
   ⟨0x18304, 32, 0x20, 0xffffffff, 0x0, 0x0, 0x0, 0x0, 0x0, false⟩,   -- STRM_TXs_ID_LO
   ⟨0x18308, 32, 0x20, 0xffffffff, 0x0, 0x0, 0x0, 0x0, 0x0, false⟩,   -- STRM_TXs_ID_HI
   ⟨0x1830c, 32, 0x20, 0xffffffff, 0x0, 0x0, 0x0, 0x0, 0x0, false⟩,   -- STRM_TXs_DST
   ⟨0x18310, 32, 0x20, 0xffffffff, 0x0, 0x0, 0x0, 0x0, 0x0, false⟩]   -- STRM_TXs_OFS

/-- The NMID page (0x19). -/
def regRowsNmid : List RegRow :=
  [⟨0x19040, 1, 0x0, 0x0, 0x80000000, 0x0, 0x0, 0x0, 0x0, false⟩,   -- NMID_STAT
   ⟨0x19060, 1, 0x0, 0x0, 0x0, 0x0, 0x0, 0xffffffff, 0x0, false⟩,   -- NMID_DATA_CNT
   ⟨0x19064, 1, 0x0, 0x0, 0x0, 0x0, 0x0, 0xffffffff, 0x0, false⟩,   -- NMID_FWD_CNT
   ⟨0x19068, 1, 0x0, 0x0, 0x0, 0x0, 0x0, 0xffffffff, 0x0, false⟩,   -- NMID_DROP_CNT
   ⟨0x19100, 32, 0x10, 0xcf000000, 0x0, 0x0, 0x0, 0x0, 0x0, false⟩,   -- NMID_SESSn_CFG
   ⟨0x19104, 32, 0x10, 0xffffffff, 0x0, 0x0, 0x0, 0x0, 0x0, false⟩,   -- NMID_SESSn_ADDR
   ⟨0x19108, 32, 0x10, 0xffffffff, 0x0, 0x0, 0x0, 0x0, 0x0, false⟩,   -- NMID_SESSn_PORT
   ⟨0x1910c, 32, 0x10, 0x0, 0x0, 0x0, 0x0, 0x0, 0x0, false⟩]   -- NMID_SESSn_SEQ

/-- The PCI page (0x1A). -/
def regRowsPci : List RegRow :=
  [⟨0x1a040, 1, 0x0, 0x0, 0x0, 0x0, 0x0, 0x0, 0x0, false⟩,   -- PCI_STAT
   ⟨0x1a044, 1, 0x0, 0xffffffff, 0x0, 0x0, 0x0, 0x0, 0x0, false⟩,   -- PCI_DMA_BASE_LO
   ⟨0x1a048, 1, 0x0, 0xffffffff, 0x0, 0x0, 0x0, 0x0, 0x0, false⟩,   -- PCI_DMA_BASE_HI
   ⟨0x1a04c, 1, 0x0, 0x10f, 0x0, 0x0, 0x0, 0x0, 0x8, false⟩,   -- PCI_DMA_CFG
   ⟨0x1a050, 1, 0x0, 0xffff, 0x0, 0x0, 0x0, 0x0, 0x0, true⟩,   -- PCI_DMA_PI
   ⟨0x1a054, 1, 0x0, 0x0, 0x0, 0x0, 0x0, 0x0, 0x0, true⟩,   -- PCI_DMA_CI
   ⟨0x1a060, 1, 0x0, 0x0, 0x0, 0x0, 0x0, 0xffffffff, 0x0, false⟩,   -- PCI_DMA_DONE_CNT
   ⟨0x1a064, 1, 0x0, 0x0, 0x0, 0x0, 0x0, 0xffffffff, 0x0, false⟩,   -- PCI_DMA_ERR_CNT
   ⟨0x1a068, 1, 0x0, 0x0, 0x0, 0x0, 0x0, 0xffffffff, 0x0, false⟩,   -- PCI_HS_LATE_CNT
   ⟨0x1a100, 8, 0x20, 0xffffffff, 0x0, 0x0, 0x0, 0x0, 0x0, false⟩,   -- PCI_HSOs_BASE_LO
   ⟨0x1a104, 8, 0x20, 0xffffffff, 0x0, 0x0, 0x0, 0x0, 0x0, false⟩,   -- PCI_HSOs_BASE_HI
   ⟨0x1a108, 8, 0x20, 0x8000000f, 0x0, 0x0, 0x0, 0x0, 0x0, false⟩,   -- PCI_HSOs_CFG
   ⟨0x1a10c, 8, 0x20, 0x0, 0x0, 0x0, 0x0, 0x0, 0x0, false⟩,   -- PCI_HSOs_BLK
   ⟨0x1a110, 8, 0x20, 0xffffffff, 0x0, 0x0, 0x0, 0x0, 0x0, false⟩,   -- PCI_HSIs_BASE_LO
   ⟨0x1a114, 8, 0x20, 0xffffffff, 0x0, 0x0, 0x0, 0x0, 0x0, false⟩,   -- PCI_HSIs_BASE_HI
   ⟨0x1a118, 8, 0x20, 0x80ffff0f, 0x0, 0x0, 0x0, 0x0, 0x0, false⟩]   -- PCI_HSIs_CFG

/-- The HSP page (0x1B). -/
def regRowsHsp : List RegRow :=
  [⟨0x1b040, 1, 0x0, 0x0, 0x0, 0x0, 0x0, 0x0, 0x0, false⟩,   -- HSP_ERR_INFO
   ⟨0x1b060, 1, 0x0, 0x0, 0x0, 0x0, 0x0, 0xffffffff, 0x0, false⟩,   -- HSP_TXN_CNT
   ⟨0x1b064, 1, 0x0, 0x0, 0x0, 0x0, 0x0, 0xffffffff, 0x0, false⟩,   -- HSP_REFUSE_CNT
   ⟨0x1b068, 1, 0x0, 0x0, 0x0, 0x0, 0x0, 0xffffffff, 0x0, false⟩]   -- HSP_FRAME_ERR_CNT

/-- The TDM page (0x1C). -/
def regRowsTdm : List RegRow :=
  [⟨0x1c040, 1, 0x0, 0x0, 0x80000000, 0x0, 0x0, 0x0, 0x0, false⟩,   -- TDM_STAT
   ⟨0x1c060, 1, 0x0, 0x0, 0x0, 0x0, 0x0, 0xffffffff, 0x0, false⟩,   -- TDM_SLIP_CNT
   ⟨0x1c100, 4, 0x10, 0x1ff, 0x0, 0x0, 0x0, 0x0, 0x2e, false⟩,   -- TDM_Pp_CFG
   ⟨0x1c104, 4, 0x10, 0x0, 0x2, 0x0, 0x0, 0x0, 0x0, false⟩]   -- TDM_Pp_STAT

/-- The SVC page (0x01). -/
def regRowsSvc : List RegRow :=
  [⟨0x1040, 1, 0x0, 0x0, 0x0, 0x0, 0xff, 0x0, 0x0, false⟩,   -- SVC_CMD
   ⟨0x1044, 1, 0x0, 0xffffffff, 0x0, 0x0, 0x0, 0x0, 0x0, true⟩,   -- SVC_ARG
   ⟨0x1048, 1, 0x0, 0x0, 0x40000000, 0x0, 0x0, 0x0, 0x0, false⟩,   -- SVC_STAT
   ⟨0x104c, 1, 0x0, 0x0, 0x0, 0x0, 0xff, 0x0, 0x0, false⟩,   -- SVC_ABORT
   ⟨0x1050, 1, 0x0, 0x0, 0x0, 0x0, 0x0, 0x0, 0x0, false⟩,   -- SVC_RESULT
   ⟨0x1054, 1, 0x0, 0x0, 0x0, 0x0, 0x0, 0x0, 0x0, false⟩,   -- SVC_PROG
   ⟨0x1058, 1, 0x0, 0xfffff03, 0x0, 0x0, 0x0, 0x0, 0x1000403, false⟩,   -- SVC_POLICY
   ⟨0x105c, 1, 0x0, 0x0, 0x0, 0x0, 0x0, 0x0, 0x212002, false⟩,   -- SVC_RH
   ⟨0x1060, 1, 0x0, 0x0, 0x0, 0x0, 0x0, 0xffffffff, 0x0, false⟩,   -- SVC_REFUSE_CNT
   ⟨0x1064, 1, 0x0, 0x0, 0x0, 0x0, 0x0, 0xffffffff, 0x0, false⟩]   -- SVC_AUTO_CNT

/-- The ERR page (0x07). -/
def regRowsErr : List RegRow :=
  [⟨0x7040, 1, 0x0, 0x1, 0x0, 0x0, 0x0, 0x0, 0x0, false⟩,   -- ERR_CTRL
   ⟨0x7044, 1, 0x0, 0xffff, 0x0, 0x0, 0x0, 0x0, 0x0, true⟩,   -- ERR_CAT_SEL
   ⟨0x7048, 1, 0x0, 0x0, 0x0, 0x0, 0x0, 0x0, 0x0, false⟩,   -- ERR_CAT
   ⟨0x704c, 1, 0x0, 0x0, 0x0, 0x0, 0x0, 0x0, 0x0, false⟩,   -- ERR_LOG_HEAD
   ⟨0x7050, 1, 0x0, 0x0, 0x0, 0x0, 0x0, 0xffffffff, 0x0, false⟩,   -- ERR_LOG_CNT
   ⟨0x7054, 1, 0x0, 0x0, 0x0, 0x0, 0x0, 0xffffffff, 0x0, false⟩,   -- ERR_INJ_REJ_CNT
   ⟨0x7100, 16, 0x10, 0x0, 0x0, 0x0, 0x0, 0x0, 0x0, false⟩,   -- ERR_LOGk_W0
   ⟨0x7104, 16, 0x10, 0x0, 0x0, 0x0, 0x0, 0x0, 0x0, false⟩,   -- ERR_LOGk_W1
   ⟨0x7108, 16, 0x10, 0x0, 0x0, 0x0, 0x0, 0x0, 0x0, false⟩,   -- ERR_LOGk_W2
   ⟨0x710c, 16, 0x10, 0x0, 0x0, 0x0, 0x0, 0x0, 0x0, false⟩]   -- ERR_LOGk_W3

/-- The IRQ page (0x06). -/
def regRowsIrq : List RegRow :=
  [⟨0x6040, 1, 0x0, 0x0, 0x0, 0x0, 0x0, 0x0, 0x0, false⟩,   -- IRQ_PEND_LO
   ⟨0x6044, 1, 0x0, 0x0, 0x0, 0x0, 0x0, 0x0, 0x0, false⟩,   -- IRQ_PEND_HI
   ⟨0x6048, 1, 0x0, 0xffffffff, 0x0, 0x0, 0x0, 0x0, 0x0, false⟩,   -- IRQ_MSI_EN_LO
   ⟨0x604c, 1, 0x0, 0xffffffff, 0x0, 0x0, 0x0, 0x0, 0x0, false⟩,   -- IRQ_MSI_EN_HI
   ⟨0x6050, 1, 0x0, 0xffffffff, 0x0, 0x0, 0x0, 0x0, 0x0, false⟩,   -- IRQ_HINT_EN_LO
   ⟨0x6054, 1, 0x0, 0xffffffff, 0x0, 0x0, 0x0, 0x0, 0x0, false⟩,   -- IRQ_HINT_EN_HI
   ⟨0x6058, 1, 0x0, 0x3ffff, 0x0, 0x0, 0x0, 0x0, 0x0, false⟩,   -- IRQ_HB_CFG
   ⟨0x605c, 1, 0x0, 0x0, 0x0, 0x0, 0xffffffff, 0x0, 0x0, false⟩,   -- IRQ_HB_KICK
   ⟨0x6060, 1, 0x0, 0x0, 0x0, 0x0, 0x0, 0xffffffff, 0x0, false⟩]   -- IRQ_HB_LOST_CNT

/-- The PMU page (0x05). -/
def regRowsPmu : List RegRow :=
  [⟨0x5040, 1, 0x0, 0xffff0001, 0x0, 0x0, 0x0, 0x0, 0x10000, false⟩,   -- PMU_CTRL
   ⟨0x5044, 1, 0x0, 0x0, 0x80000000, 0x0, 0x0, 0x0, 0x0, false⟩,   -- PMU_STAT
   ⟨0x5048, 1, 0x0, 0xffffffff, 0x0, 0x0, 0x0, 0x0, 0x0, false⟩,   -- PMU_RING_BASE_LO
   ⟨0x504c, 1, 0x0, 0xffffffff, 0x0, 0x0, 0x0, 0x0, 0x0, false⟩,   -- PMU_RING_BASE_HI
   ⟨0x5050, 1, 0x0, 0x20f, 0x0, 0x0, 0x0, 0x0, 0x4, false⟩,   -- PMU_RING_CFG
   ⟨0x5054, 1, 0x0, 0x0, 0x0, 0x0, 0x0, 0x0, 0x0, true⟩,   -- PMU_PI
   ⟨0x5058, 1, 0x0, 0xffff, 0x0, 0x0, 0x0, 0x0, 0x0, true⟩,   -- PMU_CI
   ⟨0x505c, 1, 0x0, 0x1ff, 0x0, 0x0, 0x0, 0x0, 0x0, true⟩,   -- PMU_CNT_SEL
   ⟨0x5060, 1, 0x0, 0x0, 0x0, 0x0, 0x0, 0xffffffff, 0x0, false⟩,   -- PMU_DUMP_CNT
   ⟨0x5070, 1, 0x0, 0x0, 0x0, 0x0, 0x0, 0x0, 0x0, false⟩,   -- PMU_CNT_LO
   ⟨0x5074, 1, 0x0, 0x0, 0x0, 0x0, 0x0, 0x0, 0x0, false⟩]   -- PMU_CNT_HI

/-- The PWR page (0x03). -/
def regRowsPwr : List RegRow :=
  [⟨0x3040, 1, 0x0, 0x0, 0x0, 0x0, 0xffff0003, 0x0, 0x0, false⟩,   -- PWR_CTRL
   ⟨0x3044, 1, 0x0, 0x0, 0x0, 0x0, 0x0, 0x0, 0x1, false⟩,   -- PWR_STAT
   ⟨0x3048, 1, 0x0, 0x7, 0x0, 0x0, 0x0, 0x0, 0x5, false⟩,   -- PWR_WAKE_CFG
   ⟨0x304c, 1, 0x0, 0x0, 0xf, 0x0, 0x0, 0x0, 0x0, false⟩,   -- PWR_WAKE_SRC
   ⟨0x3050, 1, 0x0, 0xff, 0x0, 0x0, 0x0, 0x0, 0x64, false⟩,   -- PWR_THERM_CFG
   ⟨0x3054, 1, 0x0, 0x0, 0x80000000, 0x0, 0x0, 0x0, 0x0, false⟩,   -- PWR_TEMP
   ⟨0x3058, 1, 0x0, 0x0, 0x7f, 0x0, 0x0, 0x0, 0x0, false⟩,   -- PWR_RST_CAUSE
   ⟨0x305c, 1, 0x0, 0x0, 0x0, 0x0, 0x0, 0x0, 0xfff, false⟩,   -- PWR_RAIL_STAT
   ⟨0x3060, 1, 0x0, 0x0, 0x0, 0x0, 0x0, 0x0, 0x0, false⟩,   -- PWR_RESTART_CNT
   ⟨0x3064, 1, 0x0, 0x0, 0x0, 0x0, 0x0, 0x0, 0x0, false⟩,   -- PWR_WAKE_CNT
   ⟨0x3068, 1, 0x0, 0x0, 0x0, 0x0, 0x0, 0x0, 0x0, false⟩]   -- PWR_STBY_REJ_CNT

/-- The BOOT page (0x04). -/
def regRowsBoot : List RegRow :=
  [⟨0x4040, 1, 0x0, 0x3, 0x0, 0x0, 0x100, 0x0, 0x0, false⟩,   -- BOOT_CTRL
   ⟨0x4044, 1, 0x0, 0x0, 0x300, 0x0, 0x0, 0x0, 0x0, false⟩,   -- BOOT_STAT
   ⟨0x4048, 1, 0x0, 0x1fffc00, 0x0, 0x0, 0x0, 0x0, 0x0, false⟩,   -- BOOT_HOST_ADDR
   ⟨0x404c, 1, 0x0, 0x0, 0x0, 0x0, 0x0, 0x0, 0x0, false⟩,   -- BOOT_IMG_SEQ
   ⟨0x4050, 1, 0x0, 0x0, 0x0, 0x0, 0xffff0001, 0x0, 0x0, false⟩,   -- BOOT_FUSE_CTRL
   ⟨0x4054, 1, 0x0, 0x0, 0x0, 0x0, 0x0, 0x0, 0x0, false⟩,   -- BOOT_FUSE_STAT
   ⟨0x4058, 1, 0x0, 0x0, 0x0, 0x0, 0x0, 0x0, 0x0, false⟩,   -- BOOT_ATTEMPT_CNT
   ⟨0x405c, 1, 0x0, 0x0, 0x0, 0x0, 0x0, 0x0, 0x0, false⟩,   -- BOOT_REC_REJ_CNT
   ⟨0x4080, 8, 0x4, 0xffffffff, 0x0, 0x0, 0x0, 0x0, 0x0, false⟩]   -- BOOT_FUSE_DATAi

/-- The GLB page (0x00). -/
def regRowsGlb : List RegRow :=
  [⟨0x40, 1, 0x0, 0x0, 0x0, 0x0, 0x0, 0x0, 0x4d461024, false⟩,   -- GLB_DEV_ID
   ⟨0x44, 1, 0x0, 0x0, 0x0, 0x0, 0x0, 0x0, 0x0, false⟩,   -- GLB_REV
   ⟨0x48, 1, 0x0, 0x0, 0x0, 0x0, 0x0, 0x0, 0x0, false⟩,   -- GLB_UID_LO
   ⟨0x4c, 1, 0x0, 0x0, 0x0, 0x0, 0x0, 0x0, 0x0, false⟩,   -- GLB_UID_HI
   ⟨0x50, 1, 0x0, 0x0, 0x0, 0x0, 0xffff013f, 0x0, 0x0, false⟩,   -- GLB_FENCE
   ⟨0x54, 1, 0x0, 0x0, 0x0, 0x0, 0x0, 0x0, 0x0, false⟩,   -- GLB_FENCE_STAT
   ⟨0x58, 1, 0x0, 0xffffffff, 0x0, 0x0, 0x0, 0x0, 0x0, false⟩]   -- GLB_SCRATCH

/-- The DBG page (0x1D). -/
def regRowsDbg : List RegRow :=
  [⟨0x1d040, 1, 0x0, 0x1, 0x0, 0x0, 0x0, 0x0, 0x0, false⟩,   -- DBG_CTRL
   ⟨0x1d044, 1, 0x0, 0x0, 0x80000000, 0x0, 0x0, 0x0, 0x0, false⟩,   -- DBG_HIT
   ⟨0x1d100, 8, 0x4, 0xbf001fff, 0x0, 0x0, 0x0, 0x0, 0x0, false⟩]   -- DBG_BPk_CFG

/-- Every register row but the common header and the MSI-X table, by page (R421). -/
def regRowsOfPage (p : Nat) : List RegRow :=
  if p = 0x2 then regRowsClk
  else if p = 0x8 then regRowsIng
  else if p = 0x9 then regRowsVa
  else if p = 0xa then regRowsPs
  else if p = 0xb then regRowsMm
  else if p = 0xc then regRowsSch
  else if 0x20 ≤ p ∧ p < 0x42 then regRowsVc
  else if p = 0xd then regRowsSpf
  else if p = 0xe then regRowsMix
  else if p = 0xf then regRowsDec
  else if p = 0x10 then regRowsOrt
  else if p = 0x11 then regRowsOq
  else if p = 0x12 then regRowsDac
  else if p = 0x13 then regRowsCon
  else if p = 0x14 then regRowsDrc
  else if p = 0x15 ∨ p = 0x16 then regRowsNeta
  else if p = 0x17 then regRowsPtp
  else if p = 0x18 then regRowsStrm
  else if p = 0x19 then regRowsNmid
  else if p = 0x1a then regRowsPci
  else if p = 0x1b then regRowsHsp
  else if p = 0x1c then regRowsTdm
  else if p = 0x1 then regRowsSvc
  else if p = 0x7 then regRowsErr
  else if p = 0x6 then regRowsIrq
  else if p = 0x5 then regRowsPmu
  else if p = 0x3 then regRowsPwr
  else if p = 0x4 then regRowsBoot
  else if p = 0x0 then regRowsGlb
  else if p = 0x1d then regRowsDbg
  else []

end Sys2Proof.Machine
end

