-- ==== Sys2Proof/Machine/Sparse.lean ====
section
/-! DEFINITION. Reading and writing a sparse map. `dflt` says what a key that is not listed reads as. -/

namespace Sys2Proof.Sparse

variable {α : Type}

/-- The value at key `k`. -/
def get (dflt : Nat → α) : Map α → Nat → α
  | [], k => dflt k
  | (j, v) :: m, k => if j = k then v else get dflt m k

/-- The map with key `k` no longer listed. -/
def erase : Map α → Nat → Map α
  | [], _ => []
  | (j, v) :: m, k => if j = k then erase m k else (j, v) :: erase m k

/-- The map with `(k, v)` listed before the first larger key. -/
def insert : Map α → Nat → α → Map α
  | [], k, v => [(k, v)]
  | (j, w) :: m, k, v => if k < j then (k, v) :: (j, w) :: m else (j, w) :: insert m k v

/-- The map with `v` at key `k`; writing what an unlisted key reads as removes the entry. -/
def put [DecidableEq α] (dflt : Nat → α) (m : Map α) (k : Nat) (v : α) : Map α :=
  if v = dflt k then erase m k else insert (erase m k) k v

/-- Applies `f` to the value at key `k`. -/
def upd [DecidableEq α] (dflt : Nat → α) (m : Map α) (k : Nat) (f : α → α) : Map α :=
  put dflt m k (f (get dflt m k))

/-- Every key is larger than `lo`, keys rise strictly, and no entry equals its default. -/
def wfFrom [DecidableEq α] (dflt : Nat → α) : Option Nat → Map α → Bool
  | _, [] => true
  | lo, (k, v) :: m =>
    (match lo with
     | none => true
     | some l => decide (l < k)) && decide (v ≠ dflt k) && wfFrom dflt (some k) m

/-- The canonical form. -/
def wf [DecidableEq α] (dflt : Nat → α) (m : Map α) : Bool := wfFrom dflt none m

end Sys2Proof.Sparse
end

