-- ==== Sys2Proof/Machine/Regs.lean ====
section
/-! DEFINITION. The register space (R4, R5, R421 to R428): pages, rows, reset values, bit fields of a register word. -/

namespace Sys2Proof.Machine

/-- Bits `lo` to `lo + w - 1` of a number. -/
def bitsOf (n lo w : Nat) : Nat := (n >>> lo) % 2 ^ w

/-- `n` with bits `lo` to `lo + w - 1` replaced by `v`. -/
def setBitsOf (n lo w v : Nat) : Nat := n - bitsOf n lo w * 2 ^ lo + (v % 2 ^ w) * 2 ^ lo

/-- A signed reading of the low `w` bits of a number. -/
def signedOf (w n : Nat) : Int :=
  let m := n % 2 ^ w
  if 2 ^ (w - 1) ≤ m ∧ w ≠ 0 then (m : Int) - (2 ^ w : Nat) else m

/-- An integer as `w` bits, modulo 2^w. -/
def wrapTo (w : Nat) (i : Int) : Nat := (i % ((2 ^ w : Nat) : Int)).toNat

/-- Field `lo`, width `w`, of a register word. -/
def fieldOf (v : Word) (lo w : Nat) : Nat := bitsOf v.toNat lo w

/-- A register word with one field replaced. -/
def setFieldOf (v : Word) (lo w n : Nat) : Word := BitVec.ofNat 32 (setBitsOf v.toNat lo w n)

namespace Page
abbrev glb : Nat := 0x00
abbrev svc : Nat := 0x01
abbrev clk : Nat := 0x02
abbrev pwr : Nat := 0x03
abbrev boot : Nat := 0x04
abbrev pmu : Nat := 0x05
abbrev irq : Nat := 0x06
abbrev err : Nat := 0x07
abbrev ing : Nat := 0x08
abbrev va : Nat := 0x09
abbrev ps : Nat := 0x0A
abbrev mm : Nat := 0x0B
abbrev sch : Nat := 0x0C
abbrev spf : Nat := 0x0D
abbrev mix : Nat := 0x0E
abbrev dec : Nat := 0x0F
abbrev ort : Nat := 0x10
abbrev oq : Nat := 0x11
abbrev dac : Nat := 0x12
abbrev con : Nat := 0x13
abbrev drc : Nat := 0x14
abbrev neta : Nat := 0x15
abbrev ptp : Nat := 0x17
abbrev strm : Nat := 0x18
abbrev nmid : Nat := 0x19
abbrev pci : Nat := 0x1A
abbrev hsp : Nat := 0x1B
abbrev tdm : Nat := 0x1C
abbrev dbg : Nat := 0x1D
abbrev vc0 : Nat := 0x20
end Page

/-- The pages that R421 lists: 0x00 to 0x1D and the 34 core pages. -/
def pageExists (p : Nat) : Bool := decide (p ≤ 0x1D) || (decide (0x20 ≤ p) && decide (p < 0x42))

/-- The bits of PAGE_IRQ_STAT and PAGE_IRQ_EN that a page assigns, each with its interrupt source (R378 and the register
section of each page's chapter). NET_HOSTQ and NET_TX_LATE are sources 46 and 47 (R337, R331). -/
def irqBitsOfPage (p : Nat) : List (Nat × Nat) :=
  if p = Page.svc then [(0, 0), (1, 1), (2, 27)]
  else if p = Page.clk then [(0, 55), (1, 7), (2, 55)]
  else if p = Page.pwr then [(0, 4), (1, 5), (2, 6), (3, 61)]
  else if p = Page.boot then [(0, 2), (1, 3)]
  else if p = Page.pmu then [(0, 58), (1, 59)]
  else if p = Page.irq then [(0, 63)]
  else if p = Page.err then [(0, 60)]
  else if p = Page.ing then [(0, 8), (1, 9), (2, 10), (3, 11), (4, 12), (5, 13), (6, 14), (7, 15)]
  else if p = Page.va then [(0, 16), (1, 17), (2, 18), (3, 19)]
  else if p = Page.sch then [(0, 20), (1, 21), (2, 22), (3, 23)]
  else if p = Page.spf then [(0, 54)]
  else if p = Page.oq then [(0, 48), (1, 49)]
  else if p = Page.dac then [(0, 50), (1, 51), (2, 52)]
  else if p = Page.con then [(0, 32), (1, 33), (2, 34), (3, 35), (4, 36), (5, 37)]
  else if p = Page.drc then [(0, 38), (1, 39), (2, 62)]
  else if p = Page.neta then [(0, 40), (1, 42), (2, 46), (3, 47)]
  else if p = Page.neta + 1 then [(0, 41), (1, 42), (2, 46), (3, 47)]
  else if p = Page.ptp then [(0, 45)]
  else if p = Page.strm then [(0, 43), (1, 44)]
  else if p = Page.pci then [(0, 56)]
  else if p = Page.hsp then [(0, 57)]
  else if p = Page.tdm then [(0, 53)]
  else if 0x20 ≤ p ∧ p < 0x42 then [(0, 24), (1, 25), (2, 26), (4, 28), (5, 29), (6, 30), (7, 31)]
  else []

/-- The mask of a page's interrupt bits. -/
def irqMaskOfPage (p : Nat) : Nat := (irqBitsOfPage p).foldl (fun a x => a + 2 ^ x.1) 0

/-- The common header of a page (R422), as rows. -/
def headerRows (p : Nat) : List RegRow :=
  let b := 0x1000 * p
  [⟨b, 1, 0, 0, 0, 0, 0, 0, 0, false⟩,
   ⟨b + 4, 1, 0, 0x1, 0, 0x4, 0x2, 0, 1, false⟩,
   ⟨b + 8, 1, 0, 0, 0, 0, 0, 0, 0, false⟩,
   ⟨b + 0xC, 1, 0, 0, 0xFFFFFFFF, 0, 0, 0xFFFFFFFF, 0, false⟩,
   ⟨b + 0x10, 1, 0, irqMaskOfPage p, 0, 0, 0, 0, 0, false⟩,
   ⟨b + 0x14, 1, 0, 0, 0xFFFFFFFF, 0, 0, 0xFFFFFFFF, 0, false⟩,
   ⟨b + 0x18, 1, 0, 0, 0, 0, 0, 0xFFFFFFFF, 0, false⟩,
   ⟨b + 0x1C, 1, 0, 0xFF00FF, 0, 0, 0x80000000, 0, 0xFF0000, false⟩]

/-- The MSI-X table: 64 vectors of address low, address high, data and control. Its layout and its reset value, every vector
masked, are the PCIe specification's (PRESUMED, log entry 5). -/
def msixRow (off : Nat) : RegRow :=
  match (off / 4) % 4 with
  | 0 => ⟨off, 1, 0, 0xFFFFFFFC, 0, 0, 0, 0, 0, true⟩
  | 3 => ⟨off, 1, 0, 0x1, 0, 0, 0, 0, 1, true⟩
  | _ => ⟨off, 1, 0, 0xFFFFFFFF, 0, 0, 0, 0, 0, true⟩

/-- Whether a row covers a BAR0 offset. -/
def RegRow.covers (r : RegRow) (off : Nat) : Bool :=
  decide (r.base ≤ off) &&
    (decide (off = r.base) ||
      (decide (r.stride ≠ 0) && decide ((off - r.base) % r.stride = 0) && decide ((off - r.base) / r.stride < r.count)))

/-- The row of a register, or none where the offset is reserved (R5). Queues 5 to 7 do not exist. -/
def rowOf (off : Nat) : Option RegRow :=
  let p := off / 0x1000
  let o := off % 0x1000
  if off % 4 ≠ 0 ∨ pageExists p = false then none
  else if o < 0x40 then (headerRows p).find? (fun r => r.covers off)
  else if p = Page.pci ∧ 0x800 ≤ o ∧ o < 0xC00 then some (msixRow off)
  else if p = Page.pci ∧ 0xC00 ≤ o ∧ o < 0xC08 then some ⟨off, 1, 0, 0, 0, 0, 0, 0, 0, false⟩
  else if p = Page.oq ∧ (o / 4) % 64 ∈ [5, 6, 7] ∧ 0x100 ≤ o ∧ o < 0x300 then none
  else (regRowsOfPage p).find? (fun r => r.covers off)

/-- The reset value of a register (R427 and the Reset column of its page's table). -/
def regReset (off : Nat) : Word :=
  let p := off / 0x1000
  let o := off % 0x1000
  match rowOf off with
  | none => 0
  | some r =>
    if o = 0 then
      if 0x20 ≤ p then BitVec.ofNat 32 (2 ^ 24 * (p - 0x20) + 2 ^ 16 * 34 + 2 ^ 8 + 0x20)
      else BitVec.ofNat 32 (2 ^ 16 + 2 ^ 8 + p)
    else if p = Page.ing ∧ 0x400 ≤ o then BitVec.ofNat 32 (0x80 + ((o - 0x400) / 4) % 64)
    else if p = Page.dac ∧ 0x100 ≤ o ∧ o % 0x20 = 0 then
      BitVec.ofNat 32 (0x100 * (((o - 0x100) / 0x20) ^^^ 1))
    else if p = Page.con ∧ 0x300 ≤ o then
      let b := (o - 0x300) / 4
      if b < 72 then BitVec.ofNat 32 (2 ^ 24 * (b / 9) + 2 ^ 16 * (b % 9)) else BitVec.ofNat 32 (2 ^ 29 + 2 ^ 24 * 0xF)
    else if off = Reg.GLB_REV then BitVec.ofNat 32 (Config.glbRev.toNat)
    else if off = Reg.GLB_UID_LO then BitVec.ofNat 32 Config.glbUid.toNat
    else if off = Reg.GLB_UID_HI then BitVec.ofNat 32 (Config.glbUid.toNat / 2 ^ 32)
    else if off = Reg.PWR_RST_CAUSE then 1
    else BitVec.ofNat 32 r.reset

/-- The register file: what is not listed holds its reset value. -/
abbrev Regs := Map Word

/-- One register of the file. -/
def Regs.read (r : Regs) (off : Nat) : Word := Sparse.get regReset r off

/-- The file with one register replaced. -/
def Regs.write (r : Regs) (off : Nat) (v : Word) : Regs := Sparse.put regReset r off v

end Sys2Proof.Machine
end

