-- ==== Sys2Proof/Machine/State/Audio.lean ====
section
/-! DEFINITION. The state of the Mix Engine, the Decimation Engine, the Output Router and the output queues beyond their registers and
Concourse areas (spec/11). -/

namespace Sys2Proof.Machine

/-- The send snapshot of one send (R245): the channel it reads, its bus, and its gain ramp. -/
structure SendSnap where
  ch : Nat
  bus : Nat
  value : Int
  step : Int
deriving DecidableEq, Repr

/-- What one block of a slot or bus program mixes with: its sends, taken at the original binding, and its fade (R84, R245, R246). -/
structure MixSnap where
  index : Nat              -- slot, or 1088 + bus program
  bseq : Nat
  nch : Nat                -- channels of the result
  sends : List SendSnap
  fadeBlk : Option Nat     -- index of the block within its fade
  fadeLen : Nat            -- blocks of the fade
  cls : Cls
deriving DecidableEq, Repr

/-- One accepted or concealed contribution to a block, until the block's sums close (R246, R247): its samples by channel, and where each
factor that applies starts: its block within a fade and the fade's length, and the first sample's number j within a concealment
(R140) or a resumption (R141). -/
structure MixTerm where
  index : Nat
  bseq : Nat
  bus : Bool               -- of a bus task
  sends : List SendSnap
  data : List (List Word)
  fade : Option (Nat × Nat)
  conceal : Option Nat
  resume : Option Nat
deriving DecidableEq, Repr

/-- The Mix Engine. Sums are kept by bus and rendered sample, key bus × 128 + j. -/
structure Mixer where
  snaps : List MixSnap
  terms : List MixTerm
  voiceSum : Map Int               -- the voice sums last closed, in units of 2^-39
  voiceBlock : Option Nat          -- their block
  final : Map Word                 -- rounded final sums of the block last closed
  finalBlock : Option Nat
  smapCur : Nat
  nchApplied : Map Word            -- MIX_PARTn_CFG at n and MIX_BUSk_CFG at 64 + k as applied (R242)
  lastGain : Map (Option Word)     -- per bus program and send: G(n - 1) of R245; key program × 16 + send
  fadeHold : Map (Option Int)      -- per slot and send: gain of the fade's first block (R246); key index × 16 + send
  resumeJ : Map (Option Nat)       -- per index: rendered samples since the first resumed one (R141)
  concealed : Map Nat              -- per index: rendered samples concealed in the present run (R140)
  committed : List Nat             -- indices with a committed block in their output buffer
  stopFrom : Option Nat            -- the page is disabled: the block that fades out (R266)
deriving DecidableEq, Repr

/-- One decimation channel: its last 64 input samples, newest first. -/
structure FirState where
  x : List Word
deriving DecidableEq, Repr

/-- A cross-fade between coefficient sets: the output sample at which it starts, and the set faded from (R253). -/
structure CrossFade where
  start : Nat
  old : Nat
deriving DecidableEq, Repr

/-- One monitor channel (R256, R257): integrators, comb delay lines (newest first), inputs since the last output, settling outputs left. -/
structure MonitorChan where
  i1 : Word
  i2 : Word
  i3 : Word
  d1 : List Word
  d2 : List Word
  d3 : List Word
  phase : Nat
  settling : Nat
  outputs : Nat            -- outputs since the last change of length
deriving DecidableEq, Repr

/-- The Decimation Engine. -/
structure Decimator where
  coef : Map (Option (BitVec 24))  -- h[TAP] as written, key 64 × set + tap; what is not listed is the set of reset (R252)
  busSet : Nat                     -- sets in use
  capSet : Nat
  busXf : Option CrossFade
  capXf : Option CrossFade
  busHist : Map FirState           -- per bus
  capHist : Map FirState           -- per capture channel
  dcb : Map (BitVec 64)            -- DC blocker states per bus
  dcbEn : Map Word                 -- enables and corner as applied (R254)
  outBlock : Option Nat            -- block whose outputs are held
  out : Map Word                   -- outputs held, key bus × 64 + m
  capSeen : List (Nat × Nat)       -- capture channel and output sample number of every sample delivered and not closed
  capHalf : Map (Option Word)      -- first of the two samples of a RATE2X source (R255)
  mon : Map MonitorChan
  monLen : Nat                     -- DEC_MON_CFG.LEN as in force
  stopBus : Option Nat             -- the page is disabled: the sample from which bus outputs fade out (R267)
  stopCap : Option Nat             -- and that from which capture outputs do
deriving DecidableEq, Repr

/-- One output queue (R261 to R265). -/
structure Queue where
  active : Bool                    -- EN has taken effect at a block boundary
  primed : Bool
  arriving : List (Nat × List (List Word)) -- blocks that the router has written and that are not complete in the MEDIA domain
  blocks : List (Nat × List (List Word))   -- present blocks, oldest first: number and samples by channel
  cur : Option (Nat × List (List Word))    -- the block being released
  last : List (List Word)          -- p: the last block released in full
  fade : Option Nat                -- next sample i of a fade-out
  rise : Option Nat                -- next sample j of a recovery
  stopping : Bool                  -- EN was cleared (R265)
  draining : Bool                  -- media time stops (R28, R265)
  under : Bool                     -- no block is being released and the next one is a recovery (R263)
  outV : List Word                 -- the samples handed out last, by channel
  outValid : Bool
deriving DecidableEq, Repr

/-- The Output Router. -/
structure Router where
  mapCur : Nat
  stopping : Bool                  -- its page was disabled: one block more (R268)
deriving DecidableEq, Repr

/-- The Mix Engine at reset. -/
def Mixer.reset : Mixer :=
  { snaps := [], terms := [], voiceSum := [], voiceBlock := none, final := [], finalBlock := none, smapCur := 0, nchApplied := [],
    lastGain := [], fadeHold := [], resumeJ := [], concealed := [], committed := [], stopFrom := none }

/-- A filter history of zeros. -/
def FirState.reset : FirState := { x := [] }

/-- A monitor channel at reset. -/
def MonitorChan.reset : MonitorChan :=
  { i1 := 0, i2 := 0, i3 := 0, d1 := [], d2 := [], d3 := [], phase := 0, settling := 0, outputs := 0 }

/-- The Decimation Engine at reset. -/
def Decimator.reset : Decimator :=
  { coef := [], busSet := 0, capSet := 0, busXf := none, capXf := none, busHist := [], capHist := [], dcb := [], dcbEn := [],
    outBlock := none, out := [], capSeen := [], capHalf := [], mon := [], monLen := 7, stopBus := none, stopCap := none }

/-- A queue at reset. -/
def Queue.reset : Queue :=
  { active := false, primed := false, arriving := [], blocks := [], cur := none, last := [], fade := none, rise := none,
    stopping := false, draining := false, under := false, outV := [], outValid := false }

/-- The router at reset. -/
def Router.reset : Router := { mapCur := 0, stopping := false }

end Sys2Proof.Machine
end

