-- ==== Sys2Proof/Machine/State/Clock.lean ====
section
/-! DEFINITION. The state of media time and the media PLL beyond the CLK registers (spec/02). -/

namespace Sys2Proof.Machine

/-- A stop of media time in progress (R28). -/
inductive StopPhase where
  | none       -- media time is not stopping
  | draining   -- RUN was cleared and the queues drain
deriving DecidableEq, Repr

/-- Media time, its PLL, and the marks of the block pipeline's steps (R12 to R15): each mark is one more than the period
for which the step was last taken, 0 for none since the counter started. -/
structure Clock where
  mt : BitVec 64                   -- MT (R19); bits [63:8] count samples
  startPeriod : Nat                -- the period at which the counter last started (R29)
  stop : StopPhase                 -- the stop of R28
  rerun : Bool                     -- RUN set again before a stop completed (R28)
  gptpQualified : Bool             -- R30
  wclkQualified : Bool             -- R30
  nextSource : Option ClockSource  -- the source selected at the next block boundary (R31, R32)
  lockedSinceRun : Bool            -- a source has been LOCKED since RUN was last set (R31)
  heldAdj : Word                   -- the correction of the last LOCKED interval since RUN was set (R31)
  epochOfs : BitVec 64             -- CLK_EPOCH_OFS as applied at the last RUN (R21)
  famRelock : Bool                 -- the media PLL is relocking (R27, R356)
  boundaryDone : Nat
  expressDone : Nat
  deadlineDone : Nat
  voiceSumDone : Nat
  busDeadlineDone : Nat
  finalSumDone : Nat
  frameDone : Nat
deriving DecidableEq, Repr

/-- Media time at reset: stopped at 0. -/
def Clock.reset : Clock :=
  { mt := 0, startPeriod := 0, stop := .none, rerun := false, gptpQualified := false, wclkQualified := false,
    nextSource := none, lockedSinceRun := false, heldAdj := 0, epochOfs := 0, famRelock := false, boundaryDone := 0, expressDone := 0,
    deadlineDone := 0, voiceSumDone := 0, busDeadlineDone := 0, finalSumDone := 0, frameDone := 0 }

end Sys2Proof.Machine
end

