-- ==== Sys2Proof/Machine/State/Concourse.lean ====
section
/-! DEFINITION. The state of the Concourse and of Sample Memory beyond their data, the bank map (CON_BANKb) and their registers
(spec/13). -/

namespace Sys2Proof.Machine

/-- The Concourse controller. Words and rows are numbered by their Concourse address: word a / 16, and row key group × 32768 + row. -/
structure ConCtl where
  bad : List Nat             -- words that neither SECDED nor parity can give back, until written whole (R297)
  badParity : List Nat       -- rows whose parity word is uncorrectable (R297)
  writeBack : List Nat       -- corrected words that wait for their bank's next idle cycle (R295)
  attrs : Map Word           -- CON_ATTRi as in force (R302)
  btWait : Nat               -- the block period before which no test starts (R306)
  btStart : Nat              -- the block period in which the running test started
  btBorrow : Option (Nat × Nat)   -- the bank and region under test, from save to restore (R305)
  rbBank : Nat               -- the bank being rebuilt (R309)
  rbPoison : List Nat        -- words whose rebuilt copy is poisoned (R311)
  rbParity : List Nat        -- rows whose rebuilt parity word is poisoned
  rebuildQueue : List Nat    -- banks whose automatic rebuild waits (R375)
deriving DecidableEq, Repr

/-- Sample Memory and its controller. -/
structure Dram where
  data : Map Byte            -- bytes of the data range that are not 0
  bad : List Nat             -- lines that are uncorrectable (R314)
  track : List (Nat × Nat × Nat)   -- pages, their corrected lines, and the patrol pass of the last one (R319), oldest first
  pass : Nat                 -- patrol passes begun
  hours : Nat                -- DRC_SCRUB_CFG.HOURS as applied to this pass (R318)
  patrol : Nat               -- the patrol's next line while a full pass runs (R318)
  replaced : Map Nat         -- page to one more than its replacement unit
  badUnits : List Nat
  retiring : List (Nat × Nat)      -- pages being copied and their units (R319)
deriving DecidableEq, Repr

/-- The Concourse controller at reset: no error, the first test starts with the first block period. -/
def ConCtl.reset : ConCtl :=
  { bad := [], badParity := [], writeBack := [], attrs := [], btWait := 0, btStart := 0, btBorrow := none, rbBank := 0,
    rbPoison := [], rbParity := [], rebuildQueue := [] }

/-- Sample Memory at reset: what no one has written reads 0. -/
def Dram.reset : Dram :=
  { data := [], bad := [], track := [], pass := 0, hours := 24, patrol := 0, replaced := [], badUnits := [],
    retiring := [] }

end Sys2Proof.Machine
end

