-- ==== Sys2Proof/Machine/State/Core.lean ====
section
/-! DEFINITION. The state of the voice cores and of their Sidings (spec/07 to spec/10, R133). -/

namespace Sys2Proof.Machine

/-- A 16 KiB frame of X or Y data memory, by word index. A word that is not listed is undefined: a free value of draw block
`gen`, or 0 while `gen` is 0, before the frame was first staged. -/
structure Frame where
  words : Map (Option Word)
  gen : Nat
deriving DecidableEq, Repr

/-- The snapshot of one stream that staging takes (R230, R233). -/
structure StreamSnap where
  active : Bool
  stereo : Bool
  ended : Bool
  underrun : Bool
  fault : Bool
  clamped : Bool
  obj : Nat
  cons : Nat
  filled : Nat
  fin : Nat             -- END
  ring : Nat
deriving DecidableEq, Repr

/-- A Siding slot or the front frames: X and Y data, a ramp bank with its positions, the stream snapshots, and the task they hold.
`frozen` holds from the task's YIELD until the state mover has copied the frames (R162). -/
structure TaskBuf where
  x : Frame
  y : Frame
  ramp : Map Word
  pos : Map Nat
  snap0 : StreamSnap
  snap1 : StreamSnap
  under0 : Bool
  under1 : Bool
  task : Option Nat
  frozen : Bool
deriving DecidableEq, Repr

/-- What a register write in flight does when it lands (R186). -/
inductive WriteOp where
  | reg (code : Nat) (v : Word)
  | acc (n : Nat) (v : BitVec 72) (clear : Bool) (ovf : Option Bool)   -- an M-slot result, its overflow direction (R175)
  | accPart (n : Nat) (part : AccPart) (v : Word)                      -- an explicit load (R176)
  | clrav (mask : Nat)
  | cr (k : Nat) (v : Word)
deriving DecidableEq, Repr

/-- A register write in flight: the cycle from which bundles read it, and whether Voice mode issued it. -/
structure InFlight where
  due : Nat
  voice : Bool
  op : WriteOp
deriving DecidableEq, Repr

/-- An active LOOP.R: its level, rotation step, stages, iterations and the iteration in progress (R194, R195). -/
structure Rotation where
  level : Nat
  step : Nat
  stages : Nat
  total : Nat
  iter : Nat
deriving DecidableEq, Repr

/-- Delay slots of a branch: bundles left, and the target when it is taken (R190). -/
structure Delay where
  left : Nat
  target : Option Nat
deriving DecidableEq, Repr

/-- A TAKE that waits for a task (R160): its destination, and whether it was counted as a Siding miss at its issue (R134). -/
structure Taking where
  d : Nat
  miss : Bool
deriving DecidableEq, Repr

/-- A voice core. `regs` holds G0 to G31 at 0, P at 32, M at 40, L at 48, B at 56, F at 64 and the words of the phase accumulators
from 72; `crs` the control registers by number (R158). -/
structure Core where
  svc : Nat                        -- VC_STAT.SVC
  halted : Bool
  held : Bool                      -- held in reset: its page is disabled (R355)
  prog : Map (BitVec 64)           -- program memory
  pc : Nat
  delay : Option Delay
  rot : Option Rotation
  cycle : Nat                      -- CORE cycles since the release of the core's reset; CCYC is its low 64 bits
  regs : Map (Option Word)
  accs : Map (Option (BitVec 72))
  soft : List Nat                  -- registers last written in Voice mode, accumulators from 256 (R159)
  gen : Nat                        -- draw block of the registers that are undefined, 0 before the first task
  inflight : List InFlight         -- in issue order
  crs : Map Word
  ccycLatch : Word                 -- CCYC [63:32] as latched (R395)
  pcnt : Map Nat                   -- PCNT0 to PCNT5
  pcntLatch : Map Nat              -- bits [47:32] as latched by the last MFC of each _LO
  pcntStage : Map Nat              -- staging value of each _HI
  k0 : Word                        -- noise generator (R215, R225)
  k1 : Word
  nctr : Word
  events : List Nat                -- pending core event codes (R164)
  frontA : Bool                    -- whether `bufA` holds the front frames
  bufA : TaskBuf
  bufB : TaskBuf
  buf1 : TaskBuf                   -- Siding slot 1
  taking : Option Taking
  task : Option Nat                -- the dispatched task
  tcyc : Nat                       -- R142
  aborted : Option Nat             -- cycles since ABORT, for the allowance of 1,024 (R142)
  memUe : Option Nat               -- cycles since an uncorrectable error of its own memories (R360)
  recalled : Option Nat            -- cycles since RECALL was raised, for its allowance (R168)
  ceCount : Nat                    -- CORE_MEM_CE count since entering service (R368)
  tally : List Nat                 -- Retired, Wasted, Front and Back slots of the dispatched task (R384)
  judged : Bool                    -- its slots are Wasted as they occur (R384)
  lastPc : Nat
  retire : Bool                    -- RECALL is raised at the next block boundary (R368, R373)
  copyFrom : Option Nat            -- a spare being loaded replaces this core (R366)
  fresh : Bool                     -- the bundle after a TAKE: its accesses to the front frames are not yet allowed (R160)
deriving DecidableEq, Repr

/-- No stream. -/
def StreamSnap.none : StreamSnap :=
  { active := false, stereo := false, ended := false, underrun := false, fault := false, clamped := false, obj := 0, cons := 0,
    filled := 0, fin := 0, ring := 0 }

/-- A frame at reset. -/
def Frame.reset : Frame := { words := [], gen := 0 }

/-- An empty task buffer. -/
def TaskBuf.reset : TaskBuf :=
  { x := Frame.reset, y := Frame.reset, ramp := [], pos := [], snap0 := StreamSnap.none, snap1 := StreamSnap.none, under0 := false,
    under1 := false, task := none, frozen := false }

/-- A core at reset: out of service. -/
def Core.reset : Core :=
  { svc := 0, halted := false, held := false, prog := [], pc := 0, delay := none, rot := none, cycle := 0, regs := [], accs := [],
    soft := [], gen := 0, inflight := [], crs := [], ccycLatch := 0, pcnt := [], pcntLatch := [], pcntStage := [], k0 := 0, k1 := 0,
    nctr := 0, events := [], frontA := true, bufA := TaskBuf.reset, bufB := TaskBuf.reset, buf1 := TaskBuf.reset, taking := none,
    task := none, tcyc := 0, aborted := none, memUe := none, recalled := none, ceCount := 0, tally := [0, 0, 0, 0], judged := false,
    lastPc := 0, retire := false, copyFrom := none, fresh := false }

end Sys2Proof.Machine
end

