-- ==== Sys2Proof/Machine/State/Dac.lean ====
section
/-! DEFINITION. The state of the analog outputs beyond the DAC registers (spec/12). -/

namespace Sys2Proof.Machine

/-- What a channel does apart from a switch sequence, which `DacChan.seq` holds (R274). -/
inductive DacState where
  | clamp | clear | run | fault
deriving DecidableEq, Repr

/-- A switch sequence (R280): its next sample, the range and filter mode it goes to, whether it is a filter sequence, and
whether the change of sample 64 has been made. -/
structure SwitchSeq where
  pos : Nat
  range : Bool
  filt : Bool
  byFilter : Bool
  changed : Bool
deriving DecidableEq, Repr

/-- The fade of a test tone (R282): silent, fading in or out with its next sample, or full. -/
inductive ToneFade where
  | off
  | rise (k : Nat)
  | full
  | fall (k : Nat)
deriving DecidableEq, Repr

/-- A mirroring partner (R286, R287): the channel whose data it plays, the next sample of its cross-fade, and whether it fades back. -/
structure Mirror where
  source : Nat
  k : Nat
  back : Bool
deriving DecidableEq, Repr

/-- One DAC channel. -/
structure DacChan where
  st : DacState
  starting : Nat               -- output samples in CLAMP since the conditions of R275 hold
  ramp : Option Nat            -- next sample of a clear ramp; 64 when it has been played
  rampLevel : Option Int       -- the level it starts from, where that is not the filter output (R289)
  toClamp : Bool               -- the ramp ends in CLAMP (R275, R289)
  seq : Option SwitchSeq
  ignore : Nat                 -- monitor outputs that a switch sequence still ignores
  mask : Bool                  -- MASK as applied (R277)
  clr : Int                    -- the clear code as applied, at the modulator input
  range : Bool                 -- the range in force
  filt : Bool                  -- the filter mode in force, true for minimum phase
  hist : List Word             -- the filter's last 64 inputs, newest first
  tone : ToneFade
  phase : BitVec 32            -- the test tone's phase
  toneReq : Option Bool        -- EN was written to this since the last output sample
  mirror : Option Mirror
  action : Bool                -- a read-back fault whose FAULT_ACT has not been applied yet
  faultAt : Option Nat         -- the number of the monitor output of the last read-back fault
  leave : Bool                 -- RB_FAULT was cleared: FAULT ends at the next output sample
  uOld : List Int              -- modulator inputs of the output sample before, by modulator cycle
  u : List Int                 -- and of the present one
  taken : Nat                  -- monitor samples since the present output sample began
  ref : MonitorChan            -- the reference's moving averages (R284)
deriving DecidableEq, Repr

/-- The analog outputs: the eight channels, and the next sample of the ramp that follows a forced clear (R279). -/
structure Dac where
  chans : Map DacChan
  release : Option Nat
deriving DecidableEq, Repr

/-- A channel at reset: clamped at the clear code 0, minimum phase. -/
def DacChan.reset : DacChan :=
  { st := .clamp, starting := 0, ramp := none, rampLevel := none, toClamp := false, seq := none, ignore := 0, mask := false, clr := 0,
    range := false, filt := true, hist := [], tone := .off, phase := 0, toneReq := none, mirror := none, action := false, faultAt := none,
    leave := false, uOld := [], u := [], taken := 0, ref := MonitorChan.reset }

/-- The analog outputs at reset. -/
def Dac.reset : Dac := { chans := [], release := none }

end Sys2Proof.Machine
end

