-- ==== Sys2Proof/Machine/State/Dump.lean ====
section
/-! DEFINITION. The state of the PMU's dumps beyond the PMU registers (spec/16, R386 to R390). -/

namespace Sys2Proof.Machine

/-- A snapshot that is being written: the MT of its boundary, its period, what the header shows, and the 512 counters. -/
structure Snapshot where
  mt : BitVec 64
  period : Nat
  interval : Nat
  inService : Nat
  mediaCfg : Word
  counters : Map Nat
deriving DecidableEq, Repr

/-- The dumps: the snapshot being written, RSEQ of the next record, the dumps skipped since the last, whether no record has been written
since DUMP_EN was set, and one more than the last period judged. -/
structure Dump where
  snap : Option Snapshot
  rseq : Nat
  skipped : Nat
  first : Bool
  done : Nat
deriving DecidableEq, Repr

/-- No dump has been due. -/
def Dump.reset : Dump := { snap := none, rseq := 0, skipped := 0, first := false, done := 0 }

end Sys2Proof.Machine
end

