-- ==== Sys2Proof/Machine/State/Ingress.lean ====
section
/-! DEFINITION. The state of Event Ingress beyond the ING registers (spec/03). -/

namespace Sys2Proof.Machine

/-- A Timetable entry (R55): a UMP with its stamp, class and lane. `arr` is the arrival stamp. `seq` numbers the arrivals of all
sources in their order, and `idx` the entries and fences of one source in theirs (R37, R61). -/
structure TtEntry where
  ump : List Word       -- as translated (R48)
  src : Nat             -- source number (R41)
  arr : Nat             -- arrival stamp, an MT value
  seq : Nat
  idx : Nat
  stamp : Option Nat    -- MT of the stamp; none is "now" (R52)
  cls : Cls
  part : Nat            -- the Part the message is mapped to (R49)
  late : Bool           -- counted late at entry (R53)
  notify : Bool
  tag : Word
  hostStamped : Bool    -- the stamp came from a ring or FIFO entry
deriving DecidableEq, Repr

/-- An arrival: the producer index it reached (rings only), its stamp and its number. -/
structure Arrival where
  upTo : Nat
  arr : Nat
  seq : Nat
deriving DecidableEq, Repr

/-- A fence (R61 to R63, R448): waiting to be placed, in the fence list, or completed with a floor that still binds. -/
structure FenceRec where
  ident : Nat
  all : Bool            -- SCOPE 1
  src : Nat             -- its source, or GLB_FENCE.SRC
  glb : Bool            -- from GLB_FENCE
  arr : Nat
  seq : Nat
  idx : Nat
  notify : Bool
  tag : Word
  floor : Nat           -- the latest sample at which a covered event took effect, of those released since it arrived
deriving DecidableEq, Repr

/-- An event that has been released (R59, R61): its lane, its source, its place among the arrivals, and the sample on which it takes
effect. -/
structure Effect where
  lane : Nat
  src : Nat
  seq : Nat
  idx : Nat
  sample : Nat
deriving DecidableEq, Repr

/-- One session's window (R46). `acc` lists the accepted numbers still in the window with the paths that delivered them
(bit 0 NETA or the unpaired path, bit 1 NETB); `moved` is how far h has moved since the first command, up to 256. -/
structure SessWin where
  installed : Bool
  h : Option Nat
  acc : List (Nat × Nat)
  moved : Nat
deriving DecidableEq, Repr

/-- A released event on its way to the allocator and the Parameter Store: its entry and the sample on which it takes effect; `split` when
it was moved to that sample because its split records did not fit (R127), `begun` when what it does at once has been done (R74). -/
structure Released where
  entry : TtEntry
  sample : Nat
  split : Bool
  begun : Bool
deriving DecidableEq, Repr

/-- Event Ingress. -/
structure Ingress where
  tt : List TtEntry                    -- the Timetable, in order of entry (R55)
  seq : Nat                            -- arrivals so far
  idx : Nat                            -- entries and fences taken so far
  waiting : List FenceRec              -- fences that have arrived and are not placed (R62)
  fences : List FenceRec               -- the fence list (R448)
  floors : List FenceRec               -- completed fences whose floor still binds (R61)
  effects : List Effect                -- released events whose samples can still bind later ones (R59, R61)
  expBlock : Nat                       -- the block whose Express releases are counted (R58)
  expCount : Nat
  doorbells : Map (List Arrival)       -- per ring: PI values written and their arrivals, oldest first (R42)
  spi : List (List Byte × Arrival)     -- the SPI FIFO: entries and their arrivals, oldest first (R45)
  windows : Map SessWin                -- per source (R46)
  mtStamp : Map Nat                    -- per source: a pending MT Stamp's value plus 1, 0 none (R51)
  held : List (List Byte)              -- notifications held while the ring is full (R65)
  nseq : Nat                           -- NSEQ of the next notification (R64)
  stopPeriod : Option Nat              -- the period in which ingress was stopped (R66)
deriving DecidableEq, Repr

/-- A window that is not installed. -/
def SessWin.none : SessWin := { installed := false, h := Option.none, acc := [], moved := 0 }

/-- Ingress at reset: nothing held. -/
def Ingress.reset : Ingress :=
  { tt := [], seq := 0, idx := 0, waiting := [], fences := [], floors := [], effects := [], expBlock := 0, expCount := 0,
    doorbells := [], spi := [], windows := [], mtStamp := [], held := [], nseq := 0, stopPeriod := none }

end Sys2Proof.Machine
end

