-- ==== Sys2Proof/Machine/State/Net.lean ====
section
/-! DEFINITION. The state of the network, host and TDM ports beyond their registers (spec/14). -/

namespace Sys2Proof.Machine

/-- A stream packet that some path has delivered and whose deadline has not come: its sequence number, the sample of its first sample, and
the paths (bit 0 the stream's own or NETA, bit 1 its NETB pair). -/
structure RxPacket where
  seq : Nat
  start : Nat
  paths : Nat
deriving DecidableEq, Repr

/-- A receive stream, or a pair under its NETA stream (R332, R333). -/
structure RxStream where
  highest : Option Nat             -- the highest sequence number accepted
  packets : List RxPacket
  next : Option (Nat × Nat)        -- the packet judged next: sequence number and first sample
deriving DecidableEq, Repr

/-- A transmit stream (R331): the packet being filled, from its first sample on, and those that wait for their launch, oldest first. -/
structure TxStream where
  start : Option Nat
  samples : List (List Word)
  ready : List (Nat × List (List Word))
  seq : Nat                        -- sequence number of the next packet
deriving DecidableEq, Repr

/-- A host output stream (R342): its enable as applied, and the samples of the present release period with their VALID marks. -/
structure HostOut where
  on : Bool
  samples : List (List Word × Bool)
deriving DecidableEq, Repr

/-- A TDM port (R349 to R351): its enable as applied, the frames a slave has seen since it began to measure, the phase it has measured in
1/256 sample, the sample of its last frame, and the last samples of its queue with their numbers, newest first. -/
structure TdmPort where
  on : Bool
  frames : Nat
  phase : Nat
  last : Option Nat
  recent : List (Nat × List Word)
deriving DecidableEq, Repr

/-- The host SPI slave (R345, R346). -/
structure SpiSlave where
  busy : Bool                      -- a WRITE or RDREQ is in progress
  words : List Word                -- the words RDREQ latched
  refused : Bool
  frameErr : Bool
deriving DecidableEq, Repr

/-- The ports. -/
structure Net where
  rx : Map RxStream
  tx : Map TxStream
  cleared : List Nat               -- sessions whose EN was cleared since their address was written (R335)
  standby : Bool                   -- the port that is no active slave is a slave of the same grandmaster (R327)
  hso : Map HostOut
  tdm : Map TdmPort
  spi : SpiSlave
deriving DecidableEq, Repr

/-- A receive stream that has received nothing. -/
def RxStream.reset : RxStream := { highest := none, packets := [], next := none }

/-- A transmit stream that has taken no sample. -/
def TxStream.reset : TxStream := { start := none, samples := [], ready := [], seq := 0 }

/-- A host output stream at reset. -/
def HostOut.reset : HostOut := { on := false, samples := [] }

/-- A TDM port at reset. -/
def TdmPort.reset : TdmPort := { on := false, frames := 0, phase := 0, last := none, recent := [] }

/-- The SPI slave at reset. -/
def SpiSlave.reset : SpiSlave := { busy := false, words := [], refused := false, frameErr := false }

/-- The ports at reset. -/
def Net.reset : Net :=
  { rx := [], tx := [], cleared := [], standby := false, hso := [], tdm := [], spi := SpiSlave.reset }

end Sys2Proof.Machine
end

