-- ==== Sys2Proof/Machine/State/Outside.lean ====
section
/-! DEFINITION. What the block has sent outside: interrupt messages, host reads' data, frames, samples on its pins. It is the
model's own record (log entry 4); no behaviour reads it. -/

namespace Sys2Proof.Machine

/-- One thing that left the block. -/
inductive Sent where
  | msix (vector : Nat)                      -- an MSI-X message (R378)
  | readData (path : Path) (words : List Word)   -- the data of a host read
  | completionUr                             -- a PCIe request completed as Unsupported Request
  | bytes (data : List Byte)                 -- the data of a BAR2 or BAR4 read
  | poisoned                                 -- a PCIe read completed as a poisoned TLP (R297, R314)
  | frame (port : Nat) (data : List Byte)    -- an Ethernet frame (R322)
  | packet (port stream fmt : Nat) (seq timestamp : Nat) (payload : List Byte)   -- a stream packet (R331)
  | ptpFrame (port kind : Nat)               -- a gPTP message: 0 Sync and Follow_Up, 1 Pdelay_Req
  | spi (data : List Byte)                   -- bytes on host SPI's data line (R345)
  | tdm (port : Nat) (samples : List Word)   -- one TDM frame (R349)
deriving DecidableEq, Repr

/-- The record of what was sent, newest first, and the bytes written to host memory and to the flash. -/
structure Outside where
  sent : List Sent
  hostMem : Map Byte
  flash : Map Byte       -- bytes that CFG_COMMIT has programmed or erased, by flash address plus 2^32 per image (R411)
deriving DecidableEq, Repr

/-- Nothing sent. -/
def Outside.reset : Outside := { sent := [], hostMem := [], flash := [] }

end Sys2Proof.Machine
end

