-- ==== Sys2Proof/Machine/State/VoicePool.lean ====
section
/-! DEFINITION. The state of the voice pool, the Parameter Store and the Modulation Matrix beyond their registers and their
Concourse areas (spec/04, spec/05). -/

namespace Sys2Proof.Machine

/-- The states of a voice or shadow slot (R69), coded as VA_VOICE_STAT.STATE shows them. -/
inductive SlotState where
  | free | pending | active | releasing | ending | fading
deriving DecidableEq, Repr

/-- A note: its per-note lane and what a note-on carries (R59, R102). -/
structure Note where
  src : Nat
  group : Nat
  chan : Nat
  key : Nat
  velocity : Nat        -- [15:0]
  attrType : Nat
  attrData : Nat
  tag : Word            -- TAG of its ring or FIFO entry (R43)
deriving DecidableEq, Repr

/-- A note that waits in a slot for the fade of a hard-stolen voice (R82, R86, R90). -/
structure WaitingNote where
  note : Note
  part : Nat
  block : Nat           -- n + r, at whose start it takes effect
  tmpl : Word           -- VA_PART_TMPLn as it stood when the note-on was processed (R75)
  seed : Word           -- the seed of the note (R118)
  cancelled : Bool
deriving DecidableEq, Repr

/-- One slot of the pool: 0 to 1023 voice slots, 1024 to 1087 shadow slots S0 to S63 (R69). -/
structure Slot where
  st : SlotState
  part : Nat                    -- the Part whose program it renders; for a shadow slot, of the stolen voice
  note : Note
  origin : Nat                  -- the voice slot a shadow slot's voice left (R70); its frame index for h (R118)
  firstBlock : Nat              -- block sequence number of the first block
  onSample : Nat                -- ON_SAMPLE, MT [63:8]
  offSample : Option Nat        -- OFF_SAMPLE (R104)
  offPending : Bool             -- a note-off took effect inside the first block of a PENDING voice (R87)
  sustained : Bool              -- SUSTAINED (R76)
  susPending : Bool             -- a held note-off took effect inside the first block of a PENDING voice (R76)
  keptVel : Nat                 -- the held note-off's velocity and attribute (R76)
  keptAttr : Word
  detached : Bool               -- DETACHED (R104)
  level : Nat                   -- level code of the last committed block; 255 before one (R81)
  floorRun : Nat                -- consecutive committed blocks at the floor (R95)
  lastCommit : Option Nat       -- the last committed block
  endFlag : Bool                -- its last committed block carried the end flag (R95)
  floorMet : Bool               -- the floor run has reached NBLK (R95)
  muted : Option Nat            -- aborted in this block; leaves at its deadline (R96)
  fadeFrom : Nat                -- first block of the fade (R82, R84)
  fadeLen : Nat                 -- its length in blocks; 0 outside a fade
  fadeCls : Option Cls          -- class of the fade tasks of a steal (R85)
  reason : Nat                  -- reason of the voice end to come (R70)
  leavesAt : Option Nat         -- a cancelled voice whose task was dispatched leaves at this block's deadline (R88)
  waiting : Option WaitingNote  -- the hard-steal note (R82)
  fadeOver : Bool               -- the stolen voice of a hard steal has ended early (R96)
  seed : Word                   -- the seed of the note (R118)
  epoch : Nat                   -- placement epoch (R144)
  placed : Nat                  -- placed core (R129)
deriving DecidableEq, Repr

/-- An empty note. -/
def Note.none : Note := { src := 0, group := 0, chan := 0, key := 0, velocity := 0, attrType := 0, attrData := 0, tag := 0 }

/-- A slot at reset: FREE. -/
def Slot.reset : Slot :=
  { st := .free, part := 0, note := Note.none, origin := 0, firstBlock := 0, onSample := 0, offSample := none, offPending := false,
    sustained := false, susPending := false, keptVel := 0, keptAttr := 0, detached := false, level := 255, floorRun := 0, lastCommit := none, endFlag := false,
    floorMet := false, muted := none, fadeFrom := 0, fadeLen := 0, fadeCls := Option.none, reason := 0, leavesAt := none, waiting := none,
    fadeOver := false, seed := 0, epoch := 0, placed := 0 }

/-- A frame write that waits for the deadline of its block (R107): its effect sample, a Concourse word address and the word. -/
structure SplitWrite where
  block : Nat
  sample : Nat
  addr : Nat
  value : Word
deriving DecidableEq, Repr

/-- The Voice Allocator and the Parameter Store. -/
structure Pool where
  slots : Map Slot                  -- 1088 slots
  applied : Map Word                -- the VA page as the last boundary step applied it (R67, R74)
  cursor : Map Nat                  -- per Part, one more than the round-robin cursor of R78, modulo 1024
  statSnap : Map Word               -- VA_VOICE_STAT of each slot at the end of the last step (R99)
  disabled : Bool                   -- the VA page is draining and the drain step has run (R98)
  hostWrites : List (Word × Word)   -- PS write queue: PS_WR_TGT and data, oldest first (R109)
  splits : List SplitWrite          -- writes that wait for their block's deadline, in order (R107)
  seedInForce : Word                -- MM_SEED as in force (R118)
  fb : Map Word                     -- committed FB0 to FB7: key slot * 8 + i (R112)
  cancels : List (Nat × Nat)        -- part resets, chokes and CC 123 processed for this block: Part and sample (R89)
  withholds : List (Nat × Nat)      -- lanes withheld for a hard-steal note, and the block at whose start that ends (R86)
  nextBlock : List Released         -- events moved to the start of the next block (R108, R127)
deriving DecidableEq, Repr

/-- An envelope generator: its segment as MM_VOICE_EG codes it (1 delay to 7 done), the samples elapsed in it, and L_r (R120). -/
structure Envelope where
  seg : Nat
  elapsed : Nat
  level : Nat
deriving DecidableEq, Repr

/-- The Modulation Matrix: targets last written, per slot (128 words: key slot * 128 + k), for the ramps of R114. -/
structure ModMatrix where
  target : Map Word
  envs : Map Envelope               -- key slot * 8 + e
  at_ : Map Nat                     -- per slot, the sample of its last evaluation
  evaluated : Map Nat               -- per slot, one more than the last block evaluated, 0 before the first
  segs : Map Nat                    -- MM_VOICE_EG.SEG of each slot at its last evaluation
  holding : Bool                    -- the MM page is disabled and pairs hold their target (R124)
deriving DecidableEq, Repr

/-- An envelope before its first segment. -/
def Envelope.reset : Envelope := { seg := 1, elapsed := 0, level := 0 }

/-- The pool at reset: every slot FREE. -/
def Pool.reset : Pool :=
  { slots := [], applied := [], cursor := [], statSnap := [], disabled := false, hostWrites := [], splits := [], seedInForce := 0,
    fb := [], cancels := [], withholds := [],
    nextBlock := [] }

/-- The Modulation Matrix at reset. -/
def ModMatrix.reset : ModMatrix := { target := [], envs := [], at_ := [], evaluated := [], segs := [], holding := false }

end Sys2Proof.Machine
end

