-- ==== Sys2Proof/Machine/State/Scheduler.lean ====
section
/-! DEFINITION. The state of the Scheduler beyond the SCH registers (spec/06). -/

namespace Sys2Proof.Machine

/-- The kinds of task (R125), as the descriptor codes them. -/
inductive TaskKind where
  | voice | fade | bus
deriving DecidableEq, Repr

/-- Where a task is between its binding and its commit (R131 to R135). -/
inductive TaskPhase where
  | bound                        -- on its Platform
  | staging (core slot : Nat)    -- being staged into a Siding slot
  | staged (core slot : Nat)
  | dispatched (core : Nat)
  | yielded (core : Nat) (ended err : Bool)   -- its front frames are with the state mover
  | aborted (core : Nat)         -- past its cycle limit (R142), awaiting the core's YIELD
  | committed
  | failed                       -- dispatched, and its commit check failed for another reason than its epoch (R135, R161)
  | deferred                     -- R129, R134
  | dropped                      -- withdrawn for good, discarded, or stopped by poisoned data (R88, R135, R364)
deriving DecidableEq, Repr

/-- A render task: its descriptor (R126) and its progress. -/
structure Task where
  kind : TaskKind
  cls : Cls
  first : Bool
  fade : Bool
  resume : Bool
  rerender : Bool
  slot : Nat
  part : Nat
  bseq : Nat                 -- block sequence number
  epoch : Nat
  entryPc : Nat
  home : Nat
  limit : Nat
  splitPtr : Nat
  splitN : Nat
  start : Nat
  fadeBlk : Nat
  fadeLen : Nat              -- minus 1
  out : Nat
  phase : TaskPhase
  platform : Nat             -- 0 to 33 a core's, 34 the shared Platform (R129)
  exclude : Option Nat       -- the lost core of a re-issued task (R143)
  order : Nat                -- order of binding
  head : Bool                -- at the head of its class (R143)
  boundAt : Nat              -- CORE cycle of its binding, counted from media time 0 (R147)
  withdrawn : Bool           -- its result is to be discarded (R88, R136, R145)
  tally : List Nat           -- Retired, Wasted, Front and Back slots from its TAKE, once it has yielded (R384)
  takeAt : Nat               -- its core's cycle at its TAKE (R139)
  seed : Word                -- K0 of its noise generator (R215)
deriving DecidableEq, Repr

/-- The Scheduler. -/
structure Scheduler where
  tasks : List Task            -- in order of binding
  order : Nat
  peaks : Map Nat              -- per Platform and class: highest depth since HCLR (R148); key class code * 64 + platform
  busy : Map Nat               -- per core: cycles between TAKE and YIELD in this period (R148)
  used : Map Nat               -- cycles used in this period: 1 Bulk, 2 Normal, 0 Normal and Bulk bus tasks (R139)
  bulkClosed : Option Nat      -- the block of which a Normal task was deferred (R134)
  busEpoch : Map Nat           -- placement epochs of the bus programs (R144)
  busPlaced : Map Nat
  expApplied : Nat             -- the reservation in force (R137)
  partApplied : Map Word       -- SCH_PART_CFG as the last boundary step applied it
  shuntTarget : Option (Nat × Nat)   -- host shunt without its first commit: slot and core (R146)
  shuntNotify : List (Nat × Nat)     -- shunts without their first commit, for SHUNT_DONE (R145)
  bindFrom : Nat               -- the first period in which tasks are bound again after the page was disabled (R149)
  busEnabled : Map Nat         -- SCH_BUSk_CFG.EN as applied at the last period start
  lmaxApplied : Nat            -- SCH_EXP_CFG.LMAX in force (R137)
  vacant : List Nat            -- cores that left service and were not replaced, the oldest first (R365)
  overBlock : Option Nat       -- the block last counted in SCH_EXP_OVER_CNT (R138)
deriving DecidableEq, Repr

/-- The Scheduler at reset: no task. -/
def Scheduler.reset : Scheduler :=
  { tasks := [], order := 0, peaks := [], busy := [], used := [], bulkClosed := none, busEpoch := [], busPlaced := [], expApplied := 0,
    partApplied := [], shuntTarget := none, shuntNotify := [], bindFrom := 0, busEnabled := [], lmaxApplied := 16384,
    vacant := [], overBlock := none }

end Sys2Proof.Machine
end

