-- ==== Sys2Proof/Machine/State/Service.lean ====
section
/-! DEFINITION. The state of the Service Port, of power, start-up and the fuse beyond their registers (spec/15, spec/17). -/

namespace Sys2Proof.Machine

/-- The running service operation (R372 to R374); its code and flags stand in SVC_STAT. -/
structure Service where
  arg : Nat                -- its argument
  committed : Bool         -- its commit point is past
  finished : Bool          -- its work is done and its completion is due
  fail : Bool              -- its test failed
  base : Nat               -- the counters that PORT_FAILOVER_TEST sums, at its start (R373)
  suppressed : Option Nat  -- the port whose received frames it discards
deriving DecidableEq, Repr

/-- Power, start-up and the fuse. -/
structure Power where
  held : Bool              -- POR is held (R399)
  vioA : Bool              -- VIO_A stands at 1.6 V or above
  vioB : Bool
  thermalOff : Bool        -- thermal shutdown (R419)
  warned : Bool            -- THERMAL_WARN was raised and WARN - 5 °C has not been reached since (R418)
  critical : Bool          -- the highest sensor stands at 110 °C or above (R419)
  hbClear : Bool           -- a heartbeat expiry forces a clear until the next kick (R380)
  ingWas : Bool            -- ING PAGE_CTRL.EN before the entry to standby (R413, R416)
  served : List Nat        -- cores in service before standby (R416)
  wakePending : Bool       -- a wake event came between the commit point of STANDBY_ENTER and STANDBY (R417)
  triedB : Bool            -- the flash image tried last was B (R406)
  loading : Nat            -- the image being loaded or applied, as BOOT_STAT.IMAGE codes it
  hostGo : Bool            -- HOST_GO waits for the end of a flash attempt (R410)
  fuse : List Word         -- the fused hash, empty while nothing is fused (R409)
deriving DecidableEq, Repr

/-- No operation has run. -/
def Service.reset : Service := { arg := 0, committed := false, finished := false, fail := false, base := 0, suppressed := none }

/-- Power at the release of the power-on reset, with an unfused part. -/
def Power.reset : Power :=
  { held := false, vioA := true, vioB := true, thermalOff := false, warned := false, critical := false, hbClear := false,
    ingWas := true, served := [], wakePending := false, triedB := false, loading := 0, hostGo := false, fuse := [] }

end Sys2Proof.Machine
end

