-- ==== Sys2Proof/Machine/State/Stream.lean ====
section
/-! DEFINITION. The state of the Stream Prefetcher beyond the SPF registers and the rings (spec/10). -/

namespace Sys2Proof.Machine

/-- One stream of a slot (R227 to R239). The object fields are the copy of its sample table entry (R228). Stream frames are counted
without wrapping; software sees them modulo 2^32. -/
structure Stream where
  active : Bool
  ring : Nat              -- one more than its ring; 0 for the ring of reset (R229)
  obj : Nat
  addr : Nat
  len : Nat
  loopStart : Nat
  loopEnd : Nat
  width : Nat             -- bytes of one sample
  stereo : Bool
  loop : Nat              -- 0 none, 1 forward, 2 sustain
  first : Nat             -- declared ratio of R231
  declared : Nat          -- declared ratio in force, Q4.28
  cons : Int
  filled : Nat
  target : Int            -- A of R234
  pos : Nat               -- object frame of the next stream frame to be read
  released : Bool         -- the sustain loop has been left (R236)
  fin : Option Nat        -- stream frame at which the object ends, once known
  ended : Bool
  underrun : Bool
  fault : Bool
  clamped : Bool
  cseq : Nat
  gen : Nat               -- number of the stream's start: fills of an earlier one are discarded (R239)
  asked : Nat             -- stream frames for which reads have been issued
deriving DecidableEq, Repr

/-- A Sample Memory read in flight for a stream (R234): stream frames `from_` to `from_ + count - 1`, object frames from `pos`. -/
structure Fill where
  slot : Nat
  stream : Nat
  gen : Nat
  cls : Cls
  from_ : Nat
  count : Nat
  pos : Nat
deriving DecidableEq, Repr

/-- The Prefetcher. -/
structure Prefetcher where
  streams : Map Stream          -- key 2 × slot + stream
  fills : List Fill             -- in order of issue
  starts : Nat                  -- streams started
  tbl : Map Word                -- SPF_TBL registers as in force (R223)
  partCfg : Map Word            -- SPF_PARTn_CFG as the last boundary step applied it
deriving DecidableEq, Repr

/-- A stream that is not active. -/
def Stream.reset : Stream :=
  { active := false, ring := 0, obj := 0, addr := 0, len := 0, loopStart := 0, loopEnd := 0, width := 2, stereo := false, loop := 0,
    first := 0, declared := 0, cons := 0, filled := 0, target := 0, pos := 0, released := false, fin := none, ended := false, underrun := false,
    fault := false, clamped := false, cseq := 0, gen := 0, asked := 0 }

/-- The Prefetcher at reset. -/
def Prefetcher.reset : Prefetcher := { streams := [], fills := [], starts := 0, tbl := [], partCfg := [] }

end Sys2Proof.Machine
end

