-- ==== Sys2Proof/Machine/State.lean ====
section
/-! DEFINITION. The state of the block, its reset value, and the reasons for which a step can stop. -/

namespace Sys2Proof.Machine

/-- Faults. -/
inductive Fault where
  /-- No meaning raises it: every event the spec describes has its effect (safe). -/
  | unreachable
deriving DecidableEq, Repr

/-- Refusals. -/
inductive Refusal where
  /-- Raised by `exec` alone, for a command that has no meaning yet (safe). -/
  | notModelled (mnemonic : String)
deriving DecidableEq, Repr

/-- The state of the block. -/
structure State where
  pending : List Instr        -- the commands that wait, first in first out
  regs : Regs                 -- every register that differs from its reset value
  draws : Nat                 -- free values drawn so far (log entry 2)
  out : Outside
  clk : Clock
  ing : Ingress
  pool : Pool
  mm : ModMatrix
  sch : Scheduler
  cores : Map Core            -- 34 voice cores
  spf : Prefetcher
  mix : Mixer
  dec : Decimator
  dac : Dac
  ort : Router
  queues : Map Queue          -- 48 output queues
  con : Map Byte              -- Concourse bytes that are not 0 (R298)
  ctl : ConCtl
  dram : Dram
  net : Net
  svc : Service
  pwr : Power
  pmu : Map Nat               -- the 512 PMU counters (R381)
  dump : Dump
  deferred : List Nat         -- pages whose EN is to be set when they have drained (R354)
  latches : Map Word          -- upper halves that a read has latched for a host path (R25, R394, R426)
deriving DecidableEq, Repr

/-- The block right after power-on reset. -/
def State.reset : State :=
  { pending := [], regs := [], draws := 0, out := Outside.reset, clk := Clock.reset, ing := Ingress.reset, pool := Pool.reset,
    mm := ModMatrix.reset, sch := Scheduler.reset, cores := [], spf := Prefetcher.reset, mix := Mixer.reset, dec := Decimator.reset,
    dac := Dac.reset, ort := Router.reset, queues := [], con := [], ctl := ConCtl.reset, dram := Dram.reset, net := Net.reset,
    svc := Service.reset, pwr := Power.reset, pmu := [], dump := Dump.reset, deferred := [], latches := [] }

end Sys2Proof.Machine
end

