-- ==== Sys2Proof/Machine/Ops.lean ====
section
/-! DEFINITION. The shared operations: registers and their fields, interrupts, error reporting, the error log, free values, media time
and its block grid, Concourse bytes and host memory. -/

namespace Sys2Proof.Machine

/-! ### Registers -/

/-- The word a register holds. -/
def State.reg (s : State) (off : Nat) : Word := s.regs.read off

/-- A field of a register. -/
def State.fld (s : State) (off lo w : Nat) : Nat := fieldOf (s.reg off) lo w

/-- A bit of a register. -/
def State.bit (s : State) (off i : Nat) : Bool := fieldOf (s.reg off) i 1 = 1

/-- The state with one register replaced. -/
def State.setReg (s : State) (off : Nat) (v : Word) : State := { s with regs := s.regs.write off v }

/-- The state with one field of a register replaced. -/
def State.setFld (s : State) (off lo w n : Nat) : State := s.setReg off (setFieldOf (s.reg off) lo w n)

/-- The state with one bit of a register replaced. -/
def State.setBit (s : State) (off i : Nat) (b : Bool) : State := s.setFld off i 1 (if b then 1 else 0)

/-- A saturating event counter goes up by `n`. -/
def State.bumpBy (s : State) (off n : Nat) : State :=
  s.setReg off (BitVec.ofNat 32 (min 0xFFFFFFFF ((s.reg off).toNat + n)))

/-- A saturating event counter goes up by one. -/
def State.bump (s : State) (off : Nat) : State := s.bumpBy off 1

/-! ### PMU counters (R381, R382) -/

/-- A PMU counter. -/
def State.pmuGet (s : State) (i : Nat) : Nat := Sparse.get (fun _ => 0) s.pmu i

/-- Adds `n` to a PMU counter, modulo 2^48. -/
def State.count (s : State) (i n : Nat) : State :=
  { s with pmu := Sparse.put (fun _ => 0) s.pmu i ((s.pmuGet i + n) % 2 ^ 48) }

/-! ### Interrupts (R378) -/

/-- Whether a source is pending by the bits of one page. -/
def State.pageRaises (s : State) (p src : Nat) : Bool :=
  (irqBitsOfPage p).any (fun x => decide (x.2 = src) && s.bit (Reg.PAGE_IRQ_STAT p) x.1 && s.bit (Reg.PAGE_IRQ_EN p) x.1)

/-- The pages that own interrupt source `src`. -/
def pagesOfSource (src : Nat) : List Nat :=
  ((List.range 0x1E) ++ (List.range 34).map (fun n => 0x20 + n)).filter (fun p => (irqBitsOfPage p).any (fun x => decide (x.2 = src)))

/-- Whether source `src` is pending. -/
def State.sourcePending (s : State) (src : Nat) : Bool := (pagesOfSource src).any (fun p => s.pageRaises p src)

/-- The MSI-X enable of a source. -/
def State.msiEnabled (s : State) (src : Nat) : Bool :=
  if src < 32 then s.bit Reg.IRQ_MSI_EN_LO src else s.bit Reg.IRQ_MSI_EN_HI (src - 32)

/-- Records that `x` left the block. -/
def State.send (s : State) (x : Sent) : State := { s with out := { s.out with sent := x :: s.out.sent } }

/-- Sends the MSI-X message of a vector, or sets its pending bit when the vector is masked or the IRQ page is disabled (R355, R378). -/
def State.sendMsix (s : State) (v : Nat) : State :=
  if s.bit (Reg.MSIX_TABLE (4 * v + 3)) 0 ∨ s.bit (Reg.PAGE_CTRL Page.irq) 0 = false then
    s.setBit (Reg.MSIX_PBA (v / 32)) (v % 32) true
  else (s.send (.msix v)).count 500 1

/-- After a change from `old` to `s` that may have made source `src` deliverable: the message is sent when (pending and enabled)
went from 0 to 1. -/
def State.deliver (s old : State) (src : Nat) : State :=
  if s.sourcePending src ∧ s.msiEnabled src ∧ ¬ (old.sourcePending src ∧ old.msiEnabled src) then s.sendMsix src else s

/-- Delivers every source that `f` made deliverable. -/
def State.deliverAll (s old : State) (srcs : List Nat) : State := srcs.foldl (fun t n => t.deliver old n) s

/-- A page raises its interrupt bit `b`. -/
def State.raise (s : State) (p b : Nat) : State :=
  let t := s.setBit (Reg.PAGE_IRQ_STAT p) b true
  match (irqBitsOfPage p).find? (fun x => decide (x.1 = b)) with
  | some x => t.deliver s x.2
  | none => t

/-- The HINT pin: low while a pending source is enabled for it and the IRQ page is enabled (R355, R378). -/
def State.hintLow (s : State) : Bool :=
  s.bit (Reg.PAGE_CTRL Page.irq) 0 &&
    (List.range 64).any (fun n =>
      (if n < 32 then s.bit Reg.IRQ_HINT_EN_LO n else s.bit Reg.IRQ_HINT_EN_HI (n - 32)) && s.sourcePending n)

/-! ### Errors of a page -/

/-- One more error or refused write of a page. -/
def State.pageErr (s : State) (p : Nat) : State := s.bump (Reg.PAGE_ERR_CNT p)

/-- Sets flag `b` of PAGE_ERR_STAT and counts the error. -/
def State.pageErrFlag (s : State) (p b : Nat) : State := (s.setBit (Reg.PAGE_ERR_STAT p) b true).pageErr p

/-- Whether a page is enabled. -/
def State.pageOn (s : State) (p : Nat) : Bool := s.bit (Reg.PAGE_CTRL p) 0

/-- A page begins to drain (R354). -/
def State.draining (s : State) (p : Nat) : State := (s.setBit (Reg.PAGE_STAT p) 1 true).setBit (Reg.PAGE_STAT p) 0 false

/-- Sends the messages that wait in the PBA, for vectors that are not masked, once the IRQ page is enabled (R355, R378). -/
def State.flushMsix (s : State) : State :=
  if s.bit (Reg.PAGE_CTRL Page.irq) 0 = false then s
  else (List.range 64).foldl (fun t v =>
    if t.bit (Reg.MSIX_PBA (v / 32)) (v % 32) ∧ t.bit (Reg.MSIX_TABLE (4 * v + 3)) 0 = false then
      ((t.setBit (Reg.MSIX_PBA (v / 32)) (v % 32) false).send (.msix v)).count 500 1
    else t) s

/-- A page is enabled: its block takes up work again under its own rule (R66, R149, R266 to R268, R354, R355). -/
def State.startPage (s : State) (p : Nat) : State :=
  let t := (s.setBit (Reg.PAGE_CTRL p) 0 true).setBit (Reg.PAGE_STAT p) 0 false
  if p = Page.mix then { t with mix := { t.mix with stopFrom := none } }
  else if p = Page.dec then { t with dec := { t.dec with stopBus := none, stopCap := none } }
  else if p = Page.ort then { t with ort := { t.ort with stopping := false } }
  else if p = Page.ing then { t with ing := { t.ing with stopPeriod := none } }
  else if p = Page.sch then { t with sch := { t.sch with bindFrom := t.clk.mt.toNat / 256 / (8 * 2 ^ t.fld Reg.CLK_MEDIA_CFG 2 2) + 1 } }
  else if p = Page.irq then t.flushMsix
  else if 0x20 ≤ p then { t with cores := Sparse.upd (fun _ => Core.reset) t.cores (p - 0x20) (fun c => { c with held := false }) }
  else t

/-- A page has drained (R354): a write of EN that came meanwhile is applied now. -/
def State.idle (s : State) (p : Nat) : State :=
  let t := (s.setBit (Reg.PAGE_STAT p) 1 false).setBit (Reg.PAGE_STAT p) 0 true
  if t.deferred.contains p then State.startPage { t with deferred := t.deferred.filter (fun q => decide (q ≠ p)) } p else t

/-! ### Free values -/

/-- The next free value, of `w` bits, and the state that has drawn it. -/
def State.draw (s : State) (w : Nat) : Nat × State :=
  ((Config.freeValue s.draws).toNat % 2 ^ w, { s with draws := s.draws + 1 })

/-! ### Media time (R19, R20, R26) -/

/-- The sample count MT [63:8]. -/
def State.sample (s : State) : Nat := s.clk.mt.toNat / 256

/-- B, the output samples of a block. -/
def State.blk (s : State) : Nat := 8 * 2 ^ s.fld Reg.CLK_MEDIA_CFG 2 2

/-- OS, 1 or 2. -/
def State.os (s : State) : Nat := if s.bit Reg.CLK_MEDIA_CFG 4 then 2 else 1

/-- N, the rendered samples of a block. -/
def State.rendered (s : State) : Nat := s.blk * s.os

/-- Whether Fs is twice the base rate. -/
def State.rate2x (s : State) : Bool := s.bit Reg.CLK_MEDIA_CFG 1

/-- Fs in Hz. -/
def State.fs (s : State) : Nat :=
  (if s.bit Reg.CLK_MEDIA_CFG 0 then 44100 else 48000) * (if s.rate2x then 2 else 1)

/-- The period in progress: the number of the block whose samples a queue of depth 1 releases. -/
def State.period (s : State) : Nat := s.sample / s.blk

/-- The sample within the period. -/
def State.offset (s : State) : Nat := s.sample % s.blk

/-- CORE cycles of one block period, B × 10^9 / Fs, rounded down. -/
def State.periodCycles (s : State) : Nat := s.blk * 1000000000 / s.fs

/-- Whether media time runs. -/
def State.running (s : State) : Bool := s.bit Reg.CLK_MEDIA_STAT 0

/-- CLK_MEDIA_CTRL.RUN. -/
def State.run (s : State) : Bool := s.bit Reg.CLK_MEDIA_CTRL 0

/-- A signed difference of two MT or sample values of `w` bits, modulo 2^w (R19). -/
def modDiff (w a b : Nat) : Int := signedOf w (wrapTo w ((a : Int) - (b : Int)))

/-- Block sequence numbers are carried modulo 2^32 (R20). -/
def bseqOf (n : Nat) : Nat := n % 2 ^ 32

/-! ### Error log (R359) -/

/-- Writes one entry into the error log. `ident` is the injection id, `sub` the unit, `info` the detector's own word. -/
def State.logError (s : State) (ident sub info : Nat) (injected : Bool) : State :=
  let k := if s.bit Reg.ERR_LOG_HEAD 4 then (s.fld Reg.ERR_LOG_HEAD 0 4 + 1) % 16 else 0
  let s1 := (s.bump Reg.ERR_LOG_CNT).count 502 1
  let w0 := ident % 2 ^ 16 + (if injected then 2 ^ 16 else 0) + (sub % 256) * 2 ^ 24
  ((((s1.setReg (Reg.ERR_LOG_W0 k) (BitVec.ofNat 32 w0)).setReg (Reg.ERR_LOG_W1 k) (BitVec.ofNat 32 (s.clk.mt.toNat / 256))).setReg
    (Reg.ERR_LOG_W2 k) (BitVec.ofNat 32 info)).setReg (Reg.ERR_LOG_W3 k) (s1.reg Reg.ERR_LOG_CNT)).setReg Reg.ERR_LOG_HEAD
    (BitVec.ofNat 32 (16 + k))

/-! ### Concourse bytes, taken plainly; parity, attributes and banks are in `Concourse.lean` -/

/-- One Concourse byte; what nothing has written reads 0 (R298). -/
def State.conByte (s : State) (a : Nat) : Byte := Sparse.get (fun _ => 0) s.con a

/-- Writes one Concourse byte. -/
def State.setConByte (s : State) (a : Nat) (v : Byte) : State := { s with con := Sparse.put (fun _ => 0) s.con a v }

/-- A little-endian number of `n` bytes. -/
def leNat : List Byte → Nat
  | [] => 0
  | b :: bs => b.toNat + 256 * leNat bs

/-- The low `n` bytes of a number, least significant first. -/
def leBytes : Nat → Nat → List Byte
  | 0, _ => []
  | n + 1, v => BitVec.ofNat 8 v :: leBytes n (v / 256)

/-- `n` Concourse bytes from address `a`. -/
def State.conBytes (s : State) (a n : Nat) : List Byte := (List.range n).map (fun i => s.conByte (a + i))

/-- Writes bytes to the Concourse from address `a`. -/
def State.putConBytes (s : State) (a : Nat) : List Byte → State
  | [] => s
  | b :: bs => (s.setConByte a b).putConBytes (a + 1) bs

/-- A 32-bit Concourse word, little-endian (R4). -/
def State.conWord (s : State) (a : Nat) : Word := BitVec.ofNat 32 (leNat (s.conBytes a 4))

/-- Writes a 32-bit Concourse word. -/
def State.setConWord (s : State) (a : Nat) (v : Word) : State := s.putConBytes a (leBytes 4 v.toNat)

/-- Writes words from address `a`. -/
def State.putConWords (s : State) (a : Nat) (ws : List Word) : State :=
  ws.zipIdx.foldl (fun t e => t.setConWord (a + 4 * e.2) e.1) s

/-- `n` words from address `a`. -/
def State.conWords (s : State) (a n : Nat) : List Word := (List.range n).map (fun i => s.conWord (a + 4 * i))

/-- Removes every listed byte of a Concourse range, so that it reads 0. -/
def State.clearCon (s : State) (a n : Nat) : State :=
  { s with con := s.con.filter (fun x => decide (x.1 < a) || decide (a + n ≤ x.1)) }

/-- Writes bytes to host memory over PCIe. -/
def State.putHost (s : State) (a : Nat) : List Byte → State
  | [] => s
  | b :: bs =>
    State.putHost { s with out := { s.out with hostMem := Sparse.put (fun _ => 0) s.out.hostMem (a % 2 ^ 64) b } } (a + 1) bs

/-! ### Slots of the pool -/

/-- A slot: 0 to 1023 voice slots, 1024 to 1087 shadow slots. -/
def State.slot (s : State) (k : Nat) : Slot := Sparse.get (fun _ => Slot.reset) s.pool.slots k

/-- The state with one slot replaced. -/
def State.setSlot (s : State) (k : Nat) (x : Slot) : State :=
  { s with pool := { s.pool with slots := Sparse.put (fun _ => Slot.reset) s.pool.slots k x } }

/-- Applies `f` to one slot. -/
def State.updSlot (s : State) (k : Nat) (f : Slot → Slot) : State := s.setSlot k (f (s.slot k))

/-- The slots that are not FREE, with their numbers, in ascending order. -/
def State.liveSlots (s : State) : List (Nat × Slot) := s.pool.slots.filter (fun x => decide (x.2.st ≠ .free))

/-! ### Cores -/

/-- A core. -/
def State.core (s : State) (n : Nat) : Core := Sparse.get (fun _ => Core.reset) s.cores n

/-- The state with one core replaced. -/
def State.setCore (s : State) (n : Nat) (c : Core) : State :=
  { s with cores := Sparse.put (fun _ => Core.reset) s.cores n c }

/-- Applies `f` to one core. -/
def State.updCore (s : State) (n : Nat) (f : Core → Core) : State := s.setCore n (f (s.core n))

/-- Cores in service, in ascending order. -/
def State.inService (s : State) : List Nat := (List.range 34).filter (fun n => decide ((s.core n).svc = 2))

/-! ### Streams and queues -/

/-- A stream of a slot. -/
def State.stream (s : State) (slot k : Nat) : Stream := Sparse.get (fun _ => Stream.reset) s.spf.streams (2 * slot + k)

/-- Replaces a stream. -/
def State.setStream (s : State) (slot k : Nat) (x : Stream) : State :=
  { s with spf := { s.spf with streams := Sparse.put (fun _ => Stream.reset) s.spf.streams (2 * slot + k) x } }

/-- An output queue. -/
def State.queue (s : State) (q : Nat) : Queue := Sparse.get (fun _ => Queue.reset) s.queues q

/-- Replaces an output queue. -/
def State.setQueue (s : State) (q : Nat) (x : Queue) : State :=
  { s with queues := Sparse.put (fun _ => Queue.reset) s.queues q x }

/-! ### Injection (R357, R358) -/

/-- What a detector found at one check: the state, whether it detected, and whether an injection made it. -/
structure Check where
  st : State
  hit : Bool
  inj : Bool

/-- Whether an injection of detector `det` of page `p` is armed for unit `sub`. -/
def State.armed (s : State) (p det sub : Nat) : Bool :=
  s.bit (Reg.PAGE_ERR_INJ p) 30 && decide (s.fld (Reg.PAGE_ERR_INJ p) 0 8 = det) &&
    (decide (s.fld (Reg.PAGE_ERR_INJ p) 16 8 = 0xFF) || decide (s.fld (Reg.PAGE_ERR_INJ p) 16 8 = sub))

/-- One check of a detector on one unit: a real error, or else an armed injection, which fires and is disarmed. -/
def State.check (s : State) (p det sub : Nat) (real : Bool) : Check :=
  if real then { st := s, hit := true, inj := false }
  else if s.armed p det sub then
    { st := (s.setBit (Reg.PAGE_ERR_INJ p) 30 false).raise Page.err 0, hit := true, inj := true }
  else { st := s, hit := false, inj := false }

/-- One check of detector `det` of page `p`, with its entry in the error log when it detects (R359). -/
def State.detect (s : State) (p det sub info : Nat) (real : Bool) : Check :=
  let c := s.check p det sub real
  if c.hit then { c with st := c.st.logError (256 * p + det) sub info c.inj } else c

/-- Class of a 2-bit code; 0 acts as Normal. -/
def clsOfCode (n : Nat) : Cls := if n = 1 then .bulk else if n = 3 then .express else .normal

/-- The 2-bit code of a class. -/
def codeOfCls : Cls → Nat
  | .bulk => 1
  | .normal => 2
  | .express => 3

end Sys2Proof.Machine
end

