-- ==== Sys2Proof/Machine/Concourse.lean ====
section
/-! DEFINITION. Accesses to the Concourse: banks and rows, the two codes, two masters on one word, and accesses to a region under
background test (R291 to R301, R307). -/

namespace Sys2Proof.Machine

/-- Row of a Concourse address (R291). -/
def conRow (a : Nat) : Nat := a / 1024 % 32768
/-- Parity group. -/
def conGroup (a : Nat) : Nat := a / 128 % 8
/-- Position of the data word in its row. -/
def conPos (a : Nat) : Nat := (conRow a % 9 + 1 + a / 16 % 8) % 9
/-- Key of an address's row. -/
def conRowKey (a : Nat) : Nat := conGroup a * 32768 + conRow a

/-- STATE of a bank: 0 IN_SERVICE, 1 SPARE, 2 TARGET, 3 RETIRED, 4 TESTING. -/
def State.bankState (s : State) (b : Nat) : Nat := s.fld (Reg.CON_BANK b) 29 3

/-- map(g, j) (R291): the bank in service at a position of a group. -/
def State.bankAt (s : State) (g j : Nat) : Nat :=
  ((List.range 74).find? (fun b => decide (s.bankState b = 0) && decide (s.fld (Reg.CON_BANK b) 24 4 = g) &&
    decide (s.fld (Reg.CON_BANK b) 16 4 = j))).getD (9 * g + j)

/-- The bank of an address. -/
def State.bankOf (s : State) (a : Nat) : Nat := s.bankAt (conGroup a) (conPos a)

/-- CON_STAT.MODE: 0 SERVICE, 1 STARTUP, 2 TEST. -/
def State.conMode (s : State) : Nat := s.fld Reg.CON_STAT 0 2

/-- Whether a master is on port A. -/
def portA (master : Nat) : Bool := decide (master < 34)

/-- Records the last corrected or uncorrectable access. -/
def State.conErrInfo (s : State) (master a : Nat) (ue parity : Bool) : State :=
  s.setReg Reg.CON_ERR_INFO (BitVec.ofNat 32 ((if ue then 2 ^ 31 else 0) + master % 64 * 2 ^ 25 + a / 16 % 2 ^ 21 * 16 + (if parity then 1 else 0)))

/-- Queues an automatic rebuild of a bank (R375). -/
def State.queueRebuild (s : State) (b : Nat) : State :=
  if s.bit Reg.SVC_POLICY 1 ∧ ¬ s.ctl.rebuildQueue.contains b then
    { s with ctl := { s.ctl with rebuildQueue := s.ctl.rebuildQueue ++ [b] } }
  else s

/-- One more corrected error in a bank (R295, R375). -/
def State.bankCe (s : State) (b : Nat) : State :=
  let n := min 0xFFFF (s.fld (Reg.CON_BANK b) 0 16 + 1)
  let s1 := s.setFld (Reg.CON_BANK b) 0 16 n
  let thr := s.fld Reg.SVC_POLICY 16 8
  if thr ≠ 0 ∧ n = thr * 256 ∧ s.bankState b = 0 then s1.queueRebuild b else s1

/-- A corrected word waits for its write-back (R295). -/
def State.addWriteBack (s : State) (w : Nat) : State :=
  if s.ctl.writeBack.contains w then s else { s with ctl := { s.ctl with writeBack := s.ctl.writeBack ++ [w] } }

/-- An uncorrectable word was met (R297). -/
def State.conUe (s : State) (master a : Nat) (inj : Bool) : State :=
  (((s.bump Reg.CON_UE_CNT).conErrInfo master a true false).raise Page.con 1).logError 0x1302 (s.bankOf a) a inj

/-- The check of one word that a read of master `master` meets: the state, and whether the data are poisoned (R295, R297, R357). -/
def State.conCheck (s : State) (master a : Nat) (upset : Upset) : State × Bool :=
  let w := a / 16
  let bank := s.bankOf a
  let noParity := s.ctl.badParity.contains (conRowKey a)
  let realUe := s.ctl.bad.contains w || decide (upset = .lost) || (decide (upset = .rebuilt) && noParity)
  let ue := s.check Page.con 2 bank realUe
  if ue.hit then
    let t := ue.st.conUe master a ue.inj
    (if realUe ∧ ¬ s.ctl.bad.contains w then { t with ctl := { t.ctl with bad := w :: t.ctl.bad } } else t, true)
  else
    let pr := s.check Page.con 1 bank (decide (upset = .rebuilt))
    if pr.hit then
      if noParity then (pr.st.conUe master a pr.inj, true)
      else
        let t := (((pr.st.bump Reg.CON_PARITY_CNT).conErrInfo master a false true).raise Page.con 2).logError 0x1301 bank a pr.inj
        (if pr.inj then t else t.addWriteBack w, false)
    else
      let ce := s.check Page.con 0 bank (decide (upset = .single))
      if ce.hit then
        let t := ((((ce.st.bump Reg.CON_CE_CNT).bankCe bank).conErrInfo master a false false).raise Page.con 0).logError 0x1300 bank a ce.inj
        (if ce.inj then t else t.addWriteBack w, false)
      else (s, false)

/-- An access of class `cls` to an address whose region is under test: Express aborts the test (R307). -/
def State.btTouch (s : State) (cls : Cls) (a : Nat) : State :=
  if s.ctl.btBorrow = some (s.bankOf a, conRow a / 256) then
    let t := s.count 457 1
    if cls = .express then
      State.setFld { t with ctl := { t.ctl with btBorrow := none } } Reg.CON_BT_POS 16 2 0 |>.bump Reg.CON_BT_ABORT_CNT
    else t
  else s

/-- Counts an access on its port. -/
def State.countPort (s : State) (master : Nat) : State := s.count (if portA master then 451 else 452) 1

/-- Writes bytes plainly, and clears what a write clears: write-backs of its words, an uncorrectable word written whole, and an
uncorrectable parity word of the row (R295, R297). -/
def State.conStore (s : State) (a : Nat) (data : List Byte) : State :=
  let t := s.putConBytes a data
  let words := (List.range ((a % 16 + data.length + 15) / 16)).map (fun i => a / 16 + i)
  let whole := words.filter (fun w => decide (a ≤ 16 * w) && decide (16 * w + 16 ≤ a + data.length))
  { t with ctl := { t.ctl with
    bad := t.ctl.bad.filter (fun w => !whole.contains w)
    rbPoison := t.ctl.rbPoison.filter (fun w => !whole.contains w)
    rbParity := t.ctl.rbParity.filter (fun k => !(words.any (fun w => decide (conRowKey (16 * w) = k))))
    badParity := t.ctl.badParity.filter (fun k => !(words.any (fun w => decide (conRowKey (16 * w) = k))))
    writeBack := t.ctl.writeBack.filter (fun w => !words.contains w) } }

/-- A core takes a COLL event (R164, R299). -/
def State.coreColl (s : State) (n : Nat) : State :=
  s.updCore n (fun c => { c with
    crs := Sparse.upd (fun _ => 0) c.crs 0 (fun v => v ||| 0x800#32)
    events := if c.events.contains 4 then c.events else c.events ++ [4] })

/-- Records a lost write and informs the loser (R299). -/
def State.collision (s : State) (loser a : Nat) : State :=
  let t := ((s.bump Reg.CON_WCOLL_CNT).setReg Reg.CON_WCOLL_INFO
    (BitVec.ofNat 32 (2 ^ 31 + loser % 64 * 2 ^ 25 + a / 16 % 2 ^ 21 * 16))).raise Page.con 5
  if loser < 34 then t.coreColl loser else t

/-- Whether two accesses meet in one word: one on each port. -/
def meets (master a : Nat) (r : Rival) : Bool :=
  (portA master != portA r.master) && decide (r.addr.toNat / 16 = a / 16)

/-- Whether R301 replaces the rules of SERVICE mode for an access to `a` that meets master `other`. -/
def State.relaxed (s : State) (a other : Nat) : Bool :=
  decide (s.conMode ≠ 0) || (decide (other = 46) && decide (s.fld Reg.CON_STAT 8 4 = conGroup a))

/-- What a write came to. -/
inductive WriteResult where
  | done | lost | poisoned | busy
deriving DecidableEq, Repr

/-- A write of at most 16 bytes inside one word. -/
def State.conWriteWord (s : State) (master : Nat) (cls : Cls) (a : Nat) (data : List Byte) (acc : Access) : State × WriteResult :=
  let s1 := ((s.countPort master).btTouch cls a).count 455 4
  let one := fun (t : State) =>
    if data.length < 16 then
      let k := t.conCheck master a acc.upset
      if k.2 then (k.1, WriteResult.poisoned) else (k.1.conStore a data, WriteResult.done)
    else (t.conStore a data, WriteResult.done)
  match acc.rival with
  | none => one s1
  | some r =>
    if meets master a r = false then one s1
    else if s.relaxed a r.master then
      let busy := s1.bump Reg.CON_BUSY_CNT
      if portA master then
        let x := one busy
        (x.1.conStore r.addr.toNat r.data, x.2)
      else
        let x := one (busy.conStore r.addr.toNat r.data)
        (x.1, if x.2 = .done then .busy else x.2)
    else
      let wins := decide (codeOfCls r.cls < codeOfCls cls) || (decide (r.cls = cls) && portA master)
      if wins then
        let x := one s1
        (x.1.collision r.master r.addr.toNat, x.2)
      else ((s1.conStore r.addr.toNat r.data).collision master a, .lost)

/-- A read of at most 16 bytes inside one word: none when the data are poisoned. In the modes of R301 a write in the same cycle leaves
the data undefined: free values; a master of port B then repeats the read. -/
def State.conReadWord (s : State) (master : Nat) (cls : Cls) (a n : Nat) (acc : Access) : State × Option (List Byte) :=
  let k := ((s.countPort master).btTouch cls a).conCheck master a acc.upset
  let data := if k.2 then none else some (k.1.conBytes a n)
  match acc.rival with
  | none => (k.1, data)
  | some r =>
    if meets master a r = false then (k.1, data)
    else
      let t := k.1.conStore r.addr.toNat r.data
      if s.relaxed a r.master then
        let b := t.bump Reg.CON_BUSY_CNT
        if portA master then
          let d := (b.draw 64)
          let e := (d.2.draw 64)
          (e.2, some (leBytes n (d.1 + 2 ^ 64 * e.1)))
        else (b, if k.2 then none else some (b.conBytes a n))
      else (t, data)

/-- A quiet access. -/
def Access.quiet : Access := { upset := .clean, rival := none, stall := 0 }

/-- Words from `a`, `n` of them, of which `bad` tells whether the 16-byte word that holds the first is poisoned; a device master reads each
16-byte word once, and `fresh` asks for the first. -/
def State.devReadFrom (s : State) (master : Nat) (cls : Cls) (a : Nat) (fresh bad : Bool) : Nat → State × List (Option Word)
  | 0 => (s, [])
  | n + 1 =>
    let k := if fresh ∨ a % 16 = 0 then ((s.countPort master).btTouch cls a).conCheck master a .clean else (s, bad)
    let r := State.devReadFrom k.1 master cls (a + 4) false k.2 n
    (r.1, (if k.2 then none else some (s.conWord a)) :: r.2)

/-- A device master reads 32-bit words from `a`, all of them clean unless a word is uncorrectable: the words, none where
poisoned. -/
def State.devReadWords (s : State) (master : Nat) (cls : Cls) (a n : Nat) : State × List (Option Word) :=
  s.devReadFrom master cls a true false n

end Sys2Proof.Machine
end

