-- ==== Sys2Proof/Machine/CoreRegs.lean ====
section
/-! DEFINITION. The registers of a voice core: names and rotation, undefined contents, writes in flight and when they land, control
registers, slot accounting and the core's counters (R158, R159, R175 to R179, R186 to R188, R194, R382 to R397). -/

namespace Sys2Proof.Machine

/-! ### Register codes -/

/-- G register `k`, physical. -/
abbrev codeG (k : Nat) : Nat := k
/-- Register `i` of an address file. -/
def codeX (f : AddrFile) (i : Nat) : Nat :=
  match f with
  | .p => 32 + i
  | .m => 40 + i
  | .l => 48 + i
  | .b => 56 + i
/-- Predicate flag `i`. -/
abbrev codeF (i : Nat) : Nat := 64 + i
/-- Word `w` of phase accumulator `k`: 0, 1 the phase, 2, 3 the increment, low word first. -/
abbrev codePhase (k w : Nat) : Nat := 72 + 4 * k + w

/-- The value of a register; an undefined one is a free value of the core's draw block (R159). -/
def Core.rd (c : Core) (code : Nat) : Word :=
  match Sparse.get (fun _ => none) c.regs code with
  | some v => v
  | none => if c.gen = 0 then 0 else (Config.freeValue (c.gen + code)).truncate 32

/-- The value of an accumulator. -/
def Core.accRd (c : Core) (n : Nat) : BitVec 72 :=
  match Sparse.get (fun _ => none) c.accs n with
  | some v => v
  | none =>
    if c.gen = 0 then 0
    else BitVec.ofNat 72 ((Config.freeValue (c.gen + 256 + 2 * n)).toNat + 2 ^ 64 * (Config.freeValue (c.gen + 257 + 2 * n)).toNat)

/-- A control register as stored. -/
def Core.cr (c : Core) (k : Nat) : Word := Sparse.get (fun _ => 0) c.crs k

/-- The core with a control register replaced. -/
def Core.setCr (c : Core) (k : Nat) (v : Word) : Core := { c with crs := Sparse.put (fun _ => 0) c.crs k v }

/-- CSTAT.MODE: Voice mode. -/
def Core.voice (c : Core) : Bool := fieldOf (c.cr 0) 0 1 = 1

/-- The core in Voice mode or in Runtime mode. -/
def Core.setVoice (c : Core) (v : Bool) : Core := c.setCr 0 (setFieldOf (c.cr 0) 0 1 (if v then 1 else 0))

/-- CSTAT.AVn. -/
def Core.av (c : Core) (n : Nat) : Bool := fieldOf (c.cr 0) (2 + n) 1 = 1
/-- The direction bit of ACn. -/
def Core.avDir (c : Core) (n : Nat) : Bool := fieldOf (c.cr 0) (6 + n) 1 = 1

/-- A physical register written, in the mode that issued the write. -/
def Core.wr (c : Core) (code : Nat) (v : Word) (voice : Bool) : Core :=
  { c with
    regs := Sparse.put (fun _ => none) c.regs code (some v)
    soft := if voice then (if c.soft.contains code then c.soft else code :: c.soft) else c.soft.filter (fun k => decide (k ≠ code)) }

/-- An accumulator written. -/
def Core.accWr (c : Core) (n : Nat) (v : BitVec 72) (voice : Bool) : Core :=
  { c with
    accs := Sparse.put (fun _ => none) c.accs n (some v)
    soft := if voice then (if c.soft.contains (256 + n) then c.soft else (256 + n) :: c.soft)
      else c.soft.filter (fun k => decide (k ≠ 256 + n)) }

/-! ### Names (R194) -/

/-- LC of a loop level. -/
def Core.lc (c : Core) (level : Nat) : Nat := fieldOf (c.cr (0x0A + 3 * level)) 0 16

/-- The LOOP.R in force: it is active while its level's count is not 0. -/
def Core.activeRot (c : Core) : Option Rotation :=
  match c.rot with
  | some r => if c.lc r.level = 0 then none else some r
  | none => none

/-- The physical G register of a name. -/
def Core.phys (c : Core) (k : Nat) : Nat :=
  if 16 ≤ k ∧ c.activeRot.isSome then 16 + (k - 16 + fieldOf (c.cr 0x0F) 0 4) % 16 else k

/-- A G register read by name. -/
def Core.g (c : Core) (k : Nat) : Word := c.rd (codeG (c.phys k))

/-- A predicate flag. -/
def Core.flag (c : Core) (i : Nat) : Bool := fieldOf (c.rd (codeF i)) 0 1 = 1

/-- Whether a predicate holds (R189, R197). -/
def Core.holds (c : Core) : Pred → Bool
  | .always => true
  | .on f => c.flag f
  | .off f => !c.flag f

/-- One bit as a word. -/
def boolWord (b : Bool) : Word := if b then 1 else 0

/-! ### The core's own counters (R395) -/

/-- EVk and MODEk of a programmable counter. -/
def Core.evOf (c : Core) (k : Nat) : Nat := fieldOf (c.cr (0x1E + k / 3)) (8 * (k % 3)) 8
/-- MODEk. -/
def Core.modeOf (c : Core) (k : Nat) : Nat := fieldOf (c.cr (0x1E + k / 3)) (24 + 2 * (k % 3)) 2

/-- Whether a programmable counter counts in the present mode. -/
def Core.counts (c : Core) (k : Nat) : Bool :=
  match c.modeOf k with
  | 0 => true
  | 1 => !c.voice
  | 2 => c.voice
  | _ => c.task.isSome

/-- `n` occurrences of event code `e`. -/
def Core.evt (c : Core) (e n : Nat) : Core :=
  { c with pcnt := (List.range 6).foldl (fun m k =>
      if c.evOf k = e ∧ e ≠ 0 ∧ c.counts k then Sparse.upd (fun _ => 0) m k (fun v => (v + n) % 2 ^ 48) else m) c.pcnt }

/-- `n` occurrences of a per-core PMU event of an in-service core (R382). -/
def State.corePmu (s : State) (n e k : Nat) : State := if (s.core n).svc = 2 then s.count (12 * n + e) k else s

/-- A result counted as a saturated read (R178, R181, R201, R218). -/
def State.satRead (s : State) (n : Nat) : State := (s.updCore n (fun c => c.evt 0x11 1)).corePmu n 10 1

/-- A rounded read counted as overflowed (R178). -/
def State.ovfRead (s : State) (n : Nat) : State := (s.updCore n (fun c => c.evt 0x12 1)).corePmu n 11 1

/-! ### Landing (R175 to R177, R186, R188) -/

/-- Clears AVn and the direction bit of ACn. -/
def Core.clearAv (c : Core) (n : Nat) : Core :=
  c.setCr 0 (setFieldOf (setFieldOf (c.cr 0) (2 + n) 1 0) (6 + n) 1 0)

/-- Sets AVn with a direction. -/
def Core.setAv (c : Core) (n : Nat) (neg : Bool) : Core :=
  c.setCr 0 (setFieldOf (setFieldOf (c.cr 0) (2 + n) 1 1) (6 + n) 1 (if neg then 1 else 0))

/-- Width of a control register's stored bits; 0 for those that a write does not store. -/
def crMask (k : Nat) : Nat :=
  if k = 0x01 then 0x1F
  else if k = 0x02 then 0x3F
  else if k ∈ [0x03, 0x04, 0x05, 0x06, 0x08, 0x09, 0x0B, 0x0C] then 0x1FFF
  else if k = 0x0A ∨ k = 0x0D then 0xFFFF
  else if k = 0x0F then 0xF
  else if k = 0x1E ∨ k = 0x1F then 0x3FFFFFFF
  else if k = 0x22 then 0xFFFFFFFF
  else 0

/-- An MTC takes hold (R158, R395). -/
def Core.writeCr (c : Core) (k : Nat) (v : Word) (voice : Bool) : Core :=
  if k = 0 then
    let old := (c.cr 0).toNat
    let cleared := old ^^^ ((old &&& 0x1FFC) &&& v.toNat)
    let w := BitVec.ofNat 32 cleared
    c.setCr 0 (if voice then w else setFieldOf w 1 1 (fieldOf v 1 1))
  else if 0x12 ≤ k ∧ k ≤ 0x17 then
    { c with pcnt := Sparse.put (fun _ => 0) c.pcnt (k - 0x12) (v.toNat + 2 ^ 32 * Sparse.get (fun _ => 0) c.pcntStage (k - 0x12)) }
  else if 0x18 ≤ k ∧ k ≤ 0x1D then { c with pcntStage := Sparse.put (fun _ => 0) c.pcntStage (k - 0x18) (v.toNat % 2 ^ 16) }
  else if crMask k = 0 then c
  else c.setCr k (BitVec.ofNat 32 (v.toNat &&& crMask k))

/-- One write in flight takes hold on a core. -/
def Core.land (c : Core) (w : InFlight) : Core :=
  match w.op with
  | .reg code v => c.wr code v w.voice
  | .acc n v clear ovf =>
    let c1 := c.accWr n v w.voice
    let c2 := if clear then c1.clearAv n else c1
    (match ovf with
     | some neg => (c2.setAv n neg).evt 0x13 1
     | none => c2)
  | .accPart n part v =>
    let a := (c.accRd n).toNat
    let new : BitVec 72 := match part with
      | .p0 => BitVec.ofInt 72 (v.toInt * 2 ^ 32)
      | .p1 => BitVec.ofNat 72 (setBitsOf a 0 32 v.toNat)
      | .p2 => BitVec.ofNat 72 (setBitsOf a 32 32 v.toNat)
      | .p3 => BitVec.ofNat 72 (setBitsOf a 64 8 v.toNat)
    (c.accWr n new w.voice).clearAv n
  | .clrav mask => (List.range 4).foldl (fun d n => if bitsOf mask n 1 = 1 then d.clearAv n else d) c
  | .cr k v => c.writeCr k v w.voice

/-- Whether a write in flight is a CLRAV. -/
def InFlight.isClrav (w : InFlight) : Bool := match w.op with
  | .clrav _ => true
  | _ => false

/-- Every write due by cycle `t` takes hold, CLRAV first, so that an overflow of the same cycle wins (R177), and the others in issue
order, so that the later-issued stands (R188). ACC_OVERFLOW is raised when an AV bit goes from 0 to 1 over the cycle. -/
def State.landBy (s : State) (n t : Nat) : State :=
  let c := s.core n
  let due := c.inflight.filter (fun w => decide (w.due ≤ t))
  let c1 := ((due.filter InFlight.isClrav) ++ (due.filter (fun w => !w.isClrav))).foldl Core.land
    { c with inflight := c.inflight.filter (fun w => decide (t < w.due)) }
  let s1 := s.setCore n c1
  if (List.range 4).any (fun k => c1.av k && !c.av k) then s1.raise (Page.vc0 + n) 4 else s1

/-- Adds a write in flight, usable `lat` bundles after the present one. -/
def Core.later (c : Core) (lat : Nat) (op : WriteOp) : Core :=
  { c with inflight := c.inflight ++ [{ due := c.cycle + lat, voice := c.voice, op := op }] }

/-- The value to which a further M-slot operation adds: the last M-slot result in flight, or else the accumulator (R187). -/
def Core.accNow (c : Core) (n : Nat) : BitVec 72 :=
  c.inflight.foldl (fun v w => match w.op with
    | .acc k x _ _ => if k = n then x else v
    | _ => v) (c.accRd n)

/-! ### Issue slots (R383, R384) -/

/-- Adds one to item `i` of a tally. -/
def tallyAdd (t : List Nat) (i n : Nat) : List Nat := (List.range 4).map (fun k => (t[k]?).getD 0 + if k = i then n else 0)

/-- One CORE cycle of a core passes, in slot class `cls` (0 Retired, 1 Wasted, 2 Front-starved, 3 Back-starved): counters, the task's
count, and the writes that take hold. -/
def State.coreTick (s : State) (n cls : Nat) : State :=
  let c := s.core n
  let c1 := c.evt 1 1
  let c2 := if cls = 2 then c1.evt 4 1 else if cls = 3 then c1.evt 5 1 else c1
  let c3 := { c2 with
    cycle := c.cycle + 1
    tcyc := if c.task.isSome ∧ ¬ c.halted then c.tcyc + 1 else c.tcyc
    aborted := if c.halted then c.aborted else c.aborted.map (· + 1)
    memUe := c.memUe.map (· + 1)
    recalled := if c.halted then c.recalled else c.recalled.map (· + 1)
    tally := if c.task.isSome ∧ ¬ c.judged then tallyAdd c.tally cls 1 else c.tally }
  let s1 := (s.setCore n c3).corePmu n 0 1
  let s2 :=
    if c.task.isSome then (if c.judged then s1.corePmu n 2 1 else s1)
    else s1.corePmu n (1 + cls) 1
  s2.landBy n (c.cycle + 1)

/-- `k` cycles of one class. -/
def State.coreTicks (s : State) (n cls : Nat) : Nat → State
  | 0 => s
  | k + 1 => (s.coreTick n cls).coreTicks n cls k

/-- `k` cycles of one class in which no bundle issues: results in flight are due as many bundles later as before (R186). -/
def State.holdTicks (s : State) (n cls k : Nat) : State :=
  (s.updCore n (fun c => { c with inflight := c.inflight.map (fun w => { w with due := w.due + k }) })).coreTicks n cls k

/-- `k` Back-starved cycles of one kind: 0 port A, 1 table regions, 2 stream regions (R157, R222, R383). -/
def State.stall (s : State) (n kind k : Nat) : State :=
  let s1 := s.updCore n (fun c => c.evt (6 + kind) k)
  let s2 := if (s.core n).judged then s1 else s1.corePmu n (7 + kind) k
  s2.holdTicks n 3 k

/-- Completes every operation already issued (R165). -/
def State.coreFlush (s : State) (n : Nat) : State :=
  let t := (s.core n).cycle
  (List.range 10).foldl (fun u k => u.landBy n (t + k)) s

/-! ### Events (R164) -/

/-- A core event becomes pending. -/
def State.coreEvent (s : State) (n code : Nat) : State :=
  s.updCore n (fun c => if c.events.contains code then c else { c with events := c.events ++ [code] })

/-- A refused access or fetch (R152): CSTAT.VIOL, VC_VIOL_INFO, VC_VIOL_CNT and the error event. -/
def State.viol (s : State) (n kind : Nat) (slotY : Bool) (addr : Nat) : State :=
  let s1 := s.updCore n (fun c => c.setCr 0 (setFieldOf (c.cr 0) 12 1 1))
  ((s1.setReg (Reg.VC_VIOL_INFO n) (BitVec.ofNat 32 (kind * 2 ^ 30 + (if slotY then 2 ^ 29 else 0) + addr % 2 ^ 29))).bump
    (Reg.VC_VIOL_CNT n)).coreEvent n 3

/-- An illegal bundle or a privileged operation in Voice mode (R151, R198). -/
def State.ill (s : State) (n : Nat) : State := (s.bump (Reg.VC_ILL_CNT n)).coreEvent n 2

/-- Priority of an event code (R164). -/
def eventPriority (code : Nat) : Nat :=
  if code ≤ 3 then 1 else if code = 4 then 2 else if code ≤ 6 then 3 else if code = 7 then 4 else if code = 8 then 5 else 6

/-- Whether an event is masked (R164). -/
def Core.masked (c : Core) (code : Nat) : Bool :=
  let cctrl := c.cr 1
  if code = 7 then fieldOf cctrl 1 1 = 0
  else if code = 8 then fieldOf cctrl 4 1 = 0
  else if code = 9 then fieldOf cctrl 2 1 = 0 || (c.voice && decide (fieldOf cctrl 3 1 = 0))
  else false

/-- The pending, unmasked event of highest priority, the lowest code first. -/
def Core.topEvent (c : Core) : Option Nat :=
  (List.range 10).foldl (fun best k =>
    if c.events.contains k ∧ ¬ c.masked k then
      match best with
      | none => some k
      | some b => if eventPriority k < eventPriority b then some k else best
    else best) none

/-- Whether the core takes an event at the boundary before its next bundle (R165). -/
def Core.takesEvent (c : Core) : Bool :=
  c.topEvent.isSome && (c.voice || decide (fieldOf (c.cr 0) 1 1 = 1)) && c.delay.isNone

end Sys2Proof.Machine
end

