-- ==== Sys2Proof/Machine/CoreMem.lean ====
section
/-! DEFINITION. Data memory of a voice core: the data address map, the parameter window, pointers and their windows, rounded reads,
and the eight memory operations (R152 to R157, R162, R178, R182 to R185, R202, R203). -/

namespace Sys2Proof.Machine

/-! ### Rounded reads (R178) -/

/-- What a rounded read is counted as. -/
inductive ReadCount where
  | plain | overflowed | saturated
deriving DecidableEq, Repr

/-- Rounds a 72-bit accumulator to `f` fraction bits dropped, to nearest, ties to even, clamped to `bits` bits. -/
def roundClamp (a : Int) (f bits : Nat) : Int × ReadCount :=
  let p : Int := (2 ^ f : Nat)
  let q := a / p
  let r := a - q * p
  let half : Int := (2 ^ (f - 1) : Nat)
  let q1 := if r > half ∨ (r = half ∧ q % 2 = 1) then q + 1 else q
  let hi : Int := (2 ^ (bits - 1) : Nat) - 1
  let lo : Int := - (2 ^ (bits - 1) : Nat)
  if q1 > hi then (hi, .saturated) else if q1 < lo then (lo, .saturated) else (q1, .plain)

/-- A rounded read of a value with its AV and direction bits, for Q1.31 or Q1.23. -/
def roundedRead (a : Int) (av neg q23 : Bool) : Word × ReadCount :=
  let f := if q23 then 40 else 32
  let bits := if q23 then 24 else 32
  let hi : Int := (2 ^ (bits - 1) : Nat) - 1
  let lo : Int := - (2 ^ (bits - 1) : Nat)
  let q := if av then (if neg then lo else hi, ReadCount.overflowed) else roundClamp a f bits
  (BitVec.ofInt 32 (q.1 * (2 ^ (f - 32) : Nat)), q.2)

/-- Counts a rounded read. -/
def State.countRead (s : State) (n : Nat) : ReadCount → State
  | .plain => s
  | .overflowed => s.ovfRead n
  | .saturated => s.satRead n

/-- A rounded read of ACk of a core as it stands. -/
def Core.rounded (c : Core) (k : Nat) (q23 : Bool) : Word × ReadCount :=
  roundedRead (c.accRd k).toInt (c.av k) (c.avDir k) q23

/-! ### Pointers (R183 to R185) -/

/-- The low `k` bits reversed. -/
def revBits : Nat → Nat → Nat
  | 0, _ => 0
  | k + 1, v => (v % 2) * 2 ^ k + revBits k (v / 2)

/-- A pointer after its update to `n`: brought into its window [b, b + l), or to b with CIRC_OOR (R183). -/
def rangeCheck (n b l : Int) : Word × Bool :=
  if n < b ∨ n ≥ b + l then (BitVec.ofInt 32 b, true) else (BitVec.ofInt 32 n, false)

/-- A post-modify by `d` (R183): the new pointer, and whether CIRC_OOR is set. -/
def postModify (p b l : Word) (d : Int) : Word × Bool :=
  if l = 0 then (BitVec.ofInt 32 (p.toNat + d), false)
  else
    let n : Int := p.toNat + d
    let b' : Int := b.toNat
    let l' : Int := l.toNat
    rangeCheck (if n ≥ b' + l' then n - l' else if n < b' then n + l' else n) b' l'

/-- A bit-reversed post-modify (R185). -/
def postBitRev (p b l m : Word) : Word × Bool :=
  if l = 0 then postModify p b l m.toInt
  else
    let k := Nat.log2 l.toNat
    let o := wrapTo k ((p.toNat : Int) - b.toNat)
    let r := revBits k ((revBits k o + revBits k (m.toNat % 2 ^ k)) % 2 ^ k)
    rangeCheck ((b.toNat : Int) + r) b.toNat l.toNat

/-- The access address of an addressing code, for an access of `size` bytes. -/
def accessAddr (p : Word) (am : Addressing) (size : Nat) : Word :=
  match am with
  | .offset k => if k.val = 4 then p - BitVec.ofNat 32 size else p + BitVec.ofNat 32 (k.val * size)
  | _ => p

/-- The pointer after an access, where the code modifies it. -/
def Core.pointerAfter (c : Core) (i : Nat) (am : Addressing) (size : Nat) : Option (Word × Bool) :=
  let p := c.rd (codeX .p i)
  let b := c.rd (codeX .b i)
  let l := c.rd (codeX .l i)
  match am with
  | .postM j => some (postModify p b l (c.rd (codeX .m j)).toInt)
  | .postInc => some (postModify p b l size)
  | .postDec => some (postModify p b l (-(size : Int)))
  | .bitRev => some (postBitRev p b l (c.rd (codeX .m i)))
  | .plain => none
  | .offset _ => none

/-! ### Frames -/

/-- A word of a frame. -/
def Frame.rd (f : Frame) (i : Nat) : Word :=
  match Sparse.get (fun _ => none) f.words i with
  | some v => v
  | none => if f.gen = 0 then 0 else (Config.freeValue (f.gen + i)).truncate 32

/-- A frame with a word written. -/
def Frame.wr (f : Frame) (i : Nat) (v : Word) : Frame := { f with words := Sparse.put (fun _ => none) f.words i (some v) }

/-- A frame with words from index `i`. -/
def Frame.fill (f : Frame) (i : Nat) : List Word → Frame
  | [] => f
  | w :: ws => (f.wr i w).fill (i + 1) ws

/-- Words `i` to `i + n - 1`. -/
def Frame.slice (f : Frame) (i n : Nat) : List Word := (List.range n).map (fun k => f.rd (i + k))

/-- The front frames. -/
def Core.front (c : Core) : TaskBuf := if c.frontA then c.bufA else c.bufB
/-- Siding slot 0: the back frames. -/
def Core.back (c : Core) : TaskBuf := if c.frontA then c.bufB else c.bufA
/-- Replaces the front frames. -/
def Core.setFront (c : Core) (b : TaskBuf) : Core := if c.frontA then { c with bufA := b } else { c with bufB := b }
/-- Replaces the back frames. -/
def Core.setBack (c : Core) (b : TaskBuf) : Core := if c.frontA then { c with bufB := b } else { c with bufA := b }

/-! ### Tasks by their number -/

/-- A task by its order of binding. -/
def State.taskOf (s : State) (id : Nat) : Option Task := s.sch.tasks.find? (fun t => decide (t.order = id))

/-- The dispatched task of a core. -/
def State.coreTask (s : State) (n : Nat) : Option Task := (s.core n).task.bind s.taskOf

/-- Class of a core's Concourse accesses (R294). -/
def State.coreCls (s : State) (n : Nat) : Cls := match s.coreTask n with
  | some t => t.cls
  | none => .normal

/-! ### Core memories (R153) -/

/-- One more corrected error of a core's memories (R153, R368). -/
def State.coreCe (s : State) (n sub : Nat) (inj : Bool) : State :=
  let s1 := (((s.pageErr (Page.vc0 + n)).raise (Page.vc0 + n) 6).logError (0x2000 + 0x100 * n) sub sub inj)
  let k := (s.core n).ceCount + 1
  let thr := s.fld Reg.SVC_POLICY 8 8
  let now := decide (thr ≠ 0 ∧ k = thr) && decide ((s.core n).svc = 2)
  s1.updCore n (fun c => { c with ceCount := k, retire := c.retire || now })

/-- An uncorrectable error of a core's memories: CORE_MEM_UE, and MEM_UE to the core (R153, R360). -/
def State.coreUe (s : State) (n sub : Nat) (inj : Bool) : State :=
  let s1 := (((s.pageErr (Page.vc0 + n)).raise (Page.vc0 + n) 7).logError (0x2001 + 0x100 * n) sub sub inj).coreEvent n 1
  s1.updCore n (fun c => { c with memUe := some (c.memUe.getD 0) })

/-- The check of a read of a core's program (0), X (1) or Y (2) memory: the state, and whether the word is uncorrectable. -/
def State.coreMemCheck (s : State) (n sub : Nat) (upset : Upset) : State × Bool :=
  let ue := s.check (Page.vc0 + n) 1 sub (decide (upset = .lost) || decide (upset = .rebuilt))
  if ue.hit then (ue.st.coreUe n sub ue.inj, true)
  else
    let ce := s.check (Page.vc0 + n) 0 sub (decide (upset = .single))
    if ce.hit then (ce.st.coreCe n sub ce.inj, false) else (s, false)

/-! ### The data address map (R154) and the parameter window (R101, R155, R233) -/

/-- Where a data address leads. -/
inductive Place where
  | front (i : Nat)
  | back (i : Nat)
  | con (a : Nat) (writable : Bool)
  | const (v : Word)
  | refused
deriving DecidableEq, Repr

/-- A stream status word (R233). -/
def StreamSnap.word (x : StreamSnap) (k : Nat) : Word :=
  if k = 0 then
    BitVec.ofNat 32 ((if x.active then 1 else 0) + (if x.stereo then 2 else 0) + (if x.ended then 4 else 0) +
      (if x.underrun then 8 else 0) + (if x.fault then 16 else 0) + (if x.clamped then 32 else 0) + x.obj % 2 ^ 16 * 2 ^ 16)
  else if k = 1 then BitVec.ofNat 32 x.cons
  else if k = 2 then BitVec.ofNat 32 x.filled
  else BitVec.ofNat 32 x.fin

/-- The place of a window word for the dispatched task. -/
def windowPlace (t : Task) (b : TaskBuf) (voice : Bool) (w : Nat) (write : Bool) : Place :=
  let ro := fun (p : Place) => if write then Place.refused else p
  if voice ∧ 0x100 ≤ w ∧ w < 0x200 then .refused
  else if 0x4000 ≤ w ∧ w < 0x8000 then ro (.con (0x00D40000 + 4 * (w - 0x4000)) false)
  else if t.kind = .bus then (if w < 0x2000 then ro (.const 0) else .refused)
  else if w < 0x300 then ro (.con (0x00800000 + 4096 * t.slot + 4 * w) false)
  else if w < 0x400 then .front (0x200 + (w - 0x300))
  else if w < 0x408 then .front (0x300 + (w - 0x400))
  else if w < 0x40C then ro (.const (b.snap0.word (w - 0x408)))
  else if w < 0x410 then ro (.const (b.snap1.word (w - 0x40C)))
  else if 0x1000 ≤ w ∧ w < 0x2000 then ro (.con (0x00C40000 + 16384 * t.part + 4 * (w - 0x1000)) false)
  else .refused

/-- The place of a data address, for an access of the X or the Y slot. -/
def State.place (s : State) (n : Nat) (slotY : Bool) (addr : Nat) (write : Bool) : Place :=
  let c := s.core n
  if addr < 0x4000 then .front (addr / 4)
  else if addr < 0x8000 then (if c.voice then .refused else .back ((addr - 0x4000) / 4))
  else if 0x20000 ≤ addr ∧ addr < 0x40000 then
    if slotY then .refused
    else match s.coreTask n with
      | some t => windowPlace t c.front c.voice ((addr - 0x20000) / 4) write
      | none => .refused
  else if 0x10000000 ≤ addr ∧ addr < 0x12000000 then
    if c.voice then .refused else .con (addr - 0x10000000) true
  else .refused

/-- A load of one word; `n` words from the Concourse are read as one access of 4 `k` bytes. Answers the state and the words. -/
def State.coreLoad (s : State) (n : Nat) (slotY : Bool) (addr k : Nat) (acc : Access) : State × List Word :=
  match s.place n slotY addr false with
  | .refused => (s.viol n 0 slotY addr, List.replicate k 0)
  | .const _ =>
    (s, (List.range k).map (fun i => match s.place n slotY (addr + 4 * i) false with
      | .const v => v
      | .front j => (s.core n).front.x.rd j
      | _ => 0))
  | .con a _ =>
    let s0 := (s.updCore n (fun c => c.evt 0x14 1)).stall n 0 acc.stall
    let x := s0.conReadWord n (s.coreCls n) a (4 * k) acc
    (match x.2 with
     | some bytes => (x.1, (List.range k).map (fun i => BitVec.ofNat 32 (leNat ((bytes.drop (4 * i)).take 4))))
     | none => (x.1.coreEvent n 1, List.replicate k 0))
  | .front j =>
    let f := if slotY then (s.core n).front.y else (s.core n).front.x
    let x := s.coreMemCheck n (if slotY then 2 else 1) acc.upset
    if x.2 ∨ (s.core n).fresh then
      let d := x.1.draw 64
      (d.2, (List.range k).map (fun i => BitVec.ofNat 32 (d.1 / 2 ^ (32 * i))))
    else (x.1, f.slice j k)
  | .back j =>
    let f := if slotY then (s.core n).back.y else (s.core n).back.x
    let x := s.coreMemCheck n (if slotY then 2 else 1) acc.upset
    if x.2 then
      let d := x.1.draw 64
      (d.2, (List.range k).map (fun i => BitVec.ofNat 32 (d.1 / 2 ^ (32 * i))))
    else (x.1, f.slice j k)

/-- A store of words. -/
def State.coreStore (s : State) (n : Nat) (slotY : Bool) (addr : Nat) (ws : List Word) (acc : Access) : State :=
  match s.place n slotY addr true with
  | .refused => s.viol n 1 slotY addr
  | .const _ => s.viol n 1 slotY addr
  | .con a writable =>
    if writable = false then s.viol n 1 slotY addr
    else
      let s0 := (s.updCore n (fun c => c.evt 0x14 1)).stall n 0 acc.stall
      let x := s0.conWriteWord n (s.coreCls n) a ((ws.map (fun w => leBytes 4 w.toNat)).flatten) acc
      if x.2 = .poisoned then x.1.coreEvent n 1 else x.1
  | .front j =>
    if (s.core n).front.frozen then s.viol n 3 slotY addr
    else
      let d := s.draw 64
      let free := (s.core n).fresh
      let vs := if free then (List.range ws.length).map (fun i => BitVec.ofNat 32 (d.1 / 2 ^ (32 * i))) else ws
      ((if free then d.2 else s).coreMemCheck n (if slotY then 2 else 1) acc.upset).1.updCore n (fun c =>
        let b := c.front
        c.setFront (if slotY then { b with y := b.y.fill j vs } else { b with x := b.x.fill j vs }))
  | .back j =>
    if (s.core n).back.frozen then s.viol n 3 slotY addr
    else
      (s.coreMemCheck n (if slotY then 2 else 1) acc.upset).1.updCore n (fun c =>
        let b := c.back
        c.setBack (if slotY then { b with y := b.y.fill j ws } else { b with x := b.x.fill j ws }))

/-! ### The memory operations (R202) -/

/-- Bytes of an access. -/
def memSize : MemKind → Nat
  | .ld2 => 8
  | .st2 => 8
  | _ => 4

/-- Whether an operation loads. -/
def memLoads : MemKind → Bool
  | .ld | .ld2 | .lda | .ldx => true
  | _ => false

/-- The register that LDX and STX name: REG [4:3] the file, [2:0] the index. -/
def regX (reg : Fin 32) : Nat := 32 + reg.val

/-- Adds a write in flight on a core. -/
def State.later (s : State) (n lat : Nat) (op : WriteOp) : State := s.updCore n (fun c => c.later lat op)

/-- One memory operation of core `n`, its predicate true. `c` is the core as the bundle read it. -/
def State.memOp (s : State) (n : Nat) (c : Core) (slotY : Bool) (o : MemOp) (acc : Access) : State :=
  let size := memSize o.kind
  let addr := (accessAddr (c.rd (codeX .p o.ptr)) o.am size).toNat / size * size
  let s1 := s.updCore n (fun d => d.evt (if memLoads o.kind then 0x0B else 0x0C) 1)
  let s2 := match o.kind with
    | .ld =>
      let x := s1.coreLoad n slotY addr 1 acc
      x.1.later n 2 (.reg (c.phys o.reg) (x.2.headD 0))
    | .ld2 =>
      let x := s1.coreLoad n slotY addr 2 acc
      (x.1.later n 2 (.reg (c.phys o.reg) (x.2.headD 0))).later n 2 (.reg (c.phys (o.reg.val + 1)) ((x.2[1]?).getD 0))
    | .lda =>
      let x := s1.coreLoad n slotY addr 1 acc
      x.1.later n 2 (.accPart (o.reg.val % 4) .p0 (x.2.headD 0))
    | .ldx =>
      let x := s1.coreLoad n slotY addr 1 acc
      x.1.later n 2 (.reg (regX o.reg) (x.2.headD 0))
    | .st => s1.coreStore n slotY addr [c.g o.reg] acc
    | .st2 => s1.coreStore n slotY addr [c.g o.reg, c.g (o.reg.val + 1)] acc
    | .stq =>
      let r := c.rounded (o.reg.val % 4) (decide (16 ≤ o.reg.val))
      (s1.countRead n r.2).coreStore n slotY addr [r.1] acc
    | .stx => s1.coreStore n slotY addr [c.rd (regX o.reg)] acc
  match c.pointerAfter o.ptr o.am size with
  | none => s2
  | some (p, oor) =>
    let s3 := s2.later n 1 (.reg (codeX .p o.ptr) p)
    if oor then
      let s4 := s3.updCore n (fun d => d.setCr 0 (setFieldOf (d.cr 0) 10 1 1))
      if fieldOf (c.cr 0) 10 1 = 1 then s4 else s4.raise (Page.vc0 + n) 5
    else s3

end Sys2Proof.Machine
end

