-- ==== Sys2Proof/Machine/CoreArith.lean ====
section
/-! DEFINITION. The arithmetic of a voice core: M-slot products and sums, resonators, the ALU, comparisons, the noise function and the
table weights (R173 to R177, R181, R199 to R201, R207, R208, R220, R221, R225). -/

namespace Sys2Proof.Machine

/-! ### The M slot -/

/-- The addend of two words (R173). -/
def addend (a b : Word) : Int := 2 * (a.toInt * b.toInt)

/-- An exact sum as an accumulator takes it: its value modulo 2^72, and its overflow direction, true for negative (R175). -/
def accWrap (v : Int) : BitVec 72 × Option Bool :=
  (BitVec.ofInt 72 v, if v ≥ 2 ^ 71 then some false else if v < - 2 ^ 71 then some true else none)

/-- The M-slot results of one execution: accumulator, exact sum, and whether AV is cleared first. -/
def mResults (c : Core) (o : MOp) (rep : Nat) : List (Nat × Int × Bool) :=
  let n := o.n.val
  let a := o.a.val
  let b := o.b.val
  let ad := fun i j => addend (c.g i) (c.g j)
  let old := fun k => (c.accNow k).toInt
  let re := ad a b - ad (a + 1) (b + 1)
  let im := ad a (b + 1) + ad (a + 1) b
  let dot := fun k => (List.range k).foldl (fun s i => s + ad (a + i) (b + i)) (0 : Int)
  match o.kind with
  | .nop => []
  | .mul => [(n, ad a b, true)]
  | .mac => [(n, old n + ad a b, false)]
  | .msc => [(n, old n - ad a b, false)]
  | .cmul => [(n, re, true), (n + 1, im, true)]
  | .cmac => [(n, old n + re, false), (n + 1, old (n + 1) + im, false)]
  | .cmsc => [(n, old n - re, false), (n + 1, old (n + 1) - im, false)]
  | .cmacj => [(n, old n + (ad a b + ad (a + 1) (b + 1)), false), (n + 1, old (n + 1) + (ad (a + 1) b - ad a (b + 1)), false)]
  | .dot2 => [(n, dot 2, true)]
  | .dot2a => [(n, old n + dot 2, false)]
  | .dot4 => [(n, dot 4, true)]
  | .dot4a => [(n, old n + dot 4, false)]
  | .cres0 | .cres =>
    let s' := 16 + (a - 16 + 2 * rep) % 16
    let q' := (b + 2 * rep) % 16
    let tr := ad q' s' - ad (q' + 1) (s' + 1)
    let ti := ad q' (s' + 1) + ad (q' + 1) s'
    if o.kind = .cres0 ∧ rep = 0 then [(n, tr, true), (n + 1, ti, true)]
    else [(n, old n + tr, false), (n + 1, old (n + 1) + ti, false)]

/-- The new resonator state of one execution of CRES or CRES0: register names and exact values (R201). -/
def cresState (c : Core) (o : MOp) (rep : Nat) : List (Nat × Int) :=
  match o.kind with
  | .cres0 | .cres =>
    let s' := 16 + (o.a.val - 16 + 2 * rep) % 16
    let q' := (o.b.val + 2 * rep) % 16
    let ad := fun i j => addend (c.g i) (c.g j)
    [(s', ad q' s' - ad (q' + 1) (s' + 1)), (s' + 1, ad q' (s' + 1) + ad (q' + 1) s')]
  | _ => []

/-- Whether an M operation is complex (R395, event 0x0A). -/
def mComplex (k : MKind) : Bool := decide (k ∈ [MKind.cmul, .cmac, .cmsc, .cmacj, .cres0, .cres])

/-- One execution of an M operation of core `n`, its predicate true; `c` is the core as the bundle read it. -/
def State.mOp (s : State) (n : Nat) (c : Core) (o : MOp) (rep : Nat) : State :=
  if o.kind = .nop then s
  else
    let s1 := s.updCore n (fun d => let e := d.evt 0x09 1; if mComplex o.kind then e.evt 0x0A 1 else e)
    let s2 := (mResults c o rep).foldl (fun t r =>
      let w := accWrap r.2.1
      t.later n 3 (.acc r.1 w.1 r.2.2 w.2)) s1
    (cresState c o rep).foldl (fun t r =>
      let w := roundedRead r.2 false false false
      (t.countRead n w.2).later n 3 (.reg (c.phys r.1) w.1)) s2

/-! ### The ALU (R181) -/

/-- An exact integer clamped to 32 bits, and whether it was clamped. -/
def sat32 (v : Int) : Word × Bool :=
  if v > 2 ^ 31 - 1 then (0x7FFFFFFF, true) else if v < - 2 ^ 31 then (0x80000000, true) else (BitVec.ofInt 32 v, false)

/-- A two-operand ALU result, and whether it saturated. -/
def aluResult (op : AluKind) (a b : Word) : Word × Bool :=
  let sh := b.toNat % 32
  match op with
  | .add => (a + b, false)
  | .sub => (a - b, false)
  | .adds => sat32 (a.toInt + b.toInt)
  | .subs => sat32 (a.toInt - b.toInt)
  | .and => (a &&& b, false)
  | .or => (a ||| b, false)
  | .xor => (a ^^^ b, false)
  | .lsl => (a <<< sh, false)
  | .lsr => (a >>> sh, false)
  | .asr => (a.sshiftRight sh, false)
  | .lsls => sat32 (a.toInt * 2 ^ sh)

/-- A condition of CMPcc. -/
def condHolds (cc : Cond) (a b : Word) : Bool :=
  match cc with
  | .eq => decide (a = b)
  | .ne => decide (a ≠ b)
  | .lt => decide (a.toInt < b.toInt)
  | .ge => decide (b.toInt ≤ a.toInt)
  | .ltu => decide (a.toNat < b.toNat)
  | .geu => decide (b.toNat ≤ a.toNat)

/-! ### Noise (R225) -/

/-- f of R225. -/
def noiseMix (x : Word) : Word :=
  let x1 := (x ^^^ (x >>> 16)) * 0x85ebca6b#32
  let x2 := (x1 ^^^ (x1 >>> 13)) * 0xc2b2ae35#32
  x2 ^^^ (x2 >>> 16)

/-- h of R225 over a list of words. -/
def noiseHash (ws : List Word) : Word := ws.foldl (fun x w => noiseMix (x ^^^ w)) 0x9e3779b9#32

/-- A 64-bit argument of h: two words, the low one first. -/
def lowHigh (n : Nat) : List Word := [BitVec.ofNat 32 n, BitVec.ofNat 32 (n / 2 ^ 32)]

/-! ### Interpolation weights (R221) -/

/-- A cubic weight: an exact numerator over 2 × 2^93, truncated toward −∞ to Q1.31; 1.0 becomes 0x7FFF_FFFF. -/
def cubicWeight (num : Int) : Word :=
  let v := num / (2 ^ 63 : Int)
  if v ≥ 2 ^ 31 then 0x7FFFFFFF else BitVec.ofInt 32 v

/-- The four Catmull–Rom weights for the fraction f (31 bits): x = f / 2^31, numerators in units of 2^-93 times 2. -/
def cubicWeights (f : Nat) : List Word :=
  let x : Int := f
  let o : Int := 2 ^ 31
  let x3 := x * x * x
  let x2 := x * x * o
  let x1 := x * o * o
  let one := o * o * o
  [cubicWeight (-x3 + 2 * x2 - x1), cubicWeight (3 * x3 - 5 * x2 + 2 * one), cubicWeight (-3 * x3 + 4 * x2 + x1), cubicWeight (x3 - x2)]

/-- The two linear weights. -/
def linearWeights (f : Nat) : List Word := [BitVec.ofNat 32 (0x7FFFFFFF - f), BitVec.ofNat 32 f]

end Sys2Proof.Machine
end

