-- ==== Sys2Proof/Machine/HostWrite.lean ====
section
/-! DEFINITION. The one way a register write goes: standby, boot, LOCK and the access codes (R4, R5, R403, R414, R423), and
then what the register's own rule does with it. -/

namespace Sys2Proof.Machine

/-- Pages whose writes are not performed in standby (R414): ING, VA, PS, MM, SCH, SPF, MIX, DEC, ORT, OQ, DAC, CON, DRC, STRM, NMID,
TDM and VC. -/
def standbyPage (p : Nat) : Bool :=
  decide (p ∈ [0x08, 0x09, 0x0A, 0x0B, 0x0C, 0x0D, 0x0E, 0x0F, 0x10, 0x11, 0x12, 0x13, 0x14, 0x18, 0x19, 0x1C]) || decide (0x20 ≤ p)

/-- Pages that host software may not write before DONE (R403): CON, DRC and VC. -/
def bootPage (p : Nat) : Bool := decide (p = 0x13) || decide (p = 0x14) || decide (0x20 ≤ p)

/-- PWR_STAT.STATE: 0 ACTIVE, 1 ENTERING, 2 STANDBY, 3 WAKING. -/
def State.powerState (s : State) : Nat := s.fld Reg.PWR_STAT 8 3

/-- BOOT_STAT.STATE: 0 INIT to 6 DONE. -/
def State.bootState (s : State) : Nat := s.fld Reg.BOOT_STAT 24 4

/-- Whether the PCIe endpoint and host SPI serve requests: from the end of INIT (R403), with the module neither held in POR nor shut
down by heat (R399, R419). -/
def State.serving (s : State) : Bool := decide (s.bootState ≠ 0) && !s.pwr.held && !s.pwr.thermalOff

/-- Whether a page is locked (R423). -/
def State.locked (s : State) (p : Nat) : Bool := s.bit (Reg.PAGE_CTRL p) 2

/-- The word a write puts into a register by its access codes (R4): RW bits as written, W1C and W1S bits cleared or set, all others
kept. WO bits are not stored. -/
def RegRow.store (r : RegRow) (old v : Word) : Word :=
  let o := old.toNat
  let n := v.toNat
  BitVec.ofNat 32 (((o ^^^ (o &&& r.rw)) ^^^ ((o &&& r.w1c) &&& n)) ||| (n &&& r.rw) ||| (n &&& r.w1s))

/-- The word as the register's rule sees it: under LOCK the RW bits are the register's own (R423). -/
def RegRow.lockedWord (r : RegRow) (old v : Word) : Word :=
  BitVec.ofNat 32 ((old.toNat &&& r.rw) ||| (v.toNat &&& (r.w1c ||| r.w1s ||| r.wo)))

/-- A write of `v` to the register at `off`. `act` is the register's rule: it gets the row, the old word and the word written. A write
that LOCK empties is not performed; one that would have changed a field is reported (R423). -/
def State.hostWrite (s : State) (by_ : Writer) (off : Nat) (v : Word) (act : State → RegRow → Word → Word → State) : State :=
  let p := off / 0x1000
  if by_ ≠ .image ∧ s.serving = false then s
  else if by_ ≠ .image ∧ standbyPage p ∧ (s.powerState = 2 ∨ s.powerState = 3) then s.bump Reg.PWR_STBY_REJ_CNT
  else if by_ ≠ .image ∧ bootPage p ∧ s.bootState ≠ 6 then s
  else match rowOf off with
    | none => s
    | some r =>
      let old := s.reg off
      if s.locked p ∧ r.exempt = false then
        let s1 := if (old.toNat ^^^ v.toNat) &&& r.rw ≠ 0 then s.pageErrFlag p 31 else s
        if r.w1c ||| r.w1s ||| r.wo = 0 then s1 else act s1 r old (r.lockedWord old v)
      else act s r old v

/-- The rule of a register that only stores (R4). -/
def storeAct (off : Nat) (s : State) (r : RegRow) (old v : Word) : State := s.setReg off (r.store old v)

/-- A refused configuration write of a page whose refusal flag is bit `b` of `statOff`, with a CFG_REJ flag in PAGE_ERR_STAT or not: the
flag is set and the refusal counted. -/
def State.refuseCfg (s : State) (statOff b p : Nat) : State := (s.setBit statOff b true).pageErr p

end Sys2Proof.Machine
end

