-- ==== Sys2Proof/Machine/SchedOps.lean ====
section
/-! DEFINITION. The Scheduler's shared operations: program sets, limits and the Express hold, placement, epochs, withdrawal, lost tasks,
shunts, and cores that leave or enter service (R129 to R145, R360, R365 to R368). -/

namespace Sys2Proof.Machine

/-! ### Program sets, limits, the hold -/

/-- The program set of a core (SCH_PSET0 to SCH_PSET4). -/
def State.psetOf (s : State) (n : Nat) : Nat := s.fld (Reg.SCH_PSET0 + 4 * (n / 8)) (4 * (n % 8)) 4

/-- The state with a core's program set replaced. -/
def State.setPset (s : State) (n v : Nat) : State := s.setFld (Reg.SCH_PSET0 + 4 * (n / 8)) (4 * (n % 8)) 4 v

/-- The program set of a task of a Part or, for `bus`, of a bus program. -/
def State.taskPset (s : State) (bus : Bool) (k : Nat) : Nat :=
  if bus then s.fld (Reg.SCH_BUS_CFG k) 4 4 else s.fld (Reg.SCH_PART_CFG k) 24 4

/-- In-service cores of a program set. -/
def State.coresOf (s : State) (pset : Nat) : List Nat := s.inService.filter (fun n => decide (s.psetOf n = pset))

/-- Whether every in-service core carries a program set (R129). -/
def State.sharedPset (s : State) (pset : Nat) : Bool := s.inService.all (fun n => decide (s.psetOf n = pset))

/-- The SCH_PART_CFGn that the last boundary step applied. -/
def State.partLimit (s : State) (p : Nat) : Nat :=
  max 1024 (fieldOf (Sparse.get (fun _ => 0x4000) s.sch.partApplied p) 0 24)

/-- LMAX in force (R137). -/
def State.lmax (s : State) : Nat := s.sch.lmaxApplied

/-- The effective limit L of a task (R134). -/
def State.limitOf (s : State) (bus : Bool) (k : Nat) (cls : Cls) : Nat :=
  let l := if bus then max 1024 (s.fld (Reg.SCH_BUS_LIM k) 0 24) else s.partLimit k
  if cls = .express then min l s.lmax else l

/-- X, the Express window of a core in CORE cycles. -/
def State.expWindow (s : State) : Nat := (s.blk - 3 * s.blk / 4) * 1000000000 / s.fs - 12000

/-- H for a reservation of `cyc` cycles, a limit `lmax` and `n` cores (R137); none where no core is in service. -/
def holdFor (cyc lmax n : Nat) : Option Nat :=
  if cyc = 0 then some 1000
  else if n = 0 then none
  else some ((cyc + n - 1) / n + lmax + 1000)

/-- The Express hold in force. -/
def State.hold (s : State) : Nat := s.fld Reg.SCH_HOLD 0 24

/-- The largest reservation that fits X with the present cores (R137). -/
def State.largestExp (s : State) (lmax : Nat) : Nat := s.inService.length * (s.expWindow - (lmax + 1000))

/-- Applies the written reservation, or the largest that fits; EXP_SHORT and SCHED_BUDGET_OVERRUN as R137 states. `fell` tells that
the number of cores has just fallen. -/
def State.applyHold (s : State) (fell : Bool) : State :=
  let cyc := s.fld Reg.SCH_EXP_CYCLES 0 24
  let lmax := max 1024 (s.fld Reg.SCH_EXP_CFG 0 24)
  let n := s.inService.length
  let fits : Bool := match holdFor cyc lmax n with
    | some h => decide (h ≤ s.expWindow) || decide (cyc = 0)
    | none => false
  let applied := if fits then cyc else min cyc (s.largestExp lmax)
  let h := (holdFor applied lmax n).getD 1000
  let was := s.bit Reg.SCH_STAT 1
  let s1 := ({ s with sch := { s.sch with expApplied := applied, lmaxApplied := lmax } }.setReg Reg.SCH_HOLD (BitVec.ofNat 32 h)).setBit
    Reg.SCH_STAT 1 (!fits)
  if ¬ fits ∧ (¬ was ∨ (fell ∧ applied < s.sch.expApplied)) then s1.raise Page.sch 1 else s1

/-! ### Service state of cores -/

/-- SCH_STAT.NCORE and SCH_CORE_BUSYn.INSVC follow the cores in service. -/
def State.showCores (s : State) : State :=
  let s1 := s.setFld Reg.SCH_STAT 8 6 s.inService.length
  (List.range 34).foldl (fun t n => t.setBit (Reg.SCH_CORE_BUSY n) 31 (decide ((t.core n).svc = 2))) s1

/-- Cores in the Roundhouse that are not being loaded, in ascending order. -/
def State.spares (s : State) : List Nat :=
  (List.range 34).filter (fun n => decide ((s.core n).svc = 1) && (s.core n).copyFrom.isNone && !(s.core n).held)

/-- SVC_RH follows the Roundhouse; SPARE_LOW is raised when the number of spares falls to SPARE_THR or below (R368). -/
def State.showSpares (s : State) (before : Nat) : State :=
  let l := s.spares
  let s1 := s.setReg Reg.SVC_RH (BitVec.ofNat 32 (min 3 l.length + 2 ^ 8 * ((l[0]?).getD 0x3F) + 2 ^ 16 * ((l[1]?).getD 0x3F)))
  if l.length < before ∧ l.length ≤ s.fld Reg.SVC_POLICY 24 4 then s1.raise Page.svc 2 else s1

/-- A core enters service at its reset vector, in Runtime mode with EIE 0 (R150, VC_RESET_VEC). -/
def State.enterService (s : State) (n : Nat) : State :=
  let s1 := s.updCore n (fun c =>
    { c with
      svc := 2, halted := false, pc := s.fld (Reg.VC_RESET_VEC n) 0 13, delay := none, rot := none, inflight := [], events := [],
      taking := none, task := none, tcyc := 0, aborted := none, memUe := none, recalled := none, ceCount := 0,
      tally := [0, 0, 0, 0], judged := false, retire := false, copyFrom := none, fresh := false
      crs := Sparse.put (fun _ => 0) c.crs 0 (BitVec.ofNat 32 ((c.cr 0).toNat / 4 * 4)) })
  s1.showCores

/-! ### Slots and bus programs by index: 0 to 1087 slots, 1088 + k bus program k -/

/-- The index of a task. -/
def Task.index (t : Task) : Nat := if t.kind = .bus then 1088 + t.slot else t.slot

/-- The placement epoch of an index (R144). -/
def State.epochOf (s : State) (x : Nat) : Nat :=
  if x < 1088 then (s.slot x).epoch else Sparse.get (fun _ => 0) s.sch.busEpoch (x - 1088)

/-- The placement epoch goes up by one, modulo 2^16. -/
def State.bumpEpoch (s : State) (x : Nat) : State :=
  if x < 1088 then s.updSlot x (fun v => { v with epoch := (v.epoch + 1) % 2 ^ 16 })
  else { s with sch := { s.sch with busEpoch := Sparse.upd (fun _ => 0) s.sch.busEpoch (x - 1088) (fun e => (e + 1) % 2 ^ 16) } }

/-- The placed core of an index. -/
def State.placedOf (s : State) (x : Nat) : Nat :=
  if x < 1088 then (s.slot x).placed else Sparse.get (fun _ => 0) s.sch.busPlaced (x - 1088)

/-- Replaces the placed core of an index. -/
def State.setPlaced (s : State) (x n : Nat) : State :=
  if x < 1088 then s.updSlot x (fun v => { v with placed := n })
  else { s with sch := { s.sch with busPlaced := Sparse.put (fun _ => 0) s.sch.busPlaced (x - 1088) n } }

/-- The program set of an index. -/
def State.indexPset (s : State) (x : Nat) : Nat :=
  if x < 1088 then s.taskPset false (s.slot x).part else s.taskPset true (x - 1088)

/-- The core of least SCH_CORE_AVG, the lowest number on a tie. -/
def State.leastBusy (s : State) (l : List Nat) : Option Nat :=
  l.foldl (fun best n => match best with
    | none => some n
    | some b => if s.fld (Reg.SCH_CORE_AVG n) 0 21 < s.fld (Reg.SCH_CORE_AVG b) 0 21 then some n else best) none

/-- The placed core of a new voice or bus program (R129). -/
def State.placeNew (s : State) (pset : Nat) : Nat := (s.leastBusy (s.coresOf pset)).getD 0

/-! ### Tasks -/

/-- Applies `f` to the tasks for which `p` holds. -/
def State.mapTasks (s : State) (p : Task → Bool) (f : Task → Task) : State :=
  { s with sch := { s.sch with tasks := s.sch.tasks.map (fun t => if p t then f t else t) } }

/-- Applies `f` to the task with a number. -/
def State.updTask (s : State) (id : Nat) (f : Task → Task) : State := s.mapTasks (fun t => decide (t.order = id)) f

/-- Whether a task can still run. -/
def Task.live (t : Task) : Bool := match t.phase with
  | .committed => false
  | .deferred => false
  | .dropped => false
  | .failed => false
  | _ => true

/-- Whether a task has been dispatched by a TAKE. -/
def Task.wasDispatched (t : Task) : Bool := match t.phase with
  | .dispatched _ => true
  | .yielded _ _ _ => true
  | .aborted _ => true
  | .failed => true
  | _ => false

/-- Whether a task waits on a Platform or in a Siding. -/
def Task.undispatched (t : Task) : Bool := match t.phase with
  | .bound => true
  | .staging _ _ => true
  | .staged _ _ => true
  | _ => false

/-- The sample of a task's deadline (R14, R15). -/
def State.deadlineSample (s : State) (t : Task) : Nat :=
  (t.bseq - 1) * s.blk + (if t.kind = .bus then s.blk / 5 else 0)

/-- Depth of a Platform for a class (SCH_PLAT_STAT). -/
def State.platDepth (s : State) (plat : Nat) (cls : Cls) : Nat :=
  (s.sch.tasks.filter (fun t => decide (t.phase = .bound) && decide (t.platform = plat) && decide (t.cls = cls))).length

/-- Adds a task to its Platform; the Platform's peak follows. -/
def State.pushTask (s : State) (t : Task) : State :=
  let s1 := { s with sch := { s.sch with tasks := s.sch.tasks ++ [{ t with order := s.sch.order }], order := s.sch.order + 1 } }
  let key := codeOfCls t.cls * 64 + t.platform
  { s1 with sch := { s1.sch with
    peaks := Sparse.upd (fun _ => 0) s1.sch.peaks key (fun p => max p (s1.platDepth t.platform t.cls)) } }

/-- Empties the Siding slots that hold a task. -/
def State.unstage (s : State) (id : Nat) : State :=
  (List.range 34).foldl (fun u n =>
    let c := u.core n
    let drop := fun (b : TaskBuf) => if b.task = some id then { b with task := none } else b
    if c.back.task = some id ∨ c.buf1.task = some id then
      u.setCore n { (c.setBack (drop c.back)) with buf1 := drop c.buf1 }
    else u) s

/-- Returns a staged task to its Platform (R132). -/
def State.withdrawStaged (s : State) (id : Nat) : State := (s.unstage id).updTask id (fun t => { t with phase := .bound })

/-- Takes a task away for good before its dispatch (R88, R136). -/
def State.dropTask (s : State) (id : Nat) : State := (s.unstage id).updTask id (fun t => { t with phase := .dropped })

/-- The task of an index for a block that can still run. -/
def State.liveTask (s : State) (x b : Nat) : Option Task :=
  s.sch.tasks.find? (fun t => decide (t.index = x) && decide (t.bseq = b) && t.live && !t.withdrawn)

/-- The Platform of an index (R129): its placed core's, or the shared one, 34. -/
def State.platformOf (s : State) (x : Nat) : Nat := if s.sharedPset (s.indexPset x) then 34 else s.placedOf x

/-- A SHUNT event, discarded while CCTRL.SHUNT_EN is 0 (R164). -/
def State.shuntEvent (s : State) (n : Nat) : State :=
  if fieldOf ((s.core n).cr 1) 1 1 = 1 then s.coreEvent n 7 else s

/-- A shunt of an index to core `b` (R145). -/
def State.shunt (s : State) (x b : Nat) : State :=
  let s1 := (((s.bumpEpoch x).setPlaced x b).bump Reg.SCH_SHUNT_CNT).count 447 1
  let s2 := { s1 with sch := { s1.sch with shuntNotify := (x, b) :: s1.sch.shuntNotify.filter (fun e => decide (e.1 ≠ x)) } }
  (s2.sch.tasks.filter (fun t => decide (t.index = x) && t.live && !t.withdrawn && decide (t.phase ≠ .aborted t.platform))).foldl
    (fun u t =>
      match t.phase with
      | .dispatched n =>
        let v := (u.shuntEvent n).updTask t.order (fun k => { k with withdrawn := true })
        v.pushTask { t with phase := .bound, platform := v.platformOf x, epoch := v.epochOf x, exclude := none, head := false }
      | .yielded _ _ _ =>
        let v := u.updTask t.order (fun k => { k with withdrawn := true })
        v.pushTask { t with phase := .bound, platform := v.platformOf x, epoch := v.epochOf x, exclude := none, head := false }
      | .aborted _ => u
      | _ => (u.unstage t.order).updTask t.order (fun k =>
          { k with phase := .bound, platform := u.platformOf x, epoch := u.epochOf x, exclude := none })) s2

/-- Judges a task's tally (R384): into its classes when the commit check passed, with Retired counted as Wasted otherwise. -/
def State.judge (s : State) (n : Nat) (tally : List Nat) (passed : Bool) : State :=
  let k := fun i => (tally[i]?).getD 0
  (((s.count (12 * n + 1) (if passed then k 0 else 0)).count (12 * n + 2) (k 1 + if passed then 0 else k 0)).count
    (12 * n + 3) (k 2)).count (12 * n + 4) (k 3)

/-- The tally of a core's dispatched task is judged as Wasted work; its later slots are Wasted as they occur. -/
def State.judgeCore (s : State) (n : Nat) : State :=
  let c := s.core n
  if c.task.isSome ∧ ¬ c.judged then
    (s.judge n c.tally false).updCore n (fun d => { d with judged := true, tally := [0, 0, 0, 0] })
  else s

/-- `k` cycles of a task between its TAKE and its YIELD or abort (R139, R148). -/
def State.spend (s : State) (n : Nat) (t : Task) (k : Nat) : State :=
  let add := fun (m : Map Nat) (i : Nat) => Sparse.upd (fun _ => 0) m i (· + k)
  let u1 := if t.cls = .express then s.sch.used else add s.sch.used (codeOfCls t.cls)
  let u2 := if t.cls = .express ∨ t.kind ≠ .bus then u1 else add u1 0
  State.count { s with sch := { s.sch with busy := add s.sch.busy n, used := u2 } } (427 + 6 * (3 - codeOfCls t.cls) + 4) k

/-- A slot is muted: it gets no further task, and leaves at the deadline of block `b` with reason `r` (R96, R142, R364). -/
def State.mute (s : State) (x b r : Nat) : State :=
  if x < 1088 then s.updSlot x (fun v => { v with muted := some b, reason := r }) else s

/-- The dispatched task of core `n` is aborted (R142). -/
def State.abortTask (s : State) (n : Nat) (inj : Bool) : State :=
  match s.coreTask n with
  | none => s
  | some t =>
    let c := s.core n
    let s1 := ((((s.judgeCore n).bump Reg.SCH_ABORT_CNT).count 446 1).raise Page.sch 2).logError 0x0C01 n t.index inj
    let s2 := (s1.spend n t (c.cycle - t.takeAt)).updTask t.order (fun k => { k with phase := .aborted n })
    let s3 := (s2.coreEvent n 5).updCore n (fun d => { d with aborted := some 0 })
    if t.kind = .bus then s3 else s3.mute t.index t.bseq 6

/-- A dispatched task is lost with its core (R143): a new epoch, and the task bound again with RERENDER at the head of its class on a
Platform that excludes the core. -/
def State.loseTask (s : State) (n id : Nat) : State :=
  match s.taskOf id with
  | none => s
  | some t =>
    let aborted : Bool := match t.phase with
      | .aborted _ => true
      | _ => false
    if t.withdrawn ∨ aborted then s.updTask id (fun k => { k with phase := .dropped })
    else
      let x := t.index
      let s1 := ((s.bumpEpoch x).updTask id (fun k => { k with phase := .dropped, withdrawn := true })).bump Reg.SCH_RERENDER_CNT
      let s2 := s1.count 449 1
      s2.pushTask { t with phase := .bound, rerender := true, epoch := s2.epochOf x, platform := s2.platformOf x, exclude := some n,
                           head := true }

/-- Every index placed on core `n` whose tasks have Platforms of their own goes to core `b` (R366, R367). -/
def State.shuntAll (s : State) (n b : Nat) : State :=
  let xs := (s.liveSlots.map (fun x => x.1)) ++ ((List.range 64).filter (fun k => s.bit (Reg.SCH_BUS_CFG k) 0)).map (fun k => 1088 + k)
  (xs.filter (fun x => decide (s.placedOf x = n))).foldl
    (fun u x => if u.sharedPset (u.indexPset x) then u.setPlaced x b else u.shunt x b) s

/-- A departed core's slots without a spare (R367). -/
def State.placeElsewhere (s : State) (n : Nat) : State :=
  match s.leastBusy (s.coresOf (s.psetOf n)) with
  | some b => s.shuntAll n b
  | none => s

/-- Core `n` leaves service, on the core-fault path or not (R143, R360, R366 to R368). -/
def State.coreLeaves (s : State) (n : Nat) (fault : Bool) : State :=
  let c := s.core n
  let s0 := s.judgeCore n
  let s1 := (s0.updCore n (fun d => { d with svc := 0, taking := none, task := none, tcyc := 0, aborted := none, memUe := none, recalled := none, retire := false })).showCores
  let held := [c.back.task, c.buf1.task].filterMap id
  let s2 := held.foldl (fun u id => u.withdrawStaged id) s1
  let s3 := s2.updCore n (fun d => d.setFront { d.front with task := none, frozen := false })
  let running := match c.task with
    | some id => [id]
    | none => []
  let lost := running ++ (s3.sch.tasks.filter (fun t => match t.phase with
    | .yielded m _ _ => decide (m = n)
    | _ => false)).map (fun t => t.order)
  let s4 := if fault then s3.raise (Page.vc0 + n) 0 else s3
  let s5 := s4.raise (Page.vc0 + n) 2
  let s6 := lost.foldl (fun u id => u.loseTask n id) s5
  let clearShunt := match s6.sch.shuntTarget with
    | some (_, b) => if b = n then { s6 with sch := { s6.sch with shuntTarget := none } }.setBit Reg.SCH_SHUNT_STAT 31 false else s6
    | none => s6
  let s7 := clearShunt.applyHold true
  let alone : State := { s7 with sch := { s7.sch with vacant := s7.sch.vacant ++ [n] } }
  if fault ∧ s.bit Reg.SVC_POLICY 0 = false then alone.placeElsewhere n
  else match s7.spares with
    | [] => alone.placeElsewhere n
    | k :: _ =>
      let before := s7.spares.length
      let s8 := ((s7.setPset k (s7.psetOf n)).updCore k (fun d => { d with copyFrom := some n })).showSpares before
      s8.shuntAll n k

/-- The core-fault path (R360). -/
def State.coreFault (s : State) (n : Nat) : State := if (s.core n).svc = 2 then s.coreLeaves n true else s

end Sys2Proof.Machine
end

