-- ==== Sys2Proof/Machine/Mix.lean ====
section
/-! DEFINITION. The Mix Engine: send snapshots, accepted and concealed contributions, level codes, the closing of sums, and the bus image
(R8, R84, R140, R141, R241 to R249, R266). -/

namespace Sys2Proof.Machine

/-! ### Concourse accesses of a system master: poisoned words read as 0 (R364) -/

/-- Reads `n` words; a poisoned one reads 0. -/
def State.devRead (s : State) (master : Nat) (cls : Cls) (a n : Nat) : State × List Word :=
  let r := s.devReadWords master cls a n
  (r.1, r.2.map (fun w => w.getD 0))

/-- Writes bytes that lie in whole 16-byte words, or in part of one, word by word; `fuel` bounds the words. -/
def State.devStore (s : State) (master : Nat) (cls : Cls) (a : Nat) (data : List Byte) : Nat → State
  | 0 => s
  | fuel + 1 =>
    if data.isEmpty then s
    else
      let n := 16 - a % 16
      ((s.conWriteWord master cls a (data.take n) Access.quiet).1).devStore master cls (a + n) (data.drop n) fuel

/-- Writes 32-bit words. -/
def State.devWrite (s : State) (master : Nat) (cls : Cls) (a : Nat) (ws : List Word) : State :=
  s.devStore master cls a ((ws.map (fun w => leBytes 4 w.toNat)).flatten) (ws.length + 1)

/-! ### Send snapshots (R244 to R246) -/

/-- Output-buffer address of an index (R241). -/
def outBuffer (x : Nat) : Nat := 0x01880000 + 2048 * x

/-- Channels of a result (R242), as the last boundary step applied them. -/
def State.channels (s : State) (t : Task) : Nat :=
  fieldOf (Sparse.get (fun _ => 0) s.mix.nchApplied (if t.kind = .bus then 64 + t.slot else t.part)) 0 2 + 1

/-- The base-2 logarithm of B × OS. -/
def State.logN (s : State) : Nat := Nat.log2 s.rendered

/-- The ramp of one send of a task at its binding: value and step (R245). -/
def State.sendRamp (s : State) (t : Task) (i : Nat) (w : Word) : State × (Int × Int) :=
  let word := fieldOf w 0 8
  if fieldOf w 9 1 = 1 then (s, (2 ^ 30, 0))
  else if t.kind = .bus then
    let r := s.devRead 35 t.cls (0x00D40000 + 4 * word) 1
    let g := (r.2.headD 0).toInt
    (match Sparse.get (fun _ => Option.none) s.mix.lastGain (16 * t.slot + i) with
     | some p => (r.1, (p.toInt, (g - p.toInt) / (2 ^ s.logN : Nat)))
     | none => (r.1, (g, 0)))
  else
    let r := s.devRead 35 t.cls (0x00800000 + 4096 * t.slot + 4 * (0x100 + 2 * (word % 128))) 2
    (r.1, ((r.2.headD 0).toInt, ((r.2[1]?).getD 0).toInt))

/-- The gain that a bus program's send used, for the next binding. -/
def State.keepGain (s : State) (t : Task) (i : Nat) (w : Word) : State :=
  if t.kind ≠ .bus then s
  else
    let g := if fieldOf w 31 1 = 0 then Option.none
      else if fieldOf w 9 1 = 1 then some (0x40000000 : Word)
      else some (s.conWord (0x00D40000 + 4 * fieldOf w 0 8))
    { s with mix := { s.mix with lastGain := Sparse.put (fun _ => Option.none) s.mix.lastGain (16 * t.slot + i) g } }

/-- In a fade the gain is held at the value of the send's ramp in the fade's first block (R246). -/
def State.heldGain (s : State) (t : Task) (i : Nat) (v : Int) : State × Int :=
  let key := 16 * t.index + i
  if t.fadeBlk = 0 then
    ({ s with mix := { s.mix with fadeHold := Sparse.put (fun _ => Option.none) s.mix.fadeHold key (some v) } }, v)
  else (s, (Sparse.get (fun _ => Option.none) s.mix.fadeHold key).getD v)

/-- The sends of a snapshot, from send `i` on. -/
def State.takeSends (s : State) (t : Task) (nch i : Nat) : List Word → State × List SendSnap
  | [] => (s, [])
  | w :: ws =>
    let on := decide (fieldOf w 31 1 = 1)
    let r := if on then s.sendRamp t i w else (s, (0, 0))
    let h := if on ∧ t.fade then
        let k := r.1.heldGain t i r.2.1
        (k.1, (k.2, (0 : Int)))
      else r
    let rest := (h.1.keepGain t i w).takeSends t nch (i + 1) ws
    if on ∧ fieldOf w 28 2 < nch then
      (rest.1, { ch := fieldOf w 28 2, bus := fieldOf w 16 7, value := h.2.1, step := h.2.2 } :: rest.2)
    else rest

/-- The snapshot of one block of an index. -/
def State.snapOf (s : State) (x b : Nat) : Option MixSnap :=
  s.mix.snaps.find? (fun m => decide (m.index = x) && decide (m.bseq = b))

/-- The send snapshot at the original binding of a block; a block that is bound again keeps its first one (R245). -/
def State.sendSnapshot (s : State) (t : Task) : State :=
  if (s.snapOf t.index t.bseq).isSome then s
  else
    let nch := s.channels t
    let entry := if t.kind = .bus then 64 + t.slot else t.part
    let r := s.devRead 35 t.cls (0x00E60000 + 0x2000 * s.mix.smapCur + 64 * entry) 16
    let k := r.1.takeSends t nch 0 r.2
    let snap : MixSnap :=
      { index := t.index, bseq := t.bseq, nch := nch, sends := k.2, fadeBlk := if t.fade then some t.fadeBlk else Option.none,
        fadeLen := t.fadeLen + 1, cls := t.cls }
    { k.1 with mix := { k.1.mix with snaps := k.1.mix.snaps ++ [snap] } }

/-! ### Contributions (R8, R140, R141, R243) -/

/-- The level code of a peak (R243): the largest L up to 255 with (p / 2^31)^40 × 10^L at most 1. -/
def levelCode (p : Nat) : Nat :=
  if p = 0 then 255 else ((List.range 255).filter (fun l => decide (p ^ 40 * 10 ^ (l + 1) ≤ 2 ^ 1240))).length

/-- The channels of an output buffer, `n` of them. -/
def State.readOutput (s : State) (cls : Cls) (x n : Nat) : State × List (List Word) :=
  (List.range n).foldl (fun r c =>
    let k := r.1.devRead 35 cls (outBuffer x + 512 * c) s.rendered
    (k.1, r.2 ++ [k.2])) (s, [])

/-- The fade of a snapshot. -/
def MixSnap.fade (m : MixSnap) : Option (Nat × Nat) := m.fadeBlk.map (fun b => (b, m.fadeLen))

/-- Adds a contribution, unless the Mix Engine has stopped adding (R266). -/
def State.addTerm (s : State) (t : MixTerm) : State :=
  match s.mix.stopFrom with
  | some b => if b < t.bseq then s else { s with mix := { s.mix with terms := s.mix.terms ++ [t] } }
  | none => { s with mix := { s.mix with terms := s.mix.terms ++ [t] } }

/-- The Mix Engine accepts a committed result (R8, R141, R242, R243): the state and the level code. -/
def State.accept (s : State) (t : Task) : State × Nat :=
  let x := t.index
  let m := (s.snapOf x t.bseq).getD
    { index := x, bseq := t.bseq, nch := s.channels t, sends := [], fadeBlk := Option.none, fadeLen := 1, cls := t.cls }
  let r := s.readOutput t.cls x m.nch
  let start := if Sparse.get (fun _ => 0) s.mix.concealed x ≠ 0 then some 0
    else Sparse.get (fun _ => Option.none) s.mix.resumeJ x
  let after := match start with
    | some j => if j + s.rendered < 32 then some (j + s.rendered) else Option.none
    | none => Option.none
  let s1 := (r.1.bump Reg.MIX_ACCEPT_CNT).count 469 1
  let s2 := { s1 with mix := { s1.mix with
    resumeJ := Sparse.put (fun _ => Option.none) s1.mix.resumeJ x after
    concealed := Sparse.put (fun _ => 0) s1.mix.concealed x 0
    committed := if s1.mix.committed.contains x then s1.mix.committed else x :: s1.mix.committed } }
  let peak := (r.2.flatten).foldl (fun p w => max p w.toInt.natAbs) 0
  (s2.addTerm { index := x, bseq := t.bseq, bus := decide (t.kind = .bus), sends := m.sends, data := r.2, fade := m.fade, conceal := Option.none,
                resume := start }, levelCode peak)

/-- The Mix Engine conceals a block of an index, under the block's own send snapshot (R140, R245): it replays the last committed block,
or silence. -/
def State.conceal (s : State) (x b : Nat) : State :=
  let snap := s.snapOf x b
  let start := Sparse.get (fun _ => 0) s.mix.concealed x
  let s1 := s.count 471 1
  let s2 := { s1 with mix := { s1.mix with
    resumeJ := Sparse.put (fun _ => Option.none) s1.mix.resumeJ x Option.none
    concealed := Sparse.put (fun _ => 0) s1.mix.concealed x (start + s.rendered) } }
  match snap with
  | none => s2
  | some m =>
    if s.mix.committed.contains x ∧ start < 32 then
      let r := s2.readOutput m.cls x m.nch
      r.1.addTerm { index := x, bseq := b, bus := decide (1088 ≤ x), sends := m.sends, data := r.2, fade := m.fade, conceal := some start,
                    resume := Option.none }
    else s2

/-- An index has no committed block any more: it holds a new voice or fade. -/
def State.forgetOutput (s : State) (x : Nat) : State :=
  { s with mix := { s.mix with
    committed := s.mix.committed.filter (fun y => decide (y ≠ x))
    resumeJ := Sparse.put (fun _ => Option.none) s.mix.resumeJ x Option.none
    concealed := Sparse.put (fun _ => 0) s.mix.concealed x 0 } }

/-! ### Sums (R246 to R249, R266) -/

/-- The factor w of R246 at rendered sample `j` of a block of `n` samples, as a fraction. -/
def MixTerm.factor (t : MixTerm) (stop : Bool) (n j : Nat) : Nat × Nat :=
  let mul := fun (a b : Nat × Nat) => (a.1 * b.1, a.2 * b.2)
  let f := match t.fade with
    | some (blk, len) => (len * n - (blk * n + j + 1), len * n)
    | none => (1, 1)
  let c := match t.conceal with
    | some j0 => (32 - (j0 + j + 1), 32)
    | none => (1, 1)
  let r := match t.resume with
    | some j0 => (min 32 (j0 + j + 1), 32)
    | none => (1, 1)
  mul (mul (mul f c) r) (if stop then (31 - j, 32) else (1, 1))

/-- What one contribution adds to a bus at rendered sample `j`: the sum over its sends to that bus. -/
def MixTerm.at (t : MixTerm) (stop : Bool) (n bus j : Nat) : Int :=
  let w := t.factor stop n j
  t.sends.foldl (fun a d =>
    if d.bus = bus then
      let x := (((t.data[d.ch]?).getD [])[j]?).getD 0
      a + (x.toInt * (d.value + j * d.step) * w.1) / (2 ^ 22 * w.2 : Nat)
    else a) 0

/-- The sums of a block over contributions, added to `base`. -/
def sumTerms (base : Map Int) (terms : List MixTerm) (stop : Bool) (n : Nat) : Map Int :=
  terms.foldl (fun m t =>
    ((t.sends.map (fun d => d.bus)).eraseDups).foldl (fun m b =>
      (List.range n).foldl (fun m j => Sparse.upd (fun _ => 0) m (128 * b + j) (· + t.at stop n b j)) m) m) base

/-- Rounding of a closed sum (R249), and whether it saturated. -/
def roundSum (v : Int) : Word × Bool :=
  let r := roundClamp v 8 32
  (BitVec.ofInt 32 r.1, decide (r.2 = .saturated))

/-- Counts saturated samples. -/
def State.countSat (s : State) (n : Nat) : State := (s.bumpBy Reg.MIX_SAT_CNT n).count 472 n

/-- Voice sums of block `b` close, and the bus image is written (R247, R248). -/
def State.closeVoice (s : State) (b : Nat) : State :=
  let n := s.rendered
  let sums := sumTerms [] (s.mix.terms.filter (fun t => decide (t.bseq = b) && !t.bus)) (decide (s.mix.stopFrom = some b)) n
  let s1 := { s with mix := { s.mix with
    voiceSum := sums, voiceBlock := some b, terms := s.mix.terms.filter (fun t => !(decide (t.bseq = b) && !t.bus)) } }
  (List.range 128).foldl (fun u bus =>
    let q := (List.range n).map (fun j => roundSum (Sparse.get (fun _ => 0) sums (128 * bus + j)))
    (u.devWrite 35 .normal (0x00E64000 + 512 * bus) (q.map (fun x => x.1))).countSat (q.filter (fun x => x.2)).length) s1

/-- Final sums of block `b` close (R247, R249). Snapshots of earlier blocks are no longer needed. -/
def State.closeFinal (s : State) (b : Nat) : State :=
  let n := s.rendered
  let base := if s.mix.voiceBlock = some b then s.mix.voiceSum else []
  let sums := sumTerms base (s.mix.terms.filter (fun t => decide (t.bseq = b) && t.bus)) (decide (s.mix.stopFrom = some b)) n
  let q : List (Nat × (Word × Bool)) := sums.map (fun e => (e.1, roundSum e.2))
  let final : Map Word := q.map (fun e => (e.1, e.2.1))
  let saturated := (q.filter (fun e => e.2.2)).length
  let t : State := { s with mix := { s.mix with
    final := final, finalBlock := some b
    terms := s.mix.terms.filter (fun t => decide (b < t.bseq))
    snaps := s.mix.snaps.filter (fun m => decide (b ≤ m.bseq)) } }
  t.countSat saturated

end Sys2Proof.Machine
end

