-- ==== Sys2Proof/Machine/Decimate.lean ====
section
/-! DEFINITION. The Decimation Engine: filters, coefficient sets and their cross-fades, DC blockers, capture and monitor channels (R250 to
R257, R267), and the commands on its registers. -/

namespace Sys2Proof.Machine

/-! ### The filter (R251 to R253) -/

/-- A coefficient. -/
def State.coef (s : State) (set i : Nat) : Int :=
  match Sparse.get (fun _ => Option.none) s.dec.coef (64 * set + i) with
  | some v => v.toInt
  | none => (Config.resetTap set i).toInt

/-- The tap count of a set (DEC_TAPS). -/
def State.taps (s : State) (set : Nat) : Nat := min 64 (max 1 (s.fld Reg.DEC_TAPS (8 * set) 7))

/-- The coefficients of a set, up to its tap count. -/
def State.coefs (s : State) (set : Nat) : List Int := (List.range (s.taps set)).map (s.coef set)

/-- S(m) of R251 over a history, newest first. -/
def firSum (h : List Int) (x : List Word) : Int := (h.zip x).foldl (fun a e => a + e.1 * e.2.toInt) 0

/-- A history with a sample put in front. -/
def FirState.push (f : FirState) (w : Word) : FirState :=
  let l := (w :: f.x).take 64
  { x := if l.all (fun v => decide (v = 0)) then [] else l }

/-- The coefficients of the sets that apply to a group of channels: in use, and faded from. -/
structure SetPair where
  cur : List Int
  old : List Int
  xf : Option CrossFade

/-- The sets for bus channels. -/
def State.busSets (s : State) : SetPair :=
  { cur := s.coefs s.dec.busSet, old := (s.dec.busXf.map (fun x => s.coefs x.old)).getD [], xf := s.dec.busXf }

/-- The sets for capture channels. -/
def State.capSets (s : State) : SetPair :=
  { cur := s.coefs s.dec.capSet, old := (s.dec.capXf.map (fun x => s.coefs x.old)).getD [], xf := s.dec.capXf }

/-- Output sample number `t` from a history: the word, and whether it saturated (R251, R253). -/
def SetPair.output (p : SetPair) (t : Nat) (x : List Word) : Word × Bool :=
  let sum := match p.xf with
    | none => firSum p.cur x
    | some f =>
      if t < f.start then firSum p.old x
      else if t - f.start < 64 then
        let k : Int := (t - f.start : Nat)
        ((63 - k) * firSum p.old x + (k + 1) * firSum p.cur x) / 64
      else firSum p.cur x
  let r := roundClamp sum 23 32
  (BitVec.ofInt 32 r.1, decide (r.2 = .saturated))

/-- The factor of R267, in 32nds, for output sample `t`. -/
def stopFactor (start : Option Nat) (t : Nat) : Nat :=
  match start with
  | none => 32
  | some a => if t < a then 32 else 31 - (t - a)

/-- A sample multiplied by a number of 32nds, truncated toward −∞. -/
def scale32 (w : Word) (k : Nat) : Word := if k = 32 then w else BitVec.ofInt 32 (w.toInt * k / 32)

/-! ### DC blockers (R254) -/

/-- The coefficient c for a corner and a rate, as unsigned Q0.32. -/
def dcbCoef (fs corner : Nat) : Nat :=
  let l := if fs = 44100 then [611886, 1223684, 3058556, 6114934]
    else if fs = 48000 then [562173, 1124273, 2810130, 5618421]
    else if fs = 88200 then [305954, 611886, 1529550, 3058556]
    else [281096, 562173, 1405295, 2810130]
  (l[corner]?).getD 0

/-- One sample through a DC blocker: the output and the new state. -/
def dcbStep (c : Nat) (freeze : Bool) (d : BitVec 64) (x : Word) : Word × BitVec 64 :=
  let y := (sat32 (x.toInt - d.toInt / 2 ^ 32)).1
  (y, if freeze then d else BitVec.ofInt 64 (d.toInt + y.toInt * c))

/-! ### Bus channels -/

/-- What the bus channels of a block share. -/
structure BusRun where
  sets : SetPair
  os : Nat
  blk : Nat
  first : Nat                 -- number of the block's first output sample
  c : Nat
  freeze : Bool
  stop : Option Nat

/-- Output samples `m`, `m + 1`, … of a bus channel: its filter, its DC blocker when it has one, and the outputs with the saturations. -/
def BusRun.run (r : BusRun) (input : Nat → Word) (h : FirState) (d : Option (BitVec 64)) (m : Nat) :
    Nat → FirState × Option (BitVec 64) × List Word × Nat
  | 0 => (h, d, [], 0)
  | k + 1 =>
    let h1 := if r.os = 2 then (h.push (input (2 * m))).push (input (2 * m + 1)) else h
    let o := if r.os = 2 then r.sets.output (r.first + m) h1.x else (input m, false)
    let y := match d with
      | some v => dcbStep r.c r.freeze v o.1
      | none => (o.1, 0)
    let rest := r.run input h1 (d.map (fun _ => y.2)) (m + 1) k
    (rest.1, rest.2.1, scale32 y.1 (stopFactor r.stop (r.first + m)) :: rest.2.2.1, rest.2.2.2 + if o.2 then 1 else 0)

/-- One bus channel of a block. -/
def State.decimateBus (s : State) (r : BusRun) (bus : Nat) : State :=
  let en := fieldOf (Sparse.get (fun _ => 0) s.dec.dcbEn (bus / 32)) (bus % 32) 1 = 1
  let d := if en then some (Sparse.get (fun _ => 0) s.dec.dcb bus) else Option.none
  let x := r.run (fun j => Sparse.get (fun _ => 0) s.mix.final (128 * bus + j)) (Sparse.get (fun _ => FirState.reset) s.dec.busHist bus) d 0
    r.blk
  let out := (List.range r.blk).foldl (fun m j => Sparse.put (fun _ => 0) m (64 * bus + j) ((x.2.2.1[j]?).getD 0)) s.dec.out
  { s with dec := { s.dec with
    busHist := Sparse.put (fun _ => FirState.reset) s.dec.busHist bus x.1
    dcb := Sparse.put (fun _ => 0) s.dec.dcb bus (x.2.1.getD 0)
    out := out } }.bumpBy Reg.DEC_SAT_CNT x.2.2.2

/-- The Decimation Engine filters every bus channel of block `n` and holds the outputs (R250 to R254). -/
def State.decimate (s : State) (n : Nat) : State :=
  let first := n * s.blk
  let sel := s.fld Reg.DEC_CTRL 0 1
  let d0 := s.dec
  let d1 := if sel = d0.busSet then
      (match d0.busXf with
       | some x => if x.start + 64 ≤ first then { d0 with busXf := Option.none } else d0
       | none => d0)
    else { d0 with busSet := sel, busXf := some { start := first, old := d0.busSet } }
  let en := (List.range 4).foldl (fun m i => Sparse.put (fun _ => 0) m i (s.reg (Reg.DEC_DCB_EN0 + 4 * i))) []
  let s1 := { s with dec := { d1 with out := [], outBlock := some n, dcbEn := en } }.setBit Reg.DEC_STAT 0 d1.busXf.isSome
  let run : BusRun :=
    { sets := s1.busSets, os := s.os, blk := s.blk, first := first, c := dcbCoef s.fs (s.fld Reg.DEC_DCB_CFG 0 2),
      freeze := s.bit Reg.DEC_DCB_CFG 8, stop := s.dec.stopBus }
  let s2 := (List.range 128).foldl (fun u b => u.decimateBus run b) s1
  (s2.count 473 128).count 474 (if s.os = 2 then 128 * s.blk * (if d1.busXf.isSome then 2 else 1) else 128 * (s.blk / 4))

/-! ### Capture channels (R255) -/

/-- Address of sample `t` of a capture channel. -/
def State.captureAddr (s : State) (k t : Nat) : Nat := 0x00E74000 + 1024 * k + 256 * (t / s.blk % 4) + 4 * (t % s.blk)

/-- Writes sample `t` of capture channel `k`. -/
def State.writeCapture (s : State) (k t : Nat) (w : Word) : State :=
  let s1 := (s.devWrite 36 .normal (s.captureAddr k t) [scale32 w (stopFactor s.dec.stopCap t)]).count 475 1
  { s1 with dec := { s1.dec with capSeen := (k, t) :: s1.dec.capSeen } }

/-- A port's sample for output sample `t` reaches capture channel `k`; `second` is the second of the two samples of a source at
twice Fs. -/
def State.captureInto (s : State) (k t : Nat) (second : Bool) (w : Word) : State :=
  let late := decide (t / s.blk + 1 < s.period) || s.dec.capSeen.contains (k, t)
  let h := Sparse.get (fun _ => FirState.reset) s.dec.capHist k
  if s.bit (Reg.DEC_CAP_SRC k) 30 then
    if second = false then
      { s with dec := { s.dec with capHalf := Sparse.put (fun _ => Option.none) s.dec.capHalf k (some w) } }
    else
      let a := (Sparse.get (fun _ => Option.none) s.dec.capHalf k).getD 0
      let h1 := (h.push a).push w
      let s1 := { s with dec := { s.dec with
        capHalf := Sparse.put (fun _ => Option.none) s.dec.capHalf k Option.none
        capHist := Sparse.put (fun _ => FirState.reset) s.dec.capHist k h1 } }
      if late then s1
      else
        let o := s1.capSets.output t h1.x
        (if o.2 then s1.bump Reg.DEC_SAT_CNT else s1).writeCapture k t o.1
  else if late then s
  else s.writeCapture k t w

/-- A port delivers one input sample: port 0 TDM, 1 NETA, 2 NETB, 3 PCIe, and its receive channel. -/
def State.portSample (s : State) (port ch t : Nat) (second : Bool) (w : Word) : State :=
  (List.range 128).foldl (fun u k =>
    let src := u.reg (Reg.DEC_CAP_SRC k)
    if fieldOf src 31 1 = 1 ∧ fieldOf src 8 2 = port ∧ fieldOf src 0 8 = ch then u.captureInto k t second w else u) s

/-- Capture block `m` closes: a sample not delivered is written as 0 and counted; a disabled channel captures zeros. -/
def State.captureClose (s : State) (m : Nat) : State :=
  let times := (List.range s.blk).map (fun j => m * s.blk + j)
  let s1 := (List.range 128).foldl (fun u k =>
    let on := u.bit (Reg.DEC_CAP_SRC k) 31
    let missing := times.filter (fun t => !(u.dec.capSeen.contains (k, t)))
    let v := missing.foldl (fun v t => v.devWrite 36 .normal (v.captureAddr k t) [0]) u
    if on then (v.bumpBy Reg.DEC_CAP_MISS_CNT missing.length).count 476 missing.length else v) s
  { s1 with dec := { s1.dec with capSeen := s1.dec.capSeen.filter (fun e => decide (m < e.2 / s.blk)) } }

/-- A change of CAP_SET takes effect with the captures of the period that starts (R253). -/
def State.captureSets (s : State) : State :=
  let first := s.period * s.blk
  let sel := s.fld Reg.DEC_CTRL 1 1
  let d := if sel = s.dec.capSet then
      (match s.dec.capXf with
       | some x => if x.start + 64 ≤ first then { s.dec with capXf := Option.none } else s.dec
       | none => s.dec)
    else { s.dec with capSet := sel, capXf := some { start := first, old := s.dec.capSet } }
  { s with dec := d }.setBit Reg.DEC_STAT 1 d.capXf.isSome

/-- The words of capture block `m` of channel `k`; a poisoned one reads 0 (R364). -/
def State.readCapture (s : State) (cls : Cls) (master k m : Nat) : State × List Word :=
  s.devRead master cls (0x00E74000 + 1024 * k + 256 * (m % 4)) s.blk

/-! ### Monitor channels (R256, R257) -/

/-- One comb of delay `l`: the output and the delay line. -/
def comb (l : Nat) (d : List Word) (v : Word) : Word × List Word :=
  (v - (d[l - 1]?).getD 0, (v :: d).take l)

/-- A converter sample enters a channel's cascade; the sum S when it is the eighth. -/
def MonitorChan.push (m : MonitorChan) (l : Nat) (x : BitVec 12) : MonitorChan × Option Word :=
  let i1 := m.i1 + x.signExtend 32
  let i2 := m.i2 + i1
  let i3 := m.i3 + i2
  let c1 := comb l m.d1 i3
  let c2 := comb l m.d2 c1.1
  let c3 := comb l m.d3 c2.1
  let m1 := { m with i1 := i1, i2 := i2, i3 := i3, d1 := c1.2, d2 := c2.2, d3 := c3.2, phase := (m.phase + 1) % 8 }
  if m.phase = 7 then (m1, some c3.1) else (m1, Option.none)

/-- A monitor channel. -/
def State.monitor (s : State) (c : Nat) : MonitorChan := Sparse.get (fun _ => MonitorChan.reset) s.dec.mon c

/-- Replaces a monitor channel. -/
def State.setMonitor (s : State) (c : Nat) (m : MonitorChan) : State :=
  { s with dec := { s.dec with mon := Sparse.put (fun _ => MonitorChan.reset) s.dec.mon c m } }

/-- A change of LEN takes effect at a monitor output slot: every cascade is cleared. -/
def State.monitorLength (s : State) : State :=
  let len := s.fld Reg.DEC_MON_CFG 0 6
  if len = s.dec.monLen then s
  else
    let t := { s with dec := { s.dec with monLen := len } }
    (List.range 8).foldl (fun u c =>
      u.setMonitor c { MonitorChan.reset with phase := (u.monitor c).phase, settling := (3 * len + 7) / 8 }) t

/-- A converter sample of DAC channel `c`: the state and, every eighth time, the output word and whether it is settling. -/
def State.monitorSample (s : State) (c : Nat) (x : BitVec 12) : State × Option (Word × Bool) :=
  let s1 := if (s.monitor c).phase = 7 then s.monitorLength else s
  let l := s1.dec.monLen + 1
  let r := (s1.monitor c).push l x
  match r.2 with
  | none => (s1.setMonitor c r.1, Option.none)
  | some sum =>
    if s1.pageOn Page.dec = false then (s1.setMonitor c r.1, Option.none)
    else
      let w : Word := BitVec.ofInt 32 (sum.toInt * 2 ^ 20 / (l ^ 3 : Nat))
      let settling := decide (0 < r.1.settling)
      let s2 := s1.setMonitor c { r.1 with settling := r.1.settling - 1, outputs := r.1.outputs + 1 }
      ((s2.setReg (Reg.DEC_MON_DATA c) w).setBit Reg.DEC_MON_STAT c settling, some (w, settling))

/-! ### Register rules (R252, R253, R255) -/

/-- Whether a coefficient set is selected or in a cross-fade. -/
def State.setInUse (s : State) (set : Nat) : Bool :=
  decide (set = s.fld Reg.DEC_CTRL 0 1) || decide (set = s.fld Reg.DEC_CTRL 1 1) || decide (set = s.dec.busSet) || decide (set = s.dec.capSet) ||
    (match s.dec.busXf with
     | some x => decide (x.old = set)
     | none => false) ||
    (match s.dec.capXf with
     | some x => decide (x.old = set)
     | none => false)

/-- A refused write of the DEC page. -/
def State.refuseDec (s : State) : State := (s.setBit Reg.DEC_STAT 31 true).pageErrFlag Page.dec 0

/-- DEC_COEF_DATA. -/
def actCoefData (s : State) (_ : RegRow) (_ v : Word) : State :=
  let set := s.fld Reg.DEC_COEF_ADDR 8 1
  let tap := s.fld Reg.DEC_COEF_ADDR 0 6
  if s.setInUse set then s.refuseDec
  else
    { s with dec := { s.dec with
      coef := Sparse.put (fun _ => Option.none) s.dec.coef (64 * set + tap) (some (v.truncate 24)) } }.setFld Reg.DEC_COEF_ADDR 0 6 (tap + 1)

/-- DEC_TAPS. -/
def actTaps (s : State) (r : RegRow) (old v : Word) : State :=
  if (List.range 2).any (fun k => decide (fieldOf v (8 * k) 7 ≠ fieldOf old (8 * k) 7) && s.setInUse k) then s.refuseDec
  else s.setReg Reg.DEC_TAPS (r.store old v)

/-- DEC_CAPk_SRC. -/
def actCapSrc (k : Nat) (s : State) (r : RegRow) (old v : Word) : State :=
  if fieldOf v 30 1 = 1 ∧ s.rate2x then s.refuseDec else s.setReg (Reg.DEC_CAP_SRC k) (r.store old v)

/-- COEF_WRITE (R252). -/
def execCoefWrite (path : Path) (v : Word) (s : State) : Host.Outcome State Fault Refusal :=
  .next (s.hostWrite (.host path) Reg.DEC_COEF_DATA v actCoefData)

/-- TAPS_WRITE (R252). -/
def execTapsWrite (path : Path) (v : Word) (s : State) : Host.Outcome State Fault Refusal :=
  .next (s.hostWrite (.host path) Reg.DEC_TAPS v actTaps)

/-- BUS_SET_CHANGE (R253): a write of DEC_CTRL; the bus channels follow at the next block computed. -/
def execBusSetChange (path : Path) (v : Word) (s : State) : Host.Outcome State Fault Refusal :=
  .next (s.hostWrite (.host path) Reg.DEC_CTRL v (storeAct Reg.DEC_CTRL))

/-- CAP_SET_CHANGE (R253): a write of DEC_CTRL; the capture channels follow at the next block. -/
def execCapSetChange (path : Path) (v : Word) (s : State) : Host.Outcome State Fault Refusal :=
  .next (s.hostWrite (.host path) Reg.DEC_CTRL v (storeAct Reg.DEC_CTRL))

/-- MONITOR_LENGTH_WRITE (R257): a write of DEC_MON_CFG; it takes effect at the next monitor output slot. -/
def execMonitorLengthWrite (path : Path) (v : Word) (s : State) : Host.Outcome State Fault Refusal :=
  .next (s.hostWrite (.host path) Reg.DEC_MON_CFG v (storeAct Reg.DEC_MON_CFG))

/-- CAPTURE_SOURCE_WRITE (R255). -/
def execCaptureSourceWrite (path : Path) (k : Fin 128) (v : Word) (s : State) : Host.Outcome State Fault Refusal :=
  .next (s.hostWrite (.host path) (Reg.DEC_CAP_SRC k) v (actCapSrc k))

/-- CAPTURE_SAMPLE (R255): a port's input sample for output sample `t` of media time arrives while media time runs. -/
def execCaptureSample (port : Fin 4) (ch : Fin 256) (t : BitVec 56) (second : Bool) (w : Word) (s : State) :
    Host.Outcome State Fault Refusal :=
  .next (if s.running then s.portSample port ch t.toNat second w else s)

/-- FINAL_SUM_CLOSE (R15, R247, R250): after the bus-task deadline of period t, the final sums of block t + 1 close and its bus channels
are decimated. -/
def execFinalSumClose (s : State) : Host.Outcome State Fault Refusal :=
  let p := s.period
  if s.running = false ∨ s.clk.finalSumDone = p + 1 ∨ s.clk.busDeadlineDone ≠ p + 1 then .next s
  else
    let s1 := s.closeFinal (p + 1)
    let s2 := if s1.mix.stopFrom = some (p + 1) then State.idle { s1 with mix := { s1.mix with stopFrom := some 0 } } Page.mix else s1
    let s3 := s2.decimate (p + 1)
    .next { s3 with clk := { s3.clk with finalSumDone := p + 1 } }

/-- VOICE_SUM_CLOSE (R15, R247, R248): after the voice deadline at the start of period t, the voice sums of block t + 1 close and the bus
image is written. -/
def execVoiceSumClose (s : State) : Host.Outcome State Fault Refusal :=
  let p := s.period
  if s.running = false ∨ s.clk.voiceSumDone = p + 1 ∨ s.clk.deadlineDone ≠ p + 1 then .next s
  else
    let s1 := s.closeVoice (p + 1)
    .next { s1 with clk := { s1.clk with voiceSumDone := p + 1 } }

end Sys2Proof.Machine
end

