-- ==== Sys2Proof/Machine/Queues.lean ====
section
/-! DEFINITION. The Output Router and the output queues, and their commands (R259 to R265, R268). -/

namespace Sys2Proof.Machine

/-- The queue numbers (R261). -/
def queueNumbers : List Nat := List.range 5 ++ (List.range 40).map (fun i => 8 + i)

/-- D of a queue. -/
def State.depth (s : State) (q : Nat) : Nat := s.fld (Reg.OQ_Q_CFG q) 4 3 + 1

/-- Channels of a queue. -/
def State.queueChannels (s : State) (q : Nat) : Nat := s.fld (Reg.OQ_Q_CFG q) 16 8 + 1

/-- OQ_QqSTAT.PRIMED and LEVEL follow a queue. -/
def State.showQueue (s : State) (q : Nat) : State :=
  let x := s.queue q
  (s.setBit (Reg.OQ_Q_STAT q) 4 x.primed).setFld (Reg.OQ_Q_STAT q) 0 4 (x.blocks.length + if x.cur.isSome then 1 else 0)

/-- Replaces a queue, with its status. -/
def State.putQueue (s : State) (q : Nat) (x : Queue) : State := (s.setQueue q x).showQueue q

/-! ### The router (R259, R260, R268) -/

/-- The entries of a queue's channels in the map in force. -/
def State.routerEntries (s : State) (q n : Nat) : State × List Nat :=
  let base := 0x00E94000 + 0x6000 * s.ort.mapCur + 512 * q
  let r := s.devRead 36 .normal base ((n + 1) / 2)
  (r.1, (List.range n).map (fun c => fieldOf ((r.2[c / 2]?).getD 0) (16 * (c % 2)) 16))

/-- One destination channel of block `n`. -/
def State.routeChannel (s : State) (n e : Nat) : State × List Word :=
  let zeros := List.replicate s.blk (0 : Word)
  let index := bitsOf e 0 7
  match bitsOf e 14 2 with
  | 1 =>
    (s, if s.dec.outBlock = some n then (List.range s.blk).map (fun j => Sparse.get (fun _ => 0) s.dec.out (64 * index + j)) else zeros)
  | 2 => if n < 3 then (s, zeros) else s.readCapture .normal 36 index (n - 3)
  | _ => (s, zeros)

/-- The router writes block `n` of one queue (R260). -/
def State.routeQueue (s : State) (n q : Nat) : State :=
  if s.bit (Reg.OQ_Q_CFG q) 0 = false then s
  else
    let es := s.routerEntries q (s.queueChannels q)
    let r := es.2.foldl (fun (a : State × List (List Word)) e =>
      let k := a.1.routeChannel n e
      (k.1, a.2 ++ [k.2])) (es.1, [])
    let x := r.1.queue q
    r.1.setQueue q { x with arriving := x.arriving ++ [(n, r.2)] }

/-- FRAME_BOUNDARY (R29, R250, R259, R260, R266 to R268): at ⌊0.25 × B⌋ samples into period t the held outputs of block t + 1 are released
and the router writes it into every enabled queue. The first block rendered is two periods after the start of media time; none before
it is written. -/
def execFrameBoundary (s : State) : Host.Outcome State Fault Refusal :=
  let p := s.period
  if s.running = false ∨ s.run = false ∨ s.offset ≠ s.blk / 4 ∨ s.clk.frameDone = p + 1 then .next s
  else
    let sel := s.fld Reg.ORT_CTRL 0 1
    let s1 := { s with ort := { s.ort with mapCur := sel }, clk := { s.clk with frameDone := p + 1 } }.setFld Reg.ORT_STAT 0 1 sel
    let s2 := if s.clk.startPeriod + 1 ≤ p ∧ (s1.pageOn Page.ort ∨ s1.ort.stopping) then queueNumbers.foldl (fun u q => u.routeQueue (p + 1) q) s1 else s1
    let s3 := if s1.ort.stopping then { s2 with ort := { s2.ort with stopping := false } }.idle Page.ort else s2
    .next s3

/-! ### Arrivals (R262, R264) -/

/-- The sample at which a queue starts to release block `n`. -/
def State.queueRelease (s : State) (q n : Nat) : Nat := (n + s.depth q - 1) * s.blk

/-- A block completes in a queue: late, dropped as newest, or present. -/
def State.blockArrives (s : State) (q n : Nat) (data : List (List Word)) : State :=
  let lateR := decide (s.queueRelease q n < s.sample)
  let late := s.detect Page.oq 2 q q lateR
  if late.hit then ((late.st.bump Reg.OQ_LATE_CNT).setBit (Reg.OQ_Q_STAT q) 29 true).count 480 1
  else
    let x := late.st.queue q
    let excess := late.st.detect Page.oq 1 q q (decide (late.st.depth q ≤ x.blocks.length))
    if excess.hit then
      (((excess.st.bump Reg.OQ_OVERRUN_CNT).setBit (Reg.OQ_Q_STAT q) 30 true).count 479 1).raise Page.oq 1
    else excess.st.putQueue q { x with blocks := x.blocks ++ [(n, data)] }

/-- QUEUE_BLOCK_ARRIVAL (R262, R264): the oldest block on its way to queue `q` completes in the MEDIA domain. -/
def execQueueBlockArrival (q : Fin 48) (s : State) : Host.Outcome State Fault Refusal :=
  let x := s.queue q
  match x.arriving with
  | [] => .next s
  | (n, data) :: rest => .next ((s.setQueue q { x with arriving := rest }).blockArrives q n data)

/-! ### Release (R10, R262, R263, R265) -/

/-- The start of a release period for a queue: activation, then the block of the period, or an underrun. -/
def State.queueStart (s : State) (q : Nat) : State :=
  let x0 := s.queue q
  let on := s.bit (Reg.OQ_Q_CFG q) 0 && s.pageOn Page.oq
  let x := if on ∧ ¬ x0.active ∧ ¬ x0.stopping then { x0 with active := true } else x0
  if x.active = false ∨ x.stopping then s.setQueue q x
  else
    let p1 := s.period + 1
    let d := s.depth q
    let found := if p1 < d then Option.none else x.blocks.find? (fun b => decide (b.1 = p1 - d))
    let later := x.blocks.filter (fun b => decide (p1 < b.1 + d))
    let k := if x.primed ∧ ¬ x.draining then s.detect Page.oq 0 q q found.isNone else { st := s, hit := found.isNone, inj := false }
    if k.hit then
      if x.primed = false then k.st.putQueue q { x with blocks := later }
      else
        let y := { x with
          blocks := later, cur := Option.none, rise := Option.none, under := true, fade := if x.under then x.fade else some 0 }
        if x.draining then k.st.putQueue q y
        else
          let s1 := ((k.st.bump Reg.OQ_UNDERRUN_CNT).setBit (Reg.OQ_Q_STAT q) 31 true).count 478 1
          (if s1.pageOn Page.ort then s1.raise Page.oq 0 else s1).putQueue q y
    else
      (k.st.count 477 1).putQueue q
        { x with
          blocks := later, cur := found, primed := true, under := false
          rise := if x.primed ∧ x.under then some 0 else x.rise }

/-- The output sample of a queue (R263): the block released, its recovery factor, and any fade-out. -/
def Queue.samples (x : Queue) (o b nch : Nat) : List Word :=
  (List.range nch).map (fun c =>
    let at_ := fun (l : List (List Word)) (i : Nat) => (((((l[c]?).getD [])[i]?).getD 0 : Word).toInt)
    let block := match x.cur with
      | some e => (match x.rise with
        | some j => at_ e.2 o * ((j + 1 : Nat) : Int) / 32
        | none => at_ e.2 o)
      | none => 0
    let fade := match x.fade with
      | some i => at_ x.last (i % b) * ((31 - i : Nat) : Int) / 32
      | none => 0
    (sat32 (block + fade)).1)

/-- One sample of a queue: what it hands out, and how it goes on. -/
def State.queueSample (s : State) (q : Nat) : State :=
  let o := s.offset
  let s1 := if o = 0 then s.queueStart q else s
  let x := s1.queue q
  if x = Queue.reset then s1
  else
    let b := s.blk
    let whole := decide (o + 1 = b)
    let fade := match x.fade with
      | some i => if i + 1 < 32 then some (i + 1) else Option.none
      | none => Option.none
    let rise := match x.rise with
      | some j => if j + 1 < 31 then some (j + 1) else Option.none
      | none => Option.none
    let y := { x with
      outV := x.samples o b (s.queueChannels q), outValid := x.cur.isSome || x.fade.isSome, fade := fade, rise := rise
      last := if whole then (match x.cur with
        | some e => e.2
        | none => x.last) else x.last
      cur := if whole then Option.none else x.cur }
    let done := y.fade.isNone && (y.stopping || (y.draining && y.under && y.blocks.isEmpty))
    let z := if done then
        { y with primed := false, active := y.active && !y.stopping, stopping := false, blocks := [], under := false, last := [] }
      else y
    s1.putQueue q z

/-- A queue's EN is cleared: it releases nothing further and plays its fade-out (R265). -/
def State.stopQueue (s : State) (q : Nat) : State :=
  let x := s.queue q
  if x.active = false then s.setQueue q { x with arriving := [], blocks := [] }
  else
    let fade := if x.primed ∧ ¬ x.under then some 0 else x.fade
    s.putQueue q { x with
      stopping := true, arriving := [], blocks := [], cur := Option.none, rise := Option.none, fade := fade, under := true }

/-- Whether a queue has faded for a stop of media time (R28). -/
def State.queueFaded (s : State) (q : Nat) : Bool :=
  let x := s.queue q
  !x.primed && x.fade.isNone && x.cur.isNone

/-- OQ_QqCFG (R261, R265). -/
def actOqCfg (q : Nat) (s : State) (r : RegRow) (old v : Word) : State :=
  let changed := decide (fieldOf v 4 3 ≠ fieldOf old 4 3 ∨ fieldOf v 16 8 ≠ fieldOf old 16 8)
  if fieldOf old 0 1 = 1 ∧ changed then s.refuseCfg Reg.OQ_STAT 31 Page.oq
  else
    let s1 := s.setReg (Reg.OQ_Q_CFG q) (r.store old v)
    if fieldOf old 0 1 = 1 ∧ fieldOf v 0 1 = 0 then s1.stopQueue q else s1

/-- QUEUE_ENABLE (R265): OQ_QqCFG with EN set; the queue becomes active at the next block boundary. -/
def execQueueEnable (path : Path) (q : Fin 48) (v : Word) (s : State) : Host.Outcome State Fault Refusal :=
  .next (s.hostWrite (.host path) (Reg.OQ_Q_CFG q) (setFieldOf v 0 1 1) (actOqCfg q))

/-- QUEUE_DISABLE (R265): OQ_QqCFG with EN clear. -/
def execQueueDisable (path : Path) (q : Fin 48) (v : Word) (s : State) : Host.Outcome State Fault Refusal :=
  .next (s.hostWrite (.host path) (Reg.OQ_Q_CFG q) (setFieldOf v 0 1 0) (actOqCfg q))

end Sys2Proof.Machine
end

