-- ==== Sys2Proof/Machine/Sine.lean ====
section
/-! DEFINITION. The quarter-wave sine table and its interpolation (R121, R281). -/

namespace Sys2Proof.Machine

/-- π × 2^100, truncated. -/
def piScaled : Nat := 3982441812995697363688351113952

/-- The terms of the sine series from index `k` on, at scale 2^100: `t` is the magnitude of the term before, `th` the angle. -/
def sineTerms (th : Nat) : Nat → Nat → Nat → Int
  | 0, _, _ => 0
  | fuel + 1, k, t =>
    let u : Nat := t * th / 2 ^ 100 * th / 2 ^ 100 / ((2 * k) * (2 * k + 1))
    (if k % 2 = 1 then -(u : Int) else u) + sineTerms th fuel (k + 1) u

/-- Entry `i` of the table: round(2^31 × sin(2π i / 4096)) for i up to 1023, and 0x7FFF_FFFF at position 1024. -/
def sineEntry (i : Nat) : Int :=
  if 1024 ≤ i then 0x7FFFFFFF
  else
    let th := piScaled * i / 2048
    ((th + sineTerms th 23 1 th) / 2 ^ 68 + 1) / 2

/-- 2^20 times the sine of a 32-bit phase, exact. -/
def sineExact (phase : Nat) : Int :=
  let quadrant := bitsOf phase 30 2
  let p := bitsOf phase 0 30
  let q := if quadrant % 2 = 1 then 2 ^ 30 - p else p
  let a := sineEntry (q / 2 ^ 20)
  let b := sineEntry (min 1024 (q / 2 ^ 20 + 1))
  let v := a * 2 ^ 20 + (b - a) * ((q % 2 ^ 20 : Nat) : Int)
  if 2 ≤ quadrant then -v else v

/-- The sine of a phase in Q1.31, truncated toward −∞. -/
def sineOf (phase : Nat) : Int := sineExact phase / 2 ^ 20

end Sys2Proof.Machine
end

