-- ==== Sys2Proof/Machine/Dac.lean ====
section
/-! DEFINITION. The analog outputs and their commands (R269 to R289). -/

namespace Sys2Proof.Machine

/-! ### Channels -/

/-- A DAC channel. -/
def State.dacCh (s : State) (c : Nat) : DacChan := Sparse.get (fun _ => DacChan.reset) s.dac.chans c

/-- The code that DAC_CHc_STAT.STATE shows for a channel (R274). -/
def DacChan.code (x : DacChan) : Nat :=
  match x.st with
  | .clamp => 0
  | .clear => if x.seq.isSome then 3 else 1
  | .run => if x.seq.isSome then 3 else 2
  | .fault => if x.seq.isSome then 3 else 4

/-- Replaces a channel; its status bits STATE, MIRRORING and TONE_ON follow. -/
def State.setDacCh (s : State) (c : Nat) (x : DacChan) : State :=
  (((({ s with dac := { s.dac with chans := Sparse.put (fun _ => DacChan.reset) s.dac.chans c x } } : State).setFld
    (Reg.DAC_CH_STAT c) 0 3 x.code).setBit (Reg.DAC_CH_STAT c) 11 x.mirror.isSome).setBit (Reg.DAC_CH_STAT c) 12
    (decide (x.tone ≠ .off)))

/-- DAC_STAT.FSW follows the running filter sequences (R280). -/
def State.showFilterSwitch (s : State) : State :=
  s.setBit Reg.DAC_STAT 3 ((List.range 8).any (fun c =>
    match (s.dacCh c).seq with
    | some q => q.byFilter
    | none => false))

/-- The clear code of a channel as its register holds it, at the modulator input (R277). -/
def State.clearCode (s : State) (c : Nat) : Int := signedOf 16 (s.fld (Reg.DAC_CH_CLR c) 0 16) * 2 ^ 12

/-- Modulator cycles of one output sample. -/
def State.modCycles (s : State) : Nat := if s.rate2x then 64 else 128

/-- The conditions under which a channel may leave CLAMP (R275, R400). -/
def State.dacMayRun (s : State) (c : Nat) : Bool :=
  s.pageOn Page.dac && s.bit (Reg.DAC_CH_CFG c) 0 && s.bit Reg.CLK_MEDIA_STAT 7 && !s.bit (Reg.DAC_CH_STAT c) 9 &&
    !s.bit (Reg.DAC_CH_STAT c) 10 && s.bit Reg.PWR_STAT 1 &&
    (decide (s.powerState = 0) || (decide (s.powerState = 1) && s.running))

/-- The channel clamps at once; it takes the range and the filter mode of its registers (R280). -/
def State.clampNow (s : State) (c : Nat) : State :=
  let x := s.dacCh c
  (s.setDacCh c { x with
    st := .clamp, starting := 0, ramp := none, rampLevel := none, toClamp := false, seq := none, ignore := 0
    range := s.bit (Reg.DAC_CH_CFG c) 2, filt := s.bit Reg.DAC_CTRL 0, action := false, leave := false }).showFilterSwitch

/-- The modulator input that a channel formed last. -/
def DacChan.lastU (x : DacChan) : Int := (x.u.getLast?).getD x.clr

/-- A condition of R275 other than the media PLL, the over-current bits and AVDD has ceased to hold: the channel goes to CLAMP through
a clear ramp, which a channel in CLEAR does not start anew (R275, R289). -/
def State.dacRelease (s : State) (c : Nat) : State :=
  let x := s.dacCh c
  if x.st = .clamp ∨ x.toClamp then s
  else if x.seq.isNone ∧ x.st = .clear then
    if x.ramp.isSome then s.setDacCh c { x with toClamp := true } else s.clampNow c
  else if x.seq.isNone ∧ x.st = .run then s.setDacCh c { x with st := .clear, ramp := some 0, rampLevel := none, toClamp := true }
  else (s.setDacCh c { x with
    st := if x.st = .fault then .fault else .clear, ramp := some 0, rampLevel := some x.lastU, toClamp := true, seq := none
    ignore := 0 }).showFilterSwitch

/-- Holds a channel to the conditions of R275: a channel whose media PLL, over-current bits or AVDD fail clamps at once, another
goes through its ramp. -/
def State.dacConditions (s : State) (c : Nat) : State :=
  if s.dacMayRun c ∨ (s.dacCh c).st = .clamp then s
  else if s.bit Reg.CLK_MEDIA_STAT 7 = false ∨ s.bit (Reg.DAC_CH_STAT c) 9 ∨ s.bit (Reg.DAC_CH_STAT c) 10 ∨
      s.bit Reg.PWR_STAT 1 = false then s.clampNow c
  else s.dacRelease c

/-- Every channel is held to the conditions. -/
def State.dacAll (s : State) : State := (List.range 8).foldl (fun t c => t.dacConditions c) s

/-- Every channel that its page's disabling, a standby entry or EN takes out goes to CLAMP (R289, R413). -/
def State.dacReleaseAll (s : State) : State := (List.range 8).foldl (fun t c => t.dacRelease c) s

/-- Whether every channel is clamped (R289). -/
def State.dacClamped (s : State) : Bool := (List.range 8).all (fun c => decide ((s.dacCh c).st = .clamp))

/-! ### The modulator input (R271, R276 to R282) -/

/-- Whether a tone sounds. -/
def DacChan.sounding (x : DacChan) : Bool := decide (x.tone ≠ .off)

/-- The factor of the tone's fade in 64ths, at the output sample that is being formed. -/
def ToneFade.factor : ToneFade → Nat
  | .off => 0
  | .rise k => k + 1
  | .full => 64
  | .fall k => 63 - k

/-- The fade one output sample later. -/
def ToneFade.next : ToneFade → ToneFade
  | .off => .off
  | .rise k => if k + 1 < 64 then .rise (k + 1) else .full
  | .full => .full
  | .fall k => if k + 1 < 64 then .fall (k + 1) else .off

/-- The tone at a phase, scaled by AMP and its fade, in Q1.27 (R281, R282). -/
def toneAt (phase amp factor : Nat) : Int := sineOf phase * ((min amp 0x7FFF * factor : Nat) : Int) / 2 ^ 25

/-- Saturation at the modulator's limits, and whether it acted (R271). -/
def sat28 (v : Int) : Int × Bool :=
  if v > 2 ^ 27 - 1 then (2 ^ 27 - 1, true) else if v < -(2 ^ 27) then (-(2 ^ 27), true) else (v, false)

/-- `(a × (63 − k) + b × (k + 1)) / 64`, the cross-fade of R276, R279, R280 and R286 at sample `k`. -/
def fade64 (a b : Int) (k : Nat) : Int := (a * (63 - (k : Int)) + b * ((k : Int) + 1)) / 64

/-- The filtered data of a channel at a modulator cycle of the present output sample. -/
def State.filtered (s : State) (x : DacChan) (j : Nat) : Int := (Config.interpolated x.filt s.rate2x x.hist j).toInt

/-- The value a channel forms before the tone: filtered data, clear code or clear ramp (R274, R276). -/
def State.dacBase (s : State) (x : DacChan) (j : Nat) : Int :=
  match x.st, x.ramp with
  | .clamp, _ => x.clr
  | .run, _ => s.filtered x j
  | _, some k =>
    if 64 ≤ k then x.clr
    else
      fade64 (match x.rampLevel with
        | some v => v
        | none => s.filtered x j) x.clr k
  | _, none => x.clr

/-- The value with the tone, and whether it saturated (R282). -/
def State.dacToned (s : State) (c : Nat) (x : DacChan) (j : Nat) : Int × Bool :=
  let b := s.dacBase x j
  if x.sounding ∧ x.st ≠ .clamp ∧ (x.st ≠ .fault ∨ x.seq.isSome) then
    let inc := (s.reg (Reg.DAC_CH_TONE_INC c)).toNat
    let t := toneAt ((x.phase.toNat + inc * j) % 2 ^ 32) (s.fld (Reg.DAC_CH_TONE_CFG c) 0 16) x.tone.factor
    sat28 (if s.bit (Reg.DAC_CH_TONE_CFG c) 17 then t else b + t)
  else sat28 b

/-- The value under a switch sequence (R280). -/
def DacChan.switched (x : DacChan) (v : Int) : Int :=
  match x.seq with
  | none => v
  | some q =>
    if q.pos < 64 then fade64 v x.clr q.pos
    else if q.pos < 80 then x.clr
    else if q.pos < 144 then fade64 x.clr v (q.pos - 80)
    else v

/-- The modulator input of a channel at one cycle, and whether it saturated: a forced clear replaces it, and a ramp follows the
clear's release (R278, R279). -/
def State.dacInput (s : State) (c : Nat) (x : DacChan) (j : Nat) : Int × Bool :=
  let r := s.dacToned c x j
  let w := x.switched r.1
  if s.bit Reg.DAC_STAT 0 then (x.clr, false)
  else match s.dac.release with
    | some k => (if k < 64 then fade64 x.clr w k else w, r.2)
    | none => (w, r.2)

/-- Whether a channel's modulator input is its clear code throughout the output sample. -/
def State.dacQuiet (s : State) (x : DacChan) : Bool :=
  s.bit Reg.DAC_STAT 0 || decide (x.st = .clamp) ||
    (!x.sounding && (decide (x.st = .clear) || decide (x.st = .fault)) &&
      (match x.ramp with
       | some k => decide (64 ≤ k)
       | none => true))

/-- The modulator inputs of one output sample, and how many saturated. -/
def State.dacInputs (s : State) (c : Nat) (x : DacChan) : List Int × Nat :=
  if s.dacQuiet x then (List.replicate s.modCycles x.clr, 0)
  else
    let l := (List.range s.modCycles).map (fun j => s.dacInput c x j)
    (l.map (fun r => r.1), (l.filter (fun r => r.2)).length)

/-! ### One output sample of a channel (R269, R276, R277, R280, R282) -/

/-- What takes effect at an output sample boundary: MASK, clear code, tone requests, the end of FAULT, and a switch sequence that
a range or filter write asks for. -/
def State.dacApply (s : State) (c : Nat) (x : DacChan) : DacChan :=
  let x1 := { x with
    mask := s.bit (Reg.DAC_CH_CFG c) 1, clr := s.clearCode c, toneReq := none, leave := false
    st := if x.leave ∧ x.st = .fault ∧ x.toClamp = false then .clear else x.st
    ramp := if x.leave ∧ x.st = .fault ∧ x.toClamp = false then none else x.ramp
    tone := match x.toneReq with
      | some true => .rise 0
      | some false => if x.tone = .off then .off else .fall 0
      | none => x.tone
    phase := if x.toneReq = some true then 0 else x.phase }
  let range := s.bit (Reg.DAC_CH_CFG c) 2
  let filt := s.bit Reg.DAC_CTRL 0
  if x1.st = .clamp then { x1 with range := range, filt := filt }
  else if x1.seq.isNone ∧ x1.toClamp = false ∧ (range ≠ x1.range ∨ filt ≠ x1.filt) then
    { x1 with seq := some { pos := 0, range := range, filt := filt, byFilter := decide (filt ≠ x1.filt), changed := false } }
  else x1

/-- The input sample of a channel's filter: its own data, or its partner's under a mirroring cross-fade (R286, R287). -/
def DacChan.mixIn (x : DacChan) (own other : Int) : Int :=
  match x.mirror with
  | none => own
  | some m =>
    if m.back then (if m.k < 64 then fade64 other own m.k else own)
    else if m.k < 64 then fade64 own other m.k else other

/-- The channel's data decide between CLEAR and RUN (R276). -/
def DacChan.gate (x : DacChan) (data : Bool) : DacChan :=
  match x.st with
  | .clear => if data ∧ x.toClamp = false then { x with st := .run, ramp := none, rampLevel := none } else x
  | .run => if data then x else { x with st := .clear, ramp := some 0, rampLevel := none }
  | _ => x

/-- A channel's counters one output sample later. -/
def DacChan.advance (x : DacChan) (inc cycles ignored : Nat) : DacChan :=
  { x with
    ramp := x.ramp.map (fun k => min 64 (k + 1))
    seq := x.seq.map (fun q => { q with pos := min 144 (q.pos + 1) })
    ignore := match x.seq with
      | some q => if q.pos = 80 then ignored else x.ignore
      | none => x.ignore
    tone := x.tone.next
    phase := if x.sounding then x.phase + BitVec.ofNat 32 (inc * cycles) else x.phase
    mirror := match x.mirror with
      | some m => if m.back ∧ 64 ≤ m.k + 1 then none else some { m with k := min 64 (m.k + 1) }
      | none => none
    starting := if x.st = .clamp then x.starting + 1 else 0
    taken := 0 }

/-- DAC_SAMPLE (R269): channel `c` takes its sample of queue 0 and forms the modulator inputs of the output sample. -/
def State.dacSample (s : State) (c : Nat) : State :=
  let s1 := s.dacConditions c
  let x := s1.dacApply c (s1.dacCh c)
  let q := s1.queue 0
  let at_ := fun (n : Nat) => ((q.outV[n]?).getD (0 : Word)).toInt
  let source := match x.mirror with
    | some m => m.source
    | none => c
  let input : Word := BitVec.ofInt 32 (x.mixIn (at_ c) (at_ source))
  let y := ({ x with hist := (input :: x.hist).take 64 }).gate (q.outValid && !x.mask)
  let us := s1.dacInputs c y
  let z := { (y.advance (s1.reg (Reg.DAC_CH_TONE_INC c)).toNat s1.modCycles ((3 * s1.dec.monLen + 7) / 8)) with
    uOld := x.u, u := us.1, starting := if y.st = .clamp ∧ s1.dacMayRun c then y.starting + 1 else 0 }
  let s2 := if us.2 = 0 then s1
    else ((s1.bumpBy Reg.DAC_SAT_CNT us.2).count 504 us.2).setBit (Reg.DAC_CH_STAT c) 13 true
  let s3 := if s2.bit Reg.DAC_STAT 0 then s2.count 506 1 else s2
  let s4 := if y.sounding then s3.count 507 1 else s3
  s4.setDacCh c z

/-- The DAC samples of all eight channels at an output sample boundary. -/
def State.dacSamples (s : State) : State :=
  let t := ((List.range 8).foldl (fun u c => u.dacSample c) s).showFilterSwitch
  { t with dac := { t.dac with
      release := match t.dac.release with
        | some k => if t.bit Reg.DAC_STAT 0 ∨ 63 ≤ k then none else some (k + 1)
        | none => none } }

/-! ### Forced clears (R278, R279) -/

/-- OUTCLR_ACTIVE is raised and CLR_ACTIVE follows the pin, SWCLR and a heartbeat expiry's clear (R380); an assertion is counted,
and the release of the last of them starts the ramp. -/
def State.clearForced (s : State) (asserted : Bool) : State :=
  let on := s.bit Reg.DAC_STAT 1 || s.bit Reg.DAC_CTRL 4 || s.pwr.hbClear
  let was := s.bit Reg.DAC_STAT 0
  let t := (s.setBit Reg.DAC_STAT 0 on).raise Page.dac 2
  let t1 := if asserted then t.bump Reg.DAC_OUTCLR_CNT else t
  let release := if on then none else if was then some 0 else t1.dac.release
  { t1 with dac := { t1.dac with release := release } }

/-- OUTCLR_ASSERT (R278). -/
def execOutclrAssert (s : State) : Host.Outcome State Fault Refusal :=
  if s.bit Reg.DAC_STAT 1 ∨ s.pwr.vioA = false then .next s else .next ((s.setBit Reg.DAC_STAT 1 true).clearForced true)

/-- OUTCLR_RELEASE (R279). -/
def execOutclrRelease (s : State) : Host.Outcome State Fault Refusal :=
  if s.bit Reg.DAC_STAT 1 ∧ s.pwr.vioA then .next ((s.setBit Reg.DAC_STAT 1 false).clearForced false) else .next s

/-- SWCLR takes a value (R278). -/
def State.setSwclr (s : State) (v : Bool) : State :=
  if s.bit Reg.DAC_CTRL 4 = v then s else (s.setBit Reg.DAC_CTRL 4 v).clearForced v

/-! ### Register rules -/

/-- A refused write of the DAC page (R272, R280). -/
def State.dacRefuse (s : State) : State := (s.setBit Reg.DAC_STAT 31 true).pageErrFlag Page.dac 0

/-- DAC_CTRL (R278, R280). -/
def actDacCtrl (s : State) (_r : RegRow) (old v : Word) : State :=
  let changes := decide (fieldOf v 0 1 ≠ fieldOf old 0 1)
  if changes ∧ (List.range 8).any (fun c => decide ((s.dacCh c).code = 3)) then s.dacRefuse
  else
    let t := s.setFld Reg.DAC_CTRL 0 1 (fieldOf v 0 1)
    let t1 := (List.range 8).foldl (fun u c =>
      let x := u.dacCh c
      if x.st = .clamp ∧ changes then u.setDacCh c { x with filt := decide (fieldOf v 0 1 = 1) } else u) t
    t1.setSwclr (decide (fieldOf v 4 1 = 1))

/-- DAC_CHc_CFG (R272, R275, R280, R289). -/
def actDacCfg (c : Nat) (s : State) (r : RegRow) (old v : Word) : State :=
  let changes := decide (fieldOf v 2 1 ≠ fieldOf old 2 1)
  if changes ∧ ((fieldOf v 2 1 = 1 ∧ s.bit Reg.DAC_STAT 2 = false) ∨ (s.dacCh c).code = 3) then s.dacRefuse
  else
    let t := s.setReg (Reg.DAC_CH_CFG c) (r.store old v)
    let x := t.dacCh c
    let t1 := if x.st = .clamp ∧ changes then t.setDacCh c { x with range := decide (fieldOf v 2 1 = 1) } else t
    t1.dacConditions c

/-- DAC_CHc_TONE_CFG (R282). -/
def actDacTone (c : Nat) (s : State) (r : RegRow) (old v : Word) : State :=
  let t := s.setReg (Reg.DAC_CH_TONE_CFG c) (r.store old v)
  let x := t.dacCh c
  if fieldOf v 16 1 = fieldOf old 16 1 then t else t.setDacCh c { x with toneReq := some (decide (fieldOf v 16 1 = 1)) }

/-- The leaky count of a channel (R285). -/
def State.leaky (s : State) (c : Nat) : Nat := s.fld (Reg.DAC_CH_RB c) 0 8

/-- Sets the leaky count. -/
def State.setLeaky (s : State) (c n : Nat) : State := s.setFld (Reg.DAC_CH_RB c) 0 8 n

/-- A partner that mirrors channel `c` fades back to its own data (R287). -/
def State.unmirror (s : State) (c : Nat) : State :=
  (List.range 8).foldl (fun t p =>
    let x := t.dacCh p
    match x.mirror with
    | some m => if m.source = c ∧ m.back = false then t.setDacCh p { x with mirror := some { m with k := 0, back := true } } else t
    | none => t) s

/-- DAC_CHc_STAT (R287, R288): RB_FAULT cleared ends the read-back action; with both over-current bits clear the channel restarts. -/
def actDacStat (c : Nat) (s : State) (r : RegRow) (old v : Word) : State :=
  let t := s.setReg (Reg.DAC_CH_STAT c) (r.store old v)
  if fieldOf v 8 1 = 0 then t
  else
    let x := t.dacCh c
    ((t.setDacCh c { x with leave := decide (x.st = .fault), action := false, faultAt := none }).setLeaky c 0).unmirror c

/-- FILTER_SWITCH (R280): a write of DAC_CTRL. -/
def execFilterSwitch (path : Path) (v : Word) (s : State) : Host.Outcome State Fault Refusal :=
  .next (s.hostWrite (.host path) Reg.DAC_CTRL v actDacCtrl)

/-- SOFTWARE_CLEAR (R278): a write of DAC_CTRL. -/
def execSoftwareClear (path : Path) (v : Word) (s : State) : Host.Outcome State Fault Refusal :=
  .next (s.hostWrite (.host path) Reg.DAC_CTRL v actDacCtrl)

/-- RANGE_SWITCH (R272, R280): a write of DAC_CHc_CFG. -/
def execRangeSwitch (path : Path) (c : Fin 8) (v : Word) (s : State) : Host.Outcome State Fault Refusal :=
  .next (s.hostWrite (.host path) (Reg.DAC_CH_CFG c) v (actDacCfg c))

/-- MASK_WRITE (R277): a write of DAC_CHc_CFG. -/
def execMaskWrite (path : Path) (c : Fin 8) (v : Word) (s : State) : Host.Outcome State Fault Refusal :=
  .next (s.hostWrite (.host path) (Reg.DAC_CH_CFG c) v (actDacCfg c))

/-- CHANNEL_ENABLE (R275): DAC_CHc_CFG with EN set. -/
def execChannelEnable (path : Path) (c : Fin 8) (v : Word) (s : State) : Host.Outcome State Fault Refusal :=
  .next (s.hostWrite (.host path) (Reg.DAC_CH_CFG c) (setFieldOf v 0 1 1) (actDacCfg c))

/-- CHANNEL_DISABLE (R289): DAC_CHc_CFG with EN clear. -/
def execChannelDisable (path : Path) (c : Fin 8) (v : Word) (s : State) : Host.Outcome State Fault Refusal :=
  .next (s.hostWrite (.host path) (Reg.DAC_CH_CFG c) (setFieldOf v 0 1 0) (actDacCfg c))

/-- CLEAR_CODE_WRITE (R277): a write of DAC_CHc_CLR. -/
def execClearCodeWrite (path : Path) (c : Fin 8) (v : Word) (s : State) : Host.Outcome State Fault Refusal :=
  .next (s.hostWrite (.host path) (Reg.DAC_CH_CLR c) v (storeAct (Reg.DAC_CH_CLR c)))

/-- TONE_ENABLE (R282): DAC_CHc_TONE_CFG with EN set. -/
def execToneEnable (path : Path) (c : Fin 8) (v : Word) (s : State) : Host.Outcome State Fault Refusal :=
  .next (s.hostWrite (.host path) (Reg.DAC_CH_TONE_CFG c) (setFieldOf v 16 1 1) (actDacTone c))

/-- TONE_DISABLE (R282): DAC_CHc_TONE_CFG with EN clear. -/
def execToneDisable (path : Path) (c : Fin 8) (v : Word) (s : State) : Host.Outcome State Fault Refusal :=
  .next (s.hostWrite (.host path) (Reg.DAC_CH_TONE_CFG c) (setFieldOf v 16 1 0) (actDacTone c))

/-- READBACK_FAULT_CLEAR (R287): DAC_CHc_STAT written with 1 in RB_FAULT. -/
def execReadbackFaultClear (path : Path) (c : Fin 8) (v : Word) (s : State) : Host.Outcome State Fault Refusal :=
  .next (s.hostWrite (.host path) (Reg.DAC_CH_STAT c) (setFieldOf v 8 1 1) (actDacStat c))

/-- OVERCURRENT_CLEAR (R288): DAC_CHc_STAT written with 1 in OC_P and OC_N. -/
def execOvercurrentClear (path : Path) (c : Fin 8) (v : Word) (s : State) : Host.Outcome State Fault Refusal :=
  .next (s.hostWrite (.host path) (Reg.DAC_CH_STAT c) (setFieldOf v 9 2 3) (actDacStat c))

/-! ### Events of a channel -/

/-- CLAMP_RELEASE (R275): after 1,024 modulator cycles at the clear code the clamp is released and the channel enters CLEAR. -/
def execClampRelease (c : Fin 8) (s : State) : Host.Outcome State Fault Refusal :=
  let x := s.dacCh c
  if x.st = .clamp ∧ s.dacMayRun c ∧ 1024 ≤ x.starting * s.modCycles then
    .next ((s.setDacCh c { x with st := .clear, ramp := none, rampLevel := none, starting := 0 }).setLeaky c 0)
  else .next s

/-- CLEAR_RAMP_END (R276): a clear ramp has been played; the channel holds its clear code or goes to CLAMP. -/
def execClearRampEnd (c : Fin 8) (s : State) : Host.Outcome State Fault Refusal :=
  let x := s.dacCh c
  if x.ramp = some 64 then
    if x.toClamp then
      let t := s.clampNow c
      .next (if t.bit (Reg.PAGE_STAT Page.dac) 1 ∧ t.dacClamped then t.idle Page.dac else t)
    else .next (s.setDacCh c { x with ramp := none, rampLevel := none })
  else .next s

/-- SWITCH_GAIN_CHANGE (R280): at the start of sample 64 of a sequence the range and the filter mode change. -/
def execSwitchGainChange (c : Fin 8) (s : State) : Host.Outcome State Fault Refusal :=
  let x := s.dacCh c
  match x.seq with
  | some q =>
    if 64 ≤ q.pos ∧ q.changed = false then
      .next (s.setDacCh c { x with range := q.range, filt := q.filt, seq := some { q with changed := true } })
    else .next s
  | none => .next s

/-- SWITCH_SEQUENCE_END (R280): after 144 samples the channel returns to its former state. -/
def execSwitchSequenceEnd (c : Fin 8) (s : State) : Host.Outcome State Fault Refusal :=
  let x := s.dacCh c
  match x.seq with
  | some q =>
    if 144 ≤ q.pos then .next (s.setDacCh c { x with seq := none, range := q.range, filt := q.filt }).showFilterSwitch
    else .next s
  | none => .next s

/-- AVDD_CHANGE (R272, R400): AVDD crosses the supervision level or 3.3 V. -/
def execAvddChange (ok hi : Bool) (s : State) : Host.Outcome State Fault Refusal :=
  .next ((s.setBit Reg.PWR_STAT 1 ok).setBit Reg.DAC_STAT 2 hi).dacAll

/-! ### Read-back (R283 to R288) -/

/-- The reference sample of channel `c` for its next monitor sample: the modulator input 20 modulator cycles before, times 0.75, in
12 bits (R284). -/
def State.reference (s : State) (c : Nat) : BitVec 12 :=
  let x := s.dacCh c
  let cycle := 16 * x.taken + 2 * c
  let u := if cycle < 20 then (x.uOld[s.modCycles + cycle - 20]?).getD x.clr else (x.u[cycle - 20]?).getD x.clr
  BitVec.ofInt 12 (3 * u / 2 ^ 18)

/-- The leaky count reaches CNT: a read-back fault (R286). -/
def State.readbackFault (s : State) (c output : Nat) : State :=
  let t := (((s.setBit (Reg.DAC_CH_STAT c) 8 true).bump Reg.DAC_RB_FAULT_CNT).raise Page.dac 0)
  let x := t.dacCh c
  t.setDacCh c { x with action := true, faultAt := some output, leave := false }

/-- READBACK_COMPARE (R285): a monitor output meets its reference output. -/
def State.readbackCompare (s : State) (c output : Nat) (mon ref : Word) (settling : Bool) : State :=
  let x := s.dacCh c
  let ignored := settling || decide (0 < x.ignore) ||
    (match x.seq with
     | some q => decide (64 < q.pos ∧ q.pos ≤ 80)
     | none => false)
  if s.bit Reg.DAC_RB_CFG 24 = false ∨ x.code = 0 ∨ x.code = 4 then s
  else if ignored then s.setDacCh c { x with ignore := x.ignore - 1 }
  else
    let e := (mon.toInt - ref.toInt).natAbs
    let m := s.leaky c
    let miss := decide (s.fld Reg.DAC_RB_CFG 0 16 * 2 ^ 16 < e)
    let cnt := max 1 (s.fld Reg.DAC_RB_CFG 16 8)
    let free := if miss ∧ m = 255 then s.draw 8 else (if miss then m + 1 else m - 1, s)
    let t := if miss then (free.2.bump Reg.DAC_RB_MISMATCH_CNT).count 505 1 else free.2
    let t1 := t.setLeaky c free.1
    let k := t1.check Page.dac 0 c (decide (m < cnt) && decide (cnt ≤ free.1))
    if k.hit then (k.st.logError 0x1200 c m k.inj).readbackFault c output else k.st

/-- The reference cascades follow a change of the moving averages' length (R257). -/
def State.clearReferences (s : State) : State :=
  (List.range 8).foldl (fun t c =>
    let x := t.dacCh c
    t.setDacCh c { x with ref := { MonitorChan.reset with phase := x.ref.phase } }) s

/-- MONITOR_SAMPLE (R256, R258, R283 to R286): the converter samples channel `c` and reads `x`. -/
def execMonitorSample (c : Fin 8) (x : BitVec 12) (s : State) : Host.Outcome State Fault Refusal :=
  let r := s.monitorSample c x
  let s1 := if r.1.dec.monLen = s.dec.monLen then r.1 else r.1.clearReferences
  let ch := s1.dacCh c
  let p := ch.ref.push (s1.dec.monLen + 1) (s1.reference c)
  let s2 := s1.setDacCh c { ch with ref := p.1, taken := (ch.taken + 1) % (s1.modCycles / 16) }
  match r.2, p.2 with
  | some o, some sum =>
    let l := s1.dec.monLen + 1
    let ref : Word := BitVec.ofInt 32 (sum.toInt * 2 ^ 20 / (l ^ 3 : Nat))
    .next (s2.readbackCompare c (s2.monitor c).outputs o.1 ref o.2)
  | _, _ => .next s2

/-- Whether a MIRROR of channel `c` acts as MUTE (R286). -/
def State.mirrorMutes (s : State) (c p : Nat) : Bool :=
  let y := s.dacCh p
  decide (p = c) || decide (y.code ≠ 1 ∧ y.code ≠ 2) || y.mirror.isSome ||
    (decide (s.fld (Reg.DAC_CH_CFG p) 8 3 = c) && decide ((s.dacCh c).faultAt.isSome) && decide ((s.dacCh c).faultAt = y.faultAt))

/-- The partner of channel `c` starts its cross-fade to the data of queue channel `c`. -/
def State.startMirror (s : State) (c : Nat) : State :=
  let p := s.fld (Reg.DAC_CH_CFG c) 8 3
  if s.mirrorMutes c p then s
  else
    let y := s.dacCh p
    s.setDacCh p { y with mirror := some { source := c, k := 0, back := false } }

/-- READBACK_ACTION (R286): at the output sample boundary at least 2 µs after the fault, FAULT_ACT applies. -/
def execReadbackAction (c : Fin 8) (s : State) : Host.Outcome State Fault Refusal :=
  let x := s.dacCh c
  let act := s.fld (Reg.DAC_CH_CFG c) 4 2
  if x.action = false then .next s
  else
    let s1 := s.setDacCh c { x with action := false }
    if act = 0 then .next s1
    else
      let y := s1.dacCh c
      let s2 := if y.st = .clamp ∨ y.toClamp ∨ y.st = .fault then s1
        else
          s1.setDacCh c { y with
            st := .fault, ramp := if y.st = .clear ∧ y.ramp.isNone then none else if y.st = .clear then y.ramp else some 0 }
      .next (if act = 2 then s2.startMirror c else s2)

/-- An over-current trip of a leg of channel `c` (R288). -/
def State.overcurrent (s : State) (c : Nat) (nLeg inj : Bool) : State :=
  let t := ((((s.logError 0x1201 (c + if nLeg then 128 else 0) 0 inj).setBit (Reg.DAC_CH_STAT c) (if nLeg then 10 else 9) true).bump
    Reg.DAC_OC_CNT).raise Page.dac 1).clampNow c
  if s.fld (Reg.DAC_CH_CFG c) 4 2 = 2 then t.startMirror c else t

/-- OVERCURRENT_TRIP (R288): a leg of channel `c` (true for N) exceeds its limit; the channel clamps. -/
def execOvercurrentTrip (c : Fin 8) (nLeg : Bool) (s : State) : Host.Outcome State Fault Refusal :=
  .next (s.overcurrent c nLeg false)

end Sys2Proof.Machine
end

