-- ==== Sys2Proof/Machine/Dram.lean ====
section
/-! DEFINITION. Sample Memory: lines, their code, page tracking and retirement (R313 to R320). -/

namespace Sys2Proof.Machine

/-- One byte of the data range; what nothing has written reads 0. -/
def State.dramByte (s : State) (a : Nat) : Byte := Sparse.get (fun _ => 0) s.dram.data a

/-- The size of the data range. -/
def dramSize : Nat := 0xE0000000

/-- Bytes that the decoder corrects per line (DRC_CFG.T). -/
def State.dramT (s : State) : Nat := min 4 (s.fld Reg.DRC_CFG 0 3)

/-- The index of die of an address. -/
def dieOf (a : Nat) : Nat := a / 256 % 2

/-- Records the last corrected or uncorrectable line. -/
def State.drcInfo (s : State) (line : Nat) (scrub write ue : Bool) : State :=
  s.setReg Reg.DRC_ERR_INFO (BitVec.ofNat 32 (64 * line + (if scrub then 4 else 0) + (if write then 2 else 0) + (if ue then 1 else 0)))

/-! ### Retirement (R319, R320) -/

/-- DRC_STAT.USED follows the units in use or marked bad. -/
def State.showUnits (s : State) : State :=
  s.setFld Reg.DRC_STAT 0 14 (s.dram.replaced.length + s.dram.badUnits.length + s.dram.retiring.length)

/-- The lowest-numbered replacement unit that is neither in use nor bad. -/
def State.freeUnit (s : State) : Option Nat :=
  let used := s.dram.badUnits ++ s.dram.retiring.map (fun e => e.2) ++ s.dram.replaced.map (fun e => e.2 - 1)
  (List.range (used.length + 1)).find? (fun u => !used.contains u && decide (u < 14563))

/-- A page starts to retire, or is refused when no good unit remains. -/
def State.retirePage (s : State) (page : Nat) : State :=
  if s.dram.retiring.any (fun e => decide (e.1 = page)) then s
  else match s.freeUnit with
    | some u => { s with dram := { s.dram with retiring := s.dram.retiring ++ [(page, u)] } }.showUnits
    | none => (s.setBit Reg.DRC_STAT 30 true).bump Reg.DRC_RETIRE_REJ_CNT

/-- The entry of least count, the oldest on a tie. -/
def weakest : List (Nat × Nat × Nat) → Option (Nat × Nat × Nat)
  | [] => none
  | e :: es => match weakest es with
    | some f => if f.2.1 < e.2.1 then some f else some e
    | none => some e

/-- One more corrected line of a page in the tracking table of 256 pages. -/
def State.trackPage (s : State) (page : Nat) : State :=
  let thr := max 1 (s.fld Reg.DRC_RETIRE_CFG 0 4)
  let n := ((s.dram.track.find? (fun e => decide (e.1 = page))).map (fun e => e.2.1)).getD 0 + 1
  let rest := s.dram.track.filter (fun e => decide (e.1 ≠ page))
  let room := if n = 1 ∧ 256 ≤ rest.length then
      (match weakest rest with
       | some w => rest.filter (fun e => decide (e.1 ≠ w.1))
       | none => rest)
    else rest
  if thr ≤ n then { s with dram := { s.dram with track := rest } }.retirePage page
  else { s with dram := { s.dram with track := room ++ [(page, n, s.dram.pass)] } }

/-! ### Lines (R314, R317) -/

/-- What a read of a line gives. -/
inductive LineResult where
  | good (data : List Byte)
  | lost
deriving DecidableEq, Repr

/-- The 64 bytes of a line. -/
def State.lineBytes (s : State) (line : Nat) : List Byte := (List.range 64).map (fun i => s.dramByte (64 * line + i))

/-- Eight free 64-bit values, as bytes. -/
def State.drawLine (s : State) : Nat → State × List Byte
  | 0 => (s, [])
  | k + 1 =>
    let d := s.draw 64
    let r := d.2.drawLine k
    (r.1, leBytes 8 d.1 ++ r.2)

/-- A corrected line. -/
def State.lineCorrected (s : State) (line : Nat) (scrub inj : Bool) : State :=
  let s1 := ((((s.bump Reg.DRC_CE_CNT).drcInfo line scrub false false).raise Page.drc 0).logError 0x1400 (dieOf (64 * line)) line inj).count 467 1
  if inj then s1 else s1.trackPage (line / 64)

/-- An uncorrectable line. -/
def State.lineLost (s : State) (line : Nat) (scrub write inj : Bool) : State :=
  let s1 := (((s.bump Reg.DRC_UE_CNT).drcInfo line scrub write true).raise Page.drc 1).logError 0x1401 (dieOf (64 * line)) line inj
  if inj then s1
  else
    { s1 with dram := { s1.dram with bad := if s1.dram.bad.contains line then s1.dram.bad else line :: s1.dram.bad } }.retirePage (line / 64)

/-- A read of a line with `errs` byte errors. Past 8 − T errors the decoder may report the line or miscorrect it: a free value
decides, and a miscorrected line's data are free values. -/
def State.readLine (s : State) (line errs : Nat) (scrub write : Bool) : State × LineResult :=
  let t := s.dramT
  let s0 := s.count 462 1
  let die := dieOf (64 * line)
  let open_ := decide (8 - t < errs)
  let dr := if open_ then s0.draw 1 else (0, s0)
  let lost := s.dram.bad.contains line || (decide (t < errs) && (!open_ || decide (dr.1 = 1)))
  let ue := dr.2.check Page.drc 1 die lost
  if ue.hit then (ue.st.lineLost line scrub write ue.inj, .lost)
  else if open_ then
    let w := dr.2.drawLine 8
    (w.1.lineCorrected line scrub false, .good w.2)
  else
    let ce := dr.2.check Page.drc 0 die (decide (0 < errs))
    if ce.hit then (ce.st.lineCorrected line scrub ce.inj, .good (s.lineBytes line)) else (s0, .good (s.lineBytes line))

/-- Stores bytes plainly. -/
def State.putDram (s : State) (a : Nat) : List Byte → State
  | [] => s
  | b :: bs => State.putDram { s with dram := { s.dram with data := Sparse.put (fun _ => 0) s.dram.data a b } } (a + 1) bs

/-- A write inside one line (R317): of the whole line, or of a part, which reads the old line first. -/
def State.writeLine (s : State) (a : Nat) (data : List Byte) (errs : Nat) : State :=
  let line := a / 64
  let s0 := s.count 463 1
  if data.length = 64 ∧ a % 64 = 0 then
    { s0 with dram := { s0.dram with bad := s0.dram.bad.filter (fun l => decide (l ≠ line)) } }.putDram a data
  else
    let r := s0.readLine line errs false true
    match r.2 with
    | .lost => r.1
    | .good old =>
      let o := a % 64
      r.1.putDram (64 * line) (old.take o ++ data ++ old.drop (o + data.length))

/-- Reads `n` bytes from `a`: line by line, `errs` the byte errors of each line; a lost line gives none. `fuel` bounds the lines. -/
def State.readDram (s : State) (a n : Nat) (errs : List Nat) : Nat → State × List (Option Byte)
  | 0 => (s, [])
  | fuel + 1 =>
    if n = 0 then (s, [])
    else
      let o := a % 64
      let k := min n (64 - o)
      let r := s.readLine (a / 64) (errs.headD 0) false false
      let bytes := match r.2 with
        | .good d => ((d.drop o).take k).map some
        | .lost => List.replicate k none
      let rest := r.1.readDram (a + k) (n - k) errs.tail fuel
      (rest.1, bytes ++ rest.2)

/-- Writes bytes from `a`, line by line. -/
def State.writeDram (s : State) (a : Nat) (data : List Byte) (errs : List Nat) : Nat → State
  | 0 => s
  | fuel + 1 =>
    if data.isEmpty then s
    else
      let k := 64 - a % 64
      (s.writeLine a (data.take k) (errs.headD 0)).writeDram (a + k) (data.drop k) errs.tail fuel

end Sys2Proof.Machine
end

