-- ==== Sys2Proof/Machine/Streams.lean ====
section
/-! DEFINITION. The Stream Prefetcher: sample objects, starts and ends, fills, the effective ratio, what a commit does, snapshots, and
writes of the table regions (R219, R223, R227 to R240). -/

namespace Sys2Proof.Machine

/-- A VA register as the last boundary step applied it (R67, R74). -/
def State.vaReg (s : State) (off : Nat) : Word := Sparse.get regReset s.pool.applied off

/-- The class of a Part in force. -/
def State.partCls (s : State) (p : Nat) : Cls := clsOfCode (fieldOf (s.vaReg (Reg.VA_PART_CFG p)) 1 2)

/-- The class of a slot's tasks (R85, R125). -/
def State.slotCls (s : State) (x : Nat) : Cls := ((s.slot x).fadeCls).getD (s.partCls (s.slot x).part)

/-! ### Rings and ratios (R229, R234) -/

/-- The ring of stream `k` of a slot. -/
def State.ringOf (s : State) (slot k : Nat) : Nat :=
  let r := (s.stream slot k).ring
  if r = 0 then 2 * slot + k else r - 1

/-- Frames that a ring holds. -/
def Stream.cap (x : Stream) : Nat := if x.stereo then 512 else 1024

/-- Bytes of a frame. -/
def Stream.frameBytes (x : Stream) : Nat := if x.stereo then 2 * x.width else x.width

/-- The limit on the ratio, Q4.28, for `n` rendered samples. -/
def Stream.ratioLimit (x : Stream) (n : Nat) : Nat := min (8 * 2 ^ 28) ((x.cap - 8) * 2 ^ 28 / (2 * n))

/-- The frames that a block advances by at the effective ratio, rounded up. -/
def Stream.advance (x : Stream) (n : Nat) : Nat := (min x.declared (x.ratioLimit n) * n + 2 ^ 28 - 1) / 2 ^ 28

/-- The target A. -/
def Stream.aim (x : Stream) (n : Nat) : Int := x.cons + (min (x.cap - 8) (2 * x.advance n + 8) : Nat)

/-- A stream under the effective ratio: its target and CLAMPED. -/
def Stream.retarget (x : Stream) (n : Nat) : Stream :=
  { x with target := x.aim n, clamped := decide (x.ratioLimit n < x.declared) }

/-- Whether a loop holds the stream: it plays before the loop's end and is to turn back there (R236). -/
def Stream.looping (x : Stream) : Bool := decide (x.loop ≠ 0) && !(decide (x.loop = 2) && x.released) && decide (x.pos < x.loopEnd)

/-- END of the stream status (R233). -/
def Stream.endFrame (x : Stream) : Nat :=
  match x.fin with
  | some f => f % 2 ^ 32
  | none => if x.looping then 0xFFFFFFFF else (x.asked + (x.len - x.pos)) % 2 ^ 32

/-! ### Fills (R234 to R237) -/

/-- Writes converted frames into a ring from stream frame `f` on (R229). -/
def State.storeFrames (s : State) (ring : Nat) (stereo : Bool) (cls : Cls) (f : Nat) : List (Word × Word) → State
  | [] => s
  | (l, r) :: rest =>
    let base := 0x01000000 + 4096 * ring
    let s1 := if stereo then (s.devWrite 34 cls (base + 4 * (f % 512)) [l]).devWrite 34 cls (base + 4 * (512 + f % 512)) [r]
      else s.devWrite 34 cls (base + 4 * (f % 1024)) [l]
    s1.storeFrames ring stereo cls (f + 1) rest

/-- A little-endian sample of `w` bytes as a word (R227). -/
def sampleWord (w : Nat) (b : List Byte) : Word := BitVec.ofNat 32 (leNat b * 2 ^ (32 - 8 * w))

/-- The frame that begins a list of bytes: zeros where a byte is lost. -/
def Stream.frame (x : Stream) (b : List (Option Byte)) : Word × Word :=
  let d := (b.take x.frameBytes).filterMap id
  if d.length < x.frameBytes then (0, 0)
  else (sampleWord x.width (d.take x.width), sampleWord x.width (d.drop x.width))

/-- The frames of a list of bytes. -/
def Stream.frames (x : Stream) (b : List (Option Byte)) (n : Nat) : List (Word × Word) :=
  (List.range n).map (fun i => x.frame (b.drop (i * x.frameBytes)))

/-- Frames from object frame `pos` on that begin in the same line. -/
def Stream.inLine (x : Stream) (pos : Nat) : Nat :=
  let a := x.addr + pos * x.frameBytes
  (64 - a % 64 + x.frameBytes - 1) / x.frameBytes

/-- Issues reads up to the target (R234): each for the frames that begin in one line. Past the object's end the frames are zeros
(R236). `fuel` bounds the reads. -/
def State.issueFills (s : State) (slot k : Nat) : Nat → State
  | 0 => s
  | fuel + 1 =>
    let x := s.stream slot k
    if x.active = false ∨ s.pageOn Page.spf = false ∨ x.target ≤ (x.asked : Int) then s
    else
      let want := (x.target - (x.asked : Int)).toNat
      match x.fin with
      | some f =>
        if x.filled = x.asked then
          (s.storeFrames (s.ringOf slot k) x.stereo (s.slotCls slot) x.asked (List.replicate want (0, 0))).setStream slot k
            { x with asked := x.asked + want, filled := x.asked + want, ended := x.ended || decide (f < x.asked + want) }
        else s
      | none =>
        if x.len ≤ x.pos then (s.setStream slot k { x with fin := some x.asked }).issueFills slot k fuel
        else
          let stop := if x.looping then x.loopEnd else x.len
          let n := max 1 (min want (min (stop - x.pos) (x.inLine x.pos)))
          let fill : Fill :=
            { slot := slot, stream := k, gen := x.gen, cls := s.slotCls slot, from_ := x.asked, count := n, pos := x.pos }
          let pos := if x.looping ∧ x.pos + n = x.loopEnd then x.loopStart else x.pos + n
          let s1 := (s.setStream slot k { x with asked := x.asked + n, pos := pos }).count 459 1
          let s2 := if fill.cls = .express then s1.count 460 1 else s1
          State.issueFills { s2 with spf := { s2.spf with fills := s2.spf.fills ++ [fill] } } slot k fuel

/-- One fault of a stream (R237). -/
def State.streamFault (s : State) (slot k : Nat) : State :=
  (s.setStream slot k { s.stream slot k with fault := true }).bump Reg.SPF_FAULT_CNT

/-- The oldest read in flight of a stream returns, `errs` the byte errors of its lines. The read of a stream that has ended is
discarded (R239). -/
def State.fillReturn (s : State) (slot k : Nat) (errs : List Nat) : State :=
  match s.spf.fills.find? (fun f => decide (f.slot = slot) && decide (f.stream = k)) with
  | none => s
  | some f =>
    let s0 : State := { s with spf := { s.spf with fills := s.spf.fills.erase f } }
    let x := s.stream slot k
    if x.active = false ∨ x.gen ≠ f.gen then s0
    else
      let r := s0.readDram (x.addr + f.pos * x.frameBytes) (f.count * x.frameBytes) errs 64
      let s1 := if f.cls = .express then r.1.count 464 1 else r.1
      let s2 := s1.storeFrames (s.ringOf slot k) x.stereo f.cls f.from_ (x.frames r.2 f.count)
      let s3 := s2.setStream slot k { x with filled := f.from_ + f.count }
      (if r.2.any Option.isNone then s3.streamFault slot k else s3).issueFills slot k 1100

/-! ### Starts and ends (R227, R228, R231, R237, R239) -/

/-- SPF_STAT.ACTIVE follows the active streams. -/
def State.showActive (s : State) : State :=
  s.setFld Reg.SPF_STAT 0 12 (s.spf.streams.filter (fun e => e.2.active)).length

/-- The sample table entry of an object: 32 bytes of Sample Memory, none where it cannot be read. -/
def State.tableEntry (s : State) (obj : Nat) : State × Option (List Byte) :=
  let a := (s.reg Reg.SPF_STBL_BASE).toNat / 64 * 64 + 32 * obj
  if dramSize < a + 32 then (s, Option.none)
  else
    let r := s.readDram a 32 [] 2
    (r.1, if r.2.any Option.isNone then Option.none else some (r.2.filterMap id))

/-- The object that an entry describes, put into a stream at frame `pos`, or none where it is not valid (R227). -/
def Stream.ofEntry (x : Stream) (b : List Byte) (pos : Nat) : Option Stream :=
  let n (lo k : Nat) : Nat := leNat ((b.drop lo).take k)
  let form := n 16 1
  let w := bitsOf form 0 2
  let loop := bitsOf form 3 2
  let y : Stream :=
    { x with
      addr := n 0 4, len := n 4 4, loopStart := n 8 4, loopEnd := n 12 4, width := w + 2, stereo := decide (bitsOf form 2 1 = 1),
      loop := loop, pos := pos }
  if bitsOf form 7 1 = 1 ∧ bitsOf form 5 2 = 0 ∧ n 17 7 = 0 ∧ w ≠ 3 ∧ loop ≠ 3 ∧ y.addr % 4 = 0 ∧ 1 ≤ y.len ∧
      (loop = 0 ∨ (y.loopStart < y.loopEnd ∧ y.loopEnd ≤ y.len)) ∧ y.addr + y.len * y.frameBytes ≤ dramSize then some y
  else Option.none

/-- A stream ends; the reads in flight keep its old number and are discarded. -/
def State.endStream (s : State) (slot k : Nat) : State :=
  let s1 : State := { s with spf := { s.spf with starts := s.spf.starts + 1 } }
  (s1.setStream slot k { s.stream slot k with active := false, gen := s1.spf.starts }).showActive

/-- A stream of a slot starts an object at one of its frames (R228, R231, R232, R237). -/
def State.startStream (s : State) (slot k obj declared pos : Nat) : State :=
  let s1 := s.endStream slot k
  if s.pageOn Page.spf = false then s1
  else
    let o := s1.stream slot k
    let fresh : Stream :=
      { Stream.reset with ring := o.ring, obj := obj, first := o.first, declared := declared, cseq := o.cseq, gen := o.gen,
                          released := (s.slot slot).offSample.isSome, underrun := false }
    let e := if obj < min 65536 (s.fld Reg.SPF_STBL_CFG 0 17) then s1.tableEntry obj else (s1, Option.none)
    match e.2.bind (fun b => fresh.ofEntry b pos) with
    | none => (e.1.setStream slot k fresh).streamFault slot k
    | some y =>
      let z := { y with active := true }.retarget s.rendered
      (((e.1.setStream slot k z).bump Reg.SPF_START_CNT).showActive).issueFills slot k 1100

/-- Both streams of a slot at an allocation: the old ones end, and those that the Part enables start from its Base words (R231). -/
def State.allocStreams (s : State) (slot part : Nat) : State :=
  let cfg := Sparse.get (fun _ => (0 : Word)) s.spf.partCfg part
  (List.range 2).foldl (fun u k =>
    let v := u.endStream slot k
    let o := v.stream slot k
    let clear := v.setStream slot k { Stream.reset with ring := o.ring, gen := o.gen }
    if fieldOf cfg k 1 = 1 then
      let w := fieldOf cfg (8 + 8 * k) 7
      let base := 0x00800000 + 4096 * slot + 4 * w
      let ratio := (clear.conWord (base + 4)).toNat
      (clear.setStream slot k { clear.stream slot k with first := ratio }).startStream slot k (fieldOf (clear.conWord base) 0 16) ratio 0
    else clear) s

/-- Both streams of a slot end: it becomes FREE. -/
def State.freeStreams (s : State) (slot : Nat) : State := (s.endStream slot 0).endStream slot 1

/-- The slot's voice enters RELEASING (R236). -/
def State.releaseStreams (s : State) (slot : Nat) : State :=
  (List.range 2).foldl (fun u k =>
    let x := u.stream slot k
    if x.active then (u.setStream slot k { x with released := true }).issueFills slot k 1100 else u) s

/-- A shadow steal exchanges the streams of two slots with their rings; reads in flight follow (R82, R229). -/
def State.swapStreams (s : State) (a b : Nat) : State :=
  let bound := fun (home : Nat) (x : Stream) (ring : Nat) => { x with ring := if ring = home then 0 else ring + 1 }
  let s1 := (List.range 2).foldl (fun u k =>
    let x := s.stream a k
    let y := s.stream b k
    (u.setStream a k (bound (2 * a + k) y (s.ringOf b k))).setStream b k (bound (2 * b + k) x (s.ringOf a k))) s
  { s1 with spf := { s1.spf with fills := s1.spf.fills.map (fun f =>
      if f.slot = a then { f with slot := b } else if f.slot = b then { f with slot := a } else f) } }

/-! ### At a commit (R232, R234, R238) -/

/-- The operation of a stream control word. -/
def State.streamOp (s : State) (slot k : Nat) (w : Word) (start ratio : Nat) : State :=
  let x := s.stream slot k
  let op := fieldOf w 16 4
  let s1 := s.setStream slot k { x with cseq := fieldOf w 20 4 }
  if fieldOf w 20 4 = x.cseq then s
  else if op = 1 then s1.startStream slot k (fieldOf w 0 16) ratio start
  else if op = 2 then s1.endStream slot k
  else if op = 3 then s1.setStream slot k { s1.stream slot k with released := true }
  else s1

/-- One stream of a slot at a commit; `under` is the flag that the task set. -/
def State.streamCommit (s : State) (slot k : Nat) (under : Bool) : State :=
  if s.pageOn Page.spf = false then s
  else
    let w := s.conWords (0x00800000 + 4096 * slot + 4 * (0x3F8 + 4 * k)) 4
    let word := fun (i : Nat) => (w[i]?).getD (0 : Word)
    let ratio := if (word 1).toNat = 0 then (s.stream slot k).first else (word 1).toNat
    let d := if (s.stream slot k).active ∨ under then s.detect Page.spf 0 0 slot under else { st := s, hit := under, inj := false }
    let s1 := if d.hit then ((d.st.bump Reg.SPF_UNDERRUN_CNT).raise Page.spf 0).count 461 1 else d.st
    let s2 := s1.streamOp slot k (word 0) (word 3).toNat ratio
    let x := s2.stream slot k
    let cons := x.cons + modDiff 32 (word 2).toNat (wrapTo 32 x.cons)
    let y := if x.active then { x with declared := ratio, cons := cons }.retarget s.rendered else x
    let s3 := s2.setStream slot k { y with underrun := d.hit }
    (if y.active ∧ y.clamped then s3.bump Reg.SPF_CLAMP_CNT else s3).issueFills slot k 1100

/-- The snapshot of a stream that staging takes (R230, R233). -/
def State.streamSnap (s : State) (slot k : Nat) : StreamSnap :=
  let x := s.stream slot k
  { active := x.active, stereo := x.stereo, ended := x.ended, underrun := x.underrun, fault := x.fault, clamped := x.clamped, obj := x.obj,
    cons := wrapTo 32 x.cons, filled := x.filled % 2 ^ 32, fin := x.endFrame, ring := s.ringOf slot k }

/-! ### Registers (R219, R223) -/

/-- A refused write of the SPF page. -/
def State.refuseSpf (s : State) : State := s.refuseCfg Reg.SPF_STAT 31 Page.spf

/-- Whether the region that two register words describe lies where R219 allows it. -/
def regionAllowed (base cfg : Word) : Bool :=
  let lo := fieldOf base 6 19 * 64
  let hi := lo + 4 * 2 ^ (max 4 (min 20 (fieldOf cfg 0 5))) - 1
  decide (hi ≤ 0x01FFFFFF) && (decide (hi < 0x00800000) || decide (0x00E5FFFF < lo)) &&
    (decide (hi < 0x01000000) || decide (0x0187FFFF < lo))

/-- SPF_TBLr_BASE and SPF_TBLr_CFG. -/
def actTable (isCfg : Bool) (r : Nat) (s : State) (row : RegRow) (old v : Word) : State :=
  let new := row.store old v
  let base := if isCfg then s.reg (Reg.SPF_TBL_BASE r) else new
  let cfg := if isCfg then new else s.reg (Reg.SPF_TBL_CFG r)
  if regionAllowed base cfg then s.setReg (if isCfg then Reg.SPF_TBL_CFG r else Reg.SPF_TBL_BASE r) new else s.refuseSpf

/-- SPF_PARTn_CFG. -/
def actSpfPart (n : Nat) (s : State) (row : RegRow) (old v : Word) : State :=
  let new := row.store old v
  if fieldOf new 8 7 = 127 ∨ fieldOf new 16 7 = 127 then s.refuseSpf else s.setReg (Reg.SPF_PART_CFG n) new

/-- The table regions and Part settings as they come into force at a block period's start (R223). -/
def State.applySpf (s : State) : State :=
  let tbl := (List.range 60).foldl (fun m r =>
    Sparse.put (fun i => if i % 2 = 0 then 0 else 4) (Sparse.put (fun i => if i % 2 = 0 then 0 else 4) m (2 * r) (s.reg (Reg.SPF_TBL_BASE r)))
      (2 * r + 1) (s.reg (Reg.SPF_TBL_CFG r))) []
  let cfg := (List.range 64).foldl (fun m n => Sparse.put (fun _ => 0) m n (s.reg (Reg.SPF_PART_CFG n))) []
  { s with spf := { s.spf with tbl := tbl, partCfg := cfg } }

/-- The page is disabled: every stream ends; the reads in flight complete and are discarded (R240). -/
def State.stopStreams (s : State) : State :=
  let t : State := { s with spf := { s.spf with
    streams := s.spf.streams.map (fun e => (e.1, { e.2 with active := false, gen := s.spf.starts + 1 })), starts := s.spf.starts + 1 } }
  t.showActive

/-- STREAM_FILL_RETURN (R234, R237, R239). -/
def execStreamFillReturn (slot : Fin 1088) (k : Fin 2) (errs : List Nat) (s : State) : Host.Outcome State Fault Refusal :=
  .next (s.fillReturn slot k errs)

/-- TABLE_REGION_WRITE (R219): SPF_TBLr_CFG or, otherwise, SPF_TBLr_BASE. -/
def execTableRegionWrite (path : Path) (r : Fin 60) (isCfg : Bool) (v : Word) (s : State) : Host.Outcome State Fault Refusal :=
  .next (s.hostWrite (.host path) (if isCfg then Reg.SPF_TBL_CFG r else Reg.SPF_TBL_BASE r) v (actTable isCfg r))

end Sys2Proof.Machine
end

