-- ==== Sys2Proof/Machine/Ump.lean ====
section
/-! DEFINITION. Universal MIDI Packets: their fields, their length, the translation of MIDI 1.0 messages, lanes and kinds (R48). -/

namespace Sys2Proof.Machine

/-- Word `i` of a UMP; 0 beyond its end. -/
def umpWord (u : List Word) (i : Nat) : Word := (u[i]?).getD 0

/-- Message type, word 0 [31:28]. -/
def umpType (u : List Word) : Nat := fieldOf (umpWord u 0) 28 4
/-- Group. -/
def umpGroup (u : List Word) : Nat := fieldOf (umpWord u 0) 24 4
/-- Status of a channel voice or utility message. -/
def umpStatus (u : List Word) : Nat := fieldOf (umpWord u 0) 20 4
/-- Channel. -/
def umpChan (u : List Word) : Nat := fieldOf (umpWord u 0) 16 4
/-- Note number or first data byte. -/
def umpNote (u : List Word) : Nat := fieldOf (umpWord u 0) 8 7
/-- Second data byte (attribute type, controller index, flags). -/
def umpData2 (u : List Word) : Nat := fieldOf (umpWord u 0) 0 8

/-- The words a UMP of type `t` has, as the MIDI 2.0 specification gives them. -/
def umpLength (t : Nat) : Nat :=
  if t = 0x3 ∨ t = 0x4 ∨ t = 0x8 ∨ t = 0x9 ∨ t = 0xA then 2
  else if t = 0xB ∨ t = 0xC then 3
  else if t = 0x5 ∨ 0xD ≤ t then 4
  else 1

/-- The words of one message, cut to its length. -/
def umpTrim (u : List Word) : List Word := u.take (umpLength (umpType u))

/-- Repeats the low bits of a value downwards while any is left (min-centre-max scaling). -/
def scaleRepeat : Nat → Nat → Nat → Nat → Nat
  | 0, _, _, acc => acc
  | fuel + 1, step, r, acc => if r = 0 then acc else scaleRepeat fuel step (r >>> step) (acc ||| r)

/-- The MIDI 2.0 default translation of a `src`-bit value to `dst` bits, `dst > src` (PRESUMED, log entry 6). -/
def scaleUp (v src dst : Nat) : Nat :=
  let sh := v <<< (dst - src)
  if v ≤ 2 ^ (src - 1) then sh
  else
    let low := v % 2 ^ (src - 1)
    let r := if dst - src > src - 1 then low <<< (dst - src - (src - 1)) else low >>> ((src - 1) - (dst - src))
    scaleRepeat dst (src - 1) r sh

/-- A type 0x2 message translated to type 0x4 (R48); a Note On of velocity 0 becomes a Note Off. -/
def umpTranslate (u : List Word) : List Word :=
  if umpType u ≠ 2 then u
  else
    let st := umpStatus u
    let d1 := umpNote u
    let d2 := fieldOf (umpWord u 0) 0 7
    let head (status b1 b0 : Nat) : Word :=
      BitVec.ofNat 32 (4 * 2 ^ 28 + umpGroup u * 2 ^ 24 + status * 2 ^ 20 + umpChan u * 2 ^ 16 + b1 * 2 ^ 8 + b0)
    if st = 0x8 then [head 0x8 d1 0, BitVec.ofNat 32 (scaleUp d2 7 16 * 2 ^ 16)]
    else if st = 0x9 then
      if d2 = 0 then [head 0x8 d1 0, 0] else [head 0x9 d1 0, BitVec.ofNat 32 (scaleUp d2 7 16 * 2 ^ 16)]
    else if st = 0xA then [head 0xA d1 0, BitVec.ofNat 32 (scaleUp d2 7 32)]
    else if st = 0xB then [head 0xB d1 0, BitVec.ofNat 32 (scaleUp d2 7 32)]
    else if st = 0xC then [head 0xC 0 0, BitVec.ofNat 32 (d1 * 2 ^ 24)]
    else if st = 0xD then [head 0xD 0 0, BitVec.ofNat 32 (scaleUp d1 7 32)]
    else [head 0xE 0 0, BitVec.ofNat 32 (scaleUp (d2 * 128 + d1) 14 32)]

/-- What ingress does with a message (R48). -/
inductive UmpKind where
  | consumed                -- NOOP and the clock messages
  | mtStamp
  | fence
  | forward                 -- to the host
  | mapped                  -- types 0x2 and 0x4, for a Part
  | malformed (reason : Nat)
deriving DecidableEq, Repr

/-- The table of R48. -/
def umpKind (u : List Word) : UmpKind :=
  let t := umpType u
  let st := umpStatus u
  if t = 0x4 then (if st = 0x7 then .malformed 2 else .mapped)
  else if t = 0x2 then (if 0x8 ≤ st ∧ st ≤ 0xE then .mapped else .malformed 2)
  else if t = 0x0 then
    if st ≤ 0x4 then .consumed
    else if st = 0xE then .mtStamp
    else if st = 0xF then .fence
    else .malformed 2
  else if t = 0x1 ∨ t = 0x3 ∨ t = 0x5 ∨ t = 0xD ∨ t = 0xF then .forward
  else .malformed 1

/-- Whether a pending MT Stamp applies to messages of type `t` (R51). -/
def umpTakesStamp (t : Nat) : Bool := decide (1 ≤ t ∧ t ≤ 5) || decide (t = 0xD) || decide (t = 0xF)

/-- Whether a translated message is per-note (R48). -/
def umpPerNote (u : List Word) : Bool := decide (umpStatus u ∈ [0x0, 0x1, 0x6, 0x8, 0x9, 0xA, 0xF])

/-- The code of a per-note lane (R59). -/
def noteLane (src group chan key : Nat) : Nat := (((src * 16 + group) * 16 + chan) * 128 + key) * 2 + 1

/-- The lane of a translated message. -/
def laneOf (src : Nat) (u : List Word) : Nat :=
  if umpPerNote u then noteLane src (umpGroup u) (umpChan u) (umpNote u) else ((src * 16 + umpGroup u) * 16 + umpChan u) * 2

/-- The lane of a note. -/
def Note.lane (n : Note) : Nat := noteLane n.src n.group n.chan n.key

end Sys2Proof.Machine
end

