-- ==== Sys2Proof/Machine/Timetable.lean ====
section
/-! DEFINITION. The Timetable: notifications, entry of events, lateness, fences, and the release of a block's events
(R49 to R66, R447, R448). -/

namespace Sys2Proof.Machine

/-! ### Notifications (R64, R65) -/

/-- Entries of a ring whose SIZE field is `n`: log2 limited to `lo`..`hi`. -/
def ringSize (n lo hi : Nat) : Nat := 2 ^ (max lo (min hi n))

/-- Notification types. -/
abbrev ntfVoiceEnd : Nat := 1
abbrev ntfFenceDone : Nat := 2
abbrev ntfLate : Nat := 3
abbrev ntfForward : Nat := 4
abbrev ntfMalformed : Nat := 5
abbrev ntfDropped : Nat := 6
abbrev ntfReleased : Nat := 7

/-- Entries in the notification ring that the host has not taken. -/
def State.ntfUsed (s : State) : Nat := (s.fld Reg.ING_NTF_PI 0 16 + 2 ^ 16 - s.fld Reg.ING_NTF_CI 0 16) % 2 ^ 16

/-- Writes one entry into the notification ring and raises NOTIFY_READY when it was empty. NSEQ is given as it is written. -/
def State.writeNtf (s : State) (e : List Byte) : State :=
  let size := ringSize (s.fld Reg.ING_NTF_CFG 0 4) 4 12
  let pi := s.fld Reg.ING_NTF_PI 0 16
  let lo := (s.reg Reg.ING_NTF_BASE_LO).toNat / 32 * 32
  let e' := e.take 24 ++ leBytes 2 (s.ing.nseq) ++ e.drop 26
  let s1 :=
    if s.bit Reg.ING_NTF_CFG 9 then s.putConBytes (lo + (pi % size) * 32) e'
    else s.putHost (lo + (s.reg Reg.ING_NTF_BASE_HI).toNat * 2 ^ 32 + (pi % size) * 32) e'
  let s2 := ({ s1 with ing := { s1.ing with nseq := (s1.ing.nseq + 1) % 2 ^ 16 } }).setReg Reg.ING_NTF_PI (BitVec.ofNat 32 ((pi + 1) % 2 ^ 16))
  if s.ntfUsed = 0 then s2.raise Page.ing 6 else s2

/-- Posts a notification: written when the ring has room and none is held, held up to 64, lost beyond that (R65). -/
def State.postNtf (s : State) (e : List Byte) : State :=
  if s.bit Reg.ING_NTF_CFG 8 = false then s
  else if s.ing.held = [] ∧ s.ntfUsed < ringSize (s.fld Reg.ING_NTF_CFG 0 4) 4 12 then s.writeNtf e
  else if s.ing.held.length < 64 then { s with ing := { s.ing with held := s.ing.held ++ [e] } }
  else (s.bump Reg.ING_NTF_LOST_CNT).raise Page.ing 0

/-- A notification entry (R64). -/
def ntfEntry (payload : List Byte) (mt typ reason src : Nat) (tag : Word) : List Byte :=
  (payload ++ List.replicate 16 0).take 16 ++ leBytes 8 mt ++ leBytes 2 0 ++ leBytes 1 (typ + 16 * reason) ++ leBytes 1 src
    ++ leBytes 4 tag.toNat

/-- The bytes of a UMP, word 0 first. -/
def umpBytes (u : List Word) : List Byte := (u.map (fun w => leBytes 4 w.toNat)).flatten

/-- Writes one held notification once the ring has room (R65). -/
def State.flushNtf (s : State) : State :=
  match s.ing.held with
  | [] => s
  | e :: es =>
    if s.bit Reg.ING_NTF_CFG 8 ∧ s.ntfUsed < ringSize (s.fld Reg.ING_NTF_CFG 0 4) 4 12 then
      State.writeNtf { s with ing := { s.ing with held := es } } e
    else s

/-! ### Rejection and discard -/

/-- A rejected message (R50): counted, recorded, raised, and reported when MAL_EN is 1; `inj` marks an injected one. -/
def State.rejectBy (s : State) (src reason : Nat) (u : List Word) (arr : Nat) (tag : Word) (inj : Bool) : State :=
  let s1 := ((s.bump Reg.ING_MAL_CNT).setReg Reg.ING_MAL_INFO (BitVec.ofNat 32 (reason * 2 ^ 8 + src))).raise Page.ing 2
  let s2 := s1.logError 0x0800 0 src inj
  if s.bit Reg.ING_NTF_CFG 20 then s2.postNtf (ntfEntry (umpBytes u) arr ntfMalformed reason src tag) else s2

/-- A rejected message. -/
def State.rejectMsg (s : State) (src reason : Nat) (u : List Word) (arr : Nat) (tag : Word) : State :=
  s.rejectBy src reason u arr tag false

/-- A discarded event (R56, R57, R66): counted and reported as DROPPED. -/
def State.dropEvent (s : State) (src reason : Nat) (u : List Word) (arr : Nat) (tag : Word) : State :=
  (s.bump Reg.ING_DROP_CNT).postNtf (ntfEntry (umpBytes u) arr ntfDropped reason src tag)

/-! ### Room and release sets -/

/-- ING_TT_CFG.EXP_RSV as it acts. -/
def State.expReserve (s : State) : Nat := min 8192 (s.fld Reg.ING_TT_CFG 0 14)

/-- ING_TT_CFG.EXP_MAX as it acts. -/
def State.expMax (s : State) : Nat := max 1 (min 256 (s.fld Reg.ING_TT_CFG 16 9))

/-- Whether the Timetable has room for an entry of class `c` (R55, R56). -/
def State.ttRoom (s : State) (c : Cls) : Bool :=
  if c = .express then decide (s.ing.tt.length < 16384)
  else decide ((s.ing.tt.filter (fun e => decide (e.cls ≠ .express))).length < 16384 - s.expReserve)
    && decide (s.ing.tt.length < 16384)

/-- The Express cut-off sample of a period (R12). -/
def State.expCut (s : State) : Nat := 3 * s.blk / 4

/-- The first block whose release set for class `c` is still open (R12, R13). -/
def State.openBlock (s : State) (c : Cls) : Nat :=
  let t := s.period
  if c = .express then if s.offset > s.expCut ∨ s.clk.expressDone > t then t + 3 else t + 2
  else if s.offset > 0 ∨ s.clk.boundaryDone > t then t + 3 else t + 2

/-- The block a stamp names (R52). -/
def State.stampBlock (s : State) (stamp : Nat) : Nat := stamp / 256 / s.blk

/-- The block of effect of an entry, were it released now (R66). -/
def State.effectBlock (s : State) (e : TtEntry) : Nat :=
  match e.stamp with
  | some m => max (s.stampBlock m) (s.openBlock e.cls)
  | none => s.openBlock e.cls

/-! ### Entry of one event -/

/-- What becomes of an event that reaches the Timetable: it is taken (entered, consumed, rejected or discarded), or it is held at
its source (R45, R56). -/
inductive Intake where
  | taken (s : State)
  | held

/-- An event as a front end hands it over. -/
structure Incoming where
  src : Nat
  net : Bool             -- from Network MIDI 2.0
  ump : List Word
  stamp : Option Nat     -- STAMP of a ring or FIFO entry; none is "now"
  clsCode : Nat          -- CLASS of a ring or FIFO entry
  notify : Bool
  tag : Word
  arr : Nat
  seq : Nat

/-- The class of an event (R55). -/
def State.eventClass (s : State) (e : Incoming) (part : Option Nat) : Cls :=
  if e.clsCode ≠ 0 ∧ s.bit (Reg.ING_SRC_CFG e.src) 1 ∧ e.net = false then clsOfCode e.clsCode
  else match part with
    | some p => clsOfCode (s.fld (Reg.VA_PART_CFG p) 1 2)
    | none => clsOfCode (s.fld (Reg.ING_SRC_CFG e.src) 2 2)

/-- The MT that a pending MT Stamp of value `v` names for an arrival at `arr` (R51). -/
def reconstructStamp (v arr : Nat) : Nat :=
  let a := arr / 256
  let d : Nat := (v + 2 ^ 20 - a % 2 ^ 20) % 2 ^ 20
  let sample : Int := (a : Int) + (if d ≥ 2 ^ 19 then (d : Int) - (2 ^ 20 : Nat) else (d : Int))
  wrapTo 56 sample * 256

/-- A fence from a source goes to the list of fences that wait for their placement (R62). -/
def State.addFence (s : State) (f : FenceRec) : State :=
  { s with ing := { s.ing with waiting := s.ing.waiting ++ [f], idx := s.ing.idx + 1 } }

/-- The pending MT Stamp of a source is used up. -/
def State.clearMtStamp (s : State) (src : Nat) : State :=
  { s with ing := { s.ing with mtStamp := Sparse.put (fun _ => 0) s.ing.mtStamp src 0 } }

/-- Whether a hard steal withholds an event from block `n` (R86). -/
def State.withheld (s : State) (lane n : Nat) : Bool :=
  s.pool.withholds.any (fun w => decide (w.1 = lane) && decide (n < w.2))

/-- Whether an event of a lane stamped for sample `m` is late: its block is closed for its class (R53), and no withhold of its lane ends
after that sample (R86). -/
def State.lateStamp (s : State) (lane : Nat) (c : Cls) (m : Nat) : Bool :=
  decide (modDiff 56 m (s.openBlock c * s.blk) < 0) &&
    !s.pool.withholds.any (fun w => decide (w.1 = lane) && decide (modDiff 56 m (w.2 * s.blk) < 0))

/-- A mapped message enters the Timetable with the stamp `stamp` (R49, R52 to R56). -/
def State.enterMapped (s : State) (e : Incoming) (u : List Word) (stamp : Option Nat) : Intake :=
  let map := s.reg (Reg.ING_PART_MAP (umpGroup u * 16 + umpChan u))
  if fieldOf map 7 1 = 0 then .taken (s.rejectMsg e.src 8 e.ump e.arr e.tag)
  else if e.stamp.isSome ∧ modDiff 56 ((stamp.getD 0) / 256) (e.arr / 256) > 2 ^ 24 then
    .taken (s.rejectMsg e.src 3 e.ump e.arr e.tag)
  else
    let part := fieldOf map 0 6
    let c := s.eventClass e (some part)
    if s.ttRoom c = false then
      if e.net then .taken ((s.dropEvent e.src 0 e.ump e.arr e.tag).raise Page.ing 0) else .held
    else
      let late := match stamp with
        | some m => s.lateStamp (laneOf e.src u) c (m / 256)
        | none => false
      let x : TtEntry :=
        { ump := u, src := e.src, arr := e.arr, seq := e.seq, idx := s.ing.idx, stamp := stamp, cls := c, part := part, late := late,
          notify := e.notify, tag := e.tag, hostStamped := e.stamp.isSome }
      let s1 := State.count { s with ing := { s.ing with tt := s.ing.tt ++ [x], idx := s.ing.idx + 1 } } (411 - codeOfCls c) 1
      .taken (if late then ((s1.bump Reg.ING_LATE_CNT).raise Page.ing 1).count 412 1 else s1)

/-- A message of an enabled source reaches the Timetable (R48 to R56). -/
def State.acceptMessage (s : State) (e : Incoming) : Intake :=
  let u := umpTrim e.ump
  let t := umpType u
  let pend := Sparse.get (fun _ => 0) s.ing.mtStamp e.src
  let s0 := if umpTakesStamp t then s.clearMtStamp e.src else s
  match umpKind u with
  | .malformed r => .taken (s0.rejectMsg e.src r e.ump e.arr e.tag)
  | .consumed => .taken s0
  | .mtStamp =>
    if s.bit (Reg.ING_SRC_CFG e.src) 4 then
      .taken { s with ing := { s.ing with
        mtStamp := Sparse.put (fun _ => 0) s.ing.mtStamp e.src (fieldOf (umpWord u 0) 0 20 + 1) } }
    else .taken (s.rejectMsg e.src 4 e.ump e.arr e.tag)
  | .fence =>
    if s.bit (Reg.ING_SRC_CFG e.src) 4 then
      if 256 ≤ s.ing.fences.length then .taken ((s.dropEvent e.src 0 e.ump e.arr e.tag).raise Page.ing 0)
      else
        .taken (s.addFence
          { ident := fieldOf (umpWord u 0) 0 16, all := decide (fieldOf (umpWord u 0) 19 1 = 1), src := e.src, glb := false,
            arr := e.arr, seq := e.seq, idx := s.ing.idx, notify := false, tag := e.tag, floor := 0 })
    else .taken (s.rejectMsg e.src 4 e.ump e.arr e.tag)
  | .forward =>
    if s.bit Reg.ING_NTF_CFG 19 then .taken (s0.postNtf (ntfEntry (umpBytes u) e.arr ntfForward 0 e.src e.tag))
    else .taken (s0.bump Reg.ING_DROP_CNT)
  | .mapped =>
    let stamp := match e.stamp with
      | some m => some (m / 256 * 256)
      | none => if pend = 0 then none else some (reconstructStamp (pend - 1) e.arr)
    s0.enterMapped e (umpTranslate u) stamp

/-- A message of an enabled source reaches the Timetable. An injection of detector 0x0800 rejects a message that has no error of its
own (R357, R358); its reason is a free value. -/
def State.takeMessage (s : State) (e : Incoming) : Intake :=
  match s.acceptMessage e with
  | .held => .held
  | .taken t =>
    let c := s.check Page.ing 0 e.src (decide (t.pmuGet 502 ≠ s.pmuGet 502))
    if c.inj then
      let d := c.st.draw 4
      .taken (d.2.rejectBy e.src d.1 e.ump e.arr e.tag true)
    else .taken t

/-- Whether a source's events are accepted: its ING_SRC_CFGn.EN (R57). -/
def State.srcEnabled (s : State) (src : Nat) : Bool := s.bit (Reg.ING_SRC_CFG src) 0

/-- A message reaches the Timetable, or is discarded because its source is disabled (R57, R447) or ingress is stopped (R66). -/
def State.intake (s : State) (e : Incoming) : Intake :=
  if s.srcEnabled e.src = false ∨ (e.net ∧ s.bit Reg.ING_CTRL 0 = false) ∨ (e.net ∧ s.pageOn Page.ing = false) then
    .taken (s.dropEvent e.src 1 e.ump e.arr e.tag)
  else s.takeMessage e

/-! ### Fences (R61 to R63, R448) -/

/-- Whether a fence's scope covers a source. -/
def FenceRec.inScope (f : FenceRec) (src : Nat) : Bool := f.all || decide (src = f.src)

/-- Whether what arrived from `src` at place `seq`, as the message `idx`, arrived before a fence; with equal stamps it did (R62). -/
def FenceRec.follows (f : FenceRec) (src seq idx : Nat) : Bool :=
  if f.glb = false ∧ src = f.src then decide (idx < f.idx) else decide (seq ≤ f.seq)

/-- Whether an event arrived before a fence. -/
def FenceRec.after (f : FenceRec) (e : TtEntry) : Bool := f.follows e.src e.seq e.idx

/-- Whether a fence covers an event: in its scope, and arrived before it. -/
def FenceRec.coversEntry (f : FenceRec) (e : TtEntry) : Bool := f.inScope e.src && f.after e

/-- Whether a fence holds an event behind what it covers. -/
def FenceRec.holds (f : FenceRec) (e : TtEntry) : Bool := f.inScope e.src && !f.after e

/-- Whether an event of the fence's scope that arrived earlier has still to enter the Timetable: it is in a host ring or in the
SPI FIFO (R62). -/
def State.fenceAwaits (s : State) (f : FenceRec) : Bool :=
  (List.range 8).any (fun n =>
    f.inScope (32 + n) && (f.glb || decide (f.src ≠ 32 + n)) &&
      (Sparse.get (fun _ => []) s.ing.doorbells n).any (fun a => decide (a.seq ≤ f.seq)))
  || (f.inScope 40 && (f.glb || decide (f.src ≠ 40)) && s.ing.spi.any (fun x => decide (x.2.seq ≤ f.seq)))

/-- Places the first waiting fence that can be placed. -/
def State.placeFence (s : State) : State :=
  match s.ing.waiting.find? (fun f => !s.fenceAwaits f) with
  | none => s
  | some f =>
    if 256 ≤ s.ing.fences.length then s
    else { s with ing := { s.ing with waiting := s.ing.waiting.erase f, fences := s.ing.fences ++ [f] } }

/-- ING_LAST_FENCE.SRC of a fence. -/
def FenceRec.srcField (f : FenceRec) : Nat := if f.glb ∧ f.all then 63 else f.src

/-- Completes the oldest fence whose covered events have all left the Timetable (R63). -/
def State.completeFence (s : State) : State :=
  match s.ing.fences.find? (fun f => !s.ing.tt.any (fun e => f.coversEntry e)) with
  | none => s
  | some f =>
    let s1 := { s with ing := { s.ing with fences := s.ing.fences.erase f, floors := s.ing.floors ++ [f] } }
    let s2 := s1.setReg Reg.ING_LAST_FENCE
      (BitVec.ofNat 32 (2 ^ 31 + (if f.all then 2 ^ 24 else 0) + f.srcField * 2 ^ 16 + f.ident % 2 ^ 16))
    let s3 := (s2.raise Page.ing 4).count 413 1
    if s.bit Reg.ING_NTF_CFG 17 ∨ f.notify then
      s3.postNtf (ntfEntry (leBytes 4 (f.ident % 2 ^ 16 + (if f.all then 2 ^ 24 else 0))) s.clk.mt.toNat ntfFenceDone 0
        (if f.glb then 0xFF else f.src) f.tag)
    else s3

/-! ### Release (R12, R52, R58, R59, R61, R86) -/

/-- The sample of an entry's timestamp: its stamp, or its arrival for "now" (R52). -/
def TtEntry.ts (e : TtEntry) : Nat := match e.stamp with
  | some m => m / 256
  | none => e.arr / 256

/-- Media-time order of entries: timestamp, then arrival, then order at the source. -/
def TtEntry.precedes (a b : TtEntry) : Bool :=
  if a.ts ≠ b.ts then decide (modDiff 56 a.ts b.ts < 0)
  else if a.seq ≠ b.seq then decide (a.seq < b.seq)
  else decide (a.idx < b.idx)

/-- Insertion by media-time order. -/
def insertEntry (e : TtEntry) : List TtEntry → List TtEntry
  | [] => [e]
  | x :: xs => if e.precedes x then e :: x :: xs else x :: insertEntry e xs

/-- A list of entries in media-time order. -/
def sortEntries : List TtEntry → List TtEntry
  | [] => []
  | e :: es => insertEntry e (sortEntries es)

/-- Every fence that orders events: waiting, placed, or completed. -/
def State.allFences (s : State) : List FenceRec := s.ing.waiting ++ s.ing.fences

/-- Whether a fence keeps `e` in the Timetable: one that holds `e` covers an entry that has not been released. -/
def State.fenceBlocks (s : State) (e : TtEntry) : Bool :=
  s.allFences.any (fun f => f.holds e && (s.fenceAwaits f || s.ing.tt.any (fun d => f.coversEntry d)))

/-- The latest sample at which an event that a fence covers took effect, whether it was released before the fence arrived or since. -/
def State.fenceFloor (s : State) (f : FenceRec) : Nat :=
  s.ing.effects.foldl (fun m x => if f.inScope x.src && f.follows x.src x.seq x.idx then max m x.sample else m) f.floor

/-- What the release of an event leaves for later ones. -/
def TtEntry.effect (e : TtEntry) (sample : Nat) : Effect :=
  { lane := laneOf e.src e.ump, src := e.src, seq := e.seq, idx := e.idx, sample := sample }

/-- The earliest sample at which `e` may take effect for its lane and its fences (R59, R61). -/
def State.floorOf (s : State) (e : TtEntry) : Nat :=
  let l := laneOf e.src e.ump
  let a := (s.ing.effects.filter (fun x => decide (x.lane = l))).foldl (fun m x => max m x.sample) 0
  (s.ing.waiting ++ s.ing.fences ++ s.ing.floors).foldl (fun m f => if f.holds e then max m (s.fenceFloor f) else m) a

/-- The sample on which an entry released into block `n` takes effect: its own, not before the block, its lane's last event or the
events before its fences. -/
def State.releaseSample (s : State) (e : TtEntry) (n : Nat) : Nat :=
  let own := match e.stamp with
    | some m => max (m / 256) (n * s.blk)
    | none => n * s.blk
  max own (s.floorOf e)

/-- Whether an entry belongs to the release set of block `n` for the classes chosen: its block has come, no hard steal
withholds it, and no fence blocks it. -/
def State.releasable (s : State) (express : Bool) (n : Nat) (e : TtEntry) : Bool :=
  decide ((e.cls = .express) = (express = true)) &&
  (match e.stamp with
   | some m => decide (s.stampBlock m ≤ n)
   | none => true) &&
  !s.withheld (laneOf e.src e.ump) n && !s.fenceBlocks e && decide (s.releaseSample e n < (n + 1) * s.blk)

/-- Takes one entry out of the Timetable: its sample binds its lane and the fences that cover it. -/
def State.releaseOne (s : State) (e : TtEntry) (sample : Nat) : State :=
  let up := fun (f : FenceRec) => if f.coversEntry e then { f with floor := max f.floor sample } else f
  { s with ing := { s.ing with
    tt := s.ing.tt.erase e
    waiting := s.ing.waiting.map up
    fences := s.ing.fences.map up
    effects := e.effect sample :: s.ing.effects } }

/-- The RELEASED and LATE notifications of an entry that takes effect on `sample` (R53, R64). -/
def State.reportRelease (s : State) (e : TtEntry) (sample : Nat) : State :=
  let s1 := s.count 411 1
  let s2 := if e.notify then s1.postNtf (ntfEntry (umpBytes e.ump) e.arr ntfReleased 0 e.src e.tag) else s1
  if e.late ∧ s.bit Reg.ING_NTF_CFG 18 then
    s2.postNtf (ntfEntry (umpBytes (e.ump.take 2) ++ leBytes 8 (sample * 256)) (e.stamp.getD 0) ntfLate 0 e.src e.tag)
  else s2

/-- Releases entries one at a time, the first releasable in media-time order each time, until none is left or the Express limit
of R58 stops it. Answers the state and the released events in order. -/
def State.releaseLoop (s : State) (express : Bool) (n : Nat) : Nat → State × List Released
  | 0 => (s, [])
  | fuel + 1 =>
    if express ∧ s.ing.expBlock = n ∧ s.expMax ≤ s.ing.expCount then (s, [])
    else match (sortEntries s.ing.tt).find? (fun e => s.releasable express n e) with
      | none => (s, [])
      | some e =>
        let x := s.releaseSample e n
        let s1 := s.releaseOne e x
        let s2 := if express then
            { s1 with ing := { s1.ing with expBlock := n, expCount := if s1.ing.expBlock = n then s1.ing.expCount + 1 else 1 } }
          else s1
        let r := s2.releaseLoop express n fuel
        (r.1, { entry := e, sample := x, split := false, begun := false } :: r.2)

/-- Whether an event of a closed release set stays in the Timetable after all: a hard steal of an earlier event of the set withholds its
lane, or a fence holds it behind an event that stays (R61, R86). -/
def State.staysBehind (s : State) (n : Nat) (e : TtEntry) : Bool := s.withheld (laneOf e.src e.ump) n || s.fenceBlocks e

/-- Puts an event back into the Timetable. One that has been released before, and was moved to this block, is not reported again. -/
def State.putBack (s : State) (r : Released) (again : Bool) : State :=
  let e : TtEntry := if again then { r.entry with late := false, notify := false } else r.entry
  { s with ing := { s.ing with tt := s.ing.tt ++ [e] } }

/-- Insertion of a released event by its effect sample, after those of the same sample. -/
def insertReleased (x : Released) : List Released → List Released
  | [] => [x]
  | y :: ys => if x.sample < y.sample then x :: y :: ys else y :: insertReleased x ys

/-- Released events in the order of their effect samples; equal samples keep their order. -/
def sortReleased (l : List Released) : List Released := l.foldl (fun acc x => insertReleased x acc) []

/-- Samples below the first one that can still be released into no longer bind. -/
def State.pruneFloors (s : State) (first : Nat) : State :=
  { s with ing := { s.ing with
    effects := s.ing.effects.filter (fun x => decide (first ≤ x.sample))
    floors := s.ing.floors.filter (fun f => decide (first ≤ s.fenceFloor f)) } }

/-- Closes the release set of block `n` (TIMETABLE_RELEASE, R12), and defers the Express events beyond EXP_MAX (R58). -/
def State.ttRelease (s : State) (express : Bool) (n : Nat) : State × List Released :=
  let r := s.releaseLoop express n s.ing.tt.length
  let excess := if express ∧ r.1.ing.expBlock = n ∧ r.1.expMax ≤ r.1.ing.expCount then
      (r.1.ing.tt.filter (fun e => r.1.releasable true n e)).length
    else 0
  let s1 := r.1.pruneFloors ((n + 1) * s.blk - s.blk)
  let s2 := if excess = 0 then s1 else (s1.bumpBy Reg.ING_EXP_DEFER_CNT excess).raise Page.ing 7
  (s2, sortReleased r.2)

/-- Discards every Timetable entry for which `p` holds, reporting each (R66). -/
def State.discardEntries (s : State) (p : TtEntry → Bool) : State :=
  (s.ing.tt.filter p).foldl
    (fun t e => State.dropEvent { t with ing := { t.ing with tt := t.ing.tt.erase e } } e.src 1 e.ump e.arr e.tag) s

end Sys2Proof.Machine
end

