-- ==== Sys2Proof/Machine/Store.lean ====
section
/-! DEFINITION. The Parameter Store: frames, the writes of events, split records and journals, host writes, and the preparation of a voice
(R75, R100 to R112, R123, R127, R361). -/

namespace Sys2Proof.Machine

/-! ### Frames (R100, R101, R361) -/

/-- Address of word `w` of a voice frame. -/
abbrev frameAddr (x w : Nat) : Nat := 0x00800000 + 4096 * x + 4 * w
/-- Address of word `w` of a part frame. -/
abbrev partAddr (p w : Nat) : Nat := 0x00C40000 + 16384 * p + 4 * w
/-- Address of word `w` of the global frame. -/
abbrev globalAddr (w : Nat) : Nat := 0x00D40000 + 4 * w
/-- Address of an event journal. -/
abbrev journalAddr (x : Nat) : Nat := 0x00440000 + 1024 * x
/-- Address of a home. -/
abbrev homeAddr (x : Nat) : Nat := 4096 * x

/-- Writes one word of a frame, plainly, with what a write clears (R297). -/
def State.putFrame (s : State) (a : Nat) (v : Word) : State := s.conStore a (leBytes 4 v.toNat)

/-- Writes words from an address. -/
def State.putFrames (s : State) (a : Nat) (ws : List Word) : State := s.conStore a ((ws.map (fun w => leBytes 4 w.toNat)).flatten)

/-- A frame word with every write that waits for its block's deadline, up to effect sample `at_` when one is given (R107, R113). -/
def State.frameView (s : State) (a : Nat) (at_ : Option Nat) : Word :=
  match (s.pool.splits.filter (fun w => decide (w.addr = a) && (match at_ with
    | some t => decide (w.sample ≤ t)
    | none => true))).getLast? with
  | some w => w.value
  | none => s.conWord a

/-- A frame word as it stands after every write processed so far. -/
def State.frameWord (s : State) (a : Nat) : Word := s.frameView a Option.none

/-! ### Journals and split records (R127, R361) -/

/-- Split records in a slot's journal for block `n`. -/
def State.records (s : State) (x n : Nat) : Nat :=
  if (s.conWord (journalAddr x)).toNat = bseqOf n then (s.conWord (journalAddr x + 4)).toNat % 2 ^ 16 else 0

/-- The journal's header for block `n`: its number and count of records. -/
def State.setJournal (s : State) (x n count : Nat) : State :=
  let e := (s.conWord (journalAddr x + 4)).toNat / 2 ^ 16
  (s.putFrame (journalAddr x) (BitVec.ofNat 32 n)).putFrame (journalAddr x + 4) (BitVec.ofNat 32 (count % 2 ^ 16 + e * 2 ^ 16))

/-- EPOCH of a journal. -/
def State.setJournalEpoch (s : State) (x e : Nat) : State :=
  s.putFrame (journalAddr x + 4) (setFieldOf (s.conWord (journalAddr x + 4)) 16 16 e)

/-- LAST_MT of a journal, for an event on sample `t`. -/
def State.journalMt (s : State) (x t : Nat) : State :=
  (s.putFrame (journalAddr x + 8) (BitVec.ofNat 32 (t * 256))).putFrame (journalAddr x + 12) (BitVec.ofNat 32 (t * 256 / 2 ^ 32))

/-- One frame word that an event writes: its window offset, its value, and whether its record carries RELEASE. -/
structure FrameWrite where
  off : Nat
  value : Word
  release : Bool

/-- The first word of a journal record: a frame write of an event on sample `o`, the event's last or not (R361). -/
def recordWord (o : Nat) (last : Bool) (w : FrameWrite) : Word :=
  BitVec.ofNat 32 (o + (if last then 2 ^ 8 else 0) + (if w.release then 2 ^ 9 else 0) + (if 0x1000 ≤ w.off then 2 ^ 10 else 0) +
    w.off * 2 ^ 16)

/-- Adds a record to a slot's journal of block `n`. -/
def State.addRecord (s : State) (x n : Nat) (word value : Word) : State :=
  let k := s.records x n
  let s1 := (s.putFrame (journalAddr x + 16 + 8 * k) word).putFrame (journalAddr x + 20 + 8 * k) value
  (s1.setJournal x n (k + 1)).count 450 1

/-- Adds the records of one event on sample `o` of block `n` to a slot's journal. -/
def State.addRecords (s : State) (x n o : Nat) (l : List FrameWrite) : State :=
  l.zipIdx.foldl (fun t e => t.addRecord x n (recordWord o (decide (e.2 + 1 = l.length)) e.1) e.1.value) s

/-- A frame write of an event on sample `t`: at once when `t` is the first sample of block `n`, or at the block's deadline. -/
def State.placeWrite (s : State) (n t a : Nat) (v : Word) : State :=
  if t ≤ n * s.blk then s.putFrame a v
  else { s with pool := { s.pool with splits := s.pool.splits ++ [{ block := n, sample := t, addr := a, value := v }] } }

/-- The writes of the blocks up to `n` reach their frames, and the journals give up their records (R107, R361). -/
def State.settle (s : State) (n : Nat) : State :=
  let due := s.pool.splits.filter (fun w => decide (w.block ≤ n))
  let s1 := due.foldl (fun u w => u.putFrame w.addr w.value)
    { s with pool := { s.pool with splits := s.pool.splits.filter (fun w => decide (n < w.block)) } }
  (s1.liveSlots.map (fun e => e.1)).foldl (fun u x =>
    if (u.conWord (journalAddr x + 4)).toNat % 2 ^ 16 = 0 then u
    else u.putFrame (journalAddr x + 4) (setFieldOf (u.conWord (journalAddr x + 4)) 0 16 0)) s1

/-! ### What an event writes (R104 to R106) -/

/-- A lane's voices that per-note messages reach: PENDING, ACTIVE or RELEASING (R104). -/
def State.laneVoices (s : State) (lane : Nat) : List Nat :=
  (s.liveSlots.filter (fun e => decide (e.1 < 1024) && decide (e.2.note.lane = lane) && e.2.leavesAt.isNone &&
    decide (e.2.st = .pending ∨ e.2.st = .active ∨ e.2.st = .releasing))).map (fun e => e.1)

/-- A Part's voices that carry the records of its part frame's writes. -/
def State.partVoices (s : State) (p : Nat) : List Nat :=
  (s.liveSlots.filter (fun e => decide (e.1 < 1024) && decide (e.2.part = p))).map (fun e => e.1)

/-- The per-note defaults of a Part as writes of the words 0x210 to 0x2EF (R103, R104). -/
def State.perNoteDefaults (s : State) (p : Nat) : List FrameWrite :=
  (List.range 0xE0).map (fun i => { off := 0x210 + i, value := s.frameWord (partAddr p (0xD10 + i)), release := false })

/-- What a per-note message writes into the frame of voice `x`; none where its index is not stored. -/
def State.noteWrites (s : State) (x : Nat) (u : List Word) : Option (List FrameWrite) :=
  let one := fun (o : Nat) => some [({ off := o, value := umpWord u 1, release := false } : FrameWrite)]
  let i := umpData2 u
  match umpStatus u with
  | 0xA => one 0x205
  | 0x6 => one 0x204
  | 0x0 => if i = 3 then one 0x203 else if i < 128 then one (0x210 + i) else Option.none
  | 0x1 => if i < 96 then one (0x290 + i) else Option.none
  | 0xF =>
    let note := s.frameWord (frameAddr x 0x200)
    some ((if bitsOf i 1 1 = 1 then [{ off := 0x200, value := setFieldOf note 30 1 1, release := false }] else [])
      ++ (if bitsOf i 0 1 = 1 then s.perNoteDefaults (s.slot x).part
            ++ [{ off := 0x204, value := 0x80000000#32, release := false }, { off := 0x205, value := 0, release := false }]
          else []))
  | _ => some []

/-- What a channel message writes into a part frame; none where its bank is not stored. -/
def State.partWrites (s : State) (p : Nat) (u : List Word) : Option (List FrameWrite) :=
  let at_ := fun (w : Nat) (v : Word) => ({ off := 0x1000 + w, value := v, release := false } : FrameWrite)
  let v := umpWord u 1
  let bank := umpNote u
  let i := fieldOf (umpWord u 0) 0 7
  let rel := fun (w : Nat) =>
    let t : Int := ((s.frameWord (partAddr p w)).toNat : Int) + v.toInt
    if t < 0 then (0 : Word) else BitVec.ofNat 32 (min 0xFFFFFFFF t.toNat)
  match umpStatus u with
  | 0xB =>
    let cc := umpNote u
    if cc < 120 then some [at_ cc v]
    else if cc = 121 then
      let sel := (List.range 0x80).filter (fun w => decide (fieldOf (s.frameWord (partAddr p (0xF80 + w / 32))) (w % 32) 1 = 1))
      some (sel.map (fun w => at_ w (s.frameWord (partAddr p (0xF00 + w)))) ++ [at_ 0x80 0, at_ 0x81 0x80000000#32])
    else some []
  | 0xD => some [at_ 0x80 v]
  | 0xE => some [at_ 0x81 v]
  | 0xC => some [at_ 0x82 (BitVec.ofNat 32 (2 ^ 31 + fieldOf v 24 7))]
  | 0x2 => if bank < 16 then some [at_ (0x100 + 128 * bank + i) v] else Option.none
  | 0x4 => if bank < 16 then some [at_ (0x100 + 128 * bank + i) (rel (0x100 + 128 * bank + i))] else Option.none
  | 0x3 => if bank < 12 ∧ bank ≠ 8 ∧ bank ≠ 9 then some [at_ (0x900 + 128 * bank + i) v] else Option.none
  | 0x5 => if bank < 12 ∧ bank ≠ 8 ∧ bank ≠ 9 then some [at_ (0x900 + 128 * bank + i) (rel (0x900 + 128 * bank + i))] else Option.none
  | _ => some []

/-- Applies an event's writes of the frame of voice `x` on sample `t` of block `n`. -/
def State.writeVoice (s : State) (x n t : Nat) (ws : List FrameWrite) : State :=
  let s1 := ws.foldl (fun u w => u.placeWrite n t (frameAddr x w.off) w.value) s
  (if n * s.blk < t then s1.addRecords x n (t - n * s.blk) ws else s1).journalMt x t

/-- Applies an event's writes of a part frame on sample `t` of block `n`, with the records of the Part's voices. -/
def State.writePart (s : State) (p n t : Nat) (ws : List FrameWrite) : State :=
  let s1 := ws.foldl (fun u w => u.placeWrite n t (partAddr p (w.off - 0x1000)) w.value) s
  (s.partVoices p).foldl (fun u x =>
    (if n * s.blk < t then u.addRecords x n (t - n * s.blk) ws else u).journalMt x t) s1

/-- Whether the records of an event fit the tasks of the voices it writes (R127): `k` more for each of them. -/
def State.recordsFit (s : State) (xs : List Nat) (n t k : Nat) : Bool :=
  decide (t ≤ n * s.blk) || xs.all (fun x => decide (s.records x n + k ≤ 64))

/-! ### Preparing a voice (R75, R103, R112) -/

/-- Prepares slot `x` for a note of Part `p` that starts on sample `t` of block `n`, from the template that register word `tmpl`
names. -/
def State.prepareFrame (s : State) (x p n t : Nat) (note : Note) (tmpl : Word) : State :=
  let base := (fieldOf tmpl 10 15 + fieldOf tmpl 25 7) * 1024 % 2 ^ 25
  let defaults := (List.range 0xE0).map (fun i => s.conWord (partAddr p (0xD10 + i)))
  let s1 := s.putFrames (frameAddr x 0) (s.conWords base 256)
  let s2 := (s1.clearCon (frameAddr x 0x200) 0x800).clearCon (homeAddr x) 4096
  let noteWord := note.key + note.group * 2 ^ 8 + note.chan * 2 ^ 12 + p * 2 ^ 16
  let pitch := if note.attrType = 3 then note.attrData * 2 ^ 16 else note.key * 2 ^ 25
  let s3 := (s2.putFrames (frameAddr x 0x210) defaults).putFrames (frameAddr x 0x200)
    [BitVec.ofNat 32 noteWord, BitVec.ofNat 32 (note.velocity * 2 ^ 16), BitVec.ofNat 32 (note.attrType * 2 ^ 24 + note.attrData),
     BitVec.ofNat 32 pitch, 0x80000000#32, 0, 0, 0, BitVec.ofNat 32 t, BitVec.ofNat 32 (t / 2 ^ 32), 0xFFFFFFFF#32, 0xFFFFFFFF#32]
  let gone := fun (a : Nat) => decide (frameAddr x 0 ≤ a) && decide (a < frameAddr x 1024)
  let s4 : State := { s3 with
    pool := { s3.pool with
      splits := s3.pool.splits.filter (fun w => !gone w.addr)
      fb := s3.pool.fb.filter (fun e => decide (e.1 / 8 ≠ x)) }
    ctl := { s3.ctl with
      bad := s3.ctl.bad.filter (fun w => !(decide (homeAddr x / 16 ≤ w) && decide (w < homeAddr x / 16 + 256))
        && !(decide (frameAddr x 0x200 / 16 ≤ w) && decide (w < frameAddr x 0x400 / 16))) } }
  (s4.setJournal x n 0).journalMt x t

/-- A shadow steal moves a voice's home, frame, journal and committed feedback words from slot `a` to slot `b` (R82). -/
def State.moveFrame (s : State) (a b : Nat) : State :=
  let copy := fun (u : State) (src dst n : Nat) => (u.clearCon dst n).conStore dst (s.conBytes src n)
  let s1 := copy (copy (copy s (homeAddr a) (homeAddr b) 4096) (frameAddr a 0) (frameAddr b 0) 4096) (journalAddr a) (journalAddr b) 1024
  let fb := (List.range 8).foldl (fun m i =>
    Sparse.put (fun _ => 0) m (8 * b + i) (Sparse.get (fun _ => 0) s.pool.fb (8 * a + i))) s1.pool.fb
  let moved := s1.pool.splits.map (fun w =>
    if frameAddr a 0 ≤ w.addr ∧ w.addr < frameAddr a 1024 then { w with addr := w.addr - frameAddr a 0 + frameAddr b 0 } else w)
  { s1 with pool := { s1.pool with fb := fb, splits := moved } }

/-! ### Host writes (R109, R110, R123) -/

/-- Whether a host write is to be refused. -/
def State.refusesHostWrite (s : State) (tgt : Word) : Bool :=
  let kind := fieldOf tgt 30 2
  let index := fieldOf tgt 16 11
  let word := fieldOf tgt 0 14
  s.pageOn Page.ps = false || decide (64 ≤ s.pool.hostWrites.length) || decide (kind = 3) ||
    (decide (kind = 0) && (decide (1024 ≤ index) || decide (0x100 ≤ word) || decide ((s.slot index).st = .free))) ||
    (decide (kind = 1) && (decide (64 ≤ index) || decide (4096 ≤ word)))

/-- PS_WR_DATA. -/
def actPsData (s : State) (_ : RegRow) (_ v : Word) : State :=
  let tgt := s.reg Reg.PS_WR_TGT
  if s.refusesHostWrite tgt then ((s.setBit Reg.PS_STAT 31 true).bump Reg.PS_WR_REJ_CNT).pageErrFlag Page.ps 0
  else
    { s with pool := { s.pool with hostWrites := s.pool.hostWrites ++ [(tgt, v)] } }.setFld Reg.PS_STAT 0 7 (s.pool.hostWrites.length + 1)

/-- The frame address that a host write names. -/
def hostTarget (tgt : Word) : Nat :=
  let index := fieldOf tgt 16 11
  let word := fieldOf tgt 0 14
  if fieldOf tgt 30 2 = 0 then frameAddr index word else if fieldOf tgt 30 2 = 1 then partAddr index word else globalAddr word

/-- HOST_PARAMETER_WRITE (R109): a write of PS_WR_DATA. -/
def execHostParameterWrite (path : Path) (v : Word) (s : State) : Host.Outcome State Fault Refusal :=
  .next (s.hostWrite (.host path) Reg.PS_WR_DATA v actPsData)

end Sys2Proof.Machine
end

