-- ==== Sys2Proof/Machine/Media.lean ====
section
/-! DEFINITION. Media time, its sources and the media PLL's state (R19 to R34): the commands of the CLK page and of the clock sources. -/

namespace Sys2Proof.Machine

/-! ### Sources and states (R30 to R34) -/

/-- The code of a source in CLK_MEDIA_STAT.SRC. -/
def codeOfSource : ClockSource → Nat
  | .gptp => 0
  | .wclk => 1
  | .crystal => 2

/-- The source that a field of CLK_SRC_ORDER names. -/
def sourceOfCode (n : Nat) : Option ClockSource :=
  if n = 0 then some .gptp else if n = 1 then some .wclk else none

/-- The selected source. -/
def State.source (s : State) : ClockSource := (sourceOfCode (s.fld Reg.CLK_MEDIA_STAT 4 2)).getD .crystal

/-- The sources in rank order; the crystal always comes last (R31). -/
def State.sourceOrder (s : State) : List ClockSource :=
  (([sourceOfCode (s.fld Reg.CLK_SRC_ORDER 0 2), sourceOfCode (s.fld Reg.CLK_SRC_ORDER 2 2)].filterMap id) ++ [ClockSource.crystal]).eraseDups

/-- Whether a source is qualified. -/
def State.qualified (s : State) : ClockSource → Bool
  | .gptp => s.clk.gptpQualified
  | .wclk => s.clk.wclkQualified
  | .crystal => true

/-- The first qualified source. -/
def State.firstSource (s : State) : ClockSource := (s.sourceOrder.find? (fun x => s.qualified x)).getD .crystal

/-- CLK_MEDIA_STAT.STATE: 0 STOPPED, 1 ACQUIRE, 2 LOCKED, 3 HOLDOVER, 4 FREERUN. -/
def State.pll (s : State) : Nat := s.fld Reg.CLK_MEDIA_STAT 1 3

/-- STATE changes: MEDIA_CLOCK_STATE is raised, and an entry to HOLDOVER is counted (R34). -/
def State.setPll (s : State) (v : Nat) : State :=
  if s.pll = v then s
  else
    let s1 := (s.setFld Reg.CLK_MEDIA_STAT 1 3 v).raise Page.clk 0
    if v = 3 then s1.bump Reg.CLK_FALLBACK_CNT else s1

/-- The frequency correction in force. -/
def State.setAdj (s : State) (v : Word) : State := s.setReg Reg.CLK_FREQ_ADJ v

/-- The largest magnitude of CLK_OFFSET. -/
abbrev offsetMax : Int := 2 ^ 31 - 1

/-- CLK_OFFSET for an offset in ns, and FAR when it lies outside the slew window (R24). -/
def State.setOffset (s : State) (ns : Int) : State :=
  let far := decide (s.source = .gptp) && decide (offsetMax < ns ∨ ns < -offsetMax)
  let s1 := s.setReg Reg.CLK_OFFSET (BitVec.ofInt 32 (max (-offsetMax) (min offsetMax ns)))
  let was := s.bit Reg.CLK_MEDIA_STAT 8
  let s2 := s1.setBit Reg.CLK_MEDIA_STAT 8 far
  if far ∧ ¬ was then s2.raise Page.clk 0 else s2

/-- The PLL's state on the selected source, when the servo starts on it: ACQUIRE, or on the crystal HOLDOVER once a source has been LOCKED
since RUN was set and FREERUN before (R31). -/
def State.acquire (s : State) : State :=
  if s.clk.famRelock then s.setPll 1
  else if s.source ≠ .crystal then s.setPll 1
  else if s.clk.lockedSinceRun then (s.setPll 3).setAdj s.clk.heldAdj
  else ((s.setPll 4).setAdj 0).setReg Reg.CLK_OFFSET 0

/-- A source is to be selected at the next block boundary (R32). -/
def State.selectNext (s : State) (x : ClockSource) : State :=
  { s with clk := { s.clk with nextSource := if x = s.source then none else some x } }

/-- The source `x` is lost (R30, R31): `avg` is the correction averaged over the last LOCKED interval. -/
def State.loseSource (s : State) (x : ClockSource) (avg : Word) (inj : Bool) : State :=
  let s1 : State := match x with
    | .gptp => { s with clk := { s.clk with gptpQualified := false } }
    | .wclk => { s with clk := { s.clk with wclkQualified := false } }
    | .crystal => s
  if x = .crystal then s
  else if s.source ≠ x then
    (if s1.clk.nextSource = some x then { s1 with clk := { s1.clk with nextSource := none } } else s1)
  else
    let held := if s.pll = 2 then avg else s.clk.heldAdj
    let s2 := (State.logError { s1 with clk := { s1.clk with heldAdj := held } } 0x0203 0 (codeOfSource x) inj)
    let s3 := if s.pll = 1 ∧ ¬ s.clk.famRelock ∨ s.pll = 2 then (s2.setPll 3).setAdj held else s2
    s3.selectNext s3.firstSource

/-- SOURCE_QUALIFIED (R30). -/
def execSourceQualified (x : ClockSource) (s : State) : Host.Outcome State Fault Refusal :=
  .next (match x with
    | .gptp => { s with clk := { s.clk with gptpQualified := true } }
    | .wclk => { s with clk := { s.clk with wclkQualified := true } }
    | .crystal => s)

/-- SOURCE_LOST (R30, R31). -/
def execSourceLost (x : ClockSource) (avg : Word) (s : State) : Host.Outcome State Fault Refusal :=
  if s.qualified x then .next (s.loseSource x avg false) else .next s

/-- SOURCE_PROMOTION (R32): the source `x`, which ranks above the selected one, has been qualified for 2.0 s. -/
def execSourcePromotion (x : ClockSource) (s : State) : Host.Outcome State Fault Refusal :=
  let above := s.sourceOrder.takeWhile (fun y => decide (y ≠ s.source))
  if s.qualified x ∧ above.contains x then .next (s.selectNext x) else .next s

/-- SOURCE_CHANGE (R24, R32): the change takes effect at a block boundary; `ns` is the offset to the new source, `avg` the correction of
the LOCKED interval that ends. -/
def execSourceChange (ns : Int) (avg : Word) (s : State) : Host.Outcome State Fault Refusal :=
  match s.clk.nextSource with
  | none => .next s
  | some x =>
    if s.running ∧ s.offset ≠ 0 then .next s
    else
      let held := if s.pll = 2 then avg else s.clk.heldAdj
      let s1 : State := { s with clk := { s.clk with nextSource := none, heldAdj := held } }
      let s2 := (s1.setFld Reg.CLK_MEDIA_STAT 4 2 (codeOfSource x)).raise Page.clk 0
      let s3 := s2.setOffset (if x = .crystal then 0 else ns)
      .next (if s3.pll = 0 then s3 else s3.acquire)

/-- MEDIA_PLL_LOCKED (R31): 16 consecutive measurements lie within CLK_LOCK_THR; `ns` is the offset and `adj` the correction. -/
def execMediaPllLocked (ns : Int) (adj : Word) (s : State) : Host.Outcome State Fault Refusal :=
  if s.pll ≠ 1 ∨ s.clk.famRelock ∨ s.source = .crystal ∨ s.bit Reg.CLK_MEDIA_STAT 8 ∨
      (max 1 (s.fld Reg.CLK_LOCK_THR 0 16) : Nat) < ns.natAbs then .next s
  else
    let s1 := ((s.setOffset ns).setAdj adj).setPll 2
    .next { s1 with clk := { s1.clk with lockedSinceRun := true } }

/-- CLK_SRC_ORDER: the new order selects at the next block boundary (R33). -/
def actSrcOrder (s : State) (r : RegRow) (old v : Word) : State :=
  let s1 := s.setReg Reg.CLK_SRC_ORDER (r.store old v)
  s1.selectNext s1.firstSource

/-! ### Start, stop and load (R21, R22, R26 to R29) -/

/-- RUN is set with media time stopped: the start is requested (R29). -/
def State.requestRun (s : State) : State :=
  let ofs := BitVec.ofNat 64 ((s.reg Reg.CLK_EPOCH_OFS_LO).toNat + (s.reg Reg.CLK_EPOCH_OFS_HI).toNat * 2 ^ 32)
  let t : State := { s with clk := { s.clk with lockedSinceRun := false, heldAdj := 0, epochOfs := ofs, rerun := false } }
  ((t.setBit Reg.CLK_MEDIA_CTRL 0 true).setBit (Reg.PAGE_STAT Page.clk) 0 false).acquire

/-- RUN is cleared (R28): block scheduling and routing stop, and the queues drain. -/
def State.requestStop (s : State) : State :=
  let s1 := s.setBit Reg.CLK_MEDIA_CTRL 0 false
  if s.running then
    let s2 := State.draining { s1 with clk := { s1.clk with stop := .draining } } Page.clk
    queueNumbers.foldl (fun u q =>
      let x := u.queue q
      if x.active then u.setQueue q { x with draining := true } else u) s2
  else s1.setPll 0

/-- The start value of CLK_MT_LOAD (R22). -/
def State.loadValue (s : State) : BitVec 64 :=
  let v := (s.reg Reg.CLK_MT_LOAD_LO).toNat + (s.reg Reg.CLK_MT_LOAD_HI).toNat * 2 ^ 32
  BitVec.ofNat 64 (v / (256 * s.blk) * (256 * s.blk))

/-- CLK_MEDIA_CTRL. A write that sets RUN again while a stop is in progress waits for its end (R28). -/
def actMediaCtrl (s : State) (_ : RegRow) (old v : Word) : State :=
  let was := decide (fieldOf old 0 1 = 1)
  let run := decide (fieldOf v 0 1 = 1)
  let s1 := if fieldOf v 1 1 = 1 ∧ ¬ was ∧ ¬ s.running ∧ s.source ≠ .gptp then
    { s with clk := { s.clk with mt := s.loadValue } } else s
  if run ∧ ¬ was then
    if s.running then { s1 with clk := { s1.clk with rerun := true } } else s1.requestRun
  else if ¬ run ∧ was then s1.requestStop
  else if ¬ run then { s1 with clk := { s1.clk with rerun := false } }
  else s1

/-- Whether some TDM port is set to 16 slots (R349). -/
def State.slots16 (s : State) : Bool := (List.range 4).any (fun p => decide (s.fld (Reg.TDM_P_CFG p) 2 2 = 3))

/-- A refused write of the TDM page, or one refused for its slots (R349). -/
def State.tdmRefuse (s : State) : State := (s.setBit Reg.TDM_STAT 31 true).pageErrFlag Page.tdm 0

/-- CLK_MEDIA_CFG (R26, R27, R349). -/
def actMediaCfg (s : State) (r : RegRow) (old v : Word) : State :=
  let new := r.store old v
  let illegal := fieldOf new 1 1 = 1 ∧ fieldOf new 2 2 = 0
  if illegal ∨ s.run ∨ s.running ∨ s.liveSlots.isEmpty = false then
    ((s.setBit Reg.CLK_MEDIA_STAT 6 true).pageErr Page.clk).raise Page.clk 2
  else if fieldOf new 1 1 = 1 ∧ s.slots16 then s.tdmRefuse
  else
    let s1 := s.setReg Reg.CLK_MEDIA_CFG new
    if fieldOf new 0 1 = fieldOf old 0 1 then s1
    else
      let s2 := (s1.setBit Reg.CLK_MEDIA_STAT 7 false).setBit Reg.CLK_PLL_STAT 3 false
      (State.setPll { s2 with clk := { s2.clk with famRelock := true } } 1).dacAll

/-- MEDIA_CONFIG_WRITE (R26, R27). -/
def execMediaConfigWrite (path : Path) (v : Word) (s : State) : Host.Outcome State Fault Refusal :=
  .next (s.hostWrite (.host path) Reg.CLK_MEDIA_CFG v actMediaCfg)

/-- MEDIA_STOP (R28): CLK_MEDIA_CTRL with RUN clear. -/
def execMediaStop (path : Path) (v : Word) (s : State) : Host.Outcome State Fault Refusal :=
  .next (s.hostWrite (.host path) Reg.CLK_MEDIA_CTRL (setFieldOf v 0 1 0) actMediaCtrl)

/-- MEDIA_RUN (R29): CLK_MEDIA_CTRL with RUN set. -/
def execMediaRun (path : Path) (v : Word) (s : State) : Host.Outcome State Fault Refusal :=
  .next (s.hostWrite (.host path) Reg.CLK_MEDIA_CTRL (setFieldOf v 0 1 1) actMediaCtrl)

/-- MT_LOAD (R22): CLK_MEDIA_CTRL with MT_LOAD set. -/
def execMtLoad (path : Path) (v : Word) (s : State) : Host.Outcome State Fault Refusal :=
  .next (s.hostWrite (.host path) Reg.CLK_MEDIA_CTRL (setFieldOf v 1 1 1) actMediaCtrl)

/-- MEDIA_STOP_COMPLETE (R28): at the first block boundary after every queue's fade. What waits for the deadline of a block that is not
rendered reaches its frame now. -/
def execMediaStopComplete (s : State) : Host.Outcome State Fault Refusal :=
  if s.clk.stop = .none ∨ s.running = false ∨ s.offset ≠ 0 ∨ queueNumbers.any (fun q => !s.queueFaded q) then .next s
  else
    let rerun := s.clk.rerun
    let s1 := (s.settle (s.period + 3)).setBit Reg.CLK_MEDIA_STAT 0 false
    let s2 : State := { s1 with clk := { s1.clk with stop := .none, rerun := false } }
    let s3 := queueNumbers.foldl (fun u q =>
      let x := u.queue q
      if x.draining then u.setQueue q { x with draining := false } else u) (s2.idle Page.clk)
    let s4 := s3.setPll 0
    let s5 := if s.powerState = 1 then s4.dacReleaseAll else s4
    .next (if rerun then s5.requestRun else s5)

/-- MEDIA_COUNTER_START (R21, R22, R29): the counter starts at a block boundary. `t` is gPTP time in nanoseconds when gPTP is selected. -/
def execMediaCounterStart (t : BitVec 64) (s : State) : Host.Outcome State Fault Refusal :=
  if s.run = false ∨ s.running ∨ s.pll < 2 then .next s
  else
    let unit := 256 * s.blk
    let raw := (t.toNat * s.fs * 256 / 1000000000 + s.clk.epochOfs.toNat) % 2 ^ 64
    let mt : BitVec 64 := if s.source = .gptp then BitVec.ofNat 64 ((raw + unit - 1) / unit * unit) else s.loadValue
    let p := mt.toNat / unit
    let s1 : State := { s with clk := { s.clk with
      mt := mt, startPeriod := p, boundaryDone := p, expressDone := p, deadlineDone := p, voiceSumDone := p, busDeadlineDone := p,
      finalSumDone := p, frameDone := p } }
    let s2 : State := { s1 with
      mix := { s1.mix with snaps := [], terms := [], voiceBlock := none, finalBlock := none }
      dec := { s1.dec with outBlock := none, capSeen := [] }
      sch := { s1.sch with tasks := s1.sch.tasks.filter (fun k => k.live), bulkClosed := none, overBlock := none }
      ctl := { s1.ctl with btWait := 0 } }
    let s3 := s2.setBit Reg.CLK_MEDIA_STAT 0 true
    .next (if s3.source = .gptp then s3.setBit Reg.CLK_MEDIA_STAT 8 false else s3)

/-! ### Reading media time (R25, R426) -/

/-- The latch of a path for a kind of counter: 0 CLK_MT, 1 PMU_CNT, 2 PTP_TIME. -/
def latchKey (kind : Nat) (path : Path) : Nat := 2 * kind + (match path with
  | .pcie => 0
  | .spi => 1)

/-- Latches an upper half for a path. -/
def State.latch (s : State) (kind : Nat) (path : Path) (v : Word) : State :=
  { s with latches := Sparse.put (fun _ => 0) s.latches (latchKey kind path) v }

/-- What a path has latched. -/
def State.latched (s : State) (kind : Nat) (path : Path) : Word := Sparse.get (fun _ => 0) s.latches (latchKey kind path)

/-- A read of CLK_MT_LO over a path, `frac` 1/256 samples into the present one. -/
def State.readMt (s : State) (path : Path) (frac : BitVec 8) : State × Word :=
  let t := if s.running then s.clk.mt.toNat + frac.toNat else s.clk.mt.toNat
  (s.latch 0 path (BitVec.ofNat 32 (t / 2 ^ 32)), BitVec.ofNat 32 t)

/-- MT_READ (R25). -/
def execMtRead (path : Path) (frac : BitVec 8) (s : State) : Host.Outcome State Fault Refusal :=
  let r := s.readMt path frac
  .next (if s.serving = false then s else r.1.send (.readData path [r.2]))

end Sys2Proof.Machine
end

