-- ==== Sys2Proof/Machine/PmuDump.lean ====
section
/-! DEFINITION. The PMU's dumps and the live read of its counters (R386 to R394). -/

namespace Sys2Proof.Machine

/-- INTERVAL in force. -/
def State.dumpInterval (s : State) : Nat := max 1 (s.fld Reg.PMU_CTRL 16 16)

/-- Records of the dump ring. -/
def State.dumpRing (s : State) : Nat := 2 ^ min 8 (max 1 (s.fld Reg.PMU_RING_CFG 0 4))

/-- A due dump is skipped (R390). -/
def State.skipDump (s : State) (inj : Bool) : State :=
  let t := (((s.count 511 1).pageErrFlag Page.pmu 0).raise Page.pmu 1).logError 0x0500 0 s.period inj
  { t with dump := { t.dump with skipped := min 0xFFFF (t.dump.skipped + 1) } }

/-- PMU_DUMP (R386, R387, R390): at a due block boundary a snapshot is taken, or the dump is skipped. -/
def execPmuDump (s : State) : Host.Outcome State Fault Refusal :=
  let p := s.period
  if s.bit Reg.PMU_CTRL 0 = false ∨ s.pageOn Page.pmu = false ∨ s.running = false ∨ s.offset ≠ 0 ∨ p % s.dumpInterval ≠ 0 ∨
      s.dump.done = p + 1 then .next s
  else
    let s1 : State := { s with dump := { s.dump with done := p + 1 } }
    let used := (s.fld Reg.PMU_PI 0 16 + 2 ^ 16 - s.fld Reg.PMU_CI 0 16) % 2 ^ 16
    let k := s1.check Page.pmu 0 0 (s.dump.snap.isSome || decide (used = s.dumpRing))
    if k.hit then .next (k.st.skipDump k.inj)
    else
      let x : Snapshot :=
        { mt := s.clk.mt, period := p, interval := s.dumpInterval, mediaCfg := s.reg Reg.CLK_MEDIA_CFG, counters := s.pmu
          inService := s.inService.foldl (fun a n => a + 2 ^ n) 0 }
      .next (State.setBit { s1 with dump := { s1.dump with snap := some x } } Reg.PMU_STAT 0 true)

/-- The bytes of a record (R388). -/
def Snapshot.record (x : Snapshot) (rseq skipped : Nat) (first : Bool) : List Byte :=
  leBytes 8 x.mt.toNat ++ leBytes 8 x.period ++ leBytes 2 rseq ++ leBytes 2 skipped ++ leBytes 2 x.interval ++
    leBytes 2 (if first then 1 else 0) ++ leBytes 8 x.inService ++ leBytes 4 x.mediaCfg.toNat ++ List.replicate 28 0 ++
    ((List.range 512).map (fun i => leBytes 8 (Sparse.get (fun _ => 0) x.counters i))).flatten

/-- PMU_DUMP_COMPLETE (R389): the record stands in the ring and PMU_PI passes it. -/
def execPmuDumpComplete (s : State) : Host.Outcome State Fault Refusal :=
  match s.dump.snap with
  | none => .next s
  | some x =>
    let i := s.fld Reg.PMU_PI 0 16
    let data := x.record s.dump.rseq s.dump.skipped s.dump.first
    let at_ := i % s.dumpRing * 4160
    let lo := (s.reg Reg.PMU_RING_BASE_LO).toNat / 64 * 64
    let s1 :=
      if s.bit Reg.PMU_RING_CFG 9 then s.devStore 47 .bulk ((lo + at_) % 2 ^ 25) data 261
      else s.putHost (lo + 2 ^ 32 * (s.reg Reg.PMU_RING_BASE_HI).toNat + at_) data
    let s2 : State := { s1 with dump := { s1.dump with snap := none, rseq := (s1.dump.rseq + 1) % 2 ^ 16, skipped := 0, first := false } }
    let s3 := ((s2.setFld Reg.PMU_PI 0 16 (i + 1)).setBit Reg.PMU_STAT 0 false).count 510 1
    let s4 := (s3.bump Reg.PMU_DUMP_CNT).raise Page.pmu 0
    .next (if s4.bit (Reg.PAGE_STAT Page.pmu) 1 then s4.idle Page.pmu else s4)

/-- PMU_CTRL (R387): setting DUMP_EN starts a new run of records. -/
def actPmuCtrl (s : State) (r : RegRow) (old v : Word) : State :=
  let s1 := s.setReg Reg.PMU_CTRL (r.store old v)
  if fieldOf old 0 1 = 0 ∧ fieldOf v 0 1 = 1 then { s1 with dump := { s1.dump with first := true } } else s1

/-- PMU_RING_BASE_LO, PMU_RING_BASE_HI and PMU_RING_CFG: refused while dumps are enabled or one runs (R391). -/
def actPmuRing (off : Nat) (s : State) (r : RegRow) (old v : Word) : State :=
  if s.bit Reg.PMU_CTRL 0 ∨ s.dump.snap.isSome then (s.setBit Reg.PMU_STAT 31 true).pageErr Page.pmu
  else s.setReg off (r.store old v)

/-- The ring register that PMU_RING_CONFIG_WRITE names: 0 the base's low word, 1 its high word, 2 the configuration. -/
def pmuRingReg (i : Nat) : Nat := if i = 0 then Reg.PMU_RING_BASE_LO else if i = 1 then Reg.PMU_RING_BASE_HI else Reg.PMU_RING_CFG

/-- PMU_RING_CONFIG_WRITE (R391). -/
def execPmuRingConfigWrite (path : Path) (i : Fin 3) (v : Word) (s : State) : Host.Outcome State Fault Refusal :=
  .next (s.hostWrite (.host path) (pmuRingReg i) v (actPmuRing (pmuRingReg i)))

/-- A read of PMU_CNT_LO over a path (R394, R426). -/
def State.readPmu (s : State) (path : Path) : State × Word :=
  let c := s.pmuGet (s.fld Reg.PMU_CNT_SEL 0 9)
  (s.latch 1 path (BitVec.ofNat 32 (c / 2 ^ 32)), BitVec.ofNat 32 c)

/-- PMU_COUNTER_READ (R394). -/
def execPmuCounterRead (path : Path) (s : State) : Host.Outcome State Fault Refusal :=
  let r := s.readPmu path
  .next (if s.serving = false then s else r.1.send (.readData path [r.2]))

end Sys2Proof.Machine
end

