-- ==== Sys2Proof/Machine/Ingress.lean ====
section
/-! DEFINITION. The commands of Event Ingress: rings, the SPI FIFO, network commands, fences and notifications (spec/03). -/

namespace Sys2Proof.Machine

/-- A new arrival: its number, and the state that has counted it. -/
def State.arrive (s : State) : Nat × State := (s.ing.seq, { s with ing := { s.ing with seq := s.ing.seq + 1 } })

/-- Entries between CI and PI of a ring. -/
def State.ringUsed (s : State) (n : Nat) : Nat :=
  (s.fld (Reg.ING_RING_PI n) 0 16 + 2 ^ 16 - s.fld (Reg.ING_RING_CI n) 0 16) % 2 ^ 16

/-- Raises HOST_RING_LOW when PI − CI falls from above LOW_THR to LOW_THR or below. -/
def State.ringLow (s : State) (n before : Nat) : State :=
  let thr := s.fld (Reg.ING_RING_CFG n) 16 8
  if thr ≠ 0 ∧ thr < before ∧ s.ringUsed n ≤ thr then s.raise Page.ing 5 else s

/-- A doorbell write of a ring (R42). -/
def actRingPi (n : Nat) (s : State) (_ : RegRow) (_ v : Word) : State :=
  let pi := v.toNat % 2 ^ 16
  let ci := s.fld (Reg.ING_RING_CI n) 0 16
  let before := s.ringUsed n
  if ringSize (s.fld (Reg.ING_RING_CFG n) 0 4) 4 12 < (pi + 2 ^ 16 - ci) % 2 ^ 16 then
    (((s.setBit (Reg.ING_RING_STAT n) 17 true).setReg Reg.ING_MAL_INFO (BitVec.ofNat 32 (7 * 2 ^ 8 + 32 + n))).pageErr Page.ing).raise
      Page.ing 2
  else
    let a := s.arrive
    let s1 := a.2.setReg (Reg.ING_RING_PI n) (BitVec.ofNat 32 pi)
    let d := Sparse.get (fun _ => []) s1.ing.doorbells n ++ [{ upTo := pi, arr := s.clk.mt.toNat, seq := a.1 }]
    State.ringLow { s1 with ing := { s1.ing with doorbells := Sparse.put (fun _ => []) s1.ing.doorbells n d } } n before

/-- Fields of a ring or FIFO entry (R43). -/
structure EntryFields where
  ump : List Word
  stamp : Option Nat
  seq : Nat
  fence : Bool
  scope : Bool
  notify : Bool
  cls : Nat
  tag : Word
  ident : Nat
  reserved : Bool        -- a reserved bit is set

/-- Reads an entry's 32 bytes (R43). -/
def entryFields (b : List Byte) : EntryFields :=
  let n (lo k : Nat) : Nat := leNat ((b.drop lo).take k)
  let stamp := n 16 8
  { ump := (List.range 4).map (fun i => BitVec.ofNat 32 (n (4 * i) 4))
    stamp := if stamp = 2 ^ 64 - 1 then none else some stamp
    seq := n 24 2
    fence := decide (bitsOf (n 26 1) 0 1 = 1)
    scope := decide (bitsOf (n 26 1) 1 1 = 1)
    notify := decide (bitsOf (n 26 1) 2 1 = 1)
    cls := bitsOf (n 27 1) 0 2
    tag := BitVec.ofNat 32 (n 28 4)
    ident := n 28 2
    reserved := decide (bitsOf (n 26 1) 3 5 ≠ 0 ∨ bitsOf (n 27 1) 2 6 ≠ 0) }

/-- Hands an entry of a ring or of the SPI FIFO to the Timetable: discarded when its source is disabled (R57), rejected when a
reserved bit is set (R44), a fence placed once it may be (R62, R448), an event entered (R55). -/
def State.takeEntry (s : State) (src : Nat) (f : EntryFields) (a : Arrival) : Intake :=
  if s.srcEnabled src = false then .taken (s.dropEvent src 1 f.ump a.arr f.tag)
  else if f.reserved then .taken (s.rejectMsg src 6 f.ump a.arr f.tag)
  else if f.fence then
    let r : FenceRec :=
      { ident := f.ident, all := f.scope, src := src, glb := false, arr := a.arr, seq := a.seq, idx := s.ing.idx, notify := f.notify,
        tag := f.tag, floor := 0 }
    if 256 ≤ s.ing.fences.length ∨ s.fenceAwaits r then .held
    else .taken { s with ing := { s.ing with fences := s.ing.fences ++ [r], idx := s.ing.idx + 1 } }
  else
    s.intake { src := src, net := false, ump := f.ump, stamp := f.stamp, clsCode := f.cls, notify := f.notify, tag := f.tag, arr := a.arr,
               seq := a.seq }

/-- The arrivals of a ring that are left once CI has reached `ci`. -/
def arrivalsFrom (ci : Nat) : List Arrival → List Arrival
  | [] => []
  | a :: as => if a.upTo = ci then as else a :: as

/-- RING_DOORBELL (R42). -/
def execRingDoorbell (path : Path) (n : Fin 8) (v : Word) (s : State) : Host.Outcome State Fault Refusal :=
  .next (s.hostWrite (.host path) (Reg.ING_RING_PI n) v (actRingPi n))

/-- RING_ENTRY_READ (R42, R44, R45, R57, R447): the device reads the entry at CI, from the Concourse or as the bytes a DMA read of
host memory returns, and passes it on; CI advances unless the entry is held. -/
def execRingEntryRead (n : Fin 8) (data : List Byte) (s : State) : Host.Outcome State Fault Refusal :=
  let cfg := s.reg (Reg.ING_RING_CFG n)
  let ci := s.fld (Reg.ING_RING_CI n) 0 16
  if s.bit Reg.ING_CTRL 1 = false ∨ fieldOf cfg 8 1 = 0 ∨ s.pageOn Page.ing = false ∨ s.ringUsed n = 0 then .next s
  else
    let size := ringSize (fieldOf cfg 0 4) 4 12
    let bytes :=
      if fieldOf cfg 9 1 = 1 then s.conBytes ((s.reg (Reg.ING_RING_BASE_LO n)).toNat / 32 * 32 + (ci % size) * 32) 32 else data
    let f := entryFields bytes
    let arrs := Sparse.get (fun _ => []) s.ing.doorbells n
    let a : Arrival := arrs.headD { upTo := 0, arr := s.clk.mt.toNat, seq := s.ing.seq }
    match s.takeEntry (32 + n) f a with
    | .held => .next (s.setBit (Reg.ING_RING_STAT n) 16 true)
    | .taken t =>
      let expected := s.fld (Reg.ING_RING_STAT n) 0 16
      let t1 :=
        if fieldOf cfg 10 1 = 1 ∧ f.seq ≠ expected then
          ((t.bump Reg.ING_MAL_CNT).setReg Reg.ING_MAL_INFO (BitVec.ofNat 32 (5 * 2 ^ 8 + 32 + n))).raise Page.ing 2
        else t
      let ci' := (ci + 1) % 2 ^ 16
      let t2 := ((t1.setFld (Reg.ING_RING_STAT n) 0 16 (f.seq + 1)).setBit (Reg.ING_RING_STAT n) 16 false).setReg (Reg.ING_RING_CI n)
        (BitVec.ofNat 32 ci')
      let t3 := { t2 with ing := { t2.ing with doorbells := Sparse.put (fun _ => []) t2.ing.doorbells n (arrivalsFrom ci' arrs) } }
      .next ((t3.ringLow n (s.ringUsed n)).count 493 1)

/-- SPI_FIFO_FORWARD (R45, R57, R447): the oldest entry of the SPI FIFO passes to the Timetable. -/
def execSpiFifoForward (s : State) : Host.Outcome State Fault Refusal :=
  match s.ing.spi with
  | [] => .next s
  | (b, a) :: rest =>
    if s.bit Reg.ING_CTRL 2 = false ∨ s.pageOn Page.ing = false then .next s
    else match s.takeEntry 40 (entryFields b) a with
      | .held => .next s
      | .taken t => .next ({ t with ing := { t.ing with spi := rest } }.setFld Reg.ING_SPI_STAT 0 7 rest.length)

/-! ### Sessions (R46, R47) -/

/-- The source number of a session (R41): a paired NETB session carries its NETA partner's. -/
def State.sessionSource (s : State) (n : Nat) : Nat :=
  if 16 ≤ n ∧ s.bit (Reg.NMID_SESS_CFG n) 30 then s.fld (Reg.NMID_SESS_CFG n) 24 4 else n

/-- A session's window. -/
def State.window (s : State) (src : Nat) : SessWin := Sparse.get (fun _ => SessWin.none) s.ing.windows src

/-- Replaces a session's window. -/
def State.setWindow (s : State) (src : Nat) (w : SessWin) : State :=
  { s with ing := { s.ing with windows := Sparse.put (fun _ => SessWin.none) s.ing.windows src w } }

/-- The gaps of a move of h by `d`: unaccepted numbers that fall out of the window, but for those already passed, and numbers
skipped between the old window and the new one (R46). -/
def SessWin.gaps (w : SessWin) (h d : Nat) : Nat :=
  ((List.range 256).filter (fun o =>
    decide (256 ≤ o + d) && decide (o ≤ w.moved) && !w.acc.any (fun x => decide (x.1 = (h + 2 ^ 16 - o) % 2 ^ 16)))).length + (d - 256)

/-- What the window does with a command's number from the path `path` (1 NETA or unpaired, 2 the NETB partner): the state, and
whether the command is accepted. -/
def State.judgeReal (s : State) (src seqno path port : Nat) : State × Bool :=
  let w := s.window src
  let dup := (((s.bump Reg.ING_DUP_CNT).raise Page.ing 3).logError 0x0801 0 src false, false)
  match w.h with
  | none =>
    ((s.setWindow src { w with h := some seqno, acc := [(seqno, path)], moved := 0 }).setReg (Reg.NMID_SESS_SEQ src)
      (BitVec.ofNat 32 (2 ^ 31 + seqno)), true)
  | some h =>
    let back := (h + 2 ^ 16 - seqno) % 2 ^ 16
    let ahead := (seqno + 2 ^ 16 - h) % 2 ^ 16
    if back ≤ 255 then
      match w.acc.find? (fun x => decide (x.1 = seqno)) with
      | none => (s.setWindow src { w with acc := (seqno, path) :: w.acc }, true)
      | some x => if x.2 ≠ path then ((s.bump Reg.ING_REDUNDANT_CNT).count 489 1, false) else dup
    else if ahead ≤ 32767 then
      let g := w.gaps h ahead
      let acc := (seqno, path) :: w.acc.filter (fun x => decide ((seqno + 2 ^ 16 - x.1) % 2 ^ 16 ≤ 255))
      let s1 := (s.setWindow src { w with h := some seqno, acc := acc, moved := min 256 (w.moved + ahead) }).setReg
        (Reg.NMID_SESS_SEQ src) (BitVec.ofNat 32 (2 ^ 31 + seqno))
      (if g = 0 then s1 else ((s1.bumpBy Reg.ING_NET_GAP_CNT g).raise (Page.neta + port) 1).logError 0x0802 0 src false, true)
    else dup

/-- R46 with the injections of detectors 0x0801 (the command is taken as a duplicate) and 0x0802 (a gap of one number). -/
def State.judgeCommand (s : State) (src seqno path port : Nat) : State × Bool :=
  let r := s.judgeReal src seqno path port
  let dup := s.check Page.ing 1 src (!r.2)
  if dup.inj then
    (((dup.st.bump Reg.ING_DUP_CNT).raise Page.ing 3).logError 0x0801 0 src true, false)
  else
    let gap := r.1.check Page.ing 2 src (decide (r.1.pmuGet 502 ≠ s.pmuGet 502))
    if gap.inj then (((gap.st.bump Reg.ING_NET_GAP_CNT).raise (Page.neta + port) 1).logError 0x0802 0 src true, r.2) else r

/-- A message of the network enters the Timetable; it is never held (R56). -/
def State.netMessage (s : State) (src : Nat) (u : List Word) (arr seq : Nat) : State :=
  match s.intake { src := src, net := true, ump := u, stamp := none, clsCode := 0, notify := false, tag := 0, arr := arr, seq := seq } with
  | .taken t => t
  | .held => s

/-- One UMP Data command of session `n` reaches the Timetable (R46, R47): accepted, or discarded as redundant, duplicate or stale.
With the session or the NMID page disabled it is discarded (R335, R353). With its source disabled its messages are discarded and its window is not updated (R57, R447). -/
def State.takeCommand (s : State) (n seqno : Nat) (umps : List (List Word)) : State :=
  if s.pageOn Page.nmid = false then s.bump Reg.NMID_DROP_CNT
  else if s.bit (Reg.NMID_SESS_CFG n) 31 = false then s.bump Reg.NMID_DROP_CNT
  else
    let src := s.sessionSource n
    let a := (s.bump Reg.NMID_DATA_CNT).arrive
    let take := fun (t : State) => umps.foldl (fun t u => t.netMessage src u s.clk.mt.toNat a.1) t
    if s.srcEnabled src = false ∨ s.bit Reg.ING_CTRL 0 = false ∨ s.pageOn Page.ing = false then take a.2
    else
      let j := a.2.judgeCommand src seqno (if 16 ≤ n ∧ src < 16 then 2 else 1) (n / 16)
      if j.2 then take (j.1.count 488 1) else j.1

/-- NMID_COMMAND. -/
def execNmidCommand (sess : Fin 32) (seqno : Fin 65536) (umps : List (List Word)) (s : State) : Host.Outcome State Fault Refusal :=
  .next (s.takeCommand sess seqno umps)

/-- TIMETABLE_ENTRY (R55): one event of source `src` reaches the Timetable. An event of a host source that cannot enter stays where it
was. -/
def execTimetableEntry (src : Fin 41) (ump : List Word) (stamp : Option (BitVec 64)) (cls : Option Cls) (notify : Bool) (tag : Word)
    (s : State) : Host.Outcome State Fault Refusal :=
  let a := s.arrive
  let net := decide (src.val < 32)
  match a.2.intake { src := src, net := net, ump := ump, stamp := if net then none else stamp.map BitVec.toNat,
                     clsCode := (cls.map codeOfCls).getD 0, notify := notify, tag := tag, arr := s.clk.mt.toNat, seq := a.1 } with
  | .taken t => .next t
  | .held => .next s

/-- FENCE_PLACE (R62, R448). -/
def execFencePlace (s : State) : Host.Outcome State Fault Refusal := .next s.placeFence

/-- FENCE_COMPLETE (R63). -/
def execFenceComplete (s : State) : Host.Outcome State Fault Refusal := .next s.completeFence

/-- NOTIFICATION_FLUSH (R65). -/
def execNotificationFlush (s : State) : Host.Outcome State Fault Refusal := .next s.flushNtf

end Sys2Proof.Machine
end

