-- ==== Sys2Proof/Machine/CoreAssist.lean ====
section
/-! DEFINITION. The synthesis assists of a core: phase accumulators, noise, ramps, table fetches and band-limited corrections (R215 to
R225, R230). -/

namespace Sys2Proof.Machine

/-! ### Table regions and streams -/

/-- Base, K and index mode of a region 0 to 59 as in force, or none where it is not enabled (R219, R223). -/
def State.tableRegion (s : State) (r : Nat) : Option (Nat × Nat × Bool) :=
  let base := Sparse.get (fun _ => 0) s.spf.tbl (2 * r)
  let cfg := Sparse.get (fun _ => (4 : Word)) s.spf.tbl (2 * r + 1)
  if fieldOf cfg 31 1 = 1 then some (base.toNat, max 4 (min 20 (fieldOf cfg 0 5)), decide (fieldOf cfg 8 1 = 1)) else Option.none

/-- An index reduced into a table of 2^K words. -/
def reduceIndex (clamp : Bool) (size : Nat) (i : Int) : Nat :=
  if clamp then (if i < 0 then 0 else min i.toNat (size - 1)) else (i % (size : Int)).toNat

/-- log2 of the capacity of a stream's ring (R229). -/
def StreamSnap.k (x : StreamSnap) : Nat := if x.stereo then 9 else 10

/-- One point of a stream region (R230): the ring's Concourse address, or none where the point lies outside [CONS, FILLED). -/
def StreamSnap.point (x : StreamSnap) (right : Bool) (index : Nat) : Option Nat :=
  let cap := 2 ^ x.k
  let g := (x.cons + (index + cap - x.cons % cap) % cap) % 2 ^ 32
  if (g + 2 ^ 32 - x.cons % 2 ^ 32) % 2 ^ 32 ≥ (x.filled + 2 ^ 32 - x.cons % 2 ^ 32) % 2 ^ 32 then Option.none
  else some (0x01000000 + 4096 * x.ring + 4 * (g % cap + if right then 512 else 0))

/-- The snapshot of stream `k` in the front frames. -/
def Core.snap (c : Core) (k : Nat) : StreamSnap := if k = 0 then c.front.snap0 else c.front.snap1

/-- A core sets its underrun flag of stream `k`. -/
def Core.setUnder (c : Core) (k : Nat) : Core :=
  c.setFront (if k = 0 then { c.front with under0 := true } else { c.front with under1 := true })

/-- K of a region for the fetch: none where the region reads 0 throughout. -/
def State.regionK (s : State) (n r : Nat) : Option (Nat × Bool) :=
  if r < 60 then (s.tableRegion r).map (fun x => (x.2.1, x.2.2))
  else
    let x := (s.core n).snap ((r - 60) / 2)
    if x.active = false ∨ (r % 2 = 1 ∧ x.stereo = false) then Option.none else some (x.k, false)

/-- One point of a region (R220, R230): word `i` of the table before reduction. -/
def State.fetchPoint (s : State) (n r : Nat) (i : Int) (acc : Access) : State × Word :=
  let read := fun (a : Nat) =>
    let x := s.conReadWord n (s.coreCls n) a 4 acc
    match x.2 with
    | some b => (x.1, BitVec.ofNat 32 (leNat b))
    | none => (x.1.coreEvent n 1, (0 : Word))
  if r < 60 then
    match s.tableRegion r with
    | none => (s, 0)
    | some (base, k, clamp) => read (base + 4 * reduceIndex clamp (2 ^ k) i)
  else
    let st := (r - 60) / 2
    let x := (s.core n).snap st
    if x.active = false ∨ (r % 2 = 1 ∧ x.stereo = false) then (s, 0)
    else match x.point (decide (r % 2 = 1)) (reduceIndex false (2 ^ x.k) i) with
      | none => (s.updCore n (fun c => c.setUnder st), 0)
      | some a => read a

/-- Points `i`, `i + 1`, … of a region. -/
def State.fetchPoints (s : State) (n r : Nat) (acc : Access) : List Int → State × List Word
  | [] => (s, [])
  | i :: is =>
    let x := s.fetchPoint n r i acc
    let y := x.1.fetchPoints n r Access.quiet is
    (y.1, x.2 :: y.2)

/-- TFETCH (R207, R220, R221): the result words, points and then weights. -/
def State.tfetch (s : State) (n : Nat) (cubic : Bool) (r : Nat) (a : Word) (acc : Access) : State × List Word :=
  let s0 := (s.updCore n (fun c => c.evt 0x0D 1)).stall n (if r < 60 then 1 else 2) acc.stall
  match s0.regionK n r with
  | none =>
    let t := if r < 60 then s0.bump Reg.SPF_TBL_ERR_CNT else s0
    if r < 60 then (t, List.replicate (if cubic then 8 else 4) 0)
    else
      let k := ((s0.core n).snap ((r - 60) / 2)).k
      let f := a.toNat % 2 ^ (32 - k) * 2 ^ (k - 1)
      (t, List.replicate (if cubic then 4 else 2) 0 ++ (if cubic then cubicWeights f else linearWeights f))
  | some (k, _) =>
    let i : Int := a.toNat / 2 ^ (32 - k)
    let f := a.toNat % 2 ^ (32 - k) * 2 ^ (k - 1)
    if cubic then
      let p := s0.fetchPoints n r acc [i - 1, i, i + 1, i + 2]
      (p.1, p.2 ++ cubicWeights f)
    else
      let p := s0.fetchPoints n r acc [i, i + 1]
      (p.1, p.2 ++ linearWeights f)

/-- TREAD (R220). -/
def State.tread (s : State) (n r : Nat) (a : Word) (acc : Access) : State × Word :=
  let s0 := (s.updCore n (fun c => c.evt 0x0D 1)).stall n (if r < 60 then 1 else 2) acc.stall
  match s0.regionK n r with
  | none => (if r < 60 then s0.bump Reg.SPF_TBL_ERR_CNT else s0, 0)
  | some _ => s0.fetchPoint n r a.toNat acc

/-! ### Ramps (R218) -/

/-- PRAMP: the value read, and the position advanced. -/
def State.pramp (s : State) (n k : Nat) : State × Word :=
  let b := (s.core n).front
  let v := (Sparse.get (fun _ => 0) b.ramp (2 * k)).toInt
  let st := (Sparse.get (fun _ => 0) b.ramp (2 * k + 1)).toInt
  let j := Sparse.get (fun _ => 0) b.pos k
  let w := sat32 (v + j * st)
  let s1 := s.updCore n (fun c => (c.setFront { c.front with pos := Sparse.put (fun _ => 0) c.front.pos k (min (j + 1) (s.rendered - 1)) }).evt
    0x0E 1)
  (if w.2 then s1.satRead n else s1, w.1)

/-! ### Band-limited corrections (R224) -/

/-- Z of a BLEP table. -/
def blepZ (t : Nat) : Nat := 2 * 2 ^ (t % 4)
/-- P of a BLEP table. -/
def blepP (t : Nat) : Nat := if t % 4 = 3 then 32 else 64

/-- BLEP of table `t` at `a`. -/
def blepValue (t : Nat) (a : Word) : Word :=
  let d := a.toInt
  let z : Int := blepZ t * 2 ^ 24
  if d < -z ∨ d ≥ z then 0
  else
    let u := ((d + z) * blepP t).toNat
    let m := u / 2 ^ 24
    let fr : Int := u % 2 ^ 24
    let p := (Config.blepPoint t m).toInt
    let q := (Config.blepPoint t (m + 1)).toInt
    BitVec.ofInt 32 ((p * (2 ^ 24 - fr) + q * fr) / 2 ^ 24)

/-! ### Noise and phases -/

/-- RND: the next value of the generator. -/
def Core.rnd (c : Core) : Word × Core := (noiseHash [c.k0, c.k1, c.nctr], { c with nctr := c.nctr + 1 })

/-- A 48-bit field of a phase accumulator: the phase (0) or the increment (2). -/
def Core.phase (c : Core) (k w : Nat) : Nat :=
  (c.rd (codePhase k w)).toNat + 2 ^ 32 * fieldOf (c.rd (codePhase k (w + 1))) 0 16

/-- Writes a 48-bit field of a phase accumulator. -/
def Core.setPhase (c : Core) (k w v : Nat) : Core :=
  (c.wr (codePhase k w) (BitVec.ofNat 32 v) c.voice).wr (codePhase k (w + 1)) (BitVec.ofNat 32 (v / 2 ^ 32 % 2 ^ 16)) c.voice

end Sys2Proof.Machine
end

