-- ==== Sys2Proof/Machine/CoreExec.lean ====
section
/-! DEFINITION. How a voice core issues a bundle: which bundles are illegal, what each C operation does, delay slots, loops, REP,
TAKE, YIELD, mode changes, core events and breakpoints (R149 to R168, R188 to R198, R206 to R211, R434). -/

namespace Sys2Proof.Machine

/-! ### Illegal bundles (R188, R198 to R206) -/

/-- The constraints of an M operation (R199). -/
def mLegal (o : MOp) : Bool :=
  let even := fun (k : Nat) => decide (k % 2 = 0)
  let n := o.n.val
  let a := o.a.val
  let b := o.b.val
  match o.kind with
  | .nop => decide (n = 0 ∧ a = 0 ∧ b = 0)
  | .mul | .mac | .msc => true
  | .cmul | .cmac | .cmsc | .cmacj => even n && even a && even b
  | .dot2 | .dot2a => even a && even b
  | .dot4 | .dot4a => decide (a % 4 = 0) && decide (b % 4 = 0)
  | .cres0 | .cres => even n && even a && decide (16 ≤ a) && even b && decide (b ≤ 14)

/-- The constraints of a memory operation (R202). -/
def memLegal (o : MemOp) : Bool :=
  decide (o.am ≠ .offset 0) &&
    (match o.kind with
     | .ld2 | .st2 => decide (o.reg.val % 2 = 0)
     | .lda => decide (o.reg.val < 4)
     | .stq => decide (o.reg.val % 16 < 4)
     | _ => true)

/-- The constraints of a C operation that its fields show (R204, R206). -/
def cLegal (o : COp) : Bool :=
  match o with
  | .rep (.imm n) => decide (n.toNat ≤ 256)
  | .clrav mask => decide (mask.val ≠ 0)
  | .mfa part _ _ => decide (part ≠ .p3)
  | .rseed s => decide (s.val % 2 = 0)
  | .paset _ _ s => decide (s.val % 2 = 0)
  | .paget _ _ d => decide (d.val % 2 = 0)
  | _ => true

/-- Registers that an M operation writes over `reps` repetitions; accumulators from 256. -/
def mWrites (o : MOp) (reps : Nat) : List Nat :=
  let n := 256 + o.n.val
  match o.kind with
  | .nop => []
  | .cmul | .cmac | .cmsc | .cmacj => [n, n + 1]
  | .cres0 | .cres =>
    [n, n + 1] ++ ((List.range (min 8 (reps + 1))).map (fun i =>
      let s := 16 + (o.a.val - 16 + 2 * i) % 16
      [s, s + 1])).flatten
  | _ => [n]

/-- Registers that a memory operation writes; a pointer that it both loads and modifies counts twice (R188). -/
def memWrites (o : MemOp) : List Nat :=
  let target := match o.kind with
    | .ld => [o.reg.val]
    | .ld2 => [o.reg.val, o.reg.val + 1]
    | .lda => [256 + o.reg.val % 4]
    | .ldx => [regX o.reg]
    | _ => []
  let pointer := match o.am with
    | .plain => []
    | .offset _ => []
    | _ => [codeX .p o.ptr]
  target ++ pointer

/-- Registers that a C operation writes; control registers from 512. -/
def cWrites (o : COp) : List Nat :=
  match o with
  | .mov d _ | .not d _ | .negs d _ | .abss d _ | .mfx d _ _ | .mfa _ _ d | .mvr _ _ d | .mff d | .take d | .rnd d | .alu _ d _ _
  | .addi d _ _ | .movi d _ | .mfc d _ | .bl d _ | .pramp _ d | .tread _ d _ | .blep _ d _ | .movl d _ => [d.val]
  | .mtx f i _ => [codeX f i]
  | .mva _ n _ => [256 + n.val]
  | .pset _ d | .pand d _ _ | .por d _ _ | .pxor d _ _ | .pnot d _ | .cmp _ d _ _ => [codeF d]
  | .mtf _ => (List.range 8).map codeF
  | .paget _ _ d => [d.val, d.val + 1]
  | .pacc c _ d => d.val :: (match c with
    | some f => [codeF f]
    | none => [])
  | .tfetch cubic _ g _ => (List.range (if cubic then 8 else 4)).map (fun i => 8 * g.val + i)
  | .mtc k _ => [512 + k.val]
  | _ => []

/-- Whether two operations of a bundle write one register (R188). -/
def conflict (b : Bundle) (reps : Nat) : Bool :=
  let mem := fun (o : Option MemOp) => match o with
    | some m => memWrites m
    | none => []
  let all := mWrites b.m reps ++ mem b.x ++ mem b.y ++ cWrites b.c
  decide (¬ all.Nodup)

/-- Whether an operation is a branch (R209). -/
def isBranch (o : COp) : Bool := match o with
  | .b _ | .bl _ _ | .br _ => true
  | _ => false

/-- Whether a loop level is active and ends at `LE` (R192). -/
def Core.loopAt (c : Core) (level : Nat) : Option (Nat × Nat) :=
  if c.lc level = 0 then none else some ((c.cr (0x08 + 3 * level)).toNat, (c.cr (0x09 + 3 * level)).toNat)

/-- Whether `pc` is one of the last three bundles of an active loop's body. -/
def Core.nearEnd (c : Core) (pc : Nat) : Bool :=
  (List.range 2).any (fun l => match c.loopAt l with
    | some (ls, le) => decide (ls ≤ pc) && decide (pc ≤ le) && decide (le < pc + 3)
    | none => false)

/-- A REP or LOOP count. -/
def Core.countOf (c : Core) : Count → Nat
  | .imm n => n.toNat
  | .reg s => (c.g s).toNat

/-- The placement rules of R190, R192, R194 and R209 for the C operation of the bundle at `pc`; `on` tells that its predicate holds. -/
def Core.placed (c : Core) (pc : Nat) (o : COp) (on : Bool) : Bool :=
  let slot := c.delay.isSome
  let near := c.nearEnd pc
  let loop := fun (stop : Fin 8192) (rotating : Bool) =>
    !slot && decide (pc + 2 ≤ stop.val) && !(on && c.lc 0 ≠ 0 && c.lc 1 ≠ 0) && !(on && rotating && c.activeRot.isSome)
  match o with
  | .b _ | .bl _ _ | .br _ => !slot && !near
  | .venter _ | .eret | .yield_ _ => !slot && !near
  | .loop _ stop => loop stop false
  | .loopR _ stop _ _ => loop stop true
  | .rep n => !(on && decide (256 < c.countOf n))
  | .take _ => !(on && c.task.isSome && !c.voice)
  | _ => true

/-- Repetitions that a bundle's REP asks for. -/
def Core.reps (c : Core) (b : Bundle) : Nat :=
  match b.c with
  | .rep n => if c.holds b.cp then c.countOf n else 0
  | _ => 0

/-- Whether the bundle at `pc` is legal (R198). -/
def Core.legal (c : Core) (pc : Nat) (b : Bundle) : Bool :=
  let mem := fun (o : Option MemOp) => match o with
    | some m => memLegal m
    | none => true
  mLegal b.m && mem b.x && mem b.y && cLegal b.c && c.placed pc b.c (c.holds b.cp) && !conflict b (c.reps b)

/-! ### Control registers by MFC and MTC (R151, R158, R211, R396) -/

/-- Whether an access to a control register in Voice mode is privileged. -/
def crPrivileged (uen write : Bool) (k : Nat) : Bool :=
  if k = 0 then false
  else if k ≤ 0x07 then true
  else if k ≤ 0x0F then false
  else if k ≤ 0x1F then write || !uen
  else if k = 0x21 ∨ k = 0x22 then true
  else false

/-- What an MFC reads, and the core after it: a low half latches its high half (R395). -/
def State.readCr (s : State) (n : Nat) (c : Core) (k : Nat) : Word × State :=
  let pcnt := fun (i : Nat) => Sparse.get (fun _ => 0) c.pcnt i
  if k = 0x0E then (0, s)
  else if k = 0x10 then
    (BitVec.ofNat 32 c.cycle, s.updCore n (fun d => { d with ccycLatch := BitVec.ofNat 32 (c.cycle / 2 ^ 32) }))
  else if k = 0x11 then (c.ccycLatch, s)
  else if 0x12 ≤ k ∧ k ≤ 0x17 then
    (BitVec.ofNat 32 (pcnt (k - 0x12)), s.updCore n (fun d =>
      { d with pcntLatch := Sparse.put (fun _ => 0) d.pcntLatch (k - 0x12) (pcnt (k - 0x12) / 2 ^ 32) }))
  else if 0x18 ≤ k ∧ k ≤ 0x1D then (BitVec.ofNat 32 (Sparse.get (fun _ => 0) c.pcntLatch (k - 0x18)), s)
  else if k = 0x20 then (BitVec.ofNat 32 (if c.task.isSome then c.tcyc + 1 else 0), s)
  else if k = 0x21 then (s.reg (Reg.VC_DBELL n), s)
  else if k = 0x23 then (BitVec.ofNat 32 n, s)
  else if k ≤ 0x22 then (c.cr k, s)
  else (0, s)

/-- Whether a C operation is privileged for a core in Voice mode (R151). -/
def Core.privileged (c : Core) (o : COp) : Bool :=
  let uen := decide (fieldOf (c.cr 1) 0 1 = 1)
  match o with
  | .take _ | .venter _ | .eret => true
  | .mfc _ k => crPrivileged uen false k
  | .mtc k _ => crPrivileged uen true k
  | _ => false

/-! ### The data effects of the C slot -/

/-- A G register, resolved now, written `lat` bundles later. -/
def State.gLater (s : State) (n : Nat) (c : Core) (lat k : Nat) (v : Word) : State := s.later n lat (.reg (c.phys k) v)

/-- An ALU result written to a G register; a saturated one is counted (R181). -/
def State.aluWrite (s : State) (n : Nat) (c : Core) (d : Nat) (r : Word × Bool) : State :=
  (if r.2 then s.satRead n else s).gLater n c 1 d r.1

/-- One C operation's effect on registers, flags and assists, its predicate true; what it does to the flow of bundles is apart. -/
def State.cData (s : State) (n : Nat) (c : Core) (o : COp) (acc : Access) : State :=
  let g := fun (k : Fin 32) => c.g k
  let f := fun (k : Fin 8) (v : Bool) => s.later n 1 (.reg (codeF k) (boolWord v))
  match o with
  | .clrav mask => s.later n 3 (.clrav mask)
  | .mov d a => s.gLater n c 1 d (g a)
  | .not d a => s.gLater n c 1 d (~~~ g a)
  | .negs d a => s.aluWrite n c d (sat32 (-(g a).toInt))
  | .abss d a => s.aluWrite n c d (sat32 ((g a).toInt.natAbs : Int))
  | .mtx file i a => s.later n 1 (.reg (codeX file i) (g a))
  | .mfx d file i => s.gLater n c 1 d (c.rd (codeX file i))
  | .mva part k a => s.later n 2 (.accPart k part (g a))
  | .mfa part k d =>
    let a := (c.accRd k).toNat
    s.gLater n c 1 d (match part with
      | .p0 => BitVec.ofInt 32 (signedOf 8 (a / 2 ^ 64))
      | .p1 => BitVec.ofNat 32 a
      | .p2 => BitVec.ofNat 32 (a / 2 ^ 32)
      | .p3 => 0)
  | .mvr q23 k d =>
    let r := c.rounded k q23
    (s.countRead n r.2).gLater n c 1 d r.1
  | .pset v d => f d v
  | .pand d a b => f d (c.flag a && c.flag b)
  | .por d a b => f d (c.flag a || c.flag b)
  | .pxor d a b => f d (c.flag a ^^ c.flag b)
  | .pnot d a => f d (!c.flag a)
  | .mff d => s.gLater n c 1 d (BitVec.ofNat 32 ((List.range 8).foldl (fun v i => v + if c.flag i then 2 ^ i else 0) 0))
  | .mtf a => (List.range 8).foldl (fun t i => t.later n 1 (.reg (codeF i) (boolWord ((g a).getLsbD i)))) s
  | .rnd d =>
    let r := c.rnd
    (s.updCore n (fun k => { k with nctr := r.2.nctr })).gLater n c 1 d r.1
  | .rseed a => s.updCore n (fun k => { k with k0 := g a, k1 := c.g (a.val + 1), nctr := 0 })
  | .paset incr k a =>
    s.updCore n (fun d => d.setPhase k (if incr then 2 else 0) ((g a).toNat + 2 ^ 32 * ((c.g (a.val + 1)).toNat % 2 ^ 16)))
  | .paget incr k d =>
    let v := c.phase k (if incr then 2 else 0)
    (s.gLater n c 1 d (BitVec.ofNat 32 v)).gLater n c 1 (d.val + 1) (BitVec.ofNat 32 (v / 2 ^ 32))
  | .alu op d a b => s.aluWrite n c d (aluResult op (g a) (match b with
    | .reg r => g r
    | .imm u => BitVec.ofNat 32 u.val))
  | .cmp cc d a b => f d (condHolds cc (g a) (g b))
  | .addi d a imm => s.gLater n c 1 d (g a + imm.signExtend 32)
  | .movi d imm => s.gLater n c 1 d (imm.signExtend 32)
  | .movl d imm => s.gLater n c 1 d imm
  | .mfc d k =>
    let r := s.readCr n c k
    r.2.gLater n c 1 d r.1
  | .mtc k a => s.later n 1 (.cr k (g a))
  | .bl d _ => s.gLater n c 1 d (BitVec.ofNat 32 ((c.pc + 3) % 8192))
  | .pacc carry k d =>
    let v := c.phase k 0
    let w := v + c.phase k 2
    let s1 := (s.updCore n (fun e => e.setPhase k 0 (w % 2 ^ 48))).gLater n c 1 d (BitVec.ofNat 32 (v / 2 ^ 16))
    (match carry with
     | some fl => s1.later n 1 (.reg (codeF fl) (boolWord (decide (2 ^ 48 ≤ w))))
     | none => s1)
  | .pramp k d =>
    let r := s.pramp n k
    r.1.gLater n c 2 d r.2
  | .tfetch cubic r gr a =>
    let x := s.tfetch n cubic r (g a) acc
    (List.range x.2.length).foldl (fun t i => t.gLater n c 8 (8 * gr.val + i) ((x.2[i]?).getD 0)) x.1
  | .tread r d a =>
    let x := s.tread n r (g a) acc
    x.1.gLater n c 8 d x.2
  | .blep t d a => s.gLater n c 2 d (blepValue t (g a))
  | .nop | .rep _ | .take _ | .yield_ _ | .eret | .br _ | .b _ | .loop _ _ | .venter _ | .loopR _ _ _ _ => s

/-! ### Arriving at a bundle (R434) -/

/-- The lowest breakpoint that is armed for core `n` at `pc`. -/
def State.breakAt (s : State) (n pc : Nat) : Option Nat :=
  if s.bit Reg.DBG_CTRL 0 = false ∨ s.pageOn Page.dbg = false then none
  else (List.range 8).find? (fun k =>
    let w := s.reg (Reg.DBG_BP_CFG k)
    decide (fieldOf w 31 1 = 1) && (decide (fieldOf w 24 6 = 0x3F) || decide (fieldOf w 24 6 = n)) && decide (fieldOf w 0 13 = pc))

/-- A core at `pc` meets an armed breakpoint: a DEBUG event, recorded in DBG_HIT. -/
def State.meetBreak (s : State) (n pc : Nat) : State :=
  match s.breakAt n pc with
  | some k => (s.coreEvent n 8).setReg Reg.DBG_HIT (BitVec.ofNat 32 (2 ^ 31 + 2 ^ 8 * k + n))
  | none => s

/-- The next bundle is at `pc`. -/
def State.goto (s : State) (n pc : Nat) : State :=
  (s.updCore n (fun c => { c with lastPc := c.pc, pc := pc % 8192 })).meetBreak n (pc % 8192)

/-! ### Loops (R192 to R195, R210) -/

/-- Stage flags of a LOOP.R for an iteration; past the last one they are clear. -/
def stageFlag (r : Rotation) (i k : Nat) : Bool := decide (i < r.total) && decide (k ≤ i) && decide (i + r.stages ≤ r.total + k)

/-- The end of an iteration of a level: its count, the rotation and the stage flags, but for what the bundle at LE wrote itself.
`old` is the core as that bundle read it. -/
def Core.iterEnd (c old : Core) (level : Nat) (written : List Nat) : Core :=
  let kept := fun (k : Nat) => written.contains k
  let c1 := if kept (512 + 0x0A + 3 * level) then c else c.setCr (0x0A + 3 * level) (BitVec.ofNat 32 (old.lc level - 1))
  match old.activeRot with
  | none => c1
  | some r =>
    if r.level ≠ level then c1
    else
      let c2 := if kept (512 + 0x0F) then c1
        else c1.setCr 0x0F (BitVec.ofNat 32 ((fieldOf (old.cr 0x0F) 0 4 + 16 - r.step) % 16))
      let last := decide (old.lc level ≤ 1)
      let c3 := (List.range r.stages).foldl (fun d k =>
        if kept (codeF (4 + k)) then d
        else d.wr (codeF (4 + k)) (boolWord (!last && stageFlag r (r.iter + 1) k)) d.voice) c2
      { c3 with rot := if last then none else some { r with iter := r.iter + 1 } }

/-- The bundle after the one at `pc`, with what ends there: level 1 is served first, and level 0 when it is exhausted. -/
def Core.loopStep (c old : Core) (pc : Nat) (written : List Nat) : Core × Nat :=
  let level0 := fun (d : Core) =>
    match old.loopAt 0 with
    | some (ls, le) =>
      if le = pc then (d.iterEnd old 0 written, if 1 < old.lc 0 then ls else pc + 1) else (d, pc + 1)
    | none => (d, pc + 1)
  match old.loopAt 1 with
  | some (ls, le) =>
    if le = pc then
      let d := c.iterEnd old 1 written
      if 1 < old.lc 1 then (d, ls) else level0 d
    else level0 c
  | none => level0 c

/-- A LOOP begins (R192, R194, R195); `rot` holds the step and the stages of a LOOP.R. -/
def Core.loopStart (c : Core) (pc stop count : Nat) (rot : Option (Nat × Nat)) : Core :=
  let level := if c.lc 0 = 0 then 0 else 1
  let set := fun (d : Core) (k v : Nat) => d.setCr (k + 3 * level) (BitVec.ofNat 32 v)
  let c1 := if count = 0 then c else set (set (set c 0x08 (pc + 1)) 0x09 stop) 0x0A count
  match rot with
  | none => c1
  | some (step, stages) =>
    let r : Rotation := { level := level, step := step, stages := stages, total := count, iter := 0 }
    let c2 := (List.range stages).foldl (fun d k => d.wr (codeF (4 + k)) (boolWord (stageFlag r 0 k)) d.voice) (c1.setCr 0x0F 0)
    if count = 0 then c2 else { c2 with rot := some r }

/-- A taken branch to `t` ends the innermost active level if `t` lies outside its body (R193). -/
def Core.leaveLoop (c : Core) (t : Nat) : Core :=
  let level := if c.lc 1 ≠ 0 then 1 else 0
  match c.loopAt level with
  | none => c
  | some (ls, le) =>
    if ls ≤ t ∧ t ≤ le then c
    else
      let c1 := c.setCr (0x0A + 3 * level) 0
      match c.activeRot with
      | some r =>
        if r.level = level then
          { (List.range r.stages).foldl (fun d k => d.wr (codeF (4 + k)) 0 d.voice) c1 with rot := none }
        else c1
      | none => c1

/-! ### The flow of bundles -/

/-- What the C slot does to the flow. -/
inductive Flow where
  | next
  | branch (t : Nat)
  | untaken
  | loop (count stop : Nat) (rot : Option (Nat × Nat))    -- with the step and the stages of a LOOP.R
  | wait (d : Nat)                                         -- a TAKE
  | yield_ (ended err : Bool)
  | venter (t : Nat)
  | eret
deriving DecidableEq, Repr

/-- The number of registers that a rotation step moves. -/
def rotStep : RotStep → Nat
  | .one => 1
  | .two => 2
  | .four => 4

/-- The flow of a C operation; `on` tells that its predicate holds and that it is performed. -/
def Core.flow (c : Core) (o : COp) (on : Bool) : Flow :=
  if on = false then (if isBranch o then .untaken else .next)
  else match o with
    | .b t => .branch t
    | .bl _ t => .branch t
    | .br a => .branch ((c.g a).toNat % 8192)
    | .loop n stop => .loop (c.countOf n % 65536) stop Option.none
    | .loopR n stop step stages => .loop (c.countOf n % 65536) stop (some (rotStep step, stages.val + 1))
    | .take d => .wait d
    | .yield_ fl => .yield_ (bitsOf fl 0 1 = 1) (bitsOf fl 1 1 = 1)
    | .venter t => .venter t
    | .eret => .eret
    | _ => .next

/-- The core moves on from the bundle at `old.pc` to the next one: delay slots and loop ends (R190, R192). -/
def State.advance (s : State) (n : Nat) (old : Core) (written : List Nat) : State :=
  let s1 := s.updCore n (fun c => { c with fresh := false })
  match old.delay with
  | some { left := 0, .. } => (s1.updCore n (fun c => { c with delay := none })).goto n (old.pc + 1)
  | some { left := 1, target := none } =>
    let r := (s1.core n).loopStep old old.pc written
    (s1.setCore n { r.1 with delay := none }).goto n r.2
  | some { left := 1, target := some t } =>
    ((s1.updCore n (fun c => { c.leaveLoop t with delay := none })).updCore n (fun c => c.evt 0x0F 1)).goto n t
  | some { left := k + 2, target := t } =>
    let r := (s1.core n).loopStep old old.pc written
    (s1.setCore n { r.1 with delay := some { left := k + 1, target := t } }).goto n r.2
  | none =>
    let r := (s1.core n).loopStep old old.pc written
    (s1.setCore n r.1).goto n r.2

/-- Whether a task has been aborted. -/
def taskAborted (t : Option Task) : Bool :=
  match t.map Task.phase with
  | some (.aborted _) => true
  | _ => false

/-- YIELD hands over the dispatched task of core `n` (R142, R160 to R163, R168, R360). -/
def State.yieldTask (s : State) (n : Nat) (ended err : Bool) : State :=
  match s.coreTask n with
  | none => s
  | some t0 =>
    let excess := decide (t0.limit < (s.core n).tcyc) && (s.core n).aborted.isNone
    let s0 := if excess then s.abortTask n false else s
    let c := s0.core n
    if c.memUe.isSome then s0.coreFault n
    else
      let quiet := fun (d : Core) => { d with events := d.events.filter (fun e => decide (e ≠ 5 ∧ e ≠ 7)) }
      let s1 := s0.updCore n (fun d =>
        { (quiet d) with
          task := none, tcyc := 0, aborted := none, tally := [0, 0, 0, 0], judged := false })
      let s2 :=
        if taskAborted (s0.taskOf t0.order) then
          (s1.updTask t0.order (fun k => { k with phase := .dropped })).updCore n (fun d => d.setFront { d.front with task := none })
        else
          ((s1.spend n t0 (c.cycle - t0.takeAt)).updTask t0.order (fun k =>
            { k with phase := .yielded n ended err, tally := c.tally })).updCore n (fun d => d.setFront { d.front with frozen := true })
      if c.recalled.isSome then s2.coreLeaves n false else s2

/-- Whether slot 0 of a core's Siding is being staged, or a move from slot 1 into it is due (R133, R134). -/
def State.missing (s : State) (n : Nat) : Bool :=
  let c := s.core n
  let phase := fun (b : TaskBuf) => (b.task.bind s.taskOf).map Task.phase
  decide (phase c.back = some (.staging n 0)) ||
    (c.back.task.isNone && !c.back.frozen && decide (phase c.buf1 = some (.staged n 1)))

/-- A TAKE issues (R134, R160, R360). -/
def State.takeStart (s : State) (n d : Nat) : State :=
  if (s.core n).memUe.isSome then s.coreFault n
  else
    let miss := s.missing n
    let s1 := s.updCore n (fun c => { c with taking := some { d := d, miss := miss } })
    if miss then (s1.bump Reg.SCH_SIDING_MISS_CNT).corePmu n 6 1 else s1

/-- The effect of a bundle's flow, after its cycle. -/
def State.follow (s : State) (n : Nat) (old : Core) (written : List Nat) (fl : Flow) : State :=
  match fl with
  | .next => s.advance n old written
  | .loop count stop rot =>
    let s1 := s.updCore n (fun c => c.loopStart old.pc stop count rot)
    if count = 0 then ((s1.holdTicks n 2 1).updCore n (fun c => { c with fresh := false })).goto n (stop + 1) else s1.advance n old written
  | .branch t =>
    (s.updCore n (fun c => { c with delay := some { left := 2, target := some t }, fresh := false })).goto n (old.pc + 1)
  | .untaken => (s.updCore n (fun c => { c with delay := some { left := 2, target := none }, fresh := false })).goto n (old.pc + 1)
  | .wait d => s.takeStart n d
  | .yield_ ended err =>
    let flags : Word := BitVec.ofNat 32 ((if ended then 1 else 0) + (if err then 2 else 0))
    if old.voice then
      let s1 := (s.updCore n (fun c => (c.setCr 7 flags).setVoice false)).yieldTask n ended err
      if (s1.core n).svc = 2 then (s1.coreTicks n 1 2).goto n (old.cr 5).toNat else s1
    else if old.task.isSome then
      let s1 := (s.updCore n (fun c => c.setCr 7 flags)).yieldTask n ended err
      if (s1.core n).svc = 2 then s1.advance n old written else s1
    else s.advance n old written
  | .venter t => ((s.updCore n (fun c => (c.setVoice true))).coreTicks n 1 2).goto n t
  | .eret =>
    let pmode := decide (fieldOf (old.cr 2) 4 1 = 1)
    let s1 := s.updCore n (fun c => (c.setCr 0 (setFieldOf (c.cr 0) 1 1 1)).setVoice pmode)
    (s1.coreTicks n 1 2).updCore n (fun c => { c with lastPc := c.pc, pc := (old.cr 3).toNat % 8192 })

/-! ### Issue (R165, R189, R191, R196, R383) -/

/-- Whether a core issues its next bundle: in service, not halted, not waiting in a TAKE, and with no core event to be taken first. -/
def State.ready (s : State) (n : Nat) : Bool :=
  let c := s.core n
  decide (c.svc = 2) && !c.halted && !c.held && c.taking.isNone && !c.takesEvent

/-- The issue slot of one execution of a bundle. -/
def State.slotTick (s : State) (n : Nat) (performed : Bool) : State :=
  (s.updCore n (fun c => c.evt (if performed then 2 else 3) 1)).coreTick n (if performed then 0 else 1)

/-- One execution of the M, X and Y operations, repetition `i`; `m`, `x` and `y` tell which of them are performed. -/
def State.once (s : State) (n : Nat) (b : Bundle) (m x y : Bool) (ax ay : Access) (i : Nat) : State :=
  let c := s.core n
  let s1 := if m then s.mOp n c b.m i else s
  let s2 := match b.x with
    | some o => if x then s1.memOp n c false o ax else s1
    | none => s1
  match b.y with
  | some o => if y then s2.memOp n c true o ay else s2
  | none => s2

/-- The repetitions of a REP bundle, from repetition `i` on. -/
def State.repeats (s : State) (n : Nat) (b : Bundle) (m x y : Bool) (i : Nat) : Nat → State
  | 0 => s
  | k + 1 =>
    ((s.once n b m x y Access.quiet Access.quiet i).slotTick n (m || x || y)).repeats n b m x y (i + 1) k

/-- A bundle that performs nothing. -/
def State.blank (s : State) (n : Nat) : State :=
  let c := s.core n
  (s.slotTick n false).advance n c []

/-- Core `n` issues a bundle. `ax` and `ay` are what the first accesses of its X slot and C slot, and of its Y slot, meet. -/
def State.issue (s : State) (n : Nat) (b : Bundle) (ax ay : Access) : State :=
  if s.ready n = false then s
  else
    let lg := s.detect (Page.vc0 + n) 2 0 n false
    if lg.hit then (lg.st.pageErr (Page.vc0 + n)).coreFault n
    else
    let s0 := (s.coreMemCheck n 0 .clean).1
    let c := s0.core n
    if c.voice ∧ c.pc < (c.cr 6).toNat then (s0.viol n 2 false c.pc).blank n
    else if c.legal c.pc b = false then (s0.ill n).blank n
    else
      let m := c.holds b.mp && decide (b.m.kind ≠ .nop)
      let x := c.holds b.xp && b.x.isSome
      let y := c.holds b.yp && b.y.isSome
      let on := c.holds b.cp
      let refused := on && c.voice && c.privileged b.c
      let cOn := on && !refused
      let s1 := s0.once n b m x y ax ay 0
      let s2 := if cOn then s1.cData n c b.c ax else s1
      let s3 := if refused then s2.ill n else s2
      let s4 := s3.slotTick n (m || x || y || (cOn && decide (b.c ≠ .nop)))
      let s5 := s4.repeats n b m x y 1 (c.reps b)
      s5.follow n c (if cOn then cWrites b.c else []) (c.flow b.c cOn)

/-- Core `n` issues `rest` with an M operation. -/
def State.issueM (s : State) (n : Nat) (p : Pred) (k : MKind) (acn : Fin 4) (a b : Fin 32) (rest : Bundle) : State :=
  s.issue n { rest with mp := p, m := { kind := k, n := acn, a := a, b := b } } Access.quiet Access.quiet

/-- Core `n` issues `rest` with a memory operation in its X or, for `y`, its Y slot. -/
def State.issueMem (s : State) (n : Nat) (y : Bool) (p : Pred) (k : MemKind) (reg : Fin 32) (ptr : Fin 8) (am : Addressing) (rest : Bundle)
    (acc other : Access) : State :=
  let o : MemOp := { kind := k, reg := reg, ptr := ptr, am := am }
  if y then s.issue n { rest with yp := p, y := some o } other acc else s.issue n { rest with xp := p, x := some o } acc other

/-- Core `n` issues `rest` with a C operation. -/
def State.issueC (s : State) (n : Nat) (p : Pred) (o : COp) (rest : Bundle) (acc : Access) : State :=
  s.issue n { rest with cp := p, c := o } acc Access.quiet

/-! ### Core events (R164, R165) -/

/-- A core takes the event `code`. DEBUG halts it and raises CORE_HALT. -/
def State.takeEvent (s : State) (n code : Nat) : State :=
  let s1 := s.coreFlush n
  let c := s1.core n
  let cause := code + (if c.voice then 16 else 0) + (if c.task.isSome then 32 else 0)
  let s2 := s1.updCore n (fun d =>
    let d1 := ((d.setCr 3 (BitVec.ofNat 32 c.pc)).setCr 2 (BitVec.ofNat 32 cause)).setVoice false
    { (d1.setCr 0 (setFieldOf (d1.cr 0) 1 1 0)).evt 0x10 1 with
      taking := none, events := d.events.filter (fun e => decide (e ≠ code)), halted := d.halted || decide (code = 8) })
  let s3 := ((s2.bump (Reg.VC_EVENT_CNT n)).count 501 1).goto n (c.cr 4).toNat
  if code = 8 then s3.raise (Page.vc0 + n) 1 else s3

end Sys2Proof.Machine
end

