-- ==== Sys2Proof/Machine/ModMatrix.lean ====
section
/-! DEFINITION. The Modulation Matrix: sources, routes, envelope generators, LFOs, ramp pairs, and the evaluation of a release set (R113 to
R122, R124). -/

namespace Sys2Proof.Machine

/-- 1.0 as a Q1.31 word can hold it. -/
abbrev q31One : Int := 0x7FFFFFFF

/-! ### Envelope generators (R119, R120, R122) -/

/-- The setting of an envelope generator, with the attack length reduced by velocity. -/
structure EnvSetup where
  delay : Nat
  attack : Nat
  hold : Nat
  decay : Nat
  release : Nat
  sustain : Nat
  ctrl : Nat

/-- Length of a segment. -/
def EnvSetup.len (e : EnvSetup) (seg : Nat) : Nat :=
  match seg with
  | 1 => e.delay
  | 2 => e.attack
  | 3 => e.hold
  | 4 => e.decay
  | _ => e.release

/-- A curve on a progress x in Q1.31. -/
def envCurve (code x : Nat) : Nat :=
  match code with
  | 0 => x
  | 1 => 2 ^ 31 - (2 ^ 31 - x) * (2 ^ 31 - x) / 2 ^ 31
  | 2 => x * x / 2 ^ 31
  | _ => (3 * x * x * 2 ^ 31 - 2 * x * x * x) / 2 ^ 62

/-- Segments that are over give their excess samples to the next. -/
def Envelope.settle (e : EnvSetup) (g : Envelope) : Nat → Envelope
  | 0 => g
  | fuel + 1 =>
    if g.seg = 5 ∨ g.seg = 7 then { g with elapsed := 0 }
    else if g.elapsed < e.len g.seg then g
    else Envelope.settle e { g with seg := g.seg + 1, elapsed := g.elapsed - e.len g.seg } fuel

/-- The output of an envelope generator, apart from its EN. -/
def Envelope.level_ (e : EnvSetup) (g : Envelope) : Nat :=
  let x := g.elapsed * 2 ^ 31 / max 1 (e.len g.seg)
  match g.seg with
  | 2 => min 0x7FFFFFFF (envCurve (bitsOf e.ctrl 0 2) x)
  | 3 => 0x7FFFFFFF
  | 4 => min 0x7FFFFFFF (2 ^ 31 - (2 ^ 31 - e.sustain) * envCurve (bitsOf e.ctrl 2 2) x / 2 ^ 31)
  | 5 => e.sustain
  | 6 => min 0x7FFFFFFF (g.level * (2 ^ 31 - envCurve (bitsOf e.ctrl 4 2) x) / 2 ^ 31)
  | _ => 0

/-- An envelope generator moved from sample `t0` to sample `t`, with the release at `off`. -/
def Envelope.advance (e : EnvSetup) (g : Envelope) (t0 t : Nat) (off : Option Nat) : Envelope :=
  let go := fun (k : Envelope) (n : Nat) => Envelope.settle e { k with elapsed := k.elapsed + n } 8
  match off with
  | none => go g (t - t0)
  | some o =>
    if 6 ≤ g.seg ∨ t < o then go g (t - t0)
    else
      let at_ := max o t0
      let k := go g (at_ - t0)
      go { seg := 6, elapsed := 0, level := k.level_ e } (t - at_)

/-! ### One evaluation -/

/-- What an evaluation of a slot sees: the slot, its index for h, the block, the evaluation sample, and whether it is T₀. -/
structure Eval where
  x : Nat
  slot : Slot
  n : Nat
  t : Nat
  init : Bool

/-- The frame's bound on effect samples: T₀ sees what has taken effect by the note-on's sample. -/
def Eval.bound (v : Eval) : Option Nat := if v.init then some v.t else Option.none

/-- A word of the slot's frame. -/
def Eval.fw (v : Eval) (s : State) (w : Nat) : Word := s.frameView (frameAddr v.x w) v.bound

/-- A word of the Part's frame. -/
def Eval.pw (v : Eval) (s : State) (w : Nat) : Word := s.frameView (partAddr v.slot.part w) v.bound

/-- The frame index for h (R118). -/
def Eval.index (v : Eval) : Nat := if v.x < 1024 then v.x else v.slot.origin

/-- The setting of envelope generator `e`. A SUSTAIN outside its range has no stated level: a free value of the evaluation's draws. -/
def Eval.envSetup (v : Eval) (s : State) (e : Nat) : EnvSetup :=
  let w := fun (i : Nat) => (v.fw s (0xC0 + 7 * e + i)).toNat
  let ctrl := w 6
  let attack := w 1 % 2 ^ 24
  let cut := attack * bitsOf ctrl 8 4 * ((v.fw s 0x201).toNat / 2 ^ 16) / 2 ^ 20
  { delay := w 0 % 2 ^ 24, attack := attack - cut, hold := w 2 % 2 ^ 24, decay := w 3 % 2 ^ 24, release := w 5 % 2 ^ 24,
    sustain := if w 4 < 2 ^ 31 then w 4 else (Config.freeValue (s.draws + e)).toNat % 2 ^ 31, ctrl := ctrl }

/-- Envelope generator `e` at the evaluation sample. -/
def Eval.env (v : Eval) (s : State) (e : Nat) : Envelope :=
  let setup := v.envSetup s e
  if v.init then Envelope.settle setup Envelope.reset 8
  else
    Envelope.advance setup (Sparse.get (fun _ => Envelope.reset) s.mm.envs (8 * v.x + e)) (Sparse.get (fun _ => 0) s.mm.at_ v.x) v.t
      v.slot.offSample

/-- The output of envelope generator `e`. -/
def Eval.envOut (v : Eval) (s : State) (e : Nat) : Int :=
  let setup := v.envSetup s e
  if bitsOf setup.ctrl 16 1 = 1 then ((v.env s e).level_ setup : Int) else 0

/-- The output of LFO `l` (R121). -/
def Eval.lfo (v : Eval) (s : State) (l : Nat) : Int :=
  let rate := (v.fw s (0xF8 + 2 * l)).toNat
  let ctrl := (v.fw s (0xF9 + 2 * l)).toNat
  let origin := if bitsOf ctrl 3 2 = 1 then 0 else v.slot.onSample
  let count : Nat := bitsOf ctrl 8 8 * 2 ^ 24 + rate * (v.t - origin)
  let p : Nat := count % 2 ^ 32
  let y : Int := match bitsOf ctrl 0 3 with
    | 1 =>
      if p < 2 ^ 30 then 2 * (p : Int)
      else if p < 3 * 2 ^ 30 then 2 ^ 32 - 2 * (p : Int)
      else 2 * (p : Int) - 2 ^ 33
    | 2 => (p : Int) - 2 ^ 31
    | 3 => 2 ^ 31 - (p : Int)
    | 4 => if p < 2 ^ 31 then 2 ^ 31 else -(2 ^ 31)
    | 5 => (noiseHash [v.slot.seed, BitVec.ofNat 32 v.index, BitVec.ofNat 32 (count / 2 ^ 32)]).toInt
    | _ => sineOf p
  let y1 := min y q31One
  let y2 := if bitsOf ctrl 5 1 = 1 then (y1 + 2 ^ 31) / 2 else y1
  let fade := bitsOf ctrl 16 16
  let k := if v.init then 0 else v.n + 1 - v.slot.firstBlock
  if fade = 0 ∨ fade ≤ k then y2 else y2 * (k : Int) / (fade : Int)

/-- A MIDI value as a unipolar source. -/
def uniValue (w : Word) : Int := ((w.toNat / 2 : Nat) : Int)
/-- A MIDI value as a bipolar source. -/
def biValue (w : Word) : Int := (w ^^^ 0x80000000#32).toInt

/-- A source's value; none for NONE and the reserved codes (R117). `a` is the route's first word. -/
def Eval.source (v : Eval) (s : State) (code : Nat) (a : Word) : Option Int :=
  let on := [BitVec.ofNat 32 v.slot.onSample, BitVec.ofNat 32 (v.slot.onSample / 2 ^ 32)]
  let wide := fun (w : Word) => if fieldOf a 21 1 = 1 then biValue w else uniValue w
  let srcw := fieldOf a 22 8
  if code = 0x01 then some q31One
  else if 0x02 ≤ code ∧ code ≤ 0x09 then some (v.envOut s (code - 2))
  else if 0x0A ≤ code ∧ code ≤ 0x0D then some (v.lfo s (code - 0x0A))
  else if code = 0x0E then some (uniValue (v.fw s 0x201))
  else if code = 0x0F then some (uniValue (v.fw s 0x206))
  else if code = 0x10 then some (biValue (v.fw s 0x203))
  else if code = 0x11 then some (uniValue (v.fw s 0x205))
  else if code = 0x12 then some (biValue (v.fw s 0x204))
  else if code = 0x13 then some (noiseHash ([v.slot.seed, BitVec.ofNat 32 v.index] ++ on)).toInt
  else if code = 0x14 then some (noiseHash ([v.slot.seed, BitVec.ofNat 32 v.index] ++ on ++ [BitVec.ofNat 32 v.n])).toInt
  else if 0x15 ≤ code ∧ code ≤ 0x1C then some (Sparse.get (fun _ => (0 : Word)) s.pool.fb (8 * v.x + (code - 0x15))).toInt
  else if code = 0x1D then some (uniValue (v.pw s 0x080))
  else if code = 0x1E then some (biValue (v.pw s 0x081))
  else if code = 0x20 then some (wide (v.fw s (0x200 + srcw)))
  else if code = 0x21 then some (wide (v.pw s srcw))
  else if code = 0x22 then some (wide (s.conWord (globalAddr srcw)))
  else Option.none

/-- A route's curve (R116). -/
def routeCurve (code : Nat) (x : Int) : Int :=
  match code with
  | 0 => x
  | 1 => x * (x.natAbs : Int) / 2 ^ 31
  | 2 => x * x * x / 2 ^ 62
  | _ => (x.natAbs : Int)

/-- The destination and contribution of route `r`; none without a source. -/
def Eval.route (v : Eval) (s : State) (r : Nat) : Option (Nat × Int) :=
  let a := v.fw s (0x80 + 2 * r)
  match v.source s (fieldOf a 0 6) a with
  | none => Option.none
  | some x =>
    let depth := signedOf 16 (v.fw s (0x81 + 2 * r)).toNat
    let p1 := routeCurve (fieldOf a 12 2) x * depth / 2 ^ 15
    let via := fieldOf a 6 6
    let w := if via < 0x20 then v.source s via a else Option.none
    some (fieldOf a 14 7, match w with
      | none => p1
      | some k => p1 * k / 2 ^ 31)

/-- The targets of a slot and how many of them saturated (R113). -/
def Eval.targets (v : Eval) (s : State) : List Int × Nat :=
  let routes := (List.range 32).filterMap (fun r => v.route s r)
  let sums := (List.range 128).map (fun k =>
    signedOf 40 (wrapTo 40 (routes.foldl (fun a e => if e.1 = k then a + e.2 else a) (v.fw s k).toInt)))
  (sums.map (fun a => max (-(2 ^ 31)) (min q31One a)), (sums.filter (fun a => decide (q31One < a) || decide (a < -(2 ^ 31)))).length)

/-! ### Slots -/

/-- A slot's modulation state is as of a new note. -/
def State.clearModulation (s : State) (x : Nat) : State :=
  { s with mm := { s.mm with
    target := s.mm.target.filter (fun e => decide (e.1 / 128 ≠ x)), envs := s.mm.envs.filter (fun e => decide (e.1 / 8 ≠ x))
    at_ := s.mm.at_.filter (fun e => decide (e.1 ≠ x)), evaluated := s.mm.evaluated.filter (fun e => decide (e.1 ≠ x))
    segs := s.mm.segs.filter (fun e => decide (e.1 ≠ x)) } }

/-- A stolen voice carries its modulation state with it (R122). -/
def State.moveModulation (s : State) (a b : Nat) : State :=
  let m := s.mm
  let t := (s.clearModulation b).mm
  let target := (List.range 128).foldl (fun k i =>
    Sparse.put (fun _ => 0) k (128 * b + i) (Sparse.get (fun _ => 0) m.target (128 * a + i))) t.target
  let envs := (List.range 8).foldl (fun k i =>
    Sparse.put (fun _ => Envelope.reset) k (8 * b + i) (Sparse.get (fun _ => Envelope.reset) m.envs (8 * a + i))) t.envs
  let one := fun (k : Map Nat) (f : Map Nat) => Sparse.put (fun _ => 0) k b (Sparse.get (fun _ => 0) f a)
  let moved : ModMatrix :=
    { t with target := target, envs := envs, at_ := one t.at_ m.at_, evaluated := one t.evaluated m.evaluated, segs := one t.segs m.segs }
  State.clearModulation { s with mm := moved } a

/-- One evaluation's state after it: envelopes and their segments. -/
def Eval.keep (v : Eval) (s : State) : State :=
  let envs := (List.range 8).map (fun e => (v.env s e, bitsOf (v.envSetup s e).ctrl 16 1))
  let segs := (List.range 8).foldl (fun a e =>
    let g := (envs[e]?).getD (Envelope.reset, 0)
    a + (if g.2 = 1 then g.1.seg else 0) * 2 ^ (3 * e)) 0
  { s with draws := s.draws + 8, mm := { s.mm with
    envs := (List.range 8).foldl (fun m e =>
      Sparse.put (fun _ => Envelope.reset) m (8 * v.x + e) ((envs[e]?).getD (Envelope.reset, 0)).1) s.mm.envs
    at_ := Sparse.put (fun _ => 0) s.mm.at_ v.x v.t
    segs := Sparse.put (fun _ => 0) s.mm.segs v.x segs } }

/-- Counts saturated targets. -/
def State.countTargets (s : State) (k : Nat) : State := if k = 0 then s else (s.bumpBy Reg.MM_SAT_CNT k).count 426 k

/-- Evaluates a slot for block `n` and writes its ramp pairs (R114, R124). -/
def State.evalSlot (s : State) (x n : Nat) : State :=
  let sl := s.slot x
  let fresh := decide (Sparse.get (fun _ => 0) s.mm.evaluated x = 0)
  let v0 : Eval := { x := x, slot := sl, n := sl.firstBlock, t := sl.onSample, init := true }
  let r0 := v0.targets s
  let s0 := if fresh then (v0.keep s).countTargets r0.2 else s
  let prev := if fresh then r0.1 else (List.range 128).map (fun k => (Sparse.get (fun _ => (0 : Word)) s.mm.target (128 * x + k)).toInt)
  let v : Eval := { x := x, slot := sl, n := n, t := (n + 1) * s.blk, init := false }
  let r := if s.mm.holding then (prev, 0) else v.targets s0
  let s1 := if s.mm.holding then s0 else (v.keep s0).countTargets r.2
  let words := (prev.zip r.1).flatMap (fun e => [BitVec.ofInt 32 e.1, BitVec.ofInt 32 ((e.2 - e.1) / (2 ^ s.logN : Nat))])
  let s2 := s1.putFrames (frameAddr x 0x100) words
  { s2 with mm := { s2.mm with
    target := (List.range 128).foldl (fun m k =>
      Sparse.put (fun _ => 0) m (128 * x + k) (BitVec.ofInt 32 ((r.1[k]?).getD 0))) s2.mm.target
    evaluated := Sparse.put (fun _ => 0) s2.mm.evaluated x (n + 1) } }

/-- The slots to evaluate now for block `n`: before the Express step of the period, those of the other classes; after it, all that are
left. -/
def State.toEvaluate (s : State) (n : Nat) (express : Bool) : List Nat :=
  (s.liveSlots.map (fun e => e.1)).filter (fun x =>
    decide (Sparse.get (fun _ => 0) s.mm.evaluated x ≤ n) && (express || decide (s.slotCls x ≠ .express)))

/-- MODULATION_EVAL (R115): the evaluation after an allocation step of this period, which took `cycles` SYS cycles. -/
def execModulationEval (cycles : Nat) (s : State) : Host.Outcome State Fault Refusal :=
  let t := s.period
  if s.running = false ∨ s.clk.boundaryDone ≤ t then .next s
  else
    let xs := s.toEvaluate (t + 2) (decide (t < s.clk.expressDone))
    if xs.isEmpty then .next s
    else
      let s1 := xs.foldl (fun u x => u.evalSlot x (t + 2)) s
      let s2 := (s1.count 423 xs.length).count 424 cycles
      .next (s2.setFld Reg.MM_EVAL_MAX 0 16 (max (s2.fld Reg.MM_EVAL_MAX 0 16) (min 0xFFFF cycles)))

end Sys2Proof.Machine
end

