-- ==== Sys2Proof/Machine/Pool.lean ====
section
/-! DEFINITION. The Voice Allocator: Parts, free slots, steals, cancels, chokes, resets, note-offs and sustain, trims, ends, and the
events of a step (R67 to R99, R104, R108, R127). -/

namespace Sys2Proof.Machine

/-! ### Parts (R72 to R74, R77) -/

/-- A field of VA_PART_CFGn as applied. -/
def State.partFld (s : State) (p lo w : Nat) : Nat := fieldOf (s.vaReg (Reg.VA_PART_CFG p)) lo w
/-- Steal ramp of a Part in blocks. -/
def State.rampOf (s : State) (p : Nat) : Nat := s.partFld p 12 4 + 1
/-- RSV. -/
def State.rsvOf (s : State) (p : Nat) : Nat := fieldOf (s.vaReg (Reg.VA_PART_QUOTA p)) 16 11
/-- MAX. -/
def State.maxOf (s : State) (p : Nat) : Nat := fieldOf (s.vaReg (Reg.VA_PART_QUOTA p)) 0 11

/-- The Part that owns a voice slot. -/
def Slot.owner (x : Slot) : Nat := match x.waiting with
  | some w => w.part
  | none => x.part

/-- Voice slots that are not FREE. -/
def State.voices (s : State) : List (Nat × Slot) := s.liveSlots.filter (fun e => decide (e.1 < 1024))

/-- The count of a Part. -/
def State.countOf (s : State) (p : Nat) : Nat := (s.voices.filter (fun e => decide (e.2.owner = p))).length

/-- Whether a Part is trimming (R91). -/
def State.trimming (s : State) (p : Nat) : Bool := decide (s.maxOf p < s.countOf p)

/-- Whether FREE voice slots are usable by a Part. -/
def State.usable (s : State) (p : Nat) : Bool :=
  decide (s.countOf p < s.rsvOf p) ||
    decide (((List.range 64).filter (fun q => decide (q ≠ p) && decide (s.partFld q 0 1 = 1))).foldl (fun a q => a + (s.rsvOf q - s.countOf q)) 0
      < 1024 - s.voices.length)

/-- The FREE voice slot that a Part takes, if it may take one (R78). -/
def State.pickFree (s : State) (p : Nat) : Option Nat :=
  if s.usable p = false then none
  else
    let start := if s.partFld p 4 2 = 1 then Sparse.get (fun _ => 0) s.pool.cursor p else 0
    ((List.range 1024).map (fun i => (start + i) % 1024)).find? (fun x => decide ((s.slot x).st = .free))

/-! ### Tasks of a slot -/

/-- Whether a slot has a task for block `n`. -/
def State.hasTask (s : State) (x n : Nat) : Bool :=
  s.sch.tasks.any (fun t => decide (t.index = x) && decide (t.bseq = n) && !t.withdrawn && decide (t.phase ≠ .dropped))

/-- Whether a slot's task for block `n` has been dispatched. -/
def State.hasDispatched (s : State) (x n : Nat) : Bool :=
  s.sch.tasks.any (fun t => decide (t.index = x) && decide (t.bseq = n) && !t.withdrawn && (t.wasDispatched || decide (t.phase = .committed)))

/-- Withdraws a slot's tasks from block `n` on: those not dispatched are removed, and a dispatched one's result is to be discarded under a
new epoch (R88, R136). -/
def State.withdrawTasks (s : State) (x n : Nat) : State :=
  (s.sch.tasks.filter (fun t => decide (t.index = x) && decide (n ≤ t.bseq) && !t.withdrawn)).foldl (fun u t =>
    if t.undispatched then u.dropTask t.order
    else if t.wasDispatched ∨ t.phase = .committed then (u.bumpEpoch x).updTask t.order (fun k => { k with withdrawn := true })
    else u) s

/-! ### Steal order (R80, R81) -/

/-- The rank of a voice under one steal key; the lower comes first. -/
def State.keyRank (s : State) (code : Nat) (x : Slot) : Nat :=
  match code with
  | 1 => s.partFld x.part 8 4
  | 2 => if x.st = .releasing then 0 else 1
  | 3 => 255 - x.level
  | 4 => x.firstBlock
  | _ => 0

/-- The steal keys of a Part, each code once. -/
def State.stealKeys (s : State) (p : Nat) : List Nat :=
  let w := s.vaReg (Reg.VA_PART_STEAL p)
  ([fieldOf w 0 3, fieldOf w 4 3, fieldOf w 8 3, fieldOf w 12 3].filter (fun k => decide (1 ≤ k ∧ k ≤ 4))).eraseDups

/-- Lexicographic order. -/
def lexBefore : List Nat → List Nat → Bool
  | a :: as, b :: bs => decide (a < b) || (decide (a = b) && lexBefore as bs)
  | _, _ => false

/-- A voice's rank in the steal order of Part `p`. -/
def State.stealRank (s : State) (p : Nat) (e : Nat × Slot) : List Nat := (s.stealKeys p).map (fun k => s.keyRank k e.2) ++ [e.1]

/-- Insertion by rank. -/
def State.insertRanked (s : State) (p : Nat) (e : Nat × Slot) : List (Nat × Slot) → List (Nat × Slot)
  | [] => [e]
  | f :: fs => if lexBefore (s.stealRank p e) (s.stealRank p f) then e :: f :: fs else f :: s.insertRanked p e fs

/-- Voices in the steal order of Part `p`. -/
def State.stealOrder (s : State) (p : Nat) (l : List (Nat × Slot)) : List (Nat × Slot) := l.foldl (fun a e => s.insertRanked p e a) []

/-- Whether a voice is eligible to be stolen for Part `p` (R80). -/
def State.eligible (s : State) (p n : Nat) (ex : Bool) (e : Nat × Slot) : Bool :=
  decide (e.2.st = .active ∨ e.2.st = .releasing) && decide (codeOfCls (s.partCls e.2.part) ≤ codeOfCls (s.partCls p)) &&
    !(ex && s.hasDispatched e.1 n) && e.2.muted.isNone

/-! ### Voice ends (R70, R71) -/

/-- A voice or shadow slot's voice ends after block `last`, having sounded `blocks` blocks. -/
def State.voiceEnd (s : State) (x part : Nat) (note : Note) (last blocks reason : Nat) : State :=
  let s1 := (s.raise Page.va 3).count 420 1
  if s.bit Reg.ING_NTF_CFG 16 then
    s1.postNtf (ntfEntry (leBytes 4 (x + part * 2 ^ 16) ++ leBytes 4 (note.key + note.group * 2 ^ 8 + note.chan * 2 ^ 12) ++ leBytes 4 blocks)
      ((last + 1) * s.blk * 256) ntfVoiceEnd reason note.src note.tag)
  else s1

/-- A slot becomes FREE: its streams end, and a host shunt that waits for it is over (R146). -/
def State.freeSlot (s : State) (x : Nat) : State :=
  let s1 := (s.updSlot x (fun v => { Slot.reset with epoch := v.epoch, placed := v.placed })).freeStreams x
  match s1.sch.shuntTarget with
  | some (k, _) =>
    if k = x then { s1 with sch := { s1.sch with shuntTarget := none } }.setBit Reg.SCH_SHUNT_STAT 31 false else s1
  | none => s1

/-- The end of the voice in a slot, with the slot left as it is. -/
def State.endVoice (s : State) (x last reason : Nat) : State :=
  let v := s.slot x
  s.voiceEnd v.origin v.part v.note last (last + 1 - v.firstBlock) reason

/-- A voice leaves and its slot becomes FREE. -/
def State.leave (s : State) (x last reason : Nat) : State := (s.endVoice x last reason).freeSlot x

/-- A note that never sounded leaves: reason 0x4. -/
def State.leaveCancelled (s : State) (x part block : Nat) (note : Note) : State := (s.voiceEnd x part note block 0 4).freeSlot x

/-! ### Cancels (R87 to R90) -/

/-- Cancels a PENDING voice. -/
def State.cancelVoice (s : State) (x : Nat) : State :=
  let v := s.slot x
  if v.leavesAt.isSome then s
  else
    let s1 := s.bump Reg.VA_CANCEL_CNT
    if s.hasDispatched x v.firstBlock then
      (s1.withdrawTasks x v.firstBlock).updSlot x (fun k => { k with leavesAt := some v.firstBlock })
    else (s1.withdrawTasks x v.firstBlock).leaveCancelled x v.part v.firstBlock v.note

/-- Cancels a waiting hard-steal note. -/
def State.cancelWaiting (s : State) (x : Nat) : State :=
  match (s.slot x).waiting with
  | some w =>
    if w.cancelled then s
    else (s.bump Reg.VA_CANCEL_CNT).updSlot x (fun v => { v with waiting := some { w with cancelled := true } })
  | none => s

/-- The slots where a note of Part `p` waits. -/
def State.waitingOf (s : State) (p : Nat) : List Nat :=
  (s.voices.filter (fun e => match e.2.waiting with
    | some w => decide (w.part = p) && !w.cancelled
    | none => false)).map (fun e => e.1)

/-! ### Fades in the voice's own slot (R91, R93, R94, R98) -/

/-- A sounding voice enters ENDING from block `n`, or from the next when an Express step finds its task bound. -/
def State.fadeVoice (s : State) (x n : Nat) (ex : Bool) (reason : Nat) : State :=
  let from_ := if ex ∧ s.hasTask x n then n + 1 else n
  s.updSlot x (fun v => { v with
    st := .ending, fadeFrom := from_, fadeLen := s.rampOf v.part, fadeCls := none, reason := reason, sustained := false })

/-- The slots of a Part in given states, by number. -/
def State.partSlots (s : State) (p : Nat) (f : SlotState → Bool) : List Nat :=
  (s.voices.filter (fun e => decide (e.2.part = p) && f e.2.st)).map (fun e => e.1)

/-- ACTIVE or RELEASING. -/
def SlotState.sounding (t : SlotState) : Bool := decide (t = .active) || decide (t = .releasing)

/-- A part reset (R94): `t` is its sample. -/
def State.partReset (s : State) (p n t : Nat) (ex : Bool) : State :=
  let s1 := (s.partSlots p (fun k => decide (k = .pending))).foldl (fun u x => u.cancelVoice x)
    { s with pool := { s.pool with cancels := (p, t) :: s.pool.cancels } }
  let s2 := (s1.partSlots p SlotState.sounding).foldl (fun u x => u.fadeVoice x n ex 5) s1
  (s2.waitingOf p).foldl (fun u x => u.cancelWaiting x) s2

/-- The choke of a note-on of Part `p` (R93). -/
def State.choke (s : State) (p n t : Nat) (ex : Bool) : State :=
  let g := s.partFld p 16 6
  if g = 0 then s
  else
    ((List.range 64).filter (fun q => decide (q ≠ p) && decide (s.partFld q 16 6 = g))).foldl (fun u q =>
      let u0 : State := { u with pool := { u.pool with cancels := (q, t) :: u.pool.cancels } }
      let u1 := (u0.partSlots q (fun k => decide (k = .pending))).foldl (fun v x =>
        if (v.slot x).leavesAt.isSome then v else (v.bump Reg.VA_CHOKE_CNT).cancelVoice x) u0
      let u2 := (u1.partSlots q SlotState.sounding).foldl (fun v x => (v.bump Reg.VA_CHOKE_CNT).fadeVoice x n ex 2) u1
      (u2.waitingOf q).foldl (fun v x => (v.bump Reg.VA_CHOKE_CNT).cancelWaiting x) u2) s

/-! ### Note-ons (R75, R78, R79, R82, R83, R89, R97) -/

/-- A refused note-on. -/
def State.refuseNote (s : State) (p src reason : Nat) : State :=
  (((s.bump Reg.VA_REFUSED_CNT).setReg Reg.VA_REFUSE_INFO (BitVec.ofNat 32 (src * 2 ^ 16 + reason * 2 ^ 8 + p))).raise Page.va 1).count 418 1

/-- A note enters PENDING in slot `x`, prepared for block `n`, on sample `t`. -/
def State.startNote (s : State) (x p n t : Nat) (note : Note) (tmpl seed : Word) : State :=
  let old := s.slot x
  let s1 := ((s.prepareFrame x p n t note tmpl).clearModulation x).forgetOutput x
  let v : Slot :=
    { Slot.reset with st := .pending, part := p, note := note, origin := x, firstBlock := n, onSample := t, seed := seed,
                      epoch := old.epoch, placed := s.placeNew (s.taskPset false p) }
  (s1.setSlot x v).allocStreams x p

/-- A voice's concealment and resumption go with it to its shadow slot (R140, R141). -/
def State.moveOutput (s : State) (a b : Nat) : State :=
  let s1 := s.forgetOutput b
  { s1 with mix := { s1.mix with
    resumeJ := Sparse.put (fun _ => Option.none) s1.mix.resumeJ b (Sparse.get (fun _ => Option.none) s.mix.resumeJ a)
    concealed := Sparse.put (fun _ => 0) s1.mix.concealed b (Sparse.get (fun _ => 0) s.mix.concealed a) } }

/-- The shadow slot available to a steal (R83). -/
def State.freeShadow (s : State) (express : Bool) : Option Nat :=
  let low := if express then 0 else min 32 (fieldOf (s.vaReg Reg.VA_SHADOW_CFG) 0 6)
  ((List.range 64).filter (fun i => decide (low ≤ i))).map (fun i => 1024 + i) |>.find? (fun x => decide ((s.slot x).st = .free))

/-- The steal of the voice in slot `k` for a note of Part `p` (R82). -/
def State.steal (s : State) (k p n t : Nat) (ex express : Bool) (note : Note) (tmpl seed : Word) : State :=
  let v := s.slot k
  let r := s.rampOf v.part
  let cls := s.partCls p
  let s0 := (if ex then s.withdrawTasks k n else s).bump Reg.VA_STEAL_CNT
  match s0.freeShadow express with
  | some b =>
    let s1 := (((s0.moveFrame k b).moveModulation k b).moveOutput k b).swapStreams k b
    let s2 := s1.setSlot b { v with
      st := .fading, fadeFrom := n, fadeLen := r, fadeCls := some cls, reason := 2, epoch := (s.slot b).epoch, sustained := false }
    (((s2.startNote k p n t note tmpl seed).raise Page.va 0).count 416 1)
  | none =>
    let w : WaitingNote := { note := note, part := p, block := n + r, tmpl := tmpl, seed := seed, cancelled := false }
    let s1 := s0.setSlot k { v with
      st := .ending, fadeFrom := n, fadeLen := r, fadeCls := some cls, reason := 2, waiting := some w, fadeOver := false, sustained := false }
    let s2 : State := { s1 with pool := { s1.pool with withholds := s1.pool.withholds ++ [(note.lane, n + r)] } }
    ((s2.bump Reg.VA_HARD_STEAL_CNT).raise Page.va 0).count 417 1

/-- The note of a released note-on. -/
def noteOf (e : TtEntry) : Note :=
  { src := e.src, group := umpGroup e.ump, chan := umpChan e.ump, key := umpNote e.ump, velocity := fieldOf (umpWord e.ump 1) 16 16,
    attrType := umpData2 e.ump, attrData := fieldOf (umpWord e.ump 1) 0 16, tag := e.tag }

/-- Why a note-on of Part `p` is refused before any slot is looked for; 0 for no reason. -/
def State.refusal (s : State) (p : Nat) : Nat :=
  if s.pageOn Page.va = false then 5
  else if s.partFld p 0 1 = 0 then 1
  else if s.maxOf p = 0 then 4
  else if s.trimming p then 2
  else 0

/-- The slot that a note-on of Part `p` gets: a free one, or a voice to steal (R79). -/
inductive Found where
  | free (x : Nat)
  | stolen (x : Nat)
  | nothing

/-- R79. -/
def State.findSlot (s : State) (p n : Nat) (ex : Bool) (lane : Nat) : Found :=
  let mine := s.voices.filter (fun e => decide (e.2.part = p) && s.eligible p n ex e)
  let first := fun (l : List (Nat × Slot)) => match s.stealOrder p l with
    | e :: _ => Found.stolen e.1
    | [] => Found.nothing
  let reuse := mine.filter (fun e => decide (e.2.note.lane = lane))
  if s.partFld p 4 2 = 2 ∧ reuse ≠ [] then first reuse
  else
    let count := s.countOf p
    match (if count < s.maxOf p then s.pickFree p else none) with
    | some x => .free x
    | none =>
      if count = s.maxOf p ∨ s.partFld p 25 1 = 0 then first mine
      else
        let other := fun (q : Nat) => decide (q ≠ p) && decide (s.rsvOf q < s.countOf q) && decide (s.partFld q 26 1 = 0)
        first (s.voices.filter (fun e => s.eligible p n ex e && (decide (e.2.part = p) || other e.2.part)))

/-- A released note-on (R79, R89, R93). -/
def State.noteOn (s : State) (n : Nat) (ex : Bool) (r : Released) : State :=
  let p := r.entry.part
  let why := s.refusal p
  if why ≠ 0 then s.refuseNote p r.entry.src why
  else
    let note := noteOf r.entry
    let tmpl := s.vaReg (Reg.VA_PART_TMPL p)
    let seed := s.pool.seedInForce
    let t := max r.sample (n * s.blk)
    let place : Option (Nat × State) := match s.findSlot p n ex note.lane with
      | .free x =>
        let s1 : State := { s with pool := { s.pool with cursor := Sparse.put (fun _ => 0) s.pool.cursor p ((x + 1) % 1024) } }
        some (x, s1.startNote x p n t note tmpl seed)
      | .stolen x => some (x, s.steal x p n t ex (decide (r.entry.cls = .express)) note tmpl seed)
      | .nothing => none
    match place with
    | none => s.refuseNote p r.entry.src 3
    | some (x, s1) =>
      let s2 := ((s1.bump Reg.VA_ALLOC_CNT).count 415 1).choke p n t ex
      if s2.pool.cancels.contains (p, t) then
        (if (s2.slot x).waiting.isSome then s2.cancelWaiting x else s2.cancelVoice x)
      else s2

/-! ### Events moved to the next block (R108, R127) -/

/-- Moves an event to the start of block `n + 1`. -/
def State.moveEvent (s : State) (n : Nat) (r : Released) (split begun : Bool) : State :=
  let t := (n + 1) * s.blk
  let up := fun (f : FenceRec) => if f.coversEntry r.entry then { f with floor := max f.floor t } else f
  let s1 := s.bump (if split then Reg.SCH_SPLIT_DEFER_CNT else Reg.PS_REBLOCK_CNT)
  { s1 with
    pool := { s1.pool with nextBlock := s1.pool.nextBlock ++ [{ r with sample := t, split := split, begun := begun }] }
    ing := { s1.ing with
      waiting := s1.ing.waiting.map up, fences := s1.ing.fences.map up, floors := s1.ing.floors.map up
      effects := r.entry.effect t :: s1.ing.effects } }

/-- An event already moved that keeps `r` behind it: of the same lane, or before a fence that holds `r`. -/
def State.movedBefore (s : State) (n : Nat) (r : Released) : Option Released :=
  s.pool.nextBlock.find? (fun d => decide (d.sample = (n + 1) * s.blk) &&
    (decide (laneOf d.entry.src d.entry.ump = laneOf r.entry.src r.entry.ump) ||
      (s.ing.waiting ++ s.ing.fences ++ s.ing.floors).any (fun f => f.coversEntry d.entry && f.holds r.entry)))

/-! ### Note-offs and sustain (R69, R76, R87, R104) -/

/-- The voice in slot `x` is released on sample `t`: the words of its Note area, its state, its streams. -/
def State.releaseVoice (s : State) (x n t velocity : Nat) (attr : Word) : State :=
  let note := setFieldOf (s.frameWord (frameAddr x 0x200)) 31 1 1
  let w := fun (o : Nat) (v : Word) => ({ off := o, value := v, release := false } : FrameWrite)
  let s1 := s.writeVoice x n t
    [{ off := 0x200, value := note, release := true }, w 0x206 (BitVec.ofNat 32 (velocity * 2 ^ 16)), w 0x207 attr,
     w 0x20A (BitVec.ofNat 32 t), w 0x20B (BitVec.ofNat 32 (t / 2 ^ 32))]
  if (s.slot x).st = .pending then
    s1.updSlot x (fun v => { v with offSample := some t, offPending := true, susPending := false })
  else (s1.updSlot x (fun v => { v with offSample := some t, st := .releasing, sustained := false })).releaseStreams x

/-- Whether a Part's sustain word holds note-offs. -/
def State.sustainDown (s : State) (p : Nat) : Bool := decide (2 ^ 31 ≤ (s.frameWord (partAddr p 0x040)).toNat)

/-- A note-off is held (R76). -/
def State.holdOff (s : State) (x velocity : Nat) (attr : Word) : State :=
  s.updSlot x (fun v => { v with
    sustained := decide (v.st = .active), susPending := decide (v.st = .pending), keptVel := velocity, keptAttr := attr })

/-- A note-off that reaches the voices `xs`. -/
def State.noteOff (s : State) (n : Nat) (ex : Bool) (r : Released) (xs : List Nat) (velocity : Nat) (attr : Word) : State :=
  let t := max r.sample (n * s.blk)
  let cancelled := xs.filter (fun x => decide ((s.slot x).st = .pending) && decide (t ≤ (s.slot x).onSample))
  let s1 := cancelled.foldl (fun u x => u.cancelVoice x) s
  let rest := xs.filter (fun x => !cancelled.contains x &&
    (decide ((s.slot x).st = .active) || (decide ((s.slot x).st = .pending) && !(s.slot x).offPending)))
  if ex ∧ rest.any (fun x => s1.hasTask x n) then s1.moveEvent n r false true
  else
    let held := fun (x : Nat) => decide (s1.partFld (s1.slot x).part 24 1 = 1) && s1.sustainDown (s1.slot x).part
    let free := rest.filter (fun x => !held x)
    if s1.recordsFit free n t 5 then
      let s2 := (rest.filter held).foldl (fun u x => u.holdOff x velocity attr) s1
      free.foldl (fun u x => u.releaseVoice x n t velocity attr) s2
    else s1.moveEvent n r true true

/-- Voices of a Part that a note-off can still reach. -/
def State.offVoices (s : State) (p : Nat) : List Nat :=
  s.partSlots p (fun k => decide (k = .pending) || decide (k = .active))

/-- Voices of a Part whose note-off is held. -/
def State.sustainedOf (s : State) (p : Nat) : List Nat :=
  (s.voices.filter (fun e => decide (e.2.part = p) && (e.2.sustained || e.2.susPending))).map (fun e => e.1)

/-- The sustain word of a Part has been written on sample `t`: below 0x8000_0000 it releases the held voices. -/
def State.sustainLift (s : State) (p n t : Nat) : State :=
  if s.sustainDown p then s
  else (s.sustainedOf p).foldl (fun u x => u.releaseVoice x n t (u.slot x).keptVel (u.slot x).keptAttr) s

/-! ### The events of a step (R67 item 4) -/

/-- A channel message that writes a part frame. -/
def State.channelEvent (s : State) (n : Nat) (ex : Bool) (r : Released) : State :=
  let p := r.entry.part
  let t := max r.sample (n * s.blk)
  match s.partWrites p r.entry.ump with
  | none => s.bump Reg.PS_IDX_DROP_CNT
  | some [] => s
  | some ws =>
    if ex ∧ s.partCls p ≠ .express then s.moveEvent n r false true
    else
      let sus := (ws.find? (fun w => decide (w.off = 0x1040)))
      let lift := match sus with
        | some w => decide (w.value.toNat < 2 ^ 31)
        | none => false
      let held := if lift then s.sustainedOf p else []
      if s.recordsFit (s.partVoices p) n t ws.length && s.recordsFit held n t (ws.length + 5) then
        let s1 := s.writePart p n t ws
        if lift then s1.sustainLift p n t else s1
      else s.moveEvent n r true true

/-- A per-note message. -/
def State.noteEvent (s : State) (n : Nat) (ex : Bool) (r : Released) : State :=
  let u := r.entry.ump
  let t := max r.sample (n * s.blk)
  let xs := (s.laneVoices (laneOf r.entry.src u)).filter (fun x => !(s.slot x).detached)
  match s.noteWrites 0 u with
  | none => s.bump Reg.PS_IDX_DROP_CNT
  | some _ =>
    if ex ∧ xs.any (fun x => s.hasTask x n) then s.moveEvent n r false true
    else if xs.all (fun x => s.recordsFit [x] n t ((s.noteWrites x u).getD []).length) then
      xs.foldl (fun v x =>
        let w := v.writeVoice x n t ((v.noteWrites x u).getD [])
        if umpStatus u = 0xF ∧ bitsOf (umpData2 u) 1 1 = 1 then w.updSlot x (fun k => { k with detached := true }) else w) s
    else s.moveEvent n r true true

/-- Selects a Part's template program (R74). -/
def State.selectProgram (s : State) (p pgm : Nat) : State :=
  let off := Reg.VA_PART_TMPL p
  let s1 := s.setFld off 25 7 pgm
  { s1 with pool := { s1.pool with applied := Sparse.put regReset s1.pool.applied off (setFieldOf (s1.vaReg off) 25 7 pgm) } }

/-- One released event. -/
def State.poolEvent (s : State) (n : Nat) (ex : Bool) (r : Released) : State :=
  let u := r.entry.ump
  let p := r.entry.part
  match s.movedBefore n r with
  | some d => s.moveEvent n r d.split r.begun
  | none =>
    match umpStatus u with
    | 0x9 => s.noteOn n ex r
    | 0x8 =>
      s.noteOff n ex r ((s.laneVoices (laneOf r.entry.src u)).filter (fun x => decide ((s.slot x).st ≠ .releasing)))
        (fieldOf (umpWord u 1) 16 16) (BitVec.ofNat 32 (umpData2 u * 2 ^ 24 + fieldOf (umpWord u 1) 0 16))
    | 0xB =>
      if umpNote u = 120 then s.partReset p n (max r.sample (n * s.blk)) ex
      else if umpNote u = 123 then
        let s1 : State := if r.begun then s else
          (s.waitingOf p).foldl (fun v x => v.cancelWaiting x) { s with pool := { s.pool with cancels := (p, r.sample) :: s.pool.cancels } }
        let vel := s1.draw 16
        let attr := vel.2.draw 32
        attr.2.noteOff n ex r (s1.offVoices p) vel.1 (BitVec.ofNat 32 attr.1 &&& 0xFF00FFFF#32)
      else s.channelEvent n ex r
    | 0xC => (if r.begun then s else s.selectProgram p (fieldOf (umpWord u 1) 24 7)).channelEvent n ex r
    | 0x2 => s.channelEvent n ex r
    | 0x3 => s.channelEvent n ex r
    | 0x4 => s.channelEvent n ex r
    | 0x5 => s.channelEvent n ex r
    | 0xD => s.channelEvent n ex r
    | 0xE => s.channelEvent n ex r
    | _ => s.noteEvent n ex r

/-! ### Boundary-step items 1 to 3 (R67, R82, R91, R95, R96, R98) -/

/-- VA register writes come into force. -/
def State.applyParts (s : State) : State :=
  let applied := s.regs.filter (fun e => decide (e.1 / 0x1000 = Page.va))
  { s with pool := { s.pool with applied := applied, seedInForce := s.reg Reg.MM_SEED } }

/-- The end of a fade in slot `x` after block `last`, with the reason for its voice; a waiting note keeps the slot. -/
def State.fadeEnds (s : State) (x last reason : Nat) : State :=
  let v := s.slot x
  match v.waiting with
  | none => s.leave x last reason
  | some w =>
    let s1 := if v.fadeOver then s else s.endVoice x last reason
    if w.cancelled then s1.leaveCancelled x w.part w.block w.note
    else s1.updSlot x (fun k => { k with fadeOver := true, muted := none })

/-- One slot at the boundary step that prepares block `n`. -/
def State.slotEnds (s : State) (n x : Nat) : State :=
  let v := s.slot x
  let last := (v.lastCommit).getD (n - 1)
  let s1 :=
    if v.muted.isSome then s
    else if v.st = .active ∨ v.st = .releasing then
      if v.endFlag then s.leave x last 0
      else if v.floorMet ∧ (v.st = .releasing ∨ fieldOf (s.vaReg (Reg.VA_PART_END v.part)) 16 1 = 1) then
        (s.bump Reg.VA_FLOOR_END_CNT).leave x last 1
      else s
    else if v.st = .ending ∨ v.st = .fading then
      if v.fadeOver then (match v.waiting with
        | some w => if w.cancelled then s.leaveCancelled x w.part w.block w.note else s
        | none => s)
      else if v.endFlag then s.fadeEnds x last v.reason
      else if v.fadeFrom + v.fadeLen ≤ n then s.fadeEnds x (v.fadeFrom + v.fadeLen - 1) v.reason
      else s
    else s
  match (s1.slot x).waiting with
  | some w =>
    if w.block ≤ n ∧ w.cancelled = false ∧ (s1.slot x).fadeOver then s1.startNote x w.part n (n * s.blk) w.note w.tmpl w.seed else s1
  | none => s1

/-- Item 2: the ends that fall due. -/
def State.poolEnds (s : State) (n : Nat) : State :=
  let s1 := (s.liveSlots.map (fun e => e.1)).foldl (fun u x => u.slotEnds n x) s
  { s1 with pool := { s1.pool with withholds := s1.pool.withholds.filter (fun w => decide (n < w.2)) } }

/-- R98: the first boundary step after the page is disabled. -/
def State.drainPool (s : State) (n : Nat) : State :=
  if s.pageOn Page.va then { s with pool := { s.pool with disabled := false } }
  else if s.pool.disabled then s
  else
    let all := s.voices
    let s1 := (all.filter (fun e => decide (e.2.st = .pending))).foldl (fun u e => u.cancelVoice e.1) s
    let s2 := (all.filter (fun e => e.2.st.sounding)).foldl (fun u e => u.fadeVoice e.1 n false 5) s1
    let s3 := (all.filter (fun e => e.2.waiting.isSome)).foldl (fun u e => u.cancelWaiting e.1) s2
    { s3 with pool := { s3.pool with disabled := true } }

/-- TRIM_RATE as it acts. -/
def State.trimRate (s : State) : Nat := max 1 (min 32 (fieldOf (s.vaReg Reg.VA_CTRL) 0 6))

/-- Item 3: the trims of one Part (R91); how many. -/
def State.trimPart (s : State) (p n : Nat) : State × Nat :=
  if s.trimming p = false then (s, 0)
  else
    let live := s.voices.filter (fun e => decide (e.2.part = p) && e.2.muted.isNone)
    let e := (live.filter (fun e => decide (e.2.st = .pending) || e.2.st.sounding)).length - s.maxOf p
    let chosen := (s.stealOrder p (live.filter (fun e => e.2.st.sounding))).take (min e s.trimRate)
    (chosen.foldl (fun u c => ((u.fadeVoice c.1 n false 3).bump Reg.VA_TRIM_CNT).count 419 1) s, chosen.length)

/-- Item 3. -/
def State.trims (s : State) (n : Nat) : State :=
  let r := (List.range 64).foldl (fun (r : State × Nat) p =>
    let k := r.1.trimPart p n
    (k.1, r.2 + k.2)) (s, 0)
  if r.2 = 0 then r.1 else r.1.raise Page.va 2

/-- Queued host writes reach the frames, as sample 0 of block `n` (R110). -/
def State.applyHostWrites (s : State) (n : Nat) : State :=
  let s1 := s.pool.hostWrites.foldl (fun u w =>
    let v := (((u.putFrame (hostTarget w.1) w.2).bump Reg.PS_HWR_CNT).count 425 1)
    if fieldOf w.1 30 2 = 1 ∧ fieldOf w.1 0 14 = 0x040 then v.sustainLift (fieldOf w.1 16 11) n (n * s.blk) else v) s
  { s1 with pool := { s1.pool with hostWrites := [] } }.setFld Reg.PS_STAT 0 7 0

/-- What the VA registers report after a step (R99). -/
def State.reportPool (s : State) : State :=
  let live := s.liveSlots
  let voices := (live.filter (fun e => decide (e.1 < 1024))).length
  let s1 := (s.setFld Reg.VA_STAT 0 11 (1024 - voices)).setFld Reg.VA_STAT 16 7 (64 - (live.length - voices))
  let s2 := (List.range 64).foldl (fun u p =>
    let shadows := (live.filter (fun e => decide (1024 ≤ e.1) && decide (e.2.part = p))).length
    u.setReg (Reg.VA_PART_CNT p) (BitVec.ofNat 32 (s.countOf p + shadows * 2 ^ 16 + if s.trimming p then 2 ^ 31 else 0))) s1
  let code := fun (v : Slot) => match v.st with
    | .free => 0
    | .pending => 1
    | .active => 2
    | .releasing => 3
    | .ending => 4
    | .fading => 5
  let snap := live.foldl (fun m e => Sparse.put (fun _ => (0 : Word)) m e.1 (BitVec.ofNat 32
    (code e.2 + (if e.2.sustained then 8 else 0) + (if e.2.waiting.isSome then 16 else 0) + e.2.owner * 2 ^ 8 + e.2.level * 2 ^ 16))) []
  { s2 with pool := { s2.pool with statSnap := snap } }

/-- VA_PART_QUOTAn (R73). -/
def actQuota (p : Nat) (s : State) (r : RegRow) (old v : Word) : State :=
  let new := r.store old v
  let rsv := fieldOf new 16 11
  let others := ((List.range 64).filter (fun q => decide (q ≠ p))).foldl (fun a q => a + s.fld (Reg.VA_PART_QUOTA q) 16 11) 0
  if fieldOf new 0 11 < rsv ∨ 1024 < fieldOf new 0 11 ∨ 1024 < rsv + others then s.refuseCfg Reg.VA_STAT 31 Page.va
  else s.setReg (Reg.VA_PART_QUOTA p) new

/-- PART_QUOTA_WRITE (R73). -/
def execPartQuotaWrite (path : Path) (p : Fin 64) (v : Word) (s : State) : Host.Outcome State Fault Refusal :=
  .next (s.hostWrite (.host path) (Reg.VA_PART_QUOTA p) v (actQuota p))

end Sys2Proof.Machine
end

