-- ==== Sys2Proof/Machine/Sched.lean ====
section
/-! DEFINITION. The Scheduler's commands from binding to deadline: TASK_BIND, TASK_STAGE, STAGING_COMPLETE, SIDING_MOVE, TAKE_DELIVERY,
COMMIT_CHECK, TASK_DEADLINE, BUS_TASK_DEADLINE and TASK_ABORT, and its register rows (R125 to R149, R155, R160, R215). -/

namespace Sys2Proof.Machine

/-! ### Binding (R125 to R131, R138) -/

/-- CORE cycles from media time 0 to the present period's start. -/
def State.periodStart (s : State) : Nat := s.period * s.blk * 1000000000 / s.fs

/-- Whether the Scheduler binds tasks now: media time runs and is not stopping, and the page is enabled (R28, R149). -/
def State.binds (s : State) : Bool :=
  s.running && s.run && s.pageOn Page.sch && decide (s.sch.bindFrom ≤ s.period)

/-- Whether slot `x` gets a task for block `n` (R125): it renders the block, its pairs are written, and it has none yet. -/
def State.wantsTask (s : State) (x n : Nat) : Bool :=
  let v := s.slot x
  let renders := match v.st with
    | .free => false
    | .pending => decide (v.firstBlock = n)
    | .active => true
    | .releasing => true
    | .ending => decide (v.fadeFrom ≤ n ∧ n < v.fadeFrom + v.fadeLen ∨ n < v.fadeFrom) && !v.fadeOver
    | .fading => decide (n < v.fadeFrom + v.fadeLen)
  renders && v.muted.isNone && v.leavesAt.isNone && !s.hasTask x n &&
    decide (Sparse.get (fun _ => 0) s.mm.evaluated x = n + 1)

/-- Whether bus program `k` gets a task for block `n`: it is enabled, and none was ever bound for the block. -/
def State.wantsBus (s : State) (k n : Nat) : Bool :=
  decide (Sparse.get (fun _ => 0) s.sch.busEnabled k = 1) &&
    !(s.sch.tasks.any (fun t => decide (t.index = 1088 + k) && decide (t.bseq = n)))

/-- A placed core that is not in service with the program set gives way to one that is (log entry 20). -/
def State.replace (s : State) (x : Nat) : State :=
  let l := s.coresOf (s.indexPset x)
  if l.isEmpty ∨ l.contains (s.placedOf x) then s else s.setPlaced x (s.placeNew (s.indexPset x))

/-- The task of slot `x` for block `n` (R126). -/
def State.voiceTask (s : State) (x n cyc : Nat) : Task :=
  let v := s.slot x
  let first := decide (v.firstBlock = n)
  let fade := (decide (v.st = .ending) || decide (v.st = .fading)) && decide (v.fadeFrom ≤ n)
  { kind := if x < 1024 then .voice else .fade, cls := s.slotCls x, first := first, fade := fade
    resume := decide (Sparse.get (fun _ => 0) s.mix.concealed x ≠ 0), rerender := false, slot := x, part := v.part, bseq := n
    epoch := s.epochOf x, entryPc := fieldOf (s.vaReg (Reg.VA_PART_PROG v.part)) 0 13, home := homeAddr x
    limit := s.limitOf false v.part (s.slotCls x), splitPtr := journalAddr x + 16, splitN := s.records x n
    start := if first then v.onSample - n * s.blk else 0, fadeBlk := if fade then n - v.fadeFrom else 0
    fadeLen := if fade then v.fadeLen - 1 else 0, out := outBuffer x, phase := .bound, platform := s.platformOf x, exclude := none
    order := 0, head := false, boundAt := s.periodStart + cyc, withdrawn := false, tally := [], takeAt := 0, seed := v.seed }

/-- The task of bus program `k` for block `n`. It has no split record, and SPLIT_PTR is not stated for it: `ptr`, a free value. -/
def State.busTask (s : State) (k n cyc ptr : Nat) : Task :=
  let cls := clsOfCode (s.fld (Reg.SCH_BUS_CFG k) 1 2)
  let x := 1088 + k
  { kind := .bus, cls := cls, first := false, fade := false
    resume := decide (Sparse.get (fun _ => 0) s.mix.concealed x ≠ 0), rerender := false, slot := k, part := 0, bseq := n
    epoch := s.epochOf x, entryPc := s.fld (Reg.SCH_BUS_CFG k) 16 13, home := s.fld (Reg.SCH_BUS_HOME k) 12 13 * 4096
    limit := s.limitOf true k cls, splitPtr := 8 * ptr, splitN := 0, start := 0, fadeBlk := 0, fadeLen := 0, out := outBuffer x
    phase := .bound, platform := s.platformOf x, exclude := none, order := 0, head := false, boundAt := s.periodStart + cyc
    withdrawn := false, tally := [], takeAt := 0, seed := s.pool.seedInForce }

/-- The Express voice and fade tasks of block `n`, each slot once. -/
def State.expressTasks (s : State) (n : Nat) : List (Nat × Nat) :=
  ((s.sch.tasks.filter (fun t => decide (t.bseq = n) && decide (t.cls = .express) && decide (t.kind ≠ .bus))).map
    (fun t => (t.index, t.limit))).eraseDups

/-- The Express demand of block `n` (R138). -/
def State.demand (s : State) (n : Nat) : Nat := (s.expressTasks n).foldl (fun a e => a + e.2 + 500) 0

/-- Checks a block's Express tasks against the first two limits of R138. -/
def State.judgeDemand (s : State) (n : Nat) : State :=
  let voices := ((s.expressTasks n).filter (fun e => decide (e.1 < 1024))).length
  if s.demand n ≤ s.sch.expApplied ∧ voices ≤ 128 then s
  else
    let s1 := s.setBit Reg.SCH_STAT 2 true
    if s.sch.overBlock = some n then s1
    else
      let s2 : State := { s1 with sch := { s1.sch with overBlock := some n } }
      (s2.bump Reg.SCH_EXP_OVER_CNT).raise Page.sch 1

/-- Whether core `n` may take task `t` (R129, R143). -/
def State.mayRun (s : State) (n : Nat) (t : Task) : Bool :=
  decide ((s.core n).svc = 2) && (decide (t.platform = 34) || decide (t.platform = n)) && decide (t.exclude ≠ some n) &&
    decide (s.psetOf n = s.indexPset t.index)

/-- Whether a Siding slot of core `n` is free for staging (R132, R162). -/
def State.sidingFree (s : State) (n : Nat) (slot1 : Bool) : Bool :=
  let c := s.core n
  decide (c.svc = 2) && (if slot1 then c.buf1.task.isNone else c.back.task.isNone && !c.back.frozen)

/-- Staged tasks of a class on the cores that may take `t`, by core and Siding slot. -/
def State.stagedFor (s : State) (t : Task) (cls : Cls) : List Nat :=
  ((List.range 34).filter (fun n => s.mayRun n t)).flatMap (fun n =>
    [(s.core n).back.task, (s.core n).buf1.task].filterMap (fun i => i.bind (fun id =>
      match s.taskOf id with
      | some k => (match k.phase with
        | .staged _ _ => if k.cls = cls then some id else Option.none
        | _ => Option.none)
      | none => Option.none)))

/-- An Express task that finds no free Siding slot withdraws a staged task, Bulk first (R132). -/
def State.makeRoom (s : State) (t : Task) : State :=
  let free := ((List.range 34).filter (fun n => s.mayRun n t)).foldl (fun a n =>
    a + (if s.sidingFree n false then 1 else 0) + (if s.sidingFree n true then 1 else 0)) 0
  let waiting := (s.sch.tasks.filter (fun k => decide (k.phase = .bound) && decide (k.cls = .express) && decide (k.platform = t.platform))).length
  if t.cls ≠ .express ∨ waiting ≤ free then s
  else match s.stagedFor t .bulk ++ s.stagedFor t .normal with
    | id :: _ => s.withdrawStaged id
    | [] => s

/-- Counts a deferred task (R129, R134). -/
def State.countDefer (s : State) (t : Task) : State :=
  let s1 := s.bump (if t.cls = .bulk then Reg.SCH_DEFER_BULK_CNT else Reg.SCH_DEFER_NRM_CNT)
  if t.cls = .normal then { s1 with sch := { s1.sch with bulkClosed := some t.bseq } } else s1

/-- Binds a task: on its Platform, or deferred at once where no in-service core carries its program set (R129, R131, R245). -/
def State.bind (s : State) (t : Task) : State :=
  let s1 := s.sendSnapshot t
  let s2 := if t.kind = .bus then s1 else (s1.setJournal t.slot t.bseq t.splitN).setJournalEpoch t.slot t.epoch
  let s3 := s2.count (427 + 6 * (3 - codeOfCls t.cls)) 1
  if (s3.coresOf (s3.indexPset t.index)).isEmpty ∧ t.cls ≠ .express then
    (s3.countDefer t).pushTask { t with phase := .deferred }
  else
    let s4 := (s3.pushTask t).makeRoom t
    if t.cls = .express ∧ t.kind ≠ .bus then s4.judgeDemand t.bseq else s4

/-- TASK_BIND (R131): the task of slot `x`, or of bus program `x - 1088`, is bound in cycle `cyc` of the period: of block t + 2 for a slot,
of block t + 1 for a bus program. -/
def execTaskBind (x : Fin 1152) (cyc : Nat) (s : State) : Host.Outcome State Fault Refusal :=
  let t := s.period
  if s.binds = false ∨ s.clk.boundaryDone ≤ t then .next s
  else if x.val < 1088 then
    let n := t + 2
    if s.wantsTask x n = false ∨ (s.slotCls x = .express ∧ s.clk.expressDone ≤ t) then .next s
    else
      let s1 := s.replace x
      .next (s1.bind (s1.voiceTask x n cyc))
  else
    let k := x.val - 1088
    let n := t + 1
    if s.wantsBus k n = false ∨ n < s.clk.startPeriod + 2 ∨ t < s.clk.busDeadlineDone then .next s
    else
      let d := (s.replace x).draw 22
      .next (d.2.bind (d.2.busTask k n cyc d.1))

/-! ### Staging (R132, R133, R155, R217, R248) -/

/-- The words of a task descriptor (R126). -/
def Task.words (t : Task) : List Word :=
  let b := fun (x : Bool) (k : Nat) => if x then 2 ^ k else 0
  let kind := match t.kind with
    | .voice => 0
    | .fade => 1
    | .bus => 2
  [BitVec.ofNat 32 (kind + codeOfCls t.cls * 4 + b t.first 4 + b t.fade 5 + b t.resume 6 + b t.rerender 7 + t.slot * 2 ^ 11 +
      t.part * 2 ^ 22),
   BitVec.ofNat 32 t.bseq, BitVec.ofNat 32 (t.epoch + t.entryPc * 2 ^ 16), BitVec.ofNat 32 t.home, BitVec.ofNat 32 t.limit,
   BitVec.ofNat 32 t.splitPtr,
   BitVec.ofNat 32 (t.splitN + t.start * 2 ^ 8 + t.fadeBlk % 256 * 2 ^ 16 + t.fadeLen % 16 * 2 ^ 24), BitVec.ofNat 32 t.out]

/-- The rank of a task among those available to core `n`; the lower is the better (R132, R143). -/
def State.rank (s : State) (n : Nat) (t : Task) : List Nat :=
  [3 - codeOfCls t.cls, if t.head then 0 else 1, s.deadlineSample t, if t.platform = n then 0 else 1, t.order]

/-- The best of some tasks for core `n`. -/
def State.best (s : State) (n : Nat) : List Task → Option Task
  | [] => none
  | t :: ts => match s.best n ts with
    | none => some t
    | some u => if lexBefore (s.rank n u) (s.rank n t) then some u else some t

/-- What staging reads: words, and whether one was poisoned (R364). -/
structure Gather where
  st : State
  words : List Word
  bad : Bool

/-- Reads `n` words for staging. -/
def State.gather (s : State) (cls : Cls) (a n : Nat) : Gather :=
  let r := s.devReadWords 39 cls a n
  { st := r.1, words := r.2.map (fun w => w.getD 0), bad := r.2.any Option.isNone }

/-- The inputs of a bus task, from input `i` on (R248). -/
def State.busInputs (s : State) (t : Task) (i : Nat) : Nat → Frame → State × Frame
  | 0, f => (s, f)
  | k + 1, f =>
    let sel := s.fld (Reg.MIX_BUS_IN t.slot) (8 * i) 8
    let r := if 128 ≤ sel then s.readCapture t.cls 39 (sel - 128) (t.bseq - 3)
      else s.devRead 39 t.cls (0x00E64000 + 512 * sel) s.rendered
    let words := r.2 ++ List.replicate (s.rendered - r.2.length) (0 : Word)
    r.1.busInputs t (i + 1) k (f.fill (0x400 + 128 * i) words)

/-- Undefined contents of a frame: a new draw block (R155). -/
def State.newFrame (s : State) : State × Frame := ({ s with draws := s.draws + 4097 }, { words := [], gen := s.draws + 1 })

/-- The data of a task as staging lays them out (R155, R217): the buffer, and whether poisoned data were read. -/
def State.stageData (s : State) (t : Task) : State × TaskBuf × Bool :=
  let fx := s.newFrame
  let fy := fx.1.newFrame
  let zeros := List.replicate 512 (0 : Word)
  let home : Gather := if t.first then { st := fy.1, words := zeros ++ zeros, bad := false } else fy.1.gather t.cls t.home 1024
  let x0 := (fx.2.fill 0 (home.words.take 512)).fill 0x308 t.words
  let y0 := fy.2.fill 0 (home.words.drop 512)
  let buf : TaskBuf := { TaskBuf.reset with task := some t.order }
  if t.kind = .bus then
    let nin := min 4 (s.fld (Reg.MIX_BUS_CFG t.slot) 4 3)
    let r := home.st.busInputs t 0 nin (x0.fill 0x200 (List.replicate 264 (0 : Word)))
    (r.1, { buf with x := r.2, y := y0 }, home.bad)
  else
    let prog := home.st.gather t.cls (frameAddr t.slot 0x300) 256
    let recs := prog.st.gather t.cls t.splitPtr (2 * t.splitN)
    let pairs := recs.st.gather t.cls (frameAddr t.slot 0x100) 256
    let fb := (List.range 8).map (fun i => Sparse.get (fun _ => (0 : Word)) s.pool.fb (8 * t.slot + i))
    let x1 := ((x0.fill 0x200 prog.words).fill 0x300 fb).fill 0x310 recs.words
    let ramp := (pairs.words.zipIdx).foldl (fun m e => Sparse.put (fun _ => (0 : Word)) m e.2 e.1) []
    (pairs.st, { buf with x := x1, y := y0, ramp := ramp, snap0 := s.streamSnap t.slot 0, snap1 := s.streamSnap t.slot 1 },
      home.bad || prog.bad || recs.bad || pairs.bad)

/-- Whether `a` lies in one of the ranges that staging reads for a task. -/
def stageReads (t : Task) (a : Nat) : Bool :=
  let in_ := fun (lo n : Nat) => decide (lo ≤ a ∧ a < lo + n)
  (!t.first && in_ t.home 4096) ||
    (decide (t.kind ≠ .bus) && (in_ (frameAddr t.slot 0x300) 1024 || in_ t.splitPtr (8 * t.splitN) || in_ (frameAddr t.slot 0x100) 1024))

/-- Poisoned data withdraw the task; its block is concealed and its slot muted (R364). -/
def State.poisonTask (s : State) (t : Task) : State :=
  ((s.dropTask t.order).updTask t.order (fun k => { k with withdrawn := true })).mute t.index t.bseq 6

/-- Whether a task may be staged now: a bus task waits for the image of its block (R248). -/
def State.stageable (s : State) (t : Task) : Bool :=
  decide (t.kind ≠ .bus) || decide (s.mix.voiceBlock = some t.bseq)

/-- TASK_STAGE (R132): the free Siding slot of core `n` begins to be filled with the best task available. The check bits of the
Concourse word at `a`, when staging reads it, show `upset`. -/
def execTaskStage (n : Fin 34) (slot1 : Bool) (a : BitVec 25) (upset : Upset) (s : State) : Host.Outcome State Fault Refusal :=
  if s.sidingFree n slot1 = false then .next s
  else match s.best n (s.sch.tasks.filter (fun t => decide (t.phase = .bound) && !t.withdrawn && s.mayRun n t && s.stageable t)) with
    | none => .next s
    | some t =>
      let addr := a.toNat / 16 * 16
      let k := if stageReads t addr then s.conCheck 39 addr upset else (s, false)
      let r := k.1.stageData t
      if k.2 ∨ r.2.2 then .next (r.1.poisonTask t)
      else
        let s1 := r.1.updTask t.order (fun u => { u with phase := .staging n (if slot1 then 1 else 0) })
        .next (s1.updCore n (fun c => if slot1 then { c with buf1 := r.2.1 } else c.setBack { r.2.1 with frozen := false }))

/-- STAGING_COMPLETE (R133). -/
def execStagingComplete (n : Fin 34) (slot1 : Bool) (s : State) : Host.Outcome State Fault Refusal :=
  let b := if slot1 then (s.core n).buf1 else (s.core n).back
  match b.task.bind s.taskOf with
  | none => .next s
  | some t => match t.phase with
    | .staging m k => .next (s.updTask t.order (fun u => { u with phase := .staged m k }))
    | _ => .next s

/-- A task's phase after its buffer has moved between Siding slots. -/
def Task.inSlot (t : Task) (k : Nat) : Task := match t.phase with
  | .staging n _ => { t with phase := .staging n k }
  | .staged n _ => { t with phase := .staged n k }
  | _ => t

/-- SIDING_MOVE (R133): the staged task of slot 1 moves into slot 0, or the two change places when it is the better one. -/
def execSidingMove (n : Fin 34) (s : State) : Host.Outcome State Fault Refusal :=
  let c := s.core n
  let ready := fun (b : TaskBuf) => (b.task.bind s.taskOf).bind (fun t => match t.phase with
    | .staged _ _ => some t
    | _ => Option.none)
  match ready c.buf1 with
  | none => .next s
  | some t1 =>
    if c.back.frozen ∨ c.svc ≠ 2 then .next s
    else match c.back.task with
      | none =>
        let s1 := s.updTask t1.order (fun t => t.inSlot 0)
        .next (s1.updCore n (fun d => { (d.setBack d.buf1) with buf1 := { TaskBuf.reset with frozen := false } }))
      | some _ => match ready c.back with
        | none => .next s
        | some t0 =>
          if lexBefore (s.rank n t1) (s.rank n t0) then
            let s1 := (s.updTask t1.order (fun t => t.inSlot 0)).updTask t0.order (fun t => t.inSlot 1)
            .next (s1.updCore n (fun d => { (d.setBack d.buf1) with buf1 := d.back }))
          else .next s

/-! ### Dispatch (R134, R139, R142, R147, R159, R160, R215) -/

/-- CORE cycles from the period's start to a task's deadline. -/
def State.deadlineCycle (s : State) (t : Task) : Nat :=
  (s.deadlineSample t - s.period * s.blk) * 1000000000 / s.fs

/-- Cycles used in this period by the tasks that `p` selects and `done` counts, the running ones included. -/
def State.usedBy (s : State) (done : Nat) (p : Task → Bool) : Nat :=
  (s.sch.tasks.filter p).foldl (fun a t => match t.phase with
    | .dispatched m => a + ((s.core m).cycle - t.takeAt)
    | _ => a) (Sparse.get (fun _ => 0) s.sch.used done)

/-- Whether used cycles have reached a cap of SCH_BUDGET in percent of C (R139). -/
def State.capReached (s : State) (used pct : Nat) : Bool :=
  decide (s.inService.length * s.blk * 1000000000 * min 100 pct ≤ used * 100 * s.fs)

/-- Whether a TAKE in cycle `cyc` of the period delivers a task (R134). -/
def State.passes (s : State) (t : Task) (cyc : Nat) : Bool :=
  if t.cls = .express then true
  else
    let bulk := decide (t.cls = .bulk)
    decide (cyc + t.limit + 1000 + s.hold ≤ s.deadlineCycle t) &&
      !(s.capReached (s.usedBy (codeOfCls t.cls) (fun k => decide (k.cls = t.cls))) (s.fld Reg.SCH_BUDGET (if bulk then 16 else 8) 7)) &&
      !(decide (t.kind = .bus) &&
        s.capReached (s.usedBy 0 (fun k => decide (k.kind = .bus) && decide (k.cls ≠ .express))) (s.fld Reg.SCH_BUDGET 0 7)) &&
      !(bulk && decide (s.sch.bulkClosed = some t.bseq))

/-- The bucket of a wait (R147). -/
def waitBucket (w : Nat) : Nat := if w < 256 then 0 else min 15 (Nat.log2 (w / 256) + 1)

/-- What the registers of a core keep from one task to the next: those last written in Runtime mode (R159, R177, R194, R215). -/
def Core.newTask (c : Core) (gen : Nat) (t : Task) : Core :=
  let k0 := { c with
    regs := c.regs.filter (fun e => decide (e.1 < 72) && !c.soft.contains e.1)
    accs := c.accs.filter (fun e => !c.soft.contains (256 + e.1)), soft := [], gen := gen
    k0 := t.seed, k1 := BitVec.ofNat 32 (t.slot + t.bseq / 2 ^ 22 % 2 ^ 10 * 2 ^ 16)
    nctr := BitVec.ofNat 32 (t.bseq % 2 ^ 22 * 1024), task := some t.order, tcyc := 1, tally := [0, 0, 0, 0], judged := false
    taking := none, aborted := none }
  (k0.setCr 0 (BitVec.ofNat 32 (setBitsOf (k0.cr 0).toNat 2 9 0))).setCr 0x0F 0

/-- The task in slot 0 is delivered to core `n` in cycle `cyc`; `w` is the waiting TAKE. -/
def State.dispatch (s : State) (n cyc : Nat) (w : Taking) (t : Task) : State :=
  let c := s.core n
  let wait := s.periodStart + cyc - t.boundAt
  let kc := 3 - codeOfCls t.cls
  let s1 := if w.miss then s else (s.bump Reg.SCH_SIDING_HIT_CNT).corePmu n 5 1
  let s2 := ((s1.bump (Reg.SCH_HIST (16 * kc + waitBucket wait))).count (427 + 6 * kc + 1) 1).count (427 + 6 * kc + 5) wait
  let s3 := s2.updTask t.order (fun k => { k with phase := .dispatched n, takeAt := c.cycle })
  let s4 : State := { s3 with draws := s3.draws + 300 }
  let swapped := { (c.newTask (s3.draws + 1) t) with frontA := !c.frontA }
  let s5 := s4.setCore n (swapped.setFront { swapped.front with pos := [], under0 := false, under1 := false })
  let s6 := (s5.advance n c []).holdTicks n 2 3
  s6.updCore n (fun d =>
    { (d.later 1 (.reg (codeG (c.phys w.d)) (t.words.headD 0))) with fresh := true })

/-- A task is deferred at a TAKE: final (R134). -/
def State.defer (s : State) (t : Task) : State :=
  ((s.unstage t.order).countDefer t).updTask t.order (fun k => { k with phase := .deferred })

/-- TAKE_DELIVERY (R134, R160): core `n`'s waiting TAKE, after `wait` cycles, is offered the staged task of slot 0 in cycle `cyc` of the
period. It gets it, or the task is deferred. -/
def execTakeDelivery (n : Fin 34) (cyc wait : Nat) (s : State) : Host.Outcome State Fault Refusal :=
  let c := s.core n
  match c.taking with
  | none => .next s
  | some w =>
    if c.svc ≠ 2 ∨ c.halted ∨ c.recalled.isSome ∨ c.takesEvent then .next s
    else match c.back.task.bind s.taskOf with
      | none => .next s
      | some t => match t.phase with
        | .staged _ _ =>
          let s1 := s.holdTicks n 2 wait
          if (s1.core n).memUe.isSome then .next (s1.coreFault n)
          else if s1.passes t cyc then .next (s1.dispatch n cyc w t)
          else .next (s1.defer t)
        | _ => .next s

/-! ### The commit check (R6, R8, R95, R135, R145, R155, R232) -/

/-- The floor run of a slot after a committed block (R95). -/
def State.floorAfter (s : State) (v : Slot) (b level : Nat) : Nat :=
  let w := s.vaReg (Reg.VA_PART_END v.part)
  let released := (v.offSample.map (fun t => decide (t ≤ b * s.blk))).getD false
  let active := decide (v.st = .active) && decide (fieldOf w 16 1 = 1)
  if (released || active) ∧ fieldOf w 0 8 ≤ level then v.floorRun + 1 else 0

/-- Where a commit and a shunt of the slot meet: the first commit on the new core (R145, R146). -/
def State.shuntDone (s : State) (x n : Nat) : State :=
  if s.sch.shuntNotify.contains (x, n) then
    let t : State := { s with sch := { s.sch with shuntNotify := s.sch.shuntNotify.filter (fun e => decide (e.1 ≠ x)) } }
    let u := t.raise Page.sch 3
    if u.sch.shuntTarget = some (x, n) then
      State.setBit { u with sch := { u.sch with shuntTarget := none } } Reg.SCH_SHUNT_STAT 31 false
    else u
  else s

/-- The slot's own record of a committed block. -/
def State.slotCommit (s : State) (t : Task) (level : Nat) (ended : Bool) : State :=
  if t.kind = .bus then s
  else
    let w := s.vaReg (Reg.VA_PART_END t.part)
    s.updSlot t.slot (fun v =>
      let run := s.floorAfter v t.bseq level
      { v with level := level, lastCommit := some t.bseq, endFlag := ended, floorRun := run,
               floorMet := decide (max 1 (fieldOf w 8 8) ≤ run) })

/-- The checkpoint and the result reach the Concourse (R155). -/
def State.checkpoint (s : State) (t : Task) (b : TaskBuf) : State :=
  let s1 := s.devWrite 40 t.cls t.home (b.x.slice 0 512 ++ b.y.slice 0 512)
  let s2 := if t.kind = .bus then s1
    else
      let u := s1.devWrite 40 t.cls (frameAddr t.slot 0x300) (b.x.slice 0x200 256)
      { u with pool := { u.pool with fb := (List.range 8).foldl (fun m i =>
          Sparse.put (fun _ => 0) m (8 * t.slot + i) (b.x.rd (0x300 + i))) u.pool.fb } }
  let nch := ((s.snapOf t.index t.bseq).map (fun m => m.nch)).getD (s.channels t)
  (List.range nch).foldl (fun u c => u.devWrite 40 t.cls (t.out + 512 * c) (b.y.slice (0x200 + 128 * c) s.rendered)) s2

/-- A passing check: the commit. -/
def State.commit (s : State) (n : Nat) (t : Task) (b : TaskBuf) (ended : Bool) : State :=
  let s1 := (s.checkpoint t b).accept t
  let s2 := ((s1.1.slotCommit t s1.2 ended).judge n t.tally true).count (427 + 6 * (3 - codeOfCls t.cls) + 2) 1
  let s3 := s2.updTask t.order (fun k => { k with phase := .committed, tally := [] })
  let s4 := if t.kind = .bus then s3 else (s3.streamCommit t.slot 0 b.under0).streamCommit t.slot 1 b.under1
  s4.shuntDone t.index n

/-- A failing check: result and checkpoint are discarded. -/
def State.discard (s : State) (n : Nat) (t : Task) (stale : Bool) : State :=
  let s1 := (s.judge n t.tally false).count 470 1
  let s2 := if stale then (s1.bump Reg.SCH_STALE_CNT).count 448 1 else s1
  s2.updTask t.order (fun k => { k with phase := if stale then .dropped else .failed, withdrawn := k.withdrawn || stale, tally := [] })

/-- The buffer whose yielded task core `n`'s state mover has copied: the back frames if they are frozen, since theirs is the older task,
or else the front frames. -/
def Core.yielded (c : Core) : Option (Bool × TaskBuf) :=
  if c.back.frozen then some (false, c.back) else if c.front.frozen then some (true, c.front) else none

/-- COMMIT_CHECK (R135): the state mover of core `n` checks the oldest yielded task. `ux` and `uy` are what its copy of X and of Y memory
meets. -/
def execCommitCheck (n : Fin 34) (ux uy : Upset) (s : State) : Host.Outcome State Fault Refusal :=
  match (s.core n).yielded with
  | none => .next s
  | some (front, b) =>
    let kx := s.coreMemCheck n 1 ux
    let ky := kx.1.coreMemCheck n 2 uy
    let release := fun (u : State) => u.updCore n (fun c =>
      if front then c.setFront { c.front with frozen := false, task := none } else c.setBack { c.back with frozen := false, task := none })
    match b.task.bind s.taskOf with
    | none => .next (release ky.1)
    | some t => match t.phase with
      | .yielded _ ended err =>
        let stale := t.withdrawn || decide (t.epoch ≠ s.epochOf t.index)
        let again := s.sch.tasks.any (fun k => decide (k.index = t.index) && decide (k.bseq = t.bseq) && decide (k.phase = .committed) && !k.withdrawn)
        let inTime := decide (s.sample < s.deadlineSample t)
        if stale ∨ err ∨ kx.2 ∨ ky.2 ∨ again ∨ inTime = false then .next (release (ky.1.discard n t stale))
        else .next (release (ky.1.commit n t b ended))
      | _ => .next (release ky.1)

/-! ### Deadlines (R14, R15, R69, R88, R96, R134, R140, R384) -/

/-- Slots of tasks at their deadline that have not been judged count as Wasted (R384). -/
def State.judgeDeadline (s : State) (t : Task) : State := match t.phase with
  | .dispatched n => s.judgeCore n
  | .yielded n _ _ => (s.judge n t.tally false).updTask t.order (fun k => { k with tally := [0, 0, 0, 0] })
  | _ => s

/-- The tasks of an index for a block that count for its deadline. -/
def State.tasksFor (s : State) (x b : Nat) : List Task :=
  s.sch.tasks.filter (fun t => decide (t.index = x) && decide (t.bseq = b) && !t.withdrawn)

/-- Whether a task not committed by its deadline is a deadline miss (R140). -/
def Task.missed (t : Task) : Bool := match t.phase with
  | .dispatched _ => true
  | .yielded _ _ _ => true
  | .failed => true
  | .bound => decide (t.cls = .express)
  | .staging _ _ => decide (t.cls = .express)
  | .staged _ _ => decide (t.cls = .express)
  | _ => false

/-- The send snapshot of a block that is concealed without ever having been bound (R149): taken from the words written for the block. -/
def State.snapUnbound (s : State) (x b : Nat) (cls : Cls) : State :=
  let t := if x < 1088 then s.voiceTask x b 0 else s.busTask (x - 1088) b 0 0
  s.sendSnapshot { t with cls := cls }

/-- Block `b` of index `x` is concealed and counted. -/
def State.concealBlock (s : State) (x b : Nat) (cls : Cls) : State :=
  let s1 := (((s.snapUnbound x b cls).bump Reg.SCH_CONCEAL_CNT).count (427 + 6 * (3 - codeOfCls cls) + 3) 1).conceal x b
  if x < 1088 then s1.updSlot x (fun v => { v with floorRun := 0, floorMet := false, endFlag := false }) else s1

/-- The deadline of block `b` of index `x`, whose class is `cls`. -/
def State.blockDeadline (s : State) (x b : Nat) (cls : Cls) : State :=
  let ts := s.tasksFor x b
  let committed := ts.any (fun t => decide (t.phase = .committed))
  let miss := !committed && ts.any Task.missed
  let d := if ts.isEmpty then ({ st := s, hit := false, inj := false } : Check) else s.detect Page.sch 0 0 x miss
  let s1 := if d.hit then (((d.st.bump Reg.SCH_MISS_CNT).count 445 1).raise Page.sch 0) else d.st
  let s2 := ts.foldl (fun u t =>
    let v := u.judgeDeadline t
    if t.undispatched then
      if t.cls = .express then v.dropTask t.order else v.defer t
    else v) s1
  if committed = false then s2.concealBlock x b cls
  else if d.hit then
    State.concealBlock { s2 with mix := { s2.mix with
      terms := s2.mix.terms.filter (fun m => !(decide (m.index = x) && decide (m.bseq = b))) } } x b cls
  else s2

/-- Whether slot `v` has a block `b` to commit. -/
def Slot.owes (v : Slot) (b : Nat) : Bool :=
  v.leavesAt.isNone && decide (v.firstBlock ≤ b) && (match v.st with
    | .free => false
    | .ending => !v.fadeOver && decide (b < v.fadeFrom + v.fadeLen)
    | .fading => decide (b < v.fadeFrom + v.fadeLen)
    | _ => true)

/-- A PENDING voice after its first block (R69, R76, R87). -/
def State.firstDone (s : State) (x : Nat) : State :=
  let v := s.slot x
  if v.offPending then (s.updSlot x (fun k => { k with st := .releasing, offPending := false, susPending := false })).releaseStreams x
  else s.updSlot x (fun k => { k with st := .active, sustained := k.susPending, susPending := false })

/-- Slot `x` at the deadline of block `b`. -/
def State.slotDeadline (s : State) (b x : Nat) : State :=
  let v := s.slot x
  let s1 := if v.owes b then s.blockDeadline x b (s.slotCls x) else s
  match v.leavesAt, v.muted with
  | some k, _ => if k ≤ b then s1.leaveCancelled x v.part k v.note else s1
  | none, some k => if k ≤ b then s1.fadeEnds x k 6 else s1
  | none, none => if v.st = .pending ∧ v.firstBlock ≤ b then s1.firstDone x else s1

/-- TASK_DEADLINE (R140): the deadline of the voice and fade tasks of block t + 1, at the first sample of period t. -/
def execTaskDeadline (s : State) : Host.Outcome State Fault Refusal :=
  let t := s.period
  if s.running = false ∨ s.offset ≠ 0 ∨ t < s.clk.deadlineDone then .next s
  else
    let b := t + 1
    let s1 : State := { s with clk := { s.clk with deadlineDone := t + 1 } }
    if b < s.clk.startPeriod + 2 ∨ s.clk.boundaryDone < t then .next s1
    else .next ((s1.liveSlots.map (fun e => e.1)).foldl (fun u x => u.slotDeadline b x) s1)

/-- BUS_TASK_DEADLINE (R15): the deadline of the bus tasks of block t + 1, ⌊0.2 × B⌋ samples into period t. -/
def execBusTaskDeadline (s : State) : Host.Outcome State Fault Refusal :=
  let t := s.period
  if s.running = false ∨ s.offset ≠ s.blk / 5 ∨ t < s.clk.busDeadlineDone then .next s
  else
    let b := t + 1
    let s1 : State := { s with clk := { s.clk with busDeadlineDone := t + 1 } }
    if b < s.clk.startPeriod + 2 ∨ s.clk.boundaryDone ≤ t then .next s1
    else
      .next (((List.range 64).filter (fun k => decide (Sparse.get (fun _ => 0) s1.sch.busEnabled k = 1))).foldl
        (fun u k => u.blockDeadline (1088 + k) b (clsOfCode (u.fld (Reg.SCH_BUS_CFG k) 1 2))) s1)

/-- TASK_ABORT (R142): the count of core `n`'s dispatched task has exceeded its limit, or an injection makes it so. -/
def execTaskAbort (n : Fin 34) (s : State) : Host.Outcome State Fault Refusal :=
  let c := s.core n
  match s.coreTask n with
  | none => .next s
  | some t =>
    if c.aborted.isSome ∨ taskAborted (some t) ∨ c.svc ≠ 2 then .next s
    else
      let d := s.check Page.sch 1 n (decide (t.limit < c.tcyc))
      .next (if d.hit then d.st.abortTask n d.inj else d.st)

/-! ### Registers (R137, R145 to R147) -/

/-- Whether a reservation fits the Express window with the present cores (R137). -/
def State.reservationFits (s : State) (cyc lmax : Nat) : Bool :=
  match holdFor cyc (max 1024 lmax) s.inService.length with
  | some h => decide (h ≤ s.expWindow)
  | none => false

/-- SCH_EXP_CYCLES. -/
def actExpCycles (s : State) (r : RegRow) (old v : Word) : State :=
  let new := r.store old v
  if s.reservationFits (fieldOf new 0 24) (s.fld Reg.SCH_EXP_CFG 0 24) then s.setReg Reg.SCH_EXP_CYCLES new
  else s.refuseCfg Reg.SCH_STAT 31 Page.sch

/-- SCH_EXP_CFG. -/
def actExpCfg (s : State) (r : RegRow) (old v : Word) : State :=
  let new := r.store old v
  if s.reservationFits (s.fld Reg.SCH_EXP_CYCLES 0 24) (fieldOf new 0 24) then s.setReg Reg.SCH_EXP_CFG new
  else s.refuseCfg Reg.SCH_STAT 31 Page.sch

/-- SCH_CTRL: HCLR clears the histograms, and the peaks start again from the present depths. -/
def actSchCtrl (s : State) (r : RegRow) (old v : Word) : State :=
  let s1 := s.setReg Reg.SCH_CTRL (r.store old v)
  if fieldOf v 16 1 = 0 then s1
  else
    let s2 := (List.range 48).foldl (fun u i => u.setReg (Reg.SCH_HIST i) 0) s1
    { s2 with sch := { s2.sch with peaks := [] } }

/-- SCH_SHUNT (R146). -/
def actShunt (s : State) (r : RegRow) (old v : Word) : State :=
  let s1 := s.setReg Reg.SCH_SHUNT (r.store old v)
  if fieldOf v 31 1 = 0 then s1
  else
    let x := s1.fld Reg.SCH_SHUNT 0 11
    let n := s1.fld Reg.SCH_SHUNT 16 6
    let pset := s1.indexPset x
    if 1088 ≤ x ∨ (s1.slot x).st = .free ∨ s1.sharedPset pset ∨ (s1.coresOf pset).contains n = false ∨ s1.bit Reg.SCH_SHUNT_STAT 31 then
      s1.refuseCfg Reg.SCH_STAT 30 Page.sch
    else
      let s2 := s1.shunt x n
      State.setReg { s2 with sch := { s2.sch with shuntTarget := some (x, n) } } Reg.SCH_SHUNT_STAT
        (BitVec.ofNat 32 (2 ^ 31 + s2.epochOf x))

/-- EXP_CYCLES_WRITE (R137). -/
def execExpCyclesWrite (path : Path) (v : Word) (s : State) : Host.Outcome State Fault Refusal :=
  .next (s.hostWrite (.host path) Reg.SCH_EXP_CYCLES v actExpCycles)

/-- EXP_CFG_WRITE (R137). -/
def execExpCfgWrite (path : Path) (v : Word) (s : State) : Host.Outcome State Fault Refusal :=
  .next (s.hostWrite (.host path) Reg.SCH_EXP_CFG v actExpCfg)

/-- HIST_CLEAR (R147). -/
def execHistClear (path : Path) (v : Word) (s : State) : Host.Outcome State Fault Refusal :=
  .next (s.hostWrite (.host path) Reg.SCH_CTRL v actSchCtrl)

/-- SHUNT_REQUEST (R146). -/
def execShuntRequest (path : Path) (v : Word) (s : State) : Host.Outcome State Fault Refusal :=
  .next (s.hostWrite (.host path) Reg.SCH_SHUNT v actShunt)

end Sys2Proof.Machine
end

