-- ==== Sys2Proof/Machine/Boundary.lean ====
section
/-! DEFINITION. The allocation steps: BOUNDARY_STEP with all that a block boundary brings into force, and EXPRESS_STEP (R12, R66, R67, R98,
R107 to R110, R130, R137, R148, R223, R242, R244, R255, R302, R343). -/

namespace Sys2Proof.Machine

/-! ### Core averages and rebalancing (R130, R148) -/

/-- The cycles of a task that runs across a boundary are split at it. -/
def State.splitRunning (s : State) : State :=
  s.sch.tasks.foldl (fun u t => match t.phase with
    | .dispatched n => (u.spend n t ((u.core n).cycle - t.takeAt)).updTask t.order (fun k => { k with takeAt := (u.core n).cycle })
    | _ => u) s

/-- SCH_CORE_BUSYn and SCH_CORE_AVGn, and the counts of the period that begins. -/
def State.averages (s : State) : State :=
  let s0 := s.splitRunning
  let sh := min 8 (s.fld Reg.SCH_CTRL 0 4)
  let s1 := (List.range 34).foldl (fun u n =>
    let last : Nat := min (2 ^ 21 - 1) (Sparse.get (fun _ => 0) u.sch.busy n)
    let avg := u.fld (Reg.SCH_CORE_AVG n) 0 21
    let new : Int := avg + ((last : Int) - avg) / (2 ^ sh : Nat)
    (u.setFld (Reg.SCH_CORE_BUSY n) 0 21 last).setReg (Reg.SCH_CORE_AVG n) (BitVec.ofInt 32 new)) s0
  { s1 with sch := { s1.sch with busy := [], used := [] } }

/-- The busiest core of a list: the highest SCH_CORE_AVG, the lower number on a tie. -/
def State.mostBusy (s : State) (l : List Nat) : Option Nat :=
  l.foldl (fun best n => match best with
    | none => some n
    | some b => if s.fld (Reg.SCH_CORE_AVG b) 0 21 < s.fld (Reg.SCH_CORE_AVG n) 0 21 then some n else best) none

/-- Rebalancing of one program set. -/
def State.rebalanceSet (s : State) (pset : Nat) : State :=
  let l := s.coresOf pset
  match s.mostBusy l, s.leastBusy l with
  | some a, some b =>
    let thr := max 1 (min 100 (s.fld Reg.SCH_CTRL 8 7))
    let gap := s.fld (Reg.SCH_CORE_AVG a) 0 21 - s.fld (Reg.SCH_CORE_AVG b) 0 21
    if s.sharedPset pset ∨ l.length < 2 ∨ gap * 100 * s.fs ≤ thr * s.blk * 1000000000 then s
    else
      let xs := (s.voices.map (fun e => e.1)).filter (fun x => decide (s.placedOf x = a) && decide (s.indexPset x = pset))
      (xs.take 4).foldl (fun u x => u.shunt x b) s
  | _, _ => s

/-- R130. -/
def State.rebalance (s : State) : State :=
  if s.bit Reg.SCH_CTRL 15 then (List.range 16).foldl (fun u p => u.rebalanceSet p) s else s

/-! ### What comes into force at a boundary -/

/-- The Scheduler's settings: Part limits and the enables of bus programs; a bus program that is enabled gets a placed core. -/
def State.applySched (s : State) : State :=
  let parts := (List.range 64).foldl (fun m n => Sparse.put (fun _ => (0x4000 : Word)) m n (s.reg (Reg.SCH_PART_CFG n))) []
  let s1 : State := { s with sch := { s.sch with partApplied := parts } }
  (List.range 64).foldl (fun u k =>
    let on := u.fld (Reg.SCH_BUS_CFG k) 0 1
    let was := Sparse.get (fun _ => 0) u.sch.busEnabled k
    let v : State := { u with sch := { u.sch with busEnabled := Sparse.put (fun _ => 0) u.sch.busEnabled k on } }
    if on = 1 ∧ was = 0 then v.setPlaced (1088 + k) (v.placeNew (v.indexPset (1088 + k))) else v) s1

/-- The Mix Engine's channel counts and send map copy (R242, R244). -/
def State.applyMix (s : State) : State :=
  let parts := (List.range 64).foldl (fun m n => Sparse.put (fun _ => (0 : Word)) m n (s.reg (Reg.MIX_PART_CFG n))) []
  let nch := (List.range 64).foldl (fun m n => Sparse.put (fun _ => (0 : Word)) m (64 + n) (s.reg (Reg.MIX_BUS_CFG n))) parts
  let sel := s.fld Reg.MIX_CTRL 0 1
  let t : State := { s with mix := { s.mix with nchApplied := nch, smapCur := sel } }
  t.setFld Reg.MIX_STAT 0 1 sel

/-- The Concourse region attributes (R302). -/
def State.applyAttrs (s : State) : State :=
  { s with ctl := { s.ctl with
    attrs := (List.range 64).foldl (fun m n => Sparse.put (fun _ => (0 : Word)) m n (s.reg (Reg.CON_ATTR n))) [] } }

/-! ### Host input streams (R343) -/

/-- Host input stream `k` delivers record `m`, whose bytes are `b`. -/
def State.hostInput (s : State) (k m : Nat) (b : List Byte) : State :=
  let cfg := s.reg (Reg.PCI_HSI_CFG k)
  if fieldOf cfg 31 1 = 0 ∨ s.pageOn Page.pci = false then s
  else
    let c := fieldOf cfg 8 8 + 1
    let good := decide (leNat ((b.drop 8).take 4) = bseqOf m)
    let s1 := if good then s else s.bump Reg.PCI_HS_LATE_CNT
    (List.range s.blk).foldl (fun u j => (List.range c).foldl (fun v i =>
      let w : Word := if good then BitVec.ofNat 32 (leNat ((b.drop (64 + 4 * (j * c + i))).take 4)) else 0
      v.portSample 3 (fieldOf cfg 16 8 + i) (m * v.blk + j) false w) u) s1

/-- The eight host input records that the device reads in the period after block `m`. -/
def State.hostInputs (s : State) (m : Nat) (recs : List (List Byte)) : State :=
  (List.range 8).foldl (fun u k => u.hostInput k m ((recs[k]?).getD [])) s

/-! ### The steps -/

/-- One event of the release set: it takes effect, or goes back to the Timetable. `moved`: it was moved to this block. -/
def State.releasedEvent (s : State) (n : Nat) (ex moved : Bool) (r : Released) : State :=
  if s.staysBehind n r.entry then s.putBack r moved
  else (if moved then s else s.reportRelease r.entry r.sample).poolEvent n ex r

/-- Released events, one at a time. -/
def State.poolEvents (s : State) (n : Nat) (ex moved : Bool) (l : List Released) : State :=
  l.foldl (fun u r => u.releasedEvent n ex moved r) s

/-- Tasks of blocks past their deadline that nothing refers to any more. -/
def State.pruneTasks (s : State) (b : Nat) : State :=
  { s with sch := { s.sch with tasks := s.sch.tasks.filter (fun t => t.live || decide (b < t.bseq)) } }

/-- What is counted once at each boundary (R382). -/
def State.boundaryCounts (s : State) (p : Nat) : State :=
  let live := s.liveSlots
  let v := (live.filter (fun e => decide (e.1 < 1024))).length
  (((((s.count 414 s.ing.tt.length).count 421 v).count 422 (live.length - v)).count 499 1).count 508 s.hold).count 509 (s.demand (p + 1))

/-- Items 1 to 4 of a boundary step for block `n` (R67, R107, R110). -/
def State.allocate (s : State) (n : Nat) : State :=
  let s0 := s.applyParts
  let r := s0.ttRelease false n
  let s1 := (((r.1.poolEnds n).drainPool n).trims n).applyHostWrites n
  let moved := s1.pool.nextBlock
  let s2 : State := { s1 with pool := { s1.pool with nextBlock := [] } }
  (s2.poolEvents n false true moved).poolEvents n false false r.2

/-- BOUNDARY_STEP (R67): the step of period t, which prepares block t + 2. `recs` are the host input records of block t − 1, by stream. -/
def execBoundaryStep (recs : List (List Byte)) (s : State) : Host.Outcome State Fault Refusal :=
  let p := s.period
  let n := p + 2
  if s.running = false ∨ s.run = false ∨ s.offset ≠ 0 ∨ p < s.clk.boundaryDone ∨ s.clk.deadlineDone ≤ p then .next s
  else
    let s0 : State := { s with
      clk := { s.clk with boundaryDone := p + 1 }, pool := { s.pool with cancels := [] }, mm := { s.mm with holding := !s.pageOn Page.mm } }
    let s1 := (((((s0.averages.applyHold false).applySched).applySpf).applyAttrs).captureSets).applyMix
    let s2 := (s1.pruneTasks (p + 1)).settle (p + 1)
    let s3 := match s2.ing.stopPeriod with
      | some t => if t + 2 ≤ p then s2.discardEntries (fun _ => true) else s2
      | none => s2
    let s4 := ((s3.allocate n).rebalance).reportPool
    let s5 := if s.clk.startPeriod + 2 ≤ p then s4.captureClose (p - 2) else s4
    let s6 := if s.clk.startPeriod + 1 ≤ p then s5.hostInputs (p - 1) recs else s5
    .next (s6.boundaryCounts p)

/-- EXPRESS_STEP (R67, R108): the Express step of period t. -/
def execExpressStep (s : State) : Host.Outcome State Fault Refusal :=
  let p := s.period
  if s.running = false ∨ s.run = false ∨ s.offset ≠ s.expCut ∨ p < s.clk.expressDone ∨ s.clk.boundaryDone ≤ p then .next s
  else
    let s0 : State := { s with clk := { s.clk with expressDone := p + 1 } }
    let r := (s0.setBit Reg.SCH_STAT 2 false).ttRelease true (p + 2)
    .next ((r.1.poolEvents (p + 2) true false r.2).reportPool)

end Sys2Proof.Machine
end

