-- ==== Sys2Proof/Machine/CoreDecode.lean ====
section
/-! DEFINITION. The bundles that program memory holds: from 64 bits to operations (R196 to R206). A bundle that the bits alone show to be
illegal has no reading. -/

namespace Sys2Proof.Machine

/-- A number as a member of `Fin (n + 1)`, by its low bits. -/
def finOf (n v : Nat) : Fin (n + 1) := Fin.ofNat (n + 1) v

/-- A predicate field (R197): the predicate, or that the slot performs nothing. -/
inductive PredField where
  | pred (p : Pred)
  | off
  | bad
deriving DecidableEq, Repr

/-- Reads PR. -/
def decodePred (v : Nat) : PredField :=
  let f := finOf 7 (bitsOf v 0 3)
  if bitsOf v 4 1 = 1 then .pred (if bitsOf v 3 1 = 1 then .off f else .on f)
  else if bitsOf v 0 3 ≠ 0 then .bad
  else if bitsOf v 3 1 = 1 then .off
  else .pred .always

/-- An M body (R199). -/
def decodeM (v : Nat) : Option MOp :=
  let o := fun (k : MKind) => some { kind := k, n := finOf 3 (bitsOf v 10 2), a := finOf 31 (bitsOf v 5 5), b := finOf 31 (bitsOf v 0 5) }
  match bitsOf v 12 4 with
  | 0x0 => o .nop
  | 0x1 => o .mul
  | 0x2 => o .mac
  | 0x3 => o .msc
  | 0x4 => o .cmul
  | 0x5 => o .cmac
  | 0x6 => o .cmsc
  | 0x7 => o .cmacj
  | 0x8 => o .dot2
  | 0x9 => o .dot2a
  | 0xA => o .dot4
  | 0xB => o .dot4a
  | 0xC => o .cres0
  | 0xD => o .cres
  | _ => none

/-- MOP (R202). -/
def decodeMemKind (v : Nat) : MemKind :=
  match v with
  | 0 => .ld
  | 1 => .st
  | 2 => .ld2
  | 3 => .st2
  | 4 => .lda
  | 5 => .stq
  | 6 => .ldx
  | _ => .stx

/-- AM of a full body. -/
def decodeAm (v : Nat) : Addressing :=
  if v < 8 then .postM (finOf 7 v)
  else match v with
    | 8 => .plain
    | 9 => .postInc
    | 10 => .postDec
    | 11 => .bitRev
    | 12 => .offset 1
    | 13 => .offset 2
    | 14 => .offset 3
    | _ => .offset 4

/-- A full memory body. -/
def decodeMem (v : Nat) : MemOp :=
  { kind := decodeMemKind (bitsOf v 12 3), reg := finOf 31 (bitsOf v 7 5), ptr := finOf 7 (bitsOf v 4 3), am := decodeAm (bitsOf v 0 4) }

/-- A short memory body: no reading where it is illegal, no operation for AM 0b111. -/
def decodeShortMem (v : Nat) : Option (Option MemOp) :=
  let p := finOf 7 (bitsOf v 3 3)
  let o := fun (am : Addressing) =>
    some (some { kind := decodeMemKind (bitsOf v 11 3), reg := finOf 31 (bitsOf v 6 5), ptr := p, am := am })
  match bitsOf v 0 3 with
  | 0 => o .plain
  | 1 => o (.postM p)
  | 2 => o .postInc
  | 3 => o .postDec
  | 4 => o .bitRev
  | 5 => o (.offset 1)
  | 6 => none
  | _ => if bitsOf v 3 11 = 0 then some none else none

/-- A short C body (R204). -/
def decodeShortC (v : Nat) : Option COp :=
  let arg := bitsOf v 0 9
  let s := finOf 31 arg
  match bitsOf v 9 3 with
  | 0 => if arg = 0 then some .nop else none
  | 1 => some (.rep (.imm (BitVec.ofNat 16 arg)))
  | 2 => if arg < 32 then some (.rep (.reg s)) else none
  | 3 => if arg < 16 then some (.clrav (finOf 15 arg)) else none
  | 4 => if arg < 32 then some (.rnd s) else none
  | _ => none

/-- The address file of LDX and MTX. -/
def decodeFile (v : Nat) : AddrFile :=
  match v with
  | 0 => .p
  | 1 => .m
  | 2 => .l
  | _ => .b

/-- A part of an accumulator. -/
def decodePart (v : Nat) : AccPart :=
  match v with
  | 0 => .p0
  | 1 => .p1
  | 2 => .p2
  | _ => .p3

/-- A rotation step of LOOP.R. -/
def decodeStep (v : Nat) : Option RotStep :=
  match v with
  | 0 => some .one
  | 1 => some .two
  | 2 => some .four
  | _ => none

/-- The two-operand ALU operations 0x20 to 0x2A. -/
def decodeAlu (v : Nat) : AluKind :=
  match v with
  | 0x20 => .add
  | 0x21 => .sub
  | 0x22 => .adds
  | 0x23 => .subs
  | 0x24 => .and
  | 0x25 => .or
  | 0x26 => .xor
  | 0x27 => .lsl
  | 0x28 => .lsr
  | 0x29 => .asr
  | _ => .lsls

/-- A condition of CMPcc. -/
def decodeCond (v : Nat) : Option Cond :=
  match v with
  | 0 => some .eq
  | 1 => some .ne
  | 2 => some .lt
  | 3 => some .ge
  | 4 => some .ltu
  | 5 => some .geu
  | _ => none

/-- A general C operation: opcode and operand field (R205, R206). -/
def decodeC (co v : Nat) : Option COp :=
  let g := fun (lo : Nat) => finOf 31 (bitsOf v lo 5)
  let f := fun (lo : Nat) => finOf 7 (bitsOf v lo 3)
  let t := finOf 8191 (bitsOf v 0 13)
  let w := fun (n : Nat) (o : Option COp) => if v < 2 ^ n then o else none
  match co with
  | 0x00 => w 0 (some .nop)
  | 0x01 => w 9 (some (.rep (.imm (BitVec.ofNat 16 v))))
  | 0x02 => w 5 (some (.rep (.reg (g 0))))
  | 0x03 => w 4 (some (.clrav (finOf 15 v)))
  | 0x04 => w 10 (some (.mov (g 5) (g 0)))
  | 0x05 => w 10 (some (.not (g 5) (g 0)))
  | 0x06 => w 10 (some (.negs (g 5) (g 0)))
  | 0x07 => w 10 (some (.abss (g 5) (g 0)))
  | 0x08 => w 10 (some (.mtx (decodeFile (bitsOf v 8 2)) (f 5) (g 0)))
  | 0x09 => w 10 (some (.mfx (g 5) (decodeFile (bitsOf v 3 2)) (f 0)))
  | 0x0A => w 9 (some (.mva (decodePart (bitsOf v 7 2)) (finOf 3 (bitsOf v 5 2)) (g 0)))
  | 0x0B => w 9 (some (.mfa (decodePart (bitsOf v 7 2)) (finOf 3 (bitsOf v 5 2)) (g 0)))
  | 0x0C => w 8 (some (.mvr (bitsOf v 7 1 = 1) (finOf 3 (bitsOf v 5 2)) (g 0)))
  | 0x0D => w 4 (some (.pset (bitsOf v 3 1 = 1) (f 0)))
  | 0x0E => w 9 (some (.pand (f 6) (f 3) (f 0)))
  | 0x0F => w 9 (some (.por (f 6) (f 3) (f 0)))
  | 0x10 => w 9 (some (.pxor (f 6) (f 3) (f 0)))
  | 0x11 => w 6 (some (.pnot (f 3) (f 0)))
  | 0x12 => w 5 (some (.mff (g 0)))
  | 0x13 => w 5 (some (.mtf (g 0)))
  | 0x14 => w 5 (some (.take (g 0)))
  | 0x15 => w 2 (some (.yield_ (finOf 3 v)))
  | 0x16 => w 0 (some .eret)
  | 0x17 => w 5 (some (.br (g 0)))
  | 0x18 => w 5 (some (.rnd (g 0)))
  | 0x19 => w 5 (some (.rseed (g 0)))
  | 0x1A => w 10 (some (.paset (bitsOf v 9 1 = 1) (finOf 15 (bitsOf v 5 4)) (g 0)))
  | 0x1B => w 10 (some (.paget (bitsOf v 9 1 = 1) (finOf 15 (bitsOf v 5 4)) (g 0)))
  | 0x2B => w 16 ((decodeCond (bitsOf v 13 3)).map (fun cc => .cmp cc (f 10) (g 5) (g 0)))
  | 0x2C => w 26 (some (.addi (g 21) (g 16) (BitVec.ofNat 16 v)))
  | 0x2D => w 26 (some (.movi (g 21) (BitVec.ofNat 21 v)))
  | 0x2E => w 11 (some (.mfc (g 0) (finOf 63 (bitsOf v 5 6))))
  | 0x2F => w 11 (some (.mtc (finOf 63 (bitsOf v 5 6)) (g 0)))
  | 0x30 => w 13 (some (.b t))
  | 0x31 => w 18 (some (.bl (g 13) t))
  | 0x32 => w 29 (some (.loop (.imm (BitVec.ofNat 16 (bitsOf v 13 16))) t))
  | 0x33 => w 18 (some (.loop (.reg (g 13)) t))
  | 0x34 => w 13 (some (.venter t))
  | 0x35 =>
    w 13 (if bitsOf v 12 1 = 1 then some (.pacc (some (f 9)) (finOf 15 (bitsOf v 5 4)) (g 0))
      else some (.pacc none (finOf 15 (bitsOf v 5 4)) (g 0)))
  | 0x36 => w 12 (some (.pramp (finOf 127 (bitsOf v 5 7)) (g 0)))
  | 0x37 => w 14 (some (.tfetch (bitsOf v 13 1 = 1) (finOf 63 (bitsOf v 7 6)) (finOf 3 (bitsOf v 5 2)) (g 0)))
  | 0x38 => w 16 (some (.tread (finOf 63 (bitsOf v 10 6)) (g 5) (g 0)))
  | 0x39 => w 13 (some (.blep (f 10) (g 5) (g 0)))
  | 0x3D => w 37 (some (.movl (g 32) (BitVec.ofNat 32 v)))
  | 0x3E =>
    w 33 ((decodeStep (bitsOf v 31 2)).map (fun st => .loopR (.imm (BitVec.ofNat 16 (bitsOf v 13 16))) t st (finOf 3 (bitsOf v 29 2))))
  | 0x3F => w 22 ((decodeStep (bitsOf v 20 2)).map (fun st => .loopR (.reg (g 13)) t st (finOf 3 (bitsOf v 18 2))))
  | _ =>
    if 0x20 ≤ co ∧ co ≤ 0x2A then
      w 16 (some (.alu (decodeAlu co) (g 10) (g 5) (if bitsOf v 15 1 = 1 then .imm (g 0) else .reg (g 0))))
    else none

/-- A slot in a predicated container: its predicate and its operation; a slot that performs nothing must be all zero. -/
def container {α : Type} (pr body : Nat) (nothing : α) (read : Nat → Option α) : Option (Pred × α) :=
  match decodePred pr with
  | .pred p => (read body).map (fun o => (p, o))
  | .off => if body = 0 then some (.always, nothing) else none
  | .bad => none

/-- The bundle that 64 bits spell, or none where the bits alone make it illegal (R196, R198). -/
def decodeBundle (bits : BitVec 64) : Option Bundle :=
  let v := bits.toNat
  let m := fun (lo : Nat) => container (bitsOf v (lo + 16) 5) (bitsOf v lo 16) MOp.nop decodeM
  let x := fun (lo : Nat) => container (bitsOf v (lo + 15) 5) (bitsOf v lo 15) Option.none (fun b => some (some (decodeMem b)))
  let c := fun (lo n : Nat) =>
    container (bitsOf v (lo + n + 6) 5) (bitsOf v lo (n + 6)) COp.nop (fun b => decodeC (b / 2 ^ n) (b % 2 ^ n))
  match bitsOf v 61 3 with
  | 0 => do
    let cc ← c 0 50
    some { Bundle.nop with cp := cc.1, c := cc.2 }
  | 1 => do
    let mm ← m 40
    let xx ← x 20
    let yy ← x 0
    some { Bundle.nop with mp := mm.1, m := mm.2, xp := xx.1, x := xx.2, yp := yy.1, y := yy.2 }
  | 2 => do
    let mm ← m 40
    let cc ← c 0 29
    some { Bundle.nop with mp := mm.1, m := mm.2, cp := cc.1, c := cc.2 }
  | 3 => do
    let xx ← x 41
    let yy ← x 21
    let cc ← c 0 10
    some { Bundle.nop with xp := xx.1, x := xx.2, yp := yy.1, y := yy.2, cp := cc.1, c := cc.2 }
  | 4 =>
    match decodePred (bitsOf v 56 5) with
    | .bad => none
    | .off => if bitsOf v 0 56 = 0 then some Bundle.nop else none
    | .pred p => do
      let mm ← decodeM (bitsOf v 40 16)
      let xx ← decodeShortMem (bitsOf v 26 14)
      let yy ← decodeShortMem (bitsOf v 12 14)
      let cc ← decodeShortC (bitsOf v 0 12)
      some { mp := p, m := mm, xp := p, x := xx, yp := p, y := yy, cp := p, c := cc }
  | _ => none

end Sys2Proof.Machine
end

