-- ==== Sys2Proof/Machine/CoreControl.lean ====
section
/-! DEFINITION. The commands that act on a voice core from outside its bundles: core events, doorbell, halt, step, program load, core
faults, recall and the entry of a spare (R142, R153, R164 to R170, R198, R360, R365 to R368). -/

namespace Sys2Proof.Machine

/-- CORE_EVENT_TAKE (R165). -/
def execCoreEventTake (n : Fin 34) (s : State) : Host.Outcome State Fault Refusal :=
  let c := s.core n
  if c.svc ≠ 2 ∨ c.halted ∨ c.held ∨ c.takesEvent = false then .next s
  else match c.topEvent with
    | some code => .next (s.takeEvent n code)
    | none => .next s

/-- A bundle that no encoding gives executes as an illegal one (R198). -/
def State.issueIllegal (s : State) (n : Nat) : State :=
  if s.ready n = false then s
  else
    let s0 := (s.coreMemCheck n 0 .clean).1
    let c := s0.core n
    if c.voice ∧ c.pc < (c.cr 6).toNat then (s0.viol n 2 false c.pc).blank n else (s0.ill n).blank n

/-- ILLEGAL_BUNDLE (R198): core `n` issues the bundle `bits`, which has a reserved format, opcode or field, or breaks R188, R190 or R192. -/
def execIllegalBundle (n : Fin 34) (bits : BitVec 64) (s : State) : Host.Outcome State Fault Refusal :=
  match decodeBundle bits with
  | none => .next (s.issueIllegal n)
  | some b => if (s.core n).legal (s.core n).pc b then .next s else .next (s.issue n b Access.quiet Access.quiet)

/-! ### VC page registers (R164, R167, R170) -/

/-- VC_DBELL. -/
def actDoorbell (n : Nat) (s : State) (r : RegRow) (old v : Word) : State := (s.setReg (Reg.VC_DBELL n) (r.store old v)).coreEvent n 9

/-- The bundle at a core's bundle address is executed. -/
def State.stepBundle (s : State) (n : Nat) (ax ay : Access) : State :=
  match decodeBundle (Sparse.get (fun _ => (0 : BitVec 64)) (s.core n).prog (s.core n).pc) with
  | some b => s.issue n b ax ay
  | none => s.issueIllegal n

/-- VC_CTRL: HALT raises a DEBUG event, or resumes the core; STEP executes one bundle of a halted core. -/
def actVcCtrl (n : Nat) (ax ay : Access) (s : State) (r : RegRow) (old v : Word) : State :=
  let s1 := s.setReg (Reg.VC_CTRL n) (r.store old v)
  let halted := (s.core n).halted
  let s2 := if fieldOf v 1 1 = 1 ∧ halted then
      let t := s1.updCore n (fun c => { c with halted := false })
      let u := match (t.core n).topEvent with
        | some code => if (t.core n).takesEvent then t.takeEvent n code else t
        | none => t
      (State.stepBundle (u.updCore n (fun c => { c with halted := false })) n ax ay).updCore n (fun c => { c with halted := decide (c.svc = 2) })
    else s1
  if fieldOf v 0 1 = 1 then (if halted then s2 else s2.coreEvent n 8)
  else if fieldOf old 0 1 = 1 ∧ fieldOf v 1 1 = 0 then s2.updCore n (fun c => { c with halted := false })
  else s2

/-- VC_PM_DATA_HI (R170). -/
def actProgramLoad (n : Nat) (s : State) (r : RegRow) (old v : Word) : State :=
  if (s.core n).svc = 2 ∧ s.bit (Reg.VC_CTRL n) 2 = false then (s.bump (Reg.VC_PM_REJ_CNT n)).pageErr (Page.vc0 + n)
  else
    let a := s.fld (Reg.VC_PM_ADDR n) 0 13
    let new := r.store old v
    let w := BitVec.ofNat 64 ((s.reg (Reg.VC_PM_DATA_LO n)).toNat + new.toNat * 2 ^ 32)
    ((s.setReg (Reg.VC_PM_DATA_HI n) new).updCore n (fun c => { c with prog := Sparse.put (fun _ => 0) c.prog a w })).setReg
      (Reg.VC_PM_ADDR n) (BitVec.ofNat 32 ((a + 1) % 8192))

/-- DOORBELL_WRITE (R164, R167). -/
def execDoorbellWrite (path : Path) (n : Fin 34) (v : Word) (s : State) : Host.Outcome State Fault Refusal :=
  .next (s.hostWrite (.host path) (Reg.VC_DBELL n) v (actDoorbell n))

/-- HALT_REQUEST (R164): a write of VC_CTRL. -/
def execHaltRequest (path : Path) (n : Fin 34) (v : Word) (s : State) : Host.Outcome State Fault Refusal :=
  .next (s.hostWrite (.host path) (Reg.VC_CTRL n) v (actVcCtrl n Access.quiet Access.quiet))

/-- SINGLE_STEP (R164): a write of VC_CTRL; the first accesses of the stepped bundle meet `ax` and `ay`. -/
def execSingleStep (path : Path) (n : Fin 34) (v : Word) (ax ay : Access) (s : State) : Host.Outcome State Fault Refusal :=
  .next (s.hostWrite (.host path) (Reg.VC_CTRL n) v (actVcCtrl n ax ay))

/-- PROGRAM_LOAD (R170). -/
def execProgramLoad (path : Path) (n : Fin 34) (v : Word) (s : State) : Host.Outcome State Fault Refusal :=
  .next (s.hostWrite (.host path) (Reg.VC_PM_DATA_HI n) v (actProgramLoad n))

/-! ### Core faults (R142, R168, R360) -/

/-- CORE_LOGIC_CHECK_FAIL (R360): a parity check on a register or latch of core `n` fails. -/
def execCoreLogicCheckFail (n : Fin 34) (s : State) : Host.Outcome State Fault Refusal :=
  if (s.core n).svc ≠ 2 then .next s
  else
    let d := s.detect (Page.vc0 + n) 2 0 n true
    .next ((d.st.pageErr (Page.vc0 + n)).coreFault n)

/-- Cycles of a core that issues no bundle. -/
def State.idleCycles (s : State) (n k : Nat) : State :=
  if (s.core n).halted ∨ (s.core n).taking.isSome then s.holdTicks n 2 k else s

/-- CORE_UE_TIMEOUT (R360): 1,024 cycles after an error of its memories, of which a core that issues nothing may spend the last `idle`
here. -/
def execCoreUeTimeout (n : Fin 34) (idle : Nat) (s : State) : Host.Outcome State Fault Refusal :=
  let s1 := s.idleCycles n idle
  match (s1.core n).memUe with
  | some k => if 1024 ≤ k then .next (s1.coreFault n) else .next s1
  | none => .next s

/-- ABORT_TIMEOUT (R142, R168): a task that was aborted or recalled has not YIELDed in 1,024 cycles. -/
def execAbortTimeout (n : Fin 34) (s : State) : Host.Outcome State Fault Refusal :=
  let c := s.core n
  if c.svc ≠ 2 ∨ c.task.isNone ∨ (c.aborted.isNone ∧ c.recalled.isNone) then .next s
  else
    let d := s.detect (Page.vc0 + n) 3 0 n (decide (1024 ≤ max (c.aborted.getD 0) (c.recalled.getD 0)))
    if d.hit then .next ((d.st.pageErr (Page.vc0 + n)).coreFault n) else .next s

/-- CORE_RECALL (R168, R373): at a block boundary, RECALL is raised on a core that is to leave service. A core with no dispatched task
leaves at once (log entry 21). -/
def execCoreRecall (n : Fin 34) (s : State) : Host.Outcome State Fault Refusal :=
  let c := s.core n
  if c.retire = false ∨ c.svc ≠ 2 ∨ c.recalled.isSome ∨ (s.running ∧ s.offset ≠ 0) then .next s
  else
    let mine := s.bit Reg.SVC_STAT 31 && decide (s.fld Reg.SVC_STAT 16 8 = 1) && decide (bitsOf s.svc.arg 0 6 = n.val)
    let s0 : State := if mine then { s with svc := { s.svc with committed := true } } else s
    let s1 := (s0.updCore n (fun d => { d with recalled := some 0 })).coreEvent n 6
    if c.task.isSome then .next s1 else .next (s1.coreLeaves n false)

/-! ### The Roundhouse (R365 to R367) -/

/-- SPARE_ENTER_SERVICE (R366): the program copy of spare `n` ends; its read of the source core's program memory meets `upset`. -/
def execSpareEnterService (n : Fin 34) (upset : Upset) (s : State) : Host.Outcome State Fault Refusal :=
  match (s.core n).copyFrom with
  | none => .next s
  | some m =>
    let src := (((s.coresOf (s.psetOf n)).filter (fun k => decide (k ≠ n.val)))[0]?).getD m
    let k := s.coreMemCheck src 0 upset
    if k.2 then
      let s1 := (k.1.updCore n (fun c => { c with copyFrom := none })).pageErr Page.svc
      .next ((s1.placeElsewhere n).showSpares 0)
    else
      let s1 := (k.1.updCore n (fun c => { c with prog := (k.1.core src).prog })).setReg (Reg.VC_RESET_VEC n) (k.1.reg (Reg.VC_RESET_VEC m))
      let s2 := (s1.enterService n).applyHold false
      .next { s2 with sch := { s2.sch with vacant := s2.sch.vacant.filter (fun v => decide (v ≠ m)) } }

end Sys2Proof.Machine
end

