-- ==== Sys2Proof/Machine/Memory.lean ====
section
/-! DEFINITION. The commands of the Concourse's tester, rebuild engine and attributes, and of Sample Memory's scrub and page
retirement (R295, R301, R302, R305 to R312, R317 to R320). -/

namespace Sys2Proof.Machine

/-! ### The Concourse -/

/-- CONCOURSE_WRITEBACK (R295): the corrected word `w` is written back, unless a write has come first. -/
def execConcourseWriteback (w : BitVec 21) (s : State) : Host.Outcome State Fault Refusal :=
  if s.ctl.writeBack.contains w.toNat then
    .next { (s.count 452 1) with ctl := { s.ctl with writeBack := s.ctl.writeBack.filter (fun k => decide (k ≠ w.toNat)) } }
  else .next s

/-- A refused write of the CON page. -/
def State.conRefuse (s : State) : State := (s.setBit Reg.CON_STAT 31 true).pageErrFlag Page.con 0

/-- CON_STAT.MODE follows CON_CTRL.TEST once start-up is over (R301). -/
def State.showMode (s : State) : State :=
  if s.bootState ≠ 6 then s else s.setFld Reg.CON_STAT 0 2 (if s.bit Reg.CON_CTRL 0 then 2 else 0)

/-- CON_CTRL: TEST may be set only while media time is stopped and no core is in service. -/
def actConCtrl (s : State) (r : RegRow) (old v : Word) : State :=
  if fieldOf v 0 1 = 1 ∧ fieldOf old 0 1 = 0 ∧ (s.run ∨ s.inService.isEmpty = false) then s.conRefuse
  else (s.setReg Reg.CON_CTRL (r.store old v)).showMode

/-- TEST_MODE_WRITE (R301): a write of CON_CTRL. -/
def execTestModeWrite (path : Path) (v : Word) (s : State) : Host.Outcome State Fault Refusal :=
  .next (s.hostWrite (.host path) Reg.CON_CTRL v actConCtrl)

/-- CON_ATTRi (R302): refused whole when a granule's mode is 0b11. -/
def actConAttr (i : Nat) (s : State) (r : RegRow) (old v : Word) : State :=
  if (List.range 8).any (fun e => decide (fieldOf v (4 * e) 2 = 3)) then s.conRefuse
  else s.setReg (Reg.CON_ATTR i) (r.store old v)

/-- ATTRIBUTE_WRITE (R302). -/
def execAttributeWrite (path : Path) (i : Fin 64) (v : Word) (s : State) : Host.Outcome State Fault Refusal :=
  .next (s.hostWrite (.host path) (Reg.CON_ATTR i) v (actConAttr i))

/-- The attributes in force of the granule of an address: mode 0 plain, 1 rotate, 2 atomic, and NOBORROW. -/
def State.granule (s : State) (a : Nat) : Nat :=
  fieldOf (Sparse.get (fun _ => 0) s.ctl.attrs (a / 0x80000)) (4 * (a / 0x10000 % 8)) 3

/-- Whether a row of region `q` lies in a granule marked NOBORROW (R306). -/
def State.noBorrow (s : State) (q : Nat) : Bool :=
  (List.range 4).any (fun i => decide (4 ≤ s.granule ((4 * q + i) * 0x10000)))

/-! ### Background test (R305 to R308) -/

/-- The test position: 128 × bank + region. -/
def State.btPos (s : State) : Nat := 128 * s.fld Reg.CON_BT_POS 8 7 + s.fld Reg.CON_BT_POS 0 7

/-- Sets the test position and its step. -/
def State.setBtPos (s : State) (pos step : Nat) : State :=
  s.setReg Reg.CON_BT_POS (BitVec.ofNat 32 (2 ^ 16 * step + 2 ^ 8 * (pos / 128 % 74) + pos % 128))

/-- BACKGROUND_TEST_START (R305, R306): at the start of every (BT_DIV + 1)-th block period the next region is saved and its March
starts. -/
def execBackgroundTestStart (s : State) : Host.Outcome State Fault Refusal :=
  let p := s.period
  if s.bit Reg.CON_CTRL 8 = false ∨ s.conMode ≠ 0 ∨ s.pageOn Page.con = false ∨ s.ctl.btBorrow.isSome ∨ s.running = false ∨ s.offset ≠ 0 ∨
      p < s.ctl.btWait ∨ s.powerState ≠ 0 then .next s
  else
    let pos := s.btPos
    let s1 : State := { s with ctl := { s.ctl with btWait := p + s.fld Reg.CON_CTRL 16 8 + 1, btStart := p } }
    match (List.range 128).find? (fun k => !s.noBorrow ((pos + k) % 128)) with
    | none => .next s1
    | some k =>
      let pos' := (pos + k) % 9472
      let s2 := s1.setBtPos pos' 2
      .next { s2 with ctl := { s2.ctl with btBorrow := some (pos' / 128, pos' % 128) } }

/-- A cell of a bank fails its March (R308, R375): region, word and bit. -/
def State.marchFailure (s : State) (bank q word bit : Nat) (inj : Bool) : State :=
  let t := (((s.logError 0x1303 bank (128 * bank + q) inj).setReg Reg.CON_BT_FAIL
    (BitVec.ofNat 32 (2 ^ 31 + 2 ^ 24 * bank + 2 ^ 17 * q + 2 ^ 9 * word + bit))).bump Reg.CON_BT_FAIL_CNT).raise Page.con 4
  if s.bankState bank = 0 then t.queueRebuild bank else t

/-- A March over one region ends, failing at a cell or not; an armed injection of 0x1303 fails a cell that the spec does not name. -/
def State.marchOver (s : State) (bank q : Nat) (fail : Option (Nat × Nat)) : State × Bool :=
  let k := s.check Page.con 3 bank fail.isSome
  if k.hit then
    match fail with
    | some (w, b) => (k.st.marchFailure bank q w b k.inj, true)
    | none =>
      let dw := k.st.draw 8
      let db := dw.2.draw 8
      (db.2.marchFailure bank q dw.1 (db.1 % 137) k.inj, true)
  else (k.st, false)

/-- MARCH_DONE (R305, R308): the March of the region ends, with a failing cell or none, and the region is restored. -/
def execMarchDone (fail : Option (Fin 256 × Fin 137)) (s : State) : Host.Outcome State Fault Refusal :=
  match s.ctl.btBorrow with
  | none => .next s
  | some (b, q) =>
    let s1 := (s.marchOver b q (fail.map (fun x => (x.1.val, x.2.val)))).1
    let s2 := ((s1.bump Reg.CON_BT_REGION_CNT).count 456 1).setBtPos ((128 * b + q + 1) % 9472) 0
    .next { s2 with ctl := { s2.ctl with btBorrow := none } }

/-- BACKGROUND_TEST_TIMEOUT (R306): a March has not finished within one block period. -/
def execBackgroundTestTimeout (s : State) : Host.Outcome State Fault Refusal :=
  if s.ctl.btBorrow.isNone ∨ (s.running ∧ s.period ≤ s.ctl.btStart) then .next s
  else
    let s1 := (s.setFld Reg.CON_BT_POS 16 2 0).bump Reg.CON_BT_ABORT_CNT
    .next { s1 with ctl := { s1.ctl with btBorrow := none } }

/-- A borrowed region is restored without being counted (R321). -/
def State.stopTest (s : State) : State :=
  let s1 := s.setFld Reg.CON_BT_POS 16 2 0
  { s1 with ctl := { s1.ctl with btBorrow := none } }

/-! ### Rebuild and return of a bank (R309 to R312) -/

/-- Sets state, group and position of a bank; CON_STAT.SPARES follows. -/
def State.setBank (s : State) (b st g j : Nat) : State :=
  let t := ((s.setFld (Reg.CON_BANK b) 29 3 st).setFld (Reg.CON_BANK b) 24 4 g).setFld (Reg.CON_BANK b) 16 4 j
  t.setFld Reg.CON_STAT 4 2 (min 3 ((List.range 74).filter (fun k => decide (t.bankState k = 1))).length)

/-- The lowest-numbered spare bank. -/
def State.lowestSpare (s : State) : Option Nat := (List.range 74).find? (fun b => decide (s.bankState b = 1))

/-- A rebuild of `bank` onto spare `target` starts. -/
def State.startRebuild (s : State) (bank target : Nat) : State :=
  let g := s.fld (Reg.CON_BANK bank) 24 4
  let j := s.fld (Reg.CON_BANK bank) 16 4
  let s1 := (s.setBank target 2 0xF 0).setFld Reg.CON_STAT 8 4 g
  let s2 := s1.setReg Reg.CON_RB_STAT (BitVec.ofNat 32 (2 ^ 31 + 2 ^ 24 * target + 2 ^ 20 * g + 2 ^ 16 * j))
  { s2 with ctl := { s2.ctl with rbBank := bank, rbPoison := [], rbParity := [] } }

/-- The rebuild ends without its commit (R311). -/
def State.abortRebuild (s : State) : State :=
  let target := s.fld Reg.CON_RB_STAT 24 7
  let s1 := ((s.setBank target 1 0xF 0).setFld Reg.CON_STAT 8 4 0xF).setBit Reg.CON_RB_STAT 31 false
  { s1 with ctl := { s1.ctl with rbPoison := [], rbParity := [] } }

/-- The Concourse address of the data word at position `j` of a row, none for the parity word (R291). -/
def dataAddr (g row j : Nat) : Option Nat :=
  let p := row % 9
  if j = p then none else some (1024 * row + 128 * g + 16 * ((j + 9 - 1 - p) % 9))

/-- REBUILD_COMMIT (R311): the map switches to the spare. -/
def State.commitRebuild (s : State) : State :=
  let old := s.ctl.rbBank
  let target := s.fld Reg.CON_RB_STAT 24 7
  let g := s.fld Reg.CON_RB_STAT 20 4
  let j := s.fld Reg.CON_RB_STAT 16 4
  let inBank := fun (w : Nat) => decide (conGroup (16 * w) = g) && decide (conPos (16 * w) = j)
  let parityIn := fun (k : Nat) => decide (k / 32768 = g) && decide (k % 32768 % 9 = j)
  let s1 : State := { s with ctl := { s.ctl with
    bad := s.ctl.bad.filter (fun w => !inBank w) ++ s.ctl.rbPoison
    badParity := s.ctl.badParity.filter (fun k => !parityIn k) ++ s.ctl.rbParity
    writeBack := s.ctl.writeBack.filter (fun w => !inBank w)
    rbPoison := [], rbParity := [] } }
  let s2 := ((s1.setBank old 3 0xF 0).setBank target 0 g j).setFld Reg.CON_STAT 8 4 0xF
  let s3 := (s2.setBit Reg.CON_RB_STAT 31 false).raise Page.con 3
  { s3 with svc := { s3.svc with committed := true, finished := true } }

/-- What the check bits of the other words of a row show to the rebuild engine: a word that SECDED cannot give back has no parity to
be rebuilt from, since the replaced bank is not read. -/
def State.rebuildReads (s : State) (g row j : Nat) (upsets : List (Fin 9 × Upset)) : State × Bool :=
  (List.range 9).foldl (fun acc i =>
    if i = j then acc
    else
      let u := ((upsets.find? (fun e => decide (e.1.val = i))).map (fun e => e.2)).getD .clean
      let t := acc.1.count 452 1
      match dataAddr g row i with
      | some a =>
        if t.ctl.bad.contains (a / 16) ∨ u = .lost ∨ u = .rebuilt then (t.conUe 46 a false, true)
        else if u = .single then ((t.conCheck 46 a .single).1, acc.2)
        else (t, acc.2)
      | none =>
        if t.ctl.badParity.contains (32768 * g + row) ∨ u = .lost ∨ u = .rebuilt then
          (t.conUe 46 (1024 * row + 128 * g) false, true)
        else (t, acc.2)) (s, false)

/-- REBUILD_ROW (R309 to R311): the engine copies the current row, or copies it again (`redo`) after a BUSY or a write of another master;
`upsets` are what the row's other words show. -/
def execRebuildRow (redo : Bool) (upsets : List (Fin 9 × Upset)) (s : State) : Host.Outcome State Fault Refusal :=
  if s.bit Reg.CON_RB_STAT 31 = false then .next s
  else if redo then .next (s.bump Reg.CON_RB_REDO_CNT)
  else
    let row := s.fld Reg.CON_RB_STAT 0 15
    let g := s.fld Reg.CON_RB_STAT 20 4
    let j := s.fld Reg.CON_RB_STAT 16 4
    let r := s.rebuildReads g row j upsets
    let s1 := r.1.count 452 1
    let s2 : State := if r.2 then
        (match dataAddr g row j with
         | some a => { s1 with ctl := { s1.ctl with rbPoison := a / 16 :: s1.ctl.rbPoison } }
         | none => { s1 with ctl := { s1.ctl with rbParity := (32768 * g + row) :: s1.ctl.rbParity } })
      else s1
    let s3 := s2.setFld Reg.SVC_PROG 0 7 ((row + 1) * 100 / 32768)
    .next (if row = 32767 then s3.commitRebuild else s3.setFld Reg.CON_RB_STAT 0 15 (row + 1))

/-- BANK_RETURN_DONE (R312): the March over the returned bank ends, with a failing cell of a region or none. -/
def execBankReturnDone (fail : Option (Fin 128 × Fin 256 × Fin 137)) (s : State) : Host.Outcome State Fault Refusal :=
  match (List.range 74).find? (fun b => decide (s.bankState b = 4)) with
  | none => .next s
  | some b =>
    let q := match fail with
      | some x => x.1.val
      | none => 0
    let r := s.marchOver b q (fail.map (fun x => (x.2.1.val, x.2.2.val)))
    let s1 := r.1.setBank b (if r.2 then 3 else 1) 0xF 0
    .next { s1 with svc := { s1.svc with committed := true, finished := true, fail := r.2 } }

/-! ### Sample Memory (R315, R318 to R320) -/

/-- Lines of the data range. -/
abbrev dramLines : Nat := 0x3800000

/-- A patrol pass ends (R315, R318, R319): the on-die counts are added, and tracking entries without a corrected line in it are
cleared. -/
def State.scrubPassEnd (s : State) (odecc0 odecc1 : Nat) : State :=
  let full := s.bit Reg.DRC_SCRUB_STAT 31
  let s1 := ((((s.bump Reg.DRC_SCRUB_PASS_CNT).bumpBy Reg.DRC_ODECC0_CNT odecc0).bumpBy Reg.DRC_ODECC1_CNT odecc1).setReg
    Reg.DRC_SCRUB_STAT (BitVec.ofNat 32 (if full then s.dram.patrol else 0))).raise Page.drc 2
  let s2 : State := { s1 with dram := { s1.dram with
    track := s1.dram.track.filter (fun e => decide (s1.dram.pass ≤ e.2.2)), pass := s1.dram.pass + 1
    hours := s1.fld Reg.DRC_SCRUB_CFG 0 8 } }
  if full then { s2 with svc := { s2.svc with committed := true, finished := true } } else s2

/-- SCRUB_LINE (R318): the patrol, or a full pass, reads the next line, with `errs` byte errors; the on-die counts matter at the end of
a pass. -/
def execScrubLine (errs odecc0 odecc1 : Nat) (s : State) : Host.Outcome State Fault Refusal :=
  let full := s.bit Reg.DRC_SCRUB_STAT 31
  let patrol := s.bit Reg.DRC_CFG 8 && s.pageOn Page.drc
  if (full = false ∧ patrol = false) ∨ s.powerState ≠ 0 then .next s
  else
    let line := s.fld Reg.DRC_SCRUB_STAT 0 26
    let r := s.readLine line errs true false
    let s1 := match r.2 with
      | .good d => if d = s.lineBytes line ∧ errs = 0 then r.1 else (r.1.count 463 1).putDram (64 * line) d
      | .lost => r.1
    let s2 := if full then s1.setFld Reg.SVC_PROG 0 7 ((line + 1) * 100 / dramLines) else s1
    .next (if line + 1 = dramLines then s2.scrubPassEnd odecc0 odecc1 else s2.setFld Reg.DRC_SCRUB_STAT 0 26 (line + 1))

/-- The units of a page's retirement that fail their test pattern are marked bad, and the next ones taken (R319). -/
def State.failUnits (s : State) (page : Nat) : Nat → State
  | 0 => s
  | n + 1 =>
    match s.dram.retiring.find? (fun e => decide (e.1 = page)) with
    | none => s
    | some (_, u) =>
      let t : State := { s with dram := { s.dram with
        retiring := s.dram.retiring.filter (fun e => decide (e.1 ≠ page)), badUnits := s.dram.badUnits ++ [u] } }
      State.failUnits ((t.bump Reg.DRC_BAD_UNIT_CNT).retirePage page) page n

/-- The 64 lines of a page are copied, each corrected; an uncorrectable one becomes zeros with valid check bytes (R319). -/
def State.copyPage (s : State) (page : Nat) (errs : List Nat) : State :=
  (List.range 64).foldl (fun t i =>
    let line := 64 * page + i
    let r := t.readLine line ((errs[i]?).getD 0) false false
    let data := match r.2 with
      | .good d => d
      | .lost => List.replicate 64 (0 : Byte)
    let u := r.1.putDram (64 * line) data
    { u with dram := { u.dram with bad := u.dram.bad.filter (fun l => decide (l ≠ line)) } }) s

/-- PAGE_RETIRE_DONE (R319, R320): the retirement of a page ends, `failed` units having failed their test; `errs` are the byte errors of
its lines. The unit that the page leaves is not used again. -/
def execPageRetireDone (page : BitVec 20) (failed : Nat) (errs : List Nat) (s : State) : Host.Outcome State Fault Refusal :=
  let p := page.toNat
  if s.dram.retiring.any (fun e => decide (e.1 = p)) = false then .next s
  else
    let s1 := (s.failUnits p failed).showUnits
    let mine := s.bit Reg.SVC_STAT 31 && decide (s.fld Reg.SVC_STAT 16 8 = 5) && decide (s.svc.arg = p)
    match s1.dram.retiring.find? (fun e => decide (e.1 = p)) with
    | none => .next (if mine then { s1 with svc := { s1.svc with finished := true, fail := true } } else s1)
    | some (_, u) =>
      let s2 := s1.copyPage p errs
      let was := Sparse.get (fun _ => 0) s2.dram.replaced p
      let s3 : State := { s2 with dram := { s2.dram with
        retiring := s2.dram.retiring.filter (fun e => decide (e.1 ≠ p))
        replaced := Sparse.put (fun _ => 0) s2.dram.replaced p (u + 1)
        badUnits := if was = 0 then s2.dram.badUnits else s2.dram.badUnits ++ [was - 1] } }
      let s4 := ((s3.bump Reg.DRC_RETIRED_CNT).count 468 1).showUnits
      .next (if mine then { s4 with svc := { s4.svc with committed := true, finished := true } } else s4)

end Sys2Proof.Machine
end

