-- ==== Sys2Proof/Machine/ServicePort.lean ====
section
/-! DEFINITION. The Service Port: the start, the abort and the end of an operation, and the commands that start one
(R168, R309, R312, R318, R319, R372 to R375, R411, R413). -/

namespace Sys2Proof.Machine

/-- SVC_STAT.BUSY. -/
def State.svcBusy (s : State) : Bool := s.bit Reg.SVC_STAT 31

/-- SVC_STAT.OP. -/
def State.svcOp (s : State) : Nat := s.fld Reg.SVC_STAT 16 8

/-- The running operation ends with its flags: DONE is set and SVC_DONE is raised (R372); a page that waited for it is idle (R355). -/
def State.svcFinish (s : State) (aborted fail bad : Bool) : State :=
  let keep := 2 ^ 16 * s.svcOp + (if s.bit Reg.SVC_STAT 5 then 2 ^ 5 else 0) + (if s.bit Reg.SVC_STAT 4 then 2 ^ 4 else 0)
  let s1 := s.setReg Reg.SVC_STAT (BitVec.ofNat 32
    (2 ^ 30 + keep + (if aborted then 8 else 0) + (if fail then 4 else 0) + (if bad then 2 else 0)))
  let s2 := (if aborted ∨ bad then s1 else s1.setFld Reg.SVC_PROG 0 7 100).raise Page.svc 0
  let s3 : State := { s2 with svc := Service.reset }
  if s3.bit (Reg.PAGE_STAT Page.svc) 1 then s3.idle Page.svc else s3

/-- A write that a running operation refuses (R372). -/
def State.svcRefuse (s : State) : State := (s.bump Reg.SVC_REFUSE_CNT).raise Page.svc 1

/-- Whether a core is out of service in a way that CORE_RESTORE accepts. -/
def State.mayRestore (s : State) (n : Nat) : Bool := decide (n < 34) && decide ((s.core n).svc = 0)

/-- The bank onto which a rebuild goes: SVC_ARG [14:8], or the lowest spare for 0x7F. -/
def State.rebuildTarget (s : State) (arg : Nat) : Option Nat :=
  let t := bitsOf arg 8 7
  if t = 0x7F then s.lowestSpare else if t < 74 ∧ s.bankState t = 1 then some t else none

/-- The condition of an operation and the range of its argument (R373). -/
def State.svcValid (s : State) (op arg : Nat) : Bool :=
  if op = 1 then decide (bitsOf arg 0 6 < 34) && decide ((s.core (bitsOf arg 0 6)).svc = 2)
  else if op = 2 then s.mayRestore (bitsOf arg 0 6)
  else if op = 3 then decide (bitsOf arg 0 7 < 74) && decide (s.bankState (bitsOf arg 0 7) = 0) && (s.rebuildTarget arg).isSome
  else if op = 4 then decide (bitsOf arg 0 7 < 74) && decide (s.bankState (bitsOf arg 0 7) = 3)
  else if op = 5 then decide (bitsOf arg 0 20 < 917504)
  else if op = 6 then decide (arg = 0)
  else if op = 7 then true
  else if op = 8 then !s.run
  else if op = 9 then decide (arg = 0)
  else if op = 0xA then decide (bitsOf arg 8 8 ≠ 0)
  else false

/-- The counters whose increments PORT_FAILOVER_TEST reports. -/
def State.lossCount (s : State) : Nat := (s.reg Reg.STRM_RX_UNDERRUN_CNT).toNat + (s.reg Reg.ING_NET_GAP_CNT).toNat

/-- The stop of ingress: no further event is accepted, and entries whose block of effect is t + 4 or later are discarded (R66). -/
def State.stopIngress (s : State) : State :=
  let t := s.period
  let s1 : State := { s.draining Page.ing with ing := { s.ing with stopPeriod := some t } }
  s1.discardEntries (fun e => decide (t + 4 ≤ s.effectBlock e))

/-- The commit point of STANDBY_ENTER (R413): ingress stops and RUN is cleared. -/
def State.standbyCommit (s : State) : State :=
  if s.svcBusy = false ∨ s.svcOp ≠ 9 ∨ s.svc.committed then s
  else
    let s1 : State := { s with
      svc := { s.svc with committed := true }, pwr := { s.pwr with ingWas := s.pageOn Page.ing, wakePending := false } }
    let s2 := if s1.pageOn Page.ing then (s1.setBit (Reg.PAGE_CTRL Page.ing) 0 false).stopIngress else s1
    let s3 := (if s2.run then s2.requestStop else s2).setFld Reg.PWR_STAT 8 3 1
    if s3.running then s3 else s3.dacReleaseAll

/-- The effect of an operation's start. -/
def State.svcBegin (s : State) (op arg : Nat) : State :=
  if op = 1 then
    let n := bitsOf arg 0 6
    if (s.core n).retire then { s with svc := { s.svc with fail := true } } else s.updCore n (fun c => { c with retire := true })
  else if op = 2 then s.updCore (bitsOf arg 0 6) (fun c => { c with svc := 3 })
  else if op = 3 then (match s.rebuildTarget arg with
    | some t => s.startRebuild (bitsOf arg 0 7) t
    | none => s)
  else if op = 4 then s.setBank (bitsOf arg 0 7) 4 0xF 0
  else if op = 5 then
    let s1 := s.retirePage (bitsOf arg 0 20)
    if s1.dram.retiring.any (fun e => decide (e.1 = bitsOf arg 0 20)) then s1
    else { s1 with svc := { s1.svc with finished := true, fail := true } }
  else if op = 6 then
    { s.setReg Reg.DRC_SCRUB_STAT 0x80000000 with dram := { s.dram with patrol := s.fld Reg.DRC_SCRUB_STAT 0 26 } }
  else if op = 8 then s.stopStreams
  else if op = 9 then (if s.running then s else s.standbyCommit)
  else if op = 0xA then { s with svc := { s.svc with suppressed := some (bitsOf arg 0 1), base := s.lossCount } }
  else s

/-- An operation starts, by SVC_CMD or automatically (R372, R375). -/
def State.svcStart (s : State) (op arg : Nat) (auto : Bool) : State :=
  let done := if s.bit Reg.SVC_STAT 30 then 2 ^ 30 else 0
  let s1 := s.setReg Reg.SVC_STAT (BitVec.ofNat 32 (2 ^ 31 + done + 2 ^ 16 * (op % 256) + (if auto then 2 ^ 5 else 0)))
  let s2 := (if auto then s1.bump Reg.SVC_AUTO_CNT else s1).setFld Reg.SVC_PROG 0 7 0
  if s.svcValid op arg then State.svcBegin { s2 with svc := { Service.reset with arg := bitsOf arg 0 (if op = 5 then 20 else 32) } } op arg
  else s2.svcFinish false false true

/-- SVC_CMD (R372). -/
def actSvcCmd (s : State) (_ : RegRow) (_ v : Word) : State :=
  if s.svcBusy then s.svcRefuse
  else if s.pageOn Page.svc = false then s
  else s.svcStart (fieldOf v 0 8) (s.reg Reg.SVC_ARG).toNat false

/-- SVC_ARG (R372). -/
def actSvcArg (s : State) (r : RegRow) (old v : Word) : State :=
  if s.svcBusy then s.svcRefuse else s.setReg Reg.SVC_ARG (r.store old v)

/-- What an abort before the commit point undoes (R373). The image that CFG_COMMIT leaves is recorded as erased. -/
def State.svcUndo (s : State) : State :=
  let op := s.svcOp
  let arg := s.svc.arg
  if op = 1 then (if s.svc.fail then s else s.updCore (bitsOf arg 0 6) (fun c => { c with retire := false }))
  else if op = 2 then s.updCore (bitsOf arg 0 6) (fun c => { c with svc := 0 })
  else if op = 3 then s.abortRebuild
  else if op = 4 then s.setBank (bitsOf arg 0 7) 3 0xF 0
  else if op = 5 then
    State.showUnits { s with dram := { s.dram with retiring := s.dram.retiring.filter (fun e => decide (e.1 ≠ arg)) } }
  else if op = 6 then s.setReg Reg.DRC_SCRUB_STAT (BitVec.ofNat 32 s.dram.patrol)
  else if op = 7 then { s with out := { s.out with flash := s.out.flash.filter (fun e => decide (e.1 / 2 ^ 32 ≠ bitsOf arg 31 1)) } }
  else s

/-- The running operation is to be aborted (R374): before its commit point it ends with ABORTED, otherwise the abort loses. -/
def State.svcAbort (s : State) : State :=
  if s.svc.committed ∨ s.svc.finished then s.setBit Reg.SVC_STAT 4 true else s.svcUndo.svcFinish true false false

/-- SVC_ABORT (R372, R374). -/
def actSvcAbort (s : State) (_ : RegRow) (_ v : Word) : State :=
  if s.svcBusy = false then s
  else if fieldOf v 0 8 = s.svcOp then s.svcAbort
  else s.svcRefuse

/-! ### The commands that start an operation: writes of SVC_CMD -/

/-- A write of SVC_CMD that names an operation. -/
def State.svcCommand (s : State) (path : Path) (v : Word) (op : Nat) : State :=
  s.hostWrite (.host path) Reg.SVC_CMD (setFieldOf v 0 8 op) actSvcCmd

/-- CORE_RETIRE (R373). -/
def execCoreRetire (path : Path) (v : Word) (s : State) : Host.Outcome State Fault Refusal := .next (s.svcCommand path v 1)

/-- CORE_RESTORE (R373). -/
def execCoreRestore (path : Path) (v : Word) (s : State) : Host.Outcome State Fault Refusal := .next (s.svcCommand path v 2)

/-- BANK_REBUILD (R309). -/
def execBankRebuild (path : Path) (v : Word) (s : State) : Host.Outcome State Fault Refusal := .next (s.svcCommand path v 3)

/-- BANK_RETURN (R312). -/
def execBankReturn (path : Path) (v : Word) (s : State) : Host.Outcome State Fault Refusal := .next (s.svcCommand path v 4)

/-- DRAM_PAGE_RETIRE (R319, R373). -/
def execDramPageRetire (path : Path) (v : Word) (s : State) : Host.Outcome State Fault Refusal := .next (s.svcCommand path v 5)

/-- DRAM_SCRUB_FULL (R318). -/
def execDramScrubFull (path : Path) (v : Word) (s : State) : Host.Outcome State Fault Refusal := .next (s.svcCommand path v 6)

/-- CFG_COMMIT (R411). -/
def execCfgCommit (path : Path) (v : Word) (s : State) : Host.Outcome State Fault Refusal := .next (s.svcCommand path v 7)

/-- CFG_RELOAD (R411). -/
def execCfgReload (path : Path) (v : Word) (s : State) : Host.Outcome State Fault Refusal := .next (s.svcCommand path v 8)

/-- STANDBY_ENTER (R413). -/
def execStandbyEnter (path : Path) (v : Word) (s : State) : Host.Outcome State Fault Refusal := .next (s.svcCommand path v 9)

/-- PORT_FAILOVER_TEST (R373). -/
def execPortFailoverTest (path : Path) (v : Word) (s : State) : Host.Outcome State Fault Refusal := .next (s.svcCommand path v 0xA)

/-- SVC_ABORT (R374). -/
def execSvcAbort (path : Path) (v : Word) (s : State) : Host.Outcome State Fault Refusal :=
  .next (s.hostWrite (.host path) Reg.SVC_ABORT v actSvcAbort)

/-- AUTO_REBUILD_START (R375): a queued rebuild starts in the first cycle in which BUSY is 0, onto the lowest spare. -/
def execAutoRebuildStart (s : State) : Host.Outcome State Fault Refusal :=
  match s.ctl.rebuildQueue with
  | [] => .next s
  | b :: rest =>
    if s.svcBusy ∨ s.pageOn Page.svc = false then .next s
    else .next (State.svcStart { s with ctl := { s.ctl with rebuildQueue := rest } } 3 (b + 2 ^ 8 * 0x7F) true)

/-! ### Wake events (R415, R417) -/

/-- A wake event of source `i` of PWR_WAKE_SRC: it wakes the device from standby, aborts a STANDBY_ENTER that has not committed, or is
kept while the entry completes. -/
def State.wakeEvent (s : State) (i : Nat) : State :=
  if s.powerState = 2 then (s.setReg Reg.PWR_WAKE_SRC (BitVec.ofNat 32 (2 ^ i))).setFld Reg.PWR_STAT 8 3 3
  else if s.svcBusy ∧ s.svcOp = 9 then
    if s.svc.committed = false then s.svcAbort
    else if s.pwr.wakePending then s
    else
      let t := s.setReg Reg.PWR_WAKE_SRC (BitVec.ofNat 32 (2 ^ i))
      { t with pwr := { t.pwr with wakePending := true } }
  else s

end Sys2Proof.Machine
end

