-- ==== Sys2Proof/Machine/Network.lean ====
section
/-! DEFINITION. The Ethernet ports: frames and their classes, gPTP, audio streams, sessions and the host packet path (R322 to R337).
The layouts of Ethernet, IPv4, UDP, RTP, IEEE 1722 and Network MIDI 2.0 are those standards' own (PRESUMED, log entry 22). -/

namespace Sys2Proof.Machine

/-! ### Fields of a frame -/

/-- A big-endian number. -/
def beNat (b : List Byte) : Nat := b.foldl (fun a x => 256 * a + x.toNat) 0

/-- `n` bytes of a frame from `lo`, big-endian. -/
def beAt (b : List Byte) (lo n : Nat) : Nat := beNat ((b.drop lo).take n)

/-- A frame without its FCS: addresses, an optional 802.1Q tag, EtherType and what follows. -/
structure EthFrame where
  dst : Nat
  tag : Option Nat        -- the tag's control word
  etherType : Nat
  body : List Byte

/-- Reads a frame's header. -/
def ethFrame (f : List Byte) : EthFrame :=
  if beAt f 12 2 = 0x8100 then { dst := beAt f 0 6, tag := some (beAt f 14 2), etherType := beAt f 16 2, body := f.drop 18 }
  else { dst := beAt f 0 6, tag := none, etherType := beAt f 12 2, body := f.drop 14 }

/-- PCP of a frame, 0 when it is untagged. -/
def EthFrame.pcp (f : EthFrame) : Nat := ((f.tag.map (fun t => bitsOf t 13 3)).getD 0)

/-- A UDP datagram in IPv4 with no options and no fragmentation. -/
structure Udp where
  src : Nat
  dst : Nat
  sport : Nat
  dport : Nat
  payload : List Byte

/-- Reads a UDP datagram. -/
def EthFrame.udp (f : EthFrame) : Option Udp :=
  let b := f.body
  if f.etherType = 0x0800 ∧ beAt b 0 1 = 0x45 ∧ bitsOf (beAt b 6 2) 0 14 = 0 ∧ beAt b 9 1 = 17 ∧ 28 ≤ b.length then
    some { src := beAt b 12 4, dst := beAt b 16 4, sport := beAt b 20 2, dport := beAt b 22 2
           payload := (b.drop 28).take (beAt b 24 2 - 8) }
  else none

/-! ### gPTP (R326, R327) -/

/-- PTP_STAT and PTP_STATE follow the engine. -/
def State.setPtp (s : State) (roleA roleB : Nat) (gm ascA ascB : Bool) : State :=
  let v : Word := BitVec.ofNat 32 (roleA + 4 * roleB + (if gm then 16 else 0) + (if ascA then 32 else 0) + (if ascB then 64 else 0))
  if s.reg Reg.PTP_STAT = v then s else (s.setReg Reg.PTP_STAT v).raise Page.ptp 0

/-- The role of a port. -/
def State.ptpRole (s : State) (port : Nat) : Nat := s.fld Reg.PTP_STAT (2 * port) 2

/-- A port takes a role. -/
def State.setRole (s : State) (port role : Nat) : State :=
  let st := s.reg Reg.PTP_STAT
  s.setPtp (if port = 0 then role else fieldOf st 0 2) (if port = 1 then role else fieldOf st 2 2) (decide (fieldOf st 4 1 = 1))
    (decide (fieldOf st 5 1 = 1)) (decide (fieldOf st 6 1 = 1))

/-- What the engine has concluded stands in the PTP page. -/
def State.applyPtp (s : State) (v : PtpView) : State :=
  let s1 := s.setPtp v.roleA v.roleB v.gm v.ascA v.ascB
  let s2 := ((s1.setReg Reg.PTP_GM_ID_LO (v.gmId.truncate 32)).setReg Reg.PTP_GM_ID_HI ((v.gmId >>> 32).truncate 32)).setReg
    Reg.PTP_PDELAY_A v.delayA
  let s3 := s2.setReg Reg.PTP_PDELAY_B v.delayB
  { s3 with net := { s3.net with standby := v.standby } }

/-- A port is no slave any more (R30, R327): under hot standby the other takes over, otherwise the gPTP source is lost. -/
def State.slaveLost (s : State) (port : Nat) (avg : Word) : State :=
  let other := 1 - port
  if s.ptpRole port = 2 then
    if s.bit Reg.PTP_CFG 0 ∧ s.net.standby ∧ s.ptpRole other = 3 ∧ s.pageOn Page.ptp then
      let t := ((s.setRole port 0).setRole other 2).bump Reg.PTP_FAILOVER_CNT
      { t with net := { t.net with standby := false } }
    else
      let t := s.setRole port 0
      if t.qualified .gptp then t.loseSource .gptp avg false else t
  else if s.ptpRole port = 3 then
    let t := s.setRole port 0
    { t with net := { t.net with standby := false } }
  else s

/-- SYNC_TIMEOUT (R30, R327): no Sync for 3 Sync intervals on a port; `avg` is the correction of the last LOCKED interval. -/
def execSyncTimeout (port : Fin 2) (avg : Word) (s : State) : Host.Outcome State Fault Refusal := .next (s.slaveLost port avg)

/-- Whether a port may send. -/
def State.portUp (s : State) (port : Nat) : Bool := s.bit (Reg.NET_STAT port) 0 && s.pageOn (Page.neta + port)

/-- A frame leaves a port. -/
def State.sendFrame (s : State) (port : Nat) (x : Sent) : State := (s.send x).count (483 + port) 1

/-- SYNC_TRANSMIT (R326): a Sync and its Follow_Up on every port in the master role. -/
def execSyncTransmit (s : State) : Host.Outcome State Fault Refusal :=
  .next ((List.range 2).foldl (fun t p =>
    if t.pageOn Page.ptp ∧ t.portUp p ∧ t.ptpRole p = 1 then (t.sendFrame p (.ptpFrame p 0)).count (483 + p) 1 else t) s)

/-- PDELAY_REQUEST_TRANSMIT (R326): a Pdelay_Req on each PTP port. -/
def execPdelayRequestTransmit (s : State) : Host.Outcome State Fault Refusal :=
  .next ((List.range 2).foldl (fun t p => if t.pageOn Page.ptp ∧ t.portUp p then t.sendFrame p (.ptpFrame p 1) else t) s)

/-- LINK_CHANGE (R322): the link of a port goes up or down; `gbe` is its speed, `avg` as in SYNC_TIMEOUT. -/
def State.linkChange (s : State) (port : Nat) (up gbe : Bool) (avg : Word) (inj : Bool) : State :=
  let s1 := ((s.setBit (Reg.NET_STAT port) 0 up).setBit (Reg.NET_STAT port) 1 (up && gbe)).raise (Page.neta + port) 0
  if up then s1 else (((s1.pageErr (Page.neta + port)).logError (0x1501 + 256 * port) 0 port inj).slaveLost port avg)

/-- LINK_CHANGE. A change to the state the link is in already is none. -/
def execLinkChange (port : Fin 2) (up gbe : Bool) (avg : Word) (s : State) : Host.Outcome State Fault Refusal :=
  if s.bit (Reg.NET_STAT port) 0 = up then .next s else .next (s.linkChange port up gbe avg false)

/-! ### Host packet path (R336, R337) -/

/-- A frame goes to the receive ring; `buf` is the ADDR field of the entry as host memory holds it. -/
def State.hostPacket (s : State) (port : Nat) (frame : List Byte) (pcp : Nat) (hwump : Bool) (buf : BitVec 64) : State :=
  let size := ringSize (s.fld (Reg.NET_HRX_CFG port) 0 4) 4 12
  let pi := s.fld (Reg.NET_HRX_PI port) 0 16
  let used := (pi + 2 ^ 16 - s.fld (Reg.NET_HRX_CI port) 0 16) % 2 ^ 16
  if s.bit (Reg.NET_HRX_CFG port) 8 = false ∨ size ≤ used then (s.bump (Reg.NET_HOST_DROP_CNT port)).raise (Page.neta + port) 2
  else
    let base := (s.reg (Reg.NET_HRX_BASE_LO port)).toNat / 16 * 16 + (s.reg (Reg.NET_HRX_BASE_HI port)).toNat * 2 ^ 32
    let entry := base + 16 * (pi % size)
    let s1 := (s.putHost buf.toNat frame).putHost (entry + 8)
      (leBytes 2 frame.length ++ leBytes 1 (1 + (if hwump then 2 else 0)) ++ leBytes 1 pcp ++ leBytes 4 (s.clk.mt.toNat / 256))
    let s2 := s1.setReg (Reg.NET_HRX_PI port) (BitVec.ofNat 32 ((pi + 1) % 2 ^ 16))
    if used = 0 then s2.raise (Page.neta + port) 2 else s2

/-- HOST_TX_DOORBELL (R337): a write of NETx_HTX_PI. -/
def execHostTxDoorbell (path : Path) (port : Fin 2) (v : Word) (s : State) : Host.Outcome State Fault Refusal :=
  .next (s.hostWrite (.host path) (Reg.NET_HTX_PI port) v (storeAct (Reg.NET_HTX_PI port)))

/-- HOST_FRAME_SENT (R325, R336, R337): the port sends the frame of its next transmit entry and sets DONE; `pcp` and `frame` are the entry's
field and the frame as host memory holds them. -/
def execHostFrameSent (port : Fin 2) (pcp : Fin 8) (frame : List Byte) (s : State) : Host.Outcome State Fault Refusal :=
  let pi := s.fld (Reg.NET_HTX_PI port) 0 16
  let ci := s.fld (Reg.NET_HTX_CI port) 0 16
  if s.bit (Reg.NET_HTX_CFG port) 8 = false ∨ pi = ci ∨ s.portUp port = false then .next s
  else
    let size := ringSize (s.fld (Reg.NET_HTX_CFG port) 0 4) 4 12
    let base := (s.reg (Reg.NET_HTX_BASE_LO port)).toNat / 16 * 16 + (s.reg (Reg.NET_HTX_BASE_HI port)).toNat * 2 ^ 32
    let tag : List Byte := if s.bit (Reg.NET_CFG port) 8 then
        [0x81, 0x00] ++ (leBytes 2 (8192 * pcp.val + s.fld (Reg.NET_CFG port) 16 12)).reverse else []
    let s1 := (s.putHost (base + 16 * (ci % size) + 10) [1]).sendFrame port (.frame port (frame.take 12 ++ tag ++ frame.drop 12))
    .next (s1.setReg (Reg.NET_HTX_CI port) (BitVec.ofNat 32 ((ci + 1) % 2 ^ 16)))

/-! ### Receive streams (R328, R332, R333) -/

/-- Bytes of a sample in a format. -/
def fmtBytes (fmt : Nat) : Nat := if fmt = 0 then 4 else if fmt = 1 then 2 else 3

/-- Whether a format is AAF. -/
def isAaf (fmt : Nat) : Bool := decide (fmt = 0) || decide (fmt = 3)

/-- The stream under which a receive stream is merged: the partner of a pair, or itself (R333). -/
def State.rxKey (s : State) (i : Nat) : Nat :=
  let cfg := s.reg (Reg.STRM_RX_CFG i)
  if fieldOf cfg 30 1 = 1 then fieldOf cfg 22 5 else i

/-- A receive stream's state. -/
def State.rx (s : State) (k : Nat) : RxStream := Sparse.get (fun _ => RxStream.reset) s.net.rx k

/-- Replaces it. -/
def State.setRx (s : State) (k : Nat) (x : RxStream) : State :=
  { s with net := { s.net with rx := Sparse.put (fun _ => RxStream.reset) s.net.rx k x } }

/-- The packet deadline of a packet whose first sample is `t` (R333): the sample at which period m + 1 ends. -/
def State.packetDeadline (s : State) (t : Nat) : Nat := (t / s.blk + 2) * s.blk

/-- The samples of a payload: sample `i` of channel `c`, left-justified in 32 bits. -/
def payloadSample (payload : List Byte) (w nch i c : Nat) : Word :=
  BitVec.ofNat 32 (beAt payload (w * (i * nch + c)) w * 2 ^ (32 - 8 * w))

/-- Samples of a packet reach the capture path against their media time; with `mute` they are zeros. -/
def State.deliverPacket (s : State) (i start : Nat) (payload : List Byte) (mute : Bool) : State :=
  let k := s.rxKey i
  let own := s.reg (Reg.STRM_RX_CFG i)
  let cfg := s.reg (Reg.STRM_RX_CFG k)
  let nch := fieldOf cfg 8 6 + 1
  (List.range (fieldOf own 0 8)).foldl (fun t j => (List.range nch).foldl (fun u c =>
    u.portSample (1 + fieldOf cfg 27 1) (fieldOf cfg 15 7 + c) ((start + j) % 2 ^ 56) false
      (if mute then 0 else payloadSample payload (fmtBytes (fieldOf own 28 2)) nch j c)) t) s

/-- A packet of receive stream `i` with its sequence number (of `bits` bits), the sample of its first sample, and its payload, or
discarded as bad (R332, R333). -/
def State.takePacket (s : State) (i bits seq start : Nat) (good : Bool) (payload : List Byte) : State :=
  let k := s.rxKey i
  let x := s.rx k
  let inWindow := match x.highest with
    | none => true
    | some h => decide ((modDiff bits seq h).natAbs < 64)
  let nch := s.fld (Reg.STRM_RX_CFG k) 8 6 + 1
  let want := nch * s.fld (Reg.STRM_RX_CFG i) 0 8 * fmtBytes (s.fld (Reg.STRM_RX_CFG i) 28 2)
  if good = false ∨ payload.length ≠ want ∨ inWindow = false then s.bump Reg.STRM_RX_BAD_CNT
  else
    let path := if k = i then 1 else 2
    match x.packets.find? (fun p => decide (p.seq = seq)) with
    | some p =>
      s.setRx k { x with packets := x.packets.map (fun q => if q.seq = seq then { q with paths := p.paths ||| path } else q) }
    | none =>
      let h := match x.highest with
        | none => seq
        | some h => if 0 < modDiff bits seq h then seq else h
      let late := s.running && decide (s.packetDeadline start ≤ s.sample)
      let y := { x with
        highest := some h
        packets := if late then x.packets else x.packets ++ [{ seq := seq, start := start, paths := path }]
        next := match x.next with
          | some n => some n
          | none => if late then none else some (seq, start) }
      let s1 := ((s.setRx k y).bump Reg.STRM_RX_PKT_CNT).count 485 1
      if s1.running then s1.deliverPacket i start payload false else s1

/-- The media-time sample of a gPTP time in ns (R21). -/
def State.sampleOfTime (s : State) (t : Nat) : Nat :=
  (t * s.fs * 256 / 1000000000 + s.clk.epochOfs.toNat) % 2 ^ 64 / 256

/-- The value nearest to `a` whose low `w` bits are `v` (R51). -/
def nearest (w v a : Nat) : Nat := ((a : Int) + modDiff w v (a % 2 ^ w)).toNat

/-- An AAF packet for stream `i`; `now` is gPTP time at its arrival (R332). -/
def State.aafPacket (s : State) (i : Nat) (b : List Byte) (now : Nat) : State :=
  let cfg := s.reg (Reg.STRM_RX_CFG i)
  let nch := s.fld (Reg.STRM_RX_CFG (s.rxKey i)) 8 6 + 1
  let fmt := fieldOf cfg 28 2
  let good := isAaf fmt && decide (beAt b 16 1 = if fmt = 0 then 2 else 3) && decide (bitsOf (beAt b 17 2) 0 10 = nch)
  let t : Nat := s.sampleOfTime (nearest 32 (beAt b 12 4) now)
  let start := wrapTo 56 ((t : Int) + (s.reg (Reg.STRM_RX_OFS i)).toInt)
  s.takePacket i 8 (beAt b 2 1) start good ((b.drop 24).take (beAt b 20 2))

/-- An RTP packet for stream `i` (R332). -/
def State.rtpPacket (s : State) (i : Nat) (b : List Byte) : State :=
  let b0 := beAt b 0 1
  let head := 12 + 4 * bitsOf b0 0 4
  let skip := if bitsOf b0 4 1 = 1 then head + 4 + 4 * beAt b (head + 2) 2 else head
  let full : Nat := nearest 32 (beAt b 4 4) s.sample
  let t : Nat := (full * 256 + s.clk.epochOfs.toNat) % 2 ^ 64 / 256
  let start := wrapTo 56 ((t : Int) + (s.reg (Reg.STRM_RX_OFS i)).toInt)
  s.takePacket i 16 (beAt b 2 2) start (decide (bitsOf b0 6 2 = 2) && !isAaf (s.fld (Reg.STRM_RX_CFG i) 28 2)) (b.drop skip)

/-- PACKET_DEADLINE (R333): the deadline of the packet that receive stream `i` awaits. -/
def execPacketDeadline (i : Fin 32) (s : State) : Host.Outcome State Fault Refusal :=
  let k := i.val
  let x := s.rx k
  match x.next with
  | none => .next s
  | some (seq, start) =>
    if s.running = false ∨ s.sample < s.packetDeadline start then .next s
    else
      let found := x.packets.find? (fun p => decide (p.seq = seq))
      let from_ := (found.map (fun p => p.start)).getD start
      let pair := (List.range 32).any (fun j =>
        s.bit (Reg.STRM_RX_CFG j) 31 && s.bit (Reg.STRM_RX_CFG j) 30 && decide (s.fld (Reg.STRM_RX_CFG j) 22 5 = k))
      let one := match found with
        | some p => pair && decide (p.paths ≠ 3)
        | none => false
      let cfg := s.reg (Reg.STRM_RX_CFG k)
      let bits := if isAaf (fieldOf cfg 28 2) then 8 else 16
      let s1 := s.setRx k { x with
        packets := x.packets.filter (fun p => decide (p.seq ≠ seq) && decide (from_ ≤ p.start)),
        next := some ((seq + 1) % 2 ^ bits, from_ + fieldOf cfg 0 8) }
      let lost := s1.detect Page.strm 1 k seq found.isNone
      if lost.hit then
        let s2 := (lost.st.bump Reg.STRM_RX_UNDERRUN_CNT).raise Page.strm 1
        .next (if lost.inj then s2.deliverPacket k from_ [] true else s2)
      else
        let rep := s1.detect Page.strm 0 k seq one
        .next (if rep.hit then ((rep.st.bump Reg.STRM_RX_REPAIRED_CNT).count 487 1).raise Page.strm 0 else rep.st)

/-! ### Sessions (R334, R335) -/

/-- Splits words into messages by their types. -/
def splitUmps : Nat → List Word → List (List Word)
  | 0, _ => []
  | _, [] => []
  | fuel + 1, w :: ws =>
    let n := umpLength (fieldOf w 28 4)
    (w :: ws).take n :: splitUmps fuel ((w :: ws).drop n)

/-- The command packets of a Network MIDI 2.0 payload: code, command data and payload words. -/
def nmidCommands : Nat → List Byte → List (Nat × Nat × List Word)
  | 0, _ => []
  | fuel + 1, b =>
    if b.length < 4 then []
    else
      let n := beAt b 1 1
      (beAt b 0 1, beAt b 2 2, (List.range n).map (fun i => BitVec.ofNat 32 (beAt b (4 + 4 * i) 4))) :: nmidCommands fuel (b.drop (4 + 4 * n))

/-- A packet of session `n` (R334): its UMP Data commands go to Event Ingress; with any other command the whole packet goes to the host
as well. -/
def State.sessionPacket (s : State) (port n : Nat) (payload frame : List Byte) (pcp : Nat) (buf : BitVec 64) : State :=
  if s.pageOn Page.nmid = false then s.bump Reg.NMID_DROP_CNT
  else
    let ok := decide (beAt payload 0 4 = 0x4D494449)
    let cmds := if ok then nmidCommands payload.length (payload.drop 4) else []
    let s1 := (cmds.filter (fun c => decide (c.1 = 0xFF))).foldl (fun t c => t.takeCommand n c.2.1 (splitUmps c.2.2.length c.2.2)) s
    if ok ∧ cmds.all (fun c => decide (c.1 = 0xFF)) then s1
    else (s1.bump Reg.NMID_FWD_CNT).hostPacket port frame pcp true buf

/-- The session of a port whose addresses a datagram has, among those `p` admits. -/
def State.sessionOf (s : State) (port : Nat) (u : Udp) (p : Nat → Bool) : Option Nat :=
  ((List.range 16).map (fun i => 16 * port + i)).find? (fun n =>
    p n && decide ((s.reg (Reg.NMID_SESS_ADDR n)).toNat = u.src) && decide (s.fld (Reg.NMID_SESS_PORT n) 0 16 = u.sport) &&
      decide (s.fld (Reg.NMID_SESS_PORT n) 16 16 = u.dport))

/-! ### Frames (R322 to R324, R415) -/

/-- Whether `l` begins with `p`. -/
def startsWith (p l : List Byte) : Bool := decide (l.take p.length = p)

/-- Whether `p` stands somewhere in `l`. -/
def hasRun (p : List Byte) : List Byte → Bool
  | [] => decide (p = [])
  | b :: bs => startsWith p (b :: bs) || hasRun p bs

/-- A port's MAC, first octet first. -/
def State.mac (s : State) (port : Nat) : List Byte :=
  (leBytes 6 ((s.reg (Reg.NET_MAC_LO port)).toNat + s.fld (Reg.NET_MAC_HI port) 0 16 * 2 ^ 32)).reverse

/-- A Wake-on-LAN magic packet for a port (R415). -/
def State.isMagic (s : State) (port : Nat) (f : EthFrame) : Bool :=
  let run := List.replicate 6 (0xFF : Byte) ++ (List.replicate 16 (s.mac port)).flatten
  let udp := match f.udp with
    | some u => decide (u.dport = 9) && decide (u.dst = (s.reg (Reg.NET_IPV4 port)).toNat)
    | none => false
  (decide (f.etherType = 0x0842) || udp) && hasRun run f.body

/-- The receive stream of a port that `p` admits: enabled, on this port. -/
def State.rxStreamOf (s : State) (port : Nat) (p : Nat → Bool) : Option Nat :=
  (List.range 32).find? (fun i => s.bit (Reg.STRM_RX_CFG i) 31 && decide (s.fld (Reg.STRM_RX_CFG i) 27 1 = port) && p i)

/-- Takes a frame to the first destination whose condition it meets (R323). -/
def State.classify (s : State) (port : Nat) (frame : List Byte) (now : Nat) (ptp : Option PtpView) (buf : BitVec 64) : State :=
  let f := ethFrame frame
  let vid := (f.tag.map (fun t => bitsOf t 0 12)).getD 0
  let own := decide (vid = 0 ∨ vid = s.fld (Reg.NET_CFG port) 16 12)
  let host := s.hostPacket port frame f.pcp false buf
  if own = false then host
  else if f.dst = 0x0180C200000E ∧ f.etherType = 0x88F7 then
    (if s.pageOn Page.ptp then (match ptp with
      | some v => s.applyPtp v
      | none => s) else s)
  else
    let aaf := if f.etherType = 0x22F0 ∧ beAt f.body 0 1 = 2 then s.rxStreamOf port (fun i =>
        isAaf (s.fld (Reg.STRM_RX_CFG i) 28 2) &&
          decide (beAt f.body 4 8 = (s.reg (Reg.STRM_RX_ID_LO i)).toNat + (s.reg (Reg.STRM_RX_ID_HI i)).toNat * 2 ^ 32)) else none
    match aaf with
    | some i => if s.pageOn Page.strm then s.aafPacket i f.body now else s
    | none => match f.udp with
      | none => host
      | some u =>
        match s.rxStreamOf port (fun i => !isAaf (s.fld (Reg.STRM_RX_CFG i) 28 2) &&
          decide (u.dst = (s.reg (Reg.STRM_RX_ID_LO i)).toNat) && decide (u.dport = s.fld (Reg.STRM_RX_ID_HI i) 0 16)) with
        | some i => if s.pageOn Page.strm then s.rtpPacket i u.payload else s
        | none =>
          match s.sessionOf port u (fun n => s.bit (Reg.NMID_SESS_CFG n) 31) with
          | some n => s.sessionPacket port n u.payload frame f.pcp buf
          | none =>
            match s.sessionOf port u (fun n => s.net.cleared.contains n) with
            | some _ => s.bump Reg.NMID_DROP_CNT
            | none => host

/-- FRAME_RECEIVE (R322, R323, R415): a frame, without its FCS, arrives on a port; `bad` tells that its FCS or alignment is wrong. `now` is gPTP
time, `ptp` what a gPTP message leads the engine to, and `buf` the buffer address in the next receive entry. -/
def execFrameReceive (port : Fin 2) (bad : Bool) (frame : List Byte) (now : BitVec 64) (ptp : Option PtpView) (buf : BitVec 64) (s : State) :
    Host.Outcome State Fault Refusal :=
  if s.portUp port = false ∨ s.svc.suppressed = some port.val then .next s
  else
    let k := s.detect (Page.neta + port) 0 0 port.val (bad || decide (1518 < frame.length) || decide (frame.length < 60))
    if k.hit then .next ((k.st.bump (Reg.NET_RX_ERR_CNT port)).raise (Page.neta + port) 1)
    else
      let s1 := (s.bump (Reg.NET_RX_FRM_CNT port)).count (481 + port) 1
      let s2 := if s1.bit Reg.PWR_WAKE_CFG 2 ∧ s1.isMagic port (ethFrame frame) then s1.wakeEvent (2 + port) else s1
      .next (s2.classify port frame now.toNat ptp buf)

/-! ### Transmit streams (R331) -/

/-- A transmit stream's state. -/
def State.tx (s : State) (i : Nat) : TxStream := Sparse.get (fun _ => TxStream.reset) s.net.tx i

/-- Replaces it. -/
def State.setTx (s : State) (i : Nat) (x : TxStream) : State :=
  { s with net := { s.net with tx := Sparse.put (fun _ => TxStream.reset) s.net.tx i x } }

/-- Transmit stream `i` takes the sample `t` that its queue has released; samples with VALID 0 are zeros. -/
def State.txSample (s : State) (i t : Nat) : State :=
  let cfg := s.reg (Reg.STRM_TX_CFG i)
  let spp := fieldOf cfg 0 8
  if fieldOf cfg 31 1 = 0 ∨ s.pageOn Page.strm = false ∨ spp = 0 then s
  else
    let x := s.tx i
    let q := s.queue (8 + i)
    let v := (List.range (s.queueChannels (8 + i))).map (fun c => if q.outValid then (q.outV[c]?).getD (0 : Word) else 0)
    let y := if t % spp = 0 then { x with start := some t, samples := [v] }
      else if x.start.isSome then { x with samples := x.samples ++ [v] } else x
    match y.start with
    | some st =>
      if y.samples.length = spp then s.setTx i { y with start := none, samples := [], ready := y.ready ++ [(st, y.samples)] }
      else s.setTx i y
    | none => s.setTx i y

/-- The payload bytes of a packet: each sample's most significant bytes. -/
def payloadOf (fmt : Nat) (samples : List (List Word)) : List Byte :=
  (samples.map (fun f => (f.map (fun w => ((leBytes 4 w.toNat).reverse).take (fmtBytes fmt))).flatten)).flatten

/-- The gPTP time in ns of a sample under the mapping of R21, rounded down. -/
def State.timeOfSample (s : State) (t : Int) : Int := (t * 256 - s.clk.epochOfs.toInt) * 1000000000 / (256 * (s.fs : Int))

/-- STREAM_PACKET_TRANSMIT (R331): the oldest packet of transmit stream `i` is launched, on both ports with DUAL, or discarded when its
launch comes more than one packet time after the release of its last sample. -/
def execStreamPacketTransmit (i : Fin 32) (s : State) : Host.Outcome State Fault Refusal :=
  let x := s.tx i
  let cfg := s.reg (Reg.STRM_TX_CFG i)
  let port := i.val / 16
  match x.ready with
  | [] => .next s
  | (start, data) :: rest =>
    let s1 := s.setTx i { x with ready := rest, seq := x.seq + 1 }
    let spp := fieldOf cfg 0 8
    if start + 2 * spp ≤ s.sample ∨ s.portUp port = false then
      .next ((s1.bump (Reg.NET_TX_LATE_CNT port)).raise (Page.neta + port) 3)
    else
      let fmt := fieldOf cfg 28 2
      let ofs := (start : Int) + (s.reg (Reg.STRM_TX_OFS i)).toInt
      let stamp := wrapTo 32 (if isAaf fmt then s.timeOfSample ofs else ofs)
      let out := fun (t : State) (p : Nat) => t.sendFrame p (.packet p i fmt (x.seq % (if isAaf fmt then 256 else 65536)) stamp (payloadOf fmt data))
      let s2 := ((out s1 port).bump Reg.STRM_TX_PKT_CNT).count 486 1
      .next (if fieldOf cfg 30 1 = 1 ∧ i.val < 16 ∧ s2.portUp 1 then out s2 1 else s2)

/-! ### Register rules (R329, R330, R335) -/

/-- A refused write of the STRM page. -/
def State.strmRefuse (s : State) : State := (s.setBit Reg.STRM_STAT 31 true).pageErrFlag Page.strm 0

/-- SPP within its range (R328). -/
def sppOk (v : Word) : Bool := decide (1 ≤ fieldOf v 0 8) && decide (fieldOf v 0 8 ≤ 192)

/-- Port receive channels of an enabled receive stream: first and count. -/
def rxChannels (v : Word) : Nat × Nat := (fieldOf v 15 7, fieldOf v 8 6 + 1)

/-- Whether a receive stream's configuration keeps R328 and R329. -/
def State.rxFits (s : State) (i : Nat) (v : Word) : Bool :=
  let paired := decide (fieldOf v 30 1 = 1)
  let nch := if paired then s.fld (Reg.STRM_RX_CFG (fieldOf v 22 5)) 8 6 + 1 else fieldOf v 8 6 + 1
  let size := decide (nch * fieldOf v 0 8 * fmtBytes (fieldOf v 28 2) ≤ 1440)
  let port := fieldOf v 27 1
  let a := rxChannels v
  let clash := (List.range 32).any (fun j =>
    let w := s.reg (Reg.STRM_RX_CFG j)
    let b := rxChannels w
    decide (j ≠ i) && decide (fieldOf w 31 1 = 1) && decide (fieldOf w 30 1 = 0) && decide (fieldOf w 27 1 = port) &&
      decide (a.1 < b.1 + b.2) && decide (b.1 < a.1 + a.2))
  sppOk v && size && (!paired || decide (port = 1)) &&
    (decide (fieldOf v 31 1 = 0) || paired || (decide (a.1 + a.2 ≤ if s.rate2x then 64 else 128) && !clash))

/-- STRM_RXs_CFG (R330). -/
def actRxCfg (i : Nat) (s : State) (r : RegRow) (old v : Word) : State :=
  let new := r.store old v
  let was := decide (fieldOf old 31 1 = 1)
  let same := decide (setFieldOf new 31 1 0 = setFieldOf old 31 1 0)
  if was ∧ ¬ same then s.strmRefuse
  else if ¬ (same ∧ fieldOf new 31 1 = 0) ∧ s.rxFits i new = false then s.strmRefuse
  else
    let s1 := s.setReg (Reg.STRM_RX_CFG i) new
    if was = decide (fieldOf new 31 1 = 1) then s1
    else s1.setRx i RxStream.reset

/-- Channels of a port's enabled transmit streams other than `i`. -/
def State.txChannels (s : State) (i port : Nat) : Nat :=
  (((List.range 16).map (fun k => 16 * port + k)).filter (fun k => decide (k ≠ i) && s.bit (Reg.STRM_TX_CFG k) 31)).foldl
    (fun a k => a + s.queueChannels (8 + k)) 0

/-- Whether a transmit stream's configuration keeps R328 to R330. -/
def State.txFits (s : State) (i : Nat) (v : Word) : Bool :=
  let c := s.queueChannels (8 + i)
  let on := decide (fieldOf v 31 1 = 1)
  let dual := decide (fieldOf v 30 1 = 1)
  sppOk v && (!dual || decide (i < 16)) && !(dual && decide (i < 16) && s.bit (Reg.STRM_TX_CFG (i + 16)) 31) &&
    (!on || (decide (c ≤ 64) && decide (c * fieldOf v 0 8 * fmtBytes (fieldOf v 28 2) ≤ 1440) &&
      decide (s.txChannels i (i / 16) + c ≤ if s.rate2x then 128 else 256) &&
      !(decide (16 ≤ i) && s.bit (Reg.STRM_TX_CFG (i - 16)) 30)))

/-- STRM_TXs_CFG (R330). -/
def actTxCfg (i : Nat) (s : State) (r : RegRow) (old v : Word) : State :=
  let new := r.store old v
  let was := decide (fieldOf old 31 1 = 1)
  let same := decide (setFieldOf new 31 1 0 = setFieldOf old 31 1 0)
  if was ∧ ¬ same then s.strmRefuse
  else if ¬ (same ∧ fieldOf new 31 1 = 0) ∧ s.txFits i new = false then s.strmRefuse
  else
    let s1 := s.setReg (Reg.STRM_TX_CFG i) new
    if was = decide (fieldOf new 31 1 = 1) then s1
    else
      let d := s1.draw 16
      d.2.setTx i { TxStream.reset with seq := d.1 }

/-- A register of a stream other than its CFG: refused while the stream is enabled (R330). -/
def actStreamReg (cfg off : Nat) (s : State) (r : RegRow) (old v : Word) : State :=
  if s.bit cfg 31 ∧ r.store old v ≠ old then s.strmRefuse else s.setReg off (r.store old v)

/-- The rule of a register of the STRM page. -/
def strmAct (off : Nat) : State → RegRow → Word → Word → State :=
  let o := off - 0x18000
  if 0x100 ≤ o ∧ o < 0x300 then
    (if o % 16 = 0 then actRxCfg ((o - 0x100) / 16) else actStreamReg (Reg.STRM_RX_CFG ((o - 0x100) / 16)) off)
  else if 0x300 ≤ o ∧ o < 0x700 then
    (if o % 32 = 0 then actTxCfg ((o - 0x300) / 32) else actStreamReg (Reg.STRM_TX_CFG ((o - 0x300) / 32)) off)
  else storeAct off

/-- STREAM_CONFIG_WRITE (R330): a write of a stream's register, `o` bytes after the first of them. -/
def execStreamConfigWrite (path : Path) (o : Fin 0x600) (v : Word) (s : State) : Host.Outcome State Fault Refusal :=
  .next (s.hostWrite (.host path) (0x18100 + o) v (strmAct (0x18100 + o)))

/-- A refused write of the NMID page. -/
def State.nmidRefuse (s : State) : State := (s.setBit Reg.NMID_STAT 31 true).pageErrFlag Page.nmid 0

/-- NMID_SESSn_CFG (R335): a session that is installed starts with an empty window; the session of a pair shares its partner's. -/
def actSessCfg (n : Nat) (s : State) (r : RegRow) (old v : Word) : State :=
  if n < 16 ∧ fieldOf v 30 1 = 1 then s.nmidRefuse
  else
    let s1 := s.setReg (Reg.NMID_SESS_CFG n) (r.store old v)
    let was := decide (fieldOf old 31 1 = 1)
    let on := decide (fieldOf v 31 1 = 1)
    if on ∧ ¬ was then
      let src := s1.sessionSource n
      let t : State := { s1 with net := { s1.net with cleared := s1.net.cleared.filter (fun k => decide (k ≠ n)) } }
      let shared := (List.range 32).any (fun k => decide (k ≠ n) && t.bit (Reg.NMID_SESS_CFG k) 31 && decide (t.sessionSource k = src))
      if shared then t
      else (t.setWindow src { SessWin.none with installed := true }).setReg (Reg.NMID_SESS_SEQ src) 0
    else if was ∧ ¬ on then
      { s1 with net := { s1.net with cleared := s1.net.cleared.filter (fun k => decide (k ≠ n)) ++ [n] } }
    else s1

/-- NMID_SESSn_ADDR and NMID_SESSn_PORT (R335). -/
def actSessAddr (n off : Nat) (s : State) (r : RegRow) (old v : Word) : State :=
  if s.bit (Reg.NMID_SESS_CFG n) 31 then s.nmidRefuse
  else s.setReg off (r.store old v)

/-- SESSION_ENABLE (R335): NMID_SESSn_CFG with EN set. -/
def execSessionEnable (path : Path) (n : Fin 32) (v : Word) (s : State) : Host.Outcome State Fault Refusal :=
  .next (s.hostWrite (.host path) (Reg.NMID_SESS_CFG n) (setFieldOf v 31 1 1) (actSessCfg n))

/-- SESSION_DISABLE (R335): NMID_SESSn_CFG with EN clear. -/
def execSessionDisable (path : Path) (n : Fin 32) (v : Word) (s : State) : Host.Outcome State Fault Refusal :=
  .next (s.hostWrite (.host path) (Reg.NMID_SESS_CFG n) (setFieldOf v 31 1 0) (actSessCfg n))

/-- SESSION_ADDRESS_WRITE (R335): NMID_SESSn_PORT or, otherwise, NMID_SESSn_ADDR. -/
def execSessionAddressWrite (path : Path) (n : Fin 32) (isPort : Bool) (v : Word) (s : State) : Host.Outcome State Fault Refusal :=
  let off := if isPort then Reg.NMID_SESS_PORT n else Reg.NMID_SESS_ADDR n
  .next (s.hostWrite (.host path) off v (actSessAddr n off))

end Sys2Proof.Machine
end

