-- ==== Sys2Proof/Machine/Tdm.lean ====
section
/-! DEFINITION. The TDM ports and their commands (R349 to R351). -/

namespace Sys2Proof.Machine

/-- A TDM port's state. -/
def State.tdmPort (s : State) (p : Nat) : TdmPort := Sparse.get (fun _ => TdmPort.reset) s.net.tdm p

/-- Replaces it. -/
def State.setTdmPort (s : State) (p : Nat) (x : TdmPort) : State :=
  { s with net := { s.net with tdm := Sparse.put (fun _ => TdmPort.reset) s.net.tdm p x } }

/-- Whether a port is a master. -/
def State.tdmMaster (s : State) (p : Nat) : Bool := s.bit (Reg.TDM_P_CFG p) 1

/-- Slots of a port's frame. -/
def State.tdmSlots (s : State) (p : Nat) : Nat := 2 * 2 ^ s.fld (Reg.TDM_P_CFG p) 2 2

/-- Data bits of a slot. -/
def State.tdmWidth (s : State) (p : Nat) : Nat :=
  match s.fld (Reg.TDM_P_CFG p) 4 2 with
  | 0 => 16
  | 1 => 24
  | _ => 32

/-- A slot's word cut to its data bits. -/
def State.tdmCut (s : State) (p : Nat) (w : Word) : Word :=
  let z := 32 - s.tdmWidth p
  BitVec.ofNat 32 (w.toNat / 2 ^ z * 2 ^ z)

/-- EN of a port as applied at a block boundary (R349, R353). -/
def State.tdmApply (s : State) (p : Nat) : State :=
  let on := s.bit (Reg.TDM_P_CFG p) 0 && s.pageOn Page.tdm
  if on = (s.tdmPort p).on then s
  else (s.setTdmPort p { TdmPort.reset with on := on }).setBit (Reg.TDM_P_STAT p) 0 (on && s.tdmMaster p)

/-- Free values for the slots of a frame that its queue has no channel for (R349 requires as many channels as slots). -/
def State.drawSlots (s : State) : Nat → State × List Word
  | 0 => (s, [])
  | n + 1 =>
    let d := s.draw 32
    let r := d.2.drawSlots n
    (r.1, BitVec.ofNat 32 d.1 :: r.2)

/-- A port takes the sample `t` that its queue has released; a sample with VALID 0 is zeros (R350). -/
def State.tdmSample (s : State) (p t : Nat) : State :=
  let x := s.tdmPort p
  if x.on = false then s
  else
    let q := s.queue (1 + p)
    let n := s.tdmSlots p
    let v := if q.outValid then q.outV.take n else List.replicate n 0
    let d := s.drawSlots (n - v.length)
    d.1.setTdmPort p { x with recent := ((t, v ++ d.2) :: x.recent).take 3 }

/-- A frame carries sample `t` in both directions. -/
def State.tdmCarry (s : State) (p t : Nat) (din : List Word) : State :=
  let n := s.tdmSlots p
  let out := (((s.tdmPort p).recent.find? (fun e => decide (e.1 = t))).map (fun e => e.2)).getD (List.replicate n 0)
  let s1 := (s.send (.tdm p (out.map (s.tdmCut p)))).count 495 1
  (List.range n).foldl (fun u k => u.portSample 0 (16 * p + k) t false (s.tdmCut p ((din[k]?).getD 0))) s1

/-- TDM_FRAME (R350, R351): the end of a frame of port `p` whose leading edge came at MT `edge`; a master's edges are its own. A slave that
has not locked counts the frame and carries nothing. -/
def execTdmFrame (p : Fin 4) (din : List Word) (edge : BitVec 64) (wrongLength : Bool) (s : State) : Host.Outcome State Fault Refusal :=
  let x := s.tdmPort p
  if x.on = false ∨ s.running = false ∨ s.sample = 0 ∨ s.pwr.vioB = false then .next s
  else if s.tdmMaster p then .next (s.tdmCarry p (s.sample - 1) din)
  else if s.bit (Reg.TDM_P_STAT p) 0 = false then .next (s.setTdmPort p { x with frames := x.frames + 1 })
  else
    let t := (edge.toNat + 128 - x.phase) / 256
    if s.sample ≤ t then .next s
    else
      let off := match x.last with
        | some l => decide (t ≠ l + 1)
        | none => false
      let k := s.detect Page.tdm 0 p p (off || wrongLength)
      let s1 := if k.hit then (((k.st.setBit (Reg.TDM_P_STAT p) 1 true).bump Reg.TDM_SLIP_CNT).raise Page.tdm 0) else k.st
      .next ((s1.setTdmPort p { x with last := some t }).tdmCarry p t din)

/-- TDM_LOCK (R351): after 16 frames a slave has measured the phase of its frame sync and locks. -/
def execTdmLock (p : Fin 4) (phase : BitVec 8) (s : State) : Host.Outcome State Fault Refusal :=
  let x := s.tdmPort p
  if x.on = false ∨ s.tdmMaster p ∨ x.frames < 16 ∨ s.bit (Reg.TDM_P_STAT p) 0 then .next s
  else .next ((s.setTdmPort p { x with phase := phase.toNat, last := none }).setBit (Reg.TDM_P_STAT p) 0 true)

/-- TDM_BCLK_LOSS (R351): a slave loses BCLK. -/
def execTdmBclkLoss (p : Fin 4) (s : State) : Host.Outcome State Fault Refusal :=
  let x := s.tdmPort p
  if x.on = false ∨ s.tdmMaster p then .next s
  else .next ((s.setTdmPort p { x with frames := 0, last := none }).setBit (Reg.TDM_P_STAT p) 0 false)

/-- TDM_Pp_CFG (R349): refused for 16 slots at double rate, and for any change other than of EN while EN is 1. -/
def actTdmCfg (p : Nat) (s : State) (r : RegRow) (old v : Word) : State :=
  let new := r.store old v
  if (fieldOf new 2 2 = 3 ∧ s.rate2x) ∨ (fieldOf old 0 1 = 1 ∧ fieldOf new 1 31 ≠ fieldOf old 1 31) then s.tdmRefuse
  else s.setReg (Reg.TDM_P_CFG p) new

/-- TDM_CONFIG_WRITE (R349). -/
def execTdmConfigWrite (path : Path) (p : Fin 4) (v : Word) (s : State) : Host.Outcome State Fault Refusal :=
  .next (s.hostWrite (.host path) (Reg.TDM_P_CFG p) v (actTdmCfg p))

end Sys2Proof.Machine
end

