-- ==== Sys2Proof/Machine/Power.lean ====
section
/-! DEFINITION. Clocks' and supplies' faults, resets, temperature, standby and the heartbeat, and their commands
(R356, R370, R371, R380, R399 to R402, R413 to R420). -/

namespace Sys2Proof.Machine

/-! ### Module restart (R371, R401, R402, R427) -/

/-- The module as reset leaves it, with what lies outside it: the queue of commands, the record of what was sent, the free values drawn,
the fuse, and the levels of the supplies and of OUTCLR. -/
def State.afterReset (s : State) : State :=
  let base : State := { State.reset with
    pending := s.pending, out := s.out, draws := s.draws
    pwr := { Power.reset with vioA := s.pwr.vioA, vioB := s.pwr.vioB, fuse := s.pwr.fuse } }
  let s1 := base.setBit Reg.PWR_STAT 1 (s.bit Reg.PWR_STAT 1)
  let s2 := (s1.setBit Reg.DAC_STAT 2 (s.bit Reg.DAC_STAT 2)).setBit Reg.DAC_STAT 1 (s.bit Reg.DAC_STAT 1)
  let s3 := if s.bit Reg.DAC_STAT 1 then s2.setBit Reg.DAC_STAT 0 true else s2
  let s4 := s3.setBit Reg.BOOT_FUSE_STAT 0 (!s.pwr.fuse.isEmpty)
  s.pwr.fuse.zipIdx.foldl (fun t e => t.setReg (Reg.BOOT_FUSE_DATA e.2) e.1) s4

/-- A module restart, with its cause as a bit of PWR_RST_CAUSE, after an injection or not. The registers that R427 names are kept. -/
def State.moduleRestart (s : State) (cause : Nat) (inj : Bool) : State :=
  let t := s.afterReset
  let t1 := t.setReg Reg.PWR_RST_CAUSE (s.reg Reg.PWR_RST_CAUSE)
  let t2 := (t1.setBit Reg.PWR_RST_CAUSE cause true).setBit Reg.PWR_RST_CAUSE 6 inj
  let t3 := (t2.setReg Reg.PWR_RESTART_CNT (s.reg Reg.PWR_RESTART_CNT)).bump Reg.PWR_RESTART_CNT
  t3.setFld Reg.PWR_RAIL_STAT 8 4 (s.fld Reg.PWR_RAIL_STAT 8 4)

/-- POWER_ON_RESET (R399, R401): VIN rises through its threshold, and the module starts; or falls, and the module is held in reset. -/
def execPowerOnReset (rises : Bool) (s : State) : Host.Outcome State Fault Refusal :=
  let t := s.afterReset
  .next { t with pwr := { t.pwr with held := !rises } }

/-- WATCHDOG_EXPIRY (R356, R371): a clock domain has been silent for 1 ms. -/
def execWatchdogExpiry (s : State) : Host.Outcome State Fault Refusal :=
  if s.pwr.held ∨ s.pwr.thermalOff then .next s else .next ((s.logError 0x0700 0 0 false).moduleRestart 1 false)

/-- A rail fault (R420). -/
def State.railFault (s : State) (rail : Nat) (inj : Bool) : State :=
  let t := (((s.setFld Reg.PWR_RAIL_STAT 8 4 rail).raise Page.pwr 2).pageErr Page.pwr).logError 0x0302 rail rail inj
  t.moduleRestart 3 inj

/-- RAIL_FAULT (R420): the rail in the order of PWR_RAIL_STAT. -/
def execRailFault (rail : Fin 8) (s : State) : Host.Outcome State Fault Refusal :=
  if s.pwr.held ∨ s.pwr.thermalOff then .next s else .next (s.railFault rail false)

/-- PWR_CTRL (R401, R415): MRST with its key performs a module restart; WAKE is a wake event. -/
def actPwrCtrl (s : State) (_ : RegRow) (_ v : Word) : State :=
  if fieldOf v 1 1 = 1 ∧ fieldOf v 16 16 = 0x5253 then s.moduleRestart 5 false
  else if fieldOf v 0 1 = 1 then s.wakeEvent 1
  else s

/-- MODULE_RESTART_REQUEST (R401): a write of PWR_CTRL with MRST. -/
def execModuleRestartRequest (path : Path) (v : Word) (s : State) : Host.Outcome State Fault Refusal :=
  .next (s.hostWrite (.host path) Reg.PWR_CTRL (setFieldOf v 1 1 1) actPwrCtrl)

/-! ### PLLs (R34, R356, R370) -/

/-- The media PLL is out of lock: the analog outputs clamp. -/
def State.mediaPllLost (s : State) : State := ((s.setBit Reg.CLK_MEDIA_STAT 7 false).setBit Reg.CLK_PLL_STAT 3 false).dacAll

/-- The link of a port PLL goes down. -/
def State.portPllLost (s : State) (pll : Nat) : State :=
  let t := s.setBit Reg.CLK_PLL_STAT pll false
  if pll = 4 then t.setFld Reg.PCI_STAT 0 8 0
  else if t.bit (Reg.NET_STAT (pll - 5)) 0 then
    let d := t.draw 32
    d.2.linkChange (pll - 5) false false (BitVec.ofNat 32 d.1) false
  else t

/-- A PLL loses lock; the number is its bit in CLK_PLL_STAT. -/
def State.pllLost (s : State) (pll : Nat) (inj : Bool) : State :=
  let ident := if pll < 3 then 0x0200 else if pll = 3 then 0x0201 else 0x0202
  let t := ((s.raise Page.clk 1).pageErr Page.clk).logError ident pll pll inj
  if pll < 3 then t.moduleRestart 2 inj else if pll = 3 then t.mediaPllLost else t.portPllLost pll

/-- PLL_LOCK_LOSS (R34, R370). -/
def execPllLockLoss (pll : Fin 7) (s : State) : Host.Outcome State Fault Refusal :=
  if s.bit Reg.CLK_PLL_STAT pll = false then .next s else .next (s.pllLost pll false)

/-- PLL_RELOCK (R356): a PLL gains lock; `gen` and `width` are what a PCIe link trains to. -/
def execPllRelock (pll : Fin 7) (gen width : Fin 4) (s : State) : Host.Outcome State Fault Refusal :=
  if s.bit Reg.CLK_PLL_STAT pll ∨ s.pwr.held ∨ s.pwr.thermalOff then .next s
  else
    let t := s.setBit Reg.CLK_PLL_STAT pll true
    if pll.val = 3 then
      let u : State := { t.setBit Reg.CLK_MEDIA_STAT 7 true with clk := { t.clk with famRelock := false } }
      .next (if s.clk.famRelock then (if u.run then u.acquire else u.setPll 0) else u)
    else if pll.val = 4 then .next ((t.setFld Reg.PCI_STAT 0 4 gen).setFld Reg.PCI_STAT 4 4 width)
    else .next t

/-! ### VIO banks (R399, R439) -/

/-- A host SPI transaction that is not performed is recorded (R347). -/
def State.spiFrameError (s : State) (cmd clocks : Nat) (inj : Bool) : State :=
  let t := (((s.setReg Reg.HSP_ERR_INFO (BitVec.ofNat 32 (2 ^ 31 + min 0xFFFF clocks * 2 ^ 8 + cmd % 256))).bump Reg.HSP_FRAME_ERR_CNT).raise
    Page.hsp 0).logError 0x1B00 0 cmd inj
  { t with net := { t.net with spi := { t.net.spi with frameErr := true } } }

/-- VIO_BANK_CHANGE (R399): bank A, or B, falls below 1.6 V or rises above it. A fall of A in the middle of a host SPI transaction makes
it a framing error; a fall of B takes the clock from every TDM slave. -/
def execVioBankChange (bankB up : Bool) (txn : Option (BitVec 8 × Nat)) (s : State) : Host.Outcome State Fault Refusal :=
  if bankB then
    let t : State := { s with pwr := { s.pwr with vioB := up } }
    .next (if up then t else (List.range 4).foldl (fun u p =>
      if (u.tdmPort p).on ∧ u.tdmMaster p = false then
        (u.setTdmPort p { u.tdmPort p with frames := 0, last := none }).setBit (Reg.TDM_P_STAT p) 0 false
      else u) t)
  else
    let t : State := { s with pwr := { s.pwr with vioA := up } }
    match txn with
    | some x => .next (if up ∨ s.pwr.vioA = false ∨ s.serving = false then t else t.spiFrameError x.1.toNat x.2 false)
    | none => .next t

/-! ### Temperature (R418, R419) -/

/-- The warning threshold in quarter degrees. -/
def State.warnAt (s : State) : Int := 4 * (max 60 (min 105 (s.fld Reg.PWR_THERM_CFG 0 8)) : Nat)

/-- The warning is raised. -/
def State.thermWarn (s : State) (inj : Bool) : State :=
  ((s.raise Page.pwr 0).pageErr Page.pwr).logError 0x0300 0 (s.fld Reg.PWR_TEMP 0 12) inj

/-- THERMAL_CRIT, with its actions. -/
def State.thermCrit (s : State) (inj : Bool) : State :=
  let t := (((s.raise Page.pwr 1).pageErr Page.pwr).logError 0x0301 0 (s.fld Reg.PWR_TEMP 0 12) inj).setSwclr true
  if t.run then t.requestStop else t

/-- Thermal shutdown: every rail but VPLL is off, and nothing but the supervisor goes on. -/
def State.thermalShutdown (s : State) : State :=
  let t := s.afterReset
  let u : State := { t with pwr := { t.pwr with thermalOff := true } }
  let kept := [Reg.PWR_RST_CAUSE, Reg.PWR_RESTART_CNT, Reg.PWR_TEMP].foldl (fun w r => w.setReg r (s.reg r)) u
  (kept.setReg Reg.PWR_RAIL_STAT (BitVec.ofNat 32 (s.fld Reg.PWR_RAIL_STAT 8 4 * 256 + 8))).setBit Reg.PWR_STAT 0 false

/-- CUR and PEAK of PWR_TEMP. -/
def State.setTemp (s : State) (t : BitVec 12) : State :=
  let peak := signedOf 12 (s.fld Reg.PWR_TEMP 16 12)
  let s1 := s.setFld Reg.PWR_TEMP 0 12 t.toNat
  if peak < t.toInt then s1.setFld Reg.PWR_TEMP 16 12 t.toNat else s1

/-- THERMAL_SAMPLE (R418, R419): the highest sensor, in quarter degrees. -/
def execThermalSample (temp : BitVec 12) (s : State) : Host.Outcome State Fault Refusal :=
  let c := temp.toInt
  if s.pwr.held then .next s
  else if s.pwr.thermalOff then
    if c < 4 * 95 then .next ((s.setTemp temp).moduleRestart 4 false) else .next (s.setTemp temp)
  else
    let s0 := s.setTemp temp
    let warm := decide (s0.warnAt ≤ c)
    let s1 := if warm ∧ s0.pwr.warned = false then s0.thermWarn false else s0
    let s2 : State := { s1 with pwr := { s1.pwr with warned := warm || (s0.pwr.warned && decide (s0.warnAt - 20 < c)) } }
    let hot := decide (4 * 110 ≤ c)
    let s3 := if hot ∧ s2.pwr.critical = false then s2.thermCrit false else s2
    let s4 : State := { s3 with pwr := { s3.pwr with critical := hot } }
    .next (if 4 * 120 ≤ c then s4.thermalShutdown else s4)

/-- PWR_TEMP: writing 1 to CLR sets PEAK to CUR. -/
def actPwrTemp (s : State) (_ : RegRow) (_ v : Word) : State :=
  if fieldOf v 31 1 = 1 then s.setFld Reg.PWR_TEMP 16 12 (s.fld Reg.PWR_TEMP 0 12) else s

/-! ### Standby (R413 to R417) -/

/-- WAKE_PIN (R415): an edge of the WAKE pin held for 1 µs; the pin is on VIO_A. -/
def execWakePin (rising : Bool) (s : State) : Host.Outcome State Fault Refusal :=
  if s.pwr.vioA = false ∨ s.bit Reg.PWR_WAKE_CFG 0 = false ∨ s.bit Reg.PWR_WAKE_CFG 1 ≠ rising then .next s else .next (s.wakeEvent 0)

/-- WAKE_REQUEST (R415): a write of PWR_CTRL with WAKE. -/
def execWakeRequest (path : Path) (v : Word) (s : State) : Host.Outcome State Fault Refusal :=
  .next (s.hostWrite (.host path) Reg.PWR_CTRL (setFieldOf v 0 1 1) actPwrCtrl)

/-- STANDBY_REACHED (R413, R414): after media time has stopped and the analog outputs are clamped, the Timetable and every slot are emptied,
the cores stop, VCORE goes off and STATE becomes STANDBY; a wake event that came meanwhile begins the wake. -/
def execStandbyReached (s : State) : Host.Outcome State Fault Refusal :=
  if s.powerState ≠ 1 ∨ s.running ∨ s.dacClamped = false then .next s
  else
    let s0 := s.discardEntries (fun _ => true)
    let s1 := (s0.liveSlots.map (fun e => e.1)).foldl (fun u x =>
      let v := u.slot x
      u.leave x ((v.lastCommit).getD v.firstBlock) 5) s0
    let s2 : State := { s1 with
      pwr := { s1.pwr with served := s1.inService }
      sch := { s1.sch with tasks := s1.sch.tasks.filter (fun t => !t.live) } }
    let s3 := ((s2.setBit Reg.PWR_RAIL_STAT 0 false).setFld Reg.PWR_STAT 8 3 2).svcFinish false false false
    .next (if s.pwr.wakePending then s3.setFld Reg.PWR_STAT 8 3 3 else s3)

/-- A core at the end of standby: its data memories and registers are lost, its program memory is kept. -/
def State.coreReset (s : State) (n : Nat) : State :=
  let fx := s.newFrame
  let fy := fx.1.newFrame
  let r := fy.1.newFrame
  r.1.updCore n (fun c => { Core.reset with
    svc := c.svc, prog := c.prog, held := c.held, copyFrom := c.copyFrom, gen := r.2.gen
    bufA := { TaskBuf.reset with x := fx.2, y := fy.2 } })

/-- WAKE_COMPLETE (R416): 4.0 ms after the wake event. The cores that were in service are reset and re-enter service; those of `bad` fail the
check of their program memory and take the core-fault path. -/
def execWakeComplete (bad : List (Fin 34)) (s : State) : Host.Outcome State Fault Refusal :=
  if s.powerState ≠ 3 then .next s
  else
    let s1 := (s.setFld Reg.PWR_STAT 8 3 0).setBit Reg.PWR_RAIL_STAT 0 true
    let s2 := s.pwr.served.foldl (fun u n => u.enterService n) ((List.range 34).foldl (fun u n => u.coreReset n) s1)
    let s3 := (bad.filter (fun n => s.pwr.served.contains n.val)).foldl (fun u n => u.coreFault n) s2
    let s4 : State := { s3 with pwr := { s3.pwr with served := [], wakePending := false } }
    let s5 := if s.pwr.ingWas then s4.startPage Page.ing else s4
    .next ((s5.bump Reg.PWR_WAKE_CNT).raise Page.pwr 3)

/-! ### Host heartbeat (R380) -/

/-- IRQ_HB_CFG.ACT, 0b11 as 0b00. -/
def State.hbAct (s : State) : Nat := s.fld Reg.IRQ_HB_CFG 16 2 % 3

/-- The heartbeat expires. -/
def State.heartbeatLost (s : State) (inj : Bool) : State :=
  let t := ((s.raise Page.irq 0).bump Reg.IRQ_HB_LOST_CNT).logError 0x0600 0 0 inj
  if s.hbAct = 1 then State.clearForced { t with pwr := { t.pwr with hbClear := true } } (!s.pwr.hbClear)
  else if s.hbAct = 2 ∧ t.run then t.requestStop
  else t

/-- HEARTBEAT_EXPIRY (R380). -/
def execHeartbeatExpiry (s : State) : Host.Outcome State Fault Refusal :=
  if s.fld Reg.IRQ_HB_CFG 0 16 = 0 ∨ s.serving = false then .next s else .next (s.heartbeatLost false)

/-- IRQ_HB_KICK (R380). -/
def actHbKick (s : State) (_ : RegRow) (_ _ : Word) : State :=
  if s.pwr.hbClear then State.clearForced { s with pwr := { s.pwr with hbClear := false } } false else s

/-- HEARTBEAT_KICK (R380). -/
def execHeartbeatKick (path : Path) (v : Word) (s : State) : Host.Outcome State Fault Refusal :=
  .next (s.hostWrite (.host path) Reg.IRQ_HB_KICK v actHbKick)

end Sys2Proof.Machine
end

