-- ==== Sys2Proof/Machine/Pages.lean ====
section
/-! DEFINITION. What every page has: its control and interrupt registers, its draining, its injections; and the fences of the GLB page
(R354, R355, R357, R378, R421 to R434). -/

namespace Sys2Proof.Machine

/-! ### Draining (R66, R98, R123, R124, R149, R240, R265 to R268, R289, R321, R353 to R355, R392, R420) -/

/-- What a block does at once when its page is disabled. -/
def State.stopPage (s : State) (p : Nat) : State :=
  let t := s.draining p
  let now := s.period
  if p = Page.svc then (if t.svcBusy then t.svcAbort else t)
  else if p = Page.err then
    s.regs.foldl (fun u e => if e.1 % 0x1000 = 0x1C then u.setBit e.1 30 false else u) t
  else if p = Page.ing then t.stopIngress
  else if p = Page.spf then t.stopStreams
  else if p = Page.mix then
    { t with mix := { t.mix with
      stopFrom := some (if s.running = false then 0 else if s.clk.voiceSumDone = now + 1 then now + 2 else now + 1) } }
  else if p = Page.dec then
    let bus := if s.clk.finalSumDone = now + 1 then now + 2 else now + 1
    { t with dec := { t.dec with stopBus := some (bus * s.blk), stopCap := some ((now + 1) * s.blk) } }
  else if p = Page.ort then { t with ort := { t.ort with stopping := true } }
  else if p = Page.oq then queueNumbers.foldl (fun u q => u.stopQueue q) t
  else if p = Page.dac then t.dacReleaseAll
  else if p = Page.con then t.stopTest
  else if p = Page.ptp then
    let u := t.setPtp 0 0 false (t.bit Reg.PTP_STAT 5) (t.bit Reg.PTP_STAT 6)
    let v : State := { u with net := { u.net with standby := false } }
    if v.qualified .gptp then
      let d := v.draw 32
      d.2.loseSource .gptp (BitVec.ofNat 32 d.1) false
    else v
  else if p = Page.pci then { t with net := { t.net with hso := [] } }
  else if 0x20 ≤ p then (t.updCore (p - 0x20) (fun c => { c with held := true })).showSpares 0
  else t

/-- Whether a draining block has finished. -/
def State.pageDone (s : State) (p : Nat) : Bool :=
  if p = Page.clk then !s.running
  else if p = Page.svc then !s.svcBusy
  else if p = Page.pmu then s.dump.snap.isNone
  else if p = Page.ing then
    s.ing.tt.isEmpty || !s.running || !s.run || decide ((s.ing.stopPeriod.getD 0) + 3 ≤ s.clk.boundaryDone)
  else if p = Page.va then s.liveSlots.isEmpty
  else if p = Page.ps then s.pool.hostWrites.isEmpty
  else if p = Page.mm then
    s.mm.holding || !s.running || (s.toEvaluate (s.period + 2) (decide (s.period < s.clk.expressDone))).isEmpty
  else if p = Page.sch then s.sch.tasks.all (fun t => !t.live)
  else if p = Page.mix then s.mix.stopFrom.isNone || !s.running
  else if p = Page.dec then
    !s.running || (decide ((s.dec.stopBus.getD 0) + 32 ≤ s.clk.finalSumDone * s.blk) && decide ((s.dec.stopCap.getD 0) + 32 ≤ s.sample))
  else if p = Page.ort then !s.ort.stopping || !s.running
  else if p = Page.oq then queueNumbers.all (fun q => !(s.queue q).stopping)
  else if p = Page.dac then s.dacClamped
  else true

/-- PAGE_IDLE (R354): a draining block has finished; IDLE is set, and a write of EN that came meanwhile is applied. -/
def execPageIdle (p : Fin 66) (s : State) : Host.Outcome State Fault Refusal :=
  if s.bit (Reg.PAGE_STAT p) 1 = false ∨ s.pageDone p = false then .next s
  else
    let s1 := if p.val = Page.ing then s.discardEntries (fun _ => true) else s
    let s2 : State := if p.val = Page.ort then { s1 with ort := { s1.ort with stopping := false } } else s1
    let s3 := if p.val = Page.tdm then (List.range 4).foldl (fun u k =>
      (u.setTdmPort k TdmPort.reset).setBit (Reg.TDM_P_STAT k) 0 false) s2 else s2
    .next (s3.idle p)

/-! ### PAGE_CTRL (R422 to R424) -/

/-- SRST (R424): the counters and flags that the tables name are cleared. -/
def State.softReset (s : State) (p : Nat) : State :=
  s.regs.foldl (fun t e =>
    if e.1 / 0x1000 = p then
      match rowOf e.1 with
      | some r => t.setReg e.1 (BitVec.ofNat 32 ((t.reg e.1).toNat ^^^ ((t.reg e.1).toNat &&& r.srst)))
      | none => t
    else t) s

/-- PAGE_CTRL. On the GLB page EN has no effect; of a core in service it cannot be cleared (R355). While the page drains, EN waits
(R354). -/
def actPageCtrl (p : Nat) (s : State) (_ : RegRow) (_ v : Word) : State :=
  let on := s.pageOn p
  let en := decide (fieldOf v 0 1 = 1)
  if 0x20 ≤ p ∧ on ∧ ¬ en ∧ (s.core (p - 0x20)).svc = 2 then s.pageErr p
  else
    let s1 := if fieldOf v 1 1 = 1 then s.softReset p else s
    let s2 := if fieldOf v 2 1 = 1 then s1.setBit (Reg.PAGE_CTRL p) 2 true else s1
    if p = Page.glb then s2.setBit (Reg.PAGE_CTRL p) 0 en
    else if on ∧ ¬ en then (s2.setBit (Reg.PAGE_CTRL p) 0 false).stopPage p
    else if on then s2
    else
      let s3 : State := { s2 with deferred := s2.deferred.filter (fun q => decide (q ≠ p)) }
      if en = false then s3
      else if s3.bit (Reg.PAGE_STAT p) 1 then { s3 with deferred := s3.deferred ++ [p] }
      else
        let s4 := s3.startPage p
        if 0x20 ≤ p then s4.showSpares 0 else s4

/-- A write of a page's PAGE_CTRL. -/
def State.writePageCtrl (s : State) (path : Path) (p : Nat) (v : Word) : State :=
  s.hostWrite (.host path) (Reg.PAGE_CTRL p) v (actPageCtrl p)

/-- PAGE_DISABLE (R354). -/
def execPageDisable (path : Path) (p : Fin 66) (v : Word) (s : State) : Host.Outcome State Fault Refusal :=
  .next (s.writePageCtrl path p (setFieldOf v 0 1 0))

/-- PAGE_ENABLE (R354). -/
def execPageEnable (path : Path) (p : Fin 66) (v : Word) (s : State) : Host.Outcome State Fault Refusal :=
  .next (s.writePageCtrl path p (setFieldOf v 0 1 1))

/-- PAGE_SOFT_RESET (R424). -/
def execPageSoftReset (path : Path) (p : Fin 66) (v : Word) (s : State) : Host.Outcome State Fault Refusal :=
  .next (s.writePageCtrl path p (setFieldOf v 1 1 1))

/-- PAGE_LOCK (R423). -/
def execPageLock (path : Path) (p : Fin 66) (v : Word) (s : State) : Host.Outcome State Fault Refusal :=
  .next (s.writePageCtrl path p (setFieldOf v 2 1 1))

/-! ### Interrupt registers (R378) -/

/-- PAGE_IRQ_EN: a source that it makes pending is delivered. -/
def actIrqEn (p : Nat) (s : State) (r : RegRow) (old v : Word) : State :=
  (s.setReg (Reg.PAGE_IRQ_EN p) (r.store old v)).deliverAll s ((irqBitsOfPage p).map (fun x => x.2)).eraseDups

/-- IRQ_MSI_EN_LO and IRQ_MSI_EN_HI. -/
def actMsiEn (off : Nat) (s : State) (r : RegRow) (old v : Word) : State :=
  (s.setReg off (r.store old v)).deliverAll s (List.range 64)

/-- The MSI-X table: a vector that is unmasked sends what waits for it. -/
def actMsix (off : Nat) (s : State) (r : RegRow) (old v : Word) : State := (s.setReg off (r.store old v)).flushMsix

/-- DBG_HIT: clearing VALID clears the record. -/
def actDbgHit (s : State) (_ : RegRow) (_ v : Word) : State := if fieldOf v 31 1 = 1 then s.setReg Reg.DBG_HIT 0 else s

/-- MM_EVAL_MAX and DRC_EXP_LAT: writing 1 to CLR clears the longest value. -/
def actClearMax (off : Nat) (s : State) (_ : RegRow) (_ v : Word) : State := if fieldOf v 31 1 = 1 then s.setReg off 0 else s

/-! ### Injection (R356, R357) -/

/-- How many detectors a page has (R356). -/
def detectorsOf (p : Nat) : Nat :=
  if p = Page.clk then 4
  else if p = Page.pwr ∨ p = Page.ing ∨ p = Page.oq then 3
  else if p = Page.boot ∨ p = Page.pmu ∨ p = Page.irq ∨ p = Page.err ∨ p = Page.spf ∨ p = Page.pci ∨ p = Page.hsp ∨ p = Page.tdm then 1
  else if p = Page.sch ∨ p = Page.dac ∨ p = Page.drc ∨ p = Page.neta ∨ p = Page.neta + 1 ∨ p = Page.strm then 2
  else if p = Page.con ∨ 0x20 ≤ p ∧ p < 0x42 then 4
  else 0

/-- An injection of a detector that watches its unit all the time fires at once, where there is something to detect: the PLLs, the
selected clock source, temperature, rails, the heartbeat, the watchdog, over-current, links and PCIe errors (R356, R357). -/
def State.fireNow (s : State) (p : Nat) : State :=
  let off := Reg.PAGE_ERR_INJ p
  if s.bit off 30 = false then s
  else
    let det := s.fld off 0 8
    let sub := s.fld off 16 8
    let fired := (s.setBit off 30 false).raise Page.err 0
    if p = Page.clk then
      let pll := if det = 0 then (if sub = 0xFF then some 0 else if sub < 3 then some sub else none)
        else if det = 1 then some 3
        else if det = 2 then (if sub = 0xFF then some (4 + (Config.freeValue s.draws).toNat % 3) else if 4 ≤ sub ∧ sub < 7 then some sub else none)
        else none
      if det = 3 then
        if s.source = .crystal ∨ s.qualified s.source = false then s
        else
          let d := fired.draw 32
          d.2.loseSource s.source (BitVec.ofNat 32 d.1) true
      else match pll with
        | some k => if s.bit Reg.CLK_PLL_STAT k then State.pllLost { fired with draws := fired.draws + 1 } k true else s
        | none => s
    else if p = Page.pwr then
      if det = 0 then fired.thermWarn true
      else if det = 1 then fired.thermCrit true
      else
        let d := fired.draw 3
        if sub < 8 then fired.railFault sub true else d.2.railFault d.1 true
    else if p = Page.irq then (if s.fld Reg.IRQ_HB_CFG 0 16 = 0 then s else fired.heartbeatLost true)
    else if p = Page.err then (fired.logError 0x0700 sub 0 true).moduleRestart 1 true
    else if p = Page.dac ∧ det = 1 then
      let d := fired.draw 4
      if sub = 0xFF then d.2.overcurrent (d.1 / 2) (decide (d.1 % 2 = 1)) true
      else if sub % 128 < 8 then fired.overcurrent (sub % 128) (decide (128 ≤ sub)) true
      else s
    else if (p = Page.neta ∨ p = Page.neta + 1) ∧ det = 1 then
      if s.bit (Reg.NET_STAT (p - Page.neta)) 0 then
        let d := fired.draw 32
        d.2.linkChange (p - Page.neta) false false (BitVec.ofNat 32 d.1) true
      else s
    else if p = Page.pci then ((fired.raise Page.pci 0).pageErr Page.pci).logError 0x1A00 sub 0 true
    else s

/-- PAGE_ERR_INJ: SUB and DET are stored; with GO the detector is armed, unless injection is not permitted, the page has no such detector or
one is armed (R357). -/
def actErrInj (p : Nat) (s : State) (r : RegRow) (old v : Word) : State :=
  let off := Reg.PAGE_ERR_INJ p
  if fieldOf v 31 1 = 0 then s.setReg off (r.store old v)
  else if s.bit Reg.ERR_CTRL 0 = false ∨ s.pageOn Page.err = false ∨ detectorsOf p ≤ fieldOf (r.store old v) 0 8 ∨ fieldOf old 30 1 = 1 then
    s.bump Reg.ERR_INJ_REJ_CNT
  else ((s.setReg off (r.store old v)).setBit off 30 true).fireNow p

/-- ERROR_INJECT_ARM (R357): a write of a page's PAGE_ERR_INJ with GO. -/
def execErrorInjectArm (path : Path) (p : Fin 66) (v : Word) (s : State) : Host.Outcome State Fault Refusal :=
  .next (s.hostWrite (.host path) (Reg.PAGE_ERR_INJ p) (setFieldOf v 31 1 1) (actErrInj p))

/-- IRQ_HB_CFG: an armed heartbeat injection fires once the timer runs. -/
def actHbCfg (s : State) (r : RegRow) (old v : Word) : State := (s.setReg Reg.IRQ_HB_CFG (r.store old v)).fireNow Page.irq

/-! ### GLB_FENCE (R430, R432, R448) -/

/-- GLB_FENCE: an event fence from no source; every earlier register write has taken effect by then. -/
def actGlbFence (s : State) (_ : RegRow) (_ v : Word) : State :=
  let all := decide (fieldOf v 8 1 = 1)
  let src := fieldOf v 0 6
  if (all = false ∧ 40 < src) ∨ 256 ≤ s.ing.fences.length then s.pageErrFlag Page.glb 1
  else
    let a := s.arrive
    (a.2.addFence
      { ident := fieldOf v 16 16, all := all, src := if all then 63 else src, glb := true, arr := s.clk.mt.toNat, seq := a.1, idx := a.2.ing.idx,
        notify := false, tag := 0, floor := 0 }).setReg Reg.GLB_FENCE_STAT (BitVec.ofNat 32 (fieldOf v 16 16))

/-- GLB_FENCE (R430, R432). -/
def execGlbFence (path : Path) (v : Word) (s : State) : Host.Outcome State Fault Refusal :=
  .next (s.hostWrite (.host path) Reg.GLB_FENCE v actGlbFence)

end Sys2Proof.Machine
end

