-- ==== Sys2Proof/Machine/Boot.lean ====
section
/-! DEFINITION. Start-up: the states of the boot sequencer, the check of a configuration image, the fuse (R298, R365, R403 to R412). -/

namespace Sys2Proof.Machine

/-! ### States (R403, R406, R410) -/

/-- The boot sequencer changes its state: BOOT_EVENT is raised. -/
def State.bootTo (s : State) (st : Nat) : State := (s.setFld Reg.BOOT_STAT 24 4 st).raise Page.boot 0

/-- An attempt begins: 1 image A, 2 image B, 3 the host's. -/
def State.attempt (s : State) (which : Nat) : State :=
  let t := (s.bump Reg.BOOT_ATTEMPT_CNT).bootTo which
  { t with pwr := { t.pwr with loading := which, triedB := if which = 3 then t.pwr.triedB else decide (which = 2) } }

/-- The flash image that comes after the one tried last. -/
def State.nextFlash (s : State) : Nat := if s.pwr.triedB then 1 else 2

/-- Whether image B is taken first (R406). -/
def bootFirstB (validA validB : Bool) (seqA seqB : Word) : Bool :=
  validB && (!validA || decide (0 < (seqB - seqA).toInt))

/-- BOOT_INIT_DONE (R298, R365, R403, R406): the cores whose start-up self-test passed, and what the two image headers in the flash show. -/
def execBootInitDone (passed : BitVec 34) (validA validB : Bool) (seqA seqB : Word) (s : State) : Host.Outcome State Fault Refusal :=
  if s.bootState ≠ 0 ∨ s.pwr.held ∨ s.pwr.thermalOff then .next s
  else
    let s1 := (List.range 3).foldl (fun t k => t.setBit Reg.CLK_PLL_STAT k true) s
    let s2 : State := { s1 with con := [], ctl := { s1.ctl with bad := [], badParity := [], writeBack := [] } }
    let good := (List.range 34).filter (fun n => passed.getLsbD n)
    let s3 := (good.take 32).foldl (fun t n => t.enterService n) s2
    let s4 := (good.drop 32).foldl (fun t n => t.updCore n (fun c => { c with svc := 1 })) s3
    .next (((s4.showSpares 0).applyHold false).attempt (if bootFirstB validA validB seqA seqB then 2 else 1))

/-- BACKOFF_EXPIRY (R403, R406): 100 ms after a failed attempt the other flash image is tried. -/
def execBackoffExpiry (s : State) : Host.Outcome State Fault Refusal :=
  if s.bootState ≠ 4 then .next s else .next (s.attempt s.nextFlash)

/-- A HOST_GO (R410, R420). -/
def State.hostGo (s : State) : State :=
  let st := s.bootState
  if s.pageOn Page.boot = false ∨ 5 ≤ st then s.setBit Reg.BOOT_STAT 8 true
  else if st = 4 then s.attempt 3
  else { s with pwr := { s.pwr with hostGo := true } }

/-- BOOT_CTRL. -/
def actBootCtrl (s : State) (r : RegRow) (old v : Word) : State :=
  let s1 := s.setReg Reg.BOOT_CTRL (r.store old v)
  if fieldOf v 8 1 = 1 then s1.hostGo else s1

/-- HOST_IMAGE_GO (R410): a write of BOOT_CTRL with HOST_GO. -/
def execHostImageGo (path : Path) (v : Word) (s : State) : Host.Outcome State Fault Refusal :=
  .next (s.hostWrite (.host path) Reg.BOOT_CTRL (setFieldOf v 8 1 1) actBootCtrl)

/-! ### The fuse (R409) -/

/-- The hash words of BOOT_FUSE_DATA. -/
def State.hashWords (s : State) : List Word := (List.range 8).map (fun i => s.reg (Reg.BOOT_FUSE_DATA i))

/-- BOOT_FUSE_CTRL: a request to program the fuse. -/
def actFuseCtrl (s : State) (_ : RegRow) (_ v : Word) : State :=
  if fieldOf v 0 1 = 0 then s
  else if fieldOf v 16 16 ≠ 0x4655 ∨ s.bootState ≠ 6 ∨ s.fld Reg.BOOT_FUSE_STAT 0 2 ≠ 0 ∨ s.hashWords.all (fun w => decide (w = 0)) then
    s.setBit Reg.BOOT_STAT 9 true
  else s.setBit Reg.BOOT_FUSE_STAT 1 true

/-- BOOT_FUSE_DATAi: read-only once a hash is fused, and while it is being programmed. -/
def actFuseData (i : Nat) (s : State) (r : RegRow) (old v : Word) : State :=
  if s.fld Reg.BOOT_FUSE_STAT 0 2 ≠ 0 then s else s.setReg (Reg.BOOT_FUSE_DATA i) (r.store old v)

/-- FUSE_PROGRAM (R409): a write of BOOT_FUSE_CTRL with PROG. -/
def execFuseProgram (path : Path) (v : Word) (s : State) : Host.Outcome State Fault Refusal :=
  .next (s.hostWrite (.host path) Reg.BOOT_FUSE_CTRL (setFieldOf v 0 1 1) actFuseCtrl)

/-- FUSE_PROGRAM_DONE (R409): 10 ms after its start. -/
def execFuseProgramDone (s : State) : Host.Outcome State Fault Refusal :=
  if s.bit Reg.BOOT_FUSE_STAT 1 = false then .next s
  else
    let t := (s.setBit Reg.BOOT_FUSE_STAT 1 false).setBit Reg.BOOT_FUSE_STAT 0 true
    .next { t with pwr := { t.pwr with fuse := s.hashWords } }

/-! ### CRC-32 (R212) -/

/-- One bit of the reflected CRC. -/
def crcBit (c : BitVec 32) : BitVec 32 := if c.getLsbD 0 then (c >>> 1) ^^^ 0xEDB88320#32 else c >>> 1

/-- One byte. -/
def crcByte (c : BitVec 32) (b : Byte) : BitVec 32 :=
  crcBit (crcBit (crcBit (crcBit (crcBit (crcBit (crcBit (crcBit (c ^^^ b.setWidth 32))))))))

/-- CRC-32 of IEEE 802.3. -/
def crc32 (b : List Byte) : BitVec 32 := ~~~ (b.foldl crcByte 0xFFFFFFFF#32)

/-- `n` bytes from `lo`, little-endian. -/
def leAt (b : List Byte) (lo n : Nat) : Nat := leNat ((b.drop lo).take n)

/-- The bytes with four of them, from `lo`, taken as 0. -/
def zero4 (b : List Byte) (lo : Nat) : List Byte := b.take lo ++ List.replicate 4 0 ++ b.drop (lo + 4)

/-! ### Nalmor objects (R212, R213) -/

/-- A section of an object. -/
structure Section where
  kind : Nat
  addr : Nat
  len : Nat
  offset : Nat
deriving DecidableEq, Repr

/-- The sections of an object. -/
def sectionsOf (b : List Byte) : List Section :=
  (List.range (leAt b 9 1)).map (fun i =>
    let o := 32 + 16 * i
    { kind := leAt b o 1, addr := leAt b (o + 4) 4, len := leAt b (o + 8) 4, offset := leAt b (o + 12) 4 })

/-- The bytes of a section. -/
def Section.data (x : Section) (b : List Byte) : List Byte := (b.drop x.offset).take x.len

/-- The 8-byte pieces of a byte string. -/
def eights (b : List Byte) : List (List Byte) := (List.range (b.length / 8)).map (fun i => (b.drop (8 * i)).take 8)

/-- Whether a byte range meets another. -/
def overlaps (a n b m : Nat) : Bool := decide (a < b + m) && decide (b < a + n)

/-- Whether an ENTRY record is valid: its kind, its index and an address inside a PROG section. -/
def entryOk (progs : List Section) (e : List Byte) : Bool :=
  let entry := leAt e 2 2
  decide (leAt e 0 1 < 2) && decide (leAt e 1 1 < 64) && decide (entry < 8192) && decide (leAt e 7 1 = 0) &&
    progs.any (fun x => decide (x.addr ≤ entry) && decide (entry < x.addr + x.len / 8))

/-- Whether one section is valid by itself. -/
def Section.ok (x : Section) (b : List Byte) (progs : List Section) : Bool :=
  decide (x.offset + x.len ≤ b.length) && decide (x.offset % 8 = 0) &&
    (if x.kind = 1 then decide (x.len % 8 = 0) && decide (x.addr + x.len / 8 ≤ 8192)
     else if x.kind = 2 then
       decide (x.addr % 4 = 0) && decide (x.len % 4 = 0) && decide (x.addr + x.len ≤ 0x2000000) &&
         !overlaps x.addr x.len 0x00800000 0x00660000
     else if x.kind = 3 then decide (x.addr = 0) && decide (x.len % 8 = 0) && (eights (x.data b)).all (entryOk progs)
     else decide (x.kind = 0x7F) && decide (x.addr = 0))

/-- No two of a list of PROG sections overlap. -/
def disjoint : List Section → Bool
  | [] => true
  | x :: xs => xs.all (fun y => !overlaps x.addr (x.len / 8) y.addr (y.len / 8)) && disjoint xs

/-- R213: whether an object is accepted. -/
def objectOk (b : List Byte) : Bool :=
  let secs := sectionsOf b
  let progs := secs.filter (fun x => decide (x.kind = 1))
  decide (leAt b 0 4 = 0x4F4D4C4E) && decide (leAt b 4 2 = 1) && decide (leAt b 6 2 ≤ 1) && decide (leAt b 8 1 < 16) &&
    decide (1 ≤ leAt b 9 1) && decide (leAt b 9 1 ≤ 32) && decide (leAt b 16 4 = b.length) && decide (b.length % 8 = 0) &&
    decide (32 + 16 * leAt b 9 1 ≤ b.length) && decide ((crc32 (zero4 b 24)).toNat = leAt b 24 4) &&
    secs.all (fun x => x.ok b progs) && disjoint progs

/-! ### Configuration images (R405, R407) -/

/-- The items of an image: `n` of them from byte `at_`; none where one does not fit within LEN. -/
def itemsFrom (b : List Byte) (len : Nat) : Nat → Nat → Option (List (Nat × List Byte))
  | 0, _ => some []
  | n + 1, at_ =>
    let l := leAt b (at_ + 4) 4
    let next := at_ + 8 + (l + 7) / 8 * 8
    if len < next then none
    else (itemsFrom b len n next).map (fun r => (leAt b at_ 4, (b.drop (at_ + 8)).take l) :: r)

/-- Whether an item is valid. -/
def itemOk (x : Nat × List Byte) : Bool :=
  if x.1 = 1 then decide (x.2.length % 8 = 0) && (eights x.2).all (fun r => decide (leAt r 0 4 < 2 ^ 20))
  else decide (x.1 = 2) && objectOk x.2

/-- The items of an image. -/
def imageItems (b : List Byte) : Option (List (Nat × List Byte)) := itemsFrom b (leAt b 8 4) (leAt b 16 4) 64

/-- The bytes of an image with its signature block. -/
def imageLength (b : List Byte) : Nat := leAt b 8 4 + (if bitsOf (leAt b 6 2) 0 1 = 1 then 96 else 0)

/-- LAST_ERR of the check of an image for a slot of `slot` bytes, 0 when it is accepted. -/
def State.imageError (s : State) (b : List Byte) (slot : Nat) : Nat :=
  let len := leAt b 8 4
  let nitem := leAt b 16 4
  if leAt b 60 4 ≠ 0 then 2
  else if leAt b 0 4 ≠ 0x4D495843 ∨ leAt b 4 2 ≠ 1 ∨ 1 < leAt b 6 2 ∨ nitem < 1 ∨ 4096 < nitem then 3
  else if slot < imageLength b ∨ len < 64 ∨ len % 8 ≠ 0 ∨ b.length < imageLength b then 7
  else if (crc32 (zero4 (zero4 (b.take len) 20) 60)).toNat ≠ leAt b 20 4 then 4
  else match imageItems b with
    | none => 6
    | some l =>
      if l.all itemOk = false then 6
      else if s.pwr.fuse.isEmpty then 0
      else if bitsOf (leAt b 6 2) 0 1 = 1 ∧ Config.signatureValid (b.take (imageLength b)) s.pwr.fuse then 0
      else 5

/-- The end of the general Concourse area that holds an address, 0 where none does (R292). -/
def generalEnd (a : Nat) : Nat :=
  if 0x00550000 ≤ a ∧ a < 0x00800000 then 0x00800000
  else if 0x00EA0000 ≤ a ∧ a < 0x01000000 then 0x01000000
  else if 0x01AC0000 ≤ a ∧ a < 0x02000000 then 0x02000000
  else 0

/-- Bytes of an image's slot in a flash of 2^(21 + k) bytes. -/
def slotBytes (k : Nat) : Nat := min (2 ^ (20 + k)) 0x800000

/-- A failed check (R407): what it reports. -/
def State.imageFails (s : State) (err : Nat) (inj : Bool) : State :=
  (((s.setFld Reg.BOOT_STAT 28 4 err).raise Page.boot 1).pageErr Page.boot).logError 0x0400 0 err inj

/-- The image that the sequencer checks, as it stands in the stream-ring range. -/
def State.buffered (s : State) : List Byte := s.conBytes 0x01000000 (imageLength (s.conBytes 0x01000000 64))

/-- Reads and buffers an image and checks it: the state, and LAST_ERR with whether an injection made it. An injected failure is
reported as a CRC error. -/
def State.checkImage (s : State) (identified host : Bool) (flashLog : Nat) (bytes : List Byte) : State × Nat × Bool :=
  let a := s.fld Reg.BOOT_HOST_ADDR 10 15 * 1024
  let stop := generalEnd a
  let slot := if host then min (stop - a) 0x800000 else slotBytes flashLog
  let b := if host then s.conBytes a slot else bytes
  let err := if host then (if stop = 0 then 8 else s.imageError b slot) else if identified then s.imageError b slot else 1
  let k := s.check Page.boot 0 0 (decide (err ≠ 0))
  let t := k.st.conStore 0x01000000 (b.take (min slot (imageLength b)))
  (t, if k.inj then 4 else err, k.inj)

/-- IMAGE_CHECK (R403, R407, R410): the image of the attempt in progress has been read and is checked. `flashLog` sizes the flash, whose image
is `bytes`; a host image is read from the Concourse. -/
def execImageCheck (identified : Bool) (flashLog : Fin 7) (bytes : List Byte) (s : State) : Host.Outcome State Fault Refusal :=
  let st := s.bootState
  if st < 1 ∨ 3 < st then .next s
  else
    let r := s.checkImage identified (decide (st = 3)) flashLog bytes
    let t : State := { r.1 with pwr := { r.1.pwr with hostGo := false } }
    if r.2.1 ≠ 0 then
      let u := (t.imageFails r.2.1 r.2.2).bootTo 4
      .next (if s.pwr.hostGo then u.attempt 3 else u)
    else .next ((if s.pwr.hostGo then t.setBit Reg.BOOT_STAT 8 true else t).bootTo 5)

end Sys2Proof.Machine
end

