-- ==== Sys2Proof/Machine/RegWrite.lean ====
section
/-! DEFINITION. The rule of every register for a write, and what every register gives when it is read (R4, R5, R425, R426, R431). -/

namespace Sys2Proof.Machine

/-- The rule of a write. -/
abbrev Act := State → RegRow → Word → Word → State

/-- The instance of an array of registers that an offset names. -/
def instOf (off base stride : Nat) : Nat := (off - base) / stride

/-- Whether an offset is an instance of an array of registers. -/
def isInst (off base stride count : Nat) : Bool :=
  decide (base ≤ off) && decide ((off - base) % stride = 0) && decide (off < base + stride * count)

/-! ### Writes -/

/-- The rule of a PCI register: a host input stream's channels may neither pass 255 nor meet another's (R343). -/
def actHsi (k : Nat) (s : State) (r : RegRow) (old v : Word) : State :=
  let new := r.store old v
  let first := fieldOf new 16 8
  let n := fieldOf new 8 8 + 1
  let meets := (List.range 8).any (fun j =>
    decide (j ≠ k) && s.bit (Reg.PCI_HSI_CFG j) 31 &&
      decide (first < s.fld (Reg.PCI_HSI_CFG j) 16 8 + s.fld (Reg.PCI_HSI_CFG j) 8 8 + 1) &&
      decide (s.fld (Reg.PCI_HSI_CFG j) 16 8 < first + n))
  if 256 < first + n ∨ (fieldOf new 31 1 = 1 ∧ meets) then s.pageErrFlag Page.pci 0 else s.setReg (Reg.PCI_HSI_CFG k) new

/-- ING_NTF_CFG (R65): a write that clears EN discards the notifications held inside. -/
def actNtfCfg (s : State) (r : RegRow) (old v : Word) : State :=
  let t := s.setReg Reg.ING_NTF_CFG (r.store old v)
  if t.bit Reg.ING_NTF_CFG 8 then t else { t with ing := { t.ing with held := [] } }

/-- The rules of pages 0x00 to 0x07. -/
def actLow (off : Nat) : Act :=
  if off = Reg.GLB_FENCE then actGlbFence
  else if off = Reg.SVC_CMD then actSvcCmd
  else if off = Reg.SVC_ARG then actSvcArg
  else if off = Reg.SVC_ABORT then actSvcAbort
  else if off = Reg.CLK_MEDIA_CTRL then actMediaCtrl
  else if off = Reg.CLK_MEDIA_CFG then actMediaCfg
  else if off = Reg.CLK_SRC_ORDER then actSrcOrder
  else if off = Reg.PWR_CTRL then actPwrCtrl
  else if off = Reg.PWR_TEMP then actPwrTemp
  else if off = Reg.BOOT_CTRL then actBootCtrl
  else if off = Reg.BOOT_FUSE_CTRL then actFuseCtrl
  else if isInst off (Reg.BOOT_FUSE_DATA 0) 4 8 then actFuseData (instOf off (Reg.BOOT_FUSE_DATA 0) 4)
  else if off = Reg.PMU_CTRL then actPmuCtrl
  else if off = Reg.PMU_RING_BASE_LO ∨ off = Reg.PMU_RING_BASE_HI ∨ off = Reg.PMU_RING_CFG then actPmuRing off
  else if off = Reg.IRQ_MSI_EN_LO ∨ off = Reg.IRQ_MSI_EN_HI then actMsiEn off
  else if off = Reg.IRQ_HB_CFG then actHbCfg
  else if off = Reg.IRQ_HB_KICK then actHbKick
  else storeAct off

/-- The rules of pages 0x08 to 0x0F. -/
def actMid (off : Nat) : Act :=
  if isInst off (Reg.ING_RING_PI 0) 0x20 8 then actRingPi (instOf off (Reg.ING_RING_PI 0) 0x20)
  else if off = Reg.ING_NTF_CFG then actNtfCfg
  else if isInst off (Reg.VA_PART_QUOTA 0) 0x20 64 then actQuota (instOf off (Reg.VA_PART_QUOTA 0) 0x20)
  else if off = Reg.PS_WR_DATA then actPsData
  else if off = Reg.MM_EVAL_MAX then actClearMax off
  else if off = Reg.SCH_EXP_CYCLES then actExpCycles
  else if off = Reg.SCH_EXP_CFG then actExpCfg
  else if off = Reg.SCH_CTRL then actSchCtrl
  else if off = Reg.SCH_SHUNT then actShunt
  else if isInst off (Reg.SPF_PART_CFG 0) 4 64 then actSpfPart (instOf off (Reg.SPF_PART_CFG 0) 4)
  else if isInst off (Reg.SPF_TBL_CFG 0) 8 60 then actTable true (instOf off (Reg.SPF_TBL_CFG 0) 8)
  else if isInst off (Reg.SPF_TBL_BASE 0) 8 60 then actTable false (instOf off (Reg.SPF_TBL_BASE 0) 8)
  else if off = Reg.DEC_COEF_DATA then actCoefData
  else if off = Reg.DEC_TAPS then actTaps
  else if isInst off (Reg.DEC_CAP_SRC 0) 4 128 then actCapSrc (instOf off (Reg.DEC_CAP_SRC 0) 4)
  else storeAct off

/-- The rules of pages 0x10 to 0x1D. -/
def actHigh (off : Nat) : Act :=
  if isInst off (Reg.OQ_Q_CFG 0) 4 48 then actOqCfg (instOf off (Reg.OQ_Q_CFG 0) 4)
  else if off = Reg.DAC_CTRL then actDacCtrl
  else if isInst off (Reg.DAC_CH_CFG 0) 0x20 8 then actDacCfg (instOf off (Reg.DAC_CH_CFG 0) 0x20)
  else if isInst off (Reg.DAC_CH_TONE_CFG 0) 0x20 8 then actDacTone (instOf off (Reg.DAC_CH_TONE_CFG 0) 0x20)
  else if isInst off (Reg.DAC_CH_STAT 0) 0x20 8 then actDacStat (instOf off (Reg.DAC_CH_STAT 0) 0x20)
  else if off = Reg.CON_CTRL then actConCtrl
  else if isInst off (Reg.CON_ATTR 0) 4 64 then actConAttr (instOf off (Reg.CON_ATTR 0) 4)
  else if off = Reg.DRC_EXP_LAT then actClearMax off
  else if 0x18000 ≤ off ∧ off < 0x19000 then strmAct off
  else if isInst off (Reg.NMID_SESS_CFG 0) 0x10 32 then actSessCfg (instOf off (Reg.NMID_SESS_CFG 0) 0x10)
  else if isInst off (Reg.NMID_SESS_ADDR 0) 0x10 32 then actSessAddr (instOf off (Reg.NMID_SESS_ADDR 0) 0x10) off
  else if isInst off (Reg.NMID_SESS_PORT 0) 0x10 32 then actSessAddr (instOf off (Reg.NMID_SESS_PORT 0) 0x10) off
  else if isInst off (Reg.PCI_HSI_CFG 0) 0x20 8 then actHsi (instOf off (Reg.PCI_HSI_CFG 0) 0x20)
  else if 0x1A800 ≤ off ∧ off < 0x1AC00 then actMsix off
  else if isInst off (Reg.TDM_P_CFG 0) 0x10 4 then actTdmCfg (instOf off (Reg.TDM_P_CFG 0) 0x10)
  else if off = Reg.DBG_HIT then actDbgHit
  else storeAct off

/-- The rules of the core pages. -/
def actCore (off : Nat) : Act :=
  let n := off / 0x1000 - 0x20
  if off = Reg.VC_DBELL n then actDoorbell n
  else if off = Reg.VC_CTRL n then actVcCtrl n Access.quiet Access.quiet
  else if off = Reg.VC_PM_DATA_HI n then actProgramLoad n
  else storeAct off

/-- The rule of the register at an offset. -/
def actOf (off : Nat) : Act :=
  let p := off / 0x1000
  let o := off % 0x1000
  if o = 4 then actPageCtrl p
  else if o = 0x10 then actIrqEn p
  else if o = 0x1C then actErrInj p
  else if o < 0x40 then storeAct off
  else if p < 0x08 then actLow off
  else if p < 0x10 then actMid off
  else if p < 0x20 then actHigh off
  else actCore off

/-- A write of any register. -/
def State.regWrite (s : State) (by_ : Writer) (off : Nat) (v : Word) : State := s.hostWrite by_ off v (actOf off)

/-! ### Reads -/

/-- A register word from numbers of bits. -/
def bitWord (f : Nat → Bool) : Word := BitVec.ofNat 32 ((List.range 32).foldl (fun a i => if f i then a + 2 ^ i else a) 0)

/-- ERR_CAT: the source and the counter of a detector (R356); the source of injection ids 0x0700 and 0x1102 is none. -/
def catEntry (p d : Nat) : Nat × Nat :=
  let errCnt := 0x18
  if p = Page.clk then (if d = 3 then (55, 0x7C) else (7, errCnt))
  else if p = Page.pwr then (4 + d, errCnt)
  else if p = Page.boot then (3, errCnt)
  else if p = Page.pmu then (59, errCnt)
  else if p = Page.irq then (63, 0x60)
  else if p = Page.err then (0x3F, 0)
  else if p = Page.ing then (match d with
    | 0 => (10, Reg.ING_MAL_CNT % 0x1000)
    | 1 => (11, Reg.ING_DUP_CNT % 0x1000)
    | _ => (42, Reg.ING_NET_GAP_CNT % 0x1000))
  else if p = Page.sch then (if d = 0 then (20, Reg.SCH_MISS_CNT % 0x1000) else (22, Reg.SCH_ABORT_CNT % 0x1000))
  else if p = Page.spf then (54, Reg.SPF_UNDERRUN_CNT % 0x1000)
  else if p = Page.oq then (match d with
    | 0 => (48, Reg.OQ_UNDERRUN_CNT % 0x1000)
    | 1 => (49, Reg.OQ_OVERRUN_CNT % 0x1000)
    | _ => (0x3F, Reg.OQ_LATE_CNT % 0x1000))
  else if p = Page.dac then (if d = 0 then (50, Reg.DAC_RB_FAULT_CNT % 0x1000) else (51, Reg.DAC_OC_CNT % 0x1000))
  else if p = Page.con then (match d with
    | 0 => (32, Reg.CON_CE_CNT % 0x1000)
    | 1 => (34, Reg.CON_PARITY_CNT % 0x1000)
    | 2 => (33, Reg.CON_UE_CNT % 0x1000)
    | _ => (36, Reg.CON_BT_FAIL_CNT % 0x1000))
  else if p = Page.drc then (38 + d, (if d = 0 then Reg.DRC_CE_CNT else Reg.DRC_UE_CNT) % 0x1000)
  else if p = Page.neta ∨ p = Page.neta + 1 then (if d = 0 then (42, Reg.NET_RX_ERR_CNT 0 % 0x1000) else (p - Page.neta + 40, errCnt))
  else if p = Page.strm then (43 + d, (if d = 0 then Reg.STRM_RX_REPAIRED_CNT else Reg.STRM_RX_UNDERRUN_CNT) % 0x1000)
  else if p = Page.pci then (56, errCnt)
  else if p = Page.hsp then (57, Reg.HSP_FRAME_ERR_CNT % 0x1000)
  else if p = Page.tdm then (53, Reg.TDM_SLIP_CNT % 0x1000)
  else (match d with
    | 0 => (30, errCnt)
    | 1 => (31, errCnt)
    | _ => (24, errCnt))

/-- ERR_CAT for the detector that ERR_CAT_SEL names. -/
def State.errCat (s : State) : Nat :=
  let ident := s.fld Reg.ERR_CAT_SEL 0 16
  let p := ident / 256
  let d := ident % 256
  if detectorsOf p ≤ d then 0x3F * 2 ^ 24
  else
    let c := catEntry p d
    let armed := s.bit (Reg.PAGE_ERR_INJ p) 30 && decide (s.fld (Reg.PAGE_ERR_INJ p) 0 8 = d)
    2 ^ 31 + (if armed then 2 ^ 30 else 0) + c.1 * 2 ^ 24 + c.2

/-- The status registers of a core. -/
def State.readCore (s : State) (n off : Nat) : Option Nat :=
  let c := s.core n
  let task := c.task.bind (fun id => s.sch.tasks.find? (fun t => decide (t.order = id)))
  let b := fun (x : Bool) (i : Nat) => if x then 2 ^ i else 0
  if off = Reg.VC_STAT n then
    some (c.svc + b c.halted 3 + b c.voice 4 + b c.task.isSome 5 + b c.back.task.isSome 6 + b c.buf1.task.isSome 7)
  else if off = Reg.VC_PC n then some (if c.halted then c.pc else c.lastPc)
  else if off = Reg.VC_TASK n then
    some (match task with
      | some t => t.epoch * 2 ^ 16 + codeOfCls t.cls * 2 ^ 14 + ((t.words[0]?).getD 0).toNat % 4 * 2 ^ 12 + 2 ^ 11 + t.slot
      | none => 0)
  else if off = Reg.VC_TCYC n then some (if c.task.isSome then c.tcyc else 0)
  else if off = Reg.VC_MBOX n then some (c.cr 0x22).toNat
  else none

/-- Status registers of the lower pages that show the block's state. -/
def State.readStatus (s : State) (off : Nat) : Option Nat :=
  if off = Reg.ERR_CAT then some s.errCat
  else if off = Reg.IRQ_PEND_LO then some (bitWord s.sourcePending).toNat
  else if off = Reg.IRQ_PEND_HI then some (bitWord (fun i => s.sourcePending (32 + i))).toNat
  else if off = Reg.PWR_TEMP then some ((s.reg off).toNat + if s.fld off 16 12 ≠ 0 then 2 ^ 31 else 0)
  else if off = Reg.MM_EVAL_MAX ∨ off = Reg.DRC_EXP_LAT then some ((s.reg off).toNat + if s.fld off 0 16 ≠ 0 then 2 ^ 31 else 0)
  else if off = Reg.ING_STAT then
    some (s.ing.tt.length + (if s.ttRoom .normal then 0 else 2 ^ 16) + (if s.ttRoom .express then 0 else 2 ^ 17) +
      (if 256 ≤ s.ing.fences.length then 2 ^ 18 else 0))
  else if off = Reg.VA_VOICE_STAT then some (Sparse.get (fun _ => (0 : Word)) s.pool.statSnap (s.fld Reg.VA_VOICE_SEL 0 11)).toNat
  else if off = Reg.MM_VOICE_EG then some (Sparse.get (fun _ => 0) s.mm.segs (s.fld Reg.MM_VOICE_SEL 0 11))
  else if off = Reg.SCH_PLAT_STAT then
    let plat := s.fld Reg.SCH_PLAT_SEL 8 6
    let cls := clsOfCode (s.fld Reg.SCH_PLAT_SEL 0 2)
    some (if 34 < plat then 0
      else s.platDepth plat cls + 2 ^ 16 * Sparse.get (fun _ => 0) s.sch.peaks (codeOfCls cls * 64 + plat))
  else if off = Reg.SPF_SLOT_STAT ∨ off = Reg.SPF_SLOT_AVAIL then
    let slot := s.fld Reg.SPF_SLOT_SEL 0 11
    let k := s.fld Reg.SPF_SLOT_SEL 11 1
    let x := s.stream slot k
    let b := fun (x : Bool) (i : Nat) => if x then 2 ^ i else 0
    some (if 1088 ≤ slot then 0
      else if off = Reg.SPF_SLOT_AVAIL then wrapTo 32 ((x.filled : Int) - x.cons)
      else x.obj * 2 ^ 16 + b x.active 15 + b x.ended 14 + b x.underrun 13 + b x.fault 12 + s.ringOf slot k)
  else if off = Reg.DEC_COEF_DATA then some (wrapTo 24 (s.coef (s.fld Reg.DEC_COEF_ADDR 8 1) (s.fld Reg.DEC_COEF_ADDR 0 6)))
  else none

/-- What a read over `path` gives, and what it latches. `mtFrac` and `ptp` are how far media time stands into its sample and the gPTP time, where
the read is one of CLK_MT_LO or PTP_TIME_LO; a WO field reads 0, and so does a reserved offset (R5). -/
def State.readReg (s : State) (path : Path) (off : Nat) (mtFrac : BitVec 8) (ptp : BitVec 64) : State × Word :=
  let p := off / 0x1000
  match rowOf off with
  | none => (s, 0)
  | some _ =>
    if off % 0x1000 = 8 then
      let err := if s.reg (Reg.PAGE_ERR_STAT p) ≠ 0 then 4 else 0
      (s, BitVec.ofNat 32 (s.fld off 1 1 * 2 + (if s.pageOn p then 0 else s.fld off 0 1) + err))
    else if off = Reg.CLK_MT_LO then s.readMt path mtFrac
    else if off = Reg.CLK_MT_HI then (s, s.latched 0 path)
    else if off = Reg.PMU_CNT_LO then s.readPmu path
    else if off = Reg.PMU_CNT_HI then (s, s.latched 1 path)
    else if off = Reg.PTP_TIME_LO then (s.latch 2 path (BitVec.ofNat 32 (ptp.toNat / 2 ^ 32)), BitVec.ofNat 32 ptp.toNat)
    else if off = Reg.PTP_TIME_HI then (s, s.latched 2 path)
    else
      let v := if 0x20 ≤ p then s.readCore (p - 0x20) off else s.readStatus off
      (s, match v with
        | some n => BitVec.ofNat 32 n
        | none => s.reg off)

/-- GLB_READ (R425, R431): a host read of word `o` of the GLB page. Every earlier write of the path has taken
effect. -/
def execGlbRead (path : Path) (o : Fin 1024) (s : State) : Host.Outcome State Fault Refusal :=
  if s.serving = false then .next s
  else
    let r := s.readReg path (4 * o) 0 0
    .next (r.1.send (.readData path [r.2]))

/-- PTP_TIME_READ (R426): `now` is gPTP time in nanoseconds. -/
def execPtpTimeRead (path : Path) (now : BitVec 64) (s : State) : Host.Outcome State Fault Refusal :=
  if s.serving = false then .next s
  else
    let r := s.readReg path Reg.PTP_TIME_LO 0 now
    .next (r.1.send (.readData path [r.2]))

/-- REGISTER_WRITE (R425): a host write of the word at `off` with byte enables `be`; one that does not write the whole word is not
performed. -/
def execRegisterWrite (path : Path) (off : BitVec 20) (be : BitVec 4) (v : Word) (s : State) : Host.Outcome State Fault Refusal :=
  if s.serving = false then .next s
  else if be ≠ 15 then .next (s.pageErrFlag Page.glb 0)
  else .next (s.regWrite (.host path) off.toNat v)

end Sys2Proof.Machine
end

