-- ==== Sys2Proof/Machine/Apply.lean ====
section
/-! DEFINITION. The application of a configuration image, the end of start-up, and the end of a service operation (R214, R372, R373,
R403, R408, R411). -/

namespace Sys2Proof.Machine

/-! ### Register records (R408) -/

/-- What refused writes of a page count in: the page's error count, but for an injection, and the refusals of the Service Port and of
injections. -/
def State.refusals (s : State) (off : Nat) : Nat :=
  (if off % 0x1000 = 0x1C then 0 else (s.reg (Reg.PAGE_ERR_CNT (off / 0x1000))).toNat) + (s.reg Reg.SVC_REFUSE_CNT).toNat +
    (s.reg Reg.ERR_INJ_REJ_CNT).toNat

/-- Whether the fuse refused a request. -/
def fuseRefused (s t : State) (off : Nat) (v : Word) : Bool :=
  decide (off = Reg.BOOT_FUSE_CTRL) && decide (fieldOf v 0 1 = 1) && !(t.bit Reg.BOOT_FUSE_STAT 1 && !s.bit Reg.BOOT_FUSE_STAT 1)

/-- One register record of 8 bytes. A record that restarts the module ends the application. -/
def State.applyRecord (s : State) (st : Nat) (r : List Byte) : State :=
  if s.bootState ≠ st then s
  else
    let off := leAt r 0 4
    let v : Word := BitVec.ofNat 32 (leAt r 4 4)
    let t := s.regWrite .image off v
    if t.bootState ≠ st then t
    else if s.refusals off < t.refusals off ∨ fuseRefused s t off v then t.bump Reg.BOOT_REC_REJ_CNT
    else t

/-! ### Objects (R214) -/

/-- Writes bundles into the program memory of a core. -/
def State.loadBundles (s : State) (n a : Nat) (bundles : List (List Byte)) : State :=
  s.updCore n (fun c => { c with
    prog := bundles.zipIdx.foldl (fun m e => Sparse.put (fun _ => 0) m (a + e.2) (BitVec.ofNat 64 (leNat e.1))) c.prog })

/-- Writes one field of a register. -/
def State.imageField (s : State) (off lo w v : Nat) : State := s.regWrite .image off (setFieldOf (s.reg off) lo w v)

/-- One ENTRY record. -/
def State.loadEntry (s : State) (pset : Nat) (e : List Byte) : State :=
  let i := leAt e 1 1
  let entry := leAt e 2 2
  let limit := leAt e 4 3
  if leAt e 0 1 = 0 then
    let t := (s.imageField (Reg.VA_PART_PROG i) 0 13 entry).imageField (Reg.SCH_PART_CFG i) 24 4 pset
    if limit = 0 then t else t.imageField (Reg.SCH_PART_CFG i) 0 24 limit
  else
    let t := (s.imageField (Reg.SCH_BUS_CFG i) 16 13 entry).imageField (Reg.SCH_BUS_CFG i) 4 4 pset
    if limit = 0 then t else t.imageField (Reg.SCH_BUS_LIM i) 0 24 limit

/-- One section of an object for program set `pset`. -/
def State.loadSection (s : State) (pset : Nat) (b : List Byte) (x : Section) : State :=
  if x.kind = 1 then
    ((List.range 34).filter (fun n => decide (s.psetOf n = pset))).foldl (fun t n => t.loadBundles n x.addr (eights (x.data b))) s
  else if x.kind = 2 then s.conStore x.addr (x.data b)
  else if x.kind = 3 then (eights (x.data b)).foldl (fun t e => t.loadEntry pset e) s
  else s

/-- An accepted object is loaded. -/
def State.loadObject (s : State) (b : List Byte) : State :=
  let pset := leAt b 8 1
  let secs := sectionsOf b
  let load := fun (t : State) (kind : Nat) => (secs.filter (fun x => decide (x.kind = kind))).foldl (fun u x => u.loadSection pset b x) t
  let s1 := load s 1
  let s2 := if bitsOf (leAt b 6 2) 0 1 = 1 then
      ((List.range 34).filter (fun n => decide (s.psetOf n = pset))).foldl
        (fun t n => t.imageField (Reg.VC_RESET_VEC n) 0 13 (leAt b 12 2)) s1
    else s1
  load (load s2 2) 3

/-! ### The image -/

/-- The items of an image are processed in order (R408, R433). -/
def State.applyImage (s : State) (b : List Byte) : State :=
  let st := s.bootState
  ((imageItems b).getD []).foldl (fun t x =>
    if t.bootState ≠ st then t
    else if x.1 = 1 then (eights x.2).foldl (fun u r => u.applyRecord st r) t
    else t.loadObject x.2) s

/-- An image has been applied: BOOT_STAT.IMAGE and BOOT_IMG_SEQ. -/
def State.imageApplied (s : State) (which : Nat) (b : List Byte) : State :=
  (s.setFld Reg.BOOT_STAT 16 2 which).setReg Reg.BOOT_IMG_SEQ (BitVec.ofNat 32 (leAt b 12 4))

/-- BOOT_DONE (R403, R408): the checked image is applied, the Concourse enters SERVICE mode, and the cores in service start at their
reset vectors. -/
def execBootDone (s : State) : Host.Outcome State Fault Refusal :=
  if s.bootState ≠ 5 then .next s
  else
    let b := s.buffered
    let t := s.applyImage b
    if t.bootState ≠ 5 then .next t
    else
      let u := (((t.imageApplied s.pwr.loading b).bootTo 6)).showMode
      .next (u.inService.foldl (fun v n => v.enterService n) u)

/-! ### The end of a service operation (R372, R373) -/

/-- CORE_RESTORE passes: the core enters the Roundhouse, or service at once while fewer than 32 cores are in service (R365). -/
def State.restoreCore (s : State) (n : Nat) : State :=
  let before := s.spares.length
  let t := (s.coreReset n).updCore n (fun c => { c with svc := 1 })
  if t.inService.length < 32 then
    let m := (t.sch.vacant[0]?).getD n
    ((t.setPset n (t.psetOf m)).updCore n (fun c => { c with copyFrom := some m })).showSpares before
  else t.showSpares before

/-- CFG_COMMIT ends: the image stands in the flash with its VALID marker, or, when its read-back fails or its LEN does not fit the slot,
the target image is invalid. -/
def State.commitImage (s : State) (fail : Bool) (flashLog : Nat) : State × Bool :=
  let which := bitsOf s.svc.arg 31 1
  let a := bitsOf s.svc.arg 10 15 * 1024
  let len := imageLength (s.conBytes a 64)
  let bad := fail || decide (slotBytes flashLog < len) || decide (2 ^ 25 < a + len)
  let old := s.out.flash.filter (fun e => decide (e.1 / 2 ^ 32 ≠ which))
  let image := (s.conBytes a 60 ++ [0, 0, 0, 0] ++ s.conBytes (a + 64) (len - 64)).take len
  let put := fun (m : Map Byte) => image.zipIdx.foldl (fun m e => Sparse.put (fun _ => 0xFF) m (which * 2 ^ 32 + e.2) e.1) m
  ({ s with out := { s.out with flash := if bad then old else put old } }, bad)

/-- CFG_RELOAD ends: the image read from the flash is checked and, when accepted, applied. -/
def State.reloadImage (s : State) (fail : Bool) (flashLog : Nat) (image : List Byte) : State :=
  let r := s.checkImage (!fail) false flashLog image
  if r.2.1 ≠ 0 then (r.1.imageFails r.2.1 r.2.2).svcFinish false true false
  else
    let st := r.1.bootState
    let b := r.1.buffered
    let t := r.1.applyImage b
    if t.bootState ≠ st then t
    else (t.imageApplied (1 + bitsOf s.svc.arg 31 1) b).svcFinish false false false

/-- SERVICE_OPERATION_COMPLETE (R372, R373): the running operation completes, once its own condition holds. `fail` is the outcome of a core's
test, of the read-back of a commit, or of identifying the flash; `flashLog` sizes the flash, and `image` is what a reload
reads from it. -/
def execServiceOperationComplete (fail : Bool) (flashLog : Fin 7) (image : List Byte) (s : State) : Host.Outcome State Fault Refusal :=
  let op := s.svcOp
  let n := bitsOf s.svc.arg 0 6
  if s.svcBusy = false then .next s
  else if op = 1 then
    if (s.core n).svc = 2 then .next s
    else .next ((s.setReg Reg.SVC_RESULT (if s.svc.committed then 0 else 1)).svcFinish false false false)
  else if op = 2 then
    if fail then .next ((s.updCore n (fun c => { c with svc := 0 })).svcFinish false true false)
    else .next ((s.restoreCore n).svcFinish false false false)
  else if 3 ≤ op ∧ op ≤ 6 then
    if s.svc.finished then .next (s.svcFinish false s.svc.fail false) else .next s
  else if op = 7 then
    let r := s.commitImage fail flashLog
    .next (r.1.svcFinish false r.2 false)
  else if op = 8 then .next (s.reloadImage fail flashLog image)
  else if op = 0xA then
    .next ((s.setReg Reg.SVC_RESULT (BitVec.ofNat 32 (s.lossCount - s.svc.base))).svcFinish false false false)
  else .next s

end Sys2Proof.Machine
end

