-- ==== Sys2Proof/Machine/CoreAlu.lean ====
section
/-! DEFINITION. The voice-core commands of register, flag, accumulator and control-register operations of the C slot (R206). Each issues a bundle that holds
the operation; `rest` gives the other slots. -/

namespace Sys2Proof.Machine

/-- CLRAV (R176, R177): AV and direction bits cleared in the write cycle. -/
def execClrav (core : Fin 34) (p : Pred) (mask : Fin 16) (rest : Bundle) (s : State) : Host.Outcome State Fault Refusal :=
  .next (s.issueC core p (.clrav mask) rest Access.quiet)

/-- MOV (R206): a copy of a G register. -/
def execMov (core : Fin 34) (p : Pred) (d a : Fin 32) (rest : Bundle) (s : State) : Host.Outcome State Fault Refusal :=
  .next (s.issueC core p (.mov d a) rest Access.quiet)

/-- NOT (R206): the inverse of a G register. -/
def execNot (core : Fin 34) (p : Pred) (d a : Fin 32) (rest : Bundle) (s : State) : Host.Outcome State Fault Refusal :=
  .next (s.issueC core p (.not d a) rest Access.quiet)

/-- NEGS (R181): the saturated negation of a G register. -/
def execNegs (core : Fin 34) (p : Pred) (d a : Fin 32) (rest : Bundle) (s : State) : Host.Outcome State Fault Refusal :=
  .next (s.issueC core p (.negs d a) rest Access.quiet)

/-- ABSS (R181): the saturated absolute value of a G register. -/
def execAbss (core : Fin 34) (p : Pred) (d a : Fin 32) (rest : Bundle) (s : State) : Host.Outcome State Fault Refusal :=
  .next (s.issueC core p (.abss d a) rest Access.quiet)

/-- MTX (R184, R206): a G register into a pointer, modifier, length or base register. -/
def execMtx (core : Fin 34) (p : Pred) (file : AddrFile) (i : Fin 8) (a : Fin 32) (rest : Bundle)
    (s : State) : Host.Outcome State Fault Refusal :=
  .next (s.issueC core p (.mtx file i a) rest Access.quiet)

/-- MFX (R206): a pointer, modifier, length or base register into a G register. -/
def execMfx (core : Fin 34) (p : Pred) (d : Fin 32) (file : AddrFile) (i : Fin 8) (rest : Bundle)
    (s : State) : Host.Outcome State Fault Refusal :=
  .next (s.issueC core p (.mfx d file i) rest Access.quiet)

/-- MVA (R176, R206): an explicit load of an accumulator or a part of it. -/
def execMva (core : Fin 34) (p : Pred) (part : AccPart) (n : Fin 4) (a : Fin 32) (rest : Bundle)
    (s : State) : Host.Outcome State Fault Refusal :=
  .next (s.issueC core p (.mva part n a) rest Access.quiet)

/-- MFA (R179, R206): a raw part of an accumulator. -/
def execMfa (core : Fin 34) (p : Pred) (part : AccPart) (n : Fin 4) (d : Fin 32) (rest : Bundle)
    (s : State) : Host.Outcome State Fault Refusal :=
  .next (s.issueC core p (.mfa part n d) rest Access.quiet)

/-- MVR (R178, R179): a rounded read into a G register. -/
def execMvr (core : Fin 34) (p : Pred) (q23 : Bool) (n : Fin 4) (d : Fin 32) (rest : Bundle)
    (s : State) : Host.Outcome State Fault Refusal :=
  .next (s.issueC core p (.mvr q23 n d) rest Access.quiet)

/-- PSET (R206): a flag set to a constant. -/
def execPset (core : Fin 34) (p : Pred) (v : Bool) (d : Fin 8) (rest : Bundle) (s : State) : Host.Outcome State Fault Refusal :=
  .next (s.issueC core p (.pset v d) rest Access.quiet)

/-- PAND (R206): the AND of two flags. -/
def execPand (core : Fin 34) (p : Pred) (d a b : Fin 8) (rest : Bundle) (s : State) : Host.Outcome State Fault Refusal :=
  .next (s.issueC core p (.pand d a b) rest Access.quiet)

/-- POR (R206): the OR of two flags. -/
def execPor (core : Fin 34) (p : Pred) (d a b : Fin 8) (rest : Bundle) (s : State) : Host.Outcome State Fault Refusal :=
  .next (s.issueC core p (.por d a b) rest Access.quiet)

/-- PXOR (R206): the exclusive OR of two flags. -/
def execPxor (core : Fin 34) (p : Pred) (d a b : Fin 8) (rest : Bundle) (s : State) : Host.Outcome State Fault Refusal :=
  .next (s.issueC core p (.pxor d a b) rest Access.quiet)

/-- PNOT (R206): the inverse of a flag. -/
def execPnot (core : Fin 34) (p : Pred) (d a : Fin 8) (rest : Bundle) (s : State) : Host.Outcome State Fault Refusal :=
  .next (s.issueC core p (.pnot d a) rest Access.quiet)

/-- MFF (R206): the flags into a G register. -/
def execMff (core : Fin 34) (p : Pred) (d : Fin 32) (rest : Bundle) (s : State) : Host.Outcome State Fault Refusal :=
  .next (s.issueC core p (.mff d) rest Access.quiet)

/-- MTF (R206): the flags from a G register. -/
def execMtf (core : Fin 34) (p : Pred) (a : Fin 32) (rest : Bundle) (s : State) : Host.Outcome State Fault Refusal :=
  .next (s.issueC core p (.mtf a) rest Access.quiet)

/-- ADD (R181, R206): wrapping sum. -/
def execAdd (core : Fin 34) (p : Pred) (d a : Fin 32) (b : Operand2) (rest : Bundle) (s : State) : Host.Outcome State Fault Refusal :=
  .next (s.issueC core p (.alu .add d a b) rest Access.quiet)

/-- SUB (R181, R206): wrapping difference. -/
def execSub (core : Fin 34) (p : Pred) (d a : Fin 32) (b : Operand2) (rest : Bundle) (s : State) : Host.Outcome State Fault Refusal :=
  .next (s.issueC core p (.alu .sub d a b) rest Access.quiet)

/-- ADDS (R181, R206): saturating sum. -/
def execAdds (core : Fin 34) (p : Pred) (d a : Fin 32) (b : Operand2) (rest : Bundle) (s : State) : Host.Outcome State Fault Refusal :=
  .next (s.issueC core p (.alu .adds d a b) rest Access.quiet)

/-- SUBS (R181, R206): saturating difference. -/
def execSubs (core : Fin 34) (p : Pred) (d a : Fin 32) (b : Operand2) (rest : Bundle) (s : State) : Host.Outcome State Fault Refusal :=
  .next (s.issueC core p (.alu .subs d a b) rest Access.quiet)

/-- AND (R181, R206): bitwise AND. -/
def execAnd (core : Fin 34) (p : Pred) (d a : Fin 32) (b : Operand2) (rest : Bundle) (s : State) : Host.Outcome State Fault Refusal :=
  .next (s.issueC core p (.alu .and d a b) rest Access.quiet)

/-- OR (R181, R206): bitwise OR. -/
def execOr (core : Fin 34) (p : Pred) (d a : Fin 32) (b : Operand2) (rest : Bundle) (s : State) : Host.Outcome State Fault Refusal :=
  .next (s.issueC core p (.alu .or d a b) rest Access.quiet)

/-- XOR (R181, R206): bitwise exclusive OR. -/
def execXor (core : Fin 34) (p : Pred) (d a : Fin 32) (b : Operand2) (rest : Bundle) (s : State) : Host.Outcome State Fault Refusal :=
  .next (s.issueC core p (.alu .xor d a b) rest Access.quiet)

/-- LSL (R181, R206): logical left shift. -/
def execLsl (core : Fin 34) (p : Pred) (d a : Fin 32) (b : Operand2) (rest : Bundle) (s : State) : Host.Outcome State Fault Refusal :=
  .next (s.issueC core p (.alu .lsl d a b) rest Access.quiet)

/-- LSR (R181, R206): logical right shift. -/
def execLsr (core : Fin 34) (p : Pred) (d a : Fin 32) (b : Operand2) (rest : Bundle) (s : State) : Host.Outcome State Fault Refusal :=
  .next (s.issueC core p (.alu .lsr d a b) rest Access.quiet)

/-- ASR (R181, R206): arithmetic right shift. -/
def execAsr (core : Fin 34) (p : Pred) (d a : Fin 32) (b : Operand2) (rest : Bundle) (s : State) : Host.Outcome State Fault Refusal :=
  .next (s.issueC core p (.alu .asr d a b) rest Access.quiet)

/-- LSLS (R181, R206): saturating left shift. -/
def execLsls (core : Fin 34) (p : Pred) (d a : Fin 32) (b : Operand2) (rest : Bundle) (s : State) : Host.Outcome State Fault Refusal :=
  .next (s.issueC core p (.alu .lsls d a b) rest Access.quiet)

/-- CMPCC (R206, R208): a comparison into a flag. -/
def execCmpcc (core : Fin 34) (p : Pred) (cc : Cond) (d : Fin 8) (a b : Fin 32) (rest : Bundle)
    (s : State) : Host.Outcome State Fault Refusal :=
  .next (s.issueC core p (.cmp cc d a b) rest Access.quiet)

/-- ADDI (R206): a signed immediate added. -/
def execAddi (core : Fin 34) (p : Pred) (d a : Fin 32) (imm : BitVec 16) (rest : Bundle) (s : State) : Host.Outcome State Fault Refusal :=
  .next (s.issueC core p (.addi d a imm) rest Access.quiet)

/-- MOVI (R206): a signed immediate. -/
def execMovi (core : Fin 34) (p : Pred) (d : Fin 32) (imm : BitVec 21) (rest : Bundle) (s : State) : Host.Outcome State Fault Refusal :=
  .next (s.issueC core p (.movi d imm) rest Access.quiet)

/-- MOVL (R206): a 32-bit immediate. -/
def execMovl (core : Fin 34) (p : Pred) (d : Fin 32) (imm : BitVec 32) (rest : Bundle) (s : State) : Host.Outcome State Fault Refusal :=
  .next (s.issueC core p (.movl d imm) rest Access.quiet)

/-- MFC (R158, R211, R395): a control register read. -/
def execMfc (core : Fin 34) (p : Pred) (d : Fin 32) (cr : Fin 64) (rest : Bundle) (s : State) : Host.Outcome State Fault Refusal :=
  .next (s.issueC core p (.mfc d cr) rest Access.quiet)

/-- MTC (R151, R158, R211, R395): a control register written. -/
def execMtc (core : Fin 34) (p : Pred) (cr : Fin 64) (a : Fin 32) (rest : Bundle) (s : State) : Host.Outcome State Fault Refusal :=
  .next (s.issueC core p (.mtc cr a) rest Access.quiet)

end Sys2Proof.Machine
end

