-- ==== Sys2Proof/Machine/CoreFlow.lean ====
section
/-! DEFINITION. The voice-core commands of repetition, loops, branches, mode changes and the task life cycle (R150, R160, R161, R190 to R195, R209). Each issues a bundle that holds
the operation; `rest` gives the other slots. -/

namespace Sys2Proof.Machine

/-- REP (R191): the M, X and Y operations once and then count times more. -/
def execRep (core : Fin 34) (p : Pred) (count : Count) (rest : Bundle) (s : State) : Host.Outcome State Fault Refusal :=
  .next (s.issueC core p (.rep count) rest Access.quiet)

/-- TAKE (R133, R134, R160): the core waits for a task. -/
def execTake (core : Fin 34) (p : Pred) (d : Fin 32) (rest : Bundle) (s : State) : Host.Outcome State Fault Refusal :=
  .next (s.issueC core p (.take d) rest Access.quiet)

/-- YIELD (R161): the dispatched task ends. -/
def execYieldTask (core : Fin 34) (p : Pred) (flags : Fin 4) (rest : Bundle) (s : State) : Host.Outcome State Fault Refusal :=
  .next (s.issueC core p (.yield_ flags) rest Access.quiet)

/-- ERET (R165): mode restored, EIE set, resume at EPC. -/
def execEret (core : Fin 34) (p : Pred) (rest : Bundle) (s : State) : Host.Outcome State Fault Refusal :=
  .next (s.issueC core p (.eret) rest Access.quiet)

/-- BR (R190, R209): a branch to a G register. -/
def execBr (core : Fin 34) (p : Pred) (a : Fin 32) (rest : Bundle) (s : State) : Host.Outcome State Fault Refusal :=
  .next (s.issueC core p (.br a) rest Access.quiet)

/-- B (R190, R209): a branch to an address. -/
def execB (core : Fin 34) (p : Pred) (t : Fin 8192) (rest : Bundle) (s : State) : Host.Outcome State Fault Refusal :=
  .next (s.issueC core p (.b t) rest Access.quiet)

/-- BL (R190, R209): a branch that keeps the return address. -/
def execBl (core : Fin 34) (p : Pred) (d : Fin 32) (t : Fin 8192) (rest : Bundle) (s : State) : Host.Outcome State Fault Refusal :=
  .next (s.issueC core p (.bl d t) rest Access.quiet)

/-- LOOP (R192): a zero-overhead loop. -/
def execLoop (core : Fin 34) (p : Pred) (count : Count) (stop : Fin 8192) (rest : Bundle) (s : State) : Host.Outcome State Fault Refusal :=
  .next (s.issueC core p (.loop count stop) rest Access.quiet)

/-- LOOP_R (R192, R194, R195): a loop with rotating registers and stage flags. -/
def execLoopR (core : Fin 34) (p : Pred) (count : Count) (stop : Fin 8192) (step : RotStep) (stages : Fin 4) (rest : Bundle)
    (s : State) : Host.Outcome State Fault Refusal :=
  .next (s.issueC core p (.loopR count stop step stages) rest Access.quiet)

/-- VENTER (R150, R209): Voice mode at an address. -/
def execVenter (core : Fin 34) (p : Pred) (t : Fin 8192) (rest : Bundle) (s : State) : Host.Outcome State Fault Refusal :=
  .next (s.issueC core p (.venter t) rest Access.quiet)

end Sys2Proof.Machine
end

