-- ==== Sys2Proof/Machine/CoreLoadStore.lean ====
section
/-! DEFINITION. The voice-core commands of the X and Y slots (R202, R203). Each issues a bundle that holds
the operation; `rest` gives the other slots. -/

namespace Sys2Proof.Machine

/-- LD (R202): a word into a G register. -/
def execLd (core : Fin 34) (y : Bool) (p : Pred) (reg : Fin 32) (ptr : Fin 8) (am : Addressing) (rest : Bundle) (acc other : Access)
    (s : State) : Host.Outcome State Fault Refusal :=
  .next (s.issueMem core y p .ld reg ptr am rest acc other)

/-- ST (R202): a G register into a word. -/
def execSt (core : Fin 34) (y : Bool) (p : Pred) (reg : Fin 32) (ptr : Fin 8) (am : Addressing) (rest : Bundle) (acc other : Access)
    (s : State) : Host.Outcome State Fault Refusal :=
  .next (s.issueMem core y p .st reg ptr am rest acc other)

/-- LD2 (R202): two words into a register pair. -/
def execLd2 (core : Fin 34) (y : Bool) (p : Pred) (reg : Fin 32) (ptr : Fin 8) (am : Addressing) (rest : Bundle) (acc other : Access)
    (s : State) : Host.Outcome State Fault Refusal :=
  .next (s.issueMem core y p .ld2 reg ptr am rest acc other)

/-- ST2 (R202): a register pair into two words. -/
def execSt2 (core : Fin 34) (y : Bool) (p : Pred) (reg : Fin 32) (ptr : Fin 8) (am : Addressing) (rest : Bundle) (acc other : Access)
    (s : State) : Host.Outcome State Fault Refusal :=
  .next (s.issueMem core y p .st2 reg ptr am rest acc other)

/-- LDA (R176, R202): an explicit load of an accumulator. -/
def execLda (core : Fin 34) (y : Bool) (p : Pred) (reg : Fin 32) (ptr : Fin 8) (am : Addressing) (rest : Bundle) (acc other : Access)
    (s : State) : Host.Outcome State Fault Refusal :=
  .next (s.issueMem core y p .lda reg ptr am rest acc other)

/-- ST_Q (R178, R179, R202): a rounded read of an accumulator into a word; REG holds the mark and the accumulator. -/
def execStQ (core : Fin 34) (y : Bool) (p : Pred) (reg : Fin 32) (ptr : Fin 8) (am : Addressing) (rest : Bundle) (acc other : Access)
    (s : State) : Host.Outcome State Fault Refusal :=
  .next (s.issueMem core y p .stq reg ptr am rest acc other)

/-- LDX (R202): a word into a pointer, modifier, length or base register; REG holds the file and the index. -/
def execLdx (core : Fin 34) (y : Bool) (p : Pred) (reg : Fin 32) (ptr : Fin 8) (am : Addressing) (rest : Bundle) (acc other : Access)
    (s : State) : Host.Outcome State Fault Refusal :=
  .next (s.issueMem core y p .ldx reg ptr am rest acc other)

/-- STX (R202): a pointer, modifier, length or base register into a word. -/
def execStx (core : Fin 34) (y : Bool) (p : Pred) (reg : Fin 32) (ptr : Fin 8) (am : Addressing) (rest : Bundle) (acc other : Access)
    (s : State) : Host.Outcome State Fault Refusal :=
  .next (s.issueMem core y p .stx reg ptr am rest acc other)

end Sys2Proof.Machine
end

