-- ==== Sys2Proof/Machine/CoreMac.lean ====
section
/-! DEFINITION. The voice-core commands of the M slot and no-operations (R173 to R175, R199 to R201). Each issues a bundle that holds
the operation; `rest` gives the other slots. -/

namespace Sys2Proof.Machine

/-- NOP (R199): a bundle whose M slot holds a no-operation. -/
def execNop (core : Fin 34) (rest : Bundle) (s : State) : Host.Outcome State Fault Refusal :=
  .next (s.issue core { rest with mp := .always, m := MOp.nop } Access.quiet Access.quiet)

/-- MUL (R173): the exact product, replacing ACn. -/
def execMul (core : Fin 34) (p : Pred) (n : Fin 4) (a b : Fin 32) (rest : Bundle) (s : State) : Host.Outcome State Fault Refusal :=
  .next (s.issueM core p .mul n a b rest)

/-- MAC (R173, R175): ACn plus the product. -/
def execMac (core : Fin 34) (p : Pred) (n : Fin 4) (a b : Fin 32) (rest : Bundle) (s : State) : Host.Outcome State Fault Refusal :=
  .next (s.issueM core p .mac n a b rest)

/-- MSC (R173, R175): ACn minus the product. -/
def execMsc (core : Fin 34) (p : Pred) (n : Fin 4) (a b : Fin 32) (rest : Bundle) (s : State) : Host.Outcome State Fault Refusal :=
  .next (s.issueM core p .msc n a b rest)

/-- CMUL (R174): a complex product into an accumulator pair. -/
def execCmul (core : Fin 34) (p : Pred) (n : Fin 4) (a b : Fin 32) (rest : Bundle) (s : State) : Host.Outcome State Fault Refusal :=
  .next (s.issueM core p .cmul n a b rest)

/-- CMAC (R174): the pair plus a complex product. -/
def execCmac (core : Fin 34) (p : Pred) (n : Fin 4) (a b : Fin 32) (rest : Bundle) (s : State) : Host.Outcome State Fault Refusal :=
  .next (s.issueM core p .cmac n a b rest)

/-- CMSC (R174): the pair minus a complex product. -/
def execCmsc (core : Fin 34) (p : Pred) (n : Fin 4) (a b : Fin 32) (rest : Bundle) (s : State) : Host.Outcome State Fault Refusal :=
  .next (s.issueM core p .cmsc n a b rest)

/-- CMACJ (R174): the pair plus x times the conjugate of y. -/
def execCmacj (core : Fin 34) (p : Pred) (n : Fin 4) (a b : Fin 32) (rest : Bundle) (s : State) : Host.Outcome State Fault Refusal :=
  .next (s.issueM core p .cmacj n a b rest)

/-- DOT2 (R200): the sum of two products, replacing ACn. -/
def execDot2 (core : Fin 34) (p : Pred) (n : Fin 4) (a b : Fin 32) (rest : Bundle) (s : State) : Host.Outcome State Fault Refusal :=
  .next (s.issueM core p .dot2 n a b rest)

/-- DOT2A (R200): ACn plus the sum of two products. -/
def execDot2a (core : Fin 34) (p : Pred) (n : Fin 4) (a b : Fin 32) (rest : Bundle) (s : State) : Host.Outcome State Fault Refusal :=
  .next (s.issueM core p .dot2a n a b rest)

/-- DOT4 (R200): the sum of four products, replacing ACn. -/
def execDot4 (core : Fin 34) (p : Pred) (n : Fin 4) (a b : Fin 32) (rest : Bundle) (s : State) : Host.Outcome State Fault Refusal :=
  .next (s.issueM core p .dot4 n a b rest)

/-- DOT4A (R200): ACn plus the sum of four products. -/
def execDot4a (core : Fin 34) (p : Pred) (n : Fin 4) (a b : Fin 32) (rest : Bundle) (s : State) : Host.Outcome State Fault Refusal :=
  .next (s.issueM core p .dot4a n a b rest)

/-- CRES0 (R201): a resonator step; repetition 0 replaces the accumulators. -/
def execCres0 (core : Fin 34) (p : Pred) (n : Fin 4) (a b : Fin 32) (rest : Bundle) (s : State) : Host.Outcome State Fault Refusal :=
  .next (s.issueM core p .cres0 n a b rest)

/-- CRES (R201): a resonator step, accumulating. -/
def execCres (core : Fin 34) (p : Pred) (n : Fin 4) (a b : Fin 32) (rest : Bundle) (s : State) : Host.Outcome State Fault Refusal :=
  .next (s.issueM core p .cres n a b rest)

end Sys2Proof.Machine
end

