-- ==== Sys2Proof/Machine/CoreSynth.lean ====
section
/-! DEFINITION. The voice-core commands of the synthesis assists (R207, R216 to R225). Each issues a bundle that holds
the operation; `rest` gives the other slots. -/

namespace Sys2Proof.Machine

/-- RND (R225): the next noise value. -/
def execRnd (core : Fin 34) (p : Pred) (d : Fin 32) (rest : Bundle) (s : State) : Host.Outcome State Fault Refusal :=
  .next (s.issueC core p (.rnd d) rest Access.quiet)

/-- RSEED (R225): the noise key from a register pair. -/
def execRseed (core : Fin 34) (p : Pred) (a : Fin 32) (rest : Bundle) (s : State) : Host.Outcome State Fault Refusal :=
  .next (s.issueC core p (.rseed a) rest Access.quiet)

/-- PASET (R216): the phase or increment of an accumulator written. -/
def execPaset (core : Fin 34) (p : Pred) (incr : Bool) (k : Fin 16) (a : Fin 32) (rest : Bundle)
    (s : State) : Host.Outcome State Fault Refusal :=
  .next (s.issueC core p (.paset incr k a) rest Access.quiet)

/-- PAGET (R216): the phase or increment of an accumulator read. -/
def execPaget (core : Fin 34) (p : Pred) (incr : Bool) (k : Fin 16) (d : Fin 32) (rest : Bundle)
    (s : State) : Host.Outcome State Fault Refusal :=
  .next (s.issueC core p (.paget incr k d) rest Access.quiet)

/-- PACC (R216): the phase read and advanced. -/
def execPacc (core : Fin 34) (p : Pred) (carry : Option (Fin 8)) (k : Fin 16) (d : Fin 32) (rest : Bundle)
    (s : State) : Host.Outcome State Fault Refusal :=
  .next (s.issueC core p (.pacc carry k d) rest Access.quiet)

/-- PRAMP (R218): a ramped value read and the position advanced. -/
def execPramp (core : Fin 34) (p : Pred) (k : Fin 128) (d : Fin 32) (rest : Bundle) (s : State) : Host.Outcome State Fault Refusal :=
  .next (s.issueC core p (.pramp k d) rest Access.quiet)

/-- TFETCH (R207, R219 to R222, R230): points and weights of a table region. -/
def execTfetch (core : Fin 34) (p : Pred) (cubic : Bool) (r : Fin 64) (g : Fin 4) (a : Fin 32) (rest : Bundle) (acc : Access)
    (s : State) : Host.Outcome State Fault Refusal :=
  .next (s.issueC core p (.tfetch cubic r g a) rest acc)

/-- TREAD (R220, R230): one word of a table region. -/
def execTread (core : Fin 34) (p : Pred) (r : Fin 64) (d a : Fin 32) (rest : Bundle) (acc : Access)
    (s : State) : Host.Outcome State Fault Refusal :=
  .next (s.issueC core p (.tread r d a) rest acc)

/-- BLEP (R224): a band-limited correction. -/
def execBlep (core : Fin 34) (p : Pred) (t : Fin 8) (d a : Fin 32) (rest : Bundle) (s : State) : Host.Outcome State Fault Refusal :=
  .next (s.issueC core p (.blep t d a) rest Access.quiet)

end Sys2Proof.Machine
end

