-- ==== Sys2Proof/Machine/Host.lean ====
section
/-! DEFINITION. The PCIe endpoint, its DMA engine and host SPI (R303, R304, R338 to R347). -/

namespace Sys2Proof.Machine

/-! ### The endpoint (R338, R339) -/

/-- PCIE_RESET (R339, R401): the PCI page and the host streams return to reset; a link that went down has trained again to generation `gen`
and width `width`. -/
def execPcieReset (kind : PcieReset) (gen width : Fin 4) (s : State) : Host.Outcome State Fault Refusal :=
  let link := s.fld Reg.PCI_STAT 0 8
  let t : State := { s with
    regs := s.regs.filter (fun e => decide (e.1 / 0x1000 ≠ Page.pci))
    deferred := s.deferred.filter (fun p => decide (p ≠ Page.pci))
    net := { s.net with hso := [] } }
  .next (t.setFld Reg.PCI_STAT 0 8 (if kind = .functionLevel then link else gen.val + 16 * width.val))

/-- PCIE_AER_ERROR (R338, R356). -/
def execPcieAerError (s : State) : Host.Outcome State Fault Refusal :=
  if s.serving = false then .next s else .next (((s.raise Page.pci 0).pageErr Page.pci).logError 0x1A00 0 0 false)

/-- What an access to a 16-byte word meets. -/
def accessAt (l : List (Nat × Access)) (w : Nat) : Access := ((l.find? (fun e => decide (e.1 = w))).map (fun e => e.2)).getD Access.quiet

/-- A port B master reads `n` Concourse bytes from `a`, word by word in ascending order (R303): a poisoned word gives none. -/
def State.conReadSpan (s : State) (master a n : Nat) (meet : List (Nat × Access)) : Nat → State × List (Option Byte)
  | 0 => (s, [])
  | fuel + 1 =>
    if n = 0 then (s, [])
    else
      let k := min n (16 - a % 16)
      let r := s.conReadWord master .bulk a k (accessAt meet (a / 16))
      let bytes := match r.2 with
        | some d => (d.take k).map some
        | none => List.replicate k none
      let rest := State.conReadSpan r.1 master (a + k) (n - k) meet fuel
      (rest.1, bytes ++ rest.2)

/-- A port B master writes Concourse bytes from `a`, word by word: the state, whether a write lost a collision, and whether one was not
performed because its word is uncorrectable. -/
def State.conWriteSpan (s : State) (master a : Nat) (data : List Byte) (meet : List (Nat × Access)) : Nat → State × Bool × Bool
  | 0 => (s, false, false)
  | fuel + 1 =>
    if data.isEmpty then (s, false, false)
    else
      let k := 16 - a % 16
      let r := s.conWriteWord master .bulk a (data.take k) (accessAt meet (a / 16))
      let rest := State.conWriteSpan r.1 master (a + k) (data.drop k) meet fuel
      (rest.1, decide (r.2 = .lost) || rest.2.1, decide (r.2 = .poisoned) || rest.2.2)

/-- The address at which port B performs an access (R302): in a granule that is not in rotate mode the bits below the smallest access size are
ignored. -/
def State.portAddr (s : State) (a : Nat) : Nat := if s.granule a % 4 = 1 then a else a / 4 * 4

/-- Whether the BAR2 and BAR4 windows are closed by standby (R414). -/
def State.windowsShut (s : State) : Bool := decide (s.powerState = 2) || decide (s.powerState = 3)

/-- What a read returns to the host: a poisoned TLP when a byte is lost. -/
def State.complete (s : State) (d : List (Option Byte)) : State :=
  if d.all Option.isSome then s.send (.bytes (d.filterMap id)) else s.send .poisoned

/-- PCIE_CONCOURSE_ACCESS (R338): a BAR2 request writes `wr`, or reads `n` bytes. -/
def execPcieConcourseAccess (a : BitVec 25) (wr : Option (List Byte)) (n : Fin 4097) (meet : List (Nat × Access)) (s : State) :
    Host.Outcome State Fault Refusal :=
  if s.serving = false then .next s
  else if s.windowsShut then .next (s.send .completionUr)
  else
    let at_ := s.portAddr a.toNat
    match wr with
    | some d =>
      let e := d.take (2 ^ 25 - at_)
      .next (s.conWriteSpan 44 at_ e meet (e.length + 1)).1
    | none =>
      let r := s.conReadSpan 44 at_ (min n.val (2 ^ 25 - at_)) meet (n.val + 1)
      .next (r.1.complete r.2)

/-- Byte errors of the lines that a span of Sample Memory touches. -/
def lineErrs (errs : List (Nat × Nat)) (a n : Nat) : List Nat :=
  (List.range (n / 64 + 2)).map (fun i => ((errs.find? (fun e => decide (e.1 = a / 64 + i))).map (fun e => e.2)).getD 0)

/-- PCIE_SAMPLE_MEMORY_ACCESS (R313, R338): a BAR4 request writes `wr`, or reads `n` bytes. -/
def execPcieSampleMemoryAccess (a : BitVec 32) (wr : Option (List Byte)) (n : Fin 4097) (errs : List (Nat × Nat)) (s : State) :
    Host.Outcome State Fault Refusal :=
  let len := match wr with
    | some d => d.length
    | none => n.val
  if s.serving = false then .next s
  else if s.windowsShut ∨ dramSize < a.toNat + max 1 len then .next (s.send .completionUr)
  else
    let l := lineErrs errs a.toNat len
    match wr with
    | some d => .next (s.writeDram a.toNat d l (d.length + 1))
    | none =>
      let r := s.readDram a.toNat n.val l (n.val + 1)
      .next (r.1.complete r.2)

/-- An atomic operation at the bank (R304): it adds, or swaps, the 32-bit word at `a`; the old value, none when the word is uncorrectable, and
whether the write lost a collision. -/
def State.atomic (s : State) (master a : Nat) (add : Bool) (v : Word) (acc : Access) : State × Option Word × Bool :=
  let old := s.conWord a
  let r := s.conWriteWord master .bulk a (leBytes 4 (if add then old + v else v).toNat) acc
  match r.2 with
  | .poisoned => (r.1, none, false)
  | .lost => (r.1, some old, true)
  | _ => (r.1.count 458 1, some old, false)

/-- Whether an address is one of an atomic granule. -/
def State.atomicGranule (s : State) (a : Nat) : Bool := decide (s.granule a % 4 = 2)

/-- PCIE_ATOMIC (R304): a request of `wide` 64 bits or 32, aimed at BAR2 or elsewhere. -/
def execPcieAtomic (kind : AtomicKind) (bar2 wide : Bool) (a : BitVec 25) (v : Word) (acc : Access) (s : State) :
    Host.Outcome State Fault Refusal :=
  if s.serving = false then .next s
  else if s.windowsShut ∨ bar2 = false ∨ wide ∨ kind = .compareSwap ∨ a.toNat % 4 ≠ 0 ∨ s.atomicGranule a.toNat = false then
    .next (s.send .completionUr)
  else
    let r := s.atomic 44 a.toNat (decide (kind = .fetchAdd)) v acc
    .next (match r.2.1 with
      | some old => r.1.send (.bytes (leBytes 4 old.toNat))
      | none => r.1.send .poisoned)

/-! ### DMA (R341) -/

/-- A descriptor. -/
structure DmaDesc where
  src : Nat
  dst : Nat
  len : Nat
  op : Nat
  ssp : Nat
  dsp : Nat

/-- Reads a descriptor's bytes. -/
def dmaDesc (b : List Byte) : DmaDesc :=
  let c := leAt b 20 1
  { src := leAt b 0 8, dst := leAt b 8 8, len := bitsOf (leAt b 16 4) 0 25, op := bitsOf c 0 4, ssp := bitsOf c 4 2, dsp := bitsOf c 6 2 }

/-- Whether a descriptor is valid: its operation and spaces, its length, the alignment of its addresses, and for an atomic operation a
destination in the Concourse. -/
def DmaDesc.valid (d : DmaDesc) : Bool :=
  decide (d.op < 4) && decide (d.ssp ≠ 3) && decide (d.dsp ≠ 3) && decide (d.dst % 4 = 0) && (decide (d.op ≠ 0) || decide (d.src % 4 = 0)) &&
    (if d.op < 2 then decide (4 ≤ d.len) && decide (d.len ≤ 2 ^ 24) && decide (d.len % 4 = 0) else decide (d.len = 4) && decide (d.dsp = 1))

/-- The end of an address space. -/
def spaceEnd (sp : Nat) : Nat := if sp = 1 then 2 ^ 25 else if sp = 2 then dramSize else 2 ^ 64

/-- How a transfer stands. -/
structure DmaRun where
  st : State
  coll : Bool
  poison : Bool
  reason : Nat          -- 0 while it goes on

/-- The source bytes of a piece of a transfer that has moved `done` bytes. -/
def State.dmaRead (s : State) (d : DmaDesc) (m : DmaMeet) (done n : Nat) : State × List (Option Byte) :=
  if d.op = 1 then (s, (List.range n).map (fun i => some (BitVec.ofNat 8 (d.src / 2 ^ (8 * (i % 4))))))
  else if d.ssp = 0 then (s, (List.range n).map (fun i => m.host[done + i]?))
  else if s.windowsShut then (s, [])
  else if d.ssp = 1 then s.conReadSpan 41 (d.src + done) n m.reads (n + 1)
  else s.readDram (d.src + done) n (lineErrs m.errs (d.src + done) n) (n + 1)

/-- Writes the bytes of a piece. -/
def State.dmaWrite (s : State) (d : DmaDesc) (m : DmaMeet) (done : Nat) (data : List Byte) : State × Bool × Bool :=
  let t := s.count 492 data.length
  if d.dsp = 0 then (t.putHost (d.dst + done) data, false, false)
  else if s.windowsShut then (s, false, true)
  else if d.dsp = 1 then t.conWriteSpan 41 (d.dst + done) data m.writes (data.length + 1)
  else (t.writeDram (d.dst + done) data (lineErrs m.errs (d.dst + done) data.length) (data.length + 1), false, false)

/-- The bytes before the first that is lost. -/
def cleanPrefix : List (Option Byte) → List Byte
  | some b :: r => b :: cleanPrefix r
  | _ => []

/-- One piece of a transfer: 4 KiB, or what is left or in range of both spaces. -/
def DmaRun.piece (x : DmaRun) (d : DmaDesc) (m : DmaMeet) (k : Nat) : DmaRun :=
  let done := 4096 * k
  let want := min 4096 (d.len - done)
  let room := min (if d.op = 1 then want else spaceEnd d.ssp - (d.src + done)) (spaceEnd d.dsp - (d.dst + done))
  let n := min want room
  let r := x.st.dmaRead d m done n
  let good := cleanPrefix r.2
  let w := r.1.dmaWrite d m done good
  let lost := decide (good.length < n)
  { st := w.1, coll := x.coll || w.2.1
    poison := x.poison || (lost && (decide (d.ssp ≠ 0) && !r.1.windowsShut || decide (d.ssp = 0) && m.poisoned))
    reason := if lost ∨ w.2.2 then 2 else if n < want then 3 else 0 }

/-- The pieces of a transfer from the `k`-th on; it stops at a REASON, and at PAGE_CTRL.EN cleared (R353). -/
def DmaRun.pieces (x : DmaRun) (d : DmaDesc) (m : DmaMeet) (k : Nat) : Nat → DmaRun
  | 0 => x
  | fuel + 1 =>
    if x.reason ≠ 0 ∨ d.len ≤ 4096 * k then x
    else if x.st.pageOn Page.pci = false ∧ m.stop ≤ k then { x with reason := 4 }
    else DmaRun.pieces (x.piece d m k) d m (k + 1) fuel

/-- Whether the engine executes a descriptor. -/
def State.dmaReady (s : State) : Bool :=
  s.serving && s.bit Reg.PCI_DMA_CFG 8 && (s.pageOn Page.pci || s.bit (Reg.PAGE_STAT Page.pci) 1) &&
    decide (s.fld Reg.PCI_DMA_PI 0 16 ≠ s.fld Reg.PCI_DMA_CI 0 16)

/-- A descriptor ends: RESULT and then its status are written into the ring, and CI advances. -/
def DmaRun.finish (x : DmaRun) (result : Option Word) : State :=
  let s := x.st
  let ci := s.fld Reg.PCI_DMA_CI 0 16
  let at_ := (s.reg Reg.PCI_DMA_BASE_LO).toNat / 64 * 64 + 2 ^ 32 * (s.reg Reg.PCI_DMA_BASE_HI).toNat +
    32 * (ci % ringSize (s.fld Reg.PCI_DMA_CFG 0 4) 4 12)
  let status := 1 + (if x.reason ≠ 0 then 2 else 0) + (if x.coll then 4 else 0) + (if x.poison then 8 else 0) + 16 * x.reason
  let s1 := match result with
    | some v => s.putHost (at_ + 28) (leBytes 4 v.toNat)
    | none => s
  let s2 := ((s1.putHost (at_ + 24) (leBytes 4 status)).setReg Reg.PCI_DMA_CI (BitVec.ofNat 32 ((ci + 1) % 2 ^ 16))).bump Reg.PCI_DMA_DONE_CNT
  if x.reason ≠ 0 then s2.bump Reg.PCI_DMA_ERR_CNT else s2

/-- A descriptor that only ends. -/
def State.dmaEnd (s : State) (reason : Nat) : State := DmaRun.finish { st := s, coll := false, poison := false, reason := reason } none

/-- A COPY or FILL descriptor runs. -/
def State.dmaMove (s : State) (desc : List Byte) (m : DmaMeet) : State :=
  let d := dmaDesc desc
  (DmaRun.pieces { st := s, coll := false, poison := false, reason := 0 } d m 0 4097).finish none

/-- An ADD32 or SWAP descriptor runs. -/
def State.dmaAtomic (s : State) (desc : List Byte) (m : DmaMeet) : State :=
  let d := dmaDesc desc
  if spaceEnd 1 < d.dst + 4 then s.dmaEnd 3
  else if s.windowsShut ∨ s.atomicGranule d.dst = false then s.dmaEnd 2
  else
    let r := s.atomic 41 d.dst (decide (d.op = 2)) (BitVec.ofNat 32 d.src) (accessAt m.writes (d.dst / 16))
    match r.2.1 with
    | some old => DmaRun.finish { st := r.1.count 492 4, coll := r.2.2, poison := false, reason := 0 } (some old)
    | none => DmaRun.finish { st := r.1, coll := false, poison := true, reason := 2 } none

/-- Whether the engine meets a valid descriptor of an operation. -/
def State.dmaMeets (s : State) (desc : List Byte) (op : Nat) : Bool := s.dmaReady && (dmaDesc desc).valid && decide ((dmaDesc desc).op = op)

/-- DMA_DOORBELL (R341): a write of PCI_DMA_PI. -/
def execDmaDoorbell (path : Path) (v : Word) (s : State) : Host.Outcome State Fault Refusal :=
  .next (s.hostWrite (.host path) Reg.PCI_DMA_PI v (storeAct Reg.PCI_DMA_PI))

/-- DMA_COPY (R341): `desc` is the descriptor at CI as host memory holds it. -/
def execDmaCopy (desc : List Byte) (m : DmaMeet) (s : State) : Host.Outcome State Fault Refusal :=
  if s.dmaMeets desc 0 then .next (s.dmaMove desc m) else .next s

/-- DMA_FILL (R341). -/
def execDmaFill (desc : List Byte) (m : DmaMeet) (s : State) : Host.Outcome State Fault Refusal :=
  if s.dmaMeets desc 1 then .next (s.dmaMove desc m) else .next s

/-- DMA_ADD32 (R304). -/
def execDmaAdd32 (desc : List Byte) (m : DmaMeet) (s : State) : Host.Outcome State Fault Refusal :=
  if s.dmaMeets desc 2 then .next (s.dmaAtomic desc m) else .next s

/-- DMA_SWAP (R304). -/
def execDmaSwap (desc : List Byte) (m : DmaMeet) (s : State) : Host.Outcome State Fault Refusal :=
  if s.dmaMeets desc 3 then .next (s.dmaAtomic desc m) else .next s

/-- DMA_INVALID_DESCRIPTOR (R341). -/
def execDmaInvalidDescriptor (desc : List Byte) (s : State) : Host.Outcome State Fault Refusal :=
  if s.dmaReady ∧ (dmaDesc desc).valid = false then .next (s.dmaEnd 1) else .next s

/-! ### Host SPI (R344 to R347) -/

/-- HBUSY: a WRITE or RDREQ in progress, or a full FIFO. -/
def State.hbusy (s : State) : Bool := s.net.spi.busy || decide (64 ≤ s.ing.spi.length)

/-- Changes the slave. -/
def State.updSpi (s : State) (f : SpiSlave → SpiSlave) : State := { s with net := { s.net with spi := f s.net.spi } }

/-- The status byte. -/
def State.spiStatus (s : State) : Byte :=
  let b := fun (x : Bool) (i : Nat) => if x then 2 ^ i else 0
  BitVec.ofNat 8 (b s.hbusy 0 + b (decide (64 ≤ s.ing.spi.length)) 1 + b s.net.spi.refused 2 + b s.net.spi.frameErr 3 + b s.hintLow 4)

/-- The status byte is read, followed by other bytes. -/
def State.spiReturn (s : State) (rest : List Byte) : State :=
  (s.send (.spi (s.spiStatus :: rest))).updSpi (fun x => { x with refused := false, frameErr := false })

/-- A transaction is refused. -/
def State.spiRefuse (s : State) : State := (s.bump Reg.HSP_REFUSE_CNT).updSpi (fun x => { x with refused := true })

/-- A transaction of command `cmd` ends with `clocks` clocks (R346, R347): it is refused, not performed because `clocks` is none that its command has, or
performed by `act`. -/
def State.spiRun (s : State) (cmd clocks : Nat) (refuse good : Bool) (act : State → State) : State :=
  if s.serving = false ∨ s.pwr.vioA = false then s
  else if refuse then s.spiRefuse
  else
    let k := s.check Page.hsp 0 0 (!good)
    if k.hit then k.st.spiFrameError cmd clocks k.inj else act ((s.bump Reg.HSP_TXN_CNT).count 494 1)

/-- SPI_WRITE (R345). -/
def execSpiWrite (off : BitVec 20) (words : List Word) (clocks : BitVec 16) (s : State) : Host.Outcome State Fault Refusal :=
  let good := decide (1 ≤ words.length) && decide (words.length ≤ 64) && decide (clocks.toNat = 14 + 8 * words.length)
  .next (s.spiRun 0x02 clocks.toNat s.hbusy good (fun t =>
    (words.zipIdx.foldl (fun u e => u.regWrite (.host .spi) (off.toNat + 4 * e.2) e.1) (t.updSpi (fun x => { x with busy := true })))))

/-- The words of an RDREQ, each read in turn; media time and gPTP time within a sample are free. -/
def State.spiRead (s : State) (off : Nat) : Nat → State × List Word
  | 0 => (s, [])
  | n + 1 =>
    let f := s.draw 8
    let p := f.2.draw 64
    let r := p.2.readReg .spi off (BitVec.ofNat 8 f.1) (BitVec.ofNat 64 p.1)
    let rest := State.spiRead r.1 (off + 4) n
    (rest.1, r.2 :: rest.2)

/-- SPI_RDREQ (R345): `n` + 1 words. -/
def execSpiRdreq (off : BitVec 20) (n : Fin 16) (clocks : BitVec 16) (s : State) : Host.Outcome State Fault Refusal :=
  .next (s.spiRun 0x0B clocks.toNat s.hbusy (decide (clocks.toNat = 16)) (fun t =>
    let r := t.spiRead off.toNat (n.val + 1)
    r.1.updSpi (fun x => { x with busy := true, words := r.2 })))

/-- A word as SPI sends it: most significant byte first. -/
def spiWord (w : Word) : List Byte := (leBytes 4 w.toNat).reverse

/-- SPI_RDDATA (R345). -/
def execSpiRddata (clocks : BitVec 16) (s : State) : Host.Outcome State Fault Refusal :=
  .next (s.spiRun 0x0C clocks.toNat s.hbusy (decide (clocks.toNat = 12 + 8 * s.net.spi.words.length)) (fun t =>
    t.spiReturn ((t.net.spi.words.map spiWord).flatten)))

/-- SPI_EVENT (R45, R345, R353): the entry arrives at the rise of chip select. -/
def execSpiEvent (entry : List Byte) (clocks : BitVec 16) (s : State) : Host.Outcome State Fault Refusal :=
  .next (s.spiRun 0x10 clocks.toNat (s.hbusy || !s.pageOn Page.hsp) (decide (entry.length = 32) && decide (clocks.toNat = 72)) (fun t =>
    let a := t.arrive
    let u : State := { a.2 with ing := { a.2.ing with spi := a.2.ing.spi ++ [(entry, { upTo := 0, arr := t.clk.mt.toNat, seq := a.1 })] } }
    u.setFld Reg.ING_SPI_STAT 0 7 u.ing.spi.length))

/-- SPI_STATUS (R345, R346): never refused. -/
def execSpiStatus (clocks : BitVec 16) (s : State) : Host.Outcome State Fault Refusal :=
  .next (s.spiRun 0x05 clocks.toNat false (decide (clocks.toNat = 12)) (fun t => t.spiReturn []))

/-- SPI_UNKNOWN_COMMAND (R347): a command byte that R345 does not list. -/
def execSpiUnknownCommand (cmd : Byte) (clocks : BitVec 16) (s : State) : Host.Outcome State Fault Refusal :=
  if cmd.toNat ∈ [0x02, 0x05, 0x0B, 0x0C, 0x10] then .next s
  else .next (s.spiRun cmd.toNat clocks.toNat s.hbusy false (fun t => t))

/-- SPI_REGISTER_ACCESS_DONE (R346): the register access of a WRITE or RDREQ is complete. -/
def execSpiRegisterAccessDone (s : State) : Host.Outcome State Fault Refusal := .next (s.updSpi (fun x => { x with busy := false }))

end Sys2Proof.Machine
end

