-- ==== Sys2Proof/Machine/Output.lean ====
section
/-! DEFINITION. The output sample: what every queue releases and where it goes (R10, R262, R269, R331, R342, R350). -/

namespace Sys2Proof.Machine

/-! ### Host output streams (R342) -/

/-- A host output stream's state. -/
def State.hso (s : State) (k : Nat) : HostOut := Sparse.get (fun _ => HostOut.reset) s.net.hso k

/-- Replaces it. -/
def State.setHso (s : State) (k : Nat) (x : HostOut) : State :=
  { s with net := { s.net with hso := Sparse.put (fun _ => HostOut.reset) s.net.hso k x } }

/-- The stride of a host-stream record of `c` channels. -/
def State.hostStride (s : State) (c : Nat) : Nat := (64 + s.blk * c * 4 + 63) / 64 * 64

/-- Records of a host stream's ring, from its configuration register. -/
def State.hostRing (s : State) (cfg : Nat) : Nat := 2 ^ min 8 (max 1 (s.fld cfg 0 4))

/-- The record of block `n` of host output stream `k` is written, header last, or abandoned when it is late. Header bytes 12 to 15, which
R342 does not name, are free. -/
def State.writeHostRecord (s : State) (k n : Nat) (samples : List (List Word × Bool)) (late : Bool) : State :=
  if late then s.bump Reg.PCI_HS_LATE_CNT
  else
    let c := s.queueChannels (40 + k)
    let base := (s.reg (Reg.PCI_HSO_BASE_LO k)).toNat / 64 * 64 + 2 ^ 32 * (s.reg (Reg.PCI_HSO_BASE_HI k)).toNat +
      n % s.hostRing (Reg.PCI_HSO_CFG k) * s.hostStride c
    let data := (samples.map (fun e => ((e.1.take c).map (fun w => leBytes 4 w.toNat)).flatten)).flatten
    let mask := (samples.zipIdx.filter (fun e => e.1.2)).foldl (fun a e => a + 2 ^ e.2) 0
    let d := s.draw 32
    let head := leBytes 8 (n * s.blk * 256) ++ leBytes 4 (bseqOf n) ++ leBytes 4 d.1 ++ leBytes 8 mask ++ List.replicate 40 0
    (((d.2.putHost (base + 64) data).putHost base head).setReg (Reg.PCI_HSO_BLK k) (BitVec.ofNat 32 (bseqOf n)))

/-- Host output stream `k` takes the sample that its queue has just released; with the last sample of the period its record is due. -/
def State.hostOutSample (s : State) (late : BitVec 8) (k : Nat) : State :=
  let q := s.queue (40 + k)
  let x0 := s.hso k
  let x : HostOut :=
    if s.offset = 0 then { on := s.bit (Reg.PCI_HSO_CFG k) 31 && s.pageOn Page.pci, samples := [] } else x0
  if x.on = false then s.setHso k x
  else
    let all := x.samples ++ [(q.outV, q.outValid)]
    if s.offset + 1 = s.blk then
      let t := s.setHso k { x with samples := [] }
      let d := s.depth (40 + k)
      if s.period + 1 < d then t else t.writeHostRecord k (s.period + 1 - d) all (late.getLsbD k)
    else s.setHso k { x with samples := all }

/-! ### The command -/

/-- OUTPUT_SAMPLE (R262, R263, R269): the sample at MT is released by every queue and taken by the outputs, and MT moves to the next one;
`late` marks the host output records that the link could not take in time. While media time is stopped the analog outputs alone go on. -/
def execOutputSample (late : BitVec 8) (s : State) : Host.Outcome State Fault Refusal :=
  if s.serving = false ∨ s.powerState = 2 ∨ s.powerState = 3 then .next s
  else if s.running = false then .next s.dacSamples
  else
    let t := s.sample
    let s1 := if s.offset = 0 then (List.range 4).foldl (fun u p => u.tdmApply p) s else s
    let s2 := queueNumbers.foldl (fun u q => u.queueSample q) s1
    let s3 := (List.range 32).foldl (fun u i => u.txSample i t) s2
    let s4 := (List.range 4).foldl (fun u p => u.tdmSample p t) s3
    let s5 := (List.range 8).foldl (fun u k => u.hostOutSample late k) s4
    let s6 := s5.dacSamples
    let s7 : State := { s6 with clk := { s6.clk with mt := s6.clk.mt + 256 } }
    .next (if s7.offset = 0 then s7.standbyCommit else s7)

end Sys2Proof.Machine
end

