-- ==== Sys2Proof/Machine/Dispatch.lean ====
section
/-! DEFINITION. One arm per command: a direct call of its meaning. -/

namespace Sys2Proof.Machine

def exec (i : Instr) (s : State) : Host.Outcome State Fault Refusal :=
  match i with
  | .mediaConfigWrite path v => Sys2Proof.Machine.execMediaConfigWrite path v s
  | .mediaStop path v => Sys2Proof.Machine.execMediaStop path v s
  | .mediaStopComplete => Sys2Proof.Machine.execMediaStopComplete s
  | .mediaRun path v => Sys2Proof.Machine.execMediaRun path v s
  | .mediaCounterStart t => Sys2Proof.Machine.execMediaCounterStart t s
  | .mtLoad path v => Sys2Proof.Machine.execMtLoad path v s
  | .mtRead path frac => Sys2Proof.Machine.execMtRead path frac s
  | .sourceQualified x => Sys2Proof.Machine.execSourceQualified x s
  | .sourceLost x avg => Sys2Proof.Machine.execSourceLost x avg s
  | .mediaPllLocked ns adj => Sys2Proof.Machine.execMediaPllLocked ns adj s
  | .sourcePromotion x => Sys2Proof.Machine.execSourcePromotion x s
  | .sourceChange ns avg => Sys2Proof.Machine.execSourceChange ns avg s
  | .pllLockLoss pll => Sys2Proof.Machine.execPllLockLoss pll s
  | .boundaryStep recs => Sys2Proof.Machine.execBoundaryStep recs s
  | .expressStep => Sys2Proof.Machine.execExpressStep s
  | .ringDoorbell path n v => Sys2Proof.Machine.execRingDoorbell path n v s
  | .ringEntryRead n data => Sys2Proof.Machine.execRingEntryRead n data s
  | .spiFifoForward => Sys2Proof.Machine.execSpiFifoForward s
  | .nmidCommand sess seqno umps => Sys2Proof.Machine.execNmidCommand sess seqno umps s
  | .timetableEntry src ump stamp cls notify tag => Sys2Proof.Machine.execTimetableEntry src ump stamp cls notify tag s
  | .fencePlace => Sys2Proof.Machine.execFencePlace s
  | .fenceComplete => Sys2Proof.Machine.execFenceComplete s
  | .notificationFlush => Sys2Proof.Machine.execNotificationFlush s
  | .partQuotaWrite path p v => Sys2Proof.Machine.execPartQuotaWrite path p v s
  | .hostParameterWrite path v => Sys2Proof.Machine.execHostParameterWrite path v s
  | .modulationEval cycles => Sys2Proof.Machine.execModulationEval cycles s
  | .taskBind x cyc => Sys2Proof.Machine.execTaskBind x cyc s
  | .taskStage n slot1 a upset => Sys2Proof.Machine.execTaskStage n slot1 a upset s
  | .sidingMove n => Sys2Proof.Machine.execSidingMove n s
  | .take core p d rest => Sys2Proof.Machine.execTake core p d rest s
  | .takeDelivery n cyc wait => Sys2Proof.Machine.execTakeDelivery n cyc wait s
  | .yieldTask core p flags rest => Sys2Proof.Machine.execYieldTask core p flags rest s
  | .commitCheck n ux uy => Sys2Proof.Machine.execCommitCheck n ux uy s
  | .streamFillReturn slot k errs => Sys2Proof.Machine.execStreamFillReturn slot k errs s
  | .taskDeadline => Sys2Proof.Machine.execTaskDeadline s
  | .taskAbort n => Sys2Proof.Machine.execTaskAbort n s
  | .abortTimeout n => Sys2Proof.Machine.execAbortTimeout n s
  | .shuntRequest path v => Sys2Proof.Machine.execShuntRequest path v s
  | .expCyclesWrite path v => Sys2Proof.Machine.execExpCyclesWrite path v s
  | .expCfgWrite path v => Sys2Proof.Machine.execExpCfgWrite path v s
  | .histClear path v => Sys2Proof.Machine.execHistClear path v s
  | .voiceSumClose => Sys2Proof.Machine.execVoiceSumClose s
  | .busTaskDeadline => Sys2Proof.Machine.execBusTaskDeadline s
  | .finalSumClose => Sys2Proof.Machine.execFinalSumClose s
  | .frameBoundary => Sys2Proof.Machine.execFrameBoundary s
  | .queueBlockArrival q => Sys2Proof.Machine.execQueueBlockArrival q s
  | .outputSample late => Sys2Proof.Machine.execOutputSample late s
  | .queueEnable path q v => Sys2Proof.Machine.execQueueEnable path q v s
  | .queueDisable path q v => Sys2Proof.Machine.execQueueDisable path q v s
  | .captureSample port ch t second w => Sys2Proof.Machine.execCaptureSample port ch t second w s
  | .monitorSample c x => Sys2Proof.Machine.execMonitorSample c x s
  | .readbackAction c => Sys2Proof.Machine.execReadbackAction c s
  | .coefWrite path v => Sys2Proof.Machine.execCoefWrite path v s
  | .tapsWrite path v => Sys2Proof.Machine.execTapsWrite path v s
  | .busSetChange path v => Sys2Proof.Machine.execBusSetChange path v s
  | .capSetChange path v => Sys2Proof.Machine.execCapSetChange path v s
  | .monitorLengthWrite path v => Sys2Proof.Machine.execMonitorLengthWrite path v s
  | .captureSourceWrite path k v => Sys2Proof.Machine.execCaptureSourceWrite path k v s
  | .clampRelease c => Sys2Proof.Machine.execClampRelease c s
  | .clearRampEnd c => Sys2Proof.Machine.execClearRampEnd c s
  | .outclrAssert => Sys2Proof.Machine.execOutclrAssert s
  | .outclrRelease => Sys2Proof.Machine.execOutclrRelease s
  | .softwareClear path v => Sys2Proof.Machine.execSoftwareClear path v s
  | .filterSwitch path v => Sys2Proof.Machine.execFilterSwitch path v s
  | .rangeSwitch path c v => Sys2Proof.Machine.execRangeSwitch path c v s
  | .switchGainChange c => Sys2Proof.Machine.execSwitchGainChange c s
  | .switchSequenceEnd c => Sys2Proof.Machine.execSwitchSequenceEnd c s
  | .clearCodeWrite path c v => Sys2Proof.Machine.execClearCodeWrite path c v s
  | .maskWrite path c v => Sys2Proof.Machine.execMaskWrite path c v s
  | .channelEnable path c v => Sys2Proof.Machine.execChannelEnable path c v s
  | .channelDisable path c v => Sys2Proof.Machine.execChannelDisable path c v s
  | .toneEnable path c v => Sys2Proof.Machine.execToneEnable path c v s
  | .toneDisable path c v => Sys2Proof.Machine.execToneDisable path c v s
  | .readbackFaultClear path c v => Sys2Proof.Machine.execReadbackFaultClear path c v s
  | .overcurrentTrip c nLeg => Sys2Proof.Machine.execOvercurrentTrip c nLeg s
  | .overcurrentClear path c v => Sys2Proof.Machine.execOvercurrentClear path c v s
  | .avddChange ok hi => Sys2Proof.Machine.execAvddChange ok hi s
  | .concourseWriteback w => Sys2Proof.Machine.execConcourseWriteback w s
  | .testModeWrite path v => Sys2Proof.Machine.execTestModeWrite path v s
  | .attributeWrite path k v => Sys2Proof.Machine.execAttributeWrite path k v s
  | .backgroundTestStart => Sys2Proof.Machine.execBackgroundTestStart s
  | .marchDone fail => Sys2Proof.Machine.execMarchDone fail s
  | .backgroundTestTimeout => Sys2Proof.Machine.execBackgroundTestTimeout s
  | .bankRebuild path v => Sys2Proof.Machine.execBankRebuild path v s
  | .rebuildRow redo upsets => Sys2Proof.Machine.execRebuildRow redo upsets s
  | .bankReturn path v => Sys2Proof.Machine.execBankReturn path v s
  | .bankReturnDone fail => Sys2Proof.Machine.execBankReturnDone fail s
  | .scrubLine errs odecc0 odecc1 => Sys2Proof.Machine.execScrubLine errs odecc0 odecc1 s
  | .pageRetireDone page failed errs => Sys2Proof.Machine.execPageRetireDone page failed errs s
  | .tableRegionWrite path r isCfg v => Sys2Proof.Machine.execTableRegionWrite path r isCfg v s
  | .nop core rest => Sys2Proof.Machine.execNop core rest s
  | .mul core p n a b rest => Sys2Proof.Machine.execMul core p n a b rest s
  | .mac core p n a b rest => Sys2Proof.Machine.execMac core p n a b rest s
  | .msc core p n a b rest => Sys2Proof.Machine.execMsc core p n a b rest s
  | .cmul core p n a b rest => Sys2Proof.Machine.execCmul core p n a b rest s
  | .cmac core p n a b rest => Sys2Proof.Machine.execCmac core p n a b rest s
  | .cmsc core p n a b rest => Sys2Proof.Machine.execCmsc core p n a b rest s
  | .cmacj core p n a b rest => Sys2Proof.Machine.execCmacj core p n a b rest s
  | .dot2 core p n a b rest => Sys2Proof.Machine.execDot2 core p n a b rest s
  | .dot2a core p n a b rest => Sys2Proof.Machine.execDot2a core p n a b rest s
  | .dot4 core p n a b rest => Sys2Proof.Machine.execDot4 core p n a b rest s
  | .dot4a core p n a b rest => Sys2Proof.Machine.execDot4a core p n a b rest s
  | .cres0 core p n a b rest => Sys2Proof.Machine.execCres0 core p n a b rest s
  | .cres core p n a b rest => Sys2Proof.Machine.execCres core p n a b rest s
  | .ld core y p reg ptr am rest acc other => Sys2Proof.Machine.execLd core y p reg ptr am rest acc other s
  | .st core y p reg ptr am rest acc other => Sys2Proof.Machine.execSt core y p reg ptr am rest acc other s
  | .ld2 core y p reg ptr am rest acc other => Sys2Proof.Machine.execLd2 core y p reg ptr am rest acc other s
  | .st2 core y p reg ptr am rest acc other => Sys2Proof.Machine.execSt2 core y p reg ptr am rest acc other s
  | .lda core y p reg ptr am rest acc other => Sys2Proof.Machine.execLda core y p reg ptr am rest acc other s
  | .stQ core y p reg ptr am rest acc other => Sys2Proof.Machine.execStQ core y p reg ptr am rest acc other s
  | .ldx core y p reg ptr am rest acc other => Sys2Proof.Machine.execLdx core y p reg ptr am rest acc other s
  | .stx core y p reg ptr am rest acc other => Sys2Proof.Machine.execStx core y p reg ptr am rest acc other s
  | .rep core p count rest => Sys2Proof.Machine.execRep core p count rest s
  | .clrav core p mask rest => Sys2Proof.Machine.execClrav core p mask rest s
  | .mov core p d a rest => Sys2Proof.Machine.execMov core p d a rest s
  | .not core p d a rest => Sys2Proof.Machine.execNot core p d a rest s
  | .negs core p d a rest => Sys2Proof.Machine.execNegs core p d a rest s
  | .abss core p d a rest => Sys2Proof.Machine.execAbss core p d a rest s
  | .mtx core p file ix a rest => Sys2Proof.Machine.execMtx core p file ix a rest s
  | .mfx core p d file ix rest => Sys2Proof.Machine.execMfx core p d file ix rest s
  | .mva core p part n a rest => Sys2Proof.Machine.execMva core p part n a rest s
  | .mfa core p part n d rest => Sys2Proof.Machine.execMfa core p part n d rest s
  | .mvr core p q23 n d rest => Sys2Proof.Machine.execMvr core p q23 n d rest s
  | .pset core p v d rest => Sys2Proof.Machine.execPset core p v d rest s
  | .pand core p d a b rest => Sys2Proof.Machine.execPand core p d a b rest s
  | .por core p d a b rest => Sys2Proof.Machine.execPor core p d a b rest s
  | .pxor core p d a b rest => Sys2Proof.Machine.execPxor core p d a b rest s
  | .pnot core p d a rest => Sys2Proof.Machine.execPnot core p d a rest s
  | .mff core p d rest => Sys2Proof.Machine.execMff core p d rest s
  | .mtf core p a rest => Sys2Proof.Machine.execMtf core p a rest s
  | .eret core p rest => Sys2Proof.Machine.execEret core p rest s
  | .br core p a rest => Sys2Proof.Machine.execBr core p a rest s
  | .b core p t rest => Sys2Proof.Machine.execB core p t rest s
  | .bl core p d t rest => Sys2Proof.Machine.execBl core p d t rest s
  | .rnd core p d rest => Sys2Proof.Machine.execRnd core p d rest s
  | .rseed core p a rest => Sys2Proof.Machine.execRseed core p a rest s
  | .paset core p incr k a rest => Sys2Proof.Machine.execPaset core p incr k a rest s
  | .paget core p incr k d rest => Sys2Proof.Machine.execPaget core p incr k d rest s
  | .pacc core p carry k d rest => Sys2Proof.Machine.execPacc core p carry k d rest s
  | .add core p d a b rest => Sys2Proof.Machine.execAdd core p d a b rest s
  | .sub core p d a b rest => Sys2Proof.Machine.execSub core p d a b rest s
  | .adds core p d a b rest => Sys2Proof.Machine.execAdds core p d a b rest s
  | .subs core p d a b rest => Sys2Proof.Machine.execSubs core p d a b rest s
  | .and core p d a b rest => Sys2Proof.Machine.execAnd core p d a b rest s
  | .or core p d a b rest => Sys2Proof.Machine.execOr core p d a b rest s
  | .xor core p d a b rest => Sys2Proof.Machine.execXor core p d a b rest s
  | .lsl core p d a b rest => Sys2Proof.Machine.execLsl core p d a b rest s
  | .lsr core p d a b rest => Sys2Proof.Machine.execLsr core p d a b rest s
  | .asr core p d a b rest => Sys2Proof.Machine.execAsr core p d a b rest s
  | .lsls core p d a b rest => Sys2Proof.Machine.execLsls core p d a b rest s
  | .cmpcc core p cc d a b rest => Sys2Proof.Machine.execCmpcc core p cc d a b rest s
  | .addi core p d a imm rest => Sys2Proof.Machine.execAddi core p d a imm rest s
  | .movi core p d imm rest => Sys2Proof.Machine.execMovi core p d imm rest s
  | .movl core p d imm rest => Sys2Proof.Machine.execMovl core p d imm rest s
  | .mfc core p d cr rest => Sys2Proof.Machine.execMfc core p d cr rest s
  | .mtc core p cr a rest => Sys2Proof.Machine.execMtc core p cr a rest s
  | .loop core p count stop rest => Sys2Proof.Machine.execLoop core p count stop rest s
  | .loopR core p count stop step stages rest => Sys2Proof.Machine.execLoopR core p count stop step stages rest s
  | .venter core p t rest => Sys2Proof.Machine.execVenter core p t rest s
  | .pramp core p k d rest => Sys2Proof.Machine.execPramp core p k d rest s
  | .tfetch core p cubic r g a rest acc => Sys2Proof.Machine.execTfetch core p cubic r g a rest acc s
  | .tread core p r d a rest acc => Sys2Proof.Machine.execTread core p r d a rest acc s
  | .blep core p t d a rest => Sys2Proof.Machine.execBlep core p t d a rest s
  | .coreEventTake n => Sys2Proof.Machine.execCoreEventTake n s
  | .doorbellWrite path n v => Sys2Proof.Machine.execDoorbellWrite path n v s
  | .haltRequest path n v => Sys2Proof.Machine.execHaltRequest path n v s
  | .singleStep path n v ax ay => Sys2Proof.Machine.execSingleStep path n v ax ay s
  | .programLoad path n v => Sys2Proof.Machine.execProgramLoad path n v s
  | .coreLogicCheckFail n => Sys2Proof.Machine.execCoreLogicCheckFail n s
  | .coreUeTimeout n idle => Sys2Proof.Machine.execCoreUeTimeout n idle s
  | .spareEnterService n upset => Sys2Proof.Machine.execSpareEnterService n upset s
  | .linkChange port up gbe avg => Sys2Proof.Machine.execLinkChange port up gbe avg s
  | .frameReceive port bad frame now ptp buf => Sys2Proof.Machine.execFrameReceive port bad frame now ptp buf s
  | .syncTransmit => Sys2Proof.Machine.execSyncTransmit s
  | .syncTimeout port avg => Sys2Proof.Machine.execSyncTimeout port avg s
  | .packetDeadline ix => Sys2Proof.Machine.execPacketDeadline ix s
  | .streamPacketTransmit ix => Sys2Proof.Machine.execStreamPacketTransmit ix s
  | .streamConfigWrite path o v => Sys2Proof.Machine.execStreamConfigWrite path o v s
  | .sessionEnable path n v => Sys2Proof.Machine.execSessionEnable path n v s
  | .sessionDisable path n v => Sys2Proof.Machine.execSessionDisable path n v s
  | .sessionAddressWrite path n isPort v => Sys2Proof.Machine.execSessionAddressWrite path n isPort v s
  | .hostTxDoorbell path port v => Sys2Proof.Machine.execHostTxDoorbell path port v s
  | .hostFrameSent port pcp frame => Sys2Proof.Machine.execHostFrameSent port pcp frame s
  | .pcieReset kind gen width => Sys2Proof.Machine.execPcieReset kind gen width s
  | .registerWrite path off be v => Sys2Proof.Machine.execRegisterWrite path off be v s
  | .glbRead path o => Sys2Proof.Machine.execGlbRead path o s
  | .pcieConcourseAccess a wr n meet => Sys2Proof.Machine.execPcieConcourseAccess a wr n meet s
  | .pcieSampleMemoryAccess a wr n errs => Sys2Proof.Machine.execPcieSampleMemoryAccess a wr n errs s
  | .pcieAtomic kind bar2 wide a v acc => Sys2Proof.Machine.execPcieAtomic kind bar2 wide a v acc s
  | .dmaDoorbell path v => Sys2Proof.Machine.execDmaDoorbell path v s
  | .dmaCopy desc m => Sys2Proof.Machine.execDmaCopy desc m s
  | .dmaFill desc m => Sys2Proof.Machine.execDmaFill desc m s
  | .dmaAdd32 desc m => Sys2Proof.Machine.execDmaAdd32 desc m s
  | .dmaSwap desc m => Sys2Proof.Machine.execDmaSwap desc m s
  | .spiWrite off words clocks => Sys2Proof.Machine.execSpiWrite off words clocks s
  | .spiRdreq off n clocks => Sys2Proof.Machine.execSpiRdreq off n clocks s
  | .spiRddata clocks => Sys2Proof.Machine.execSpiRddata clocks s
  | .spiEvent entry clocks => Sys2Proof.Machine.execSpiEvent entry clocks s
  | .spiStatus clocks => Sys2Proof.Machine.execSpiStatus clocks s
  | .tdmFrame p din edge wrongLength => Sys2Proof.Machine.execTdmFrame p din edge wrongLength s
  | .tdmLock p phase => Sys2Proof.Machine.execTdmLock p phase s
  | .tdmBclkLoss p => Sys2Proof.Machine.execTdmBclkLoss p s
  | .tdmConfigWrite path p v => Sys2Proof.Machine.execTdmConfigWrite path p v s
  | .coreRetire path v => Sys2Proof.Machine.execCoreRetire path v s
  | .coreRecall n => Sys2Proof.Machine.execCoreRecall n s
  | .coreRestore path v => Sys2Proof.Machine.execCoreRestore path v s
  | .dramPageRetire path v => Sys2Proof.Machine.execDramPageRetire path v s
  | .dramScrubFull path v => Sys2Proof.Machine.execDramScrubFull path v s
  | .cfgCommit path v => Sys2Proof.Machine.execCfgCommit path v s
  | .cfgReload path v => Sys2Proof.Machine.execCfgReload path v s
  | .standbyEnter path v => Sys2Proof.Machine.execStandbyEnter path v s
  | .standbyReached => Sys2Proof.Machine.execStandbyReached s
  | .portFailoverTest path v => Sys2Proof.Machine.execPortFailoverTest path v s
  | .svcAbort path v => Sys2Proof.Machine.execSvcAbort path v s
  | .serviceOperationComplete fail flashLog image => Sys2Proof.Machine.execServiceOperationComplete fail flashLog image s
  | .autoRebuildStart => Sys2Proof.Machine.execAutoRebuildStart s
  | .errorInjectArm path p v => Sys2Proof.Machine.execErrorInjectArm path p v s
  | .heartbeatKick path v => Sys2Proof.Machine.execHeartbeatKick path v s
  | .heartbeatExpiry => Sys2Proof.Machine.execHeartbeatExpiry s
  | .watchdogExpiry => Sys2Proof.Machine.execWatchdogExpiry s
  | .moduleRestartRequest path v => Sys2Proof.Machine.execModuleRestartRequest path v s
  | .pageDisable path p v => Sys2Proof.Machine.execPageDisable path p v s
  | .pageEnable path p v => Sys2Proof.Machine.execPageEnable path p v s
  | .pageIdle p => Sys2Proof.Machine.execPageIdle p s
  | .pageSoftReset path p v => Sys2Proof.Machine.execPageSoftReset path p v s
  | .pageLock path p v => Sys2Proof.Machine.execPageLock path p v s
  | .glbFence path v => Sys2Proof.Machine.execGlbFence path v s
  | .pmuDump => Sys2Proof.Machine.execPmuDump s
  | .pmuDumpComplete => Sys2Proof.Machine.execPmuDumpComplete s
  | .pmuCounterRead path => Sys2Proof.Machine.execPmuCounterRead path s
  | .pmuRingConfigWrite path ix v => Sys2Proof.Machine.execPmuRingConfigWrite path ix v s
  | .powerOnReset rises => Sys2Proof.Machine.execPowerOnReset rises s
  | .vioBankChange bankB up txn => Sys2Proof.Machine.execVioBankChange bankB up txn s
  | .bootInitDone passed validA validB seqA seqB => Sys2Proof.Machine.execBootInitDone passed validA validB seqA seqB s
  | .imageCheck identified flashLog bytes => Sys2Proof.Machine.execImageCheck identified flashLog bytes s
  | .backoffExpiry => Sys2Proof.Machine.execBackoffExpiry s
  | .hostImageGo path v => Sys2Proof.Machine.execHostImageGo path v s
  | .fuseProgram path v => Sys2Proof.Machine.execFuseProgram path v s
  | .fuseProgramDone => Sys2Proof.Machine.execFuseProgramDone s
  | .wakePin rising => Sys2Proof.Machine.execWakePin rising s
  | .wakeRequest path v => Sys2Proof.Machine.execWakeRequest path v s
  | .wakeComplete bad => Sys2Proof.Machine.execWakeComplete bad s
  | .thermalSample temp => Sys2Proof.Machine.execThermalSample temp s
  | .railFault rail => Sys2Proof.Machine.execRailFault rail s
  | .pllRelock pll gen width => Sys2Proof.Machine.execPllRelock pll gen width s
  | .pdelayRequestTransmit => Sys2Proof.Machine.execPdelayRequestTransmit s
  | .illegalBundle n bits => Sys2Proof.Machine.execIllegalBundle n bits s
  | .stagingComplete n slot1 => Sys2Proof.Machine.execStagingComplete n slot1 s
  | .bootDone => Sys2Proof.Machine.execBootDone s
  | .spiRegisterAccessDone => Sys2Proof.Machine.execSpiRegisterAccessDone s
  | .spiUnknownCommand cmd clocks => Sys2Proof.Machine.execSpiUnknownCommand cmd clocks s
  | .ptpTimeRead path now => Sys2Proof.Machine.execPtpTimeRead path now s
  | .dmaInvalidDescriptor desc => Sys2Proof.Machine.execDmaInvalidDescriptor desc s
  | .pcieAerError => Sys2Proof.Machine.execPcieAerError s

end Sys2Proof.Machine
end

