-- ==== Sys2Proof/Safety.lean ====
section
/-! DEFINITION. What claims about the block are stated in: the canonical form of its memories and registers, which registers and
fields a command changes, when a register write is performed, and how a voice core goes on from one bundle to the next. -/

namespace Sys2Proof.Machine

/-! ### The canonical form -/

/-- A memory in canonical form: addresses strictly rising, and no entry equal to what an unlisted address reads as. -/
def Memory.wf (m : Map Byte) : Bool := Sparse.wf (fun _ => 0) m

/-- The canonical form of the Concourse, of Sample Memory and of the registers. -/
structure State.Canonical (s : State) : Prop where
  con : Memory.wf s.con = true
  dram : Memory.wf s.dram.data = true
  regs : Sparse.wf regReset s.regs = true

/-! ### What changes -/

/-- Only registers of `l` differ between `s` and `t`; every other register and every other field is the same. -/
def OnlyRegs (s t : State) (l : List Nat) : Prop := t = { s with regs := t.regs } ∧ ∀ a, a ∉ l → t.reg a = s.reg a

/-- As `OnlyRegs`, but the PMU counters and what has left the block may differ as well. -/
def OnlyReports (s t : State) (l : List Nat) : Prop :=
  t = { s with regs := t.regs, pmu := t.pmu, out := t.out } ∧ ∀ a, a ∉ l → t.reg a = s.reg a

/-- Registers that raising an interrupt of page `p` can change: PAGE_IRQ_STAT and the two words of the MSI-X pending bits. -/
def raiseRegs (p : Nat) : List Nat := [Reg.PAGE_IRQ_STAT p, Reg.MSIX_PBA 0, Reg.MSIX_PBA 1]

/-! ### Register writes by software -/

/-- A write of the register at `off` by host software is performed (R403, R414, R423): the endpoint serves, the register's page is not
one that standby or the boot closes, the register exists, and its page is not locked or the register is exempt from LOCK. -/
def State.writable (s : State) (off : Nat) : Bool :=
  s.serving && !(standbyPage (off / 0x1000) && (decide (s.powerState = 2) || decide (s.powerState = 3))) &&
    !(bootPage (off / 0x1000) && decide (s.bootState ≠ 6)) && (match rowOf off with
      | some r => !(s.locked (off / 0x1000)) || r.exempt
      | none => false)

/-- The row of a register, an empty one where there is none. -/
def rowAt (off : Nat) : RegRow := (rowOf off).getD ⟨off, 1, 0, 0, 0, 0, 0, 0, 0, false⟩

/-- The word that the register at `off` holds after `v` is written to it by its access codes (R4). -/
def State.stored (s : State) (off : Nat) (v : Word) : Word := (rowAt off).store (s.reg off) v

/-! ### Completion and frames -/

/-- The command completes, and `P` holds of the state after it. -/
def Completes (i : Instr) (s : State) (P : State → Prop) : Prop := ∃ t, exec i s = .next t ∧ P t

/-- Every register outside of `l` is unchanged. -/
def KeepsRegs (s t : State) (l : List Nat) : Prop := ∀ a, a ∉ l → t.reg a = s.reg a

/-- Every DAC channel outside of `l` is unchanged. -/
def KeepsChans (s t : State) (l : List Nat) : Prop := ∀ c, c ∉ l → t.dacCh c = s.dacCh c

/-- Every voice core outside of `l` is unchanged. -/
def KeepsCores (s t : State) (l : List Nat) : Prop := ∀ n, n ∉ l → t.core n = s.core n

/-- Every pool slot outside of `l` is unchanged. -/
def KeepsSlots (s t : State) (l : List Nat) : Prop := ∀ x, x ∉ l → t.slot x = s.slot x

/-- Every output queue outside of `l` is unchanged. -/
def KeepsQueues (s t : State) (l : List Nat) : Prop := ∀ q, q ∉ l → t.queue q = s.queue q

/-- Every Concourse byte outside of `n` bytes from `a` is unchanged. -/
def KeepsCon (s t : State) (a n : Nat) : Prop := ∀ x, x < a ∨ a + n ≤ x → t.conByte x = s.conByte x

/-- A register counted up by one, saturating (R5). -/
def Counted (s t : State) (off : Nat) : Prop := (t.reg off).toNat = min 0xFFFFFFFF ((s.reg off).toNat + 1)

/-! ### Commands that are a register write -/

/-- The register that a command of host software writes, for the commands that are one register write of their own. -/
def writeTarget : Instr → Option Nat
  | .mediaConfigWrite _ _ => some (Reg.CLK_MEDIA_CFG)
  | .mediaStop _ _ => some (Reg.CLK_MEDIA_CTRL)
  | .mediaRun _ _ => some (Reg.CLK_MEDIA_CTRL)
  | .mtLoad _ _ => some (Reg.CLK_MEDIA_CTRL)
  | .ringDoorbell _ n _ => some (Reg.ING_RING_PI n)
  | .partQuotaWrite _ p _ => some (Reg.VA_PART_QUOTA p)
  | .hostParameterWrite _ _ => some (Reg.PS_WR_DATA)
  | .shuntRequest _ _ => some (Reg.SCH_SHUNT)
  | .expCyclesWrite _ _ => some (Reg.SCH_EXP_CYCLES)
  | .expCfgWrite _ _ => some (Reg.SCH_EXP_CFG)
  | .histClear _ _ => some (Reg.SCH_CTRL)
  | .queueEnable _ q _ => some (Reg.OQ_Q_CFG q)
  | .queueDisable _ q _ => some (Reg.OQ_Q_CFG q)
  | .coefWrite _ _ => some (Reg.DEC_COEF_DATA)
  | .tapsWrite _ _ => some (Reg.DEC_TAPS)
  | .busSetChange _ _ => some (Reg.DEC_CTRL)
  | .capSetChange _ _ => some (Reg.DEC_CTRL)
  | .monitorLengthWrite _ _ => some (Reg.DEC_MON_CFG)
  | .captureSourceWrite _ k _ => some (Reg.DEC_CAP_SRC k)
  | .softwareClear _ _ => some (Reg.DAC_CTRL)
  | .filterSwitch _ _ => some (Reg.DAC_CTRL)
  | .rangeSwitch _ c _ => some (Reg.DAC_CH_CFG c)
  | .clearCodeWrite _ c _ => some (Reg.DAC_CH_CLR c)
  | .maskWrite _ c _ => some (Reg.DAC_CH_CFG c)
  | .channelEnable _ c _ => some (Reg.DAC_CH_CFG c)
  | .channelDisable _ c _ => some (Reg.DAC_CH_CFG c)
  | .toneEnable _ c _ => some (Reg.DAC_CH_TONE_CFG c)
  | .toneDisable _ c _ => some (Reg.DAC_CH_TONE_CFG c)
  | .readbackFaultClear _ c _ => some (Reg.DAC_CH_STAT c)
  | .overcurrentClear _ c _ => some (Reg.DAC_CH_STAT c)
  | .testModeWrite _ _ => some (Reg.CON_CTRL)
  | .attributeWrite _ i _ => some (Reg.CON_ATTR i)
  | .bankRebuild _ _ => some (Reg.SVC_CMD)
  | .bankReturn _ _ => some (Reg.SVC_CMD)
  | .coreRetire _ _ => some (Reg.SVC_CMD)
  | .coreRestore _ _ => some (Reg.SVC_CMD)
  | .dramPageRetire _ _ => some (Reg.SVC_CMD)
  | .dramScrubFull _ _ => some (Reg.SVC_CMD)
  | .cfgCommit _ _ => some (Reg.SVC_CMD)
  | .cfgReload _ _ => some (Reg.SVC_CMD)
  | .standbyEnter _ _ => some (Reg.SVC_CMD)
  | .portFailoverTest _ _ => some (Reg.SVC_CMD)
  | .svcAbort _ _ => some (Reg.SVC_ABORT)
  | .tableRegionWrite _ r isCfg _ => some (if isCfg then Reg.SPF_TBL_CFG r else Reg.SPF_TBL_BASE r)
  | .doorbellWrite _ n _ => some (Reg.VC_DBELL n)
  | .haltRequest _ n _ => some (Reg.VC_CTRL n)
  | .singleStep _ n _ _ _ => some (Reg.VC_CTRL n)
  | .programLoad _ n _ => some (Reg.VC_PM_DATA_HI n)
  | .streamConfigWrite _ o _ => some (0x18100 + o)
  | .sessionEnable _ n _ => some (Reg.NMID_SESS_CFG n)
  | .sessionDisable _ n _ => some (Reg.NMID_SESS_CFG n)
  | .sessionAddressWrite _ n isPort _ => some (if isPort then Reg.NMID_SESS_PORT n else Reg.NMID_SESS_ADDR n)
  | .hostTxDoorbell _ port _ => some (Reg.NET_HTX_PI port)
  | .dmaDoorbell _ _ => some (Reg.PCI_DMA_PI)
  | .tdmConfigWrite _ p _ => some (Reg.TDM_P_CFG p)
  | .errorInjectArm _ p _ => some (Reg.PAGE_ERR_INJ p)
  | .pageDisable _ p _ => some (Reg.PAGE_CTRL p)
  | .pageEnable _ p _ => some (Reg.PAGE_CTRL p)
  | .pageSoftReset _ p _ => some (Reg.PAGE_CTRL p)
  | .pageLock _ p _ => some (Reg.PAGE_CTRL p)
  | .glbFence _ _ => some (Reg.GLB_FENCE)
  | .pmuRingConfigWrite _ i _ => some (pmuRingReg i)
  | .heartbeatKick _ _ => some (Reg.IRQ_HB_KICK)
  | .moduleRestartRequest _ _ => some (Reg.PWR_CTRL)
  | .wakeRequest _ _ => some (Reg.PWR_CTRL)
  | .hostImageGo _ _ => some (Reg.BOOT_CTRL)
  | .fuseProgram _ _ => some (Reg.BOOT_FUSE_CTRL)
  | _ => none

/-! ### Voice cores -/

/-- Core `n` issues its next bundle with nothing else due: no result in flight, no delay slot, no loop that ends at its pc, no breakpoint
at the next bundle, no injection armed on its page, and not below PMLO in Voice mode. -/
structure State.Calm (s : State) (n : Nat) : Prop where
  ready : s.ready n = true
  inflight : (s.core n).inflight = []
  delay : (s.core n).delay = none
  loops : ∀ l, l < 2 → ∀ ls le, (s.core n).loopAt l = some (ls, le) → le ≠ (s.core n).pc
  fetch : ¬ ((s.core n).voice = true ∧ (s.core n).pc < ((s.core n).cr 6).toNat)
  unbroken : s.breakAt n (((s.core n).pc + 1) % 8192) = none
  unarmed : s.bit (Reg.PAGE_ERR_INJ (Page.vc0 + n)) 30 = false

/-- Core `d` is core `c` one bundle and one CORE cycle later, `wr` the registers written meanwhile (accumulator k as 256 + k, control
register k as 512 + k) and `fl` the results in flight. Counters of cycles, slots and core events may differ; nothing else does. -/
structure Core.Moved (c d : Core) (wr : List Nat) (fl : List InFlight) : Prop where
  pc : d.pc = (c.pc + 1) % 8192
  cycle : d.cycle = c.cycle + 1
  inflight : d.inflight = fl
  regs : ∀ k, k ∉ wr → d.rd k = c.rd k
  accs : ∀ k, 256 + k ∉ wr → d.accRd k = c.accRd k
  crs : ∀ k, 512 + k ∉ wr → d.cr k = c.cr k
  rest : d = { c with
    pc := d.pc, lastPc := c.pc, cycle := d.cycle, inflight := d.inflight, regs := d.regs, accs := d.accs, crs := d.crs, soft := d.soft
    pcnt := d.pcnt, tcyc := d.tcyc, aborted := d.aborted, memUe := d.memUe, recalled := d.recalled, tally := d.tally, fresh := false }

/-- Only core `n` and the PMU counters differ between `s` and `t`. -/
def OnlyCore (s t : State) (n : Nat) : Prop :=
  t = { s with cores := t.cores, pmu := t.pmu } ∧ ∀ m, m ≠ n → t.core m = s.core m

/-- The command completes on core `n` in one bundle, which writes the registers `wr` and leaves `fl` in flight; `P` holds of the core
after it. -/
def Bundled (s : State) (n : Nat) (i : Instr) (wr : List Nat) (fl : List InFlight) (P : Core → Prop) : Prop :=
  ∃ t, exec i s = .next t ∧ OnlyCore s t n ∧ (s.core n).Moved (t.core n) wr fl ∧ P (t.core n)

/-- A memory operation in the X slot of `rest` or, for `y`, in its Y slot, and what the first accesses of the X and Y slots meet. -/
def memBundle (core : Fin 34) (y : Bool) (p : Pred) (o : MemOp) (rest : Bundle) (acc other : Access) :
    Option (Fin 34 × Bundle × Access × Access) :=
  if y then some (core, { rest with yp := p, y := some o }, other, acc) else some (core, { rest with xp := p, x := some o }, acc, other)

/-- The core and the bundle of a voice-core command, with what the first accesses of its X and Y slots meet (R196 to R206). -/
def voiceBundle : Instr → Option (Fin 34 × Bundle × Access × Access)
  | .take core p d rest => some (core, { rest with cp := p, c := (.take d) }, Access.quiet, Access.quiet)
  | .yieldTask core p flags rest => some (core, { rest with cp := p, c := (.yield_ flags) }, Access.quiet, Access.quiet)
  | .nop core rest => some (core, { rest with mp := .always, m := MOp.nop }, Access.quiet, Access.quiet)
  | .mul core p n a b rest => some (core, { rest with mp := p, m := { kind := .mul, n := n, a := a, b := b } }, Access.quiet, Access.quiet)
  | .mac core p n a b rest => some (core, { rest with mp := p, m := { kind := .mac, n := n, a := a, b := b } }, Access.quiet, Access.quiet)
  | .msc core p n a b rest => some (core, { rest with mp := p, m := { kind := .msc, n := n, a := a, b := b } }, Access.quiet, Access.quiet)
  | .cmul core p n a b rest => some (core, { rest with mp := p, m := { kind := .cmul, n := n, a := a, b := b } }, Access.quiet, Access.quiet)
  | .cmac core p n a b rest => some (core, { rest with mp := p, m := { kind := .cmac, n := n, a := a, b := b } }, Access.quiet, Access.quiet)
  | .cmsc core p n a b rest => some (core, { rest with mp := p, m := { kind := .cmsc, n := n, a := a, b := b } }, Access.quiet, Access.quiet)
  | .cmacj core p n a b rest => some (core, { rest with mp := p, m := { kind := .cmacj, n := n, a := a, b := b } }, Access.quiet, Access.quiet)
  | .dot2 core p n a b rest => some (core, { rest with mp := p, m := { kind := .dot2, n := n, a := a, b := b } }, Access.quiet, Access.quiet)
  | .dot2a core p n a b rest => some (core, { rest with mp := p, m := { kind := .dot2a, n := n, a := a, b := b } }, Access.quiet, Access.quiet)
  | .dot4 core p n a b rest => some (core, { rest with mp := p, m := { kind := .dot4, n := n, a := a, b := b } }, Access.quiet, Access.quiet)
  | .dot4a core p n a b rest => some (core, { rest with mp := p, m := { kind := .dot4a, n := n, a := a, b := b } }, Access.quiet, Access.quiet)
  | .cres0 core p n a b rest => some (core, { rest with mp := p, m := { kind := .cres0, n := n, a := a, b := b } }, Access.quiet, Access.quiet)
  | .cres core p n a b rest => some (core, { rest with mp := p, m := { kind := .cres, n := n, a := a, b := b } }, Access.quiet, Access.quiet)
  | .ld core y p reg ptr am rest acc other => memBundle core y p { kind := .ld, reg := reg, ptr := ptr, am := am } rest acc other
  | .st core y p reg ptr am rest acc other => memBundle core y p { kind := .st, reg := reg, ptr := ptr, am := am } rest acc other
  | .ld2 core y p reg ptr am rest acc other => memBundle core y p { kind := .ld2, reg := reg, ptr := ptr, am := am } rest acc other
  | .st2 core y p reg ptr am rest acc other => memBundle core y p { kind := .st2, reg := reg, ptr := ptr, am := am } rest acc other
  | .lda core y p reg ptr am rest acc other => memBundle core y p { kind := .lda, reg := reg, ptr := ptr, am := am } rest acc other
  | .stQ core y p reg ptr am rest acc other => memBundle core y p { kind := .stq, reg := reg, ptr := ptr, am := am } rest acc other
  | .ldx core y p reg ptr am rest acc other => memBundle core y p { kind := .ldx, reg := reg, ptr := ptr, am := am } rest acc other
  | .stx core y p reg ptr am rest acc other => memBundle core y p { kind := .stx, reg := reg, ptr := ptr, am := am } rest acc other
  | .rep core p count rest => some (core, { rest with cp := p, c := (.rep count) }, Access.quiet, Access.quiet)
  | .clrav core p mask rest => some (core, { rest with cp := p, c := (.clrav mask) }, Access.quiet, Access.quiet)
  | .mov core p d a rest => some (core, { rest with cp := p, c := (.mov d a) }, Access.quiet, Access.quiet)
  | .not core p d a rest => some (core, { rest with cp := p, c := (.not d a) }, Access.quiet, Access.quiet)
  | .negs core p d a rest => some (core, { rest with cp := p, c := (.negs d a) }, Access.quiet, Access.quiet)
  | .abss core p d a rest => some (core, { rest with cp := p, c := (.abss d a) }, Access.quiet, Access.quiet)
  | .mtx core p file i a rest => some (core, { rest with cp := p, c := (.mtx file i a) }, Access.quiet, Access.quiet)
  | .mfx core p d file i rest => some (core, { rest with cp := p, c := (.mfx d file i) }, Access.quiet, Access.quiet)
  | .mva core p part n a rest => some (core, { rest with cp := p, c := (.mva part n a) }, Access.quiet, Access.quiet)
  | .mfa core p part n d rest => some (core, { rest with cp := p, c := (.mfa part n d) }, Access.quiet, Access.quiet)
  | .mvr core p q23 n d rest => some (core, { rest with cp := p, c := (.mvr q23 n d) }, Access.quiet, Access.quiet)
  | .pset core p v d rest => some (core, { rest with cp := p, c := (.pset v d) }, Access.quiet, Access.quiet)
  | .pand core p d a b rest => some (core, { rest with cp := p, c := (.pand d a b) }, Access.quiet, Access.quiet)
  | .por core p d a b rest => some (core, { rest with cp := p, c := (.por d a b) }, Access.quiet, Access.quiet)
  | .pxor core p d a b rest => some (core, { rest with cp := p, c := (.pxor d a b) }, Access.quiet, Access.quiet)
  | .pnot core p d a rest => some (core, { rest with cp := p, c := (.pnot d a) }, Access.quiet, Access.quiet)
  | .mff core p d rest => some (core, { rest with cp := p, c := (.mff d) }, Access.quiet, Access.quiet)
  | .mtf core p a rest => some (core, { rest with cp := p, c := (.mtf a) }, Access.quiet, Access.quiet)
  | .eret core p rest => some (core, { rest with cp := p, c := (.eret) }, Access.quiet, Access.quiet)
  | .br core p a rest => some (core, { rest with cp := p, c := (.br a) }, Access.quiet, Access.quiet)
  | .b core p t rest => some (core, { rest with cp := p, c := (.b t) }, Access.quiet, Access.quiet)
  | .bl core p d t rest => some (core, { rest with cp := p, c := (.bl d t) }, Access.quiet, Access.quiet)
  | .rnd core p d rest => some (core, { rest with cp := p, c := (.rnd d) }, Access.quiet, Access.quiet)
  | .rseed core p a rest => some (core, { rest with cp := p, c := (.rseed a) }, Access.quiet, Access.quiet)
  | .paset core p incr k a rest => some (core, { rest with cp := p, c := (.paset incr k a) }, Access.quiet, Access.quiet)
  | .paget core p incr k d rest => some (core, { rest with cp := p, c := (.paget incr k d) }, Access.quiet, Access.quiet)
  | .pacc core p carry k d rest => some (core, { rest with cp := p, c := (.pacc carry k d) }, Access.quiet, Access.quiet)
  | .add core p d a b rest => some (core, { rest with cp := p, c := (.alu .add d a b) }, Access.quiet, Access.quiet)
  | .sub core p d a b rest => some (core, { rest with cp := p, c := (.alu .sub d a b) }, Access.quiet, Access.quiet)
  | .adds core p d a b rest => some (core, { rest with cp := p, c := (.alu .adds d a b) }, Access.quiet, Access.quiet)
  | .subs core p d a b rest => some (core, { rest with cp := p, c := (.alu .subs d a b) }, Access.quiet, Access.quiet)
  | .and core p d a b rest => some (core, { rest with cp := p, c := (.alu .and d a b) }, Access.quiet, Access.quiet)
  | .or core p d a b rest => some (core, { rest with cp := p, c := (.alu .or d a b) }, Access.quiet, Access.quiet)
  | .xor core p d a b rest => some (core, { rest with cp := p, c := (.alu .xor d a b) }, Access.quiet, Access.quiet)
  | .lsl core p d a b rest => some (core, { rest with cp := p, c := (.alu .lsl d a b) }, Access.quiet, Access.quiet)
  | .lsr core p d a b rest => some (core, { rest with cp := p, c := (.alu .lsr d a b) }, Access.quiet, Access.quiet)
  | .asr core p d a b rest => some (core, { rest with cp := p, c := (.alu .asr d a b) }, Access.quiet, Access.quiet)
  | .lsls core p d a b rest => some (core, { rest with cp := p, c := (.alu .lsls d a b) }, Access.quiet, Access.quiet)
  | .cmpcc core p cc d a b rest => some (core, { rest with cp := p, c := (.cmp cc d a b) }, Access.quiet, Access.quiet)
  | .addi core p d a imm rest => some (core, { rest with cp := p, c := (.addi d a imm) }, Access.quiet, Access.quiet)
  | .movi core p d imm rest => some (core, { rest with cp := p, c := (.movi d imm) }, Access.quiet, Access.quiet)
  | .movl core p d imm rest => some (core, { rest with cp := p, c := (.movl d imm) }, Access.quiet, Access.quiet)
  | .mfc core p d cr rest => some (core, { rest with cp := p, c := (.mfc d cr) }, Access.quiet, Access.quiet)
  | .mtc core p cr a rest => some (core, { rest with cp := p, c := (.mtc cr a) }, Access.quiet, Access.quiet)
  | .loop core p count stop rest => some (core, { rest with cp := p, c := (.loop count stop) }, Access.quiet, Access.quiet)
  | .loopR core p count stop step stages rest => some (core, { rest with cp := p, c := (.loopR count stop step stages) }, Access.quiet, Access.quiet)
  | .venter core p t rest => some (core, { rest with cp := p, c := (.venter t) }, Access.quiet, Access.quiet)
  | .pramp core p k d rest => some (core, { rest with cp := p, c := (.pramp k d) }, Access.quiet, Access.quiet)
  | .tfetch core p cubic r g a rest acc => some (core, { rest with cp := p, c := (.tfetch cubic r g a) }, acc, Access.quiet)
  | .tread core p r d a rest acc => some (core, { rest with cp := p, c := (.tread r d a) }, acc, Access.quiet)
  | .blep core p t d a rest => some (core, { rest with cp := p, c := (.blep t d a) }, Access.quiet, Access.quiet)
  | _ => none

/-! ### What a bundle leaves, in the words of the statements -/

/-- The bundle writes `v` into the G register that `d` names, and nothing else. -/
def ResultIn (s : State) (n : Nat) (i : Instr) (d : Nat) (v : Word) : Prop :=
  Bundled s n i [(s.core n).phys d] [] (fun c => c.rd ((s.core n).phys d) = v)

/-- The bundle writes `v` into predicate flag `d`, and nothing else. -/
def FlagIn (s : State) (n : Nat) (i : Instr) (d : Nat) (v : Bool) : Prop :=
  Bundled s n i [codeF d] [] (fun c => c.rd (codeF d) = boolWord v)

/-- The bundle leaves results in flight, and writes nothing meanwhile. -/
def Launches (s : State) (n : Nat) (i : Instr) (ops : List (Nat × WriteOp)) : Prop :=
  Bundled s n i [] (ops.map (fun x => { due := (s.core n).cycle + x.1, voice := (s.core n).voice, op := x.2 })) (fun _ => True)

/-- An integer brought into the range of a signed 32-bit word (R181). -/
def clamp32 (v : Int) : Word := BitVec.ofInt 32 (max (-(2 ^ 31)) (min (2 ^ 31 - 1) v))

/-- The second operand of an ALU operation (R206). -/
def operand2 (c : Core) (b : Operand2) : Word := match b with
  | .reg r => c.g r
  | .imm u => BitVec.ofNat 32 u.val

/-- As `Bundled`, with the core taken to be `c` before the bundle. -/
def BundledFrom (s : State) (n : Nat) (i : Instr) (c : Core) (wr : List Nat) (fl : List InFlight) (P : Core → Prop) : Prop :=
  ∃ t, exec i s = .next t ∧ OnlyCore s t n ∧ c.Moved (t.core n) wr fl ∧ P (t.core n)

/-- Results that core `c` issues now, each with the bundles until it is usable. -/
def launched (c : Core) (ops : List (Nat × WriteOp)) : List InFlight :=
  ops.map (fun x => { due := c.cycle + x.1, voice := c.voice, op := x.2 })

/-- The byte address of a memory operation's access, aligned to its size (R182, R202). -/
def memAddr (c : Core) (ptr : Fin 8) (am : Addressing) (size : Nat) : Nat :=
  (accessAddr (c.rd (codeX .p ptr)) am size).toNat / size * size

/-- The pointer that a memory operation modifies. -/
def pointerWrites (c : Core) (ptr : Fin 8) (am : Addressing) (size : Nat) : List Nat :=
  if (c.pointerAfter ptr am size).isSome then [codeX .p ptr] else []

/-- The modified pointer, in the core after the bundle (R183 to R185). -/
def PointerMoved (c d : Core) (ptr : Fin 8) (am : Addressing) (size : Nat) : Prop :=
  ∀ v oor, c.pointerAfter ptr am size = some (v, oor) → d.rd (codeX .p ptr) = v

/-- A memory operation whose modified pointer does not leave its window. -/
def InWindow (c : Core) (ptr : Fin 8) (am : Addressing) (size : Nat) : Prop :=
  ∀ v oor, c.pointerAfter ptr am size = some (v, oor) → oor = false

/-- The front frame of X or, for `y`, of Y data memory. -/
def frontFrame (c : Core) (y : Bool) : Frame := if y then c.front.y else c.front.x

/-- The core with words stored in its front frame of X or Y data memory. -/
def withFront (c : Core) (y : Bool) (i : Nat) (ws : List Word) : Core :=
  c.setFront (if y then { c.front with y := c.front.y.fill i ws } else { c.front with x := c.front.x.fill i ws })

/-- A Concourse word that a read finds clean, with no injection armed on the CON page and no background test in progress. -/
def State.conClean (s : State) (a : Nat) : Prop :=
  s.bit (Reg.PAGE_ERR_INJ Page.con) 30 = false ∧ s.ctl.btBorrow = none ∧ a / 16 ∉ s.ctl.bad

/-! ### What commands change, further -/

/-- Every register outside of the pages `ps` is unchanged. -/
def KeepsPages (s t : State) (ps : List Nat) : Prop := ∀ a, a / 0x1000 ∉ ps → t.reg a = s.reg a

/-- Registers that an entry of the error log can change (R359). -/
def logRegs : List Nat :=
  [Reg.ERR_LOG_CNT, Reg.ERR_LOG_HEAD] ++ (List.range 16).flatMap (fun k => [Reg.ERR_LOG_W0 k, Reg.ERR_LOG_W1 k, Reg.ERR_LOG_W2 k, Reg.ERR_LOG_W3 k])

/-- Only DAC channel `c`, its status register, DAC_STAT and the registers `l` differ. -/
def DacOnly (s t : State) (c : Nat) (l : List Nat) : Prop :=
  t = { s with regs := t.regs, dac := t.dac } ∧ KeepsRegs s t (Reg.DAC_CH_STAT c :: Reg.DAC_STAT :: l) ∧ KeepsChans s t [c] ∧
    t.dac.release = s.dac.release

/-- A refused write of a page: flag `b` of `stat` and the CFG_REJ flag of PAGE_ERR_STAT are set, the refusal is counted, and nothing else
changes. -/
def Refused (s t : State) (stat b p : Nat) : Prop :=
  t.bit stat b = true ∧ t.bit (Reg.PAGE_ERR_STAT p) 0 = true ∧ Counted s t (Reg.PAGE_ERR_CNT p) ∧
    OnlyRegs s t [stat, Reg.PAGE_ERR_STAT p, Reg.PAGE_ERR_CNT p]

/-- A register write whose one effect is that the register holds the word by its access codes. -/
def Stores (i : Instr) (s : State) (off : Nat) (w : Word) : Prop :=
  Completes i s (fun t => t.reg off = s.stored off w ∧ OnlyRegs s t [off])

/-- A Concourse without an injection armed on its page, a background test in progress or an uncorrectable word. -/
def State.conQuiet (s : State) : Prop := s.bit (Reg.PAGE_ERR_INJ Page.con) 30 = false ∧ s.ctl.btBorrow = none ∧ s.ctl.bad = []

/-! ### What the statements on output queues read -/

/-- The samples that the router writes for block `n` of queue `q`, by channel, from the map that ORT_CTRL selects (R259, R260). -/
def State.routed (s : State) (n q : Nat) : List (List Word) :=
  (List.range (s.queueChannels q)).map (fun c =>
    let e := fieldOf (s.conWord (0x00E94000 + 0x6000 * s.fld Reg.ORT_CTRL 0 1 + 512 * q + 4 * (c / 2))) (16 * (c % 2)) 16
    let zeros := List.replicate s.blk (0 : Word)
    match e / 2 ^ 14 with
    | 1 => if s.dec.outBlock = some n then (List.range s.blk).map (fun j => Sparse.get (fun _ => 0) s.dec.out (64 * (e % 128) + j)) else zeros
    | 2 => if n < 3 then zeros else (List.range s.blk).map (fun j => s.conWord (0x00E74000 + 1024 * (e % 128) + 256 * ((n - 3) % 4) + 4 * j))
    | _ => zeros)

/-- The words from address `a` of the Concourse, `n` of them, are those that `f` gives. -/
def ConHolds (s : State) (a n : Nat) (f : Nat → Word) : Prop := ∀ i, i < n → s.conWord (a + 4 * i) = f i

/-- Every byte of Sample Memory reads as before. -/
def KeepsDram (s t : State) : Prop := ∀ a, t.dramByte a = s.dramByte a

/-! ### Events on their way into the Timetable -/

/-- An event from source `src`, with the stamp, class, flag and tag of a ring or FIFO entry, arrives now. -/
def State.arriving (s : State) (src : Nat) (ump : List Word) (stamp : Option Nat) (cls : Nat) (notify : Bool) (tag : Word) : Incoming :=
  { src := src, net := decide (src < 32), ump := ump, stamp := stamp, clsCode := cls, notify := notify, tag := tag, arr := s.clk.mt.toNat
    seq := s.ing.seq }

/-- The event of an entry of a ring or of the SPI FIFO that arrived as `a`. -/
def EntryFields.event (f : EntryFields) (src : Nat) (a : Arrival) : Incoming :=
  { src := src, net := false, ump := f.ump, stamp := f.stamp, clsCode := f.cls, notify := f.notify, tag := f.tag, arr := a.arr
    seq := a.seq }

/-- An event that a source's settings let in (R57, R66), with no injection armed on the ING page. -/
def State.admits (s : State) (e : Incoming) : Prop :=
  s.bit (Reg.ING_SRC_CFG e.src) 0 = true ∧ (e.net = true → s.bit Reg.ING_CTRL 0 = true ∧ s.pageOn Page.ing = true) ∧
    s.bit (Reg.PAGE_ERR_INJ Page.ing) 30 = false

/-- The Part word of an event: ING_PART_MAP of its group and channel (R49). -/
def State.partWord (s : State) (e : Incoming) : Word :=
  let u := umpTranslate (umpTrim e.ump)
  s.reg (Reg.ING_PART_MAP (umpGroup u * 16 + umpChan u))

/-- An admitted event that is mapped to a Part, its stamp near enough (R48, R49, R54). -/
def State.mapped (s : State) (e : Incoming) : Prop :=
  s.admits e ∧ umpKind (umpTrim e.ump) = .mapped ∧ fieldOf (s.partWord e) 7 1 = 1 ∧
    ∀ m, e.stamp = some m → modDiff 56 (m / 256) (e.arr / 256) ≤ 2 ^ 24

/-- The class of a mapped event (R55). -/
def State.mappedClass (s : State) (e : Incoming) : Cls :=
  if e.clsCode ≠ 0 ∧ s.bit (Reg.ING_SRC_CFG e.src) 1 = true ∧ e.net = false then clsOfCode e.clsCode
  else clsOfCode (s.fld (Reg.VA_PART_CFG (fieldOf (s.partWord e) 0 6)) 1 2)

/-- What the Timetable holds of a mapped event (R49, R51, R52, R55). -/
def State.tabled (s : State) (e : Incoming) (x : TtEntry) : Prop :=
  let pend := Sparse.get (fun _ => 0) s.ing.mtStamp e.src
  x.ump = umpTranslate (umpTrim e.ump) ∧ x.src = e.src ∧ x.arr = e.arr ∧ x.seq = e.seq ∧ x.idx = s.ing.idx ∧
    x.stamp = (match e.stamp with
      | some m => some (m / 256 * 256)
      | none => if pend = 0 then none else some (reconstructStamp (pend - 1) e.arr)) ∧
    x.cls = s.mappedClass e ∧ x.part = fieldOf (s.partWord e) 0 6 ∧ x.notify = e.notify ∧ x.tag = e.tag

/-! ### The clock -/

/-- Registers of the CLK page that its state machine writes, with those of its interrupt. -/
def clockRegs : List Nat := [Reg.CLK_MEDIA_STAT, Reg.CLK_FREQ_ADJ, Reg.CLK_OFFSET, Reg.CLK_FALLBACK_CNT] ++ raiseRegs Page.clk

/-- Only registers, what is reported and the clock's own state differ, and of the registers those of `l`. -/
def ClockOnly (s t : State) (l : List Nat) : Prop :=
  t = { s with regs := t.regs, pmu := t.pmu, out := t.out, clk := t.clk } ∧ KeepsRegs s t l

/-! ### Host memory, DMA and host SPI -/

/-- A byte of host memory as the block has written it. -/
def State.hostByte (s : State) (a : Nat) : Byte := Sparse.get (fun _ => 0) s.out.hostMem (a % 2 ^ 64)

/-- The address of the descriptor at CI (R341). -/
def State.dmaEntry (s : State) : Nat :=
  (s.reg Reg.PCI_DMA_BASE_LO).toNat / 64 * 64 + 2 ^ 32 * (s.reg Reg.PCI_DMA_BASE_HI).toNat +
    32 * (s.fld Reg.PCI_DMA_CI 0 16 % 2 ^ max 4 (min 12 (s.fld Reg.PCI_DMA_CFG 0 4)))

/-- A descriptor has ended with a status word: it is in the ring, CI has gone on, and the end is counted (R341). -/
def DmaEnded (s t : State) (status : Nat) : Prop :=
  leNat ((List.range 4).map (fun i => t.hostByte (s.dmaEntry + 24 + i))) = status ∧
    t.reg Reg.PCI_DMA_CI = BitVec.ofNat 32 ((s.fld Reg.PCI_DMA_CI 0 16 + 1) % 2 ^ 16) ∧ Counted s t Reg.PCI_DMA_DONE_CNT ∧
    (if status % 4 = 3 then Counted s t Reg.PCI_DMA_ERR_CNT else t.reg Reg.PCI_DMA_ERR_CNT = s.reg Reg.PCI_DMA_ERR_CNT) ∧
    KeepsRegs s t [Reg.PCI_DMA_CI, Reg.PCI_DMA_DONE_CNT, Reg.PCI_DMA_ERR_CNT]

/-- Sample Memory without a bad line or an injection armed on its page. -/
def State.dramQuiet (s : State) : Prop := s.bit (Reg.PAGE_ERR_INJ Page.drc) 30 = false ∧ s.dram.bad = []

/-- The state with one more host SPI transaction counted. -/
def State.spiCounted (s : State) : State := (s.bump Reg.HSP_TXN_CNT).count 494 1

/-! ### Restarts -/

/-- The module has restarted (R371, R401, R427): everything but the queue, what was sent, the supply levels and the fuse stands as after reset, the cause
is recorded and the restart counted. -/
def Restarted (s t : State) (cause : Nat) : Prop :=
  t.bit Reg.PWR_RST_CAUSE cause = true ∧ Counted s t Reg.PWR_RESTART_CNT ∧
    t = { State.reset with
      pending := s.pending, draws := s.draws, out := t.out, regs := t.regs
      pwr := { Power.reset with vioA := s.pwr.vioA, vioB := s.pwr.vioB, fuse := s.pwr.fuse } } ∧
    ∀ a, a ∉ [Reg.PWR_RST_CAUSE, Reg.PWR_RESTART_CNT, Reg.PWR_RAIL_STAT, Reg.PWR_STAT, Reg.DAC_STAT, Reg.BOOT_FUSE_STAT] ++
      (List.range 8).map Reg.BOOT_FUSE_DATA → t.reg a = regReset a

/-! ### Service operations -/

/-- A service operation runs: BUSY with its code, and its argument is held (R372). -/
def SvcRuns (t : State) (op arg : Nat) : Prop :=
  t.svcBusy = true ∧ t.svcOp = op ∧ t.fld Reg.SVC_PROG 0 7 = 0 ∧ t.svc.arg = arg

/-- A service operation has ended, with these of the flags ABORTED, FAIL and BAD_ARG: BUSY is 0, DONE is set, SVC_DONE is raised, and nothing
is held of it (R372). -/
def SvcEnded (t : State) (aborted fail bad : Bool) : Prop :=
  t.svcBusy = false ∧ t.bit Reg.SVC_STAT 30 = true ∧ t.bit Reg.SVC_STAT 3 = aborted ∧ t.bit Reg.SVC_STAT 2 = fail ∧
    t.bit Reg.SVC_STAT 1 = bad ∧ t.bit (Reg.PAGE_IRQ_STAT Page.svc) 0 = true ∧ t.svc = Service.reset

/-- Registers that an operation's start or end writes besides what the operation itself does. -/
def svcRegs : List Nat :=
  [Reg.SVC_STAT, Reg.SVC_PROG, Reg.SVC_AUTO_CNT, Reg.PAGE_STAT Page.svc, Reg.PAGE_CTRL Page.svc] ++ raiseRegs Page.svc

/-- The commands that start a service operation, with its code (R373). -/
def svcCommands (path : Path) (v : Word) : List (Nat × Instr) :=
  [(1, .coreRetire path v), (2, .coreRestore path v), (3, .bankRebuild path v), (4, .bankReturn path v), (5, .dramPageRetire path v),
    (6, .dramScrubFull path v), (7, .cfgCommit path v), (8, .cfgReload path v), (9, .standbyEnter path v), (10, .portFailoverTest path v)]

end Sys2Proof.Machine
end

