-- ==== Sys2Proof/Certificates/Slice0/Obligations.lean ====
section
/-! DEFINITION. The statements for the provers, in the words of Safety.lean. `Completes i s P` says that command `i` answers a next state
of which `P` holds, so every result below is a completion statement as well. -/

open Sys2Proof Sys2Proof.Machine

/-! ### The queue, the state after reset, and what every command keeps -/

/-- The model's queue (log entry 1): a step takes the command at the front of the queue and is that command on the state with the queue's
rest; with nothing in the queue the block idles. -/
def Obligations.StepRunsFront : Prop :=
  (∀ (c : Instr) (rest : List Instr) (s : State), s.pending = c :: rest → step s = exec c { s with pending := rest }) ∧
  (∀ s : State, s.pending = [] → step s = .next s)

/-- R427, R422, R298 and the Reset columns: the block after power-on reset. Every page is enabled, unlocked and without interrupts enabled;
registers hold the values that their tables give; no core is in service, the boot has not begun, media time is 0 and does not run, and the
queue is empty. That every Concourse byte reads 0 follows R298, where the controller zeroes every word. The model's own choices in it: log
entries 3, 7. -/
def Obligations.ResetState : Prop :=
  let s := State.reset
  s.Canonical ∧ s.pending = [] ∧ s.serving = false ∧ s.bootState = 0 ∧ s.powerState = 0 ∧ s.clk.mt = 0 ∧
  (∀ n, (s.core n).svc = 0) ∧ (∀ a, s.conByte a = 0) ∧
  (∀ p : Fin 66, pageExists p = true → s.reg (Reg.PAGE_CTRL p) = 1 ∧ s.reg (Reg.PAGE_IRQ_STAT p) = 0 ∧ s.reg (Reg.PAGE_IRQ_EN p) = 0 ∧
    s.reg (Reg.PAGE_ERR_STAT p) = 0 ∧ s.reg (Reg.PAGE_ERR_CNT p) = 0 ∧ s.reg (Reg.PAGE_ERR_INJ p) = 0xFF0000) ∧
  (∀ x ∈ [(Reg.GLB_DEV_ID, 0x4D461024), (Reg.CLK_MEDIA_CFG, 0x14), (Reg.CLK_MEDIA_CTRL, 0), (Reg.CLK_MEDIA_STAT, 0x20), (Reg.CLK_SRC_ORDER, 4),
      (Reg.ING_TT_CFG, 0x1000400), (Reg.VA_CTRL, 8), (Reg.VA_STAT, 0x400400), (Reg.SCH_CTRL, 0x1404), (Reg.SCH_EXP_CFG, 0x4000),
      (Reg.SCH_BUDGET, 0x64640A), (Reg.DEC_TAPS, 0x303F), (Reg.DEC_MON_CFG, 7), (Reg.DAC_CTRL, 1), (Reg.DAC_RB_CFG, 0x300200),
      (Reg.CON_CTRL, 0x100), (Reg.CON_STAT, 0xF21), (Reg.DRC_CFG, 0x104), (Reg.PTP_CFG, 0xD0F8FF01), (Reg.SVC_POLICY, 0x1000403),
      (Reg.SVC_RH, 0x212002), (Reg.PWR_STAT, 1), (Reg.PWR_WAKE_CFG, 5), (Reg.PWR_THERM_CFG, 0x64), (Reg.PWR_RAIL_STAT, 0xFFF)],
    (s.reg x.1).toNat = x.2) ∧
  (∀ p : Fin 64, s.reg (Reg.VA_PART_QUOTA p) = 0x400) ∧ (∀ c : Fin 8, (s.reg (Reg.DAC_CH_CFG c)).toNat = 0x100 * (c.val ^^^ 1))

/-- Whatever stands in the queue, a step leaves the memories and the registers in their canonical form (the model's own form of the
Concourse, of Sample Memory and of the register file): equal contents stay equal data. The model's own choices in it: log entry 7. -/
def Obligations.StepKeepsCanonical : Prop :=
  ∀ s t : State, s.Canonical → step s = .next t → t.Canonical

/-- A step takes exactly the front command off the queue; no free value is drawn twice (log entry 2); and R409: nothing but the end of a
fuse programming changes the fused hash. The model's own choices in it: log entries 1, 2, 19. -/
def Obligations.StepsKeepQueueAndFuse : Prop :=
  ∀ s t : State, step s = .next t →
    t.pending = s.pending.tail ∧ s.draws ≤ t.draws ∧ (s.pending.head? ≠ some .fuseProgramDone → t.pwr.fuse = s.pwr.fuse)

/-- R403, R414, R423, for every command that is a register write of its own and for every write of a whole register word: before the end of
INIT it does nothing; in standby a write of a page that standby closes is only counted; before DONE a write of a page that the boot closes
does nothing; and a write of a locked page's register, where every field that is written is RW and LOCK applies to it, changes nothing but
the page's error status and count. The model's own choices in it: log entries 48, 63. -/
def Obligations.ClosedWrites : Prop :=
  ∀ (i : Instr) (off : Nat) (s : State),
    (writeTarget i = some off ∨ ∃ (path : Path) (o : BitVec 20) (v : Word), i = .registerWrite path o 15 v ∧ off = o.toNat) →
    let p := off / 0x1000
    let standby := standbyPage p = true ∧ (s.powerState = 2 ∨ s.powerState = 3)
    let boot := bootPage p = true ∧ s.bootState ≠ 6
    (s.serving = false → exec i s = .next s) ∧
    (s.serving = true → standby → Completes i s (fun t => OnlyRegs s t [Reg.PWR_STBY_REJ_CNT] ∧ Counted s t Reg.PWR_STBY_REJ_CNT)) ∧
    (s.serving = true → ¬ standby → boot → exec i s = .next s) ∧
    (s.serving = true → ¬ standby → ¬ boot → s.locked p = true → ∀ r, rowOf off = some r → r.exempt = false →
      r.w1c = 0 → r.w1s = 0 → r.wo = 0 →
      Completes i s (fun t => OnlyRegs s t [Reg.PAGE_ERR_STAT p, Reg.PAGE_ERR_CNT p]))

/-! ### Voice cores -/

/-- Every voice-core command issues its bundle, and a core that is not ready for one does nothing (R165, R196). The model's own choices in
it: log entries 8, 72. -/
def Obligations.VoiceCommandsIssueBundles : Prop :=
  ∀ (i : Instr) (n : Fin 34) (b : Bundle) (ax ay : Access) (s : State), voiceBundle i = some (n, b, ax, ay) →
    exec i s = .next (s.issue n b ax ay) ∧ (s.ready n = false → exec i s = .next s)

/-- R189: an operation whose predicate is false is not performed. A legal bundle with all four predicates false passes and writes nothing.
NOP (R199): the bundle passes. -/
def Obligations.FalsePredicatesPerformNothing : Prop :=
  (∀ (i : Instr) (n : Fin 34) (b : Bundle) (ax ay : Access) (s : State), voiceBundle i = some (n, b, ax, ay) → s.Calm n →
    (s.core n).legal (s.core n).pc b = true → isBranch b.c = false →
    (s.core n).holds b.mp = false ∧ (s.core n).holds b.xp = false ∧ (s.core n).holds b.yp = false ∧ (s.core n).holds b.cp = false →
    Bundled s n i [] [] (fun _ => True)) ∧
  (∀ (s : State) (n : Fin 34), s.Calm n → Bundled s n (.nop n Bundle.nop) [] [] (fun _ => True))

/-- R198: an illegal bundle performs none of its operations, whatever their predicates, and raises ILLEGAL. The model's own choices in it:
log entry 44. -/
def Obligations.IllegalBundlesPerformNothing : Prop :=
  ∀ (i : Instr) (n : Fin 34) (b : Bundle) (ax ay : Access) (s : State), voiceBundle i = some (n, b, ax, ay) → s.Calm n →
    (s.core n).legal (s.core n).pc b = false →
    ∃ t, exec i s = .next t ∧ 2 ∈ (t.core n).events ∧
      (t.reg (Reg.VC_ILL_CNT n)).toNat = min 0xFFFFFFFF ((s.reg (Reg.VC_ILL_CNT n)).toNat + 1) ∧
      OnlyCore { s with regs := t.regs } t n ∧ (∀ a, a ≠ Reg.VC_ILL_CNT n → t.reg a = s.reg a) ∧
      ({ s.core n with events := (t.core n).events }).Moved (t.core n) [] []

/-- R181, R206: the two-operand ALU operations. Shift counts are taken modulo 32. R181, R206: moves, immediates and the one-operand ALU
operations. -/
def Obligations.AluAndMoveResults : Prop :=
  (∀ (s : State) (n : Fin 34) (p : Pred) (d a : Fin 32) (b : Operand2), s.Calm n → (s.core n).holds p = true →
    let x := (s.core n).g a
    let y := operand2 (s.core n) b
    ResultIn s n (.add n p d a b Bundle.nop) d (x + y) ∧
    ResultIn s n (.sub n p d a b Bundle.nop) d (x - y) ∧
    ResultIn s n (.adds n p d a b Bundle.nop) d (clamp32 (x.toInt + y.toInt)) ∧
    ResultIn s n (.subs n p d a b Bundle.nop) d (clamp32 (x.toInt - y.toInt)) ∧
    ResultIn s n (.and n p d a b Bundle.nop) d (x &&& y) ∧
    ResultIn s n (.or n p d a b Bundle.nop) d (x ||| y) ∧
    ResultIn s n (.xor n p d a b Bundle.nop) d (x ^^^ y) ∧
    ResultIn s n (.lsl n p d a b Bundle.nop) d (x <<< (y.toNat % 32)) ∧
    ResultIn s n (.lsr n p d a b Bundle.nop) d (x >>> (y.toNat % 32)) ∧
    ResultIn s n (.asr n p d a b Bundle.nop) d (x.sshiftRight (y.toNat % 32)) ∧
    ResultIn s n (.lsls n p d a b Bundle.nop) d (clamp32 (x.toInt * 2 ^ (y.toNat % 32)))) ∧
  (∀ (s : State) (n : Fin 34) (p : Pred) (d a : Fin 32) (i16 : BitVec 16) (i21 : BitVec 21) (i32 : BitVec 32),
    s.Calm n → (s.core n).holds p = true →
    let x := (s.core n).g a
    ResultIn s n (.mov n p d a Bundle.nop) d x ∧
    ResultIn s n (.not n p d a Bundle.nop) d (~~~ x) ∧
    ResultIn s n (.negs n p d a Bundle.nop) d (clamp32 (-x.toInt)) ∧
    ResultIn s n (.abss n p d a Bundle.nop) d (clamp32 (max x.toInt (-x.toInt))) ∧
    ResultIn s n (.addi n p d a i16 Bundle.nop) d (x + i16.signExtend 32) ∧
    ResultIn s n (.movi n p d i21 Bundle.nop) d (i21.signExtend 32) ∧
    ResultIn s n (.movl n p d i32 Bundle.nop) d i32)

/-- R189, R206: the operations on predicate flags and the comparisons. -/
def Obligations.FlagResults : Prop :=
  ∀ (s : State) (n : Fin 34) (p : Pred) (v : Bool) (d e f : Fin 8) (a b : Fin 32), s.Calm n → (s.core n).holds p = true →
    let c := s.core n
    FlagIn s n (.pset n p v d Bundle.nop) d v ∧
    FlagIn s n (.pand n p d e f Bundle.nop) d (c.flag e && c.flag f) ∧
    FlagIn s n (.por n p d e f Bundle.nop) d (c.flag e || c.flag f) ∧
    FlagIn s n (.pxor n p d e f Bundle.nop) d (c.flag e ^^ c.flag f) ∧
    FlagIn s n (.pnot n p d e Bundle.nop) d (!c.flag e) ∧
    FlagIn s n (.cmpcc n p .eq d a b Bundle.nop) d (decide (c.g a = c.g b)) ∧
    FlagIn s n (.cmpcc n p .ne d a b Bundle.nop) d (decide (c.g a ≠ c.g b)) ∧
    FlagIn s n (.cmpcc n p .lt d a b Bundle.nop) d (decide ((c.g a).toInt < (c.g b).toInt)) ∧
    FlagIn s n (.cmpcc n p .ge d a b Bundle.nop) d (decide ((c.g b).toInt ≤ (c.g a).toInt)) ∧
    FlagIn s n (.cmpcc n p .ltu d a b Bundle.nop) d (decide ((c.g a).toNat < (c.g b).toNat)) ∧
    FlagIn s n (.cmpcc n p .geu d a b Bundle.nop) d (decide ((c.g b).toNat ≤ (c.g a).toNat))

/-- R206: MFF and MTF, bit i for flag Fi; MTX and MFX between the G file and the address files. R176, R177, R179, R206: MVA and CLRAV leave
their write in flight; MFA reads a raw part of an accumulator, and MVR a rounded one. -/
def Obligations.FileAndAccumulatorMoves : Prop :=
  (∀ (s : State) (n : Fin 34) (p : Pred) (d a : Fin 32) (file : AddrFile) (k : Fin 8), s.Calm n → (s.core n).holds p = true →
    let c := s.core n
    (∃ v : Word, (∀ j, v.getLsbD j = (decide (j < 8) && c.flag j)) ∧ ResultIn s n (.mff n p d Bundle.nop) d v) ∧
    Bundled s n (.mtf n p a Bundle.nop) ((List.range 8).map codeF) []
      (fun e => ∀ j, j < 8 → e.flag j = (c.g a).getLsbD j) ∧
    Bundled s n (.mtx n p file k a Bundle.nop) [codeX file k] [] (fun e => e.rd (codeX file k) = c.g a) ∧
    ResultIn s n (.mfx n p d file k Bundle.nop) d (c.rd (codeX file k))) ∧
  (∀ (s : State) (n : Fin 34) (p : Pred) (d a : Fin 32) (k : Fin 4) (part : AccPart) (mask : Fin 16) (q23 : Bool),
    s.Calm n → (s.core n).holds p = true →
    let c := s.core n
    Launches s n (.mva n p part k a Bundle.nop) [(2, .accPart k part (c.g a))] ∧
    (mask ≠ 0 → Launches s n (.clrav n p mask Bundle.nop) [(3, .clrav mask)]) ∧
    ResultIn s n (.mfa n p .p0 k d Bundle.nop) d ((c.accRd k).extractLsb' 64 8 |>.signExtend 32) ∧
    ResultIn s n (.mfa n p .p1 k d Bundle.nop) d ((c.accRd k).extractLsb' 0 32) ∧
    ResultIn s n (.mfa n p .p2 k d Bundle.nop) d ((c.accRd k).extractLsb' 32 32) ∧
    ResultIn s n (.mvr n p q23 k d Bundle.nop) d (roundedRead (c.accRd k).toInt (c.av k) (c.avDir k) q23).1)

/-- R173, R175, R199, R200: products and sums of products, exact and modulo 2^72, are in flight for three bundles, with the direction of an
overflow. R174, R199, R201: complex products into an accumulator pair, and the resonator steps, which also put the rounded product back into
their state registers. The model's own choices in it: log entry 44. -/
def Obligations.ProductResults : Prop :=
  (∀ (s : State) (n : Fin 34) (p : Pred) (k : Fin 4) (a b : Fin 32), s.Calm n → (s.core n).holds p = true →
    let c := s.core n
    let ad := fun (i j : Nat) => 2 * ((c.g i).toInt * (c.g j).toInt)
    let old := (c.accRd k).toInt
    let res := fun (v : Int) (fresh : Bool) => [(3, WriteOp.acc k (BitVec.ofInt 72 v) fresh
      (if 2 ^ 71 ≤ v then some false else if v < -(2 ^ 71) then some true else none))]
    let dot2 := ad a b + ad (a + 1) (b + 1)
    let dot4 := dot2 + ad (a + 2) (b + 2) + ad (a + 3) (b + 3)
    Launches s n (.mul n p k a b Bundle.nop) (res (ad a b) true) ∧
    Launches s n (.mac n p k a b Bundle.nop) (res (old + ad a b) false) ∧
    Launches s n (.msc n p k a b Bundle.nop) (res (old - ad a b) false) ∧
    (a.val % 2 = 0 → b.val % 2 = 0 → Launches s n (.dot2 n p k a b Bundle.nop) (res dot2 true) ∧
      Launches s n (.dot2a n p k a b Bundle.nop) (res (old + dot2) false)) ∧
    (a.val % 4 = 0 → b.val % 4 = 0 → Launches s n (.dot4 n p k a b Bundle.nop) (res dot4 true) ∧
      Launches s n (.dot4a n p k a b Bundle.nop) (res (old + dot4) false))) ∧
  (∀ (s : State) (n : Fin 34) (p : Pred) (k : Fin 4) (a b : Fin 32), s.Calm n → (s.core n).holds p = true →
    k.val % 2 = 0 → a.val % 2 = 0 → b.val % 2 = 0 →
    let c := s.core n
    let ad := fun (i j : Nat) => 2 * ((c.g i).toInt * (c.g j).toInt)
    let re0 := (c.accRd k).toInt
    let im0 := (c.accRd (k + 1)).toInt
    let acc := fun (m : Nat) (v : Int) (fresh : Bool) => (3, WriteOp.acc m (BitVec.ofInt 72 v) fresh
      (if 2 ^ 71 ≤ v then some false else if v < -(2 ^ 71) then some true else none))
    let both := fun (x y : Int) (fresh : Bool) => [acc k x fresh, acc (k + 1) y fresh]
    let re := ad a b - ad (a + 1) (b + 1)
    let im := ad a (b + 1) + ad (a + 1) b
    let tr := ad b a - ad (b + 1) (a + 1)
    let ti := ad b (a + 1) + ad (b + 1) a
    let round := fun (v : Int) => (roundedRead v false false false).1
    Launches s n (.cmul n p k a b Bundle.nop) (both re im true) ∧
    Launches s n (.cmac n p k a b Bundle.nop) (both (re0 + re) (im0 + im) false) ∧
    Launches s n (.cmsc n p k a b Bundle.nop) (both (re0 - re) (im0 - im) false) ∧
    Launches s n (.cmacj n p k a b Bundle.nop)
      (both (re0 + (ad a b + ad (a + 1) (b + 1))) (im0 + (ad (a + 1) b - ad a (b + 1))) false) ∧
    (16 ≤ a.val → b.val ≤ 14 →
      Launches s n (.cres0 n p k a b Bundle.nop) (both tr ti true ++ [(3, .reg (c.phys a) (round tr)), (3, .reg (c.phys (a + 1)) (round ti))]) ∧
      Launches s n (.cres n p k a b Bundle.nop)
        (both (re0 + tr) (im0 + ti) false ++ [(3, .reg (c.phys a) (round tr)), (3, .reg (c.phys (a + 1)) (round ti))])))

/-- R155, R182, R186, R202: loads from the front frames, by either data slot and every addressing code; the word is in flight for two
bundles and the pointer is modified at once. R155, R178, R182, R202: stores to the front frames, by either data slot and every addressing
code. Nothing but the words stored changes in data memory. The model's own choices in it: log entries 17, 44. -/
def Obligations.FrameLoadsAndStores : Prop :=
  (∀ (s : State) (n : Fin 34) (y : Bool) (p : Pred) (reg : Fin 32) (ptr : Fin 8) (am : Addressing), s.Calm n →
    (s.core n).holds p = true → am ≠ .offset 0 → (s.core n).fresh = false →
    let c := s.core n
    let f := frontFrame c y
    let load := fun (i : Instr) (size : Nat) (ops : List (Nat × WriteOp)) =>
      memAddr c ptr am size < 0x4000 → InWindow c ptr am size →
        Bundled s n i (pointerWrites c ptr am size) (launched c ops) (fun d => PointerMoved c d ptr am size)
    let w4 := f.rd (memAddr c ptr am 4 / 4)
    load (.ld n y p reg ptr am Bundle.nop Access.quiet Access.quiet) 4 [(2, .reg (c.phys reg) w4)] ∧
    (reg.val % 2 = 0 → load (.ld2 n y p reg ptr am Bundle.nop Access.quiet Access.quiet) 8
      [(2, .reg (c.phys reg) (f.rd (memAddr c ptr am 8 / 4))), (2, .reg (c.phys (reg.val + 1)) (f.rd (memAddr c ptr am 8 / 4 + 1)))]) ∧
    (reg.val < 4 → load (.lda n y p reg ptr am Bundle.nop Access.quiet Access.quiet) 4 [(2, .accPart reg .p0 w4)]) ∧
    (32 + reg.val ∉ pointerWrites c ptr am 4 →
      load (.ldx n y p reg ptr am Bundle.nop Access.quiet Access.quiet) 4 [(2, .reg (32 + reg.val) w4)])) ∧
  (∀ (s : State) (n : Fin 34) (y : Bool) (p : Pred) (reg : Fin 32) (ptr : Fin 8) (am : Addressing), s.Calm n →
    (s.core n).holds p = true → am ≠ .offset 0 → (s.core n).fresh = false → (s.core n).front.frozen = false →
    let c := s.core n
    let store := fun (i : Instr) (size : Nat) (ws : List Word) =>
      memAddr c ptr am size < 0x4000 → InWindow c ptr am size →
        BundledFrom s n i (withFront c y (memAddr c ptr am size / 4) ws) (pointerWrites c ptr am size) []
          (fun d => PointerMoved c d ptr am size)
    store (.st n y p reg ptr am Bundle.nop Access.quiet Access.quiet) 4 [c.g reg] ∧
    (reg.val % 2 = 0 → store (.st2 n y p reg ptr am Bundle.nop Access.quiet Access.quiet) 8 [c.g reg, c.g (reg.val + 1)]) ∧
    (reg.val % 16 < 4 → store (.stQ n y p reg ptr am Bundle.nop Access.quiet Access.quiet) 4
      [(c.rounded (reg.val % 4) (decide (16 ≤ reg.val))).1]) ∧
    store (.stx n y p reg ptr am Bundle.nop Access.quiet Access.quiet) 4 [c.rd (32 + reg.val)])

/-- R190, R206, R209: a taken branch executes two more bundles and then goes on at its target; BL keeps the address of the bundle after its
delay slots. R190: the bundle after a branch is a delay slot, and so is the next; then execution continues at the target, or falls through
when the branch was not taken. The model's own choices in it: log entry 72. -/
def Obligations.BranchesAndDelaySlots : Prop :=
  (∀ (s : State) (n : Fin 34) (p : Pred) (t : Fin 8192) (d a : Fin 32), s.Calm n → (s.core n).holds p = true →
    (s.core n).nearEnd (s.core n).pc = false →
    let c := s.core n
    let goes := fun (x : Nat) => { c with delay := some { left := 2, target := some x } }
    BundledFrom s n (.b n p t Bundle.nop) (goes t) [] [] (fun _ => True) ∧
    BundledFrom s n (.br n p a Bundle.nop) (goes ((c.g a).toNat % 8192)) [] [] (fun _ => True) ∧
    BundledFrom s n (.bl n p d t Bundle.nop) (goes t) [c.phys d] []
      (fun e => e.rd (c.phys d) = BitVec.ofNat 32 ((c.pc + 3) % 8192))) ∧
  (∀ (s : State) (n : Fin 34) (target : Option Nat), (s.setCore n { s.core n with delay := none }).Calm n →
    (∀ t, target = some t → t < 8192 ∧ s.breakAt n t = none) → (s.core n).lc 0 = 0 → (s.core n).lc 1 = 0 →
    ((s.core n).delay = some { left := 2, target := target } →
      BundledFrom s n (.nop n Bundle.nop) { s.core n with delay := some { left := 1, target := target } } [] [] (fun _ => True)) ∧
    ((s.core n).delay = some { left := 1, target := target } →
      ∃ u, exec (.nop n Bundle.nop) s = .next u ∧ OnlyCore s u n ∧ (u.core n).delay = none ∧
        (u.core n).pc = target.getD (((s.core n).pc + 1) % 8192) ∧ (∀ k, (u.core n).rd k = (s.core n).rd k) ∧
        (∀ k, (u.core n).accRd k = (s.core n).accRd k) ∧ (∀ k, (u.core n).cr k = (s.core n).cr k)))

/-- R191, R192, R195: REP adds its count to the executions of its bundle, one cycle each; LOOP and LOOP.R set the registers of the level
they start, and LOOP.R the stage predicates of iteration 0. The model's own choices in it: log entry 72. -/
def Obligations.LoopStarts : Prop :=
  ∀ (s : State) (n : Fin 34) (p : Pred) (count : Count) (stop : Fin 8192) (step : RotStep) (stages : Fin 4),
    s.Calm n → (s.core n).holds p = true → (s.core n).pc + 2 ≤ stop.val →
    let c := s.core n
    let k := match count with
      | .imm v => v.toNat
      | .reg r => (c.g r).toNat
    let level := if c.lc 0 = 0 then 0 else 1
    let regs := [512 + (8 + 3 * level), 512 + (9 + 3 * level), 512 + (10 + 3 * level)]
    let set := fun (e : Core) => e.cr (8 + 3 * level) = BitVec.ofNat 32 (c.pc + 1) ∧ e.cr (9 + 3 * level) = BitVec.ofNat 32 stop.val ∧
      e.cr (10 + 3 * level) = BitVec.ofNat 32 (k % 65536)
    (k ≤ 256 → BundledFrom s n (.rep n p count Bundle.nop) { c with cycle := c.cycle + k } [] [] (fun _ => True)) ∧
    (c.lc 0 = 0 ∨ c.lc 1 = 0 → k % 65536 ≠ 0 → Bundled s n (.loop n p count stop Bundle.nop) regs [] set) ∧
    (c.lc 0 = 0 ∨ c.lc 1 = 0 → k % 65536 ≠ 0 → c.activeRot = none →
      BundledFrom s n (.loopR n p count stop step stages Bundle.nop)
        { c with rot := some { level := level, step := rotStep step, stages := stages.val + 1, total := k % 65536, iter := 0 } }
        (regs ++ [512 + 0x0F] ++ (List.range (stages.val + 1)).map (fun j => codeF (4 + j))) []
        (fun e => set e ∧ e.cr 0x0F = 0 ∧ ∀ j, j ≤ stages.val →
          e.flag (4 + j) = decide (j = 0 ∧ stages.val + 1 ≤ k % 65536)))

/-- R150, R151, R165, R209: VENTER enters Voice mode at its target and ERET returns at EPC in the mode of ECAUSE.PMODE with EIE set; the
target executes three cycles later. The model's own choices in it: log entry 72. -/
def Obligations.ModeChanges : Prop :=
  ∀ (s : State) (n : Fin 34) (p : Pred) (t : Fin 8192), s.Calm n → (s.core n).holds p = true → (s.core n).voice = false →
    (s.core n).nearEnd (s.core n).pc = false → s.breakAt n t = none →
    let c := s.core n
    let kept := fun (u : State) => OnlyCore s u n ∧ (u.core n).cycle = c.cycle + 3 ∧ (u.core n).inflight = [] ∧
      (∀ k, (u.core n).rd k = c.rd k) ∧ (∀ k, (u.core n).accRd k = c.accRd k) ∧ (∀ k, k ≠ 0 → (u.core n).cr k = c.cr k)
    (∃ u, exec (.venter n p t Bundle.nop) s = .next u ∧ kept u ∧ (u.core n).voice = true ∧ (u.core n).pc = t) ∧
    (∃ u, exec (.eret n p Bundle.nop) s = .next u ∧ kept u ∧
      (u.core n).voice = decide (fieldOf (c.cr 2) 4 1 = 1) ∧ fieldOf ((u.core n).cr 0) 1 1 = 1 ∧
      (u.core n).pc = (c.cr 3).toNat % 8192)

/-- R134, R160, R161: a TAKE waits for a task, and counts a Siding miss when the back frames are still being staged; a YIELD in Runtime mode
without a dispatched task passes. R161, R162: a YIELD in Runtime mode ends the dispatched task within its limit: the flags are in YFLAGS,
the front frames are frozen for the state mover, the task is yielded, and execution continues with the next bundle. The model's own choices
in it: log entry 45. -/
def Obligations.TakeAndYield : Prop :=
  (∀ (s : State) (n : Fin 34) (p : Pred) (d : Fin 32) (flags : Fin 4), s.Calm n → (s.core n).holds p = true →
    (s.core n).voice = false → (s.core n).nearEnd (s.core n).pc = false → (s.core n).memUe = none → (s.core n).task = none →
    let c := s.core n
    (∃ u, exec (.take n p d Bundle.nop) s = .next u ∧ (u.core n).taking = some { d := d, miss := s.missing n } ∧
      (u.core n).pc = c.pc ∧ (u.core n).cycle = c.cycle + 1 ∧ OnlyCore { s with regs := u.regs } u n ∧
      (∀ a, a ≠ Reg.SCH_SIDING_MISS_CNT → u.reg a = s.reg a) ∧
      (u.reg Reg.SCH_SIDING_MISS_CNT).toNat =
        if s.missing n then min 0xFFFFFFFF ((s.reg Reg.SCH_SIDING_MISS_CNT).toNat + 1) else (s.reg Reg.SCH_SIDING_MISS_CNT).toNat) ∧
    Bundled s n (.yieldTask n p flags Bundle.nop) [] [] (fun _ => True)) ∧
  (∀ (s : State) (n : Fin 34) (p : Pred) (flags : Fin 4) (id : Nat) (k : Task), s.Calm n → (s.core n).holds p = true →
    (s.core n).voice = false → (s.core n).nearEnd (s.core n).pc = false → (s.core n).memUe = none → (s.core n).recalled = none →
    (s.core n).aborted = none → (s.core n).halted = false → (s.core n).task = some id → s.taskOf id = some k →
    (s.core n).tcyc + 1 ≤ k.limit → taskAborted (some k) = false →
    ∃ u, exec (.yieldTask n p flags Bundle.nop) s = .next u ∧ (u.core n).task = none ∧ (u.core n).front.frozen = true ∧
      (u.core n).cr 7 = BitVec.ofNat 32 flags ∧ (u.core n).pc = ((s.core n).pc + 1) % 8192 ∧
      (u.taskOf id).map Task.phase = some (.yielded n (decide (flags.val % 2 = 1)) (decide (2 ≤ flags.val))) ∧
      u = { s with cores := u.cores, pmu := u.pmu, sch := u.sch } ∧ (∀ m, m ≠ n.val → u.core m = s.core m))

/-- R215, R216, R225: the noise generator and the phase accumulators. -/
def Obligations.GeneratorResults : Prop :=
  ∀ (s : State) (n : Fin 34) (p : Pred) (d a : Fin 32) (k : Fin 16) (incr : Bool) (f : Fin 8), s.Calm n → (s.core n).holds p = true →
    let c := s.core n
    let w := if incr then 2 else 0
    BundledFrom s n (.rnd n p d Bundle.nop) { c with nctr := c.nctr + 1 } [c.phys d] []
      (fun e => e.rd (c.phys d) = noiseHash [c.k0, c.k1, c.nctr]) ∧
    (a.val % 2 = 0 → BundledFrom s n (.rseed n p a Bundle.nop) { c with k0 := c.g a, k1 := c.g (a.val + 1), nctr := 0 } [] [] (fun _ => True)) ∧
    (a.val % 2 = 0 → Bundled s n (.paset n p incr k a Bundle.nop) [codePhase k w, codePhase k (w + 1)] []
      (fun e => e.phase k w = (c.g a).toNat + 2 ^ 32 * ((c.g (a.val + 1)).toNat % 2 ^ 16))) ∧
    (d.val % 2 = 0 → Bundled s n (.paget n p incr k d Bundle.nop) [c.phys d, c.phys (d.val + 1)] []
      (fun e => (e.rd (c.phys d)).toNat + 2 ^ 32 * (e.rd (c.phys (d.val + 1))).toNat = c.phase k w)) ∧
    Bundled s n (.pacc n p none k d Bundle.nop) [c.phys d, codePhase k 0, codePhase k 1] []
      (fun e => e.phase k 0 = (c.phase k 0 + c.phase k 2) % 2 ^ 48 ∧ e.rd (c.phys d) = BitVec.ofNat 32 (c.phase k 0 / 2 ^ 16)) ∧
    Bundled s n (.pacc n p (some f) k d Bundle.nop) [c.phys d, codePhase k 0, codePhase k 1, codeF f] []
      (fun e => e.phase k 0 = (c.phase k 0 + c.phase k 2) % 2 ^ 48 ∧ e.rd (c.phys d) = BitVec.ofNat 32 (c.phase k 0 / 2 ^ 16) ∧
        e.flag f = decide (2 ^ 48 ≤ c.phase k 0 + c.phase k 2))

/-- R219, R220, R221: TREAD and TFETCH of a table region in force read its Concourse words, TFETCH with the interpolation weights, eight
bundles later; of a region that is not enabled they read 0 and count the error. The model's own choices in it: log entries 17, 18. -/
def Obligations.TableReads : Prop :=
  ∀ (s : State) (n : Fin 34) (p : Pred) (cubic : Bool) (r : Fin 64) (g : Fin 4) (d a : Fin 32), s.Calm n → (s.core n).holds p = true →
    r.val < 60 →
    let c := s.core n
    let group := fun (ws : List Word) => ws.zipIdx.map (fun x => (8, WriteOp.reg (c.phys (8 * g + x.2)) x.1))
    let off := fun (i : Instr) (ops : List (Nat × WriteOp)) =>
      ∃ t, exec i s = .next t ∧ OnlyCore { s with regs := t.regs } t n ∧ c.Moved (t.core n) [] (launched c ops) ∧
        (∀ x, x ≠ Reg.SPF_TBL_ERR_CNT → t.reg x = s.reg x) ∧
        (t.reg Reg.SPF_TBL_ERR_CNT).toNat = min 0xFFFFFFFF ((s.reg Reg.SPF_TBL_ERR_CNT).toNat + 1)
    (s.tableRegion r = none →
      off (.tread n p r d a Bundle.nop Access.quiet) [(8, .reg (c.phys d) 0)] ∧
      off (.tfetch n p cubic r g a Bundle.nop Access.quiet) (group (List.replicate (if cubic then 8 else 4) 0))) ∧
    (∀ base k clamp, s.tableRegion r = some (base, k, clamp) →
      let x := (c.g a).toNat
      let i : Int := x / 2 ^ (32 - k)
      let f := x % 2 ^ (32 - k) * 2 ^ (k - 1)
      let at_ := fun (j : Int) => base + 4 * reduceIndex clamp (2 ^ k) j
      let points := if cubic then [i - 1, i, i + 1, i + 2] else [i, i + 1]
      (s.conClean (at_ x) → Launches s n (.tread n p r d a Bundle.nop Access.quiet) [(8, .reg (c.phys d) (s.conWord (at_ x)))]) ∧
      ((∀ j ∈ points, s.conClean (at_ j)) → Launches s n (.tfetch n p cubic r g a Bundle.nop Access.quiet)
        (group (points.map (fun j => s.conWord (at_ j)) ++ if cubic then cubicWeights f else linearWeights f))))

/-- R218, R224: PRAMP reads the ramp at its position, which goes on to the last sample at most; BLEP reads the correction of a table, 0
outside of its window. R151, R158, R211, R395: MFC and MTC in Runtime mode, of the control registers that are plainly stored, and of the
core's number. The model's own choices in it: log entry 10. -/
def Obligations.RampReadsAndControlMoves : Prop :=
  (∀ (s : State) (n : Fin 34) (p : Pred) (r : Fin 128) (t : Fin 8) (d a : Fin 32), s.Calm n → (s.core n).holds p = true →
    let c := s.core n
    let v := (Sparse.get (fun _ => (0 : Word)) c.front.ramp (2 * r)).toInt
    let st := (Sparse.get (fun _ => (0 : Word)) c.front.ramp (2 * r + 1)).toInt
    let j := Sparse.get (fun _ => 0) c.front.pos r
    BundledFrom s n (.pramp n p r d Bundle.nop)
      (c.setFront { c.front with pos := Sparse.put (fun _ => 0) c.front.pos r (min (j + 1) (s.rendered - 1)) }) []
      (launched c [(2, .reg (c.phys d) (clamp32 (v + j * st)))]) (fun _ => True) ∧
    Bundled s n (.blep n p t d a Bundle.nop) [] (launched c [(2, .reg (c.phys d) (blepValue t (c.g a)))]) (fun _ => True) ∧
    ((c.g a).toInt < -(2 * 2 ^ (t.val % 4) * 2 ^ 24) ∨ 2 * 2 ^ (t.val % 4) * 2 ^ 24 ≤ (c.g a).toInt → blepValue t (c.g a) = 0)) ∧
  (∀ (s : State) (n : Fin 34) (p : Pred) (d a : Fin 32) (k : Fin 64), s.Calm n → (s.core n).holds p = true → (s.core n).voice = false →
    let c := s.core n
    (k.val ≤ 0x0D ∨ k.val = 0x0F ∨ k.val = 0x1E ∨ k.val = 0x1F ∨ k.val = 0x22 → ResultIn s n (.mfc n p d k Bundle.nop) d (c.cr k)) ∧
    ResultIn s n (.mfc n p d 0x23 Bundle.nop) d (BitVec.ofNat 32 n) ∧
    BundledFrom s n (.mfc n p d 0x10 Bundle.nop) { c with ccycLatch := BitVec.ofNat 32 (c.cycle / 2 ^ 32) } [c.phys d] []
      (fun e => e.rd (c.phys d) = BitVec.ofNat 32 c.cycle) ∧
    (crMask k ≠ 0 → Bundled s n (.mtc n p k a Bundle.nop) [512 + k] [] (fun e => e.cr k = BitVec.ofNat 32 ((c.g a).toNat &&& crMask k))))

/-- R175, R176, R177: an M-slot result that takes hold replaces its accumulator, clears AV when its operation does, and then sets AV with
the direction of an overflow; an AV bit that goes from 0 to 1 raises ACC_OVERFLOW. -/
def Obligations.AccumulatorsLand : Prop :=
  ∀ (s : State) (n : Fin 34) (k : Fin 4) (v : BitVec 72) (clear m : Bool) (ovf : Option Bool),
    (s.setCore n { s.core n with inflight := [] }).Calm n →
    (s.core n).inflight = [{ due := (s.core n).cycle + 1, voice := m, op := .acc k v clear ovf }] →
    let c := s.core n
    ∃ t, exec (.nop n Bundle.nop) s = .next t ∧ c.Moved (t.core n) [256 + k, 512] [] ∧ (t.core n).accRd k = v ∧
      (t.core n).av k = (ovf.isSome || (c.av k && !clear)) ∧ (∀ x, ovf = some x → (t.core n).avDir k = x) ∧
      (∀ j : Fin 4, j ≠ k → (t.core n).av j = c.av j ∧ (t.core n).avDir j = c.avDir j) ∧
      (∀ j, j ≠ n.val → t.core j = s.core j) ∧
      (if (t.core n).av k && !c.av k then t.bit (Reg.PAGE_IRQ_STAT (Page.vc0 + n)) 4 = true else OnlyCore s t n)

/-! ### Event Ingress -/

/-- R49, R50, R52, R55, R56, R57: an event that reaches the Timetable enters it, or is rejected, discarded or held. R62, R63, R64, R65: a
fence is placed when nothing it awaits is left, and completes when nothing it covers is in the Timetable; a held notification is written
once the ring has room. The model's own choices in it: log entries 15, 19. -/
def Obligations.EventsEnterAndLeave : Prop :=
  (∀ (s : State) (src : Fin 41) (ump : List Word) (stamp : Option (BitVec 64)) (cls : Option Cls) (notify : Bool) (tag : Word),
    let host := decide (32 ≤ src.val)
    let e := s.arriving src ump (if host then stamp.map BitVec.toNat else none) ((cls.map codeOfCls).getD 0) notify tag
    let run := fun (P : State → Prop) => Completes (.timetableEntry src ump stamp cls notify tag) s P
    (s.mapped e → s.ttRoom (s.mappedClass e) = true → run (fun t =>
      (∃ x, t.ing.tt = s.ing.tt ++ [x] ∧ s.tabled e x ∧
        (x.late = true → Counted s t Reg.ING_LATE_CNT ∧ t.bit (Reg.PAGE_IRQ_STAT Page.ing) 1 = true)) ∧
      t = { s with
        regs := t.regs, pmu := t.pmu, out := t.out
        ing := { s.ing with tt := t.ing.tt, seq := s.ing.seq + 1, idx := s.ing.idx + 1, mtStamp := t.ing.mtStamp } } ∧
      KeepsRegs s t (Reg.ING_LATE_CNT :: raiseRegs Page.ing))) ∧
    (s.mapped e → s.ttRoom (s.mappedClass e) = false → host = true → run (fun t => t = s)) ∧
    (s.bit Reg.ING_NTF_CFG 8 = false →
      (s.mapped e → s.ttRoom (s.mappedClass e) = false → host = false → run (fun t => t.ing.tt = s.ing.tt ∧ Counted s t Reg.ING_DROP_CNT ∧
        t.bit (Reg.PAGE_IRQ_STAT Page.ing) 0 = true ∧ KeepsRegs s t (Reg.ING_DROP_CNT :: raiseRegs Page.ing))) ∧
      (s.bit (Reg.ING_SRC_CFG src) 0 = false ∨ host = false ∧ (s.bit Reg.ING_CTRL 0 = false ∨ s.pageOn Page.ing = false) →
        run (fun t => Counted s t Reg.ING_DROP_CNT ∧ t = { s with regs := t.regs, ing := { s.ing with seq := s.ing.seq + 1 } } ∧
          KeepsRegs s t [Reg.ING_DROP_CNT])) ∧
      (∀ r, s.admits e → umpKind (umpTrim ump) = .malformed r → run (fun t => t.ing.tt = s.ing.tt ∧ Counted s t Reg.ING_MAL_CNT ∧
        Counted s t Reg.ERR_LOG_CNT ∧ t.reg Reg.ING_MAL_INFO = BitVec.ofNat 32 (256 * r + src) ∧
        t.bit (Reg.PAGE_IRQ_STAT Page.ing) 2 = true ∧
        KeepsRegs s t ([Reg.ING_MAL_CNT, Reg.ING_MAL_INFO] ++ raiseRegs Page.ing ++ logRegs))))) ∧
  (∀ (s : State),
    let next := s.ing.waiting.find? (fun f => !s.fenceAwaits f)
    let done := s.ing.fences.find? (fun f => !s.ing.tt.any (fun e => f.coversEntry e))
    let size := 2 ^ max 4 (min 12 (s.fld Reg.ING_NTF_CFG 0 4))
    let pi := s.fld Reg.ING_NTF_PI 0 16
    let base := (s.reg Reg.ING_NTF_BASE_LO).toNat / 32 * 32
    (next = none ∨ 256 ≤ s.ing.fences.length → Completes .fencePlace s (fun t => t = s)) ∧
    (∀ f, next = some f → s.ing.fences.length < 256 → Completes .fencePlace s (fun t =>
      t = { s with ing := { s.ing with waiting := s.ing.waiting.erase f, fences := s.ing.fences ++ [f] } })) ∧
    (done = none → Completes .fenceComplete s (fun t => t = s)) ∧
    (∀ f, done = some f → s.bit Reg.ING_NTF_CFG 8 = false → Completes .fenceComplete s (fun t =>
      t = { s with
        regs := t.regs, pmu := t.pmu, out := t.out
        ing := { s.ing with fences := s.ing.fences.erase f, floors := s.ing.floors ++ [f] } } ∧
      t.bit Reg.ING_LAST_FENCE 31 = true ∧ t.bit Reg.ING_LAST_FENCE 24 = f.all ∧ t.fld Reg.ING_LAST_FENCE 0 16 = f.ident % 2 ^ 16 ∧
      t.bit (Reg.PAGE_IRQ_STAT Page.ing) 4 = true ∧ KeepsRegs s t (Reg.ING_LAST_FENCE :: raiseRegs Page.ing))) ∧
    (s.ing.held = [] ∨ s.bit Reg.ING_NTF_CFG 8 = false ∨ size ≤ s.ntfUsed → Completes .notificationFlush s (fun t => t = s)) ∧
    (∀ e es, s.ing.held = e :: es → e.length = 32 → s.bit Reg.ING_NTF_CFG 8 = true → s.bit Reg.ING_NTF_CFG 9 = true → s.ntfUsed < size →
      Completes .notificationFlush s (fun t => t.ing = { s.ing with held := es, nseq := (s.ing.nseq + 1) % 2 ^ 16 } ∧
        t.reg Reg.ING_NTF_PI = BitVec.ofNat 32 ((pi + 1) % 2 ^ 16) ∧ (s.ntfUsed = 0 → t.bit (Reg.PAGE_IRQ_STAT Page.ing) 6 = true) ∧
        (∀ i, i < 32 → (i < 24 ∨ 26 ≤ i) → t.conByte (base + pi % size * 32 + i) = ((e[i]?).getD 0)) ∧
        leNat (t.conBytes (base + pi % size * 32 + 24) 2) = s.ing.nseq % 2 ^ 16 ∧
        KeepsCon s t (base + pi % size * 32) 32 ∧ KeepsRegs s t (Reg.ING_NTF_PI :: raiseRegs Page.ing))))

/-- R42, R43, R44, R45, R57: the doorbell of a ring, and the entries that leave a ring or the SPI FIFO for the Timetable, which are held
while they have no room. The model's own choices in it: log entries 14, 15. -/
def Obligations.HostEntriesPass : Prop :=
  ∀ (s : State) (path : Path) (n : Fin 8) (v : Word) (data : List Byte),
    let piReg := Reg.ING_RING_PI n
    let ciReg := Reg.ING_RING_CI n
    let stat := Reg.ING_RING_STAT n
    let cfg := s.reg (Reg.ING_RING_CFG n)
    let ci := s.fld ciReg 0 16
    let size := 2 ^ max 4 (min 12 (fieldOf cfg 0 4))
    let ahead := (v.toNat % 2 ^ 16 + 2 ^ 16 - ci) % 2 ^ 16
    let bells := fun (t : State) => Sparse.get (fun _ => []) t.ing.doorbells n
    (s.writable piReg = true →
      (size < ahead → Completes (.ringDoorbell path n v) s (fun t => t.bit stat 17 = true ∧
        t.reg Reg.ING_MAL_INFO = BitVec.ofNat 32 (7 * 2 ^ 8 + 32 + n) ∧ Counted s t (Reg.PAGE_ERR_CNT Page.ing) ∧
        t.bit (Reg.PAGE_IRQ_STAT Page.ing) 2 = true ∧
        OnlyReports s t ([stat, Reg.ING_MAL_INFO, Reg.PAGE_ERR_CNT Page.ing] ++ raiseRegs Page.ing))) ∧
      (ahead ≤ size → Completes (.ringDoorbell path n v) s (fun t => t.reg piReg = BitVec.ofNat 32 (v.toNat % 2 ^ 16) ∧
        bells t = bells s ++ [{ upTo := v.toNat % 2 ^ 16, arr := s.clk.mt.toNat, seq := s.ing.seq }] ∧ t.ing.seq = s.ing.seq + 1 ∧
        t.ing.tt = s.ing.tt ∧ KeepsRegs s t (piReg :: raiseRegs Page.ing)))) ∧
    (let due := s.bit Reg.ING_CTRL 1 = true ∧ fieldOf cfg 8 1 = 1 ∧ s.pageOn Page.ing = true ∧ s.ringUsed n ≠ 0
     let base := (s.reg (Reg.ING_RING_BASE_LO n)).toNat / 32 * 32
     let f := entryFields (if fieldOf cfg 9 1 = 1 then s.conBytes (base + ci % size * 32) 32 else data)
     let a := (bells s).headD { upTo := 0, arr := s.clk.mt.toNat, seq := s.ing.seq }
     let run := fun (P : State → Prop) => Completes (.ringEntryRead n data) s P
     let gone := fun (t : State) => t.reg ciReg = BitVec.ofNat 32 ((ci + 1) % 2 ^ 16) ∧ t.bit stat 16 = false ∧
       t.fld stat 0 16 = (f.seq + 1) % 2 ^ 16
     let regs := [ciReg, stat, Reg.ING_MAL_CNT, Reg.ING_MAL_INFO] ++ raiseRegs Page.ing
     (¬ due → run (fun t => t = s)) ∧
     (due → s.bit (Reg.ING_SRC_CFG (32 + n)) 0 = false → s.bit Reg.ING_NTF_CFG 8 = false → run (fun t => gone t ∧
       Counted s t Reg.ING_DROP_CNT ∧ t.ing.tt = s.ing.tt ∧ KeepsRegs s t (Reg.ING_DROP_CNT :: regs))) ∧
     (due → f.reserved = false → f.fence = false → s.mapped (f.event (32 + n) a) →
       (s.ttRoom (s.mappedClass (f.event (32 + n) a)) = true → run (fun t => gone t ∧
         (∃ x, t.ing.tt = s.ing.tt ++ [x] ∧ s.tabled (f.event (32 + n) a) x) ∧ KeepsRegs s t (Reg.ING_LATE_CNT :: regs))) ∧
       (s.ttRoom (s.mappedClass (f.event (32 + n) a)) = false → run (fun t => t.bit stat 16 = true ∧ OnlyRegs s t [stat])))) ∧
    (s.ing.spi = [] → Completes .spiFifoForward s (fun t => t = s)) ∧
    (∀ b a rest, s.ing.spi = (b, a) :: rest →
      (s.bit Reg.ING_CTRL 2 = false ∨ s.pageOn Page.ing = false → Completes .spiFifoForward s (fun t => t = s)) ∧
      (s.bit Reg.ING_CTRL 2 = true → s.pageOn Page.ing = true → (entryFields b).reserved = false → (entryFields b).fence = false →
        s.mapped ((entryFields b).event 40 a) →
        (s.ttRoom (s.mappedClass ((entryFields b).event 40 a)) = true → Completes .spiFifoForward s (fun t =>
          (∃ x, t.ing.tt = s.ing.tt ++ [x] ∧ s.tabled ((entryFields b).event 40 a) x) ∧ t.ing.spi = rest ∧
          t.fld Reg.ING_SPI_STAT 0 7 = rest.length % 128 ∧ KeepsRegs s t ([Reg.ING_SPI_STAT, Reg.ING_LATE_CNT] ++ raiseRegs Page.ing))) ∧
        (s.ttRoom (s.mappedClass ((entryFields b).event 40 a)) = false → Completes .spiFifoForward s (fun t => t = s))))

/-- R46, R47: the window of a session accepts a number once, from either of its paths, counts what it skips, and discards the rest; R335,
R353: a command of a session that is not enabled, or with the NMID page disabled, is dropped and counted. The model's own choices in it: log
entry 38. -/
def Obligations.SessionWindows : Prop :=
  ∀ (s : State) (sess : Fin 32) (seqno : Fin 65536) (umps : List (List Word)),
    let src := s.sessionSource sess
    let w := s.window src
    let path := if 16 ≤ sess.val ∧ src < 16 then 2 else 1
    let on := s.pageOn Page.nmid = true ∧ s.bit (Reg.NMID_SESS_CFG sess) 31 = true
    let into := on ∧ s.bit (Reg.ING_SRC_CFG src) 0 = true ∧ s.bit Reg.ING_CTRL 0 = true ∧ s.pageOn Page.ing = true ∧
      s.bit (Reg.PAGE_ERR_INJ Page.ing) 30 = false
    let run := fun (P : State → Prop) => Completes (.nmidCommand sess seqno umps) s P
    let passed := fun (t : State) (w' : SessWin) => t.window src = w' ∧ Counted s t Reg.NMID_DATA_CNT ∧
      t = { s with regs := t.regs, ing := t.ing, pmu := t.pmu, out := t.out, con := t.con, draws := t.draws }
    let dropped := fun (t : State) => t.ing = { s.ing with seq := s.ing.seq + 1 } ∧ Counted s t Reg.NMID_DATA_CNT
    (¬ on → run (fun t => Counted s t Reg.NMID_DROP_CNT ∧ OnlyRegs s t [Reg.NMID_DROP_CNT])) ∧
    (into → w.h = none → run (fun t => passed t { w with h := some seqno.val, acc := [(seqno.val, path)], moved := 0 } ∧
      t.reg (Reg.NMID_SESS_SEQ src) = BitVec.ofNat 32 (2 ^ 31 + seqno))) ∧
    (∀ h, into → w.h = some h →
      let back := (h + 2 ^ 16 - seqno) % 2 ^ 16
      let ahead := (seqno + 2 ^ 16 - h) % 2 ^ 16
      (back ≤ 255 → w.acc.find? (fun x => decide (x.1 = seqno.val)) = none → run (fun t => passed t { w with acc := (seqno.val, path) :: w.acc })) ∧
      (∀ p, back ≤ 255 → (w.acc.find? (fun x => decide (x.1 = seqno.val))).map Prod.snd = some p →
        (p ≠ path → run (fun t => dropped t ∧ Counted s t Reg.ING_REDUNDANT_CNT ∧
          KeepsRegs s t [Reg.NMID_DATA_CNT, Reg.ING_REDUNDANT_CNT])) ∧
        (p = path → run (fun t => dropped t ∧ Counted s t Reg.ING_DUP_CNT ∧ t.bit (Reg.PAGE_IRQ_STAT Page.ing) 3 = true))) ∧
      (255 < back → 32767 < ahead → run (fun t => dropped t ∧ Counted s t Reg.ING_DUP_CNT)) ∧
      (255 < back → ahead ≤ 32767 → run (fun t => (t.window src).h = some seqno.val ∧ (seqno.val, path) ∈ (t.window src).acc ∧
        t.reg (Reg.NMID_SESS_SEQ src) = BitVec.ofNat 32 (2 ^ 31 + seqno) ∧ Counted s t Reg.NMID_DATA_CNT ∧
        (t.reg Reg.ING_NET_GAP_CNT).toNat = min 0xFFFFFFFF ((s.reg Reg.ING_NET_GAP_CNT).toNat + w.gaps h ahead))))

/-! ### Parameters, streams and monitoring -/

/-- R109, R115, R219: a host parameter write waits for the next boundary step, or is refused; a table region is taken or refused; and a
modulation evaluation writes, for a slot that has been evaluated before, ramps that start at the present targets. The model's own choices in
it: log entry 43. -/
def Obligations.ParameterCommands : Prop :=
  ∀ (s : State) (path : Path) (v : Word) (r : Fin 60) (isCfg : Bool) (cycles : Nat),
    let tgt := s.reg Reg.PS_WR_TGT
    let off := if isCfg then Reg.SPF_TBL_CFG r else Reg.SPF_TBL_BASE r
    let new := s.stored off v
    let n := s.period + 2
    (s.writable Reg.PS_WR_DATA = true →
      (s.refusesHostWrite tgt = false → Completes (.hostParameterWrite path v) s (fun t =>
        t.pool = { s.pool with hostWrites := s.pool.hostWrites ++ [(tgt, v)] } ∧
        t.fld Reg.PS_STAT 0 7 = s.pool.hostWrites.length + 1 ∧ t = { s with regs := t.regs, pool := t.pool } ∧ KeepsRegs s t [Reg.PS_STAT])) ∧
      (s.refusesHostWrite tgt = true → Completes (.hostParameterWrite path v) s (fun t => t.bit Reg.PS_STAT 31 = true ∧
        Counted s t Reg.PS_WR_REJ_CNT ∧ t.bit (Reg.PAGE_ERR_STAT Page.ps) 0 = true ∧
        OnlyRegs s t [Reg.PS_STAT, Reg.PS_WR_REJ_CNT, Reg.PAGE_ERR_STAT Page.ps, Reg.PAGE_ERR_CNT Page.ps]))) ∧
    (s.writable off = true →
      if regionAllowed (if isCfg then s.reg (Reg.SPF_TBL_BASE r) else new) (if isCfg then new else s.reg (Reg.SPF_TBL_CFG r)) then
        Stores (.tableRegionWrite path r isCfg v) s off v
      else Completes (.tableRegionWrite path r isCfg v) s (fun t => t.reg off = s.reg off ∧ Counted s t (Reg.PAGE_ERR_CNT Page.spf))) ∧
    (s.running = false ∨ s.clk.boundaryDone ≤ s.period → Completes (.modulationEval cycles) s (fun t => t = s)) ∧
    (∀ x, s.toEvaluate n (decide (s.period < s.clk.expressDone)) = [x] → s.running = true → s.period < s.clk.boundaryDone →
      Sparse.get (fun _ => 0) s.mm.evaluated x ≠ 0 → s.conQuiet →
      Completes (.modulationEval cycles) s (fun t => Sparse.get (fun _ => 0) t.mm.evaluated x = n + 1 ∧
        (∀ k, k < 128 → t.conWord (frameAddr x 0x100 + 8 * k) = Sparse.get (fun _ => 0) s.mm.target (128 * x + k) ∧
          (s.mm.holding = true → t.conWord (frameAddr x 0x100 + 8 * k + 4) = 0 ∧
            Sparse.get (fun _ => (0 : Word)) t.mm.target (128 * x + k) = Sparse.get (fun _ => 0) s.mm.target (128 * x + k))) ∧
        t.fld Reg.MM_EVAL_MAX 0 16 = max (s.fld Reg.MM_EVAL_MAX 0 16) (min 0xFFFF cycles) ∧
        KeepsCon s t (frameAddr x 0x100) 1024 ∧ KeepsCores s t [] ∧ KeepsSlots s t []))

/-- R229, R234: a fill that returns puts the object's frames, as words, into the ring of its stream from its first frame on; without an
outstanding fill nothing happens. The model's own choices in it: log entries 7, 18. -/
def Obligations.StreamFills : Prop :=
  ∀ (s : State) (slot : Fin 1088) (k : Fin 2),
    let x := s.stream slot k
    let fill := s.spf.fills.find? (fun f => decide (f.slot = slot.val) && decide (f.stream = k.val))
    let base := 0x01000000 + 4096 * s.ringOf slot k
    (fill = none → Completes (.streamFillReturn slot k []) s (fun t => t = s)) ∧
    (∀ f, fill = some f → x.active = true → x.gen = f.gen → x.stereo = false → x.target ≤ (x.asked : Int) →
      f.count * x.width ≤ 64 → 1 ≤ x.width → s.dram.bad = [] → s.bit (Reg.PAGE_ERR_INJ Page.drc) 30 = false → s.conQuiet →
      Completes (.streamFillReturn slot k []) s (fun t => t.stream slot k = { x with filled := f.from_ + f.count } ∧
        (∀ i, i < f.count → t.conWord (base + 4 * ((f.from_ + i) % 1024)) =
          sampleWord x.width ((List.range x.width).map (fun b => s.dramByte (x.addr + (f.pos + i) * x.width + b)))) ∧
        t.spf.fills = s.spf.fills.erase f ∧ KeepsCon s t base 4096 ∧ KeepsRegs s t [] ∧
        t = { s with spf := t.spf, con := t.con, ctl := t.ctl, pmu := t.pmu }))

/-- R386, R387, R389, R391, R394: a due dump takes a snapshot of all counters, or is skipped while the last one is not written or the ring
is full; a snapshot that is complete stands in host memory and PMU_PI passes it; the ring is not reconfigured while dumps are enabled; and a
read of a counter latches its upper half. The model's own choices in it: log entry 59. -/
def Obligations.PmuCommands : Prop :=
  ∀ (s : State) (path : Path) (v : Word) (i : Fin 3),
    let p := s.period
    let due := s.bit Reg.PMU_CTRL 0 = true ∧ s.pageOn Page.pmu = true ∧ s.running = true ∧ s.offset = 0 ∧ p % s.dumpInterval = 0 ∧
      s.dump.done ≠ p + 1
    let full := s.dump.snap ≠ none ∨ (s.fld Reg.PMU_PI 0 16 + 2 ^ 16 - s.fld Reg.PMU_CI 0 16) % 2 ^ 16 = s.dumpRing
    let pi := s.fld Reg.PMU_PI 0 16
    let rec_ := (s.reg Reg.PMU_RING_BASE_LO).toNat / 64 * 64 + 2 ^ 32 * (s.reg Reg.PMU_RING_BASE_HI).toNat + pi % s.dumpRing * 4160
    (¬ due → Completes .pmuDump s (fun t => t = s)) ∧
    (due → s.bit (Reg.PAGE_ERR_INJ Page.pmu) 30 = false →
      (¬ full → Completes .pmuDump s (fun t => (∃ x ∈ t.dump.snap, x.counters = s.pmu ∧ x.mt = s.clk.mt ∧ x.period = p) ∧
        t.dump.done = p + 1 ∧ t.bit Reg.PMU_STAT 0 = true ∧ t = { s with regs := t.regs, dump := t.dump } ∧ KeepsRegs s t [Reg.PMU_STAT])) ∧
      (full → Completes .pmuDump s (fun t => t.dump.snap = s.dump.snap ∧ t.dump.skipped = min 0xFFFF (s.dump.skipped + 1) ∧
        t.bit (Reg.PAGE_ERR_STAT Page.pmu) 0 = true ∧ t.bit (Reg.PAGE_IRQ_STAT Page.pmu) 1 = true ∧ Counted s t Reg.ERR_LOG_CNT))) ∧
    (s.dump.snap = none → Completes .pmuDumpComplete s (fun t => t = s)) ∧
    (∀ x, s.dump.snap = some x → s.bit Reg.PMU_RING_CFG 9 = false → s.bit (Reg.PAGE_STAT Page.pmu) 1 = false →
      Completes .pmuDumpComplete s (fun t => t.fld Reg.PMU_PI 0 16 = (pi + 1) % 2 ^ 16 ∧ t.bit Reg.PMU_STAT 0 = false ∧
        Counted s t Reg.PMU_DUMP_CNT ∧ t.bit (Reg.PAGE_IRQ_STAT Page.pmu) 0 = true ∧ t.dump.snap = none ∧
        (∀ j, j < 4160 → Sparse.get (fun _ => 0) t.out.hostMem ((rec_ + j) % 2 ^ 64) =
          ((x.record s.dump.rseq s.dump.skipped s.dump.first)[j]?).getD 0) ∧
        KeepsCon s t 0 0 ∧ KeepsRegs s t ([Reg.PMU_PI, Reg.PMU_STAT, Reg.PMU_DUMP_CNT] ++ raiseRegs Page.pmu))) ∧
    (s.writable (pmuRingReg i) = true →
      if s.bit Reg.PMU_CTRL 0 = true ∨ s.dump.snap ≠ none then
        Completes (.pmuRingConfigWrite path i v) s (fun t => t.bit Reg.PMU_STAT 31 = true ∧ Counted s t (Reg.PAGE_ERR_CNT Page.pmu) ∧
          OnlyRegs s t [Reg.PMU_STAT, Reg.PAGE_ERR_CNT Page.pmu])
      else Stores (.pmuRingConfigWrite path i v) s (pmuRingReg i) v) ∧
    (s.serving = true → Completes (.pmuCounterRead path) s (fun t =>
      t.out.sent = .readData path [BitVec.ofNat 32 (s.pmuGet (s.fld Reg.PMU_CNT_SEL 0 9))] :: s.out.sent ∧
      t.latched 1 path = BitVec.ofNat 32 (s.pmuGet (s.fld Reg.PMU_CNT_SEL 0 9) / 2 ^ 32) ∧
      t = { s with out := { s.out with sent := t.out.sent }, latches := t.latches }))

/-! ### Scheduling and output -/

/-- R261, R262, R264, R265: a block completes in its queue, late, dropped or present; and the enable and configuration of a queue. The
model's own choices in it: log entry 15. -/
def Obligations.QueueCommands : Prop :=
  ∀ (s : State) (q : Fin 48) (path : Path) (v : Word),
    let x := s.queue q
    let cfg := Reg.OQ_Q_CFG q
    let on := setFieldOf v 0 1 1
    let off := setFieldOf v 0 1 0
    let kept := fieldOf v 4 3 = s.fld cfg 4 3 ∧ fieldOf v 16 8 = s.fld cfg 16 8
    (∀ n data rest, x.arriving = (n, data) :: rest → s.bit (Reg.PAGE_ERR_INJ Page.oq) 30 = false →
      Completes (.queueBlockArrival q) s (fun t =>
        t.queue q = { x with
          arriving := rest
          blocks := if s.queueRelease q n < s.sample ∨ s.depth q ≤ x.blocks.length then x.blocks else x.blocks ++ [(n, data)] } ∧
        (s.queueRelease q n < s.sample → Counted s t Reg.OQ_LATE_CNT ∧ t.bit (Reg.OQ_Q_STAT q) 29 = true) ∧
        (s.sample ≤ s.queueRelease q n → s.depth q ≤ x.blocks.length →
          Counted s t Reg.OQ_OVERRUN_CNT ∧ t.bit (Reg.OQ_Q_STAT q) 30 = true) ∧
        t = { s with regs := t.regs, queues := t.queues, pmu := t.pmu, out := t.out } ∧ KeepsQueues s t [q] ∧
        KeepsRegs s t ([Reg.OQ_Q_STAT q, Reg.OQ_LATE_CNT, Reg.OQ_OVERRUN_CNT] ++ raiseRegs Page.oq ++ logRegs))) ∧
    (s.writable cfg = true →
      (s.bit cfg 0 = false → Stores (.queueEnable path q v) s cfg on ∧ Stores (.queueDisable path q v) s cfg off) ∧
      (s.bit cfg 0 = true → ¬ kept → Completes (.queueEnable path q v) s (fun t => t.bit Reg.OQ_STAT 31 = true ∧
        Counted s t (Reg.PAGE_ERR_CNT Page.oq) ∧ OnlyRegs s t [Reg.OQ_STAT, Reg.PAGE_ERR_CNT Page.oq])) ∧
      (s.bit cfg 0 = true → kept → x.active = true → Completes (.queueDisable path q v) s (fun t => t.reg cfg = s.stored cfg off ∧
        t.queue q = { x with
          stopping := true, arriving := [], blocks := [], cur := none, rise := none, under := true
          fade := if x.primed = true ∧ x.under = false then some 0 else x.fade } ∧
        t = { s with regs := t.regs, queues := t.queues } ∧ KeepsQueues s t [q] ∧ KeepsRegs s t [cfg, Reg.OQ_Q_STAT q])))

/-- R259, R260: at the frame boundary the router writes the next block, channel by channel as the map says, into every enabled queue, and
takes the map that is selected; R29: blocks before the first one rendered are not written; otherwise nothing happens. The model's own
choices in it: log entry 15. -/
def Obligations.FrameBoundaryRoutes : Prop :=
  ∀ (s : State),
    let p := s.period
    let due := s.running = true ∧ s.run = true ∧ s.offset = s.blk / 4 ∧ s.clk.frameDone ≠ p + 1
    (¬ due → Completes .frameBoundary s (fun t => t = s)) ∧
    (due → s.pageOn Page.ort = true → s.ort.stopping = false → s.conQuiet →
      Completes .frameBoundary s (fun t =>
        (∀ q ∈ queueNumbers, t.queue q =
          if s.bit (Reg.OQ_Q_CFG q) 0 = true ∧ s.clk.startPeriod + 1 ≤ p then
            { s.queue q with arriving := (s.queue q).arriving ++ [(p + 1, s.routed (p + 1) q)] }
          else s.queue q) ∧
        t = { s with
          regs := t.regs, queues := t.queues, pmu := t.pmu, clk := { s.clk with frameDone := p + 1 }
          ort := { s.ort with mapCur := s.fld Reg.ORT_CTRL 0 1 } } ∧
        t.fld Reg.ORT_STAT 0 1 = s.fld Reg.ORT_CTRL 0 1 ∧ KeepsRegs s t [Reg.ORT_STAT]))

/-- R262, R263, R269: an output sample inside a period hands out the sample of every queue's block, enters the sample of queue 0 into every
DAC filter, and media time moves on by one sample; in standby nothing happens. The model's own choices in it: log entry 15. -/
def Obligations.OutputSamples : Prop :=
  ∀ (s : State) (late : BitVec 8),
    (s.powerState = 2 ∨ s.powerState = 3 → Completes (.outputSample late) s (fun t => t = s)) ∧
    (s.serving = true → s.powerState = 0 → s.running = true → s.offset ≠ 0 → s.offset + 1 < s.blk →
      Completes (.outputSample late) s (fun t =>
        t.clk.mt = s.clk.mt + 256 ∧
        (∀ q ∈ queueNumbers, ∀ b, (s.queue q).cur = some b → (s.queue q).fade = none → (s.queue q).rise = none →
          (t.queue q).cur = some b ∧ (t.queue q).outValid = true ∧
          (t.queue q).outV = (List.range (s.queueChannels q)).map (fun c => ((((b.2[c]?).getD [])[s.offset]?).getD 0))) ∧
        (∀ c, c < 8 → (s.dacCh c).mirror = none →
          (t.dacCh c).hist = ((((t.queue 0).outV[c]?).getD 0) :: (s.dacCh c).hist).take 64) ∧
        KeepsCores s t []))

/-- R125, R126, R129, R131: a slot that renders its block and has no task for it, and an enabled bus program, get a task that is bound on
their Platform with the next order. R132, R133, R155: staging takes the best task available, reads the checkpoint of a task that is not the
first of its slot, and fills a Siding slot; the task is staged when that is complete; the staged task of slot 1 moves into an empty slot 0.
The model's own choices in it: log entries 20, 23, 46. -/
def Obligations.TasksAreBoundAndStaged : Prop :=
  (∀ (s : State) (x : Fin 1152) (cyc : Nat), s.binds = true → s.period < s.clk.boundaryDone →
    (s.coresOf (s.indexPset x)).contains (s.placedOf x) = true →
    let p := s.period
    let bound := fun (t : State) (n : Nat) (cls : Cls) (bus : Bool) =>
      ∃ k ∈ t.sch.tasks, k.order = s.sch.order ∧ k.index = x ∧ k.bseq = n ∧ k.phase = .bound ∧ k.cls = cls ∧ k.epoch = s.epochOf x ∧
        k.platform = s.platformOf x ∧ k.out = outBuffer x ∧ k.limit = s.limitOf bus (if bus then x - 1088 else (s.slot x).part) cls
    (x.val < 1088 → s.wantsTask x (p + 2) = true → s.slotCls x ≠ .express →
      Completes (.taskBind x cyc) s (fun t => bound t (p + 2) (s.slotCls x) false ∧ t.sch.order = s.sch.order + 1 ∧ KeepsCores s t [])) ∧
    (x.val < 1088 → s.wantsTask x (p + 2) = false → Completes (.taskBind x cyc) s (fun t => t = s)) ∧
    (1088 ≤ x.val → s.wantsBus (x - 1088) (p + 1) = true → s.clk.startPeriod + 2 ≤ p + 1 → s.clk.busDeadlineDone ≤ p →
      clsOfCode (s.fld (Reg.SCH_BUS_CFG (x - 1088)) 1 2) ≠ .express →
      Completes (.taskBind x cyc) s (fun t => bound t (p + 1) (clsOfCode (s.fld (Reg.SCH_BUS_CFG (x - 1088)) 1 2)) true ∧
        t.sch.order = s.sch.order + 1 ∧ KeepsCores s t []))) ∧
  (∀ (s : State) (n : Fin 34) (slot1 : Bool) (a : BitVec 25),
    let c := s.core n
    let buf := fun (t : State) => if slot1 then (t.core n).buf1 else (t.core n).back
    (s.sidingFree n slot1 = false → Completes (.taskStage n slot1 a .clean) s (fun t => t = s)) ∧
    (∀ k, s.best n (s.sch.tasks.filter (fun t => decide (t.phase = .bound) && !t.withdrawn && s.mayRun n t && s.stageable t)) = some k →
      s.sidingFree n slot1 = true → s.conQuiet →
      Completes (.taskStage n slot1 a .clean) s (fun t => (t.taskOf k.order).map Task.phase = some (.staging n (if slot1 then 1 else 0)) ∧
        (buf t).task = some k.order ∧
        (∀ i, i < 512 → (buf t).x.rd i = (if k.first then 0 else s.conWord (k.home + 4 * i)) ∧
          (buf t).y.rd i = (if k.first then 0 else s.conWord (k.home + 2048 + 4 * i))) ∧
        KeepsCores s t [n] ∧ KeepsRegs s t [] ∧ KeepsCon s t 0 0)) ∧
    (∀ id, (buf s).task = some id → ∀ k, s.taskOf id = some k → ∀ m j, k.phase = .staging m j →
      Completes (.stagingComplete n slot1) s (fun t => (t.taskOf id).map Task.phase = some (.staged m j) ∧ t = { s with sch := t.sch })) ∧
    (∀ id, c.buf1.task = some id → ∀ k, s.taskOf id = some k → ∀ m j, k.phase = .staged m j → c.back.task = none → c.back.frozen = false →
      c.svc = 2 →
      Completes (.sidingMove n) s (fun t => (t.taskOf id).map Task.phase = some (.staged m 0) ∧ (t.core n).back = c.buf1 ∧
        (t.core n).buf1 = TaskBuf.reset ∧ t = { s with sch := t.sch, cores := t.cores } ∧ KeepsCores s t [n])))

/-- R134, R159, R160, R215: a waiting TAKE receives the staged task of slot 0, whose frames become the front frames, and the noise keys are
those of the task; or the task is deferred. The model's own choices in it: log entry 45. -/
def Obligations.TakesAreDelivered : Prop :=
  ∀ (s : State) (n : Fin 34) (cyc wait : Nat) (w : Taking) (id : Nat) (k : Task) (m j : Nat),
    let c := s.core n
    c.taking = some w → c.svc = 2 → c.halted = false → c.recalled = none → c.takesEvent = false → c.back.task = some id →
    s.taskOf id = some k → k.phase = .staged m j → c.inflight = [] → c.task = none → c.memUe = none → c.delay = none → wait = 0 →
    (s.passes k cyc = true → s.breakAt n ((c.pc + 1) % 8192) = none → c.lc 0 = 0 → c.lc 1 = 0 →
      Completes (.takeDelivery n cyc wait) s (fun t => (t.taskOf id).map Task.phase = some (.dispatched n) ∧
        (t.core n).task = some k.order ∧ (t.core n).taking = none ∧ (t.core n).frontA = !c.frontA ∧ (t.core n).k0 = k.seed ∧
        (t.core n).nctr = BitVec.ofNat 32 (k.bseq % 2 ^ 22 * 1024) ∧ (t.core n).pc = (c.pc + 1) % 8192 ∧
        (∀ i, i < 0x400 → (t.core n).front.x.rd i = c.back.x.rd i ∧ (t.core n).front.y.rd i = c.back.y.rd i) ∧
        (w.miss = false → Counted s t Reg.SCH_SIDING_HIT_CNT) ∧ KeepsCores s t [n] ∧ KeepsCon s t 0 0)) ∧
    (s.passes k cyc = false →
      Completes (.takeDelivery n cyc wait) s (fun t => (t.taskOf id).map Task.phase = some .deferred ∧ (t.core n).back.task = none ∧
        (t.core n).taking = some w ∧ Counted s t (if k.cls = .bulk then Reg.SCH_DEFER_BULK_CNT else Reg.SCH_DEFER_NRM_CNT)))

/-- R6, R95, R135, R155: a yielded task commits when its check passes, and its checkpoint and result are in the Concourse; a stale one is
dropped and counted, and the Concourse stays as it is. -/
def Obligations.CommitChecks : Prop :=
  ∀ (s : State) (n : Fin 34) (front : Bool) (b : TaskBuf) (id : Nat) (k : Task) (m : Nat) (ended : Bool),
    (s.core n).yielded = some (front, b) → b.task = some id → s.taskOf id = some k → k.phase = .yielded m ended false →
    s.bit (Reg.PAGE_ERR_INJ (Page.vc0 + n)) 30 = false → s.conQuiet →
    let stale := k.withdrawn = true ∨ k.epoch ≠ s.epochOf k.index
    let buf := fun (t : State) => if front then (t.core n).front else (t.core n).back
    let done := fun (t : State) => (buf t).frozen = false ∧ (buf t).task = none ∧ KeepsCores s t [n]
    (stale → Completes (.commitCheck n .clean .clean) s (fun t => (t.taskOf id).map Task.phase = some .dropped ∧
      Counted s t Reg.SCH_STALE_CNT ∧ KeepsRegs s t [Reg.SCH_STALE_CNT] ∧ KeepsCon s t 0 0 ∧ done t)) ∧
    (¬ stale → s.sch.tasks.all (fun j => !(decide (j.index = k.index) && decide (j.bseq = k.bseq) && decide (j.phase = .committed))) = true →
      s.sample < s.deadlineSample k → k.kind ≠ .bus → k.slot < 1088 → k.home = homeAddr k.slot → k.out = outBuffer k.slot →
      k.index = k.slot → s.rendered ≤ 128 →
      Completes (.commitCheck n .clean .clean) s (fun t => (t.taskOf id).map Task.phase = some .committed ∧
        Counted s t Reg.MIX_ACCEPT_CNT ∧ ConHolds t k.home 512 b.x.rd ∧ ConHolds t (k.home + 2048) 512 b.y.rd ∧
        ConHolds t k.out s.rendered (fun i => b.y.rd (0x200 + i)) ∧ (t.slot k.slot).lastCommit = some k.bseq ∧
        (t.slot k.slot).endFlag = ended ∧ KeepsSlots s t [k.slot] ∧ done t))

/-- R142: a task whose cycle count exceeds its limit is aborted: counted, logged, reported, ABORTED pending in the core, its slot muted.
R14, R15, R140: a deadline is met once a period. With no slot in the pool, or for blocks that cannot have been rendered since the start (log
entry 23), nothing is concealed; the block of a slot, or of a bus program, for which no task exists is concealed and counted. The model's
own choices in it: log entries 15, 23, 73. -/
def Obligations.AbortsAndDeadlines : Prop :=
  (∀ (s : State) (n : Fin 34) (id : Nat) (k : Task), (s.core n).task = some id → s.taskOf id = some k → (s.core n).aborted = none →
    taskAborted (some k) = false → (s.core n).svc = 2 → s.bit (Reg.PAGE_ERR_INJ Page.sch) 30 = false →
    ((s.core n).tcyc ≤ k.limit → Completes (.taskAbort n) s (fun t => t = s)) ∧
    (k.limit < (s.core n).tcyc → Completes (.taskAbort n) s (fun t => (t.taskOf id).map Task.phase = some (.aborted n) ∧
      (t.core n).aborted = some 0 ∧ 5 ∈ (t.core n).events ∧ Counted s t Reg.SCH_ABORT_CNT ∧ Counted s t Reg.ERR_LOG_CNT ∧
      t.bit (Reg.PAGE_IRQ_STAT Page.sch) 2 = true ∧ KeepsCores s t [n] ∧ KeepsCon s t 0 0 ∧
      KeepsRegs s t (Reg.SCH_ABORT_CNT :: raiseRegs Page.sch ++ logRegs) ∧
      (k.kind ≠ .bus → k.index < 1088 → (t.slot k.index).muted = some k.bseq ∧ KeepsSlots s t [k.index])))) ∧
  (∀ (s : State), s.running = true →
    let p := s.period
    let live := s.pool.slots.filter (fun e => decide (e.2.st ≠ .free))
    let buses := (List.range 64).filter (fun k => decide (Sparse.get (fun _ => 0) s.sch.busEnabled k = 1))
    let none_ := fun (x : Nat) => s.sch.tasks.all (fun t => !(decide (t.index = x) && decide (t.bseq = p + 1)))
    (s.offset = 0 → s.clk.deadlineDone ≤ p →
      (live = [] ∨ p + 1 < s.clk.startPeriod + 2 → Completes .taskDeadline s (fun t => t = { s with clk := { s.clk with deadlineDone := p + 1 } })) ∧
      (∀ x v, live = [(x, v)] → s.slot x = v → v.owes (p + 1) = true → v.muted = none → v.st = .active → s.clk.startPeriod + 2 ≤ p + 1 →
        p ≤ s.clk.boundaryDone → none_ x = true → x < 1088 → s.conQuiet →
        Completes .taskDeadline s (fun t => Counted s t Reg.SCH_CONCEAL_CNT ∧ (t.slot x).floorRun = 0 ∧ (t.slot x).endFlag = false ∧
          t.clk = { s.clk with deadlineDone := p + 1 } ∧ KeepsSlots s t [x] ∧ KeepsCores s t [] ∧ KeepsRegs s t [Reg.SCH_CONCEAL_CNT]))) ∧
    (s.offset = s.blk / 5 → s.clk.busDeadlineDone ≤ p →
      (buses = [] ∨ p + 1 < s.clk.startPeriod + 2 → Completes .busTaskDeadline s (fun t =>
        t = { s with clk := { s.clk with busDeadlineDone := p + 1 } })) ∧
      (∀ k, buses = [k] → none_ (1088 + k) = true → s.clk.startPeriod + 2 ≤ p + 1 → p < s.clk.boundaryDone → s.conQuiet →
        Completes .busTaskDeadline s (fun t => Counted s t Reg.SCH_CONCEAL_CNT ∧ t.clk = { s.clk with busDeadlineDone := p + 1 } ∧
          KeepsSlots s t [] ∧ KeepsCores s t [] ∧ KeepsRegs s t [Reg.SCH_CONCEAL_CNT]))))

/-- R73, R137, R146, R147: the writes of the SCH page and of the Part quotas. A reservation that does not fit, a quota that does not add up
and a shunt that is not possible are refused; HCLR clears the histograms; a shunt moves the slot and counts its epoch up. -/
def Obligations.SchedulerWrites : Prop :=
  ∀ (s : State) (path : Path) (v : Word) (part : Fin 64),
    let refused := fun (i : Instr) (stat b p : Nat) (l : List Nat) => Completes i s (fun t => t.bit stat b = true ∧
      Counted s t (Reg.PAGE_ERR_CNT p) ∧ OnlyRegs s t ([stat, Reg.PAGE_ERR_CNT p] ++ l))
    let quota := Reg.VA_PART_QUOTA part
    let new := s.stored quota v
    let others := (((List.range 64).filter (fun q => decide (q ≠ part.val))).map (fun q => s.fld (Reg.VA_PART_QUOTA q) 16 11)).sum
    let x := fieldOf (s.stored Reg.SCH_SHUNT v) 0 11
    let n := fieldOf (s.stored Reg.SCH_SHUNT v) 16 6
    let bad := 1088 ≤ x ∨ (s.slot x).st = .free ∨ s.sharedPset (s.indexPset x) = true ∨ n ∉ s.coresOf (s.indexPset x) ∨
      s.bit Reg.SCH_SHUNT_STAT 31 = true
    (s.writable Reg.SCH_EXP_CYCLES = true →
      if s.reservationFits (fieldOf (s.stored Reg.SCH_EXP_CYCLES v) 0 24) (s.fld Reg.SCH_EXP_CFG 0 24) then
        Stores (.expCyclesWrite path v) s Reg.SCH_EXP_CYCLES v
      else refused (.expCyclesWrite path v) Reg.SCH_STAT 31 Page.sch []) ∧
    (s.writable Reg.SCH_EXP_CFG = true →
      if s.reservationFits (s.fld Reg.SCH_EXP_CYCLES 0 24) (fieldOf (s.stored Reg.SCH_EXP_CFG v) 0 24) then
        Stores (.expCfgWrite path v) s Reg.SCH_EXP_CFG v
      else refused (.expCfgWrite path v) Reg.SCH_STAT 31 Page.sch []) ∧
    (s.writable quota = true →
      if fieldOf new 0 11 < fieldOf new 16 11 ∨ 1024 < fieldOf new 0 11 ∨ 1024 < fieldOf new 16 11 + others then
        refused (.partQuotaWrite path part v) Reg.VA_STAT 31 Page.va []
      else Stores (.partQuotaWrite path part v) s quota v) ∧
    (s.writable Reg.SCH_CTRL = true → Completes (.histClear path v) s (fun t => t.reg Reg.SCH_CTRL = s.stored Reg.SCH_CTRL v ∧
      (fieldOf v 16 1 = 1 → ∀ i, i < 48 → t.reg (Reg.SCH_HIST i) = 0) ∧
      t = { s with regs := t.regs, sch := { s.sch with peaks := t.sch.peaks } } ∧ (fieldOf v 16 1 = 0 → t.sch = s.sch) ∧
      KeepsRegs s t (Reg.SCH_CTRL :: if fieldOf v 16 1 = 1 then (List.range 48).map (fun i => Reg.SCH_HIST i) else []))) ∧
    (s.writable Reg.SCH_SHUNT = true → fieldOf v 31 1 = 1 →
      (bad → refused (.shuntRequest path v) Reg.SCH_STAT 30 Page.sch [Reg.SCH_SHUNT]) ∧
      (¬ bad → Completes (.shuntRequest path v) s (fun t => t.placedOf x = n ∧ t.epochOf x = (s.epochOf x + 1) % 2 ^ 16 ∧
        t.bit Reg.SCH_SHUNT_STAT 31 = true ∧ Counted s t Reg.SCH_SHUNT_CNT ∧ KeepsCon s t 0 0)))

/-- R67, R137, R242, R244, R302: a boundary step takes the copy of the send map, the channel counts and the region attributes that the
registers hold; an Express step clears the overload flag; each runs once a period, in its place. The model's own choices in it: log entries
15, 32. -/
def Obligations.AllocationSteps : Prop :=
  ∀ (s : State) (recs : List (List Byte)),
    let p := s.period
    let due := s.running = true ∧ s.run = true ∧ s.offset = 0 ∧ s.clk.boundaryDone ≤ p ∧ p < s.clk.deadlineDone
    let express := s.running = true ∧ s.run = true ∧ s.offset = s.expCut ∧ s.clk.expressDone ≤ p ∧ p < s.clk.boundaryDone
    (¬ due → Completes (.boundaryStep recs) s (fun t => t = s)) ∧
    (due → Completes (.boundaryStep recs) s (fun t => t.clk = { s.clk with boundaryDone := p + 1 } ∧
      t.mix.smapCur = s.fld Reg.MIX_CTRL 0 1 ∧ t.fld Reg.MIX_STAT 0 1 = s.fld Reg.MIX_CTRL 0 1 ∧
      (∀ i, i < 64 → Sparse.get (fun _ => 0) t.mix.nchApplied i = s.reg (Reg.MIX_PART_CFG i) ∧
        Sparse.get (fun _ => 0) t.ctl.attrs i = s.reg (Reg.CON_ATTR i)) ∧
      t.dac = s.dac ∧ t.queues = s.queues)) ∧
    (¬ express → Completes .expressStep s (fun t => t = s)) ∧
    (express → s.ing.tt = [] → Completes .expressStep s (fun t => t.clk = { s.clk with expressDone := p + 1 } ∧
      t.bit Reg.SCH_STAT 2 = false ∧ t.dac = s.dac ∧ t.queues = s.queues ∧ KeepsSlots s t [] ∧ KeepsCon s t 0 0))

/-! ### DACs, decimation and capture -/

/-- R275, R276, R280: the end of the clamp, of a clear ramp, of the first half of a switch sequence and of all of it. The model's own
choices in it: log entries 15, 29. -/
def Obligations.DacChannelEvents : Prop :=
  ∀ (s : State) (c : Fin 8),
    let x := s.dacCh c
    let turns := fun (i : Instr) (y : DacChan) (l : List Nat) =>
      Completes i s (fun t => t.dacCh c = y ∧ t.fld (Reg.DAC_CH_STAT c) 0 3 = y.code ∧ DacOnly s t c l)
    (x.st = .clamp → s.dacMayRun c = true → 1024 ≤ x.starting * s.modCycles →
      turns (.clampRelease c) { x with st := .clear, ramp := none, rampLevel := none, starting := 0 } [Reg.DAC_CH_RB c]) ∧
    (x.ramp = some 64 → x.toClamp = false → turns (.clearRampEnd c) { x with ramp := none, rampLevel := none } []) ∧
    (x.ramp = some 64 → x.toClamp = true → s.bit (Reg.PAGE_STAT Page.dac) 1 = false →
      turns (.clearRampEnd c) { x with
        st := .clamp, starting := 0, ramp := none, rampLevel := none, toClamp := false, seq := none, ignore := 0
        range := s.bit (Reg.DAC_CH_CFG c) 2, filt := s.bit Reg.DAC_CTRL 0, action := false, leave := false } []) ∧
    (∀ q, x.seq = some q →
      (64 ≤ q.pos → q.changed = false →
        turns (.switchGainChange c) { x with range := q.range, filt := q.filt, seq := some { q with changed := true } } []) ∧
      (144 ≤ q.pos → turns (.switchSequenceEnd c) { x with seq := none, range := q.range, filt := q.filt } []))

/-- R272, R275, R277, R280, R289: the writes of DAC_CHc_CFG and DAC_CHc_CLR. A channel that stays as it is changes no further; EN cleared
starts the clear ramp of a running channel; a range that is not available or meets a switch sequence is refused. R282, R287, R288: a tone
follows a change of its EN at the next output sample; RB_FAULT cleared ends the read-back action and sets the leaky count to 0; the
over-current bits are cleared. The model's own choices in it: log entries 27 to 30. -/
def Obligations.DacWrites : Prop :=
  (∀ (s : State) (path : Path) (c : Fin 8) (v : Word), s.writable (Reg.DAC_CH_CFG c) = true →
    let cfg := Reg.DAC_CH_CFG c
    let x := s.dacCh c
    let off := setFieldOf v 0 1 0
    let same := fieldOf v 2 1 = s.fld cfg 2 1
    (s.writable (Reg.DAC_CH_CLR c) = true → Stores (.clearCodeWrite path c v) s (Reg.DAC_CH_CLR c) v) ∧
    (same → x.st = .clamp → Stores (.maskWrite path c v) s cfg v ∧ Stores (.channelEnable path c v) s cfg (setFieldOf v 0 1 1) ∧
      Stores (.channelDisable path c v) s cfg off) ∧
    (same → s.dacMayRun c = true → fieldOf v 0 1 = 1 → Stores (.maskWrite path c v) s cfg v) ∧
    (same → x.st = .run → x.seq = none → x.toClamp = false → s.bit Reg.CLK_MEDIA_STAT 7 = true →
      s.bit (Reg.DAC_CH_STAT c) 9 = false → s.bit (Reg.DAC_CH_STAT c) 10 = false → s.bit Reg.PWR_STAT 1 = true →
      Completes (.channelDisable path c v) s (fun t => t.reg cfg = s.stored cfg off ∧
        t.dacCh c = { x with st := .clear, ramp := some 0, rampLevel := none, toClamp := true } ∧ DacOnly s t c [cfg])) ∧
    (fieldOf v 2 1 ≠ s.fld cfg 2 1 →
      ((fieldOf v 2 1 = 1 ∧ s.bit Reg.DAC_STAT 2 = false) ∨ x.code = 3 →
        Completes (.rangeSwitch path c v) s (fun t => Refused s t Reg.DAC_STAT 31 Page.dac)) ∧
      (¬ ((fieldOf v 2 1 = 1 ∧ s.bit Reg.DAC_STAT 2 = false) ∨ x.code = 3) → x.st = .clamp →
        Completes (.rangeSwitch path c v) s (fun t => t.reg cfg = s.stored cfg v ∧
          t.dacCh c = { x with range := decide (fieldOf v 2 1 = 1) } ∧ DacOnly s t c [cfg])))) ∧
  (∀ (s : State) (path : Path) (c : Fin 8) (v : Word),
    let cfg := Reg.DAC_CH_TONE_CFG c
    let x := s.dacCh c
    (s.writable cfg = true →
      Completes (.toneEnable path c v) s (fun t => t.reg cfg = s.stored cfg (setFieldOf v 16 1 1) ∧
        t.dacCh c = { x with toneReq := if s.bit cfg 16 then x.toneReq else some true } ∧ DacOnly s t c [cfg]) ∧
      Completes (.toneDisable path c v) s (fun t => t.reg cfg = s.stored cfg (setFieldOf v 16 1 0) ∧
        t.dacCh c = { x with toneReq := if s.bit cfg 16 then some false else x.toneReq } ∧ DacOnly s t c [cfg])) ∧
    (s.writable (Reg.DAC_CH_STAT c) = true →
      ((∀ d, d < 8 → ∀ m, (s.dacCh d).mirror = some m → m.source ≠ c) →
        Completes (.readbackFaultClear path c v) s (fun t => t.bit (Reg.DAC_CH_STAT c) 8 = false ∧ t.fld (Reg.DAC_CH_RB c) 0 8 = 0 ∧
          t.dacCh c = { x with leave := decide (x.st = .fault), action := false, faultAt := none } ∧ DacOnly s t c [Reg.DAC_CH_RB c])) ∧
      (fieldOf v 8 1 = 0 → Completes (.overcurrentClear path c v) s (fun t =>
        t.bit (Reg.DAC_CH_STAT c) 9 = false ∧ t.bit (Reg.DAC_CH_STAT c) 10 = false ∧ OnlyRegs s t [Reg.DAC_CH_STAT c]))))

/-- R278, R279, R280: the clear forced by OUTCLR or SWCLR and its release, which starts a ramp when no other clear is asserted; and the
filter mode, which clamped channels take at once. R256, R284, R286, R288, R400: an AVDD that fails clamps every channel; an over-current
trip clamps its channel, is logged, counted and reported; a read-back fault mutes its channel, or its partner takes over the data; and a
converter sample, between the outputs of its cascade, enters both cascades and changes nothing else. The model's own choices in it: log
entries 27, 28, 31. -/
def Obligations.DacClearsAndFaults : Prop :=
  (∀ (s : State) (path : Path) (v : Word),
    let ctrl := Reg.DAC_CTRL
    let sw := fieldOf v 4 1 = 1
    let forced := fun (t : State) (on : Bool) (l : List Nat) =>
      t.bit Reg.DAC_STAT 0 = on ∧ t.bit (Reg.PAGE_IRQ_STAT Page.dac) 2 = true ∧
      t = { s with regs := t.regs, pmu := t.pmu, out := t.out, dac := { s.dac with release := t.dac.release } } ∧
      KeepsRegs s t (Reg.DAC_STAT :: raiseRegs Page.dac ++ l)
    let ramp := fun (on : Bool) => if on then none else if s.bit Reg.DAC_STAT 0 then some 0 else s.dac.release
    (s.bit Reg.DAC_STAT 1 = false → s.pwr.vioA = true → Completes .outclrAssert s (fun t => t.bit Reg.DAC_STAT 1 = true ∧
      t.dac.release = none ∧ Counted s t Reg.DAC_OUTCLR_CNT ∧ forced t true [Reg.DAC_OUTCLR_CNT])) ∧
    (s.bit Reg.DAC_STAT 1 = true → s.pwr.vioA = true → Completes .outclrRelease s (fun t => t.bit Reg.DAC_STAT 1 = false ∧
      t.dac.release = ramp (s.bit ctrl 4 || s.pwr.hbClear) ∧ forced t (s.bit ctrl 4 || s.pwr.hbClear) [])) ∧
    (s.writable ctrl = true → fieldOf v 0 1 = s.fld ctrl 0 1 →
      (sw → s.bit ctrl 4 = false → Completes (.softwareClear path v) s (fun t => t.bit ctrl 4 = true ∧ t.dac.release = none ∧
        Counted s t Reg.DAC_OUTCLR_CNT ∧ forced t true [ctrl, Reg.DAC_OUTCLR_CNT])) ∧
      (¬ sw → s.bit ctrl 4 = true → Completes (.softwareClear path v) s (fun t => t.bit ctrl 4 = false ∧
        t.dac.release = ramp (s.bit Reg.DAC_STAT 1 || s.pwr.hbClear) ∧ forced t (s.bit Reg.DAC_STAT 1 || s.pwr.hbClear) [ctrl]))) ∧
    (s.writable ctrl = true → fieldOf v 0 1 ≠ s.fld ctrl 0 1 → (s.bit ctrl 4 = true ↔ sw) →
      ((∀ c, c < 8 → (s.dacCh c).code ≠ 3) → Completes (.filterSwitch path v) s (fun t => t.fld ctrl 0 1 = fieldOf v 0 1 ∧
        (∀ c, c < 8 → t.dacCh c = if (s.dacCh c).st = .clamp then { s.dacCh c with filt := decide (fieldOf v 0 1 = 1) } else s.dacCh c) ∧
        t = { s with regs := t.regs, dac := { s.dac with chans := t.dac.chans } } ∧
        KeepsRegs s t (ctrl :: (List.range 8).map (fun c => Reg.DAC_CH_STAT c)))) ∧
      ((∃ c, c < 8 ∧ (s.dacCh c).code = 3) → Completes (.filterSwitch path v) s (fun t => Refused s t Reg.DAC_STAT 31 Page.dac)))) ∧
  (∀ (s : State) (c : Fin 8) (nLeg ok hi : Bool) (w : BitVec 12),
    let x := s.dacCh c
    let act := s.fld (Reg.DAC_CH_CFG c) 4 2
    let p := s.fld (Reg.DAC_CH_CFG c) 8 3
    let stats := (List.range 8).map (fun d => Reg.DAC_CH_STAT d)
    Completes (.avddChange ok hi) s (fun t => t.bit Reg.PWR_STAT 1 = ok ∧ t.bit Reg.DAC_STAT 2 = hi ∧
      (ok = false → ∀ d, d < 8 → (t.dacCh d).st = .clamp) ∧ (∀ d, d < 8 → (s.dacCh d).st = .clamp → t.dacCh d = s.dacCh d) ∧
      t = { s with regs := t.regs, dac := t.dac } ∧ KeepsRegs s t (Reg.PWR_STAT :: Reg.DAC_STAT :: stats)) ∧
    Completes (.overcurrentTrip c nLeg) s (fun t => t.bit (Reg.DAC_CH_STAT c) (if nLeg then 10 else 9) = true ∧
      (t.dacCh c).st = .clamp ∧ Counted s t Reg.DAC_OC_CNT ∧ Counted s t Reg.ERR_LOG_CNT ∧
      t.bit (Reg.PAGE_IRQ_STAT Page.dac) 1 = true ∧ KeepsChans s t (if act = 2 then [c, p] else [c]) ∧
      t = { s with regs := t.regs, dac := t.dac, pmu := t.pmu, out := t.out } ∧
      KeepsRegs s t ([Reg.DAC_STAT, Reg.DAC_OC_CNT] ++ stats ++ raiseRegs Page.dac ++ logRegs)) ∧
    (x.action = true →
      (act = 0 → Completes (.readbackAction c) s (fun t => t.dacCh c = { x with action := false } ∧ DacOnly s t c [])) ∧
      (act = 1 → x.st = .run → x.toClamp = false → Completes (.readbackAction c) s (fun t =>
        t.dacCh c = { x with action := false, st := .fault, ramp := some 0 } ∧ DacOnly s t c [])) ∧
      (act = 2 → s.mirrorMutes c p = false → Completes (.readbackAction c) s (fun t =>
        t.dacCh p = { s.dacCh p with mirror := some { source := c, k := 0, back := false } } ∧ KeepsChans s t [c, p] ∧
        t = { s with regs := t.regs, dac := t.dac }))) ∧
    ((s.monitor c).phase ≠ 7 → Completes (.monitorSample c w) s (fun t =>
      t.monitor c = ((s.monitor c).push (s.dec.monLen + 1) w).1 ∧ (∀ d, d < 8 → d ≠ c.val → t.monitor d = s.monitor d) ∧
      t.dacCh c = { x with ref := (x.ref.push (s.dec.monLen + 1) (s.reference c)).1, taken := (x.taken + 1) % (s.modCycles / 16) } ∧
      t = { s with regs := t.regs, dac := t.dac, dec := t.dec } ∧ KeepsRegs s t [Reg.DAC_CH_STAT c] ∧ KeepsChans s t [c])))

/-- R252, R253, R255, R257: the writes of the DEC page. A coefficient set in use is not changed and the write is refused, and so is a
capture source at twice Fs that the rate does not allow. R255: an input sample of a port goes into the capture block of its output sample,
for every capture channel that takes it; without such a channel, or while media time stands, nothing happens. The model's own choices in it:
log entry 15. -/
def Obligations.DecimationAndCapture : Prop :=
  (∀ (s : State) (path : Path) (k : Fin 128) (v : Word),
    let set := s.fld Reg.DEC_COEF_ADDR 8 1
    let tap := s.fld Reg.DEC_COEF_ADDR 0 6
    let coef := fun (t : State) (i : Nat) => Sparse.get (fun _ => Option.none) t.dec.coef i
    let refused := fun (i : Instr) => Completes i s (fun t => Refused s t Reg.DEC_STAT 31 Page.dec)
    (s.writable Reg.DEC_COEF_DATA = true →
      (s.setInUse set = false → Completes (.coefWrite path v) s (fun t =>
        coef t (64 * set + tap) = some (v.truncate 24) ∧ (∀ i, i < 128 → i ≠ 64 * set + tap → coef t i = coef s i) ∧
        t.fld Reg.DEC_COEF_ADDR 0 6 = (tap + 1) % 64 ∧ t = { s with regs := t.regs, dec := { s.dec with coef := t.dec.coef } } ∧
        KeepsRegs s t [Reg.DEC_COEF_ADDR])) ∧
      (s.setInUse set = true → refused (.coefWrite path v))) ∧
    (s.writable Reg.DEC_TAPS = true →
      ((∀ i, i < 2 → fieldOf v (8 * i) 7 ≠ s.fld Reg.DEC_TAPS (8 * i) 7 → s.setInUse i = false) →
        Stores (.tapsWrite path v) s Reg.DEC_TAPS v) ∧
      ((∃ i, i < 2 ∧ fieldOf v (8 * i) 7 ≠ s.fld Reg.DEC_TAPS (8 * i) 7 ∧ s.setInUse i = true) → refused (.tapsWrite path v))) ∧
    (s.writable Reg.DEC_CTRL = true → Stores (.busSetChange path v) s Reg.DEC_CTRL v ∧ Stores (.capSetChange path v) s Reg.DEC_CTRL v) ∧
    (s.writable Reg.DEC_MON_CFG = true → Stores (.monitorLengthWrite path v) s Reg.DEC_MON_CFG v) ∧
    (s.writable (Reg.DEC_CAP_SRC k) = true →
      if fieldOf v 30 1 = 1 ∧ s.rate2x = true then refused (.captureSourceWrite path k v)
      else Stores (.captureSourceWrite path k v) s (Reg.DEC_CAP_SRC k) v)) ∧
  (∀ (s : State) (port : Fin 4) (ch : Fin 256) (n : BitVec 56) (second : Bool) (w : Word) (k : Fin 128),
    let takes := fun (j : Nat) => fieldOf (s.reg (Reg.DEC_CAP_SRC j)) 31 1 = 1 ∧ fieldOf (s.reg (Reg.DEC_CAP_SRC j)) 8 2 = port.val ∧
      fieldOf (s.reg (Reg.DEC_CAP_SRC j)) 0 8 = ch.val
    (s.running = false ∨ (∀ j, j < 128 → ¬ takes j) → Completes (.captureSample port ch n second w) s (fun t => t = s)) ∧
    (s.running = true → takes k → (∀ j, j < 128 → j ≠ k.val → ¬ takes j) → fieldOf (s.reg (Reg.DEC_CAP_SRC k)) 30 1 = 0 →
      s.period ≤ n.toNat / s.blk + 1 → (k.val, n.toNat) ∉ s.dec.capSeen → s.dec.stopCap = none → s.conQuiet →
      Completes (.captureSample port ch n second w) s (fun t =>
        t.conWord (s.captureAddr k n.toNat) = w ∧ KeepsCon s t (s.captureAddr k n.toNat) 4 ∧
        t = { s with con := t.con, ctl := t.ctl, pmu := t.pmu, dec := { s.dec with capSeen := (k.val, n.toNat) :: s.dec.capSeen } })))

/-- R246, R247, R249, R250, R251: the closed voice sum of every bus and rendered sample is the sum of the contributions of its block; with
OS = 1, no DC blocker and no stop, a bus's outputs are its rounded final sums. The model's own choices in it: log entry 15. -/
def Obligations.SumsClose : Prop :=
  ∀ (s : State), s.running = true →
    let b := s.period + 1
    (s.clk.voiceSumDone ≠ b → s.clk.deadlineDone = b → Completes .voiceSumClose s (fun t =>
      (∀ bus, bus < 128 → ∀ j, j < s.rendered → Sparse.get (fun _ => 0) t.mix.voiceSum (128 * bus + j) =
        ((s.mix.terms.filter (fun m => decide (m.bseq = b) && !m.bus)).map
          (fun m => m.at (decide (s.mix.stopFrom = some b)) s.rendered bus j)).sum) ∧
      t.mix.voiceBlock = some b ∧ t.clk.voiceSumDone = b ∧ t.mix.terms = s.mix.terms.filter (fun m => !(decide (m.bseq = b) && !m.bus)) ∧
      KeepsCon s t 0x00E64000 0x10000 ∧ KeepsCores s t [] ∧ t.clk = { s.clk with voiceSumDone := b })) ∧
    (s.clk.finalSumDone ≠ b → s.clk.busDeadlineDone = b → Completes .finalSumClose s (fun t =>
      t.mix.finalBlock = some b ∧ t.dec.outBlock = some b ∧ t.clk = { s.clk with finalSumDone := b } ∧
      (∀ bus, bus < 128 → ∀ j, j < s.rendered → Sparse.get (fun _ => 0) t.mix.final (128 * bus + j) =
        (roundSum ((if s.mix.voiceBlock = some b then Sparse.get (fun _ => 0) s.mix.voiceSum (128 * bus + j) else 0) +
          ((s.mix.terms.filter (fun m => decide (m.bseq = b) && m.bus)).map
            (fun m => m.at (decide (s.mix.stopFrom = some b)) s.rendered bus j)).sum)).1) ∧
      (s.os = 1 → s.dec.stopBus = none → ∀ bus, bus < 128 → ∀ j, j < s.blk → (s.reg (Reg.DEC_DCB_EN0 + 4 * (bus / 32))).getLsbD (bus % 32) = false →
        Sparse.get (fun _ => 0) t.dec.out (64 * bus + j) = Sparse.get (fun _ => 0) t.mix.final (128 * bus + j)) ∧
      KeepsCon s t 0 0 ∧ KeepsCores s t [] ∧ KeepsChans s t [] ∧ KeepsQueues s t []))

/-! ### Memories -/

/-- R295, R301, R302: a corrected word is written back once; the test mode, refused while media time runs or a core is in service; and the
region attributes, refused whole when a granule's mode is 0b11. R305, R306, R308: the background test borrows the region at its position,
restores it when its March ends, with the failing cell recorded, and aborts one that takes longer than a block period. The model's own
choices in it: log entries 18, 33, 37. -/
def Obligations.ConcourseUpkeep : Prop :=
  (∀ (s : State) (path : Path) (v : Word) (i : Fin 64) (w : BitVec 21),
    let ctrl := Reg.CON_CTRL
    let barred := fieldOf v 0 1 = 1 ∧ s.fld ctrl 0 1 = 0 ∧ (s.run = true ∨ s.inService ≠ [])
    let reserved := ∃ e, e < 8 ∧ fieldOf v (4 * e) 2 = 3
    (w.toNat ∈ s.ctl.writeBack → Completes (.concourseWriteback w) s (fun t => w.toNat ∉ t.ctl.writeBack ∧
      t = { s with pmu := t.pmu, ctl := { s.ctl with writeBack := s.ctl.writeBack.filter (fun k => decide (k ≠ w.toNat)) } })) ∧
    (w.toNat ∉ s.ctl.writeBack → Completes (.concourseWriteback w) s (fun t => t = s)) ∧
    (s.writable ctrl = true →
      (barred → Completes (.testModeWrite path v) s (fun t => Refused s t Reg.CON_STAT 31 Page.con)) ∧
      (¬ barred → Completes (.testModeWrite path v) s (fun t => t.reg ctrl = s.stored ctrl v ∧
        (s.bootState = 6 → t.conMode = if fieldOf (s.stored ctrl v) 0 1 = 1 then 2 else 0) ∧ OnlyRegs s t [ctrl, Reg.CON_STAT]))) ∧
    (s.writable (Reg.CON_ATTR i) = true →
      (reserved → Completes (.attributeWrite path i v) s (fun t => Refused s t Reg.CON_STAT 31 Page.con)) ∧
      (¬ reserved → Stores (.attributeWrite path i v) s (Reg.CON_ATTR i) v))) ∧
  (∀ (s : State) (word : Fin 256) (bit : Fin 137),
    let p := s.period
    let off := s.bit Reg.CON_CTRL 8 = false ∨ s.conMode ≠ 0 ∨ s.pageOn Page.con = false ∨ s.ctl.btBorrow ≠ none ∨ s.running = false ∨
      s.offset ≠ 0 ∨ p < s.ctl.btWait ∨ s.powerState ≠ 0
    (off → Completes .backgroundTestStart s (fun t => t = s)) ∧
    (¬ off → s.btPos < 9472 → s.noBorrow (s.btPos % 128) = false → Completes .backgroundTestStart s (fun t =>
      t.fld Reg.CON_BT_POS 16 2 = 2 ∧ t.btPos = s.btPos ∧
      t = { s with regs := t.regs, ctl := { s.ctl with
        btWait := p + s.fld Reg.CON_CTRL 16 8 + 1, btStart := p, btBorrow := some (s.btPos / 128, s.btPos % 128) } } ∧
      KeepsRegs s t [Reg.CON_BT_POS])) ∧
    (s.ctl.btBorrow = none → Completes (.marchDone none) s (fun t => t = s) ∧ Completes .backgroundTestTimeout s (fun t => t = s)) ∧
    (∀ r, s.ctl.btBorrow = some r → r.1 < 74 → r.2 < 128 → s.bit (Reg.PAGE_ERR_INJ Page.con) 30 = false →
      Completes (.marchDone none) s (fun t => t.ctl = { s.ctl with btBorrow := none } ∧ Counted s t Reg.CON_BT_REGION_CNT ∧
        t.btPos = (128 * r.1 + r.2 + 1) % 9472 ∧ t = { s with regs := t.regs, pmu := t.pmu, ctl := t.ctl } ∧
        KeepsRegs s t [Reg.CON_BT_REGION_CNT, Reg.CON_BT_POS]) ∧
      Completes (.marchDone (some (word, bit))) s (fun t => t.ctl.btBorrow = none ∧ Counted s t Reg.CON_BT_REGION_CNT ∧
        Counted s t Reg.CON_BT_FAIL_CNT ∧ Counted s t Reg.ERR_LOG_CNT ∧ t.bit (Reg.PAGE_IRQ_STAT Page.con) 4 = true ∧
        t.reg Reg.CON_BT_FAIL = BitVec.ofNat 32 (2 ^ 31 + 2 ^ 24 * r.1 + 2 ^ 17 * r.2 + 2 ^ 9 * word + bit) ∧ KeepsCon s t 0 0) ∧
      (s.running = false ∨ s.ctl.btStart < p → Completes .backgroundTestTimeout s (fun t => t.ctl = { s.ctl with btBorrow := none } ∧
        t.fld Reg.CON_BT_POS 16 2 = 0 ∧ Counted s t Reg.CON_BT_ABORT_CNT ∧ t = { s with regs := t.regs, ctl := t.ctl } ∧
        KeepsRegs s t [Reg.CON_BT_POS, Reg.CON_BT_ABORT_CNT]))))

/-- R309, R311, R312: a rebuild goes on row by row, repeats a row that met a write, and with its last row puts the target in the place of
the bank; a returned bank becomes a spare, or is retired again when its March fails. The model's own choices in it: log entries 36, 37. -/
def Obligations.BankRebuilds : Prop :=
  ∀ (s : State) (redo : Bool) (q : Fin 128) (word : Fin 256) (bit : Fin 137),
    let st := Reg.CON_RB_STAT
    let row := s.fld st 0 15
    let target := s.fld st 24 7
    let spares := [Reg.CON_STAT]
    (s.bit st 31 = false → Completes (.rebuildRow redo []) s (fun t => t = s)) ∧
    (s.bit st 31 = true → Completes (.rebuildRow true []) s (fun t => Counted s t Reg.CON_RB_REDO_CNT ∧ OnlyRegs s t [Reg.CON_RB_REDO_CNT])) ∧
    (s.bit st 31 = true → s.ctl.bad = [] → s.ctl.badParity = [] →
      (row < 32767 → Completes (.rebuildRow false []) s (fun t => t.fld st 0 15 = row + 1 ∧ t.fld st 16 16 = s.fld st 16 16 ∧
        t.fld Reg.SVC_PROG 0 7 = (row + 1) * 100 / 32768 ∧ t = { s with regs := t.regs, pmu := t.pmu } ∧
        KeepsRegs s t [st, Reg.SVC_PROG])) ∧
      (row = 32767 → target < 74 → s.ctl.rbBank < 74 → target ≠ s.ctl.rbBank → Completes (.rebuildRow false []) s (fun t =>
        t.bankState s.ctl.rbBank = 3 ∧ t.bankState target = 0 ∧ t.fld (Reg.CON_BANK target) 24 4 = s.fld st 20 4 ∧
        t.fld (Reg.CON_BANK target) 16 4 = s.fld st 16 4 ∧ t.bit st 31 = false ∧ t.bit (Reg.PAGE_IRQ_STAT Page.con) 3 = true ∧
        t.svc = { s.svc with committed := true, finished := true } ∧ KeepsCon s t 0 0 ∧
        KeepsRegs s t ([st, Reg.SVC_PROG, Reg.CON_STAT, Reg.CON_BANK target, Reg.CON_BANK s.ctl.rbBank] ++ raiseRegs Page.con)))) ∧
    (∀ b, (List.range 74).find? (fun b => decide (s.bankState b = 4)) = some b → s.bit (Reg.PAGE_ERR_INJ Page.con) 30 = false →
      Completes (.bankReturnDone none) s (fun t => t.bankState b = 1 ∧
        t = { s with regs := t.regs, svc := { s.svc with committed := true, finished := true, fail := false } } ∧
        KeepsRegs s t (Reg.CON_BANK b :: spares)) ∧
      Completes (.bankReturnDone (some (q, word, bit))) s (fun t => t.bankState b = 3 ∧ t.svc.finished = true ∧ t.svc.fail = true ∧
        Counted s t Reg.CON_BT_FAIL_CNT ∧ KeepsCon s t 0 0))

/-- R318, R319, R320: the patrol reads line after line and starts again after the last one; a page whose retirement ends is in its unit,
with its data. The model's own choices in it: log entry 34. -/
def Obligations.SampleMemoryUpkeep : Prop :=
  ∀ (s : State) (o0 o1 : Nat) (page : BitVec 20),
    let st := Reg.DRC_SCRUB_STAT
    let line := s.fld st 0 26
    let idle := (s.bit st 31 = false ∧ ¬ (s.bit Reg.DRC_CFG 8 = true ∧ s.pageOn Page.drc = true)) ∨ s.powerState ≠ 0
    (idle → Completes (.scrubLine 0 o0 o1) s (fun t => t = s)) ∧
    (¬ idle → s.bit st 31 = false → line ∉ s.dram.bad → s.bit (Reg.PAGE_ERR_INJ Page.drc) 30 = false →
      (line + 1 < 0x3800000 → Completes (.scrubLine 0 o0 o1) s (fun t => t.fld st 0 26 = line + 1 ∧
        t = { s with regs := t.regs, pmu := t.pmu } ∧ KeepsRegs s t [st])) ∧
      (line + 1 = 0x3800000 → Completes (.scrubLine 0 o0 o1) s (fun t => t.reg st = 0 ∧ Counted s t Reg.DRC_SCRUB_PASS_CNT ∧
        (t.reg Reg.DRC_ODECC0_CNT).toNat = min 0xFFFFFFFF ((s.reg Reg.DRC_ODECC0_CNT).toNat + o0) ∧
        (t.reg Reg.DRC_ODECC1_CNT).toNat = min 0xFFFFFFFF ((s.reg Reg.DRC_ODECC1_CNT).toNat + o1) ∧
        t.bit (Reg.PAGE_IRQ_STAT Page.drc) 2 = true ∧ t.dram.pass = s.dram.pass + 1 ∧ KeepsDram s t))) ∧
    (s.dram.retiring.any (fun e => decide (e.1 = page.toNat)) = false →
      Completes (.pageRetireDone page 0 []) s (fun t => t = s)) ∧
    (∀ e, s.dram.retiring.find? (fun e => decide (e.1 = page.toNat)) = some e → (∀ l ∈ s.dram.bad, l / 64 ≠ page.toNat) →
      s.bit (Reg.PAGE_ERR_INJ Page.drc) 30 = false → s.bit Reg.SVC_STAT 31 = false →
      Completes (.pageRetireDone page 0 []) s (fun t => Sparse.get (fun _ => 0) t.dram.replaced page.toNat = e.2 + 1 ∧
        t.dram.retiring = s.dram.retiring.filter (fun e => decide (e.1 ≠ page.toNat)) ∧ Counted s t Reg.DRC_RETIRED_CNT ∧ KeepsDram s t ∧
        t = { s with regs := t.regs, dram := t.dram, pmu := t.pmu } ∧ KeepsRegs s t [Reg.DRC_STAT, Reg.DRC_RETIRED_CNT]))

/-! ### Clocks, cores and host ports -/

/-- R24, R30, R31, R32, R34: a source is qualified or lost, one that ranks higher is promoted, the media PLL locks to a source, and a change
of source takes effect at a block boundary. The model's own choices in it: log entries 25, 26. -/
def Obligations.ClockSources : Prop :=
  ∀ (s : State) (x : ClockSource) (avg adj : Word) (ns : Int),
    let first := fun (u : State) => (u.sourceOrder.find? (fun y => u.qualified y)).getD .crystal
    let lost : State := match x with
      | .gptp => { s with clk := { s.clk with gptpQualified := false } }
      | .wclk => { s with clk := { s.clk with wclkQualified := false } }
      | .crystal => s
    let next := fun (y : ClockSource) => if y = s.source then none else some y
    Completes (.sourceQualified x) s (fun t => t.qualified x = true ∧ (∀ y, y ≠ x → t.qualified y = s.qualified y) ∧
      t = { s with clk := { s.clk with gptpQualified := t.clk.gptpQualified, wclkQualified := t.clk.wclkQualified } }) ∧
    (s.qualified x = false ∨ x = .crystal → Completes (.sourceLost x avg) s (fun t => t = s)) ∧
    (s.qualified x = true → x ≠ .crystal →
      (x ≠ s.source → Completes (.sourceLost x avg) s (fun t => t.qualified x = false ∧ t.source = s.source ∧ t.pll = s.pll ∧
        t.clk.nextSource = (if s.clk.nextSource = some x then none else s.clk.nextSource) ∧ ClockOnly s t [])) ∧
      (x = s.source → s.pll = 2 → Completes (.sourceLost x avg) s (fun t => t.qualified x = false ∧ t.pll = 3 ∧
        t.reg Reg.CLK_FREQ_ADJ = avg ∧ t.clk.heldAdj = avg ∧ t.clk.nextSource = next (first lost) ∧ Counted s t Reg.CLK_FALLBACK_CNT ∧
        Counted s t Reg.ERR_LOG_CNT ∧ t.bit (Reg.PAGE_IRQ_STAT Page.clk) 0 = true ∧ ClockOnly s t (clockRegs ++ logRegs)))) ∧
    (Completes (.sourcePromotion x) s (fun t => t = { s with clk := { s.clk with
      nextSource := if s.qualified x ∧ x ∈ s.sourceOrder.takeWhile (fun y => decide (y ≠ s.source)) then next x else s.clk.nextSource } })) ∧
    (let locks := s.pll = 1 ∧ s.clk.famRelock = false ∧ s.source ≠ .crystal ∧ s.bit Reg.CLK_MEDIA_STAT 8 = false ∧
       ns.natAbs ≤ max 1 (s.fld Reg.CLK_LOCK_THR 0 16)
     (¬ locks → Completes (.mediaPllLocked ns adj) s (fun t => t = s)) ∧
     (locks → Completes (.mediaPllLocked ns adj) s (fun t => t.pll = 2 ∧ t.reg Reg.CLK_FREQ_ADJ = adj ∧ (t.reg Reg.CLK_OFFSET).toInt = ns ∧
       t.bit (Reg.PAGE_IRQ_STAT Page.clk) 0 = true ∧ t.clk = { s.clk with lockedSinceRun := true } ∧ ClockOnly s t clockRegs))) ∧
    (s.clk.nextSource = none ∨ (s.running = true ∧ s.offset ≠ 0) → Completes (.sourceChange ns avg) s (fun t => t = s)) ∧
    (∀ y, s.clk.nextSource = some y → s.running = false ∨ s.offset = 0 → y ≠ .crystal → ns.natAbs ≤ 2 ^ 31 - 1 →
      Completes (.sourceChange ns avg) s (fun t => t.source = y ∧ (t.reg Reg.CLK_OFFSET).toInt = ns ∧ t.pll = (if s.pll = 0 then 0 else 1) ∧
        t.bit (Reg.PAGE_IRQ_STAT Page.clk) 0 = true ∧
        t.clk = { s.clk with nextSource := none, heldAdj := if s.pll = 2 then avg else s.clk.heldAdj } ∧ ClockOnly s t clockRegs))

/-- R22, R25, R26, R27, R28, R29: the writes of CLK_MEDIA_CTRL and CLK_MEDIA_CFG, and the reading of media time. R21, R22, R28, R29: the
counter starts at a block boundary once the PLL is past ACQUIRE, and stops at the first block boundary after every queue's fade. The model's
own choices in it: log entries 15, 25, 57. -/
def Obligations.MediaTime : Prop :=
  (∀ (s : State) (path : Path) (v : Word) (frac : BitVec 8),
    let ctrl := Reg.CLK_MEDIA_CTRL
    let cfg := Reg.CLK_MEDIA_CFG
    let load := (s.reg Reg.CLK_MT_LOAD_LO).toNat + (s.reg Reg.CLK_MT_LOAD_HI).toNat * 2 ^ 32
    let loaded := BitVec.ofNat 64 (load / (256 * s.blk) * (256 * s.blk))
    let new := s.stored cfg v
    let barred := (fieldOf new 1 1 = 1 ∧ fieldOf new 2 2 = 0) ∨ s.run = true ∨ s.running = true ∨ s.liveSlots ≠ []
    (s.writable ctrl = true →
      (s.run = false → fieldOf v 0 1 = 0 →
        (s.running = false → s.source ≠ .gptp → Completes (.mtLoad path v) s (fun t =>
          t = { s with clk := { s.clk with mt := loaded, rerun := false } })) ∧
        (s.running = true ∨ s.source = .gptp → Completes (.mtLoad path v) s (fun t => t = { s with clk := { s.clk with rerun := false } })) ∧
        (fieldOf v 1 1 = 0 → Completes (.mediaStop path v) s (fun t => t = { s with clk := { s.clk with rerun := false } }))) ∧
      (s.run = false →
        (s.running = false → Completes (.mediaRun path v) s (fun t => t.run = true ∧
          t.pll = (if s.clk.famRelock = true ∨ s.source ≠ .crystal then 1 else 4) ∧
          t.clk = { s.clk with
            mt := if fieldOf v 1 1 = 1 ∧ s.source ≠ .gptp then loaded else s.clk.mt, lockedSinceRun := false, heldAdj := 0, rerun := false
            epochOfs := BitVec.ofNat 64 ((s.reg Reg.CLK_EPOCH_OFS_LO).toNat + (s.reg Reg.CLK_EPOCH_OFS_HI).toNat * 2 ^ 32) } ∧
          ClockOnly s t ([ctrl, Reg.PAGE_STAT Page.clk] ++ clockRegs))) ∧
        (s.running = true → Completes (.mediaRun path v) s (fun t => t = { s with clk := { s.clk with rerun := true } }))) ∧
      (s.run = true → Completes (.mediaRun path v) s (fun t => t = s)) ∧
      (s.run = true → s.running = true → Completes (.mediaStop path v) s (fun t => t.run = false ∧ t.running = true ∧
        (∀ q ∈ queueNumbers, t.queue q = { s.queue q with draining := (s.queue q).draining || (s.queue q).active }) ∧
        t = { s with regs := t.regs, queues := t.queues, clk := { s.clk with stop := .draining } } ∧
        KeepsRegs s t [ctrl, Reg.PAGE_STAT Page.clk])) ∧
      (s.run = true → s.running = false → Completes (.mediaStop path v) s (fun t => t.run = false ∧ t.pll = 0 ∧
        ClockOnly s t (ctrl :: clockRegs)))) ∧
    (s.writable cfg = true →
      (barred → Completes (.mediaConfigWrite path v) s (fun t => t.bit Reg.CLK_MEDIA_STAT 6 = true ∧
        Counted s t (Reg.PAGE_ERR_CNT Page.clk) ∧ t.bit (Reg.PAGE_IRQ_STAT Page.clk) 2 = true ∧
        OnlyReports s t ([Reg.CLK_MEDIA_STAT, Reg.PAGE_ERR_CNT Page.clk] ++ raiseRegs Page.clk))) ∧
      (¬ barred → (fieldOf new 1 1 = 0 ∨ ∀ p, p < 4 → s.fld (Reg.TDM_P_CFG p) 2 2 ≠ 3) →
        (fieldOf new 0 1 = s.fld cfg 0 1 → Stores (.mediaConfigWrite path v) s cfg v) ∧
        (fieldOf new 0 1 ≠ s.fld cfg 0 1 → Completes (.mediaConfigWrite path v) s (fun t => t.reg cfg = new ∧ t.pll = 1 ∧
          t.bit Reg.CLK_MEDIA_STAT 7 = false ∧ t.bit Reg.CLK_PLL_STAT 3 = false ∧ t.clk = { s.clk with famRelock := true } ∧
          t = { s with regs := t.regs, pmu := t.pmu, out := t.out, clk := t.clk, dac := t.dac })))) ∧
    (let now := s.clk.mt.toNat + if s.running then frac.toNat else 0
     (s.serving = false → Completes (.mtRead path frac) s (fun t => t = s)) ∧
     (s.serving = true → Completes (.mtRead path frac) s (fun t => t.out = { s.out with
         sent := .readData path [BitVec.ofNat 32 now] :: s.out.sent } ∧
       t.latched 0 path = BitVec.ofNat 32 (now / 2 ^ 32) ∧ t = { s with out := t.out, latches := t.latches })))) ∧
  (∀ (s : State) (g : BitVec 64),
    let unit := 256 * s.blk
    let due := s.run = true ∧ s.running = false ∧ 2 ≤ s.pll
    let load := (s.reg Reg.CLK_MT_LOAD_LO).toNat + (s.reg Reg.CLK_MT_LOAD_HI).toNat * 2 ^ 32
    let raw := (g.toNat * s.fs * 256 / 1000000000 + s.clk.epochOfs.toNat) % 2 ^ 64
    let started := fun (t : State) => t.running = true ∧ t.clk.startPeriod = t.period ∧ t.offset = 0 ∧
      t.clk.boundaryDone = t.period ∧ t.clk.frameDone = t.period ∧ KeepsRegs s t [Reg.CLK_MEDIA_STAT] ∧ KeepsCores s t [] ∧ KeepsSlots s t [] ∧
      KeepsQueues s t []
    (¬ due → Completes (.mediaCounterStart g) s (fun t => t = s)) ∧
    (due → s.source = .gptp → raw ≤ 2 ^ 63 → Completes (.mediaCounterStart g) s (fun t => started t ∧
      raw ≤ t.clk.mt.toNat ∧ t.clk.mt.toNat < raw + unit ∧ t.clk.mt.toNat % unit = 0)) ∧
    (due → s.source ≠ .gptp → Completes (.mediaCounterStart g) s (fun t => started t ∧ t.clk.mt.toNat = load / unit * unit)) ∧
    (let stops := s.clk.stop = .draining ∧ s.running = true ∧ s.offset = 0 ∧ ∀ q ∈ queueNumbers, s.queueFaded q = true
     (¬ stops → Completes .mediaStopComplete s (fun t => t = s)) ∧
     (stops → s.clk.rerun = false → Completes .mediaStopComplete s (fun t => t.running = false ∧ t.pll = 0 ∧ t.clk.stop = .none ∧
       (∀ q ∈ queueNumbers, (t.queue q).draining = false) ∧ t.clk.mt = s.clk.mt))))

/-- R164, R165: a core takes its pending event of highest priority before its next bundle: EPC and ECAUSE are written, EIE is cleared, and
it goes on in Runtime mode at EVEC; DEBUG halts it. A doorbell, a halt request and a step by host software. R170, R198: a word of program
memory is loaded while the core may be loaded, and refused otherwise; a word that is no legal bundle executes as an illegal one, which
performs nothing. The model's own choices in it: log entries 8, 72. -/
def Obligations.CoreEventsAndPrograms : Prop :=
  (∀ (s : State) (path : Path) (n : Fin 34) (v : Word) (ax ay : Access),
    let c := s.core n
    let vec := (c.cr 4).toNat % 8192
    let takes := c.svc = 2 ∧ c.halted = false ∧ c.held = false ∧ c.takesEvent = true
    let ctrl := Reg.VC_CTRL n
    let on := { s with regs := (s.setReg ctrl (s.stored ctrl v)).regs }
    (¬ takes → Completes (.coreEventTake n) s (fun t => t = s)) ∧
    (∀ code, takes → c.topEvent = some code → c.inflight = [] → c.lc 0 = 0 → c.lc 1 = 0 → s.breakAt n vec = none →
      Completes (.coreEventTake n) s (fun t => (t.core n).pc = vec ∧ (t.core n).voice = false ∧ (t.core n).cr 3 = BitVec.ofNat 32 c.pc ∧
        (t.core n).cr 2 = BitVec.ofNat 32 (code + (if c.voice then 16 else 0) + (if c.task.isSome then 32 else 0)) ∧
        fieldOf ((t.core n).cr 0) 1 1 = 0 ∧ (t.core n).events = c.events.filter (fun e => decide (e ≠ code)) ∧
        (t.core n).halted = decide (code = 8) ∧ (code = 8 → t.bit (Reg.PAGE_IRQ_STAT (Page.vc0 + n)) 1 = true) ∧
        (∀ k, (t.core n).rd k = c.rd k) ∧ (∀ k, (t.core n).accRd k = c.accRd k) ∧
        (∀ k, k ≠ 0 → k ≠ 2 → k ≠ 3 → (t.core n).cr k = c.cr k) ∧ Counted s t (Reg.VC_EVENT_CNT n) ∧ KeepsCores s t [n] ∧
        KeepsRegs s t (Reg.VC_EVENT_CNT n :: raiseRegs (Page.vc0 + n)))) ∧
    (s.writable (Reg.VC_DBELL n) = true → Completes (.doorbellWrite path n v) s (fun t =>
      t.reg (Reg.VC_DBELL n) = s.stored (Reg.VC_DBELL n) v ∧
      t.core n = { c with events := if 9 ∈ c.events then c.events else c.events ++ [9] } ∧
      t = { s with regs := t.regs, cores := t.cores } ∧ KeepsRegs s t [Reg.VC_DBELL n] ∧ KeepsCores s t [n])) ∧
    (s.writable ctrl = true →
      (fieldOf v 0 1 = 1 → fieldOf v 1 1 = 0 → Completes (.haltRequest path n v) s (fun t => t.reg ctrl = s.stored ctrl v ∧
        t.core n = { c with events := if c.halted ∨ 8 ∈ c.events then c.events else c.events ++ [8] } ∧
        t = { s with regs := t.regs, cores := t.cores } ∧ KeepsRegs s t [ctrl] ∧ KeepsCores s t [n])) ∧
      (fieldOf v 0 1 = 0 → fieldOf v 1 1 = 0 → Completes (.haltRequest path n v) s (fun t => t.reg ctrl = s.stored ctrl v ∧
        t.core n = { c with halted := c.halted && decide (s.fld ctrl 0 1 = 0) } ∧
        t = { s with regs := t.regs, cores := t.cores } ∧ KeepsRegs s t [ctrl] ∧ KeepsCores s t [n])) ∧
      (∀ b, fieldOf v 1 1 = 1 → c.halted = true → c.svc = 2 → c.topEvent = none →
        decodeBundle (Sparse.get (fun _ => (0 : BitVec 64)) c.prog c.pc) = some b → Completes (.singleStep path n v ax ay) s (fun t =>
          t = ((on.updCore n (fun d => { d with halted := false })).issue n b ax ay).updCore n (fun d =>
            { d with halted := decide (d.svc = 2) }))) ∧
      (fieldOf v 0 1 = 1 → fieldOf v 1 1 = 1 → c.halted = false → Completes (.singleStep path n v ax ay) s (fun t =>
        t.reg ctrl = s.stored ctrl v ∧ t.core n = { c with events := if 8 ∈ c.events then c.events else c.events ++ [8] } ∧
        KeepsCores s t [n])))) ∧
  (∀ (s : State) (path : Path) (n : Fin 34) (v : Word) (bits : BitVec 64),
    let c := s.core n
    let hi := Reg.VC_PM_DATA_HI n
    let addr := Reg.VC_PM_ADDR n
    let a := s.fld addr 0 13
    let barred := c.svc = 2 ∧ s.bit (Reg.VC_CTRL n) 2 = false
    let word := fun (d : Core) (k : Nat) => Sparse.get (fun _ => (0 : BitVec 64)) d.prog k
    (s.writable hi = true →
      (barred → Completes (.programLoad path n v) s (fun t => Counted s t (Reg.VC_PM_REJ_CNT n) ∧
        Counted s t (Reg.PAGE_ERR_CNT (Page.vc0 + n)) ∧ OnlyRegs s t [Reg.VC_PM_REJ_CNT n, Reg.PAGE_ERR_CNT (Page.vc0 + n)])) ∧
      (¬ barred → Completes (.programLoad path n v) s (fun t =>
        word (t.core n) a = BitVec.ofNat 64 ((s.reg (Reg.VC_PM_DATA_LO n)).toNat + (s.stored hi v).toNat * 2 ^ 32) ∧
        (∀ k, k ≠ a → word (t.core n) k = word c k) ∧ t.reg addr = BitVec.ofNat 32 ((a + 1) % 8192) ∧ t.reg hi = s.stored hi v ∧
        t.core n = { c with prog := (t.core n).prog } ∧ t = { s with regs := t.regs, cores := t.cores } ∧
        KeepsRegs s t [addr, hi] ∧ KeepsCores s t [n]))) ∧
    (∀ b, decodeBundle bits = some b → c.legal c.pc b = true → Completes (.illegalBundle n bits) s (fun t => t = s)) ∧
    (s.ready n = false → Completes (.illegalBundle n bits) s (fun t => t = s)) ∧
    (s.Calm n → (decodeBundle bits).all (fun b => !c.legal c.pc b) = true → Completes (.illegalBundle n bits) s (fun t =>
      2 ∈ (t.core n).events ∧ Counted s t (Reg.VC_ILL_CNT n) ∧ OnlyCore { s with regs := t.regs } t n ∧
      KeepsRegs s t [Reg.VC_ILL_CNT n] ∧ ({ c with events := (t.core n).events }).Moved (t.core n) [] [])))

/-- R142, R143, R168, R198, R360, R366: a core leaves service with a logic-check error, with an uncorrectable error of its memories or an
aborted task that go on for 1,024 cycles, and when it is recalled; its task is bound again with RERENDER; and a loaded spare enters service.
The model's own choices in it: log entries 21, 46, 55. -/
def Obligations.CoresLeaveAndEnter : Prop :=
  ∀ (s : State) (n : Fin 34) (idle : Nat),
    let c := s.core n
    let page := Page.vc0 + n
    let out := fun (t : State) => (t.core n).svc = 0 ∧ (t.core n).task = none ∧ t.bit (Reg.PAGE_IRQ_STAT page) 2 = true ∧
      (∀ m, m < 34 → m ≠ n.val → (t.core m).svc = (s.core m).svc ∧ (t.core m).pc = (s.core m).pc ∧
        ∀ k, k < 120 → (t.core m).rd k = (s.core m).rd k) ∧
      (∀ id, c.task = some id → ∀ k, s.taskOf id = some k → k.withdrawn = false → k.phase = .dispatched n →
        ∃ k' ∈ t.sch.tasks, k'.rerender = true ∧ k'.index = k.index ∧ k'.bseq = k.bseq ∧ s.sch.order ≤ k'.order ∧
          ((∀ j ∈ s.sch.tasks, j.order ≠ s.sch.order) → k'.phase = .bound)) ∧
      KeepsCon s t 0 0
    let failed := fun (t : State) => out t ∧ t.bit (Reg.PAGE_IRQ_STAT page) 0 = true
    (c.svc ≠ 2 → Completes (.coreLogicCheckFail n) s (fun t => t = s)) ∧
    (c.svc = 2 → Completes (.coreLogicCheckFail n) s (fun t => failed t ∧ Counted s t (Reg.PAGE_ERR_CNT page) ∧
      Counted s t Reg.ERR_LOG_CNT)) ∧
    (c.halted = false → c.taking = none →
      (c.memUe = none → Completes (.coreUeTimeout n idle) s (fun t => t = s)) ∧
      (∀ k, c.memUe = some k → (k < 1024 → Completes (.coreUeTimeout n idle) s (fun t => t = s)) ∧
        (1024 ≤ k → c.svc = 2 → Completes (.coreUeTimeout n idle) s failed))) ∧
    (let waits := c.svc = 2 ∧ c.task.isSome = true ∧ (c.aborted.isSome = true ∨ c.recalled.isSome = true)
     (¬ waits → Completes (.abortTimeout n) s (fun t => t = s)) ∧
     (waits → 1024 ≤ max (c.aborted.getD 0) (c.recalled.getD 0) → Completes (.abortTimeout n) s (fun t => failed t ∧
       Counted s t (Reg.PAGE_ERR_CNT page))) ∧
     (waits → max (c.aborted.getD 0) (c.recalled.getD 0) < 1024 → s.bit (Reg.PAGE_ERR_INJ page) 30 = false →
       Completes (.abortTimeout n) s (fun t => t = s))) ∧
    (let due := c.retire = true ∧ c.svc = 2 ∧ c.recalled = none ∧ (s.running = false ∨ s.offset = 0)
     (¬ due → Completes (.coreRecall n) s (fun t => t = s)) ∧
     (due → c.task.isSome = true → Completes (.coreRecall n) s (fun t =>
       t.core n = { c with recalled := some 0, events := if 6 ∈ c.events then c.events else c.events ++ [6] } ∧
       t = { s with svc := t.svc, cores := t.cores } ∧ KeepsCores s t [n])) ∧
     (due → c.task = none → Completes (.coreRecall n) s out)) ∧
    (c.copyFrom = none → Completes (.spareEnterService n .clean) s (fun t => t = s)) ∧
    (∀ m, c.copyFrom = some m →
      let src := (((s.coresOf (s.psetOf n)).filter (fun k => decide (k ≠ n.val)))[0]?).getD m
      s.bit (Reg.PAGE_ERR_INJ (Page.vc0 + src)) 30 = false → Completes (.spareEnterService n .clean) s (fun t =>
        (t.core n).svc = 2 ∧ (t.core n).prog = (s.core src).prog ∧ (t.core n).pc = s.fld (Reg.VC_RESET_VEC m) 0 13 ∧
        (t.core n).voice = false ∧ fieldOf ((t.core n).cr 0) 1 1 = 0 ∧ (t.core n).copyFrom = none ∧
        t.sch.vacant = s.sch.vacant.filter (fun v => decide (v ≠ m)) ∧ KeepsCores s t [n] ∧ KeepsCon s t 0 0))

/-- R303, R304, R338, R339: the BAR2 and BAR4 windows, atomic operations, uncorrectable TLP errors and the resets of the PCIe port. The
model's own choices in it: log entries 18, 49, 51. -/
def Obligations.PcieAccesses : Prop :=
  ∀ (s : State) (a : BitVec 25) (d : BitVec 32) (n : Fin 4097) (data : List Byte) (v : Word) (kind : AtomicKind) (bar2 wide : Bool)
    (reset : PcieReset) (gen width : Fin 4),
    let at_ := if s.granule a.toNat % 4 = 1 then a.toNat else a.toNat / 4 * 4
    let send := fun (x : Sent) => { s with out := { s.out with sent := x :: s.out.sent } }
    let refused := bar2 = false ∨ wide = true ∨ kind = .compareSwap ∨ a.toNat % 4 ≠ 0 ∨ s.granule a.toNat % 4 ≠ 2
    let fits := fun (k : Nat) => d.toNat + max 1 k ≤ 0xE0000000
    (s.serving = false → Completes (.pcieConcourseAccess a (some data) n []) s (fun t => t = s) ∧
      Completes (.pcieConcourseAccess a none n []) s (fun t => t = s) ∧
      Completes (.pcieSampleMemoryAccess d (some data) n []) s (fun t => t = s) ∧
      Completes (.pcieSampleMemoryAccess d none n []) s (fun t => t = s) ∧
      Completes (.pcieAtomic kind bar2 wide a v Access.quiet) s (fun t => t = s) ∧ Completes .pcieAerError s (fun t => t = s)) ∧
    (s.serving = true → s.windowsShut = true →
      Completes (.pcieConcourseAccess a none n []) s (fun t => t = send .completionUr) ∧
      Completes (.pcieSampleMemoryAccess d none n []) s (fun t => t = send .completionUr)) ∧
    (s.serving = true → Completes .pcieAerError s (fun t => t.bit (Reg.PAGE_IRQ_STAT Page.pci) 0 = true ∧
      Counted s t (Reg.PAGE_ERR_CNT Page.pci) ∧ Counted s t Reg.ERR_LOG_CNT ∧
      OnlyReports s t (Reg.PAGE_ERR_CNT Page.pci :: raiseRegs Page.pci ++ logRegs))) ∧
    (s.serving = true → s.windowsShut = false →
      (s.conQuiet → s.ctl.badParity = [] → at_ + data.length ≤ 2 ^ 25 → Completes (.pcieConcourseAccess a (some data) n []) s (fun t =>
        (∀ i, i < data.length → t.conByte (at_ + i) = ((data[i]?).getD 0)) ∧ KeepsCon s t at_ data.length ∧
        t = { s with con := t.con, ctl := t.ctl, pmu := t.pmu })) ∧
      (s.conQuiet → at_ + n ≤ 2 ^ 25 → Completes (.pcieConcourseAccess a none n []) s (fun t =>
        t = { send (.bytes (s.conBytes at_ n)) with pmu := t.pmu })) ∧
      (s.dramQuiet → fits data.length → Completes (.pcieSampleMemoryAccess d (some data) n []) s (fun t =>
        (∀ i, i < data.length → t.dramByte (d.toNat + i) = ((data[i]?).getD 0)) ∧
        (∀ x, x < d.toNat ∨ d.toNat + data.length ≤ x → t.dramByte x = s.dramByte x) ∧
        t = { s with dram := { s.dram with data := t.dram.data }, pmu := t.pmu })) ∧
      (s.dramQuiet → fits n → Completes (.pcieSampleMemoryAccess d none n []) s (fun t =>
        t = { send (.bytes ((List.range n).map (fun i => s.dramByte (d.toNat + i)))) with pmu := t.pmu })) ∧
      (¬ fits n → Completes (.pcieSampleMemoryAccess d none n []) s (fun t => t = send .completionUr)) ∧
      (refused → Completes (.pcieAtomic kind bar2 wide a v Access.quiet) s (fun t => t = send .completionUr)) ∧
      (¬ refused → s.conQuiet → Completes (.pcieAtomic kind bar2 wide a v Access.quiet) s (fun t =>
        t.conWord a.toNat = (if kind = .fetchAdd then s.conWord a.toNat + v else v) ∧ KeepsCon s t a.toNat 4 ∧
        t.out = (send (.bytes (leBytes 4 (s.conWord a.toNat).toNat))).out ∧
        t = { s with con := t.con, ctl := t.ctl, pmu := t.pmu, out := t.out }))) ∧
    Completes (.pcieReset reset gen width) s (fun t =>
      t.fld Reg.PCI_STAT 0 8 = (if reset = .functionLevel then s.fld Reg.PCI_STAT 0 8 else gen.val + 16 * width.val) ∧
      (∀ x, x ≠ Reg.PCI_STAT → t.reg x = if x / 0x1000 = Page.pci then regReset x else s.reg x) ∧
      t = { s with regs := t.regs, deferred := s.deferred.filter (fun p => decide (p ≠ Page.pci)), net := { s.net with hso := [] } })

/-- R304, R341: the descriptors of the DMA engine: a copy or a fill moves its bytes, an atomic operation changes one word and returns the
old one, an invalid descriptor ends with its reason, and each ends with its status in the ring. The model's own choices in it: log entries
14, 50. -/
def Obligations.DmaDescriptors : Prop :=
  ∀ (s : State) (path : Path) (v : Word) (desc : List Byte) (m : DmaMeet),
    let d := dmaDesc desc
    let idle := s.dmaReady = false ∨ d.valid = false
    let from_ := fun (i : Nat) =>
      if d.op = 1 then BitVec.ofNat 8 (d.src / 2 ^ (8 * (i % 4)))
      else if d.ssp = 0 then ((m.host[i]?).getD 0) else if d.ssp = 1 then s.conByte (d.src + i) else s.dramByte (d.src + i)
    let readable := d.op = 1 ∨ (d.ssp = 0 ∧ d.len ≤ m.host.length) ∨ (d.ssp = 1 ∧ d.src + d.len ≤ 2 ^ 25) ∨
      (d.ssp = 2 ∧ d.src + d.len ≤ 0xE0000000)
    let apart := d.op = 1 ∨ d.ssp ≠ d.dsp ∨ d.ssp = 0 ∨ d.src + d.len ≤ d.dst ∨ d.dst + d.len ≤ d.src
    let clear := s.windowsShut = false ∧ s.pageOn Page.pci = true ∧ s.conQuiet ∧ s.ctl.badParity = [] ∧ s.dramQuiet ∧ m.reads = [] ∧
      m.writes = [] ∧ m.errs = []
    let run := fun (P : State → Prop) =>
      (d.op = 0 → Completes (.dmaCopy desc m) s P) ∧ (d.op = 1 → Completes (.dmaFill desc m) s P)
    let atomic := fun (P : State → Prop) =>
      (d.op = 2 → Completes (.dmaAdd32 desc m) s P) ∧ (d.op = 3 → Completes (.dmaSwap desc m) s P)
    (s.writable Reg.PCI_DMA_PI = true → Stores (.dmaDoorbell path v) s Reg.PCI_DMA_PI v) ∧
    (idle → Completes (.dmaCopy desc m) s (fun t => t = s) ∧ Completes (.dmaFill desc m) s (fun t => t = s) ∧
      Completes (.dmaAdd32 desc m) s (fun t => t = s) ∧ Completes (.dmaSwap desc m) s (fun t => t = s)) ∧
    (s.dmaReady = true → d.valid = false → Completes (.dmaInvalidDescriptor desc) s (fun t => DmaEnded s t 19 ∧
      t = { s with regs := t.regs, out := t.out })) ∧
    (s.dmaReady = true → d.valid = true → Completes (.dmaInvalidDescriptor desc) s (fun t => t = s)) ∧
    (s.dmaReady = true → d.valid = true → clear → readable → apart →
      (d.dsp = 1 → d.dst + d.len ≤ 2 ^ 25 → run (fun t => (∀ i, i < d.len → t.conByte (d.dst + i) = from_ i) ∧ DmaEnded s t 1 ∧
        KeepsCon s t d.dst d.len ∧ KeepsDram s t)) ∧
      (d.dsp = 2 → d.dst + d.len ≤ 0xE0000000 → run (fun t => (∀ i, i < d.len → t.dramByte (d.dst + i) = from_ i) ∧ DmaEnded s t 1 ∧
        (∀ x, x < d.dst ∨ d.dst + d.len ≤ x → t.dramByte x = s.dramByte x) ∧ KeepsCon s t 0 0)) ∧
      (d.dsp = 0 → d.dst + d.len ≤ 2 ^ 64 → s.dmaEntry + 32 ≤ d.dst ∨ d.dst + d.len ≤ s.dmaEntry → s.dmaEntry + 32 ≤ 2 ^ 64 → run (fun t =>
        (∀ i, i < d.len → t.hostByte (d.dst + i) = from_ i) ∧ DmaEnded s t 1 ∧ KeepsCon s t 0 0 ∧ KeepsDram s t))) ∧
    (s.dmaReady = true → d.valid = true → d.dst + 4 ≤ 2 ^ 25 →
      (s.granule d.dst % 4 = 2 → clear → atomic (fun t =>
        t.conWord d.dst = (if d.op = 2 then s.conWord d.dst + BitVec.ofNat 32 d.src else BitVec.ofNat 32 d.src) ∧ DmaEnded s t 1 ∧
        leNat ((List.range 4).map (fun i => t.hostByte (s.dmaEntry + 28 + i))) = (s.conWord d.dst).toNat ∧ KeepsCon s t d.dst 4)) ∧
      (s.granule d.dst % 4 ≠ 2 ∨ s.windowsShut = true → atomic (fun t => DmaEnded s t 35 ∧
        t = { s with regs := t.regs, out := t.out })))

/-- R45, R344, R345, R346, R347: the host SPI transactions: performed, refused while HBUSY stands, or not performed when their clocks fit
none of their command. The model's own choices in it: log entry 52. -/
def Obligations.SpiTransactions : Prop :=
  ∀ (s : State) (off : BitVec 20) (words : List Word) (n : Fin 16) (entry : List Byte) (k : BitVec 16) (cmd : Byte),
    let spi := fun (f : SpiSlave → SpiSlave) => { s.net with spi := f s.net.spi }
    let cs := s.spiCounted
    let each := fun (P : State → Nat → Prop) =>
      Completes (.spiWrite off words k) s (fun t => P t 0x02) ∧ Completes (.spiRdreq off n k) s (fun t => P t 0x0B) ∧
      Completes (.spiRddata k) s (fun t => P t 0x0C) ∧ Completes (.spiEvent entry k) s (fun t => P t 0x10)
    let ready := s.serving = true ∧ s.pwr.vioA = true ∧ s.hbusy = false ∧ s.bit (Reg.PAGE_ERR_INJ Page.hsp) 30 = false
    let unframed := fun (t : State) (c : Nat) => t.bit Reg.HSP_ERR_INFO 31 = true ∧ t.fld Reg.HSP_ERR_INFO 8 16 = k.toNat ∧
      t.fld Reg.HSP_ERR_INFO 0 8 = c ∧ Counted s t Reg.HSP_FRAME_ERR_CNT ∧ Counted s t Reg.ERR_LOG_CNT ∧
      t.bit (Reg.PAGE_IRQ_STAT Page.hsp) 0 = true ∧ t.net = spi (fun x => { x with frameErr := true }) ∧
      t = { s with regs := t.regs, pmu := t.pmu, out := t.out, net := t.net } ∧
      KeepsRegs s t ([Reg.HSP_ERR_INFO, Reg.HSP_FRAME_ERR_CNT] ++ raiseRegs Page.hsp ++ logRegs)
    let answered := fun (t : State) (rest : List Byte) => t.out = { s.out with sent := .spi (s.spiStatus :: rest) :: s.out.sent } ∧
      t.net = spi (fun x => { x with refused := false, frameErr := false }) ∧ Counted s t Reg.HSP_TXN_CNT ∧
      t = { s with regs := t.regs, pmu := t.pmu, out := t.out, net := t.net } ∧ KeepsRegs s t [Reg.HSP_TXN_CNT]
    (s.serving = false ∨ s.pwr.vioA = false → each (fun t _ => t = s) ∧ Completes (.spiStatus k) s (fun t => t = s)) ∧
    (s.serving = true → s.pwr.vioA = true → s.hbusy = true → each (fun t _ => Counted s t Reg.HSP_REFUSE_CNT ∧
      t = { s with regs := t.regs, net := spi (fun x => { x with refused := true }) } ∧ KeepsRegs s t [Reg.HSP_REFUSE_CNT])) ∧
    (ready →
      (1 ≤ words.length → words.length ≤ 64 → k.toNat = 14 + 8 * words.length → Completes (.spiWrite off words k) s (fun t =>
        t = words.zipIdx.foldl (fun u e => u.regWrite (.host .spi) (off.toNat + 4 * e.2) e.1)
          { cs with net := spi (fun x => { x with busy := true }) })) ∧
      (k = 16 → Completes (.spiRdreq off n k) s (fun t => t.net.spi.busy = true ∧ t.net.spi.words.length = n.val + 1 ∧
        (∀ j, j ≤ n.val → off.toNat + 4 * j ∉ [Reg.CLK_MT_LO, Reg.CLK_MT_HI, Reg.PMU_CNT_LO, Reg.PMU_CNT_HI, Reg.PTP_TIME_LO, Reg.PTP_TIME_HI] →
          t.net.spi.words[j]? = some (cs.readReg .spi (off.toNat + 4 * j) 0 0).2) ∧
        t = { s with regs := t.regs, pmu := t.pmu, net := t.net, draws := t.draws, latches := t.latches } ∧
        KeepsRegs s t [Reg.HSP_TXN_CNT])) ∧
      (k.toNat = 12 + 8 * s.net.spi.words.length → Completes (.spiRddata k) s (fun t =>
        answered t ((s.net.spi.words.map (fun w => (leBytes 4 w.toNat).reverse)).flatten))) ∧
      (entry.length = 32 → k = 72 → s.pageOn Page.hsp = true → Completes (.spiEvent entry k) s (fun t =>
        t.ing = { s.ing with seq := s.ing.seq + 1, spi := s.ing.spi ++ [(entry, { upTo := 0, arr := s.clk.mt.toNat, seq := s.ing.seq })] } ∧
        t.fld Reg.ING_SPI_STAT 0 7 = s.ing.spi.length + 1 ∧ t = { s with regs := t.regs, pmu := t.pmu, ing := t.ing } ∧
        KeepsRegs s t [Reg.HSP_TXN_CNT, Reg.ING_SPI_STAT])) ∧
      (s.pageOn Page.hsp = false → Completes (.spiEvent entry k) s (fun t => Counted s t Reg.HSP_REFUSE_CNT ∧ t.ing = s.ing)) ∧
      (words.length = 0 ∨ 64 < words.length ∨ k.toNat ≠ 14 + 8 * words.length →
        Completes (.spiWrite off words k) s (fun t => unframed t 0x02)) ∧
      (k ≠ 16 → Completes (.spiRdreq off n k) s (fun t => unframed t 0x0B)) ∧
      (k.toNat ≠ 12 + 8 * s.net.spi.words.length → Completes (.spiRddata k) s (fun t => unframed t 0x0C)) ∧
      (entry.length ≠ 32 ∨ k ≠ 72 → s.pageOn Page.hsp = true → Completes (.spiEvent entry k) s (fun t => unframed t 0x10)) ∧
      (cmd.toNat ∉ [0x02, 0x05, 0x0B, 0x0C, 0x10] → Completes (.spiUnknownCommand cmd k) s (fun t => unframed t cmd.toNat))) ∧
    (s.serving = true → s.pwr.vioA = true → s.bit (Reg.PAGE_ERR_INJ Page.hsp) 30 = false →
      Completes (.spiStatus 12) s (fun t => answered t []) ∧ (k ≠ 12 → Completes (.spiStatus k) s (fun t => unframed t 0x05))) ∧
    Completes .spiRegisterAccessDone s (fun t => t = { s with net := spi (fun x => { x with busy := false }) })

/-! ### Network -/

/-- R322, R323, R326, R327, R336, R337: links, gPTP messages and the loss of Sync, received frames, and the host packet path. The model's
own choices in it: log entries 14, 22, 38. -/
def Obligations.NetworkPorts : Prop :=
  ∀ (s : State) (path : Path) (port : Fin 2) (up gbe bad : Bool) (avg v : Word) (frame : List Byte) (now buf : BitVec 64)
    (ptp : Option PtpView) (pcp : Fin 8),
    let page := Page.neta + port
    let other := 1 - port.val
    let stat := Reg.NET_STAT port
    let sent := fun (l : List Sent) => { s.out with sent := l ++ s.out.sent }
    let ptpOn := fun (p : Nat) => s.pageOn Page.ptp && s.portUp p
    let hot := s.bit Reg.PTP_CFG 0 = true ∧ s.net.standby = true ∧ s.ptpRole other = 3 ∧ s.pageOn Page.ptp = true
    (s.bit stat 0 = up → Completes (.linkChange port up gbe avg) s (fun t => t = s)) ∧
    (s.bit stat 0 = false → up = true → Completes (.linkChange port up gbe avg) s (fun t => t.bit stat 0 = true ∧ t.bit stat 1 = gbe ∧
      t.bit (Reg.PAGE_IRQ_STAT page) 0 = true ∧ OnlyReports s t (stat :: raiseRegs page))) ∧
    (s.bit stat 0 = true → up = false → s.ptpRole port < 2 → Completes (.linkChange port up gbe avg) s (fun t => t.bit stat 0 = false ∧
      t.bit stat 1 = false ∧ Counted s t (Reg.PAGE_ERR_CNT page) ∧ Counted s t Reg.ERR_LOG_CNT ∧ t.bit (Reg.PAGE_IRQ_STAT page) 0 = true ∧
      OnlyReports s t ([stat, Reg.PAGE_ERR_CNT page] ++ raiseRegs page ++ logRegs))) ∧
    (s.ptpRole port < 2 → Completes (.syncTimeout port avg) s (fun t => t = s)) ∧
    (s.ptpRole port = 2 → hot → Completes (.syncTimeout port avg) s (fun t => t.ptpRole port = 0 ∧ t.ptpRole other = 2 ∧
      Counted s t Reg.PTP_FAILOVER_CNT ∧ t.clk = s.clk ∧ t.bit (Reg.PAGE_IRQ_STAT Page.ptp) 0 = true ∧
      KeepsRegs s t ([Reg.PTP_STAT, Reg.PTP_FAILOVER_CNT] ++ raiseRegs Page.ptp))) ∧
    (s.ptpRole port = 2 → ¬ hot → Completes (.syncTimeout port avg) s (fun t => t.ptpRole port = 0 ∧ t.ptpRole other = s.ptpRole other ∧
      t.qualified .gptp = false ∧ t.qualified .wclk = s.qualified .wclk)) ∧
    (s.ptpRole port = 3 → Completes (.syncTimeout port avg) s (fun t => t.ptpRole port = 0 ∧ t.net = { s.net with standby := false } ∧
      t.clk = s.clk)) ∧
    Completes .syncTransmit s (fun t => t.out = sent (((List.range 2).filter (fun p => ptpOn p && decide (s.ptpRole p = 1))).reverse.map
      (fun p => .ptpFrame p 0)) ∧ t = { s with out := t.out, pmu := t.pmu }) ∧
    Completes .pdelayRequestTransmit s (fun t => t.out = sent (((List.range 2).filter ptpOn).reverse.map (fun p => .ptpFrame p 1)) ∧
      t = { s with out := t.out, pmu := t.pmu }) ∧
    (s.portUp port = false ∨ s.svc.suppressed = some port.val → Completes (.frameReceive port bad frame now ptp buf) s (fun t => t = s)) ∧
    (s.portUp port = true → s.svc.suppressed ≠ some port.val →
      (bad = true ∨ 1518 < frame.length ∨ frame.length < 60 → Completes (.frameReceive port bad frame now ptp buf) s (fun t =>
        Counted s t (Reg.NET_RX_ERR_CNT port) ∧ Counted s t Reg.ERR_LOG_CNT ∧ t.bit (Reg.PAGE_IRQ_STAT page) 1 = true ∧
        OnlyReports s t (Reg.NET_RX_ERR_CNT port :: raiseRegs page ++ logRegs))) ∧
      (bad = false → 60 ≤ frame.length → frame.length ≤ 1518 → s.bit (Reg.PAGE_ERR_INJ page) 30 = false → s.bit Reg.PWR_WAKE_CFG 2 = false →
        let f := ethFrame frame
        let vid := (f.tag.map (fun t => bitsOf t 0 12)).getD 0
        let pi := s.fld (Reg.NET_HRX_PI port) 0 16
        let used := (pi + 2 ^ 16 - s.fld (Reg.NET_HRX_CI port) 0 16) % 2 ^ 16
        let size := 2 ^ max 4 (min 12 (s.fld (Reg.NET_HRX_CFG port) 0 4))
        let foreign := vid ≠ 0 ∧ vid ≠ s.fld (Reg.NET_CFG port) 16 12
        let room := s.bit (Reg.NET_HRX_CFG port) 8 = true ∧ used < size
        (foreign → room → Completes (.frameReceive port bad frame now ptp buf) s (fun t => Counted s t (Reg.NET_RX_FRM_CNT port) ∧
          t.reg (Reg.NET_HRX_PI port) = BitVec.ofNat 32 ((pi + 1) % 2 ^ 16) ∧ (used = 0 → t.bit (Reg.PAGE_IRQ_STAT page) 2 = true) ∧
          OnlyReports s t ([Reg.NET_RX_FRM_CNT port, Reg.NET_HRX_PI port] ++ raiseRegs page))) ∧
        (foreign → ¬ room → Completes (.frameReceive port bad frame now ptp buf) s (fun t => Counted s t (Reg.NET_RX_FRM_CNT port) ∧
          Counted s t (Reg.NET_HOST_DROP_CNT port) ∧ t.bit (Reg.PAGE_IRQ_STAT page) 2 = true ∧
          OnlyReports s t ([Reg.NET_RX_FRM_CNT port, Reg.NET_HOST_DROP_CNT port] ++ raiseRegs page))) ∧
        (∀ x, ptp = some x → ¬ foreign → f.dst = 0x0180C200000E → f.etherType = 0x88F7 → s.pageOn Page.ptp = true →
          Completes (.frameReceive port bad frame now ptp buf) s (fun t => t.ptpRole 0 = x.roleA % 4 ∧ t.ptpRole 1 = x.roleB % 4 ∧
            t.net = { s.net with standby := x.standby } ∧ t.reg Reg.PTP_PDELAY_A = x.delayA ∧ t.reg Reg.PTP_PDELAY_B = x.delayB ∧
            t = { s with regs := t.regs, pmu := t.pmu, out := t.out, net := t.net } ∧
            KeepsRegs s t ([Reg.NET_RX_FRM_CNT port, Reg.PTP_STAT, Reg.PTP_GM_ID_LO, Reg.PTP_GM_ID_HI, Reg.PTP_PDELAY_A, Reg.PTP_PDELAY_B] ++
              raiseRegs Page.ptp))))) ∧
    (s.writable (Reg.NET_HTX_PI port) = true → Stores (.hostTxDoorbell path port v) s (Reg.NET_HTX_PI port) v) ∧
    (let ci := s.fld (Reg.NET_HTX_CI port) 0 16
     let ready := s.bit (Reg.NET_HTX_CFG port) 8 = true ∧ s.fld (Reg.NET_HTX_PI port) 0 16 ≠ ci ∧ s.portUp port = true
     let tag : List Byte := [0x81, 0x00, BitVec.ofNat 8 (32 * pcp + s.fld (Reg.NET_CFG port) 16 12 / 256),
       BitVec.ofNat 8 (s.fld (Reg.NET_CFG port) 16 12)]
     (¬ ready → Completes (.hostFrameSent port pcp frame) s (fun t => t = s)) ∧
     (ready → Completes (.hostFrameSent port pcp frame) s (fun t => t.reg (Reg.NET_HTX_CI port) = BitVec.ofNat 32 ((ci + 1) % 2 ^ 16) ∧
       t.out.sent = .frame port (frame.take 12 ++ (if s.bit (Reg.NET_CFG port) 8 then tag else []) ++ frame.drop 12) :: s.out.sent ∧
       t.hostByte ((s.reg (Reg.NET_HTX_BASE_LO port)).toNat / 16 * 16 + (s.reg (Reg.NET_HTX_BASE_HI port)).toNat * 2 ^ 32 +
         16 * (ci % 2 ^ max 4 (min 12 (s.fld (Reg.NET_HTX_CFG port) 0 4))) + 10) = 1 ∧
       OnlyReports s t [Reg.NET_HTX_CI port])))

/-- R328, R329, R330, R331, R333, R335: the configuration of streams and sessions, the deadline of a received packet, and the launch of a
packet. The model's own choices in it: log entries 38, 39. -/
def Obligations.StreamsAndSessions : Prop :=
  ∀ (s : State) (path : Path) (i : Fin 32) (o : Fin 0x600) (v : Word) (isPort : Bool),
    let off := 0x18100 + o.val
    let isCfg := if o.val < 0x200 then o.val % 16 = 0 else o.val % 32 = 0
    let rx := o.val < 0x200
    let k := if rx then o.val / 16 else (o.val - 0x200) / 32
    let cfg := if rx then Reg.STRM_RX_CFG k else Reg.STRM_TX_CFG k
    let new := s.stored off v
    let same := setFieldOf new 31 1 0 = setFieldOf (s.reg off) 31 1 0
    let fits := if rx then s.rxFits k new else s.txFits k new
    let run := fun (P : State → Prop) => Completes (.streamConfigWrite path o v) s P
    let refused := fun (t : State) => Refused s t Reg.STRM_STAT 31 Page.strm
    (o.val < 0x600 → s.writable off = true →
      (¬ isCfg → s.bit cfg 31 = true → new ≠ s.reg off → run refused) ∧
      (¬ isCfg → s.bit cfg 31 = false → Stores (.streamConfigWrite path o v) s off v) ∧
      (isCfg → s.bit off 31 = true → ¬ same → run refused) ∧
      (isCfg → fits = false → fieldOf new 31 1 = 1 → run refused) ∧
      (isCfg → fits = true → s.bit off 31 = false ∨ same → run (fun t => t.reg off = new ∧
        (fieldOf new 31 1 ≠ fieldOf (s.reg off) 31 1 → if rx then t.rx k = RxStream.reset else (t.tx k).ready = [] ∧ (t.tx k).start = none) ∧
        t = { s with regs := t.regs, net := t.net, draws := t.draws } ∧ KeepsRegs s t [off]))) ∧
    (let x := s.rx i
     (x.next = none ∨ s.running = false → Completes (.packetDeadline i) s (fun t => t = s)) ∧
     (∀ e, x.next = some e → s.running = true →
       let bits := if isAaf (s.fld (Reg.STRM_RX_CFG i) 28 2) then 8 else 16
       let found := x.packets.find? (fun p => decide (p.seq = e.1))
       let pair := (List.range 32).any (fun j =>
         s.bit (Reg.STRM_RX_CFG j) 31 && s.bit (Reg.STRM_RX_CFG j) 30 && decide (s.fld (Reg.STRM_RX_CFG j) 22 5 = i.val))
       let due := s.packetDeadline e.2 ≤ s.sample
       let quiet := s.bit (Reg.PAGE_ERR_INJ Page.strm) 30 = false
       let judged := fun (t : State) (first : Nat) => (t.rx i).next = some ((e.1 + 1) % 2 ^ bits, first + s.fld (Reg.STRM_RX_CFG i) 0 8) ∧
         (t.rx i).highest = x.highest ∧ (∀ p ∈ (t.rx i).packets, p ∈ x.packets ∧ p.seq ≠ e.1) ∧
         t = { s with regs := t.regs, pmu := t.pmu, out := t.out, net := { s.net with rx := t.net.rx } }
       (¬ due → Completes (.packetDeadline i) s (fun t => t = s)) ∧
       (due → found = none → Completes (.packetDeadline i) s (fun t => judged t e.2 ∧ Counted s t Reg.STRM_RX_UNDERRUN_CNT ∧
         Counted s t Reg.ERR_LOG_CNT ∧ t.bit (Reg.PAGE_IRQ_STAT Page.strm) 1 = true ∧
         KeepsRegs s t (Reg.STRM_RX_UNDERRUN_CNT :: raiseRegs Page.strm ++ logRegs))) ∧
       (∀ p, found = some p → due → quiet →
         (pair = true → p.paths ≠ 3 → Completes (.packetDeadline i) s (fun t => judged t p.start ∧ Counted s t Reg.STRM_RX_REPAIRED_CNT ∧
           t.bit (Reg.PAGE_IRQ_STAT Page.strm) 0 = true)) ∧
         (pair = false ∨ p.paths = 3 → Completes (.packetDeadline i) s (fun t => judged t p.start ∧ KeepsRegs s t []))))) ∧
    (let x := s.tx i
     let port := i.val / 16
     let c := s.reg (Reg.STRM_TX_CFG i)
     (x.ready = [] → Completes (.streamPacketTransmit i) s (fun t => t = s)) ∧
     (∀ e es, x.ready = e :: es →
       let late := e.1 + 2 * fieldOf c 0 8 ≤ s.sample ∨ s.portUp port = false
       let ofs := (e.1 : Int) + (s.reg (Reg.STRM_TX_OFS i)).toInt
       let fmt := fieldOf c 28 2
       let stamp := ((if isAaf fmt then s.timeOfSample ofs else ofs) % 2 ^ 32).toNat
       let packet := fun (p : Nat) => Sent.packet p i fmt (x.seq % (if isAaf fmt then 256 else 65536)) stamp (payloadOf fmt e.2)
       (late → Completes (.streamPacketTransmit i) s (fun t => t.tx i = { x with ready := es, seq := x.seq + 1 } ∧
         Counted s t (Reg.NET_TX_LATE_CNT port) ∧ t.bit (Reg.PAGE_IRQ_STAT (Page.neta + port)) 3 = true ∧
         t = { s with regs := t.regs, pmu := t.pmu, out := t.out, net := { s.net with tx := t.net.tx } })) ∧
       (¬ late → Completes (.streamPacketTransmit i) s (fun t => t.tx i = { x with ready := es, seq := x.seq + 1 } ∧
         Counted s t Reg.STRM_TX_PKT_CNT ∧
         t.out.sent = (if fieldOf c 30 1 = 1 ∧ i.val < 16 ∧ s.portUp 1 = true then [packet 1] else []) ++ packet port :: s.out.sent ∧
         t = { s with regs := t.regs, pmu := t.pmu, out := t.out, net := { s.net with tx := t.net.tx } } ∧
         KeepsRegs s t [Reg.STRM_TX_PKT_CNT])))) ∧
    (let sess := Reg.NMID_SESS_CFG i
     let addr := if isPort then Reg.NMID_SESS_PORT i else Reg.NMID_SESS_ADDR i
     let on := setFieldOf v 31 1 1
     let off := setFieldOf v 31 1 0
     let no := fun (t : State) => Refused s t Reg.NMID_STAT 31 Page.nmid
     (s.writable sess = true →
       (i.val < 16 → fieldOf v 30 1 = 1 → Completes (.sessionEnable path i v) s no ∧ Completes (.sessionDisable path i v) s no) ∧
       (16 ≤ i.val ∨ fieldOf v 30 1 = 0 →
         (s.bit sess 31 = false → i.val < 16 → (∀ j, j < 32 → j ≠ i.val → ¬ (s.bit (Reg.NMID_SESS_CFG j) 31 = true ∧ s.sessionSource j = i.val)) →
           Completes (.sessionEnable path i v) s (fun t => t.reg sess = s.stored sess on ∧
             t.window i = { installed := true, h := none, acc := [], moved := 0 } ∧ t.reg (Reg.NMID_SESS_SEQ i) = 0 ∧ i.val ∉ t.net.cleared ∧
             t = { s with regs := t.regs, ing := { s.ing with windows := t.ing.windows }, net := { s.net with cleared := t.net.cleared } } ∧
             KeepsRegs s t [sess, Reg.NMID_SESS_SEQ i])) ∧
         (s.bit sess 31 = true → Stores (.sessionEnable path i v) s sess on) ∧
         (s.bit sess 31 = false → Stores (.sessionDisable path i v) s sess off) ∧
         (s.bit sess 31 = true → Completes (.sessionDisable path i v) s (fun t => t.reg sess = s.stored sess off ∧ i.val ∈ t.net.cleared ∧
           t = { s with regs := t.regs, net := { s.net with cleared := t.net.cleared } } ∧ KeepsRegs s t [sess])))) ∧
     (s.writable addr = true →
       (s.bit sess 31 = true → Completes (.sessionAddressWrite path i isPort v) s no) ∧
       (s.bit sess 31 = false → Stores (.sessionAddressWrite path i isPort v) s addr v)))

/-- R349, R350, R351: a TDM port's frames, its lock, the loss of its bit clock, and its configuration. The model's own choices in it: log
entry 58. -/
def Obligations.TdmPorts : Prop :=
  ∀ (s : State) (path : Path) (p : Fin 4) (din : List Word) (edge : BitVec 64) (wrong : Bool) (phase : BitVec 8) (v : Word),
    let x := s.tdmPort p
    let cfg := Reg.TDM_P_CFG p
    let stat := Reg.TDM_P_STAT p
    let locked := s.bit stat 0
    let idle := x.on = false ∨ s.running = false ∨ s.sample = 0 ∨ s.pwr.vioB = false
    let slots := 2 * 2 ^ s.fld cfg 2 2
    let words := fun (n : Nat) =>
      (((x.recent.find? (fun e => decide (e.1 = n))).map (fun e => e.2)).getD (List.replicate slots 0)).map (s.tdmCut p)
    let n := (edge.toNat + 128 - x.phase) / 256
    let port := fun (t : State) (y : TdmPort) => t.tdmPort p = y ∧ (∀ q, q < 4 → q ≠ p.val → t.tdmPort q = s.tdmPort q) ∧
      t = { s with regs := t.regs, net := { s.net with tdm := t.net.tdm } }
    let new := s.stored cfg v
    (idle → Completes (.tdmFrame p din edge wrong) s (fun t => t = s)) ∧
    (¬ idle → s.tdmMaster p = true → (∀ k, k < 128 → s.fld (Reg.DEC_CAP_SRC k) 8 2 ≠ 0 ∨ s.bit (Reg.DEC_CAP_SRC k) 31 = false) →
      Completes (.tdmFrame p din edge wrong) s (fun t => t.out = { s.out with sent := .tdm p (words (s.sample - 1)) :: s.out.sent } ∧
        t = { s with out := t.out, pmu := t.pmu })) ∧
    (¬ idle → s.tdmMaster p = false → locked = false → Completes (.tdmFrame p din edge wrong) s (fun t =>
      port t { x with frames := x.frames + 1 } ∧ KeepsRegs s t [])) ∧
    (¬ idle → s.tdmMaster p = false → locked = true → n < s.sample → s.bit (Reg.PAGE_ERR_INJ Page.tdm) 30 = false → s.conQuiet →
      Completes (.tdmFrame p din edge wrong) s (fun t => t.tdmPort p = { x with last := some n } ∧
        t.out.sent.head? = some (.tdm p (words n)) ∧
        ((wrong = true ∨ ∃ l ∈ x.last, n ≠ l + 1) → t.bit stat 1 = true ∧ Counted s t Reg.TDM_SLIP_CNT ∧
          t.bit (Reg.PAGE_IRQ_STAT Page.tdm) 0 = true) ∧
        (wrong = false → (∀ l ∈ x.last, n = l + 1) → KeepsPages s t [Page.dec]))) ∧
    (let measures := x.on = true ∧ s.tdmMaster p = false ∧ 16 ≤ x.frames ∧ locked = false
     (¬ measures → Completes (.tdmLock p phase) s (fun t => t = s)) ∧
     (measures → Completes (.tdmLock p phase) s (fun t => port t { x with phase := phase.toNat, last := none } ∧ t.bit stat 0 = true ∧
       KeepsRegs s t [stat]))) ∧
    (x.on = false ∨ s.tdmMaster p = true → Completes (.tdmBclkLoss p) s (fun t => t = s)) ∧
    (x.on = true → s.tdmMaster p = false → Completes (.tdmBclkLoss p) s (fun t => port t { x with frames := 0, last := none } ∧
      t.bit stat 0 = false ∧ KeepsRegs s t [stat])) ∧
    (s.writable cfg = true →
      ((fieldOf new 2 2 = 3 ∧ s.rate2x = true) ∨ (s.fld cfg 0 1 = 1 ∧ fieldOf new 1 31 ≠ s.fld cfg 1 31) →
        Completes (.tdmConfigWrite path p v) s (fun t => Refused s t Reg.TDM_STAT 31 Page.tdm)) ∧
      (¬ ((fieldOf new 2 2 = 3 ∧ s.rate2x = true) ∨ (s.fld cfg 0 1 = 1 ∧ fieldOf new 1 31 ≠ s.fld cfg 1 31)) →
        Stores (.tdmConfigWrite path p v) s cfg v))

/-! ### Pages, power, boot and service -/

/-- R354, R355, R422, R423, R424: the controls of a page. The model's own choices in it: log entry 65. -/
def Obligations.PageControls : Prop :=
  ∀ (s : State) (path : Path) (p : Fin 66) (v : Word),
    let ctrl := Reg.PAGE_CTRL p
    let stat := Reg.PAGE_STAT p
    let core := (p : Nat) - 0x20
    let bare := fieldOf v 1 2 = 0
    let simple := (p : Nat) ∈ [Page.clk, Page.pwr, Page.boot, Page.pmu, Page.irq, Page.va, Page.ps, Page.mm, Page.sch, Page.drc, Page.neta,
      Page.neta + 1, Page.strm, Page.nmid, Page.hsp, Page.tdm, Page.dbg]
    let draining := fun (t : State) => t.pageOn p = false ∧ t.bit stat 1 = true ∧ t.bit stat 0 = false
    (s.writable ctrl = true → bare → (p : Nat) ≠ Page.glb →
      (s.pageOn p = true → (0x20 ≤ (p : Nat) → (s.core core).svc ≠ 2) →
        ((p : Nat) ≠ Page.svc → Completes (.pageDisable path p v) s draining) ∧
        (simple → Completes (.pageDisable path p v) s (fun t => draining t ∧ OnlyRegs s t [ctrl, stat])) ∧
        (0x20 ≤ (p : Nat) → Completes (.pageDisable path p v) s (fun t => draining t ∧ t.core core = { s.core core with held := true } ∧
          KeepsCores s t [core]))) ∧
      (s.pageOn p = true → 0x20 ≤ (p : Nat) → (s.core core).svc = 2 → Completes (.pageDisable path p v) s (fun t =>
        Counted s t (Reg.PAGE_ERR_CNT p) ∧ OnlyRegs s t [Reg.PAGE_ERR_CNT p])) ∧
      (s.pageOn p = false → Completes (.pageDisable path p v) s (fun t =>
        t = { s with deferred := s.deferred.filter (fun q => decide (q ≠ (p : Nat))) })) ∧
      (s.pageOn p = true → Completes (.pageEnable path p v) s (fun t => t = s)) ∧
      (s.pageOn p = false → s.bit stat 1 = true → Completes (.pageEnable path p v) s (fun t => t.pageOn p = false ∧
        (p : Nat) ∈ t.deferred ∧ t = { s with deferred := t.deferred })) ∧
      (s.pageOn p = false → s.bit stat 1 = false →
        Completes (.pageEnable path p v) s (fun t => t.pageOn p = true ∧ t.bit stat 0 = false) ∧
        (simple → (p : Nat) ≠ Page.irq → (p : Nat) ≠ Page.sch → Completes (.pageEnable path p v) s (fun t => t.pageOn p = true ∧
          t = { s with regs := t.regs, deferred := s.deferred.filter (fun q => decide (q ≠ (p : Nat))) } ∧ KeepsRegs s t [ctrl, stat])))) ∧
    (s.writable ctrl = true → fieldOf v 2 1 = 0 → s.pageOn p = true → fieldOf v 0 1 = 1 → Completes (.pageSoftReset path p v) s (fun t =>
      (∀ e, e ∈ s.regs → e.1 / 0x1000 = (p : Nat) → ∀ r, rowOf e.1 = some r →
        (t.reg e.1).toNat = (s.reg e.1).toNat - ((s.reg e.1).toNat &&& r.srst % 2 ^ 32)) ∧
      t = { s with regs := t.regs } ∧ (∀ a, a / 0x1000 ≠ (p : Nat) → t.reg a = s.reg a))) ∧
    (s.writable ctrl = true → fieldOf v 1 1 = 0 → s.pageOn p = true → fieldOf v 0 1 = 1 → Completes (.pageLock path p v) s (fun t =>
      t.bit ctrl 2 = true ∧ t.pageOn p = true ∧ OnlyRegs s t [ctrl])) ∧
    (s.bit stat 1 = false ∨ s.pageDone p = false → Completes (.pageIdle p) s (fun t => t = s)) ∧
    (s.bit stat 1 = true → s.pageDone p = true →
      ((p : Nat) ∉ s.deferred → Completes (.pageIdle p) s (fun t => t.bit stat 1 = false ∧ t.bit stat 0 = true ∧ t.pageOn p = s.pageOn p)) ∧
      ((p : Nat) ∉ s.deferred → simple → (p : Nat) ≠ Page.tdm → Completes (.pageIdle p) s (fun t => OnlyRegs s t [stat])) ∧
      ((p : Nat) ∈ s.deferred → Completes (.pageIdle p) s (fun t => t.pageOn p = true ∧ t.bit stat 1 = false ∧ (p : Nat) ∉ t.deferred)))

/-- R357, R425, R426, R430, R431, R432: injections, fences and the reading of registers, and a write of a register word; R65: a write of
ING_NTF_CFG that clears EN discards the notifications held inside. The model's own choices in it: log entries 16, 57, 64. -/
def Obligations.RegisterAccesses : Prop :=
  ∀ (s : State) (path : Path) (p : Fin 66) (v : Word) (o : Fin 1024) (now : BitVec 64) (off : BitVec 20) (be : BitVec 4),
    let inj := Reg.PAGE_ERR_INJ p
    let go := s.stored inj (setFieldOf v 31 1 1)
    let barred := s.bit Reg.ERR_CTRL 0 = false ∨ s.pageOn Page.err = false ∨ detectorsOf p ≤ fieldOf go 0 8 ∨ s.bit inj 30 = true
    let watched := (p : Nat) ∈ [Page.clk, Page.pwr, Page.irq, Page.err, Page.dac, Page.neta, Page.neta + 1, Page.pci]
    let all := decide (fieldOf v 8 1 = 1)
    let full := (all = false ∧ 40 < fieldOf v 0 6) ∨ 256 ≤ s.ing.fences.length
    let sent := fun (w : Word) => { s.out with sent := .readData path [w] :: s.out.sent }
    (s.writable inj = true →
      (barred → Completes (.errorInjectArm path p v) s (fun t => Counted s t Reg.ERR_INJ_REJ_CNT ∧ OnlyRegs s t [Reg.ERR_INJ_REJ_CNT])) ∧
      (¬ barred → ¬ watched → Completes (.errorInjectArm path p v) s (fun t => t.bit inj 30 = true ∧
        t.fld inj 0 8 = fieldOf v 0 8 ∧ t.fld inj 16 8 = fieldOf v 16 8 ∧ OnlyRegs s t [inj]))) ∧
    (s.writable Reg.GLB_FENCE = true →
      (full → Completes (.glbFence path v) s (fun t => t.bit (Reg.PAGE_ERR_STAT Page.glb) 1 = true ∧
        Counted s t (Reg.PAGE_ERR_CNT Page.glb) ∧ OnlyRegs s t [Reg.PAGE_ERR_STAT Page.glb, Reg.PAGE_ERR_CNT Page.glb])) ∧
      (¬ full → Completes (.glbFence path v) s (fun t =>
        t.ing = { s.ing with
          seq := s.ing.seq + 1, idx := s.ing.idx + 1
          waiting := s.ing.waiting ++ [{
            ident := fieldOf v 16 16, all := all, src := if all then 63 else fieldOf v 0 6, glb := true, arr := s.clk.mt.toNat
            seq := s.ing.seq, idx := s.ing.idx, notify := false, tag := 0, floor := 0 }] } ∧
        t.reg Reg.GLB_FENCE_STAT = BitVec.ofNat 32 (fieldOf v 16 16) ∧ t = { s with regs := t.regs, ing := t.ing } ∧
        KeepsRegs s t [Reg.GLB_FENCE_STAT]))) ∧
    (s.serving = false → Completes (.glbRead path o) s (fun t => t = s) ∧ Completes (.ptpTimeRead path now) s (fun t => t = s) ∧
      Completes (.registerWrite path off be v) s (fun t => t = s)) ∧
    (s.serving = true →
      (4 * o.val ≠ 8 → Completes (.glbRead path o) s (fun t => t = { s with
        out := sent (if (rowOf (4 * o)).isSome then s.reg (4 * o) else 0) })) ∧
      Completes (.ptpTimeRead path now) s (fun t => t.out = sent (BitVec.ofNat 32 now.toNat) ∧
        t.latched 2 path = BitVec.ofNat 32 (now.toNat / 2 ^ 32) ∧ t = { s with out := t.out, latches := t.latches }) ∧
      (be ≠ 15 → Completes (.registerWrite path off be v) s (fun t => t.bit (Reg.PAGE_ERR_STAT Page.glb) 0 = true ∧
        Counted s t (Reg.PAGE_ERR_CNT Page.glb) ∧ OnlyRegs s t [Reg.PAGE_ERR_STAT Page.glb, Reg.PAGE_ERR_CNT Page.glb])) ∧
      (off.toNat ∈ [Reg.CLK_LOCK_THR, Reg.CLK_MT_LOAD_LO, Reg.CLK_EPOCH_OFS_LO, Reg.PWR_WAKE_CFG, Reg.IRQ_HINT_EN_LO, Reg.ERR_CTRL,
          Reg.ING_TT_CFG, Reg.ING_CTRL, Reg.PS_WR_TGT, Reg.MM_VOICE_SEL, Reg.DEC_CTRL, Reg.ORT_CTRL, Reg.DRC_CFG,
          Reg.PTP_CFG, Reg.PCI_DMA_CFG, Reg.PCI_DMA_BASE_LO] → s.writable off.toNat = true → Stores (.registerWrite path off 15 v) s off.toNat v) ∧
      (off.toNat = Reg.ING_NTF_CFG → s.writable Reg.ING_NTF_CFG = true → Completes (.registerWrite path off 15 v) s (fun t =>
        t.reg Reg.ING_NTF_CFG = s.stored Reg.ING_NTF_CFG v ∧ t.ing.held = (if fieldOf v 8 1 = 1 then s.ing.held else []) ∧
        t = { s with regs := t.regs, ing := { s.ing with held := t.ing.held } } ∧ KeepsRegs s t [Reg.ING_NTF_CFG])) ∧
      (rowOf off.toNat = none → Completes (.registerWrite path off 15 v) s (fun t => OnlyRegs s t [Reg.PWR_STBY_REJ_CNT])))

/-- R34, R356, R370, R371, R399, R401, R420, R427: clocks and supplies that fail and return, and the restarts of the module. The model's own
choices in it: log entries 60 to 62. -/
def Obligations.ClocksAndRestarts : Prop :=
  ∀ (s : State) (path : Path) (v : Word) (pll : Fin 7) (gen width : Fin 4) (rail : Fin 8) (up rises : Bool)
    (txn : Option (BitVec 8 × Nat)),
    let off := s.pwr.held = true ∨ s.pwr.thermalOff = true
    let lock := s.bit Reg.CLK_PLL_STAT pll
    let lost := fun (P : State → Prop) => lock = true → Completes (.pllLockLoss pll) s P
    let spi := fun (x : Bool) => { s with pwr := { s.pwr with vioA := x } }
    (lock = false → Completes (.pllLockLoss pll) s (fun t => t = s)) ∧
    (pll.val < 3 → lost (fun t => Restarted s t 2)) ∧
    (pll.val = 3 → lost (fun t => t.bit Reg.CLK_PLL_STAT 3 = false ∧ t.bit Reg.CLK_MEDIA_STAT 7 = false ∧
      t.bit (Reg.PAGE_IRQ_STAT Page.clk) 1 = true ∧ Counted s t (Reg.PAGE_ERR_CNT Page.clk) ∧ Counted s t Reg.ERR_LOG_CNT ∧
      (∀ c, c < 8 → (t.dacCh c).st = .clamp) ∧
      t = { s with regs := t.regs, pmu := t.pmu, out := t.out, dac := t.dac })) ∧
    (pll.val = 4 → lost (fun t => t.bit Reg.CLK_PLL_STAT 4 = false ∧ t.fld Reg.PCI_STAT 0 8 = 0 ∧
      OnlyReports s t ([Reg.CLK_PLL_STAT, Reg.PCI_STAT, Reg.PAGE_ERR_CNT Page.clk] ++ raiseRegs Page.clk ++ logRegs))) ∧
    (5 ≤ pll.val → lost (fun t => t.bit Reg.CLK_PLL_STAT pll = false ∧ t.bit (Reg.NET_STAT (pll - 5)) 0 = false)) ∧
    (lock = true ∨ off → Completes (.pllRelock pll gen width) s (fun t => t = s)) ∧
    (lock = false → ¬ off →
      (pll.val ≠ 3 → pll.val ≠ 4 → Completes (.pllRelock pll gen width) s (fun t => t.bit Reg.CLK_PLL_STAT pll = true ∧
        OnlyRegs s t [Reg.CLK_PLL_STAT])) ∧
      (pll.val = 4 → Completes (.pllRelock pll gen width) s (fun t => t.bit Reg.CLK_PLL_STAT 4 = true ∧ t.fld Reg.PCI_STAT 0 4 = gen ∧
        t.fld Reg.PCI_STAT 4 4 = width ∧ OnlyRegs s t [Reg.CLK_PLL_STAT, Reg.PCI_STAT])) ∧
      (pll.val = 3 → Completes (.pllRelock pll gen width) s (fun t => t.bit Reg.CLK_PLL_STAT 3 = true ∧ t.bit Reg.CLK_MEDIA_STAT 7 = true ∧
        t.clk = { s.clk with famRelock := false } ∧ ClockOnly s t (Reg.CLK_PLL_STAT :: clockRegs)))) ∧
    (off → Completes .watchdogExpiry s (fun t => t = s) ∧ Completes (.railFault rail) s (fun t => t = s)) ∧
    (¬ off → Completes .watchdogExpiry s (fun t => Restarted s t 1 ∧ t.fld Reg.PWR_RAIL_STAT 8 4 = s.fld Reg.PWR_RAIL_STAT 8 4) ∧
      Completes (.railFault rail) s (fun t => Restarted s t 3 ∧ t.fld Reg.PWR_RAIL_STAT 8 4 = rail)) ∧
    (s.writable Reg.PWR_CTRL = true →
      (fieldOf v 16 16 = 0x5253 → Completes (.moduleRestartRequest path v) s (fun t => Restarted s t 5)) ∧
      (fieldOf v 16 16 ≠ 0x5253 → fieldOf v 0 1 = 0 → Completes (.moduleRestartRequest path v) s (fun t => t = s))) ∧
    Completes (.powerOnReset rises) s (fun t => t.pwr.held = !rises ∧ t.reg Reg.PWR_RST_CAUSE = 1 ∧ t.reg Reg.PWR_RESTART_CNT = 0 ∧
      t.con = [] ∧ t.cores = [] ∧ t.ing = Ingress.reset ∧ t.bootState = 0 ∧ t.pending = s.pending) ∧
    (up = true ∨ s.pwr.vioA = false ∨ s.serving = false ∨ txn = none → Completes (.vioBankChange false up txn) s (fun t => t = spi up)) ∧
    (up = false → s.pwr.vioA = true → s.serving = true → txn.isSome = true → Completes (.vioBankChange false up txn) s (fun t =>
      t.pwr = { s.pwr with vioA := false } ∧ t.net.spi.frameErr = true ∧ Counted s t Reg.HSP_FRAME_ERR_CNT ∧
      t = { s with regs := t.regs, pmu := t.pmu, out := t.out, net := t.net, pwr := t.pwr })) ∧
    Completes (.vioBankChange true true txn) s (fun t => t = { s with pwr := { s.pwr with vioB := true } }) ∧
    Completes (.vioBankChange true false txn) s (fun t => t.pwr = { s.pwr with vioB := false } ∧
      (∀ p, p < 4 → (s.tdmPort p).on = true → s.tdmMaster p = false → (t.tdmPort p).frames = 0 ∧ t.bit (Reg.TDM_P_STAT p) 0 = false) ∧
      t = { s with regs := t.regs, net := { s.net with tdm := t.net.tdm }, pwr := t.pwr } ∧
      KeepsRegs s t ((List.range 4).map (fun p => Reg.TDM_P_STAT p)))

/-- R380, R413, R414, R415, R416, R418, R419: temperature, the entry to standby and the wake from it, and the heartbeat. The model's own
choices in it: log entries 36, 63, 67. -/
def Obligations.StandbyAndSupervision : Prop :=
  ∀ (s : State) (path : Path) (v : Word) (temp : BitVec 12) (rising : Bool),
    let c := temp.toInt
    let cur := fun (t : State) => t.fld Reg.PWR_TEMP 0 12 = temp.toNat
    let warn := Reg.PAGE_IRQ_STAT Page.pwr
    let asleep := s.powerState = 2
    let plain := s.powerState ≠ 2 ∧ ¬ (s.svcBusy = true ∧ s.svcOp = 9)
    let woken := fun (t : State) (src : Nat) => t.powerState = 3 ∧ t.reg Reg.PWR_WAKE_SRC = BitVec.ofNat 32 src ∧
      OnlyRegs s t [Reg.PWR_WAKE_SRC, Reg.PWR_STAT]
    (s.pwr.held = true → Completes (.thermalSample temp) s (fun t => t = s)) ∧
    (s.pwr.held = false → s.pwr.thermalOff = true →
      (c < 4 * 95 → Completes (.thermalSample temp) s (fun t => Restarted s t 4)) ∧
      (4 * 95 ≤ c → Completes (.thermalSample temp) s (fun t => cur t ∧ OnlyRegs s t [Reg.PWR_TEMP]))) ∧
    (s.pwr.held = false → s.pwr.thermalOff = false →
      (c < s.warnAt → Completes (.thermalSample temp) s (fun t => cur t ∧ t.pwr.critical = false ∧
        t.pwr.warned = (s.pwr.warned && decide (s.warnAt - 20 < c)) ∧
        t = { s with regs := t.regs, pwr := { s.pwr with warned := t.pwr.warned, critical := false } } ∧ KeepsRegs s t [Reg.PWR_TEMP])) ∧
      (s.warnAt ≤ c → c < 4 * 110 → s.pwr.warned = false → Completes (.thermalSample temp) s (fun t => cur t ∧ t.pwr.warned = true ∧
        t.bit warn 0 = true ∧ Counted s t (Reg.PAGE_ERR_CNT Page.pwr) ∧ Counted s t Reg.ERR_LOG_CNT)) ∧
      (4 * 110 ≤ c → c < 4 * 120 → s.pwr.critical = false → Completes (.thermalSample temp) s (fun t => cur t ∧ t.pwr.critical = true ∧
        t.bit warn 1 = true ∧ t.bit Reg.DAC_CTRL 4 = true ∧ t.run = false)) ∧
      (4 * 120 ≤ c → Completes (.thermalSample temp) s (fun t => t.pwr.thermalOff = true ∧ t.serving = false ∧
        t.fld Reg.PWR_RAIL_STAT 0 8 = 8 ∧ t.cores = [] ∧ t.con = []))) ∧
    (s.pwr.vioA = false ∨ s.bit Reg.PWR_WAKE_CFG 0 = false ∨ s.bit Reg.PWR_WAKE_CFG 1 ≠ rising ∨ plain →
      Completes (.wakePin rising) s (fun t => t = s)) ∧
    (asleep → s.pwr.vioA = true → s.bit Reg.PWR_WAKE_CFG 0 = true → s.bit Reg.PWR_WAKE_CFG 1 = rising →
      Completes (.wakePin rising) s (fun t => woken t 1)) ∧
    (s.writable Reg.PWR_CTRL = true → fieldOf v 1 1 = 0 →
      (asleep → Completes (.wakeRequest path v) s (fun t => woken t 2)) ∧ (plain → Completes (.wakeRequest path v) s (fun t => t = s))) ∧
    (s.powerState ≠ 1 ∨ s.running = true ∨ s.dacClamped = false → Completes .standbyReached s (fun t => t = s)) ∧
    (s.powerState = 1 → s.running = false → s.dacClamped = true → Completes .standbyReached s (fun t =>
      t.powerState = (if s.pwr.wakePending then 3 else 2) ∧ t.bit Reg.PWR_RAIL_STAT 0 = false ∧ t.ing.tt = [] ∧
      t.pwr = { s.pwr with served := s.inService } ∧ t.svcBusy = false ∧ t.bit Reg.SVC_STAT 30 = true ∧
      (∀ k ∈ t.sch.tasks, k.live = false))) ∧
    (s.powerState ≠ 3 → Completes (.wakeComplete []) s (fun t => t = s)) ∧
    (s.powerState = 3 → Completes (.wakeComplete []) s (fun t => t.powerState = 0 ∧ t.bit Reg.PWR_RAIL_STAT 0 = true ∧
      Counted s t Reg.PWR_WAKE_CNT ∧ t.bit warn 3 = true ∧ t.pwr = { s.pwr with served := [], wakePending := false } ∧
      (s.pwr.ingWas = true → t.pageOn Page.ing = true) ∧
      (∀ n, n < 34 → n ∈ s.pwr.served → (t.core n).svc = 2 ∧ (t.core n).pc = s.fld (Reg.VC_RESET_VEC n) 0 13 ∧
        (t.core n).prog = (s.core n).prog ∧ (t.core n).task = none) ∧
      (∀ n, n < 34 → n ∉ s.pwr.served → (t.core n).svc = (s.core n).svc) ∧ KeepsCon s t 0 0)) ∧
    (s.fld Reg.IRQ_HB_CFG 0 16 = 0 ∨ s.serving = false → Completes .heartbeatExpiry s (fun t => t = s)) ∧
    (s.fld Reg.IRQ_HB_CFG 0 16 ≠ 0 → s.serving = true →
      let act := s.fld Reg.IRQ_HB_CFG 16 2
      Completes .heartbeatExpiry s (fun t => Counted s t Reg.IRQ_HB_LOST_CNT ∧ Counted s t Reg.ERR_LOG_CNT ∧
        t.bit (Reg.PAGE_IRQ_STAT Page.irq) 0 = true ∧
        (act = 0 ∨ act = 3 → OnlyReports s t (Reg.IRQ_HB_LOST_CNT :: raiseRegs Page.irq ++ logRegs)) ∧
        (act = 1 → t.pwr.hbClear = true ∧ t.bit Reg.DAC_STAT 0 = true ∧ t.run = s.run) ∧ (act = 2 → t.run = false))) ∧
    (s.writable Reg.IRQ_HB_KICK = true →
      (s.pwr.hbClear = false → Completes (.heartbeatKick path v) s (fun t => t = s)) ∧
      (s.pwr.hbClear = true → Completes (.heartbeatKick path v) s (fun t => t.pwr = { s.pwr with hbClear := false } ∧
        t.bit Reg.DAC_STAT 0 = (s.bit Reg.DAC_STAT 1 || s.bit Reg.DAC_CTRL 4))))

/-- R298, R365, R403, R406, R407, R408, R409, R410: the boot sequencer, the check and the application of an image, and the fuse. The model's
own choices in it: log entries 12, 37, 53, 68, 69. -/
def Obligations.BootSequence : Prop :=
  ∀ (s : State) (path : Path) (v : Word) (passed : BitVec 34) (validA validB identified : Bool) (seqA seqB : Word) (log : Fin 7)
    (bytes : List Byte),
    let st := s.bootState
    let boot := Reg.PAGE_IRQ_STAT Page.boot
    let tried := fun (t : State) (which : Nat) => t.bootState = which ∧ t.pwr.loading = which ∧ Counted s t Reg.BOOT_ATTEMPT_CNT ∧
      t.bit boot 0 = true
    let firstB := validB && (!validA || decide (0 < (seqB - seqA).toInt))
    let good := (List.range 34).filter (fun n => passed.getLsbD n)
    let off := s.pwr.held = true ∨ s.pwr.thermalOff = true
    let ignored := s.pageOn Page.boot = false ∨ 5 ≤ st
    let go := s.stored Reg.BOOT_CTRL (setFieldOf v 8 1 1)
    let fuse := Reg.BOOT_FUSE_STAT
    let refused := fieldOf v 16 16 ≠ 0x4655 ∨ st ≠ 6 ∨ s.fld fuse 0 2 ≠ 0 ∨ s.hashWords.all (fun w => decide (w = 0)) = true
    (st ≠ 0 ∨ off → Completes (.bootInitDone passed validA validB seqA seqB) s (fun t => t = s)) ∧
    (st = 0 → ¬ off → Completes (.bootInitDone passed validA validB seqA seqB) s (fun t => tried t (if firstB then 2 else 1) ∧ t.con = [] ∧
      t.fld Reg.CLK_PLL_STAT 0 3 = 7 ∧ (∀ n, n ∈ good.take 32 → (t.core n).svc = 2 ∧ (t.core n).pc = s.fld (Reg.VC_RESET_VEC n) 0 13) ∧
      (∀ n, n ∈ good.drop 32 → (t.core n).svc = 1) ∧ (∀ n, n ∉ good → t.core n = s.core n))) ∧
    (st ≠ 4 → Completes .backoffExpiry s (fun t => t = s)) ∧
    (st = 4 → Completes .backoffExpiry s (fun t => tried t (if s.pwr.triedB then 1 else 2) ∧ t.pwr.triedB = !s.pwr.triedB ∧
      OnlyReports { s with pwr := t.pwr } t ([Reg.BOOT_STAT, Reg.BOOT_ATTEMPT_CNT] ++ raiseRegs Page.boot))) ∧
    (s.writable Reg.BOOT_CTRL = true →
      (ignored → Completes (.hostImageGo path v) s (fun t => t.bit Reg.BOOT_STAT 8 = true ∧ t.reg Reg.BOOT_CTRL = go ∧
        OnlyRegs s t [Reg.BOOT_CTRL, Reg.BOOT_STAT])) ∧
      (¬ ignored → st = 4 → Completes (.hostImageGo path v) s (fun t => tried t 3 ∧ t.reg Reg.BOOT_CTRL = go)) ∧
      (¬ ignored → st ≠ 4 → Completes (.hostImageGo path v) s (fun t => t.pwr = { s.pwr with hostGo := true } ∧ t.reg Reg.BOOT_CTRL = go ∧
        t = { s with regs := t.regs, pwr := t.pwr } ∧ KeepsRegs s t [Reg.BOOT_CTRL]))) ∧
    (st = 0 ∨ 3 < st → Completes (.imageCheck identified log bytes) s (fun t => t = s)) ∧
    (let err := if identified then s.imageError bytes (min (2 ^ (20 + log.val)) 0x800000) else 1
     (st = 1 ∨ st = 2) → s.bit (Reg.PAGE_ERR_INJ Page.boot) 30 = false →
      (err = 0 → Completes (.imageCheck identified log bytes) s (fun t => t.bootState = 5 ∧ t.bit boot 0 = true ∧
        t.bit Reg.BOOT_STAT 8 = (s.bit Reg.BOOT_STAT 8 || s.pwr.hostGo) ∧ t.pwr = { s.pwr with hostGo := false } ∧
        (∀ i, i < imageLength bytes → t.conByte (0x01000000 + i) = ((bytes[i]?).getD 0)) ∧
        KeepsCon s t 0x01000000 (imageLength bytes))) ∧
      (err ≠ 0 → s.pwr.hostGo = false → Completes (.imageCheck identified log bytes) s (fun t => t.bootState = 4 ∧
        t.fld Reg.BOOT_STAT 28 4 = err ∧ t.bit boot 1 = true ∧ Counted s t (Reg.PAGE_ERR_CNT Page.boot) ∧ Counted s t Reg.ERR_LOG_CNT)) ∧
      (err ≠ 0 → s.pwr.hostGo = true → Completes (.imageCheck identified log bytes) s (fun t => tried t 3 ∧ t.bit boot 1 = true))) ∧
    (st ≠ 5 → Completes .bootDone s (fun t => t = s)) ∧
    (st = 5 →
      let done := fun (t : State) => t.bootState = 6 ∧ t.fld Reg.BOOT_STAT 16 2 = s.pwr.loading % 4 ∧
        t.reg Reg.BOOT_IMG_SEQ = BitVec.ofNat 32 (leAt s.buffered 12 4) ∧
        t.fld Reg.CON_STAT 0 2 = (if s.bit Reg.CON_CTRL 0 then 2 else 0) ∧ t.bit boot 0 = true ∧
        (∀ n, n < 34 → (s.core n).svc = 2 → (t.core n).svc = 2 ∧ (t.core n).pc = s.fld (Reg.VC_RESET_VEC n) 0 13) ∧ KeepsCon s t 0 0
      (imageItems s.buffered = some [] → Completes .bootDone s done) ∧
      (∀ r, imageItems s.buffered = some [(1, r)] → r.length = 8 → leAt r 0 4 ∈ [Reg.ING_TT_CFG, Reg.CLK_LOCK_THR, Reg.DRC_CFG, Reg.PTP_CFG] →
        s.locked (leAt r 0 4 / 0x1000) = false → Completes .bootDone s (fun t => done t ∧
          t.reg (leAt r 0 4) = s.stored (leAt r 0 4) (BitVec.ofNat 32 (leAt r 4 4))))) ∧
    (s.writable Reg.BOOT_FUSE_CTRL = true →
      (refused → Completes (.fuseProgram path v) s (fun t => t.bit Reg.BOOT_STAT 9 = true ∧ OnlyRegs s t [Reg.BOOT_STAT])) ∧
      (¬ refused → Completes (.fuseProgram path v) s (fun t => t.bit fuse 1 = true ∧ OnlyRegs s t [fuse]))) ∧
    (s.bit fuse 1 = false → Completes .fuseProgramDone s (fun t => t = s)) ∧
    (s.bit fuse 1 = true → Completes .fuseProgramDone s (fun t => t.bit fuse 1 = false ∧ t.bit fuse 0 = true ∧
      t.pwr = { s.pwr with fuse := (List.range 8).map (fun i => s.reg (Reg.BOOT_FUSE_DATA i)) } ∧
      t = { s with regs := t.regs, pwr := t.pwr } ∧ KeepsRegs s t [fuse]))

/-- R309, R312, R318, R319, R372, R373, R374, R375, R411, R413: an operation starts when none runs and its argument is valid, is aborted
before its commit point, and ends with its flags. It starts with the commands that svcCommands lists: coreRetire, coreRestore, bankRebuild,
bankReturn, dramPageRetire, dramScrubFull, cfgCommit, cfgReload, standbyEnter and portFailoverTest. The model's own choices in it: log
entries 35, 37, 54, 55. -/
def Obligations.ServiceOperations : Prop :=
  ∀ (s : State) (path : Path) (v : Word) (fail : Bool) (log : Fin 7) (image : List Byte) (op : Nat) (c : Instr),
    let arg := (s.reg Reg.SVC_ARG).toNat
    let n := bitsOf arg 0 6
    let refused := fun (t : State) => Counted s t Reg.SVC_REFUSE_CNT ∧ t.bit (Reg.PAGE_IRQ_STAT Page.svc) 1 = true ∧
      OnlyReports s t (Reg.SVC_REFUSE_CNT :: raiseRegs Page.svc)
    let on := s.svcBusy = false ∧ s.pageOn Page.svc = true
    let begun := fun (P : State → Prop) => on → s.svcValid op arg = true → Completes c s (fun t => SvcRuns t op arg ∧ P t)
    let running := s.svcBusy = true
    let this := bitsOf s.svc.arg 0 6
    let ends := fun (P : State → Prop) => running → Completes (.serviceOperationComplete fail log image) s P
    (s.writable Reg.SVC_CMD = true → (op, c) ∈ svcCommands path v →
      (running → Completes c s refused) ∧
      (s.svcBusy = false → s.pageOn Page.svc = false → Completes c s (fun t => t = s)) ∧
      (on → s.svcValid op arg = false → Completes c s (fun t => SvcEnded t false false true ∧ t.svcOp = op ∧
        t = { s with regs := t.regs, pmu := t.pmu, out := t.out, svc := t.svc, deferred := t.deferred } ∧ KeepsRegs s t svcRegs)) ∧
      (op = 1 → (s.core n).retire = false → begun (fun t => t.core n = { s.core n with retire := true } ∧ KeepsCores s t [n])) ∧
      (op = 2 → begun (fun t => t.core n = { s.core n with svc := 3 } ∧ KeepsCores s t [n])) ∧
      (op = 3 → begun (fun t => t.bit Reg.CON_RB_STAT 31 = true ∧ t.fld Reg.CON_RB_STAT 0 15 = 0 ∧ t.ctl.rbBank = bitsOf arg 0 7 ∧
        (∀ b, s.rebuildTarget arg = some b → t.fld Reg.CON_RB_STAT 24 7 = b ∧ t.bankState b = 2))) ∧
      (op = 4 → begun (fun t => t.bankState (bitsOf arg 0 7) = 4)) ∧
      (op = 5 → on → s.svcValid 5 arg = true → (∀ u, s.freeUnit = some u → ¬ (s.dram.retiring.any (fun e => decide (e.1 = bitsOf arg 0 20))) →
        Completes c s (fun t => SvcRuns t 5 (bitsOf arg 0 20) ∧ t.dram.retiring = s.dram.retiring ++ [(bitsOf arg 0 20, u)]))) ∧
      (op = 6 → begun (fun t => t.reg Reg.DRC_SCRUB_STAT = 0x80000000 ∧ t.dram.patrol = s.fld Reg.DRC_SCRUB_STAT 0 26)) ∧
      (op = 7 → begun (fun t => t.dram = s.dram ∧ t.out.flash = s.out.flash ∧ KeepsCores s t [])) ∧
      (op = 8 → begun (fun t => ∀ e ∈ t.spf.streams, e.2.active = false)) ∧
      (op = 9 → s.running = true → begun (fun t => t.powerState = s.powerState ∧ t.svc.committed = false)) ∧
      (op = 10 → begun (fun t => t.svc.suppressed = some (bitsOf arg 0 1) ∧ t.svc.base = s.lossCount))) ∧
    (op = 9 → s.writable Reg.SVC_CMD = true → on → arg = 0 → s.running = false →
      Completes (.standbyEnter path v) s (fun t => t.powerState = 1 ∧ t.run = false ∧ t.pageOn Page.ing = false ∧ t.svc.committed = true ∧
        t.pwr = { s.pwr with ingWas := s.pageOn Page.ing, wakePending := false })) ∧
    (s.writable Reg.SVC_ABORT = true →
      (s.svcBusy = false → Completes (.svcAbort path v) s (fun t => t = s)) ∧
      (running → fieldOf v 0 8 ≠ s.svcOp → Completes (.svcAbort path v) s refused) ∧
      (running → fieldOf v 0 8 = s.svcOp → s.svc.committed = true ∨ s.svc.finished = true → Completes (.svcAbort path v) s (fun t =>
        t.bit Reg.SVC_STAT 4 = true ∧ t.svcBusy = true ∧ OnlyRegs s t [Reg.SVC_STAT])) ∧
      (running → fieldOf v 0 8 = s.svcOp → s.svc.committed = false → s.svc.finished = false → Completes (.svcAbort path v) s (fun t =>
        SvcEnded t true false false ∧ (s.svcOp = 1 → s.svc.fail = false → (t.core this).retire = false) ∧
        (s.svcOp = 2 → (t.core this).svc = 0) ∧ (s.svcOp = 3 → t.bit Reg.CON_RB_STAT 31 = false) ∧
        (s.svcOp = 4 → bitsOf s.svc.arg 0 7 < 74 → t.bankState (bitsOf s.svc.arg 0 7) = 3) ∧
        (s.svcOp = 6 → t.reg Reg.DRC_SCRUB_STAT = BitVec.ofNat 32 s.dram.patrol)))) ∧
    (s.ctl.rebuildQueue = [] ∨ running ∨ s.pageOn Page.svc = false → Completes .autoRebuildStart s (fun t => t = s)) ∧
    (∀ b rest, s.ctl.rebuildQueue = b :: rest → on → Completes .autoRebuildStart s (fun t => t.ctl.rebuildQueue = rest ∧
      t.bit Reg.SVC_STAT 5 = true ∧ Counted s t Reg.SVC_AUTO_CNT ∧ t.svcOp = 3 ∧
      (b < 74 → s.bankState b = 0 → (∀ k, s.lowestSpare = some k → t.svcBusy = true ∧ t.bit Reg.CON_RB_STAT 31 = true ∧ t.ctl.rbBank = b ∧
        t.fld Reg.CON_RB_STAT 24 7 = k)) ∧
      (s.lowestSpare = none → SvcEnded t false false true))) ∧
    (s.svcBusy = false → Completes (.serviceOperationComplete fail log image) s (fun t => t = s)) ∧
    (s.svcOp = 1 →
      ((s.core this).svc = 2 → ends (fun t => t = s)) ∧
      ((s.core this).svc ≠ 2 → ends (fun t => SvcEnded t false false false ∧
        t.reg Reg.SVC_RESULT = (if s.svc.committed then 0 else 1) ∧ KeepsRegs s t (Reg.SVC_RESULT :: svcRegs)))) ∧
    (s.svcOp = 2 → this < 34 →
      (fail = true → ends (fun t => SvcEnded t false true false ∧ t.core this = { s.core this with svc := 0 } ∧ KeepsCores s t [this])) ∧
      (fail = false → ends (fun t => SvcEnded t false false false ∧ (t.core this).svc = 1 ∧ KeepsCores s t [this] ∧
        ((s.inService.filter (fun k => decide (k ≠ this))).length < 32 → (t.core this).copyFrom.isSome = true)))) ∧
    (3 ≤ s.svcOp → s.svcOp ≤ 6 →
      (s.svc.finished = false → ends (fun t => t = s)) ∧
      (s.svc.finished = true → ends (fun t => SvcEnded t false s.svc.fail false ∧ KeepsRegs s t svcRegs))) ∧
    (s.svcOp = 7 →
      let a := bitsOf s.svc.arg 10 15 * 1024
      let len := imageLength (s.conBytes a 64)
      let bad := fail = true ∨ min (2 ^ (20 + log.val)) 0x800000 < len ∨ 2 ^ 25 < a + len
      ends (fun t => SvcEnded t false (decide bad) false ∧ KeepsCon s t 0 0 ∧
        (¬ bad → ∀ i, 64 ≤ i → i < len → Sparse.get (fun _ => (0xFF : Byte)) t.out.flash (bitsOf s.svc.arg 31 1 * 2 ^ 32 + i) = s.conByte (a + i)))) ∧
    (s.svcOp = 8 → fail = true → ends (fun t => SvcEnded t false true false ∧ t.fld Reg.BOOT_STAT 28 4 = 1 ∧
      Counted s t (Reg.PAGE_ERR_CNT Page.boot) ∧ t.bit (Reg.PAGE_IRQ_STAT Page.boot) 1 = true)) ∧
    (s.svcOp = 10 → ends (fun t => SvcEnded t false false false ∧ t.reg Reg.SVC_RESULT = BitVec.ofNat 32 (s.lossCount - s.svc.base) ∧
      KeepsRegs s t (Reg.SVC_RESULT :: svcRegs))) ∧
    (s.svcOp = 0 ∨ s.svcOp = 9 ∨ 10 < s.svcOp → ends (fun t => t = s))
end

