-- ==== Sys2Proof/Laws/Sparse.lean ====
section
/-! SUPPORT. Sparse maps: reading after writing, and the canonical form that every write keeps. -/

namespace Sys2Proof.Sparse

variable {α : Type} {dflt : Nat → α}

@[simp] theorem get_erase_same (m : Map α) (k : Nat) : get dflt (erase m k) k = dflt k := by
  induction m with
  | nil => rfl
  | cons e m ih => obtain ⟨j, v⟩ := e; by_cases h : j = k <;> simp [erase, get, h, ih]

theorem get_erase_other (m : Map α) {j k : Nat} (h : j ≠ k) : get dflt (erase m k) j = get dflt m j := by
  induction m with
  | nil => rfl
  | cons e m ih =>
    obtain ⟨i, v⟩ := e
    by_cases hi : i = k
    · have : i ≠ j := by omega
      simp [erase, get, hi, ih]; omega
    · by_cases hj : i = j
      · subst hj; simp [erase, get, hi]
      · simp [erase, get, hi, hj, ih]

theorem get_insert_same (m : Map α) (k : Nat) (v : α) (h : get dflt m k = dflt k) (hm : ∀ e ∈ m, e.1 ≠ k) :
    get dflt (insert m k v) k = v := by
  induction m with
  | nil => simp [insert, get]
  | cons e m ih =>
    obtain ⟨j, w⟩ := e
    have hj : j ≠ k := hm (j, w) (by simp)
    have hm' : ∀ e ∈ m, e.1 ≠ k := fun e he => hm e (by simp [he])
    have h' : get dflt m k = dflt k := by simpa [get, hj] using h
    by_cases hk : k < j <;> simp [insert, get, hk, hj, ih h' hm']

theorem get_insert_other (m : Map α) {j k : Nat} (v : α) (h : j ≠ k) : get dflt (insert m k v) j = get dflt m j := by
  induction m with
  | nil => simp [insert, get]; omega
  | cons e m ih =>
    obtain ⟨i, w⟩ := e
    by_cases hk : k < i
    · simp [insert, get, hk]; omega
    · by_cases hj : i = j
      · subst hj; simp [insert, get, hk]
      · simp [insert, get, hk, hj, ih]

theorem mem_erase (m : Map α) (k : Nat) : ∀ e ∈ erase m k, e.1 ≠ k ∧ e ∈ m := by
  induction m with
  | nil => simp [erase]
  | cons e m ih =>
    obtain ⟨j, v⟩ := e
    by_cases h : j = k
    · intro e he
      simp only [erase, h, if_true] at he
      exact ⟨(ih e he).1, by simp [(ih e he).2]⟩
    · intro e he
      simp only [erase, h, if_false, List.mem_cons] at he
      rcases he with rfl | he
      · exact ⟨h, by simp⟩
      · exact ⟨(ih e he).1, by simp [(ih e he).2]⟩

section
variable [DecidableEq α]

/-- A read gives the value written last. -/
@[simp] theorem get_put_same (m : Map α) (k : Nat) (v : α) : get dflt (put dflt m k v) k = v := by
  unfold put
  split
  · simp [*]
  · exact get_insert_same _ _ _ (by simp) (fun e he => (mem_erase m k e he).1)

/-- A write leaves every other key alone. -/
theorem get_put_other (m : Map α) {j k : Nat} (v : α) (h : j ≠ k) : get dflt (put dflt m k v) j = get dflt m j := by
  unfold put
  split
  · exact get_erase_other m h
  · rw [get_insert_other _ _ h, get_erase_other m h]

theorem get_put (m : Map α) (j k : Nat) (v : α) : get dflt (put dflt m k v) j = if j = k then v else get dflt m j := by
  split
  · subst_vars; simp
  · exact get_put_other m v ‹_›

/-- The keys of a map are above `lo`. -/
def above : Option Nat → Nat → Prop
  | none, _ => True
  | some l, k => l < k

theorem wfFrom_cons {lo : Option Nat} {k : Nat} {v : α} {m : Map α} :
    wfFrom dflt lo ((k, v) :: m) = true ↔ above lo k ∧ v ≠ dflt k ∧ wfFrom dflt (some k) m = true := by
  cases lo <;> simp [wfFrom, above, and_assoc]

theorem wfFrom_weaken {lo lo' : Option Nat} {m : Map α} (h : wfFrom dflt lo m = true)
    (hl : ∀ k, above lo k → above lo' k) : wfFrom dflt lo' m = true := by
  cases m with
  | nil => rfl
  | cons e m =>
    obtain ⟨k, v⟩ := e
    rw [wfFrom_cons] at h ⊢
    exact ⟨hl _ h.1, h.2⟩

theorem wfFrom_filter (p : Nat × α → Bool) {lo : Option Nat} {m : Map α} (h : wfFrom dflt lo m = true) :
    wfFrom dflt lo (m.filter p) = true := by
  induction m generalizing lo with
  | nil => rfl
  | cons e m ih =>
    obtain ⟨k, v⟩ := e
    rw [wfFrom_cons] at h
    by_cases hp : p (k, v)
    · rw [List.filter_cons_of_pos hp, wfFrom_cons]
      exact ⟨h.1, h.2.1, ih h.2.2⟩
    · rw [List.filter_cons_of_neg hp]
      refine wfFrom_weaken (ih h.2.2) ?_
      intro j hj
      have h1 := h.1
      cases lo with
      | none => trivial
      | some l => exact Nat.lt_trans h1 hj

theorem wfFrom_erase {lo : Option Nat} {m : Map α} (k : Nat) (h : wfFrom dflt lo m = true) : wfFrom dflt lo (erase m k) = true := by
  have : erase m k = m.filter (fun e => decide (e.1 ≠ k)) := by
    clear h
    induction m with
    | nil => rfl
    | cons e m ih => obtain ⟨j, v⟩ := e; by_cases h : j = k <;> simp [erase, h, ih]
  rw [this]
  exact wfFrom_filter _ h

theorem wfFrom_insert {lo : Option Nat} {m : Map α} {k : Nat} {v : α} (h : wfFrom dflt lo m = true) (hl : above lo k)
    (hv : v ≠ dflt k) (hk : ∀ e ∈ m, e.1 ≠ k) : wfFrom dflt lo (insert m k v) = true := by
  induction m generalizing lo with
  | nil =>
    rw [insert, wfFrom_cons]
    exact ⟨hl, hv, rfl⟩
  | cons e m ih =>
    obtain ⟨j, w⟩ := e
    have hj : j ≠ k := hk (j, w) (by simp)
    rw [wfFrom_cons] at h
    by_cases hlt : k < j
    · simp only [insert, hlt, if_true]
      rw [wfFrom_cons, wfFrom_cons]
      exact ⟨hl, hv, hlt, h.2⟩
    · simp only [insert, hlt, if_false]
      rw [wfFrom_cons]
      refine ⟨h.1, h.2.1, ih h.2.2 ?_ (fun e he => hk e (by simp [he]))⟩
      show j < k
      omega

/-- A write keeps the canonical form. -/
theorem wf_put {m : Map α} (k : Nat) (v : α) (h : wf dflt m = true) : wf dflt (put dflt m k v) = true := by
  unfold put
  split
  · exact wfFrom_erase k h
  · exact wfFrom_insert (wfFrom_erase k h) trivial ‹_› (fun e he => (mem_erase m k e he).1)

/-- Taking entries out keeps the canonical form. -/
theorem wf_filter {m : Map α} (p : Nat × α → Bool) (h : wf dflt m = true) : wf dflt (m.filter p) = true := wfFrom_filter p h

@[simp] theorem wf_nil : wf dflt ([] : Map α) = true := rfl

end

end Sys2Proof.Sparse
end

