-- ==== Sys2Proof/Laws/State.lean ====
section
/-! SUPPORT. Laws of the state's updates: the fields an update leaves alone, and what a register, a core, a slot, a stream and a
queue read after they were written. -/

namespace Sys2Proof.Machine

variable (s : State)

/-! ### setReg -/

@[simp] theorem State.setReg_pending (off : Nat) (v : Word) : (s.setReg off v).pending = s.pending := rfl
@[simp] theorem State.setReg_draws (off : Nat) (v : Word) : (s.setReg off v).draws = s.draws := rfl
@[simp] theorem State.setReg_out (off : Nat) (v : Word) : (s.setReg off v).out = s.out := rfl
@[simp] theorem State.setReg_clk (off : Nat) (v : Word) : (s.setReg off v).clk = s.clk := rfl
@[simp] theorem State.setReg_ing (off : Nat) (v : Word) : (s.setReg off v).ing = s.ing := rfl
@[simp] theorem State.setReg_pool (off : Nat) (v : Word) : (s.setReg off v).pool = s.pool := rfl
@[simp] theorem State.setReg_mm (off : Nat) (v : Word) : (s.setReg off v).mm = s.mm := rfl
@[simp] theorem State.setReg_sch (off : Nat) (v : Word) : (s.setReg off v).sch = s.sch := rfl
@[simp] theorem State.setReg_cores (off : Nat) (v : Word) : (s.setReg off v).cores = s.cores := rfl
@[simp] theorem State.setReg_spf (off : Nat) (v : Word) : (s.setReg off v).spf = s.spf := rfl
@[simp] theorem State.setReg_mix (off : Nat) (v : Word) : (s.setReg off v).mix = s.mix := rfl
@[simp] theorem State.setReg_dec (off : Nat) (v : Word) : (s.setReg off v).dec = s.dec := rfl
@[simp] theorem State.setReg_dac (off : Nat) (v : Word) : (s.setReg off v).dac = s.dac := rfl
@[simp] theorem State.setReg_ort (off : Nat) (v : Word) : (s.setReg off v).ort = s.ort := rfl
@[simp] theorem State.setReg_queues (off : Nat) (v : Word) : (s.setReg off v).queues = s.queues := rfl
@[simp] theorem State.setReg_con (off : Nat) (v : Word) : (s.setReg off v).con = s.con := rfl
@[simp] theorem State.setReg_ctl (off : Nat) (v : Word) : (s.setReg off v).ctl = s.ctl := rfl
@[simp] theorem State.setReg_dram (off : Nat) (v : Word) : (s.setReg off v).dram = s.dram := rfl
@[simp] theorem State.setReg_net (off : Nat) (v : Word) : (s.setReg off v).net = s.net := rfl
@[simp] theorem State.setReg_svc (off : Nat) (v : Word) : (s.setReg off v).svc = s.svc := rfl
@[simp] theorem State.setReg_pwr (off : Nat) (v : Word) : (s.setReg off v).pwr = s.pwr := rfl
@[simp] theorem State.setReg_pmu (off : Nat) (v : Word) : (s.setReg off v).pmu = s.pmu := rfl
@[simp] theorem State.setReg_dump (off : Nat) (v : Word) : (s.setReg off v).dump = s.dump := rfl
@[simp] theorem State.setReg_deferred (off : Nat) (v : Word) : (s.setReg off v).deferred = s.deferred := rfl
@[simp] theorem State.setReg_latches (off : Nat) (v : Word) : (s.setReg off v).latches = s.latches := rfl

/-! ### setFld -/

@[simp] theorem State.setFld_pending (off lo w n : Nat) : (s.setFld off lo w n).pending = s.pending := State.setReg_pending ..
@[simp] theorem State.setFld_draws (off lo w n : Nat) : (s.setFld off lo w n).draws = s.draws := State.setReg_draws ..
@[simp] theorem State.setFld_out (off lo w n : Nat) : (s.setFld off lo w n).out = s.out := State.setReg_out ..
@[simp] theorem State.setFld_clk (off lo w n : Nat) : (s.setFld off lo w n).clk = s.clk := State.setReg_clk ..
@[simp] theorem State.setFld_ing (off lo w n : Nat) : (s.setFld off lo w n).ing = s.ing := State.setReg_ing ..
@[simp] theorem State.setFld_pool (off lo w n : Nat) : (s.setFld off lo w n).pool = s.pool := State.setReg_pool ..
@[simp] theorem State.setFld_mm (off lo w n : Nat) : (s.setFld off lo w n).mm = s.mm := State.setReg_mm ..
@[simp] theorem State.setFld_sch (off lo w n : Nat) : (s.setFld off lo w n).sch = s.sch := State.setReg_sch ..
@[simp] theorem State.setFld_cores (off lo w n : Nat) : (s.setFld off lo w n).cores = s.cores := State.setReg_cores ..
@[simp] theorem State.setFld_spf (off lo w n : Nat) : (s.setFld off lo w n).spf = s.spf := State.setReg_spf ..
@[simp] theorem State.setFld_mix (off lo w n : Nat) : (s.setFld off lo w n).mix = s.mix := State.setReg_mix ..
@[simp] theorem State.setFld_dec (off lo w n : Nat) : (s.setFld off lo w n).dec = s.dec := State.setReg_dec ..
@[simp] theorem State.setFld_dac (off lo w n : Nat) : (s.setFld off lo w n).dac = s.dac := State.setReg_dac ..
@[simp] theorem State.setFld_ort (off lo w n : Nat) : (s.setFld off lo w n).ort = s.ort := State.setReg_ort ..
@[simp] theorem State.setFld_queues (off lo w n : Nat) : (s.setFld off lo w n).queues = s.queues := State.setReg_queues ..
@[simp] theorem State.setFld_con (off lo w n : Nat) : (s.setFld off lo w n).con = s.con := State.setReg_con ..
@[simp] theorem State.setFld_ctl (off lo w n : Nat) : (s.setFld off lo w n).ctl = s.ctl := State.setReg_ctl ..
@[simp] theorem State.setFld_dram (off lo w n : Nat) : (s.setFld off lo w n).dram = s.dram := State.setReg_dram ..
@[simp] theorem State.setFld_net (off lo w n : Nat) : (s.setFld off lo w n).net = s.net := State.setReg_net ..
@[simp] theorem State.setFld_svc (off lo w n : Nat) : (s.setFld off lo w n).svc = s.svc := State.setReg_svc ..
@[simp] theorem State.setFld_pwr (off lo w n : Nat) : (s.setFld off lo w n).pwr = s.pwr := State.setReg_pwr ..
@[simp] theorem State.setFld_pmu (off lo w n : Nat) : (s.setFld off lo w n).pmu = s.pmu := State.setReg_pmu ..
@[simp] theorem State.setFld_dump (off lo w n : Nat) : (s.setFld off lo w n).dump = s.dump := State.setReg_dump ..
@[simp] theorem State.setFld_deferred (off lo w n : Nat) : (s.setFld off lo w n).deferred = s.deferred := State.setReg_deferred ..
@[simp] theorem State.setFld_latches (off lo w n : Nat) : (s.setFld off lo w n).latches = s.latches := State.setReg_latches ..

/-! ### setBit -/

@[simp] theorem State.setBit_pending (off i : Nat) (b : Bool) : (s.setBit off i b).pending = s.pending := State.setFld_pending ..
@[simp] theorem State.setBit_draws (off i : Nat) (b : Bool) : (s.setBit off i b).draws = s.draws := State.setFld_draws ..
@[simp] theorem State.setBit_out (off i : Nat) (b : Bool) : (s.setBit off i b).out = s.out := State.setFld_out ..
@[simp] theorem State.setBit_clk (off i : Nat) (b : Bool) : (s.setBit off i b).clk = s.clk := State.setFld_clk ..
@[simp] theorem State.setBit_ing (off i : Nat) (b : Bool) : (s.setBit off i b).ing = s.ing := State.setFld_ing ..
@[simp] theorem State.setBit_pool (off i : Nat) (b : Bool) : (s.setBit off i b).pool = s.pool := State.setFld_pool ..
@[simp] theorem State.setBit_mm (off i : Nat) (b : Bool) : (s.setBit off i b).mm = s.mm := State.setFld_mm ..
@[simp] theorem State.setBit_sch (off i : Nat) (b : Bool) : (s.setBit off i b).sch = s.sch := State.setFld_sch ..
@[simp] theorem State.setBit_cores (off i : Nat) (b : Bool) : (s.setBit off i b).cores = s.cores := State.setFld_cores ..
@[simp] theorem State.setBit_spf (off i : Nat) (b : Bool) : (s.setBit off i b).spf = s.spf := State.setFld_spf ..
@[simp] theorem State.setBit_mix (off i : Nat) (b : Bool) : (s.setBit off i b).mix = s.mix := State.setFld_mix ..
@[simp] theorem State.setBit_dec (off i : Nat) (b : Bool) : (s.setBit off i b).dec = s.dec := State.setFld_dec ..
@[simp] theorem State.setBit_dac (off i : Nat) (b : Bool) : (s.setBit off i b).dac = s.dac := State.setFld_dac ..
@[simp] theorem State.setBit_ort (off i : Nat) (b : Bool) : (s.setBit off i b).ort = s.ort := State.setFld_ort ..
@[simp] theorem State.setBit_queues (off i : Nat) (b : Bool) : (s.setBit off i b).queues = s.queues := State.setFld_queues ..
@[simp] theorem State.setBit_con (off i : Nat) (b : Bool) : (s.setBit off i b).con = s.con := State.setFld_con ..
@[simp] theorem State.setBit_ctl (off i : Nat) (b : Bool) : (s.setBit off i b).ctl = s.ctl := State.setFld_ctl ..
@[simp] theorem State.setBit_dram (off i : Nat) (b : Bool) : (s.setBit off i b).dram = s.dram := State.setFld_dram ..
@[simp] theorem State.setBit_net (off i : Nat) (b : Bool) : (s.setBit off i b).net = s.net := State.setFld_net ..
@[simp] theorem State.setBit_svc (off i : Nat) (b : Bool) : (s.setBit off i b).svc = s.svc := State.setFld_svc ..
@[simp] theorem State.setBit_pwr (off i : Nat) (b : Bool) : (s.setBit off i b).pwr = s.pwr := State.setFld_pwr ..
@[simp] theorem State.setBit_pmu (off i : Nat) (b : Bool) : (s.setBit off i b).pmu = s.pmu := State.setFld_pmu ..
@[simp] theorem State.setBit_dump (off i : Nat) (b : Bool) : (s.setBit off i b).dump = s.dump := State.setFld_dump ..
@[simp] theorem State.setBit_deferred (off i : Nat) (b : Bool) : (s.setBit off i b).deferred = s.deferred := State.setFld_deferred ..
@[simp] theorem State.setBit_latches (off i : Nat) (b : Bool) : (s.setBit off i b).latches = s.latches := State.setFld_latches ..

/-! ### bumpBy -/

@[simp] theorem State.bumpBy_pending (off n : Nat) : (s.bumpBy off n).pending = s.pending := State.setReg_pending ..
@[simp] theorem State.bumpBy_draws (off n : Nat) : (s.bumpBy off n).draws = s.draws := State.setReg_draws ..
@[simp] theorem State.bumpBy_out (off n : Nat) : (s.bumpBy off n).out = s.out := State.setReg_out ..
@[simp] theorem State.bumpBy_clk (off n : Nat) : (s.bumpBy off n).clk = s.clk := State.setReg_clk ..
@[simp] theorem State.bumpBy_ing (off n : Nat) : (s.bumpBy off n).ing = s.ing := State.setReg_ing ..
@[simp] theorem State.bumpBy_pool (off n : Nat) : (s.bumpBy off n).pool = s.pool := State.setReg_pool ..
@[simp] theorem State.bumpBy_mm (off n : Nat) : (s.bumpBy off n).mm = s.mm := State.setReg_mm ..
@[simp] theorem State.bumpBy_sch (off n : Nat) : (s.bumpBy off n).sch = s.sch := State.setReg_sch ..
@[simp] theorem State.bumpBy_cores (off n : Nat) : (s.bumpBy off n).cores = s.cores := State.setReg_cores ..
@[simp] theorem State.bumpBy_spf (off n : Nat) : (s.bumpBy off n).spf = s.spf := State.setReg_spf ..
@[simp] theorem State.bumpBy_mix (off n : Nat) : (s.bumpBy off n).mix = s.mix := State.setReg_mix ..
@[simp] theorem State.bumpBy_dec (off n : Nat) : (s.bumpBy off n).dec = s.dec := State.setReg_dec ..
@[simp] theorem State.bumpBy_dac (off n : Nat) : (s.bumpBy off n).dac = s.dac := State.setReg_dac ..
@[simp] theorem State.bumpBy_ort (off n : Nat) : (s.bumpBy off n).ort = s.ort := State.setReg_ort ..
@[simp] theorem State.bumpBy_queues (off n : Nat) : (s.bumpBy off n).queues = s.queues := State.setReg_queues ..
@[simp] theorem State.bumpBy_con (off n : Nat) : (s.bumpBy off n).con = s.con := State.setReg_con ..
@[simp] theorem State.bumpBy_ctl (off n : Nat) : (s.bumpBy off n).ctl = s.ctl := State.setReg_ctl ..
@[simp] theorem State.bumpBy_dram (off n : Nat) : (s.bumpBy off n).dram = s.dram := State.setReg_dram ..
@[simp] theorem State.bumpBy_net (off n : Nat) : (s.bumpBy off n).net = s.net := State.setReg_net ..
@[simp] theorem State.bumpBy_svc (off n : Nat) : (s.bumpBy off n).svc = s.svc := State.setReg_svc ..
@[simp] theorem State.bumpBy_pwr (off n : Nat) : (s.bumpBy off n).pwr = s.pwr := State.setReg_pwr ..
@[simp] theorem State.bumpBy_pmu (off n : Nat) : (s.bumpBy off n).pmu = s.pmu := State.setReg_pmu ..
@[simp] theorem State.bumpBy_dump (off n : Nat) : (s.bumpBy off n).dump = s.dump := State.setReg_dump ..
@[simp] theorem State.bumpBy_deferred (off n : Nat) : (s.bumpBy off n).deferred = s.deferred := State.setReg_deferred ..
@[simp] theorem State.bumpBy_latches (off n : Nat) : (s.bumpBy off n).latches = s.latches := State.setReg_latches ..

/-! ### bump -/

@[simp] theorem State.bump_pending (off : Nat) : (s.bump off).pending = s.pending := State.bumpBy_pending ..
@[simp] theorem State.bump_draws (off : Nat) : (s.bump off).draws = s.draws := State.bumpBy_draws ..
@[simp] theorem State.bump_out (off : Nat) : (s.bump off).out = s.out := State.bumpBy_out ..
@[simp] theorem State.bump_clk (off : Nat) : (s.bump off).clk = s.clk := State.bumpBy_clk ..
@[simp] theorem State.bump_ing (off : Nat) : (s.bump off).ing = s.ing := State.bumpBy_ing ..
@[simp] theorem State.bump_pool (off : Nat) : (s.bump off).pool = s.pool := State.bumpBy_pool ..
@[simp] theorem State.bump_mm (off : Nat) : (s.bump off).mm = s.mm := State.bumpBy_mm ..
@[simp] theorem State.bump_sch (off : Nat) : (s.bump off).sch = s.sch := State.bumpBy_sch ..
@[simp] theorem State.bump_cores (off : Nat) : (s.bump off).cores = s.cores := State.bumpBy_cores ..
@[simp] theorem State.bump_spf (off : Nat) : (s.bump off).spf = s.spf := State.bumpBy_spf ..
@[simp] theorem State.bump_mix (off : Nat) : (s.bump off).mix = s.mix := State.bumpBy_mix ..
@[simp] theorem State.bump_dec (off : Nat) : (s.bump off).dec = s.dec := State.bumpBy_dec ..
@[simp] theorem State.bump_dac (off : Nat) : (s.bump off).dac = s.dac := State.bumpBy_dac ..
@[simp] theorem State.bump_ort (off : Nat) : (s.bump off).ort = s.ort := State.bumpBy_ort ..
@[simp] theorem State.bump_queues (off : Nat) : (s.bump off).queues = s.queues := State.bumpBy_queues ..
@[simp] theorem State.bump_con (off : Nat) : (s.bump off).con = s.con := State.bumpBy_con ..
@[simp] theorem State.bump_ctl (off : Nat) : (s.bump off).ctl = s.ctl := State.bumpBy_ctl ..
@[simp] theorem State.bump_dram (off : Nat) : (s.bump off).dram = s.dram := State.bumpBy_dram ..
@[simp] theorem State.bump_net (off : Nat) : (s.bump off).net = s.net := State.bumpBy_net ..
@[simp] theorem State.bump_svc (off : Nat) : (s.bump off).svc = s.svc := State.bumpBy_svc ..
@[simp] theorem State.bump_pwr (off : Nat) : (s.bump off).pwr = s.pwr := State.bumpBy_pwr ..
@[simp] theorem State.bump_pmu (off : Nat) : (s.bump off).pmu = s.pmu := State.bumpBy_pmu ..
@[simp] theorem State.bump_dump (off : Nat) : (s.bump off).dump = s.dump := State.bumpBy_dump ..
@[simp] theorem State.bump_deferred (off : Nat) : (s.bump off).deferred = s.deferred := State.bumpBy_deferred ..
@[simp] theorem State.bump_latches (off : Nat) : (s.bump off).latches = s.latches := State.bumpBy_latches ..

/-! ### pageErr -/

@[simp] theorem State.pageErr_pending (p : Nat) : (s.pageErr p).pending = s.pending := State.bump_pending ..
@[simp] theorem State.pageErr_draws (p : Nat) : (s.pageErr p).draws = s.draws := State.bump_draws ..
@[simp] theorem State.pageErr_out (p : Nat) : (s.pageErr p).out = s.out := State.bump_out ..
@[simp] theorem State.pageErr_clk (p : Nat) : (s.pageErr p).clk = s.clk := State.bump_clk ..
@[simp] theorem State.pageErr_ing (p : Nat) : (s.pageErr p).ing = s.ing := State.bump_ing ..
@[simp] theorem State.pageErr_pool (p : Nat) : (s.pageErr p).pool = s.pool := State.bump_pool ..
@[simp] theorem State.pageErr_mm (p : Nat) : (s.pageErr p).mm = s.mm := State.bump_mm ..
@[simp] theorem State.pageErr_sch (p : Nat) : (s.pageErr p).sch = s.sch := State.bump_sch ..
@[simp] theorem State.pageErr_cores (p : Nat) : (s.pageErr p).cores = s.cores := State.bump_cores ..
@[simp] theorem State.pageErr_spf (p : Nat) : (s.pageErr p).spf = s.spf := State.bump_spf ..
@[simp] theorem State.pageErr_mix (p : Nat) : (s.pageErr p).mix = s.mix := State.bump_mix ..
@[simp] theorem State.pageErr_dec (p : Nat) : (s.pageErr p).dec = s.dec := State.bump_dec ..
@[simp] theorem State.pageErr_dac (p : Nat) : (s.pageErr p).dac = s.dac := State.bump_dac ..
@[simp] theorem State.pageErr_ort (p : Nat) : (s.pageErr p).ort = s.ort := State.bump_ort ..
@[simp] theorem State.pageErr_queues (p : Nat) : (s.pageErr p).queues = s.queues := State.bump_queues ..
@[simp] theorem State.pageErr_con (p : Nat) : (s.pageErr p).con = s.con := State.bump_con ..
@[simp] theorem State.pageErr_ctl (p : Nat) : (s.pageErr p).ctl = s.ctl := State.bump_ctl ..
@[simp] theorem State.pageErr_dram (p : Nat) : (s.pageErr p).dram = s.dram := State.bump_dram ..
@[simp] theorem State.pageErr_net (p : Nat) : (s.pageErr p).net = s.net := State.bump_net ..
@[simp] theorem State.pageErr_svc (p : Nat) : (s.pageErr p).svc = s.svc := State.bump_svc ..
@[simp] theorem State.pageErr_pwr (p : Nat) : (s.pageErr p).pwr = s.pwr := State.bump_pwr ..
@[simp] theorem State.pageErr_pmu (p : Nat) : (s.pageErr p).pmu = s.pmu := State.bump_pmu ..
@[simp] theorem State.pageErr_dump (p : Nat) : (s.pageErr p).dump = s.dump := State.bump_dump ..
@[simp] theorem State.pageErr_deferred (p : Nat) : (s.pageErr p).deferred = s.deferred := State.bump_deferred ..
@[simp] theorem State.pageErr_latches (p : Nat) : (s.pageErr p).latches = s.latches := State.bump_latches ..

/-! ### pageErrFlag -/

@[simp] theorem State.pageErrFlag_pending (p b : Nat) : (s.pageErrFlag p b).pending = s.pending := (State.pageErr_pending ..).trans (State.setBit_pending ..)
@[simp] theorem State.pageErrFlag_draws (p b : Nat) : (s.pageErrFlag p b).draws = s.draws := (State.pageErr_draws ..).trans (State.setBit_draws ..)
@[simp] theorem State.pageErrFlag_out (p b : Nat) : (s.pageErrFlag p b).out = s.out := (State.pageErr_out ..).trans (State.setBit_out ..)
@[simp] theorem State.pageErrFlag_clk (p b : Nat) : (s.pageErrFlag p b).clk = s.clk := (State.pageErr_clk ..).trans (State.setBit_clk ..)
@[simp] theorem State.pageErrFlag_ing (p b : Nat) : (s.pageErrFlag p b).ing = s.ing := (State.pageErr_ing ..).trans (State.setBit_ing ..)
@[simp] theorem State.pageErrFlag_pool (p b : Nat) : (s.pageErrFlag p b).pool = s.pool := (State.pageErr_pool ..).trans (State.setBit_pool ..)
@[simp] theorem State.pageErrFlag_mm (p b : Nat) : (s.pageErrFlag p b).mm = s.mm := (State.pageErr_mm ..).trans (State.setBit_mm ..)
@[simp] theorem State.pageErrFlag_sch (p b : Nat) : (s.pageErrFlag p b).sch = s.sch := (State.pageErr_sch ..).trans (State.setBit_sch ..)
@[simp] theorem State.pageErrFlag_cores (p b : Nat) : (s.pageErrFlag p b).cores = s.cores := (State.pageErr_cores ..).trans (State.setBit_cores ..)
@[simp] theorem State.pageErrFlag_spf (p b : Nat) : (s.pageErrFlag p b).spf = s.spf := (State.pageErr_spf ..).trans (State.setBit_spf ..)
@[simp] theorem State.pageErrFlag_mix (p b : Nat) : (s.pageErrFlag p b).mix = s.mix := (State.pageErr_mix ..).trans (State.setBit_mix ..)
@[simp] theorem State.pageErrFlag_dec (p b : Nat) : (s.pageErrFlag p b).dec = s.dec := (State.pageErr_dec ..).trans (State.setBit_dec ..)
@[simp] theorem State.pageErrFlag_dac (p b : Nat) : (s.pageErrFlag p b).dac = s.dac := (State.pageErr_dac ..).trans (State.setBit_dac ..)
@[simp] theorem State.pageErrFlag_ort (p b : Nat) : (s.pageErrFlag p b).ort = s.ort := (State.pageErr_ort ..).trans (State.setBit_ort ..)
@[simp] theorem State.pageErrFlag_queues (p b : Nat) : (s.pageErrFlag p b).queues = s.queues := (State.pageErr_queues ..).trans (State.setBit_queues ..)
@[simp] theorem State.pageErrFlag_con (p b : Nat) : (s.pageErrFlag p b).con = s.con := (State.pageErr_con ..).trans (State.setBit_con ..)
@[simp] theorem State.pageErrFlag_ctl (p b : Nat) : (s.pageErrFlag p b).ctl = s.ctl := (State.pageErr_ctl ..).trans (State.setBit_ctl ..)
@[simp] theorem State.pageErrFlag_dram (p b : Nat) : (s.pageErrFlag p b).dram = s.dram := (State.pageErr_dram ..).trans (State.setBit_dram ..)
@[simp] theorem State.pageErrFlag_net (p b : Nat) : (s.pageErrFlag p b).net = s.net := (State.pageErr_net ..).trans (State.setBit_net ..)
@[simp] theorem State.pageErrFlag_svc (p b : Nat) : (s.pageErrFlag p b).svc = s.svc := (State.pageErr_svc ..).trans (State.setBit_svc ..)
@[simp] theorem State.pageErrFlag_pwr (p b : Nat) : (s.pageErrFlag p b).pwr = s.pwr := (State.pageErr_pwr ..).trans (State.setBit_pwr ..)
@[simp] theorem State.pageErrFlag_pmu (p b : Nat) : (s.pageErrFlag p b).pmu = s.pmu := (State.pageErr_pmu ..).trans (State.setBit_pmu ..)
@[simp] theorem State.pageErrFlag_dump (p b : Nat) : (s.pageErrFlag p b).dump = s.dump := (State.pageErr_dump ..).trans (State.setBit_dump ..)
@[simp] theorem State.pageErrFlag_deferred (p b : Nat) : (s.pageErrFlag p b).deferred = s.deferred := (State.pageErr_deferred ..).trans (State.setBit_deferred ..)
@[simp] theorem State.pageErrFlag_latches (p b : Nat) : (s.pageErrFlag p b).latches = s.latches := (State.pageErr_latches ..).trans (State.setBit_latches ..)

/-! ### draining -/

@[simp] theorem State.draining_pending (p : Nat) : (s.draining p).pending = s.pending := (State.setBit_pending ..).trans (State.setBit_pending ..)
@[simp] theorem State.draining_draws (p : Nat) : (s.draining p).draws = s.draws := (State.setBit_draws ..).trans (State.setBit_draws ..)
@[simp] theorem State.draining_out (p : Nat) : (s.draining p).out = s.out := (State.setBit_out ..).trans (State.setBit_out ..)
@[simp] theorem State.draining_clk (p : Nat) : (s.draining p).clk = s.clk := (State.setBit_clk ..).trans (State.setBit_clk ..)
@[simp] theorem State.draining_ing (p : Nat) : (s.draining p).ing = s.ing := (State.setBit_ing ..).trans (State.setBit_ing ..)
@[simp] theorem State.draining_pool (p : Nat) : (s.draining p).pool = s.pool := (State.setBit_pool ..).trans (State.setBit_pool ..)
@[simp] theorem State.draining_mm (p : Nat) : (s.draining p).mm = s.mm := (State.setBit_mm ..).trans (State.setBit_mm ..)
@[simp] theorem State.draining_sch (p : Nat) : (s.draining p).sch = s.sch := (State.setBit_sch ..).trans (State.setBit_sch ..)
@[simp] theorem State.draining_cores (p : Nat) : (s.draining p).cores = s.cores := (State.setBit_cores ..).trans (State.setBit_cores ..)
@[simp] theorem State.draining_spf (p : Nat) : (s.draining p).spf = s.spf := (State.setBit_spf ..).trans (State.setBit_spf ..)
@[simp] theorem State.draining_mix (p : Nat) : (s.draining p).mix = s.mix := (State.setBit_mix ..).trans (State.setBit_mix ..)
@[simp] theorem State.draining_dec (p : Nat) : (s.draining p).dec = s.dec := (State.setBit_dec ..).trans (State.setBit_dec ..)
@[simp] theorem State.draining_dac (p : Nat) : (s.draining p).dac = s.dac := (State.setBit_dac ..).trans (State.setBit_dac ..)
@[simp] theorem State.draining_ort (p : Nat) : (s.draining p).ort = s.ort := (State.setBit_ort ..).trans (State.setBit_ort ..)
@[simp] theorem State.draining_queues (p : Nat) : (s.draining p).queues = s.queues := (State.setBit_queues ..).trans (State.setBit_queues ..)
@[simp] theorem State.draining_con (p : Nat) : (s.draining p).con = s.con := (State.setBit_con ..).trans (State.setBit_con ..)
@[simp] theorem State.draining_ctl (p : Nat) : (s.draining p).ctl = s.ctl := (State.setBit_ctl ..).trans (State.setBit_ctl ..)
@[simp] theorem State.draining_dram (p : Nat) : (s.draining p).dram = s.dram := (State.setBit_dram ..).trans (State.setBit_dram ..)
@[simp] theorem State.draining_net (p : Nat) : (s.draining p).net = s.net := (State.setBit_net ..).trans (State.setBit_net ..)
@[simp] theorem State.draining_svc (p : Nat) : (s.draining p).svc = s.svc := (State.setBit_svc ..).trans (State.setBit_svc ..)
@[simp] theorem State.draining_pwr (p : Nat) : (s.draining p).pwr = s.pwr := (State.setBit_pwr ..).trans (State.setBit_pwr ..)
@[simp] theorem State.draining_pmu (p : Nat) : (s.draining p).pmu = s.pmu := (State.setBit_pmu ..).trans (State.setBit_pmu ..)
@[simp] theorem State.draining_dump (p : Nat) : (s.draining p).dump = s.dump := (State.setBit_dump ..).trans (State.setBit_dump ..)
@[simp] theorem State.draining_deferred (p : Nat) : (s.draining p).deferred = s.deferred := (State.setBit_deferred ..).trans (State.setBit_deferred ..)
@[simp] theorem State.draining_latches (p : Nat) : (s.draining p).latches = s.latches := (State.setBit_latches ..).trans (State.setBit_latches ..)

/-! ### refuseCfg -/

@[simp] theorem State.refuseCfg_pending (off b p : Nat) : (s.refuseCfg off b p).pending = s.pending := (State.pageErr_pending ..).trans (State.setBit_pending ..)
@[simp] theorem State.refuseCfg_draws (off b p : Nat) : (s.refuseCfg off b p).draws = s.draws := (State.pageErr_draws ..).trans (State.setBit_draws ..)
@[simp] theorem State.refuseCfg_out (off b p : Nat) : (s.refuseCfg off b p).out = s.out := (State.pageErr_out ..).trans (State.setBit_out ..)
@[simp] theorem State.refuseCfg_clk (off b p : Nat) : (s.refuseCfg off b p).clk = s.clk := (State.pageErr_clk ..).trans (State.setBit_clk ..)
@[simp] theorem State.refuseCfg_ing (off b p : Nat) : (s.refuseCfg off b p).ing = s.ing := (State.pageErr_ing ..).trans (State.setBit_ing ..)
@[simp] theorem State.refuseCfg_pool (off b p : Nat) : (s.refuseCfg off b p).pool = s.pool := (State.pageErr_pool ..).trans (State.setBit_pool ..)
@[simp] theorem State.refuseCfg_mm (off b p : Nat) : (s.refuseCfg off b p).mm = s.mm := (State.pageErr_mm ..).trans (State.setBit_mm ..)
@[simp] theorem State.refuseCfg_sch (off b p : Nat) : (s.refuseCfg off b p).sch = s.sch := (State.pageErr_sch ..).trans (State.setBit_sch ..)
@[simp] theorem State.refuseCfg_cores (off b p : Nat) : (s.refuseCfg off b p).cores = s.cores := (State.pageErr_cores ..).trans (State.setBit_cores ..)
@[simp] theorem State.refuseCfg_spf (off b p : Nat) : (s.refuseCfg off b p).spf = s.spf := (State.pageErr_spf ..).trans (State.setBit_spf ..)
@[simp] theorem State.refuseCfg_mix (off b p : Nat) : (s.refuseCfg off b p).mix = s.mix := (State.pageErr_mix ..).trans (State.setBit_mix ..)
@[simp] theorem State.refuseCfg_dec (off b p : Nat) : (s.refuseCfg off b p).dec = s.dec := (State.pageErr_dec ..).trans (State.setBit_dec ..)
@[simp] theorem State.refuseCfg_dac (off b p : Nat) : (s.refuseCfg off b p).dac = s.dac := (State.pageErr_dac ..).trans (State.setBit_dac ..)
@[simp] theorem State.refuseCfg_ort (off b p : Nat) : (s.refuseCfg off b p).ort = s.ort := (State.pageErr_ort ..).trans (State.setBit_ort ..)
@[simp] theorem State.refuseCfg_queues (off b p : Nat) : (s.refuseCfg off b p).queues = s.queues := (State.pageErr_queues ..).trans (State.setBit_queues ..)
@[simp] theorem State.refuseCfg_con (off b p : Nat) : (s.refuseCfg off b p).con = s.con := (State.pageErr_con ..).trans (State.setBit_con ..)
@[simp] theorem State.refuseCfg_ctl (off b p : Nat) : (s.refuseCfg off b p).ctl = s.ctl := (State.pageErr_ctl ..).trans (State.setBit_ctl ..)
@[simp] theorem State.refuseCfg_dram (off b p : Nat) : (s.refuseCfg off b p).dram = s.dram := (State.pageErr_dram ..).trans (State.setBit_dram ..)
@[simp] theorem State.refuseCfg_net (off b p : Nat) : (s.refuseCfg off b p).net = s.net := (State.pageErr_net ..).trans (State.setBit_net ..)
@[simp] theorem State.refuseCfg_svc (off b p : Nat) : (s.refuseCfg off b p).svc = s.svc := (State.pageErr_svc ..).trans (State.setBit_svc ..)
@[simp] theorem State.refuseCfg_pwr (off b p : Nat) : (s.refuseCfg off b p).pwr = s.pwr := (State.pageErr_pwr ..).trans (State.setBit_pwr ..)
@[simp] theorem State.refuseCfg_pmu (off b p : Nat) : (s.refuseCfg off b p).pmu = s.pmu := (State.pageErr_pmu ..).trans (State.setBit_pmu ..)
@[simp] theorem State.refuseCfg_dump (off b p : Nat) : (s.refuseCfg off b p).dump = s.dump := (State.pageErr_dump ..).trans (State.setBit_dump ..)
@[simp] theorem State.refuseCfg_deferred (off b p : Nat) : (s.refuseCfg off b p).deferred = s.deferred := (State.pageErr_deferred ..).trans (State.setBit_deferred ..)
@[simp] theorem State.refuseCfg_latches (off b p : Nat) : (s.refuseCfg off b p).latches = s.latches := (State.pageErr_latches ..).trans (State.setBit_latches ..)

/-! ### count -/

@[simp] theorem State.count_pending (i n : Nat) : (s.count i n).pending = s.pending := rfl
@[simp] theorem State.count_regs (i n : Nat) : (s.count i n).regs = s.regs := rfl
@[simp] theorem State.count_draws (i n : Nat) : (s.count i n).draws = s.draws := rfl
@[simp] theorem State.count_out (i n : Nat) : (s.count i n).out = s.out := rfl
@[simp] theorem State.count_clk (i n : Nat) : (s.count i n).clk = s.clk := rfl
@[simp] theorem State.count_ing (i n : Nat) : (s.count i n).ing = s.ing := rfl
@[simp] theorem State.count_pool (i n : Nat) : (s.count i n).pool = s.pool := rfl
@[simp] theorem State.count_mm (i n : Nat) : (s.count i n).mm = s.mm := rfl
@[simp] theorem State.count_sch (i n : Nat) : (s.count i n).sch = s.sch := rfl
@[simp] theorem State.count_cores (i n : Nat) : (s.count i n).cores = s.cores := rfl
@[simp] theorem State.count_spf (i n : Nat) : (s.count i n).spf = s.spf := rfl
@[simp] theorem State.count_mix (i n : Nat) : (s.count i n).mix = s.mix := rfl
@[simp] theorem State.count_dec (i n : Nat) : (s.count i n).dec = s.dec := rfl
@[simp] theorem State.count_dac (i n : Nat) : (s.count i n).dac = s.dac := rfl
@[simp] theorem State.count_ort (i n : Nat) : (s.count i n).ort = s.ort := rfl
@[simp] theorem State.count_queues (i n : Nat) : (s.count i n).queues = s.queues := rfl
@[simp] theorem State.count_con (i n : Nat) : (s.count i n).con = s.con := rfl
@[simp] theorem State.count_ctl (i n : Nat) : (s.count i n).ctl = s.ctl := rfl
@[simp] theorem State.count_dram (i n : Nat) : (s.count i n).dram = s.dram := rfl
@[simp] theorem State.count_net (i n : Nat) : (s.count i n).net = s.net := rfl
@[simp] theorem State.count_svc (i n : Nat) : (s.count i n).svc = s.svc := rfl
@[simp] theorem State.count_pwr (i n : Nat) : (s.count i n).pwr = s.pwr := rfl
@[simp] theorem State.count_dump (i n : Nat) : (s.count i n).dump = s.dump := rfl
@[simp] theorem State.count_deferred (i n : Nat) : (s.count i n).deferred = s.deferred := rfl
@[simp] theorem State.count_latches (i n : Nat) : (s.count i n).latches = s.latches := rfl

/-! ### send -/

@[simp] theorem State.send_pending (x : Sent) : (s.send x).pending = s.pending := rfl
@[simp] theorem State.send_regs (x : Sent) : (s.send x).regs = s.regs := rfl
@[simp] theorem State.send_draws (x : Sent) : (s.send x).draws = s.draws := rfl
@[simp] theorem State.send_clk (x : Sent) : (s.send x).clk = s.clk := rfl
@[simp] theorem State.send_ing (x : Sent) : (s.send x).ing = s.ing := rfl
@[simp] theorem State.send_pool (x : Sent) : (s.send x).pool = s.pool := rfl
@[simp] theorem State.send_mm (x : Sent) : (s.send x).mm = s.mm := rfl
@[simp] theorem State.send_sch (x : Sent) : (s.send x).sch = s.sch := rfl
@[simp] theorem State.send_cores (x : Sent) : (s.send x).cores = s.cores := rfl
@[simp] theorem State.send_spf (x : Sent) : (s.send x).spf = s.spf := rfl
@[simp] theorem State.send_mix (x : Sent) : (s.send x).mix = s.mix := rfl
@[simp] theorem State.send_dec (x : Sent) : (s.send x).dec = s.dec := rfl
@[simp] theorem State.send_dac (x : Sent) : (s.send x).dac = s.dac := rfl
@[simp] theorem State.send_ort (x : Sent) : (s.send x).ort = s.ort := rfl
@[simp] theorem State.send_queues (x : Sent) : (s.send x).queues = s.queues := rfl
@[simp] theorem State.send_con (x : Sent) : (s.send x).con = s.con := rfl
@[simp] theorem State.send_ctl (x : Sent) : (s.send x).ctl = s.ctl := rfl
@[simp] theorem State.send_dram (x : Sent) : (s.send x).dram = s.dram := rfl
@[simp] theorem State.send_net (x : Sent) : (s.send x).net = s.net := rfl
@[simp] theorem State.send_svc (x : Sent) : (s.send x).svc = s.svc := rfl
@[simp] theorem State.send_pwr (x : Sent) : (s.send x).pwr = s.pwr := rfl
@[simp] theorem State.send_pmu (x : Sent) : (s.send x).pmu = s.pmu := rfl
@[simp] theorem State.send_dump (x : Sent) : (s.send x).dump = s.dump := rfl
@[simp] theorem State.send_deferred (x : Sent) : (s.send x).deferred = s.deferred := rfl
@[simp] theorem State.send_latches (x : Sent) : (s.send x).latches = s.latches := rfl

/-! ### setConByte -/

@[simp] theorem State.setConByte_pending (a : Nat) (v : Byte) : (s.setConByte a v).pending = s.pending := rfl
@[simp] theorem State.setConByte_regs (a : Nat) (v : Byte) : (s.setConByte a v).regs = s.regs := rfl
@[simp] theorem State.setConByte_draws (a : Nat) (v : Byte) : (s.setConByte a v).draws = s.draws := rfl
@[simp] theorem State.setConByte_out (a : Nat) (v : Byte) : (s.setConByte a v).out = s.out := rfl
@[simp] theorem State.setConByte_clk (a : Nat) (v : Byte) : (s.setConByte a v).clk = s.clk := rfl
@[simp] theorem State.setConByte_ing (a : Nat) (v : Byte) : (s.setConByte a v).ing = s.ing := rfl
@[simp] theorem State.setConByte_pool (a : Nat) (v : Byte) : (s.setConByte a v).pool = s.pool := rfl
@[simp] theorem State.setConByte_mm (a : Nat) (v : Byte) : (s.setConByte a v).mm = s.mm := rfl
@[simp] theorem State.setConByte_sch (a : Nat) (v : Byte) : (s.setConByte a v).sch = s.sch := rfl
@[simp] theorem State.setConByte_cores (a : Nat) (v : Byte) : (s.setConByte a v).cores = s.cores := rfl
@[simp] theorem State.setConByte_spf (a : Nat) (v : Byte) : (s.setConByte a v).spf = s.spf := rfl
@[simp] theorem State.setConByte_mix (a : Nat) (v : Byte) : (s.setConByte a v).mix = s.mix := rfl
@[simp] theorem State.setConByte_dec (a : Nat) (v : Byte) : (s.setConByte a v).dec = s.dec := rfl
@[simp] theorem State.setConByte_dac (a : Nat) (v : Byte) : (s.setConByte a v).dac = s.dac := rfl
@[simp] theorem State.setConByte_ort (a : Nat) (v : Byte) : (s.setConByte a v).ort = s.ort := rfl
@[simp] theorem State.setConByte_queues (a : Nat) (v : Byte) : (s.setConByte a v).queues = s.queues := rfl
@[simp] theorem State.setConByte_ctl (a : Nat) (v : Byte) : (s.setConByte a v).ctl = s.ctl := rfl
@[simp] theorem State.setConByte_dram (a : Nat) (v : Byte) : (s.setConByte a v).dram = s.dram := rfl
@[simp] theorem State.setConByte_net (a : Nat) (v : Byte) : (s.setConByte a v).net = s.net := rfl
@[simp] theorem State.setConByte_svc (a : Nat) (v : Byte) : (s.setConByte a v).svc = s.svc := rfl
@[simp] theorem State.setConByte_pwr (a : Nat) (v : Byte) : (s.setConByte a v).pwr = s.pwr := rfl
@[simp] theorem State.setConByte_pmu (a : Nat) (v : Byte) : (s.setConByte a v).pmu = s.pmu := rfl
@[simp] theorem State.setConByte_dump (a : Nat) (v : Byte) : (s.setConByte a v).dump = s.dump := rfl
@[simp] theorem State.setConByte_deferred (a : Nat) (v : Byte) : (s.setConByte a v).deferred = s.deferred := rfl
@[simp] theorem State.setConByte_latches (a : Nat) (v : Byte) : (s.setConByte a v).latches = s.latches := rfl

/-! ### clearCon -/

@[simp] theorem State.clearCon_pending (a n : Nat) : (s.clearCon a n).pending = s.pending := rfl
@[simp] theorem State.clearCon_regs (a n : Nat) : (s.clearCon a n).regs = s.regs := rfl
@[simp] theorem State.clearCon_draws (a n : Nat) : (s.clearCon a n).draws = s.draws := rfl
@[simp] theorem State.clearCon_out (a n : Nat) : (s.clearCon a n).out = s.out := rfl
@[simp] theorem State.clearCon_clk (a n : Nat) : (s.clearCon a n).clk = s.clk := rfl
@[simp] theorem State.clearCon_ing (a n : Nat) : (s.clearCon a n).ing = s.ing := rfl
@[simp] theorem State.clearCon_pool (a n : Nat) : (s.clearCon a n).pool = s.pool := rfl
@[simp] theorem State.clearCon_mm (a n : Nat) : (s.clearCon a n).mm = s.mm := rfl
@[simp] theorem State.clearCon_sch (a n : Nat) : (s.clearCon a n).sch = s.sch := rfl
@[simp] theorem State.clearCon_cores (a n : Nat) : (s.clearCon a n).cores = s.cores := rfl
@[simp] theorem State.clearCon_spf (a n : Nat) : (s.clearCon a n).spf = s.spf := rfl
@[simp] theorem State.clearCon_mix (a n : Nat) : (s.clearCon a n).mix = s.mix := rfl
@[simp] theorem State.clearCon_dec (a n : Nat) : (s.clearCon a n).dec = s.dec := rfl
@[simp] theorem State.clearCon_dac (a n : Nat) : (s.clearCon a n).dac = s.dac := rfl
@[simp] theorem State.clearCon_ort (a n : Nat) : (s.clearCon a n).ort = s.ort := rfl
@[simp] theorem State.clearCon_queues (a n : Nat) : (s.clearCon a n).queues = s.queues := rfl
@[simp] theorem State.clearCon_ctl (a n : Nat) : (s.clearCon a n).ctl = s.ctl := rfl
@[simp] theorem State.clearCon_dram (a n : Nat) : (s.clearCon a n).dram = s.dram := rfl
@[simp] theorem State.clearCon_net (a n : Nat) : (s.clearCon a n).net = s.net := rfl
@[simp] theorem State.clearCon_svc (a n : Nat) : (s.clearCon a n).svc = s.svc := rfl
@[simp] theorem State.clearCon_pwr (a n : Nat) : (s.clearCon a n).pwr = s.pwr := rfl
@[simp] theorem State.clearCon_pmu (a n : Nat) : (s.clearCon a n).pmu = s.pmu := rfl
@[simp] theorem State.clearCon_dump (a n : Nat) : (s.clearCon a n).dump = s.dump := rfl
@[simp] theorem State.clearCon_deferred (a n : Nat) : (s.clearCon a n).deferred = s.deferred := rfl
@[simp] theorem State.clearCon_latches (a n : Nat) : (s.clearCon a n).latches = s.latches := rfl

/-! ### setSlot -/

@[simp] theorem State.setSlot_pending (k : Nat) (x : Slot) : (s.setSlot k x).pending = s.pending := rfl
@[simp] theorem State.setSlot_regs (k : Nat) (x : Slot) : (s.setSlot k x).regs = s.regs := rfl
@[simp] theorem State.setSlot_draws (k : Nat) (x : Slot) : (s.setSlot k x).draws = s.draws := rfl
@[simp] theorem State.setSlot_out (k : Nat) (x : Slot) : (s.setSlot k x).out = s.out := rfl
@[simp] theorem State.setSlot_clk (k : Nat) (x : Slot) : (s.setSlot k x).clk = s.clk := rfl
@[simp] theorem State.setSlot_ing (k : Nat) (x : Slot) : (s.setSlot k x).ing = s.ing := rfl
@[simp] theorem State.setSlot_mm (k : Nat) (x : Slot) : (s.setSlot k x).mm = s.mm := rfl
@[simp] theorem State.setSlot_sch (k : Nat) (x : Slot) : (s.setSlot k x).sch = s.sch := rfl
@[simp] theorem State.setSlot_cores (k : Nat) (x : Slot) : (s.setSlot k x).cores = s.cores := rfl
@[simp] theorem State.setSlot_spf (k : Nat) (x : Slot) : (s.setSlot k x).spf = s.spf := rfl
@[simp] theorem State.setSlot_mix (k : Nat) (x : Slot) : (s.setSlot k x).mix = s.mix := rfl
@[simp] theorem State.setSlot_dec (k : Nat) (x : Slot) : (s.setSlot k x).dec = s.dec := rfl
@[simp] theorem State.setSlot_dac (k : Nat) (x : Slot) : (s.setSlot k x).dac = s.dac := rfl
@[simp] theorem State.setSlot_ort (k : Nat) (x : Slot) : (s.setSlot k x).ort = s.ort := rfl
@[simp] theorem State.setSlot_queues (k : Nat) (x : Slot) : (s.setSlot k x).queues = s.queues := rfl
@[simp] theorem State.setSlot_con (k : Nat) (x : Slot) : (s.setSlot k x).con = s.con := rfl
@[simp] theorem State.setSlot_ctl (k : Nat) (x : Slot) : (s.setSlot k x).ctl = s.ctl := rfl
@[simp] theorem State.setSlot_dram (k : Nat) (x : Slot) : (s.setSlot k x).dram = s.dram := rfl
@[simp] theorem State.setSlot_net (k : Nat) (x : Slot) : (s.setSlot k x).net = s.net := rfl
@[simp] theorem State.setSlot_svc (k : Nat) (x : Slot) : (s.setSlot k x).svc = s.svc := rfl
@[simp] theorem State.setSlot_pwr (k : Nat) (x : Slot) : (s.setSlot k x).pwr = s.pwr := rfl
@[simp] theorem State.setSlot_pmu (k : Nat) (x : Slot) : (s.setSlot k x).pmu = s.pmu := rfl
@[simp] theorem State.setSlot_dump (k : Nat) (x : Slot) : (s.setSlot k x).dump = s.dump := rfl
@[simp] theorem State.setSlot_deferred (k : Nat) (x : Slot) : (s.setSlot k x).deferred = s.deferred := rfl
@[simp] theorem State.setSlot_latches (k : Nat) (x : Slot) : (s.setSlot k x).latches = s.latches := rfl

/-! ### updSlot -/

@[simp] theorem State.updSlot_pending (k : Nat) (f : Slot → Slot) : (s.updSlot k f).pending = s.pending := State.setSlot_pending ..
@[simp] theorem State.updSlot_regs (k : Nat) (f : Slot → Slot) : (s.updSlot k f).regs = s.regs := State.setSlot_regs ..
@[simp] theorem State.updSlot_draws (k : Nat) (f : Slot → Slot) : (s.updSlot k f).draws = s.draws := State.setSlot_draws ..
@[simp] theorem State.updSlot_out (k : Nat) (f : Slot → Slot) : (s.updSlot k f).out = s.out := State.setSlot_out ..
@[simp] theorem State.updSlot_clk (k : Nat) (f : Slot → Slot) : (s.updSlot k f).clk = s.clk := State.setSlot_clk ..
@[simp] theorem State.updSlot_ing (k : Nat) (f : Slot → Slot) : (s.updSlot k f).ing = s.ing := State.setSlot_ing ..
@[simp] theorem State.updSlot_mm (k : Nat) (f : Slot → Slot) : (s.updSlot k f).mm = s.mm := State.setSlot_mm ..
@[simp] theorem State.updSlot_sch (k : Nat) (f : Slot → Slot) : (s.updSlot k f).sch = s.sch := State.setSlot_sch ..
@[simp] theorem State.updSlot_cores (k : Nat) (f : Slot → Slot) : (s.updSlot k f).cores = s.cores := State.setSlot_cores ..
@[simp] theorem State.updSlot_spf (k : Nat) (f : Slot → Slot) : (s.updSlot k f).spf = s.spf := State.setSlot_spf ..
@[simp] theorem State.updSlot_mix (k : Nat) (f : Slot → Slot) : (s.updSlot k f).mix = s.mix := State.setSlot_mix ..
@[simp] theorem State.updSlot_dec (k : Nat) (f : Slot → Slot) : (s.updSlot k f).dec = s.dec := State.setSlot_dec ..
@[simp] theorem State.updSlot_dac (k : Nat) (f : Slot → Slot) : (s.updSlot k f).dac = s.dac := State.setSlot_dac ..
@[simp] theorem State.updSlot_ort (k : Nat) (f : Slot → Slot) : (s.updSlot k f).ort = s.ort := State.setSlot_ort ..
@[simp] theorem State.updSlot_queues (k : Nat) (f : Slot → Slot) : (s.updSlot k f).queues = s.queues := State.setSlot_queues ..
@[simp] theorem State.updSlot_con (k : Nat) (f : Slot → Slot) : (s.updSlot k f).con = s.con := State.setSlot_con ..
@[simp] theorem State.updSlot_ctl (k : Nat) (f : Slot → Slot) : (s.updSlot k f).ctl = s.ctl := State.setSlot_ctl ..
@[simp] theorem State.updSlot_dram (k : Nat) (f : Slot → Slot) : (s.updSlot k f).dram = s.dram := State.setSlot_dram ..
@[simp] theorem State.updSlot_net (k : Nat) (f : Slot → Slot) : (s.updSlot k f).net = s.net := State.setSlot_net ..
@[simp] theorem State.updSlot_svc (k : Nat) (f : Slot → Slot) : (s.updSlot k f).svc = s.svc := State.setSlot_svc ..
@[simp] theorem State.updSlot_pwr (k : Nat) (f : Slot → Slot) : (s.updSlot k f).pwr = s.pwr := State.setSlot_pwr ..
@[simp] theorem State.updSlot_pmu (k : Nat) (f : Slot → Slot) : (s.updSlot k f).pmu = s.pmu := State.setSlot_pmu ..
@[simp] theorem State.updSlot_dump (k : Nat) (f : Slot → Slot) : (s.updSlot k f).dump = s.dump := State.setSlot_dump ..
@[simp] theorem State.updSlot_deferred (k : Nat) (f : Slot → Slot) : (s.updSlot k f).deferred = s.deferred := State.setSlot_deferred ..
@[simp] theorem State.updSlot_latches (k : Nat) (f : Slot → Slot) : (s.updSlot k f).latches = s.latches := State.setSlot_latches ..

/-! ### setCore -/

@[simp] theorem State.setCore_pending (n : Nat) (c : Core) : (s.setCore n c).pending = s.pending := rfl
@[simp] theorem State.setCore_regs (n : Nat) (c : Core) : (s.setCore n c).regs = s.regs := rfl
@[simp] theorem State.setCore_draws (n : Nat) (c : Core) : (s.setCore n c).draws = s.draws := rfl
@[simp] theorem State.setCore_out (n : Nat) (c : Core) : (s.setCore n c).out = s.out := rfl
@[simp] theorem State.setCore_clk (n : Nat) (c : Core) : (s.setCore n c).clk = s.clk := rfl
@[simp] theorem State.setCore_ing (n : Nat) (c : Core) : (s.setCore n c).ing = s.ing := rfl
@[simp] theorem State.setCore_pool (n : Nat) (c : Core) : (s.setCore n c).pool = s.pool := rfl
@[simp] theorem State.setCore_mm (n : Nat) (c : Core) : (s.setCore n c).mm = s.mm := rfl
@[simp] theorem State.setCore_sch (n : Nat) (c : Core) : (s.setCore n c).sch = s.sch := rfl
@[simp] theorem State.setCore_spf (n : Nat) (c : Core) : (s.setCore n c).spf = s.spf := rfl
@[simp] theorem State.setCore_mix (n : Nat) (c : Core) : (s.setCore n c).mix = s.mix := rfl
@[simp] theorem State.setCore_dec (n : Nat) (c : Core) : (s.setCore n c).dec = s.dec := rfl
@[simp] theorem State.setCore_dac (n : Nat) (c : Core) : (s.setCore n c).dac = s.dac := rfl
@[simp] theorem State.setCore_ort (n : Nat) (c : Core) : (s.setCore n c).ort = s.ort := rfl
@[simp] theorem State.setCore_queues (n : Nat) (c : Core) : (s.setCore n c).queues = s.queues := rfl
@[simp] theorem State.setCore_con (n : Nat) (c : Core) : (s.setCore n c).con = s.con := rfl
@[simp] theorem State.setCore_ctl (n : Nat) (c : Core) : (s.setCore n c).ctl = s.ctl := rfl
@[simp] theorem State.setCore_dram (n : Nat) (c : Core) : (s.setCore n c).dram = s.dram := rfl
@[simp] theorem State.setCore_net (n : Nat) (c : Core) : (s.setCore n c).net = s.net := rfl
@[simp] theorem State.setCore_svc (n : Nat) (c : Core) : (s.setCore n c).svc = s.svc := rfl
@[simp] theorem State.setCore_pwr (n : Nat) (c : Core) : (s.setCore n c).pwr = s.pwr := rfl
@[simp] theorem State.setCore_pmu (n : Nat) (c : Core) : (s.setCore n c).pmu = s.pmu := rfl
@[simp] theorem State.setCore_dump (n : Nat) (c : Core) : (s.setCore n c).dump = s.dump := rfl
@[simp] theorem State.setCore_deferred (n : Nat) (c : Core) : (s.setCore n c).deferred = s.deferred := rfl
@[simp] theorem State.setCore_latches (n : Nat) (c : Core) : (s.setCore n c).latches = s.latches := rfl

/-! ### updCore -/

@[simp] theorem State.updCore_pending (n : Nat) (f : Core → Core) : (s.updCore n f).pending = s.pending := State.setCore_pending ..
@[simp] theorem State.updCore_regs (n : Nat) (f : Core → Core) : (s.updCore n f).regs = s.regs := State.setCore_regs ..
@[simp] theorem State.updCore_draws (n : Nat) (f : Core → Core) : (s.updCore n f).draws = s.draws := State.setCore_draws ..
@[simp] theorem State.updCore_out (n : Nat) (f : Core → Core) : (s.updCore n f).out = s.out := State.setCore_out ..
@[simp] theorem State.updCore_clk (n : Nat) (f : Core → Core) : (s.updCore n f).clk = s.clk := State.setCore_clk ..
@[simp] theorem State.updCore_ing (n : Nat) (f : Core → Core) : (s.updCore n f).ing = s.ing := State.setCore_ing ..
@[simp] theorem State.updCore_pool (n : Nat) (f : Core → Core) : (s.updCore n f).pool = s.pool := State.setCore_pool ..
@[simp] theorem State.updCore_mm (n : Nat) (f : Core → Core) : (s.updCore n f).mm = s.mm := State.setCore_mm ..
@[simp] theorem State.updCore_sch (n : Nat) (f : Core → Core) : (s.updCore n f).sch = s.sch := State.setCore_sch ..
@[simp] theorem State.updCore_spf (n : Nat) (f : Core → Core) : (s.updCore n f).spf = s.spf := State.setCore_spf ..
@[simp] theorem State.updCore_mix (n : Nat) (f : Core → Core) : (s.updCore n f).mix = s.mix := State.setCore_mix ..
@[simp] theorem State.updCore_dec (n : Nat) (f : Core → Core) : (s.updCore n f).dec = s.dec := State.setCore_dec ..
@[simp] theorem State.updCore_dac (n : Nat) (f : Core → Core) : (s.updCore n f).dac = s.dac := State.setCore_dac ..
@[simp] theorem State.updCore_ort (n : Nat) (f : Core → Core) : (s.updCore n f).ort = s.ort := State.setCore_ort ..
@[simp] theorem State.updCore_queues (n : Nat) (f : Core → Core) : (s.updCore n f).queues = s.queues := State.setCore_queues ..
@[simp] theorem State.updCore_con (n : Nat) (f : Core → Core) : (s.updCore n f).con = s.con := State.setCore_con ..
@[simp] theorem State.updCore_ctl (n : Nat) (f : Core → Core) : (s.updCore n f).ctl = s.ctl := State.setCore_ctl ..
@[simp] theorem State.updCore_dram (n : Nat) (f : Core → Core) : (s.updCore n f).dram = s.dram := State.setCore_dram ..
@[simp] theorem State.updCore_net (n : Nat) (f : Core → Core) : (s.updCore n f).net = s.net := State.setCore_net ..
@[simp] theorem State.updCore_svc (n : Nat) (f : Core → Core) : (s.updCore n f).svc = s.svc := State.setCore_svc ..
@[simp] theorem State.updCore_pwr (n : Nat) (f : Core → Core) : (s.updCore n f).pwr = s.pwr := State.setCore_pwr ..
@[simp] theorem State.updCore_pmu (n : Nat) (f : Core → Core) : (s.updCore n f).pmu = s.pmu := State.setCore_pmu ..
@[simp] theorem State.updCore_dump (n : Nat) (f : Core → Core) : (s.updCore n f).dump = s.dump := State.setCore_dump ..
@[simp] theorem State.updCore_deferred (n : Nat) (f : Core → Core) : (s.updCore n f).deferred = s.deferred := State.setCore_deferred ..
@[simp] theorem State.updCore_latches (n : Nat) (f : Core → Core) : (s.updCore n f).latches = s.latches := State.setCore_latches ..

/-! ### setStream -/

@[simp] theorem State.setStream_pending (k j : Nat) (x : Stream) : (s.setStream k j x).pending = s.pending := rfl
@[simp] theorem State.setStream_regs (k j : Nat) (x : Stream) : (s.setStream k j x).regs = s.regs := rfl
@[simp] theorem State.setStream_draws (k j : Nat) (x : Stream) : (s.setStream k j x).draws = s.draws := rfl
@[simp] theorem State.setStream_out (k j : Nat) (x : Stream) : (s.setStream k j x).out = s.out := rfl
@[simp] theorem State.setStream_clk (k j : Nat) (x : Stream) : (s.setStream k j x).clk = s.clk := rfl
@[simp] theorem State.setStream_ing (k j : Nat) (x : Stream) : (s.setStream k j x).ing = s.ing := rfl
@[simp] theorem State.setStream_pool (k j : Nat) (x : Stream) : (s.setStream k j x).pool = s.pool := rfl
@[simp] theorem State.setStream_mm (k j : Nat) (x : Stream) : (s.setStream k j x).mm = s.mm := rfl
@[simp] theorem State.setStream_sch (k j : Nat) (x : Stream) : (s.setStream k j x).sch = s.sch := rfl
@[simp] theorem State.setStream_cores (k j : Nat) (x : Stream) : (s.setStream k j x).cores = s.cores := rfl
@[simp] theorem State.setStream_mix (k j : Nat) (x : Stream) : (s.setStream k j x).mix = s.mix := rfl
@[simp] theorem State.setStream_dec (k j : Nat) (x : Stream) : (s.setStream k j x).dec = s.dec := rfl
@[simp] theorem State.setStream_dac (k j : Nat) (x : Stream) : (s.setStream k j x).dac = s.dac := rfl
@[simp] theorem State.setStream_ort (k j : Nat) (x : Stream) : (s.setStream k j x).ort = s.ort := rfl
@[simp] theorem State.setStream_queues (k j : Nat) (x : Stream) : (s.setStream k j x).queues = s.queues := rfl
@[simp] theorem State.setStream_con (k j : Nat) (x : Stream) : (s.setStream k j x).con = s.con := rfl
@[simp] theorem State.setStream_ctl (k j : Nat) (x : Stream) : (s.setStream k j x).ctl = s.ctl := rfl
@[simp] theorem State.setStream_dram (k j : Nat) (x : Stream) : (s.setStream k j x).dram = s.dram := rfl
@[simp] theorem State.setStream_net (k j : Nat) (x : Stream) : (s.setStream k j x).net = s.net := rfl
@[simp] theorem State.setStream_svc (k j : Nat) (x : Stream) : (s.setStream k j x).svc = s.svc := rfl
@[simp] theorem State.setStream_pwr (k j : Nat) (x : Stream) : (s.setStream k j x).pwr = s.pwr := rfl
@[simp] theorem State.setStream_pmu (k j : Nat) (x : Stream) : (s.setStream k j x).pmu = s.pmu := rfl
@[simp] theorem State.setStream_dump (k j : Nat) (x : Stream) : (s.setStream k j x).dump = s.dump := rfl
@[simp] theorem State.setStream_deferred (k j : Nat) (x : Stream) : (s.setStream k j x).deferred = s.deferred := rfl
@[simp] theorem State.setStream_latches (k j : Nat) (x : Stream) : (s.setStream k j x).latches = s.latches := rfl

/-! ### setQueue -/

@[simp] theorem State.setQueue_pending (q : Nat) (x : Queue) : (s.setQueue q x).pending = s.pending := rfl
@[simp] theorem State.setQueue_regs (q : Nat) (x : Queue) : (s.setQueue q x).regs = s.regs := rfl
@[simp] theorem State.setQueue_draws (q : Nat) (x : Queue) : (s.setQueue q x).draws = s.draws := rfl
@[simp] theorem State.setQueue_out (q : Nat) (x : Queue) : (s.setQueue q x).out = s.out := rfl
@[simp] theorem State.setQueue_clk (q : Nat) (x : Queue) : (s.setQueue q x).clk = s.clk := rfl
@[simp] theorem State.setQueue_ing (q : Nat) (x : Queue) : (s.setQueue q x).ing = s.ing := rfl
@[simp] theorem State.setQueue_pool (q : Nat) (x : Queue) : (s.setQueue q x).pool = s.pool := rfl
@[simp] theorem State.setQueue_mm (q : Nat) (x : Queue) : (s.setQueue q x).mm = s.mm := rfl
@[simp] theorem State.setQueue_sch (q : Nat) (x : Queue) : (s.setQueue q x).sch = s.sch := rfl
@[simp] theorem State.setQueue_cores (q : Nat) (x : Queue) : (s.setQueue q x).cores = s.cores := rfl
@[simp] theorem State.setQueue_spf (q : Nat) (x : Queue) : (s.setQueue q x).spf = s.spf := rfl
@[simp] theorem State.setQueue_mix (q : Nat) (x : Queue) : (s.setQueue q x).mix = s.mix := rfl
@[simp] theorem State.setQueue_dec (q : Nat) (x : Queue) : (s.setQueue q x).dec = s.dec := rfl
@[simp] theorem State.setQueue_dac (q : Nat) (x : Queue) : (s.setQueue q x).dac = s.dac := rfl
@[simp] theorem State.setQueue_ort (q : Nat) (x : Queue) : (s.setQueue q x).ort = s.ort := rfl
@[simp] theorem State.setQueue_con (q : Nat) (x : Queue) : (s.setQueue q x).con = s.con := rfl
@[simp] theorem State.setQueue_ctl (q : Nat) (x : Queue) : (s.setQueue q x).ctl = s.ctl := rfl
@[simp] theorem State.setQueue_dram (q : Nat) (x : Queue) : (s.setQueue q x).dram = s.dram := rfl
@[simp] theorem State.setQueue_net (q : Nat) (x : Queue) : (s.setQueue q x).net = s.net := rfl
@[simp] theorem State.setQueue_svc (q : Nat) (x : Queue) : (s.setQueue q x).svc = s.svc := rfl
@[simp] theorem State.setQueue_pwr (q : Nat) (x : Queue) : (s.setQueue q x).pwr = s.pwr := rfl
@[simp] theorem State.setQueue_pmu (q : Nat) (x : Queue) : (s.setQueue q x).pmu = s.pmu := rfl
@[simp] theorem State.setQueue_dump (q : Nat) (x : Queue) : (s.setQueue q x).dump = s.dump := rfl
@[simp] theorem State.setQueue_deferred (q : Nat) (x : Queue) : (s.setQueue q x).deferred = s.deferred := rfl
@[simp] theorem State.setQueue_latches (q : Nat) (x : Queue) : (s.setQueue q x).latches = s.latches := rfl

/-! ### draw -/

@[simp] theorem State.draw_pending (w : Nat) : (s.draw w).2.pending = s.pending := rfl
@[simp] theorem State.draw_regs (w : Nat) : (s.draw w).2.regs = s.regs := rfl
@[simp] theorem State.draw_draws (w : Nat) : (s.draw w).2.draws = s.draws + 1 := rfl
@[simp] theorem State.draw_out (w : Nat) : (s.draw w).2.out = s.out := rfl
@[simp] theorem State.draw_clk (w : Nat) : (s.draw w).2.clk = s.clk := rfl
@[simp] theorem State.draw_ing (w : Nat) : (s.draw w).2.ing = s.ing := rfl
@[simp] theorem State.draw_pool (w : Nat) : (s.draw w).2.pool = s.pool := rfl
@[simp] theorem State.draw_mm (w : Nat) : (s.draw w).2.mm = s.mm := rfl
@[simp] theorem State.draw_sch (w : Nat) : (s.draw w).2.sch = s.sch := rfl
@[simp] theorem State.draw_cores (w : Nat) : (s.draw w).2.cores = s.cores := rfl
@[simp] theorem State.draw_spf (w : Nat) : (s.draw w).2.spf = s.spf := rfl
@[simp] theorem State.draw_mix (w : Nat) : (s.draw w).2.mix = s.mix := rfl
@[simp] theorem State.draw_dec (w : Nat) : (s.draw w).2.dec = s.dec := rfl
@[simp] theorem State.draw_dac (w : Nat) : (s.draw w).2.dac = s.dac := rfl
@[simp] theorem State.draw_ort (w : Nat) : (s.draw w).2.ort = s.ort := rfl
@[simp] theorem State.draw_queues (w : Nat) : (s.draw w).2.queues = s.queues := rfl
@[simp] theorem State.draw_con (w : Nat) : (s.draw w).2.con = s.con := rfl
@[simp] theorem State.draw_ctl (w : Nat) : (s.draw w).2.ctl = s.ctl := rfl
@[simp] theorem State.draw_dram (w : Nat) : (s.draw w).2.dram = s.dram := rfl
@[simp] theorem State.draw_net (w : Nat) : (s.draw w).2.net = s.net := rfl
@[simp] theorem State.draw_svc (w : Nat) : (s.draw w).2.svc = s.svc := rfl
@[simp] theorem State.draw_pwr (w : Nat) : (s.draw w).2.pwr = s.pwr := rfl
@[simp] theorem State.draw_pmu (w : Nat) : (s.draw w).2.pmu = s.pmu := rfl
@[simp] theorem State.draw_dump (w : Nat) : (s.draw w).2.dump = s.dump := rfl
@[simp] theorem State.draw_deferred (w : Nat) : (s.draw w).2.deferred = s.deferred := rfl
@[simp] theorem State.draw_latches (w : Nat) : (s.draw w).2.latches = s.latches := rfl

@[simp] theorem State.draw_fst (w : Nat) : (s.draw w).1 = (Config.freeValue s.draws).toNat % 2 ^ w := rfl

/-! ### Reading registers -/

/-- A register reads the word written last, and every other register is as before. -/
theorem State.reg_setReg (a : Nat) (v : Word) (b : Nat) : (s.setReg a v).reg b = if b = a then v else s.reg b :=
  Sparse.get_put ..

@[simp] theorem State.reg_setReg_same (a : Nat) (v : Word) : (s.setReg a v).reg a = v := by simp [State.reg_setReg]

theorem State.reg_setReg_other {a b : Nat} (v : Word) (h : b ≠ a) : (s.setReg a v).reg b = s.reg b := by
  simp [State.reg_setReg, h]

theorem State.reg_setFld (a lo w n b : Nat) :
    (s.setFld a lo w n).reg b = if b = a then setFieldOf (s.reg a) lo w n else s.reg b := State.reg_setReg ..

theorem State.reg_setFld_other {a b : Nat} (lo w n : Nat) (h : b ≠ a) : (s.setFld a lo w n).reg b = s.reg b :=
  State.reg_setReg_other _ _ h

theorem State.reg_setBit (a i : Nat) (v : Bool) (b : Nat) :
    (s.setBit a i v).reg b = if b = a then setFieldOf (s.reg a) i 1 (if v then 1 else 0) else s.reg b := State.reg_setFld ..

theorem State.reg_setBit_other {a b : Nat} (i : Nat) (v : Bool) (h : b ≠ a) : (s.setBit a i v).reg b = s.reg b :=
  State.reg_setReg_other _ _ h

theorem State.reg_bumpBy (a n b : Nat) :
    (s.bumpBy a n).reg b = if b = a then BitVec.ofNat 32 (min 0xFFFFFFFF ((s.reg a).toNat + n)) else s.reg b := State.reg_setReg ..

theorem State.reg_bump (a b : Nat) :
    (s.bump a).reg b = if b = a then BitVec.ofNat 32 (min 0xFFFFFFFF ((s.reg a).toNat + 1)) else s.reg b := State.reg_setReg ..

theorem State.reg_bump_other {a b : Nat} (h : b ≠ a) : (s.bump a).reg b = s.reg b := State.reg_setReg_other _ _ h

/-- A read of a register depends on the registers alone. -/
theorem State.reg_congr {s t : State} (h : s.regs = t.regs) (a : Nat) : s.reg a = t.reg a := by
  unfold State.reg; rw [h]

@[simp] theorem State.reg_count (i n a : Nat) : (s.count i n).reg a = s.reg a := rfl
@[simp] theorem State.reg_send (x : Sent) (a : Nat) : (s.send x).reg a = s.reg a := rfl
@[simp] theorem State.reg_setCore (n : Nat) (c : Core) (a : Nat) : (s.setCore n c).reg a = s.reg a := rfl
@[simp] theorem State.reg_updCore (n : Nat) (f : Core → Core) (a : Nat) : (s.updCore n f).reg a = s.reg a := rfl
@[simp] theorem State.reg_setSlot (k : Nat) (x : Slot) (a : Nat) : (s.setSlot k x).reg a = s.reg a := rfl
@[simp] theorem State.reg_updSlot (k : Nat) (f : Slot → Slot) (a : Nat) : (s.updSlot k f).reg a = s.reg a := rfl
@[simp] theorem State.reg_setStream (k j : Nat) (x : Stream) (a : Nat) : (s.setStream k j x).reg a = s.reg a := rfl
@[simp] theorem State.reg_setQueue (q : Nat) (x : Queue) (a : Nat) : (s.setQueue q x).reg a = s.reg a := rfl
@[simp] theorem State.reg_setConByte (c : Nat) (v : Byte) (a : Nat) : (s.setConByte c v).reg a = s.reg a := rfl
@[simp] theorem State.reg_clearCon (c n a : Nat) : (s.clearCon c n).reg a = s.reg a := rfl
@[simp] theorem State.reg_draw (w a : Nat) : (s.draw w).2.reg a = s.reg a := rfl

/-- Two register writes, the second of which hides the first. -/
theorem State.setReg_regs (a : Nat) (v : Word) : (s.setReg a v).regs = Sparse.put regReset s.regs a v := rfl

/-! ### Bit fields -/

/-- The bits of a number that a field of width `w` at `lo` holds, by bit. -/
theorem testBit_bitsOf (n lo w i : Nat) : (bitsOf n lo w).testBit i = (decide (i < w) && n.testBit (lo + i)) := by
  simp [bitsOf, Nat.testBit_mod_two_pow]

/-- A replaced field reads the low bits of what was written. -/
theorem bitsOf_setBitsOf_same (n lo w v : Nat) : bitsOf (setBitsOf n lo w v) lo w = v % 2 ^ w := by
  unfold setBitsOf bitsOf
  simp only [Nat.shiftRight_eq_div_pow]
  have h1 : n / 2 ^ lo % 2 ^ w * 2 ^ lo ≤ n :=
    Nat.le_trans (Nat.mul_le_mul_right _ (Nat.mod_le _ _)) (Nat.div_mul_le_self _ _)
  have e : n - n / 2 ^ lo % 2 ^ w * 2 ^ lo = n % 2 ^ lo + 2 ^ w * (n / 2 ^ lo / 2 ^ w) * 2 ^ lo := by
    have a := Nat.div_add_mod n (2 ^ lo)
    have b := Nat.div_add_mod (n / 2 ^ lo) (2 ^ w)
    have c : n = (2 ^ w * (n / 2 ^ lo / 2 ^ w) + n / 2 ^ lo % 2 ^ w) * 2 ^ lo + n % 2 ^ lo := by
      rw [b, Nat.mul_comm]; exact a.symm
    rw [Nat.add_mul] at c
    omega
  rw [e]
  have p : 0 < 2 ^ lo := Nat.two_pow_pos lo
  have q : (n % 2 ^ lo + 2 ^ w * (n / 2 ^ lo / 2 ^ w) * 2 ^ lo + v % 2 ^ w * 2 ^ lo) / 2 ^ lo
      = 2 ^ w * (n / 2 ^ lo / 2 ^ w) + v % 2 ^ w := by
    rw [Nat.add_mul_div_right _ _ p, Nat.add_mul_div_right _ _ p, Nat.div_eq_of_lt (Nat.mod_lt _ p), Nat.zero_add]
  rw [q, Nat.mul_add_mod, Nat.mod_mod]

/-- A register word with a field replaced reads it there. -/
theorem fieldOf_setFieldOf_same (v : Word) {lo w : Nat} (n : Nat) (h : lo + w ≤ 32) :
    fieldOf (setFieldOf v lo w n) lo w = n % 2 ^ w := by
  unfold fieldOf setFieldOf
  rw [BitVec.toNat_ofNat]
  have hb : bitsOf (setBitsOf v.toNat lo w n % 2 ^ 32) lo w = bitsOf (setBitsOf v.toNat lo w n) lo w := by
    apply Nat.eq_of_testBit_eq
    intro i
    rw [testBit_bitsOf, testBit_bitsOf, Nat.testBit_mod_two_pow]
    by_cases hi : i < w
    · have : lo + i < 32 := by omega
      simp [hi, this]
    · simp [hi]
  rw [hb, bitsOf_setBitsOf_same]

/-- A field reads what was written to it. -/
theorem State.fld_setFld_same (a : Nat) {lo w : Nat} (n : Nat) (h : lo + w ≤ 32) : (s.setFld a lo w n).fld a lo w = n % 2 ^ w := by
  unfold State.fld
  rw [State.reg_setFld, if_pos rfl, fieldOf_setFieldOf_same _ _ h]

theorem State.fld_setFld_other {a b : Nat} (lo w n lo' w' : Nat) (h : b ≠ a) : (s.setFld a lo w n).fld b lo' w' = s.fld b lo' w' := by
  unfold State.fld
  rw [State.reg_setFld_other _ _ _ _ h]

/-- A bit reads what was written to it. -/
theorem State.bit_setBit_same (a : Nat) {i : Nat} (b : Bool) (h : i < 32) : (s.setBit a i b).bit a i = b := by
  unfold State.bit State.setBit
  have := State.fld_setFld_same s a (lo := i) (w := 1) (if b then 1 else 0) (by omega)
  unfold State.fld at this
  rw [this]
  cases b <;> rfl

theorem State.bit_setBit_other {a c : Nat} (i j : Nat) (b : Bool) (h : c ≠ a) : (s.setBit a i b).bit c j = s.bit c j := by
  unfold State.bit
  rw [State.reg_setBit_other _ _ _ h]

/-! ### Cores, slots, streams, queues -/

@[simp] theorem State.core_setCore_same (n : Nat) (c : Core) : (s.setCore n c).core n = c := Sparse.get_put_same ..
theorem State.core_setCore_other {n m : Nat} (c : Core) (h : m ≠ n) : (s.setCore n c).core m = s.core m := Sparse.get_put_other _ _ h
@[simp] theorem State.core_updCore_same (n : Nat) (f : Core → Core) : (s.updCore n f).core n = f (s.core n) := Sparse.get_put_same ..
theorem State.core_updCore_other {n m : Nat} (f : Core → Core) (h : m ≠ n) : (s.updCore n f).core m = s.core m :=
  Sparse.get_put_other _ _ h
@[simp] theorem State.slot_setSlot_same (k : Nat) (x : Slot) : (s.setSlot k x).slot k = x := Sparse.get_put_same ..
theorem State.slot_setSlot_other {k j : Nat} (x : Slot) (h : j ≠ k) : (s.setSlot k x).slot j = s.slot j := Sparse.get_put_other _ _ h
@[simp] theorem State.queue_setQueue_same (q : Nat) (x : Queue) : (s.setQueue q x).queue q = x := Sparse.get_put_same ..
theorem State.queue_setQueue_other {q j : Nat} (x : Queue) (h : j ≠ q) : (s.setQueue q x).queue j = s.queue j :=
  Sparse.get_put_other _ _ h
@[simp] theorem State.core_setReg (a : Nat) (v : Word) (n : Nat) : (s.setReg a v).core n = s.core n := rfl

/-! ### Concourse bytes -/

@[simp] theorem State.conByte_setConByte_same (a : Nat) (v : Byte) : (s.setConByte a v).conByte a = v := Sparse.get_put_same ..
theorem State.conByte_setConByte_other {a b : Nat} (v : Byte) (h : b ≠ a) : (s.setConByte a v).conByte b = s.conByte b :=
  Sparse.get_put_other _ _ h

/-- Bytes written from `a` leave every byte outside of them alone. -/
theorem State.conByte_putConBytes_other {b : Nat} (l : List Byte) (s : State) (a : Nat) (h : b < a ∨ a + l.length ≤ b) :
    (s.putConBytes a l).conByte b = s.conByte b := by
  induction l generalizing s a with
  | nil => rfl
  | cons x l ih =>
    rw [State.putConBytes, ih _ _ (by simp at h; omega)]
    exact State.conByte_setConByte_other _ _ (by simp at h; omega)

/-! ### A host write, by cases -/

/-- Whether a write by software of page `p` is performed: the endpoint serves, the page is not one that standby or boot closes. -/
theorem State.hostWrite_served {path : Path} {off : Nat} {v : Word} {act : State → RegRow → Word → Word → State} {r : RegRow}
    (h1 : s.serving = true) (h2 : ¬ (standbyPage (off / 0x1000) = true ∧ (s.powerState = 2 ∨ s.powerState = 3)))
    (h3 : ¬ (bootPage (off / 0x1000) = true ∧ s.bootState ≠ 6)) (h4 : rowOf off = some r)
    (h5 : s.locked (off / 0x1000) = false ∨ r.exempt = true) :
    s.hostWrite (.host path) off v act = act s r (s.reg off) v := by
  unfold State.hostWrite
  have e : ¬ (s.locked (off / 0x1000) = true ∧ r.exempt = false) := by
    rcases h5 with h | h <;> simp [h]
  simp [h1, h2, h3, h4, e]

/-- A write that the endpoint does not serve changes nothing. -/
theorem State.hostWrite_unserved {path : Path} {off : Nat} {v : Word} {act : State → RegRow → Word → Word → State}
    (h : s.serving = false) : s.hostWrite (.host path) off v act = s := by
  simp [State.hostWrite, h]

/-- A write of a page that standby closes is counted. -/
theorem State.hostWrite_standby {path : Path} {off : Nat} {v : Word} {act : State → RegRow → Word → Word → State}
    (h1 : s.serving = true) (h2 : standbyPage (off / 0x1000) = true) (h3 : s.powerState = 2 ∨ s.powerState = 3) :
    s.hostWrite (.host path) off v act = s.bump Reg.PWR_STBY_REJ_CNT := by
  simp [State.hostWrite, h1, h2, h3]

end Sys2Proof.Machine
end

