-- ==== Sys2Proof/Laws/CoreIssue.lean ====
section
/-! SUPPORT. What the issue of a bundle does on a core with nothing else due: the issue slot, the writes that land in it, and the move to
the next bundle. -/

namespace Sys2Proof.Machine

/-! ### Frames -/

theorem OnlyCore.refl (s : State) (n : Nat) : OnlyCore s s n := ⟨rfl, fun _ _ => rfl⟩

theorem OnlyCore.trans {s t u : State} {n : Nat} (h : OnlyCore s t n) (g : OnlyCore t u n) : OnlyCore s u n := by
  refine ⟨?_, fun m hm => (g.2 m hm).trans (h.2 m hm)⟩
  rw [g.1, h.1]

theorem OnlyCore.setCore (s : State) (n : Nat) (c : Core) : OnlyCore s (s.setCore n c) n :=
  ⟨rfl, fun _ hm => State.core_setCore_other s c hm⟩

theorem OnlyCore.updCore (s : State) (n : Nat) (f : Core → Core) : OnlyCore s (s.updCore n f) n := OnlyCore.setCore ..

theorem OnlyCore.count (s : State) (n i k : Nat) : OnlyCore s (s.count i k) n := ⟨rfl, fun _ _ => rfl⟩

theorem OnlyCore.corePmu (s : State) (n m e k : Nat) : OnlyCore s (s.corePmu m e k) n := by
  unfold State.corePmu
  split
  · exact OnlyCore.count ..
  · exact OnlyCore.refl ..

/-- A change of core `n` and of counters alone leaves every register alone. -/
theorem OnlyCore.reg {s t : State} {n : Nat} (h : OnlyCore s t n) (a : Nat) : t.reg a = s.reg a := by
  rw [h.1]; rfl

@[simp] theorem State.core_count (s : State) (i k n : Nat) : (s.count i k).core n = s.core n := rfl

@[simp] theorem State.core_corePmu (s : State) (m e k n : Nat) : (s.corePmu m e k).core n = s.core n := by
  unfold State.corePmu; split <;> rfl

/-! ### Checks without an injection -/

theorem State.armed_off {s : State} {p : Nat} (h : s.bit (Reg.PAGE_ERR_INJ p) 30 = false) (det sub : Nat) : s.armed p det sub = false := by
  simp [State.armed, h]

theorem State.check_off {s : State} {p : Nat} (h : s.bit (Reg.PAGE_ERR_INJ p) 30 = false) (det sub : Nat) :
    s.check p det sub false = { st := s, hit := false, inj := false } := by
  simp [State.check, State.armed_off h]

theorem State.detect_off {s : State} {p : Nat} (h : s.bit (Reg.PAGE_ERR_INJ p) 30 = false) (det sub info : Nat) :
    s.detect p det sub info false = { st := s, hit := false, inj := false } := by
  simp [State.detect, State.check_off h]

/-- A read of a core's memory that meets no upset. -/
theorem State.coreMemCheck_clean {s : State} {n : Nat} (h : s.bit (Reg.PAGE_ERR_INJ (Page.vc0 + n)) 30 = false) (sub : Nat) :
    s.coreMemCheck n sub .clean = (s, false) := by
  simp [State.coreMemCheck, State.check_off h]

/-! ### The issue slot -/

/-- The core after an issue slot, before the writes in flight land. -/
def Core.slotted (c : Core) (cls : Nat) : Core :=
  let c1 := c.evt 1 1
  let c2 := if cls = 2 then c1.evt 4 1 else if cls = 3 then c1.evt 5 1 else c1
  { c2 with
    cycle := c.cycle + 1
    tcyc := if c.task.isSome ∧ ¬ c.halted then c.tcyc + 1 else c.tcyc
    aborted := if c.halted then c.aborted else c.aborted.map (· + 1)
    memUe := c.memUe.map (· + 1)
    recalled := if c.halted then c.recalled else c.recalled.map (· + 1)
    tally := if c.task.isSome ∧ ¬ c.judged then tallyAdd c.tally cls 1 else c.tally }

/-- The core after the writes due by cycle `t` landed. -/
def Core.landed (c : Core) (t : Nat) : Core :=
  let due := c.inflight.filter (fun w => decide (w.due ≤ t))
  ((due.filter InFlight.isClrav) ++ (due.filter (fun w => !w.isClrav))).foldl Core.land
    { c with inflight := c.inflight.filter (fun w => decide (t < w.due)) }

/-- Writes that set no AV bit raise nothing. -/
theorem State.landBy_quiet (s : State) (n t : Nat) (h : ∀ k, k < 4 → ((s.core n).landed t).av k = true → (s.core n).av k = true) :
    s.landBy n t = s.setCore n ((s.core n).landed t) := by
  have hq : ((List.range 4).any (fun k => ((s.core n).landed t).av k && !(s.core n).av k)) = false := by
    rw [List.any_eq_false]
    intro k hk
    have := h k (List.mem_range.1 hk)
    cases hb : ((s.core n).landed t).av k <;> simp_all
  unfold State.landBy
  have e : ∀ (c1 : Core), c1 = (s.core n).landed t →
      (if (List.range 4).any (fun k => c1.av k && !(s.core n).av k) then (s.setCore n c1).raise (Page.vc0 + n) 4 else s.setCore n c1) =
        s.setCore n ((s.core n).landed t) := by
    rintro c1 rfl
    rw [hq]; rfl
  exact e _ rfl

/-- One CORE cycle in which no AV bit is set. -/
theorem State.coreTick_quiet (s : State) (n cls : Nat)
    (h : ∀ k, k < 4 → (((s.core n).slotted cls).landed ((s.core n).cycle + 1)).av k = true → ((s.core n).slotted cls).av k = true) :
    OnlyCore s (s.coreTick n cls) n ∧ (s.coreTick n cls).core n = ((s.core n).slotted cls).landed ((s.core n).cycle + 1) := by
  have key : ∀ (u : State), OnlyCore s u n → u.core n = (s.core n).slotted cls →
      OnlyCore s (u.landBy n ((s.core n).cycle + 1)) n ∧
        (u.landBy n ((s.core n).cycle + 1)).core n = ((s.core n).slotted cls).landed ((s.core n).cycle + 1) := by
    intro u hu hc
    rw [State.landBy_quiet u n _ (by rw [hc]; exact h), hc]
    exact ⟨hu.trans (OnlyCore.setCore ..), State.core_setCore_same ..⟩
  unfold State.coreTick
  refine key _ ?_ ?_
  · refine OnlyCore.trans (t := (s.setCore n ((s.core n).slotted cls)).corePmu n 0 1)
      ((OnlyCore.setCore ..).trans (OnlyCore.corePmu ..)) ?_
    split
    · split
      · exact OnlyCore.corePmu ..
      · exact OnlyCore.refl ..
    · exact OnlyCore.corePmu ..
  · split
    · split
      · rw [State.core_corePmu, State.core_corePmu]; exact State.core_setCore_same ..
      · rw [State.core_corePmu]; exact State.core_setCore_same ..
    · rw [State.core_corePmu, State.core_corePmu]; exact State.core_setCore_same ..

/-! ### Counters of the core leave its registers alone -/

@[simp] theorem Core.evt_rd (c : Core) (e k i : Nat) : (c.evt e k).rd i = c.rd i := rfl
@[simp] theorem Core.evt_accRd (c : Core) (e k i : Nat) : (c.evt e k).accRd i = c.accRd i := rfl
@[simp] theorem Core.evt_cr (c : Core) (e k i : Nat) : (c.evt e k).cr i = c.cr i := rfl
@[simp] theorem Core.evt_inflight (c : Core) (e k : Nat) : (c.evt e k).inflight = c.inflight := rfl
@[simp] theorem Core.evt_cycle (c : Core) (e k : Nat) : (c.evt e k).cycle = c.cycle := rfl
@[simp] theorem Core.evt_pc (c : Core) (e k : Nat) : (c.evt e k).pc = c.pc := rfl

theorem Core.slotted_inflight (c : Core) (cls : Nat) : (c.slotted cls).inflight = c.inflight := by
  unfold Core.slotted; dsimp only; split
  · rfl
  · split <;> rfl

theorem Core.slotted_crs (c : Core) (cls : Nat) : (c.slotted cls).crs = c.crs := by
  unfold Core.slotted; dsimp only; split
  · rfl
  · split <;> rfl

/-- Everything that an issue slot leaves alone. -/
theorem Core.slotted_same (c : Core) (cls : Nat) :
    c.slotted cls = { c with
      pcnt := (c.slotted cls).pcnt, cycle := c.cycle + 1, tcyc := (c.slotted cls).tcyc, aborted := (c.slotted cls).aborted
      memUe := (c.slotted cls).memUe, recalled := (c.slotted cls).recalled, tally := (c.slotted cls).tally } := by
  unfold Core.slotted; dsimp only; split
  · rfl
  · split <;> rfl

/-! ### The move to the next bundle -/

/-- Whether a core meets a breakpoint depends on the registers alone. -/
theorem State.breakAt_congr {s t : State} (h : s.regs = t.regs) (n pc : Nat) : s.breakAt n pc = t.breakAt n pc := by
  have hr : ∀ a, s.reg a = t.reg a := State.reg_congr h
  unfold State.breakAt State.pageOn State.bit
  simp only [hr]

/-- The move to a bundle without a breakpoint. -/
theorem State.goto_plain (s : State) (n pc : Nat) (hb : s.breakAt n (pc % 8192) = none) :
    s.goto n pc = s.updCore n (fun c => { c with lastPc := c.pc, pc := pc % 8192 }) := by
  unfold State.goto State.meetBreak
  rw [State.breakAt_congr (s := s.updCore n (fun c => { c with lastPc := c.pc, pc := pc % 8192 })) (t := s) rfl, hb]

/-- At a bundle that ends no loop, the core moves to the next bundle. -/
theorem Core.loopStep_plain (c old : Core) (written : List Nat)
    (hl : ∀ l, l < 2 → ∀ ls le, old.loopAt l = some (ls, le) → le ≠ old.pc) : c.loopStep old old.pc written = (c, old.pc + 1) := by
  unfold Core.loopStep
  dsimp only
  have h0 : (match old.loopAt 0 with
      | some (ls, le) => if le = old.pc then (c.iterEnd old 0 written, if 1 < old.lc 0 then ls else old.pc + 1) else (c, old.pc + 1)
      | none => (c, old.pc + 1)) = (c, old.pc + 1) := by
    split
    · rw [if_neg (hl 0 (by omega) _ _ (by assumption))]
    · rfl
  split
  · rw [if_neg (hl 1 (by omega) _ _ (by assumption))]
    exact h0
  · exact h0

/-- The same at a bundle that is no delay slot either. -/
theorem State.advance_plain (s : State) (n : Nat) (old : Core) (written : List Nat) (hd : old.delay = none)
    (hl : ∀ l, l < 2 → ∀ ls le, old.loopAt l = some (ls, le) → le ≠ old.pc)
    (hb : s.breakAt n ((old.pc + 1) % 8192) = none) :
    OnlyCore s (s.advance n old written) n ∧ (s.advance n old written).core n =
      { s.core n with fresh := false, lastPc := (s.core n).pc, pc := (old.pc + 1) % 8192 } := by
  unfold State.advance
  rw [hd]
  dsimp only
  rw [Core.loopStep_plain _ _ _ hl]
  dsimp only
  have hg : ∀ u : State, u.regs = s.regs → u.goto n (old.pc + 1) = u.updCore n (fun c => { c with lastPc := c.pc, pc := (old.pc + 1) % 8192 }) :=
    fun u hu => State.goto_plain u n _ ((State.breakAt_congr hu n _).trans hb)
  rw [hg (State.setCore (State.updCore s n _) n _) rfl]
  refine ⟨(OnlyCore.updCore ..).trans ((OnlyCore.setCore ..).trans (OnlyCore.updCore ..)), ?_⟩
  rw [State.core_updCore_same, State.core_setCore_same, State.core_updCore_same]

/-! ### One bundle on a calm core -/

/-- What a legal bundle does on a calm core, none of its operations refused for privilege. -/
theorem State.issue_calm {s : State} {n : Nat} (h : s.Calm n) (b : Bundle) (ax ay : Access)
    (hl : (s.core n).legal (s.core n).pc b = true)
    (hp : ((s.core n).holds b.cp && (s.core n).voice && (s.core n).privileged b.c) = false) :
    s.issue n b ax ay =
      let c := s.core n
      let m := c.holds b.mp && decide (b.m.kind ≠ .nop)
      let x := c.holds b.xp && b.x.isSome
      let y := c.holds b.yp && b.y.isSome
      let on := c.holds b.cp
      let s1 := s.once n b m x y ax ay 0
      let s2 := if on then s1.cData n c b.c ax else s1
      ((s2.slotTick n (m || x || y || (on && decide (b.c ≠ .nop)))).repeats n b m x y 1 (c.reps b)).follow n c
        (if on then cWrites b.c else []) (c.flow b.c on) := by
  unfold State.issue
  rw [State.detect_off h.unarmed, State.coreMemCheck_clean h.unarmed]
  have hv : ¬ ((s.core n).voice = true ∧ (s.core n).pc < ((s.core n).cr 6).toNat) := h.fetch
  simp only [h.ready, Bool.true_eq_false, if_false, Bool.false_eq_true, hv, hl, hp]
  simp only [Bool.not_false, Bool.and_true]

/-- The bundle of one C operation. -/
theorem Core.legal_c (c : Core) (p : Pred) (o : COp) (h1 : cLegal o = true) (h2 : c.placed c.pc o (c.holds p) = true)
    (h3 : (cWrites o).Nodup) : c.legal c.pc { Bundle.nop with cp := p, c := o } = true := by
  unfold Core.legal conflict
  simp [Bundle.nop, MOp.nop, mLegal, mWrites, h1, h2, h3]

/-- A C operation that neither branches nor repeats, alone in its bundle on a calm core, its predicate true. -/
theorem State.issueC_calm {s : State} {n : Nat} (h : s.Calm n) (p : Pred) (o : COp) (acc : Access) (hp : (s.core n).holds p = true)
    (h1 : cLegal o = true) (h2 : (s.core n).placed (s.core n).pc o true = true) (h3 : (cWrites o).Nodup)
    (h4 : ((s.core n).voice && (s.core n).privileged o) = false) (h5 : (s.core n).flow o true = .next)
    (h6 : (s.core n).reps { Bundle.nop with cp := p, c := o } = 0) :
    s.issueC n p o Bundle.nop acc =
      ((s.cData n (s.core n) o acc).slotTick n (decide (o ≠ .nop))).advance n (s.core n) (cWrites o) := by
  unfold State.issueC
  rw [State.issue_calm h _ _ _ (Core.legal_c _ _ _ h1 (by rw [hp]; exact h2) h3) (by simp [hp, h4])]
  dsimp only
  rw [hp, h5, h6]
  simp [Bundle.nop, MOp.nop, State.repeats, State.follow, State.once]

/-! ### Register writes that land -/

/-- A register after a write in flight landed. -/
def InFlight.applied (k : Nat) (x : Word) (w : InFlight) : Word := match w.op with
  | .reg j v => if j = k then v else x
  | _ => x

@[simp] theorem Core.wr_rd (c : Core) (j : Nat) (v : Word) (m : Bool) (k : Nat) : (c.wr j v m).rd k = if j = k then v else c.rd k := by
  unfold Core.rd
  have hr : (c.wr j v m).regs = Sparse.put (fun _ => none) c.regs j (some v) := rfl
  have hg : (c.wr j v m).gen = c.gen := rfl
  rw [hr, hg, Sparse.get_put]
  by_cases h : k = j
  · subst h; simp
  · rw [if_neg h, if_neg (Ne.symm h)]

/-- Register writes land one after the other; nothing but the registers changes. -/
theorem Core.land_regs (l : List InFlight) (hl : ∀ w ∈ l, ∃ k v, w.op = .reg k v) (c : Core) :
    (l.foldl Core.land c = { c with regs := (l.foldl Core.land c).regs, soft := (l.foldl Core.land c).soft }) ∧
      ∀ k, (l.foldl Core.land c).rd k = l.foldl (fun x w => w.applied k x) (c.rd k) := by
  induction l generalizing c with
  | nil => exact ⟨rfl, fun _ => rfl⟩
  | cons w l ih =>
    obtain ⟨j, v, hw⟩ := hl w (by simp)
    have e : c.land w = c.wr j v w.voice := by unfold Core.land; rw [hw]
    obtain ⟨h1, h2⟩ := ih (fun x hx => hl x (by simp [hx])) (c.land w)
    rw [List.foldl_cons]
    refine ⟨?_, fun k => ?_⟩
    · rw [h1, e]; rfl
    · rw [h2, List.foldl_cons, e, Core.wr_rd]
      congr 1
      unfold InFlight.applied
      rw [hw]

/-- A cycle after which only register writes land. -/
theorem Core.landed_regs (c : Core) (t : Nat) (h : ∀ w ∈ c.inflight, (∃ k v, w.op = .reg k v) ∨ t < w.due) :
    (c.landed t = { c with inflight := c.inflight.filter (fun w => decide (t < w.due)), regs := (c.landed t).regs, soft := (c.landed t).soft }) ∧
      ∀ k, (c.landed t).rd k = (c.inflight.filter (fun w => decide (w.due ≤ t))).foldl (fun x w => w.applied k x) (c.rd k) := by
  have hd : ∀ w ∈ c.inflight.filter (fun w => decide (w.due ≤ t)), ∃ k v, w.op = .reg k v := by
    intro w hw
    rw [List.mem_filter] at hw
    rcases h w hw.1 with h | h
    · exact h
    · have := of_decide_eq_true hw.2
      omega
  have h1 : (c.inflight.filter (fun w => decide (w.due ≤ t))).filter InFlight.isClrav = [] := by
    rw [List.filter_eq_nil_iff]
    intro w hw
    obtain ⟨k, v, e⟩ := hd w hw
    simp [InFlight.isClrav, e]
  have h2 : (c.inflight.filter (fun w => decide (w.due ≤ t))).filter (fun w => !w.isClrav) = c.inflight.filter (fun w => decide (w.due ≤ t)) := by
    rw [List.filter_eq_self]
    intro w hw
    obtain ⟨k, v, e⟩ := hd w hw
    simp [InFlight.isClrav, e]
  have e : c.landed t = (c.inflight.filter (fun w => decide (w.due ≤ t))).foldl Core.land
      { c with inflight := c.inflight.filter (fun w => decide (t < w.due)) } := by
    unfold Core.landed
    dsimp only
    rw [h1, h2, List.nil_append]
  rw [e]
  exact Core.land_regs _ hd _

/-- The end of a bundle on a calm core, which the bundle read as `old` but for its events: `c` is the core with the results of the bundle in flight, of which only register
writes are due in the next cycle. -/
theorem State.bundle_end_of {s u : State} {n : Nat} (h : s.Calm n) (old : Core) (ho : old = { s.core n with events := old.events }) (hu : OnlyCore s u n) {c : Core} (hc : u.core n = c)
    (hpc : c.pc = (s.core n).pc)
    (hw : ∀ w ∈ c.inflight, (∃ k v, w.op = .reg k v) ∨ c.cycle + 1 < w.due) (cls : Bool) (written : List Nat) (wr : List Nat)
    (hwr : ∀ w ∈ c.inflight, w.due ≤ c.cycle + 1 → ∃ k v, w.op = .reg k v ∧ k ∈ wr) :
    let t := (u.slotTick n cls).advance n old written
    OnlyCore s t n ∧ c.Moved (t.core n) wr (c.inflight.filter (fun w => decide (c.cycle + 1 < w.due))) ∧
      ∀ k, (t.core n).rd k = (c.inflight.filter (fun w => decide (w.due ≤ c.cycle + 1))).foldl (fun x w => w.applied k x) (c.rd k) := by
  intro t
  -- the issue slot
  let u0 := u.updCore n (fun c => c.evt (if cls then 2 else 3) 1)
  have e0 : u0.core n = c.evt (if cls then 2 else 3) 1 := by rw [State.core_updCore_same, hc]
  generalize hc0 : c.evt (if cls then 2 else 3) 1 = c0 at e0
  have i0 : c0.inflight = c.inflight := by rw [← hc0]; rfl
  have y0 : c0.cycle = c.cycle := by rw [← hc0]; rfl
  let k := if cls then 0 else 1
  have hs : u.slotTick n cls = u0.coreTick n k := rfl
  have hwf : ∀ w ∈ (c0.slotted k).inflight, (∃ k v, w.op = .reg k v) ∨ c0.cycle + 1 < w.due := by
    rw [Core.slotted_inflight, i0, y0]; exact hw
  obtain ⟨l1, l2⟩ := Core.landed_regs (c0.slotted k) (c0.cycle + 1) hwf
  have hcr : ∀ j, ((c0.slotted k).landed (c0.cycle + 1)).cr j = (c0.slotted k).cr j := by
    intro j; rw [l1]; rfl
  obtain ⟨t1, t2⟩ := State.coreTick_quiet u0 n k (by
    rw [e0]; intro j _ hj
    unfold Core.av at hj ⊢
    rw [hcr] at hj; exact hj)
  rw [e0] at t2
  have o1 : OnlyCore s (u0.coreTick n k) n := hu.trans ((OnlyCore.updCore ..).trans t1)
  have hb : (u0.coreTick n k).breakAt n (((s.core n).pc + 1) % 8192) = none := by
    rw [State.breakAt_congr (t := s)]
    · exact h.unbroken
    · rw [o1.1]
  have od : old.delay = none := by rw [ho]; exact h.delay
  have op : old.pc = (s.core n).pc := by rw [ho]
  have ol : ∀ l, l < 2 → ∀ ls le, old.loopAt l = some (ls, le) → le ≠ old.pc := by
    rw [op]
    have e : ∀ l, old.loopAt l = (s.core n).loopAt l := by intro l; rw [ho]; rfl
    intro l hl ls le he
    rw [e] at he
    exact h.loops l hl ls le he
  obtain ⟨a1, a2⟩ := State.advance_plain (u0.coreTick n k) n old written od ol (by rw [op]; exact hb)
  rw [op] at a2
  have a3 : t.core n = { (c0.slotted k).landed (c0.cycle + 1) with
      fresh := false, lastPc := ((c0.slotted k).landed (c0.cycle + 1)).pc, pc := ((s.core n).pc + 1) % 8192 } := by
    rw [← t2]; exact a2
  have p0 : ((c0.slotted k).landed (c0.cycle + 1)).pc = c.pc := by
    rw [l1]; show (c0.slotted k).pc = c.pc
    rw [Core.slotted_same, ← hc0]; rfl
  refine ⟨o1.trans a1, ?_, ?_⟩
  · refine ⟨?_, ?_, ?_, ?_, ?_, ?_, ?_⟩
    · rw [a3, hpc]
    · rw [a3, l1]; show (c0.slotted k).cycle = c.cycle + 1
      rw [Core.slotted_same]; show c0.cycle + 1 = _
      rw [y0]
    · rw [a3, l1]; show (c0.slotted k).inflight.filter _ = _
      rw [Core.slotted_inflight, i0, y0]
    · intro j hj
      rw [a3]
      show ((c0.slotted k).landed (c0.cycle + 1)).rd j = _
      rw [l2, Core.slotted_inflight, i0, y0]
      have hx : ∀ (l : List InFlight) (x : Word), (∀ w ∈ l, ∃ k v, w.op = .reg k v ∧ k ∈ wr) → l.foldl (fun x w => w.applied j x) x = x := by
        intro l
        induction l with
        | nil => intros; rfl
        | cons w l ih =>
          intro x hl
          obtain ⟨i, v, ho, hi⟩ := hl w (by simp)
          rw [List.foldl_cons, ih _ (fun w hw => hl w (by simp [hw]))]
          unfold InFlight.applied
          rw [ho]
          have : i ≠ j := fun e => hj (e ▸ hi)
          simp [this]
      rw [hx _ _ (fun w hw => by
        rw [List.mem_filter] at hw
        exact hwr w hw.1 (of_decide_eq_true hw.2))]
      rw [Core.slotted_same, ← hc0]; rfl
    · intro j _
      rw [a3, l1]
      show (c0.slotted k).accRd j = _
      rw [Core.slotted_same, ← hc0]; rfl
    · intro j _
      rw [a3, l1]
      show (c0.slotted k).cr j = _
      rw [Core.slotted_same, ← hc0]; rfl
    · rw [a3, p0]
      rw [l1, Core.slotted_same, ← hc0]
      rfl
  · intro j
    rw [a3]
    show ((c0.slotted k).landed (c0.cycle + 1)).rd j = _
    rw [l2, Core.slotted_inflight, i0, y0]
    congr 1
    rw [Core.slotted_same, ← hc0]; rfl

/-- The end of a bundle on a calm core `s.core n`. -/
theorem State.bundle_end {s u : State} {n : Nat} (h : s.Calm n) (hu : OnlyCore s u n) {c : Core} (hc : u.core n = c)
    (hpc : c.pc = (s.core n).pc)
    (hw : ∀ w ∈ c.inflight, (∃ k v, w.op = .reg k v) ∨ c.cycle + 1 < w.due) (cls : Bool) (written : List Nat) (wr : List Nat)
    (hwr : ∀ w ∈ c.inflight, w.due ≤ c.cycle + 1 → ∃ k v, w.op = .reg k v ∧ k ∈ wr) :
    let t := (u.slotTick n cls).advance n (s.core n) written
    OnlyCore s t n ∧ c.Moved (t.core n) wr (c.inflight.filter (fun w => decide (c.cycle + 1 < w.due))) ∧
      ∀ k, (t.core n).rd k = (c.inflight.filter (fun w => decide (w.due ≤ c.cycle + 1))).foldl (fun x w => w.applied k x) (c.rd k) :=
  State.bundle_end_of h (s.core n) rfl hu hc hpc hw cls written wr hwr

/-! ### Whole bundles of one operation -/

/-- What the writes in flight and the counters of a core are does not matter for what it moves to. -/
theorem Core.Moved.rebase {c c0 d : Core} {wr : List Nat} {fl : List InFlight} (h : c.Moved d wr fl)
    (e : c = { c0 with inflight := c.inflight, pcnt := c.pcnt }) : c0.Moved d wr fl := by
  obtain ⟨h1, h2, h3, h4, h5, h6, h7⟩ := h
  refine ⟨?_, ?_, h3, ?_, ?_, ?_, ?_⟩
  · rw [h1, e]
  · rw [h2, e]
  · intro k hk; rw [h4 k hk, e]; rfl
  · intro k hk; rw [h5 k hk, e]; rfl
  · intro k hk; rw [h6 k hk, e]; rfl
  · rw [h7, e]

/-- A core with other registers, which are all among those written. -/
theorem Core.Moved.rebaseRegs {c c0 d : Core} {wr : List Nat} {fl : List InFlight} (h : c.Moved d wr fl)
    (e : c = { c0 with inflight := c.inflight, pcnt := c.pcnt, regs := c.regs, soft := c.soft })
    (hr : ∀ k, k ∉ wr → c.rd k = c0.rd k) : c0.Moved d wr fl := by
  obtain ⟨h1, h2, h3, h4, h5, h6, h7⟩ := h
  refine ⟨?_, ?_, h3, ?_, ?_, ?_, ?_⟩
  · rw [h1, e]
  · rw [h2, e]
  · intro k hk; rw [h4 k hk, hr k hk]
  · intro k hk; rw [h5 k hk, e]; rfl
  · intro k hk; rw [h6 k hk, e]; rfl
  · rw [h7, e]

/-- A C operation alone in its bundle, whose effect `u` leaves register writes that are due in the next cycle or later ones. -/
theorem State.c_bundle {s : State} {n : Nat} (h : s.Calm n) {p : Pred} {o : COp} {acc : Access} (hp : (s.core n).holds p = true)
    (h1 : cLegal o = true) (h2 : (s.core n).placed (s.core n).pc o true = true) (h3 : (cWrites o).Nodup)
    (h4 : ((s.core n).voice && (s.core n).privileged o) = false) (h5 : (s.core n).flow o true = .next)
    (h6 : (s.core n).reps { Bundle.nop with cp := p, c := o } = 0) (hu : OnlyCore s (s.cData n (s.core n) o acc) n) {c : Core}
    (hc : (s.cData n (s.core n) o acc).core n = c) (hpc : c.pc = (s.core n).pc)
    (hw : ∀ w ∈ c.inflight, (∃ k v, w.op = .reg k v) ∨ c.cycle + 1 < w.due) (wr : List Nat)
    (hwr : ∀ w ∈ c.inflight, w.due ≤ c.cycle + 1 → ∃ k v, w.op = .reg k v ∧ k ∈ wr) :
    OnlyCore s (s.issueC n p o Bundle.nop acc) n ∧
      c.Moved ((s.issueC n p o Bundle.nop acc).core n) wr (c.inflight.filter (fun w => decide (c.cycle + 1 < w.due))) ∧
      ∀ k, ((s.issueC n p o Bundle.nop acc).core n).rd k =
        (c.inflight.filter (fun w => decide (w.due ≤ c.cycle + 1))).foldl (fun x w => w.applied k x) (c.rd k) := by
  rw [State.issueC_calm h p o acc hp h1 h2 h3 h4 h5 h6]
  exact State.bundle_end h hu hc hpc hw _ _ wr hwr

/-- A C operation whose effect is one register write in the next cycle. -/
theorem Bundled.of_reg {s : State} {n : Nat} (h : s.Calm n) {i : Instr} {p : Pred} {o : COp} {acc : Access}
    (hi : exec i s = .next (s.issueC n p o Bundle.nop acc)) (hp : (s.core n).holds p = true)
    (h1 : cLegal o = true) (h2 : (s.core n).placed (s.core n).pc o true = true) (h3 : (cWrites o).Nodup)
    (h4 : ((s.core n).voice && (s.core n).privileged o) = false) (h5 : (s.core n).flow o true = .next)
    (h6 : (s.core n).reps { Bundle.nop with cp := p, c := o } = 0) {u : State} (hu : OnlyCore s u n)
    (hc : u.core n = { s.core n with pcnt := (u.core n).pcnt }) {code : Nat} {v : Word}
    (hd : s.cData n (s.core n) o acc = u.later n 1 (.reg code v)) : Bundled s n i [code] [] (fun c => c.rd code = v) := by
  have hcore : (s.cData n (s.core n) o acc).core n =
      { u.core n with inflight := [{ due := (s.core n).cycle + 1, voice := (s.core n).voice, op := .reg code v }] } := by
    rw [hd]
    unfold State.later
    rw [State.core_updCore_same, hc]
    unfold Core.later
    rw [h.inflight]; rfl
  have hcyc : (u.core n).cycle = (s.core n).cycle := by rw [hc]
  obtain ⟨a, b, c⟩ := State.c_bundle h hp h1 h2 h3 h4 h5 h6 (by rw [hd]; exact hu.trans (OnlyCore.updCore ..)) hcore (by rw [hc])
    (by intro w hw; simp only [List.mem_singleton] at hw; subst hw; exact Or.inl ⟨_, _, rfl⟩) [code]
    (by intro w hw _; simp only [List.mem_singleton] at hw; subst hw; exact ⟨_, _, rfl, by simp⟩)
  refine ⟨_, hi, a, ?_, ?_⟩
  · have := Core.Moved.rebase (c0 := s.core n) b (by rw [hc])
    simpa [hcyc] using this
  · show ((s.issueC n p o Bundle.nop acc).core n).rd code = v
    rw [c code]
    simp [hcyc, InFlight.applied]

/-- A C operation whose results are all in flight beyond the next cycle. -/
theorem Bundled.of_launch {s : State} {n : Nat} (h : s.Calm n) {i : Instr} {p : Pred} {o : COp} {acc : Access}
    (hi : exec i s = .next (s.issueC n p o Bundle.nop acc)) (hp : (s.core n).holds p = true)
    (h1 : cLegal o = true) (h2 : (s.core n).placed (s.core n).pc o true = true) (h3 : (cWrites o).Nodup)
    (h4 : ((s.core n).voice && (s.core n).privileged o) = false) (h5 : (s.core n).flow o true = .next)
    (h6 : (s.core n).reps { Bundle.nop with cp := p, c := o } = 0) (hu : OnlyCore s (s.cData n (s.core n) o acc) n)
    {c0 : Core} {fl : List InFlight} (hc : (s.cData n (s.core n) o acc).core n =
      { c0 with inflight := fl, pcnt := ((s.cData n (s.core n) o acc).core n).pcnt })
    (hpc : c0.pc = (s.core n).pc) (hfl : ∀ w ∈ fl, c0.cycle + 1 < w.due) : BundledFrom s n i c0 [] fl (fun _ => True) := by
  obtain ⟨a, b, -⟩ := State.c_bundle h hp h1 h2 h3 h4 h5 h6 hu rfl (by rw [hc]; exact hpc)
    (by intro w hw; rw [hc] at hw ⊢; exact Or.inr (hfl w hw)) []
    (by intro w hw hd; rw [hc] at hw hd; exact absurd (hfl w hw) (Nat.not_lt.2 hd))
  refine ⟨_, hi, a, ?_, trivial⟩
  have hb := Core.Moved.rebase (c0 := c0) b (by rw [hc])
  have e : (((s.cData n (s.core n) o acc).core n).inflight.filter
      (fun w => decide (((s.cData n (s.core n) o acc).core n).cycle + 1 < w.due))) = fl := by
    rw [hc, List.filter_eq_self]
    intro w hw
    exact decide_eq_true (hfl w hw)
  rw [e] at hb
  exact hb

theorem Core.evt_same (c : Core) (e k : Nat) : c.evt e k = { c with pcnt := (c.evt e k).pcnt } := rfl

/-- A saturated read is counted, and nothing else. -/
theorem State.satRead_only (s : State) (n : Nat) : OnlyCore s (s.satRead n) n := (OnlyCore.updCore ..).trans (OnlyCore.corePmu ..)

theorem State.satRead_core (s : State) (n : Nat) : (s.satRead n).core n = (s.core n).evt 0x11 1 := by
  unfold State.satRead
  exact (State.core_corePmu ..).trans (State.core_updCore_same s n _)

/-- A rounded read is counted, and nothing else. -/
theorem State.countRead_only (s : State) (n : Nat) (r : ReadCount) : OnlyCore s (s.countRead n r) n := by
  cases r
  · exact OnlyCore.refl ..
  · exact (OnlyCore.updCore ..).trans (OnlyCore.corePmu ..)
  · exact State.satRead_only ..

theorem State.countRead_core (s : State) (n : Nat) (r : ReadCount) :
    (s.countRead n r).core n = { s.core n with pcnt := ((s.countRead n r).core n).pcnt } := by
  have key : ∀ c : Core, ∀ e k, c = (s.core n).evt e k → c = { s.core n with pcnt := c.pcnt } := by
    rintro c e k rfl; exact Core.evt_same ..
  cases r
  · rfl
  · exact key _ 0x12 1 ((State.core_corePmu ..).trans (State.core_updCore_same s n _))
  · exact key _ 0x11 1 (State.satRead_core ..)

/-- Writes in flight of core `c` that take hold in the next cycle. -/
def Core.due1 (c : Core) (ws : List (Nat × Word)) : List InFlight :=
  ws.map (fun x => { due := c.cycle + 1, voice := c.voice, op := .reg x.1 x.2 })

/-- A list of register writes, applied in order. -/
def lastWrite (ws : List (Nat × Word)) (k : Nat) (x : Word) : Word := ws.foldl (fun x w => if w.1 = k then w.2 else x) x

/-- A C operation whose effect on the core, otherwise `c0`, is register writes in the next cycle. -/
theorem BundledFrom.of_regs {s : State} {n : Nat} (h : s.Calm n) {i : Instr} {p : Pred} {o : COp} {acc : Access}
    (hi : exec i s = .next (s.issueC n p o Bundle.nop acc)) (hp : (s.core n).holds p = true)
    (h1 : cLegal o = true) (h2 : (s.core n).placed (s.core n).pc o true = true) (h3 : (cWrites o).Nodup)
    (h4 : ((s.core n).voice && (s.core n).privileged o) = false) (h5 : (s.core n).flow o true = .next)
    (h6 : (s.core n).reps { Bundle.nop with cp := p, c := o } = 0) (hu : OnlyCore s (s.cData n (s.core n) o acc) n)
    {c0 : Core} {ws : List (Nat × Word)} (hc : (s.cData n (s.core n) o acc).core n =
      { c0 with inflight := c0.due1 ws, pcnt := ((s.cData n (s.core n) o acc).core n).pcnt }) (hpc : c0.pc = (s.core n).pc)
    {wr : List Nat} (hwr : ∀ w ∈ ws, w.1 ∈ wr) :
    BundledFrom s n i c0 wr [] (fun d => ∀ k, d.rd k = lastWrite ws k (c0.rd k)) := by
  have hin : ∀ w ∈ ((s.cData n (s.core n) o acc).core n).inflight, w.due = c0.cycle + 1 ∧ ∃ k v, w.op = .reg k v ∧ k ∈ wr := by
    intro w hw
    rw [hc] at hw
    obtain ⟨x, hx, rfl⟩ := List.mem_map.1 hw
    exact ⟨rfl, _, _, rfl, hwr x hx⟩
  have hcy : ((s.cData n (s.core n) o acc).core n).cycle = c0.cycle := by rw [hc]
  obtain ⟨a, b, r⟩ := State.c_bundle h hp h1 h2 h3 h4 h5 h6 hu rfl (by rw [hc]; exact hpc)
    (by intro w hw; obtain ⟨-, k, v, e, -⟩ := hin w hw; exact Or.inl ⟨k, v, e⟩) wr
    (by intro w hw _; exact (hin w hw).2)
  have e1 : ((s.cData n (s.core n) o acc).core n).inflight.filter
      (fun w => decide (((s.cData n (s.core n) o acc).core n).cycle + 1 < w.due)) = [] := by
    rw [List.filter_eq_nil_iff]
    intro w hw
    rw [hcy, (hin w hw).1]
    simp
  have e2 : ((s.cData n (s.core n) o acc).core n).inflight.filter
      (fun w => decide (w.due ≤ ((s.cData n (s.core n) o acc).core n).cycle + 1)) = c0.due1 ws := by
    rw [List.filter_eq_self.2]
    · rw [hc]
    · intro w hw
      rw [hcy, (hin w hw).1]
      simp
  refine ⟨_, hi, a, ?_, ?_⟩
  · rw [e1] at b
    exact Core.Moved.rebase b (by rw [hc])
  · intro k
    rw [r k, e2]
    have : ((s.cData n (s.core n) o acc).core n).rd k = c0.rd k := by rw [hc]; rfl
    rw [this]
    unfold lastWrite Core.due1
    rw [List.foldl_map]
    rfl

/-- The core after writes in flight were added to one that had none. -/
theorem State.core_later (s : State) (n lat : Nat) (op : WriteOp) :
    (s.later n lat op).core n = { s.core n with
      inflight := (s.core n).inflight ++ [{ due := (s.core n).cycle + lat, voice := (s.core n).voice, op := op }] } := by
  unfold State.later
  rw [State.core_updCore_same]
  rfl

theorem State.later_only (s : State) (n lat : Nat) (op : WriteOp) : OnlyCore s (s.later n lat op) n := OnlyCore.updCore ..

theorem flag_boolWord (b : Bool) : decide (fieldOf (boolWord b) 0 1 = 1) = b := by cases b <;> rfl

/-- An M operation alone in its bundle. -/
theorem Core.legal_m (c : Core) (p : Pred) (o : MOp) (h1 : mLegal o = true) (h2 : (mWrites o 0).Nodup) :
    c.legal c.pc { Bundle.nop with mp := p, m := o } = true := by
  show (mLegal o && true && true && true && true && !decide (¬ (mWrites o 0 ++ [] ++ [] ++ []).Nodup)) = true
  simp [h1, h2]

theorem State.issueM_calm {s : State} {n : Nat} (h : s.Calm n) (p : Pred) (o : MOp) (hp : (s.core n).holds p = true)
    (h0 : o.kind ≠ .nop) (h1 : mLegal o = true) (h2 : (mWrites o 0).Nodup) :
    s.issue n { Bundle.nop with mp := p, m := o } Access.quiet Access.quiet =
      ((s.mOp n (s.core n) o 0).slotTick n true).advance n (s.core n) [] := by
  rw [State.issue_calm h _ _ _ (Core.legal_m _ _ _ h1 h2) (Bool.and_false _)]
  have hm : ((s.core n).holds p && decide (o.kind ≠ .nop)) = true := by simp [hp, h0]
  show (((s.once n { Bundle.nop with mp := p, m := o } ((s.core n).holds p && decide (o.kind ≠ .nop)) false false Access.quiet Access.quiet 0).slotTick n
    (((s.core n).holds p && decide (o.kind ≠ .nop)) || false || false || false)).advance n (s.core n) []) = _
  rw [hm]
  rfl

/-- An M operation alone in its bundle, with what it leaves in flight. -/
theorem Bundled.of_m {s : State} {n : Nat} (h : s.Calm n) {i : Instr} {p : Pred} {o : MOp}
    (hi : exec i s = .next (s.issue n { Bundle.nop with mp := p, m := o } Access.quiet Access.quiet)) (hp : (s.core n).holds p = true)
    (h0 : o.kind ≠ .nop) (h1 : mLegal o = true) (h2 : (mWrites o 0).Nodup) (hu : OnlyCore s (s.mOp n (s.core n) o 0) n)
    {fl : List InFlight} (hc : (s.mOp n (s.core n) o 0).core n =
      { s.core n with inflight := fl, pcnt := ((s.mOp n (s.core n) o 0).core n).pcnt })
    (hfl : ∀ w ∈ fl, (s.core n).cycle + 1 < w.due) : Bundled s n i [] fl (fun _ => True) := by
  obtain ⟨a, b, -⟩ := State.bundle_end h hu rfl (by rw [hc])
    (by intro w hw; rw [hc] at hw ⊢; exact Or.inr (hfl w hw)) true [] []
    (by intro w hw hd; rw [hc] at hw hd; exact absurd (hfl w hw) (Nat.not_lt.2 hd))
  rw [State.issueM_calm h p o hp h0 h1 h2] at hi
  refine ⟨_, hi, a, ?_, trivial⟩
  have hb := Core.Moved.rebase (c0 := s.core n) b (by rw [hc])
  have e : ((s.mOp n (s.core n) o 0).core n).inflight.filter
      (fun w => decide (((s.mOp n (s.core n) o 0).core n).cycle + 1 < w.due)) = fl := by
    rw [hc, List.filter_eq_self]
    intro w hw
    exact decide_eq_true (hfl w hw)
  rw [e] at hb
  exact hb

/-- Several results in flight, one after the other. -/
theorem State.foldl_later {α : Type} (n lat : Nat) (f : α → WriteOp) (l : List α) (s : State) :
    OnlyCore s (l.foldl (fun t r => t.later n lat (f r)) s) n ∧
      (l.foldl (fun t r => t.later n lat (f r)) s).core n = { s.core n with
        inflight := (s.core n).inflight ++ l.map (fun r => { due := (s.core n).cycle + lat, voice := (s.core n).voice, op := f r }) } := by
  induction l generalizing s with
  | nil => exact ⟨OnlyCore.refl .., by simp⟩
  | cons x l ih =>
    obtain ⟨a, b⟩ := ih (s.later n lat (f x))
    rw [List.foldl_cons]
    refine ⟨(State.later_only ..).trans a, ?_⟩
    rw [b, State.core_later]
    exact congrArg (fun x => ({ s.core n with inflight := x } : Core)) (List.append_assoc ..)

/-- A change of core `n` after a change of registers. -/
theorem OnlyCore.of_regs {s u t : State} {n : Nat} (h : OnlyCore u t n) (hu : u = { s with regs := u.regs }) :
    OnlyCore { s with regs := t.regs } t n := by
  obtain ⟨h1, h2⟩ := h
  have hr : t.regs = u.regs := by rw [h1]
  refine ⟨?_, fun m hm => (h2 m hm).trans (by rw [hu]; rfl)⟩
  rw [hr]
  exact h1.trans (by rw [hu])

end Sys2Proof.Machine
end

