-- ==== Sys2Proof/Laws/CoreBundles.lean ====
section
/-! SUPPORT. What a bundle of one operation does on a calm core: register results, M results, memory operations and branches. -/

namespace Sys2Proof.Machine

open Sys2Proof

/-- Saturation to a word is the clamp of R181. -/
theorem clamp32_eq (v : Int) : (sat32 v).1 = clamp32 v := by
  unfold sat32 clamp32
  split
  · rw [Int.min_eq_left (by omega), Int.max_eq_right (by omega)]; rfl
  · split
    · rw [Int.min_eq_right (by omega), Int.max_eq_left (by omega)]; rfl
    · rw [Int.min_eq_right (by omega), Int.max_eq_right (by omega)]

/-- A C operation that writes one register. -/
theorem Bundled.of_c {s : State} {n : Fin 34} (h : s.Calm n) {p : Pred} (hp : (s.core n).holds p = true) {i : Instr} (o : COp) {acc : Access} (hi : exec i s = .next (s.issueC n p o Bundle.nop acc))
   (h1 : cLegal o = true) (h2 : (s.core n).placed (s.core n).pc o true = true) (h3 : (cWrites o).Nodup) (h4 : ((s.core n).voice && (s.core n).privileged o) = false)
   (h5 : (s.core n).flow o true = .next)
    (h6 : (s.core n).reps { Bundle.nop with cp := p, c := o } = 0) {code : Nat} {v w : Word} (hvw : w = v) (hd : s.cData n (s.core n) o acc = s.later n 1 (.reg code w)) :
   Bundled s n i [code] [] (fun c => c.rd code = v) := by
  subst hvw
  exact Bundled.of_reg h hi hp h1 h2 h3 h4 h5 h6 (OnlyCore.refl ..) rfl hd

/-- A C operation that writes one saturated result. -/
theorem Bundled.of_sat {s : State} {n : Fin 34} (h : s.Calm n) {p : Pred} (hp : (s.core n).holds p = true) {i : Instr} (o : COp) {acc : Access} (hi : exec i s = .next (s.issueC n p o Bundle.nop acc))
   (h1 : cLegal o = true) (h2 : (s.core n).placed (s.core n).pc o true = true) (h3 : (cWrites o).Nodup) (h4 : ((s.core n).voice && (s.core n).privileged o) = false)
   (h5 : (s.core n).flow o true = .next)
    (h6 : (s.core n).reps { Bundle.nop with cp := p, c := o } = 0) {d : Nat} {x : Int} (hd : s.cData n (s.core n) o acc = s.aluWrite n (s.core n) d (sat32 x)) :
   ResultIn s n i d (clamp32 x) := by
  rw [← clamp32_eq]
  unfold State.aluWrite at hd
  refine Bundled.of_reg h hi hp h1 h2 h3 h4 h5 h6 (u := if (sat32 x).2 then s.satRead n else s) ?_ ?_ hd
  · split
    · exact State.satRead_only ..
    · exact OnlyCore.refl ..
  · split
    · exact State.countRead_core s n .saturated
    · rfl

/-- The address registers lie above the G registers. -/
theorem codeX_lt (file : AddrFile) (k : Fin 8) : 32 ≤ codeX file k := by cases file <;> simp [codeX] <;> omega

/-- The flags as a word, bit by bit. -/
theorem Core.mff_bits (c : Core) : ∀ j, (BitVec.ofNat 32 ((List.range 8).foldl (fun v i => v + if c.flag i then 2 ^ i else 0) 0)).getLsbD j = (decide (j < 8) && c.flag j) := by
  have key : ∀ f : Nat → Bool, ∀ j, (BitVec.ofNat 32 ((List.range 8).foldl (fun v i => v + if f i then 2 ^ i else 0) 0)).getLsbD j = (decide (j < 8) && f j) := by
    intro f j
    simp only [List.range, List.range.loop, List.foldl]
    by_cases hj : j < 8
    · have : j = 0 ∨ j = 1 ∨ j = 2 ∨ j = 3 ∨ j = 4 ∨ j = 5 ∨ j = 6 ∨ j = 7 := by omega
      rcases this with h | h | h | h | h | h | h | h <;> subst h <;>
      cases f 0 <;> cases f 1 <;> cases f 2 <;> cases f 3 <;> cases f 4 <;> cases f 5 <;> cases f 6 <;> cases f 7 <;> rfl
    · have hlt : 0 + (if f 0 = true then 2^0 else 0) + (if f 1 = true then 2^1 else 0)+ (if f 2 = true then 2^2 else 0)+ (if f 3 = true then 2^3 else 0)+ (if f 4 = true then 2^4 else 0)+ (if f 5 = true then 2^5 else 0)+ (if f 6 = true then 2^6 else 0)+ (if f 7 = true then 2^7 else 0) < 2 ^ 8 := by
        cases f 0 <;> cases f 1 <;> cases f 2 <;> cases f 3 <;> cases f 4 <;> cases f 5 <;> cases f 6 <;> cases f 7 <;> decide
      simp only [hj, decide_false, Bool.false_and]
      rw [BitVec.getLsbD_ofNat]
      rw [Nat.testBit_lt_two_pow (Nat.lt_of_lt_of_le hlt (Nat.pow_le_pow_right (by omega) (by omega)))]
      simp
  exact key c.flag

/-- Only the resonator steps put a product back. -/
theorem cresState_none {c : Core} {o : MOp} (h : o.kind ≠ .cres0 ∧ o.kind ≠ .cres) (r : Nat) : cresState c o r = [] := by
  unfold cresState; split <;> simp_all

/-- An M operation other than a resonator step. -/
theorem State.mOp_plain {s : State} {n : Nat} (hi : (s.core n).inflight = []) (o : MOp) (h0 : o.kind ≠ .nop) (hc : o.kind ≠ .cres0 ∧ o.kind ≠ .cres) :
    OnlyCore s (s.mOp n (s.core n) o 0) n ∧ (s.mOp n (s.core n) o 0).core n =
      { s.core n with
        inflight := (mResults (s.core n) o 0).map (fun r => { due := (s.core n).cycle + 3, voice := (s.core n).voice, op := .acc r.1 (accWrap r.2.1).1 r.2.2 (accWrap r.2.1).2 })
        pcnt := ((s.mOp n (s.core n) o 0).core n).pcnt } := by
  unfold State.mOp
  rw [if_neg h0, cresState_none hc]
  obtain ⟨a, b⟩ := State.foldl_later n 3 (fun r : Nat × Int × Bool => WriteOp.acc r.1 (accWrap r.2.1).1 r.2.2 (accWrap r.2.1).2) (mResults (s.core n) o 0)
    (s.updCore n (fun d => let e := d.evt 0x09 1; if mComplex o.kind then e.evt 0x0A 1 else e))
  refine ⟨(OnlyCore.updCore ..).trans a, ?_⟩
  rw [List.foldl_nil]
  dsimp only
  rw [b, State.core_updCore_same]
  have key : ∀ d : Core, d = { s.core n with pcnt := d.pcnt } → ∀ l : List InFlight, ({ d with inflight := d.inflight ++ l } : Core) =
     { s.core n with inflight := l, pcnt := d.pcnt } := by
    intro d hd l
    rw [hd, hi]; rfl
  have k2 : ∀ d : Core, d = { s.core n with pcnt := d.pcnt } → d.voice = (s.core n).voice ∧ d.cycle = (s.core n).cycle := by
    intro d hd; rw [hd]; exact ⟨rfl, rfl⟩
  have hd : ∀ d : Core, d = (if mComplex o.kind then ((s.core n).evt 0x09 1).evt 0x0A 1 else (s.core n).evt 0x09 1) → d = { s.core n with pcnt := d.pcnt } := by
    rintro d rfl; split <;> rfl
  rw [(k2 _ (hd _ rfl)).1, (k2 _ (hd _ rfl)).2]
  exact key _ (hd _ rfl) _

/-- An M operation alone in its bundle. -/
theorem Bundled.of_mOp {s : State} {n : Fin 34} (h : s.Calm n) {p : Pred} (hp : (s.core n).holds p = true) {i : Instr} (o : MOp)
   (hi : exec i s = .next (s.issue n { Bundle.nop with mp := p, m := o } Access.quiet Access.quiet)) (h0 : o.kind ≠ .nop) (hcr : o.kind ≠ .cres0 ∧ o.kind ≠ .cres) (h1 : mLegal o = true) (h2 : (mWrites o 0).Nodup)
   {ops : List (Nat × WriteOp)} (hops : ops = (mResults (s.core n) o 0).map (fun r => (3, .acc r.1 (accWrap r.2.1).1 r.2.2 (accWrap r.2.1).2))) : Launches s n i ops := by
  obtain ⟨a, b⟩ := State.mOp_plain h.inflight o h0 hcr
  subst hops
  unfold Launches
  rw [List.map_map]
  exact Bundled.of_m h hi hp h0 h1 h2 a b (by intro w hw; obtain ⟨x, -, rfl⟩ := List.mem_map.1 hw; show _ < _ + 3; omega)

/-- With nothing in flight an accumulator is as stored. -/
theorem Core.accNow_calm {c : Core} (h : c.inflight = []) (k : Nat) : c.accNow k = c.accRd k := by unfold Core.accNow; rw [h]; rfl

/-- An accumulator result and its overflow. -/
theorem accWrap_eq (v : Int) : accWrap v = (BitVec.ofInt 72 v, if 2 ^ 71 ≤ v then some false else if v < -(2 ^ 71) then some true else none) := rfl

/-- Two even numbers. -/
theorem even_both {a b : Nat} (ha : a % 2 = 0) (hb : b % 2 = 0) : (decide (a % 2 = 0) && decide (b % 2 = 0)) = true := by simp [ha, hb]

/-- An operation not performed goes on with the next bundle. -/
theorem Core.flow_off (c : Core) (o : COp) (h : isBranch o = false) : c.flow o false = .next := by
  unfold Core.flow; simp [h]

/-- A search that meets the same answers. -/
theorem find_same {α} (l : List α) (f g : α → Bool) (h : ∀ x ∈ l, f x = g x) : l.find? f = l.find? g := by
  induction l with
  | nil => rfl
  | cons x l ih =>
    rw [List.find?_cons, List.find?_cons, h x (by simp), ih (fun y hy => h y (by simp [hy]))]

/-- Breakpoints depend on the DBG page alone. -/
theorem State.breakAt_low {s t : State} (h : ∀ a, a < 0x20000 → t.reg a = s.reg a) (n pc : Nat) : t.breakAt n pc = s.breakAt n pc := by
  unfold State.breakAt State.pageOn State.bit
  rw [h Reg.DBG_CTRL (by decide), h (Reg.PAGE_CTRL Page.dbg) (by decide)]
  have : (List.range 8).find? (fun k =>
    let w := t.reg (Reg.DBG_BP_CFG k)
    decide (fieldOf w 31 1 = 1) && (decide (fieldOf w 24 6 = 0x3F) || decide (fieldOf w 24 6 = n)) && decide (fieldOf w 0 13 = pc)) = (List.range 8).find? (fun k =>
    let w := s.reg (Reg.DBG_BP_CFG k)
    decide (fieldOf w 31 1 = 1) && (decide (fieldOf w 24 6 = 0x3F) || decide (fieldOf w 24 6 = n)) && decide (fieldOf w 0 13 = pc)) := by
    refine find_same _ _ _ (fun k hk => ?_)
    have hk := List.mem_range.1 hk
    rw [h (Reg.DBG_BP_CFG k) (by unfold Reg.DBG_BP_CFG; omega)]
  rw [this]

/-- A calm core stays calm under a change of registers above the pages. -/
theorem State.Calm.of_low {s : State} {n : Nat} (h : s.Calm n) {t : State} (hc : t.core n = s.core n) (hr : ∀ a, a < 0x20000 → t.reg a = s.reg a)
   (hi : t.reg (Reg.PAGE_ERR_INJ (Page.vc0 + n)) = s.reg (Reg.PAGE_ERR_INJ (Page.vc0 + n))) : t.Calm n := by
  obtain ⟨h1, h2, h3, h4, h5, h6, h7⟩ := h
  refine ⟨?_, ?_, ?_, ?_, ?_, ?_, ?_⟩
  · unfold State.ready; rw [hc]; exact h1
  · rw [hc]; exact h2
  · rw [hc]; exact h3
  · rw [hc]; exact h4
  · rw [hc]; exact h5
  · rw [hc, State.breakAt_low hr]; exact h6
  · unfold State.bit; rw [hi]; exact h7

/-- The bundle of one memory operation. -/
theorem Core.legal_mem (c : Core) (p : Pred) (y : Bool) (o : MemOp) (h1 : memLegal o = true) (h2 : (memWrites o).Nodup) :
    c.legal c.pc (if y then { Bundle.nop with yp := p, y := some o } else { Bundle.nop with xp := p, x := some o }) = true := by
  cases y
  · show (mLegal MOp.nop && memLegal o && true && true && true && !decide (¬ ([] ++ memWrites o ++ [] ++ []).Nodup)) = true
    simp [h1, h2, mLegal, MOp.nop]
  · show (mLegal MOp.nop && true && memLegal o && true && true && !decide (¬ ([] ++ [] ++ memWrites o ++ []).Nodup)) = true
    simp [h1, h2, mLegal, MOp.nop]

/-- A memory operation alone in its bundle on a calm core. -/
theorem State.issueMem_calm {s : State} {n : Nat} (h : s.Calm n) (p : Pred) (y : Bool) (o : MemOp) (hp : (s.core n).holds p = true)
    (h1 : memLegal o = true) (h2 : (memWrites o).Nodup) :
    s.issueMem n y p o.kind o.reg o.ptr o.am Bundle.nop Access.quiet Access.quiet =
      ((s.memOp n (s.core n) y o Access.quiet).slotTick n true).advance n (s.core n) [] := by
  unfold State.issueMem
  cases y
  · have hl := Core.legal_mem (s.core n) p false o h1 h2
    simp only [Bool.false_eq_true, if_false] at hl ⊢
    rw [State.issue_calm h _ _ _ hl (Bool.and_false _)]
    show (((s.once n { Bundle.nop with xp := p, x := some o } false ((s.core n).holds p && true) false Access.quiet Access.quiet 0).slotTick n
      (false || ((s.core n).holds p && true) || false || false)).advance n (s.core n) []) = _
    rw [hp]; rfl
  · have hl := Core.legal_mem (s.core n) p true o h1 h2
    simp only [if_true] at hl ⊢
    rw [State.issue_calm h _ _ _ hl (Bool.and_false _)]
    show (((s.once n { Bundle.nop with yp := p, y := some o } false false ((s.core n).holds p && true) Access.quiet Access.quiet 0).slotTick n
      (false || false || ((s.core n).holds p && true) || false)).advance n (s.core n) []) = _
    rw [hp]; rfl

/-- The pointer of a memory operation and what it does beside. -/
theorem BundledFrom.mem {s : State} {n : Nat} (h : s.Calm n) {p : Pred} (hp : (s.core n).holds p = true) {y : Bool} {o : MemOp} {i : Instr}
    (hi : exec i s = .next (s.issueMem n y p o.kind o.reg o.ptr o.am Bundle.nop Access.quiet Access.quiet))
    (h1 : memLegal o = true) (h2 : (memWrites o).Nodup) (_hin : InWindow (s.core n) o.ptr o.am (memSize o.kind))
    {u : State} (hm : s.memOp n (s.core n) y o Access.quiet = (match (s.core n).pointerAfter o.ptr o.am (memSize o.kind) with
      | none => u
      | some (q, _) => u.later n 1 (.reg (codeX .p o.ptr) q)))
    (hu : OnlyCore s u n) {c0 : Core} {fl : List InFlight} (hc : u.core n = { c0 with inflight := fl, pcnt := (u.core n).pcnt }) (hpc : c0.pc = (s.core n).pc)
    (hfl : ∀ w ∈ fl, c0.cycle + 1 < w.due) :
    BundledFrom s n i c0 (pointerWrites (s.core n) o.ptr o.am (memSize o.kind)) fl (fun d => PointerMoved (s.core n) d o.ptr o.am (memSize o.kind)) := by
  rw [State.issueMem_calm h p y o hp h1 h2] at hi
  unfold pointerWrites PointerMoved
  cases hq : (s.core n).pointerAfter o.ptr o.am (memSize o.kind) with
  | none =>
    rw [hq] at hm
    rw [hm] at hi
    obtain ⟨a, b, -⟩ := State.bundle_end h hu rfl (by rw [hc]; exact hpc) (by intro w hw; rw [hc] at hw ⊢; exact Or.inr (hfl w hw)) true [] []
      (by intro w hw hd; rw [hc] at hw hd; exact absurd (hfl w hw) (Nat.not_lt.2 hd))
    refine ⟨_, hi, a, ?_, by simp⟩
    have hb := Core.Moved.rebase (c0 := c0) b (by rw [hc])
    have e : (u.core n).inflight.filter (fun w => decide ((u.core n).cycle + 1 < w.due)) = fl := by
      rw [hc, List.filter_eq_self]; intro w hw; exact decide_eq_true (hfl w hw)
    rw [e] at hb
    simpa using hb
  | some v =>
    obtain ⟨q, oor⟩ := v
    rw [hq] at hm
    dsimp only at hm
    rw [hm] at hi
    have hcore : (u.later n 1 (.reg (codeX .p o.ptr) q)).core n = { c0 with inflight := fl ++ [{ due := c0.cycle + 1, voice := c0.voice, op := .reg (codeX .p o.ptr) q }], pcnt := (u.core n).pcnt } := by
      rw [State.core_later, hc]; rfl
    obtain ⟨a, b, r⟩ := State.bundle_end h (hu.trans (State.later_only ..)) hcore hpc
      (by intro w hw; rcases List.mem_append.1 hw with hw | hw
          · exact Or.inr (hfl w hw)
          · simp only [List.mem_singleton] at hw; subst hw; exact Or.inl ⟨_, _, rfl⟩) true [] [codeX .p o.ptr]
      (by intro w hw hd; rcases List.mem_append.1 hw with hw | hw
          · exact absurd (hfl w hw) (Nat.not_lt.2 hd)
          · simp only [List.mem_singleton] at hw; subst hw; exact ⟨_, _, rfl, by simp⟩)
    have e1 : (fl ++ [({ due := c0.cycle + 1, voice := c0.voice, op := .reg (codeX .p o.ptr) q } : InFlight)]).filter (fun w => decide (c0.cycle + 1 < w.due)) = fl := by
      rw [List.filter_append, List.filter_eq_self.2 (fun w hw => decide_eq_true (hfl w hw))]; simp
    have e2 : (fl ++ [({ due := c0.cycle + 1, voice := c0.voice, op := .reg (codeX .p o.ptr) q } : InFlight)]).filter (fun w => decide (w.due ≤ c0.cycle + 1)) = [{ due := c0.cycle + 1, voice := c0.voice, op := .reg (codeX .p o.ptr) q }] := by
      rw [List.filter_append, List.filter_eq_nil_iff.2]
      · simp
      · intro w hw; have := hfl w hw; simp; omega
    refine ⟨_, hi, a, ?_, ?_⟩
    · have hb := Core.Moved.rebase (c0 := c0) b rfl
      have hb2 : c0.Moved _ [codeX .p o.ptr] ((fl ++ [({ due := c0.cycle + 1, voice := c0.voice, op := .reg (codeX .p o.ptr) q } : InFlight)]).filter (fun w => decide (c0.cycle + 1 < w.due))) := hb
      rw [e1] at hb2
      simpa using hb2
    · intro v oor' hv
      simp only [Option.some.injEq, Prod.mk.injEq] at hv
      obtain ⟨rfl, -⟩ := hv
      have r2 := r (codeX .p o.ptr)
      refine r2.trans ?_
      show List.foldl _ _ ((fl ++ [({ due := c0.cycle + 1, voice := c0.voice, op := .reg (codeX .p o.ptr) q } : InFlight)]).filter (fun w => decide (w.due ≤ c0.cycle + 1))) = _
      rw [e2]
      simp [InFlight.applied]

/-- A memory operation whose pointer stays in its window. -/
theorem State.mem_inWindow {s : State} {n : Nat} (c : Core) (y : Bool) (o : MemOp) (acc : Access) (hin : InWindow c o.ptr o.am (memSize o.kind)) (u : State)
    (hu : ∀ s2, s2 = u → s.memOp n c y o acc = (match c.pointerAfter o.ptr o.am (memSize o.kind) with
      | none => s2
      | some (p, oor) =>
        let s3 := s2.later n 1 (.reg (codeX .p o.ptr) p)
        if oor then
          let s4 := s3.updCore n (fun d => d.setCr 0 (setFieldOf (d.cr 0) 10 1 1))
          if fieldOf (c.cr 0) 10 1 = 1 then s4 else s4.raise (Page.vc0 + n) 5
        else s3)) :
    s.memOp n c y o acc = (match c.pointerAfter o.ptr o.am (memSize o.kind) with
      | none => u
      | some (q, _) => u.later n 1 (.reg (codeX .p o.ptr) q)) := by
  rw [hu u rfl]
  cases hq : c.pointerAfter o.ptr o.am (memSize o.kind) with
  | none => rfl
  | some v =>
    obtain ⟨q, oor⟩ := v
    have := hin q oor hq
    subst this; rfl

/-- A load from a front frame. -/
theorem State.load_front {s : State} {n : Nat} (hun : s.bit (Reg.PAGE_ERR_INJ (Page.vc0 + n)) 30 = false) {c : Core} (hc : s.core n = c) (hf : c.fresh = false) (y : Bool) (a k : Nat) (ha : a < 0x4000) :
    s.coreLoad n y a k Access.quiet = (s, (frontFrame c y).slice (a / 4) k) := by
  have hp : s.place n y a false = .front (a / 4) := by unfold State.place; simp only [ha, if_true]
  unfold State.coreLoad
  rw [hp]
  dsimp only
  have : Access.quiet.upset = .clean := rfl
  rw [this, State.coreMemCheck_clean hun]
  rw [hc, hf]
  simp [frontFrame]

/-- The legality of an addressing code. -/
theorem memLegal_am {o : MemOp} (h : o.am ≠ .offset 0) (hk : (match o.kind with
     | .ld2 | .st2 => decide (o.reg.val % 2 = 0)
     | .lda => decide (o.reg.val < 4)
     | .stq => decide (o.reg.val % 16 < 4)
     | _ => true) = true) : memLegal o = true := by
  unfold memLegal; rw [decide_eq_true h, Bool.true_and]; exact hk

/-- A modified pointer beside other destinations. -/
theorem pointer_nodup (ptr : Fin 8) (am : Addressing) (l : List Nat) (h : l.Nodup) (hl : ∀ x ∈ l, x ≠ codeX .p ptr) :
   (l ++ (match am with | .plain => [] | .offset _ => [] | _ => [codeX .p ptr])).Nodup := by
  have : (l ++ [codeX .p ptr]).Nodup := by
    rw [List.nodup_append]
    exact ⟨h, by simp, by intro a ha b hb; simp only [List.mem_singleton] at hb; subst hb; exact hl a ha⟩
  cases am <;> first | exact this | simpa using h

/-- Counters leave the frames alone. -/
theorem Core.front_evt (c : Core) (e k : Nat) : (c.evt e k).front = c.front := rfl

/-- Counters and stored words. -/
theorem withFront_same (c : Core) (y : Bool) (i : Nat) (ws : List Word) (pc : Map Nat) :
   withFront { c with pcnt := pc } y i ws = { withFront c y i ws with pcnt := pc } := by
  unfold withFront Core.setFront Core.front
  by_cases h : c.frontA = true <;> simp [h]

/-- What a store into a frame leaves alone. -/
theorem withFront_fields (c : Core) (y : Bool) (i : Nat) (ws : List Word) : (withFront c y i ws).pc = c.pc ∧ (withFront c y i ws).inflight = c.inflight ∧ (withFront c y i ws).cycle = c.cycle := by
  unfold withFront Core.setFront
  by_cases h : c.frontA = true <;> simp [h]

/-- A store into a front frame. -/
theorem State.store_front {s : State} {n : Nat} (hun : s.bit (Reg.PAGE_ERR_INJ (Page.vc0 + n)) 30 = false) {c : Core} (hc : s.core n = c) (hf : c.fresh = false) (hz : c.front.frozen = false) (y : Bool) (a : Nat) (ws : List Word) (ha : a < 0x4000) :
    s.coreStore n y a ws Access.quiet = s.updCore n (fun c => withFront c y (a / 4) ws) := by
  have hp : s.place n y a true = .front (a / 4) := by unfold State.place; simp only [ha, if_true]
  unfold State.coreStore
  rw [hp]
  dsimp only
  rw [hc, hf, hz]
  have : Access.quiet.upset = .clean := rfl
  simp only [Bool.false_eq_true, if_false, this]
  rw [State.coreMemCheck_clean hun]
  rfl

/-- Only REP repeats. -/
theorem Core.reps_of {c : Core} {p : Pred} (o : COp) (h : ∀ k, o ≠ .rep k) : c.reps { Bundle.nop with cp := p, c := o } = 0 := by
  cases o <;> first | exact absurd rfl (h _) | rfl

/-- A C operation with any flow, alone in its bundle on a calm core. -/
theorem State.issueC_flow {s : State} {n : Nat} (h : s.Calm n) (p : Pred) (o : COp) (acc : Access) (hp : (s.core n).holds p = true)
    (h1 : cLegal o = true) (h2 : (s.core n).placed (s.core n).pc o true = true) (h3 : (cWrites o).Nodup)
    (h4 : ((s.core n).voice && (s.core n).privileged o) = false) (h6 : ∀ k, o ≠ .rep k) (h7 : o ≠ .nop) :
    s.issueC n p o Bundle.nop acc =
      ((s.cData n (s.core n) o acc).slotTick n true).follow n (s.core n) (cWrites o) ((s.core n).flow o true) := by
  unfold State.issueC
  rw [State.issue_calm h _ _ _ (Core.legal_c _ _ _ h1 (by rw [hp]; exact h2) h3) (by rw [hp]; simpa using h4)]
  dsimp only
  rw [hp, Core.reps_of o h6]
  have : decide (o ≠ .nop) = true := decide_eq_true h7
  show State.follow (State.repeats (State.slotTick (State.cData s n (s.core n) o acc) n (false || false || false || (true && decide (o ≠ .nop)))) n _ false false false 1 0) n (s.core n) (cWrites o) _ = _
  rw [this]
  rfl

/-- An issue slot in which only register writes land. -/
theorem State.slotTick_regs (u : State) (n : Nat) (cls : Bool)
    (hw : ∀ w ∈ (u.core n).inflight, (∃ k v, w.op = .reg k v) ∨ (u.core n).cycle + 1 < w.due) :
    OnlyCore u (u.slotTick n cls) n ∧
    (u.slotTick n cls).core n = { u.core n with
      cycle := (u.core n).cycle + 1, inflight := (u.core n).inflight.filter (fun w => decide ((u.core n).cycle + 1 < w.due))
      regs := ((u.slotTick n cls).core n).regs, soft := ((u.slotTick n cls).core n).soft, pcnt := ((u.slotTick n cls).core n).pcnt
      tcyc := ((u.slotTick n cls).core n).tcyc, aborted := ((u.slotTick n cls).core n).aborted, memUe := ((u.slotTick n cls).core n).memUe
      recalled := ((u.slotTick n cls).core n).recalled, tally := ((u.slotTick n cls).core n).tally } ∧
    ∀ k, ((u.slotTick n cls).core n).rd k =
      ((u.core n).inflight.filter (fun w => decide (w.due ≤ (u.core n).cycle + 1))).foldl (fun x w => w.applied k x) ((u.core n).rd k) := by
  generalize hc : u.core n = c at hw
  let u0 := u.updCore n (fun c => c.evt (if cls then 2 else 3) 1)
  have e0 : u0.core n = c.evt (if cls then 2 else 3) 1 := by rw [State.core_updCore_same, hc]
  generalize hc0 : c.evt (if cls then 2 else 3) 1 = c0 at e0
  have i0 : c0.inflight = c.inflight := by rw [← hc0]; rfl
  have y0 : c0.cycle = c.cycle := by rw [← hc0]; rfl
  let k := if cls then 0 else 1
  have hs : u.slotTick n cls = u0.coreTick n k := rfl
  have hwf : ∀ w ∈ (c0.slotted k).inflight, (∃ k v, w.op = .reg k v) ∨ c0.cycle + 1 < w.due := by
    rw [Core.slotted_inflight, i0, y0]; exact hw
  obtain ⟨l1, l2⟩ := Core.landed_regs (c0.slotted k) (c0.cycle + 1) hwf
  have hcr : ∀ j, ((c0.slotted k).landed (c0.cycle + 1)).cr j = (c0.slotted k).cr j := by
    intro j; rw [l1]; rfl
  obtain ⟨t1, t2⟩ := State.coreTick_quiet u0 n k (by
    rw [e0]; intro j _ hj
    unfold Core.av at hj ⊢
    rw [hcr] at hj; exact hj)
  rw [e0] at t2
  refine ⟨(OnlyCore.updCore ..).trans t1, ?_, ?_⟩
  · rw [hs, t2, l1, Core.slotted_inflight, i0, y0]
    rw [Core.slotted_same, ← hc0]; rfl
  · intro j
    rw [hs, t2, l2, Core.slotted_inflight, i0, y0]
    congr 1
    rw [Core.slotted_same, ← hc0]; rfl

end Sys2Proof.Machine
end

