-- ==== Sys2Proof/Laws/Keeps.lean ====
section
/-! SUPPORT. What every function of the model keeps: the queue of commands, the fused hash, the count of free values drawn, which never
falls, and the canonical form of the memories and registers. The lemmas of Laws/Keeps say it of each function. -/

namespace Sys2Proof.Machine

/-- `t` comes from `s` without touching the queue or the fuse, with no free value drawn twice, and with the canonical form kept. -/
structure Keeps (s t : State) : Prop where
  pending : t.pending = s.pending
  fuse : t.pwr.fuse = s.pwr.fuse
  draws : s.draws ≤ t.draws
  canonical : s.Canonical → t.Canonical

/-- The same of an outcome. -/
def KeepsOut (s : State) : Host.Outcome State Fault Refusal → Prop
  | .next t => Keeps s t
  | _ => True

/-- The same of an intake that takes its event. -/
def KeepsTaken (s : State) : Intake → Prop
  | .taken t => Keeps s t
  | .held => True

/-- The same of the rule of a register. -/
def KeepsAct (f : State → RegRow → Word → Word → State) : Prop :=
  ∀ kb s, Keeps kb s → ∀ r o v, Keeps kb (f s r o v)

namespace Keeps

theorem refl (s : State) : Keeps s s := ⟨rfl, rfl, Nat.le_refl _, id⟩

theorem trans {s t u : State} (h : Keeps s t) (g : Keeps t u) : Keeps s u :=
  ⟨g.pending.trans h.pending, g.fuse.trans h.fuse, Nat.le_trans h.draws g.draws, fun c => g.canonical (h.canonical c)⟩

/-- A record update of other fields. -/
theorem upd {kb s : State} {out : Outside} {clk : Clock} {ing : Ingress} {pool : Pool} {mm : ModMatrix} {sch : Scheduler}
    {cores : Map Core} {spf : Prefetcher} {mix : Mixer} {dec : Decimator} {dac : Dac} {ort : Router} {queues : Map Queue} {ctl : ConCtl}
    {dram : Dram} {net : Net} {svc : Service} {pwr : Power} {pmu : Map Nat} {dump : Dump} {deferred : List Nat} {latches : Map Word}
    (h : Keeps kb s) (h1 : pwr.fuse = s.pwr.fuse) (h2 : dram.data = s.dram.data) :
    Keeps kb (State.mk s.pending s.regs s.draws out clk ing pool mm sch cores spf mix dec dac ort queues s.con ctl dram net svc pwr pmu
      dump deferred latches) :=
  h.trans ⟨rfl, h1, Nat.le_refl _, fun c => ⟨c.con, by show Memory.wf dram.data = true; rw [h2]; exact c.dram, c.regs⟩⟩

/-- A record update of other fields that also draws free values. -/
theorem updDraws {n : Nat} {kb s : State} {out : Outside} {clk : Clock} {ing : Ingress} {pool : Pool} {mm : ModMatrix} {sch : Scheduler}
    {cores : Map Core} {spf : Prefetcher} {mix : Mixer} {dec : Decimator} {dac : Dac} {ort : Router} {queues : Map Queue} {ctl : ConCtl}
    {dram : Dram} {net : Net} {svc : Service} {pwr : Power} {pmu : Map Nat} {dump : Dump} {deferred : List Nat} {latches : Map Word}
    (h : Keeps kb s) (h1 : pwr.fuse = s.pwr.fuse) (h2 : dram.data = s.dram.data) :
    Keeps kb (State.mk s.pending s.regs (s.draws + n) out clk ing pool mm sch cores spf mix dec dac ort queues s.con ctl dram net svc pwr pmu
      dump deferred latches) :=
  h.trans ⟨rfl, h1, Nat.le_add_right _ _, fun c => ⟨c.con, by show Memory.wf dram.data = true; rw [h2]; exact c.dram, c.regs⟩⟩

theorem ite {kb s t : State} {c : Prop} [Decidable c] (h : Keeps kb s) (g : Keeps kb t) : Keeps kb (if c then s else t) := by
  split <;> assumption

theorem iteP {α : Type} {p : α → State} {kb : State} {a b : α} {c : Prop} [Decidable c] (h : Keeps kb (p a)) (g : Keeps kb (p b)) :
    Keeps kb (p (if c then a else b)) := by
  split <;> assumption

theorem iteO {kb : State} {a b : Host.Outcome State Fault Refusal} {c : Prop} [Decidable c] (h : KeepsOut kb a) (g : KeepsOut kb b) :
    KeepsOut kb (if c then a else b) := by
  split <;> assumption

theorem iteA {f g : State → RegRow → Word → Word → State} {c : Prop} [Decidable c] (h : KeepsAct f) (k : KeepsAct g) :
    KeepsAct (if c then f else g) := by
  split <;> assumption

theorem next {kb t : State} (h : Keeps kb t) : KeepsOut kb (.next t) := h

theorem taken {kb t : State} (h : Keeps kb t) : KeepsTaken kb (.taken t) := h

theorem ofTaken {kb t : State} {i : Intake} (h : KeepsTaken kb i) (e : i = .taken t) : Keeps kb t := by
  subst e; exact h

theorem foldl {α : Type} {kb : State} {f : State → α → State} (hf : ∀ t x, Keeps kb t → Keeps kb (f t x)) {l : List α} {s : State}
    (h : Keeps kb s) : Keeps kb (l.foldl f s) := by
  induction l generalizing s with
  | nil => exact h
  | cons x l ih => exact ih (hf s x h)

theorem foldlFst {α β : Type} {kb : State} {f : State × β → α → State × β} (hf : ∀ t x, Keeps kb t.1 → Keeps kb (f t x).1)
    {l : List α} {s : State × β} (h : Keeps kb s.1) : Keeps kb (l.foldl f s).1 := by
  induction l generalizing s with
  | nil => exact h
  | cons x l ih => exact ih (hf s x h)

theorem foldlSnd {α β : Type} {kb : State} {f : β × State → α → β × State} (hf : ∀ t x, Keeps kb t.2 → Keeps kb (f t x).2)
    {l : List α} {s : β × State} (h : Keeps kb s.2) : Keeps kb (l.foldl f s).2 := by
  induction l generalizing s with
  | nil => exact h
  | cons x l ih => exact ih (hf s x h)

end Keeps

end Sys2Proof.Machine
end

