-- ==== Sys2Proof/Laws/Keeps/Ops.lean ====
section
/-! SUPPORT. What the functions of Machine/Ops.lean keep (Laws/Keeps.lean). -/

namespace Sys2Proof.Machine

theorem State.setReg_keeps {kb : State} (s : State) (h : Keeps kb s) (off : Nat) (v : Word) :
    Keeps kb (State.setReg s off v) := by
  exact h.trans ⟨rfl, rfl, Nat.le_refl _, fun c => ⟨c.con, c.dram, Sparse.wf_put _ _ c.regs⟩⟩

theorem State.setFld_keeps {kb : State} (s : State) (h : Keeps kb s) (off : Nat) (lo : Nat) (w : Nat) (n : Nat) :
    Keeps kb (State.setFld s off lo w n) := by
  unfold State.setFld
  with_reducible apply State.setReg_keeps
  assumption

theorem State.setBit_keeps {kb : State} (s : State) (h : Keeps kb s) (off : Nat) (i : Nat) (b : Bool) :
    Keeps kb (State.setBit s off i b) := by
  unfold State.setBit
  with_reducible apply State.setFld_keeps
  assumption

theorem State.bumpBy_keeps {kb : State} (s : State) (h : Keeps kb s) (off : Nat) (n : Nat) :
    Keeps kb (State.bumpBy s off n) := by
  unfold State.bumpBy
  with_reducible apply State.setReg_keeps
  assumption

theorem State.bump_keeps {kb : State} (s : State) (h : Keeps kb s) (off : Nat) :
    Keeps kb (State.bump s off) := by
  unfold State.bump
  with_reducible apply State.bumpBy_keeps
  assumption

theorem State.count_keeps {kb : State} (s : State) (h : Keeps kb s) (i : Nat) (n : Nat) :
    Keeps kb (State.count s i n) := by
  unfold State.count
  refine Keeps.upd ?_ rfl rfl
  assumption

theorem State.send_keeps {kb : State} (s : State) (h : Keeps kb s) (x : Sent) :
    Keeps kb (State.send s x) := by
  unfold State.send
  refine Keeps.upd ?_ rfl rfl
  assumption

theorem State.sendMsix_keeps {kb : State} (s : State) (h : Keeps kb s) (v : Nat) :
    Keeps kb (State.sendMsix s v) := by
  unfold State.sendMsix
  refine Keeps.ite ?_ ?_
  · with_reducible apply State.setBit_keeps
    assumption
  · with_reducible apply State.count_keeps
    with_reducible apply State.send_keeps
    assumption

theorem State.deliver_keeps {kb : State} (s : State) (h : Keeps kb s) (old : State) (y2 : Nat) :
    Keeps kb (State.deliver s old y2) := by
  unfold State.deliver
  refine Keeps.ite ?_ ?_
  · with_reducible apply State.sendMsix_keeps
    assumption
  · assumption

theorem State.deliverAll_keeps {kb : State} (s : State) (h : Keeps kb s) (old : State) (srcs : List Nat) :
    Keeps kb (State.deliverAll s old srcs) := by
  unfold State.deliverAll
  refine Keeps.foldl (fun t x ht => ?_) ?_
  · try simp -zeta only []
    with_reducible apply State.deliver_keeps
    assumption
  · assumption

theorem State.raise_keeps {kb : State} (s : State) (h : Keeps kb s) (p : Nat) (b : Nat) :
    Keeps kb (State.raise s p b) := by
  unfold State.raise
  extract_lets +onlyGivenNames -underBinder t
  have h_t : Keeps kb t := by
    unfold t
    with_reducible apply State.setBit_keeps
    assumption
  try clear_value t
  split
  · with_reducible apply State.deliver_keeps
    assumption
  · assumption

theorem State.pageErr_keeps {kb : State} (s : State) (h : Keeps kb s) (p : Nat) :
    Keeps kb (State.pageErr s p) := by
  unfold State.pageErr
  with_reducible apply State.bump_keeps
  assumption

theorem State.pageErrFlag_keeps {kb : State} (s : State) (h : Keeps kb s) (p : Nat) (b : Nat) :
    Keeps kb (State.pageErrFlag s p b) := by
  unfold State.pageErrFlag
  with_reducible apply State.pageErr_keeps
  with_reducible apply State.setBit_keeps
  assumption

theorem State.draining_keeps {kb : State} (s : State) (h : Keeps kb s) (p : Nat) :
    Keeps kb (State.draining s p) := by
  unfold State.draining
  with_reducible apply State.setBit_keeps
  with_reducible apply State.setBit_keeps
  assumption

theorem State.flushMsix_keeps {kb : State} (s : State) (h : Keeps kb s) :
    Keeps kb (State.flushMsix s) := by
  unfold State.flushMsix
  refine Keeps.ite ?_ ?_
  · assumption
  · refine Keeps.foldl (fun t x ht => ?_) ?_
    · try simp -zeta only []
      refine Keeps.ite ?_ ?_
      · with_reducible apply State.count_keeps
        with_reducible apply State.send_keeps
        with_reducible apply State.setBit_keeps
        assumption
      · assumption
    · assumption

theorem State.startPage_keeps {kb : State} (s : State) (h : Keeps kb s) (p : Nat) :
    Keeps kb (State.startPage s p) := by
  unfold State.startPage
  extract_lets +onlyGivenNames -underBinder t
  have h_t : Keeps kb t := by
    unfold t
    with_reducible apply State.setBit_keeps
    with_reducible apply State.setBit_keeps
    assumption
  try clear_value t
  refine Keeps.ite ?_ ?_
  · refine Keeps.upd ?_ rfl rfl
    assumption
  · refine Keeps.ite ?_ ?_
    · refine Keeps.upd ?_ rfl rfl
      assumption
    · refine Keeps.ite ?_ ?_
      · refine Keeps.upd ?_ rfl rfl
        assumption
      · refine Keeps.ite ?_ ?_
        · refine Keeps.upd ?_ rfl rfl
          assumption
        · refine Keeps.ite ?_ ?_
          · refine Keeps.upd ?_ rfl rfl
            assumption
          · refine Keeps.ite ?_ ?_
            · with_reducible apply State.flushMsix_keeps
              assumption
            · refine Keeps.ite ?_ ?_
              · refine Keeps.upd ?_ rfl rfl
                assumption
              · assumption

theorem State.idle_keeps {kb : State} (s : State) (h : Keeps kb s) (p : Nat) :
    Keeps kb (State.idle s p) := by
  unfold State.idle
  extract_lets +onlyGivenNames -underBinder t
  have h_t : Keeps kb t := by
    unfold t
    with_reducible apply State.setBit_keeps
    with_reducible apply State.setBit_keeps
    assumption
  try clear_value t
  refine Keeps.ite ?_ ?_
  · with_reducible apply State.startPage_keeps
    refine Keeps.upd ?_ rfl rfl
    assumption
  · assumption

theorem State.draw_keeps {kb : State} (s : State) (h : Keeps kb s) (w : Nat) :
    Keeps kb (State.draw s w).2 := by
  exact h.trans ⟨rfl, rfl, Nat.le_succ _, fun c => ⟨c.con, c.dram, c.regs⟩⟩

theorem State.logError_keeps {kb : State} (s : State) (h : Keeps kb s) (ident : Nat) (sub : Nat) (info : Nat) (injected : Bool) :
    Keeps kb (State.logError s ident sub info injected) := by
  unfold State.logError
  extract_lets +onlyGivenNames -underBinder k
  try clear_value k
  extract_lets +onlyGivenNames -underBinder s1
  have h_s1 : Keeps kb s1 := by
    unfold s1
    with_reducible apply State.count_keeps
    with_reducible apply State.bump_keeps
    assumption
  try clear_value s1
  extract_lets +onlyGivenNames -underBinder w0
  try clear_value w0
  with_reducible apply State.setReg_keeps
  with_reducible apply State.setReg_keeps
  with_reducible apply State.setReg_keeps
  with_reducible apply State.setReg_keeps
  with_reducible apply State.setReg_keeps
  assumption

theorem State.setConByte_keeps {kb : State} (s : State) (h : Keeps kb s) (a : Nat) (v : Byte) :
    Keeps kb (State.setConByte s a v) := by
  exact h.trans ⟨rfl, rfl, Nat.le_refl _, fun c => ⟨Sparse.wf_put _ _ c.con, c.dram, c.regs⟩⟩

theorem State.putConBytes_keeps {kb : State} (s : State) (h : Keeps kb s) (a : Nat) (a2 : List Byte) :
    Keeps kb (State.putConBytes s a a2) := by
  induction a2 generalizing s a with
  | nil =>
    rw [State.putConBytes]
    assumption
  | cons b bs ih =>
    rw [State.putConBytes]
    apply ih
    with_reducible apply State.setConByte_keeps
    assumption

theorem State.setConWord_keeps {kb : State} (s : State) (h : Keeps kb s) (a : Nat) (v : Word) :
    Keeps kb (State.setConWord s a v) := by
  unfold State.setConWord
  with_reducible apply State.putConBytes_keeps
  assumption

theorem State.putConWords_keeps {kb : State} (s : State) (h : Keeps kb s) (a : Nat) (ws : List Word) :
    Keeps kb (State.putConWords s a ws) := by
  unfold State.putConWords
  refine Keeps.foldl (fun t x ht => ?_) ?_
  · try simp -zeta only []
    with_reducible apply State.setConWord_keeps
    assumption
  · assumption

theorem State.clearCon_keeps {kb : State} (s : State) (h : Keeps kb s) (a : Nat) (n : Nat) :
    Keeps kb (State.clearCon s a n) := by
  exact h.trans ⟨rfl, rfl, Nat.le_refl _, fun c => ⟨Sparse.wf_filter _ c.con, c.dram, c.regs⟩⟩

theorem State.putHost_keeps {kb : State} (s : State) (h : Keeps kb s) (a : Nat) (a2 : List Byte) :
    Keeps kb (State.putHost s a a2) := by
  induction a2 generalizing s a with
  | nil =>
    rw [State.putHost]
    assumption
  | cons b bs ih =>
    rw [State.putHost]
    apply ih
    refine Keeps.upd ?_ rfl rfl
    assumption

theorem State.setSlot_keeps {kb : State} (s : State) (h : Keeps kb s) (k : Nat) (x : Slot) :
    Keeps kb (State.setSlot s k x) := by
  unfold State.setSlot
  refine Keeps.upd ?_ rfl rfl
  assumption

theorem State.updSlot_keeps {kb : State} (s : State) (h : Keeps kb s) (k : Nat) (f : Slot → Slot) :
    Keeps kb (State.updSlot s k f) := by
  unfold State.updSlot
  with_reducible apply State.setSlot_keeps
  assumption

theorem State.setCore_keeps {kb : State} (s : State) (h : Keeps kb s) (n : Nat) (c : Core) :
    Keeps kb (State.setCore s n c) := by
  unfold State.setCore
  refine Keeps.upd ?_ rfl rfl
  assumption

theorem State.updCore_keeps {kb : State} (s : State) (h : Keeps kb s) (n : Nat) (f : Core → Core) :
    Keeps kb (State.updCore s n f) := by
  unfold State.updCore
  with_reducible apply State.setCore_keeps
  assumption

theorem State.setStream_keeps {kb : State} (s : State) (h : Keeps kb s) (slot : Nat) (k : Nat) (x : Stream) :
    Keeps kb (State.setStream s slot k x) := by
  unfold State.setStream
  refine Keeps.upd ?_ rfl rfl
  assumption

theorem State.setQueue_keeps {kb : State} (s : State) (h : Keeps kb s) (q : Nat) (x : Queue) :
    Keeps kb (State.setQueue s q x) := by
  unfold State.setQueue
  refine Keeps.upd ?_ rfl rfl
  assumption

theorem State.check_keeps {kb : State} (s : State) (h : Keeps kb s) (p : Nat) (det : Nat) (sub : Nat) (real : Bool) :
    Keeps kb (State.check s p det sub real).st := by
  unfold State.check
  split
  · assumption
  · split
    · with_reducible apply State.raise_keeps
      with_reducible apply State.setBit_keeps
      assumption
    · assumption

theorem State.detect_keeps {kb : State} (s : State) (h : Keeps kb s) (p : Nat) (det : Nat) (sub : Nat) (info : Nat) (real : Bool) :
    Keeps kb (State.detect s p det sub info real).st := by
  unfold State.detect
  extract_lets +onlyGivenNames -underBinder c
  have h_c : Keeps kb c.st := by
    unfold c
    with_reducible apply State.check_keeps
    assumption
  try clear_value c
  split
  · with_reducible apply State.logError_keeps
    assumption
  · assumption

end Sys2Proof.Machine
end

