-- ==== Sys2Proof/Laws/Keeps/HostWrite.lean ====
section
/-! SUPPORT. What the functions of Machine/HostWrite.lean keep (Laws/Keeps.lean). -/

namespace Sys2Proof.Machine

theorem State.hostWrite_keeps {kb : State} (s : State) (h : Keeps kb s) (by_ : Writer) (off : Nat) (v : Word) (act : State → RegRow → Word → Word → State) (h_act : ∀ z0 z1 z2 z3, Keeps kb z0 → Keeps kb (act z0 z1 z2 z3)) :
    Keeps kb (State.hostWrite s by_ off v act) := by
  unfold State.hostWrite
  extract_lets +onlyGivenNames -underBinder p
  try clear_value p
  refine Keeps.ite ?_ ?_
  · assumption
  · refine Keeps.ite ?_ ?_
    · with_reducible apply State.bump_keeps
      assumption
    · refine Keeps.ite ?_ ?_
      · assumption
      · split
        · assumption
        · extract_lets +onlyGivenNames -underBinder old
          try clear_value old
          refine Keeps.ite ?_ ?_
          · extract_lets +onlyGivenNames -underBinder s1
            have h_s1 : Keeps kb s1 := by
              unfold s1
              refine Keeps.ite ?_ ?_
              · with_reducible apply State.pageErrFlag_keeps
                assumption
              · assumption
            try clear_value s1
            refine Keeps.ite ?_ ?_
            · assumption
            · apply h_act
              assumption
          · apply h_act
            assumption

theorem storeAct_keeps {kb : State} (off : Nat) (s : State) (h : Keeps kb s) (r : RegRow) (old : Word) (v : Word) :
    Keeps kb (storeAct off s r old v) := by
  unfold storeAct
  with_reducible apply State.setReg_keeps
  assumption

theorem State.refuseCfg_keeps {kb : State} (s : State) (h : Keeps kb s) (statOff : Nat) (b : Nat) (p : Nat) :
    Keeps kb (State.refuseCfg s statOff b p) := by
  unfold State.refuseCfg
  with_reducible apply State.pageErr_keeps
  with_reducible apply State.setBit_keeps
  assumption

end Sys2Proof.Machine
end

