-- ==== Sys2Proof/Laws/Keeps/Concourse.lean ====
section
/-! SUPPORT. What the functions of Machine/Concourse.lean keep (Laws/Keeps.lean). -/

namespace Sys2Proof.Machine

theorem State.conErrInfo_keeps {kb : State} (s : State) (h : Keeps kb s) (master : Nat) (a : Nat) (ue : Bool) (parity : Bool) :
    Keeps kb (State.conErrInfo s master a ue parity) := by
  unfold State.conErrInfo
  with_reducible apply State.setReg_keeps
  assumption

theorem State.queueRebuild_keeps {kb : State} (s : State) (h : Keeps kb s) (b : Nat) :
    Keeps kb (State.queueRebuild s b) := by
  unfold State.queueRebuild
  refine Keeps.ite ?_ ?_
  · refine Keeps.upd ?_ rfl rfl
    assumption
  · assumption

theorem State.bankCe_keeps {kb : State} (s : State) (h : Keeps kb s) (b : Nat) :
    Keeps kb (State.bankCe s b) := by
  unfold State.bankCe
  extract_lets +onlyGivenNames -underBinder n
  try clear_value n
  extract_lets +onlyGivenNames -underBinder s1
  have h_s1 : Keeps kb s1 := by
    unfold s1
    with_reducible apply State.setFld_keeps
    assumption
  try clear_value s1
  extract_lets +onlyGivenNames -underBinder thr
  try clear_value thr
  refine Keeps.ite ?_ ?_
  · with_reducible apply State.queueRebuild_keeps
    assumption
  · assumption

theorem State.addWriteBack_keeps {kb : State} (s : State) (h : Keeps kb s) (w : Nat) :
    Keeps kb (State.addWriteBack s w) := by
  unfold State.addWriteBack
  refine Keeps.ite ?_ ?_
  · assumption
  · refine Keeps.upd ?_ rfl rfl
    assumption

theorem State.conUe_keeps {kb : State} (s : State) (h : Keeps kb s) (master : Nat) (a : Nat) (inj : Bool) :
    Keeps kb (State.conUe s master a inj) := by
  unfold State.conUe
  with_reducible apply State.logError_keeps
  with_reducible apply State.raise_keeps
  with_reducible apply State.conErrInfo_keeps
  with_reducible apply State.bump_keeps
  assumption

theorem State.conCheck_keeps {kb : State} (s : State) (h : Keeps kb s) (master : Nat) (a : Nat) (upset : Upset) :
    Keeps kb (State.conCheck s master a upset).1 := by
  unfold State.conCheck
  extract_lets +onlyGivenNames -underBinder w
  try clear_value w
  extract_lets +onlyGivenNames -underBinder bank
  try clear_value bank
  extract_lets +onlyGivenNames -underBinder noParity
  try clear_value noParity
  extract_lets +onlyGivenNames -underBinder realUe
  try clear_value realUe
  extract_lets +onlyGivenNames -underBinder ue
  have h_ue : Keeps kb ue.st := by
    unfold ue
    with_reducible apply State.check_keeps
    assumption
  try clear_value ue
  refine Keeps.iteP (p := Prod.fst) ?_ ?_
  · extract_lets +onlyGivenNames -underBinder t
    have h_t : Keeps kb t := by
      unfold t
      with_reducible apply State.conUe_keeps
      assumption
    try clear_value t
    refine Keeps.ite ?_ ?_
    · refine Keeps.upd ?_ rfl rfl
      assumption
    · assumption
  · extract_lets +onlyGivenNames -underBinder pr
    have h_pr : Keeps kb pr.st := by
      unfold pr
      with_reducible apply State.check_keeps
      assumption
    try clear_value pr
    refine Keeps.iteP (p := Prod.fst) ?_ ?_
    · refine Keeps.iteP (p := Prod.fst) ?_ ?_
      · with_reducible apply State.conUe_keeps
        assumption
      · extract_lets +onlyGivenNames -underBinder t
        have h_t : Keeps kb t := by
          unfold t
          with_reducible apply State.logError_keeps
          with_reducible apply State.raise_keeps
          with_reducible apply State.conErrInfo_keeps
          with_reducible apply State.bump_keeps
          assumption
        try clear_value t
        refine Keeps.ite ?_ ?_
        · assumption
        · with_reducible apply State.addWriteBack_keeps
          assumption
    · extract_lets +onlyGivenNames -underBinder ce
      have h_ce : Keeps kb ce.st := by
        unfold ce
        with_reducible apply State.check_keeps
        assumption
      try clear_value ce
      refine Keeps.iteP (p := Prod.fst) ?_ ?_
      · extract_lets +onlyGivenNames -underBinder t
        have h_t : Keeps kb t := by
          unfold t
          with_reducible apply State.logError_keeps
          with_reducible apply State.raise_keeps
          with_reducible apply State.conErrInfo_keeps
          with_reducible apply State.bankCe_keeps
          with_reducible apply State.bump_keeps
          assumption
        try clear_value t
        refine Keeps.ite ?_ ?_
        · assumption
        · with_reducible apply State.addWriteBack_keeps
          assumption
      · assumption

theorem State.btTouch_keeps {kb : State} (s : State) (h : Keeps kb s) (cls : Cls) (a : Nat) :
    Keeps kb (State.btTouch s cls a) := by
  unfold State.btTouch
  refine Keeps.ite ?_ ?_
  · extract_lets +onlyGivenNames -underBinder t
    have h_t : Keeps kb t := by
      unfold t
      with_reducible apply State.count_keeps
      assumption
    try clear_value t
    refine Keeps.ite ?_ ?_
    · with_reducible apply State.bump_keeps
      with_reducible apply State.setFld_keeps
      refine Keeps.upd ?_ rfl rfl
      assumption
    · assumption
  · assumption

theorem State.countPort_keeps {kb : State} (s : State) (h : Keeps kb s) (master : Nat) :
    Keeps kb (State.countPort s master) := by
  unfold State.countPort
  with_reducible apply State.count_keeps
  assumption

theorem State.conStore_keeps {kb : State} (s : State) (h : Keeps kb s) (a : Nat) (data : List Byte) :
    Keeps kb (State.conStore s a data) := by
  unfold State.conStore
  extract_lets +onlyGivenNames -underBinder t
  have h_t : Keeps kb t := by
    unfold t
    with_reducible apply State.putConBytes_keeps
    assumption
  try clear_value t
  extract_lets +onlyGivenNames -underBinder words
  try clear_value words
  extract_lets +onlyGivenNames -underBinder whole
  try clear_value whole
  refine Keeps.upd ?_ rfl rfl
  assumption

theorem State.coreColl_keeps {kb : State} (s : State) (h : Keeps kb s) (n : Nat) :
    Keeps kb (State.coreColl s n) := by
  unfold State.coreColl
  with_reducible apply State.updCore_keeps
  assumption

theorem State.collision_keeps {kb : State} (s : State) (h : Keeps kb s) (loser : Nat) (a : Nat) :
    Keeps kb (State.collision s loser a) := by
  unfold State.collision
  extract_lets +onlyGivenNames -underBinder t
  have h_t : Keeps kb t := by
    unfold t
    with_reducible apply State.raise_keeps
    with_reducible apply State.setReg_keeps
    with_reducible apply State.bump_keeps
    assumption
  try clear_value t
  refine Keeps.ite ?_ ?_
  · with_reducible apply State.coreColl_keeps
    assumption
  · assumption

theorem State.conWriteWord_keeps {kb : State} (s : State) (h : Keeps kb s) (master : Nat) (cls : Cls) (a : Nat) (data : List Byte) (acc : Access) :
    Keeps kb (State.conWriteWord s master cls a data acc).1 := by
  unfold State.conWriteWord
  extract_lets +onlyGivenNames -underBinder s1
  have h_s1 : Keeps kb s1 := by
    unfold s1
    with_reducible apply State.count_keeps
    with_reducible apply State.btTouch_keeps
    with_reducible apply State.countPort_keeps
    assumption
  try clear_value s1
  extract_lets +onlyGivenNames -underBinder one
  have h_one : ∀ z0, Keeps kb z0 → Keeps kb (one z0).1 := by
    intro z0 hz
    unfold one
    try simp -zeta only []
    refine Keeps.iteP (p := Prod.fst) ?_ ?_
    · extract_lets +onlyGivenNames -underBinder k
      have h_k : Keeps kb k.1 := by
        unfold k
        with_reducible apply State.conCheck_keeps
        assumption
      try clear_value k
      refine Keeps.iteP (p := Prod.fst) ?_ ?_
      · assumption
      · with_reducible apply State.conStore_keeps
        assumption
    · with_reducible apply State.conStore_keeps
      assumption
  try clear_value one
  split
  · apply h_one
    assumption
  · refine Keeps.iteP (p := Prod.fst) ?_ ?_
    · apply h_one
      assumption
    · refine Keeps.iteP (p := Prod.fst) ?_ ?_
      · extract_lets +onlyGivenNames -underBinder busy
        have h_busy : Keeps kb busy := by
          unfold busy
          with_reducible apply State.bump_keeps
          assumption
        try clear_value busy
        refine Keeps.iteP (p := Prod.fst) ?_ ?_
        · extract_lets +onlyGivenNames -underBinder x
          have h_x : Keeps kb x.1 := by
            unfold x
            apply h_one
            assumption
          try clear_value x
          with_reducible apply State.conStore_keeps
          assumption
        · extract_lets +onlyGivenNames -underBinder x
          have h_x : Keeps kb x.1 := by
            unfold x
            apply h_one
            with_reducible apply State.conStore_keeps
            assumption
          try clear_value x
          assumption
      · extract_lets +onlyGivenNames -underBinder wins
        try clear_value wins
        refine Keeps.iteP (p := Prod.fst) ?_ ?_
        · extract_lets +onlyGivenNames -underBinder x
          have h_x : Keeps kb x.1 := by
            unfold x
            apply h_one
            assumption
          try clear_value x
          with_reducible apply State.collision_keeps
          assumption
        · with_reducible apply State.collision_keeps
          with_reducible apply State.conStore_keeps
          assumption

theorem State.conReadWord_keeps {kb : State} (s : State) (h : Keeps kb s) (master : Nat) (cls : Cls) (a : Nat) (n : Nat) (acc : Access) :
    Keeps kb (State.conReadWord s master cls a n acc).1 := by
  unfold State.conReadWord
  extract_lets +onlyGivenNames -underBinder k
  have h_k : Keeps kb k.1 := by
    unfold k
    with_reducible apply State.conCheck_keeps
    with_reducible apply State.btTouch_keeps
    with_reducible apply State.countPort_keeps
    assumption
  try clear_value k
  extract_lets +onlyGivenNames -underBinder data
  try clear_value data
  split
  · assumption
  · refine Keeps.iteP (p := Prod.fst) ?_ ?_
    · assumption
    · extract_lets +onlyGivenNames -underBinder t
      have h_t : Keeps kb t := by
        unfold t
        with_reducible apply State.conStore_keeps
        assumption
      try clear_value t
      refine Keeps.iteP (p := Prod.fst) ?_ ?_
      · extract_lets +onlyGivenNames -underBinder b
        have h_b : Keeps kb b := by
          unfold b
          with_reducible apply State.bump_keeps
          assumption
        try clear_value b
        refine Keeps.iteP (p := Prod.fst) ?_ ?_
        · extract_lets +onlyGivenNames -underBinder d
          have h_d : Keeps kb d.2 := by
            unfold d
            with_reducible apply State.draw_keeps
            assumption
          try clear_value d
          extract_lets +onlyGivenNames -underBinder e
          have h_e : Keeps kb e.2 := by
            unfold e
            with_reducible apply State.draw_keeps
            assumption
          try clear_value e
          assumption
        · assumption
      · assumption

theorem State.devReadFrom_keeps {kb : State} (s : State) (h : Keeps kb s) (master : Nat) (cls : Cls) (a : Nat) (fresh : Bool) (bad : Bool) (a6 : Nat) :
    Keeps kb (State.devReadFrom s master cls a fresh bad a6).1 := by
  induction a6 generalizing s master cls a fresh bad with
  | zero =>
    rw [State.devReadFrom]
    assumption
  | succ k ih =>
    rw [State.devReadFrom]
    apply ih
    refine Keeps.iteP (p := Prod.fst) ?_ ?_
    · with_reducible apply State.conCheck_keeps
      with_reducible apply State.btTouch_keeps
      with_reducible apply State.countPort_keeps
      assumption
    · assumption

theorem State.devReadWords_keeps {kb : State} (s : State) (h : Keeps kb s) (master : Nat) (cls : Cls) (a : Nat) (n : Nat) :
    Keeps kb (State.devReadWords s master cls a n).1 := by
  unfold State.devReadWords
  with_reducible apply State.devReadFrom_keeps
  assumption

end Sys2Proof.Machine
end

