-- ==== Sys2Proof/Laws/Keeps/CoreRegs.lean ====
section
/-! SUPPORT. What the functions of Machine/CoreRegs.lean keep (Laws/Keeps.lean). -/

namespace Sys2Proof.Machine

theorem State.corePmu_keeps {kb : State} (s : State) (h : Keeps kb s) (n : Nat) (e : Nat) (k : Nat) :
    Keeps kb (State.corePmu s n e k) := by
  unfold State.corePmu
  refine Keeps.ite ?_ ?_
  · with_reducible apply State.count_keeps
    assumption
  · assumption

theorem State.satRead_keeps {kb : State} (s : State) (h : Keeps kb s) (n : Nat) :
    Keeps kb (State.satRead s n) := by
  unfold State.satRead
  with_reducible apply State.corePmu_keeps
  with_reducible apply State.updCore_keeps
  assumption

theorem State.ovfRead_keeps {kb : State} (s : State) (h : Keeps kb s) (n : Nat) :
    Keeps kb (State.ovfRead s n) := by
  unfold State.ovfRead
  with_reducible apply State.corePmu_keeps
  with_reducible apply State.updCore_keeps
  assumption

theorem State.landBy_keeps {kb : State} (s : State) (h : Keeps kb s) (n : Nat) (t : Nat) :
    Keeps kb (State.landBy s n t) := by
  unfold State.landBy
  extract_lets +onlyGivenNames -underBinder c
  try clear_value c
  extract_lets +onlyGivenNames -underBinder due
  try clear_value due
  extract_lets +onlyGivenNames -underBinder c1
  try clear_value c1
  extract_lets +onlyGivenNames -underBinder s1
  have h_s1 : Keeps kb s1 := by
    unfold s1
    with_reducible apply State.setCore_keeps
    assumption
  try clear_value s1
  refine Keeps.ite ?_ ?_
  · with_reducible apply State.raise_keeps
    assumption
  · assumption

theorem State.coreTick_keeps {kb : State} (s : State) (h : Keeps kb s) (n : Nat) (cls : Nat) :
    Keeps kb (State.coreTick s n cls) := by
  unfold State.coreTick
  extract_lets +onlyGivenNames -underBinder c
  try clear_value c
  extract_lets +onlyGivenNames -underBinder c1
  try clear_value c1
  extract_lets +onlyGivenNames -underBinder c2
  try clear_value c2
  extract_lets +onlyGivenNames -underBinder c3
  try clear_value c3
  extract_lets +onlyGivenNames -underBinder s1
  have h_s1 : Keeps kb s1 := by
    unfold s1
    with_reducible apply State.corePmu_keeps
    with_reducible apply State.setCore_keeps
    assumption
  try clear_value s1
  extract_lets +onlyGivenNames -underBinder s2
  have h_s2 : Keeps kb s2 := by
    unfold s2
    refine Keeps.ite ?_ ?_
    · refine Keeps.ite ?_ ?_
      · with_reducible apply State.corePmu_keeps
        assumption
      · assumption
    · with_reducible apply State.corePmu_keeps
      assumption
  try clear_value s2
  with_reducible apply State.landBy_keeps
  assumption

theorem State.coreTicks_keeps {kb : State} (s : State) (h : Keeps kb s) (n : Nat) (cls : Nat) (a : Nat) :
    Keeps kb (State.coreTicks s n cls a) := by
  induction a generalizing s n cls with
  | zero =>
    rw [State.coreTicks]
    assumption
  | succ k ih =>
    rw [State.coreTicks]
    apply ih
    with_reducible apply State.coreTick_keeps
    assumption

theorem State.holdTicks_keeps {kb : State} (s : State) (h : Keeps kb s) (n : Nat) (cls : Nat) (k : Nat) :
    Keeps kb (State.holdTicks s n cls k) := by
  unfold State.holdTicks
  with_reducible apply State.coreTicks_keeps
  with_reducible apply State.updCore_keeps
  assumption

theorem State.stall_keeps {kb : State} (s : State) (h : Keeps kb s) (n : Nat) (kind : Nat) (k : Nat) :
    Keeps kb (State.stall s n kind k) := by
  unfold State.stall
  extract_lets +onlyGivenNames -underBinder s1
  have h_s1 : Keeps kb s1 := by
    unfold s1
    with_reducible apply State.updCore_keeps
    assumption
  try clear_value s1
  extract_lets +onlyGivenNames -underBinder s2
  have h_s2 : Keeps kb s2 := by
    unfold s2
    refine Keeps.ite ?_ ?_
    · assumption
    · with_reducible apply State.corePmu_keeps
      assumption
  try clear_value s2
  with_reducible apply State.holdTicks_keeps
  assumption

theorem State.coreFlush_keeps {kb : State} (s : State) (h : Keeps kb s) (n : Nat) :
    Keeps kb (State.coreFlush s n) := by
  unfold State.coreFlush
  extract_lets +onlyGivenNames -underBinder t
  try clear_value t
  refine Keeps.foldl (fun t x ht => ?_) ?_
  · try simp -zeta only []
    with_reducible apply State.landBy_keeps
    assumption
  · assumption

theorem State.coreEvent_keeps {kb : State} (s : State) (h : Keeps kb s) (n : Nat) (code : Nat) :
    Keeps kb (State.coreEvent s n code) := by
  unfold State.coreEvent
  with_reducible apply State.updCore_keeps
  assumption

theorem State.viol_keeps {kb : State} (s : State) (h : Keeps kb s) (n : Nat) (kind : Nat) (slotY : Bool) (addr : Nat) :
    Keeps kb (State.viol s n kind slotY addr) := by
  unfold State.viol
  extract_lets +onlyGivenNames -underBinder s1
  have h_s1 : Keeps kb s1 := by
    unfold s1
    with_reducible apply State.updCore_keeps
    assumption
  try clear_value s1
  with_reducible apply State.coreEvent_keeps
  with_reducible apply State.bump_keeps
  with_reducible apply State.setReg_keeps
  assumption

theorem State.ill_keeps {kb : State} (s : State) (h : Keeps kb s) (n : Nat) :
    Keeps kb (State.ill s n) := by
  unfold State.ill
  with_reducible apply State.coreEvent_keeps
  with_reducible apply State.bump_keeps
  assumption

end Sys2Proof.Machine
end

