-- ==== Sys2Proof/Laws/Keeps/CoreMem.lean ====
section
/-! SUPPORT. What the functions of Machine/CoreMem.lean keep (Laws/Keeps.lean). -/

namespace Sys2Proof.Machine

theorem State.countRead_keeps {kb : State} (s : State) (h : Keeps kb s) (n : Nat) (a : ReadCount) :
    Keeps kb (State.countRead s n a) := by
  unfold State.countRead
  split
  · assumption
  · with_reducible apply State.ovfRead_keeps
    assumption
  · with_reducible apply State.satRead_keeps
    assumption

theorem State.coreCe_keeps {kb : State} (s : State) (h : Keeps kb s) (n : Nat) (sub : Nat) (inj : Bool) :
    Keeps kb (State.coreCe s n sub inj) := by
  unfold State.coreCe
  extract_lets +onlyGivenNames -underBinder s1
  have h_s1 : Keeps kb s1 := by
    unfold s1
    with_reducible apply State.logError_keeps
    with_reducible apply State.raise_keeps
    with_reducible apply State.pageErr_keeps
    assumption
  try clear_value s1
  extract_lets +onlyGivenNames -underBinder k
  try clear_value k
  extract_lets +onlyGivenNames -underBinder thr
  try clear_value thr
  extract_lets +onlyGivenNames -underBinder now
  try clear_value now
  with_reducible apply State.updCore_keeps
  assumption

theorem State.coreUe_keeps {kb : State} (s : State) (h : Keeps kb s) (n : Nat) (sub : Nat) (inj : Bool) :
    Keeps kb (State.coreUe s n sub inj) := by
  unfold State.coreUe
  extract_lets +onlyGivenNames -underBinder s1
  have h_s1 : Keeps kb s1 := by
    unfold s1
    with_reducible apply State.coreEvent_keeps
    with_reducible apply State.logError_keeps
    with_reducible apply State.raise_keeps
    with_reducible apply State.pageErr_keeps
    assumption
  try clear_value s1
  with_reducible apply State.updCore_keeps
  assumption

theorem State.coreMemCheck_keeps {kb : State} (s : State) (h : Keeps kb s) (n : Nat) (sub : Nat) (upset : Upset) :
    Keeps kb (State.coreMemCheck s n sub upset).1 := by
  unfold State.coreMemCheck
  extract_lets +onlyGivenNames -underBinder ue
  have h_ue : Keeps kb ue.st := by
    unfold ue
    with_reducible apply State.check_keeps
    assumption
  try clear_value ue
  refine Keeps.iteP (p := Prod.fst) ?_ ?_
  · with_reducible apply State.coreUe_keeps
    assumption
  · extract_lets +onlyGivenNames -underBinder ce
    have h_ce : Keeps kb ce.st := by
      unfold ce
      with_reducible apply State.check_keeps
      assumption
    try clear_value ce
    refine Keeps.iteP (p := Prod.fst) ?_ ?_
    · with_reducible apply State.coreCe_keeps
      assumption
    · assumption

theorem State.coreLoad_keeps {kb : State} (s : State) (h : Keeps kb s) (n : Nat) (slotY : Bool) (addr : Nat) (k : Nat) (acc : Access) :
    Keeps kb (State.coreLoad s n slotY addr k acc).1 := by
  unfold State.coreLoad
  split
  · with_reducible apply State.viol_keeps
    assumption
  · assumption
  · extract_lets +onlyGivenNames -underBinder s0
    have h_s0 : Keeps kb s0 := by
      unfold s0
      with_reducible apply State.stall_keeps
      with_reducible apply State.updCore_keeps
      assumption
    try clear_value s0
    extract_lets +onlyGivenNames -underBinder x
    have h_x : Keeps kb x.1 := by
      unfold x
      with_reducible apply State.conReadWord_keeps
      assumption
    try clear_value x
    split
    · assumption
    · with_reducible apply State.coreEvent_keeps
      assumption
  · extract_lets +onlyGivenNames -underBinder f
    try clear_value f
    extract_lets +onlyGivenNames -underBinder x
    have h_x : Keeps kb x.1 := by
      unfold x
      with_reducible apply State.coreMemCheck_keeps
      assumption
    try clear_value x
    refine Keeps.iteP (p := Prod.fst) ?_ ?_
    · extract_lets +onlyGivenNames -underBinder d
      have h_d : Keeps kb d.2 := by
        unfold d
        with_reducible apply State.draw_keeps
        assumption
      try clear_value d
      assumption
    · assumption
  · extract_lets +onlyGivenNames -underBinder f
    try clear_value f
    extract_lets +onlyGivenNames -underBinder x
    have h_x : Keeps kb x.1 := by
      unfold x
      with_reducible apply State.coreMemCheck_keeps
      assumption
    try clear_value x
    refine Keeps.iteP (p := Prod.fst) ?_ ?_
    · extract_lets +onlyGivenNames -underBinder d
      have h_d : Keeps kb d.2 := by
        unfold d
        with_reducible apply State.draw_keeps
        assumption
      try clear_value d
      assumption
    · assumption

theorem State.coreStore_keeps {kb : State} (s : State) (h : Keeps kb s) (n : Nat) (slotY : Bool) (addr : Nat) (ws : List Word) (acc : Access) :
    Keeps kb (State.coreStore s n slotY addr ws acc) := by
  unfold State.coreStore
  split
  · with_reducible apply State.viol_keeps
    assumption
  · with_reducible apply State.viol_keeps
    assumption
  · refine Keeps.ite ?_ ?_
    · with_reducible apply State.viol_keeps
      assumption
    · extract_lets +onlyGivenNames -underBinder s0
      have h_s0 : Keeps kb s0 := by
        unfold s0
        with_reducible apply State.stall_keeps
        with_reducible apply State.updCore_keeps
        assumption
      try clear_value s0
      extract_lets +onlyGivenNames -underBinder x
      have h_x : Keeps kb x.1 := by
        unfold x
        with_reducible apply State.conWriteWord_keeps
        assumption
      try clear_value x
      refine Keeps.ite ?_ ?_
      · with_reducible apply State.coreEvent_keeps
        assumption
      · assumption
  · refine Keeps.ite ?_ ?_
    · with_reducible apply State.viol_keeps
      assumption
    · extract_lets +onlyGivenNames -underBinder d
      have h_d : Keeps kb d.2 := by
        unfold d
        with_reducible apply State.draw_keeps
        assumption
      try clear_value d
      extract_lets +onlyGivenNames -underBinder free
      try clear_value free
      extract_lets +onlyGivenNames -underBinder vs
      try clear_value vs
      with_reducible apply State.updCore_keeps
      with_reducible apply State.coreMemCheck_keeps
      refine Keeps.ite ?_ ?_
      · assumption
      · assumption
  · refine Keeps.ite ?_ ?_
    · with_reducible apply State.viol_keeps
      assumption
    · with_reducible apply State.updCore_keeps
      with_reducible apply State.coreMemCheck_keeps
      assumption

theorem State.later_keeps {kb : State} (s : State) (h : Keeps kb s) (n : Nat) (lat : Nat) (op : WriteOp) :
    Keeps kb (State.later s n lat op) := by
  unfold State.later
  with_reducible apply State.updCore_keeps
  assumption

theorem State.memOp_keeps {kb : State} (s : State) (h : Keeps kb s) (n : Nat) (c : Core) (slotY : Bool) (o : MemOp) (acc : Access) :
    Keeps kb (State.memOp s n c slotY o acc) := by
  unfold State.memOp
  extract_lets +onlyGivenNames -underBinder size
  try clear_value size
  extract_lets +onlyGivenNames -underBinder addr
  try clear_value addr
  extract_lets +onlyGivenNames -underBinder s1
  have h_s1 : Keeps kb s1 := by
    unfold s1
    with_reducible apply State.updCore_keeps
    assumption
  try clear_value s1
  extract_lets +onlyGivenNames -underBinder s2
  have h_s2 : Keeps kb s2 := by
    unfold s2
    split
    · extract_lets +onlyGivenNames -underBinder x
      have h_x : Keeps kb x.1 := by
        unfold x
        with_reducible apply State.coreLoad_keeps
        assumption
      try clear_value x
      with_reducible apply State.later_keeps
      assumption
    · extract_lets +onlyGivenNames -underBinder x
      have h_x : Keeps kb x.1 := by
        unfold x
        with_reducible apply State.coreLoad_keeps
        assumption
      try clear_value x
      with_reducible apply State.later_keeps
      with_reducible apply State.later_keeps
      assumption
    · extract_lets +onlyGivenNames -underBinder x
      have h_x : Keeps kb x.1 := by
        unfold x
        with_reducible apply State.coreLoad_keeps
        assumption
      try clear_value x
      with_reducible apply State.later_keeps
      assumption
    · extract_lets +onlyGivenNames -underBinder x
      have h_x : Keeps kb x.1 := by
        unfold x
        with_reducible apply State.coreLoad_keeps
        assumption
      try clear_value x
      with_reducible apply State.later_keeps
      assumption
    · with_reducible apply State.coreStore_keeps
      assumption
    · with_reducible apply State.coreStore_keeps
      assumption
    · extract_lets +onlyGivenNames -underBinder r
      try clear_value r
      with_reducible apply State.coreStore_keeps
      with_reducible apply State.countRead_keeps
      assumption
    · with_reducible apply State.coreStore_keeps
      assumption
  try clear_value s2
  split
  · assumption
  · extract_lets +onlyGivenNames -underBinder s3
    have h_s3 : Keeps kb s3 := by
      unfold s3
      with_reducible apply State.later_keeps
      assumption
    try clear_value s3
    refine Keeps.ite ?_ ?_
    · extract_lets +onlyGivenNames -underBinder s4
      have h_s4 : Keeps kb s4 := by
        unfold s4
        with_reducible apply State.updCore_keeps
        assumption
      try clear_value s4
      refine Keeps.ite ?_ ?_
      · assumption
      · with_reducible apply State.raise_keeps
        assumption
    · assumption

end Sys2Proof.Machine
end

