-- ==== Sys2Proof/Laws/Keeps/SchedOps.lean ====
section
/-! SUPPORT. What the functions of Machine/SchedOps.lean keep (Laws/Keeps.lean). -/

namespace Sys2Proof.Machine

theorem State.setPset_keeps {kb : State} (s : State) (h : Keeps kb s) (n : Nat) (v : Nat) :
    Keeps kb (State.setPset s n v) := by
  unfold State.setPset
  with_reducible apply State.setFld_keeps
  assumption

theorem State.applyHold_keeps {kb : State} (s : State) (h : Keeps kb s) (fell : Bool) :
    Keeps kb (State.applyHold s fell) := by
  unfold State.applyHold
  extract_lets +onlyGivenNames -underBinder cyc
  try clear_value cyc
  extract_lets +onlyGivenNames -underBinder lmax
  try clear_value lmax
  extract_lets +onlyGivenNames -underBinder n
  try clear_value n
  extract_lets +onlyGivenNames -underBinder fits
  try clear_value fits
  extract_lets +onlyGivenNames -underBinder applied
  try clear_value applied
  extract_lets +onlyGivenNames -underBinder h
  try clear_value h
  extract_lets +onlyGivenNames -underBinder was
  try clear_value was
  extract_lets +onlyGivenNames -underBinder src0 s1
  have h_s1 : Keeps kb s1 := by
    unfold s1
    with_reducible apply State.setBit_keeps
    with_reducible apply State.setReg_keeps
    refine Keeps.upd ?_ rfl rfl
    assumption
  try clear_value s1
  refine Keeps.ite ?_ ?_
  · with_reducible apply State.raise_keeps
    assumption
  · assumption

theorem State.showCores_keeps {kb : State} (s : State) (h : Keeps kb s) :
    Keeps kb (State.showCores s) := by
  unfold State.showCores
  extract_lets +onlyGivenNames -underBinder s1
  have h_s1 : Keeps kb s1 := by
    unfold s1
    with_reducible apply State.setFld_keeps
    assumption
  try clear_value s1
  refine Keeps.foldl (fun t x ht => ?_) ?_
  · try simp -zeta only []
    with_reducible apply State.setBit_keeps
    assumption
  · assumption

theorem State.showSpares_keeps {kb : State} (s : State) (h : Keeps kb s) (before : Nat) :
    Keeps kb (State.showSpares s before) := by
  unfold State.showSpares
  extract_lets +onlyGivenNames -underBinder l
  try clear_value l
  extract_lets +onlyGivenNames -underBinder s1
  have h_s1 : Keeps kb s1 := by
    unfold s1
    with_reducible apply State.setReg_keeps
    assumption
  try clear_value s1
  refine Keeps.ite ?_ ?_
  · with_reducible apply State.raise_keeps
    assumption
  · assumption

theorem State.enterService_keeps {kb : State} (s : State) (h : Keeps kb s) (n : Nat) :
    Keeps kb (State.enterService s n) := by
  unfold State.enterService
  extract_lets +onlyGivenNames -underBinder s1
  have h_s1 : Keeps kb s1 := by
    unfold s1
    with_reducible apply State.updCore_keeps
    assumption
  try clear_value s1
  with_reducible apply State.showCores_keeps
  assumption

theorem State.bumpEpoch_keeps {kb : State} (s : State) (h : Keeps kb s) (x : Nat) :
    Keeps kb (State.bumpEpoch s x) := by
  unfold State.bumpEpoch
  refine Keeps.ite ?_ ?_
  · with_reducible apply State.updSlot_keeps
    assumption
  · refine Keeps.upd ?_ rfl rfl
    assumption

theorem State.setPlaced_keeps {kb : State} (s : State) (h : Keeps kb s) (x : Nat) (n : Nat) :
    Keeps kb (State.setPlaced s x n) := by
  unfold State.setPlaced
  refine Keeps.ite ?_ ?_
  · with_reducible apply State.updSlot_keeps
    assumption
  · refine Keeps.upd ?_ rfl rfl
    assumption

theorem State.mapTasks_keeps {kb : State} (s : State) (h : Keeps kb s) (p : Task → Bool) (f : Task → Task) :
    Keeps kb (State.mapTasks s p f) := by
  unfold State.mapTasks
  refine Keeps.upd ?_ rfl rfl
  assumption

theorem State.updTask_keeps {kb : State} (s : State) (h : Keeps kb s) (id : Nat) (f : Task → Task) :
    Keeps kb (State.updTask s id f) := by
  unfold State.updTask
  with_reducible apply State.mapTasks_keeps
  assumption

theorem State.pushTask_keeps {kb : State} (s : State) (h : Keeps kb s) (t : Task) :
    Keeps kb (State.pushTask s t) := by
  unfold State.pushTask
  extract_lets +onlyGivenNames -underBinder src0 s1
  have h_s1 : Keeps kb s1 := by
    unfold s1
    refine Keeps.upd ?_ rfl rfl
    assumption
  try clear_value s1
  extract_lets +onlyGivenNames -underBinder key
  try clear_value key
  refine Keeps.upd ?_ rfl rfl
  assumption

theorem State.unstage_keeps {kb : State} (s : State) (h : Keeps kb s) (id : Nat) :
    Keeps kb (State.unstage s id) := by
  unfold State.unstage
  refine Keeps.foldl (fun t x ht => ?_) ?_
  · try simp -zeta only []
    extract_lets +onlyGivenNames -underBinder c
    try clear_value c
    extract_lets +onlyGivenNames -underBinder drop
    try clear_value drop
    refine Keeps.ite ?_ ?_
    · with_reducible apply State.setCore_keeps
      assumption
    · assumption
  · assumption

theorem State.withdrawStaged_keeps {kb : State} (s : State) (h : Keeps kb s) (id : Nat) :
    Keeps kb (State.withdrawStaged s id) := by
  unfold State.withdrawStaged
  with_reducible apply State.updTask_keeps
  with_reducible apply State.unstage_keeps
  assumption

theorem State.dropTask_keeps {kb : State} (s : State) (h : Keeps kb s) (id : Nat) :
    Keeps kb (State.dropTask s id) := by
  unfold State.dropTask
  with_reducible apply State.updTask_keeps
  with_reducible apply State.unstage_keeps
  assumption

theorem State.shuntEvent_keeps {kb : State} (s : State) (h : Keeps kb s) (n : Nat) :
    Keeps kb (State.shuntEvent s n) := by
  unfold State.shuntEvent
  refine Keeps.ite ?_ ?_
  · with_reducible apply State.coreEvent_keeps
    assumption
  · assumption

theorem State.shunt_keeps {kb : State} (s : State) (h : Keeps kb s) (x : Nat) (b : Nat) :
    Keeps kb (State.shunt s x b) := by
  unfold State.shunt
  extract_lets +onlyGivenNames -underBinder s1
  have h_s1 : Keeps kb s1 := by
    unfold s1
    with_reducible apply State.count_keeps
    with_reducible apply State.bump_keeps
    with_reducible apply State.setPlaced_keeps
    with_reducible apply State.bumpEpoch_keeps
    assumption
  try clear_value s1
  extract_lets +onlyGivenNames -underBinder src0 s2
  have h_s2 : Keeps kb s2 := by
    unfold s2
    refine Keeps.upd ?_ rfl rfl
    assumption
  try clear_value s2
  refine Keeps.foldl (fun t x ht => ?_) ?_
  · try simp -zeta only []
    split
    · extract_lets +onlyGivenNames -underBinder v
      have h_v : Keeps kb v := by
        unfold v
        with_reducible apply State.updTask_keeps
        with_reducible apply State.shuntEvent_keeps
        assumption
      try clear_value v
      with_reducible apply State.pushTask_keeps
      assumption
    · extract_lets +onlyGivenNames -underBinder v
      have h_v : Keeps kb v := by
        unfold v
        with_reducible apply State.updTask_keeps
        assumption
      try clear_value v
      with_reducible apply State.pushTask_keeps
      assumption
    · assumption
    · with_reducible apply State.updTask_keeps
      with_reducible apply State.unstage_keeps
      assumption
  · assumption

theorem State.judge_keeps {kb : State} (s : State) (h : Keeps kb s) (n : Nat) (tally : List Nat) (passed : Bool) :
    Keeps kb (State.judge s n tally passed) := by
  unfold State.judge
  extract_lets +onlyGivenNames -underBinder k
  try clear_value k
  with_reducible apply State.count_keeps
  with_reducible apply State.count_keeps
  with_reducible apply State.count_keeps
  with_reducible apply State.count_keeps
  assumption

theorem State.judgeCore_keeps {kb : State} (s : State) (h : Keeps kb s) (n : Nat) :
    Keeps kb (State.judgeCore s n) := by
  unfold State.judgeCore
  extract_lets +onlyGivenNames -underBinder c
  try clear_value c
  refine Keeps.ite ?_ ?_
  · with_reducible apply State.updCore_keeps
    with_reducible apply State.judge_keeps
    assumption
  · assumption

theorem State.spend_keeps {kb : State} (s : State) (h : Keeps kb s) (n : Nat) (t : Task) (k : Nat) :
    Keeps kb (State.spend s n t k) := by
  unfold State.spend
  extract_lets +onlyGivenNames -underBinder add
  try clear_value add
  extract_lets +onlyGivenNames -underBinder u1
  try clear_value u1
  extract_lets +onlyGivenNames -underBinder u2
  try clear_value u2
  with_reducible apply State.count_keeps
  refine Keeps.upd ?_ rfl rfl
  assumption

theorem State.mute_keeps {kb : State} (s : State) (h : Keeps kb s) (x : Nat) (b : Nat) (r : Nat) :
    Keeps kb (State.mute s x b r) := by
  unfold State.mute
  refine Keeps.ite ?_ ?_
  · with_reducible apply State.updSlot_keeps
    assumption
  · assumption

theorem State.abortTask_keeps {kb : State} (s : State) (h : Keeps kb s) (n : Nat) (inj : Bool) :
    Keeps kb (State.abortTask s n inj) := by
  unfold State.abortTask
  split
  · assumption
  · extract_lets +onlyGivenNames -underBinder c
    try clear_value c
    extract_lets +onlyGivenNames -underBinder s1
    have h_s1 : Keeps kb s1 := by
      unfold s1
      with_reducible apply State.logError_keeps
      with_reducible apply State.raise_keeps
      with_reducible apply State.count_keeps
      with_reducible apply State.bump_keeps
      with_reducible apply State.judgeCore_keeps
      assumption
    try clear_value s1
    extract_lets +onlyGivenNames -underBinder s2
    have h_s2 : Keeps kb s2 := by
      unfold s2
      with_reducible apply State.updTask_keeps
      with_reducible apply State.spend_keeps
      assumption
    try clear_value s2
    extract_lets +onlyGivenNames -underBinder s3
    have h_s3 : Keeps kb s3 := by
      unfold s3
      with_reducible apply State.updCore_keeps
      with_reducible apply State.coreEvent_keeps
      assumption
    try clear_value s3
    refine Keeps.ite ?_ ?_
    · assumption
    · with_reducible apply State.mute_keeps
      assumption

theorem State.loseTask_keeps {kb : State} (s : State) (h : Keeps kb s) (n : Nat) (id : Nat) :
    Keeps kb (State.loseTask s n id) := by
  unfold State.loseTask
  split
  · assumption
  · extract_lets +onlyGivenNames -underBinder aborted
    try clear_value aborted
    refine Keeps.ite ?_ ?_
    · with_reducible apply State.updTask_keeps
      assumption
    · extract_lets +onlyGivenNames -underBinder x
      try clear_value x
      extract_lets +onlyGivenNames -underBinder s1
      have h_s1 : Keeps kb s1 := by
        unfold s1
        with_reducible apply State.bump_keeps
        with_reducible apply State.updTask_keeps
        with_reducible apply State.bumpEpoch_keeps
        assumption
      try clear_value s1
      extract_lets +onlyGivenNames -underBinder s2
      have h_s2 : Keeps kb s2 := by
        unfold s2
        with_reducible apply State.count_keeps
        assumption
      try clear_value s2
      with_reducible apply State.pushTask_keeps
      assumption

theorem State.shuntAll_keeps {kb : State} (s : State) (h : Keeps kb s) (n : Nat) (b : Nat) :
    Keeps kb (State.shuntAll s n b) := by
  unfold State.shuntAll
  extract_lets +onlyGivenNames -underBinder xs
  try clear_value xs
  refine Keeps.foldl (fun t x ht => ?_) ?_
  · try simp -zeta only []
    refine Keeps.ite ?_ ?_
    · with_reducible apply State.setPlaced_keeps
      assumption
    · with_reducible apply State.shunt_keeps
      assumption
  · assumption

theorem State.placeElsewhere_keeps {kb : State} (s : State) (h : Keeps kb s) (n : Nat) :
    Keeps kb (State.placeElsewhere s n) := by
  unfold State.placeElsewhere
  split
  · with_reducible apply State.shuntAll_keeps
    assumption
  · assumption

theorem State.coreLeaves_keeps {kb : State} (s : State) (h : Keeps kb s) (n : Nat) (fault : Bool) :
    Keeps kb (State.coreLeaves s n fault) := by
  unfold State.coreLeaves
  extract_lets +onlyGivenNames -underBinder c
  try clear_value c
  extract_lets +onlyGivenNames -underBinder s0
  have h_s0 : Keeps kb s0 := by
    unfold s0
    with_reducible apply State.judgeCore_keeps
    assumption
  try clear_value s0
  extract_lets +onlyGivenNames -underBinder s1
  have h_s1 : Keeps kb s1 := by
    unfold s1
    with_reducible apply State.showCores_keeps
    with_reducible apply State.updCore_keeps
    assumption
  try clear_value s1
  extract_lets +onlyGivenNames -underBinder held
  try clear_value held
  extract_lets +onlyGivenNames -underBinder s2
  have h_s2 : Keeps kb s2 := by
    unfold s2
    refine Keeps.foldl (fun t x ht => ?_) ?_
    · try simp -zeta only []
      with_reducible apply State.withdrawStaged_keeps
      assumption
    · assumption
  try clear_value s2
  extract_lets +onlyGivenNames -underBinder s3
  have h_s3 : Keeps kb s3 := by
    unfold s3
    with_reducible apply State.updCore_keeps
    assumption
  try clear_value s3
  extract_lets +onlyGivenNames -underBinder running
  try clear_value running
  extract_lets +onlyGivenNames -underBinder lost
  try clear_value lost
  extract_lets +onlyGivenNames -underBinder s4
  have h_s4 : Keeps kb s4 := by
    unfold s4
    refine Keeps.ite ?_ ?_
    · with_reducible apply State.raise_keeps
      assumption
    · assumption
  try clear_value s4
  extract_lets +onlyGivenNames -underBinder s5
  have h_s5 : Keeps kb s5 := by
    unfold s5
    with_reducible apply State.raise_keeps
    assumption
  try clear_value s5
  extract_lets +onlyGivenNames -underBinder s6
  have h_s6 : Keeps kb s6 := by
    unfold s6
    refine Keeps.foldl (fun t x ht => ?_) ?_
    · try simp -zeta only []
      with_reducible apply State.loseTask_keeps
      assumption
    · assumption
  try clear_value s6
  extract_lets +onlyGivenNames -underBinder clearShunt
  have h_clearShunt : Keeps kb clearShunt := by
    unfold clearShunt
    split
    · refine Keeps.ite ?_ ?_
      · with_reducible apply State.setBit_keeps
        refine Keeps.upd ?_ rfl rfl
        assumption
      · assumption
    · assumption
  try clear_value clearShunt
  extract_lets +onlyGivenNames -underBinder s7
  have h_s7 : Keeps kb s7 := by
    unfold s7
    with_reducible apply State.applyHold_keeps
    assumption
  try clear_value s7
  extract_lets +onlyGivenNames -underBinder src0 alone
  have h_alone : Keeps kb alone := by
    unfold alone
    refine Keeps.upd ?_ rfl rfl
    assumption
  try clear_value alone
  refine Keeps.ite ?_ ?_
  · with_reducible apply State.placeElsewhere_keeps
    assumption
  · split
    · with_reducible apply State.placeElsewhere_keeps
      assumption
    · extract_lets +onlyGivenNames -underBinder before
      try clear_value before
      extract_lets +onlyGivenNames -underBinder s8
      have h_s8 : Keeps kb s8 := by
        unfold s8
        with_reducible apply State.showSpares_keeps
        with_reducible apply State.updCore_keeps
        with_reducible apply State.setPset_keeps
        assumption
      try clear_value s8
      with_reducible apply State.shuntAll_keeps
      assumption

theorem State.coreFault_keeps {kb : State} (s : State) (h : Keeps kb s) (n : Nat) :
    Keeps kb (State.coreFault s n) := by
  unfold State.coreFault
  refine Keeps.ite ?_ ?_
  · with_reducible apply State.coreLeaves_keeps
    assumption
  · assumption

end Sys2Proof.Machine
end

