-- ==== Sys2Proof/Laws/Keeps/Mix.lean ====
section
/-! SUPPORT. What the functions of Machine/Mix.lean keep (Laws/Keeps.lean). -/

namespace Sys2Proof.Machine

theorem State.devRead_keeps {kb : State} (s : State) (h : Keeps kb s) (master : Nat) (cls : Cls) (a : Nat) (n : Nat) :
    Keeps kb (State.devRead s master cls a n).1 := by
  unfold State.devRead
  extract_lets +onlyGivenNames -underBinder r
  have h_r : Keeps kb r.1 := by
    unfold r
    with_reducible apply State.devReadWords_keeps
    assumption
  try clear_value r
  assumption

theorem State.devStore_keeps {kb : State} (s : State) (h : Keeps kb s) (master : Nat) (cls : Cls) (a : Nat) (data : List Byte) (a5 : Nat) :
    Keeps kb (State.devStore s master cls a data a5) := by
  induction a5 generalizing s master cls a data with
  | zero =>
    rw [State.devStore]
    assumption
  | succ k ih =>
    rw [State.devStore]
    refine Keeps.ite ?_ ?_
    · assumption
    · extract_lets +onlyGivenNames -underBinder n
      try clear_value n
      apply ih
      with_reducible apply State.conWriteWord_keeps
      assumption

theorem State.devWrite_keeps {kb : State} (s : State) (h : Keeps kb s) (master : Nat) (cls : Cls) (a : Nat) (ws : List Word) :
    Keeps kb (State.devWrite s master cls a ws) := by
  unfold State.devWrite
  with_reducible apply State.devStore_keeps
  assumption

theorem State.sendRamp_keeps {kb : State} (s : State) (h : Keeps kb s) (t : Task) (i : Nat) (w : Word) :
    Keeps kb (State.sendRamp s t i w).1 := by
  unfold State.sendRamp
  extract_lets +onlyGivenNames -underBinder word
  try clear_value word
  refine Keeps.iteP (p := Prod.fst) ?_ ?_
  · assumption
  · refine Keeps.iteP (p := Prod.fst) ?_ ?_
    · extract_lets +onlyGivenNames -underBinder r
      have h_r : Keeps kb r.1 := by
        unfold r
        with_reducible apply State.devRead_keeps
        assumption
      try clear_value r
      extract_lets +onlyGivenNames -underBinder g
      try clear_value g
      split
      · assumption
      · assumption
    · extract_lets +onlyGivenNames -underBinder r
      have h_r : Keeps kb r.1 := by
        unfold r
        with_reducible apply State.devRead_keeps
        assumption
      try clear_value r
      assumption

theorem State.keepGain_keeps {kb : State} (s : State) (h : Keeps kb s) (t : Task) (i : Nat) (w : Word) :
    Keeps kb (State.keepGain s t i w) := by
  unfold State.keepGain
  refine Keeps.ite ?_ ?_
  · assumption
  · extract_lets +onlyGivenNames -underBinder g
    try clear_value g
    refine Keeps.upd ?_ rfl rfl
    assumption

theorem State.heldGain_keeps {kb : State} (s : State) (h : Keeps kb s) (t : Task) (i : Nat) (v : Int) :
    Keeps kb (State.heldGain s t i v).1 := by
  unfold State.heldGain
  extract_lets +onlyGivenNames -underBinder key
  try clear_value key
  refine Keeps.iteP (p := Prod.fst) ?_ ?_
  · refine Keeps.upd ?_ rfl rfl
    assumption
  · assumption

theorem State.takeSends_keeps {kb : State} (s : State) (h : Keeps kb s) (t : Task) (nch : Nat) (i : Nat) (a : List Word) :
    Keeps kb (State.takeSends s t nch i a).1 := by
  induction a generalizing s t nch i with
  | nil =>
    rw [State.takeSends]
    assumption
  | cons b bs ih =>
    rw [State.takeSends]
    refine Keeps.iteP (p := Prod.fst) ?_ ?_
    · apply ih
      with_reducible apply State.keepGain_keeps
      refine Keeps.iteP (p := Prod.fst) ?_ ?_
      · extract_lets +onlyGivenNames -underBinder k
        have h_k : Keeps kb k.1 := by
          unfold k
          with_reducible apply State.heldGain_keeps
          refine Keeps.iteP (p := Prod.fst) ?_ ?_
          · with_reducible apply State.sendRamp_keeps
            assumption
          · assumption
        try clear_value k
        assumption
      · refine Keeps.iteP (p := Prod.fst) ?_ ?_
        · with_reducible apply State.sendRamp_keeps
          assumption
        · assumption
    · apply ih
      with_reducible apply State.keepGain_keeps
      refine Keeps.iteP (p := Prod.fst) ?_ ?_
      · extract_lets +onlyGivenNames -underBinder k
        have h_k : Keeps kb k.1 := by
          unfold k
          with_reducible apply State.heldGain_keeps
          refine Keeps.iteP (p := Prod.fst) ?_ ?_
          · with_reducible apply State.sendRamp_keeps
            assumption
          · assumption
        try clear_value k
        assumption
      · refine Keeps.iteP (p := Prod.fst) ?_ ?_
        · with_reducible apply State.sendRamp_keeps
          assumption
        · assumption

theorem State.sendSnapshot_keeps {kb : State} (s : State) (h : Keeps kb s) (t : Task) :
    Keeps kb (State.sendSnapshot s t) := by
  unfold State.sendSnapshot
  refine Keeps.ite ?_ ?_
  · assumption
  · extract_lets +onlyGivenNames -underBinder nch
    try clear_value nch
    extract_lets +onlyGivenNames -underBinder entry
    try clear_value entry
    extract_lets +onlyGivenNames -underBinder r
    have h_r : Keeps kb r.1 := by
      unfold r
      with_reducible apply State.devRead_keeps
      assumption
    try clear_value r
    extract_lets +onlyGivenNames -underBinder k
    have h_k : Keeps kb k.1 := by
      unfold k
      with_reducible apply State.takeSends_keeps
      assumption
    try clear_value k
    extract_lets +onlyGivenNames -underBinder snap
    try clear_value snap
    extract_lets +onlyGivenNames -underBinder src
    have h_src : Keeps kb src := by
      unfold src
      assumption
    refine Keeps.upd ?_ rfl rfl
    assumption

theorem State.readOutput_keeps {kb : State} (s : State) (h : Keeps kb s) (cls : Cls) (x : Nat) (n : Nat) :
    Keeps kb (State.readOutput s cls x n).1 := by
  unfold State.readOutput
  refine Keeps.foldlFst (fun t x ht => ?_) ?_
  · try simp -zeta only []
    extract_lets +onlyGivenNames -underBinder k
    have h_k : Keeps kb k.1 := by
      unfold k
      with_reducible apply State.devRead_keeps
      assumption
    try clear_value k
    assumption
  · assumption

theorem State.addTerm_keeps {kb : State} (s : State) (h : Keeps kb s) (t : MixTerm) :
    Keeps kb (State.addTerm s t) := by
  unfold State.addTerm
  split
  · refine Keeps.ite ?_ ?_
    · assumption
    · refine Keeps.upd ?_ rfl rfl
      assumption
  · refine Keeps.upd ?_ rfl rfl
    assumption

theorem State.accept_keeps {kb : State} (s : State) (h : Keeps kb s) (t : Task) :
    Keeps kb (State.accept s t).1 := by
  unfold State.accept
  extract_lets +onlyGivenNames -underBinder x
  try clear_value x
  extract_lets +onlyGivenNames -underBinder m
  try clear_value m
  extract_lets +onlyGivenNames -underBinder r
  have h_r : Keeps kb r.1 := by
    unfold r
    with_reducible apply State.readOutput_keeps
    assumption
  try clear_value r
  extract_lets +onlyGivenNames -underBinder start
  try clear_value start
  extract_lets +onlyGivenNames -underBinder after
  try clear_value after
  extract_lets +onlyGivenNames -underBinder s1
  have h_s1 : Keeps kb s1 := by
    unfold s1
    with_reducible apply State.count_keeps
    with_reducible apply State.bump_keeps
    assumption
  try clear_value s1
  extract_lets +onlyGivenNames -underBinder src0 s2
  have h_s2 : Keeps kb s2 := by
    unfold s2
    refine Keeps.upd ?_ rfl rfl
    assumption
  try clear_value s2
  extract_lets +onlyGivenNames -underBinder peak
  try clear_value peak
  with_reducible apply State.addTerm_keeps
  assumption

theorem State.conceal_keeps {kb : State} (s : State) (h : Keeps kb s) (x : Nat) (b : Nat) :
    Keeps kb (State.conceal s x b) := by
  unfold State.conceal
  extract_lets +onlyGivenNames -underBinder snap
  try clear_value snap
  extract_lets +onlyGivenNames -underBinder start
  try clear_value start
  extract_lets +onlyGivenNames -underBinder s1
  have h_s1 : Keeps kb s1 := by
    unfold s1
    with_reducible apply State.count_keeps
    assumption
  try clear_value s1
  extract_lets +onlyGivenNames -underBinder src0 s2
  have h_s2 : Keeps kb s2 := by
    unfold s2
    refine Keeps.upd ?_ rfl rfl
    assumption
  try clear_value s2
  split
  · assumption
  · refine Keeps.ite ?_ ?_
    · extract_lets +onlyGivenNames -underBinder r
      have h_r : Keeps kb r.1 := by
        unfold r
        with_reducible apply State.readOutput_keeps
        assumption
      try clear_value r
      with_reducible apply State.addTerm_keeps
      assumption
    · assumption

theorem State.forgetOutput_keeps {kb : State} (s : State) (h : Keeps kb s) (x : Nat) :
    Keeps kb (State.forgetOutput s x) := by
  unfold State.forgetOutput
  refine Keeps.upd ?_ rfl rfl
  assumption

theorem State.countSat_keeps {kb : State} (s : State) (h : Keeps kb s) (n : Nat) :
    Keeps kb (State.countSat s n) := by
  unfold State.countSat
  with_reducible apply State.count_keeps
  with_reducible apply State.bumpBy_keeps
  assumption

theorem State.closeVoice_keeps {kb : State} (s : State) (h : Keeps kb s) (b : Nat) :
    Keeps kb (State.closeVoice s b) := by
  unfold State.closeVoice
  extract_lets +onlyGivenNames -underBinder n
  try clear_value n
  extract_lets +onlyGivenNames -underBinder sums
  try clear_value sums
  extract_lets +onlyGivenNames -underBinder src0 s1
  have h_s1 : Keeps kb s1 := by
    unfold s1
    refine Keeps.upd ?_ rfl rfl
    assumption
  try clear_value s1
  refine Keeps.foldl (fun t x ht => ?_) ?_
  · try simp -zeta only []
    extract_lets +onlyGivenNames -underBinder q
    try clear_value q
    with_reducible apply State.countSat_keeps
    with_reducible apply State.devWrite_keeps
    assumption
  · assumption

theorem State.closeFinal_keeps {kb : State} (s : State) (h : Keeps kb s) (b : Nat) :
    Keeps kb (State.closeFinal s b) := by
  unfold State.closeFinal
  extract_lets +onlyGivenNames -underBinder n
  try clear_value n
  extract_lets +onlyGivenNames -underBinder base
  try clear_value base
  extract_lets +onlyGivenNames -underBinder sums
  try clear_value sums
  extract_lets +onlyGivenNames -underBinder q
  try clear_value q
  extract_lets +onlyGivenNames -underBinder final
  try clear_value final
  extract_lets +onlyGivenNames -underBinder saturated
  try clear_value saturated
  extract_lets +onlyGivenNames -underBinder src0 t
  have h_t : Keeps kb t := by
    unfold t
    refine Keeps.upd ?_ rfl rfl
    assumption
  try clear_value t
  with_reducible apply State.countSat_keeps
  assumption

end Sys2Proof.Machine
end

