-- ==== Sys2Proof/Laws/Keeps/CoreArith.lean ====
section
/-! SUPPORT. What the functions of Machine/CoreArith.lean keep (Laws/Keeps.lean). -/

namespace Sys2Proof.Machine

theorem State.mOp_keeps {kb : State} (s : State) (h : Keeps kb s) (n : Nat) (c : Core) (o : MOp) (rep : Nat) :
    Keeps kb (State.mOp s n c o rep) := by
  unfold State.mOp
  refine Keeps.ite ?_ ?_
  · assumption
  · extract_lets +onlyGivenNames -underBinder s1
    have h_s1 : Keeps kb s1 := by
      unfold s1
      with_reducible apply State.updCore_keeps
      assumption
    try clear_value s1
    extract_lets +onlyGivenNames -underBinder s2
    have h_s2 : Keeps kb s2 := by
      unfold s2
      refine Keeps.foldl (fun t x ht => ?_) ?_
      · try simp -zeta only []
        extract_lets +onlyGivenNames -underBinder w
        try clear_value w
        with_reducible apply State.later_keeps
        assumption
      · assumption
    try clear_value s2
    refine Keeps.foldl (fun t x ht => ?_) ?_
    · try simp -zeta only []
      extract_lets +onlyGivenNames -underBinder w
      try clear_value w
      with_reducible apply State.later_keeps
      with_reducible apply State.countRead_keeps
      assumption
    · assumption

end Sys2Proof.Machine
end

