-- ==== Sys2Proof/Laws/Keeps/Decimate.lean ====
section
/-! SUPPORT. What the functions of Machine/Decimate.lean keep (Laws/Keeps.lean). -/

namespace Sys2Proof.Machine

theorem State.decimateBus_keeps {kb : State} (s : State) (h : Keeps kb s) (r : BusRun) (bus : Nat) :
    Keeps kb (State.decimateBus s r bus) := by
  unfold State.decimateBus
  extract_lets +onlyGivenNames -underBinder en
  try clear_value en
  extract_lets +onlyGivenNames -underBinder d
  try clear_value d
  extract_lets +onlyGivenNames -underBinder x
  try clear_value x
  extract_lets +onlyGivenNames -underBinder out
  try clear_value out
  with_reducible apply State.bumpBy_keeps
  refine Keeps.upd ?_ rfl rfl
  assumption

theorem State.decimate_keeps {kb : State} (s : State) (h : Keeps kb s) (n : Nat) :
    Keeps kb (State.decimate s n) := by
  unfold State.decimate
  extract_lets +onlyGivenNames -underBinder first
  try clear_value first
  extract_lets +onlyGivenNames -underBinder sel
  try clear_value sel
  extract_lets +onlyGivenNames -underBinder d0
  try clear_value d0
  extract_lets +onlyGivenNames -underBinder d1
  try clear_value d1
  extract_lets +onlyGivenNames -underBinder en
  try clear_value en
  extract_lets +onlyGivenNames -underBinder s1
  have h_s1 : Keeps kb s1 := by
    unfold s1
    with_reducible apply State.setBit_keeps
    refine Keeps.upd ?_ rfl rfl
    assumption
  try clear_value s1
  extract_lets +onlyGivenNames -underBinder run
  try clear_value run
  extract_lets +onlyGivenNames -underBinder s2
  have h_s2 : Keeps kb s2 := by
    unfold s2
    refine Keeps.foldl (fun t x ht => ?_) ?_
    · try simp -zeta only []
      with_reducible apply State.decimateBus_keeps
      assumption
    · assumption
  try clear_value s2
  with_reducible apply State.count_keeps
  with_reducible apply State.count_keeps
  assumption

theorem State.writeCapture_keeps {kb : State} (s : State) (h : Keeps kb s) (k : Nat) (t : Nat) (w : Word) :
    Keeps kb (State.writeCapture s k t w) := by
  unfold State.writeCapture
  extract_lets +onlyGivenNames -underBinder s1
  have h_s1 : Keeps kb s1 := by
    unfold s1
    with_reducible apply State.count_keeps
    with_reducible apply State.devWrite_keeps
    assumption
  try clear_value s1
  refine Keeps.upd ?_ rfl rfl
  assumption

theorem State.captureInto_keeps {kb : State} (s : State) (h : Keeps kb s) (k : Nat) (t : Nat) (second : Bool) (w : Word) :
    Keeps kb (State.captureInto s k t second w) := by
  unfold State.captureInto
  extract_lets +onlyGivenNames -underBinder late
  try clear_value late
  extract_lets +onlyGivenNames -underBinder h
  try clear_value h
  refine Keeps.ite ?_ ?_
  · refine Keeps.ite ?_ ?_
    · refine Keeps.upd ?_ rfl rfl
      assumption
    · extract_lets +onlyGivenNames -underBinder a
      try clear_value a
      extract_lets +onlyGivenNames -underBinder h1
      try clear_value h1
      extract_lets +onlyGivenNames -underBinder src0 s1
      have h_s1 : Keeps kb s1 := by
        unfold s1
        refine Keeps.upd ?_ rfl rfl
        assumption
      try clear_value s1
      refine Keeps.ite ?_ ?_
      · assumption
      · extract_lets +onlyGivenNames -underBinder o
        try clear_value o
        with_reducible apply State.writeCapture_keeps
        refine Keeps.ite ?_ ?_
        · with_reducible apply State.bump_keeps
          assumption
        · assumption
  · refine Keeps.ite ?_ ?_
    · assumption
    · with_reducible apply State.writeCapture_keeps
      assumption

theorem State.portSample_keeps {kb : State} (s : State) (h : Keeps kb s) (port : Nat) (ch : Nat) (t : Nat) (second : Bool) (w : Word) :
    Keeps kb (State.portSample s port ch t second w) := by
  unfold State.portSample
  refine Keeps.foldl (fun t x ht => ?_) ?_
  · try simp -zeta only []
    extract_lets +onlyGivenNames -underBinder src
    refine Keeps.ite ?_ ?_
    · with_reducible apply State.captureInto_keeps
      assumption
    · assumption
  · assumption

theorem State.captureClose_keeps {kb : State} (s : State) (h : Keeps kb s) (m : Nat) :
    Keeps kb (State.captureClose s m) := by
  unfold State.captureClose
  extract_lets +onlyGivenNames -underBinder times
  try clear_value times
  extract_lets +onlyGivenNames -underBinder s1
  have h_s1 : Keeps kb s1 := by
    unfold s1
    refine Keeps.foldl (fun t x ht => ?_) ?_
    · try simp -zeta only []
      extract_lets +onlyGivenNames -underBinder on
      try clear_value on
      extract_lets +onlyGivenNames -underBinder missing
      try clear_value missing
      extract_lets +onlyGivenNames -underBinder v
      have h_v : Keeps kb v := by
        unfold v
        refine Keeps.foldl (fun t x ht => ?_) ?_
        · try simp -zeta only []
          with_reducible apply State.devWrite_keeps
          assumption
        · assumption
      try clear_value v
      refine Keeps.ite ?_ ?_
      · with_reducible apply State.count_keeps
        with_reducible apply State.bumpBy_keeps
        assumption
      · assumption
    · assumption
  try clear_value s1
  refine Keeps.upd ?_ rfl rfl
  assumption

theorem State.captureSets_keeps {kb : State} (s : State) (h : Keeps kb s) :
    Keeps kb (State.captureSets s) := by
  unfold State.captureSets
  extract_lets +onlyGivenNames -underBinder first
  try clear_value first
  extract_lets +onlyGivenNames -underBinder sel
  try clear_value sel
  extract_lets +onlyGivenNames -underBinder src0 d
  try clear_value d
  with_reducible apply State.setBit_keeps
  refine Keeps.upd ?_ rfl rfl
  assumption

theorem State.readCapture_keeps {kb : State} (s : State) (h : Keeps kb s) (cls : Cls) (master : Nat) (k : Nat) (m : Nat) :
    Keeps kb (State.readCapture s cls master k m).1 := by
  unfold State.readCapture
  with_reducible apply State.devRead_keeps
  assumption

theorem State.setMonitor_keeps {kb : State} (s : State) (h : Keeps kb s) (c : Nat) (m : MonitorChan) :
    Keeps kb (State.setMonitor s c m) := by
  unfold State.setMonitor
  refine Keeps.upd ?_ rfl rfl
  assumption

theorem State.monitorLength_keeps {kb : State} (s : State) (h : Keeps kb s) :
    Keeps kb (State.monitorLength s) := by
  unfold State.monitorLength
  extract_lets +onlyGivenNames -underBinder len
  try clear_value len
  refine Keeps.ite ?_ ?_
  · assumption
  · extract_lets +onlyGivenNames -underBinder src0 t
    have h_t : Keeps kb t := by
      unfold t
      refine Keeps.upd ?_ rfl rfl
      assumption
    try clear_value t
    refine Keeps.foldl (fun t x ht => ?_) ?_
    · try simp -zeta only []
      with_reducible apply State.setMonitor_keeps
      assumption
    · assumption

theorem State.monitorSample_keeps {kb : State} (s : State) (h : Keeps kb s) (c : Nat) (x : BitVec 12) :
    Keeps kb (State.monitorSample s c x).1 := by
  unfold State.monitorSample
  extract_lets +onlyGivenNames -underBinder s1
  have h_s1 : Keeps kb s1 := by
    unfold s1
    refine Keeps.ite ?_ ?_
    · with_reducible apply State.monitorLength_keeps
      assumption
    · assumption
  try clear_value s1
  extract_lets +onlyGivenNames -underBinder l
  try clear_value l
  extract_lets +onlyGivenNames -underBinder r
  try clear_value r
  split
  · with_reducible apply State.setMonitor_keeps
    assumption
  · refine Keeps.iteP (p := Prod.fst) ?_ ?_
    · with_reducible apply State.setMonitor_keeps
      assumption
    · extract_lets +onlyGivenNames -underBinder w
      try clear_value w
      extract_lets +onlyGivenNames -underBinder settling
      try clear_value settling
      extract_lets +onlyGivenNames -underBinder src0 s2
      have h_s2 : Keeps kb s2 := by
        unfold s2
        with_reducible apply State.setMonitor_keeps
        assumption
      try clear_value s2
      with_reducible apply State.setBit_keeps
      with_reducible apply State.setReg_keeps
      assumption

theorem State.refuseDec_keeps {kb : State} (s : State) (h : Keeps kb s) :
    Keeps kb (State.refuseDec s) := by
  unfold State.refuseDec
  with_reducible apply State.pageErrFlag_keeps
  with_reducible apply State.setBit_keeps
  assumption

theorem actCoefData_keeps {kb : State} (s : State) (h : Keeps kb s) (x : RegRow) (x2 : Word) (v : Word) :
    Keeps kb (actCoefData s x x2 v) := by
  unfold actCoefData
  extract_lets +onlyGivenNames -underBinder set
  try clear_value set
  extract_lets +onlyGivenNames -underBinder tap
  try clear_value tap
  refine Keeps.ite ?_ ?_
  · with_reducible apply State.refuseDec_keeps
    assumption
  · with_reducible apply State.setFld_keeps
    refine Keeps.upd ?_ rfl rfl
    assumption

theorem actTaps_keeps {kb : State} (s : State) (h : Keeps kb s) (r : RegRow) (old : Word) (v : Word) :
    Keeps kb (actTaps s r old v) := by
  unfold actTaps
  refine Keeps.ite ?_ ?_
  · with_reducible apply State.refuseDec_keeps
    assumption
  · with_reducible apply State.setReg_keeps
    assumption

theorem actCapSrc_keeps {kb : State} (k : Nat) (s : State) (h : Keeps kb s) (r : RegRow) (old : Word) (v : Word) :
    Keeps kb (actCapSrc k s r old v) := by
  unfold actCapSrc
  refine Keeps.ite ?_ ?_
  · with_reducible apply State.refuseDec_keeps
    assumption
  · with_reducible apply State.setReg_keeps
    assumption

theorem execCoefWrite_keeps {kb : State} (path : Path) (v : Word) (s : State) (h : Keeps kb s) :
    KeepsOut kb (execCoefWrite path v s) := by
  unfold execCoefWrite
  refine Keeps.next ?_
  with_reducible apply State.hostWrite_keeps
  · assumption
  · intro z0 z1 z2 z3 hz
    try simp -zeta only []
    with_reducible apply actCoefData_keeps
    assumption

theorem execTapsWrite_keeps {kb : State} (path : Path) (v : Word) (s : State) (h : Keeps kb s) :
    KeepsOut kb (execTapsWrite path v s) := by
  unfold execTapsWrite
  refine Keeps.next ?_
  with_reducible apply State.hostWrite_keeps
  · assumption
  · intro z0 z1 z2 z3 hz
    try simp -zeta only []
    with_reducible apply actTaps_keeps
    assumption

theorem execBusSetChange_keeps {kb : State} (path : Path) (v : Word) (s : State) (h : Keeps kb s) :
    KeepsOut kb (execBusSetChange path v s) := by
  unfold execBusSetChange
  refine Keeps.next ?_
  with_reducible apply State.hostWrite_keeps
  · assumption
  · intro z0 z1 z2 z3 hz
    try simp -zeta only []
    with_reducible apply storeAct_keeps
    assumption

theorem execCapSetChange_keeps {kb : State} (path : Path) (v : Word) (s : State) (h : Keeps kb s) :
    KeepsOut kb (execCapSetChange path v s) := by
  unfold execCapSetChange
  refine Keeps.next ?_
  with_reducible apply State.hostWrite_keeps
  · assumption
  · intro z0 z1 z2 z3 hz
    try simp -zeta only []
    with_reducible apply storeAct_keeps
    assumption

theorem execMonitorLengthWrite_keeps {kb : State} (path : Path) (v : Word) (s : State) (h : Keeps kb s) :
    KeepsOut kb (execMonitorLengthWrite path v s) := by
  unfold execMonitorLengthWrite
  refine Keeps.next ?_
  with_reducible apply State.hostWrite_keeps
  · assumption
  · intro z0 z1 z2 z3 hz
    try simp -zeta only []
    with_reducible apply storeAct_keeps
    assumption

theorem execCaptureSourceWrite_keeps {kb : State} (path : Path) (k : Fin 128) (v : Word) (s : State) (h : Keeps kb s) :
    KeepsOut kb (execCaptureSourceWrite path k v s) := by
  unfold execCaptureSourceWrite
  refine Keeps.next ?_
  with_reducible apply State.hostWrite_keeps
  · assumption
  · intro z0 z1 z2 z3 hz
    try simp -zeta only []
    with_reducible apply actCapSrc_keeps
    assumption

theorem execCaptureSample_keeps {kb : State} (port : Fin 4) (ch : Fin 256) (t : BitVec 56) (second : Bool) (w : Word) (s : State) (h : Keeps kb s) :
    KeepsOut kb (execCaptureSample port ch t second w s) := by
  unfold execCaptureSample
  refine Keeps.next ?_
  refine Keeps.ite ?_ ?_
  · with_reducible apply State.portSample_keeps
    assumption
  · assumption

theorem execFinalSumClose_keeps {kb : State} (s : State) (h : Keeps kb s) :
    KeepsOut kb (execFinalSumClose s) := by
  unfold execFinalSumClose
  extract_lets +onlyGivenNames -underBinder p
  try clear_value p
  refine Keeps.iteO ?_ ?_
  · refine Keeps.next ?_
    assumption
  · extract_lets +onlyGivenNames -underBinder s1
    have h_s1 : Keeps kb s1 := by
      unfold s1
      with_reducible apply State.closeFinal_keeps
      assumption
    try clear_value s1
    extract_lets +onlyGivenNames -underBinder src0 s2
    have h_s2 : Keeps kb s2 := by
      unfold s2
      refine Keeps.ite ?_ ?_
      · with_reducible apply State.idle_keeps
        refine Keeps.upd ?_ rfl rfl
        assumption
      · assumption
    try clear_value s2
    extract_lets +onlyGivenNames -underBinder s3
    have h_s3 : Keeps kb s3 := by
      unfold s3
      with_reducible apply State.decimate_keeps
      assumption
    try clear_value s3
    refine Keeps.next ?_
    refine Keeps.upd ?_ rfl rfl
    assumption

theorem execVoiceSumClose_keeps {kb : State} (s : State) (h : Keeps kb s) :
    KeepsOut kb (execVoiceSumClose s) := by
  unfold execVoiceSumClose
  extract_lets +onlyGivenNames -underBinder p
  try clear_value p
  refine Keeps.iteO ?_ ?_
  · refine Keeps.next ?_
    assumption
  · extract_lets +onlyGivenNames -underBinder s1
    have h_s1 : Keeps kb s1 := by
      unfold s1
      with_reducible apply State.closeVoice_keeps
      assumption
    try clear_value s1
    refine Keeps.next ?_
    refine Keeps.upd ?_ rfl rfl
    assumption

end Sys2Proof.Machine
end

