-- ==== Sys2Proof/Laws/Keeps/Queues.lean ====
section
/-! SUPPORT. What the functions of Machine/Queues.lean keep (Laws/Keeps.lean). -/

namespace Sys2Proof.Machine

theorem State.showQueue_keeps {kb : State} (s : State) (h : Keeps kb s) (q : Nat) :
    Keeps kb (State.showQueue s q) := by
  unfold State.showQueue
  extract_lets +onlyGivenNames -underBinder x
  try clear_value x
  with_reducible apply State.setFld_keeps
  with_reducible apply State.setBit_keeps
  assumption

theorem State.putQueue_keeps {kb : State} (s : State) (h : Keeps kb s) (q : Nat) (x : Queue) :
    Keeps kb (State.putQueue s q x) := by
  unfold State.putQueue
  with_reducible apply State.showQueue_keeps
  with_reducible apply State.setQueue_keeps
  assumption

theorem State.routerEntries_keeps {kb : State} (s : State) (h : Keeps kb s) (q : Nat) (n : Nat) :
    Keeps kb (State.routerEntries s q n).1 := by
  unfold State.routerEntries
  extract_lets +onlyGivenNames -underBinder base
  try clear_value base
  extract_lets +onlyGivenNames -underBinder r
  have h_r : Keeps kb r.1 := by
    unfold r
    with_reducible apply State.devRead_keeps
    assumption
  try clear_value r
  assumption

theorem State.routeChannel_keeps {kb : State} (s : State) (h : Keeps kb s) (n : Nat) (e : Nat) :
    Keeps kb (State.routeChannel s n e).1 := by
  unfold State.routeChannel
  extract_lets +onlyGivenNames -underBinder zeros
  try clear_value zeros
  extract_lets +onlyGivenNames -underBinder index
  try clear_value index
  split
  · assumption
  · refine Keeps.iteP (p := Prod.fst) ?_ ?_
    · assumption
    · with_reducible apply State.readCapture_keeps
      assumption
  · assumption

theorem State.routeQueue_keeps {kb : State} (s : State) (h : Keeps kb s) (n : Nat) (q : Nat) :
    Keeps kb (State.routeQueue s n q) := by
  unfold State.routeQueue
  refine Keeps.ite ?_ ?_
  · assumption
  · extract_lets +onlyGivenNames -underBinder es
    have h_es : Keeps kb es.1 := by
      unfold es
      with_reducible apply State.routerEntries_keeps
      assumption
    try clear_value es
    extract_lets +onlyGivenNames -underBinder r
    have h_r : Keeps kb r.1 := by
      unfold r
      refine Keeps.foldlFst (fun t x ht => ?_) ?_
      · try simp -zeta only []
        extract_lets +onlyGivenNames -underBinder k
        have h_k : Keeps kb k.1 := by
          unfold k
          with_reducible apply State.routeChannel_keeps
          assumption
        try clear_value k
        assumption
      · assumption
    try clear_value r
    extract_lets +onlyGivenNames -underBinder x
    try clear_value x
    with_reducible apply State.setQueue_keeps
    assumption

theorem execFrameBoundary_keeps {kb : State} (s : State) (h : Keeps kb s) :
    KeepsOut kb (execFrameBoundary s) := by
  unfold execFrameBoundary
  extract_lets +onlyGivenNames -underBinder p
  refine Keeps.iteO h ?_
  dsimp only
  refine Keeps.next (Keeps.ite ?_ ?_)
  · refine State.idle_keeps _ (Keeps.upd ?_ rfl rfl) _
    refine Keeps.ite (Keeps.foldl (fun t x ht => State.routeQueue_keeps _ ht _ _) ?_) ?_ <;>
      exact State.setFld_keeps _ (Keeps.upd h rfl rfl) _ _ _ _
  · refine Keeps.ite (Keeps.foldl (fun t x ht => State.routeQueue_keeps _ ht _ _) ?_) ?_ <;>
      exact State.setFld_keeps _ (Keeps.upd h rfl rfl) _ _ _ _

theorem State.blockArrives_keeps {kb : State} (s : State) (h : Keeps kb s) (q : Nat) (n : Nat) (data : List (List Word)) :
    Keeps kb (State.blockArrives s q n data) := by
  unfold State.blockArrives
  extract_lets +onlyGivenNames -underBinder lateR
  try clear_value lateR
  extract_lets +onlyGivenNames -underBinder late
  have h_late : Keeps kb late.st := by
    unfold late
    with_reducible apply State.detect_keeps
    assumption
  try clear_value late
  refine Keeps.ite ?_ ?_
  · with_reducible apply State.count_keeps
    with_reducible apply State.setBit_keeps
    with_reducible apply State.bump_keeps
    assumption
  · extract_lets +onlyGivenNames -underBinder x
    try clear_value x
    extract_lets +onlyGivenNames -underBinder excess
    have h_excess : Keeps kb excess.st := by
      unfold excess
      with_reducible apply State.detect_keeps
      assumption
    try clear_value excess
    refine Keeps.ite ?_ ?_
    · with_reducible apply State.raise_keeps
      with_reducible apply State.count_keeps
      with_reducible apply State.setBit_keeps
      with_reducible apply State.bump_keeps
      assumption
    · with_reducible apply State.putQueue_keeps
      assumption

theorem execQueueBlockArrival_keeps {kb : State} (q : Fin 48) (s : State) (h : Keeps kb s) :
    KeepsOut kb (execQueueBlockArrival q s) := by
  unfold execQueueBlockArrival
  extract_lets +onlyGivenNames -underBinder x
  try clear_value x
  split
  · refine Keeps.next ?_
    assumption
  · refine Keeps.next ?_
    with_reducible apply State.blockArrives_keeps
    with_reducible apply State.setQueue_keeps
    assumption

theorem State.queueStart_keeps {kb : State} (s : State) (h : Keeps kb s) (q : Nat) :
    Keeps kb (State.queueStart s q) := by
  unfold State.queueStart
  extract_lets +onlyGivenNames -underBinder x0
  try clear_value x0
  extract_lets +onlyGivenNames -underBinder on
  try clear_value on
  extract_lets +onlyGivenNames -underBinder x
  try clear_value x
  refine Keeps.ite ?_ ?_
  · with_reducible apply State.setQueue_keeps
    assumption
  · extract_lets +onlyGivenNames -underBinder p1
    try clear_value p1
    extract_lets +onlyGivenNames -underBinder d
    try clear_value d
    extract_lets +onlyGivenNames -underBinder found
    try clear_value found
    extract_lets +onlyGivenNames -underBinder later
    try clear_value later
    extract_lets +onlyGivenNames -underBinder k
    have h_k : Keeps kb k.st := by
      unfold k
      split
      · with_reducible apply State.detect_keeps
        assumption
      · assumption
    try clear_value k
    refine Keeps.ite ?_ ?_
    · refine Keeps.ite ?_ ?_
      · with_reducible apply State.putQueue_keeps
        assumption
      · extract_lets +onlyGivenNames -underBinder y
        try clear_value y
        refine Keeps.ite ?_ ?_
        · with_reducible apply State.putQueue_keeps
          assumption
        · extract_lets +onlyGivenNames -underBinder s1
          have h_s1 : Keeps kb s1 := by
            unfold s1
            with_reducible apply State.count_keeps
            with_reducible apply State.setBit_keeps
            with_reducible apply State.bump_keeps
            assumption
          try clear_value s1
          with_reducible apply State.putQueue_keeps
          refine Keeps.ite ?_ ?_
          · with_reducible apply State.raise_keeps
            assumption
          · assumption
    · with_reducible apply State.putQueue_keeps
      with_reducible apply State.count_keeps
      assumption

theorem State.queueSample_keeps {kb : State} (s : State) (h : Keeps kb s) (q : Nat) :
    Keeps kb (State.queueSample s q) := by
  unfold State.queueSample
  extract_lets +onlyGivenNames -underBinder o
  try clear_value o
  extract_lets +onlyGivenNames -underBinder s1
  have h_s1 : Keeps kb s1 := by
    unfold s1
    refine Keeps.ite ?_ ?_
    · with_reducible apply State.queueStart_keeps
      assumption
    · assumption
  try clear_value s1
  extract_lets +onlyGivenNames -underBinder x
  try clear_value x
  refine Keeps.ite ?_ ?_
  · assumption
  · extract_lets +onlyGivenNames -underBinder b
    try clear_value b
    extract_lets +onlyGivenNames -underBinder whole
    try clear_value whole
    extract_lets +onlyGivenNames -underBinder fade
    try clear_value fade
    extract_lets +onlyGivenNames -underBinder rise
    try clear_value rise
    extract_lets +onlyGivenNames -underBinder y
    try clear_value y
    extract_lets +onlyGivenNames -underBinder done
    try clear_value done
    extract_lets +onlyGivenNames -underBinder z
    try clear_value z
    with_reducible apply State.putQueue_keeps
    assumption

theorem State.stopQueue_keeps {kb : State} (s : State) (h : Keeps kb s) (q : Nat) :
    Keeps kb (State.stopQueue s q) := by
  unfold State.stopQueue
  extract_lets +onlyGivenNames -underBinder x
  try clear_value x
  refine Keeps.ite ?_ ?_
  · with_reducible apply State.setQueue_keeps
    assumption
  · extract_lets +onlyGivenNames -underBinder fade
    try clear_value fade
    with_reducible apply State.putQueue_keeps
    assumption

theorem actOqCfg_keeps {kb : State} (q : Nat) (s : State) (h : Keeps kb s) (r : RegRow) (old : Word) (v : Word) :
    Keeps kb (actOqCfg q s r old v) := by
  unfold actOqCfg
  extract_lets +onlyGivenNames -underBinder changed
  try clear_value changed
  refine Keeps.ite ?_ ?_
  · with_reducible apply State.refuseCfg_keeps
    assumption
  · extract_lets +onlyGivenNames -underBinder s1
    have h_s1 : Keeps kb s1 := by
      unfold s1
      with_reducible apply State.setReg_keeps
      assumption
    try clear_value s1
    refine Keeps.ite ?_ ?_
    · with_reducible apply State.stopQueue_keeps
      assumption
    · assumption

theorem execQueueEnable_keeps {kb : State} (path : Path) (q : Fin 48) (v : Word) (s : State) (h : Keeps kb s) :
    KeepsOut kb (execQueueEnable path q v s) := by
  unfold execQueueEnable
  refine Keeps.next ?_
  with_reducible apply State.hostWrite_keeps
  · assumption
  · intro z0 z1 z2 z3 hz
    try simp -zeta only []
    with_reducible apply actOqCfg_keeps
    assumption

theorem execQueueDisable_keeps {kb : State} (path : Path) (q : Fin 48) (v : Word) (s : State) (h : Keeps kb s) :
    KeepsOut kb (execQueueDisable path q v s) := by
  unfold execQueueDisable
  refine Keeps.next ?_
  with_reducible apply State.hostWrite_keeps
  · assumption
  · intro z0 z1 z2 z3 hz
    try simp -zeta only []
    with_reducible apply actOqCfg_keeps
    assumption

end Sys2Proof.Machine
end

