-- ==== Sys2Proof/Laws/Keeps/Dac.lean ====
section
/-! SUPPORT. What the functions of Machine/Dac.lean keep (Laws/Keeps.lean). -/

namespace Sys2Proof.Machine

theorem State.setDacCh_keeps {kb : State} (s : State) (h : Keeps kb s) (c : Nat) (x : DacChan) :
    Keeps kb (State.setDacCh s c x) := by
  unfold State.setDacCh
  with_reducible apply State.setBit_keeps
  with_reducible apply State.setBit_keeps
  with_reducible apply State.setFld_keeps
  refine Keeps.upd ?_ rfl rfl
  assumption

theorem State.showFilterSwitch_keeps {kb : State} (s : State) (h : Keeps kb s) :
    Keeps kb (State.showFilterSwitch s) := by
  unfold State.showFilterSwitch
  with_reducible apply State.setBit_keeps
  assumption

theorem State.clampNow_keeps {kb : State} (s : State) (h : Keeps kb s) (c : Nat) :
    Keeps kb (State.clampNow s c) := by
  unfold State.clampNow
  extract_lets +onlyGivenNames -underBinder x
  try clear_value x
  with_reducible apply State.showFilterSwitch_keeps
  with_reducible apply State.setDacCh_keeps
  assumption

theorem State.dacRelease_keeps {kb : State} (s : State) (h : Keeps kb s) (c : Nat) :
    Keeps kb (State.dacRelease s c) := by
  unfold State.dacRelease
  extract_lets +onlyGivenNames -underBinder x
  try clear_value x
  refine Keeps.ite ?_ ?_
  · assumption
  · refine Keeps.ite ?_ ?_
    · refine Keeps.ite ?_ ?_
      · with_reducible apply State.setDacCh_keeps
        assumption
      · with_reducible apply State.clampNow_keeps
        assumption
    · refine Keeps.ite ?_ ?_
      · with_reducible apply State.setDacCh_keeps
        assumption
      · with_reducible apply State.showFilterSwitch_keeps
        with_reducible apply State.setDacCh_keeps
        assumption

theorem State.dacConditions_keeps {kb : State} (s : State) (h : Keeps kb s) (c : Nat) :
    Keeps kb (State.dacConditions s c) := by
  unfold State.dacConditions
  refine Keeps.ite ?_ ?_
  · assumption
  · refine Keeps.ite ?_ ?_
    · with_reducible apply State.clampNow_keeps
      assumption
    · with_reducible apply State.dacRelease_keeps
      assumption

theorem State.dacAll_keeps {kb : State} (s : State) (h : Keeps kb s) :
    Keeps kb (State.dacAll s) := by
  unfold State.dacAll
  refine Keeps.foldl (fun t x ht => ?_) ?_
  · try simp -zeta only []
    with_reducible apply State.dacConditions_keeps
    assumption
  · assumption

theorem State.dacReleaseAll_keeps {kb : State} (s : State) (h : Keeps kb s) :
    Keeps kb (State.dacReleaseAll s) := by
  unfold State.dacReleaseAll
  refine Keeps.foldl (fun t x ht => ?_) ?_
  · try simp -zeta only []
    with_reducible apply State.dacRelease_keeps
    assumption
  · assumption

theorem State.dacSample_keeps {kb : State} (s : State) (h : Keeps kb s) (c : Nat) :
    Keeps kb (State.dacSample s c) := by
  unfold State.dacSample
  extract_lets +onlyGivenNames -underBinder s1
  have h_s1 : Keeps kb s1 := by
    unfold s1
    with_reducible apply State.dacConditions_keeps
    assumption
  try clear_value s1
  extract_lets +onlyGivenNames -underBinder x
  try clear_value x
  extract_lets +onlyGivenNames -underBinder q
  try clear_value q
  extract_lets +onlyGivenNames -underBinder at_
  try clear_value at_
  extract_lets +onlyGivenNames -underBinder source
  try clear_value source
  extract_lets +onlyGivenNames -underBinder input
  try clear_value input
  extract_lets +onlyGivenNames -underBinder y
  try clear_value y
  extract_lets +onlyGivenNames -underBinder us
  try clear_value us
  extract_lets +onlyGivenNames -underBinder src0 z
  try clear_value z
  extract_lets +onlyGivenNames -underBinder s2
  have h_s2 : Keeps kb s2 := by
    unfold s2
    refine Keeps.ite ?_ ?_
    · assumption
    · with_reducible apply State.setBit_keeps
      with_reducible apply State.count_keeps
      with_reducible apply State.bumpBy_keeps
      assumption
  try clear_value s2
  extract_lets +onlyGivenNames -underBinder s3
  have h_s3 : Keeps kb s3 := by
    unfold s3
    refine Keeps.ite ?_ ?_
    · with_reducible apply State.count_keeps
      assumption
    · assumption
  try clear_value s3
  extract_lets +onlyGivenNames -underBinder s4
  have h_s4 : Keeps kb s4 := by
    unfold s4
    refine Keeps.ite ?_ ?_
    · with_reducible apply State.count_keeps
      assumption
    · assumption
  try clear_value s4
  with_reducible apply State.setDacCh_keeps
  assumption

theorem State.dacSamples_keeps {kb : State} (s : State) (h : Keeps kb s) :
    Keeps kb (State.dacSamples s) := by
  unfold State.dacSamples
  extract_lets +onlyGivenNames -underBinder t
  have h_t : Keeps kb t := by
    unfold t
    with_reducible apply State.showFilterSwitch_keeps
    refine Keeps.foldl (fun t x ht => ?_) ?_
    · try simp -zeta only []
      with_reducible apply State.dacSample_keeps
      assumption
    · assumption
  try clear_value t
  refine Keeps.upd ?_ rfl rfl
  assumption

theorem State.clearForced_keeps {kb : State} (s : State) (h : Keeps kb s) (asserted : Bool) :
    Keeps kb (State.clearForced s asserted) := by
  unfold State.clearForced
  extract_lets +onlyGivenNames -underBinder on
  try clear_value on
  extract_lets +onlyGivenNames -underBinder was
  try clear_value was
  extract_lets +onlyGivenNames -underBinder t
  have h_t : Keeps kb t := by
    unfold t
    with_reducible apply State.raise_keeps
    with_reducible apply State.setBit_keeps
    assumption
  try clear_value t
  extract_lets +onlyGivenNames -underBinder t1
  have h_t1 : Keeps kb t1 := by
    unfold t1
    refine Keeps.ite ?_ ?_
    · with_reducible apply State.bump_keeps
      assumption
    · assumption
  try clear_value t1
  extract_lets +onlyGivenNames -underBinder release
  try clear_value release
  refine Keeps.upd ?_ rfl rfl
  assumption

theorem execOutclrAssert_keeps {kb : State} (s : State) (h : Keeps kb s) :
    KeepsOut kb (execOutclrAssert s) := by
  unfold execOutclrAssert
  refine Keeps.iteO ?_ ?_
  · refine Keeps.next ?_
    assumption
  · refine Keeps.next ?_
    with_reducible apply State.clearForced_keeps
    with_reducible apply State.setBit_keeps
    assumption

theorem execOutclrRelease_keeps {kb : State} (s : State) (h : Keeps kb s) :
    KeepsOut kb (execOutclrRelease s) := by
  unfold execOutclrRelease
  refine Keeps.iteO ?_ ?_
  · refine Keeps.next ?_
    with_reducible apply State.clearForced_keeps
    with_reducible apply State.setBit_keeps
    assumption
  · refine Keeps.next ?_
    assumption

theorem State.setSwclr_keeps {kb : State} (s : State) (h : Keeps kb s) (v : Bool) :
    Keeps kb (State.setSwclr s v) := by
  unfold State.setSwclr
  refine Keeps.ite ?_ ?_
  · assumption
  · with_reducible apply State.clearForced_keeps
    with_reducible apply State.setBit_keeps
    assumption

theorem State.dacRefuse_keeps {kb : State} (s : State) (h : Keeps kb s) :
    Keeps kb (State.dacRefuse s) := by
  unfold State.dacRefuse
  with_reducible apply State.pageErrFlag_keeps
  with_reducible apply State.setBit_keeps
  assumption

theorem actDacCtrl_keeps {kb : State} (s : State) (h : Keeps kb s) (_r : RegRow) (old : Word) (v : Word) :
    Keeps kb (actDacCtrl s _r old v) := by
  unfold actDacCtrl
  extract_lets +onlyGivenNames -underBinder changes
  try clear_value changes
  refine Keeps.ite ?_ ?_
  · with_reducible apply State.dacRefuse_keeps
    assumption
  · extract_lets +onlyGivenNames -underBinder t
    have h_t : Keeps kb t := by
      unfold t
      with_reducible apply State.setFld_keeps
      assumption
    try clear_value t
    extract_lets +onlyGivenNames -underBinder t1
    have h_t1 : Keeps kb t1 := by
      unfold t1
      refine Keeps.foldl (fun t x ht => ?_) ?_
      · try simp -zeta only []
        extract_lets +onlyGivenNames -underBinder x
        try clear_value x
        refine Keeps.ite ?_ ?_
        · with_reducible apply State.setDacCh_keeps
          assumption
        · assumption
      · assumption
    try clear_value t1
    with_reducible apply State.setSwclr_keeps
    assumption

theorem actDacCfg_keeps {kb : State} (c : Nat) (s : State) (h : Keeps kb s) (r : RegRow) (old : Word) (v : Word) :
    Keeps kb (actDacCfg c s r old v) := by
  unfold actDacCfg
  extract_lets +onlyGivenNames -underBinder changes
  try clear_value changes
  refine Keeps.ite ?_ ?_
  · with_reducible apply State.dacRefuse_keeps
    assumption
  · extract_lets +onlyGivenNames -underBinder t
    have h_t : Keeps kb t := by
      unfold t
      with_reducible apply State.setReg_keeps
      assumption
    try clear_value t
    extract_lets +onlyGivenNames -underBinder x
    try clear_value x
    extract_lets +onlyGivenNames -underBinder t1
    have h_t1 : Keeps kb t1 := by
      unfold t1
      refine Keeps.ite ?_ ?_
      · with_reducible apply State.setDacCh_keeps
        assumption
      · assumption
    try clear_value t1
    with_reducible apply State.dacConditions_keeps
    assumption

theorem actDacTone_keeps {kb : State} (c : Nat) (s : State) (h : Keeps kb s) (r : RegRow) (old : Word) (v : Word) :
    Keeps kb (actDacTone c s r old v) := by
  unfold actDacTone
  extract_lets +onlyGivenNames -underBinder t
  have h_t : Keeps kb t := by
    unfold t
    with_reducible apply State.setReg_keeps
    assumption
  try clear_value t
  extract_lets +onlyGivenNames -underBinder x
  try clear_value x
  refine Keeps.ite ?_ ?_
  · assumption
  · with_reducible apply State.setDacCh_keeps
    assumption

theorem State.setLeaky_keeps {kb : State} (s : State) (h : Keeps kb s) (c : Nat) (n : Nat) :
    Keeps kb (State.setLeaky s c n) := by
  unfold State.setLeaky
  with_reducible apply State.setFld_keeps
  assumption

theorem State.unmirror_keeps {kb : State} (s : State) (h : Keeps kb s) (c : Nat) :
    Keeps kb (State.unmirror s c) := by
  unfold State.unmirror
  refine Keeps.foldl (fun t x ht => ?_) ?_
  · try simp -zeta only []
    extract_lets +onlyGivenNames -underBinder x
    try clear_value x
    split
    · refine Keeps.ite ?_ ?_
      · with_reducible apply State.setDacCh_keeps
        assumption
      · assumption
    · assumption
  · assumption

theorem actDacStat_keeps {kb : State} (c : Nat) (s : State) (h : Keeps kb s) (r : RegRow) (old : Word) (v : Word) :
    Keeps kb (actDacStat c s r old v) := by
  unfold actDacStat
  extract_lets +onlyGivenNames -underBinder t
  have h_t : Keeps kb t := by
    unfold t
    with_reducible apply State.setReg_keeps
    assumption
  try clear_value t
  refine Keeps.ite ?_ ?_
  · assumption
  · extract_lets +onlyGivenNames -underBinder x
    try clear_value x
    with_reducible apply State.unmirror_keeps
    with_reducible apply State.setLeaky_keeps
    with_reducible apply State.setDacCh_keeps
    assumption

theorem execFilterSwitch_keeps {kb : State} (path : Path) (v : Word) (s : State) (h : Keeps kb s) :
    KeepsOut kb (execFilterSwitch path v s) := by
  unfold execFilterSwitch
  refine Keeps.next ?_
  with_reducible apply State.hostWrite_keeps
  · assumption
  · intro z0 z1 z2 z3 hz
    try simp -zeta only []
    with_reducible apply actDacCtrl_keeps
    assumption

theorem execSoftwareClear_keeps {kb : State} (path : Path) (v : Word) (s : State) (h : Keeps kb s) :
    KeepsOut kb (execSoftwareClear path v s) := by
  unfold execSoftwareClear
  refine Keeps.next ?_
  with_reducible apply State.hostWrite_keeps
  · assumption
  · intro z0 z1 z2 z3 hz
    try simp -zeta only []
    with_reducible apply actDacCtrl_keeps
    assumption

theorem execRangeSwitch_keeps {kb : State} (path : Path) (c : Fin 8) (v : Word) (s : State) (h : Keeps kb s) :
    KeepsOut kb (execRangeSwitch path c v s) := by
  unfold execRangeSwitch
  refine Keeps.next ?_
  with_reducible apply State.hostWrite_keeps
  · assumption
  · intro z0 z1 z2 z3 hz
    try simp -zeta only []
    with_reducible apply actDacCfg_keeps
    assumption

theorem execMaskWrite_keeps {kb : State} (path : Path) (c : Fin 8) (v : Word) (s : State) (h : Keeps kb s) :
    KeepsOut kb (execMaskWrite path c v s) := by
  unfold execMaskWrite
  refine Keeps.next ?_
  with_reducible apply State.hostWrite_keeps
  · assumption
  · intro z0 z1 z2 z3 hz
    try simp -zeta only []
    with_reducible apply actDacCfg_keeps
    assumption

theorem execChannelEnable_keeps {kb : State} (path : Path) (c : Fin 8) (v : Word) (s : State) (h : Keeps kb s) :
    KeepsOut kb (execChannelEnable path c v s) := by
  unfold execChannelEnable
  refine Keeps.next ?_
  with_reducible apply State.hostWrite_keeps
  · assumption
  · intro z0 z1 z2 z3 hz
    try simp -zeta only []
    with_reducible apply actDacCfg_keeps
    assumption

theorem execChannelDisable_keeps {kb : State} (path : Path) (c : Fin 8) (v : Word) (s : State) (h : Keeps kb s) :
    KeepsOut kb (execChannelDisable path c v s) := by
  unfold execChannelDisable
  refine Keeps.next ?_
  with_reducible apply State.hostWrite_keeps
  · assumption
  · intro z0 z1 z2 z3 hz
    try simp -zeta only []
    with_reducible apply actDacCfg_keeps
    assumption

theorem execClearCodeWrite_keeps {kb : State} (path : Path) (c : Fin 8) (v : Word) (s : State) (h : Keeps kb s) :
    KeepsOut kb (execClearCodeWrite path c v s) := by
  unfold execClearCodeWrite
  refine Keeps.next ?_
  with_reducible apply State.hostWrite_keeps
  · assumption
  · intro z0 z1 z2 z3 hz
    try simp -zeta only []
    with_reducible apply storeAct_keeps
    assumption

theorem execToneEnable_keeps {kb : State} (path : Path) (c : Fin 8) (v : Word) (s : State) (h : Keeps kb s) :
    KeepsOut kb (execToneEnable path c v s) := by
  unfold execToneEnable
  refine Keeps.next ?_
  with_reducible apply State.hostWrite_keeps
  · assumption
  · intro z0 z1 z2 z3 hz
    try simp -zeta only []
    with_reducible apply actDacTone_keeps
    assumption

theorem execToneDisable_keeps {kb : State} (path : Path) (c : Fin 8) (v : Word) (s : State) (h : Keeps kb s) :
    KeepsOut kb (execToneDisable path c v s) := by
  unfold execToneDisable
  refine Keeps.next ?_
  with_reducible apply State.hostWrite_keeps
  · assumption
  · intro z0 z1 z2 z3 hz
    try simp -zeta only []
    with_reducible apply actDacTone_keeps
    assumption

theorem execReadbackFaultClear_keeps {kb : State} (path : Path) (c : Fin 8) (v : Word) (s : State) (h : Keeps kb s) :
    KeepsOut kb (execReadbackFaultClear path c v s) := by
  unfold execReadbackFaultClear
  refine Keeps.next ?_
  with_reducible apply State.hostWrite_keeps
  · assumption
  · intro z0 z1 z2 z3 hz
    try simp -zeta only []
    with_reducible apply actDacStat_keeps
    assumption

theorem execOvercurrentClear_keeps {kb : State} (path : Path) (c : Fin 8) (v : Word) (s : State) (h : Keeps kb s) :
    KeepsOut kb (execOvercurrentClear path c v s) := by
  unfold execOvercurrentClear
  refine Keeps.next ?_
  with_reducible apply State.hostWrite_keeps
  · assumption
  · intro z0 z1 z2 z3 hz
    try simp -zeta only []
    with_reducible apply actDacStat_keeps
    assumption

theorem execClampRelease_keeps {kb : State} (c : Fin 8) (s : State) (h : Keeps kb s) :
    KeepsOut kb (execClampRelease c s) := by
  unfold execClampRelease
  extract_lets +onlyGivenNames -underBinder x
  try clear_value x
  refine Keeps.iteO ?_ ?_
  · refine Keeps.next ?_
    with_reducible apply State.setLeaky_keeps
    with_reducible apply State.setDacCh_keeps
    assumption
  · refine Keeps.next ?_
    assumption

theorem execClearRampEnd_keeps {kb : State} (c : Fin 8) (s : State) (h : Keeps kb s) :
    KeepsOut kb (execClearRampEnd c s) := by
  unfold execClearRampEnd
  extract_lets +onlyGivenNames -underBinder x
  try clear_value x
  refine Keeps.iteO ?_ ?_
  · refine Keeps.iteO ?_ ?_
    · extract_lets +onlyGivenNames -underBinder t
      have h_t : Keeps kb t := by
        unfold t
        with_reducible apply State.clampNow_keeps
        assumption
      try clear_value t
      refine Keeps.next ?_
      refine Keeps.ite ?_ ?_
      · with_reducible apply State.idle_keeps
        assumption
      · assumption
    · refine Keeps.next ?_
      with_reducible apply State.setDacCh_keeps
      assumption
  · refine Keeps.next ?_
    assumption

theorem execSwitchGainChange_keeps {kb : State} (c : Fin 8) (s : State) (h : Keeps kb s) :
    KeepsOut kb (execSwitchGainChange c s) := by
  unfold execSwitchGainChange
  extract_lets +onlyGivenNames -underBinder x
  try clear_value x
  split
  · refine Keeps.iteO ?_ ?_
    · refine Keeps.next ?_
      with_reducible apply State.setDacCh_keeps
      assumption
    · refine Keeps.next ?_
      assumption
  · refine Keeps.next ?_
    assumption

theorem execSwitchSequenceEnd_keeps {kb : State} (c : Fin 8) (s : State) (h : Keeps kb s) :
    KeepsOut kb (execSwitchSequenceEnd c s) := by
  unfold execSwitchSequenceEnd
  extract_lets +onlyGivenNames -underBinder x
  try clear_value x
  split
  · refine Keeps.iteO ?_ ?_
    · refine Keeps.next ?_
      with_reducible apply State.showFilterSwitch_keeps
      with_reducible apply State.setDacCh_keeps
      assumption
    · refine Keeps.next ?_
      assumption
  · refine Keeps.next ?_
    assumption

theorem execAvddChange_keeps {kb : State} (ok : Bool) (hi : Bool) (s : State) (h : Keeps kb s) :
    KeepsOut kb (execAvddChange ok hi s) := by
  unfold execAvddChange
  refine Keeps.next ?_
  with_reducible apply State.dacAll_keeps
  with_reducible apply State.setBit_keeps
  with_reducible apply State.setBit_keeps
  assumption

theorem State.readbackFault_keeps {kb : State} (s : State) (h : Keeps kb s) (c : Nat) (output : Nat) :
    Keeps kb (State.readbackFault s c output) := by
  unfold State.readbackFault
  extract_lets +onlyGivenNames -underBinder t
  have h_t : Keeps kb t := by
    unfold t
    with_reducible apply State.raise_keeps
    with_reducible apply State.bump_keeps
    with_reducible apply State.setBit_keeps
    assumption
  try clear_value t
  extract_lets +onlyGivenNames -underBinder x
  try clear_value x
  with_reducible apply State.setDacCh_keeps
  assumption

theorem State.readbackCompare_keeps {kb : State} (s : State) (h : Keeps kb s) (c : Nat) (output : Nat) (mon : Word) (ref : Word) (settling : Bool) :
    Keeps kb (State.readbackCompare s c output mon ref settling) := by
  unfold State.readbackCompare
  extract_lets +onlyGivenNames -underBinder x
  try clear_value x
  extract_lets +onlyGivenNames -underBinder ignored
  try clear_value ignored
  refine Keeps.ite ?_ ?_
  · assumption
  · refine Keeps.ite ?_ ?_
    · with_reducible apply State.setDacCh_keeps
      assumption
    · extract_lets +onlyGivenNames -underBinder e
      try clear_value e
      extract_lets +onlyGivenNames -underBinder m
      try clear_value m
      extract_lets +onlyGivenNames -underBinder miss
      try clear_value miss
      extract_lets +onlyGivenNames -underBinder cnt
      try clear_value cnt
      extract_lets +onlyGivenNames -underBinder free
      have h_free : Keeps kb free.2 := by
        unfold free
        refine Keeps.iteP (p := Prod.snd) ?_ ?_
        · with_reducible apply State.draw_keeps
          assumption
        · assumption
      try clear_value free
      extract_lets +onlyGivenNames -underBinder t
      have h_t : Keeps kb t := by
        unfold t
        refine Keeps.ite ?_ ?_
        · with_reducible apply State.count_keeps
          with_reducible apply State.bump_keeps
          assumption
        · assumption
      try clear_value t
      extract_lets +onlyGivenNames -underBinder t1
      have h_t1 : Keeps kb t1 := by
        unfold t1
        with_reducible apply State.setLeaky_keeps
        assumption
      try clear_value t1
      extract_lets +onlyGivenNames -underBinder k
      have h_k : Keeps kb k.st := by
        unfold k
        with_reducible apply State.check_keeps
        assumption
      try clear_value k
      refine Keeps.ite ?_ ?_
      · with_reducible apply State.readbackFault_keeps
        with_reducible apply State.logError_keeps
        assumption
      · assumption

theorem State.clearReferences_keeps {kb : State} (s : State) (h : Keeps kb s) :
    Keeps kb (State.clearReferences s) := by
  unfold State.clearReferences
  refine Keeps.foldl (fun t x ht => ?_) ?_
  · try simp -zeta only []
    extract_lets +onlyGivenNames -underBinder x
    try clear_value x
    with_reducible apply State.setDacCh_keeps
    assumption
  · assumption

theorem execMonitorSample_keeps {kb : State} (c : Fin 8) (x : BitVec 12) (s : State) (h : Keeps kb s) :
    KeepsOut kb (execMonitorSample c x s) := by
  unfold execMonitorSample
  extract_lets +onlyGivenNames -underBinder r
  have h_r : Keeps kb r.1 := by
    unfold r
    with_reducible apply State.monitorSample_keeps
    assumption
  try clear_value r
  extract_lets +onlyGivenNames -underBinder s1
  have h_s1 : Keeps kb s1 := by
    unfold s1
    refine Keeps.ite ?_ ?_
    · assumption
    · with_reducible apply State.clearReferences_keeps
      assumption
  try clear_value s1
  extract_lets +onlyGivenNames -underBinder ch
  try clear_value ch
  extract_lets +onlyGivenNames -underBinder p
  try clear_value p
  extract_lets +onlyGivenNames -underBinder s2
  have h_s2 : Keeps kb s2 := by
    unfold s2
    with_reducible apply State.setDacCh_keeps
    assumption
  try clear_value s2
  split
  · extract_lets +onlyGivenNames -underBinder l
    try clear_value l
    extract_lets +onlyGivenNames -underBinder ref
    try clear_value ref
    refine Keeps.next ?_
    with_reducible apply State.readbackCompare_keeps
    assumption
  · refine Keeps.next ?_
    assumption

theorem State.startMirror_keeps {kb : State} (s : State) (h : Keeps kb s) (c : Nat) :
    Keeps kb (State.startMirror s c) := by
  unfold State.startMirror
  extract_lets +onlyGivenNames -underBinder p
  try clear_value p
  refine Keeps.ite ?_ ?_
  · assumption
  · extract_lets +onlyGivenNames -underBinder y
    try clear_value y
    with_reducible apply State.setDacCh_keeps
    assumption

theorem execReadbackAction_keeps {kb : State} (c : Fin 8) (s : State) (h : Keeps kb s) :
    KeepsOut kb (execReadbackAction c s) := by
  unfold execReadbackAction
  extract_lets +onlyGivenNames -underBinder x
  try clear_value x
  extract_lets +onlyGivenNames -underBinder act
  try clear_value act
  refine Keeps.iteO ?_ ?_
  · refine Keeps.next ?_
    assumption
  · extract_lets +onlyGivenNames -underBinder s1
    have h_s1 : Keeps kb s1 := by
      unfold s1
      with_reducible apply State.setDacCh_keeps
      assumption
    try clear_value s1
    refine Keeps.iteO ?_ ?_
    · refine Keeps.next ?_
      assumption
    · extract_lets +onlyGivenNames -underBinder y
      try clear_value y
      extract_lets +onlyGivenNames -underBinder s2
      have h_s2 : Keeps kb s2 := by
        unfold s2
        refine Keeps.ite ?_ ?_
        · assumption
        · with_reducible apply State.setDacCh_keeps
          assumption
      try clear_value s2
      refine Keeps.next ?_
      refine Keeps.ite ?_ ?_
      · with_reducible apply State.startMirror_keeps
        assumption
      · assumption

theorem State.overcurrent_keeps {kb : State} (s : State) (h : Keeps kb s) (c : Nat) (nLeg : Bool) (inj : Bool) :
    Keeps kb (State.overcurrent s c nLeg inj) := by
  unfold State.overcurrent
  extract_lets +onlyGivenNames -underBinder t
  have h_t : Keeps kb t := by
    unfold t
    with_reducible apply State.clampNow_keeps
    with_reducible apply State.raise_keeps
    with_reducible apply State.bump_keeps
    with_reducible apply State.setBit_keeps
    with_reducible apply State.logError_keeps
    assumption
  try clear_value t
  refine Keeps.ite ?_ ?_
  · with_reducible apply State.startMirror_keeps
    assumption
  · assumption

theorem execOvercurrentTrip_keeps {kb : State} (c : Fin 8) (nLeg : Bool) (s : State) (h : Keeps kb s) :
    KeepsOut kb (execOvercurrentTrip c nLeg s) := by
  unfold execOvercurrentTrip
  refine Keeps.next ?_
  with_reducible apply State.overcurrent_keeps
  assumption

end Sys2Proof.Machine
end

