-- ==== Sys2Proof/Laws/Keeps/Dram.lean ====
section
/-! SUPPORT. What the functions of Machine/Dram.lean keep (Laws/Keeps.lean). -/

namespace Sys2Proof.Machine

theorem State.drcInfo_keeps {kb : State} (s : State) (h : Keeps kb s) (line : Nat) (scrub : Bool) (write : Bool) (ue : Bool) :
    Keeps kb (State.drcInfo s line scrub write ue) := by
  unfold State.drcInfo
  with_reducible apply State.setReg_keeps
  assumption

theorem State.showUnits_keeps {kb : State} (s : State) (h : Keeps kb s) :
    Keeps kb (State.showUnits s) := by
  unfold State.showUnits
  with_reducible apply State.setFld_keeps
  assumption

theorem State.retirePage_keeps {kb : State} (s : State) (h : Keeps kb s) (page : Nat) :
    Keeps kb (State.retirePage s page) := by
  unfold State.retirePage
  refine Keeps.ite ?_ ?_
  · assumption
  · split
    · with_reducible apply State.showUnits_keeps
      refine Keeps.upd ?_ rfl rfl
      assumption
    · with_reducible apply State.bump_keeps
      with_reducible apply State.setBit_keeps
      assumption

theorem State.trackPage_keeps {kb : State} (s : State) (h : Keeps kb s) (page : Nat) :
    Keeps kb (State.trackPage s page) := by
  unfold State.trackPage
  extract_lets +onlyGivenNames -underBinder thr
  try clear_value thr
  extract_lets +onlyGivenNames -underBinder n
  try clear_value n
  extract_lets +onlyGivenNames -underBinder rest
  try clear_value rest
  extract_lets +onlyGivenNames -underBinder room
  try clear_value room
  refine Keeps.ite ?_ ?_
  · with_reducible apply State.retirePage_keeps
    refine Keeps.upd ?_ rfl rfl
    assumption
  · refine Keeps.upd ?_ rfl rfl
    assumption

theorem State.drawLine_keeps {kb : State} (s : State) (h : Keeps kb s) (a : Nat) :
    Keeps kb (State.drawLine s a).1 := by
  induction a generalizing s with
  | zero =>
    rw [State.drawLine]
    assumption
  | succ k ih =>
    rw [State.drawLine]
    apply ih
    with_reducible apply State.draw_keeps
    assumption

theorem State.lineCorrected_keeps {kb : State} (s : State) (h : Keeps kb s) (line : Nat) (scrub : Bool) (inj : Bool) :
    Keeps kb (State.lineCorrected s line scrub inj) := by
  unfold State.lineCorrected
  extract_lets +onlyGivenNames -underBinder s1
  have h_s1 : Keeps kb s1 := by
    unfold s1
    with_reducible apply State.count_keeps
    with_reducible apply State.logError_keeps
    with_reducible apply State.raise_keeps
    with_reducible apply State.drcInfo_keeps
    with_reducible apply State.bump_keeps
    assumption
  try clear_value s1
  refine Keeps.ite ?_ ?_
  · assumption
  · with_reducible apply State.trackPage_keeps
    assumption

theorem State.lineLost_keeps {kb : State} (s : State) (h : Keeps kb s) (line : Nat) (scrub : Bool) (write : Bool) (inj : Bool) :
    Keeps kb (State.lineLost s line scrub write inj) := by
  unfold State.lineLost
  extract_lets +onlyGivenNames -underBinder s1
  have h_s1 : Keeps kb s1 := by
    unfold s1
    with_reducible apply State.logError_keeps
    with_reducible apply State.raise_keeps
    with_reducible apply State.drcInfo_keeps
    with_reducible apply State.bump_keeps
    assumption
  try clear_value s1
  refine Keeps.ite ?_ ?_
  · assumption
  · with_reducible apply State.retirePage_keeps
    refine Keeps.upd ?_ rfl rfl
    assumption

theorem State.readLine_keeps {kb : State} (s : State) (h : Keeps kb s) (line : Nat) (errs : Nat) (scrub : Bool) (write : Bool) :
    Keeps kb (State.readLine s line errs scrub write).1 := by
  unfold State.readLine
  extract_lets +onlyGivenNames -underBinder t
  try clear_value t
  extract_lets +onlyGivenNames -underBinder s0
  have h_s0 : Keeps kb s0 := by
    unfold s0
    with_reducible apply State.count_keeps
    assumption
  try clear_value s0
  extract_lets +onlyGivenNames -underBinder die
  try clear_value die
  extract_lets +onlyGivenNames -underBinder open_
  try clear_value open_
  extract_lets +onlyGivenNames -underBinder dr
  have h_dr : Keeps kb dr.2 := by
    unfold dr
    refine Keeps.iteP (p := Prod.snd) ?_ ?_
    · with_reducible apply State.draw_keeps
      assumption
    · assumption
  try clear_value dr
  extract_lets +onlyGivenNames -underBinder lost
  try clear_value lost
  extract_lets +onlyGivenNames -underBinder ue
  have h_ue : Keeps kb ue.st := by
    unfold ue
    with_reducible apply State.check_keeps
    assumption
  try clear_value ue
  refine Keeps.iteP (p := Prod.fst) ?_ ?_
  · with_reducible apply State.lineLost_keeps
    assumption
  · refine Keeps.iteP (p := Prod.fst) ?_ ?_
    · extract_lets +onlyGivenNames -underBinder w
      have h_w : Keeps kb w.1 := by
        unfold w
        with_reducible apply State.drawLine_keeps
        assumption
      try clear_value w
      with_reducible apply State.lineCorrected_keeps
      assumption
    · extract_lets +onlyGivenNames -underBinder ce
      have h_ce : Keeps kb ce.st := by
        unfold ce
        with_reducible apply State.check_keeps
        assumption
      try clear_value ce
      refine Keeps.iteP (p := Prod.fst) ?_ ?_
      · with_reducible apply State.lineCorrected_keeps
        assumption
      · assumption

theorem State.putDram_keeps {kb : State} (s : State) (h : Keeps kb s) (a : Nat) (a2 : List Byte) :
    Keeps kb (State.putDram s a a2) := by
  induction a2 generalizing s a with
  | nil => exact h
  | cons b bs ih =>
    rw [State.putDram]
    apply ih
    exact h.trans ⟨rfl, rfl, Nat.le_refl _, fun c => ⟨c.con, Sparse.wf_put _ _ (dflt := fun _ => 0) c.dram, c.regs⟩⟩

theorem State.writeLine_keeps {kb : State} (s : State) (h : Keeps kb s) (a : Nat) (data : List Byte) (errs : Nat) :
    Keeps kb (State.writeLine s a data errs) := by
  unfold State.writeLine
  extract_lets +onlyGivenNames -underBinder line
  try clear_value line
  extract_lets +onlyGivenNames -underBinder s0
  have h_s0 : Keeps kb s0 := by
    unfold s0
    with_reducible apply State.count_keeps
    assumption
  try clear_value s0
  refine Keeps.ite ?_ ?_
  · with_reducible apply State.putDram_keeps
    refine Keeps.upd ?_ rfl rfl
    assumption
  · extract_lets +onlyGivenNames -underBinder r
    have h_r : Keeps kb r.1 := by
      unfold r
      with_reducible apply State.readLine_keeps
      assumption
    try clear_value r
    split
    · assumption
    · extract_lets +onlyGivenNames -underBinder o
      try clear_value o
      with_reducible apply State.putDram_keeps
      assumption

theorem State.readDram_keeps {kb : State} (s : State) (h : Keeps kb s) (a : Nat) (n : Nat) (errs : List Nat) (a4 : Nat) :
    Keeps kb (State.readDram s a n errs a4).1 := by
  induction a4 generalizing s a n errs with
  | zero =>
    rw [State.readDram]
    assumption
  | succ k ih =>
    rw [State.readDram]
    refine Keeps.iteP (p := Prod.fst) ?_ ?_
    · assumption
    · extract_lets +onlyGivenNames -underBinder o
      try clear_value o
      extract_lets +onlyGivenNames -underBinder k
      try clear_value k
      extract_lets +onlyGivenNames -underBinder r
      have h_r : Keeps kb r.1 := by
        unfold r
        with_reducible apply State.readLine_keeps
        assumption
      try clear_value r
      extract_lets +onlyGivenNames -underBinder bytes
      try clear_value bytes
      extract_lets +onlyGivenNames -underBinder rest
      have h_rest : Keeps kb rest.1 := by
        unfold rest
        apply ih
        assumption
      try clear_value rest
      assumption

theorem State.writeDram_keeps {kb : State} (s : State) (h : Keeps kb s) (a : Nat) (data : List Byte) (errs : List Nat) (a4 : Nat) :
    Keeps kb (State.writeDram s a data errs a4) := by
  induction a4 generalizing s a data errs with
  | zero =>
    rw [State.writeDram]
    assumption
  | succ k ih =>
    rw [State.writeDram]
    refine Keeps.ite ?_ ?_
    · assumption
    · extract_lets +onlyGivenNames -underBinder k
      try clear_value k
      apply ih
      with_reducible apply State.writeLine_keeps
      assumption

end Sys2Proof.Machine
end

