-- ==== Sys2Proof/Laws/Keeps/Streams.lean ====
section
/-! SUPPORT. What the functions of Machine/Streams.lean keep (Laws/Keeps.lean). -/

namespace Sys2Proof.Machine

theorem State.storeFrames_keeps {kb : State} (s : State) (h : Keeps kb s) (ring : Nat) (stereo : Bool) (cls : Cls) (f : Nat) (a : List (Word × Word)) :
    Keeps kb (State.storeFrames s ring stereo cls f a) := by
  induction a generalizing s ring stereo cls f with
  | nil =>
    rw [State.storeFrames]
    assumption
  | cons b bs ih =>
    rw [State.storeFrames]
    apply ih
    refine Keeps.ite ?_ ?_
    · with_reducible apply State.devWrite_keeps
      with_reducible apply State.devWrite_keeps
      assumption
    · with_reducible apply State.devWrite_keeps
      assumption

theorem State.issueFills_keeps {kb : State} (s : State) (h : Keeps kb s) (slot : Nat) (k : Nat) (a : Nat) :
    Keeps kb (State.issueFills s slot k a) := by
  induction a generalizing s slot k with
  | zero =>
    rw [State.issueFills]
    assumption
  | succ k ih =>
    rw [State.issueFills]
    refine Keeps.ite ?_ ?_
    · assumption
    · extract_lets +onlyGivenNames -underBinder want
      try clear_value want
      split
      · refine Keeps.ite ?_ ?_
        · with_reducible apply State.setStream_keeps
          with_reducible apply State.storeFrames_keeps
          assumption
        · assumption
      · refine Keeps.ite ?_ ?_
        · apply ih
          with_reducible apply State.setStream_keeps
          assumption
        · extract_lets +onlyGivenNames -underBinder stop
          try clear_value stop
          extract_lets +onlyGivenNames -underBinder n
          try clear_value n
          extract_lets +onlyGivenNames -underBinder fill
          try clear_value fill
          extract_lets +onlyGivenNames -underBinder pos
          try clear_value pos
          extract_lets +onlyGivenNames -underBinder s1
          have h_s1 : Keeps kb s1 := by
            unfold s1
            with_reducible apply State.count_keeps
            with_reducible apply State.setStream_keeps
            assumption
          try clear_value s1
          extract_lets +onlyGivenNames -underBinder s2
          have h_s2 : Keeps kb s2 := by
            unfold s2
            refine Keeps.ite ?_ ?_
            · with_reducible apply State.count_keeps
              assumption
            · assumption
          try clear_value s2
          apply ih
          refine Keeps.upd ?_ rfl rfl
          assumption

theorem State.streamFault_keeps {kb : State} (s : State) (h : Keeps kb s) (slot : Nat) (k : Nat) :
    Keeps kb (State.streamFault s slot k) := by
  unfold State.streamFault
  with_reducible apply State.bump_keeps
  with_reducible apply State.setStream_keeps
  assumption

theorem State.fillReturn_keeps {kb : State} (s : State) (h : Keeps kb s) (slot : Nat) (k : Nat) (errs : List Nat) :
    Keeps kb (State.fillReturn s slot k errs) := by
  unfold State.fillReturn
  split
  · assumption
  · extract_lets +onlyGivenNames -underBinder src0 s0
    have h_s0 : Keeps kb s0 := by
      unfold s0
      refine Keeps.upd ?_ rfl rfl
      assumption
    try clear_value s0
    extract_lets +onlyGivenNames -underBinder x
    try clear_value x
    refine Keeps.ite ?_ ?_
    · assumption
    · extract_lets +onlyGivenNames -underBinder r
      have h_r : Keeps kb r.1 := by
        unfold r
        with_reducible apply State.readDram_keeps
        assumption
      try clear_value r
      extract_lets +onlyGivenNames -underBinder s1
      have h_s1 : Keeps kb s1 := by
        unfold s1
        refine Keeps.ite ?_ ?_
        · with_reducible apply State.count_keeps
          assumption
        · assumption
      try clear_value s1
      extract_lets +onlyGivenNames -underBinder s2
      have h_s2 : Keeps kb s2 := by
        unfold s2
        with_reducible apply State.storeFrames_keeps
        assumption
      try clear_value s2
      extract_lets +onlyGivenNames -underBinder s3
      have h_s3 : Keeps kb s3 := by
        unfold s3
        with_reducible apply State.setStream_keeps
        assumption
      try clear_value s3
      with_reducible apply State.issueFills_keeps
      refine Keeps.ite ?_ ?_
      · with_reducible apply State.streamFault_keeps
        assumption
      · assumption

theorem State.showActive_keeps {kb : State} (s : State) (h : Keeps kb s) :
    Keeps kb (State.showActive s) := by
  unfold State.showActive
  with_reducible apply State.setFld_keeps
  assumption

theorem State.tableEntry_keeps {kb : State} (s : State) (h : Keeps kb s) (obj : Nat) :
    Keeps kb (State.tableEntry s obj).1 := by
  unfold State.tableEntry
  extract_lets +onlyGivenNames -underBinder a
  try clear_value a
  refine Keeps.iteP (p := Prod.fst) ?_ ?_
  · assumption
  · extract_lets +onlyGivenNames -underBinder r
    have h_r : Keeps kb r.1 := by
      unfold r
      with_reducible apply State.readDram_keeps
      assumption
    try clear_value r
    assumption

theorem State.endStream_keeps {kb : State} (s : State) (h : Keeps kb s) (slot : Nat) (k : Nat) :
    Keeps kb (State.endStream s slot k) := by
  unfold State.endStream
  extract_lets +onlyGivenNames -underBinder src0 s1
  have h_s1 : Keeps kb s1 := by
    unfold s1
    refine Keeps.upd ?_ rfl rfl
    assumption
  try clear_value s1
  with_reducible apply State.showActive_keeps
  with_reducible apply State.setStream_keeps
  assumption

theorem State.startStream_keeps {kb : State} (s : State) (h : Keeps kb s) (slot : Nat) (k : Nat) (obj : Nat) (declared : Nat) (pos : Nat) :
    Keeps kb (State.startStream s slot k obj declared pos) := by
  unfold State.startStream
  extract_lets +onlyGivenNames -underBinder s1
  have h_s1 : Keeps kb s1 := by
    unfold s1
    with_reducible apply State.endStream_keeps
    assumption
  try clear_value s1
  refine Keeps.ite ?_ ?_
  · assumption
  · extract_lets +onlyGivenNames -underBinder o
    try clear_value o
    extract_lets +onlyGivenNames -underBinder src0 fresh
    try clear_value fresh
    extract_lets +onlyGivenNames -underBinder e
    have h_e : Keeps kb e.1 := by
      unfold e
      refine Keeps.iteP (p := Prod.fst) ?_ ?_
      · with_reducible apply State.tableEntry_keeps
        assumption
      · assumption
    try clear_value e
    split
    · with_reducible apply State.streamFault_keeps
      with_reducible apply State.setStream_keeps
      assumption
    · extract_lets +onlyGivenNames -underBinder z
      try clear_value z
      with_reducible apply State.issueFills_keeps
      with_reducible apply State.showActive_keeps
      with_reducible apply State.bump_keeps
      with_reducible apply State.setStream_keeps
      assumption

theorem State.allocStreams_keeps {kb : State} (s : State) (h : Keeps kb s) (slot : Nat) (part : Nat) :
    Keeps kb (State.allocStreams s slot part) := by
  unfold State.allocStreams
  extract_lets +onlyGivenNames -underBinder cfg
  try clear_value cfg
  refine Keeps.foldl (fun t x ht => ?_) ?_
  · try simp -zeta only []
    extract_lets +onlyGivenNames -underBinder v
    have h_v : Keeps kb v := by
      unfold v
      with_reducible apply State.endStream_keeps
      assumption
    try clear_value v
    extract_lets +onlyGivenNames -underBinder o
    try clear_value o
    extract_lets +onlyGivenNames -underBinder src0 clear
    have h_clear : Keeps kb clear := by
      unfold clear
      with_reducible apply State.setStream_keeps
      assumption
    try clear_value clear
    refine Keeps.ite ?_ ?_
    · extract_lets +onlyGivenNames -underBinder w
      try clear_value w
      extract_lets +onlyGivenNames -underBinder base
      try clear_value base
      extract_lets +onlyGivenNames -underBinder ratio
      try clear_value ratio
      with_reducible apply State.startStream_keeps
      with_reducible apply State.setStream_keeps
      assumption
    · assumption
  · assumption

theorem State.freeStreams_keeps {kb : State} (s : State) (h : Keeps kb s) (slot : Nat) :
    Keeps kb (State.freeStreams s slot) := by
  unfold State.freeStreams
  with_reducible apply State.endStream_keeps
  with_reducible apply State.endStream_keeps
  assumption

theorem State.releaseStreams_keeps {kb : State} (s : State) (h : Keeps kb s) (slot : Nat) :
    Keeps kb (State.releaseStreams s slot) := by
  unfold State.releaseStreams
  refine Keeps.foldl (fun t x ht => ?_) ?_
  · try simp -zeta only []
    extract_lets +onlyGivenNames -underBinder x
    try clear_value x
    refine Keeps.ite ?_ ?_
    · with_reducible apply State.issueFills_keeps
      with_reducible apply State.setStream_keeps
      assumption
    · assumption
  · assumption

theorem State.swapStreams_keeps {kb : State} (s : State) (h : Keeps kb s) (a : Nat) (b : Nat) :
    Keeps kb (State.swapStreams s a b) := by
  unfold State.swapStreams
  extract_lets +onlyGivenNames -underBinder bound
  try clear_value bound
  extract_lets +onlyGivenNames -underBinder s1
  have h_s1 : Keeps kb s1 := by
    unfold s1
    refine Keeps.foldl (fun t x ht => ?_) ?_
    · try simp -zeta only []
      extract_lets +onlyGivenNames -underBinder x
      try clear_value x
      extract_lets +onlyGivenNames -underBinder y
      try clear_value y
      with_reducible apply State.setStream_keeps
      with_reducible apply State.setStream_keeps
      assumption
    · assumption
  try clear_value s1
  refine Keeps.upd ?_ rfl rfl
  assumption

theorem State.streamOp_keeps {kb : State} (s : State) (h : Keeps kb s) (slot : Nat) (k : Nat) (w : Word) (start : Nat) (ratio : Nat) :
    Keeps kb (State.streamOp s slot k w start ratio) := by
  unfold State.streamOp
  extract_lets +onlyGivenNames -underBinder x
  try clear_value x
  extract_lets +onlyGivenNames -underBinder op
  try clear_value op
  extract_lets +onlyGivenNames -underBinder s1
  have h_s1 : Keeps kb s1 := by
    unfold s1
    with_reducible apply State.setStream_keeps
    assumption
  try clear_value s1
  refine Keeps.ite ?_ ?_
  · assumption
  · refine Keeps.ite ?_ ?_
    · with_reducible apply State.startStream_keeps
      assumption
    · refine Keeps.ite ?_ ?_
      · with_reducible apply State.endStream_keeps
        assumption
      · refine Keeps.ite ?_ ?_
        · with_reducible apply State.setStream_keeps
          assumption
        · assumption

theorem State.streamCommit_keeps {kb : State} (s : State) (h : Keeps kb s) (slot : Nat) (k : Nat) (under : Bool) :
    Keeps kb (State.streamCommit s slot k under) := by
  unfold State.streamCommit
  refine Keeps.ite ?_ ?_
  · assumption
  · extract_lets +onlyGivenNames -underBinder w
    try clear_value w
    extract_lets +onlyGivenNames -underBinder word
    try clear_value word
    extract_lets +onlyGivenNames -underBinder ratio
    try clear_value ratio
    extract_lets +onlyGivenNames -underBinder d
    have h_d : Keeps kb d.st := by
      unfold d
      split
      · with_reducible apply State.detect_keeps
        assumption
      · assumption
    try clear_value d
    extract_lets +onlyGivenNames -underBinder s1
    have h_s1 : Keeps kb s1 := by
      unfold s1
      refine Keeps.ite ?_ ?_
      · with_reducible apply State.count_keeps
        with_reducible apply State.raise_keeps
        with_reducible apply State.bump_keeps
        assumption
      · assumption
    try clear_value s1
    extract_lets +onlyGivenNames -underBinder s2
    have h_s2 : Keeps kb s2 := by
      unfold s2
      with_reducible apply State.streamOp_keeps
      assumption
    try clear_value s2
    extract_lets +onlyGivenNames -underBinder x
    try clear_value x
    extract_lets +onlyGivenNames -underBinder cons
    try clear_value cons
    extract_lets +onlyGivenNames -underBinder y
    try clear_value y
    extract_lets +onlyGivenNames -underBinder s3
    have h_s3 : Keeps kb s3 := by
      unfold s3
      with_reducible apply State.setStream_keeps
      assumption
    try clear_value s3
    with_reducible apply State.issueFills_keeps
    refine Keeps.ite ?_ ?_
    · with_reducible apply State.bump_keeps
      assumption
    · assumption

theorem State.refuseSpf_keeps {kb : State} (s : State) (h : Keeps kb s) :
    Keeps kb (State.refuseSpf s) := by
  unfold State.refuseSpf
  with_reducible apply State.refuseCfg_keeps
  assumption

theorem actTable_keeps {kb : State} (isCfg : Bool) (r : Nat) (s : State) (h : Keeps kb s) (row : RegRow) (old : Word) (v : Word) :
    Keeps kb (actTable isCfg r s row old v) := by
  unfold actTable
  extract_lets +onlyGivenNames -underBinder new
  try clear_value new
  extract_lets +onlyGivenNames -underBinder base
  try clear_value base
  extract_lets +onlyGivenNames -underBinder cfg
  try clear_value cfg
  refine Keeps.ite ?_ ?_
  · with_reducible apply State.setReg_keeps
    assumption
  · with_reducible apply State.refuseSpf_keeps
    assumption

theorem actSpfPart_keeps {kb : State} (n : Nat) (s : State) (h : Keeps kb s) (row : RegRow) (old : Word) (v : Word) :
    Keeps kb (actSpfPart n s row old v) := by
  unfold actSpfPart
  extract_lets +onlyGivenNames -underBinder new
  try clear_value new
  refine Keeps.ite ?_ ?_
  · with_reducible apply State.refuseSpf_keeps
    assumption
  · with_reducible apply State.setReg_keeps
    assumption

theorem State.applySpf_keeps {kb : State} (s : State) (h : Keeps kb s) :
    Keeps kb (State.applySpf s) := by
  unfold State.applySpf
  extract_lets +onlyGivenNames -underBinder tbl
  try clear_value tbl
  extract_lets +onlyGivenNames -underBinder cfg
  try clear_value cfg
  refine Keeps.upd ?_ rfl rfl
  assumption

theorem State.stopStreams_keeps {kb : State} (s : State) (h : Keeps kb s) :
    Keeps kb (State.stopStreams s) := by
  unfold State.stopStreams
  extract_lets +onlyGivenNames -underBinder src0 t
  have h_t : Keeps kb t := by
    unfold t
    refine Keeps.upd ?_ rfl rfl
    assumption
  try clear_value t
  with_reducible apply State.showActive_keeps
  assumption

theorem execStreamFillReturn_keeps {kb : State} (slot : Fin 1088) (k : Fin 2) (errs : List Nat) (s : State) (h : Keeps kb s) :
    KeepsOut kb (execStreamFillReturn slot k errs s) := by
  unfold execStreamFillReturn
  refine Keeps.next ?_
  with_reducible apply State.fillReturn_keeps
  assumption

theorem execTableRegionWrite_keeps {kb : State} (path : Path) (r : Fin 60) (isCfg : Bool) (v : Word) (s : State) (h : Keeps kb s) :
    KeepsOut kb (execTableRegionWrite path r isCfg v s) := by
  unfold execTableRegionWrite
  refine Keeps.next ?_
  with_reducible apply State.hostWrite_keeps
  · assumption
  · intro z0 z1 z2 z3 hz
    try simp -zeta only []
    with_reducible apply actTable_keeps
    assumption

end Sys2Proof.Machine
end

