-- ==== Sys2Proof/Laws/Keeps/Timetable.lean ====
section
/-! SUPPORT. What the functions of Machine/Timetable.lean keep (Laws/Keeps.lean). -/

namespace Sys2Proof.Machine

theorem State.writeNtf_keeps {kb : State} (s : State) (h : Keeps kb s) (e : List Byte) :
    Keeps kb (State.writeNtf s e) := by
  unfold State.writeNtf
  extract_lets +onlyGivenNames -underBinder size
  try clear_value size
  extract_lets +onlyGivenNames -underBinder pi
  try clear_value pi
  extract_lets +onlyGivenNames -underBinder lo
  try clear_value lo
  extract_lets +onlyGivenNames -underBinder e'
  try clear_value e'
  extract_lets +onlyGivenNames -underBinder s1
  have h_s1 : Keeps kb s1 := by
    unfold s1
    refine Keeps.ite ?_ ?_
    · with_reducible apply State.putConBytes_keeps
      assumption
    · with_reducible apply State.putHost_keeps
      assumption
  try clear_value s1
  extract_lets +onlyGivenNames -underBinder src0 s2
  have h_s2 : Keeps kb s2 := by
    unfold s2
    with_reducible apply State.setReg_keeps
    refine Keeps.upd ?_ rfl rfl
    assumption
  try clear_value s2
  refine Keeps.ite ?_ ?_
  · with_reducible apply State.raise_keeps
    assumption
  · assumption

theorem State.postNtf_keeps {kb : State} (s : State) (h : Keeps kb s) (e : List Byte) :
    Keeps kb (State.postNtf s e) := by
  unfold State.postNtf
  refine Keeps.ite ?_ ?_
  · assumption
  · refine Keeps.ite ?_ ?_
    · with_reducible apply State.writeNtf_keeps
      assumption
    · refine Keeps.ite ?_ ?_
      · refine Keeps.upd ?_ rfl rfl
        assumption
      · with_reducible apply State.raise_keeps
        with_reducible apply State.bump_keeps
        assumption

theorem State.flushNtf_keeps {kb : State} (s : State) (h : Keeps kb s) :
    Keeps kb (State.flushNtf s) := by
  unfold State.flushNtf
  split
  · assumption
  · refine Keeps.ite ?_ ?_
    · with_reducible apply State.writeNtf_keeps
      refine Keeps.upd ?_ rfl rfl
      assumption
    · assumption

theorem State.rejectBy_keeps {kb : State} (s : State) (h : Keeps kb s) (y1 : Nat) (reason : Nat) (u : List Word) (arr : Nat) (tag : Word) (inj : Bool) :
    Keeps kb (State.rejectBy s y1 reason u arr tag inj) := by
  unfold State.rejectBy
  extract_lets +onlyGivenNames -underBinder s1
  have h_s1 : Keeps kb s1 := by
    unfold s1
    with_reducible apply State.raise_keeps
    with_reducible apply State.setReg_keeps
    with_reducible apply State.bump_keeps
    assumption
  try clear_value s1
  extract_lets +onlyGivenNames -underBinder s2
  have h_s2 : Keeps kb s2 := by
    unfold s2
    with_reducible apply State.logError_keeps
    assumption
  try clear_value s2
  refine Keeps.ite ?_ ?_
  · with_reducible apply State.postNtf_keeps
    assumption
  · assumption

theorem State.rejectMsg_keeps {kb : State} (s : State) (h : Keeps kb s) (y1 : Nat) (reason : Nat) (u : List Word) (arr : Nat) (tag : Word) :
    Keeps kb (State.rejectMsg s y1 reason u arr tag) := by
  unfold State.rejectMsg
  with_reducible apply State.rejectBy_keeps
  assumption

theorem State.dropEvent_keeps {kb : State} (s : State) (h : Keeps kb s) (y1 : Nat) (reason : Nat) (u : List Word) (arr : Nat) (tag : Word) :
    Keeps kb (State.dropEvent s y1 reason u arr tag) := by
  unfold State.dropEvent
  with_reducible apply State.postNtf_keeps
  with_reducible apply State.bump_keeps
  assumption

theorem State.addFence_keeps {kb : State} (s : State) (h : Keeps kb s) (f : FenceRec) :
    Keeps kb (State.addFence s f) := by
  unfold State.addFence
  refine Keeps.upd ?_ rfl rfl
  assumption

theorem State.clearMtStamp_keeps {kb : State} (s : State) (h : Keeps kb s) (y1 : Nat) :
    Keeps kb (State.clearMtStamp s y1) := by
  unfold State.clearMtStamp
  refine Keeps.upd ?_ rfl rfl
  assumption

theorem State.enterMapped_keeps {kb : State} (s : State) (h : Keeps kb s) (e : Incoming) (u : List Word) (stamp : Option Nat) :
    KeepsTaken kb (State.enterMapped s e u stamp) := by
  unfold State.enterMapped
  extract_lets +onlyGivenNames -underBinder map
  try clear_value map
  split
  · refine Keeps.taken ?_
    with_reducible apply State.rejectMsg_keeps
    assumption
  · split
    · refine Keeps.taken ?_
      with_reducible apply State.rejectMsg_keeps
      assumption
    · extract_lets +onlyGivenNames -underBinder part
      try clear_value part
      extract_lets +onlyGivenNames -underBinder c
      try clear_value c
      split
      · split
        · refine Keeps.taken ?_
          with_reducible apply State.raise_keeps
          with_reducible apply State.dropEvent_keeps
          assumption
        · trivial
      · extract_lets +onlyGivenNames -underBinder late
        try clear_value late
        extract_lets +onlyGivenNames -underBinder x
        try clear_value x
        extract_lets +onlyGivenNames -underBinder src0 s1
        have h_s1 : Keeps kb s1 := by
          unfold s1
          with_reducible apply State.count_keeps
          refine Keeps.upd ?_ rfl rfl
          assumption
        try clear_value s1
        refine Keeps.taken ?_
        refine Keeps.ite ?_ ?_
        · with_reducible apply State.count_keeps
          with_reducible apply State.raise_keeps
          with_reducible apply State.bump_keeps
          assumption
        · assumption

theorem State.acceptMessage_keeps {kb : State} (s : State) (h : Keeps kb s) (e : Incoming) :
    KeepsTaken kb (State.acceptMessage s e) := by
  unfold State.acceptMessage
  extract_lets +onlyGivenNames -underBinder u
  try clear_value u
  extract_lets +onlyGivenNames -underBinder t
  try clear_value t
  extract_lets +onlyGivenNames -underBinder pend
  try clear_value pend
  extract_lets +onlyGivenNames -underBinder s0
  have h_s0 : Keeps kb s0 := by
    unfold s0
    refine Keeps.ite ?_ ?_
    · with_reducible apply State.clearMtStamp_keeps
      assumption
    · assumption
  try clear_value s0
  split
  · refine Keeps.taken ?_
    with_reducible apply State.rejectMsg_keeps
    assumption
  · refine Keeps.taken ?_
    assumption
  · split
    · refine Keeps.taken ?_
      refine Keeps.upd ?_ rfl rfl
      assumption
    · refine Keeps.taken ?_
      with_reducible apply State.rejectMsg_keeps
      assumption
  · split
    · split
      · refine Keeps.taken ?_
        with_reducible apply State.raise_keeps
        with_reducible apply State.dropEvent_keeps
        assumption
      · refine Keeps.taken ?_
        with_reducible apply State.addFence_keeps
        assumption
    · refine Keeps.taken ?_
      with_reducible apply State.rejectMsg_keeps
      assumption
  · split
    · refine Keeps.taken ?_
      with_reducible apply State.postNtf_keeps
      assumption
    · refine Keeps.taken ?_
      with_reducible apply State.bump_keeps
      assumption
  · extract_lets +onlyGivenNames -underBinder stamp
    try clear_value stamp
    with_reducible apply State.enterMapped_keeps
    assumption

theorem State.takeMessage_keeps {kb : State} (s : State) (h : Keeps kb s) (e : Incoming) :
    KeepsTaken kb (State.takeMessage s e) := by
  unfold State.takeMessage
  split
  · trivial
  · rename_i ht
    have h_t := Keeps.ofTaken (kb := kb) (by
        with_reducible apply State.acceptMessage_keeps
        assumption) ht
    extract_lets +onlyGivenNames -underBinder c
    have h_c : Keeps kb c.st := by
      unfold c
      with_reducible apply State.check_keeps
      assumption
    try clear_value c
    split
    · extract_lets +onlyGivenNames -underBinder d
      have h_d : Keeps kb d.2 := by
        unfold d
        with_reducible apply State.draw_keeps
        assumption
      try clear_value d
      refine Keeps.taken ?_
      with_reducible apply State.rejectBy_keeps
      assumption
    · refine Keeps.taken ?_
      assumption

theorem State.intake_keeps {kb : State} (s : State) (h : Keeps kb s) (e : Incoming) :
    KeepsTaken kb (State.intake s e) := by
  unfold State.intake
  split
  · refine Keeps.taken ?_
    with_reducible apply State.dropEvent_keeps
    assumption
  · with_reducible apply State.takeMessage_keeps
    assumption

theorem State.placeFence_keeps {kb : State} (s : State) (h : Keeps kb s) :
    Keeps kb (State.placeFence s) := by
  unfold State.placeFence
  split
  · assumption
  · refine Keeps.ite ?_ ?_
    · assumption
    · refine Keeps.upd ?_ rfl rfl
      assumption

theorem State.completeFence_keeps {kb : State} (s : State) (h : Keeps kb s) :
    Keeps kb (State.completeFence s) := by
  unfold State.completeFence
  split
  · assumption
  · extract_lets +onlyGivenNames -underBinder src0 s1
    have h_s1 : Keeps kb s1 := by
      unfold s1
      refine Keeps.upd ?_ rfl rfl
      assumption
    try clear_value s1
    extract_lets +onlyGivenNames -underBinder s2
    have h_s2 : Keeps kb s2 := by
      unfold s2
      with_reducible apply State.setReg_keeps
      assumption
    try clear_value s2
    extract_lets +onlyGivenNames -underBinder s3
    have h_s3 : Keeps kb s3 := by
      unfold s3
      with_reducible apply State.count_keeps
      with_reducible apply State.raise_keeps
      assumption
    try clear_value s3
    refine Keeps.ite ?_ ?_
    · with_reducible apply State.postNtf_keeps
      assumption
    · assumption

theorem State.releaseOne_keeps {kb : State} (s : State) (h : Keeps kb s) (e : TtEntry) (sample : Nat) :
    Keeps kb (State.releaseOne s e sample) := by
  unfold State.releaseOne
  extract_lets +onlyGivenNames -underBinder up
  try clear_value up
  refine Keeps.upd ?_ rfl rfl
  assumption

theorem State.putBack_keeps {kb : State} (s : State) (h : Keeps kb s) (r : Released) (again : Bool) :
    Keeps kb (State.putBack s r again) := by
  unfold State.putBack
  extract_lets +onlyGivenNames -underBinder e
  try clear_value e
  refine Keeps.upd ?_ rfl rfl
  assumption

theorem State.reportRelease_keeps {kb : State} (s : State) (h : Keeps kb s) (e : TtEntry) (sample : Nat) :
    Keeps kb (State.reportRelease s e sample) := by
  unfold State.reportRelease
  extract_lets +onlyGivenNames -underBinder s1
  have h_s1 : Keeps kb s1 := by
    unfold s1
    with_reducible apply State.count_keeps
    assumption
  try clear_value s1
  extract_lets +onlyGivenNames -underBinder s2
  have h_s2 : Keeps kb s2 := by
    unfold s2
    refine Keeps.ite ?_ ?_
    · with_reducible apply State.postNtf_keeps
      assumption
    · assumption
  try clear_value s2
  refine Keeps.ite ?_ ?_
  · with_reducible apply State.postNtf_keeps
    assumption
  · assumption

theorem State.releaseLoop_keeps {kb : State} (s : State) (h : Keeps kb s) (express : Bool) (n : Nat) (a : Nat) :
    Keeps kb (State.releaseLoop s express n a).1 := by
  induction a generalizing s express n with
  | zero =>
    rw [State.releaseLoop]
    assumption
  | succ k ih =>
    rw [State.releaseLoop]
    refine Keeps.iteP (p := Prod.fst) ?_ ?_
    · assumption
    · split
      · assumption
      · extract_lets +onlyGivenNames -underBinder x
        try clear_value x
        extract_lets +onlyGivenNames -underBinder s1
        have h_s1 : Keeps kb s1 := by
          unfold s1
          with_reducible apply State.releaseOne_keeps
          assumption
        try clear_value s1
        extract_lets +onlyGivenNames -underBinder src0 s2
        have h_s2 : Keeps kb s2 := by
          unfold s2
          refine Keeps.ite ?_ ?_
          · refine Keeps.upd ?_ rfl rfl
            assumption
          · assumption
        try clear_value s2
        extract_lets +onlyGivenNames -underBinder r
        have h_r : Keeps kb r.1 := by
          unfold r
          apply ih
          assumption
        try clear_value r
        assumption

theorem State.pruneFloors_keeps {kb : State} (s : State) (h : Keeps kb s) (first : Nat) :
    Keeps kb (State.pruneFloors s first) := by
  unfold State.pruneFloors
  refine Keeps.upd ?_ rfl rfl
  assumption

theorem State.ttRelease_keeps {kb : State} (s : State) (h : Keeps kb s) (express : Bool) (n : Nat) :
    Keeps kb (State.ttRelease s express n).1 := by
  unfold State.ttRelease
  extract_lets +onlyGivenNames -underBinder r
  have h_r : Keeps kb r.1 := by
    unfold r
    with_reducible apply State.releaseLoop_keeps
    assumption
  try clear_value r
  extract_lets +onlyGivenNames -underBinder excess
  try clear_value excess
  extract_lets +onlyGivenNames -underBinder s1
  have h_s1 : Keeps kb s1 := by
    unfold s1
    with_reducible apply State.pruneFloors_keeps
    assumption
  try clear_value s1
  extract_lets +onlyGivenNames -underBinder s2
  have h_s2 : Keeps kb s2 := by
    unfold s2
    refine Keeps.ite ?_ ?_
    · assumption
    · with_reducible apply State.raise_keeps
      with_reducible apply State.bumpBy_keeps
      assumption
  try clear_value s2
  assumption

theorem State.discardEntries_keeps {kb : State} (s : State) (h : Keeps kb s) (p : TtEntry → Bool) :
    Keeps kb (State.discardEntries s p) := by
  unfold State.discardEntries
  refine Keeps.foldl (fun t x ht => ?_) ?_
  · try simp -zeta only []
    with_reducible apply State.dropEvent_keeps
    refine Keeps.upd ?_ rfl rfl
    assumption
  · assumption

end Sys2Proof.Machine
end

