-- ==== Sys2Proof/Laws/Keeps/Store.lean ====
section
/-! SUPPORT. What the functions of Machine/Store.lean keep (Laws/Keeps.lean). -/

namespace Sys2Proof.Machine

theorem State.putFrame_keeps {kb : State} (s : State) (h : Keeps kb s) (a : Nat) (v : Word) :
    Keeps kb (State.putFrame s a v) := by
  unfold State.putFrame
  with_reducible apply State.conStore_keeps
  assumption

theorem State.putFrames_keeps {kb : State} (s : State) (h : Keeps kb s) (a : Nat) (ws : List Word) :
    Keeps kb (State.putFrames s a ws) := by
  unfold State.putFrames
  with_reducible apply State.conStore_keeps
  assumption

theorem State.setJournal_keeps {kb : State} (s : State) (h : Keeps kb s) (x : Nat) (n : Nat) (count : Nat) :
    Keeps kb (State.setJournal s x n count) := by
  unfold State.setJournal
  extract_lets +onlyGivenNames -underBinder e
  try clear_value e
  with_reducible apply State.putFrame_keeps
  with_reducible apply State.putFrame_keeps
  assumption

theorem State.setJournalEpoch_keeps {kb : State} (s : State) (h : Keeps kb s) (x : Nat) (e : Nat) :
    Keeps kb (State.setJournalEpoch s x e) := by
  unfold State.setJournalEpoch
  with_reducible apply State.putFrame_keeps
  assumption

theorem State.journalMt_keeps {kb : State} (s : State) (h : Keeps kb s) (x : Nat) (t : Nat) :
    Keeps kb (State.journalMt s x t) := by
  unfold State.journalMt
  with_reducible apply State.putFrame_keeps
  with_reducible apply State.putFrame_keeps
  assumption

theorem State.addRecord_keeps {kb : State} (s : State) (h : Keeps kb s) (x : Nat) (n : Nat) (word : Word) (value : Word) :
    Keeps kb (State.addRecord s x n word value) := by
  unfold State.addRecord
  extract_lets +onlyGivenNames -underBinder k
  try clear_value k
  extract_lets +onlyGivenNames -underBinder s1
  have h_s1 : Keeps kb s1 := by
    unfold s1
    with_reducible apply State.putFrame_keeps
    with_reducible apply State.putFrame_keeps
    assumption
  try clear_value s1
  with_reducible apply State.count_keeps
  with_reducible apply State.setJournal_keeps
  assumption

theorem State.addRecords_keeps {kb : State} (s : State) (h : Keeps kb s) (x : Nat) (n : Nat) (o : Nat) (l : List FrameWrite) :
    Keeps kb (State.addRecords s x n o l) := by
  unfold State.addRecords
  refine Keeps.foldl (fun t x ht => ?_) ?_
  · try simp -zeta only []
    with_reducible apply State.addRecord_keeps
    assumption
  · assumption

theorem State.placeWrite_keeps {kb : State} (s : State) (h : Keeps kb s) (n : Nat) (t : Nat) (a : Nat) (v : Word) :
    Keeps kb (State.placeWrite s n t a v) := by
  unfold State.placeWrite
  refine Keeps.ite ?_ ?_
  · with_reducible apply State.putFrame_keeps
    assumption
  · refine Keeps.upd ?_ rfl rfl
    assumption

theorem State.settle_keeps {kb : State} (s : State) (h : Keeps kb s) (n : Nat) :
    Keeps kb (State.settle s n) := by
  unfold State.settle
  extract_lets +onlyGivenNames -underBinder due
  try clear_value due
  extract_lets +onlyGivenNames -underBinder src0 s1
  have h_s1 : Keeps kb s1 := by
    unfold s1
    refine Keeps.foldl (fun t x ht => ?_) ?_
    · try simp -zeta only []
      with_reducible apply State.putFrame_keeps
      assumption
    · refine Keeps.upd ?_ rfl rfl
      assumption
  try clear_value s1
  refine Keeps.foldl (fun t x ht => ?_) ?_
  · try simp -zeta only []
    refine Keeps.ite ?_ ?_
    · assumption
    · with_reducible apply State.putFrame_keeps
      assumption
  · assumption

theorem State.writeVoice_keeps {kb : State} (s : State) (h : Keeps kb s) (x : Nat) (n : Nat) (t : Nat) (ws : List FrameWrite) :
    Keeps kb (State.writeVoice s x n t ws) := by
  unfold State.writeVoice
  extract_lets +onlyGivenNames -underBinder s1
  have h_s1 : Keeps kb s1 := by
    unfold s1
    refine Keeps.foldl (fun t x ht => ?_) ?_
    · try simp -zeta only []
      with_reducible apply State.placeWrite_keeps
      assumption
    · assumption
  try clear_value s1
  with_reducible apply State.journalMt_keeps
  refine Keeps.ite ?_ ?_
  · with_reducible apply State.addRecords_keeps
    assumption
  · assumption

theorem State.writePart_keeps {kb : State} (s : State) (h : Keeps kb s) (p : Nat) (n : Nat) (t : Nat) (ws : List FrameWrite) :
    Keeps kb (State.writePart s p n t ws) := by
  unfold State.writePart
  extract_lets +onlyGivenNames -underBinder s1
  have h_s1 : Keeps kb s1 := by
    unfold s1
    refine Keeps.foldl (fun t x ht => ?_) ?_
    · try simp -zeta only []
      with_reducible apply State.placeWrite_keeps
      assumption
    · assumption
  try clear_value s1
  refine Keeps.foldl (fun t x ht => ?_) ?_
  · try simp -zeta only []
    with_reducible apply State.journalMt_keeps
    refine Keeps.ite ?_ ?_
    · with_reducible apply State.addRecords_keeps
      assumption
    · assumption
  · assumption

theorem State.prepareFrame_keeps {kb : State} (s : State) (h : Keeps kb s) (x : Nat) (p : Nat) (n : Nat) (t : Nat) (note : Note) (tmpl : Word) :
    Keeps kb (State.prepareFrame s x p n t note tmpl) := by
  unfold State.prepareFrame
  extract_lets +onlyGivenNames -underBinder base
  try clear_value base
  extract_lets +onlyGivenNames -underBinder defaults
  try clear_value defaults
  extract_lets +onlyGivenNames -underBinder s1
  have h_s1 : Keeps kb s1 := by
    unfold s1
    with_reducible apply State.putFrames_keeps
    assumption
  try clear_value s1
  extract_lets +onlyGivenNames -underBinder s2
  have h_s2 : Keeps kb s2 := by
    unfold s2
    with_reducible apply State.clearCon_keeps
    with_reducible apply State.clearCon_keeps
    assumption
  try clear_value s2
  extract_lets +onlyGivenNames -underBinder noteWord
  try clear_value noteWord
  extract_lets +onlyGivenNames -underBinder pitch
  try clear_value pitch
  extract_lets +onlyGivenNames -underBinder s3
  have h_s3 : Keeps kb s3 := by
    unfold s3
    with_reducible apply State.putFrames_keeps
    with_reducible apply State.putFrames_keeps
    assumption
  try clear_value s3
  extract_lets +onlyGivenNames -underBinder gone
  try clear_value gone
  extract_lets +onlyGivenNames -underBinder src0 src1 s4
  have h_s4 : Keeps kb s4 := by
    unfold s4
    refine Keeps.upd ?_ rfl rfl
    assumption
  try clear_value s4
  with_reducible apply State.journalMt_keeps
  with_reducible apply State.setJournal_keeps
  assumption

theorem State.moveFrame_keeps {kb : State} (s : State) (h : Keeps kb s) (a : Nat) (b : Nat) :
    Keeps kb (State.moveFrame s a b) := by
  unfold State.moveFrame
  extract_lets +onlyGivenNames -underBinder copy
  have h_copy : ∀ z0 z1 z2 z3, Keeps kb z0 → Keeps kb (copy z0 z1 z2 z3) := by
    intro z0 z1 z2 z3 hz
    unfold copy
    try simp -zeta only []
    with_reducible apply State.conStore_keeps
    with_reducible apply State.clearCon_keeps
    assumption
  try clear_value copy
  extract_lets +onlyGivenNames -underBinder s1
  have h_s1 : Keeps kb s1 := by
    unfold s1
    apply h_copy
    apply h_copy
    apply h_copy
    assumption
  try clear_value s1
  extract_lets +onlyGivenNames -underBinder fb
  try clear_value fb
  extract_lets +onlyGivenNames -underBinder moved
  try clear_value moved
  refine Keeps.upd ?_ rfl rfl
  assumption

theorem actPsData_keeps {kb : State} (s : State) (h : Keeps kb s) (x : RegRow) (x2 : Word) (v : Word) :
    Keeps kb (actPsData s x x2 v) := by
  unfold actPsData
  extract_lets +onlyGivenNames -underBinder tgt
  try clear_value tgt
  refine Keeps.ite ?_ ?_
  · with_reducible apply State.pageErrFlag_keeps
    with_reducible apply State.bump_keeps
    with_reducible apply State.setBit_keeps
    assumption
  · with_reducible apply State.setFld_keeps
    refine Keeps.upd ?_ rfl rfl
    assumption

theorem execHostParameterWrite_keeps {kb : State} (path : Path) (v : Word) (s : State) (h : Keeps kb s) :
    KeepsOut kb (execHostParameterWrite path v s) := by
  unfold execHostParameterWrite
  refine Keeps.next ?_
  with_reducible apply State.hostWrite_keeps
  · assumption
  · intro z0 z1 z2 z3 hz
    try simp -zeta only []
    with_reducible apply actPsData_keeps
    assumption

end Sys2Proof.Machine
end

