-- ==== Sys2Proof/Laws/Keeps/Media.lean ====
section
/-! SUPPORT. What the functions of Machine/Media.lean keep (Laws/Keeps.lean). -/

namespace Sys2Proof.Machine

theorem State.setPll_keeps {kb : State} (s : State) (h : Keeps kb s) (v : Nat) :
    Keeps kb (State.setPll s v) := by
  unfold State.setPll
  refine Keeps.ite ?_ ?_
  · assumption
  · extract_lets +onlyGivenNames -underBinder s1
    have h_s1 : Keeps kb s1 := by
      unfold s1
      with_reducible apply State.raise_keeps
      with_reducible apply State.setFld_keeps
      assumption
    try clear_value s1
    refine Keeps.ite ?_ ?_
    · with_reducible apply State.bump_keeps
      assumption
    · assumption

theorem State.setAdj_keeps {kb : State} (s : State) (h : Keeps kb s) (v : Word) :
    Keeps kb (State.setAdj s v) := by
  unfold State.setAdj
  with_reducible apply State.setReg_keeps
  assumption

theorem State.setOffset_keeps {kb : State} (s : State) (h : Keeps kb s) (ns : Int) :
    Keeps kb (State.setOffset s ns) := by
  unfold State.setOffset
  extract_lets +onlyGivenNames -underBinder far
  try clear_value far
  extract_lets +onlyGivenNames -underBinder s1
  have h_s1 : Keeps kb s1 := by
    unfold s1
    with_reducible apply State.setReg_keeps
    assumption
  try clear_value s1
  extract_lets +onlyGivenNames -underBinder was
  try clear_value was
  extract_lets +onlyGivenNames -underBinder s2
  have h_s2 : Keeps kb s2 := by
    unfold s2
    with_reducible apply State.setBit_keeps
    assumption
  try clear_value s2
  refine Keeps.ite ?_ ?_
  · with_reducible apply State.raise_keeps
    assumption
  · assumption

theorem State.acquire_keeps {kb : State} (s : State) (h : Keeps kb s) :
    Keeps kb (State.acquire s) := by
  unfold State.acquire
  refine Keeps.ite ?_ ?_
  · with_reducible apply State.setPll_keeps
    assumption
  · refine Keeps.ite ?_ ?_
    · with_reducible apply State.setPll_keeps
      assumption
    · refine Keeps.ite ?_ ?_
      · with_reducible apply State.setAdj_keeps
        with_reducible apply State.setPll_keeps
        assumption
      · with_reducible apply State.setReg_keeps
        with_reducible apply State.setAdj_keeps
        with_reducible apply State.setPll_keeps
        assumption

theorem State.selectNext_keeps {kb : State} (s : State) (h : Keeps kb s) (x : ClockSource) :
    Keeps kb (State.selectNext s x) := by
  unfold State.selectNext
  refine Keeps.upd ?_ rfl rfl
  assumption

theorem State.loseSource_keeps {kb : State} (s : State) (h : Keeps kb s) (x : ClockSource) (avg : Word) (inj : Bool) :
    Keeps kb (State.loseSource s x avg inj) := by
  unfold State.loseSource
  extract_lets +onlyGivenNames -underBinder s1
  have h_s1 : Keeps kb s1 := by
    unfold s1
    split
    · refine Keeps.upd ?_ rfl rfl
      assumption
    · refine Keeps.upd ?_ rfl rfl
      assumption
    · assumption
  try clear_value s1
  refine Keeps.ite ?_ ?_
  · assumption
  · refine Keeps.ite ?_ ?_
    · refine Keeps.ite ?_ ?_
      · refine Keeps.upd ?_ rfl rfl
        assumption
      · assumption
    · extract_lets +onlyGivenNames -underBinder held
      try clear_value held
      extract_lets +onlyGivenNames -underBinder src0 s2
      have h_s2 : Keeps kb s2 := by
        unfold s2
        with_reducible apply State.logError_keeps
        refine Keeps.upd ?_ rfl rfl
        assumption
      try clear_value s2
      extract_lets +onlyGivenNames -underBinder s3
      have h_s3 : Keeps kb s3 := by
        unfold s3
        refine Keeps.ite ?_ ?_
        · with_reducible apply State.setAdj_keeps
          with_reducible apply State.setPll_keeps
          assumption
        · assumption
      try clear_value s3
      with_reducible apply State.selectNext_keeps
      assumption

theorem execSourceQualified_keeps {kb : State} (x : ClockSource) (s : State) (h : Keeps kb s) :
    KeepsOut kb (execSourceQualified x s) := by
  unfold execSourceQualified
  refine Keeps.next ?_
  split
  · refine Keeps.upd ?_ rfl rfl
    assumption
  · refine Keeps.upd ?_ rfl rfl
    assumption
  · assumption

theorem execSourceLost_keeps {kb : State} (x : ClockSource) (avg : Word) (s : State) (h : Keeps kb s) :
    KeepsOut kb (execSourceLost x avg s) := by
  unfold execSourceLost
  refine Keeps.iteO ?_ ?_
  · refine Keeps.next ?_
    with_reducible apply State.loseSource_keeps
    assumption
  · refine Keeps.next ?_
    assumption

theorem execSourcePromotion_keeps {kb : State} (x : ClockSource) (s : State) (h : Keeps kb s) :
    KeepsOut kb (execSourcePromotion x s) := by
  unfold execSourcePromotion
  extract_lets +onlyGivenNames -underBinder above
  try clear_value above
  refine Keeps.iteO ?_ ?_
  · refine Keeps.next ?_
    with_reducible apply State.selectNext_keeps
    assumption
  · refine Keeps.next ?_
    assumption

theorem execSourceChange_keeps {kb : State} (ns : Int) (avg : Word) (s : State) (h : Keeps kb s) :
    KeepsOut kb (execSourceChange ns avg s) := by
  unfold execSourceChange
  split
  · refine Keeps.next ?_
    assumption
  · refine Keeps.iteO ?_ ?_
    · refine Keeps.next ?_
      assumption
    · extract_lets +onlyGivenNames -underBinder held
      try clear_value held
      extract_lets +onlyGivenNames -underBinder src0 s1
      have h_s1 : Keeps kb s1 := by
        unfold s1
        refine Keeps.upd ?_ rfl rfl
        assumption
      try clear_value s1
      extract_lets +onlyGivenNames -underBinder s2
      have h_s2 : Keeps kb s2 := by
        unfold s2
        with_reducible apply State.raise_keeps
        with_reducible apply State.setFld_keeps
        assumption
      try clear_value s2
      extract_lets +onlyGivenNames -underBinder s3
      have h_s3 : Keeps kb s3 := by
        unfold s3
        with_reducible apply State.setOffset_keeps
        assumption
      try clear_value s3
      refine Keeps.next ?_
      refine Keeps.ite ?_ ?_
      · assumption
      · with_reducible apply State.acquire_keeps
        assumption

theorem execMediaPllLocked_keeps {kb : State} (ns : Int) (adj : Word) (s : State) (h : Keeps kb s) :
    KeepsOut kb (execMediaPllLocked ns adj s) := by
  unfold execMediaPllLocked
  refine Keeps.iteO ?_ ?_
  · refine Keeps.next ?_
    assumption
  · extract_lets +onlyGivenNames -underBinder s1
    have h_s1 : Keeps kb s1 := by
      unfold s1
      with_reducible apply State.setPll_keeps
      with_reducible apply State.setAdj_keeps
      with_reducible apply State.setOffset_keeps
      assumption
    try clear_value s1
    refine Keeps.next ?_
    refine Keeps.upd ?_ rfl rfl
    assumption

theorem actSrcOrder_keeps {kb : State} (s : State) (h : Keeps kb s) (r : RegRow) (old : Word) (v : Word) :
    Keeps kb (actSrcOrder s r old v) := by
  unfold actSrcOrder
  extract_lets +onlyGivenNames -underBinder s1
  have h_s1 : Keeps kb s1 := by
    unfold s1
    with_reducible apply State.setReg_keeps
    assumption
  try clear_value s1
  with_reducible apply State.selectNext_keeps
  assumption

theorem State.requestRun_keeps {kb : State} (s : State) (h : Keeps kb s) :
    Keeps kb (State.requestRun s) := by
  unfold State.requestRun
  extract_lets +onlyGivenNames -underBinder ofs
  try clear_value ofs
  extract_lets +onlyGivenNames -underBinder src0 t
  have h_t : Keeps kb t := by
    unfold t
    refine Keeps.upd ?_ rfl rfl
    assumption
  try clear_value t
  with_reducible apply State.acquire_keeps
  with_reducible apply State.setBit_keeps
  with_reducible apply State.setBit_keeps
  assumption

theorem State.requestStop_keeps {kb : State} (s : State) (h : Keeps kb s) :
    Keeps kb (State.requestStop s) := by
  unfold State.requestStop
  extract_lets +onlyGivenNames -underBinder s1
  have h_s1 : Keeps kb s1 := by
    unfold s1
    with_reducible apply State.setBit_keeps
    assumption
  try clear_value s1
  refine Keeps.ite ?_ ?_
  · extract_lets +onlyGivenNames -underBinder src0 s2
    have h_s2 : Keeps kb s2 := by
      unfold s2
      with_reducible apply State.draining_keeps
      refine Keeps.upd ?_ rfl rfl
      assumption
    try clear_value s2
    refine Keeps.foldl (fun t x ht => ?_) ?_
    · try simp -zeta only []
      extract_lets +onlyGivenNames -underBinder x
      try clear_value x
      refine Keeps.ite ?_ ?_
      · with_reducible apply State.setQueue_keeps
        assumption
      · assumption
    · assumption
  · with_reducible apply State.setPll_keeps
    assumption

theorem actMediaCtrl_keeps {kb : State} (s : State) (h : Keeps kb s) (x : RegRow) (old : Word) (v : Word) :
    Keeps kb (actMediaCtrl s x old v) := by
  unfold actMediaCtrl
  extract_lets +onlyGivenNames -underBinder was
  try clear_value was
  extract_lets +onlyGivenNames -underBinder run
  try clear_value run
  extract_lets +onlyGivenNames -underBinder src0 s1
  have h_s1 : Keeps kb s1 := by
    unfold s1
    refine Keeps.ite ?_ ?_
    · refine Keeps.upd ?_ rfl rfl
      assumption
    · assumption
  try clear_value s1
  refine Keeps.ite ?_ ?_
  · refine Keeps.ite ?_ ?_
    · refine Keeps.upd ?_ rfl rfl
      assumption
    · with_reducible apply State.requestRun_keeps
      assumption
  · refine Keeps.ite ?_ ?_
    · with_reducible apply State.requestStop_keeps
      assumption
    · refine Keeps.ite ?_ ?_
      · refine Keeps.upd ?_ rfl rfl
        assumption
      · assumption

theorem State.tdmRefuse_keeps {kb : State} (s : State) (h : Keeps kb s) :
    Keeps kb (State.tdmRefuse s) := by
  unfold State.tdmRefuse
  with_reducible apply State.pageErrFlag_keeps
  with_reducible apply State.setBit_keeps
  assumption

theorem actMediaCfg_keeps {kb : State} (s : State) (h : Keeps kb s) (r : RegRow) (old : Word) (v : Word) :
    Keeps kb (actMediaCfg s r old v) := by
  unfold actMediaCfg
  extract_lets +onlyGivenNames -underBinder new
  try clear_value new
  extract_lets +onlyGivenNames -underBinder illegal
  try clear_value illegal
  refine Keeps.ite ?_ ?_
  · with_reducible apply State.raise_keeps
    with_reducible apply State.pageErr_keeps
    with_reducible apply State.setBit_keeps
    assumption
  · refine Keeps.ite ?_ ?_
    · with_reducible apply State.tdmRefuse_keeps
      assumption
    · extract_lets +onlyGivenNames -underBinder s1
      have h_s1 : Keeps kb s1 := by
        unfold s1
        with_reducible apply State.setReg_keeps
        assumption
      try clear_value s1
      refine Keeps.ite ?_ ?_
      · assumption
      · extract_lets +onlyGivenNames -underBinder s2
        have h_s2 : Keeps kb s2 := by
          unfold s2
          with_reducible apply State.setBit_keeps
          with_reducible apply State.setBit_keeps
          assumption
        try clear_value s2
        with_reducible apply State.dacAll_keeps
        with_reducible apply State.setPll_keeps
        refine Keeps.upd ?_ rfl rfl
        assumption

theorem execMediaConfigWrite_keeps {kb : State} (path : Path) (v : Word) (s : State) (h : Keeps kb s) :
    KeepsOut kb (execMediaConfigWrite path v s) := by
  unfold execMediaConfigWrite
  refine Keeps.next ?_
  with_reducible apply State.hostWrite_keeps
  · assumption
  · intro z0 z1 z2 z3 hz
    try simp -zeta only []
    with_reducible apply actMediaCfg_keeps
    assumption

theorem execMediaStop_keeps {kb : State} (path : Path) (v : Word) (s : State) (h : Keeps kb s) :
    KeepsOut kb (execMediaStop path v s) := by
  unfold execMediaStop
  refine Keeps.next ?_
  with_reducible apply State.hostWrite_keeps
  · assumption
  · intro z0 z1 z2 z3 hz
    try simp -zeta only []
    with_reducible apply actMediaCtrl_keeps
    assumption

theorem execMediaRun_keeps {kb : State} (path : Path) (v : Word) (s : State) (h : Keeps kb s) :
    KeepsOut kb (execMediaRun path v s) := by
  unfold execMediaRun
  refine Keeps.next ?_
  with_reducible apply State.hostWrite_keeps
  · assumption
  · intro z0 z1 z2 z3 hz
    try simp -zeta only []
    with_reducible apply actMediaCtrl_keeps
    assumption

theorem execMtLoad_keeps {kb : State} (path : Path) (v : Word) (s : State) (h : Keeps kb s) :
    KeepsOut kb (execMtLoad path v s) := by
  unfold execMtLoad
  refine Keeps.next ?_
  with_reducible apply State.hostWrite_keeps
  · assumption
  · intro z0 z1 z2 z3 hz
    try simp -zeta only []
    with_reducible apply actMediaCtrl_keeps
    assumption

theorem execMediaStopComplete_keeps {kb : State} (s : State) (h : Keeps kb s) :
    KeepsOut kb (execMediaStopComplete s) := by
  unfold execMediaStopComplete
  refine Keeps.iteO ?_ ?_
  · refine Keeps.next ?_
    assumption
  · extract_lets +onlyGivenNames -underBinder rerun
    try clear_value rerun
    extract_lets +onlyGivenNames -underBinder s1
    have h_s1 : Keeps kb s1 := by
      unfold s1
      with_reducible apply State.setBit_keeps
      with_reducible apply State.settle_keeps
      assumption
    try clear_value s1
    extract_lets +onlyGivenNames -underBinder src0 s2
    have h_s2 : Keeps kb s2 := by
      unfold s2
      refine Keeps.upd ?_ rfl rfl
      assumption
    try clear_value s2
    extract_lets +onlyGivenNames -underBinder s3
    have h_s3 : Keeps kb s3 := by
      unfold s3
      refine Keeps.foldl (fun t x ht => ?_) ?_
      · try simp -zeta only []
        extract_lets +onlyGivenNames -underBinder x
        try clear_value x
        refine Keeps.ite ?_ ?_
        · with_reducible apply State.setQueue_keeps
          assumption
        · assumption
      · with_reducible apply State.idle_keeps
        assumption
    try clear_value s3
    extract_lets +onlyGivenNames -underBinder s4
    have h_s4 : Keeps kb s4 := by
      unfold s4
      with_reducible apply State.setPll_keeps
      assumption
    try clear_value s4
    extract_lets +onlyGivenNames -underBinder s5
    have h_s5 : Keeps kb s5 := by
      unfold s5
      refine Keeps.ite ?_ ?_
      · with_reducible apply State.dacReleaseAll_keeps
        assumption
      · assumption
    try clear_value s5
    refine Keeps.next ?_
    refine Keeps.ite ?_ ?_
    · with_reducible apply State.requestRun_keeps
      assumption
    · assumption

theorem execMediaCounterStart_keeps {kb : State} (t : BitVec 64) (s : State) (h : Keeps kb s) :
    KeepsOut kb (execMediaCounterStart t s) := by
  unfold execMediaCounterStart
  refine Keeps.iteO ?_ ?_
  · refine Keeps.next ?_
    assumption
  · extract_lets +onlyGivenNames -underBinder unit
    try clear_value unit
    extract_lets +onlyGivenNames -underBinder raw
    try clear_value raw
    extract_lets +onlyGivenNames -underBinder mt
    try clear_value mt
    extract_lets +onlyGivenNames -underBinder p
    try clear_value p
    extract_lets +onlyGivenNames -underBinder src0 s1
    have h_s1 : Keeps kb s1 := by
      unfold s1
      refine Keeps.upd ?_ rfl rfl
      assumption
    try clear_value s1
    extract_lets +onlyGivenNames -underBinder src0 src1 src2 src3 s2
    have h_s2 : Keeps kb s2 := by
      unfold s2
      refine Keeps.upd ?_ rfl rfl
      assumption
    try clear_value s2
    extract_lets +onlyGivenNames -underBinder s3
    have h_s3 : Keeps kb s3 := by
      unfold s3
      with_reducible apply State.setBit_keeps
      assumption
    try clear_value s3
    refine Keeps.next ?_
    refine Keeps.ite ?_ ?_
    · with_reducible apply State.setBit_keeps
      assumption
    · assumption

theorem State.latch_keeps {kb : State} (s : State) (h : Keeps kb s) (kind : Nat) (path : Path) (v : Word) :
    Keeps kb (State.latch s kind path v) := by
  unfold State.latch
  refine Keeps.upd ?_ rfl rfl
  assumption

theorem State.readMt_keeps {kb : State} (s : State) (h : Keeps kb s) (path : Path) (frac : BitVec 8) :
    Keeps kb (State.readMt s path frac).1 := by
  unfold State.readMt
  extract_lets +onlyGivenNames -underBinder t
  try clear_value t
  with_reducible apply State.latch_keeps
  assumption

theorem execMtRead_keeps {kb : State} (path : Path) (frac : BitVec 8) (s : State) (h : Keeps kb s) :
    KeepsOut kb (execMtRead path frac s) := by
  unfold execMtRead
  extract_lets +onlyGivenNames -underBinder r
  have h_r : Keeps kb r.1 := by
    unfold r
    with_reducible apply State.readMt_keeps
    assumption
  try clear_value r
  refine Keeps.next ?_
  refine Keeps.ite ?_ ?_
  · assumption
  · with_reducible apply State.send_keeps
    assumption

end Sys2Proof.Machine
end

