-- ==== Sys2Proof/Laws/Keeps/PmuDump.lean ====
section
/-! SUPPORT. What the functions of Machine/PmuDump.lean keep (Laws/Keeps.lean). -/

namespace Sys2Proof.Machine

theorem State.skipDump_keeps {kb : State} (s : State) (h : Keeps kb s) (inj : Bool) :
    Keeps kb (State.skipDump s inj) := by
  unfold State.skipDump
  extract_lets +onlyGivenNames -underBinder t
  have h_t : Keeps kb t := by
    unfold t
    with_reducible apply State.logError_keeps
    with_reducible apply State.raise_keeps
    with_reducible apply State.pageErrFlag_keeps
    with_reducible apply State.count_keeps
    assumption
  try clear_value t
  refine Keeps.upd ?_ rfl rfl
  assumption

theorem execPmuDump_keeps {kb : State} (s : State) (h : Keeps kb s) :
    KeepsOut kb (execPmuDump s) := by
  unfold execPmuDump
  extract_lets +onlyGivenNames -underBinder p
  try clear_value p
  refine Keeps.iteO ?_ ?_
  · refine Keeps.next ?_
    assumption
  · extract_lets +onlyGivenNames -underBinder src0 s1
    have h_s1 : Keeps kb s1 := by
      unfold s1
      refine Keeps.upd ?_ rfl rfl
      assumption
    try clear_value s1
    extract_lets +onlyGivenNames -underBinder used
    try clear_value used
    extract_lets +onlyGivenNames -underBinder k
    have h_k : Keeps kb k.st := by
      unfold k
      with_reducible apply State.check_keeps
      assumption
    try clear_value k
    refine Keeps.iteO ?_ ?_
    · refine Keeps.next ?_
      with_reducible apply State.skipDump_keeps
      assumption
    · extract_lets +onlyGivenNames -underBinder x
      try clear_value x
      refine Keeps.next ?_
      with_reducible apply State.setBit_keeps
      refine Keeps.upd ?_ rfl rfl
      assumption

theorem execPmuDumpComplete_keeps {kb : State} (s : State) (h : Keeps kb s) :
    KeepsOut kb (execPmuDumpComplete s) := by
  unfold execPmuDumpComplete
  split
  · refine Keeps.next ?_
    assumption
  · extract_lets +onlyGivenNames -underBinder i
    try clear_value i
    extract_lets +onlyGivenNames -underBinder data
    try clear_value data
    extract_lets +onlyGivenNames -underBinder at_
    try clear_value at_
    extract_lets +onlyGivenNames -underBinder lo
    try clear_value lo
    extract_lets +onlyGivenNames -underBinder s1
    have h_s1 : Keeps kb s1 := by
      unfold s1
      refine Keeps.ite ?_ ?_
      · with_reducible apply State.devStore_keeps
        assumption
      · with_reducible apply State.putHost_keeps
        assumption
    try clear_value s1
    extract_lets +onlyGivenNames -underBinder src0 s2
    have h_s2 : Keeps kb s2 := by
      unfold s2
      refine Keeps.upd ?_ rfl rfl
      assumption
    try clear_value s2
    extract_lets +onlyGivenNames -underBinder s3
    have h_s3 : Keeps kb s3 := by
      unfold s3
      with_reducible apply State.count_keeps
      with_reducible apply State.setBit_keeps
      with_reducible apply State.setFld_keeps
      assumption
    try clear_value s3
    extract_lets +onlyGivenNames -underBinder s4
    have h_s4 : Keeps kb s4 := by
      unfold s4
      with_reducible apply State.raise_keeps
      with_reducible apply State.bump_keeps
      assumption
    try clear_value s4
    refine Keeps.next ?_
    refine Keeps.ite ?_ ?_
    · with_reducible apply State.idle_keeps
      assumption
    · assumption

theorem actPmuCtrl_keeps {kb : State} (s : State) (h : Keeps kb s) (r : RegRow) (old : Word) (v : Word) :
    Keeps kb (actPmuCtrl s r old v) := by
  unfold actPmuCtrl
  extract_lets +onlyGivenNames -underBinder s1
  have h_s1 : Keeps kb s1 := by
    unfold s1
    with_reducible apply State.setReg_keeps
    assumption
  try clear_value s1
  refine Keeps.ite ?_ ?_
  · refine Keeps.upd ?_ rfl rfl
    assumption
  · assumption

theorem actPmuRing_keeps {kb : State} (off : Nat) (s : State) (h : Keeps kb s) (r : RegRow) (old : Word) (v : Word) :
    Keeps kb (actPmuRing off s r old v) := by
  unfold actPmuRing
  refine Keeps.ite ?_ ?_
  · with_reducible apply State.pageErr_keeps
    with_reducible apply State.setBit_keeps
    assumption
  · with_reducible apply State.setReg_keeps
    assumption

theorem execPmuRingConfigWrite_keeps {kb : State} (path : Path) (i : Fin 3) (v : Word) (s : State) (h : Keeps kb s) :
    KeepsOut kb (execPmuRingConfigWrite path i v s) := by
  unfold execPmuRingConfigWrite
  refine Keeps.next ?_
  with_reducible apply State.hostWrite_keeps
  · assumption
  · intro z0 z1 z2 z3 hz
    try simp -zeta only []
    with_reducible apply actPmuRing_keeps
    assumption

theorem State.readPmu_keeps {kb : State} (s : State) (h : Keeps kb s) (path : Path) :
    Keeps kb (State.readPmu s path).1 := by
  unfold State.readPmu
  extract_lets +onlyGivenNames -underBinder c
  try clear_value c
  with_reducible apply State.latch_keeps
  assumption

theorem execPmuCounterRead_keeps {kb : State} (path : Path) (s : State) (h : Keeps kb s) :
    KeepsOut kb (execPmuCounterRead path s) := by
  unfold execPmuCounterRead
  extract_lets +onlyGivenNames -underBinder r
  have h_r : Keeps kb r.1 := by
    unfold r
    with_reducible apply State.readPmu_keeps
    assumption
  try clear_value r
  refine Keeps.next ?_
  refine Keeps.ite ?_ ?_
  · assumption
  · with_reducible apply State.send_keeps
    assumption

end Sys2Proof.Machine
end

