-- ==== Sys2Proof/Laws/Keeps/Ingress.lean ====
section
/-! SUPPORT. What the functions of Machine/Ingress.lean keep (Laws/Keeps.lean). -/

namespace Sys2Proof.Machine

theorem State.arrive_keeps {kb : State} (s : State) (h : Keeps kb s) :
    Keeps kb (State.arrive s).2 := by
  unfold State.arrive
  refine Keeps.upd ?_ rfl rfl
  assumption

theorem State.ringLow_keeps {kb : State} (s : State) (h : Keeps kb s) (n : Nat) (before : Nat) :
    Keeps kb (State.ringLow s n before) := by
  unfold State.ringLow
  extract_lets +onlyGivenNames -underBinder thr
  try clear_value thr
  refine Keeps.ite ?_ ?_
  · with_reducible apply State.raise_keeps
    assumption
  · assumption

theorem actRingPi_keeps {kb : State} (n : Nat) (s : State) (h : Keeps kb s) (x : RegRow) (x3 : Word) (v : Word) :
    Keeps kb (actRingPi n s x x3 v) := by
  unfold actRingPi
  extract_lets +onlyGivenNames -underBinder pi
  try clear_value pi
  extract_lets +onlyGivenNames -underBinder ci
  try clear_value ci
  extract_lets +onlyGivenNames -underBinder before
  try clear_value before
  refine Keeps.ite ?_ ?_
  · with_reducible apply State.raise_keeps
    with_reducible apply State.pageErr_keeps
    with_reducible apply State.setReg_keeps
    with_reducible apply State.setBit_keeps
    assumption
  · extract_lets +onlyGivenNames -underBinder a
    have h_a : Keeps kb a.2 := by
      unfold a
      with_reducible apply State.arrive_keeps
      assumption
    try clear_value a
    extract_lets +onlyGivenNames -underBinder s1
    have h_s1 : Keeps kb s1 := by
      unfold s1
      with_reducible apply State.setReg_keeps
      assumption
    try clear_value s1
    extract_lets +onlyGivenNames -underBinder d
    try clear_value d
    with_reducible apply State.ringLow_keeps
    refine Keeps.upd ?_ rfl rfl
    assumption

theorem State.takeEntry_keeps {kb : State} (s : State) (h : Keeps kb s) (y1 : Nat) (f : EntryFields) (a : Arrival) :
    KeepsTaken kb (State.takeEntry s y1 f a) := by
  unfold State.takeEntry
  split
  · refine Keeps.taken ?_
    with_reducible apply State.dropEvent_keeps
    assumption
  · split
    · refine Keeps.taken ?_
      with_reducible apply State.rejectMsg_keeps
      assumption
    · split
      · extract_lets +onlyGivenNames -underBinder r
        try clear_value r
        split
        · trivial
        · refine Keeps.taken ?_
          refine Keeps.upd ?_ rfl rfl
          assumption
      · with_reducible apply State.intake_keeps
        assumption

theorem execRingDoorbell_keeps {kb : State} (path : Path) (n : Fin 8) (v : Word) (s : State) (h : Keeps kb s) :
    KeepsOut kb (execRingDoorbell path n v s) := by
  unfold execRingDoorbell
  refine Keeps.next ?_
  with_reducible apply State.hostWrite_keeps
  · assumption
  · intro z0 z1 z2 z3 hz
    try simp -zeta only []
    with_reducible apply actRingPi_keeps
    assumption

theorem execRingEntryRead_keeps {kb : State} (n : Fin 8) (data : List Byte) (s : State) (h : Keeps kb s) :
    KeepsOut kb (execRingEntryRead n data s) := by
  unfold execRingEntryRead
  extract_lets +onlyGivenNames -underBinder cfg
  try clear_value cfg
  extract_lets +onlyGivenNames -underBinder ci
  try clear_value ci
  refine Keeps.iteO ?_ ?_
  · refine Keeps.next ?_
    assumption
  · extract_lets +onlyGivenNames -underBinder size
    try clear_value size
    extract_lets +onlyGivenNames -underBinder bytes
    try clear_value bytes
    extract_lets +onlyGivenNames -underBinder f
    try clear_value f
    extract_lets +onlyGivenNames -underBinder arrs
    try clear_value arrs
    extract_lets +onlyGivenNames -underBinder a
    try clear_value a
    split
    · refine Keeps.next ?_
      with_reducible apply State.setBit_keeps
      assumption
    · rename_i ht
      have h_t := Keeps.ofTaken (kb := kb) (by
          with_reducible apply State.takeEntry_keeps
          assumption) ht
      extract_lets +onlyGivenNames -underBinder expected
      try clear_value expected
      extract_lets +onlyGivenNames -underBinder t1
      have h_t1 : Keeps kb t1 := by
        unfold t1
        refine Keeps.ite ?_ ?_
        · with_reducible apply State.raise_keeps
          with_reducible apply State.setReg_keeps
          with_reducible apply State.bump_keeps
          assumption
        · assumption
      try clear_value t1
      extract_lets +onlyGivenNames -underBinder ci'
      try clear_value ci'
      extract_lets +onlyGivenNames -underBinder t2
      have h_t2 : Keeps kb t2 := by
        unfold t2
        with_reducible apply State.setReg_keeps
        with_reducible apply State.setBit_keeps
        with_reducible apply State.setFld_keeps
        assumption
      try clear_value t2
      extract_lets +onlyGivenNames -underBinder src0 t3
      have h_t3 : Keeps kb t3 := by
        unfold t3
        refine Keeps.upd ?_ rfl rfl
        assumption
      try clear_value t3
      refine Keeps.next ?_
      with_reducible apply State.count_keeps
      with_reducible apply State.ringLow_keeps
      assumption

theorem execSpiFifoForward_keeps {kb : State} (s : State) (h : Keeps kb s) :
    KeepsOut kb (execSpiFifoForward s) := by
  unfold execSpiFifoForward
  split
  · refine Keeps.next ?_
    assumption
  · refine Keeps.iteO ?_ ?_
    · refine Keeps.next ?_
      assumption
    · split
      · refine Keeps.next ?_
        assumption
      · rename_i ht
        have h_t := Keeps.ofTaken (kb := kb) (by
            with_reducible apply State.takeEntry_keeps
            assumption) ht
        refine Keeps.next ?_
        with_reducible apply State.setFld_keeps
        refine Keeps.upd ?_ rfl rfl
        assumption

theorem State.setWindow_keeps {kb : State} (s : State) (h : Keeps kb s) (y1 : Nat) (w : SessWin) :
    Keeps kb (State.setWindow s y1 w) := by
  unfold State.setWindow
  refine Keeps.upd ?_ rfl rfl
  assumption

theorem State.judgeReal_keeps {kb : State} (s : State) (h : Keeps kb s) (y1 : Nat) (seqno : Nat) (path : Nat) (port : Nat) :
    Keeps kb (State.judgeReal s y1 seqno path port).1 := by
  unfold State.judgeReal
  extract_lets +onlyGivenNames -underBinder w
  try clear_value w
  extract_lets +onlyGivenNames -underBinder dup
  have h_dup : Keeps kb dup.1 := by
    unfold dup
    with_reducible apply State.logError_keeps
    with_reducible apply State.raise_keeps
    with_reducible apply State.bump_keeps
    assumption
  try clear_value dup
  split
  · with_reducible apply State.setReg_keeps
    with_reducible apply State.setWindow_keeps
    assumption
  · extract_lets +onlyGivenNames -underBinder back
    try clear_value back
    extract_lets +onlyGivenNames -underBinder ahead
    try clear_value ahead
    refine Keeps.iteP (p := Prod.fst) ?_ ?_
    · split
      · with_reducible apply State.setWindow_keeps
        assumption
      · refine Keeps.iteP (p := Prod.fst) ?_ ?_
        · with_reducible apply State.count_keeps
          with_reducible apply State.bump_keeps
          assumption
        · assumption
    · refine Keeps.iteP (p := Prod.fst) ?_ ?_
      · extract_lets +onlyGivenNames -underBinder g
        try clear_value g
        extract_lets +onlyGivenNames -underBinder acc
        try clear_value acc
        extract_lets +onlyGivenNames -underBinder s1
        have h_s1 : Keeps kb s1 := by
          unfold s1
          with_reducible apply State.setReg_keeps
          with_reducible apply State.setWindow_keeps
          assumption
        try clear_value s1
        refine Keeps.ite ?_ ?_
        · assumption
        · with_reducible apply State.logError_keeps
          with_reducible apply State.raise_keeps
          with_reducible apply State.bumpBy_keeps
          assumption
      · assumption

theorem State.judgeCommand_keeps {kb : State} (s : State) (h : Keeps kb s) (y1 : Nat) (seqno : Nat) (path : Nat) (port : Nat) :
    Keeps kb (State.judgeCommand s y1 seqno path port).1 := by
  unfold State.judgeCommand
  extract_lets +onlyGivenNames -underBinder r
  have h_r : Keeps kb r.1 := by
    unfold r
    with_reducible apply State.judgeReal_keeps
    assumption
  try clear_value r
  extract_lets +onlyGivenNames -underBinder dup
  have h_dup : Keeps kb dup.st := by
    unfold dup
    with_reducible apply State.check_keeps
    assumption
  try clear_value dup
  refine Keeps.iteP (p := Prod.fst) ?_ ?_
  · with_reducible apply State.logError_keeps
    with_reducible apply State.raise_keeps
    with_reducible apply State.bump_keeps
    assumption
  · extract_lets +onlyGivenNames -underBinder gap
    have h_gap : Keeps kb gap.st := by
      unfold gap
      with_reducible apply State.check_keeps
      assumption
    try clear_value gap
    refine Keeps.iteP (p := Prod.fst) ?_ ?_
    · with_reducible apply State.logError_keeps
      with_reducible apply State.raise_keeps
      with_reducible apply State.bump_keeps
      assumption
    · assumption

theorem State.netMessage_keeps {kb : State} (s : State) (h : Keeps kb s) (y1 : Nat) (u : List Word) (arr : Nat) (seq : Nat) :
    Keeps kb (State.netMessage s y1 u arr seq) := by
  unfold State.netMessage
  split
  · rename_i ht
    have h_t := Keeps.ofTaken (kb := kb) (by
        with_reducible apply State.intake_keeps
        assumption) ht
    assumption
  · assumption

theorem State.takeCommand_keeps {kb : State} (s : State) (h : Keeps kb s) (n : Nat) (seqno : Nat) (umps : List (List Word)) :
    Keeps kb (State.takeCommand s n seqno umps) := by
  unfold State.takeCommand
  refine Keeps.ite ?_ ?_
  · with_reducible apply State.bump_keeps
    assumption
  · refine Keeps.ite ?_ ?_
    · with_reducible apply State.bump_keeps
      assumption
    · extract_lets +onlyGivenNames -underBinder src
      extract_lets +onlyGivenNames -underBinder a
      have h_a : Keeps kb a.2 := by
        unfold a
        with_reducible apply State.arrive_keeps
        with_reducible apply State.bump_keeps
        assumption
      try clear_value a
      extract_lets +onlyGivenNames -underBinder take
      have h_take : ∀ z0, Keeps kb z0 → Keeps kb (take z0) := by
        intro z0 hz
        unfold take
        try simp -zeta only []
        refine Keeps.foldl (fun t x ht => ?_) ?_
        · try simp -zeta only []
          with_reducible apply State.netMessage_keeps
          assumption
        · assumption
      try clear_value take
      refine Keeps.ite ?_ ?_
      · apply h_take
        assumption
      · extract_lets +onlyGivenNames -underBinder j
        have h_j : Keeps kb j.1 := by
          unfold j
          with_reducible apply State.judgeCommand_keeps
          assumption
        try clear_value j
        refine Keeps.ite ?_ ?_
        · apply h_take
          with_reducible apply State.count_keeps
          assumption
        · assumption

theorem execNmidCommand_keeps {kb : State} (sess : Fin 32) (seqno : Fin 65536) (umps : List (List Word)) (s : State) (h : Keeps kb s) :
    KeepsOut kb (execNmidCommand sess seqno umps s) := by
  unfold execNmidCommand
  refine Keeps.next ?_
  with_reducible apply State.takeCommand_keeps
  assumption

theorem execTimetableEntry_keeps {kb : State} (y0 : Fin 41) (ump : List Word) (stamp : Option (BitVec 64)) (cls : Option Cls) (notify : Bool) (tag : Word) (s : State) (h : Keeps kb s) :
    KeepsOut kb (execTimetableEntry y0 ump stamp cls notify tag s) := by
  unfold execTimetableEntry
  extract_lets +onlyGivenNames -underBinder a
  have h_a : Keeps kb a.2 := by
    unfold a
    with_reducible apply State.arrive_keeps
    assumption
  try clear_value a
  extract_lets +onlyGivenNames -underBinder net
  try clear_value net
  split
  · rename_i ht
    have h_t := Keeps.ofTaken (kb := kb) (by
        with_reducible apply State.intake_keeps
        assumption) ht
    refine Keeps.next ?_
    assumption
  · refine Keeps.next ?_
    assumption

theorem execFencePlace_keeps {kb : State} (s : State) (h : Keeps kb s) :
    KeepsOut kb (execFencePlace s) := by
  unfold execFencePlace
  refine Keeps.next ?_
  with_reducible apply State.placeFence_keeps
  assumption

theorem execFenceComplete_keeps {kb : State} (s : State) (h : Keeps kb s) :
    KeepsOut kb (execFenceComplete s) := by
  unfold execFenceComplete
  refine Keeps.next ?_
  with_reducible apply State.completeFence_keeps
  assumption

theorem execNotificationFlush_keeps {kb : State} (s : State) (h : Keeps kb s) :
    KeepsOut kb (execNotificationFlush s) := by
  unfold execNotificationFlush
  refine Keeps.next ?_
  with_reducible apply State.flushNtf_keeps
  assumption

end Sys2Proof.Machine
end

