-- ==== Sys2Proof/Laws/Keeps/CoreAssist.lean ====
section
/-! SUPPORT. What the functions of Machine/CoreAssist.lean keep (Laws/Keeps.lean). -/

namespace Sys2Proof.Machine

theorem State.fetchPoint_keeps {kb : State} (s : State) (h : Keeps kb s) (n : Nat) (r : Nat) (i : Int) (acc : Access) :
    Keeps kb (State.fetchPoint s n r i acc).1 := by
  unfold State.fetchPoint
  extract_lets +onlyGivenNames -underBinder read
  have h_read : ∀ z0, Keeps kb (read z0).1 := by
    intro z0
    unfold read
    try simp -zeta only []
    extract_lets +onlyGivenNames -underBinder x
    have h_x : Keeps kb x.1 := by
      unfold x
      with_reducible apply State.conReadWord_keeps
      assumption
    try clear_value x
    split
    · assumption
    · with_reducible apply State.coreEvent_keeps
      assumption
  try clear_value read
  refine Keeps.iteP (p := Prod.fst) ?_ ?_
  · split
    · assumption
    · apply h_read
  · extract_lets +onlyGivenNames -underBinder st
    try clear_value st
    extract_lets +onlyGivenNames -underBinder x
    try clear_value x
    refine Keeps.iteP (p := Prod.fst) ?_ ?_
    · assumption
    · split
      · with_reducible apply State.updCore_keeps
        assumption
      · apply h_read

theorem State.fetchPoints_keeps {kb : State} (s : State) (h : Keeps kb s) (n : Nat) (r : Nat) (acc : Access) (a : List Int) :
    Keeps kb (State.fetchPoints s n r acc a).1 := by
  induction a generalizing s n r acc with
  | nil =>
    rw [State.fetchPoints]
    assumption
  | cons b bs ih =>
    rw [State.fetchPoints]
    apply ih
    with_reducible apply State.fetchPoint_keeps
    assumption

theorem State.tfetch_keeps {kb : State} (s : State) (h : Keeps kb s) (n : Nat) (cubic : Bool) (r : Nat) (a : Word) (acc : Access) :
    Keeps kb (State.tfetch s n cubic r a acc).1 := by
  unfold State.tfetch
  extract_lets +onlyGivenNames -underBinder s0
  have h_s0 : Keeps kb s0 := by
    unfold s0
    with_reducible apply State.stall_keeps
    with_reducible apply State.updCore_keeps
    assumption
  try clear_value s0
  split
  · extract_lets +onlyGivenNames -underBinder t
    have h_t : Keeps kb t := by
      unfold t
      refine Keeps.ite ?_ ?_
      · with_reducible apply State.bump_keeps
        assumption
      · assumption
    try clear_value t
    refine Keeps.iteP (p := Prod.fst) ?_ ?_
    · assumption
    · extract_lets +onlyGivenNames -underBinder k
      try clear_value k
      extract_lets +onlyGivenNames -underBinder f
      try clear_value f
      assumption
  · extract_lets +onlyGivenNames -underBinder i
    try clear_value i
    extract_lets +onlyGivenNames -underBinder f
    try clear_value f
    refine Keeps.iteP (p := Prod.fst) ?_ ?_
    · extract_lets +onlyGivenNames -underBinder p
      have h_p : Keeps kb p.1 := by
        unfold p
        with_reducible apply State.fetchPoints_keeps
        assumption
      try clear_value p
      assumption
    · extract_lets +onlyGivenNames -underBinder p
      have h_p : Keeps kb p.1 := by
        unfold p
        with_reducible apply State.fetchPoints_keeps
        assumption
      try clear_value p
      assumption

theorem State.tread_keeps {kb : State} (s : State) (h : Keeps kb s) (n : Nat) (r : Nat) (a : Word) (acc : Access) :
    Keeps kb (State.tread s n r a acc).1 := by
  unfold State.tread
  extract_lets +onlyGivenNames -underBinder s0
  have h_s0 : Keeps kb s0 := by
    unfold s0
    with_reducible apply State.stall_keeps
    with_reducible apply State.updCore_keeps
    assumption
  try clear_value s0
  split
  · refine Keeps.ite ?_ ?_
    · with_reducible apply State.bump_keeps
      assumption
    · assumption
  · with_reducible apply State.fetchPoint_keeps
    assumption

theorem State.pramp_keeps {kb : State} (s : State) (h : Keeps kb s) (n : Nat) (k : Nat) :
    Keeps kb (State.pramp s n k).1 := by
  unfold State.pramp
  extract_lets +onlyGivenNames -underBinder b
  try clear_value b
  extract_lets +onlyGivenNames -underBinder v
  try clear_value v
  extract_lets +onlyGivenNames -underBinder st
  try clear_value st
  extract_lets +onlyGivenNames -underBinder j
  try clear_value j
  extract_lets +onlyGivenNames -underBinder w
  try clear_value w
  extract_lets +onlyGivenNames -underBinder s1
  have h_s1 : Keeps kb s1 := by
    unfold s1
    with_reducible apply State.updCore_keeps
    assumption
  try clear_value s1
  refine Keeps.ite ?_ ?_
  · with_reducible apply State.satRead_keeps
    assumption
  · assumption

end Sys2Proof.Machine
end

