-- ==== Sys2Proof/Laws/Keeps/CoreExec.lean ====
section
/-! SUPPORT. What the functions of Machine/CoreExec.lean keep (Laws/Keeps.lean). -/

namespace Sys2Proof.Machine

theorem State.readCr_keeps {kb : State} (s : State) (h : Keeps kb s) (n : Nat) (c : Core) (k : Nat) :
    Keeps kb (State.readCr s n c k).2 := by
  unfold State.readCr
  extract_lets +onlyGivenNames -underBinder pcnt
  try clear_value pcnt
  refine Keeps.iteP (p := Prod.snd) ?_ ?_
  · assumption
  · refine Keeps.iteP (p := Prod.snd) ?_ ?_
    · with_reducible apply State.updCore_keeps
      assumption
    · refine Keeps.iteP (p := Prod.snd) ?_ ?_
      · assumption
      · refine Keeps.iteP (p := Prod.snd) ?_ ?_
        · with_reducible apply State.updCore_keeps
          assumption
        · refine Keeps.iteP (p := Prod.snd) ?_ ?_
          · assumption
          · refine Keeps.iteP (p := Prod.snd) ?_ ?_
            · assumption
            · refine Keeps.iteP (p := Prod.snd) ?_ ?_
              · assumption
              · refine Keeps.iteP (p := Prod.snd) ?_ ?_
                · assumption
                · refine Keeps.iteP (p := Prod.snd) ?_ ?_
                  · assumption
                  · assumption

theorem State.gLater_keeps {kb : State} (s : State) (h : Keeps kb s) (n : Nat) (c : Core) (lat : Nat) (k : Nat) (v : Word) :
    Keeps kb (State.gLater s n c lat k v) := by
  unfold State.gLater
  with_reducible apply State.later_keeps
  assumption

theorem State.aluWrite_keeps {kb : State} (s : State) (h : Keeps kb s) (n : Nat) (c : Core) (d : Nat) (r : Word × Bool) :
    Keeps kb (State.aluWrite s n c d r) := by
  unfold State.aluWrite
  with_reducible apply State.gLater_keeps
  refine Keeps.ite ?_ ?_
  · with_reducible apply State.satRead_keeps
    assumption
  · assumption

theorem State.cData_keeps {kb : State} (s : State) (h : Keeps kb s) (n : Nat) (c : Core) (o : COp) (acc : Access) :
    Keeps kb (State.cData s n c o acc) := by
  unfold State.cData
  extract_lets +onlyGivenNames -underBinder g
  try clear_value g
  extract_lets +onlyGivenNames -underBinder f
  have h_f : ∀ z0 z1, Keeps kb (f z0 z1) := by
    intro z0 z1
    unfold f
    try simp -zeta only []
    with_reducible apply State.later_keeps
    assumption
  try clear_value f
  split
  · with_reducible apply State.later_keeps
    assumption
  · with_reducible apply State.gLater_keeps
    assumption
  · with_reducible apply State.gLater_keeps
    assumption
  · with_reducible apply State.aluWrite_keeps
    assumption
  · with_reducible apply State.aluWrite_keeps
    assumption
  · with_reducible apply State.later_keeps
    assumption
  · with_reducible apply State.gLater_keeps
    assumption
  · with_reducible apply State.later_keeps
    assumption
  · extract_lets +onlyGivenNames -underBinder a
    try clear_value a
    with_reducible apply State.gLater_keeps
    assumption
  · extract_lets +onlyGivenNames -underBinder r
    try clear_value r
    with_reducible apply State.gLater_keeps
    with_reducible apply State.countRead_keeps
    assumption
  · apply h_f
  · apply h_f
  · apply h_f
  · apply h_f
  · apply h_f
  · with_reducible apply State.gLater_keeps
    assumption
  · refine Keeps.foldl (fun t x ht => ?_) ?_
    · try simp -zeta only []
      with_reducible apply State.later_keeps
      assumption
    · assumption
  · extract_lets +onlyGivenNames -underBinder r
    try clear_value r
    with_reducible apply State.gLater_keeps
    with_reducible apply State.updCore_keeps
    assumption
  · with_reducible apply State.updCore_keeps
    assumption
  · with_reducible apply State.updCore_keeps
    assumption
  · extract_lets +onlyGivenNames -underBinder v
    try clear_value v
    with_reducible apply State.gLater_keeps
    with_reducible apply State.gLater_keeps
    assumption
  · with_reducible apply State.aluWrite_keeps
    assumption
  · apply h_f
  · with_reducible apply State.gLater_keeps
    assumption
  · with_reducible apply State.gLater_keeps
    assumption
  · with_reducible apply State.gLater_keeps
    assumption
  · extract_lets +onlyGivenNames -underBinder r
    have h_r : Keeps kb r.2 := by
      unfold r
      with_reducible apply State.readCr_keeps
      assumption
    try clear_value r
    with_reducible apply State.gLater_keeps
    assumption
  · with_reducible apply State.later_keeps
    assumption
  · with_reducible apply State.gLater_keeps
    assumption
  · extract_lets +onlyGivenNames -underBinder v
    try clear_value v
    extract_lets +onlyGivenNames -underBinder w
    try clear_value w
    extract_lets +onlyGivenNames -underBinder s1
    have h_s1 : Keeps kb s1 := by
      unfold s1
      with_reducible apply State.gLater_keeps
      with_reducible apply State.updCore_keeps
      assumption
    try clear_value s1
    split
    · with_reducible apply State.later_keeps
      assumption
    · assumption
  · extract_lets +onlyGivenNames -underBinder r
    have h_r : Keeps kb r.1 := by
      unfold r
      with_reducible apply State.pramp_keeps
      assumption
    try clear_value r
    with_reducible apply State.gLater_keeps
    assumption
  · extract_lets +onlyGivenNames -underBinder x
    have h_x : Keeps kb x.1 := by
      unfold x
      with_reducible apply State.tfetch_keeps
      assumption
    try clear_value x
    refine Keeps.foldl (fun t x ht => ?_) ?_
    · try simp -zeta only []
      with_reducible apply State.gLater_keeps
      assumption
    · assumption
  · extract_lets +onlyGivenNames -underBinder x
    have h_x : Keeps kb x.1 := by
      unfold x
      with_reducible apply State.tread_keeps
      assumption
    try clear_value x
    with_reducible apply State.gLater_keeps
    assumption
  · with_reducible apply State.gLater_keeps
    assumption
  · assumption
  · assumption
  · assumption
  · assumption
  · assumption
  · assumption
  · assumption
  · assumption
  · assumption
  · assumption

theorem State.meetBreak_keeps {kb : State} (s : State) (h : Keeps kb s) (n : Nat) (pc : Nat) :
    Keeps kb (State.meetBreak s n pc) := by
  unfold State.meetBreak
  split
  · with_reducible apply State.setReg_keeps
    with_reducible apply State.coreEvent_keeps
    assumption
  · assumption

theorem State.goto_keeps {kb : State} (s : State) (h : Keeps kb s) (n : Nat) (pc : Nat) :
    Keeps kb (State.goto s n pc) := by
  unfold State.goto
  with_reducible apply State.meetBreak_keeps
  with_reducible apply State.updCore_keeps
  assumption

theorem State.advance_keeps {kb : State} (s : State) (h : Keeps kb s) (n : Nat) (old : Core) (written : List Nat) :
    Keeps kb (State.advance s n old written) := by
  unfold State.advance
  extract_lets +onlyGivenNames -underBinder s1
  have h_s1 : Keeps kb s1 := by
    unfold s1
    with_reducible apply State.updCore_keeps
    assumption
  try clear_value s1
  split
  · with_reducible apply State.goto_keeps
    with_reducible apply State.updCore_keeps
    assumption
  · extract_lets +onlyGivenNames -underBinder r
    try clear_value r
    with_reducible apply State.goto_keeps
    with_reducible apply State.setCore_keeps
    assumption
  · with_reducible apply State.goto_keeps
    with_reducible apply State.updCore_keeps
    with_reducible apply State.updCore_keeps
    assumption
  · extract_lets +onlyGivenNames -underBinder r
    try clear_value r
    with_reducible apply State.goto_keeps
    with_reducible apply State.setCore_keeps
    assumption
  · extract_lets +onlyGivenNames -underBinder r
    try clear_value r
    with_reducible apply State.goto_keeps
    with_reducible apply State.setCore_keeps
    assumption

theorem State.yieldTask_keeps {kb : State} (s : State) (h : Keeps kb s) (n : Nat) (ended : Bool) (err : Bool) :
    Keeps kb (State.yieldTask s n ended err) := by
  unfold State.yieldTask
  split
  · assumption
  · extract_lets +onlyGivenNames -underBinder excess
    try clear_value excess
    extract_lets +onlyGivenNames -underBinder s0
    have h_s0 : Keeps kb s0 := by
      unfold s0
      refine Keeps.ite ?_ ?_
      · with_reducible apply State.abortTask_keeps
        assumption
      · assumption
    try clear_value s0
    extract_lets +onlyGivenNames -underBinder c
    try clear_value c
    refine Keeps.ite ?_ ?_
    · with_reducible apply State.coreFault_keeps
      assumption
    · extract_lets +onlyGivenNames -underBinder quiet
      try clear_value quiet
      extract_lets +onlyGivenNames -underBinder s1
      have h_s1 : Keeps kb s1 := by
        unfold s1
        with_reducible apply State.updCore_keeps
        assumption
      try clear_value s1
      extract_lets +onlyGivenNames -underBinder s2
      have h_s2 : Keeps kb s2 := by
        unfold s2
        refine Keeps.ite ?_ ?_
        · with_reducible apply State.updCore_keeps
          with_reducible apply State.updTask_keeps
          assumption
        · with_reducible apply State.updCore_keeps
          with_reducible apply State.updTask_keeps
          with_reducible apply State.spend_keeps
          assumption
      try clear_value s2
      refine Keeps.ite ?_ ?_
      · with_reducible apply State.coreLeaves_keeps
        assumption
      · assumption

theorem State.takeStart_keeps {kb : State} (s : State) (h : Keeps kb s) (n : Nat) (d : Nat) :
    Keeps kb (State.takeStart s n d) := by
  unfold State.takeStart
  refine Keeps.ite ?_ ?_
  · with_reducible apply State.coreFault_keeps
    assumption
  · extract_lets +onlyGivenNames -underBinder miss
    try clear_value miss
    extract_lets +onlyGivenNames -underBinder s1
    have h_s1 : Keeps kb s1 := by
      unfold s1
      with_reducible apply State.updCore_keeps
      assumption
    try clear_value s1
    refine Keeps.ite ?_ ?_
    · with_reducible apply State.corePmu_keeps
      with_reducible apply State.bump_keeps
      assumption
    · assumption

theorem State.follow_keeps {kb : State} (s : State) (h : Keeps kb s) (n : Nat) (old : Core) (written : List Nat) (fl : Flow) :
    Keeps kb (State.follow s n old written fl) := by
  unfold State.follow
  split
  · with_reducible apply State.advance_keeps
    assumption
  · extract_lets +onlyGivenNames -underBinder s1
    have h_s1 : Keeps kb s1 := by
      unfold s1
      with_reducible apply State.updCore_keeps
      assumption
    try clear_value s1
    refine Keeps.ite ?_ ?_
    · with_reducible apply State.goto_keeps
      with_reducible apply State.updCore_keeps
      with_reducible apply State.holdTicks_keeps
      assumption
    · with_reducible apply State.advance_keeps
      assumption
  · with_reducible apply State.goto_keeps
    with_reducible apply State.updCore_keeps
    assumption
  · with_reducible apply State.goto_keeps
    with_reducible apply State.updCore_keeps
    assumption
  · with_reducible apply State.takeStart_keeps
    assumption
  · extract_lets +onlyGivenNames -underBinder flags
    try clear_value flags
    refine Keeps.ite ?_ ?_
    · extract_lets +onlyGivenNames -underBinder s1
      have h_s1 : Keeps kb s1 := by
        unfold s1
        with_reducible apply State.yieldTask_keeps
        with_reducible apply State.updCore_keeps
        assumption
      try clear_value s1
      refine Keeps.ite ?_ ?_
      · with_reducible apply State.goto_keeps
        with_reducible apply State.coreTicks_keeps
        assumption
      · assumption
    · refine Keeps.ite ?_ ?_
      · extract_lets +onlyGivenNames -underBinder s1
        have h_s1 : Keeps kb s1 := by
          unfold s1
          with_reducible apply State.yieldTask_keeps
          with_reducible apply State.updCore_keeps
          assumption
        try clear_value s1
        refine Keeps.ite ?_ ?_
        · with_reducible apply State.advance_keeps
          assumption
        · assumption
      · with_reducible apply State.advance_keeps
        assumption
  · with_reducible apply State.goto_keeps
    with_reducible apply State.coreTicks_keeps
    with_reducible apply State.updCore_keeps
    assumption
  · extract_lets +onlyGivenNames -underBinder pmode
    try clear_value pmode
    extract_lets +onlyGivenNames -underBinder s1
    have h_s1 : Keeps kb s1 := by
      unfold s1
      with_reducible apply State.updCore_keeps
      assumption
    try clear_value s1
    with_reducible apply State.updCore_keeps
    with_reducible apply State.coreTicks_keeps
    assumption

theorem State.slotTick_keeps {kb : State} (s : State) (h : Keeps kb s) (n : Nat) (performed : Bool) :
    Keeps kb (State.slotTick s n performed) := by
  unfold State.slotTick
  with_reducible apply State.coreTick_keeps
  with_reducible apply State.updCore_keeps
  assumption

theorem State.once_keeps {kb : State} (s : State) (h : Keeps kb s) (n : Nat) (b : Bundle) (m : Bool) (x : Bool) (y : Bool) (ax : Access) (ay : Access) (i : Nat) :
    Keeps kb (State.once s n b m x y ax ay i) := by
  unfold State.once
  extract_lets +onlyGivenNames -underBinder c
  try clear_value c
  extract_lets +onlyGivenNames -underBinder s1
  have h_s1 : Keeps kb s1 := by
    unfold s1
    refine Keeps.ite ?_ ?_
    · with_reducible apply State.mOp_keeps
      assumption
    · assumption
  try clear_value s1
  extract_lets +onlyGivenNames -underBinder s2
  have h_s2 : Keeps kb s2 := by
    unfold s2
    split
    · refine Keeps.ite ?_ ?_
      · with_reducible apply State.memOp_keeps
        assumption
      · assumption
    · assumption
  try clear_value s2
  split
  · refine Keeps.ite ?_ ?_
    · with_reducible apply State.memOp_keeps
      assumption
    · assumption
  · assumption

theorem State.repeats_keeps {kb : State} (s : State) (h : Keeps kb s) (n : Nat) (b : Bundle) (m : Bool) (x : Bool) (y : Bool) (i : Nat) (a : Nat) :
    Keeps kb (State.repeats s n b m x y i a) := by
  induction a generalizing s n b m x y i with
  | zero =>
    rw [State.repeats]
    assumption
  | succ k ih =>
    rw [State.repeats]
    apply ih
    with_reducible apply State.slotTick_keeps
    with_reducible apply State.once_keeps
    assumption

theorem State.blank_keeps {kb : State} (s : State) (h : Keeps kb s) (n : Nat) :
    Keeps kb (State.blank s n) := by
  unfold State.blank
  extract_lets +onlyGivenNames -underBinder c
  try clear_value c
  with_reducible apply State.advance_keeps
  with_reducible apply State.slotTick_keeps
  assumption

theorem State.issue_keeps {kb : State} (s : State) (h : Keeps kb s) (n : Nat) (b : Bundle) (ax : Access) (ay : Access) :
    Keeps kb (State.issue s n b ax ay) := by
  unfold State.issue
  refine Keeps.ite ?_ ?_
  · assumption
  · extract_lets +onlyGivenNames -underBinder lg
    have h_lg : Keeps kb lg.st := by
      unfold lg
      with_reducible apply State.detect_keeps
      assumption
    try clear_value lg
    refine Keeps.ite ?_ ?_
    · with_reducible apply State.coreFault_keeps
      with_reducible apply State.pageErr_keeps
      assumption
    · extract_lets +onlyGivenNames -underBinder s0
      have h_s0 : Keeps kb s0 := by
        unfold s0
        with_reducible apply State.coreMemCheck_keeps
        assumption
      try clear_value s0
      extract_lets +onlyGivenNames -underBinder c
      try clear_value c
      refine Keeps.ite ?_ ?_
      · with_reducible apply State.blank_keeps
        with_reducible apply State.viol_keeps
        assumption
      · refine Keeps.ite ?_ ?_
        · with_reducible apply State.blank_keeps
          with_reducible apply State.ill_keeps
          assumption
        · extract_lets +onlyGivenNames -underBinder m
          try clear_value m
          extract_lets +onlyGivenNames -underBinder x
          try clear_value x
          extract_lets +onlyGivenNames -underBinder y
          try clear_value y
          extract_lets +onlyGivenNames -underBinder on
          try clear_value on
          extract_lets +onlyGivenNames -underBinder refused
          try clear_value refused
          extract_lets +onlyGivenNames -underBinder cOn
          try clear_value cOn
          extract_lets +onlyGivenNames -underBinder s1
          have h_s1 : Keeps kb s1 := by
            unfold s1
            with_reducible apply State.once_keeps
            assumption
          try clear_value s1
          extract_lets +onlyGivenNames -underBinder s2
          have h_s2 : Keeps kb s2 := by
            unfold s2
            refine Keeps.ite ?_ ?_
            · with_reducible apply State.cData_keeps
              assumption
            · assumption
          try clear_value s2
          extract_lets +onlyGivenNames -underBinder s3
          have h_s3 : Keeps kb s3 := by
            unfold s3
            refine Keeps.ite ?_ ?_
            · with_reducible apply State.ill_keeps
              assumption
            · assumption
          try clear_value s3
          extract_lets +onlyGivenNames -underBinder s4
          have h_s4 : Keeps kb s4 := by
            unfold s4
            with_reducible apply State.slotTick_keeps
            assumption
          try clear_value s4
          extract_lets +onlyGivenNames -underBinder s5
          have h_s5 : Keeps kb s5 := by
            unfold s5
            with_reducible apply State.repeats_keeps
            assumption
          try clear_value s5
          with_reducible apply State.follow_keeps
          assumption

theorem State.issueM_keeps {kb : State} (s : State) (h : Keeps kb s) (n : Nat) (p : Pred) (k : MKind) (acn : Fin 4) (a : Fin 32) (b : Fin 32) (rest : Bundle) :
    Keeps kb (State.issueM s n p k acn a b rest) := by
  unfold State.issueM
  with_reducible apply State.issue_keeps
  assumption

theorem State.issueMem_keeps {kb : State} (s : State) (h : Keeps kb s) (n : Nat) (y : Bool) (p : Pred) (k : MemKind) (reg : Fin 32) (ptr : Fin 8) (am : Addressing) (rest : Bundle) (acc : Access) (other : Access) :
    Keeps kb (State.issueMem s n y p k reg ptr am rest acc other) := by
  unfold State.issueMem
  extract_lets +onlyGivenNames -underBinder o
  try clear_value o
  refine Keeps.ite ?_ ?_
  · with_reducible apply State.issue_keeps
    assumption
  · with_reducible apply State.issue_keeps
    assumption

theorem State.issueC_keeps {kb : State} (s : State) (h : Keeps kb s) (n : Nat) (p : Pred) (o : COp) (rest : Bundle) (acc : Access) :
    Keeps kb (State.issueC s n p o rest acc) := by
  unfold State.issueC
  with_reducible apply State.issue_keeps
  assumption

theorem State.takeEvent_keeps {kb : State} (s : State) (h : Keeps kb s) (n : Nat) (code : Nat) :
    Keeps kb (State.takeEvent s n code) := by
  unfold State.takeEvent
  extract_lets +onlyGivenNames -underBinder s1
  have h_s1 : Keeps kb s1 := by
    unfold s1
    with_reducible apply State.coreFlush_keeps
    assumption
  try clear_value s1
  extract_lets +onlyGivenNames -underBinder c
  try clear_value c
  extract_lets +onlyGivenNames -underBinder cause
  try clear_value cause
  extract_lets +onlyGivenNames -underBinder s2
  have h_s2 : Keeps kb s2 := by
    unfold s2
    with_reducible apply State.updCore_keeps
    assumption
  try clear_value s2
  extract_lets +onlyGivenNames -underBinder s3
  have h_s3 : Keeps kb s3 := by
    unfold s3
    with_reducible apply State.goto_keeps
    with_reducible apply State.count_keeps
    with_reducible apply State.bump_keeps
    assumption
  try clear_value s3
  refine Keeps.ite ?_ ?_
  · with_reducible apply State.raise_keeps
    assumption
  · assumption

end Sys2Proof.Machine
end

