-- ==== Sys2Proof/Laws/Keeps/ModMatrix.lean ====
section
/-! SUPPORT. What the functions of Machine/ModMatrix.lean keep (Laws/Keeps.lean). -/

namespace Sys2Proof.Machine

theorem State.clearModulation_keeps {kb : State} (s : State) (h : Keeps kb s) (x : Nat) :
    Keeps kb (State.clearModulation s x) := by
  unfold State.clearModulation
  refine Keeps.upd ?_ rfl rfl
  assumption

theorem State.moveModulation_keeps {kb : State} (s : State) (h : Keeps kb s) (a : Nat) (b : Nat) :
    Keeps kb (State.moveModulation s a b) := by
  unfold State.moveModulation
  extract_lets +onlyGivenNames -underBinder m
  try clear_value m
  extract_lets +onlyGivenNames -underBinder t
  try clear_value t
  extract_lets +onlyGivenNames -underBinder target
  try clear_value target
  extract_lets +onlyGivenNames -underBinder envs
  try clear_value envs
  extract_lets +onlyGivenNames -underBinder one
  try clear_value one
  extract_lets +onlyGivenNames -underBinder moved
  try clear_value moved
  with_reducible apply State.clearModulation_keeps
  refine Keeps.upd ?_ rfl rfl
  assumption

theorem Eval.keep_keeps {kb : State} (v : Eval) (s : State) (h : Keeps kb s) :
    Keeps kb (Eval.keep v s) := by
  unfold Eval.keep
  extract_lets +onlyGivenNames -underBinder envs
  try clear_value envs
  extract_lets +onlyGivenNames -underBinder segs
  try clear_value segs
  refine Keeps.updDraws ?_ rfl rfl
  assumption

theorem State.countTargets_keeps {kb : State} (s : State) (h : Keeps kb s) (k : Nat) :
    Keeps kb (State.countTargets s k) := by
  unfold State.countTargets
  refine Keeps.ite ?_ ?_
  · assumption
  · with_reducible apply State.count_keeps
    with_reducible apply State.bumpBy_keeps
    assumption

theorem State.evalSlot_keeps {kb : State} (s : State) (h : Keeps kb s) (x : Nat) (n : Nat) :
    Keeps kb (State.evalSlot s x n) := by
  unfold State.evalSlot
  extract_lets +onlyGivenNames -underBinder sl
  try clear_value sl
  extract_lets +onlyGivenNames -underBinder fresh
  try clear_value fresh
  extract_lets +onlyGivenNames -underBinder v0
  try clear_value v0
  extract_lets +onlyGivenNames -underBinder r0
  try clear_value r0
  extract_lets +onlyGivenNames -underBinder s0
  have h_s0 : Keeps kb s0 := by
    unfold s0
    refine Keeps.ite ?_ ?_
    · with_reducible apply State.countTargets_keeps
      with_reducible apply Eval.keep_keeps
      assumption
    · assumption
  try clear_value s0
  extract_lets +onlyGivenNames -underBinder prev
  try clear_value prev
  extract_lets +onlyGivenNames -underBinder v
  try clear_value v
  extract_lets +onlyGivenNames -underBinder r
  try clear_value r
  extract_lets +onlyGivenNames -underBinder s1
  have h_s1 : Keeps kb s1 := by
    unfold s1
    refine Keeps.ite ?_ ?_
    · assumption
    · with_reducible apply State.countTargets_keeps
      with_reducible apply Eval.keep_keeps
      assumption
  try clear_value s1
  extract_lets +onlyGivenNames -underBinder words
  try clear_value words
  extract_lets +onlyGivenNames -underBinder s2
  have h_s2 : Keeps kb s2 := by
    unfold s2
    with_reducible apply State.putFrames_keeps
    assumption
  try clear_value s2
  refine Keeps.upd ?_ rfl rfl
  assumption

theorem execModulationEval_keeps {kb : State} (cycles : Nat) (s : State) (h : Keeps kb s) :
    KeepsOut kb (execModulationEval cycles s) := by
  unfold execModulationEval
  extract_lets +onlyGivenNames -underBinder t
  try clear_value t
  refine Keeps.iteO ?_ ?_
  · refine Keeps.next ?_
    assumption
  · extract_lets +onlyGivenNames -underBinder xs
    try clear_value xs
    refine Keeps.iteO ?_ ?_
    · refine Keeps.next ?_
      assumption
    · extract_lets +onlyGivenNames -underBinder s1
      have h_s1 : Keeps kb s1 := by
        unfold s1
        refine Keeps.foldl (fun t x ht => ?_) ?_
        · try simp -zeta only []
          with_reducible apply State.evalSlot_keeps
          assumption
        · assumption
      try clear_value s1
      extract_lets +onlyGivenNames -underBinder s2
      have h_s2 : Keeps kb s2 := by
        unfold s2
        with_reducible apply State.count_keeps
        with_reducible apply State.count_keeps
        assumption
      try clear_value s2
      refine Keeps.next ?_
      with_reducible apply State.setFld_keeps
      assumption

end Sys2Proof.Machine
end

