-- ==== Sys2Proof/Laws/Keeps/Pool.lean ====
section
/-! SUPPORT. What the functions of Machine/Pool.lean keep (Laws/Keeps.lean). -/

namespace Sys2Proof.Machine

theorem State.withdrawTasks_keeps {kb : State} (s : State) (h : Keeps kb s) (x : Nat) (n : Nat) :
    Keeps kb (State.withdrawTasks s x n) := by
  unfold State.withdrawTasks
  refine Keeps.foldl (fun t x ht => ?_) ?_
  · try simp -zeta only []
    refine Keeps.ite ?_ ?_
    · with_reducible apply State.dropTask_keeps
      assumption
    · refine Keeps.ite ?_ ?_
      · with_reducible apply State.updTask_keeps
        with_reducible apply State.bumpEpoch_keeps
        assumption
      · assumption
  · assumption

theorem State.voiceEnd_keeps {kb : State} (s : State) (h : Keeps kb s) (x : Nat) (part : Nat) (note : Note) (last : Nat) (blocks : Nat) (reason : Nat) :
    Keeps kb (State.voiceEnd s x part note last blocks reason) := by
  unfold State.voiceEnd
  extract_lets +onlyGivenNames -underBinder s1
  have h_s1 : Keeps kb s1 := by
    unfold s1
    with_reducible apply State.count_keeps
    with_reducible apply State.raise_keeps
    assumption
  try clear_value s1
  refine Keeps.ite ?_ ?_
  · with_reducible apply State.postNtf_keeps
    assumption
  · assumption

theorem State.freeSlot_keeps {kb : State} (s : State) (h : Keeps kb s) (x : Nat) :
    Keeps kb (State.freeSlot s x) := by
  unfold State.freeSlot
  extract_lets +onlyGivenNames -underBinder s1
  have h_s1 : Keeps kb s1 := by
    unfold s1
    with_reducible apply State.freeStreams_keeps
    with_reducible apply State.updSlot_keeps
    assumption
  try clear_value s1
  split
  · refine Keeps.ite ?_ ?_
    · with_reducible apply State.setBit_keeps
      refine Keeps.upd ?_ rfl rfl
      assumption
    · assumption
  · assumption

theorem State.endVoice_keeps {kb : State} (s : State) (h : Keeps kb s) (x : Nat) (last : Nat) (reason : Nat) :
    Keeps kb (State.endVoice s x last reason) := by
  unfold State.endVoice
  extract_lets +onlyGivenNames -underBinder v
  try clear_value v
  with_reducible apply State.voiceEnd_keeps
  assumption

theorem State.leave_keeps {kb : State} (s : State) (h : Keeps kb s) (x : Nat) (last : Nat) (reason : Nat) :
    Keeps kb (State.leave s x last reason) := by
  unfold State.leave
  with_reducible apply State.freeSlot_keeps
  with_reducible apply State.endVoice_keeps
  assumption

theorem State.leaveCancelled_keeps {kb : State} (s : State) (h : Keeps kb s) (x : Nat) (part : Nat) (block : Nat) (note : Note) :
    Keeps kb (State.leaveCancelled s x part block note) := by
  unfold State.leaveCancelled
  with_reducible apply State.freeSlot_keeps
  with_reducible apply State.voiceEnd_keeps
  assumption

theorem State.cancelVoice_keeps {kb : State} (s : State) (h : Keeps kb s) (x : Nat) :
    Keeps kb (State.cancelVoice s x) := by
  unfold State.cancelVoice
  extract_lets +onlyGivenNames -underBinder v
  try clear_value v
  refine Keeps.ite ?_ ?_
  · assumption
  · extract_lets +onlyGivenNames -underBinder s1
    have h_s1 : Keeps kb s1 := by
      unfold s1
      with_reducible apply State.bump_keeps
      assumption
    try clear_value s1
    refine Keeps.ite ?_ ?_
    · with_reducible apply State.updSlot_keeps
      with_reducible apply State.withdrawTasks_keeps
      assumption
    · with_reducible apply State.leaveCancelled_keeps
      with_reducible apply State.withdrawTasks_keeps
      assumption

theorem State.cancelWaiting_keeps {kb : State} (s : State) (h : Keeps kb s) (x : Nat) :
    Keeps kb (State.cancelWaiting s x) := by
  unfold State.cancelWaiting
  split
  · refine Keeps.ite ?_ ?_
    · assumption
    · with_reducible apply State.updSlot_keeps
      with_reducible apply State.bump_keeps
      assumption
  · assumption

theorem State.fadeVoice_keeps {kb : State} (s : State) (h : Keeps kb s) (x : Nat) (n : Nat) (ex : Bool) (reason : Nat) :
    Keeps kb (State.fadeVoice s x n ex reason) := by
  unfold State.fadeVoice
  extract_lets +onlyGivenNames -underBinder from_
  try clear_value from_
  with_reducible apply State.updSlot_keeps
  assumption

theorem State.partReset_keeps {kb : State} (s : State) (h : Keeps kb s) (p : Nat) (n : Nat) (t : Nat) (ex : Bool) :
    Keeps kb (State.partReset s p n t ex) := by
  unfold State.partReset
  extract_lets +onlyGivenNames -underBinder src0 s1
  have h_s1 : Keeps kb s1 := by
    unfold s1
    refine Keeps.foldl (fun t x ht => ?_) ?_
    · try simp -zeta only []
      with_reducible apply State.cancelVoice_keeps
      assumption
    · refine Keeps.upd ?_ rfl rfl
      assumption
  try clear_value s1
  extract_lets +onlyGivenNames -underBinder s2
  have h_s2 : Keeps kb s2 := by
    unfold s2
    refine Keeps.foldl (fun t x ht => ?_) ?_
    · try simp -zeta only []
      with_reducible apply State.fadeVoice_keeps
      assumption
    · assumption
  try clear_value s2
  refine Keeps.foldl (fun t x ht => ?_) ?_
  · try simp -zeta only []
    with_reducible apply State.cancelWaiting_keeps
    assumption
  · assumption

theorem State.choke_keeps {kb : State} (s : State) (h : Keeps kb s) (p : Nat) (n : Nat) (t : Nat) (ex : Bool) :
    Keeps kb (State.choke s p n t ex) := by
  unfold State.choke
  extract_lets +onlyGivenNames -underBinder g
  try clear_value g
  refine Keeps.ite ?_ ?_
  · assumption
  · refine Keeps.foldl (fun t x ht => ?_) ?_
    · try simp -zeta only []
      extract_lets +onlyGivenNames -underBinder src0 u0
      have h_u0 : Keeps kb u0 := by
        unfold u0
        refine Keeps.upd ?_ rfl rfl
        assumption
      try clear_value u0
      extract_lets +onlyGivenNames -underBinder u1
      have h_u1 : Keeps kb u1 := by
        unfold u1
        refine Keeps.foldl (fun t x ht => ?_) ?_
        · try simp -zeta only []
          refine Keeps.ite ?_ ?_
          · assumption
          · with_reducible apply State.cancelVoice_keeps
            with_reducible apply State.bump_keeps
            assumption
        · assumption
      try clear_value u1
      extract_lets +onlyGivenNames -underBinder u2
      have h_u2 : Keeps kb u2 := by
        unfold u2
        refine Keeps.foldl (fun t x ht => ?_) ?_
        · try simp -zeta only []
          with_reducible apply State.fadeVoice_keeps
          with_reducible apply State.bump_keeps
          assumption
        · assumption
      try clear_value u2
      refine Keeps.foldl (fun t x ht => ?_) ?_
      · try simp -zeta only []
        with_reducible apply State.cancelWaiting_keeps
        with_reducible apply State.bump_keeps
        assumption
      · assumption
    · assumption

theorem State.refuseNote_keeps {kb : State} (s : State) (h : Keeps kb s) (p : Nat) (y2 : Nat) (reason : Nat) :
    Keeps kb (State.refuseNote s p y2 reason) := by
  unfold State.refuseNote
  with_reducible apply State.count_keeps
  with_reducible apply State.raise_keeps
  with_reducible apply State.setReg_keeps
  with_reducible apply State.bump_keeps
  assumption

theorem State.startNote_keeps {kb : State} (s : State) (h : Keeps kb s) (x : Nat) (p : Nat) (n : Nat) (t : Nat) (note : Note) (tmpl : Word) (seed : Word) :
    Keeps kb (State.startNote s x p n t note tmpl seed) := by
  unfold State.startNote
  extract_lets +onlyGivenNames -underBinder old
  try clear_value old
  extract_lets +onlyGivenNames -underBinder s1
  have h_s1 : Keeps kb s1 := by
    unfold s1
    with_reducible apply State.forgetOutput_keeps
    with_reducible apply State.clearModulation_keeps
    with_reducible apply State.prepareFrame_keeps
    assumption
  try clear_value s1
  extract_lets +onlyGivenNames -underBinder src0 v
  try clear_value v
  with_reducible apply State.allocStreams_keeps
  with_reducible apply State.setSlot_keeps
  assumption

theorem State.moveOutput_keeps {kb : State} (s : State) (h : Keeps kb s) (a : Nat) (b : Nat) :
    Keeps kb (State.moveOutput s a b) := by
  unfold State.moveOutput
  extract_lets +onlyGivenNames -underBinder s1
  have h_s1 : Keeps kb s1 := by
    unfold s1
    with_reducible apply State.forgetOutput_keeps
    assumption
  try clear_value s1
  refine Keeps.upd ?_ rfl rfl
  assumption

theorem State.steal_keeps {kb : State} (s : State) (h : Keeps kb s) (k : Nat) (p : Nat) (n : Nat) (t : Nat) (ex : Bool) (express : Bool) (note : Note) (tmpl : Word) (seed : Word) :
    Keeps kb (State.steal s k p n t ex express note tmpl seed) := by
  unfold State.steal
  extract_lets +onlyGivenNames -underBinder v
  try clear_value v
  extract_lets +onlyGivenNames -underBinder r
  try clear_value r
  extract_lets +onlyGivenNames -underBinder cls
  try clear_value cls
  extract_lets +onlyGivenNames -underBinder s0
  have h_s0 : Keeps kb s0 := by
    unfold s0
    with_reducible apply State.bump_keeps
    refine Keeps.ite ?_ ?_
    · with_reducible apply State.withdrawTasks_keeps
      assumption
    · assumption
  try clear_value s0
  split
  · extract_lets +onlyGivenNames -underBinder s1
    have h_s1 : Keeps kb s1 := by
      unfold s1
      with_reducible apply State.swapStreams_keeps
      with_reducible apply State.moveOutput_keeps
      with_reducible apply State.moveModulation_keeps
      with_reducible apply State.moveFrame_keeps
      assumption
    try clear_value s1
    extract_lets +onlyGivenNames -underBinder s2
    have h_s2 : Keeps kb s2 := by
      unfold s2
      with_reducible apply State.setSlot_keeps
      assumption
    try clear_value s2
    with_reducible apply State.count_keeps
    with_reducible apply State.raise_keeps
    with_reducible apply State.startNote_keeps
    assumption
  · extract_lets +onlyGivenNames -underBinder w
    try clear_value w
    extract_lets +onlyGivenNames -underBinder s1
    have h_s1 : Keeps kb s1 := by
      unfold s1
      with_reducible apply State.setSlot_keeps
      assumption
    try clear_value s1
    extract_lets +onlyGivenNames -underBinder src0 s2
    have h_s2 : Keeps kb s2 := by
      unfold s2
      refine Keeps.upd ?_ rfl rfl
      assumption
    try clear_value s2
    with_reducible apply State.count_keeps
    with_reducible apply State.raise_keeps
    with_reducible apply State.bump_keeps
    assumption

theorem State.noteOn_keeps {kb : State} (s : State) (h : Keeps kb s) (n : Nat) (ex : Bool) (r : Released) :
    Keeps kb (State.noteOn s n ex r) := by
  unfold State.noteOn
  extract_lets +onlyGivenNames -underBinder p why
  refine Keeps.ite (State.refuseNote_keeps _ h _ _ _) ?_
  extract_lets +onlyGivenNames -underBinder note tmpl seed t place
  have hp : ∀ x u, place = some (x, u) → Keeps kb u := by
    intro x u e
    unfold place at e
    split at e <;> simp only [Option.some.injEq, Prod.mk.injEq, reduceCtorEq] at e <;> obtain ⟨-, rfl⟩ := e
    · exact State.startNote_keeps _ (Keeps.upd h rfl rfl) _ _ _ _ _ _ _
    · exact State.steal_keeps _ h _ _ _ _ _ _ _ _ _
  clear_value place
  split
  · exact State.refuseNote_keeps _ h _ _ _
  · extract_lets +onlyGivenNames -underBinder s2
    have h2 : Keeps kb s2 := State.choke_keeps _ (State.count_keeps _ (State.bump_keeps _ (hp _ _ rfl) _) _ _) _ _ _ _
    clear_value s2
    exact Keeps.ite (Keeps.ite (State.cancelWaiting_keeps _ h2 _) (State.cancelVoice_keeps _ h2 _)) h2

theorem State.moveEvent_keeps {kb : State} (s : State) (h : Keeps kb s) (n : Nat) (r : Released) (split : Bool) (begun : Bool) :
    Keeps kb (State.moveEvent s n r split begun) := by
  unfold State.moveEvent
  extract_lets +onlyGivenNames -underBinder t
  try clear_value t
  extract_lets +onlyGivenNames -underBinder up
  try clear_value up
  extract_lets +onlyGivenNames -underBinder s1
  have h_s1 : Keeps kb s1 := by
    unfold s1
    with_reducible apply State.bump_keeps
    assumption
  try clear_value s1
  refine Keeps.upd ?_ rfl rfl
  assumption

theorem State.releaseVoice_keeps {kb : State} (s : State) (h : Keeps kb s) (x : Nat) (n : Nat) (t : Nat) (velocity : Nat) (attr : Word) :
    Keeps kb (State.releaseVoice s x n t velocity attr) := by
  unfold State.releaseVoice
  extract_lets +onlyGivenNames -underBinder note
  try clear_value note
  extract_lets +onlyGivenNames -underBinder w
  try clear_value w
  extract_lets +onlyGivenNames -underBinder s1
  have h_s1 : Keeps kb s1 := by
    unfold s1
    with_reducible apply State.writeVoice_keeps
    assumption
  try clear_value s1
  refine Keeps.ite ?_ ?_
  · with_reducible apply State.updSlot_keeps
    assumption
  · with_reducible apply State.releaseStreams_keeps
    with_reducible apply State.updSlot_keeps
    assumption

theorem State.holdOff_keeps {kb : State} (s : State) (h : Keeps kb s) (x : Nat) (velocity : Nat) (attr : Word) :
    Keeps kb (State.holdOff s x velocity attr) := by
  unfold State.holdOff
  with_reducible apply State.updSlot_keeps
  assumption

theorem State.noteOff_keeps {kb : State} (s : State) (h : Keeps kb s) (n : Nat) (ex : Bool) (r : Released) (xs : List Nat) (velocity : Nat) (attr : Word) :
    Keeps kb (State.noteOff s n ex r xs velocity attr) := by
  unfold State.noteOff
  extract_lets +onlyGivenNames -underBinder t
  try clear_value t
  extract_lets +onlyGivenNames -underBinder cancelled
  try clear_value cancelled
  extract_lets +onlyGivenNames -underBinder s1
  have h_s1 : Keeps kb s1 := by
    unfold s1
    refine Keeps.foldl (fun t x ht => ?_) ?_
    · try simp -zeta only []
      with_reducible apply State.cancelVoice_keeps
      assumption
    · assumption
  try clear_value s1
  extract_lets +onlyGivenNames -underBinder rest
  try clear_value rest
  refine Keeps.ite ?_ ?_
  · with_reducible apply State.moveEvent_keeps
    assumption
  · extract_lets +onlyGivenNames -underBinder held
    try clear_value held
    extract_lets +onlyGivenNames -underBinder free
    try clear_value free
    refine Keeps.ite ?_ ?_
    · extract_lets +onlyGivenNames -underBinder s2
      have h_s2 : Keeps kb s2 := by
        unfold s2
        refine Keeps.foldl (fun t x ht => ?_) ?_
        · try simp -zeta only []
          with_reducible apply State.holdOff_keeps
          assumption
        · assumption
      try clear_value s2
      refine Keeps.foldl (fun t x ht => ?_) ?_
      · try simp -zeta only []
        with_reducible apply State.releaseVoice_keeps
        assumption
      · assumption
    · with_reducible apply State.moveEvent_keeps
      assumption

theorem State.sustainLift_keeps {kb : State} (s : State) (h : Keeps kb s) (p : Nat) (n : Nat) (t : Nat) :
    Keeps kb (State.sustainLift s p n t) := by
  unfold State.sustainLift
  refine Keeps.ite ?_ ?_
  · assumption
  · refine Keeps.foldl (fun t x ht => ?_) ?_
    · try simp -zeta only []
      with_reducible apply State.releaseVoice_keeps
      assumption
    · assumption

theorem State.channelEvent_keeps {kb : State} (s : State) (h : Keeps kb s) (n : Nat) (ex : Bool) (r : Released) :
    Keeps kb (State.channelEvent s n ex r) := by
  unfold State.channelEvent
  extract_lets +onlyGivenNames -underBinder p
  try clear_value p
  extract_lets +onlyGivenNames -underBinder t
  try clear_value t
  split
  · with_reducible apply State.bump_keeps
    assumption
  · assumption
  · refine Keeps.ite ?_ ?_
    · with_reducible apply State.moveEvent_keeps
      assumption
    · extract_lets +onlyGivenNames -underBinder sus
      try clear_value sus
      extract_lets +onlyGivenNames -underBinder lift
      try clear_value lift
      extract_lets +onlyGivenNames -underBinder held
      try clear_value held
      refine Keeps.ite ?_ ?_
      · extract_lets +onlyGivenNames -underBinder s1
        have h_s1 : Keeps kb s1 := by
          unfold s1
          with_reducible apply State.writePart_keeps
          assumption
        try clear_value s1
        refine Keeps.ite ?_ ?_
        · with_reducible apply State.sustainLift_keeps
          assumption
        · assumption
      · with_reducible apply State.moveEvent_keeps
        assumption

theorem State.noteEvent_keeps {kb : State} (s : State) (h : Keeps kb s) (n : Nat) (ex : Bool) (r : Released) :
    Keeps kb (State.noteEvent s n ex r) := by
  unfold State.noteEvent
  extract_lets +onlyGivenNames -underBinder u
  try clear_value u
  extract_lets +onlyGivenNames -underBinder t
  try clear_value t
  extract_lets +onlyGivenNames -underBinder xs
  try clear_value xs
  split
  · with_reducible apply State.bump_keeps
    assumption
  · refine Keeps.ite ?_ ?_
    · with_reducible apply State.moveEvent_keeps
      assumption
    · refine Keeps.ite ?_ ?_
      · refine Keeps.foldl (fun t x ht => ?_) ?_
        · try simp -zeta only []
          extract_lets +onlyGivenNames -underBinder w
          have h_w : Keeps kb w := by
            unfold w
            with_reducible apply State.writeVoice_keeps
            assumption
          try clear_value w
          refine Keeps.ite ?_ ?_
          · with_reducible apply State.updSlot_keeps
            assumption
          · assumption
        · assumption
      · with_reducible apply State.moveEvent_keeps
        assumption

theorem State.selectProgram_keeps {kb : State} (s : State) (h : Keeps kb s) (p : Nat) (pgm : Nat) :
    Keeps kb (State.selectProgram s p pgm) := by
  unfold State.selectProgram
  extract_lets +onlyGivenNames -underBinder off
  try clear_value off
  extract_lets +onlyGivenNames -underBinder s1
  have h_s1 : Keeps kb s1 := by
    unfold s1
    with_reducible apply State.setFld_keeps
    assumption
  try clear_value s1
  refine Keeps.upd ?_ rfl rfl
  assumption

theorem State.poolEvent_keeps {kb : State} (s : State) (h : Keeps kb s) (n : Nat) (ex : Bool) (r : Released) :
    Keeps kb (State.poolEvent s n ex r) := by
  unfold State.poolEvent
  extract_lets +onlyGivenNames -underBinder u
  try clear_value u
  extract_lets +onlyGivenNames -underBinder p
  try clear_value p
  split
  · with_reducible apply State.moveEvent_keeps
    assumption
  · split
    · with_reducible apply State.noteOn_keeps
      assumption
    · with_reducible apply State.noteOff_keeps
      assumption
    · refine Keeps.ite ?_ ?_
      · with_reducible apply State.partReset_keeps
        assumption
      · refine Keeps.ite ?_ ?_
        · extract_lets +onlyGivenNames -underBinder src0 s1
          have h_s1 : Keeps kb s1 := by
            unfold s1
            refine Keeps.ite ?_ ?_
            · assumption
            · refine Keeps.foldl (fun t x ht => ?_) ?_
              · try simp -zeta only []
                with_reducible apply State.cancelWaiting_keeps
                assumption
              · refine Keeps.upd ?_ rfl rfl
                assumption
          try clear_value s1
          extract_lets +onlyGivenNames -underBinder vel
          have h_vel : Keeps kb vel.2 := by
            unfold vel
            with_reducible apply State.draw_keeps
            assumption
          try clear_value vel
          extract_lets +onlyGivenNames -underBinder attr
          have h_attr : Keeps kb attr.2 := by
            unfold attr
            with_reducible apply State.draw_keeps
            assumption
          try clear_value attr
          with_reducible apply State.noteOff_keeps
          assumption
        · with_reducible apply State.channelEvent_keeps
          assumption
    · with_reducible apply State.channelEvent_keeps
      refine Keeps.ite ?_ ?_
      · assumption
      · with_reducible apply State.selectProgram_keeps
        assumption
    · with_reducible apply State.channelEvent_keeps
      assumption
    · with_reducible apply State.channelEvent_keeps
      assumption
    · with_reducible apply State.channelEvent_keeps
      assumption
    · with_reducible apply State.channelEvent_keeps
      assumption
    · with_reducible apply State.channelEvent_keeps
      assumption
    · with_reducible apply State.channelEvent_keeps
      assumption
    · with_reducible apply State.noteEvent_keeps
      assumption

theorem State.applyParts_keeps {kb : State} (s : State) (h : Keeps kb s) :
    Keeps kb (State.applyParts s) := by
  unfold State.applyParts
  extract_lets +onlyGivenNames -underBinder applied
  try clear_value applied
  refine Keeps.upd ?_ rfl rfl
  assumption

theorem State.fadeEnds_keeps {kb : State} (s : State) (h : Keeps kb s) (x : Nat) (last : Nat) (reason : Nat) :
    Keeps kb (State.fadeEnds s x last reason) := by
  unfold State.fadeEnds
  extract_lets +onlyGivenNames -underBinder v
  try clear_value v
  split
  · with_reducible apply State.leave_keeps
    assumption
  · extract_lets +onlyGivenNames -underBinder s1
    have h_s1 : Keeps kb s1 := by
      unfold s1
      refine Keeps.ite ?_ ?_
      · assumption
      · with_reducible apply State.endVoice_keeps
        assumption
    try clear_value s1
    refine Keeps.ite ?_ ?_
    · with_reducible apply State.leaveCancelled_keeps
      assumption
    · with_reducible apply State.updSlot_keeps
      assumption

theorem State.slotEnds_keeps {kb : State} (s : State) (h : Keeps kb s) (n : Nat) (x : Nat) :
    Keeps kb (State.slotEnds s n x) := by
  unfold State.slotEnds
  extract_lets +onlyGivenNames -underBinder v
  try clear_value v
  extract_lets +onlyGivenNames -underBinder last
  try clear_value last
  extract_lets +onlyGivenNames -underBinder s1
  have h_s1 : Keeps kb s1 := by
    unfold s1
    refine Keeps.ite ?_ ?_
    · assumption
    · refine Keeps.ite ?_ ?_
      · refine Keeps.ite ?_ ?_
        · with_reducible apply State.leave_keeps
          assumption
        · refine Keeps.ite ?_ ?_
          · with_reducible apply State.leave_keeps
            with_reducible apply State.bump_keeps
            assumption
          · assumption
      · refine Keeps.ite ?_ ?_
        · refine Keeps.ite ?_ ?_
          · split
            · refine Keeps.ite ?_ ?_
              · with_reducible apply State.leaveCancelled_keeps
                assumption
              · assumption
            · assumption
          · refine Keeps.ite ?_ ?_
            · with_reducible apply State.fadeEnds_keeps
              assumption
            · refine Keeps.ite ?_ ?_
              · with_reducible apply State.fadeEnds_keeps
                assumption
              · assumption
        · assumption
  try clear_value s1
  split
  · refine Keeps.ite ?_ ?_
    · with_reducible apply State.startNote_keeps
      assumption
    · assumption
  · assumption

theorem State.poolEnds_keeps {kb : State} (s : State) (h : Keeps kb s) (n : Nat) :
    Keeps kb (State.poolEnds s n) := by
  unfold State.poolEnds
  extract_lets +onlyGivenNames -underBinder s1
  have h_s1 : Keeps kb s1 := by
    unfold s1
    refine Keeps.foldl (fun t x ht => ?_) ?_
    · try simp -zeta only []
      with_reducible apply State.slotEnds_keeps
      assumption
    · assumption
  try clear_value s1
  refine Keeps.upd ?_ rfl rfl
  assumption

theorem State.drainPool_keeps {kb : State} (s : State) (h : Keeps kb s) (n : Nat) :
    Keeps kb (State.drainPool s n) := by
  unfold State.drainPool
  refine Keeps.ite ?_ ?_
  · refine Keeps.upd ?_ rfl rfl
    assumption
  · refine Keeps.ite ?_ ?_
    · assumption
    · extract_lets +onlyGivenNames -underBinder all
      try clear_value all
      extract_lets +onlyGivenNames -underBinder s1
      have h_s1 : Keeps kb s1 := by
        unfold s1
        refine Keeps.foldl (fun t x ht => ?_) ?_
        · try simp -zeta only []
          with_reducible apply State.cancelVoice_keeps
          assumption
        · assumption
      try clear_value s1
      extract_lets +onlyGivenNames -underBinder s2
      have h_s2 : Keeps kb s2 := by
        unfold s2
        refine Keeps.foldl (fun t x ht => ?_) ?_
        · try simp -zeta only []
          with_reducible apply State.fadeVoice_keeps
          assumption
        · assumption
      try clear_value s2
      extract_lets +onlyGivenNames -underBinder s3
      have h_s3 : Keeps kb s3 := by
        unfold s3
        refine Keeps.foldl (fun t x ht => ?_) ?_
        · try simp -zeta only []
          with_reducible apply State.cancelWaiting_keeps
          assumption
        · assumption
      try clear_value s3
      refine Keeps.upd ?_ rfl rfl
      assumption

theorem State.trimPart_keeps {kb : State} (s : State) (h : Keeps kb s) (p : Nat) (n : Nat) :
    Keeps kb (State.trimPart s p n).1 := by
  unfold State.trimPart
  refine Keeps.iteP (p := Prod.fst) ?_ ?_
  · assumption
  · extract_lets +onlyGivenNames -underBinder live
    try clear_value live
    extract_lets +onlyGivenNames -underBinder e
    try clear_value e
    extract_lets +onlyGivenNames -underBinder chosen
    try clear_value chosen
    refine Keeps.foldl (fun t x ht => ?_) ?_
    · try simp -zeta only []
      with_reducible apply State.count_keeps
      with_reducible apply State.bump_keeps
      with_reducible apply State.fadeVoice_keeps
      assumption
    · assumption

theorem State.trims_keeps {kb : State} (s : State) (h : Keeps kb s) (n : Nat) :
    Keeps kb (State.trims s n) := by
  unfold State.trims
  extract_lets +onlyGivenNames -underBinder r
  have h_r : Keeps kb r.1 := by
    unfold r
    refine Keeps.foldlFst (fun t x ht => ?_) ?_
    · try simp -zeta only []
      extract_lets +onlyGivenNames -underBinder k
      have h_k : Keeps kb k.1 := by
        unfold k
        with_reducible apply State.trimPart_keeps
        assumption
      try clear_value k
      assumption
    · assumption
  try clear_value r
  refine Keeps.ite ?_ ?_
  · assumption
  · with_reducible apply State.raise_keeps
    assumption

theorem State.applyHostWrites_keeps {kb : State} (s : State) (h : Keeps kb s) (n : Nat) :
    Keeps kb (State.applyHostWrites s n) := by
  unfold State.applyHostWrites
  extract_lets +onlyGivenNames -underBinder s1
  have h_s1 : Keeps kb s1 := by
    unfold s1
    refine Keeps.foldl (fun t x ht => ?_) ?_
    · try simp -zeta only []
      extract_lets +onlyGivenNames -underBinder v
      have h_v : Keeps kb v := by
        unfold v
        with_reducible apply State.count_keeps
        with_reducible apply State.bump_keeps
        with_reducible apply State.putFrame_keeps
        assumption
      try clear_value v
      refine Keeps.ite ?_ ?_
      · with_reducible apply State.sustainLift_keeps
        assumption
      · assumption
    · assumption
  try clear_value s1
  with_reducible apply State.setFld_keeps
  refine Keeps.upd ?_ rfl rfl
  assumption

theorem State.reportPool_keeps {kb : State} (s : State) (h : Keeps kb s) :
    Keeps kb (State.reportPool s) := by
  unfold State.reportPool
  extract_lets +onlyGivenNames -underBinder live
  try clear_value live
  extract_lets +onlyGivenNames -underBinder voices
  try clear_value voices
  extract_lets +onlyGivenNames -underBinder s1
  have h_s1 : Keeps kb s1 := by
    unfold s1
    with_reducible apply State.setFld_keeps
    with_reducible apply State.setFld_keeps
    assumption
  try clear_value s1
  extract_lets +onlyGivenNames -underBinder s2
  have h_s2 : Keeps kb s2 := by
    unfold s2
    refine Keeps.foldl (fun t x ht => ?_) ?_
    · try simp -zeta only []
      extract_lets +onlyGivenNames -underBinder shadows
      try clear_value shadows
      with_reducible apply State.setReg_keeps
      assumption
    · assumption
  try clear_value s2
  extract_lets +onlyGivenNames -underBinder code
  try clear_value code
  extract_lets +onlyGivenNames -underBinder snap
  try clear_value snap
  refine Keeps.upd ?_ rfl rfl
  assumption

theorem actQuota_keeps {kb : State} (p : Nat) (s : State) (h : Keeps kb s) (r : RegRow) (old : Word) (v : Word) :
    Keeps kb (actQuota p s r old v) := by
  unfold actQuota
  extract_lets +onlyGivenNames -underBinder new
  try clear_value new
  extract_lets +onlyGivenNames -underBinder rsv
  try clear_value rsv
  extract_lets +onlyGivenNames -underBinder others
  try clear_value others
  refine Keeps.ite ?_ ?_
  · with_reducible apply State.refuseCfg_keeps
    assumption
  · with_reducible apply State.setReg_keeps
    assumption

theorem execPartQuotaWrite_keeps {kb : State} (path : Path) (p : Fin 64) (v : Word) (s : State) (h : Keeps kb s) :
    KeepsOut kb (execPartQuotaWrite path p v s) := by
  unfold execPartQuotaWrite
  refine Keeps.next ?_
  with_reducible apply State.hostWrite_keeps
  · assumption
  · intro z0 z1 z2 z3 hz
    try simp -zeta only []
    with_reducible apply actQuota_keeps
    assumption

end Sys2Proof.Machine
end

