-- ==== Sys2Proof/Laws/Keeps/Sched.lean ====
section
/-! SUPPORT. What the functions of Machine/Sched.lean keep (Laws/Keeps.lean). -/

namespace Sys2Proof.Machine

theorem State.replace_keeps {kb : State} (s : State) (h : Keeps kb s) (x : Nat) :
    Keeps kb (State.replace s x) := by
  unfold State.replace
  extract_lets +onlyGivenNames -underBinder l
  try clear_value l
  refine Keeps.ite ?_ ?_
  · assumption
  · with_reducible apply State.setPlaced_keeps
    assumption

theorem State.judgeDemand_keeps {kb : State} (s : State) (h : Keeps kb s) (n : Nat) :
    Keeps kb (State.judgeDemand s n) := by
  unfold State.judgeDemand
  extract_lets +onlyGivenNames -underBinder voices
  try clear_value voices
  refine Keeps.ite ?_ ?_
  · assumption
  · extract_lets +onlyGivenNames -underBinder s1
    have h_s1 : Keeps kb s1 := by
      unfold s1
      with_reducible apply State.setBit_keeps
      assumption
    try clear_value s1
    refine Keeps.ite ?_ ?_
    · assumption
    · extract_lets +onlyGivenNames -underBinder src0 s2
      have h_s2 : Keeps kb s2 := by
        unfold s2
        refine Keeps.upd ?_ rfl rfl
        assumption
      try clear_value s2
      with_reducible apply State.raise_keeps
      with_reducible apply State.bump_keeps
      assumption

theorem State.makeRoom_keeps {kb : State} (s : State) (h : Keeps kb s) (t : Task) :
    Keeps kb (State.makeRoom s t) := by
  unfold State.makeRoom
  extract_lets +onlyGivenNames -underBinder free
  try clear_value free
  extract_lets +onlyGivenNames -underBinder waiting
  try clear_value waiting
  refine Keeps.ite ?_ ?_
  · assumption
  · split
    · with_reducible apply State.withdrawStaged_keeps
      assumption
    · assumption

theorem State.countDefer_keeps {kb : State} (s : State) (h : Keeps kb s) (t : Task) :
    Keeps kb (State.countDefer s t) := by
  unfold State.countDefer
  extract_lets +onlyGivenNames -underBinder s1
  have h_s1 : Keeps kb s1 := by
    unfold s1
    with_reducible apply State.bump_keeps
    assumption
  try clear_value s1
  refine Keeps.ite ?_ ?_
  · refine Keeps.upd ?_ rfl rfl
    assumption
  · assumption

theorem State.bind_keeps {kb : State} (s : State) (h : Keeps kb s) (t : Task) :
    Keeps kb (State.bind s t) := by
  unfold State.bind
  extract_lets +onlyGivenNames -underBinder s1
  have h_s1 : Keeps kb s1 := by
    unfold s1
    with_reducible apply State.sendSnapshot_keeps
    assumption
  try clear_value s1
  extract_lets +onlyGivenNames -underBinder s2
  have h_s2 : Keeps kb s2 := by
    unfold s2
    refine Keeps.ite ?_ ?_
    · assumption
    · with_reducible apply State.setJournalEpoch_keeps
      with_reducible apply State.setJournal_keeps
      assumption
  try clear_value s2
  extract_lets +onlyGivenNames -underBinder s3
  have h_s3 : Keeps kb s3 := by
    unfold s3
    with_reducible apply State.count_keeps
    assumption
  try clear_value s3
  refine Keeps.ite ?_ ?_
  · with_reducible apply State.pushTask_keeps
    with_reducible apply State.countDefer_keeps
    assumption
  · extract_lets +onlyGivenNames -underBinder s4
    have h_s4 : Keeps kb s4 := by
      unfold s4
      with_reducible apply State.makeRoom_keeps
      with_reducible apply State.pushTask_keeps
      assumption
    try clear_value s4
    refine Keeps.ite ?_ ?_
    · with_reducible apply State.judgeDemand_keeps
      assumption
    · assumption

theorem execTaskBind_keeps {kb : State} (x : Fin 1152) (cyc : Nat) (s : State) (h : Keeps kb s) :
    KeepsOut kb (execTaskBind x cyc s) := by
  unfold execTaskBind
  extract_lets +onlyGivenNames -underBinder t
  try clear_value t
  refine Keeps.iteO ?_ ?_
  · refine Keeps.next ?_
    assumption
  · refine Keeps.iteO ?_ ?_
    · extract_lets +onlyGivenNames -underBinder n
      try clear_value n
      refine Keeps.iteO ?_ ?_
      · refine Keeps.next ?_
        assumption
      · extract_lets +onlyGivenNames -underBinder s1
        have h_s1 : Keeps kb s1 := by
          unfold s1
          with_reducible apply State.replace_keeps
          assumption
        try clear_value s1
        refine Keeps.next ?_
        with_reducible apply State.bind_keeps
        assumption
    · extract_lets +onlyGivenNames -underBinder k
      try clear_value k
      extract_lets +onlyGivenNames -underBinder n
      try clear_value n
      refine Keeps.iteO ?_ ?_
      · refine Keeps.next ?_
        assumption
      · extract_lets +onlyGivenNames -underBinder d
        have h_d : Keeps kb d.2 := by
          unfold d
          with_reducible apply State.draw_keeps
          with_reducible apply State.replace_keeps
          assumption
        try clear_value d
        refine Keeps.next ?_
        with_reducible apply State.bind_keeps
        assumption

theorem State.gather_keeps {kb : State} (s : State) (h : Keeps kb s) (cls : Cls) (a : Nat) (n : Nat) :
    Keeps kb (State.gather s cls a n).st := by
  unfold State.gather
  extract_lets +onlyGivenNames -underBinder r
  have h_r : Keeps kb r.1 := by
    unfold r
    with_reducible apply State.devReadWords_keeps
    assumption
  try clear_value r
  assumption

theorem State.busInputs_keeps {kb : State} (s : State) (h : Keeps kb s) (t : Task) (i : Nat) (a : Nat) (a4 : Frame) :
    Keeps kb (State.busInputs s t i a a4).1 := by
  induction a generalizing s t i a4 with
  | zero =>
    rw [State.busInputs]
    assumption
  | succ k ih =>
    rw [State.busInputs]
    apply ih
    refine Keeps.iteP (p := Prod.fst) ?_ ?_
    · with_reducible apply State.readCapture_keeps
      assumption
    · with_reducible apply State.devRead_keeps
      assumption

theorem State.newFrame_keeps {kb : State} (s : State) (h : Keeps kb s) :
    Keeps kb (State.newFrame s).1 := by
  unfold State.newFrame
  refine Keeps.updDraws ?_ rfl rfl
  assumption

theorem State.stageData_keeps {kb : State} (s : State) (h : Keeps kb s) (t : Task) :
    Keeps kb (State.stageData s t).1 := by
  unfold State.stageData
  extract_lets +onlyGivenNames -underBinder fx
  have h_fx : Keeps kb fx.1 := by
    unfold fx
    with_reducible apply State.newFrame_keeps
    assumption
  try clear_value fx
  extract_lets +onlyGivenNames -underBinder fy
  have h_fy : Keeps kb fy.1 := by
    unfold fy
    with_reducible apply State.newFrame_keeps
    assumption
  try clear_value fy
  extract_lets +onlyGivenNames -underBinder zeros
  try clear_value zeros
  extract_lets +onlyGivenNames -underBinder home
  have h_home : Keeps kb home.st := by
    unfold home
    split
    · assumption
    · with_reducible apply State.gather_keeps
      assumption
  try clear_value home
  extract_lets +onlyGivenNames -underBinder x0
  try clear_value x0
  extract_lets +onlyGivenNames -underBinder y0
  try clear_value y0
  extract_lets +onlyGivenNames -underBinder src0 buf
  try clear_value buf
  refine Keeps.iteP (p := Prod.fst) ?_ ?_
  · extract_lets +onlyGivenNames -underBinder nin
    try clear_value nin
    extract_lets +onlyGivenNames -underBinder r
    have h_r : Keeps kb r.1 := by
      unfold r
      with_reducible apply State.busInputs_keeps
      assumption
    try clear_value r
    assumption
  · extract_lets +onlyGivenNames -underBinder prog
    have h_prog : Keeps kb prog.st := by
      unfold prog
      with_reducible apply State.gather_keeps
      assumption
    try clear_value prog
    extract_lets +onlyGivenNames -underBinder recs
    have h_recs : Keeps kb recs.st := by
      unfold recs
      with_reducible apply State.gather_keeps
      assumption
    try clear_value recs
    extract_lets +onlyGivenNames -underBinder pairs
    have h_pairs : Keeps kb pairs.st := by
      unfold pairs
      with_reducible apply State.gather_keeps
      assumption
    try clear_value pairs
    extract_lets +onlyGivenNames -underBinder fb
    try clear_value fb
    extract_lets +onlyGivenNames -underBinder x1
    try clear_value x1
    extract_lets +onlyGivenNames -underBinder ramp
    try clear_value ramp
    assumption

theorem State.poisonTask_keeps {kb : State} (s : State) (h : Keeps kb s) (t : Task) :
    Keeps kb (State.poisonTask s t) := by
  unfold State.poisonTask
  with_reducible apply State.mute_keeps
  with_reducible apply State.updTask_keeps
  with_reducible apply State.dropTask_keeps
  assumption

theorem execTaskStage_keeps {kb : State} (n : Fin 34) (slot1 : Bool) (a : BitVec 25) (upset : Upset) (s : State) (h : Keeps kb s) :
    KeepsOut kb (execTaskStage n slot1 a upset s) := by
  unfold execTaskStage
  refine Keeps.iteO ?_ ?_
  · refine Keeps.next ?_
    assumption
  · split
    · refine Keeps.next ?_
      assumption
    · extract_lets +onlyGivenNames -underBinder addr
      try clear_value addr
      extract_lets +onlyGivenNames -underBinder k
      have h_k : Keeps kb k.1 := by
        unfold k
        refine Keeps.iteP (p := Prod.fst) ?_ ?_
        · with_reducible apply State.conCheck_keeps
          assumption
        · assumption
      try clear_value k
      extract_lets +onlyGivenNames -underBinder r
      have h_r : Keeps kb r.1 := by
        unfold r
        with_reducible apply State.stageData_keeps
        assumption
      try clear_value r
      refine Keeps.iteO ?_ ?_
      · refine Keeps.next ?_
        with_reducible apply State.poisonTask_keeps
        assumption
      · extract_lets +onlyGivenNames -underBinder s1
        have h_s1 : Keeps kb s1 := by
          unfold s1
          with_reducible apply State.updTask_keeps
          assumption
        try clear_value s1
        refine Keeps.next ?_
        with_reducible apply State.updCore_keeps
        assumption

theorem execStagingComplete_keeps {kb : State} (n : Fin 34) (slot1 : Bool) (s : State) (h : Keeps kb s) :
    KeepsOut kb (execStagingComplete n slot1 s) := by
  unfold execStagingComplete
  extract_lets +onlyGivenNames -underBinder b
  try clear_value b
  split
  · refine Keeps.next ?_
    assumption
  · split
    · refine Keeps.next ?_
      with_reducible apply State.updTask_keeps
      assumption
    · refine Keeps.next ?_
      assumption

theorem execSidingMove_keeps {kb : State} (n : Fin 34) (s : State) (h : Keeps kb s) :
    KeepsOut kb (execSidingMove n s) := by
  unfold execSidingMove
  extract_lets +onlyGivenNames -underBinder c
  try clear_value c
  extract_lets +onlyGivenNames -underBinder ready
  try clear_value ready
  split
  · refine Keeps.next ?_
    assumption
  · refine Keeps.iteO ?_ ?_
    · refine Keeps.next ?_
      assumption
    · split
      · extract_lets +onlyGivenNames -underBinder s1
        have h_s1 : Keeps kb s1 := by
          unfold s1
          with_reducible apply State.updTask_keeps
          assumption
        try clear_value s1
        refine Keeps.next ?_
        with_reducible apply State.updCore_keeps
        assumption
      · split
        · refine Keeps.next ?_
          assumption
        · refine Keeps.iteO ?_ ?_
          · extract_lets +onlyGivenNames -underBinder s1
            have h_s1 : Keeps kb s1 := by
              unfold s1
              with_reducible apply State.updTask_keeps
              with_reducible apply State.updTask_keeps
              assumption
            try clear_value s1
            refine Keeps.next ?_
            with_reducible apply State.updCore_keeps
            assumption
          · refine Keeps.next ?_
            assumption

theorem State.dispatch_keeps {kb : State} (s : State) (h : Keeps kb s) (n : Nat) (cyc : Nat) (w : Taking) (t : Task) :
    Keeps kb (State.dispatch s n cyc w t) := by
  unfold State.dispatch
  extract_lets +onlyGivenNames -underBinder c
  try clear_value c
  extract_lets +onlyGivenNames -underBinder wait
  try clear_value wait
  extract_lets +onlyGivenNames -underBinder kc
  try clear_value kc
  extract_lets +onlyGivenNames -underBinder s1
  have h_s1 : Keeps kb s1 := by
    unfold s1
    refine Keeps.ite ?_ ?_
    · assumption
    · with_reducible apply State.corePmu_keeps
      with_reducible apply State.bump_keeps
      assumption
  try clear_value s1
  extract_lets +onlyGivenNames -underBinder s2
  have h_s2 : Keeps kb s2 := by
    unfold s2
    with_reducible apply State.count_keeps
    with_reducible apply State.count_keeps
    with_reducible apply State.bump_keeps
    assumption
  try clear_value s2
  extract_lets +onlyGivenNames -underBinder s3
  have h_s3 : Keeps kb s3 := by
    unfold s3
    with_reducible apply State.updTask_keeps
    assumption
  try clear_value s3
  extract_lets +onlyGivenNames -underBinder s4
  have h_s4 : Keeps kb s4 := by
    unfold s4
    refine Keeps.updDraws ?_ rfl rfl
    assumption
  try clear_value s4
  extract_lets +onlyGivenNames -underBinder src0 swapped
  try clear_value swapped
  extract_lets +onlyGivenNames -underBinder src0 s5
  have h_s5 : Keeps kb s5 := by
    unfold s5
    with_reducible apply State.setCore_keeps
    assumption
  try clear_value s5
  extract_lets +onlyGivenNames -underBinder s6
  have h_s6 : Keeps kb s6 := by
    unfold s6
    with_reducible apply State.holdTicks_keeps
    with_reducible apply State.advance_keeps
    assumption
  try clear_value s6
  with_reducible apply State.updCore_keeps
  assumption

theorem State.defer_keeps {kb : State} (s : State) (h : Keeps kb s) (t : Task) :
    Keeps kb (State.defer s t) := by
  unfold State.defer
  with_reducible apply State.updTask_keeps
  with_reducible apply State.countDefer_keeps
  with_reducible apply State.unstage_keeps
  assumption

theorem execTakeDelivery_keeps {kb : State} (n : Fin 34) (cyc : Nat) (wait : Nat) (s : State) (h : Keeps kb s) :
    KeepsOut kb (execTakeDelivery n cyc wait s) := by
  unfold execTakeDelivery
  extract_lets +onlyGivenNames -underBinder c
  try clear_value c
  split
  · refine Keeps.next ?_
    assumption
  · refine Keeps.iteO ?_ ?_
    · refine Keeps.next ?_
      assumption
    · split
      · refine Keeps.next ?_
        assumption
      · split
        · extract_lets +onlyGivenNames -underBinder s1
          have h_s1 : Keeps kb s1 := by
            unfold s1
            with_reducible apply State.holdTicks_keeps
            assumption
          try clear_value s1
          refine Keeps.iteO ?_ ?_
          · refine Keeps.next ?_
            with_reducible apply State.coreFault_keeps
            assumption
          · refine Keeps.iteO ?_ ?_
            · refine Keeps.next ?_
              with_reducible apply State.dispatch_keeps
              assumption
            · refine Keeps.next ?_
              with_reducible apply State.defer_keeps
              assumption
        · refine Keeps.next ?_
          assumption

theorem State.shuntDone_keeps {kb : State} (s : State) (h : Keeps kb s) (x : Nat) (n : Nat) :
    Keeps kb (State.shuntDone s x n) := by
  unfold State.shuntDone
  refine Keeps.ite ?_ ?_
  · extract_lets +onlyGivenNames -underBinder src0 t
    have h_t : Keeps kb t := by
      unfold t
      refine Keeps.upd ?_ rfl rfl
      assumption
    try clear_value t
    extract_lets +onlyGivenNames -underBinder u
    have h_u : Keeps kb u := by
      unfold u
      with_reducible apply State.raise_keeps
      assumption
    try clear_value u
    refine Keeps.ite ?_ ?_
    · with_reducible apply State.setBit_keeps
      refine Keeps.upd ?_ rfl rfl
      assumption
    · assumption
  · assumption

theorem State.slotCommit_keeps {kb : State} (s : State) (h : Keeps kb s) (t : Task) (level : Nat) (ended : Bool) :
    Keeps kb (State.slotCommit s t level ended) := by
  unfold State.slotCommit
  refine Keeps.ite ?_ ?_
  · assumption
  · extract_lets +onlyGivenNames -underBinder w
    try clear_value w
    with_reducible apply State.updSlot_keeps
    assumption

theorem State.checkpoint_keeps {kb : State} (s : State) (h : Keeps kb s) (t : Task) (b : TaskBuf) :
    Keeps kb (State.checkpoint s t b) := by
  unfold State.checkpoint
  extract_lets +onlyGivenNames -underBinder s1
  have h_s1 : Keeps kb s1 := by
    unfold s1
    with_reducible apply State.devWrite_keeps
    assumption
  try clear_value s1
  extract_lets +onlyGivenNames -underBinder u src1 s2
  have h_u : Keeps kb u := by
    unfold u
    with_reducible apply State.devWrite_keeps
    assumption
  try clear_value u
  have h_s2 : Keeps kb s2 := by
    unfold s2
    refine Keeps.ite ?_ ?_
    · assumption
    · refine Keeps.upd ?_ rfl rfl
      assumption
  try clear_value s2
  extract_lets +onlyGivenNames -underBinder nch
  try clear_value nch
  refine Keeps.foldl (fun t x ht => ?_) ?_
  · try simp -zeta only []
    with_reducible apply State.devWrite_keeps
    assumption
  · assumption

theorem State.commit_keeps {kb : State} (s : State) (h : Keeps kb s) (n : Nat) (t : Task) (b : TaskBuf) (ended : Bool) :
    Keeps kb (State.commit s n t b ended) := by
  unfold State.commit
  extract_lets +onlyGivenNames -underBinder s1
  have h_s1 : Keeps kb s1.1 := by
    unfold s1
    with_reducible apply State.accept_keeps
    with_reducible apply State.checkpoint_keeps
    assumption
  try clear_value s1
  extract_lets +onlyGivenNames -underBinder s2
  have h_s2 : Keeps kb s2 := by
    unfold s2
    with_reducible apply State.count_keeps
    with_reducible apply State.judge_keeps
    with_reducible apply State.slotCommit_keeps
    assumption
  try clear_value s2
  extract_lets +onlyGivenNames -underBinder s3
  have h_s3 : Keeps kb s3 := by
    unfold s3
    with_reducible apply State.updTask_keeps
    assumption
  try clear_value s3
  extract_lets +onlyGivenNames -underBinder s4
  have h_s4 : Keeps kb s4 := by
    unfold s4
    refine Keeps.ite ?_ ?_
    · assumption
    · with_reducible apply State.streamCommit_keeps
      with_reducible apply State.streamCommit_keeps
      assumption
  try clear_value s4
  with_reducible apply State.shuntDone_keeps
  assumption

theorem State.discard_keeps {kb : State} (s : State) (h : Keeps kb s) (n : Nat) (t : Task) (stale : Bool) :
    Keeps kb (State.discard s n t stale) := by
  unfold State.discard
  extract_lets +onlyGivenNames -underBinder s1
  have h_s1 : Keeps kb s1 := by
    unfold s1
    with_reducible apply State.count_keeps
    with_reducible apply State.judge_keeps
    assumption
  try clear_value s1
  extract_lets +onlyGivenNames -underBinder s2
  have h_s2 : Keeps kb s2 := by
    unfold s2
    refine Keeps.ite ?_ ?_
    · with_reducible apply State.count_keeps
      with_reducible apply State.bump_keeps
      assumption
    · assumption
  try clear_value s2
  with_reducible apply State.updTask_keeps
  assumption

theorem execCommitCheck_keeps {kb : State} (n : Fin 34) (ux : Upset) (uy : Upset) (s : State) (h : Keeps kb s) :
    KeepsOut kb (execCommitCheck n ux uy s) := by
  unfold execCommitCheck
  split
  · refine Keeps.next ?_
    assumption
  · extract_lets +onlyGivenNames -underBinder kx
    have h_kx : Keeps kb kx.1 := by
      unfold kx
      with_reducible apply State.coreMemCheck_keeps
      assumption
    try clear_value kx
    extract_lets +onlyGivenNames -underBinder ky
    have h_ky : Keeps kb ky.1 := by
      unfold ky
      with_reducible apply State.coreMemCheck_keeps
      assumption
    try clear_value ky
    extract_lets +onlyGivenNames -underBinder release
    have h_release : ∀ z0, Keeps kb z0 → Keeps kb (release z0) := by
      intro z0 hz
      unfold release
      try simp -zeta only []
      with_reducible apply State.updCore_keeps
      assumption
    try clear_value release
    split
    · refine Keeps.next ?_
      apply h_release
      assumption
    · split
      · extract_lets +onlyGivenNames -underBinder stale
        try clear_value stale
        extract_lets +onlyGivenNames -underBinder again
        try clear_value again
        extract_lets +onlyGivenNames -underBinder inTime
        try clear_value inTime
        refine Keeps.iteO ?_ ?_
        · refine Keeps.next ?_
          apply h_release
          with_reducible apply State.discard_keeps
          assumption
        · refine Keeps.next ?_
          apply h_release
          with_reducible apply State.commit_keeps
          assumption
      · refine Keeps.next ?_
        apply h_release
        assumption

theorem State.judgeDeadline_keeps {kb : State} (s : State) (h : Keeps kb s) (t : Task) :
    Keeps kb (State.judgeDeadline s t) := by
  unfold State.judgeDeadline
  split
  · with_reducible apply State.judgeCore_keeps
    assumption
  · with_reducible apply State.updTask_keeps
    with_reducible apply State.judge_keeps
    assumption
  · assumption

theorem State.snapUnbound_keeps {kb : State} (s : State) (h : Keeps kb s) (x : Nat) (b : Nat) (cls : Cls) :
    Keeps kb (State.snapUnbound s x b cls) := by
  unfold State.snapUnbound
  extract_lets +onlyGivenNames -underBinder t
  try clear_value t
  with_reducible apply State.sendSnapshot_keeps
  assumption

theorem State.concealBlock_keeps {kb : State} (s : State) (h : Keeps kb s) (x : Nat) (b : Nat) (cls : Cls) :
    Keeps kb (State.concealBlock s x b cls) := by
  unfold State.concealBlock
  extract_lets +onlyGivenNames -underBinder s1
  have h_s1 : Keeps kb s1 := by
    unfold s1
    with_reducible apply State.conceal_keeps
    with_reducible apply State.count_keeps
    with_reducible apply State.bump_keeps
    with_reducible apply State.snapUnbound_keeps
    assumption
  try clear_value s1
  refine Keeps.ite ?_ ?_
  · with_reducible apply State.updSlot_keeps
    assumption
  · assumption

theorem State.blockDeadline_keeps {kb : State} (s : State) (h : Keeps kb s) (x : Nat) (b : Nat) (cls : Cls) :
    Keeps kb (State.blockDeadline s x b cls) := by
  unfold State.blockDeadline
  extract_lets +onlyGivenNames -underBinder ts
  try clear_value ts
  extract_lets +onlyGivenNames -underBinder committed
  try clear_value committed
  extract_lets +onlyGivenNames -underBinder miss
  try clear_value miss
  extract_lets +onlyGivenNames -underBinder d
  have h_d : Keeps kb d.st := by
    unfold d
    split
    · assumption
    · with_reducible apply State.detect_keeps
      assumption
  try clear_value d
  extract_lets +onlyGivenNames -underBinder s1
  have h_s1 : Keeps kb s1 := by
    unfold s1
    refine Keeps.ite ?_ ?_
    · with_reducible apply State.raise_keeps
      with_reducible apply State.count_keeps
      with_reducible apply State.bump_keeps
      assumption
    · assumption
  try clear_value s1
  extract_lets +onlyGivenNames -underBinder s2
  have h_s2 : Keeps kb s2 := by
    unfold s2
    refine Keeps.foldl (fun t x ht => ?_) ?_
    · try simp -zeta only []
      extract_lets +onlyGivenNames -underBinder v
      have h_v : Keeps kb v := by
        unfold v
        with_reducible apply State.judgeDeadline_keeps
        assumption
      try clear_value v
      refine Keeps.ite ?_ ?_
      · refine Keeps.ite ?_ ?_
        · with_reducible apply State.dropTask_keeps
          assumption
        · with_reducible apply State.defer_keeps
          assumption
      · assumption
    · assumption
  try clear_value s2
  refine Keeps.ite ?_ ?_
  · with_reducible apply State.concealBlock_keeps
    assumption
  · refine Keeps.ite ?_ ?_
    · with_reducible apply State.concealBlock_keeps
      refine Keeps.upd ?_ rfl rfl
      assumption
    · assumption

theorem State.firstDone_keeps {kb : State} (s : State) (h : Keeps kb s) (x : Nat) :
    Keeps kb (State.firstDone s x) := by
  unfold State.firstDone
  extract_lets +onlyGivenNames -underBinder v
  try clear_value v
  refine Keeps.ite ?_ ?_
  · with_reducible apply State.releaseStreams_keeps
    with_reducible apply State.updSlot_keeps
    assumption
  · with_reducible apply State.updSlot_keeps
    assumption

theorem State.slotDeadline_keeps {kb : State} (s : State) (h : Keeps kb s) (b : Nat) (x : Nat) :
    Keeps kb (State.slotDeadline s b x) := by
  unfold State.slotDeadline
  extract_lets +onlyGivenNames -underBinder v
  try clear_value v
  extract_lets +onlyGivenNames -underBinder s1
  have h_s1 : Keeps kb s1 := by
    unfold s1
    refine Keeps.ite ?_ ?_
    · with_reducible apply State.blockDeadline_keeps
      assumption
    · assumption
  try clear_value s1
  split
  · refine Keeps.ite ?_ ?_
    · with_reducible apply State.leaveCancelled_keeps
      assumption
    · assumption
  · refine Keeps.ite ?_ ?_
    · with_reducible apply State.fadeEnds_keeps
      assumption
    · assumption
  · refine Keeps.ite ?_ ?_
    · with_reducible apply State.firstDone_keeps
      assumption
    · assumption

theorem execTaskDeadline_keeps {kb : State} (s : State) (h : Keeps kb s) :
    KeepsOut kb (execTaskDeadline s) := by
  unfold execTaskDeadline
  extract_lets +onlyGivenNames -underBinder t
  try clear_value t
  refine Keeps.iteO ?_ ?_
  · refine Keeps.next ?_
    assumption
  · extract_lets +onlyGivenNames -underBinder b
    try clear_value b
    extract_lets +onlyGivenNames -underBinder src0 s1
    have h_s1 : Keeps kb s1 := by
      unfold s1
      refine Keeps.upd ?_ rfl rfl
      assumption
    try clear_value s1
    refine Keeps.iteO ?_ ?_
    · refine Keeps.next ?_
      assumption
    · refine Keeps.next ?_
      refine Keeps.foldl (fun t x ht => ?_) ?_
      · try simp -zeta only []
        with_reducible apply State.slotDeadline_keeps
        assumption
      · assumption

theorem execBusTaskDeadline_keeps {kb : State} (s : State) (h : Keeps kb s) :
    KeepsOut kb (execBusTaskDeadline s) := by
  unfold execBusTaskDeadline
  extract_lets +onlyGivenNames -underBinder t
  try clear_value t
  refine Keeps.iteO ?_ ?_
  · refine Keeps.next ?_
    assumption
  · extract_lets +onlyGivenNames -underBinder b
    try clear_value b
    extract_lets +onlyGivenNames -underBinder src0 s1
    have h_s1 : Keeps kb s1 := by
      unfold s1
      refine Keeps.upd ?_ rfl rfl
      assumption
    try clear_value s1
    refine Keeps.iteO ?_ ?_
    · refine Keeps.next ?_
      assumption
    · refine Keeps.next ?_
      refine Keeps.foldl (fun t x ht => ?_) ?_
      · try simp -zeta only []
        with_reducible apply State.blockDeadline_keeps
        assumption
      · assumption

theorem execTaskAbort_keeps {kb : State} (n : Fin 34) (s : State) (h : Keeps kb s) :
    KeepsOut kb (execTaskAbort n s) := by
  unfold execTaskAbort
  extract_lets +onlyGivenNames -underBinder c
  try clear_value c
  split
  · refine Keeps.next ?_
    assumption
  · refine Keeps.iteO ?_ ?_
    · refine Keeps.next ?_
      assumption
    · extract_lets +onlyGivenNames -underBinder d
      have h_d : Keeps kb d.st := by
        unfold d
        with_reducible apply State.check_keeps
        assumption
      try clear_value d
      refine Keeps.next ?_
      refine Keeps.ite ?_ ?_
      · with_reducible apply State.abortTask_keeps
        assumption
      · assumption

theorem actExpCycles_keeps {kb : State} (s : State) (h : Keeps kb s) (r : RegRow) (old : Word) (v : Word) :
    Keeps kb (actExpCycles s r old v) := by
  unfold actExpCycles
  extract_lets +onlyGivenNames -underBinder new
  try clear_value new
  refine Keeps.ite ?_ ?_
  · with_reducible apply State.setReg_keeps
    assumption
  · with_reducible apply State.refuseCfg_keeps
    assumption

theorem actExpCfg_keeps {kb : State} (s : State) (h : Keeps kb s) (r : RegRow) (old : Word) (v : Word) :
    Keeps kb (actExpCfg s r old v) := by
  unfold actExpCfg
  extract_lets +onlyGivenNames -underBinder new
  try clear_value new
  refine Keeps.ite ?_ ?_
  · with_reducible apply State.setReg_keeps
    assumption
  · with_reducible apply State.refuseCfg_keeps
    assumption

theorem actSchCtrl_keeps {kb : State} (s : State) (h : Keeps kb s) (r : RegRow) (old : Word) (v : Word) :
    Keeps kb (actSchCtrl s r old v) := by
  unfold actSchCtrl
  extract_lets +onlyGivenNames -underBinder s1
  have h_s1 : Keeps kb s1 := by
    unfold s1
    with_reducible apply State.setReg_keeps
    assumption
  try clear_value s1
  refine Keeps.ite ?_ ?_
  · assumption
  · extract_lets +onlyGivenNames -underBinder s2
    have h_s2 : Keeps kb s2 := by
      unfold s2
      refine Keeps.foldl (fun t x ht => ?_) ?_
      · try simp -zeta only []
        with_reducible apply State.setReg_keeps
        assumption
      · assumption
    try clear_value s2
    refine Keeps.upd ?_ rfl rfl
    assumption

theorem actShunt_keeps {kb : State} (s : State) (h : Keeps kb s) (r : RegRow) (old : Word) (v : Word) :
    Keeps kb (actShunt s r old v) := by
  unfold actShunt
  extract_lets +onlyGivenNames -underBinder s1
  have h_s1 : Keeps kb s1 := by
    unfold s1
    with_reducible apply State.setReg_keeps
    assumption
  try clear_value s1
  refine Keeps.ite ?_ ?_
  · assumption
  · extract_lets +onlyGivenNames -underBinder x
    try clear_value x
    extract_lets +onlyGivenNames -underBinder n
    try clear_value n
    extract_lets +onlyGivenNames -underBinder pset
    try clear_value pset
    refine Keeps.ite ?_ ?_
    · with_reducible apply State.refuseCfg_keeps
      assumption
    · extract_lets +onlyGivenNames -underBinder s2
      have h_s2 : Keeps kb s2 := by
        unfold s2
        with_reducible apply State.shunt_keeps
        assumption
      try clear_value s2
      with_reducible apply State.setReg_keeps
      refine Keeps.upd ?_ rfl rfl
      assumption

theorem execExpCyclesWrite_keeps {kb : State} (path : Path) (v : Word) (s : State) (h : Keeps kb s) :
    KeepsOut kb (execExpCyclesWrite path v s) := by
  unfold execExpCyclesWrite
  refine Keeps.next ?_
  with_reducible apply State.hostWrite_keeps
  · assumption
  · intro z0 z1 z2 z3 hz
    try simp -zeta only []
    with_reducible apply actExpCycles_keeps
    assumption

theorem execExpCfgWrite_keeps {kb : State} (path : Path) (v : Word) (s : State) (h : Keeps kb s) :
    KeepsOut kb (execExpCfgWrite path v s) := by
  unfold execExpCfgWrite
  refine Keeps.next ?_
  with_reducible apply State.hostWrite_keeps
  · assumption
  · intro z0 z1 z2 z3 hz
    try simp -zeta only []
    with_reducible apply actExpCfg_keeps
    assumption

theorem execHistClear_keeps {kb : State} (path : Path) (v : Word) (s : State) (h : Keeps kb s) :
    KeepsOut kb (execHistClear path v s) := by
  unfold execHistClear
  refine Keeps.next ?_
  with_reducible apply State.hostWrite_keeps
  · assumption
  · intro z0 z1 z2 z3 hz
    try simp -zeta only []
    with_reducible apply actSchCtrl_keeps
    assumption

theorem execShuntRequest_keeps {kb : State} (path : Path) (v : Word) (s : State) (h : Keeps kb s) :
    KeepsOut kb (execShuntRequest path v s) := by
  unfold execShuntRequest
  refine Keeps.next ?_
  with_reducible apply State.hostWrite_keeps
  · assumption
  · intro z0 z1 z2 z3 hz
    try simp -zeta only []
    with_reducible apply actShunt_keeps
    assumption

end Sys2Proof.Machine
end

