-- ==== Sys2Proof/Laws/Keeps/Boundary.lean ====
section
/-! SUPPORT. What the functions of Machine/Boundary.lean keep (Laws/Keeps.lean). -/

namespace Sys2Proof.Machine

theorem State.splitRunning_keeps {kb : State} (s : State) (h : Keeps kb s) :
    Keeps kb (State.splitRunning s) := by
  unfold State.splitRunning
  refine Keeps.foldl (fun t x ht => ?_) ?_
  · try simp -zeta only []
    split
    · with_reducible apply State.updTask_keeps
      with_reducible apply State.spend_keeps
      assumption
    · assumption
  · assumption

theorem State.averages_keeps {kb : State} (s : State) (h : Keeps kb s) :
    Keeps kb (State.averages s) := by
  unfold State.averages
  extract_lets +onlyGivenNames -underBinder s0
  have h_s0 : Keeps kb s0 := by
    unfold s0
    with_reducible apply State.splitRunning_keeps
    assumption
  try clear_value s0
  extract_lets +onlyGivenNames -underBinder sh
  try clear_value sh
  extract_lets +onlyGivenNames -underBinder s1
  have h_s1 : Keeps kb s1 := by
    unfold s1
    refine Keeps.foldl (fun t x ht => ?_) ?_
    · try simp -zeta only []
      extract_lets +onlyGivenNames -underBinder last
      try clear_value last
      extract_lets +onlyGivenNames -underBinder avg
      try clear_value avg
      extract_lets +onlyGivenNames -underBinder new
      try clear_value new
      with_reducible apply State.setReg_keeps
      with_reducible apply State.setFld_keeps
      assumption
    · assumption
  try clear_value s1
  refine Keeps.upd ?_ rfl rfl
  assumption

theorem State.rebalanceSet_keeps {kb : State} (s : State) (h : Keeps kb s) (pset : Nat) :
    Keeps kb (State.rebalanceSet s pset) := by
  unfold State.rebalanceSet
  extract_lets +onlyGivenNames -underBinder l
  try clear_value l
  split
  · extract_lets +onlyGivenNames -underBinder thr
    try clear_value thr
    extract_lets +onlyGivenNames -underBinder gap
    try clear_value gap
    refine Keeps.ite ?_ ?_
    · assumption
    · extract_lets +onlyGivenNames -underBinder xs
      try clear_value xs
      refine Keeps.foldl (fun t x ht => ?_) ?_
      · try simp -zeta only []
        with_reducible apply State.shunt_keeps
        assumption
      · assumption
  · assumption

theorem State.rebalance_keeps {kb : State} (s : State) (h : Keeps kb s) :
    Keeps kb (State.rebalance s) := by
  unfold State.rebalance
  refine Keeps.ite ?_ ?_
  · refine Keeps.foldl (fun t x ht => ?_) ?_
    · try simp -zeta only []
      with_reducible apply State.rebalanceSet_keeps
      assumption
    · assumption
  · assumption

theorem State.applySched_keeps {kb : State} (s : State) (h : Keeps kb s) :
    Keeps kb (State.applySched s) := by
  unfold State.applySched
  extract_lets +onlyGivenNames -underBinder parts
  try clear_value parts
  extract_lets +onlyGivenNames -underBinder src0 s1
  have h_s1 : Keeps kb s1 := by
    unfold s1
    refine Keeps.upd ?_ rfl rfl
    assumption
  try clear_value s1
  refine Keeps.foldl (fun t x ht => ?_) ?_
  · try simp -zeta only []
    extract_lets +onlyGivenNames -underBinder on
    try clear_value on
    extract_lets +onlyGivenNames -underBinder was
    try clear_value was
    extract_lets +onlyGivenNames -underBinder src0 v
    have h_v : Keeps kb v := by
      unfold v
      refine Keeps.upd ?_ rfl rfl
      assumption
    try clear_value v
    refine Keeps.ite ?_ ?_
    · with_reducible apply State.setPlaced_keeps
      assumption
    · assumption
  · assumption

theorem State.applyMix_keeps {kb : State} (s : State) (h : Keeps kb s) :
    Keeps kb (State.applyMix s) := by
  unfold State.applyMix
  extract_lets +onlyGivenNames -underBinder parts
  try clear_value parts
  extract_lets +onlyGivenNames -underBinder nch
  try clear_value nch
  extract_lets +onlyGivenNames -underBinder sel
  try clear_value sel
  extract_lets +onlyGivenNames -underBinder src0 t
  have h_t : Keeps kb t := by
    unfold t
    refine Keeps.upd ?_ rfl rfl
    assumption
  try clear_value t
  with_reducible apply State.setFld_keeps
  assumption

theorem State.applyAttrs_keeps {kb : State} (s : State) (h : Keeps kb s) :
    Keeps kb (State.applyAttrs s) := by
  unfold State.applyAttrs
  refine Keeps.upd ?_ rfl rfl
  assumption

theorem State.hostInput_keeps {kb : State} (s : State) (h : Keeps kb s) (k : Nat) (m : Nat) (b : List Byte) :
    Keeps kb (State.hostInput s k m b) := by
  unfold State.hostInput
  extract_lets +onlyGivenNames -underBinder cfg
  try clear_value cfg
  refine Keeps.ite ?_ ?_
  · assumption
  · extract_lets +onlyGivenNames -underBinder c
    try clear_value c
    extract_lets +onlyGivenNames -underBinder good
    try clear_value good
    extract_lets +onlyGivenNames -underBinder s1
    have h_s1 : Keeps kb s1 := by
      unfold s1
      refine Keeps.ite ?_ ?_
      · assumption
      · with_reducible apply State.bump_keeps
        assumption
    try clear_value s1
    refine Keeps.foldl (fun t x ht => ?_) ?_
    · try simp -zeta only []
      refine Keeps.foldl (fun t x ht => ?_) ?_
      · try simp -zeta only []
        extract_lets +onlyGivenNames -underBinder w
        try clear_value w
        with_reducible apply State.portSample_keeps
        assumption
      · assumption
    · assumption

theorem State.hostInputs_keeps {kb : State} (s : State) (h : Keeps kb s) (m : Nat) (recs : List (List Byte)) :
    Keeps kb (State.hostInputs s m recs) := by
  unfold State.hostInputs
  refine Keeps.foldl (fun t x ht => ?_) ?_
  · try simp -zeta only []
    with_reducible apply State.hostInput_keeps
    assumption
  · assumption

theorem State.releasedEvent_keeps {kb : State} (s : State) (h : Keeps kb s) (n : Nat) (ex moved : Bool) (r : Released) :
    Keeps kb (State.releasedEvent s n ex moved r) := by
  unfold State.releasedEvent
  refine Keeps.ite ?_ ?_
  · with_reducible apply State.putBack_keeps
    assumption
  · with_reducible apply State.poolEvent_keeps
    refine Keeps.ite ?_ ?_
    · assumption
    · with_reducible apply State.reportRelease_keeps
      assumption

theorem State.poolEvents_keeps {kb : State} (s : State) (h : Keeps kb s) (n : Nat) (ex moved : Bool) (l : List Released) :
    Keeps kb (State.poolEvents s n ex moved l) := by
  unfold State.poolEvents
  refine Keeps.foldl (fun t x ht => ?_) ?_
  · try simp -zeta only []
    with_reducible apply State.releasedEvent_keeps
    assumption
  · assumption

theorem State.pruneTasks_keeps {kb : State} (s : State) (h : Keeps kb s) (b : Nat) :
    Keeps kb (State.pruneTasks s b) := by
  unfold State.pruneTasks
  refine Keeps.upd ?_ rfl rfl
  assumption

theorem State.boundaryCounts_keeps {kb : State} (s : State) (h : Keeps kb s) (p : Nat) :
    Keeps kb (State.boundaryCounts s p) := by
  unfold State.boundaryCounts
  extract_lets +onlyGivenNames -underBinder live
  try clear_value live
  extract_lets +onlyGivenNames -underBinder v
  try clear_value v
  with_reducible apply State.count_keeps
  with_reducible apply State.count_keeps
  with_reducible apply State.count_keeps
  with_reducible apply State.count_keeps
  with_reducible apply State.count_keeps
  with_reducible apply State.count_keeps
  assumption

theorem State.allocate_keeps {kb : State} (s : State) (h : Keeps kb s) (n : Nat) :
    Keeps kb (State.allocate s n) := by
  unfold State.allocate
  extract_lets +onlyGivenNames -underBinder s0
  have h_s0 : Keeps kb s0 := by
    unfold s0
    with_reducible apply State.applyParts_keeps
    assumption
  try clear_value s0
  extract_lets +onlyGivenNames -underBinder r
  have h_r : Keeps kb r.1 := by
    unfold r
    with_reducible apply State.ttRelease_keeps
    assumption
  try clear_value r
  extract_lets +onlyGivenNames -underBinder s1
  have h_s1 : Keeps kb s1 := by
    unfold s1
    with_reducible apply State.applyHostWrites_keeps
    with_reducible apply State.trims_keeps
    with_reducible apply State.drainPool_keeps
    with_reducible apply State.poolEnds_keeps
    assumption
  try clear_value s1
  extract_lets +onlyGivenNames -underBinder moved
  try clear_value moved
  extract_lets +onlyGivenNames -underBinder src0 s2
  have h_s2 : Keeps kb s2 := by
    unfold s2
    refine Keeps.upd ?_ rfl rfl
    assumption
  try clear_value s2
  with_reducible apply State.poolEvents_keeps
  with_reducible apply State.poolEvents_keeps
  assumption

theorem execBoundaryStep_keeps {kb : State} (recs : List (List Byte)) (s : State) (h : Keeps kb s) :
    KeepsOut kb (execBoundaryStep recs s) := by
  unfold execBoundaryStep
  extract_lets +onlyGivenNames -underBinder p
  try clear_value p
  extract_lets +onlyGivenNames -underBinder n
  try clear_value n
  refine Keeps.iteO ?_ ?_
  · refine Keeps.next ?_
    assumption
  · extract_lets +onlyGivenNames -underBinder src0 src1 src2 s0
    have h_s0 : Keeps kb s0 := by
      unfold s0
      refine Keeps.upd ?_ rfl rfl
      assumption
    try clear_value s0
    extract_lets +onlyGivenNames -underBinder s1
    have h_s1 : Keeps kb s1 := by
      unfold s1
      with_reducible apply State.applyMix_keeps
      with_reducible apply State.captureSets_keeps
      with_reducible apply State.applyAttrs_keeps
      with_reducible apply State.applySpf_keeps
      with_reducible apply State.applySched_keeps
      with_reducible apply State.applyHold_keeps
      with_reducible apply State.averages_keeps
      assumption
    try clear_value s1
    extract_lets +onlyGivenNames -underBinder s2
    have h_s2 : Keeps kb s2 := by
      unfold s2
      with_reducible apply State.settle_keeps
      with_reducible apply State.pruneTasks_keeps
      assumption
    try clear_value s2
    extract_lets +onlyGivenNames -underBinder s3
    have h_s3 : Keeps kb s3 := by
      unfold s3
      split
      · refine Keeps.ite ?_ ?_
        · with_reducible apply State.discardEntries_keeps
          assumption
        · assumption
      · assumption
    try clear_value s3
    extract_lets +onlyGivenNames -underBinder s4
    have h_s4 : Keeps kb s4 := by
      unfold s4
      with_reducible apply State.reportPool_keeps
      with_reducible apply State.rebalance_keeps
      with_reducible apply State.allocate_keeps
      assumption
    try clear_value s4
    extract_lets +onlyGivenNames -underBinder s5
    have h_s5 : Keeps kb s5 := by
      unfold s5
      refine Keeps.ite ?_ ?_
      · with_reducible apply State.captureClose_keeps
        assumption
      · assumption
    try clear_value s5
    extract_lets +onlyGivenNames -underBinder s6
    have h_s6 : Keeps kb s6 := by
      unfold s6
      refine Keeps.ite ?_ ?_
      · with_reducible apply State.hostInputs_keeps
        assumption
      · assumption
    try clear_value s6
    refine Keeps.next ?_
    with_reducible apply State.boundaryCounts_keeps
    assumption

theorem execExpressStep_keeps {kb : State} (s : State) (h : Keeps kb s) :
    KeepsOut kb (execExpressStep s) := by
  unfold execExpressStep
  extract_lets +onlyGivenNames -underBinder p
  try clear_value p
  refine Keeps.iteO ?_ ?_
  · refine Keeps.next ?_
    assumption
  · extract_lets +onlyGivenNames -underBinder src0 s0
    have h_s0 : Keeps kb s0 := by
      unfold s0
      refine Keeps.upd ?_ rfl rfl
      assumption
    try clear_value s0
    extract_lets +onlyGivenNames -underBinder r
    have h_r : Keeps kb r.1 := by
      unfold r
      with_reducible apply State.ttRelease_keeps
      with_reducible apply State.setBit_keeps
      assumption
    try clear_value r
    refine Keeps.next ?_
    with_reducible apply State.reportPool_keeps
    with_reducible apply State.poolEvents_keeps
    assumption

end Sys2Proof.Machine
end

