-- ==== Sys2Proof/Laws/Keeps/CoreControl.lean ====
section
/-! SUPPORT. What the functions of Machine/CoreControl.lean keep (Laws/Keeps.lean). -/

namespace Sys2Proof.Machine

theorem execCoreEventTake_keeps {kb : State} (n : Fin 34) (s : State) (h : Keeps kb s) :
    KeepsOut kb (execCoreEventTake n s) := by
  unfold execCoreEventTake
  extract_lets +onlyGivenNames -underBinder c
  try clear_value c
  refine Keeps.iteO ?_ ?_
  · refine Keeps.next ?_
    assumption
  · split
    · refine Keeps.next ?_
      with_reducible apply State.takeEvent_keeps
      assumption
    · refine Keeps.next ?_
      assumption

theorem State.issueIllegal_keeps {kb : State} (s : State) (h : Keeps kb s) (n : Nat) :
    Keeps kb (State.issueIllegal s n) := by
  unfold State.issueIllegal
  refine Keeps.ite ?_ ?_
  · assumption
  · extract_lets +onlyGivenNames -underBinder s0
    have h_s0 : Keeps kb s0 := by
      unfold s0
      with_reducible apply State.coreMemCheck_keeps
      assumption
    try clear_value s0
    extract_lets +onlyGivenNames -underBinder c
    try clear_value c
    refine Keeps.ite ?_ ?_
    · with_reducible apply State.blank_keeps
      with_reducible apply State.viol_keeps
      assumption
    · with_reducible apply State.blank_keeps
      with_reducible apply State.ill_keeps
      assumption

theorem execIllegalBundle_keeps {kb : State} (n : Fin 34) (bits : BitVec 64) (s : State) (h : Keeps kb s) :
    KeepsOut kb (execIllegalBundle n bits s) := by
  unfold execIllegalBundle
  split
  · refine Keeps.next ?_
    with_reducible apply State.issueIllegal_keeps
    assumption
  · refine Keeps.iteO ?_ ?_
    · refine Keeps.next ?_
      assumption
    · refine Keeps.next ?_
      with_reducible apply State.issue_keeps
      assumption

theorem actDoorbell_keeps {kb : State} (n : Nat) (s : State) (h : Keeps kb s) (r : RegRow) (old : Word) (v : Word) :
    Keeps kb (actDoorbell n s r old v) := by
  unfold actDoorbell
  with_reducible apply State.coreEvent_keeps
  with_reducible apply State.setReg_keeps
  assumption

theorem State.stepBundle_keeps {kb : State} (s : State) (h : Keeps kb s) (n : Nat) (ax : Access) (ay : Access) :
    Keeps kb (State.stepBundle s n ax ay) := by
  unfold State.stepBundle
  split
  · with_reducible apply State.issue_keeps
    assumption
  · with_reducible apply State.issueIllegal_keeps
    assumption

theorem actVcCtrl_keeps {kb : State} (n : Nat) (ax : Access) (ay : Access) (s : State) (h : Keeps kb s) (r : RegRow) (old : Word) (v : Word) :
    Keeps kb (actVcCtrl n ax ay s r old v) := by
  unfold actVcCtrl
  extract_lets +onlyGivenNames -underBinder s1
  have h_s1 : Keeps kb s1 := by
    unfold s1
    with_reducible apply State.setReg_keeps
    assumption
  try clear_value s1
  extract_lets +onlyGivenNames -underBinder halted
  try clear_value halted
  extract_lets +onlyGivenNames -underBinder t u s2
  have h_t : Keeps kb t := by
    unfold t
    with_reducible apply State.updCore_keeps
    assumption
  try clear_value t
  have h_u : Keeps kb u := by
    unfold u
    split
    · refine Keeps.ite ?_ ?_
      · with_reducible apply State.takeEvent_keeps
        assumption
      · assumption
    · assumption
  try clear_value u
  have h_s2 : Keeps kb s2 := by
    unfold s2
    refine Keeps.ite ?_ ?_
    · with_reducible apply State.updCore_keeps
      with_reducible apply State.stepBundle_keeps
      with_reducible apply State.updCore_keeps
      assumption
    · assumption
  try clear_value s2
  refine Keeps.ite ?_ ?_
  · refine Keeps.ite ?_ ?_
    · assumption
    · with_reducible apply State.coreEvent_keeps
      assumption
  · refine Keeps.ite ?_ ?_
    · with_reducible apply State.updCore_keeps
      assumption
    · assumption

theorem actProgramLoad_keeps {kb : State} (n : Nat) (s : State) (h : Keeps kb s) (r : RegRow) (old : Word) (v : Word) :
    Keeps kb (actProgramLoad n s r old v) := by
  unfold actProgramLoad
  refine Keeps.ite ?_ ?_
  · with_reducible apply State.pageErr_keeps
    with_reducible apply State.bump_keeps
    assumption
  · extract_lets +onlyGivenNames -underBinder a
    try clear_value a
    extract_lets +onlyGivenNames -underBinder new
    try clear_value new
    extract_lets +onlyGivenNames -underBinder w
    try clear_value w
    with_reducible apply State.setReg_keeps
    with_reducible apply State.updCore_keeps
    with_reducible apply State.setReg_keeps
    assumption

theorem execDoorbellWrite_keeps {kb : State} (path : Path) (n : Fin 34) (v : Word) (s : State) (h : Keeps kb s) :
    KeepsOut kb (execDoorbellWrite path n v s) := by
  unfold execDoorbellWrite
  refine Keeps.next ?_
  with_reducible apply State.hostWrite_keeps
  · assumption
  · intro z0 z1 z2 z3 hz
    try simp -zeta only []
    with_reducible apply actDoorbell_keeps
    assumption

theorem execHaltRequest_keeps {kb : State} (path : Path) (n : Fin 34) (v : Word) (s : State) (h : Keeps kb s) :
    KeepsOut kb (execHaltRequest path n v s) := by
  unfold execHaltRequest
  refine Keeps.next ?_
  with_reducible apply State.hostWrite_keeps
  · assumption
  · intro z0 z1 z2 z3 hz
    try simp -zeta only []
    with_reducible apply actVcCtrl_keeps
    assumption

theorem execSingleStep_keeps {kb : State} (path : Path) (n : Fin 34) (v : Word) (ax : Access) (ay : Access) (s : State) (h : Keeps kb s) :
    KeepsOut kb (execSingleStep path n v ax ay s) := by
  unfold execSingleStep
  refine Keeps.next ?_
  with_reducible apply State.hostWrite_keeps
  · assumption
  · intro z0 z1 z2 z3 hz
    try simp -zeta only []
    with_reducible apply actVcCtrl_keeps
    assumption

theorem execProgramLoad_keeps {kb : State} (path : Path) (n : Fin 34) (v : Word) (s : State) (h : Keeps kb s) :
    KeepsOut kb (execProgramLoad path n v s) := by
  unfold execProgramLoad
  refine Keeps.next ?_
  with_reducible apply State.hostWrite_keeps
  · assumption
  · intro z0 z1 z2 z3 hz
    try simp -zeta only []
    with_reducible apply actProgramLoad_keeps
    assumption

theorem execCoreLogicCheckFail_keeps {kb : State} (n : Fin 34) (s : State) (h : Keeps kb s) :
    KeepsOut kb (execCoreLogicCheckFail n s) := by
  unfold execCoreLogicCheckFail
  refine Keeps.iteO ?_ ?_
  · refine Keeps.next ?_
    assumption
  · extract_lets +onlyGivenNames -underBinder d
    have h_d : Keeps kb d.st := by
      unfold d
      with_reducible apply State.detect_keeps
      assumption
    try clear_value d
    refine Keeps.next ?_
    with_reducible apply State.coreFault_keeps
    with_reducible apply State.pageErr_keeps
    assumption

theorem State.idleCycles_keeps {kb : State} (s : State) (h : Keeps kb s) (n : Nat) (k : Nat) :
    Keeps kb (State.idleCycles s n k) := by
  unfold State.idleCycles
  refine Keeps.ite ?_ ?_
  · with_reducible apply State.holdTicks_keeps
    assumption
  · assumption

theorem execCoreUeTimeout_keeps {kb : State} (n : Fin 34) (idle : Nat) (s : State) (h : Keeps kb s) :
    KeepsOut kb (execCoreUeTimeout n idle s) := by
  unfold execCoreUeTimeout
  extract_lets +onlyGivenNames -underBinder s1
  have h_s1 : Keeps kb s1 := by
    unfold s1
    with_reducible apply State.idleCycles_keeps
    assumption
  try clear_value s1
  split
  · refine Keeps.iteO ?_ ?_
    · refine Keeps.next ?_
      with_reducible apply State.coreFault_keeps
      assumption
    · refine Keeps.next ?_
      assumption
  · refine Keeps.next ?_
    assumption

theorem execAbortTimeout_keeps {kb : State} (n : Fin 34) (s : State) (h : Keeps kb s) :
    KeepsOut kb (execAbortTimeout n s) := by
  unfold execAbortTimeout
  extract_lets +onlyGivenNames -underBinder c
  try clear_value c
  refine Keeps.iteO ?_ ?_
  · refine Keeps.next ?_
    assumption
  · extract_lets +onlyGivenNames -underBinder d
    have h_d : Keeps kb d.st := by
      unfold d
      with_reducible apply State.detect_keeps
      assumption
    try clear_value d
    refine Keeps.iteO ?_ ?_
    · refine Keeps.next ?_
      with_reducible apply State.coreFault_keeps
      with_reducible apply State.pageErr_keeps
      assumption
    · refine Keeps.next ?_
      assumption

theorem execCoreRecall_keeps {kb : State} (n : Fin 34) (s : State) (h : Keeps kb s) :
    KeepsOut kb (execCoreRecall n s) := by
  unfold execCoreRecall
  extract_lets +onlyGivenNames -underBinder c
  try clear_value c
  refine Keeps.iteO ?_ ?_
  · refine Keeps.next ?_
    assumption
  · extract_lets +onlyGivenNames -underBinder mine
    try clear_value mine
    extract_lets +onlyGivenNames -underBinder src0 s0
    have h_s0 : Keeps kb s0 := by
      unfold s0
      refine Keeps.ite ?_ ?_
      · refine Keeps.upd ?_ rfl rfl
        assumption
      · assumption
    try clear_value s0
    extract_lets +onlyGivenNames -underBinder s1
    have h_s1 : Keeps kb s1 := by
      unfold s1
      with_reducible apply State.coreEvent_keeps
      with_reducible apply State.updCore_keeps
      assumption
    try clear_value s1
    refine Keeps.iteO ?_ ?_
    · refine Keeps.next ?_
      assumption
    · refine Keeps.next ?_
      with_reducible apply State.coreLeaves_keeps
      assumption

theorem execSpareEnterService_keeps {kb : State} (n : Fin 34) (upset : Upset) (s : State) (h : Keeps kb s) :
    KeepsOut kb (execSpareEnterService n upset s) := by
  unfold execSpareEnterService
  split
  · refine Keeps.next ?_
    assumption
  · extract_lets +onlyGivenNames -underBinder src
    extract_lets +onlyGivenNames -underBinder k
    have h_k : Keeps kb k.1 := by
      unfold k
      with_reducible apply State.coreMemCheck_keeps
      assumption
    try clear_value k
    refine Keeps.iteO ?_ ?_
    · extract_lets +onlyGivenNames -underBinder s1
      have h_s1 : Keeps kb s1 := by
        unfold s1
        with_reducible apply State.pageErr_keeps
        with_reducible apply State.updCore_keeps
        assumption
      try clear_value s1
      refine Keeps.next ?_
      with_reducible apply State.showSpares_keeps
      with_reducible apply State.placeElsewhere_keeps
      assumption
    · extract_lets +onlyGivenNames -underBinder s1
      have h_s1 : Keeps kb s1 := by
        unfold s1
        with_reducible apply State.setReg_keeps
        with_reducible apply State.updCore_keeps
        assumption
      try clear_value s1
      extract_lets +onlyGivenNames -underBinder s2
      have h_s2 : Keeps kb s2 := by
        unfold s2
        with_reducible apply State.applyHold_keeps
        with_reducible apply State.enterService_keeps
        assumption
      try clear_value s2
      refine Keeps.next ?_
      refine Keeps.upd ?_ rfl rfl
      assumption

end Sys2Proof.Machine
end

