-- ==== Sys2Proof/Laws/Keeps/Memory.lean ====
section
/-! SUPPORT. What the functions of Machine/Memory.lean keep (Laws/Keeps.lean). -/

namespace Sys2Proof.Machine

theorem execConcourseWriteback_keeps {kb : State} (w : BitVec 21) (s : State) (h : Keeps kb s) :
    KeepsOut kb (execConcourseWriteback w s) := by
  unfold execConcourseWriteback
  refine Keeps.iteO ?_ ?_
  · refine Keeps.next ?_
    extract_lets +onlyGivenNames -underBinder src
    have h_src : Keeps kb src := by
      unfold src
      with_reducible apply State.count_keeps
      assumption
    refine Keeps.upd ?_ rfl rfl
    assumption
  · refine Keeps.next ?_
    assumption

theorem State.conRefuse_keeps {kb : State} (s : State) (h : Keeps kb s) :
    Keeps kb (State.conRefuse s) := by
  unfold State.conRefuse
  with_reducible apply State.pageErrFlag_keeps
  with_reducible apply State.setBit_keeps
  assumption

theorem State.showMode_keeps {kb : State} (s : State) (h : Keeps kb s) :
    Keeps kb (State.showMode s) := by
  unfold State.showMode
  refine Keeps.ite ?_ ?_
  · assumption
  · with_reducible apply State.setFld_keeps
    assumption

theorem actConCtrl_keeps {kb : State} (s : State) (h : Keeps kb s) (r : RegRow) (old : Word) (v : Word) :
    Keeps kb (actConCtrl s r old v) := by
  unfold actConCtrl
  refine Keeps.ite ?_ ?_
  · with_reducible apply State.conRefuse_keeps
    assumption
  · with_reducible apply State.showMode_keeps
    with_reducible apply State.setReg_keeps
    assumption

theorem execTestModeWrite_keeps {kb : State} (path : Path) (v : Word) (s : State) (h : Keeps kb s) :
    KeepsOut kb (execTestModeWrite path v s) := by
  unfold execTestModeWrite
  refine Keeps.next ?_
  with_reducible apply State.hostWrite_keeps
  · assumption
  · intro z0 z1 z2 z3 hz
    try simp -zeta only []
    with_reducible apply actConCtrl_keeps
    assumption

theorem actConAttr_keeps {kb : State} (i : Nat) (s : State) (h : Keeps kb s) (r : RegRow) (old : Word) (v : Word) :
    Keeps kb (actConAttr i s r old v) := by
  unfold actConAttr
  refine Keeps.ite ?_ ?_
  · with_reducible apply State.conRefuse_keeps
    assumption
  · with_reducible apply State.setReg_keeps
    assumption

theorem execAttributeWrite_keeps {kb : State} (path : Path) (i : Fin 64) (v : Word) (s : State) (h : Keeps kb s) :
    KeepsOut kb (execAttributeWrite path i v s) := by
  unfold execAttributeWrite
  refine Keeps.next ?_
  with_reducible apply State.hostWrite_keeps
  · assumption
  · intro z0 z1 z2 z3 hz
    try simp -zeta only []
    with_reducible apply actConAttr_keeps
    assumption

theorem State.setBtPos_keeps {kb : State} (s : State) (h : Keeps kb s) (pos : Nat) (step : Nat) :
    Keeps kb (State.setBtPos s pos step) := by
  unfold State.setBtPos
  with_reducible apply State.setReg_keeps
  assumption

theorem execBackgroundTestStart_keeps {kb : State} (s : State) (h : Keeps kb s) :
    KeepsOut kb (execBackgroundTestStart s) := by
  unfold execBackgroundTestStart
  extract_lets +onlyGivenNames -underBinder p
  try clear_value p
  refine Keeps.iteO ?_ ?_
  · refine Keeps.next ?_
    assumption
  · extract_lets +onlyGivenNames -underBinder pos
    try clear_value pos
    extract_lets +onlyGivenNames -underBinder src0 s1
    have h_s1 : Keeps kb s1 := by
      unfold s1
      refine Keeps.upd ?_ rfl rfl
      assumption
    try clear_value s1
    split
    · refine Keeps.next ?_
      assumption
    · extract_lets +onlyGivenNames -underBinder pos'
      try clear_value pos'
      extract_lets +onlyGivenNames -underBinder s2
      have h_s2 : Keeps kb s2 := by
        unfold s2
        with_reducible apply State.setBtPos_keeps
        assumption
      try clear_value s2
      refine Keeps.next ?_
      refine Keeps.upd ?_ rfl rfl
      assumption

theorem State.marchFailure_keeps {kb : State} (s : State) (h : Keeps kb s) (bank : Nat) (q : Nat) (word : Nat) (bit : Nat) (inj : Bool) :
    Keeps kb (State.marchFailure s bank q word bit inj) := by
  unfold State.marchFailure
  extract_lets +onlyGivenNames -underBinder t
  have h_t : Keeps kb t := by
    unfold t
    with_reducible apply State.raise_keeps
    with_reducible apply State.bump_keeps
    with_reducible apply State.setReg_keeps
    with_reducible apply State.logError_keeps
    assumption
  try clear_value t
  refine Keeps.ite ?_ ?_
  · with_reducible apply State.queueRebuild_keeps
    assumption
  · assumption

theorem State.marchOver_keeps {kb : State} (s : State) (h : Keeps kb s) (bank : Nat) (q : Nat) (fail : Option (Nat × Nat)) :
    Keeps kb (State.marchOver s bank q fail).1 := by
  unfold State.marchOver
  extract_lets +onlyGivenNames -underBinder k
  have h_k : Keeps kb k.st := by
    unfold k
    with_reducible apply State.check_keeps
    assumption
  try clear_value k
  refine Keeps.iteP (p := Prod.fst) ?_ ?_
  · split
    · with_reducible apply State.marchFailure_keeps
      assumption
    · extract_lets +onlyGivenNames -underBinder dw
      have h_dw : Keeps kb dw.2 := by
        unfold dw
        with_reducible apply State.draw_keeps
        assumption
      try clear_value dw
      extract_lets +onlyGivenNames -underBinder db
      have h_db : Keeps kb db.2 := by
        unfold db
        with_reducible apply State.draw_keeps
        assumption
      try clear_value db
      with_reducible apply State.marchFailure_keeps
      assumption
  · assumption

theorem execMarchDone_keeps {kb : State} (fail : Option (Fin 256 × Fin 137)) (s : State) (h : Keeps kb s) :
    KeepsOut kb (execMarchDone fail s) := by
  unfold execMarchDone
  split
  · refine Keeps.next ?_
    assumption
  · extract_lets +onlyGivenNames -underBinder s1
    have h_s1 : Keeps kb s1 := by
      unfold s1
      with_reducible apply State.marchOver_keeps
      assumption
    try clear_value s1
    extract_lets +onlyGivenNames -underBinder s2
    have h_s2 : Keeps kb s2 := by
      unfold s2
      with_reducible apply State.setBtPos_keeps
      with_reducible apply State.count_keeps
      with_reducible apply State.bump_keeps
      assumption
    try clear_value s2
    refine Keeps.next ?_
    refine Keeps.upd ?_ rfl rfl
    assumption

theorem execBackgroundTestTimeout_keeps {kb : State} (s : State) (h : Keeps kb s) :
    KeepsOut kb (execBackgroundTestTimeout s) := by
  unfold execBackgroundTestTimeout
  refine Keeps.iteO ?_ ?_
  · refine Keeps.next ?_
    assumption
  · extract_lets +onlyGivenNames -underBinder s1
    have h_s1 : Keeps kb s1 := by
      unfold s1
      with_reducible apply State.bump_keeps
      with_reducible apply State.setFld_keeps
      assumption
    try clear_value s1
    refine Keeps.next ?_
    refine Keeps.upd ?_ rfl rfl
    assumption

theorem State.stopTest_keeps {kb : State} (s : State) (h : Keeps kb s) :
    Keeps kb (State.stopTest s) := by
  unfold State.stopTest
  extract_lets +onlyGivenNames -underBinder s1
  have h_s1 : Keeps kb s1 := by
    unfold s1
    with_reducible apply State.setFld_keeps
    assumption
  try clear_value s1
  refine Keeps.upd ?_ rfl rfl
  assumption

theorem State.setBank_keeps {kb : State} (s : State) (h : Keeps kb s) (b : Nat) (st : Nat) (g : Nat) (j : Nat) :
    Keeps kb (State.setBank s b st g j) := by
  unfold State.setBank
  extract_lets +onlyGivenNames -underBinder t
  have h_t : Keeps kb t := by
    unfold t
    with_reducible apply State.setFld_keeps
    with_reducible apply State.setFld_keeps
    with_reducible apply State.setFld_keeps
    assumption
  try clear_value t
  with_reducible apply State.setFld_keeps
  assumption

theorem State.startRebuild_keeps {kb : State} (s : State) (h : Keeps kb s) (bank : Nat) (target : Nat) :
    Keeps kb (State.startRebuild s bank target) := by
  unfold State.startRebuild
  extract_lets +onlyGivenNames -underBinder g
  try clear_value g
  extract_lets +onlyGivenNames -underBinder j
  try clear_value j
  extract_lets +onlyGivenNames -underBinder s1
  have h_s1 : Keeps kb s1 := by
    unfold s1
    with_reducible apply State.setFld_keeps
    with_reducible apply State.setBank_keeps
    assumption
  try clear_value s1
  extract_lets +onlyGivenNames -underBinder s2
  have h_s2 : Keeps kb s2 := by
    unfold s2
    with_reducible apply State.setReg_keeps
    assumption
  try clear_value s2
  refine Keeps.upd ?_ rfl rfl
  assumption

theorem State.abortRebuild_keeps {kb : State} (s : State) (h : Keeps kb s) :
    Keeps kb (State.abortRebuild s) := by
  unfold State.abortRebuild
  extract_lets +onlyGivenNames -underBinder target
  try clear_value target
  extract_lets +onlyGivenNames -underBinder s1
  have h_s1 : Keeps kb s1 := by
    unfold s1
    with_reducible apply State.setBit_keeps
    with_reducible apply State.setFld_keeps
    with_reducible apply State.setBank_keeps
    assumption
  try clear_value s1
  refine Keeps.upd ?_ rfl rfl
  assumption

theorem State.commitRebuild_keeps {kb : State} (s : State) (h : Keeps kb s) :
    Keeps kb (State.commitRebuild s) := by
  unfold State.commitRebuild
  extract_lets +onlyGivenNames -underBinder old
  try clear_value old
  extract_lets +onlyGivenNames -underBinder target
  try clear_value target
  extract_lets +onlyGivenNames -underBinder g
  try clear_value g
  extract_lets +onlyGivenNames -underBinder j
  try clear_value j
  extract_lets +onlyGivenNames -underBinder inBank
  try clear_value inBank
  extract_lets +onlyGivenNames -underBinder parityIn
  try clear_value parityIn
  extract_lets +onlyGivenNames -underBinder src0 s1
  have h_s1 : Keeps kb s1 := by
    unfold s1
    refine Keeps.upd ?_ rfl rfl
    assumption
  try clear_value s1
  extract_lets +onlyGivenNames -underBinder s2
  have h_s2 : Keeps kb s2 := by
    unfold s2
    with_reducible apply State.setFld_keeps
    with_reducible apply State.setBank_keeps
    with_reducible apply State.setBank_keeps
    assumption
  try clear_value s2
  extract_lets +onlyGivenNames -underBinder s3
  have h_s3 : Keeps kb s3 := by
    unfold s3
    with_reducible apply State.raise_keeps
    with_reducible apply State.setBit_keeps
    assumption
  try clear_value s3
  refine Keeps.upd ?_ rfl rfl
  assumption

theorem State.rebuildReads_keeps {kb : State} (s : State) (h : Keeps kb s) (g : Nat) (row : Nat) (j : Nat) (upsets : List (Fin 9 × Upset)) :
    Keeps kb (State.rebuildReads s g row j upsets).1 := by
  unfold State.rebuildReads
  refine Keeps.foldlFst (fun t x ht => ?_) ?_
  · try simp -zeta only []
    refine Keeps.iteP (p := Prod.fst) ?_ ?_
    · assumption
    · extract_lets +onlyGivenNames -underBinder u
      try clear_value u
      extract_lets +onlyGivenNames -underBinder t
      have h_t : Keeps kb t := by
        unfold t
        with_reducible apply State.count_keeps
        assumption
      try clear_value t
      split
      · refine Keeps.iteP (p := Prod.fst) ?_ ?_
        · with_reducible apply State.conUe_keeps
          assumption
        · refine Keeps.iteP (p := Prod.fst) ?_ ?_
          · with_reducible apply State.conCheck_keeps
            assumption
          · assumption
      · refine Keeps.iteP (p := Prod.fst) ?_ ?_
        · with_reducible apply State.conUe_keeps
          assumption
        · assumption
  · assumption

theorem execRebuildRow_keeps {kb : State} (redo : Bool) (upsets : List (Fin 9 × Upset)) (s : State) (h : Keeps kb s) :
    KeepsOut kb (execRebuildRow redo upsets s) := by
  unfold execRebuildRow
  refine Keeps.iteO ?_ ?_
  · refine Keeps.next ?_
    assumption
  · refine Keeps.iteO ?_ ?_
    · refine Keeps.next ?_
      with_reducible apply State.bump_keeps
      assumption
    · extract_lets +onlyGivenNames -underBinder row
      try clear_value row
      extract_lets +onlyGivenNames -underBinder g
      try clear_value g
      extract_lets +onlyGivenNames -underBinder j
      try clear_value j
      extract_lets +onlyGivenNames -underBinder r
      have h_r : Keeps kb r.1 := by
        unfold r
        with_reducible apply State.rebuildReads_keeps
        assumption
      try clear_value r
      extract_lets +onlyGivenNames -underBinder s1
      have h_s1 : Keeps kb s1 := by
        unfold s1
        with_reducible apply State.count_keeps
        assumption
      try clear_value s1
      extract_lets +onlyGivenNames -underBinder s2
      have h_s2 : Keeps kb s2 := by
        unfold s2
        refine Keeps.ite ?_ ?_
        · split
          · refine Keeps.upd ?_ rfl rfl
            assumption
          · refine Keeps.upd ?_ rfl rfl
            assumption
        · assumption
      try clear_value s2
      extract_lets +onlyGivenNames -underBinder s3
      have h_s3 : Keeps kb s3 := by
        unfold s3
        with_reducible apply State.setFld_keeps
        assumption
      try clear_value s3
      refine Keeps.next ?_
      refine Keeps.ite ?_ ?_
      · with_reducible apply State.commitRebuild_keeps
        assumption
      · with_reducible apply State.setFld_keeps
        assumption

theorem execBankReturnDone_keeps {kb : State} (fail : Option (Fin 128 × Fin 256 × Fin 137)) (s : State) (h : Keeps kb s) :
    KeepsOut kb (execBankReturnDone fail s) := by
  unfold execBankReturnDone
  split
  · refine Keeps.next ?_
    assumption
  · extract_lets +onlyGivenNames -underBinder q
    try clear_value q
    extract_lets +onlyGivenNames -underBinder r
    have h_r : Keeps kb r.1 := by
      unfold r
      with_reducible apply State.marchOver_keeps
      assumption
    try clear_value r
    extract_lets +onlyGivenNames -underBinder s1
    have h_s1 : Keeps kb s1 := by
      unfold s1
      with_reducible apply State.setBank_keeps
      assumption
    try clear_value s1
    refine Keeps.next ?_
    refine Keeps.upd ?_ rfl rfl
    assumption

theorem State.scrubPassEnd_keeps {kb : State} (s : State) (h : Keeps kb s) (odecc0 : Nat) (odecc1 : Nat) :
    Keeps kb (State.scrubPassEnd s odecc0 odecc1) := by
  unfold State.scrubPassEnd
  extract_lets +onlyGivenNames -underBinder full
  try clear_value full
  extract_lets +onlyGivenNames -underBinder s1
  have h_s1 : Keeps kb s1 := by
    unfold s1
    with_reducible apply State.raise_keeps
    with_reducible apply State.setReg_keeps
    with_reducible apply State.bumpBy_keeps
    with_reducible apply State.bumpBy_keeps
    with_reducible apply State.bump_keeps
    assumption
  try clear_value s1
  extract_lets +onlyGivenNames -underBinder src0 s2
  have h_s2 : Keeps kb s2 := by
    unfold s2
    refine Keeps.upd ?_ rfl rfl
    assumption
  try clear_value s2
  refine Keeps.ite ?_ ?_
  · refine Keeps.upd ?_ rfl rfl
    assumption
  · assumption

theorem execScrubLine_keeps {kb : State} (errs : Nat) (odecc0 : Nat) (odecc1 : Nat) (s : State) (h : Keeps kb s) :
    KeepsOut kb (execScrubLine errs odecc0 odecc1 s) := by
  unfold execScrubLine
  extract_lets +onlyGivenNames -underBinder full
  try clear_value full
  extract_lets +onlyGivenNames -underBinder patrol
  try clear_value patrol
  refine Keeps.iteO ?_ ?_
  · refine Keeps.next ?_
    assumption
  · extract_lets +onlyGivenNames -underBinder line
    try clear_value line
    extract_lets +onlyGivenNames -underBinder r
    have h_r : Keeps kb r.1 := by
      unfold r
      with_reducible apply State.readLine_keeps
      assumption
    try clear_value r
    extract_lets +onlyGivenNames -underBinder s1
    have h_s1 : Keeps kb s1 := by
      unfold s1
      split
      · refine Keeps.ite ?_ ?_
        · assumption
        · with_reducible apply State.putDram_keeps
          with_reducible apply State.count_keeps
          assumption
      · assumption
    try clear_value s1
    extract_lets +onlyGivenNames -underBinder s2
    have h_s2 : Keeps kb s2 := by
      unfold s2
      refine Keeps.ite ?_ ?_
      · with_reducible apply State.setFld_keeps
        assumption
      · assumption
    try clear_value s2
    refine Keeps.next ?_
    refine Keeps.ite ?_ ?_
    · with_reducible apply State.scrubPassEnd_keeps
      assumption
    · with_reducible apply State.setFld_keeps
      assumption

theorem State.failUnits_keeps {kb : State} (s : State) (h : Keeps kb s) (page : Nat) (a : Nat) :
    Keeps kb (State.failUnits s page a) := by
  induction a generalizing s page with
  | zero =>
    rw [State.failUnits]
    assumption
  | succ k ih =>
    rw [State.failUnits]
    split
    · assumption
    · extract_lets +onlyGivenNames -underBinder src0 t
      have h_t : Keeps kb t := by
        unfold t
        refine Keeps.upd ?_ rfl rfl
        assumption
      try clear_value t
      apply ih
      with_reducible apply State.retirePage_keeps
      with_reducible apply State.bump_keeps
      assumption

theorem State.copyPage_keeps {kb : State} (s : State) (h : Keeps kb s) (page : Nat) (errs : List Nat) :
    Keeps kb (State.copyPage s page errs) := by
  unfold State.copyPage
  refine Keeps.foldl (fun t x ht => ?_) ?_
  · try simp -zeta only []
    extract_lets +onlyGivenNames -underBinder line
    try clear_value line
    extract_lets +onlyGivenNames -underBinder r
    have h_r : Keeps kb r.1 := by
      unfold r
      with_reducible apply State.readLine_keeps
      assumption
    try clear_value r
    extract_lets +onlyGivenNames -underBinder data
    try clear_value data
    extract_lets +onlyGivenNames -underBinder u
    have h_u : Keeps kb u := by
      unfold u
      with_reducible apply State.putDram_keeps
      assumption
    try clear_value u
    refine Keeps.upd ?_ rfl rfl
    assumption
  · assumption

theorem execPageRetireDone_keeps {kb : State} (page : BitVec 20) (failed : Nat) (errs : List Nat) (s : State) (h : Keeps kb s) :
    KeepsOut kb (execPageRetireDone page failed errs s) := by
  unfold execPageRetireDone
  extract_lets +onlyGivenNames -underBinder p
  try clear_value p
  refine Keeps.iteO ?_ ?_
  · refine Keeps.next ?_
    assumption
  · extract_lets +onlyGivenNames -underBinder s1
    have h_s1 : Keeps kb s1 := by
      unfold s1
      with_reducible apply State.showUnits_keeps
      with_reducible apply State.failUnits_keeps
      assumption
    try clear_value s1
    extract_lets +onlyGivenNames -underBinder mine
    try clear_value mine
    split
    · refine Keeps.next ?_
      refine Keeps.ite ?_ ?_
      · refine Keeps.upd ?_ rfl rfl
        assumption
      · assumption
    · extract_lets +onlyGivenNames -underBinder s2
      have h_s2 : Keeps kb s2 := by
        unfold s2
        with_reducible apply State.copyPage_keeps
        assumption
      try clear_value s2
      extract_lets +onlyGivenNames -underBinder was
      try clear_value was
      extract_lets +onlyGivenNames -underBinder src0 s3
      have h_s3 : Keeps kb s3 := by
        unfold s3
        refine Keeps.upd ?_ rfl rfl
        assumption
      try clear_value s3
      extract_lets +onlyGivenNames -underBinder s4
      have h_s4 : Keeps kb s4 := by
        unfold s4
        with_reducible apply State.showUnits_keeps
        with_reducible apply State.count_keeps
        with_reducible apply State.bump_keeps
        assumption
      try clear_value s4
      refine Keeps.next ?_
      refine Keeps.ite ?_ ?_
      · refine Keeps.upd ?_ rfl rfl
        assumption
      · assumption

end Sys2Proof.Machine
end

