-- ==== Sys2Proof/Laws/Keeps/ServicePort.lean ====
section
/-! SUPPORT. What the functions of Machine/ServicePort.lean keep (Laws/Keeps.lean). -/

namespace Sys2Proof.Machine

theorem State.svcFinish_keeps {kb : State} (s : State) (h : Keeps kb s) (aborted : Bool) (fail : Bool) (bad : Bool) :
    Keeps kb (State.svcFinish s aborted fail bad) := by
  unfold State.svcFinish
  extract_lets +onlyGivenNames -underBinder keep
  try clear_value keep
  extract_lets +onlyGivenNames -underBinder s1
  have h_s1 : Keeps kb s1 := by
    unfold s1
    with_reducible apply State.setReg_keeps
    assumption
  try clear_value s1
  extract_lets +onlyGivenNames -underBinder s2
  have h_s2 : Keeps kb s2 := by
    unfold s2
    with_reducible apply State.raise_keeps
    refine Keeps.ite ?_ ?_
    · assumption
    · with_reducible apply State.setFld_keeps
      assumption
  try clear_value s2
  extract_lets +onlyGivenNames -underBinder s3
  have h_s3 : Keeps kb s3 := by
    unfold s3
    refine Keeps.upd ?_ rfl rfl
    assumption
  try clear_value s3
  refine Keeps.ite ?_ ?_
  · with_reducible apply State.idle_keeps
    assumption
  · assumption

theorem State.svcRefuse_keeps {kb : State} (s : State) (h : Keeps kb s) :
    Keeps kb (State.svcRefuse s) := by
  unfold State.svcRefuse
  with_reducible apply State.raise_keeps
  with_reducible apply State.bump_keeps
  assumption

theorem State.stopIngress_keeps {kb : State} (s : State) (h : Keeps kb s) :
    Keeps kb (State.stopIngress s) := by
  unfold State.stopIngress
  extract_lets +onlyGivenNames -underBinder t
  try clear_value t
  extract_lets +onlyGivenNames -underBinder src0 src1 s1
  have h_src0 : Keeps kb src0 := by
    unfold src0
    with_reducible apply State.draining_keeps
    assumption
  have h_s1 : Keeps kb s1 := by
    unfold s1
    refine Keeps.upd ?_ rfl rfl
    assumption
  try clear_value s1
  with_reducible apply State.discardEntries_keeps
  assumption

theorem State.standbyCommit_keeps {kb : State} (s : State) (h : Keeps kb s) :
    Keeps kb (State.standbyCommit s) := by
  unfold State.standbyCommit
  refine Keeps.ite ?_ ?_
  · assumption
  · extract_lets +onlyGivenNames -underBinder src0 src1 s1
    have h_s1 : Keeps kb s1 := by
      unfold s1
      refine Keeps.upd ?_ rfl rfl
      assumption
    try clear_value s1
    extract_lets +onlyGivenNames -underBinder s2
    have h_s2 : Keeps kb s2 := by
      unfold s2
      refine Keeps.ite ?_ ?_
      · with_reducible apply State.stopIngress_keeps
        with_reducible apply State.setBit_keeps
        assumption
      · assumption
    try clear_value s2
    extract_lets +onlyGivenNames -underBinder s3
    have h_s3 : Keeps kb s3 := by
      unfold s3
      with_reducible apply State.setFld_keeps
      refine Keeps.ite ?_ ?_
      · with_reducible apply State.requestStop_keeps
        assumption
      · assumption
    try clear_value s3
    refine Keeps.ite ?_ ?_
    · assumption
    · with_reducible apply State.dacReleaseAll_keeps
      assumption

theorem State.svcBegin_keeps {kb : State} (s : State) (h : Keeps kb s) (op : Nat) (arg : Nat) :
    Keeps kb (State.svcBegin s op arg) := by
  unfold State.svcBegin
  refine Keeps.ite ?_ ?_
  · extract_lets +onlyGivenNames -underBinder n
    try clear_value n
    refine Keeps.ite ?_ ?_
    · refine Keeps.upd ?_ rfl rfl
      assumption
    · with_reducible apply State.updCore_keeps
      assumption
  · refine Keeps.ite ?_ ?_
    · with_reducible apply State.updCore_keeps
      assumption
    · refine Keeps.ite ?_ ?_
      · split
        · with_reducible apply State.startRebuild_keeps
          assumption
        · assumption
      · refine Keeps.ite ?_ ?_
        · with_reducible apply State.setBank_keeps
          assumption
        · refine Keeps.ite ?_ ?_
          · extract_lets +onlyGivenNames -underBinder s1
            have h_s1 : Keeps kb s1 := by
              unfold s1
              with_reducible apply State.retirePage_keeps
              assumption
            try clear_value s1
            refine Keeps.ite ?_ ?_
            · assumption
            · refine Keeps.upd ?_ rfl rfl
              assumption
          · refine Keeps.ite ?_ ?_
            · extract_lets +onlyGivenNames -underBinder src
              have h_src : Keeps kb src := by
                unfold src
                with_reducible apply State.setReg_keeps
                assumption
              refine Keeps.upd ?_ rfl rfl
              assumption
            · refine Keeps.ite ?_ ?_
              · with_reducible apply State.stopStreams_keeps
                assumption
              · refine Keeps.ite ?_ ?_
                · refine Keeps.ite ?_ ?_
                  · assumption
                  · with_reducible apply State.standbyCommit_keeps
                    assumption
                · refine Keeps.ite ?_ ?_
                  · refine Keeps.upd ?_ rfl rfl
                    assumption
                  · assumption

theorem State.svcStart_keeps {kb : State} (s : State) (h : Keeps kb s) (op : Nat) (arg : Nat) (auto : Bool) :
    Keeps kb (State.svcStart s op arg auto) := by
  unfold State.svcStart
  extract_lets +onlyGivenNames -underBinder done
  try clear_value done
  extract_lets +onlyGivenNames -underBinder s1
  have h_s1 : Keeps kb s1 := by
    unfold s1
    with_reducible apply State.setReg_keeps
    assumption
  try clear_value s1
  extract_lets +onlyGivenNames -underBinder s2
  have h_s2 : Keeps kb s2 := by
    unfold s2
    with_reducible apply State.setFld_keeps
    refine Keeps.ite ?_ ?_
    · with_reducible apply State.bump_keeps
      assumption
    · assumption
  try clear_value s2
  refine Keeps.ite ?_ ?_
  · with_reducible apply State.svcBegin_keeps
    refine Keeps.upd ?_ rfl rfl
    assumption
  · with_reducible apply State.svcFinish_keeps
    assumption

theorem actSvcCmd_keeps {kb : State} (s : State) (h : Keeps kb s) (x : RegRow) (x2 : Word) (v : Word) :
    Keeps kb (actSvcCmd s x x2 v) := by
  unfold actSvcCmd
  refine Keeps.ite ?_ ?_
  · with_reducible apply State.svcRefuse_keeps
    assumption
  · refine Keeps.ite ?_ ?_
    · assumption
    · with_reducible apply State.svcStart_keeps
      assumption

theorem actSvcArg_keeps {kb : State} (s : State) (h : Keeps kb s) (r : RegRow) (old : Word) (v : Word) :
    Keeps kb (actSvcArg s r old v) := by
  unfold actSvcArg
  refine Keeps.ite ?_ ?_
  · with_reducible apply State.svcRefuse_keeps
    assumption
  · with_reducible apply State.setReg_keeps
    assumption

theorem State.svcUndo_keeps {kb : State} (s : State) (h : Keeps kb s) :
    Keeps kb (State.svcUndo s) := by
  unfold State.svcUndo
  extract_lets +onlyGivenNames -underBinder op
  try clear_value op
  extract_lets +onlyGivenNames -underBinder arg
  try clear_value arg
  refine Keeps.ite ?_ ?_
  · refine Keeps.ite ?_ ?_
    · assumption
    · with_reducible apply State.updCore_keeps
      assumption
  · refine Keeps.ite ?_ ?_
    · with_reducible apply State.updCore_keeps
      assumption
    · refine Keeps.ite ?_ ?_
      · with_reducible apply State.abortRebuild_keeps
        assumption
      · refine Keeps.ite ?_ ?_
        · with_reducible apply State.setBank_keeps
          assumption
        · refine Keeps.ite ?_ ?_
          · with_reducible apply State.showUnits_keeps
            refine Keeps.upd ?_ rfl rfl
            assumption
          · refine Keeps.ite ?_ ?_
            · with_reducible apply State.setReg_keeps
              assumption
            · refine Keeps.ite ?_ ?_
              · refine Keeps.upd ?_ rfl rfl
                assumption
              · assumption

theorem State.svcAbort_keeps {kb : State} (s : State) (h : Keeps kb s) :
    Keeps kb (State.svcAbort s) := by
  unfold State.svcAbort
  refine Keeps.ite ?_ ?_
  · with_reducible apply State.setBit_keeps
    assumption
  · with_reducible apply State.svcFinish_keeps
    with_reducible apply State.svcUndo_keeps
    assumption

theorem actSvcAbort_keeps {kb : State} (s : State) (h : Keeps kb s) (x : RegRow) (x2 : Word) (v : Word) :
    Keeps kb (actSvcAbort s x x2 v) := by
  unfold actSvcAbort
  refine Keeps.ite ?_ ?_
  · assumption
  · refine Keeps.ite ?_ ?_
    · with_reducible apply State.svcAbort_keeps
      assumption
    · with_reducible apply State.svcRefuse_keeps
      assumption

theorem State.svcCommand_keeps {kb : State} (s : State) (h : Keeps kb s) (path : Path) (v : Word) (op : Nat) :
    Keeps kb (State.svcCommand s path v op) := by
  unfold State.svcCommand
  with_reducible apply State.hostWrite_keeps
  · assumption
  · intro z0 z1 z2 z3 hz
    try simp -zeta only []
    with_reducible apply actSvcCmd_keeps
    assumption

theorem execCoreRetire_keeps {kb : State} (path : Path) (v : Word) (s : State) (h : Keeps kb s) :
    KeepsOut kb (execCoreRetire path v s) := by
  unfold execCoreRetire
  refine Keeps.next ?_
  with_reducible apply State.svcCommand_keeps
  assumption

theorem execCoreRestore_keeps {kb : State} (path : Path) (v : Word) (s : State) (h : Keeps kb s) :
    KeepsOut kb (execCoreRestore path v s) := by
  unfold execCoreRestore
  refine Keeps.next ?_
  with_reducible apply State.svcCommand_keeps
  assumption

theorem execBankRebuild_keeps {kb : State} (path : Path) (v : Word) (s : State) (h : Keeps kb s) :
    KeepsOut kb (execBankRebuild path v s) := by
  unfold execBankRebuild
  refine Keeps.next ?_
  with_reducible apply State.svcCommand_keeps
  assumption

theorem execBankReturn_keeps {kb : State} (path : Path) (v : Word) (s : State) (h : Keeps kb s) :
    KeepsOut kb (execBankReturn path v s) := by
  unfold execBankReturn
  refine Keeps.next ?_
  with_reducible apply State.svcCommand_keeps
  assumption

theorem execDramPageRetire_keeps {kb : State} (path : Path) (v : Word) (s : State) (h : Keeps kb s) :
    KeepsOut kb (execDramPageRetire path v s) := by
  unfold execDramPageRetire
  refine Keeps.next ?_
  with_reducible apply State.svcCommand_keeps
  assumption

theorem execDramScrubFull_keeps {kb : State} (path : Path) (v : Word) (s : State) (h : Keeps kb s) :
    KeepsOut kb (execDramScrubFull path v s) := by
  unfold execDramScrubFull
  refine Keeps.next ?_
  with_reducible apply State.svcCommand_keeps
  assumption

theorem execCfgCommit_keeps {kb : State} (path : Path) (v : Word) (s : State) (h : Keeps kb s) :
    KeepsOut kb (execCfgCommit path v s) := by
  unfold execCfgCommit
  refine Keeps.next ?_
  with_reducible apply State.svcCommand_keeps
  assumption

theorem execCfgReload_keeps {kb : State} (path : Path) (v : Word) (s : State) (h : Keeps kb s) :
    KeepsOut kb (execCfgReload path v s) := by
  unfold execCfgReload
  refine Keeps.next ?_
  with_reducible apply State.svcCommand_keeps
  assumption

theorem execStandbyEnter_keeps {kb : State} (path : Path) (v : Word) (s : State) (h : Keeps kb s) :
    KeepsOut kb (execStandbyEnter path v s) := by
  unfold execStandbyEnter
  refine Keeps.next ?_
  with_reducible apply State.svcCommand_keeps
  assumption

theorem execPortFailoverTest_keeps {kb : State} (path : Path) (v : Word) (s : State) (h : Keeps kb s) :
    KeepsOut kb (execPortFailoverTest path v s) := by
  unfold execPortFailoverTest
  refine Keeps.next ?_
  with_reducible apply State.svcCommand_keeps
  assumption

theorem execSvcAbort_keeps {kb : State} (path : Path) (v : Word) (s : State) (h : Keeps kb s) :
    KeepsOut kb (execSvcAbort path v s) := by
  unfold execSvcAbort
  refine Keeps.next ?_
  with_reducible apply State.hostWrite_keeps
  · assumption
  · intro z0 z1 z2 z3 hz
    try simp -zeta only []
    with_reducible apply actSvcAbort_keeps
    assumption

theorem execAutoRebuildStart_keeps {kb : State} (s : State) (h : Keeps kb s) :
    KeepsOut kb (execAutoRebuildStart s) := by
  unfold execAutoRebuildStart
  split
  · refine Keeps.next ?_
    assumption
  · refine Keeps.iteO ?_ ?_
    · refine Keeps.next ?_
      assumption
    · refine Keeps.next ?_
      with_reducible apply State.svcStart_keeps
      refine Keeps.upd ?_ rfl rfl
      assumption

theorem State.wakeEvent_keeps {kb : State} (s : State) (h : Keeps kb s) (i : Nat) :
    Keeps kb (State.wakeEvent s i) := by
  unfold State.wakeEvent
  refine Keeps.ite ?_ ?_
  · with_reducible apply State.setFld_keeps
    with_reducible apply State.setReg_keeps
    assumption
  · refine Keeps.ite ?_ ?_
    · refine Keeps.ite ?_ ?_
      · with_reducible apply State.svcAbort_keeps
        assumption
      · refine Keeps.ite ?_ ?_
        · assumption
        · extract_lets +onlyGivenNames -underBinder t
          have h_t : Keeps kb t := by
            unfold t
            with_reducible apply State.setReg_keeps
            assumption
          try clear_value t
          refine Keeps.upd ?_ rfl rfl
          assumption
    · assumption

end Sys2Proof.Machine
end

