-- ==== Sys2Proof/Laws/Keeps/Network.lean ====
section
/-! SUPPORT. What the functions of Machine/Network.lean keep (Laws/Keeps.lean). -/

namespace Sys2Proof.Machine

theorem State.setPtp_keeps {kb : State} (s : State) (h : Keeps kb s) (roleA : Nat) (roleB : Nat) (gm : Bool) (ascA : Bool) (ascB : Bool) :
    Keeps kb (State.setPtp s roleA roleB gm ascA ascB) := by
  unfold State.setPtp
  extract_lets +onlyGivenNames -underBinder v
  try clear_value v
  refine Keeps.ite ?_ ?_
  · assumption
  · with_reducible apply State.raise_keeps
    with_reducible apply State.setReg_keeps
    assumption

theorem State.setRole_keeps {kb : State} (s : State) (h : Keeps kb s) (port : Nat) (role : Nat) :
    Keeps kb (State.setRole s port role) := by
  unfold State.setRole
  extract_lets +onlyGivenNames -underBinder st
  try clear_value st
  with_reducible apply State.setPtp_keeps
  assumption

theorem State.applyPtp_keeps {kb : State} (s : State) (h : Keeps kb s) (v : PtpView) :
    Keeps kb (State.applyPtp s v) := by
  unfold State.applyPtp
  extract_lets +onlyGivenNames -underBinder s1
  have h_s1 : Keeps kb s1 := by
    unfold s1
    with_reducible apply State.setPtp_keeps
    assumption
  try clear_value s1
  extract_lets +onlyGivenNames -underBinder s2
  have h_s2 : Keeps kb s2 := by
    unfold s2
    with_reducible apply State.setReg_keeps
    with_reducible apply State.setReg_keeps
    with_reducible apply State.setReg_keeps
    assumption
  try clear_value s2
  extract_lets +onlyGivenNames -underBinder s3
  have h_s3 : Keeps kb s3 := by
    unfold s3
    with_reducible apply State.setReg_keeps
    assumption
  try clear_value s3
  refine Keeps.upd ?_ rfl rfl
  assumption

theorem State.slaveLost_keeps {kb : State} (s : State) (h : Keeps kb s) (port : Nat) (avg : Word) :
    Keeps kb (State.slaveLost s port avg) := by
  unfold State.slaveLost
  extract_lets +onlyGivenNames -underBinder other
  try clear_value other
  refine Keeps.ite ?_ ?_
  · refine Keeps.ite ?_ ?_
    · extract_lets +onlyGivenNames -underBinder t
      have h_t : Keeps kb t := by
        unfold t
        with_reducible apply State.bump_keeps
        with_reducible apply State.setRole_keeps
        with_reducible apply State.setRole_keeps
        assumption
      try clear_value t
      refine Keeps.upd ?_ rfl rfl
      assumption
    · extract_lets +onlyGivenNames -underBinder t
      have h_t : Keeps kb t := by
        unfold t
        with_reducible apply State.setRole_keeps
        assumption
      try clear_value t
      refine Keeps.ite ?_ ?_
      · with_reducible apply State.loseSource_keeps
        assumption
      · assumption
  · refine Keeps.ite ?_ ?_
    · extract_lets +onlyGivenNames -underBinder t
      have h_t : Keeps kb t := by
        unfold t
        with_reducible apply State.setRole_keeps
        assumption
      try clear_value t
      refine Keeps.upd ?_ rfl rfl
      assumption
    · assumption

theorem execSyncTimeout_keeps {kb : State} (port : Fin 2) (avg : Word) (s : State) (h : Keeps kb s) :
    KeepsOut kb (execSyncTimeout port avg s) := by
  unfold execSyncTimeout
  refine Keeps.next ?_
  with_reducible apply State.slaveLost_keeps
  assumption

theorem State.sendFrame_keeps {kb : State} (s : State) (h : Keeps kb s) (port : Nat) (x : Sent) :
    Keeps kb (State.sendFrame s port x) := by
  unfold State.sendFrame
  with_reducible apply State.count_keeps
  with_reducible apply State.send_keeps
  assumption

theorem execSyncTransmit_keeps {kb : State} (s : State) (h : Keeps kb s) :
    KeepsOut kb (execSyncTransmit s) := by
  unfold execSyncTransmit
  refine Keeps.next ?_
  refine Keeps.foldl (fun t x ht => ?_) ?_
  · try simp -zeta only []
    refine Keeps.ite ?_ ?_
    · with_reducible apply State.count_keeps
      with_reducible apply State.sendFrame_keeps
      assumption
    · assumption
  · assumption

theorem execPdelayRequestTransmit_keeps {kb : State} (s : State) (h : Keeps kb s) :
    KeepsOut kb (execPdelayRequestTransmit s) := by
  unfold execPdelayRequestTransmit
  refine Keeps.next ?_
  refine Keeps.foldl (fun t x ht => ?_) ?_
  · try simp -zeta only []
    refine Keeps.ite ?_ ?_
    · with_reducible apply State.sendFrame_keeps
      assumption
    · assumption
  · assumption

theorem State.linkChange_keeps {kb : State} (s : State) (h : Keeps kb s) (port : Nat) (up : Bool) (gbe : Bool) (avg : Word) (inj : Bool) :
    Keeps kb (State.linkChange s port up gbe avg inj) := by
  unfold State.linkChange
  extract_lets +onlyGivenNames -underBinder s1
  have h_s1 : Keeps kb s1 := by
    unfold s1
    with_reducible apply State.raise_keeps
    with_reducible apply State.setBit_keeps
    with_reducible apply State.setBit_keeps
    assumption
  try clear_value s1
  refine Keeps.ite ?_ ?_
  · assumption
  · with_reducible apply State.slaveLost_keeps
    with_reducible apply State.logError_keeps
    with_reducible apply State.pageErr_keeps
    assumption

theorem execLinkChange_keeps {kb : State} (port : Fin 2) (up : Bool) (gbe : Bool) (avg : Word) (s : State) (h : Keeps kb s) :
    KeepsOut kb (execLinkChange port up gbe avg s) := by
  unfold execLinkChange
  refine Keeps.iteO ?_ ?_
  · refine Keeps.next ?_
    assumption
  · refine Keeps.next ?_
    with_reducible apply State.linkChange_keeps
    assumption

theorem State.hostPacket_keeps {kb : State} (s : State) (h : Keeps kb s) (port : Nat) (frame : List Byte) (pcp : Nat) (hwump : Bool) (buf : BitVec 64) :
    Keeps kb (State.hostPacket s port frame pcp hwump buf) := by
  unfold State.hostPacket
  extract_lets +onlyGivenNames -underBinder size
  try clear_value size
  extract_lets +onlyGivenNames -underBinder pi
  try clear_value pi
  extract_lets +onlyGivenNames -underBinder used
  try clear_value used
  refine Keeps.ite ?_ ?_
  · with_reducible apply State.raise_keeps
    with_reducible apply State.bump_keeps
    assumption
  · extract_lets +onlyGivenNames -underBinder base
    try clear_value base
    extract_lets +onlyGivenNames -underBinder entry
    try clear_value entry
    extract_lets +onlyGivenNames -underBinder s1
    have h_s1 : Keeps kb s1 := by
      unfold s1
      with_reducible apply State.putHost_keeps
      with_reducible apply State.putHost_keeps
      assumption
    try clear_value s1
    extract_lets +onlyGivenNames -underBinder s2
    have h_s2 : Keeps kb s2 := by
      unfold s2
      with_reducible apply State.setReg_keeps
      assumption
    try clear_value s2
    refine Keeps.ite ?_ ?_
    · with_reducible apply State.raise_keeps
      assumption
    · assumption

theorem execHostTxDoorbell_keeps {kb : State} (path : Path) (port : Fin 2) (v : Word) (s : State) (h : Keeps kb s) :
    KeepsOut kb (execHostTxDoorbell path port v s) := by
  unfold execHostTxDoorbell
  refine Keeps.next ?_
  with_reducible apply State.hostWrite_keeps
  · assumption
  · intro z0 z1 z2 z3 hz
    try simp -zeta only []
    with_reducible apply storeAct_keeps
    assumption

theorem execHostFrameSent_keeps {kb : State} (port : Fin 2) (pcp : Fin 8) (frame : List Byte) (s : State) (h : Keeps kb s) :
    KeepsOut kb (execHostFrameSent port pcp frame s) := by
  unfold execHostFrameSent
  extract_lets +onlyGivenNames -underBinder pi
  try clear_value pi
  extract_lets +onlyGivenNames -underBinder ci
  try clear_value ci
  refine Keeps.iteO ?_ ?_
  · refine Keeps.next ?_
    assumption
  · extract_lets +onlyGivenNames -underBinder size
    try clear_value size
    extract_lets +onlyGivenNames -underBinder base
    try clear_value base
    extract_lets +onlyGivenNames -underBinder tag
    try clear_value tag
    extract_lets +onlyGivenNames -underBinder s1
    have h_s1 : Keeps kb s1 := by
      unfold s1
      with_reducible apply State.sendFrame_keeps
      with_reducible apply State.putHost_keeps
      assumption
    try clear_value s1
    refine Keeps.next ?_
    with_reducible apply State.setReg_keeps
    assumption

theorem State.setRx_keeps {kb : State} (s : State) (h : Keeps kb s) (k : Nat) (x : RxStream) :
    Keeps kb (State.setRx s k x) := by
  unfold State.setRx
  refine Keeps.upd ?_ rfl rfl
  assumption

theorem State.deliverPacket_keeps {kb : State} (s : State) (h : Keeps kb s) (i : Nat) (start : Nat) (payload : List Byte) (mute : Bool) :
    Keeps kb (State.deliverPacket s i start payload mute) := by
  unfold State.deliverPacket
  extract_lets +onlyGivenNames -underBinder k
  try clear_value k
  extract_lets +onlyGivenNames -underBinder own
  try clear_value own
  extract_lets +onlyGivenNames -underBinder cfg
  try clear_value cfg
  extract_lets +onlyGivenNames -underBinder nch
  try clear_value nch
  refine Keeps.foldl (fun t x ht => ?_) ?_
  · try simp -zeta only []
    refine Keeps.foldl (fun t x ht => ?_) ?_
    · try simp -zeta only []
      with_reducible apply State.portSample_keeps
      assumption
    · assumption
  · assumption

theorem State.takePacket_keeps {kb : State} (s : State) (h : Keeps kb s) (i : Nat) (bits : Nat) (seq : Nat) (start : Nat) (good : Bool) (payload : List Byte) :
    Keeps kb (State.takePacket s i bits seq start good payload) := by
  unfold State.takePacket
  extract_lets +onlyGivenNames -underBinder k
  try clear_value k
  extract_lets +onlyGivenNames -underBinder x
  try clear_value x
  extract_lets +onlyGivenNames -underBinder inWindow
  try clear_value inWindow
  extract_lets +onlyGivenNames -underBinder nch
  try clear_value nch
  extract_lets +onlyGivenNames -underBinder want
  try clear_value want
  refine Keeps.ite ?_ ?_
  · with_reducible apply State.bump_keeps
    assumption
  · extract_lets +onlyGivenNames -underBinder path
    try clear_value path
    split
    · with_reducible apply State.setRx_keeps
      assumption
    · extract_lets +onlyGivenNames -underBinder h
      try clear_value h
      extract_lets +onlyGivenNames -underBinder late
      try clear_value late
      extract_lets +onlyGivenNames -underBinder y
      try clear_value y
      extract_lets +onlyGivenNames -underBinder s1
      have h_s1 : Keeps kb s1 := by
        unfold s1
        with_reducible apply State.count_keeps
        with_reducible apply State.bump_keeps
        with_reducible apply State.setRx_keeps
        assumption
      try clear_value s1
      refine Keeps.ite ?_ ?_
      · with_reducible apply State.deliverPacket_keeps
        assumption
      · assumption

theorem State.aafPacket_keeps {kb : State} (s : State) (h : Keeps kb s) (i : Nat) (b : List Byte) (now : Nat) :
    Keeps kb (State.aafPacket s i b now) := by
  unfold State.aafPacket
  extract_lets +onlyGivenNames -underBinder cfg
  try clear_value cfg
  extract_lets +onlyGivenNames -underBinder nch
  try clear_value nch
  extract_lets +onlyGivenNames -underBinder fmt
  try clear_value fmt
  extract_lets +onlyGivenNames -underBinder good
  try clear_value good
  extract_lets +onlyGivenNames -underBinder t
  try clear_value t
  extract_lets +onlyGivenNames -underBinder start
  try clear_value start
  with_reducible apply State.takePacket_keeps
  assumption

theorem State.rtpPacket_keeps {kb : State} (s : State) (h : Keeps kb s) (i : Nat) (b : List Byte) :
    Keeps kb (State.rtpPacket s i b) := by
  unfold State.rtpPacket
  extract_lets +onlyGivenNames -underBinder b0
  try clear_value b0
  extract_lets +onlyGivenNames -underBinder head
  try clear_value head
  extract_lets +onlyGivenNames -underBinder skip
  try clear_value skip
  extract_lets +onlyGivenNames -underBinder full
  try clear_value full
  extract_lets +onlyGivenNames -underBinder t
  try clear_value t
  extract_lets +onlyGivenNames -underBinder start
  try clear_value start
  with_reducible apply State.takePacket_keeps
  assumption

theorem execPacketDeadline_keeps {kb : State} (i : Fin 32) (s : State) (h : Keeps kb s) :
    KeepsOut kb (execPacketDeadline i s) := by
  unfold execPacketDeadline
  extract_lets +onlyGivenNames -underBinder k
  try clear_value k
  extract_lets +onlyGivenNames -underBinder x
  try clear_value x
  split
  · refine Keeps.next ?_
    assumption
  · refine Keeps.iteO ?_ ?_
    · refine Keeps.next ?_
      assumption
    · extract_lets +onlyGivenNames -underBinder found
      try clear_value found
      extract_lets +onlyGivenNames -underBinder from_
      try clear_value from_
      extract_lets +onlyGivenNames -underBinder pair
      try clear_value pair
      extract_lets +onlyGivenNames -underBinder one
      try clear_value one
      extract_lets +onlyGivenNames -underBinder cfg
      try clear_value cfg
      extract_lets +onlyGivenNames -underBinder bits
      try clear_value bits
      extract_lets +onlyGivenNames -underBinder s1
      have h_s1 : Keeps kb s1 := by
        unfold s1
        with_reducible apply State.setRx_keeps
        assumption
      try clear_value s1
      extract_lets +onlyGivenNames -underBinder lost
      have h_lost : Keeps kb lost.st := by
        unfold lost
        with_reducible apply State.detect_keeps
        assumption
      try clear_value lost
      refine Keeps.iteO ?_ ?_
      · extract_lets +onlyGivenNames -underBinder s2
        have h_s2 : Keeps kb s2 := by
          unfold s2
          with_reducible apply State.raise_keeps
          with_reducible apply State.bump_keeps
          assumption
        try clear_value s2
        refine Keeps.next ?_
        refine Keeps.ite ?_ ?_
        · with_reducible apply State.deliverPacket_keeps
          assumption
        · assumption
      · extract_lets +onlyGivenNames -underBinder rep
        have h_rep : Keeps kb rep.st := by
          unfold rep
          with_reducible apply State.detect_keeps
          assumption
        try clear_value rep
        refine Keeps.next ?_
        refine Keeps.ite ?_ ?_
        · with_reducible apply State.raise_keeps
          with_reducible apply State.count_keeps
          with_reducible apply State.bump_keeps
          assumption
        · assumption

theorem State.sessionPacket_keeps {kb : State} (s : State) (h : Keeps kb s) (port : Nat) (n : Nat) (payload : List Byte) (frame : List Byte) (pcp : Nat) (buf : BitVec 64) :
    Keeps kb (State.sessionPacket s port n payload frame pcp buf) := by
  unfold State.sessionPacket
  refine Keeps.ite ?_ ?_
  · with_reducible apply State.bump_keeps
    assumption
  · extract_lets +onlyGivenNames -underBinder ok
    try clear_value ok
    extract_lets +onlyGivenNames -underBinder cmds
    try clear_value cmds
    extract_lets +onlyGivenNames -underBinder s1
    have h_s1 : Keeps kb s1 := by
      unfold s1
      refine Keeps.foldl (fun t x ht => ?_) ?_
      · try simp -zeta only []
        with_reducible apply State.takeCommand_keeps
        assumption
      · assumption
    try clear_value s1
    refine Keeps.ite ?_ ?_
    · assumption
    · with_reducible apply State.hostPacket_keeps
      with_reducible apply State.bump_keeps
      assumption

theorem State.classify_keeps {kb : State} (s : State) (h : Keeps kb s) (port : Nat) (frame : List Byte) (now : Nat) (ptp : Option PtpView) (buf : BitVec 64) :
    Keeps kb (State.classify s port frame now ptp buf) := by
  unfold State.classify
  extract_lets +onlyGivenNames -underBinder f
  try clear_value f
  extract_lets +onlyGivenNames -underBinder vid
  try clear_value vid
  extract_lets +onlyGivenNames -underBinder own
  try clear_value own
  extract_lets +onlyGivenNames -underBinder host
  have h_host : Keeps kb host := by
    unfold host
    with_reducible apply State.hostPacket_keeps
    assumption
  try clear_value host
  refine Keeps.ite ?_ ?_
  · assumption
  · refine Keeps.ite ?_ ?_
    · refine Keeps.ite ?_ ?_
      · split
        · with_reducible apply State.applyPtp_keeps
          assumption
        · assumption
      · assumption
    · extract_lets +onlyGivenNames -underBinder aaf
      try clear_value aaf
      split
      · refine Keeps.ite ?_ ?_
        · with_reducible apply State.aafPacket_keeps
          assumption
        · assumption
      · split
        · assumption
        · split
          · refine Keeps.ite ?_ ?_
            · with_reducible apply State.rtpPacket_keeps
              assumption
            · assumption
          · split
            · with_reducible apply State.sessionPacket_keeps
              assumption
            · split
              · with_reducible apply State.bump_keeps
                assumption
              · assumption

theorem execFrameReceive_keeps {kb : State} (port : Fin 2) (bad : Bool) (frame : List Byte) (now : BitVec 64) (ptp : Option PtpView) (buf : BitVec 64) (s : State) (h : Keeps kb s) :
    KeepsOut kb (execFrameReceive port bad frame now ptp buf s) := by
  unfold execFrameReceive
  refine Keeps.iteO ?_ ?_
  · refine Keeps.next ?_
    assumption
  · extract_lets +onlyGivenNames -underBinder k
    have h_k : Keeps kb k.st := by
      unfold k
      with_reducible apply State.detect_keeps
      assumption
    try clear_value k
    refine Keeps.iteO ?_ ?_
    · refine Keeps.next ?_
      with_reducible apply State.raise_keeps
      with_reducible apply State.bump_keeps
      assumption
    · extract_lets +onlyGivenNames -underBinder s1
      have h_s1 : Keeps kb s1 := by
        unfold s1
        with_reducible apply State.count_keeps
        with_reducible apply State.bump_keeps
        assumption
      try clear_value s1
      extract_lets +onlyGivenNames -underBinder s2
      have h_s2 : Keeps kb s2 := by
        unfold s2
        refine Keeps.ite ?_ ?_
        · with_reducible apply State.wakeEvent_keeps
          assumption
        · assumption
      try clear_value s2
      refine Keeps.next ?_
      with_reducible apply State.classify_keeps
      assumption

theorem State.setTx_keeps {kb : State} (s : State) (h : Keeps kb s) (i : Nat) (x : TxStream) :
    Keeps kb (State.setTx s i x) := by
  unfold State.setTx
  refine Keeps.upd ?_ rfl rfl
  assumption

theorem State.txSample_keeps {kb : State} (s : State) (h : Keeps kb s) (i : Nat) (t : Nat) :
    Keeps kb (State.txSample s i t) := by
  unfold State.txSample
  extract_lets +onlyGivenNames -underBinder cfg
  try clear_value cfg
  extract_lets +onlyGivenNames -underBinder spp
  try clear_value spp
  refine Keeps.ite ?_ ?_
  · assumption
  · extract_lets +onlyGivenNames -underBinder x
    try clear_value x
    extract_lets +onlyGivenNames -underBinder q
    try clear_value q
    extract_lets +onlyGivenNames -underBinder v
    try clear_value v
    extract_lets +onlyGivenNames -underBinder y
    try clear_value y
    split
    · refine Keeps.ite ?_ ?_
      · with_reducible apply State.setTx_keeps
        assumption
      · with_reducible apply State.setTx_keeps
        assumption
    · with_reducible apply State.setTx_keeps
      assumption

theorem execStreamPacketTransmit_keeps {kb : State} (i : Fin 32) (s : State) (h : Keeps kb s) :
    KeepsOut kb (execStreamPacketTransmit i s) := by
  unfold execStreamPacketTransmit
  extract_lets +onlyGivenNames -underBinder x
  try clear_value x
  extract_lets +onlyGivenNames -underBinder cfg
  try clear_value cfg
  extract_lets +onlyGivenNames -underBinder port
  try clear_value port
  split
  · refine Keeps.next ?_
    assumption
  · extract_lets +onlyGivenNames -underBinder s1
    have h_s1 : Keeps kb s1 := by
      unfold s1
      with_reducible apply State.setTx_keeps
      assumption
    try clear_value s1
    extract_lets +onlyGivenNames -underBinder spp
    try clear_value spp
    refine Keeps.iteO ?_ ?_
    · refine Keeps.next ?_
      with_reducible apply State.raise_keeps
      with_reducible apply State.bump_keeps
      assumption
    · extract_lets +onlyGivenNames -underBinder fmt
      try clear_value fmt
      extract_lets +onlyGivenNames -underBinder ofs
      try clear_value ofs
      extract_lets +onlyGivenNames -underBinder stamp
      try clear_value stamp
      extract_lets +onlyGivenNames -underBinder out
      have h_out : ∀ z0 z1, Keeps kb z0 → Keeps kb (out z0 z1) := by
        intro z0 z1 hz
        unfold out
        try simp -zeta only []
        with_reducible apply State.sendFrame_keeps
        assumption
      try clear_value out
      extract_lets +onlyGivenNames -underBinder s2
      have h_s2 : Keeps kb s2 := by
        unfold s2
        with_reducible apply State.count_keeps
        with_reducible apply State.bump_keeps
        apply h_out
        assumption
      try clear_value s2
      refine Keeps.next ?_
      refine Keeps.ite ?_ ?_
      · apply h_out
        assumption
      · assumption

theorem State.strmRefuse_keeps {kb : State} (s : State) (h : Keeps kb s) :
    Keeps kb (State.strmRefuse s) := by
  unfold State.strmRefuse
  with_reducible apply State.pageErrFlag_keeps
  with_reducible apply State.setBit_keeps
  assumption

theorem actRxCfg_keeps {kb : State} (i : Nat) (s : State) (h : Keeps kb s) (r : RegRow) (old : Word) (v : Word) :
    Keeps kb (actRxCfg i s r old v) := by
  unfold actRxCfg
  extract_lets +onlyGivenNames -underBinder new
  try clear_value new
  extract_lets +onlyGivenNames -underBinder was
  try clear_value was
  extract_lets +onlyGivenNames -underBinder same
  try clear_value same
  refine Keeps.ite ?_ ?_
  · with_reducible apply State.strmRefuse_keeps
    assumption
  · refine Keeps.ite ?_ ?_
    · with_reducible apply State.strmRefuse_keeps
      assumption
    · extract_lets +onlyGivenNames -underBinder s1
      have h_s1 : Keeps kb s1 := by
        unfold s1
        with_reducible apply State.setReg_keeps
        assumption
      try clear_value s1
      refine Keeps.ite ?_ ?_
      · assumption
      · with_reducible apply State.setRx_keeps
        assumption

theorem actTxCfg_keeps {kb : State} (i : Nat) (s : State) (h : Keeps kb s) (r : RegRow) (old : Word) (v : Word) :
    Keeps kb (actTxCfg i s r old v) := by
  unfold actTxCfg
  extract_lets +onlyGivenNames -underBinder new
  try clear_value new
  extract_lets +onlyGivenNames -underBinder was
  try clear_value was
  extract_lets +onlyGivenNames -underBinder same
  try clear_value same
  refine Keeps.ite ?_ ?_
  · with_reducible apply State.strmRefuse_keeps
    assumption
  · refine Keeps.ite ?_ ?_
    · with_reducible apply State.strmRefuse_keeps
      assumption
    · extract_lets +onlyGivenNames -underBinder s1
      have h_s1 : Keeps kb s1 := by
        unfold s1
        with_reducible apply State.setReg_keeps
        assumption
      try clear_value s1
      refine Keeps.ite ?_ ?_
      · assumption
      · extract_lets +onlyGivenNames -underBinder d
        have h_d : Keeps kb d.2 := by
          unfold d
          with_reducible apply State.draw_keeps
          assumption
        try clear_value d
        with_reducible apply State.setTx_keeps
        assumption

theorem actStreamReg_keeps {kb : State} (cfg : Nat) (off : Nat) (s : State) (h : Keeps kb s) (r : RegRow) (old : Word) (v : Word) :
    Keeps kb (actStreamReg cfg off s r old v) := by
  unfold actStreamReg
  refine Keeps.ite ?_ ?_
  · with_reducible apply State.strmRefuse_keeps
    assumption
  · with_reducible apply State.setReg_keeps
    assumption

theorem strmAct_keeps {kb : State} (off : Nat) (a : State) (h : Keeps kb a) (a2 : RegRow) (a3 : Word) (a4 : Word) :
    Keeps kb (strmAct off a a2 a3 a4) := by
  have hk : KeepsAct (strmAct off) := by
    unfold strmAct
    try dsimp only
    repeat' with_reducible apply Keeps.iteA
    all_goals intro b s h r o v
    all_goals first
      | (with_reducible apply actRxCfg_keeps; exact h)
      | (with_reducible apply actStreamReg_keeps; exact h)
      | (with_reducible apply actTxCfg_keeps; exact h)
      | (with_reducible apply storeAct_keeps; exact h)
  exact hk _ _ h _ _ _

theorem execStreamConfigWrite_keeps {kb : State} (path : Path) (o : Fin 1536) (v : Word) (s : State) (h : Keeps kb s) :
    KeepsOut kb (execStreamConfigWrite path o v s) := by
  unfold execStreamConfigWrite
  refine Keeps.next ?_
  with_reducible apply State.hostWrite_keeps
  · assumption
  · intro z0 z1 z2 z3 hz
    try simp -zeta only []
    with_reducible apply strmAct_keeps
    assumption

theorem State.nmidRefuse_keeps {kb : State} (s : State) (h : Keeps kb s) :
    Keeps kb (State.nmidRefuse s) := by
  unfold State.nmidRefuse
  with_reducible apply State.pageErrFlag_keeps
  with_reducible apply State.setBit_keeps
  assumption

theorem actSessCfg_keeps {kb : State} (n : Nat) (s : State) (h : Keeps kb s) (r : RegRow) (old : Word) (v : Word) :
    Keeps kb (actSessCfg n s r old v) := by
  unfold actSessCfg
  refine Keeps.ite ?_ ?_
  · with_reducible apply State.nmidRefuse_keeps
    assumption
  · extract_lets +onlyGivenNames -underBinder s1
    have h_s1 : Keeps kb s1 := by
      unfold s1
      with_reducible apply State.setReg_keeps
      assumption
    try clear_value s1
    extract_lets +onlyGivenNames -underBinder was
    try clear_value was
    extract_lets +onlyGivenNames -underBinder on
    try clear_value on
    refine Keeps.ite ?_ ?_
    · extract_lets +onlyGivenNames -underBinder src
      extract_lets +onlyGivenNames -underBinder src0 t
      have h_t : Keeps kb t := by
        unfold t
        refine Keeps.upd ?_ rfl rfl
        assumption
      try clear_value t
      extract_lets +onlyGivenNames -underBinder shared
      try clear_value shared
      refine Keeps.ite ?_ ?_
      · assumption
      · with_reducible apply State.setReg_keeps
        with_reducible apply State.setWindow_keeps
        assumption
    · refine Keeps.ite ?_ ?_
      · refine Keeps.upd ?_ rfl rfl
        assumption
      · assumption

theorem actSessAddr_keeps {kb : State} (n : Nat) (off : Nat) (s : State) (h : Keeps kb s) (r : RegRow) (old : Word) (v : Word) :
    Keeps kb (actSessAddr n off s r old v) := by
  unfold actSessAddr
  refine Keeps.ite ?_ ?_
  · with_reducible apply State.nmidRefuse_keeps
    assumption
  · with_reducible apply State.setReg_keeps
    assumption

theorem execSessionEnable_keeps {kb : State} (path : Path) (n : Fin 32) (v : Word) (s : State) (h : Keeps kb s) :
    KeepsOut kb (execSessionEnable path n v s) := by
  unfold execSessionEnable
  refine Keeps.next ?_
  with_reducible apply State.hostWrite_keeps
  · assumption
  · intro z0 z1 z2 z3 hz
    try simp -zeta only []
    with_reducible apply actSessCfg_keeps
    assumption

theorem execSessionDisable_keeps {kb : State} (path : Path) (n : Fin 32) (v : Word) (s : State) (h : Keeps kb s) :
    KeepsOut kb (execSessionDisable path n v s) := by
  unfold execSessionDisable
  refine Keeps.next ?_
  with_reducible apply State.hostWrite_keeps
  · assumption
  · intro z0 z1 z2 z3 hz
    try simp -zeta only []
    with_reducible apply actSessCfg_keeps
    assumption

theorem execSessionAddressWrite_keeps {kb : State} (path : Path) (n : Fin 32) (isPort : Bool) (v : Word) (s : State) (h : Keeps kb s) :
    KeepsOut kb (execSessionAddressWrite path n isPort v s) := by
  unfold execSessionAddressWrite
  extract_lets +onlyGivenNames -underBinder off
  try clear_value off
  refine Keeps.next ?_
  with_reducible apply State.hostWrite_keeps
  · assumption
  · intro z0 z1 z2 z3 hz
    try simp -zeta only []
    with_reducible apply actSessAddr_keeps
    assumption

end Sys2Proof.Machine
end

