-- ==== Sys2Proof/Laws/Keeps/Tdm.lean ====
section
/-! SUPPORT. What the functions of Machine/Tdm.lean keep (Laws/Keeps.lean). -/

namespace Sys2Proof.Machine

theorem State.setTdmPort_keeps {kb : State} (s : State) (h : Keeps kb s) (p : Nat) (x : TdmPort) :
    Keeps kb (State.setTdmPort s p x) := by
  unfold State.setTdmPort
  refine Keeps.upd ?_ rfl rfl
  assumption

theorem State.tdmApply_keeps {kb : State} (s : State) (h : Keeps kb s) (p : Nat) :
    Keeps kb (State.tdmApply s p) := by
  unfold State.tdmApply
  extract_lets +onlyGivenNames -underBinder on
  try clear_value on
  refine Keeps.ite ?_ ?_
  · assumption
  · with_reducible apply State.setBit_keeps
    with_reducible apply State.setTdmPort_keeps
    assumption

theorem State.drawSlots_keeps {kb : State} (s : State) (h : Keeps kb s) (a : Nat) :
    Keeps kb (State.drawSlots s a).1 := by
  induction a generalizing s with
  | zero =>
    rw [State.drawSlots]
    assumption
  | succ k ih =>
    rw [State.drawSlots]
    apply ih
    with_reducible apply State.draw_keeps
    assumption

theorem State.tdmSample_keeps {kb : State} (s : State) (h : Keeps kb s) (p : Nat) (t : Nat) :
    Keeps kb (State.tdmSample s p t) := by
  unfold State.tdmSample
  extract_lets +onlyGivenNames -underBinder x
  try clear_value x
  refine Keeps.ite ?_ ?_
  · assumption
  · extract_lets +onlyGivenNames -underBinder q
    try clear_value q
    extract_lets +onlyGivenNames -underBinder n
    try clear_value n
    extract_lets +onlyGivenNames -underBinder v
    try clear_value v
    extract_lets +onlyGivenNames -underBinder d
    have h_d : Keeps kb d.1 := by
      unfold d
      with_reducible apply State.drawSlots_keeps
      assumption
    try clear_value d
    with_reducible apply State.setTdmPort_keeps
    assumption

theorem State.tdmCarry_keeps {kb : State} (s : State) (h : Keeps kb s) (p : Nat) (t : Nat) (din : List Word) :
    Keeps kb (State.tdmCarry s p t din) := by
  unfold State.tdmCarry
  extract_lets +onlyGivenNames -underBinder n
  try clear_value n
  extract_lets +onlyGivenNames -underBinder out
  try clear_value out
  extract_lets +onlyGivenNames -underBinder s1
  have h_s1 : Keeps kb s1 := by
    unfold s1
    with_reducible apply State.count_keeps
    with_reducible apply State.send_keeps
    assumption
  try clear_value s1
  refine Keeps.foldl (fun t x ht => ?_) ?_
  · try simp -zeta only []
    with_reducible apply State.portSample_keeps
    assumption
  · assumption

theorem execTdmFrame_keeps {kb : State} (p : Fin 4) (din : List Word) (edge : BitVec 64) (wrongLength : Bool) (s : State) (h : Keeps kb s) :
    KeepsOut kb (execTdmFrame p din edge wrongLength s) := by
  unfold execTdmFrame
  extract_lets +onlyGivenNames -underBinder x
  try clear_value x
  refine Keeps.iteO ?_ ?_
  · refine Keeps.next ?_
    assumption
  · refine Keeps.iteO ?_ ?_
    · refine Keeps.next ?_
      with_reducible apply State.tdmCarry_keeps
      assumption
    · refine Keeps.iteO ?_ ?_
      · refine Keeps.next ?_
        with_reducible apply State.setTdmPort_keeps
        assumption
      · extract_lets +onlyGivenNames -underBinder t
        try clear_value t
        refine Keeps.iteO ?_ ?_
        · refine Keeps.next ?_
          assumption
        · extract_lets +onlyGivenNames -underBinder off
          try clear_value off
          extract_lets +onlyGivenNames -underBinder k
          have h_k : Keeps kb k.st := by
            unfold k
            with_reducible apply State.detect_keeps
            assumption
          try clear_value k
          extract_lets +onlyGivenNames -underBinder s1
          have h_s1 : Keeps kb s1 := by
            unfold s1
            refine Keeps.ite ?_ ?_
            · with_reducible apply State.raise_keeps
              with_reducible apply State.bump_keeps
              with_reducible apply State.setBit_keeps
              assumption
            · assumption
          try clear_value s1
          refine Keeps.next ?_
          with_reducible apply State.tdmCarry_keeps
          with_reducible apply State.setTdmPort_keeps
          assumption

theorem execTdmLock_keeps {kb : State} (p : Fin 4) (phase : BitVec 8) (s : State) (h : Keeps kb s) :
    KeepsOut kb (execTdmLock p phase s) := by
  unfold execTdmLock
  extract_lets +onlyGivenNames -underBinder x
  try clear_value x
  refine Keeps.iteO ?_ ?_
  · refine Keeps.next ?_
    assumption
  · refine Keeps.next ?_
    with_reducible apply State.setBit_keeps
    with_reducible apply State.setTdmPort_keeps
    assumption

theorem execTdmBclkLoss_keeps {kb : State} (p : Fin 4) (s : State) (h : Keeps kb s) :
    KeepsOut kb (execTdmBclkLoss p s) := by
  unfold execTdmBclkLoss
  extract_lets +onlyGivenNames -underBinder x
  try clear_value x
  refine Keeps.iteO ?_ ?_
  · refine Keeps.next ?_
    assumption
  · refine Keeps.next ?_
    with_reducible apply State.setBit_keeps
    with_reducible apply State.setTdmPort_keeps
    assumption

theorem actTdmCfg_keeps {kb : State} (p : Nat) (s : State) (h : Keeps kb s) (r : RegRow) (old : Word) (v : Word) :
    Keeps kb (actTdmCfg p s r old v) := by
  unfold actTdmCfg
  extract_lets +onlyGivenNames -underBinder new
  try clear_value new
  refine Keeps.ite ?_ ?_
  · with_reducible apply State.tdmRefuse_keeps
    assumption
  · with_reducible apply State.setReg_keeps
    assumption

theorem execTdmConfigWrite_keeps {kb : State} (path : Path) (p : Fin 4) (v : Word) (s : State) (h : Keeps kb s) :
    KeepsOut kb (execTdmConfigWrite path p v s) := by
  unfold execTdmConfigWrite
  refine Keeps.next ?_
  with_reducible apply State.hostWrite_keeps
  · assumption
  · intro z0 z1 z2 z3 hz
    try simp -zeta only []
    with_reducible apply actTdmCfg_keeps
    assumption

end Sys2Proof.Machine
end

