-- ==== Sys2Proof/Laws/Keeps/Power.lean ====
section
/-! SUPPORT. What the functions of Machine/Power.lean keep (Laws/Keeps.lean). -/

namespace Sys2Proof.Machine

theorem State.afterReset_keeps {kb : State} (s : State) (h : Keeps kb s) :
    Keeps kb (State.afterReset s) := by
  unfold State.afterReset
  extract_lets +onlyGivenNames -underBinder a0 a1 base
  have h_b : Keeps kb base := ⟨h.pending, h.fuse, h.draws, fun _ => ⟨rfl, rfl, rfl⟩⟩
  clear_value base
  extract_lets +onlyGivenNames -underBinder s1
  have h1 : Keeps kb s1 := State.setBit_keeps _ h_b _ _ _
  clear_value s1
  extract_lets +onlyGivenNames -underBinder s2
  have h2 : Keeps kb s2 := State.setBit_keeps _ (State.setBit_keeps _ h1 _ _ _) _ _ _
  clear_value s2
  extract_lets +onlyGivenNames -underBinder s3
  have h3 : Keeps kb s3 := Keeps.ite (State.setBit_keeps _ h2 _ _ _) h2
  clear_value s3
  extract_lets +onlyGivenNames -underBinder s4
  have h4 : Keeps kb s4 := State.setBit_keeps _ h3 _ _ _
  clear_value s4
  exact Keeps.foldl (fun t x ht => State.setReg_keeps _ ht _ _) h4

theorem State.moduleRestart_keeps {kb : State} (s : State) (h : Keeps kb s) (cause : Nat) (inj : Bool) :
    Keeps kb (State.moduleRestart s cause inj) := by
  unfold State.moduleRestart
  extract_lets +onlyGivenNames -underBinder t
  have h_t : Keeps kb t := by
    unfold t
    with_reducible apply State.afterReset_keeps
    assumption
  try clear_value t
  extract_lets +onlyGivenNames -underBinder t1
  have h_t1 : Keeps kb t1 := by
    unfold t1
    with_reducible apply State.setReg_keeps
    assumption
  try clear_value t1
  extract_lets +onlyGivenNames -underBinder t2
  have h_t2 : Keeps kb t2 := by
    unfold t2
    with_reducible apply State.setBit_keeps
    with_reducible apply State.setBit_keeps
    assumption
  try clear_value t2
  extract_lets +onlyGivenNames -underBinder t3
  have h_t3 : Keeps kb t3 := by
    unfold t3
    with_reducible apply State.bump_keeps
    with_reducible apply State.setReg_keeps
    assumption
  try clear_value t3
  with_reducible apply State.setFld_keeps
  assumption

theorem execPowerOnReset_keeps {kb : State} (rises : Bool) (s : State) (h : Keeps kb s) :
    KeepsOut kb (execPowerOnReset rises s) := by
  unfold execPowerOnReset
  extract_lets +onlyGivenNames -underBinder t
  have h_t : Keeps kb t := by
    unfold t
    with_reducible apply State.afterReset_keeps
    assumption
  try clear_value t
  refine Keeps.next ?_
  refine Keeps.upd ?_ rfl rfl
  assumption

theorem execWatchdogExpiry_keeps {kb : State} (s : State) (h : Keeps kb s) :
    KeepsOut kb (execWatchdogExpiry s) := by
  unfold execWatchdogExpiry
  refine Keeps.iteO ?_ ?_
  · refine Keeps.next ?_
    assumption
  · refine Keeps.next ?_
    with_reducible apply State.moduleRestart_keeps
    with_reducible apply State.logError_keeps
    assumption

theorem State.railFault_keeps {kb : State} (s : State) (h : Keeps kb s) (rail : Nat) (inj : Bool) :
    Keeps kb (State.railFault s rail inj) := by
  unfold State.railFault
  extract_lets +onlyGivenNames -underBinder t
  have h_t : Keeps kb t := by
    unfold t
    with_reducible apply State.logError_keeps
    with_reducible apply State.pageErr_keeps
    with_reducible apply State.raise_keeps
    with_reducible apply State.setFld_keeps
    assumption
  try clear_value t
  with_reducible apply State.moduleRestart_keeps
  assumption

theorem execRailFault_keeps {kb : State} (rail : Fin 8) (s : State) (h : Keeps kb s) :
    KeepsOut kb (execRailFault rail s) := by
  unfold execRailFault
  refine Keeps.iteO ?_ ?_
  · refine Keeps.next ?_
    assumption
  · refine Keeps.next ?_
    with_reducible apply State.railFault_keeps
    assumption

theorem actPwrCtrl_keeps {kb : State} (s : State) (h : Keeps kb s) (x : RegRow) (x2 : Word) (v : Word) :
    Keeps kb (actPwrCtrl s x x2 v) := by
  unfold actPwrCtrl
  refine Keeps.ite ?_ ?_
  · with_reducible apply State.moduleRestart_keeps
    assumption
  · refine Keeps.ite ?_ ?_
    · with_reducible apply State.wakeEvent_keeps
      assumption
    · assumption

theorem execModuleRestartRequest_keeps {kb : State} (path : Path) (v : Word) (s : State) (h : Keeps kb s) :
    KeepsOut kb (execModuleRestartRequest path v s) := by
  unfold execModuleRestartRequest
  refine Keeps.next ?_
  with_reducible apply State.hostWrite_keeps
  · assumption
  · intro z0 z1 z2 z3 hz
    try simp -zeta only []
    with_reducible apply actPwrCtrl_keeps
    assumption

theorem State.mediaPllLost_keeps {kb : State} (s : State) (h : Keeps kb s) :
    Keeps kb (State.mediaPllLost s) := by
  unfold State.mediaPllLost
  with_reducible apply State.dacAll_keeps
  with_reducible apply State.setBit_keeps
  with_reducible apply State.setBit_keeps
  assumption

theorem State.portPllLost_keeps {kb : State} (s : State) (h : Keeps kb s) (pll : Nat) :
    Keeps kb (State.portPllLost s pll) := by
  unfold State.portPllLost
  extract_lets +onlyGivenNames -underBinder t
  have h_t : Keeps kb t := by
    unfold t
    with_reducible apply State.setBit_keeps
    assumption
  try clear_value t
  refine Keeps.ite ?_ ?_
  · with_reducible apply State.setFld_keeps
    assumption
  · refine Keeps.ite ?_ ?_
    · extract_lets +onlyGivenNames -underBinder d
      have h_d : Keeps kb d.2 := by
        unfold d
        with_reducible apply State.draw_keeps
        assumption
      try clear_value d
      with_reducible apply State.linkChange_keeps
      assumption
    · assumption

theorem State.pllLost_keeps {kb : State} (s : State) (h : Keeps kb s) (pll : Nat) (inj : Bool) :
    Keeps kb (State.pllLost s pll inj) := by
  unfold State.pllLost
  extract_lets +onlyGivenNames -underBinder ident
  try clear_value ident
  extract_lets +onlyGivenNames -underBinder t
  have h_t : Keeps kb t := by
    unfold t
    with_reducible apply State.logError_keeps
    with_reducible apply State.pageErr_keeps
    with_reducible apply State.raise_keeps
    assumption
  try clear_value t
  refine Keeps.ite ?_ ?_
  · with_reducible apply State.moduleRestart_keeps
    assumption
  · refine Keeps.ite ?_ ?_
    · with_reducible apply State.mediaPllLost_keeps
      assumption
    · with_reducible apply State.portPllLost_keeps
      assumption

theorem execPllLockLoss_keeps {kb : State} (pll : Fin 7) (s : State) (h : Keeps kb s) :
    KeepsOut kb (execPllLockLoss pll s) := by
  unfold execPllLockLoss
  refine Keeps.iteO ?_ ?_
  · refine Keeps.next ?_
    assumption
  · refine Keeps.next ?_
    with_reducible apply State.pllLost_keeps
    assumption

theorem execPllRelock_keeps {kb : State} (pll : Fin 7) (gen : Fin 4) (width : Fin 4) (s : State) (h : Keeps kb s) :
    KeepsOut kb (execPllRelock pll gen width s) := by
  unfold execPllRelock
  refine Keeps.iteO ?_ ?_
  · refine Keeps.next ?_
    assumption
  · extract_lets +onlyGivenNames -underBinder t
    have h_t : Keeps kb t := by
      unfold t
      with_reducible apply State.setBit_keeps
      assumption
    try clear_value t
    refine Keeps.iteO ?_ ?_
    · extract_lets +onlyGivenNames -underBinder src0 src1 u
      have h_src0 : Keeps kb src0 := by
        unfold src0
        with_reducible apply State.setBit_keeps
        assumption
      have h_u : Keeps kb u := by
        unfold u
        refine Keeps.upd ?_ rfl rfl
        assumption
      try clear_value u
      refine Keeps.next ?_
      refine Keeps.ite ?_ ?_
      · refine Keeps.ite ?_ ?_
        · with_reducible apply State.acquire_keeps
          assumption
        · with_reducible apply State.setPll_keeps
          assumption
      · assumption
    · refine Keeps.iteO ?_ ?_
      · refine Keeps.next ?_
        with_reducible apply State.setFld_keeps
        with_reducible apply State.setFld_keeps
        assumption
      · refine Keeps.next ?_
        assumption

theorem State.spiFrameError_keeps {kb : State} (s : State) (h : Keeps kb s) (cmd : Nat) (clocks : Nat) (inj : Bool) :
    Keeps kb (State.spiFrameError s cmd clocks inj) := by
  unfold State.spiFrameError
  extract_lets +onlyGivenNames -underBinder t
  have h_t : Keeps kb t := by
    unfold t
    with_reducible apply State.logError_keeps
    with_reducible apply State.raise_keeps
    with_reducible apply State.bump_keeps
    with_reducible apply State.setReg_keeps
    assumption
  try clear_value t
  refine Keeps.upd ?_ rfl rfl
  assumption

theorem execVioBankChange_keeps {kb : State} (bankB : Bool) (up : Bool) (txn : Option (BitVec 8 × Nat)) (s : State) (h : Keeps kb s) :
    KeepsOut kb (execVioBankChange bankB up txn s) := by
  unfold execVioBankChange
  refine Keeps.iteO ?_ ?_
  · extract_lets +onlyGivenNames -underBinder src0 t
    have h_t : Keeps kb t := by
      unfold t
      refine Keeps.upd ?_ rfl rfl
      assumption
    try clear_value t
    refine Keeps.next ?_
    refine Keeps.ite ?_ ?_
    · assumption
    · refine Keeps.foldl (fun t x ht => ?_) ?_
      · try simp -zeta only []
        refine Keeps.ite ?_ ?_
        · with_reducible apply State.setBit_keeps
          with_reducible apply State.setTdmPort_keeps
          assumption
        · assumption
      · assumption
  · extract_lets +onlyGivenNames -underBinder src0 t
    have h_t : Keeps kb t := by
      unfold t
      refine Keeps.upd ?_ rfl rfl
      assumption
    try clear_value t
    split
    · refine Keeps.next ?_
      refine Keeps.ite ?_ ?_
      · assumption
      · with_reducible apply State.spiFrameError_keeps
        assumption
    · refine Keeps.next ?_
      assumption

theorem State.thermWarn_keeps {kb : State} (s : State) (h : Keeps kb s) (inj : Bool) :
    Keeps kb (State.thermWarn s inj) := by
  unfold State.thermWarn
  with_reducible apply State.logError_keeps
  with_reducible apply State.pageErr_keeps
  with_reducible apply State.raise_keeps
  assumption

theorem State.thermCrit_keeps {kb : State} (s : State) (h : Keeps kb s) (inj : Bool) :
    Keeps kb (State.thermCrit s inj) := by
  unfold State.thermCrit
  extract_lets +onlyGivenNames -underBinder t
  have h_t : Keeps kb t := by
    unfold t
    with_reducible apply State.setSwclr_keeps
    with_reducible apply State.logError_keeps
    with_reducible apply State.pageErr_keeps
    with_reducible apply State.raise_keeps
    assumption
  try clear_value t
  refine Keeps.ite ?_ ?_
  · with_reducible apply State.requestStop_keeps
    assumption
  · assumption

theorem State.thermalShutdown_keeps {kb : State} (s : State) (h : Keeps kb s) :
    Keeps kb (State.thermalShutdown s) := by
  unfold State.thermalShutdown
  extract_lets +onlyGivenNames -underBinder t
  have h_t : Keeps kb t := by
    unfold t
    with_reducible apply State.afterReset_keeps
    assumption
  try clear_value t
  extract_lets +onlyGivenNames -underBinder src0 u
  have h_u : Keeps kb u := by
    unfold u
    refine Keeps.upd ?_ rfl rfl
    assumption
  try clear_value u
  extract_lets +onlyGivenNames -underBinder kept
  have h_kept : Keeps kb kept := by
    unfold kept
    refine Keeps.foldl (fun t x ht => ?_) ?_
    · try simp -zeta only []
      with_reducible apply State.setReg_keeps
      assumption
    · assumption
  try clear_value kept
  with_reducible apply State.setBit_keeps
  with_reducible apply State.setReg_keeps
  assumption

theorem State.setTemp_keeps {kb : State} (s : State) (h : Keeps kb s) (t : BitVec 12) :
    Keeps kb (State.setTemp s t) := by
  unfold State.setTemp
  extract_lets +onlyGivenNames -underBinder peak
  try clear_value peak
  extract_lets +onlyGivenNames -underBinder s1
  have h_s1 : Keeps kb s1 := by
    unfold s1
    with_reducible apply State.setFld_keeps
    assumption
  try clear_value s1
  refine Keeps.ite ?_ ?_
  · with_reducible apply State.setFld_keeps
    assumption
  · assumption

theorem execThermalSample_keeps {kb : State} (temp : BitVec 12) (s : State) (h : Keeps kb s) :
    KeepsOut kb (execThermalSample temp s) := by
  unfold execThermalSample
  extract_lets +onlyGivenNames -underBinder c
  try clear_value c
  refine Keeps.iteO ?_ ?_
  · refine Keeps.next ?_
    assumption
  · refine Keeps.iteO ?_ ?_
    · refine Keeps.iteO ?_ ?_
      · refine Keeps.next ?_
        with_reducible apply State.moduleRestart_keeps
        with_reducible apply State.setTemp_keeps
        assumption
      · refine Keeps.next ?_
        with_reducible apply State.setTemp_keeps
        assumption
    · extract_lets +onlyGivenNames -underBinder s0
      have h_s0 : Keeps kb s0 := by
        unfold s0
        with_reducible apply State.setTemp_keeps
        assumption
      try clear_value s0
      extract_lets +onlyGivenNames -underBinder warm
      try clear_value warm
      extract_lets +onlyGivenNames -underBinder s1
      have h_s1 : Keeps kb s1 := by
        unfold s1
        refine Keeps.ite ?_ ?_
        · with_reducible apply State.thermWarn_keeps
          assumption
        · assumption
      try clear_value s1
      extract_lets +onlyGivenNames -underBinder src0 s2
      have h_s2 : Keeps kb s2 := by
        unfold s2
        refine Keeps.upd ?_ rfl rfl
        assumption
      try clear_value s2
      extract_lets +onlyGivenNames -underBinder hot
      try clear_value hot
      extract_lets +onlyGivenNames -underBinder s3
      have h_s3 : Keeps kb s3 := by
        unfold s3
        refine Keeps.ite ?_ ?_
        · with_reducible apply State.thermCrit_keeps
          assumption
        · assumption
      try clear_value s3
      extract_lets +onlyGivenNames -underBinder src0 s4
      have h_s4 : Keeps kb s4 := by
        unfold s4
        refine Keeps.upd ?_ rfl rfl
        assumption
      try clear_value s4
      refine Keeps.next ?_
      refine Keeps.ite ?_ ?_
      · with_reducible apply State.thermalShutdown_keeps
        assumption
      · assumption

theorem actPwrTemp_keeps {kb : State} (s : State) (h : Keeps kb s) (x : RegRow) (x2 : Word) (v : Word) :
    Keeps kb (actPwrTemp s x x2 v) := by
  unfold actPwrTemp
  refine Keeps.ite ?_ ?_
  · with_reducible apply State.setFld_keeps
    assumption
  · assumption

theorem execWakePin_keeps {kb : State} (rising : Bool) (s : State) (h : Keeps kb s) :
    KeepsOut kb (execWakePin rising s) := by
  unfold execWakePin
  refine Keeps.iteO ?_ ?_
  · refine Keeps.next ?_
    assumption
  · refine Keeps.next ?_
    with_reducible apply State.wakeEvent_keeps
    assumption

theorem execWakeRequest_keeps {kb : State} (path : Path) (v : Word) (s : State) (h : Keeps kb s) :
    KeepsOut kb (execWakeRequest path v s) := by
  unfold execWakeRequest
  refine Keeps.next ?_
  with_reducible apply State.hostWrite_keeps
  · assumption
  · intro z0 z1 z2 z3 hz
    try simp -zeta only []
    with_reducible apply actPwrCtrl_keeps
    assumption

theorem execStandbyReached_keeps {kb : State} (s : State) (h : Keeps kb s) :
    KeepsOut kb (execStandbyReached s) := by
  unfold execStandbyReached
  refine Keeps.iteO ?_ ?_
  · refine Keeps.next ?_
    assumption
  · extract_lets +onlyGivenNames -underBinder s0
    have h_s0 : Keeps kb s0 := by
      unfold s0
      with_reducible apply State.discardEntries_keeps
      assumption
    try clear_value s0
    extract_lets +onlyGivenNames -underBinder s1
    have h_s1 : Keeps kb s1 := by
      unfold s1
      refine Keeps.foldl (fun t x ht => ?_) ?_
      · try simp -zeta only []
        extract_lets +onlyGivenNames -underBinder v
        try clear_value v
        with_reducible apply State.leave_keeps
        assumption
      · assumption
    try clear_value s1
    extract_lets +onlyGivenNames -underBinder src0 src1 s2
    have h_s2 : Keeps kb s2 := by
      unfold s2
      refine Keeps.upd ?_ rfl rfl
      assumption
    try clear_value s2
    extract_lets +onlyGivenNames -underBinder s3
    have h_s3 : Keeps kb s3 := by
      unfold s3
      with_reducible apply State.svcFinish_keeps
      with_reducible apply State.setFld_keeps
      with_reducible apply State.setBit_keeps
      assumption
    try clear_value s3
    refine Keeps.next ?_
    refine Keeps.ite ?_ ?_
    · with_reducible apply State.setFld_keeps
      assumption
    · assumption

theorem State.coreReset_keeps {kb : State} (s : State) (h : Keeps kb s) (n : Nat) :
    Keeps kb (State.coreReset s n) := by
  unfold State.coreReset
  extract_lets +onlyGivenNames -underBinder fx
  have h_fx : Keeps kb fx.1 := by
    unfold fx
    with_reducible apply State.newFrame_keeps
    assumption
  try clear_value fx
  extract_lets +onlyGivenNames -underBinder fy
  have h_fy : Keeps kb fy.1 := by
    unfold fy
    with_reducible apply State.newFrame_keeps
    assumption
  try clear_value fy
  extract_lets +onlyGivenNames -underBinder r
  have h_r : Keeps kb r.1 := by
    unfold r
    with_reducible apply State.newFrame_keeps
    assumption
  try clear_value r
  with_reducible apply State.updCore_keeps
  assumption

theorem execWakeComplete_keeps {kb : State} (bad : List (Fin 34)) (s : State) (h : Keeps kb s) :
    KeepsOut kb (execWakeComplete bad s) := by
  unfold execWakeComplete
  refine Keeps.iteO ?_ ?_
  · refine Keeps.next ?_
    assumption
  · extract_lets +onlyGivenNames -underBinder s1
    have h_s1 : Keeps kb s1 := by
      unfold s1
      with_reducible apply State.setBit_keeps
      with_reducible apply State.setFld_keeps
      assumption
    try clear_value s1
    extract_lets +onlyGivenNames -underBinder s2
    have h_s2 : Keeps kb s2 := by
      unfold s2
      refine Keeps.foldl (fun t x ht => ?_) ?_
      · try simp -zeta only []
        with_reducible apply State.enterService_keeps
        assumption
      · refine Keeps.foldl (fun t x ht => ?_) ?_
        · try simp -zeta only []
          with_reducible apply State.coreReset_keeps
          assumption
        · assumption
    try clear_value s2
    extract_lets +onlyGivenNames -underBinder s3
    have h_s3 : Keeps kb s3 := by
      unfold s3
      refine Keeps.foldl (fun t x ht => ?_) ?_
      · try simp -zeta only []
        with_reducible apply State.coreFault_keeps
        assumption
      · assumption
    try clear_value s3
    extract_lets +onlyGivenNames -underBinder src0 s4
    have h_s4 : Keeps kb s4 := by
      unfold s4
      refine Keeps.upd ?_ rfl rfl
      assumption
    try clear_value s4
    extract_lets +onlyGivenNames -underBinder s5
    have h_s5 : Keeps kb s5 := by
      unfold s5
      refine Keeps.ite ?_ ?_
      · with_reducible apply State.startPage_keeps
        assumption
      · assumption
    try clear_value s5
    refine Keeps.next ?_
    with_reducible apply State.raise_keeps
    with_reducible apply State.bump_keeps
    assumption

theorem State.heartbeatLost_keeps {kb : State} (s : State) (h : Keeps kb s) (inj : Bool) :
    Keeps kb (State.heartbeatLost s inj) := by
  unfold State.heartbeatLost
  extract_lets +onlyGivenNames -underBinder t
  have h_t : Keeps kb t := by
    unfold t
    with_reducible apply State.logError_keeps
    with_reducible apply State.bump_keeps
    with_reducible apply State.raise_keeps
    assumption
  try clear_value t
  refine Keeps.ite ?_ ?_
  · with_reducible apply State.clearForced_keeps
    refine Keeps.upd ?_ rfl rfl
    assumption
  · refine Keeps.ite ?_ ?_
    · with_reducible apply State.requestStop_keeps
      assumption
    · assumption

theorem execHeartbeatExpiry_keeps {kb : State} (s : State) (h : Keeps kb s) :
    KeepsOut kb (execHeartbeatExpiry s) := by
  unfold execHeartbeatExpiry
  refine Keeps.iteO ?_ ?_
  · refine Keeps.next ?_
    assumption
  · refine Keeps.next ?_
    with_reducible apply State.heartbeatLost_keeps
    assumption

theorem actHbKick_keeps {kb : State} (s : State) (h : Keeps kb s) (x : RegRow) (x2 : Word) (x3 : Word) :
    Keeps kb (actHbKick s x x2 x3) := by
  unfold actHbKick
  refine Keeps.ite ?_ ?_
  · with_reducible apply State.clearForced_keeps
    refine Keeps.upd ?_ rfl rfl
    assumption
  · assumption

theorem execHeartbeatKick_keeps {kb : State} (path : Path) (v : Word) (s : State) (h : Keeps kb s) :
    KeepsOut kb (execHeartbeatKick path v s) := by
  unfold execHeartbeatKick
  refine Keeps.next ?_
  with_reducible apply State.hostWrite_keeps
  · assumption
  · intro z0 z1 z2 z3 hz
    try simp -zeta only []
    with_reducible apply actHbKick_keeps
    assumption

end Sys2Proof.Machine
end

