-- ==== Sys2Proof/Laws/Keeps/Pages.lean ====
section
/-! SUPPORT. What the functions of Machine/Pages.lean keep (Laws/Keeps.lean). -/

namespace Sys2Proof.Machine

theorem State.stopPage_keeps {kb : State} (s : State) (h : Keeps kb s) (p : Nat) :
    Keeps kb (State.stopPage s p) := by
  unfold State.stopPage
  extract_lets +onlyGivenNames -underBinder t
  have h_t : Keeps kb t := by
    unfold t
    with_reducible apply State.draining_keeps
    assumption
  try clear_value t
  extract_lets +onlyGivenNames -underBinder now
  try clear_value now
  refine Keeps.ite ?_ ?_
  · refine Keeps.ite ?_ ?_
    · with_reducible apply State.svcAbort_keeps
      assumption
    · assumption
  · refine Keeps.ite ?_ ?_
    · refine Keeps.foldl (fun t x ht => ?_) ?_
      · try simp -zeta only []
        refine Keeps.ite ?_ ?_
        · with_reducible apply State.setBit_keeps
          assumption
        · assumption
      · assumption
    · refine Keeps.ite ?_ ?_
      · with_reducible apply State.stopIngress_keeps
        assumption
      · refine Keeps.ite ?_ ?_
        · with_reducible apply State.stopStreams_keeps
          assumption
        · refine Keeps.ite ?_ ?_
          · refine Keeps.upd ?_ rfl rfl
            assumption
          · refine Keeps.ite ?_ ?_
            · extract_lets +onlyGivenNames -underBinder bus
              try clear_value bus
              refine Keeps.upd ?_ rfl rfl
              assumption
            · refine Keeps.ite ?_ ?_
              · refine Keeps.upd ?_ rfl rfl
                assumption
              · refine Keeps.ite ?_ ?_
                · refine Keeps.foldl (fun t x ht => ?_) ?_
                  · try simp -zeta only []
                    with_reducible apply State.stopQueue_keeps
                    assumption
                  · assumption
                · refine Keeps.ite ?_ ?_
                  · with_reducible apply State.dacReleaseAll_keeps
                    assumption
                  · refine Keeps.ite ?_ ?_
                    · with_reducible apply State.stopTest_keeps
                      assumption
                    · refine Keeps.ite ?_ ?_
                      · extract_lets +onlyGivenNames -underBinder u
                        have h_u : Keeps kb u := by
                          unfold u
                          with_reducible apply State.setPtp_keeps
                          assumption
                        try clear_value u
                        extract_lets +onlyGivenNames -underBinder src0 v
                        have h_v : Keeps kb v := by
                          unfold v
                          refine Keeps.upd ?_ rfl rfl
                          assumption
                        try clear_value v
                        refine Keeps.ite ?_ ?_
                        · extract_lets +onlyGivenNames -underBinder d
                          have h_d : Keeps kb d.2 := by
                            unfold d
                            with_reducible apply State.draw_keeps
                            assumption
                          try clear_value d
                          with_reducible apply State.loseSource_keeps
                          assumption
                        · assumption
                      · refine Keeps.ite ?_ ?_
                        · refine Keeps.upd ?_ rfl rfl
                          assumption
                        · refine Keeps.ite ?_ ?_
                          · with_reducible apply State.showSpares_keeps
                            with_reducible apply State.updCore_keeps
                            assumption
                          · assumption

theorem execPageIdle_keeps {kb : State} (p : Fin 66) (s : State) (h : Keeps kb s) :
    KeepsOut kb (execPageIdle p s) := by
  unfold execPageIdle
  refine Keeps.iteO ?_ ?_
  · refine Keeps.next ?_
    assumption
  · extract_lets +onlyGivenNames -underBinder s1
    have h_s1 : Keeps kb s1 := by
      unfold s1
      refine Keeps.ite ?_ ?_
      · with_reducible apply State.discardEntries_keeps
        assumption
      · assumption
    try clear_value s1
    extract_lets +onlyGivenNames -underBinder src0 s2
    have h_s2 : Keeps kb s2 := by
      unfold s2
      refine Keeps.ite ?_ ?_
      · refine Keeps.upd ?_ rfl rfl
        assumption
      · assumption
    try clear_value s2
    extract_lets +onlyGivenNames -underBinder s3
    have h_s3 : Keeps kb s3 := by
      unfold s3
      refine Keeps.ite ?_ ?_
      · refine Keeps.foldl (fun t x ht => ?_) ?_
        · try simp -zeta only []
          with_reducible apply State.setBit_keeps
          with_reducible apply State.setTdmPort_keeps
          assumption
        · assumption
      · assumption
    try clear_value s3
    refine Keeps.next ?_
    with_reducible apply State.idle_keeps
    assumption

theorem State.softReset_keeps {kb : State} (s : State) (h : Keeps kb s) (p : Nat) :
    Keeps kb (State.softReset s p) := by
  unfold State.softReset
  refine Keeps.foldl (fun t x ht => ?_) ?_
  · try simp -zeta only []
    refine Keeps.ite ?_ ?_
    · split
      · with_reducible apply State.setReg_keeps
        assumption
      · assumption
    · assumption
  · assumption

theorem actPageCtrl_keeps {kb : State} (p : Nat) (s : State) (h : Keeps kb s) (x : RegRow) (x3 : Word) (v : Word) :
    Keeps kb (actPageCtrl p s x x3 v) := by
  unfold actPageCtrl
  extract_lets +onlyGivenNames -underBinder on
  try clear_value on
  extract_lets +onlyGivenNames -underBinder en
  try clear_value en
  refine Keeps.ite ?_ ?_
  · with_reducible apply State.pageErr_keeps
    assumption
  · extract_lets +onlyGivenNames -underBinder s1
    have h_s1 : Keeps kb s1 := by
      unfold s1
      refine Keeps.ite ?_ ?_
      · with_reducible apply State.softReset_keeps
        assumption
      · assumption
    try clear_value s1
    extract_lets +onlyGivenNames -underBinder s2
    have h_s2 : Keeps kb s2 := by
      unfold s2
      refine Keeps.ite ?_ ?_
      · with_reducible apply State.setBit_keeps
        assumption
      · assumption
    try clear_value s2
    refine Keeps.ite ?_ ?_
    · with_reducible apply State.setBit_keeps
      assumption
    · refine Keeps.ite ?_ ?_
      · with_reducible apply State.stopPage_keeps
        with_reducible apply State.setBit_keeps
        assumption
      · refine Keeps.ite ?_ ?_
        · assumption
        · extract_lets +onlyGivenNames -underBinder s3
          have h_s3 : Keeps kb s3 := by
            unfold s3
            refine Keeps.upd ?_ rfl rfl
            assumption
          try clear_value s3
          refine Keeps.ite ?_ ?_
          · assumption
          · refine Keeps.ite ?_ ?_
            · refine Keeps.upd ?_ rfl rfl
              assumption
            · extract_lets +onlyGivenNames -underBinder s4
              have h_s4 : Keeps kb s4 := by
                unfold s4
                with_reducible apply State.startPage_keeps
                assumption
              try clear_value s4
              refine Keeps.ite ?_ ?_
              · with_reducible apply State.showSpares_keeps
                assumption
              · assumption

theorem State.writePageCtrl_keeps {kb : State} (s : State) (h : Keeps kb s) (path : Path) (p : Nat) (v : Word) :
    Keeps kb (State.writePageCtrl s path p v) := by
  unfold State.writePageCtrl
  with_reducible apply State.hostWrite_keeps
  · assumption
  · intro z0 z1 z2 z3 hz
    try simp -zeta only []
    with_reducible apply actPageCtrl_keeps
    assumption

theorem execPageDisable_keeps {kb : State} (path : Path) (p : Fin 66) (v : Word) (s : State) (h : Keeps kb s) :
    KeepsOut kb (execPageDisable path p v s) := by
  unfold execPageDisable
  refine Keeps.next ?_
  with_reducible apply State.writePageCtrl_keeps
  assumption

theorem execPageEnable_keeps {kb : State} (path : Path) (p : Fin 66) (v : Word) (s : State) (h : Keeps kb s) :
    KeepsOut kb (execPageEnable path p v s) := by
  unfold execPageEnable
  refine Keeps.next ?_
  with_reducible apply State.writePageCtrl_keeps
  assumption

theorem execPageSoftReset_keeps {kb : State} (path : Path) (p : Fin 66) (v : Word) (s : State) (h : Keeps kb s) :
    KeepsOut kb (execPageSoftReset path p v s) := by
  unfold execPageSoftReset
  refine Keeps.next ?_
  with_reducible apply State.writePageCtrl_keeps
  assumption

theorem execPageLock_keeps {kb : State} (path : Path) (p : Fin 66) (v : Word) (s : State) (h : Keeps kb s) :
    KeepsOut kb (execPageLock path p v s) := by
  unfold execPageLock
  refine Keeps.next ?_
  with_reducible apply State.writePageCtrl_keeps
  assumption

theorem actIrqEn_keeps {kb : State} (p : Nat) (s : State) (h : Keeps kb s) (r : RegRow) (old : Word) (v : Word) :
    Keeps kb (actIrqEn p s r old v) := by
  unfold actIrqEn
  with_reducible apply State.deliverAll_keeps
  with_reducible apply State.setReg_keeps
  assumption

theorem actMsiEn_keeps {kb : State} (off : Nat) (s : State) (h : Keeps kb s) (r : RegRow) (old : Word) (v : Word) :
    Keeps kb (actMsiEn off s r old v) := by
  unfold actMsiEn
  with_reducible apply State.deliverAll_keeps
  with_reducible apply State.setReg_keeps
  assumption

theorem actMsix_keeps {kb : State} (off : Nat) (s : State) (h : Keeps kb s) (r : RegRow) (old : Word) (v : Word) :
    Keeps kb (actMsix off s r old v) := by
  unfold actMsix
  with_reducible apply State.flushMsix_keeps
  with_reducible apply State.setReg_keeps
  assumption

theorem actDbgHit_keeps {kb : State} (s : State) (h : Keeps kb s) (x : RegRow) (x2 : Word) (v : Word) :
    Keeps kb (actDbgHit s x x2 v) := by
  unfold actDbgHit
  refine Keeps.ite ?_ ?_
  · with_reducible apply State.setReg_keeps
    assumption
  · assumption

theorem actClearMax_keeps {kb : State} (off : Nat) (s : State) (h : Keeps kb s) (x : RegRow) (x3 : Word) (v : Word) :
    Keeps kb (actClearMax off s x x3 v) := by
  unfold actClearMax
  refine Keeps.ite ?_ ?_
  · with_reducible apply State.setReg_keeps
    assumption
  · assumption

theorem State.fireNow_keeps {kb : State} (s : State) (h : Keeps kb s) (p : Nat) :
    Keeps kb (State.fireNow s p) := by
  unfold State.fireNow
  extract_lets +onlyGivenNames -underBinder off
  try clear_value off
  refine Keeps.ite ?_ ?_
  · assumption
  · extract_lets +onlyGivenNames -underBinder det
    try clear_value det
    extract_lets +onlyGivenNames -underBinder sub
    try clear_value sub
    extract_lets +onlyGivenNames -underBinder fired
    have h_fired : Keeps kb fired := by
      unfold fired
      with_reducible apply State.raise_keeps
      with_reducible apply State.setBit_keeps
      assumption
    try clear_value fired
    refine Keeps.ite ?_ ?_
    · extract_lets +onlyGivenNames -underBinder pll
      try clear_value pll
      refine Keeps.ite ?_ ?_
      · refine Keeps.ite ?_ ?_
        · assumption
        · extract_lets +onlyGivenNames -underBinder d
          have h_d : Keeps kb d.2 := by
            unfold d
            with_reducible apply State.draw_keeps
            assumption
          try clear_value d
          with_reducible apply State.loseSource_keeps
          assumption
      · split
        · refine Keeps.ite ?_ ?_
          · with_reducible apply State.pllLost_keeps
            refine Keeps.updDraws ?_ rfl rfl
            assumption
          · assumption
        · assumption
    · refine Keeps.ite ?_ ?_
      · refine Keeps.ite ?_ ?_
        · with_reducible apply State.thermWarn_keeps
          assumption
        · refine Keeps.ite ?_ ?_
          · with_reducible apply State.thermCrit_keeps
            assumption
          · extract_lets +onlyGivenNames -underBinder d
            have h_d : Keeps kb d.2 := by
              unfold d
              with_reducible apply State.draw_keeps
              assumption
            try clear_value d
            refine Keeps.ite ?_ ?_
            · with_reducible apply State.railFault_keeps
              assumption
            · with_reducible apply State.railFault_keeps
              assumption
      · refine Keeps.ite ?_ ?_
        · refine Keeps.ite ?_ ?_
          · assumption
          · with_reducible apply State.heartbeatLost_keeps
            assumption
        · refine Keeps.ite ?_ ?_
          · with_reducible apply State.moduleRestart_keeps
            with_reducible apply State.logError_keeps
            assumption
          · refine Keeps.ite ?_ ?_
            · extract_lets +onlyGivenNames -underBinder d
              have h_d : Keeps kb d.2 := by
                unfold d
                with_reducible apply State.draw_keeps
                assumption
              try clear_value d
              refine Keeps.ite ?_ ?_
              · with_reducible apply State.overcurrent_keeps
                assumption
              · refine Keeps.ite ?_ ?_
                · with_reducible apply State.overcurrent_keeps
                  assumption
                · assumption
            · refine Keeps.ite ?_ ?_
              · refine Keeps.ite ?_ ?_
                · extract_lets +onlyGivenNames -underBinder d
                  have h_d : Keeps kb d.2 := by
                    unfold d
                    with_reducible apply State.draw_keeps
                    assumption
                  try clear_value d
                  with_reducible apply State.linkChange_keeps
                  assumption
                · assumption
              · refine Keeps.ite ?_ ?_
                · with_reducible apply State.logError_keeps
                  with_reducible apply State.pageErr_keeps
                  with_reducible apply State.raise_keeps
                  assumption
                · assumption

theorem actErrInj_keeps {kb : State} (p : Nat) (s : State) (h : Keeps kb s) (r : RegRow) (old : Word) (v : Word) :
    Keeps kb (actErrInj p s r old v) := by
  unfold actErrInj
  extract_lets +onlyGivenNames -underBinder off
  try clear_value off
  refine Keeps.ite ?_ ?_
  · with_reducible apply State.setReg_keeps
    assumption
  · refine Keeps.ite ?_ ?_
    · with_reducible apply State.bump_keeps
      assumption
    · with_reducible apply State.fireNow_keeps
      with_reducible apply State.setBit_keeps
      with_reducible apply State.setReg_keeps
      assumption

theorem execErrorInjectArm_keeps {kb : State} (path : Path) (p : Fin 66) (v : Word) (s : State) (h : Keeps kb s) :
    KeepsOut kb (execErrorInjectArm path p v s) := by
  unfold execErrorInjectArm
  refine Keeps.next ?_
  with_reducible apply State.hostWrite_keeps
  · assumption
  · intro z0 z1 z2 z3 hz
    try simp -zeta only []
    with_reducible apply actErrInj_keeps
    assumption

theorem actHbCfg_keeps {kb : State} (s : State) (h : Keeps kb s) (r : RegRow) (old : Word) (v : Word) :
    Keeps kb (actHbCfg s r old v) := by
  unfold actHbCfg
  with_reducible apply State.fireNow_keeps
  with_reducible apply State.setReg_keeps
  assumption

theorem actGlbFence_keeps {kb : State} (s : State) (h : Keeps kb s) (x : RegRow) (x2 : Word) (v : Word) :
    Keeps kb (actGlbFence s x x2 v) := by
  unfold actGlbFence
  extract_lets +onlyGivenNames -underBinder all
  try clear_value all
  extract_lets +onlyGivenNames -underBinder src
  refine Keeps.ite ?_ ?_
  · with_reducible apply State.pageErrFlag_keeps
    assumption
  · extract_lets +onlyGivenNames -underBinder a
    have h_a : Keeps kb a.2 := by
      unfold a
      with_reducible apply State.arrive_keeps
      assumption
    try clear_value a
    with_reducible apply State.setReg_keeps
    with_reducible apply State.addFence_keeps
    assumption

theorem execGlbFence_keeps {kb : State} (path : Path) (v : Word) (s : State) (h : Keeps kb s) :
    KeepsOut kb (execGlbFence path v s) := by
  unfold execGlbFence
  refine Keeps.next ?_
  with_reducible apply State.hostWrite_keeps
  · assumption
  · intro z0 z1 z2 z3 hz
    try simp -zeta only []
    with_reducible apply actGlbFence_keeps
    assumption

end Sys2Proof.Machine
end

