-- ==== Sys2Proof/Laws/Keeps/Boot.lean ====
section
/-! SUPPORT. What the functions of Machine/Boot.lean keep (Laws/Keeps.lean). -/

namespace Sys2Proof.Machine

theorem State.bootTo_keeps {kb : State} (s : State) (h : Keeps kb s) (st : Nat) :
    Keeps kb (State.bootTo s st) := by
  unfold State.bootTo
  with_reducible apply State.raise_keeps
  with_reducible apply State.setFld_keeps
  assumption

theorem State.attempt_keeps {kb : State} (s : State) (h : Keeps kb s) (which : Nat) :
    Keeps kb (State.attempt s which) := by
  have hk : ∀ t b w, Keeps kb t → Keeps kb { t with pwr := { t.pwr with loading := w, triedB := b } } :=
    fun _ _ _ ht => Keeps.upd ht rfl rfl
  exact hk _ _ _ (State.bootTo_keeps _ (State.bump_keeps _ h _) _)

theorem execBootInitDone_keeps {kb : State} (passed : BitVec 34) (validA : Bool) (validB : Bool) (seqA : Word) (seqB : Word) (s : State) (h : Keeps kb s) :
    KeepsOut kb (execBootInitDone passed validA validB seqA seqB s) := by
  have hk : ∀ t ctl, Keeps kb t → Keeps kb { t with con := [], ctl := ctl } :=
    fun _ _ ht => ht.trans ⟨rfl, rfl, Nat.le_refl _, fun c => ⟨rfl, c.dram, c.regs⟩⟩
  unfold execBootInitDone
  refine Keeps.iteO h (Keeps.next ?_)
  refine State.attempt_keeps _ (State.applyHold_keeps _ (State.showSpares_keeps _ ?_ _) _) _
  refine Keeps.foldl (fun t x ht => State.updCore_keeps _ ht _ _) ?_
  refine Keeps.foldl (fun t x ht => State.enterService_keeps _ ht _) (hk _ _ ?_)
  exact Keeps.foldl (fun t x ht => State.setBit_keeps _ ht _ _ _) h

theorem execBackoffExpiry_keeps {kb : State} (s : State) (h : Keeps kb s) :
    KeepsOut kb (execBackoffExpiry s) := by
  unfold execBackoffExpiry
  refine Keeps.iteO ?_ ?_
  · refine Keeps.next ?_
    assumption
  · refine Keeps.next ?_
    with_reducible apply State.attempt_keeps
    assumption

theorem State.hostGo_keeps {kb : State} (s : State) (h : Keeps kb s) :
    Keeps kb (State.hostGo s) := by
  unfold State.hostGo
  extract_lets +onlyGivenNames -underBinder st
  try clear_value st
  refine Keeps.ite ?_ ?_
  · with_reducible apply State.setBit_keeps
    assumption
  · refine Keeps.ite ?_ ?_
    · with_reducible apply State.attempt_keeps
      assumption
    · refine Keeps.upd ?_ rfl rfl
      assumption

theorem actBootCtrl_keeps {kb : State} (s : State) (h : Keeps kb s) (r : RegRow) (old : Word) (v : Word) :
    Keeps kb (actBootCtrl s r old v) := by
  unfold actBootCtrl
  extract_lets +onlyGivenNames -underBinder s1
  have h_s1 : Keeps kb s1 := by
    unfold s1
    with_reducible apply State.setReg_keeps
    assumption
  try clear_value s1
  refine Keeps.ite ?_ ?_
  · with_reducible apply State.hostGo_keeps
    assumption
  · assumption

theorem execHostImageGo_keeps {kb : State} (path : Path) (v : Word) (s : State) (h : Keeps kb s) :
    KeepsOut kb (execHostImageGo path v s) := by
  unfold execHostImageGo
  refine Keeps.next ?_
  with_reducible apply State.hostWrite_keeps
  · assumption
  · intro z0 z1 z2 z3 hz
    try simp -zeta only []
    with_reducible apply actBootCtrl_keeps
    assumption

theorem actFuseCtrl_keeps {kb : State} (s : State) (h : Keeps kb s) (x : RegRow) (x2 : Word) (v : Word) :
    Keeps kb (actFuseCtrl s x x2 v) := by
  unfold actFuseCtrl
  refine Keeps.ite ?_ ?_
  · assumption
  · refine Keeps.ite ?_ ?_
    · with_reducible apply State.setBit_keeps
      assumption
    · with_reducible apply State.setBit_keeps
      assumption

theorem actFuseData_keeps {kb : State} (i : Nat) (s : State) (h : Keeps kb s) (r : RegRow) (old : Word) (v : Word) :
    Keeps kb (actFuseData i s r old v) := by
  unfold actFuseData
  refine Keeps.ite ?_ ?_
  · assumption
  · with_reducible apply State.setReg_keeps
    assumption

theorem execFuseProgram_keeps {kb : State} (path : Path) (v : Word) (s : State) (h : Keeps kb s) :
    KeepsOut kb (execFuseProgram path v s) := by
  unfold execFuseProgram
  refine Keeps.next ?_
  with_reducible apply State.hostWrite_keeps
  · assumption
  · intro z0 z1 z2 z3 hz
    try simp -zeta only []
    with_reducible apply actFuseCtrl_keeps
    assumption

theorem State.imageFails_keeps {kb : State} (s : State) (h : Keeps kb s) (err : Nat) (inj : Bool) :
    Keeps kb (State.imageFails s err inj) := by
  unfold State.imageFails
  with_reducible apply State.logError_keeps
  with_reducible apply State.pageErr_keeps
  with_reducible apply State.raise_keeps
  with_reducible apply State.setFld_keeps
  assumption

theorem State.checkImage_keeps {kb : State} (s : State) (h : Keeps kb s) (identified : Bool) (host : Bool) (flashLog : Nat) (bytes : List Byte) :
    Keeps kb (State.checkImage s identified host flashLog bytes).1 := by
  unfold State.checkImage
  extract_lets +onlyGivenNames -underBinder a
  try clear_value a
  extract_lets +onlyGivenNames -underBinder stop
  try clear_value stop
  extract_lets +onlyGivenNames -underBinder slot
  try clear_value slot
  extract_lets +onlyGivenNames -underBinder b
  try clear_value b
  extract_lets +onlyGivenNames -underBinder err
  try clear_value err
  extract_lets +onlyGivenNames -underBinder k
  have h_k : Keeps kb k.st := by
    unfold k
    with_reducible apply State.check_keeps
    assumption
  try clear_value k
  extract_lets +onlyGivenNames -underBinder t
  have h_t : Keeps kb t := by
    unfold t
    with_reducible apply State.conStore_keeps
    assumption
  try clear_value t
  assumption

theorem execImageCheck_keeps {kb : State} (identified : Bool) (flashLog : Fin 7) (bytes : List Byte) (s : State) (h : Keeps kb s) :
    KeepsOut kb (execImageCheck identified flashLog bytes s) := by
  unfold execImageCheck
  extract_lets +onlyGivenNames -underBinder st
  try clear_value st
  refine Keeps.iteO ?_ ?_
  · refine Keeps.next ?_
    assumption
  · extract_lets +onlyGivenNames -underBinder r
    have h_r : Keeps kb r.1 := by
      unfold r
      with_reducible apply State.checkImage_keeps
      assumption
    try clear_value r
    extract_lets +onlyGivenNames -underBinder src0 src1 t
    have h_src0 : Keeps kb src0 := by
      unfold src0
      assumption
    have h_t : Keeps kb t := by
      unfold t
      refine Keeps.upd ?_ rfl rfl
      assumption
    try clear_value t
    refine Keeps.iteO ?_ ?_
    · extract_lets +onlyGivenNames -underBinder u
      have h_u : Keeps kb u := by
        unfold u
        with_reducible apply State.bootTo_keeps
        with_reducible apply State.imageFails_keeps
        assumption
      try clear_value u
      refine Keeps.next ?_
      refine Keeps.ite ?_ ?_
      · with_reducible apply State.attempt_keeps
        assumption
      · assumption
    · refine Keeps.next ?_
      with_reducible apply State.bootTo_keeps
      refine Keeps.ite ?_ ?_
      · with_reducible apply State.setBit_keeps
        assumption
      · assumption

end Sys2Proof.Machine
end

