-- ==== Sys2Proof/Laws/Keeps/RegWrite.lean ====
section
/-! SUPPORT. What the functions of Machine/RegWrite.lean keep (Laws/Keeps.lean). -/

namespace Sys2Proof.Machine

theorem actHsi_keeps {kb : State} (k : Nat) (s : State) (h : Keeps kb s) (r : RegRow) (old : Word) (v : Word) :
    Keeps kb (actHsi k s r old v) := by
  unfold actHsi
  extract_lets +onlyGivenNames -underBinder new
  try clear_value new
  extract_lets +onlyGivenNames -underBinder first
  try clear_value first
  extract_lets +onlyGivenNames -underBinder n
  try clear_value n
  extract_lets +onlyGivenNames -underBinder meets
  try clear_value meets
  refine Keeps.ite ?_ ?_
  · with_reducible apply State.pageErrFlag_keeps
    assumption
  · with_reducible apply State.setReg_keeps
    assumption

theorem actLow_keeps {kb : State} (off : Nat) (a : State) (h : Keeps kb a) (a2 : RegRow) (a3 : Word) (a4 : Word) :
    Keeps kb (actLow off a a2 a3 a4) := by
  have hk : KeepsAct (actLow off) := by
    unfold actLow
    try dsimp only
    repeat' with_reducible apply Keeps.iteA
    all_goals intro b s h r o v
    all_goals first
      | (with_reducible apply actGlbFence_keeps; exact h)
      | (with_reducible apply actSvcCmd_keeps; exact h)
      | (with_reducible apply actSvcArg_keeps; exact h)
      | (with_reducible apply actSvcAbort_keeps; exact h)
      | (with_reducible apply actMediaCtrl_keeps; exact h)
      | (with_reducible apply actMediaCfg_keeps; exact h)
      | (with_reducible apply actSrcOrder_keeps; exact h)
      | (with_reducible apply actPwrCtrl_keeps; exact h)
      | (with_reducible apply actPwrTemp_keeps; exact h)
      | (with_reducible apply actBootCtrl_keeps; exact h)
      | (with_reducible apply actFuseCtrl_keeps; exact h)
      | (with_reducible apply actFuseData_keeps; exact h)
      | (with_reducible apply actPmuCtrl_keeps; exact h)
      | (with_reducible apply actPmuRing_keeps; exact h)
      | (with_reducible apply actMsiEn_keeps; exact h)
      | (with_reducible apply actHbCfg_keeps; exact h)
      | (with_reducible apply actHbKick_keeps; exact h)
      | (with_reducible apply storeAct_keeps; exact h)
  exact hk _ _ h _ _ _

theorem actNtfCfg_keeps {kb : State} (s : State) (h : Keeps kb s) (r : RegRow) (old : Word) (v : Word) :
    Keeps kb (actNtfCfg s r old v) := by
  unfold actNtfCfg
  extract_lets +onlyGivenNames -underBinder t
  have h_t : Keeps kb t := by
    unfold t
    with_reducible apply State.setReg_keeps
    assumption
  try clear_value t
  refine Keeps.ite ?_ ?_
  · assumption
  · refine Keeps.upd ?_ rfl rfl
    assumption

theorem actMid_keeps {kb : State} (off : Nat) (a : State) (h : Keeps kb a) (a2 : RegRow) (a3 : Word) (a4 : Word) :
    Keeps kb (actMid off a a2 a3 a4) := by
  have hk : KeepsAct (actMid off) := by
    unfold actMid
    try dsimp only
    repeat' with_reducible apply Keeps.iteA
    all_goals intro b s h r o v
    all_goals first
      | (with_reducible apply actRingPi_keeps; exact h)
      | (with_reducible apply actNtfCfg_keeps; exact h)
      | (with_reducible apply actQuota_keeps; exact h)
      | (with_reducible apply actPsData_keeps; exact h)
      | (with_reducible apply actClearMax_keeps; exact h)
      | (with_reducible apply actExpCycles_keeps; exact h)
      | (with_reducible apply actExpCfg_keeps; exact h)
      | (with_reducible apply actSchCtrl_keeps; exact h)
      | (with_reducible apply actShunt_keeps; exact h)
      | (with_reducible apply actSpfPart_keeps; exact h)
      | (with_reducible apply actTable_keeps; exact h)
      | (with_reducible apply actCoefData_keeps; exact h)
      | (with_reducible apply actTaps_keeps; exact h)
      | (with_reducible apply actCapSrc_keeps; exact h)
      | (with_reducible apply storeAct_keeps; exact h)
  exact hk _ _ h _ _ _

theorem actHigh_keeps {kb : State} (off : Nat) (a : State) (h : Keeps kb a) (a2 : RegRow) (a3 : Word) (a4 : Word) :
    Keeps kb (actHigh off a a2 a3 a4) := by
  have hk : KeepsAct (actHigh off) := by
    unfold actHigh
    try dsimp only
    repeat' with_reducible apply Keeps.iteA
    all_goals intro b s h r o v
    all_goals first
      | (with_reducible apply actOqCfg_keeps; exact h)
      | (with_reducible apply actDacCtrl_keeps; exact h)
      | (with_reducible apply actDacCfg_keeps; exact h)
      | (with_reducible apply actDacTone_keeps; exact h)
      | (with_reducible apply actDacStat_keeps; exact h)
      | (with_reducible apply actConCtrl_keeps; exact h)
      | (with_reducible apply actConAttr_keeps; exact h)
      | (with_reducible apply actClearMax_keeps; exact h)
      | (with_reducible apply strmAct_keeps; exact h)
      | (with_reducible apply actSessCfg_keeps; exact h)
      | (with_reducible apply actSessAddr_keeps; exact h)
      | (with_reducible apply actHsi_keeps; exact h)
      | (with_reducible apply actMsix_keeps; exact h)
      | (with_reducible apply actTdmCfg_keeps; exact h)
      | (with_reducible apply actDbgHit_keeps; exact h)
      | (with_reducible apply storeAct_keeps; exact h)
  exact hk _ _ h _ _ _

theorem actCore_keeps {kb : State} (off : Nat) (a : State) (h : Keeps kb a) (a2 : RegRow) (a3 : Word) (a4 : Word) :
    Keeps kb (actCore off a a2 a3 a4) := by
  have hk : KeepsAct (actCore off) := by
    unfold actCore
    try dsimp only
    repeat' with_reducible apply Keeps.iteA
    all_goals intro b s h r o v
    all_goals first
      | (with_reducible apply actDoorbell_keeps; exact h)
      | (with_reducible apply actVcCtrl_keeps; exact h)
      | (with_reducible apply actProgramLoad_keeps; exact h)
      | (with_reducible apply storeAct_keeps; exact h)
  exact hk _ _ h _ _ _

theorem actOf_keeps {kb : State} (off : Nat) (a : State) (h : Keeps kb a) (a2 : RegRow) (a3 : Word) (a4 : Word) :
    Keeps kb (actOf off a a2 a3 a4) := by
  have hk : KeepsAct (actOf off) := by
    unfold actOf
    try dsimp only
    repeat' with_reducible apply Keeps.iteA
    all_goals intro b s h r o v
    all_goals first
      | (with_reducible apply actPageCtrl_keeps; exact h)
      | (with_reducible apply actIrqEn_keeps; exact h)
      | (with_reducible apply actErrInj_keeps; exact h)
      | (with_reducible apply storeAct_keeps; exact h)
      | (with_reducible apply actLow_keeps; exact h)
      | (with_reducible apply actMid_keeps; exact h)
      | (with_reducible apply actHigh_keeps; exact h)
      | (with_reducible apply actCore_keeps; exact h)
  exact hk _ _ h _ _ _

theorem State.regWrite_keeps {kb : State} (s : State) (h : Keeps kb s) (by_ : Writer) (off : Nat) (v : Word) :
    Keeps kb (State.regWrite s by_ off v) := by
  unfold State.regWrite
  with_reducible apply State.hostWrite_keeps
  · assumption
  · intro z0 z1 z2 z3 hz
    try simp -zeta only []
    with_reducible apply actOf_keeps
    assumption

theorem State.readReg_keeps {kb : State} (s : State) (h : Keeps kb s) (path : Path) (off : Nat) (mtFrac : BitVec 8) (ptp : BitVec 64) :
    Keeps kb (State.readReg s path off mtFrac ptp).1 := by
  unfold State.readReg
  extract_lets +onlyGivenNames -underBinder p
  try clear_value p
  split
  · assumption
  · refine Keeps.iteP (p := Prod.fst) ?_ ?_
    · extract_lets +onlyGivenNames -underBinder err
      try clear_value err
      assumption
    · refine Keeps.iteP (p := Prod.fst) ?_ ?_
      · with_reducible apply State.readMt_keeps
        assumption
      · refine Keeps.iteP (p := Prod.fst) ?_ ?_
        · assumption
        · refine Keeps.iteP (p := Prod.fst) ?_ ?_
          · with_reducible apply State.readPmu_keeps
            assumption
          · refine Keeps.iteP (p := Prod.fst) ?_ ?_
            · assumption
            · refine Keeps.iteP (p := Prod.fst) ?_ ?_
              · with_reducible apply State.latch_keeps
                assumption
              · refine Keeps.iteP (p := Prod.fst) ?_ ?_
                · assumption
                · extract_lets +onlyGivenNames -underBinder v
                  try clear_value v
                  assumption

theorem execGlbRead_keeps {kb : State} (path : Path) (o : Fin 1024) (s : State) (h : Keeps kb s) :
    KeepsOut kb (execGlbRead path o s) := by
  unfold execGlbRead
  refine Keeps.iteO ?_ ?_
  · refine Keeps.next ?_
    assumption
  · extract_lets +onlyGivenNames -underBinder r
    have h_r : Keeps kb r.1 := by
      unfold r
      with_reducible apply State.readReg_keeps
      assumption
    try clear_value r
    refine Keeps.next ?_
    with_reducible apply State.send_keeps
    assumption

theorem execPtpTimeRead_keeps {kb : State} (path : Path) (now : BitVec 64) (s : State) (h : Keeps kb s) :
    KeepsOut kb (execPtpTimeRead path now s) := by
  unfold execPtpTimeRead
  refine Keeps.iteO ?_ ?_
  · refine Keeps.next ?_
    assumption
  · extract_lets +onlyGivenNames -underBinder r
    have h_r : Keeps kb r.1 := by
      unfold r
      with_reducible apply State.readReg_keeps
      assumption
    try clear_value r
    refine Keeps.next ?_
    with_reducible apply State.send_keeps
    assumption

theorem execRegisterWrite_keeps {kb : State} (path : Path) (off : BitVec 20) (be : BitVec 4) (v : Word) (s : State) (h : Keeps kb s) :
    KeepsOut kb (execRegisterWrite path off be v s) := by
  unfold execRegisterWrite
  refine Keeps.iteO ?_ ?_
  · refine Keeps.next ?_
    assumption
  · refine Keeps.iteO ?_ ?_
    · refine Keeps.next ?_
      with_reducible apply State.pageErrFlag_keeps
      assumption
    · refine Keeps.next ?_
      with_reducible apply State.regWrite_keeps
      assumption

end Sys2Proof.Machine
end

