-- ==== Sys2Proof/Laws/Keeps/Apply.lean ====
section
/-! SUPPORT. What the functions of Machine/Apply.lean keep (Laws/Keeps.lean). -/

namespace Sys2Proof.Machine

theorem State.applyRecord_keeps {kb : State} (s : State) (h : Keeps kb s) (st : Nat) (r : List Byte) :
    Keeps kb (State.applyRecord s st r) := by
  unfold State.applyRecord
  refine Keeps.ite ?_ ?_
  · assumption
  · extract_lets +onlyGivenNames -underBinder off
    try clear_value off
    extract_lets +onlyGivenNames -underBinder v
    try clear_value v
    extract_lets +onlyGivenNames -underBinder t
    have h_t : Keeps kb t := by
      unfold t
      with_reducible apply State.regWrite_keeps
      assumption
    try clear_value t
    refine Keeps.ite ?_ ?_
    · assumption
    · refine Keeps.ite ?_ ?_
      · with_reducible apply State.bump_keeps
        assumption
      · assumption

theorem State.loadBundles_keeps {kb : State} (s : State) (h : Keeps kb s) (n : Nat) (a : Nat) (bundles : List (List Byte)) :
    Keeps kb (State.loadBundles s n a bundles) := by
  unfold State.loadBundles
  with_reducible apply State.updCore_keeps
  assumption

theorem State.imageField_keeps {kb : State} (s : State) (h : Keeps kb s) (off : Nat) (lo : Nat) (w : Nat) (v : Nat) :
    Keeps kb (State.imageField s off lo w v) := by
  unfold State.imageField
  with_reducible apply State.regWrite_keeps
  assumption

theorem State.loadEntry_keeps {kb : State} (s : State) (h : Keeps kb s) (pset : Nat) (e : List Byte) :
    Keeps kb (State.loadEntry s pset e) := by
  unfold State.loadEntry
  extract_lets +onlyGivenNames -underBinder i
  try clear_value i
  extract_lets +onlyGivenNames -underBinder entry
  try clear_value entry
  extract_lets +onlyGivenNames -underBinder limit
  try clear_value limit
  refine Keeps.ite ?_ ?_
  · extract_lets +onlyGivenNames -underBinder t
    have h_t : Keeps kb t := by
      unfold t
      with_reducible apply State.imageField_keeps
      with_reducible apply State.imageField_keeps
      assumption
    try clear_value t
    refine Keeps.ite ?_ ?_
    · assumption
    · with_reducible apply State.imageField_keeps
      assumption
  · extract_lets +onlyGivenNames -underBinder t
    have h_t : Keeps kb t := by
      unfold t
      with_reducible apply State.imageField_keeps
      with_reducible apply State.imageField_keeps
      assumption
    try clear_value t
    refine Keeps.ite ?_ ?_
    · assumption
    · with_reducible apply State.imageField_keeps
      assumption

theorem State.loadSection_keeps {kb : State} (s : State) (h : Keeps kb s) (pset : Nat) (b : List Byte) (x : Section) :
    Keeps kb (State.loadSection s pset b x) := by
  unfold State.loadSection
  refine Keeps.ite ?_ ?_
  · refine Keeps.foldl (fun t x ht => ?_) ?_
    · try simp -zeta only []
      with_reducible apply State.loadBundles_keeps
      assumption
    · assumption
  · refine Keeps.ite ?_ ?_
    · with_reducible apply State.conStore_keeps
      assumption
    · refine Keeps.ite ?_ ?_
      · refine Keeps.foldl (fun t x ht => ?_) ?_
        · try simp -zeta only []
          with_reducible apply State.loadEntry_keeps
          assumption
        · assumption
      · assumption

theorem State.loadObject_keeps {kb : State} (s : State) (h : Keeps kb s) (b : List Byte) :
    Keeps kb (State.loadObject s b) := by
  unfold State.loadObject
  extract_lets +onlyGivenNames -underBinder pset
  try clear_value pset
  extract_lets +onlyGivenNames -underBinder secs
  try clear_value secs
  extract_lets +onlyGivenNames -underBinder load
  have h_load : ∀ z0 z1, Keeps kb z0 → Keeps kb (load z0 z1) := by
    intro z0 z1 hz
    unfold load
    try simp -zeta only []
    refine Keeps.foldl (fun t x ht => ?_) ?_
    · try simp -zeta only []
      with_reducible apply State.loadSection_keeps
      assumption
    · assumption
  try clear_value load
  extract_lets +onlyGivenNames -underBinder s1
  have h_s1 : Keeps kb s1 := by
    unfold s1
    apply h_load
    assumption
  try clear_value s1
  extract_lets +onlyGivenNames -underBinder s2
  have h_s2 : Keeps kb s2 := by
    unfold s2
    refine Keeps.ite ?_ ?_
    · refine Keeps.foldl (fun t x ht => ?_) ?_
      · try simp -zeta only []
        with_reducible apply State.imageField_keeps
        assumption
      · assumption
    · assumption
  try clear_value s2
  apply h_load
  apply h_load
  assumption

theorem State.applyImage_keeps {kb : State} (s : State) (h : Keeps kb s) (b : List Byte) :
    Keeps kb (State.applyImage s b) := by
  unfold State.applyImage
  extract_lets +onlyGivenNames -underBinder st
  try clear_value st
  refine Keeps.foldl (fun t x ht => ?_) ?_
  · try simp -zeta only []
    refine Keeps.ite ?_ ?_
    · assumption
    · refine Keeps.ite ?_ ?_
      · refine Keeps.foldl (fun t x ht => ?_) ?_
        · try simp -zeta only []
          with_reducible apply State.applyRecord_keeps
          assumption
        · assumption
      · with_reducible apply State.loadObject_keeps
        assumption
  · assumption

theorem State.imageApplied_keeps {kb : State} (s : State) (h : Keeps kb s) (which : Nat) (b : List Byte) :
    Keeps kb (State.imageApplied s which b) := by
  unfold State.imageApplied
  with_reducible apply State.setReg_keeps
  with_reducible apply State.setFld_keeps
  assumption

theorem execBootDone_keeps {kb : State} (s : State) (h : Keeps kb s) :
    KeepsOut kb (execBootDone s) := by
  unfold execBootDone
  refine Keeps.iteO ?_ ?_
  · refine Keeps.next ?_
    assumption
  · extract_lets +onlyGivenNames -underBinder b
    try clear_value b
    extract_lets +onlyGivenNames -underBinder t
    have h_t : Keeps kb t := by
      unfold t
      with_reducible apply State.applyImage_keeps
      assumption
    try clear_value t
    refine Keeps.iteO ?_ ?_
    · refine Keeps.next ?_
      assumption
    · extract_lets +onlyGivenNames -underBinder u
      have h_u : Keeps kb u := by
        unfold u
        with_reducible apply State.showMode_keeps
        with_reducible apply State.bootTo_keeps
        with_reducible apply State.imageApplied_keeps
        assumption
      try clear_value u
      refine Keeps.next ?_
      refine Keeps.foldl (fun t x ht => ?_) ?_
      · try simp -zeta only []
        with_reducible apply State.enterService_keeps
        assumption
      · assumption

theorem State.restoreCore_keeps {kb : State} (s : State) (h : Keeps kb s) (n : Nat) :
    Keeps kb (State.restoreCore s n) := by
  unfold State.restoreCore
  extract_lets +onlyGivenNames -underBinder before
  try clear_value before
  extract_lets +onlyGivenNames -underBinder t
  have h_t : Keeps kb t := by
    unfold t
    with_reducible apply State.updCore_keeps
    with_reducible apply State.coreReset_keeps
    assumption
  try clear_value t
  refine Keeps.ite ?_ ?_
  · extract_lets +onlyGivenNames -underBinder m
    try clear_value m
    with_reducible apply State.showSpares_keeps
    with_reducible apply State.updCore_keeps
    with_reducible apply State.setPset_keeps
    assumption
  · with_reducible apply State.showSpares_keeps
    assumption

theorem State.commitImage_keeps {kb : State} (s : State) (h : Keeps kb s) (fail : Bool) (flashLog : Nat) :
    Keeps kb (State.commitImage s fail flashLog).1 := by
  unfold State.commitImage
  extract_lets +onlyGivenNames -underBinder which
  try clear_value which
  extract_lets +onlyGivenNames -underBinder a
  try clear_value a
  extract_lets +onlyGivenNames -underBinder len
  try clear_value len
  extract_lets +onlyGivenNames -underBinder bad
  try clear_value bad
  extract_lets +onlyGivenNames -underBinder old
  try clear_value old
  extract_lets +onlyGivenNames -underBinder image
  try clear_value image
  extract_lets +onlyGivenNames -underBinder put
  try clear_value put
  refine Keeps.upd ?_ rfl rfl
  assumption

theorem State.reloadImage_keeps {kb : State} (s : State) (h : Keeps kb s) (fail : Bool) (flashLog : Nat) (image : List Byte) :
    Keeps kb (State.reloadImage s fail flashLog image) := by
  unfold State.reloadImage
  extract_lets +onlyGivenNames -underBinder r
  have h_r : Keeps kb r.1 := by
    unfold r
    with_reducible apply State.checkImage_keeps
    assumption
  try clear_value r
  refine Keeps.ite ?_ ?_
  · with_reducible apply State.svcFinish_keeps
    with_reducible apply State.imageFails_keeps
    assumption
  · extract_lets +onlyGivenNames -underBinder st
    try clear_value st
    extract_lets +onlyGivenNames -underBinder b
    try clear_value b
    extract_lets +onlyGivenNames -underBinder t
    have h_t : Keeps kb t := by
      unfold t
      with_reducible apply State.applyImage_keeps
      assumption
    try clear_value t
    refine Keeps.ite ?_ ?_
    · assumption
    · with_reducible apply State.svcFinish_keeps
      with_reducible apply State.imageApplied_keeps
      assumption

theorem execServiceOperationComplete_keeps {kb : State} (fail : Bool) (flashLog : Fin 7) (image : List Byte) (s : State) (h : Keeps kb s) :
    KeepsOut kb (execServiceOperationComplete fail flashLog image s) := by
  unfold execServiceOperationComplete
  extract_lets +onlyGivenNames -underBinder op
  try clear_value op
  extract_lets +onlyGivenNames -underBinder n
  try clear_value n
  refine Keeps.iteO ?_ ?_
  · refine Keeps.next ?_
    assumption
  · refine Keeps.iteO ?_ ?_
    · refine Keeps.iteO ?_ ?_
      · refine Keeps.next ?_
        assumption
      · refine Keeps.next ?_
        with_reducible apply State.svcFinish_keeps
        with_reducible apply State.setReg_keeps
        assumption
    · refine Keeps.iteO ?_ ?_
      · refine Keeps.iteO ?_ ?_
        · refine Keeps.next ?_
          with_reducible apply State.svcFinish_keeps
          with_reducible apply State.updCore_keeps
          assumption
        · refine Keeps.next ?_
          with_reducible apply State.svcFinish_keeps
          with_reducible apply State.restoreCore_keeps
          assumption
      · refine Keeps.iteO ?_ ?_
        · refine Keeps.iteO ?_ ?_
          · refine Keeps.next ?_
            with_reducible apply State.svcFinish_keeps
            assumption
          · refine Keeps.next ?_
            assumption
        · refine Keeps.iteO ?_ ?_
          · extract_lets +onlyGivenNames -underBinder r
            have h_r : Keeps kb r.1 := by
              unfold r
              with_reducible apply State.commitImage_keeps
              assumption
            try clear_value r
            refine Keeps.next ?_
            with_reducible apply State.svcFinish_keeps
            assumption
          · refine Keeps.iteO ?_ ?_
            · refine Keeps.next ?_
              with_reducible apply State.reloadImage_keeps
              assumption
            · refine Keeps.iteO ?_ ?_
              · refine Keeps.next ?_
                with_reducible apply State.svcFinish_keeps
                with_reducible apply State.setReg_keeps
                assumption
              · refine Keeps.next ?_
                assumption

end Sys2Proof.Machine
end

