-- ==== Sys2Proof/Laws/Keeps/CoreAlu.lean ====
section
/-! SUPPORT. What the functions of Machine/CoreAlu.lean keep (Laws/Keeps.lean). -/

namespace Sys2Proof.Machine

theorem execClrav_keeps {kb : State} (core : Fin 34) (p : Pred) (mask : Fin 16) (rest : Bundle) (s : State) (h : Keeps kb s) :
    KeepsOut kb (execClrav core p mask rest s) := by
  unfold execClrav
  refine Keeps.next ?_
  with_reducible apply State.issueC_keeps
  assumption

theorem execMov_keeps {kb : State} (core : Fin 34) (p : Pred) (d : Fin 32) (a : Fin 32) (rest : Bundle) (s : State) (h : Keeps kb s) :
    KeepsOut kb (execMov core p d a rest s) := by
  unfold execMov
  refine Keeps.next ?_
  with_reducible apply State.issueC_keeps
  assumption

theorem execNot_keeps {kb : State} (core : Fin 34) (p : Pred) (d : Fin 32) (a : Fin 32) (rest : Bundle) (s : State) (h : Keeps kb s) :
    KeepsOut kb (execNot core p d a rest s) := by
  unfold execNot
  refine Keeps.next ?_
  with_reducible apply State.issueC_keeps
  assumption

theorem execNegs_keeps {kb : State} (core : Fin 34) (p : Pred) (d : Fin 32) (a : Fin 32) (rest : Bundle) (s : State) (h : Keeps kb s) :
    KeepsOut kb (execNegs core p d a rest s) := by
  unfold execNegs
  refine Keeps.next ?_
  with_reducible apply State.issueC_keeps
  assumption

theorem execAbss_keeps {kb : State} (core : Fin 34) (p : Pred) (d : Fin 32) (a : Fin 32) (rest : Bundle) (s : State) (h : Keeps kb s) :
    KeepsOut kb (execAbss core p d a rest s) := by
  unfold execAbss
  refine Keeps.next ?_
  with_reducible apply State.issueC_keeps
  assumption

theorem execMtx_keeps {kb : State} (core : Fin 34) (p : Pred) (file : AddrFile) (i : Fin 8) (a : Fin 32) (rest : Bundle) (s : State) (h : Keeps kb s) :
    KeepsOut kb (execMtx core p file i a rest s) := by
  unfold execMtx
  refine Keeps.next ?_
  with_reducible apply State.issueC_keeps
  assumption

theorem execMfx_keeps {kb : State} (core : Fin 34) (p : Pred) (d : Fin 32) (file : AddrFile) (i : Fin 8) (rest : Bundle) (s : State) (h : Keeps kb s) :
    KeepsOut kb (execMfx core p d file i rest s) := by
  unfold execMfx
  refine Keeps.next ?_
  with_reducible apply State.issueC_keeps
  assumption

theorem execMva_keeps {kb : State} (core : Fin 34) (p : Pred) (part : AccPart) (n : Fin 4) (a : Fin 32) (rest : Bundle) (s : State) (h : Keeps kb s) :
    KeepsOut kb (execMva core p part n a rest s) := by
  unfold execMva
  refine Keeps.next ?_
  with_reducible apply State.issueC_keeps
  assumption

theorem execMfa_keeps {kb : State} (core : Fin 34) (p : Pred) (part : AccPart) (n : Fin 4) (d : Fin 32) (rest : Bundle) (s : State) (h : Keeps kb s) :
    KeepsOut kb (execMfa core p part n d rest s) := by
  unfold execMfa
  refine Keeps.next ?_
  with_reducible apply State.issueC_keeps
  assumption

theorem execMvr_keeps {kb : State} (core : Fin 34) (p : Pred) (q23 : Bool) (n : Fin 4) (d : Fin 32) (rest : Bundle) (s : State) (h : Keeps kb s) :
    KeepsOut kb (execMvr core p q23 n d rest s) := by
  unfold execMvr
  refine Keeps.next ?_
  with_reducible apply State.issueC_keeps
  assumption

theorem execPset_keeps {kb : State} (core : Fin 34) (p : Pred) (v : Bool) (d : Fin 8) (rest : Bundle) (s : State) (h : Keeps kb s) :
    KeepsOut kb (execPset core p v d rest s) := by
  unfold execPset
  refine Keeps.next ?_
  with_reducible apply State.issueC_keeps
  assumption

theorem execPand_keeps {kb : State} (core : Fin 34) (p : Pred) (d : Fin 8) (a : Fin 8) (b : Fin 8) (rest : Bundle) (s : State) (h : Keeps kb s) :
    KeepsOut kb (execPand core p d a b rest s) := by
  unfold execPand
  refine Keeps.next ?_
  with_reducible apply State.issueC_keeps
  assumption

theorem execPor_keeps {kb : State} (core : Fin 34) (p : Pred) (d : Fin 8) (a : Fin 8) (b : Fin 8) (rest : Bundle) (s : State) (h : Keeps kb s) :
    KeepsOut kb (execPor core p d a b rest s) := by
  unfold execPor
  refine Keeps.next ?_
  with_reducible apply State.issueC_keeps
  assumption

theorem execPxor_keeps {kb : State} (core : Fin 34) (p : Pred) (d : Fin 8) (a : Fin 8) (b : Fin 8) (rest : Bundle) (s : State) (h : Keeps kb s) :
    KeepsOut kb (execPxor core p d a b rest s) := by
  unfold execPxor
  refine Keeps.next ?_
  with_reducible apply State.issueC_keeps
  assumption

theorem execPnot_keeps {kb : State} (core : Fin 34) (p : Pred) (d : Fin 8) (a : Fin 8) (rest : Bundle) (s : State) (h : Keeps kb s) :
    KeepsOut kb (execPnot core p d a rest s) := by
  unfold execPnot
  refine Keeps.next ?_
  with_reducible apply State.issueC_keeps
  assumption

theorem execMff_keeps {kb : State} (core : Fin 34) (p : Pred) (d : Fin 32) (rest : Bundle) (s : State) (h : Keeps kb s) :
    KeepsOut kb (execMff core p d rest s) := by
  unfold execMff
  refine Keeps.next ?_
  with_reducible apply State.issueC_keeps
  assumption

theorem execMtf_keeps {kb : State} (core : Fin 34) (p : Pred) (a : Fin 32) (rest : Bundle) (s : State) (h : Keeps kb s) :
    KeepsOut kb (execMtf core p a rest s) := by
  unfold execMtf
  refine Keeps.next ?_
  with_reducible apply State.issueC_keeps
  assumption

theorem execAdd_keeps {kb : State} (core : Fin 34) (p : Pred) (d : Fin 32) (a : Fin 32) (b : Operand2) (rest : Bundle) (s : State) (h : Keeps kb s) :
    KeepsOut kb (execAdd core p d a b rest s) := by
  unfold execAdd
  refine Keeps.next ?_
  with_reducible apply State.issueC_keeps
  assumption

theorem execSub_keeps {kb : State} (core : Fin 34) (p : Pred) (d : Fin 32) (a : Fin 32) (b : Operand2) (rest : Bundle) (s : State) (h : Keeps kb s) :
    KeepsOut kb (execSub core p d a b rest s) := by
  unfold execSub
  refine Keeps.next ?_
  with_reducible apply State.issueC_keeps
  assumption

theorem execAdds_keeps {kb : State} (core : Fin 34) (p : Pred) (d : Fin 32) (a : Fin 32) (b : Operand2) (rest : Bundle) (s : State) (h : Keeps kb s) :
    KeepsOut kb (execAdds core p d a b rest s) := by
  unfold execAdds
  refine Keeps.next ?_
  with_reducible apply State.issueC_keeps
  assumption

theorem execSubs_keeps {kb : State} (core : Fin 34) (p : Pred) (d : Fin 32) (a : Fin 32) (b : Operand2) (rest : Bundle) (s : State) (h : Keeps kb s) :
    KeepsOut kb (execSubs core p d a b rest s) := by
  unfold execSubs
  refine Keeps.next ?_
  with_reducible apply State.issueC_keeps
  assumption

theorem execAnd_keeps {kb : State} (core : Fin 34) (p : Pred) (d : Fin 32) (a : Fin 32) (b : Operand2) (rest : Bundle) (s : State) (h : Keeps kb s) :
    KeepsOut kb (execAnd core p d a b rest s) := by
  unfold execAnd
  refine Keeps.next ?_
  with_reducible apply State.issueC_keeps
  assumption

theorem execOr_keeps {kb : State} (core : Fin 34) (p : Pred) (d : Fin 32) (a : Fin 32) (b : Operand2) (rest : Bundle) (s : State) (h : Keeps kb s) :
    KeepsOut kb (execOr core p d a b rest s) := by
  unfold execOr
  refine Keeps.next ?_
  with_reducible apply State.issueC_keeps
  assumption

theorem execXor_keeps {kb : State} (core : Fin 34) (p : Pred) (d : Fin 32) (a : Fin 32) (b : Operand2) (rest : Bundle) (s : State) (h : Keeps kb s) :
    KeepsOut kb (execXor core p d a b rest s) := by
  unfold execXor
  refine Keeps.next ?_
  with_reducible apply State.issueC_keeps
  assumption

theorem execLsl_keeps {kb : State} (core : Fin 34) (p : Pred) (d : Fin 32) (a : Fin 32) (b : Operand2) (rest : Bundle) (s : State) (h : Keeps kb s) :
    KeepsOut kb (execLsl core p d a b rest s) := by
  unfold execLsl
  refine Keeps.next ?_
  with_reducible apply State.issueC_keeps
  assumption

theorem execLsr_keeps {kb : State} (core : Fin 34) (p : Pred) (d : Fin 32) (a : Fin 32) (b : Operand2) (rest : Bundle) (s : State) (h : Keeps kb s) :
    KeepsOut kb (execLsr core p d a b rest s) := by
  unfold execLsr
  refine Keeps.next ?_
  with_reducible apply State.issueC_keeps
  assumption

theorem execAsr_keeps {kb : State} (core : Fin 34) (p : Pred) (d : Fin 32) (a : Fin 32) (b : Operand2) (rest : Bundle) (s : State) (h : Keeps kb s) :
    KeepsOut kb (execAsr core p d a b rest s) := by
  unfold execAsr
  refine Keeps.next ?_
  with_reducible apply State.issueC_keeps
  assumption

theorem execLsls_keeps {kb : State} (core : Fin 34) (p : Pred) (d : Fin 32) (a : Fin 32) (b : Operand2) (rest : Bundle) (s : State) (h : Keeps kb s) :
    KeepsOut kb (execLsls core p d a b rest s) := by
  unfold execLsls
  refine Keeps.next ?_
  with_reducible apply State.issueC_keeps
  assumption

theorem execCmpcc_keeps {kb : State} (core : Fin 34) (p : Pred) (cc : Cond) (d : Fin 8) (a : Fin 32) (b : Fin 32) (rest : Bundle) (s : State) (h : Keeps kb s) :
    KeepsOut kb (execCmpcc core p cc d a b rest s) := by
  unfold execCmpcc
  refine Keeps.next ?_
  with_reducible apply State.issueC_keeps
  assumption

theorem execAddi_keeps {kb : State} (core : Fin 34) (p : Pred) (d : Fin 32) (a : Fin 32) (imm : BitVec 16) (rest : Bundle) (s : State) (h : Keeps kb s) :
    KeepsOut kb (execAddi core p d a imm rest s) := by
  unfold execAddi
  refine Keeps.next ?_
  with_reducible apply State.issueC_keeps
  assumption

theorem execMovi_keeps {kb : State} (core : Fin 34) (p : Pred) (d : Fin 32) (imm : BitVec 21) (rest : Bundle) (s : State) (h : Keeps kb s) :
    KeepsOut kb (execMovi core p d imm rest s) := by
  unfold execMovi
  refine Keeps.next ?_
  with_reducible apply State.issueC_keeps
  assumption

theorem execMovl_keeps {kb : State} (core : Fin 34) (p : Pred) (d : Fin 32) (imm : BitVec 32) (rest : Bundle) (s : State) (h : Keeps kb s) :
    KeepsOut kb (execMovl core p d imm rest s) := by
  unfold execMovl
  refine Keeps.next ?_
  with_reducible apply State.issueC_keeps
  assumption

theorem execMfc_keeps {kb : State} (core : Fin 34) (p : Pred) (d : Fin 32) (cr : Fin 64) (rest : Bundle) (s : State) (h : Keeps kb s) :
    KeepsOut kb (execMfc core p d cr rest s) := by
  unfold execMfc
  refine Keeps.next ?_
  with_reducible apply State.issueC_keeps
  assumption

theorem execMtc_keeps {kb : State} (core : Fin 34) (p : Pred) (cr : Fin 64) (a : Fin 32) (rest : Bundle) (s : State) (h : Keeps kb s) :
    KeepsOut kb (execMtc core p cr a rest s) := by
  unfold execMtc
  refine Keeps.next ?_
  with_reducible apply State.issueC_keeps
  assumption

end Sys2Proof.Machine
end

