-- ==== Sys2Proof/Laws/Keeps/CoreFlow.lean ====
section
/-! SUPPORT. What the functions of Machine/CoreFlow.lean keep (Laws/Keeps.lean). -/

namespace Sys2Proof.Machine

theorem execRep_keeps {kb : State} (core : Fin 34) (p : Pred) (count : Count) (rest : Bundle) (s : State) (h : Keeps kb s) :
    KeepsOut kb (execRep core p count rest s) := by
  unfold execRep
  refine Keeps.next ?_
  with_reducible apply State.issueC_keeps
  assumption

theorem execTake_keeps {kb : State} (core : Fin 34) (p : Pred) (d : Fin 32) (rest : Bundle) (s : State) (h : Keeps kb s) :
    KeepsOut kb (execTake core p d rest s) := by
  unfold execTake
  refine Keeps.next ?_
  with_reducible apply State.issueC_keeps
  assumption

theorem execYieldTask_keeps {kb : State} (core : Fin 34) (p : Pred) (flags : Fin 4) (rest : Bundle) (s : State) (h : Keeps kb s) :
    KeepsOut kb (execYieldTask core p flags rest s) := by
  unfold execYieldTask
  refine Keeps.next ?_
  with_reducible apply State.issueC_keeps
  assumption

theorem execEret_keeps {kb : State} (core : Fin 34) (p : Pred) (rest : Bundle) (s : State) (h : Keeps kb s) :
    KeepsOut kb (execEret core p rest s) := by
  unfold execEret
  refine Keeps.next ?_
  with_reducible apply State.issueC_keeps
  assumption

theorem execBr_keeps {kb : State} (core : Fin 34) (p : Pred) (a : Fin 32) (rest : Bundle) (s : State) (h : Keeps kb s) :
    KeepsOut kb (execBr core p a rest s) := by
  unfold execBr
  refine Keeps.next ?_
  with_reducible apply State.issueC_keeps
  assumption

theorem execB_keeps {kb : State} (core : Fin 34) (p : Pred) (t : Fin 8192) (rest : Bundle) (s : State) (h : Keeps kb s) :
    KeepsOut kb (execB core p t rest s) := by
  unfold execB
  refine Keeps.next ?_
  with_reducible apply State.issueC_keeps
  assumption

theorem execBl_keeps {kb : State} (core : Fin 34) (p : Pred) (d : Fin 32) (t : Fin 8192) (rest : Bundle) (s : State) (h : Keeps kb s) :
    KeepsOut kb (execBl core p d t rest s) := by
  unfold execBl
  refine Keeps.next ?_
  with_reducible apply State.issueC_keeps
  assumption

theorem execLoop_keeps {kb : State} (core : Fin 34) (p : Pred) (count : Count) (stop : Fin 8192) (rest : Bundle) (s : State) (h : Keeps kb s) :
    KeepsOut kb (execLoop core p count stop rest s) := by
  unfold execLoop
  refine Keeps.next ?_
  with_reducible apply State.issueC_keeps
  assumption

theorem execLoopR_keeps {kb : State} (core : Fin 34) (p : Pred) (count : Count) (stop : Fin 8192) (step : RotStep) (stages : Fin 4) (rest : Bundle) (s : State) (h : Keeps kb s) :
    KeepsOut kb (execLoopR core p count stop step stages rest s) := by
  unfold execLoopR
  refine Keeps.next ?_
  with_reducible apply State.issueC_keeps
  assumption

theorem execVenter_keeps {kb : State} (core : Fin 34) (p : Pred) (t : Fin 8192) (rest : Bundle) (s : State) (h : Keeps kb s) :
    KeepsOut kb (execVenter core p t rest s) := by
  unfold execVenter
  refine Keeps.next ?_
  with_reducible apply State.issueC_keeps
  assumption

end Sys2Proof.Machine
end

