-- ==== Sys2Proof/Laws/Keeps/CoreLoadStore.lean ====
section
/-! SUPPORT. What the functions of Machine/CoreLoadStore.lean keep (Laws/Keeps.lean). -/

namespace Sys2Proof.Machine

theorem execLd_keeps {kb : State} (core : Fin 34) (y : Bool) (p : Pred) (reg : Fin 32) (ptr : Fin 8) (am : Addressing) (rest : Bundle) (acc : Access) (other : Access) (s : State) (h : Keeps kb s) :
    KeepsOut kb (execLd core y p reg ptr am rest acc other s) := by
  unfold execLd
  refine Keeps.next ?_
  with_reducible apply State.issueMem_keeps
  assumption

theorem execSt_keeps {kb : State} (core : Fin 34) (y : Bool) (p : Pred) (reg : Fin 32) (ptr : Fin 8) (am : Addressing) (rest : Bundle) (acc : Access) (other : Access) (s : State) (h : Keeps kb s) :
    KeepsOut kb (execSt core y p reg ptr am rest acc other s) := by
  unfold execSt
  refine Keeps.next ?_
  with_reducible apply State.issueMem_keeps
  assumption

theorem execLd2_keeps {kb : State} (core : Fin 34) (y : Bool) (p : Pred) (reg : Fin 32) (ptr : Fin 8) (am : Addressing) (rest : Bundle) (acc : Access) (other : Access) (s : State) (h : Keeps kb s) :
    KeepsOut kb (execLd2 core y p reg ptr am rest acc other s) := by
  unfold execLd2
  refine Keeps.next ?_
  with_reducible apply State.issueMem_keeps
  assumption

theorem execSt2_keeps {kb : State} (core : Fin 34) (y : Bool) (p : Pred) (reg : Fin 32) (ptr : Fin 8) (am : Addressing) (rest : Bundle) (acc : Access) (other : Access) (s : State) (h : Keeps kb s) :
    KeepsOut kb (execSt2 core y p reg ptr am rest acc other s) := by
  unfold execSt2
  refine Keeps.next ?_
  with_reducible apply State.issueMem_keeps
  assumption

theorem execLda_keeps {kb : State} (core : Fin 34) (y : Bool) (p : Pred) (reg : Fin 32) (ptr : Fin 8) (am : Addressing) (rest : Bundle) (acc : Access) (other : Access) (s : State) (h : Keeps kb s) :
    KeepsOut kb (execLda core y p reg ptr am rest acc other s) := by
  unfold execLda
  refine Keeps.next ?_
  with_reducible apply State.issueMem_keeps
  assumption

theorem execStQ_keeps {kb : State} (core : Fin 34) (y : Bool) (p : Pred) (reg : Fin 32) (ptr : Fin 8) (am : Addressing) (rest : Bundle) (acc : Access) (other : Access) (s : State) (h : Keeps kb s) :
    KeepsOut kb (execStQ core y p reg ptr am rest acc other s) := by
  unfold execStQ
  refine Keeps.next ?_
  with_reducible apply State.issueMem_keeps
  assumption

theorem execLdx_keeps {kb : State} (core : Fin 34) (y : Bool) (p : Pred) (reg : Fin 32) (ptr : Fin 8) (am : Addressing) (rest : Bundle) (acc : Access) (other : Access) (s : State) (h : Keeps kb s) :
    KeepsOut kb (execLdx core y p reg ptr am rest acc other s) := by
  unfold execLdx
  refine Keeps.next ?_
  with_reducible apply State.issueMem_keeps
  assumption

theorem execStx_keeps {kb : State} (core : Fin 34) (y : Bool) (p : Pred) (reg : Fin 32) (ptr : Fin 8) (am : Addressing) (rest : Bundle) (acc : Access) (other : Access) (s : State) (h : Keeps kb s) :
    KeepsOut kb (execStx core y p reg ptr am rest acc other s) := by
  unfold execStx
  refine Keeps.next ?_
  with_reducible apply State.issueMem_keeps
  assumption

end Sys2Proof.Machine
end

