-- ==== Sys2Proof/Laws/Keeps/CoreMac.lean ====
section
/-! SUPPORT. What the functions of Machine/CoreMac.lean keep (Laws/Keeps.lean). -/

namespace Sys2Proof.Machine

theorem execNop_keeps {kb : State} (core : Fin 34) (rest : Bundle) (s : State) (h : Keeps kb s) :
    KeepsOut kb (execNop core rest s) := by
  unfold execNop
  refine Keeps.next ?_
  with_reducible apply State.issue_keeps
  assumption

theorem execMul_keeps {kb : State} (core : Fin 34) (p : Pred) (n : Fin 4) (a : Fin 32) (b : Fin 32) (rest : Bundle) (s : State) (h : Keeps kb s) :
    KeepsOut kb (execMul core p n a b rest s) := by
  unfold execMul
  refine Keeps.next ?_
  with_reducible apply State.issueM_keeps
  assumption

theorem execMac_keeps {kb : State} (core : Fin 34) (p : Pred) (n : Fin 4) (a : Fin 32) (b : Fin 32) (rest : Bundle) (s : State) (h : Keeps kb s) :
    KeepsOut kb (execMac core p n a b rest s) := by
  unfold execMac
  refine Keeps.next ?_
  with_reducible apply State.issueM_keeps
  assumption

theorem execMsc_keeps {kb : State} (core : Fin 34) (p : Pred) (n : Fin 4) (a : Fin 32) (b : Fin 32) (rest : Bundle) (s : State) (h : Keeps kb s) :
    KeepsOut kb (execMsc core p n a b rest s) := by
  unfold execMsc
  refine Keeps.next ?_
  with_reducible apply State.issueM_keeps
  assumption

theorem execCmul_keeps {kb : State} (core : Fin 34) (p : Pred) (n : Fin 4) (a : Fin 32) (b : Fin 32) (rest : Bundle) (s : State) (h : Keeps kb s) :
    KeepsOut kb (execCmul core p n a b rest s) := by
  unfold execCmul
  refine Keeps.next ?_
  with_reducible apply State.issueM_keeps
  assumption

theorem execCmac_keeps {kb : State} (core : Fin 34) (p : Pred) (n : Fin 4) (a : Fin 32) (b : Fin 32) (rest : Bundle) (s : State) (h : Keeps kb s) :
    KeepsOut kb (execCmac core p n a b rest s) := by
  unfold execCmac
  refine Keeps.next ?_
  with_reducible apply State.issueM_keeps
  assumption

theorem execCmsc_keeps {kb : State} (core : Fin 34) (p : Pred) (n : Fin 4) (a : Fin 32) (b : Fin 32) (rest : Bundle) (s : State) (h : Keeps kb s) :
    KeepsOut kb (execCmsc core p n a b rest s) := by
  unfold execCmsc
  refine Keeps.next ?_
  with_reducible apply State.issueM_keeps
  assumption

theorem execCmacj_keeps {kb : State} (core : Fin 34) (p : Pred) (n : Fin 4) (a : Fin 32) (b : Fin 32) (rest : Bundle) (s : State) (h : Keeps kb s) :
    KeepsOut kb (execCmacj core p n a b rest s) := by
  unfold execCmacj
  refine Keeps.next ?_
  with_reducible apply State.issueM_keeps
  assumption

theorem execDot2_keeps {kb : State} (core : Fin 34) (p : Pred) (n : Fin 4) (a : Fin 32) (b : Fin 32) (rest : Bundle) (s : State) (h : Keeps kb s) :
    KeepsOut kb (execDot2 core p n a b rest s) := by
  unfold execDot2
  refine Keeps.next ?_
  with_reducible apply State.issueM_keeps
  assumption

theorem execDot2a_keeps {kb : State} (core : Fin 34) (p : Pred) (n : Fin 4) (a : Fin 32) (b : Fin 32) (rest : Bundle) (s : State) (h : Keeps kb s) :
    KeepsOut kb (execDot2a core p n a b rest s) := by
  unfold execDot2a
  refine Keeps.next ?_
  with_reducible apply State.issueM_keeps
  assumption

theorem execDot4_keeps {kb : State} (core : Fin 34) (p : Pred) (n : Fin 4) (a : Fin 32) (b : Fin 32) (rest : Bundle) (s : State) (h : Keeps kb s) :
    KeepsOut kb (execDot4 core p n a b rest s) := by
  unfold execDot4
  refine Keeps.next ?_
  with_reducible apply State.issueM_keeps
  assumption

theorem execDot4a_keeps {kb : State} (core : Fin 34) (p : Pred) (n : Fin 4) (a : Fin 32) (b : Fin 32) (rest : Bundle) (s : State) (h : Keeps kb s) :
    KeepsOut kb (execDot4a core p n a b rest s) := by
  unfold execDot4a
  refine Keeps.next ?_
  with_reducible apply State.issueM_keeps
  assumption

theorem execCres0_keeps {kb : State} (core : Fin 34) (p : Pred) (n : Fin 4) (a : Fin 32) (b : Fin 32) (rest : Bundle) (s : State) (h : Keeps kb s) :
    KeepsOut kb (execCres0 core p n a b rest s) := by
  unfold execCres0
  refine Keeps.next ?_
  with_reducible apply State.issueM_keeps
  assumption

theorem execCres_keeps {kb : State} (core : Fin 34) (p : Pred) (n : Fin 4) (a : Fin 32) (b : Fin 32) (rest : Bundle) (s : State) (h : Keeps kb s) :
    KeepsOut kb (execCres core p n a b rest s) := by
  unfold execCres
  refine Keeps.next ?_
  with_reducible apply State.issueM_keeps
  assumption

end Sys2Proof.Machine
end

