-- ==== Sys2Proof/Laws/Keeps/CoreSynth.lean ====
section
/-! SUPPORT. What the functions of Machine/CoreSynth.lean keep (Laws/Keeps.lean). -/

namespace Sys2Proof.Machine

theorem execRnd_keeps {kb : State} (core : Fin 34) (p : Pred) (d : Fin 32) (rest : Bundle) (s : State) (h : Keeps kb s) :
    KeepsOut kb (execRnd core p d rest s) := by
  unfold execRnd
  refine Keeps.next ?_
  with_reducible apply State.issueC_keeps
  assumption

theorem execRseed_keeps {kb : State} (core : Fin 34) (p : Pred) (a : Fin 32) (rest : Bundle) (s : State) (h : Keeps kb s) :
    KeepsOut kb (execRseed core p a rest s) := by
  unfold execRseed
  refine Keeps.next ?_
  with_reducible apply State.issueC_keeps
  assumption

theorem execPaset_keeps {kb : State} (core : Fin 34) (p : Pred) (incr : Bool) (k : Fin 16) (a : Fin 32) (rest : Bundle) (s : State) (h : Keeps kb s) :
    KeepsOut kb (execPaset core p incr k a rest s) := by
  unfold execPaset
  refine Keeps.next ?_
  with_reducible apply State.issueC_keeps
  assumption

theorem execPaget_keeps {kb : State} (core : Fin 34) (p : Pred) (incr : Bool) (k : Fin 16) (d : Fin 32) (rest : Bundle) (s : State) (h : Keeps kb s) :
    KeepsOut kb (execPaget core p incr k d rest s) := by
  unfold execPaget
  refine Keeps.next ?_
  with_reducible apply State.issueC_keeps
  assumption

theorem execPacc_keeps {kb : State} (core : Fin 34) (p : Pred) (carry : Option (Fin 8)) (k : Fin 16) (d : Fin 32) (rest : Bundle) (s : State) (h : Keeps kb s) :
    KeepsOut kb (execPacc core p carry k d rest s) := by
  unfold execPacc
  refine Keeps.next ?_
  with_reducible apply State.issueC_keeps
  assumption

theorem execPramp_keeps {kb : State} (core : Fin 34) (p : Pred) (k : Fin 128) (d : Fin 32) (rest : Bundle) (s : State) (h : Keeps kb s) :
    KeepsOut kb (execPramp core p k d rest s) := by
  unfold execPramp
  refine Keeps.next ?_
  with_reducible apply State.issueC_keeps
  assumption

theorem execTfetch_keeps {kb : State} (core : Fin 34) (p : Pred) (cubic : Bool) (r : Fin 64) (g : Fin 4) (a : Fin 32) (rest : Bundle) (acc : Access) (s : State) (h : Keeps kb s) :
    KeepsOut kb (execTfetch core p cubic r g a rest acc s) := by
  unfold execTfetch
  refine Keeps.next ?_
  with_reducible apply State.issueC_keeps
  assumption

theorem execTread_keeps {kb : State} (core : Fin 34) (p : Pred) (r : Fin 64) (d : Fin 32) (a : Fin 32) (rest : Bundle) (acc : Access) (s : State) (h : Keeps kb s) :
    KeepsOut kb (execTread core p r d a rest acc s) := by
  unfold execTread
  refine Keeps.next ?_
  with_reducible apply State.issueC_keeps
  assumption

theorem execBlep_keeps {kb : State} (core : Fin 34) (p : Pred) (t : Fin 8) (d : Fin 32) (a : Fin 32) (rest : Bundle) (s : State) (h : Keeps kb s) :
    KeepsOut kb (execBlep core p t d a rest s) := by
  unfold execBlep
  refine Keeps.next ?_
  with_reducible apply State.issueC_keeps
  assumption

end Sys2Proof.Machine
end

