-- ==== Sys2Proof/Laws/Keeps/Host.lean ====
section
/-! SUPPORT. What the functions of Machine/Host.lean keep (Laws/Keeps.lean). -/

namespace Sys2Proof.Machine

theorem execPcieReset_keeps {kb : State} (kind : PcieReset) (gen : Fin 4) (width : Fin 4) (s : State) (h : Keeps kb s) :
    KeepsOut kb (execPcieReset kind gen width s) := by
  have hk : ∀ (d : List Nat) (n : Net),
      Keeps kb { s with regs := s.regs.filter (fun e => decide (e.1 / 0x1000 ≠ Page.pci)), deferred := d, net := n } :=
    fun d n => h.trans ⟨rfl, rfl, Nat.le_refl _, fun c => ⟨c.con, c.dram, Sparse.wf_filter _ c.regs⟩⟩
  exact Keeps.next (State.setFld_keeps _ (hk _ _) _ _ _ _)

theorem execPcieAerError_keeps {kb : State} (s : State) (h : Keeps kb s) :
    KeepsOut kb (execPcieAerError s) := by
  unfold execPcieAerError
  refine Keeps.iteO ?_ ?_
  · refine Keeps.next ?_
    assumption
  · refine Keeps.next ?_
    with_reducible apply State.logError_keeps
    with_reducible apply State.pageErr_keeps
    with_reducible apply State.raise_keeps
    assumption

theorem State.conReadSpan_keeps {kb : State} (s : State) (h : Keeps kb s) (master : Nat) (a : Nat) (n : Nat) (meet : List (Nat × Access)) (a5 : Nat) :
    Keeps kb (State.conReadSpan s master a n meet a5).1 := by
  induction a5 generalizing s master a n meet with
  | zero =>
    rw [State.conReadSpan]
    assumption
  | succ k ih =>
    rw [State.conReadSpan]
    refine Keeps.iteP (p := Prod.fst) ?_ ?_
    · assumption
    · extract_lets +onlyGivenNames -underBinder k
      try clear_value k
      extract_lets +onlyGivenNames -underBinder r
      have h_r : Keeps kb r.1 := by
        unfold r
        with_reducible apply State.conReadWord_keeps
        assumption
      try clear_value r
      extract_lets +onlyGivenNames -underBinder bytes
      try clear_value bytes
      extract_lets +onlyGivenNames -underBinder rest
      have h_rest : Keeps kb rest.1 := by
        unfold rest
        apply ih
        assumption
      try clear_value rest
      assumption

theorem State.conWriteSpan_keeps {kb : State} (s : State) (h : Keeps kb s) (master : Nat) (a : Nat) (data : List Byte) (meet : List (Nat × Access)) (a5 : Nat) :
    Keeps kb (State.conWriteSpan s master a data meet a5).1 := by
  induction a5 generalizing s master a data meet with
  | zero =>
    rw [State.conWriteSpan]
    assumption
  | succ k ih =>
    rw [State.conWriteSpan]
    refine Keeps.iteP (p := Prod.fst) ?_ ?_
    · assumption
    · extract_lets +onlyGivenNames -underBinder k
      try clear_value k
      extract_lets +onlyGivenNames -underBinder r
      have h_r : Keeps kb r.1 := by
        unfold r
        with_reducible apply State.conWriteWord_keeps
        assumption
      try clear_value r
      extract_lets +onlyGivenNames -underBinder rest
      have h_rest : Keeps kb rest.1 := by
        unfold rest
        apply ih
        assumption
      try clear_value rest
      assumption

theorem State.complete_keeps {kb : State} (s : State) (h : Keeps kb s) (d : List (Option Byte)) :
    Keeps kb (State.complete s d) := by
  unfold State.complete
  refine Keeps.ite ?_ ?_
  · with_reducible apply State.send_keeps
    assumption
  · with_reducible apply State.send_keeps
    assumption

theorem execPcieConcourseAccess_keeps {kb : State} (a : BitVec 25) (wr : Option (List Byte)) (n : Fin 4097) (meet : List (Nat × Access)) (s : State) (h : Keeps kb s) :
    KeepsOut kb (execPcieConcourseAccess a wr n meet s) := by
  unfold execPcieConcourseAccess
  refine Keeps.iteO ?_ ?_
  · refine Keeps.next ?_
    assumption
  · refine Keeps.iteO ?_ ?_
    · refine Keeps.next ?_
      with_reducible apply State.send_keeps
      assumption
    · extract_lets +onlyGivenNames -underBinder at_
      try clear_value at_
      split
      · extract_lets +onlyGivenNames -underBinder e
        try clear_value e
        refine Keeps.next ?_
        with_reducible apply State.conWriteSpan_keeps
        assumption
      · extract_lets +onlyGivenNames -underBinder r
        have h_r : Keeps kb r.1 := by
          unfold r
          with_reducible apply State.conReadSpan_keeps
          assumption
        try clear_value r
        refine Keeps.next ?_
        with_reducible apply State.complete_keeps
        assumption

theorem execPcieSampleMemoryAccess_keeps {kb : State} (a : BitVec 32) (wr : Option (List Byte)) (n : Fin 4097) (errs : List (Nat × Nat)) (s : State) (h : Keeps kb s) :
    KeepsOut kb (execPcieSampleMemoryAccess a wr n errs s) := by
  unfold execPcieSampleMemoryAccess
  extract_lets +onlyGivenNames -underBinder len
  try clear_value len
  refine Keeps.iteO ?_ ?_
  · refine Keeps.next ?_
    assumption
  · refine Keeps.iteO ?_ ?_
    · refine Keeps.next ?_
      with_reducible apply State.send_keeps
      assumption
    · extract_lets +onlyGivenNames -underBinder l
      try clear_value l
      split
      · refine Keeps.next ?_
        with_reducible apply State.writeDram_keeps
        assumption
      · extract_lets +onlyGivenNames -underBinder r
        have h_r : Keeps kb r.1 := by
          unfold r
          with_reducible apply State.readDram_keeps
          assumption
        try clear_value r
        refine Keeps.next ?_
        with_reducible apply State.complete_keeps
        assumption

theorem State.atomic_keeps {kb : State} (s : State) (h : Keeps kb s) (master : Nat) (a : Nat) (add : Bool) (v : Word) (acc : Access) :
    Keeps kb (State.atomic s master a add v acc).1 := by
  unfold State.atomic
  extract_lets +onlyGivenNames -underBinder old
  try clear_value old
  extract_lets +onlyGivenNames -underBinder r
  have h_r : Keeps kb r.1 := by
    unfold r
    with_reducible apply State.conWriteWord_keeps
    assumption
  try clear_value r
  split
  · assumption
  · assumption
  · with_reducible apply State.count_keeps
    assumption

theorem execPcieAtomic_keeps {kb : State} (kind : AtomicKind) (bar2 : Bool) (wide : Bool) (a : BitVec 25) (v : Word) (acc : Access) (s : State) (h : Keeps kb s) :
    KeepsOut kb (execPcieAtomic kind bar2 wide a v acc s) := by
  unfold execPcieAtomic
  refine Keeps.iteO ?_ ?_
  · refine Keeps.next ?_
    assumption
  · refine Keeps.iteO ?_ ?_
    · refine Keeps.next ?_
      with_reducible apply State.send_keeps
      assumption
    · extract_lets +onlyGivenNames -underBinder r
      have h_r : Keeps kb r.1 := by
        unfold r
        with_reducible apply State.atomic_keeps
        assumption
      try clear_value r
      refine Keeps.next ?_
      split
      · with_reducible apply State.send_keeps
        assumption
      · with_reducible apply State.send_keeps
        assumption

theorem State.dmaRead_keeps {kb : State} (s : State) (h : Keeps kb s) (d : DmaDesc) (m : DmaMeet) (done : Nat) (n : Nat) :
    Keeps kb (State.dmaRead s d m done n).1 := by
  unfold State.dmaRead
  refine Keeps.iteP (p := Prod.fst) ?_ ?_
  · assumption
  · refine Keeps.iteP (p := Prod.fst) ?_ ?_
    · assumption
    · refine Keeps.iteP (p := Prod.fst) ?_ ?_
      · assumption
      · refine Keeps.iteP (p := Prod.fst) ?_ ?_
        · with_reducible apply State.conReadSpan_keeps
          assumption
        · with_reducible apply State.readDram_keeps
          assumption

theorem State.dmaWrite_keeps {kb : State} (s : State) (h : Keeps kb s) (d : DmaDesc) (m : DmaMeet) (done : Nat) (data : List Byte) :
    Keeps kb (State.dmaWrite s d m done data).1 := by
  unfold State.dmaWrite
  extract_lets +onlyGivenNames -underBinder t
  have h_t : Keeps kb t := by
    unfold t
    with_reducible apply State.count_keeps
    assumption
  try clear_value t
  refine Keeps.iteP (p := Prod.fst) ?_ ?_
  · with_reducible apply State.putHost_keeps
    assumption
  · refine Keeps.iteP (p := Prod.fst) ?_ ?_
    · assumption
    · refine Keeps.iteP (p := Prod.fst) ?_ ?_
      · with_reducible apply State.conWriteSpan_keeps
        assumption
      · with_reducible apply State.writeDram_keeps
        assumption

theorem DmaRun.piece_keeps {kb : State} (x : DmaRun) (h : Keeps kb x.st) (d : DmaDesc) (m : DmaMeet) (k : Nat) :
    Keeps kb (DmaRun.piece x d m k).st := by
  unfold DmaRun.piece
  extract_lets +onlyGivenNames -underBinder done
  try clear_value done
  extract_lets +onlyGivenNames -underBinder want
  try clear_value want
  extract_lets +onlyGivenNames -underBinder room
  try clear_value room
  extract_lets +onlyGivenNames -underBinder n
  try clear_value n
  extract_lets +onlyGivenNames -underBinder r
  have h_r : Keeps kb r.1 := by
    unfold r
    with_reducible apply State.dmaRead_keeps
    assumption
  try clear_value r
  extract_lets +onlyGivenNames -underBinder good
  try clear_value good
  extract_lets +onlyGivenNames -underBinder w
  have h_w : Keeps kb w.1 := by
    unfold w
    with_reducible apply State.dmaWrite_keeps
    assumption
  try clear_value w
  extract_lets +onlyGivenNames -underBinder lost
  try clear_value lost
  assumption

theorem DmaRun.pieces_keeps {kb : State} (x : DmaRun) (h : Keeps kb x.st) (d : DmaDesc) (m : DmaMeet) (k : Nat) (a : Nat) :
    Keeps kb (DmaRun.pieces x d m k a).st := by
  induction a generalizing x k with
  | zero => exact h
  | succ n ih =>
    rw [DmaRun.pieces]
    split
    · exact h
    split
    · exact h
    · exact ih _ (DmaRun.piece_keeps _ h _ _ _) _

theorem DmaRun.finish_keeps {kb : State} (x : DmaRun) (h : Keeps kb x.st) (result : Option Word) :
    Keeps kb (DmaRun.finish x result) := by
  unfold DmaRun.finish
  extract_lets +onlyGivenNames -underBinder s
  have h_s : Keeps kb s := by
    unfold s
    assumption
  try clear_value s
  extract_lets +onlyGivenNames -underBinder ci
  try clear_value ci
  extract_lets +onlyGivenNames -underBinder at_
  try clear_value at_
  extract_lets +onlyGivenNames -underBinder status
  try clear_value status
  extract_lets +onlyGivenNames -underBinder s1
  have h_s1 : Keeps kb s1 := by
    unfold s1
    split
    · with_reducible apply State.putHost_keeps
      assumption
    · assumption
  try clear_value s1
  extract_lets +onlyGivenNames -underBinder s2
  have h_s2 : Keeps kb s2 := by
    unfold s2
    with_reducible apply State.bump_keeps
    with_reducible apply State.setReg_keeps
    with_reducible apply State.putHost_keeps
    assumption
  try clear_value s2
  refine Keeps.ite ?_ ?_
  · with_reducible apply State.bump_keeps
    assumption
  · assumption

theorem State.dmaEnd_keeps {kb : State} (s : State) (h : Keeps kb s) (reason : Nat) :
    Keeps kb (State.dmaEnd s reason) := by
  unfold State.dmaEnd
  with_reducible apply DmaRun.finish_keeps
  assumption

theorem State.dmaMove_keeps {kb : State} (s : State) (h : Keeps kb s) (desc : List Byte) (m : DmaMeet) :
    Keeps kb (State.dmaMove s desc m) := by
  unfold State.dmaMove
  extract_lets +onlyGivenNames -underBinder d
  try clear_value d
  with_reducible apply DmaRun.finish_keeps
  with_reducible apply DmaRun.pieces_keeps
  assumption

theorem State.dmaAtomic_keeps {kb : State} (s : State) (h : Keeps kb s) (desc : List Byte) (m : DmaMeet) :
    Keeps kb (State.dmaAtomic s desc m) := by
  unfold State.dmaAtomic
  extract_lets +onlyGivenNames -underBinder d
  try clear_value d
  refine Keeps.ite ?_ ?_
  · with_reducible apply State.dmaEnd_keeps
    assumption
  · refine Keeps.ite ?_ ?_
    · with_reducible apply State.dmaEnd_keeps
      assumption
    · extract_lets +onlyGivenNames -underBinder r
      have h_r : Keeps kb r.1 := by
        unfold r
        with_reducible apply State.atomic_keeps
        assumption
      try clear_value r
      split
      · with_reducible apply DmaRun.finish_keeps
        with_reducible apply State.count_keeps
        assumption
      · with_reducible apply DmaRun.finish_keeps
        assumption

theorem execDmaDoorbell_keeps {kb : State} (path : Path) (v : Word) (s : State) (h : Keeps kb s) :
    KeepsOut kb (execDmaDoorbell path v s) := by
  unfold execDmaDoorbell
  refine Keeps.next ?_
  with_reducible apply State.hostWrite_keeps
  · assumption
  · intro z0 z1 z2 z3 hz
    try simp -zeta only []
    with_reducible apply storeAct_keeps
    assumption

theorem execDmaCopy_keeps {kb : State} (desc : List Byte) (m : DmaMeet) (s : State) (h : Keeps kb s) :
    KeepsOut kb (execDmaCopy desc m s) := by
  unfold execDmaCopy
  refine Keeps.iteO ?_ ?_
  · refine Keeps.next ?_
    with_reducible apply State.dmaMove_keeps
    assumption
  · refine Keeps.next ?_
    assumption

theorem execDmaFill_keeps {kb : State} (desc : List Byte) (m : DmaMeet) (s : State) (h : Keeps kb s) :
    KeepsOut kb (execDmaFill desc m s) := by
  unfold execDmaFill
  refine Keeps.iteO ?_ ?_
  · refine Keeps.next ?_
    with_reducible apply State.dmaMove_keeps
    assumption
  · refine Keeps.next ?_
    assumption

theorem execDmaAdd32_keeps {kb : State} (desc : List Byte) (m : DmaMeet) (s : State) (h : Keeps kb s) :
    KeepsOut kb (execDmaAdd32 desc m s) := by
  unfold execDmaAdd32
  refine Keeps.iteO ?_ ?_
  · refine Keeps.next ?_
    with_reducible apply State.dmaAtomic_keeps
    assumption
  · refine Keeps.next ?_
    assumption

theorem execDmaSwap_keeps {kb : State} (desc : List Byte) (m : DmaMeet) (s : State) (h : Keeps kb s) :
    KeepsOut kb (execDmaSwap desc m s) := by
  unfold execDmaSwap
  refine Keeps.iteO ?_ ?_
  · refine Keeps.next ?_
    with_reducible apply State.dmaAtomic_keeps
    assumption
  · refine Keeps.next ?_
    assumption

theorem execDmaInvalidDescriptor_keeps {kb : State} (desc : List Byte) (s : State) (h : Keeps kb s) :
    KeepsOut kb (execDmaInvalidDescriptor desc s) := by
  unfold execDmaInvalidDescriptor
  refine Keeps.iteO ?_ ?_
  · refine Keeps.next ?_
    with_reducible apply State.dmaEnd_keeps
    assumption
  · refine Keeps.next ?_
    assumption

theorem State.updSpi_keeps {kb : State} (s : State) (h : Keeps kb s) (f : SpiSlave → SpiSlave) :
    Keeps kb (State.updSpi s f) := by
  unfold State.updSpi
  refine Keeps.upd ?_ rfl rfl
  assumption

theorem State.spiReturn_keeps {kb : State} (s : State) (h : Keeps kb s) (rest : List Byte) :
    Keeps kb (State.spiReturn s rest) := by
  unfold State.spiReturn
  with_reducible apply State.updSpi_keeps
  with_reducible apply State.send_keeps
  assumption

theorem State.spiRefuse_keeps {kb : State} (s : State) (h : Keeps kb s) :
    Keeps kb (State.spiRefuse s) := by
  unfold State.spiRefuse
  with_reducible apply State.updSpi_keeps
  with_reducible apply State.bump_keeps
  assumption

theorem State.spiRun_keeps {kb : State} (s : State) (h : Keeps kb s) (cmd : Nat) (clocks : Nat) (refuse : Bool) (good : Bool) (act : State → State) (h_act : ∀ z0, Keeps kb z0 → Keeps kb (act z0)) :
    Keeps kb (State.spiRun s cmd clocks refuse good act) := by
  unfold State.spiRun
  refine Keeps.ite ?_ ?_
  · assumption
  · refine Keeps.ite ?_ ?_
    · with_reducible apply State.spiRefuse_keeps
      assumption
    · extract_lets +onlyGivenNames -underBinder k
      have h_k : Keeps kb k.st := by
        unfold k
        with_reducible apply State.check_keeps
        assumption
      try clear_value k
      refine Keeps.ite ?_ ?_
      · with_reducible apply State.spiFrameError_keeps
        assumption
      · apply h_act
        with_reducible apply State.count_keeps
        with_reducible apply State.bump_keeps
        assumption

theorem execSpiWrite_keeps {kb : State} (off : BitVec 20) (words : List Word) (clocks : BitVec 16) (s : State) (h : Keeps kb s) :
    KeepsOut kb (execSpiWrite off words clocks s) := by
  unfold execSpiWrite
  extract_lets +onlyGivenNames -underBinder good
  try clear_value good
  refine Keeps.next ?_
  with_reducible apply State.spiRun_keeps
  · assumption
  · intro z0 hz
    try simp -zeta only []
    refine Keeps.foldl (fun t x ht => ?_) ?_
    · try simp -zeta only []
      with_reducible apply State.regWrite_keeps
      assumption
    · with_reducible apply State.updSpi_keeps
      assumption

theorem State.spiRead_keeps {kb : State} (s : State) (h : Keeps kb s) (off : Nat) (a : Nat) :
    Keeps kb (State.spiRead s off a).1 := by
  induction a generalizing s off with
  | zero =>
    rw [State.spiRead]
    assumption
  | succ k ih =>
    rw [State.spiRead]
    apply ih
    with_reducible apply State.readReg_keeps
    with_reducible apply State.draw_keeps
    with_reducible apply State.draw_keeps
    assumption

theorem execSpiRdreq_keeps {kb : State} (off : BitVec 20) (n : Fin 16) (clocks : BitVec 16) (s : State) (h : Keeps kb s) :
    KeepsOut kb (execSpiRdreq off n clocks s) := by
  unfold execSpiRdreq
  refine Keeps.next ?_
  with_reducible apply State.spiRun_keeps
  · assumption
  · intro z0 hz
    try simp -zeta only []
    extract_lets +onlyGivenNames -underBinder r
    have h_r : Keeps kb r.1 := by
      unfold r
      with_reducible apply State.spiRead_keeps
      assumption
    try clear_value r
    with_reducible apply State.updSpi_keeps
    assumption

theorem execSpiRddata_keeps {kb : State} (clocks : BitVec 16) (s : State) (h : Keeps kb s) :
    KeepsOut kb (execSpiRddata clocks s) := by
  unfold execSpiRddata
  refine Keeps.next ?_
  with_reducible apply State.spiRun_keeps
  · assumption
  · intro z0 hz
    try simp -zeta only []
    with_reducible apply State.spiReturn_keeps
    assumption

theorem execSpiEvent_keeps {kb : State} (entry : List Byte) (clocks : BitVec 16) (s : State) (h : Keeps kb s) :
    KeepsOut kb (execSpiEvent entry clocks s) := by
  unfold execSpiEvent
  refine Keeps.next ?_
  with_reducible apply State.spiRun_keeps
  · assumption
  · intro z0 hz
    try simp -zeta only []
    extract_lets +onlyGivenNames -underBinder a
    have h_a : Keeps kb a.2 := by
      unfold a
      with_reducible apply State.arrive_keeps
      assumption
    try clear_value a
    extract_lets +onlyGivenNames -underBinder src0 src1 u
    have h_src0 : Keeps kb src0 := by
      unfold src0
      assumption
    have h_u : Keeps kb u := by
      unfold u
      refine Keeps.upd ?_ rfl rfl
      assumption
    try clear_value u
    with_reducible apply State.setFld_keeps
    assumption

theorem execSpiStatus_keeps {kb : State} (clocks : BitVec 16) (s : State) (h : Keeps kb s) :
    KeepsOut kb (execSpiStatus clocks s) := by
  unfold execSpiStatus
  refine Keeps.next ?_
  with_reducible apply State.spiRun_keeps
  · assumption
  · intro z0 hz
    try simp -zeta only []
    with_reducible apply State.spiReturn_keeps
    assumption

theorem execSpiUnknownCommand_keeps {kb : State} (cmd : Byte) (clocks : BitVec 16) (s : State) (h : Keeps kb s) :
    KeepsOut kb (execSpiUnknownCommand cmd clocks s) := by
  unfold execSpiUnknownCommand
  refine Keeps.iteO ?_ ?_
  · refine Keeps.next ?_
    assumption
  · refine Keeps.next ?_
    with_reducible apply State.spiRun_keeps
    · assumption
    · intro z0 hz
      try simp -zeta only []
      assumption

theorem execSpiRegisterAccessDone_keeps {kb : State} (s : State) (h : Keeps kb s) :
    KeepsOut kb (execSpiRegisterAccessDone s) := by
  unfold execSpiRegisterAccessDone
  refine Keeps.next ?_
  with_reducible apply State.updSpi_keeps
  assumption

end Sys2Proof.Machine
end

