-- ==== Sys2Proof/Laws/Keeps/Output.lean ====
section
/-! SUPPORT. What the functions of Machine/Output.lean keep (Laws/Keeps.lean). -/

namespace Sys2Proof.Machine

theorem State.setHso_keeps {kb : State} (s : State) (h : Keeps kb s) (k : Nat) (x : HostOut) :
    Keeps kb (State.setHso s k x) := by
  unfold State.setHso
  refine Keeps.upd ?_ rfl rfl
  assumption

theorem State.writeHostRecord_keeps {kb : State} (s : State) (h : Keeps kb s) (k : Nat) (n : Nat) (samples : List (List Word × Bool)) (late : Bool) :
    Keeps kb (State.writeHostRecord s k n samples late) := by
  unfold State.writeHostRecord
  refine Keeps.ite ?_ ?_
  · with_reducible apply State.bump_keeps
    assumption
  · extract_lets +onlyGivenNames -underBinder c
    try clear_value c
    extract_lets +onlyGivenNames -underBinder base
    try clear_value base
    extract_lets +onlyGivenNames -underBinder data
    try clear_value data
    extract_lets +onlyGivenNames -underBinder mask
    try clear_value mask
    extract_lets +onlyGivenNames -underBinder d
    have h_d : Keeps kb d.2 := by
      unfold d
      with_reducible apply State.draw_keeps
      assumption
    try clear_value d
    extract_lets +onlyGivenNames -underBinder head
    try clear_value head
    with_reducible apply State.setReg_keeps
    with_reducible apply State.putHost_keeps
    with_reducible apply State.putHost_keeps
    assumption

theorem State.hostOutSample_keeps {kb : State} (s : State) (h : Keeps kb s) (late : BitVec 8) (k : Nat) :
    Keeps kb (State.hostOutSample s late k) := by
  unfold State.hostOutSample
  extract_lets +onlyGivenNames -underBinder q
  try clear_value q
  extract_lets +onlyGivenNames -underBinder x0
  try clear_value x0
  extract_lets +onlyGivenNames -underBinder x
  try clear_value x
  refine Keeps.ite ?_ ?_
  · with_reducible apply State.setHso_keeps
    assumption
  · extract_lets +onlyGivenNames -underBinder all
    try clear_value all
    refine Keeps.ite ?_ ?_
    · extract_lets +onlyGivenNames -underBinder t
      have h_t : Keeps kb t := by
        unfold t
        with_reducible apply State.setHso_keeps
        assumption
      try clear_value t
      extract_lets +onlyGivenNames -underBinder d
      try clear_value d
      refine Keeps.ite ?_ ?_
      · assumption
      · with_reducible apply State.writeHostRecord_keeps
        assumption
    · with_reducible apply State.setHso_keeps
      assumption

theorem execOutputSample_keeps {kb : State} (late : BitVec 8) (s : State) (h : Keeps kb s) :
    KeepsOut kb (execOutputSample late s) := by
  unfold execOutputSample
  refine Keeps.iteO ?_ ?_
  · refine Keeps.next ?_
    assumption
  · refine Keeps.iteO ?_ ?_
    · refine Keeps.next ?_
      with_reducible apply State.dacSamples_keeps
      assumption
    · extract_lets +onlyGivenNames -underBinder t
      try clear_value t
      extract_lets +onlyGivenNames -underBinder s1
      have h_s1 : Keeps kb s1 := by
        unfold s1
        refine Keeps.ite ?_ ?_
        · refine Keeps.foldl (fun t x ht => ?_) ?_
          · try simp -zeta only []
            with_reducible apply State.tdmApply_keeps
            assumption
          · assumption
        · assumption
      try clear_value s1
      extract_lets +onlyGivenNames -underBinder s2
      have h_s2 : Keeps kb s2 := by
        unfold s2
        refine Keeps.foldl (fun t x ht => ?_) ?_
        · try simp -zeta only []
          with_reducible apply State.queueSample_keeps
          assumption
        · assumption
      try clear_value s2
      extract_lets +onlyGivenNames -underBinder s3
      have h_s3 : Keeps kb s3 := by
        unfold s3
        refine Keeps.foldl (fun t x ht => ?_) ?_
        · try simp -zeta only []
          with_reducible apply State.txSample_keeps
          assumption
        · assumption
      try clear_value s3
      extract_lets +onlyGivenNames -underBinder s4
      have h_s4 : Keeps kb s4 := by
        unfold s4
        refine Keeps.foldl (fun t x ht => ?_) ?_
        · try simp -zeta only []
          with_reducible apply State.tdmSample_keeps
          assumption
        · assumption
      try clear_value s4
      extract_lets +onlyGivenNames -underBinder s5
      have h_s5 : Keeps kb s5 := by
        unfold s5
        refine Keeps.foldl (fun t x ht => ?_) ?_
        · try simp -zeta only []
          with_reducible apply State.hostOutSample_keeps
          assumption
        · assumption
      try clear_value s5
      extract_lets +onlyGivenNames -underBinder s6
      have h_s6 : Keeps kb s6 := by
        unfold s6
        with_reducible apply State.dacSamples_keeps
        assumption
      try clear_value s6
      extract_lets +onlyGivenNames -underBinder src0 s7
      have h_s7 : Keeps kb s7 := by
        unfold s7
        refine Keeps.upd ?_ rfl rfl
        assumption
      try clear_value s7
      refine Keeps.next ?_
      refine Keeps.ite ?_ ?_
      · with_reducible apply State.standbyCommit_keeps
        assumption
      · assumption

end Sys2Proof.Machine
end

