-- ==== Sys2Proof/Machine/Pins.lean ====
section
/-! DEFINITION. The output pins whose level follows from the state alone: STATUS (R412), WCLK_OUT and MCLK_OUT (R40). HINT is
State.hintLow and HBUSY is State.hbusy. The instants of their edges are not modelled (log entry 15). -/

namespace Sys2Proof.Machine

/-- How a status or clock output is driven. -/
inductive PinDrive where
  | highZ                        -- its supply is below 1.6 V (R399)
  | low
  | high
  | square (hz : Nat)            -- a square wave, 50 % duty cycle
  | standbyBlink                 -- high for 100 ms every 2 s
deriving DecidableEq, Repr

/-- The STATUS pin (R399, R412). -/
def State.statusPin (s : State) : PinDrive :=
  if s.pwr.vioA = false then .highZ
  else if s.pwr.held ∨ s.pwr.thermalOff then .low
  else if s.powerState = 2 ∨ s.powerState = 3 then .standbyBlink
  else
    match s.bootState with
    | 0 => .low
    | 4 => .square 4
    | 6 => if s.bit Reg.BOOT_CTRL 0 = false ∨ s.bit Reg.BOOT_CTRL 1 = true then .high else .low
    | _ => .square 1

/-- The base rate of the rate family (spec/02). -/
def State.baseRate (s : State) : Nat := if s.bit Reg.CLK_MEDIA_CFG 0 then 44100 else 48000

/-- The WCLK_OUT pin (R40): it runs whether or not media time does. -/
def State.wclkOut (s : State) : PinDrive :=
  if s.pwr.vioB = false then .highZ
  else if s.bit Reg.CLK_WCLK_CFG 4 = false then .low
  else .square (if s.bit Reg.CLK_WCLK_CFG 5 then s.baseRate else s.fs)

/-- The MCLK_OUT pin (R40): the media clock, 2048 times the base rate, divided by 2, 4, 8 or 16. -/
def State.mclkOut (s : State) : PinDrive :=
  if s.pwr.vioB = false then .highZ
  else if s.bit Reg.CLK_WCLK_CFG 12 = false then .low
  else .square (2048 * s.baseRate / 2 ^ (s.fld Reg.CLK_WCLK_CFG 8 2 + 1))

end Sys2Proof.Machine
end

