-- ==== Sys2Proof/WellFormed.lean ====
section
/-! DEFINITION. Which commands are well formed: what their types leave to be said. A voice-core command holds a bundle that one of the formats
of R196 can encode; an entry, a descriptor and a UMP have their length; a write of another master stays within one Concourse word. -/

namespace Sys2Proof

/-- Bits of the operand field of a C operation (R206). -/
def COp.width : COp → Nat
  | .nop => 0
  | .rep (.imm _) => 9
  | .rep (.reg _) => 5
  | .clrav _ => 4
  | .mov _ _ | .not _ _ | .negs _ _ | .abss _ _ | .mtx _ _ _ | .mfx _ _ _ => 10
  | .mva _ _ _ | .mfa _ _ _ => 9
  | .mvr _ _ _ => 8
  | .pset _ _ => 4
  | .pand _ _ _ | .por _ _ _ | .pxor _ _ _ => 9
  | .pnot _ _ => 6
  | .mff _ | .mtf _ | .take _ => 5
  | .yield_ _ => 2
  | .eret => 0
  | .br _ | .rnd _ | .rseed _ => 5
  | .paset _ _ _ | .paget _ _ _ => 10
  | .alu _ _ _ _ => 16
  | .cmp _ _ _ _ => 16
  | .addi _ _ _ | .movi _ _ => 26
  | .mfc _ _ | .mtc _ _ => 11
  | .b _ => 13
  | .bl _ _ => 18
  | .loop (.imm _) _ => 29
  | .loop (.reg _) _ => 18
  | .venter _ => 13
  | .pacc _ _ _ => 13
  | .pramp _ _ => 12
  | .tfetch _ _ _ _ => 14
  | .tread _ _ _ => 16
  | .blep _ _ _ => 13
  | .movl _ _ => 37
  | .loopR (.imm _) _ _ _ => 33
  | .loopR (.reg _) _ _ _ => 22

/-- Whether the operands of a C operation fit their fields. -/
def COp.ok : COp → Bool
  | .rep (.imm n) => decide (n.toNat < 512)
  | _ => true

/-- Whether a C operation has a short body (R204). -/
def COp.short : COp → Bool
  | .nop | .rep _ | .clrav _ | .rnd _ => true
  | _ => false

/-- Whether a memory operation has a short body (R203). -/
def MemOp.short (o : MemOp) : Bool :=
  match o.am with
  | .plain | .postInc | .postDec | .bitRev => true
  | .offset k => decide (k = 1)
  | .postM j => decide (j = o.ptr)

/-- Whether a memory slot names an addressing code. -/
def memOk (o : Option MemOp) : Bool :=
  match o with
  | some m => decide (m.am ≠ .offset 0)
  | none => true

/-- Whether a memory slot is empty or has a short body. -/
def memShort (o : Option MemOp) : Bool :=
  match o with
  | some m => m.short
  | none => true

/-- Whether a format of R196 encodes a bundle: full C; M with X and Y; M with a C operation of 29 bits; X and Y with one of 10 bits; or
short bodies under one predicate. -/
def Bundle.fits (b : Bundle) : Bool :=
  let noM := decide (b.m = MOp.nop)
  let noX := b.x.isNone && b.y.isNone
  b.c.ok && memOk b.x && memOk b.y &&
    ((noM && noX) || decide (b.c = .nop) || (noX && decide (b.c.width ≤ 29)) || (noM && decide (b.c.width ≤ 10)) ||
      (memShort b.x && memShort b.y && b.c.short && decide (b.mp = b.xp) && decide (b.xp = b.yp) && decide (b.yp = b.cp)))

/-- Whether a rival write stays within one 16-byte word. -/
def Rival.ok (r : Rival) : Bool := decide (1 ≤ r.data.length) && decide (r.addr.toNat % 16 + r.data.length ≤ 16)

/-- Whether what an access meets is well formed. -/
def Access.ok (a : Access) : Bool :=
  match a.rival with
  | some r => r.ok
  | none => true

/-- Whether words are one UMP. -/
def umpOk (u : List Word) : Bool :=
  match u with
  | [] => false
  | w :: _ => decide (u.length = Machine.umpLength (w.toNat / 2 ^ 28))

/-- Whether a bundle with a memory operation in its X or, for `y`, its Y slot is encodable. -/
def memFits (y : Bool) (p : Pred) (o : MemOp) (rest : Bundle) : Bool :=
  if y then Bundle.fits { rest with yp := p, y := some o } else Bundle.fits { rest with xp := p, x := some o }

/-- Whether a command is well formed. -/
def wellFormed (i : Instr) : Bool :=
  match i with
  | .mediaConfigWrite _ _ => true
  | .mediaStop _ _ => true
  | .mediaStopComplete => true
  | .mediaRun _ _ => true
  | .mediaCounterStart _ => true
  | .mtLoad _ _ => true
  | .mtRead _ _ => true
  | .sourceQualified _ => true
  | .sourceLost _ _ => true
  | .mediaPllLocked _ _ => true
  | .sourcePromotion _ => true
  | .sourceChange _ _ => true
  | .pllLockLoss _ => true
  | .boundaryStep _ => true
  | .expressStep => true
  | .ringDoorbell _ _ _ => true
  | .ringEntryRead _ data => decide (data.length = 32)
  | .spiFifoForward => true
  | .nmidCommand _ _ umps => umps.all umpOk && decide (umps ≠ [])
  | .timetableEntry _ ump _ _ _ _ => umpOk ump
  | .fencePlace => true
  | .fenceComplete => true
  | .notificationFlush => true
  | .partQuotaWrite _ _ _ => true
  | .hostParameterWrite _ _ => true
  | .modulationEval _ => true
  | .taskBind _ _ => true
  | .taskStage _ _ _ _ => true
  | .sidingMove _ => true
  | .take _ p d rest => Bundle.fits { rest with cp := p, c := .take d }
  | .takeDelivery _ _ _ => true
  | .yieldTask _ p flags rest => Bundle.fits { rest with cp := p, c := .yield_ flags }
  | .commitCheck _ _ _ => true
  | .streamFillReturn _ _ _ => true
  | .taskDeadline => true
  | .taskAbort _ => true
  | .abortTimeout _ => true
  | .shuntRequest _ _ => true
  | .expCyclesWrite _ _ => true
  | .expCfgWrite _ _ => true
  | .histClear _ _ => true
  | .voiceSumClose => true
  | .busTaskDeadline => true
  | .finalSumClose => true
  | .frameBoundary => true
  | .queueBlockArrival _ => true
  | .outputSample _ => true
  | .queueEnable _ _ _ => true
  | .queueDisable _ _ _ => true
  | .captureSample _ _ _ _ _ => true
  | .monitorSample _ _ => true
  | .readbackAction _ => true
  | .coefWrite _ _ => true
  | .tapsWrite _ _ => true
  | .busSetChange _ _ => true
  | .capSetChange _ _ => true
  | .monitorLengthWrite _ _ => true
  | .captureSourceWrite _ _ _ => true
  | .clampRelease _ => true
  | .clearRampEnd _ => true
  | .outclrAssert => true
  | .outclrRelease => true
  | .softwareClear _ _ => true
  | .filterSwitch _ _ => true
  | .rangeSwitch _ _ _ => true
  | .switchGainChange _ => true
  | .switchSequenceEnd _ => true
  | .clearCodeWrite _ _ _ => true
  | .maskWrite _ _ _ => true
  | .channelEnable _ _ _ => true
  | .channelDisable _ _ _ => true
  | .toneEnable _ _ _ => true
  | .toneDisable _ _ _ => true
  | .readbackFaultClear _ _ _ => true
  | .overcurrentTrip _ _ => true
  | .overcurrentClear _ _ _ => true
  | .avddChange _ _ => true
  | .concourseWriteback _ => true
  | .testModeWrite _ _ => true
  | .attributeWrite _ _ _ => true
  | .backgroundTestStart => true
  | .marchDone _ => true
  | .backgroundTestTimeout => true
  | .bankRebuild _ _ => true
  | .rebuildRow _ _ => true
  | .bankReturn _ _ => true
  | .bankReturnDone _ => true
  | .scrubLine _ _ _ => true
  | .pageRetireDone _ _ _ => true
  | .tableRegionWrite _ _ _ _ => true
  | .nop _ rest => Bundle.fits { rest with mp := .always, m := MOp.nop }
  | .mul _ p n a b rest => Bundle.fits { rest with mp := p, m := { kind := .mul, n := n, a := a, b := b } }
  | .mac _ p n a b rest => Bundle.fits { rest with mp := p, m := { kind := .mac, n := n, a := a, b := b } }
  | .msc _ p n a b rest => Bundle.fits { rest with mp := p, m := { kind := .msc, n := n, a := a, b := b } }
  | .cmul _ p n a b rest => Bundle.fits { rest with mp := p, m := { kind := .cmul, n := n, a := a, b := b } }
  | .cmac _ p n a b rest => Bundle.fits { rest with mp := p, m := { kind := .cmac, n := n, a := a, b := b } }
  | .cmsc _ p n a b rest => Bundle.fits { rest with mp := p, m := { kind := .cmsc, n := n, a := a, b := b } }
  | .cmacj _ p n a b rest => Bundle.fits { rest with mp := p, m := { kind := .cmacj, n := n, a := a, b := b } }
  | .dot2 _ p n a b rest => Bundle.fits { rest with mp := p, m := { kind := .dot2, n := n, a := a, b := b } }
  | .dot2a _ p n a b rest => Bundle.fits { rest with mp := p, m := { kind := .dot2a, n := n, a := a, b := b } }
  | .dot4 _ p n a b rest => Bundle.fits { rest with mp := p, m := { kind := .dot4, n := n, a := a, b := b } }
  | .dot4a _ p n a b rest => Bundle.fits { rest with mp := p, m := { kind := .dot4a, n := n, a := a, b := b } }
  | .cres0 _ p n a b rest => Bundle.fits { rest with mp := p, m := { kind := .cres0, n := n, a := a, b := b } }
  | .cres _ p n a b rest => Bundle.fits { rest with mp := p, m := { kind := .cres, n := n, a := a, b := b } }
  | .ld _ y p reg ptr am rest acc other => memFits y p { kind := .ld, reg := reg, ptr := ptr, am := am } rest && acc.ok && other.ok
  | .st _ y p reg ptr am rest acc other => memFits y p { kind := .st, reg := reg, ptr := ptr, am := am } rest && acc.ok && other.ok
  | .ld2 _ y p reg ptr am rest acc other => memFits y p { kind := .ld2, reg := reg, ptr := ptr, am := am } rest && acc.ok && other.ok
  | .st2 _ y p reg ptr am rest acc other => memFits y p { kind := .st2, reg := reg, ptr := ptr, am := am } rest && acc.ok && other.ok
  | .lda _ y p reg ptr am rest acc other => memFits y p { kind := .lda, reg := reg, ptr := ptr, am := am } rest && acc.ok && other.ok
  | .stQ _ y p reg ptr am rest acc other => memFits y p { kind := .stq, reg := reg, ptr := ptr, am := am } rest && acc.ok && other.ok
  | .ldx _ y p reg ptr am rest acc other => memFits y p { kind := .ldx, reg := reg, ptr := ptr, am := am } rest && acc.ok && other.ok
  | .stx _ y p reg ptr am rest acc other => memFits y p { kind := .stx, reg := reg, ptr := ptr, am := am } rest && acc.ok && other.ok
  | .rep _ p count rest => Bundle.fits { rest with cp := p, c := .rep count }
  | .clrav _ p mask rest => Bundle.fits { rest with cp := p, c := .clrav mask }
  | .mov _ p d a rest => Bundle.fits { rest with cp := p, c := .mov d a }
  | .not _ p d a rest => Bundle.fits { rest with cp := p, c := .not d a }
  | .negs _ p d a rest => Bundle.fits { rest with cp := p, c := .negs d a }
  | .abss _ p d a rest => Bundle.fits { rest with cp := p, c := .abss d a }
  | .mtx _ p file i a rest => Bundle.fits { rest with cp := p, c := .mtx file i a }
  | .mfx _ p d file i rest => Bundle.fits { rest with cp := p, c := .mfx d file i }
  | .mva _ p part n a rest => Bundle.fits { rest with cp := p, c := .mva part n a }
  | .mfa _ p part n d rest => Bundle.fits { rest with cp := p, c := .mfa part n d }
  | .mvr _ p q23 n d rest => Bundle.fits { rest with cp := p, c := .mvr q23 n d }
  | .pset _ p v d rest => Bundle.fits { rest with cp := p, c := .pset v d }
  | .pand _ p d a b rest => Bundle.fits { rest with cp := p, c := .pand d a b }
  | .por _ p d a b rest => Bundle.fits { rest with cp := p, c := .por d a b }
  | .pxor _ p d a b rest => Bundle.fits { rest with cp := p, c := .pxor d a b }
  | .pnot _ p d a rest => Bundle.fits { rest with cp := p, c := .pnot d a }
  | .mff _ p d rest => Bundle.fits { rest with cp := p, c := .mff d }
  | .mtf _ p a rest => Bundle.fits { rest with cp := p, c := .mtf a }
  | .eret _ p rest => Bundle.fits { rest with cp := p, c := .eret }
  | .br _ p a rest => Bundle.fits { rest with cp := p, c := .br a }
  | .b _ p t rest => Bundle.fits { rest with cp := p, c := .b t }
  | .bl _ p d t rest => Bundle.fits { rest with cp := p, c := .bl d t }
  | .rnd _ p d rest => Bundle.fits { rest with cp := p, c := .rnd d }
  | .rseed _ p a rest => Bundle.fits { rest with cp := p, c := .rseed a }
  | .paset _ p incr k a rest => Bundle.fits { rest with cp := p, c := .paset incr k a }
  | .paget _ p incr k d rest => Bundle.fits { rest with cp := p, c := .paget incr k d }
  | .pacc _ p carry k d rest => Bundle.fits { rest with cp := p, c := .pacc carry k d }
  | .add _ p d a b rest => Bundle.fits { rest with cp := p, c := .alu .add d a b }
  | .sub _ p d a b rest => Bundle.fits { rest with cp := p, c := .alu .sub d a b }
  | .adds _ p d a b rest => Bundle.fits { rest with cp := p, c := .alu .adds d a b }
  | .subs _ p d a b rest => Bundle.fits { rest with cp := p, c := .alu .subs d a b }
  | .and _ p d a b rest => Bundle.fits { rest with cp := p, c := .alu .and d a b }
  | .or _ p d a b rest => Bundle.fits { rest with cp := p, c := .alu .or d a b }
  | .xor _ p d a b rest => Bundle.fits { rest with cp := p, c := .alu .xor d a b }
  | .lsl _ p d a b rest => Bundle.fits { rest with cp := p, c := .alu .lsl d a b }
  | .lsr _ p d a b rest => Bundle.fits { rest with cp := p, c := .alu .lsr d a b }
  | .asr _ p d a b rest => Bundle.fits { rest with cp := p, c := .alu .asr d a b }
  | .lsls _ p d a b rest => Bundle.fits { rest with cp := p, c := .alu .lsls d a b }
  | .cmpcc _ p cc d a b rest => Bundle.fits { rest with cp := p, c := .cmp cc d a b }
  | .addi _ p d a imm rest => Bundle.fits { rest with cp := p, c := .addi d a imm }
  | .movi _ p d imm rest => Bundle.fits { rest with cp := p, c := .movi d imm }
  | .movl _ p d imm rest => Bundle.fits { rest with cp := p, c := .movl d imm }
  | .mfc _ p d cr rest => Bundle.fits { rest with cp := p, c := .mfc d cr }
  | .mtc _ p cr a rest => Bundle.fits { rest with cp := p, c := .mtc cr a }
  | .loop _ p count stop rest => Bundle.fits { rest with cp := p, c := .loop count stop }
  | .loopR _ p count stop step stages rest => Bundle.fits { rest with cp := p, c := .loopR count stop step stages }
  | .venter _ p t rest => Bundle.fits { rest with cp := p, c := .venter t }
  | .pramp _ p k d rest => Bundle.fits { rest with cp := p, c := .pramp k d }
  | .tfetch _ p cubic r g a rest acc => Bundle.fits { rest with cp := p, c := .tfetch cubic r g a } && acc.ok
  | .tread _ p r d a rest acc => Bundle.fits { rest with cp := p, c := .tread r d a } && acc.ok
  | .blep _ p t d a rest => Bundle.fits { rest with cp := p, c := .blep t d a }
  | .coreEventTake _ => true
  | .doorbellWrite _ _ _ => true
  | .haltRequest _ _ _ => true
  | .singleStep _ _ _ ax ay => ax.ok && ay.ok
  | .programLoad _ _ _ => true
  | .coreLogicCheckFail _ => true
  | .coreUeTimeout _ _ => true
  | .spareEnterService _ _ => true
  | .linkChange _ _ _ _ => true
  | .frameReceive _ _ frame _ _ _ => decide (frame.length ≤ 1522)
  | .syncTransmit => true
  | .syncTimeout _ _ => true
  | .packetDeadline _ => true
  | .streamPacketTransmit _ => true
  | .streamConfigWrite _ _ _ => true
  | .sessionEnable _ _ _ => true
  | .sessionDisable _ _ _ => true
  | .sessionAddressWrite _ _ _ _ => true
  | .hostTxDoorbell _ _ _ => true
  | .hostFrameSent _ _ _ => true
  | .pcieReset _ _ _ => true
  | .registerWrite _ _ _ _ => true
  | .glbRead _ _ => true
  | .pcieConcourseAccess _ _ _ meet => meet.all (fun e => e.2.ok)
  | .pcieSampleMemoryAccess _ _ _ _ => true
  | .pcieAtomic _ _ _ _ _ acc => acc.ok
  | .dmaDoorbell _ _ => true
  | .dmaCopy desc m => decide (desc.length = 32) && (m.reads ++ m.writes).all (fun e => e.2.ok)
  | .dmaFill desc m => decide (desc.length = 32) && (m.reads ++ m.writes).all (fun e => e.2.ok)
  | .dmaAdd32 desc m => decide (desc.length = 32) && (m.reads ++ m.writes).all (fun e => e.2.ok)
  | .dmaSwap desc m => decide (desc.length = 32) && (m.reads ++ m.writes).all (fun e => e.2.ok)
  | .spiWrite _ words _ => decide (words.length ≤ 8191)
  | .spiRdreq _ _ _ => true
  | .spiRddata _ => true
  | .spiEvent _ _ => true
  | .spiStatus _ => true
  | .tdmFrame _ _ _ _ => true
  | .tdmLock _ _ => true
  | .tdmBclkLoss _ => true
  | .tdmConfigWrite _ _ _ => true
  | .coreRetire _ _ => true
  | .coreRecall _ => true
  | .coreRestore _ _ => true
  | .dramPageRetire _ _ => true
  | .dramScrubFull _ _ => true
  | .cfgCommit _ _ => true
  | .cfgReload _ _ => true
  | .standbyEnter _ _ => true
  | .standbyReached => true
  | .portFailoverTest _ _ => true
  | .svcAbort _ _ => true
  | .serviceOperationComplete _ _ _ => true
  | .autoRebuildStart => true
  | .errorInjectArm _ _ _ => true
  | .heartbeatKick _ _ => true
  | .heartbeatExpiry => true
  | .watchdogExpiry => true
  | .moduleRestartRequest _ _ => true
  | .pageDisable _ _ _ => true
  | .pageEnable _ _ _ => true
  | .pageIdle _ => true
  | .pageSoftReset _ _ _ => true
  | .pageLock _ _ _ => true
  | .glbFence _ _ => true
  | .pmuDump => true
  | .pmuDumpComplete => true
  | .pmuCounterRead _ => true
  | .pmuRingConfigWrite _ _ _ => true
  | .powerOnReset _ => true
  | .vioBankChange _ _ _ => true
  | .bootInitDone _ _ _ _ _ => true
  | .imageCheck _ _ _ => true
  | .backoffExpiry => true
  | .hostImageGo _ _ => true
  | .fuseProgram _ _ => true
  | .fuseProgramDone => true
  | .wakePin _ => true
  | .wakeRequest _ _ => true
  | .wakeComplete _ => true
  | .thermalSample _ => true
  | .railFault _ => true
  | .pllRelock _ _ _ => true
  | .pdelayRequestTransmit => true
  | .illegalBundle _ _ => true
  | .stagingComplete _ _ => true
  | .bootDone => true
  | .spiRegisterAccessDone => true
  | .spiUnknownCommand _ _ => true
  | .ptpTimeRead _ _ => true
  | .dmaInvalidDescriptor desc => decide (desc.length = 32)
  | .pcieAerError => true

end Sys2Proof
end

