-- ==== Sys2Proof/Tests/Slice0.lean ====
section
/-! SUPPORT. The author's own tests: well-formedness, single steps with results taken from the spec, and for every statement states and
operands that meet its hypotheses (`witness_<statement>`, clause by clause, in the order of the statement's clauses). -/

open Sys2Proof Sys2Proof.Machine

set_option Elab.async false

namespace Sys2Proof.Tests

/-! ### States to start from -/

/-- The block after boot: BOOT_STAT.STATE is DONE. -/
def ready : State := State.reset.setFld Reg.BOOT_STAT 24 4 6

/-- Core `n` is in service. -/
def served (n : Nat) (s : State) : State := s.updCore n (fun c => { c with svc := 2 })

/-- Core `n` of the booted block as `f` makes it, in service. -/
def cored (n : Nat) (f : Core → Core) : State := ready.updCore n (fun c => { f c with svc := 2 })

/-- The booted block with a register set. -/
def withReg (l : List (Nat × Word)) (s : State) : State := l.foldl (fun t e => t.setReg e.1 e.2) s

/-- Media time runs, at sample `n`. -/
def playing (n : Nat) : State :=
  let s := (ready.setBit Reg.CLK_MEDIA_STAT 0 true).setBit Reg.CLK_MEDIA_CTRL 0 true
  { s with clk := { s.clk with mt := BitVec.ofNat 64 (256 * n) } }

/-- The state that an outcome answers. -/
def after : Host.Outcome State Fault Refusal → State
  | .next t => t
  | _ => State.reset

theorem calm_of {s : State} {n : Nat} (h : s.ready n = true ∧ (s.core n).inflight = [] ∧ (s.core n).delay = none ∧
    (s.core n).lc 0 = 0 ∧ (s.core n).lc 1 = 0 ∧ (s.core n).voice = false ∧ s.breakAt n (((s.core n).pc + 1) % 8192) = none ∧
    s.bit (Reg.PAGE_ERR_INJ (Page.vc0 + n)) 30 = false) : s.Calm n := by
  obtain ⟨h1, h2, h3, h4, h5, h6, h7, h8⟩ := h
  refine ⟨h1, h2, h3, ?_, ?_, h7, h8⟩
  · intro l hl ls le hx
    have hz : (s.core n).lc l = 0 := by
      have : l = 0 ∨ l = 1 := by omega
      rcases this with rfl | rfl <;> assumption
    simp [Core.loopAt, hz] at hx
  · simp [h6]

theorem calm_served : (served 3 ready).Calm 3 := calm_of (by decide +kernel)
theorem calm_last : (served 33 ready).Calm 33 := calm_of (by decide +kernel)

/-- A transfer that meets nothing. -/
def quietDma : DmaMeet := { host := [], poisoned := false, reads := [], writes := [], errs := [], stop := 0 }

/-! ### Well-formedness -/

theorem test_wellFormed_ill :
    wellFormed (.ringEntryRead 0 (List.replicate 31 0)) = false ∧ wellFormed (.nmidCommand 0 0 []) = false ∧
    wellFormed (.nmidCommand 0 0 [[0x40903C00]]) = false ∧ wellFormed (.timetableEntry 0 [] none none false 0) = false ∧
    wellFormed (.movl 0 .always 1 2 { Bundle.nop with m := { kind := .mul, n := 0, a := 1, b := 2 } }) = false ∧
    wellFormed (.rep 0 .always (.imm 512) Bundle.nop) = false ∧
    wellFormed (.ld 0 false .always 1 0 (.offset 0) Bundle.nop Access.quiet Access.quiet) = false ∧
    wellFormed (.ld 0 false .always 1 0 .plain Bundle.nop { Access.quiet with rival := some ⟨0, .bulk, 15, [1, 2]⟩ } Access.quiet) = false ∧
    wellFormed (.st 0 true .always 1 0 .plain Bundle.nop Access.quiet { Access.quiet with rival := some ⟨0, .bulk, 0, []⟩ }) = false ∧
    wellFormed (.tread 0 .always 1 2 3 Bundle.nop { Access.quiet with rival := some ⟨0, .bulk, 1, List.replicate 16 0⟩ }) = false ∧
    wellFormed (.singleStep .pcie 0 0 { Access.quiet with rival := some ⟨0, .bulk, 1, []⟩ } Access.quiet) = false ∧
    wellFormed (.frameReceive 0 false (List.replicate 1523 0) 0 none 0) = false ∧
    wellFormed (.pcieConcourseAccess 0 none 1 [(0, { Access.quiet with rival := some ⟨0, .bulk, 0, []⟩ })]) = false ∧
    wellFormed (.pcieAtomic .swap true false 0 0 { Access.quiet with rival := some ⟨0, .bulk, 0, []⟩ }) = false ∧
    wellFormed (.dmaInvalidDescriptor []) = false ∧
    wellFormed (.dmaCopy [] quietDma) = false ∧
    wellFormed (.dmaFill (List.replicate 32 0) { quietDma with reads := [(0, { Access.quiet with rival := some ⟨0, .bulk, 0, []⟩ })] }) = false ∧
    wellFormed (.spiWrite 0 (List.replicate 8192 0) 0) = false := by decide +kernel

theorem test_wellFormed_good :
    wellFormed (.ringEntryRead 0 (List.replicate 32 0)) = true ∧ wellFormed (.nmidCommand 0 0 [[0x40903C00, 0]]) = true ∧
    wellFormed (.movl 0 .always 1 2 Bundle.nop) = true ∧ wellFormed (.rep 0 .always (.imm 511) Bundle.nop) = true ∧
    wellFormed (.mul 0 .always 0 1 2 { Bundle.nop with x := some { kind := .ld, reg := 1, ptr := 0, am := .postInc } }) = true ∧
    wellFormed (.frameReceive 0 false (List.replicate 1522 0) 0 none 0) = true := by decide +kernel

/-! ### Bundles written out from the encodings (R196 to R206 and the worked example of spec/09) -/

theorem test_decode_L0 : decodeBundle 0x351228A0855BD022 = some
    { mp := .on 5, m := { kind := .mul, n := 0, a := 17, b := 8 }
      xp := .on 4, x := some { kind := .ld, reg := 16, ptr := 5, am := .postM 5 }
      yp := .on 7, y := some { kind := .stq, reg := 0, ptr := 2, am := .postM 2 }
      cp := .always, c := .nop } := by decide +kernel

theorem test_decode_L1 : (decodeBundle 0x5522490000000000).map (fun b => (b.mp, b.m, b.cp, b.c)) =
    some (.on 5, { kind := .mac, n := 0, a := 18, b := 9 }, .always, .nop) := by decide +kernel

theorem test_decode_rep : (decodeBundle 0x40200100200000FE).map (fun b => (b.mp, b.m, b.cp, b.c)) =
    some (.always, { kind := .mac, n := 0, a := 0, b := 1 }, .always, .rep (.imm 254)) := by decide +kernel

/-- FMT 0b101 to 0b111 are reserved (R196), and so is a PR of 0b00001 (R197). -/
theorem test_decode_reserved : decodeBundle 0xA000000000000000 = none ∧ decodeBundle 0xE000000000000000 = none ∧
    decodeBundle 0x4100000000000000 = none := by decide +kernel

/-! ### Single steps, with results from the spec -/

/-- G register 3 after a command of core 3, with G1 and G2 set before. -/
def alu (x y : Word) (i : Instr) : Word :=
  (after (exec i (cored 3 (fun c => (c.wr 1 x false).wr 2 y false)))).core 3 |>.g 3

/-- R181: ADDS and SUBS saturate, ADD and SUB wrap, and a shift count is taken modulo 32. -/
theorem test_adds : alu 0x7FFFFFFF 1 (.adds 3 .always 3 1 (.reg 2) Bundle.nop) = 0x7FFFFFFF ∧
    alu 0x80000000 0xFFFFFFFF (.adds 3 .always 3 1 (.reg 2) Bundle.nop) = 0x80000000 := by decide +kernel
theorem test_add : alu 0x7FFFFFFF 1 (.add 3 .always 3 1 (.reg 2) Bundle.nop) = 0x80000000 := by decide +kernel
theorem test_subs : alu 0x80000000 1 (.subs 3 .always 3 1 (.reg 2) Bundle.nop) = 0x80000000 := by decide +kernel
theorem test_asr : alu 0x80000000 33 (.asr 3 .always 3 1 (.reg 2) Bundle.nop) = 0xC0000000 := by decide +kernel
theorem test_lsls : alu 0x40000000 1 (.lsls 3 .always 3 1 (.reg 2) Bundle.nop) = 0x7FFFFFFF := by decide +kernel
theorem test_abss : alu 0x80000000 0 (.abss 3 .always 3 1 Bundle.nop) = 0x7FFFFFFF := by decide +kernel
theorem test_addi : alu 5 0 (.addi 3 .always 3 1 0xFFFF Bundle.nop) = 4 := by decide +kernel

/-- CMPLT compares signed words, CMPLTU unsigned ones (R206). -/
theorem test_cmp :
    let s := cored 3 (fun c => (c.wr 1 0x80000000 false).wr 2 1 false)
    ((after (exec (.cmpcc 3 .always .lt 7 1 2 Bundle.nop) s)).core 3).flag 7 = true ∧
      ((after (exec (.cmpcc 3 .always .ltu 7 1 2 Bundle.nop) s)).core 3).flag 7 = false := by decide +kernel

/-- The product of −1.0 and −1.0 is +1.0 in an accumulator, 2^63, three bundles later (R173, R199). -/
theorem test_mul : ((after (exec (.mul 3 .always 0 1 2 Bundle.nop) (cored 3 (fun c => (c.wr 1 0x80000000 false).wr 2 0x80000000 false)))).core 3).inflight =
    [{ due := 3, voice := false, op := .acc 0 (BitVec.ofNat 72 (2 ^ 63)) true none }] := by decide +kernel

/-- Bundle 2 of the worked example of spec/08: 255.0 and 1.0 overflow to −256.0, in the positive direction. -/
theorem test_mac_overflow :
    ((after (exec (.mac 3 .always 0 1 2 Bundle.nop) (cored 3 (fun c =>
      ((c.wr 1 0x80000000 false).wr 2 0x80000000 false).accWr 0 (BitVec.ofNat 72 (255 * 2 ^ 63)) false)))).core 3).inflight =
    [{ due := 3, voice := false, op := .acc 0 (BitVec.ofNat 72 (2 ^ 71)) false (some false) }] := by decide +kernel

/-- Bundle 9 of it: a store of an accumulator with AV set and direction negative writes 0x8000_0000, and without AV 0x2000_0000. -/
theorem test_rounded : (roundedRead (2 ^ 61) true true false).1 = 0x80000000 ∧ (roundedRead (2 ^ 61) false false false).1 = 0x20000000 := by
  decide +kernel

/-- LOCK can be set (R423). -/
theorem test_lock : ready.writable (Reg.PAGE_CTRL Page.clk) = true ∧
    (after (exec (.pageLock .pcie (2 : Fin 66) 5) ready)).locked Page.clk = true := by decide +kernel

/-- CLK_MT_LOAD is rounded down to a block boundary: 4,096 units at B 16 (R25). -/
theorem test_mtLoad : (after (exec (.mtLoad .pcie 2) (ready.setReg Reg.CLK_MT_LOAD_LO 0x2FFF))).clk.mt = 0x2000 := by decide +kernel

/-- A read of PMU_CNT_LO latches the upper half (R394). -/
theorem test_pmuCounterRead :
    let s := { ready.setReg Reg.PMU_CNT_SEL 3 with pmu := [(3, 2 ^ 40 + 7)] }
    (after (exec (.pmuCounterRead .spi) s)).out.sent = [.readData .spi [7]] ∧ (after (exec (.pmuCounterRead .spi) s)).latched 1 .spi = 256 := by
  decide +kernel

/-- A partial word write does nothing but report (R425). -/
theorem test_registerWrite_partial : (after (exec (.registerWrite .pcie 0x0001C 7 0xFFFFFFFF) ready)).bit (Reg.PAGE_ERR_STAT Page.glb) 0 = true := by
  decide +kernel

/-- A wake request in STANDBY (R415). -/
theorem test_wakeRequest : (after (exec (.wakeRequest .pcie 1) (ready.setFld Reg.PWR_STAT 8 3 2))).powerState = 3 := by decide +kernel

/-- SVC_CMD while an operation runs is refused (R372). -/
theorem test_bankReturn_busy : (after (exec (.bankReturn .pcie 0) (ready.setReg Reg.SVC_STAT 0x80010000))).reg Reg.SVC_REFUSE_CNT = 1 := by
  decide +kernel

/-- R412: STATUS is low at reset, blinks at 4 Hz in BACKOFF and is high in DONE. -/
theorem test_status_pin : State.reset.statusPin = .low ∧ (State.reset.setFld Reg.BOOT_STAT 24 4 4).statusPin = .square 4 ∧
    ready.statusPin = .high := by decide +kernel

/-- R40: both clock outputs are low at reset; MCLK_OUT at a division by 2 carries 49.152 MHz, half of the 98.304 MHz of spec/02. -/
theorem test_clock_pins : State.reset.wclkOut = .low ∧ State.reset.mclkOut = .low ∧
    (ready.setReg Reg.CLK_WCLK_CFG 0x1010).mclkOut = .square 49152000 ∧
    (ready.setReg Reg.CLK_WCLK_CFG 0x1010).wclkOut = .square 48000 := by decide +kernel

/-! ### Witnesses: the queue, reset, and what every command keeps -/

/-- A booted block whose one waiting command is a NOP of core 3. -/
def queued : State := { served 3 ready with pending := [.nop 3 Bundle.nop] }

theorem canonical_queued : queued.Canonical := ⟨by decide +kernel, by decide +kernel, by decide +kernel⟩

theorem witness_StepRunsFront : queued.pending = .nop 3 Bundle.nop :: [] ∧ State.reset.pending = [] := ⟨rfl, rfl⟩

theorem witness_StepKeepsCanonical : queued.Canonical ∧ ∃ t, step queued = .next t := ⟨canonical_queued, _, rfl⟩

theorem witness_StepsKeepQueueAndFuse : (∃ t, step queued = .next t) ∧ queued.pending.head? ≠ some .fuseProgramDone :=
  ⟨⟨_, rfl⟩, by decide +kernel⟩

theorem witness_ClosedWrites :
    writeTarget (.expCfgWrite .pcie 1) = some Reg.SCH_EXP_CFG ∧
    State.reset.serving = false ∧ ready.serving = true ∧
    (standbyPage (Reg.SCH_EXP_CFG / 0x1000) = true ∧ (ready.setFld Reg.PWR_STAT 8 3 2).powerState = 2 ∧
      (ready.setFld Reg.PWR_STAT 8 3 3).powerState = 3 ∧ ready.powerState = 0) ∧
    (writeTarget (.attributeWrite .pcie 63 1) = some (Reg.CON_ATTR 63) ∧ bootPage (Reg.CON_ATTR 63 / 0x1000) = true ∧ (State.reset.setFld Reg.BOOT_STAT 24 4 5).serving = true ∧
      (State.reset.setFld Reg.BOOT_STAT 24 4 5).bootState ≠ 6 ∧ ready.bootState = 6) ∧
    (ready.setReg (Reg.PAGE_CTRL (Reg.SCH_EXP_CFG / 0x1000)) 5).locked (Reg.SCH_EXP_CFG / 0x1000) = true ∧
    (rowOf Reg.SCH_EXP_CFG).any (fun r => !r.exempt && decide (r.w1c = 0 ∧ r.w1s = 0 ∧ r.wo = 0)) = true := by decide +kernel

/-! ### Witnesses: voice cores -/

theorem witness_VoiceCommandsIssueBundles :
    (voiceBundle (.mul 33 (.on 7) 3 31 31 Bundle.nop)).isSome = true ∧ State.reset.ready 33 = false := by decide +kernel

/-- All four predicates are flag 7, which is 0. -/
def never : Bundle := { Bundle.nop with mp := .on 7, xp := .on 7, yp := .on 7, cp := .on 7 }

theorem witness_FalsePredicatesPerformNothing :
    (served 3 ready).Calm 3 ∧ voiceBundle (.add 3 (.on 7) 0 1 (.reg 2) never) =
      some (3, { never with c := .alu .add 0 1 (.reg 2) }, Access.quiet, Access.quiet) ∧
    ((served 3 ready).core 3).legal ((served 3 ready).core 3).pc { never with c := .alu .add 0 1 (.reg 2) } = true ∧
    isBranch (.alu .add 0 1 (.reg 2)) = false ∧ ((served 3 ready).core 3).holds (.on 7) = false :=
  ⟨calm_served, by decide +kernel⟩

theorem witness_IllegalBundlesPerformNothing :
    (served 33 ready).Calm 33 ∧ (voiceBundle (.dot2 33 .always 0 1 0 Bundle.nop)).isSome = true ∧
    ((served 33 ready).core 33).legal ((served 33 ready).core 33).pc { Bundle.nop with m := { kind := .dot2, n := 0, a := 1, b := 0 } } = false :=
  ⟨calm_last, by decide +kernel⟩

theorem witness_AluAndMoveResults : (served 33 ready).Calm 33 ∧ ((served 33 ready).core 33).holds (.off 7) = true :=
  ⟨calm_last, by decide +kernel⟩

theorem witness_FlagResults : (served 33 ready).Calm 33 ∧ ((served 33 ready).core 33).holds .always = true := ⟨calm_last, by decide +kernel⟩

theorem witness_FileAndAccumulatorMoves : (served 33 ready).Calm 33 ∧ ((served 33 ready).core 33).holds .always = true ∧ (1 : Fin 16) ≠ 0 ∧
    (15 : Fin 16) ≠ 0 := ⟨calm_last, by decide +kernel⟩

theorem witness_ProductResults : (served 33 ready).Calm 33 ∧ ((served 33 ready).core 33).holds (.off 0) = true ∧
    ((30 : Fin 32).val % 2 = 0 ∧ (0 : Fin 32).val % 2 = 0) ∧ ((28 : Fin 32).val % 4 = 0 ∧ (0 : Fin 32).val % 4 = 0) ∧
    ((2 : Fin 4).val % 2 = 0 ∧ 16 ≤ (16 : Fin 32).val ∧ (16 : Fin 32).val % 2 = 0 ∧ (14 : Fin 32).val ≤ 14 ∧ (14 : Fin 32).val % 2 = 0) :=
  ⟨calm_last, by decide +kernel⟩

/-- Core 3 with pointer 0 at the last double word of its front frames. -/
def pointed : State := cored 3 (fun c => c.wr (codeX .p 0) 0x3FF8 false)

theorem witness_FrameLoadsAndStores :
    (pointed.Calm 3 ∧ (pointed.core 3).holds .always = true ∧ Addressing.plain ≠ .offset 0 ∧ (pointed.core 3).fresh = false ∧
      (pointed.core 3).front.frozen = false) ∧
    (memAddr (pointed.core 3) 0 .plain 8 = 0x3FF8 ∧ memAddr (pointed.core 3) 0 (.offset 1) 4 = 0x3FFC ∧
      (pointed.core 3).pointerAfter 0 .plain 8 = none ∧ (pointed.core 3).pointerAfter 0 (.offset 1) 4 = none) ∧
    ((pointed.core 3).pointerAfter 0 .postDec 4).map Prod.snd = some false ∧ (30 : Fin 32).val % 2 = 0 ∧ (3 : Fin 32).val < 4 ∧
    (19 : Fin 32).val % 16 < 4 ∧ 32 + (31 : Fin 32).val ∉ pointerWrites (pointed.core 3) 0 .postDec 4 :=
  ⟨⟨calm_of (by decide +kernel), by decide +kernel⟩, by decide +kernel⟩

/-- Core 3 after a branch: `k` delay slots are left, and then it goes on at bundle 8191. -/
def branched (k : Nat) : State := cored 3 (fun c => { c with delay := some { left := k, target := some 8191 } })

theorem witness_BranchesAndDelaySlots :
    ((served 33 ready).Calm 33 ∧ ((served 33 ready).core 33).holds .always = true ∧
      ((served 33 ready).core 33).nearEnd ((served 33 ready).core 33).pc = false) ∧
    (((branched 2).setCore 3 { (branched 2).core 3 with delay := none }).Calm 3 ∧
      ((branched 1).setCore 3 { (branched 1).core 3 with delay := none }).Calm 3) ∧
    (8191 < 8192 ∧ (branched 1).breakAt 3 8191 = none) ∧ (((branched 2).core 3).lc 0 = 0 ∧ ((branched 2).core 3).lc 1 = 0) ∧
    ((branched 2).core 3).delay = some { left := 2, target := some 8191 } ∧
    ((branched 1).core 3).delay = some { left := 1, target := some 8191 } :=
  ⟨⟨calm_last, by decide +kernel⟩, ⟨calm_of (by decide +kernel), calm_of (by decide +kernel)⟩, by decide +kernel⟩

theorem witness_LoopStarts : ((served 3 ready).Calm 3 ∧ ((served 3 ready).core 3).holds .always = true ∧
      ((served 3 ready).core 3).pc + 2 ≤ (2 : Fin 8192).val) ∧ (256#16).toNat ≤ 256 ∧
    (((served 3 ready).core 3).lc 0 = 0 ∧ ((served 3 ready).core 3).activeRot = none) ∧ (1#16).toNat % 65536 ≠ 0 ∧
    (65535#16).toNat % 65536 ≠ 0 := ⟨⟨calm_served, by decide +kernel⟩, by decide +kernel⟩

theorem witness_ModeChanges : (served 3 ready).Calm 3 ∧ ((served 3 ready).core 3).holds .always = true ∧
    ((served 3 ready).core 3).voice = false ∧ ((served 3 ready).core 3).nearEnd ((served 3 ready).core 3).pc = false ∧
    (served 3 ready).breakAt 3 8191 = none := ⟨calm_served, by decide +kernel⟩

/-- A task of slot `x` in a phase, for block 12, with 500 cycles. -/
def aTask (order x : Nat) (ph : TaskPhase) : Task :=
  { kind := .voice, cls := .normal, first := false, fade := false, resume := false, rerender := false, slot := x, part := 0, bseq := 12
    epoch := 0, entryPc := 0, home := homeAddr x, limit := 500, splitPtr := journalAddr x + 16, splitN := 0, start := 0, fadeBlk := 0
    fadeLen := 0, out := outBuffer x, phase := ph, platform := 3, exclude := none, order := order, head := false, boundAt := 0
    withdrawn := false, tally := [], takeAt := 0, seed := 7 }

/-- The state with these tasks. -/
def tasked (l : List Task) (s : State) : State := { s with sch := { s.sch with tasks := l, order := 20 } }

/-- Core 3 runs task 9, of slot 7. -/
def running9 : State := tasked [aTask 9 7 (.dispatched 3)] (cored 3 (fun c => { c with task := some 9, tcyc := 499 }))

theorem witness_TakeAndYield :
    ((served 3 ready).Calm 3 ∧ ((served 3 ready).core 3).holds .always = true ∧ ((served 3 ready).core 3).voice = false ∧
      ((served 3 ready).core 3).nearEnd ((served 3 ready).core 3).pc = false ∧ ((served 3 ready).core 3).memUe = none ∧
      ((served 3 ready).core 3).task = none) ∧
    (running9.Calm 3 ∧ (running9.core 3).holds .always = true ∧ (running9.core 3).voice = false ∧
      (running9.core 3).nearEnd (running9.core 3).pc = false ∧ (running9.core 3).memUe = none ∧ (running9.core 3).recalled = none ∧
      (running9.core 3).aborted = none ∧ (running9.core 3).halted = false ∧ (running9.core 3).task = some 9 ∧
      running9.taskOf 9 = some (aTask 9 7 (.dispatched 3)) ∧ (running9.core 3).tcyc + 1 ≤ (aTask 9 7 (.dispatched 3)).limit ∧
      taskAborted (some (aTask 9 7 (.dispatched 3))) = false) :=
  ⟨⟨calm_served, by decide +kernel⟩, calm_of (by decide +kernel), by decide +kernel⟩

theorem witness_GeneratorResults :
    ((served 33 ready).Calm 33 ∧ ((served 33 ready).core 33).holds .always = true) ∧ ((30 : Fin 32).val % 2 = 0) :=
  ⟨⟨calm_last, by decide +kernel⟩, by decide +kernel⟩

theorem witness_RampReadsAndControlMoves_reads :
    ((served 33 ready).Calm 33 ∧ ((served 33 ready).core 33).holds .always = true) ∧
    (((cored 3 (fun c => c.wr 1 0x80000000 false)).core 3).g 1).toInt < -(2 * 2 ^ ((7 : Fin 8).val % 4) * 2 ^ 24) ∧
    2 * 2 ^ ((7 : Fin 8).val % 4) * 2 ^ 24 ≤ (((cored 3 (fun c => c.wr 1 0x10000000 false)).core 3).g 1).toInt :=
  ⟨⟨calm_last, by decide +kernel⟩, by decide +kernel⟩

/-- Table region 59 is in force, with 16 words from 0x100000. -/
def tabled59 : State := { served 3 ready with spf := { ready.spf with tbl := [(118, 0x100000), (119, 0x80000004)] } }

theorem witness_TableReads : (tabled59.Calm 3 ∧ (tabled59.core 3).holds .always = true ∧ (59 : Fin 64).val < 60) ∧
    tabled59.tableRegion 58 = none ∧ tabled59.tableRegion 59 = some (0x100000, 4, false) ∧
    (tabled59.bit (Reg.PAGE_ERR_INJ Page.con) 30 = false ∧ tabled59.ctl.btBorrow = none ∧ tabled59.ctl.bad = []) :=
  ⟨⟨calm_of (by decide +kernel), by decide +kernel⟩, by decide +kernel⟩

theorem witness_RampReadsAndControlMoves_moves : ((served 3 ready).Calm 3 ∧ ((served 3 ready).core 3).holds .always = true ∧
      ((served 3 ready).core 3).voice = false) ∧ ((0 : Fin 64).val ≤ 0x0D ∧ (0x0D : Fin 64).val ≤ 0x0D ∧ (0x22 : Fin 64).val = 0x22) ∧
    crMask (0x0D : Fin 64) ≠ 0 := ⟨⟨calm_served, by decide +kernel⟩, by decide +kernel⟩

/-- A sum that overflows is about to take hold in accumulator 3. -/
def landing : State := cored 3 (fun c => { c with inflight := [{ due := c.cycle + 1, voice := false, op := .acc 3 5 true (some true) }] })

theorem witness_AccumulatorsLand : (landing.setCore 3 { landing.core 3 with inflight := [] }).Calm 3 ∧
    (landing.core 3).inflight = [{ due := (landing.core 3).cycle + 1, voice := false, op := .acc 3 5 true (some true) }] :=
  ⟨calm_of (by decide +kernel), by decide +kernel⟩

/-! ### Witnesses: Event Ingress -/

/-- Events of source `src` enter, mapped to Part 5. -/
def open_ (src : Nat) : State :=
  withReg [(Reg.ING_CTRL, 7), (Reg.PAGE_CTRL Page.ing, 1), (Reg.PAGE_CTRL Page.nmid, 1), (Reg.PAGE_CTRL Page.hsp, 1),
    (Reg.ING_SRC_CFG src, 3), (Reg.ING_PART_MAP 0, 0x85)] ready

/-- An entry of the Timetable. -/
def held : TtEntry :=
  { ump := [], src := 0, arr := 0, seq := 0, idx := 0, stamp := none, cls := .normal, part := 0, late := false, notify := false, tag := 0
    hostStamped := false }

/-- As `open_`, with a full Timetable. -/
def full (src : Nat) : State := { open_ src with ing := { (open_ src).ing with tt := List.replicate 16384 held } }

/-- A MIDI 2.0 Note On. -/
def note : List Word := [0x40903C00, 0x80000000]

theorem no_room {s : State} (h : s.ing.tt.length = 16384) (c : Cls) : s.ttRoom c = false := by simp [State.ttRoom, h]

theorem mapped_of {s : State} {e : Incoming} (h : s.bit (Reg.ING_SRC_CFG e.src) 0 = true ∧ s.bit Reg.ING_CTRL 0 = true ∧
    s.pageOn Page.ing = true ∧ s.bit (Reg.PAGE_ERR_INJ Page.ing) 30 = false ∧ umpKind (umpTrim e.ump) = .mapped ∧
    fieldOf (s.partWord e) 7 1 = 1 ∧ e.stamp.all (fun m => decide (modDiff 56 (m / 256) (e.arr / 256) ≤ 2 ^ 24)) = true) : s.mapped e := by
  obtain ⟨h1, h2, h3, h4, h5, h6, h7⟩ := h
  refine ⟨⟨h1, fun _ => ⟨h2, h3⟩, h4⟩, h5, h6, fun m hm => ?_⟩
  rw [hm] at h7
  simpa using h7

/-- A fence over everything that arrived before event 4. -/
def aFence : FenceRec :=
  { ident := 0xFFFF, all := true, src := 3, glb := false, arr := 0, seq := 0, idx := 4, notify := true, tag := 0, floor := 0 }

/-- With these fences waiting and placed, and these notifications held. -/
def fenced (w p : List FenceRec) (h : List (List Byte)) (cfg : Word) : State :=
  { ready.setReg Reg.ING_NTF_CFG cfg with ing := { ready.ing with waiting := w, fences := p, held := h } }

theorem witness_EventsEnterAndLeave :
    ((open_ 40).mapped ((open_ 40).arriving 40 note (some (256 * 2 ^ 24)) 3 true 1) ∧
      (open_ 40).ttRoom ((open_ 40).mappedClass ((open_ 40).arriving 40 note (some (256 * 2 ^ 24)) 3 true 1)) = true) ∧
    ((full 40).mapped ((full 40).arriving 40 note none 0 true 1) ∧
      (full 40).ttRoom ((full 40).mappedClass ((full 40).arriving 40 note none 0 true 1)) = false) ∧
    ((full 0).mapped ((full 0).arriving 0 note none 0 true 1) ∧
      (full 0).ttRoom ((full 0).mappedClass ((full 0).arriving 0 note none 0 true 1)) = false ∧ (full 0).bit Reg.ING_NTF_CFG 8 = false) ∧
    ((withReg [(Reg.ING_SRC_CFG 40, 0x18)] ready).bit (Reg.ING_SRC_CFG 40) 0 = false ∧ (withReg [(Reg.ING_CTRL, 6)] (open_ 31)).bit Reg.ING_CTRL 0 = false) ∧
    ((open_ 31).admits ((open_ 31).arriving 31 [0x60000000] none 0 false 0) ∧ ∃ r, umpKind (umpTrim [0x60000000]) = .malformed r) :=
  ⟨⟨mapped_of (by decide +kernel), by decide +kernel⟩, ⟨mapped_of (by decide +kernel), no_room List.length_replicate _⟩,
    ⟨mapped_of (by decide +kernel), no_room List.length_replicate _, by decide +kernel⟩, by decide +kernel, ⟨⟨by decide +kernel, by decide +kernel, by decide +kernel⟩, _, rfl⟩⟩

theorem witness_EventsEnterAndLeave_fences :
    (ready.ing.waiting.find? (fun f => !ready.fenceAwaits f) = none ∧ 256 ≤ (fenced [aFence] (List.replicate 256 aFence) [] 0).ing.fences.length) ∧
    ((fenced [aFence] (List.replicate 255 aFence) [] 0).ing.fences.length < 256 ∧
      (fenced [aFence] [] [] 0).ing.waiting.find? (fun f => !(fenced [aFence] [] [] 0).fenceAwaits f) = some aFence) ∧
    (ready.ing.fences.find? (fun f => !ready.ing.tt.any (fun e => f.coversEntry e)) = none) ∧
    ((fenced [] [aFence] [] 0).ing.fences.find? (fun f => !(fenced [] [aFence] [] 0).ing.tt.any (fun e => f.coversEntry e)) = some aFence ∧
      (fenced [] [aFence] [] 0).bit Reg.ING_NTF_CFG 8 = false) ∧
    (ready.ing.held = [] ∧ (fenced [] [] [[]] 0).bit Reg.ING_NTF_CFG 8 = false ∧
      2 ^ max 4 (min 12 4) ≤ (withReg [(Reg.ING_NTF_PI, 16)] (fenced [] [] [[]] 0x304)).ntfUsed) ∧
    ((fenced [] [] [List.replicate 32 7] 0x304).ing.held = [List.replicate 32 7] ∧ (List.replicate 32 (7 : Byte)).length = 32 ∧
      (fenced [] [] [] 0x304).bit Reg.ING_NTF_CFG 8 = true ∧ (fenced [] [] [] 0x304).bit Reg.ING_NTF_CFG 9 = true ∧
      (fenced [] [] [] 0x304).ntfUsed = 0 ∧ (withReg [(Reg.ING_NTF_PI, 15)] (fenced [] [] [] 0x304)).ntfUsed < 2 ^ max 4 (min 12 4)) := by
  decide +kernel

/-- An entry of a ring: a note, with the given flags. -/
def entry (flags : Nat) : List Byte :=
  (note ++ [0, 0]).flatMap (fun (w : Word) => leBytes 4 w.toNat) ++ leBytes 8 (2 ^ 64 - 1) ++ leBytes 2 9 ++ leBytes 1 flags ++ leBytes 5 0

/-- Ring 7 with one entry, which the bus reads bring. -/
def ringed (s : State) : State := withReg [(Reg.ING_RING_CFG 7, 0x104), (Reg.ING_RING_PI 7, 1)] s

/-- One entry waits in the SPI FIFO. -/
def spied (s : State) : State := { s with ing := { s.ing with spi := [(entry 0, { upTo := 0, arr := 4, seq := 6 })] } }

theorem witness_HostEntriesPass :
    (ready.writable (Reg.ING_RING_PI 7) = true ∧ 2 ^ max 4 (min 12 (fieldOf (ready.reg (Reg.ING_RING_CFG 7)) 0 4)) = 256 ∧
      256 < ((257#32).toNat % 2 ^ 16 + 2 ^ 16 - ready.fld (Reg.ING_RING_CI 7) 0 16) % 2 ^ 16 ∧
      ((256#32).toNat % 2 ^ 16 + 2 ^ 16 - ready.fld (Reg.ING_RING_CI 7) 0 16) % 2 ^ 16 ≤ 256) ∧
    (ready.ringUsed 7 = 0) ∧
    (let s := ringed (open_ 39)
     s.bit Reg.ING_CTRL 1 = true ∧ fieldOf (s.reg (Reg.ING_RING_CFG 7)) 8 1 = 1 ∧ s.pageOn Page.ing = true ∧ s.ringUsed 7 ≠ 0) ∧
    ((withReg [(Reg.ING_SRC_CFG 39, 0)] (ringed (open_ 39))).bit (Reg.ING_SRC_CFG 39) 0 = false ∧ (ringed (open_ 39)).bit Reg.ING_NTF_CFG 8 = false) ∧
    ((entryFields (entry 0)).reserved = false ∧ (entryFields (entry 0)).fence = false) ∧
    ((ringed (open_ 39)).mapped ((entryFields (entry 0)).event 39 { upTo := 0, arr := 0, seq := 0 }) ∧
      (ringed (open_ 39)).ttRoom ((ringed (open_ 39)).mappedClass ((entryFields (entry 0)).event 39 { upTo := 0, arr := 0, seq := 0 })) = true ∧
      (ringed (full 39)).mapped ((entryFields (entry 0)).event 39 { upTo := 0, arr := 0, seq := 0 }) ∧
      (ringed (full 39)).ttRoom ((ringed (full 39)).mappedClass ((entryFields (entry 0)).event 39 { upTo := 0, arr := 0, seq := 0 })) = false) ∧
    (ready.ing.spi = [] ∧ (spied ready).ing.spi = [(entry 0, { upTo := 0, arr := 4, seq := 6 })] ∧ (spied ready).bit Reg.ING_CTRL 2 = false ∧
      (spied (open_ 40)).bit Reg.ING_CTRL 2 = true ∧ (spied (open_ 40)).pageOn Page.ing = true) ∧
    ((spied (open_ 40)).mapped ((entryFields (entry 0)).event 40 { upTo := 0, arr := 4, seq := 6 }) ∧
      (spied (open_ 40)).ttRoom ((spied (open_ 40)).mappedClass ((entryFields (entry 0)).event 40 { upTo := 0, arr := 4, seq := 6 })) = true ∧
      (spied (full 40)).mapped ((entryFields (entry 0)).event 40 { upTo := 0, arr := 4, seq := 6 }) ∧
      (spied (full 40)).ttRoom ((spied (full 40)).mappedClass ((entryFields (entry 0)).event 40 { upTo := 0, arr := 4, seq := 6 })) = false) :=
  ⟨by decide +kernel, by decide +kernel, by decide +kernel, by decide +kernel, by decide +kernel,
    ⟨mapped_of (by decide +kernel), by decide +kernel, mapped_of (by decide +kernel), no_room List.length_replicate _⟩, by decide +kernel,
    ⟨mapped_of (by decide +kernel), by decide +kernel, mapped_of (by decide +kernel), no_room List.length_replicate _⟩⟩

/-- Session 15 is enabled, its window at `h` with these numbers accepted. -/
def windowed (h : Option Nat) (acc : List (Nat × Nat)) : State :=
  ((open_ 15).setReg (Reg.NMID_SESS_CFG 15) 0x80000000).setWindow 15 { installed := true, h := h, acc := acc, moved := 3 }

theorem witness_SessionWindows :
    ((withReg [(Reg.PAGE_CTRL Page.nmid, 0)] ready).pageOn Page.nmid = false ∧ ready.bit (Reg.NMID_SESS_CFG 31) 31 = false) ∧
    (let s := windowed none []
     s.sessionSource 15 = 15 ∧ s.pageOn Page.nmid = true ∧ s.bit (Reg.NMID_SESS_CFG 15) 31 = true ∧ s.bit (Reg.ING_SRC_CFG 15) 0 = true ∧
      s.bit Reg.ING_CTRL 0 = true ∧ s.pageOn Page.ing = true ∧ s.bit (Reg.PAGE_ERR_INJ Page.ing) 30 = false ∧ (s.window 15).h = none) ∧
    (let s := windowed (some 10) [(10, 1), (9, 2)]
     let acc := (s.window 15).acc
     (s.window 15).h = some 10 ∧ (10 + 2 ^ 16 - (65291 : Fin 65536).val) % 2 ^ 16 ≤ 255 ∧
      acc.find? (fun x => decide (x.1 = (65291 : Fin 65536).val)) = none ∧
      (acc.find? (fun x => decide (x.1 = (9 : Fin 65536).val))).map Prod.snd = some 2 ∧
      (acc.find? (fun x => decide (x.1 = (10 : Fin 65536).val))).map Prod.snd = some 1 ∧
      (255 < (10 + 2 ^ 16 - (65290 : Fin 65536).val) % 2 ^ 16 ∧ 32767 < ((65290 : Fin 65536).val + 2 ^ 16 - 10) % 2 ^ 16) ∧
      (255 < (10 + 2 ^ 16 - (32777 : Fin 65536).val) % 2 ^ 16 ∧ ((32777 : Fin 65536).val + 2 ^ 16 - 10) % 2 ^ 16 ≤ 32767)) := by
  decide +kernel

/-! ### Witnesses: parameters, streams and monitoring -/

/-- At the start of period 10, after its boundary step, with slot 7 live and evaluated for block 11. -/
def evaluating : State :=
  let s := (playing 160).updSlot 7 (fun v => { v with st := .active, firstBlock := 1, placed := 3, part := 2 })
  { s with clk := { s.clk with boundaryDone := 11 }, mm := { s.mm with evaluated := [(7, 12)] } }

theorem witness_ParameterCommands :
    (ready.writable Reg.PS_WR_DATA = true ∧ ready.refusesHostWrite 0x403F0FFF = false ∧ ready.refusesHostWrite 0x40400000 = true) ∧
    (ready.writable (Reg.SPF_TBL_CFG 59) = true ∧ ready.writable (Reg.SPF_TBL_BASE 59) = true ∧
      regionAllowed (ready.stored (Reg.SPF_TBL_BASE 59) 0x00E60000) 4 = true ∧
      regionAllowed (ready.stored (Reg.SPF_TBL_BASE 59) 0x00E5FFC0) 4 = false) ∧
    (ready.running = false ∧ (playing 160).clk.boundaryDone ≤ (playing 160).period) ∧
    (evaluating.toEvaluate (evaluating.period + 2) (decide (evaluating.period < evaluating.clk.expressDone)) = [7] ∧
      evaluating.running = true ∧ evaluating.period < evaluating.clk.boundaryDone ∧
      Sparse.get (fun _ => 0) evaluating.mm.evaluated 7 ≠ 0 ∧ evaluating.mm.holding = false ∧
      ({ evaluating with mm := { evaluating.mm with holding := true } } : State).mm.holding = true) ∧ ready.conQuiet :=
  ⟨by decide +kernel, by decide +kernel, by decide +kernel, by decide +kernel, by unfold State.conQuiet; decide +kernel⟩

/-- A fill of 32 frames for stream 1 of slot 1087. -/
def filling : State :=
  let x : Stream := { ready.stream 1087 1 with active := true, width := 2, stereo := false, asked := 900, target := 900, addr := 0x1001, gen := 4 }
  { ready with spf := { ready.spf with
    fills := [{ slot := 1087, stream := 1, gen := 4, cls := .normal, from_ := 1020, count := 32, pos := 77 }] } }.setStream 1087 1 x

theorem witness_StreamFills :
    (ready.spf.fills.find? (fun f => decide (f.slot = 1087) && decide (f.stream = 1)) = none) ∧
    (filling.spf.fills.find? (fun f => decide (f.slot = 1087) && decide (f.stream = 1)) =
      some { slot := 1087, stream := 1, gen := 4, cls := .normal, from_ := 1020, count := 32, pos := 77 }) ∧
    ((filling.stream 1087 1).active = true ∧ (filling.stream 1087 1).gen = 4 ∧ (filling.stream 1087 1).stereo = false ∧
      (filling.stream 1087 1).target ≤ ((filling.stream 1087 1).asked : Int) ∧ 32 * (filling.stream 1087 1).width ≤ 64 ∧
      1 ≤ (filling.stream 1087 1).width ∧ filling.dram.bad = [] ∧ filling.bit (Reg.PAGE_ERR_INJ Page.drc) 30 = false) ∧ filling.conQuiet :=
  ⟨by decide +kernel, by decide +kernel, by decide +kernel, by unfold State.conQuiet; decide +kernel⟩

/-- A dump is due. -/
def dumping : State := (playing 160).setReg Reg.PMU_CTRL 0x10001

/-- A dump has taken its snapshot. -/
def dumped : State := after (execPmuDump dumping)

theorem witness_PmuCommands :
    (ready.bit Reg.PMU_CTRL 0 = false) ∧
    (dumping.bit Reg.PMU_CTRL 0 = true ∧ dumping.pageOn Page.pmu = true ∧ dumping.running = true ∧ dumping.offset = 0 ∧
      dumping.period % dumping.dumpInterval = 0 ∧ dumping.dump.done ≠ dumping.period + 1 ∧
      dumping.bit (Reg.PAGE_ERR_INJ Page.pmu) 30 = false) ∧
    (dumping.dump.snap = none ∧ (dumping.fld Reg.PMU_PI 0 16 + 2 ^ 16 - dumping.fld Reg.PMU_CI 0 16) % 2 ^ 16 ≠ dumping.dumpRing) ∧
    (let s := dumping.setReg Reg.PMU_PI (BitVec.ofNat 32 dumping.dumpRing)
     (s.fld Reg.PMU_PI 0 16 + 2 ^ 16 - s.fld Reg.PMU_CI 0 16) % 2 ^ 16 = s.dumpRing) ∧
    (dumped.dump.snap.isSome = true ∧ dumped.bit Reg.PMU_RING_CFG 9 = false ∧ dumped.bit (Reg.PAGE_STAT Page.pmu) 1 = false) ∧
    (ready.writable (pmuRingReg 0) = true ∧ ready.writable (pmuRingReg 2) = true ∧ dumping.bit Reg.PMU_CTRL 0 = true ∧
      ready.bit Reg.PMU_CTRL 0 = false ∧ ready.dump.snap = none) ∧ ready.serving = true := by decide +kernel

/-! ### Witnesses: scheduling and output -/

/-- Queue 47 plays, with a block that arrives; `n` blocks wait in it. -/
def queued47 (n : Nat) (en : Bool) (at_ : Nat) : State :=
  let x : Queue := { Queue.reset with active := true, primed := true, arriving := [(10, [])], blocks := List.replicate n (9, []) }
  ((playing at_).setQueue 47 x).setBit (Reg.OQ_Q_CFG 47) 0 en

theorem witness_QueueCommands :
    ((queued47 0 true 160).queue 47).arriving = (10, []) :: [] ∧ ready.bit (Reg.PAGE_ERR_INJ Page.oq) 30 = false ∧
    ((queued47 0 true 9999).queueRelease 47 10 < (queued47 0 true 9999).sample) ∧
    ((queued47 8 true 160).sample ≤ (queued47 8 true 160).queueRelease 47 10 ∧ (queued47 8 true 160).depth 47 ≤ ((queued47 8 true 160).queue 47).blocks.length) ∧
    (ready.writable (Reg.OQ_Q_CFG 47) = true ∧ ready.bit (Reg.OQ_Q_CFG 47) 0 = false) ∧
    ((queued47 0 true 160).writable (Reg.OQ_Q_CFG 47) = true ∧ (queued47 0 true 160).bit (Reg.OQ_Q_CFG 47) 0 = true ∧
      ¬ (fieldOf (0x70 : Word) 4 3 = (queued47 0 true 160).fld (Reg.OQ_Q_CFG 47) 4 3) ∧
      (fieldOf ((queued47 0 true 160).reg (Reg.OQ_Q_CFG 47)) 4 3 = (queued47 0 true 160).fld (Reg.OQ_Q_CFG 47) 4 3 ∧
        fieldOf ((queued47 0 true 160).reg (Reg.OQ_Q_CFG 47)) 16 8 = (queued47 0 true 160).fld (Reg.OQ_Q_CFG 47) 16 8) ∧
      ((queued47 0 true 160).queue 47).active = true) := by decide +kernel

theorem witness_FrameBoundaryRoutes :
    ready.running = false ∧ (let s := playing 164
      s.running = true ∧ s.run = true ∧ s.offset = s.blk / 4 ∧ s.clk.frameDone ≠ s.period + 1 ∧ s.pageOn Page.ort = true ∧
        s.ort.stopping = false) ∧
    ((playing 4).clk.startPeriod = (playing 4).period ∧ (playing 20).clk.startPeriod + 1 = (playing 20).period) ∧ (playing 164).conQuiet :=
  ⟨by decide +kernel, by decide +kernel, by decide +kernel, by unfold State.conQuiet; decide +kernel⟩

/-- Queue 47 hands out a block at the last sample of a period but one. -/
def playing47 : State :=
  (playing 174).setQueue 47 { Queue.reset with active := true, primed := true, cur := some (8, []) }

theorem witness_OutputSamples :
    ((playing 160).setFld Reg.PWR_STAT 8 3 2).powerState = 2 ∧ ((playing 160).setFld Reg.PWR_STAT 8 3 3).powerState = 3 ∧
    (playing47.serving = true ∧ playing47.powerState = 0 ∧ playing47.running = true ∧ playing47.offset ≠ 0 ∧
      playing47.offset + 1 < playing47.blk ∧ 47 ∈ queueNumbers ∧ (playing47.queue 47).cur = some (8, []) ∧
      (playing47.queue 47).fade = none ∧ (playing47.queue 47).rise = none ∧ (playing47.dacCh 7).mirror = none) := by decide +kernel

/-- Slot 7 is live and wants a task for block 12, bus program 63 one for block 11; cores 3 and 5 are in service. -/
def binding : State :=
  let s := ((playing 160).updSlot 7 (fun v => { v with st := .active, placed := 3, firstBlock := 1, part := 2 }))
  let s := (s.updCore 3 (fun c => { c with svc := 2 })).updCore 5 (fun c => { c with svc := 2 })
  { s with
    clk := { s.clk with boundaryDone := 11, deadlineDone := 10, busDeadlineDone := 10 }, mm := { s.mm with evaluated := [(7, 13)] }
    sch := { s.sch with busEnabled := [(63, 1)], busPlaced := [(63, 5)], order := 9 } }

/-- Cores 3 and 5 are in service; the tasks of `l` exist. -/
def siding (l : List Task) : State := tasked l binding

/-- Task 9, of slot 7, is being staged in slot `slot1` of core 3; then staged. -/
def staging (slot1 : Bool) : State := after (execTaskStage 3 slot1 0 .clean (siding [aTask 9 7 .bound]))
def staged (slot1 : Bool) : State := after (execStagingComplete 3 slot1 (staging slot1))

theorem witness_TasksAreBoundAndStaged :
    (binding.binds = true ∧ binding.period < binding.clk.boundaryDone ∧
      (binding.coresOf (binding.indexPset 7)).contains (binding.placedOf 7) = true ∧
      (binding.coresOf (binding.indexPset 1151)).contains (binding.placedOf 1151) = true) ∧
    (binding.wantsTask 7 (binding.period + 2) = true ∧ binding.slotCls 7 ≠ .express) ∧
    (((7 : Fin 1152).val < 1088 ∧ (siding [aTask 9 7 .bound]).wantsTask 7 ((siding []).period + 2) = false)) ∧
    (1088 ≤ (1151 : Fin 1152).val ∧ binding.wantsBus (1151 - 1088) (binding.period + 1) = true ∧
      binding.clk.startPeriod + 2 ≤ binding.period + 1 ∧ binding.clk.busDeadlineDone ≤ binding.period ∧
      clsOfCode (binding.fld (Reg.SCH_BUS_CFG (1151 - 1088)) 1 2) ≠ .express) := by decide +kernel

theorem witness_TasksAreBoundAndStaged_siding :
    (ready.sidingFree 3 true = false) ∧
    (let s := siding [aTask 9 7 .bound]
     s.best 3 (s.sch.tasks.filter (fun t => decide (t.phase = .bound) && !t.withdrawn && s.mayRun 3 t && s.stageable t)) = some (aTask 9 7 .bound) ∧
      s.sidingFree 3 false = true ∧ s.sidingFree 3 true = true) ∧ (siding [aTask 9 7 .bound]).conQuiet ∧
    (((staging false).core 3).back.task = some 9 ∧ ((staging true).core 3).buf1.task = some 9 ∧
      ((staging true).taskOf 9).map Task.phase = some (.staging 3 1)) ∧
    (((staged true).core 3).buf1.task = some 9 ∧ ((staged true).taskOf 9).map Task.phase = some (.staged 3 1) ∧
      ((staged true).core 3).back.task = none ∧ ((staged true).core 3).back.frozen = false ∧ ((staged true).core 3).svc = 2) :=
  ⟨by decide +kernel, by decide +kernel, by unfold State.conQuiet; decide +kernel, by decide +kernel, by decide +kernel⟩

/-- A TAKE of core 3 waits. -/
def taking : State := (staged false).updCore 3 (fun c => { c with taking := some { d := 5, miss := false } })

theorem witness_TakesAreDelivered :
    ((taking.core 3).taking = some { d := 5, miss := false } ∧ (taking.core 3).svc = 2 ∧ (taking.core 3).halted = false ∧
      (taking.core 3).recalled = none ∧ (taking.core 3).takesEvent = false ∧ (taking.core 3).back.task = some 9 ∧
      taking.taskOf 9 = some (aTask 9 7 (.staged 3 0)) ∧ (taking.core 3).inflight = [] ∧ (taking.core 3).task = none ∧
      (taking.core 3).memUe = none ∧ (taking.core 3).delay = none) ∧
    (taking.passes (aTask 9 7 (.staged 3 0)) 100 = true ∧ taking.breakAt 3 (((taking.core 3).pc + 1) % 8192) = none ∧
      (taking.core 3).lc 0 = 0 ∧ (taking.core 3).lc 1 = 0) ∧
    taking.passes (aTask 9 7 (.staged 3 0)) 100000000 = false := by decide +kernel

/-- Task 9 has yielded on core 3, which has frozen its front frames. -/
def yielded (k : Task) : State :=
  (siding [k]).updCore 3 (fun c => c.setFront { c.front with task := some 9, frozen := true })

/-- Task 9 in its yielded phase, stale or not. -/
def gone (stale : Bool) : Task := { aTask 9 7 (.yielded 3 true false) with withdrawn := stale }

theorem witness_CommitChecks :
    (((yielded (gone false)).core 3).yielded = some (true, ((yielded (gone false)).core 3).front) ∧
      ((yielded (gone false)).core 3).front.task = some 9 ∧ (yielded (gone false)).taskOf 9 = some (gone false) ∧
      (gone false).phase = .yielded 3 true false ∧ (yielded (gone false)).bit (Reg.PAGE_ERR_INJ (Page.vc0 + 3)) 30 = false) ∧
    (yielded (gone false)).conQuiet ∧ ((gone true).withdrawn = true ∧ (yielded (gone true)).taskOf 9 = some (gone true)) ∧
    ((gone false).epoch = (yielded (gone false)).epochOf (gone false).index ∧ (gone false).withdrawn = false) ∧
    ((yielded (gone false)).sch.tasks.all (fun j =>
        !(decide (j.index = (gone false).index) && decide (j.bseq = (gone false).bseq) && decide (j.phase = .committed))) = true ∧
      (yielded (gone false)).sample < (yielded (gone false)).deadlineSample (gone false) ∧ (gone false).kind ≠ .bus ∧
      (gone false).slot < 1088 ∧ (gone false).home = homeAddr (gone false).slot ∧ (gone false).out = outBuffer (gone false).slot ∧
      (gone false).index = (gone false).slot ∧ (yielded (gone false)).rendered ≤ 128) :=
  ⟨by decide +kernel, by unfold State.conQuiet; decide +kernel, by decide +kernel, by decide +kernel, by decide +kernel⟩

/-- Core 3 runs task 9 and has used `n` of its 500 cycles. -/
def runs (n : Nat) : State := (siding [aTask 9 7 (.dispatched 3)]).updCore 3 (fun c => { c with task := some 9, tcyc := n })

theorem witness_AbortsAndDeadlines :
    (((runs 500).core 3).task = some 9 ∧ (runs 500).taskOf 9 = some (aTask 9 7 (.dispatched 3)) ∧ ((runs 500).core 3).aborted = none ∧
      taskAborted (some (aTask 9 7 (.dispatched 3))) = false ∧ ((runs 500).core 3).svc = 2 ∧
      (runs 500).bit (Reg.PAGE_ERR_INJ Page.sch) 30 = false) ∧
    (((runs 500).core 3).tcyc ≤ 500 ∧ 500 < ((runs 501).core 3).tcyc ∧ (aTask 9 7 (.dispatched 3)).kind ≠ .bus ∧
      (aTask 9 7 (.dispatched 3)).index < 1088) ∧
    ((playing 160).running = true ∧ (playing 160).offset = 0 ∧ (playing 160).clk.deadlineDone ≤ (playing 160).period ∧
      (playing 160).pool.slots.filter (fun e => decide (e.2.st ≠ .free)) = []) ∧
    (binding.offset = 0 ∧ binding.clk.deadlineDone ≤ binding.period ∧
      binding.pool.slots.filter (fun e => decide (e.2.st ≠ .free)) = [(7, binding.slot 7)] ∧
      (binding.slot 7).owes (binding.period + 1) = true ∧ (binding.slot 7).muted = none ∧ (binding.slot 7).st = .active ∧
      binding.clk.startPeriod + 2 ≤ binding.period + 1 ∧ binding.period ≤ binding.clk.boundaryDone ∧ binding.sch.tasks = []) ∧
    (let s := { binding with clk := { binding.clk with mt := BitVec.ofNat 64 (256 * 163) } }
     s.running = true ∧ s.offset = s.blk / 5 ∧ s.clk.busDeadlineDone ≤ s.period ∧ s.clk.startPeriod + 2 ≤ s.period + 1 ∧
      s.period < s.clk.boundaryDone ∧
      (List.range 64).filter (fun k => decide (Sparse.get (fun _ => 0) s.sch.busEnabled k = 1)) = [63]) ∧
    (let s := playing 163
     s.offset = s.blk / 5 ∧ s.clk.busDeadlineDone ≤ s.period ∧
      (List.range 64).filter (fun k => decide (Sparse.get (fun _ => 0) s.sch.busEnabled k = 1)) = []) ∧
    ({ binding with clk := { binding.clk with mt := BitVec.ofNat 64 (256 * 163) } } : State).conQuiet ∧ binding.conQuiet :=
  ⟨by decide +kernel, by decide +kernel, by decide +kernel, by decide +kernel, by decide +kernel, by decide +kernel,
    by unfold State.conQuiet; decide +kernel, by unfold State.conQuiet; decide +kernel⟩

/-- As `binding`, with a program set of its own for core 5. -/
def shunting : State := binding.setFld Reg.SCH_PSET0 20 4 1

theorem witness_SchedulerWrites :
    (ready.writable Reg.SCH_EXP_CYCLES = true ∧ ready.reservationFits (fieldOf (ready.stored Reg.SCH_EXP_CYCLES 0) 0 24) (ready.fld Reg.SCH_EXP_CFG 0 24) = true ∧
      ready.reservationFits (fieldOf (ready.stored Reg.SCH_EXP_CYCLES 0xFFFFFF) 0 24) (ready.fld Reg.SCH_EXP_CFG 0 24) = false) ∧
    (ready.writable Reg.SCH_EXP_CFG = true ∧ ready.reservationFits (ready.fld Reg.SCH_EXP_CYCLES 0 24) (fieldOf (ready.stored Reg.SCH_EXP_CFG 0) 0 24) = true ∧
      (binding.setReg Reg.SCH_EXP_CYCLES 0xFFFFFF).reservationFits 0xFFFFFF (fieldOf (ready.stored Reg.SCH_EXP_CFG 0x4000) 0 24) = false) ∧
    (ready.writable (Reg.VA_PART_QUOTA 63) = true ∧ fieldOf (ready.stored (Reg.VA_PART_QUOTA 63) 0x04000400) 0 11 = 1024 ∧
      fieldOf (ready.stored (Reg.VA_PART_QUOTA 63) 0x04000400) 16 11 +
        (((List.range 64).filter (fun q => decide (q ≠ 63))).map (fun q => ready.fld (Reg.VA_PART_QUOTA q) 16 11)).sum = 1024 ∧
      1024 < fieldOf (ready.stored (Reg.VA_PART_QUOTA 63) 0x401) 0 11) ∧
    (ready.writable Reg.SCH_CTRL = true ∧ fieldOf (0x10000 : Word) 16 1 = 1) ∧
    (ready.writable Reg.SCH_SHUNT = true ∧ fieldOf (0x80050440 : Word) 31 1 = 1 ∧ 1088 ≤ fieldOf (ready.stored Reg.SCH_SHUNT 0x80050440) 0 11) ∧
    (shunting.writable Reg.SCH_SHUNT = true ∧ fieldOf (shunting.stored Reg.SCH_SHUNT 0x80030007) 0 11 = 7 ∧
      fieldOf (shunting.stored Reg.SCH_SHUNT 0x80030007) 16 6 = 3 ∧ (shunting.slot 7).st ≠ .free ∧
      shunting.sharedPset (shunting.indexPset 7) = false ∧ 3 ∈ shunting.coresOf (shunting.indexPset 7) ∧
      shunting.bit Reg.SCH_SHUNT_STAT 31 = false) := by decide +kernel

theorem witness_AllocationSteps :
    ready.running = false ∧ (let s := { playing 160 with clk := { (playing 160).clk with deadlineDone := 11 } }
      s.running = true ∧ s.run = true ∧ s.offset = 0 ∧ s.clk.boundaryDone ≤ s.period ∧ s.period < s.clk.deadlineDone) ∧
    (let s := { playing 172 with clk := { (playing 172).clk with boundaryDone := 11 } }
     s.running = true ∧ s.run = true ∧ s.offset = s.expCut ∧ s.clk.expressDone ≤ s.period ∧ s.period < s.clk.boundaryDone ∧ s.ing.tt = []) := by
  decide +kernel

/-! ### Witnesses: DACs, decimation and capture -/

/-- Channel 7 as `f` makes it, with everything that it needs to run. -/
def channel (f : DacChan → DacChan) : State :=
  let s := ((ready.setBit (Reg.DAC_CH_CFG 7) 0 true).setBit Reg.CLK_MEDIA_STAT 7 true).setBit Reg.PWR_STAT 1 true
  s.setDacCh 7 (f (s.dacCh 7))

/-- A switch sequence at position `n`. -/
def switching (n : Nat) : SwitchSeq := { pos := n, range := true, filt := false, byFilter := false, changed := false }

theorem witness_DacChannelEvents :
    (((channel (fun x => { x with starting := 8 })).dacCh 7).st = .clamp ∧ (channel (fun x => { x with starting := 8 })).dacMayRun 7 = true ∧
      1024 ≤ ((channel (fun x => { x with starting := 8 })).dacCh 7).starting * (channel (fun x => { x with starting := 8 })).modCycles) ∧
    (let s := channel (fun x => { x with st := .clear, ramp := some 64 })
     (s.dacCh 7).ramp = some 64 ∧ (s.dacCh 7).toClamp = false) ∧
    (let s := channel (fun x => { x with st := .clear, ramp := some 64, toClamp := true })
     (s.dacCh 7).toClamp = true ∧ s.bit (Reg.PAGE_STAT Page.dac) 1 = false) ∧
    (let s := channel (fun x => { x with st := .run, seq := some (switching 64) })
     (s.dacCh 7).seq = some (switching 64) ∧ 64 ≤ (switching 64).pos ∧ (switching 64).changed = false) ∧
    144 ≤ (switching 144).pos := by decide +kernel

theorem witness_DacWrites :
    (ready.writable (Reg.DAC_CH_CFG 7) = true ∧ ready.writable (Reg.DAC_CH_CLR 7) = true) ∧
    (fieldOf (0xFFFFFFFB : Word) 2 1 = ready.fld (Reg.DAC_CH_CFG 7) 2 1 ∧ (ready.dacCh 7).st = .clamp) ∧
    ((channel id).writable (Reg.DAC_CH_CFG 7) = true ∧ (channel id).dacMayRun 7 = true ∧ fieldOf (1 : Word) 0 1 = 1) ∧
    (let s := channel (fun x => { x with st := .run })
     s.writable (Reg.DAC_CH_CFG 7) = true ∧ (s.dacCh 7).st = .run ∧ (s.dacCh 7).seq = none ∧ (s.dacCh 7).toClamp = false ∧
      s.bit Reg.CLK_MEDIA_STAT 7 = true ∧ s.bit (Reg.DAC_CH_STAT 7) 9 = false ∧ s.bit (Reg.DAC_CH_STAT 7) 10 = false ∧
      s.bit Reg.PWR_STAT 1 = true) ∧
    (fieldOf (4 : Word) 2 1 ≠ ready.fld (Reg.DAC_CH_CFG 7) 2 1 ∧ fieldOf (4 : Word) 2 1 = 1 ∧ ready.bit Reg.DAC_STAT 2 = false ∧
      ((channel (fun x => { x with st := .run, seq := some (switching 0) })).dacCh 7).code = 3) ∧
    ((ready.setBit Reg.DAC_STAT 2 true).bit Reg.DAC_STAT 2 = true ∧ ((ready.setBit Reg.DAC_STAT 2 true).dacCh 7).code ≠ 3 ∧
      (ready.setBit Reg.DAC_STAT 2 true).writable (Reg.DAC_CH_CFG 7) = true) ∧
    (ready.writable (Reg.DAC_CH_TONE_CFG 7) = true ∧ ready.writable (Reg.DAC_CH_STAT 7) = true ∧ (∀ d, d < 8 → (ready.dacCh d).mirror = none) ∧
      fieldOf (0xFFFFFEFF : Word) 8 1 = 0) := by decide +kernel

theorem witness_DacClearsAndFaults :
    (let s := { ready with pwr := { ready.pwr with vioA := true } }
     s.bit Reg.DAC_STAT 1 = false ∧ s.pwr.vioA = true ∧ (s.setBit Reg.DAC_STAT 1 true).bit Reg.DAC_STAT 1 = true) ∧
    (ready.writable Reg.DAC_CTRL = true ∧ fieldOf (0x11 : Word) 0 1 = ready.fld Reg.DAC_CTRL 0 1 ∧ fieldOf (0x11 : Word) 4 1 = 1 ∧
      ready.bit Reg.DAC_CTRL 4 = false ∧ ¬ fieldOf (1 : Word) 4 1 = 1 ∧ (ready.setBit Reg.DAC_CTRL 4 true).bit Reg.DAC_CTRL 4 = true) ∧
    (fieldOf (0 : Word) 0 1 ≠ ready.fld Reg.DAC_CTRL 0 1 ∧ (ready.bit Reg.DAC_CTRL 4 = true ↔ fieldOf (0 : Word) 4 1 = 1) ∧
      (∀ c, c < 8 → (ready.dacCh c).code ≠ 3)) ∧
    (∃ c, c < 8 ∧ ((channel (fun x => { x with st := .run, seq := some (switching 0) })).dacCh c).code = 3) ∧
    ((channel (fun x => { x with action := true })).dacCh 7).action = true ∧
    (ready.fld (Reg.DAC_CH_CFG 7) 4 2 = 0 ∧ (ready.setFld (Reg.DAC_CH_CFG 7) 4 2 1).fld (Reg.DAC_CH_CFG 7) 4 2 = 1) ∧
    (let s := channel (fun x => { x with st := .run, action := true })
     (s.dacCh 7).st = .run ∧ (s.dacCh 7).toClamp = false) ∧
    (let s := ((channel (fun x => { x with st := .run, action := true })).setFld (Reg.DAC_CH_CFG 7) 4 2 2).setDacCh 6 { DacChan.reset with st := .run }
     s.fld (Reg.DAC_CH_CFG 7) 4 2 = 2 ∧ s.fld (Reg.DAC_CH_CFG 7) 8 3 = 6 ∧ s.mirrorMutes 7 6 = false) ∧
    (ready.monitor 7).phase ≠ 7 := by
  refine ⟨by decide +kernel, by decide +kernel, by decide +kernel, ⟨7, by decide +kernel⟩, ?_⟩
  decide +kernel

/-- Media time runs in period 10, and capture channel 127 takes channel 255 of port 3. -/
def capturing : State := (playing 160).setReg (Reg.DEC_CAP_SRC 127) 0x800003FF

theorem witness_DecimationAndCapture :
    (ready.writable Reg.DEC_COEF_DATA = true ∧ ready.setInUse 0 = true ∧ ready.setInUse 1 = false ∧
      (ready.setReg Reg.DEC_COEF_ADDR 0x100).fld Reg.DEC_COEF_ADDR 8 1 = 1 ∧ ready.fld Reg.DEC_COEF_ADDR 8 1 = 0) ∧
    (ready.writable Reg.DEC_TAPS = true ∧ fieldOf (0x003F : Word) 0 7 = ready.fld Reg.DEC_TAPS 0 7 ∧
      (fieldOf (0 : Word) 0 7 ≠ ready.fld Reg.DEC_TAPS 0 7 ∧ ready.setInUse 0 = true)) ∧
    (ready.writable Reg.DEC_CTRL = true ∧ ready.writable Reg.DEC_MON_CFG = true ∧ ready.writable (Reg.DEC_CAP_SRC 127) = true ∧
      fieldOf (0x40000000 : Word) 30 1 = 1 ∧ (ready.setReg Reg.CLK_MEDIA_CFG 0x16).rate2x = true ∧ ready.rate2x = false) ∧
    ready.running = false ∧
    (capturing.running = true ∧ fieldOf (capturing.reg (Reg.DEC_CAP_SRC 127)) 31 1 = 1 ∧ fieldOf (capturing.reg (Reg.DEC_CAP_SRC 127)) 8 2 = 3 ∧
      fieldOf (capturing.reg (Reg.DEC_CAP_SRC 127)) 0 8 = 255 ∧ fieldOf (capturing.reg (Reg.DEC_CAP_SRC 127)) 30 1 = 0 ∧
      (∀ j, j < 127 → fieldOf (capturing.reg (Reg.DEC_CAP_SRC j)) 31 1 = 0) ∧ capturing.period ≤ (144#56).toNat / capturing.blk + 1 ∧
      capturing.dec.capSeen = [] ∧ capturing.dec.stopCap = none) ∧ capturing.conQuiet :=
  ⟨by decide +kernel, by decide +kernel, by decide +kernel, by decide +kernel, by decide +kernel, by unfold State.conQuiet; decide +kernel⟩

/-- In period 10, with both deadlines passed and one contribution to bus 127. -/
def summing : State :=
  let m : MixTerm := { index := 3, bseq := 11, bus := false, sends := [⟨0, 127, 2 ^ 28, 5⟩], data := [[1, 2]], fade := none, conceal := none
                       resume := none }
  let s := playing 160
  { s with clk := { s.clk with deadlineDone := 11, busDeadlineDone := 11 }, mix := { s.mix with terms := [m] } }

theorem witness_SumsClose :
    summing.running = true ∧ (summing.clk.voiceSumDone ≠ summing.period + 1 ∧ summing.clk.deadlineDone = summing.period + 1) ∧
    (summing.clk.finalSumDone ≠ summing.period + 1 ∧ summing.clk.busDeadlineDone = summing.period + 1) ∧
    ((summing.setFld Reg.CLK_MEDIA_CFG 4 1 0).os = 1 ∧ summing.dec.stopBus = none ∧
      (summing.reg (Reg.DEC_DCB_EN0 + 4 * (127 / 32))).getLsbD (127 % 32) = false) := by decide +kernel

/-! ### Witnesses: memories -/

/-- The background test is due; then it has borrowed region (3, 127). -/
def resting : State := withReg [(Reg.CON_CTRL, 0x100), (Reg.CON_BT_POS, 0x1FF)] ((playing 160).setFld Reg.CON_STAT 0 2 0)
def borrowed : State := { resting with ctl := { resting.ctl with btBorrow := some (73, 127), btStart := 9 } }

theorem witness_ConcourseUpkeep :
    (let s := { ready with ctl := { ready.ctl with writeBack := [2 ^ 21 - 1] } }
     (2 ^ 21 - 1 : Nat) ∈ s.ctl.writeBack ∧ (0 : Nat) ∉ s.ctl.writeBack) ∧
    (ready.writable Reg.CON_CTRL = true ∧ fieldOf (1 : Word) 0 1 = 1 ∧ ready.fld Reg.CON_CTRL 0 1 = 0 ∧
      (playing 160).run = true ∧ (served 3 ready).inService ≠ [] ∧ ready.run = false ∧ ready.inService = []) ∧ ready.bootState = 6 ∧
    (ready.writable (Reg.CON_ATTR 63) = true ∧ fieldOf (0x30000000 : Word) (4 * 7) 2 = 3 ∧ ∀ e, e < 8 → fieldOf (0xEEEEEEEE : Word) (4 * e) 2 = 2) ∧
    (ready.running = false) ∧
    (resting.bit Reg.CON_CTRL 8 = true ∧ resting.conMode = 0 ∧ resting.pageOn Page.con = true ∧ resting.ctl.btBorrow = none ∧
      resting.running = true ∧ resting.offset = 0 ∧ resting.ctl.btWait ≤ resting.period ∧ resting.powerState = 0 ∧ resting.btPos < 9472 ∧
      resting.noBorrow (resting.btPos % 128) = false) ∧
    (borrowed.ctl.btBorrow = some (73, 127) ∧ borrowed.bit (Reg.PAGE_ERR_INJ Page.con) 30 = false ∧ borrowed.ctl.btStart < borrowed.period) := by
  decide +kernel

/-- Bank 73 is rebuilt in the place of bank 0, at row `n`. -/
def rebuilding (n : Nat) : State := { ready.setReg Reg.CON_RB_STAT (BitVec.ofNat 32 (2 ^ 31 + 2 ^ 24 * 73 + n)) with
  ctl := { ready.ctl with rbBank := 0 } }

theorem witness_BankRebuilds :
    ready.bit Reg.CON_RB_STAT 31 = false ∧
    ((rebuilding 32766).bit Reg.CON_RB_STAT 31 = true ∧ (rebuilding 32766).ctl.bad = [] ∧ (rebuilding 32766).ctl.badParity = [] ∧
      (rebuilding 32766).fld Reg.CON_RB_STAT 0 15 < 32767) ∧
    ((rebuilding 32767).bit Reg.CON_RB_STAT 31 = true ∧ (rebuilding 32767).fld Reg.CON_RB_STAT 0 15 = 32767 ∧
      (rebuilding 32767).fld Reg.CON_RB_STAT 24 7 = 73 ∧ (rebuilding 32767).ctl.rbBank < 74 ∧ 73 ≠ (rebuilding 32767).ctl.rbBank) ∧
    ((List.range 74).find? (fun b => decide ((ready.setFld (Reg.CON_BANK 73) 29 3 4).bankState b = 4)) = some 73 ∧
      (ready.setFld (Reg.CON_BANK 73) 29 3 4).bit (Reg.PAGE_ERR_INJ Page.con) 30 = false) := by decide +kernel

/-- The patrol is at its last line. -/
def lastLine : State := withReg [(Reg.DRC_CFG, 0x104), (Reg.DRC_SCRUB_STAT, 0x37FFFFF)] ready

/-- The last page is being retired. -/
def retiring : State := { ready with dram := { ready.dram with retiring := [(0xDFFFF, 0)] } }

theorem witness_SampleMemoryUpkeep :
    ((ready.setReg Reg.DRC_CFG 0).bit Reg.DRC_SCRUB_STAT 31 = false ∧ (ready.setReg Reg.DRC_CFG 0).bit Reg.DRC_CFG 8 = false ∧
      (ready.setFld Reg.PWR_STAT 8 3 2).powerState ≠ 0) ∧
    (lastLine.bit Reg.DRC_CFG 8 = true ∧ lastLine.pageOn Page.drc = true ∧ lastLine.powerState = 0 ∧ lastLine.bit Reg.DRC_SCRUB_STAT 31 = false ∧
      lastLine.dram.bad = [] ∧ lastLine.bit (Reg.PAGE_ERR_INJ Page.drc) 30 = false ∧ lastLine.fld Reg.DRC_SCRUB_STAT 0 26 + 1 = 0x3800000) ∧
    ((lastLine.setReg Reg.DRC_SCRUB_STAT 0x37FFFFE).fld Reg.DRC_SCRUB_STAT 0 26 + 1 < 0x3800000) ∧
    (ready.dram.retiring.any (fun e => decide (e.1 = 0)) = false) ∧
    (retiring.dram.retiring.find? (fun e => decide (e.1 = (0xDFFFF#20).toNat)) = some (0xDFFFF, 0) ∧ retiring.dram.bad = [] ∧
      retiring.bit (Reg.PAGE_ERR_INJ Page.drc) 30 = false ∧ retiring.bit Reg.SVC_STAT 31 = false) := by decide +kernel

/-! ### Witnesses: clocks, cores and host ports -/

/-- The CLK page with the source `src` and the PLL state `pll`, both external sources qualified. -/
def clocked (src pll : Nat) (nx : Option ClockSource) : State :=
  let s := (ready.setFld Reg.CLK_MEDIA_STAT 4 2 src).setFld Reg.CLK_MEDIA_STAT 1 3 pll
  { s with clk := { s.clk with gptpQualified := true, wclkQualified := true, nextSource := nx } }

theorem witness_ClockSources :
    (ready.qualified .gptp = false) ∧
    ((clocked 1 2 none).qualified .gptp = true ∧ (clocked 1 2 none).source = .wclk ∧ (clocked 1 2 none).pll = 2 ∧
      (clocked 1 2 none).qualified .wclk = true ∧ ClockSource.gptp ≠ .wclk) ∧
    (ready.pll ≠ 1 ∧ (clocked 0 1 none).pll = 1 ∧ (clocked 0 1 none).clk.famRelock = false ∧ (clocked 0 1 none).source ≠ .crystal ∧
      (clocked 0 1 none).bit Reg.CLK_MEDIA_STAT 8 = false ∧ (1 : Int).natAbs ≤ max 1 ((clocked 0 1 none).fld Reg.CLK_LOCK_THR 0 16)) ∧
    (ready.clk.nextSource = none ∧ (playing 161).running = true ∧ (playing 161).offset ≠ 0) ∧
    ((clocked 1 2 (some .gptp)).clk.nextSource = some .gptp ∧ (clocked 1 2 (some .gptp)).running = false ∧
      (-(2 ^ 31 - 1) : Int).natAbs ≤ 2 ^ 31 - 1) ∧ ((playing 160).running = true ∧ (playing 160).offset = 0) := by decide +kernel

theorem witness_MediaTime :
    (ready.writable Reg.CLK_MEDIA_CTRL = true ∧ ready.run = false ∧ fieldOf (2 : Word) 0 1 = 0 ∧ ready.running = false ∧ ready.source ≠ .gptp ∧
      (clocked 0 0 none).source = .gptp ∧ fieldOf (0 : Word) 1 1 = 0 ∧
      (let s := ready.setBit Reg.CLK_MEDIA_STAT 0 true
       s.running = true ∧ s.run = false)) ∧
    ((playing 160).run = true ∧ (playing 160).running = true ∧
      (let s := ready.setBit Reg.CLK_MEDIA_CTRL 0 true
       s.run = true ∧ s.running = false)) ∧
    (ready.writable Reg.CLK_MEDIA_CFG = true ∧ fieldOf (ready.stored Reg.CLK_MEDIA_CFG 2) 1 1 = 1 ∧
      fieldOf (ready.stored Reg.CLK_MEDIA_CFG 2) 2 2 = 0 ∧ (playing 160).run = true) ∧
    (ready.liveSlots = [] ∧ fieldOf (ready.stored Reg.CLK_MEDIA_CFG 0x14) 1 1 = 0 ∧
      fieldOf (ready.stored Reg.CLK_MEDIA_CFG 0x14) 0 1 = ready.fld Reg.CLK_MEDIA_CFG 0 1 ∧
      fieldOf (ready.stored Reg.CLK_MEDIA_CFG 0x15) 0 1 ≠ ready.fld Reg.CLK_MEDIA_CFG 0 1 ∧
      fieldOf (ready.stored Reg.CLK_MEDIA_CFG 0x16) 2 2 ≠ 0 ∧
      (let s := withReg ((List.range 4).map (fun p => (Reg.TDM_P_CFG p, 8))) ready
       s.writable Reg.CLK_MEDIA_CFG = true ∧ ∀ p, p < 4 → s.fld (Reg.TDM_P_CFG p) 2 2 ≠ 3)) ∧
    (State.reset.serving = false ∧ ready.serving = true) ∧
    (let s := (clocked 0 2 none).setBit Reg.CLK_MEDIA_CTRL 0 true
     s.run = true ∧ s.running = false ∧ 2 ≤ s.pll ∧ s.source = .gptp ∧
      ((1000000000#64).toNat * s.fs * 256 / 1000000000 + s.clk.epochOfs.toNat) % 2 ^ 64 ≤ 2 ^ 63) ∧
    (let s := (clocked 1 2 none).setBit Reg.CLK_MEDIA_CTRL 0 true
     s.run = true ∧ s.running = false ∧ 2 ≤ s.pll ∧ s.source ≠ .gptp) ∧
    (let s := { playing 160 with clk := { (playing 160).clk with stop := .draining, rerun := false } }
     s.clk.stop = .draining ∧ s.running = true ∧ s.offset = 0 ∧ s.clk.rerun = false ∧ ∀ q ∈ queueNumbers, s.queueFaded q = true) ∧
    ready.clk.stop ≠ .draining := by decide +kernel

/-- Core 33 with these events pending and EIE set. -/
def evented (l : List Nat) : State := cored 33 (fun c => { (c.setCr 0 2).setCr 1 0xFFFF with events := l })

/-- Core 33 is halted. -/
def halted : State := cored 33 (fun c => { c with halted := true })

theorem witness_CoreEventsAndPrograms :
    ((served 33 ready).core 33).takesEvent = false ∧
    (((evented [9]).core 33).svc = 2 ∧ ((evented [9]).core 33).halted = false ∧ ((evented [9]).core 33).held = false ∧
      ((evented [9]).core 33).takesEvent = true ∧ ((evented [9]).core 33).topEvent = some 9 ∧ ((evented [8, 9]).core 33).topEvent = some 8 ∧
      ((evented [8, 9]).core 33).takesEvent = true ∧ ((evented [9]).core 33).inflight = [] ∧ ((evented [9]).core 33).lc 0 = 0 ∧
      ((evented [9]).core 33).lc 1 = 0 ∧ (evented [9]).breakAt 33 ((((evented [9]).core 33).cr 4).toNat % 8192) = none) ∧
    (ready.writable (Reg.VC_DBELL 33) = true ∧ ready.writable (Reg.VC_CTRL 33) = true ∧ fieldOf (1 : Word) 0 1 = 1 ∧ fieldOf (1 : Word) 1 1 = 0 ∧
      fieldOf (0 : Word) 0 1 = 0 ∧ fieldOf (2 : Word) 1 1 = 1) ∧
    (halted.writable (Reg.VC_CTRL 33) = true ∧ (halted.core 33).halted = true ∧ (halted.core 33).svc = 2 ∧ (halted.core 33).topEvent = none ∧
      (decodeBundle (Sparse.get (fun _ => (0 : BitVec 64)) (halted.core 33).prog (halted.core 33).pc)).isSome = true) ∧
    (fieldOf (3 : Word) 0 1 = 1 ∧ fieldOf (3 : Word) 1 1 = 1 ∧ (ready.core 33).halted = false) ∧
    (ready.writable (Reg.VC_PM_DATA_HI 33) = true ∧ (served 33 ready).writable (Reg.VC_PM_DATA_HI 33) = true ∧
      ((served 33 ready).core 33).svc = 2 ∧ (served 33 ready).bit (Reg.VC_CTRL 33) 2 = false ∧ (ready.core 33).svc ≠ 2) ∧
    ((decodeBundle 0).any (fun b => (ready.core 33).legal (ready.core 33).pc b) = true ∧ ready.ready 33 = false) ∧
    ((served 33 ready).Calm 33 ∧
      (decodeBundle 0xFFFFFFFFFFFFFFFF).all (fun b => !((served 33 ready).core 33).legal ((served 33 ready).core 33).pc b) = true) :=
  ⟨by decide +kernel, by decide +kernel, by decide +kernel, by decide +kernel, by decide +kernel, by decide +kernel, by decide +kernel,
    calm_last, by decide +kernel⟩

/-- Core 3 runs task 9, as `f` makes it. -/
def at_work (f : Core → Core) : State := (runs 0).updCore 3 f

theorem witness_CoresLeaveAndEnter :
    (ready.core 3).svc ≠ 2 ∧ ((at_work id).core 3).svc = 2 ∧
    (((at_work id).core 3).halted = false ∧ ((at_work id).core 3).taking = none ∧ ((at_work id).core 3).memUe = none ∧
      ((at_work (fun c => { c with memUe := some 1024 })).core 3).memUe = some 1024 ∧ 1023 < 1024) ∧
    (let c := (at_work (fun c => { c with aborted := some 1024 })).core 3
     c.svc = 2 ∧ c.task.isSome = true ∧ c.aborted.isSome = true ∧ 1024 ≤ max (c.aborted.getD 0) (c.recalled.getD 0)) ∧
    (let s := at_work (fun c => { c with recalled := some 1023 })
     (s.core 3).recalled.isSome = true ∧ max ((s.core 3).aborted.getD 0) ((s.core 3).recalled.getD 0) < 1024 ∧
      s.bit (Reg.PAGE_ERR_INJ (Page.vc0 + 3)) 30 = false) ∧
    (let c := (at_work (fun c => { c with retire := true })).core 5
     c.retire = false) ∧
    (let s := (at_work (fun c => { c with retire := true })).setBit Reg.CLK_MEDIA_STAT 0 false
     (s.core 3).retire = true ∧ (s.core 3).svc = 2 ∧ (s.core 3).recalled = none ∧ s.running = false ∧ (s.core 3).task.isSome = true) ∧
    (let s := (served 3 ready).updCore 3 (fun c => { c with retire := true })
     (s.core 3).retire = true ∧ s.running = false ∧ (s.core 3).task = none) ∧
    ((ready.core 3).copyFrom = none ∧ ((at_work (fun c => { c with copyFrom := some 33 })).core 3).copyFrom = some 33 ∧
      ((at_work id).bit (Reg.PAGE_ERR_INJ (Page.vc0 + 5)) 30 = false)) ∧
    (((at_work id).core 3).task = some 9 ∧ (at_work id).taskOf 9 = some (aTask 9 7 (.dispatched 3)) ∧
      ∀ j ∈ (at_work id).sch.tasks, j.order ≠ (at_work id).sch.order) := by decide +kernel

/-- Words at multiples of four bytes: granule 0x100000 takes atomic operations. -/
def shared_ : State := { ready with ctl := { ready.ctl with attrs := [(2, 0x12)] } }

theorem witness_PcieAccesses :
    State.reset.serving = false ∧ ((ready.setFld Reg.PWR_STAT 8 3 2).serving = true ∧ (ready.setFld Reg.PWR_STAT 8 3 2).windowsShut = true) ∧
    (ready.serving = true ∧ ready.windowsShut = false ∧ ready.ctl.badParity = []) ∧ ready.conQuiet ∧ ready.dramQuiet ∧
    ((if ready.granule (0x1FFFFFF : BitVec 25).toNat % 4 = 1 then (0x1FFFFFF : BitVec 25).toNat else (0x1FFFFFF : BitVec 25).toNat / 4 * 4) + 4 ≤ 2 ^ 25) ∧
    ((0xDFFFFFFF : BitVec 32).toNat + max 1 1 ≤ 0xE0000000 ∧ ¬ (0xE0000000 : BitVec 32).toNat + max 1 0 ≤ 0xE0000000) ∧
    (ready.granule 0x100000 % 4 ≠ 2 ∧ ∃ a : Nat, a % 4 = 0 ∧ shared_.granule a % 4 = 2) ∧ AtomicKind.swap ≠ .compareSwap := by
  refine ⟨by decide +kernel, by decide +kernel, by decide +kernel, by unfold State.conQuiet; decide +kernel,
    by unfold State.dramQuiet; decide +kernel, by decide +kernel, by decide +kernel, ⟨by decide +kernel, 0x10FFFC, by decide +kernel⟩, by decide +kernel⟩

/-- A DMA descriptor. -/
def descriptor (src dst len op ssp dsp : Nat) : List Byte :=
  leBytes 8 src ++ leBytes 8 dst ++ leBytes 4 len ++ leBytes 1 (op + 16 * ssp + 64 * dsp) ++ leBytes 11 0

/-- The DMA engine is at its first descriptor. -/
def dma (s : State) : State := withReg [(Reg.PCI_DMA_CFG, 0x104), (Reg.PCI_DMA_PI, 1), (Reg.PCI_DMA_BASE_LO, 0x4000)] s

theorem witness_DmaDescriptors :
    (ready.writable Reg.PCI_DMA_PI = true ∧ ready.dmaReady = false ∧ (dma ready).dmaReady = true) ∧
    ((dmaDesc (descriptor 4 0x2004 44 0 1 3)).valid = false) ∧
    ((dma ready).windowsShut = false ∧ (dma ready).pageOn Page.pci = true ∧ (dma ready).ctl.badParity = []) ∧ (dma ready).conQuiet ∧ (dma ready).dramQuiet ∧
    (let d := dmaDesc (descriptor 0x1000 0x1FFFFF0 16 0 2 1)
     d.valid = true ∧ d.op = 0 ∧ d.ssp = 2 ∧ d.dsp = 1 ∧ d.dst + d.len ≤ 2 ^ 25 ∧ d.src + d.len ≤ 0xE0000000) ∧
    (let d := dmaDesc (descriptor 5 0xDFFFFFF0 16 1 0 2)
     d.valid = true ∧ d.op = 1 ∧ d.dsp = 2 ∧ d.dst + d.len ≤ 0xE0000000) ∧
    (let d := dmaDesc (descriptor 0x100000 0x88880000 16 0 1 0)
     d.valid = true ∧ d.ssp = 1 ∧ d.dsp = 0 ∧ d.dst + d.len ≤ 2 ^ 64 ∧ (dma ready).dmaEntry + 32 ≤ d.dst ∧ d.src + d.len ≤ 2 ^ 25) ∧
    (let d := dmaDesc (descriptor 7 0x100000 4 2 0 1)
     d.valid = true ∧ d.op = 2 ∧ d.dst + 4 ≤ 2 ^ 25 ∧ (dma ready).granule d.dst % 4 ≠ 2) ∧
    (let d := dmaDesc (descriptor 7 0x10FFFC 4 3 0 1)
     d.valid = true ∧ d.op = 3 ∧ d.dst + 4 ≤ 2 ^ 25 ∧ (dma shared_).granule d.dst % 4 = 2 ∧ (dma shared_).windowsShut = false) := by
  refine ⟨by decide +kernel, by decide +kernel, by decide +kernel, by unfold State.conQuiet; decide +kernel, by unfold State.dramQuiet; decide +kernel, ?_⟩
  decide +kernel

/-- The host SPI port answers; busy, or with these words to return. -/
def spiPort (busy : Bool) (l : List Word) : State :=
  { ready with pwr := { ready.pwr with vioA := true }, net := { ready.net with spi := { ready.net.spi with busy := busy, words := l } } }

theorem witness_SpiTransactions :
    State.reset.serving = false ∧ ({ ready with pwr := { ready.pwr with vioA := false } } : State).pwr.vioA = false ∧
    ((spiPort true []).serving = true ∧ (spiPort true []).pwr.vioA = true ∧ (spiPort true []).hbusy = true) ∧
    ((spiPort false []).serving = true ∧ (spiPort false []).pwr.vioA = true ∧ (spiPort false []).hbusy = false ∧
      (spiPort false []).bit (Reg.PAGE_ERR_INJ Page.hsp) 30 = false ∧ (spiPort false []).pageOn Page.hsp = true) ∧
    ((22#16).toNat = 14 + 8 * [(7 : Word)].length ∧ (526#16).toNat = 14 + 8 * (List.replicate 64 (7 : Word)).length) ∧
    ((12#16).toNat = 12 + 8 * (spiPort false []).net.spi.words.length ∧ (20#16).toNat = 12 + 8 * (spiPort false [7]).net.spi.words.length) ∧
    ((List.replicate 32 (0 : Byte)).length = 32 ∧ (withReg [(Reg.PAGE_CTRL Page.hsp, 0)] (spiPort false [])).pageOn Page.hsp = false) ∧
    (0x00 : Byte).toNat ∉ [0x02, 0x05, 0x0B, 0x0C, 0x10] ∧
    0x2010 + 4 * 15 ∉ [Reg.CLK_MT_LO, Reg.CLK_MT_HI, Reg.PMU_CNT_LO, Reg.PMU_CNT_HI, Reg.PTP_TIME_LO, Reg.PTP_TIME_HI] := by decide +kernel

/-! ### Witnesses: network -/

/-- Port NETA is up, with these roles. -/
def linked (roles : Nat) : State := withReg [(Reg.NET_STAT 0, 1), (Reg.PTP_STAT, BitVec.ofNat 32 roles), (Reg.NET_CFG 0, 0x2340100)] ready

/-- A frame of 60 bytes and `n` more, with a VLAN tag for `t` not 0: a gPTP message. -/
def frame (t n : Nat) : List Byte :=
  (leBytes 6 0x0180C200000E).reverse ++ List.replicate 6 1 ++ (if t = 0 then [] else [0x81, 0] ++ (leBytes 2 t).reverse) ++
    (leBytes 2 0x88F7).reverse ++ List.replicate (46 + n) 7

theorem witness_NetworkPorts :
    (ready.bit (Reg.NET_STAT 1) 0 = false ∧ (linked 0).bit (Reg.NET_STAT 0) 0 = true ∧ (linked 0).ptpRole 0 < 2) ∧
    ((linked 2).ptpRole 0 = 2 ∧ (linked 3).ptpRole 0 = 3 ∧ (linked 1).ptpRole 0 < 2) ∧
    (let s := { (linked 14).setReg Reg.PTP_CFG 1 with net := { ready.net with standby := true } }
     s.ptpRole 0 = 2 ∧ s.bit Reg.PTP_CFG 0 = true ∧ s.net.standby = true ∧ s.ptpRole 1 = 3 ∧ s.pageOn Page.ptp = true) ∧
    ((linked 2).net.standby = false ∧ ready.portUp 1 = false ∧ (linked 0).portUp 0 = true ∧ (linked 0).svc.suppressed ≠ some 0 ∧
      ({ linked 0 with svc := { ready.svc with suppressed := some 0 } } : State).svc.suppressed = some 0) ∧
    ((frame 0 0).length = 60 ∧ (frame 0 1458).length = 1518 ∧ 1518 < (frame 0 1459).length ∧ (List.replicate 59 (0 : Byte)).length < 60 ∧
      (linked 0).bit (Reg.PAGE_ERR_INJ Page.neta) 30 = false ∧ (ready.setReg Reg.PWR_WAKE_CFG 1).bit Reg.PWR_WAKE_CFG 2 = false) ∧
    ((((ethFrame (frame 5 0)).tag.map (fun t => bitsOf t 0 12)).getD 0) = 5 ∧ 5 ≠ (linked 0).fld (Reg.NET_CFG 0) 16 12 ∧
      (let s := (linked 0).setReg (Reg.NET_HRX_CFG 0) 0x104
       s.bit (Reg.NET_HRX_CFG 0) 8 = true ∧ (s.fld (Reg.NET_HRX_PI 0) 0 16 + 2 ^ 16 - s.fld (Reg.NET_HRX_CI 0) 0 16) % 2 ^ 16 < 2 ^ max 4 (min 12 4)) ∧
      (linked 0).bit (Reg.NET_HRX_CFG 0) 8 = false) ∧
    ((((ethFrame (frame 0 0)).tag.map (fun t => bitsOf t 0 12)).getD 0) = 0 ∧ (ethFrame (frame 0 0)).dst = 0x0180C200000E ∧
      (ethFrame (frame 0 0)).etherType = 0x88F7 ∧ (linked 0).pageOn Page.ptp = true) ∧
    (ready.writable (Reg.NET_HTX_PI 1) = true ∧ ready.bit (Reg.NET_HTX_CFG 0) 8 = false ∧
      (let s := withReg [(Reg.NET_HTX_CFG 0, 0x104), (Reg.NET_HTX_PI 0, 1)] (linked 0)
       s.bit (Reg.NET_HTX_CFG 0) 8 = true ∧ s.fld (Reg.NET_HTX_PI 0) 0 16 ≠ s.fld (Reg.NET_HTX_CI 0) 0 16 ∧ s.portUp 0 = true)) := by
  decide +kernel

/-- Stream 31 awaits packet 5, for sample 100; media time is at `n`. -/
def receiving (n : Nat) (ps : List RxPacket) : State :=
  ((playing n).setReg (Reg.STRM_RX_CFG 31) 0x80000008).setRx 31 { highest := some 5, packets := ps, next := some (5, 100) }

/-- Stream 31 has a packet ready for sample 100. -/
def sending (n : Nat) : State :=
  (withReg [(Reg.STRM_TX_CFG 31, 0x80000008), (Reg.NET_STAT 1, 1)] (playing n)).setTx 31 { start := none, samples := [], ready := [(100, [])], seq := 300 }

theorem witness_StreamsAndSessions :
    ((0x5FF : Fin 0x600).val < 0x600 ∧ ready.writable (0x18100 + 0x5F0) = true ∧ ¬ (0x5F0 : Nat) % 32 = 0 ∧
      (0x5F0 - 0x200) / 32 = 31 ∧ (sending 0).bit (Reg.STRM_TX_CFG 31) 31 = true ∧ (sending 0).stored (0x18100 + 0x5F0) 1 ≠ (sending 0).reg (0x18100 + 0x5F0) ∧
      ready.bit (Reg.STRM_TX_CFG 31) 31 = false) ∧
    ((0x5E0 : Nat) % 32 = 0 ∧ 0x18100 + 0x5E0 = Reg.STRM_TX_CFG 31 ∧ (sending 0).bit (Reg.STRM_TX_CFG 31) 31 = true ∧
      setFieldOf ((sending 0).stored (Reg.STRM_TX_CFG 31) 0x80000010) 31 1 0 ≠ setFieldOf ((sending 0).reg (Reg.STRM_TX_CFG 31)) 31 1 0 ∧
      ready.txFits 31 (ready.stored (Reg.STRM_TX_CFG 31) 0x800000FF) = false ∧
      ready.txFits 31 (ready.stored (Reg.STRM_TX_CFG 31) 0x80000008) = true ∧ fieldOf (ready.stored (Reg.STRM_TX_CFG 31) 0x800000FF) 31 1 = 1) ∧
    ((0x1F0 : Nat) % 16 = 0 ∧ 0x18100 + 0x1F0 = Reg.STRM_RX_CFG 31 ∧ ready.rxFits 31 (ready.stored (Reg.STRM_RX_CFG 31) 0x80000008) = true ∧
      ready.bit (Reg.STRM_RX_CFG 31) 31 = false) ∧
    ((ready.rx 31).next = none ∧ ((receiving 131 []).rx 31).next = some (5, 100) ∧ (receiving 131 []).running = true ∧
      ¬ (receiving 127 []).packetDeadline 100 ≤ (receiving 127 []).sample ∧ (receiving 128 []).packetDeadline 100 ≤ (receiving 128 []).sample ∧
      (receiving 128 []).bit (Reg.PAGE_ERR_INJ Page.strm) 30 = false) ∧
    ((receiving 128 [⟨5, 100, 1⟩]).rx 31).packets.find? (fun p => decide (p.seq = 5)) = some ⟨5, 100, 1⟩ ∧
    (let s := (receiving 128 [⟨5, 100, 1⟩]).setReg (Reg.STRM_RX_CFG 30) 0xCFC00008
     s.bit (Reg.STRM_RX_CFG 30) 31 = true ∧ s.bit (Reg.STRM_RX_CFG 30) 30 = true ∧ s.fld (Reg.STRM_RX_CFG 30) 22 5 = 31) ∧
    ((ready.tx 31).ready = [] ∧ ((sending 84).tx 31).ready = [(100, [])] ∧ ¬ (100 + 2 * fieldOf ((sending 83).reg (Reg.STRM_TX_CFG 31)) 0 8 ≤ (sending 83).sample) ∧
      (sending 83).portUp 1 = true ∧ 100 + 2 * fieldOf ((sending 116).reg (Reg.STRM_TX_CFG 31)) 0 8 ≤ (sending 116).sample) ∧
    (ready.writable (Reg.NMID_SESS_CFG 31) = true ∧ fieldOf (0x40000000 : Word) 30 1 = 1 ∧ ready.bit (Reg.NMID_SESS_CFG 15) 31 = false ∧
      (∀ j, j < 32 → ready.bit (Reg.NMID_SESS_CFG j) 31 = false) ∧
      (ready.setReg (Reg.NMID_SESS_CFG 31) 0x80000000).bit (Reg.NMID_SESS_CFG 31) 31 = true) ∧
    (ready.writable (Reg.NMID_SESS_PORT 31) = true ∧ ready.writable (Reg.NMID_SESS_ADDR 31) = true) := by decide +kernel

/-- TDM port 3 with its configuration word, locked or not, at output sample 100. -/
def tdm (cfg : Word) (locked : Bool) (n : Nat) : State :=
  let s := ((playing 100).setReg (Reg.TDM_P_CFG 3) cfg).setBit (Reg.TDM_P_STAT 3) 0 locked
  { s.setTdmPort 3 { on := true, frames := n, phase := 3, last := some 98, recent := [] } with pwr := { s.pwr with vioB := true } }

theorem witness_TdmPorts :
    (ready.tdmPort 3).on = false ∧
    (let s := tdm 3 false 0
     (s.tdmPort 3).on = true ∧ s.running = true ∧ s.sample ≠ 0 ∧ s.pwr.vioB = true ∧ s.tdmMaster 3 = true ∧
      ∀ k, k < 128 → s.bit (Reg.DEC_CAP_SRC k) 31 = false) ∧
    ((tdm 1 false 0).tdmMaster 3 = false ∧ (tdm 1 false 0).bit (Reg.TDM_P_STAT 3) 0 = false) ∧
    (let s := tdm 1 true 0
     s.tdmMaster 3 = false ∧ s.bit (Reg.TDM_P_STAT 3) 0 = true ∧ ((25472#64).toNat + 128 - (s.tdmPort 3).phase) / 256 < s.sample ∧
      s.bit (Reg.PAGE_ERR_INJ Page.tdm) 30 = false ∧ 98 ∈ (s.tdmPort 3).last ∧ ((25472#64).toNat + 128 - (s.tdmPort 3).phase) / 256 = 98 + 1 ∧
      ((25218#64).toNat + 128 - (s.tdmPort 3).phase) / 256 ≠ 98 + 1) ∧ (tdm 1 true 0).conQuiet ∧
    (((tdm 1 false 16).tdmPort 3).on = true ∧ (tdm 1 false 16).tdmMaster 3 = false ∧ 16 ≤ ((tdm 1 false 16).tdmPort 3).frames ∧
      (tdm 1 false 16).bit (Reg.TDM_P_STAT 3) 0 = false ∧ ¬ 16 ≤ ((tdm 1 false 15).tdmPort 3).frames) ∧
    (ready.writable (Reg.TDM_P_CFG 3) = true ∧ (ready.setReg Reg.CLK_MEDIA_CFG 0x16).rate2x = true ∧ fieldOf (ready.stored (Reg.TDM_P_CFG 3) 0xC) 2 2 = 3 ∧
      (tdm 1 true 0).fld (Reg.TDM_P_CFG 3) 0 1 = 1 ∧
      fieldOf ((tdm 1 true 0).stored (Reg.TDM_P_CFG 3) 3) 1 31 ≠ (tdm 1 true 0).fld (Reg.TDM_P_CFG 3) 1 31 ∧ ready.rate2x = false ∧
      ready.fld (Reg.TDM_P_CFG 3) 0 1 = 0) :=
  ⟨by decide +kernel, by decide +kernel, by decide +kernel, by decide +kernel, by unfold State.conQuiet; decide +kernel, by decide +kernel,
    by decide +kernel⟩

/-! ### Witnesses: pages, power, boot and service -/

/-- Page `p` with EN, and with DRAINING. -/
def paged (p : Nat) (en draining : Bool) : State := (ready.setBit (Reg.PAGE_CTRL p) 0 en).setBit (Reg.PAGE_STAT p) 1 draining

theorem witness_PageControls :
    (ready.writable (Reg.PAGE_CTRL (65 : Fin 66)) = true ∧ ready.writable (Reg.PAGE_CTRL (1 : Fin 66)) = true ∧ fieldOf (0xFFFFFFF9 : Word) 1 2 = 0 ∧
      (65 : Fin 66).val ≠ Page.glb ∧ ready.pageOn (65 : Fin 66) = true ∧ (ready.core 33).svc ≠ 2 ∧ ((served 33 ready).core 33).svc = 2 ∧
      (served 33 ready).writable (Reg.PAGE_CTRL (65 : Fin 66)) = true) ∧
    ((paged 65 false false).pageOn 65 = false ∧ (paged 65 false true).pageOn 65 = false ∧ (paged 65 false true).bit (Reg.PAGE_STAT 65) 1 = true ∧
      (paged 65 false false).bit (Reg.PAGE_STAT 65) 1 = false) ∧
    (Page.clk ∈ [Page.clk, Page.pwr] ∧ Page.clk ≠ Page.irq ∧ Page.clk ≠ Page.sch) ∧
    (fieldOf (3 : Word) 2 1 = 0 ∧ fieldOf (3 : Word) 0 1 = 1 ∧ fieldOf (5 : Word) 1 1 = 0 ∧ fieldOf (5 : Word) 0 1 = 1) ∧
    (ready.bit (Reg.PAGE_STAT 65) 1 = false ∧ (paged Page.clk false true).pageDone Page.clk = true ∧
      ((paged Page.clk false true).setBit Reg.CLK_MEDIA_STAT 0 true).pageDone Page.clk = false) ∧
    (Page.clk ∉ (paged Page.clk false true).deferred ∧ Page.clk ∈ ({ paged Page.clk false true with deferred := [Page.clk] } : State).deferred) := by
  decide +kernel

/-- Errors may be injected. -/
def injecting : State := withReg [(Reg.ERR_CTRL, 1), (Reg.PAGE_CTRL Page.err, 1)] ready

theorem witness_RegisterAccesses :
    (ready.writable (Reg.PAGE_ERR_INJ (65 : Fin 66)) = true ∧ ready.bit Reg.ERR_CTRL 0 = false) ∧
    (let go := injecting.stored (Reg.PAGE_ERR_INJ (65 : Fin 66)) (setFieldOf 0x00FF0003 31 1 1)
     injecting.bit Reg.ERR_CTRL 0 = true ∧ injecting.pageOn Page.err = true ∧ fieldOf go 0 8 < detectorsOf 65 ∧
      injecting.bit (Reg.PAGE_ERR_INJ (65 : Fin 66)) 30 = false ∧
      detectorsOf 65 ≤ fieldOf (injecting.stored (Reg.PAGE_ERR_INJ (65 : Fin 66)) (setFieldOf 4 31 1 1)) 0 8 ∧
      65 ∉ [Page.clk, Page.pwr, Page.irq, Page.err, Page.dac, Page.neta, Page.neta + 1, Page.pci]) ∧
    (ready.writable Reg.GLB_FENCE = true ∧ 40 < fieldOf (41 : Word) 0 6 ∧ fieldOf (40 : Word) 0 6 ≤ 40 ∧
      256 ≤ (fenced [] (List.replicate 256 aFence) [] 0).ing.fences.length ∧ (fenced [] (List.replicate 255 aFence) [] 0).ing.fences.length < 256) ∧
    (State.reset.serving = false ∧ ready.serving = true ∧ 4 * (1023 : Fin 1024).val ≠ 8 ∧ (14 : BitVec 4) ≠ 15) ∧
    ((BitVec.ofNat 20 Reg.PCI_DMA_BASE_LO).toNat = Reg.PCI_DMA_BASE_LO ∧ ready.writable Reg.PCI_DMA_BASE_LO = true ∧
      ready.writable Reg.CLK_LOCK_THR = true ∧ rowOf (0xFFFFC#20).toNat = none) ∧
    ((BitVec.ofNat 20 Reg.ING_NTF_CFG).toNat = Reg.ING_NTF_CFG ∧ ready.writable Reg.ING_NTF_CFG = true ∧ fieldOf (0x100 : Word) 8 1 = 1) := by
  decide +kernel

/-- Every PLL is locked. -/
def locked_ : State := withReg [(Reg.CLK_PLL_STAT, 0x7F), (Reg.PWR_RAIL_STAT, 0x2FF)] ready

theorem witness_ClocksAndRestarts :
    (∀ p, p < 7 → locked_.bit Reg.CLK_PLL_STAT p = true ∧ (locked_.setReg Reg.CLK_PLL_STAT 0).bit Reg.CLK_PLL_STAT p = false) ∧
    (ready.pwr.held = false ∧ ready.pwr.thermalOff = false ∧ ({ ready with pwr := { ready.pwr with held := true } } : State).pwr.held = true) ∧
    (ready.writable Reg.PWR_CTRL = true ∧ fieldOf (0x52530000 : Word) 16 16 = 0x5253 ∧ fieldOf (0x52520000 : Word) 16 16 ≠ 0x5253 ∧
      fieldOf (0x52520000 : Word) 0 1 = 0) ∧
    ((spiPort true []).pwr.vioA = true ∧ (spiPort true []).serving = true ∧ (some ((2 : BitVec 8), 5)).isSome = true) ∧
    (((tdm 1 true 7).tdmPort 3).on = true ∧ (tdm 1 true 7).tdmMaster 3 = false) := by decide +kernel

theorem witness_StandbyAndSupervision :
    (({ ready with pwr := { ready.pwr with held := true } } : State).pwr.held = true) ∧
    (({ ready with pwr := { ready.pwr with thermalOff := true } } : State).pwr.thermalOff = true ∧ (BitVec.ofInt 12 (4 * 95 - 1)).toInt < 4 * 95 ∧
      4 * 95 ≤ (BitVec.ofInt 12 (4 * 95)).toInt) ∧
    (ready.pwr.held = false ∧ ready.pwr.thermalOff = false ∧ (BitVec.ofInt 12 399).toInt < ready.warnAt ∧ ready.warnAt ≤ (BitVec.ofInt 12 400).toInt ∧
      ready.pwr.warned = false ∧ (BitVec.ofInt 12 440).toInt = 4 * 110 ∧ ready.pwr.critical = false ∧ (BitVec.ofInt 12 480).toInt = 4 * 120) ∧
    (ready.powerState ≠ 2 ∧ ready.svcBusy = false ∧ (ready.setFld Reg.PWR_STAT 8 3 2).powerState = 2 ∧ ready.bit Reg.PWR_WAKE_CFG 0 = true ∧
      ready.bit Reg.PWR_WAKE_CFG 1 = false ∧ (spiPort false []).pwr.vioA = true) ∧
    (ready.writable Reg.PWR_CTRL = true ∧ (ready.setFld Reg.PWR_STAT 8 3 2).writable Reg.PWR_CTRL = true ∧ fieldOf (1 : Word) 1 1 = 0) ∧
    ((ready.setFld Reg.PWR_STAT 8 3 1).powerState = 1 ∧ ready.running = false ∧ ready.dacClamped = true) ∧
    ((ready.setFld Reg.PWR_STAT 8 3 3).powerState = 3 ∧ ready.powerState ≠ 3) ∧
    (ready.fld Reg.IRQ_HB_CFG 0 16 = 0 ∧ (ready.setReg Reg.IRQ_HB_CFG 0x2FFFF).fld Reg.IRQ_HB_CFG 0 16 ≠ 0 ∧ ready.serving = true ∧
      ready.writable Reg.IRQ_HB_KICK = true ∧ ready.pwr.hbClear = false) := by decide +kernel

/-- An image of 80 bytes whose one record writes 1 to PTP_CFG, and the same with its CRC taken as 0. -/
def imageOf (crc : List Byte) : List Byte :=
  [0x43, 0x58, 0x49, 0x4D, 1, 0, 0, 0, 80, 0, 0, 0, 77, 0, 0, 0, 1, 0, 0, 0] ++ crc ++ List.replicate 40 0 ++
    [1, 0, 0, 0, 8, 0, 0, 0, 0x40, 0x70, 1, 0, 1, 0, 0, 0]
def image : List Byte := imageOf [0x65, 0x0B, 0xA8, 0x29]

theorem crc_image : crc32 (imageOf [0, 0, 0, 0]) = 0x29A80B65#32 := by simp [crc32, imageOf, crcByte, crcBit, List.replicate]

theorem image_good (s : State) (h : s.pwr.fuse = []) : s.imageError image 0x100000 = 0 := by
  have h1 : zero4 (zero4 (image.take 80) 20) 60 = imageOf [0, 0, 0, 0] := by decide +kernel
  have h2 : leAt image 8 4 = 80 := by decide +kernel
  have h3 : imageLength image = 80 := by decide +kernel
  have h4 : imageItems image = some [(1, leBytes 4 Reg.PTP_CFG ++ leBytes 4 1)] := by decide +kernel
  unfold State.imageError
  simp only [h2]
  rw [h1, h3, h4, crc_image, h]
  decide +kernel

/-- The boot sequencer is in a state. -/
def booting (n : Nat) : State := State.reset.setFld Reg.BOOT_STAT 24 4 n

theorem witness_BootSequence :
    (ready.bootState ≠ 0 ∧ (booting 0).bootState = 0 ∧ (booting 0).pwr.held = false ∧ (booting 0).pwr.thermalOff = false) ∧
    ((booting 4).bootState = 4 ∧ (booting 4).writable Reg.BOOT_CTRL = true ∧ (booting 5).writable Reg.BOOT_CTRL = true ∧ 5 ≤ (booting 5).bootState ∧
      (booting 4).pageOn Page.boot = true ∧ (booting 3).bootState ≠ 4 ∧ (booting 3).writable Reg.BOOT_CTRL = true) ∧
    ((booting 2).bootState = 2 ∧ (booting 2).bit (Reg.PAGE_ERR_INJ Page.boot) 30 = false ∧
      (booting 2).imageError [] (min (2 ^ (20 + (6 : Fin 7).val)) 0x800000) ≠ 0 ∧ (booting 2).pwr.hostGo = false ∧ min (2 ^ (20 + (0 : Fin 7).val)) 0x800000 = 0x100000) ∧
    (booting 2).imageError image 0x100000 = 0 ∧
    ((booting 5).bootState = 5 ∧
      imageItems (((booting 5).putConBytes 0x01000000 (leBytes 4 0 ++ leBytes 4 0 ++ leBytes 4 64)).buffered) = some [] ∧
      imageItems (((booting 5).putConBytes 0x01000000 image).buffered) = some [(1, leBytes 4 Reg.PTP_CFG ++ leBytes 4 1)] ∧
      (booting 5).locked (Reg.PTP_CFG / 0x1000) = false) ∧
    (ready.writable Reg.BOOT_FUSE_CTRL = true ∧ fieldOf (0x46540001 : Word) 16 16 ≠ 0x4655 ∧ fieldOf (0x46550001 : Word) 16 16 = 0x4655 ∧
      ready.bootState = 6 ∧ ready.fld Reg.BOOT_FUSE_STAT 0 2 = 0 ∧
      (ready.setReg (Reg.BOOT_FUSE_DATA 7) 1).hashWords.all (fun w => decide (w = 0)) = false) ∧
    (ready.bit Reg.BOOT_FUSE_STAT 1 = false ∧ (ready.setReg Reg.BOOT_FUSE_STAT 2).bit Reg.BOOT_FUSE_STAT 1 = true) :=
  ⟨by decide +kernel, by decide +kernel, by decide +kernel, image_good _ rfl, by decide +kernel, by decide +kernel, by decide +kernel⟩

/-- A service operation runs, with its argument and what is held of it. -/
def serving_ (op : Nat) (arg : Nat) (f : Service → Service) : State :=
  { ready.setReg Reg.SVC_STAT (BitVec.ofNat 32 (2 ^ 31 + 2 ^ 16 * op)) with svc := f { Service.reset with arg := arg } }

theorem witness_ServiceOperations :
    (ready.writable Reg.SVC_CMD = true ∧ (10, Instr.portFailoverTest .pcie 0) ∈ svcCommands .pcie 0 ∧ ready.svcBusy = false ∧
      (ready.setReg (Reg.PAGE_CTRL Page.svc) 0).pageOn Page.svc = false ∧ ready.pageOn Page.svc = true ∧ (serving_ 1 0 id).svcBusy = true) ∧
    ((served 33 ready).svcValid 1 33 = true ∧ ready.svcValid 1 34 = false ∧ ready.svcValid 3 0x7F47 = true ∧ ready.svcValid 5 917503 = true ∧
      ready.svcValid 6 0 = true ∧ ready.svcValid 7 0 = true ∧ ready.svcValid 8 0 = true ∧ ready.svcValid 9 0 = true ∧
      ready.svcValid 10 0x100 = true ∧ (ready.core 33).retire = false ∧ (playing 160).running = true ∧
      ((served 5 ready).updCore 33 (fun c => { c with svc := 0 })).svcValid 2 33 = true ∧
      (ready.setFld (Reg.CON_BANK 73) 29 3 3).svcValid 4 73 = true) ∧
    (ready.running = false ∧ (ready.reg Reg.SVC_ARG).toNat = 0) ∧
    (ready.writable Reg.SVC_ABORT = true ∧ fieldOf (1 : Word) 0 8 = (serving_ 1 33 id).svcOp ∧ fieldOf (2 : Word) 0 8 ≠ (serving_ 1 33 id).svcOp ∧
      (serving_ 1 33 (fun x => { x with committed := true })).svc.committed = true ∧ (serving_ 1 33 id).svc.committed = false ∧
      (serving_ 1 33 id).svc.finished = false ∧ (serving_ 1 33 id).svc.fail = false) ∧
    (ready.ctl.rebuildQueue = [] ∧
      (let s := { ready with ctl := { ready.ctl with rebuildQueue := [73] } }
       s.ctl.rebuildQueue = [73] ∧ s.bankState 71 = 0 ∧ s.lowestSpare.isSome = true) ∧
      ((ready.setFld (Reg.CON_BANK 72) 29 3 3).setFld (Reg.CON_BANK 73) 29 3 3).lowestSpare = none) ∧
    ((serving_ 1 33 id).svcOp = 1 ∧ ((serving_ 1 33 id).core (bitsOf (serving_ 1 33 id).svc.arg 0 6)).svc ≠ 2 ∧
      (((serving_ 1 33 id).updCore 33 (fun c => { c with svc := 2 })).core 33).svc = 2) ∧
    ((serving_ 2 33 id).svcOp = 2 ∧ bitsOf (serving_ 2 33 id).svc.arg 0 6 < 34 ∧ ((serving_ 2 33 id).inService.filter (fun k => decide (k ≠ 33))).length < 32) ∧
    (3 ≤ (serving_ 3 0 id).svcOp ∧ (serving_ 6 0 id).svcOp ≤ 6 ∧ (serving_ 6 0 (fun x => { x with finished := true })).svc.finished = true) ∧
    ((serving_ 7 0 id).svcOp = 7 ∧ (serving_ 8 0 id).svcOp = 8 ∧ (serving_ 10 0 id).svcOp = 10 ∧ (serving_ 0 0 id).svcOp = 0 ∧ 10 < (serving_ 11 0 id).svcOp) := by
  decide +kernel

end Sys2Proof.Tests
end

section
/-! PROOFS. Rules of the operations that register writes are made of: what a performed host write does, which registers a store, a
refusal and a run of stores change, and what reads after them give. -/

namespace Sys2Proof.Machine

/-! ### Performed host writes -/

/-- A write that is performed runs the register's rule on its row and its old word. -/
theorem State.hostWrite_of_writable {s : State} {path : Path} {off : Nat} {v : Word} {act : State → RegRow → Word → Word → State}
    (h : s.writable off = true) : s.hostWrite (.host path) off v act = act s (rowAt off) (s.reg off) v := by
  cases hr : rowOf off with
  | none => simp [State.writable, hr] at h
  | some r =>
    have row : rowAt off = r := by simp [rowAt, hr]
    simp only [State.writable, hr, Bool.and_eq_true, Bool.or_eq_true, Bool.not_eq_true', Bool.and_eq_false_iff] at h
    obtain ⟨⟨⟨serves, standby⟩, boot⟩, unlocked⟩ := h
    rw [row]
    refine State.hostWrite_served s serves ?_ ?_ hr unlocked
    · rintro ⟨page, state⟩
      exact absurd state (by simpa [page] using standby)
    · rintro ⟨page, state⟩
      simp [page, state] at boot

/-! ### Reads after a register write -/

theorem State.fld_setReg_same (s : State) (a : Nat) (v : Word) (lo w : Nat) : (s.setReg a v).fld a lo w = fieldOf v lo w := by
  rw [State.fld, State.reg_setReg_same]

theorem State.fld_setReg_other (s : State) {a b : Nat} (v : Word) (lo w : Nat) (h : b ≠ a) :
    (s.setReg a v).fld b lo w = s.fld b lo w := by
  rw [State.fld, State.reg_setReg_other s v h, State.fld]

theorem State.bit_setReg_other (s : State) {a b : Nat} (v : Word) (i : Nat) (h : b ≠ a) :
    (s.setReg a v).bit b i = s.bit b i := by
  rw [State.bit, State.reg_setReg_other s v h, State.bit]

@[simp] theorem State.slot_setReg (s : State) (a : Nat) (v : Word) (x : Nat) : (s.setReg a v).slot x = s.slot x := rfl

@[simp] theorem State.inService_setReg (s : State) (a : Nat) (v : Word) : (s.setReg a v).inService = s.inService := rfl

/-! ### Which registers change -/

theorem onlyRegs_setReg (s : State) (a : Nat) (v : Word) : OnlyRegs s (s.setReg a v) [a] :=
  ⟨rfl, fun _ hb => s.reg_setReg_other v (by simpa using hb)⟩

theorem OnlyRegs.trans {s t u : State} {l m : List Nat} (h : OnlyRegs s t l) (g : OnlyRegs t u m) : OnlyRegs s u (m ++ l) := by
  obtain ⟨fields, regs⟩ := h
  obtain ⟨fields', regs'⟩ := g
  refine ⟨?_, fun a ha => ?_⟩
  · rw [fields', fields]
  · rw [List.mem_append, not_or] at ha
    rw [regs' a ha.1, regs a ha.2]

theorem OnlyRegs.mono {s t : State} {l m : List Nat} (h : OnlyRegs s t l) (sub : l ⊆ m) : OnlyRegs s t m :=
  ⟨h.1, fun a ha => h.2 a (fun hl => ha (sub hl))⟩

theorem counted_bump (s : State) (a : Nat) : Counted s (s.bump a) a := by
  unfold Counted
  rw [State.reg_bump, if_pos rfl, BitVec.toNat_ofNat]
  omega

/-- Counting goes on from the register's word, whatever else has changed before. -/
theorem Counted.of_reg_eq {s s' t : State} {a : Nat} (h : Counted s' t a) (e : s'.reg a = s.reg a) : Counted s t a := by
  rwa [Counted, e] at h

/-! ### Refused configuration writes -/

/-- A refused write: flag `b` of `stat` is set, the refusal is counted on page `p`, and beyond these two registers only `l` may differ. -/
def CfgRefused (s t : State) (stat b p : Nat) (l : List Nat) : Prop :=
  t.bit stat b = true ∧ Counted s t (Reg.PAGE_ERR_CNT p) ∧ OnlyRegs s t ([stat, Reg.PAGE_ERR_CNT p] ++ l)

theorem State.refuseCfg_refused (s : State) {stat b p : Nat} (hb : b < 32) (hs : stat ≠ Reg.PAGE_ERR_CNT p) :
    CfgRefused s (s.refuseCfg stat b p) stat b p [] := by
  refine ⟨?_, ?_, ?_⟩
  · show State.bit ((s.setBit stat b true).bump (Reg.PAGE_ERR_CNT p)) stat b = true
    exact (State.bit_setReg_other _ _ _ hs).trans (s.bit_setBit_same stat true hb)
  · exact (counted_bump _ _).of_reg_eq (s.reg_setBit_other _ _ hs.symm)
  · exact ((onlyRegs_setReg s stat _).trans (onlyRegs_setReg _ (Reg.PAGE_ERR_CNT p) _)).mono (by simp)

/-- A refusal after a store of another register. -/
theorem CfgRefused.after_setReg {s t : State} {stat b p a : Nat} {v : Word} (h : CfgRefused (s.setReg a v) t stat b p [])
    (ha : a ≠ Reg.PAGE_ERR_CNT p) : CfgRefused s t stat b p [a] := by
  obtain ⟨flag, counted, only⟩ := h
  exact ⟨flag, counted.of_reg_eq (s.reg_setReg_other _ ha.symm), (onlyRegs_setReg s a v).trans only⟩

/-! ### Commands that store or refuse -/

theorem stores_of_exec {i : Instr} {s : State} {off : Nat} {v : Word} (h : exec i s = .next (s.setReg off (s.stored off v))) :
    Stores i s off v :=
  ⟨_, h, s.reg_setReg_same _ _, onlyRegs_setReg s off _⟩

theorem refused_of_exec {i : Instr} {s : State} {stat b p : Nat} (h : exec i s = .next (s.refuseCfg stat b p)) (hb : b < 32)
    (hs : stat ≠ Reg.PAGE_ERR_CNT p) : Completes i s (fun t => CfgRefused s t stat b p []) :=
  ⟨_, h, s.refuseCfg_refused hb hs⟩

/-! ### Runs of stores of one word -/

theorem State.reg_foldl_setReg (s : State) (f : Nat → Nat) (v : Word) (l : List Nat) (a : Nat) :
    (l.foldl (fun u i => u.setReg (f i) v) s).reg a = if a ∈ l.map f then v else s.reg a := by
  induction l generalizing s with
  | nil => simp
  | cons i l ih =>
    rw [List.foldl_cons, ih, State.reg_setReg]
    by_cases hl : a ∈ l.map f <;> by_cases hi : a = f i <;> simp [hl, hi]

theorem onlyRegs_foldl_setReg (s : State) (f : Nat → Nat) (v : Word) (l : List Nat) :
    OnlyRegs s (l.foldl (fun u i => u.setReg (f i) v) s) (l.map f) := by
  refine ⟨?_, fun a ha => by rw [State.reg_foldl_setReg, if_neg ha]⟩
  induction l generalizing s with
  | nil => rfl
  | cons i l ih => rw [List.foldl_cons, ih]; rfl

end Sys2Proof.Machine
end

section
/-! PROOFS. The shunt of the Scheduler (R145): what becomes of the index that moves, and what the tasks of that index can touch on their
way back to a Platform. -/

namespace Sys2Proof.Machine

/-! ### Placement and epoch of an index -/

theorem State.placedOf_setPlaced_same (s : State) (x n : Nat) : (s.setPlaced x n).placedOf x = n := by
  by_cases hx : x < 1088
  · simp [State.setPlaced, State.placedOf, hx, State.updSlot]
  · simp [State.setPlaced, State.placedOf, hx]

theorem State.epochOf_setPlaced_same (s : State) (x n : Nat) : (s.setPlaced x n).epochOf x = s.epochOf x := by
  by_cases hx : x < 1088
  · simp [State.setPlaced, State.epochOf, hx, State.updSlot]
  · simp [State.setPlaced, State.epochOf, hx]

theorem State.epochOf_bumpEpoch_same (s : State) (x : Nat) : (s.bumpEpoch x).epochOf x = (s.epochOf x + 1) % 2 ^ 16 := by
  by_cases hx : x < 1088
  · simp [State.bumpEpoch, State.epochOf, hx, State.updSlot]
  · simp [State.bumpEpoch, State.epochOf, hx, Sparse.upd]

@[simp] theorem State.reg_setPlaced (s : State) (x n a : Nat) : (s.setPlaced x n).reg a = s.reg a := by
  unfold State.setPlaced; split <;> rfl

@[simp] theorem State.reg_bumpEpoch (s : State) (x a : Nat) : (s.bumpEpoch x).reg a = s.reg a := by
  unfold State.bumpEpoch; split <;> rfl

@[simp] theorem State.con_setPlaced (s : State) (x n : Nat) : (s.setPlaced x n).con = s.con := by
  unfold State.setPlaced; split <;> rfl

@[simp] theorem State.con_bumpEpoch (s : State) (x : Nat) : (s.bumpEpoch x).con = s.con := by
  unfold State.bumpEpoch; split <;> rfl

/-! ### What moving tasks can touch -/

/-- Only the voice cores, the tasks with their order and peaks, and the notices of shunts differ between `s` and `t`. -/
def OnlyTasks (s t : State) : Prop :=
  ∃ (cores : Map Core) (tasks : List Task) (order : Nat) (peaks : Map Nat) (notify : List (Nat × Nat)),
    t = { s with cores := cores, sch := { s.sch with tasks := tasks, order := order, peaks := peaks, shuntNotify := notify } }

namespace OnlyTasks

theorem refl (s : State) : OnlyTasks s s := ⟨_, _, _, _, _, rfl⟩

theorem trans {s t u : State} (h : OnlyTasks s t) (g : OnlyTasks t u) : OnlyTasks s u := by
  obtain ⟨_, _, _, _, _, rfl⟩ := h
  obtain ⟨_, _, _, _, _, rfl⟩ := g
  exact ⟨_, _, _, _, _, rfl⟩

theorem foldl {α : Type} {f : State → α → State} (hf : ∀ u x, OnlyTasks u (f u x)) (l : List α) (s : State) :
    OnlyTasks s (l.foldl f s) := by
  induction l generalizing s with
  | nil => exact refl s
  | cons x l ih => exact (hf s x).trans (ih _)

theorem updTask (s : State) (id : Nat) (f : Task → Task) : OnlyTasks s (s.updTask id f) := ⟨_, _, _, _, _, rfl⟩

theorem pushTask (s : State) (t : Task) : OnlyTasks s (s.pushTask t) := ⟨_, _, _, _, _, rfl⟩

theorem setCore (s : State) (n : Nat) (c : Core) : OnlyTasks s (s.setCore n c) := ⟨_, _, _, _, _, rfl⟩

theorem unstage (s : State) (id : Nat) : OnlyTasks s (s.unstage id) := by
  refine foldl (fun u n => ?_) _ s
  dsimp only
  split
  · exact setCore u n _
  · exact refl u

theorem shuntEvent (s : State) (n : Nat) : OnlyTasks s (s.shuntEvent n) := by
  unfold State.shuntEvent
  split
  · exact setCore s n _
  · exact refl s

/-- The rest of a shunt, after the placement, the epoch and the counters: the tasks of the index go back to its new Platform. -/
theorem shunt (s : State) (x b : Nat) :
    OnlyTasks ((((s.bumpEpoch x).setPlaced x b).bump Reg.SCH_SHUNT_CNT).count 447 1) (s.shunt x b) := by
  unfold State.shunt
  refine trans (t := { State.count _ 447 1 with sch := { (State.count _ 447 1).sch with shuntNotify := _ } })
    ⟨_, _, _, _, _, rfl⟩ (foldl (fun u t => ?_) _ _)
  cases t.phase with
  | dispatched n => exact ((shuntEvent u n).trans (updTask _ _ _)).trans (pushTask _ _)
  | yielded _ _ _ => exact (updTask u _ _).trans (pushTask _ _)
  | aborted _ => exact refl u
  | _ => exact (unstage u _).trans (updTask _ _ _)

variable {s t : State} (h : OnlyTasks s t)
include h

theorem placedOf (x : Nat) : t.placedOf x = s.placedOf x := by
  obtain ⟨_, _, _, _, _, rfl⟩ := h; rfl

theorem epochOf (x : Nat) : t.epochOf x = s.epochOf x := by
  obtain ⟨_, _, _, _, _, rfl⟩ := h; rfl

theorem reg (a : Nat) : t.reg a = s.reg a := by
  obtain ⟨_, _, _, _, _, rfl⟩ := h; rfl

theorem con : t.con = s.con := by
  obtain ⟨_, _, _, _, _, rfl⟩ := h; rfl

end OnlyTasks

/-! ### A shunt -/

theorem State.placedOf_shunt_same (s : State) (x b : Nat) : (s.shunt x b).placedOf x = b :=
  ((OnlyTasks.shunt s x b).placedOf x).trans (State.placedOf_setPlaced_same _ x b)

theorem State.epochOf_shunt_same (s : State) (x b : Nat) : (s.shunt x b).epochOf x = (s.epochOf x + 1) % 2 ^ 16 :=
  calc (s.shunt x b).epochOf x
      = ((s.bumpEpoch x).setPlaced x b).epochOf x := (OnlyTasks.shunt s x b).epochOf x
    _ = (s.bumpEpoch x).epochOf x := State.epochOf_setPlaced_same _ x b
    _ = (s.epochOf x + 1) % 2 ^ 16 := s.epochOf_bumpEpoch_same x

theorem State.reg_shunt (s : State) (x b a : Nat) : (s.shunt x b).reg a = (s.bump Reg.SCH_SHUNT_CNT).reg a := by
  rw [(OnlyTasks.shunt s x b).reg, State.reg_count, State.reg_bump, State.reg_bump, State.reg_setPlaced, State.reg_setPlaced,
    State.reg_bumpEpoch, State.reg_bumpEpoch]

theorem State.con_shunt (s : State) (x b : Nat) : (s.shunt x b).con = s.con := by
  rw [(OnlyTasks.shunt s x b).con, State.count_con, State.bump_con, State.con_setPlaced, State.con_bumpEpoch]

/-! ### What decides whether a shunt is possible does not read SCH_SHUNT -/

theorem State.psetOf_setReg_shunt (s : State) (v : Word) (n : Nat) : (s.setReg Reg.SCH_SHUNT v).psetOf n = s.psetOf n :=
  s.fld_setReg_other v _ _ (by simp only [Reg.SCH_PSET0, Reg.SCH_SHUNT]; omega)

theorem State.coresOf_setReg_shunt (s : State) (v : Word) (pset : Nat) : (s.setReg Reg.SCH_SHUNT v).coresOf pset = s.coresOf pset := by
  simp only [State.coresOf, State.psetOf_setReg_shunt, State.inService_setReg]

theorem State.sharedPset_setReg_shunt (s : State) (v : Word) (pset : Nat) :
    (s.setReg Reg.SCH_SHUNT v).sharedPset pset = s.sharedPset pset := by
  simp only [State.sharedPset, State.psetOf_setReg_shunt, State.inService_setReg]

theorem State.taskPset_setReg_shunt (s : State) (v : Word) (bus : Bool) (k : Nat) :
    (s.setReg Reg.SCH_SHUNT v).taskPset bus k = s.taskPset bus k := by
  cases bus with
  | true => exact s.fld_setReg_other v 4 4 (by simp only [Reg.SCH_BUS_CFG, Reg.SCH_SHUNT]; omega)
  | false => exact s.fld_setReg_other v 24 4 (by simp only [Reg.SCH_PART_CFG, Reg.SCH_SHUNT]; omega)

theorem State.indexPset_setReg_shunt (s : State) (v : Word) (x : Nat) : (s.setReg Reg.SCH_SHUNT v).indexPset x = s.indexPset x := by
  simp only [State.indexPset, State.taskPset_setReg_shunt, State.slot_setReg]

/-- A shunt of index `x` to core `n` is not possible (R146). -/
def State.ShuntBarred (s : State) (x n : Nat) : Prop :=
  1088 ≤ x ∨ (s.slot x).st = .free ∨ s.sharedPset (s.indexPset x) = true ∨ n ∉ s.coresOf (s.indexPset x) ∨
    s.bit Reg.SCH_SHUNT_STAT 31 = true

theorem State.shuntBarred_setReg_shunt (s : State) (v : Word) (x n : Nat) :
    (s.setReg Reg.SCH_SHUNT v).ShuntBarred x n ↔ s.ShuntBarred x n := by
  simp only [State.ShuntBarred, State.slot_setReg, State.indexPset_setReg_shunt, State.sharedPset_setReg_shunt,
    State.coresOf_setReg_shunt, s.bit_setReg_other v 31 (show Reg.SCH_SHUNT_STAT ≠ Reg.SCH_SHUNT by decide)]

/-- The word of SCH_SHUNT_STAT while a shunt runs has bit 31 set. -/
theorem fieldOf_shuntRunning {e : Nat} (h : e < 2 ^ 16) : fieldOf (BitVec.ofNat 32 (2 ^ 31 + e)) 31 1 = 1 := by
  rw [fieldOf, bitsOf, BitVec.toNat_ofNat, Nat.shiftRight_eq_div_pow]
  omega

end Sys2Proof.Machine
end

section
/-! PROOFS. The writes of the SCH page and of the Part quotas, and the statement SchedulerWrites. -/

namespace Sys2Proof.Machine

section
variable {s : State} {path : Path} {v : Word}

/-! ### Express reservations (R137) -/

theorem expCyclesWrite_completes (hw : s.writable Reg.SCH_EXP_CYCLES = true) :
    if s.reservationFits (fieldOf (s.stored Reg.SCH_EXP_CYCLES v) 0 24) (s.fld Reg.SCH_EXP_CFG 0 24) then
      Stores (.expCyclesWrite path v) s Reg.SCH_EXP_CYCLES v
    else Completes (.expCyclesWrite path v) s (fun t => CfgRefused s t Reg.SCH_STAT 31 Page.sch []) := by
  have run : exec (.expCyclesWrite path v) s = .next (actExpCycles s (rowAt Reg.SCH_EXP_CYCLES) (s.reg Reg.SCH_EXP_CYCLES) v) :=
    congrArg Host.Outcome.next (State.hostWrite_of_writable hw)
  split
  next fits => exact stores_of_exec (run.trans (congrArg _ (if_pos fits)))
  next fails => exact refused_of_exec (run.trans (congrArg _ (if_neg fails))) (by decide) (by decide)

theorem expCfgWrite_completes (hw : s.writable Reg.SCH_EXP_CFG = true) :
    if s.reservationFits (s.fld Reg.SCH_EXP_CYCLES 0 24) (fieldOf (s.stored Reg.SCH_EXP_CFG v) 0 24) then
      Stores (.expCfgWrite path v) s Reg.SCH_EXP_CFG v
    else Completes (.expCfgWrite path v) s (fun t => CfgRefused s t Reg.SCH_STAT 31 Page.sch []) := by
  have run : exec (.expCfgWrite path v) s = .next (actExpCfg s (rowAt Reg.SCH_EXP_CFG) (s.reg Reg.SCH_EXP_CFG) v) :=
    congrArg Host.Outcome.next (State.hostWrite_of_writable hw)
  split
  next fits => exact stores_of_exec (run.trans (congrArg _ (if_pos fits)))
  next fails => exact refused_of_exec (run.trans (congrArg _ (if_neg fails))) (by decide) (by decide)

/-! ### Part quotas (R73) -/

/-- The sum of RSV over all Parts but `p`. -/
def State.reservedByOthers (s : State) (p : Nat) : Nat :=
  (((List.range 64).filter (fun q => decide (q ≠ p))).map (fun q => s.fld (Reg.VA_PART_QUOTA q) 16 11)).sum

/-- The rule of VA_PART_QUOTAn, with the reservations of the other Parts as a sum. -/
theorem actQuota_eq (p : Nat) :
    actQuota p s (rowAt (Reg.VA_PART_QUOTA p)) (s.reg (Reg.VA_PART_QUOTA p)) v =
      (let new := s.stored (Reg.VA_PART_QUOTA p) v
       if fieldOf new 0 11 < fieldOf new 16 11 ∨ 1024 < fieldOf new 0 11 ∨ 1024 < fieldOf new 16 11 + s.reservedByOthers p then
         s.refuseCfg Reg.VA_STAT 31 Page.va
       else s.setReg (Reg.VA_PART_QUOTA p) new) := by
  simp only [actQuota, State.stored, State.reservedByOthers, List.sum_eq_foldl, List.foldl_map]

theorem partQuotaWrite_completes {part : Fin 64} (hw : s.writable (Reg.VA_PART_QUOTA part) = true) :
    let new := s.stored (Reg.VA_PART_QUOTA part) v
    if fieldOf new 0 11 < fieldOf new 16 11 ∨ 1024 < fieldOf new 0 11 ∨ 1024 < fieldOf new 16 11 + s.reservedByOthers part then
      Completes (.partQuotaWrite path part v) s (fun t => CfgRefused s t Reg.VA_STAT 31 Page.va [])
    else Stores (.partQuotaWrite path part v) s (Reg.VA_PART_QUOTA part) v := by
  have run : exec (.partQuotaWrite path part v) s =
      .next (actQuota part s (rowAt (Reg.VA_PART_QUOTA part)) (s.reg (Reg.VA_PART_QUOTA part)) v) :=
    congrArg Host.Outcome.next (State.hostWrite_of_writable hw)
  rw [actQuota_eq] at run
  intro new
  split
  next wrong => exact refused_of_exec (run.trans (congrArg _ (if_pos wrong))) (by decide) (by decide)
  next adds => exact stores_of_exec (run.trans (congrArg _ (if_neg adds)))

/-! ### Histograms (R147) -/

/-- The addresses of the histogram registers. -/
def histRegs : List Nat := (List.range 48).map (fun i => Reg.SCH_HIST i)

theorem mem_histRegs {i : Nat} (h : i < 48) : Reg.SCH_HIST i ∈ histRegs := List.mem_map_of_mem (List.mem_range.2 h)

theorem schCtrl_notMem_histRegs : Reg.SCH_CTRL ∉ histRegs := by decide

/-- What a write of SCH_CTRL leaves: the word stored, the histograms and the peaks cleared with HCLR, all else as before. -/
def HistCleared (s t : State) (v : Word) : Prop :=
  t.reg Reg.SCH_CTRL = s.stored Reg.SCH_CTRL v ∧ (fieldOf v 16 1 = 1 → ∀ i, i < 48 → t.reg (Reg.SCH_HIST i) = 0) ∧
    t = { s with regs := t.regs, sch := { s.sch with peaks := t.sch.peaks } } ∧ (fieldOf v 16 1 = 0 → t.sch = s.sch) ∧
    KeepsRegs s t (Reg.SCH_CTRL :: if fieldOf v 16 1 = 1 then histRegs else [])

theorem histCleared_of_kept (h : fieldOf v 16 1 = 0) : HistCleared s (s.setReg Reg.SCH_CTRL (s.stored Reg.SCH_CTRL v)) v := by
  refine ⟨s.reg_setReg_same _ _, fun h1 => by omega, rfl, fun _ => rfl, fun a ha => ?_⟩
  exact s.reg_setReg_other _ (List.ne_of_not_mem_cons ha)

theorem histCleared_of_cleared (h : fieldOf v 16 1 = 1) :
    let u := (List.range 48).foldl (fun u i => u.setReg (Reg.SCH_HIST i) 0) (s.setReg Reg.SCH_CTRL (s.stored Reg.SCH_CTRL v))
    HistCleared s { u with sch := { u.sch with peaks := [] } } v := by
  intro u
  have only : OnlyRegs s u (histRegs ++ [Reg.SCH_CTRL]) :=
    (onlyRegs_setReg s Reg.SCH_CTRL _).trans (onlyRegs_foldl_setReg _ (fun i => Reg.SCH_HIST i) 0 _)
  have read (a : Nat) : u.reg a = if a ∈ histRegs then 0 else (s.setReg Reg.SCH_CTRL (s.stored Reg.SCH_CTRL v)).reg a :=
    State.reg_foldl_setReg _ (fun i => Reg.SCH_HIST i) 0 _ a
  clear_value u
  refine ⟨?_, fun _ i hi => ?_, ?_, fun h0 => by omega, fun a ha => ?_⟩
  · exact (read _).trans ((if_neg schCtrl_notMem_histRegs).trans (s.reg_setReg_same _ _))
  · exact (read _).trans (if_pos (mem_histRegs hi))
  · rw [only.1]
  · rw [if_pos h, List.mem_cons, not_or] at ha
    exact only.2 a (by simpa [not_or] using ha.symm)

theorem histClear_completes (hw : s.writable Reg.SCH_CTRL = true) :
    Completes (.histClear path v) s (fun t => HistCleared s t v) := by
  have run : exec (.histClear path v) s = .next (actSchCtrl s (rowAt Reg.SCH_CTRL) (s.reg Reg.SCH_CTRL) v) :=
    congrArg Host.Outcome.next (State.hostWrite_of_writable hw)
  have bit : fieldOf v 16 1 < 2 := Nat.mod_lt _ (by decide)
  by_cases h : fieldOf v 16 1 = 0
  · exact ⟨_, run.trans (congrArg _ (if_pos h)), histCleared_of_kept h⟩
  · exact ⟨_, run.trans (congrArg _ (if_neg h)), histCleared_of_cleared (by omega)⟩

/-! ### Shunts (R146) -/

/-- The state in which a requested shunt of index `x` to core `n` runs. -/
def State.shuntStarted (s : State) (x n : Nat) : State :=
  State.setReg { s.shunt x n with sch := { (s.shunt x n).sch with shuntTarget := some (x, n) } } Reg.SCH_SHUNT_STAT
    (BitVec.ofNat 32 (2 ^ 31 + (s.shunt x n).epochOf x))

/-- The test that the rule of SCH_SHUNT makes. -/
theorem State.shuntBarred_iff (x n : Nat) : s.ShuntBarred x n ↔
    1088 ≤ x ∨ (s.slot x).st = .free ∨ s.sharedPset (s.indexPset x) = true ∨ (s.coresOf (s.indexPset x)).contains n = false ∨
      s.bit Reg.SCH_SHUNT_STAT 31 = true := by
  simp only [State.ShuntBarred, List.contains_eq_mem, decide_eq_false_iff_not]

section
variable (start : fieldOf v 31 1 ≠ 0)
include start

theorem actShunt_of_barred
    (h : s.ShuntBarred (fieldOf (s.stored Reg.SCH_SHUNT v) 0 11) (fieldOf (s.stored Reg.SCH_SHUNT v) 16 6)) :
    actShunt s (rowAt Reg.SCH_SHUNT) (s.reg Reg.SCH_SHUNT) v =
      (s.setReg Reg.SCH_SHUNT (s.stored Reg.SCH_SHUNT v)).refuseCfg Reg.SCH_STAT 30 Page.sch := by
  rw [← s.shuntBarred_setReg_shunt (s.stored Reg.SCH_SHUNT v), ← s.fld_setReg_same Reg.SCH_SHUNT,
    ← s.fld_setReg_same Reg.SCH_SHUNT, State.shuntBarred_iff] at h
  exact (if_neg start).trans (if_pos h)

theorem actShunt_of_not_barred
    (h : ¬ s.ShuntBarred (fieldOf (s.stored Reg.SCH_SHUNT v) 0 11) (fieldOf (s.stored Reg.SCH_SHUNT v) 16 6)) :
    actShunt s (rowAt Reg.SCH_SHUNT) (s.reg Reg.SCH_SHUNT) v =
      (s.setReg Reg.SCH_SHUNT (s.stored Reg.SCH_SHUNT v)).shuntStarted (fieldOf (s.stored Reg.SCH_SHUNT v) 0 11)
        (fieldOf (s.stored Reg.SCH_SHUNT v) 16 6) := by
  rw [← s.shuntBarred_setReg_shunt (s.stored Reg.SCH_SHUNT v)] at h
  rw [← s.fld_setReg_same Reg.SCH_SHUNT _ 0 11, ← s.fld_setReg_same Reg.SCH_SHUNT _ 16 6] at h ⊢
  rw [State.shuntBarred_iff] at h
  exact (if_neg start).trans (if_neg h)

end

theorem shuntStarted_moves (w : Word) (x n : Nat) :
    let t := (s.setReg Reg.SCH_SHUNT w).shuntStarted x n
    t.placedOf x = n ∧ t.epochOf x = (s.epochOf x + 1) % 2 ^ 16 ∧ t.bit Reg.SCH_SHUNT_STAT 31 = true ∧
      Counted s t Reg.SCH_SHUNT_CNT ∧ KeepsCon s t 0 0 := by
  intro t
  have epoch : ((s.setReg Reg.SCH_SHUNT w).shunt x n).epochOf x = (s.epochOf x + 1) % 2 ^ 16 := State.epochOf_shunt_same _ x n
  refine ⟨State.placedOf_shunt_same _ x n, epoch, ?_, ?_, fun a _ => ?_⟩
  · have running := fieldOf_shuntRunning (Nat.mod_lt (s.epochOf x + 1) (Nat.two_pow_pos 16))
    rw [← epoch] at running
    exact decide_eq_true ((congrArg (fieldOf · 31 1) (State.reg_setReg_same _ _ _)).trans running)
  · have count : t.reg Reg.SCH_SHUNT_CNT = ((s.setReg Reg.SCH_SHUNT w).bump Reg.SCH_SHUNT_CNT).reg Reg.SCH_SHUNT_CNT :=
      (State.reg_setReg_other _ _ (by decide)).trans (State.reg_shunt _ x n _)
    have counted := (counted_bump (s.setReg Reg.SCH_SHUNT w) Reg.SCH_SHUNT_CNT).of_reg_eq (s.reg_setReg_other w (by decide))
    rwa [Counted, ← count] at counted
  · exact congrArg (fun m => Sparse.get (fun _ => 0) m a) (State.con_shunt _ x n)

theorem shuntRequest_completes (hw : s.writable Reg.SCH_SHUNT = true) (start : fieldOf v 31 1 = 1) :
    let x := fieldOf (s.stored Reg.SCH_SHUNT v) 0 11
    let n := fieldOf (s.stored Reg.SCH_SHUNT v) 16 6
    (s.ShuntBarred x n →
      Completes (.shuntRequest path v) s (fun t => CfgRefused s t Reg.SCH_STAT 30 Page.sch [Reg.SCH_SHUNT])) ∧
    (¬ s.ShuntBarred x n → Completes (.shuntRequest path v) s (fun t => t.placedOf x = n ∧
      t.epochOf x = (s.epochOf x + 1) % 2 ^ 16 ∧ t.bit Reg.SCH_SHUNT_STAT 31 = true ∧ Counted s t Reg.SCH_SHUNT_CNT ∧
      KeepsCon s t 0 0)) := by
  have run : exec (.shuntRequest path v) s = .next (actShunt s (rowAt Reg.SCH_SHUNT) (s.reg Reg.SCH_SHUNT) v) :=
    congrArg Host.Outcome.next (State.hostWrite_of_writable hw)
  have start' : fieldOf v 31 1 ≠ 0 := by omega
  intro x n
  constructor
  · intro barred
    rw [actShunt_of_barred start' barred] at run
    exact ⟨_, run, (State.refuseCfg_refused _ (by decide) (by decide)).after_setReg (by decide)⟩
  · intro possible
    rw [actShunt_of_not_barred start' possible] at run
    exact ⟨_, run, shuntStarted_moves _ x n⟩

end

/-- Settles O35: the write reaches the register's rule, which stores the word, refuses it, clears the histograms or starts the shunt. -/
theorem schedulerWrites : Obligations.SchedulerWrites := by
  unfold Obligations.SchedulerWrites
  intro s path v part
  exact ⟨expCyclesWrite_completes, expCfgWrite_completes, partQuotaWrite_completes, histClear_completes, shuntRequest_completes⟩

end Sys2Proof.Machine
end

section
/-! PROOFS. The noise generator and the phase accumulators (R216, R225), and the statement GeneratorResults. -/

namespace Sys2Proof.Machine

/-! ### Physical registers of G names (R194) -/

theorem Core.phys_lt (c : Core) {k : Nat} (h : k < 32) : c.phys k < 32 := by
  unfold Core.phys
  split <;> omega

/-- The rotation keeps the two registers of an even pair apart. -/
theorem Core.phys_succ_ne (c : Core) {k : Nat} (h : k % 2 = 0) : c.phys (k + 1) ≠ c.phys k := by
  unfold Core.phys
  by_cases rotates : c.activeRot.isSome = true
  · simp only [rotates, and_true]
    split <;> split <;> omega
  · simp [rotates]

/-! ### The fields of a phase accumulator (R216) -/

theorem fieldOf_low (v : Word) (w : Nat) : fieldOf v 0 w = v.toNat % 2 ^ w := rfl

theorem Core.phase_lt (c : Core) (k w : Nat) : c.phase k w < 2 ^ 48 := by
  unfold Core.phase
  rw [fieldOf_low]
  omega

theorem le_codePhase (k w : Nat) : 72 ≤ codePhase k w := by
  unfold codePhase
  omega

theorem codePhase_succ_ne (k w : Nat) : codePhase k (w + 1) ≠ codePhase k w := by
  unfold codePhase
  omega

/-- A field of a phase accumulator depends on its two words alone. -/
theorem Core.phase_congr {c d : Core} {k w : Nat} (low : d.rd (codePhase k w) = c.rd (codePhase k w))
    (high : d.rd (codePhase k (w + 1)) = c.rd (codePhase k (w + 1))) : d.phase k w = c.phase k w := by
  rw [Core.phase, low, high, Core.phase]

theorem Core.rd_setPhase_other (c : Core) {k w j : Nat} (v : Nat) (low : j ≠ codePhase k w) (high : j ≠ codePhase k (w + 1)) :
    (c.setPhase k w v).rd j = c.rd j := by
  rw [Core.setPhase, Core.wr_rd, if_neg high.symm, Core.wr_rd, if_neg low.symm]

theorem Core.phase_setPhase_same (c : Core) (k w : Nat) {v : Nat} (h : v < 2 ^ 48) : (c.setPhase k w v).phase k w = v := by
  have low : (c.setPhase k w v).rd (codePhase k w) = BitVec.ofNat 32 v := by
    rw [Core.setPhase, Core.wr_rd, if_neg (codePhase_succ_ne k w), Core.wr_rd, if_pos rfl]
  have high : (c.setPhase k w v).rd (codePhase k (w + 1)) = BitVec.ofNat 32 (v / 2 ^ 32 % 2 ^ 16) := by
    rw [Core.setPhase, Core.wr_rd, if_pos rfl]
  rw [Core.phase, low, high, fieldOf_low, BitVec.toNat_ofNat, BitVec.toNat_ofNat]
  omega

/-! ### Effects that send register writes -/

/-- From `s` to `t` only core `n` changes: it becomes `c`, with the register writes `ws` due in the next cycle. -/
def Sends (s t : State) (n : Nat) (c : Core) (ws : List (Nat × Word)) : Prop :=
  OnlyCore s t n ∧ t.core n = { c with inflight := c.due1 ws }

theorem Sends.refl {s : State} {n : Nat} (h : (s.core n).inflight = []) : Sends s s n (s.core n) [] := by
  refine ⟨OnlyCore.refl s n, ?_⟩
  rw [Core.due1, List.map_nil, ← h]

theorem Sends.updCore (s : State) (n : Nat) {f : Core → Core} (h : (f (s.core n)).inflight = []) :
    Sends s (s.updCore n f) n (f (s.core n)) [] := by
  refine ⟨OnlyCore.updCore s n f, ?_⟩
  rw [State.core_updCore_same, Core.due1, List.map_nil, ← h]

theorem Sends.later {s t : State} {n : Nat} {c : Core} {ws : List (Nat × Word)} (h : Sends s t n c ws) (code : Nat) (v : Word) :
    Sends s (t.later n 1 (.reg code v)) n c (ws ++ [(code, v)]) := by
  obtain ⟨only, core⟩ := h
  refine ⟨only.trans (State.later_only ..), ?_⟩
  rw [State.core_later, core, Core.due1, Core.due1, List.map_append]
  rfl

theorem lastWrite_of_notMem {ws : List (Nat × Word)} {k : Nat} (x : Word) (h : k ∉ ws.map Prod.fst) : lastWrite ws k x = x := by
  induction ws generalizing x with
  | nil => rfl
  | cons w ws ih =>
    rw [List.map_cons, List.mem_cons, not_or] at h
    show lastWrite ws k (if w.1 = k then w.2 else x) = x
    rw [if_neg (Ne.symm h.1), ih x h.2]

/-- The write of PACC's carry flag, where it names one (R216). -/
def carryWrite (carry : Option (Fin 8)) (v : Bool) : List (Nat × Word) := carry.toList.map (fun f : Fin 8 => (codeF f, boolWord v))

theorem notMem_carryWrite (carry : Option (Fin 8)) (v : Bool) {code : Nat} (h : code < 64 ∨ 72 ≤ code) :
    code ∉ (carryWrite carry v).map Prod.fst := by
  rw [carryWrite, List.map_map, List.mem_map]
  rintro ⟨f, -, same⟩
  have same : 64 + f.val = code := same
  omega

/-! ### What a bundle leaves, weakened -/

section
variable {s : State} {n : Nat} {i : Instr} {wr : List Nat} {fl : List InFlight} {P Q : Core → Prop}

theorem BundledFrom.imp {c : Core} (h : BundledFrom s n i c wr fl P) (pq : ∀ d, P d → Q d) : BundledFrom s n i c wr fl Q := by
  obtain ⟨t, run, only, moved, holds⟩ := h
  exact ⟨t, run, only, moved, pq _ holds⟩

theorem Bundled.imp (h : Bundled s n i wr fl P) (pq : ∀ d, P d → Q d) : Bundled s n i wr fl Q :=
  BundledFrom.imp (c := s.core n) h pq

/-- Registers that the effect of the bundle writes at once count among those that the bundle writes. -/
theorem BundledFrom.bundled {c : Core} (h : BundledFrom s n i c wr fl P)
    (same : c = { s.core n with inflight := c.inflight, pcnt := c.pcnt, regs := c.regs, soft := c.soft })
    (kept : ∀ k, k ∉ wr → c.rd k = (s.core n).rd k) (pq : ∀ d, P d → Q d) : Bundled s n i wr fl Q := by
  obtain ⟨t, run, only, moved, holds⟩ := h
  exact ⟨t, run, only, moved.rebaseRegs same kept, pq _ holds⟩

end

/-- The C operations of the noise generator and of the phase accumulators. -/
def generatorOp : COp → Bool
  | .rnd _ | .rseed _ | .paset _ _ _ | .paget _ _ _ | .pacc _ _ _ => true
  | _ => false

/-- A generator operation may stand anywhere and in either mode; it neither branches nor repeats. -/
theorem plain_of_generatorOp (c : Core) (p : Pred) {o : COp} (h : generatorOp o = true) :
    c.placed c.pc o true = true ∧ c.privileged o = false ∧ c.flow o true = .next ∧ c.reps { Bundle.nop with cp := p, c := o } = 0 :=
  match o, h with
  | .rnd _, _ | .rseed _, _ | .paset _ _ _, _ | .paget _ _ _, _ | .pacc _ _ _, _ => ⟨rfl, rfl, rfl, rfl⟩

section
variable {s : State} {n : Fin 34} {p : Pred} (calm : s.Calm n) (hp : (s.core n).holds p = true)
include calm hp

/-- A generator operation alone in its bundle: what it sends lands with the bundle. -/
theorem Sends.bundledFrom {i : Instr} {o : COp} {c : Core} {ws : List (Nat × Word)} {wr : List Nat} (generator : generatorOp o = true)
    (run : exec i s = .next (s.issueC n p o Bundle.nop Access.quiet)) (legal : cLegal o = true) (nodup : (cWrites o).Nodup)
    (sends : Sends s (s.cData n (s.core n) o Access.quiet) n c ws) (pc : c.pc = (s.core n).pc) (written : ∀ w ∈ ws, w.1 ∈ wr) :
    BundledFrom s n i c wr [] (fun d => ∀ k, d.rd k = lastWrite ws k (c.rd k)) := by
  obtain ⟨only, core⟩ := sends
  obtain ⟨placed, unprivileged, flow, reps⟩ := plain_of_generatorOp (s.core n) p generator
  exact BundledFrom.of_regs calm run hp legal placed nodup (by rw [unprivileged, Bool.and_false]) flow reps only
    (by rw [core]) pc written

/-! ### The noise generator (R225) -/

theorem rnd_bundled (d : Fin 32) :
    let c := s.core n
    BundledFrom s n (.rnd n p d Bundle.nop) { c with nctr := c.nctr + 1 } [c.phys d] []
      (fun e => e.rd (c.phys d) = noiseHash [c.k0, c.k1, c.nctr]) := by
  intro c
  have sends : Sends s (s.cData n c (.rnd d) Access.quiet) n { c with nctr := c.nctr + 1 }
      [(c.phys d, noiseHash [c.k0, c.k1, c.nctr])] :=
    (Sends.updCore s n (f := fun k => { k with nctr := c.nctr + 1 }) calm.inflight).later _ _
  have bundle := sends.bundledFrom calm hp (i := .rnd n p d Bundle.nop) (wr := [c.phys d]) rfl rfl rfl (List.nodup_singleton d.val) rfl
    (by simp)
  refine bundle.imp fun e read => ?_
  rw [read]
  exact if_pos rfl

theorem rseed_bundled {a : Fin 32} (even : a.val % 2 = 0) :
    let c := s.core n
    BundledFrom s n (.rseed n p a Bundle.nop) { c with k0 := c.g a, k1 := c.g (a.val + 1), nctr := 0 } [] [] (fun _ => True) := by
  intro c
  have sends : Sends s (s.cData n c (.rseed a) Access.quiet) n { c with k0 := c.g a, k1 := c.g (a.val + 1), nctr := 0 } [] :=
    Sends.updCore s n (f := fun k => { k with k0 := c.g a, k1 := c.g (a.val + 1), nctr := 0 }) calm.inflight
  have legal : cLegal (.rseed a) = true := decide_eq_true even
  exact (sends.bundledFrom calm hp rfl rfl legal List.nodup_nil rfl (by simp)).imp fun _ _ => trivial

/-! ### The phase accumulators (R216) -/

theorem paset_bundled {incr : Bool} {k : Fin 16} {a : Fin 32} (even : a.val % 2 = 0) :
    let c := s.core n
    let w := if incr then 2 else 0
    Bundled s n (.paset n p incr k a Bundle.nop) [codePhase k w, codePhase k (w + 1)] []
      (fun e => e.phase k w = (c.g a).toNat + 2 ^ 32 * ((c.g (a.val + 1)).toNat % 2 ^ 16)) := by
  intro c w
  let v := (c.g a).toNat + 2 ^ 32 * ((c.g (a.val + 1)).toNat % 2 ^ 16)
  have hv : v < 2 ^ 48 := by omega
  have sends : Sends s (s.cData n c (.paset incr k a) Access.quiet) n (c.setPhase k w v) [] :=
    Sends.updCore s n (f := fun d => d.setPhase k w v) calm.inflight
  have legal : cLegal (.paset incr k a) = true := decide_eq_true even
  have bundle := sends.bundledFrom calm hp (i := .paset n p incr k a Bundle.nop) (wr := [codePhase k w, codePhase k (w + 1)]) rfl rfl
    legal List.nodup_nil rfl (by simp)
  refine bundle.bundled rfl (fun j hj => ?_) fun e read => ?_
  · simp only [List.mem_cons, List.not_mem_nil, or_false, not_or] at hj
    exact c.rd_setPhase_other v hj.1 hj.2
  · exact (Core.phase_congr (read _) (read _)).trans (c.phase_setPhase_same k w hv)

theorem paget_bundled {incr : Bool} {k : Fin 16} {d : Fin 32} (even : d.val % 2 = 0) :
    let c := s.core n
    let w := if incr then 2 else 0
    Bundled s n (.paget n p incr k d Bundle.nop) [c.phys d, c.phys (d.val + 1)] []
      (fun e => (e.rd (c.phys d)).toNat + 2 ^ 32 * (e.rd (c.phys (d.val + 1))).toNat = c.phase k w) := by
  intro c w
  let v := c.phase k w
  have hv : v < 2 ^ 48 := c.phase_lt k w
  have sends : Sends s (s.cData n c (.paget incr k d) Access.quiet) n c
      [(c.phys d, BitVec.ofNat 32 v), (c.phys (d.val + 1), BitVec.ofNat 32 (v / 2 ^ 32))] :=
    ((Sends.refl calm.inflight).later _ _).later _ _
  have apart : c.phys (d.val + 1) ≠ c.phys d := c.phys_succ_ne even
  have legal : cLegal (.paget incr k d) = true := decide_eq_true even
  have bundle := sends.bundledFrom calm hp (i := .paget n p incr k d Bundle.nop) (wr := [c.phys d, c.phys (d.val + 1)]) rfl rfl
    legal (by simp [cWrites]) rfl (by simp)
  refine bundle.bundled rfl (fun _ _ => rfl) fun e read => ?_
  have low : e.rd (c.phys d) = BitVec.ofNat 32 v := by rw [read]; simp [lastWrite, apart]
  have high : e.rd (c.phys (d.val + 1)) = BitVec.ofNat 32 (v / 2 ^ 32) := by rw [read]; simp [lastWrite]
  rw [low, high, BitVec.toNat_ofNat, BitVec.toNat_ofNat]
  omega

theorem pacc_bundled (carry : Option (Fin 8)) (k : Fin 16) (d : Fin 32) :
    let c := s.core n
    Bundled s n (.pacc n p carry k d Bundle.nop)
      ([c.phys d, codePhase k 0, codePhase k 1] ++ carry.toList.map (fun f : Fin 8 => codeF f)) []
      (fun e => e.phase k 0 = (c.phase k 0 + c.phase k 2) % 2 ^ 48 ∧ e.rd (c.phys d) = BitVec.ofNat 32 (c.phase k 0 / 2 ^ 16) ∧
        ∀ f, carry = some f → e.flag f = decide (2 ^ 48 ≤ c.phase k 0 + c.phase k 2)) := by
  intro c
  let sum := c.phase k 0 + c.phase k 2
  let flags := carryWrite carry (decide (2 ^ 48 ≤ sum))
  have sends : Sends s (s.cData n c (.pacc carry k d) Access.quiet) n (c.setPhase k 0 (sum % 2 ^ 48))
      ((c.phys d, BitVec.ofNat 32 (c.phase k 0 / 2 ^ 16)) :: flags) := by
    have advanced := (Sends.updCore s n (f := fun e => e.setPhase k 0 (sum % 2 ^ 48)) calm.inflight).later (c.phys d)
      (BitVec.ofNat 32 (c.phase k 0 / 2 ^ 16))
    cases carry with
    | none => exact advanced
    | some f => exact advanced.later _ _
  have nodup : (cWrites (.pacc carry k d)).Nodup := by
    cases carry with
    | none => exact List.nodup_singleton d.val
    | some f =>
      have apart : d.val ≠ 64 + f.val := by omega
      exact List.nodup_cons.2 ⟨mt List.mem_singleton.1 apart, List.nodup_singleton _⟩
  have bundle := sends.bundledFrom calm hp (i := .pacc n p carry k d Bundle.nop)
    (wr := [c.phys d, codePhase k 0, codePhase k 1] ++ carry.toList.map (fun f : Fin 8 => codeF f)) rfl rfl rfl nodup rfl
    (by
      intro w hw
      obtain rfl | hw := List.mem_cons.1 hw
      · exact List.mem_cons_self
      · obtain ⟨f, hf, rfl⟩ := List.mem_map.1 hw
        exact List.mem_append_right _ (List.mem_map_of_mem hf))
  have gCode : c.phys d < 32 := c.phys_lt d.isLt
  refine bundle.bundled rfl (fun j hj => ?_) fun e read => ⟨?_, ?_, ?_⟩
  · simp only [List.mem_append, List.mem_cons, List.not_mem_nil, or_false, not_or] at hj
    obtain ⟨⟨-, low, high⟩, -⟩ := hj
    exact c.rd_setPhase_other _ low high
  · have kept : ∀ w, e.rd (codePhase k w) = (c.setPhase k 0 (sum % 2 ^ 48)).rd (codePhase k w) := by
      intro w
      have code := le_codePhase k w
      refine (read _).trans (lastWrite_of_notMem _ ?_)
      rw [List.map_cons, List.mem_cons, not_or]
      exact ⟨by dsimp only; omega, notMem_carryWrite _ _ (Or.inr code)⟩
    exact (Core.phase_congr (kept 0) (kept 1)).trans (c.phase_setPhase_same k 0 (Nat.mod_lt _ (Nat.two_pow_pos 48)))
  · rw [read]
    exact (lastWrite_of_notMem _ (notMem_carryWrite _ _ (Or.inl (by omega)))).trans (if_pos rfl)
  · rintro f rfl
    have flag : e.rd (codeF f) = boolWord (decide (2 ^ 48 ≤ sum)) := (read _).trans (if_pos rfl)
    rw [Core.flag, flag, flag_boolWord]

end

/-- Settles O18: each operation's effect is the core it leaves at once and the register writes it sends, which land with the bundle. -/
theorem generatorResults : Obligations.GeneratorResults := by
  unfold Obligations.GeneratorResults
  intro s n p d a k incr f calm hp
  refine ⟨rnd_bundled calm hp d, rseed_bundled calm hp, paset_bundled calm hp, paget_bundled calm hp, ?_, ?_⟩
  · exact Bundled.imp (pacc_bundled calm hp none k d) fun e ⟨phase, read, _⟩ => ⟨phase, read⟩
  · exact Bundled.imp (pacc_bundled calm hp (some f) k d) fun e ⟨phase, read, carry⟩ => ⟨phase, read, carry f rfl⟩

end Sys2Proof.Machine
end

section
/-! PROOFS. What every command keeps, over all commands of the block, and the statements StepKeepsCanonical and StepsKeepQueueAndFuse. -/

namespace Sys2Proof.Machine

/-- Every command but the end of a fuse programming keeps the queue, the fuse, the drawn values and the canonical form. -/
theorem exec_keeps (i : Instr) (s : State) : i = .fuseProgramDone ∨ KeepsOut s (exec i s) := by
  cases i with
  | mediaConfigWrite path v => exact Or.inr (execMediaConfigWrite_keeps path v s (Keeps.refl s))
  | mediaStop path v => exact Or.inr (execMediaStop_keeps path v s (Keeps.refl s))
  | mediaStopComplete => exact Or.inr (execMediaStopComplete_keeps s (Keeps.refl s))
  | mediaRun path v => exact Or.inr (execMediaRun_keeps path v s (Keeps.refl s))
  | mediaCounterStart t => exact Or.inr (execMediaCounterStart_keeps t s (Keeps.refl s))
  | mtLoad path v => exact Or.inr (execMtLoad_keeps path v s (Keeps.refl s))
  | mtRead path frac => exact Or.inr (execMtRead_keeps path frac s (Keeps.refl s))
  | sourceQualified x => exact Or.inr (execSourceQualified_keeps x s (Keeps.refl s))
  | sourceLost x avg => exact Or.inr (execSourceLost_keeps x avg s (Keeps.refl s))
  | mediaPllLocked ns adj => exact Or.inr (execMediaPllLocked_keeps ns adj s (Keeps.refl s))
  | sourcePromotion x => exact Or.inr (execSourcePromotion_keeps x s (Keeps.refl s))
  | sourceChange ns avg => exact Or.inr (execSourceChange_keeps ns avg s (Keeps.refl s))
  | pllLockLoss pll => exact Or.inr (execPllLockLoss_keeps pll s (Keeps.refl s))
  | boundaryStep recs => exact Or.inr (execBoundaryStep_keeps recs s (Keeps.refl s))
  | expressStep => exact Or.inr (execExpressStep_keeps s (Keeps.refl s))
  | ringDoorbell path n v => exact Or.inr (execRingDoorbell_keeps path n v s (Keeps.refl s))
  | ringEntryRead n data => exact Or.inr (execRingEntryRead_keeps n data s (Keeps.refl s))
  | spiFifoForward => exact Or.inr (execSpiFifoForward_keeps s (Keeps.refl s))
  | nmidCommand sess seqno umps => exact Or.inr (execNmidCommand_keeps sess seqno umps s (Keeps.refl s))
  | timetableEntry src ump stamp cls notify tag => exact Or.inr (execTimetableEntry_keeps src ump stamp cls notify tag s (Keeps.refl s))
  | fencePlace => exact Or.inr (execFencePlace_keeps s (Keeps.refl s))
  | fenceComplete => exact Or.inr (execFenceComplete_keeps s (Keeps.refl s))
  | notificationFlush => exact Or.inr (execNotificationFlush_keeps s (Keeps.refl s))
  | partQuotaWrite path p v => exact Or.inr (execPartQuotaWrite_keeps path p v s (Keeps.refl s))
  | hostParameterWrite path v => exact Or.inr (execHostParameterWrite_keeps path v s (Keeps.refl s))
  | modulationEval cycles => exact Or.inr (execModulationEval_keeps cycles s (Keeps.refl s))
  | taskBind x cyc => exact Or.inr (execTaskBind_keeps x cyc s (Keeps.refl s))
  | taskStage n slot1 a upset => exact Or.inr (execTaskStage_keeps n slot1 a upset s (Keeps.refl s))
  | sidingMove n => exact Or.inr (execSidingMove_keeps n s (Keeps.refl s))
  | take core p d rest => exact Or.inr (execTake_keeps core p d rest s (Keeps.refl s))
  | takeDelivery n cyc wait => exact Or.inr (execTakeDelivery_keeps n cyc wait s (Keeps.refl s))
  | yieldTask core p flags rest => exact Or.inr (execYieldTask_keeps core p flags rest s (Keeps.refl s))
  | commitCheck n ux uy => exact Or.inr (execCommitCheck_keeps n ux uy s (Keeps.refl s))
  | streamFillReturn slot k errs => exact Or.inr (execStreamFillReturn_keeps slot k errs s (Keeps.refl s))
  | taskDeadline => exact Or.inr (execTaskDeadline_keeps s (Keeps.refl s))
  | taskAbort n => exact Or.inr (execTaskAbort_keeps n s (Keeps.refl s))
  | abortTimeout n => exact Or.inr (execAbortTimeout_keeps n s (Keeps.refl s))
  | shuntRequest path v => exact Or.inr (execShuntRequest_keeps path v s (Keeps.refl s))
  | expCyclesWrite path v => exact Or.inr (execExpCyclesWrite_keeps path v s (Keeps.refl s))
  | expCfgWrite path v => exact Or.inr (execExpCfgWrite_keeps path v s (Keeps.refl s))
  | histClear path v => exact Or.inr (execHistClear_keeps path v s (Keeps.refl s))
  | voiceSumClose => exact Or.inr (execVoiceSumClose_keeps s (Keeps.refl s))
  | busTaskDeadline => exact Or.inr (execBusTaskDeadline_keeps s (Keeps.refl s))
  | finalSumClose => exact Or.inr (execFinalSumClose_keeps s (Keeps.refl s))
  | frameBoundary => exact Or.inr (execFrameBoundary_keeps s (Keeps.refl s))
  | queueBlockArrival q => exact Or.inr (execQueueBlockArrival_keeps q s (Keeps.refl s))
  | outputSample late => exact Or.inr (execOutputSample_keeps late s (Keeps.refl s))
  | queueEnable path q v => exact Or.inr (execQueueEnable_keeps path q v s (Keeps.refl s))
  | queueDisable path q v => exact Or.inr (execQueueDisable_keeps path q v s (Keeps.refl s))
  | captureSample port ch t second w => exact Or.inr (execCaptureSample_keeps port ch t second w s (Keeps.refl s))
  | monitorSample c x => exact Or.inr (execMonitorSample_keeps c x s (Keeps.refl s))
  | readbackAction c => exact Or.inr (execReadbackAction_keeps c s (Keeps.refl s))
  | coefWrite path v => exact Or.inr (execCoefWrite_keeps path v s (Keeps.refl s))
  | tapsWrite path v => exact Or.inr (execTapsWrite_keeps path v s (Keeps.refl s))
  | busSetChange path v => exact Or.inr (execBusSetChange_keeps path v s (Keeps.refl s))
  | capSetChange path v => exact Or.inr (execCapSetChange_keeps path v s (Keeps.refl s))
  | monitorLengthWrite path v => exact Or.inr (execMonitorLengthWrite_keeps path v s (Keeps.refl s))
  | captureSourceWrite path k v => exact Or.inr (execCaptureSourceWrite_keeps path k v s (Keeps.refl s))
  | clampRelease c => exact Or.inr (execClampRelease_keeps c s (Keeps.refl s))
  | clearRampEnd c => exact Or.inr (execClearRampEnd_keeps c s (Keeps.refl s))
  | outclrAssert => exact Or.inr (execOutclrAssert_keeps s (Keeps.refl s))
  | outclrRelease => exact Or.inr (execOutclrRelease_keeps s (Keeps.refl s))
  | softwareClear path v => exact Or.inr (execSoftwareClear_keeps path v s (Keeps.refl s))
  | filterSwitch path v => exact Or.inr (execFilterSwitch_keeps path v s (Keeps.refl s))
  | rangeSwitch path c v => exact Or.inr (execRangeSwitch_keeps path c v s (Keeps.refl s))
  | switchGainChange c => exact Or.inr (execSwitchGainChange_keeps c s (Keeps.refl s))
  | switchSequenceEnd c => exact Or.inr (execSwitchSequenceEnd_keeps c s (Keeps.refl s))
  | clearCodeWrite path c v => exact Or.inr (execClearCodeWrite_keeps path c v s (Keeps.refl s))
  | maskWrite path c v => exact Or.inr (execMaskWrite_keeps path c v s (Keeps.refl s))
  | channelEnable path c v => exact Or.inr (execChannelEnable_keeps path c v s (Keeps.refl s))
  | channelDisable path c v => exact Or.inr (execChannelDisable_keeps path c v s (Keeps.refl s))
  | toneEnable path c v => exact Or.inr (execToneEnable_keeps path c v s (Keeps.refl s))
  | toneDisable path c v => exact Or.inr (execToneDisable_keeps path c v s (Keeps.refl s))
  | readbackFaultClear path c v => exact Or.inr (execReadbackFaultClear_keeps path c v s (Keeps.refl s))
  | overcurrentTrip c nLeg => exact Or.inr (execOvercurrentTrip_keeps c nLeg s (Keeps.refl s))
  | overcurrentClear path c v => exact Or.inr (execOvercurrentClear_keeps path c v s (Keeps.refl s))
  | avddChange ok hi => exact Or.inr (execAvddChange_keeps ok hi s (Keeps.refl s))
  | concourseWriteback w => exact Or.inr (execConcourseWriteback_keeps w s (Keeps.refl s))
  | testModeWrite path v => exact Or.inr (execTestModeWrite_keeps path v s (Keeps.refl s))
  | attributeWrite path k v => exact Or.inr (execAttributeWrite_keeps path k v s (Keeps.refl s))
  | backgroundTestStart => exact Or.inr (execBackgroundTestStart_keeps s (Keeps.refl s))
  | marchDone fail => exact Or.inr (execMarchDone_keeps fail s (Keeps.refl s))
  | backgroundTestTimeout => exact Or.inr (execBackgroundTestTimeout_keeps s (Keeps.refl s))
  | bankRebuild path v => exact Or.inr (execBankRebuild_keeps path v s (Keeps.refl s))
  | rebuildRow redo upsets => exact Or.inr (execRebuildRow_keeps redo upsets s (Keeps.refl s))
  | bankReturn path v => exact Or.inr (execBankReturn_keeps path v s (Keeps.refl s))
  | bankReturnDone fail => exact Or.inr (execBankReturnDone_keeps fail s (Keeps.refl s))
  | scrubLine errs odecc0 odecc1 => exact Or.inr (execScrubLine_keeps errs odecc0 odecc1 s (Keeps.refl s))
  | pageRetireDone page failed errs => exact Or.inr (execPageRetireDone_keeps page failed errs s (Keeps.refl s))
  | tableRegionWrite path r isCfg v => exact Or.inr (execTableRegionWrite_keeps path r isCfg v s (Keeps.refl s))
  | nop core rest => exact Or.inr (execNop_keeps core rest s (Keeps.refl s))
  | mul core p n a b rest => exact Or.inr (execMul_keeps core p n a b rest s (Keeps.refl s))
  | mac core p n a b rest => exact Or.inr (execMac_keeps core p n a b rest s (Keeps.refl s))
  | msc core p n a b rest => exact Or.inr (execMsc_keeps core p n a b rest s (Keeps.refl s))
  | cmul core p n a b rest => exact Or.inr (execCmul_keeps core p n a b rest s (Keeps.refl s))
  | cmac core p n a b rest => exact Or.inr (execCmac_keeps core p n a b rest s (Keeps.refl s))
  | cmsc core p n a b rest => exact Or.inr (execCmsc_keeps core p n a b rest s (Keeps.refl s))
  | cmacj core p n a b rest => exact Or.inr (execCmacj_keeps core p n a b rest s (Keeps.refl s))
  | dot2 core p n a b rest => exact Or.inr (execDot2_keeps core p n a b rest s (Keeps.refl s))
  | dot2a core p n a b rest => exact Or.inr (execDot2a_keeps core p n a b rest s (Keeps.refl s))
  | dot4 core p n a b rest => exact Or.inr (execDot4_keeps core p n a b rest s (Keeps.refl s))
  | dot4a core p n a b rest => exact Or.inr (execDot4a_keeps core p n a b rest s (Keeps.refl s))
  | cres0 core p n a b rest => exact Or.inr (execCres0_keeps core p n a b rest s (Keeps.refl s))
  | cres core p n a b rest => exact Or.inr (execCres_keeps core p n a b rest s (Keeps.refl s))
  | ld core y p reg ptr am rest acc other => exact Or.inr (execLd_keeps core y p reg ptr am rest acc other s (Keeps.refl s))
  | st core y p reg ptr am rest acc other => exact Or.inr (execSt_keeps core y p reg ptr am rest acc other s (Keeps.refl s))
  | ld2 core y p reg ptr am rest acc other => exact Or.inr (execLd2_keeps core y p reg ptr am rest acc other s (Keeps.refl s))
  | st2 core y p reg ptr am rest acc other => exact Or.inr (execSt2_keeps core y p reg ptr am rest acc other s (Keeps.refl s))
  | lda core y p reg ptr am rest acc other => exact Or.inr (execLda_keeps core y p reg ptr am rest acc other s (Keeps.refl s))
  | stQ core y p reg ptr am rest acc other => exact Or.inr (execStQ_keeps core y p reg ptr am rest acc other s (Keeps.refl s))
  | ldx core y p reg ptr am rest acc other => exact Or.inr (execLdx_keeps core y p reg ptr am rest acc other s (Keeps.refl s))
  | stx core y p reg ptr am rest acc other => exact Or.inr (execStx_keeps core y p reg ptr am rest acc other s (Keeps.refl s))
  | rep core p count rest => exact Or.inr (execRep_keeps core p count rest s (Keeps.refl s))
  | clrav core p mask rest => exact Or.inr (execClrav_keeps core p mask rest s (Keeps.refl s))
  | mov core p d a rest => exact Or.inr (execMov_keeps core p d a rest s (Keeps.refl s))
  | not core p d a rest => exact Or.inr (execNot_keeps core p d a rest s (Keeps.refl s))
  | negs core p d a rest => exact Or.inr (execNegs_keeps core p d a rest s (Keeps.refl s))
  | abss core p d a rest => exact Or.inr (execAbss_keeps core p d a rest s (Keeps.refl s))
  | mtx core p file ix a rest => exact Or.inr (execMtx_keeps core p file ix a rest s (Keeps.refl s))
  | mfx core p d file ix rest => exact Or.inr (execMfx_keeps core p d file ix rest s (Keeps.refl s))
  | mva core p part n a rest => exact Or.inr (execMva_keeps core p part n a rest s (Keeps.refl s))
  | mfa core p part n d rest => exact Or.inr (execMfa_keeps core p part n d rest s (Keeps.refl s))
  | mvr core p q23 n d rest => exact Or.inr (execMvr_keeps core p q23 n d rest s (Keeps.refl s))
  | pset core p v d rest => exact Or.inr (execPset_keeps core p v d rest s (Keeps.refl s))
  | pand core p d a b rest => exact Or.inr (execPand_keeps core p d a b rest s (Keeps.refl s))
  | por core p d a b rest => exact Or.inr (execPor_keeps core p d a b rest s (Keeps.refl s))
  | pxor core p d a b rest => exact Or.inr (execPxor_keeps core p d a b rest s (Keeps.refl s))
  | pnot core p d a rest => exact Or.inr (execPnot_keeps core p d a rest s (Keeps.refl s))
  | mff core p d rest => exact Or.inr (execMff_keeps core p d rest s (Keeps.refl s))
  | mtf core p a rest => exact Or.inr (execMtf_keeps core p a rest s (Keeps.refl s))
  | eret core p rest => exact Or.inr (execEret_keeps core p rest s (Keeps.refl s))
  | br core p a rest => exact Or.inr (execBr_keeps core p a rest s (Keeps.refl s))
  | b core p t rest => exact Or.inr (execB_keeps core p t rest s (Keeps.refl s))
  | bl core p d t rest => exact Or.inr (execBl_keeps core p d t rest s (Keeps.refl s))
  | rnd core p d rest => exact Or.inr (execRnd_keeps core p d rest s (Keeps.refl s))
  | rseed core p a rest => exact Or.inr (execRseed_keeps core p a rest s (Keeps.refl s))
  | paset core p incr k a rest => exact Or.inr (execPaset_keeps core p incr k a rest s (Keeps.refl s))
  | paget core p incr k d rest => exact Or.inr (execPaget_keeps core p incr k d rest s (Keeps.refl s))
  | pacc core p carry k d rest => exact Or.inr (execPacc_keeps core p carry k d rest s (Keeps.refl s))
  | add core p d a b rest => exact Or.inr (execAdd_keeps core p d a b rest s (Keeps.refl s))
  | sub core p d a b rest => exact Or.inr (execSub_keeps core p d a b rest s (Keeps.refl s))
  | adds core p d a b rest => exact Or.inr (execAdds_keeps core p d a b rest s (Keeps.refl s))
  | subs core p d a b rest => exact Or.inr (execSubs_keeps core p d a b rest s (Keeps.refl s))
  | and core p d a b rest => exact Or.inr (execAnd_keeps core p d a b rest s (Keeps.refl s))
  | or core p d a b rest => exact Or.inr (execOr_keeps core p d a b rest s (Keeps.refl s))
  | xor core p d a b rest => exact Or.inr (execXor_keeps core p d a b rest s (Keeps.refl s))
  | lsl core p d a b rest => exact Or.inr (execLsl_keeps core p d a b rest s (Keeps.refl s))
  | lsr core p d a b rest => exact Or.inr (execLsr_keeps core p d a b rest s (Keeps.refl s))
  | asr core p d a b rest => exact Or.inr (execAsr_keeps core p d a b rest s (Keeps.refl s))
  | lsls core p d a b rest => exact Or.inr (execLsls_keeps core p d a b rest s (Keeps.refl s))
  | cmpcc core p cc d a b rest => exact Or.inr (execCmpcc_keeps core p cc d a b rest s (Keeps.refl s))
  | addi core p d a imm rest => exact Or.inr (execAddi_keeps core p d a imm rest s (Keeps.refl s))
  | movi core p d imm rest => exact Or.inr (execMovi_keeps core p d imm rest s (Keeps.refl s))
  | movl core p d imm rest => exact Or.inr (execMovl_keeps core p d imm rest s (Keeps.refl s))
  | mfc core p d cr rest => exact Or.inr (execMfc_keeps core p d cr rest s (Keeps.refl s))
  | mtc core p cr a rest => exact Or.inr (execMtc_keeps core p cr a rest s (Keeps.refl s))
  | loop core p count stop rest => exact Or.inr (execLoop_keeps core p count stop rest s (Keeps.refl s))
  | loopR core p count stop step stages rest => exact Or.inr (execLoopR_keeps core p count stop step stages rest s (Keeps.refl s))
  | venter core p t rest => exact Or.inr (execVenter_keeps core p t rest s (Keeps.refl s))
  | pramp core p k d rest => exact Or.inr (execPramp_keeps core p k d rest s (Keeps.refl s))
  | tfetch core p cubic r g a rest acc => exact Or.inr (execTfetch_keeps core p cubic r g a rest acc s (Keeps.refl s))
  | tread core p r d a rest acc => exact Or.inr (execTread_keeps core p r d a rest acc s (Keeps.refl s))
  | blep core p t d a rest => exact Or.inr (execBlep_keeps core p t d a rest s (Keeps.refl s))
  | coreEventTake n => exact Or.inr (execCoreEventTake_keeps n s (Keeps.refl s))
  | doorbellWrite path n v => exact Or.inr (execDoorbellWrite_keeps path n v s (Keeps.refl s))
  | haltRequest path n v => exact Or.inr (execHaltRequest_keeps path n v s (Keeps.refl s))
  | singleStep path n v ax ay => exact Or.inr (execSingleStep_keeps path n v ax ay s (Keeps.refl s))
  | programLoad path n v => exact Or.inr (execProgramLoad_keeps path n v s (Keeps.refl s))
  | coreLogicCheckFail n => exact Or.inr (execCoreLogicCheckFail_keeps n s (Keeps.refl s))
  | coreUeTimeout n idle => exact Or.inr (execCoreUeTimeout_keeps n idle s (Keeps.refl s))
  | spareEnterService n upset => exact Or.inr (execSpareEnterService_keeps n upset s (Keeps.refl s))
  | linkChange port up gbe avg => exact Or.inr (execLinkChange_keeps port up gbe avg s (Keeps.refl s))
  | frameReceive port bad frame now ptp buf => exact Or.inr (execFrameReceive_keeps port bad frame now ptp buf s (Keeps.refl s))
  | syncTransmit => exact Or.inr (execSyncTransmit_keeps s (Keeps.refl s))
  | syncTimeout port avg => exact Or.inr (execSyncTimeout_keeps port avg s (Keeps.refl s))
  | packetDeadline ix => exact Or.inr (execPacketDeadline_keeps ix s (Keeps.refl s))
  | streamPacketTransmit ix => exact Or.inr (execStreamPacketTransmit_keeps ix s (Keeps.refl s))
  | streamConfigWrite path o v => exact Or.inr (execStreamConfigWrite_keeps path o v s (Keeps.refl s))
  | sessionEnable path n v => exact Or.inr (execSessionEnable_keeps path n v s (Keeps.refl s))
  | sessionDisable path n v => exact Or.inr (execSessionDisable_keeps path n v s (Keeps.refl s))
  | sessionAddressWrite path n isPort v => exact Or.inr (execSessionAddressWrite_keeps path n isPort v s (Keeps.refl s))
  | hostTxDoorbell path port v => exact Or.inr (execHostTxDoorbell_keeps path port v s (Keeps.refl s))
  | hostFrameSent port pcp frame => exact Or.inr (execHostFrameSent_keeps port pcp frame s (Keeps.refl s))
  | pcieReset kind gen width => exact Or.inr (execPcieReset_keeps kind gen width s (Keeps.refl s))
  | registerWrite path off be v => exact Or.inr (execRegisterWrite_keeps path off be v s (Keeps.refl s))
  | glbRead path o => exact Or.inr (execGlbRead_keeps path o s (Keeps.refl s))
  | pcieConcourseAccess a wr n meet => exact Or.inr (execPcieConcourseAccess_keeps a wr n meet s (Keeps.refl s))
  | pcieSampleMemoryAccess a wr n errs => exact Or.inr (execPcieSampleMemoryAccess_keeps a wr n errs s (Keeps.refl s))
  | pcieAtomic kind bar2 wide a v acc => exact Or.inr (execPcieAtomic_keeps kind bar2 wide a v acc s (Keeps.refl s))
  | dmaDoorbell path v => exact Or.inr (execDmaDoorbell_keeps path v s (Keeps.refl s))
  | dmaCopy desc m => exact Or.inr (execDmaCopy_keeps desc m s (Keeps.refl s))
  | dmaFill desc m => exact Or.inr (execDmaFill_keeps desc m s (Keeps.refl s))
  | dmaAdd32 desc m => exact Or.inr (execDmaAdd32_keeps desc m s (Keeps.refl s))
  | dmaSwap desc m => exact Or.inr (execDmaSwap_keeps desc m s (Keeps.refl s))
  | spiWrite off words clocks => exact Or.inr (execSpiWrite_keeps off words clocks s (Keeps.refl s))
  | spiRdreq off n clocks => exact Or.inr (execSpiRdreq_keeps off n clocks s (Keeps.refl s))
  | spiRddata clocks => exact Or.inr (execSpiRddata_keeps clocks s (Keeps.refl s))
  | spiEvent entry clocks => exact Or.inr (execSpiEvent_keeps entry clocks s (Keeps.refl s))
  | spiStatus clocks => exact Or.inr (execSpiStatus_keeps clocks s (Keeps.refl s))
  | tdmFrame p din edge wrongLength => exact Or.inr (execTdmFrame_keeps p din edge wrongLength s (Keeps.refl s))
  | tdmLock p phase => exact Or.inr (execTdmLock_keeps p phase s (Keeps.refl s))
  | tdmBclkLoss p => exact Or.inr (execTdmBclkLoss_keeps p s (Keeps.refl s))
  | tdmConfigWrite path p v => exact Or.inr (execTdmConfigWrite_keeps path p v s (Keeps.refl s))
  | coreRetire path v => exact Or.inr (execCoreRetire_keeps path v s (Keeps.refl s))
  | coreRecall n => exact Or.inr (execCoreRecall_keeps n s (Keeps.refl s))
  | coreRestore path v => exact Or.inr (execCoreRestore_keeps path v s (Keeps.refl s))
  | dramPageRetire path v => exact Or.inr (execDramPageRetire_keeps path v s (Keeps.refl s))
  | dramScrubFull path v => exact Or.inr (execDramScrubFull_keeps path v s (Keeps.refl s))
  | cfgCommit path v => exact Or.inr (execCfgCommit_keeps path v s (Keeps.refl s))
  | cfgReload path v => exact Or.inr (execCfgReload_keeps path v s (Keeps.refl s))
  | standbyEnter path v => exact Or.inr (execStandbyEnter_keeps path v s (Keeps.refl s))
  | standbyReached => exact Or.inr (execStandbyReached_keeps s (Keeps.refl s))
  | portFailoverTest path v => exact Or.inr (execPortFailoverTest_keeps path v s (Keeps.refl s))
  | svcAbort path v => exact Or.inr (execSvcAbort_keeps path v s (Keeps.refl s))
  | serviceOperationComplete fail flashLog image => exact Or.inr (execServiceOperationComplete_keeps fail flashLog image s (Keeps.refl s))
  | autoRebuildStart => exact Or.inr (execAutoRebuildStart_keeps s (Keeps.refl s))
  | errorInjectArm path p v => exact Or.inr (execErrorInjectArm_keeps path p v s (Keeps.refl s))
  | heartbeatKick path v => exact Or.inr (execHeartbeatKick_keeps path v s (Keeps.refl s))
  | heartbeatExpiry => exact Or.inr (execHeartbeatExpiry_keeps s (Keeps.refl s))
  | watchdogExpiry => exact Or.inr (execWatchdogExpiry_keeps s (Keeps.refl s))
  | moduleRestartRequest path v => exact Or.inr (execModuleRestartRequest_keeps path v s (Keeps.refl s))
  | pageDisable path p v => exact Or.inr (execPageDisable_keeps path p v s (Keeps.refl s))
  | pageEnable path p v => exact Or.inr (execPageEnable_keeps path p v s (Keeps.refl s))
  | pageIdle p => exact Or.inr (execPageIdle_keeps p s (Keeps.refl s))
  | pageSoftReset path p v => exact Or.inr (execPageSoftReset_keeps path p v s (Keeps.refl s))
  | pageLock path p v => exact Or.inr (execPageLock_keeps path p v s (Keeps.refl s))
  | glbFence path v => exact Or.inr (execGlbFence_keeps path v s (Keeps.refl s))
  | pmuDump => exact Or.inr (execPmuDump_keeps s (Keeps.refl s))
  | pmuDumpComplete => exact Or.inr (execPmuDumpComplete_keeps s (Keeps.refl s))
  | pmuCounterRead path => exact Or.inr (execPmuCounterRead_keeps path s (Keeps.refl s))
  | pmuRingConfigWrite path ix v => exact Or.inr (execPmuRingConfigWrite_keeps path ix v s (Keeps.refl s))
  | powerOnReset rises => exact Or.inr (execPowerOnReset_keeps rises s (Keeps.refl s))
  | vioBankChange bankB up txn => exact Or.inr (execVioBankChange_keeps bankB up txn s (Keeps.refl s))
  | bootInitDone passed validA validB seqA seqB => exact Or.inr (execBootInitDone_keeps passed validA validB seqA seqB s (Keeps.refl s))
  | imageCheck identified flashLog bytes => exact Or.inr (execImageCheck_keeps identified flashLog bytes s (Keeps.refl s))
  | backoffExpiry => exact Or.inr (execBackoffExpiry_keeps s (Keeps.refl s))
  | hostImageGo path v => exact Or.inr (execHostImageGo_keeps path v s (Keeps.refl s))
  | fuseProgram path v => exact Or.inr (execFuseProgram_keeps path v s (Keeps.refl s))
  | fuseProgramDone => exact Or.inl rfl
  | wakePin rising => exact Or.inr (execWakePin_keeps rising s (Keeps.refl s))
  | wakeRequest path v => exact Or.inr (execWakeRequest_keeps path v s (Keeps.refl s))
  | wakeComplete bad => exact Or.inr (execWakeComplete_keeps bad s (Keeps.refl s))
  | thermalSample temp => exact Or.inr (execThermalSample_keeps temp s (Keeps.refl s))
  | railFault rail => exact Or.inr (execRailFault_keeps rail s (Keeps.refl s))
  | pllRelock pll gen width => exact Or.inr (execPllRelock_keeps pll gen width s (Keeps.refl s))
  | pdelayRequestTransmit => exact Or.inr (execPdelayRequestTransmit_keeps s (Keeps.refl s))
  | illegalBundle n bits => exact Or.inr (execIllegalBundle_keeps n bits s (Keeps.refl s))
  | stagingComplete n slot1 => exact Or.inr (execStagingComplete_keeps n slot1 s (Keeps.refl s))
  | bootDone => exact Or.inr (execBootDone_keeps s (Keeps.refl s))
  | spiRegisterAccessDone => exact Or.inr (execSpiRegisterAccessDone_keeps s (Keeps.refl s))
  | spiUnknownCommand cmd clocks => exact Or.inr (execSpiUnknownCommand_keeps cmd clocks s (Keeps.refl s))
  | ptpTimeRead path now => exact Or.inr (execPtpTimeRead_keeps path now s (Keeps.refl s))
  | dmaInvalidDescriptor desc => exact Or.inr (execDmaInvalidDescriptor_keeps desc s (Keeps.refl s))
  | pcieAerError => exact Or.inr (execPcieAerError_keeps s (Keeps.refl s))

/-- The end of a fuse programming keeps all but the fuse. -/
theorem execFuseProgramDone_next {s t : State} (h : execFuseProgramDone s = .next t) :
    t.pending = s.pending ∧ s.draws ≤ t.draws ∧ (s.Canonical → t.Canonical) := by
  unfold execFuseProgramDone at h
  split at h
  · cases h
    exact ⟨rfl, Nat.le_refl _, id⟩
  · cases h
    have flags : Keeps s ((s.setBit Reg.BOOT_FUSE_STAT 1 false).setBit Reg.BOOT_FUSE_STAT 0 true) :=
      State.setBit_keeps _ (State.setBit_keeps s (Keeps.refl s) _ _ _) _ _ _
    exact ⟨flags.pending, flags.draws, fun c => ⟨(flags.canonical c).con, (flags.canonical c).dram, (flags.canonical c).regs⟩⟩

/-- What every command keeps, whichever it is. -/
theorem exec_next {i : Instr} {s t : State} (h : exec i s = .next t) :
    t.pending = s.pending ∧ s.draws ≤ t.draws ∧ (s.Canonical → t.Canonical) ∧ (i ≠ .fuseProgramDone → t.pwr.fuse = s.pwr.fuse) := by
  by_cases other : i = .fuseProgramDone
  · subst other
    obtain ⟨pending, draws, canonical⟩ := execFuseProgramDone_next h
    exact ⟨pending, draws, canonical, fun ne => absurd rfl ne⟩
  · have keeps : Keeps s t := by
      have keeps := (exec_keeps i s).resolve_left other
      rwa [h] at keeps
    exact ⟨keeps.pending, keeps.draws, keeps.canonical, fun _ => keeps.fuse⟩

/-- A step idles on an empty queue, or is its front command on the state with the queue's rest. -/
theorem step_cases {s t : State} (h : step s = .next t) :
    (s.pending = [] ∧ t = s) ∨ ∃ c rest, s.pending = c :: rest ∧ exec c { s with pending := rest } = .next t := by
  unfold step at h
  split at h
  next empty => exact Or.inl ⟨empty, by cases h; rfl⟩
  next c rest queue => exact Or.inr ⟨c, rest, queue, h⟩

/-- Settles O3: every command keeps the canonical form, and taking a command off the queue does not touch it. -/
theorem stepKeepsCanonical : Obligations.StepKeepsCanonical := by
  unfold Obligations.StepKeepsCanonical
  intro s t canonical h
  obtain ⟨-, rfl⟩ | ⟨c, rest, -, run⟩ := step_cases h
  · exact canonical
  · obtain ⟨-, -, keeps, -⟩ := exec_next run
    exact keeps ⟨canonical.con, canonical.dram, canonical.regs⟩

/-- Settles O4: every command keeps the queue it is given and the fuse, but for the end of a fuse programming, and never counts draws back. -/
theorem stepsKeepQueueAndFuse : Obligations.StepsKeepQueueAndFuse := by
  unfold Obligations.StepsKeepQueueAndFuse
  intro s t h
  obtain ⟨empty, rfl⟩ | ⟨c, rest, queue, run⟩ := step_cases h
  · exact ⟨by rw [empty, List.tail_nil], Nat.le_refl _, fun _ => rfl⟩
  · obtain ⟨pending, draws, -, fuse⟩ := exec_next run
    refine ⟨by rw [pending, queue, List.tail_cons], draws, fun other => fuse ?_⟩
    rintro rfl
    exact other (by rw [queue, List.head?_cons])

end Sys2Proof.Machine
end

section
/-! PROOFS. Register writes that standby, the boot or LOCK stop, and the statement ClosedWrites. -/

namespace Sys2Proof.Machine

theorem exec_of_writeTarget {i : Instr} {off : Nat} (h : writeTarget i = some off) (s : State) :
    ∃ path w act, exec i s = .next (s.hostWrite (.host path) off w act) := by
  cases i <;> cases h <;> exact ⟨_, _, _, rfl⟩

theorem exec_registerWrite_word (s : State) (path : Path) (o : BitVec 20) (v : Word) :
    exec (.registerWrite path o 15 v) s = .next (s.hostWrite (.host path) o.toNat v (actOf o.toNat)) := by
  by_cases serves : s.serving = false
  · rw [State.hostWrite_unserved s serves]
    exact if_pos serves
  · exact (if_neg serves).trans (if_neg (fun h => h rfl))

/-! ### A host write that is not performed -/

section
variable {s : State} {path : Path} {off : Nat} {v : Word} {act : State → RegRow → Word → Word → State}

theorem State.hostWrite_boot (serves : s.serving = true)
    (standby : ¬ (standbyPage (off / 0x1000) = true ∧ (s.powerState = 2 ∨ s.powerState = 3)))
    (boot : bootPage (off / 0x1000) = true ∧ s.bootState ≠ 6) : s.hostWrite (.host path) off v act = s := by
  simp [State.hostWrite, serves, standby, boot]

theorem State.hostWrite_locked {r : RegRow} (serves : s.serving = true)
    (standby : ¬ (standbyPage (off / 0x1000) = true ∧ (s.powerState = 2 ∨ s.powerState = 3)))
    (boot : ¬ (bootPage (off / 0x1000) = true ∧ s.bootState ≠ 6)) (locked : s.locked (off / 0x1000) = true)
    (row : rowOf off = some r) (exempt : r.exempt = false) (w1c : r.w1c = 0) (w1s : r.w1s = 0) (wo : r.wo = 0) :
    s.hostWrite (.host path) off v act =
      if ((s.reg off).toNat ^^^ v.toNat) &&& r.rw ≠ 0 then s.pageErrFlag (off / 0x1000) 31 else s := by
  simp [State.hostWrite, serves, standby, boot, locked, row, exempt, w1c, w1s, wo]

end

/-- A flagged error of a page changes the error status and count of the page. -/
theorem onlyRegs_pageErrFlag (s : State) (p bit : Nat) :
    OnlyRegs s (s.pageErrFlag p bit) [Reg.PAGE_ERR_STAT p, Reg.PAGE_ERR_CNT p] :=
  ((onlyRegs_setReg s (Reg.PAGE_ERR_STAT p) _).trans (onlyRegs_setReg _ (Reg.PAGE_ERR_CNT p) _)).mono (by simp)

theorem OnlyRegs.refl (s : State) (l : List Nat) : OnlyRegs s s l := ⟨rfl, fun _ _ => rfl⟩

/-- Settles O5: each of these commands is one host write, which standby, the boot or LOCK stops before the register's rule. -/
theorem closedWrites : Obligations.ClosedWrites := by
  unfold Obligations.ClosedWrites
  intro i off s target p standby boot
  obtain ⟨path, w, act, run⟩ : ∃ path w act, exec i s = .next (s.hostWrite (.host path) off w act) := by
    obtain target | ⟨path, o, v, rfl, rfl⟩ := target
    · exact exec_of_writeTarget target s
    · exact ⟨path, v, _, exec_registerWrite_word s path o v⟩
  refine ⟨fun closed => ?_, fun serves stands => ?_, fun serves awake boots => ?_,
    fun serves awake booted locked r row exempt w1c w1s wo => ?_⟩
  · rw [run, State.hostWrite_unserved s closed]
  · rw [State.hostWrite_standby s serves stands.1 stands.2] at run
    exact ⟨_, run, onlyRegs_setReg s _ _, counted_bump s _⟩
  · rw [run, State.hostWrite_boot serves awake boots]
  · rw [State.hostWrite_locked serves awake booted locked row exempt w1c w1s wo] at run
    refine ⟨_, run, ?_⟩
    split
    · exact onlyRegs_pageErrFlag s p 31
    · exact OnlyRegs.refl s _

end Sys2Proof.Machine
end

section
/-! PROOFS. Issue of a bundle of a voice core: every voice-core command, bundles that perform nothing, and illegal bundles; the
statements VoiceCommandsIssueBundles, FalsePredicatesPerformNothing and IllegalBundlesPerformNothing. -/

namespace Sys2Proof.Machine

/-- Every voice-core command issues its bundle; a memory operation stands in the slot that it names. -/
theorem exec_of_voiceBundle {i : Instr} {n : Fin 34} {b : Bundle} {ax ay : Access} (h : voiceBundle i = some (n, b, ax, ay))
    (s : State) : exec i s = .next (s.issue n b ax ay) := by
  cases i with
  | ld _ y | st _ y | ld2 _ y | st2 _ y | lda _ y | stQ _ y | ldx _ y | stx _ y => cases y <;> cases h <;> rfl
  | _ => cases h <;> rfl

theorem State.issue_of_not_ready {s : State} {n : Nat} (h : s.ready n = false) (b : Bundle) (ax ay : Access) :
    s.issue n b ax ay = s := if_pos h

/-- Settles O6: every voice-core command issues its bundle, and issuing does nothing on a core that is not ready. -/
theorem voiceCommandsIssueBundles : Obligations.VoiceCommandsIssueBundles := by
  unfold Obligations.VoiceCommandsIssueBundles
  intro i n b ax ay s h
  have run := exec_of_voiceBundle h s
  exact ⟨run, fun idle => by rw [run, State.issue_of_not_ready idle]⟩

/-! ### Bundles that perform nothing -/

/-- An issue slot in which nothing was performed, on a calm core. -/
theorem Bundled.of_blank {s : State} {n : Nat} (calm : s.Calm n) {i : Instr}
    (run : exec i s = .next ((s.slotTick n false).advance n (s.core n) [])) : Bundled s n i [] [] (fun _ => True) := by
  have none : ∀ w, w ∉ (s.core n).inflight := by simp [calm.inflight]
  obtain ⟨only, moved, -⟩ := State.bundle_end calm (OnlyCore.refl s n) rfl rfl (fun w hw => absurd hw (none w)) false [] []
    (fun w hw => absurd hw (none w))
  rw [calm.inflight] at moved
  exact ⟨_, run, only, moved, trivial⟩

/-- With no predicate true, no operation of the M, X and Y slots is performed. -/
theorem State.once_none (s : State) (n : Nat) (b : Bundle) (ax ay : Access) (k : Nat) :
    s.once n b false false false ax ay k = s := by
  unfold State.once
  cases b.x <;> cases b.y <;> rfl

theorem Core.reps_off {c : Core} {b : Bundle} (h : c.holds b.cp = false) : c.reps b = 0 := by
  unfold Core.reps
  split
  · rw [h]; rfl
  · rfl

/-- A legal bundle whose predicates are all false is an issue slot in which nothing was performed. -/
theorem State.issue_of_all_false {s : State} {n : Nat} (calm : s.Calm n) {b : Bundle} (ax ay : Access)
    (legal : (s.core n).legal (s.core n).pc b = true) (branch : isBranch b.c = false) (m : (s.core n).holds b.mp = false)
    (x : (s.core n).holds b.xp = false) (y : (s.core n).holds b.yp = false) (c : (s.core n).holds b.cp = false) :
    s.issue n b ax ay = (s.slotTick n false).advance n (s.core n) [] := by
  rw [State.issue_calm calm b ax ay legal (by rw [c]; rfl)]
  simp only [m, x, y, c, Bool.false_and, Bool.or_false, State.once_none, Core.reps_off c, Core.flow_off _ _ branch]
  rfl

/-- NOP alone is an issue slot in which nothing was performed. -/
theorem State.issue_nop {s : State} {n : Nat} (calm : s.Calm n) :
    s.issue n Bundle.nop Access.quiet Access.quiet = (s.slotTick n false).advance n (s.core n) [] :=
  State.issueC_calm calm .always .nop Access.quiet rfl rfl rfl List.nodup_nil (Bool.and_false _) rfl rfl

/-- Settles O7: without a true predicate, and with NOP, the issue slot performs nothing. -/
theorem falsePredicatesPerformNothing : Obligations.FalsePredicatesPerformNothing := by
  unfold Obligations.FalsePredicatesPerformNothing
  refine ⟨fun i n b ax ay s h calm legal branch ⟨m, x, y, c⟩ => ?_, fun s n calm => ?_⟩
  · refine Bundled.of_blank calm ((exec_of_voiceBundle h s).trans ?_)
    rw [State.issue_of_all_false calm ax ay legal branch m x y c]
  · exact Bundled.of_blank calm (congrArg Host.Outcome.next (State.issue_nop calm))

/-! ### Illegal bundles -/

theorem State.issue_illegal {s : State} {n : Nat} (calm : s.Calm n) {b : Bundle} (ax ay : Access)
    (illegal : (s.core n).legal (s.core n).pc b = false) : s.issue n b ax ay = (s.ill n).blank n := by
  have fetch : ¬ ((s.core n).voice = true ∧ (s.core n).pc < ((s.core n).cr 6).toNat) := calm.fetch
  unfold State.issue
  simp only [calm.ready, State.detect_off calm.unarmed, State.coreMemCheck_clean calm.unarmed, fetch, illegal]
  rfl

theorem vcIllCnt_ge (n : Nat) : 0x20000 ≤ Reg.VC_ILL_CNT n := by
  unfold Reg.VC_ILL_CNT
  omega

theorem pageErrInj_ne_vcIllCnt (n : Nat) : Reg.PAGE_ERR_INJ (Page.vc0 + n) ≠ Reg.VC_ILL_CNT n := by
  unfold Reg.PAGE_ERR_INJ Reg.VC_ILL_CNT Page.vc0
  omega

/-- Counting an illegal bundle leaves the core calm. -/
theorem State.Calm.bump_illCnt {s : State} {n : Nat} (calm : s.Calm n) : (s.bump (Reg.VC_ILL_CNT n)).Calm n :=
  calm.of_low rfl (fun a ha => s.reg_bump_other (by have := vcIllCnt_ge n; omega)) (s.reg_bump_other (pageErrInj_ne_vcIllCnt n))

/-- The core with an event pending. -/
def Core.withEvent (c : Core) (code : Nat) : Core := if c.events.contains code then c else { c with events := c.events ++ [code] }

theorem Core.withEvent_eq (c : Core) (code : Nat) : c.withEvent code = { c with events := (c.withEvent code).events } := by
  unfold Core.withEvent
  split <;> rfl

theorem Core.mem_withEvent (c : Core) (code : Nat) : code ∈ (c.withEvent code).events := by
  unfold Core.withEvent
  split
  next pending => exact List.contains_iff_mem.1 pending
  · exact List.mem_append_right _ (List.mem_singleton_self code)

theorem State.core_coreEvent (s : State) (n code : Nat) : (s.coreEvent n code).core n = (s.core n).withEvent code :=
  s.core_updCore_same n _

/-- Settles O8: the bundle counts as illegal and raises ILLEGAL in an issue slot that performs nothing. -/
theorem illegalBundlesPerformNothing : Obligations.IllegalBundlesPerformNothing := by
  unfold Obligations.IllegalBundlesPerformNothing
  intro i n b ax ay s h calm illegal
  have run := exec_of_voiceBundle h s
  rw [State.issue_illegal calm ax ay illegal] at run
  let s' := s.bump (Reg.VC_ILL_CNT n)
  let old := (s.core n).withEvent 2
  have core : (s.ill n).core n = old := State.core_coreEvent s' n 2
  have same : old = { s.core n with events := old.events } := Core.withEvent_eq _ 2
  have none : ∀ w, w ∉ old.inflight := by rw [same]; simp [calm.inflight]
  have raised : OnlyCore s' (s.ill n) n := OnlyCore.updCore s' n (fun c => c.withEvent 2)
  obtain ⟨only, moved, -⟩ := State.bundle_end_of calm.bump_illCnt old same raised core (by rw [same]; rfl)
    (fun w hw => absurd hw (none w)) false [] [] (fun w hw => absurd hw (none w))
  have blank : (s.ill n).blank n = ((s.ill n).slotTick n false).advance n old [] := by rw [State.blank, core]
  rw [← blank, List.eq_nil_iff_forall_not_mem.2 none] at moved
  rw [← blank] at only
  have events : (((s.ill n).blank n).core n).events = old.events := by rw [moved.rest]
  have counted : Counted s s' (Reg.VC_ILL_CNT n) := counted_bump s _
  refine ⟨_, run, ?_, ?_, only.of_regs rfl, fun a ha => ?_, ?_⟩
  · rw [events]; exact Core.mem_withEvent _ 2
  · rw [only.reg]; exact counted
  · rw [only.reg]; exact s.reg_bump_other ha
  · rw [events, ← same]; exact moved

end Sys2Proof.Machine
end

section
/-! PROOFS. The operations of the C slot whose effect is one register write: results of the ALU and of moves, predicate flags, and moves
among the register files; the statements AluAndMoveResults, FlagResults and FileAndAccumulatorMoves. -/

namespace Sys2Proof.Machine

/-- The C operations that write one register in the next cycle, where they are legal. -/
def writeOp : COp → Bool
  | .mov _ _ | .not _ _ | .negs _ _ | .abss _ _ | .mtx _ _ _ | .mfx _ _ _ | .mvr _ _ _ | .pset _ _ | .pand _ _ _ | .por _ _ _
  | .pxor _ _ _ | .pnot _ _ | .mff _ | .alu _ _ _ _ | .cmp _ _ _ _ | .addi _ _ _ | .movi _ _ | .movl _ _ => true
  | .mfa part _ _ => decide (part ≠ .p3)
  | _ => false

/-- Such an operation is legal anywhere and in either mode; it neither branches nor repeats. -/
theorem plain_of_writeOp (c : Core) (p : Pred) {o : COp} (h : writeOp o = true) :
    cLegal o = true ∧ (cWrites o).Nodup ∧ c.placed c.pc o true = true ∧ c.privileged o = false ∧ c.flow o true = .next ∧
      c.reps { Bundle.nop with cp := p, c := o } = 0 :=
  match o, h with
  | .mov _ _, h | .not _ _, h | .negs _ _, h | .abss _ _, h | .mtx _ _ _, h | .mfx _ _ _, h | .mvr _ _ _, h | .pset _ _, h
  | .pand _ _ _, h | .por _ _ _, h | .pxor _ _ _, h | .pnot _ _, h | .mff _, h | .alu _ _ _ _, h | .cmp _ _ _ _, h | .addi _ _ _, h
  | .movi _ _, h | .movl _ _, h | .mfa _ _ _, h => ⟨h, List.nodup_singleton _, rfl, rfl, rfl, rfl⟩

section
variable {s : State} {n : Fin 34} {p : Pred} (calm : s.Calm n) (hp : (s.core n).holds p = true)
include calm hp

/-- Such an operation alone in its bundle writes its register. -/
theorem bundled_of_write {i : Instr} (o : COp) {code : Nat} {v : Word} (writes : writeOp o = true)
    (run : exec i s = .next (s.issueC n p o Bundle.nop Access.quiet))
    (effect : s.cData n (s.core n) o Access.quiet = s.later n 1 (.reg code v)) :
    Bundled s n i [code] [] (fun c => c.rd code = v) := by
  obtain ⟨legal, nodup, placed, unprivileged, flow, reps⟩ := plain_of_writeOp (s.core n) p writes
  exact Bundled.of_c calm hp o run legal placed nodup (by rw [unprivileged, Bool.and_false]) flow reps rfl effect

/-- The same of a result that saturates. -/
theorem resultIn_of_saturated {i : Instr} (o : COp) {d : Fin 32} {x : Int} (writes : writeOp o = true)
    (run : exec i s = .next (s.issueC n p o Bundle.nop Access.quiet))
    (effect : s.cData n (s.core n) o Access.quiet = s.aluWrite n (s.core n) d (sat32 x)) : ResultIn s n i d (clamp32 x) := by
  obtain ⟨legal, nodup, placed, unprivileged, flow, reps⟩ := plain_of_writeOp (s.core n) p writes
  exact Bundled.of_sat calm hp o run legal placed nodup (by rw [unprivileged, Bool.and_false]) flow reps effect

end

/-- Settles O9: each result is the one write of its operation, clamped where the operation saturates. -/
theorem aluAndMoveResults : Obligations.AluAndMoveResults := by
  unfold Obligations.AluAndMoveResults
  constructor
  · intro s n p d a b calm hp x y
    exact ⟨bundled_of_write calm hp (.alu .add d a b) rfl rfl rfl, bundled_of_write calm hp (.alu .sub d a b) rfl rfl rfl,
      resultIn_of_saturated calm hp (.alu .adds d a b) rfl rfl rfl, resultIn_of_saturated calm hp (.alu .subs d a b) rfl rfl rfl,
      bundled_of_write calm hp (.alu .and d a b) rfl rfl rfl, bundled_of_write calm hp (.alu .or d a b) rfl rfl rfl,
      bundled_of_write calm hp (.alu .xor d a b) rfl rfl rfl, bundled_of_write calm hp (.alu .lsl d a b) rfl rfl rfl,
      bundled_of_write calm hp (.alu .lsr d a b) rfl rfl rfl, bundled_of_write calm hp (.alu .asr d a b) rfl rfl rfl,
      resultIn_of_saturated calm hp (.alu .lsls d a b) rfl rfl rfl⟩
  · intro s n p d a i16 i21 i32 calm hp x
    have magnitude : max x.toInt (-x.toInt) = (x.toInt.natAbs : Int) := by rw [Int.natCast_natAbs, abs_eq_max_neg]
    exact ⟨bundled_of_write calm hp (.mov d a) rfl rfl rfl, bundled_of_write calm hp (.not d a) rfl rfl rfl,
      resultIn_of_saturated calm hp (.negs d a) rfl rfl rfl,
      magnitude ▸ resultIn_of_saturated calm hp (.abss d a) rfl rfl rfl,
      bundled_of_write calm hp (.addi d a i16) rfl rfl rfl, bundled_of_write calm hp (.movi d i21) rfl rfl rfl,
      bundled_of_write calm hp (.movl d i32) rfl rfl rfl⟩

/-- Settles O10: each flag is the one write of its operation. -/
theorem flagResults : Obligations.FlagResults := by
  unfold Obligations.FlagResults
  intro s n p v d e f a b calm hp c
  exact ⟨bundled_of_write calm hp (.pset v d) rfl rfl rfl, bundled_of_write calm hp (.pand d e f) rfl rfl rfl,
    bundled_of_write calm hp (.por d e f) rfl rfl rfl, bundled_of_write calm hp (.pxor d e f) rfl rfl rfl,
    bundled_of_write calm hp (.pnot d e) rfl rfl rfl, bundled_of_write calm hp (.cmp .eq d a b) rfl rfl rfl,
    bundled_of_write calm hp (.cmp .ne d a b) rfl rfl rfl, bundled_of_write calm hp (.cmp .lt d a b) rfl rfl rfl,
    bundled_of_write calm hp (.cmp .ge d a b) rfl rfl rfl, bundled_of_write calm hp (.cmp .ltu d a b) rfl rfl rfl,
    bundled_of_write calm hp (.cmp .geu d a b) rfl rfl rfl⟩

/-! ### Moves among the files and the accumulators -/

/-- Register writes sent one after the other. -/
theorem Sends.foldl_later {α : Type} {s t : State} {n : Nat} {c : Core} {ws : List (Nat × Word)} (h : Sends s t n c ws)
    (w : α → Nat × Word) (l : List α) :
    Sends s (l.foldl (fun u i => u.later n 1 (.reg (w i).1 (w i).2)) t) n c (ws ++ l.map w) := by
  induction l generalizing t ws with
  | nil => rwa [List.map_nil, List.append_nil]
  | cons i l ih =>
    rw [List.map_cons, List.append_cons]
    exact ih (h.later _ _)

/-- Of writes to different registers each register holds its own. -/
theorem lastWrite_of_mem {ws : List (Nat × Word)} {k : Nat} {v : Word} (x : Word) (nodup : (ws.map Prod.fst).Nodup)
    (h : (k, v) ∈ ws) : lastWrite ws k x = v := by
  induction ws generalizing x with
  | nil => simp at h
  | cons w ws ih =>
    rw [List.map_cons, List.nodup_cons] at nodup
    obtain rfl | h := List.mem_cons.1 h
    · show lastWrite ws k (if k = k then v else x) = v
      rw [if_pos rfl, lastWrite_of_notMem _ nodup.1]
    · exact ih _ nodup.2 h

/-- The bits of accumulator parts that MFA reads. -/
theorem mfa_high (a : BitVec 72) : BitVec.ofInt 32 (signedOf 8 (a.toNat / 2 ^ 64)) = (a.extractLsb' 64 8).signExtend 32 := by
  have word : (a.extractLsb' 64 8).toNat = a.toNat / 2 ^ 64 % 2 ^ 8 := by
    rw [BitVec.extractLsb'_toNat, Nat.shiftRight_eq_div_pow]
  rw [BitVec.signExtend, BitVec.toInt, word, signedOf]
  congr 1
  split <;> split <;> omega

theorem mfa_low (a : BitVec 72) : BitVec.ofNat 32 a.toNat = a.extractLsb' 0 32 := by
  rw [← BitVec.toNat_inj, BitVec.extractLsb'_toNat, BitVec.toNat_ofNat, Nat.shiftRight_zero]

theorem mfa_mid (a : BitVec 72) : BitVec.ofNat 32 (a.toNat / 2 ^ 32) = a.extractLsb' 32 32 := by
  rw [← BitVec.toNat_inj, BitVec.extractLsb'_toNat, BitVec.toNat_ofNat, Nat.shiftRight_eq_div_pow]

section
variable {s : State} {n : Fin 34} {p : Pred} (calm : s.Calm n) (hp : (s.core n).holds p = true)
include calm hp

theorem mtf_bundled (a : Fin 32) :
    Bundled s n (.mtf n p a Bundle.nop) ((List.range 8).map codeF) [] (fun e => ∀ j, j < 8 → e.flag j = ((s.core n).g a).getLsbD j) := by
  let ws := (List.range 8).map (fun i => (codeF i, boolWord (((s.core n).g a).getLsbD i)))
  have keys : ws.map Prod.fst = (List.range 8).map codeF := by simp [ws]
  have nodup : ((List.range 8).map codeF).Nodup := by decide
  obtain ⟨only, core⟩ : Sends s (s.cData n (s.core n) (.mtf a) Access.quiet) n (s.core n) ws :=
    (Sends.refl calm.inflight).foldl_later (fun i => (codeF i, boolWord (((s.core n).g a).getLsbD i))) _
  have bundle : Bundled s n (.mtf n p a Bundle.nop) ((List.range 8).map codeF) []
      (fun e => ∀ k, e.rd k = lastWrite ws k ((s.core n).rd k)) :=
    BundledFrom.of_regs (o := .mtf a) (acc := Access.quiet) calm rfl hp rfl rfl nodup (Bool.and_false _) rfl rfl only (by rw [core]) rfl
      (fun w hw => keys ▸ List.mem_map_of_mem hw)
  refine Bundled.imp bundle fun e read j hj => ?_
  have sent : (codeF j, boolWord (((s.core n).g a).getLsbD j)) ∈ ws := List.mem_map.2 ⟨j, List.mem_range.2 hj, rfl⟩
  have value := lastWrite_of_mem ((s.core n).rd (codeF j)) (keys ▸ nodup) sent
  rw [Core.flag, read, value, flag_boolWord]

theorem mvr_bundled (q23 : Bool) (k : Fin 4) (d : Fin 32) :
    ResultIn s n (.mvr n p q23 k d Bundle.nop) d (roundedRead ((s.core n).accRd k).toInt ((s.core n).av k) ((s.core n).avDir k) q23).1 := by
  obtain ⟨legal, nodup, placed, unprivileged, flow, reps⟩ := plain_of_writeOp (s.core n) p (o := .mvr q23 k d) rfl
  exact Bundled.of_reg calm rfl hp legal placed nodup (by rw [unprivileged, Bool.and_false]) flow reps
    (State.countRead_only s n _) (State.countRead_core s n _) rfl

/-- An operation whose result stays in flight for more than one bundle. -/
theorem launches_of_later {i : Instr} (o : COp) {lat : Nat} {op : WriteOp}
    (run : exec i s = .next (s.issueC n p o Bundle.nop Access.quiet)) (legal : cLegal o = true) (nodup : (cWrites o).Nodup)
    (placed : (s.core n).placed (s.core n).pc o true = true) (unprivileged : (s.core n).privileged o = false)
    (flow : (s.core n).flow o true = .next) (reps : (s.core n).reps { Bundle.nop with cp := p, c := o } = 0)
    (effect : s.cData n (s.core n) o Access.quiet = s.later n lat op) (late : 1 < lat) : Launches s n i [(lat, op)] := by
  refine Bundled.of_launch (c0 := s.core n) calm run hp legal placed nodup (by rw [unprivileged, Bool.and_false]) flow reps
    (effect ▸ State.later_only s n lat op) ?_ rfl ?_
  · rw [effect, State.core_later, calm.inflight]; rfl
  · simpa using late

end

/-- Settles O11: the flags move as bits, MVA and CLRAV stay in flight, and MFA and MVR read parts and rounded values. -/
theorem fileAndAccumulatorMoves : Obligations.FileAndAccumulatorMoves := by
  unfold Obligations.FileAndAccumulatorMoves
  constructor
  · intro s n p d a file k calm hp c
    exact ⟨⟨_, c.mff_bits, bundled_of_write calm hp (.mff d) rfl rfl rfl⟩, mtf_bundled calm hp a,
      bundled_of_write calm hp (.mtx file k a) rfl rfl rfl, bundled_of_write calm hp (.mfx d file k) rfl rfl rfl⟩
  · intro s n p d a k part mask q23 calm hp c
    refine ⟨?_, fun some => ?_, ?_, ?_, ?_, mvr_bundled calm hp q23 k d⟩
    · exact launches_of_later calm hp (.mva part k a) rfl rfl (List.nodup_singleton _) rfl rfl rfl rfl rfl (by decide)
    · have legal : mask.val ≠ 0 := fun zero => some (Fin.ext zero)
      exact launches_of_later calm hp (.clrav mask) rfl (decide_eq_true legal) List.nodup_nil rfl rfl rfl rfl rfl (by decide)
    · exact mfa_high (c.accRd k) ▸ bundled_of_write calm hp (.mfa .p0 k d) rfl rfl rfl
    · exact mfa_low (c.accRd k) ▸ bundled_of_write calm hp (.mfa .p1 k d) rfl rfl rfl
    · exact mfa_mid (c.accRd k) ▸ bundled_of_write calm hp (.mfa .p2 k d) rfl rfl rfl

end Sys2Proof.Machine
end

section
/-! PROOFS. The operations of the M slot: products, sums of products, complex products and resonator steps; the statement
ProductResults. -/

namespace Sys2Proof.Machine

/-! ### Results in flight -/

/-- From `s` to `t` only core `n` changes, and of it the results in flight, which become `fl`, and counters. -/
def Flies (s t : State) (n : Nat) (fl : List InFlight) : Prop :=
  OnlyCore s t n ∧ t.core n = { s.core n with inflight := fl, pcnt := (t.core n).pcnt }

namespace Flies
variable {s t : State} {n : Nat} {fl : List InFlight}

theorem later (h : Flies s t n fl) (lat : Nat) (op : WriteOp) : Flies s (t.later n lat op) n (fl ++ launched (s.core n) [(lat, op)]) := by
  obtain ⟨only, core⟩ := h
  refine ⟨only.trans (State.later_only ..), ?_⟩
  rw [State.core_later, core]
  rfl

theorem countRead (h : Flies s t n fl) (r : ReadCount) : Flies s (t.countRead n r) n fl := by
  obtain ⟨only, core⟩ := h
  refine ⟨only.trans (State.countRead_only ..), ?_⟩
  rw [State.countRead_core, core]

/-- Results of equal latency, one after the other, each of them perhaps a counted read. -/
theorem foldl {α : Type} {f : State → α → State} (op : α → WriteOp) {lat : Nat}
    (step : ∀ {u : State} {fl : List InFlight} (x : α), Flies s u n fl → Flies s (f u x) n (fl ++ launched (s.core n) [(lat, op x)]))
    (l : List α) (h : Flies s t n fl) : Flies s (l.foldl f t) n (fl ++ launched (s.core n) (l.map (fun x => (lat, op x)))) := by
  induction l generalizing t fl with
  | nil => simpa [launched] using h
  | cons x l ih =>
    rw [List.map_cons, launched, List.map_cons, List.append_cons]
    exact ih (step x h)

end Flies

/-- The results that one execution of an M operation leaves in flight: its accumulators, and the state registers of a resonator step. -/
def mOps (c : Core) (o : MOp) : List (Nat × WriteOp) :=
  (mResults c o 0).map (fun r => (3, .acc r.1 (accWrap r.2.1).1 r.2.2 (accWrap r.2.1).2)) ++
    (cresState c o 0).map (fun r => (3, .reg (c.phys r.1) (roundedRead r.2 false false false).1))

theorem State.mOp_flies {s : State} {n : Nat} (calm : s.Calm n) {o : MOp} (some : o.kind ≠ .nop) :
    Flies s (s.mOp n (s.core n) o 0) n (launched (s.core n) (mOps (s.core n) o)) := by
  have counted : Flies s (s.updCore n (fun d => let e := d.evt 0x09 1; if mComplex o.kind then e.evt 0x0A 1 else e)) n [] := by
    refine ⟨OnlyCore.updCore .., ?_⟩
    rw [State.core_updCore_same, ← calm.inflight]
    dsimp only
    split <;> rfl
  rw [mOps, launched, List.map_append, State.mOp, if_neg some]
  refine Flies.foldl (lat := 3) (fun r : Nat × Int => WriteOp.reg ((s.core n).phys r.1) (roundedRead r.2 false false false).1)
    (fun r h => (h.countRead _).later 3 _) (cresState (s.core n) o 0) ?_
  exact Flies.foldl (lat := 3) (fun r : Nat × Int × Bool => WriteOp.acc r.1 (accWrap r.2.1).1 r.2.2 (accWrap r.2.1).2)
    (fun r h => h.later 3 _) (mResults (s.core n) o 0) counted

section
variable {s : State} {n : Fin 34} {p : Pred} (calm : s.Calm n) (hp : (s.core n).holds p = true)
include calm hp

theorem launches_of_mOp {i : Instr} (o : MOp) (run : exec i s = .next (s.issueM n p o.kind o.n o.a o.b Bundle.nop))
    (some : o.kind ≠ .nop) (legal : mLegal o = true) (nodup : (mWrites o 0).Nodup) : Launches s n i (mOps (s.core n) o) := by
  obtain ⟨only, core⟩ := State.mOp_flies calm some
  refine Bundled.of_m calm run hp some legal nodup only core fun w hw => ?_
  have latency : ∀ x ∈ mOps (s.core n) o, x.1 = 3 := by
    simp only [mOps, List.mem_append, List.mem_map]
    rintro x (⟨r, -, rfl⟩ | ⟨r, -, rfl⟩) <;> rfl
  obtain ⟨x, hx, rfl⟩ := List.mem_map.1 hw
  have := latency x hx
  dsimp only
  omega

end

/-! ### The results of each operation -/

/-- What one exact sum leaves in flight for its accumulator (R175). -/
def sumOp (r : Nat × Int × Bool) : Nat × WriteOp :=
  (3, .acc r.1 (BitVec.ofInt 72 r.2.1) r.2.2
    (if 2 ^ 71 ≤ r.2.1 then some false else if r.2.1 < -(2 ^ 71) then some true else none))

/-- The two-term and the four-term sum. -/
theorem foldl_range_two (f : Nat → Int) : (List.range 2).foldl (fun v i => v + f i) 0 = f 0 + f 1 := by simp [List.range_succ]

theorem foldl_range_four (f : Nat → Int) : (List.range 4).foldl (fun v i => v + f i) 0 = f 0 + f 1 + f 2 + f 3 := by
  simp [List.range_succ]

/-- The registers of an operation on one accumulator, or on a pair. -/
theorem nodup_pair (k : Nat) : [256 + k, 256 + k + 1].Nodup := by simp

section
variable {s : State} {n : Fin 34} {p : Pred} (calm : s.Calm n) (hp : (s.core n).holds p = true)
include calm hp

/-- The sums of an operation that is no resonator step stay in flight. -/
theorem launches_of_sums {i : Instr} (o : MOp) (sums : List (Nat × Int × Bool))
    (run : exec i s = .next (s.issueM n p o.kind o.n o.a o.b Bundle.nop)) (some : o.kind ≠ .nop) (plain : o.kind ≠ .cres0 ∧ o.kind ≠ .cres)
    (legal : mLegal o = true) (nodup : (mWrites o 0).Nodup) (results : mResults (s.core n) o 0 = sums) :
    Launches s n i (sums.map sumOp) := by
  have launches := launches_of_mOp calm hp o run some legal nodup
  rw [mOps, cresState_none plain, List.map_nil, List.append_nil, results] at launches
  exact launches

theorem mul_launches (k : Fin 4) (a b : Fin 32) :
    let c := s.core n
    let ad := addend (c.g a) (c.g b)
    let old := (c.accRd k).toInt
    Launches s n (.mul n p k a b Bundle.nop) ([(k.val, ad, true)].map sumOp) ∧
    Launches s n (.mac n p k a b Bundle.nop) ([(k.val, old + ad, false)].map sumOp) ∧
    Launches s n (.msc n p k a b Bundle.nop) ([(k.val, old - ad, false)].map sumOp) := by
  have single : [256 + k.val].Nodup := List.nodup_singleton _
  refine ⟨launches_of_sums calm hp ⟨.mul, k, a, b⟩ _ rfl nofun ⟨nofun, nofun⟩ rfl single rfl,
    launches_of_sums calm hp ⟨.mac, k, a, b⟩ _ rfl nofun ⟨nofun, nofun⟩ rfl single ?_,
    launches_of_sums calm hp ⟨.msc, k, a, b⟩ _ rfl nofun ⟨nofun, nofun⟩ rfl single ?_⟩
  all_goals rw [← Core.accNow_calm calm.inflight]; rfl

theorem dot2_launches (k : Fin 4) {a b : Fin 32} (ha : a.val % 2 = 0) (hb : b.val % 2 = 0) :
    let c := s.core n
    let dot := addend (c.g a) (c.g b) + addend (c.g (a + 1)) (c.g (b + 1))
    Launches s n (.dot2 n p k a b Bundle.nop) ([(k.val, dot, true)].map sumOp) ∧
    Launches s n (.dot2a n p k a b Bundle.nop) ([(k.val, (c.accRd k).toInt + dot, false)].map sumOp) := by
  have single : [256 + k.val].Nodup := List.nodup_singleton _
  have legal := even_both ha hb
  refine ⟨launches_of_sums calm hp ⟨.dot2, k, a, b⟩ _ rfl nofun ⟨nofun, nofun⟩ legal single ?_,
    launches_of_sums calm hp ⟨.dot2a, k, a, b⟩ _ rfl nofun ⟨nofun, nofun⟩ legal single ?_⟩
  all_goals simp only [mResults, Core.accNow_calm calm.inflight, foldl_range_two]; rfl

theorem dot4_launches (k : Fin 4) {a b : Fin 32} (ha : a.val % 4 = 0) (hb : b.val % 4 = 0) :
    let c := s.core n
    let dot := addend (c.g a) (c.g b) + addend (c.g (a + 1)) (c.g (b + 1)) + addend (c.g (a + 2)) (c.g (b + 2)) +
      addend (c.g (a + 3)) (c.g (b + 3))
    Launches s n (.dot4 n p k a b Bundle.nop) ([(k.val, dot, true)].map sumOp) ∧
    Launches s n (.dot4a n p k a b Bundle.nop) ([(k.val, (c.accRd k).toInt + dot, false)].map sumOp) := by
  have single : [256 + k.val].Nodup := List.nodup_singleton _
  have legal : (decide (a.val % 4 = 0) && decide (b.val % 4 = 0)) = true := by simp [ha, hb]
  refine ⟨launches_of_sums calm hp ⟨.dot4, k, a, b⟩ _ rfl nofun ⟨nofun, nofun⟩ legal single ?_,
    launches_of_sums calm hp ⟨.dot4a, k, a, b⟩ _ rfl nofun ⟨nofun, nofun⟩ legal single ?_⟩
  all_goals simp only [mResults, Core.accNow_calm calm.inflight, foldl_range_four]; rfl

/-- The sums of an operation on the accumulators `k` and `k + 1`. -/
def pairSums (k : Fin 4) (x y : Int) (fresh : Bool) : List (Nat × Int × Bool) := [(k.val, x, fresh), (k.val + 1, y, fresh)]

theorem complex_launches {k : Fin 4} {a b : Fin 32} (hk : k.val % 2 = 0) (ha : a.val % 2 = 0) (hb : b.val % 2 = 0) :
    let c := s.core n
    let ad := fun (i j : Nat) => addend (c.g i) (c.g j)
    let re0 := (c.accRd k).toInt
    let im0 := (c.accRd (k + 1)).toInt
    let re := ad a b - ad (a + 1) (b + 1)
    let im := ad a (b + 1) + ad (a + 1) b
    Launches s n (.cmul n p k a b Bundle.nop) ((pairSums k re im true).map sumOp) ∧
    Launches s n (.cmac n p k a b Bundle.nop) ((pairSums k (re0 + re) (im0 + im) false).map sumOp) ∧
    Launches s n (.cmsc n p k a b Bundle.nop) ((pairSums k (re0 - re) (im0 - im) false).map sumOp) ∧
    Launches s n (.cmacj n p k a b Bundle.nop)
      ((pairSums k (re0 + (ad a b + ad (a + 1) (b + 1))) (im0 + (ad (a + 1) b - ad a (b + 1))) false).map sumOp) := by
  have legal : (decide (k.val % 2 = 0) && decide (a.val % 2 = 0) && decide (b.val % 2 = 0)) = true := by simp [hk, ha, hb]
  have pair := nodup_pair k.val
  refine ⟨launches_of_sums calm hp ⟨.cmul, k, a, b⟩ _ rfl nofun ⟨nofun, nofun⟩ legal pair rfl,
    launches_of_sums calm hp ⟨.cmac, k, a, b⟩ _ rfl nofun ⟨nofun, nofun⟩ legal pair ?_,
    launches_of_sums calm hp ⟨.cmsc, k, a, b⟩ _ rfl nofun ⟨nofun, nofun⟩ legal pair ?_,
    launches_of_sums calm hp ⟨.cmacj, k, a, b⟩ _ rfl nofun ⟨nofun, nofun⟩ legal pair ?_⟩
  all_goals simp only [mResults, Core.accNow_calm calm.inflight]; rfl

/-- The resonator steps put their rounded products back (R201). -/
theorem resonator_launches {k : Fin 4} {a b : Fin 32} (hk : k.val % 2 = 0) (ha : a.val % 2 = 0) (hb : b.val % 2 = 0) (state : 16 ≤ a.val)
    (coef : b.val ≤ 14) :
    let c := s.core n
    let ad := fun (i j : Nat) => addend (c.g i) (c.g j)
    let tr := ad b a - ad (b + 1) (a + 1)
    let ti := ad b (a + 1) + ad (b + 1) a
    let back := [(3, WriteOp.reg (c.phys a) (roundedRead tr false false false).1),
      (3, WriteOp.reg (c.phys (a + 1)) (roundedRead ti false false false).1)]
    Launches s n (.cres0 n p k a b Bundle.nop) ((pairSums k tr ti true).map sumOp ++ back) ∧
    Launches s n (.cres n p k a b Bundle.nop)
      ((pairSums k ((c.accRd k).toInt + tr) ((c.accRd (k + 1)).toInt + ti) false).map sumOp ++ back) := by
  have legal : (decide (k.val % 2 = 0) && decide (a.val % 2 = 0) && decide (16 ≤ a.val) && decide (b.val % 2 = 0) &&
      decide (b.val ≤ 14)) = true := by simp [hk, ha, hb, state, coef]
  have register : 16 + (a.val - 16 + 2 * 0) % 16 = a.val := by omega
  have factor : (b.val + 2 * 0) % 16 = b.val := by omega
  have nodup : ([256 + k.val, 256 + k.val + 1] ++ ((List.range (min 8 (0 + 1))).map (fun i =>
      [16 + (a.val - 16 + 2 * i) % 16, 16 + (a.val - 16 + 2 * i) % 16 + 1])).flatten).Nodup := by
    simp
    omega
  have cres0 := launches_of_mOp calm hp (i := .cres0 n p k a b Bundle.nop) ⟨.cres0, k, a, b⟩ rfl nofun legal nodup
  have cres := launches_of_mOp calm hp (i := .cres n p k a b Bundle.nop) ⟨.cres, k, a, b⟩ rfl nofun legal nodup
  simp only [mOps, mResults, cresState, register, factor, Core.accNow_calm calm.inflight] at cres0 cres
  exact ⟨cres0, cres⟩

end

/-- Settles O12: the exact sums of each operation stay in flight for three bundles, those of a resonator step with its new state. -/
theorem productResults : Obligations.ProductResults := by
  unfold Obligations.ProductResults
  constructor
  · intro s n p k a b calm hp
    obtain ⟨mul, mac, msc⟩ := mul_launches calm hp k a b
    exact ⟨mul, mac, msc, dot2_launches calm hp k, dot4_launches calm hp k⟩
  · intro s n p k a b calm hp hk ha hb
    obtain ⟨cmul, cmac, cmsc, cmacj⟩ := complex_launches calm hp hk ha hb
    exact ⟨cmul, cmac, cmsc, cmacj, resonator_launches calm hp hk ha hb⟩

end Sys2Proof.Machine
end

section
/-! PROOFS. Loads and stores of the front frames (R155, R202), and the statement FrameLoadsAndStores. -/

namespace Sys2Proof.Machine

/-- The core after the count of one event. -/
theorem Flies.evt {s : State} {n : Nat} (calm : s.Calm n) (e k : Nat) : Flies s (s.updCore n (fun d => d.evt e k)) n [] := by
  refine ⟨OnlyCore.updCore .., ?_⟩
  rw [State.core_updCore_same, ← calm.inflight]
  rfl

/-- A G register is no pointer. -/
theorem ne_codeX_of_lt {k : Nat} (h : k < 32) (ptr : Fin 8) : k ≠ codeX .p ptr := by
  have := codeX_lt .p ptr
  omega

theorem acc_ne_codeX (k : Nat) (ptr : Fin 8) : 256 + k ≠ codeX .p ptr := by
  show 256 + k ≠ 32 + ptr.val
  omega

/-- A loaded address register that the operation does not also modify is written once. -/
theorem nodup_memWrites_ldx {c : Core} {reg : Fin 32} {ptr : Fin 8} {am : Addressing} (h : 32 + reg.val ∉ pointerWrites c ptr am 4) :
    (memWrites ⟨.ldx, reg, ptr, am⟩).Nodup := by
  cases am with
  | plain | offset _ => exact List.nodup_singleton _
  | postM _ | postInc | postDec | bitRev =>
    have single : 32 + reg.val ∉ [codeX .p ptr] := h
    exact List.nodup_cons.2 ⟨single, List.nodup_singleton _⟩

/-! ### The pointer of a memory operation -/

/-- What a memory operation does to its pointer, once `u` has met the words (R183). -/
def State.movePointer (u : State) (n : Nat) (c : Core) (ptr : Fin 8) (am : Addressing) (size : Nat) : State :=
  match c.pointerAfter ptr am size with
  | none => u
  | some (q, oor) =>
    let u1 := u.later n 1 (.reg (codeX .p ptr) q)
    if oor then
      let u2 := u1.updCore n (fun d => d.setCr 0 (setFieldOf (d.cr 0) 10 1 1))
      if fieldOf (c.cr 0) 10 1 = 1 then u2 else u2.raise (Page.vc0 + n) 5
    else u1

theorem State.memOp_inWindow {s u : State} {n : Nat} {c : Core} {y : Bool} {o : MemOp} (window : InWindow c o.ptr o.am (memSize o.kind))
    (effect : s.memOp n c y o Access.quiet = u.movePointer n c o.ptr o.am (memSize o.kind)) :
    s.memOp n c y o Access.quiet = (match c.pointerAfter o.ptr o.am (memSize o.kind) with
      | none => u
      | some (q, _) => u.later n 1 (.reg (codeX .p o.ptr) q)) :=
  State.mem_inWindow c y o Access.quiet window u fun _ e => e ▸ effect

/-! ### Accesses of the front frames -/

section
variable {s : State} {n : Fin 34} {p : Pred} (calm : s.Calm n) (hp : (s.core n).holds p = true) (whole : (s.core n).fresh = false)
include calm whole

/-- A load from the front frames, after the count of one event. -/
theorem State.load_front_counted (y : Bool) {a : Nat} (k : Nat) (front : a < 0x4000) :
    (s.updCore n (fun d => d.evt 0x0B 1)).coreLoad n y a k Access.quiet =
      (s.updCore n (fun d => d.evt 0x0B 1), (frontFrame (s.core n) y).slice (a / 4) k) :=
  State.load_front (s := s.updCore n (fun d => d.evt 0x0B 1)) calm.unarmed (State.core_updCore_same s n _) whole y a k front

/-- A store to the front frames by a core of which only results in flight and counters have changed. -/
theorem State.store_front_counted {v : State} {fl : List InFlight} (thawed : (s.core n).front.frozen = false) (flies : Flies s v n fl)
    (y : Bool) {a : Nat} (ws : List Word) (front : a < 0x4000) :
    v.coreStore n y a ws Access.quiet = v.updCore n (fun c => withFront c y (a / 4) ws) := by
  obtain ⟨only, core⟩ := flies
  have unarmed : v.bit (Reg.PAGE_ERR_INJ (Page.vc0 + n)) 30 = false := by
    rw [State.bit, only.reg]
    exact calm.unarmed
  exact State.store_front unarmed core whole thawed y a ws front

include hp

/-- A memory operation that does `f` with words of its front frame, and leaves results in flight. -/
theorem bundled_of_load {i : Instr} {y : Bool} {o : MemOp} (f : State × List Word → State) {k : Nat} {ops : List (Nat × WriteOp)}
    (run : exec i s = .next (s.issueMem n y p o.kind o.reg o.ptr o.am Bundle.nop Access.quiet Access.quiet)) (legal : memLegal o = true)
    (nodup : (memWrites o).Nodup) (front : memAddr (s.core n) o.ptr o.am (memSize o.kind) < 0x4000)
    (window : InWindow (s.core n) o.ptr o.am (memSize o.kind))
    (effect : s.memOp n (s.core n) y o Access.quiet =
      (f ((s.updCore n (fun d => d.evt 0x0B 1)).coreLoad n y (memAddr (s.core n) o.ptr o.am (memSize o.kind)) k Access.quiet)).movePointer n
        (s.core n) o.ptr o.am (memSize o.kind))
    (flies : Flies s (f (s.updCore n (fun d => d.evt 0x0B 1),
      (frontFrame (s.core n) y).slice (memAddr (s.core n) o.ptr o.am (memSize o.kind) / 4) k)) n (launched (s.core n) ops))
    (late : ∀ x ∈ ops, 1 < x.1) :
    Bundled s n i (pointerWrites (s.core n) o.ptr o.am (memSize o.kind)) (launched (s.core n) ops)
      (fun d => PointerMoved (s.core n) d o.ptr o.am (memSize o.kind)) := by
  rw [State.load_front_counted calm whole y k front] at effect
  obtain ⟨only, core⟩ := flies
  refine BundledFrom.mem calm hp run legal nodup window (State.memOp_inWindow window effect) only core rfl fun w hw => ?_
  obtain ⟨x, hx, rfl⟩ := List.mem_map.1 hw
  have := late x hx
  dsimp only
  omega

/-- A memory operation that stores words in its front frame. -/
theorem bundled_of_store {i : Instr} {y : Bool} {o : MemOp} {v : State} {ws : List Word}
    (run : exec i s = .next (s.issueMem n y p o.kind o.reg o.ptr o.am Bundle.nop Access.quiet Access.quiet)) (legal : memLegal o = true)
    (nodup : (memWrites o).Nodup) (thawed : (s.core n).front.frozen = false)
    (front : memAddr (s.core n) o.ptr o.am (memSize o.kind) < 0x4000) (window : InWindow (s.core n) o.ptr o.am (memSize o.kind))
    (flies : Flies s v n [])
    (effect : s.memOp n (s.core n) y o Access.quiet =
      (v.coreStore n y (memAddr (s.core n) o.ptr o.am (memSize o.kind)) ws Access.quiet).movePointer n
        (s.core n) o.ptr o.am (memSize o.kind)) :
    BundledFrom s n i (withFront (s.core n) y (memAddr (s.core n) o.ptr o.am (memSize o.kind) / 4) ws)
      (pointerWrites (s.core n) o.ptr o.am (memSize o.kind)) [] (fun d => PointerMoved (s.core n) d o.ptr o.am (memSize o.kind)) := by
  rw [State.store_front_counted calm whole thawed flies y ws front] at effect
  obtain ⟨only, core⟩ := flies
  obtain ⟨pc, inflight, -⟩ := withFront_fields (s.core n) y (memAddr (s.core n) o.ptr o.am (memSize o.kind) / 4) ws
  refine BundledFrom.mem calm hp run legal nodup window (State.memOp_inWindow window effect) (only.trans (OnlyCore.updCore ..)) ?_ pc
    (by simp)
  rw [← calm.inflight] at core
  rw [State.core_updCore_same, core, withFront_same, ← calm.inflight, ← inflight]

end

/-- Settles O13: the words of the frame stay in flight, or are stored, and the pointer moves with the bundle. -/
theorem frameLoadsAndStores : Obligations.FrameLoadsAndStores := by
  unfold Obligations.FrameLoadsAndStores
  constructor
  · intro s n y p reg ptr am calm hp code whole c f load w4
    have counted := Flies.evt calm 0x0B 1
    refine ⟨fun front window => ?_, fun even front window => ?_, fun low front window => ?_, fun other front window => ?_⟩
    · refine bundled_of_load calm hp whole (o := ⟨.ld, reg, ptr, am⟩) (fun x => x.1.later n 2 (.reg (c.phys reg) (x.2.headD 0))) rfl
        (memLegal_am code rfl) (pointer_nodup ptr am [reg.val] (List.nodup_singleton _) ?_) front window rfl (counted.later 2 _) (by simp)
      simpa using ne_codeX_of_lt reg.isLt ptr
    · refine bundled_of_load calm hp whole (o := ⟨.ld2, reg, ptr, am⟩)
        (fun x => (x.1.later n 2 (.reg (c.phys reg) (x.2.headD 0))).later n 2 (.reg (c.phys (reg.val + 1)) ((x.2[1]?).getD 0))) rfl
        (memLegal_am code (decide_eq_true even)) (pointer_nodup ptr am [reg.val, reg.val + 1] (by simp) ?_) front window rfl
        ((counted.later 2 _).later 2 _) (by simp)
      simpa using ⟨ne_codeX_of_lt reg.isLt ptr, ne_codeX_of_lt (show reg.val + 1 < 32 by omega) ptr⟩
    · refine bundled_of_load calm hp whole (o := ⟨.lda, reg, ptr, am⟩)
        (fun x => x.1.later n 2 (.accPart (reg.val % 4) .p0 (x.2.headD 0))) rfl (memLegal_am code (decide_eq_true low))
        (pointer_nodup ptr am [256 + reg.val % 4] (List.nodup_singleton _) ?_) front window rfl ?_ (by simp)
      · simpa using acc_ne_codeX _ ptr
      · rw [Nat.mod_eq_of_lt low]
        exact counted.later 2 _
    · exact bundled_of_load calm hp whole (o := ⟨.ldx, reg, ptr, am⟩) (fun x => x.1.later n 2 (.reg (32 + reg.val) (x.2.headD 0))) rfl
        (memLegal_am code rfl) (nodup_memWrites_ldx other) front window rfl (counted.later 2 _) (by simp)
  · intro s n y p reg ptr am calm hp code whole thawed c store
    have counted := Flies.evt calm 0x0C 1
    have pointer : ∀ k, (memWrites ⟨k, reg, ptr, am⟩) = memWrites ⟨.st, reg, ptr, am⟩ → (memWrites ⟨k, reg, ptr, am⟩).Nodup :=
      fun k e => e ▸ pointer_nodup ptr am [] List.nodup_nil (by simp)
    refine ⟨fun front window => ?_, fun even front window => ?_, fun low front window => ?_, fun front window => ?_⟩
    · exact bundled_of_store calm hp whole (o := ⟨.st, reg, ptr, am⟩) rfl (memLegal_am code rfl) (pointer _ rfl) thawed front window
        counted rfl
    · exact bundled_of_store calm hp whole (o := ⟨.st2, reg, ptr, am⟩) rfl (memLegal_am code (decide_eq_true even)) (pointer _ rfl) thawed
        front window counted rfl
    · exact bundled_of_store calm hp whole (o := ⟨.stq, reg, ptr, am⟩) rfl (memLegal_am code (decide_eq_true low)) (pointer _ rfl) thawed
        front window (counted.countRead _) rfl
    · exact bundled_of_store calm hp whole (o := ⟨.stx, reg, ptr, am⟩) rfl (memLegal_am code rfl) (pointer _ rfl) thawed front window
        counted rfl

end Sys2Proof.Machine
end

section
/-! PROOFS. Branches and their delay slots; the statement BranchesAndDelaySlots. -/

namespace Sys2Proof.Machine

/-! ### One issue slot -/

/-- Core `d` is core `c` one CORE cycle later, in which the register writes `ws` took hold. -/
structure Core.Ticked (c d : Core) (ws : List (Nat × Word)) : Prop where
  same : d = { c with
    cycle := c.cycle + 1, inflight := [], regs := d.regs, soft := d.soft, pcnt := d.pcnt, tcyc := d.tcyc, aborted := d.aborted
    memUe := d.memUe, recalled := d.recalled, tally := d.tally }
  rd : ∀ k, d.rd k = lastWrite ws k (c.rd k)

theorem Core.due1_filter (c : Core) (ws : List (Nat × Word)) :
    (c.due1 ws).filter (fun w => decide (c.cycle + 1 < w.due)) = [] ∧
      (c.due1 ws).filter (fun w => decide (w.due ≤ c.cycle + 1)) = c.due1 ws := by
  have due : ∀ w ∈ c.due1 ws, w.due = c.cycle + 1 := by
    intro w hw
    obtain ⟨x, -, rfl⟩ := List.mem_map.1 hw
    rfl
  constructor
  · rw [List.filter_eq_nil_iff]
    intro w hw
    simp [due w hw]
  · rw [List.filter_eq_self]
    intro w hw
    simp [due w hw]

theorem Core.foldl_due1 (c : Core) (ws : List (Nat × Word)) (k : Nat) (x : Word) :
    (c.due1 ws).foldl (fun x w => w.applied k x) x = lastWrite ws k x := by
  rw [Core.due1, List.foldl_map]
  rfl

/-- The issue slot of a core whose writes in flight are due in it. -/
theorem State.slotTick_ticked {u : State} {n : Nat} {c : Core} {ws : List (Nat × Word)} (cls : Bool)
    (h : u.core n = { c with inflight := c.due1 ws, pcnt := (u.core n).pcnt }) :
    OnlyCore u (u.slotTick n cls) n ∧ c.Ticked ((u.slotTick n cls).core n) ws := by
  have inflight : (u.core n).inflight = c.due1 ws := by rw [h]
  have cycle : (u.core n).cycle = c.cycle := by rw [h]
  have reads : ∀ k, (u.core n).rd k = c.rd k := by intro k; rw [h]; rfl
  obtain ⟨later, now⟩ := c.due1_filter ws
  have regs : ∀ w ∈ (u.core n).inflight, (∃ k v, w.op = .reg k v) ∨ (u.core n).cycle + 1 < w.due := by
    intro w hw
    rw [inflight] at hw
    obtain ⟨x, -, rfl⟩ := List.mem_map.1 hw
    exact Or.inl ⟨_, _, rfl⟩
  obtain ⟨only, core, rd⟩ := State.slotTick_regs u n cls regs
  rw [inflight, cycle] at core
  rw [inflight, cycle, now] at rd
  rw [later] at core
  refine ⟨only, ?_, fun k => ?_⟩
  · rw [core, h]
  · rw [rd, Core.foldl_due1, reads]

theorem Core.due1_nil (c : Core) : c.due1 [] = [] := rfl

theorem OnlyCore.breakAt {s t : State} {n : Nat} (h : OnlyCore s t n) (m pc : Nat) : t.breakAt m pc = s.breakAt m pc :=
  State.breakAt_congr (by rw [h.1]) m pc

/-- The move to a bundle without a breakpoint, after a change of the core. -/
theorem State.setCore_goto {s t : State} {n : Nat} (only : OnlyCore s t n) (d : Core) {pc : Nat}
    (hb : s.breakAt n (pc % 8192) = none) :
    OnlyCore s ((t.setCore n d).goto n pc) n ∧ ((t.setCore n d).goto n pc).core n = { d with lastPc := d.pc, pc := pc % 8192 } := by
  have set : OnlyCore s (t.setCore n d) n := only.trans (OnlyCore.setCore ..)
  rw [State.goto_plain _ _ _ ((set.breakAt n _).trans hb)]
  refine ⟨set.trans (OnlyCore.updCore ..), ?_⟩
  rw [State.core_updCore_same, State.core_setCore_same]

/-! ### Departure from the straight path -/

/-- A ticked core at the next bundle, with a delay slot to come. -/
theorem Core.Ticked.moved {c d : Core} {ws : List (Nat × Word)} (h : c.Ticked d ws) (x : Option Delay) :
    ({ c with delay := x } : Core).Moved { d with delay := x, fresh := false, lastPc := d.pc, pc := (c.pc + 1) % 8192 }
      (ws.map Prod.fst) [] := by
  have same := h.same
  refine ⟨rfl, ?_, ?_, fun k hk => ?_, fun k _ => ?_, fun k _ => ?_, ?_⟩
  · rw [same]
  · rw [same]
  · exact (h.rd k).trans (lastWrite_of_notMem _ hk)
  · show d.accRd k = c.accRd k
    rw [same]; rfl
  · show d.cr k = c.cr k
    rw [same]; rfl
  · rw [same]

section
variable {s : State} {n : Nat} (calm : s.Calm n)
include calm

/-- A bundle of a calm core after which a delay slot comes. -/
theorem BundledFrom.of_departure {i : Instr} {u : State} {ws : List (Nat × Word)} {x : Option Delay} (only : OnlyCore s u n)
    (core : u.core n = { s.core n with inflight := (s.core n).due1 ws })
    (run : exec i s = .next
      (((u.slotTick n true).updCore n (fun c => { c with delay := x, fresh := false })).goto n ((s.core n).pc + 1))) :
    BundledFrom s n i { s.core n with delay := x } (ws.map Prod.fst) [] (fun d => ∀ k, d.rd k = lastWrite ws k ((s.core n).rd k)) := by
  obtain ⟨tick, ticked⟩ := State.slotTick_ticked (c := s.core n) true (by rw [core])
  obtain ⟨gone, there⟩ := State.setCore_goto (only.trans tick)
    { (u.slotTick n true).core n with delay := x, fresh := false } (pc := (s.core n).pc + 1) calm.unbroken
  refine ⟨_, run, gone, ?_, fun k => ?_⟩
  · exact there ▸ ticked.moved x
  · exact there ▸ ticked.rd k

theorem Core.placed_branch (far : (s.core n).nearEnd (s.core n).pc = false) {o : COp} (branch : isBranch o = true) :
    (s.core n).placed (s.core n).pc o true = true := by
  have slot : (s.core n).delay.isSome = false := by rw [calm.delay]; rfl
  have free : (!(s.core n).delay.isSome && !(s.core n).nearEnd (s.core n).pc) = true := by rw [slot, far]; rfl
  cases o <;> cases branch <;> exact free

variable {p : Pred} (hp : (s.core n).holds p = true)
include hp

/-- A taken branch to `t` leaves its delay slots to be executed. -/
theorem BundledFrom.of_branch {i : Instr} {o : COp} {acc : Access} {t : Nat} {ws : List (Nat × Word)}
    (run : exec i s = .next (s.issueC n p o Bundle.nop acc)) (branch : isBranch o = true) (flow : (s.core n).flow o true = .branch t)
    (nodup : (cWrites o).Nodup) (far : (s.core n).nearEnd (s.core n).pc = false) (only : OnlyCore s (s.cData n (s.core n) o acc) n)
    (core : (s.cData n (s.core n) o acc).core n = { s.core n with inflight := (s.core n).due1 ws }) :
    BundledFrom s n i { s.core n with delay := some { left := 2, target := some t } } (ws.map Prod.fst) []
      (fun d => ∀ k, d.rd k = lastWrite ws k ((s.core n).rd k)) := by
  have placed := Core.placed_branch calm far branch
  have plain : cLegal o = true ∧ ((s.core n).voice && (s.core n).privileged o) = false ∧ (∀ k, o ≠ .rep k) ∧ o ≠ .nop := by
    cases o <;> cases branch <;> exact ⟨rfl, Bool.and_false _, nofun, nofun⟩
  obtain ⟨legal, free, norep, nonop⟩ := plain
  refine BundledFrom.of_departure calm only core (run.trans ?_)
  rw [State.issueC_flow calm p o acc hp legal placed nodup free norep nonop, flow]
  rfl

end

/-- The branches that are taken. -/
theorem taken_branches {s : State} {n : Fin 34} {p : Pred} (calm : s.Calm n) (hp : (s.core n).holds p = true)
    (far : (s.core n).nearEnd (s.core n).pc = false) (t : Fin 8192) (d a : Fin 32) :
    let c := s.core n
    let goes := fun (x : Nat) => { c with delay := some { left := 2, target := some x } }
    BundledFrom s n (.b n p t Bundle.nop) (goes t) [] [] (fun _ => True) ∧
    BundledFrom s n (.br n p a Bundle.nop) (goes ((c.g a).toNat % 8192)) [] [] (fun _ => True) ∧
    BundledFrom s n (.bl n p d t Bundle.nop) (goes t) [c.phys d] []
      (fun e => e.rd (c.phys d) = BitVec.ofNat 32 ((c.pc + 3) % 8192)) := by
  have idle : s.core n = { s.core n with inflight := (s.core n).due1 [] } := by rw [Core.due1_nil, ← calm.inflight]
  have b : BundledFrom s n (.b n p t Bundle.nop) _ _ [] _ :=
    BundledFrom.of_branch calm hp rfl rfl rfl List.nodup_nil far (OnlyCore.refl s n) idle
  have br : BundledFrom s n (.br n p a Bundle.nop) _ _ [] _ :=
    BundledFrom.of_branch calm hp rfl rfl rfl List.nodup_nil far (OnlyCore.refl s n) idle
  have bl : BundledFrom s n (.bl n p d t Bundle.nop) _ _ [] _ :=
    BundledFrom.of_branch calm hp (ws := [((s.core n).phys d, BitVec.ofNat 32 (((s.core n).pc + 3) % 8192))]) rfl rfl rfl
      (List.nodup_singleton _) far (State.later_only ..) (by rw [State.cData, State.gLater, State.core_later, calm.inflight]; rfl)
  exact ⟨b.imp fun _ _ => trivial, br.imp fun _ _ => trivial, bl.imp fun e rd => (rd _).trans (if_pos rfl)⟩

/-! ### Delay slots -/

/-- NOP alone, whatever delay slot it stands in. -/
theorem State.issue_nop_of {s : State} {n : Nat} (ready : s.ready n = true) (unarmed : s.bit (Reg.PAGE_ERR_INJ (Page.vc0 + n)) 30 = false)
    (fetch : ¬ ((s.core n).voice = true ∧ (s.core n).pc < ((s.core n).cr 6).toNat)) :
    s.issue n Bundle.nop Access.quiet Access.quiet = (s.slotTick n false).advance n (s.core n) [] := by
  have legal : (s.core n).legal (s.core n).pc Bundle.nop = true := Core.legal_c _ .always .nop rfl rfl List.nodup_nil
  have free : ((s.core n).holds Bundle.nop.cp && (s.core n).voice && (s.core n).privileged Bundle.nop.c) = false := Bool.and_false _
  unfold State.issue
  simp only [ready, State.detect_off unarmed, State.coreMemCheck_clean unarmed, fetch, legal, free]
  rfl

/-- A core in a delay slot takes no event, so it is ready when it is without the slot. -/
theorem State.ready_of_slot {s : State} {n : Nat} {x : Delay} (slot : (s.core n).delay = some x)
    (ready : (s.setCore n { s.core n with delay := none }).ready n = true) : s.ready n = true := by
  unfold State.ready at ready ⊢
  rw [State.core_setCore_same] at ready
  have noEvent : (s.core n).takesEvent = false := by
    unfold Core.takesEvent
    rw [slot]
    exact Bool.and_false _
  dsimp only at ready ⊢
  rw [noEvent]
  simp only [Bool.and_eq_true] at ready ⊢
  exact ⟨ready.1, rfl⟩

theorem Core.loopAt_idle {c : Core} {l : Nat} (h : c.lc l = 0) : c.loopAt l = none := if_pos h

theorem Core.leaveLoop_idle {c : Core} (h0 : c.lc 0 = 0) (h1 : c.lc 1 = 0) (t : Nat) : c.leaveLoop t = c := by
  unfold Core.leaveLoop
  rw [if_neg (not_not.2 h1)]
  dsimp only
  rw [Core.loopAt_idle h0]

section
variable {s : State} {n : Nat} {target : Option Nat} (calm : (s.setCore n { s.core n with delay := none }).Calm n)
include calm

/-- NOP in a delay slot, an issue slot of which nothing is in flight. -/
theorem State.slot_nop {x : Delay} (slot : (s.core n).delay = some x) :
    s.issue n Bundle.nop Access.quiet Access.quiet = (s.slotTick n false).advance n (s.core n) [] ∧
      OnlyCore s (s.slotTick n false) n ∧ (s.core n).Ticked ((s.slotTick n false).core n) [] := by
  obtain ⟨ready, inflight, -, -, fetch, -, unarmed⟩ := calm
  rw [State.core_setCore_same] at inflight fetch
  exact ⟨State.issue_nop_of (State.ready_of_slot slot ready) unarmed fetch,
    State.slotTick_ticked false (by rw [Core.due1_nil, ← inflight])⟩

theorem State.slot_unbroken : s.breakAt n (((s.core n).pc + 1) % 8192) = none := by
  have unbroken := calm.unbroken
  rw [State.core_setCore_same] at unbroken
  exact unbroken

/-- At a bundle in a delay slot that ends no loop, the core moves on. -/
theorem State.slot_loopStep (c : Core) : c.loopStep (s.core n) (s.core n).pc [] = (c, (s.core n).pc + 1) := by
  have loops := calm.loops
  rw [State.core_setCore_same] at loops
  exact Core.loopStep_plain c (s.core n) [] loops

/-- After the first delay slot the second one is left. -/
theorem State.advance_firstSlot {u : State} (only : OnlyCore s u n) (slot : (s.core n).delay = some { left := 2, target := target }) :
    OnlyCore s (u.advance n (s.core n) []) n ∧ (u.advance n (s.core n) []).core n = { u.core n with
      fresh := false, delay := some { left := 1, target := target }, lastPc := (u.core n).pc, pc := ((s.core n).pc + 1) % 8192 } := by
  unfold State.advance
  rw [slot]
  dsimp only
  rw [State.slot_loopStep calm, State.core_updCore_same]
  exact State.setCore_goto (only.trans (OnlyCore.updCore ..)) _ (State.slot_unbroken calm)

/-- After the second delay slot of a branch that was not taken, execution falls through. -/
theorem State.advance_fallThrough {u : State} (only : OnlyCore s u n) (slot : (s.core n).delay = some { left := 1, target := none }) :
    OnlyCore s (u.advance n (s.core n) []) n ∧ (u.advance n (s.core n) []).core n = { u.core n with
      fresh := false, delay := none, lastPc := (u.core n).pc, pc := ((s.core n).pc + 1) % 8192 } := by
  unfold State.advance
  rw [slot]
  dsimp only
  rw [State.slot_loopStep calm, State.core_updCore_same]
  exact State.setCore_goto (only.trans (OnlyCore.updCore ..)) _ (State.slot_unbroken calm)

end

/-- After the second delay slot of a taken branch outside of any loop, execution is at the target. -/
theorem State.advance_target {s u : State} {n t : Nat} (only : OnlyCore s u n)
    (slot : (s.core n).delay = some { left := 1, target := some t }) (unbroken : s.breakAt n (t % 8192) = none)
    (h0 : (u.core n).lc 0 = 0) (h1 : (u.core n).lc 1 = 0) :
    let v := u.advance n (s.core n) []
    OnlyCore s v n ∧ v.core n = { u.core n with
      fresh := false, delay := none, pcnt := (v.core n).pcnt, lastPc := (u.core n).pc, pc := t % 8192 } := by
  let d : Core := { u.core n with fresh := false, delay := none }
  have depart : ∀ v, OnlyCore s v n → v.core n = d → OnlyCore s ((v.updCore n (fun c => c.evt 0x0F 1)).goto n t) n ∧
      ((v.updCore n (fun c => c.evt 0x0F 1)).goto n t).core n = { d.evt 0x0F 1 with lastPc := d.pc, pc := t % 8192 } := by
    intro v hv core
    rw [State.updCore, core]
    exact State.setCore_goto hv _ unbroken
  have left : ({ u.core n with fresh := false } : Core).leaveLoop t = { u.core n with fresh := false } :=
    Core.leaveLoop_idle (c := { u.core n with fresh := false }) h0 h1 t
  obtain ⟨gone, there⟩ := depart ((u.updCore n (fun c => { c with fresh := false })).updCore n (fun c => { c.leaveLoop t with delay := none }))
    (only.trans ((OnlyCore.updCore ..).trans (OnlyCore.updCore ..)))
    (by rw [State.core_updCore_same, State.core_updCore_same, left])
  unfold State.advance
  rw [slot]
  exact ⟨gone, by rw [there]; rfl⟩

/-- The core after the last delay slot. -/
theorem Core.Ticked.settled {c d e : Core} (ticked : c.Ticked d [])
    (h : e = { d with fresh := false, delay := none, pcnt := e.pcnt, lastPc := d.pc, pc := e.pc }) :
    e.delay = none ∧ (∀ k, e.rd k = c.rd k) ∧ (∀ k, e.accRd k = c.accRd k) ∧ ∀ k, e.cr k = c.cr k := by
  refine ⟨by rw [h], fun k => ?_, fun k => ?_, fun k => ?_⟩
  · rw [h]; exact ticked.rd k
  · rw [h, ticked.same]; rfl
  · rw [h, ticked.same]; rfl

/-- Settles O14: a taken branch departs with two delay slots to come; the first leaves one, and after the second execution is at the
target or falls through. -/
theorem branchesAndDelaySlots : Obligations.BranchesAndDelaySlots := by
  unfold Obligations.BranchesAndDelaySlots
  refine ⟨fun s n p t d a calm hp far => taken_branches calm hp far t d a, fun s n target calm reach lc0 lc1 => ⟨fun slot => ?_, fun slot => ?_⟩⟩
  · obtain ⟨nop, only, ticked⟩ := State.slot_nop calm slot
    obtain ⟨gone, there⟩ := State.advance_firstSlot calm only slot
    refine ⟨_, congrArg Host.Outcome.next nop, gone, ?_, trivial⟩
    rw [there]
    exact ticked.moved _
  · obtain ⟨nop, only, ticked⟩ := State.slot_nop calm slot
    refine ⟨_, congrArg Host.Outcome.next nop, ?_⟩
    cases target with
    | none =>
      obtain ⟨gone, there⟩ := State.advance_fallThrough calm only slot
      obtain ⟨delay, kept⟩ := ticked.settled (e := ((s.slotTick n false).advance n (s.core n) []).core n) (by rw [there])
      exact ⟨gone, delay, by rw [there]; rfl, kept⟩
    | some t =>
      obtain ⟨below, unbroken⟩ := reach t rfl
      rw [← Nat.mod_eq_of_lt below] at unbroken
      have lc : ∀ l, ((s.slotTick n false).core n).lc l = (s.core n).lc l := by
        intro l
        rw [ticked.same]
        rfl
      obtain ⟨gone, there⟩ := State.advance_target only slot unbroken ((lc 0).trans lc0) ((lc 1).trans lc1)
      obtain ⟨delay, kept⟩ := ticked.settled (e := ((s.slotTick n false).advance n (s.core n) []).core n) (by rw [there])
      exact ⟨gone, delay, by rw [there]; exact Nat.mod_eq_of_lt below, kept⟩

end Sys2Proof.Machine
end

section
/-! PROOFS. REP and the starts of loops; the statement LoopStarts. -/

namespace Sys2Proof.Machine

/-! ### REP -/

theorem Core.Ticked.again {c d e : Core} (h : c.Ticked d []) (g : d.Ticked e []) :
    ({ c with cycle := c.cycle + 1 } : Core).Ticked e [] := by
  have same := g.same
  rw [h.same] at same
  exact ⟨by rw [same], fun k => (g.rd k).trans (h.rd k)⟩

/-- Repetitions of a bundle that performs nothing are CORE cycles. -/
theorem State.repeats_idle {s : State} {n : Nat} (b : Bundle) (k : Nat) :
    ∀ {u : State} {c : Core} (i : Nat), OnlyCore s u n → c.Ticked (u.core n) [] →
      OnlyCore s (u.repeats n b false false false i k) n ∧
        ({ c with cycle := c.cycle + k } : Core).Ticked ((u.repeats n b false false false i k).core n) [] := by
  induction k with
  | zero => exact fun i only ticked => ⟨only, ticked⟩
  | succ k ih =>
    intro u c i only ticked
    have idle : (u.core n).inflight = [] := by rw [ticked.same]
    obtain ⟨tick, again⟩ := State.slotTick_ticked (u := u) (c := u.core n) (ws := []) false (by rw [Core.due1_nil, ← idle])
    have one : ({ c with cycle := c.cycle + 1 } : Core).Ticked ((u.slotTick n false).core n) [] := ticked.again again
    rw [State.repeats, State.once_none]
    obtain ⟨more, moved⟩ := ih (c := { c with cycle := c.cycle + 1 }) (i + 1) (only.trans tick) one
    refine ⟨more, ?_⟩
    rw [Nat.add_comm k 1, ← Nat.add_assoc]
    exact moved

/-- The end of a bundle that ends no loop, `d` the core after its cycles. -/
theorem BundledFrom.of_advance {s : State} {n : Nat} (calm : s.Calm n) {i : Instr} {u : State} {written : List Nat} (only : OnlyCore s u n)
    (run : exec i s = .next (u.advance n (s.core n) written)) {c : Core} (ticked : c.Ticked (u.core n) []) (pc : c.pc = (s.core n).pc)
    (slot : c.delay = none) : BundledFrom s n i c [] [] (fun _ => True) := by
  have unbroken : u.breakAt n (((s.core n).pc + 1) % 8192) = none := (only.breakAt n _).trans calm.unbroken
  obtain ⟨gone, there⟩ := State.advance_plain u n (s.core n) written calm.delay calm.loops unbroken
  have moved := ticked.moved none
  rw [show ({ c with delay := none } : Core) = c by rw [← slot]] at moved
  refine ⟨_, run, only.trans gone, ?_, trivial⟩
  rw [there, ← pc]
  have left : (u.core n).delay = none := by rw [ticked.same]; exact slot
  rw [← left] at moved
  exact moved

theorem rep_bundled {s : State} {n : Fin 34} (calm : s.Calm n) {p : Pred} (hp : (s.core n).holds p = true) {count : Count}
    (few : (s.core n).countOf count ≤ 256) :
    BundledFrom s n (.rep n p count Bundle.nop) { s.core n with cycle := (s.core n).cycle + (s.core n).countOf count } [] []
      (fun _ => True) := by
  have fields : cLegal (.rep count) = true := by
    cases count with
    | imm v => exact decide_eq_true few
    | reg r => rfl
  have placed : (s.core n).placed (s.core n).pc (.rep count) true = true := by
    show (!(true && decide (256 < (s.core n).countOf count))) = true
    rw [decide_eq_false (Nat.not_lt.2 few)]
    rfl
  have reps : (s.core n).reps { Bundle.nop with cp := p, c := .rep count } = (s.core n).countOf count := if_pos hp
  have legal := Core.legal_c (s.core n) p (.rep count) fields (by rw [hp]; exact placed) List.nodup_nil
  have issue : s.issueC n p (.rep count) Bundle.nop Access.quiet = ((s.slotTick n true).repeats n
      { Bundle.nop with cp := p, c := .rep count } false false false 1 ((s.core n).countOf count)).advance n (s.core n) [] := by
    unfold State.issueC
    rw [State.issue_calm calm _ Access.quiet Access.quiet legal (Bool.and_false _)]
    dsimp only
    rw [hp, reps]
    rfl
  obtain ⟨tick, ticked⟩ := State.slotTick_ticked (u := s) (n := n) (c := s.core n) (ws := []) true (by rw [Core.due1_nil, ← calm.inflight])
  obtain ⟨only, moved⟩ := State.repeats_idle { Bundle.nop with cp := p, c := .rep count } ((s.core n).countOf count) 1 tick ticked
  exact BundledFrom.of_advance (i := .rep n p count Bundle.nop) calm only (congrArg Host.Outcome.next issue) moved rfl calm.delay

/-! ### LOOP and LOOP.R -/

/-- A list of register writes of a core: what they write, and what they leave alone. -/
theorem Core.foldl_wr (code : Nat → Nat) (v : Nat → Word) (inj : ∀ i j, code i = code j → i = j) (l : List Nat) (c : Core) :
    let d := l.foldl (fun d k => d.wr (code k) (v k) d.voice) c
    d = { c with regs := d.regs, soft := d.soft } ∧ (∀ k, k ∉ l.map code → d.rd k = c.rd k) ∧ ∀ j ∈ l, d.rd (code j) = v j := by
  induction l generalizing c with
  | nil => exact ⟨rfl, fun _ _ => rfl, nofun⟩
  | cons x l ih =>
    obtain ⟨same, kept, written⟩ := ih (c.wr (code x) (v x) c.voice)
    refine ⟨same, fun k hk => ?_, fun j hj => ?_⟩
    · rw [List.map_cons, List.mem_cons, not_or] at hk
      exact (kept k hk.2).trans (by rw [Core.wr_rd, if_neg (Ne.symm hk.1)])
    · by_cases rest : j ∈ l
      · exact written j rest
      · obtain rfl : j = x := (List.mem_cons.1 hj).resolve_right rest
        have last : code j ∉ l.map code := by
          rintro h
          obtain ⟨i, hi, e⟩ := List.mem_map.1 h
          exact rest (inj _ _ e ▸ hi)
        exact (kept _ last).trans (by rw [Core.wr_rd, if_pos rfl])

theorem Core.cr_setCr (c : Core) (k : Nat) (v : Word) (j : Nat) : (c.setCr k v).cr j = if j = k then v else c.cr j :=
  Sparse.get_put ..

section
variable {s : State} {n : Fin 34} (calm : s.Calm n)
include calm

theorem Core.placed_loop {stop : Fin 8192} (body : (s.core n).pc + 2 ≤ stop.val) (level : (s.core n).lc 0 = 0 ∨ (s.core n).lc 1 = 0)
    (rotating : Bool) (still : rotating = true → (s.core n).activeRot = none) :
    (!(s.core n).delay.isSome && decide ((s.core n).pc + 2 ≤ stop.val) && !(true && decide ((s.core n).lc 0 ≠ 0) && decide ((s.core n).lc 1 ≠ 0)) &&
      !(true && rotating && (s.core n).activeRot.isSome)) = true := by
  have levels : (decide ((s.core n).lc 0 ≠ 0) && decide ((s.core n).lc 1 ≠ 0)) = false := by
    rw [Bool.and_eq_false_iff, decide_eq_false_iff_not, decide_eq_false_iff_not, not_not, not_not]
    exact level
  have rot : (rotating && (s.core n).activeRot.isSome) = false := by
    cases rotating with
    | false => rfl
    | true => rw [still rfl]; rfl
  rw [calm.delay, decide_eq_true body, Bool.true_and, levels, Bool.true_and, rot]
  rfl

variable {p : Pred} (hp : (s.core n).holds p = true)
include hp

/-- A loop that starts, `d` the core after the cycle of the bundle. -/
theorem loop_starts {i : Instr} {o : COp} {count stop : Nat} {rot : Option (Nat × Nat)}
    (run : exec i s = .next (s.issueC n p o Bundle.nop Access.quiet)) (legal : cLegal o = true)
    (placed : (s.core n).placed (s.core n).pc o true = true) (free : (s.core n).privileged o = false) (norep : ∀ k, o ≠ .rep k)
    (flow : (s.core n).flow o true = .loop count stop rot) (data : s.cData n (s.core n) o Access.quiet = s) (writes : cWrites o = [])
    (some : count ≠ 0) :
    ∃ t d, exec i s = .next t ∧ OnlyCore s t n ∧ (s.core n).Ticked d [] ∧ t.core n = { d.loopStart (s.core n).pc stop count rot with
      fresh := false, lastPc := (d.loopStart (s.core n).pc stop count rot).pc, pc := ((s.core n).pc + 1) % 8192 } := by
  have issue := State.issueC_flow calm p o Access.quiet hp legal placed (by rw [writes]; exact List.nodup_nil)
    (by rw [free]; exact Bool.and_false _) norep (by rintro rfl; cases flow)
  rw [data, flow, writes] at issue
  obtain ⟨tick, ticked⟩ := State.slotTick_ticked (u := s) (n := n) (c := s.core n) (ws := []) true (by rw [Core.due1_nil, ← calm.inflight])
  let u := (s.slotTick n true).updCore n (fun c => c.loopStart (s.core n).pc stop count rot)
  have only : OnlyCore s u n := tick.trans (OnlyCore.updCore ..)
  obtain ⟨gone, there⟩ := State.advance_plain u n (s.core n) [] calm.delay calm.loops ((only.breakAt n _).trans calm.unbroken)
  rw [State.core_updCore_same] at there
  refine ⟨u.advance n (s.core n) [], (s.slotTick n true).core n, run.trans ?_, only.trans gone, ticked, there⟩
  rw [issue, State.follow, if_neg some]

end

/-! ### The registers of a loop level -/

/-- The level that a loop starts. -/
def Core.nextLevel (c : Core) : Nat := if c.lc 0 = 0 then 0 else 1

/-- The registers of a loop level in `e` are those of a loop that starts at `pc`. -/
def Core.LevelSet (e : Core) (level pc stop count : Nat) : Prop :=
  e.cr (8 + 3 * level) = BitVec.ofNat 32 (pc + 1) ∧ e.cr (9 + 3 * level) = BitVec.ofNat 32 stop ∧
    e.cr (10 + 3 * level) = BitVec.ofNat 32 count

theorem Core.nextLevel_le (c : Core) : c.nextLevel ≤ 1 := by
  unfold Core.nextLevel
  split <;> omega

theorem Core.loopStart_level (c : Core) (pc stop : Nat) {count : Nat} (some : count ≠ 0) :
    let e := c.loopStart pc stop count none
    e = { c with crs := e.crs } ∧ e.LevelSet c.nextLevel pc stop count ∧
      ∀ k, k ≠ 8 + 3 * c.nextLevel → k ≠ 9 + 3 * c.nextLevel → k ≠ 10 + 3 * c.nextLevel → e.cr k = c.cr k := by
  intro e
  have start : e = ((c.setCr (8 + 3 * c.nextLevel) (BitVec.ofNat 32 (pc + 1))).setCr (9 + 3 * c.nextLevel) (BitVec.ofNat 32 stop)).setCr
      (10 + 3 * c.nextLevel) (BitVec.ofNat 32 count) := if_neg some
  have cr : ∀ k, e.cr k = if k = 10 + 3 * c.nextLevel then BitVec.ofNat 32 count else if k = 9 + 3 * c.nextLevel then BitVec.ofNat 32 stop
      else if k = 8 + 3 * c.nextLevel then BitVec.ofNat 32 (pc + 1) else c.cr k := by
    intro k
    rw [start, Core.cr_setCr, Core.cr_setCr, Core.cr_setCr]
  refine ⟨by rw [start]; rfl, ⟨?_, ?_, ?_⟩, fun k h8 h9 h10 => ?_⟩
  · rw [cr, if_neg (by omega), if_neg (by omega), if_pos rfl]
  · rw [cr, if_neg (by omega), if_pos rfl]
  · rw [cr, if_pos rfl]
  · rw [cr, if_neg h10, if_neg h9, if_neg h8]

/-- LOOP.R further clears its rotation and sets the stage predicates of iteration 0. -/
theorem Core.loopStart_rotating (c : Core) (pc stop step stages : Nat) {count : Nat} (some : count ≠ 0) :
    let r : Rotation := { level := c.nextLevel, step := step, stages := stages, total := count, iter := 0 }
    let e := c.loopStart pc stop count (.some (step, stages))
    e = { c with crs := e.crs, regs := e.regs, soft := e.soft, rot := .some r } ∧ e.LevelSet c.nextLevel pc stop count ∧ e.cr 0x0F = 0 ∧
      (∀ k, k ≠ 8 + 3 * c.nextLevel → k ≠ 9 + 3 * c.nextLevel → k ≠ 10 + 3 * c.nextLevel → k ≠ 0x0F → e.cr k = c.cr k) ∧
      (∀ k, k ∉ (List.range stages).map (fun j => codeF (4 + j)) → e.rd k = c.rd k) ∧
      ∀ j < stages, e.flag (4 + j) = stageFlag r 0 j := by
  intro r e
  let c1 := c.loopStart pc stop count none
  obtain ⟨same, ⟨h8, h9, h10⟩, kept⟩ := Core.loopStart_level c pc stop some
  have top := c.nextLevel_le
  have start : e = { (List.range stages).foldl (fun d k => d.wr (codeF (4 + k)) (boolWord (stageFlag r 0 k)) d.voice) (c1.setCr 0x0F 0)
    with rot := .some r } := if_neg some
  obtain ⟨regs, others, flags⟩ := Core.foldl_wr (fun k => codeF (4 + k)) (fun k => boolWord (stageFlag r 0 k))
    (fun i j h => by dsimp only [codeF] at h; omega) (List.range stages) (c1.setCr 0x0F 0)
  have cr : ∀ k, e.cr k = if k = 0x0F then 0 else c1.cr k := by
    intro k
    rw [← Core.cr_setCr, start, regs]
    rfl
  refine ⟨?_, ⟨?_, ?_, ?_⟩, ?_, fun k a8 a9 a10 aF => ?_, fun k hk => ?_, fun j hj => ?_⟩
  · rw [start, regs, show c1 = { c with crs := c1.crs } from same]; rfl
  · rw [cr, if_neg (by omega)]; exact h8
  · rw [cr, if_neg (by omega)]; exact h9
  · rw [cr, if_neg (by omega)]; exact h10
  · rw [cr, if_pos rfl]
  · rw [cr, if_neg aF]; exact kept k a8 a9 a10
  · have unchanged : e.rd k = (c1.setCr 0x0F 0).rd k := by rw [start]; exact others k hk
    rw [unchanged, show c1 = { c with crs := c1.crs } from same]; rfl
  · have written : e.rd (codeF (4 + j)) = boolWord (stageFlag r 0 j) := by rw [start]; exact flags j (List.mem_range.2 hj)
    rw [Core.flag, written, flag_boolWord]

/-- The registers that the start of a loop level writes, as `Core.Moved` names them. -/
def levelRegs (level : Nat) : List Nat := [512 + (8 + 3 * level), 512 + (9 + 3 * level), 512 + (10 + 3 * level)]

theorem notMem_levelRegs {k level : Nat} (h : 512 + k ∉ levelRegs level) : k ≠ 8 + 3 * level ∧ k ≠ 9 + 3 * level ∧ k ≠ 10 + 3 * level := by
  simp only [levelRegs, List.mem_cons, List.not_mem_nil, or_false, not_or] at h
  omega

/-- A core after its cycle, in which a loop started, at the next bundle. -/
theorem Core.Ticked.started {c d e t : Core} {r : Option Rotation} {wr : List Nat} (ticked : c.Ticked d [])
    (same : e = { d with crs := e.crs, regs := e.regs, soft := e.soft, rot := r }) (crs : ∀ k, 512 + k ∉ wr → e.cr k = d.cr k)
    (regs : ∀ k, k ∉ wr → e.rd k = d.rd k) (there : t = { e with fresh := false, lastPc := e.pc, pc := (c.pc + 1) % 8192 }) :
    ({ c with rot := r } : Core).Moved t wr [] := by
  refine ⟨?_, ?_, ?_, fun k hk => ?_, fun k _ => ?_, fun k hk => ?_, ?_⟩
  · rw [there]
  · rw [there, same, ticked.same]
  · rw [there, same, ticked.same]
  · rw [there]; exact (regs k hk).trans (ticked.rd k)
  · rw [there, same, ticked.same]; rfl
  · rw [there]; exact (crs k hk).trans (by rw [ticked.same]; rfl)
  · rw [there, same, ticked.same]

section
variable {s : State} {n : Fin 34} (calm : s.Calm n) {p : Pred} (hp : (s.core n).holds p = true)
include calm hp

theorem loop_bundled {count : Count} {stop : Fin 8192} (body : (s.core n).pc + 2 ≤ stop.val)
    (level : (s.core n).lc 0 = 0 ∨ (s.core n).lc 1 = 0) (some : (s.core n).countOf count % 65536 ≠ 0) :
    Bundled s n (.loop n p count stop Bundle.nop) (levelRegs (s.core n).nextLevel) []
      (fun e => e.LevelSet (s.core n).nextLevel (s.core n).pc stop.val ((s.core n).countOf count % 65536)) := by
  obtain ⟨t, d, run, only, ticked, there⟩ := loop_starts (i := .loop n p count stop Bundle.nop) calm hp rfl rfl
    (Core.placed_loop calm body level false nofun) rfl nofun rfl rfl rfl some
  have next : d.nextLevel = (s.core n).nextLevel := by rw [ticked.same]; rfl
  obtain ⟨same, set, kept⟩ := Core.loopStart_level d (s.core n).pc stop.val some
  rw [next] at set kept
  have still : d.rot = (s.core n).rot := by rw [ticked.same]
  have moved := ticked.started (r := (s.core n).rot) (wr := levelRegs (s.core n).nextLevel) (by rw [same, ← still])
    (fun k hk => by obtain ⟨h8, h9, h10⟩ := notMem_levelRegs hk; exact kept k h8 h9 h10) (fun k _ => by rw [same]; rfl) there
  exact ⟨t, run, only, moved, by rw [there]; exact set⟩

theorem loopR_bundled {count : Count} {stop : Fin 8192} {step : RotStep} {stages : Fin 4} (body : (s.core n).pc + 2 ≤ stop.val)
    (level : (s.core n).lc 0 = 0 ∨ (s.core n).lc 1 = 0) (some : (s.core n).countOf count % 65536 ≠ 0) (still : (s.core n).activeRot = none) :
    BundledFrom s n (.loopR n p count stop step stages Bundle.nop)
      { s.core n with rot := .some { level := (s.core n).nextLevel, step := rotStep step, stages := stages.val + 1,
                                     total := (s.core n).countOf count % 65536, iter := 0 } }
      (levelRegs (s.core n).nextLevel ++ [512 + 0x0F] ++ (List.range (stages.val + 1)).map (fun j => codeF (4 + j))) []
      (fun e => e.LevelSet (s.core n).nextLevel (s.core n).pc stop.val ((s.core n).countOf count % 65536) ∧ e.cr 0x0F = 0 ∧
        ∀ j, j ≤ stages.val → e.flag (4 + j) = decide (j = 0 ∧ stages.val + 1 ≤ (s.core n).countOf count % 65536)) := by
  obtain ⟨t, d, run, only, ticked, there⟩ := loop_starts (i := .loopR n p count stop step stages Bundle.nop) calm hp rfl rfl
    (Core.placed_loop calm body level true (fun _ => still)) rfl nofun rfl rfl rfl some
  have next : d.nextLevel = (s.core n).nextLevel := by rw [ticked.same]; rfl
  obtain ⟨same, set, base, crs, regs, flags⟩ := Core.loopStart_rotating d (s.core n).pc stop.val (rotStep step) (stages.val + 1) some
  rw [next] at same set crs flags
  have moved := ticked.started (wr := levelRegs (s.core n).nextLevel ++ [512 + 0x0F] ++
    (List.range (stages.val + 1)).map (fun j => codeF (4 + j))) same
    (fun k hk => by
      rw [List.mem_append, List.mem_append, not_or, not_or] at hk
      obtain ⟨⟨levels, rrb⟩, -⟩ := hk
      obtain ⟨h8, h9, h10⟩ := notMem_levelRegs levels
      exact crs k h8 h9 h10 (by rintro rfl; exact rrb (List.mem_singleton_self _)))
    (fun k hk => by
      rw [List.mem_append, not_or] at hk
      exact regs k hk.2) there
  refine ⟨t, run, only, moved, ?_⟩
  rw [there]
  refine ⟨set, base, fun j hj => (flags j (by omega)).trans ?_⟩
  unfold stageFlag
  rw [Bool.eq_iff_iff]
  simp only [Bool.and_eq_true, decide_eq_true_eq]
  omega

end

/-- Settles O15: REP is followed by its cycles, and a loop sets the registers of its level after the cycle of its bundle. -/
theorem loopStarts : Obligations.LoopStarts := by
  unfold Obligations.LoopStarts
  intro s n p count stop step stages calm hp body
  have counts : (match count with | .imm v => v.toNat | .reg r => ((s.core n).g r).toNat) = (s.core n).countOf count := by cases count <;> rfl
  intro c k level regs set
  have hk : k = (s.core n).countOf count := counts
  refine ⟨fun few => ?_, fun free some => ?_, fun free some still => ?_⟩
  · rw [hk] at few ⊢
    exact rep_bundled calm hp few
  · rw [hk] at some
    have := loop_bundled calm hp body free some
    rw [← hk] at this
    exact this
  · rw [hk] at some
    have := loopR_bundled calm hp (step := step) (stages := stages) body free some still
    rw [← hk] at this
    exact this

end Sys2Proof.Machine
end

section
/-! PROOFS. Fields of register words, and changes of mode; the statement ModeChanges. -/

namespace Sys2Proof.Machine

/-! ### Fields beside a replaced one -/

theorem setBitsOf_eq (n lo w v : Nat) : setBitsOf n lo w v = 2 ^ lo * (2 ^ w * (n / 2 ^ lo / 2 ^ w) + v % 2 ^ w) + n % 2 ^ lo := by
  unfold setBitsOf bitsOf
  rw [Nat.shiftRight_eq_div_pow]
  have low := Nat.div_add_mod n (2 ^ lo)
  have high := Nat.div_add_mod (n / 2 ^ lo) (2 ^ w)
  have parts : n = 2 ^ lo * (2 ^ w * (n / 2 ^ lo / 2 ^ w)) + n / 2 ^ lo % 2 ^ w * 2 ^ lo + n % 2 ^ lo := by
    rw [Nat.mul_comm (n / 2 ^ lo % 2 ^ w), ← Nat.mul_add, high, low]
  rw [Nat.mul_add, Nat.mul_comm (2 ^ lo) (v % 2 ^ w)]
  omega

theorem testBit_setBitsOf (n lo w v i : Nat) :
    (setBitsOf n lo w v).testBit i = if lo ≤ i ∧ i < lo + w then v.testBit (i - lo) else n.testBit i := by
  rw [setBitsOf_eq, Nat.testBit_two_pow_mul_add _ (Nat.mod_lt _ (Nat.two_pow_pos lo))]
  by_cases low : i < lo
  · rw [if_pos low, if_neg (by omega), Nat.testBit_mod_two_pow, decide_eq_true low, Bool.true_and]
  · rw [if_neg low, Nat.testBit_two_pow_mul_add _ (Nat.mod_lt _ (Nat.two_pow_pos w))]
    by_cases within : i - lo < w
    · rw [if_pos within, if_pos (by omega), Nat.testBit_mod_two_pow, decide_eq_true within, Bool.true_and]
    · rw [if_neg within, if_neg (by omega), Nat.testBit_div_two_pow, Nat.testBit_div_two_pow]
      congr 1
      omega

/-- Replacing a field leaves a field beside it alone. -/
theorem fieldOf_setFieldOf_other (v : Word) (n : Nat) {lo w lo' w' : Nat} (apart : lo' + w' ≤ lo ∨ lo + w ≤ lo') :
    fieldOf (setFieldOf v lo w n) lo' w' = fieldOf v lo' w' := by
  refine Nat.eq_of_testBit_eq fun i => ?_
  unfold fieldOf setFieldOf
  rw [testBit_bitsOf, testBit_bitsOf, BitVec.toNat_ofNat, Nat.testBit_mod_two_pow, testBit_setBitsOf]
  by_cases within : i < w'
  · rw [if_neg (by omega)]
    by_cases bit : lo' + i < 32
    · rw [decide_eq_true bit, Bool.true_and]
    · have top : v.toNat.testBit (lo' + i) = false :=
        Nat.testBit_lt_two_pow (Nat.lt_of_lt_of_le v.isLt (Nat.pow_le_pow_right (by omega) (by omega)))
      rw [top, Bool.and_false]
  · rw [decide_eq_false within, Bool.false_and, Bool.false_and]

/-! ### The mode of a core -/

theorem Core.voice_setVoice (c : Core) (v : Bool) : (c.setVoice v).voice = v := by
  unfold Core.voice Core.setVoice
  rw [Core.cr_setCr, if_pos rfl, fieldOf_setFieldOf_same _ _ (by decide)]
  cases v <;> rfl

/-- A field of CSTAT other than MODE. -/
theorem Core.cstat_setVoice (c : Core) (v : Bool) {lo w : Nat} (h : 1 ≤ lo) : fieldOf ((c.setVoice v).cr 0) lo w = fieldOf (c.cr 0) lo w := by
  unfold Core.setVoice
  rw [Core.cr_setCr, if_pos rfl, fieldOf_setFieldOf_other _ _ (Or.inr h)]

/-- A CORE cycle of a core with nothing in flight. -/
theorem State.coreTick_ticked {u : State} {n : Nat} (cls : Nat) (idle : (u.core n).inflight = []) :
    OnlyCore u (u.coreTick n cls) n ∧ (u.core n).Ticked ((u.coreTick n cls).core n) [] := by
  have slot := Core.slotted_same (u.core n) cls
  have empty : ((u.core n).slotted cls).inflight = [] := by rw [slot]; exact idle
  have none : ∀ w, w ∉ ((u.core n).slotted cls).inflight := by simp [empty]
  obtain ⟨same, rd⟩ := Core.landed_regs ((u.core n).slotted cls) ((u.core n).cycle + 1) (fun w hw => absurd hw (none w))
  obtain ⟨only, core⟩ := State.coreTick_quiet u n cls (fun k _ hk => by rw [same] at hk; exact hk)
  rw [empty] at same rd
  refine ⟨only, ?_, fun k => ?_⟩
  · rw [core, same, slot]
    rfl
  · rw [core, rd, slot]
    rfl

/-- Cycles of a core with nothing in flight. -/
theorem State.coreTicks_ticked {s : State} {n cls : Nat} (k : Nat) :
    ∀ {u : State} {c : Core}, OnlyCore s u n → c.Ticked (u.core n) [] →
      OnlyCore s (u.coreTicks n cls k) n ∧ ({ c with cycle := c.cycle + k } : Core).Ticked ((u.coreTicks n cls k).core n) [] := by
  induction k with
  | zero => exact fun only ticked => ⟨only, ticked⟩
  | succ k ih =>
    intro u c only ticked
    obtain ⟨tick, again⟩ := State.coreTick_ticked (u := u) (n := n) cls (by rw [ticked.same])
    obtain ⟨more, moved⟩ := ih (c := { c with cycle := c.cycle + 1 }) (only.trans tick) (ticked.again again)
    refine ⟨more, ?_⟩
    rw [show c.cycle + (k + 1) = c.cycle + 1 + k by omega]
    exact moved

/-- Core `d` is core `c` three CORE cycles later, but for CSTAT and its position. -/
def Core.Entered (c d : Core) : Prop :=
  d.cycle = c.cycle + 3 ∧ d.inflight = [] ∧ (∀ k, d.rd k = c.rd k) ∧ (∀ k, d.accRd k = c.accRd k) ∧ ∀ k, k ≠ 0 → d.cr k = c.cr k

section
variable {s : State} {n : Fin 34} (calm : s.Calm n)
include calm

theorem Core.placed_modeChange (far : (s.core n).nearEnd (s.core n).pc = false) :
    (!(s.core n).delay.isSome && !(s.core n).nearEnd (s.core n).pc) = true := by
  rw [calm.delay, far]
  rfl

/-- A change of CSTAT to that of `e` after the cycle of a bundle, and the two cycles until its target executes. -/
theorem State.modeChange (f : Core → Core) {e : Core} (hf : ∀ d, (s.core n).Ticked d [] → f d = { d with crs := e.crs })
    (he : ∀ k, k ≠ 0 → e.cr k = (s.core n).cr k) :
    let u := ((s.slotTick n true).updCore n f).coreTicks n 1 2
    OnlyCore s u n ∧ (s.core n).Entered (u.core n) ∧ ∀ k, (u.core n).cr k = e.cr k := by
  obtain ⟨tick, ticked⟩ := State.slotTick_ticked (u := s) (n := n) (c := s.core n) (ws := []) true (by rw [Core.due1_nil, ← calm.inflight])
  have changed : ({ s.core n with crs := e.crs } : Core).Ticked (((s.slotTick n true).updCore n f).core n) [] := by
    rw [State.core_updCore_same, hf _ ticked]
    exact ⟨by rw [ticked.same], ticked.rd⟩
  obtain ⟨only, later⟩ := State.coreTicks_ticked (cls := 1) 2 (tick.trans (OnlyCore.updCore ..)) changed
  refine ⟨only, ⟨?_, ?_, later.rd, fun k => ?_, fun k hk => ?_⟩, fun k => ?_⟩
  · rw [later.same]
  · rw [later.same]
  · rw [later.same]; rfl
  · rw [later.same]; exact he k hk
  · rw [later.same]; rfl

variable {p : Pred} (hp : (s.core n).holds p = true)
include hp

theorem venter_enters (mode : (s.core n).voice = false) (far : (s.core n).nearEnd (s.core n).pc = false) {t : Fin 8192}
    (unbroken : s.breakAt n t = none) :
    ∃ u, exec (.venter n p t Bundle.nop) s = .next u ∧ OnlyCore s u n ∧ (s.core n).Entered (u.core n) ∧ (u.core n).voice = true ∧
      (u.core n).pc = t := by
  obtain ⟨only, entered, cr⟩ := State.modeChange calm (fun c => c.setVoice true) (e := (s.core n).setVoice true)
    (fun d ticked => by rw [ticked.same]; rfl) (fun k hk => by rw [Core.setVoice, Core.cr_setCr, if_neg hk])
  have below : t.val % 8192 = t.val := Nat.mod_eq_of_lt t.isLt
  have issue : s.issueC n p (.venter t) Bundle.nop Access.quiet =
      (((s.slotTick n true).updCore n (fun c => c.setVoice true)).coreTicks n 1 2).goto n t :=
    State.issueC_flow calm p (.venter t) Access.quiet hp rfl (Core.placed_modeChange calm far) List.nodup_nil (by rw [mode]; rfl) nofun
      nofun
  rw [State.goto_plain _ _ _ ((only.breakAt n _).trans (by rw [below]; exact unbroken)), below] at issue
  refine ⟨_, congrArg Host.Outcome.next issue, only.trans (OnlyCore.updCore ..), ?_⟩
  rw [State.core_updCore_same]
  refine ⟨entered, Eq.trans ?_ (Core.voice_setVoice (s.core n) true), rfl⟩
  exact congrArg (fun w => decide (fieldOf w 0 1 = 1)) (cr 0)

/-- The core that ERET returns to, but for its position. -/
def Core.returning (c : Core) : Core := (c.setCr 0 (setFieldOf (c.cr 0) 1 1 1)).setVoice (decide (fieldOf (c.cr 2) 4 1 = 1))

theorem eret_returns (mode : (s.core n).voice = false) (far : (s.core n).nearEnd (s.core n).pc = false) :
    ∃ u, exec (.eret n p Bundle.nop) s = .next u ∧ OnlyCore s u n ∧ (s.core n).Entered (u.core n) ∧
      (u.core n).voice = decide (fieldOf ((s.core n).cr 2) 4 1 = 1) ∧ fieldOf ((u.core n).cr 0) 1 1 = 1 ∧
      (u.core n).pc = ((s.core n).cr 3).toNat % 8192 := by
  obtain ⟨only, entered, cr⟩ := State.modeChange calm
    (fun c => (c.setCr 0 (setFieldOf (c.cr 0) 1 1 1)).setVoice (decide (fieldOf ((s.core n).cr 2) 4 1 = 1))) (e := (s.core n).returning)
    (fun d ticked => by rw [ticked.same]; rfl)
    (fun k hk => by rw [Core.returning, Core.setVoice, Core.cr_setCr, if_neg hk, Core.cr_setCr, if_neg hk])
  have issue : s.issueC n p .eret Bundle.nop Access.quiet = (((s.slotTick n true).updCore n
      (fun c => (c.setCr 0 (setFieldOf (c.cr 0) 1 1 1)).setVoice (decide (fieldOf ((s.core n).cr 2) 4 1 = 1)))).coreTicks n 1 2).updCore n
        (fun c => { c with lastPc := c.pc, pc := ((s.core n).cr 3).toNat % 8192 }) :=
    State.issueC_flow calm p .eret Access.quiet hp rfl (Core.placed_modeChange calm far) List.nodup_nil (by rw [mode]; rfl) nofun nofun
  refine ⟨_, congrArg Host.Outcome.next issue, only.trans (OnlyCore.updCore ..), ?_⟩
  rw [State.core_updCore_same]
  refine ⟨entered, Eq.trans (b := (s.core n).returning.voice) ?_ (Core.voice_setVoice _ _),
    Eq.trans (congrArg (fun w => fieldOf w 1 1) (cr 0)) ?_, rfl⟩
  · exact congrArg (fun w => decide (fieldOf w 0 1 = 1)) (cr 0)
  · rw [Core.returning, Core.cstat_setVoice _ _ (Nat.le_refl 1), Core.cr_setCr, if_pos rfl]
    exact fieldOf_setFieldOf_same _ 1 (by decide)

end

/-- Settles O16: VENTER and ERET change CSTAT after the cycle of their bundle, and two more cycles follow. -/
theorem modeChanges : Obligations.ModeChanges := by
  unfold Obligations.ModeChanges
  intro s n p t calm hp mode far unbroken
  obtain ⟨u, enter, only, ⟨cycle, inflight, kept⟩, voice, pc⟩ := venter_enters calm hp mode far unbroken
  obtain ⟨v, back, only', ⟨cycle', inflight', kept'⟩, voice', eie, pc'⟩ := eret_returns calm hp mode far
  exact ⟨⟨u, enter, ⟨only, cycle, inflight, kept⟩, voice, pc⟩, ⟨v, back, ⟨only', cycle', inflight', kept'⟩, voice', eie, pc'⟩⟩

end Sys2Proof.Machine
end

section
/-! PROOFS. TAKE and YIELD in Runtime mode; the statement TakeAndYield. -/

namespace Sys2Proof.Machine

/-! ### What a CORE cycle does to the counts of a task -/

theorem State.slotTick_counts {u : State} {n : Nat} (cls : Bool) (idle : (u.core n).inflight = []) :
    let c := u.core n
    let d := (u.slotTick n cls).core n
    d.memUe = c.memUe.map (· + 1) ∧ d.tcyc = (if c.task.isSome ∧ ¬ c.halted then c.tcyc + 1 else c.tcyc) ∧
      d.aborted = (if c.halted then c.aborted else c.aborted.map (· + 1)) ∧
      d.recalled = if c.halted then c.recalled else c.recalled.map (· + 1) := by
  let v := u.updCore n (fun c => c.evt (if cls then 2 else 3) 1)
  let k := if cls then 0 else 1
  have core : v.core n = (u.core n).evt (if cls then 2 else 3) 1 := State.core_updCore_same ..
  have slot := Core.slotted_same (v.core n) k
  have none : ∀ w, w ∉ ((v.core n).slotted k).inflight := by
    rw [Core.slotted_inflight, core, Core.evt_inflight, idle]
    exact fun w => List.not_mem_nil
  obtain ⟨same, -⟩ := Core.landed_regs ((v.core n).slotted k) ((v.core n).cycle + 1) (fun w hw => absurd hw (none w))
  obtain ⟨-, tick⟩ := State.coreTick_quiet v n k (fun j _ hj => by rw [same] at hj; exact hj)
  have after : (u.slotTick n cls).core n = ((v.core n).slotted k).landed ((v.core n).cycle + 1) := tick
  have counts : ∀ c : Core, (c.slotted k).memUe = c.memUe.map (· + 1) ∧
      (c.slotted k).tcyc = (if c.task.isSome ∧ ¬ c.halted then c.tcyc + 1 else c.tcyc) ∧
      (c.slotted k).aborted = (if c.halted then c.aborted else c.aborted.map (· + 1)) ∧
      (c.slotted k).recalled = (if c.halted then c.recalled else c.recalled.map (· + 1)) := by
    intro c
    exact ⟨rfl, rfl, rfl, rfl⟩
  rw [after, same, core]
  exact counts _

/-! ### TAKE -/

theorem State.missing_congr {s t : State} {n : Nat} (sch : t.sch = s.sch) (frontA : (t.core n).frontA = (s.core n).frontA)
    (bufA : (t.core n).bufA = (s.core n).bufA) (bufB : (t.core n).bufB = (s.core n).bufB) (buf1 : (t.core n).buf1 = (s.core n).buf1) :
    t.missing n = s.missing n := by
  unfold State.missing Core.back State.taskOf
  dsimp only
  rw [sch, frontA, bufA, bufB, buf1]

/-- A TAKE that starts waits, and counts a Siding miss. -/
theorem State.takeStart_waits {s : State} {n : Nat} (whole : (s.core n).memUe = none) (d : Nat) :
    let u := s.takeStart n d
    u.core n = { s.core n with taking := some { d := d, miss := s.missing n } } ∧ OnlyCore { s with regs := u.regs } u n ∧
      (∀ a, a ≠ Reg.SCH_SIDING_MISS_CNT → u.reg a = s.reg a) ∧
      (u.reg Reg.SCH_SIDING_MISS_CNT).toNat =
        if s.missing n then min 0xFFFFFFFF ((s.reg Reg.SCH_SIDING_MISS_CNT).toNat + 1) else (s.reg Reg.SCH_SIDING_MISS_CNT).toNat := by
  let v := s.updCore n (fun c => { c with taking := some { d := d, miss := s.missing n } })
  have core : v.core n = { s.core n with taking := some { d := d, miss := s.missing n } } := State.core_updCore_same ..
  have waits : OnlyCore s v n := OnlyCore.updCore ..
  have start : s.takeStart n d = if s.missing n then (v.bump Reg.SCH_SIDING_MISS_CNT).corePmu n 6 1 else v := by
    unfold State.takeStart
    rw [whole]
    rfl
  dsimp only
  rw [start]
  by_cases miss : s.missing n = true
  · rw [if_pos miss, if_pos miss]
    have only : OnlyCore (v.bump Reg.SCH_SIDING_MISS_CNT) ((v.bump Reg.SCH_SIDING_MISS_CNT).corePmu n 6 1) n := OnlyCore.corePmu ..
    refine ⟨(State.core_corePmu ..).trans core, ?_, fun a ha => ?_, ?_⟩
    · have frame : OnlyCore { s with regs := (v.bump Reg.SCH_SIDING_MISS_CNT).regs } (v.bump Reg.SCH_SIDING_MISS_CNT) n :=
        ⟨rfl, waits.2⟩
      have regs : ((v.bump Reg.SCH_SIDING_MISS_CNT).corePmu n 6 1).regs = (v.bump Reg.SCH_SIDING_MISS_CNT).regs := by rw [only.1]
      rw [regs]
      exact frame.trans only
    · exact (only.reg a).trans (v.reg_bump_other ha)
    · exact (congrArg BitVec.toNat (only.reg _)).trans (counted_bump v _)
  · rw [if_neg miss, if_neg miss]
    exact ⟨core, waits, fun _ _ => rfl, rfl⟩

section
variable {s : State} {n : Fin 34} (calm : s.Calm n) {p : Pred} (hp : (s.core n).holds p = true)
include calm hp

theorem take_waits (mode : (s.core n).voice = false) (whole : (s.core n).memUe = none) (idle : (s.core n).task = none) (d : Fin 32) :
    ∃ u, exec (.take n p d Bundle.nop) s = .next u ∧ (u.core n).taking = some { d := d, miss := s.missing n } ∧
      (u.core n).pc = (s.core n).pc ∧ (u.core n).cycle = (s.core n).cycle + 1 ∧ OnlyCore { s with regs := u.regs } u n ∧
      (∀ a, a ≠ Reg.SCH_SIDING_MISS_CNT → u.reg a = s.reg a) ∧
      (u.reg Reg.SCH_SIDING_MISS_CNT).toNat =
        if s.missing n then min 0xFFFFFFFF ((s.reg Reg.SCH_SIDING_MISS_CNT).toNat + 1) else (s.reg Reg.SCH_SIDING_MISS_CNT).toNat := by
  obtain ⟨only, ticked⟩ := State.slotTick_ticked (u := s) (n := n) (c := s.core n) (ws := []) true (by rw [Core.due1_nil, ← calm.inflight])
  obtain ⟨memUe, -⟩ := State.slotTick_counts (u := s) (n := n) true calm.inflight
  have still : (s.slotTick n true).missing n = s.missing n :=
    State.missing_congr (by rw [only.1]) (by rw [ticked.same]) (by rw [ticked.same]) (by rw [ticked.same]) (by rw [ticked.same])
  obtain ⟨core, frame, regs, count⟩ := State.takeStart_waits (s := s.slotTick n true) (n := n) (by rw [memUe, whole]; rfl) d
  rw [still] at core count
  have placed : (s.core n).placed (s.core n).pc (.take d) true = true := by
    show (!(true && (s.core n).task.isSome && !(s.core n).voice)) = true
    rw [idle]
    rfl
  have issue := State.issueC_flow calm p (.take d) Access.quiet hp rfl placed (List.nodup_singleton _) (by rw [mode]; rfl) nofun nofun
  refine ⟨_, congrArg Host.Outcome.next issue, ?_, ?_, ?_, ?_, fun a ha => (regs a ha).trans (only.reg a), ?_⟩
  · exact congrArg Core.taking core
  · refine (congrArg Core.pc core).trans ?_
    rw [ticked.same]
  · refine (congrArg Core.cycle core).trans ?_
    rw [ticked.same]
  · have start : OnlyCore { s with regs := ((s.slotTick n true).takeStart n d).regs }
        { s.slotTick n true with regs := ((s.slotTick n true).takeStart n d).regs } n := ⟨by rw [only.1], only.2⟩
    exact start.trans frame
  · refine count.trans ?_
    rw [only.reg]

/-- YIELD in Runtime mode without a dispatched task passes. -/
theorem yieldTask_idle (mode : (s.core n).voice = false) (far : (s.core n).nearEnd (s.core n).pc = false) (idle : (s.core n).task = none)
    (flags : Fin 4) : Bundled s n (.yieldTask n p flags Bundle.nop) [] [] (fun _ => True) := by
  obtain ⟨only, ticked⟩ := State.slotTick_ticked (u := s) (n := n) (c := s.core n) (ws := []) true (by rw [Core.due1_nil, ← calm.inflight])
  have issue : s.issueC n p (.yield_ flags) Bundle.nop Access.quiet = (s.slotTick n true).advance n (s.core n) [] := by
    have issue := State.issueC_flow calm p (.yield_ flags) Access.quiet hp rfl (Core.placed_modeChange calm far) List.nodup_nil
      (by rw [mode]; rfl) nofun nofun
    refine issue.trans ?_
    show (if (s.core n).voice = true then _ else if (s.core n).task.isSome = true then _ else _) = _
    rw [mode, idle]
    rfl
  exact BundledFrom.of_advance (i := .yieldTask n p flags Bundle.nop) calm only (congrArg Host.Outcome.next issue) ticked rfl calm.delay

end

/-! ### YIELD of a dispatched task -/

/-- The core after its task ended: its events ABORTED and RECALL, its task and the counts of the task are gone. -/
def Core.released (c : Core) : Core :=
  { c with
    events := c.events.filter (fun e => decide (e ≠ 5 ∧ e ≠ 7)), task := none, tcyc := 0, aborted := none, tally := [0, 0, 0, 0]
    judged := false }

/-- The front frames are frozen for the state mover. -/
def Core.freeze (c : Core) : Core := c.setFront { c.front with frozen := true }

theorem Core.freeze_front (c : Core) : c.freeze.front.frozen = true := by
  unfold Core.freeze Core.setFront Core.front
  cases h : c.frontA <;> simp

theorem Core.freeze_same (c : Core) : c.freeze = { c with bufA := c.freeze.bufA, bufB := c.freeze.bufB } := by
  unfold Core.freeze Core.setFront
  split <;> rfl

theorem State.order_of_taskOf {s : State} {id : Nat} {k : Task} (found : s.taskOf id = some k) : k.order = id := by
  unfold State.taskOf at found
  exact of_decide_eq_true (List.find?_some (p := fun (t : Task) => decide (t.order = id)) found)

/-- A task after a change that keeps its number. -/
theorem State.taskOf_updTask {s : State} {id : Nat} {k : Task} (found : s.taskOf id = some k) {f : Task → Task}
    (order : ∀ t, (f t).order = t.order) : (s.updTask id f).taskOf id = some (f k) := by
  let g := fun (t : Task) => if decide (t.order = id) then f t else t
  have number : (fun t => decide (t.order = id)) ∘ g = fun t => decide (t.order = id) := by
    funext t
    have : (g t).order = t.order := by
      dsimp only [g]
      split
      · exact order t
      · rfl
    rw [Function.comp_apply, this]
  show (s.sch.tasks.map g).find? (fun t => decide (t.order = id)) = some (f k)
  unfold State.taskOf at found
  rw [List.find?_map, number, found]
  exact congrArg some (if_pos (decide_eq_true (State.order_of_taskOf found)))

/-- YIELD of a task within its limit, on a core that is whole, neither recalled nor with an aborted task. -/
theorem State.yieldTask_within {s : State} {n id : Nat} {k : Task} (task : (s.core n).task = some id) (found : s.taskOf id = some k)
    (within : (s.core n).tcyc ≤ k.limit) (whole : (s.core n).memUe = none) (kept : (s.core n).recalled = none)
    (live : taskAborted (some k) = false) (ended err : Bool) :
    s.yieldTask n ended err = (((s.updCore n Core.released).spend n k ((s.core n).cycle - k.takeAt)).updTask id
      (fun k => { k with phase := .yielded n ended err, tally := (s.core n).tally })).updCore n Core.freeze := by
  have coreTask : s.coreTask n = some k := by
    unfold State.coreTask
    rw [task]
    exact found
  have order := State.order_of_taskOf found
  have limit : decide (k.limit < (s.core n).tcyc) = false := decide_eq_false (Nat.not_lt.2 within)
  unfold State.yieldTask
  rw [coreTask]
  dsimp only
  rw [limit, Bool.false_and]
  simp only [Bool.false_eq_true, if_false, whole, kept, order, found, live, Option.isSome_none]
  rfl

/-- From `s` to `t` only core `n`, counters and the scheduler change. -/
def OnlyYield (s t : State) (n : Nat) : Prop :=
  t = { s with cores := t.cores, pmu := t.pmu, sch := t.sch } ∧ ∀ m, m ≠ n → t.core m = s.core m

theorem OnlyCore.onlyYield {s t : State} {n : Nat} (h : OnlyCore s t n) : OnlyYield s t n := ⟨by rw [h.1], h.2⟩

theorem OnlyYield.trans {s t u : State} {n : Nat} (h : OnlyYield s t n) (g : OnlyYield t u n) : OnlyYield s u n :=
  ⟨by rw [g.1, h.1], fun m hm => (g.2 m hm).trans (h.2 m hm)⟩

theorem State.spend_frame (s : State) (n : Nat) (t : Task) (k : Nat) :
    s.spend n t k = { s with pmu := (s.spend n t k).pmu, sch := (s.spend n t k).sch } := rfl

theorem State.tasks_spend (s : State) (n : Nat) (t : Task) (k : Nat) : (s.spend n t k).sch.tasks = s.sch.tasks := rfl

theorem State.taskOf_congr {s t : State} (h : t.sch.tasks = s.sch.tasks) (id : Nat) : t.taskOf id = s.taskOf id := by
  unfold State.taskOf
  rw [h]

/-- What a YIELD within the limit leaves: the core released and frozen, and the task yielded. -/
theorem State.yieldTask_within_effect {s : State} {n id : Nat} {k : Task} (task : (s.core n).task = some id) (found : s.taskOf id = some k)
    (within : (s.core n).tcyc ≤ k.limit) (whole : (s.core n).memUe = none) (kept : (s.core n).recalled = none)
    (live : taskAborted (some k) = false) (ended err : Bool) :
    let t := s.yieldTask n ended err
    OnlyYield s t n ∧ t.core n = (s.core n).released.freeze ∧ (t.taskOf id).map Task.phase = some (.yielded n ended err) := by
  dsimp only
  rw [State.yieldTask_within task found within whole kept live]
  let r := s.updCore n Core.released
  have spent : (r.spend n k ((s.core n).cycle - k.takeAt)).taskOf id = some k := (State.taskOf_congr (State.tasks_spend ..) id).trans found
  have frame := State.spend_frame r n k ((s.core n).cycle - k.takeAt)
  generalize r.spend n k ((s.core n).cycle - k.takeAt) = v at spent frame
  have core : v.core n = (s.core n).released := by rw [frame]; exact State.core_updCore_same ..
  have others : ∀ m, m ≠ n → v.core m = s.core m := by intro m hm; rw [frame]; exact State.core_updCore_other s _ hm
  have yielded := State.taskOf_updTask spent (f := fun k => { k with phase := .yielded n ended err, tally := (s.core n).tally }) (fun _ => rfl)
  refine ⟨⟨?_, fun m hm => ?_⟩, ?_, congrArg (Option.map Task.phase) yielded⟩
  · rw [frame]; rfl
  · exact (State.core_updCore_other _ _ hm).trans (others m hm)
  · rw [State.core_updCore_same]
    exact congrArg Core.freeze core

theorem State.svc_of_ready {s : State} {n : Nat} (h : s.ready n = true) : (s.core n).svc = 2 ∧ (s.core n).halted = false := by
  unfold State.ready at h
  simp only [Bool.and_eq_true, decide_eq_true_eq, Bool.not_eq_true'] at h
  obtain ⟨⟨⟨⟨svc, halted⟩, -⟩, -⟩, -⟩ := h
  exact ⟨svc, halted⟩

/-- The flags of YIELD as they stand in YFLAGS. -/
theorem yieldFlags (flags : Fin 4) :
    BitVec.ofNat 32 ((if decide (bitsOf flags 0 1 = 1) then 1 else 0) + (if decide (bitsOf flags 1 1 = 1) then 2 else 0)) =
        BitVec.ofNat 32 flags ∧
      decide (bitsOf flags 0 1 = 1) = decide (flags.val % 2 = 1) ∧ decide (bitsOf flags 1 1 = 1) = decide (2 ≤ flags.val) := by
  revert flags
  decide

section
variable {s : State} {n : Fin 34} (calm : s.Calm n) {p : Pred} (hp : (s.core n).holds p = true)
include calm hp

theorem yieldTask_ends (mode : (s.core n).voice = false) (far : (s.core n).nearEnd (s.core n).pc = false) {id : Nat} {k : Task}
    (task : (s.core n).task = some id) (found : s.taskOf id = some k) (within : (s.core n).tcyc + 1 ≤ k.limit)
    (whole : (s.core n).memUe = none) (kept : (s.core n).recalled = none) (live : taskAborted (some k) = false) (flags : Fin 4) :
    ∃ u, exec (.yieldTask n p flags Bundle.nop) s = .next u ∧ (u.core n).task = none ∧ (u.core n).front.frozen = true ∧
      (u.core n).cr 7 = BitVec.ofNat 32 flags ∧ (u.core n).pc = ((s.core n).pc + 1) % 8192 ∧
      (u.taskOf id).map Task.phase = some (.yielded n (decide (flags.val % 2 = 1)) (decide (2 ≤ flags.val))) ∧ OnlyYield s u n := by
  obtain ⟨word, ended, err⟩ := yieldFlags flags
  obtain ⟨svc, running⟩ := State.svc_of_ready calm.ready
  obtain ⟨only, ticked⟩ := State.slotTick_ticked (u := s) (n := n) (c := s.core n) (ws := []) true (by rw [Core.due1_nil, ← calm.inflight])
  obtain ⟨memUe, tcyc, -, recalled⟩ := State.slotTick_counts (u := s) (n := n) true calm.inflight
  let v := (s.slotTick n true).updCore n (fun c => c.setCr 7 (BitVec.ofNat 32 flags))
  have core : v.core n = ((s.slotTick n true).core n).setCr 7 (BitVec.ofNat 32 flags) := State.core_updCore_same ..
  have frame : OnlyCore s v n := only.trans (OnlyCore.updCore ..)
  have atTask : (v.core n).task = some id := by rw [core, Core.setCr, ticked.same]; exact task
  have count : (v.core n).tcyc ≤ k.limit := by
    rw [core, Core.setCr, tcyc, if_pos (by rw [task, running]; exact ⟨rfl, nofun⟩)]
    exact within
  obtain ⟨yield, after, phase⟩ := State.yieldTask_within_effect atTask ((State.taskOf_congr (by rw [frame.1]) id).trans found) count
    (by rw [core, Core.setCr, memUe, whole]; rfl) (by rw [core, Core.setCr, recalled, kept]; exact ite_self _) live
    (decide (bitsOf flags 0 1 = 1)) (decide (bitsOf flags 1 1 = 1))
  have issue : s.issueC n p (.yield_ flags) Bundle.nop Access.quiet = (let t := v.yieldTask n (decide (bitsOf flags 0 1 = 1)) (decide (bitsOf flags 1 1 = 1))
      if (t.core n).svc = 2 then t.advance n (s.core n) [] else t) := by
    refine (State.issueC_flow calm p (.yield_ flags) Access.quiet hp rfl (Core.placed_modeChange calm far) List.nodup_nil
      (by rw [mode]; rfl) nofun nofun).trans ?_
    show (if (s.core n).voice = true then _ else if (s.core n).task.isSome = true then _ else _) = _
    rw [mode, task, word]
    rfl
  generalize v.yieldTask n (decide (bitsOf flags 0 1 = 1)) (decide (bitsOf flags 1 1 = 1)) = t at yield after phase issue
  have all : OnlyYield s t n := frame.onlyYield.trans yield
  have serving : (t.core n).svc = 2 := by rw [after, Core.freeze_same, core, ticked.same]; exact svc
  rw [if_pos serving] at issue
  obtain ⟨gone, there⟩ := State.advance_plain t n (s.core n) [] calm.delay calm.loops
    ((State.breakAt_congr (by rw [all.1]) n _).trans calm.unbroken)
  rw [after] at there
  refine ⟨_, congrArg Host.Outcome.next issue, ?_, ?_, ?_, ?_, ?_, all.trans gone.onlyYield⟩
  · rw [there, Core.freeze_same]; rfl
  · rw [there]; exact Core.freeze_front _
  · rw [there, Core.freeze_same, core]; exact (Core.cr_setCr ..).trans (if_pos rfl)
  · rw [there]
  · rw [State.taskOf_congr (s := t) (by rw [gone.1]), phase, ended, err]

end

/-- Settles O17: a TAKE waits, and a YIELD passes or ends the task before the core moves on. -/
theorem takeAndYield : Obligations.TakeAndYield := by
  unfold Obligations.TakeAndYield
  constructor
  · intro s n p d flags calm hp mode far whole idle
    exact ⟨take_waits calm hp mode whole idle d, yieldTask_idle calm hp mode far idle flags⟩
  · intro s n p flags id k calm hp mode far whole kept _ _ task found within live
    obtain ⟨u, run, task', frozen, yflags, pc, phase, only, others⟩ :=
      yieldTask_ends calm hp mode far task found within whole kept live flags
    exact ⟨u, run, task', frozen, yflags, pc, phase, only, others⟩

end Sys2Proof.Machine
end

section
/-! PROOFS. Rules of the reporting operations: interrupts, the error log, and what commands that only report leave alone. -/

namespace Sys2Proof.Machine

/-! ### Frames of reports -/

theorem OnlyRegs.onlyReports {s t : State} {l : List Nat} (h : OnlyRegs s t l) : OnlyReports s t l := ⟨by rw [h.1], h.2⟩

theorem OnlyRegs.keepsRegs {s t : State} {l : List Nat} (h : OnlyRegs s t l) : KeepsRegs s t l := h.2

theorem KeepsRegs.mono {s t : State} {l m : List Nat} (h : KeepsRegs s t l) (sub : l ⊆ m) : KeepsRegs s t m :=
  fun a ha => h a (fun hl => ha (sub hl))

theorem KeepsRegs.trans {s t u : State} {l m : List Nat} (h : KeepsRegs s t l) (g : KeepsRegs t u m) : KeepsRegs s u (l ++ m) := by
  intro a ha
  rw [List.mem_append, not_or] at ha
  rw [g a ha.2, h a ha.1]

namespace OnlyReports

theorem refl (s : State) (l : List Nat) : OnlyReports s s l := ⟨rfl, fun _ _ => rfl⟩

theorem mono {s t : State} {l m : List Nat} (h : OnlyReports s t l) (sub : l ⊆ m) : OnlyReports s t m :=
  ⟨h.1, KeepsRegs.mono h.2 sub⟩

theorem trans {s t u : State} {l m : List Nat} (h : OnlyReports s t l) (g : OnlyReports t u m) : OnlyReports s u (l ++ m) :=
  ⟨by rw [g.1, h.1], KeepsRegs.trans h.2 g.2⟩

theorem keepsRegs {s t : State} {l : List Nat} (h : OnlyReports s t l) : KeepsRegs s t l := h.2

theorem core {s t : State} {l : List Nat} (h : OnlyReports s t l) (n : Nat) : t.core n = s.core n := by rw [h.1]; rfl

theorem reg {s t : State} {l : List Nat} (h : OnlyReports s t l) {a : Nat} (ha : a ∉ l) : t.reg a = s.reg a := h.2 a ha

theorem fld {s t : State} {l : List Nat} (h : OnlyReports s t l) {a : Nat} (ha : a ∉ l) (lo w : Nat) : t.fld a lo w = s.fld a lo w := by
  rw [State.fld, h.2 a ha, State.fld]

theorem bit {s t : State} {l : List Nat} (h : OnlyReports s t l) {a : Nat} (ha : a ∉ l) (i : Nat) : t.bit a i = s.bit a i := by
  rw [State.bit, h.2 a ha, State.bit]

end OnlyReports

theorem onlyReports_setReg (s : State) (a : Nat) (v : Word) : OnlyReports s (s.setReg a v) [a] := (onlyRegs_setReg s a v).onlyReports

theorem onlyReports_setBit (s : State) (a i : Nat) (b : Bool) : OnlyReports s (s.setBit a i b) [a] := onlyReports_setReg s a _

theorem onlyReports_bump (s : State) (a : Nat) : OnlyReports s (s.bump a) [a] := onlyReports_setReg s a _

theorem onlyReports_count (s : State) (i k : Nat) : OnlyReports s (s.count i k) [] := ⟨rfl, fun _ _ => rfl⟩

theorem onlyReports_send (s : State) (x : Sent) : OnlyReports s (s.send x) [] := ⟨rfl, fun _ _ => rfl⟩

/-! ### Interrupts -/

theorem forall_mem_ite {α : Type} {P : α → Prop} {c : Prop} [Decidable c] {l m : List α} (hl : ∀ x ∈ l, P x) (hm : ∀ x ∈ m, P x) :
    ∀ x ∈ (if c then l else m), P x := by
  split
  · exact hl
  · exact hm

theorem irqSource_lt {p : Nat} : ∀ x ∈ irqBitsOfPage p, x.2 < 64 := by
  unfold irqBitsOfPage
  iterate 23 refine forall_mem_ite (by decide) ?_
  decide

theorem msixPba_mem {v : Nat} (h : v < 64) : Reg.MSIX_PBA (v / 32) ∈ [Reg.MSIX_PBA 0, Reg.MSIX_PBA 1] := by
  have : v / 32 = 0 ∨ v / 32 = 1 := by omega
  rcases this with e | e <;> rw [e] <;> simp

theorem onlyReports_sendMsix (s : State) {v : Nat} (h : v < 64) : OnlyReports s (s.sendMsix v) [Reg.MSIX_PBA 0, Reg.MSIX_PBA 1] := by
  unfold State.sendMsix
  split
  · exact (onlyReports_setBit s _ _ _).mono (by simpa using msixPba_mem h)
  · exact ((onlyReports_send s _).trans (onlyReports_count _ _ _)).mono (List.nil_subset _)

theorem onlyReports_deliver (s old : State) {v : Nat} (h : v < 64) : OnlyReports s (s.deliver old v) [Reg.MSIX_PBA 0, Reg.MSIX_PBA 1] := by
  unfold State.deliver
  split
  · exact onlyReports_sendMsix s h
  · exact OnlyReports.refl s _

/-- A page that raises an interrupt bit sets it; what else changes is reported. -/
theorem State.raise_eq (s : State) (p b : Nat) :
    OnlyReports (s.setBit (Reg.PAGE_IRQ_STAT p) b true) (s.raise p b) [Reg.MSIX_PBA 0, Reg.MSIX_PBA 1] := by
  unfold State.raise
  dsimp only
  split
  · exact onlyReports_deliver _ _ (irqSource_lt _ (List.mem_of_find?_eq_some (by assumption)))
  · exact OnlyReports.refl _ _

theorem onlyReports_raise (s : State) (p b : Nat) : OnlyReports s (s.raise p b) (raiseRegs p) :=
  (onlyReports_setBit s _ b true).trans (s.raise_eq p b)

theorem pageIrqStat_ne_msixPba (p : Nat) : Reg.PAGE_IRQ_STAT p ∉ [Reg.MSIX_PBA 0, Reg.MSIX_PBA 1] := by
  simp only [List.mem_cons, List.not_mem_nil, or_false, not_or, Reg.PAGE_IRQ_STAT, Reg.MSIX_PBA]
  omega

theorem State.reg_raise (s : State) {p a : Nat} (h : a ∉ raiseRegs p) (b : Nat) : (s.raise p b).reg a = s.reg a := (onlyReports_raise s p b).2 a h

theorem State.bit_setBit (s : State) (a : Nat) {i : Nat} (b : Bool) (h : i < 32) (j : Nat) :
    (s.setBit a i b).bit a j = if j = i then b else s.bit a j := by
  by_cases e : j = i
  · rw [if_pos e, e, State.bit_setBit_same s a b h]
  · rw [if_neg e, State.bit, State.reg_setBit, if_pos rfl, fieldOf_setFieldOf_other _ _ (by omega), State.bit]

theorem State.bit_raise (s : State) (p : Nat) {b : Nat} (h : b < 32) (j : Nat) :
    (s.raise p b).bit (Reg.PAGE_IRQ_STAT p) j = if j = b then true else s.bit (Reg.PAGE_IRQ_STAT p) j := by
  rw [(s.raise_eq p b).bit (pageIrqStat_ne_msixPba p), State.bit_setBit s _ _ h]

theorem State.bit_raise_same (s : State) (p : Nat) {b : Nat} (h : b < 32) : (s.raise p b).bit (Reg.PAGE_IRQ_STAT p) b = true := by
  rw [State.bit_raise s p h, if_pos rfl]

/-! ### The error log -/

theorem onlyReports_logError (s : State) (ident sub info : Nat) (injected : Bool) : OnlyReports s (s.logError ident sub info injected) logRegs := by
  have entry : ∀ (k : Nat), k < 16 → [Reg.ERR_LOG_W0 k, Reg.ERR_LOG_W1 k, Reg.ERR_LOG_W2 k, Reg.ERR_LOG_W3 k] ⊆ logRegs := by
    intro k hk a ha
    exact List.mem_append_right _ (List.mem_flatMap.2 ⟨k, List.mem_range.2 hk, ha⟩)
  have place : (if s.bit Reg.ERR_LOG_HEAD 4 then (s.fld Reg.ERR_LOG_HEAD 0 4 + 1) % 16 else 0) < 16 := by split <;> omega
  unfold State.logError
  dsimp only
  generalize (if s.bit Reg.ERR_LOG_HEAD 4 then (s.fld Reg.ERR_LOG_HEAD 0 4 + 1) % 16 else 0) = k at place
  refine (((((((onlyReports_bump s _).trans (onlyReports_count _ _ _)).trans (onlyReports_setReg _ _ _)).trans
    (onlyReports_setReg _ _ _)).trans (onlyReports_setReg _ _ _)).trans (onlyReports_setReg _ _ _)).trans
    (onlyReports_setReg _ _ _)).mono ?_
  have words := entry k place
  simp only [List.cons_subset, List.nil_subset, and_true] at words
  obtain ⟨w0, w1, w2, w3⟩ := words
  have cnt : Reg.ERR_LOG_CNT ∈ logRegs := by decide
  have head : Reg.ERR_LOG_HEAD ∈ logRegs := by decide
  simp only [List.append_subset, List.cons_subset, List.nil_subset, and_true]
  exact ⟨⟨⟨⟨⟨cnt, w0⟩, w1⟩, w2⟩, w3⟩, head⟩

theorem State.reg_logError (s : State) {a : Nat} (h : a ∉ logRegs) (ident sub info : Nat) (injected : Bool) :
    (s.logError ident sub info injected).reg a = s.reg a := (onlyReports_logError s ident sub info injected).2 a h

/-- An entry of the error log counts the error. -/
theorem counted_logError (s : State) (ident sub info : Nat) (injected : Bool) :
    Counted s (s.logError ident sub info injected) Reg.ERR_LOG_CNT := by
  have counted := counted_bump s Reg.ERR_LOG_CNT
  unfold Counted State.logError at *
  dsimp only
  rw [State.reg_setReg_other _ _ (by decide), State.reg_setReg_other _ _ (by unfold Reg.ERR_LOG_CNT Reg.ERR_LOG_W3; omega),
    State.reg_setReg_other _ _ (by unfold Reg.ERR_LOG_CNT Reg.ERR_LOG_W2; omega), State.reg_setReg_other _ _ (by unfold Reg.ERR_LOG_CNT Reg.ERR_LOG_W1; omega),
    State.reg_setReg_other _ _ (by unfold Reg.ERR_LOG_CNT Reg.ERR_LOG_W0; omega), State.reg_count]
  exact counted

/-! ### Errors of a page -/

theorem onlyReports_pageErr (s : State) (p : Nat) : OnlyReports s (s.pageErr p) [Reg.PAGE_ERR_CNT p] := onlyReports_bump s _

theorem onlyReports_pageErrFlag (s : State) (p b : Nat) :
    OnlyReports s (s.pageErrFlag p b) [Reg.PAGE_ERR_STAT p, Reg.PAGE_ERR_CNT p] :=
  (onlyReports_setBit s _ b true).trans (onlyReports_bump _ _)

/-- A count survives what leaves its register alone. -/
theorem Counted.of_reg_eq_after {s t u : State} {a : Nat} (h : Counted s t a) (e : u.reg a = t.reg a) : Counted s u a := by
  rwa [Counted, e]

end Sys2Proof.Machine
end

section
/-! PROOFS. Accumulator results that take hold; the statement AccumulatorsLand. -/

namespace Sys2Proof.Machine

/-! ### The overflow bits of CSTAT -/

/-- AVn and the direction bit of ACn replaced. -/
def Core.markAv (c : Core) (n : Nat) (set neg : Bool) : Core :=
  c.setCr 0 (setFieldOf (setFieldOf (c.cr 0) (2 + n) 1 (if set then 1 else 0)) (6 + n) 1 (if neg then 1 else 0))

theorem Core.clearAv_eq (c : Core) (n : Nat) : c.clearAv n = c.markAv n false false := rfl

theorem Core.setAv_eq (c : Core) (n : Nat) (neg : Bool) : c.setAv n neg = c.markAv n true neg := rfl

theorem bit_field (b : Bool) : decide ((if b then 1 else 0) % 2 ^ 1 = 1) = b := by cases b <;> rfl

theorem Core.av_markAv (c : Core) {n : Nat} (h : n < 4) (set neg : Bool) {j : Nat} (hj : j < 4) :
    (c.markAv n set neg).av j = if j = n then set else c.av j := by
  unfold Core.av Core.markAv
  rw [Core.cr_setCr, if_pos rfl, fieldOf_setFieldOf_other _ _ (by omega)]
  by_cases e : j = n
  · rw [if_pos e, e, fieldOf_setFieldOf_same _ _ (by omega), bit_field]
  · rw [if_neg e, fieldOf_setFieldOf_other _ _ (by omega)]

theorem Core.avDir_markAv (c : Core) {n : Nat} (h : n < 4) (set neg : Bool) {j : Nat} (hj : j < 4) :
    (c.markAv n set neg).avDir j = if j = n then neg else c.avDir j := by
  unfold Core.avDir Core.markAv
  rw [Core.cr_setCr, if_pos rfl]
  by_cases e : j = n
  · rw [if_pos e, e, fieldOf_setFieldOf_same _ _ (by omega), bit_field]
  · rw [if_neg e, fieldOf_setFieldOf_other _ _ (by omega), fieldOf_setFieldOf_other _ _ (by omega)]

/-! ### An accumulator that lands -/

theorem Core.accRd_accWr (c : Core) (n : Nat) (v : BitVec 72) (voice : Bool) (j : Nat) :
    (c.accWr n v voice).accRd j = if j = n then v else c.accRd j := by
  unfold Core.accRd
  have accs : (c.accWr n v voice).accs = Sparse.put (fun _ => none) c.accs n (some v) := rfl
  have gen : (c.accWr n v voice).gen = c.gen := rfl
  rw [accs, gen, Sparse.get_put]
  by_cases h : j = n
  · rw [if_pos h, if_pos h]
  · rw [if_neg h, if_neg h]

/-- What an M-slot result does when it takes hold. -/
structure Core.AccLanded (c d : Core) (n : Nat) (v : BitVec 72) (clear : Bool) (ovf : Option Bool) : Prop where
  same : d = { c with accs := d.accs, crs := d.crs, soft := d.soft, pcnt := d.pcnt }
  value : d.accRd n = v
  accs : ∀ j, j ≠ n → d.accRd j = c.accRd j
  crs : ∀ j, j ≠ 0 → d.cr j = c.cr j
  av : d.av n = (ovf.isSome || (c.av n && !clear))
  dir : ∀ x, ovf = some x → d.avDir n = x
  others : ∀ j, j < 4 → j ≠ n → d.av j = c.av j ∧ d.avDir j = c.avDir j

theorem Core.accLanded_write (c : Core) (n : Nat) (v : BitVec 72) (voice : Bool) : c.AccLanded (c.accWr n v voice) n v false none where
  same := rfl
  value := by rw [Core.accRd_accWr, if_pos rfl]
  accs := fun j hj => by rw [Core.accRd_accWr, if_neg hj]
  crs := fun _ _ => rfl
  av := (Bool.and_true _).symm
  dir := nofun
  others := fun _ _ _ => ⟨rfl, rfl⟩

theorem Core.AccLanded.cleared {c d : Core} {n : Nat} {v : BitVec 72} (h : c.AccLanded d n v false none) (hn : n < 4) :
    c.AccLanded (d.clearAv n) n v true none where
  same := by rw [h.same]; rfl
  value := h.value
  accs := h.accs
  crs := fun j hj => (Core.cr_setCr ..).trans ((if_neg hj).trans (h.crs j hj))
  av := by rw [Core.clearAv_eq, Core.av_markAv d hn _ _ hn, if_pos rfl]; simp
  dir := nofun
  others := fun j hj ne => by
    rw [Core.clearAv_eq, Core.av_markAv d hn _ _ hj, if_neg ne, Core.avDir_markAv d hn _ _ hj, if_neg ne]
    exact h.others j hj ne

theorem Core.AccLanded.overflowed {c d : Core} {n : Nat} {v : BitVec 72} {clear : Bool} (h : c.AccLanded d n v clear none) (hn : n < 4)
    (neg : Bool) : c.AccLanded ((d.setAv n neg).evt 0x13 1) n v clear (some neg) where
  same := by rw [Core.evt_same, h.same]; rfl
  value := h.value
  accs := h.accs
  crs := fun j hj => (Core.cr_setCr ..).trans ((if_neg hj).trans (h.crs j hj))
  av := (Core.av_markAv d hn true neg hn).trans (if_pos rfl)
  dir := fun x hx => ((Core.avDir_markAv d hn true neg hn).trans (if_pos rfl)).trans (Option.some.inj hx)
  others := fun j hj ne => ⟨((Core.av_markAv d hn true neg hj).trans (if_neg ne)).trans (h.others j hj ne).1,
    ((Core.avDir_markAv d hn true neg hj).trans (if_neg ne)).trans (h.others j hj ne).2⟩

theorem Core.land_acc (c : Core) {n due : Nat} (hn : n < 4) (v : BitVec 72) (voice clear : Bool) (ovf : Option Bool) :
    c.AccLanded (c.land { due := due, voice := voice, op := .acc n v clear ovf }) n v clear ovf := by
  have written := c.accLanded_write n v voice
  cases clear <;> cases ovf
  · exact written
  · exact written.overflowed hn _
  · exact written.cleared hn
  · exact (written.cleared hn).overflowed hn _

/-! ### The cycle in which it lands -/

/-- A CORE cycle up to the writes that take hold in it. -/
theorem State.coreTick_landBy (s : State) (n cls : Nat) :
    ∃ u, OnlyCore s u n ∧ u.core n = (s.core n).slotted cls ∧ s.coreTick n cls = u.landBy n ((s.core n).cycle + 1) := by
  refine ⟨_, ?_, ?_, rfl⟩
  · refine OnlyCore.trans (t := (s.setCore n ((s.core n).slotted cls)).corePmu n 0 1) ((OnlyCore.setCore ..).trans (OnlyCore.corePmu ..)) ?_
    split
    · split
      · exact OnlyCore.corePmu ..
      · exact OnlyCore.refl ..
    · exact OnlyCore.corePmu ..
  · have first : ((s.setCore n ((s.core n).slotted cls)).corePmu n 0 1).core n = (s.core n).slotted cls :=
      (State.core_corePmu ..).trans (State.core_setCore_same ..)
    split
    · split
      · exact (State.core_corePmu ..).trans first
      · exact first
    · exact (State.core_corePmu ..).trans first

/-- The last result in flight takes hold, and reports an AV bit that goes from 0 to 1. -/
theorem State.landBy_one {s : State} {n t : Nat} {w : InFlight} (one : (s.core n).inflight = [w]) (due : w.due ≤ t)
    (plain : w.isClrav = false) {k : Nat} (hk : k < 4)
    (others : ∀ j, j < 4 → j ≠ k → (({ s.core n with inflight := [] } : Core).land w).av j = (s.core n).av j) :
    s.landBy n t = (let d := ({ s.core n with inflight := [] } : Core).land w
      if (d.av k && !(s.core n).av k) = true then (s.setCore n d).raise (Page.vc0 + n) 4 else s.setCore n d) := by
  have now : [w].filter (fun w => decide (w.due ≤ t)) = [w] := by simp [due]
  have later : [w].filter (fun w => decide (t < w.due)) = [] := by simp [due]
  unfold State.landBy
  dsimp only
  rw [one, now, later]
  have list : ([w].filter InFlight.isClrav ++ [w].filter (fun w => !w.isClrav)).foldl Core.land { s.core n with inflight := [] } =
      ({ s.core n with inflight := [] } : Core).land w := by simp [plain]
  rw [list]
  have any : ((List.range 4).any (fun j => (({ s.core n with inflight := [] } : Core).land w).av j && !(s.core n).av j)) =
      ((({ s.core n with inflight := [] } : Core).land w).av k && !(s.core n).av k) := by
    rw [Bool.eq_iff_iff, List.any_eq_true]
    constructor
    · rintro ⟨j, hj, set⟩
      by_cases e : j = k
      · rwa [e] at set
      · rw [others j (List.mem_range.1 hj) e, Bool.and_not_self] at set
        cases set
    · exact fun set => ⟨k, List.mem_range.2 hk, set⟩
  rw [any]

theorem State.breakAt_of_reg {s t : State} (ctrl : t.reg Reg.DBG_CTRL = s.reg Reg.DBG_CTRL)
    (page : t.reg (Reg.PAGE_CTRL Page.dbg) = s.reg (Reg.PAGE_CTRL Page.dbg)) (cfg : ∀ k < 8, t.reg (Reg.DBG_BP_CFG k) = s.reg (Reg.DBG_BP_CFG k))
    (n pc : Nat) : t.breakAt n pc = s.breakAt n pc := by
  unfold State.breakAt State.pageOn State.bit
  rw [ctrl, page]
  congr 1
  refine find_same _ _ _ fun k hk => ?_
  dsimp only
  rw [cfg k (List.mem_range.1 hk)]

/-- No interrupt of a core's page changes a breakpoint. -/
theorem State.breakAt_raise (s : State) {m : Nat} (hm : m < 34) (b n pc : Nat) : (s.raise (Page.vc0 + m) b).breakAt n pc = s.breakAt n pc := by
  have apart : ∀ a, 0x1d000 ≤ a → a < 0x1e000 → (s.raise (Page.vc0 + m) b).reg a = s.reg a := by
    intro a h1 h2
    refine s.reg_raise ?_ b
    simp only [raiseRegs, List.mem_cons, List.not_mem_nil, or_false, not_or, Reg.PAGE_IRQ_STAT, Reg.MSIX_PBA, Page.vc0]
    omega
  refine State.breakAt_of_reg (apart _ (by decide) (by decide)) (apart _ (by decide) (by decide)) (fun k hk => apart _ ?_ ?_) n pc
  all_goals unfold Reg.DBG_BP_CFG; omega

theorem notMem_pair {j a b : Nat} (h : j ∉ [a, b]) : j ≠ a ∧ j ≠ b := by
  simpa only [List.mem_cons, List.not_mem_nil, or_false, not_or] using h

section
variable {s : State} {n : Fin 34} {k : Fin 4} {v : BitVec 72} {clear m : Bool} {ovf : Option Bool}

/-- Core `d` is core `c` a CORE cycle later, what was in flight still to land. -/
def Core.Cycled (c d : Core) : Prop :=
  d = { c with
    pcnt := d.pcnt, cycle := c.cycle + 1, tcyc := d.tcyc, aborted := d.aborted, memUe := d.memUe, recalled := d.recalled, tally := d.tally }

theorem Core.cycled_slotted (c : Core) (e k cls : Nat) : c.Cycled ((c.evt e k).slotted cls) := Core.slotted_same (c.evt e k) cls

/-- The core after NOP, in which the accumulator landed as `d`. -/
theorem Core.AccLanded.moved {c c1 d : Core} (slot : c.Cycled c1)
    (landed : ({ c1 with inflight := [] } : Core).AccLanded d k v clear ovf) :
    c.Moved { d with fresh := false, lastPc := d.pc, pc := (c.pc + 1) % 8192 } [256 + k.val, 512] [] := by
  have same := landed.same
  refine ⟨rfl, ?_, ?_, fun j _ => ?_, fun j hj => ?_, fun j hj => ?_, ?_⟩
  · rw [same, slot]
  · rw [same]
  · show d.rd j = c.rd j
    rw [same, slot]; rfl
  · have other : j ≠ k.val := by have := (notMem_pair hj).1; omega
    exact (landed.accs j other).trans (by rw [show c1 = _ from slot]; rfl)
  · have other : j ≠ 0 := by have := (notMem_pair hj).2; omega
    exact (landed.crs j other).trans (by rw [show c1 = _ from slot]; rfl)
  · rw [same, slot]

/-- NOP in the cycle in which an M-slot result takes hold. -/
theorem State.nop_lands (calm : (s.setCore n { s.core n with inflight := [] }).Calm n)
    (one : (s.core n).inflight = [{ due := (s.core n).cycle + 1, voice := m, op := .acc k v clear ovf }]) :
    ∃ t c1 d, exec (.nop n Bundle.nop) s = .next t ∧ (s.core n).Cycled c1 ∧
      ({ c1 with inflight := [] } : Core).AccLanded d k v clear ovf ∧
      t.core n = { d with fresh := false, lastPc := d.pc, pc := ((s.core n).pc + 1) % 8192 } ∧ (∀ j, j ≠ n.val → t.core j = s.core j) ∧
      if (d.av k && !(s.core n).av k) = true then t.bit (Reg.PAGE_IRQ_STAT (Page.vc0 + n)) 4 = true else OnlyCore s t n := by
  obtain ⟨ready, -, delay, loops, fetch, unbroken, unarmed⟩ := calm
  rw [State.core_setCore_same] at delay loops fetch unbroken
  have ready' : s.ready n = true := by
    unfold State.ready at ready ⊢
    rw [State.core_setCore_same] at ready
    exact ready
  -- the cycle
  let u0 := s.updCore n (fun c => c.evt 3 1)
  have core0 : u0.core n = (s.core n).evt 3 1 := State.core_updCore_same ..
  obtain ⟨u, only, core, tick⟩ := State.coreTick_landBy u0 n 1
  let c1 := (u0.core n).slotted 1
  have slot : (s.core n).Cycled c1 := by
    have := (s.core n).cycled_slotted 3 1 1
    rwa [← core0] at this
  -- the result
  have landed : ({ c1 with inflight := [] } : Core).AccLanded _ k v clear ovf :=
    Core.land_acc { c1 with inflight := [] } (due := (s.core n).cycle + 1) k.isLt v m clear ovf
  have av : ∀ j, c1.av j = (s.core n).av j := by intro j; rw [show c1 = _ from slot]; rfl
  have one' : (u.core n).inflight = [{ due := (s.core n).cycle + 1, voice := m, op := .acc k v clear ovf }] := by
    rw [core, Core.slotted_inflight, core0]
    exact one
  have land := State.landBy_one (s := u) (n := n) one' (t := (u0.core n).cycle + 1) (by rw [core0]; exact Nat.le_refl _) rfl k.isLt
    (by rw [core]; exact fun j hj ne => (landed.others j hj ne).1)
  rw [core] at land
  generalize Core.land { (u0.core n).slotted 1 with inflight := [] } _ = d at land landed
  let v1 := u.setCore n d
  have only1 : OnlyCore s v1 n := (OnlyCore.updCore s n _).trans (only.trans (OnlyCore.setCore ..))
  have issue := State.issue_nop_of ready' unarmed fetch
  have slotTick : s.slotTick n false = if (d.av k && !(s.core n).av k) = true then v1.raise (Page.vc0 + n) 4 else v1 := by
    rw [← av k]
    exact tick.trans land
  rw [slotTick] at issue
  -- the move to the next bundle
  have advance : ∀ w : State, (∀ pc, w.breakAt n pc = v1.breakAt n pc) → OnlyCore w (w.advance n (s.core n) []) n ∧
      (w.advance n (s.core n) []).core n = { w.core n with fresh := false, lastPc := (w.core n).pc, pc := ((s.core n).pc + 1) % 8192 } :=
    fun w hw => State.advance_plain w n (s.core n) [] delay loops ((hw _).trans ((only1.breakAt n _).trans unbroken))
  have core1 : v1.core n = d := State.core_setCore_same ..
  by_cases set : (d.av k && !(s.core n).av k) = true
  · rw [if_pos set] at issue
    obtain ⟨gone, there⟩ := advance (v1.raise (Page.vc0 + n) 4) (fun pc => v1.breakAt_raise n.isLt 4 n pc)
    have raised := onlyReports_raise v1 (Page.vc0 + n) 4
    rw [raised.core, core1] at there
    refine ⟨_, c1, d, congrArg Host.Outcome.next issue, slot, landed, there, fun j hj => ?_, ?_⟩
    · rw [gone.2 j hj, raised.core, only1.2 j hj]
    · rw [if_pos set, State.bit, gone.reg]
      exact v1.bit_raise_same (Page.vc0 + n) (by decide)
  · rw [if_neg set] at issue
    obtain ⟨gone, there⟩ := advance v1 (fun _ => rfl)
    rw [core1] at there
    refine ⟨_, c1, d, congrArg Host.Outcome.next issue, slot, landed, there, fun j hj => ?_, ?_⟩
    · rw [gone.2 j hj, only1.2 j hj]
    · rw [if_neg set]
      exact only1.trans gone

end

/-- Settles O21: the result replaces its accumulator and marks CSTAT in the cycle of the bundle. -/
theorem accumulatorsLand : Obligations.AccumulatorsLand := by
  unfold Obligations.AccumulatorsLand
  intro s n k v clear m ovf calm one
  obtain ⟨t, c1, d, run, slot, landed, there, others, report⟩ := State.nop_lands calm one
  have av : ∀ j, c1.av j = (s.core n).av j := by intro j; rw [show c1 = _ from slot]; rfl
  have dir : ∀ j, c1.avDir j = (s.core n).avDir j := by intro j; rw [show c1 = _ from slot]; rfl
  have before : ∀ j, ({ c1 with inflight := [] } : Core).av j = (s.core n).av j := av
  refine ⟨t, run, ?_, ?_, ?_, fun x hx => ?_, fun j hj => ?_, others, ?_⟩
  · rw [there]; exact landed.moved slot
  · rw [there]; exact landed.value
  · rw [there, ← before k]; exact landed.av
  · rw [there]; exact landed.dir x hx
  · rw [there]
    obtain ⟨avs, dirs⟩ := landed.others j j.isLt (fun e => hj (Fin.ext e))
    exact ⟨avs.trans (av j), dirs.trans (dir j)⟩
  · rw [there]; exact report

end Sys2Proof.Machine
end

section
/-! PROOFS. Reads of the Concourse that meet nothing, and the table fetches; the statement TableReads. -/

namespace Sys2Proof.Machine

/-! ### Clean reads of the Concourse -/

theorem State.btTouch_idle {s : State} (h : s.ctl.btBorrow = none) (cls : Cls) (a : Nat) : s.btTouch cls a = s := by
  unfold State.btTouch
  rw [h]
  rfl

theorem State.conCheck_clean {s : State} (unarmed : s.bit (Reg.PAGE_ERR_INJ Page.con) 30 = false) (m : Nat) {a : Nat} (good : a / 16 ∉ s.ctl.bad) :
    s.conCheck m a .clean = (s, false) := by
  have real : (s.ctl.bad.contains (a / 16) || decide (Upset.clean = .lost) || (decide (Upset.clean = .rebuilt) &&
      s.ctl.badParity.contains (conRowKey a))) = false := by simp [good]
  unfold State.conCheck
  dsimp only
  rw [real, State.check_off unarmed]
  simp [State.check_off unarmed]

theorem State.countPort_eq (s : State) (m : Nat) : s.countPort m = { s with pmu := (s.countPort m).pmu } := rfl

theorem State.countPort_ctl (s : State) (m : Nat) : (s.countPort m).ctl = s.ctl := rfl

/-- A read that meets nothing gives the bytes, and counts the access on its port. -/
theorem State.conReadWord_clean {s : State} {a : Nat} (h : s.conClean a) (m : Nat) (cls : Cls) (n : Nat) :
    s.conReadWord m cls a n Access.quiet = (s.countPort m, some (s.conBytes a n)) := by
  obtain ⟨unarmed, idle, good⟩ := h
  have touch : (s.countPort m).btTouch cls a = s.countPort m := State.btTouch_idle (s := s.countPort m) idle cls a
  have check : (s.countPort m).conCheck m a .clean = (s.countPort m, false) := State.conCheck_clean (s := s.countPort m) unarmed m good
  have quiet : Access.quiet.upset = .clean ∧ Access.quiet.rival = none := ⟨rfl, rfl⟩
  unfold State.conReadWord
  rw [touch, quiet.1, quiet.2, check]
  rfl

theorem State.conClean_congr {s t : State} (regs : t.regs = s.regs) (ctl : t.ctl = s.ctl) {a : Nat} (h : s.conClean a) : t.conClean a := by
  unfold State.conClean State.bit State.reg at *
  rwa [regs, ctl]

/-! ### Frames of counted accesses -/

namespace Flies
variable {s t u : State} {n : Nat} {fl : List InFlight}

theorem refl {c : State} (idle : (c.core n).inflight = []) : Flies c c n [] := ⟨OnlyCore.refl c n, by rw [← idle]⟩

theorem conClean (h : Flies s t n fl) {a : Nat} (clean : s.conClean a) : t.conClean a :=
  State.conClean_congr (by rw [h.1.1]) (by rw [h.1.1]) clean

theorem conBytes (h : Flies s t n fl) (a k : Nat) : t.conBytes a k = s.conBytes a k := by rw [h.1.1]; rfl

theorem countPort (h : Flies s t n fl) (m : Nat) : Flies s (t.countPort m) n fl := ⟨h.1.trans (OnlyCore.count ..), h.2⟩

theorem upd {gl : List InFlight} (h : Flies s t n fl) (f : Core → Core)
    (hf : ∀ c : Core, c.inflight = fl → f c = { c with inflight := gl, pcnt := (f c).pcnt }) : Flies s (t.updCore n f) n gl := by
  obtain ⟨only, core⟩ := h
  refine ⟨only.trans (OnlyCore.updCore ..), ?_⟩
  rw [State.core_updCore_same, hf (t.core n) (by rw [core]), core]

/-- A stall of no cycles is only counted. -/
theorem stall_none (h : Flies s t n []) (kind : Nat) : Flies s (t.stall n kind 0) n [] := by
  have evt : Flies s (t.updCore n (fun c => c.evt (6 + kind) 0)) n [] := h.upd _ (fun c idle => by rw [← idle]; rfl)
  have base : Flies s (if (t.core n).judged then t.updCore n (fun c => c.evt (6 + kind) 0)
      else (t.updCore n (fun c => c.evt (6 + kind) 0)).corePmu n (7 + kind) 0) n [] := by
    split
    · exact evt
    · exact ⟨evt.1.trans (OnlyCore.corePmu ..), by rw [State.core_corePmu]; exact evt.2⟩
  exact base.upd (fun c => { c with inflight := c.inflight.map (fun w => { w with due := w.due + 0 }) }) (fun c idle => by rw [idle]; rfl)

end Flies

/-! ### Points of a table region -/

section
variable {s t : State} {n r base k : Nat} {clamp : Bool}

/-- The Concourse address of a point of a table. -/
def tablePoint (base k : Nat) (clamp : Bool) (j : Int) : Nat := base + 4 * reduceIndex clamp (2 ^ k) j

theorem State.fetchPoint_table (table : r < 60) (region : t.tableRegion r = some (base, k, clamp)) (j : Int) (acc : Access) :
    t.fetchPoint n r j acc = (match (t.conReadWord n (t.coreCls n) (tablePoint base k clamp j) 4 acc) with
      | (u, some b) => (u, BitVec.ofNat 32 (leNat b))
      | (u, none) => (u.coreEvent n 1, 0)) := by
  unfold State.fetchPoint
  rw [if_pos table, region]
  show (match (t.conReadWord n (t.coreCls n) (tablePoint base k clamp j) 4 acc).2 with
    | some b => ((t.conReadWord n (t.coreCls n) (tablePoint base k clamp j) 4 acc).1, BitVec.ofNat 32 (leNat b))
    | none => ((t.conReadWord n (t.coreCls n) (tablePoint base k clamp j) 4 acc).1.coreEvent n 1, (0 : Word))) = _
  generalize t.conReadWord n (t.coreCls n) (tablePoint base k clamp j) 4 acc = x
  obtain ⟨u, _ | b⟩ := x <;> rfl

theorem State.fetchPoint_clean (h : Flies s t n []) (table : r < 60) (region : s.tableRegion r = some (base, k, clamp)) {j : Int}
    (clean : s.conClean (tablePoint base k clamp j)) :
    Flies s (t.fetchPoint n r j Access.quiet).1 n [] ∧ (t.fetchPoint n r j Access.quiet).2 = s.conWord (tablePoint base k clamp j) := by
  have region' : t.tableRegion r = some (base, k, clamp) := by rw [h.1.1]; exact region
  rw [State.fetchPoint_table table region', State.conReadWord_clean (h.conClean clean) n (t.coreCls n) 4, h.conBytes]
  exact ⟨h.countPort n, rfl⟩

theorem State.fetchPoints_clean (table : r < 60) (region : s.tableRegion r = some (base, k, clamp)) (points : List Int) :
    ∀ {t : State}, Flies s t n [] → (∀ j ∈ points, s.conClean (tablePoint base k clamp j)) →
      Flies s (t.fetchPoints n r Access.quiet points).1 n [] ∧
        (t.fetchPoints n r Access.quiet points).2 = points.map (fun j => s.conWord (tablePoint base k clamp j)) := by
  induction points with
  | nil => exact fun h _ => ⟨h, rfl⟩
  | cons j points ih =>
    intro t h clean
    obtain ⟨first, word⟩ := State.fetchPoint_clean h table region (clean j List.mem_cons_self)
    obtain ⟨rest, words⟩ := ih first (fun i hi => clean i (List.mem_cons_of_mem j hi))
    exact ⟨rest, by rw [State.fetchPoints, List.map_cons, word, words]⟩

end

/-! ### TREAD and TFETCH -/

/-- The state in which a fetch of a table region reads: the fetch is counted. -/
def State.fetching (s : State) (n : Nat) : State := (s.updCore n (fun c => c.evt 0x0D 1)).stall n 1 0

theorem State.fetching_flies {s : State} {n : Nat} (idle : (s.core n).inflight = []) : Flies s (s.fetching n) n [] := by
  have evt : Flies s (s.updCore n (fun c => c.evt 0x0D 1)) n [] :=
    (Flies.refl idle).upd _ (fun c empty => by rw [← empty]; rfl)
  exact evt.stall_none 1

section
variable {s : State} {n r base k : Nat} {clamp : Bool} (table : r < 60)
include table

theorem State.fetching_regionK (idle : (s.core n).inflight = []) : (s.fetching n).regionK n r = (s.tableRegion r).map (fun x => (x.2.1, x.2.2)) := by
  have same : (s.fetching n).tableRegion r = s.tableRegion r := by rw [(State.fetching_flies idle).1.1]; rfl
  unfold State.regionK
  rw [if_pos table, same]

theorem State.tread_off (idle : (s.core n).inflight = []) (off : s.tableRegion r = none) (a : Word) :
    s.tread n r a Access.quiet = ((s.fetching n).bump Reg.SPF_TBL_ERR_CNT, 0) := by
  have region := State.fetching_regionK (s := s) table idle
  rw [off] at region
  have kind : (if r < 60 then 1 else 2) = 1 := if_pos table
  unfold State.tread
  rw [kind]
  show (match (s.fetching n).regionK n r with | none => _ | some _ => _) = _
  rw [region]
  exact congrArg (·, (0 : Word)) (if_pos table)

theorem State.tread_on (idle : (s.core n).inflight = []) (on : s.tableRegion r = some (base, k, clamp)) {a : Word}
    (clean : s.conClean (tablePoint base k clamp a.toNat)) :
    Flies s (s.tread n r a Access.quiet).1 n [] ∧ (s.tread n r a Access.quiet).2 = s.conWord (tablePoint base k clamp a.toNat) := by
  have region := State.fetching_regionK (s := s) table idle
  rw [on] at region
  have kind : (if r < 60 then 1 else 2) = 1 := if_pos table
  have read : s.tread n r a Access.quiet = (s.fetching n).fetchPoint n r a.toNat Access.quiet := by
    unfold State.tread
    rw [kind]
    show (match (s.fetching n).regionK n r with | none => _ | some _ => _) = _
    rw [region]
    rfl
  rw [read]
  exact State.fetchPoint_clean (State.fetching_flies idle) table on clean

theorem State.tfetch_off (idle : (s.core n).inflight = []) (off : s.tableRegion r = none) (cubic : Bool) (a : Word) :
    s.tfetch n cubic r a Access.quiet = ((s.fetching n).bump Reg.SPF_TBL_ERR_CNT, List.replicate (if cubic then 8 else 4) 0) := by
  have region := State.fetching_regionK (s := s) table idle
  rw [off] at region
  have kind : (if r < 60 then 1 else 2) = 1 := if_pos table
  unfold State.tfetch
  dsimp only
  rw [kind, show (s.updCore n (fun c => c.evt 0x0D 1)).stall n 1 Access.quiet.stall = s.fetching n from rfl, region]
  exact (if_pos table).trans (congrArg (·, _) (if_pos table))

/-- The points that a fetch at `a` reads (R220). -/
def fetchIndices (cubic : Bool) (k : Nat) (a : Word) : List Int :=
  let i : Int := a.toNat / 2 ^ (32 - k)
  if cubic then [i - 1, i, i + 1, i + 2] else [i, i + 1]

/-- The weights of a fetch at `a` (R221). -/
def fetchWeights (cubic : Bool) (k : Nat) (a : Word) : List Word :=
  let f := a.toNat % 2 ^ (32 - k) * 2 ^ (k - 1)
  if cubic then cubicWeights f else linearWeights f

theorem State.tfetch_on (idle : (s.core n).inflight = []) (on : s.tableRegion r = some (base, k, clamp)) {cubic : Bool} {a : Word}
    (clean : ∀ j ∈ fetchIndices cubic k a, s.conClean (tablePoint base k clamp j)) :
    Flies s (s.tfetch n cubic r a Access.quiet).1 n [] ∧ (s.tfetch n cubic r a Access.quiet).2 =
      (fetchIndices cubic k a).map (fun j => s.conWord (tablePoint base k clamp j)) ++ fetchWeights cubic k a := by
  have region := State.fetching_regionK (s := s) table idle
  rw [on] at region
  have kind : (if r < 60 then 1 else 2) = 1 := if_pos table
  have read : s.tfetch n cubic r a Access.quiet =
      (((s.fetching n).fetchPoints n r Access.quiet (fetchIndices cubic k a)).1,
        ((s.fetching n).fetchPoints n r Access.quiet (fetchIndices cubic k a)).2 ++ fetchWeights cubic k a) := by
    unfold State.tfetch
    dsimp only
    rw [kind, show (s.updCore n (fun c => c.evt 0x0D 1)).stall n 1 Access.quiet.stall = s.fetching n from rfl, region]
    cases cubic <;> rfl
  obtain ⟨flies, words⟩ := State.fetchPoints_clean table on (fetchIndices cubic k a) (State.fetching_flies idle) clean
  rw [read]
  exact ⟨flies, by rw [words]⟩

end

/-! ### Bundles of one fetch -/

/-- A core stays calm under a change of a register below the core pages and beside the DBG page. -/
theorem State.Calm.bump {s : State} {n : Nat} (calm : s.Calm n) {a : Nat} (low : a < 0x1d000) : (s.bump a).Calm n := by
  have reg : ∀ b, b ≠ a → (s.bump a).reg b = s.reg b := fun b hb => s.reg_bump_other hb
  have inj : (s.bump a).reg (Reg.PAGE_ERR_INJ (Page.vc0 + n)) = s.reg (Reg.PAGE_ERR_INJ (Page.vc0 + n)) :=
    reg _ (by unfold Reg.PAGE_ERR_INJ Page.vc0; omega)
  obtain ⟨ready, inflight, delay, loops, fetch, unbroken, unarmed⟩ := calm
  refine ⟨ready, inflight, delay, loops, fetch, ?_, ?_⟩
  · exact (State.breakAt_of_reg (reg _ (by unfold Reg.DBG_CTRL; omega)) (reg _ (by unfold Reg.PAGE_CTRL Page.dbg; omega))
      (fun k _ => reg _ (by unfold Reg.DBG_BP_CFG; omega)) n _).trans unbroken
  · rw [State.bit, inj]; exact unarmed

section
variable {s : State} {n : Fin 34} {p : Pred} (calm : s.Calm n) (hp : (s.core n).holds p = true) {i : Instr} {o : COp} {acc : Access}
  (run : exec i s = .next (s.issueC n p o Bundle.nop acc)) (legal : cLegal o = true)
  (placed : (s.core n).placed (s.core n).pc o true = true) (nodup : (cWrites o).Nodup) (free : (s.core n).privileged o = false)
  (flow : (s.core n).flow o true = .next) (norep : ∀ k, o ≠ .rep k) {ops : List (Nat × WriteOp)} (late : ∀ x ∈ ops, 2 ≤ x.1)
include calm hp run legal placed nodup free flow norep late

omit calm hp run legal placed nodup free flow norep in
theorem launched_late (c : Core) : ∀ w ∈ launched c ops, c.cycle + 1 < w.due := by
  intro w hw
  obtain ⟨x, hx, rfl⟩ := List.mem_map.1 hw
  have := late x hx
  dsimp only
  omega

/-- A C operation all of whose results stay in flight. -/
theorem launches_of_flies (flies : Flies s (s.cData n (s.core n) o acc) n (launched (s.core n) ops)) : Launches s n i ops :=
  Bundled.of_launch calm run hp legal placed nodup (by rw [free]; exact Bool.and_false _) flow (Core.reps_of o norep) flies.1 flies.2 rfl
    (launched_late late _)

/-- The same of an operation that counts in a register. -/
theorem counted_of_flies {a : Nat} (low : a < 0x1d000) (flies : Flies (s.bump a) (s.cData n (s.core n) o acc) n (launched (s.core n) ops)) :
    ∃ t, exec i s = .next t ∧ OnlyCore { s with regs := t.regs } t n ∧ (s.core n).Moved (t.core n) [] (launched (s.core n) ops) ∧
      (∀ x, x ≠ a → t.reg x = s.reg x) ∧ Counted s t a := by
  obtain ⟨only, core⟩ := flies
  have late' := launched_late late (s.core n)
  have cycle : ((s.cData n (s.core n) o acc).core n).cycle = (s.core n).cycle := by rw [core]; rfl
  have inflight : ((s.cData n (s.core n) o acc).core n).inflight = launched (s.core n) ops := by rw [core]
  have issue := State.issueC_calm calm p o acc hp legal placed nodup (by rw [free]; exact Bool.and_false _) flow (Core.reps_of o norep)
  obtain ⟨frame, moved, -⟩ := State.bundle_end (calm.bump low) only rfl (by rw [core])
    (fun w hw => by rw [inflight] at hw; rw [cycle]; exact Or.inr (late' w hw)) (decide (o ≠ .nop)) (cWrites o) []
    (fun w hw due => by rw [inflight] at hw; rw [cycle] at due; exact absurd (late' w hw) (Nat.not_lt.2 due))
  have stays : (launched (s.core n) ops).filter (fun w => decide ((s.core n).cycle + 1 < w.due)) = launched (s.core n) ops :=
    List.filter_eq_self.2 fun w hw => decide_eq_true (late' w hw)
  rw [inflight, cycle, stays] at moved
  refine ⟨_, run.trans (congrArg Host.Outcome.next issue), frame.of_regs rfl, Core.Moved.rebase moved (by rw [core]; rfl), fun x hx => ?_, ?_⟩
  · exact (frame.reg x).trans (s.reg_bump_other hx)
  · exact (counted_bump s a).of_reg_eq_after (frame.reg a)

end

theorem OnlyCore.bump {s t : State} {n : Nat} (h : OnlyCore s t n) (a : Nat) : OnlyCore (s.bump a) (t.bump a) n := by
  obtain ⟨same, others⟩ := h
  generalize t.cores = cores, t.pmu = pmu at same
  subst same
  exact ⟨rfl, others⟩

theorem Flies.bump {s t : State} {n : Nat} {fl : List InFlight} (h : Flies s t n fl) (a : Nat) : Flies (s.bump a) (t.bump a) n fl :=
  ⟨h.1.bump a, h.2⟩

/-- The result words of a TFETCH in flight, into the group of registers from `8 * g` on. -/
def groupOps (c : Core) (g : Nat) (ws : List Word) : List (Nat × WriteOp) :=
  ws.zipIdx.map (fun x => (8, WriteOp.reg (c.phys (8 * g + x.2)) x.1))

theorem groupOps_eq (c : Core) (g : Nat) (ws : List Word) :
    groupOps c g ws = (List.range ws.length).map (fun i => (8, WriteOp.reg (c.phys (8 * g + i)) ((ws[i]?).getD 0))) := by
  refine List.ext_getElem (by simp [groupOps]) fun i h1 h2 => ?_
  have : i < ws.length := by simpa [groupOps] using h1
  simp [groupOps, this]

theorem groupOps_late (c : Core) (g : Nat) (ws : List Word) : ∀ x ∈ groupOps c g ws, 2 ≤ x.1 := by
  intro x hx
  obtain ⟨y, -, rfl⟩ := List.mem_map.1 hx
  dsimp only
  omega

/-- The words of a group are put in flight one by one. -/
theorem Flies.group {s t : State} {n : Nat} (h : Flies s t n []) (g : Nat) (ws : List Word) :
    Flies s ((List.range ws.length).foldl (fun u i => u.gLater n (s.core n) 8 (8 * g + i) ((ws[i]?).getD 0)) t) n
      (launched (s.core n) (groupOps (s.core n) g ws)) := by
  rw [groupOps_eq]
  exact Flies.foldl (lat := 8) (fun i => WriteOp.reg ((s.core n).phys (8 * g + i)) ((ws[i]?).getD 0)) (fun i h => h.later 8 _)
    (List.range ws.length) h

theorem nodup_group (cubic : Bool) (g : Nat) : ((List.range (if cubic then 8 else 4)).map (fun i => 8 * g + i)).Nodup :=
  List.Nodup.map (fun i j (h : 8 * g + i = 8 * g + j) => by omega) List.nodup_range

section
variable {s : State} {n : Fin 34} {p : Pred} (calm : s.Calm n) (hp : (s.core n).holds p = true) {r : Fin 64} (table : r.val < 60)
include calm hp table

theorem tread_off_bundle (off : s.tableRegion r = none) (d a : Fin 32) :
    ∃ t, exec (.tread n p r d a Bundle.nop Access.quiet) s = .next t ∧ OnlyCore { s with regs := t.regs } t n ∧
      (s.core n).Moved (t.core n) [] (launched (s.core n) [(8, .reg ((s.core n).phys d) 0)]) ∧
      (∀ x, x ≠ Reg.SPF_TBL_ERR_CNT → t.reg x = s.reg x) ∧ Counted s t Reg.SPF_TBL_ERR_CNT := by
  have data : s.cData n (s.core n) (.tread r d a) Access.quiet =
      ((s.fetching n).bump Reg.SPF_TBL_ERR_CNT).gLater n (s.core n) 8 d 0 := by
    unfold State.cData
    dsimp only
    rw [State.tread_off table calm.inflight off]
  have flies := ((State.fetching_flies calm.inflight).bump Reg.SPF_TBL_ERR_CNT).later 8 (.reg ((s.core n).phys d) 0)
  exact counted_of_flies calm hp (o := .tread r d a) rfl rfl rfl (List.nodup_singleton _) rfl rfl nofun (by simp) (by decide) (by rw [data]; exact flies)

theorem tread_on_bundle {base k : Nat} {clamp : Bool} (on : s.tableRegion r = some (base, k, clamp)) {d a : Fin 32}
    (clean : s.conClean (tablePoint base k clamp ((s.core n).g a).toNat)) :
    Launches s n (.tread n p r d a Bundle.nop Access.quiet)
      [(8, .reg ((s.core n).phys d) (s.conWord (tablePoint base k clamp ((s.core n).g a).toNat)))] := by
  obtain ⟨flies, word⟩ := State.tread_on (n := n) table calm.inflight on clean
  refine launches_of_flies calm hp (o := .tread r d a) rfl rfl rfl (List.nodup_singleton _) rfl rfl nofun (by simp) ?_
  rw [← word]
  exact flies.later 8 _

theorem tfetch_off_bundle (off : s.tableRegion r = none) (cubic : Bool) (g : Fin 4) (a : Fin 32) :
    ∃ t, exec (.tfetch n p cubic r g a Bundle.nop Access.quiet) s = .next t ∧ OnlyCore { s with regs := t.regs } t n ∧
      (s.core n).Moved (t.core n) [] (launched (s.core n) (groupOps (s.core n) g (List.replicate (if cubic then 8 else 4) 0))) ∧
      (∀ x, x ≠ Reg.SPF_TBL_ERR_CNT → t.reg x = s.reg x) ∧ Counted s t Reg.SPF_TBL_ERR_CNT := by
  have words := State.tfetch_off (n := n) table calm.inflight off cubic ((s.core n).g a)
  have flies := ((State.fetching_flies calm.inflight).bump Reg.SPF_TBL_ERR_CNT).group (n := n) g (List.replicate (if cubic then 8 else 4) 0)
  refine counted_of_flies calm hp (o := .tfetch cubic r g a) rfl rfl rfl (nodup_group cubic g) rfl rfl nofun
    (groupOps_late _ _ _) (a := Reg.SPF_TBL_ERR_CNT) (by decide) ?_
  unfold State.cData
  dsimp only
  rw [words]
  exact flies

theorem tfetch_on_bundle {base k : Nat} {clamp : Bool} (on : s.tableRegion r = some (base, k, clamp)) {cubic : Bool} (g : Fin 4) {a : Fin 32}
    (clean : ∀ j ∈ fetchIndices cubic k ((s.core n).g a), s.conClean (tablePoint base k clamp j)) :
    Launches s n (.tfetch n p cubic r g a Bundle.nop Access.quiet) (groupOps (s.core n) g
      ((fetchIndices cubic k ((s.core n).g a)).map (fun j => s.conWord (tablePoint base k clamp j)) ++
        fetchWeights cubic k ((s.core n).g a))) := by
  obtain ⟨flies, words⟩ := State.tfetch_on (n := n) table calm.inflight on clean
  refine launches_of_flies calm hp (o := .tfetch cubic r g a) rfl rfl rfl (nodup_group cubic g) rfl rfl nofun (groupOps_late _ _ _) ?_
  rw [← words]
  exact flies.group g _

end

/-- Settles O19: of a region in force the words read stay in flight with their weights; of another, zeros, and the error is counted. -/
theorem tableReads : Obligations.TableReads := by
  unfold Obligations.TableReads
  intro s n p cubic r g d a calm hp table
  refine ⟨fun off => ⟨tread_off_bundle calm hp table off d a, tfetch_off_bundle calm hp table off cubic g a⟩, fun base k clamp on =>
    ⟨fun clean => tread_on_bundle calm hp table on clean, fun clean => ?_⟩⟩
  have launches := tfetch_on_bundle calm hp table on g (cubic := cubic) (a := a) (by cases cubic <;> exact clean)
  cases cubic <;> exact launches

end Sys2Proof.Machine
end

section
/-! PROOFS. Ramp reads, corrections, and moves of control registers; the statement RampReadsAndControlMoves. -/

namespace Sys2Proof.Machine

/-! ### PRAMP and BLEP -/

/-- Replacing the front frames leaves the flow of the core alone. -/
theorem Core.setFront_same (c : Core) (b : TaskBuf) : c.setFront b = { c with bufA := (c.setFront b).bufA, bufB := (c.setFront b).bufB } := by
  unfold Core.setFront
  split <;> rfl

/-- The core whose ramp `k` has gone on by one sample. -/
def Core.rampOn (c : Core) (k last : Nat) : Core :=
  c.setFront { c.front with pos := Sparse.put (fun _ => 0) c.front.pos k (min (Sparse.get (fun _ => 0) c.front.pos k + 1) last) }

section
variable {s : State} {n : Fin 34} {p : Pred} (calm : s.Calm n) (hp : (s.core n).holds p = true)
include calm hp

theorem pramp_bundle (r : Fin 128) (d : Fin 32) :
    let c := s.core n
    let v := (Sparse.get (fun _ => (0 : Word)) c.front.ramp (2 * r)).toInt
    let st := (Sparse.get (fun _ => (0 : Word)) c.front.ramp (2 * r + 1)).toInt
    let j := Sparse.get (fun _ => 0) c.front.pos r
    BundledFrom s n (.pramp n p r d Bundle.nop) (c.rampOn r (s.rendered - 1)) []
      (launched c [(2, .reg (c.phys d) (clamp32 (v + j * st)))]) (fun _ => True) := by
  intro c v st j
  rw [← clamp32_eq]
  let w := sat32 (v + j * st)
  let u := s.updCore n (fun c => (c.setFront { c.front with
    pos := Sparse.put (fun _ => 0) c.front.pos r (min (j + 1) (s.rendered - 1)) }).evt 0x0E 1)
  have core : u.core n = { c.rampOn r (s.rendered - 1) with pcnt := (u.core n).pcnt } := by
    rw [State.core_updCore_same]
    rfl
  let u2 := if w.2 then u.satRead n else u
  have core2 : u2.core n = { c.rampOn r (s.rendered - 1) with pcnt := (u2.core n).pcnt } := by
    dsimp only [u2]
    split
    · rw [State.satRead_core, core]; rfl
    · exact core
  have only2 : OnlyCore s u2 n := by
    refine (OnlyCore.updCore s n _).trans (t := u) ?_
    dsimp only [u2]
    split
    · exact State.satRead_only ..
    · exact OnlyCore.refl ..
  have data : s.cData n c (.pramp r d) Access.quiet = u2.later n 2 (.reg (c.phys d) w.1) := rfl
  have idle : (c.rampOn r (s.rendered - 1)).inflight = [] := by rw [Core.rampOn, Core.setFront_same]; exact calm.inflight
  refine Bundled.of_launch (o := .pramp r d) (acc := Access.quiet) calm rfl hp rfl rfl (List.nodup_singleton _) (Bool.and_false _) rfl rfl
    (by rw [data]; exact only2.trans (State.later_only ..)) ?_ (by rw [Core.rampOn, Core.setFront_same])
    (fun x hx => ?_)
  · rw [data, State.core_later, core2, idle, Core.rampOn, Core.setFront_same]
    rfl
  · rw [List.mem_singleton.1 hx, Core.rampOn, Core.setFront_same]
    exact Nat.lt_succ_self _

theorem blep_bundle (t : Fin 8) (d a : Fin 32) :
    Bundled s n (.blep n p t d a Bundle.nop) [] (launched (s.core n) [(2, .reg ((s.core n).phys d) (blepValue t ((s.core n).g a)))])
      (fun _ => True) :=
  launches_of_flies calm hp (o := .blep t d a) (acc := Access.quiet) rfl rfl rfl (List.nodup_singleton _) rfl rfl nofun (by simp)
    ((Flies.refl calm.inflight).later 2 _)

end

theorem blepValue_outside (t : Fin 8) {a : Word} (h : a.toInt < -(2 * 2 ^ (t.val % 4) * 2 ^ 24) ∨ 2 * 2 ^ (t.val % 4) * 2 ^ 24 ≤ a.toInt) :
    blepValue t a = 0 := by
  unfold blepValue
  refine if_pos ?_
  unfold blepZ
  push_cast
  exact h

/-! ### MFC -/

/-- The control registers that MFC reads as stored. -/
def crStored (k : Nat) : Prop := k ≤ 0x0D ∨ k = 0x0F ∨ k = 0x1E ∨ k = 0x1F ∨ k = 0x22

theorem State.readCr_stored (s : State) (n : Nat) (c : Core) {k : Nat} (h : crStored k) : s.readCr n c k = (c.cr k, s) := by
  unfold crStored at h
  unfold State.readCr
  dsimp only
  rw [if_neg (by omega), if_neg (by omega), if_neg (by omega), if_neg (by omega), if_neg (by omega), if_neg (by omega), if_neg (by omega),
    if_neg (by omega), if_pos (by omega)]

section
variable {s : State} {n : Fin 34} {p : Pred} (calm : s.Calm n) (hp : (s.core n).holds p = true) (mode : (s.core n).voice = false)
include calm hp mode

theorem mfc_result {d : Fin 32} {k : Fin 64} {w : Word} (read : s.readCr n (s.core n) k = (w, s)) :
    ResultIn s n (.mfc n p d k Bundle.nop) d w := by
  refine Bundled.of_c calm hp (.mfc d k) (acc := Access.quiet) rfl rfl rfl (List.nodup_singleton _) (by rw [mode]; rfl) rfl rfl rfl ?_
  unfold State.cData
  dsimp only
  rw [read]
  rfl

theorem mfc_cycle (d : Fin 32) :
    BundledFrom s n (.mfc n p d 0x10 Bundle.nop) { s.core n with ccycLatch := BitVec.ofNat 32 ((s.core n).cycle / 2 ^ 32) }
      [(s.core n).phys d] [] (fun e => e.rd ((s.core n).phys d) = BitVec.ofNat 32 (s.core n).cycle) := by
  have data : s.cData n (s.core n) (.mfc d 0x10) Access.quiet =
      (s.updCore n (fun c => { c with ccycLatch := BitVec.ofNat 32 ((s.core n).cycle / 2 ^ 32) })).later n 1
        (.reg ((s.core n).phys d) (BitVec.ofNat 32 (s.core n).cycle)) := rfl
  have bundled := BundledFrom.of_regs (o := .mfc d 0x10) (acc := Access.quiet) calm (i := .mfc n p d 0x10 Bundle.nop) rfl hp rfl rfl
    (List.nodup_singleton _) (by rw [mode]; rfl) rfl rfl (by rw [data]; exact (OnlyCore.updCore s n _).trans (State.later_only ..))
    (c0 := { s.core n with ccycLatch := BitVec.ofNat 32 ((s.core n).cycle / 2 ^ 32) })
    (ws := [((s.core n).phys d, BitVec.ofNat 32 (s.core n).cycle)]) (wr := [(s.core n).phys d])
    (by rw [data, State.core_later, State.core_updCore_same, calm.inflight]; rfl) rfl (by simp)
  exact bundled.imp fun e rd => (rd _).trans (if_pos rfl)

end

/-! ### MTC -/

/-- A control register that a write stores is neither CSTAT nor a counter. -/
theorem crMask_stored (k : Fin 64) (h : crMask k ≠ 0) : k.val ≠ 0 ∧ ¬ (0x12 ≤ k.val ∧ k.val ≤ 0x17) ∧ ¬ (0x18 ≤ k.val ∧ k.val ≤ 0x1D) := by
  revert k
  decide

theorem Core.writeCr_stored (c : Core) (k : Fin 64) (h : crMask k ≠ 0) (v : Word) (voice : Bool) :
    c.writeCr k v voice = c.setCr k (BitVec.ofNat 32 (v.toNat &&& crMask k)) := by
  obtain ⟨cstat, counter, stage⟩ := crMask_stored k h
  unfold Core.writeCr
  rw [if_neg cstat, if_neg counter, if_neg stage, if_neg h]

/-- An issue slot in which one write of a control register takes hold. -/
theorem State.slotTick_cr {u : State} {n : Nat} {k : Fin 64} (stored : crMask k ≠ 0) {v : Word} {m cls : Bool} {due : Nat}
    (one : (u.core n).inflight = [{ due := due, voice := m, op := .cr k v }]) (now : due ≤ (u.core n).cycle + 1) :
    ∃ c1, OnlyCore u (u.slotTick n cls) n ∧ (u.core n).Cycled c1 ∧
      (u.slotTick n cls).core n = ({ c1 with inflight := [] } : Core).setCr k (BitVec.ofNat 32 (v.toNat &&& crMask k)) := by
  let e := if cls then 2 else 3
  let u0 := u.updCore n (fun c => c.evt e 1)
  let j := if cls then 0 else 1
  have core0 : u0.core n = (u.core n).evt e 1 := State.core_updCore_same ..
  have cycled : (u.core n).Cycled ((u0.core n).slotted j) := by
    rw [core0]
    exact (u.core n).cycled_slotted e 1 j
  have flight : ((u0.core n).slotted j).inflight = [{ due := due, voice := m, op := .cr k v }] := by
    rw [Core.slotted_inflight, core0]
    exact one
  have reached : due ≤ (u0.core n).cycle + 1 := by rw [core0]; exact now
  have landed : ((u0.core n).slotted j).landed ((u0.core n).cycle + 1) =
      ({ (u0.core n).slotted j with inflight := [] } : Core).setCr k (BitVec.ofNat 32 (v.toNat &&& crMask k)) := by
    unfold Core.landed
    rw [flight]
    have lands : [({ due := due, voice := m, op := .cr k v } : InFlight)].filter (fun w => decide (w.due ≤ (u0.core n).cycle + 1)) =
        [{ due := due, voice := m, op := .cr k v }] := by simp [reached]
    have stays : [({ due := due, voice := m, op := .cr k v } : InFlight)].filter (fun w => decide ((u0.core n).cycle + 1 < w.due)) = [] := by
      simp [reached]
    rw [lands, stays]
    exact Core.writeCr_stored _ k stored v m
  obtain ⟨only, core⟩ := State.coreTick_quiet u0 n j (fun i _ hi => by
    rw [landed] at hi
    unfold Core.av at hi ⊢
    rw [Core.cr_setCr, if_neg (Ne.symm (crMask_stored k stored).1)] at hi
    exact hi)
  exact ⟨_, (OnlyCore.updCore ..).trans only, cycled, core.trans landed⟩

theorem mtc_bundle {s : State} {n : Fin 34} {p : Pred} (calm : s.Calm n) (hp : (s.core n).holds p = true) (mode : (s.core n).voice = false)
    {k : Fin 64} (stored : crMask k ≠ 0) (a : Fin 32) :
    Bundled s n (.mtc n p k a Bundle.nop) [512 + k.val] []
      (fun e => e.cr k = BitVec.ofNat 32 (((s.core n).g a).toNat &&& crMask k)) := by
  let u := s.later n 1 (.cr k ((s.core n).g a))
  have issue : s.issueC n p (.mtc k a) Bundle.nop Access.quiet = (u.slotTick n true).advance n (s.core n) (cWrites (.mtc k a)) :=
    State.issueC_calm calm p (.mtc k a) Access.quiet hp rfl rfl (List.nodup_singleton _) (by rw [mode]; rfl) rfl rfl
  have core : u.core n = { s.core n with inflight := [{ due := (s.core n).cycle + 1, voice := (s.core n).voice, op := .cr k ((s.core n).g a) }] } := by
    rw [State.core_later, calm.inflight]
    rfl
  obtain ⟨c1, tick, cycled, slot⟩ := State.slotTick_cr (u := u) (n := n) (cls := true) stored (by rw [core]) (by rw [core])
  have only : OnlyCore s (u.slotTick n true) n := (State.later_only ..).trans tick
  obtain ⟨gone, there⟩ := State.advance_plain (u.slotTick n true) n (s.core n) (cWrites (.mtc k a)) calm.delay calm.loops
    ((only.breakAt n _).trans calm.unbroken)
  have same : c1 = _ := cycled
  rw [core] at same
  refine ⟨_, congrArg Host.Outcome.next issue, only.trans gone, ⟨?_, ?_, ?_, fun j _ => ?_, fun j _ => ?_, fun j hj => ?_, ?_⟩, ?_⟩
  all_goals rw [there, slot]
  · rw [Core.setCr, same]
  · rfl
  · rw [same]; rfl
  · rw [same]; rfl
  · refine (Core.cr_setCr _ _ _ j).trans ((if_neg (by rw [List.mem_singleton] at hj; omega)).trans ?_)
    rw [same]
    rfl
  · rw [Core.setCr, same]
  · exact (Core.cr_setCr _ _ _ _).trans (if_pos rfl)

/-- Settles O20: ramps and corrections stay in flight, and the moves of control registers take hold in the next cycle. -/
theorem rampReadsAndControlMoves : Obligations.RampReadsAndControlMoves := by
  unfold Obligations.RampReadsAndControlMoves
  refine ⟨fun s n p r t d a calm hp => ⟨pramp_bundle calm hp r d, blep_bundle calm hp t d a, blepValue_outside t⟩,
    fun s n p d a k calm hp mode => ⟨fun h => mfc_result calm hp mode (s.readCr_stored n _ h), mfc_result calm hp mode rfl,
      mfc_cycle calm hp mode d, fun stored => mtc_bundle calm hp mode stored a⟩⟩

end Sys2Proof.Machine
end

section
/-! PROOFS. O27: the dumps of the PMU. What a write to host memory leaves there, and how a dump is taken, skipped and completed. -/

namespace Sys2Proof.Machine

/-! ### Fields and bits by the register they are of -/

theorem State.fld_of_reg {s t : State} {a : Nat} (h : t.reg a = s.reg a) (lo w : Nat) : t.fld a lo w = s.fld a lo w := by
  rw [State.fld, h, State.fld]

theorem State.bit_of_reg {s t : State} {a : Nat} (h : t.reg a = s.reg a) (i : Nat) : t.bit a i = s.bit a i := by
  rw [State.bit, h, State.bit]

theorem State.fld_count (s : State) (i k a lo w : Nat) : (s.count i k).fld a lo w = s.fld a lo w := rfl

theorem State.bit_count (s : State) (i k a j : Nat) : (s.count i k).bit a j = s.bit a j := rfl

theorem State.fld_setBit_other (s : State) {a b : Nat} (i : Nat) (v : Bool) (lo w : Nat) (h : b ≠ a) :
    (s.setBit a i v).fld b lo w = s.fld b lo w := State.fld_of_reg (s.reg_setBit_other i v h) lo w

theorem State.conByte_congr {s t : State} (h : t.con = s.con) (a : Nat) : t.conByte a = s.conByte a := by
  rw [State.conByte, h, State.conByte]

theorem OnlyReports.con {s t : State} {l : List Nat} (h : OnlyReports s t l) : t.con = s.con := by
  rw [h.1]

theorem OnlyReports.dump {s t : State} {l : List Nat} (h : OnlyReports s t l) : t.dump = s.dump := by
  rw [h.1]

/-! ### Host memory -/

theorem State.putHost_frame (bs : List Byte) (s : State) (a : Nat) :
    s.putHost a bs = { s with out := { s.out with hostMem := (s.putHost a bs).out.hostMem } } := by
  induction bs generalizing s a with
  | nil => rfl
  | cons b bs ih => rw [State.putHost]; exact (ih _ _).trans rfl

theorem State.reg_putHost (s : State) (a : Nat) (bs : List Byte) (r : Nat) : (s.putHost a bs).reg r = s.reg r := by
  rw [State.putHost_frame]; rfl

theorem State.hostByte_congr {s t : State} (h : t.out.hostMem = s.out.hostMem) (x : Nat) : t.hostByte x = s.hostByte x := by
  rw [State.hostByte, h, State.hostByte]

/-- A byte that a write does not reach stays as it is. -/
theorem State.hostByte_putHost_other (bs : List Byte) (s : State) {a x : Nat} (h : ∀ j, j < bs.length → x % 2 ^ 64 ≠ (a + j) % 2 ^ 64) :
    (s.putHost a bs).hostByte x = s.hostByte x := by
  induction bs generalizing s a with
  | nil => rfl
  | cons b bs ih =>
    rw [State.putHost, ih]
    · exact Sparse.get_put_other _ _ (h 0 (Nat.succ_pos _))
    · intro j hj
      rw [Nat.add_assoc, Nat.add_comm 1]
      exact h (j + 1) (Nat.succ_lt_succ hj)

/-- A write that fits the address space stands in host memory. -/
theorem State.hostByte_putHost (bs : List Byte) (s : State) (a : Nat) (fits : bs.length ≤ 2 ^ 64) {j : Nat} (hj : j < bs.length) :
    (s.putHost a bs).hostByte (a + j) = bs[j] := by
  induction bs generalizing s a j with
  | nil => exact absurd hj (Nat.not_lt_zero _)
  | cons b bs ih =>
    rw [List.length_cons] at fits hj
    rw [State.putHost]
    match j with
    | 0 =>
      refine (State.hostByte_putHost_other bs _ fun i hi => ?_).trans (Sparse.get_put_same ..)
      simp only [Nat.reducePow] at fits ⊢
      omega
    | j + 1 =>
      have there := ih { s with out := { s.out with hostMem := Sparse.put (fun _ => 0) s.out.hostMem (a % 2 ^ 64) b } } (a + 1) (by omega)
        (j := j) (by omega)
      rwa [Nat.add_assoc, Nat.add_comm 1] at there

theorem State.check_unarmed {s : State} {p : Nat} (h : s.bit (Reg.PAGE_ERR_INJ p) 30 = false) (det sub : Nat) (real : Bool) :
    s.check p det sub real = { st := s, hit := real, inj := false } := by
  cases real
  · exact State.check_off h det sub
  · rfl

/-! ### Taking and skipping a dump -/

section Dump

variable {s : State}

/-- A dump is due at this block boundary (R386). -/
def State.dumpDue (s : State) : Prop :=
  s.bit Reg.PMU_CTRL 0 = true ∧ s.pageOn Page.pmu = true ∧ s.running = true ∧ s.offset = 0 ∧ s.period % s.dumpInterval = 0 ∧
    s.dump.done ≠ s.period + 1

/-- The last snapshot is not written yet, or the dump ring is full (R390). -/
def State.dumpFull (s : State) : Prop :=
  s.dump.snap ≠ none ∨ (s.fld Reg.PMU_PI 0 16 + 2 ^ 16 - s.fld Reg.PMU_CI 0 16) % 2 ^ 16 = s.dumpRing

theorem pmuDump_idle (idle : ¬ s.dumpDue) : exec .pmuDump s = .next s := by
  refine if_pos ?_
  by_contra due
  simp only [not_or, Bool.not_eq_false] at due
  obtain ⟨en, on, run, start, turn, fresh⟩ := due
  exact idle ⟨en, on, run, Decidable.not_not.1 start, Decidable.not_not.1 turn, fresh⟩

/-- The snapshot that a dump takes (R386, R388). -/
def State.snapshot (s : State) : Snapshot :=
  { mt := s.clk.mt, period := s.period, interval := s.dumpInterval, mediaCfg := s.reg Reg.CLK_MEDIA_CFG, counters := s.pmu
    inService := s.inService.foldl (fun a n => a + 2 ^ n) 0 }

theorem pmuDump_due (due : s.dumpDue) (unarmed : s.bit (Reg.PAGE_ERR_INJ Page.pmu) 30 = false) :
    exec .pmuDump s =
      let s1 : State := { s with dump := { s.dump with done := s.period + 1 } }
      if s.dump.snap.isSome || decide ((s.fld Reg.PMU_PI 0 16 + 2 ^ 16 - s.fld Reg.PMU_CI 0 16) % 2 ^ 16 = s.dumpRing) then
        .next (s1.skipDump false)
      else .next (State.setBit { s1 with dump := { s1.dump with snap := some s.snapshot } } Reg.PMU_STAT 0 true) := by
  obtain ⟨en, on, run, start, turn, fresh⟩ := due
  refine (if_neg (by simp [en, on, run, start, turn, fresh])).trans ?_
  dsimp only
  rw [State.check_unarmed (s := { s with dump := { s.dump with done := s.period + 1 } }) unarmed]
  dsimp only [State.snapshot]

theorem dumpFull_iff : s.dumpFull ↔
    (s.dump.snap.isSome || decide ((s.fld Reg.PMU_PI 0 16 + 2 ^ 16 - s.fld Reg.PMU_CI 0 16) % 2 ^ 16 = s.dumpRing)) = true := by
  unfold State.dumpFull
  cases s.dump.snap <;> simp

theorem pmuDump_taken (due : s.dumpDue) (unarmed : s.bit (Reg.PAGE_ERR_INJ Page.pmu) 30 = false) (room : ¬ s.dumpFull) :
    Completes .pmuDump s (fun t => (∃ x ∈ t.dump.snap, x.counters = s.pmu ∧ x.mt = s.clk.mt ∧ x.period = s.period) ∧
      t.dump.done = s.period + 1 ∧ t.bit Reg.PMU_STAT 0 = true ∧ t = { s with regs := t.regs, dump := t.dump } ∧
      KeepsRegs s t [Reg.PMU_STAT]) := by
  refine ⟨_, (pmuDump_due due unarmed).trans (if_neg (mt dumpFull_iff.2 room)), ?_, ?_, ?_, ?_, ?_⟩
  · exact ⟨_, rfl, rfl, rfl, rfl⟩
  · rfl
  · exact State.bit_setBit_same _ _ _ (by decide)
  · rfl
  · exact fun a ha => State.reg_setBit_other _ _ _ (by simpa using ha)

/-- What is reported when a dump is skipped. -/
def State.skipReported (s : State) : State := (((s.count 511 1).pageErrFlag Page.pmu 0).raise Page.pmu 1).logError 0x0500 0 s.period false

theorem State.skipReported_reports (s : State) :
    OnlyReports s s.skipReported ([Reg.PAGE_ERR_STAT Page.pmu, Reg.PAGE_ERR_CNT Page.pmu] ++ raiseRegs Page.pmu ++ logRegs) :=
  (((onlyReports_count s 511 1).trans (onlyReports_pageErrFlag _ Page.pmu 0)).trans (onlyReports_raise _ Page.pmu 1)).trans
    (onlyReports_logError _ 0x0500 0 s.period false)

theorem State.skipReported_effect (s : State) :
    s.skipReported.bit (Reg.PAGE_ERR_STAT Page.pmu) 0 = true ∧ s.skipReported.bit (Reg.PAGE_IRQ_STAT Page.pmu) 1 = true ∧
      Counted s s.skipReported Reg.ERR_LOG_CNT := by
  refine ⟨?_, ?_, ?_⟩
  · rw [State.skipReported, (onlyReports_logError ..).bit (by decide), (onlyReports_raise ..).bit (by decide)]
    exact (State.bit_setReg_other _ _ _ (by decide)).trans (State.bit_setBit_same _ _ _ (by decide))
  · rw [State.skipReported, (onlyReports_logError ..).bit (by decide), State.bit_raise_same _ _ (by decide)]
  · refine (counted_logError _ 0x0500 0 s.period false).of_reg_eq ?_
    rw [State.reg_raise _ (by decide), (onlyReports_pageErrFlag ..).reg (by decide)]
    rfl

theorem State.skipDump_eq (s : State) :
    s.skipDump false = { s.skipReported with dump := { s.dump with skipped := min 0xFFFF (s.dump.skipped + 1) } } := by
  have dump : s.skipReported.dump = s.dump := by rw [s.skipReported_reports.1]
  rw [← dump]
  rfl

theorem pmuDump_skipped (due : s.dumpDue) (unarmed : s.bit (Reg.PAGE_ERR_INJ Page.pmu) 30 = false) (full : s.dumpFull) :
    Completes .pmuDump s (fun t => t.dump.snap = s.dump.snap ∧ t.dump.skipped = min 0xFFFF (s.dump.skipped + 1) ∧
      t.bit (Reg.PAGE_ERR_STAT Page.pmu) 0 = true ∧ t.bit (Reg.PAGE_IRQ_STAT Page.pmu) 1 = true ∧ Counted s t Reg.ERR_LOG_CNT) := by
  refine ⟨_, ((pmuDump_due due unarmed).trans (if_pos (dumpFull_iff.1 full))).trans (congrArg Host.Outcome.next (State.skipDump_eq _)), ?_⟩
  obtain ⟨flag, irq, logged⟩ := State.skipReported_effect { s with dump := { s.dump with done := s.period + 1 } }
  generalize State.skipReported _ = r at flag irq logged
  exact ⟨rfl, rfl, flag, irq, logged⟩

/-! ### Completing a dump -/

theorem length_leBytes (n v : Nat) : (leBytes n v).length = n := by
  induction n generalizing v with
  | zero => rfl
  | succ n ih => rw [leBytes, List.length_cons, ih]

theorem length_flatten_leBytes {α : Type} (n : Nat) (f : α → Nat) (l : List α) : (l.map (fun i => leBytes n (f i))).flatten.length = n * l.length := by
  induction l with
  | nil => rfl
  | cons i l ih => rw [List.map_cons, List.flatten_cons, List.length_append, ih, length_leBytes, List.length_cons, Nat.mul_succ, Nat.add_comm]

theorem Snapshot.length_record (x : Snapshot) (rseq skipped : Nat) (first : Bool) : (x.record rseq skipped first).length = 4160 := by
  simp only [Snapshot.record, List.length_append, length_leBytes, length_flatten_leBytes, List.length_range, List.length_replicate]

/-- Where the next record of the dump ring stands in host memory (R389). -/
def State.dumpPlace (s : State) : Nat :=
  (s.reg Reg.PMU_RING_BASE_LO).toNat / 64 * 64 + 2 ^ 32 * (s.reg Reg.PMU_RING_BASE_HI).toNat + s.fld Reg.PMU_PI 0 16 % s.dumpRing * 4160

/-- The state once a record, `data`, is written to host memory and the snapshot is gone. -/
def State.dumpWritten (s : State) (data : List Byte) : State :=
  { s.putHost s.dumpPlace data with dump :=
    { (s.putHost s.dumpPlace data).dump with snap := none, rseq := ((s.putHost s.dumpPlace data).dump.rseq + 1) % 2 ^ 16, skipped := 0, first := false } }

theorem State.reg_dumpWritten (s : State) (data : List Byte) (a : Nat) : (s.dumpWritten data).reg a = s.reg a := s.reg_putHost _ _ a

theorem State.hostMem_dumpWritten (s : State) (data : List Byte) : (s.dumpWritten data).out.hostMem = (s.putHost s.dumpPlace data).out.hostMem := rfl

theorem State.con_dumpWritten (s : State) (data : List Byte) : (s.dumpWritten data).con = s.con := by
  rw [State.dumpWritten, State.putHost_frame]

/-- The registers after a record is written. -/
def State.dumpPassed (s : State) (i : Nat) : State :=
  ((((s.setFld Reg.PMU_PI 0 16 (i + 1)).setBit Reg.PMU_STAT 0 false).count 510 1).bump Reg.PMU_DUMP_CNT).raise Page.pmu 0

theorem State.dumpPassed_reports (s : State) (i : Nat) :
    OnlyReports s (s.dumpPassed i) ([Reg.PMU_PI, Reg.PMU_STAT, Reg.PMU_DUMP_CNT] ++ raiseRegs Page.pmu) :=
  (((((onlyReports_setReg s Reg.PMU_PI _).trans (onlyReports_setBit _ Reg.PMU_STAT 0 false)).trans (onlyReports_count _ 510 1)).trans
    (onlyReports_bump _ Reg.PMU_DUMP_CNT)).trans (onlyReports_raise _ Page.pmu 0)).mono (by decide)

theorem State.dumpPassed_effect (s : State) (i : Nat) :
    (s.dumpPassed i).fld Reg.PMU_PI 0 16 = (i + 1) % 2 ^ 16 ∧ (s.dumpPassed i).bit Reg.PMU_STAT 0 = false ∧
      Counted s (s.dumpPassed i) Reg.PMU_DUMP_CNT ∧ (s.dumpPassed i).bit (Reg.PAGE_IRQ_STAT Page.pmu) 0 = true := by
  refine ⟨?_, ?_, ?_, State.bit_raise_same _ _ (by decide)⟩
  · rw [State.dumpPassed, (onlyReports_raise ..).fld (by decide), (onlyReports_bump ..).fld (by decide),
      State.fld_count, State.fld_setBit_other _ _ _ _ _ (by decide), State.fld_setFld_same _ _ _ (by decide)]
  · rw [State.dumpPassed, (onlyReports_raise ..).bit (by decide), (onlyReports_bump ..).bit (by decide),
      State.bit_count, State.bit_setBit_same _ _ _ (by decide)]
  · have counted := counted_bump (((s.setFld Reg.PMU_PI 0 16 (i + 1)).setBit Reg.PMU_STAT 0 false).count 510 1) Reg.PMU_DUMP_CNT
    refine (counted.of_reg_eq ?_).of_reg_eq_after (State.reg_raise _ (by decide) 0)
    rw [State.reg_count, State.reg_setBit_other _ _ _ (by decide), State.reg_setFld_other _ _ _ _ (by decide)]

theorem pmuDumpComplete_host {x : Snapshot} (snap : s.dump.snap = some x) (host : s.bit Reg.PMU_RING_CFG 9 = false)
    (busy : s.bit (Reg.PAGE_STAT Page.pmu) 1 = false) :
    exec .pmuDumpComplete s =
      .next ((s.dumpWritten (x.record s.dump.rseq s.dump.skipped s.dump.first)).dumpPassed (s.fld Reg.PMU_PI 0 16)) := by
  show execPmuDumpComplete s = _
  unfold execPmuDumpComplete
  rw [snap]
  dsimp only
  generalize x.record s.dump.rseq s.dump.skipped s.dump.first = data
  have stat : ((s.dumpWritten data).dumpPassed (s.fld Reg.PMU_PI 0 16)).bit (Reg.PAGE_STAT Page.pmu) 1 = false := by
    rw [(State.dumpPassed_reports ..).bit (by decide), State.bit, State.reg_dumpWritten]
    exact busy
  simp only [host, Bool.false_eq_true, ↓reduceIte]
  unfold State.dumpPassed State.dumpWritten State.dumpPlace at stat ⊢
  rw [if_neg (by rw [stat]; exact Bool.false_ne_true)]

theorem State.out_sendMsix (s : State) (v : Nat) : (s.sendMsix v).out = { s.out with sent := (s.sendMsix v).out.sent } := by
  unfold State.sendMsix
  split <;> rfl

theorem State.out_deliver (s old : State) (v : Nat) : (s.deliver old v).out = { s.out with sent := (s.deliver old v).out.sent } := by
  unfold State.deliver
  split
  · exact s.out_sendMsix v
  · rfl

/-- An interrupt leaves the block as a message at most. -/
theorem State.out_raise (s : State) (p b : Nat) : (s.raise p b).out = { s.out with sent := (s.raise p b).out.sent } := by
  unfold State.raise
  dsimp only
  split
  · exact State.out_deliver (s.setBit (Reg.PAGE_IRQ_STAT p) b true) s _
  · rfl

theorem State.hostMem_dumpPassed (s : State) (i : Nat) : (s.dumpPassed i).out.hostMem = s.out.hostMem := by
  rw [State.dumpPassed, State.out_raise]
  rfl

theorem pmuDumpComplete_written {x : Snapshot} (snap : s.dump.snap = some x) (host : s.bit Reg.PMU_RING_CFG 9 = false)
    (busy : s.bit (Reg.PAGE_STAT Page.pmu) 1 = false) :
    Completes .pmuDumpComplete s (fun t => t.fld Reg.PMU_PI 0 16 = (s.fld Reg.PMU_PI 0 16 + 1) % 2 ^ 16 ∧ t.bit Reg.PMU_STAT 0 = false ∧
      Counted s t Reg.PMU_DUMP_CNT ∧ t.bit (Reg.PAGE_IRQ_STAT Page.pmu) 0 = true ∧ t.dump.snap = none ∧
      (∀ j, j < 4160 → t.hostByte (s.dumpPlace + j) = ((x.record s.dump.rseq s.dump.skipped s.dump.first)[j]?).getD 0) ∧
      KeepsCon s t 0 0 ∧ KeepsRegs s t ([Reg.PMU_PI, Reg.PMU_STAT, Reg.PMU_DUMP_CNT] ++ raiseRegs Page.pmu)) := by
  refine ⟨_, pmuDumpComplete_host snap host busy, ?_⟩
  have len := x.length_record s.dump.rseq s.dump.skipped s.dump.first
  generalize x.record s.dump.rseq s.dump.skipped s.dump.first = data at len ⊢
  obtain ⟨pi, stat, counted, irq⟩ := (s.dumpWritten data).dumpPassed_effect (s.fld Reg.PMU_PI 0 16)
  obtain ⟨frame, keeps⟩ := (s.dumpWritten data).dumpPassed_reports (s.fld Reg.PMU_PI 0 16)
  have con := ((s.dumpWritten data).dumpPassed_reports (s.fld Reg.PMU_PI 0 16)).con
  refine ⟨pi, stat, counted.of_reg_eq (s.reg_dumpWritten data _), irq, ?_, fun j hj => ?_, fun a _ => ?_,
    fun a ha => (keeps a ha).trans (s.reg_dumpWritten data a)⟩
  · rw [frame]; rfl
  · rw [List.getElem?_eq_getElem (by omega), Option.getD_some]
    exact (State.hostByte_congr (State.hostMem_dumpPassed _ _) _).trans
      ((State.hostByte_congr (s.hostMem_dumpWritten data) _).trans (State.hostByte_putHost data s s.dumpPlace (by omega) (by omega)))
  · exact State.conByte_congr (con.trans (s.con_dumpWritten data)) a

end Dump

/-! ### The dump ring's registers and the read of a counter -/

theorem pmuRingConfigWrite_refused {s : State} (path : Path) {i : Fin 3} (v : Word) (writable : s.writable (pmuRingReg i) = true)
    (busy : s.bit Reg.PMU_CTRL 0 = true ∨ s.dump.snap ≠ none) :
    Completes (.pmuRingConfigWrite path i v) s (fun t => t.bit Reg.PMU_STAT 31 = true ∧ Counted s t (Reg.PAGE_ERR_CNT Page.pmu) ∧
      OnlyRegs s t [Reg.PMU_STAT, Reg.PAGE_ERR_CNT Page.pmu]) :=
  refused_of_exec (stat := Reg.PMU_STAT) (b := 31) (p := Page.pmu) (congrArg Host.Outcome.next
    ((State.hostWrite_of_writable writable).trans (if_pos (by rwa [Option.isSome_iff_ne_none])))) (by decide) (by decide)

theorem pmuRingConfigWrite_stored {s : State} (path : Path) {i : Fin 3} (v : Word) (writable : s.writable (pmuRingReg i) = true)
    (idle : ¬ (s.bit Reg.PMU_CTRL 0 = true ∨ s.dump.snap ≠ none)) : Stores (.pmuRingConfigWrite path i v) s (pmuRingReg i) v :=
  stores_of_exec (congrArg Host.Outcome.next
    ((State.hostWrite_of_writable writable).trans (if_neg (by rwa [Option.isSome_iff_ne_none]))))

theorem pmuCounterRead_latches {s : State} (path : Path) (serves : s.serving = true) :
    Completes (.pmuCounterRead path) s (fun t =>
      t.out.sent = .readData path [BitVec.ofNat 32 (s.pmuGet (s.fld Reg.PMU_CNT_SEL 0 9))] :: s.out.sent ∧
      t.latched 1 path = BitVec.ofNat 32 (s.pmuGet (s.fld Reg.PMU_CNT_SEL 0 9) / 2 ^ 32) ∧
      t = { s with out := { s.out with sent := t.out.sent }, latches := t.latches }) :=
  ⟨_, congrArg Host.Outcome.next (if_neg (by rw [serves]; exact Bool.noConfusion)), rfl, Sparse.get_put_same .., rfl⟩

/-- Settles O27: a dump by what it finds at the boundary, its completion, the ring's registers and the latched read. -/
theorem pmuCommands : Obligations.PmuCommands := by
  unfold Obligations.PmuCommands
  intro s path v i
  refine ⟨fun idle => ⟨s, pmuDump_idle idle, rfl⟩, fun due unarmed => ⟨pmuDump_taken due unarmed, pmuDump_skipped due unarmed⟩, fun none => ?_,
    fun x snap host busy => pmuDumpComplete_written snap host busy, fun writable => ?_, pmuCounterRead_latches path⟩
  · exact ⟨s, by show execPmuDumpComplete s = _; rw [execPmuDumpComplete, none], rfl⟩
  · split
    · exact pmuRingConfigWrite_refused path v writable (by assumption)
    · exact pmuRingConfigWrite_stored path v writable (by assumption)

end Sys2Proof.Machine
end

section
/-! PROOFS. O37: the DAC channels. What replacing a channel, showing its state and clamping it change, and the ends of clamps, ramps and
switch sequences. -/

namespace Sys2Proof.Machine

/-! ### Frames of the DACs -/

/-- Only the registers of `l`, the channels of `cs` and nothing else differ between `s` and `t`. -/
structure DacFrame (s t : State) (l cs : List Nat) : Prop where
  rest : t = { s with regs := t.regs, dac := t.dac }
  regs : KeepsRegs s t l
  chans : KeepsChans s t cs
  release : t.dac.release = s.dac.release

namespace DacFrame

variable {s t u : State} {l m cs ds : List Nat}

theorem refl (s : State) (l cs : List Nat) : DacFrame s s l cs := ⟨rfl, fun _ _ => rfl, fun _ _ => rfl, rfl⟩

theorem trans (h : DacFrame s t l cs) (g : DacFrame t u l cs) : DacFrame s u l cs where
  rest := by rw [g.rest, h.rest]
  regs a ha := (g.regs a ha).trans (h.regs a ha)
  chans c hc := (g.chans c hc).trans (h.chans c hc)
  release := g.release.trans h.release

theorem mono (h : DacFrame s t l cs) (regs : l ⊆ m) (chans : cs ⊆ ds) : DacFrame s t m ds :=
  ⟨h.rest, h.regs.mono regs, fun c hc => h.chans c (fun hs => hc (chans hs)), h.release⟩

theorem bit (h : DacFrame s t l cs) {a : Nat} (ha : a ∉ l) (i : Nat) : t.bit a i = s.bit a i := State.bit_of_reg (h.regs a ha) i

theorem only {c : Nat} (h : DacFrame s t (Reg.DAC_CH_STAT c :: Reg.DAC_STAT :: l) [c]) : DacOnly s t c l := ⟨h.rest, h.regs, h.chans, h.release⟩

theorem foldl {f : State → Nat → State} (L : List Nat) (hf : ∀ u, ∀ c ∈ L, DacFrame u (f u c) l cs) (s : State) : DacFrame s (L.foldl f s) l cs := by
  induction L generalizing s with
  | nil => exact refl s l cs
  | cons c L ih => exact (hf s c List.mem_cons_self).trans (ih (fun u d hd => hf u d (List.mem_cons_of_mem _ hd)) _)

end DacFrame

theorem dacFrame_setReg (s : State) {a : Nat} {l : List Nat} (h : a ∈ l) (v : Word) (cs : List Nat) : DacFrame s (s.setReg a v) l cs :=
  ⟨rfl, ((onlyRegs_setReg s a v).mono (by simpa using h)).keepsRegs, fun _ _ => rfl, rfl⟩

/-! ### Replacing a channel -/

theorem State.dacCh_setDacCh_same (s : State) (c : Nat) (x : DacChan) : (s.setDacCh c x).dacCh c = x := Sparse.get_put_same ..

theorem State.dacCh_setDacCh_other (s : State) {c d : Nat} (x : DacChan) (h : d ≠ c) : (s.setDacCh c x).dacCh d = s.dacCh d :=
  Sparse.get_put_other _ _ h

theorem State.reg_setDacCh (s : State) {c a : Nat} (x : DacChan) (h : a ≠ Reg.DAC_CH_STAT c) : (s.setDacCh c x).reg a = s.reg a := by
  unfold State.setDacCh
  rw [State.reg_setBit_other _ _ _ h, State.reg_setBit_other _ _ _ h, State.reg_setFld_other _ _ _ _ h]
  rfl

theorem dacFrame_setDacCh (s : State) {c : Nat} (x : DacChan) {l cs : List Nat} (reg : Reg.DAC_CH_STAT c ∈ l) (chan : c ∈ cs) :
    DacFrame s (s.setDacCh c x) l cs where
  rest := rfl
  regs _ ha := s.reg_setDacCh x (fun e => ha (e ▸ reg))
  chans _ hd := s.dacCh_setDacCh_other x (fun e => hd (e ▸ chan))
  release := rfl

theorem DacChan.code_le (x : DacChan) : x.code ≤ 4 := by
  unfold DacChan.code
  cases x.st with
  | clamp => exact Nat.zero_le 4
  | clear => dsimp only; split <;> decide
  | run => dsimp only; split <;> decide
  | fault => dsimp only; split <;> decide

/-- STATE shows the channel's state. -/
theorem State.fld_setDacCh (s : State) (c : Nat) (x : DacChan) : (s.setDacCh c x).fld (Reg.DAC_CH_STAT c) 0 3 = x.code := by
  have small := x.code_le
  unfold State.setDacCh State.setBit
  rw [State.fld, State.reg_setFld, if_pos rfl, fieldOf_setFieldOf_other _ _ (by decide), State.reg_setFld, if_pos rfl,
    fieldOf_setFieldOf_other _ _ (by decide)]
  exact (State.fld_setFld_same _ _ _ (by decide)).trans (Nat.mod_eq_of_lt (by omega))

/-- Bits of the status register that show something else stay. -/
theorem State.bit_setDacCh (s : State) (c : Nat) (x : DacChan) {i : Nat} (state : 3 ≤ i) (shown : i ≠ 11 ∧ i ≠ 12) :
    (s.setDacCh c x).bit (Reg.DAC_CH_STAT c) i = s.bit (Reg.DAC_CH_STAT c) i := by
  unfold State.setDacCh
  rw [State.bit_setBit _ _ _ (by decide), if_neg shown.2, State.bit_setBit _ _ _ (by decide), if_neg shown.1, State.bit, State.reg_setFld, if_pos rfl,
    fieldOf_setFieldOf_other _ _ (by omega)]
  rfl

/-! ### The filter sequence shown, and the clamp -/

theorem dacChStat_ne_dacStat (c : Nat) : Reg.DAC_CH_STAT c ≠ Reg.DAC_STAT := by unfold Reg.DAC_CH_STAT Reg.DAC_STAT; omega

theorem dacFrame_showFilterSwitch (s : State) {l : List Nat} (h : Reg.DAC_STAT ∈ l) (cs : List Nat) : DacFrame s s.showFilterSwitch l cs :=
  dacFrame_setReg s h _ cs

theorem State.dacCh_showFilterSwitch (s : State) (c : Nat) : s.showFilterSwitch.dacCh c = s.dacCh c := rfl

theorem State.reg_showFilterSwitch (s : State) {a : Nat} (h : a ≠ Reg.DAC_STAT) : s.showFilterSwitch.reg a = s.reg a := s.reg_setBit_other _ _ h

/-- What a channel is once it is clamped (R275, R280). -/
def State.clamped (s : State) (c : Nat) : DacChan :=
  { s.dacCh c with
    st := .clamp, starting := 0, ramp := none, rampLevel := none, toClamp := false, seq := none, ignore := 0
    range := s.bit (Reg.DAC_CH_CFG c) 2, filt := s.bit Reg.DAC_CTRL 0, action := false, leave := false }

theorem State.clampNow_eq (s : State) (c : Nat) : s.clampNow c = (s.setDacCh c (s.clamped c)).showFilterSwitch := rfl

theorem dacFrame_clampNow (s : State) {c : Nat} {l cs : List Nat} (reg : Reg.DAC_CH_STAT c ∈ l) (stat : Reg.DAC_STAT ∈ l) (chan : c ∈ cs) :
    DacFrame s (s.clampNow c) l cs := by
  rw [State.clampNow_eq]
  exact (dacFrame_setDacCh s (s.clamped c) reg chan).trans (dacFrame_showFilterSwitch _ stat cs)

theorem State.dacCh_clampNow (s : State) (c : Nat) : (s.clampNow c).dacCh c = s.clamped c := by
  rw [State.clampNow_eq, State.dacCh_showFilterSwitch, State.dacCh_setDacCh_same]

/-! ### Ends of clamps, ramps and sequences -/

/-- The command leaves channel `c` as `y`, shows its state, and changes beyond it only the registers `l`. -/
def Turns (s : State) (c : Nat) (i : Instr) (y : DacChan) (l : List Nat) : Prop :=
  Completes i s (fun t => t.dacCh c = y ∧ t.fld (Reg.DAC_CH_STAT c) 0 3 = y.code ∧ DacOnly s t c l)

section Turns

variable {s : State} {c : Nat} {i : Instr} {y : DacChan}

theorem turns_of_set (run : exec i s = .next (s.setDacCh c y)) : Turns s c i y [] :=
  ⟨_, run, s.dacCh_setDacCh_same c y, s.fld_setDacCh c y, (dacFrame_setDacCh s y List.mem_cons_self (List.mem_singleton_self c)).only⟩

/-- A channel is replaced, and one register beside its status changes. -/
theorem turns_of_setReg {a : Nat} {v : Word} {l : List Nat} (other : a ≠ Reg.DAC_CH_STAT c) (mem : a ∈ Reg.DAC_STAT :: l)
    (run : exec i s = .next ((s.setDacCh c y).setReg a v)) : Turns s c i y l :=
  ⟨_, run, s.dacCh_setDacCh_same c y, (State.fld_setReg_other _ _ _ _ other.symm).trans (s.fld_setDacCh c y),
    ((dacFrame_setDacCh s y List.mem_cons_self (List.mem_singleton_self c)).trans
      (dacFrame_setReg _ (List.mem_cons_of_mem _ mem) v _)).only⟩

end Turns

/-- Settles O37: each event replaces its channel, and shows the state that it leaves. -/
theorem dacChannelEvents : Obligations.DacChannelEvents := by
  unfold Obligations.DacChannelEvents
  intro s c
  refine ⟨fun clamp may long => ?_, fun ramp stay => ?_, fun ramp leave busy => ?_, fun q seq => ⟨fun half first => ?_, fun whole => ?_⟩⟩
  · exact turns_of_setReg (a := Reg.DAC_CH_RB c) (by unfold Reg.DAC_CH_RB Reg.DAC_CH_STAT; omega) (by simp)
      (if_pos ⟨clamp, may, long⟩)
  · refine turns_of_set ((if_pos ramp).trans (if_neg ?_))
    rw [stay]
    exact Bool.false_ne_true
  · refine turns_of_setReg (dacChStat_ne_dacStat c).symm List.mem_cons_self ((if_pos ramp).trans ((if_pos leave).trans (congrArg Host.Outcome.next (if_neg ?_))))
    rintro ⟨draining, -⟩
    rw [(dacFrame_clampNow s (List.mem_cons_self (l := [Reg.DAC_STAT])) (by simp) (List.mem_singleton_self c.val)).bit, busy] at draining
    · exact Bool.false_ne_true draining
    · simp only [List.mem_cons, List.not_mem_nil, or_false, not_or, Reg.PAGE_STAT, Reg.DAC_CH_STAT, Reg.DAC_STAT, Page.dac]
      omega
  · exact turns_of_set (by show execSwitchGainChange c s = _; simp only [execSwitchGainChange, seq]; exact if_pos ⟨half, first⟩)
  · exact turns_of_setReg (dacChStat_ne_dacStat c).symm List.mem_cons_self
      (by show execSwitchSequenceEnd c s = _; simp only [execSwitchSequenceEnd, seq]; exact if_pos whole)

end Sys2Proof.Machine
end

section
/-! PROOFS. O38: writes of the DAC page. What the access codes leave in a word, what a refused write changes, and the rules of the channel
registers. -/

namespace Sys2Proof.Machine

/-! ### Bits of a stored word (R4) -/

theorem RegRow.testBit_store (r : RegRow) (old v : Word) {i : Nat} (h : i < 32) :
    (r.store old v).toNat.testBit i =
      ((((old.toNat.testBit i ^^ (old.toNat.testBit i && r.rw.testBit i)) ^^ ((old.toNat.testBit i && r.w1c.testBit i) && v.toNat.testBit i)) ||
        (v.toNat.testBit i && r.rw.testBit i)) || (v.toNat.testBit i && r.w1s.testBit i)) := by
  unfold RegRow.store
  rw [BitVec.toNat_ofNat, Nat.testBit_mod_two_pow]
  simp [h, Nat.testBit_or, Nat.testBit_xor, Nat.testBit_and]

theorem fieldOf_one_eq_testBit (v : Word) (i : Nat) : fieldOf v i 1 = (v.toNat.testBit i).toNat := by
  rw [Nat.toNat_testBit, fieldOf, bitsOf, pow_one, Nat.shiftRight_eq_div_pow]

/-- A bit as a state reads it. -/
theorem decide_fieldOf_one (v : Word) (i : Nat) : decide (fieldOf v i 1 = 1) = v.toNat.testBit i := by
  rw [fieldOf_one_eq_testBit]
  cases v.toNat.testBit i <;> rfl

/-- An RW bit is as written. -/
theorem RegRow.fieldOf_store_rw {r : RegRow} {i : Nat} (h : i < 32) (rw_ : r.rw.testBit i = true) (w1c : r.w1c.testBit i = false) (old v : Word) :
    fieldOf (r.store old v) i 1 = fieldOf v i 1 := by
  rw [fieldOf_one_eq_testBit, fieldOf_one_eq_testBit, r.testBit_store old v h, rw_, w1c]
  cases old.toNat.testBit i <;> cases v.toNat.testBit i <;> cases r.w1s.testBit i <;> rfl

/-- A W1C bit that is written with 1 is clear. -/
theorem RegRow.fieldOf_store_w1c {r : RegRow} {i : Nat} (h : i < 32) (rw_ : r.rw.testBit i = false) (w1c : r.w1c.testBit i = true)
    (w1s : r.w1s.testBit i = false) (old : Word) {v : Word} (one : fieldOf v i 1 = 1) : fieldOf (r.store old v) i 1 = 0 := by
  have set : v.toNat.testBit i = true := by rw [← decide_fieldOf_one, one]; rfl
  rw [fieldOf_one_eq_testBit, r.testBit_store old v h, rw_, w1c, w1s, set]
  cases old.toNat.testBit i <;> rfl

/-! ### Refused writes with the CFG_REJ flag -/

theorem State.refused_of_flag (s : State) {stat b p : Nat} (hb : b < 32) (err : stat ≠ Reg.PAGE_ERR_STAT p) (cnt : stat ≠ Reg.PAGE_ERR_CNT p) :
    Refused s ((s.setBit stat b true).pageErrFlag p 0) stat b p := by
  have pages : Reg.PAGE_ERR_STAT p ≠ Reg.PAGE_ERR_CNT p := by unfold Reg.PAGE_ERR_STAT Reg.PAGE_ERR_CNT; omega
  refine ⟨?_, ?_, ?_, ?_⟩
  · rw [(onlyReports_pageErrFlag ..).bit (by simp [err, cnt]), State.bit_setBit_same _ _ _ hb]
  · exact (State.bit_setReg_other _ _ _ pages).trans (State.bit_setBit_same _ _ _ (by decide))
  · refine (counted_bump _ _).of_reg_eq ?_
    rw [State.reg_setBit_other _ _ _ pages.symm, State.reg_setBit_other _ _ _ cnt.symm]
  · exact ((onlyRegs_setReg s stat _).trans (onlyRegs_pageErrFlag _ p 0)).mono (by simp)

/-! ### The rules of the channel registers -/

section Channel

variable {s : State} {c : Fin 8} {path : Path}

theorem rowAt_dacChCfg (c : Fin 8) : rowAt (Reg.DAC_CH_CFG c) = ⟨0x12100, 8, 0x20, 0x737, 0x0, 0x0, 0x0, 0x0, 0x0, false⟩ := by
  revert c; decide

theorem rowAt_dacChStat (c : Fin 8) : rowAt (Reg.DAC_CH_STAT c) = ⟨0x12108, 8, 0x20, 0x0, 0x2700, 0x0, 0x0, 0x0, 0x0, false⟩ := by
  revert c; decide

theorem State.dacConditions_clamp (h : (s.dacCh c).st = .clamp) : s.dacConditions c = s := if_pos (Or.inr h)

theorem State.dacConditions_may (h : s.dacMayRun c = true) : s.dacConditions c = s := if_pos (Or.inl h)

/-- A CFG write that keeps the range stores, and holds the channel to the conditions. -/
theorem actDacCfg_same {v : Word} (same : fieldOf v 2 1 = s.fld (Reg.DAC_CH_CFG c) 2 1) :
    actDacCfg c s (rowAt (Reg.DAC_CH_CFG c)) (s.reg (Reg.DAC_CH_CFG c)) v =
      (s.setReg (Reg.DAC_CH_CFG c) (s.stored (Reg.DAC_CH_CFG c) v)).dacConditions c := by
  have same : fieldOf v 2 1 = fieldOf (s.reg (Reg.DAC_CH_CFG c)) 2 1 := same
  unfold actDacCfg
  simp [same]
  rfl

theorem stores_of_dacCfg {i : Instr} {v : Word} (run : exec i s = .next (s.hostWrite (.host path) (Reg.DAC_CH_CFG c) v (actDacCfg c)))
    (writable : s.writable (Reg.DAC_CH_CFG c) = true) (same : fieldOf v 2 1 = s.fld (Reg.DAC_CH_CFG c) 2 1)
    (stay : (s.setReg (Reg.DAC_CH_CFG c) (s.stored (Reg.DAC_CH_CFG c) v)).dacConditions c = s.setReg (Reg.DAC_CH_CFG c) (s.stored (Reg.DAC_CH_CFG c) v)) :
    Stores i s (Reg.DAC_CH_CFG c) v :=
  stores_of_exec (run.trans (congrArg Host.Outcome.next ((State.hostWrite_of_writable writable).trans ((actDacCfg_same same).trans stay))))

/-- EN as a write leaves it. -/
theorem State.bit_stored_dacEn (s : State) (c : Fin 8) (v w : Word) (en : w = s.stored (Reg.DAC_CH_CFG c) v) :
    (s.setReg (Reg.DAC_CH_CFG c) w).bit (Reg.DAC_CH_CFG c) 0 = decide (fieldOf v 0 1 = 1) := by
  rw [State.bit, State.reg_setReg_same, en, State.stored, rowAt_dacChCfg, RegRow.fieldOf_store_rw (by decide) (by decide) (by decide)]

/-- The conditions of R275 other than EN. -/
def State.dacFit (s : State) (c : Nat) : Bool :=
  s.pageOn Page.dac && s.bit Reg.CLK_MEDIA_STAT 7 && !s.bit (Reg.DAC_CH_STAT c) 9 && !s.bit (Reg.DAC_CH_STAT c) 10 && s.bit Reg.PWR_STAT 1 &&
    (decide (s.powerState = 0) || (decide (s.powerState = 1) && s.running))

theorem State.dacMayRun_eq (s : State) (c : Nat) : s.dacMayRun c = (s.bit (Reg.DAC_CH_CFG c) 0 && s.dacFit c) := by
  unfold State.dacMayRun State.dacFit
  cases s.bit (Reg.DAC_CH_CFG c) 0 <;> simp

theorem State.reg_setCfg (s : State) (c : Nat) (v : Word) {a : Nat} (h : a < 0x12100 ∨ a = Reg.DAC_CH_STAT c) :
    (s.setReg (Reg.DAC_CH_CFG c) v).reg a = s.reg a := by
  refine s.reg_setReg_other v ?_
  unfold Reg.DAC_CH_STAT at h
  unfold Reg.DAC_CH_CFG
  omega

theorem State.dacFit_setCfg (s : State) (c : Nat) (v : Word) : (s.setReg (Reg.DAC_CH_CFG c) v).dacFit c = s.dacFit c := by
  have low : ∀ a i, a < 0x12100 → (s.setReg (Reg.DAC_CH_CFG c) v).bit a i = s.bit a i :=
    fun a i ha => State.bit_of_reg (s.reg_setCfg c v (Or.inl ha)) i
  have stat : ∀ i, (s.setReg (Reg.DAC_CH_CFG c) v).bit (Reg.DAC_CH_STAT c) i = s.bit (Reg.DAC_CH_STAT c) i :=
    fun i => State.bit_of_reg (s.reg_setCfg c v (Or.inr rfl)) i
  have power : (s.setReg (Reg.DAC_CH_CFG c) v).powerState = s.powerState := State.fld_of_reg (s.reg_setCfg c v (Or.inl (by decide))) 8 3
  unfold State.dacFit State.pageOn State.running
  rw [low (Reg.PAGE_CTRL Page.dac) 0 (by decide), low Reg.CLK_MEDIA_STAT 7 (by decide), low Reg.CLK_MEDIA_STAT 0 (by decide),
    low Reg.PWR_STAT 1 (by decide), stat, stat, power]

theorem maskWrite_running {v : Word} (writable : s.writable (Reg.DAC_CH_CFG c) = true) (same : fieldOf v 2 1 = s.fld (Reg.DAC_CH_CFG c) 2 1)
    (may : s.dacMayRun c = true) (en : fieldOf v 0 1 = 1) : Stores (.maskWrite path c v) s (Reg.DAC_CH_CFG c) v := by
  refine stores_of_dacCfg rfl writable same (State.dacConditions_may ?_)
  rw [State.dacMayRun_eq, Bool.and_eq_true] at may
  rw [State.dacMayRun_eq, s.bit_stored_dacEn c v _ rfl, en, State.dacFit_setCfg, may.2]
  rfl

/-- A running channel whose EN goes starts its clear ramp. -/
theorem State.dacConditions_run (off : s.bit (Reg.DAC_CH_CFG c) 0 = false) (run : (s.dacCh c).st = .run) (seq : (s.dacCh c).seq = none)
    (stay : (s.dacCh c).toClamp = false) (pll : s.bit Reg.CLK_MEDIA_STAT 7 = true) (ocP : s.bit (Reg.DAC_CH_STAT c) 9 = false)
    (ocN : s.bit (Reg.DAC_CH_STAT c) 10 = false) (avdd : s.bit Reg.PWR_STAT 1 = true) :
    s.dacConditions c = s.setDacCh c { s.dacCh c with st := .clear, ramp := some 0, rampLevel := none, toClamp := true } := by
  have may : s.dacMayRun c = false := by rw [State.dacMayRun_eq, off]; rfl
  refine (if_neg (by simp [may, run])).trans ((if_neg (by simp [pll, ocP, ocN, avdd])).trans ?_)
  exact (if_neg (by simp [run, stay])).trans ((if_neg (by simp [run])).trans (if_pos ⟨by rw [seq]; rfl, run⟩))

theorem channelDisable_running {v : Word} (writable : s.writable (Reg.DAC_CH_CFG c) = true)
    (same : fieldOf v 2 1 = s.fld (Reg.DAC_CH_CFG c) 2 1) (run : (s.dacCh c).st = .run) (seq : (s.dacCh c).seq = none)
    (stay : (s.dacCh c).toClamp = false) (pll : s.bit Reg.CLK_MEDIA_STAT 7 = true) (ocP : s.bit (Reg.DAC_CH_STAT c) 9 = false)
    (ocN : s.bit (Reg.DAC_CH_STAT c) 10 = false) (avdd : s.bit Reg.PWR_STAT 1 = true) :
    Completes (.channelDisable path c v) s (fun t => t.reg (Reg.DAC_CH_CFG c) = s.stored (Reg.DAC_CH_CFG c) (setFieldOf v 0 1 0) ∧
      t.dacCh c = { s.dacCh c with st := .clear, ramp := some 0, rampLevel := none, toClamp := true } ∧ DacOnly s t c [Reg.DAC_CH_CFG c]) := by
  have kept : fieldOf (setFieldOf v 0 1 0) 2 1 = s.fld (Reg.DAC_CH_CFG c) 2 1 := by rw [fieldOf_setFieldOf_other _ _ (by decide), same]
  have off : (s.setReg (Reg.DAC_CH_CFG c) (s.stored (Reg.DAC_CH_CFG c) (setFieldOf v 0 1 0))).bit (Reg.DAC_CH_CFG c) 0 = false := by
    rw [s.bit_stored_dacEn c _ _ rfl, fieldOf_setFieldOf_same _ _ (by decide)]
    rfl
  have ramp := State.dacConditions_run (c := c) off run seq stay
    ((State.bit_of_reg (s.reg_setCfg c _ (Or.inl (by decide))) 7).trans pll) ((State.bit_of_reg (s.reg_setCfg c _ (Or.inr rfl)) 9).trans ocP)
    ((State.bit_of_reg (s.reg_setCfg c _ (Or.inr rfl)) 10).trans ocN) ((State.bit_of_reg (s.reg_setCfg c _ (Or.inl (by decide))) 1).trans avdd)
  refine ⟨_, congrArg Host.Outcome.next ((State.hostWrite_of_writable writable).trans ((actDacCfg_same kept).trans ramp)), ?_,
    State.dacCh_setDacCh_same .., ?_⟩
  · exact (State.reg_setDacCh _ _ (by unfold Reg.DAC_CH_CFG Reg.DAC_CH_STAT; omega)).trans (State.reg_setReg_same ..)
  · exact ((dacFrame_setReg s (by simp) _ _).trans (dacFrame_setDacCh _ _ (by simp) (by simp))).only

/-- A CFG write that changes the range is refused where the range is not available or a switch sequence runs. -/
theorem rangeSwitch_refused {v : Word} (writable : s.writable (Reg.DAC_CH_CFG c) = true) (changes : fieldOf v 2 1 ≠ s.fld (Reg.DAC_CH_CFG c) 2 1)
    (bad : (fieldOf v 2 1 = 1 ∧ s.bit Reg.DAC_STAT 2 = false) ∨ (s.dacCh c).code = 3) :
    Completes (.rangeSwitch path c v) s (fun t => Refused s t Reg.DAC_STAT 31 Page.dac) :=
  ⟨_, congrArg Host.Outcome.next ((State.hostWrite_of_writable writable).trans (if_pos ⟨decide_eq_true changes, bad⟩)),
    s.refused_of_flag (by decide) (by decide) (by decide)⟩

theorem rangeSwitch_clamped {v : Word} (writable : s.writable (Reg.DAC_CH_CFG c) = true) (changes : fieldOf v 2 1 ≠ s.fld (Reg.DAC_CH_CFG c) 2 1)
    (good : ¬ ((fieldOf v 2 1 = 1 ∧ s.bit Reg.DAC_STAT 2 = false) ∨ (s.dacCh c).code = 3)) (clamp : (s.dacCh c).st = .clamp) :
    Completes (.rangeSwitch path c v) s (fun t => t.reg (Reg.DAC_CH_CFG c) = s.stored (Reg.DAC_CH_CFG c) v ∧
      t.dacCh c = { s.dacCh c with range := decide (fieldOf v 2 1 = 1) } ∧ DacOnly s t c [Reg.DAC_CH_CFG c]) := by
  have stays := fun (u : State) (x : DacChan) (h : x.st = .clamp) =>
    State.dacConditions_clamp (s := u.setDacCh c x) (c := c) (by rw [State.dacCh_setDacCh_same, h])
  refine ⟨_, congrArg Host.Outcome.next ((State.hostWrite_of_writable writable).trans ((if_neg (fun h => good h.2)).trans
    ((congrArg (State.dacConditions · c) (if_pos ⟨clamp, decide_eq_true changes⟩)).trans (stays _ _ clamp)))), ?_, State.dacCh_setDacCh_same .., ?_⟩
  · exact (State.reg_setDacCh _ _ (by unfold Reg.DAC_CH_CFG Reg.DAC_CH_STAT; omega)).trans (State.reg_setReg_same ..)
  · exact ((dacFrame_setReg s (by simp) _ _).trans (dacFrame_setDacCh _ _ (by simp) (by simp))).only

/-! ### Tones and the status register -/

/-- The tone request of channel `c` after a write of `v` to its tone configuration (R282). -/
def State.toneAsked (s : State) (c : Nat) (v : Word) : Option Bool :=
  if fieldOf v 16 1 = s.fld (Reg.DAC_CH_TONE_CFG c) 16 1 then (s.dacCh c).toneReq else some (decide (fieldOf v 16 1 = 1))

/-- A tone follows a change of its EN. -/
theorem State.dacTone (s : State) {v : Word} (writable : s.writable (Reg.DAC_CH_TONE_CFG c) = true) :
    ∃ t, s.hostWrite (.host path) (Reg.DAC_CH_TONE_CFG c) v (actDacTone c) = t ∧ t.reg (Reg.DAC_CH_TONE_CFG c) = s.stored (Reg.DAC_CH_TONE_CFG c) v ∧
      t.dacCh c = { s.dacCh c with toneReq := s.toneAsked c v } ∧ DacOnly s t c [Reg.DAC_CH_TONE_CFG c] := by
  rw [State.hostWrite_of_writable writable]
  by_cases same : fieldOf v 16 1 = s.fld (Reg.DAC_CH_TONE_CFG c) 16 1
  · rw [State.toneAsked, if_pos same]
    exact ⟨_, if_pos same, State.reg_setReg_same .., rfl, (dacFrame_setReg s (by simp) _ _).only⟩
  · have asked : actDacTone c s (rowAt (Reg.DAC_CH_TONE_CFG c)) (s.reg (Reg.DAC_CH_TONE_CFG c)) v =
        (s.setReg (Reg.DAC_CH_TONE_CFG c) (s.stored (Reg.DAC_CH_TONE_CFG c) v)).setDacCh c
          { s.dacCh c with toneReq := some (decide (fieldOf v 16 1 = 1)) } := if_neg same
    rw [State.toneAsked, if_neg same, asked]
    refine ⟨_, rfl, ?_, State.dacCh_setDacCh_same .., ?_⟩
    · exact (State.reg_setDacCh _ _ (by unfold Reg.DAC_CH_TONE_CFG Reg.DAC_CH_STAT; omega)).trans (State.reg_setReg_same ..)
    · exact ((dacFrame_setReg s (by simp) _ _).trans (dacFrame_setDacCh _ _ (by simp) (by simp))).only

theorem State.fld_one (s : State) (a i : Nat) : s.fld a i 1 = (s.bit a i).toNat := by
  rw [State.fld, State.bit, decide_fieldOf_one, fieldOf_one_eq_testBit]

theorem State.toneAsked_on (s : State) (c : Nat) (v : Word) : s.toneAsked c (setFieldOf v 16 1 1) =
    if s.bit (Reg.DAC_CH_TONE_CFG c) 16 then (s.dacCh c).toneReq else some true := by
  rw [State.toneAsked, fieldOf_setFieldOf_same _ _ (by decide), State.fld_one]
  cases s.bit (Reg.DAC_CH_TONE_CFG c) 16 <;> rfl

theorem State.toneAsked_off (s : State) (c : Nat) (v : Word) : s.toneAsked c (setFieldOf v 16 1 0) =
    if s.bit (Reg.DAC_CH_TONE_CFG c) 16 then some false else (s.dacCh c).toneReq := by
  rw [State.toneAsked, fieldOf_setFieldOf_same _ _ (by decide), State.fld_one]
  cases s.bit (Reg.DAC_CH_TONE_CFG c) 16 <;> rfl

theorem foldl_eq_self {α β : Type} {f : α → β → α} {a : α} {l : List β} (h : ∀ x ∈ l, f a x = a) : l.foldl f a = a := by
  induction l with
  | nil => rfl
  | cons x l ih => rw [List.foldl_cons, h x List.mem_cons_self, ih fun y hy => h y (List.mem_cons_of_mem _ hy)]

/-- Without a partner that mirrors the channel nothing fades back (R287). -/
theorem State.unmirror_alone (h : ∀ d, d < 8 → ∀ m, (s.dacCh d).mirror = some m → m.source ≠ c.val) : s.unmirror c = s := by
  refine foldl_eq_self fun d hd => ?_
  cases mirror : (s.dacCh d).mirror with
  | none => simp only [mirror]
  | some m =>
    simp only [mirror]
    exact if_neg (fun both => h d (List.mem_range.1 hd) m mirror both.1)

theorem State.bit_stored_w1c (s : State) {v w : Word} {i : Nat} (h : i = 8 ∨ i = 9 ∨ i = 10) (one : fieldOf v i 1 = 1)
    (stored : w = s.stored (Reg.DAC_CH_STAT c) v) : (s.setReg (Reg.DAC_CH_STAT c) w).bit (Reg.DAC_CH_STAT c) i = false := by
  have zero : fieldOf w i 1 = 0 := by
    rw [stored, State.stored, rowAt_dacChStat]
    rcases h with rfl | rfl | rfl <;> exact RegRow.fieldOf_store_w1c (by decide) (by decide) (by decide) (by decide) _ one
  rw [State.bit, State.reg_setReg_same, zero]
  rfl

/-- A channel whose read-back action has ended (R287). -/
def DacChan.settled (x : DacChan) : DacChan := { x with leave := decide (x.st = .fault), action := false, faultAt := none }

/-- The state after the status register takes the word `w` and the read-back action of channel `c` ends. -/
def State.actionEnded (s : State) (c : Nat) (w : Word) : State :=
  ((s.setReg (Reg.DAC_CH_STAT c) w).setDacCh c (s.dacCh c).settled).setLeaky c 0

theorem State.dacCh_setReg (s : State) (a : Nat) (v : Word) (d : Nat) : (s.setReg a v).dacCh d = s.dacCh d := rfl

theorem State.dacCh_setLeaky (s : State) (c n d : Nat) : (s.setLeaky c n).dacCh d = s.dacCh d := s.dacCh_setReg _ _ d

theorem State.dacCh_actionEnded (s : State) (c : Nat) (w : Word) (d : Nat) :
    (s.actionEnded c w).dacCh d = if d = c then (s.dacCh c).settled else s.dacCh d := by
  rw [State.actionEnded, State.dacCh_setLeaky]
  by_cases own : d = c
  · rw [if_pos own, own, State.dacCh_setDacCh_same]
  · rw [if_neg own, State.dacCh_setDacCh_other _ _ own]
    exact State.dacCh_setReg s _ w d

theorem State.bit_actionEnded (s : State) (c : Nat) (w : Word) :
    (s.actionEnded c w).bit (Reg.DAC_CH_STAT c) 8 = (s.setReg (Reg.DAC_CH_STAT c) w).bit (Reg.DAC_CH_STAT c) 8 := by
  have rb : Reg.DAC_CH_STAT c ≠ Reg.DAC_CH_RB c := by unfold Reg.DAC_CH_STAT Reg.DAC_CH_RB; omega
  rw [State.actionEnded, State.setLeaky, State.bit_of_reg (State.reg_setFld_other _ _ _ _ rb) 8, State.bit_setDacCh _ _ _ (by decide) (by decide)]

theorem dacFrame_actionEnded (s : State) (c : Nat) (w : Word) :
    DacFrame s (s.actionEnded c w) [Reg.DAC_CH_STAT c, Reg.DAC_STAT, Reg.DAC_CH_RB c] [c] := by
  unfold State.actionEnded
  exact (dacFrame_setReg s List.mem_cons_self w [c]).trans
    ((dacFrame_setDacCh _ _ List.mem_cons_self (List.mem_singleton_self c)).trans (dacFrame_setReg _ (by simp) _ _))

theorem State.unmirror_actionEnded (w : Word) (alone : ∀ d, d < 8 → ∀ m, (s.dacCh d).mirror = some m → m.source ≠ c.val) :
    (s.actionEnded c w).unmirror c = s.actionEnded c w := by
  refine State.unmirror_alone fun d hd m hm => ?_
  rw [State.dacCh_actionEnded] at hm
  by_cases own : d = c.val
  · rw [if_pos own] at hm
    exact alone c c.isLt m hm
  · rw [if_neg own] at hm
    exact alone d hd m hm

/-- RB_FAULT cleared ends the read-back action. -/
theorem readbackFaultClear_ends (v : Word) (writable : s.writable (Reg.DAC_CH_STAT c) = true)
    (alone : ∀ d, d < 8 → ∀ m, (s.dacCh d).mirror = some m → m.source ≠ c.val) :
    Completes (.readbackFaultClear path c v) s (fun t => t.bit (Reg.DAC_CH_STAT c) 8 = false ∧ t.fld (Reg.DAC_CH_RB c) 0 8 = 0 ∧
      t.dacCh c = { s.dacCh c with leave := decide ((s.dacCh c).st = .fault), action := false, faultAt := none } ∧
      DacOnly s t c [Reg.DAC_CH_RB c]) := by
  have one : fieldOf (setFieldOf v 8 1 1) 8 1 = 1 := by rw [fieldOf_setFieldOf_same _ _ (by decide)]; rfl
  have run : actDacStat c s (rowAt (Reg.DAC_CH_STAT c)) (s.reg (Reg.DAC_CH_STAT c)) (setFieldOf v 8 1 1) =
      (s.actionEnded c (s.stored (Reg.DAC_CH_STAT c) (setFieldOf v 8 1 1))).unmirror c := if_neg (by rw [one]; decide)
  refine ⟨_, congrArg Host.Outcome.next ((State.hostWrite_of_writable writable).trans (run.trans (State.unmirror_actionEnded _ alone))), ?_, ?_, ?_, ?_⟩
  · rw [State.bit_actionEnded]
    exact s.bit_stored_w1c (Or.inl rfl) one rfl
  · exact State.fld_setFld_same _ _ _ (by decide)
  · exact (s.dacCh_actionEnded c _ c).trans (if_pos rfl)
  · exact (dacFrame_actionEnded s c _).only

/-- The over-current bits are cleared. -/
theorem overcurrentClear_clears {v : Word} (writable : s.writable (Reg.DAC_CH_STAT c) = true) (keep : fieldOf v 8 1 = 0) :
    Completes (.overcurrentClear path c v) s (fun t =>
      t.bit (Reg.DAC_CH_STAT c) 9 = false ∧ t.bit (Reg.DAC_CH_STAT c) 10 = false ∧ OnlyRegs s t [Reg.DAC_CH_STAT c]) := by
  have both : ∀ i, i < 2 → fieldOf (setFieldOf v 9 2 3) (9 + i) 1 = 1 := by
    intro i hi
    rw [fieldOf_one_eq_testBit, setFieldOf, BitVec.toNat_ofNat, Nat.testBit_mod_two_pow, testBit_setBitsOf]
    have : i = 0 ∨ i = 1 := by omega
    rcases this with rfl | rfl <;> rfl
  have zero : fieldOf (setFieldOf v 9 2 3) 8 1 = 0 := by rw [fieldOf_setFieldOf_other _ _ (by decide), keep]
  exact ⟨_, congrArg Host.Outcome.next ((State.hostWrite_of_writable writable).trans (if_pos zero)),
    s.bit_stored_w1c (by simp) (both 0 (by decide)) rfl, s.bit_stored_w1c (by simp) (both 1 (by decide)) rfl, onlyRegs_setReg ..⟩

end Channel

/-- Settles O38: CFG writes store, start a ramp or are refused; tones are asked for; and the status bits are cleared. -/
theorem dacWrites : Obligations.DacWrites := by
  unfold Obligations.DacWrites
  have set2 : ∀ (v : Word) (b : Nat), fieldOf (setFieldOf v 0 1 b) 2 1 = fieldOf v 2 1 := fun v b => fieldOf_setFieldOf_other v b (by decide)
  refine ⟨fun s path c v writable => ⟨fun clr => stores_of_exec (congrArg Host.Outcome.next (State.hostWrite_of_writable clr)), fun same clamp => ?_,
    fun same may en => maskWrite_running writable same may en,
    fun same run seq stay pll ocP ocN avdd => channelDisable_running writable same run seq stay pll ocP ocN avdd,
    fun changes => ⟨rangeSwitch_refused writable changes, rangeSwitch_clamped writable changes⟩⟩, fun s path c v => ⟨fun writable => ?_, fun writable =>
      ⟨readbackFaultClear_ends v writable, overcurrentClear_clears writable⟩⟩⟩
  · exact ⟨stores_of_dacCfg rfl writable same (State.dacConditions_clamp clamp),
      stores_of_dacCfg rfl writable ((set2 v 1).trans same) (State.dacConditions_clamp clamp),
      stores_of_dacCfg rfl writable ((set2 v 0).trans same) (State.dacConditions_clamp clamp)⟩
  · obtain ⟨t, run, stored, chan, only⟩ := s.dacTone (path := path) (v := setFieldOf v 16 1 1) writable
    obtain ⟨t', run', stored', chan', only'⟩ := s.dacTone (path := path) (v := setFieldOf v 16 1 0) writable
    exact ⟨⟨t, congrArg Host.Outcome.next run, stored, by rw [chan, State.toneAsked_on], only⟩,
      ⟨t', congrArg Host.Outcome.next run', stored', by rw [chan', State.toneAsked_off], only'⟩⟩

end Sys2Proof.Machine
end

section
/-! PROOFS. O39: forced clears, the filter mode, supply failures, over-currents and the read-back of the DACs. -/

namespace Sys2Proof.Machine

theorem OnlyReports.dac {s t : State} {l : List Nat} (h : OnlyReports s t l) : t.dac = s.dac := by rw [h.1]

theorem OnlyReports.dacCh {s t : State} {l : List Nat} (h : OnlyReports s t l) (c : Nat) : t.dacCh c = s.dacCh c := by
  rw [State.dacCh, h.dac, State.dacCh]

theorem DacFrame.chans_only {s t : State} {l cs : List Nat} (h : DacFrame s t l cs) :
    t = { s with regs := t.regs, dac := { s.dac with chans := t.dac.chans } } := by
  have dac : t.dac = { s.dac with chans := t.dac.chans } := congrArg (fun r => { chans := t.dac.chans, release := r : Dac }) h.release
  rw [← dac]
  exact h.rest

/-! ### Forced clears (R278, R279) -/

/-- What forcing or releasing the clear leaves: CLR_ACTIVE shows `on`, the ramp of the outputs is `release`, the event is reported, and beyond
it only `l` differs. -/
structure Forced (s t : State) (on : Bool) (release : Option Nat) (l : List Nat) : Prop where
  active : t.bit Reg.DAC_STAT 0 = on
  irq : t.bit (Reg.PAGE_IRQ_STAT Page.dac) 2 = true
  ramp : t.dac.release = release
  rest : t = { s with regs := t.regs, pmu := t.pmu, out := t.out, dac := { s.dac with release := t.dac.release } }
  regs : KeepsRegs s t (Reg.DAC_STAT :: raiseRegs Page.dac ++ l)

/-- Some clear is asserted: the pin's, SWCLR's or that of a heartbeat expiry. -/
def State.clearOn (s : State) : Bool := s.bit Reg.DAC_STAT 1 || s.bit Reg.DAC_CTRL 4 || s.pwr.hbClear

/-- The outputs' ramp after a change of the clear. -/
def State.clearRamp (s : State) : Option Nat := if s.clearOn then none else if s.bit Reg.DAC_STAT 0 then some 0 else s.dac.release

/-- The reports of a change of the clear. -/
def State.clearShown (s : State) (asserted : Bool) : State :=
  if asserted then ((s.setBit Reg.DAC_STAT 0 s.clearOn).raise Page.dac 2).bump Reg.DAC_OUTCLR_CNT
  else (s.setBit Reg.DAC_STAT 0 s.clearOn).raise Page.dac 2

/-- The registers that a change of the clear reports in beside DAC_STAT. -/
def clearCounts (asserted : Bool) : List Nat := if asserted then [Reg.DAC_OUTCLR_CNT] else []

theorem State.clearShown_reports (s : State) (asserted : Bool) :
    OnlyReports s (s.clearShown asserted) (Reg.DAC_STAT :: raiseRegs Page.dac ++ clearCounts asserted) := by
  have raised := (onlyReports_setBit s Reg.DAC_STAT 0 s.clearOn).trans (onlyReports_raise _ Page.dac 2)
  cases asserted with
  | false => exact raised.mono (by simp [clearCounts])
  | true => exact (raised.trans (onlyReports_bump _ Reg.DAC_OUTCLR_CNT)).mono (by simp [clearCounts])

theorem State.clearShown_raised (s : State) (asserted : Bool) {a : Nat} (h : a ≠ Reg.DAC_OUTCLR_CNT) :
    (s.clearShown asserted).reg a = ((s.setBit Reg.DAC_STAT 0 s.clearOn).raise Page.dac 2).reg a := by
  cases asserted with
  | false => rfl
  | true => exact State.reg_bump_other _ h

theorem State.clearForced_eq (s : State) (asserted : Bool) :
    s.clearForced asserted = { s.clearShown asserted with dac := { s.dac with release := s.clearRamp } } := by
  have dac := (s.clearShown_reports asserted).dac
  rw [← dac]
  unfold State.clearRamp
  rw [← dac]
  rfl

theorem State.clearForced_forced (s : State) (asserted : Bool) :
    Forced s (s.clearForced asserted) s.clearOn s.clearRamp (clearCounts asserted) := by
  have shown := s.clearShown_reports asserted
  have active : (s.clearShown asserted).bit Reg.DAC_STAT 0 = s.clearOn := by
    rw [State.bit_of_reg (s.clearShown_raised asserted (by decide)), (onlyReports_raise ..).bit (by decide), State.bit_setBit_same _ _ _ (by decide)]
  have irq : (s.clearShown asserted).bit (Reg.PAGE_IRQ_STAT Page.dac) 2 = true := by
    rw [State.bit_of_reg (s.clearShown_raised asserted (by decide)), State.bit_raise_same _ _ (by decide)]
  rw [State.clearForced_eq]
  generalize s.clearShown asserted = t at shown active irq
  exact ⟨active, irq, rfl, by rw [shown.1], shown.2⟩

theorem State.clearForced_counted (s : State) : Counted s (s.clearForced true) Reg.DAC_OUTCLR_CNT := by
  have counted := (counted_bump ((s.setBit Reg.DAC_STAT 0 s.clearOn).raise Page.dac 2) Reg.DAC_OUTCLR_CNT).of_reg_eq
    (s := s) (by rw [State.reg_raise _ (by decide), State.reg_setBit_other _ _ _ (by decide)])
  rw [State.clearForced_eq]
  exact counted

theorem State.clearForced_pin (s : State) (asserted : Bool) : (s.clearForced asserted).bit Reg.DAC_STAT 1 = s.bit Reg.DAC_STAT 1 := by
  have pin : (s.clearShown asserted).bit Reg.DAC_STAT 1 = s.bit Reg.DAC_STAT 1 := by
    rw [State.bit_of_reg (s.clearShown_raised asserted (by decide)), (onlyReports_raise ..).bit (by decide), State.bit_setBit _ _ _ (by decide),
      if_neg (by decide)]
  rw [State.clearForced_eq]
  exact pin

/-- A change of the clear after a change of registers that are not part of it. -/
theorem Forced.after {s u t : State} {on : Bool} {release : Option Nat} {l m : List Nat} (h : Forced u t on release l) (g : OnlyRegs s u m) :
    Forced s t on release (m ++ l) where
  active := h.active
  irq := h.irq
  ramp := h.ramp
  rest := by rw [h.rest, g.1]
  regs := (g.keepsRegs.trans h.regs).mono (by intro a; simp only [List.mem_append, List.mem_cons]; tauto)

theorem Forced.mono {s t : State} {on : Bool} {release : Option Nat} {l m : List Nat} (h : Forced s t on release l)
    (sub : l ⊆ Reg.DAC_STAT :: m) : Forced s t on release m :=
  ⟨h.active, h.irq, h.ramp, h.rest, h.regs.mono (by
    intro a ha
    rw [List.mem_append] at ha
    rcases ha with ha | ha
    · exact List.mem_append_left _ ha
    · have := sub ha
      rw [List.mem_cons] at this
      rcases this with rfl | this
      · exact List.mem_cons_self
      · exact List.mem_append_right _ this)⟩

section Clear

variable {s : State}

theorem outclrAssert_forces (idle : s.bit Reg.DAC_STAT 1 = false) (vio : s.pwr.vioA = true) :
    Completes .outclrAssert s (fun t => t.bit Reg.DAC_STAT 1 = true ∧ Counted s t Reg.DAC_OUTCLR_CNT ∧ Forced s t true none [Reg.DAC_OUTCLR_CNT]) := by
  have pin : (s.setBit Reg.DAC_STAT 1 true).bit Reg.DAC_STAT 1 = true := State.bit_setBit_same _ _ _ (by decide)
  have on : (s.setBit Reg.DAC_STAT 1 true).clearOn = true := by rw [State.clearOn, pin]; rfl
  have ramp : (s.setBit Reg.DAC_STAT 1 true).clearRamp = none := by rw [State.clearRamp, on]; rfl
  have forced := (State.clearForced_forced (s.setBit Reg.DAC_STAT 1 true) true).after (s := s) (m := [Reg.DAC_STAT]) (onlyRegs_setReg ..)
  rw [on, ramp] at forced
  exact ⟨_, if_neg (by simp [idle, vio]), (State.clearForced_pin ..).trans pin,
    (State.clearForced_counted _).of_reg_eq (State.reg_setBit_other _ _ _ (by decide)), forced.mono (by simp [clearCounts])⟩

theorem outclrRelease_releases (pin : s.bit Reg.DAC_STAT 1 = true) (vio : s.pwr.vioA = true) :
    Completes .outclrRelease s (fun t => t.bit Reg.DAC_STAT 1 = false ∧ Forced s t (s.bit Reg.DAC_CTRL 4 || s.pwr.hbClear)
      (if s.bit Reg.DAC_CTRL 4 || s.pwr.hbClear then none else if s.bit Reg.DAC_STAT 0 then some 0 else s.dac.release) []) := by
  have low : (s.setBit Reg.DAC_STAT 1 false).bit Reg.DAC_STAT 1 = false := State.bit_setBit_same _ _ _ (by decide)
  have on : (s.setBit Reg.DAC_STAT 1 false).clearOn = (s.bit Reg.DAC_CTRL 4 || s.pwr.hbClear) := by
    rw [State.clearOn, low, State.bit_setBit_other _ _ _ _ (by decide)]
    rfl
  have ramp : (s.setBit Reg.DAC_STAT 1 false).clearRamp =
      if s.bit Reg.DAC_CTRL 4 || s.pwr.hbClear then none else if s.bit Reg.DAC_STAT 0 then some 0 else s.dac.release := by
    have active : (s.setBit Reg.DAC_STAT 1 false).bit Reg.DAC_STAT 0 = s.bit Reg.DAC_STAT 0 :=
      (State.bit_setBit _ _ _ (by decide) _).trans (if_neg (by decide))
    rw [State.clearRamp, on, active]
    rfl
  have forced := (State.clearForced_forced (s.setBit Reg.DAC_STAT 1 false) false).after (s := s) (m := [Reg.DAC_STAT]) (onlyRegs_setReg ..)
  rw [on, ramp] at forced
  exact ⟨_, if_pos ⟨pin, vio⟩, (State.clearForced_pin ..).trans low, forced.mono (by simp [clearCounts])⟩

/-! ### Writes of DAC_CTRL -/

/-- The clamped channels take the filter mode `on` when it changes (R280). -/
def State.filterTaken (s : State) (changes on : Bool) (l : List Nat) : State :=
  l.foldl (fun u c => if (u.dacCh c).st = .clamp ∧ changes then u.setDacCh c { u.dacCh c with filt := on } else u) s

theorem State.filterTaken_same (s : State) (on : Bool) (l : List Nat) : s.filterTaken false on l = s :=
  foldl_eq_self fun _ _ => if_neg (fun h => Bool.false_ne_true h.2)

theorem actDacCtrl_eq (v : Word) (r : RegRow) :
    actDacCtrl s r (s.reg Reg.DAC_CTRL) v =
      if decide (fieldOf v 0 1 ≠ s.fld Reg.DAC_CTRL 0 1) ∧ (List.range 8).any (fun c => decide ((s.dacCh c).code = 3)) then s.dacRefuse
      else ((s.setFld Reg.DAC_CTRL 0 1 (fieldOf v 0 1)).filterTaken (decide (fieldOf v 0 1 ≠ s.fld Reg.DAC_CTRL 0 1)) (decide (fieldOf v 0 1 = 1))
        (List.range 8)).setSwclr (decide (fieldOf v 4 1 = 1)) := rfl

/-- A write that keeps the filter mode changes SWCLR only. -/
theorem actDacCtrl_same {v : Word} (same : fieldOf v 0 1 = s.fld Reg.DAC_CTRL 0 1) (r : RegRow) :
    actDacCtrl s r (s.reg Reg.DAC_CTRL) v = (s.setFld Reg.DAC_CTRL 0 1 (fieldOf v 0 1)).setSwclr (decide (fieldOf v 4 1 = 1)) := by
  have unchanged : decide (fieldOf v 0 1 ≠ s.fld Reg.DAC_CTRL 0 1) = false := by simp [same]
  rw [actDacCtrl_eq, unchanged, if_neg (fun h => Bool.false_ne_true h.1), State.filterTaken_same]

theorem State.bit_setMode (s : State) (n : Nat) : (s.setFld Reg.DAC_CTRL 0 1 n).bit Reg.DAC_CTRL 4 = s.bit Reg.DAC_CTRL 4 := by
  rw [State.bit, State.reg_setFld, if_pos rfl, fieldOf_setFieldOf_other _ _ (by decide), State.bit]

theorem softwareClear_changes {path : Path} {v : Word} (writable : s.writable Reg.DAC_CTRL = true) (same : fieldOf v 0 1 = s.fld Reg.DAC_CTRL 0 1)
    {on : Bool} (asked : decide (fieldOf v 4 1 = 1) = on) (was : s.bit Reg.DAC_CTRL 4 = !on) :
    Completes (.softwareClear path v) s (fun t => t.bit Reg.DAC_CTRL 4 = on ∧
      Forced s t (on || (s.bit Reg.DAC_STAT 1 || s.pwr.hbClear))
        (if on || (s.bit Reg.DAC_STAT 1 || s.pwr.hbClear) then none else if s.bit Reg.DAC_STAT 0 then some 0 else s.dac.release)
        (Reg.DAC_CTRL :: clearCounts on) ∧ (on = true → Counted s t Reg.DAC_OUTCLR_CNT)) := by
  generalize hu : (s.setFld Reg.DAC_CTRL 0 1 (fieldOf v 0 1)).setBit Reg.DAC_CTRL 4 on = u
  have only : OnlyRegs s u [Reg.DAC_CTRL] := hu ▸ ((onlyRegs_setReg s Reg.DAC_CTRL _).trans (onlyRegs_setReg _ Reg.DAC_CTRL _)).mono (by simp)
  have ctrl : u.bit Reg.DAC_CTRL 4 = on := hu ▸ State.bit_setBit_same _ _ _ (by decide)
  have stat : ∀ i, u.bit Reg.DAC_STAT i = s.bit Reg.DAC_STAT i := fun i => State.bit_of_reg (only.2 _ (by decide)) i
  have clearOn : u.clearOn = (on || (s.bit Reg.DAC_STAT 1 || s.pwr.hbClear)) := by
    rw [State.clearOn, ctrl, stat, only.1]
    cases on <;> cases s.bit Reg.DAC_STAT 1 <;> rfl
  have ramp : u.clearRamp = if on || (s.bit Reg.DAC_STAT 1 || s.pwr.hbClear) then none else if s.bit Reg.DAC_STAT 0 then some 0 else s.dac.release := by
    rw [State.clearRamp, clearOn, stat, only.1]
  have run : actDacCtrl s (rowAt Reg.DAC_CTRL) (s.reg Reg.DAC_CTRL) v = u.clearForced on := by
    rw [actDacCtrl_same same, asked, ← hu]
    refine if_neg ?_
    rw [State.bit_setMode, was]
    cases on <;> decide
  have forced := (u.clearForced_forced on).after only
  rw [clearOn, ramp] at forced
  refine ⟨_, congrArg Host.Outcome.next ((State.hostWrite_of_writable writable).trans run), ?_, forced, fun set => ?_⟩
  · exact (State.bit_of_reg ((u.clearForced_forced on).regs _ (by cases on <;> decide)) 4).trans ctrl
  · rw [set]
    exact (State.clearForced_counted u).of_reg_eq (only.2 _ (by decide))

/-- A channel once the filter mode has become `on`. -/
def DacChan.modeTaken (x : DacChan) (on : Bool) : DacChan := if x.st = .clamp then { x with filt := on } else x

theorem State.dacCh_filterStep (s : State) (on : Bool) (c d : Nat) :
    (if (s.dacCh c).st = .clamp ∧ (true : Bool) then s.setDacCh c { s.dacCh c with filt := on } else s).dacCh d =
      if d = c then (s.dacCh c).modeTaken on else s.dacCh d := by
  unfold DacChan.modeTaken
  by_cases own : d = c
  · subst own
    by_cases clamp : (s.dacCh d).st = .clamp
    · rw [if_pos ⟨clamp, rfl⟩, if_pos rfl, if_pos clamp, State.dacCh_setDacCh_same]
    · rw [if_neg (fun h => clamp h.1), if_pos rfl, if_neg clamp]
  · rw [if_neg own]
    split
    · exact State.dacCh_setDacCh_other _ _ own
    · rfl

theorem DacChan.modeTaken_twice (x : DacChan) (on : Bool) : (x.modeTaken on).modeTaken on = x.modeTaken on := by
  unfold DacChan.modeTaken
  by_cases clamp : x.st = .clamp
  · rw [if_pos clamp, if_pos clamp]
  · rw [if_neg clamp, if_neg clamp]

theorem State.dacCh_filterTaken (s : State) (on : Bool) (l : List Nat) (d : Nat) :
    (s.filterTaken true on l).dacCh d = if d ∈ l then (s.dacCh d).modeTaken on else s.dacCh d := by
  induction l generalizing s with
  | nil => rfl
  | cons c l ih =>
    refine (ih _).trans ?_
    rw [State.dacCh_filterStep]
    by_cases own : d = c
    · subst own
      rw [if_pos rfl, if_pos List.mem_cons_self, DacChan.modeTaken_twice, ite_self]
    · rw [if_neg own]
      simp only [List.mem_cons, own, false_or]

theorem dacFrame_filterTaken (s : State) (changes on : Bool) (l : List Nat) :
    DacFrame s (s.filterTaken changes on l) (l.map (fun c => Reg.DAC_CH_STAT c)) l := by
  refine DacFrame.foldl l (fun u c hc => ?_) s
  split
  · exact dacFrame_setDacCh u _ (List.mem_map_of_mem hc) hc
  · exact DacFrame.refl _ _ _

theorem dacCtrl_notMem_stats : Reg.DAC_CTRL ∉ (List.range 8).map (fun c => Reg.DAC_CH_STAT c) := by decide

theorem filterSwitch_taken {path : Path} {v : Word} (writable : s.writable Reg.DAC_CTRL = true) (changes : fieldOf v 0 1 ≠ s.fld Reg.DAC_CTRL 0 1)
    (same : s.bit Reg.DAC_CTRL 4 = true ↔ fieldOf v 4 1 = 1) (quiet : ∀ c, c < 8 → (s.dacCh c).code ≠ 3) :
    Completes (.filterSwitch path v) s (fun t => t.fld Reg.DAC_CTRL 0 1 = fieldOf v 0 1 ∧
      (∀ c, c < 8 → t.dacCh c = (s.dacCh c).modeTaken (decide (fieldOf v 0 1 = 1))) ∧
      DacFrame s t (Reg.DAC_CTRL :: (List.range 8).map (fun c => Reg.DAC_CH_STAT c)) (List.range 8)) := by
  have none : (List.range 8).any (fun c => decide ((s.dacCh c).code = 3)) = false := by
    rw [List.any_eq_false]
    exact fun c hc => by simpa using quiet c (List.mem_range.1 hc)
  have frame := dacFrame_filterTaken (s.setFld Reg.DAC_CTRL 0 1 (fieldOf v 0 1)) true (decide (fieldOf v 0 1 = 1)) (List.range 8)
  have swclr : ((s.setFld Reg.DAC_CTRL 0 1 (fieldOf v 0 1)).filterTaken true (decide (fieldOf v 0 1 = 1)) (List.range 8)).bit Reg.DAC_CTRL 4 =
      decide (fieldOf v 4 1 = 1) := by
    rw [frame.bit dacCtrl_notMem_stats, State.bit_setMode, Bool.eq_iff_iff, same, decide_eq_true_iff]
  have run : actDacCtrl s (rowAt Reg.DAC_CTRL) (s.reg Reg.DAC_CTRL) v =
      (s.setFld Reg.DAC_CTRL 0 1 (fieldOf v 0 1)).filterTaken true (decide (fieldOf v 0 1 = 1)) (List.range 8) := by
    rw [actDacCtrl_eq, none, if_neg (fun h => Bool.false_ne_true h.2), decide_eq_true changes]
    exact if_pos swclr
  have one : fieldOf v 0 1 < 2 ^ 1 := Nat.mod_lt _ (by decide)
  refine ⟨_, congrArg Host.Outcome.next ((State.hostWrite_of_writable writable).trans run), ?_, fun c hc => ?_, ?_⟩
  · rw [State.fld_of_reg (frame.regs _ dacCtrl_notMem_stats), State.fld_setFld_same _ _ _ (by decide), Nat.mod_eq_of_lt one]
  · rw [State.dacCh_filterTaken, if_pos (List.mem_range.2 hc)]
    rfl
  · exact (dacFrame_setReg s List.mem_cons_self _ _).trans (frame.mono (List.subset_cons_self _ _) (List.Subset.refl _))

theorem filterSwitch_refused {path : Path} {v : Word} (writable : s.writable Reg.DAC_CTRL = true) (changes : fieldOf v 0 1 ≠ s.fld Reg.DAC_CTRL 0 1)
    {c : Nat} (hc : c < 8) (busy : (s.dacCh c).code = 3) :
    Completes (.filterSwitch path v) s (fun t => Refused s t Reg.DAC_STAT 31 Page.dac) :=
  ⟨_, congrArg Host.Outcome.next ((State.hostWrite_of_writable writable).trans (if_pos ⟨decide_eq_true changes,
    List.any_eq_true.2 ⟨c, List.mem_range.2 hc, decide_eq_true busy⟩⟩)), s.refused_of_flag (by decide) (by decide) (by decide)⟩

end Clear

/-! ### Supplies and over-currents -/

section Fault

variable {s : State}

theorem dacFrame_dacRelease (s : State) (c : Nat) : DacFrame s (s.dacRelease c) [Reg.DAC_CH_STAT c, Reg.DAC_STAT] [c] := by
  have set := fun x : DacChan => dacFrame_setDacCh s x (l := [Reg.DAC_CH_STAT c, Reg.DAC_STAT]) List.mem_cons_self (List.mem_singleton_self c)
  unfold State.dacRelease
  dsimp only
  split
  · exact DacFrame.refl _ _ _
  · split
    · split
      · exact set _
      · exact dacFrame_clampNow s List.mem_cons_self (by simp) (List.mem_singleton_self c)
    · split
      · exact set _
      · exact (set _).trans (dacFrame_showFilterSwitch _ (by simp) _)

theorem dacFrame_dacConditions (s : State) (c : Nat) : DacFrame s (s.dacConditions c) [Reg.DAC_CH_STAT c, Reg.DAC_STAT] [c] := by
  unfold State.dacConditions
  split
  · exact DacFrame.refl _ _ _
  · split
    · exact dacFrame_clampNow s List.mem_cons_self (by simp) (List.mem_singleton_self c)
    · exact dacFrame_dacRelease s c

/-- Without AVDD a channel is clamped at once. -/
theorem State.dacConditions_supply (h : s.bit Reg.PWR_STAT 1 = false) (c : Nat) : ((s.dacConditions c).dacCh c).st = .clamp := by
  have may : s.dacMayRun c = false := by rw [State.dacMayRun_eq, State.dacFit, h]; simp
  unfold State.dacConditions
  by_cases clamp : (s.dacCh c).st = .clamp
  · rw [if_pos (Or.inr clamp), clamp]
  · rw [if_neg (by simp [may, clamp]), if_pos (by simp [h]), State.dacCh_clampNow]
    rfl

/-- Every channel of a list is held to the conditions. -/
def State.dacHeld (s : State) (l : List Nat) : State := l.foldl (fun t c => t.dacConditions c) s

theorem State.dacHeld_cons (s : State) (c : Nat) (l : List Nat) : s.dacHeld (c :: l) = (s.dacConditions c).dacHeld l := rfl

theorem dacFrame_dacHeld (s : State) (l : List Nat) : DacFrame s (s.dacHeld l) (Reg.DAC_STAT :: l.map (fun c => Reg.DAC_CH_STAT c)) l :=
  DacFrame.foldl l (fun u c hc => (dacFrame_dacConditions u c).mono
    (by simp only [List.cons_subset, List.nil_subset, and_true]
        exact ⟨List.mem_cons_of_mem _ (List.mem_map_of_mem hc), List.mem_cons_self⟩)
    (by simpa using hc)) s

theorem State.dacHeld_clamp (l : List Nat) {d : Nat} (clamp : (s.dacCh d).st = .clamp) : (s.dacHeld l).dacCh d = s.dacCh d := by
  induction l generalizing s with
  | nil => rfl
  | cons c l ih =>
    have same : (s.dacConditions c).dacCh d = s.dacCh d := by
      by_cases own : d = c
      · subst own
        exact congrArg (State.dacCh · d) (if_pos (Or.inr clamp))
      · exact (dacFrame_dacConditions s c).chans d (by simpa using own)
    rw [State.dacHeld_cons, ih (by rw [same, clamp]), same]

theorem pwrStat_notMem (c : Nat) : Reg.PWR_STAT ∉ [Reg.DAC_CH_STAT c, Reg.DAC_STAT] := by
  simp only [List.mem_cons, List.not_mem_nil, or_false, not_or, Reg.PWR_STAT, Reg.DAC_CH_STAT, Reg.DAC_STAT]
  omega

theorem State.dacHeld_supply (l : List Nat) (down : s.bit Reg.PWR_STAT 1 = false) : ∀ d ∈ l, ((s.dacHeld l).dacCh d).st = .clamp := by
  induction l generalizing s with
  | nil => exact fun d hd => absurd hd List.not_mem_nil
  | cons c l ih =>
    have still : (s.dacConditions c).bit Reg.PWR_STAT 1 = false := ((dacFrame_dacConditions s c).bit (pwrStat_notMem c) 1).trans down
    intro d hd
    rw [State.dacHeld_cons]
    by_cases own : d = c
    · have clamp := State.dacConditions_supply down c
      rw [own, State.dacHeld_clamp l clamp, clamp]
    · exact ih still d ((List.mem_cons.1 hd).resolve_left own)

/-- Of DAC_STAT the channels show FSW only. -/
theorem State.dacStat_shown (s : State) (c : Nat) (x : DacChan) {i : Nat} (h : i ≠ 3) :
    (s.setDacCh c x).showFilterSwitch.bit Reg.DAC_STAT i = s.bit Reg.DAC_STAT i := by
  unfold State.showFilterSwitch
  rw [State.bit_setBit _ _ _ (by decide), if_neg h]
  exact State.bit_of_reg (s.reg_setDacCh x (dacChStat_ne_dacStat c).symm) i

theorem State.dacStat_setDacCh (s : State) (c : Nat) (x : DacChan) (i : Nat) : (s.setDacCh c x).bit Reg.DAC_STAT i = s.bit Reg.DAC_STAT i :=
  State.bit_of_reg (s.reg_setDacCh x (dacChStat_ne_dacStat c).symm) i

theorem State.dacStat_dacConditions (s : State) (c : Nat) {i : Nat} (h : i ≠ 3) :
    (s.dacConditions c).bit Reg.DAC_STAT i = s.bit Reg.DAC_STAT i := by
  unfold State.dacConditions State.dacRelease
  dsimp only
  split
  · rfl
  · split
    · exact s.dacStat_shown c (s.clamped c) h
    · split
      · rfl
      · split
        · split
          · exact s.dacStat_setDacCh c _ i
          · exact s.dacStat_shown c (s.clamped c) h
        · split
          · exact s.dacStat_setDacCh c _ i
          · exact s.dacStat_shown c _ h

theorem State.dacStat_dacHeld (s : State) (l : List Nat) {i : Nat} (h : i ≠ 3) : (s.dacHeld l).bit Reg.DAC_STAT i = s.bit Reg.DAC_STAT i := by
  induction l generalizing s with
  | nil => rfl
  | cons c l ih => rw [State.dacHeld_cons, ih, s.dacStat_dacConditions c h]

/-- A change of AVDD shows in both status registers, and the channels follow. -/
theorem avddChange_holds (s : State) (ok hi : Bool) :
    Completes (.avddChange ok hi) s (fun t => t.bit Reg.PWR_STAT 1 = ok ∧ t.bit Reg.DAC_STAT 2 = hi ∧
      (ok = false → ∀ d, d < 8 → (t.dacCh d).st = .clamp) ∧ (∀ d, d < 8 → (s.dacCh d).st = .clamp → t.dacCh d = s.dacCh d) ∧
      DacFrame s t (Reg.PWR_STAT :: Reg.DAC_STAT :: (List.range 8).map (fun d => Reg.DAC_CH_STAT d)) (List.range 8)) := by
  generalize hu : (s.setBit Reg.PWR_STAT 1 ok).setBit Reg.DAC_STAT 2 hi = u
  have supply : u.bit Reg.PWR_STAT 1 = ok := by
    rw [← hu, State.bit_setBit_other _ _ _ _ (by decide), State.bit_setBit_same _ _ _ (by decide)]
  have high : u.bit Reg.DAC_STAT 2 = hi := by rw [← hu, State.bit_setBit_same _ _ _ (by decide)]
  have chan : ∀ d, u.dacCh d = s.dacCh d := fun d => by rw [← hu]; rfl
  have frame := dacFrame_dacHeld u (List.range 8)
  have set : DacFrame s u (Reg.PWR_STAT :: Reg.DAC_STAT :: (List.range 8).map (fun d => Reg.DAC_CH_STAT d)) (List.range 8) := by
    rw [← hu]
    exact (dacFrame_setReg s List.mem_cons_self _ _).trans (dacFrame_setReg _ (by simp) _ _)
  refine ⟨u.dacHeld (List.range 8), congrArg (fun v => Host.Outcome.next (State.dacAll v)) hu, ?_, ?_, fun down d hd => ?_, fun d _ clamp => ?_,
    set.trans (frame.mono (List.subset_cons_self _ _) (List.Subset.refl _))⟩
  · rw [frame.bit (by decide), supply]
  · rw [State.dacStat_dacHeld _ _ (by decide), high]
  · exact State.dacHeld_supply _ (supply.trans down) d (List.mem_range.2 hd)
  · rw [State.dacHeld_clamp _ (by rw [chan, clamp]), chan]

/-! ### Over-current -/

/-- The reports of an over-current trip, before the channel clamps (R288). -/
def State.tripShown (s : State) (c : Nat) (nLeg : Bool) : State :=
  (((s.logError 0x1201 (c + if nLeg then 128 else 0) 0 false).setBit (Reg.DAC_CH_STAT c) (if nLeg then 10 else 9) true).bump Reg.DAC_OC_CNT).raise
    Page.dac 1

theorem State.overcurrent_eq (s : State) (c : Nat) (nLeg : Bool) : s.overcurrent c nLeg false =
    if s.fld (Reg.DAC_CH_CFG c) 4 2 = 2 then ((s.tripShown c nLeg).clampNow c).startMirror c else (s.tripShown c nLeg).clampNow c := rfl

theorem State.tripShown_reports (s : State) (c : Nat) (nLeg : Bool) :
    OnlyReports s (s.tripShown c nLeg) (logRegs ++ [Reg.DAC_CH_STAT c] ++ [Reg.DAC_OC_CNT] ++ raiseRegs Page.dac) :=
  (((onlyReports_logError s 0x1201 _ 0 false).trans (onlyReports_setBit _ (Reg.DAC_CH_STAT c) _ true)).trans (onlyReports_bump _ _)).trans
    (onlyReports_raise _ Page.dac 1)

theorem dacChStat_notMem (c : Fin 8) : Reg.DAC_CH_STAT c ∉ Reg.DAC_OC_CNT :: raiseRegs Page.dac ++ logRegs := by
  revert c; decide

theorem State.tripShown_effect (s : State) (c : Fin 8) (nLeg : Bool) :
    (s.tripShown c nLeg).bit (Reg.DAC_CH_STAT c) (if nLeg then 10 else 9) = true ∧ Counted s (s.tripShown c nLeg) Reg.DAC_OC_CNT ∧
      Counted s (s.tripShown c nLeg) Reg.ERR_LOG_CNT ∧ (s.tripShown c nLeg).bit (Reg.PAGE_IRQ_STAT Page.dac) 1 = true := by
  have apart := dacChStat_notMem c
  simp only [List.cons_append, List.mem_cons, List.mem_append, not_or] at apart
  obtain ⟨oc, irq, log⟩ := apart
  have low : ∀ a, a < 0x12108 → a ≠ Reg.DAC_CH_STAT c := by intro a ha; unfold Reg.DAC_CH_STAT; omega
  refine ⟨?_, ?_, ?_, State.bit_raise_same _ _ (by decide)⟩
  · rw [State.tripShown, (onlyReports_raise ..).bit irq, State.bit_of_reg (State.reg_bump_other _ oc)]
    exact State.bit_setBit_same _ _ _ (by split <;> decide)
  · refine ((counted_bump _ _).of_reg_eq ?_).of_reg_eq_after (State.reg_raise _ (by decide) _)
    rw [State.reg_setBit_other _ _ _ (low _ (by decide)), State.reg_logError _ (by decide)]
  · refine (counted_logError s 0x1201 (c + if nLeg then 128 else 0) 0 false).of_reg_eq_after ?_
    rw [State.tripShown, State.reg_raise _ (by decide), State.reg_bump_other _ (by decide), State.reg_setBit_other _ _ _ (low _ (by decide))]

/-- A mirror that starts is on another channel. -/
theorem State.startMirror_cases (s : State) (c : Nat) :
    s.startMirror c = s ∨ ∃ p x, p = s.fld (Reg.DAC_CH_CFG c) 8 3 ∧ p ≠ c ∧ s.startMirror c = s.setDacCh p x := by
  unfold State.startMirror
  dsimp only
  split
  · exact Or.inl rfl
  · rename_i mutes
    refine Or.inr ⟨_, _, rfl, fun own => mutes ?_, rfl⟩
    unfold State.mirrorMutes
    rw [own]
    simp

theorem State.partner_lt (s : State) (c : Nat) : s.fld (Reg.DAC_CH_CFG c) 8 3 < 8 := Nat.mod_lt _ (by decide)

theorem dacFrame_startMirror (s : State) (c : Nat) : DacFrame s (s.startMirror c) ((List.range 8).map (fun d => Reg.DAC_CH_STAT d)) [s.fld (Reg.DAC_CH_CFG c) 8 3] := by
  rcases s.startMirror_cases c with same | ⟨p, x, rfl, -, set⟩
  · rw [same]
    exact DacFrame.refl _ _ _
  · rw [set]
    exact dacFrame_setDacCh s x (List.mem_map_of_mem (List.mem_range.2 (s.partner_lt c))) (List.mem_singleton_self _)

/-- The channel whose partner starts to mirror it keeps its own state and status. -/
theorem State.startMirror_own (s : State) (c i : Nat) :
    (s.startMirror c).dacCh c = s.dacCh c ∧ (s.startMirror c).bit (Reg.DAC_CH_STAT c) i = s.bit (Reg.DAC_CH_STAT c) i := by
  rcases s.startMirror_cases c with same | ⟨p, x, -, other, set⟩
  · rw [same]
    exact ⟨rfl, rfl⟩
  · rw [set]
    exact ⟨State.dacCh_setDacCh_other _ _ other.symm, State.bit_of_reg (s.reg_setDacCh x (by unfold Reg.DAC_CH_STAT; omega)) i⟩

theorem State.bit_clampNow (s : State) (c : Nat) {i : Nat} (state : 3 ≤ i) (shown : i ≠ 11 ∧ i ≠ 12) :
    (s.clampNow c).bit (Reg.DAC_CH_STAT c) i = s.bit (Reg.DAC_CH_STAT c) i := by
  rw [State.clampNow_eq, State.bit_of_reg (State.reg_showFilterSwitch _ (dacChStat_ne_dacStat c)), State.bit_setDacCh _ _ _ state shown]

theorem dacChCfg_notMem (c : Fin 8) : Reg.DAC_CH_CFG c ∉ Reg.DAC_STAT :: (List.range 8).map (fun d => Reg.DAC_CH_STAT d) := by
  revert c; decide

/-- The channel of a trip clamps, and its partner may start to mirror it. -/
theorem State.tripped_effect (s : State) (c : Fin 8) (mirror : Bool) {i : Nat} (state : 3 ≤ i) (shown : i ≠ 11 ∧ i ≠ 12) :
    let t := if mirror then (s.clampNow c).startMirror c else s.clampNow c
    t.bit (Reg.DAC_CH_STAT c) i = s.bit (Reg.DAC_CH_STAT c) i ∧ (t.dacCh c).st = .clamp ∧
      DacFrame s t (Reg.DAC_STAT :: (List.range 8).map (fun d => Reg.DAC_CH_STAT d)) (if mirror then [c.val, s.fld (Reg.DAC_CH_CFG c) 8 3] else [c.val]) := by
  have clamp : DacFrame s (s.clampNow c) (Reg.DAC_STAT :: (List.range 8).map (fun d => Reg.DAC_CH_STAT d)) [c.val] :=
    dacFrame_clampNow s (List.mem_cons_of_mem _ (List.mem_map_of_mem (List.mem_range.2 c.isLt))) List.mem_cons_self (List.mem_singleton_self _)
  have chan : ((s.clampNow c).dacCh c).st = .clamp := by rw [State.dacCh_clampNow]; rfl
  have cfg : (s.clampNow c).fld (Reg.DAC_CH_CFG c) 8 3 = s.fld (Reg.DAC_CH_CFG c) 8 3 := State.fld_of_reg (clamp.regs _ (dacChCfg_notMem c)) 8 3
  cases mirror with
  | false => exact ⟨s.bit_clampNow c state shown, chan, clamp⟩
  | true =>
    obtain ⟨own, stat⟩ := (s.clampNow c).startMirror_own c i
    have start := dacFrame_startMirror (s.clampNow c) c
    rw [cfg] at start
    exact ⟨stat.trans (s.bit_clampNow c state shown), by rw [if_pos rfl, own, chan],
      (clamp.mono (List.Subset.refl _) (by simp)).trans (start.mono (List.subset_cons_self _ _) (by simp))⟩

theorem dacChCfg_apart (c : Fin 8) : Reg.DAC_CH_CFG c ∉ logRegs ++ [Reg.DAC_CH_STAT c] ++ [Reg.DAC_OC_CNT] ++ raiseRegs Page.dac := by
  revert c; decide

theorem overcurrentTrip_clamps (s : State) (c : Fin 8) (nLeg : Bool) :
    Completes (.overcurrentTrip c nLeg) s (fun t => t.bit (Reg.DAC_CH_STAT c) (if nLeg then 10 else 9) = true ∧
      (t.dacCh c).st = .clamp ∧ Counted s t Reg.DAC_OC_CNT ∧ Counted s t Reg.ERR_LOG_CNT ∧
      t.bit (Reg.PAGE_IRQ_STAT Page.dac) 1 = true ∧
      KeepsChans s t (if s.fld (Reg.DAC_CH_CFG c) 4 2 = 2 then [c.val, s.fld (Reg.DAC_CH_CFG c) 8 3] else [c.val]) ∧
      t = { s with regs := t.regs, dac := t.dac, pmu := t.pmu, out := t.out } ∧
      KeepsRegs s t ([Reg.DAC_STAT, Reg.DAC_OC_CNT] ++ (List.range 8).map (fun d => Reg.DAC_CH_STAT d) ++ raiseRegs Page.dac ++ logRegs)) := by
  obtain ⟨flag, oc, log, irq⟩ := s.tripShown_effect c nLeg
  have shown := s.tripShown_reports c nLeg
  have trip := (s.tripShown c nLeg).tripped_effect c (decide (s.fld (Reg.DAC_CH_CFG c) 4 2 = 2)) (i := if nLeg then 10 else 9)
    (by split <;> decide) (by split <;> decide)
  have run : s.overcurrent c nLeg false = if decide (s.fld (Reg.DAC_CH_CFG c) 4 2 = 2) then ((s.tripShown c nLeg).clampNow c).startMirror c
      else (s.tripShown c nLeg).clampNow c := by rw [State.overcurrent_eq]; simp only [decide_eq_true_iff]
  have cfg : (s.tripShown c nLeg).fld (Reg.DAC_CH_CFG c) 8 3 = s.fld (Reg.DAC_CH_CFG c) 8 3 := shown.fld (dacChCfg_apart c) 8 3
  dsimp only at trip
  rw [← run, cfg] at trip
  obtain ⟨stat, clamp, frame⟩ := trip
  refine ⟨s.overcurrent c nLeg false, rfl, stat.trans flag, clamp, oc.of_reg_eq_after (frame.regs _ (by decide)),
    log.of_reg_eq_after (frame.regs _ (by decide)), (frame.bit (by decide) 1).trans irq, fun d hd => ?_, ?_, ?_⟩
  · refine (frame.chans d ?_).trans (shown.dacCh d)
    simpa only [decide_eq_true_iff] using hd
  · rw [frame.rest, shown.1]
  · refine (shown.keepsRegs.trans frame.regs).mono ?_
    intro a
    have own : Reg.DAC_CH_STAT c ∈ (List.range 8).map (fun d => Reg.DAC_CH_STAT d) := List.mem_map_of_mem (List.mem_range.2 c.isLt)
    simp only [List.mem_append, List.mem_cons, List.not_mem_nil, or_false]
    rintro ((((h | rfl) | h) | h) | h | h)
    · exact Or.inr h
    · exact Or.inl (Or.inl (Or.inr own))
    · exact Or.inl (Or.inl (Or.inl (Or.inr h)))
    · exact Or.inl (Or.inr h)
    · exact Or.inl (Or.inl (Or.inl (Or.inl h)))
    · exact Or.inl (Or.inl (Or.inr h))

/-! ### The read-back's action -/

theorem readbackAction_none {c : Fin 8} (action : (s.dacCh c).action = true) (act : s.fld (Reg.DAC_CH_CFG c) 4 2 = 0) :
    Completes (.readbackAction c) s (fun t => t.dacCh c = { s.dacCh c with action := false } ∧ DacOnly s t c []) :=
  ⟨s.setDacCh c { s.dacCh c with action := false }, (if_neg (by rw [action]; exact Bool.noConfusion)).trans (if_pos act),
    State.dacCh_setDacCh_same .., (dacFrame_setDacCh s _ (by simp) (by simp)).only⟩

theorem readbackAction_mute {c : Fin 8} (action : (s.dacCh c).action = true) (act : s.fld (Reg.DAC_CH_CFG c) 4 2 = 1)
    (run : (s.dacCh c).st = .run) (stay : (s.dacCh c).toClamp = false) :
    Completes (.readbackAction c) s (fun t => t.dacCh c = { s.dacCh c with action := false, st := .fault, ramp := some 0 } ∧ DacOnly s t c []) := by
  have run : execReadbackAction c s = .next ((s.setDacCh c { s.dacCh c with action := false }).setDacCh c
      { s.dacCh c with action := false, st := .fault, ramp := some 0 }) := by
    unfold execReadbackAction
    simp [action, act, State.dacCh_setDacCh_same, run, stay]
  exact ⟨_, run, State.dacCh_setDacCh_same .., ((dacFrame_setDacCh s _ (by simp) (by simp)).trans (dacFrame_setDacCh _ _ (by simp) (by simp))).only⟩

/-- Reports on channel `c` leave whether its mirror acts as a mute. -/
theorem State.mirrorMutes_of_frame {u : State} {c p : Nat} (frame : DacFrame s u [Reg.DAC_CH_STAT c] [c])
    (fault : (u.dacCh c).faultAt = (s.dacCh c).faultAt) (other : p ≠ c) : u.mirrorMutes c p = s.mirrorMutes c p := by
  have cfg : u.fld (Reg.DAC_CH_CFG p) 8 3 = s.fld (Reg.DAC_CH_CFG p) 8 3 :=
    State.fld_of_reg (frame.regs _ (by rw [List.mem_singleton]; unfold Reg.DAC_CH_CFG Reg.DAC_CH_STAT; omega)) 8 3
  unfold State.mirrorMutes
  dsimp only
  rw [frame.chans p (by simpa using other), cfg, fault]

theorem State.startMirror_of_frame {u : State} {c p : Nat} (frame : DacFrame s u [Reg.DAC_CH_STAT c] [c])
    (fault : (u.dacCh c).faultAt = (s.dacCh c).faultAt) (partner : s.fld (Reg.DAC_CH_CFG c) 8 3 = p) (acts : s.mirrorMutes c p = false) :
    u.startMirror c = u.setDacCh p { s.dacCh p with mirror := some { source := c, k := 0, back := false } } := by
  have other : p ≠ c := by
    rintro rfl
    simp [State.mirrorMutes] at acts
  have cfg : u.fld (Reg.DAC_CH_CFG c) 8 3 = p :=
    (State.fld_of_reg (frame.regs _ (by rw [List.mem_singleton]; unfold Reg.DAC_CH_CFG Reg.DAC_CH_STAT; omega)) 8 3).trans partner
  unfold State.startMirror
  dsimp only
  rw [cfg, State.mirrorMutes_of_frame frame fault other, acts, if_neg Bool.false_ne_true, frame.chans p (by simpa using other)]

/-- The state in which the partner of channel `c` starts to mirror it: the channel's action is over, and it may have gone to FAULT. -/
theorem execReadbackAction_mirror {c : Fin 8} (action : (s.dacCh c).action = true) (act : s.fld (Reg.DAC_CH_CFG c) 4 2 = 2) :
    ∃ u, execReadbackAction c s = .next (u.startMirror c) ∧ DacFrame s u [Reg.DAC_CH_STAT c] [c.val] ∧
      (u.dacCh c).faultAt = (s.dacCh c).faultAt := by
  have first := dacFrame_setDacCh s (c := c) { s.dacCh c with action := false } (List.mem_singleton_self _) (List.mem_singleton_self _)
  have fault : ((s.setDacCh c { s.dacCh c with action := false }).dacCh c).faultAt = (s.dacCh c).faultAt := by rw [State.dacCh_setDacCh_same]
  unfold execReadbackAction
  simp only [action, act, Bool.true_eq_false, if_false, OfNat.ofNat_ne_zero, if_true]
  split
  · exact ⟨_, rfl, first, fault⟩
  · exact ⟨_, rfl, first.trans (dacFrame_setDacCh _ _ (by simp) (by simp)),
      (congrArg DacChan.faultAt (State.dacCh_setDacCh_same ..)).trans fault⟩

theorem readbackAction_mirror {c : Fin 8} (action : (s.dacCh c).action = true) (act : s.fld (Reg.DAC_CH_CFG c) 4 2 = 2)
    {p : Nat} (partner : s.fld (Reg.DAC_CH_CFG c) 8 3 = p) (acts : s.mirrorMutes c p = false) :
    Completes (.readbackAction c) s (fun t => t.dacCh p = { s.dacCh p with mirror := some { source := c, k := 0, back := false } } ∧
      KeepsChans s t [c.val, p] ∧ t = { s with regs := t.regs, dac := t.dac }) := by
  obtain ⟨u, run, frame, fault⟩ := execReadbackAction_mirror action act
  have whole := (frame.mono (m := [Reg.DAC_CH_STAT c, Reg.DAC_CH_STAT p]) (ds := [c.val, p]) (by simp) (by simp)).trans
    (dacFrame_setDacCh u { s.dacCh p with mirror := some { source := c.val, k := 0, back := false } } (c := p) (by simp) (by simp))
  exact ⟨_, run.trans (congrArg Host.Outcome.next (State.startMirror_of_frame frame fault partner acts)), State.dacCh_setDacCh_same ..,
    whole.chans, whole.rest⟩

/-! ### Converter samples between outputs -/

theorem MonitorChan.push_between {m : MonitorChan} (h : m.phase ≠ 7) (l : Nat) (x : BitVec 12) : (m.push l x).2 = none := by
  unfold MonitorChan.push
  exact congrArg Prod.snd (if_neg h)

theorem State.monitorSample_between {c : Nat} (h : (s.monitor c).phase ≠ 7) (x : BitVec 12) :
    s.monitorSample c x = (s.setMonitor c ((s.monitor c).push (s.dec.monLen + 1) x).1, none) := by
  unfold State.monitorSample
  simp only [h, if_false, MonitorChan.push_between h]

theorem monitorSample_enters {c : Fin 8} (h : (s.monitor c).phase ≠ 7) (w : BitVec 12) :
    Completes (.monitorSample c w) s (fun t =>
      t.monitor c = ((s.monitor c).push (s.dec.monLen + 1) w).1 ∧ (∀ d, d < 8 → d ≠ c.val → t.monitor d = s.monitor d) ∧
      t.dacCh c = { s.dacCh c with ref := ((s.dacCh c).ref.push (s.dec.monLen + 1) (s.reference c)).1, taken := ((s.dacCh c).taken + 1) % (s.modCycles / 16) } ∧
      t = { s with regs := t.regs, dac := t.dac, dec := t.dec } ∧ KeepsRegs s t [Reg.DAC_CH_STAT c] ∧ KeepsChans s t [c.val]) := by
  have run : execMonitorSample c w s = .next ((s.setMonitor c ((s.monitor c).push (s.dec.monLen + 1) w).1).setDacCh c { s.dacCh c with
      ref := ((s.dacCh c).ref.push (s.dec.monLen + 1) (s.reference c)).1, taken := ((s.dacCh c).taken + 1) % (s.modCycles / 16) }) := by
    unfold execMonitorSample
    rw [State.monitorSample_between h]
    dsimp only
    have same : (s.setMonitor c ((s.monitor c).push (s.dec.monLen + 1) w).1).dec.monLen = s.dec.monLen := rfl
    rw [if_pos same]
    rfl
  have frame := dacFrame_setDacCh (s.setMonitor c ((s.monitor c).push (s.dec.monLen + 1) w).1) (c := c) { s.dacCh c with
      ref := ((s.dacCh c).ref.push (s.dec.monLen + 1) (s.reference c)).1, taken := ((s.dacCh c).taken + 1) % (s.modCycles / 16) }
      (List.mem_singleton_self _) (List.mem_singleton_self _)
  exact ⟨_, run, Sparse.get_put_same .., fun d _ hd => Sparse.get_put_other _ _ hd, State.dacCh_setDacCh_same .., rfl, frame.regs, frame.chans⟩

end Fault

/-- Settles O39: forced clears and their release, the filter mode, and what faults of a channel and its supply lead to. -/
theorem dacClearsAndFaults : Obligations.DacClearsAndFaults := by
  unfold Obligations.DacClearsAndFaults
  refine ⟨fun s path v => ⟨fun idle vio => ?_, fun pin vio => ?_, fun writable same => ⟨fun sw was => ?_, fun sw was => ?_⟩,
    fun writable changes same => ⟨fun quiet => ?_, fun ⟨c, hc, busy⟩ => filterSwitch_refused writable changes hc busy⟩⟩,
    fun s c nLeg ok hi w => ⟨?_, overcurrentTrip_clamps s c nLeg,
      fun action => ⟨readbackAction_none action, readbackAction_mute action, fun act acts => readbackAction_mirror action act rfl acts⟩,
      fun between => monitorSample_enters between w⟩⟩
  · obtain ⟨t, run, pin, counted, forced⟩ := outclrAssert_forces idle vio
    exact ⟨t, run, pin, forced.ramp, counted, forced.active, forced.irq, forced.rest, forced.regs⟩
  · obtain ⟨t, run, low, forced⟩ := outclrRelease_releases pin vio
    exact ⟨t, run, low, forced.ramp, forced.active, forced.irq, forced.rest, forced.regs⟩
  · obtain ⟨t, run, ctrl, forced, counted⟩ := softwareClear_changes (path := path) writable same (on := true) (decide_eq_true sw) was
    exact ⟨t, run, ctrl, forced.ramp, counted rfl, forced.active, forced.irq, forced.rest, forced.regs⟩
  · obtain ⟨t, run, ctrl, forced, -⟩ := softwareClear_changes (path := path) writable same (on := false) (decide_eq_false sw) was
    exact ⟨t, run, ctrl, forced.ramp, forced.active, forced.irq, forced.rest, forced.regs⟩
  · obtain ⟨t, run, mode, chans, frame⟩ := filterSwitch_taken (path := path) writable changes same quiet
    refine ⟨t, run, mode, chans, ?_, frame.regs⟩
    exact frame.chans_only
  · obtain ⟨t, run, supply, high, down, clamped, frame⟩ := avddChange_holds s ok hi
    exact ⟨t, run, supply, high, down, clamped, frame.rest, frame.regs⟩

end Sys2Proof.Machine
end

section
/-! PROOFS. O28: the output queues. What a block that completes in a queue leaves, and the enable and configuration of a queue. -/

namespace Sys2Proof.Machine

theorem OnlyReports.queue {s t : State} {l : List Nat} (h : OnlyReports s t l) (q : Nat) : t.queue q = s.queue q := by
  rw [State.queue, h.1, State.queue]

/-- One check of a detector whose page has no injection armed. -/
theorem State.detect_unarmed {s : State} {p : Nat} (h : s.bit (Reg.PAGE_ERR_INJ p) 30 = false) (det sub info : Nat) (real : Bool) :
    s.detect p det sub info real = { st := if real then s.logError (256 * p + det) sub info false else s, hit := real, inj := false } := by
  unfold State.detect
  rw [State.check_unarmed h]
  cases real <;> rfl

/-! ### Frames of the queues -/

/-- Only registers of `l`, queues of `qs`, counters and reports differ between `s` and `t`. -/
structure QueueFrame (s t : State) (l qs : List Nat) : Prop where
  rest : t = { s with regs := t.regs, queues := t.queues, pmu := t.pmu, out := t.out }
  regs : KeepsRegs s t l
  queues : KeepsQueues s t qs

namespace QueueFrame

variable {s t u : State} {l m qs : List Nat}

theorem of_reports (h : OnlyReports s t l) (qs : List Nat) : QueueFrame s t l qs := ⟨by rw [h.1], h.2, fun q _ => h.queue q⟩

theorem trans (h : QueueFrame s t l qs) (g : QueueFrame t u m qs) : QueueFrame s u (l ++ m) qs :=
  ⟨by rw [g.rest, h.rest], h.regs.trans g.regs, fun q hq => (g.queues q hq).trans (h.queues q hq)⟩

theorem mono (h : QueueFrame s t l qs) (sub : l ⊆ m) : QueueFrame s t m qs := ⟨h.rest, h.regs.mono sub, h.queues⟩

theorem setQueue (s : State) (q : Nat) (x : Queue) : QueueFrame s (s.setQueue q x) [] [q] :=
  ⟨rfl, fun _ _ => rfl, fun _ hq => s.queue_setQueue_other x (by simpa using hq)⟩

theorem putQueue (s : State) (q : Nat) (x : Queue) : QueueFrame s (s.putQueue q x) [Reg.OQ_Q_STAT q] [q] :=
  ((setQueue s q x).trans (of_reports ((onlyReports_setBit (s.setQueue q x) (Reg.OQ_Q_STAT q) 4 _).trans (onlyReports_setReg _ _ _)) [q])).mono (by simp)

end QueueFrame

theorem State.queue_putQueue (s : State) (q : Nat) (x : Queue) : (s.putQueue q x).queue q = x := s.queue_setQueue_same q x

/-! ### Arrivals -/

section Arrival

variable {s : State} {q : Fin 48}

theorem oqStat_notMem (q : Fin 48) : Reg.OQ_Q_STAT q ∉ [Reg.OQ_LATE_CNT, Reg.OQ_OVERRUN_CNT] ++ raiseRegs Page.oq := by
  revert q; decide

theorem oqStat_notMem_log (q : Fin 48) : Reg.OQ_Q_STAT q ∉ logRegs := by
  revert q; decide

/-- What a block that is late leaves (R264). -/
def State.lateShown (s : State) (q : Nat) : State :=
  (((s.logError (256 * Page.oq + 2) q q false).bump Reg.OQ_LATE_CNT).setBit (Reg.OQ_Q_STAT q) 29 true).count 480 1

/-- What a block for which the queue has no room leaves (R264). -/
def State.overrunShown (s : State) (q : Nat) : State :=
  ((((s.logError (256 * Page.oq + 1) q q false).bump Reg.OQ_OVERRUN_CNT).setBit (Reg.OQ_Q_STAT q) 30 true).count 479 1).raise Page.oq 1

theorem State.lateShown_reports (s : State) (q : Nat) :
    OnlyReports s (s.lateShown q) (logRegs ++ [Reg.OQ_LATE_CNT] ++ [Reg.OQ_Q_STAT q]) :=
  (((onlyReports_logError s (256 * Page.oq + 2) q q false).trans (onlyReports_bump _ Reg.OQ_LATE_CNT)).trans (onlyReports_setBit _ (Reg.OQ_Q_STAT q) 29 true)).trans
    (onlyReports_count _ 480 1) |>.mono (by simp)

theorem State.overrunShown_reports (s : State) (q : Nat) :
    OnlyReports s (s.overrunShown q) (logRegs ++ [Reg.OQ_OVERRUN_CNT] ++ [Reg.OQ_Q_STAT q] ++ raiseRegs Page.oq) :=
  ((((onlyReports_logError s (256 * Page.oq + 1) q q false).trans (onlyReports_bump _ Reg.OQ_OVERRUN_CNT)).trans
    (onlyReports_setBit _ (Reg.OQ_Q_STAT q) 30 true)).trans (onlyReports_count _ 479 1)).trans (onlyReports_raise _ Page.oq 1) |>.mono (by simp)

theorem State.lateShown_effect (s : State) (q : Fin 48) :
    Counted s (s.lateShown q) Reg.OQ_LATE_CNT ∧ (s.lateShown q).bit (Reg.OQ_Q_STAT q) 29 = true := by
  have apart := oqStat_notMem q
  simp only [List.cons_append, List.mem_cons, not_or] at apart
  have counted := (counted_bump (s.logError (256 * Page.oq + 2) q q false) Reg.OQ_LATE_CNT).of_reg_eq (s.reg_logError (by decide) _ _ _ _)
  refine ⟨counted.of_reg_eq_after ?_, ?_⟩
  · rw [State.lateShown, State.reg_count, State.reg_setBit_other _ _ _ (Ne.symm apart.1)]
  · rw [State.lateShown, State.bit_count, State.bit_setBit_same _ _ _ (by decide)]

theorem State.overrunShown_effect (s : State) (q : Fin 48) :
    Counted s (s.overrunShown q) Reg.OQ_OVERRUN_CNT ∧ (s.overrunShown q).bit (Reg.OQ_Q_STAT q) 30 = true := by
  have apart := oqStat_notMem q
  simp only [List.cons_append, List.nil_append, List.mem_cons, not_or] at apart
  have counted := (counted_bump (s.logError (256 * Page.oq + 1) q q false) Reg.OQ_OVERRUN_CNT).of_reg_eq (s.reg_logError (by decide) _ _ _ _)
  refine ⟨counted.of_reg_eq_after ?_, ?_⟩
  · rw [State.overrunShown, State.reg_raise _ (by decide), State.reg_count, State.reg_setBit_other _ _ _ (Ne.symm apart.2.1)]
  · rw [State.overrunShown, (onlyReports_raise ..).bit apart.2.2, State.bit_count, State.bit_setBit_same _ _ _ (by decide)]

/-- The block of a queue on its way: late, dropped as the newest, or present (R262, R264). -/
theorem State.blockArrives_eq (unarmed : s.bit (Reg.PAGE_ERR_INJ Page.oq) 30 = false) (q n : Nat) (data : List (List Word)) :
    s.blockArrives q n data = if s.queueRelease q n < s.sample then s.lateShown q
      else if s.depth q ≤ (s.queue q).blocks.length then s.overrunShown q
      else s.putQueue q { s.queue q with blocks := (s.queue q).blocks ++ [(n, data)] } := by
  unfold State.blockArrives
  dsimp only
  rw [State.detect_unarmed unarmed]
  by_cases late : s.queueRelease q n < s.sample
  · simp only [late, decide_true, if_true]
    rfl
  · simp only [late, decide_false, if_false, Bool.false_eq_true]
    rw [State.detect_unarmed unarmed]
    by_cases full : s.depth q ≤ (s.queue q).blocks.length
    · simp only [full, decide_true, if_true]
      rfl
    · simp only [full, decide_false, if_false, Bool.false_eq_true]

/-- The registers in which an arrival may show. -/
def arrivalRegs (q : Nat) : List Nat := [Reg.OQ_Q_STAT q, Reg.OQ_LATE_CNT, Reg.OQ_OVERRUN_CNT] ++ raiseRegs Page.oq ++ logRegs

theorem State.blockArrives_effect (unarmed : s.bit (Reg.PAGE_ERR_INJ Page.oq) 30 = false) (q : Fin 48) (n : Nat) (data : List (List Word)) :
    (s.blockArrives q n data).queue q = { s.queue q with
      blocks := if s.queueRelease q n < s.sample ∨ s.depth q ≤ (s.queue q).blocks.length then (s.queue q).blocks
        else (s.queue q).blocks ++ [(n, data)] } ∧
    (s.queueRelease q n < s.sample → Counted s (s.blockArrives q n data) Reg.OQ_LATE_CNT ∧ (s.blockArrives q n data).bit (Reg.OQ_Q_STAT q) 29 = true) ∧
    (s.sample ≤ s.queueRelease q n → s.depth q ≤ (s.queue q).blocks.length →
      Counted s (s.blockArrives q n data) Reg.OQ_OVERRUN_CNT ∧ (s.blockArrives q n data).bit (Reg.OQ_Q_STAT q) 30 = true) ∧
    QueueFrame s (s.blockArrives q n data) (arrivalRegs q) [q.val] := by
  rw [State.blockArrives_eq unarmed]
  by_cases late : s.queueRelease q n < s.sample
  · rw [if_pos late, if_pos (Or.inl late)]
    refine ⟨(s.lateShown_reports q).queue q, fun _ => s.lateShown_effect q, fun early => absurd late (by omega),
      (QueueFrame.of_reports (s.lateShown_reports q) _).mono ?_⟩
    intro a
    simp only [arrivalRegs, List.mem_append, List.mem_cons, List.not_mem_nil, or_false]
    tauto
  · rw [if_neg late]
    by_cases full : s.depth q ≤ (s.queue q).blocks.length
    · rw [if_pos full, if_pos (Or.inr full)]
      refine ⟨(s.overrunShown_reports q).queue q, fun h => absurd h late, fun _ _ => s.overrunShown_effect q,
        (QueueFrame.of_reports (s.overrunShown_reports q) _).mono ?_⟩
      intro a
      simp only [arrivalRegs, List.mem_append, List.mem_cons, List.not_mem_nil, or_false]
      tauto
    · rw [if_neg full, if_neg (not_or.2 ⟨late, full⟩)]
      exact ⟨s.queue_putQueue q _, fun h => absurd h late, fun _ h => absurd h full,
        (QueueFrame.putQueue s q _).mono (by simp [arrivalRegs])⟩

theorem queueBlockArrival_completes {n : Nat} {data : List (List Word)} {rest : List (Nat × List (List Word))}
    (arriving : (s.queue q).arriving = (n, data) :: rest) (unarmed : s.bit (Reg.PAGE_ERR_INJ Page.oq) 30 = false) :
    Completes (.queueBlockArrival q) s (fun t =>
      t.queue q = { s.queue q with
        arriving := rest
        blocks := if s.queueRelease q n < s.sample ∨ s.depth q ≤ (s.queue q).blocks.length then (s.queue q).blocks
          else (s.queue q).blocks ++ [(n, data)] } ∧
      (s.queueRelease q n < s.sample → Counted s t Reg.OQ_LATE_CNT ∧ t.bit (Reg.OQ_Q_STAT q) 29 = true) ∧
      (s.sample ≤ s.queueRelease q n → s.depth q ≤ (s.queue q).blocks.length →
        Counted s t Reg.OQ_OVERRUN_CNT ∧ t.bit (Reg.OQ_Q_STAT q) 30 = true) ∧
      QueueFrame s t (arrivalRegs q) [q.val]) := by
  have run : execQueueBlockArrival q s = .next ((s.setQueue q { s.queue q with arriving := rest }).blockArrives q n data) := by
    unfold execQueueBlockArrival
    simp only [arriving]
  obtain ⟨queue, late, full, frame⟩ := State.blockArrives_effect (s := s.setQueue q { s.queue q with arriving := rest }) unarmed q n data
  rw [State.queue_setQueue_same] at queue full
  exact ⟨_, run, queue, late, full, ((QueueFrame.setQueue s q _).trans frame).mono (by simp)⟩

end Arrival

/-! ### Enable and configuration -/

section Config

variable {s : State} {q : Fin 48} {path : Path} {v : Word}

/-- The queue's size and channels are as configured. -/
def State.keepsShape (s : State) (q : Nat) (v : Word) : Prop :=
  fieldOf v 4 3 = s.fld (Reg.OQ_Q_CFG q) 4 3 ∧ fieldOf v 16 8 = s.fld (Reg.OQ_Q_CFG q) 16 8

theorem State.keepsShape_en (s : State) (q : Nat) (v : Word) (b : Nat) : s.keepsShape q (setFieldOf v 0 1 b) ↔ s.keepsShape q v := by
  unfold State.keepsShape
  rw [fieldOf_setFieldOf_other _ _ (by decide), fieldOf_setFieldOf_other _ _ (by decide)]

theorem State.fieldOf_of_bit {a i : Nat} {b : Bool} (h : s.bit a i = b) : fieldOf (s.reg a) i 1 = b.toNat := by
  rw [← h]
  exact s.fld_one a i

theorem stores_of_oqCfg {i : Instr} (run : exec i s = .next (s.hostWrite (.host path) (Reg.OQ_Q_CFG q) v (actOqCfg q)))
    (writable : s.writable (Reg.OQ_Q_CFG q) = true) (off : s.bit (Reg.OQ_Q_CFG q) 0 = false) : Stores i s (Reg.OQ_Q_CFG q) v := by
  have en : ¬ fieldOf (s.reg (Reg.OQ_Q_CFG q)) 0 1 = 1 := by rw [State.fieldOf_of_bit off]; decide
  exact stores_of_exec (run.trans (congrArg Host.Outcome.next ((State.hostWrite_of_writable writable).trans
    ((if_neg (fun h => en h.1)).trans (if_neg (fun h => en h.1))))))

theorem queueEnable_refused (writable : s.writable (Reg.OQ_Q_CFG q) = true) (on : s.bit (Reg.OQ_Q_CFG q) 0 = true) (change : ¬ s.keepsShape q v) :
    Completes (.queueEnable path q v) s (fun t => t.bit Reg.OQ_STAT 31 = true ∧ Counted s t (Reg.PAGE_ERR_CNT Page.oq) ∧
      OnlyRegs s t [Reg.OQ_STAT, Reg.PAGE_ERR_CNT Page.oq]) := by
  rw [← s.keepsShape_en q v 1, State.keepsShape, not_and_or] at change
  exact refused_of_exec (stat := Reg.OQ_STAT) (b := 31) (p := Page.oq) (congrArg Host.Outcome.next ((State.hostWrite_of_writable writable).trans
    (if_pos ⟨State.fieldOf_of_bit on, decide_eq_true change⟩))) (by decide) (by decide)

/-- A queue once its EN is cleared while it releases (R265). -/
def Queue.stopped (x : Queue) : Queue :=
  { x with
    stopping := true, arriving := [], blocks := [], cur := none, rise := none, under := true
    fade := if x.primed = true ∧ x.under = false then some 0 else x.fade }

theorem State.stopQueue_active (active : (s.queue q).active = true) : s.stopQueue q = s.putQueue q (s.queue q).stopped := by
  have fade : (if (s.queue q).primed = true ∧ ¬ (s.queue q).under = true then some 0 else (s.queue q).fade) =
      if (s.queue q).primed = true ∧ (s.queue q).under = false then some 0 else (s.queue q).fade := by simp only [Bool.not_eq_true]
  refine (if_neg (by rw [active]; exact Bool.noConfusion)).trans ?_
  rw [Queue.stopped, ← fade]

theorem queueDisable_stops (writable : s.writable (Reg.OQ_Q_CFG q) = true) (on : s.bit (Reg.OQ_Q_CFG q) 0 = true) (kept : s.keepsShape q v)
    (active : (s.queue q).active = true) :
    Completes (.queueDisable path q v) s (fun t => t.reg (Reg.OQ_Q_CFG q) = s.stored (Reg.OQ_Q_CFG q) (setFieldOf v 0 1 0) ∧
      t.queue q = (s.queue q).stopped ∧ t = { s with regs := t.regs, queues := t.queues } ∧ KeepsQueues s t [q.val] ∧
      KeepsRegs s t [Reg.OQ_Q_CFG q, Reg.OQ_Q_STAT q]) := by
  rw [← s.keepsShape_en q v 0] at kept
  have unchanged : decide (fieldOf (setFieldOf v 0 1 0) 4 3 ≠ fieldOf (s.reg (Reg.OQ_Q_CFG q)) 4 3 ∨
      fieldOf (setFieldOf v 0 1 0) 16 8 ≠ fieldOf (s.reg (Reg.OQ_Q_CFG q)) 16 8) = false := by
    rw [decide_eq_false_iff_not, not_or, not_ne_iff, not_ne_iff]
    exact kept
  generalize stored : s.stored (Reg.OQ_Q_CFG q) (setFieldOf v 0 1 0) = w
  have run : actOqCfg q s (rowAt (Reg.OQ_Q_CFG q)) (s.reg (Reg.OQ_Q_CFG q)) (setFieldOf v 0 1 0) =
      (s.setReg (Reg.OQ_Q_CFG q) w).putQueue q (s.queue q).stopped := by
    unfold actOqCfg
    rw [unchanged]
    refine (if_neg (fun h => Bool.false_ne_true h.2)).trans ((if_pos ⟨State.fieldOf_of_bit on, ?_⟩).trans ?_)
    · rw [← stored]
      exact State.stopQueue_active (s := s.setReg (Reg.OQ_Q_CFG q) (s.stored (Reg.OQ_Q_CFG q) (setFieldOf v 0 1 0))) active
    · rw [fieldOf_setFieldOf_same _ _ (by decide)]; rfl
  have frame := ((QueueFrame.of_reports (onlyReports_setReg s (Reg.OQ_Q_CFG q) w) [q.val]).trans
    (QueueFrame.putQueue (s.setReg (Reg.OQ_Q_CFG q) w) q (s.queue q).stopped))
  refine ⟨_, congrArg Host.Outcome.next ((State.hostWrite_of_writable writable).trans run), ?_, State.queue_putQueue .., rfl, frame.queues, frame.regs⟩
  exact ((QueueFrame.putQueue (s.setReg (Reg.OQ_Q_CFG q) w) q (s.queue q).stopped).regs _ (by
    rw [List.mem_singleton]; unfold Reg.OQ_Q_CFG Reg.OQ_Q_STAT; omega)).trans (State.reg_setReg_same ..)

end Config

/-- Settles O28: a block that completes is late, dropped or present; a queue's EN and configuration. -/
theorem queueCommands : Obligations.QueueCommands := by
  unfold Obligations.QueueCommands
  refine fun s q path v => ⟨fun n data rest arriving unarmed => ?_, fun writable => ⟨fun off => ⟨stores_of_oqCfg rfl writable off,
    stores_of_oqCfg rfl writable off⟩, queueEnable_refused writable, queueDisable_stops writable⟩⟩
  obtain ⟨t, run, queue, late, full, frame⟩ := queueBlockArrival_completes arriving unarmed
  exact ⟨t, run, queue, late, full, frame.rest, frame.queues, frame.regs⟩

end Sys2Proof.Machine
end

section
/-! PROOFS. Accesses of the device masters to a quiet Concourse: what their reads give, and what their writes leave. -/

namespace Sys2Proof.Machine

/-! ### Reads -/

/-- Only the counters differ between `s` and `t`. -/
def PmuOnly (s t : State) : Prop := t = { s with pmu := t.pmu }

namespace PmuOnly

variable {s t u : State}

theorem refl (s : State) : PmuOnly s s := rfl

theorem trans (h : PmuOnly s t) (g : PmuOnly t u) : PmuOnly s u := by
  unfold PmuOnly at *
  rw [g, h]

theorem count (s : State) (i n : Nat) : PmuOnly s (s.count i n) := rfl

theorem reg (h : PmuOnly s t) (a : Nat) : t.reg a = s.reg a := by rw [State.reg, h, State.reg]

theorem con (h : PmuOnly s t) : t.con = s.con := by rw [h]

theorem conWord (h : PmuOnly s t) (a : Nat) : t.conWord a = s.conWord a := by
  unfold State.conWord State.conBytes State.conByte
  rw [h.con]

theorem quiet (h : PmuOnly s t) (q : s.conQuiet) : t.conQuiet := by
  obtain ⟨unarmed, idle, good⟩ := q
  refine ⟨(State.bit_of_reg (h.reg _) 30).trans unarmed, ?_, ?_⟩
  · rw [h]; exact idle
  · rw [h]; exact good

end PmuOnly

/-- What a quiet Concourse answers to an access: the access is counted on its port. -/
theorem State.access_quiet {s : State} (q : s.conQuiet) (m : Nat) (cls : Cls) (a : Nat) :
    ((s.countPort m).btTouch cls a).conCheck m a .clean = (s.countPort m, false) := by
  obtain ⟨unarmed, idle, good⟩ := q
  have clean : a / 16 ∉ s.ctl.bad := by rw [good]; exact List.not_mem_nil
  rw [State.btTouch_idle (s := s.countPort m) idle, State.conCheck_clean (s := s.countPort m) unarmed m clean]

/-- A device master reads the words of a quiet Concourse, and only counts its accesses. -/
theorem State.devReadFrom_quiet (m : Nat) (cls : Cls) (n : Nat) {s : State} (q : s.conQuiet) (a : Nat) (fresh : Bool) :
    PmuOnly s (s.devReadFrom m cls a fresh false n).1 ∧
      (s.devReadFrom m cls a fresh false n).2 = (List.range n).map (fun i => some (s.conWord (a + 4 * i))) := by
  induction n generalizing s a fresh with
  | zero => exact ⟨PmuOnly.refl s, rfl⟩
  | succ n ih =>
    have first : ∃ t, (if fresh ∨ a % 16 = 0 then ((s.countPort m).btTouch cls a).conCheck m a .clean else (s, false)) = (t, false) ∧ PmuOnly s t := by
      split
      · exact ⟨_, State.access_quiet q m cls a, PmuOnly.count ..⟩
      · exact ⟨s, rfl, PmuOnly.refl s⟩
    obtain ⟨t, access, counted⟩ := first
    obtain ⟨only, words⟩ := ih (counted.quiet q) (a + 4) false
    rw [State.devReadFrom]
    dsimp only
    rw [access]
    refine ⟨counted.trans only, ?_⟩
    rw [words, List.range_succ_eq_map, List.map_cons, List.map_map]
    refine congrArg₂ List.cons rfl (List.map_congr_left fun i _ => ?_)
    rw [Function.comp_apply, counted.conWord, Nat.add_assoc, Nat.mul_succ, Nat.add_comm 4]

theorem State.devRead_quiet {s : State} (q : s.conQuiet) (m : Nat) (cls : Cls) (a n : Nat) :
    PmuOnly s (s.devRead m cls a n).1 ∧ (s.devRead m cls a n).2 = (List.range n).map (fun i => s.conWord (a + 4 * i)) := by
  obtain ⟨only, words⟩ := State.devReadFrom_quiet m cls n q a true
  refine ⟨only, ?_⟩
  unfold State.devRead State.devReadWords
  dsimp only
  rw [words, List.map_map]
  rfl

/-! ### Writes -/

theorem State.conByte_putConBytes (data : List Byte) (s : State) (a x : Nat) :
    (s.putConBytes a data).conByte x = if x < a then s.conByte x else (data[x - a]?).getD (s.conByte x) := by
  induction data generalizing s a with
  | nil => simp [State.putConBytes]
  | cons b bs ih =>
    rw [State.putConBytes, ih]
    by_cases own : x = a
    · subst own
      rw [if_pos (Nat.lt_succ_self x), if_neg (Nat.lt_irrefl x), Nat.sub_self, State.conByte_setConByte_same]
      rfl
    · rw [State.conByte_setConByte_other _ _ own]
      by_cases below : x < a
      · rw [if_pos below, if_pos (by omega)]
      · rw [if_neg below, if_neg (by omega), show x - a = (x - (a + 1)) + 1 by omega, List.getElem?_cons_succ]

/-- `data` stands in the Concourse at `a` after the accesses that lead from `s` to `t`, and nothing else changes but the controller's own
records and the counters. -/
structure Wrote (s t : State) (a : Nat) (data : List Byte) : Prop where
  rest : t = { s with con := t.con, ctl := t.ctl, pmu := t.pmu }
  quiet : t.conQuiet
  bytes : ∀ x, t.conByte x = if x < a then s.conByte x else (data[x - a]?).getD (s.conByte x)

namespace Wrote

variable {s t u : State} {a : Nat} {data more : List Byte}

theorem nil (q : s.conQuiet) (a : Nat) : Wrote s s a [] := ⟨rfl, q, fun x => by simp⟩

theorem append (h : Wrote s t a data) {n : Nat} (len : data.length = n) (g : Wrote t u (a + n) more) : Wrote s u a (data ++ more) where
  rest := by rw [g.rest, h.rest]
  quiet := g.quiet
  bytes x := by
    subst len
    rw [g.bytes, h.bytes]
    by_cases below : x < a
    · rw [if_pos below, if_pos (by omega), if_pos below]
    · rw [if_neg below, if_neg below]
      by_cases first : x < a + data.length
      · rw [if_pos first, List.getElem?_append_left (by omega)]
      · rw [if_neg first, List.getElem?_append_right (by omega), List.getElem?_eq_none (l := data) (by omega), Option.getD_none, Nat.sub_sub]

theorem keeps (h : Wrote s t a data) : KeepsCon s t a data.length := by
  intro x hx
  rw [h.bytes]
  rcases hx with below | above
  · rw [if_pos below]
  · rw [if_neg (by omega), List.getElem?_eq_none (by omega), Option.getD_none]

theorem conByte (h : Wrote s t a data) {i : Nat} (hi : i < data.length) : t.conByte (a + i) = data[i] := by
  rw [h.bytes, if_neg (by omega), Nat.add_sub_cancel_left, List.getElem?_eq_getElem hi, Option.getD_some]

theorem after (h : Wrote t u a data) (counted : PmuOnly s t) : Wrote s u a data where
  rest := by rw [h.rest, counted]
  quiet := h.quiet
  bytes x := by rw [h.bytes, State.conByte_congr counted.con]

end Wrote

theorem State.conStore_wrote {s : State} (q : s.conQuiet) (a : Nat) (data : List Byte) : Wrote s (s.conStore a data) a data := by
  have frame : ∀ (l : List Byte) (t : State) (b : Nat), t.putConBytes b l = { t with con := (t.putConBytes b l).con } := by
    intro l
    induction l with
    | nil => exact fun t b => rfl
    | cons c l ih =>
      intro t b
      rw [State.putConBytes]
      exact (ih _ _).trans rfl
  have put := frame data s a
  obtain ⟨unarmed, idle, good⟩ := q
  refine ⟨?_, ⟨?_, ?_, ?_⟩, s.conByte_putConBytes data a⟩
  · unfold State.conStore
    dsimp only
    rw [put]
  · unfold State.conStore State.bit State.reg
    dsimp only
    rw [put]
    exact unarmed
  · unfold State.conStore
    dsimp only
    rw [put]
    exact idle
  · unfold State.conStore
    dsimp only
    rw [put]
    dsimp only
    rw [good]
    rfl

/-- A write inside one word of a quiet Concourse. -/
theorem State.conWriteWord_quiet {s : State} (q : s.conQuiet) (m : Nat) (cls : Cls) (a : Nat) (data : List Byte) :
    (s.conWriteWord m cls a data Access.quiet).2 = .done ∧ Wrote s (s.conWriteWord m cls a data Access.quiet).1 a data := by
  have counted : PmuOnly s ((s.countPort m).count 455 4) := rfl
  have stored := (State.conStore_wrote (counted.quiet q) a data).after counted
  have touch : (s.countPort m).btTouch cls a = s.countPort m := State.btTouch_idle (s := s.countPort m) q.2.1 cls a
  have check : ((s.countPort m).count 455 4).conCheck m a .clean = ((s.countPort m).count 455 4, false) :=
    State.conCheck_clean (s := (s.countPort m).count 455 4) q.1 m (by
      have good : ((s.countPort m).count 455 4).ctl.bad = [] := q.2.2
      rw [good]
      exact List.not_mem_nil)
  have quiet : Access.quiet.upset = .clean ∧ Access.quiet.rival = none := ⟨rfl, rfl⟩
  have write : s.conWriteWord m cls a data Access.quiet = (((s.countPort m).count 455 4).conStore a data, .done) := by
    unfold State.conWriteWord
    rw [touch, quiet.1, quiet.2]
    dsimp only
    rw [check]
    split <;> rfl
  rw [write]
  exact ⟨rfl, stored⟩

theorem State.devStore_nil (s : State) (m : Nat) (cls : Cls) (a fuel : Nat) : s.devStore m cls a [] fuel = s := by
  cases fuel <;> rfl

/-- A device master's bytes stand in a quiet Concourse. -/
theorem State.devStore_quiet (m : Nat) (cls : Cls) (fuel : Nat) {s : State} (q : s.conQuiet) {a : Nat} {data : List Byte}
    (enough : a % 16 + data.length ≤ 16 * fuel) : Wrote s (s.devStore m cls a data fuel) a data := by
  induction fuel generalizing s a data with
  | zero =>
    rw [List.length_eq_zero_iff.1 (by omega : data.length = 0)]
    exact Wrote.nil q a
  | succ fuel ih =>
    rw [State.devStore]
    by_cases empty : data.isEmpty
    · rw [if_pos empty, List.isEmpty_iff.1 empty]
      exact Wrote.nil q a
    · rw [if_neg empty]
      dsimp only
      have first := (State.conWriteWord_quiet q m cls a (data.take (16 - a % 16))).2
      by_cases short : data.length ≤ 16 - a % 16
      · rw [List.take_of_length_le short] at first ⊢
        rw [List.drop_of_length_le short, State.devStore_nil]
        exact first
      · have rest := ih first.quiet (a := a + (16 - a % 16)) (data := data.drop (16 - a % 16)) (by rw [List.length_drop]; omega)
        have whole := first.append (List.length_take_of_le (by omega)) rest
        rwa [List.take_append_drop] at whole

/-! ### Words -/

theorem leNat_leBytes (n v : Nat) : leNat (leBytes n v) = v % 256 ^ n := by
  induction n generalizing v with
  | zero => rw [leBytes, leNat, pow_zero, Nat.mod_one]
  | succ n ih =>
    rw [leBytes, leNat, ih, BitVec.toNat_ofNat, pow_succ' 256 n, Nat.mod_mul]

theorem State.conWord_of_bytes {s : State} {a : Nat} {w : Word} (h : ∀ j, j < 4 → s.conByte (a + j) = ((leBytes 4 w.toNat)[j]?).getD 0) : s.conWord a = w := by
  have bytes : s.conBytes a 4 = leBytes 4 w.toNat := by
    refine List.ext_getElem (by simp [State.conBytes, length_leBytes]) fun j hj hj' => ?_
    rw [length_leBytes] at hj'
    simp only [State.conBytes, List.getElem_map, List.getElem_range]
    rw [h j hj', List.getElem?_eq_getElem (by rw [length_leBytes]; exact hj'), Option.getD_some]
  rw [State.conWord, bytes, leNat_leBytes, Nat.mod_eq_of_lt (by simpa using w.isLt), BitVec.ofNat_toNat, BitVec.setWidth_eq]

/-- The bytes of words in a row. -/
def wordBytes (ws : List Word) : List Byte := (ws.map (fun w => leBytes 4 w.toNat)).flatten

theorem length_wordBytes (ws : List Word) : (wordBytes ws).length = 4 * ws.length := by
  exact length_flatten_leBytes 4 BitVec.toNat ws

theorem getElem?_wordBytes (ws : List Word) {i j : Nat} (hj : j < 4) :
    (wordBytes ws)[4 * i + j]? = (ws[i]?).bind (fun w => (leBytes 4 w.toNat)[j]?) := by
  induction ws generalizing i with
  | nil => rfl
  | cons w ws ih =>
    have split : wordBytes (w :: ws) = leBytes 4 w.toNat ++ wordBytes ws := rfl
    rw [split]
    cases i with
    | zero => rw [List.getElem?_append_left (by rw [length_leBytes]; omega)]; simp
    | succ i =>
      rw [List.getElem?_append_right (by rw [length_leBytes]; omega), length_leBytes, List.getElem?_cons_succ, ← ih]
      congr 1
      omega

/-- Words that were written read back. -/
theorem Wrote.conWord {s t : State} {a : Nat} {ws : List Word} (h : Wrote s t a (wordBytes ws)) {i : Nat} {w : Word} (hi : ws[i]? = some w) :
    t.conWord (a + 4 * i) = w := by
  refine State.conWord_of_bytes fun j hj => ?_
  rw [h.bytes, if_neg (by omega), show a + 4 * i + j - a = 4 * i + j by omega, getElem?_wordBytes ws hj, hi, Option.bind_some,
    List.getElem?_eq_getElem (by rw [length_leBytes]; exact hj), Option.getD_some, Option.getD_some]

/-- A device master's words stand in a quiet Concourse. -/
theorem State.devWrite_quiet {s : State} (q : s.conQuiet) (m : Nat) (cls : Cls) (a : Nat) (ws : List Word) :
    Wrote s (s.devWrite m cls a ws) a (wordBytes ws) :=
  State.devStore_quiet m cls (ws.length + 1) q (data := wordBytes ws) (by rw [length_wordBytes]; omega)

end Sys2Proof.Machine
end

section
/-! PROOFS. O29: the Output Router. What it reads of a quiet Concourse, and what it writes into each enabled queue. -/

namespace Sys2Proof.Machine

/-! ### One destination channel -/

/-- What the router writes for an entry `e` of its map (R259, R260). -/
def State.routedChannel (s : State) (n e : Nat) : List Word :=
  if e / 2 ^ 14 = 1 then
    if s.dec.outBlock = some n then (List.range s.blk).map (fun j => Sparse.get (fun _ => 0) s.dec.out (64 * (e % 128) + j))
    else List.replicate s.blk 0
  else if e / 2 ^ 14 = 2 then
    if n < 3 then List.replicate s.blk 0
    else (List.range s.blk).map (fun j => s.conWord (0x00E74000 + 1024 * (e % 128) + 256 * ((n - 3) % 4) + 4 * j))
  else List.replicate s.blk 0

/-- The entry of channel `c` of queue `q` in the map in force. -/
def State.routerEntry (s : State) (q c : Nat) : Nat :=
  fieldOf (s.conWord (0x00E94000 + 0x6000 * s.ort.mapCur + 512 * q + 4 * (c / 2))) (16 * (c % 2)) 16

/-- What the router writes into queue `q`, by channel, from the map in force. -/
def State.routedNow (s : State) (n q : Nat) : List (List Word) :=
  (List.range (s.queueChannels q)).map (fun c => s.routedChannel n (s.routerEntry q c))

/-- Only queues and counters differ between `s` and `t`. -/
def RouteFrame (s t : State) : Prop := t = { s with queues := t.queues, pmu := t.pmu }

namespace RouteFrame

variable {s t u : State}

theorem trans (h : RouteFrame s t) (g : RouteFrame t u) : RouteFrame s u := by
  unfold RouteFrame at *
  rw [g, h]

theorem of_pmuOnly (h : PmuOnly s t) : RouteFrame s t := by
  unfold RouteFrame
  rw [h]

theorem quiet (h : RouteFrame s t) (q : s.conQuiet) : t.conQuiet := by
  unfold State.conQuiet State.bit State.reg at *
  rw [h]
  exact q

theorem reg (h : RouteFrame s t) (a : Nat) : t.reg a = s.reg a := by rw [State.reg, h, State.reg]

theorem fld (h : RouteFrame s t) (a lo w : Nat) : t.fld a lo w = s.fld a lo w := State.fld_of_reg (h.reg a) lo w

theorem blk (h : RouteFrame s t) : t.blk = s.blk := by rw [State.blk, h.fld, State.blk]

theorem conWord (h : RouteFrame s t) (a : Nat) : t.conWord a = s.conWord a := by
  unfold State.conWord State.conBytes State.conByte
  rw [h]

theorem routedChannel (h : RouteFrame s t) (n e : Nat) : t.routedChannel n e = s.routedChannel n e := by
  have dec : t.dec = s.dec := by rw [h]
  unfold State.routedChannel
  simp only [h.blk, h.conWord, dec]

theorem routedNow (h : RouteFrame s t) (n q : Nat) : t.routedNow n q = s.routedNow n q := by
  have ort : t.ort = s.ort := by rw [h]
  unfold State.routedNow State.routerEntry State.queueChannels
  simp only [h.routedChannel, h.conWord, h.fld, ort]

end RouteFrame

theorem State.routeChannel_quiet {s : State} (q : s.conQuiet) (n : Nat) {e : Nat} (he : e < 2 ^ 16) :
    PmuOnly s (s.routeChannel n e).1 ∧ (s.routeChannel n e).2 = s.routedChannel n e := by
  have kind : bitsOf e 14 2 = e / 2 ^ 14 := by
    rw [bitsOf, Nat.shiftRight_eq_div_pow]
    omega
  have index : bitsOf e 0 7 = e % 128 := by
    rw [bitsOf, Nat.shiftRight_zero]
    rfl
  unfold State.routeChannel State.routedChannel
  rw [kind, index]
  split
  · rename_i one
    rw [if_pos one]
    exact ⟨PmuOnly.refl s, rfl⟩
  · rename_i two
    rw [if_neg (show ¬ e / 2 ^ 14 = 1 by omega), if_pos two]
    by_cases early : n < 3
    · rw [if_pos early, if_pos early]
      exact ⟨PmuOnly.refl s, rfl⟩
    · rw [if_neg early, if_neg early]
      exact State.devRead_quiet q 36 .normal _ _
  · rename_i one two
    rw [if_neg one, if_neg two]
    exact ⟨PmuOnly.refl s, rfl⟩

theorem State.routeChannels_quiet (n : Nat) (es : List Nat) (hes : ∀ e ∈ es, e < 2 ^ 16) {s : State} (q : s.conQuiet) (acc : List (List Word)) :
    let r := es.foldl (fun (a : State × List (List Word)) e => ((a.1.routeChannel n e).1, a.2 ++ [(a.1.routeChannel n e).2])) (s, acc)
    PmuOnly s r.1 ∧ r.2 = acc ++ es.map (s.routedChannel n) := by
  induction es generalizing s acc with
  | nil => exact ⟨PmuOnly.refl s, (List.append_nil acc).symm⟩
  | cons e es ih =>
    obtain ⟨only, words⟩ := State.routeChannel_quiet q n (hes e List.mem_cons_self)
    obtain ⟨rest, list⟩ := ih (fun d hd => hes d (List.mem_cons_of_mem _ hd)) (only.quiet q) (acc ++ [(s.routeChannel n e).2])
    refine ⟨only.trans rest, list.trans ?_⟩
    rw [words, List.append_assoc, List.singleton_append, List.map_cons]
    congr 2
    exact List.map_congr_left fun d _ => (RouteFrame.of_pmuOnly only).routedChannel n d

theorem State.routerEntries_quiet {s : State} (quiet : s.conQuiet) (q n : Nat) :
    PmuOnly s (s.routerEntries q n).1 ∧ (s.routerEntries q n).2 = (List.range n).map (s.routerEntry q) := by
  obtain ⟨only, words⟩ := State.devRead_quiet quiet 36 .normal (0x00E94000 + 0x6000 * s.ort.mapCur + 512 * q) ((n + 1) / 2)
  refine ⟨only, ?_⟩
  unfold State.routerEntries
  dsimp only
  rw [words]
  refine List.map_congr_left fun c hc => ?_
  rw [List.mem_range] at hc
  rw [List.getElem?_map, List.getElem?_range (by omega), Option.map_some, Option.getD_some]
  rfl

/-! ### One queue -/

/-- A queue with block `n` on its way. -/
def Queue.arrivesNext (x : Queue) (n : Nat) (data : List (List Word)) : Queue := { x with arriving := x.arriving ++ [(n, data)] }

theorem State.routeQueue_quiet {s : State} (quiet : s.conQuiet) (n q : Nat) :
    RouteFrame s (s.routeQueue n q) ∧ ∀ d, (s.routeQueue n q).queue d =
      if d = q ∧ s.bit (Reg.OQ_Q_CFG q) 0 = true then (s.queue q).arrivesNext n (s.routedNow n q) else s.queue d := by
  unfold State.routeQueue
  by_cases off : s.bit (Reg.OQ_Q_CFG q) 0 = false
  · rw [if_pos off]
    exact ⟨RouteFrame.of_pmuOnly (PmuOnly.refl s), fun d => (if_neg (by simp [off])).symm⟩
  · rw [if_neg off]
    obtain ⟨read, entries⟩ := State.routerEntries_quiet quiet q (s.queueChannels q)
    obtain ⟨write, words⟩ := State.routeChannels_quiet n (s.routerEntries q (s.queueChannels q)).2 (by
      rw [entries]
      intro e he
      obtain ⟨c, -, rfl⟩ := List.mem_map.1 he
      exact Nat.mod_lt _ (by decide)) (read.quiet quiet) []
    have only := read.trans write
    have routed : (s.routerEntries q (s.queueChannels q)).2.map ((s.routerEntries q (s.queueChannels q)).1.routedChannel n) = s.routedNow n q := by
      rw [entries, List.map_map]
      exact List.map_congr_left fun c _ => (RouteFrame.of_pmuOnly read).routedChannel n _
    rw [List.nil_append, routed] at words
    dsimp only
    generalize (List.foldl _ _ _ : State × List (List Word)) = r at only words
    have queue : ∀ d, r.1.queue d = s.queue d := fun d => by rw [State.queue, only, State.queue]
    refine ⟨(RouteFrame.of_pmuOnly only).trans rfl, fun d => ?_⟩
    by_cases own : d = q
    · subst own
      rw [State.queue_setQueue_same, if_pos ⟨rfl, by simpa using off⟩, queue, words]
      rfl
    · rw [State.queue_setQueue_other _ _ own, if_neg (fun h => own h.1), queue]

theorem State.routeQueues_quiet (n : Nat) (L : List Nat) (nodup : L.Nodup) {s : State} (quiet : s.conQuiet) :
    RouteFrame s (L.foldl (fun u q => u.routeQueue n q) s) ∧ ∀ d, (L.foldl (fun u q => u.routeQueue n q) s).queue d =
      if d ∈ L ∧ s.bit (Reg.OQ_Q_CFG d) 0 = true then (s.queue d).arrivesNext n (s.routedNow n d) else s.queue d := by
  induction L generalizing s with
  | nil => exact ⟨RouteFrame.of_pmuOnly (PmuOnly.refl s), fun d => (if_neg (fun h => List.not_mem_nil h.1)).symm⟩
  | cons q L ih =>
    obtain ⟨fresh, nodup⟩ := List.nodup_cons.1 nodup
    obtain ⟨frame, queues⟩ := State.routeQueue_quiet quiet n q
    obtain ⟨rest, others⟩ := ih nodup (frame.quiet quiet)
    refine ⟨frame.trans rest, fun d => ?_⟩
    rw [List.foldl_cons, others, State.bit_of_reg (frame.reg _), frame.routedNow, queues]
    by_cases own : d = q
    · subst own
      simp only [fresh, false_and, if_false, List.mem_cons_self, true_and]
    · simp only [own, false_and, if_false, List.mem_cons, false_or]

/-! ### The frame boundary -/

section Boundary

variable {s : State}

/-- The router's work at this sample is due. -/
def State.frameDue (s : State) : Prop :=
  s.running = true ∧ s.run = true ∧ s.offset = s.blk / 4 ∧ s.clk.frameDone ≠ s.period + 1

theorem frameBoundary_idle (idle : ¬ s.frameDue) : exec .frameBoundary s = .next s := by
  refine if_pos ?_
  by_contra due
  simp only [not_or, Bool.not_eq_false] at due
  obtain ⟨running, run, place, fresh⟩ := due
  exact idle ⟨running, run, Decidable.not_not.1 place, fresh⟩

/-- The state in which the router writes: the selected map is in force and shown. -/
def State.frameStarted (s : State) : State :=
  { s with ort := { s.ort with mapCur := s.fld Reg.ORT_CTRL 0 1 }, clk := { s.clk with frameDone := s.period + 1 } }.setFld Reg.ORT_STAT 0 1
    (s.fld Reg.ORT_CTRL 0 1)

theorem State.reg_frameStarted (s : State) {a : Nat} (h : a ≠ Reg.ORT_STAT) : s.frameStarted.reg a = s.reg a :=
  State.reg_setFld_other _ _ _ _ h

theorem State.routedNow_frameStarted (s : State) (n q : Nat) : s.frameStarted.routedNow n q = s.routed n q := by
  have blk : s.frameStarted.blk = s.blk := by
    rw [State.blk, State.fld_of_reg (s.reg_frameStarted (by decide)), State.blk]
  have channels : s.frameStarted.queueChannels q = s.queueChannels q := by
    rw [State.queueChannels, State.fld_of_reg (s.reg_frameStarted (by unfold Reg.OQ_Q_CFG Reg.ORT_STAT; omega)), State.queueChannels]
  have word : ∀ a, s.frameStarted.conWord a = s.conWord a := fun _ => rfl
  have dec : s.frameStarted.dec = s.dec := rfl
  have map : s.frameStarted.ort.mapCur = s.fld Reg.ORT_CTRL 0 1 := rfl
  unfold State.routedNow State.routed State.routedChannel State.routerEntry
  rw [channels]
  simp only [blk, word, dec, map]
  refine List.map_congr_left fun c _ => ?_
  generalize fieldOf (s.conWord _) _ 16 = e
  split
  · rename_i one
    rw [one]
    rfl
  · split
    · rename_i two
      rw [two]
      rfl
    · rename_i one two
      split
      · exact absurd (by assumption) one
      · exact absurd (by assumption) two
      · rfl

theorem nodup_queueNumbers : queueNumbers.Nodup := by decide

theorem frameBoundary_routes (due : s.frameDue) (on : s.pageOn Page.ort = true) (going : s.ort.stopping = false) (quiet : s.conQuiet) :
    Completes .frameBoundary s (fun t =>
      (∀ q ∈ queueNumbers, t.queue q =
        if s.bit (Reg.OQ_Q_CFG q) 0 = true ∧ s.clk.startPeriod + 1 ≤ s.period then
          { s.queue q with arriving := (s.queue q).arriving ++ [(s.period + 1, s.routed (s.period + 1) q)] }
        else s.queue q) ∧
      t = { s with
        regs := t.regs, queues := t.queues, pmu := t.pmu, clk := { s.clk with frameDone := s.period + 1 }
        ort := { s.ort with mapCur := s.fld Reg.ORT_CTRL 0 1 } } ∧
      t.fld Reg.ORT_STAT 0 1 = s.fld Reg.ORT_CTRL 0 1 ∧ KeepsRegs s t [Reg.ORT_STAT]) := by
  obtain ⟨running, run, place, fresh⟩ := due
  have stat : s.frameStarted.fld Reg.ORT_STAT 0 1 = s.fld Reg.ORT_CTRL 0 1 :=
    (State.fld_setFld_same _ _ _ (by decide)).trans (Nat.mod_eq_of_lt (Nat.mod_lt _ (by decide)))
  have page : s.frameStarted.pageOn Page.ort = true := (State.bit_of_reg (s.reg_frameStarted (by decide)) 0).trans on
  have unarmed : s.frameStarted.conQuiet := ⟨(State.bit_of_reg (s.reg_frameStarted (by decide)) 30).trans quiet.1, quiet.2⟩
  have keeps : KeepsRegs s s.frameStarted [Reg.ORT_STAT] := fun a ha => s.reg_frameStarted (by simpa using ha)
  have exec_eq : exec .frameBoundary s = .next (if s.clk.startPeriod + 1 ≤ s.period then
      queueNumbers.foldl (fun u q => u.routeQueue (s.period + 1) q) s.frameStarted else s.frameStarted) := by
    refine (if_neg (by simp [running, run, place, fresh])).trans (congrArg Host.Outcome.next ?_)
    refine (if_neg (by rw [Bool.not_eq_true]; exact going)).trans ?_
    by_cases first : s.clk.startPeriod + 1 ≤ s.period
    · rw [if_pos first]
      exact if_pos ⟨first, Or.inl page⟩
    · rw [if_neg first]
      exact if_neg (fun h => first h.1)
  refine ⟨_, exec_eq, ?_⟩
  by_cases first : s.clk.startPeriod + 1 ≤ s.period
  · rw [if_pos first]
    obtain ⟨frame, queues⟩ := State.routeQueues_quiet (s.period + 1) queueNumbers nodup_queueNumbers unarmed
    generalize List.foldl _ _ _ = t at frame queues ⊢
    refine ⟨fun q hq => ?_, by rw [frame]; rfl, (frame.fld ..).trans stat, fun a ha => (frame.reg a).trans (keeps a ha)⟩
    rw [queues, State.routedNow_frameStarted, State.bit_of_reg (s.reg_frameStarted (by unfold Reg.OQ_Q_CFG Reg.ORT_STAT; omega))]
    simp only [hq, first, true_and, and_true]
    rfl
  · rw [if_neg first]
    exact ⟨fun q _ => (if_neg (fun h => first h.2)).symm, rfl, stat, keeps⟩

end Boundary

/-- Settles O29: queue by queue the router writes the next block, once a period. -/
theorem frameBoundaryRoutes : Obligations.FrameBoundaryRoutes := by
  unfold Obligations.FrameBoundaryRoutes
  exact fun s => ⟨fun idle => ⟨s, frameBoundary_idle idle, rfl⟩, fun due on going quiet => frameBoundary_routes due on going quiet⟩

end Sys2Proof.Machine
end

section
/-! PROOFS. O30: an output sample inside a period. What each queue hands out, what the other ports keep of it, and what enters the DACs. -/

namespace Sys2Proof.Machine

/-! ### What a queue hands out (R263) -/

theorem sat32_toInt (w : Word) : (sat32 w.toInt).1 = w := by
  have lo := w.le_toInt
  have hi := w.toInt_lt
  unfold sat32
  norm_num at lo hi
  rw [if_neg (by omega), if_neg (by omega)]
  exact BitVec.ofInt_toInt

/-- The sample of the block that a queue releases in full. -/
theorem Queue.samples_whole {x : Queue} {b : Nat × List (List Word)} (cur : x.cur = some b) (fade : x.fade = none) (rise : x.rise = none) (o n nch : Nat) :
    x.samples o n nch = (List.range nch).map (fun c => ((((b.2[c]?).getD [])[o]?).getD 0)) := by
  unfold Queue.samples
  refine List.map_congr_left fun c _ => ?_
  simp only [cur, fade, rise, add_zero]
  exact sat32_toInt _

/-- A queue between the first and the last sample of a period: what it is after the sample. -/
theorem State.queueSample_inside {s : State} (inside : s.offset ≠ 0) (more : s.offset + 1 < s.blk) (q : Nat) :
    QueueFrame s (s.queueSample q) [Reg.OQ_Q_STAT q] [q] ∧ ∀ b, (s.queue q).cur = some b → (s.queue q).fade = none → (s.queue q).rise = none →
      ((s.queueSample q).queue q).cur = some b ∧ ((s.queueSample q).queue q).outValid = true ∧
      ((s.queueSample q).queue q).outV = (List.range (s.queueChannels q)).map (fun c => ((((b.2[c]?).getD [])[s.offset]?).getD 0)) := by
  have whole : decide (s.offset + 1 = s.blk) = false := decide_eq_false (by omega)
  unfold State.queueSample
  simp only [inside, whole, if_false, Bool.false_eq_true]
  split
  · rename_i idle
    refine ⟨⟨rfl, fun _ _ => rfl, fun _ _ => rfl⟩, fun b cur => ?_⟩
    rw [idle] at cur
    exact absurd (show none = some b from cur) (Option.some_ne_none b).symm
  · refine ⟨QueueFrame.putQueue s q _, fun b cur fade rise => ?_⟩
    rw [State.queue_putQueue]
    have out := Queue.samples_whole cur fade rise s.offset s.blk (s.queueChannels q)
    simp only [fade, rise]
    split
    · exact ⟨cur, by simp [cur], out⟩
    · exact ⟨cur, by simp [cur], out⟩

/-- A queue's block is released at this sample as obligations of the queue say. -/
def State.Releases (s t : State) (q : Nat) : Prop :=
  ∀ b, (s.queue q).cur = some b → (s.queue q).fade = none → (s.queue q).rise = none →
    (t.queue q).cur = some b ∧ (t.queue q).outValid = true ∧
    (t.queue q).outV = (List.range (s.queueChannels q)).map (fun c => ((((b.2[c]?).getD [])[s.offset]?).getD 0))

/-- Registers below the status registers of the queues are left. -/
theorem QueueFrame.low {s t : State} {l qs : List Nat} (h : QueueFrame s t l qs) (high : ∀ a ∈ l, 0x11200 ≤ a) {a : Nat} (ha : a < 0x11200) :
    t.reg a = s.reg a := h.regs a (fun mem => absurd (high a mem) (by omega))

theorem State.queueSamples_inside (L : List Nat) (nodup : L.Nodup) (few : ∀ q ∈ L, q < 48) {s : State} (inside : s.offset ≠ 0)
    (more : s.offset + 1 < s.blk) :
    QueueFrame s (L.foldl (fun u q => u.queueSample q) s) (L.map (fun q => Reg.OQ_Q_STAT q)) L ∧
      ∀ q ∈ L, s.Releases (L.foldl (fun u q => u.queueSample q) s) q := by
  induction L generalizing s with
  | nil => exact ⟨⟨rfl, fun _ _ => rfl, fun _ _ => rfl⟩, fun q hq => absurd hq List.not_mem_nil⟩
  | cons q L ih =>
    obtain ⟨fresh, nodup⟩ := List.nodup_cons.1 nodup
    obtain ⟨frame, released⟩ := State.queueSample_inside inside more q
    have low : ∀ {a}, a < 0x11200 → (s.queueSample q).reg a = s.reg a :=
      frame.low (by simp only [List.mem_singleton, forall_eq, Reg.OQ_Q_STAT]; omega)
    have blk : (s.queueSample q).blk = s.blk := by rw [State.blk, State.fld_of_reg (low (by decide)), State.blk]
    have offset : (s.queueSample q).offset = s.offset := by
      rw [State.offset, blk, State.sample, frame.rest, State.offset, State.sample]
    obtain ⟨rest, others⟩ := ih nodup (fun d hd => few d (List.mem_cons_of_mem _ hd)) (s := s.queueSample q) (by rw [offset]; exact inside)
      (by rw [offset, blk]; exact more)
    refine ⟨⟨by rw [List.foldl_cons, rest.rest, frame.rest], fun a ha => ?_, fun d hd => ?_⟩, fun d hd => ?_⟩
    · rw [List.map_cons, List.mem_cons, not_or] at ha
      rw [List.foldl_cons, rest.regs a ha.2, frame.regs a (by simpa using ha.1)]
    · rw [List.mem_cons, not_or] at hd
      rw [List.foldl_cons, rest.queues d hd.2, frame.queues d (by simpa using hd.1)]
    · rw [List.foldl_cons]
      by_cases own : d = q
      · subst own
        unfold State.Releases
        rw [rest.queues d fresh]
        exact released
      · have there := others d ((List.mem_cons.1 hd).resolve_left own)
        have small := few d hd
        unfold State.Releases at there ⊢
        rw [frame.queues d (by simpa using own), offset] at there
        have channels : (s.queueSample q).queueChannels d = s.queueChannels d := by
          rw [State.queueChannels, State.fld_of_reg (low (by unfold Reg.OQ_Q_CFG; omega)), State.queueChannels]
        rw [channels] at there
        exact there

/-! ### The ports that keep the sample -/

/-- Only the ports' states and the count of free values differ between `s` and `t`. -/
def PortFrame (s t : State) : Prop := t = { s with net := t.net, draws := t.draws }

namespace PortFrame

variable {s t u : State}

theorem refl (s : State) : PortFrame s s := rfl

theorem trans (h : PortFrame s t) (g : PortFrame t u) : PortFrame s u := by
  unfold PortFrame at *
  rw [g, h]

theorem foldl {α : Type} {P : State → Prop} {f : State → α → State} (L : List α) (keep : ∀ u v, P u → PortFrame u v → P v)
    (hf : ∀ u x, P u → PortFrame u (f u x)) {s : State} (hs : P s) : PortFrame s (L.foldl f s) := by
  induction L generalizing s with
  | nil => exact refl s
  | cons x L ih => exact (hf s x hs).trans (ih (keep _ _ hs (hf s x hs)))

theorem txSample (s : State) (i t : Nat) : PortFrame s (s.txSample i t) := by
  unfold State.txSample
  dsimp only
  split
  · exact refl s
  · generalize (if t % _ = 0 then _ else _ : TxStream) = y
    cases y.start with
    | none => rfl
    | some st =>
      dsimp only
      split <;> rfl

theorem drawSlots (n : Nat) (s : State) : PortFrame s (s.drawSlots n).1 := by
  induction n generalizing s with
  | zero => exact refl s
  | succ n ih => exact (show PortFrame s (s.draw 32).2 from rfl).trans (ih _)

theorem tdmSample (s : State) (p t : Nat) : PortFrame s (s.tdmSample p t) := by
  unfold State.tdmSample
  dsimp only
  split
  · exact refl s
  · exact (drawSlots _ s).trans rfl

theorem hostOutSample {s : State} (inside : s.offset ≠ 0) (more : s.offset + 1 < s.blk) (late : BitVec 8) (k : Nat) :
    PortFrame s (s.hostOutSample late k) := by
  have whole : ¬ s.offset + 1 = s.blk := by omega
  unfold State.hostOutSample
  simp only [inside, whole, if_false]
  split <;> rfl

theorem inside (h : PortFrame s t) (hs : s.offset ≠ 0 ∧ s.offset + 1 < s.blk) : t.offset ≠ 0 ∧ t.offset + 1 < t.blk := by
  unfold State.offset State.sample State.blk State.fld State.reg at *
  rw [h]
  exact hs

end PortFrame

/-! ### The DAC filters -/

/-- Only the DACs, their registers and counters differ between `s` and `t`. -/
structure DacSampled (s t : State) : Prop where
  rest : t = { s with regs := t.regs, dac := t.dac, pmu := t.pmu }
  low : ∀ a, a < 0x12000 → t.reg a = s.reg a

namespace DacSampled

variable {s t u : State}

theorem trans (h : DacSampled s t) (g : DacSampled t u) : DacSampled s u :=
  ⟨by rw [g.rest, h.rest], fun a ha => (g.low a ha).trans (h.low a ha)⟩

theorem of_frame {l cs : List Nat} (h : DacFrame s t l cs) (high : ∀ a ∈ l, 0x12000 ≤ a) : DacSampled s t :=
  ⟨by rw [h.rest], fun a ha => h.regs a (fun mem => absurd (high a mem) (by omega))⟩

theorem of_reports {l : List Nat} (h : OnlyReports s t l) (out : t.out = s.out) (high : ∀ a ∈ l, 0x12000 ≤ a) : DacSampled s t := by
  refine ⟨?_, fun a ha => h.2 a (fun mem => absurd (high a mem) (by omega))⟩
  obtain ⟨rest, -⟩ := h
  rw [rest, out]

end DacSampled

theorem dacStatRegs_high (c : Nat) : ∀ a ∈ [Reg.DAC_CH_STAT c, Reg.DAC_STAT], 0x12000 ≤ a := by
  simp only [List.mem_cons, List.not_mem_nil, or_false, forall_eq_or_imp, forall_eq, Reg.DAC_CH_STAT, Reg.DAC_STAT]
  omega

/-- The conditions of R275 leave what a channel's filter holds, and its mirror. -/
theorem State.dacConditions_filter (s : State) (c : Nat) :
    ((s.dacConditions c).dacCh c).hist = (s.dacCh c).hist ∧ ((s.dacConditions c).dacCh c).mirror = (s.dacCh c).mirror := by
  have clamped : ((s.clampNow c).dacCh c).hist = (s.dacCh c).hist ∧ ((s.clampNow c).dacCh c).mirror = (s.dacCh c).mirror := by
    rw [State.dacCh_clampNow]
    exact ⟨rfl, rfl⟩
  unfold State.dacConditions State.dacRelease
  dsimp only
  split
  · exact ⟨rfl, rfl⟩
  · split
    · exact clamped
    · split
      · exact ⟨rfl, rfl⟩
      · split
        · split
          · rw [State.dacCh_setDacCh_same]; exact ⟨rfl, rfl⟩
          · exact clamped
        · split
          · rw [State.dacCh_setDacCh_same]; exact ⟨rfl, rfl⟩
          · rw [State.dacCh_showFilterSwitch, State.dacCh_setDacCh_same]; exact ⟨rfl, rfl⟩

theorem DacChan.hist_gate (x : DacChan) (data : Bool) : (x.gate data).hist = x.hist := by
  unfold DacChan.gate
  cases x.st with
  | clear => dsimp only; split <;> rfl
  | run => dsimp only; split <;> rfl
  | clamp => rfl
  | fault => rfl

theorem State.dacApply_filter (s : State) (c : Nat) (x : DacChan) : (s.dacApply c x).hist = x.hist ∧ (s.dacApply c x).mirror = x.mirror := by
  unfold State.dacApply
  exact ⟨by simp only [apply_ite DacChan.hist, ite_self], by simp only [apply_ite DacChan.mirror, ite_self]⟩

/-- What a sample counts and flags of its channel. -/
theorem State.dacCounted (u : State) (c n : Nat) (tone : Bool) :
    let s2 := if n = 0 then u else ((u.bumpBy Reg.DAC_SAT_CNT n).count 504 n).setBit (Reg.DAC_CH_STAT c) 13 true
    let s3 := if s2.bit Reg.DAC_STAT 0 then s2.count 506 1 else s2
    let s4 := if tone then s3.count 507 1 else s3
    DacSampled u s4 ∧ ∀ d, s4.dacCh d = u.dacCh d := by
  have refl : ∀ v : State, DacSampled v v := fun v => ⟨rfl, fun _ _ => rfl⟩
  have counted : ∀ (v : State) (b : Bool) (i : Nat), DacSampled v (if b then v.count i 1 else v) ∧ ∀ d, (if b then v.count i 1 else v).dacCh d = v.dacCh d := by
    intro v b i
    cases b
    · exact ⟨refl v, fun _ => rfl⟩
    · exact ⟨⟨rfl, fun _ _ => rfl⟩, fun _ => rfl⟩
  have flagged : DacSampled u (if n = 0 then u else ((u.bumpBy Reg.DAC_SAT_CNT n).count 504 n).setBit (Reg.DAC_CH_STAT c) 13 true) ∧
      ∀ d, (if n = 0 then u else ((u.bumpBy Reg.DAC_SAT_CNT n).count 504 n).setBit (Reg.DAC_CH_STAT c) 13 true).dacCh d = u.dacCh d := by
    split
    · exact ⟨refl u, fun _ => rfl⟩
    · have reports := ((onlyReports_setReg u Reg.DAC_SAT_CNT (BitVec.ofNat 32 (min 0xFFFFFFFF ((u.reg Reg.DAC_SAT_CNT).toNat + n)))).trans
        (onlyReports_count _ 504 n)).trans (onlyReports_setBit _ (Reg.DAC_CH_STAT c) 13 true)
      refine ⟨DacSampled.of_reports reports ?_ ?_, reports.dacCh⟩
      · rw [State.setBit_out, State.count_out, State.bumpBy_out]
      · simp only [List.mem_append, List.mem_cons, List.not_mem_nil, or_false, forall_eq_or_imp, forall_eq, Reg.DAC_CH_STAT, Reg.DAC_SAT_CNT]
        omega
  dsimp only
  generalize (if n = 0 then u else _ : State) = s2 at flagged ⊢
  obtain ⟨cleared, chans⟩ := counted s2 (s2.bit Reg.DAC_STAT 0) 506
  generalize (if s2.bit Reg.DAC_STAT 0 then _ else _ : State) = s3 at cleared chans ⊢
  obtain ⟨sounded, chans'⟩ := counted s3 tone 507
  exact ⟨(flagged.1.trans cleared).trans sounded, fun d => (chans' d).trans ((chans d).trans (flagged.2 d))⟩

/-- What a channel is after a sample: its filter takes the sample of queue 0. -/
theorem State.dacSample_enters (s : State) (c : Nat) :
    DacSampled s (s.dacSample c) ∧ (∀ d, d ≠ c → (s.dacSample c).dacCh d = s.dacCh d) ∧
      ((s.dacCh c).mirror = none → ((s.dacSample c).dacCh c).hist = ((((s.queue 0).outV[c]?).getD 0) :: (s.dacCh c).hist).take 64) := by
  have held := dacFrame_dacConditions s c
  have sampled := DacSampled.of_frame held (dacStatRegs_high c)
  obtain ⟨hist, mirror⟩ := s.dacConditions_filter c
  have queue : (s.dacConditions c).queue 0 = s.queue 0 := by rw [State.queue, held.rest, State.queue]
  unfold State.dacSample
  generalize s.dacConditions c = u at held sampled hist mirror queue
  obtain ⟨hist', mirror'⟩ := u.dacApply_filter c (u.dacCh c)
  dsimp only
  rw [queue]
  generalize u.dacApply c (u.dacCh c) = x at hist' mirror'
  generalize input : x.mixIn _ _ = w
  have filter := DacChan.hist_gate ({ x with hist := (BitVec.ofInt 32 w :: x.hist).take 64 }) ((s.queue 0).outValid && !x.mask)
  generalize DacChan.gate _ _ = y at filter
  obtain ⟨counted, chans⟩ := u.dacCounted c (u.dacInputs c y).2 y.sounding
  generalize (if y.sounding = true then _ else _ : State) = v at counted chans
  refine ⟨(sampled.trans counted).trans (DacSampled.of_frame (dacFrame_setDacCh v _ (l := [Reg.DAC_CH_STAT c]) (by simp) (List.mem_singleton_self c)) ?_),
    fun d hd => ?_, fun plain => ?_⟩
  · exact fun a ha => dacStatRegs_high c a (by simp only [List.mem_singleton] at ha; simp [ha])
  · rw [State.dacCh_setDacCh_other _ _ hd, chans, held.chans d (by simpa using hd)]
  · rw [State.dacCh_setDacCh_same]
    have own : w = (((s.queue 0).outV[c]?).getD 0).toInt := by
      rw [← input, DacChan.mixIn, mirror', mirror, plain]
    rw [own, BitVec.ofInt_toInt, hist', hist] at filter
    exact filter

theorem DacSampled.queue {s t : State} (h : DacSampled s t) (q : Nat) : t.queue q = s.queue q := by rw [State.queue, h.rest, State.queue]

theorem State.dacSamples_fold (L : List Nat) (nodup : L.Nodup) (s : State) :
    DacSampled s (L.foldl (fun u c => u.dacSample c) s) ∧ (∀ d, d ∉ L → (L.foldl (fun u c => u.dacSample c) s).dacCh d = s.dacCh d) ∧
      ∀ c ∈ L, (s.dacCh c).mirror = none →
        ((L.foldl (fun u c => u.dacSample c) s).dacCh c).hist = ((((s.queue 0).outV[c]?).getD 0) :: (s.dacCh c).hist).take 64 := by
  induction L generalizing s with
  | nil => exact ⟨⟨rfl, fun _ _ => rfl⟩, fun _ _ => rfl, fun c hc => absurd hc List.not_mem_nil⟩
  | cons c L ih =>
    obtain ⟨fresh, nodup⟩ := List.nodup_cons.1 nodup
    obtain ⟨frame, others, enters⟩ := s.dacSample_enters c
    obtain ⟨rest, kept, entered⟩ := ih nodup (s.dacSample c)
    refine ⟨frame.trans rest, fun d hd => ?_, fun d hd plain => ?_⟩
    · rw [List.mem_cons, not_or] at hd
      rw [List.foldl_cons, kept d hd.2, others d hd.1]
    · rw [List.foldl_cons]
      by_cases own : d = c
      · subst own
        rw [kept d fresh, enters plain]
      · have there := entered d ((List.mem_cons.1 hd).resolve_left own)
        rw [others d own, frame.queue] at there
        exact there plain

theorem State.dacSamples_enter (s : State) :
    DacSampled s s.dacSamples ∧ ∀ c, c < 8 → (s.dacCh c).mirror = none →
      (s.dacSamples.dacCh c).hist = ((((s.queue 0).outV[c]?).getD 0) :: (s.dacCh c).hist).take 64 := by
  obtain ⟨frame, -, entered⟩ := State.dacSamples_fold (List.range 8) List.nodup_range s
  unfold State.dacSamples
  generalize List.foldl _ s _ = t at frame entered
  have shown := DacSampled.of_frame (dacFrame_showFilterSwitch t List.mem_cons_self []) (by simp [Reg.DAC_STAT] : ∀ a ∈ [Reg.DAC_STAT], 0x12000 ≤ a)
  have whole := frame.trans shown
  refine ⟨⟨?_, whole.low⟩, fun c hc plain => entered c (List.mem_range.2 hc) plain⟩
  have rest := whole.rest
  generalize t.showFilterSwitch = u at rest ⊢
  dsimp only
  rw [rest]

/-! ### The command -/

section Sample

variable {s : State}

/-- The next sample of a period, where the period divides the range of media time. -/
theorem sample_next {mt : BitVec 64} {b : Nat} (hb : 2 ^ 56 % b = 0) (more : mt.toNat / 256 % b + 1 < b) :
    (mt + 256).toNat / 256 % b = mt.toNat / 256 % b + 1 := by
  have step : (mt.toNat / 256 + 1) % b = mt.toNat / 256 % b + 1 := by
    have one : 1 % b = 1 := Nat.mod_eq_of_lt (by omega)
    rw [Nat.add_mod_of_add_mod_lt (by rw [one]; exact more), one]
  have room : mt.toNat + 256 < 2 ^ 64 := by
    by_contra past
    have last : mt.toNat / 256 + 1 = 2 ^ 56 := by have := mt.isLt; omega
    rw [last, hb] at step
    omega
  have next : (mt + 256).toNat = mt.toNat + 256 := by
    rw [BitVec.toNat_add]
    exact Nat.mod_eq_of_lt room
  rw [next, Nat.add_div_right _ (by decide), step]

theorem State.blk_divides (s : State) : 2 ^ 56 % s.blk = 0 := by
  have small : s.fld Reg.CLK_MEDIA_CFG 2 2 < 4 := Nat.mod_lt _ (by decide)
  unfold State.blk
  generalize s.fld Reg.CLK_MEDIA_CFG 2 2 = k at small
  interval_cases k <;> rfl

theorem outputSample_standby (late : BitVec 8) (h : s.powerState = 2 ∨ s.powerState = 3) : exec (.outputSample late) s = .next s :=
  if_pos (Or.inr h)

theorem queueNumbers_few : ∀ q ∈ queueNumbers, q < 48 := by decide

theorem outputSample_inside (serves : s.serving = true) (active : s.powerState = 0) (running : s.running = true) (inside : s.offset ≠ 0)
    (more : s.offset + 1 < s.blk) (late : BitVec 8) :
    Completes (.outputSample late) s (fun t =>
      t.clk.mt = s.clk.mt + 256 ∧ (∀ q ∈ queueNumbers, s.Releases t q) ∧
      (∀ c, c < 8 → (s.dacCh c).mirror = none →
        (t.dacCh c).hist = ((((t.queue 0).outV[c]?).getD 0) :: (s.dacCh c).hist).take 64) ∧
      KeepsCores s t []) := by
  obtain ⟨queues, released⟩ := State.queueSamples_inside queueNumbers nodup_queueNumbers queueNumbers_few inside more
  generalize hs2 : queueNumbers.foldl (fun u q => u.queueSample q) s = s2 at queues released
  have low : ∀ {a}, a < 0x11200 → s2.reg a = s.reg a := queues.low (by
    intro a ha
    obtain ⟨q, -, rfl⟩ := List.mem_map.1 ha
    unfold Reg.OQ_Q_STAT
    omega)
  have blk : s2.blk = s.blk := by rw [State.blk, State.fld_of_reg (low (by decide)), State.blk]
  have offset : s2.offset = s.offset := by rw [State.offset, blk, State.sample, queues.rest, State.offset, State.sample]
  have tx := PortFrame.foldl (P := fun _ => True) (f := fun u i => u.txSample i s.sample) (List.range 32) (fun _ _ _ _ => trivial)
    (fun u i _ => PortFrame.txSample u i s.sample) (s := s2) trivial
  generalize hs3 : (List.range 32).foldl (fun u i => u.txSample i s.sample) s2 = s3 at tx
  have tdm := PortFrame.foldl (P := fun _ => True) (f := fun u p => u.tdmSample p s.sample) (List.range 4) (fun _ _ _ _ => trivial)
    (fun u p _ => PortFrame.tdmSample u p s.sample) (s := s3) trivial
  generalize hs4 : (List.range 4).foldl (fun u p => u.tdmSample p s.sample) s3 = s4 at tdm
  have there := (tx.trans tdm).inside (by rw [offset, blk]; exact ⟨inside, more⟩)
  have host := PortFrame.foldl (P := fun u => u.offset ≠ 0 ∧ u.offset + 1 < u.blk) (f := fun u k => u.hostOutSample late k) (List.range 8)
    (fun _ _ hu frame => frame.inside hu) (fun u k hu => PortFrame.hostOutSample hu.1 hu.2 late k) there
  generalize hs5 : (List.range 8).foldl (fun u k => u.hostOutSample late k) s4 = s5 at host
  have ports := (tx.trans tdm).trans host
  obtain ⟨dac, entered⟩ := s5.dacSamples_enter
  generalize hs6 : s5.dacSamples = s6 at dac entered
  have queue : ∀ q, s6.queue q = s2.queue q := fun q => by rw [dac.queue, State.queue, ports, State.queue]
  have clk : s6.clk = s.clk := by rw [dac.rest, ports, queues.rest]
  have cores : s6.cores = s.cores := by rw [dac.rest, ports, queues.rest]
  have chan : ∀ c, s5.dacCh c = s.dacCh c := fun c => by rw [State.dacCh, ports, queues.rest, State.dacCh]
  have next : ({ s6 with clk := { s6.clk with mt := s6.clk.mt + 256 } } : State).offset = s.offset + 1 := by
    have blk' : s6.blk = s.blk := by
      rw [← blk, State.blk, State.fld_of_reg (dac.low _ (by decide)), State.fld, State.reg, ports]
      rfl
    show (s6.clk.mt + 256).toNat / 256 % s6.blk = _
    rw [blk', clk]
    exact sample_next s.blk_divides more
  have run : exec (.outputSample late) s = .next { s6 with clk := { s6.clk with mt := s6.clk.mt + 256 } } := by
    show execOutputSample late s = _
    unfold execOutputSample
    rw [if_neg (by simp [serves, active]), if_neg (by rw [running]; exact Bool.noConfusion)]
    dsimp only
    rw [if_neg inside, hs2, hs3, hs4, hs5, hs6, if_neg (by rw [next]; exact Nat.succ_ne_zero _)]
  refine ⟨_, run, ?_, fun q hq => ?_, fun c hc plain => ?_, fun n _ => ?_⟩
  · show s6.clk.mt + 256 = _
    rw [clk]
  · have := released q hq
    unfold State.Releases at this ⊢
    rw [← queue] at this
    exact this
  · have := entered c hc (by rw [chan, plain])
    rw [chan, ← dac.queue] at this
    exact this
  · show Sparse.get _ s6.cores n = _
    rw [cores]
    rfl

end Sample

/-- Settles O30: every queue hands out its sample, queue 0's enters the DACs, and media time moves on. -/
theorem outputSamples : Obligations.OutputSamples := by
  unfold Obligations.OutputSamples
  exact fun s late => ⟨fun standby => ⟨s, outputSample_standby late standby, rfl⟩,
    fun serves active running inside more => outputSample_inside serves active running inside more late⟩

end Sys2Proof.Machine
end

section
/-! PROOFS. O45: the clock sources. What changes of the media PLL's state, of its offset and of the source leave. -/

namespace Sys2Proof.Machine

theorem State.fld_setFld_apart (s : State) (a : Nat) {lo w : Nat} (n : Nat) {lo' w' : Nat} (apart : lo' + w' ≤ lo ∨ lo + w ≤ lo') :
    (s.setFld a lo w n).fld a lo' w' = s.fld a lo' w' := by
  rw [State.fld, State.reg_setFld, if_pos rfl, fieldOf_setFieldOf_other _ _ apart, State.fld]

theorem OnlyReports.clk {s t : State} {l : List Nat} (h : OnlyReports s t l) : t.clk = s.clk := by rw [h.1]

/-! ### Frames of the clock -/

namespace ClockOnly

variable {s t u : State} {l m : List Nat}

theorem of_reports (h : OnlyReports s t l) : ClockOnly s t l := ⟨by rw [h.1], h.2⟩

theorem setClk (s : State) (c : Clock) (l : List Nat) : ClockOnly s { s with clk := c } l := ⟨rfl, fun _ _ => rfl⟩

theorem trans (h : ClockOnly s t l) (g : ClockOnly t u l) : ClockOnly s u l :=
  ⟨by rw [g.1, h.1], fun a ha => (g.2 a ha).trans (h.2 a ha)⟩

theorem mono (h : ClockOnly s t l) (sub : l ⊆ m) : ClockOnly s t m := ⟨h.1, KeepsRegs.mono h.2 sub⟩

end ClockOnly

/-! ### The PLL's state (R34) -/

/-- Of CLK_MEDIA_STAT only the fields in `[lo, lo + w)` differ. -/
def KeepsMedia (s t : State) (lo w : Nat) : Prop :=
  ∀ i n, i + n ≤ lo ∨ lo + w ≤ i → t.fld Reg.CLK_MEDIA_STAT i n = s.fld Reg.CLK_MEDIA_STAT i n

theorem KeepsMedia.source {s t : State} {lo w : Nat} (h : KeepsMedia s t lo w) (apart : 6 ≤ lo ∨ lo + w ≤ 4) : t.source = s.source := by
  rw [State.source, h 4 2 (by omega), State.source]

theorem KeepsMedia.bit {s t : State} {lo w : Nat} (h : KeepsMedia s t lo w) {i : Nat} (apart : i + 1 ≤ lo ∨ lo + w ≤ i) :
    t.bit Reg.CLK_MEDIA_STAT i = s.bit Reg.CLK_MEDIA_STAT i := by
  have := h i 1 apart
  unfold State.fld at this
  rw [State.bit, this, State.bit]

theorem keepsMedia_of_reg {s t : State} (h : t.reg Reg.CLK_MEDIA_STAT = s.reg Reg.CLK_MEDIA_STAT) (lo w : Nat) : KeepsMedia s t lo w :=
  fun i n _ => State.fld_of_reg h i n

theorem mediaStat_notMem_raise : Reg.CLK_MEDIA_STAT ∉ raiseRegs Page.clk := by decide

/-- A new state is shown, reported, and counted when it is HOLDOVER. -/
def State.pllChanged (s : State) (v : Nat) : State :=
  if v = 3 then ((s.setFld Reg.CLK_MEDIA_STAT 1 3 v).raise Page.clk 0).bump Reg.CLK_FALLBACK_CNT
  else (s.setFld Reg.CLK_MEDIA_STAT 1 3 v).raise Page.clk 0

theorem State.setPll_eq (s : State) (v : Nat) : s.setPll v = if s.pll = v then s else s.pllChanged v := rfl

theorem State.pllChanged_reg (s : State) (v : Nat) {a : Nat} (h : a ≠ Reg.CLK_FALLBACK_CNT) :
    (s.pllChanged v).reg a = ((s.setFld Reg.CLK_MEDIA_STAT 1 3 v).raise Page.clk 0).reg a := by
  unfold State.pllChanged
  split
  · exact State.reg_bump_other _ h
  · rfl

theorem State.pllChanged_reports (s : State) (v : Nat) : OnlyReports s (s.pllChanged v) clockRegs := by
  have shown := (onlyReports_setReg s Reg.CLK_MEDIA_STAT _).trans (onlyReports_raise (s.setFld Reg.CLK_MEDIA_STAT 1 3 v) Page.clk 0)
  unfold State.pllChanged
  split
  · exact (shown.trans (onlyReports_bump _ Reg.CLK_FALLBACK_CNT)).mono (by decide)
  · exact shown.mono (by decide)

theorem State.setPll_reports (s : State) (v : Nat) : OnlyReports s (s.setPll v) clockRegs := by
  rw [State.setPll_eq]
  split
  · exact OnlyReports.refl s _
  · exact s.pllChanged_reports v

theorem State.pllChanged_media (s : State) (v : Nat) (i n : Nat) :
    (s.pllChanged v).fld Reg.CLK_MEDIA_STAT i n = (s.setFld Reg.CLK_MEDIA_STAT 1 3 v).fld Reg.CLK_MEDIA_STAT i n := by
  rw [State.fld_of_reg (s.pllChanged_reg v (by decide)), (onlyReports_raise ..).fld mediaStat_notMem_raise]

theorem State.pll_setPll (s : State) {v : Nat} (h : v < 8) : (s.setPll v).pll = v := by
  rw [State.setPll_eq]
  split
  · assumption
  · rw [State.pll, State.pllChanged_media, State.fld_setFld_same _ _ _ (by decide)]
    exact Nat.mod_eq_of_lt h

theorem State.setPll_media (s : State) (v : Nat) : KeepsMedia s (s.setPll v) 1 3 := by
  intro i n apart
  rw [State.setPll_eq]
  split
  · rfl
  · rw [State.pllChanged_media, State.fld_setFld_apart _ _ _ apart]

/-- A change of state raises MEDIA_CLOCK_STATE. -/
theorem State.setPll_irq {s : State} {v : Nat} (h : s.pll ≠ v) : (s.setPll v).bit (Reg.PAGE_IRQ_STAT Page.clk) 0 = true := by
  rw [State.setPll_eq, if_neg h, State.bit_of_reg (s.pllChanged_reg v (by decide)), State.bit_raise_same _ _ (by decide)]

/-- Interrupt bits that are set stay set. -/
theorem State.setPll_keeps_irq {s : State} (h : s.bit (Reg.PAGE_IRQ_STAT Page.clk) 0 = true) (v : Nat) :
    (s.setPll v).bit (Reg.PAGE_IRQ_STAT Page.clk) 0 = true := by
  by_cases same : s.pll = v
  · rw [State.setPll_eq, if_pos same, h]
  · exact State.setPll_irq same

theorem State.setPll_holdover {s : State} (h : s.pll ≠ 3) : Counted s (s.setPll 3) Reg.CLK_FALLBACK_CNT := by
  rw [State.setPll_eq, if_neg h, State.pllChanged, if_pos rfl]
  refine (counted_bump _ _).of_reg_eq ?_
  rw [State.reg_raise _ (by decide), State.reg_setFld_other _ _ _ _ (by decide)]

/-! ### The offset (R24) -/

/-- An offset inside the slew window is shown as it is. -/
theorem State.setOffset_near {s : State} {ns : Int} (near : ns.natAbs ≤ 2 ^ 31 - 1) :
    s.setOffset ns = (s.setReg Reg.CLK_OFFSET (BitVec.ofInt 32 ns)).setBit Reg.CLK_MEDIA_STAT 8 false := by
  have inside : ¬ (offsetMax < ns ∨ ns < -offsetMax) := by unfold offsetMax; omega
  have value : max (-offsetMax) (min offsetMax ns) = ns := by unfold offsetMax; omega
  unfold State.setOffset
  simp only [inside, decide_false, Bool.and_false, Bool.false_eq_true, false_and, if_false, value]

theorem State.offset_read {s : State} {ns : Int} (near : ns.natAbs ≤ 2 ^ 31 - 1) : ((s.setOffset ns).reg Reg.CLK_OFFSET).toInt = ns := by
  rw [State.setOffset_near near, State.reg_setBit_other _ _ _ (by decide), State.reg_setReg_same, BitVec.toInt_ofInt, Int.bmod_eq_of_le (by omega) (by omega)]

theorem State.setOffset_media {s : State} {ns : Int} (near : ns.natAbs ≤ 2 ^ 31 - 1) : KeepsMedia s (s.setOffset ns) 8 1 := by
  intro i n apart
  rw [State.setOffset_near near, State.setBit, State.fld_setFld_apart _ _ _ apart, State.fld_setReg_other _ _ _ _ (by decide)]

theorem State.setOffset_regs {s : State} {ns : Int} (near : ns.natAbs ≤ 2 ^ 31 - 1) : OnlyRegs s (s.setOffset ns) [Reg.CLK_MEDIA_STAT, Reg.CLK_OFFSET] := by
  rw [State.setOffset_near near]
  exact (onlyRegs_setReg s Reg.CLK_OFFSET _).trans (onlyRegs_setReg _ Reg.CLK_MEDIA_STAT _)

/-! ### Qualification and loss (R30, R31) -/

theorem sourceQualified_completes (s : State) (x : ClockSource) : Completes (.sourceQualified x) s (fun t =>
    t.qualified x = true ∧ (∀ y, y ≠ x → t.qualified y = s.qualified y) ∧
    t = { s with clk := { s.clk with gptpQualified := t.clk.gptpQualified, wclkQualified := t.clk.wclkQualified } }) := by
  refine ⟨_, rfl, ?_⟩
  cases x with
  | gptp => exact ⟨rfl, fun | .gptp, h => absurd rfl h | .wclk, _ => rfl | .crystal, _ => rfl, rfl⟩
  | wclk => exact ⟨rfl, fun | .gptp, _ => rfl | .wclk, h => absurd rfl h | .crystal, _ => rfl, rfl⟩
  | crystal => exact ⟨rfl, fun _ _ => rfl, rfl⟩

/-- The source `x` no longer counts as qualified. -/
def State.unqualified (s : State) (x : ClockSource) : State :=
  match x with
  | .gptp => { s with clk := { s.clk with gptpQualified := false } }
  | .wclk => { s with clk := { s.clk with wclkQualified := false } }
  | .crystal => s

theorem State.unqualified_eq (s : State) (x : ClockSource) : s.unqualified x = { s with clk := (s.unqualified x).clk } := by
  cases x <;> rfl

theorem State.nextSource_unqualified (s : State) (x : ClockSource) : (s.unqualified x).clk.nextSource = s.clk.nextSource := by
  cases x <;> rfl

theorem State.qualified_unqualified (s : State) {x : ClockSource} (h : x ≠ .crystal) : (s.unqualified x).qualified x = false := by
  cases x with
  | gptp => rfl
  | wclk => rfl
  | crystal => contradiction

/-- What is qualified follows the clock's two flags. -/
theorem State.qualified_congr {s t : State} (g : t.clk.gptpQualified = s.clk.gptpQualified) (w : t.clk.wclkQualified = s.clk.wclkQualified) :
    t.qualified = s.qualified := by
  funext y
  cases y with
  | gptp => exact g
  | wclk => exact w
  | crystal => rfl

theorem State.firstSource_congr {s t : State} (q : t.qualified = s.qualified) (r : t.reg Reg.CLK_SRC_ORDER = s.reg Reg.CLK_SRC_ORDER) :
    t.firstSource = s.firstSource := by
  rw [State.firstSource, q, State.sourceOrder, State.fld_of_reg r, State.fld_of_reg r, State.firstSource, State.sourceOrder]

theorem sourceLost_nothing {s : State} {x : ClockSource} (h : s.qualified x = false ∨ x = .crystal) (avg : Word) :
    Completes (.sourceLost x avg) s (fun t => t = s) := by
  refine ⟨s, ?_, rfl⟩
  change execSourceLost x avg s = _
  unfold execSourceLost State.loseSource
  rcases h with h | h
  · rw [h]; rfl
  · subst h; exact ite_self _

/-- A source that is lost while it waits for the block boundary is not selected there. -/
theorem sourceLost_other {s : State} {x : ClockSource} (on : s.qualified x = true) (hx : x ≠ .crystal) (other : x ≠ s.source) (avg : Word) :
    Completes (.sourceLost x avg) s (fun t => t.qualified x = false ∧ t.source = s.source ∧ t.pll = s.pll ∧
      t.clk.nextSource = (if s.clk.nextSource = some x then none else s.clk.nextSource) ∧ ClockOnly s t []) := by
  have run : exec (.sourceLost x avg) s = .next (if (s.unqualified x).clk.nextSource = some x then
      { s.unqualified x with clk := { (s.unqualified x).clk with nextSource := none } } else s.unqualified x) :=
    (if_pos on).trans (congrArg Host.Outcome.next ((if_neg hx).trans (if_pos (Ne.symm other))))
  refine ⟨_, run, ?_⟩
  have off := s.qualified_unqualified hx
  have waits := s.nextSource_unqualified x
  have frame := s.unqualified_eq x
  generalize s.unqualified x = u at *
  rw [← waits]
  split
  · refine ⟨?_, by rw [frame]; rfl, by rw [frame]; rfl, rfl, by rw [frame], fun a _ => by rw [frame]; rfl⟩
    rw [← off]
    exact congrFun (State.qualified_congr (s := u) rfl rfl) x
  · exact ⟨off, by rw [frame]; rfl, by rw [frame]; rfl, rfl, by rw [frame], fun a _ => by rw [frame]; rfl⟩

/-- The selected source is lost: the error is logged, and the PLL holds the averaged correction. -/
def State.heldOver (s : State) (x : ClockSource) (avg : Word) : State := ((s.logError 0x0203 0 (codeOfSource x) false).setPll 3).setAdj avg

theorem State.heldOver_reports (s : State) (x : ClockSource) (avg : Word) : OnlyReports s (s.heldOver x avg) (clockRegs ++ logRegs) :=
  (((onlyReports_logError s 0x0203 0 (codeOfSource x) false).trans (State.setPll_reports _ 3)).trans (onlyReports_setReg _ Reg.CLK_FREQ_ADJ avg)).mono
    (by intro a ha; simp only [clockRegs, List.mem_append, List.mem_cons, List.not_mem_nil, or_false] at ha ⊢; tauto)

theorem State.heldOver_keeps (s : State) (x : ClockSource) (avg : Word) {a : Nat} (h : a ≠ Reg.CLK_FREQ_ADJ) :
    (s.heldOver x avg).reg a = ((s.logError 0x0203 0 (codeOfSource x) false).setPll 3).reg a := State.reg_setReg_other _ _ h

theorem State.heldOver_shows {s : State} (locked : s.pll = 2) (x : ClockSource) (avg : Word) :
    (s.heldOver x avg).pll = 3 ∧ (s.heldOver x avg).reg Reg.CLK_FREQ_ADJ = avg ∧ Counted s (s.heldOver x avg) Reg.CLK_FALLBACK_CNT ∧
    Counted s (s.heldOver x avg) Reg.ERR_LOG_CNT ∧ (s.heldOver x avg).bit (Reg.PAGE_IRQ_STAT Page.clk) 0 = true ∧
    KeepsMedia s (s.heldOver x avg) 1 3 := by
  have left : (s.logError 0x0203 0 (codeOfSource x) false).pll ≠ 3 := by
    rw [State.pll, (onlyReports_logError ..).fld (by decide), ← State.pll, locked]
    decide
  refine ⟨?_, State.reg_setReg_same .., ?_, ?_, ?_, fun i n apart => ?_⟩
  · rw [State.pll, State.fld_of_reg (s.heldOver_keeps x avg (by decide))]
    exact State.pll_setPll _ (by decide)
  · exact ((State.setPll_holdover left).of_reg_eq (State.reg_logError _ (by decide) ..)).of_reg_eq_after (s.heldOver_keeps x avg (by decide))
  · exact ((counted_logError ..).of_reg_eq_after ((State.setPll_reports _ 3).reg (by decide))).of_reg_eq_after (s.heldOver_keeps x avg (by decide))
  · rw [State.bit_of_reg (s.heldOver_keeps x avg (by decide)), State.setPll_irq left]
  · rw [State.fld_of_reg (s.heldOver_keeps x avg (by decide)), State.setPll_media _ 3 i n apart, (onlyReports_logError ..).fld (by decide)]

/-- As `x` is lost, with the correction to hold. -/
def State.losing (s : State) (x : ClockSource) (avg : Word) : State :=
  { s.unqualified x with clk := { (s.unqualified x).clk with heldAdj := avg } }

theorem State.losing_eq (s : State) (x : ClockSource) (avg : Word) : s.losing x avg = { s with clk := (s.losing x avg).clk } := by
  unfold State.losing
  rw [s.unqualified_eq x]

theorem sourceLost_selected {s : State} {x : ClockSource} (on : s.qualified x = true) (hx : x ≠ .crystal) (selected : x = s.source)
    (locked : s.pll = 2) (avg : Word) :
    Completes (.sourceLost x avg) s (fun t => t.qualified x = false ∧ t.pll = 3 ∧ t.reg Reg.CLK_FREQ_ADJ = avg ∧ t.clk.heldAdj = avg ∧
      t.clk.nextSource = (if (s.unqualified x).firstSource = s.source then none else some (s.unqualified x).firstSource) ∧
      Counted s t Reg.CLK_FALLBACK_CNT ∧ Counted s t Reg.ERR_LOG_CNT ∧ t.bit (Reg.PAGE_IRQ_STAT Page.clk) 0 = true ∧
      ClockOnly s t (clockRegs ++ logRegs)) := by
  have run : exec (.sourceLost x avg) s = .next (((s.losing x avg).heldOver x avg).selectNext ((s.losing x avg).heldOver x avg).firstSource) := by
    have lose : s.loseSource x avg false = ((s.losing x avg).heldOver x avg).selectNext ((s.losing x avg).heldOver x avg).firstSource := by
      unfold State.loseSource
      rw [if_neg hx, if_neg (by rw [selected]; exact not_not_intro rfl)]
      simp only [locked, or_true, if_true]
      rfl
    exact (if_pos on).trans (congrArg Host.Outcome.next lose)
  have shows := State.heldOver_shows (s := s.losing x avg) (by rw [s.losing_eq]; exact locked) x avg
  have reports := (s.losing x avg).heldOver_reports x avg
  have first : ((s.losing x avg).heldOver x avg).firstSource = (s.unqualified x).firstSource :=
    (State.firstSource_congr (State.qualified_congr (congrArg Clock.gptpQualified reports.clk) (congrArg Clock.wclkQualified reports.clk))
      (reports.reg (by decide))).trans (State.firstSource_congr (State.qualified_congr rfl rfl) rfl)
  have off : (s.losing x avg).qualified x = false := by
    rw [← s.qualified_unqualified hx]
    exact congrFun (State.qualified_congr rfl rfl) x
  have held : (s.losing x avg).clk.heldAdj = avg := rfl
  have base := s.losing_eq x avg
  refine ⟨_, run, ?_⟩
  rw [first]
  generalize s.losing x avg = b at *
  generalize b.heldOver x avg = t at *
  obtain ⟨holdover, adj, fallbacks, logged, irq, media⟩ := shows
  have regs : ∀ a, b.reg a = s.reg a := fun a => by rw [base]; rfl
  have source : t.source = s.source := (media.source (by decide)).trans (by rw [base]; rfl)
  refine ⟨?_, holdover, adj, (congrArg Clock.heldAdj reports.clk).trans held, ?_, fallbacks.of_reg_eq (regs _), logged.of_reg_eq (regs _), irq, ?_⟩
  · rw [← off]
    exact congrFun (State.qualified_congr (congrArg Clock.gptpQualified reports.clk) (congrArg Clock.wclkQualified reports.clk)) x
  · rw [← source]; rfl
  · have start : ClockOnly s b (clockRegs ++ logRegs) := ⟨base.trans (by rw [base]), fun a _ => regs a⟩
    exact (start.trans (ClockOnly.of_reports reports)).trans (ClockOnly.setClk t _ _)

/-! ### Promotion, lock and change (R24, R31, R32) -/

theorem sourcePromotion_completes (s : State) (x : ClockSource) : Completes (.sourcePromotion x) s (fun t => t = { s with clk := { s.clk with
    nextSource := if s.qualified x ∧ x ∈ s.sourceOrder.takeWhile (fun y => decide (y ≠ s.source)) then (if x = s.source then none else some x)
      else s.clk.nextSource } }) := by
  by_cases above : s.qualified x ∧ x ∈ s.sourceOrder.takeWhile (fun y => decide (y ≠ s.source))
  · exact ⟨_, if_pos ⟨above.1, List.contains_iff_mem.2 above.2⟩, by rw [if_pos above]; rfl⟩
  · exact ⟨_, if_neg (fun h => above ⟨h.1, List.contains_iff_mem.1 h.2⟩), by rw [if_neg above]⟩

/-- When the PLL locks. -/
def State.locks (s : State) (ns : Int) : Prop :=
  s.pll = 1 ∧ s.clk.famRelock = false ∧ s.source ≠ .crystal ∧ s.bit Reg.CLK_MEDIA_STAT 8 = false ∧ ns.natAbs ≤ max 1 (s.fld Reg.CLK_LOCK_THR 0 16)

theorem mediaPllLocked_nothing {s : State} {ns : Int} (h : ¬ s.locks ns) (adj : Word) : Completes (.mediaPllLocked ns adj) s (fun t => t = s) := by
  refine ⟨s, if_pos ?_, rfl⟩
  contrapose! h
  exact ⟨h.1, Bool.eq_false_iff.2 h.2.1, h.2.2.1, Bool.eq_false_iff.2 h.2.2.2.1, h.2.2.2.2⟩

/-- The PLL has locked with the offset `ns` and the correction `adj`. -/
def State.lockedAt (s : State) (ns : Int) (adj : Word) : State := ((s.setOffset ns).setAdj adj).setPll 2

theorem State.lockedAt_shows {s : State} {ns : Int} (near : ns.natAbs ≤ 2 ^ 31 - 1) (acquires : s.pll = 1) (adj : Word) :
    (s.lockedAt ns adj).pll = 2 ∧ (s.lockedAt ns adj).reg Reg.CLK_FREQ_ADJ = adj ∧ ((s.lockedAt ns adj).reg Reg.CLK_OFFSET).toInt = ns ∧
    (s.lockedAt ns adj).bit (Reg.PAGE_IRQ_STAT Page.clk) 0 = true ∧ OnlyReports s (s.lockedAt ns adj) clockRegs := by
  have before : ((s.setOffset ns).setAdj adj).pll ≠ 2 := by
    rw [State.pll, State.setAdj, State.fld_setReg_other _ _ _ _ (by decide), State.setOffset_media near 1 3 (by decide), ← State.pll, acquires]
    decide
  have after : ∀ {a}, a ∉ [Reg.CLK_MEDIA_STAT, Reg.CLK_FALLBACK_CNT] ++ raiseRegs Page.clk →
      (s.lockedAt ns adj).reg a = ((s.setOffset ns).setAdj adj).reg a := by
    intro a ha
    rw [List.mem_append, List.mem_cons, List.mem_singleton, not_or, not_or] at ha
    rw [State.lockedAt, State.setPll_eq, if_neg before, State.pllChanged_reg _ _ ha.1.2, State.reg_raise _ ha.2, State.reg_setFld_other _ _ _ _ ha.1.1]
  refine ⟨State.pll_setPll _ (by decide), ?_, ?_, State.setPll_irq before, ?_⟩
  · rw [after (by decide), State.setAdj, State.reg_setReg_same]
  · rw [after (by decide), State.setAdj, State.reg_setReg_other _ _ (by decide), State.offset_read near]
  · exact (((State.setOffset_regs near).onlyReports.trans (onlyReports_setReg _ Reg.CLK_FREQ_ADJ adj)).trans (State.setPll_reports _ 2)).mono (by decide)

theorem State.fld_lt (s : State) (a lo w : Nat) : s.fld a lo w < 2 ^ w := by
  unfold State.fld fieldOf
  exact Nat.mod_lt _ (Nat.two_pow_pos w)

theorem mediaPllLocked_locks {s : State} {ns : Int} (h : s.locks ns) (adj : Word) :
    Completes (.mediaPllLocked ns adj) s (fun t => t.pll = 2 ∧ t.reg Reg.CLK_FREQ_ADJ = adj ∧ (t.reg Reg.CLK_OFFSET).toInt = ns ∧
      t.bit (Reg.PAGE_IRQ_STAT Page.clk) 0 = true ∧ t.clk = { s.clk with lockedSinceRun := true } ∧ ClockOnly s t clockRegs) := by
  obtain ⟨acquires, unchanged, outer, close, small⟩ := h
  have near : ns.natAbs ≤ 2 ^ 31 - 1 := by
    have := s.fld_lt Reg.CLK_LOCK_THR 0 16
    omega
  obtain ⟨locked, adjusted, offset, irq, reports⟩ := State.lockedAt_shows near acquires adj
  have run : exec (.mediaPllLocked ns adj) s =
      .next { s.lockedAt ns adj with clk := { (s.lockedAt ns adj).clk with lockedSinceRun := true } } := by
    refine if_neg ?_
    rintro (h | h | h | h | h)
    · exact h acquires
    · exact Bool.false_ne_true (unchanged.symm.trans h)
    · exact outer h
    · exact Bool.false_ne_true (close.symm.trans h)
    · exact absurd h (Nat.not_lt.2 small)
  refine ⟨_, run, ?_⟩
  generalize s.lockedAt ns adj = t at *
  exact ⟨locked, adjusted, offset, irq, by rw [← reports.clk], (ClockOnly.of_reports reports).trans (ClockOnly.setClk t _ _)⟩

theorem sourceChange_waits {s : State} (h : s.clk.nextSource = none ∨ (s.running = true ∧ s.offset ≠ 0)) (ns : Int) (avg : Word) :
    Completes (.sourceChange ns avg) s (fun t => t = s) := by
  refine ⟨s, ?_, rfl⟩
  change execSourceChange ns avg s = _
  unfold execSourceChange
  rcases h with none | busy
  · rw [none]
  · split
    · rfl
    · exact if_pos busy

/-- The source `y` is shown as selected. -/
def State.showSource (s : State) (y : ClockSource) : State := (s.setFld Reg.CLK_MEDIA_STAT 4 2 (codeOfSource y)).raise Page.clk 0

theorem State.showSource_reports (s : State) (y : ClockSource) : OnlyReports s (s.showSource y) clockRegs :=
  ((onlyReports_setReg s Reg.CLK_MEDIA_STAT _).trans (onlyReports_raise (s.setFld Reg.CLK_MEDIA_STAT 4 2 (codeOfSource y)) Page.clk 0)).mono
    (by decide)

theorem State.showSource_fld (s : State) (y : ClockSource) (lo w : Nat) :
    (s.showSource y).fld Reg.CLK_MEDIA_STAT lo w = (s.setFld Reg.CLK_MEDIA_STAT 4 2 (codeOfSource y)).fld Reg.CLK_MEDIA_STAT lo w :=
  (onlyReports_raise ..).fld mediaStat_notMem_raise lo w

theorem State.showSource_media (s : State) (y : ClockSource) : KeepsMedia s (s.showSource y) 4 2 :=
  fun i n apart => (s.showSource_fld y i n).trans (State.fld_setFld_apart _ _ _ apart)

theorem State.source_showSource (s : State) (y : ClockSource) : (s.showSource y).source = y := by
  rw [State.source, State.showSource_fld, State.fld_setFld_same _ _ _ (by decide)]
  cases y <;> rfl

/-- The PLL starts on a source it shows, unless it is stopped. -/
def State.servoOn (s : State) : State := if s.pll = 0 then s else s.setPll 1

theorem State.servoOn_shows (s : State) : s.servoOn.pll = (if s.pll = 0 then 0 else 1) ∧ KeepsMedia s s.servoOn 1 3 ∧
    OnlyReports s s.servoOn clockRegs ∧ s.servoOn.reg Reg.CLK_OFFSET = s.reg Reg.CLK_OFFSET ∧
    (s.bit (Reg.PAGE_IRQ_STAT Page.clk) 0 = true → s.servoOn.bit (Reg.PAGE_IRQ_STAT Page.clk) 0 = true) := by
  unfold State.servoOn
  split
  case isTrue stopped => exact ⟨stopped, fun _ _ _ => rfl, OnlyReports.refl s _, rfl, id⟩
  case isFalse =>
    refine ⟨State.pll_setPll s (by decide), State.setPll_media s 1, State.setPll_reports s 1, ?_, fun h => State.setPll_keeps_irq h 1⟩
    rw [State.setPll_eq]
    split
    · rfl
    · rw [State.pllChanged_reg _ _ (by decide), State.reg_raise _ (by decide), State.reg_setFld_other _ _ _ _ (by decide)]

theorem State.acquire_outer {s : State} (h : s.source ≠ .crystal) : s.acquire = s.setPll 1 := by
  unfold State.acquire
  rw [if_pos h, ite_self]

/-- The change to `y` with the offset `ns`. -/
def State.changed (s : State) (y : ClockSource) (ns : Int) : State := ((s.showSource y).setOffset ns).servoOn

theorem State.changed_shows (s : State) (y : ClockSource) {ns : Int} (near : ns.natAbs ≤ 2 ^ 31 - 1) :
    (s.changed y ns).source = y ∧ ((s.changed y ns).reg Reg.CLK_OFFSET).toInt = ns ∧ (s.changed y ns).pll = (if s.pll = 0 then 0 else 1) ∧
    (s.changed y ns).bit (Reg.PAGE_IRQ_STAT Page.clk) 0 = true ∧ OnlyReports s (s.changed y ns) clockRegs := by
  obtain ⟨pll, media, reports, offset, irq⟩ := ((s.showSource y).setOffset ns).servoOn_shows
  have slewed := State.setOffset_media (s := s.showSource y) near
  have written := State.setOffset_regs (s := s.showSource y) near
  refine ⟨?_, ?_, ?_, irq ?_, ?_⟩
  · exact (media.source (by decide)).trans ((slewed.source (by decide)).trans (s.source_showSource y))
  · exact (congrArg BitVec.toInt offset).trans (State.offset_read near)
  · refine pll.trans ?_
    rw [State.pll, slewed 1 3 (by decide), s.showSource_media y 1 3 (by decide), ← State.pll]
  · rw [written.onlyReports.bit (by decide)]
    exact State.bit_raise_same _ _ (by decide)
  · exact (((s.showSource_reports y).trans written.onlyReports).trans reports).mono (by decide)

/-- No source waits any more, and the correction of an interval that was LOCKED is held. -/
def State.changing (s : State) (avg : Word) : State :=
  { s with clk := { s.clk with nextSource := none, heldAdj := if s.pll = 2 then avg else s.clk.heldAdj } }

theorem sourceChange_changes {s : State} {y : ClockSource} {ns : Int} (waits : s.clk.nextSource = some y)
    (boundary : s.running = false ∨ s.offset = 0) (outer : y ≠ .crystal) (near : ns.natAbs ≤ 2 ^ 31 - 1) (avg : Word) :
    Completes (.sourceChange ns avg) s (fun t => t.source = y ∧ (t.reg Reg.CLK_OFFSET).toInt = ns ∧ t.pll = (if s.pll = 0 then 0 else 1) ∧
      t.bit (Reg.PAGE_IRQ_STAT Page.clk) 0 = true ∧
      t.clk = { s.clk with nextSource := none, heldAdj := if s.pll = 2 then avg else s.clk.heldAdj } ∧ ClockOnly s t clockRegs) := by
  have selected : (((s.changing avg).showSource y).setOffset ns).source ≠ .crystal := by
    rw [(State.setOffset_media near).source (by decide), State.source_showSource]
    exact outer
  have run : exec (.sourceChange ns avg) s = .next ((s.changing avg).changed y ns) := by
    change execSourceChange ns avg s = _
    unfold execSourceChange
    rw [waits]
    simp only [if_neg outer]
    refine (if_neg (fun h => boundary.elim (fun stopped => ?_) h.2)).trans (congrArg Host.Outcome.next ?_)
    · rw [stopped] at h
      exact Bool.false_ne_true h.1
    · rw [State.changed, State.servoOn, ← State.acquire_outer selected]
      rfl
  obtain ⟨source, offset, pll, irq, reports⟩ := (s.changing avg).changed_shows y near
  exact ⟨_, run, source, offset, pll, irq, reports.clk, (ClockOnly.setClk s _ _).trans (ClockOnly.of_reports reports)⟩

/-- Settles O45: qualification sets a flag, a loss holds the correction over, and a source that is promoted waits for the block boundary. -/
theorem clockSources : Obligations.ClockSources := by
  unfold Obligations.ClockSources
  exact fun s x avg adj ns => ⟨sourceQualified_completes s x, fun h => sourceLost_nothing h avg,
    fun on hx => ⟨fun other => sourceLost_other on hx other avg, fun selected locked => sourceLost_selected on hx selected locked avg⟩,
    sourcePromotion_completes s x, ⟨fun h => mediaPllLocked_nothing h adj, fun h => mediaPllLocked_locks h adj⟩,
    fun h => sourceChange_waits h ns avg, fun y waits boundary outer near => sourceChange_changes waits boundary outer near avg⟩

end Sys2Proof.Machine
end

section
/-! PROOFS. O46: media time, its writes, its start and its stop. -/

namespace Sys2Proof.Machine

/-! ### Folds over queues -/

/-- Queues that are treated one after another, each by itself. -/
structure EachQueue (g : State → Nat → State) (f : Queue → Queue) : Prop where
  rest : ∀ u q, g u q = { u with queues := (g u q).queues }
  same : ∀ u q, (g u q).queue q = f (u.queue q)
  other : ∀ u q p, p ≠ q → (g u q).queue p = u.queue p

namespace EachQueue

variable {g : State → Nat → State} {f : Queue → Queue}

theorem foldl_rest (h : EachQueue g f) (l : List Nat) (s : State) : l.foldl g s = { s with queues := (l.foldl g s).queues } := by
  induction l generalizing s with
  | nil => rfl
  | cons q l ih => rw [List.foldl_cons, ih, h.rest]

theorem foldl_other (h : EachQueue g f) (l : List Nat) {p : Nat} (hp : p ∉ l) (s : State) : (l.foldl g s).queue p = s.queue p := by
  induction l generalizing s with
  | nil => rfl
  | cons q l ih =>
    rw [List.mem_cons, not_or] at hp
    rw [List.foldl_cons, ih hp.2, h.other _ _ _ hp.1]

theorem foldl_mem (h : EachQueue g f) {l : List Nat} (nodup : l.Nodup) (s : State) : ∀ p ∈ l, (l.foldl g s).queue p = f (s.queue p) := by
  induction l generalizing s with
  | nil => simp
  | cons q l ih =>
    rw [List.nodup_cons] at nodup
    refine List.forall_mem_cons.2 ⟨?_, fun p hp => ?_⟩
    · rw [List.foldl_cons, h.foldl_other l nodup.1, h.same]
    · rw [List.foldl_cons, ih nodup.2 _ p hp, h.other _ _ _ (fun e => nodup.1 (by rwa [← e]))]

end EachQueue

/-- Every queue that meets a condition is replaced. -/
theorem eachQueue_ite (c : Queue → Bool) (f : Queue → Queue) :
    EachQueue (fun u q => if c (u.queue q) then u.setQueue q (f (u.queue q)) else u) (fun x => if c x then f x else x) where
  rest u q := by
    split
    · rfl
    · rfl
  same u q := by
    split
    · exact State.queue_setQueue_same ..
    · rfl
  other u q p h := by
    split
    · exact State.queue_setQueue_other _ _ h
    · rfl

/-! ### CLK_MEDIA_CTRL (R22, R28, R29) -/

/-- The counter as a write with MT_LOAD leaves it. -/
def State.afterLoad (s : State) (w : Word) : State :=
  if fieldOf w 1 1 = 1 ∧ s.source ≠ .gptp then { s with clk := { s.clk with mt := s.loadValue } } else s

section Ctrl

variable {s : State} {path : Path} {v w : Word} {r : RegRow}

theorem State.was_run (s : State) : decide (fieldOf (s.reg Reg.CLK_MEDIA_CTRL) 0 1 = 1) = s.run := rfl

theorem actMediaCtrl_stopped (off : s.run = false) (clear : fieldOf w 0 1 = 0) (still : s.running = false) :
    actMediaCtrl s r (s.reg Reg.CLK_MEDIA_CTRL) w = { s.afterLoad w with clk := { (s.afterLoad w).clk with rerun := false } } := by
  unfold actMediaCtrl State.afterLoad
  rw [State.was_run, off, clear, still]
  simp

theorem actMediaCtrl_running (off : s.run = false) (clear : fieldOf w 0 1 = 0) (runs : s.running = true) :
    actMediaCtrl s r (s.reg Reg.CLK_MEDIA_CTRL) w = { s with clk := { s.clk with rerun := false } } := by
  unfold actMediaCtrl
  rw [State.was_run, off, clear, runs]
  simp

theorem actMediaCtrl_start (off : s.run = false) (set : fieldOf w 0 1 = 1) (still : s.running = false) :
    actMediaCtrl s r (s.reg Reg.CLK_MEDIA_CTRL) w = (s.afterLoad w).requestRun := by
  unfold actMediaCtrl State.afterLoad
  rw [State.was_run, off, set, still]
  simp

theorem actMediaCtrl_restart (off : s.run = false) (set : fieldOf w 0 1 = 1) (runs : s.running = true) :
    actMediaCtrl s r (s.reg Reg.CLK_MEDIA_CTRL) w = { s with clk := { s.clk with rerun := true } } := by
  unfold actMediaCtrl
  rw [State.was_run, off, set, runs]
  simp

theorem actMediaCtrl_on (on : s.run = true) (set : fieldOf w 0 1 = 1) : actMediaCtrl s r (s.reg Reg.CLK_MEDIA_CTRL) w = s := by
  unfold actMediaCtrl
  rw [State.was_run, on, set]
  simp

theorem actMediaCtrl_stop (on : s.run = true) (clear : fieldOf w 0 1 = 0) : actMediaCtrl s r (s.reg Reg.CLK_MEDIA_CTRL) w = s.requestStop := by
  unfold actMediaCtrl
  rw [State.was_run, on, clear]
  simp

theorem exec_mtLoad (opens : s.writable Reg.CLK_MEDIA_CTRL = true) : exec (.mtLoad path v) s =
    .next (actMediaCtrl s (rowAt Reg.CLK_MEDIA_CTRL) (s.reg Reg.CLK_MEDIA_CTRL) (setFieldOf v 1 1 1)) := by
  change execMtLoad path v s = _
  rw [execMtLoad, State.hostWrite_of_writable opens]

theorem exec_mediaStop (opens : s.writable Reg.CLK_MEDIA_CTRL = true) : exec (.mediaStop path v) s =
    .next (actMediaCtrl s (rowAt Reg.CLK_MEDIA_CTRL) (s.reg Reg.CLK_MEDIA_CTRL) (setFieldOf v 0 1 0)) := by
  change execMediaStop path v s = _
  rw [execMediaStop, State.hostWrite_of_writable opens]

theorem exec_mediaRun (opens : s.writable Reg.CLK_MEDIA_CTRL = true) : exec (.mediaRun path v) s =
    .next (actMediaCtrl s (rowAt Reg.CLK_MEDIA_CTRL) (s.reg Reg.CLK_MEDIA_CTRL) (setFieldOf v 0 1 1)) := by
  change execMediaRun path v s = _
  rw [execMediaRun, State.hostWrite_of_writable opens]

theorem State.afterLoad_eq (s : State) (w : Word) :
    s.afterLoad w = { s with clk := { s.clk with mt := if fieldOf w 1 1 = 1 ∧ s.source ≠ .gptp then s.loadValue else s.clk.mt } } := by
  unfold State.afterLoad
  split
  · rfl
  · rfl

theorem State.atTime_clk (s : State) (m : BitVec 64) :
    { s with clk := { ({ s with clk := { s.clk with mt := m } } : State).clk with rerun := false } } =
      { s with clk := { s.clk with mt := m, rerun := false } } := rfl

theorem mtLoad_loads (opens : s.writable Reg.CLK_MEDIA_CTRL = true) (off : s.run = false) (clear : fieldOf v 0 1 = 0)
    (still : s.running = false) (free : s.source ≠ .gptp) :
    Completes (.mtLoad path v) s (fun t => t = { s with clk := { s.clk with mt := s.loadValue, rerun := false } }) := by
  have set : fieldOf (setFieldOf v 1 1 1) 1 1 = 1 := fieldOf_setFieldOf_same v 1 (by decide)
  refine ⟨_, (exec_mtLoad opens).trans (congrArg _ (actMediaCtrl_stopped off ?_ still)), ?_⟩
  · rw [fieldOf_setFieldOf_other _ _ (by decide), clear]
  · have loaded := s.afterLoad_eq (setFieldOf v 1 1 1)
    rw [if_pos ⟨set, free⟩] at loaded
    exact (congrArg (fun u : State => { u with clk := { u.clk with rerun := false } }) loaded).trans (s.atTime_clk s.loadValue)

theorem mtLoad_nothing (opens : s.writable Reg.CLK_MEDIA_CTRL = true) (off : s.run = false) (clear : fieldOf v 0 1 = 0)
    (bars : s.running = true ∨ s.source = .gptp) :
    Completes (.mtLoad path v) s (fun t => t = { s with clk := { s.clk with rerun := false } }) := by
  have kept : fieldOf (setFieldOf v 1 1 1) 0 1 = 0 := (fieldOf_setFieldOf_other _ _ (by decide)).trans clear
  cases runs : s.running with
  | true => exact ⟨_, (exec_mtLoad opens).trans (congrArg _ (actMediaCtrl_running off kept runs)), rfl⟩
  | false =>
    have gptp : s.source = .gptp := bars.resolve_left (by rw [runs]; exact Bool.false_ne_true)
    exact ⟨_, (exec_mtLoad opens).trans (congrArg _ (actMediaCtrl_stopped off kept runs)), by rw [State.afterLoad, if_neg (fun h => h.2 gptp)]⟩

theorem mediaStop_nothing (opens : s.writable Reg.CLK_MEDIA_CTRL = true) (off : s.run = false) (plain : fieldOf v 1 1 = 0) :
    Completes (.mediaStop path v) s (fun t => t = { s with clk := { s.clk with rerun := false } }) := by
  have clear : fieldOf (setFieldOf v 0 1 0) 0 1 = 0 := fieldOf_setFieldOf_same v 0 (by decide)
  have kept : fieldOf (setFieldOf v 0 1 0) 1 1 = 0 := (fieldOf_setFieldOf_other _ _ (by decide)).trans plain
  cases runs : s.running with
  | true => exact ⟨_, (exec_mediaStop opens).trans (congrArg _ (actMediaCtrl_running off clear runs)), rfl⟩
  | false =>
    refine ⟨_, (exec_mediaStop opens).trans (congrArg _ (actMediaCtrl_stopped off clear runs)), ?_⟩
    rw [State.afterLoad, if_neg (fun h => by rw [kept] at h; exact absurd h.1 (by decide))]

theorem mediaRun_waits (opens : s.writable Reg.CLK_MEDIA_CTRL = true) (off : s.run = false) (runs : s.running = true) :
    Completes (.mediaRun path v) s (fun t => t = { s with clk := { s.clk with rerun := true } }) :=
  ⟨_, (exec_mediaRun opens).trans (congrArg _ (actMediaCtrl_restart off (fieldOf_setFieldOf_same v 1 (by decide)) runs)), rfl⟩

theorem mediaRun_nothing (opens : s.writable Reg.CLK_MEDIA_CTRL = true) (on : s.run = true) : Completes (.mediaRun path v) s (fun t => t = s) :=
  ⟨_, (exec_mediaRun opens).trans (congrArg _ (actMediaCtrl_on on (fieldOf_setFieldOf_same v 1 (by decide)))), rfl⟩

/-! ### The start requested (R29, R31) -/

theorem State.acquire_shows {s : State} (fresh : s.clk.lockedSinceRun = false) :
    s.acquire.pll = (if s.clk.famRelock = true ∨ s.source ≠ .crystal then 1 else 4) ∧ OnlyReports s s.acquire clockRegs := by
  have one : (s.setPll 1).pll = 1 ∧ OnlyReports s (s.setPll 1) clockRegs := ⟨State.pll_setPll s (by decide), State.setPll_reports s 1⟩
  unfold State.acquire
  by_cases relock : s.clk.famRelock = true
  · rw [if_pos relock, if_pos (Or.inl relock)]
    exact one
  · by_cases outer : s.source ≠ .crystal
    · rw [if_neg relock, if_pos outer, if_pos (Or.inr outer)]
      exact one
    · rw [if_neg relock, if_neg outer, if_neg (by rw [fresh]; exact Bool.false_ne_true), if_neg (not_or.2 ⟨relock, outer⟩)]
      refine ⟨?_, (((State.setPll_reports s 4).trans (onlyReports_setReg _ Reg.CLK_FREQ_ADJ 0)).trans
        (onlyReports_setReg _ Reg.CLK_OFFSET 0)).mono (by decide)⟩
      rw [State.pll, State.fld_setReg_other _ _ _ _ (by decide), State.setAdj, State.fld_setReg_other _ _ _ _ (by decide)]
      exact State.pll_setPll s (by decide)

/-- What a start resets of the clock. -/
def State.startClock (s : State) : Clock :=
  { s.clk with
    lockedSinceRun := false, heldAdj := 0, rerun := false
    epochOfs := BitVec.ofNat 64 ((s.reg Reg.CLK_EPOCH_OFS_LO).toNat + (s.reg Reg.CLK_EPOCH_OFS_HI).toNat * 2 ^ 32) }

/-- RUN is set, and the servo is about to start. -/
def State.requested (s : State) : State :=
  (State.setBit { s with clk := s.startClock } Reg.CLK_MEDIA_CTRL 0 true).setBit (Reg.PAGE_STAT Page.clk) 0 false

theorem State.requested_regs (s : State) : OnlyReports { s with clk := s.startClock } s.requested [Reg.CLK_MEDIA_CTRL, Reg.PAGE_STAT Page.clk] :=
  (onlyReports_setBit _ Reg.CLK_MEDIA_CTRL 0 true).trans (onlyReports_setBit _ (Reg.PAGE_STAT Page.clk) 0 false)

theorem State.requestRun_shows (s : State) : s.requestRun.run = true ∧
    s.requestRun.pll = (if s.clk.famRelock = true ∨ s.source ≠ .crystal then 1 else 4) ∧ s.requestRun.clk = s.startClock ∧
    ClockOnly s s.requestRun ([Reg.CLK_MEDIA_CTRL, Reg.PAGE_STAT Page.clk] ++ clockRegs) := by
  have same : s.requestRun = s.requested.acquire := rfl
  have before := s.requested_regs
  obtain ⟨pll, reports⟩ := State.acquire_shows (s := s.requested) rfl
  have source : s.requested.source = s.source := by
    rw [State.source, before.fld (by decide), ← State.source]
    rfl
  have run : s.requested.bit Reg.CLK_MEDIA_CTRL 0 = true :=
    (State.bit_setReg_other _ _ _ (by decide)).trans (State.bit_setBit_same _ _ true (by decide))
  have relock : s.requested.clk.famRelock = s.clk.famRelock := rfl
  rw [source, relock] at pll
  rw [same]
  generalize s.requested = u at *
  exact ⟨(reports.bit (by decide) 0).trans run, pll, reports.clk.trans before.clk,
    (ClockOnly.setClk s s.startClock _).trans (ClockOnly.of_reports (before.trans reports))⟩

theorem mediaRun_starts (opens : s.writable Reg.CLK_MEDIA_CTRL = true) (off : s.run = false) (still : s.running = false) :
    Completes (.mediaRun path v) s (fun t => t.run = true ∧ t.pll = (if s.clk.famRelock = true ∨ s.source ≠ .crystal then 1 else 4) ∧
      t.clk = { s.clk with
        mt := if fieldOf v 1 1 = 1 ∧ s.source ≠ .gptp then s.loadValue else s.clk.mt, lockedSinceRun := false, heldAdj := 0, rerun := false
        epochOfs := BitVec.ofNat 64 ((s.reg Reg.CLK_EPOCH_OFS_LO).toNat + (s.reg Reg.CLK_EPOCH_OFS_HI).toNat * 2 ^ 32) } ∧
      ClockOnly s t ([Reg.CLK_MEDIA_CTRL, Reg.PAGE_STAT Page.clk] ++ clockRegs)) := by
  have load : fieldOf (setFieldOf v 0 1 1) 1 1 = fieldOf v 1 1 := fieldOf_setFieldOf_other v 1 (by decide)
  obtain ⟨run, pll, clk, frame⟩ := (s.afterLoad (setFieldOf v 0 1 1)).requestRun_shows
  have start := s.afterLoad_eq (setFieldOf v 0 1 1)
  rw [load] at start
  refine ⟨_, (exec_mediaRun opens).trans (congrArg _ (actMediaCtrl_start off (fieldOf_setFieldOf_same v 1 (by decide)) still)), run, ?_, ?_, ?_⟩
  · rw [pll, start]
    rfl
  · rw [clk, State.startClock, start]
    rfl
  · rw [start] at frame ⊢
    exact (ClockOnly.setClk s _ _).trans frame

/-! ### The stop requested (R28) -/

theorem State.requestStop_still (still : s.running = false) : s.requestStop = (s.setBit Reg.CLK_MEDIA_CTRL 0 false).setPll 0 := by
  unfold State.requestStop
  rw [still]
  rfl

theorem mediaStop_still (opens : s.writable Reg.CLK_MEDIA_CTRL = true) (on : s.run = true) (still : s.running = false) :
    Completes (.mediaStop path v) s (fun t => t.run = false ∧ t.pll = 0 ∧ ClockOnly s t (Reg.CLK_MEDIA_CTRL :: clockRegs)) := by
  have stop : exec (.mediaStop path v) s = .next ((s.setBit Reg.CLK_MEDIA_CTRL 0 false).setPll 0) :=
    (exec_mediaStop opens).trans (congrArg _ ((actMediaCtrl_stop on (fieldOf_setFieldOf_same v 0 (by decide))).trans (State.requestStop_still still)))
  refine ⟨_, stop, ?_, State.pll_setPll _ (by decide),
    ClockOnly.of_reports ((onlyReports_setBit s Reg.CLK_MEDIA_CTRL 0 false).trans (State.setPll_reports _ 0))⟩
  exact ((State.setPll_reports _ 0).bit (by decide) 0).trans (State.bit_setBit_same _ _ false (by decide))

/-- Media time begins to stop: RUN is clear and the CLK page drains. -/
def State.stopping (s : State) : State :=
  State.draining { s.setBit Reg.CLK_MEDIA_CTRL 0 false with clk := { s.clk with stop := .draining } } Page.clk

theorem State.stopping_regs (s : State) :
    OnlyRegs { s with clk := { s.clk with stop := .draining } } s.stopping [Reg.CLK_MEDIA_CTRL, Reg.PAGE_STAT Page.clk] :=
  ((((onlyRegs_setReg { s with clk := { s.clk with stop := .draining } } Reg.CLK_MEDIA_CTRL _).trans
    (onlyRegs_setReg _ (Reg.PAGE_STAT Page.clk) _)).trans (onlyRegs_setReg _ (Reg.PAGE_STAT Page.clk) _))).mono (by decide)

theorem eachQueue_draining : EachQueue (fun u q => let x := u.queue q; if x.active then u.setQueue q { x with draining := true } else u)
    (fun x => if x.active then { x with draining := true } else x) := eachQueue_ite Queue.active (fun x => { x with draining := true })

theorem mediaStop_drains (opens : s.writable Reg.CLK_MEDIA_CTRL = true) (on : s.run = true) (runs : s.running = true) :
    Completes (.mediaStop path v) s (fun t => t.run = false ∧ t.running = true ∧
      (∀ q ∈ queueNumbers, t.queue q = { s.queue q with draining := (s.queue q).draining || (s.queue q).active }) ∧
      t = { s with regs := t.regs, queues := t.queues, clk := { s.clk with stop := .draining } } ∧
      KeepsRegs s t [Reg.CLK_MEDIA_CTRL, Reg.PAGE_STAT Page.clk]) := by
  have drains : s.requestStop = queueNumbers.foldl
      (fun u q => let x := u.queue q; if x.active then u.setQueue q { x with draining := true } else u) s.stopping := by
    unfold State.requestStop
    rw [runs]
    rfl
  have stop := (exec_mediaStop (path := path) opens).trans (congrArg _ ((actMediaCtrl_stop on (fieldOf_setFieldOf_same v 0 (by decide))).trans drains))
  have rest := eachQueue_draining.foldl_rest queueNumbers s.stopping
  have queues := eachQueue_draining.foldl_mem nodup_queueNumbers s.stopping
  have regs := s.stopping_regs
  have run : s.stopping.run = false := by
    refine (State.bit_setReg_other _ _ _ (by decide)).trans ((State.bit_setReg_other _ _ _ (by decide)).trans ?_)
    exact State.bit_setBit_same s _ false (by decide)
  have same : s.stopping.queues = s.queues := rfl
  refine ⟨_, stop, ?_⟩
  generalize queueNumbers.foldl (fun u q => let x := u.queue q; if x.active then u.setQueue q { x with draining := true } else u) s.stopping = t at *
  generalize s.stopping = u at *
  have kept : ∀ a, t.reg a = u.reg a := fun a => by rw [rest]; rfl
  refine ⟨?_, ?_, fun q hq => ?_, ?_, fun a ha => (kept a).trans (regs.2 a ha)⟩
  · exact (State.bit_of_reg (kept _) 0).trans run
  · exact (State.bit_of_reg (kept _) 0).trans ((State.bit_of_reg (regs.2 _ (by decide)) 0).trans runs)
  · have start : u.queue q = s.queue q := by rw [State.queue, same, State.queue]
    rw [queues q hq, start]
    cases active : (s.queue q).active with
    | true => rw [if_pos rfl, Bool.or_true, ← active]
    | false => rw [if_neg Bool.false_ne_true, Bool.or_false]
  · rw [rest, regs.1]

end Ctrl

end Sys2Proof.Machine
end

section
/-! PROOFS. O46: CLK_MEDIA_CFG, the reading of media time, and its start and stop; what plain stores to the Concourse leave. -/

namespace Sys2Proof.Machine

/-! ### Plain stores -/

/-- Only the Concourse and its controller's state differ. -/
def MemOnly (s t : State) : Prop := t = { s with con := t.con, ctl := t.ctl }

namespace MemOnly

variable {s t u : State}

theorem refl (s : State) : MemOnly s s := rfl

theorem trans (h : MemOnly s t) (g : MemOnly t u) : MemOnly s u := by
  unfold MemOnly at *
  rw [g, h]

theorem putConBytes (data : List Byte) (s : State) (a : Nat) : MemOnly s (s.putConBytes a data) := by
  induction data generalizing s a with
  | nil => exact refl s
  | cons b bs ih => exact trans (t := s.setConByte a b) rfl (ih _ _)

theorem conStore (s : State) (a : Nat) (data : List Byte) : MemOnly s (s.conStore a data) := by
  refine (putConBytes data s a).trans ?_
  unfold State.conStore
  rfl

theorem putFrame (s : State) (a : Nat) (v : Word) : MemOnly s (s.putFrame a v) := conStore s a _

theorem foldl {α : Type} (f : State → α → State) (h : ∀ u x, MemOnly u (f u x)) (l : List α) (s : State) : MemOnly s (l.foldl f s) := by
  induction l generalizing s with
  | nil => exact refl s
  | cons x l ih => exact (h s x).trans (ih _)

theorem regs (h : MemOnly s t) : t.regs = s.regs := by rw [h]

theorem reg (h : MemOnly s t) (a : Nat) : t.reg a = s.reg a := by rw [State.reg, h.regs, State.reg]

theorem clk (h : MemOnly s t) : t.clk = s.clk := by rw [h]

theorem pool (h : MemOnly s t) : t.pool = s.pool := by rw [h]

theorem queues (h : MemOnly s t) : t.queues = s.queues := by rw [h]

theorem deferred (h : MemOnly s t) : t.deferred = s.deferred := by rw [h]

end MemOnly

/-- What a settlement leaves: all but frames, journals and the writes that wait. -/
theorem State.settle_memOnly (s : State) (n : Nat) :
    MemOnly { s with pool := { s.pool with splits := s.pool.splits.filter (fun w => decide (n < w.block)) } } (s.settle n) := by
  unfold State.settle
  refine (MemOnly.foldl _ (fun u (w : SplitWrite) => MemOnly.putFrame u w.addr w.value) _ _).trans (MemOnly.foldl _ (fun u x => ?_) _ _)
  split
  · exact MemOnly.refl u
  · exact MemOnly.putFrame ..

/-! ### CLK_MEDIA_CFG (R26, R27) -/

section Config

variable {s : State} {path : Path} {v : Word}

/-- What bars a change of the media configuration to `new`. -/
def State.mediaBarred (s : State) (new : Word) : Prop :=
  (fieldOf new 1 1 = 1 ∧ fieldOf new 2 2 = 0) ∨ s.run = true ∨ s.running = true ∨ s.liveSlots ≠ []

theorem exec_mediaConfigWrite (opens : s.writable Reg.CLK_MEDIA_CFG = true) : exec (.mediaConfigWrite path v) s =
    .next (actMediaCfg s (rowAt Reg.CLK_MEDIA_CFG) (s.reg Reg.CLK_MEDIA_CFG) v) := by
  change execMediaConfigWrite path v s = _
  rw [execMediaConfigWrite, State.hostWrite_of_writable opens]

theorem mediaConfigWrite_refused (opens : s.writable Reg.CLK_MEDIA_CFG = true) (barred : s.mediaBarred (s.stored Reg.CLK_MEDIA_CFG v)) :
    Completes (.mediaConfigWrite path v) s (fun t => t.bit Reg.CLK_MEDIA_STAT 6 = true ∧ Counted s t (Reg.PAGE_ERR_CNT Page.clk) ∧
      t.bit (Reg.PAGE_IRQ_STAT Page.clk) 2 = true ∧
      OnlyReports s t ([Reg.CLK_MEDIA_STAT, Reg.PAGE_ERR_CNT Page.clk] ++ raiseRegs Page.clk)) := by
  refine ⟨_, (exec_mediaConfigWrite opens).trans (congrArg _ (if_pos ?_)), ?_, ?_, State.bit_raise_same _ _ (by decide), ?_⟩
  · exact barred.imp id (Or.imp id (Or.imp id (fun h => by rwa [List.isEmpty_eq_false_iff])))
  · rw [(onlyReports_raise ..).bit mediaStat_notMem_raise, (onlyReports_pageErr ..).bit (by decide), State.bit_setBit_same _ _ _ (by decide)]
  · refine ((counted_bump _ (Reg.PAGE_ERR_CNT Page.clk)).of_reg_eq ?_).of_reg_eq_after (State.reg_raise _ (by decide) _)
    rw [State.reg_setBit_other _ _ _ (by decide)]
  · exact ((onlyReports_setBit s Reg.CLK_MEDIA_STAT 6 true).trans (onlyReports_pageErr _ Page.clk)).trans (onlyReports_raise _ Page.clk 2)

/-- The write is performed: FAM changes, or only fields that need no new lock. -/
theorem actMediaCfg_performed (free : ¬ s.mediaBarred (s.stored Reg.CLK_MEDIA_CFG v))
    (slots : fieldOf (s.stored Reg.CLK_MEDIA_CFG v) 1 1 = 0 ∨ ∀ p, p < 4 → s.fld (Reg.TDM_P_CFG p) 2 2 ≠ 3) :
    actMediaCfg s (rowAt Reg.CLK_MEDIA_CFG) (s.reg Reg.CLK_MEDIA_CFG) v =
      if fieldOf (s.stored Reg.CLK_MEDIA_CFG v) 0 1 = s.fld Reg.CLK_MEDIA_CFG 0 1 then
        s.setReg Reg.CLK_MEDIA_CFG (s.stored Reg.CLK_MEDIA_CFG v)
      else
        let s2 := ((s.setReg Reg.CLK_MEDIA_CFG (s.stored Reg.CLK_MEDIA_CFG v)).setBit Reg.CLK_MEDIA_STAT 7 false).setBit Reg.CLK_PLL_STAT 3 false
        (State.setPll { s2 with clk := { s2.clk with famRelock := true } } 1).dacHeld (List.range 8) := by
  refine (if_neg (fun h => free (h.imp id (Or.imp id (Or.imp id (fun e => by rwa [← List.isEmpty_eq_false_iff])))))).trans (if_neg ?_)
  rintro ⟨rate, wide⟩
  obtain ⟨p, hp, narrow⟩ := List.any_eq_true.1 wide
  exact slots.elim (fun h => absurd (h.symm.trans rate) (by decide))
    (fun h => h p (List.mem_range.1 hp) (of_decide_eq_true narrow))

/-- A new family is stored, and no lock is shown any more. -/
def State.unlocked (s : State) (new : Word) : State :=
  ((s.setReg Reg.CLK_MEDIA_CFG new).setBit Reg.CLK_MEDIA_STAT 7 false).setBit Reg.CLK_PLL_STAT 3 false

theorem State.unlocked_shows (s : State) (new : Word) : (s.unlocked new).reg Reg.CLK_MEDIA_CFG = new ∧
    (s.unlocked new).bit Reg.CLK_MEDIA_STAT 7 = false ∧ (s.unlocked new).bit Reg.CLK_PLL_STAT 3 = false := by
  unfold State.unlocked
  refine ⟨?_, ?_, State.bit_setBit_same _ _ false (by decide)⟩
  · rw [State.reg_setBit_other _ _ _ (by decide), State.reg_setBit_other _ _ _ (by decide), State.reg_setReg_same]
  · rw [State.bit_setBit_other _ _ _ _ (by decide), State.bit_setBit_same _ _ false (by decide)]

/-- A new family: the PLL is to lock anew. -/
def State.refamily (s : State) (new : Word) : State := { s.unlocked new with clk := { s.clk with famRelock := true } }

theorem State.refamily_reg (s : State) (new : Word) (a : Nat) : (s.refamily new).reg a = (s.unlocked new).reg a := rfl

theorem State.refamily_setPll (s : State) (new : Word) :
    ((s.refamily new).setPll 1).reg Reg.CLK_MEDIA_CFG = new ∧ ((s.refamily new).setPll 1).pll = 1 ∧
    ((s.refamily new).setPll 1).bit Reg.CLK_MEDIA_STAT 7 = false ∧ ((s.refamily new).setPll 1).bit Reg.CLK_PLL_STAT 3 = false ∧
    OnlyReports (s.refamily new) ((s.refamily new).setPll 1) clockRegs := by
  obtain ⟨cfg, lost, unlocked⟩ := s.unlocked_shows new
  have kept := s.refamily_reg new
  generalize s.refamily new = b at *
  have reports := State.setPll_reports b 1
  refine ⟨?_, State.pll_setPll _ (by decide), ?_, ?_, reports⟩
  · rw [reports.reg (by decide), kept, cfg]
  · rw [KeepsMedia.bit (State.setPll_media _ 1) (by decide), State.bit_of_reg (kept _), lost]
  · rw [reports.bit (by decide), State.bit_of_reg (kept _), unlocked]

theorem mediaConfigWrite_relocks (opens : s.writable Reg.CLK_MEDIA_CFG = true) (free : ¬ s.mediaBarred (s.stored Reg.CLK_MEDIA_CFG v))
    (slots : fieldOf (s.stored Reg.CLK_MEDIA_CFG v) 1 1 = 0 ∨ ∀ p, p < 4 → s.fld (Reg.TDM_P_CFG p) 2 2 ≠ 3)
    (family : fieldOf (s.stored Reg.CLK_MEDIA_CFG v) 0 1 ≠ s.fld Reg.CLK_MEDIA_CFG 0 1) :
    Completes (.mediaConfigWrite path v) s (fun t => t.reg Reg.CLK_MEDIA_CFG = s.stored Reg.CLK_MEDIA_CFG v ∧ t.pll = 1 ∧
      t.bit Reg.CLK_MEDIA_STAT 7 = false ∧ t.bit Reg.CLK_PLL_STAT 3 = false ∧ t.clk = { s.clk with famRelock := true } ∧
      t = { s with regs := t.regs, pmu := t.pmu, out := t.out, clk := t.clk, dac := t.dac }) := by
  have run : exec (.mediaConfigWrite path v) s =
      .next (((s.refamily (s.stored Reg.CLK_MEDIA_CFG v)).setPll 1).dacHeld (List.range 8)) :=
    (exec_mediaConfigWrite opens).trans (congrArg _ ((actMediaCfg_performed free slots).trans (if_neg family)))
  obtain ⟨cfg, pll, lost, unlocked, reports⟩ := s.refamily_setPll (s.stored Reg.CLK_MEDIA_CFG v)
  have start : s.refamily (s.stored Reg.CLK_MEDIA_CFG v) =
      { s with regs := (s.refamily (s.stored Reg.CLK_MEDIA_CFG v)).regs, clk := { s.clk with famRelock := true } } := rfl
  refine ⟨_, run, ?_⟩
  generalize s.stored Reg.CLK_MEDIA_CFG v = new at *
  have held := dacFrame_dacHeld ((s.refamily new).setPll 1) (List.range 8)
  generalize (s.refamily new).setPll 1 = u at *
  generalize s.refamily new = b at *
  generalize u.dacHeld (List.range 8) = t at *
  refine ⟨(held.regs _ (by decide)).trans cfg, ?_, (held.bit (by decide) 7).trans lost, (held.bit (by decide) 3).trans unlocked, ?_, ?_⟩
  · exact (State.fld_of_reg (held.regs _ (by decide)) 1 3).trans pll
  · rw [held.rest, reports.1, start]
  · rw [held.rest, reports.1, start]

theorem mediaConfigWrite_stores (opens : s.writable Reg.CLK_MEDIA_CFG = true) (free : ¬ s.mediaBarred (s.stored Reg.CLK_MEDIA_CFG v))
    (slots : fieldOf (s.stored Reg.CLK_MEDIA_CFG v) 1 1 = 0 ∨ ∀ p, p < 4 → s.fld (Reg.TDM_P_CFG p) 2 2 ≠ 3)
    (family : fieldOf (s.stored Reg.CLK_MEDIA_CFG v) 0 1 = s.fld Reg.CLK_MEDIA_CFG 0 1) :
    Stores (.mediaConfigWrite path v) s Reg.CLK_MEDIA_CFG v :=
  stores_of_exec ((exec_mediaConfigWrite opens).trans (congrArg _ ((actMediaCfg_performed free slots).trans (if_pos family))))

end Config

/-! ### Reading media time (R25) -/

theorem mtRead_closed {s : State} (closed : s.serving = false) (path : Path) (frac : BitVec 8) :
    Completes (.mtRead path frac) s (fun t => t = s) := by
  refine ⟨s, ?_, rfl⟩
  change execMtRead path frac s = _
  rw [execMtRead, if_pos closed]

theorem mtRead_reads {s : State} (opens : s.serving = true) (path : Path) (frac : BitVec 8) :
    Completes (.mtRead path frac) s (fun t =>
      t.out = { s.out with sent := .readData path [BitVec.ofNat 32 (s.clk.mt.toNat + if s.running then frac.toNat else 0)] :: s.out.sent } ∧
      t.latched 0 path = BitVec.ofNat 32 ((s.clk.mt.toNat + if s.running then frac.toNat else 0) / 2 ^ 32) ∧
      t = { s with out := t.out, latches := t.latches }) := by
  have now : (if s.running then s.clk.mt.toNat + frac.toNat else s.clk.mt.toNat) = s.clk.mt.toNat + if s.running then frac.toNat else 0 := by
    split
    · rfl
    · rfl
  have run : exec (.mtRead path frac) s = .next ((s.readMt path frac).1.send (.readData path [(s.readMt path frac).2])) := by
    change execMtRead path frac s = _
    rw [execMtRead, if_neg (by rw [opens]; exact Bool.noConfusion)]
  refine ⟨_, run, ?_⟩
  rw [State.readMt, now]
  generalize s.clk.mt.toNat + (if s.running then frac.toNat else 0) = m
  exact ⟨rfl, Sparse.get_put_same .., rfl⟩

/-! ### The counter starts (R21, R22, R29) -/

theorem State.blk_eq (s : State) : ∃ k < 4, s.blk = 8 * 2 ^ k := ⟨s.fld Reg.CLK_MEDIA_CFG 2 2, s.fld_lt Reg.CLK_MEDIA_CFG 2 2, rfl⟩

theorem State.blk_pos (s : State) : 0 < s.blk := by
  obtain ⟨k, _, e⟩ := s.blk_eq
  rw [e]
  positivity

theorem State.blk_le (s : State) : s.blk ≤ 64 := by
  obtain ⟨k, small, e⟩ := s.blk_eq
  rw [e]
  interval_cases k <;> decide

/-- When the counter may start. -/
def State.startDue (s : State) : Prop := s.run = true ∧ s.running = false ∧ 2 ≤ s.pll

/-- The value at which the counter starts, gPTP time being `g`. -/
def State.startValue (s : State) (g : BitVec 64) : BitVec 64 :=
  if s.source = .gptp then
    BitVec.ofNat 64 (((g.toNat * s.fs * 256 / 1000000000 + s.clk.epochOfs.toNat) % 2 ^ 64 + 256 * s.blk - 1) / (256 * s.blk) * (256 * s.blk))
  else s.loadValue

/-- What the counter's start at `mt` resets besides registers. -/
def State.startedAt (s : State) (mt : BitVec 64) : State :=
  { s with
    clk := { s.clk with
      mt := mt, startPeriod := mt.toNat / (256 * s.blk), boundaryDone := mt.toNat / (256 * s.blk), expressDone := mt.toNat / (256 * s.blk)
      deadlineDone := mt.toNat / (256 * s.blk), voiceSumDone := mt.toNat / (256 * s.blk), busDeadlineDone := mt.toNat / (256 * s.blk)
      finalSumDone := mt.toNat / (256 * s.blk), frameDone := mt.toNat / (256 * s.blk) }
    mix := { s.mix with snaps := [], terms := [], voiceBlock := none, finalBlock := none }
    dec := { s.dec with outBlock := none, capSeen := [] }
    sch := { s.sch with tasks := s.sch.tasks.filter (fun k => k.live), bulkClosed := none, overBlock := none }
    ctl := { s.ctl with btWait := 0 } }

/-- RUNNING is shown, and FAR no longer with gPTP selected. -/
def State.showRunning (s : State) : State :=
  if (s.setBit Reg.CLK_MEDIA_STAT 0 true).source = .gptp then (s.setBit Reg.CLK_MEDIA_STAT 0 true).setBit Reg.CLK_MEDIA_STAT 8 false
  else s.setBit Reg.CLK_MEDIA_STAT 0 true

theorem State.showRunning_shows (s : State) : s.showRunning.running = true ∧ OnlyRegs s s.showRunning [Reg.CLK_MEDIA_STAT] := by
  have set : (s.setBit Reg.CLK_MEDIA_STAT 0 true).running = true := State.bit_setBit_same s _ true (by decide)
  have regs : OnlyRegs s (s.setBit Reg.CLK_MEDIA_STAT 0 true) [Reg.CLK_MEDIA_STAT] := onlyRegs_setReg s _ _
  unfold State.showRunning
  split
  · refine ⟨?_, (regs.trans (onlyRegs_setReg _ Reg.CLK_MEDIA_STAT _)).mono (by decide)⟩
    rw [State.running, State.bit_setBit _ _ _ (by decide), if_neg (by decide)]
    exact set
  · exact ⟨set, regs⟩

theorem mediaCounterStart_waits {s : State} (h : ¬ s.startDue) (g : BitVec 64) : Completes (.mediaCounterStart g) s (fun t => t = s) := by
  refine ⟨s, if_pos ?_, rfl⟩
  by_contra due
  rw [not_or, not_or, Bool.not_eq_false, Bool.not_eq_true, not_lt] at due
  exact h due

/-- A multiple of a block's units is the start of its period. -/
theorem State.startedAt_shows (s : State) {mt : BitVec 64} (whole : mt.toNat % (256 * s.blk) = 0) :
    (s.startedAt mt).showRunning.running = true ∧ (s.startedAt mt).showRunning.clk.startPeriod = (s.startedAt mt).showRunning.period ∧
    (s.startedAt mt).showRunning.offset = 0 ∧
    (s.startedAt mt).showRunning.clk.boundaryDone = (s.startedAt mt).showRunning.period ∧
    (s.startedAt mt).showRunning.clk.frameDone = (s.startedAt mt).showRunning.period ∧
    KeepsRegs s (s.startedAt mt).showRunning [Reg.CLK_MEDIA_STAT] ∧ KeepsCores s (s.startedAt mt).showRunning [] ∧
    KeepsSlots s (s.startedAt mt).showRunning [] ∧ KeepsQueues s (s.startedAt mt).showRunning [] ∧
    (s.startedAt mt).showRunning.clk.mt = mt := by
  obtain ⟨running, regs⟩ := (s.startedAt mt).showRunning_shows
  have clk : (s.startedAt mt).showRunning.clk = (s.startedAt mt).clk := by rw [regs.1]
  have blk : (s.startedAt mt).showRunning.blk = s.blk := by
    rw [State.blk, regs.onlyReports.fld (by decide), State.blk]
    rfl
  have period : (s.startedAt mt).showRunning.period = mt.toNat / (256 * s.blk) := by
    rw [State.period, State.sample, blk, clk, Nat.div_div_eq_div_mul]
    rfl
  have offset : (s.startedAt mt).showRunning.offset = 0 := by
    rw [State.offset, State.sample, blk, clk]
    show mt.toNat / 256 % s.blk = 0
    obtain ⟨n, e⟩ := Nat.dvd_of_mod_eq_zero whole
    rw [e, Nat.mul_assoc, Nat.mul_div_cancel_left _ (by decide), Nat.mul_mod_right]
  rw [period, clk]
  exact ⟨running, rfl, offset, rfl, rfl, regs.2, fun n _ => by rw [regs.1]; rfl, fun x _ => by rw [regs.1]; rfl, fun q _ => by rw [regs.1]; rfl, rfl⟩

theorem exec_mediaCounterStart {s : State} (due : s.startDue) (g : BitVec 64) :
    exec (.mediaCounterStart g) s = .next (s.startedAt (s.startValue g)).showRunning := by
  obtain ⟨run, still, ready⟩ := due
  refine (if_neg ?_).trans rfl
  rw [run, still]
  rintro (h | h | h)
  · exact Bool.noConfusion h
  · exact Bool.noConfusion h
  · omega

theorem State.loadValue_toNat (s : State) : s.loadValue.toNat =
    ((s.reg Reg.CLK_MT_LOAD_LO).toNat + (s.reg Reg.CLK_MT_LOAD_HI).toNat * 2 ^ 32) / (256 * s.blk) * (256 * s.blk) := by
  unfold State.loadValue
  rw [BitVec.toNat_ofNat]
  refine Nat.mod_eq_of_lt (lt_of_le_of_lt (Nat.div_mul_le_self ..) ?_)
  have := (s.reg Reg.CLK_MT_LOAD_LO).isLt
  have := (s.reg Reg.CLK_MT_LOAD_HI).isLt
  omega

/-- The first multiple of `u` at or after `n`. -/
theorem roundUp_bounds {n u : Nat} (pos : 0 < u) : n ≤ (n + u - 1) / u * u ∧ (n + u - 1) / u * u < n + u := by
  have low := Nat.div_mul_le_self (n + u - 1) u
  have high := Nat.lt_div_mul_add (a := n + u - 1) pos
  omega

/-- What holds at the counter's start, in the order of the obligation. -/
theorem mediaCounterStart_starts {s : State} (due : s.startDue) (g : BitVec 64) {P : State → Prop}
    (value : (s.startValue g).toNat % (256 * s.blk) = 0)
    (h : ∀ t : State, t.clk.mt = s.startValue g → P t) :
    Completes (.mediaCounterStart g) s (fun t => (t.running = true ∧ t.clk.startPeriod = t.period ∧ t.offset = 0 ∧
      t.clk.boundaryDone = t.period ∧ t.clk.frameDone = t.period ∧ KeepsRegs s t [Reg.CLK_MEDIA_STAT] ∧ KeepsCores s t [] ∧ KeepsSlots s t [] ∧
      KeepsQueues s t []) ∧ P t) := by
  obtain ⟨running, start, offset, boundary, frame, regs, cores, slots, queues, mt⟩ := s.startedAt_shows value
  exact ⟨_, exec_mediaCounterStart due g, ⟨running, start, offset, boundary, frame, regs, cores, slots, queues⟩, h _ mt⟩

theorem State.startValue_gptp {s : State} {g : BitVec 64} {raw : Nat} (gptp : s.source = .gptp)
    (time : (g.toNat * s.fs * 256 / 1000000000 + s.clk.epochOfs.toNat) % 2 ^ 64 = raw) (near : raw ≤ 2 ^ 63) :
    (s.startValue g).toNat = (raw + 256 * s.blk - 1) / (256 * s.blk) * (256 * s.blk) := by
  have small := s.blk_le
  have pos := s.blk_pos
  obtain ⟨_, high⟩ := roundUp_bounds (n := raw) (u := 256 * s.blk) (by omega)
  rw [State.startValue, if_pos gptp, time, BitVec.toNat_ofNat]
  exact Nat.mod_eq_of_lt (by omega)

theorem mediaCounterStart_gptp {s : State} (due : s.startDue) {g : BitVec 64} (gptp : s.source = .gptp) {raw : Nat}
    (time : (g.toNat * s.fs * 256 / 1000000000 + s.clk.epochOfs.toNat) % 2 ^ 64 = raw) (near : raw ≤ 2 ^ 63) :
    Completes (.mediaCounterStart g) s (fun t => (t.running = true ∧ t.clk.startPeriod = t.period ∧ t.offset = 0 ∧
      t.clk.boundaryDone = t.period ∧ t.clk.frameDone = t.period ∧ KeepsRegs s t [Reg.CLK_MEDIA_STAT] ∧ KeepsCores s t [] ∧ KeepsSlots s t [] ∧
      KeepsQueues s t []) ∧ raw ≤ t.clk.mt.toNat ∧ t.clk.mt.toNat < raw + 256 * s.blk ∧ t.clk.mt.toNat % (256 * s.blk) = 0) := by
  have value := State.startValue_gptp gptp time near
  have pos := s.blk_pos
  obtain ⟨low, high⟩ := roundUp_bounds (n := raw) (u := 256 * s.blk) (by omega)
  refine mediaCounterStart_starts due g ?_ (fun t mt => ?_)
  · rw [value, Nat.mul_mod_left]
  · rw [mt, value]
    exact ⟨low, high, Nat.mul_mod_left ..⟩

theorem mediaCounterStart_loaded {s : State} {g : BitVec 64} (due : s.startDue) (free : s.source ≠ .gptp) :
    Completes (.mediaCounterStart g) s (fun t => (t.running = true ∧ t.clk.startPeriod = t.period ∧ t.offset = 0 ∧
      t.clk.boundaryDone = t.period ∧ t.clk.frameDone = t.period ∧ KeepsRegs s t [Reg.CLK_MEDIA_STAT] ∧ KeepsCores s t [] ∧ KeepsSlots s t [] ∧
      KeepsQueues s t []) ∧
      t.clk.mt.toNat = ((s.reg Reg.CLK_MT_LOAD_LO).toNat + (s.reg Reg.CLK_MT_LOAD_HI).toNat * 2 ^ 32) / (256 * s.blk) * (256 * s.blk)) := by
  have value : s.startValue g = s.loadValue := if_neg free
  refine mediaCounterStart_starts due g ?_ (fun t mt => ?_)
  · rw [value, s.loadValue_toNat, Nat.mul_mod_left]
  · rw [mt, value, s.loadValue_toNat]

/-! ### The end of a stop (R28) -/

/-- Neither the clock nor a queue changes, and of the registers only those of `l`. -/
def Aside (s t : State) (l : List Nat) : Prop := t.clk = s.clk ∧ t.queues = s.queues ∧ KeepsRegs s t l

namespace Aside

variable {s t u : State} {l m cs : List Nat}

theorem of_reports (h : OnlyReports s t l) : Aside s t l := ⟨h.clk, by rw [h.1], h.2⟩

theorem of_dac (h : DacFrame s t l cs) : Aside s t l := ⟨by rw [h.rest], by rw [h.rest], h.regs⟩

theorem of_mem (h : MemOnly s t) : Aside s t [] := ⟨h.clk, h.queues, fun a _ => h.reg a⟩

theorem trans (h : Aside s t l) (g : Aside t u m) : Aside s u (l ++ m) := by
  obtain ⟨clk, queues, regs⟩ := h
  obtain ⟨clk', queues', regs'⟩ := g
  exact ⟨clk'.trans clk, queues'.trans queues, KeepsRegs.trans regs regs'⟩

theorem mono (h : Aside s t l) (sub : l ⊆ m) : Aside s t m := ⟨h.1, h.2.1, KeepsRegs.mono h.2.2 sub⟩

theorem clk (h : Aside s t l) : t.clk = s.clk := h.1

theorem queue (h : Aside s t l) (q : Nat) : t.queue q = s.queue q := by rw [State.queue, h.2.1, State.queue]

theorem fld (h : Aside s t l) {a : Nat} (ha : a ∉ l) (lo w : Nat) : t.fld a lo w = s.fld a lo w := State.fld_of_reg (h.2.2 a ha) lo w

theorem bit (h : Aside s t l) {a : Nat} (ha : a ∉ l) (i : Nat) : t.bit a i = s.bit a i := State.bit_of_reg (h.2.2 a ha) i

end Aside

theorem State.settle_aside (s : State) (n : Nat) : Aside s (s.settle n) [] :=
  ⟨(s.settle_memOnly n).clk, (s.settle_memOnly n).queues, fun a _ => (s.settle_memOnly n).reg a⟩

theorem State.startPage_clk (s : State) :
    s.startPage Page.clk = (s.setBit (Reg.PAGE_CTRL Page.clk) 0 true).setBit (Reg.PAGE_STAT Page.clk) 0 false := rfl

theorem State.idle_clk (s : State) : Aside s (s.idle Page.clk) [Reg.PAGE_STAT Page.clk, Reg.PAGE_CTRL Page.clk] := by
  have shown : OnlyReports s ((s.setBit (Reg.PAGE_STAT Page.clk) 1 false).setBit (Reg.PAGE_STAT Page.clk) 0 true)
      [Reg.PAGE_STAT Page.clk, Reg.PAGE_CTRL Page.clk] :=
    ((onlyReports_setBit s (Reg.PAGE_STAT Page.clk) 1 false).trans (onlyReports_setBit _ (Reg.PAGE_STAT Page.clk) 0 true)).mono (by decide)
  unfold State.idle
  dsimp only
  generalize (s.setBit (Reg.PAGE_STAT Page.clk) 1 false).setBit (Reg.PAGE_STAT Page.clk) 0 true = t at *
  split
  · have enabled : ∀ u : State, Aside u (u.startPage Page.clk) [Reg.PAGE_STAT Page.clk, Reg.PAGE_CTRL Page.clk] := fun u => by
      rw [u.startPage_clk]
      exact Aside.of_reports (((onlyReports_setBit u (Reg.PAGE_CTRL Page.clk) 0 true).trans
        (onlyReports_setBit _ (Reg.PAGE_STAT Page.clk) 0 false)).mono (by decide))
    exact ((Aside.of_reports shown).trans (enabled { t with deferred := t.deferred.filter (fun q => decide (q ≠ Page.clk)) })).mono (by decide)
  · exact Aside.of_reports shown

theorem eachQueue_drained : EachQueue (fun u q => let x := u.queue q; if x.draining then u.setQueue q { x with draining := false } else u)
    (fun x => if x.draining then { x with draining := false } else x) := eachQueue_ite Queue.draining (fun x => { x with draining := false })

/-- No queue drains any more. -/
def State.drained (s : State) : State :=
  queueNumbers.foldl (fun u q => let x := u.queue q; if x.draining then u.setQueue q { x with draining := false } else u) s

theorem State.drained_queue (s : State) : ∀ q ∈ queueNumbers, (s.drained.queue q).draining = false := by
  intro q hq
  rw [State.drained, eachQueue_drained.foldl_mem nodup_queueNumbers s q hq]
  split
  · rfl
  · rename_i h
    exact Bool.eq_false_iff.2 h

theorem State.drained_rest (s : State) : s.drained = { s with queues := s.drained.queues } := eachQueue_drained.foldl_rest queueNumbers s

/-- The counter stands: RUNNING is clear, and neither a stop nor a new start is in progress. -/
def State.standing (s : State) : State :=
  { (s.settle (s.period + 3)).setBit Reg.CLK_MEDIA_STAT 0 false with
    clk := { ((s.settle (s.period + 3)).setBit Reg.CLK_MEDIA_STAT 0 false).clk with stop := .none, rerun := false } }

/-- Channels that waited for the counter to stand leave, the module being in power state `p`. -/
def State.released (s : State) (p : Nat) : State := if p = 1 then s.dacReleaseAll else s

theorem State.released_aside (s : State) (p : Nat) : Aside s (s.released p) (Reg.DAC_STAT :: (List.range 8).map (fun c => Reg.DAC_CH_STAT c)) := by
  unfold State.released
  split
  · exact Aside.of_dac (DacFrame.foldl (cs := List.range 8) (List.range 8) (fun u c hc => (dacFrame_dacRelease u c).mono
      (by simp only [List.cons_subset, List.nil_subset, and_true]
          exact ⟨List.mem_cons_of_mem _ (List.mem_map_of_mem hc), List.mem_cons_self⟩)
      (List.cons_subset.2 ⟨hc, List.nil_subset _⟩)) s)
  · exact Aside.of_reports (OnlyReports.refl s _)

/-- When a stop ends. -/
def State.stops (s : State) : Prop :=
  s.clk.stop = .draining ∧ s.running = true ∧ s.offset = 0 ∧ ∀ q ∈ queueNumbers, s.queueFaded q = true

theorem mediaStopComplete_waits {s : State} (h : ¬ s.stops) : Completes .mediaStopComplete s (fun t => t = s) := by
  refine ⟨s, if_pos ?_, rfl⟩
  by_contra done
  simp only [not_or, List.any_eq_true, Bool.not_eq_true', not_exists, not_and, Bool.not_eq_false, not_not] at done
  obtain ⟨stop, runs, boundary, faded⟩ := done
  have drains : s.clk.stop = .draining := by
    cases e : s.clk.stop with
    | none => contradiction
    | draining => rfl
  exact h ⟨drains, runs, boundary, faded⟩

theorem mediaStopComplete_stops {s : State} (h : s.stops) (once : s.clk.rerun = false) :
    Completes .mediaStopComplete s (fun t => t.running = false ∧ t.pll = 0 ∧ t.clk.stop = .none ∧
      (∀ q ∈ queueNumbers, (t.queue q).draining = false) ∧ t.clk.mt = s.clk.mt) := by
  obtain ⟨stop, runs, boundary, faded⟩ := h
  have run : exec .mediaStopComplete s = .next (((s.standing.idle Page.clk).drained.setPll 0).released s.powerState) := by
    refine (if_neg ?_).trans ?_
    · rw [stop, runs, boundary]
      simp only [reduceCtorEq, not_true_eq_false, ne_eq, false_or, List.any_eq_true, Bool.not_eq_true', Bool.true_eq_false, not_exists, not_and]
      exact fun q hq => by rw [faded q hq]; exact Bool.noConfusion
    · rw [once]
      exact congrArg Host.Outcome.next (if_neg Bool.false_ne_true)
  have settled := s.settle_aside (s.period + 3)
  have clk : s.standing.clk = { s.clk with stop := .none, rerun := false } := by
    rw [State.standing, ← settled.clk]
    rfl
  have still : s.standing.bit Reg.CLK_MEDIA_STAT 0 = false := State.bit_setBit_same (s.settle (s.period + 3)) _ false (by decide)
  refine ⟨_, run, ?_⟩
  generalize s.standing = a at *
  have idle := a.idle_clk
  generalize a.idle Page.clk = b at *
  have queues := b.drained_queue
  have rest := b.drained_rest
  generalize b.drained = d at *
  have stopped := State.pll_setPll d (v := 0) (by decide)
  have media := d.setPll_media 0
  have reports := d.setPll_reports 0
  generalize d.setPll 0 = e at *
  have released := e.released_aside s.powerState
  generalize e.released s.powerState = t at *
  have pllClk : e.clk = a.clk := by rw [reports.clk, rest]; exact idle.clk
  refine ⟨?_, (released.fld (by decide) 1 3).trans stopped, ?_, fun q hq => ?_, ?_⟩
  · rw [State.running, released.bit (by decide), media.bit (by decide), rest]
    exact (idle.bit (by decide) 0).trans still
  · rw [released.clk, pllClk, clk]
  · rw [released.queue, (Aside.of_reports reports).queue, queues q hq]
  · rw [released.clk, pllClk, clk]

/-- Settles O46: CLK_MEDIA_CTRL by RUN before and after, CLK_MEDIA_CFG by what bars it, and the start and stop of the counter. -/
theorem mediaTime : Obligations.MediaTime := by
  unfold Obligations.MediaTime
  refine ⟨fun s path v frac => ⟨fun opens => ⟨fun off clear => ⟨mtLoad_loads opens off clear, mtLoad_nothing opens off clear, mediaStop_nothing opens off⟩,
    fun off => ⟨mediaRun_starts opens off, mediaRun_waits opens off⟩, mediaRun_nothing opens, mediaStop_drains opens, mediaStop_still opens⟩,
    fun opens => ⟨mediaConfigWrite_refused opens, fun free slots => ⟨mediaConfigWrite_stores opens free slots, mediaConfigWrite_relocks opens free slots⟩⟩,
    fun closed => mtRead_closed closed path frac, fun opens => mtRead_reads opens path frac⟩, fun s g => ⟨fun h => mediaCounterStart_waits h g,
    fun due gptp near => mediaCounterStart_gptp due gptp rfl near, mediaCounterStart_loaded, mediaStopComplete_waits, mediaStopComplete_stops⟩⟩

end Sys2Proof.Machine
end

section
/-! PROOFS. O44: the patrol of Sample Memory and the end of a page's retirement. -/

namespace Sys2Proof.Machine

/-- A line without an error, read while no injection is armed. -/
theorem State.readLine_clean {s : State} {line : Nat} (good : line ∉ s.dram.bad) (unarmed : s.bit (Reg.PAGE_ERR_INJ Page.drc) 30 = false)
    (scrub write : Bool) : s.readLine line 0 scrub write = (s.count 462 1, .good (s.lineBytes line)) := by
  have open_ : decide (8 - s.dramT < 0) = false := decide_eq_false (Nat.not_lt_zero _)
  have lost : (s.dram.bad.contains line || (decide (s.dramT < 0) && (!false || decide ((0 : Nat) = 1)))) = false := by
    rw [decide_eq_false (Nat.not_lt_zero _), Bool.false_and, Bool.or_false]
    simpa using good
  have quiet : (s.count 462 1).bit (Reg.PAGE_ERR_INJ Page.drc) 30 = false := (State.bit_count ..).trans unarmed
  unfold State.readLine
  simp only [open_, if_neg Bool.false_ne_true, lost, State.check_unarmed quiet, decide_eq_false (Nat.not_lt_zero 0)]

/-! ### The patrol (R318) -/

section Patrol

variable {s : State} {o0 o1 : Nat}

/-- Neither a full pass nor the patrol is to read a line. -/
def State.patrolIdle (s : State) : Prop :=
  (s.bit Reg.DRC_SCRUB_STAT 31 = false ∧ ¬ (s.bit Reg.DRC_CFG 8 = true ∧ s.pageOn Page.drc = true)) ∨ s.powerState ≠ 0

theorem scrubLine_idle (h : s.patrolIdle) : Completes (.scrubLine 0 o0 o1) s (fun t => t = s) := by
  refine ⟨s, if_pos (h.imp (fun ⟨full, off⟩ => ⟨full, ?_⟩) id), rfl⟩
  rwa [← Bool.not_eq_true, Bool.and_eq_true]

/-- The line that the patrol is to read. -/
def State.patrolLine (s : State) : Nat := s.fld Reg.DRC_SCRUB_STAT 0 26

theorem exec_scrubLine (busy : ¬ s.patrolIdle) (patrol : s.bit Reg.DRC_SCRUB_STAT 31 = false) (good : s.patrolLine ∉ s.dram.bad)
    (unarmed : s.bit (Reg.PAGE_ERR_INJ Page.drc) 30 = false) :
    exec (.scrubLine 0 o0 o1) s = .next (if s.patrolLine + 1 = dramLines then (s.count 462 1).scrubPassEnd o0 o1
      else (s.count 462 1).setFld Reg.DRC_SCRUB_STAT 0 26 (s.patrolLine + 1)) := by
  have going : ¬ ((s.bit Reg.DRC_SCRUB_STAT 31 = false ∧ (s.bit Reg.DRC_CFG 8 && s.pageOn Page.drc) = false) ∨ s.powerState ≠ 0) := by
    refine fun h => busy (h.imp (fun ⟨full, off⟩ => ⟨full, ?_⟩) id)
    rwa [← Bool.not_eq_true, Bool.and_eq_true] at off
  have read := State.readLine_clean good unarmed true false
  change execScrubLine 0 o0 o1 s = _
  unfold execScrubLine
  refine (if_neg going).trans ?_
  unfold State.patrolLine at *
  dsimp only
  rw [read, patrol]
  simp only [and_self, if_true, Bool.false_eq_true, if_false]

theorem State.patrolLine_lt (s : State) : s.patrolLine < 2 ^ 26 := s.fld_lt ..

theorem scrubLine_next (busy : ¬ s.patrolIdle) (patrol : s.bit Reg.DRC_SCRUB_STAT 31 = false) (good : s.patrolLine ∉ s.dram.bad)
    (unarmed : s.bit (Reg.PAGE_ERR_INJ Page.drc) 30 = false) (inside : s.patrolLine + 1 < 0x3800000) :
    Completes (.scrubLine 0 o0 o1) s (fun t => t.fld Reg.DRC_SCRUB_STAT 0 26 = s.patrolLine + 1 ∧
      t = { s with regs := t.regs, pmu := t.pmu } ∧ KeepsRegs s t [Reg.DRC_SCRUB_STAT]) := by
  refine ⟨_, (exec_scrubLine busy patrol good unarmed).trans (congrArg _ (if_neg (Nat.ne_of_lt inside))), ?_, rfl, ?_⟩
  · rw [State.fld_setFld_same _ _ _ (by decide)]
    exact Nat.mod_eq_of_lt (by omega)
  · exact (onlyRegs_setReg (s.count 462 1) Reg.DRC_SCRUB_STAT _).2

/-- The counts of a pass, and the patrol at line 0 again. -/
def State.passCounted (s : State) (o0 o1 : Nat) : State :=
  (((s.bump Reg.DRC_SCRUB_PASS_CNT).bumpBy Reg.DRC_ODECC0_CNT o0).bumpBy Reg.DRC_ODECC1_CNT o1).setReg Reg.DRC_SCRUB_STAT 0

/-- Tracking entries without a line of this pass are gone. -/
def Dram.nextPass (d : Dram) (hours : Nat) : Dram := { d with track := d.track.filter (fun e => decide (d.pass ≤ e.2.2)), pass := d.pass + 1, hours := hours }

theorem State.scrubPassEnd_patrol (patrol : s.bit Reg.DRC_SCRUB_STAT 31 = false) :
    s.scrubPassEnd o0 o1 = { (s.passCounted o0 o1).raise Page.drc 2 with
      dram := ((s.passCounted o0 o1).raise Page.drc 2).dram.nextPass (((s.passCounted o0 o1).raise Page.drc 2).fld Reg.DRC_SCRUB_CFG 0 8) } := by
  unfold State.scrubPassEnd
  rw [patrol]
  rfl

theorem State.passCounted_regs (s : State) (o0 o1 : Nat) : OnlyReports s (s.passCounted o0 o1)
    [Reg.DRC_SCRUB_PASS_CNT, Reg.DRC_ODECC0_CNT, Reg.DRC_ODECC1_CNT, Reg.DRC_SCRUB_STAT] :=
  (((onlyReports_bump s Reg.DRC_SCRUB_PASS_CNT).trans (onlyReports_setReg _ Reg.DRC_ODECC0_CNT _)).trans
    (onlyReports_setReg _ Reg.DRC_ODECC1_CNT _)).trans (onlyReports_setReg _ Reg.DRC_SCRUB_STAT 0)

theorem State.passCounted_shows (s : State) (o0 o1 : Nat) : (s.passCounted o0 o1).reg Reg.DRC_SCRUB_STAT = 0 ∧
    Counted s (s.passCounted o0 o1) Reg.DRC_SCRUB_PASS_CNT ∧
    ((s.passCounted o0 o1).reg Reg.DRC_ODECC0_CNT).toNat = min 0xFFFFFFFF ((s.reg Reg.DRC_ODECC0_CNT).toNat + o0) ∧
    ((s.passCounted o0 o1).reg Reg.DRC_ODECC1_CNT).toNat = min 0xFFFFFFFF ((s.reg Reg.DRC_ODECC1_CNT).toNat + o1) := by
  unfold State.passCounted
  refine ⟨State.reg_setReg_same .., ?_, ?_, ?_⟩
  · refine (counted_bump s Reg.DRC_SCRUB_PASS_CNT).of_reg_eq_after ?_
    rw [State.reg_setReg_other _ _ (by decide), State.reg_bumpBy, if_neg (by decide), State.reg_bumpBy, if_neg (by decide)]
  · rw [State.reg_setReg_other _ _ (by decide), State.reg_bumpBy, if_neg (by decide), State.reg_bumpBy, if_pos rfl, State.reg_bump, if_neg (by decide),
      BitVec.toNat_ofNat]
    omega
  · rw [State.reg_setReg_other _ _ (by decide), State.reg_bumpBy, if_pos rfl, State.reg_bumpBy, if_neg (by decide), State.reg_bump, if_neg (by decide),
      BitVec.toNat_ofNat]
    omega

theorem scrubLine_last (busy : ¬ s.patrolIdle) (patrol : s.bit Reg.DRC_SCRUB_STAT 31 = false) (good : s.patrolLine ∉ s.dram.bad)
    (unarmed : s.bit (Reg.PAGE_ERR_INJ Page.drc) 30 = false) (last : s.patrolLine + 1 = 0x3800000) :
    Completes (.scrubLine 0 o0 o1) s (fun t => t.reg Reg.DRC_SCRUB_STAT = 0 ∧ Counted s t Reg.DRC_SCRUB_PASS_CNT ∧
      (t.reg Reg.DRC_ODECC0_CNT).toNat = min 0xFFFFFFFF ((s.reg Reg.DRC_ODECC0_CNT).toNat + o0) ∧
      (t.reg Reg.DRC_ODECC1_CNT).toNat = min 0xFFFFFFFF ((s.reg Reg.DRC_ODECC1_CNT).toNat + o1) ∧
      t.bit (Reg.PAGE_IRQ_STAT Page.drc) 2 = true ∧ t.dram.pass = s.dram.pass + 1 ∧ KeepsDram s t) := by
  have patrol' : (s.count 462 1).bit Reg.DRC_SCRUB_STAT 31 = false := (State.bit_count ..).trans patrol
  have run := (exec_scrubLine (o0 := o0) (o1 := o1) busy patrol good unarmed).trans
    (congrArg Host.Outcome.next ((if_pos last).trans (State.scrubPassEnd_patrol patrol')))
  obtain ⟨stat, pass, die0, die1⟩ := (s.count 462 1).passCounted_shows o0 o1
  have counted := (s.count 462 1).passCounted_regs o0 o1
  have regs : ∀ a, (s.count 462 1).reg a = s.reg a := State.reg_count s 462 1
  have dram : (s.count 462 1).dram = s.dram := rfl
  refine ⟨_, run, ?_⟩
  generalize s.count 462 1 = b at *
  generalize b.passCounted o0 o1 = u at *
  have raised := onlyReports_raise u Page.drc 2
  have irq := State.bit_raise_same u Page.drc (b := 2) (by decide)
  generalize u.raise Page.drc 2 = w at *
  have same : w.dram = s.dram := by rw [raised.1, counted.1]; exact dram
  refine ⟨(raised.reg (by decide)).trans stat, (pass.of_reg_eq (regs _)).of_reg_eq_after (raised.reg (by decide)), ?_, ?_, irq, ?_, fun a => ?_⟩
  · rw [← regs, ← die0]
    exact congrArg BitVec.toNat (raised.reg (by decide))
  · rw [← regs, ← die1]
    exact congrArg BitVec.toNat (raised.reg (by decide))
  · rw [same]; rfl
  · unfold State.dramByte
    rw [same]; rfl

end Patrol

/-! ### A page's retirement (R319, R320) -/

/-- Bytes of Sample Memory are as they were, and only data, lines that are lost and PMU counters may differ. -/
structure Copied (s t : State) : Prop where
  rest : t = { s with dram := { s.dram with data := t.dram.data, bad := t.dram.bad }, pmu := t.pmu }
  bytes : KeepsDram s t
  bad : ∀ l ∈ t.dram.bad, l ∈ s.dram.bad

namespace Copied

variable {s t u : State}

theorem refl (s : State) : Copied s s := ⟨rfl, fun _ => rfl, fun _ => id⟩

theorem trans (h : Copied s t) (g : Copied t u) : Copied s u where
  rest := by rw [g.rest, h.rest]
  bytes a := (g.bytes a).trans (h.bytes a)
  bad l hl := h.bad l (g.bad l hl)

theorem reg (h : Copied s t) (a : Nat) : t.reg a = s.reg a := by rw [h.rest]; rfl

end Copied

/-- Bytes put where they stand already. -/
theorem State.putDram_same (data : List Byte) (s : State) (a : Nat) (h : ∀ i (hi : i < data.length), data[i] = s.dramByte (a + i)) :
    Copied s (s.putDram a data) := by
  induction data generalizing s a with
  | nil => exact Copied.refl s
  | cons b bs ih =>
    have first : b = s.dramByte a := h 0 (Nat.zero_lt_succ _)
    have kept : ∀ x, State.dramByte { s with dram := { s.dram with data := Sparse.put (fun _ => 0) s.dram.data a b } } x = s.dramByte x := by
      intro x
      unfold State.dramByte
      by_cases e : x = a
      · rw [e, Sparse.get_put_same, first, State.dramByte]
      · exact Sparse.get_put_other _ _ e
    refine Copied.trans (t := { s with dram := { s.dram with data := Sparse.put (fun _ => 0) s.dram.data a b } })
      ⟨rfl, kept, fun _ => id⟩ (ih _ _ fun i hi => ?_)
    rw [kept]
    have := h (i + 1) (Nat.succ_lt_succ hi)
    rwa [List.getElem_cons_succ, ← Nat.add_assoc, Nat.add_right_comm] at this

theorem State.lineBytes_same (s : State) (line : Nat) : Copied s (s.putDram (64 * line) (s.lineBytes line)) := by
  refine State.putDram_same _ s _ fun i hi => ?_
  exact (List.getElem_map ..).trans (congrArg (fun k => s.dramByte (64 * line + k)) (List.getElem_range _))

/-- One line of a page is copied. -/
def State.copyLine (t : State) (page : Nat) (errs : List Nat) (i : Nat) : State :=
  let line := 64 * page + i
  let r := t.readLine line ((errs[i]?).getD 0) false false
  let data := match r.2 with
    | .good d => d
    | .lost => List.replicate 64 (0 : Byte)
  let u := r.1.putDram (64 * line) data
  { u with dram := { u.dram with bad := u.dram.bad.filter (fun l => decide (l ≠ line)) } }

theorem State.copyPage_eq (s : State) (page : Nat) (errs : List Nat) :
    s.copyPage page errs = (List.range 64).foldl (fun t i => t.copyLine page errs i) s := rfl

theorem State.copyLine_clean {s : State} {page i : Nat} (good : 64 * page + i ∉ s.dram.bad)
    (unarmed : s.bit (Reg.PAGE_ERR_INJ Page.drc) 30 = false) : Copied s (s.copyLine page [] i) := by
  have read := State.readLine_clean good unarmed false false
  have same := (s.count 462 1).lineBytes_same (64 * page + i)
  have line : (s.count 462 1).lineBytes (64 * page + i) = s.lineBytes (64 * page + i) := rfl
  rw [line] at same
  unfold State.copyLine
  dsimp only
  rw [List.getElem?_nil, Option.getD_none, read]
  generalize s.lineBytes (64 * page + i) = d at *
  dsimp only
  generalize (s.count 462 1).putDram (64 * (64 * page + i)) d = u at *
  have counted : Copied s u := Copied.trans (t := s.count 462 1) ⟨rfl, fun _ => rfl, fun _ => id⟩ same
  exact counted.trans ⟨rfl, fun _ => rfl, fun l hl => List.mem_of_mem_filter hl⟩

theorem State.copyPage_clean {s : State} {page : Nat} (good : ∀ l ∈ s.dram.bad, l / 64 ≠ page)
    (unarmed : s.bit (Reg.PAGE_ERR_INJ Page.drc) 30 = false) : Copied s (s.copyPage page []) := by
  have lines : ∀ i ∈ List.range 64, i < 64 := fun i hi => List.mem_range.1 hi
  rw [State.copyPage_eq]
  generalize List.range 64 = l at lines
  induction l generalizing s with
  | nil => exact Copied.refl s
  | cons i l ih =>
    have small := lines i List.mem_cons_self
    have step := State.copyLine_clean (page := page) (i := i) (fun h => good _ h (by omega)) unarmed
    rw [List.foldl_cons]
    exact step.trans (ih (fun l hl => good l (step.bad l hl)) (by rw [State.bit_of_reg (step.reg _), unarmed])
      (fun j hj => lines j (List.mem_cons_of_mem _ hj)))

/-- The unit `u` takes the place of page `p`. -/
def Dram.replace (d : Dram) (p u : Nat) : Dram :=
  { d with
    retiring := d.retiring.filter (fun e => decide (e.1 ≠ p))
    replaced := Sparse.put (fun _ => 0) d.replaced p (u + 1)
    badUnits := if Sparse.get (fun _ => 0) d.replaced p = 0 then d.badUnits else d.badUnits ++ [Sparse.get (fun _ => 0) d.replaced p - 1] }

section Retire

variable {s : State} {page : BitVec 20}

theorem pageRetireDone_nothing (h : s.dram.retiring.any (fun e => decide (e.1 = page.toNat)) = false) :
    Completes (.pageRetireDone page 0 []) s (fun t => t = s) := ⟨s, if_pos h, rfl⟩

/-- The page's data stand in its unit, which is counted and shown. -/
def State.retired (s : State) (p u : Nat) : State :=
  ((State.bump { s with dram := s.dram.replace p u } Reg.DRC_RETIRED_CNT).count 468 1).showUnits

theorem exec_pageRetireDone {e : Nat × Nat} (mine : s.bit Reg.SVC_STAT 31 = false)
    (h : s.dram.retiring.find? (fun e => decide (e.1 = page.toNat)) = some e) :
    exec (.pageRetireDone page 0 []) s = .next ((s.showUnits.copyPage page.toNat []).retired page.toNat e.2) := by
  have some_ : s.dram.retiring.any (fun e => decide (e.1 = page.toNat)) = true :=
    List.any_eq_true.2 ⟨e, List.mem_of_find?_eq_some h, by simpa using List.find?_some h⟩
  have shown : s.showUnits.dram = s.dram := rfl
  change execPageRetireDone page 0 [] s = _
  unfold execPageRetireDone
  dsimp only
  rw [some_, mine, if_neg Bool.noConfusion, State.failUnits, shown, h]
  rfl

theorem pageRetireDone_ends {e : Nat × Nat} (h : s.dram.retiring.find? (fun e => decide (e.1 = page.toNat)) = some e)
    (good : ∀ l ∈ s.dram.bad, l / 64 ≠ page.toNat) (unarmed : s.bit (Reg.PAGE_ERR_INJ Page.drc) 30 = false) (mine : s.bit Reg.SVC_STAT 31 = false) :
    Completes (.pageRetireDone page 0 []) s (fun t => Sparse.get (fun _ => 0) t.dram.replaced page.toNat = e.2 + 1 ∧
      t.dram.retiring = s.dram.retiring.filter (fun e => decide (e.1 ≠ page.toNat)) ∧ Counted s t Reg.DRC_RETIRED_CNT ∧ KeepsDram s t ∧
      t = { s with regs := t.regs, dram := t.dram, pmu := t.pmu } ∧ KeepsRegs s t [Reg.DRC_STAT, Reg.DRC_RETIRED_CNT]) := by
  have shown : OnlyRegs s s.showUnits [Reg.DRC_STAT] := onlyRegs_setReg ..
  have copied := State.copyPage_clean (s := s.showUnits) (page := page.toNat) good (by rw [shown.onlyReports.bit (by decide), unarmed])
  refine ⟨_, exec_pageRetireDone mine h, ?_⟩
  generalize page.toNat = p at *
  generalize s.showUnits.copyPage p [] = u at *
  generalize s.showUnits = b at *
  have retiring : u.dram.retiring = s.dram.retiring := by rw [copied.rest, shown.1]
  have regs : ∀ a, a ≠ Reg.DRC_STAT → u.reg a = s.reg a := fun a ha => (copied.reg a).trans (shown.2 a (by simpa using ha))
  refine ⟨Sparse.get_put_same u.dram.replaced p (e.2 + 1), ?_, ?_, ?_, ?_, ?_⟩
  · rw [← retiring]; rfl
  · refine Counted.of_reg_eq_after (t := u.bump Reg.DRC_RETIRED_CNT) ((counted_bump u Reg.DRC_RETIRED_CNT).of_reg_eq (regs _ (by decide))) ?_
    exact (State.reg_setReg_other _ _ (by decide)).trans rfl
  · intro a
    refine (copied.bytes a).trans ?_
    unfold State.dramByte
    rw [shown.1]
  · unfold State.retired
    rw [copied.rest, shown.1]
    rfl
  · intro a ha
    rw [List.mem_cons, List.mem_singleton, not_or] at ha
    refine (State.reg_setReg_other _ _ ha.1).trans (Eq.trans ?_ (regs a ha.1))
    exact State.reg_bump_other u ha.2

end Retire

/-- Settles O44: a clean line moves the patrol on, the last one ends its pass, and a retired page keeps its data. -/
theorem sampleMemoryUpkeep : Obligations.SampleMemoryUpkeep := by
  unfold Obligations.SampleMemoryUpkeep
  exact fun s o0 o1 page => ⟨scrubLine_idle, fun busy patrol good unarmed => ⟨scrubLine_next busy patrol good unarmed, scrubLine_last busy patrol good unarmed⟩,
    pageRetireDone_nothing, fun e => pageRetireDone_ends⟩

end Sys2Proof.Machine
end

section
/-! PROOFS. O42: write-backs, the test mode, the region attributes and the background test. -/

namespace Sys2Proof.Machine

/-! ### Write-backs, test mode and attributes (R295, R301, R302) -/

section Upkeep

variable {s : State} {path : Path} {v : Word} {w : BitVec 21}

theorem concourseWriteback_writes (h : w.toNat ∈ s.ctl.writeBack) : Completes (.concourseWriteback w) s (fun t =>
    w.toNat ∉ t.ctl.writeBack ∧
    t = { s with pmu := t.pmu, ctl := { s.ctl with writeBack := s.ctl.writeBack.filter (fun k => decide (k ≠ w.toNat)) } }) := by
  refine ⟨_, if_pos (by simpa using h), fun h => ?_, rfl⟩
  exact of_decide_eq_true (List.mem_filter.1 h).2 rfl

theorem concourseWriteback_nothing (h : w.toNat ∉ s.ctl.writeBack) : Completes (.concourseWriteback w) s (fun t => t = s) :=
  ⟨s, if_neg (by simpa using h), rfl⟩

theorem State.conRefuse_refused (s : State) : Refused s s.conRefuse Reg.CON_STAT 31 Page.con :=
  s.refused_of_flag (by decide) (by decide) (by decide)

theorem exec_testModeWrite (opens : s.writable Reg.CON_CTRL = true) :
    exec (.testModeWrite path v) s = .next (actConCtrl s (rowAt Reg.CON_CTRL) (s.reg Reg.CON_CTRL) v) := by
  change execTestModeWrite path v s = _
  rw [execTestModeWrite, State.hostWrite_of_writable opens]

/-- What bars the test mode. -/
def State.testBarred (s : State) (v : Word) : Prop := fieldOf v 0 1 = 1 ∧ s.fld Reg.CON_CTRL 0 1 = 0 ∧ (s.run = true ∨ s.inService ≠ [])

theorem testModeWrite_refused (opens : s.writable Reg.CON_CTRL = true) (barred : s.testBarred v) :
    Completes (.testModeWrite path v) s (fun t => Refused s t Reg.CON_STAT 31 Page.con) := by
  obtain ⟨set, was, busy⟩ := barred
  exact ⟨_, (exec_testModeWrite opens).trans (congrArg _ (if_pos ⟨set, was, busy.imp id List.isEmpty_eq_false_iff.2⟩)), s.conRefuse_refused⟩

theorem State.showMode_regs (s : State) : OnlyRegs s s.showMode [Reg.CON_STAT] := by
  unfold State.showMode
  split
  · exact OnlyRegs.refl s _
  · exact onlyRegs_setReg ..

theorem State.conMode_showMode {s : State} (done : s.bootState = 6) : s.showMode.conMode = if s.bit Reg.CON_CTRL 0 then 2 else 0 := by
  rw [State.showMode, if_neg (not_not_intro done), State.conMode, State.fld_setFld_same _ _ _ (by decide)]
  split
  · rfl
  · rfl

theorem testModeWrite_stores (opens : s.writable Reg.CON_CTRL = true) (free : ¬ s.testBarred v) :
    Completes (.testModeWrite path v) s (fun t => t.reg Reg.CON_CTRL = s.stored Reg.CON_CTRL v ∧
      (s.bootState = 6 → t.conMode = if fieldOf (s.stored Reg.CON_CTRL v) 0 1 = 1 then 2 else 0) ∧
      OnlyRegs s t [Reg.CON_CTRL, Reg.CON_STAT]) := by
  have run := (exec_testModeWrite (path := path) opens).trans (congrArg Host.Outcome.next (if_neg (fun h => free ⟨h.1, h.2.1,
    h.2.2.imp id List.isEmpty_eq_false_iff.1⟩)))
  have stored : (rowAt Reg.CON_CTRL).store (s.reg Reg.CON_CTRL) v = s.stored Reg.CON_CTRL v := rfl
  rw [stored] at run
  generalize s.stored Reg.CON_CTRL v = new at *
  have written : OnlyRegs s (s.setReg Reg.CON_CTRL new) [Reg.CON_CTRL] := onlyRegs_setReg ..
  have holds : (s.setReg Reg.CON_CTRL new).reg Reg.CON_CTRL = new := State.reg_setReg_same ..
  refine ⟨_, run, ?_⟩
  generalize s.setReg Reg.CON_CTRL new = u at *
  refine ⟨(u.showMode_regs.2 _ (by decide)).trans holds, fun done => ?_, (written.trans u.showMode_regs).mono (by decide)⟩
  rw [State.conMode_showMode (by rw [State.bootState, written.onlyReports.fld (by decide)]; exact done), State.bit, holds]
  simp only [decide_eq_true_eq]

theorem exec_attributeWrite {i : Fin 64} (opens : s.writable (Reg.CON_ATTR i) = true) :
    exec (.attributeWrite path i v) s = .next (actConAttr i s (rowAt (Reg.CON_ATTR i)) (s.reg (Reg.CON_ATTR i)) v) := by
  change execAttributeWrite path i v s = _
  rw [execAttributeWrite, State.hostWrite_of_writable opens]

theorem reserved_iff : (List.range 8).any (fun e => decide (fieldOf v (4 * e) 2 = 3)) = true ↔ ∃ e, e < 8 ∧ fieldOf v (4 * e) 2 = 3 := by
  simp only [List.any_eq_true, List.mem_range, decide_eq_true_eq]

theorem attributeWrite_refused {i : Fin 64} (opens : s.writable (Reg.CON_ATTR i) = true) (reserved : ∃ e, e < 8 ∧ fieldOf v (4 * e) 2 = 3) :
    Completes (.attributeWrite path i v) s (fun t => Refused s t Reg.CON_STAT 31 Page.con) :=
  ⟨_, (exec_attributeWrite opens).trans (congrArg _ (if_pos (reserved_iff.2 reserved))), s.conRefuse_refused⟩

theorem attributeWrite_stores {i : Fin 64} (opens : s.writable (Reg.CON_ATTR i) = true) (plain : ¬ ∃ e, e < 8 ∧ fieldOf v (4 * e) 2 = 3) :
    Stores (.attributeWrite path i v) s (Reg.CON_ATTR i) v :=
  stores_of_exec ((exec_attributeWrite opens).trans (congrArg _ (if_neg (fun h => plain (reserved_iff.1 h)))))

end Upkeep

/-! ### The background test (R305, R306, R308) -/

section Test

variable {s : State}

/-- No region is to be borrowed now. -/
def State.testOff (s : State) : Prop :=
  s.bit Reg.CON_CTRL 8 = false ∨ s.conMode ≠ 0 ∨ s.pageOn Page.con = false ∨ s.ctl.btBorrow ≠ none ∨ s.running = false ∨ s.offset ≠ 0 ∨
    s.period < s.ctl.btWait ∨ s.powerState ≠ 0

theorem State.testOff_iff (s : State) : s.testOff ↔ s.bit Reg.CON_CTRL 8 = false ∨ s.conMode ≠ 0 ∨ s.pageOn Page.con = false ∨
    s.ctl.btBorrow.isSome ∨ s.running = false ∨ s.offset ≠ 0 ∨ s.period < s.ctl.btWait ∨ s.powerState ≠ 0 := by
  rw [State.testOff, Option.isSome_iff_ne_none]

theorem backgroundTestStart_off (off : s.testOff) : Completes .backgroundTestStart s (fun t => t = s) :=
  ⟨s, if_pos (s.testOff_iff.1 off), rfl⟩

/-- The region at `pos` is borrowed in this period. -/
def State.borrowing (s : State) : State :=
  { s with ctl := { s.ctl with btWait := s.period + s.fld Reg.CON_CTRL 16 8 + 1, btStart := s.period } }

/-- The region at a position is borrowed. -/
def State.borrow (s : State) (pos : Nat) : State :=
  { s.setBtPos pos 2 with ctl := { (s.setBtPos pos 2).ctl with btBorrow := some (pos / 128, pos % 128) } }

/-- The region found first from the test position on. -/
def State.firstRegion (s : State) : Option Nat := (List.range 128).find? (fun k => !s.noBorrow ((s.btPos + k) % 128))

theorem State.firstRegion_here {s : State} (free : s.noBorrow (s.btPos % 128) = false) : s.firstRegion = some 0 := by
  unfold State.firstRegion
  rw [List.find?_range_eq_some]
  refine ⟨?_, List.mem_range.2 (by decide), fun j hj => absurd hj (Nat.not_lt_zero j)⟩
  rw [Nat.add_zero, free]
  rfl

theorem exec_backgroundTestStart (on : ¬ s.testOff) : exec .backgroundTestStart s = match s.firstRegion with
    | none => .next s.borrowing
    | some k => .next (s.borrowing.borrow ((s.btPos + k) % 9472)) := by
  change execBackgroundTestStart s = _
  unfold execBackgroundTestStart
  exact if_neg (fun h => on (s.testOff_iff.2 h))

theorem backgroundTestStart_here (on : ¬ s.testOff) (inside : s.btPos < 9472) (free : s.noBorrow (s.btPos % 128) = false) :
    exec .backgroundTestStart s = .next (s.borrowing.borrow s.btPos) := by
  have here : (s.btPos + 0) % 9472 = s.btPos := Nat.mod_eq_of_lt inside
  rw [exec_backgroundTestStart on, State.firstRegion_here free]
  exact congrArg (fun p => Host.Outcome.next (s.borrowing.borrow p)) here

/-- The word of CON_BT_POS. -/
def btWord (pos step : Nat) : Word := BitVec.ofNat 32 (2 ^ 16 * step + 2 ^ 8 * (pos / 128 % 74) + pos % 128)

theorem State.setBtPos_eq (s : State) (pos step : Nat) : s.setBtPos pos step = s.setReg Reg.CON_BT_POS (btWord pos step) := rfl

theorem btWord_toNat (pos : Nat) {step : Nat} (h : step < 4) : (btWord pos step).toNat = 2 ^ 16 * step + 2 ^ 8 * (pos / 128 % 74) + pos % 128 := by
  have := Nat.mod_lt (pos / 128) (show 0 < 74 by decide)
  have := Nat.mod_lt pos (show 0 < 128 by decide)
  rw [btWord, BitVec.toNat_ofNat]
  exact Nat.mod_eq_of_lt (by omega)

theorem fieldOf_btWord {pos step : Nat} (h : step < 4) : fieldOf (btWord pos step) 16 2 = step := by
  have := Nat.mod_lt (pos / 128) (show 0 < 74 by decide)
  have := Nat.mod_lt pos (show 0 < 128 by decide)
  rw [fieldOf, btWord_toNat pos h]
  unfold bitsOf
  omega

theorem State.btPos_setBtPos (s : State) {pos step : Nat} (inside : pos < 9472) (h : step < 4) : (s.setBtPos pos step).btPos = pos := by
  unfold State.btPos State.fld
  rw [State.setBtPos_eq, State.reg_setReg_same]
  unfold fieldOf
  rw [btWord_toNat pos h]
  unfold bitsOf
  omega

theorem backgroundTestStart_borrows (on : ¬ s.testOff) (inside : s.btPos < 9472) (free : s.noBorrow (s.btPos % 128) = false) :
    Completes .backgroundTestStart s (fun t => t.fld Reg.CON_BT_POS 16 2 = 2 ∧ t.btPos = s.btPos ∧
      t = { s with regs := t.regs, ctl := { s.ctl with
        btWait := s.period + s.fld Reg.CON_CTRL 16 8 + 1, btStart := s.period, btBorrow := some (s.btPos / 128, s.btPos % 128) } } ∧
      KeepsRegs s t [Reg.CON_BT_POS]) := by
  refine ⟨_, backgroundTestStart_here on inside free, ?_, s.borrowing.btPos_setBtPos inside (by decide), rfl, (onlyRegs_setReg s.borrowing ..).2⟩
  exact (congrArg (fun w => fieldOf w 16 2) (s.borrowing.reg_setReg_same Reg.CON_BT_POS (btWord s.btPos 2))).trans (fieldOf_btWord (by decide))

theorem marchDone_none (none : s.ctl.btBorrow = none) (fail : Option (Fin 256 × Fin 137)) : Completes (.marchDone fail) s (fun t => t = s) := by
  refine ⟨s, ?_, rfl⟩
  change execMarchDone fail s = _
  rw [execMarchDone, none]

theorem backgroundTestTimeout_none (none : s.ctl.btBorrow = none) : Completes .backgroundTestTimeout s (fun t => t = s) :=
  ⟨s, if_pos (Or.inl (by rw [none]; rfl)), rfl⟩

/-- The March over region `q` of bank `b` ends in `u`. -/
def State.marched (u : State) (b q : Nat) : State :=
  { ((u.bump Reg.CON_BT_REGION_CNT).count 456 1).setBtPos ((128 * b + q + 1) % 9472) 0 with ctl := { u.ctl with btBorrow := none } }

theorem exec_marchDone {r : Nat × Nat} (h : s.ctl.btBorrow = some r) (fail : Option (Fin 256 × Fin 137)) :
    exec (.marchDone fail) s = .next ((s.marchOver r.1 r.2 (fail.map (fun x => (x.1.val, x.2.val)))).1.marched r.1 r.2) := by
  change execMarchDone fail s = _
  rw [execMarchDone, h]
  rfl

theorem State.marchOver_clean (unarmed : s.bit (Reg.PAGE_ERR_INJ Page.con) 30 = false) (b q : Nat) : s.marchOver b q none = (s, false) := by
  unfold State.marchOver
  rw [State.check_unarmed unarmed]
  rfl

theorem State.marchOver_fails (s : State) (b q word bit : Nat) :
    s.marchOver b q (some (word, bit)) = (s.marchFailure b q word bit false, true) := rfl

theorem State.marched_regs (u : State) (b q : Nat) : KeepsRegs u (u.marched b q) [Reg.CON_BT_REGION_CNT, Reg.CON_BT_POS] :=
  ((onlyReports_bump u Reg.CON_BT_REGION_CNT).trans ((onlyReports_count (u.bump Reg.CON_BT_REGION_CNT) 456 1).trans
    (onlyReports_setReg _ Reg.CON_BT_POS _))).2

theorem State.marched_counted (u : State) (b q : Nat) : Counted u (u.marched b q) Reg.CON_BT_REGION_CNT := by
  refine (counted_bump u Reg.CON_BT_REGION_CNT).of_reg_eq_after ?_
  exact (State.reg_setReg_other _ _ (by decide)).trans (State.reg_count ..)

theorem marchDone_clean {r : Nat × Nat} (h : s.ctl.btBorrow = some r) (unarmed : s.bit (Reg.PAGE_ERR_INJ Page.con) 30 = false) :
    Completes (.marchDone none) s (fun t => t.ctl = { s.ctl with btBorrow := none } ∧ Counted s t Reg.CON_BT_REGION_CNT ∧
      t.btPos = (128 * r.1 + r.2 + 1) % 9472 ∧ t = { s with regs := t.regs, pmu := t.pmu, ctl := t.ctl } ∧
      KeepsRegs s t [Reg.CON_BT_REGION_CNT, Reg.CON_BT_POS]) := by
  have run := exec_marchDone h none
  rw [Option.map_none, State.marchOver_clean unarmed] at run
  refine ⟨_, run, rfl, s.marched_counted _ _, ?_, rfl, s.marched_regs _ _⟩
  exact State.btPos_setBtPos _ (Nat.mod_lt _ (by decide)) (by decide)

/-! ### A failing cell (R308, R375) -/

theorem State.queueRebuild_eq (s : State) (b : Nat) : s.queueRebuild b = { s with ctl := (s.queueRebuild b).ctl } := by
  unfold State.queueRebuild
  split
  · rfl
  · rfl

/-- The cell is logged, shown, counted and reported. -/
def State.cellFailed (s : State) (b q word bit : Nat) : State :=
  (((s.logError 0x1303 b (128 * b + q) false).setReg Reg.CON_BT_FAIL
    (BitVec.ofNat 32 (2 ^ 31 + 2 ^ 24 * b + 2 ^ 17 * q + 2 ^ 9 * word + bit))).bump Reg.CON_BT_FAIL_CNT).raise Page.con 4

/-- Registers that a failing cell changes. -/
def cellRegs : List Nat := logRegs ++ [Reg.CON_BT_FAIL, Reg.CON_BT_FAIL_CNT] ++ raiseRegs Page.con

theorem State.cellFailed_reports (s : State) (b q word bit : Nat) : OnlyReports s (s.cellFailed b q word bit) cellRegs := by
  refine ((((onlyReports_logError s 0x1303 b (128 * b + q) false).trans (onlyReports_setReg _ Reg.CON_BT_FAIL _)).trans
    (onlyReports_bump _ Reg.CON_BT_FAIL_CNT)).trans (onlyReports_raise _ Page.con 4)).mono ?_
  unfold cellRegs
  intro a ha
  simp only [List.mem_append, List.mem_cons, List.not_mem_nil, or_false] at ha ⊢
  tauto

theorem State.cellFailed_shows (s : State) (b q word bit : Nat) :
    (s.cellFailed b q word bit).reg Reg.CON_BT_FAIL = BitVec.ofNat 32 (2 ^ 31 + 2 ^ 24 * b + 2 ^ 17 * q + 2 ^ 9 * word + bit) ∧
    Counted s (s.cellFailed b q word bit) Reg.CON_BT_FAIL_CNT ∧ Counted s (s.cellFailed b q word bit) Reg.ERR_LOG_CNT ∧
    (s.cellFailed b q word bit).bit (Reg.PAGE_IRQ_STAT Page.con) 4 = true := by
  unfold State.cellFailed
  refine ⟨?_, ?_, ?_, State.bit_raise_same _ _ (by decide)⟩
  · rw [State.reg_raise _ (by decide), State.reg_bump_other _ (by decide), State.reg_setReg_same]
  · refine ((counted_bump _ Reg.CON_BT_FAIL_CNT).of_reg_eq ?_).of_reg_eq_after (State.reg_raise _ (by decide) _)
    rw [State.reg_setReg_other _ _ (by decide), State.reg_logError _ (by decide)]
  · refine (counted_logError s 0x1303 b (128 * b + q) false).of_reg_eq_after ?_
    rw [State.reg_raise _ (by decide), State.reg_bump_other _ (by decide), State.reg_setReg_other _ _ (by decide)]

theorem State.marchFailure_eq (s : State) (b q word bit : Nat) :
    s.marchFailure b q word bit false = { s.cellFailed b q word bit with ctl := (s.marchFailure b q word bit false).ctl } := by
  have same : s.marchFailure b q word bit false =
      if s.bankState b = 0 then (s.cellFailed b q word bit).queueRebuild b else s.cellFailed b q word bit := rfl
  rw [same]
  generalize s.cellFailed b q word bit = t
  split
  · exact t.queueRebuild_eq b
  · rfl

theorem State.marchFailure_reg (s : State) (b q word bit a : Nat) :
    (s.marchFailure b q word bit false).reg a = (s.cellFailed b q word bit).reg a := by
  rw [s.marchFailure_eq, State.reg, State.reg]

theorem State.marchFailure_con (s : State) (b q word bit : Nat) : (s.marchFailure b q word bit false).con = s.con := by
  have same := s.marchFailure_eq b q word bit
  have reports := s.cellFailed_reports b q word bit
  generalize s.marchFailure b q word bit false = u at same ⊢
  generalize s.cellFailed b q word bit = c at same reports
  rw [same]
  exact OnlyReports.con (t := c) reports

theorem marchDone_fails {r : Nat × Nat} (h : s.ctl.btBorrow = some r) (word : Fin 256) (bit : Fin 137) :
    Completes (.marchDone (some (word, bit))) s (fun t => t.ctl.btBorrow = none ∧ Counted s t Reg.CON_BT_REGION_CNT ∧
      Counted s t Reg.CON_BT_FAIL_CNT ∧ Counted s t Reg.ERR_LOG_CNT ∧ t.bit (Reg.PAGE_IRQ_STAT Page.con) 4 = true ∧
      t.reg Reg.CON_BT_FAIL = BitVec.ofNat 32 (2 ^ 31 + 2 ^ 24 * r.1 + 2 ^ 17 * r.2 + 2 ^ 9 * word + bit) ∧ KeepsCon s t 0 0) := by
  have run := exec_marchDone h (some (word, bit))
  rw [Option.map_some, State.marchOver_fails] at run
  obtain ⟨cell, fails, logged, irq⟩ := s.cellFailed_shows r.1 r.2 word bit
  have reports := s.cellFailed_reports r.1 r.2 word bit
  have same := s.marchFailure_reg r.1 r.2 word bit
  have con := s.marchFailure_con r.1 r.2 word bit
  refine ⟨_, run, rfl, ?_⟩
  generalize s.marchFailure r.1 r.2 word bit false = u at *
  generalize s.cellFailed r.1 r.2 word bit = c at *
  have kept := u.marched_regs r.1 r.2
  have counted := u.marched_counted r.1 r.2
  have con' : (u.marched r.1 r.2).con = u.con := rfl
  generalize u.marched r.1 r.2 = t at *
  have after : ∀ a, a ∉ [Reg.CON_BT_REGION_CNT, Reg.CON_BT_POS] → t.reg a = c.reg a := fun a ha => (kept a ha).trans (same a)
  refine ⟨counted.of_reg_eq ((same _).trans (reports.reg (by decide))), fails.of_reg_eq_after (after _ (by decide)),
    logged.of_reg_eq_after (after _ (by decide)), ?_, (after _ (by decide)).trans cell, fun x _ => ?_⟩
  · rw [State.bit_of_reg (after _ (by decide)), irq]
  · exact State.conByte_congr (con'.trans con) x

/-- The March is given up. -/
def State.testAborted (s : State) : State :=
  { (s.setFld Reg.CON_BT_POS 16 2 0).bump Reg.CON_BT_ABORT_CNT with ctl := { s.ctl with btBorrow := none } }

theorem backgroundTestTimeout_aborts {r : Nat × Nat} (h : s.ctl.btBorrow = some r) (late : s.running = false ∨ s.ctl.btStart < s.period) :
    Completes .backgroundTestTimeout s (fun t => t.ctl = { s.ctl with btBorrow := none } ∧
      t.fld Reg.CON_BT_POS 16 2 = 0 ∧ Counted s t Reg.CON_BT_ABORT_CNT ∧ t = { s with regs := t.regs, ctl := t.ctl } ∧
      KeepsRegs s t [Reg.CON_BT_POS, Reg.CON_BT_ABORT_CNT]) := by
  have busy : ¬ (s.ctl.btBorrow.isNone = true ∨ (s.running = true ∧ s.period ≤ s.ctl.btStart)) := by
    rw [h]
    rintro (none | ⟨runs, early⟩)
    · exact Bool.noConfusion none
    · exact late.elim (fun still => by rw [runs] at still; exact Bool.noConfusion still) (fun past => absurd early (Nat.not_le.2 past))
  have run : exec .backgroundTestTimeout s = .next s.testAborted := by
    change execBackgroundTestTimeout s = _
    unfold execBackgroundTestTimeout
    exact if_neg busy
  have frame : OnlyRegs s ((s.setFld Reg.CON_BT_POS 16 2 0).bump Reg.CON_BT_ABORT_CNT) [Reg.CON_BT_POS, Reg.CON_BT_ABORT_CNT] :=
    ((onlyRegs_setReg s Reg.CON_BT_POS _).trans (onlyRegs_setReg _ Reg.CON_BT_ABORT_CNT _)).mono (by decide)
  have step : ((s.setFld Reg.CON_BT_POS 16 2 0).bump Reg.CON_BT_ABORT_CNT).fld Reg.CON_BT_POS 16 2 = 0 :=
    (State.fld_setReg_other _ _ _ _ (by decide)).trans (State.fld_setFld_same s _ 0 (by decide))
  have counted := (counted_bump (s.setFld Reg.CON_BT_POS 16 2 0) Reg.CON_BT_ABORT_CNT).of_reg_eq (s := s) (State.reg_setReg_other _ _ (by decide))
  unfold State.testAborted at run
  generalize (s.setFld Reg.CON_BT_POS 16 2 0).bump Reg.CON_BT_ABORT_CNT = u at *
  exact ⟨_, run, rfl, step, counted, by rw [frame.1], frame.2⟩

end Test

/-- Settles O42: each of the tester's events by whether a region is borrowed, and each write by what bars it. -/
theorem concourseUpkeep : Obligations.ConcourseUpkeep := by
  unfold Obligations.ConcourseUpkeep
  exact ⟨fun s path v i w => ⟨concourseWriteback_writes, concourseWriteback_nothing,
      fun opens => ⟨testModeWrite_refused opens, testModeWrite_stores opens⟩, fun opens => ⟨attributeWrite_refused opens, attributeWrite_stores opens⟩⟩,
    fun s word bit => ⟨backgroundTestStart_off, backgroundTestStart_borrows,
      fun none => ⟨marchDone_none none _, backgroundTestTimeout_none none⟩,
      fun r h _ _ unarmed => ⟨marchDone_clean h unarmed, marchDone_fails h word bit, backgroundTestTimeout_aborts h⟩⟩⟩

end Sys2Proof.Machine
end

section
/-! PROOFS. O43: rebuild rows, the commit of a rebuild, and the return of a bank. -/

namespace Sys2Proof.Machine

/-! ### The state of a bank (R309) -/

theorem conBank_ne_conStat (b : Nat) : Reg.CON_BANK b ≠ Reg.CON_STAT := by unfold Reg.CON_BANK Reg.CON_STAT; omega

theorem conBank_ne_rbStat (b : Nat) : Reg.CON_BANK b ≠ Reg.CON_RB_STAT := by unfold Reg.CON_BANK Reg.CON_RB_STAT; omega

theorem conBank_inj {b c : Nat} (h : b ≠ c) : Reg.CON_BANK b ≠ Reg.CON_BANK c := by unfold Reg.CON_BANK; omega

theorem conBank_notMem_raise {b : Nat} (h : b < 74) : Reg.CON_BANK b ∉ raiseRegs Page.con := by
  simp only [raiseRegs, List.mem_cons, List.not_mem_nil, or_false, Reg.CON_BANK, Reg.PAGE_IRQ_STAT, Reg.MSIX_PBA, Page.con]
  omega

/-- The three fields of a bank's register that place it. -/
def State.placeBank (s : State) (b st g j : Nat) : State :=
  ((s.setFld (Reg.CON_BANK b) 29 3 st).setFld (Reg.CON_BANK b) 24 4 g).setFld (Reg.CON_BANK b) 16 4 j

theorem State.setBank_eq (s : State) (b st g j : Nat) :
    ∃ n, s.setBank b st g j = (s.placeBank b st g j).setFld Reg.CON_STAT 4 2 n := ⟨_, rfl⟩

theorem State.setBank_regs (s : State) (b st g j : Nat) : OnlyRegs s (s.setBank b st g j) [Reg.CON_BANK b, Reg.CON_STAT] := by
  obtain ⟨n, e⟩ := s.setBank_eq b st g j
  rw [e]
  exact ((((onlyRegs_setReg s (Reg.CON_BANK b) _).trans (onlyRegs_setReg _ (Reg.CON_BANK b) _)).trans
    (onlyRegs_setReg _ (Reg.CON_BANK b) _)).trans (onlyRegs_setReg _ Reg.CON_STAT _)).mono (by simp)

theorem State.setBank_fld (s : State) (b st g j lo w : Nat) :
    (s.setBank b st g j).fld (Reg.CON_BANK b) lo w = (s.placeBank b st g j).fld (Reg.CON_BANK b) lo w := by
  obtain ⟨n, e⟩ := s.setBank_eq b st g j
  rw [e, State.setFld, State.fld_setReg_other _ _ _ _ (conBank_ne_conStat b)]

theorem State.bankState_setBank (s : State) (b : Nat) {st : Nat} (h : st < 8) (g j : Nat) : (s.setBank b st g j).bankState b = st := by
  rw [State.bankState, State.setBank_fld, State.placeBank, State.fld_setFld_apart _ _ _ (by decide), State.fld_setFld_apart _ _ _ (by decide),
    State.fld_setFld_same _ _ _ (by decide)]
  exact Nat.mod_eq_of_lt h

theorem State.group_setBank (s : State) (b st : Nat) {g : Nat} (h : g < 16) (j : Nat) : (s.setBank b st g j).fld (Reg.CON_BANK b) 24 4 = g := by
  rw [State.setBank_fld, State.placeBank, State.fld_setFld_apart _ _ _ (by decide), State.fld_setFld_same _ _ _ (by decide)]
  exact Nat.mod_eq_of_lt h

theorem State.pos_setBank (s : State) (b st g : Nat) {j : Nat} (h : j < 16) : (s.setBank b st g j).fld (Reg.CON_BANK b) 16 4 = j := by
  rw [State.setBank_fld, State.placeBank, State.fld_setFld_same _ _ _ (by decide)]
  exact Nat.mod_eq_of_lt h

/-! ### Rows (R309, R311) -/

section Rows

variable {s : State}

theorem rebuildRow_idle (off : s.bit Reg.CON_RB_STAT 31 = false) (redo : Bool) : Completes (.rebuildRow redo []) s (fun t => t = s) :=
  ⟨s, if_pos off, rfl⟩

theorem rebuildRow_redo (on : s.bit Reg.CON_RB_STAT 31 = true) : Completes (.rebuildRow true []) s (fun t =>
    Counted s t Reg.CON_RB_REDO_CNT ∧ OnlyRegs s t [Reg.CON_RB_REDO_CNT]) := by
  have run : exec (.rebuildRow true []) s = .next (s.bump Reg.CON_RB_REDO_CNT) := by
    change execRebuildRow true [] s = _
    rw [execRebuildRow, on, if_neg Bool.noConfusion, if_pos rfl]
  exact ⟨_, run, counted_bump .., onlyRegs_setReg ..⟩

/-- What one more word of the row, clean by its check bits, shows to the engine. -/
def State.readWord (g row j : Nat) (acc : State × Bool) (i : Nat) : State × Bool :=
  if i = j then acc
  else match dataAddr g row i with
    | some a => if (acc.1.count 452 1).ctl.bad.contains (a / 16) then ((acc.1.count 452 1).conUe 46 a false, true)
      else (acc.1.count 452 1, acc.2)
    | none => if (acc.1.count 452 1).ctl.badParity.contains (32768 * g + row) then
        ((acc.1.count 452 1).conUe 46 (1024 * row + 128 * g) false, true)
      else (acc.1.count 452 1, acc.2)

theorem State.rebuildReads_eq (s : State) (g row j : Nat) : s.rebuildReads g row j [] = (List.range 9).foldl (State.readWord g row j) (s, false) := by
  unfold State.rebuildReads State.readWord
  simp only [List.find?_nil, Option.map_none, Option.getD_none, reduceCtorEq, or_false, if_false] <;> rfl

/-- With no word that is lost, a word that the engine reads is only counted. -/
theorem State.readWord_clean {acc : State × Bool} (bad : acc.1.ctl.bad = []) (parity : acc.1.ctl.badParity = []) (g row j i : Nat) :
    PmuOnly acc.1 (State.readWord g row j acc i).1 ∧ (State.readWord g row j acc i).2 = acc.2 := by
  have bad' : (acc.1.count 452 1).ctl.bad = [] := bad
  have parity' : (acc.1.count 452 1).ctl.badParity = [] := parity
  unfold State.readWord
  rw [bad', parity']
  split
  · exact ⟨PmuOnly.refl _, rfl⟩
  · split
    · exact ⟨PmuOnly.count .., rfl⟩
    · exact ⟨PmuOnly.count .., rfl⟩

theorem State.rebuildReads_clean {s : State} (bad : s.ctl.bad = []) (parity : s.ctl.badParity = []) (g row j : Nat) :
    PmuOnly s (s.rebuildReads g row j []).1 ∧ (s.rebuildReads g row j []).2 = false := by
  rw [State.rebuildReads_eq]
  have fold : ∀ (l : List Nat) (acc : State × Bool), acc.1.ctl.bad = [] → acc.1.ctl.badParity = [] →
      PmuOnly acc.1 (l.foldl (State.readWord g row j) acc).1 ∧ (l.foldl (State.readWord g row j) acc).2 = acc.2 := by
    intro l
    induction l with
    | nil => exact fun acc _ _ => ⟨PmuOnly.refl _, rfl⟩
    | cons i l ih =>
      intro acc bad parity
      obtain ⟨counted, same⟩ := State.readWord_clean bad parity g row j i
      have ctl : (State.readWord g row j acc i).1.ctl = acc.1.ctl := by rw [counted]
      obtain ⟨rest, flag⟩ := ih (State.readWord g row j acc i) (by rw [ctl, bad]) (by rw [ctl, parity])
      exact ⟨counted.trans rest, flag.trans same⟩
  exact fold _ (s, false) bad parity

/-- The row of the rebuild in progress, and the position that it puts together. -/
def State.rebuildAt (s : State) : Nat := s.fld Reg.CON_RB_STAT 0 15

/-- The row has been copied. -/
def State.rowCopied (s : State) : State :=
  ((s.rebuildReads (s.fld Reg.CON_RB_STAT 20 4) s.rebuildAt (s.fld Reg.CON_RB_STAT 16 4) []).1.count 452 1).setFld Reg.SVC_PROG 0 7
    ((s.rebuildAt + 1) * 100 / 32768)

theorem State.rebuildAt_lt (s : State) : s.rebuildAt < 2 ^ 15 := s.fld_lt ..

theorem State.rowCopied_reports {s : State} (bad : s.ctl.bad = []) (parity : s.ctl.badParity = []) :
    s.rowCopied = { s with regs := s.rowCopied.regs, pmu := s.rowCopied.pmu } ∧ KeepsRegs s s.rowCopied [Reg.SVC_PROG] ∧
    s.rowCopied.fld Reg.SVC_PROG 0 7 = (s.rebuildAt + 1) * 100 / 32768 := by
  obtain ⟨counted, _⟩ := State.rebuildReads_clean bad parity (s.fld Reg.CON_RB_STAT 20 4) s.rebuildAt (s.fld Reg.CON_RB_STAT 16 4)
  have last := s.rebuildAt_lt
  unfold State.rowCopied
  generalize (s.rebuildReads (s.fld Reg.CON_RB_STAT 20 4) s.rebuildAt (s.fld Reg.CON_RB_STAT 16 4) []).1 = u at *
  have counted' := counted.trans (PmuOnly.count u 452 1)
  generalize u.count 452 1 = c at *
  have written : OnlyRegs c (c.setFld Reg.SVC_PROG 0 7 ((s.rebuildAt + 1) * 100 / 32768)) [Reg.SVC_PROG] := onlyRegs_setReg ..
  refine ⟨?_, fun a ha => (written.2 a ha).trans (counted'.reg a), ?_⟩
  · generalize c.setFld Reg.SVC_PROG 0 7 ((s.rebuildAt + 1) * 100 / 32768) = t at *
    rw [written.1, counted']
  · rw [State.fld_setFld_same _ _ _ (by decide)]
    exact Nat.mod_eq_of_lt (by omega)

theorem exec_rebuildRow (on : s.bit Reg.CON_RB_STAT 31 = true) (bad : s.ctl.bad = []) (parity : s.ctl.badParity = []) :
    exec (.rebuildRow false []) s = .next (if s.rebuildAt = 32767 then s.rowCopied.commitRebuild
      else s.rowCopied.setFld Reg.CON_RB_STAT 0 15 (s.rebuildAt + 1)) := by
  obtain ⟨_, whole⟩ := State.rebuildReads_clean bad parity (s.fld Reg.CON_RB_STAT 20 4) s.rebuildAt (s.fld Reg.CON_RB_STAT 16 4)
  change execRebuildRow false [] s = _
  unfold execRebuildRow State.rowCopied
  rw [on, if_neg Bool.noConfusion, if_neg Bool.noConfusion]
  unfold State.rebuildAt at *
  dsimp only
  rw [whole]
  rfl

theorem rebuildRow_next (on : s.bit Reg.CON_RB_STAT 31 = true) (bad : s.ctl.bad = []) (parity : s.ctl.badParity = []) (inside : s.rebuildAt < 32767) :
    Completes (.rebuildRow false []) s (fun t => t.fld Reg.CON_RB_STAT 0 15 = s.rebuildAt + 1 ∧
      t.fld Reg.CON_RB_STAT 16 16 = s.fld Reg.CON_RB_STAT 16 16 ∧ t.fld Reg.SVC_PROG 0 7 = (s.rebuildAt + 1) * 100 / 32768 ∧
      t = { s with regs := t.regs, pmu := t.pmu } ∧ KeepsRegs s t [Reg.CON_RB_STAT, Reg.SVC_PROG]) := by
  have run := (exec_rebuildRow on bad parity).trans (congrArg Host.Outcome.next (if_neg (Nat.ne_of_lt inside)))
  obtain ⟨rest, regs, prog⟩ := State.rowCopied_reports bad parity
  refine ⟨_, run, ?_⟩
  generalize s.rowCopied = u at *
  have written : OnlyRegs u (u.setFld Reg.CON_RB_STAT 0 15 (s.rebuildAt + 1)) [Reg.CON_RB_STAT] := onlyRegs_setReg ..
  refine ⟨?_, ?_, ?_, ?_, ?_⟩
  · rw [State.fld_setFld_same _ _ _ (by decide)]
    exact Nat.mod_eq_of_lt (by omega)
  · rw [State.fld_setFld_apart _ _ _ (by decide)]
    exact State.fld_of_reg (regs _ (by decide)) 16 16
  · rw [written.onlyReports.fld (by decide), prog]
  · generalize u.setFld Reg.CON_RB_STAT 0 15 (s.rebuildAt + 1) = t at *
    rw [written.1, rest]
  · exact (KeepsRegs.trans regs written.2).mono (by decide)

/-! ### The commit (R311) -/

/-- What the commit makes of the controller's lists. -/
def State.rebuilt (s : State) : State :=
  let inBank := fun (w : Nat) => decide (conGroup (16 * w) = s.fld Reg.CON_RB_STAT 20 4) && decide (conPos (16 * w) = s.fld Reg.CON_RB_STAT 16 4)
  let parityIn := fun (k : Nat) => decide (k / 32768 = s.fld Reg.CON_RB_STAT 20 4) && decide (k % 32768 % 9 = s.fld Reg.CON_RB_STAT 16 4)
  { s with ctl := { s.ctl with
    bad := s.ctl.bad.filter (fun w => !inBank w) ++ s.ctl.rbPoison
    badParity := s.ctl.badParity.filter (fun k => !parityIn k) ++ s.ctl.rbParity
    writeBack := s.ctl.writeBack.filter (fun w => !inBank w)
    rbPoison := [], rbParity := [] } }

theorem State.rebuilt_rest (s : State) : s.rebuilt = { s with ctl := s.rebuilt.ctl } := rfl

/-- The bank `target` takes the place `g`, `j` of the bank `old`. -/
def State.swapBanks (s : State) (old target g j : Nat) : State :=
  (((s.setBank old 3 0xF 0).setBank target 0 g j).setFld Reg.CON_STAT 8 4 0xF).setBit Reg.CON_RB_STAT 31 false

/-- The operation of the service port has ended well. -/
def State.serviceDone (s : State) : State := { s with svc := { s.svc with committed := true, finished := true } }

theorem State.serviceDone_reg (s : State) (a : Nat) : s.serviceDone.reg a = s.reg a := rfl

theorem State.serviceDone_con (s : State) : s.serviceDone.con = s.con := rfl

theorem State.serviceDone_svc (s : State) : s.serviceDone.svc = { s.svc with committed := true, finished := true } := rfl

theorem State.commitRebuild_eq (s : State) : s.commitRebuild = ((s.rebuilt.swapBanks s.ctl.rbBank (s.fld Reg.CON_RB_STAT 24 7)
    (s.fld Reg.CON_RB_STAT 20 4) (s.fld Reg.CON_RB_STAT 16 4)).raise Page.con 3).serviceDone := rfl

theorem State.swapBanks_regs (s : State) (old target g j : Nat) :
    OnlyRegs s (s.swapBanks old target g j) [Reg.CON_RB_STAT, Reg.CON_STAT, Reg.CON_BANK target, Reg.CON_BANK old] :=
  ((((s.setBank_regs old 3 0xF 0).trans (State.setBank_regs _ target 0 g j)).trans (onlyRegs_setReg _ Reg.CON_STAT _)).trans
    (onlyRegs_setReg _ Reg.CON_RB_STAT _)).mono (by simp)

theorem State.swapBanks_keeps (s : State) (old target g j b lo w : Nat) :
    (s.swapBanks old target g j).fld (Reg.CON_BANK b) lo w = ((s.setBank old 3 0xF 0).setBank target 0 g j).fld (Reg.CON_BANK b) lo w := by
  rw [State.swapBanks, State.setBit, State.setFld, State.fld_setReg_other _ _ _ _ (conBank_ne_rbStat b), State.setFld,
    State.fld_setReg_other _ _ _ _ (conBank_ne_conStat b)]

theorem State.swapBanks_shows (s : State) {old target g j : Nat} (apart : target ≠ old) (hg : g < 16) (hj : j < 16) :
    (s.swapBanks old target g j).bankState old = 3 ∧ (s.swapBanks old target g j).bankState target = 0 ∧
    (s.swapBanks old target g j).fld (Reg.CON_BANK target) 24 4 = g ∧ (s.swapBanks old target g j).fld (Reg.CON_BANK target) 16 4 = j ∧
    (s.swapBanks old target g j).bit Reg.CON_RB_STAT 31 = false := by
  refine ⟨?_, ?_, ?_, ?_, State.bit_setBit_same _ _ false (by decide)⟩
  · rw [State.bankState, State.swapBanks_keeps, (State.setBank_regs _ target 0 g j).onlyReports.fld
      (by simp [apart.symm, conBank_ne_conStat old])]
    exact State.bankState_setBank _ _ (by decide) _ _
  · rw [State.bankState, State.swapBanks_keeps]
    exact State.bankState_setBank _ _ (by decide) _ _
  · rw [State.swapBanks_keeps, State.group_setBank _ _ _ hg]
  · rw [State.swapBanks_keeps, State.pos_setBank _ _ _ _ hj]

theorem rebuildRow_last (on : s.bit Reg.CON_RB_STAT 31 = true) (bad : s.ctl.bad = []) (parity : s.ctl.badParity = []) (last : s.rebuildAt = 32767)
    (target74 : s.fld Reg.CON_RB_STAT 24 7 < 74) (old : s.ctl.rbBank < 74) (apart : s.fld Reg.CON_RB_STAT 24 7 ≠ s.ctl.rbBank) :
    Completes (.rebuildRow false []) s (fun t => t.bankState s.ctl.rbBank = 3 ∧ t.bankState (s.fld Reg.CON_RB_STAT 24 7) = 0 ∧
      t.fld (Reg.CON_BANK (s.fld Reg.CON_RB_STAT 24 7)) 24 4 = s.fld Reg.CON_RB_STAT 20 4 ∧
      t.fld (Reg.CON_BANK (s.fld Reg.CON_RB_STAT 24 7)) 16 4 = s.fld Reg.CON_RB_STAT 16 4 ∧ t.bit Reg.CON_RB_STAT 31 = false ∧
      t.bit (Reg.PAGE_IRQ_STAT Page.con) 3 = true ∧ t.svc = { s.svc with committed := true, finished := true } ∧ KeepsCon s t 0 0 ∧
      KeepsRegs s t ([Reg.CON_RB_STAT, Reg.SVC_PROG, Reg.CON_STAT, Reg.CON_BANK (s.fld Reg.CON_RB_STAT 24 7), Reg.CON_BANK s.ctl.rbBank] ++
        raiseRegs Page.con)) := by
  have run : exec (.rebuildRow false []) s = .next s.rowCopied.commitRebuild := by rw [exec_rebuildRow on bad parity, if_pos last]
  obtain ⟨rest, regs, _⟩ := State.rowCopied_reports bad parity
  rw [State.commitRebuild_eq] at run
  have copied : ∀ lo w, s.rowCopied.fld Reg.CON_RB_STAT lo w = s.fld Reg.CON_RB_STAT lo w := State.fld_of_reg (regs _ (by decide))
  have bank : s.rowCopied.ctl.rbBank = s.ctl.rbBank := by rw [rest]
  rw [copied, copied, copied, bank] at run
  have hg := s.fld_lt Reg.CON_RB_STAT 20 4
  have hj := s.fld_lt Reg.CON_RB_STAT 16 4
  refine ⟨_, run, ?_⟩
  generalize s.fld Reg.CON_RB_STAT 24 7 = target at *
  generalize s.fld Reg.CON_RB_STAT 20 4 = g at *
  generalize s.fld Reg.CON_RB_STAT 16 4 = j at *
  generalize s.ctl.rbBank = b at *
  have lists := s.rowCopied.rebuilt_rest
  generalize s.rowCopied = u at *
  generalize u.rebuilt = v at *
  obtain ⟨was, now, group, pos, stopped⟩ := v.swapBanks_shows apart hg hj
  have written := v.swapBanks_regs b target g j
  generalize v.swapBanks b target g j = x at *
  have raised := onlyReports_raise x Page.con 3
  have irq := State.bit_raise_same x Page.con (b := 3) (by decide)
  generalize x.raise Page.con 3 = y at *
  have con : y.con = s.con := by rw [raised.con, written.1, lists, rest]
  have svc : y.svc = s.svc := by rw [raised.1, written.1, lists, rest]
  have regs' : ∀ a, v.reg a = u.reg a := fun a => by rw [lists]; rfl
  have done := y.serviceDone_reg
  have fld : ∀ {a}, a ∉ raiseRegs Page.con → ∀ lo w, y.serviceDone.fld a lo w = x.fld a lo w :=
    fun ha lo w => (State.fld_of_reg (done _) lo w).trans (raised.fld ha lo w)
  refine ⟨(fld (conBank_notMem_raise old) 29 3).trans was, (fld (conBank_notMem_raise target74) 29 3).trans now,
    (fld (conBank_notMem_raise target74) 24 4).trans group, (fld (conBank_notMem_raise target74) 16 4).trans pos, ?_, ?_, ?_,
    fun k _ => State.conByte_congr (y.serviceDone_con.trans con) k, ?_⟩
  · exact (State.bit_of_reg (done _) 31).trans ((raised.bit (by decide) 31).trans stopped)
  · exact (State.bit_of_reg (done _) 3).trans irq
  · rw [y.serviceDone_svc, svc]
  · intro a ha
    simp only [List.mem_append, List.mem_cons, List.not_mem_nil, or_false, not_or] at ha
    obtain ⟨⟨hst, hprog, hstat, htarget, hold⟩, hraise⟩ := ha
    exact (done a).trans ((raised.2 a hraise).trans ((written.2 a (by simp [hst, hstat, htarget, hold])).trans
      ((regs' a).trans (regs a (by simpa using hprog)))))

end Rows

/-! ### A bank that returns (R312) -/

section Return

variable {s : State} {b : Nat}

/-- The operation of the service port has ended, well or not. -/
def State.serviceEnds (s : State) (fail : Bool) : State := { s with svc := { s.svc with committed := true, finished := true, fail := fail } }

theorem State.serviceEnds_reg (s : State) (fail : Bool) (a : Nat) : (s.serviceEnds fail).reg a = s.reg a := rfl

theorem State.serviceEnds_con (s : State) (fail : Bool) : (s.serviceEnds fail).con = s.con := rfl

theorem State.serviceEnds_svc (s : State) (fail : Bool) : (s.serviceEnds fail).svc.finished = true ∧ (s.serviceEnds fail).svc.fail = fail := ⟨rfl, rfl⟩

theorem State.serviceEnds_of_regs {s t : State} {l : List Nat} (h : OnlyRegs s t l) (fail : Bool) : t.serviceEnds fail =
    { s with regs := (t.serviceEnds fail).regs, svc := { s.svc with committed := true, finished := true, fail := fail } } := by
  rw [h.1]
  rfl

/-- The March over a returned bank has ended: the bank is in state `st`, and the operation fails or not. -/
def State.bankReturned (s : State) (b st : Nat) (fail : Bool) : State := (s.setBank b st 0xF 0).serviceEnds fail

theorem State.bankReturned_reg (s : State) (b st : Nat) (fail : Bool) (a : Nat) : (s.bankReturned b st fail).reg a = (s.setBank b st 0xF 0).reg a :=
  State.serviceEnds_reg ..

theorem State.bankState_bankReturned (s : State) (b : Nat) {st : Nat} (h : st < 8) (fail : Bool) : (s.bankReturned b st fail).bankState b = st := by
  rw [State.bankState, State.fld_of_reg (s.bankReturned_reg b st fail _)]
  exact s.bankState_setBank b h 0xF 0

theorem State.bankReturned_regs (s : State) (b st : Nat) (fail : Bool) : KeepsRegs s (s.bankReturned b st fail) [Reg.CON_BANK b, Reg.CON_STAT] :=
  fun a ha => (s.bankReturned_reg b st fail a).trans ((s.setBank_regs b st 0xF 0).2 a ha)

theorem bankReturnDone_good (h : (List.range 74).find? (fun b => decide (s.bankState b = 4)) = some b)
    (unarmed : s.bit (Reg.PAGE_ERR_INJ Page.con) 30 = false) :
    Completes (.bankReturnDone none) s (fun t => t.bankState b = 1 ∧
      t = { s with regs := t.regs, svc := { s.svc with committed := true, finished := true, fail := false } } ∧
      KeepsRegs s t [Reg.CON_BANK b, Reg.CON_STAT]) := by
  have run : exec (.bankReturnDone none) s = .next (s.bankReturned b 1 false) := by
    change execBankReturnDone none s = _
    unfold execBankReturnDone
    rw [h]
    dsimp only
    rw [Option.map_none, State.marchOver_clean unarmed]
    rfl
  exact ⟨_, run, s.bankState_bankReturned b (by decide) false, State.serviceEnds_of_regs (s.setBank_regs b 1 0xF 0) false,
    s.bankReturned_regs b 1 false⟩

theorem bankReturnDone_fails (h : (List.range 74).find? (fun b => decide (s.bankState b = 4)) = some b) (q : Fin 128) (word : Fin 256)
    (bit : Fin 137) :
    Completes (.bankReturnDone (some (q, word, bit))) s (fun t => t.bankState b = 3 ∧ t.svc.finished = true ∧ t.svc.fail = true ∧
      Counted s t Reg.CON_BT_FAIL_CNT ∧ KeepsCon s t 0 0) := by
  have run : exec (.bankReturnDone (some (q, word, bit))) s = .next ((s.marchFailure b q word bit false).bankReturned b 3 true) := by
    change execBankReturnDone (some (q, word, bit)) s = _
    unfold execBankReturnDone
    rw [h]
    dsimp only
    rw [Option.map_some, State.marchOver_fails]
    rfl
  obtain ⟨_, fails, _, _⟩ := s.cellFailed_shows b q word bit
  have same := s.marchFailure_reg b q word bit
  have con := s.marchFailure_con b q word bit
  refine ⟨_, run, ?_⟩
  generalize s.marchFailure b q word bit false = u at *
  generalize s.cellFailed b q word bit = c at *
  obtain ⟨finished, failed⟩ := (u.setBank b 3 0xF 0).serviceEnds_svc true
  refine ⟨u.bankState_bankReturned b (by decide) true, finished, failed, ?_, fun k _ => ?_⟩
  · exact (fails.of_reg_eq_after (same _)).of_reg_eq_after (u.bankReturned_regs b 3 true _ (by
      simp only [List.mem_cons, List.not_mem_nil, or_false, Reg.CON_BANK, Reg.CON_BT_FAIL_CNT, Reg.CON_STAT]; omega))
  · exact State.conByte_congr ((State.serviceEnds_con _ true).trans ((u.setBank_regs b 3 0xF 0).onlyReports.con.trans con)) k

end Return

/-- Settles O43: a row copies, repeats or commits, and a bank that returns passes its March or is retired again. -/
theorem bankRebuilds : Obligations.BankRebuilds := by
  unfold Obligations.BankRebuilds
  exact fun s redo q word bit => ⟨fun off => rebuildRow_idle off redo, rebuildRow_redo, fun on bad parity => ⟨rebuildRow_next on bad parity,
      fun last target old apart => rebuildRow_last on bad parity last target old apart⟩,
    fun b h unarmed => ⟨bankReturnDone_good h unarmed, bankReturnDone_fails h q word bit⟩⟩

end Sys2Proof.Machine
end

section
/-! PROOFS. O40: the registers of the Decimation Engine, and what an input sample leaves in its capture blocks. -/

namespace Sys2Proof.Machine

/-! ### DEC registers (R252, R253, R255, R257) -/

section Registers

variable {s : State} {path : Path} {v : Word}

theorem State.refuseDec_refused (s : State) : Refused s s.refuseDec Reg.DEC_STAT 31 Page.dec :=
  s.refused_of_flag (by decide) (by decide) (by decide)

/-- A write whose action is to store the word. -/
theorem stores_of_storeAct {i : Instr} {off : Nat} (run : exec i s = .next (s.hostWrite (.host path) off v (storeAct off)))
    (opens : s.writable off = true) : Stores i s off v :=
  stores_of_exec (run.trans (congrArg _ (State.hostWrite_of_writable opens)))

/-- The coefficient set and the tap that a write of DEC_COEF_DATA sets. -/
def State.coefIndex (s : State) : Nat := 64 * s.fld Reg.DEC_COEF_ADDR 8 1 + s.fld Reg.DEC_COEF_ADDR 0 6

/-- The coefficient is set. -/
def State.setCoef (s : State) (v : Word) : State :=
  { s with dec := { s.dec with coef := Sparse.put (fun _ => Option.none) s.dec.coef s.coefIndex (some (v.truncate 24)) } }

theorem exec_coefWrite (opens : s.writable Reg.DEC_COEF_DATA = true) : exec (.coefWrite path v) s =
    .next (if s.setInUse (s.fld Reg.DEC_COEF_ADDR 8 1) then s.refuseDec
      else (s.setCoef v).setFld Reg.DEC_COEF_ADDR 0 6 (s.fld Reg.DEC_COEF_ADDR 0 6 + 1)) := by
  change execCoefWrite path v s = _
  rw [execCoefWrite, State.hostWrite_of_writable opens]
  rfl

theorem coefWrite_sets (opens : s.writable Reg.DEC_COEF_DATA = true) (free : s.setInUse (s.fld Reg.DEC_COEF_ADDR 8 1) = false) :
    Completes (.coefWrite path v) s (fun t =>
      Sparse.get (fun _ => Option.none) t.dec.coef s.coefIndex = some (v.truncate 24) ∧
      (∀ i, i < 128 → i ≠ s.coefIndex → Sparse.get (fun _ => Option.none) t.dec.coef i = Sparse.get (fun _ => Option.none) s.dec.coef i) ∧
      t.fld Reg.DEC_COEF_ADDR 0 6 = (s.fld Reg.DEC_COEF_ADDR 0 6 + 1) % 64 ∧
      t = { s with regs := t.regs, dec := { s.dec with coef := t.dec.coef } } ∧ KeepsRegs s t [Reg.DEC_COEF_ADDR]) := by
  have run := (exec_coefWrite (path := path) (v := v) opens).trans (congrArg Host.Outcome.next (if_neg (by rw [free]; exact Bool.noConfusion)))
  refine ⟨_, run, ?_, fun i _ apart => ?_, State.fld_setFld_same _ _ _ (by decide), rfl, (onlyRegs_setReg (s.setCoef v) Reg.DEC_COEF_ADDR _).2⟩
  · exact Sparse.get_put_same s.dec.coef s.coefIndex (some (v.truncate 24))
  · exact Sparse.get_put_other s.dec.coef (some (v.truncate 24)) apart

theorem coefWrite_refused (opens : s.writable Reg.DEC_COEF_DATA = true) (used : s.setInUse (s.fld Reg.DEC_COEF_ADDR 8 1) = true) :
    Completes (.coefWrite path v) s (fun t => Refused s t Reg.DEC_STAT 31 Page.dec) :=
  ⟨_, (exec_coefWrite opens).trans (congrArg _ (if_pos used)), s.refuseDec_refused⟩

theorem exec_tapsWrite (opens : s.writable Reg.DEC_TAPS = true) :
    exec (.tapsWrite path v) s = .next (actTaps s (rowAt Reg.DEC_TAPS) (s.reg Reg.DEC_TAPS) v) := by
  change execTapsWrite path v s = _
  rw [execTapsWrite, State.hostWrite_of_writable opens]

theorem tapsBarred_iff : (List.range 2).any (fun k => decide (fieldOf v (8 * k) 7 ≠ fieldOf (s.reg Reg.DEC_TAPS) (8 * k) 7) && s.setInUse k) = true ↔
    ∃ i, i < 2 ∧ fieldOf v (8 * i) 7 ≠ s.fld Reg.DEC_TAPS (8 * i) 7 ∧ s.setInUse i = true := by
  simp only [List.any_eq_true, List.mem_range, Bool.and_eq_true, decide_eq_true_eq, State.fld]

theorem tapsWrite_stores (opens : s.writable Reg.DEC_TAPS = true)
    (free : ∀ i, i < 2 → fieldOf v (8 * i) 7 ≠ s.fld Reg.DEC_TAPS (8 * i) 7 → s.setInUse i = false) :
    Stores (.tapsWrite path v) s Reg.DEC_TAPS v := by
  refine stores_of_exec ((exec_tapsWrite opens).trans (congrArg _ (if_neg fun h => ?_)))
  obtain ⟨i, hi, changed, used⟩ := tapsBarred_iff.1 h
  rw [free i hi changed] at used
  exact Bool.noConfusion used

theorem tapsWrite_refused (opens : s.writable Reg.DEC_TAPS = true)
    (barred : ∃ i, i < 2 ∧ fieldOf v (8 * i) 7 ≠ s.fld Reg.DEC_TAPS (8 * i) 7 ∧ s.setInUse i = true) :
    Completes (.tapsWrite path v) s (fun t => Refused s t Reg.DEC_STAT 31 Page.dec) :=
  ⟨_, (exec_tapsWrite opens).trans (congrArg _ (if_pos (tapsBarred_iff.2 barred))), s.refuseDec_refused⟩

theorem exec_captureSourceWrite {k : Fin 128} (opens : s.writable (Reg.DEC_CAP_SRC k) = true) : exec (.captureSourceWrite path k v) s =
    .next (if fieldOf v 30 1 = 1 ∧ s.rate2x then s.refuseDec else s.setReg (Reg.DEC_CAP_SRC k) (s.stored (Reg.DEC_CAP_SRC k) v)) := by
  change execCaptureSourceWrite path k v s = _
  rw [execCaptureSourceWrite, State.hostWrite_of_writable opens]
  rfl

theorem captureSourceWrite_completes {k : Fin 128} (opens : s.writable (Reg.DEC_CAP_SRC k) = true) :
    if fieldOf v 30 1 = 1 ∧ s.rate2x = true then Completes (.captureSourceWrite path k v) s (fun t => Refused s t Reg.DEC_STAT 31 Page.dec)
    else Stores (.captureSourceWrite path k v) s (Reg.DEC_CAP_SRC k) v := by
  have run := exec_captureSourceWrite (path := path) (v := v) opens
  split
  case isTrue barred => exact ⟨_, run.trans (congrArg _ (if_pos barred)), s.refuseDec_refused⟩
  case isFalse free => exact stores_of_exec (run.trans (congrArg _ (if_neg free)))

end Registers

/-! ### Input samples (R255) -/

/-- Capture channel `j` takes receive channel `ch` of a port. -/
def State.takes (s : State) (port ch j : Nat) : Prop :=
  fieldOf (s.reg (Reg.DEC_CAP_SRC j)) 31 1 = 1 ∧ fieldOf (s.reg (Reg.DEC_CAP_SRC j)) 8 2 = port ∧ fieldOf (s.reg (Reg.DEC_CAP_SRC j)) 0 8 = ch

section Capture

variable {s : State} {port ch n : Nat} {second : Bool} {w : Word}

theorem State.portSample_untaken (h : ∀ j, j < 128 → ¬ s.takes port ch j) : s.portSample port ch n second w = s :=
  foldl_eq_self fun j hj => if_neg (h j (List.mem_range.1 hj))

/-- A fold that does something at one element only. -/
theorem foldl_single {α β : Type} {f : α → β → α} {a : α} {k : β} {l : List β} (nodup : l.Nodup) (mem : k ∈ l)
    (before : ∀ x ∈ l, x ≠ k → f a x = a) (after : ∀ x ∈ l, x ≠ k → f (f a k) x = f a k) : l.foldl f a = f a k := by
  induction l with
  | nil => simp at mem
  | cons x l ih =>
    rw [List.nodup_cons] at nodup
    rw [List.foldl_cons]
    by_cases e : x = k
    · subst e
      exact foldl_eq_self fun y hy => after y (List.mem_cons_of_mem _ hy) (fun h => nodup.1 (h ▸ hy))
    · rw [before x List.mem_cons_self e]
      exact ih nodup.2 (List.mem_of_ne_of_mem (Ne.symm e) mem) (fun y hy => before y (List.mem_cons_of_mem _ hy))
        (fun y hy => after y (List.mem_cons_of_mem _ hy))

/-- A sample in a capture block, without a stop of the Decimation Engine. -/
theorem State.writeCapture_quiet (q : s.conQuiet) (k : Nat) :
    ∃ t, Wrote s t (s.captureAddr k n) (wordBytes [scale32 w (stopFactor s.dec.stopCap n)]) ∧
      s.writeCapture k n w = { t with dec := { t.dec with capSeen := (k, n) :: t.dec.capSeen } } := by
  have wrote := State.devWrite_quiet q 36 .normal (s.captureAddr k n) [scale32 w (stopFactor s.dec.stopCap n)]
  refine ⟨(s.devWrite 36 .normal (s.captureAddr k n) [scale32 w (stopFactor s.dec.stopCap n)]).count 475 1, ?_, rfl⟩
  generalize s.devWrite 36 .normal (s.captureAddr k n) [scale32 w (stopFactor s.dec.stopCap n)] = u at *
  exact ⟨by rw [wrote.rest]; rfl, wrote.quiet, wrote.bytes⟩

theorem State.captureInto_plain {k : Nat} (single : s.bit (Reg.DEC_CAP_SRC k) 30 = false) (early : s.period ≤ n / s.blk + 1)
    (unseen : (k, n) ∉ s.dec.capSeen) : s.captureInto k n second w = s.writeCapture k n w := by
  have late : (decide (n / s.blk + 1 < s.period) || s.dec.capSeen.contains (k, n)) = false := by
    rw [Bool.or_eq_false_iff, decide_eq_false_iff_not, Nat.not_lt]
    exact ⟨early, by simpa using unseen⟩
  unfold State.captureInto
  rw [single, late]
  rfl

theorem captureSample_untaken {port : Fin 4} {ch : Fin 256} {n : BitVec 56}
    (h : s.running = false ∨ ∀ j, j < 128 → ¬ s.takes port ch j) : Completes (.captureSample port ch n second w) s (fun t => t = s) := by
  refine ⟨s, congrArg Host.Outcome.next ?_, rfl⟩
  rcases h with still | untaken
  · rw [still]; rfl
  · rw [State.portSample_untaken untaken, ite_self]

theorem State.conWord_congr {s t : State} (h : t.con = s.con) (a : Nat) : t.conWord a = s.conWord a := by
  unfold State.conWord State.conBytes
  rw [List.map_congr_left (fun i _ => State.conByte_congr h (a + i))]

/-- The sample stands in its block, and is seen. -/
theorem State.captured {k : Nat} (q : s.conQuiet) (going : s.dec.stopCap = none) :
    (s.writeCapture k n w).conWord (s.captureAddr k n) = w ∧ KeepsCon s (s.writeCapture k n w) (s.captureAddr k n) 4 ∧
    s.writeCapture k n w = { s with
      con := (s.writeCapture k n w).con, ctl := (s.writeCapture k n w).ctl, pmu := (s.writeCapture k n w).pmu
      dec := { s.dec with capSeen := (k, n) :: s.dec.capSeen } } := by
  obtain ⟨t, wrote, same⟩ := State.writeCapture_quiet (n := n) (w := w) q k
  have plain : scale32 w (stopFactor s.dec.stopCap n) = w := by
    rw [going]
    exact if_pos rfl
  rw [plain] at wrote
  have con : (s.writeCapture k n w).con = t.con := by rw [same]
  have kept := wrote.keeps
  rw [length_wordBytes] at kept
  refine ⟨?_, fun x hx => (State.conByte_congr con x).trans (kept x hx), ?_⟩
  · exact (State.conWord_congr con _).trans (wrote.conWord (i := 0) rfl)
  · rw [same, wrote.rest]

theorem captureSample_takes {port : Fin 4} {ch : Fin 256} {n : BitVec 56} {k : Fin 128} (runs : s.running = true) (takes : s.takes port ch k)
    (alone : ∀ j, j < 128 → j ≠ k.val → ¬ s.takes port ch j) (single : fieldOf (s.reg (Reg.DEC_CAP_SRC k)) 30 1 = 0)
    (early : s.period ≤ n.toNat / s.blk + 1) (unseen : (k.val, n.toNat) ∉ s.dec.capSeen) (going : s.dec.stopCap = none) (q : s.conQuiet) :
    Completes (.captureSample port ch n second w) s (fun t =>
      t.conWord (s.captureAddr k n.toNat) = w ∧ KeepsCon s t (s.captureAddr k n.toNat) 4 ∧
      t = { s with con := t.con, ctl := t.ctl, pmu := t.pmu, dec := { s.dec with capSeen := (k.val, n.toNat) :: s.dec.capSeen } }) := by
  have half : s.bit (Reg.DEC_CAP_SRC k) 30 = false := by
    rw [State.bit, single]
    rfl
  obtain ⟨word, con, rest⟩ := State.captured (n := n.toNat) (w := w) (k := k) q going
  have into : (if fieldOf (s.reg (Reg.DEC_CAP_SRC k)) 31 1 = 1 ∧ fieldOf (s.reg (Reg.DEC_CAP_SRC k)) 8 2 = port.val ∧
      fieldOf (s.reg (Reg.DEC_CAP_SRC k)) 0 8 = ch.val then s.captureInto k n.toNat second w else s) = s.writeCapture k n.toNat w :=
    (if_pos takes).trans (State.captureInto_plain half early unseen)
  have regs : ∀ a, (s.writeCapture k n.toNat w).reg a = s.reg a := fun a => by rw [rest]; rfl
  have fold : s.portSample port ch n.toNat second w = s.writeCapture k n.toNat w := by
    refine (foldl_single List.nodup_range (List.mem_range.2 k.isLt) (fun j hj apart => if_neg (alone j (List.mem_range.1 hj) apart))
      (fun j hj apart => ?_)).trans into
    dsimp only
    rw [into, regs]
    exact if_neg (alone j (List.mem_range.1 hj) apart)
  exact ⟨_, congrArg Host.Outcome.next ((if_pos runs).trans fold), word, con, rest⟩

end Capture

/-- Settles O40: the writes of the DEC page by what bars them, and an input sample by the channel that takes it. -/
theorem decimationAndCapture : Obligations.DecimationAndCapture := by
  unfold Obligations.DecimationAndCapture
  exact ⟨fun s path k v => ⟨fun opens => ⟨coefWrite_sets opens, coefWrite_refused opens⟩, fun opens => ⟨tapsWrite_stores opens, tapsWrite_refused opens⟩,
      fun opens => ⟨stores_of_storeAct rfl opens, stores_of_storeAct rfl opens⟩, stores_of_storeAct rfl, captureSourceWrite_completes⟩,
    fun s port ch n second w k => ⟨captureSample_untaken, captureSample_takes⟩⟩

end Sys2Proof.Machine
end

section
/-! PROOFS. O54: the TDM ports. -/

namespace Sys2Proof.Machine

/-! ### What captures leave -/

/-- Input samples have reached capture channels: of the registers only those of the DEC page may differ, and the Concourse stays quiet. -/
structure Captures (s t : State) : Prop where
  rest : t = { s with regs := t.regs, con := t.con, ctl := t.ctl, pmu := t.pmu, dec := t.dec }
  pages : KeepsPages s t [Page.dec]
  quiet : t.conQuiet

namespace Captures

variable {s t u : State}

theorem refl (q : s.conQuiet) : Captures s s := ⟨rfl, fun _ _ => rfl, q⟩

theorem trans (h : Captures s t) (g : Captures t u) : Captures s u where
  rest := by rw [g.rest, h.rest]
  pages a ha := (g.pages a ha).trans (h.pages a ha)
  quiet := g.quiet

/-- Only the Decimation Engine's own state differs. -/
theorem dec (q : s.conQuiet) (d : Decimator) : Captures s { s with dec := d } := ⟨rfl, fun _ _ => rfl, q⟩

theorem wrote {a : Nat} {data : List Byte} (h : Wrote s t a data) : Captures s t where
  rest := by rw [h.rest]
  pages a _ := by rw [h.rest]; rfl
  quiet := h.quiet

theorem net (h : Captures s t) : t.net = s.net := by rw [h.rest]

theorem out (h : Captures s t) : t.out = s.out := by rw [h.rest]

theorem foldl {α : Type} {f : State → α → State} (hf : ∀ u x, u.conQuiet → Captures u (f u x)) (l : List α) (q : s.conQuiet) :
    Captures s (l.foldl f s) := by
  induction l generalizing s with
  | nil => exact refl q
  | cons x l ih => exact (hf s x q).trans (ih (hf s x q).quiet)

end Captures

theorem State.conQuiet_of_reg {s t : State} (q : s.conQuiet) (inj : t.reg (Reg.PAGE_ERR_INJ Page.con) = s.reg (Reg.PAGE_ERR_INJ Page.con))
    (ctl : t.ctl = s.ctl) : t.conQuiet := by
  obtain ⟨unarmed, idle, good⟩ := q
  exact ⟨(State.bit_of_reg inj 30).trans unarmed, by rw [ctl, idle], by rw [ctl, good]⟩

theorem State.saturated_captures {s : State} (q : s.conQuiet) (o : Bool) : Captures s (if o then s.bump Reg.DEC_SAT_CNT else s) := by
  cases o with
  | false => exact Captures.refl q
  | true =>
    have counted : OnlyRegs s (s.bump Reg.DEC_SAT_CNT) [Reg.DEC_SAT_CNT] := onlyRegs_setReg ..
    rw [if_pos rfl]
    generalize s.bump Reg.DEC_SAT_CNT = t at counted
    refine ⟨by rw [counted.1], fun a ha => counted.2 a (fun h => ha ?_), State.conQuiet_of_reg q (counted.2 _ (by decide)) (by rw [counted.1])⟩
    rw [List.mem_singleton] at h
    rw [h]
    decide

theorem State.writeCapture_captures {s : State} (q : s.conQuiet) (k n : Nat) (w : Word) : Captures s (s.writeCapture k n w) := by
  obtain ⟨t, wrote, same⟩ := State.writeCapture_quiet (n := n) (w := w) q k
  rw [same]
  exact (Captures.wrote wrote).trans (Captures.dec wrote.quiet _)

/-- The two samples of a source at twice Fs are in a channel's history. -/
def State.pushCapture (s : State) (k : Nat) (w : Word) : State :=
  { s with dec := { s.dec with
    capHalf := Sparse.put (fun _ => Option.none) s.dec.capHalf k Option.none
    capHist := Sparse.put (fun _ => FirState.reset) s.dec.capHist k (((Sparse.get (fun _ => FirState.reset) s.dec.capHist k).push
      ((Sparse.get (fun _ => Option.none) s.dec.capHalf k).getD 0)).push w) } }

/-- The output of a channel at twice Fs. -/
def State.captureFiltered (s : State) (k n : Nat) (o : Word × Bool) : State := (if o.2 then s.bump Reg.DEC_SAT_CNT else s).writeCapture k n o.1

theorem State.captureFiltered_captures {s : State} (q : s.conQuiet) (k n : Nat) (o : Word × Bool) : Captures s (s.captureFiltered k n o) := by
  have saturated := State.saturated_captures q o.2
  unfold State.captureFiltered
  exact saturated.trans (State.writeCapture_captures saturated.quiet k n o.1)

theorem State.captureInto_eq (s : State) (k n : Nat) (second : Bool) (w : Word) : ∃ (late : Bool) (o : Word × Bool), s.captureInto k n second w =
    if s.bit (Reg.DEC_CAP_SRC k) 30 then
      if second = false then { s with dec := { s.dec with capHalf := Sparse.put (fun _ => Option.none) s.dec.capHalf k (some w) } }
      else if late then s.pushCapture k w
      else (s.pushCapture k w).captureFiltered k n o
    else if late then s
    else s.writeCapture k n w := ⟨_, _, rfl⟩

theorem State.captureInto_captures {s : State} (q : s.conQuiet) (k n : Nat) (second : Bool) (w : Word) : Captures s (s.captureInto k n second w) := by
  obtain ⟨late, o, same⟩ := s.captureInto_eq k n second w
  have pushed : Captures s (s.pushCapture k w) := Captures.dec q _
  rw [same]
  split
  · split
    · exact Captures.dec q _
    · split
      · exact pushed
      · exact pushed.trans (State.captureFiltered_captures pushed.quiet k n o)
  · split
    · exact Captures.refl q
    · exact State.writeCapture_captures q k n w

theorem State.portSample_captures {s : State} (q : s.conQuiet) (port ch n : Nat) (second : Bool) (w : Word) :
    Captures s (s.portSample port ch n second w) := by
  refine Captures.foldl (fun u k qu => ?_) _ q
  dsimp only
  split
  · exact State.captureInto_captures qu k n second w
  · exact Captures.refl qu

/-! ### Ports -/

section Ports

variable {s : State} {p : Fin 4}

theorem State.tdmPort_setTdmPort (s : State) (p : Nat) (x : TdmPort) : (s.setTdmPort p x).tdmPort p = x :=
  Sparse.get_put_same s.net.tdm p x

theorem State.tdmPort_setTdmPort_other (s : State) {p q : Nat} (x : TdmPort) (h : q ≠ p) : (s.setTdmPort p x).tdmPort q = s.tdmPort q :=
  Sparse.get_put_other s.net.tdm x h

/-- Port `p` is as `y`, and nothing else differs but registers. -/
def State.PortIs (s t : State) (p : Nat) (y : TdmPort) : Prop :=
  t.tdmPort p = y ∧ (∀ q, q < 4 → q ≠ p → t.tdmPort q = s.tdmPort q) ∧ t = { s with regs := t.regs, net := { s.net with tdm := t.net.tdm } }

theorem State.portIs_setTdmPort (s : State) (p : Nat) (y : TdmPort) : s.PortIs (s.setTdmPort p y) p y :=
  ⟨s.tdmPort_setTdmPort p y, fun _ _ h => s.tdmPort_setTdmPort_other y h, rfl⟩

theorem State.portIs_setBit (s : State) (p : Nat) (y : TdmPort) (a i : Nat) (b : Bool) : s.PortIs ((s.setTdmPort p y).setBit a i b) p y :=
  ⟨s.tdmPort_setTdmPort p y, fun _ _ h => s.tdmPort_setTdmPort_other y h, rfl⟩

/-- What a frame that carries sample `n` sends. -/
def State.tdmWords (s : State) (p : Nat) (x : TdmPort) (n : Nat) : List Word :=
  (((x.recent.find? (fun e => decide (e.1 = n))).map (fun e => e.2)).getD (List.replicate (2 * 2 ^ s.fld (Reg.TDM_P_CFG p) 2 2) 0)).map (s.tdmCut p)

theorem State.tdmWords_congr {s t : State} {p : Nat} (h : t.reg (Reg.TDM_P_CFG p) = s.reg (Reg.TDM_P_CFG p)) (x : TdmPort) (n : Nat) :
    t.tdmWords p x n = s.tdmWords p x n := by
  have cut : t.tdmCut p = s.tdmCut p := by
    funext w
    unfold State.tdmCut State.tdmWidth
    rw [State.fld_of_reg h]
  rw [State.tdmWords, cut, State.fld_of_reg h, State.tdmWords]

/-- A frame is sent. -/
def State.frameSent (s : State) (p n : Nat) : State := (s.send (.tdm p (s.tdmWords p (s.tdmPort p) n))).count 495 1

theorem State.tdmCarry_eq (s : State) (p n : Nat) (din : List Word) : s.tdmCarry p n din =
    (List.range (s.tdmSlots p)).foldl (fun u k => u.portSample 0 (16 * p + k) n false (s.tdmCut p ((din[k]?).getD 0))) (s.frameSent p n) := rfl

theorem State.frameSent_quiet {s : State} (q : s.conQuiet) (p n : Nat) : (s.frameSent p n).conQuiet :=
  State.conQuiet_of_reg q (State.reg_count (s.send _) 495 1 _) rfl

theorem State.tdmCarry_captures {s : State} (q : s.conQuiet) (p n : Nat) (din : List Word) : Captures (s.frameSent p n) (s.tdmCarry p n din) :=
  Captures.foldl (fun _ k qu => State.portSample_captures qu 0 (16 * p + k) n false _) _ (State.frameSent_quiet q p n)

/-- No capture channel takes a TDM slot. -/
theorem State.tdmCarry_alone (alone : ∀ k, k < 128 → s.fld (Reg.DEC_CAP_SRC k) 8 2 ≠ 0 ∨ s.bit (Reg.DEC_CAP_SRC k) 31 = false) (p n : Nat)
    (din : List Word) : s.tdmCarry p n din = s.frameSent p n := by
  rw [State.tdmCarry_eq]
  refine foldl_eq_self fun k _ => State.portSample_untaken fun j hj => ?_
  have same : (s.frameSent p n).reg (Reg.DEC_CAP_SRC j) = s.reg (Reg.DEC_CAP_SRC j) := State.reg_count (s.send _) 495 1 _
  unfold State.takes
  rw [same]
  rintro ⟨on, tdm, _⟩
  refine (alone j hj).elim (fun h => h tdm) (fun off => ?_)
  rw [State.bit, on] at off
  exact Bool.noConfusion off

/-- No frame passes the port. -/
def State.tdmIdle (s : State) (p : Nat) : Prop := (s.tdmPort p).on = false ∨ s.running = false ∨ s.sample = 0 ∨ s.pwr.vioB = false

variable {din : List Word} {edge : BitVec 64} {wrong : Bool}

theorem tdmFrame_idle (h : s.tdmIdle p) : Completes (.tdmFrame p din edge wrong) s (fun t => t = s) := ⟨s, if_pos h, rfl⟩

theorem exec_tdmFrame (busy : ¬ s.tdmIdle p) : exec (.tdmFrame p din edge wrong) s =
    if s.tdmMaster p then .next (s.tdmCarry p (s.sample - 1) din)
    else if s.bit (Reg.TDM_P_STAT p) 0 = false then .next (s.setTdmPort p { s.tdmPort p with frames := (s.tdmPort p).frames + 1 })
    else
      let t := (edge.toNat + 128 - (s.tdmPort p).phase) / 256
      if s.sample ≤ t then .next s
      else
        let off := match (s.tdmPort p).last with
          | some l => decide (t ≠ l + 1)
          | none => false
        let k := s.detect Page.tdm 0 p p (off || wrong)
        let s1 := if k.hit then (((k.st.setBit (Reg.TDM_P_STAT p) 1 true).bump Reg.TDM_SLIP_CNT).raise Page.tdm 0) else k.st
        .next ((s1.setTdmPort p { s.tdmPort p with last := some t }).tdmCarry p t din) := if_neg busy

theorem tdmFrame_master (busy : ¬ s.tdmIdle p) (master : s.tdmMaster p = true)
    (alone : ∀ k, k < 128 → s.fld (Reg.DEC_CAP_SRC k) 8 2 ≠ 0 ∨ s.bit (Reg.DEC_CAP_SRC k) 31 = false) :
    Completes (.tdmFrame p din edge wrong) s (fun t =>
      t.out = { s.out with sent := .tdm p (s.tdmWords p (s.tdmPort p) (s.sample - 1)) :: s.out.sent } ∧ t = { s with out := t.out, pmu := t.pmu }) :=
  ⟨_, (exec_tdmFrame busy).trans ((if_pos master).trans (congrArg _ (State.tdmCarry_alone alone p _ din))), rfl, rfl⟩

theorem tdmFrame_unlocked (busy : ¬ s.tdmIdle p) (slave : s.tdmMaster p = false) (unlocked : s.bit (Reg.TDM_P_STAT p) 0 = false) :
    Completes (.tdmFrame p din edge wrong) s (fun t => s.PortIs t p { s.tdmPort p with frames := (s.tdmPort p).frames + 1 } ∧ KeepsRegs s t []) :=
  ⟨_, (exec_tdmFrame busy).trans ((if_neg (by rw [slave]; exact Bool.noConfusion)).trans (if_pos unlocked)), s.portIs_setTdmPort _ _, fun _ _ => rfl⟩

/-- A frame does not follow the one before, or has the wrong length. -/
def TdmPort.slips (x : TdmPort) (n : Nat) (wrong : Bool) : Bool :=
  (match x.last with
    | some l => decide (n ≠ l + 1)
    | none => false) || wrong

theorem TdmPort.slips_iff (x : TdmPort) (n : Nat) (wrong : Bool) : x.slips n wrong = true ↔ wrong = true ∨ ∃ l ∈ x.last, n ≠ l + 1 := by
  unfold TdmPort.slips
  cases x.last with
  | none => simp
  | some l => simp [or_comm]

/-- A slip is logged, shown, counted and reported. -/
def State.slipped (s : State) (p : Nat) : State :=
  (((s.logError (256 * Page.tdm) p p false).setBit (Reg.TDM_P_STAT p) 1 true).bump Reg.TDM_SLIP_CNT).raise Page.tdm 0

theorem State.slipped_or (s : State) (p : Nat) (slip : Bool) :
    (if slip = true then ((((if slip = true then s.logError (256 * Page.tdm + 0) p p false else s).setBit (Reg.TDM_P_STAT p) 1 true).bump
      Reg.TDM_SLIP_CNT).raise Page.tdm 0) else if slip = true then s.logError (256 * Page.tdm + 0) p p false else s) =
    if slip = true then s.slipped p else s := by
  cases slip with
  | false => rw [if_neg Bool.false_ne_true, if_neg Bool.false_ne_true, if_neg Bool.false_ne_true]
  | true => rw [if_pos rfl, if_pos rfl, if_pos rfl, State.slipped, Nat.add_zero]

theorem exec_tdmFrame_locked (busy : ¬ s.tdmIdle p) (slave : s.tdmMaster p = false) (locked : s.bit (Reg.TDM_P_STAT p) 0 = true)
    {n : Nat} (time : (edge.toNat + 128 - (s.tdmPort p).phase) / 256 = n) (due : n < s.sample)
    (unarmed : s.bit (Reg.PAGE_ERR_INJ Page.tdm) 30 = false) : exec (.tdmFrame p din edge wrong) s =
    .next (((if (s.tdmPort p).slips n wrong then s.slipped p else s).setTdmPort p { s.tdmPort p with last := some n }).tdmCarry p n din) := by
  rw [exec_tdmFrame busy, slave, locked, if_neg Bool.false_ne_true, if_neg Bool.noConfusion]
  dsimp only
  rw [time, if_neg (Nat.not_le.2 due), State.detect_unarmed unarmed]
  exact congrArg (fun u : State => Host.Outcome.next ((u.setTdmPort p { s.tdmPort p with last := some n }).tdmCarry p n din))
    (s.slipped_or p ((s.tdmPort p).slips n wrong))

/-- Registers that a slip of port `p` changes. -/
def slipRegs (p : Nat) : List Nat := logRegs ++ [Reg.TDM_P_STAT p] ++ [Reg.TDM_SLIP_CNT] ++ raiseRegs Page.tdm

theorem State.slipped_reports (s : State) (p : Nat) : OnlyReports s (s.slipped p) (slipRegs p) :=
  (((onlyReports_logError s (256 * Page.tdm) p p false).trans (onlyReports_setBit _ (Reg.TDM_P_STAT p) 1 true)).trans
    (onlyReports_bump _ Reg.TDM_SLIP_CNT)).trans (onlyReports_raise _ Page.tdm 0)

theorem tdmPCfg_notMem_slipRegs : ∀ p : Fin 4, Reg.TDM_P_CFG p ∉ slipRegs p := by decide

theorem conInj_notMem_slipRegs : ∀ p : Fin 4, Reg.PAGE_ERR_INJ Page.con ∉ slipRegs p := by decide

theorem tdmPStat_apart : ∀ p : Fin 4, Reg.TDM_P_STAT p ∉ raiseRegs Page.tdm ∧ Reg.TDM_P_STAT p ≠ Reg.TDM_SLIP_CNT ∧
    Reg.TDM_P_STAT p / 0x1000 ∉ [Page.dec] := by decide

theorem State.slipped_shows (s : State) (p : Fin 4) : (s.slipped p).bit (Reg.TDM_P_STAT p) 1 = true ∧ Counted s (s.slipped p) Reg.TDM_SLIP_CNT ∧
    (s.slipped p).bit (Reg.PAGE_IRQ_STAT Page.tdm) 0 = true := by
  obtain ⟨quiet, apart, _⟩ := tdmPStat_apart p
  unfold State.slipped
  refine ⟨?_, ?_, State.bit_raise_same _ _ (by decide)⟩
  · rw [(onlyReports_raise ..).bit quiet, State.bit_of_reg (State.reg_bump_other _ apart), State.bit_setBit_same _ _ true (by decide)]
  · refine ((counted_bump _ Reg.TDM_SLIP_CNT).of_reg_eq ?_).of_reg_eq_after (State.reg_raise _ (by decide) _)
    rw [State.reg_setBit_other _ _ _ apart.symm, State.reg_logError _ (by decide)]

theorem tdmFrame_locked (busy : ¬ s.tdmIdle p) (slave : s.tdmMaster p = false) (locked : s.bit (Reg.TDM_P_STAT p) 0 = true)
    {n : Nat} (time : (edge.toNat + 128 - (s.tdmPort p).phase) / 256 = n) (due : n < s.sample)
    (unarmed : s.bit (Reg.PAGE_ERR_INJ Page.tdm) 30 = false) (q : s.conQuiet) :
    Completes (.tdmFrame p din edge wrong) s (fun t => t.tdmPort p = { s.tdmPort p with last := some n } ∧
      t.out.sent.head? = some (.tdm p (s.tdmWords p (s.tdmPort p) n)) ∧
      ((wrong = true ∨ ∃ l ∈ (s.tdmPort p).last, n ≠ l + 1) → t.bit (Reg.TDM_P_STAT p) 1 = true ∧ Counted s t Reg.TDM_SLIP_CNT ∧
        t.bit (Reg.PAGE_IRQ_STAT Page.tdm) 0 = true) ∧
      (wrong = false → (∀ l ∈ (s.tdmPort p).last, n = l + 1) → KeepsPages s t [Page.dec])) := by
  refine ⟨_, exec_tdmFrame_locked busy slave locked time due unarmed, ?_⟩
  rw [← TdmPort.slips_iff]
  have straight : wrong = false → (∀ l ∈ (s.tdmPort p).last, n = l + 1) → (s.tdmPort p).slips n wrong = false := by
    intro right follows
    rw [← Bool.not_eq_true, TdmPort.slips_iff, not_or]
    exact ⟨by rw [right]; exact Bool.false_ne_true, fun ⟨l, hl, h⟩ => h (follows l hl)⟩
  have after : OnlyReports s (if (s.tdmPort p).slips n wrong = true then s.slipped p else s) (slipRegs p) := by
    split
    · exact s.slipped_reports p
    · exact OnlyReports.refl s _
  have shows : (s.tdmPort p).slips n wrong = true → (if (s.tdmPort p).slips n wrong = true then s.slipped p else s) = s.slipped p := fun h => if_pos h
  have same : (s.tdmPort p).slips n wrong = false → (if (s.tdmPort p).slips n wrong = true then s.slipped p else s) = s :=
    fun h => if_neg (by rw [h]; exact Bool.false_ne_true)
  generalize (if (s.tdmPort p).slips n wrong = true then s.slipped p else s) = u at *
  have uq : u.conQuiet := State.conQuiet_of_reg q (after.reg (conInj_notMem_slipRegs p)) (by rw [after.1])
  have cfg : u.reg (Reg.TDM_P_CFG p) = s.reg (Reg.TDM_P_CFG p) := after.reg (tdmPCfg_notMem_slipRegs p)
  have regs : ∀ a, (u.setTdmPort p { s.tdmPort p with last := some n }).reg a = u.reg a := fun _ => rfl
  have placed := u.tdmPort_setTdmPort p { s.tdmPort p with last := some n }
  have vq : (u.setTdmPort p { s.tdmPort p with last := some n }).conQuiet := State.conQuiet_of_reg uq (regs _) rfl
  have words : (u.setTdmPort p { s.tdmPort p with last := some n }).tdmWords p { s.tdmPort p with last := some n } n =
      s.tdmWords p (s.tdmPort p) n := State.tdmWords_congr ((regs _).trans cfg) (s.tdmPort p) n
  generalize u.setTdmPort p { s.tdmPort p with last := some n } = v at *
  have sent : (v.frameSent p n).out.sent = .tdm p (s.tdmWords p (s.tdmPort p) n) :: v.out.sent := by
    rw [← words, ← placed]
    rfl
  have vregs : ∀ a, (v.frameSent p n).reg a = u.reg a := fun a => (State.reg_count (v.send _) 495 1 a).trans (regs a)
  have net : (v.frameSent p n).net = v.net := rfl
  have captures := State.tdmCarry_captures vq p n din
  generalize v.tdmCarry p n din = t at *
  generalize v.frameSent p n = f at *
  refine ⟨?_, ?_, fun slip => ?_, fun right follows a ha => ?_⟩
  · rw [← placed, State.tdmPort, captures.net, net, State.tdmPort]
  · rw [captures.out, sent, List.head?_cons]
  · obtain ⟨stat, counted, irq⟩ := s.slipped_shows p
    rw [← shows slip] at stat counted irq
    have kept : ∀ a, a / 0x1000 ∉ [Page.dec] → t.reg a = u.reg a := fun a ha => (captures.pages a ha).trans (vregs a)
    exact ⟨(State.bit_of_reg (kept _ (tdmPStat_apart p).2.2) 1).trans stat, counted.of_reg_eq_after (kept _ (by decide)),
      (State.bit_of_reg (kept _ (by decide)) 0).trans irq⟩
  · rw [captures.pages a ha, vregs, same (straight right follows)]

/-! ### Lock, loss and configuration (R349, R351) -/

/-- The port measures the phase of its frame sync. -/
def State.tdmMeasures (s : State) (p : Nat) : Prop :=
  (s.tdmPort p).on = true ∧ s.tdmMaster p = false ∧ 16 ≤ (s.tdmPort p).frames ∧ s.bit (Reg.TDM_P_STAT p) 0 = false

variable {phase : BitVec 8} {path : Path} {v : Word}

theorem tdmLock_nothing (h : ¬ s.tdmMeasures p) : Completes (.tdmLock p phase) s (fun t => t = s) := by
  refine ⟨s, if_pos ?_, rfl⟩
  by_contra no
  rw [not_or, not_or, not_or, Bool.not_eq_false, Bool.not_eq_true, not_lt, Bool.not_eq_true] at no
  exact h no

theorem tdmLock_locks (h : s.tdmMeasures p) : Completes (.tdmLock p phase) s (fun t =>
    s.PortIs t p { s.tdmPort p with phase := phase.toNat, last := none } ∧ t.bit (Reg.TDM_P_STAT p) 0 = true ∧ KeepsRegs s t [Reg.TDM_P_STAT p]) := by
  obtain ⟨on, slave, frames, unlocked⟩ := h
  have busy : ¬ ((s.tdmPort p).on = false ∨ s.tdmMaster p = true ∨ (s.tdmPort p).frames < 16 ∨ s.bit (Reg.TDM_P_STAT p) 0 = true) := by
    rw [on, slave, unlocked]
    simpa using frames
  exact ⟨_, if_neg busy, s.portIs_setBit .., State.bit_setBit_same (s.setTdmPort p _) _ true (by decide), (onlyRegs_setReg (s.setTdmPort p _) ..).2⟩

theorem tdmBclkLoss_nothing (h : (s.tdmPort p).on = false ∨ s.tdmMaster p = true) : Completes (.tdmBclkLoss p) s (fun t => t = s) :=
  ⟨s, if_pos h, rfl⟩

theorem tdmBclkLoss_loses (on : (s.tdmPort p).on = true) (slave : s.tdmMaster p = false) : Completes (.tdmBclkLoss p) s (fun t =>
    s.PortIs t p { s.tdmPort p with frames := 0, last := none } ∧ t.bit (Reg.TDM_P_STAT p) 0 = false ∧ KeepsRegs s t [Reg.TDM_P_STAT p]) := by
  have busy : ¬ ((s.tdmPort p).on = false ∨ s.tdmMaster p = true) := by
    rw [on, slave]
    simp
  exact ⟨_, if_neg busy, s.portIs_setBit .., State.bit_setBit_same (s.setTdmPort p _) _ false (by decide), (onlyRegs_setReg (s.setTdmPort p _) ..).2⟩

theorem exec_tdmConfigWrite (opens : s.writable (Reg.TDM_P_CFG p) = true) : exec (.tdmConfigWrite path p v) s =
    .next (actTdmCfg p s (rowAt (Reg.TDM_P_CFG p)) (s.reg (Reg.TDM_P_CFG p)) v) := by
  change execTdmConfigWrite path p v s = _
  rw [execTdmConfigWrite, State.hostWrite_of_writable opens]

/-- What bars a port's configuration. -/
def State.tdmBarred (s : State) (p : Nat) (new : Word) : Prop :=
  (fieldOf new 2 2 = 3 ∧ s.rate2x = true) ∨ (s.fld (Reg.TDM_P_CFG p) 0 1 = 1 ∧ fieldOf new 1 31 ≠ s.fld (Reg.TDM_P_CFG p) 1 31)

theorem tdmConfigWrite_refused (opens : s.writable (Reg.TDM_P_CFG p) = true) (barred : s.tdmBarred p (s.stored (Reg.TDM_P_CFG p) v)) :
    Completes (.tdmConfigWrite path p v) s (fun t => Refused s t Reg.TDM_STAT 31 Page.tdm) :=
  ⟨_, (exec_tdmConfigWrite opens).trans (congrArg _ (if_pos barred)), s.refused_of_flag (by decide) (by decide) (by decide)⟩

theorem tdmConfigWrite_stores (opens : s.writable (Reg.TDM_P_CFG p) = true) (free : ¬ s.tdmBarred p (s.stored (Reg.TDM_P_CFG p) v)) :
    Stores (.tdmConfigWrite path p v) s (Reg.TDM_P_CFG p) v :=
  stores_of_exec ((exec_tdmConfigWrite opens).trans (congrArg _ (if_neg free)))

end Ports

/-- Settles O54: a frame by the port that it ends on, the lock after 16 frames, the loss of the bit clock, and the configuration. -/
theorem tdmPorts : Obligations.TdmPorts := by
  unfold Obligations.TdmPorts
  exact fun s path p din edge wrong phase v => ⟨tdmFrame_idle, tdmFrame_master, tdmFrame_unlocked,
    fun busy slave locked due unarmed q => tdmFrame_locked busy slave locked rfl due unarmed q, ⟨tdmLock_nothing, tdmLock_locks⟩,
    tdmBclkLoss_nothing, tdmBclkLoss_loses, fun opens => ⟨tdmConfigWrite_refused opens, tdmConfigWrite_stores opens⟩⟩

end Sys2Proof.Machine
end

section
/-! PROOFS. What a device master's stores leave, in a Concourse in any state. -/

namespace Sys2Proof.Machine

/-- Only registers, what is reported and the controller's state differ. -/
def Reported (s t : State) : Prop := t = { s with regs := t.regs, pmu := t.pmu, out := t.out, ctl := t.ctl }

namespace Reported

variable {s t u : State}

theorem refl (s : State) : Reported s s := rfl

theorem trans (h : Reported s t) (g : Reported t u) : Reported s u := by
  unfold Reported at *
  rw [g, h]

theorem of_reports {l : List Nat} (h : OnlyReports s t l) : Reported s t := by
  unfold Reported
  rw [h.1]

theorem setReg (s : State) (a : Nat) (v : Word) : Reported s (s.setReg a v) := rfl

theorem bump (s : State) (a : Nat) : Reported s (s.bump a) := of_reports (onlyReports_bump s a)

theorem bumpBy (s : State) (a n : Nat) : Reported s (s.bumpBy a n) := setReg s a _

theorem setFld (s : State) (a lo w n : Nat) : Reported s (s.setFld a lo w n) := setReg s a _

theorem setBit (s : State) (a i : Nat) (b : Bool) : Reported s (s.setBit a i b) := setReg s a _

theorem conErrInfo (s : State) (m a : Nat) (ue parity : Bool) : Reported s (s.conErrInfo m a ue parity) := setReg s _ _

theorem count (s : State) (i n : Nat) : Reported s (s.count i n) := rfl

theorem setCtl (s : State) (c : ConCtl) : Reported s { s with ctl := c } := rfl

theorem raise (s : State) (p b : Nat) : Reported s (s.raise p b) := of_reports (onlyReports_raise s p b)

theorem logError (s : State) (ident sub info : Nat) (inj : Bool) : Reported s (s.logError ident sub info inj) :=
  of_reports (onlyReports_logError s ident sub info inj)

theorem con (h : Reported s t) : t.con = s.con := by rw [h]

end Reported

theorem State.check_reported (s : State) (p det sub : Nat) (real : Bool) : Reported s (s.check p det sub real).st := by
  have fired : Reported s ((s.setBit (Reg.PAGE_ERR_INJ p) 30 false).raise Page.err 0) :=
    (Reported.setBit s (Reg.PAGE_ERR_INJ p) 30 false).trans (Reported.raise _ Page.err 0)
  rw [State.check]
  by_cases found : real = true
  · rw [if_pos found]
    exact Reported.refl s
  · rw [if_neg found]
    by_cases armed : s.armed p det sub = true
    · rw [if_pos armed]
      dsimp only
      exact fired
    · rw [if_neg armed]
      exact Reported.refl s

theorem State.conUe_reported (s : State) (m a : Nat) (inj : Bool) : Reported s (s.conUe m a inj) :=
  (((Reported.bump s _).trans (Reported.conErrInfo _ _ _ _ _)).trans (Reported.raise _ _ _)).trans (Reported.logError _ _ _ _ _)

theorem State.queueRebuild_reported (s : State) (b : Nat) : Reported s (s.queueRebuild b) := by
  unfold State.queueRebuild
  split
  · exact Reported.setCtl s _
  · exact Reported.refl s

theorem State.bankCe_reported (s : State) (b : Nat) : Reported s (s.bankCe b) := by
  unfold State.bankCe
  dsimp only
  split
  · exact (Reported.setFld s _ _ _ _).trans (State.queueRebuild_reported _ b)
  · exact Reported.setFld s _ _ _ _

theorem State.addWriteBack_reported (s : State) (w : Nat) : Reported s (s.addWriteBack w) := by
  unfold State.addWriteBack
  split
  · exact Reported.refl s
  · exact Reported.setCtl s _

/-- A corrected word, rebuilt from its row's parity. -/
def State.parityCorrected (s : State) (m a bank : Nat) (inj : Bool) : State :=
  (((s.bump Reg.CON_PARITY_CNT).conErrInfo m a false true).raise Page.con 2).logError 0x1301 bank a inj

/-- A corrected word, with one bit in error. -/
def State.singleCorrected (s : State) (m a bank : Nat) (inj : Bool) : State :=
  ((((s.bump Reg.CON_CE_CNT).bankCe bank).conErrInfo m a false false).raise Page.con 0).logError 0x1300 bank a inj

theorem State.parityCorrected_reported (s : State) (m a bank : Nat) (inj : Bool) : Reported s (s.parityCorrected m a bank inj) :=
  (((Reported.bump s _).trans (Reported.conErrInfo _ _ _ _ _)).trans (Reported.raise _ _ _)).trans (Reported.logError _ _ _ _ _)

theorem State.singleCorrected_reported (s : State) (m a bank : Nat) (inj : Bool) : Reported s (s.singleCorrected m a bank inj) :=
  ((((Reported.bump s _).trans (State.bankCe_reported _ bank)).trans (Reported.conErrInfo _ _ _ _ _)).trans (Reported.raise _ _ _)).trans
    (Reported.logError _ _ _ _ _)

/-- The check of a word, through what its three detectors find. -/
theorem State.conCheck_eq (s : State) (m a : Nat) (upset : Upset) : s.conCheck m a upset =
    (let realUe := s.ctl.bad.contains (a / 16) || decide (upset = .lost) || (decide (upset = .rebuilt) && s.ctl.badParity.contains (conRowKey a))
    let ue := s.check Page.con 2 (s.bankOf a) realUe
    let pr := s.check Page.con 1 (s.bankOf a) (decide (upset = .rebuilt))
    let ce := s.check Page.con 0 (s.bankOf a) (decide (upset = .single))
    let met := ue.st.conUe m a ue.inj
    let rebuilt := pr.st.parityCorrected m a (s.bankOf a) pr.inj
    let single := ce.st.singleCorrected m a (s.bankOf a) ce.inj
    if ue.hit then (if realUe ∧ ¬ s.ctl.bad.contains (a / 16) then { met with ctl := { met.ctl with bad := a / 16 :: met.ctl.bad } } else met, true)
    else if pr.hit then
      if s.ctl.badParity.contains (conRowKey a) then (pr.st.conUe m a pr.inj, true)
      else (if pr.inj then rebuilt else rebuilt.addWriteBack (a / 16), false)
    else if ce.hit then (if ce.inj then single else single.addWriteBack (a / 16), false)
    else (s, false)) := rfl

theorem State.conCheck_reported (s : State) (m a : Nat) (upset : Upset) : Reported s (s.conCheck m a upset).1 := by
  rw [State.conCheck_eq]
  dsimp only
  generalize hue : s.check Page.con 2 (s.bankOf a) (s.ctl.bad.contains (a / 16) || decide (upset = .lost) ||
    (decide (upset = .rebuilt) && s.ctl.badParity.contains (conRowKey a))) = ue
  generalize hpr : s.check Page.con 1 (s.bankOf a) (decide (upset = .rebuilt)) = pr
  generalize hce : s.check Page.con 0 (s.bankOf a) (decide (upset = .single)) = ce
  have fromUe : Reported s ue.st := hue ▸ s.check_reported ..
  have fromPr : Reported s pr.st := hpr ▸ s.check_reported ..
  have fromCe : Reported s ce.st := hce ▸ s.check_reported ..
  split
  · have met := fromUe.trans (ue.st.conUe_reported m a ue.inj)
    dsimp only
    split
    · exact met.trans (Reported.setCtl _ _)
    · exact met
  · split
    · split
      · exact fromPr.trans (pr.st.conUe_reported m a pr.inj)
      · have corrected := fromPr.trans (pr.st.parityCorrected_reported m a (s.bankOf a) pr.inj)
        dsimp only
        split
        · exact corrected
        · exact corrected.trans (State.addWriteBack_reported _ _)
    · split
      · have corrected := fromCe.trans (ce.st.singleCorrected_reported m a (s.bankOf a) ce.inj)
        dsimp only
        split
        · exact corrected
        · exact corrected.trans (State.addWriteBack_reported _ _)
      · exact Reported.refl s

theorem State.btTouch_reported (s : State) (cls : Cls) (a : Nat) : Reported s (s.btTouch cls a) := by
  unfold State.btTouch
  split
  · dsimp only
    split
    · exact ((Reported.count s 457 1).trans (Reported.setCtl _ _)).trans ((Reported.setFld _ _ _ _ _).trans (Reported.bump _ _))
    · exact Reported.count s 457 1
  · exact Reported.refl s

/-! ### Stores -/

/-- Only registers, what is reported, the controller's state and Concourse bytes among `n` from `a` differ. -/
structure Touched (s t : State) (a n : Nat) : Prop where
  rest : t = { s with regs := t.regs, pmu := t.pmu, out := t.out, con := t.con, ctl := t.ctl }
  con : KeepsCon s t a n

namespace Touched

variable {s t u : State} {a n b k : Nat}

theorem refl (s : State) (a n : Nat) : Touched s s a n := ⟨rfl, fun _ _ => rfl⟩

theorem trans (h : Touched s t a n) (g : Touched t u a n) : Touched s u a n where
  rest := by rw [g.rest, h.rest]
  con x hx := (g.con x hx).trans (h.con x hx)

theorem mono (h : Touched s t b k) (low : a ≤ b) (high : b + k ≤ a + n) : Touched s t a n := ⟨h.rest, fun x hx => h.con x (by omega)⟩

theorem of_reported (h : Reported s t) (a n : Nat) : Touched s t a n := ⟨by rw [h], fun x _ => State.conByte_congr h.con x⟩

theorem clk (h : Touched s t a n) : t.clk = s.clk := by rw [h.rest]

theorem mix (h : Touched s t a n) : t.mix = s.mix := by rw [h.rest]

theorem core (h : Touched s t a n) (i : Nat) : t.core i = s.core i := by rw [h.rest]; rfl

theorem foldl {α : Type} {f : State → α → State} (l : List α) (hf : ∀ u, ∀ x ∈ l, Touched u (f u x) a n) (s : State) :
    Touched s (l.foldl f s) a n := by
  induction l generalizing s with
  | nil => exact refl s a n
  | cons x l ih => exact (hf s x List.mem_cons_self).trans (ih (fun u y hy => hf u y (List.mem_cons_of_mem _ hy)) _)

end Touched

theorem State.conStore_touched (s : State) (a : Nat) (data : List Byte) : Touched s (s.conStore a data) a data.length := by
  have same : (s.conStore a data).con = (s.putConBytes a data).con := rfl
  refine ⟨by rw [MemOnly.conStore s a data], fun x hx => ?_⟩
  rw [State.conByte_congr same, State.conByte_putConBytes]
  split
  · rfl
  · rw [List.getElem?_eq_none (by omega), Option.getD_none]

theorem State.conWriteWord_touched (s : State) (m : Nat) (cls : Cls) (a : Nat) (data : List Byte) :
    Touched s (s.conWriteWord m cls a data Access.quiet).1 a data.length := by
  have counted : Reported s (((s.countPort m).btTouch cls a).count 455 4) :=
    ((Reported.count s _ 1).trans (State.btTouch_reported _ cls a)).trans (Reported.count _ 455 4)
  have same : s.conWriteWord m cls a data Access.quiet =
      if data.length < 16 then
        if ((((s.countPort m).btTouch cls a).count 455 4).conCheck m a .clean).2 then
          (((((s.countPort m).btTouch cls a).count 455 4).conCheck m a .clean).1, WriteResult.poisoned)
        else (((((s.countPort m).btTouch cls a).count 455 4).conCheck m a .clean).1.conStore a data, WriteResult.done)
      else ((((s.countPort m).btTouch cls a).count 455 4).conStore a data, WriteResult.done) := rfl
  rw [same]
  generalize ((s.countPort m).btTouch cls a).count 455 4 = u at *
  have checked := counted.trans (u.conCheck_reported m a .clean)
  generalize u.conCheck m a .clean = k at *
  split
  · split
    · exact Touched.of_reported checked a _
    · exact (Touched.of_reported checked a _).trans (State.conStore_touched _ a data)
  · exact (Touched.of_reported counted a _).trans (u.conStore_touched a data)

theorem State.devStore_touched (m : Nat) (cls : Cls) (fuel : Nat) (s : State) (a : Nat) (data : List Byte) :
    Touched s (s.devStore m cls a data fuel) a data.length := by
  induction fuel generalizing s a data with
  | zero => exact Touched.refl s a _
  | succ fuel ih =>
    unfold State.devStore
    split
    · exact Touched.refl s a _
    · have first := s.conWriteWord_touched m cls a (data.take (16 - a % 16))
      have rest := ih (s.conWriteWord m cls a (data.take (16 - a % 16)) Access.quiet).1 (a + (16 - a % 16)) (data.drop (16 - a % 16))
      rw [List.length_take] at first
      rw [List.length_drop] at rest
      by_cases whole : data.length ≤ 16 - a % 16
      · have none : data.drop (16 - a % 16) = [] := List.drop_eq_nil_of_le whole
        dsimp only
        rw [none, State.devStore_nil]
        exact first.mono (Nat.le_refl a) (by omega)
      · exact (first.mono (Nat.le_refl a) (by omega)).trans (rest.mono (by omega) (by omega))

theorem State.devWrite_touched (s : State) (m : Nat) (cls : Cls) (a : Nat) (ws : List Word) : Touched s (s.devWrite m cls a ws) a (4 * ws.length) := by
  have written := State.devStore_touched m cls (ws.length + 1) s a (wordBytes ws)
  rwa [length_wordBytes] at written

end Sys2Proof.Machine
end

section
/-! PROOFS. O41: the closing of voice sums and of final sums. -/

namespace Sys2Proof.Sparse

variable {α β : Type} {dflt : Nat → α} [DecidableEq α]

theorem get_upd (m : Map α) (j k : Nat) (f : α → α) : get dflt (upd dflt m k f) j = if j = k then f (get dflt m k) else get dflt m j := get_put m j k _

/-- A key that no step of a fold changes. -/
theorem get_foldl_upd_other {l : List β} {key : β → Nat} {f : β → α → α} {k : Nat} (h : ∀ x ∈ l, key x ≠ k) (m : Map α) :
    get dflt (l.foldl (fun m x => upd dflt m (key x) (f x)) m) k = get dflt m k := by
  induction l generalizing m with
  | nil => rfl
  | cons x l ih => rw [List.foldl_cons, ih (fun y hy => h y (List.mem_cons_of_mem _ hy)), get_upd, if_neg (h x List.mem_cons_self).symm]

/-- A key that exactly one step of a fold changes. -/
theorem get_foldl_upd_mem {l : List β} {key : β → Nat} {f : β → α → α} (inj : ∀ x ∈ l, ∀ y ∈ l, key x = key y → x = y) (nodup : l.Nodup)
    {x : β} (hx : x ∈ l) (m : Map α) : get dflt (l.foldl (fun m x => upd dflt m (key x) (f x)) m) (key x) = f x (get dflt m (key x)) := by
  induction l generalizing m with
  | nil => simp at hx
  | cons y l ih =>
    rw [List.nodup_cons] at nodup
    rw [List.foldl_cons]
    by_cases e : x = y
    · subst e
      rw [get_foldl_upd_other (fun z hz same => nodup.1 ((inj z (List.mem_cons_of_mem _ hz) x List.mem_cons_self same) ▸ hz)), get_upd, if_pos rfl]
    · rw [ih (fun a ha b hb => inj a (List.mem_cons_of_mem _ ha) b (List.mem_cons_of_mem _ hb)) nodup.2 (List.mem_of_ne_of_mem e hx), get_upd,
        if_neg (fun same => e (inj x hx y List.mem_cons_self same))]

theorem put_eq_upd (m : Map α) (k : Nat) (v : α) : put dflt m k v = upd dflt m k (fun _ => v) := rfl

omit [DecidableEq α] in
/-- Values that are mapped, the default to the default. -/
theorem get_map {γ : Type} {d : Nat → γ} {g : α → γ} (h : ∀ k, g (dflt k) = d k) (m : Map α) (k : Nat) :
    get d (m.map (fun e => (e.1, g e.2))) k = g (get dflt m k) := by
  induction m with
  | nil => exact (h k).symm
  | cons e m ih =>
    obtain ⟨j, v⟩ := e
    by_cases same : j = k
    · simp [get, same]
    · simp [get, same, ih]

end Sys2Proof.Sparse

namespace Sys2Proof.Machine

/-! ### Sums of contributions (R246, R247) -/

theorem MixTerm.at_none (t : MixTerm) (stop : Bool) (n j : Nat) {bus : Nat} (h : bus ∉ t.sends.map (fun d => d.bus)) : t.at stop n bus j = 0 := by
  unfold MixTerm.at
  refine foldl_eq_self fun d hd => if_neg fun same => h ?_
  rw [← same]
  exact List.mem_map_of_mem hd

theorem nodup_eraseDups {l : List Nat} : l.eraseDups.Nodup := by
  generalize len : l.length = n
  induction n using Nat.strong_induction_on generalizing l with
  | _ n ih =>
    cases l with
    | nil => simp
    | cons a l =>
      rw [List.eraseDups_cons, List.nodup_cons]
      refine ⟨fun h => ?_, ih _ (lt_of_le_of_lt (List.length_filter_le _ _) (by rw [← len, List.length_cons]; exact Nat.lt_succ_self _)) rfl⟩
      rw [List.mem_eraseDups, List.mem_filter] at h
      simp at h

/-- One contribution's samples on one bus. -/
theorem get_busTerm {n bus j : Nat} (hj : j < n) (small : n ≤ 128) (g : Nat → Int) (b : Nat) (m : Map Int) :
    Sparse.get (fun _ => 0) ((List.range n).foldl (fun m i => Sparse.upd (fun _ => 0) m (128 * b + i) (· + g i)) m) (128 * bus + j) =
      Sparse.get (fun _ => 0) m (128 * bus + j) + if b = bus then g j else 0 := by
  by_cases same : b = bus
  · subst same
    rw [if_pos rfl]
    exact Sparse.get_foldl_upd_mem (key := fun i => 128 * b + i) (f := fun i v => v + g i) (fun x _ y _ e => by simpa using e) List.nodup_range
      (List.mem_range.2 hj) m
  · rw [if_neg same, Int.add_zero]
    refine Sparse.get_foldl_upd_other (key := fun i => 128 * b + i) (f := fun i v => v + g i) (fun i hi e => same ?_) m
    have := List.mem_range.1 hi
    omega

/-- One contribution's samples on distinct buses. -/
theorem get_busTerms {n bus j : Nat} (hj : j < n) (small : n ≤ 128) (g : Nat → Nat → Int) {bs : List Nat} (nodup : bs.Nodup) (m : Map Int) :
    Sparse.get (fun _ => 0) (bs.foldl (fun m b => (List.range n).foldl (fun m i => Sparse.upd (fun _ => 0) m (128 * b + i) (· + g b i)) m) m)
      (128 * bus + j) = Sparse.get (fun _ => 0) m (128 * bus + j) + if bus ∈ bs then g bus j else 0 := by
  induction bs generalizing m with
  | nil => simp
  | cons b bs ih =>
    rw [List.nodup_cons] at nodup
    rw [List.foldl_cons, ih nodup.2, get_busTerm hj small (g b) b]
    by_cases same : b = bus
    · subst same
      rw [if_pos rfl, if_neg nodup.1, if_pos List.mem_cons_self, Int.add_zero]
    · rw [if_neg same, Int.add_zero]
      simp only [List.mem_cons, Ne.symm same, false_or]

theorem get_sumTerms {n bus j : Nat} (hj : j < n) (small : n ≤ 128) (stop : Bool) (terms : List MixTerm) (base : Map Int) :
    Sparse.get (fun _ => 0) (sumTerms base terms stop n) (128 * bus + j) =
      Sparse.get (fun _ => 0) base (128 * bus + j) + (terms.map (fun t => t.at stop n bus j)).sum := by
  unfold sumTerms
  induction terms generalizing base with
  | nil => simp
  | cons t terms ih =>
    rw [List.foldl_cons, ih, get_busTerms hj small (t.at stop n) nodup_eraseDups, List.map_cons, List.sum_cons, ← Int.add_assoc]
    congr 2
    split
    · rfl
    · rename_i h
      rw [List.mem_eraseDups] at h
      exact (t.at_none stop n j h).symm

theorem State.rendered_le (s : State) : s.rendered ≤ 128 := by
  have := s.blk_le
  unfold State.rendered State.os
  split <;> omega

/-! ### Voice sums (R247, R248) -/

section Voice

variable {s : State}

/-- The voice sums of block `b` are closed. -/
def State.voiceClosed (s : State) (b : Nat) : State :=
  { s with mix := { s.mix with
    voiceSum := sumTerms [] (s.mix.terms.filter (fun t => decide (t.bseq = b) && !t.bus)) (decide (s.mix.stopFrom = some b)) s.rendered
    voiceBlock := some b, terms := s.mix.terms.filter (fun t => !(decide (t.bseq = b) && !t.bus)) } }

/-- One bus's part of the bus image is written. -/
def State.writeBusImage (s : State) (sums : Map Int) (n bus : Nat) : State :=
  let q := (List.range n).map (fun j => roundSum (Sparse.get (fun _ => 0) sums (128 * bus + j)))
  (s.devWrite 35 .normal (0x00E64000 + 512 * bus) (q.map (fun x => x.1))).countSat (q.filter (fun x => x.2)).length

theorem State.closeVoice_eq (s : State) (b : Nat) :
    s.closeVoice b = (List.range 128).foldl (fun u bus => u.writeBusImage (s.voiceClosed b).mix.voiceSum s.rendered bus) (s.voiceClosed b) := rfl

theorem State.countSat_touched (s : State) (k a n : Nat) : Touched s (s.countSat k) a n :=
  Touched.of_reported ((Reported.bumpBy s Reg.MIX_SAT_CNT k).trans (Reported.count _ 472 k)) a n

theorem State.writeBusImage_touched (s : State) (sums : Map Int) {n bus : Nat} (small : n ≤ 128) (inside : bus < 128) :
    Touched s (s.writeBusImage sums n bus) 0x00E64000 0x10000 := by
  unfold State.writeBusImage
  dsimp only
  generalize words : ((List.range n).map (fun j => roundSum (Sparse.get (fun _ => 0) sums (128 * bus + j)))).map (fun x => x.1) = ws
  have len : ws.length = n := by rw [← words, List.length_map, List.length_map, List.length_range]
  exact ((s.devWrite_touched 35 .normal (0x00E64000 + 512 * bus) ws).mono (by omega) (by omega)).trans (State.countSat_touched _ _ _ _)

theorem State.closeVoice_touched (s : State) (b : Nat) : Touched (s.voiceClosed b) (s.closeVoice b) 0x00E64000 0x10000 := by
  rw [State.closeVoice_eq]
  exact Touched.foldl _ (fun u bus hb => u.writeBusImage_touched _ s.rendered_le (List.mem_range.1 hb)) _

theorem voiceSumClose_closes (runs : s.running = true) (fresh : s.clk.voiceSumDone ≠ s.period + 1) (due : s.clk.deadlineDone = s.period + 1) :
    Completes .voiceSumClose s (fun t =>
      (∀ bus, bus < 128 → ∀ j, j < s.rendered → Sparse.get (fun _ => 0) t.mix.voiceSum (128 * bus + j) =
        ((s.mix.terms.filter (fun m => decide (m.bseq = s.period + 1) && !m.bus)).map
          (fun m => m.at (decide (s.mix.stopFrom = some (s.period + 1))) s.rendered bus j)).sum) ∧
      t.mix.voiceBlock = some (s.period + 1) ∧ t.clk.voiceSumDone = s.period + 1 ∧
      t.mix.terms = s.mix.terms.filter (fun m => !(decide (m.bseq = s.period + 1) && !m.bus)) ∧
      KeepsCon s t 0x00E64000 0x10000 ∧ KeepsCores s t [] ∧ t.clk = { s.clk with voiceSumDone := s.period + 1 }) := by
  have run : exec .voiceSumClose s = .next { s.closeVoice (s.period + 1) with clk := { (s.closeVoice (s.period + 1)).clk with voiceSumDone := s.period + 1 } } := by
    refine if_neg ?_
    rintro (still | done | early)
    · rw [runs] at still
      exact Bool.noConfusion still
    · exact fresh done
    · exact early due
  have touched := s.closeVoice_touched (s.period + 1)
  refine ⟨_, run, ?_⟩
  generalize s.closeVoice (s.period + 1) = t at *
  have mix := touched.mix
  refine ⟨fun bus _ j hj => ?_, ?_, rfl, ?_, fun x hx => touched.con x hx, fun n _ => touched.core n, ?_⟩
  · rw [mix]
    exact (get_sumTerms hj s.rendered_le _ _ []).trans (Int.zero_add _)
  · rw [mix]; rfl
  · rw [mix]; rfl
  · rw [touched.clk]; rfl

end Voice

/-! ### Final sums (R247, R249) -/

/-- The final sums of block `b` before rounding. -/
def State.finalSums (s : State) (b : Nat) : Map Int :=
  sumTerms (if s.mix.voiceBlock = some b then s.mix.voiceSum else []) (s.mix.terms.filter (fun t => decide (t.bseq = b) && t.bus))
    (decide (s.mix.stopFrom = some b)) s.rendered

/-- Of the state only what the Mix Engine and the Decimation Engine hold, registers, counts and deferred writes of EN differ. -/
structure Summed (s t : State) (l : List Nat) : Prop where
  rest : t = { s with regs := t.regs, pmu := t.pmu, mix := t.mix, dec := t.dec, deferred := t.deferred }
  regs : KeepsRegs s t l

namespace Summed

variable {s t u : State} {l m : List Nat}

theorem trans (h : Summed s t l) (g : Summed t u m) : Summed s u (l ++ m) where
  rest := by rw [g.rest, h.rest]
  regs := KeepsRegs.trans h.regs g.regs

theorem mono (h : Summed s t l) (sub : l ⊆ m) : Summed s t m := ⟨h.rest, KeepsRegs.mono h.regs sub⟩

theorem of_regs (h : OnlyRegs s t l) : Summed s t l := ⟨by rw [h.1], h.2⟩

theorem setMix (s : State) (x : Mixer) (l : List Nat) : Summed s { s with mix := x } l := ⟨rfl, fun _ _ => rfl⟩

theorem setDec (s : State) (x : Decimator) (l : List Nat) : Summed s { s with dec := x } l := ⟨rfl, fun _ _ => rfl⟩

theorem count (s : State) (i n : Nat) (l : List Nat) : Summed s (s.count i n) l := ⟨rfl, fun _ _ => rfl⟩

end Summed

/-- Block `b` is closed, its samples not yet counted. -/
def State.finalClosed (s : State) (b : Nat) : State :=
  { s with mix := { s.mix with
    final := ((s.finalSums b).map (fun e => (e.1, roundSum e.2))).map (fun e => (e.1, e.2.1)), finalBlock := some b
    terms := s.mix.terms.filter (fun t => decide (b < t.bseq)), snaps := s.mix.snaps.filter (fun m => decide (b ≤ m.bseq)) } }

theorem State.closeFinal_eq (s : State) (b : Nat) : ∃ k, s.closeFinal b = (s.finalClosed b).countSat k := ⟨_, rfl⟩

theorem State.final_finalClosed (s : State) (b : Nat) {bus j : Nat} (hj : j < s.rendered) :
    Sparse.get (fun _ => 0) (s.finalClosed b).mix.final (128 * bus + j) =
      (roundSum ((if s.mix.voiceBlock = some b then Sparse.get (fun _ => 0) s.mix.voiceSum (128 * bus + j) else 0) +
        ((s.mix.terms.filter (fun m => decide (m.bseq = b) && m.bus)).map
          (fun m => m.at (decide (s.mix.stopFrom = some b)) s.rendered bus j)).sum)).1 := by
  have mapped : (s.finalClosed b).mix.final = (s.finalSums b).map (fun e => (e.1, (roundSum e.2).1)) := List.map_map
  rw [mapped, Sparse.get_map (dflt := fun _ => (0 : Int)) (d := fun _ => (0 : Word)) (g := fun v => (roundSum v).1) (fun _ => rfl), State.finalSums, get_sumTerms hj s.rendered_le]
  split
  · rfl
  · rfl

theorem State.closeFinal_summed (s : State) (b : Nat) : Summed s (s.closeFinal b) [Reg.MIX_SAT_CNT] ∧
    (s.closeFinal b).mix = (s.finalClosed b).mix ∧ (s.closeFinal b).dec = s.dec := by
  obtain ⟨k, same⟩ := s.closeFinal_eq b
  have counted : OnlyRegs (s.finalClosed b) ((s.finalClosed b).bumpBy Reg.MIX_SAT_CNT k) [Reg.MIX_SAT_CNT] := onlyRegs_setReg ..
  have closed : Summed s (s.finalClosed b) [] := Summed.setMix s _ []
  have dec : (s.finalClosed b).dec = s.dec := rfl
  rw [same, State.countSat]
  generalize (s.finalClosed b).bumpBy Reg.MIX_SAT_CNT k = u at *
  generalize s.finalClosed b = v at *
  refine ⟨((closed.trans (Summed.of_regs counted)).trans (Summed.count u 472 k [])).mono (by simp), ?_, ?_⟩
  · rw [counted.1]; rfl
  · rw [counted.1]; exact dec

theorem State.startPage_mix (s : State) : s.startPage Page.mix =
    { (s.setBit (Reg.PAGE_CTRL Page.mix) 0 true).setBit (Reg.PAGE_STAT Page.mix) 0 false with mix := { s.mix with stopFrom := none } } := rfl

/-- The MIX page has drained: what it holds of a block stays. -/
theorem State.idle_mix (s : State) : Summed s (s.idle Page.mix) [Reg.PAGE_STAT Page.mix, Reg.PAGE_CTRL Page.mix] ∧
    (s.idle Page.mix).mix.final = s.mix.final ∧ (s.idle Page.mix).mix.finalBlock = s.mix.finalBlock ∧ (s.idle Page.mix).dec = s.dec := by
  have shown : OnlyRegs s ((s.setBit (Reg.PAGE_STAT Page.mix) 1 false).setBit (Reg.PAGE_STAT Page.mix) 0 true)
      [Reg.PAGE_STAT Page.mix, Reg.PAGE_CTRL Page.mix] :=
    ((onlyRegs_setReg s (Reg.PAGE_STAT Page.mix) _).trans (onlyRegs_setReg _ (Reg.PAGE_STAT Page.mix) _)).mono (by decide)
  unfold State.idle
  dsimp only
  generalize (s.setBit (Reg.PAGE_STAT Page.mix) 1 false).setBit (Reg.PAGE_STAT Page.mix) 0 true = t at *
  split
  · have enabled : ∀ u : State, Summed u (u.startPage Page.mix) [Reg.PAGE_STAT Page.mix, Reg.PAGE_CTRL Page.mix] ∧
        (u.startPage Page.mix).mix.final = u.mix.final ∧ (u.startPage Page.mix).mix.finalBlock = u.mix.finalBlock ∧
        (u.startPage Page.mix).dec = u.dec := fun u => by
      rw [u.startPage_mix]
      have written : OnlyRegs u ((u.setBit (Reg.PAGE_CTRL Page.mix) 0 true).setBit (Reg.PAGE_STAT Page.mix) 0 false)
          [Reg.PAGE_STAT Page.mix, Reg.PAGE_CTRL Page.mix] :=
        ((onlyRegs_setReg u (Reg.PAGE_CTRL Page.mix) _).trans (onlyRegs_setReg _ (Reg.PAGE_STAT Page.mix) _)).mono (by decide)
      generalize (u.setBit (Reg.PAGE_CTRL Page.mix) 0 true).setBit (Reg.PAGE_STAT Page.mix) 0 false = w at written
      refine ⟨Summed.mono (m := [Reg.PAGE_STAT Page.mix, Reg.PAGE_CTRL Page.mix]) ((Summed.of_regs written).trans (Summed.setMix w _ [])) (by decide),
        rfl, rfl, ?_⟩
      rw [written.1]
    have deferred : Summed t { t with deferred := t.deferred.filter (fun q => decide (q ≠ Page.mix)) } [] := ⟨rfl, fun _ _ => rfl⟩
    obtain ⟨frame, final, block, dec⟩ := enabled { t with deferred := t.deferred.filter (fun q => decide (q ≠ Page.mix)) }
    refine ⟨(((Summed.of_regs shown).trans deferred).trans frame).mono (by decide), final.trans ?_, block.trans ?_, dec.trans ?_⟩
    · rw [shown.1]
    · rw [shown.1]
    · rw [shown.1]
  · refine ⟨Summed.of_regs shown, ?_, ?_, ?_⟩
    · rw [shown.1]
    · rw [shown.1]
    · rw [shown.1]

/-! ### Bus channels (R250, R251) -/

/-- Without oversampling, a DC blocker and a stop, a bus channel's outputs are its inputs. -/
theorem BusRun.run_plain {r : BusRun} (plain : r.os ≠ 2) (going : r.stop = none) (input : Nat → Word) (h : FirState) (m k : Nat) :
    (r.run input h none m k).2.2.1 = (List.range' m k).map input := by
  induction k generalizing m h with
  | zero => rfl
  | succ k ih =>
    have gain : stopFactor r.stop (r.first + m) = 32 := by rw [going]; rfl
    rw [BusRun.run, List.range'_succ, List.map_cons]
    simp only [plain, if_false, Option.map_none, ih, gain]
    rfl

/-- What one bus channel puts into the outputs. -/
def State.busOut (s : State) (r : BusRun) (bus : Nat) : List Word :=
  (r.run (fun j => Sparse.get (fun _ => 0) s.mix.final (128 * bus + j)) (Sparse.get (fun _ => FirState.reset) s.dec.busHist bus)
    (if fieldOf (Sparse.get (fun _ => 0) s.dec.dcbEn (bus / 32)) (bus % 32) 1 = 1 then some (Sparse.get (fun _ => 0) s.dec.dcb bus) else Option.none)
    0 r.blk).2.2.1

theorem State.decimateBus_out (s : State) (r : BusRun) (bus : Nat) : (s.decimateBus r bus).dec.out =
    (List.range r.blk).foldl (fun m j => Sparse.put (fun _ => 0) m (64 * bus + j) (((s.busOut r bus)[j]?).getD 0)) s.dec.out := rfl

theorem State.decimateBus_summed (s : State) (r : BusRun) (bus : Nat) : Summed s (s.decimateBus r bus) [Reg.DEC_SAT_CNT] ∧
    (s.decimateBus r bus).mix = s.mix ∧ (s.decimateBus r bus).dec.dcbEn = s.dec.dcbEn ∧ (s.decimateBus r bus).dec.outBlock = s.dec.outBlock :=
  ⟨⟨rfl, (onlyRegs_setReg { s with dec := (s.decimateBus r bus).dec } Reg.DEC_SAT_CNT _).2⟩, rfl, rfl, rfl⟩

/-- A bus channel without a DC blocker. -/
theorem State.busOut_plain {s : State} {r : BusRun} (plain : r.os ≠ 2) (going : r.stop = none) {bus : Nat}
    (off : (Sparse.get (fun _ => 0) s.dec.dcbEn (bus / 32)).getLsbD (bus % 32) = false) {j : Nat} (hj : j < r.blk) :
    (s.busOut r bus)[j]? = some (Sparse.get (fun _ => 0) s.mix.final (128 * bus + j)) := by
  have disabled : fieldOf (Sparse.get (fun _ => 0) s.dec.dcbEn (bus / 32)) (bus % 32) 1 ≠ 1 := by
    rw [fieldOf_one_eq_testBit, BitVec.testBit_toNat, off]
    decide
  rw [State.busOut, if_neg disabled, BusRun.run_plain plain going, List.getElem?_map, List.getElem?_range' hj]
  simp

theorem State.out_decimateBus {s : State} {r : BusRun} (plain : r.os ≠ 2) (going : r.stop = none) (small : r.blk ≤ 64) {bus : Nat}
    (off : (Sparse.get (fun _ => 0) s.dec.dcbEn (bus / 32)).getLsbD (bus % 32) = false) {j : Nat} (hj : j < r.blk) (b : Nat) :
    Sparse.get (fun _ => 0) (s.decimateBus r b).dec.out (64 * bus + j) =
      if b = bus then Sparse.get (fun _ => 0) s.mix.final (128 * bus + j) else Sparse.get (fun _ => 0) s.dec.out (64 * bus + j) := by
  rw [State.decimateBus_out]
  split
  case isTrue same =>
    subst same
    refine (Sparse.get_foldl_upd_mem (key := fun j => 64 * b + j) (f := fun j _ => ((s.busOut r b)[j]?).getD 0) (fun x _ y _ e => by simpa using e)
      List.nodup_range (List.mem_range.2 hj) s.dec.out).trans ?_
    rw [State.busOut_plain plain going off hj, Option.getD_some]
  case isFalse apart =>
    refine Sparse.get_foldl_upd_other (key := fun j => 64 * b + j) (f := fun j _ => ((s.busOut r b)[j]?).getD 0) (fun i hi e => apart ?_) s.dec.out
    have := List.mem_range.1 hi
    omega

/-- The bus channels of a list are computed. -/
def State.decimateAll (s : State) (r : BusRun) (l : List Nat) : State := l.foldl (fun u b => u.decimateBus r b) s

theorem State.decimateAll_summed (s : State) (r : BusRun) (l : List Nat) : Summed s (s.decimateAll r l) [Reg.DEC_SAT_CNT] ∧
    (s.decimateAll r l).mix = s.mix ∧ (s.decimateAll r l).dec.dcbEn = s.dec.dcbEn ∧ (s.decimateAll r l).dec.outBlock = s.dec.outBlock := by
  induction l generalizing s with
  | nil => exact ⟨⟨rfl, fun _ _ => rfl⟩, rfl, rfl, rfl⟩
  | cons b l ih =>
    obtain ⟨frame, mix, en, block⟩ := s.decimateBus_summed r b
    obtain ⟨frame', mix', en', block'⟩ := ih (s.decimateBus r b)
    exact ⟨(frame.trans frame').mono (by decide), mix'.trans mix, en'.trans en, block'.trans block⟩

theorem State.out_decimateAll {s : State} {r : BusRun} (plain : r.os ≠ 2) (going : r.stop = none) (small : r.blk ≤ 64) {bus : Nat}
    (off : (Sparse.get (fun _ => 0) s.dec.dcbEn (bus / 32)).getLsbD (bus % 32) = false) {j : Nat} (hj : j < r.blk) (l : List Nat) :
    Sparse.get (fun _ => 0) (s.decimateAll r l).dec.out (64 * bus + j) =
      if bus ∈ l then Sparse.get (fun _ => 0) s.mix.final (128 * bus + j) else Sparse.get (fun _ => 0) s.dec.out (64 * bus + j) := by
  induction l generalizing s with
  | nil => simp only [State.decimateAll, List.foldl_nil, List.not_mem_nil, if_false]
  | cons b l ih =>
    obtain ⟨_, mix, en, _⟩ := s.decimateBus_summed r b
    have rest := ih (s := s.decimateBus r b) (by rw [en]; exact off)
    rw [mix, State.out_decimateBus plain going small off hj b] at rest
    refine Eq.trans rest ?_
    by_cases same : b = bus
    · subst same
      simp only [List.mem_cons_self, if_true, ite_self]
    · simp only [List.mem_cons, Ne.symm same, false_or, if_neg same]

/-- The Decimation Engine takes up block `n`. -/
def State.blockTaken (s : State) (n : Nat) : State :=
  let first := n * s.blk
  let sel := s.fld Reg.DEC_CTRL 0 1
  let d0 := s.dec
  let d1 := if sel = d0.busSet then
      (match d0.busXf with
       | some x => if x.start + 64 ≤ first then { d0 with busXf := Option.none } else d0
       | none => d0)
    else { d0 with busSet := sel, busXf := some { start := first, old := d0.busSet } }
  let en := (List.range 4).foldl (fun m i => Sparse.put (fun _ => 0) m i (s.reg (Reg.DEC_DCB_EN0 + 4 * i))) []
  { s with dec := { d1 with out := [], outBlock := some n, dcbEn := en } }.setBit Reg.DEC_STAT 0 d1.busXf.isSome

theorem State.decimate_eq (s : State) (n : Nat) : ∃ r : BusRun, ∃ i j, r.os = s.os ∧ r.stop = s.dec.stopBus ∧ r.blk = s.blk ∧
    s.decimate n = (((s.blockTaken n).decimateAll r (List.range 128)).count 473 i).count 474 j := ⟨_, _, _, rfl, rfl, rfl, rfl⟩

theorem State.blockTaken_summed (s : State) (n : Nat) : Summed s (s.blockTaken n) [Reg.DEC_STAT] ∧ (s.blockTaken n).mix = s.mix ∧
    (s.blockTaken n).dec.outBlock = some n ∧
    ∀ i, i < 4 → Sparse.get (fun _ => 0) (s.blockTaken n).dec.dcbEn i = s.reg (Reg.DEC_DCB_EN0 + 4 * i) := by
  refine ⟨⟨rfl, (onlyRegs_setReg { s with dec := (s.blockTaken n).dec } Reg.DEC_STAT _).2⟩, rfl, rfl, fun i hi => ?_⟩
  exact Sparse.get_foldl_upd_mem (key := fun i => i) (f := fun i _ => s.reg (Reg.DEC_DCB_EN0 + 4 * i)) (fun _ _ _ _ => id) List.nodup_range
    (List.mem_range.2 hi) []

/-- What the decimation of block `n` leaves, and its outputs. -/
theorem State.decimate_shows (s : State) (n : Nat) : Summed s (s.decimate n) [Reg.DEC_STAT, Reg.DEC_SAT_CNT] ∧ (s.decimate n).mix = s.mix ∧
    (s.decimate n).dec.outBlock = some n ∧
    (s.os = 1 → s.dec.stopBus = none → ∀ bus, bus < 128 → ∀ j, j < s.blk → (s.reg (Reg.DEC_DCB_EN0 + 4 * (bus / 32))).getLsbD (bus % 32) = false →
      Sparse.get (fun _ => 0) (s.decimate n).dec.out (64 * bus + j) = Sparse.get (fun _ => 0) s.mix.final (128 * bus + j)) := by
  obtain ⟨r, i, k, os, stop, blk, same⟩ := s.decimate_eq n
  obtain ⟨taken, mix, block, enabled⟩ := s.blockTaken_summed n
  obtain ⟨all, mix', _, block'⟩ := (s.blockTaken n).decimateAll_summed r (List.range 128)
  have out : s.os = 1 → s.dec.stopBus = none → ∀ bus, bus < 128 → ∀ j, j < s.blk →
      (s.reg (Reg.DEC_DCB_EN0 + 4 * (bus / 32))).getLsbD (bus % 32) = false →
      Sparse.get (fun _ => 0) ((s.blockTaken n).decimateAll r (List.range 128)).dec.out (64 * bus + j) =
        Sparse.get (fun _ => 0) s.mix.final (128 * bus + j) := by
    intro single going bus hbus j hj off
    have out := State.out_decimateAll (s := s.blockTaken n) (r := r) (bus := bus) (j := j) (by rw [os, single]; decide) (stop.trans going)
      (blk.trans_le s.blk_le) (by rw [enabled _ (by omega)]; exact off) (by rw [blk]; exact hj) (List.range 128)
    rwa [if_pos (List.mem_range.2 hbus), mix] at out
  rw [same]
  generalize (s.blockTaken n).decimateAll r (List.range 128) = u at *
  generalize s.blockTaken n = v at *
  refine ⟨(((taken.trans all).trans (Summed.count u 473 i [])).trans (Summed.count _ 474 k [])).mono (by decide), ?_, ?_, ?_⟩
  · rw [State.count_mix, State.count_mix, mix', mix]
  · rw [State.count_dec, State.count_dec, block', block]
  · rw [State.count_dec, State.count_dec]
    exact out

/-! ### The end of a block (R250) -/

/-- The MIX page drains with block `b` when the Mix Engine is to stop after it. -/
def State.mixStops (s : State) (b : Nat) : State :=
  if s.mix.stopFrom = some b then State.idle { s with mix := { s.mix with stopFrom := some 0 } } Page.mix else s

theorem State.mixStops_summed (s : State) (b : Nat) : Summed s (s.mixStops b) [Reg.PAGE_STAT Page.mix, Reg.PAGE_CTRL Page.mix] ∧
    (s.mixStops b).mix.final = s.mix.final ∧ (s.mixStops b).mix.finalBlock = s.mix.finalBlock ∧ (s.mixStops b).dec = s.dec := by
  unfold State.mixStops
  split
  · obtain ⟨frame, final, block, dec⟩ := State.idle_mix { s with mix := { s.mix with stopFrom := some 0 } }
    exact ⟨((Summed.setMix s { s.mix with stopFrom := some 0 } []).trans frame).mono (by decide), final, block, dec⟩
  · exact ⟨⟨rfl, fun _ _ => rfl⟩, rfl, rfl, rfl⟩

/-- The final sums of block `b` are closed and its bus channels decimated. -/
def State.blockEnds (s : State) (b : Nat) : State := ((s.closeFinal b).mixStops b).decimate b

theorem Summed.fld {s t : State} {l : List Nat} (h : Summed s t l) {a : Nat} (ha : a ∉ l) (lo w : Nat) : t.fld a lo w = s.fld a lo w :=
  State.fld_of_reg (h.regs a ha) lo w

theorem Summed.blk {s t : State} {l : List Nat} (h : Summed s t l) (cfg : Reg.CLK_MEDIA_CFG ∉ l) : t.blk = s.blk := by
  rw [State.blk, h.fld cfg, State.blk]

theorem Summed.os {s t : State} {l : List Nat} (h : Summed s t l) (cfg : Reg.CLK_MEDIA_CFG ∉ l) : t.os = s.os := by
  rw [State.os, State.bit_of_reg (h.regs _ cfg), State.os]

theorem dcbEn_notMem {i : Nat} (h : i < 4) :
    Reg.DEC_DCB_EN0 + 4 * i ∉ [Reg.MIX_SAT_CNT] ++ [Reg.PAGE_STAT Page.mix, Reg.PAGE_CTRL Page.mix] := by
  interval_cases i <;> decide

theorem State.blockEnds_shows (s : State) (b : Nat) :
    (∃ l, Summed s (s.blockEnds b) l) ∧ (s.blockEnds b).mix.final = (s.finalClosed b).mix.final ∧ (s.blockEnds b).mix.finalBlock = some b ∧
    (s.blockEnds b).dec.outBlock = some b ∧
    (s.os = 1 → s.dec.stopBus = none → ∀ bus, bus < 128 → ∀ j, j < s.blk → (s.reg (Reg.DEC_DCB_EN0 + 4 * (bus / 32))).getLsbD (bus % 32) = false →
      Sparse.get (fun _ => 0) (s.blockEnds b).dec.out (64 * bus + j) = Sparse.get (fun _ => 0) (s.blockEnds b).mix.final (128 * bus + j)) := by
  obtain ⟨closed, mix, dec⟩ := s.closeFinal_summed b
  have closing : (s.finalClosed b).mix.finalBlock = some b := rfl
  unfold State.blockEnds
  generalize s.finalClosed b = c at *
  generalize s.closeFinal b = t at *
  obtain ⟨stopped, final, block, dec'⟩ := t.mixStops_summed b
  generalize t.mixStops b = u at *
  obtain ⟨computed, mix', out, plain⟩ := u.decimate_shows b
  generalize u.decimate b = v at *
  have before := closed.trans stopped
  rw [before.os (by decide), before.blk (by decide), dec', dec] at plain
  refine ⟨⟨_, before.trans computed⟩, ?_, ?_, out, fun single going bus hbus j hj off => ?_⟩
  · rw [mix', final, mix]
  · rw [mix', block, mix, closing]
  · rw [mix']
    exact plain single going bus hbus j hj (by rw [before.regs _ (dcbEn_notMem (by omega))]; exact off)

theorem finalSumClose_closes {s : State} (runs : s.running = true) (fresh : s.clk.finalSumDone ≠ s.period + 1)
    (due : s.clk.busDeadlineDone = s.period + 1) : Completes .finalSumClose s (fun t =>
      t.mix.finalBlock = some (s.period + 1) ∧ t.dec.outBlock = some (s.period + 1) ∧ t.clk = { s.clk with finalSumDone := s.period + 1 } ∧
      (∀ bus, bus < 128 → ∀ j, j < s.rendered → Sparse.get (fun _ => 0) t.mix.final (128 * bus + j) =
        (roundSum ((if s.mix.voiceBlock = some (s.period + 1) then Sparse.get (fun _ => 0) s.mix.voiceSum (128 * bus + j) else 0) +
          ((s.mix.terms.filter (fun m => decide (m.bseq = s.period + 1) && m.bus)).map
            (fun m => m.at (decide (s.mix.stopFrom = some (s.period + 1))) s.rendered bus j)).sum)).1) ∧
      (s.os = 1 → s.dec.stopBus = none → ∀ bus, bus < 128 → ∀ j, j < s.blk → (s.reg (Reg.DEC_DCB_EN0 + 4 * (bus / 32))).getLsbD (bus % 32) = false →
        Sparse.get (fun _ => 0) t.dec.out (64 * bus + j) = Sparse.get (fun _ => 0) t.mix.final (128 * bus + j)) ∧
      KeepsCon s t 0 0 ∧ KeepsCores s t [] ∧ KeepsChans s t [] ∧ KeepsQueues s t []) := by
  have run : exec .finalSumClose s =
      .next { s.blockEnds (s.period + 1) with clk := { (s.blockEnds (s.period + 1)).clk with finalSumDone := s.period + 1 } } := by
    refine if_neg ?_
    rintro (still | done | early)
    · rw [runs] at still
      exact Bool.noConfusion still
    · exact fresh done
    · exact early due
  obtain ⟨⟨l, frame⟩, final, block, out, plain⟩ := s.blockEnds_shows (s.period + 1)
  have sums := fun {bus j : Nat} (hj : j < s.rendered) => s.final_finalClosed (s.period + 1) (bus := bus) hj
  rw [← final] at sums
  refine ⟨_, run, ?_⟩
  generalize s.blockEnds (s.period + 1) = t at *
  refine ⟨block, out, ?_, fun bus _ j hj => sums hj, plain, fun x _ => ?_, fun n _ => ?_, fun c _ => ?_, fun q _ => ?_⟩
  · rw [frame.rest]
  · exact State.conByte_congr (by rw [frame.rest]) x
  · rw [frame.rest]; rfl
  · rw [frame.rest]; rfl
  · rw [frame.rest]; rfl

/-- Settles O41: sum by sum over the contributions of the block, and bus channel by bus channel. -/
theorem sumsClose : Obligations.SumsClose := by
  unfold Obligations.SumsClose
  exact fun s runs => ⟨voiceSumClose_closes runs, finalSumClose_closes runs⟩

end Sys2Proof.Machine
end

section
/-! PROOFS. O55: the controls of a page. What a page's block does at once when it stops, or once it has drained, leaves the control and status
registers of all pages alone. -/

namespace Sys2Proof.Machine

/-! ### What leaves the controls of the pages alone -/

/-- The address is one of a PAGE_CTRL or PAGE_STAT. -/
def Controls (a : Nat) : Bool := decide (a % 0x1000 = 4) || decide (a % 0x1000 = 8)

/-- Neither PAGE_CTRL or PAGE_STAT of a page nor the pages whose EN waits change. -/
def KeepsControls (s t : State) : Prop := (∀ a, Controls a = true → t.reg a = s.reg a) ∧ t.deferred = s.deferred

namespace KeepsControls

variable {s t u : State} {l cs : List Nat}

theorem refl (s : State) : KeepsControls s s := ⟨fun _ _ => rfl, rfl⟩

theorem trans (h : KeepsControls s t) (g : KeepsControls t u) : KeepsControls s u :=
  ⟨fun a ha => (g.1 a ha).trans (h.1 a ha), g.2.trans h.2⟩

theorem of_regs (h : KeepsRegs s t l) (same : t.deferred = s.deferred) (apart : ∀ a ∈ l, Controls a = false) : KeepsControls s t :=
  ⟨fun a ha => h a fun mem => absurd ((apart a mem).symm.trans ha) (by decide), same⟩

theorem of_reports (h : OnlyReports s t l) (apart : ∀ a ∈ l, Controls a = false) : KeepsControls s t := of_regs h.2 (by rw [h.1]) apart

theorem of_queue {qs : List Nat} (h : QueueFrame s t l qs) (apart : ∀ a ∈ l, Controls a = false) : KeepsControls s t :=
  of_regs h.regs (by rw [h.rest]) apart

theorem of_dac (h : DacFrame s t l cs) (apart : ∀ a ∈ l, Controls a = false) : KeepsControls s t := of_regs h.regs (by rw [h.rest]) apart

theorem setReg (s : State) {a : Nat} (h : Controls a = false) (v : Word) : KeepsControls s (s.setReg a v) :=
  of_reports (onlyReports_setReg s a v) (by simpa using h)

theorem setBit (s : State) {a : Nat} (h : Controls a = false) (i : Nat) (b : Bool) : KeepsControls s (s.setBit a i b) := setReg s h _

theorem bump (s : State) {a : Nat} (h : Controls a = false) : KeepsControls s (s.bump a) := setReg s h _

theorem raise (s : State) (p b : Nat) : KeepsControls s (s.raise p b) := by
  refine of_reports (onlyReports_raise s p b) fun a ha => ?_
  have rest : ∀ x ∈ [Reg.MSIX_PBA 0, Reg.MSIX_PBA 1], Controls x = false := by decide
  rcases List.mem_cons.1 ha with own | other
  · rw [own, Controls, Bool.or_eq_false_iff, decide_eq_false_iff_not, decide_eq_false_iff_not]
    simp only [Reg.PAGE_IRQ_STAT]
    omega
  · exact rest a other

theorem ite {c : Prop} [Decidable c] (h : KeepsControls s t) (g : KeepsControls s u) : KeepsControls s (if c then t else u) := by
  split
  · exact h
  · exact g

theorem foldl {α : Type} {f : State → α → State} (l : List α) (h : ∀ u, ∀ x ∈ l, KeepsControls u (f u x)) (s : State) :
    KeepsControls s (l.foldl f s) := by
  induction l generalizing s with
  | nil => exact refl s
  | cons x l ih => exact (h s x List.mem_cons_self).trans (ih (fun u y hy => h u y (List.mem_cons_of_mem _ hy)) _)

theorem bit (h : KeepsControls s t) {a : Nat} (ha : Controls a = true) (i : Nat) : t.bit a i = s.bit a i := State.bit_of_reg (h.1 a ha) i

theorem controls_ctrl (p : Nat) : Controls (Reg.PAGE_CTRL p) = true := by
  rw [Controls, Reg.PAGE_CTRL, Nat.mul_add_mod]
  rfl

theorem controls_stat (p : Nat) : Controls (Reg.PAGE_STAT p) = true := by
  rw [Controls, Reg.PAGE_STAT, Nat.mul_add_mod]
  rfl

theorem pageOn (h : KeepsControls s t) (p : Nat) : t.pageOn p = s.pageOn p := h.bit (controls_ctrl p) 0

theorem stat (h : KeepsControls s t) (p i : Nat) : t.bit (Reg.PAGE_STAT p) i = s.bit (Reg.PAGE_STAT p) i := h.bit (controls_stat p) i

end KeepsControls

theorem pageCtrl_ne_pageStat (p : Nat) : Reg.PAGE_CTRL p ≠ Reg.PAGE_STAT p := by simp [Reg.PAGE_CTRL, Reg.PAGE_STAT]

/-! ### Stopping -/

theorem State.putConBytes_controls (s : State) (a : Nat) (data : List Byte) : KeepsControls s (s.putConBytes a data) :=
  have h := MemOnly.putConBytes data s a
  ⟨fun b _ => h.reg b, h.deferred⟩

theorem State.putHost_controls (s : State) (a : Nat) (data : List Byte) : KeepsControls s (s.putHost a data) :=
  ⟨fun b _ => s.reg_putHost a data b, by rw [State.putHost_frame data s a]⟩

theorem State.writeNtf_controls (s : State) (e : List Byte) : KeepsControls s (s.writeNtf e) := by
  unfold State.writeNtf
  dsimp only
  have written := fun (b : Bool) (x y : Nat) (data : List Byte) =>
    show KeepsControls s (if b then s.putConBytes x data else s.putHost y data) from by
      cases b
      · exact s.putHost_controls y data
      · exact s.putConBytes_controls x data
  have numbered : ∀ (u : State) (n : Nat) (v : Word), KeepsControls u (({ u with ing := { u.ing with nseq := n } }).setReg Reg.ING_NTF_PI v) :=
    fun u n v => (show KeepsControls u { u with ing := { u.ing with nseq := n } } from ⟨fun _ _ => rfl, rfl⟩).trans (KeepsControls.setReg _ (by decide) v)
  have both := fun (x y n : Nat) (data : List Byte) (v : Word) => (written (s.bit Reg.ING_NTF_CFG 9) x y data).trans (numbered _ n v)
  split
  · exact (both _ _ _ _ _).trans (KeepsControls.raise _ _ _)
  · exact both _ _ _ _ _

theorem State.postNtf_controls (s : State) (e : List Byte) : KeepsControls s (s.postNtf e) := by
  unfold State.postNtf
  split
  · exact KeepsControls.refl s
  split
  · exact s.writeNtf_controls e
  split
  · exact ⟨fun _ _ => rfl, rfl⟩
  · exact (KeepsControls.bump s (by decide)).trans (KeepsControls.raise _ _ _)

theorem State.discardEntries_controls (s : State) (f : TtEntry → Bool) : KeepsControls s (s.discardEntries f) := by
  unfold State.discardEntries
  refine KeepsControls.foldl _ (fun u e _ => ?_) s
  have erased : KeepsControls u { u with ing := { u.ing with tt := u.ing.tt.erase e } } := ⟨fun _ _ => rfl, rfl⟩
  exact (erased.trans (KeepsControls.bump _ (by decide))).trans (State.postNtf_controls _ _)

theorem State.stopQueue_controls (s : State) {q : Nat} (h : q ∈ queueNumbers) : KeepsControls s (s.stopQueue q) := by
  have stat : ∀ x ∈ queueNumbers, Controls (Reg.OQ_Q_STAT x) = false := by decide
  unfold State.stopQueue
  dsimp only
  split
  · exact KeepsControls.of_queue (QueueFrame.setQueue s q _) (by simp)
  · exact KeepsControls.of_queue (QueueFrame.putQueue s q _) (by simpa using stat q h)

theorem State.dacReleaseAll_controls (s : State) : KeepsControls s s.dacReleaseAll := by
  have apart : ∀ c ∈ List.range 8, ∀ a ∈ [Reg.DAC_CH_STAT c, Reg.DAC_STAT], Controls a = false := by decide
  exact KeepsControls.foldl _ (fun u c hc => KeepsControls.of_dac (dacFrame_dacRelease u c) (apart c hc)) s

theorem clockRegs_controls : ∀ a ∈ clockRegs, Controls a = false := by decide

theorem logRegs_controls : ∀ a ∈ logRegs, Controls a = false := by decide

theorem State.loseSource_controls (s : State) (x : ClockSource) (avg : Word) (inj : Bool) : KeepsControls s (s.loseSource x avg inj) := by
  have clk : ∀ (u : State) (c : Clock), KeepsControls u { u with clk := c } := fun u c => ⟨fun _ _ => rfl, rfl⟩
  unfold State.loseSource
  extract_lets c1 s1
  have lost : KeepsControls s s1 := by
    cases x
    · exact KeepsControls.refl s
    · exact clk s _
    · exact clk s _
  clear_value s1
  split
  · exact KeepsControls.refl s
  split
  · split
    · exact lost.trans (clk _ _)
    · exact lost
  · have logged := fun c : Clock =>
      (lost.trans (clk _ c)).trans (KeepsControls.of_reports (onlyReports_logError _ 0x0203 0 (codeOfSource x) inj) logRegs_controls)
    have fell := fun c : Clock => (logged c).trans (KeepsControls.of_reports (State.setPll_reports _ 3) clockRegs_controls)
    exact KeepsControls.trans (KeepsControls.ite ((fell _).trans (KeepsControls.setReg _ (by decide) _)) (logged _)) (clk _ _)

theorem State.setPtp_controls (s : State) (a b : Nat) (gm ascA ascB : Bool) : KeepsControls s (s.setPtp a b gm ascA ascB) :=
  .ite (.refl s) ((KeepsControls.setReg s (by decide) _).trans (KeepsControls.raise _ _ _))

theorem State.showSpares_controls (s : State) (n : Nat) : KeepsControls s (s.showSpares n) := by
  unfold State.showSpares
  dsimp only
  split
  · exact (KeepsControls.setReg s (by decide) _).trans (KeepsControls.raise _ _ _)
  · exact KeepsControls.setReg s (by decide) _

/-- From `s` page `p` has come to drain, whatever else has changed. -/
def Drains (s : State) (p : Nat) (t : State) : Prop := ∃ u : State, KeepsControls (u.draining p) t ∧ u.pageOn p = s.pageOn p

theorem State.draining_pageOn (s : State) (p : Nat) : (s.draining p).pageOn p = s.pageOn p := by
  have ne := pageCtrl_ne_pageStat p
  rw [State.pageOn, State.draining, State.bit_setBit_other _ _ _ _ ne, State.bit_setBit_other _ _ _ _ ne, State.pageOn]

namespace Drains

variable {s t u : State} {p : Nat}

theorem ite {c : Prop} [Decidable c] (h : c → Drains s p t) (g : ¬ c → Drains s p u) : Drains s p (if c then t else u) := by
  split
  · next yes => exact h yes
  · next no => exact g no

theorem pageOn (h : Drains s p t) : t.pageOn p = s.pageOn p := by
  obtain ⟨u, keeps, same⟩ := h
  rw [keeps.pageOn, u.draining_pageOn, same]

theorem shown (h : Drains s p t) : t.bit (Reg.PAGE_STAT p) 1 = true ∧ t.bit (Reg.PAGE_STAT p) 0 = false := by
  obtain ⟨u, keeps, -⟩ := h
  constructor
  · rw [keeps.stat, State.draining, State.bit_setBit _ _ _ (by decide), if_neg (by decide), State.bit_setBit_same _ _ _ (by decide)]
  · rw [keeps.stat, State.draining, State.bit_setBit_same _ _ _ (by decide)]

end Drains

theorem State.stopIngress_drains (s : State) : Drains s Page.ing s.stopIngress :=
  ⟨s, KeepsControls.trans ⟨fun _ _ => rfl, rfl⟩ (State.discardEntries_controls _ _), rfl⟩

theorem State.stopPage_drains (s : State) {p : Nat} (other : p ≠ Page.svc) : Drains s p (s.stopPage p) := by
  unfold State.stopPage
  extract_lets t now mixer bus decimator router u net v d
  have keeps := fun (u : State) (h : KeepsControls t u) => show Drains s p u from ⟨s, h, rfl⟩
  have same : t = s.draining p := rfl
  clear_value t now
  refine .ite (fun h => absurd h other) fun _ => .ite (fun _ => keeps _ (.foldl _ (fun u e _ => ?_) _)) fun _ => .ite (fun ing => ?_) fun _ =>
    .ite (fun _ => ?_) fun _ => .ite (fun _ => keeps _ ⟨fun _ _ => rfl, rfl⟩) fun _ => .ite (fun _ => keeps _ ⟨fun _ _ => rfl, rfl⟩) fun _ =>
    .ite (fun _ => keeps _ ⟨fun _ _ => rfl, rfl⟩) fun _ => .ite (fun _ => keeps _ (.foldl _ (fun u _ hq => u.stopQueue_controls hq) _)) fun _ =>
    .ite (fun _ => keeps _ t.dacReleaseAll_controls) fun _ => .ite (fun _ => keeps _ ?_) fun _ => .ite (fun _ => keeps _ ?_) fun _ =>
    .ite (fun _ => keeps _ ⟨fun _ _ => rfl, rfl⟩) fun _ => .ite (fun _ => keeps _ ?_) fun _ => keeps _ (.refl _)
  case refine_1 =>
    split
    · next inj =>
      refine KeepsControls.setBit u ?_ 30 false
      rw [Controls, inj]
      rfl
    · exact .refl u
  case refine_2 =>
    subst ing
    rw [same]
    obtain ⟨u, g, on⟩ := State.stopIngress_drains (s.draining Page.ing)
    exact ⟨u, g, on.trans (s.draining_pageOn _)⟩
  case refine_3 => exact keeps _ (KeepsControls.trans (t := { t with spf := _ }) ⟨fun _ _ => rfl, rfl⟩ (KeepsControls.setReg _ (by decide) _))
  case refine_4 => exact (KeepsControls.setReg t (by decide) _).trans ⟨fun _ _ => rfl, rfl⟩
  case refine_5 =>
    have left : KeepsControls t v := (t.setPtp_controls 0 0 false (t.bit Reg.PTP_STAT 5) (t.bit Reg.PTP_STAT 6)).trans ⟨fun _ _ => rfl, rfl⟩
    have drawn : KeepsControls t d.2 := left.trans ⟨fun _ _ => rfl, rfl⟩
    exact .ite (drawn.trans (State.loseSource_controls _ _ _ _)) left
  case refine_6 => exact KeepsControls.trans (t := t.updCore _ _) ⟨fun _ _ => rfl, rfl⟩ (State.showSpares_controls _ _)

/-- Pages whose block stops with nothing to do. -/
def plainPages : List Nat :=
  [Page.clk, Page.pwr, Page.boot, Page.pmu, Page.irq, Page.va, Page.ps, Page.mm, Page.sch, Page.drc, Page.neta, Page.neta + 1, Page.strm, Page.nmid,
    Page.hsp, Page.tdm, Page.dbg]

theorem State.stopPage_plain (s : State) {p : Nat} (h : p ∈ plainPages) : s.stopPage p = s.draining p := by
  have apart : p ∉ [Page.svc, Page.err, Page.ing, Page.spf, Page.mix, Page.dec, Page.ort, Page.oq, Page.dac, Page.con, Page.ptp, Page.pci] ∧ ¬ 0x20 ≤ p := by
    revert p
    decide
  simp only [List.mem_cons, List.not_mem_nil, or_false, not_or] at apart
  obtain ⟨⟨svc, err, ing, spf, mix, dec, ort, oq, dac, con, ptp, pci⟩, core⟩ := apart
  simp only [State.stopPage, svc, err, ing, spf, mix, dec, ort, oq, dac, con, ptp, pci, core, if_false]

theorem State.stopPage_core (s : State) {p : Nat} (h : 0x20 ≤ p) :
    s.stopPage p = ((s.draining p).updCore (p - 0x20) (fun c => { c with held := true })).showSpares 0 := by
  have apart : p ∉ [Page.svc, Page.err, Page.ing, Page.spf, Page.mix, Page.dec, Page.ort, Page.oq, Page.dac, Page.con, Page.ptp, Page.pci] := by
    have few : ∀ x ∈ [Page.svc, Page.err, Page.ing, Page.spf, Page.mix, Page.dec, Page.ort, Page.oq, Page.dac, Page.con, Page.ptp, Page.pci], x < 0x20 := by
      decide
    exact fun mem => absurd (few p mem) (by omega)
  simp only [List.mem_cons, List.not_mem_nil, or_false, not_or] at apart
  obtain ⟨svc, err, ing, spf, mix, dec, ort, oq, dac, con, ptp, pci⟩ := apart
  simp only [State.stopPage, svc, err, ing, spf, mix, dec, ort, oq, dac, con, ptp, pci, h, if_false, if_true]

theorem onlyReports_showSpares (s : State) (n : Nat) : OnlyReports s (s.showSpares n) (Reg.SVC_RH :: raiseRegs Page.svc) := by
  unfold State.showSpares
  dsimp only
  split
  · exact (onlyReports_setReg s Reg.SVC_RH _).trans (onlyReports_raise _ Page.svc 2) |>.mono (by simp)
  · exact (onlyReports_setReg s Reg.SVC_RH _).mono (by simp)

end Sys2Proof.Machine
end

section
/-! PROOFS. O55: PAGE_CTRL and the end of draining. -/

namespace Sys2Proof.Machine

/-! ### PAGE_CTRL (R354, R422 to R424) -/

section Control

variable {s : State} {p : Nat} {r : RegRow} {o v : Word}

theorem fieldOf_bare (bare : fieldOf v 1 2 = 0) : fieldOf v 1 1 = 0 ∧ fieldOf v 2 1 = 0 := by
  have bits : ∀ i, (fieldOf v 1 2).testBit i = false := fun i => by rw [bare, Nat.zero_testBit]
  have b0 := bits 0
  have b1 := bits 1
  simp only [fieldOf, testBit_bitsOf] at b0 b1
  constructor
  · refine Nat.eq_of_testBit_eq fun i => ?_
    rw [fieldOf, testBit_bitsOf, Nat.zero_testBit]
    rcases i with _ | i
    · simpa using b0
    · simp
  · refine Nat.eq_of_testBit_eq fun i => ?_
    rw [fieldOf, testBit_bitsOf, Nat.zero_testBit]
    rcases i with _ | i
    · simpa using b1
    · simp

/-- What a write of PAGE_CTRL that neither resets nor locks comes to. -/
theorem actPageCtrl_bare (other : p ≠ Page.glb) (srst : fieldOf v 1 1 = 0) (lock : fieldOf v 2 1 = 0) : actPageCtrl p s r o v =
    (if 0x20 ≤ p ∧ s.pageOn p = true ∧ ¬ fieldOf v 0 1 = 1 ∧ (s.core (p - 0x20)).svc = 2 then s.pageErr p
    else if s.pageOn p = true then (if fieldOf v 0 1 = 1 then s else (s.setBit (Reg.PAGE_CTRL p) 0 false).stopPage p)
    else
      let t : State := { s with deferred := s.deferred.filter (fun q => decide (q ≠ p)) }
      if fieldOf v 0 1 = 1 then
        (if s.bit (Reg.PAGE_STAT p) 1 then { s with deferred := s.deferred.filter (fun q => decide (q ≠ p)) ++ [p] }
        else if 0x20 ≤ p then (t.startPage p).showSpares 0 else t.startPage p)
      else t) := by
  unfold actPageCtrl
  by_cases on : s.pageOn p = true <;> by_cases en : fieldOf v 0 1 = 1 <;>
    simp only [on, en, srst, lock, other, if_true, if_false, decide_true, decide_false, not_true, not_false_eq_true, and_true, and_false, true_and,
      false_and, Bool.false_eq_true, Bool.true_eq_false, zero_ne_one]
  rfl

/-- The page enabled and not idle. -/
def State.opened (s : State) (p : Nat) : State := (s.setBit (Reg.PAGE_CTRL p) 0 true).setBit (Reg.PAGE_STAT p) 0 false

theorem State.opened_regs (s : State) (p : Nat) : OnlyRegs s (s.opened p) [Reg.PAGE_CTRL p, Reg.PAGE_STAT p] :=
  ((onlyRegs_setReg s (Reg.PAGE_CTRL p) _).trans (onlyRegs_setReg _ (Reg.PAGE_STAT p) _)).mono (by simp)

theorem State.opened_pageOn (s : State) (p : Nat) : (s.opened p).pageOn p = true := by
  rw [State.pageOn, State.opened, State.bit_setBit_other _ _ _ _ (pageCtrl_ne_pageStat p), State.bit_setBit_same _ _ _ (by decide)]

theorem State.opened_stat (s : State) (p i : Nat) : (s.opened p).bit (Reg.PAGE_STAT p) i = if i = 0 then false else s.bit (Reg.PAGE_STAT p) i := by
  rw [State.opened, State.bit_setBit _ _ _ (by decide), State.bit_setBit_other _ _ _ _ (pageCtrl_ne_pageStat p).symm]

theorem State.flushMsix_controls (s : State) : KeepsControls s s.flushMsix := by
  have apart : ∀ v ∈ List.range 64, Controls (Reg.MSIX_PBA (v / 32)) = false := by decide
  unfold State.flushMsix
  refine .ite (.refl s) (KeepsControls.foldl _ (fun u v hv => .ite ?_ (.refl u)) s)
  exact (KeepsControls.setBit u (apart v hv) _ false).trans ⟨fun _ _ => rfl, rfl⟩

theorem State.startPage_controls (s : State) (p : Nat) : KeepsControls (s.opened p) (s.startPage p) := by
  unfold State.startPage
  extract_lets t
  have same : t = s.opened p := rfl
  rw [← same]
  clear_value t
  exact .ite ⟨fun _ _ => rfl, rfl⟩ (.ite ⟨fun _ _ => rfl, rfl⟩ (.ite ⟨fun _ _ => rfl, rfl⟩ (.ite ⟨fun _ _ => rfl, rfl⟩ (.ite ⟨fun _ _ => rfl, rfl⟩
    (.ite t.flushMsix_controls (.ite ⟨fun _ _ => rfl, rfl⟩ (.refl t)))))))

theorem State.startPage_plain (s : State) {p : Nat} (h : p ∈ plainPages) (irq : p ≠ Page.irq) (sch : p ≠ Page.sch) : s.startPage p = s.opened p := by
  have apart : p ∉ [Page.mix, Page.dec, Page.ort, Page.ing] ∧ ¬ 0x20 ≤ p := by
    revert p
    decide
  simp only [List.mem_cons, List.not_mem_nil, or_false, not_or] at apart
  obtain ⟨⟨mix, dec, ort, ing⟩, core⟩ := apart
  simp only [State.startPage, mix, dec, ort, ing, irq, sch, core, if_false]
  rfl

end Control

/-! ### SRST (R424) -/

/-- The word of a register after a reset of the fields that `m` selects. -/
def cleared (w : Word) (m : Nat) : Word := BitVec.ofNat 32 (w.toNat ^^^ (w.toNat &&& m))

theorem testBit_cleared (w : Word) (m i : Nat) : (cleared w m).toNat.testBit i = (w.toNat.testBit i && !m.testBit i) := by
  rw [cleared, BitVec.toNat_ofNat, Nat.testBit_mod_two_pow, Nat.testBit_xor, Nat.testBit_and]
  by_cases h : i < 32
  · cases w.toNat.testBit i <;> simp [h]
  · rw [Nat.testBit_lt_two_pow (w.isLt.trans_le (Nat.pow_le_pow_right (by decide) (by omega : 32 ≤ i)))]
    simp

theorem cleared_cleared (w : Word) (m : Nat) : cleared (cleared w m) m = cleared w m := by
  refine BitVec.eq_of_toNat_eq (Nat.eq_of_testBit_eq fun i => ?_)
  rw [testBit_cleared, testBit_cleared]
  cases w.toNat.testBit i <;> simp

theorem getLsbD_cleared (w : Word) (m i : Nat) : (cleared w m).getLsbD i = (w.getLsbD i && !m.testBit i) := testBit_cleared w m i

theorem toNat_cleared (w : Word) (m : Nat) : (cleared w m).toNat = w.toNat - (w.toNat &&& m % 2 ^ 32) := by
  have apart : cleared w m &&& (w &&& BitVec.ofNat 32 m) = 0 := by
    refine BitVec.eq_of_getLsbD_eq fun i _ => ?_
    rw [BitVec.getLsbD_and, getLsbD_cleared, BitVec.getLsbD_and, BitVec.getLsbD_ofNat]
    cases m.testBit i <;> simp
  have whole : cleared w m ||| (w &&& BitVec.ofNat 32 m) = w := by
    refine BitVec.eq_of_getLsbD_eq fun i h => ?_
    rw [BitVec.getLsbD_or, getLsbD_cleared, BitVec.getLsbD_and, BitVec.getLsbD_ofNat]
    cases m.testBit i <;> simp [h]
  have sum : cleared w m = w - (w &&& BitVec.ofNat 32 m) := by
    rw [eq_sub_iff_add_eq, BitVec.add_eq_or_of_and_eq_zero _ _ apart, whole]
  have part : (w &&& BitVec.ofNat 32 m).toNat = w.toNat &&& m % 2 ^ 32 := by rw [BitVec.toNat_and, BitVec.toNat_ofNat]
  rw [sum, BitVec.toNat_sub_of_le, part]
  rw [BitVec.le_def, part]
  exact Nat.and_le_left

/-- The word of the register at `a` after a soft reset of page `p`. -/
def resetWord (p a : Nat) (w : Word) : Word :=
  if a / 0x1000 = p then
    match rowOf a with
    | some r => cleared w r.srst
    | none => w
  else w

theorem resetWord_resetWord (p a : Nat) (w : Word) : resetWord p a (resetWord p a w) = resetWord p a w := by
  unfold resetWord
  split
  · split
    · exact cleared_cleared w _
    · rfl
  · rfl

/-- The register of one entry of the table is reset. -/
def State.resetEntry (p : Nat) (t : State) (e : Nat × Word) : State :=
  if e.1 / 0x1000 = p then
    match rowOf e.1 with
    | some r => t.setReg e.1 (cleared (t.reg e.1) r.srst)
    | none => t
  else t

theorem State.softReset_eq (s : State) (p : Nat) : s.softReset p = s.regs.foldl (State.resetEntry p) s := rfl

theorem State.reg_resetEntry (p : Nat) (t : State) (e : Nat × Word) (a : Nat) :
    (State.resetEntry p t e).reg a = if a = e.1 then resetWord p a (t.reg a) else t.reg a := by
  unfold State.resetEntry resetWord
  by_cases own : a = e.1
  · subst own
    rw [if_pos rfl]
    split
    · split
      · exact State.reg_setReg_same ..
      · rfl
    · rfl
  · rw [if_neg own]
    split
    · split
      · exact State.reg_setReg_other _ _ own
      · rfl
    · rfl

theorem State.resetEntry_rest (p : Nat) (t : State) (e : Nat × Word) : State.resetEntry p t e = { t with regs := (State.resetEntry p t e).regs } := by
  unfold State.resetEntry
  split
  · split <;> rfl
  · rfl

theorem State.foldl_resetEntry (p : Nat) (l : List (Nat × Word)) (t : State) :
    l.foldl (State.resetEntry p) t = { t with regs := (l.foldl (State.resetEntry p) t).regs } ∧
      ∀ a, (l.foldl (State.resetEntry p) t).reg a = if a ∈ l.map Prod.fst then resetWord p a (t.reg a) else t.reg a := by
  induction l generalizing t with
  | nil => exact ⟨rfl, fun _ => rfl⟩
  | cons e l ih =>
    obtain ⟨rest, regs⟩ := ih (State.resetEntry p t e)
    refine ⟨?_, fun a => ?_⟩
    · rw [List.foldl_cons, rest, State.resetEntry_rest p t e]
    · rw [List.foldl_cons, regs, State.reg_resetEntry, List.map_cons]
      by_cases own : a = e.1
      · by_cases later : a ∈ l.map Prod.fst
        · rw [if_pos later, if_pos own, if_pos (List.mem_cons_of_mem _ later), resetWord_resetWord]
        · rw [if_neg later, if_pos own, if_pos (own ▸ List.mem_cons_self)]
      · rw [if_neg own]
        exact if_congr (by simp [own]) rfl rfl

end Sys2Proof.Machine
end

section
/-! PROOFS. O55: disabling, enabling, resetting, locking and idling a page. -/

namespace Sys2Proof.Machine

section Pages

variable {s : State} {path : Path} {p : Fin 66} {v : Word}

theorem exec_pageDisable (opens : s.writable (Reg.PAGE_CTRL p) = true) :
    exec (.pageDisable path p v) s = .next (actPageCtrl p s (rowAt (Reg.PAGE_CTRL p)) (s.reg (Reg.PAGE_CTRL p)) (setFieldOf v 0 1 0)) := by
  change execPageDisable path p v s = _
  rw [execPageDisable, State.writePageCtrl, State.hostWrite_of_writable opens]

theorem exec_pageEnable (opens : s.writable (Reg.PAGE_CTRL p) = true) :
    exec (.pageEnable path p v) s = .next (actPageCtrl p s (rowAt (Reg.PAGE_CTRL p)) (s.reg (Reg.PAGE_CTRL p)) (setFieldOf v 0 1 1)) := by
  change execPageEnable path p v s = _
  rw [execPageEnable, State.writePageCtrl, State.hostWrite_of_writable opens]

theorem exec_pageSoftReset (opens : s.writable (Reg.PAGE_CTRL p) = true) :
    exec (.pageSoftReset path p v) s = .next (actPageCtrl p s (rowAt (Reg.PAGE_CTRL p)) (s.reg (Reg.PAGE_CTRL p)) (setFieldOf v 1 1 1)) := by
  change execPageSoftReset path p v s = _
  rw [execPageSoftReset, State.writePageCtrl, State.hostWrite_of_writable opens]

theorem exec_pageLock (opens : s.writable (Reg.PAGE_CTRL p) = true) :
    exec (.pageLock path p v) s = .next (actPageCtrl p s (rowAt (Reg.PAGE_CTRL p)) (s.reg (Reg.PAGE_CTRL p)) (setFieldOf v 2 1 1)) := by
  change execPageLock path p v s = _
  rw [execPageLock, State.writePageCtrl, State.hostWrite_of_writable opens]

theorem fieldOf_setEn (v : Word) {n : Nat} (h : n < 2) : fieldOf (setFieldOf v 0 1 n) 0 1 = n := by
  rw [fieldOf_setFieldOf_same _ _ (by decide), pow_one, Nat.mod_eq_of_lt h]

theorem fieldOf_bare_setEn (n : Nat) (bare : fieldOf v 1 2 = 0) : fieldOf (setFieldOf v 0 1 n) 1 1 = 0 ∧ fieldOf (setFieldOf v 0 1 n) 2 1 = 0 := by
  rw [fieldOf_setFieldOf_other _ _ (by decide), fieldOf_setFieldOf_other _ _ (by decide)]
  exact fieldOf_bare bare

/-! ### EN cleared (R354, R355) -/

/-- The page with EN cleared, its block stopped. -/
def State.closed (s : State) (p : Nat) : State := (s.setBit (Reg.PAGE_CTRL p) 0 false).stopPage p

theorem exec_pageDisable_bare (opens : s.writable (Reg.PAGE_CTRL p) = true) (bare : fieldOf v 1 2 = 0) (other : (p : Nat) ≠ Page.glb) :
    exec (.pageDisable path p v) s = .next (
      if 0x20 ≤ (p : Nat) ∧ s.pageOn p = true ∧ (s.core (p - 0x20)).svc = 2 then s.pageErr p
      else if s.pageOn p = true then s.closed p
      else { s with deferred := s.deferred.filter (fun q => decide (q ≠ (p : Nat))) }) := by
  obtain ⟨srst, lock⟩ := fieldOf_bare_setEn 0 bare
  rw [exec_pageDisable opens, actPageCtrl_bare other srst lock, fieldOf_setEn v (by decide)]
  simp only [zero_ne_one, if_false, not_false_eq_true, true_and]
  rfl

theorem State.closed_drains (s : State) {p : Nat} (other : p ≠ Page.svc) :
    (s.closed p).pageOn p = false ∧ (s.closed p).bit (Reg.PAGE_STAT p) 1 = true ∧ (s.closed p).bit (Reg.PAGE_STAT p) 0 = false := by
  have drains := (s.setBit (Reg.PAGE_CTRL p) 0 false).stopPage_drains other
  exact ⟨drains.pageOn.trans (State.bit_setBit_same _ _ _ (by decide)), drains.shown⟩

theorem onlyRegs_draining (s : State) (p : Nat) : OnlyRegs s (s.draining p) [Reg.PAGE_STAT p] :=
  ((onlyRegs_setReg s (Reg.PAGE_STAT p) _).trans (onlyRegs_setReg _ (Reg.PAGE_STAT p) _)).mono (by simp)

theorem State.closed_plain (s : State) {p : Nat} (h : p ∈ plainPages) : OnlyRegs s (s.closed p) [Reg.PAGE_CTRL p, Reg.PAGE_STAT p] := by
  rw [State.closed, State.stopPage_plain _ h]
  exact ((onlyRegs_setReg s (Reg.PAGE_CTRL p) _).trans (onlyRegs_draining _ p)).mono (by simp)

theorem State.closed_core (s : State) {p : Nat} (h : 0x20 ≤ p) :
    (s.closed p).core (p - 0x20) = { s.core (p - 0x20) with held := true } ∧ KeepsCores s (s.closed p) [p - 0x20] := by
  have before := ((onlyReports_setBit s (Reg.PAGE_CTRL p) 0 false).trans (onlyRegs_draining _ p).onlyReports).core
  rw [State.closed, State.stopPage_core _ h]
  generalize (s.setBit (Reg.PAGE_CTRL p) 0 false).draining p = t at *
  constructor
  · rw [(onlyReports_showSpares ..).core, State.core_updCore_same, before]
  · intro n other
    rw [(onlyReports_showSpares ..).core, State.core_updCore_other t _ (by simpa using other), before]

/-! ### EN set (R354) -/

theorem exec_pageEnable_bare (opens : s.writable (Reg.PAGE_CTRL p) = true) (bare : fieldOf v 1 2 = 0) (other : (p : Nat) ≠ Page.glb) :
    exec (.pageEnable path p v) s = .next (
      let t : State := { s with deferred := s.deferred.filter (fun q => decide (q ≠ (p : Nat))) }
      if s.pageOn p = true then s
      else if s.bit (Reg.PAGE_STAT p) 1 then { s with deferred := s.deferred.filter (fun q => decide (q ≠ (p : Nat))) ++ [(p : Nat)] }
      else if 0x20 ≤ (p : Nat) then (t.startPage p).showSpares 0 else t.startPage p) := by
  obtain ⟨srst, lock⟩ := fieldOf_bare_setEn 1 bare
  rw [exec_pageEnable opens, actPageCtrl_bare other srst lock, fieldOf_setEn v (by decide)]
  simp only [if_true, not_true, false_and, and_false, if_false]

theorem State.startPage_shown (s : State) (p : Nat) : (s.startPage p).pageOn p = true ∧ (s.startPage p).bit (Reg.PAGE_STAT p) 0 = false :=
  ⟨((s.startPage_controls p).pageOn p).trans (s.opened_pageOn p), ((s.startPage_controls p).stat p 0).trans (s.opened_stat p 0)⟩

theorem State.started_shown (s : State) (p : Nat) :
    let t := if 0x20 ≤ p then (s.startPage p).showSpares 0 else s.startPage p
    t.pageOn p = true ∧ t.bit (Reg.PAGE_STAT p) 0 = false := by
  intro t
  obtain ⟨on, idle⟩ := s.startPage_shown p
  have keeps : KeepsControls (s.startPage p) t := .ite (State.showSpares_controls _ _) (.refl _)
  exact ⟨(keeps.pageOn p).trans on, (keeps.stat p 0).trans idle⟩

/-! ### SRST and LOCK (R423, R424) -/

theorem actPageCtrl_keepsEn {r : RegRow} {o : Word} (on : s.pageOn p = true) (en : fieldOf v 0 1 = 1) :
    let t := if fieldOf v 1 1 = 1 then s.softReset p else s
    let u := if fieldOf v 2 1 = 1 then t.setBit (Reg.PAGE_CTRL p) 2 true else t
    actPageCtrl p s r o v = if (p : Nat) = Page.glb then u.setBit (Reg.PAGE_CTRL p) 0 true else u := by
  unfold actPageCtrl
  simp only [on, en, decide_true, not_true, and_false, false_and, if_false, if_true]

/-- A register with a bit as it stands is unchanged by a write of that bit. -/
theorem setFieldOf_one {w : Word} {i : Nat} (h : fieldOf w i 1 = 1) : setFieldOf w i 1 1 = w := by
  have set : w.toNat.testBit i = true := by rw [← decide_fieldOf_one, h]; rfl
  refine BitVec.eq_of_toNat_eq (Nat.eq_of_testBit_eq fun j => ?_)
  rw [setFieldOf, BitVec.toNat_ofNat, Nat.testBit_mod_two_pow, testBit_setBitsOf]
  by_cases own : j = i
  · subst own
    rw [if_pos (by omega), set, Nat.sub_self]
    have small : j < 32 := by
      by_contra big
      rw [Nat.testBit_lt_two_pow (w.isLt.trans_le (Nat.pow_le_pow_right (by decide) (by omega : 32 ≤ j)))] at set
      exact absurd set (by decide)
    simp [small]
  · rw [if_neg (by omega)]
    by_cases small : j < 32
    · simp [small]
    · rw [Nat.testBit_lt_two_pow (w.isLt.trans_le (Nat.pow_le_pow_right (by decide) (by omega : 32 ≤ j))), Bool.and_false]

theorem State.reg_setBit_of_set {t : State} {a i : Nat} (h : t.bit a i = true) (b : Nat) : (t.setBit a i true).reg b = t.reg b := by
  rw [State.reg_setBit]
  split
  · next own => rw [own]; exact setFieldOf_one (by simpa [State.bit] using h)
  · rfl

theorem resetWord_pageCtrl (w : Word) : ∀ p : Fin 66, resetWord p (Reg.PAGE_CTRL p) w = w := by
  have rows : ∀ q : Fin 66, (rowOf (Reg.PAGE_CTRL q)).all (fun r => decide (r.srst = 0)) = true := by decide
  intro q
  unfold resetWord
  split
  · split
    · next r row =>
      have none := rows q
      rw [row, Option.all_some, decide_eq_true_eq] at none
      rw [none]
      refine BitVec.eq_of_toNat_eq ((toNat_cleared w 0).trans ?_)
      simp
    · rfl
  · rfl

/-- A soft reset touches every register of the page that its table marks, and nothing else, not even PAGE_CTRL. -/
theorem State.softReset_spec (s : State) (p : Nat) :
    s.softReset p = { s with regs := (s.softReset p).regs } ∧
      ∀ a, (s.softReset p).reg a = if a ∈ s.regs.map Prod.fst then resetWord p a (s.reg a) else s.reg a := by
  rw [State.softReset_eq]
  exact State.foldl_resetEntry p s.regs s

theorem State.softReset_pageOn (s : State) (p : Fin 66) : (s.softReset p).pageOn p = s.pageOn p := by
  refine State.bit_of_reg ?_ 0
  rw [(s.softReset_spec p).2, resetWord_pageCtrl, ite_self]

/-! ### The end of draining (R354) -/

/-- What the block of a page that has drained still does before the page is idle. -/
def State.settled (s : State) (p : Nat) : State :=
  let t := if p = Page.ing then s.discardEntries (fun _ => true) else s
  let u : State := if p = Page.ort then { t with ort := { t.ort with stopping := false } } else t
  if p = Page.tdm then (List.range 4).foldl (fun w k => (w.setTdmPort k TdmPort.reset).setBit (Reg.TDM_P_STAT k) 0 false) u else u

theorem exec_pageIdle (draining : s.bit (Reg.PAGE_STAT p) 1 = true) (done : s.pageDone p = true) :
    exec (.pageIdle p) s = .next ((s.settled p).idle p) := by
  change execPageIdle p s = _
  exact if_neg (by simp [draining, done])

theorem State.settled_controls (s : State) (p : Nat) : KeepsControls s (s.settled p) := by
  have apart : ∀ k ∈ List.range 4, Controls (Reg.TDM_P_STAT k) = false := by decide
  unfold State.settled
  extract_lets t ort u
  have discarded : KeepsControls s t := .ite (s.discardEntries_controls _) (.refl s)
  clear_value t
  have routed : KeepsControls s u := .ite (discarded.trans ⟨fun _ _ => rfl, rfl⟩) discarded
  clear_value u
  refine .ite (routed.trans (KeepsControls.foldl _ (fun w k hk => ?_) u)) routed
  exact KeepsControls.trans (t := w.setTdmPort k TdmPort.reset) ⟨fun _ _ => rfl, rfl⟩ (KeepsControls.setBit _ (apart k hk) 0 false)

theorem State.settled_plain (s : State) {p : Nat} (h : p ∈ plainPages) (tdm : p ≠ Page.tdm) : s.settled p = s := by
  have apart : p ≠ Page.ing ∧ p ≠ Page.ort := by
    revert p
    decide
  rw [State.settled, if_neg tdm]
  dsimp only
  rw [if_neg apart.1, if_neg apart.2]

/-- The page idle and no longer draining. -/
def State.quieted (s : State) (p : Nat) : State := (s.setBit (Reg.PAGE_STAT p) 1 false).setBit (Reg.PAGE_STAT p) 0 true

theorem State.quieted_regs (s : State) (p : Nat) : OnlyRegs s (s.quieted p) [Reg.PAGE_STAT p] :=
  ((onlyRegs_setReg s (Reg.PAGE_STAT p) _).trans (onlyRegs_setReg _ (Reg.PAGE_STAT p) _)).mono (by simp)

theorem State.quieted_stat (s : State) (p : Nat) : (s.quieted p).bit (Reg.PAGE_STAT p) 1 = false ∧ (s.quieted p).bit (Reg.PAGE_STAT p) 0 = true := by
  constructor
  · rw [State.quieted, State.bit_setBit _ _ _ (by decide), if_neg (by decide), State.bit_setBit_same _ _ _ (by decide)]
  · rw [State.quieted, State.bit_setBit_same _ _ _ (by decide)]

theorem State.idle_settled (s : State) {p : Nat} (none : p ∉ s.deferred) : s.idle p = s.quieted p := by
  have empty : (s.quieted p).deferred.contains p = false := by rw [(s.quieted_regs p).1]; simpa using none
  change (if (s.quieted p).deferred.contains p then _ else _) = _
  rw [empty]
  rfl

theorem State.idle_deferred (s : State) {p : Nat} (waits : p ∈ s.deferred) :
    s.idle p = State.startPage { s.quieted p with deferred := (s.quieted p).deferred.filter (fun q => decide (q ≠ p)) } p := by
  have some : (s.quieted p).deferred.contains p = true := by rw [(s.quieted_regs p).1]; simpa using waits
  change (if (s.quieted p).deferred.contains p then _ else _) = _
  rw [some]
  rfl

theorem State.idle_restarts (s : State) {p : Nat} (waits : p ∈ s.deferred) :
    (s.idle p).pageOn p = true ∧ (s.idle p).bit (Reg.PAGE_STAT p) 1 = false ∧ p ∉ (s.idle p).deferred := by
  rw [s.idle_deferred waits]
  have stat := (s.quieted_stat p).1
  generalize s.quieted p = t at *
  have keeps := State.startPage_controls { t with deferred := t.deferred.filter (fun q => decide (q ≠ p)) } p
  refine ⟨(keeps.pageOn p).trans (State.opened_pageOn _ p), ?_, ?_⟩
  · rw [keeps.stat, State.opened_stat, if_neg (by decide)]
    exact stat
  · rw [keeps.2, (State.opened_regs _ p).1]
    simp

end Pages

section Clauses

variable {s : State} {path : Path} {p : Fin 66} {v : Word}

theorem pageSoftReset_clears (opens : s.writable (Reg.PAGE_CTRL p) = true) (lock : fieldOf v 2 1 = 0) (on : s.pageOn p = true)
    (en : fieldOf v 0 1 = 1) : Completes (.pageSoftReset path p v) s (fun t =>
      (∀ e, e ∈ s.regs → e.1 / 0x1000 = (p : Nat) → ∀ r, rowOf e.1 = some r →
        (t.reg e.1).toNat = (s.reg e.1).toNat - ((s.reg e.1).toNat &&& r.srst % 2 ^ 32)) ∧
      t = { s with regs := t.regs } ∧ (∀ a, a / 0x1000 ≠ (p : Nat) → t.reg a = s.reg a)) := by
  have asked : fieldOf (setFieldOf v 1 1 1) 1 1 = 1 := fieldOf_setFieldOf_same _ _ (by decide)
  have run := exec_pageSoftReset (path := path) (v := v) opens
  rw [actPageCtrl_keepsEn on (by rw [fieldOf_setFieldOf_other _ _ (by decide), en]), if_pos asked, fieldOf_setFieldOf_other _ _ (by decide), lock,
    if_neg (show ¬ 0 = 1 by decide)] at run
  obtain ⟨rest, regs⟩ := s.softReset_spec p
  have glb : ∀ t : State, t = { s with regs := t.regs } → t.pageOn p = true →
      (if (p : Nat) = Page.glb then t.setBit (Reg.PAGE_CTRL p) 0 true else t) =
        { s with regs := (if (p : Nat) = Page.glb then t.setBit (Reg.PAGE_CTRL p) 0 true else t).regs } ∧
      ∀ a, (if (p : Nat) = Page.glb then t.setBit (Reg.PAGE_CTRL p) 0 true else t).reg a = t.reg a := by
    intro t frame opened
    split
    · exact ⟨by rw [frame]; rfl, State.reg_setBit_of_set opened⟩
    · exact ⟨frame, fun _ => rfl⟩
  obtain ⟨frame, same⟩ := glb _ rest ((s.softReset_pageOn p).trans on)
  refine ⟨_, run, fun e mem page r row => ?_, frame, fun a page => ?_⟩
  · rw [same, regs, if_pos (List.mem_map_of_mem mem), resetWord, if_pos page, row, toNat_cleared]
  · rw [same, regs, resetWord, if_neg page, ite_self]

theorem pageLock_locks (opens : s.writable (Reg.PAGE_CTRL p) = true) (srst : fieldOf v 1 1 = 0) (on : s.pageOn p = true)
    (en : fieldOf v 0 1 = 1) : Completes (.pageLock path p v) s (fun t =>
      t.bit (Reg.PAGE_CTRL p) 2 = true ∧ t.pageOn p = true ∧ OnlyRegs s t [Reg.PAGE_CTRL p]) := by
  have asked : fieldOf (setFieldOf v 2 1 1) 2 1 = 1 := fieldOf_setFieldOf_same _ _ (by decide)
  have run := exec_pageLock (path := path) (v := v) opens
  have quiet : fieldOf (setFieldOf v 2 1 1) 1 1 = 0 := by rw [fieldOf_setFieldOf_other _ _ (by decide), srst]
  rw [actPageCtrl_keepsEn on (by rw [fieldOf_setFieldOf_other _ _ (by decide), en]), quiet, if_neg (show ¬ 0 = 1 by decide), if_pos asked] at run
  have locked := s.bit_setBit_same (Reg.PAGE_CTRL p) true (i := 2) (by decide)
  have kept : (s.setBit (Reg.PAGE_CTRL p) 2 true).pageOn p = true := by
    rw [State.pageOn, State.bit_setBit _ _ _ (by decide), if_neg (by decide), ← State.pageOn, on]
  refine ⟨_, run, ?_⟩
  split
  · have same := State.reg_setBit_of_set kept
    exact ⟨(State.bit_of_reg (same _) 2).trans locked, (State.bit_of_reg (same _) 0).trans kept,
      ((onlyRegs_setReg s (Reg.PAGE_CTRL p) _).trans (onlyRegs_setReg _ (Reg.PAGE_CTRL p) _)).mono (by simp)⟩
  · exact ⟨locked, kept, onlyRegs_setReg ..⟩

end Clauses

/-- Settles O55: a page's block may do much when it stops or has drained, but it leaves the page's control and status alone. -/
theorem pageControls : Obligations.PageControls := by
  intro s path p v ctrl stat core bare simple draining
  have above : ∀ q : Fin 66, 0x20 ≤ (q : Nat) → (q : Nat) ≠ Page.svc := by decide
  refine ⟨fun opens none other => ⟨fun on served => ?_, fun on cores served => ?_, fun off => ?_, fun on => ?_, fun off busy => ?_, fun off free => ?_⟩,
    pageSoftReset_clears, pageLock_locks, fun idle => ⟨s, if_pos ?_, rfl⟩, fun busy done => ⟨fun none => ?_, fun none plain tdm => ?_, fun waits => ?_⟩⟩
  · have run : exec (.pageDisable path p v) s = .next (s.closed p) := by
      rw [exec_pageDisable_bare opens none other, if_neg (fun h => served h.1 h.2.2), if_pos on]
    refine ⟨fun svc => ⟨_, run, s.closed_drains svc⟩, fun plain => ⟨_, run, s.closed_drains ?_, s.closed_plain plain⟩,
      fun cores => ⟨_, run, s.closed_drains (above p cores), s.closed_core cores⟩⟩
    intro svc
    rw [show simple = ((p : Nat) ∈ plainPages) from rfl, svc] at plain
    exact absurd plain (by decide)
  · rw [Completes, exec_pageDisable_bare opens none other, if_pos ⟨cores, on, served⟩]
    exact ⟨_, rfl, counted_bump .., onlyRegs_setReg ..⟩
  · have shut : ¬ s.pageOn p = true := Bool.eq_false_iff.1 off
    rw [Completes, exec_pageDisable_bare opens none other, if_neg (fun h => shut h.2.1), if_neg shut]
    exact ⟨_, rfl, rfl⟩
  · rw [Completes, exec_pageEnable_bare opens none other]
    exact ⟨_, congrArg _ (if_pos on), rfl⟩
  · rw [Completes, exec_pageEnable_bare opens none other]
    dsimp only
    rw [if_neg (by simp [off]), if_pos busy]
    exact ⟨_, rfl, off, List.mem_append_right _ List.mem_cons_self, rfl⟩
  · have run : exec (.pageEnable path p v) s = .next (let t : State := { s with deferred := s.deferred.filter (fun q => decide (q ≠ (p : Nat))) }
        if 0x20 ≤ (p : Nat) then (t.startPage p).showSpares 0 else t.startPage p) := by
      rw [exec_pageEnable_bare opens none other]
      dsimp only
      rw [if_neg (by simp [off]), if_neg (Bool.eq_false_iff.1 free)]
    refine ⟨⟨_, run, State.started_shown _ p⟩, fun plain irq sch => ⟨_, run, (State.started_shown _ p).1, ?_⟩⟩
    have low : ¬ 0x20 ≤ (p : Nat) := by
      have few : ∀ q ∈ plainPages, ¬ 0x20 ≤ q := by decide
      exact few p plain
    dsimp only
    rw [if_neg low, State.startPage_plain _ plain irq sch]
    exact (State.opened_regs _ p)
  · rcases idle with free | waits
    · exact Or.inl free
    · exact Or.inr waits
  · have kept := s.settled_controls p
    have run := exec_pageIdle busy done
    rw [State.idle_settled _ (by rw [kept.2]; exact none)] at run
    refine ⟨_, run, (State.quieted_stat _ p).1, (State.quieted_stat _ p).2, ?_⟩
    rw [State.pageOn, (State.quieted_regs _ p).onlyReports.bit (by simp), ← State.pageOn, kept.pageOn]
  · have run := exec_pageIdle busy done
    rw [s.settled_plain plain tdm, s.idle_settled none] at run
    exact ⟨_, run, s.quieted_regs p⟩
  · have kept := s.settled_controls p
    exact ⟨_, exec_pageIdle busy done, State.idle_restarts _ (by rw [kept.2]; exact waits)⟩

end Sys2Proof.Machine
end

section
/-! PROOFS. O56: injections, fences, register reads and writes of a register word. -/

namespace Sys2Proof.Machine

theorem State.bit_pageErrFlag (s : State) {p b : Nat} (h : b < 32) : (s.pageErrFlag p b).bit (Reg.PAGE_ERR_STAT p) b = true := by
  have apart : Reg.PAGE_ERR_STAT p ≠ Reg.PAGE_ERR_CNT p := by unfold Reg.PAGE_ERR_STAT Reg.PAGE_ERR_CNT; omega
  exact (State.bit_setReg_other _ _ _ apart).trans (State.bit_setBit_same _ _ _ h)

theorem State.counted_pageErrFlag (s : State) {p b : Nat} : Counted s (s.pageErrFlag p b) (Reg.PAGE_ERR_CNT p) := by
  have apart : Reg.PAGE_ERR_CNT p ≠ Reg.PAGE_ERR_STAT p := by unfold Reg.PAGE_ERR_STAT Reg.PAGE_ERR_CNT; omega
  exact (counted_bump _ _).of_reg_eq (State.reg_setBit_other _ _ _ apart)

section Accesses

variable {s : State} {path : Path} {p : Fin 66} {v : Word}

/-! ### Injections (R357) -/

/-- A field whose bits are all RW holds what is written. -/
theorem RegRow.fieldOf_store {r : RegRow} {lo w : Nat} (fits : lo + w ≤ 32) (rw_ : ∀ i, i < w → r.rw.testBit (lo + i) = true)
    (w1c : ∀ i, i < w → r.w1c.testBit (lo + i) = false) (old v : Word) (w1s : r.w1s = 0) : fieldOf (r.store old v) lo w = fieldOf v lo w := by
  refine Nat.eq_of_testBit_eq fun i => ?_
  rw [fieldOf, fieldOf, testBit_bitsOf, testBit_bitsOf]
  by_cases h : i < w
  · rw [r.testBit_store old v (by omega), rw_ i h, w1c i h, w1s]
    cases old.toNat.testBit (lo + i) <;> cases v.toNat.testBit (lo + i) <;> simp
  · simp [h]

theorem rowAt_errInj : ∀ p : Fin 66, 0 < detectorsOf p →
    (rowAt (Reg.PAGE_ERR_INJ p)).rw = 0xFF00FF ∧ (rowAt (Reg.PAGE_ERR_INJ p)).w1c = 0 ∧ (rowAt (Reg.PAGE_ERR_INJ p)).w1s = 0 := by decide

theorem exec_errorInjectArm (opens : s.writable (Reg.PAGE_ERR_INJ p) = true) : exec (.errorInjectArm path p v) s =
    .next (actErrInj p s (rowAt (Reg.PAGE_ERR_INJ p)) (s.reg (Reg.PAGE_ERR_INJ p)) (setFieldOf v 31 1 1)) := by
  change execErrorInjectArm path p v s = _
  rw [execErrorInjectArm, State.hostWrite_of_writable opens]

/-- What bars an injection that a write of `v` asks for. -/
def State.injectionBarred (s : State) (p : Nat) (v : Word) : Prop :=
  s.bit Reg.ERR_CTRL 0 = false ∨ s.pageOn Page.err = false ∨ detectorsOf p ≤ fieldOf (s.stored (Reg.PAGE_ERR_INJ p) (setFieldOf v 31 1 1)) 0 8 ∨
    s.bit (Reg.PAGE_ERR_INJ p) 30 = true

theorem exec_errorInjectArm_barred (opens : s.writable (Reg.PAGE_ERR_INJ p) = true) (barred : s.injectionBarred p v) :
    exec (.errorInjectArm path p v) s = .next (s.bump Reg.ERR_INJ_REJ_CNT) := by
  have asked : fieldOf (setFieldOf v 31 1 1) 31 1 = 1 := fieldOf_setFieldOf_same _ _ (by decide)
  rw [exec_errorInjectArm opens, actErrInj, if_neg (by rw [asked]; decide), if_pos]
  simpa [State.injectionBarred, State.stored, State.bit] using barred

/-- The register with the detector armed. -/
def State.armedWith (s : State) (p : Nat) (v : Word) : State :=
  (s.setReg (Reg.PAGE_ERR_INJ p) (s.stored (Reg.PAGE_ERR_INJ p) (setFieldOf v 31 1 1))).setBit (Reg.PAGE_ERR_INJ p) 30 true

theorem exec_errorInjectArm_armed (opens : s.writable (Reg.PAGE_ERR_INJ p) = true) (free : ¬ s.injectionBarred p v) :
    exec (.errorInjectArm path p v) s = .next ((s.armedWith p v).fireNow p) := by
  have asked : fieldOf (setFieldOf v 31 1 1) 31 1 = 1 := fieldOf_setFieldOf_same _ _ (by decide)
  rw [exec_errorInjectArm opens, actErrInj, if_neg (by rw [asked]; decide), if_neg]
  · rfl
  · simpa [State.injectionBarred, State.stored, State.bit] using free

/-- Pages with a detector that watches its unit all the time. -/
def watchedPages : List Nat := [Page.clk, Page.pwr, Page.irq, Page.err, Page.dac, Page.neta, Page.neta + 1, Page.pci]

theorem State.fireNow_unwatched (t : State) {p : Nat} (h : p ∉ watchedPages) : t.fireNow p = t := by
  simp only [watchedPages, List.mem_cons, List.not_mem_nil, or_false, not_or] at h
  obtain ⟨clk, pwr, irq, err, dac, neta, netb, pci⟩ := h
  simp only [State.fireNow, clk, pwr, irq, err, dac, neta, netb, pci, false_and, or_self, if_false, ite_self]

theorem State.armedWith_fld {lo w : Nat} (rows : (rowAt (Reg.PAGE_ERR_INJ p)).w1c = 0 ∧ (rowAt (Reg.PAGE_ERR_INJ p)).w1s = 0) (fits : lo + w ≤ 30)
    (rw_ : ∀ i, i < w → (rowAt (Reg.PAGE_ERR_INJ p)).rw.testBit (lo + i) = true) :
    (s.armedWith p v).fld (Reg.PAGE_ERR_INJ p) lo w = fieldOf v lo w := by
  rw [State.fld, State.armedWith, State.reg_setBit, if_pos rfl, fieldOf_setFieldOf_other _ _ (by omega), State.reg_setReg_same, State.stored,
    RegRow.fieldOf_store (by omega) rw_ (fun i _ => by rw [rows.1, Nat.zero_testBit]) _ _ rows.2, fieldOf_setFieldOf_other _ _ (by omega)]

/-! ### Fences (R430, R432) -/

theorem exec_glbFence (opens : s.writable Reg.GLB_FENCE = true) :
    exec (.glbFence path v) s = .next (actGlbFence s (rowAt Reg.GLB_FENCE) (s.reg Reg.GLB_FENCE) v) := by
  change execGlbFence path v s = _
  rw [execGlbFence, State.hostWrite_of_writable opens]

/-! ### Reads (R425, R426, R431) -/

theorem State.readStatus_glb (s : State) {a : Nat} (h : a < 0x1000) : s.readStatus a = none := by
  have apart : ∀ b ∈ [Reg.ERR_CAT, Reg.IRQ_PEND_LO, Reg.IRQ_PEND_HI, Reg.PWR_TEMP, Reg.MM_EVAL_MAX, Reg.DRC_EXP_LAT, Reg.ING_STAT, Reg.VA_VOICE_STAT,
      Reg.MM_VOICE_EG, Reg.SCH_PLAT_STAT, Reg.SPF_SLOT_STAT, Reg.SPF_SLOT_AVAIL, Reg.DEC_COEF_DATA], a ≠ b := by
    have high : ∀ b ∈ [Reg.ERR_CAT, Reg.IRQ_PEND_LO, Reg.IRQ_PEND_HI, Reg.PWR_TEMP, Reg.MM_EVAL_MAX, Reg.DRC_EXP_LAT, Reg.ING_STAT, Reg.VA_VOICE_STAT,
        Reg.MM_VOICE_EG, Reg.SCH_PLAT_STAT, Reg.SPF_SLOT_STAT, Reg.SPF_SLOT_AVAIL, Reg.DEC_COEF_DATA], 0x1000 ≤ b := by decide
    exact fun b hb => by have := high b hb; omega
  simp only [List.forall_mem_cons, List.not_mem_nil, false_imp_iff, implies_true, and_true] at apart
  simp only [State.readStatus, apart, if_false, or_self]

theorem State.readReg_glb (s : State) (o : Fin 1024) (stat : 4 * o.val ≠ 8) :
    s.readReg path (4 * o) 0 0 = (s, if (rowOf (4 * o)).isSome then s.reg (4 * o) else 0) := by
  have low : 4 * o.val < 0x1000 := by omega
  have apart : ∀ b ∈ [Reg.CLK_MT_LO, Reg.CLK_MT_HI, Reg.PMU_CNT_LO, Reg.PMU_CNT_HI, Reg.PTP_TIME_LO, Reg.PTP_TIME_HI], 4 * o.val ≠ b := by
    have high : ∀ b ∈ [Reg.CLK_MT_LO, Reg.CLK_MT_HI, Reg.PMU_CNT_LO, Reg.PMU_CNT_HI, Reg.PTP_TIME_LO, Reg.PTP_TIME_HI], 0x1000 ≤ b := by decide
    exact fun b hb => by have := high b hb; omega
  simp only [List.forall_mem_cons, List.not_mem_nil, false_imp_iff, implies_true, and_true] at apart
  unfold State.readReg
  cases row : rowOf (4 * o.val) with
  | none => rfl
  | some r =>
    simp only [Nat.mod_eq_of_lt low, stat, apart, if_false, Nat.div_eq_of_lt low, s.readStatus_glb low, Option.isSome_some, if_true]
    rfl

theorem State.readReg_ptpTime (s : State) (now : BitVec 64) : s.readReg path Reg.PTP_TIME_LO 0 now =
    (s.latch 2 path (BitVec.ofNat 32 (now.toNat / 2 ^ 32)), BitVec.ofNat 32 now.toNat) := by
  unfold State.readReg
  rw [show rowOf Reg.PTP_TIME_LO = some (rowAt Reg.PTP_TIME_LO) by decide]
  rfl

theorem State.latched_latch (s : State) (kind : Nat) (w : Word) : (s.latch kind path w).latched kind path = w := Sparse.get_put_same ..

/-! ### Writes of a register word (R65, R425) -/

theorem exec_registerWrite_stores {off : BitVec 20} (rule : actOf off.toNat = storeAct off.toNat) (opens : s.writable off.toNat = true) :
    Stores (.registerWrite path off 15 v) s off.toNat v :=
  stores_of_storeAct (by rw [exec_registerWrite_word, rule]) opens

/-- Registers that only store. -/
def plainRegs : List Nat :=
  [Reg.CLK_LOCK_THR, Reg.CLK_MT_LOAD_LO, Reg.CLK_EPOCH_OFS_LO, Reg.PWR_WAKE_CFG, Reg.IRQ_HINT_EN_LO, Reg.ERR_CTRL, Reg.ING_TT_CFG, Reg.ING_CTRL,
    Reg.PS_WR_TGT, Reg.MM_VOICE_SEL, Reg.DEC_CTRL, Reg.ORT_CTRL, Reg.DRC_CFG, Reg.PTP_CFG, Reg.PCI_DMA_CFG, Reg.PCI_DMA_BASE_LO]

theorem actOf_plain : ∀ off ∈ plainRegs, actOf off = storeAct off := by
  simp only [plainRegs, List.forall_mem_cons, List.not_mem_nil, false_imp_iff, implies_true, and_true]
  exact ⟨rfl, rfl, rfl, rfl, rfl, rfl, rfl, rfl, rfl, rfl, rfl, rfl, rfl, rfl, rfl, rfl⟩

theorem actOf_ntfCfg : actOf Reg.ING_NTF_CFG = actNtfCfg := rfl

theorem State.actNtfCfg_spec (s : State) (v : Word) :
    let t := actNtfCfg s (rowAt Reg.ING_NTF_CFG) (s.reg Reg.ING_NTF_CFG) v
    t.reg Reg.ING_NTF_CFG = s.stored Reg.ING_NTF_CFG v ∧ t.ing.held = (if fieldOf v 8 1 = 1 then s.ing.held else []) ∧
      t = { s with regs := t.regs, ing := { s.ing with held := t.ing.held } } ∧ KeepsRegs s t [Reg.ING_NTF_CFG] := by
  have row : (rowAt Reg.ING_NTF_CFG).rw.testBit 8 = true ∧ (rowAt Reg.ING_NTF_CFG).w1c.testBit 8 = false := by decide
  have en : (s.setReg Reg.ING_NTF_CFG (s.stored Reg.ING_NTF_CFG v)).bit Reg.ING_NTF_CFG 8 = decide (fieldOf v 8 1 = 1) := by
    rw [State.bit, State.reg_setReg_same, State.stored, RegRow.fieldOf_store_rw (by decide) row.1 row.2]
  have kept := (onlyRegs_setReg s Reg.ING_NTF_CFG (s.stored Reg.ING_NTF_CFG v)).2
  have value := s.reg_setReg_same Reg.ING_NTF_CFG (s.stored Reg.ING_NTF_CFG v)
  have run : actNtfCfg s (rowAt Reg.ING_NTF_CFG) (s.reg Reg.ING_NTF_CFG) v =
      if fieldOf v 8 1 = 1 then s.setReg Reg.ING_NTF_CFG (s.stored Reg.ING_NTF_CFG v)
      else { s.setReg Reg.ING_NTF_CFG (s.stored Reg.ING_NTF_CFG v) with ing := { s.ing with held := [] } } := by
    change (if (s.setReg Reg.ING_NTF_CFG (s.stored Reg.ING_NTF_CFG v)).bit Reg.ING_NTF_CFG 8 then _ else _) = _
    rw [en]
    exact if_congr (by simp) rfl rfl
  rw [run]
  by_cases on : fieldOf v 8 1 = 1
  · rw [if_pos on, if_pos on]
    exact ⟨value, rfl, rfl, kept⟩
  · rw [if_neg on, if_neg on]
    exact ⟨value, rfl, rfl, kept⟩

end Accesses

/-- Settles O56. -/
theorem registerAccesses : Obligations.RegisterAccesses := by
  intro s path p v o now off be inj go barred watched all full sent
  refine ⟨fun opens => ⟨fun bar => ⟨_, exec_errorInjectArm_barred opens bar, counted_bump .., onlyRegs_setReg ..⟩, fun free plain => ?_⟩,
    fun opens => ⟨fun none => ?_, fun room => ?_⟩,
    fun dead => ⟨⟨s, if_pos dead, rfl⟩, ⟨s, if_pos dead, rfl⟩, ⟨s, if_pos dead, rfl⟩⟩,
    fun serves => ⟨fun stat => ?_, ?_, fun part => ?_, fun mem opens => exec_registerWrite_stores (actOf_plain _ mem) opens, fun ntf opens => ?_,
      fun none => ?_⟩⟩
  · have run := exec_errorInjectArm_armed (path := path) opens free
    rw [State.fireNow_unwatched _ plain] at run
    have some : 0 < detectorsOf p := by
      by_contra zero
      exact free (Or.inr (Or.inr (Or.inl (by omega))))
    obtain ⟨rw_, none⟩ := rowAt_errInj p some
    refine ⟨_, run, State.bit_setBit_same _ _ _ (by decide), State.armedWith_fld none (by decide) ?_, State.armedWith_fld none (by decide) ?_,
      ((onlyRegs_setReg s inj _).trans (onlyRegs_setReg _ inj _)).mono (by simp)⟩
    · rw [rw_]
      decide
    · rw [rw_]
      decide
  · refine ⟨s.pageErrFlag Page.glb 1, (exec_glbFence opens).trans (congrArg _ (if_pos none)), ?_⟩
    exact ⟨State.bit_pageErrFlag s (by decide), State.counted_pageErrFlag s, onlyRegs_pageErrFlag ..⟩
  · refine ⟨_, (exec_glbFence opens).trans (congrArg _ (if_neg room)), rfl, State.reg_setReg_same .., rfl, fun a ha => ?_⟩
    exact State.reg_setReg_other _ _ (by simpa using ha)
  · have run : exec (.glbRead path o) s = .next ((s.readReg path (4 * o) 0 0).1.send (.readData path [(s.readReg path (4 * o) 0 0).2])) :=
      if_neg (by simp [serves])
    rw [s.readReg_glb o stat] at run
    exact ⟨_, run, rfl⟩
  · have run : exec (.ptpTimeRead path now) s =
        .next ((s.readReg path Reg.PTP_TIME_LO 0 now).1.send (.readData path [(s.readReg path Reg.PTP_TIME_LO 0 now).2])) := if_neg (by simp [serves])
    rw [s.readReg_ptpTime now] at run
    exact ⟨_, run, rfl, s.latched_latch 2 _, rfl⟩
  · exact ⟨_, (if_neg (by simp [serves])).trans (if_pos part), State.bit_pageErrFlag s (by decide), State.counted_pageErrFlag s,
      onlyRegs_pageErrFlag ..⟩
  · have run := exec_registerWrite_word s path off v
    rw [ntf, actOf_ntfCfg, State.hostWrite_of_writable opens] at run
    exact ⟨_, run, State.actNtfCfg_spec s v⟩
  · have run := exec_registerWrite_word s path off v
    refine ⟨_, run, ?_⟩
    unfold State.hostWrite
    rw [none]
    dsimp only
    split
    · exact OnlyRegs.refl s _
    split
    · exact onlyRegs_setReg ..
    split
    · exact OnlyRegs.refl s _
    · exact OnlyRegs.refl s _

end Sys2Proof.Machine
end

section
/-! PROOFS. O57 and O58 fail: a restart shows the fuse in one register per word of it, and the state may hold more words than the eight registers
that `Restarted` lets differ. -/

namespace Sys2Proof.Machine

/-- A module whose fuse holds nine words, one more than BOOT_FUSE_DATA has registers, in or out of thermal shutdown. -/
def nineFused (shut : Bool) : State :=
  { State.reset with pwr := { Power.reset with fuse := List.replicate 9 1, thermalOff := shut } }

/-- The registers that a restart may leave other than after reset, whatever its cause. -/
def restartRegs : List Nat :=
  [Reg.PWR_RST_CAUSE, Reg.PWR_RESTART_CNT, Reg.PWR_RAIL_STAT, Reg.PWR_STAT, Reg.DAC_STAT, Reg.BOOT_FUSE_STAT] ++ (List.range 8).map Reg.BOOT_FUSE_DATA

theorem ninth_notMem_restartRegs : Reg.BOOT_FUSE_DATA 8 ∉ restartRegs := by decide

theorem Restarted.reg_ninth {s t : State} {cause : Nat} (h : Restarted s t cause) : t.reg (Reg.BOOT_FUSE_DATA 8) = 0 := by
  obtain ⟨-, -, -, regs⟩ := h
  exact (regs _ ninth_notMem_restartRegs).trans (by decide)

theorem nineFused_watchdog : (((nineFused false).logError 0x0700 0 0 false).moduleRestart 1 false).reg (Reg.BOOT_FUSE_DATA 8) = 1 := by decide

theorem nineFused_cooled : (((nineFused true).setTemp 0).moduleRestart 4 false).reg (Reg.BOOT_FUSE_DATA 8) = 1 := by decide

/-- Refutes O57: with nine words in the fuse a watchdog restart writes the ninth past the last BOOT_FUSE_DATA. -/
theorem not_clocksAndRestarts : ¬ Obligations.ClocksAndRestarts := by
  intro h
  obtain ⟨-, -, -, -, -, -, -, -, on, -⟩ := h (nineFused false) .pcie 0 0 0 0 0 false false none
  obtain ⟨⟨t, run, restarted, -⟩, -⟩ := on (by decide)
  have t_eq : ((nineFused false).logError 0x0700 0 0 false).moduleRestart 1 false = t := Host.Outcome.next.inj run
  have zero := restarted.reg_ninth
  rw [← t_eq, nineFused_watchdog] at zero
  exact absurd zero (by decide)

/-- Refutes O58: as O57, when the module restarts because it has cooled down after a thermal shutdown. -/
theorem not_standbyAndSupervision : ¬ Obligations.StandbyAndSupervision := by
  intro h
  obtain ⟨-, shut, -⟩ := h (nineFused true) .pcie 0 0 false
  obtain ⟨t, run, restarted⟩ := (shut rfl rfl).1 (by decide)
  have t_eq : ((nineFused true).setTemp 0).moduleRestart 4 false = t := Host.Outcome.next.inj run
  have zero := restarted.reg_ninth
  rw [← t_eq, nineFused_cooled] at zero
  exact absurd zero (by decide)

end Sys2Proof.Machine
end

section
/-! PROOFS. O22 fails: ING_LAST_FENCE shows the source of a completed fence from bit 16 on, and the state may hold a fence whose source number does
not fit the eight bits below the scope's. -/

namespace Sys2Proof.Machine

/-- A fence from a source whose number has nine bits. -/
def farFence : FenceRec :=
  { ident := 0, all := false, src := 256, glb := false, arr := 0, seq := 0, idx := 0, notify := false, tag := 0, floor := 0 }

/-- The block after reset, but for a placed fence that nothing holds up. -/
def farFenced : State := { State.reset with ing := { Ingress.reset with fences := [farFence] } }

/-- The scope's bit of ING_LAST_FENCE is set, although the fence covers one source. -/
theorem farFenced_completes : farFenced.completeFence.bit Reg.ING_LAST_FENCE 24 = true := by decide

/-- Refutes O22: with a fence from source 256 the completion shows ALL set. -/
theorem not_eventsEnterAndLeave : ¬ Obligations.EventsEnterAndLeave := by
  intro h
  obtain ⟨-, -, -, completes, -⟩ := h.2 farFenced
  obtain ⟨t, run, -, -, all, -⟩ := completes farFence (by decide) (by decide)
  have t_eq : farFenced.completeFence = t := Host.Outcome.next.inj run
  rw [← t_eq, farFenced_completes] at all
  exact absurd all (by decide)

end Sys2Proof.Machine
end

section
/-! PROOFS. O50 fails: a copy out of host memory stops at the end of its address space, which the statement's condition on a source in host memory
leaves out. -/

namespace Sys2Proof.Machine

/-- A descriptor that copies eight bytes from the last word of host memory to the start of the Concourse. -/
def lastWordCopy : List Byte :=
  [0xFC, 0xFF, 0xFF, 0xFF, 0xFF, 0xFF, 0xFF, 0xFF, 0, 0, 0, 0, 0, 0, 0, 0, 8, 0, 0, 0, 0x40] ++ List.replicate 11 0

/-- Host memory returns eight bytes, and nothing else is met. -/
def eightBytes : DmaMeet := { host := List.replicate 8 0, poisoned := false, reads := [], writes := [], errs := [], stop := 0 }

/-- A block that has booted, with the DMA engine enabled and one descriptor in its ring. -/
def oneDescriptor : State := ((State.reset.setFld Reg.BOOT_STAT 24 4 6).setBit Reg.PCI_DMA_CFG 8 true).setReg Reg.PCI_DMA_PI 1

/-- The copy ends with an error. -/
theorem lastWordCopy_fails : (oneDescriptor.dmaMove lastWordCopy eightBytes).reg Reg.PCI_DMA_ERR_CNT = 1 := by decide

/-- Refutes O50: the copy reaches the end of host memory after four of its eight bytes, although host memory returned all eight. -/
theorem not_dmaDescriptors : ¬ Obligations.DmaDescriptors := by
  intro h
  obtain ⟨-, -, -, -, moves, -⟩ := h oneDescriptor .pcie 0 lastWordCopy eightBytes
  have clear : oneDescriptor.windowsShut = false ∧ oneDescriptor.pageOn Page.pci = true ∧ oneDescriptor.conQuiet ∧
      oneDescriptor.ctl.badParity = [] ∧ oneDescriptor.dramQuiet ∧ eightBytes.reads = [] ∧ eightBytes.writes = [] ∧ eightBytes.errs = [] := by
    unfold State.conQuiet State.dramQuiet
    decide
  obtain ⟨toConcourse, -⟩ := moves (by decide) (by decide) clear (by decide) (by decide)
  obtain ⟨t, run, -, ⟨-, -, -, errors, -⟩, -⟩ := (toConcourse (by decide) (by decide)).1 (by decide)
  have t_eq : oneDescriptor.dmaMove lastWordCopy eightBytes = t := Host.Outcome.next.inj run
  rw [← t_eq, if_neg (by decide), lastWordCopy_fails] at errors
  exact absurd errors (by decide)

end Sys2Proof.Machine
end

section
/-! PROOFS. O1 and O2: what a step does with its queue, and the block after power-on reset. -/

namespace Sys2Proof.Machine

/-- Settles O1: a step is its front command by the definition of `step`. -/
theorem stepRunsFront : Obligations.StepRunsFront := by
  unfold Obligations.StepRunsFront
  refine ⟨fun c rest s queued => ?_, fun s queued => ?_⟩
  · rw [step, queued]
  · rw [step, queued]

/-- The block's header registers at reset. -/
theorem reset_headers : ∀ p : Fin 66, pageExists p = true →
    State.reset.reg (Reg.PAGE_CTRL p) = 1 ∧ State.reset.reg (Reg.PAGE_IRQ_STAT p) = 0 ∧ State.reset.reg (Reg.PAGE_IRQ_EN p) = 0 ∧
      State.reset.reg (Reg.PAGE_ERR_STAT p) = 0 ∧ State.reset.reg (Reg.PAGE_ERR_CNT p) = 0 ∧
      State.reset.reg (Reg.PAGE_ERR_INJ p) = 0xFF0000 := by decide

/-- The memories and registers of the block at reset are empty, and so in canonical form. -/
theorem reset_canonical : State.reset.Canonical := ⟨by decide, by decide, by decide⟩

/-- Settles O2: the registers by their reset values, one by one; the rest holds of empty memories. -/
theorem resetState : Obligations.ResetState := by
  unfold Obligations.ResetState
  refine ⟨reset_canonical, rfl, by decide, by decide, by decide, rfl, fun _ => rfl, fun _ => rfl, reset_headers, by decide, by decide,
    by decide⟩

end Sys2Proof.Machine
end

section
/-! PROOFS. O33 fails: a task whose block has a send snapshot without channels commits without a result in the Concourse. -/

namespace Sys2Proof.Machine

/-! ### A commit without channels -/

theorem State.judge_pmuOnly (s : State) (n : Nat) (tally : List Nat) (passed : Bool) : PmuOnly s (s.judge n tally passed) := by
  unfold State.judge
  exact (((PmuOnly.count ..).trans (.count ..)).trans (.count ..)).trans (.count ..)

section
variable {c : State} {t : Task}

/-- The Mix Engine reads no output buffer for a snapshot without channels. -/
theorem State.accept_noChannels (snap : (c.snapOf t.index t.bseq).map MixSnap.nch = some 0) :
    (c.accept t).1.con = c.con ∧ (c.accept t).1.sch = c.sch ∧ (c.accept t).1.regs = (c.bump Reg.MIX_ACCEPT_CNT).regs := by
  obtain ⟨m, found, none_⟩ := Option.map_eq_some_iff.1 snap
  unfold State.accept
  dsimp only
  rw [found, Option.getD_some, none_]
  unfold State.addTerm
  dsimp only
  split
  · split <;> exact ⟨rfl, rfl, rfl⟩
  · exact ⟨rfl, rfl, rfl⟩

/-- With the SPF page disabled, a commit writes no register of the Concourse's contents beyond its checkpoint. -/
theorem State.commit_con {s : State} {b : TaskBuf} {ended : Bool} {n : Nat} (voice : t.kind ≠ .bus) (same : (s.checkpoint t b).regs = s.regs)
    (mix : (s.checkpoint t b).mix = s.mix) (sch : (s.checkpoint t b).sch = s.sch) (notify : s.sch.shuntNotify = [])
    (spf : s.pageOn Page.spf = false) (snap : (s.snapOf t.index t.bseq).map MixSnap.nch = some 0) :
    (s.commit n t b ended).con = (s.checkpoint t b).con := by
  unfold State.commit
  generalize s.checkpoint t b = c at same mix sch ⊢
  have snap' : (c.snapOf t.index t.bseq).map MixSnap.nch = some 0 := by
    unfold State.snapOf at snap ⊢
    rwa [mix]
  obtain ⟨con, sch', regs⟩ := State.accept_noChannels snap'
  generalize c.accept t = a at con sch' regs ⊢
  have off : ∀ u : State, u.regs = (c.bump Reg.MIX_ACCEPT_CNT).regs → ∀ k under, u.streamCommit t.slot k under = u := by
    intro u hu k under
    have pageOff : u.pageOn Page.spf = false := by
      have kept : u.reg (Reg.PAGE_CTRL Page.spf) = s.reg (Reg.PAGE_CTRL Page.spf) := by
        have bumped : u.reg (Reg.PAGE_CTRL Page.spf) = (c.bump Reg.MIX_ACCEPT_CNT).reg (Reg.PAGE_CTRL Page.spf) := by
          unfold State.reg
          rw [hu]
        rw [bumped, c.reg_bump_other (by decide)]
        unfold State.reg
        rw [same]
      unfold State.pageOn at spf ⊢
      rw [State.bit_of_reg kept]
      exact spf
    rw [State.streamCommit, if_pos pageOff]
  have record : ∀ u : State, (u.slotCommit t a.2 ended).con = u.con ∧ (u.slotCommit t a.2 ended).sch = u.sch ∧
      (u.slotCommit t a.2 ended).regs = u.regs := fun u => by
    rw [State.slotCommit, if_neg voice]
    exact ⟨rfl, rfl, rfl⟩
  obtain ⟨con₁, sch₁, regs₁⟩ := record a.1
  have counted : PmuOnly (a.1.slotCommit t a.2 ended)
      (((a.1.slotCommit t a.2 ended).judge n t.tally true).count (427 + 6 * (3 - codeOfCls t.cls) + 2) 1) :=
    (State.judge_pmuOnly _ n t.tally true).trans rfl
  dsimp only
  generalize ((a.1.slotCommit t a.2 ended).judge n t.tally true).count (427 + 6 * (3 - codeOfCls t.cls) + 2) 1 = u at counted ⊢
  have regs₂ : u.regs = _ := congrArg State.regs counted
  have con₂ : u.con = _ := congrArg State.con counted
  have sch₂ : u.sch = _ := congrArg State.sch counted
  have regs₃ : (u.updTask t.order (fun k => { k with phase := .committed, tally := [] })).regs = (c.bump Reg.MIX_ACCEPT_CNT).regs :=
    show u.regs = _ by rw [regs₂, regs₁, regs]
  rw [if_neg voice, off _ regs₃, off _ regs₃, State.shuntDone, if_neg]
  · exact show u.con = _ by rw [con₂, con₁, con]
  · have none_ : u.sch.shuntNotify = [] := by rw [sch₂, sch₁, sch', sch, notify]
    exact fun h => absurd h (by
      change ¬ u.sch.shuntNotify.contains _ = true
      rw [none_, List.contains_nil]
      exact Bool.false_ne_true)
end

theorem Frame.length_slice (f : Frame) (i n : Nat) : (f.slice i n).length = n := by simp [Frame.slice]

/-- The words of a checkpoint of a task without channels stand at its home and in its Part's frame. -/
theorem State.checkpoint_noChannels {s : State} {t : Task} {b : TaskBuf} (q : s.conQuiet) (voice : t.kind ≠ .bus)
    (snap : (s.snapOf t.index t.bseq).map MixSnap.nch = some 0) :
    (s.checkpoint t b).regs = s.regs ∧ (s.checkpoint t b).mix = s.mix ∧ (s.checkpoint t b).sch = s.sch ∧
      ∀ a, t.home + 4096 ≤ a → frameAddr t.slot 0x400 ≤ a → (s.checkpoint t b).conByte a = s.conByte a := by
  have home := State.devWrite_quiet q 40 t.cls t.home (b.x.slice 0 512 ++ b.y.slice 0 512)
  have frame := State.devWrite_quiet home.quiet 40 t.cls (frameAddr t.slot 0x300) (b.x.slice 0x200 256)
  have kept : ∀ a, t.home + 4096 ≤ a → frameAddr t.slot 0x400 ≤ a →
      ((s.devWrite 40 t.cls t.home (b.x.slice 0 512 ++ b.y.slice 0 512)).devWrite 40 t.cls (frameAddr t.slot 0x300)
        (b.x.slice 0x200 256)).conByte a = s.conByte a := fun a beyond past => by
    rw [frame.keeps a (.inr (by simp only [length_wordBytes, Frame.length_slice]; omega)),
      home.keeps a (.inr (by simp only [length_wordBytes, List.length_append, Frame.length_slice]; omega))]
  unfold State.checkpoint
  rw [snap, Option.getD_some]
  dsimp only [List.range_zero, List.foldl_nil]
  rw [if_neg voice]
  generalize (s.devWrite 40 t.cls t.home (b.x.slice 0 512 ++ b.y.slice 0 512)).devWrite 40 t.cls (frameAddr t.slot 0x300)
    (b.x.slice 0x200 256) = u at frame kept ⊢
  refine ⟨?_, ?_, ?_, kept⟩
  · change u.regs = _
    rw [frame.rest, home.rest]
  · change u.mix = _
    rw [frame.rest, home.rest]
  · change u.sch = _
    rw [frame.rest, home.rest]

/-! ### The counterexample -/

/-- Slot 0's task of block 12, which core 0 has yielded. -/
def yieldedTask : Task :=
  { kind := .voice, cls := .normal, first := false, fade := false, resume := false, rerender := false, slot := 0, part := 0, bseq := 12
    epoch := 0, entryPc := 0, home := homeAddr 0, limit := 500, splitPtr := 0, splitN := 0, start := 0, fadeBlk := 0, fadeLen := 0
    out := outBuffer 0, phase := .yielded 0 false false, platform := 0, exclude := none, order := 0, head := false, boundAt := 0
    withdrawn := false, tally := [], takeAt := 0, seed := 0 }

/-- The frames of a yielded task: its first result word is 1. -/
def loudFrames : TaskBuf := { TaskBuf.reset with y := Frame.reset.wr 0x200 1, task := some 0, frozen := true }

/-- Core 0 has yielded the task, the send snapshot of its block has no channel, and no stream is in force. -/
def noChannels : State :=
  let s := (State.reset.updCore 0 (fun c => { c with bufA := loudFrames })).setReg (Reg.PAGE_CTRL Page.spf) 0
  { s with
    sch := { s.sch with tasks := [yieldedTask] }
    mix := { s.mix with snaps := [{ index := 0, bseq := 12, nch := 0, sends := [], fadeBlk := none, fadeLen := 1, cls := .normal }] } }

/-- The commit leaves the first word of the task's output buffer 0. -/
theorem noChannels_commit : (noChannels.commit 0 yieldedTask loudFrames false).conWord (outBuffer 0) = 0 := by
  obtain ⟨regs, mix, sch, con⟩ := State.checkpoint_noChannels (s := noChannels) (t := yieldedTask) (b := loudFrames) (by
    unfold State.conQuiet
    decide) (by decide) (by decide)
  have byte : ∀ i, i < 4 → (noChannels.commit 0 yieldedTask loudFrames false).conByte (outBuffer 0 + i) = noChannels.conByte (outBuffer 0 + i) :=
    fun i _ => by
      rw [State.conByte_congr (State.commit_con (by decide) regs mix sch (by decide) (by decide) (by decide)),
        con _ (Nat.le_trans (by decide) (Nat.le_add_right ..)) (Nat.le_trans (by decide) (Nat.le_add_right ..))]
  have zero : ∀ j, j < 4 → ((leBytes 4 (0 : Word).toNat)[j]?).getD 0 = 0 := by decide
  refine State.conWord_of_bytes fun j hj => (byte j hj).trans ?_
  rw [zero j hj]
  rfl

/-- The core's front frames are free again. -/
def Core.freeFront (c : Core) : Core := c.setFront { c.front with frozen := false, task := none }

/-- Only the core's frames change after the commit. -/
theorem noChannels_run : exec (.commitCheck 0 .clean .clean) noChannels =
    .next ((noChannels.commit 0 yieldedTask loudFrames false).updCore 0 Core.freeFront) := by
  have yields : (noChannels.core (0 : Fin 34)).yielded = some (true, loudFrames) := by decide
  have x : noChannels.coreMemCheck (0 : Fin 34) 1 .clean = (noChannels, false) := State.coreMemCheck_clean (by decide) 1
  have y : noChannels.coreMemCheck (0 : Fin 34) 2 .clean = (noChannels, false) := State.coreMemCheck_clean (by decide) 2
  have task : loudFrames.task.bind noChannels.taskOf = some yieldedTask := by decide
  change execCommitCheck 0 .clean .clean noChannels = _
  unfold execCommitCheck
  rw [yields]
  dsimp only
  rw [x, y, task]
  exact (if_neg (by decide)).trans rfl

/-- Refutes O33: the block's send snapshot has no channel, so the commit writes no result, although the task's frames hold one. -/
theorem not_commitChecks : ¬ Obligations.CommitChecks := by
  intro h
  obtain ⟨-, commits⟩ := h noChannels 0 true loudFrames 0 yieldedTask 0 false (by decide) rfl (by decide) rfl (by decide) (by
    unfold State.conQuiet
    decide)
  obtain ⟨t, run, -, -, -, -, result, -⟩ := commits (by decide) (by decide) (by decide) (by decide) (by decide) rfl rfl rfl (by decide)
  have t_eq := Host.Outcome.next.inj (noChannels_run.symm.trans run)
  have silent : t.conWord (outBuffer 0) = 0 := by
    have con : t.con = (noChannels.commit 0 yieldedTask loudFrames false).con := by
      rw [← t_eq]
      generalize noChannels.commit 0 yieldedTask loudFrames false = u
      rfl
    rw [State.conWord_congr con]
    exact noChannels_commit
  have place : yieldedTask.out + 4 * 0 = outBuffer 0 := by decide
  have loud := result 0 (by decide)
  rw [place, silent] at loud
  exact absurd loud (by decide)

end Sys2Proof.Machine
end

section
/-! PROOFS. Core events, the host's control of a core, and program memory; the statement CoreEventsAndPrograms. -/

namespace Sys2Proof.Sparse

variable {α : Type}

theorem erase_erase (m : Map α) (k : Nat) : erase (erase m k) k = erase m k := by
  induction m with
  | nil => rfl
  | cons e m ih =>
    by_cases own : e.1 = k
    · rw [erase, if_pos own, ih]
    · rw [erase, if_neg own, erase, if_neg own, ih]

theorem erase_insert {m : Map α} {k : Nat} (free : ∀ e ∈ m, e.1 ≠ k) (v : α) : erase (insert m k v) k = m := by
  have gone : ∀ l : Map α, (∀ e ∈ l, e.1 ≠ k) → erase l k = l := by
    intro l
    induction l with
    | nil => exact fun _ => rfl
    | cons e l ih =>
      intro other
      rw [erase, if_neg (other e List.mem_cons_self), ih fun d hd => other d (List.mem_cons_of_mem _ hd)]
  induction m with
  | nil => rw [insert, erase, if_pos rfl, erase]
  | cons e m ih =>
    rw [insert]
    split
    · rw [erase, if_pos rfl, gone _ free]
    · rw [erase, if_neg (free e List.mem_cons_self), ih fun d hd => free d (List.mem_cons_of_mem _ hd)]

/-- A value that is put twice stands as if put once. -/
theorem put_put [DecidableEq α] (dflt : Nat → α) (m : Map α) (k : Nat) (v : α) : put dflt (put dflt m k v) k v = put dflt m k v := by
  unfold put
  split
  · exact erase_erase m k
  · rw [erase_insert (fun e he => (mem_erase m k e he).1)]

end Sys2Proof.Sparse

namespace Sys2Proof.Machine

/-! ### Taking an event -/

section
variable {s : State} {n : Nat}

/-- Nothing lands on a core with nothing in flight. -/
theorem State.landBy_idle (idle : (s.core n).inflight = []) (t : Nat) : OnlyCore s (s.landBy n t) n ∧ (s.landBy n t).core n = s.core n := by
  have landed : (s.core n).landed t = s.core n := by
    unfold Core.landed
    rw [idle]
    show { s.core n with inflight := [] } = _
    rw [← idle]
  rw [State.landBy_quiet s n t (fun k _ hk => by rwa [landed] at hk), landed]
  exact ⟨OnlyCore.setCore .., State.core_setCore_same ..⟩

/-- Nor does anything complete on it. -/
theorem State.coreFlush_idle (idle : (s.core n).inflight = []) : OnlyCore s (s.coreFlush n) n ∧ (s.coreFlush n).core n = s.core n := by
  have steps : ∀ (l : List Nat) (u : State) (t : Nat), OnlyCore s u n → u.core n = s.core n →
      OnlyCore s (l.foldl (fun u k => u.landBy n (t + k)) u) n ∧ (l.foldl (fun u k => u.landBy n (t + k)) u).core n = s.core n := by
    intro l
    induction l with
    | nil => exact fun u t only core => ⟨only, core⟩
    | cons k l ih =>
      intro u t only core
      obtain ⟨lands, same⟩ := State.landBy_idle (s := u) (n := n) (by rw [core]; exact idle) (t + k)
      exact ih _ t (only.trans lands) (same.trans core)
  exact steps _ s _ (OnlyCore.refl ..) rfl

end

/-- Whether a core meets a breakpoint depends on the registers of the debug page alone. -/
theorem State.breakAt_of_regs {s t : State} (ctrl : t.reg Reg.DBG_CTRL = s.reg Reg.DBG_CTRL)
    (page : t.reg (Reg.PAGE_CTRL Page.dbg) = s.reg (Reg.PAGE_CTRL Page.dbg))
    (points : ∀ k, k < 8 → t.reg (Reg.DBG_BP_CFG k) = s.reg (Reg.DBG_BP_CFG k)) (n pc : Nat) : t.breakAt n pc = s.breakAt n pc := by
  unfold State.breakAt State.pageOn
  rw [State.bit_of_reg ctrl, State.bit_of_reg page]
  rw [List.find?_congr fun k hk => by rw [points k (List.mem_range.1 hk)]]

/-- The debug page ends below the core's own registers. -/
theorem dbg_lt_vcEventCnt (n : Nat) : Reg.DBG_CTRL < Reg.VC_EVENT_CNT n ∧ Reg.PAGE_CTRL Page.dbg < Reg.VC_EVENT_CNT n ∧
    ∀ k, k < 8 → Reg.DBG_BP_CFG k < Reg.VC_EVENT_CNT n := by
  have start : Reg.DBG_BP_CFG 8 ≤ Reg.VC_EVENT_CNT 0 ∧ Reg.DBG_CTRL < Reg.VC_EVENT_CNT 0 ∧ Reg.PAGE_CTRL Page.dbg < Reg.VC_EVENT_CNT 0 := by
    decide
  obtain ⟨points, ctrl, page⟩ := start
  have up : Reg.VC_EVENT_CNT 0 ≤ Reg.VC_EVENT_CNT n := Nat.add_le_add_left (Nat.mul_le_mul_left _ (Nat.zero_le n)) _
  exact ⟨Nat.lt_of_lt_of_le ctrl up, Nat.lt_of_lt_of_le page up, fun k hk =>
    Nat.lt_of_lt_of_le (Nat.add_lt_add_left (Nat.mul_lt_mul_of_pos_left hk (by decide)) _) (Nat.le_trans points up)⟩

/-- A core that takes the event `code`, before it goes on at EVEC. -/
def Core.eventTaken (c : Core) (code : Nat) : Core :=
  let d := ((c.setCr 3 (BitVec.ofNat 32 c.pc)).setCr 2
    (BitVec.ofNat 32 (code + (if c.voice then 16 else 0) + (if c.task.isSome then 32 else 0)))).setVoice false
  { (d.setCr 0 (setFieldOf (d.cr 0) 1 1 0)).evt 0x10 1 with
    taking := none, events := c.events.filter (fun e => decide (e ≠ code)), halted := c.halted || decide (code = 8) }

theorem Core.eventTaken_cr (c : Core) (code k : Nat) : (c.eventTaken code).cr k =
    if k = 0 then setFieldOf (((c.setCr 3 0).setVoice false).cr 0) 1 1 0
    else if k = 2 then BitVec.ofNat 32 (code + (if c.voice then 16 else 0) + (if c.task.isSome then 32 else 0))
    else if k = 3 then BitVec.ofNat 32 c.pc else c.cr k := by
  have cr : (c.eventTaken code).cr k = ((((c.setCr 3 (BitVec.ofNat 32 c.pc)).setCr 2
    (BitVec.ofNat 32 (code + (if c.voice then 16 else 0) + (if c.task.isSome then 32 else 0)))).setVoice false).setCr 0
      (setFieldOf ((((c.setCr 3 (BitVec.ofNat 32 c.pc)).setCr 2
    (BitVec.ofNat 32 (code + (if c.voice then 16 else 0) + (if c.task.isSome then 32 else 0)))).setVoice false).cr 0) 1 1 0)).cr k := rfl
  rw [cr]
  unfold Core.setVoice
  simp only [Core.cr_setCr]
  by_cases h0 : k = 0
  · simp [h0]
  · simp [h0]

theorem Core.eventTaken_rd (c : Core) (code k : Nat) : (c.eventTaken code).rd k = c.rd k := by
  have regs : (c.eventTaken code).regs = c.regs := by simp only [Core.eventTaken, Core.evt, Core.setVoice, Core.setCr]
  have gen : (c.eventTaken code).gen = c.gen := by simp only [Core.eventTaken, Core.evt, Core.setVoice, Core.setCr]
  unfold Core.rd
  rw [regs, gen]

theorem Core.eventTaken_accRd (c : Core) (code k : Nat) : (c.eventTaken code).accRd k = c.accRd k := by
  have accs : (c.eventTaken code).accs = c.accs := by simp only [Core.eventTaken, Core.evt, Core.setVoice, Core.setCr]
  have gen : (c.eventTaken code).gen = c.gen := by simp only [Core.eventTaken, Core.evt, Core.setVoice, Core.setCr]
  unfold Core.accRd
  rw [accs, gen]

theorem Core.eventTaken_voice (c : Core) (code : Nat) : (c.eventTaken code).voice = false := by
  unfold Core.voice
  rw [Core.eventTaken_cr, if_pos rfl, fieldOf_setFieldOf_other _ _ (.inl (by decide))]
  exact Core.voice_setVoice _ false

theorem Core.eventTaken_eie (c : Core) (code : Nat) : fieldOf ((c.eventTaken code).cr 0) 1 1 = 0 := by
  rw [Core.eventTaken_cr, if_pos rfl]
  exact fieldOf_setFieldOf_same _ 0 (by decide)

/-- A core that goes on at `pc`. -/
def Core.movedTo (c : Core) (pc : Nat) : Core := { c with lastPc := c.pc, pc := pc }

theorem Core.movedTo_pc (c : Core) (pc : Nat) : (c.movedTo pc).pc = pc := rfl

theorem Core.movedTo_voice (c : Core) (pc : Nat) : (c.movedTo pc).voice = c.voice := rfl

theorem Core.movedTo_cr (c : Core) (pc k : Nat) : (c.movedTo pc).cr k = c.cr k := rfl

theorem Core.movedTo_rd (c : Core) (pc k : Nat) : (c.movedTo pc).rd k = c.rd k := rfl

theorem Core.movedTo_accRd (c : Core) (pc k : Nat) : (c.movedTo pc).accRd k = c.accRd k := rfl

theorem Core.movedTo_events (c : Core) (pc : Nat) : (c.movedTo pc).events = c.events := rfl

theorem Core.movedTo_halted (c : Core) (pc : Nat) : (c.movedTo pc).halted = c.halted := rfl

/-- What an event taken leaves: the core at EVEC, and the report of a halt. -/
theorem State.takeEvent_eq {s : State} {n : Nat} (code : Nat) (idle : (s.core n).inflight = [])
    (unbroken : s.breakAt n (((s.core n).cr 4).toNat % 8192) = none) :
    ∃ u, OnlyCore s u n ∧ (u.core n) = ((s.core n).eventTaken code).movedTo (((s.core n).cr 4).toNat % 8192) ∧
      s.takeEvent n code = if code = 8 then ((u.bump (Reg.VC_EVENT_CNT n)).count 501 1).raise (Page.vc0 + n) 1
        else (u.bump (Reg.VC_EVENT_CNT n)).count 501 1 := by
  obtain ⟨only, core⟩ := State.coreFlush_idle idle
  obtain ⟨ctrl, page, points⟩ := dbg_lt_vcEventCnt n
  have taken : s.takeEvent n code =
      let w := ((((s.coreFlush n).setCore n (((s.coreFlush n).core n).eventTaken code)).bump (Reg.VC_EVENT_CNT n)).count 501 1).goto n
        (((s.coreFlush n).core n).cr 4).toNat
      if code = 8 then w.raise (Page.vc0 + n) 1 else w := by
    unfold State.takeEvent State.updCore Core.eventTaken
    dsimp only
  rw [taken]
  generalize s.coreFlush n = f at only core ⊢
  rw [← core] at unbroken ⊢
  have takes : OnlyCore s (f.setCore n ((f.core n).eventTaken code)) n := only.trans (OnlyCore.setCore ..)
  have own : (f.setCore n ((f.core n).eventTaken code)).core n = (f.core n).eventTaken code := State.core_setCore_same ..
  generalize f.setCore n ((f.core n).eventTaken code) = v at takes own ⊢
  have kept : ∀ a, a ≠ Reg.VC_EVENT_CNT n → ((v.bump (Reg.VC_EVENT_CNT n)).count 501 1).reg a = s.reg a :=
    fun a ha => (State.reg_bump_other v ha).trans (takes.reg a)
  have step := State.goto_plain ((v.bump (Reg.VC_EVENT_CNT n)).count 501 1) n ((f.core n).cr 4).toNat
    ((State.breakAt_of_regs (kept _ (Nat.ne_of_lt ctrl)) (kept _ (Nat.ne_of_lt page))
      (fun k hk => kept _ (Nat.ne_of_lt (points k hk))) n _).trans unbroken)
  refine ⟨v.updCore n (fun c => c.movedTo (((f.core n).cr 4).toNat % 8192)),
    takes.trans (OnlyCore.updCore ..), ?_, ?_⟩
  · rw [State.core_updCore_same, own]
  · dsimp only
    rw [step]
    rfl

/-- The registers of a core's events stand apart from one another. -/
theorem vcEventCnt_notMem (n : Fin 34) : Reg.VC_EVENT_CNT n ∉ raiseRegs (Page.vc0 + n) := by
  revert n
  decide

section
variable {s : State} {n : Fin 34}

theorem coreEventTake_takes {code : Nat} (svc : (s.core n).svc = 2) (running : (s.core n).halted = false) (free : (s.core n).held = false)
    (due : (s.core n).takesEvent = true) (top : (s.core n).topEvent = some code) (idle : (s.core n).inflight = [])
    (unbroken : s.breakAt n (((s.core n).cr 4).toNat % 8192) = none) :
    ∃ t, exec (.coreEventTake n) s = .next t ∧
      t.core n = ((s.core n).eventTaken code).movedTo (((s.core n).cr 4).toNat % 8192) ∧
      (code = 8 → t.bit (Reg.PAGE_IRQ_STAT (Page.vc0 + n)) 1 = true) ∧ Counted s t (Reg.VC_EVENT_CNT n) ∧ KeepsCores s t [n.val] ∧
      KeepsRegs s t (Reg.VC_EVENT_CNT n :: raiseRegs (Page.vc0 + n)) := by
  obtain ⟨u, only, core, taken⟩ := State.takeEvent_eq code idle unbroken
  have run : exec (.coreEventTake n) s = .next (s.takeEvent n code) := by
    change execCoreEventTake n s = _
    unfold execCoreEventTake
    rw [if_neg (by simp [svc, running, free, due]), top]
  let v := (u.bump (Reg.VC_EVENT_CNT n)).count 501 1
  have keeps : OnlyReports u v [Reg.VC_EVENT_CNT n] := (onlyReports_bump ..).trans (onlyReports_count ..)
  have counts : Counted s v (Reg.VC_EVENT_CNT n) := (counted_bump u _).of_reg_eq (only.reg _)
  have cores : ∀ w, w.cores = u.cores → KeepsCores s w [n.val] := fun w hw m hm => by
    rw [State.core, hw]
    exact only.2 m (fun e => hm (by rw [e]; exact List.mem_singleton_self _))
  refine ⟨_, run, ?_⟩
  rw [taken]
  by_cases debug : code = 8
  · rw [if_pos debug]
    have raised := onlyReports_raise v (Page.vc0 + n) 1
    refine ⟨(raised.core n).trans core, fun _ => State.bit_raise_same _ _ (by decide),
      counts.of_reg_eq_after (raised.reg (vcEventCnt_notMem n)), cores _ (by rw [raised.1]; rfl), fun a ha => ?_⟩
    rw [raised.reg (fun h => ha (List.mem_cons_of_mem _ h)), keeps.reg (fun h => ha (List.mem_cons.2 (.inl (List.mem_singleton.1 h)))),
      only.reg]
  · rw [if_neg debug]
    refine ⟨core, fun h => absurd h debug, counts, cores _ rfl, fun a ha => ?_⟩
    rw [keeps.reg (fun h => ha (List.mem_cons.2 (.inl (List.mem_singleton.1 h)))), only.reg]

/-- A core that takes no event. -/
theorem coreEventTake_stays (h : ¬ ((s.core n).svc = 2 ∧ (s.core n).halted = false ∧ (s.core n).held = false ∧ (s.core n).takesEvent = true)) :
    exec (.coreEventTake n) s = .next s := by
  change execCoreEventTake n s = _
  unfold execCoreEventTake
  rw [if_pos]
  by_contra ready
  simp only [not_or, Bool.not_eq_true, Bool.not_eq_false, Decidable.not_not] at ready
  exact h ready

end

/-! ### The host's control of a core -/

/-- From `s` to `t` only register `a` and core `n` change. -/
structure Controlled (s t : State) (a n : Nat) : Prop where
  frame : t = { s with regs := t.regs, cores := t.cores }
  regs : KeepsRegs s t [a]
  cores : KeepsCores s t [n]

theorem controlled_setReg (s : State) (a n : Nat) (w : Word) : Controlled s (s.setReg a w) a n :=
  ⟨rfl, (onlyRegs_setReg s a w).keepsRegs, fun _ _ => rfl⟩

theorem Controlled.updCore {s t : State} {a n : Nat} (h : Controlled s t a n) (f : Core → Core) : Controlled s (t.updCore n f) a n where
  frame := by
    have own : t.updCore n f = { t with cores := (t.updCore n f).cores } := rfl
    rw [own, h.frame]
  regs := h.regs
  cores m hm := (State.core_updCore_other t f (fun e => hm (by rw [e]; exact List.mem_singleton_self _))).trans (h.cores m hm)

theorem Core.withEvent_events (c : Core) (code : Nat) :
    c.withEvent code = { c with events := if code ∈ c.events then c.events else c.events ++ [code] } := by
  unfold Core.withEvent
  simp only [List.contains_iff_mem]
  split <;> rfl

section
variable {s : State} {n : Fin 34} {path : Path} {v : Word}

theorem doorbellWrite_pends (opens : s.writable (Reg.VC_DBELL n) = true) :
    ∃ t, exec (.doorbellWrite path n v) s = .next t ∧ t.reg (Reg.VC_DBELL n) = s.stored (Reg.VC_DBELL n) v ∧
      t.core n = (s.core n).withEvent 9 ∧ Controlled s t (Reg.VC_DBELL n) n := by
  let w := s.setReg (Reg.VC_DBELL n) (s.stored (Reg.VC_DBELL n) v)
  have run : exec (.doorbellWrite path n v) s = .next (w.coreEvent n 9) := by
    change execDoorbellWrite path n v s = _
    rw [execDoorbellWrite, State.hostWrite_of_writable opens]
    rfl
  exact ⟨_, run, State.reg_setReg_same .., w.core_coreEvent n 9, (controlled_setReg ..).updCore _⟩

theorem haltRequest_run (opens : s.writable (Reg.VC_CTRL n) = true) : exec (.haltRequest path n v) s =
    .next (actVcCtrl n Access.quiet Access.quiet s (rowAt (Reg.VC_CTRL n)) (s.reg (Reg.VC_CTRL n)) v) := by
  change execHaltRequest path n v s = _
  rw [execHaltRequest, State.hostWrite_of_writable opens]

theorem singleStep_run (opens : s.writable (Reg.VC_CTRL n) = true) (ax ay : Access) : exec (.singleStep path n v ax ay) s =
    .next (actVcCtrl n ax ay s (rowAt (Reg.VC_CTRL n)) (s.reg (Reg.VC_CTRL n)) v) := by
  change execSingleStep path n v ax ay s = _
  rw [execSingleStep, State.hostWrite_of_writable opens]

end

/-- The block with a word written to VC_CTRL of core `n`. -/
def State.ctrlWritten (s : State) (n : Nat) (v : Word) : State := s.setReg (Reg.VC_CTRL n) (s.stored (Reg.VC_CTRL n) v)

/-- A DEBUG event raised by the write of VC_CTRL. -/
theorem ctrlWritten_debug (s : State) (n : Nat) (v : Word) :
    ((s.ctrlWritten n v).coreEvent n 8).reg (Reg.VC_CTRL n) = s.stored (Reg.VC_CTRL n) v ∧
      ((s.ctrlWritten n v).coreEvent n 8).core n =
        { s.core n with events := if 8 ∈ (s.core n).events then (s.core n).events else (s.core n).events ++ [8] } ∧
      ((s.ctrlWritten n v).coreEvent n 8) =
        { s with regs := ((s.ctrlWritten n v).coreEvent n 8).regs, cores := ((s.ctrlWritten n v).coreEvent n 8).cores } ∧
      KeepsRegs s ((s.ctrlWritten n v).coreEvent n 8) [Reg.VC_CTRL n] ∧ KeepsCores s ((s.ctrlWritten n v).coreEvent n 8) [n] := by
  have pends := (controlled_setReg s (Reg.VC_CTRL n) n (s.stored (Reg.VC_CTRL n) v)).updCore (fun c => c.withEvent 8)
  exact ⟨State.reg_setReg_same .., ((s.ctrlWritten n v).core_coreEvent n 8).trans (Core.withEvent_events _ 8), pends.frame, pends.regs,
    pends.cores⟩

section
variable {s : State} {n : Nat} {v : Word} {ax ay : Access}

theorem actVcCtrl_halt (halt : fieldOf v 0 1 = 1) (stay : fieldOf v 1 1 = 0 ∨ (s.core n).halted = false) :
    actVcCtrl n ax ay s (rowAt (Reg.VC_CTRL n)) (s.reg (Reg.VC_CTRL n)) v =
      if (s.core n).halted then s.ctrlWritten n v else (s.ctrlWritten n v).coreEvent n 8 := by
  have still : ¬ (fieldOf v 1 1 = 1 ∧ (s.core n).halted = true) := by
    rcases stay with h | h
    · omega
    · simp [h]
  unfold actVcCtrl
  dsimp only
  rw [if_neg still, if_pos halt]
  rfl

theorem actVcCtrl_resume (halt : fieldOf v 0 1 = 0) (stay : fieldOf v 1 1 = 0) :
    actVcCtrl n ax ay s (rowAt (Reg.VC_CTRL n)) (s.reg (Reg.VC_CTRL n)) v =
      if s.fld (Reg.VC_CTRL n) 0 1 = 1 then (s.ctrlWritten n v).updCore n (fun c => { c with halted := false }) else s.ctrlWritten n v := by
  unfold actVcCtrl
  dsimp only
  rw [if_neg (show ¬ (fieldOf v 1 1 = 1 ∧ (s.core n).halted = true) by omega), if_neg (show ¬ fieldOf v 0 1 = 1 by omega)]
  simp only [stay, and_true]
  rfl

theorem State.updCore_idem (u : State) (n : Nat) {f : Core → Core} (idem : ∀ c, f (f c) = f c) : (u.updCore n f).updCore n f = u.updCore n f := by
  have own : (u.updCore n f).core n = f (u.core n) := State.core_updCore_same ..
  have put : ((u.updCore n f).updCore n f).cores = (u.updCore n f).cores := by
    show Sparse.put (fun _ => Core.reset) (u.updCore n f).cores n (f ((u.updCore n f).core n)) = _
    rw [own, idem]
    exact Sparse.put_put ..
  show { u.updCore n f with cores := ((u.updCore n f).updCore n f).cores } = _
  rw [put]

theorem actVcCtrl_step {b : Bundle} (step : fieldOf v 1 1 = 1) (halted : (s.core n).halted = true)
    (quiet : (s.core n).topEvent = none) (fetch : decodeBundle (Sparse.get (fun _ => (0 : BitVec 64)) (s.core n).prog (s.core n).pc) = some b) :
    actVcCtrl n ax ay s (rowAt (Reg.VC_CTRL n)) (s.reg (Reg.VC_CTRL n)) v =
      (((s.ctrlWritten n v).updCore n (fun d => { d with halted := false })).issue n b ax ay).updCore n (fun d =>
        { d with halted := decide (d.svc = 2) }) := by
  let t := (s.ctrlWritten n v).updCore n (fun d => { d with halted := false })
  have core : t.core n = { s.core n with halted := false } := State.core_updCore_same ..
  have quiet' : (t.core n).topEvent = none := by
    rw [core]
    exact quiet
  have twice : t.updCore n (fun d => { d with halted := false }) = t := State.updCore_idem _ n fun _ => rfl
  have issue : t.stepBundle n ax ay = t.issue n b ax ay := by
    have fetch' : decodeBundle (Sparse.get (fun _ => (0 : BitVec 64)) (t.core n).prog (t.core n).pc) = some b := by
      rw [core]
      exact fetch
    unfold State.stepBundle
    rw [fetch']
  have stepped : actVcCtrl n ax ay s (rowAt (Reg.VC_CTRL n)) (s.reg (Reg.VC_CTRL n)) v =
      (t.stepBundle n ax ay).updCore n (fun d => { d with halted := decide (d.svc = 2) }) := by
    unfold actVcCtrl
    extract_lets s1 on t₁ u₁ s2
    have run : s2 = (t.stepBundle n ax ay).updCore n (fun d => { d with halted := decide (d.svc = 2) }) := by
      have running : (match (t.core n).topEvent with
          | some code => if (t.core n).takesEvent then t.takeEvent n code else t
          | none => t) = t := by rw [quiet']
      change (if fieldOf v 1 1 = 1 ∧ (s.core n).halted = true then _ else _) = _
      rw [if_pos (And.intro step halted)]
      change (((match (t.core n).topEvent with
          | some code => if (t.core n).takesEvent then t.takeEvent n code else t
          | none => t).updCore n (fun c => { c with halted := false })).stepBundle n ax ay).updCore n _ = _
      rw [running, twice]
    have set : on = true := halted
    clear_value s2 on
    rw [if_pos set, if_neg (show ¬ (fieldOf (s.reg (Reg.VC_CTRL n)) 0 1 = 1 ∧ fieldOf v 1 1 = 0) by omega), run, ite_self]
  rw [stepped, issue]

end

/-! ### Program memory -/

theorem pmRejCnt_apart : ∀ n : Fin 34, Reg.PAGE_ERR_CNT (Page.vc0 + n) ≠ Reg.VC_PM_REJ_CNT n := by decide

theorem pmDataHi_apart : ∀ n : Fin 34, Reg.VC_PM_DATA_HI n ≠ Reg.VC_PM_ADDR n := by decide

section
variable {s : State} {n : Fin 34} {path : Path} {v : Word} (opens : s.writable (Reg.VC_PM_DATA_HI n) = true)
include opens

theorem programLoad_refused (barred : (s.core n).svc = 2 ∧ s.bit (Reg.VC_CTRL n) 2 = false) :
    Completes (.programLoad path n v) s (fun t => Counted s t (Reg.VC_PM_REJ_CNT n) ∧ Counted s t (Reg.PAGE_ERR_CNT (Page.vc0 + n)) ∧
      OnlyRegs s t [Reg.VC_PM_REJ_CNT n, Reg.PAGE_ERR_CNT (Page.vc0 + n)]) := by
  have run : exec (.programLoad path n v) s = .next ((s.bump (Reg.VC_PM_REJ_CNT n)).pageErr (Page.vc0 + n)) := by
    change execProgramLoad path n v s = _
    rw [execProgramLoad, State.hostWrite_of_writable opens, actProgramLoad, if_pos barred]
  have apart := pmRejCnt_apart n
  refine ⟨_, run, (counted_bump s _).of_reg_eq_after (State.reg_bump_other _ apart.symm),
    (counted_bump _ _).of_reg_eq (State.reg_bump_other _ apart), rfl, fun a ha => ?_⟩
  rw [List.mem_cons, List.mem_singleton, not_or] at ha
  rw [State.pageErr, State.reg_bump_other _ ha.2, State.reg_bump_other _ ha.1]

theorem programLoad_loads (free : ¬ ((s.core n).svc = 2 ∧ s.bit (Reg.VC_CTRL n) 2 = false)) :
    let a := s.fld (Reg.VC_PM_ADDR n) 0 13
    ∃ t, exec (.programLoad path n v) s = .next t ∧
      (t.core n).prog = Sparse.put (fun _ => (0 : BitVec 64)) (s.core n).prog a
        (BitVec.ofNat 64 ((s.reg (Reg.VC_PM_DATA_LO n)).toNat + (s.stored (Reg.VC_PM_DATA_HI n) v).toNat * 2 ^ 32)) ∧
      t.reg (Reg.VC_PM_ADDR n) = BitVec.ofNat 32 ((a + 1) % 8192) ∧ t.reg (Reg.VC_PM_DATA_HI n) = s.stored (Reg.VC_PM_DATA_HI n) v ∧
      t.core n = { s.core n with prog := (t.core n).prog } ∧ t = { s with regs := t.regs, cores := t.cores } ∧
      KeepsRegs s t [Reg.VC_PM_ADDR n, Reg.VC_PM_DATA_HI n] ∧ KeepsCores s t [n.val] := by
  intro a
  let word := BitVec.ofNat 64 ((s.reg (Reg.VC_PM_DATA_LO n)).toNat + (s.stored (Reg.VC_PM_DATA_HI n) v).toNat * 2 ^ 32)
  let u := (s.setReg (Reg.VC_PM_DATA_HI n) (s.stored (Reg.VC_PM_DATA_HI n) v)).updCore n
    (fun c => { c with prog := Sparse.put (fun _ => 0) c.prog a word })
  have run : exec (.programLoad path n v) s = .next (u.setReg (Reg.VC_PM_ADDR n) (BitVec.ofNat 32 ((a + 1) % 8192))) := by
    change execProgramLoad path n v s = _
    rw [execProgramLoad, State.hostWrite_of_writable opens, actProgramLoad, if_neg free]
    rfl
  have apart := pmDataHi_apart n
  have written : Controlled s u (Reg.VC_PM_DATA_HI n) n := (controlled_setReg ..).updCore _
  have core : u.core n = { s.core n with prog := Sparse.put (fun _ => 0) (s.core n).prog a word } := State.core_updCore_same ..
  have hi : u.reg (Reg.VC_PM_DATA_HI n) = s.stored (Reg.VC_PM_DATA_HI n) v := State.reg_setReg_same ..
  clear_value u
  have core' : (u.setReg (Reg.VC_PM_ADDR n) (BitVec.ofNat 32 ((a + 1) % 8192))).core n = u.core n := rfl
  refine ⟨_, run, ?_, State.reg_setReg_same .., (State.reg_setReg_other _ _ apart).trans hi, ?_, ?_, fun b hb => ?_, written.cores⟩
  · rw [core', core]
  · rw [core', core]
  · have frame := written.frame
    rw [frame]
    rfl
  · rw [List.mem_cons, not_or] at hb
    exact (State.reg_setReg_other _ _ hb.1).trans (written.regs b hb.2)

end

/-! ### Words without a legal bundle -/

section
variable {s : State} {n : Fin 34}

theorem illegalBundle_legal {bits : BitVec 64} {b : Bundle} (fetch : decodeBundle bits = some b)
    (legal : (s.core n).legal (s.core n).pc b = true) : exec (.illegalBundle n bits) s = .next s := by
  change execIllegalBundle n bits s = _
  unfold execIllegalBundle
  rw [fetch]
  exact if_pos legal

theorem illegalBundle_unready (bits : BitVec 64) (unready : s.ready n = false) : exec (.illegalBundle n bits) s = .next s := by
  change execIllegalBundle n bits s = _
  unfold execIllegalBundle
  cases decodeBundle bits with
  | none =>
    dsimp only
    rw [State.issueIllegal, if_pos unready]
  | some b =>
    dsimp only
    split
    · rfl
    · rw [State.issue_of_not_ready unready]

/-- A word that is no legal bundle counts as an illegal one in an issue slot that performs nothing. -/
theorem illegalBundle_blank (calm : s.Calm n) {bits : BitVec 64}
    (illegal : (decodeBundle bits).all (fun b => !(s.core n).legal (s.core n).pc b) = true) :
    exec (.illegalBundle n bits) s = .next ((s.ill n).blank n) := by
  change execIllegalBundle n bits s = _
  unfold execIllegalBundle
  cases fetch : decodeBundle bits with
  | none =>
    dsimp only
    have inside : ¬ ((s.core n).voice = true ∧ (s.core n).pc < ((s.core n).cr 6).toNat) := calm.fetch
    unfold State.issueIllegal
    rw [calm.ready, State.coreMemCheck_clean calm.unarmed, if_neg (show ¬ true = false by decide)]
    dsimp only
    rw [if_neg inside]
  | some b =>
    rw [fetch, Option.all_some, Bool.not_eq_true'] at illegal
    dsimp only
    rw [if_neg (Bool.eq_false_iff.1 illegal), State.issue_illegal calm _ _ illegal]

/-- DOT2 of an odd register, which is illegal wherever it stands. -/
theorem oddDot2_illegal (c : Core) (pc : Nat) :
    c.legal pc { Bundle.nop with mp := .always, m := { kind := .dot2, n := 0, a := 1, b := 0 } } = false := rfl

end

/-- Settles O47: events, doorbell and control writes each change their core alone; a word without a legal bundle runs as the illegal bundles
of IllegalBundlesPerformNothing do. -/
theorem coreEventsAndPrograms : Obligations.CoreEventsAndPrograms := by
  unfold Obligations.CoreEventsAndPrograms
  refine ⟨fun s path n v ax ay => ?_, fun s path n v bits => ?_⟩
  · dsimp only
    refine ⟨fun stays => ⟨_, coreEventTake_stays stays, rfl⟩, ?_, fun opens => ?_, fun opens => ⟨?_, ?_, ?_, ?_⟩⟩
    · rintro code ⟨svc, running, free, due⟩ top idle - - unbroken
      obtain ⟨t, run, core, halts, counts, cores, regs⟩ := coreEventTake_takes svc running free due top idle unbroken
      have cr := Core.eventTaken_cr (s.core n) code
      refine ⟨t, run, ?_⟩
      dsimp only
      rw [core]
      simp only [Core.movedTo_pc, Core.movedTo_voice, Core.movedTo_cr, Core.movedTo_rd, Core.movedTo_accRd, Core.movedTo_events,
        Core.movedTo_halted, cr 3, cr 2]
      have kept : ((s.core n).eventTaken code).halted = ((s.core n).halted || decide (code = 8)) := rfl
      refine ⟨trivial, Core.eventTaken_voice _ code, if_neg (by decide), if_neg (by decide), Core.eventTaken_eie _ code, rfl, ?_, halts,
        Core.eventTaken_rd _ code, Core.eventTaken_accRd _ code, fun k h0 h2 h3 => ?_, counts, cores, regs⟩
      · rw [kept, running, Bool.false_or]
      · rw [cr k, if_neg h0, if_neg h2, if_neg h3]
    · obtain ⟨t, run, reg, core, only⟩ := doorbellWrite_pends (path := path) (v := v) opens
      exact ⟨t, run, reg, core.trans (Core.withEvent_events _ 9), only.frame, only.regs, only.cores⟩
    · intro halt stay
      refine ⟨_, haltRequest_run opens, ?_⟩
      rw [actVcCtrl_halt halt (.inl stay)]
      by_cases halted : (s.core n).halted = true
      · have written := controlled_setReg s (Reg.VC_CTRL n) n (s.stored (Reg.VC_CTRL n) v)
        rw [if_pos halted]
        dsimp only
        rw [if_pos (Or.inl halted)]
        exact ⟨State.reg_setReg_same .., rfl, written.frame, written.regs, written.cores⟩
      · obtain ⟨reg, core, frame, regs, cores⟩ := ctrlWritten_debug s n v
        have alone : ((s.core n).halted = true ∨ 8 ∈ (s.core n).events) = (8 ∈ (s.core n).events) := by simp [halted]
        rw [if_neg halted]
        simp only [alone]
        exact ⟨reg, core, frame, regs, cores⟩
    · intro halt stay
      refine ⟨_, haltRequest_run opens, ?_⟩
      rw [actVcCtrl_resume halt stay]
      have written := controlled_setReg s (Reg.VC_CTRL n) n (s.stored (Reg.VC_CTRL n) v)
      by_cases held : s.fld (Reg.VC_CTRL n) 0 1 = 1
      · have resumed := written.updCore (fun c => { c with halted := false })
        rw [if_pos held, held]
        simp only [Nat.one_ne_zero, decide_false, Bool.and_false]
        exact ⟨State.reg_setReg_same .., State.core_updCore_same .., resumed.frame, resumed.regs, resumed.cores⟩
      · have low : s.fld (Reg.VC_CTRL n) 0 1 = 0 := by
          have := s.fld_lt (Reg.VC_CTRL n) 0 1
          omega
        rw [if_neg held, low]
        simp only [decide_true, Bool.and_true]
        exact ⟨State.reg_setReg_same .., rfl, written.frame, written.regs, written.cores⟩
    · exact fun b step halted _ quiet fetch => ⟨_, singleStep_run opens ax ay, actVcCtrl_step step halted quiet fetch⟩
    · intro halt _ running
      refine ⟨_, singleStep_run opens ax ay, ?_⟩
      rw [actVcCtrl_halt halt (.inr running), if_neg (Bool.eq_false_iff.1 running)]
      obtain ⟨reg, core, -, -, cores⟩ := ctrlWritten_debug s n v
      exact ⟨reg, core, cores⟩
  · dsimp only
    refine ⟨fun opens => ⟨programLoad_refused opens, fun free => ?_⟩, fun b fetch legal => ⟨_, illegalBundle_legal fetch legal, rfl⟩,
      fun unready => ⟨_, illegalBundle_unready bits unready, rfl⟩, fun calm illegal => ?_⟩
    · obtain ⟨t, run, prog, addr, hi, core, frame, regs, cores⟩ := programLoad_loads (path := path) (v := v) opens free
      refine ⟨t, run, ?_, fun k other => ?_, addr, hi, core, frame, regs, cores⟩
      · rw [prog, Sparse.get_put_same]
      · rw [prog, Sparse.get_put_other _ _ other]
    · obtain ⟨t, run, pending, counted, only, regs, moved⟩ :=
        illegalBundlesPerformNothing (.dot2 n .always 0 1 0 Bundle.nop) n _ _ _ s rfl calm (oddDot2_illegal _ _)
      have same := exec_of_voiceBundle (i := .dot2 n .always 0 1 0 Bundle.nop) rfl s
      rw [State.issue_illegal calm _ _ (oddDot2_illegal _ _)] at same
      refine ⟨t, (illegalBundle_blank calm illegal).trans (same.symm.trans run), pending, counted, only, fun a ha => ?_, moved⟩
      exact regs a (fun e => ha (List.mem_singleton.2 e))

end Sys2Proof.Machine
end

section
/-! PROOFS. Cores that leave service: what a departure leaves alone in the other cores, in the Concourse and in the registers beside the
Scheduler's and the Service Port's, and how the departed core's task is bound again. -/

namespace Sys2Proof.Machine

/-! ### What the Scheduler's operations leave alone -/

/-- A change of a core that its program does not see, and that leaves its service state and its task. -/
structure Core.Unseen (c d : Core) : Prop where
  svc : d.svc = c.svc
  task : d.task = c.task
  pc : d.pc = c.pc
  regs : d.regs = c.regs
  gen : d.gen = c.gen

namespace Core.Unseen

variable {c d e : Core}

theorem refl (c : Core) : c.Unseen c := ⟨rfl, rfl, rfl, rfl, rfl⟩

theorem trans (h : c.Unseen d) (g : d.Unseen e) : c.Unseen e :=
  ⟨g.svc.trans h.svc, g.task.trans h.task, g.pc.trans h.pc, g.regs.trans h.regs, g.gen.trans h.gen⟩

theorem rd (h : c.Unseen d) (k : Nat) : d.rd k = c.rd k := by rw [Core.rd, h.regs, h.gen, Core.rd]

theorem setBack (c : Core) (b : TaskBuf) : c.Unseen (c.setBack b) := by
  unfold Core.setBack
  split <;> exact ⟨rfl, rfl, rfl, rfl, rfl⟩

theorem setFront (c : Core) (b : TaskBuf) : c.Unseen (c.setFront b) := by
  unfold Core.setFront
  split <;> exact ⟨rfl, rfl, rfl, rfl, rfl⟩

theorem withEvent (c : Core) (code : Nat) : c.Unseen (c.withEvent code) := by
  rw [Core.withEvent_eq]
  exact ⟨rfl, rfl, rfl, rfl, rfl⟩

end Core.Unseen

/-- A register that neither the Scheduler nor the Service Port writes when a core leaves or enters service. -/
def Beside (a : Nat) : Prop := a / 0x1000 ≠ Page.sch ∧ a / 0x1000 ≠ Page.svc ∧ a ∉ [Reg.MSIX_PBA 0, Reg.MSIX_PBA 1]

/-- From `s` to `t` no program sees a change of its core, and the Concourse and the registers beside the Scheduler's and the Service Port's
stay as they are. -/
structure Handed (s t : State) : Prop where
  con : t.con = s.con
  core : ∀ m, (s.core m).Unseen (t.core m)
  reg : ∀ a, Beside a → t.reg a = s.reg a

namespace Handed

variable {s t u : State}

theorem refl (s : State) : Handed s s := ⟨rfl, fun _ => .refl _, fun _ _ => rfl⟩

theorem trans (h : Handed s t) (g : Handed t u) : Handed s u :=
  ⟨g.con.trans h.con, fun m => (h.core m).trans (g.core m), fun a ha => (g.reg a ha).trans (h.reg a ha)⟩

theorem foldl {α : Type} {f : State → α → State} {l : List α} (hf : ∀ u, ∀ x ∈ l, Handed u (f u x)) (s : State) :
    Handed s (l.foldl f s) := by
  induction l generalizing s with
  | nil => exact refl s
  | cons x l ih =>
    exact (hf s x List.mem_cons_self).trans (ih (fun u y hy => hf u y (List.mem_cons_of_mem _ hy)) _)

theorem ite {c : Prop} [Decidable c] (yes : Handed s t) (no : Handed s u) : Handed s (if c then t else u) := by
  split
  · exact yes
  · exact no

/-- A step that touches no core. -/
theorem of_cores (con : t.con = s.con) (cores : t.cores = s.cores) (reg : ∀ a, Beside a → t.reg a = s.reg a) : Handed s t := by
  refine ⟨con, fun m => ?_, reg⟩
  rw [State.core, State.core, cores]
  exact .refl _

theorem of_reports {l : List Nat} (h : OnlyReports s t l) (own : ∀ a ∈ l, ¬ Beside a) : Handed s t :=
  of_cores (by rw [h.1]) (by rw [h.1]) fun a ha => h.reg fun hl => own a hl ha

theorem setCore (s : State) (n : Nat) {c : Core} (unseen : (s.core n).Unseen c) : Handed s (s.setCore n c) := by
  refine ⟨rfl, fun m => ?_, fun _ _ => rfl⟩
  by_cases own : m = n
  · rw [own, State.core_setCore_same]
    exact unseen
  · rw [State.core_setCore_other s c own]
    exact .refl _

theorem updCore (s : State) (n : Nat) {f : Core → Core} (unseen : ∀ c : Core, c.Unseen (f c)) : Handed s (s.updCore n f) :=
  setCore s n (unseen _)

theorem setReg (s : State) {a : Nat} (own : ¬ Beside a) (v : Word) : Handed s (s.setReg a v) :=
  of_reports (onlyReports_setReg s a v) fun b hb => by rwa [List.mem_singleton.1 hb]

theorem setBit (s : State) {a : Nat} (own : ¬ Beside a) (i : Nat) (v : Bool) : Handed s (s.setBit a i v) :=
  of_reports (onlyReports_setBit s a i v) fun b hb => by rwa [List.mem_singleton.1 hb]

theorem bump (s : State) {a : Nat} (own : ¬ Beside a) : Handed s (s.bump a) := setReg s own _

theorem count (s : State) (i k : Nat) : Handed s (s.count i k) := of_reports (onlyReports_count s i k) nofun

theorem raise (s : State) {p : Nat} (own : p = Page.sch ∨ p = Page.svc) (b : Nat) : Handed s (s.raise p b) := by
  refine of_reports (onlyReports_raise s p b) fun a ha => ?_
  rcases List.mem_cons.1 ha with rfl | pba
  · rcases own with rfl | rfl
    · exact fun h => h.1 (by decide)
    · exact fun h => h.2.1 (by decide)
  · exact fun h => h.2.2 pba

theorem of_tasks (h : OnlyTasks s t) (core : ∀ m, (s.core m).Unseen (t.core m)) : Handed s t := ⟨h.con, core, fun a _ => h.reg a⟩

end Handed

theorem not_beside_sch {a : Nat} (h : a / 0x1000 = Page.sch) : ¬ Beside a := fun g => g.1 h

theorem not_beside_svc {a : Nat} (h : a / 0x1000 = Page.svc) : ¬ Beside a := fun g => g.2.1 h

theorem schCoreBusy_page : ∀ n : Fin 34, Reg.SCH_CORE_BUSY n / 0x1000 = Page.sch := by decide

theorem schPset_page : ∀ n : Fin 34, (Reg.SCH_PSET0 + 4 * (n.val / 8)) / 0x1000 = Page.sch := by decide

/-! ### The operations -/

theorem State.judgeCore_handed (s : State) (n : Nat) : Handed s (s.judgeCore n) := by
  unfold State.judgeCore
  dsimp only
  refine .ite ?_ (.refl s)
  have judged := State.judge_pmuOnly s n (s.core n).tally false
  have judged' : Handed s (s.judge n (s.core n).tally false) :=
    .of_cores judged.con (by rw [judged]) fun a _ => judged.reg a
  exact judged'.trans (.updCore _ _ fun _ => ⟨rfl, rfl, rfl, rfl, rfl⟩)

theorem State.showCores_handed (s : State) : Handed s s.showCores := by
  refine (Handed.setReg s (not_beside_sch (by decide)) _).trans (.foldl (fun u n hn => ?_) _)
  exact Handed.setReg u (not_beside_sch (schCoreBusy_page ⟨n, List.mem_range.1 hn⟩)) _

theorem State.unstage_handed (s : State) (id : Nat) : Handed s (s.unstage id) := by
  refine .foldl (fun u n _ => ?_) s
  dsimp only
  refine .ite (.setCore u n ?_) (.refl u)
  exact (Core.Unseen.setBack (u.core n) _).trans ⟨rfl, rfl, rfl, rfl, rfl⟩

theorem State.updTask_handed (s : State) (id : Nat) (f : Task → Task) : Handed s (s.updTask id f) := .of_cores rfl rfl fun _ _ => rfl

theorem State.pushTask_handed (s : State) (t : Task) : Handed s (s.pushTask t) := .of_cores rfl rfl fun _ _ => rfl

theorem State.withdrawStaged_handed (s : State) (id : Nat) : Handed s (s.withdrawStaged id) :=
  (s.unstage_handed id).trans (State.updTask_handed _ id _)

theorem State.bumpEpoch_handed (s : State) (x : Nat) : Handed s (s.bumpEpoch x) := by
  unfold State.bumpEpoch
  exact .ite (.of_cores rfl rfl fun _ _ => rfl) (.of_cores rfl rfl fun _ _ => rfl)

theorem State.setPlaced_handed (s : State) (x n : Nat) : Handed s (s.setPlaced x n) := by
  unfold State.setPlaced
  exact .ite (.of_cores rfl rfl fun _ _ => rfl) (.of_cores rfl rfl fun _ _ => rfl)

theorem State.shuntEvent_handed (s : State) (n : Nat) : Handed s (s.shuntEvent n) := by
  unfold State.shuntEvent
  exact .ite (.updCore s n fun c => .withEvent c 7) (.refl s)

theorem State.shunt_handed (s : State) (x b : Nat) : Handed s (s.shunt x b) := by
  unfold State.shunt
  have start : Handed s ((((s.bumpEpoch x).setPlaced x b).bump Reg.SCH_SHUNT_CNT).count 447 1) :=
    (((s.bumpEpoch_handed x).trans (State.setPlaced_handed _ x b)).trans (.bump _ (not_beside_sch (by decide)))).trans (.count _ _ _)
  dsimp only
  refine (start.trans ?_).trans (.foldl (fun u t _ => ?_) _)
  · exact .of_cores rfl rfl fun _ _ => rfl
  · cases t.phase with
    | dispatched n => exact ((u.shuntEvent_handed n).trans (State.updTask_handed _ _ _)).trans (State.pushTask_handed _ _)
    | yielded _ _ _ => exact (u.updTask_handed _ _).trans (State.pushTask_handed _ _)
    | aborted _ => exact .refl u
    | _ => exact (u.unstage_handed _).trans (State.updTask_handed _ _ _)

theorem State.shuntAll_handed (s : State) (n b : Nat) : Handed s (s.shuntAll n b) := by
  refine .foldl (fun u x _ => ?_) s
  exact .ite (u.setPlaced_handed x b) (u.shunt_handed x b)

theorem State.placeElsewhere_handed (s : State) (n : Nat) : Handed s (s.placeElsewhere n) := by
  unfold State.placeElsewhere
  split
  · exact s.shuntAll_handed n _
  · exact .refl s

theorem State.loseTask_handed (s : State) (n id : Nat) : Handed s (s.loseTask n id) := by
  unfold State.loseTask
  split
  · exact .refl s
  · dsimp only
    refine .ite (s.updTask_handed id _) ?_
    have lost : ∀ x f, Handed s ((((s.bumpEpoch x).updTask id f).bump Reg.SCH_RERENDER_CNT).count 449 1) := fun x f =>
      (((s.bumpEpoch_handed x).trans (State.updTask_handed _ id f)).trans (.bump _ (not_beside_sch (by decide)))).trans (.count _ _ _)
    exact (lost _ _).trans (State.pushTask_handed _ _)

theorem State.applyHold_handed (s : State) (fell : Bool) : Handed s (s.applyHold fell) := by
  unfold State.applyHold
  extract_lets cyc lmax n fits applied h was src s1
  have kept : Handed s s1 :=
    ((Handed.of_cores rfl rfl fun _ _ => rfl : Handed s { s with sch := { src with expApplied := applied, lmaxApplied := lmax } }).trans
      (.setReg _ (not_beside_sch (by decide : Reg.SCH_HOLD / 0x1000 = Page.sch)) _)).trans
      (.setBit _ (not_beside_sch (by decide : Reg.SCH_STAT / 0x1000 = Page.sch)) 1 _)
  exact .ite (kept.trans (.raise _ (.inl rfl) 1)) kept

theorem State.showSpares_handed (s : State) (before : Nat) : Handed s (s.showSpares before) := by
  unfold State.showSpares
  dsimp only
  refine .ite ?_ (.setReg s (not_beside_svc (by decide)) _)
  exact (Handed.setReg s (not_beside_svc (by decide)) _).trans (.raise _ (.inr rfl) 2)

/-! ### A task that is bound again -/

/-- Task `k` stands for block `b` of index `x`, bound again as the task of order `o`; still bound when that order was `fresh`. -/
structure Rebound (o x b : Nat) (fresh : Prop) (k : Task) : Prop where
  order : k.order = o
  rerender : k.rerender = true
  index : k.index = x
  bseq : k.bseq = b
  phase : fresh → k.phase = .bound

/-- A task that is bound again stays so from `s` to `t`. -/
def KeepsRebound (s t : State) : Prop :=
  ∀ o x b fresh, (∃ k ∈ s.sch.tasks, Rebound o x b fresh k) → ∃ k ∈ t.sch.tasks, Rebound o x b fresh k

namespace KeepsRebound

variable {s t u : State}

theorem of_tasks (h : t.sch.tasks = s.sch.tasks) : KeepsRebound s t := fun _ _ _ _ ⟨k, hk, r⟩ => ⟨k, h ▸ hk, r⟩

theorem refl (s : State) : KeepsRebound s s := of_tasks rfl

theorem trans (h : KeepsRebound s t) (g : KeepsRebound t u) : KeepsRebound s u := fun o x b f e => g o x b f (h o x b f e)

theorem foldl {α : Type} {f : State → α → State} (hf : ∀ u x, KeepsRebound u (f u x)) (l : List α) (s : State) :
    KeepsRebound s (l.foldl f s) := by
  induction l generalizing s with
  | nil => exact refl s
  | cons x l ih => exact (hf s x).trans (ih _)

theorem ite {c : Prop} [Decidable c] (yes : KeepsRebound s t) (no : KeepsRebound s u) : KeepsRebound s (if c then t else u) := by
  split
  · exact yes
  · exact no

theorem pushTask (s : State) (t : Task) : KeepsRebound s (s.pushTask t) :=
  fun _ _ _ _ ⟨k, hk, r⟩ => ⟨k, List.mem_append_left _ hk, r⟩

/-- A change of tasks that leaves what makes a task bound again. -/
theorem updTask (s : State) (id : Nat) {f : Task → Task}
    (hf : ∀ o x b fresh k, Rebound o x b fresh k → Rebound o x b fresh (f k)) : KeepsRebound s (s.updTask id f) := by
  rintro o x b fresh ⟨k, hk, r⟩
  refine ⟨_, List.mem_map_of_mem hk, ?_⟩
  split
  · exact hf o x b fresh k r
  · exact r

end KeepsRebound

theorem Task.index_of {k j : Task} (kind : k.kind = j.kind) (slot : k.slot = j.slot) : k.index = j.index := by
  rw [Task.index, kind, slot, Task.index]

theorem State.tasks_unstage (s : State) (id : Nat) : (s.unstage id).sch.tasks = s.sch.tasks := by
  unfold State.unstage
  generalize List.range 34 = l
  induction l generalizing s with
  | nil => rfl
  | cons n l ih =>
    rw [List.foldl_cons, ih]
    dsimp only
    split <;> rfl

theorem State.tasks_bumpEpoch (s : State) (x : Nat) : (s.bumpEpoch x).sch.tasks = s.sch.tasks := by
  unfold State.bumpEpoch
  split <;> rfl

theorem State.tasks_setPlaced (s : State) (x n : Nat) : (s.setPlaced x n).sch.tasks = s.sch.tasks := by
  unfold State.setPlaced
  split <;> rfl

theorem State.shuntEvent_rebound (s : State) (n : Nat) : KeepsRebound s (s.shuntEvent n) := by
  unfold State.shuntEvent
  exact .ite (.of_tasks rfl) (.refl s)

theorem State.shunt_rebound (s : State) (x b : Nat) : KeepsRebound s (s.shunt x b) := by
  unfold State.shunt
  have start : KeepsRebound s ((((s.bumpEpoch x).setPlaced x b).bump Reg.SCH_SHUNT_CNT).count 447 1) :=
    .of_tasks ((State.tasks_setPlaced _ x b).trans (s.tasks_bumpEpoch x))
  dsimp only
  refine (start.trans ?_).trans (.foldl (fun u t => ?_) _ _)
  · exact .of_tasks rfl
  · have withdrawn : ∀ v : State, KeepsRebound v (v.updTask t.order (fun k => { k with withdrawn := true })) := fun v =>
      .updTask v _ fun _ _ _ _ _ r => ⟨r.order, r.rerender, r.index, r.bseq, r.phase⟩
    cases t.phase with
    | dispatched n => exact ((u.shuntEvent_rebound n).trans (withdrawn _)).trans (.pushTask _ _)
    | yielded _ _ _ => exact (withdrawn u).trans (.pushTask _ _)
    | aborted _ => exact .refl u
    | _ =>
      exact (KeepsRebound.of_tasks (u.tasks_unstage _)).trans (.updTask _ _ fun _ _ _ _ _ r => ⟨r.order, r.rerender, r.index, r.bseq, fun _ => rfl⟩)

theorem State.shuntAll_rebound (s : State) (n b : Nat) : KeepsRebound s (s.shuntAll n b) := by
  refine .foldl (fun u x => ?_) _ s
  exact .ite (.of_tasks (u.tasks_setPlaced x b)) (u.shunt_rebound x b)

theorem State.placeElsewhere_rebound (s : State) (n : Nat) : KeepsRebound s (s.placeElsewhere n) := by
  unfold State.placeElsewhere
  split
  · exact s.shuntAll_rebound n _
  · exact .refl s

theorem State.applyHold_tasks (s : State) (fell : Bool) : (s.applyHold fell).sch.tasks = s.sch.tasks := by
  unfold State.applyHold
  extract_lets cyc lmax n fits applied h was src s1
  have kept : s1.sch.tasks = s.sch.tasks := rfl
  clear_value s1
  split
  · rw [(onlyReports_raise s1 Page.sch 1).1]
    exact kept
  · exact kept

theorem State.showSpares_tasks (s : State) (before : Nat) : (s.showSpares before).sch.tasks = s.sch.tasks := by
  rw [(onlyReports_showSpares s before).1]

/-- Another task's loss leaves a task that was bound again, unless it is one of those that had its order before. -/
theorem State.loseTask_rebound {s : State} (n id : Nat) {o x b : Nat} {fresh : Prop} (apart : fresh → id ≠ o)
    (h : ∃ k ∈ s.sch.tasks, Rebound o x b fresh k) : ∃ k ∈ (s.loseTask n id).sch.tasks, Rebound o x b fresh k := by
  have dropped : ∀ (u : State) (f : Task → Task), (∀ k, (f k).order = k.order ∧ (f k).rerender = k.rerender ∧ (f k).kind = k.kind ∧
      (f k).slot = k.slot ∧ (f k).bseq = k.bseq) → (∃ k ∈ u.sch.tasks, Rebound o x b fresh k) →
      ∃ k ∈ (u.updTask id f).sch.tasks, Rebound o x b fresh k := by
    rintro u f same ⟨k, hk, r⟩
    obtain ⟨order, rerender, kind, slot, bseq⟩ := same k
    refine ⟨_, List.mem_map_of_mem hk, ?_⟩
    split
    · next own =>
      exact ⟨order.trans r.order, rerender.trans r.rerender, (Task.index_of kind slot).trans r.index, bseq.trans r.bseq,
        fun hf => absurd ((of_decide_eq_true own).symm.trans r.order) (apart hf)⟩
    · exact r
  unfold State.loseTask
  split
  · exact h
  · next t _ =>
    extract_lets aborted x' s1 s2
    split
    · exact dropped s _ (fun _ => ⟨rfl, rfl, rfl, rfl, rfl⟩) h
    · refine KeepsRebound.pushTask _ _ o x b fresh ?_
      refine dropped (s.bumpEpoch x') _ (fun _ => ⟨rfl, rfl, rfl, rfl, rfl⟩) ?_
      rw [State.tasks_bumpEpoch]
      exact h

theorem State.pushTask_rebinds {u : State} {t : Task} {o : Nat} (order : u.sch.order = o) (rerender : t.rerender = true)
    (bound : t.phase = .bound) {fresh : Prop} : ∃ k ∈ (u.pushTask t).sch.tasks, Rebound o t.index t.bseq fresh k :=
  ⟨_, List.mem_append_right _ (List.mem_singleton_self _), order, rerender, rfl, rfl, fun _ => bound⟩

/-- The loss of a task that runs binds it again. -/
theorem State.loseTask_rebinds {s : State} {n id : Nat} {k : Task} (found : s.taskOf id = some k) (kept : k.withdrawn = false)
    (phase : k.phase = .dispatched n ∨ k.phase = .bound) {fresh : Prop} :
    ∃ k' ∈ (s.loseTask n id).sch.tasks, Rebound s.sch.order k.index k.bseq fresh k' := by
  have runs : ∀ aborted : Bool, aborted = false → ¬ (k.withdrawn = true ∨ aborted = true) := by
    rintro _ rfl
    simp [kept]
  have order : ∀ x f, (((((s.bumpEpoch x).updTask id f).bump Reg.SCH_RERENDER_CNT).count 449 1)).sch.order = s.sch.order := by
    intro x f
    unfold State.bumpEpoch
    split <;> rfl
  unfold State.loseTask
  rw [found]
  dsimp only
  rw [if_neg (runs _ (by rcases phase with h | h <;> rw [h]))]
  exact State.pushTask_rebinds (order _ _) rfl rfl

end Sys2Proof.Machine
end

section
/-! PROOFS. Cores that leave service and spares that enter it; the statement CoresLeaveAndEnter. -/

namespace Sys2Proof.Machine

/-! ### What a withdrawal from the Sidings leaves of the tasks -/

/-- From `s` to `t` the list of tasks is the same but for phases that became bound. -/
structure SameTasks (s t : State) : Prop where
  order : t.sch.order = s.sch.order
  orders : t.sch.tasks.map Task.order = s.sch.tasks.map Task.order
  found : ∀ id k, s.taskOf id = some k → ∃ p, (p = k.phase ∨ p = .bound) ∧ t.taskOf id = some { k with phase := p }

namespace SameTasks

variable {s t u : State}

theorem of_tasks (order : t.sch.order = s.sch.order) (tasks : t.sch.tasks = s.sch.tasks) : SameTasks s t :=
  ⟨order, by rw [tasks], fun id k found => ⟨k.phase, .inl rfl, (State.taskOf_congr tasks id).trans found⟩⟩

theorem trans (h : SameTasks s t) (g : SameTasks t u) : SameTasks s u := by
  refine ⟨g.order.trans h.order, g.orders.trans h.orders, fun id k found => ?_⟩
  obtain ⟨p, hp, foundT⟩ := h.found id k found
  obtain ⟨q, hq, foundU⟩ := g.found id _ foundT
  refine ⟨q, ?_, foundU⟩
  rcases hq with rfl | hq
  · exact hp
  · exact .inr hq

theorem foldl {α : Type} {f : State → α → State} (hf : ∀ u x, SameTasks u (f u x)) (l : List α) (s : State) :
    SameTasks s (l.foldl f s) := by
  induction l generalizing s with
  | nil => exact of_tasks rfl rfl
  | cons x l ih => exact (hf s x).trans (ih _)

end SameTasks

theorem State.order_unstage (s : State) (id : Nat) : (s.unstage id).sch.order = s.sch.order := by
  unfold State.unstage
  generalize List.range 34 = l
  induction l generalizing s with
  | nil => rfl
  | cons n l ih =>
    rw [List.foldl_cons, ih]
    dsimp only
    split <;> rfl

theorem State.taskOf_updTask_eq (u : State) (id i : Nat) {f : Task → Task} (order : ∀ t, (f t).order = t.order) :
    (u.updTask id f).taskOf i = (u.taskOf i).map (fun k => if decide (k.order = id) then f k else k) := by
  have number : (fun t : Task => decide (t.order = i)) ∘ (fun t => if decide (t.order = id) then f t else t) = fun t => decide (t.order = i) := by
    funext t
    rw [Function.comp_apply]
    split
    · rw [order]
    · rfl
  show (u.sch.tasks.map (fun t => if decide (t.order = id) then f t else t)).find? (fun t => decide (t.order = i)) = _
  rw [List.find?_map, number]
  rfl

theorem State.boundAgain_sameTasks (u : State) (id : Nat) : SameTasks u (u.updTask id (fun t => { t with phase := .bound })) := by
  refine ⟨rfl, ?_, fun i k found => ⟨if k.order = id then .bound else k.phase, ?_, ?_⟩⟩
  · show (List.map _ _).map _ = _
    rw [List.map_map]
    refine List.map_congr_left fun k _ => ?_
    rw [Function.comp_apply]
    split <;> rfl
  · split
    · exact .inr rfl
    · exact .inl rfl
  · rw [u.taskOf_updTask_eq id i (f := fun t => { t with phase := .bound }) fun _ => rfl, found, Option.map_some]
    by_cases own : k.order = id
    · rw [decide_eq_true own, if_pos rfl, if_pos own]
    · rw [decide_eq_false own, if_neg Bool.false_ne_true, if_neg own]

theorem State.withdrawStaged_sameTasks (s : State) (id : Nat) : SameTasks s (s.withdrawStaged id) :=
  (SameTasks.of_tasks (s.order_unstage id) (s.tasks_unstage id)).trans ((s.unstage id).boundAgain_sameTasks id)

/-! ### A core that leaves service -/

/-- From `s` to `t` core `n` leaves service: it has no task, no program of another core sees it, and the Concourse and the registers beside the
Scheduler's, the Service Port's and those of its own reports stay as they are. -/
structure Departed (s t : State) (n : Nat) : Prop where
  con : t.con = s.con
  svc : (t.core n).svc = 0
  task : (t.core n).task = none
  core : ∀ m, m ≠ n → (s.core m).Unseen (t.core m)
  reg : ∀ a, Beside a → a ∉ raiseRegs (Page.vc0 + n) → t.reg a = s.reg a

namespace Departed

variable {s t u : State} {n : Nat}

theorem hand (h : Departed s t n) (g : Handed t u) : Departed s u n where
  con := g.con.trans h.con
  svc := (g.core n).svc.trans h.svc
  task := (g.core n).task.trans h.task
  core m hm := (h.core m hm).trans (g.core m)
  reg a ha own := (g.reg a ha).trans (h.reg a ha own)

theorem raise (h : Departed s t n) (b : Nat) : Departed s (t.raise (Page.vc0 + n) b) n := by
  have raised := onlyReports_raise t (Page.vc0 + n) b
  refine ⟨?_, ?_, ?_, fun m hm => ?_, fun a ha own => ?_⟩
  · rw [raised.1]
    exact h.con
  · rw [raised.core]
    exact h.svc
  · rw [raised.core]
    exact h.task
  · rw [raised.core]
    exact h.core m hm
  · rw [raised.reg own]
    exact h.reg a ha own

end Departed

theorem State.loseTasks_rebound (n : Nat) {o x b : Nat} {fresh : Prop} (l : List Nat) (apart : ∀ i ∈ l, fresh → i ≠ o) {s : State}
    (h : ∃ k ∈ s.sch.tasks, Rebound o x b fresh k) : ∃ k ∈ (l.foldl (fun u id => u.loseTask n id) s).sch.tasks, Rebound o x b fresh k := by
  induction l generalizing s with
  | nil => exact h
  | cons i l ih =>
    exact ih (fun j hj => apart j (List.mem_cons_of_mem _ hj)) (State.loseTask_rebound n i (apart i List.mem_cons_self) h)

/-- What is left of the departure once the core is out of service: nothing that another program sees, and no task that is lost again. -/
structure Aftermath (s t : State) : Prop where
  handed : Handed s t
  rebound : KeepsRebound s t

theorem Aftermath.trans {s t u : State} (h : Aftermath s t) (g : Aftermath t u) : Aftermath s u :=
  ⟨h.handed.trans g.handed, h.rebound.trans g.rebound⟩

theorem State.placeElsewhere_aftermath (s : State) (n : Nat) : Aftermath s (s.placeElsewhere n) :=
  ⟨s.placeElsewhere_handed n, s.placeElsewhere_rebound n⟩

theorem State.setPset_handed (s : State) {k : Nat} (hk : k < 34) (v : Nat) : Handed s (s.setPset k v) :=
  .setReg s (not_beside_sch (schPset_page ⟨k, hk⟩)) _

theorem State.mem_spares {s : State} {k : Nat} (h : k ∈ s.spares) : k < 34 := List.mem_range.1 (List.mem_filter.1 h).1

theorem foldl_keeps {α β γ : Type} {f : β → α → β} {g : β → γ} (hf : ∀ u x, g (f u x) = g u) (l : List α) (s : β) : g (l.foldl f s) = g s := by
  induction l generalizing s with
  | nil => rfl
  | cons x l ih => rw [List.foldl_cons, ih, hf]

theorem State.sch_showCores (s : State) : s.showCores.sch = s.sch := by
  have shows : ∀ (u : State) (n : Nat), (u.setBit (Reg.SCH_CORE_BUSY n) 31 (decide ((u.core n).svc = 2))).sch = u.sch :=
    fun _ _ => State.setBit_sch ..
  unfold State.showCores
  dsimp only
  rw [foldl_keeps (g := State.sch) shows, State.setFld_sch]

theorem State.sch_judgeCore (s : State) (n : Nat) : (s.judgeCore n).sch = s.sch := by
  unfold State.judgeCore
  dsimp only
  split
  · have judged := State.judge_pmuOnly s n (s.core n).tally false
    have kept : (s.judge n (s.core n).tally false).sch = s.sch := by rw [judged]
    exact kept
  · rfl

/-- Taking a core out of service. -/
theorem Departed.updCore {s t : State} {n : Nat} (h : Handed s t) {f : Core → Core} (svc : ∀ c, (f c).svc = 0) (task : ∀ c, (f c).task = none) :
    Departed s (t.updCore n f) n where
  con := h.con
  svc := by rw [State.core_updCore_same, svc]
  task := by rw [State.core_updCore_same, task]
  core m hm := by
    rw [State.core_updCore_other t f hm]
    exact h.core m
  reg a ha _ := h.reg a ha

/-- The orders of tasks that a departing core loses. -/
theorem SameTasks.mem_order {s t : State} (h : SameTasks s t) {k : Task} (hk : k ∈ t.sch.tasks) : ∃ j ∈ s.sch.tasks, j.order = k.order := by
  have mem : k.order ∈ s.sch.tasks.map Task.order := by
    rw [← h.orders]
    exact List.mem_map_of_mem hk
  obtain ⟨j, hj, same⟩ := List.mem_map.1 mem
  exact ⟨j, hj, same⟩

theorem besideIrq (n : Fin 34) : Beside (Reg.PAGE_IRQ_STAT (Page.vc0 + n)) := by
  have : ∀ n : Fin 34, Reg.PAGE_IRQ_STAT (Page.vc0 + n) / 0x1000 ≠ Page.sch ∧ Reg.PAGE_IRQ_STAT (Page.vc0 + n) / 0x1000 ≠ Page.svc ∧
      Reg.PAGE_IRQ_STAT (Page.vc0 + n) ∉ [Reg.MSIX_PBA 0, Reg.MSIX_PBA 1] := by decide
  exact this n

/-- Core `n` leaves service. -/
theorem State.coreLeaves_departs (s : State) (n : Fin 34) (fault : Bool) {t : State} (left : t = s.coreLeaves n fault) :
    Departed s t n ∧ t.bit (Reg.PAGE_IRQ_STAT (Page.vc0 + n)) 2 = true ∧
      (fault = true → t.bit (Reg.PAGE_IRQ_STAT (Page.vc0 + n)) 0 = true) ∧
      ∀ id, (s.core n).task = some id → ∀ k, s.taskOf id = some k → k.withdrawn = false → k.phase = .dispatched n →
        ∃ k' ∈ t.sch.tasks, Rebound s.sch.order k.index k.bseq (∀ j ∈ s.sch.tasks, j.order ≠ s.sch.order) k' := by
  unfold State.coreLeaves at left
  extract_lets c s0 s1 held s2 s3 running lost s4 s5 s6 sch6 s7 a1 sch1 alone before at left
  -- out of service
  have depart : Departed s s1 n :=
    (Departed.updCore (s.judgeCore_handed n) (fun _ => rfl) fun _ => rfl).hand (State.showCores_handed _)
  have same1 : SameTasks s s1 := by
    have sch : s1.sch = s.sch := (State.sch_showCores _).trans (s.sch_judgeCore n)
    exact .of_tasks (by rw [sch]) (by rw [sch])
  clear_value s1
  have same2 : SameTasks s s2 := same1.trans (.foldl (fun u id => u.withdrawStaged_sameTasks id) _ _)
  have depart2 : Departed s s2 n := depart.hand (.foldl (fun u id _ => u.withdrawStaged_handed id) _)
  clear_value s2
  have same3 : SameTasks s s3 := same2.trans (.of_tasks rfl rfl)
  have depart3 : Departed s s3 n := depart2.hand (.updCore _ _ fun d => .setFront d _)
  clear_value s3
  -- its reports
  have reports : Departed s s5 n ∧ s5.sch = s3.sch ∧ s5.bit (Reg.PAGE_IRQ_STAT (Page.vc0 + n)) 2 = true ∧
      (fault = true → s5.bit (Reg.PAGE_IRQ_STAT (Page.vc0 + n)) 0 = true) := by
    have first : Departed s s4 n ∧ s4.sch = s3.sch ∧ (fault = true → s4.bit (Reg.PAGE_IRQ_STAT (Page.vc0 + n)) 0 = true) := by
      cases fault with
      | false => exact ⟨depart3, rfl, nofun⟩
      | true =>
        have raised := onlyReports_raise s3 (Page.vc0 + n) 0
        exact ⟨depart3.raise 0, by rw [show s4 = s3.raise (Page.vc0 + n) 0 from rfl, raised.1], fun _ => State.bit_raise_same _ _ (by decide)⟩
    obtain ⟨depart4, sch4, failed⟩ := first
    clear_value s4
    have raised := onlyReports_raise s4 (Page.vc0 + n) 2
    refine ⟨depart4.raise 2, Eq.trans (by rw [show s5 = s4.raise (Page.vc0 + n) 2 from rfl, raised.1]) sch4,
      State.bit_raise_same _ _ (by decide), fun hf => ?_⟩
    rw [show s5 = s4.raise (Page.vc0 + n) 2 from rfl, State.bit_raise s4 (Page.vc0 + n) (by decide), if_neg (by decide)]
    exact failed hf
  obtain ⟨depart5, sch5, gone, failed⟩ := reports
  clear_value s5
  -- its tasks
  have lose : Handed s5 s6 := .foldl (fun u id _ => u.loseTask_handed n id) _
  have rebound : ∀ id, (s.core n).task = some id → ∀ k, s.taskOf id = some k → k.withdrawn = false → k.phase = .dispatched n →
      ∃ k' ∈ s6.sch.tasks, Rebound s.sch.order k.index k.bseq (∀ j ∈ s.sch.tasks, j.order ≠ s.sch.order) k' := by
    intro id task k found kept phase
    obtain ⟨p, hp, found3⟩ := same3.found id k found
    have found5 : s5.taskOf id = some { k with phase := p } := (State.taskOf_congr (by rw [sch5]) id).trans found3
    have order5 : s5.sch.order = s.sch.order := by rw [sch5, same3.order]
    have first := State.loseTask_rebinds (n := n) found5 kept (hp.imp (fun h => h.trans phase) fun h => h)
      (fresh := ∀ j ∈ s.sch.tasks, j.order ≠ s.sch.order)
    rw [order5] at first
    have runs : running = [id] := by
      show (match (s.core n).task with
        | some id => [id]
        | none => []) = [id]
      rw [task]
    obtain ⟨rest, all, yields⟩ : ∃ rest, lost = id :: rest ∧ ∀ i ∈ rest, ∃ j ∈ s3.sch.tasks, j.order = i := by
      refine ⟨_, (congrArg (· ++ _) runs :), fun i hi => ?_⟩
      obtain ⟨j, hj, e⟩ := List.mem_map.1 hi
      exact ⟨j, (List.mem_filter.1 hj).1, e⟩
    show ∃ k' ∈ (lost.foldl (fun u id => u.loseTask n id) s5).sch.tasks, _
    rw [all, List.foldl_cons]
    refine State.loseTasks_rebound n _ (fun i hi fresh => ?_) first
    obtain ⟨j, hj, rfl⟩ := yields i hi
    obtain ⟨j', hj', same⟩ := same3.mem_order hj
    rw [← same]
    exact fresh j' hj'
  clear_value s6
  have shuntOver : Aftermath s6 s7 := by
    show Aftermath s6 (match s6.sch.shuntTarget with
      | some (_, b) => if b = n.val then { s6 with sch := { s6.sch with shuntTarget := none } }.setBit Reg.SCH_SHUNT_STAT 31 false else s6
      | none => s6)
    split
    · split
      · refine ⟨Handed.trans (t := { s6 with sch := { s6.sch with shuntTarget := none } }) ?_ (.setBit _ (not_beside_sch (by decide)) 31 false), ?_⟩
        · exact .of_cores rfl rfl fun _ _ => rfl
        · exact .of_tasks (by rw [State.setBit_sch])
      · exact ⟨.refl _, .refl _⟩
    · exact ⟨.refl _, .refl _⟩
  clear_value s7
  have hold : Aftermath s7 a1 := ⟨s7.applyHold_handed true, .of_tasks (s7.applyHold_tasks true)⟩
  clear_value a1
  have alone_ : Aftermath a1 (alone.placeElsewhere n) :=
    Aftermath.trans (t := alone) ⟨.of_cores rfl rfl fun _ _ => rfl, .of_tasks rfl⟩ (alone.placeElsewhere_aftermath n)
  have ends : Aftermath a1 t := by
    rw [left]
    split
    · exact alone_
    · split
      · exact alone_
      · next k _ spares =>
        have hk : k < 34 := State.mem_spares (by rw [spares]; exact List.mem_cons_self)
        refine Aftermath.trans ⟨Handed.trans (Handed.trans (a1.setPset_handed hk _) (.updCore _ k ?_)) (State.showSpares_handed _ _), ?_⟩
          ⟨State.shuntAll_handed _ n k, State.shuntAll_rebound _ n k⟩
        · exact fun _ => ⟨rfl, rfl, rfl, rfl, rfl⟩
        · exact .of_tasks ((State.showSpares_tasks _ _).trans rfl)
  have after : Aftermath s6 t := (shuntOver.trans hold).trans ends
  have handed : Handed s5 t := lose.trans after.handed
  refine ⟨depart5.hand handed, ?_, fun hf => ?_, fun id task k found kept phase => after.rebound _ _ _ _ (rebound id task k found kept phase)⟩
  · rw [State.bit_of_reg (handed.reg _ (besideIrq n))]
    exact gone
  · rw [State.bit_of_reg (handed.reg _ (besideIrq n))]
    exact failed hf

end Sys2Proof.Machine
end

section
/-! PROOFS. Core faults, recalls and the entry of a spare; the statement CoresLeaveAndEnter. -/

namespace Sys2Proof.Machine

/-! ### A departure after reports -/

/-- What the statement says of a core that left service. -/
def LeftService (s t : State) (n : Fin 34) : Prop :=
  (t.core n).svc = 0 ∧ (t.core n).task = none ∧ t.bit (Reg.PAGE_IRQ_STAT (Page.vc0 + n)) 2 = true ∧
    (∀ m, m < 34 → m ≠ n.val → (t.core m).svc = (s.core m).svc ∧ (t.core m).pc = (s.core m).pc ∧
      ∀ k, k < 120 → (t.core m).rd k = (s.core m).rd k) ∧
    (∀ id, (s.core n).task = some id → ∀ k, s.taskOf id = some k → k.withdrawn = false → k.phase = .dispatched n →
      ∃ k' ∈ t.sch.tasks, k'.rerender = true ∧ k'.index = k.index ∧ k'.bseq = k.bseq ∧ s.sch.order ≤ k'.order ∧
        ((∀ j ∈ s.sch.tasks, j.order ≠ s.sch.order) → k'.phase = .bound)) ∧
    KeepsCon s t 0 0

/-- A departure from a state that differs from `s` in the departing core's own records alone. -/
theorem LeftService.of_departed {s u t : State} {n : Fin 34} {fault : Bool} (con : u.con = s.con) (sch : u.sch = s.sch)
    (task : (u.core n).task = (s.core n).task) (others : ∀ m, m ≠ n.val → u.core m = s.core m) (left : t = u.coreLeaves n fault) :
    LeftService s t n := by
  obtain ⟨departed, gone, -, rebound⟩ := u.coreLeaves_departs n fault left
  refine ⟨departed.svc, departed.task, gone, fun m _ hm => ?_, fun id running k found kept phase => ?_, fun x _ => ?_⟩
  · have unseen := departed.core m hm
    rw [others m hm] at unseen
    exact ⟨unseen.svc, unseen.pc, fun k _ => unseen.rd k⟩
  · obtain ⟨k', mem, r⟩ := rebound id (task.trans running) k ((State.taskOf_congr (by rw [sch]) id).trans found) kept phase
    have order : k'.order = s.sch.order := by rw [r.order, sch]
    refine ⟨k', mem, r.rerender, r.index, r.bseq, Nat.le_of_eq order.symm, fun fresh => r.phase ?_⟩
    rw [sch]
    exact fresh
  · rw [State.conByte_congr (departed.con.trans con)]

section
variable {s : State} {n : Fin 34}

/-- The registers of a core's reports that a departure leaves alone. -/
theorem departure_keeps : ∀ n : Fin 34, ∀ a ∈ [Reg.PAGE_ERR_CNT (Page.vc0 + n), Reg.ERR_LOG_CNT],
    (a / 0x1000 ≠ Page.sch ∧ a / 0x1000 ≠ Page.svc ∧ a ∉ [Reg.MSIX_PBA 0, Reg.MSIX_PBA 1]) ∧ a ∉ raiseRegs (Page.vc0 + n) := by decide

/-- A core fault after reports of the core's page. -/
theorem coreFault_fails {u : State} {l : List Nat} (reports : OnlyReports s u l) (svc : (s.core n).svc = 2) :
    LeftService s (u.coreFault n) n ∧ (u.coreFault n).bit (Reg.PAGE_IRQ_STAT (Page.vc0 + n)) 0 = true ∧
      ∀ a ∈ [Reg.PAGE_ERR_CNT (Page.vc0 + n), Reg.ERR_LOG_CNT], Counted s u a → Counted s (u.coreFault n) a := by
  have left : u.coreFault n = u.coreLeaves n true := if_pos (by rw [reports.core]; exact svc)
  obtain ⟨departed, -, failed, -⟩ := u.coreLeaves_departs n true left
  refine ⟨.of_departed (by rw [reports.1]) (by rw [reports.1]) (by rw [reports.core]) (fun m _ => reports.core m) left, failed rfl,
    fun a ha counted => ?_⟩
  obtain ⟨beside, own⟩ := departure_keeps n a ha
  exact counted.of_reg_eq_after (departed.reg a beside own)

theorem pageErr_counts {u : State} (logged : OnlyReports s u logRegs) : Counted s (u.pageErr (Page.vc0 + n)) (Reg.PAGE_ERR_CNT (Page.vc0 + n)) := by
  have apart : ∀ n : Fin 34, Reg.PAGE_ERR_CNT (Page.vc0 + n) ∉ logRegs := by decide
  exact (counted_bump u _).of_reg_eq (logged.reg (apart n))

theorem coreLogicCheckFail_fails (svc : (s.core n).svc = 2) : Completes (.coreLogicCheckFail n) s (fun t => (LeftService s t n ∧
    t.bit (Reg.PAGE_IRQ_STAT (Page.vc0 + n)) 0 = true) ∧ Counted s t (Reg.PAGE_ERR_CNT (Page.vc0 + n)) ∧ Counted s t Reg.ERR_LOG_CNT) := by
  let u := s.logError (256 * (Page.vc0 + n) + 2) 0 n false
  have logged : OnlyReports s u logRegs := onlyReports_logError ..
  have run : exec (.coreLogicCheckFail n) s = .next ((u.pageErr (Page.vc0 + n)).coreFault n) := by
    change execCoreLogicCheckFail n s = _
    rw [execCoreLogicCheckFail, if_neg (not_not.2 svc)]
    rfl
  obtain ⟨left, failed, keeps⟩ := coreFault_fails (logged.trans (onlyReports_pageErr u (Page.vc0 + n))) svc
  have counted : Counted s (u.pageErr (Page.vc0 + n)) Reg.ERR_LOG_CNT := by
    have apart : ∀ n : Fin 34, Reg.ERR_LOG_CNT ∉ [Reg.PAGE_ERR_CNT (Page.vc0 + n)] := by decide
    exact (counted_logError ..).of_reg_eq_after ((onlyReports_pageErr u _).reg (apart n))
  exact ⟨_, run, ⟨left, failed⟩, keeps _ List.mem_cons_self (pageErr_counts logged), keeps _ (List.mem_cons_of_mem _ List.mem_cons_self) counted⟩

theorem coreUeTimeout_waits {idle : Nat} (running : (s.core n).halted = false) (taking : (s.core n).taking = none) :
    ((s.core n).memUe = none → exec (.coreUeTimeout n idle) s = .next s) ∧
      ∀ k, (s.core n).memUe = some k → exec (.coreUeTimeout n idle) s = .next (if 1024 ≤ k then s.coreFault n else s) := by
  have still : s.idleCycles n idle = s := by
    unfold State.idleCycles
    rw [running, taking, if_neg (by simp)]
  have run : exec (.coreUeTimeout n idle) s = execCoreUeTimeout n idle s := rfl
  rw [run, execCoreUeTimeout, still]
  refine ⟨fun whole => by rw [whole], fun k ue => ?_⟩
  rw [ue]
  dsimp only
  split <;> rfl

theorem abortTimeout_waits (idle : ¬ ((s.core n).svc = 2 ∧ (s.core n).task.isSome = true ∧
    ((s.core n).aborted.isSome = true ∨ (s.core n).recalled.isSome = true))) : exec (.abortTimeout n) s = .next s := by
  change execAbortTimeout n s = _
  rw [execAbortTimeout, if_pos]
  by_contra h
  simp only [not_or, not_and_or, not_not, Option.isNone_iff_eq_none, ← Option.isSome_iff_ne_none, ne_eq] at h
  exact idle h

/-- What is there is found, whether an injection is armed or not. -/
theorem State.detect_real (s : State) (p det sub info : Nat) :
    s.detect p det sub info true = { st := s.logError (256 * p + det) sub info false, hit := true, inj := false } := by
  unfold State.detect State.check
  rfl

/-- An abort or a recall whose task goes on. -/
theorem abortTimeout_runs (svc : (s.core n).svc = 2) (task : (s.core n).task.isSome = true)
    (waits : (s.core n).aborted.isSome = true ∨ (s.core n).recalled.isSome = true) :
    exec (.abortTimeout n) s =
      let d := s.detect (Page.vc0 + n) 3 0 n (decide (1024 ≤ max ((s.core n).aborted.getD 0) ((s.core n).recalled.getD 0)))
      if d.hit then .next ((d.st.pageErr (Page.vc0 + n)).coreFault n) else .next s := by
  change execAbortTimeout n s = _
  rw [execAbortTimeout, if_neg]
  simp only [not_or, not_and_or, not_not, Option.isNone_iff_eq_none, ← Option.isSome_iff_ne_none, ne_eq]
  exact ⟨svc, task, waits⟩

theorem abortTimeout_fails (svc : (s.core n).svc = 2) (task : (s.core n).task.isSome = true)
    (waits : (s.core n).aborted.isSome = true ∨ (s.core n).recalled.isSome = true)
    (long : 1024 ≤ max ((s.core n).aborted.getD 0) ((s.core n).recalled.getD 0)) :
    Completes (.abortTimeout n) s (fun t => (LeftService s t n ∧ t.bit (Reg.PAGE_IRQ_STAT (Page.vc0 + n)) 0 = true) ∧
      Counted s t (Reg.PAGE_ERR_CNT (Page.vc0 + n))) := by
  let u := s.logError (256 * (Page.vc0 + n) + 3) 0 n false
  have logged : OnlyReports s u logRegs := onlyReports_logError ..
  have run : exec (.abortTimeout n) s = .next ((u.pageErr (Page.vc0 + n)).coreFault n) := by
    rw [abortTimeout_runs svc task waits, decide_eq_true long, State.detect_real]
    exact if_pos rfl
  obtain ⟨left, failed, keeps⟩ := coreFault_fails (logged.trans (onlyReports_pageErr u (Page.vc0 + n))) svc
  exact ⟨_, run, ⟨left, failed⟩, keeps _ List.mem_cons_self (pageErr_counts logged)⟩

end

/-! ### Recalls -/

/-- A core on which RECALL is raised. -/
def Core.recall (c : Core) : Core := ({ c with recalled := some 0 } : Core).withEvent 6

section
variable {s : State} {n : Fin 34}

theorem coreRecall_waits (early : ¬ ((s.core n).retire = true ∧ (s.core n).svc = 2 ∧ (s.core n).recalled = none ∧
    (s.running = false ∨ s.offset = 0))) : exec (.coreRecall n) s = .next s := by
  change execCoreRecall n s = _
  rw [execCoreRecall, if_pos]
  by_contra h
  simp only [not_or, not_and_or, not_not, Bool.not_eq_false, Bool.not_eq_true, Option.isSome_eq_false_iff, Option.isNone_iff_eq_none] at h
  exact early h

theorem coreRecall_recalls (due : (s.core n).retire = true ∧ (s.core n).svc = 2 ∧ (s.core n).recalled = none ∧
    (s.running = false ∨ s.offset = 0)) : ∃ u : State, u.core n = (s.core n).recall ∧ u = { s with svc := u.svc, cores := u.cores } ∧
      KeepsCores s u [n.val] ∧ exec (.coreRecall n) s = .next (if (s.core n).task.isSome then u else u.coreLeaves n false) := by
  obtain ⟨retire, svc, fresh, boundary⟩ := due
  have recalls : ∀ v : State, v.cores = s.cores → v = { s with svc := v.svc } →
      ((v.updCore n (fun d => { d with recalled := some 0 })).coreEvent n 6).core n = (s.core n).recall ∧
      ((v.updCore n (fun d => { d with recalled := some 0 })).coreEvent n 6) = { s with
        svc := ((v.updCore n (fun d => { d with recalled := some 0 })).coreEvent n 6).svc
        cores := ((v.updCore n (fun d => { d with recalled := some 0 })).coreEvent n 6).cores } ∧
      KeepsCores s ((v.updCore n (fun d => { d with recalled := some 0 })).coreEvent n 6) [n.val] := by
    intro v cores frame
    have core : ∀ m, v.core m = s.core m := fun m => by rw [State.core, cores, State.core]
    refine ⟨?_, ?_, fun m hm => ?_⟩
    · rw [State.core_coreEvent, State.core_updCore_same, core]
      rfl
    · rw [frame]
      rfl
    · have other : m ≠ n.val := fun e => hm (List.mem_singleton.2 e)
      rw [State.coreEvent, State.core_updCore_other _ _ other, State.core_updCore_other _ _ other, core]
  have run : exec (.coreRecall n) s = execCoreRecall n s := rfl
  rw [run]
  unfold execCoreRecall
  extract_lets c mine src s0 s1
  have frame : s0.cores = s.cores ∧ s0 = { s with svc := s0.svc } := by
    dsimp only [s0]
    split <;> exact ⟨rfl, rfl⟩
  obtain ⟨core, rest, others⟩ := recalls s0 frame.1 frame.2
  refine ⟨s1, core, rest, others, ?_⟩
  rw [if_neg]
  · split <;> rfl
  · dsimp only [c]
    rw [retire, svc, fresh]
    rcases boundary with still | start
    · simp [still]
    · simp [start]

end

/-! ### A spare enters service -/

theorem State.applyHold_frame (s : State) (fell : Bool) :
    (s.applyHold fell).cores = s.cores ∧ (s.applyHold fell).sch.vacant = s.sch.vacant := by
  unfold State.applyHold
  extract_lets cyc lmax n fits applied h was src s1
  have kept : s1.cores = s.cores ∧ s1.sch.vacant = s.sch.vacant := by
    constructor
    · dsimp only [s1]
      rw [State.setBit_cores, State.setReg_cores]
    · dsimp only [s1]
      rw [State.setBit_sch, State.setReg_sch]
  clear_value s1
  split
  · rw [(onlyReports_raise s1 Page.sch 1).1]
    exact kept
  · exact kept

theorem State.cores_showCores (s : State) : s.showCores.cores = s.cores := by
  have shows : ∀ (u : State) (n : Nat), (u.setBit (Reg.SCH_CORE_BUSY n) 31 (decide ((u.core n).svc = 2))).cores = u.cores :=
    fun _ _ => State.setBit_cores ..
  unfold State.showCores
  dsimp only
  rw [foldl_keeps (g := State.cores) shows, State.setFld_cores]

/-- A core that enters service at `pc`. -/
def Core.entering (c : Core) (pc : Nat) : Core :=
  { c with
    svc := 2, halted := false, pc := pc, delay := none, rot := none, inflight := [], events := [], taking := none, task := none, tcyc := 0
    aborted := none, memUe := none, recalled := none, ceCount := 0, tally := [0, 0, 0, 0], judged := false, retire := false
    copyFrom := none, fresh := false, crs := Sparse.put (fun _ => 0) c.crs 0 (BitVec.ofNat 32 ((c.cr 0).toNat / 4 * 4)) }

theorem Core.entering_cr (c : Core) (pc : Nat) : (c.entering pc).cr 0 = BitVec.ofNat 32 ((c.cr 0).toNat / 4 * 4) := Sparse.get_put_same ..

theorem Core.entering_mode (c : Core) (pc : Nat) : (c.entering pc).voice = false ∧ fieldOf ((c.entering pc).cr 0) 1 1 = 0 := by
  unfold Core.voice
  rw [Core.entering_cr]
  have low := (c.cr 0).isLt
  unfold fieldOf bitsOf
  rw [BitVec.toNat_ofNat, Nat.shiftRight_eq_div_pow, Nat.shiftRight_eq_div_pow, decide_eq_false_iff_not]
  omega

theorem State.enterService_frame (s : State) (n : Nat) :
    (s.enterService n).core n = (s.core n).entering (s.fld (Reg.VC_RESET_VEC n) 0 13) ∧
      (∀ m, m ≠ n → (s.enterService n).core m = s.core m) ∧ (s.enterService n).sch = s.sch ∧ (s.enterService n).con = s.con := by
  let u := s.updCore n (fun c => c.entering (s.fld (Reg.VC_RESET_VEC n) 0 13))
  have enter : s.enterService n = u.showCores := rfl
  have core : ∀ m, u.showCores.core m = u.core m := fun m => by rw [State.core, State.cores_showCores, State.core]
  rw [enter]
  refine ⟨?_, fun m hm => ?_, ?_, ?_⟩
  · rw [core]
    exact State.core_updCore_same ..
  · rw [core]
    exact State.core_updCore_other s _ hm
  · rw [State.sch_showCores]
    rfl
  · rw [u.showCores_handed.con]
    rfl

/-- The spare `n` holds the program of core `src` and the reset vector of core `m`. -/
def State.loadedFrom (s : State) (n src m : Nat) : State :=
  (s.updCore n (fun c => { c with prog := (s.core src).prog })).setReg (Reg.VC_RESET_VEC n) (s.reg (Reg.VC_RESET_VEC m))

/-- The place of core `m` has been taken. -/
def State.withoutVacant (s : State) (m : Nat) : State :=
  { s with sch := { s.sch with vacant := s.sch.vacant.filter (fun v => decide (v ≠ m)) } }

theorem State.withoutVacant_frame (s : State) (m : Nat) : (s.withoutVacant m).cores = s.cores ∧ (s.withoutVacant m).con = s.con ∧
    (s.withoutVacant m).sch.vacant = s.sch.vacant.filter (fun v => decide (v ≠ m)) := ⟨rfl, rfl, rfl⟩

theorem State.loadedFrom_frame (s : State) (n src m : Nat) :
    (s.loadedFrom n src m).core n = { s.core n with prog := (s.core src).prog } ∧
      (∀ k, k ≠ n → (s.loadedFrom n src m).core k = s.core k) ∧
      (s.loadedFrom n src m).fld (Reg.VC_RESET_VEC n) 0 13 = s.fld (Reg.VC_RESET_VEC m) 0 13 ∧
      (s.loadedFrom n src m).sch = s.sch ∧ (s.loadedFrom n src m).con = s.con := by
  refine ⟨?_, fun k hk => ?_, ?_, ?_, ?_⟩
  · rw [State.loadedFrom, State.core_setReg, State.core_updCore_same]
  · rw [State.loadedFrom, State.core_setReg, State.core_updCore_other _ _ hk]
  · exact congrArg (fun w => fieldOf w 0 13) (State.reg_setReg_same ..)
  · rw [State.loadedFrom, State.setReg_sch]
    rfl
  · rw [State.loadedFrom, State.setReg_con]
    rfl

section
variable {s : State} {n : Fin 34}

theorem spareEnterService_idle (idle : (s.core n).copyFrom = none) : exec (.spareEnterService n .clean) s = .next s := by
  change execSpareEnterService n .clean s = _
  rw [execSpareEnterService, idle]

theorem spareEnterService_enters {m : Nat} (from_ : (s.core n).copyFrom = some m) {src : Nat}
    (source : src = (((s.coresOf (s.psetOf n)).filter (fun k => decide (k ≠ n.val)))[0]?).getD m)
    (unarmed : s.bit (Reg.PAGE_ERR_INJ (Page.vc0 + src)) 30 = false) :
    exec (.spareEnterService n .clean) s = .next ((((s.loadedFrom n src m).enterService n).applyHold false).withoutVacant m) := by
  change execSpareEnterService n .clean s = _
  unfold execSpareEnterService State.withoutVacant State.loadedFrom
  rw [from_]
  dsimp only
  rw [← source, State.coreMemCheck_clean unarmed, if_neg Bool.false_ne_true]

theorem entered_inService {m src : Nat} {t : State}
    (entered : t = (((s.loadedFrom n src m).enterService n).applyHold false).withoutVacant m) :
    (t.core n).svc = 2 ∧ (t.core n).prog = (s.core src).prog ∧
      (t.core n).pc = s.fld (Reg.VC_RESET_VEC m) 0 13 ∧ (t.core n).voice = false ∧ fieldOf ((t.core n).cr 0) 1 1 = 0 ∧
      (t.core n).copyFrom = none ∧ t.sch.vacant = s.sch.vacant.filter (fun v => decide (v ≠ m)) ∧ KeepsCores s t [n.val] ∧
      KeepsCon s t 0 0 := by
  obtain ⟨loaded, beside, vec, sch, con⟩ := s.loadedFrom_frame n src m
  obtain ⟨own, others, sch', con'⟩ := (s.loadedFrom n src m).enterService_frame n
  obtain ⟨cores, vacant⟩ := ((s.loadedFrom n src m).enterService n).applyHold_frame false
  have held := (((s.loadedFrom n src m).enterService n).applyHold_handed false).con
  obtain ⟨taken, kept, fewer⟩ := (((s.loadedFrom n src m).enterService n).applyHold false).withoutVacant_frame m
  rw [← entered] at taken kept fewer
  have core : ∀ k, t.core k = ((s.loadedFrom n src m).enterService n).core k := fun k => by
    rw [State.core, taken, cores, State.core]
  have mine := (core n).trans own
  rw [loaded, vec] at mine
  obtain ⟨runtime, cleared⟩ := Core.entering_mode { s.core n with prog := (s.core src).prog } (s.fld (Reg.VC_RESET_VEC m) 0 13)
  clear entered
  refine ⟨?_, ?_, ?_, ?_, ?_, ?_, ?_, fun k hk => ?_, fun x _ => State.conByte_congr ?_ x⟩
  · rw [mine, Core.entering]
  · rw [mine, Core.entering]
  · rw [mine, Core.entering]
  · rw [mine, runtime]
  · rw [mine, cleared]
  · rw [mine, Core.entering]
  · rw [fewer, vacant, sch', sch]
  · have other : k ≠ n.val := fun e => hk (List.mem_singleton.2 e)
    rw [core, others k other, beside k other]
  · rw [kept, held, con', con]

end

/-- Settles O48: a core that leaves service departs as one operation says, after reports of its page; a recall that finds no task is such a
departure; and a spare enters service from the program and the vector it was loaded with. -/
theorem coresLeaveAndEnter : Obligations.CoresLeaveAndEnter := by
  unfold Obligations.CoresLeaveAndEnter
  intro s n idle
  refine ⟨fun svc => ?_, coreLogicCheckFail_fails, fun running taking => ?_, ⟨fun waits => ?_, fun waits long => ?_, fun waits short unarmed => ?_⟩,
    ⟨fun early => ⟨s, coreRecall_waits early, rfl⟩, fun due task => ?_, fun due task => ?_⟩, fun spare => ⟨s, spareEnterService_idle spare, rfl⟩,
    fun m from_ unarmed => ⟨_, spareEnterService_enters from_ rfl unarmed, entered_inService rfl⟩⟩
  · exact ⟨s, if_pos svc, rfl⟩
  · obtain ⟨whole, marked⟩ := coreUeTimeout_waits (idle := idle) running taking
    refine ⟨fun none => ⟨s, whole none, rfl⟩, fun k ue => ⟨fun short => ⟨s, ?_, rfl⟩, fun long svc => ⟨s.coreFault n, ?_, ?_⟩⟩⟩
    · rw [marked k ue, if_neg (Nat.not_le.2 short)]
    · rw [marked k ue, if_pos long]
    · obtain ⟨left, failed, -⟩ := coreFault_fails (OnlyReports.refl s []) svc
      exact ⟨left, failed⟩
  · exact ⟨s, abortTimeout_waits waits, rfl⟩
  · obtain ⟨svc, task, started⟩ := waits
    exact abortTimeout_fails svc task started long
  · obtain ⟨svc, task, started⟩ := waits
    refine ⟨s, ?_, rfl⟩
    rw [abortTimeout_runs svc task started, decide_eq_false (Nat.not_le.2 short), State.detect_unarmed unarmed]
    exact if_neg Bool.false_ne_true
  · obtain ⟨u, core, frame, others, run⟩ := coreRecall_recalls due
    rw [if_pos task] at run
    exact ⟨u, run, core.trans (Core.withEvent_events _ 6), frame, others⟩
  · obtain ⟨u, core, frame, others, run⟩ := coreRecall_recalls due
    rw [if_neg (by rw [task]; decide)] at run
    refine ⟨_, run, LeftService.of_departed (u := u) ?_ ?_ ?_ (fun m hm => others m fun h => hm (List.mem_singleton.1 h)) rfl⟩
    · rw [frame]
    · rw [frame]
    · rw [core, Core.recall, Core.withEvent_events]

end Sys2Proof.Machine
end

section
/-! PROOFS. A waiting TAKE receives its task, or the task is deferred; the statement TakesAreDelivered. -/

namespace Sys2Proof.Machine

/-! ### Cycles in which no bundle issues -/

/-- With nothing in flight, no result is put off. -/
theorem Core.putOff_idle {c : Core} (idle : c.inflight = []) (k : Nat) :
    { c with inflight := c.inflight.map (fun w => { w with due := w.due + k }) } = c := by
  rw [idle, List.map_nil, ← idle]

theorem State.core_putOff {u : State} {n : Nat} (idle : (u.core n).inflight = []) (k : Nat) :
    (u.updCore n (fun c => { c with inflight := c.inflight.map (fun w => { w with due := w.due + k }) })).core n = u.core n :=
  (State.core_updCore_same ..).trans (Core.putOff_idle idle k)

/-- A wait of no cycle. -/
theorem State.holdTicks_zero {u : State} {n : Nat} (cls : Nat) (idle : (u.core n).inflight = []) :
    OnlyCore u (u.holdTicks n cls 0) n ∧ (u.holdTicks n cls 0).core n = u.core n :=
  ⟨OnlyCore.updCore u n (fun c => { c with inflight := c.inflight.map (fun w => { w with due := w.due + 0 }) }), State.core_putOff idle 0⟩

/-- Held cycles with nothing in flight. -/
theorem State.holdTicks_ticked {u : State} {n : Nat} (cls k : Nat) (idle : (u.core n).inflight = []) :
    OnlyCore u (u.holdTicks n cls (k + 1)) n ∧
      ({ u.core n with cycle := (u.core n).cycle + k } : Core).Ticked ((u.holdTicks n cls (k + 1)).core n) [] := by
  have core := State.core_putOff idle (k + 1)
  obtain ⟨tick, ticked⟩ := State.coreTick_ticked (n := n) cls ((congrArg Core.inflight core).trans idle)
  rw [core] at ticked
  exact State.coreTicks_ticked k ((OnlyCore.updCore ..).trans tick) ticked

/-! ### The state that the scheduler judges a task by -/

theorem State.passes_onlyCore {s t : State} {n : Nat} (only : OnlyCore s t n) (core : t.core n = s.core n) (k : Task) (cyc : Nat) :
    t.passes k cyc = s.passes k cyc := by
  obtain ⟨frame, others⟩ := only
  have cores : ∀ m, t.core m = s.core m := fun m => by
    by_cases h : m = n
    · rw [h, core]
    · exact others m h
  have service : t.inService = s.inService := by
    unfold State.inService
    simp only [cores]
  have sch : t.sch = s.sch := by rw [frame]
  have used : ∀ done p, t.usedBy done p = s.usedBy done p := by
    intro done p
    unfold State.usedBy
    simp only [cores, sch]
  unfold State.passes State.capReached
  rw [service, used, used, sch]
  generalize t.cores = cs at frame
  rw [frame]
  rfl

/-! ### Delivery -/

/-- A core that begins its task `t`: the frames of slot 0 are the front frames. -/
def Core.begins (c : Core) (gen : Nat) (t : Task) : Core :=
  let swapped := { c.newTask gen t with frontA := !c.frontA }
  swapped.setFront { swapped.front with pos := [], under0 := false, under1 := false }

theorem Core.begins_same (c : Core) (gen : Nat) (t : Task) : c.begins gen t =
    { c with
      regs := (c.begins gen t).regs, accs := (c.begins gen t).accs, soft := [], gen := gen, k0 := t.seed, k1 := (c.begins gen t).k1
      nctr := BitVec.ofNat 32 (t.bseq % 2 ^ 22 * 1024), task := some t.order, tcyc := 1, tally := [0, 0, 0, 0], judged := false
      taking := none, aborted := none, frontA := !c.frontA, crs := (c.begins gen t).crs, bufA := (c.begins gen t).bufA
      bufB := (c.begins gen t).bufB } := by
  unfold Core.begins Core.newTask Core.setFront Core.setCr
  dsimp only
  split <;> rfl

theorem Core.begins_front (c : Core) (gen : Nat) (t : Task) :
    (c.begins gen t).front.x = c.back.x ∧ (c.begins gen t).front.y = c.back.y := by
  unfold Core.begins Core.newTask Core.setFront Core.setCr Core.front Core.back
  dsimp only
  cases c.frontA <;> exact ⟨rfl, rfl⟩

/-- The counts of a delivery. -/
def State.delivers (s : State) (cyc : Nat) (n : Nat) (w : Taking) (t : Task) : State :=
  let wait := s.periodStart + cyc - t.boundAt
  let kc := 3 - codeOfCls t.cls
  (((if w.miss then s else (s.bump Reg.SCH_SIDING_HIT_CNT).corePmu n 5 1).bump (Reg.SCH_HIST (16 * kc + waitBucket wait))).count
    (427 + 6 * kc + 1) 1).count (427 + 6 * kc + 5) wait

/-- The registers of a delivery's counts. -/
def deliveryRegs : List Nat := Reg.SCH_SIDING_HIT_CNT :: (List.range 48).map (fun i => Reg.SCH_HIST i)

theorem deliveryRegs_apart : (∀ i < 48, Reg.SCH_SIDING_HIT_CNT ≠ Reg.SCH_HIST i) ∧
    ∀ a ∈ Reg.DBG_CTRL :: Reg.PAGE_CTRL Page.dbg :: (List.range 8).map (fun k => Reg.DBG_BP_CFG k), a ∉ deliveryRegs := by decide

theorem waitBucket_lt (w : Nat) : waitBucket w < 16 := by
  unfold waitBucket
  split <;> omega

theorem codeOfCls_bounds (c : Cls) : 1 ≤ codeOfCls c ∧ codeOfCls c ≤ 3 := by cases c <;> decide

theorem onlyReports_corePmu (s : State) (n e k : Nat) : OnlyReports s (s.corePmu n e k) [] := by
  unfold State.corePmu
  split
  · exact onlyReports_count ..
  · exact .refl s []

/-- A delivery shows in its counts alone; one without a miss counts a Siding hit. -/
theorem State.delivers_reports (s : State) (cyc n : Nat) (w : Taking) (t : Task) : OnlyReports s (s.delivers cyc n w t) deliveryRegs ∧
    (w.miss = false → Counted s (s.delivers cyc n w t) Reg.SCH_SIDING_HIT_CNT) := by
  let hit := if w.miss then s else (s.bump Reg.SCH_SIDING_HIT_CNT).corePmu n 5 1
  let i := 16 * (3 - codeOfCls t.cls) + waitBucket (s.periodStart + cyc - t.boundAt)
  have small : i < 48 := by
    have := codeOfCls_bounds t.cls
    have := waitBucket_lt (s.periodStart + cyc - t.boundAt)
    omega
  have hits : OnlyReports s hit [Reg.SCH_SIDING_HIT_CNT] ∧ (w.miss = false → Counted s hit Reg.SCH_SIDING_HIT_CNT) := by
    have counts := onlyReports_corePmu (s.bump Reg.SCH_SIDING_HIT_CNT) n 5 1
    have both : OnlyReports s ((s.bump Reg.SCH_SIDING_HIT_CNT).corePmu n 5 1) [Reg.SCH_SIDING_HIT_CNT] :=
      ((onlyReports_bump s _).trans counts).mono (List.append_subset.2 ⟨List.Subset.refl _, List.nil_subset _⟩)
    cases miss : w.miss with
    | true => exact ⟨by dsimp only [hit]; rw [if_pos miss]; exact (OnlyReports.refl s []).mono (List.nil_subset _), nofun⟩
    | false =>
      dsimp only [hit]
      rw [if_neg (by rw [miss]; decide)]
      exact ⟨both, fun _ => (counted_bump s _).of_reg_eq_after (counts.reg List.not_mem_nil)⟩
  have rest : OnlyReports hit (s.delivers cyc n w t) [Reg.SCH_HIST i] :=
    ((onlyReports_bump hit _).trans ((onlyReports_count ..).trans (onlyReports_count ..))).mono (List.Subset.refl _)
  refine ⟨(hits.1.trans rest).mono (fun a ha => ?_), fun miss => (hits.2 miss).of_reg_eq_after (rest.reg ?_)⟩
  · rcases List.mem_append.1 ha with h | h
    · rw [List.mem_singleton.1 h]
      exact List.mem_cons_self
    · rw [List.mem_singleton.1 h]
      exact List.mem_cons_of_mem _ (List.mem_map.2 ⟨i, List.mem_range.2 small, rfl⟩)
  · rw [List.mem_singleton]
    exact deliveryRegs_apart.1 i small

/-- `k` free values are drawn. -/
def State.drawing (s : State) (k : Nat) : State := { s with draws := s.draws + k }

theorem State.drawing_frame (s : State) (k : Nat) : (s.drawing k).cores = s.cores ∧ (s.drawing k).con = s.con ∧
    (s.drawing k).sch = s.sch ∧ (s.drawing k).regs = s.regs := ⟨rfl, rfl, rfl, rfl⟩

/-- The task is dispatched to core `n` in its cycle `c`. -/
def Task.onCore (t : Task) (n c : Nat) : Task := { t with phase := .dispatched n, takeAt := c }

/-- The task has the core, which has not gone on yet. -/
def State.delivered (s : State) (n cyc : Nat) (w : Taking) (t : Task) : State :=
  let u := (s.delivers cyc n w t).updTask t.order (fun k => k.onCore n (s.core n).cycle)
  (u.drawing 300).setCore n ((s.core n).begins (u.draws + 1) t)

theorem State.delivered_frame (s : State) (n cyc : Nat) (w : Taking) {t : Task} (found : s.taskOf t.order = some t) {v : State}
    (delivered : v = s.delivered n cyc w t) :
    (∃ gen, v.core n = (s.core n).begins gen t) ∧ (∀ m, m ≠ n → v.core m = s.core m) ∧ v.con = s.con ∧
      (v.taskOf t.order).map Task.phase = some (.dispatched n) ∧ (∀ a, a ∉ deliveryRegs → v.reg a = s.reg a) ∧
      (w.miss = false → Counted s v Reg.SCH_SIDING_HIT_CNT) := by
  obtain ⟨reports, counted⟩ := s.delivers_reports cyc n w t
  unfold State.delivered at delivered
  generalize s.delivers cyc n w t = u at reports counted delivered
  have kept : u.taskOf t.order = some t := (State.taskOf_congr (by rw [reports.1]) _).trans found
  have dispatched := State.taskOf_updTask kept (f := fun k => k.onCore n (s.core n).cycle) (fun _ => rfl)
  have frame : u.updTask t.order (fun k => k.onCore n (s.core n).cycle) =
    { u with sch := (u.updTask t.order (fun k => k.onCore n (s.core n).cycle)).sch } := rfl
  generalize u.updTask t.order (fun k => k.onCore n (s.core n).cycle) = x at dispatched frame delivered
  obtain ⟨cores, con, sch, regs⟩ := x.drawing_frame 300
  dsimp only at delivered
  have same : ∀ a, v.reg a = u.reg a := fun a => by rw [delivered, State.reg, State.setCore_regs, regs, frame, State.reg]
  refine ⟨⟨x.draws + 1, by rw [delivered, State.core_setCore_same]⟩, fun m hm => ?_, ?_, ?_, fun a ha => ?_,
    fun miss => (counted miss).of_reg_eq_after (same _)⟩
  · rw [delivered, State.core_setCore_other _ _ hm, State.core, cores, frame]
    exact reports.core m
  · rw [delivered, State.setCore_con, con, frame]
    exact reports.con
  · rw [State.taskOf_congr (s := x) (by rw [delivered, State.setCore_sch, sch]), dispatched]
    rfl
  · rw [same]
    exact reports.reg ha

theorem State.dispatch_eq (s : State) (n cyc : Nat) (w : Taking) (t : Task) : s.dispatch n cyc w t =
    (((s.delivered n cyc w t).advance n (s.core n) []).holdTicks n 2 3).updCore n (fun d =>
      { (d.later 1 (.reg (codeG ((s.core n).phys w.d)) (t.words.headD 0))) with fresh := true }) := rfl

/-- A core that has taken its task. -/
theorem State.dispatch_delivers {s : State} {n cyc id : Nat} (w : Taking) {k : Task} (found : s.taskOf id = some k)
    (idle : (s.core n).inflight = []) (straight : (s.core n).delay = none) (loops : ∀ l, l < 2 → (s.core n).lc l = 0)
    (unbroken : s.breakAt n (((s.core n).pc + 1) % 8192) = none) :
    let t := s.dispatch n cyc w k
    (t.taskOf id).map Task.phase = some (.dispatched n) ∧
      (t.core n).task = some k.order ∧ (t.core n).taking = none ∧ (t.core n).frontA = !(s.core n).frontA ∧ (t.core n).k0 = k.seed ∧
      (t.core n).nctr = BitVec.ofNat 32 (k.bseq % 2 ^ 22 * 1024) ∧ (t.core n).pc = ((s.core n).pc + 1) % 8192 ∧
      (t.core n).front.x = (s.core n).back.x ∧ (t.core n).front.y = (s.core n).back.y ∧
      (w.miss = false → Counted s t Reg.SCH_SIDING_HIT_CNT) ∧ (∀ m, m ≠ n → t.core m = s.core m) ∧ t.con = s.con := by
  obtain rfl := State.order_of_taskOf found
  obtain ⟨⟨gen, core⟩, others, con, phase, regs, counted⟩ := s.delivered_frame n cyc w found rfl
  dsimp only
  rw [State.dispatch_eq]
  generalize s.delivered n cyc w k = v at *
  have apart := deliveryRegs_apart.2
  have same : ∀ pc, v.breakAt n pc = s.breakAt n pc := fun pc =>
    State.breakAt_of_regs (regs _ (apart _ List.mem_cons_self)) (regs _ (apart _ (List.mem_cons_of_mem _ List.mem_cons_self)))
      (fun i hi => regs _ (apart _ (List.mem_cons_of_mem _ (List.mem_cons_of_mem _ (List.mem_map.2 ⟨i, List.mem_range.2 hi, rfl⟩))))) n pc
  obtain ⟨moves, moved⟩ := State.advance_plain v n (s.core n) [] straight (fun l hl ls le h => by
    rw [Core.loopAt, if_pos (loops l hl)] at h
    exact absurd h nofun) ((same _).trans unbroken)
  generalize v.advance n (s.core n) [] = a at moves moved
  rw [core] at moved
  obtain ⟨holds, ticked⟩ := State.holdTicks_ticked (u := a) (n := n) 2 2 (by rw [moved, Core.begins_same]; exact idle)
  generalize a.holdTicks n 2 3 = b at holds ticked
  have only : OnlyCore v (b.updCore n (fun d =>
      { (d.later 1 (.reg (codeG ((s.core n).phys w.d)) (k.words.headD 0))) with fresh := true })) n :=
    (moves.trans holds).trans (OnlyCore.updCore ..)
  have own : (b.updCore n (fun d => { (d.later 1 (.reg (codeG ((s.core n).phys w.d)) (k.words.headD 0))) with fresh := true })).core n =
      { ((b.core n).later 1 (.reg (codeG ((s.core n).phys w.d)) (k.words.headD 0))) with fresh := true } := State.core_updCore_same ..
  generalize b.updCore n (fun d => { (d.later 1 (.reg (codeG ((s.core n).phys w.d)) (k.words.headD 0))) with fresh := true }) = t at only own
  rw [ticked.same, moved, Core.later] at own
  have frames := Core.begins_front (s.core n) gen k
  rw [Core.begins_same] at own frames
  have front : (t.core n).front = ((s.core n).begins gen k).front := by
    rw [own, Core.front, Core.front, Core.begins_same]
  refine ⟨?_, ?_, ?_, ?_, ?_, ?_, ?_, ?_, ?_, fun miss => (counted miss).of_reg_eq_after (only.reg _),
    fun m hm => (only.2 m hm).trans (others m hm), by rw [only.1]; exact con⟩
  · rw [State.taskOf_congr (s := v) (by rw [only.1]), phase]
  · rw [own]
  · rw [own]
  · rw [own]
  · rw [own]
  · rw [own]
  · rw [own]
  · rw [front, (Core.begins_front (s.core n) gen k).1]
  · rw [front, (Core.begins_front (s.core n) gen k).2]

/-! ### Deferral -/

/-- A core from whose Siding slots the task `id` is taken. -/
def Core.unstaged (c : Core) (id : Nat) : Core :=
  let drop := fun (b : TaskBuf) => if b.task = some id then { b with task := none } else b
  if c.back.task = some id ∨ c.buf1.task = some id then { (c.setBack (drop c.back)) with buf1 := drop c.buf1 } else c

theorem Core.unstaged_back {c : Core} {id : Nat} (staged : c.back.task = some id) :
    (c.unstaged id).back.task = none ∧ (c.unstaged id).taking = c.taking := by
  unfold Core.unstaged
  dsimp only
  rw [if_pos (Or.inl staged), if_pos staged]
  unfold Core.setBack Core.back
  cases c.frontA <;> exact ⟨rfl, rfl⟩

/-- A core after a task is taken out of the Siding. -/
theorem State.core_unstage (s : State) (id : Nat) {n : Nat} (hn : n < 34) : (s.unstage id).core n = (s.core n).unstaged id := by
  let f := fun (u : State) (i : Nat) => if (u.core i).back.task = some id ∨ (u.core i).buf1.task = some id then
    u.setCore i ((u.core i).unstaged id) else u
  have shape : s.unstage id = (List.range 34).foldl f s := by
    unfold State.unstage
    refine List.foldl_ext _ _ s fun u i _ => ?_
    dsimp only [f, Core.unstaged]
    split
    · rfl
    · rfl
  have steps : ∀ m, ((List.range m).foldl f s).core n = if n < m then (s.core n).unstaged id else s.core n := by
    intro m
    induction m with
    | zero => rfl
    | succ m ih =>
      rw [List.range_succ, List.foldl_append, List.foldl_cons, List.foldl_nil]
      generalize (List.range m).foldl f s = u at ih
      have other : n ≠ m → (f u m).core n = u.core n := fun h => by
        dsimp only [f]
        split
        · exact State.core_setCore_other _ _ h
        · rfl
      have own : (f u m).core m = (u.core m).unstaged id := by
        dsimp only [f]
        split
        · exact State.core_setCore_same ..
        · next h => exact (if_neg h).symm
      rcases Nat.lt_trichotomy n m with h | h | h
      · rw [other (by omega), ih, if_pos h, if_pos (by omega)]
      · rw [h, own, if_pos (Nat.lt_succ_self m), ← h, ih, if_neg (by omega)]
      · rw [other (by omega), ih, if_neg (by omega), if_neg (by omega)]
  rw [shape, steps, if_pos hn]

theorem State.unstage_regs (s : State) (id : Nat) : (s.unstage id).regs = s.regs := by
  unfold State.unstage
  refine foldl_keeps (g := State.regs) (fun u i => ?_) _ s
  dsimp only
  split
  · exact State.setCore_regs ..
  · rfl

theorem State.countDefer_frame (s : State) (k : Task) : (s.countDefer k).cores = s.cores ∧ (s.countDefer k).sch.tasks = s.sch.tasks ∧
    Counted s (s.countDefer k) (if k.cls = .bulk then Reg.SCH_DEFER_BULK_CNT else Reg.SCH_DEFER_NRM_CNT) := by
  have counted := counted_bump s (if k.cls = .bulk then Reg.SCH_DEFER_BULK_CNT else Reg.SCH_DEFER_NRM_CNT)
  unfold State.countDefer
  generalize counts : s.bump (if k.cls = .bulk then Reg.SCH_DEFER_BULK_CNT else Reg.SCH_DEFER_NRM_CNT) = u at counted
  have frame : u.cores = s.cores ∧ u.sch = s.sch := by
    rw [← counts]
    exact ⟨rfl, rfl⟩
  obtain ⟨cores, sch⟩ := frame
  dsimp only
  split
  · exact ⟨cores, by rw [sch], counted⟩
  · exact ⟨cores, by rw [sch], counted⟩

theorem State.defer_defers {s : State} {n id : Nat} {k : Task} (hn : n < 34) (found : s.taskOf id = some k)
    (staged : (s.core n).back.task = some id) :
    ((s.defer k).taskOf id).map Task.phase = some .deferred ∧ ((s.defer k).core n).back.task = none ∧
      ((s.defer k).core n).taking = (s.core n).taking ∧
      Counted s (s.defer k) (if k.cls = .bulk then Reg.SCH_DEFER_BULK_CNT else Reg.SCH_DEFER_NRM_CNT) := by
  obtain rfl := State.order_of_taskOf found
  have tasks := s.tasks_unstage k.order
  have core := s.core_unstage k.order hn
  have regs : (s.unstage k.order).regs = s.regs := s.unstage_regs k.order
  unfold State.defer
  generalize s.unstage k.order = u at tasks core regs
  obtain ⟨cores, kept, counted⟩ := u.countDefer_frame k
  generalize u.countDefer k = v at cores kept counted
  have deferred := State.taskOf_updTask ((State.taskOf_congr (kept.trans tasks) _).trans found)
    (f := fun k => { k with phase := .deferred }) (fun _ => rfl)
  have frame : ∀ f, (v.updTask k.order f).cores = v.cores ∧ (v.updTask k.order f).regs = v.regs := fun _ => ⟨rfl, rfl⟩
  have own : (v.updTask k.order (fun k => { k with phase := .deferred })).core n = (s.core n).unstaged k.order := by
    rw [State.core, (frame _).1, cores, ← core, State.core]
  obtain ⟨gone, waits⟩ := Core.unstaged_back staged
  refine ⟨congrArg (Option.map Task.phase) deferred, by rw [own, gone], by rw [own, waits], ?_⟩
  have count := counted.of_reg_eq (s := s) (by rw [State.reg, regs, State.reg])
  exact count.of_reg_eq_after (by rw [State.reg, (frame _).2, State.reg])

/-- Settles O32: a waiting TAKE is offered the staged task of slot 0, which it gets when the task passes and which is deferred when not. -/
theorem takesAreDelivered : Obligations.TakesAreDelivered := by
  unfold Obligations.TakesAreDelivered
  intro s n cyc wait w id k m j c waiting svc running kept quiet staged found phase idle _ whole straight zero
  subst zero
  obtain ⟨only, same⟩ := State.holdTicks_zero (u := s) (n := n) 2 idle
  have run : exec (.takeDelivery n cyc 0) s =
      .next (if s.passes k cyc then (s.holdTicks n 2 0).dispatch n cyc w k else (s.holdTicks n 2 0).defer k) := by
    change execTakeDelivery n cyc 0 s = _
    rw [← State.passes_onlyCore only same]
    unfold execTakeDelivery
    dsimp only
    rw [waiting]
    dsimp only
    rw [if_neg (by rw [svc, running, kept, quiet]; simp), staged, Option.bind_some, found]
    dsimp only
    rw [phase]
    dsimp only
    rw [same, whole, if_neg (by simp)]
    split <;> rfl
  generalize s.holdTicks n 2 0 = u at only same run
  have found' : u.taskOf id = some k := (State.taskOf_congr (by rw [only.1]) id).trans found
  have reg : ∀ a, u.reg a = s.reg a := only.reg
  refine ⟨fun passes unbroken outer inner => ?_, fun fails => ?_⟩
  · rw [if_pos passes] at run
    have loops : ∀ l, l < 2 → (u.core n).lc l = 0 := fun l hl => by
      rw [same]
      have : l = 0 ∨ l = 1 := by omega
      rcases this with rfl | rfl
      · exact outer
      · exact inner
    obtain ⟨dispatched, task, taking, front, k0, nctr, pc, x, y, counted, others, con⟩ := State.dispatch_delivers (cyc := cyc) w found'
      (by rw [same]; exact idle) (by rw [same]; exact straight) loops
      (by rw [same]; exact (State.breakAt_congr (by rw [only.1]) n _).trans unbroken)
    rw [same] at front pc x y
    refine ⟨_, run, dispatched, task, taking, front, k0, nctr, pc, fun i _ => ⟨by rw [x], by rw [y]⟩,
      fun miss => (counted miss).of_reg_eq (reg _), fun i hi => ?_, fun a _ => State.conByte_congr (con.trans (by rw [only.1])) a⟩
    have other : i ≠ n.val := fun e => hi (List.mem_singleton.2 e)
    exact (others i other).trans (only.2 i other)
  · rw [if_neg (by rw [fails]; decide)] at run
    obtain ⟨deferred, back, taking, counted⟩ := State.defer_defers n.isLt found' (by rw [same]; exact staged)
    refine ⟨_, run, deferred, back, ?_, counted.of_reg_eq (reg _)⟩
    rw [taking, same]
    exact waiting

end Sys2Proof.Machine
end

section
/-! PROOFS. Send snapshots, output buffers and concealment on a quiet Concourse. -/

namespace Sys2Proof.Machine

/-- Only the Mix Engine's records and the counters differ between `s` and `t`. -/
def MixOnly (s t : State) : Prop := t = { s with mix := t.mix, pmu := t.pmu }

namespace MixOnly

variable {s t u : State}

theorem refl (s : State) : MixOnly s s := rfl

theorem trans (h : MixOnly s t) (g : MixOnly t u) : MixOnly s u := by
  unfold MixOnly at *
  rw [g, h]

theorem of_pmuOnly (h : PmuOnly s t) : MixOnly s t := by
  unfold MixOnly
  rw [h]

theorem setMix (s : State) (m : Mixer) : MixOnly s { s with mix := m } := rfl

theorem reg (h : MixOnly s t) (a : Nat) : t.reg a = s.reg a := by rw [State.reg, h, State.reg]

theorem con (h : MixOnly s t) : t.con = s.con := by rw [h]

theorem ctl (h : MixOnly s t) : t.ctl = s.ctl := by rw [h]

theorem quiet (h : MixOnly s t) (q : s.conQuiet) : t.conQuiet := State.conQuiet_of_reg q (h.reg _) h.ctl

end MixOnly

section
variable {s : State} (q : s.conQuiet)
include q

theorem State.sendRamp_counts (t : Task) (i : Nat) (w : Word) : PmuOnly s (s.sendRamp t i w).1 := by
  unfold State.sendRamp
  dsimp only
  split
  · exact .refl s
  · split
    · split <;> exact (State.devRead_quiet q ..).1
    · exact (State.devRead_quiet q ..).1

omit q in
theorem State.heldGain_mixOnly (s : State) (t : Task) (i : Nat) (v : Int) : MixOnly s (s.heldGain t i v).1 := by
  unfold State.heldGain
  dsimp only
  split
  · exact .setMix s _
  · exact .refl s

omit q in
theorem State.keepGain_mixOnly (s : State) (t : Task) (i : Nat) (w : Word) : MixOnly s (s.keepGain t i w) := by
  unfold State.keepGain
  split
  · exact .refl s
  · exact .setMix s _

omit q in
theorem State.takeSends_mixOnly (t : Task) (nch : Nat) (ws : List Word) :
    ∀ {s : State} (i : Nat), s.conQuiet → MixOnly s (s.takeSends t nch i ws).1 := by
  induction ws with
  | nil => exact fun _ _ => .refl _
  | cons w ws ih =>
    intro s i q
    rw [State.takeSends]
    have ramp : MixOnly s (if decide (fieldOf w 31 1 = 1) = true then s.sendRamp t i w else (s, ((0 : Int), (0 : Int)))).1 := by
      split
      · exact .of_pmuOnly (State.sendRamp_counts q t i w)
      · exact .refl s
    generalize (if decide (fieldOf w 31 1 = 1) = true then s.sendRamp t i w else (s, ((0 : Int), (0 : Int)))) = r at ramp
    have held : MixOnly s (if decide (fieldOf w 31 1 = 1) = true ∧ t.fade = true then
        ((r.1.heldGain t i r.2.1).1, ((r.1.heldGain t i r.2.1).2, (0 : Int))) else r).1 := by
      split
      · exact ramp.trans (State.heldGain_mixOnly ..)
      · exact ramp
    dsimp only
    generalize (if decide (fieldOf w 31 1 = 1) = true ∧ t.fade = true then
        ((r.1.heldGain t i r.2.1).1, ((r.1.heldGain t i r.2.1).2, (0 : Int))) else r) = h at held
    have kept := held.trans (State.keepGain_mixOnly h.1 t i w)
    split <;> exact kept.trans (ih (i + 1) (kept.quiet q))

theorem State.sendSnapshot_mixOnly (t : Task) : MixOnly s (s.sendSnapshot t) := by
  unfold State.sendSnapshot
  split
  · exact .refl s
  · extract_lets nch entry r k snap
    have read : MixOnly s r.1 := .of_pmuOnly (State.devRead_quiet q ..).1
    have taken : MixOnly s k.1 := read.trans (State.takeSends_mixOnly t nch r.2 0 (read.quiet q))
    exact taken.trans (.setMix k.1 _)

theorem State.readOutput_counts (cls : Cls) (x n : Nat) : PmuOnly s (s.readOutput cls x n).1 := by
  unfold State.readOutput
  generalize List.range n = l
  have steps : ∀ (r : State × List (List Word)), PmuOnly s r.1 → PmuOnly s (l.foldl (fun r c =>
      let k := r.1.devRead 35 cls (outBuffer x + 512 * c) s.rendered
      (k.1, r.2 ++ [k.2])) r).1 := by
    induction l with
    | nil => exact fun _ h => h
    | cons c l ih => exact fun r h => ih _ (h.trans (State.devRead_quiet (h.quiet q) ..).1)
  exact steps (s, []) (.refl s)

omit q in
theorem State.addTerm_mixOnly (s : State) (t : MixTerm) : MixOnly s (s.addTerm t) := by
  unfold State.addTerm
  split
  · split
    · exact .refl s
    · exact .setMix s _
  · exact .setMix s _

theorem State.conceal_mixOnly (x b : Nat) : MixOnly s (s.conceal x b) := by
  unfold State.conceal
  generalize s.snapOf x b = found
  extract_lets snap start s1 src s2
  have marked : MixOnly s s2 := (MixOnly.of_pmuOnly (PmuOnly.count s 471 1)).trans (.setMix _ _)
  clear_value snap s2
  cases snap with
  | none => exact marked
  | some m =>
    dsimp only
    split
    · exact (marked.trans (.of_pmuOnly (State.readOutput_counts (marked.quiet q) m.cls x m.nch))).trans (State.addTerm_mixOnly ..)
    · exact marked

end

end Sys2Proof.Machine
end

section
/-! PROOFS. Aborted tasks and deadlines; the statement AbortsAndDeadlines. -/

namespace Sys2Proof.Machine

/-! ### A task past its limit -/

section
variable {s : State} {n : Fin 34} {id : Nat} {k : Task}

theorem State.coreTask_of (task : (s.core n).task = some id) (found : s.taskOf id = some k) : s.coreTask n = some k := by
  unfold State.coreTask
  rw [task]
  exact found

theorem taskAbort_judges (task : (s.core n).task = some id) (found : s.taskOf id = some k) (fresh : (s.core n).aborted = none)
    (live : taskAborted (some k) = false) (svc : (s.core n).svc = 2) (unarmed : s.bit (Reg.PAGE_ERR_INJ Page.sch) 30 = false) :
    exec (.taskAbort n) s = .next (if k.limit < (s.core n).tcyc then s.abortTask n false else s) := by
  change execTaskAbort n s = _
  rw [execTaskAbort, State.coreTask_of task found]
  dsimp only
  rw [if_neg (by rw [fresh, live, svc]; simp), State.check_unarmed unarmed]
  by_cases past : k.limit < (s.core n).tcyc
  · rw [if_pos past, decide_eq_true past]
    rfl
  · rw [if_neg past, decide_eq_false past]
    rfl

/-- The counts and reports of an abort. -/
def State.reportsAbort (s : State) (n : Nat) (k : Task) (inj : Bool) : State :=
  (((s.bump Reg.SCH_ABORT_CNT).count 446 1).raise Page.sch 2).logError 0x0C01 n k.index inj

theorem abortRegs_apart : Reg.SCH_ABORT_CNT ∉ raiseRegs Page.sch ++ logRegs ∧ Reg.PAGE_IRQ_STAT Page.sch ∉ logRegs ∧
    Reg.ERR_LOG_CNT ∉ Reg.SCH_ABORT_CNT :: raiseRegs Page.sch := by decide

theorem State.reportsAbort_reports (s : State) (n : Nat) (k : Task) (inj : Bool) :
    OnlyReports s (s.reportsAbort n k inj) (Reg.SCH_ABORT_CNT :: raiseRegs Page.sch ++ logRegs) ∧
      Counted s (s.reportsAbort n k inj) Reg.SCH_ABORT_CNT ∧ Counted s (s.reportsAbort n k inj) Reg.ERR_LOG_CNT ∧
      (s.reportsAbort n k inj).bit (Reg.PAGE_IRQ_STAT Page.sch) 2 = true := by
  obtain ⟨count, irq, log⟩ := abortRegs_apart
  have bumped : OnlyReports s ((s.bump Reg.SCH_ABORT_CNT).count 446 1) [Reg.SCH_ABORT_CNT] :=
    (onlyReports_bump s _).trans (onlyReports_count ..)
  have counted : Counted s ((s.bump Reg.SCH_ABORT_CNT).count 446 1) Reg.SCH_ABORT_CNT := counted_bump s _
  unfold State.reportsAbort
  generalize (s.bump Reg.SCH_ABORT_CNT).count 446 1 = u at bumped counted
  have raised := onlyReports_raise u Page.sch 2
  have set := u.bit_raise_same Page.sch (b := 2) (by decide)
  generalize u.raise Page.sch 2 = v at raised set
  have logged := onlyReports_logError v 0x0C01 n k.index inj
  have logs := counted_logError v 0x0C01 n k.index inj
  exact ⟨(bumped.trans raised).trans logged, counted.of_reg_eq_after ((raised.trans logged).reg count),
    logs.of_reg_eq ((bumped.trans raised).reg log), (State.bit_of_reg (logged.reg irq) 2).trans set⟩

/-- ABORTED is pending in core `n`, and its count begins. -/
def State.pendsAbort (s : State) (n : Nat) : State := (s.coreEvent n 5).updCore n (fun d => { d with aborted := some 0 })

theorem State.pendsAbort_frame (s : State) (n : Nat) : OnlyCore s (s.pendsAbort n) n ∧ ((s.pendsAbort n).core n).aborted = some 0 ∧
    5 ∈ ((s.pendsAbort n).core n).events := by
  have only : OnlyCore s (s.coreEvent n 5) n := OnlyCore.updCore ..
  have core : (s.pendsAbort n).core n = { (s.coreEvent n 5).core n with aborted := some 0 } := State.core_updCore_same ..
  refine ⟨only.trans (OnlyCore.updCore ..), by rw [core], ?_⟩
  rw [core, State.core_coreEvent]
  exact Core.mem_withEvent _ 5

theorem OnlyCore.judgeCore (s : State) (n : Nat) : OnlyCore s (s.judgeCore n) n := by
  unfold State.judgeCore
  dsimp only
  split
  · have counted := s.judge_pmuOnly n (s.core n).tally false
    generalize s.judge n (s.core n).tally false = u at counted
    have only : OnlyCore s u n := ⟨by rw [counted], fun m _ => by rw [State.core, counted, State.core]⟩
    exact only.trans (OnlyCore.updCore ..)
  · exact OnlyCore.refl ..

theorem abortTask_eq (task : (s.core n).task = some id) (found : s.taskOf id = some k) (inj : Bool) : s.abortTask n inj =
    let u := (((((s.judgeCore n).reportsAbort n k inj).spend n k ((s.core n).cycle - k.takeAt)).updTask k.order
      (fun k => { k with phase := .aborted n })).pendsAbort n)
    if k.kind = .bus then u else u.mute k.index k.bseq 6 := by
  unfold State.abortTask
  rw [State.coreTask_of task found]
  rfl

/-- What an abort leaves before the slot is muted. -/
structure Aborts (s t : State) (n : Nat) (id : Nat) : Prop where
  phase : (t.taskOf id).map Task.phase = some (.aborted n)
  aborted : (t.core n).aborted = some 0
  event : 5 ∈ (t.core n).events
  aborts : Counted s t Reg.SCH_ABORT_CNT
  logs : Counted s t Reg.ERR_LOG_CNT
  irq : t.bit (Reg.PAGE_IRQ_STAT Page.sch) 2 = true
  cores : KeepsCores s t [n]
  con : KeepsCon s t 0 0
  regs : KeepsRegs s t (Reg.SCH_ABORT_CNT :: raiseRegs Page.sch ++ logRegs)

theorem State.aborts_upTo (task : (s.core n).task = some id) (found : s.taskOf id = some k) {t : State}
    (aborted : t = ((((s.judgeCore n).reportsAbort n k false).spend n k ((s.core n).cycle - k.takeAt)).updTask k.order
      (fun k => { k with phase := .aborted n })).pendsAbort n) : Aborts s t n id ∧ t.pool = s.pool := by
  have judged := OnlyCore.judgeCore s n
  generalize s.judgeCore n = u at judged aborted
  obtain ⟨reports, aborts, logs, irq⟩ := u.reportsAbort_reports n k false
  generalize u.reportsAbort n k false = v at reports aborts logs irq aborted
  have spent := v.spend_frame n k ((s.core n).cycle - k.takeAt)
  have tasks := v.tasks_spend n k ((s.core n).cycle - k.takeAt)
  generalize v.spend n k ((s.core n).cycle - k.takeAt) = w at spent tasks aborted
  have known : w.taskOf id = some k := by
    rw [State.taskOf_congr (s := s) (by rw [tasks, reports.1, judged.1]), found]
  obtain rfl := State.order_of_taskOf found
  have phase := State.taskOf_updTask known (f := fun k => { k with phase := .aborted n }) (fun _ => rfl)
  have framed : w.updTask k.order (fun k => { k with phase := .aborted n }) =
    { w with sch := (w.updTask k.order (fun k => { k with phase := .aborted n })).sch } := rfl
  generalize w.updTask k.order (fun k => { k with phase := .aborted n }) = x at phase framed aborted
  obtain ⟨only, pending, event⟩ := x.pendsAbort_frame n
  rw [← aborted] at only pending event
  have regs : ∀ a, t.reg a = v.reg a := fun a => by rw [only.reg, State.reg, framed, spent, State.reg]
  have reg : ∀ a, u.reg a = s.reg a := judged.reg
  refine ⟨⟨?_, pending, event, ?_, ?_, ?_, fun m hm => ?_, fun a _ => ?_, fun a ha => ?_⟩, ?_⟩
  · rw [State.taskOf_congr (s := x) (by rw [only.1]), phase]
    rfl
  · exact (aborts.of_reg_eq (reg _)).of_reg_eq_after (regs _)
  · exact (logs.of_reg_eq (reg _)).of_reg_eq_after (regs _)
  · exact (State.bit_of_reg (regs _) 2).trans irq
  · have other : m ≠ n.val := fun e => hm (List.mem_singleton.2 e)
    rw [only.2 m other, State.core, framed, spent]
    exact (reports.core m).trans (judged.2 m other)
  · rw [State.conByte_congr (s := s) (by rw [only.1, framed, spent, reports.1, judged.1])]
  · rw [regs, reports.reg ha, reg]
  · rw [only.1, framed, spent, reports.1, judged.1]

theorem State.slot_congr {s t : State} (h : t.pool = s.pool) (x : Nat) : t.slot x = s.slot x := by rw [State.slot, h, State.slot]

theorem State.mute_frame (s : State) {x : Nat} (hx : x < 1088) (b r : Nat) : s.mute x b r = { s with pool := (s.mute x b r).pool } ∧
    ((s.mute x b r).slot x).muted = some b ∧ KeepsSlots s (s.mute x b r) [x] := by
  have muted : s.mute x b r = s.updSlot x (fun v => { v with muted := some b, reason := r }) := if_pos hx
  rw [muted]
  refine ⟨rfl, by rw [State.updSlot, State.slot_setSlot_same], fun y hy => ?_⟩
  exact State.slot_setSlot_other s _ (fun e => hy (List.mem_singleton.2 e))

theorem State.abortTask_aborts (task : (s.core n).task = some id) (found : s.taskOf id = some k) {t : State} (run : t = s.abortTask n false) :
    Aborts s t n id ∧ (k.kind ≠ .bus → k.index < 1088 → (t.slot k.index).muted = some k.bseq ∧ KeepsSlots s t [k.index]) := by
  rw [abortTask_eq task found] at run
  obtain ⟨aborts, pool⟩ := State.aborts_upTo task found rfl
  generalize ((((s.judgeCore n).reportsAbort n k false).spend n k ((s.core n).cycle - k.takeAt)).updTask k.order
    (fun k => { k with phase := .aborted n })).pendsAbort n = u at aborts pool run
  dsimp only at run
  by_cases bus : k.kind = .bus
  · rw [if_pos bus] at run
    rw [run]
    exact ⟨aborts, fun h => absurd bus h⟩
  rw [if_neg bus] at run
  by_cases voice : k.index < 1088
  · obtain ⟨frame, muted, kept⟩ := u.mute_frame voice k.bseq 6
    rw [← run] at frame muted kept
    have regs : ∀ a, t.reg a = u.reg a := fun a => by rw [State.reg, frame, State.reg]
    have cores : ∀ m, t.core m = u.core m := fun m => by rw [State.core, frame, State.core]
    refine ⟨⟨?_, by rw [cores, aborts.aborted], by rw [cores]; exact aborts.event, aborts.aborts.of_reg_eq_after (regs _),
      aborts.logs.of_reg_eq_after (regs _), (State.bit_of_reg (regs _) 2).trans aborts.irq, fun m hm => (cores m).trans (aborts.cores m hm),
      fun a ha => (State.conByte_congr (by rw [frame]) a).trans (aborts.con a ha), fun a ha => (regs a).trans (aborts.regs a ha)⟩,
      fun _ _ => ⟨muted, fun y hy => (kept y hy).trans (State.slot_congr pool y)⟩⟩
    rw [State.taskOf_congr (s := u) (by rw [frame]), aborts.phase]
  · rw [run, State.mute, if_neg voice]
    exact ⟨aborts, fun _ h => absurd h voice⟩

end

/-! ### Concealed blocks -/

/-- From `s` to `t` a block is concealed and counted; the slots are those that `pool` allows. -/
structure Conceals (s t : State) : Prop where
  frame : t = { s with regs := t.regs, mix := t.mix, pmu := t.pmu, pool := t.pool }
  counted : Counted s t Reg.SCH_CONCEAL_CNT
  regs : KeepsRegs s t [Reg.SCH_CONCEAL_CNT]

theorem State.concealBlock_conceals {s : State} (q : s.conQuiet) (x b : Nat) (cls : Cls) : Conceals s (s.concealBlock x b cls) ∧
    (x < 1088 → ((s.concealBlock x b cls).slot x).floorRun = 0 ∧ ((s.concealBlock x b cls).slot x).endFlag = false ∧
      KeepsSlots s (s.concealBlock x b cls) [x]) ∧ (1088 ≤ x → (s.concealBlock x b cls).pool = s.pool) := by
  have snap : MixOnly s (s.snapUnbound x b cls) := State.sendSnapshot_mixOnly q _
  unfold State.concealBlock
  generalize s.snapUnbound x b cls = u at snap
  have bumped := onlyRegs_setReg u Reg.SCH_CONCEAL_CNT (BitVec.ofNat 32 (min 0xFFFFFFFF ((u.reg Reg.SCH_CONCEAL_CNT).toNat + 1)))
  have counted := counted_bump u Reg.SCH_CONCEAL_CNT
  change OnlyRegs u (u.bump Reg.SCH_CONCEAL_CNT) _ at bumped
  generalize u.bump Reg.SCH_CONCEAL_CNT = v at bumped counted
  have pmu := PmuOnly.count v (427 + 6 * (3 - codeOfCls cls) + 3) 1
  generalize v.count (427 + 6 * (3 - codeOfCls cls) + 3) 1 = w at pmu
  have quiet : w.conQuiet := pmu.quiet (State.conQuiet_of_reg (snap.quiet q) (bumped.2 _ (by decide)) (by rw [bumped.1]))
  have mixed := State.conceal_mixOnly quiet x b
  dsimp only
  generalize w.conceal x b = y at mixed
  have regs : ∀ a, y.reg a = v.reg a := fun a => (mixed.reg a).trans (pmu.reg a)
  have pool : y.pool = s.pool := by rw [mixed, pmu, bumped.1, snap]
  have conceals : Conceals s y := by
    refine ⟨?_, (counted.of_reg_eq (snap.reg _)).of_reg_eq_after (regs _), fun a ha => ?_⟩
    · rw [mixed, pmu, bumped.1, snap]
    · rw [regs, bumped.2 a ha, snap.reg]
  by_cases voice : x < 1088
  · rw [if_pos voice]
    refine ⟨⟨?_, conceals.counted, conceals.regs⟩, fun _ => ⟨?_, ?_, fun j hj => ?_⟩, fun h => absurd voice (Nat.not_lt.2 h)⟩
    · rw [conceals.frame]
      rfl
    · rw [State.updSlot, State.slot_setSlot_same]
    · rw [State.updSlot, State.slot_setSlot_same]
    · exact (State.slot_setSlot_other y _ (fun e => hj (List.mem_singleton.2 e))).trans (State.slot_congr pool j)
  · rw [if_neg voice]
    exact ⟨conceals, fun h => absurd h voice, fun _ => pool⟩

/-- The deadline of a block for which no task exists. -/
theorem State.blockDeadline_empty {s : State} {x b : Nat}
    (absent : s.sch.tasks.all (fun t => !(decide (t.index = x) && decide (t.bseq = b))) = true) (cls : Cls) :
    s.blockDeadline x b cls = s.concealBlock x b cls := by
  have none : s.tasksFor x b = [] := by
    refine List.filter_eq_nil_iff.2 fun t ht h => ?_
    have := List.all_eq_true.1 absent t ht
    simp only [Bool.and_eq_true, decide_eq_true_eq] at h
    simp [h.1.1, h.1.2] at this
  unfold State.blockDeadline
  rw [none]
  rfl

/-- The deadline of a live voice's block for which no task exists. -/
theorem State.slotDeadline_empty {s : State} {x b : Nat} (owes : (s.slot x).owes b = true) (unmuted : (s.slot x).muted = none)
    (active : (s.slot x).st = .active) (absent : s.sch.tasks.all (fun t => !(decide (t.index = x) && decide (t.bseq = b))) = true) :
    s.slotDeadline b x = s.concealBlock x b (s.slotCls x) := by
  have stays : (s.slot x).leavesAt = none := by
    unfold Slot.owes at owes
    simp only [Bool.and_eq_true, Option.isNone_iff_eq_none] at owes
    exact owes.1.1
  unfold State.slotDeadline
  dsimp only
  rw [if_pos owes, State.blockDeadline_empty absent, stays, unmuted]
  dsimp only
  rw [active, if_neg (by simp)]

section
variable {s s1 : State} {clk : Clock} (marked : s1 = { s with clk := clk })
include marked

theorem slotDeadline_conceals {x b : Nat} (owes : (s.slot x).owes b = true) (unmuted : (s.slot x).muted = none)
    (active : (s.slot x).st = .active) (absent : s.sch.tasks.all (fun t => !(decide (t.index = x) && decide (t.bseq = b))) = true)
    (voice : x < 1088) (q : s.conQuiet) :
    let t := s1.slotDeadline b x
    Counted s t Reg.SCH_CONCEAL_CNT ∧ (t.slot x).floorRun = 0 ∧ (t.slot x).endFlag = false ∧ t.clk = clk ∧ KeepsSlots s t [x] ∧
      KeepsCores s t [] ∧ KeepsRegs s t [Reg.SCH_CONCEAL_CNT] := by
  have slots : ∀ y, s1.slot y = s.slot y := State.slot_congr (by rw [marked])
  have reg : ∀ a, s1.reg a = s.reg a := fun a => by rw [State.reg, marked, State.reg]
  have quiet : s1.conQuiet := State.conQuiet_of_reg q (reg _) (by rw [marked])
  have ends := State.slotDeadline_empty (s := s1) (x := x) (b := b) (by rw [slots]; exact owes) (by rw [slots]; exact unmuted)
    (by rw [slots]; exact active) (by rw [marked]; exact absent)
  obtain ⟨conceals, own, -⟩ := State.concealBlock_conceals quiet x b (s1.slotCls x)
  obtain ⟨floor, flag, kept⟩ := own voice
  dsimp only
  rw [ends]
  generalize s1.concealBlock x b (s1.slotCls x) = t at *
  refine ⟨conceals.counted.of_reg_eq (reg _), floor, flag, ?_, fun y hy => (kept y hy).trans (slots y), fun m _ => ?_,
    fun a ha => (conceals.regs a ha).trans (reg a)⟩
  · rw [conceals.frame, marked]
  · rw [State.core, conceals.frame, marked, State.core]

theorem busDeadline_conceals {k b : Nat} (absent : s.sch.tasks.all (fun t => !(decide (t.index = 1088 + k) && decide (t.bseq = b))) = true)
    (q : s.conQuiet) (cls : Cls) :
    let t := s1.blockDeadline (1088 + k) b cls
    Counted s t Reg.SCH_CONCEAL_CNT ∧ t.clk = clk ∧ KeepsSlots s t [] ∧ KeepsCores s t [] ∧ KeepsRegs s t [Reg.SCH_CONCEAL_CNT] := by
  have reg : ∀ a, s1.reg a = s.reg a := fun a => by rw [State.reg, marked, State.reg]
  have quiet : s1.conQuiet := State.conQuiet_of_reg q (reg _) (by rw [marked])
  have ends := State.blockDeadline_empty (s := s1) (x := 1088 + k) (b := b) (by rw [marked]; exact absent) cls
  obtain ⟨conceals, -, pool⟩ := State.concealBlock_conceals quiet (1088 + k) b cls
  have pool := pool (Nat.le_add_right _ _)
  dsimp only
  rw [ends]
  generalize s1.concealBlock (1088 + k) b cls = t at *
  refine ⟨conceals.counted.of_reg_eq (reg _), ?_, fun y _ => State.slot_congr (by rw [pool, marked]) y, fun m _ => ?_,
    fun a ha => (conceals.regs a ha).trans (reg a)⟩
  · rw [conceals.frame, marked]
  · rw [State.core, conceals.frame, marked, State.core]

end

section
variable {s : State} (running : s.running = true)
include running

theorem taskDeadline_runs (start : s.offset = 0) (due : s.clk.deadlineDone ≤ s.period) :
    let s1 : State := { s with clk := { s.clk with deadlineDone := s.period + 1 } }
    exec .taskDeadline s = .next (if s.period + 1 < s.clk.startPeriod + 2 ∨ s.clk.boundaryDone < s.period then s1
      else (s.liveSlots.map (fun e => e.1)).foldl (fun u x => u.slotDeadline (s.period + 1) x) s1) := by
  change execTaskDeadline s = _
  unfold execTaskDeadline
  dsimp only
  rw [if_neg (by rw [running, start]; simp; exact due)]
  split <;> rfl

theorem busTaskDeadline_runs (start : s.offset = s.blk / 5) (due : s.clk.busDeadlineDone ≤ s.period) :
    let s1 : State := { s with clk := { s.clk with busDeadlineDone := s.period + 1 } }
    exec .busTaskDeadline s = .next (if s.period + 1 < s.clk.startPeriod + 2 ∨ s.clk.boundaryDone ≤ s.period then s1
      else ((List.range 64).filter (fun k => decide (Sparse.get (fun _ => 0) s.sch.busEnabled k = 1))).foldl
        (fun u k => u.blockDeadline (1088 + k) (s.period + 1) (clsOfCode (u.fld (Reg.SCH_BUS_CFG k) 1 2))) s1) := by
  change execBusTaskDeadline s = _
  unfold execBusTaskDeadline
  dsimp only
  rw [if_neg (by rw [running, start]; simp; exact due)]
  split <;> rfl

end

/-- Settles O34: an abort counts, reports and mutes; at a deadline each block without a task is concealed. -/
theorem abortsAndDeadlines : Obligations.AbortsAndDeadlines := by
  unfold Obligations.AbortsAndDeadlines
  constructor
  · intro s n id k task found fresh live svc unarmed
    have run := taskAbort_judges task found fresh live svc unarmed
    refine ⟨fun within => ⟨s, ?_, rfl⟩, fun past => ⟨s.abortTask n false, ?_, ?_⟩⟩
    · rw [run, if_neg (Nat.not_lt.2 within)]
    · rw [run, if_pos past]
    · obtain ⟨aborts, muted⟩ := State.abortTask_aborts task found rfl
      exact ⟨aborts.phase, aborts.aborted, aborts.event, aborts.aborts, aborts.logs, aborts.irq, aborts.cores, aborts.con, aborts.regs, muted⟩
  · intro s running p live buses none_
    refine ⟨fun start due => ?_, fun start due => ?_⟩
    · have run := taskDeadline_runs running start due
      dsimp only at run
      refine ⟨fun empty => ⟨_, run, ?_⟩, fun x v only own owes unmuted active begun taken absent voice q => ?_⟩
      · split
        · rfl
        · next h =>
          have none : s.liveSlots = [] := empty.resolve_right fun early => h (Or.inl early)
          rw [none]
          rfl
      · have here : s.liveSlots = [(x, v)] := only
        rw [if_neg (by omega), here] at run
        exact ⟨_, run, slotDeadline_conceals rfl (own ▸ owes) (own ▸ unmuted) (own ▸ active) absent voice q⟩
    · have run := busTaskDeadline_runs running start due
      dsimp only at run
      refine ⟨fun empty => ⟨_, run, ?_⟩, fun k only absent begun taken q => ?_⟩
      · split
        · rfl
        · next h =>
          have none : (List.range 64).filter (fun k => decide (Sparse.get (fun _ => 0) s.sch.busEnabled k = 1)) = [] :=
            empty.resolve_right fun early => h (Or.inl early)
          rw [none]
          rfl
      · have here : (List.range 64).filter (fun k => decide (Sparse.get (fun _ => 0) s.sch.busEnabled k = 1)) = [k] := only
        rw [if_neg (by omega), here] at run
        exact ⟨_, run, busDeadline_conceals rfl absent q _⟩

end Sys2Proof.Machine
end

section
/-! PROOFS. A Part number beyond the pool; the statement TasksAreBoundAndStaged fails. -/

namespace Sys2Proof.Machine

/-- The Part number whose SCH_PART_CFG would stand where CON_ERR_INFO stands. -/
def farPart : Nat := 6932

/-- Slot 0 plays a voice of a Part number beyond the last Part, and the first word of the send map that is read for it is uncorrectable. -/
def beyondLastPart : State :=
  let s := ((State.reset.updCore 0 (fun c => { c with svc := 2 })).setReg Reg.CLK_MEDIA_STAT 1).setReg Reg.CLK_MEDIA_CTRL 1
  let t := s.setSlot 0 { Slot.reset with st := .active, part := farPart }
  { t with
    clk := { t.clk with boundaryDone := 1 }
    mm := { t.mm with evaluated := [(0, 3)] }
    ctl := { t.ctl with bad := [(0x00E60000 + 64 * farPart) / 16] } }

/-- The phases of the tasks after the binding of slot 0. -/
def bindPhases (s : State) : List TaskPhase :=
  match exec (.taskBind 0 0) s with
  | .next t => t.sch.tasks.map Task.phase
  | _ => []

theorem farPart_register : Reg.SCH_PART_CFG farPart = Reg.CON_ERR_INFO := by decide

/-- The read of the send map leaves its master in CON_ERR_INFO, which then names another program set: no core is left for the task. -/
theorem beyondLastPart_defers : bindPhases beyondLastPart = [.deferred] := by decide

/-- Refutes O31: a core of the task's program set is in service when slot 0's task is bound, and yet the task is deferred, because the
Part's configuration is read where the error record of the send map's read was put. -/
theorem not_tasksAreBoundAndStaged : ¬ Obligations.TasksAreBoundAndStaged := by
  intro h
  obtain ⟨binds, -, -⟩ := h.1 beyondLastPart 0 0 (by decide) (by decide) (by decide)
  obtain ⟨t, run, ⟨k, mem, -, -, -, bound, -⟩, -⟩ := binds (by decide) (by decide) (by decide)
  have phases : bindPhases beyondLastPart = t.sch.tasks.map Task.phase := by
    unfold bindPhases
    rw [run]
  have none : TaskPhase.bound ∈ bindPhases beyondLastPart := by
    rw [phases, ← bound]
    exact List.mem_map_of_mem mem
  rw [beyondLastPart_defers] at none
  exact absurd none (by decide)

end Sys2Proof.Machine
end

section
/-! PROOFS. What an event that reaches the Timetable can change, whatever becomes of it. -/

namespace Sys2Proof.Machine

/-- The registers that an intake may change. -/
def intakeRegs : List Nat :=
  [Reg.ING_MAL_CNT, Reg.ING_MAL_INFO, Reg.ING_NTF_PI, Reg.ING_NTF_LOST_CNT, Reg.ING_DROP_CNT, Reg.ING_LATE_CNT,
    Reg.PAGE_ERR_INJ Page.ing] ++ raiseRegs Page.ing ++ raiseRegs Page.err ++ logRegs

/-- From `s` to `t` only what an intake may change differs. -/
structure Took (s t : State) : Prop where
  rest : t = { s with regs := t.regs, draws := t.draws, out := t.out, ing := t.ing, con := t.con, pmu := t.pmu }
  windows : t.ing.windows = s.ing.windows
  regs : KeepsRegs s t intakeRegs

theorem State.putConBytes_frame (s : State) (a : Nat) (data : List Byte) :
    s.putConBytes a data = { s with con := (s.putConBytes a data).con } := by
  induction data generalizing s a with
  | nil => rfl
  | cons b bs ih =>
    rw [State.putConBytes]
    exact (ih _ _).trans rfl

namespace Took

variable {s t u : State}

theorem refl (s : State) : Took s s := ⟨rfl, rfl, fun _ _ => rfl⟩

theorem trans (h : Took s t) (g : Took t u) : Took s u where
  rest := by rw [g.rest, h.rest]
  windows := g.windows.trans h.windows
  regs a ha := (g.regs a ha).trans (h.regs a ha)

theorem of_reports {l : List Nat} (h : OnlyReports s t l) (sub : l ⊆ intakeRegs) : Took s t where
  rest := by rw [h.1]
  windows := by rw [h.1]
  regs := (h.mono sub).2

theorem setIng (s : State) {i : Ingress} (windows : i.windows = s.ing.windows) : Took s { s with ing := i } := ⟨rfl, windows, fun _ _ => rfl⟩

theorem reg (h : Took s t) {a : Nat} (ha : a ∉ intakeRegs) : t.reg a = s.reg a := h.regs a ha

theorem count (s : State) (i k : Nat) : Took s (s.count i k) := of_reports (onlyReports_count s i k) (List.nil_subset _)

theorem bump (s : State) {a : Nat} (ha : a ∈ intakeRegs) : Took s (s.bump a) :=
  of_reports (onlyReports_bump s a) (fun _ h => List.mem_singleton.1 h ▸ ha)

theorem setReg (s : State) {a : Nat} (ha : a ∈ intakeRegs) (v : Word) : Took s (s.setReg a v) :=
  of_reports (onlyReports_setReg s a v) (fun _ h => List.mem_singleton.1 h ▸ ha)

theorem raise (s : State) (b : Nat) : Took s (s.raise Page.ing b) :=
  of_reports (onlyReports_raise s Page.ing b) (fun _ h => List.mem_append_left _ (List.mem_append_left _ (List.mem_append_right _ h)))

theorem logError (s : State) (ident sub info : Nat) (inj : Bool) : Took s (s.logError ident sub info inj) :=
  of_reports (onlyReports_logError s ident sub info inj) (List.subset_append_right _ _)

theorem putConBytes (s : State) (a : Nat) (data : List Byte) : Took s (s.putConBytes a data) where
  rest := by rw [s.putConBytes_frame a data]
  windows := by rw [s.putConBytes_frame a data]
  regs r _ := by rw [s.putConBytes_frame a data, State.reg, State.reg]

theorem putHost (s : State) (a : Nat) (data : List Byte) : Took s (s.putHost a data) where
  rest := by rw [State.putHost_frame data s a]
  windows := by rw [State.putHost_frame data s a]
  regs r _ := s.reg_putHost a data r

theorem draw (s : State) (w : Nat) : Took s (s.draw w).2 := ⟨rfl, rfl, fun _ _ => rfl⟩

end Took

/-- The registers of an intake beside those of its interrupts and of the error log. -/
theorem mem_intakeRegs {a : Nat} (h : a ∈ [Reg.ING_MAL_CNT, Reg.ING_MAL_INFO, Reg.ING_NTF_PI, Reg.ING_NTF_LOST_CNT, Reg.ING_DROP_CNT,
    Reg.ING_LATE_CNT, Reg.PAGE_ERR_INJ Page.ing]) : a ∈ intakeRegs :=
  List.mem_append_left _ (List.mem_append_left _ (List.mem_append_left _ h))

/-! ### Notifications -/

theorem State.writeNtf_took (s : State) (e : List Byte) : Took s (s.writeNtf e) := by
  have written : ∀ (b : Bool) (x y : Nat) (data : List Byte), Took s (if b then s.putConBytes x data else s.putHost y data) := by
    intro b x y data
    cases b
    · exact .putHost s y data
    · exact .putConBytes s x data
  have numbered : ∀ (u : State) (n : Nat) (v : Word), Took s u → Took s (({ u with ing := { u.ing with nseq := n } }).setReg Reg.ING_NTF_PI v) :=
    fun u n v h => (h.trans (.setIng u (i := { u.ing with nseq := n }) rfl)).trans (.setReg _ (mem_intakeRegs (a := Reg.ING_NTF_PI) (by decide)) v)
  unfold State.writeNtf
  dsimp only
  split
  · exact (numbered _ _ _ (written _ _ _ _)).trans (.raise _ 6)
  · exact numbered _ _ _ (written _ _ _ _)

theorem State.postNtf_took (s : State) (e : List Byte) : Took s (s.postNtf e) := by
  unfold State.postNtf
  split
  · exact .refl s
  · split
    · exact s.writeNtf_took e
    · split
      · exact .setIng s rfl
      · exact (Took.bump s (mem_intakeRegs (by decide))).trans (.raise _ 0)

theorem State.dropEvent_took (s : State) (src reason : Nat) (u : List Word) (arr : Nat) (tag : Word) :
    Took s (s.dropEvent src reason u arr tag) := (Took.bump s (mem_intakeRegs (by decide))).trans (State.postNtf_took _ _)

theorem State.rejectBy_took (s : State) (src reason : Nat) (u : List Word) (arr : Nat) (tag : Word) (inj : Bool) :
    Took s (s.rejectBy src reason u arr tag inj) := by
  have rejected := (((Took.bump s (mem_intakeRegs (a := Reg.ING_MAL_CNT) (by decide))).trans
    (.setReg _ (mem_intakeRegs (a := Reg.ING_MAL_INFO) (by decide)) (BitVec.ofNat 32 (reason * 2 ^ 8 + src)))).trans (.raise _ 2)).trans
    (.logError _ 0x0800 0 src inj)
  unfold State.rejectBy
  dsimp only
  split
  · exact rejected.trans (State.postNtf_took _ _)
  · exact rejected

/-! ### Messages -/

/-- An intake that takes its event leaves what an intake may. -/
def Intake.Took (s : State) : Intake → Prop
  | .taken t => Machine.Took s t
  | .held => True

section
variable (s : State) (e : Incoming)

theorem State.enterMapped_took {s0 : State} (before : Took s0 s) (u : List Word) (stamp : Option Nat) : (s.enterMapped e u stamp).Took s0 := by
  unfold State.enterMapped
  extract_lets map part c late x src s1
  have entered : Took s0 s1 := by
    refine before.trans ?_
    dsimp only [s1]
    exact Took.trans (.setIng s (i := { s.ing with tt := s.ing.tt ++ [x], idx := s.ing.idx + 1 }) rfl) (.count _ _ 1)
  clear_value s1
  split
  · exact before.trans (State.rejectBy_took ..)
  · split
    · exact before.trans (State.rejectBy_took ..)
    · split
      · split
        · exact (before.trans (State.dropEvent_took ..)).trans (.raise _ 0)
        · trivial
      · show Took s0 _
        split
        · exact ((entered.trans (.bump _ (mem_intakeRegs (by decide)))).trans (.raise _ 1)).trans (.count _ 412 1)
        · exact entered

theorem State.acceptMessage_took : (s.acceptMessage e).Took s := by
  unfold State.acceptMessage
  extract_lets u t pend s0
  have cleared : Took s s0 := by
    dsimp only [s0]
    split
    · exact .setIng s rfl
    · exact .refl s
  clear_value s0
  split
  · exact cleared.trans (State.rejectBy_took ..)
  · exact cleared
  · split
    · exact .setIng s rfl
    · exact State.rejectBy_took ..
  · split
    · split
      · exact (State.dropEvent_took ..).trans (.raise _ 0)
      · exact .setIng s rfl
    · exact State.rejectBy_took ..
  · split
    · exact cleared.trans (State.postNtf_took ..)
    · exact cleared.trans (.bump _ (mem_intakeRegs (by decide)))
  · exact State.enterMapped_took s0 e cleared _ _

theorem State.check_took (det sub : Nat) (real : Bool) : Took s (s.check Page.ing det sub real).st := by
  have fired : Took s ((s.setBit (Reg.PAGE_ERR_INJ Page.ing) 30 false).raise Page.err 0) :=
    (Took.setReg s (mem_intakeRegs (a := Reg.PAGE_ERR_INJ Page.ing) (by decide)) _).trans
      (.of_reports (onlyReports_raise _ Page.err 0) (fun _ h => List.mem_append_left _ (List.mem_append_right _ h)))
  unfold State.check
  split
  · exact .refl s
  · split
    · exact fired
    · exact .refl s

theorem State.takeMessage_took : (s.takeMessage e).Took s := by
  have accepted := s.acceptMessage_took e
  unfold State.takeMessage
  cases h : s.acceptMessage e with
  | held => trivial
  | taken t =>
    rw [h] at accepted
    dsimp only
    split
    · exact ((s.check_took 0 e.src _).trans (.draw _ 4)).trans (State.rejectBy_took ..)
    · exact accepted

theorem State.intake_took : (s.intake e).Took s := by
  unfold State.intake
  split
  · exact State.dropEvent_took ..
  · exact s.takeMessage_took e

theorem State.netMessage_took (src : Nat) (u : List Word) (arr seq : Nat) : Took s (s.netMessage src u arr seq) := by
  have taken := s.intake_took { src := src, net := true, ump := u, stamp := none, clsCode := 0, notify := false, tag := 0, arr := arr, seq := seq }
  unfold State.netMessage
  cases h : s.intake { src := src, net := true, ump := u, stamp := none, clsCode := 0, notify := false, tag := 0, arr := arr, seq := seq } with
  | held => exact .refl s
  | taken t =>
    rw [h] at taken
    exact taken

/-- The messages of a command. -/
theorem State.netMessages_took (src : Nat) (umps : List (List Word)) (arr seq : Nat) :
    Took s (umps.foldl (fun t u => t.netMessage src u arr seq) s) := by
  induction umps generalizing s with
  | nil => exact .refl s
  | cons u umps ih => exact (s.netMessage_took src u arr seq).trans (ih _)

end

end Sys2Proof.Machine
end

section
/-! PROOFS. A session window accepts each number once; the statement SessionWindows. -/

namespace Sys2Proof.Machine

/-! ### The arrival of a command -/

theorem State.sessionSource_lt (s : State) (n : Fin 32) : s.sessionSource n < 32 := by
  unfold State.sessionSource
  split
  · have := State.fld_lt s (Reg.NMID_SESS_CFG n) 24 4
    omega
  · exact n.isLt

/-- A command of an enabled session has been counted, and has its number. -/
def State.commandArrives (s : State) : State := (s.bump Reg.NMID_DATA_CNT).arrive.2

theorem State.commandArrives_frame (s : State) :
    s.commandArrives = { s with regs := s.commandArrives.regs, ing := { s.ing with seq := s.ing.seq + 1 } } ∧
      Counted s s.commandArrives Reg.NMID_DATA_CNT ∧ KeepsRegs s s.commandArrives [Reg.NMID_DATA_CNT] := by
  refine ⟨rfl, counted_bump s _, fun a ha => ?_⟩
  exact s.reg_bump_other (fun e => ha (List.mem_singleton.2 e))

/-- The registers of a window's judgement. -/
def windowRegs (src port : Nat) : List Nat :=
  [Reg.ING_DUP_CNT, Reg.ING_REDUNDANT_CNT, Reg.ING_NET_GAP_CNT, Reg.NMID_SESS_SEQ src] ++ raiseRegs Page.ing ++ raiseRegs (Page.neta + port) ++
    logRegs

theorem windowRegs_apart : ∀ (src : Fin 32) (port : Fin 2), Reg.PAGE_ERR_INJ Page.ing ∉ windowRegs src port ∧
    Reg.NMID_DATA_CNT ∉ windowRegs src port ∧ Reg.NMID_SESS_SEQ src ≠ Reg.NMID_DATA_CNT ∧
    Reg.NMID_SESS_SEQ src ∉ Reg.ING_NET_GAP_CNT :: raiseRegs (Page.neta + port) ++ logRegs ∧
    Reg.NMID_SESS_SEQ src ∉ intakeRegs := by decide

/-! ### The window -/

/-- A command that is discarded as a duplicate or as stale. -/
def State.duplicate (s : State) (src : Nat) : State := ((s.bump Reg.ING_DUP_CNT).raise Page.ing 3).logError 0x0801 0 src false

/-- The window of `src` stands at `seqno`. -/
def State.atNumber (s : State) (src seqno : Nat) (w : SessWin) : State :=
  (s.setWindow src w).setReg (Reg.NMID_SESS_SEQ src) (BitVec.ofNat 32 (2 ^ 31 + seqno))

/-- `g` numbers are gone for good. -/
def State.gapOf (s : State) (src port g : Nat) : State :=
  if g = 0 then s else ((s.bumpBy Reg.ING_NET_GAP_CNT g).raise (Page.neta + port) 1).logError 0x0802 0 src false

/-- The window after a step to the new highest number. -/
def SessWin.forward (w : SessWin) (seqno path ahead : Nat) : SessWin :=
  { w with
    h := some seqno
    acc := (seqno, path) :: w.acc.filter (fun x => decide ((seqno + 2 ^ 16 - x.1) % 2 ^ 16 ≤ 255))
    moved := min 256 (w.moved + ahead) }

section
variable (s : State) (src seqno path port : Nat)

theorem State.judgeReal_first (new : (s.window src).h = none) : s.judgeReal src seqno path port =
    (s.atNumber src seqno { s.window src with h := some seqno, acc := [(seqno, path)], moved := 0 }, true) := by
  unfold State.judgeReal
  dsimp only
  rw [new]
  rfl

variable {h : Nat} (at_ : (s.window src).h = some h)
include at_

theorem State.judgeReal_fills (within : (h + 2 ^ 16 - seqno) % 2 ^ 16 ≤ 255)
    (new : (s.window src).acc.find? (fun x => decide (x.1 = seqno)) = none) : s.judgeReal src seqno path port =
      (s.setWindow src { s.window src with acc := (seqno, path) :: (s.window src).acc }, true) := by
  unfold State.judgeReal
  dsimp only
  rw [at_]
  dsimp only
  rw [if_pos within, new]

theorem State.judgeReal_again (within : (h + 2 ^ 16 - seqno) % 2 ^ 16 ≤ 255) {p : Nat}
    (taken : ((s.window src).acc.find? (fun x => decide (x.1 = seqno))).map Prod.snd = some p) : s.judgeReal src seqno path port =
      (if p ≠ path then (s.bump Reg.ING_REDUNDANT_CNT).count 489 1 else s.duplicate src, false) := by
  obtain ⟨x, found, rfl⟩ := Option.map_eq_some_iff.1 taken
  unfold State.judgeReal
  dsimp only
  rw [at_]
  dsimp only
  rw [if_pos within, found]
  dsimp only
  split <;> rfl

theorem State.judgeReal_stale (beyond : 255 < (h + 2 ^ 16 - seqno) % 2 ^ 16) (stale : 32767 < (seqno + 2 ^ 16 - h) % 2 ^ 16) :
    s.judgeReal src seqno path port = (s.duplicate src, false) := by
  unfold State.judgeReal
  dsimp only
  rw [at_]
  dsimp only
  rw [if_neg (Nat.not_le.2 beyond), if_neg (Nat.not_le.2 stale)]
  rfl

theorem State.judgeReal_forward (beyond : 255 < (h + 2 ^ 16 - seqno) % 2 ^ 16) (ahead : (seqno + 2 ^ 16 - h) % 2 ^ 16 ≤ 32767) :
    s.judgeReal src seqno path port =
      ((s.atNumber src seqno ((s.window src).forward seqno path ((seqno + 2 ^ 16 - h) % 2 ^ 16))).gapOf src port
        ((s.window src).gaps h ((seqno + 2 ^ 16 - h) % 2 ^ 16)), true) := by
  unfold State.judgeReal
  dsimp only
  rw [at_]
  dsimp only
  rw [if_neg (Nat.not_le.2 beyond), if_pos ahead]
  rfl

end

theorem State.window_setWindow (s : State) (src : Nat) (w : SessWin) : (s.setWindow src w).window src = w := Sparse.get_put_same ..

theorem State.window_atNumber (s : State) (src seqno : Nat) (w : SessWin) : (s.atNumber src seqno w).window src = w :=
  s.window_setWindow src w

theorem sessSeq_ne_gap : ∀ src : Fin 32, Reg.ING_NET_GAP_CNT ≠ Reg.NMID_SESS_SEQ src := by decide

theorem State.atNumber_effect (s : State) (src seqno : Nat) (w : SessWin) : (s.atNumber src seqno w).window src = w ∧
    (s.atNumber src seqno w).reg (Reg.NMID_SESS_SEQ src) = BitVec.ofNat 32 (2 ^ 31 + seqno) ∧
    ∀ n : Fin 32, src = n → (s.atNumber src seqno w).reg Reg.ING_NET_GAP_CNT = s.reg Reg.ING_NET_GAP_CNT := by
  refine ⟨s.window_setWindow src w, State.reg_setReg_same .., fun n hn => ?_⟩
  subst hn
  exact State.reg_setReg_other (s.setWindow n w) _ (sessSeq_ne_gap n)

theorem State.duplicate_effect (s : State) (src : Nat) : (s.duplicate src).ing = s.ing ∧ Counted s (s.duplicate src) Reg.ING_DUP_CNT ∧
    (s.duplicate src).bit (Reg.PAGE_IRQ_STAT Page.ing) 3 = true := by
  have counted := counted_bump s Reg.ING_DUP_CNT
  have bumped := onlyReports_bump s Reg.ING_DUP_CNT
  unfold State.duplicate
  generalize s.bump Reg.ING_DUP_CNT = u at counted bumped
  have raised := onlyReports_raise u Page.ing 3
  have set := u.bit_raise_same Page.ing (b := 3) (by decide)
  generalize u.raise Page.ing 3 = v at raised set
  have logged := onlyReports_logError v 0x0801 0 src false
  refine ⟨?_, counted.of_reg_eq_after ((raised.trans logged).reg (by decide)), (State.bit_of_reg (logged.reg (by decide)) 3).trans set⟩
  rw [logged.1, raised.1, bumped.1]

theorem State.redundant_effect (s : State) : ((s.bump Reg.ING_REDUNDANT_CNT).count 489 1).ing = s.ing ∧
    Counted s ((s.bump Reg.ING_REDUNDANT_CNT).count 489 1) Reg.ING_REDUNDANT_CNT ∧
    KeepsRegs s ((s.bump Reg.ING_REDUNDANT_CNT).count 489 1) [Reg.ING_REDUNDANT_CNT] := by
  have counted := counted_bump s Reg.ING_REDUNDANT_CNT
  have bumped := onlyReports_bump s Reg.ING_REDUNDANT_CNT
  generalize s.bump Reg.ING_REDUNDANT_CNT = u at counted bumped
  have reports := onlyReports_count u 489 1
  refine ⟨?_, counted.of_reg_eq_after (reports.reg List.not_mem_nil), fun a ha => (reports.reg List.not_mem_nil).trans (bumped.reg ha)⟩
  rw [reports.1, bumped.1]

/-- A judgement changes the window, its registers and reports. -/
structure Judges (s t : State) (src port : Nat) : Prop where
  rest : t = { s with regs := t.regs, ing := t.ing, pmu := t.pmu, out := t.out }
  regs : KeepsRegs s t (windowRegs src port)

namespace Judges

variable {s t : State} {src port : Nat}

theorem of_reports {l : List Nat} (h : OnlyReports s t l) (sub : l ⊆ windowRegs src port) : Judges s t src port :=
  ⟨by rw [h.1], (h.mono sub).2⟩

theorem duplicate (s : State) (src port : Nat) : Judges s (s.duplicate src) src port := by
  refine .of_reports (((onlyReports_bump s _).trans (onlyReports_raise _ Page.ing 3)).trans (onlyReports_logError ..)) fun a ha => ?_
  simp only [windowRegs, List.mem_append, List.mem_cons, List.not_mem_nil, or_false] at ha ⊢
  tauto

theorem redundant (s : State) (src port : Nat) : Judges s ((s.bump Reg.ING_REDUNDANT_CNT).count 489 1) src port := by
  refine .of_reports ((onlyReports_bump s _).trans (onlyReports_count ..)) fun a ha => ?_
  simp only [windowRegs, List.mem_append, List.mem_cons, List.not_mem_nil, or_false] at ha ⊢
  tauto

theorem setWindow (s : State) (src port : Nat) (w : SessWin) : Judges s (s.setWindow src w) src port := ⟨rfl, fun _ _ => rfl⟩

theorem atNumber (s : State) (src port seqno : Nat) (w : SessWin) : Judges s (s.atNumber src seqno w) src port := by
  refine ⟨rfl, fun a ha => State.reg_setReg_other _ _ ?_⟩
  simp only [windowRegs, List.mem_append, List.mem_cons, not_or] at ha
  tauto

theorem trans {u : State} (h : Judges s t src port) (g : Judges t u src port) : Judges s u src port :=
  ⟨by rw [g.rest, h.rest], fun a ha => (g.regs a ha).trans (h.regs a ha)⟩

end Judges

/-- The reports of a gap. -/
theorem State.gapOf_reports (s : State) (src port g : Nat) :
    OnlyReports s (s.gapOf src port g) (Reg.ING_NET_GAP_CNT :: raiseRegs (Page.neta + port) ++ logRegs) := by
  unfold State.gapOf
  split
  · exact .refl s _
  · exact ((onlyReports_setReg s _ _).trans (onlyReports_raise _ _ 1)).trans (onlyReports_logError ..)

theorem State.gapOf_judges (s : State) (src port g : Nat) : Judges s (s.gapOf src port g) src port := by
  refine .of_reports (s.gapOf_reports src port g) fun a ha => ?_
  simp only [windowRegs, List.mem_append, List.mem_cons, List.not_mem_nil, or_false] at ha ⊢
  tauto

theorem gap_apart : ∀ port : Fin 2, Reg.ING_NET_GAP_CNT ∉ raiseRegs (Page.neta + port) ++ logRegs := by decide

theorem State.gapOf_counts (s : State) (src : Nat) (port : Fin 2) (g : Nat) : ((s.gapOf src port g).reg Reg.ING_NET_GAP_CNT).toNat =
    min 0xFFFFFFFF ((s.reg Reg.ING_NET_GAP_CNT).toNat + g) := by
  unfold State.gapOf
  split
  · next none =>
    have := (s.reg Reg.ING_NET_GAP_CNT).isLt
    omega
  · have reports := (onlyReports_raise (s.bumpBy Reg.ING_NET_GAP_CNT g) (Page.neta + port) 1).trans (onlyReports_logError _ 0x0802 0 src false)
    rw [reports.reg (gap_apart port), State.bumpBy, State.reg_setReg_same, BitVec.toNat_ofNat, Nat.mod_eq_of_lt]
    omega

/-- A judgement with no injection armed is the window's. -/
theorem State.judgeCommand_real {s : State} {src : Nat} {port : Nat} (seqno path : Nat) (unarmed : s.bit (Reg.PAGE_ERR_INJ Page.ing) 30 = false)
    {r : State × Bool} (real : s.judgeReal src seqno path port = r) (judges : Judges s r.1 src port)
    (apart : Reg.PAGE_ERR_INJ Page.ing ∉ windowRegs src port) : s.judgeCommand src seqno path port = r := by
  unfold State.judgeCommand
  rw [real]
  dsimp only
  rw [State.check_unarmed unarmed, State.check_unarmed ((State.bit_of_reg (judges.regs _ apart) 30).trans unarmed)]
  dsimp only
  rw [if_neg Bool.false_ne_true, if_neg Bool.false_ne_true]

/-! ### Commands -/

section
variable {s : State} {sess : Fin 32} {seqno : Fin 65536} {umps : List (List Word)}

/-- The path of a session. -/
def sessionPath (sess src : Nat) : Nat := if 16 ≤ sess ∧ src < 16 then 2 else 1

theorem nmidCommand_off (off : ¬ (s.pageOn Page.nmid = true ∧ s.bit (Reg.NMID_SESS_CFG sess) 31 = true)) :
    exec (.nmidCommand sess seqno umps) s = .next (s.bump Reg.NMID_DROP_CNT) := by
  change execNmidCommand sess seqno umps s = _
  unfold execNmidCommand State.takeCommand
  by_cases page : s.pageOn Page.nmid = true
  · rw [if_neg (by rw [page]; decide), if_pos (by simpa [page] using off)]
  · rw [if_pos (by simpa using page)]

/-- The command of an enabled session, from an enabled source. -/
theorem nmidCommand_judges (page : s.pageOn Page.nmid = true) (session : s.bit (Reg.NMID_SESS_CFG sess) 31 = true)
    (source : s.bit (Reg.ING_SRC_CFG (s.sessionSource sess)) 0 = true) (ctrl : s.bit Reg.ING_CTRL 0 = true) (ing : s.pageOn Page.ing = true)
    {r : State × Bool}
    (judged : s.commandArrives.judgeCommand (s.sessionSource sess) seqno (sessionPath sess (s.sessionSource sess)) (sess / 16) = r) :
    exec (.nmidCommand sess seqno umps) s = .next (if r.2 then
      umps.foldl (fun t u => t.netMessage (s.sessionSource sess) u s.clk.mt.toNat s.ing.seq) (r.1.count 488 1) else r.1) := by
  change execNmidCommand sess seqno umps s = _
  unfold execNmidCommand State.takeCommand
  rw [if_neg (by rw [page]; decide), if_neg (by rw [session]; decide)]
  dsimp only
  rw [if_neg (by rw [State.srcEnabled, source, ctrl, ing]; decide)]
  unfold State.commandArrives sessionPath at judged
  rw [judged]
  rfl

/-- A command that is discarded leaves its number and its count, and what the judgement reports. -/
theorem discarded {v : State} {src port : Nat} (reports : Judges s.commandArrives v src port) (ing : v.ing = s.commandArrives.ing)
    (apart : Reg.NMID_DATA_CNT ∉ windowRegs src port) :
    v.ing = { s.ing with seq := s.ing.seq + 1 } ∧ Counted s v Reg.NMID_DATA_CNT := by
  obtain ⟨frame, counted, -⟩ := s.commandArrives_frame
  refine ⟨ing.trans ?_, counted.of_reg_eq_after (reports.regs _ apart)⟩
  rw [frame]

/-- A command that is accepted leaves its window, and its messages reach the Timetable. -/
theorem accepted {v t : State} {src : Fin 32} {port : Fin 2} (judges : Judges s.commandArrives v src port)
    (took : Took (v.count 488 1) t) : t.window src = v.window src ∧ Counted s t Reg.NMID_DATA_CNT ∧
      t = { s with regs := t.regs, ing := t.ing, pmu := t.pmu, out := t.out, con := t.con, draws := t.draws } ∧
      t.reg (Reg.NMID_SESS_SEQ src) = v.reg (Reg.NMID_SESS_SEQ src) ∧
      t.reg Reg.ING_NET_GAP_CNT = v.reg Reg.ING_NET_GAP_CNT := by
  obtain ⟨frame, counted, -⟩ := s.commandArrives_frame
  obtain ⟨-, data, -, -, seq⟩ := windowRegs_apart src port
  have passes := (Took.count v 488 1).trans took
  refine ⟨?_, counted.of_reg_eq_after ((passes.reg (by decide)).trans (judges.regs _ data)), ?_, passes.reg seq, passes.reg (by decide)⟩
  · rw [State.window, passes.windows, State.window]
  · rw [passes.rest, judges.rest, frame]

end

/-- Settles O24: each judgement of the window is one case, and the messages of an accepted command change neither window nor counts. -/
theorem sessionWindows : Obligations.SessionWindows := by
  unfold Obligations.SessionWindows
  intro s sess seqno umps src w path on into goal passed dropped
  have small : src < 32 := s.sessionSource_lt sess
  have side : sess.val / 16 < 2 := by omega
  obtain ⟨inj, data, own, gap, -⟩ := windowRegs_apart ⟨src, small⟩ ⟨sess / 16, side⟩
  obtain ⟨frame, counted, kept⟩ := s.commandArrives_frame
  have window : s.commandArrives.window src = w := by rw [State.window, frame]; rfl
  have run : into → ∀ {v : State} {b : Bool}, s.commandArrives.judgeReal src seqno path (sess / 16) = (v, b) →
      Judges s.commandArrives v src (sess / 16) → exec (.nmidCommand sess seqno umps) s = .next (if b then
        umps.foldl (fun t u => t.netMessage src u s.clk.mt.toNat s.ing.seq) (v.count 488 1) else v) := by
    intro passes v b real judges
    obtain ⟨⟨page, session⟩, source, ctrl, ing, unarmed⟩ := passes
    have judged := State.judgeCommand_real seqno path ((State.bit_of_reg (kept _ (by decide)) 30).trans unarmed) real judges inj
    exact nmidCommand_judges page session source ctrl ing judged
  have accepts : into → ∀ {v : State}, s.commandArrives.judgeReal src seqno path (sess / 16) = (v, true) →
      Judges s.commandArrives v src (sess / 16) → ∃ t, exec (.nmidCommand sess seqno umps) s = .next t ∧ t.window src = v.window src ∧
        Counted s t Reg.NMID_DATA_CNT ∧ t = { s with regs := t.regs, ing := t.ing, pmu := t.pmu, out := t.out, con := t.con, draws := t.draws } ∧
        t.reg (Reg.NMID_SESS_SEQ src) = v.reg (Reg.NMID_SESS_SEQ src) ∧ t.reg Reg.ING_NET_GAP_CNT = v.reg Reg.ING_NET_GAP_CNT :=
    fun passes _ real judges => ⟨_, run passes real judges, accepted (src := ⟨src, small⟩) (port := ⟨sess / 16, side⟩) judges
      (State.netMessages_took _ src umps s.clk.mt.toNat s.ing.seq)⟩
  refine ⟨fun off => ⟨_, nmidCommand_off off, ?_, ?_⟩, fun passes new => ?_, fun h passes at_ => ?_⟩
  · exact counted_bump s _
  · exact onlyRegs_setReg s _ _
  · have real := State.judgeReal_first s.commandArrives src seqno path (sess / 16) (by rw [window]; exact new)
    rw [window] at real
    obtain ⟨at_v, seq_v, -⟩ := State.atNumber_effect s.commandArrives src seqno { w with h := some seqno.val, acc := [(seqno.val, path)], moved := 0 }
    obtain ⟨t, exec, stands, data', rest, number, -⟩ := accepts passes real (Judges.atNumber ..)
    exact ⟨t, exec, ⟨stands.trans at_v, data', rest⟩, number.trans seq_v⟩
  · dsimp only
    refine ⟨fun within fresh => ?_, fun p within taken => ?_, fun beyond stale => ?_, fun beyond ahead => ?_⟩
    · have real := State.judgeReal_fills s.commandArrives src seqno path (sess / 16) (by rw [window]; exact at_) within (by rw [window]; exact fresh)
      rw [window] at real
      obtain ⟨t, exec, stands, data', rest, -⟩ := accepts passes real (Judges.setWindow ..)
      exact ⟨t, exec, stands.trans (State.window_setWindow ..), data', rest⟩
    · have real := State.judgeReal_again s.commandArrives src seqno path (sess / 16) (by rw [window]; exact at_) within (by rw [window]; exact taken)
      refine ⟨fun other => ?_, fun same => ?_⟩
      · rw [if_pos other] at real
        have judges := Judges.redundant s.commandArrives src (sess / 16)
        obtain ⟨ing, bumped, others⟩ := State.redundant_effect s.commandArrives
        generalize (s.commandArrives.bump Reg.ING_REDUNDANT_CNT).count 489 1 = v at real judges ing bumped others
        refine ⟨v, run passes real judges, discarded judges ing data, bumped.of_reg_eq (kept _ (by decide)), fun a ha => ?_⟩
        rw [List.mem_cons, not_or] at ha
        exact (others a ha.2).trans (kept a (by simpa using ha.1))
      · rw [if_neg (not_not.2 same)] at real
        have judges := Judges.duplicate s.commandArrives src (sess / 16)
        obtain ⟨ing, dup, irq⟩ := State.duplicate_effect s.commandArrives src
        exact ⟨_, run passes real judges, discarded judges ing data, dup.of_reg_eq (kept _ (by decide)), irq⟩
    · have real := State.judgeReal_stale s.commandArrives src seqno path (sess / 16) (by rw [window]; exact at_) beyond stale
      have judges := Judges.duplicate s.commandArrives src (sess / 16)
      obtain ⟨ing, dup, -⟩ := State.duplicate_effect s.commandArrives src
      exact ⟨_, run passes real judges, discarded judges ing data, dup.of_reg_eq (kept _ (by decide))⟩
    · have real := State.judgeReal_forward s.commandArrives src seqno path (sess / 16) (by rw [window]; exact at_) beyond ahead
      rw [window] at real
      obtain ⟨at_v, seq_v, gap_v⟩ := State.atNumber_effect s.commandArrives src seqno (w.forward seqno path ((seqno + 2 ^ 16 - h) % 2 ^ 16))
      have judges_v := Judges.atNumber s.commandArrives src (sess / 16) seqno (w.forward seqno path ((seqno + 2 ^ 16 - h) % 2 ^ 16))
      generalize s.commandArrives.atNumber src seqno (w.forward seqno path ((seqno + 2 ^ 16 - h) % 2 ^ 16)) = v at real at_v seq_v gap_v judges_v
      generalize w.gaps h ((seqno + 2 ^ 16 - h) % 2 ^ 16) = g at real ⊢
      have reports := v.gapOf_reports src (sess / 16) g
      obtain ⟨t, exec, stands, data', -, number, gaps⟩ := accepts passes real (judges_v.trans (v.gapOf_judges src (sess / 16) g))
      have placed : (v.gapOf src (sess / 16) g).window src = w.forward seqno path ((seqno + 2 ^ 16 - h) % 2 ^ 16) := by
        rw [State.window, reports.1]
        exact at_v
      refine ⟨t, exec, ?_, ?_, ?_, data', ?_⟩
      · rw [stands, placed]
        rfl
      · rw [stands, placed]
        exact List.mem_cons_self
      · rw [number, reports.reg gap, seq_v]
      · rw [gaps, v.gapOf_counts src ⟨sess / 16, side⟩ g, gap_v ⟨src, small⟩ rfl, kept _ (by decide)]

end Sys2Proof.Machine
end

section
/-! PROOFS. Doorbells, ring entries and entries of the SPI FIFO; the statement HostEntriesPass. -/

namespace Sys2Proof.Machine

/-! ### An event that is mapped to a Part -/

/-- The stamp that an admitted event gets in the Timetable. -/
def State.stampOf (s : State) (e : Incoming) : Option Nat :=
  match e.stamp with
  | some m => some (m / 256 * 256)
  | none => if Sparse.get (fun _ => 0) s.ing.mtStamp e.src = 0 then none
    else some (reconstructStamp (Sparse.get (fun _ => 0) s.ing.mtStamp e.src - 1) e.arr)

/-- A late event is reported. -/
def State.reportLate (s : State) (late : Bool) : State := if late then ((s.bump Reg.ING_LATE_CNT).raise Page.ing 1).count 412 1 else s

theorem State.reportLate_reports (s : State) (late : Bool) : OnlyReports s (s.reportLate late) (Reg.ING_LATE_CNT :: raiseRegs Page.ing) := by
  have reports := ((onlyReports_bump s Reg.ING_LATE_CNT).trans (onlyReports_raise _ Page.ing 1)).trans (onlyReports_count _ 412 1)
  unfold State.reportLate
  split
  · exact reports.mono (by simp)
  · exact .refl s _

/-- The entry `x` stands in the Timetable. -/
def State.withEntry (s : State) (x : TtEntry) : State := { s with ing := { s.ing with tt := s.ing.tt ++ [x], idx := s.ing.idx + 1 } }

/-- The entry `x` of class `c` stands in the Timetable, and is reported. -/
def State.entered (s : State) (x : TtEntry) (c : Cls) (late : Bool) : State :=
  ((s.withEntry x).count (411 - codeOfCls c) 1).reportLate late

theorem State.entered_effect (s : State) (x : TtEntry) (c : Cls) (late : Bool) :
    (s.entered x c late).ing = { s.ing with tt := s.ing.tt ++ [x], idx := s.ing.idx + 1 } ∧
      KeepsRegs s (s.entered x c late) (Reg.ING_LATE_CNT :: raiseRegs Page.ing) := by
  have reports := (onlyReports_count (s.withEntry x) (411 - codeOfCls c) 1).trans (State.reportLate_reports _ late)
  rw [List.nil_append] at reports
  unfold State.entered
  exact ⟨by rw [reports.1]; rfl, fun a ha => reports.reg ha⟩

/-- The event `e` stands at the end of the Timetable. -/
structure Enters (s t : State) (e : Incoming) : Prop where
  entry : ∃ x, t.ing.tt = s.ing.tt ++ [x] ∧ s.tabled e x
  doorbells : t.ing.doorbells = s.ing.doorbells
  regs : KeepsRegs s t (Reg.ING_LATE_CNT :: raiseRegs Page.ing)

section
variable {s : State} {e : Incoming} (mapped : s.mapped e)
include mapped

/-- A mapped event enters, or is held at its host source. -/
theorem State.enterMapped_mapped {s0 : State} (regs : s0.regs = s.regs) (tt : s0.ing.tt = s.ing.tt) (idx : s0.ing.idx = s.ing.idx)
    (bells : s0.ing.doorbells = s.ing.doorbells) (host : e.net = false) :
    (s.ttRoom (s.mappedClass e) = false → s0.enterMapped e (umpTranslate (umpTrim e.ump)) (s.stampOf e) = .held) ∧
      (s.ttRoom (s.mappedClass e) = true → ∃ t, s0.enterMapped e (umpTranslate (umpTrim e.ump)) (s.stampOf e) = .taken t ∧ Enters s t e) := by
  obtain ⟨-, kind, word, near⟩ := mapped
  have reg : ∀ a, s0.reg a = s.reg a := fun a => by rw [State.reg, regs, State.reg]
  have cls : s0.eventClass e (some (fieldOf (s.partWord e) 0 6)) = s.mappedClass e := by
    unfold State.eventClass State.mappedClass
    dsimp only
    rw [State.bit_of_reg (reg _), State.fld_of_reg (reg _)]
  have room : ∀ c, s0.ttRoom c = s.ttRoom c := fun c => by
    unfold State.ttRoom State.expReserve
    rw [State.fld_of_reg (reg _), tt]
  have close : ¬ (e.stamp.isSome = true ∧ modDiff 56 ((s.stampOf e).getD 0 / 256) (e.arr / 256) > 2 ^ 24) := by
    rintro ⟨some_, far⟩
    obtain ⟨m, stamp⟩ := Option.isSome_iff_exists.1 some_
    have limit := near m stamp
    rw [State.stampOf, stamp] at far
    dsimp only [Option.getD_some] at far
    rw [Nat.mul_div_cancel _ (by decide)] at far
    omega
  have part : s0.reg (Reg.ING_PART_MAP (umpGroup (umpTranslate (umpTrim e.ump)) * 16 + umpChan (umpTranslate (umpTrim e.ump)))) = s.partWord e := reg _
  unfold State.enterMapped
  dsimp only
  rw [part, if_neg (by rw [word]; decide), if_neg close, cls, room]
  refine ⟨fun full => by rw [if_pos full, if_neg (by rw [host]; decide)], fun free => ?_⟩
  rw [if_neg (by rw [free]; decide)]
  let late := match s.stampOf e with
    | some m => s0.lateStamp (laneOf e.src (umpTranslate (umpTrim e.ump))) (s.mappedClass e) (m / 256)
    | none => false
  let x : TtEntry :=
    { ump := umpTranslate (umpTrim e.ump), src := e.src, arr := e.arr, seq := e.seq, idx := s0.ing.idx, stamp := s.stampOf e
      cls := s.mappedClass e, part := fieldOf (s.partWord e) 0 6, late := late, notify := e.notify, tag := e.tag
      hostStamped := e.stamp.isSome }
  obtain ⟨ing, kept⟩ := s0.entered_effect x (s.mappedClass e) late
  refine ⟨s0.entered x (s.mappedClass e) late, rfl, ⟨x, ?_, ?_⟩, ?_, fun a ha => (kept a ha).trans (reg a)⟩
  · rw [ing, tt]
  · exact ⟨rfl, rfl, rfl, rfl, idx, rfl, rfl, rfl, rfl, rfl⟩
  · rw [ing, bells]

/-- A mapped event of a host source passes the intake as the room for it allows. -/
theorem State.intake_mapped (host : e.net = false) :
    (s.ttRoom (s.mappedClass e) = false → s.intake e = .held) ∧
      (s.ttRoom (s.mappedClass e) = true → ∃ t, s.intake e = .taken t ∧ Enters s t e) := by
  obtain ⟨⟨source, -, unarmed⟩, kind, -⟩ := id mapped
  let s0 := if umpTakesStamp (umpType (umpTrim e.ump)) then s.clearMtStamp e.src else s
  have same : s0.regs = s.regs ∧ s0.ing.tt = s.ing.tt ∧ s0.ing.idx = s.ing.idx ∧ s0.ing.doorbells = s.ing.doorbells := by
    dsimp only [s0]
    split <;> exact ⟨rfl, rfl, rfl, rfl⟩
  obtain ⟨regs, tt, idx, bells⟩ := same
  have accept : s.acceptMessage e = s0.enterMapped e (umpTranslate (umpTrim e.ump)) (s.stampOf e) := by
    unfold State.acceptMessage
    dsimp only
    rw [kind]
    rfl
  have take : s.intake e = s.takeMessage e := if_neg (by rw [State.srcEnabled, source, host]; simp)
  obtain ⟨full, free⟩ := State.enterMapped_mapped mapped regs tt idx bells host
  rw [take, State.takeMessage, accept]
  refine ⟨fun h => by rw [full h], fun h => ?_⟩
  obtain ⟨t, entered, enters⟩ := free h
  rw [entered]
  refine ⟨t, ?_, enters⟩
  dsimp only
  rw [State.check_unarmed unarmed]
  exact if_neg Bool.false_ne_true

end

/-! ### Doorbells (R42) -/

theorem ring_registers : ∀ n : Fin 8,
    Reg.ING_RING_STAT n ∉ [Reg.ING_MAL_INFO, Reg.PAGE_ERR_CNT Page.ing] ++ raiseRegs Page.ing ∧
    Reg.ING_RING_STAT n ∉ Reg.ING_RING_CI n :: raiseRegs Page.ing ∧ Reg.ING_RING_CI n ∉ raiseRegs Page.ing ∧
    Reg.ING_RING_PI n ∉ raiseRegs Page.ing ∧
    Reg.ING_DROP_CNT ∉ [Reg.ING_RING_CI n, Reg.ING_RING_STAT n, Reg.ING_MAL_CNT, Reg.ING_MAL_INFO] ++ raiseRegs Page.ing := by decide

theorem State.ringLow_reports (s : State) (n before : Nat) : OnlyReports s (s.ringLow n before) (raiseRegs Page.ing) := by
  unfold State.ringLow
  dsimp only
  split
  · exact onlyReports_raise s Page.ing 5
  · exact .refl s _

/-- A doorbell beyond the ring is refused. -/
def State.bellRefused (s : State) (n : Nat) : State :=
  (((s.setBit (Reg.ING_RING_STAT n) 17 true).setReg Reg.ING_MAL_INFO (BitVec.ofNat 32 (7 * 2 ^ 8 + 32 + n))).pageErr Page.ing).raise Page.ing 2

/-- A doorbell has its arrival. -/
def State.bellRung (s : State) (n pi : Nat) : State :=
  let a := s.arrive.2.setReg (Reg.ING_RING_PI n) (BitVec.ofNat 32 pi)
  let d := Sparse.get (fun _ => []) a.ing.doorbells n ++ [{ upTo := pi, arr := s.clk.mt.toNat, seq := s.ing.seq }]
  { a with ing := { a.ing with doorbells := Sparse.put (fun _ => []) a.ing.doorbells n d } }

section
variable {s : State} {path : Path} {n : Fin 8} {v : Word} (opens : s.writable (Reg.ING_RING_PI n) = true)
include opens

theorem ringDoorbell_eq : exec (.ringDoorbell path n v) s = .next
    (if 2 ^ max 4 (min 12 (s.fld (Reg.ING_RING_CFG n) 0 4)) < (v.toNat % 2 ^ 16 + 2 ^ 16 - s.fld (Reg.ING_RING_CI n) 0 16) % 2 ^ 16 then
      s.bellRefused n else (s.bellRung n (v.toNat % 2 ^ 16)).ringLow n (s.ringUsed n)) := by
  change execRingDoorbell path n v s = _
  rw [execRingDoorbell, State.hostWrite_of_writable opens]
  rfl

omit opens in
theorem State.bellRefused_effect (s : State) (n : Fin 8) : (s.bellRefused n).bit (Reg.ING_RING_STAT n) 17 = true ∧
    (s.bellRefused n).reg Reg.ING_MAL_INFO = BitVec.ofNat 32 (7 * 2 ^ 8 + 32 + n) ∧
    Counted s (s.bellRefused n) (Reg.PAGE_ERR_CNT Page.ing) ∧ (s.bellRefused n).bit (Reg.PAGE_IRQ_STAT Page.ing) 2 = true ∧
    OnlyReports s (s.bellRefused n) ([Reg.ING_RING_STAT n, Reg.ING_MAL_INFO, Reg.PAGE_ERR_CNT Page.ing] ++ raiseRegs Page.ing) := by
  have marked := onlyReports_setBit s (Reg.ING_RING_STAT n) 17 true
  have set := s.bit_setBit_same (Reg.ING_RING_STAT n) true (i := 17) (by decide)
  unfold State.bellRefused
  generalize s.setBit (Reg.ING_RING_STAT n) 17 true = t at marked set
  have info := onlyReports_setReg t Reg.ING_MAL_INFO (BitVec.ofNat 32 (7 * 2 ^ 8 + 32 + n))
  have told := t.reg_setReg_same Reg.ING_MAL_INFO (BitVec.ofNat 32 (7 * 2 ^ 8 + 32 + n))
  generalize t.setReg Reg.ING_MAL_INFO (BitVec.ofNat 32 (7 * 2 ^ 8 + 32 + n)) = u at info told
  have erred := onlyReports_pageErr u Page.ing
  have counted : Counted u (u.pageErr Page.ing) (Reg.PAGE_ERR_CNT Page.ing) := counted_bump u _
  generalize u.pageErr Page.ing = w at erred counted
  have raised := onlyReports_raise w Page.ing 2
  have irq := w.bit_raise_same Page.ing (b := 2) (by decide)
  generalize w.raise Page.ing 2 = x at raised irq
  obtain ⟨apart, -⟩ := ring_registers n
  have err : ∀ n : Fin 8, Reg.PAGE_ERR_CNT Page.ing ∉ [Reg.ING_RING_STAT n] ++ [Reg.ING_MAL_INFO] := by decide
  refine ⟨(State.bit_of_reg (((info.trans erred).trans raised).reg (by simpa using apart)) 17).trans set, ?_, ?_, irq, ?_⟩
  · rw [(erred.trans raised).reg (by decide), told]
  · exact (counted.of_reg_eq ((marked.trans info).reg (err n))).of_reg_eq_after (raised.reg (by decide))
  · exact (((marked.trans info).trans erred).trans raised).mono (by simp)

omit opens in
theorem State.bellRung_effect (s : State) (n : Fin 8) (pi : Nat) :
    (s.bellRung n pi).reg (Reg.ING_RING_PI n) = BitVec.ofNat 32 pi ∧
      Sparse.get (fun _ => []) (s.bellRung n pi).ing.doorbells n =
        Sparse.get (fun _ => []) s.ing.doorbells n ++ [{ upTo := pi, arr := s.clk.mt.toNat, seq := s.ing.seq }] ∧
      (s.bellRung n pi).ing.seq = s.ing.seq + 1 ∧ (s.bellRung n pi).ing.tt = s.ing.tt ∧
      KeepsRegs s (s.bellRung n pi) [Reg.ING_RING_PI n] := by
  refine ⟨State.reg_setReg_same .., Sparse.get_put_same .., rfl, rfl, fun a ha => ?_⟩
  exact State.reg_setReg_other s.arrive.2 _ (fun e => ha (List.mem_singleton.2 e))

end

/-! ### Ring entries (R42 to R45, R57) -/

/-- An entry out of its sequence is reported. -/
def State.misnumbered (s : State) (n : Nat) (out : Prop) [Decidable out] : State :=
  if out then ((s.bump Reg.ING_MAL_CNT).setReg Reg.ING_MAL_INFO (BitVec.ofNat 32 (5 * 2 ^ 8 + 32 + n))).raise Page.ing 2 else s

/-- The entry numbered `seq` has left ring `n`, whose CI is `ci`. -/
def State.ringMoves (s : State) (n seq ci : Nat) : State :=
  ((s.setFld (Reg.ING_RING_STAT n) 0 16 (seq + 1)).setBit (Reg.ING_RING_STAT n) 16 false).setReg (Reg.ING_RING_CI n) (BitVec.ofNat 32 ci)

/-- The arrivals left of ring `n`. -/
def State.withBells (s : State) (n : Nat) (l : List Arrival) : State :=
  { s with ing := { s.ing with doorbells := Sparse.put (fun _ => []) s.ing.doorbells n l } }

/-- The registers of an entry that leaves a ring. -/
def ringRegs (n : Nat) : List Nat := [Reg.ING_RING_CI n, Reg.ING_RING_STAT n, Reg.ING_MAL_CNT, Reg.ING_MAL_INFO] ++ raiseRegs Page.ing

/-- A taken entry has left its ring. -/
structure RingGone (s t : State) (n : Fin 8) (seq ci : Nat) : Prop where
  ci : t.reg (Reg.ING_RING_CI n) = BitVec.ofNat 32 ci
  free : t.bit (Reg.ING_RING_STAT n) 16 = false
  next : t.fld (Reg.ING_RING_STAT n) 0 16 = (seq + 1) % 2 ^ 16
  tt : t.ing.tt = s.ing.tt
  regs : KeepsRegs s t (ringRegs n)

theorem State.misnumbered_reports (s : State) (n : Nat) (out : Prop) [Decidable out] :
    OnlyReports s (s.misnumbered n out) ([Reg.ING_MAL_CNT, Reg.ING_MAL_INFO] ++ raiseRegs Page.ing) := by
  unfold State.misnumbered
  split
  · exact ((onlyReports_bump s _).trans (onlyReports_setReg _ _ _)).trans (onlyReports_raise _ Page.ing 2)
  · exact .refl s _

theorem State.ringMoves_effect (s : State) (n : Fin 8) (seq ci : Nat) :
    (s.ringMoves n seq ci).reg (Reg.ING_RING_CI n) = BitVec.ofNat 32 ci ∧ (s.ringMoves n seq ci).bit (Reg.ING_RING_STAT n) 16 = false ∧
      (s.ringMoves n seq ci).fld (Reg.ING_RING_STAT n) 0 16 = (seq + 1) % 2 ^ 16 ∧
      OnlyReports s (s.ringMoves n seq ci) [Reg.ING_RING_STAT n, Reg.ING_RING_CI n] := by
  have apart : Reg.ING_RING_STAT n ≠ Reg.ING_RING_CI n := by
    obtain ⟨-, h, -⟩ := ring_registers n
    exact fun e => h (e ▸ List.mem_cons_self)
  unfold State.ringMoves
  refine ⟨State.reg_setReg_same .., ?_, ?_, ?_⟩
  · rw [State.bit_setReg_other _ _ _ apart, State.bit_setBit_same _ _ _ (by decide)]
  · rw [State.fld_setReg_other _ _ _ _ apart]
    unfold State.setBit
    rw [State.fld_setFld_apart _ _ _ (by decide), State.fld_setFld_same _ _ _ (by decide)]
  · exact (((onlyReports_setReg s _ _).trans (onlyReports_setBit _ _ 16 false)).trans (onlyReports_setReg _ _ _)).mono (by simp)

theorem State.ringGone (t : State) (n : Fin 8) (seq ci before : Nat) (l : List Arrival) (out : Prop) [Decidable out] :
    RingGone t ((((((t.misnumbered n out).ringMoves n seq ci).withBells n l).ringLow n before).count 493 1)) n seq ci := by
  have wrong := t.misnumbered_reports n out
  generalize t.misnumbered n out = u at wrong
  obtain ⟨at_, free, next, moves⟩ := u.ringMoves_effect n seq ci
  generalize u.ringMoves n seq ci = v at at_ free next moves
  have bells : (v.withBells n l).ing.tt = v.ing.tt ∧ ∀ a, (v.withBells n l).reg a = v.reg a := ⟨rfl, fun _ => rfl⟩
  generalize v.withBells n l = w at bells
  obtain ⟨tt, same⟩ := bells
  have rest := (w.ringLow_reports n before).trans (onlyReports_count _ 493 1)
  generalize (w.ringLow n before).count 493 1 = x at rest
  rw [List.append_nil] at rest
  obtain ⟨-, stat, ciApart, -⟩ := ring_registers n
  have stat' : Reg.ING_RING_STAT n ∉ raiseRegs Page.ing := fun h => stat (List.mem_cons_of_mem _ h)
  refine ⟨?_, ?_, ?_, ?_, fun a ha => ?_⟩
  · rw [rest.reg ciApart, same, at_]
  · rw [rest.bit stat', State.bit_of_reg (same _), free]
  · rw [rest.fld stat', State.fld_of_reg (same _), next]
  · rw [rest.1, tt, moves.1, wrong.1]
  · simp only [ringRegs, List.mem_append, List.mem_cons, List.not_mem_nil, or_false, not_or] at ha
    obtain ⟨⟨ci', stat'', cnt, info⟩, raises⟩ := ha
    rw [rest.reg raises, same, moves.reg (by simp [ci', stat'']), wrong.reg (by simp [cnt, info, raises])]

section
variable {s : State} {n : Fin 8} {data : List Byte}

/-- Whether an entry of ring `n` is read. -/
def State.ringDue (s : State) (n : Nat) : Prop :=
  s.bit Reg.ING_CTRL 1 = true ∧ fieldOf (s.reg (Reg.ING_RING_CFG n)) 8 1 = 1 ∧ s.pageOn Page.ing = true ∧ s.ringUsed n ≠ 0

/-- The entry that ring `n` gives. -/
def State.ringEntry (s : State) (n : Nat) (data : List Byte) : EntryFields :=
  entryFields (if fieldOf (s.reg (Reg.ING_RING_CFG n)) 9 1 = 1 then
    s.conBytes ((s.reg (Reg.ING_RING_BASE_LO n)).toNat / 32 * 32 +
      s.fld (Reg.ING_RING_CI n) 0 16 % 2 ^ max 4 (min 12 (fieldOf (s.reg (Reg.ING_RING_CFG n)) 0 4)) * 32) 32
    else data)

/-- The arrival of the entry that ring `n` gives. -/
def State.ringArrival (s : State) (n : Nat) : Arrival :=
  (Sparse.get (fun _ => []) s.ing.doorbells n).headD { upTo := 0, arr := s.clk.mt.toNat, seq := s.ing.seq }

theorem ringEntryRead_idle (idle : ¬ s.ringDue n) : exec (.ringEntryRead n data) s = .next s := by
  change execRingEntryRead n data s = _
  unfold execRingEntryRead
  dsimp only
  have small : fieldOf (s.reg (Reg.ING_RING_CFG n)) 8 1 < 2 := Nat.mod_lt _ (by decide)
  rw [if_pos]
  by_contra h
  simp only [not_or, Bool.not_eq_false] at h
  exact idle ⟨h.1, by omega, h.2.2.1, h.2.2.2⟩

theorem ringEntryRead_due (due : s.ringDue n) :
    (s.takeEntry (32 + n) (s.ringEntry n data) (s.ringArrival n) = .held →
      exec (.ringEntryRead n data) s = .next (s.setBit (Reg.ING_RING_STAT n) 16 true)) ∧
      ∀ t, s.takeEntry (32 + n) (s.ringEntry n data) (s.ringArrival n) = .taken t → ∃ v, exec (.ringEntryRead n data) s = .next v ∧
        RingGone t v n (s.ringEntry n data).seq ((s.fld (Reg.ING_RING_CI n) 0 16 + 1) % 2 ^ 16) := by
  obtain ⟨ctrl, on, page, some_⟩ := due
  have run : exec (.ringEntryRead n data) s = (match s.takeEntry (32 + n) (s.ringEntry n data) (s.ringArrival n) with
      | .held => .next (s.setBit (Reg.ING_RING_STAT n) 16 true)
      | .taken t => .next ((((((t.misnumbered n (fieldOf (s.reg (Reg.ING_RING_CFG n)) 10 1 = 1 ∧
          (s.ringEntry n data).seq ≠ s.fld (Reg.ING_RING_STAT n) 0 16)).ringMoves n (s.ringEntry n data).seq
          ((s.fld (Reg.ING_RING_CI n) 0 16 + 1) % 2 ^ 16)).withBells n (arrivalsFrom ((s.fld (Reg.ING_RING_CI n) 0 16 + 1) % 2 ^ 16)
          (Sparse.get (fun _ => []) s.ing.doorbells n))).ringLow n (s.ringUsed n)).count 493 1))) := by
    change execRingEntryRead n data s = _
    unfold execRingEntryRead
    dsimp only
    rw [if_neg (by rw [ctrl, on, page]; simp; exact some_)]
    change (match s.takeEntry (32 + n) (s.ringEntry n data) (s.ringArrival n) with
      | .held => _
      | .taken t => _) = _
    cases s.takeEntry (32 + n) (s.ringEntry n data) (s.ringArrival n) <;> rfl
  rw [run]
  refine ⟨fun held => by rw [held], fun t taken => ?_⟩
  rw [taken]
  exact ⟨_, rfl, State.ringGone ..⟩

end

/-! ### What becomes of an entry -/

section
variable {s : State} {src : Nat} {f : EntryFields} {a : Arrival}

theorem State.dropEvent_silent (silent : s.bit Reg.ING_NTF_CFG 8 = false) (reason : Nat) (u : List Word) (arr : Nat) (tag : Word) :
    s.dropEvent src reason u arr tag = s.bump Reg.ING_DROP_CNT := by
  have off : (s.bump Reg.ING_DROP_CNT).bit Reg.ING_NTF_CFG 8 = false :=
    (State.bit_of_reg (s.reg_bump_other (by decide)) 8).trans silent
  exact if_pos off

theorem State.takeEntry_disabled (off : s.bit (Reg.ING_SRC_CFG src) 0 = false) (silent : s.bit Reg.ING_NTF_CFG 8 = false) :
    s.takeEntry src f a = .taken (s.bump Reg.ING_DROP_CNT) := by
  unfold State.takeEntry
  rw [if_pos (by exact off), State.dropEvent_silent silent]

theorem State.takeEntry_mapped (plain : f.reserved = false) (event : f.fence = false) (mapped : s.mapped (f.event src a)) :
    (s.ttRoom (s.mappedClass (f.event src a)) = false → s.takeEntry src f a = .held) ∧
      (s.ttRoom (s.mappedClass (f.event src a)) = true → ∃ t, s.takeEntry src f a = .taken t ∧ Enters s t (f.event src a)) := by
  obtain ⟨source, -, -⟩ := mapped.1
  have take : s.takeEntry src f a = s.intake (f.event src a) := by
    unfold State.takeEntry
    rw [if_neg (by rw [State.srcEnabled]; exact fun h => absurd (source.symm.trans h) (by decide)), plain, event]
    rfl
  rw [take]
  exact State.intake_mapped mapped rfl

end

/-! ### The SPI FIFO (R45) -/

section
variable {s : State} {b : List Byte} {a : Arrival} {rest : List (List Byte × Arrival)} (head : s.ing.spi = (b, a) :: rest)
include head

theorem spiFifoForward_off (off : s.bit Reg.ING_CTRL 2 = false ∨ s.pageOn Page.ing = false) : exec .spiFifoForward s = .next s := by
  change execSpiFifoForward s = _
  rw [execSpiFifoForward, head]
  exact if_pos off

/-- The FIFO after its oldest entry. -/
def State.withSpi (s : State) (rest : List (List Byte × Arrival)) : State :=
  { s with ing := { s.ing with spi := rest } }.setFld Reg.ING_SPI_STAT 0 7 rest.length

theorem spiFifoForward_on (ctrl : s.bit Reg.ING_CTRL 2 = true) (page : s.pageOn Page.ing = true) :
    (s.takeEntry 40 (entryFields b) a = .held → exec .spiFifoForward s = .next s) ∧
      ∀ t, s.takeEntry 40 (entryFields b) a = .taken t → exec .spiFifoForward s = .next (t.withSpi rest) := by
  have run : exec .spiFifoForward s = (match s.takeEntry 40 (entryFields b) a with
      | .held => .next s
      | .taken t => .next (t.withSpi rest)) := by
    change execSpiFifoForward s = _
    rw [execSpiFifoForward, head]
    dsimp only
    rw [if_neg (by rw [ctrl, page]; decide)]
    rfl
  rw [run]
  exact ⟨fun held => by rw [held], fun t taken => by rw [taken]⟩

omit head in
theorem State.withSpi_effect (s : State) (rest : List (List Byte × Arrival)) : (s.withSpi rest).ing.tt = s.ing.tt ∧
    (s.withSpi rest).ing.spi = rest ∧ (s.withSpi rest).fld Reg.ING_SPI_STAT 0 7 = rest.length % 128 ∧
    KeepsRegs s (s.withSpi rest) [Reg.ING_SPI_STAT] :=
  ⟨rfl, rfl, State.fld_setFld_same _ _ _ (by decide), fun _ ha => State.reg_setFld_other _ _ _ _ (fun e => ha (List.mem_singleton.2 e))⟩

end

/-- Settles O23: a doorbell is rung or refused; an entry of a ring or of the FIFO leaves it as the intake of its event allows. -/
theorem hostEntriesPass : Obligations.HostEntriesPass := by
  unfold Obligations.HostEntriesPass
  intro s path n v data piReg ciReg stat cfg ci size ahead bells
  refine ⟨fun opens => ⟨fun beyond => ?_, fun fits => ?_⟩, ⟨fun idle => ?_, fun due off silent => ?_, fun due plain event mapped => ?_⟩,
    fun empty => ?_, fun b a rest head => ⟨fun off => ⟨s, spiFifoForward_off head off, rfl⟩, fun ctrl page plain event mapped => ?_⟩⟩
  · have run := (ringDoorbell_eq (path := path) (v := v) opens).trans (congrArg Host.Outcome.next (if_pos beyond))
    exact ⟨_, run, State.bellRefused_effect s n⟩
  · have run := (ringDoorbell_eq (path := path) (v := v) opens).trans (congrArg Host.Outcome.next (if_neg (Nat.not_lt.2 fits)))
    obtain ⟨reg, list, seq, tt, kept⟩ := s.bellRung_effect n (v.toNat % 2 ^ 16)
    generalize s.bellRung n (v.toNat % 2 ^ 16) = u at run reg list seq tt kept
    have low := u.ringLow_reports n (s.ringUsed n)
    obtain ⟨-, -, -, apart, -⟩ := ring_registers n
    refine ⟨_, run, (low.reg apart).trans reg, ?_, ?_, ?_, fun x hx => ?_⟩
    · dsimp only [bells]
      rw [low.1]
      exact list
    · rw [low.1]
      exact seq
    · rw [low.1]
      exact tt
    · rw [List.mem_cons, not_or] at hx
      exact (low.reg hx.2).trans (kept x (by simpa using hx.1))
  · exact ⟨s, ringEntryRead_idle idle, rfl⟩
  · obtain ⟨-, takes⟩ := ringEntryRead_due (data := data) due
    obtain ⟨u, run, gone⟩ := takes _ (State.takeEntry_disabled off silent)
    have counted := counted_bump s Reg.ING_DROP_CNT
    have bumped := onlyReports_bump s Reg.ING_DROP_CNT
    generalize s.bump Reg.ING_DROP_CNT = t at gone counted bumped
    obtain ⟨-, -, -, -, drop⟩ := ring_registers n
    refine ⟨u, run, ⟨gone.ci, gone.free, gone.next⟩, counted.of_reg_eq_after (gone.regs _ drop), ?_, fun x hx => ?_⟩
    · rw [gone.tt, bumped.1]
    · rw [List.mem_cons, not_or] at hx
      exact (gone.regs x hx.2).trans (bumped.reg (by simpa using hx.1))
  · obtain ⟨holds, takes⟩ := ringEntryRead_due (data := data) due
    obtain ⟨full, free⟩ := State.takeEntry_mapped plain event mapped
    refine ⟨fun room => ?_, fun room => ?_⟩
    · obtain ⟨t, taken, enters⟩ := free room
      obtain ⟨u, run, gone⟩ := takes t taken
      obtain ⟨x, tt, tabled⟩ := enters.entry
      refine ⟨u, run, ⟨gone.ci, gone.free, gone.next⟩, ⟨x, gone.tt.trans tt, tabled⟩, fun y hy => ?_⟩
      rw [List.mem_cons, not_or] at hy
      refine (gone.regs y hy.2).trans (enters.regs y ?_)
      rw [List.mem_cons, not_or]
      exact ⟨hy.1, fun h => hy.2 (List.mem_append_right _ h)⟩
    · exact ⟨_, holds (full room), State.bit_setBit_same _ _ _ (by decide), onlyRegs_setReg s _ _⟩
  · refine ⟨s, ?_, rfl⟩
    change execSpiFifoForward s = _
    rw [execSpiFifoForward, empty]
  · obtain ⟨holds, takes⟩ := spiFifoForward_on head ctrl page
    obtain ⟨full, free⟩ := State.takeEntry_mapped plain event mapped
    refine ⟨fun room => ?_, fun room => ⟨s, holds (full room), rfl⟩⟩
    obtain ⟨t, taken, enters⟩ := free room
    obtain ⟨x, tt, tabled⟩ := enters.entry
    obtain ⟨tt', spi, count, kept⟩ := t.withSpi_effect rest
    refine ⟨_, takes t taken, ⟨x, tt'.trans tt, tabled⟩, spi, count, fun y hy => ?_⟩
    simp only [List.cons_append, List.nil_append, List.mem_cons, not_or] at hy
    refine (kept y (by simpa using hy.1)).trans (enters.regs y ?_)
    rw [List.mem_cons, not_or]
    exact hy.2

end Sys2Proof.Machine
end

section
/-! PROOFS. Host SPI transactions; the statement SpiTransactions. -/

namespace Sys2Proof.Machine

/-! ### What a read does -/

/-- The registers whose reads are of a moment or latch. -/
def latchingReads : List Nat := [Reg.CLK_MT_LO, Reg.CLK_MT_HI, Reg.PMU_CNT_LO, Reg.PMU_CNT_HI, Reg.PTP_TIME_LO, Reg.PTP_TIME_HI]

/-- Only the draws and the latches of reads differ between `s` and `t`. -/
def ReadOnly (s t : State) : Prop := t = { s with draws := t.draws, latches := t.latches }

namespace ReadOnly

variable {s t u : State}

theorem refl (s : State) : ReadOnly s s := rfl

theorem trans (h : ReadOnly s t) (g : ReadOnly t u) : ReadOnly s u := by
  unfold ReadOnly at *
  rw [g, h]

theorem draw (s : State) (w : Nat) : ReadOnly s (s.draw w).2 := rfl

theorem latch (s : State) (kind : Nat) (path : Path) (v : Word) : ReadOnly s (s.latch kind path v) := rfl

end ReadOnly

theorem State.readStatus_readOnly {s t : State} (h : ReadOnly s t) (off : Nat) : t.readStatus off = s.readStatus off := by
  rw [h]
  rfl

theorem State.readCore_readOnly {s t : State} (h : ReadOnly s t) (n off : Nat) : t.readCore n off = s.readCore n off := by
  rw [h]
  rfl

theorem State.readReg_readOnly (s : State) (path : Path) (off : Nat) (mtFrac : BitVec 8) (ptp : BitVec 64) :
    ReadOnly s (s.readReg path off mtFrac ptp).1 := by
  unfold State.readReg
  dsimp only
  split
  · exact .refl s
  · split
    · exact .refl s
    · split
      · exact .latch s ..
      · split
        · exact .refl s
        · split
          · exact .latch s ..
          · split
            · exact .refl s
            · split
              · exact .latch s ..
              · split <;> exact .refl s

/-- A read that is not of a moment gives what the registers and the state hold. -/
theorem State.readReg_value {s t : State} (h : ReadOnly s t) (path : Path) {off : Nat} (plain : off ∉ latchingReads) (mtFrac : BitVec 8)
    (ptp : BitVec 64) : (t.readReg path off mtFrac ptp).2 = (s.readReg path off 0 0).2 := by
  simp only [latchingReads, List.mem_cons, List.not_mem_nil, or_false, not_or] at plain
  obtain ⟨mtLo, mtHi, pmuLo, pmuHi, ptpLo, ptpHi⟩ := plain
  have reg : ∀ a, t.reg a = s.reg a := fun a => by rw [State.reg, h, State.reg]
  have page : t.pageOn (off / 0x1000) = s.pageOn (off / 0x1000) := State.bit_of_reg (reg _) 0
  have fld : ∀ lo w, t.fld off lo w = s.fld off lo w := State.fld_of_reg (reg off)
  unfold State.readReg
  dsimp only
  cases rowOf off with
  | none => rfl
  | some r =>
    dsimp only
    rw [reg, page, fld, fld, if_neg mtLo, if_neg mtHi, if_neg pmuLo, if_neg pmuHi, if_neg ptpLo, if_neg ptpHi, if_neg mtLo, if_neg mtHi,
      if_neg pmuLo, if_neg pmuHi, if_neg ptpLo, if_neg ptpHi, State.readStatus_readOnly h, State.readCore_readOnly h, reg]
    split <;> rfl

/-- The words of an RDREQ. -/
theorem State.spiRead_words (s : State) (n : Nat) : ∀ {t : State} (_ : ReadOnly s t) (off : Nat),
    ReadOnly s (t.spiRead off n).1 ∧ (t.spiRead off n).2.length = n ∧
      ∀ j, j < n → off + 4 * j ∉ latchingReads → (t.spiRead off n).2[j]? = some (s.readReg .spi (off + 4 * j) 0 0).2 := by
  induction n with
  | zero => exact fun h _ => ⟨h, rfl, fun j hj => absurd hj (Nat.not_lt_zero j)⟩
  | succ n ih =>
    intro t h off
    let f := t.draw 8
    let p := f.2.draw 64
    have drawn : ReadOnly s p.2 := h.trans ((ReadOnly.draw t 8).trans (.draw f.2 64))
    let r := p.2.readReg .spi off (BitVec.ofNat 8 f.1) (BitVec.ofNat 64 p.1)
    obtain ⟨only, length, words⟩ := ih (drawn.trans (State.readReg_readOnly ..) : ReadOnly s r.1) (off + 4)
    refine ⟨only, congrArg (· + 1) length, fun j hj plain => ?_⟩
    change (r.2 :: (r.1.spiRead (off + 4) n).2)[j]? = _
    cases j with
    | zero => exact congrArg some (State.readReg_value drawn .spi plain _ _)
    | succ j =>
      have place : off + 4 * (j + 1) = off + 4 + 4 * j := by omega
      rw [place] at plain ⊢
      exact words j (by omega) plain

/-! ### A transaction -/

section
variable {s : State} {cmd clocks : Nat} {refuse good : Bool} {act : State → State}

theorem State.spiRun_off (off : s.serving = false ∨ s.pwr.vioA = false) : s.spiRun cmd clocks refuse good act = s := if_pos off

variable (on : s.serving = true) (supplied : s.pwr.vioA = true)
include on supplied

theorem State.spiRun_refused : s.spiRun cmd clocks true good act = s.spiRefuse := by
  unfold State.spiRun
  rw [if_neg (by rw [on, supplied]; decide), if_pos rfl]

theorem State.spiRun_runs (unarmed : s.bit (Reg.PAGE_ERR_INJ Page.hsp) 30 = false) :
    s.spiRun cmd clocks false good act = if good then act s.spiCounted else s.spiFrameError cmd clocks false := by
  unfold State.spiRun
  rw [if_neg (by rw [on, supplied]; decide), if_neg Bool.false_ne_true, State.check_unarmed unarmed]
  dsimp only
  cases good <;> rfl

end

/-- A transaction that was refused. -/
def SpiRefused (s t : State) : Prop :=
  Counted s t Reg.HSP_REFUSE_CNT ∧
    t = { s with regs := t.regs, net := { s.net with spi := { s.net.spi with refused := true } } } ∧ KeepsRegs s t [Reg.HSP_REFUSE_CNT]

theorem SpiRefused.ing {s t : State} (h : SpiRefused s t) : Counted s t Reg.HSP_REFUSE_CNT ∧ t.ing = s.ing := by
  obtain ⟨counted, frame, -⟩ := h
  exact ⟨counted, by rw [frame]⟩

theorem State.spiRefuse_refused (s : State) : SpiRefused s s.spiRefuse :=
  ⟨counted_bump s _, rfl, fun _ ha => s.reg_bump_other (fun e => ha (List.mem_singleton.2 e))⟩

/-- A transaction whose clocks fit none of its command. -/
def SpiUnframed (s t : State) (cmd clocks : Nat) : Prop :=
  t.bit Reg.HSP_ERR_INFO 31 = true ∧ t.fld Reg.HSP_ERR_INFO 8 16 = clocks ∧
    t.fld Reg.HSP_ERR_INFO 0 8 = cmd ∧ Counted s t Reg.HSP_FRAME_ERR_CNT ∧ Counted s t Reg.ERR_LOG_CNT ∧
    t.bit (Reg.PAGE_IRQ_STAT Page.hsp) 0 = true ∧ t.net = { s.net with spi := { s.net.spi with frameErr := true } } ∧
    t = { s with regs := t.regs, pmu := t.pmu, out := t.out, net := t.net } ∧
    KeepsRegs s t ([Reg.HSP_ERR_INFO, Reg.HSP_FRAME_ERR_CNT] ++ raiseRegs Page.hsp ++ logRegs)

/-- The word of HSP_ERR_INFO. -/
theorem errInfo_fields {cmd clocks : Nat} (hc : cmd < 256) (hk : clocks < 2 ^ 16) :
    let w : Word := BitVec.ofNat 32 (2 ^ 31 + min 0xFFFF clocks * 2 ^ 8 + cmd % 256)
    fieldOf w 31 1 = 1 ∧ fieldOf w 8 16 = clocks ∧ fieldOf w 0 8 = cmd := by
  intro w
  have value : w.toNat = 2 ^ 31 + clocks * 2 ^ 8 + cmd := by
    dsimp only [w]
    rw [BitVec.toNat_ofNat]
    omega
  unfold fieldOf bitsOf
  rw [value]
  simp only [Nat.shiftRight_eq_div_pow]
  omega

theorem State.spiFrameError_unframed (s : State) {cmd clocks : Nat} (hc : cmd < 256) (hk : clocks < 2 ^ 16) :
    SpiUnframed s (s.spiFrameError cmd clocks false) cmd clocks := by
  obtain ⟨bit, count, command⟩ := errInfo_fields hc hk
  have info := onlyReports_setReg s Reg.HSP_ERR_INFO (BitVec.ofNat 32 (2 ^ 31 + min 0xFFFF clocks * 2 ^ 8 + cmd % 256))
  have told := s.reg_setReg_same Reg.HSP_ERR_INFO (BitVec.ofNat 32 (2 ^ 31 + min 0xFFFF clocks * 2 ^ 8 + cmd % 256))
  unfold State.spiFrameError
  generalize s.setReg Reg.HSP_ERR_INFO (BitVec.ofNat 32 (2 ^ 31 + min 0xFFFF clocks * 2 ^ 8 + cmd % 256)) = t at info told
  have bumped := onlyReports_bump t Reg.HSP_FRAME_ERR_CNT
  have counted := counted_bump t Reg.HSP_FRAME_ERR_CNT
  generalize t.bump Reg.HSP_FRAME_ERR_CNT = u at bumped counted
  have raised := onlyReports_raise u Page.hsp 0
  have irq := u.bit_raise_same Page.hsp (b := 0) (by decide)
  generalize u.raise Page.hsp 0 = v at raised irq
  have logged := onlyReports_logError v 0x1B00 0 cmd false
  have logs := counted_logError v 0x1B00 0 cmd false
  generalize v.logError 0x1B00 0 cmd false = w at logged logs
  have all := ((info.trans bumped).trans raised).trans logged
  have told' : w.reg Reg.HSP_ERR_INFO = _ := (((bumped.trans raised).trans logged).reg (by decide)).trans told
  have reg : ∀ a, ({ w with net := { w.net with spi := { w.net.spi with frameErr := true } } } : State).reg a = w.reg a := fun _ => rfl
  refine ⟨?_, ?_, ?_, ?_, ?_, (State.bit_of_reg ((reg _).trans (logged.reg (by decide))) 0).trans irq, ?_, ?_, fun a ha => ?_⟩
  · rw [State.bit_of_reg (reg _), State.bit, told', bit]
    rfl
  · rw [State.fld_of_reg (reg _), State.fld, told', count]
  · rw [State.fld_of_reg (reg _), State.fld, told', command]
  · exact (counted.of_reg_eq (info.reg (by decide))).of_reg_eq_after ((reg _).trans ((raised.trans logged).reg (by decide)))
  · exact (logs.of_reg_eq (((info.trans bumped).trans raised).reg (by decide))).of_reg_eq_after (reg _)
  · rw [all.1]
  · rw [all.1]
  · exact (reg a).trans (all.reg (by simpa using ha))

/-! ### What is performed -/

theorem State.spiCounted_frame (s : State) : s.spiCounted = { s with regs := s.spiCounted.regs, pmu := s.spiCounted.pmu } ∧
    Counted s s.spiCounted Reg.HSP_TXN_CNT ∧ KeepsRegs s s.spiCounted [Reg.HSP_TXN_CNT] := by
  have bumped := onlyReports_bump s Reg.HSP_TXN_CNT
  have counted := counted_bump s Reg.HSP_TXN_CNT
  exact ⟨rfl, counted, bumped.2⟩

/-- The pin HINT follows the enables and states of the interrupts alone. -/
theorem State.hintLow_congr {s t : State} (irq : t.reg (Reg.PAGE_CTRL Page.irq) = s.reg (Reg.PAGE_CTRL Page.irq))
    (lo : t.reg Reg.IRQ_HINT_EN_LO = s.reg Reg.IRQ_HINT_EN_LO) (hi : t.reg Reg.IRQ_HINT_EN_HI = s.reg Reg.IRQ_HINT_EN_HI)
    (stat : ∀ p, t.reg (Reg.PAGE_IRQ_STAT p) = s.reg (Reg.PAGE_IRQ_STAT p))
    (en : ∀ p, t.reg (Reg.PAGE_IRQ_EN p) = s.reg (Reg.PAGE_IRQ_EN p)) : t.hintLow = s.hintLow := by
  have pending : t.sourcePending = s.sourcePending := by
    funext src
    unfold State.sourcePending State.pageRaises
    simp only [State.bit_of_reg (stat _), State.bit_of_reg (en _)]
  unfold State.hintLow
  simp only [State.bit_of_reg irq, State.bit_of_reg lo, State.bit_of_reg hi, pending]

theorem State.spiStatus_counted (s : State) : s.spiCounted.spiStatus = s.spiStatus := by
  obtain ⟨frame, -, kept⟩ := s.spiCounted_frame
  generalize s.spiCounted = t at frame kept
  have hint : t.hintLow = s.hintLow :=
    State.hintLow_congr (kept _ (by decide)) (kept _ (by decide)) (kept _ (by decide))
      (fun p => kept _ (by rw [List.mem_singleton]; dsimp only [Reg.PAGE_IRQ_STAT, Reg.HSP_TXN_CNT]; omega))
      (fun p => kept _ (by rw [List.mem_singleton]; dsimp only [Reg.PAGE_IRQ_EN, Reg.HSP_TXN_CNT]; omega))
  have busy : t.hbusy = s.hbusy := by rw [State.hbusy, frame, State.hbusy]
  unfold State.spiStatus
  dsimp only
  rw [hint, busy, frame]

/-- The status byte was read, with other bytes. -/
def SpiAnswered (s t : State) (rest : List Byte) : Prop :=
  t.out = { s.out with sent := .spi (s.spiStatus :: rest) :: s.out.sent } ∧
    t.net = { s.net with spi := { s.net.spi with refused := false, frameErr := false } } ∧ Counted s t Reg.HSP_TXN_CNT ∧
    t = { s with regs := t.regs, pmu := t.pmu, out := t.out, net := t.net } ∧ KeepsRegs s t [Reg.HSP_TXN_CNT]

theorem State.spiReturn_answered (s : State) (rest : List Byte) : SpiAnswered s (s.spiCounted.spiReturn rest) rest := by
  obtain ⟨frame, counted, kept⟩ := s.spiCounted_frame
  have status := s.spiStatus_counted
  unfold State.spiReturn
  generalize s.spiCounted = t at frame counted kept status
  rw [status]
  refine ⟨?_, ?_, counted, ?_, kept⟩
  · rw [frame]
    rfl
  · rw [frame]
    rfl
  · rw [frame]
    rfl

/-- An RDREQ that is performed. -/
theorem State.spiRdreq_reads (s : State) (off : BitVec 20) (n : Fin 16) :
    let r := s.spiCounted.spiRead off.toNat (n.val + 1)
    let t := r.1.updSpi (fun x => { x with busy := true, words := r.2 })
    t.net.spi.busy = true ∧ t.net.spi.words.length = n.val + 1 ∧
      (∀ j, j ≤ n.val → off.toNat + 4 * j ∉ latchingReads →
        t.net.spi.words[j]? = some (s.spiCounted.readReg .spi (off.toNat + 4 * j) 0 0).2) ∧
      t = { s with regs := t.regs, pmu := t.pmu, net := t.net, draws := t.draws, latches := t.latches } ∧
      KeepsRegs s t [Reg.HSP_TXN_CNT] := by
  obtain ⟨frame, -, kept⟩ := s.spiCounted_frame
  obtain ⟨only, length, words⟩ := s.spiCounted.spiRead_words (n.val + 1) (ReadOnly.refl _) off.toNat
  generalize s.spiCounted.spiRead off.toNat (n.val + 1) = r at only length words
  intro _ t
  unfold ReadOnly at only
  refine ⟨rfl, length, fun j hj => words j (by omega), ?_, fun a ha => ?_⟩
  · dsimp only [t, State.updSpi]
    rw [only, frame]
  · have same : t.reg a = s.spiCounted.reg a := by
      dsimp only [t, State.updSpi, State.reg]
      rw [only]
    exact same.trans (kept a ha)

/-- An entry stands in the FIFO of SPI, at its arrival. -/
def State.spiQueued (s : State) (entry : List Byte) : State :=
  { s with ing := { s.ing with seq := s.ing.seq + 1, spi := s.ing.spi ++ [(entry, { upTo := 0, arr := s.clk.mt.toNat, seq := s.ing.seq })] } }

/-- An entry arrives by SPI. -/
def State.spiArrives (s : State) (entry : List Byte) : State :=
  (s.spiQueued entry).setFld Reg.ING_SPI_STAT 0 7 (s.ing.spi.length + 1)

/-- What an entry of SPI does. -/
def State.spiEntry (s : State) (entry : List Byte) : State :=
  let a := s.arrive
  let u : State := { a.2 with ing := { a.2.ing with spi := a.2.ing.spi ++ [(entry, { upTo := 0, arr := s.clk.mt.toNat, seq := a.1 })] } }
  u.setFld Reg.ING_SPI_STAT 0 7 u.ing.spi.length

theorem State.spiEntry_arrives (s : State) (entry : List Byte) : s.spiEntry entry = s.spiArrives entry := by
  unfold State.spiEntry State.spiArrives
  dsimp only [State.arrive]
  rw [List.length_append]
  rfl

theorem onlyRegs_setFld (s : State) (a lo w n : Nat) : OnlyRegs s (s.setFld a lo w n) [a] := onlyRegs_setReg s a _

theorem State.spiArrives_spec (s : State) (entry : List Byte) (room : s.ing.spi.length < 64) :
    let t := s.spiCounted.spiArrives entry
    t.ing = { s.ing with seq := s.ing.seq + 1, spi := s.ing.spi ++ [(entry, { upTo := 0, arr := s.clk.mt.toNat, seq := s.ing.seq })] } ∧
      t.fld Reg.ING_SPI_STAT 0 7 = s.ing.spi.length + 1 ∧ t = { s with regs := t.regs, pmu := t.pmu, ing := t.ing } ∧
      KeepsRegs s t [Reg.HSP_TXN_CNT, Reg.ING_SPI_STAT] := by
  obtain ⟨frame, -, kept⟩ := s.spiCounted_frame
  generalize s.spiCounted = c at frame kept
  intro t
  have queued : c.spiQueued entry = { s with regs := c.regs, pmu := c.pmu, ing := (s.spiQueued entry).ing } := by
    rw [State.spiQueued, frame, State.spiQueued]
  have same : ∀ a, (c.spiQueued entry).reg a = c.reg a := fun _ => rfl
  have fld := State.fld_setFld_same (c.spiQueued entry) Reg.ING_SPI_STAT (c.ing.spi.length + 1) (show 0 + 7 ≤ 32 by decide)
  have only := onlyRegs_setFld (c.spiQueued entry) Reg.ING_SPI_STAT 0 7 (c.ing.spi.length + 1)
  have length : c.ing.spi.length = s.ing.spi.length := by rw [frame]
  dsimp only [t, State.spiArrives]
  generalize c.spiQueued entry = q at fld only queued same
  generalize q.setFld Reg.ING_SPI_STAT 0 7 (c.ing.spi.length + 1) = u at fld only
  obtain ⟨self, stay⟩ := only
  refine ⟨?_, ?_, ?_, fun a ha => ?_⟩
  · rw [self, queued, State.spiQueued]
  · rw [fld, length]
    omega
  · rw [self, queued]
  · simp only [List.mem_cons, List.not_mem_nil, or_false, not_or] at ha
    exact (stay a (by simpa using ha.2)).trans ((same a).trans (kept a (by simpa using ha.1)))

/-- Settles O51: what a transaction does is settled by its state, then by its clocks; each command has its own effect on the counted state. -/
theorem spiTransactions : Obligations.SpiTransactions := by
  unfold Obligations.SpiTransactions
  intro s off words n entry k cmd
  have full : ∀ {c g : Nat} {refuse good : Bool} {act : State → State}, s.serving = true → s.pwr.vioA = true → refuse = true →
      SpiRefused s (s.spiRun c g refuse good act) := fun on supplied refused => by
    rw [refused, State.spiRun_refused on supplied]
    exact s.spiRefuse_refused
  have unframed : ∀ {c : Nat} {act : State → State} {refuse good : Bool}, s.serving = true → s.pwr.vioA = true →
      s.bit (Reg.PAGE_ERR_INJ Page.hsp) 30 = false → refuse = false → good = false → c < 256 →
      SpiUnframed s (s.spiRun c k.toNat refuse good act) c k.toNat := fun on supplied unarmed free bad hc => by
    rw [free, State.spiRun_runs on supplied unarmed, bad, if_neg Bool.false_ne_true]
    exact s.spiFrameError_unframed hc k.isLt
  have performed : ∀ {c g : Nat} {act : State → State} {refuse good : Bool} {P : State → Prop}, s.serving = true → s.pwr.vioA = true →
      s.bit (Reg.PAGE_ERR_INJ Page.hsp) 30 = false → refuse = false → good = true → P (act s.spiCounted) →
      P (s.spiRun c g refuse good act) := fun on supplied unarmed free fine holds => by
    rw [free, State.spiRun_runs on supplied unarmed, fine, if_pos rfl]
    exact holds
  refine ⟨fun off => ⟨⟨⟨_, rfl, State.spiRun_off off⟩, ⟨_, rfl, State.spiRun_off off⟩, ⟨_, rfl, State.spiRun_off off⟩,
      ⟨_, rfl, State.spiRun_off off⟩⟩, ⟨_, rfl, State.spiRun_off off⟩⟩,
    fun on supplied busy => ⟨⟨_, rfl, full on supplied busy⟩, ⟨_, rfl, full on supplied busy⟩, ⟨_, rfl, full on supplied busy⟩,
      ⟨_, rfl, full on supplied (by rw [busy, Bool.true_or])⟩⟩,
    fun ⟨on, supplied, free, unarmed⟩ => ⟨fun some few exact_ => ⟨_, rfl, ?write⟩, fun exact_ => ⟨_, rfl, ?read⟩, fun exact_ => ⟨_, rfl, ?data⟩,
      fun exact_ clocks open_ => ⟨_, rfl, ?event⟩, fun closed => ⟨_, rfl, ?shut⟩, fun wrong => ⟨_, rfl, unframed on supplied unarmed free ?badWrite (by decide)⟩,
      fun wrong => ⟨_, rfl, unframed on supplied unarmed free ?badRead (by decide)⟩,
      fun wrong => ⟨_, rfl, unframed on supplied unarmed free ?badData (by decide)⟩,
      fun wrong open_ => ⟨_, rfl, unframed on supplied unarmed ?free ?badEvent (by decide)⟩,
      fun unknown => ⟨_, if_neg unknown, unframed on supplied unarmed free rfl cmd.isLt⟩⟩,
    fun on supplied unarmed => ⟨⟨_, rfl, ?status⟩, fun wrong => ⟨_, rfl, unframed on supplied unarmed rfl ?badStatus (by decide)⟩⟩,
    ⟨_, rfl, rfl⟩⟩
  case write =>
    have good : (decide (1 ≤ words.length) && decide (words.length ≤ 64) && decide (k.toNat = 14 + 8 * words.length)) = true := by
      simp [some, few, exact_]
    exact performed on supplied unarmed free good rfl
  case read =>
    have good : decide (k.toNat = 16) = true := by simp [exact_]
    exact performed on supplied unarmed free good (s.spiRdreq_reads off n)
  case data =>
    have answer := s.spiReturn_answered (s.net.spi.words.map spiWord).flatten
    exact performed (P := fun t => SpiAnswered s t (s.net.spi.words.map spiWord).flatten)
      (act := fun t => t.spiReturn (t.net.spi.words.map spiWord).flatten) on supplied unarmed free (decide_eq_true exact_) answer
  case event =>
    have room : s.ing.spi.length < 64 := by
      rw [State.hbusy, Bool.or_eq_false_iff, decide_eq_false_iff_not] at free
      omega
    have good : (decide (entry.length = 32) && decide (k.toNat = 72)) = true := by simp [exact_, clocks]
    have free' : (s.hbusy || !s.pageOn Page.hsp) = false := by simp [free, open_]
    have spec := s.spiArrives_spec entry room
    rw [← State.spiEntry_arrives] at spec
    exact performed (act := fun t => t.spiEntry entry) on supplied unarmed free' good spec
  case shut =>
    have refused := full (c := 0x10) (g := k.toNat) (refuse := s.hbusy || !s.pageOn Page.hsp)
      (good := decide (entry.length = 32) && decide (k.toNat = 72)) (act := fun t => t.spiEntry entry) on supplied (by rw [closed]; simp)
    exact refused.ing
  case badWrite =>
    simp only [Bool.and_eq_false_iff, decide_eq_false_iff_not]
    omega
  case badRead =>
    exact decide_eq_false fun e => wrong (BitVec.eq_of_toNat_eq e)
  case badData => exact decide_eq_false wrong
  case free => simp [free, open_]
  case badEvent =>
    simp only [Bool.and_eq_false_iff, decide_eq_false_iff_not]
    exact wrong.imp_right fun other e => other (BitVec.eq_of_toNat_eq e)
  case status => exact performed (P := fun t => SpiAnswered s t []) (act := fun t => t.spiReturn []) on supplied unarmed rfl rfl (s.spiReturn_answered [])
  case badStatus =>
    exact decide_eq_false fun e => wrong (BitVec.eq_of_toNat_eq e)

end Sys2Proof.Machine
end

section
/-! PROOFS. Spans of a quiet Concourse and of quiet Sample Memory, as port B masters read and write them. -/

namespace Sys2Proof.Machine

/-! ### Spans of the Concourse -/

theorem State.conWriteSpan_nil (s : State) (m a : Nat) (meet : List (Nat × Access)) (fuel : Nat) :
    s.conWriteSpan m a [] meet fuel = (s, false, false) := by
  cases fuel <;> rfl

/-- What a span is written, when nothing is met, stands in the Concourse. -/
theorem State.conWriteSpan_quiet (m fuel : Nat) {s : State} (q : s.conQuiet) {a : Nat} {data : List Byte} (enough : data.length ≤ fuel) :
    Wrote s (s.conWriteSpan m a data [] fuel).1 a data := by
  induction fuel generalizing s a data with
  | zero =>
    rw [List.length_eq_zero_iff.1 (Nat.le_zero.1 enough)]
    exact Wrote.nil q a
  | succ fuel ih =>
    rw [State.conWriteSpan]
    by_cases empty : data.isEmpty
    · rw [if_pos empty, List.isEmpty_iff.1 empty]
      exact Wrote.nil q a
    · rw [if_neg empty]
      dsimp only
      have quiet : accessAt [] (a / 16) = Access.quiet := rfl
      rw [quiet]
      have first := (State.conWriteWord_quiet q m .bulk a (data.take (16 - a % 16))).2
      by_cases short : data.length ≤ 16 - a % 16
      · rw [List.take_of_length_le short] at first ⊢
        rw [List.drop_of_length_le short, State.conWriteSpan_nil]
        exact first
      · have rest := ih first.quiet (a := a + (16 - a % 16)) (data := data.drop (16 - a % 16)) (by rw [List.length_drop]; omega)
        have whole := first.append (List.length_take_of_le (by omega)) rest
        rwa [List.take_append_drop] at whole

theorem State.conBytes_append (s : State) (a k n : Nat) : s.conBytes a (k + n) = s.conBytes a k ++ s.conBytes (a + k) n := by
  unfold State.conBytes
  rw [List.range_add, List.map_append, List.map_map]
  congr 1
  exact List.map_congr_left fun i _ => by rw [Function.comp_apply, Nat.add_assoc]

theorem PmuOnly.conBytes {s t : State} (h : PmuOnly s t) (a n : Nat) : t.conBytes a n = s.conBytes a n := by
  unfold State.conBytes State.conByte
  rw [h.con]

theorem State.conClean_of_quiet {s : State} (q : s.conQuiet) (a : Nat) : s.conClean a := by
  obtain ⟨unarmed, idle, good⟩ := q
  refine ⟨unarmed, idle, ?_⟩
  rw [good]
  exact List.not_mem_nil

/-- A span is read as it stands, and only the accesses are counted. -/
theorem State.conReadSpan_quiet (m fuel : Nat) {s : State} (q : s.conQuiet) (a : Nat) {n : Nat} (enough : n ≤ fuel) :
    PmuOnly s (s.conReadSpan m a n [] fuel).1 ∧ (s.conReadSpan m a n [] fuel).2 = (s.conBytes a n).map some := by
  induction fuel generalizing s a n with
  | zero =>
    rw [Nat.le_zero.1 enough]
    exact ⟨.refl s, rfl⟩
  | succ fuel ih =>
    rw [State.conReadSpan]
    by_cases none_ : n = 0
    · rw [if_pos none_, none_]
      exact ⟨.refl s, rfl⟩
    · rw [if_neg none_]
      dsimp only
      have quiet : accessAt [] (a / 16) = Access.quiet := rfl
      rw [quiet, State.conReadWord_clean (State.conClean_of_quiet q a) m .bulk]
      dsimp only
      have counted : PmuOnly s (s.countPort m) := PmuOnly.count ..
      generalize s.countPort m = t at counted
      generalize hk : min n (16 - a % 16) = k
      obtain ⟨only, rest⟩ := ih (counted.quiet q) (a + k) (n := n - k) (by omega)
      refine ⟨counted.trans only, ?_⟩
      have all : k + (n - k) = n := by omega
      have length : (s.conBytes a k).length = k := by simp [State.conBytes]
      rw [rest, counted.conBytes, List.take_of_length_le (Nat.le_of_eq length), ← List.map_append, ← State.conBytes_append, all]

/-! ### Spans of Sample Memory -/

/-- `data` stands in Sample Memory at `a` after the accesses that lead from `s` to `t`, and nothing else changes but the counters. -/
structure DramPut (s t : State) (a : Nat) (data : List Byte) : Prop where
  rest : t = { s with dram := { s.dram with data := t.dram.data }, pmu := t.pmu }
  bytes : ∀ x, t.dramByte x = if x < a then s.dramByte x else (data[x - a]?).getD (s.dramByte x)

namespace DramPut

variable {s t u : State} {a : Nat} {data more : List Byte}

theorem nil (s : State) (a : Nat) : DramPut s s a [] := ⟨rfl, fun x => by simp⟩

theorem quiet (h : DramPut s t a data) (q : s.dramQuiet) : t.dramQuiet := by
  obtain ⟨unarmed, good⟩ := q
  have reg : ∀ x, t.reg x = s.reg x := fun x => by rw [State.reg, h.rest, State.reg]
  refine ⟨(State.bit_of_reg (reg _) 30).trans unarmed, ?_⟩
  rw [h.rest]
  exact good

theorem append (h : DramPut s t a data) {n : Nat} (len : data.length = n) (g : DramPut t u (a + n) more) : DramPut s u a (data ++ more) where
  rest := by rw [g.rest, h.rest]
  bytes x := by
    subst len
    rw [g.bytes, h.bytes]
    by_cases below : x < a
    · rw [if_pos below, if_pos (by omega), if_pos below]
    · rw [if_neg below, if_neg below]
      by_cases first : x < a + data.length
      · rw [if_pos first, List.getElem?_append_left (by omega)]
      · rw [if_neg first, List.getElem?_append_right (by omega), List.getElem?_eq_none (l := data) (by omega), Option.getD_none, Nat.sub_sub]

theorem keeps (h : DramPut s t a data) {x : Nat} (hx : x < a ∨ a + data.length ≤ x) : t.dramByte x = s.dramByte x := by
  rw [h.bytes]
  rcases hx with below | above
  · rw [if_pos below]
  · rw [if_neg (by omega), List.getElem?_eq_none (by omega), Option.getD_none]

theorem dramByte (h : DramPut s t a data) {i : Nat} (hi : i < data.length) : t.dramByte (a + i) = data[i] := by
  rw [h.bytes, if_neg (by omega), Nat.add_sub_cancel_left, List.getElem?_eq_getElem hi, Option.getD_some]

theorem after (h : DramPut t u a data) (counted : PmuOnly s t) : DramPut s u a data where
  rest := by rw [h.rest, counted]
  bytes x := by
    have same : t.dramByte x = s.dramByte x := by rw [State.dramByte, counted, State.dramByte]
    rw [h.bytes, same]

end DramPut

theorem State.putDram_put (data : List Byte) (s : State) (a : Nat) : DramPut s (s.putDram a data) a data := by
  induction data generalizing s a with
  | nil => exact .nil s a
  | cons b bs ih =>
    have first : DramPut s { s with dram := { s.dram with data := Sparse.put (fun _ => 0) s.dram.data a b } } a [b] := by
      refine ⟨rfl, fun x => ?_⟩
      unfold State.dramByte
      by_cases own : x = a
      · subst own
        simp [Sparse.get_put_same]
      · dsimp only
        rw [Sparse.get_put_other _ _ own]
        by_cases below : x < a
        · rw [if_pos below]
        · rw [if_neg below, List.getElem?_eq_none (by simp; omega), Option.getD_none]
    exact first.append rfl (ih _ (a + 1))

theorem PmuOnly.dramByte {s t : State} (h : PmuOnly s t) (x : Nat) : t.dramByte x = s.dramByte x := by rw [State.dramByte, h, State.dramByte]

theorem PmuOnly.lineBytes {s t : State} (h : PmuOnly s t) (line : Nat) : t.lineBytes line = s.lineBytes line := by
  unfold State.lineBytes
  exact List.map_congr_left fun i _ => h.dramByte _

theorem PmuOnly.dramQuiet {s t : State} (h : PmuOnly s t) (q : s.dramQuiet) : t.dramQuiet := by
  obtain ⟨unarmed, good⟩ := q
  refine ⟨(State.bit_of_reg (h.reg _) 30).trans unarmed, ?_⟩
  rw [h]
  exact good

theorem State.getElem?_lineBytes (s : State) (line : Nat) {i : Nat} (hi : i < 64) : (s.lineBytes line)[i]? = some (s.dramByte (64 * line + i)) := by
  unfold State.lineBytes
  rw [List.getElem?_map, List.getElem?_range hi, Option.map_some]

theorem State.length_lineBytes (s : State) (line : Nat) : (s.lineBytes line).length = 64 := by simp [State.lineBytes]

theorem State.readLine_quiet {s : State} (q : s.dramQuiet) (line : Nat) (scrub write : Bool) :
    s.readLine line 0 scrub write = (s.count 462 1, .good (s.lineBytes line)) :=
  State.readLine_clean (by rw [q.2]; exact List.not_mem_nil) q.1 scrub write

/-- A part of a line, in the place of what it held. -/
theorem State.putDram_patch (s : State) (a : Nat) (data : List Byte) (inside : a % 64 + data.length ≤ 64) :
    DramPut s (s.putDram (64 * (a / 64))
      ((s.lineBytes (a / 64)).take (a % 64) ++ data ++ (s.lineBytes (a / 64)).drop (a % 64 + data.length))) a data := by
  have put := s.putDram_put ((s.lineBytes (a / 64)).take (a % 64) ++ data ++ (s.lineBytes (a / 64)).drop (a % 64 + data.length)) (64 * (a / 64))
  refine ⟨put.rest, fun x => ?_⟩
  rw [put.bytes]
  have length := s.length_lineBytes (a / 64)
  have front : ((s.lineBytes (a / 64)).take (a % 64)).length = a % 64 := List.length_take_of_le (by omega)
  by_cases before : x < 64 * (a / 64)
  · rw [if_pos before, if_pos (by omega)]
  · rw [if_neg before]
    by_cases below : x < a
    · rw [if_pos below, List.append_assoc, List.getElem?_append_left (by omega), List.getElem?_take_of_lt (by omega),
        s.getElem?_lineBytes _ (by omega), Option.getD_some]
      congr 1
      omega
    · rw [if_neg below, List.append_assoc, List.getElem?_append_right (by omega), front]
      have place : x - 64 * (a / 64) - a % 64 = x - a := by omega
      rw [place]
      by_cases own : x - a < data.length
      · rw [List.getElem?_append_left own]
      · rw [List.getElem?_append_right (by omega), List.getElem?_drop, List.getElem?_eq_none (l := data) (by omega), Option.getD_none]
        by_cases within : x < 64 * (a / 64) + 64
        · rw [s.getElem?_lineBytes _ (by omega), Option.getD_some]
          congr 1
          omega
        · rw [List.getElem?_eq_none (by omega), Option.getD_none]

/-- A write inside one line of quiet Sample Memory. -/
theorem State.writeLine_quiet {s : State} (q : s.dramQuiet) (a : Nat) {data : List Byte} (inside : a % 64 + data.length ≤ 64) :
    DramPut s (s.writeLine a data 0) a data := by
  have counted : PmuOnly s (s.count 463 1) := PmuOnly.count ..
  unfold State.writeLine
  dsimp only
  generalize s.count 463 1 = t at counted
  have quiet := counted.dramQuiet q
  by_cases whole : data.length = 64 ∧ a % 64 = 0
  · rw [if_pos whole]
    have bad : t.dram.bad.filter (fun l => decide (l ≠ a / 64)) = t.dram.bad := by rw [quiet.2]; rfl
    rw [bad]
    exact (t.putDram_put data a).after counted
  · rw [if_neg whole, State.readLine_quiet quiet]
    dsimp only
    have read : PmuOnly t (t.count 462 1) := PmuOnly.count ..
    rw [← read.lineBytes]
    generalize t.count 462 1 = u at read
    exact (u.putDram_patch a data inside).after (counted.trans read)

theorem headD_zero {errs : List Nat} (h : ∀ e ∈ errs, e = 0) : errs.headD 0 = 0 := by
  cases errs with
  | nil => rfl
  | cons e es => exact h e List.mem_cons_self

theorem State.writeDram_nil (s : State) (a : Nat) (errs : List Nat) (fuel : Nat) : s.writeDram a [] errs fuel = s := by
  cases fuel <;> rfl

theorem State.writeDram_quiet (fuel : Nat) {s : State} (q : s.dramQuiet) {a : Nat} {data : List Byte} {errs : List Nat} (h : ∀ e ∈ errs, e = 0)
    (enough : data.length ≤ fuel) : DramPut s (s.writeDram a data errs fuel) a data := by
  induction fuel generalizing s a data errs with
  | zero =>
    rw [List.length_eq_zero_iff.1 (Nat.le_zero.1 enough)]
    exact .nil s a
  | succ fuel ih =>
    rw [State.writeDram]
    by_cases empty : data.isEmpty
    · rw [if_pos empty, List.isEmpty_iff.1 empty]
      exact .nil s a
    · rw [if_neg empty, headD_zero h]
      dsimp only
      have first := State.writeLine_quiet q a (data := data.take (64 - a % 64)) (by rw [List.length_take]; omega)
      by_cases short : data.length ≤ 64 - a % 64
      · rw [List.take_of_length_le short] at first ⊢
        rw [List.drop_of_length_le short, State.writeDram_nil]
        exact first
      · have rest := ih (first.quiet q) (a := a + (64 - a % 64)) (data := data.drop (64 - a % 64)) (errs := errs.tail)
          (fun e he => h e (List.mem_of_mem_tail he)) (by rw [List.length_drop]; omega)
        have whole := first.append (List.length_take_of_le (by omega)) rest
        rwa [List.take_append_drop] at whole

/-- Bytes of Sample Memory from `a`. -/
def State.dramBytes (s : State) (a n : Nat) : List Byte := (List.range n).map (fun i => s.dramByte (a + i))

theorem State.dramBytes_append (s : State) (a k n : Nat) : s.dramBytes a (k + n) = s.dramBytes a k ++ s.dramBytes (a + k) n := by
  unfold State.dramBytes
  rw [List.range_add, List.map_append, List.map_map]
  congr 1
  exact List.map_congr_left fun i _ => by rw [Function.comp_apply, Nat.add_assoc]

theorem PmuOnly.dramBytes {s t : State} (h : PmuOnly s t) (a n : Nat) : t.dramBytes a n = s.dramBytes a n :=
  List.map_congr_left fun _ _ => h.dramByte _

/-- The part of a line that a read takes. -/
theorem State.lineBytes_part (s : State) (a k : Nat) (inside : a % 64 + k ≤ 64) :
    ((s.lineBytes (a / 64)).drop (a % 64)).take k = s.dramBytes a k := by
  refine List.ext_getElem? fun i => ?_
  by_cases hi : i < k
  · rw [List.getElem?_take_of_lt hi, List.getElem?_drop, s.getElem?_lineBytes _ (by omega), State.dramBytes, List.getElem?_map,
      List.getElem?_range hi, Option.map_some]
    congr 2
    omega
  · rw [List.getElem?_eq_none (by rw [List.length_take, List.length_drop]; omega), List.getElem?_eq_none (by simp [State.dramBytes]; omega)]

theorem State.readDram_quiet (fuel : Nat) {s : State} (q : s.dramQuiet) (a : Nat) {n : Nat} {errs : List Nat} (h : ∀ e ∈ errs, e = 0)
    (enough : n ≤ fuel) :
    PmuOnly s (s.readDram a n errs fuel).1 ∧ (s.readDram a n errs fuel).2 = (s.dramBytes a n).map some := by
  induction fuel generalizing s a n errs with
  | zero =>
    rw [Nat.le_zero.1 enough]
    exact ⟨.refl s, rfl⟩
  | succ fuel ih =>
    rw [State.readDram]
    by_cases none_ : n = 0
    · rw [if_pos none_, none_]
      exact ⟨.refl s, rfl⟩
    · rw [if_neg none_, headD_zero h, State.readLine_quiet q]
      dsimp only
      have counted : PmuOnly s (s.count 462 1) := PmuOnly.count ..
      generalize s.count 462 1 = t at counted
      generalize hk : min n (64 - a % 64) = k
      obtain ⟨only, rest⟩ := ih (counted.dramQuiet q) (a + k) (n := n - k) (errs := errs.tail) (fun e he => h e (List.mem_of_mem_tail he)) (by omega)
      refine ⟨counted.trans only, ?_⟩
      have all : k + (n - k) = n := by omega
      rw [rest, counted.dramBytes, s.lineBytes_part a k (by omega), ← List.map_append, ← State.dramBytes_append, all]

theorem lineErrs_nil (a n : Nat) : ∀ e ∈ lineErrs [] a n, e = 0 := by
  intro e he
  obtain ⟨_, -, rfl⟩ := List.mem_map.1 he
  rfl

/-- A completion with every byte. -/
theorem State.complete_some (s : State) (d : List Byte) : s.complete (d.map some) = s.send (.bytes d) := by
  have whole : (d.map some).all Option.isSome = true := by simp
  have same : (d.map some).filterMap id = d := by simp [List.filterMap_map]
  rw [State.complete, if_pos whole, same]

end Sys2Proof.Machine
end

section
/-! PROOFS. The PCIe endpoint's windows, atomic operations and resets; the statement PcieAccesses. -/

namespace Sys2Proof.Machine

theorem Sparse.get_filter_key {α : Type} (dflt : Nat → α) (m : Map α) (p : Nat → Bool) (k : Nat) :
    Sparse.get dflt (m.filter (fun e => p e.1)) k = if p k then Sparse.get dflt m k else dflt k := by
  induction m with
  | nil => simp [Sparse.get]
  | cons e m ih =>
    obtain ⟨j, v⟩ := e
    by_cases keep : p j
    · rw [List.filter_cons_of_pos (p := fun e : Nat × α => p e.1) keep]
      by_cases own : j = k
      · subst own
        simp [Sparse.get, keep]
      · simp only [Sparse.get, own, if_false, ih]
    · rw [List.filter_cons_of_neg (p := fun e : Nat × α => p e.1) keep, ih]
      by_cases own : j = k
      · subst own
        simp [keep]
      · simp only [Sparse.get, own, if_false]

section Accesses

variable {s : State} {a : BitVec 25} {d : BitVec 32} {n : Fin 4097} {data : List Byte} {v : Word} {kind : AtomicKind} {bar2 wide : Bool}
  {reset : PcieReset} {gen width : Fin 4} {acc : Access}

/-! ### What the endpoint does not perform -/

theorem pcieIdle (down : s.serving = false) (wr : Option (List Byte)) : exec (.pcieConcourseAccess a wr n []) s = .next s ∧
    exec (.pcieSampleMemoryAccess d wr n []) s = .next s ∧ exec (.pcieAtomic kind bar2 wide a v acc) s = .next s ∧
    exec .pcieAerError s = .next s := ⟨if_pos down, if_pos down, if_pos down, if_pos down⟩

theorem pcieShut (up : s.serving = true) (shut : s.windowsShut = true) (wr : Option (List Byte)) :
    exec (.pcieConcourseAccess a wr n []) s = .next (s.send .completionUr) ∧
      exec (.pcieSampleMemoryAccess d wr n []) s = .next (s.send .completionUr) := by
  have serving : ¬ s.serving = false := by rw [up]; decide
  exact ⟨(if_neg serving).trans (if_pos shut), (if_neg serving).trans (if_pos (Or.inl shut))⟩

theorem pcieAerError_reports (up : s.serving = true) : Completes .pcieAerError s (fun t => t.bit (Reg.PAGE_IRQ_STAT Page.pci) 0 = true ∧
    Counted s t (Reg.PAGE_ERR_CNT Page.pci) ∧ Counted s t Reg.ERR_LOG_CNT ∧
    OnlyReports s t (Reg.PAGE_ERR_CNT Page.pci :: raiseRegs Page.pci ++ logRegs)) := by
  refine ⟨_, if_neg (by rw [up]; decide), ?_⟩
  have raised := onlyReports_raise s Page.pci 0
  have irq := s.bit_raise_same Page.pci (b := 0) (by decide)
  generalize s.raise Page.pci 0 = t at raised irq
  have erred := onlyReports_pageErr t Page.pci
  have counted := counted_bump t (Reg.PAGE_ERR_CNT Page.pci)
  change Counted t (t.pageErr Page.pci) _ at counted
  generalize t.pageErr Page.pci = u at erred counted
  have logged := onlyReports_logError u 0x1A00 0 0 false
  have logs := counted_logError u 0x1A00 0 0 false
  generalize u.logError 0x1A00 0 0 false = w at logged logs
  refine ⟨(State.bit_of_reg ((erred.trans logged).reg (by decide)) 0).trans irq,
    (counted.of_reg_eq (raised.reg (by decide))).of_reg_eq_after (logged.reg (by decide)),
    logs.of_reg_eq ((raised.trans erred).reg (by decide)), ((raised.trans erred).trans logged).mono fun x hx => ?_⟩
  simp only [List.mem_append, List.mem_cons, List.not_mem_nil, or_false] at hx ⊢
  tauto

/-! ### The windows -/

section Open

variable (up : s.serving = true) (open_ : s.windowsShut = false)
include up open_

theorem exec_pcieConcourseWrite : exec (.pcieConcourseAccess a (some data) n []) s =
    .next (s.conWriteSpan 44 (s.portAddr a.toNat) (data.take (2 ^ 25 - s.portAddr a.toNat)) []
      ((data.take (2 ^ 25 - s.portAddr a.toNat)).length + 1)).1 :=
  (if_neg (by rw [up]; decide)).trans (if_neg (by rw [open_]; decide))

theorem exec_pcieConcourseRead : exec (.pcieConcourseAccess a none n []) s =
    .next (let r := s.conReadSpan 44 (s.portAddr a.toNat) (min n.val (2 ^ 25 - s.portAddr a.toNat)) [] (n.val + 1)
      r.1.complete r.2) :=
  (if_neg (by rw [up]; decide)).trans (if_neg (by rw [open_]; decide))

theorem pcieConcourseWrite (q : s.conQuiet) (inside : s.portAddr a.toNat + data.length ≤ 2 ^ 25) :
    Completes (.pcieConcourseAccess a (some data) n []) s (fun t =>
      (∀ i, i < data.length → t.conByte (s.portAddr a.toNat + i) = ((data[i]?).getD 0)) ∧ KeepsCon s t (s.portAddr a.toNat) data.length ∧
      t = { s with con := t.con, ctl := t.ctl, pmu := t.pmu }) := by
  refine ⟨_, exec_pcieConcourseWrite up open_, ?_⟩
  dsimp only
  rw [List.take_of_length_le (by omega)]
  have wrote := State.conWriteSpan_quiet 44 (data.length + 1) q (a := s.portAddr a.toNat) (data := data) (Nat.le_succ _)
  refine ⟨fun i hi => ?_, wrote.keeps, wrote.rest⟩
  rw [wrote.conByte hi, List.getElem?_eq_getElem hi, Option.getD_some]

theorem pcieConcourseRead (q : s.conQuiet) (inside : s.portAddr a.toNat + n ≤ 2 ^ 25) :
    Completes (.pcieConcourseAccess a none n []) s (fun t =>
      t = { s.send (.bytes (s.conBytes (s.portAddr a.toNat) n)) with pmu := t.pmu }) := by
  refine ⟨_, exec_pcieConcourseRead up open_, ?_⟩
  have all : min n.val (2 ^ 25 - s.portAddr a.toNat) = n.val := by omega
  dsimp only
  rw [all]
  obtain ⟨only, bytes⟩ := State.conReadSpan_quiet 44 (n.val + 1) q (s.portAddr a.toNat) (n := n.val) (Nat.le_succ _)
  rw [bytes, State.complete_some]
  generalize (s.conReadSpan 44 (s.portAddr a.toNat) n.val [] (n.val + 1)).1 = t at only
  rw [only]
  rfl

omit up in
theorem sampleMemoryAnswers {len : Nat} (fits : d.toNat + max 1 len ≤ dramSize) :
    ¬ (s.windowsShut = true ∨ dramSize < d.toNat + max 1 len) := by
  rw [open_]
  simp only [Bool.false_eq_true, false_or, Nat.not_lt]
  exact fits

theorem exec_pcieSampleMemoryWrite (fits : d.toNat + max 1 data.length ≤ dramSize) : exec (.pcieSampleMemoryAccess d (some data) n []) s =
    .next (s.writeDram d.toNat data (lineErrs [] d.toNat data.length) (data.length + 1)) :=
  (if_neg (by rw [up]; decide)).trans (if_neg (sampleMemoryAnswers open_ fits))

theorem exec_pcieSampleMemoryRead (fits : d.toNat + max 1 n.val ≤ dramSize) : exec (.pcieSampleMemoryAccess d none n []) s =
    .next (let r := s.readDram d.toNat n.val (lineErrs [] d.toNat n.val) (n.val + 1)
      r.1.complete r.2) :=
  (if_neg (by rw [up]; decide)).trans (if_neg (sampleMemoryAnswers open_ fits))

theorem pcieSampleMemoryWrite (q : s.dramQuiet) (fits : d.toNat + max 1 data.length ≤ 0xE0000000) :
    Completes (.pcieSampleMemoryAccess d (some data) n []) s (fun t =>
      (∀ i, i < data.length → t.dramByte (d.toNat + i) = ((data[i]?).getD 0)) ∧
      (∀ x, x < d.toNat ∨ d.toNat + data.length ≤ x → t.dramByte x = s.dramByte x) ∧
      t = { s with dram := { s.dram with data := t.dram.data }, pmu := t.pmu }) := by
  refine ⟨_, exec_pcieSampleMemoryWrite up open_ fits, ?_⟩
  have put := State.writeDram_quiet (data.length + 1) q (a := d.toNat) (lineErrs_nil d.toNat data.length) (Nat.le_succ data.length)
  refine ⟨fun i hi => ?_, fun x => put.keeps, put.rest⟩
  rw [put.dramByte hi, List.getElem?_eq_getElem hi, Option.getD_some]

theorem pcieSampleMemoryRead (q : s.dramQuiet) (fits : d.toNat + max 1 n.val ≤ 0xE0000000) :
    Completes (.pcieSampleMemoryAccess d none n []) s (fun t =>
      t = { s.send (.bytes ((List.range n).map (fun i => s.dramByte (d.toNat + i)))) with pmu := t.pmu }) := by
  refine ⟨_, exec_pcieSampleMemoryRead up open_ fits, ?_⟩
  obtain ⟨only, bytes⟩ := State.readDram_quiet (n.val + 1) q d.toNat (lineErrs_nil d.toNat n.val) (Nat.le_succ n.val)
  dsimp only
  rw [bytes, State.complete_some]
  generalize (s.readDram d.toNat n.val (lineErrs [] d.toNat n.val) (n.val + 1)).1 = t at only
  rw [only]
  rfl

omit open_ in
theorem pcieSampleMemoryOutside (outside : ¬ d.toNat + max 1 n.val ≤ 0xE0000000) :
    Completes (.pcieSampleMemoryAccess d none n []) s (fun t => t = s.send .completionUr) := by
  have serving : ¬ s.serving = false := by rw [up]; decide
  exact ⟨_, (if_neg serving).trans (if_pos (Or.inr (Nat.not_le.1 outside))), rfl⟩

/-! ### Atomic operations -/

omit open_ in
theorem pcieAtomic_refused (refused : bar2 = false ∨ wide = true ∨ kind = .compareSwap ∨ a.toNat % 4 ≠ 0 ∨ s.granule a.toNat % 4 ≠ 2) :
    Completes (.pcieAtomic kind bar2 wide a v acc) s (fun t => t = s.send .completionUr) := by
  have serving : ¬ s.serving = false := by rw [up]; decide
  refine ⟨_, (if_neg serving).trans (if_pos ?_), rfl⟩
  rw [State.atomicGranule, decide_eq_false_iff_not]
  exact Or.inr refused

end Open

end Accesses

theorem Wrote.counted {s t u : State} {a : Nat} {data : List Byte} (h : Wrote s t a data) (more : PmuOnly t u) : Wrote s u a data where
  rest := by rw [more, h.rest]
  quiet := more.quiet h.quiet
  bytes x := by rw [State.conByte_congr more.con, h.bytes]

/-- The word after an atomic operation. -/
theorem State.atomic_quiet {s : State} (q : s.conQuiet) (m a : Nat) (add : Bool) (v : Word) :
    (s.atomic m a add v Access.quiet).2 = (some (s.conWord a), false) ∧
      Wrote s (s.atomic m a add v Access.quiet).1 a (leBytes 4 (if add then s.conWord a + v else v).toNat) := by
  obtain ⟨done, wrote⟩ := State.conWriteWord_quiet q m .bulk a (leBytes 4 (if add then s.conWord a + v else v).toNat)
  unfold State.atomic
  dsimp only
  generalize s.conWriteWord m .bulk a (leBytes 4 (if add then s.conWord a + v else v).toNat) Access.quiet = r at done wrote ⊢
  rw [done]
  exact ⟨rfl, wrote.counted (PmuOnly.count ..)⟩

theorem Wrote.word {s t : State} {a : Nat} {w : Word} (h : Wrote s t a (leBytes 4 w.toNat)) : t.conWord a = w := by
  refine State.conWord_of_bytes fun j hj => ?_
  rw [h.conByte (by rw [length_leBytes]; exact hj), List.getElem?_eq_getElem (by rw [length_leBytes]; exact hj), Option.getD_some]

theorem pcieAtomic_performed {s : State} {a : BitVec 25} {v : Word} {kind : AtomicKind} {bar2 wide : Bool} (up : s.serving = true)
    (open_ : s.windowsShut = false)
    (allowed : ¬ (bar2 = false ∨ wide = true ∨ kind = .compareSwap ∨ a.toNat % 4 ≠ 0 ∨ s.granule a.toNat % 4 ≠ 2)) (q : s.conQuiet) :
    Completes (.pcieAtomic kind bar2 wide a v Access.quiet) s (fun t =>
      t.conWord a.toNat = (if kind = .fetchAdd then s.conWord a.toNat + v else v) ∧ KeepsCon s t a.toNat 4 ∧
      t.out = (s.send (.bytes (leBytes 4 (s.conWord a.toNat).toNat))).out ∧
      t = { s with con := t.con, ctl := t.ctl, pmu := t.pmu, out := t.out }) := by
  have pass : ¬ (s.windowsShut = true ∨ bar2 = false ∨ wide = true ∨ kind = .compareSwap ∨ a.toNat % 4 ≠ 0 ∨ s.atomicGranule a.toNat = false) := by
    rw [open_, State.atomicGranule, decide_eq_false_iff_not, or_iff_right Bool.false_ne_true]
    exact allowed
  obtain ⟨old, wrote⟩ := State.atomic_quiet q 44 a.toNat (decide (kind = .fetchAdd)) v
  have run : exec (.pcieAtomic kind bar2 wide a v Access.quiet) s =
      .next (match (s.atomic 44 a.toNat (decide (kind = .fetchAdd)) v Access.quiet).2.1 with
        | some old => (s.atomic 44 a.toNat (decide (kind = .fetchAdd)) v Access.quiet).1.send (.bytes (leBytes 4 old.toNat))
        | none => (s.atomic 44 a.toNat (decide (kind = .fetchAdd)) v Access.quiet).1.send .poisoned) :=
    (if_neg (by rw [up]; decide)).trans (if_neg pass)
  rw [old] at run
  refine ⟨_, run, ?_⟩
  dsimp only
  simp only [decide_eq_true_eq] at wrote
  generalize (s.atomic 44 a.toNat (decide (kind = .fetchAdd)) v Access.quiet).1 = t at wrote
  refine ⟨wrote.word, wrote.keeps, ?_, ?_⟩
  · rw [wrote.rest]
    rfl
  · rw [wrote.rest]
    rfl

/-! ### Resets -/

/-- The PCI page after a reset of the endpoint, but for the link. -/
def State.pciCleared (s : State) : State :=
  { s with
    regs := s.regs.filter (fun e => decide (e.1 / 0x1000 ≠ Page.pci))
    deferred := s.deferred.filter (fun p => decide (p ≠ Page.pci))
    net := { s.net with hso := [] } }

theorem State.reg_pciCleared (s : State) (x : Nat) : s.pciCleared.reg x = if x / 0x1000 = Page.pci then regReset x else s.reg x := by
  refine (Sparse.get_filter_key regReset s.regs (fun k => decide (k / 0x1000 ≠ Page.pci)) x).trans ?_
  by_cases own : x / 0x1000 = Page.pci
  · rw [if_pos own, if_neg (by simpa using own)]
  · rw [if_neg own, if_pos (by simpa using own)]
    rfl

theorem pcieReset_spec (s : State) (reset : PcieReset) (gen width : Fin 4) : Completes (.pcieReset reset gen width) s (fun t =>
    t.fld Reg.PCI_STAT 0 8 = (if reset = .functionLevel then s.fld Reg.PCI_STAT 0 8 else gen.val + 16 * width.val) ∧
    (∀ x, x ≠ Reg.PCI_STAT → t.reg x = if x / 0x1000 = Page.pci then regReset x else s.reg x) ∧
    t = { s with regs := t.regs, deferred := s.deferred.filter (fun p => decide (p ≠ Page.pci)), net := { s.net with hso := [] } }) := by
  have run : exec (.pcieReset reset gen width) s = .next (s.pciCleared.setFld Reg.PCI_STAT 0 8
      (if reset = .functionLevel then s.fld Reg.PCI_STAT 0 8 else gen.val + 16 * width.val)) := rfl
  refine ⟨_, run, ?_⟩
  have frame : s.pciCleared = { s with
    regs := s.pciCleared.regs
    deferred := s.deferred.filter (fun p => decide (p ≠ Page.pci))
    net := { s.net with hso := [] } } := rfl
  have regs := s.reg_pciCleared
  have link : s.fld Reg.PCI_STAT 0 8 < 2 ^ 8 := s.fld_lt ..
  generalize s.pciCleared = t at frame regs
  have only := onlyRegs_setFld t Reg.PCI_STAT 0 8 (if reset = .functionLevel then s.fld Reg.PCI_STAT 0 8 else gen.val + 16 * width.val)
  refine ⟨?_, fun x hx => (only.2 x (by simpa using hx)).trans (regs x), ?_⟩
  · refine (State.fld_setFld_same t Reg.PCI_STAT _ (by decide)).trans (Nat.mod_eq_of_lt ?_)
    split <;> omega
  · rw [only.1, frame]

/-- Settles O49: nothing is performed with the endpoint down, windows that standby closes answer UR, and an access to quiet memories is done as
it stands. -/
theorem pcieAccesses : Obligations.PcieAccesses := by
  unfold Obligations.PcieAccesses
  intro s a d n data v kind bar2 wide reset gen width
  refine ⟨fun down => ?_, fun up shut => ⟨⟨_, (pcieShut (d := d) up shut none).1, rfl⟩, ⟨_, (pcieShut (a := a) up shut none).2, rfl⟩⟩, pcieAerError_reports,
    fun up open_ => ⟨fun q _ inside => pcieConcourseWrite up open_ q inside, fun q inside => pcieConcourseRead up open_ q inside,
      pcieSampleMemoryWrite up open_, pcieSampleMemoryRead up open_, pcieSampleMemoryOutside up, pcieAtomic_refused up,
      pcieAtomic_performed up open_⟩, pcieReset_spec s reset gen width⟩
  obtain ⟨read, sample, atomic, aer⟩ := pcieIdle (a := a) (d := d) (n := n) (v := v) (kind := kind) (bar2 := bar2) (wide := wide)
    (acc := Access.quiet) down none
  obtain ⟨write, sampleWrite, -, -⟩ := pcieIdle (a := a) (d := d) (n := n) (v := v) (kind := kind) (bar2 := bar2) (wide := wide)
    (acc := Access.quiet) down (some data)
  exact ⟨⟨_, write, rfl⟩, ⟨_, read, rfl⟩, ⟨_, sampleWrite, rfl⟩, ⟨_, sample, rfl⟩, ⟨_, atomic, rfl⟩, ⟨_, aer, rfl⟩⟩

end Sys2Proof.Machine
end

section
/-! PROOFS. The configuration of audio streams: one rule for the CFG register of a stream, one for the others (R329, R330). -/

namespace Sys2Proof.Machine

theorem fieldOf_one_or (v : Word) (i : Nat) : fieldOf v i 1 = 0 ∨ fieldOf v i 1 = 1 := by
  rw [fieldOf_one_eq_testBit]
  cases v.toNat.testBit i <;> simp

/-- Two one-bit fields are the same when they are set alike. -/
theorem decide_one_eq_iff (v w : Word) (i : Nat) : decide (fieldOf v i 1 = 1) = decide (fieldOf w i 1 = 1) ↔ fieldOf v i 1 = fieldOf w i 1 := by
  rw [decide_eq_decide]
  rcases fieldOf_one_or v i with hv | hv <;> rcases fieldOf_one_or w i with hw | hw <;> simp [hv, hw]

theorem State.strmRefuse_refused (s : State) : Refused s s.strmRefuse Reg.STRM_STAT 31 Page.strm :=
  s.refused_of_flag (by decide) (by decide) (by decide)

theorem State.rx_setRx (s : State) (k : Nat) (x : RxStream) : (s.setRx k x).rx k = x := by
  unfold State.rx State.setRx
  exact Sparse.get_put_same _ _ _

theorem State.tx_setTx (s : State) (k : Nat) (x : TxStream) : (s.setTx k x).tx k = x := by
  unfold State.tx State.setTx
  exact Sparse.get_put_same _ _ _

/-- Whether two configurations agree but for EN. -/
def SameButEn (new old : Word) : Prop := setFieldOf new 31 1 0 = setFieldOf old 31 1 0

section Rules

variable {s : State} {k off cfg : Nat} {v : Word} {r : RegRow} {old : Word}

/-! ### CFG of a receive stream -/

theorem actRxCfg_enabled (on : fieldOf old 31 1 = 1) (changes : ¬ SameButEn (r.store old v) old) : actRxCfg k s r old v = s.strmRefuse :=
  if_pos ⟨decide_eq_true on, by rw [decide_eq_true_eq]; exact changes⟩

theorem actRxCfg_unfit (unfit : s.rxFits k (r.store old v) = false) (on : fieldOf (r.store old v) 31 1 = 1) :
    actRxCfg k s r old v = s.strmRefuse := by
  have other : ¬ (decide (setFieldOf (r.store old v) 31 1 0 = setFieldOf old 31 1 0) = true ∧ fieldOf (r.store old v) 31 1 = 0) :=
    fun h => by rw [on] at h; exact absurd h.2 (by decide)
  unfold actRxCfg
  dsimp only
  rw [if_pos (c := _ ∧ s.rxFits k (r.store old v) = false) ⟨other, unfit⟩, ite_self]

/-- A receive stream has another configuration, and starts anew when EN changes. -/
def State.rxConfigured (s : State) (k : Nat) (old new : Word) : State :=
  let t := s.setReg (Reg.STRM_RX_CFG k) new
  if fieldOf old 31 1 = fieldOf new 31 1 then t else t.setRx k RxStream.reset

theorem actRxCfg_fits (fits : s.rxFits k (r.store old v) = true) (free : fieldOf old 31 1 ≠ 1 ∨ SameButEn (r.store old v) old) :
    actRxCfg k s r old v = s.rxConfigured k old (r.store old v) := by
  have pass : ¬ (decide (fieldOf old 31 1 = 1) = true ∧ ¬ decide (setFieldOf (r.store old v) 31 1 0 = setFieldOf old 31 1 0) = true) := by
    simp only [decide_eq_true_eq, not_and, not_not]
    exact fun on => free.resolve_left fun off => off on
  unfold actRxCfg State.rxConfigured
  dsimp only
  rw [if_neg pass, if_neg (by rw [fits]; simp)]
  simp only [decide_one_eq_iff]

theorem State.rxConfigured_spec (s : State) (k : Nat) (old new : Word) :
    (s.rxConfigured k old new).reg (Reg.STRM_RX_CFG k) = new ∧
      (fieldOf new 31 1 ≠ fieldOf old 31 1 → (s.rxConfigured k old new).rx k = RxStream.reset) ∧
      (let t := s.rxConfigured k old new
       t = { s with regs := t.regs, net := t.net, draws := t.draws } ∧ KeepsRegs s t [Reg.STRM_RX_CFG k]) := by
  have only := onlyRegs_setReg s (Reg.STRM_RX_CFG k) new
  have holds := s.reg_setReg_same (Reg.STRM_RX_CFG k) new
  unfold State.rxConfigured
  dsimp only
  generalize s.setReg (Reg.STRM_RX_CFG k) new = t at only holds
  by_cases same : fieldOf old 31 1 = fieldOf new 31 1
  · rw [if_pos same]
    exact ⟨holds, fun other => absurd same.symm other, by rw [only.1], only.2⟩
  · rw [if_neg same]
    refine ⟨holds, fun _ => State.rx_setRx t k _, ?_, fun a ha => only.2 a ha⟩
    unfold State.setRx
    rw [only.1]

/-! ### CFG of a transmit stream -/

theorem actTxCfg_enabled (on : fieldOf old 31 1 = 1) (changes : ¬ SameButEn (r.store old v) old) : actTxCfg k s r old v = s.strmRefuse :=
  if_pos ⟨decide_eq_true on, by rw [decide_eq_true_eq]; exact changes⟩

theorem actTxCfg_unfit (unfit : s.txFits k (r.store old v) = false) (on : fieldOf (r.store old v) 31 1 = 1) :
    actTxCfg k s r old v = s.strmRefuse := by
  have other : ¬ (decide (setFieldOf (r.store old v) 31 1 0 = setFieldOf old 31 1 0) = true ∧ fieldOf (r.store old v) 31 1 = 0) :=
    fun h => by rw [on] at h; exact absurd h.2 (by decide)
  unfold actTxCfg
  dsimp only
  rw [if_pos (c := _ ∧ s.txFits k (r.store old v) = false) ⟨other, unfit⟩, ite_self]

/-- A transmit stream has another configuration, and starts anew, at a free sequence number, when EN changes. -/
def State.txConfigured (s : State) (k : Nat) (old new : Word) : State :=
  let t := s.setReg (Reg.STRM_TX_CFG k) new
  if fieldOf old 31 1 = fieldOf new 31 1 then t
  else
    let d := t.draw 16
    d.2.setTx k { TxStream.reset with seq := d.1 }

theorem actTxCfg_fits (fits : s.txFits k (r.store old v) = true) (free : fieldOf old 31 1 ≠ 1 ∨ SameButEn (r.store old v) old) :
    actTxCfg k s r old v = s.txConfigured k old (r.store old v) := by
  have pass : ¬ (decide (fieldOf old 31 1 = 1) = true ∧ ¬ decide (setFieldOf (r.store old v) 31 1 0 = setFieldOf old 31 1 0) = true) := by
    simp only [decide_eq_true_eq, not_and, not_not]
    exact fun on => free.resolve_left fun off => off on
  unfold actTxCfg State.txConfigured
  dsimp only
  rw [if_neg pass, if_neg (by rw [fits]; simp)]
  simp only [decide_one_eq_iff]

theorem State.txConfigured_spec (s : State) (k : Nat) (old new : Word) :
    (s.txConfigured k old new).reg (Reg.STRM_TX_CFG k) = new ∧
      (fieldOf new 31 1 ≠ fieldOf old 31 1 →
        ((s.txConfigured k old new).tx k).ready = [] ∧ ((s.txConfigured k old new).tx k).start = none) ∧
      (let t := s.txConfigured k old new
       t = { s with regs := t.regs, net := t.net, draws := t.draws } ∧ KeepsRegs s t [Reg.STRM_TX_CFG k]) := by
  have only := onlyRegs_setReg s (Reg.STRM_TX_CFG k) new
  have holds := s.reg_setReg_same (Reg.STRM_TX_CFG k) new
  unfold State.txConfigured
  dsimp only
  generalize s.setReg (Reg.STRM_TX_CFG k) new = t at only holds
  by_cases same : fieldOf old 31 1 = fieldOf new 31 1
  · rw [if_pos same]
    exact ⟨holds, fun other => absurd same.symm other, by rw [only.1], only.2⟩
  · rw [if_neg same]
    have set : ∀ x : TxStream, ((t.draw 16).2.setTx k x).tx k = x := fun x => State.tx_setTx _ k x
    refine ⟨holds, fun _ => ?_, ?_, fun a ha => only.2 a ha⟩
    · rw [set]
      exact ⟨rfl, rfl⟩
    · unfold State.setTx State.draw
      rw [only.1]

/-! ### The other registers -/

theorem actStreamReg_enabled (on : s.bit cfg 31 = true) (changes : r.store old v ≠ old) : actStreamReg cfg off s r old v = s.strmRefuse :=
  if_pos ⟨on, changes⟩

theorem actStreamReg_idle (idle : s.bit cfg 31 = false) : actStreamReg cfg off s r old v = s.setReg off (r.store old v) :=
  if_neg fun h => by rw [idle] at h; exact Bool.false_ne_true h.1

end Rules

/-! ### The registers of the page -/

section Config

variable {s : State} {path : Path} {o : Fin 0x600} {v : Word}

theorem exec_streamConfigWrite (opens : s.writable (0x18100 + o.val) = true) : exec (.streamConfigWrite path o v) s =
    .next (strmAct (0x18100 + o.val) s (rowAt (0x18100 + o.val)) (s.reg (0x18100 + o.val)) v) :=
  congrArg Host.Outcome.next (State.hostWrite_of_writable opens)

theorem strmAct_rx (rx : o.val < 0x200) : strmAct (0x18100 + o.val) =
    if o.val % 16 = 0 then actRxCfg (o.val / 16) else actStreamReg (Reg.STRM_RX_CFG (o.val / 16)) (0x18100 + o.val) := by
  unfold strmAct
  have place : 0x18100 + o.val - 0x18000 = 0x100 + o.val := by omega
  have base : 0x100 + o.val - 0x100 = o.val := Nat.add_sub_cancel_left ..
  have rem : (0x100 + o.val) % 16 = o.val % 16 := by omega
  dsimp only
  have inside : 0x100 ≤ 0x100 + o.val ∧ 0x100 + o.val < 0x300 := by omega
  simp only [place, inside, and_self, if_true, base, rem]

theorem strmAct_tx (tx : ¬ o.val < 0x200) : strmAct (0x18100 + o.val) =
    if o.val % 32 = 0 then actTxCfg ((o.val - 0x200) / 32) else actStreamReg (Reg.STRM_TX_CFG ((o.val - 0x200) / 32)) (0x18100 + o.val) := by
  unfold strmAct
  have place : 0x18100 + o.val - 0x18000 = 0x100 + o.val := by omega
  have base : 0x100 + o.val - 0x300 = o.val - 0x200 := Nat.add_sub_add_left 0x100 o.val 0x200
  have rem : (0x100 + o.val) % 32 = o.val % 32 := by omega
  dsimp only
  have outside : ¬ (0x100 ≤ 0x100 + o.val ∧ 0x100 + o.val < 0x300) := by omega
  have inside : 0x300 ≤ 0x100 + o.val ∧ 0x100 + o.val < 0x700 := by omega
  simp only [place, outside, inside, and_self, if_true, if_false, base, rem]

/-- What a write of a receive stream's register does. -/
theorem rxConfigWrite (rx : o.val < 0x200) (opens : s.writable (0x18100 + o.val) = true) :
    let off := 0x18100 + o.val
    let k := o.val / 16
    let new := s.stored off v
    let run := fun (P : State → Prop) => Completes (.streamConfigWrite path o v) s P
    let refused := fun (t : State) => Refused s t Reg.STRM_STAT 31 Page.strm
    (¬ o.val % 16 = 0 → s.bit (Reg.STRM_RX_CFG k) 31 = true → new ≠ s.reg off → run refused) ∧
    (¬ o.val % 16 = 0 → s.bit (Reg.STRM_RX_CFG k) 31 = false → Stores (.streamConfigWrite path o v) s off v) ∧
    (o.val % 16 = 0 → s.bit off 31 = true → ¬ SameButEn new (s.reg off) → run refused) ∧
    (o.val % 16 = 0 → s.rxFits k new = false → fieldOf new 31 1 = 1 → run refused) ∧
    (o.val % 16 = 0 → s.rxFits k new = true → s.bit off 31 = false ∨ SameButEn new (s.reg off) → run (fun t => t.reg off = new ∧
      (fieldOf new 31 1 ≠ fieldOf (s.reg off) 31 1 → t.rx k = RxStream.reset) ∧
      t = { s with regs := t.regs, net := t.net, draws := t.draws } ∧ KeepsRegs s t [off])) := by
  intro off k new run refused
  have exec_ := exec_streamConfigWrite (path := path) (v := v) opens
  rw [strmAct_rx rx] at exec_
  refine ⟨fun reg on changes => ?_, fun reg idle => ?_, fun cfg on changes => ?_, fun cfg unfit on => ?_, fun cfg fits free => ?_⟩
  · rw [if_neg reg] at exec_
    exact ⟨_, exec_.trans (congrArg _ (actStreamReg_enabled on changes)), s.strmRefuse_refused⟩
  · rw [if_neg reg] at exec_
    exact stores_of_exec (exec_.trans (congrArg _ (actStreamReg_idle idle)))
  · rw [if_pos cfg] at exec_
    exact ⟨_, exec_.trans (congrArg _ (actRxCfg_enabled (of_decide_eq_true on) changes)), s.strmRefuse_refused⟩
  · rw [if_pos cfg] at exec_
    exact ⟨_, exec_.trans (congrArg _ (actRxCfg_unfit unfit on)), s.strmRefuse_refused⟩
  · rw [if_pos cfg] at exec_
    have own : Reg.STRM_RX_CFG k = off := by
      dsimp only [Reg.STRM_RX_CFG, k, off]
      omega
    have spec := s.rxConfigured_spec k (s.reg off) new
    rw [own] at spec
    exact ⟨_, exec_.trans (congrArg _ (actRxCfg_fits fits (free.imp_left of_decide_eq_false))), spec⟩

/-- What a write of a transmit stream's register does. -/
theorem txConfigWrite (tx : ¬ o.val < 0x200) (opens : s.writable (0x18100 + o.val) = true) :
    let off := 0x18100 + o.val
    let k := (o.val - 0x200) / 32
    let new := s.stored off v
    let run := fun (P : State → Prop) => Completes (.streamConfigWrite path o v) s P
    let refused := fun (t : State) => Refused s t Reg.STRM_STAT 31 Page.strm
    (¬ o.val % 32 = 0 → s.bit (Reg.STRM_TX_CFG k) 31 = true → new ≠ s.reg off → run refused) ∧
    (¬ o.val % 32 = 0 → s.bit (Reg.STRM_TX_CFG k) 31 = false → Stores (.streamConfigWrite path o v) s off v) ∧
    (o.val % 32 = 0 → s.bit off 31 = true → ¬ SameButEn new (s.reg off) → run refused) ∧
    (o.val % 32 = 0 → s.txFits k new = false → fieldOf new 31 1 = 1 → run refused) ∧
    (o.val % 32 = 0 → s.txFits k new = true → s.bit off 31 = false ∨ SameButEn new (s.reg off) → run (fun t => t.reg off = new ∧
      (fieldOf new 31 1 ≠ fieldOf (s.reg off) 31 1 → (t.tx k).ready = [] ∧ (t.tx k).start = none) ∧
      t = { s with regs := t.regs, net := t.net, draws := t.draws } ∧ KeepsRegs s t [off])) := by
  intro off k new run refused
  have exec_ := exec_streamConfigWrite (path := path) (v := v) opens
  rw [strmAct_tx tx] at exec_
  refine ⟨fun reg on changes => ?_, fun reg idle => ?_, fun cfg on changes => ?_, fun cfg unfit on => ?_, fun cfg fits free => ?_⟩
  · rw [if_neg reg] at exec_
    exact ⟨_, exec_.trans (congrArg _ (actStreamReg_enabled on changes)), s.strmRefuse_refused⟩
  · rw [if_neg reg] at exec_
    exact stores_of_exec (exec_.trans (congrArg _ (actStreamReg_idle idle)))
  · rw [if_pos cfg] at exec_
    exact ⟨_, exec_.trans (congrArg _ (actTxCfg_enabled (of_decide_eq_true on) changes)), s.strmRefuse_refused⟩
  · rw [if_pos cfg] at exec_
    exact ⟨_, exec_.trans (congrArg _ (actTxCfg_unfit unfit on)), s.strmRefuse_refused⟩
  · rw [if_pos cfg] at exec_
    have own : Reg.STRM_TX_CFG k = off := by
      dsimp only [Reg.STRM_TX_CFG, k, off]
      omega
    have spec := s.txConfigured_spec k (s.reg off) new
    rw [own] at spec
    exact ⟨_, exec_.trans (congrArg _ (actTxCfg_fits fits (free.imp_left of_decide_eq_false))), spec⟩

end Config

end Sys2Proof.Machine
end

section
/-! PROOFS. Packet deadlines, packet launches and sessions; the statement StreamsAndSessions. -/

namespace Sys2Proof.Machine

/-! ### The deadline of a packet (R333) -/

section Deadline

variable {s : State} {i : Fin 32} {e : Nat × Nat}

/-- Whether two paths carry the packets of receive stream `i`. -/
def State.rxPaired (s : State) (i : Nat) : Bool := (List.range 32).any (fun j =>
  s.bit (Reg.STRM_RX_CFG j) 31 && s.bit (Reg.STRM_RX_CFG j) 30 && decide (s.fld (Reg.STRM_RX_CFG j) 22 5 = i))

/-- The packet that receive stream `i` awaits as `seq`. -/
def State.rxFound (s : State) (i seq : Nat) : Option RxPacket := (s.rx i).packets.find? (fun p => decide (p.seq = seq))

/-- The state of receive stream `i` after the judgement of packet `seq` with first sample `first`. -/
def State.rxJudged (s : State) (i seq first : Nat) : State :=
  let bits := if isAaf (s.fld (Reg.STRM_RX_CFG i) 28 2) then 8 else 16
  s.setRx i { s.rx i with
    packets := (s.rx i).packets.filter (fun p => decide (p.seq ≠ seq) && decide (first ≤ p.start))
    next := some ((seq + 1) % 2 ^ bits, first + s.fld (Reg.STRM_RX_CFG i) 0 8) }

/-- What the judgement of a packet reports: that it is missing, or that only one of two paths had it. -/
def State.packetEnds (t : State) (i seq first : Nat) (missing one : Bool) : State :=
  let lost := t.detect Page.strm 1 i seq missing
  if lost.hit then
    let u := (lost.st.bump Reg.STRM_RX_UNDERRUN_CNT).raise Page.strm 1
    if lost.inj then u.deliverPacket i first [] true else u
  else
    let rep := t.detect Page.strm 0 i seq one
    if rep.hit then ((rep.st.bump Reg.STRM_RX_REPAIRED_CNT).count 487 1).raise Page.strm 0 else rep.st

theorem State.packetEnds_missing (t : State) (i seq first : Nat) (one : Bool) : t.packetEnds i seq first true one =
    ((t.logError (256 * Page.strm + 1) i seq false).bump Reg.STRM_RX_UNDERRUN_CNT).raise Page.strm 1 := by
  unfold State.packetEnds
  dsimp only
  simp only [State.detect_real, if_true, Bool.false_eq_true, if_false]

theorem State.packetEnds_found {t : State} (unarmed : t.bit (Reg.PAGE_ERR_INJ Page.strm) 30 = false) (i seq first : Nat) (one : Bool) :
    t.packetEnds i seq first false one =
      if one then (((t.logError (256 * Page.strm + 0) i seq false).bump Reg.STRM_RX_REPAIRED_CNT).count 487 1).raise Page.strm 0 else t := by
  unfold State.packetEnds
  dsimp only
  simp only [State.detect_unarmed unarmed, if_false, Bool.false_eq_true]
  cases one <;> simp

theorem packetDeadline_idle (idle : (s.rx i).next = none ∨ s.running = false) : Completes (.packetDeadline i) s (fun t => t = s) := by
  refine ⟨s, ?_, rfl⟩
  change execPacketDeadline i s = _
  unfold execPacketDeadline
  dsimp only
  split
  · rfl
  · next seq start next => exact if_pos (Or.inl (idle.resolve_left (by rw [next]; exact Option.some_ne_none _)))

variable (next : (s.rx i).next = some e) (runs : s.running = true)
include next

theorem packetDeadline_early (early : ¬ s.packetDeadline e.2 ≤ s.sample) : Completes (.packetDeadline i) s (fun t => t = s) := by
  refine ⟨s, ?_, rfl⟩
  change execPacketDeadline i s = _
  unfold execPacketDeadline
  dsimp only
  rw [next]
  exact if_pos (Or.inr (Nat.not_le.1 early))

include runs

theorem exec_packetDeadline (due : s.packetDeadline e.2 ≤ s.sample) : exec (.packetDeadline i) s =
    (let found := s.rxFound i e.1
     let first := (found.map (fun p => p.start)).getD e.2
     let one := match found with
       | some p => s.rxPaired i && decide (p.paths ≠ 3)
       | none => false
     .next ((s.rxJudged i e.1 first).packetEnds i e.1 first found.isNone one)) := by
  change execPacketDeadline i s = _
  unfold execPacketDeadline State.packetEnds
  dsimp only
  rw [next]
  refine (if_neg (by rw [runs]; simpa using due)).trans ?_
  exact (apply_ite Host.Outcome.next ..).symm

end Deadline

/-- Packet `seq` of receive stream `i` has been judged, with first sample `first`. -/
def RxJudged (s t : State) (i seq first : Nat) : Prop :=
  (t.rx i).next = some ((seq + 1) % 2 ^ (if isAaf (s.fld (Reg.STRM_RX_CFG i) 28 2) then 8 else 16), first + s.fld (Reg.STRM_RX_CFG i) 0 8) ∧
    (t.rx i).highest = (s.rx i).highest ∧ (∀ p ∈ (t.rx i).packets, p ∈ (s.rx i).packets ∧ p.seq ≠ seq) ∧
    t = { s with regs := t.regs, pmu := t.pmu, out := t.out, net := { s.net with rx := t.net.rx } }

theorem State.rxJudged_frame (s : State) (i seq first : Nat) :
    RxJudged s (s.rxJudged i seq first) i seq first ∧ ∀ a, (s.rxJudged i seq first).reg a = s.reg a := by
  have held : (s.rxJudged i seq first).rx i = _ := State.rx_setRx ..
  refine ⟨⟨?_, ?_, fun p hp => ?_, rfl⟩, fun _ => rfl⟩
  · rw [held]
  · rw [held]
  · rw [held] at hp
    obtain ⟨mem, keeps⟩ := List.mem_filter.1 hp
    rw [Bool.and_eq_true, decide_eq_true_eq] at keeps
    exact ⟨mem, keeps.1⟩

theorem RxJudged.reports {s t u : State} {i seq first : Nat} {l : List Nat} (h : RxJudged s t i seq first) (g : OnlyReports t u l) :
    RxJudged s u i seq first := by
  obtain ⟨next, highest, packets, rest⟩ := h
  have same : u.rx i = t.rx i := by rw [State.rx, g.1, State.rx]
  refine ⟨?_, ?_, ?_, ?_⟩
  · rw [same, next]
  · rw [same, highest]
  · rw [same]
    exact packets
  · rw [g.1, rest]

section Judged

variable {s : State} {i : Fin 32} {e : Nat × Nat} (next : (s.rx i).next = some e) (runs : s.running = true)
  (due : s.packetDeadline e.2 ≤ s.sample)
include next runs due

theorem packetDeadline_missed (found : s.rxFound i e.1 = none) : Completes (.packetDeadline i) s (fun t => RxJudged s t i e.1 e.2 ∧
    Counted s t Reg.STRM_RX_UNDERRUN_CNT ∧ Counted s t Reg.ERR_LOG_CNT ∧ t.bit (Reg.PAGE_IRQ_STAT Page.strm) 1 = true ∧
    KeepsRegs s t (Reg.STRM_RX_UNDERRUN_CNT :: raiseRegs Page.strm ++ logRegs)) := by
  have run := exec_packetDeadline next runs due
  rw [found] at run
  dsimp only [Option.map_none, Option.getD_none, Option.isNone_none] at run
  rw [State.packetEnds_missing] at run
  obtain ⟨judged, same⟩ := s.rxJudged_frame i e.1 e.2
  refine ⟨_, run, ?_⟩
  generalize s.rxJudged i e.1 e.2 = t at judged same
  have logged := onlyReports_logError t (256 * Page.strm + 1) i e.1 false
  have logs := counted_logError t (256 * Page.strm + 1) i e.1 false
  generalize t.logError (256 * Page.strm + 1) i e.1 false = u at logged logs
  have bumped := onlyReports_bump u Reg.STRM_RX_UNDERRUN_CNT
  have counted := counted_bump u Reg.STRM_RX_UNDERRUN_CNT
  generalize u.bump Reg.STRM_RX_UNDERRUN_CNT = w at bumped counted
  have raised := onlyReports_raise w Page.strm 1
  have irq := w.bit_raise_same Page.strm (b := 1) (by decide)
  generalize w.raise Page.strm 1 = x at raised irq
  have all := (logged.trans bumped).trans raised
  refine ⟨judged.reports all, (counted.of_reg_eq ((logged.reg (by decide)).trans (same _))).of_reg_eq_after (raised.reg (by decide)),
    (logs.of_reg_eq (same _)).of_reg_eq_after ((bumped.trans raised).reg (by decide)), irq, fun a ha => ?_⟩
  refine (all.reg fun mem => ha ?_).trans (same a)
  simp only [List.mem_append, List.mem_cons, List.not_mem_nil, or_false] at mem ⊢
  tauto

variable {p : RxPacket} (found : s.rxFound i e.1 = some p) (quiet : s.bit (Reg.PAGE_ERR_INJ Page.strm) 30 = false)
include found quiet

theorem exec_packetDeadline_found : exec (.packetDeadline i) s =
    (let t := s.rxJudged i e.1 p.start
     let one := s.rxPaired i && decide (p.paths ≠ 3)
     .next (if one then (((t.logError (256 * Page.strm + 0) i e.1 false).bump Reg.STRM_RX_REPAIRED_CNT).count 487 1).raise Page.strm 0 else t)) := by
  have run := exec_packetDeadline next runs due
  obtain ⟨-, same⟩ := s.rxJudged_frame i e.1 p.start
  rw [found] at run
  dsimp only [Option.map_some, Option.getD_some, Option.isNone_some] at run
  have unarmed : (s.rxJudged i e.1 p.start).bit (Reg.PAGE_ERR_INJ Page.strm) 30 = false := (State.bit_of_reg (same _) 30).trans quiet
  rw [State.packetEnds_found unarmed] at run
  exact run

theorem packetDeadline_repaired (pair : s.rxPaired i = true) (one : p.paths ≠ 3) : Completes (.packetDeadline i) s (fun t =>
    RxJudged s t i e.1 p.start ∧ Counted s t Reg.STRM_RX_REPAIRED_CNT ∧ t.bit (Reg.PAGE_IRQ_STAT Page.strm) 0 = true) := by
  have run := exec_packetDeadline_found next runs due found quiet
  obtain ⟨judged, same⟩ := s.rxJudged_frame i e.1 p.start
  refine ⟨_, run, ?_⟩
  dsimp only
  rw [pair, decide_eq_true one, Bool.and_self, if_pos rfl]
  generalize s.rxJudged i e.1 p.start = t at judged same
  have logged := onlyReports_logError t (256 * Page.strm + 0) i e.1 false
  generalize t.logError (256 * Page.strm + 0) i e.1 false = u at logged
  have bumped := onlyReports_bump u Reg.STRM_RX_REPAIRED_CNT
  have counted := counted_bump u Reg.STRM_RX_REPAIRED_CNT
  generalize u.bump Reg.STRM_RX_REPAIRED_CNT = w at bumped counted
  have pmu := onlyReports_count w 487 1
  generalize w.count 487 1 = y at pmu
  have raised := onlyReports_raise y Page.strm 0
  have irq := y.bit_raise_same Page.strm (b := 0) (by decide)
  generalize y.raise Page.strm 0 = x at raised irq
  exact ⟨judged.reports (((logged.trans bumped).trans pmu).trans raised),
    (counted.of_reg_eq ((logged.reg (by decide)).trans (same _))).of_reg_eq_after ((pmu.trans raised).reg (by decide)), irq⟩

theorem packetDeadline_whole (whole : s.rxPaired i = false ∨ p.paths = 3) : Completes (.packetDeadline i) s (fun t =>
    RxJudged s t i e.1 p.start ∧ KeepsRegs s t []) := by
  have run := exec_packetDeadline_found next runs due found quiet
  obtain ⟨judged, same⟩ := s.rxJudged_frame i e.1 p.start
  have one : (s.rxPaired i && decide (p.paths ≠ 3)) = false := by
    rw [Bool.and_eq_false_iff, decide_eq_false_iff_not, not_not]
    exact whole
  refine ⟨_, run, ?_⟩
  dsimp only
  rw [one, if_neg Bool.false_ne_true]
  exact ⟨judged, fun a _ => same a⟩

end Judged

/-! ### The launch of a packet (R331) -/

section Launch

variable {s : State} {i : Fin 32} {e : Nat × List (List Word)} {es : List (Nat × List (List Word))}

/-- Whether the launch of a packet comes too late. -/
def State.txLate (s : State) (i : Nat) (start : Nat) : Prop :=
  start + 2 * fieldOf (s.reg (Reg.STRM_TX_CFG i)) 0 8 ≤ s.sample ∨ s.portUp (i / 16) = false

/-- The state with the oldest packet of transmit stream `i` taken. -/
def State.txTaken (s : State) (i : Nat) (es : List (Nat × List (List Word))) : State :=
  s.setTx i { s.tx i with ready := es, seq := (s.tx i).seq + 1 }

/-- A packet of transmit stream `i` on port `p`. -/
def State.txPacket (s : State) (i start : Nat) (data : List (List Word)) (p : Nat) : Sent :=
  let fmt := fieldOf (s.reg (Reg.STRM_TX_CFG i)) 28 2
  let ofs := (start : Int) + (s.reg (Reg.STRM_TX_OFS i)).toInt
  .packet p i fmt ((s.tx i).seq % (if isAaf fmt then 256 else 65536)) (wrapTo 32 (if isAaf fmt then s.timeOfSample ofs else ofs))
    (payloadOf fmt data)

/-- A packet leaves on a port, and is counted. -/
def State.txLaunched (s u : State) (i start : Nat) (data : List (List Word)) : State :=
  ((u.sendFrame (i / 16) (s.txPacket i start data (i / 16))).bump Reg.STRM_TX_PKT_CNT).count 486 1

theorem exec_streamPacketTransmit (ready : (s.tx i).ready = e :: es) : exec (.streamPacketTransmit i) s =
    (if e.1 + 2 * fieldOf (s.reg (Reg.STRM_TX_CFG i)) 0 8 ≤ s.sample ∨ s.portUp (i.val / 16) = false then
      .next (((s.txTaken i es).bump (Reg.NET_TX_LATE_CNT (i.val / 16))).raise (Page.neta + i.val / 16) 3)
    else
      let u := s.txLaunched (s.txTaken i es) i e.1 e.2
      .next (if fieldOf (s.reg (Reg.STRM_TX_CFG i)) 30 1 = 1 ∧ i.val < 16 ∧ u.portUp 1 = true then u.sendFrame 1 (s.txPacket i e.1 e.2 1) else u)) := by
  change execStreamPacketTransmit i s = _
  unfold execStreamPacketTransmit
  dsimp only
  rw [ready]
  rfl

theorem streamPacketTransmit_none (none_ : (s.tx i).ready = []) : Completes (.streamPacketTransmit i) s (fun t => t = s) := by
  refine ⟨s, ?_, rfl⟩
  change execStreamPacketTransmit i s = _
  unfold execStreamPacketTransmit
  dsimp only
  rw [none_]

theorem State.txTaken_frame (s : State) (i : Nat) (es : List (Nat × List (List Word))) :
    (s.txTaken i es).tx i = { s.tx i with ready := es, seq := (s.tx i).seq + 1 } ∧
      s.txTaken i es = { s with net := { s.net with tx := (s.txTaken i es).net.tx } } ∧ ∀ a, (s.txTaken i es).reg a = s.reg a :=
  ⟨State.tx_setTx .., rfl, fun _ => rfl⟩

theorem txLate_notMem_raise : ∀ p : Fin 2, Reg.NET_TX_LATE_CNT p ∉ raiseRegs (Page.neta + p) := by decide

theorem streamPacketTransmit_late (ready : (s.tx i).ready = e :: es) (late : s.txLate i e.1) : Completes (.streamPacketTransmit i) s (fun t =>
    t.tx i = { s.tx i with ready := es, seq := (s.tx i).seq + 1 } ∧ Counted s t (Reg.NET_TX_LATE_CNT (i.val / 16)) ∧
    t.bit (Reg.PAGE_IRQ_STAT (Page.neta + i.val / 16)) 3 = true ∧
    t = { s with regs := t.regs, pmu := t.pmu, out := t.out, net := { s.net with tx := t.net.tx } }) := by
  refine ⟨_, (exec_streamPacketTransmit ready).trans (if_pos late), ?_⟩
  obtain ⟨taken, frame, same⟩ := s.txTaken_frame i es
  generalize s.txTaken i es = t at taken frame same
  have bumped := onlyReports_bump t (Reg.NET_TX_LATE_CNT (i.val / 16))
  have counted := counted_bump t (Reg.NET_TX_LATE_CNT (i.val / 16))
  generalize t.bump (Reg.NET_TX_LATE_CNT (i.val / 16)) = u at bumped counted
  have raised := onlyReports_raise u (Page.neta + i.val / 16) 3
  have irq := u.bit_raise_same (Page.neta + i.val / 16) (b := 3) (by decide)
  generalize u.raise (Page.neta + i.val / 16) 3 = w at raised irq
  have all := bumped.trans raised
  refine ⟨?_, (counted.of_reg_eq (same _)).of_reg_eq_after (raised.reg (txLate_notMem_raise ⟨i.val / 16, by omega⟩)), irq, ?_⟩
  · rw [← taken, State.tx, all.1, State.tx]
  · rw [all.1, frame]

theorem State.txLaunched_frame (s u : State) (i start : Nat) (data : List (List Word)) :
    let t := s.txLaunched u i start data
    t.out = { u.out with sent := s.txPacket i start data (i / 16) :: u.out.sent } ∧ t = { u with regs := t.regs, pmu := t.pmu, out := t.out } ∧
      Counted u t Reg.STRM_TX_PKT_CNT ∧ KeepsRegs u t [Reg.STRM_TX_PKT_CNT] := by
  have sent : u.sendFrame (i / 16) (s.txPacket i start data (i / 16)) = { u with
      out := { u.out with sent := s.txPacket i start data (i / 16) :: u.out.sent }
      pmu := (u.sendFrame (i / 16) (s.txPacket i start data (i / 16))).pmu } := rfl
  have regs : ∀ a, (u.sendFrame (i / 16) (s.txPacket i start data (i / 16))).reg a = u.reg a := fun _ => rfl
  intro t
  dsimp only [t, State.txLaunched]
  generalize u.sendFrame (i / 16) (s.txPacket i start data (i / 16)) = v at sent regs
  have bumped : OnlyRegs v (v.bump Reg.STRM_TX_PKT_CNT) [Reg.STRM_TX_PKT_CNT] := onlyRegs_setReg ..
  have counted := counted_bump v Reg.STRM_TX_PKT_CNT
  generalize v.bump Reg.STRM_TX_PKT_CNT = w at bumped counted
  have count : w.count 486 1 = { w with pmu := (w.count 486 1).pmu } := rfl
  have kept : ∀ a, (w.count 486 1).reg a = w.reg a := fun _ => rfl
  generalize w.count 486 1 = x at count kept
  refine ⟨?_, ?_, (counted.of_reg_eq (regs _)).of_reg_eq_after (kept _), fun a ha => (kept a).trans ((bumped.2 a ha).trans (regs a))⟩
  · rw [count, bumped.1, sent]
  · rw [count, bumped.1, sent]

theorem streamPacketTransmit_sent (ready : (s.tx i).ready = e :: es) (due : ¬ s.txLate i e.1) : Completes (.streamPacketTransmit i) s (fun t =>
    t.tx i = { s.tx i with ready := es, seq := (s.tx i).seq + 1 } ∧ Counted s t Reg.STRM_TX_PKT_CNT ∧
    t.out.sent = (if fieldOf (s.reg (Reg.STRM_TX_CFG i)) 30 1 = 1 ∧ i.val < 16 ∧ s.portUp 1 = true then [s.txPacket i e.1 e.2 1] else []) ++
      s.txPacket i e.1 e.2 (i.val / 16) :: s.out.sent ∧
    t = { s with regs := t.regs, pmu := t.pmu, out := t.out, net := { s.net with tx := t.net.tx } } ∧
    KeepsRegs s t [Reg.STRM_TX_PKT_CNT]) := by
  refine ⟨_, (exec_streamPacketTransmit ready).trans (if_neg due), ?_⟩
  obtain ⟨taken, frame, same⟩ := s.txTaken_frame i es
  generalize s.txTaken i es = v at taken frame same
  obtain ⟨out, rest, counted, kept⟩ := s.txLaunched_frame v i e.1 e.2
  dsimp only
  generalize s.txLaunched v i e.1 e.2 = u at out rest counted kept
  have up : u.portUp 1 = s.portUp 1 := by
    unfold State.portUp State.pageOn
    rw [State.bit_of_reg ((kept _ (by decide)).trans (same _)), State.bit_of_reg ((kept _ (by decide)).trans (same _))]
  have tx : u.tx i = { s.tx i with ready := es, seq := (s.tx i).seq + 1 } := by rw [← taken, State.tx, rest, State.tx]
  have sent : u.out.sent = s.txPacket i e.1 e.2 (i.val / 16) :: s.out.sent := by rw [out, frame]
  have counted' := counted.of_reg_eq (same _)
  have kept' : KeepsRegs s u [Reg.STRM_TX_PKT_CNT] := fun a ha => (kept a ha).trans (same a)
  rw [up]
  by_cases both : fieldOf (s.reg (Reg.STRM_TX_CFG i)) 30 1 = 1 ∧ i.val < 16 ∧ s.portUp 1 = true
  · rw [if_pos both, if_pos both]
    refine ⟨tx, counted', congrArg _ sent, ?_, kept'⟩
    change { u with out := _, pmu := _ } = _
    rw [rest, frame]
    rfl
  · rw [if_neg both, if_neg both]
    refine ⟨tx, counted', sent, ?_, kept'⟩
    rw [rest, frame]

end Launch

/-! ### Sessions (R335) -/

section Sessions

variable {s : State} {path : Path} {i : Fin 32} {v : Word} {isPort : Bool}

theorem State.nmidRefuse_refused (s : State) : Refused s s.nmidRefuse Reg.NMID_STAT 31 Page.nmid :=
  s.refused_of_flag (by decide) (by decide) (by decide)

theorem exec_sessionEnable (opens : s.writable (Reg.NMID_SESS_CFG i) = true) : exec (.sessionEnable path i v) s =
    .next (actSessCfg i s (rowAt (Reg.NMID_SESS_CFG i)) (s.reg (Reg.NMID_SESS_CFG i)) (setFieldOf v 31 1 1)) :=
  congrArg Host.Outcome.next (State.hostWrite_of_writable opens)

theorem exec_sessionDisable (opens : s.writable (Reg.NMID_SESS_CFG i) = true) : exec (.sessionDisable path i v) s =
    .next (actSessCfg i s (rowAt (Reg.NMID_SESS_CFG i)) (s.reg (Reg.NMID_SESS_CFG i)) (setFieldOf v 31 1 0)) :=
  congrArg Host.Outcome.next (State.hostWrite_of_writable opens)

theorem fieldOf_en (v : Word) (n : Nat) : fieldOf (setFieldOf v 31 1 n) 31 1 = n % 2 := fieldOf_setFieldOf_same v n (by decide)

theorem fieldOf_pair (v : Word) (n : Nat) : fieldOf (setFieldOf v 31 1 n) 30 1 = fieldOf v 30 1 := fieldOf_setFieldOf_other v n (by decide)

/-- A session of the first port has no partner. -/
def SessionBarred (i : Nat) (v : Word) : Prop := i < 16 ∧ fieldOf v 30 1 = 1

section Rule

variable {n : Nat} {r : RegRow} {old w : Word}

theorem actSessCfg_barred (barred : SessionBarred n w) : actSessCfg n s r old w = s.nmidRefuse := if_pos barred

theorem actSessCfg_stays (allowed : ¬ SessionBarred n w) (stays : fieldOf w 31 1 = fieldOf old 31 1) :
    actSessCfg n s r old w = s.setReg (Reg.NMID_SESS_CFG n) (r.store old w) := by
  refine (if_neg allowed).trans ?_
  rw [stays]
  exact (if_neg fun h => h.2 h.1).trans (if_neg fun h => h.2 h.1)

/-- A session has been removed: its packets are dropped from now on. -/
def State.sessionRemoved (s : State) (n : Nat) (new : Word) : State :=
  let t := s.setReg (Reg.NMID_SESS_CFG n) new
  { t with net := { t.net with cleared := t.net.cleared.filter (fun k => decide (k ≠ n)) ++ [n] } }

theorem actSessCfg_removes (allowed : ¬ SessionBarred n w) (on : fieldOf old 31 1 = 1) (off : fieldOf w 31 1 = 0) :
    actSessCfg n s r old w = s.sessionRemoved n (r.store old w) := by
  refine (if_neg allowed).trans ?_
  rw [on, off]
  exact (if_neg fun h => absurd h.1 (by decide)).trans (if_pos ⟨by decide, by decide⟩)

/-- A session has been installed, before its window. -/
def State.sessionAdded (s : State) (n : Nat) (new : Word) : State :=
  let t := s.setReg (Reg.NMID_SESS_CFG n) new
  { t with net := { t.net with cleared := t.net.cleared.filter (fun k => decide (k ≠ n)) } }

/-- A session starts with an empty window. -/
def State.sessionStarts (s : State) (n : Nat) (new : Word) : State :=
  ((s.sessionAdded n new).setWindow n { SessWin.none with installed := true }).setReg (Reg.NMID_SESS_SEQ n) 0

theorem State.sessionAdded_other (s : State) (n : Nat) (new : Word) {j : Nat} (other : j ≠ n) :
    (s.sessionAdded n new).reg (Reg.NMID_SESS_CFG j) = s.reg (Reg.NMID_SESS_CFG j) :=
  State.reg_setReg_other s _ (by dsimp only [Reg.NMID_SESS_CFG]; omega)

theorem State.sessionSource_first (s : State) (h : n < 16) : s.sessionSource n = n := if_neg fun both => absurd both.1 (by omega)

theorem State.sessionSource_of_reg {s t : State} {j : Nat} (h : t.reg (Reg.NMID_SESS_CFG j) = s.reg (Reg.NMID_SESS_CFG j)) :
    t.sessionSource j = s.sessionSource j := by
  unfold State.sessionSource
  rw [State.bit_of_reg h, State.fld_of_reg h]

theorem actSessCfg_starts (allowed : ¬ SessionBarred n w) (off : fieldOf old 31 1 = 0) (on : fieldOf w 31 1 = 1) (first : n < 16)
    (alone : ∀ j, j < 32 → j ≠ n → ¬ (s.bit (Reg.NMID_SESS_CFG j) 31 = true ∧ s.sessionSource j = n)) :
    actSessCfg n s r old w = s.sessionStarts n (r.store old w) := by
  have source : (s.setReg (Reg.NMID_SESS_CFG n) (r.store old w)).sessionSource n = n := State.sessionSource_first _ first
  have unshared : ((List.range 32).any (fun k => decide (k ≠ n) && (s.sessionAdded n (r.store old w)).bit (Reg.NMID_SESS_CFG k) 31 &&
      decide ((s.sessionAdded n (r.store old w)).sessionSource k = n))) = false := by
    rw [List.any_eq_false]
    intro j hj shared
    simp only [Bool.and_eq_true, decide_eq_true_eq] at shared
    obtain ⟨⟨other, enabled⟩, same⟩ := shared
    have kept := s.sessionAdded_other n (r.store old w) other
    rw [State.bit_of_reg kept] at enabled
    rw [State.sessionSource_of_reg kept] at same
    exact alone j (List.mem_range.1 hj) other ⟨enabled, same⟩
  refine (if_neg allowed).trans ?_
  rw [off, on]
  refine (if_pos ⟨by decide, by decide⟩).trans ?_
  dsimp only
  rw [source]
  unfold State.sessionAdded at unshared
  dsimp only at unshared
  rw [unshared, if_neg Bool.false_ne_true]
  rfl

end Rule

theorem State.sessionStarts_spec (s : State) (n : Nat) (new : Word) :
    let t := s.sessionStarts n new
    t.reg (Reg.NMID_SESS_CFG n) = new ∧ t.window n = { installed := true, h := none, acc := [], moved := 0 } ∧
      t.reg (Reg.NMID_SESS_SEQ n) = 0 ∧ n ∉ t.net.cleared ∧
      t = { s with regs := t.regs, ing := { s.ing with windows := t.ing.windows }, net := { s.net with cleared := t.net.cleared } } ∧
      KeepsRegs s t [Reg.NMID_SESS_CFG n, Reg.NMID_SESS_SEQ n] := by
  have added : s.sessionAdded n new = { s with
      regs := (s.sessionAdded n new).regs
      net := { s.net with cleared := s.net.cleared.filter (fun k => decide (k ≠ n)) } } := rfl
  have holds : (s.sessionAdded n new).reg (Reg.NMID_SESS_CFG n) = new := s.reg_setReg_same ..
  have kept : ∀ a, a ≠ Reg.NMID_SESS_CFG n → (s.sessionAdded n new).reg a = s.reg a := fun a ha => State.reg_setReg_other s _ ha
  intro t
  dsimp only [t, State.sessionStarts]
  generalize s.sessionAdded n new = u at added holds kept
  have window : (u.setWindow n { SessWin.none with installed := true }).window n = { SessWin.none with installed := true } :=
    u.window_setWindow n _
  have rest : u.setWindow n { SessWin.none with installed := true } = { u with
    ing := { u.ing with windows := (u.setWindow n { SessWin.none with installed := true }).ing.windows } } := rfl
  have same : ∀ a, (u.setWindow n { SessWin.none with installed := true }).reg a = u.reg a := fun _ => rfl
  generalize u.setWindow n { SessWin.none with installed := true } = w at window rest same
  have seq := w.reg_setReg_same (Reg.NMID_SESS_SEQ n) 0
  have only := onlyRegs_setReg w (Reg.NMID_SESS_SEQ n) 0
  generalize w.setReg (Reg.NMID_SESS_SEQ n) 0 = x at seq only
  have apart : Reg.NMID_SESS_CFG n ∉ [Reg.NMID_SESS_SEQ n] := by
    rw [List.mem_singleton]
    dsimp only [Reg.NMID_SESS_CFG, Reg.NMID_SESS_SEQ]
    omega
  refine ⟨(only.2 _ apart).trans ((same _).trans holds), ?_, seq, ?_, ?_, fun a ha => ?_⟩
  · rw [State.window, only.1]
    exact window
  · rw [only.1, rest, added]
    simp
  · rw [only.1, rest, added]
  · rw [List.mem_cons, not_or] at ha
    exact (only.2 a ha.2).trans ((same a).trans (kept a ha.1))

theorem State.sessionRemoved_spec (s : State) (n : Nat) (new : Word) :
    let t := s.sessionRemoved n new
    t.reg (Reg.NMID_SESS_CFG n) = new ∧ n ∈ t.net.cleared ∧ t = { s with regs := t.regs, net := { s.net with cleared := t.net.cleared } } ∧
      KeepsRegs s t [Reg.NMID_SESS_CFG n] :=
  ⟨s.reg_setReg_same .., List.mem_append_right _ (List.mem_singleton_self n), rfl,
    fun a ha => State.reg_setReg_other s _ (by simpa using ha)⟩

theorem exec_sessionAddressWrite (opens : s.writable (if isPort then Reg.NMID_SESS_PORT i else Reg.NMID_SESS_ADDR i) = true) :
    exec (.sessionAddressWrite path i isPort v) s =
      .next (if s.bit (Reg.NMID_SESS_CFG i) 31 = true then s.nmidRefuse
        else s.setReg (if isPort then Reg.NMID_SESS_PORT i else Reg.NMID_SESS_ADDR i)
          (s.stored (if isPort then Reg.NMID_SESS_PORT i else Reg.NMID_SESS_ADDR i) v)) :=
  congrArg Host.Outcome.next (State.hostWrite_of_writable opens)

end Sessions

/-- Settles O53: streams by the rule of the register written, a packet's deadline by what has come of it, a launch by its time, and a session by
its enable. -/
theorem streamsAndSessions : Obligations.StreamsAndSessions := by
  unfold Obligations.StreamsAndSessions
  intro s path i o v isPort
  refine ⟨fun _ opens => ?streams, ⟨packetDeadline_idle, fun e next runs => ⟨packetDeadline_early next, fun due => packetDeadline_missed next runs due,
    fun p found due quiet => ⟨packetDeadline_repaired next runs due found quiet, packetDeadline_whole next runs due found quiet⟩⟩⟩,
    ⟨streamPacketTransmit_none, fun e es ready => ⟨streamPacketTransmit_late ready, ?launch⟩⟩, ?sessions⟩
  case streams =>
    by_cases rx : o.val < 0x200
    · simp only [if_pos rx]
      exact rxConfigWrite rx opens
    · simp only [if_neg rx]
      exact txConfigWrite rx opens
  case launch => exact streamPacketTransmit_sent ready
  case sessions =>
    refine ⟨fun opens => ⟨fun first pair => ?barred, fun allowed => ?open_⟩, fun opens => ⟨fun on => ?_, fun off => ?_⟩⟩
    case barred =>
      have barred : ∀ n, SessionBarred i (setFieldOf v 31 1 n) := fun n => ⟨first, (fieldOf_pair v n).trans pair⟩
      exact ⟨⟨_, (exec_sessionEnable opens).trans (congrArg _ (actSessCfg_barred (barred 1))), s.nmidRefuse_refused⟩,
        ⟨_, (exec_sessionDisable opens).trans (congrArg _ (actSessCfg_barred (barred 0))), s.nmidRefuse_refused⟩⟩
    case open_ =>
      have free : ∀ n, ¬ SessionBarred i (setFieldOf v 31 1 n) := fun n ⟨first, pair⟩ => by
        rw [fieldOf_pair] at pair
        omega
      have was : ∀ {b : Bool}, s.bit (Reg.NMID_SESS_CFG i) 31 = b → fieldOf (s.reg (Reg.NMID_SESS_CFG i)) 31 1 = b.toNat := fun {b} h => by
        rcases fieldOf_one_or (s.reg (Reg.NMID_SESS_CFG i)) 31 with zero | one
        · rw [← h, State.bit, zero]; rfl
        · rw [← h, State.bit, one]; rfl
      refine ⟨fun off first alone => ?_, fun on => ?_, fun off => ?_, fun on => ?_⟩
      · exact ⟨_, (exec_sessionEnable opens).trans (congrArg _ (actSessCfg_starts (free 1) (was off) (fieldOf_en v 1) first alone)),
          s.sessionStarts_spec ..⟩
      · exact stores_of_exec ((exec_sessionEnable opens).trans (congrArg _ (actSessCfg_stays (free 1) ((fieldOf_en v 1).trans (was on).symm))))
      · exact stores_of_exec ((exec_sessionDisable opens).trans (congrArg _ (actSessCfg_stays (free 0) ((fieldOf_en v 0).trans (was off).symm))))
      · exact ⟨_, (exec_sessionDisable opens).trans (congrArg _ (actSessCfg_removes (free 0) (was on) (fieldOf_en v 0))),
          s.sessionRemoved_spec ..⟩
    · exact ⟨_, (exec_sessionAddressWrite opens).trans (congrArg _ (if_pos on)), s.nmidRefuse_refused⟩
    · exact stores_of_exec ((exec_sessionAddressWrite opens).trans (congrArg _ (if_neg (by rw [off]; exact Bool.false_ne_true))))

end Sys2Proof.Machine
end

section
/-! PROOFS. The roles of the PTP ports and what ends them: lost Sync messages and links that go down (R322, R326, R327). -/

namespace Sys2Proof.Machine

/-! ### PTP_STAT -/

/-- The word of PTP_STAT. -/
def ptpWord (roleA roleB : Nat) (gm ascA ascB : Bool) : Word :=
  BitVec.ofNat 32 (roleA + 4 * roleB + (if gm then 16 else 0) + (if ascA then 32 else 0) + (if ascB then 64 else 0))

theorem ptpWord_roles {roleA roleB : Nat} (ha : roleA < 4) (hb : roleB < 4) (gm ascA ascB : Bool) :
    fieldOf (ptpWord roleA roleB gm ascA ascB) 0 2 = roleA ∧ fieldOf (ptpWord roleA roleB gm ascA ascB) 2 2 = roleB := by
  have value : (ptpWord roleA roleB gm ascA ascB).toNat =
      roleA + 4 * roleB + (16 * gm.toNat + 32 * ascA.toNat + 64 * ascB.toNat) := by
    unfold ptpWord
    rw [BitVec.toNat_ofNat]
    cases gm <;> cases ascA <;> cases ascB <;> simp <;> omega
  unfold fieldOf bitsOf
  rw [value]
  simp only [Nat.shiftRight_eq_div_pow]
  omega

theorem State.setPtp_eq (s : State) (roleA roleB : Nat) (gm ascA ascB : Bool) : s.setPtp roleA roleB gm ascA ascB =
    if s.reg Reg.PTP_STAT = ptpWord roleA roleB gm ascA ascB then s
    else (s.setReg Reg.PTP_STAT (ptpWord roleA roleB gm ascA ascB)).raise Page.ptp 0 := rfl

theorem State.setPtp_spec (s : State) (roleA roleB : Nat) (gm ascA ascB : Bool) :
    (s.setPtp roleA roleB gm ascA ascB).reg Reg.PTP_STAT = ptpWord roleA roleB gm ascA ascB ∧
      OnlyReports s (s.setPtp roleA roleB gm ascA ascB) (Reg.PTP_STAT :: raiseRegs Page.ptp) ∧
      (s.reg Reg.PTP_STAT ≠ ptpWord roleA roleB gm ascA ascB →
        (s.setPtp roleA roleB gm ascA ascB).bit (Reg.PAGE_IRQ_STAT Page.ptp) 0 = true) := by
  rw [State.setPtp_eq]
  generalize ptpWord roleA roleB gm ascA ascB = w
  by_cases same : s.reg Reg.PTP_STAT = w
  · rw [if_pos same]
    exact ⟨same, OnlyReports.refl s _, fun other => absurd same other⟩
  · rw [if_neg same]
    have set := onlyReports_setReg s Reg.PTP_STAT w
    have holds := s.reg_setReg_same Reg.PTP_STAT w
    generalize s.setReg Reg.PTP_STAT w = t at set holds
    have raised := onlyReports_raise t Page.ptp 0
    have irq := t.bit_raise_same Page.ptp (b := 0) (by decide)
    generalize t.raise Page.ptp 0 = u at raised irq
    exact ⟨(raised.reg (by decide)).trans holds, set.trans raised, fun _ => irq⟩

theorem State.ptpRole_lt (s : State) (port : Nat) : s.ptpRole port < 4 := s.fld_lt ..

theorem State.ptpRole_of_reg {s t : State} (h : t.reg Reg.PTP_STAT = s.reg Reg.PTP_STAT) (port : Nat) : t.ptpRole port = s.ptpRole port :=
  State.fld_of_reg h _ _

theorem State.ptpRole_of_word {s : State} {roleA roleB : Nat} (ha : roleA < 4) (hb : roleB < 4) {gm ascA ascB : Bool}
    (h : s.reg Reg.PTP_STAT = ptpWord roleA roleB gm ascA ascB) : s.ptpRole 0 = roleA ∧ s.ptpRole 1 = roleB := by
  unfold State.ptpRole State.fld
  rw [h]
  exact ptpWord_roles ha hb gm ascA ascB

/-- A port takes a role: the other port keeps its own, and a change is reported. -/
theorem State.setRole_spec (s : State) {port : Nat} (hp : port < 2) {role : Nat} (hr : role < 4) :
    (s.setRole port role).ptpRole port = role ∧ (s.setRole port role).ptpRole (1 - port) = s.ptpRole (1 - port) ∧
      OnlyReports s (s.setRole port role) (Reg.PTP_STAT :: raiseRegs Page.ptp) ∧
      (s.ptpRole port ≠ role → (s.setRole port role).bit (Reg.PAGE_IRQ_STAT Page.ptp) 0 = true) := by
  have a := s.ptpRole_lt 0
  have b := s.ptpRole_lt 1
  unfold State.setRole
  dsimp only
  obtain ⟨holds, reports, irq⟩ := s.setPtp_spec (if port = 0 then role else s.ptpRole 0) (if port = 1 then role else s.ptpRole 1)
    (decide (fieldOf (s.reg Reg.PTP_STAT) 4 1 = 1)) (decide (fieldOf (s.reg Reg.PTP_STAT) 5 1 = 1))
    (decide (fieldOf (s.reg Reg.PTP_STAT) 6 1 = 1))
  obtain ⟨roleA, roleB⟩ := State.ptpRole_of_word (by split <;> omega) (by split <;> omega) holds
  have told : s.reg Reg.PTP_STAT = _ → _ := fun same => State.ptpRole_of_word (s := s)
    (roleA := if port = 0 then role else s.ptpRole 0) (roleB := if port = 1 then role else s.ptpRole 1)
    (gm := decide (fieldOf (s.reg Reg.PTP_STAT) 4 1 = 1)) (ascA := decide (fieldOf (s.reg Reg.PTP_STAT) 5 1 = 1))
    (ascB := decide (fieldOf (s.reg Reg.PTP_STAT) 6 1 = 1)) (by split <;> omega) (by split <;> omega) same
  have one : port = 0 ∨ port = 1 := by omega
  refine ⟨?_, ?_, reports, fun changes => irq fun same => changes ?_⟩
  · rcases one with rfl | rfl
    · exact roleA
    · exact roleB
  · rcases one with rfl | rfl
    · exact roleB
    · exact roleA
  · rcases one with rfl | rfl
    · exact (told same).1
    · exact (told same).2

/-! ### A port that is no slave any more -/

section Slave

variable {s : State} {port : Fin 2} {avg : Word}

/-- Whether the other port takes over under hot standby. -/
def State.ptpHot (s : State) (port : Nat) : Prop :=
  s.bit Reg.PTP_CFG 0 = true ∧ s.net.standby = true ∧ s.ptpRole (1 - port) = 3 ∧ s.pageOn Page.ptp = true

theorem State.slaveLost_other (idle : s.ptpRole port < 2) : s.slaveLost port avg = s :=
  (if_neg (by omega)).trans (if_neg (by omega))

theorem State.slaveLost_hot (slave : s.ptpRole port = 2) (hot : s.ptpHot port) :
    let t := s.slaveLost port avg
    t.ptpRole port = 0 ∧ t.ptpRole (1 - port.val) = 2 ∧ Counted s t Reg.PTP_FAILOVER_CNT ∧ t.clk = s.clk ∧
      t.bit (Reg.PAGE_IRQ_STAT Page.ptp) 0 = true ∧ KeepsRegs s t ([Reg.PTP_STAT, Reg.PTP_FAILOVER_CNT] ++ raiseRegs Page.ptp) := by
  have lost : s.slaveLost port avg =
      (let t := ((s.setRole port 0).setRole (1 - port.val) 2).bump Reg.PTP_FAILOVER_CNT
       { t with net := { t.net with standby := false } }) := (if_pos slave).trans (if_pos hot)
  obtain ⟨own, stays, first, -⟩ := s.setRole_spec port.isLt (role := 0) (by decide)
  have back : 1 - (1 - port.val) = port.val := by omega
  intro t
  dsimp only [t]
  rw [lost]
  dsimp only
  generalize s.setRole port 0 = u at own stays first
  obtain ⟨other, kept, second, irq⟩ := u.setRole_spec (port := 1 - port.val) (by omega) (role := 2) (by decide)
  rw [back] at kept
  have irqs := irq (by rw [stays, hot.2.2.1]; decide)
  generalize u.setRole (1 - port.val) 2 = v at other kept second irqs
  have bumped := onlyReports_bump v Reg.PTP_FAILOVER_CNT
  have counted := counted_bump v Reg.PTP_FAILOVER_CNT
  generalize v.bump Reg.PTP_FAILOVER_CNT = w at bumped counted
  have reg : ∀ a, ({ w with net := { w.net with standby := false } } : State).reg a = w.reg a := fun _ => rfl
  have stat := (reg Reg.PTP_STAT).trans (bumped.reg (by decide))
  have all := (first.trans second).trans bumped
  refine ⟨(State.ptpRole_of_reg stat _).trans (kept.trans own), (State.ptpRole_of_reg stat _).trans other,
    (counted.of_reg_eq ((first.trans second).reg (by decide))).of_reg_eq_after (reg _), ?_,
    (State.bit_of_reg ((reg _).trans (bumped.reg (by decide))) 0).trans irqs, fun a ha => (reg a).trans (all.reg fun mem => ha ?_)⟩
  · rw [all.1]
  · simp only [List.mem_append, List.mem_cons, List.not_mem_nil, or_false] at mem ⊢
    tauto

theorem State.slaveLost_passive (passive : s.ptpRole port = 3) :
    let t := s.slaveLost port avg
    t.ptpRole port = 0 ∧ t.net = { s.net with standby := false } ∧ t.clk = s.clk := by
  have lost : s.slaveLost port avg = (let t := s.setRole port 0
      { t with net := { t.net with standby := false } }) := (if_neg (by omega)).trans (if_pos passive)
  obtain ⟨own, -, reports, -⟩ := s.setRole_spec port.isLt (role := 0) (by decide)
  intro t
  dsimp only [t]
  rw [lost]
  dsimp only
  generalize s.setRole port 0 = u at own reports
  refine ⟨own, ?_, ?_⟩
  · rw [reports.1]
  · rw [reports.1]

end Slave

/-- The gPTP source is lost: only the media clock's own state and registers change. -/
theorem State.loseSource_gptp (s : State) (avg : Word) (inj : Bool) :
    (s.loseSource .gptp avg inj).clk.gptpQualified = false ∧ (s.loseSource .gptp avg inj).clk.wclkQualified = s.clk.wclkQualified ∧
      (s.loseSource .gptp avg inj).reg Reg.PTP_STAT = s.reg Reg.PTP_STAT := by
  unfold State.loseSource
  dsimp only
  rw [if_neg (by decide)]
  by_cases other : s.source ≠ .gptp
  · rw [if_pos other]
    split <;> exact ⟨rfl, rfl, rfl⟩
  · rw [if_neg other]
    unfold State.selectNext
    generalize hc : ({ s with clk := { s.clk with gptpQualified := false, heldAdj := if s.pll = 2 then avg else s.clk.heldAdj } } : State) = b
    have lost : b.clk.gptpQualified = false ∧ b.clk.wclkQualified = s.clk.wclkQualified := by
      rw [← hc]
      exact ⟨rfl, rfl⟩
    have same : b.reg Reg.PTP_STAT = s.reg Reg.PTP_STAT := by
      rw [← hc]
      rfl
    have logged := onlyReports_logError b 0x0203 0 (codeOfSource .gptp) inj
    generalize b.logError 0x0203 0 (codeOfSource .gptp) inj = d at logged
    have held : OnlyReports d ((d.setPll 3).setAdj (if s.pll = 2 then avg else s.clk.heldAdj)) (clockRegs ++ [Reg.CLK_FREQ_ADJ]) :=
      (State.setPll_reports d 3).trans (onlyReports_setReg ..)
    have reports : OnlyReports b (if s.pll = 1 ∧ ¬ s.clk.famRelock ∨ s.pll = 2 then
        (d.setPll 3).setAdj (if s.pll = 2 then avg else s.clk.heldAdj) else d) (logRegs ++ (clockRegs ++ [Reg.CLK_FREQ_ADJ])) := by
      split
      · exact logged.trans held
      · exact logged.mono (List.subset_append_left ..)
    generalize (if s.pll = 1 ∧ ¬ s.clk.famRelock ∨ s.pll = 2 then
      (d.setPll 3).setAdj (if s.pll = 2 then avg else s.clk.heldAdj) else d) = e at reports
    have clk : e.clk = b.clk := by rw [reports.1]
    refine ⟨?_, ?_, (reports.reg (by decide)).trans same⟩
    · exact (congrArg Clock.gptpQualified clk).trans lost.1
    · exact (congrArg Clock.wclkQualified clk).trans lost.2

theorem State.slaveLost_cold {s : State} {port : Fin 2} {avg : Word} (slave : s.ptpRole port = 2) (cold : ¬ s.ptpHot port) :
    let t := s.slaveLost port avg
    t.ptpRole port = 0 ∧ t.ptpRole (1 - port.val) = s.ptpRole (1 - port.val) ∧ t.qualified .gptp = false ∧
      t.qualified .wclk = s.qualified .wclk := by
  have lost : s.slaveLost port avg = (let t := s.setRole port 0
      if t.qualified .gptp then t.loseSource .gptp avg false else t) := (if_pos slave).trans (if_neg cold)
  obtain ⟨own, other, reports, -⟩ := s.setRole_spec port.isLt (role := 0) (by decide)
  intro t
  dsimp only [t]
  rw [lost]
  dsimp only
  generalize s.setRole port 0 = u at own other reports
  have clk : u.clk = s.clk := by rw [reports.1]
  by_cases qualified : u.qualified .gptp = true
  · rw [if_pos qualified]
    obtain ⟨gptp, wclk, stat⟩ := u.loseSource_gptp avg false
    exact ⟨(State.ptpRole_of_reg stat _).trans own, (State.ptpRole_of_reg stat _).trans other, gptp,
      wclk.trans (congrArg Clock.wclkQualified clk)⟩
  · rw [if_neg qualified]
    exact ⟨own, other, by simpa using qualified, congrArg Clock.wclkQualified clk⟩

/-! ### Links (R322) -/

section Link

variable {s : State} {port : Fin 2} {gbe : Bool} {avg : Word}

/-- The registers of a link's state, and the report of a change. -/
def State.linkShown (s : State) (port : Nat) (up gbe : Bool) : State :=
  ((s.setBit (Reg.NET_STAT port) 0 up).setBit (Reg.NET_STAT port) 1 (up && gbe)).raise (Page.neta + port) 0

theorem State.linkChange_eq (s : State) (port : Nat) (up gbe : Bool) (avg : Word) (inj : Bool) : s.linkChange port up gbe avg inj =
    if up then s.linkShown port up gbe
    else (((s.linkShown port up gbe).pageErr (Page.neta + port)).logError (0x1501 + 256 * port) 0 port inj).slaveLost port avg := rfl

theorem netStat_notMem_raise : ∀ p : Fin 2, Reg.NET_STAT p ∉ raiseRegs (Page.neta + p) := by decide

theorem State.linkShown_spec (s : State) (port : Fin 2) (up gbe : Bool) :
    let t := s.linkShown port up gbe
    t.bit (Reg.NET_STAT port) 0 = up ∧ t.bit (Reg.NET_STAT port) 1 = (up && gbe) ∧
      t.bit (Reg.PAGE_IRQ_STAT (Page.neta + port)) 0 = true ∧ OnlyReports s t (Reg.NET_STAT port :: raiseRegs (Page.neta + port)) := by
  have first := onlyReports_setBit s (Reg.NET_STAT port) 0 up
  have link := State.bit_setBit_same s (Reg.NET_STAT port) (i := 0) up (by decide)
  intro t
  dsimp only [t, State.linkShown]
  generalize s.setBit (Reg.NET_STAT port) 0 up = u at first link
  have second := onlyReports_setBit u (Reg.NET_STAT port) 1 (up && gbe)
  have speed := State.bit_setBit_same u (Reg.NET_STAT port) (i := 1) (up && gbe) (by decide)
  have kept : (u.setBit (Reg.NET_STAT port) 1 (up && gbe)).bit (Reg.NET_STAT port) 0 = up :=
    (State.bit_setBit u _ _ (by decide) 0).trans ((if_neg (by decide)).trans link)
  generalize u.setBit (Reg.NET_STAT port) 1 (up && gbe) = v at second speed kept
  have raised := onlyReports_raise v (Page.neta + port) 0
  have irq := v.bit_raise_same (Page.neta + port) (b := 0) (by decide)
  generalize v.raise (Page.neta + port) 0 = w at raised irq
  have stat := raised.reg (netStat_notMem_raise port)
  refine ⟨(State.bit_of_reg stat 0).trans kept, (State.bit_of_reg stat 1).trans speed, irq, ((first.trans second).trans raised).mono fun x hx => ?_⟩
  simp only [List.mem_append, List.mem_cons, List.not_mem_nil, or_false] at hx ⊢
  tauto

theorem linkChange_none {up : Bool} (same : s.bit (Reg.NET_STAT port) 0 = up) : Completes (.linkChange port up gbe avg) s (fun t => t = s) :=
  ⟨s, if_pos same, rfl⟩

theorem linkChange_up (down : s.bit (Reg.NET_STAT port) 0 = false) : Completes (.linkChange port true gbe avg) s (fun t =>
    t.bit (Reg.NET_STAT port) 0 = true ∧ t.bit (Reg.NET_STAT port) 1 = gbe ∧ t.bit (Reg.PAGE_IRQ_STAT (Page.neta + port)) 0 = true ∧
    OnlyReports s t (Reg.NET_STAT port :: raiseRegs (Page.neta + port))) := by
  have run : exec (.linkChange port true gbe avg) s = .next (s.linkShown port true gbe) :=
    (if_neg (by rw [down]; decide)).trans (congrArg _ ((s.linkChange_eq ..).trans (if_pos rfl)))
  exact ⟨_, run, s.linkShown_spec port true gbe⟩

theorem pageErrCnt_notMem : ∀ p : Fin 2, Reg.PAGE_ERR_CNT (Page.neta + p) ∉ logRegs ∧
    Reg.PAGE_ERR_CNT (Page.neta + p) ∉ Reg.NET_STAT p :: raiseRegs (Page.neta + p) ∧
    (∀ a ∈ [Reg.NET_STAT p, Reg.PAGE_IRQ_STAT (Page.neta + p)], a ∉ Reg.PAGE_ERR_CNT (Page.neta + p) :: logRegs) ∧
    Reg.ERR_LOG_CNT ∉ Reg.PAGE_ERR_CNT (Page.neta + p) :: Reg.NET_STAT p :: raiseRegs (Page.neta + p) := by decide

theorem ptpStat_notMem : ∀ p : Fin 2, Reg.PTP_STAT ∉
    (Reg.NET_STAT p :: raiseRegs (Page.neta + p)) ++ [Reg.PAGE_ERR_CNT (Page.neta + p)] ++ logRegs := by decide

theorem linkChange_down (up : s.bit (Reg.NET_STAT port) 0 = true) (idle : s.ptpRole port < 2) :
    Completes (.linkChange port false gbe avg) s (fun t => t.bit (Reg.NET_STAT port) 0 = false ∧
      t.bit (Reg.NET_STAT port) 1 = false ∧ Counted s t (Reg.PAGE_ERR_CNT (Page.neta + port)) ∧ Counted s t Reg.ERR_LOG_CNT ∧
      t.bit (Reg.PAGE_IRQ_STAT (Page.neta + port)) 0 = true ∧
      OnlyReports s t ([Reg.NET_STAT port, Reg.PAGE_ERR_CNT (Page.neta + port)] ++ raiseRegs (Page.neta + port) ++ logRegs)) := by
  have run : exec (.linkChange port false gbe avg) s =
      .next ((((s.linkShown port false gbe).pageErr (Page.neta + port)).logError (0x1501 + 256 * port.val) 0 port.val false).slaveLost port avg) :=
    (if_neg (by rw [up]; decide)).trans (congrArg _ ((s.linkChange_eq ..).trans (if_neg Bool.false_ne_true)))
  obtain ⟨link, speed, irq, shown⟩ := s.linkShown_spec port false gbe
  obtain ⟨cntLog, cntShown, kept, logShown⟩ := pageErrCnt_notMem port
  generalize s.linkShown port false gbe = t at run link speed irq shown
  have erred := onlyReports_pageErr t (Page.neta + port)
  have counted : Counted t (t.pageErr (Page.neta + port)) (Reg.PAGE_ERR_CNT (Page.neta + port)) := counted_bump t _
  generalize t.pageErr (Page.neta + port) = u at run erred counted
  have logged := onlyReports_logError u (0x1501 + 256 * port.val) 0 port.val false
  have logs := counted_logError u (0x1501 + 256 * port.val) 0 port.val false
  generalize u.logError (0x1501 + 256 * port.val) 0 port.val false = w at run logged logs
  have all := (shown.trans erred).trans logged
  have same : ∀ a ∈ [Reg.NET_STAT port, Reg.PAGE_IRQ_STAT (Page.neta + port)], w.reg a = t.reg a := fun a ha =>
    (erred.trans logged).reg (kept a ha)
  have other : w.ptpRole port < 2 := by
    rw [State.ptpRole_of_reg (all.reg (ptpStat_notMem port))]
    exact idle
  rw [State.slaveLost_other other] at run
  refine ⟨_, run, (State.bit_of_reg (same _ List.mem_cons_self) 0).trans link, (State.bit_of_reg (same _ List.mem_cons_self) 1).trans speed,
    (counted.of_reg_eq (shown.reg cntShown)).of_reg_eq_after (logged.reg cntLog), logs.of_reg_eq ((shown.trans erred).reg ?_),
    (State.bit_of_reg (same _ (List.mem_cons_of_mem _ List.mem_cons_self)) 0).trans irq, all.mono fun x hx => ?_⟩
  · simp only [List.mem_append, List.mem_cons, List.not_mem_nil, or_false, not_or] at logShown ⊢
    exact ⟨logShown.2, logShown.1⟩
  · simp only [List.mem_append, List.mem_cons, List.not_mem_nil, or_false] at hx ⊢
    tauto

end Link

end Sys2Proof.Machine
end

section
/-! PROOFS. Frames and messages of the Ethernet ports; the statement NetworkPorts. -/

namespace Sys2Proof.Machine

/-! ### Messages that are sent (R326) -/

/-- What has left the block, with `l` after it, the latest first. -/
def Outside.after (o : Outside) (l : List Sent) : Outside := { o with sent := l ++ o.sent }

/-- The messages `l`, the latest first, have left the block. -/
def LeftBlock (s t : State) (l : List Sent) : Prop := t = { s with out := s.out.after l, pmu := t.pmu }

theorem LeftBlock.spec {s t : State} {l : List Sent} (h : LeftBlock s t l) :
    t.out = s.out.after l ∧ t = { s with out := t.out, pmu := t.pmu } := by
  have out : t.out = s.out.after l := by rw [h]
  exact ⟨out, by rw [out]; exact h⟩

theorem LeftBlock.reg {s t : State} {l : List Sent} (h : LeftBlock s t l) (a : Nat) : t.reg a = s.reg a := by
  rw [State.reg, h, State.reg]

theorem LeftBlock.sendFrame {s t : State} {l : List Sent} (h : LeftBlock s t l) (p : Nat) (x : Sent) : LeftBlock s (t.sendFrame p x) (x :: l) := by
  have sent : t.sendFrame p x = { t with out := { t.out with sent := x :: t.out.sent }, pmu := (t.sendFrame p x).pmu } := rfl
  generalize t.sendFrame p x = u at sent
  unfold LeftBlock
  rw [sent, h]
  rfl

theorem LeftBlock.count {s t : State} {l : List Sent} (h : LeftBlock s t l) (i n : Nat) : LeftBlock s (t.count i n) l := by
  have counted : t.count i n = { t with pmu := (t.count i n).pmu } := rfl
  generalize t.count i n = u at counted
  unfold LeftBlock
  rw [counted, h]

/-- Ports that send one after the other. -/
theorem leftBlock_foldl {s : State} {f : State → Nat → State} {c : Nat → Bool} {x : Nat → Sent}
    (step : ∀ t l p, LeftBlock s t l → LeftBlock s (f t p) ((if c p then [x p] else []) ++ l)) (ps : List Nat) {t : State} {l : List Sent}
    (h : LeftBlock s t l) : LeftBlock s (ps.foldl f t) ((ps.filter c).reverse.map x ++ l) := by
  induction ps generalizing t l with
  | nil => exact h
  | cons p ps ih =>
    have rest := ih (step t l p h)
    rw [List.foldl_cons]
    cases hc : c p with
    | true => simpa [hc] using rest
    | false => simpa [hc] using rest

theorem LeftBlock.portUp {s t : State} {l : List Sent} (h : LeftBlock s t l) (p : Nat) : t.portUp p = s.portUp p := by
  unfold State.portUp State.pageOn
  rw [State.bit_of_reg (h.reg _), State.bit_of_reg (h.reg _)]

theorem LeftBlock.pageOn {s t : State} {l : List Sent} (h : LeftBlock s t l) (p : Nat) : t.pageOn p = s.pageOn p := State.bit_of_reg (h.reg _) 0

theorem syncTransmit_sends (s : State) : Completes .syncTransmit s (fun t =>
    t.out = s.out.after (((List.range 2).filter (fun p => (s.pageOn Page.ptp && s.portUp p) && decide (s.ptpRole p = 1))).reverse.map
      (fun p => .ptpFrame p 0)) ∧ t = { s with out := t.out, pmu := t.pmu }) := by
  have all := leftBlock_foldl (s := s) (c := fun p => (s.pageOn Page.ptp && s.portUp p) && decide (s.ptpRole p = 1)) (x := fun p => .ptpFrame p 0)
    (f := fun t p => if t.pageOn Page.ptp ∧ t.portUp p ∧ t.ptpRole p = 1 then (t.sendFrame p (.ptpFrame p 0)).count (483 + p) 1 else t)
    (fun t l p h => by
      rw [h.pageOn, h.portUp, State.ptpRole_of_reg (h.reg _)]
      by_cases go : s.pageOn Page.ptp = true ∧ s.portUp p = true ∧ s.ptpRole p = 1
      · rw [if_pos go, if_pos (by simp [go])]
        exact (h.sendFrame p _).count ..
      · rw [if_neg go, if_neg (by simpa [and_assoc] using go)]
        exact h)
    (List.range 2) (t := s) (l := []) rfl
  rw [List.append_nil] at all
  exact ⟨_, rfl, all.spec⟩

theorem pdelayRequestTransmit_sends (s : State) : Completes .pdelayRequestTransmit s (fun t =>
    t.out = s.out.after (((List.range 2).filter (fun p => s.pageOn Page.ptp && s.portUp p)).reverse.map (fun p => .ptpFrame p 1)) ∧
    t = { s with out := t.out, pmu := t.pmu }) := by
  have all := leftBlock_foldl (s := s) (c := fun p => s.pageOn Page.ptp && s.portUp p) (x := fun p => .ptpFrame p 1)
    (f := fun t p => if t.pageOn Page.ptp ∧ t.portUp p then t.sendFrame p (.ptpFrame p 1) else t)
    (fun t l p h => by
      rw [h.pageOn, h.portUp]
      by_cases go : s.pageOn Page.ptp = true ∧ s.portUp p = true
      · rw [if_pos go, if_pos (by simp [go])]
        exact h.sendFrame p _
      · rw [if_neg go, if_neg (by simpa using go)]
        exact h)
    (List.range 2) (t := s) (l := []) rfl
  rw [List.append_nil] at all
  exact ⟨_, rfl, all.spec⟩

/-! ### Frames (R322, R323, R336) -/

section Frames

variable {s : State} {port : Fin 2} {bad : Bool} {frame : List Byte} {now buf : BitVec 64} {ptp : Option PtpView}

theorem frameReceive_closed (closed : s.portUp port = false ∨ s.svc.suppressed = some port.val) :
    Completes (.frameReceive port bad frame now ptp buf) s (fun t => t = s) := ⟨s, if_pos closed, rfl⟩

/-- A port that takes frames. -/
def State.portTakes (s : State) (port : Nat) : Prop := s.portUp port = true ∧ s.svc.suppressed ≠ some port

theorem State.portTakes.open_ (h : s.portTakes port) : ¬ (s.portUp port = false ∨ s.svc.suppressed = some port.val) := by
  obtain ⟨up, free⟩ := h
  rw [up]
  simpa using free

theorem rxErr_notMem : ∀ p : Fin 2, Reg.NET_RX_ERR_CNT p ∉ raiseRegs (Page.neta + p) ∧ Reg.NET_RX_ERR_CNT p ∉ logRegs ∧
    Reg.ERR_LOG_CNT ∉ Reg.NET_RX_ERR_CNT p :: raiseRegs (Page.neta + p) := by decide

theorem frameReceive_bad (takes : s.portTakes port) (wrong : bad = true ∨ 1518 < frame.length ∨ frame.length < 60) :
    Completes (.frameReceive port bad frame now ptp buf) s (fun t =>
      Counted s t (Reg.NET_RX_ERR_CNT port) ∧ Counted s t Reg.ERR_LOG_CNT ∧ t.bit (Reg.PAGE_IRQ_STAT (Page.neta + port)) 1 = true ∧
      OnlyReports s t (Reg.NET_RX_ERR_CNT port :: raiseRegs (Page.neta + port) ++ logRegs)) := by
  have real : (bad || decide (1518 < frame.length) || decide (frame.length < 60)) = true := by simpa [or_assoc] using wrong
  have run : exec (.frameReceive port bad frame now ptp buf) s =
      .next (((s.logError (256 * (Page.neta + port) + 0) 0 port.val false).bump (Reg.NET_RX_ERR_CNT port)).raise (Page.neta + port) 1) := by
    refine (if_neg takes.open_).trans ?_
    dsimp only
    rw [real]
    simp only [State.detect_real, if_true]
  obtain ⟨cntRaise, cntLog, logOther⟩ := rxErr_notMem port
  refine ⟨_, run, ?_⟩
  have logged := onlyReports_logError s (256 * (Page.neta + port) + 0) 0 port.val false
  have logs := counted_logError s (256 * (Page.neta + port) + 0) 0 port.val false
  generalize s.logError (256 * (Page.neta + port) + 0) 0 port.val false = t at logged logs
  have bumped := onlyReports_bump t (Reg.NET_RX_ERR_CNT port)
  have counted := counted_bump t (Reg.NET_RX_ERR_CNT port)
  generalize t.bump (Reg.NET_RX_ERR_CNT port) = u at bumped counted
  have raised := onlyReports_raise u (Page.neta + port) 1
  have irq := u.bit_raise_same (Page.neta + port) (b := 1) (by decide)
  generalize u.raise (Page.neta + port) 1 = w at raised irq
  refine ⟨(counted.of_reg_eq (logged.reg cntLog)).of_reg_eq_after (raised.reg cntRaise),
    logs.of_reg_eq_after ((bumped.trans raised).reg (by simpa using logOther)), irq, ((logged.trans bumped).trans raised).mono fun x hx => ?_⟩
  simp only [List.mem_append, List.mem_cons, List.not_mem_nil, or_false] at hx ⊢
  tauto

/-- A frame that is counted as received. -/
def State.frameTaken (s : State) (port : Nat) : State := (s.bump (Reg.NET_RX_FRM_CNT port)).count (481 + port) 1

theorem State.frameTaken_reports (s : State) (port : Nat) :
    OnlyReports s (s.frameTaken port) [Reg.NET_RX_FRM_CNT port] ∧ Counted s (s.frameTaken port) (Reg.NET_RX_FRM_CNT port) := by
  have bumped := onlyReports_bump s (Reg.NET_RX_FRM_CNT port)
  have counted := counted_bump s (Reg.NET_RX_FRM_CNT port)
  unfold State.frameTaken
  generalize s.bump (Reg.NET_RX_FRM_CNT port) = t at bumped counted
  have pmu := onlyReports_count t (481 + port) 1
  exact ⟨bumped.trans pmu, counted.of_reg_eq_after (pmu.reg (List.not_mem_nil))⟩

theorem exec_frameReceive (takes : s.portTakes port) (good : bad = false) (long : 60 ≤ frame.length) (short : frame.length ≤ 1518)
    (unarmed : s.bit (Reg.PAGE_ERR_INJ (Page.neta + port)) 30 = false) (asleep : s.bit Reg.PWR_WAKE_CFG 2 = false) :
    exec (.frameReceive port bad frame now ptp buf) s = .next ((s.frameTaken port).classify port frame now.toNat ptp buf) := by
  have fine : (bad || decide (1518 < frame.length) || decide (frame.length < 60)) = false := by
    rw [good, decide_eq_false (by omega), decide_eq_false (by omega)]
    rfl
  have wake : (s.frameTaken port).bit Reg.PWR_WAKE_CFG 2 = false :=
    (State.bit_of_reg ((s.frameTaken_reports port).1.reg (by rw [List.mem_singleton]; dsimp only [Reg.NET_RX_FRM_CNT, Reg.PWR_WAKE_CFG]; omega)) 2).trans asleep
  refine (if_neg takes.open_).trans ?_
  dsimp only
  rw [fine]
  simp only [State.detect_unarmed unarmed, Bool.false_eq_true, if_false]
  exact congrArg (fun u : State => Host.Outcome.next (u.classify port frame now.toNat ptp buf)) (if_neg fun h => by
    exact Bool.false_ne_true (wake.symm.trans h.1))

/-- A frame of another VLAN than the port's own. -/
def State.foreignTo (s : State) (port : Nat) (frame : List Byte) : Prop :=
  ((ethFrame frame).tag.map (fun t => bitsOf t 0 12)).getD 0 ≠ 0 ∧
    ((ethFrame frame).tag.map (fun t => bitsOf t 0 12)).getD 0 ≠ s.fld (Reg.NET_CFG port) 16 12

theorem State.classify_foreign {s : State} {port : Nat} (foreign : s.foreignTo port frame) (now : Nat) :
    s.classify port frame now ptp buf = s.hostPacket port frame (ethFrame frame).pcp false buf := by
  unfold State.classify
  dsimp only
  exact if_pos (decide_eq_false (not_or.2 foreign))

theorem State.classify_ptp {s : State} {port : Nat} (own : ¬ s.foreignTo port frame) (dst : (ethFrame frame).dst = 0x0180C200000E)
    (etherType : (ethFrame frame).etherType = 0x88F7) (on : s.pageOn Page.ptp = true) (now : Nat) (x : PtpView) :
    s.classify port frame now (some x) buf = s.applyPtp x := by
  unfold State.classify
  dsimp only
  refine (if_neg ?_).trans ((if_pos ⟨dst, etherType⟩).trans (if_pos on))
  rw [decide_eq_false_iff_not, not_not]
  unfold State.foreignTo at own
  tauto

end Frames

section HostPath

variable {s : State} {port : Fin 2}

/-- Entries between CI and PI of the receive ring. -/
def State.hrxUsed (s : State) (port : Nat) : Nat :=
  (s.fld (Reg.NET_HRX_PI port) 0 16 + 2 ^ 16 - s.fld (Reg.NET_HRX_CI port) 0 16) % 2 ^ 16

/-- Whether the receive ring takes a frame. -/
def State.hrxRoom (s : State) (port : Nat) : Prop :=
  s.bit (Reg.NET_HRX_CFG port) 8 = true ∧ s.hrxUsed port < 2 ^ max 4 (min 12 (s.fld (Reg.NET_HRX_CFG port) 0 4))

theorem hrx_notMem : ∀ p : Fin 2, Reg.NET_HRX_PI p ∉ raiseRegs (Page.neta + p) ∧ Reg.NET_HOST_DROP_CNT p ∉ raiseRegs (Page.neta + p) := by decide

theorem State.hostPacket_dropped (full : ¬ s.hrxRoom port) (frame : List Byte) (pcp : Nat) (hwump : Bool) (buf : BitVec 64) :
    let t := s.hostPacket port frame pcp hwump buf
    Counted s t (Reg.NET_HOST_DROP_CNT port) ∧ t.bit (Reg.PAGE_IRQ_STAT (Page.neta + port)) 2 = true ∧
      OnlyReports s t (Reg.NET_HOST_DROP_CNT port :: raiseRegs (Page.neta + port)) := by
  have drop : s.hostPacket port frame pcp hwump buf = (s.bump (Reg.NET_HOST_DROP_CNT port)).raise (Page.neta + port) 2 := by
    refine if_pos ?_
    rw [← Bool.not_eq_true, ← Nat.not_lt]
    exact Decidable.not_and_iff_not_or_not.1 full
  intro t
  dsimp only [t]
  rw [drop]
  have bumped := onlyReports_bump s (Reg.NET_HOST_DROP_CNT port)
  have counted := counted_bump s (Reg.NET_HOST_DROP_CNT port)
  generalize s.bump (Reg.NET_HOST_DROP_CNT port) = u at bumped counted
  have raised := onlyReports_raise u (Page.neta + port) 2
  have irq := u.bit_raise_same (Page.neta + port) (b := 2) (by decide)
  generalize u.raise (Page.neta + port) 2 = w at raised irq
  exact ⟨counted.of_reg_eq_after (raised.reg (hrx_notMem port).2), irq, bumped.trans raised⟩

theorem onlyReports_putHost (s : State) (a : Nat) (bs : List Byte) (l : List Nat) : OnlyReports s (s.putHost a bs) l := by
  have frame := State.putHost_frame bs s a
  have regs := s.reg_putHost a bs
  generalize s.putHost a bs = t at frame regs
  refine ⟨?_, fun a _ => regs a⟩
  rw [frame]

/-- A frame stands in the buffer of the next receive entry, and the entry is the host's. -/
def State.hrxStored (s : State) (port : Nat) (frame : List Byte) (pcp : Nat) (hwump : Bool) (buf : BitVec 64) : State :=
  let pi := s.fld (Reg.NET_HRX_PI port) 0 16
  let base := (s.reg (Reg.NET_HRX_BASE_LO port)).toNat / 16 * 16 + (s.reg (Reg.NET_HRX_BASE_HI port)).toNat * 2 ^ 32
  let entry := base + 16 * (pi % ringSize (s.fld (Reg.NET_HRX_CFG port) 0 4) 4 12)
  ((s.putHost buf.toNat frame).putHost (entry + 8)
    (leBytes 2 frame.length ++ leBytes 1 (1 + (if hwump then 2 else 0)) ++ leBytes 1 pcp ++ leBytes 4 (s.clk.mt.toNat / 256))).setReg
      (Reg.NET_HRX_PI port) (BitVec.ofNat 32 ((pi + 1) % 2 ^ 16))

theorem State.hrxStored_reports (s : State) (port : Nat) (frame : List Byte) (pcp : Nat) (hwump : Bool) (buf : BitVec 64) :
    (s.hrxStored port frame pcp hwump buf).reg (Reg.NET_HRX_PI port) = BitVec.ofNat 32 ((s.fld (Reg.NET_HRX_PI port) 0 16 + 1) % 2 ^ 16) ∧
      OnlyReports s (s.hrxStored port frame pcp hwump buf) [Reg.NET_HRX_PI port] :=
  ⟨State.reg_setReg_same .., ((onlyReports_putHost s _ _ []).trans (onlyReports_putHost _ _ _ [])).trans (onlyReports_setReg ..)⟩

theorem State.hostPacket_taken (room : s.hrxRoom port) (frame : List Byte) (pcp : Nat) (hwump : Bool) (buf : BitVec 64) :
    let t := s.hostPacket port frame pcp hwump buf
    t.reg (Reg.NET_HRX_PI port) = BitVec.ofNat 32 ((s.fld (Reg.NET_HRX_PI port) 0 16 + 1) % 2 ^ 16) ∧
      (s.hrxUsed port = 0 → t.bit (Reg.PAGE_IRQ_STAT (Page.neta + port)) 2 = true) ∧
      OnlyReports s t (Reg.NET_HRX_PI port :: raiseRegs (Page.neta + port)) := by
  have takes : ¬ (s.bit (Reg.NET_HRX_CFG port) 8 = false ∨ ringSize (s.fld (Reg.NET_HRX_CFG port) 0 4) 4 12 ≤ s.hrxUsed port) := by
    rw [← Bool.not_eq_true, ← Nat.not_lt]
    exact fun h => Decidable.not_and_iff_not_or_not.2 h room
  have stored := s.hrxStored_reports port frame pcp hwump buf
  have packet : s.hostPacket port frame pcp hwump buf = if s.hrxUsed port = 0 then
      (s.hrxStored port frame pcp hwump buf).raise (Page.neta + port) 2 else s.hrxStored port frame pcp hwump buf := if_neg takes
  obtain ⟨pi, stored⟩ := stored
  intro t
  dsimp only [t]
  rw [packet]
  generalize s.hrxStored port frame pcp hwump buf = u at pi stored
  by_cases first : s.hrxUsed port = 0
  · rw [if_pos first]
    have raised := onlyReports_raise u (Page.neta + port) 2
    have irq := u.bit_raise_same (Page.neta + port) (b := 2) (by decide)
    generalize u.raise (Page.neta + port) 2 = w at raised irq
    exact ⟨(raised.reg (hrx_notMem port).1).trans pi, fun _ => irq, stored.trans raised⟩
  · rw [if_neg first]
    exact ⟨pi, fun h => absurd h first, stored.mono (List.subset_append_left [_] _)⟩

/-! ### The transmit ring (R337) -/

variable {pcp : Fin 8} {frame : List Byte}

/-- Whether the port has a frame of the host to send. -/
def State.htxReady (s : State) (port : Nat) : Prop :=
  s.bit (Reg.NET_HTX_CFG port) 8 = true ∧ s.fld (Reg.NET_HTX_PI port) 0 16 ≠ s.fld (Reg.NET_HTX_CI port) 0 16 ∧ s.portUp port = true

/-- The address of the next transmit entry. -/
def State.htxEntry (s : State) (port : Nat) : Nat :=
  (s.reg (Reg.NET_HTX_BASE_LO port)).toNat / 16 * 16 + (s.reg (Reg.NET_HTX_BASE_HI port)).toNat * 2 ^ 32 +
    16 * (s.fld (Reg.NET_HTX_CI port) 0 16 % 2 ^ max 4 (min 12 (s.fld (Reg.NET_HTX_CFG port) 0 4)))

/-- The frame that leaves: the host's, with the port's VLAN tag. -/
def State.htxFrame (s : State) (port pcp : Nat) (frame : List Byte) : List Byte :=
  let tag : List Byte := [0x81, 0x00, BitVec.ofNat 8 (32 * pcp + s.fld (Reg.NET_CFG port) 16 12 / 256),
    BitVec.ofNat 8 (s.fld (Reg.NET_CFG port) 16 12)]
  frame.take 12 ++ (if s.bit (Reg.NET_CFG port) 8 then tag else []) ++ frame.drop 12

/-- The tag's control word, most significant byte first. -/
theorem tagBytes (pcp vid : Nat) : (leBytes 2 (8192 * pcp + vid)).reverse = [BitVec.ofNat 8 (32 * pcp + vid / 256), BitVec.ofNat 8 vid] := by
  have high : (8192 * pcp + vid) / 256 = 32 * pcp + vid / 256 := by omega
  have low : BitVec.ofNat 8 (8192 * pcp + vid) = BitVec.ofNat 8 vid := by
    refine BitVec.eq_of_toNat_eq ?_
    simp only [BitVec.toNat_ofNat]
    omega
  rw [leBytes, leBytes, leBytes, high, low]
  rfl

theorem hostFrameSent_none (idle : ¬ s.htxReady port) : Completes (.hostFrameSent port pcp frame) s (fun t => t = s) := by
  refine ⟨s, if_pos ?_, rfl⟩
  unfold State.htxReady at idle
  rw [← Bool.not_eq_true, ← Bool.not_eq_true (s.portUp port)]
  tauto

theorem hostFrameSent_sends (ready : s.htxReady port) : Completes (.hostFrameSent port pcp frame) s (fun t =>
    t.reg (Reg.NET_HTX_CI port) = BitVec.ofNat 32 ((s.fld (Reg.NET_HTX_CI port) 0 16 + 1) % 2 ^ 16) ∧
    t.out.sent = .frame port (s.htxFrame port pcp frame) :: s.out.sent ∧ t.hostByte (s.htxEntry port + 10) = 1 ∧
    OnlyReports s t [Reg.NET_HTX_CI port]) := by
  have busy : ¬ (s.bit (Reg.NET_HTX_CFG port) 8 = false ∨ s.fld (Reg.NET_HTX_PI port) 0 16 = s.fld (Reg.NET_HTX_CI port) 0 16 ∨
      s.portUp port = false) := by
    obtain ⟨on, entry, up⟩ := ready
    rw [on, up]
    simpa using entry
  have run : exec (.hostFrameSent port pcp frame) s = .next (((s.putHost (s.htxEntry port + 10) [1]).sendFrame port
      (.frame port (s.htxFrame port pcp frame))).setReg (Reg.NET_HTX_CI port) (BitVec.ofNat 32 ((s.fld (Reg.NET_HTX_CI port) 0 16 + 1) % 2 ^ 16))) := by
    refine (if_neg busy).trans ?_
    rw [tagBytes]
    rfl
  refine ⟨_, run, ?_⟩
  have put := State.putHost_frame [1] s (s.htxEntry port + 10)
  have byte : (s.putHost (s.htxEntry port + 10) [1]).hostByte (s.htxEntry port + 10) = 1 :=
    State.hostByte_putHost [1] s (s.htxEntry port + 10) (by decide) (j := 0) (by decide)
  have first := onlyReports_putHost s (s.htxEntry port + 10) [1] []
  generalize s.putHost (s.htxEntry port + 10) [1] = t at put byte first
  have sent : t.sendFrame port (.frame port (s.htxFrame port pcp frame)) = { t with
    out := { t.out with sent := .frame port (s.htxFrame port pcp frame) :: t.out.sent }
    pmu := (t.sendFrame port (.frame port (s.htxFrame port pcp frame))).pmu } := rfl
  have same : ∀ a, (t.sendFrame port (.frame port (s.htxFrame port pcp frame))).reg a = t.reg a := fun _ => rfl
  generalize t.sendFrame port (.frame port (s.htxFrame port pcp frame)) = u at sent same
  have second : OnlyReports t u [] := ⟨by rw [sent], fun a _ => same a⟩
  have holds := u.reg_setReg_same (Reg.NET_HTX_CI port) (BitVec.ofNat 32 ((s.fld (Reg.NET_HTX_CI port) 0 16 + 1) % 2 ^ 16))
  have third := onlyRegs_setReg u (Reg.NET_HTX_CI port) (BitVec.ofNat 32 ((s.fld (Reg.NET_HTX_CI port) 0 16 + 1) % 2 ^ 16))
  generalize u.setReg (Reg.NET_HTX_CI port) (BitVec.ofNat 32 ((s.fld (Reg.NET_HTX_CI port) 0 16 + 1) % 2 ^ 16)) = w at holds third
  have out : w.out = { t.out with sent := .frame port (s.htxFrame port pcp frame) :: t.out.sent } := by rw [third.1, sent]
  refine ⟨holds, ?_, ?_, (first.trans second).trans third.onlyReports⟩
  · rw [out, put]
  · rw [State.hostByte_congr (s := t) (by rw [out]), byte]

end HostPath

/-! ### What the engine concludes -/

theorem State.applyPtp_spec (s : State) (x : PtpView) :
    let t := s.applyPtp x
    t.ptpRole 0 = x.roleA % 4 ∧ t.ptpRole 1 = x.roleB % 4 ∧ t.net = { s.net with standby := x.standby } ∧ t.reg Reg.PTP_PDELAY_A = x.delayA ∧
      t.reg Reg.PTP_PDELAY_B = x.delayB ∧ t = { s with regs := t.regs, pmu := t.pmu, out := t.out, net := t.net } ∧
      KeepsRegs s t ([Reg.PTP_STAT, Reg.PTP_GM_ID_LO, Reg.PTP_GM_ID_HI, Reg.PTP_PDELAY_A, Reg.PTP_PDELAY_B] ++ raiseRegs Page.ptp) := by
  obtain ⟨holds, reports, -⟩ := s.setPtp_spec x.roleA x.roleB x.gm x.ascA x.ascB
  obtain ⟨roleA, roleB⟩ := State.ptpRole_of_word x.roleA.isLt x.roleB.isLt holds
  intro t
  dsimp only [t, State.applyPtp]
  generalize s.setPtp x.roleA x.roleB x.gm x.ascA x.ascB = u at reports roleA roleB
  have lo := onlyReports_setReg u Reg.PTP_GM_ID_LO (x.gmId.truncate 32)
  generalize u.setReg Reg.PTP_GM_ID_LO (x.gmId.truncate 32) = v at lo
  have hi := onlyReports_setReg v Reg.PTP_GM_ID_HI ((x.gmId >>> 32).truncate 32)
  generalize v.setReg Reg.PTP_GM_ID_HI ((x.gmId >>> 32).truncate 32) = w at hi
  have delayA := onlyReports_setReg w Reg.PTP_PDELAY_A x.delayA
  have holdsA := w.reg_setReg_same Reg.PTP_PDELAY_A x.delayA
  generalize w.setReg Reg.PTP_PDELAY_A x.delayA = y at delayA holdsA
  have delayB := onlyReports_setReg y Reg.PTP_PDELAY_B x.delayB
  have holdsB := y.reg_setReg_same Reg.PTP_PDELAY_B x.delayB
  generalize y.setReg Reg.PTP_PDELAY_B x.delayB = z at delayB holdsB
  have after := ((lo.trans hi).trans delayA).trans delayB
  have all := reports.trans after
  have reg : ∀ a, ({ z with net := { z.net with standby := x.standby } } : State).reg a = z.reg a := fun _ => rfl
  have stat := (reg Reg.PTP_STAT).trans (after.reg (by decide))
  refine ⟨(State.ptpRole_of_reg stat 0).trans (roleA.trans (Nat.mod_eq_of_lt x.roleA.isLt).symm),
    (State.ptpRole_of_reg stat 1).trans (roleB.trans (Nat.mod_eq_of_lt x.roleB.isLt).symm), ?_,
    (reg _).trans ((delayB.reg (by decide)).trans holdsA), (reg _).trans holdsB, ?_, fun a ha => (reg a).trans (all.reg fun mem => ha ?_)⟩
  · rw [all.1]
  · rw [all.1]
  · simp only [List.mem_append, List.mem_cons, List.not_mem_nil, or_false] at mem ⊢
    tauto

/-! ### What a frame that is taken does -/

theorem rxFrm_apart : ∀ p : Fin 2, Reg.NET_RX_FRM_CNT p ∉ Reg.NET_HRX_PI p :: raiseRegs (Page.neta + p) ∧
    Reg.NET_RX_FRM_CNT p ∉ Reg.NET_HOST_DROP_CNT p :: raiseRegs (Page.neta + p) ∧ Reg.NET_HOST_DROP_CNT p ∉ [Reg.NET_RX_FRM_CNT p] ∧
    Reg.NET_RX_FRM_CNT p ∉ [Reg.PTP_STAT, Reg.PTP_GM_ID_LO, Reg.PTP_GM_ID_HI, Reg.PTP_PDELAY_A, Reg.PTP_PDELAY_B] ++ raiseRegs Page.ptp ∧
    ∀ a ∈ [Reg.NET_CFG p, Reg.NET_HRX_PI p, Reg.NET_HRX_CI p, Reg.NET_HRX_CFG p, Reg.PAGE_CTRL Page.ptp], a ∉ [Reg.NET_RX_FRM_CNT p] := by
  decide

/-- The count of a frame changes nothing that the frame's way depends on. -/
theorem State.frameTaken_same (s : State) (port : Fin 2) (frame : List Byte) :
    let t := s.frameTaken port
    t.foreignTo port frame = s.foreignTo port frame ∧ t.hrxRoom port = s.hrxRoom port ∧ t.hrxUsed port = s.hrxUsed port ∧
      t.fld (Reg.NET_HRX_PI port) 0 16 = s.fld (Reg.NET_HRX_PI port) 0 16 ∧ t.pageOn Page.ptp = s.pageOn Page.ptp := by
  obtain ⟨-, -, -, -, apart⟩ := rxFrm_apart port
  have reports := (s.frameTaken_reports port).1
  intro t
  dsimp only [t]
  generalize s.frameTaken port = u at reports
  have cfg := reports.reg (apart (Reg.NET_CFG port) (by simp))
  have pi := reports.reg (apart (Reg.NET_HRX_PI port) (by simp))
  have ci := reports.reg (apart (Reg.NET_HRX_CI port) (by simp))
  have ring := reports.reg (apart (Reg.NET_HRX_CFG port) (by simp))
  have page := reports.reg (apart (Reg.PAGE_CTRL Page.ptp) (by simp))
  have used : u.hrxUsed port = s.hrxUsed port := by
    unfold State.hrxUsed
    rw [State.fld_of_reg pi, State.fld_of_reg ci]
  refine ⟨?_, ?_, used, State.fld_of_reg pi _ _, State.bit_of_reg page 0⟩
  · unfold State.foreignTo
    rw [State.fld_of_reg cfg]
  · unfold State.hrxRoom
    rw [State.bit_of_reg ring, State.fld_of_reg ring, used]

section Taken

variable {s : State} {port : Fin 2} {bad : Bool} {frame : List Byte} {now buf : BitVec 64} {ptp : Option PtpView}
  (takes : s.portTakes port) (good : bad = false) (long : 60 ≤ frame.length) (short : frame.length ≤ 1518)
  (unarmed : s.bit (Reg.PAGE_ERR_INJ (Page.neta + port)) 30 = false) (asleep : s.bit Reg.PWR_WAKE_CFG 2 = false)
include takes good long short unarmed asleep

theorem frameReceive_foreign (foreign : s.foreignTo port frame) (room : s.hrxRoom port) :
    Completes (.frameReceive port bad frame now ptp buf) s (fun t => Counted s t (Reg.NET_RX_FRM_CNT port) ∧
      t.reg (Reg.NET_HRX_PI port) = BitVec.ofNat 32 ((s.fld (Reg.NET_HRX_PI port) 0 16 + 1) % 2 ^ 16) ∧
      (s.hrxUsed port = 0 → t.bit (Reg.PAGE_IRQ_STAT (Page.neta + port)) 2 = true) ∧
      OnlyReports s t ([Reg.NET_RX_FRM_CNT port, Reg.NET_HRX_PI port] ++ raiseRegs (Page.neta + port))) := by
  obtain ⟨reports, counted⟩ := s.frameTaken_reports port
  obtain ⟨foreign', room', used, pi, -⟩ := s.frameTaken_same port frame
  obtain ⟨apart, -⟩ := rxFrm_apart port
  refine ⟨_, exec_frameReceive takes good long short unarmed asleep, ?_⟩
  generalize s.frameTaken port = t at reports counted foreign' room' used pi
  rw [t.classify_foreign (foreign' ▸ foreign)]
  obtain ⟨entry, irq, more⟩ := t.hostPacket_taken (room' ▸ room) frame (ethFrame frame).pcp false buf
  generalize t.hostPacket port frame (ethFrame frame).pcp false buf = u at entry irq more
  exact ⟨counted.of_reg_eq_after (more.reg apart), by rw [entry, pi], fun first => irq (used.trans first), reports.trans more⟩

theorem frameReceive_foreign_full (foreign : s.foreignTo port frame) (full : ¬ s.hrxRoom port) :
    Completes (.frameReceive port bad frame now ptp buf) s (fun t => Counted s t (Reg.NET_RX_FRM_CNT port) ∧
      Counted s t (Reg.NET_HOST_DROP_CNT port) ∧ t.bit (Reg.PAGE_IRQ_STAT (Page.neta + port)) 2 = true ∧
      OnlyReports s t ([Reg.NET_RX_FRM_CNT port, Reg.NET_HOST_DROP_CNT port] ++ raiseRegs (Page.neta + port))) := by
  obtain ⟨reports, counted⟩ := s.frameTaken_reports port
  obtain ⟨foreign', room', -⟩ := s.frameTaken_same port frame
  obtain ⟨-, apart, drop, -⟩ := rxFrm_apart port
  refine ⟨_, exec_frameReceive takes good long short unarmed asleep, ?_⟩
  generalize s.frameTaken port = t at reports counted foreign' room'
  rw [t.classify_foreign (foreign' ▸ foreign)]
  obtain ⟨dropped, irq, more⟩ := t.hostPacket_dropped (room' ▸ full) frame (ethFrame frame).pcp false buf
  generalize t.hostPacket port frame (ethFrame frame).pcp false buf = u at dropped irq more
  exact ⟨counted.of_reg_eq_after (more.reg apart), dropped.of_reg_eq (reports.reg drop), irq, reports.trans more⟩

theorem frameReceive_ptp {x : PtpView} (view : ptp = some x) (own : ¬ s.foreignTo port frame) (dst : (ethFrame frame).dst = 0x0180C200000E)
    (etherType : (ethFrame frame).etherType = 0x88F7) (on : s.pageOn Page.ptp = true) :
    Completes (.frameReceive port bad frame now ptp buf) s (fun t => t.ptpRole 0 = x.roleA % 4 ∧ t.ptpRole 1 = x.roleB % 4 ∧
      t.net = { s.net with standby := x.standby } ∧ t.reg Reg.PTP_PDELAY_A = x.delayA ∧ t.reg Reg.PTP_PDELAY_B = x.delayB ∧
      t = { s with regs := t.regs, pmu := t.pmu, out := t.out, net := t.net } ∧
      KeepsRegs s t ([Reg.NET_RX_FRM_CNT port, Reg.PTP_STAT, Reg.PTP_GM_ID_LO, Reg.PTP_GM_ID_HI, Reg.PTP_PDELAY_A, Reg.PTP_PDELAY_B] ++
        raiseRegs Page.ptp)) := by
  obtain ⟨reports, -⟩ := s.frameTaken_reports port
  obtain ⟨foreign', -, -, -, page⟩ := s.frameTaken_same port frame
  refine ⟨_, exec_frameReceive takes good long short unarmed asleep, ?_⟩
  generalize s.frameTaken port = t at reports foreign' page
  rw [view, t.classify_ptp (foreign' ▸ own) dst etherType (page.trans on)]
  obtain ⟨roleA, roleB, net, delayA, delayB, rest, kept⟩ := t.applyPtp_spec x
  generalize t.applyPtp x = u at roleA roleB net delayA delayB rest kept
  refine ⟨roleA, roleB, by rw [net, reports.1], delayA, delayB, by rw [rest, reports.1], fun a ha => ?_⟩
  refine (kept a fun mem => ha ?_).trans (reports.reg fun mem => ha ?_)
  · exact List.mem_cons_of_mem _ mem
  · exact List.mem_cons.2 (Or.inl (List.mem_singleton.1 mem))

end Taken

/-- Settles O52: a link or a Sync that is lost ends a role, ports send what their roles ask for, and a frame goes where its VLAN and its type send
it. -/
theorem networkPorts : Obligations.NetworkPorts := by
  unfold Obligations.NetworkPorts
  intro s path port up gbe bad avg v frame now buf ptp pcp
  refine ⟨linkChange_none, fun down isUp => ?_, fun isUp down idle => ?_, fun idle => ⟨_, rfl, State.slaveLost_other idle⟩,
    fun slave hot => ⟨_, rfl, State.slaveLost_hot slave hot⟩, fun slave cold => ⟨_, rfl, State.slaveLost_cold slave cold⟩,
    fun passive => ⟨_, rfl, State.slaveLost_passive passive⟩, syncTransmit_sends s, pdelayRequestTransmit_sends s, frameReceive_closed,
    fun isUp free => ⟨frameReceive_bad ⟨isUp, free⟩, fun good long short unarmed asleep =>
      ⟨frameReceive_foreign ⟨isUp, free⟩ good long short unarmed asleep, frameReceive_foreign_full ⟨isUp, free⟩ good long short unarmed asleep,
        fun x view own => frameReceive_ptp ⟨isUp, free⟩ good long short unarmed asleep view own⟩⟩,
    fun opens => stores_of_storeAct rfl opens, hostFrameSent_none, hostFrameSent_sends⟩
  · rw [isUp]
    exact linkChange_up down
  · rw [down]
    exact linkChange_down isUp idle

end Sys2Proof.Machine
end

section
/-! PROOFS. Fills of the Stream Prefetcher (R229, R234); the statement StreamFills. -/

namespace Sys2Proof.Machine

/-! ### Frames that stand in a ring -/

/-- The address of stream frame `f` of a mono ring at `base`. -/
def ringCell (base f : Nat) : Nat := base + 4 * (f % 1024)

/-- `words` stand in the mono ring at `base` from stream frame `f` on, and nothing else changes but the controller's own records and the counters. -/
structure RingPut (s t : State) (base f : Nat) (words : List Word) : Prop where
  rest : t = { s with con := t.con, ctl := t.ctl, pmu := t.pmu }
  quiet : t.conQuiet
  holds : ∀ i w, words[i]? = some w → t.conWord (ringCell base (f + i)) = w
  others : ∀ x, (∀ i, i < words.length → x < ringCell base (f + i) ∨ ringCell base (f + i) + 4 ≤ x) → t.conByte x = s.conByte x

theorem State.conWord_of_conByte {s t : State} {a : Nat} (h : ∀ j, j < 4 → t.conByte (a + j) = s.conByte (a + j)) : t.conWord a = s.conWord a := by
  have same : t.conBytes a 4 = s.conBytes a 4 := List.map_congr_left fun j hj => h j (List.mem_range.1 hj)
  rw [State.conWord, same, State.conWord]

theorem State.storeFrames_mono (ring : Nat) (cls : Cls) (frames : List (Word × Word)) : ∀ {s : State}, s.conQuiet → ∀ f, frames.length ≤ 1024 →
    RingPut s (s.storeFrames ring false cls f frames) (0x01000000 + 4096 * ring) f (frames.map Prod.fst) := by
  induction frames with
  | nil => exact fun q f _ => ⟨rfl, q, fun i w h => by simp at h, fun _ _ => rfl⟩
  | cons e frames ih =>
    intro s q f short
    obtain ⟨l, r⟩ := e
    rw [List.length_cons] at short
    have first := State.devWrite_quiet q 34 cls (0x01000000 + 4096 * ring + 4 * (f % 1024)) [l]
    have cell : (s.devWrite 34 cls (0x01000000 + 4096 * ring + 4 * (f % 1024)) [l]).conWord (ringCell (0x01000000 + 4096 * ring) f) = l :=
      first.conWord (i := 0) rfl
    have kept : KeepsCon s _ (ringCell (0x01000000 + 4096 * ring) f) 4 := first.keeps
    have frame := first.rest
    have quiet := first.quiet
    rw [State.storeFrames, if_neg Bool.false_ne_true]
    generalize s.devWrite 34 cls (0x01000000 + 4096 * ring + 4 * (f % 1024)) [l] = t at cell kept frame quiet
    have rest := ih quiet (f + 1) (by omega)
    generalize t.storeFrames ring false cls (f + 1) frames = u at rest
    refine ⟨by rw [rest.rest, frame], rest.quiet, fun i w h => ?_, fun x hx => ?_⟩
    · cases i with
      | zero =>
        rw [List.map_cons, List.getElem?_cons_zero, Option.some_inj] at h
        rw [← h, Nat.add_zero, ← cell]
        refine State.conWord_of_conByte fun j hj => rest.others _ fun i hi => ?_
        rw [List.length_map] at hi
        unfold ringCell
        omega
      | succ i =>
        rw [← rest.holds i w h, Nat.add_assoc, Nat.add_comm 1]
    · rw [rest.others x fun i hi => ?_, kept x (hx 0 (by simp))]
      have := hx (i + 1) (by simpa using hi)
      rwa [Nat.add_comm i, ← Nat.add_assoc] at this

theorem RingPut.keepsCon {s t : State} {base f : Nat} {words : List Word} (h : RingPut s t base f words) : KeepsCon s t base 4096 :=
  fun x hx => h.others x fun i _ => by
    unfold ringCell
    omega

/-! ### What a fill reads -/

theorem State.length_dramBytes (s : State) (a n : Nat) : (s.dramBytes a n).length = n := by simp [State.dramBytes]

theorem State.dramBytes_take (s : State) (a : Nat) {n k : Nat} (h : k ≤ n) : (s.dramBytes a n).take k = s.dramBytes a k := by
  obtain ⟨m, rfl⟩ := Nat.exists_eq_add_of_le h
  rw [State.dramBytes_append, List.take_left' (s.length_dramBytes a k)]

theorem State.dramBytes_drop (s : State) (a : Nat) {n k : Nat} (h : k ≤ n) : (s.dramBytes a n).drop k = s.dramBytes (a + k) (n - k) := by
  obtain ⟨m, rfl⟩ := Nat.exists_eq_add_of_le h
  rw [State.dramBytes_append, List.drop_left' (s.length_dramBytes a k), Nat.add_sub_cancel_left]

/-- A mono frame of clean bytes is one sample. -/
theorem Stream.frame_mono (x : Stream) (mono : x.stereo = false) (s : State) (a : Nat) {n : Nat} (h : x.width ≤ n) :
    (x.frame ((s.dramBytes a n).map some)).1 = sampleWord x.width (s.dramBytes a x.width) := by
  have size : x.frameBytes = x.width := by
    unfold Stream.frameBytes
    rw [mono, if_neg Bool.false_ne_true]
  have data : (((s.dramBytes a n).map some).take x.frameBytes).filterMap id = s.dramBytes a x.width := by
    rw [size, ← List.map_take, s.dramBytes_take a h]
    simp [List.filterMap_map]
  unfold Stream.frame
  dsimp only
  rw [data, s.length_dramBytes, size, if_neg (lt_irrefl _), List.take_of_length_le (Nat.le_of_eq (s.length_dramBytes ..))]

theorem Stream.frames_mono (x : Stream) (mono : x.stereo = false) (s : State) (a n : Nat) :
    (x.frames ((s.dramBytes a (n * x.width)).map some) n).map Prod.fst =
      (List.range n).map (fun i => sampleWord x.width (s.dramBytes (a + i * x.width) x.width)) := by
  have size : x.frameBytes = x.width := by
    unfold Stream.frameBytes
    rw [mono, if_neg Bool.false_ne_true]
  unfold Stream.frames
  rw [List.map_map]
  refine List.map_congr_left fun i hi => ?_
  have inside : (i + 1) * x.width ≤ n * x.width := Nat.mul_le_mul_right _ (List.mem_range.1 hi)
  rw [Nat.succ_mul] at inside
  rw [Function.comp_apply, size, ← List.map_drop, s.dramBytes_drop a (by omega), x.frame_mono mono s _ (by omega)]

/-! ### A fill that returns -/

section Fill

variable {s : State} {slot : Fin 1088} {k : Fin 2} {f : Fill}

/-- The fill of a stream that returns next. -/
def State.fillOf (s : State) (slot k : Nat) : Option Fill := s.spf.fills.find? (fun f => decide (f.slot = slot) && decide (f.stream = k))

/-- The state without a fill that has returned. -/
def State.withoutFill (s : State) (f : Fill) : State := { s with spf := { s.spf with fills := s.spf.fills.erase f } }

theorem streamFillReturn_none (none_ : s.fillOf slot k = none) : Completes (.streamFillReturn slot k []) s (fun t => t = s) := by
  refine ⟨s, ?_, rfl⟩
  change Host.Outcome.next (s.fillReturn slot k []) = _
  unfold State.fillReturn
  unfold State.fillOf at none_
  rw [none_]

theorem State.fillReturn_some (fill : s.fillOf slot k = some f) (active : (s.stream slot k).active = true) (gen : (s.stream slot k).gen = f.gen) :
    s.fillReturn slot k [] =
      (let x := s.stream slot k
       let r := (s.withoutFill f).readDram (x.addr + f.pos * x.frameBytes) (f.count * x.frameBytes) [] 64
       let s1 := if f.cls = .express then r.1.count 464 1 else r.1
       let s2 := s1.storeFrames (s.ringOf slot k) x.stereo f.cls f.from_ (x.frames r.2 f.count)
       let s3 := s2.setStream slot k { x with filled := f.from_ + f.count }
       (if r.2.any Option.isNone then s3.streamFault slot k else s3).issueFills slot k 1100) := by
  unfold State.fillReturn
  unfold State.fillOf at fill
  rw [fill]
  refine if_neg ?_
  rw [active, gen]
  simp

theorem State.issueFills_reached {s : State} {slot k : Nat} (reached : (s.stream slot k).target ≤ ((s.stream slot k).asked : Int)) (fuel : Nat) :
    s.issueFills slot k (fuel + 1) = s := by
  rw [State.issueFills]
  exact if_pos (Or.inr (Or.inr reached))

theorem State.stream_setStream (s : State) (slot k : Nat) (x : Stream) : (s.setStream slot k x).stream slot k = x := by
  unfold State.stream State.setStream
  exact Sparse.get_put_same _ _ _

theorem streamFillReturn_stores (fill : s.fillOf slot k = some f) (active : (s.stream slot k).active = true)
    (gen : (s.stream slot k).gen = f.gen) (mono : (s.stream slot k).stereo = false)
    (reached : (s.stream slot k).target ≤ ((s.stream slot k).asked : Int)) (small : f.count * (s.stream slot k).width ≤ 64)
    (wide : 1 ≤ (s.stream slot k).width) (good : s.dram.bad = []) (unarmed : s.bit (Reg.PAGE_ERR_INJ Page.drc) 30 = false) (q : s.conQuiet) :
    Completes (.streamFillReturn slot k []) s (fun t =>
      t.stream slot k = { s.stream slot k with filled := f.from_ + f.count } ∧
      (∀ i, i < f.count → t.conWord (0x01000000 + 4096 * s.ringOf slot k + 4 * ((f.from_ + i) % 1024)) =
        sampleWord (s.stream slot k).width (s.dramBytes ((s.stream slot k).addr + (f.pos + i) * (s.stream slot k).width) (s.stream slot k).width)) ∧
      t.spf.fills = s.spf.fills.erase f ∧ KeepsCon s t (0x01000000 + 4096 * s.ringOf slot k) 4096 ∧ KeepsRegs s t [] ∧
      t = { s with spf := t.spf, con := t.con, ctl := t.ctl, pmu := t.pmu }) := by
  refine ⟨s.fillReturn slot k [], rfl, ?_⟩
  rw [State.fillReturn_some fill active gen]
  have without : s.withoutFill f = { s with spf := { s.spf with fills := s.spf.fills.erase f } } := rfl
  have dramQuiet : (s.withoutFill f).dramQuiet := ⟨unarmed, good⟩
  have conQuiet : (s.withoutFill f).conQuiet := q
  have bytesOf : ∀ a n, (s.withoutFill f).dramBytes a n = s.dramBytes a n := fun _ _ => rfl
  have words : ∀ a, (s.withoutFill f).conByte a = s.conByte a := fun _ => rfl
  generalize s.stream slot k = x at *
  generalize s.withoutFill f = b at *
  have size : x.frameBytes = x.width := by
    unfold Stream.frameBytes
    rw [mono, if_neg Bool.false_ne_true]
  have few : f.count ≤ 64 := (Nat.le_mul_of_pos_right _ wide).trans small
  obtain ⟨only, read⟩ := State.readDram_quiet 64 dramQuiet (x.addr + f.pos * x.frameBytes) (n := f.count * x.frameBytes) (errs := [])
    (fun e he => absurd he List.not_mem_nil) (by rw [size]; exact small)
  dsimp only
  rw [read]
  generalize (b.readDram (x.addr + f.pos * x.frameBytes) (f.count * x.frameBytes) [] 64).1 = r at only
  have counted : PmuOnly b (if f.cls = .express then r.count 464 1 else r) := by
    split
    · exact only.trans (PmuOnly.count ..)
    · exact only
  generalize (if f.cls = .express then r.count 464 1 else r) = u at counted
  have put := State.storeFrames_mono (s.ringOf slot k) f.cls (x.frames ((b.dramBytes (x.addr + f.pos * x.frameBytes) (f.count * x.frameBytes)).map some) f.count)
    (counted.quiet conQuiet) f.from_ (by rw [Stream.frames, List.length_map, List.length_range]; omega)
  rw [size, x.frames_mono mono] at put
  have reached' : ({ x with filled := f.from_ + f.count } : Stream).target ≤ (({ x with filled := f.from_ + f.count } : Stream).asked : Int) :=
    reached
  generalize ({ x with filled := f.from_ + f.count } : Stream) = y at reached' ⊢
  rw [mono, size]
  generalize u.storeFrames (s.ringOf slot k) false f.cls f.from_
    (x.frames ((b.dramBytes (x.addr + f.pos * x.width) (f.count * x.width)).map some) f.count) = v at put
  have whole : (((b.dramBytes (x.addr + f.pos * x.width) (f.count * x.width)).map some).any Option.isNone) = false := by simp
  have holds := v.stream_setStream slot k y
  rw [whole, if_neg Bool.false_ne_true, State.issueFills_reached (by rw [holds]; exact reached')]
  have set : v.setStream slot k y = { v with spf := { v.spf with streams := (v.setStream slot k y).spf.streams } } := rfl
  generalize v.setStream slot k y = w at set holds
  have con : w.con = v.con := by rw [set]
  have rest := put.rest
  refine ⟨holds, fun i hi => ?_, ?_, fun a ha => ?_, fun a _ => ?_, ?_⟩
  · have index : ((List.range f.count).map (fun i => sampleWord x.width (b.dramBytes (x.addr + f.pos * x.width + i * x.width) x.width)))[i]? =
        some (sampleWord x.width (b.dramBytes (x.addr + f.pos * x.width + i * x.width) x.width)) := by
      rw [List.getElem?_map, List.getElem?_range hi, Option.map_some]
    refine (State.conWord_congr con _).trans ((put.holds i _ index).trans ?_)
    rw [bytesOf, Nat.add_mul, Nat.add_assoc]
  · rw [set, rest, counted, without]
  · rw [State.conByte_congr con, put.keepsCon a ha, State.conByte_congr counted.con, words]
  · rw [State.reg, set, rest, counted, without, State.reg]
  · rw [set, rest, counted, without]

end Fill

/-- Settles O26: a fill that returns reads its frames as they stand, and stores them cell by cell in the ring. -/
theorem streamFills : Obligations.StreamFills := by
  unfold Obligations.StreamFills
  exact fun s slot k => ⟨streamFillReturn_none, fun f fill active gen mono reached small wide good unarmed q =>
    streamFillReturn_stores fill active gen mono reached small wide good unarmed q⟩

end Sys2Proof.Machine
end

section
/-! PROOFS. Host parameter writes, table regions and modulation evaluations; the statement ParameterCommands. -/

namespace Sys2Proof.Machine

/-! ### Host parameter writes (R109) -/

theorem exec_hostParameterWrite {s : State} {path : Path} {v : Word} (opens : s.writable Reg.PS_WR_DATA = true) :
    exec (.hostParameterWrite path v) s = .next (actPsData s (rowAt Reg.PS_WR_DATA) (s.reg Reg.PS_WR_DATA) v) :=
  congrArg Host.Outcome.next (State.hostWrite_of_writable opens)

/-- A host write waits for the next boundary step. -/
def State.hostWritten (s : State) (tgt v : Word) : State := { s with pool := { s.pool with hostWrites := s.pool.hostWrites ++ [(tgt, v)] } }

theorem hostParameterWrite_waits {s : State} {path : Path} {v : Word} (opens : s.writable Reg.PS_WR_DATA = true)
    (taken : s.refusesHostWrite (s.reg Reg.PS_WR_TGT) = false) : Completes (.hostParameterWrite path v) s (fun t =>
      t.pool = { s.pool with hostWrites := s.pool.hostWrites ++ [(s.reg Reg.PS_WR_TGT, v)] } ∧
      t.fld Reg.PS_STAT 0 7 = s.pool.hostWrites.length + 1 ∧ t = { s with regs := t.regs, pool := t.pool } ∧ KeepsRegs s t [Reg.PS_STAT]) := by
  have room : s.pool.hostWrites.length < 64 := by
    unfold State.refusesHostWrite at taken
    simp only [Bool.or_eq_false_iff, decide_eq_false_iff_not] at taken
    omega
  have run : exec (.hostParameterWrite path v) s =
      .next ((s.hostWritten (s.reg Reg.PS_WR_TGT) v).setFld Reg.PS_STAT 0 7 (s.pool.hostWrites.length + 1)) :=
    (exec_hostParameterWrite opens).trans (congrArg _ (if_neg (by rw [taken]; decide)))
  refine ⟨_, run, ?_⟩
  have frame : s.hostWritten (s.reg Reg.PS_WR_TGT) v = { s with
    pool := { s.pool with hostWrites := s.pool.hostWrites ++ [(s.reg Reg.PS_WR_TGT, v)] } } := rfl
  have regs : ∀ a, (s.hostWritten (s.reg Reg.PS_WR_TGT) v).reg a = s.reg a := fun _ => rfl
  generalize s.hostWritten (s.reg Reg.PS_WR_TGT) v = u at frame regs
  have only := onlyRegs_setFld u Reg.PS_STAT 0 7 (s.pool.hostWrites.length + 1)
  have shown := State.fld_setFld_same u Reg.PS_STAT (s.pool.hostWrites.length + 1) (show 0 + 7 ≤ 32 by decide)
  generalize u.setFld Reg.PS_STAT 0 7 (s.pool.hostWrites.length + 1) = t at only shown
  refine ⟨by rw [only.1, frame], by rw [shown]; omega, by rw [only.1, frame], fun a ha => (only.2 a ha).trans (regs a)⟩

theorem hostParameterWrite_refused {s : State} {path : Path} {v : Word} (opens : s.writable Reg.PS_WR_DATA = true)
    (refused : s.refusesHostWrite (s.reg Reg.PS_WR_TGT) = true) : Completes (.hostParameterWrite path v) s (fun t =>
      t.bit Reg.PS_STAT 31 = true ∧ Counted s t Reg.PS_WR_REJ_CNT ∧ t.bit (Reg.PAGE_ERR_STAT Page.ps) 0 = true ∧
      OnlyRegs s t [Reg.PS_STAT, Reg.PS_WR_REJ_CNT, Reg.PAGE_ERR_STAT Page.ps, Reg.PAGE_ERR_CNT Page.ps]) := by
  have run : exec (.hostParameterWrite path v) s =
      .next (((s.setBit Reg.PS_STAT 31 true).bump Reg.PS_WR_REJ_CNT).pageErrFlag Page.ps 0) :=
    (exec_hostParameterWrite opens).trans (congrArg _ (if_pos refused))
  refine ⟨_, run, ?_⟩
  have first : OnlyRegs s (s.setBit Reg.PS_STAT 31 true) [Reg.PS_STAT] := onlyRegs_setReg s _ _
  have flag := State.bit_setBit_same s Reg.PS_STAT (i := 31) true (by decide)
  generalize s.setBit Reg.PS_STAT 31 true = t at first flag
  have second : OnlyRegs t (t.bump Reg.PS_WR_REJ_CNT) [Reg.PS_WR_REJ_CNT] := onlyRegs_setReg t _ _
  have counted := counted_bump t Reg.PS_WR_REJ_CNT
  generalize t.bump Reg.PS_WR_REJ_CNT = u at second counted
  have third := onlyRegs_pageErrFlag u Page.ps 0
  have err := u.bit_pageErrFlag (p := Page.ps) (b := 0) (by decide)
  generalize u.pageErrFlag Page.ps 0 = w at third err
  refine ⟨(State.bit_of_reg ((third.2 _ (by decide)).trans (second.2 _ (by decide))) 31).trans flag,
    (counted.of_reg_eq (first.2 _ (by decide))).of_reg_eq_after (third.2 _ (by decide)), err,
    ((first.trans second).trans third).mono (by decide)⟩

/-! ### Table regions (R219) -/

section Tables

variable {s : State} {path : Path} {v : Word} {r : Fin 60} {isCfg : Bool}

/-- The register of a table region. -/
def tableReg (r : Nat) (isCfg : Bool) : Nat := if isCfg then Reg.SPF_TBL_CFG r else Reg.SPF_TBL_BASE r

theorem exec_tableRegionWrite (opens : s.writable (tableReg r isCfg) = true) : exec (.tableRegionWrite path r isCfg v) s =
    .next (if regionAllowed (if isCfg then s.reg (Reg.SPF_TBL_BASE r) else s.stored (tableReg r isCfg) v)
        (if isCfg then s.stored (tableReg r isCfg) v else s.reg (Reg.SPF_TBL_CFG r)) then
      s.setReg (tableReg r isCfg) (s.stored (tableReg r isCfg) v) else s.refuseSpf) :=
  congrArg Host.Outcome.next (State.hostWrite_of_writable opens)

theorem tableReg_apart (r : Fin 60) (isCfg : Bool) : tableReg r isCfg ∉ [Reg.SPF_STAT, Reg.PAGE_ERR_CNT Page.spf] ++ [] := by
  simp only [tableReg, Reg.SPF_TBL_CFG, Reg.SPF_TBL_BASE, Reg.SPF_STAT, Reg.PAGE_ERR_CNT, Page.spf, List.mem_cons, List.append_nil,
    List.not_mem_nil, or_false]
  split <;> omega

theorem tableRegionWrite_spec (opens : s.writable (tableReg r isCfg) = true) :
    if regionAllowed (if isCfg then s.reg (Reg.SPF_TBL_BASE r) else s.stored (tableReg r isCfg) v)
        (if isCfg then s.stored (tableReg r isCfg) v else s.reg (Reg.SPF_TBL_CFG r)) then
      Stores (.tableRegionWrite path r isCfg v) s (tableReg r isCfg) v
    else Completes (.tableRegionWrite path r isCfg v) s (fun t => t.reg (tableReg r isCfg) = s.reg (tableReg r isCfg) ∧
      Counted s t (Reg.PAGE_ERR_CNT Page.spf)) := by
  have run := exec_tableRegionWrite (path := path) (v := v) opens
  generalize regionAllowed (if isCfg then s.reg (Reg.SPF_TBL_BASE r) else s.stored (tableReg r isCfg) v)
    (if isCfg then s.stored (tableReg r isCfg) v else s.reg (Reg.SPF_TBL_CFG r)) = allowed at run ⊢
  cases allowed with
  | true => exact stores_of_exec run
  | false =>
    obtain ⟨-, counted, -, same⟩ := s.refuseCfg_refused (stat := Reg.SPF_STAT) (b := 31) (p := Page.spf) (by decide) (by decide)
    exact ⟨_, run, same _ (tableReg_apart r isCfg), counted⟩

end Tables

/-! ### The evaluation of a slot (R114, R124) -/

theorem Sparse.get_foldl_put_range {α : Type} [DecidableEq α] (dflt : Nat → α) (m : Map α) (base n : Nat) (f : Nat → α) (j : Nat) :
    Sparse.get dflt ((List.range n).foldl (fun m k => Sparse.put dflt m (base + k) (f k)) m) j =
      if base ≤ j ∧ j < base + n then f (j - base) else Sparse.get dflt m j := by
  induction n with
  | zero => rw [List.range_zero, List.foldl_nil, if_neg (by omega)]
  | succ n ih =>
    rw [List.range_succ, List.foldl_append, List.foldl_cons, List.foldl_nil, Sparse.get_put, ih]
    by_cases last : j = base + n
    · rw [if_pos last, if_pos (by omega), last, Nat.add_sub_cancel_left]
    · rw [if_neg last]
      by_cases inside : base ≤ j ∧ j < base + n
      · rw [if_pos inside, if_pos (by omega)]
      · rw [if_neg inside, if_neg (by omega)]

/-- Two words for each element of a list. -/
theorem getElem?_flatMap_pair {α β : Type} (l : List α) (f g : α → β) (k : Nat) :
    (l.flatMap (fun e => [f e, g e]))[2 * k]? = (l[k]?).map f ∧ (l.flatMap (fun e => [f e, g e]))[2 * k + 1]? = (l[k]?).map g := by
  induction l generalizing k with
  | nil => simp
  | cons e l ih =>
    cases k with
    | zero => simp
    | succ k =>
      have next : 2 * (k + 1) = 2 * k + 1 + 1 := by omega
      rw [next]
      simpa using ih k

/-- The present targets of a slot. -/
def State.targetsOf (s : State) (x : Nat) : List Int :=
  (List.range 128).map (fun k => (Sparse.get (fun _ => (0 : Word)) s.mm.target (128 * x + k)).toInt)

/-- An evaluation of a slot that has been evaluated before. -/
def State.evalOf (s : State) (x n : Nat) : Eval := { x := x, slot := s.slot x, n := n, t := (n + 1) * s.blk, init := false }

/-- The targets that an evaluation leads to: the present ones while the matrix is held. -/
def State.nextTargets (s : State) (x n : Nat) : List Int × Nat :=
  if s.mm.holding then (s.targetsOf x, 0) else (s.evalOf x n).targets s

/-- The state with an evaluation's own state kept. -/
def State.evalKept (s : State) (x n : Nat) : State :=
  if s.mm.holding then s else ((s.evalOf x n).keep s).countTargets (s.nextTargets x n).2

/-- The words of the ramp pairs of an evaluation. -/
def State.rampWords (s : State) (x n : Nat) : List Word :=
  ((s.targetsOf x).zip (s.nextTargets x n).1).flatMap (fun e => [BitVec.ofInt 32 e.1, BitVec.ofInt 32 ((e.2 - e.1) / (2 ^ s.logN : Nat))])

/-- The matrix holds the targets of an evaluation for block `n`. -/
def ModMatrix.evaluatedAt (m : ModMatrix) (x n : Nat) (targets : List Int) : ModMatrix :=
  { m with
    target := (List.range 128).foldl (fun t k => Sparse.put (fun _ => 0) t (128 * x + k) (BitVec.ofInt 32 ((targets[k]?).getD 0))) m.target
    evaluated := Sparse.put (fun _ => 0) m.evaluated x (n + 1) }

theorem State.evalSlot_again {s : State} {x : Nat} (again : Sparse.get (fun _ => 0) s.mm.evaluated x ≠ 0) (n : Nat) :
    s.evalSlot x n = (let u := (s.evalKept x n).putFrames (frameAddr x 0x100) (s.rampWords x n)
      { u with mm := u.mm.evaluatedAt x n (s.nextTargets x n).1 }) := by
  unfold State.evalSlot
  dsimp only
  rw [decide_eq_false again]
  simp only [Bool.false_eq_true, if_false]
  rfl

theorem Eval.length_targets (v : Eval) (s : State) : (v.targets s).1.length = 128 := by simp [Eval.targets]

theorem State.length_nextTargets (s : State) (x n : Nat) : (s.nextTargets x n).1.length = 128 := by
  unfold State.nextTargets
  split
  · simp [State.targetsOf]
  · exact Eval.length_targets ..

theorem State.getElem?_targetsOf (s : State) (x : Nat) {k : Nat} (hk : k < 128) :
    (s.targetsOf x)[k]? = some (Sparse.get (fun _ => (0 : Word)) s.mm.target (128 * x + k)).toInt := by
  unfold State.targetsOf
  rw [List.getElem?_map, List.getElem?_range hk, Option.map_some]

/-- The ramp pair of target `k` starts at the present target and ends at the next. -/
theorem State.getElem?_rampWords (s : State) (x n : Nat) {k : Nat} (hk : k < 128) :
    (s.rampWords x n)[2 * k]? = some (Sparse.get (fun _ => (0 : Word)) s.mm.target (128 * x + k)) ∧
      (s.rampWords x n)[2 * k + 1]? = some (BitVec.ofInt 32 (((((s.nextTargets x n).1[k]?).getD 0) -
        (Sparse.get (fun _ => (0 : Word)) s.mm.target (128 * x + k)).toInt) / (2 ^ s.logN : Nat))) := by
  have next : k < (s.nextTargets x n).1.length := by rw [s.length_nextTargets]; exact hk
  have pair : ((s.targetsOf x).zip (s.nextTargets x n).1)[k]? =
      some ((Sparse.get (fun _ => (0 : Word)) s.mm.target (128 * x + k)).toInt, ((s.nextTargets x n).1[k]?).getD 0) := by
    rw [List.getElem?_zip_eq_some, s.getElem?_targetsOf x hk]
    exact ⟨rfl, by rw [List.getElem?_eq_getElem next]; rfl⟩
  obtain ⟨even, odd⟩ := getElem?_flatMap_pair ((s.targetsOf x).zip (s.nextTargets x n).1) (fun e => BitVec.ofInt 32 e.1)
    (fun e => BitVec.ofInt 32 ((e.2 - e.1) / (2 ^ s.logN : Nat))) k
  refine ⟨even.trans ?_, odd.trans ?_⟩
  · rw [pair, Option.map_some, BitVec.ofInt_toInt]
  · rw [pair, Option.map_some]

theorem State.length_rampWords (s : State) (x n : Nat) : (s.rampWords x n).length = 256 := by
  have targets : (s.targetsOf x).length = 128 := by simp [State.targetsOf]
  unfold State.rampWords
  rw [List.length_flatMap]
  simp [s.length_nextTargets, targets]

/-- What an evaluation keeps is the matrix's own, beside the counts of saturated targets. -/
theorem State.evalKept_frame (s : State) (x n : Nat) :
    let u := s.evalKept x n
    u = { s with regs := u.regs, pmu := u.pmu, draws := u.draws, mm := u.mm } ∧ u.mm.target = s.mm.target ∧ KeepsRegs s u [Reg.MM_SAT_CNT] := by
  unfold State.evalKept
  split
  · exact ⟨rfl, rfl, fun _ _ => rfl⟩
  · have kept : (s.evalOf x n).keep s = { s with draws := ((s.evalOf x n).keep s).draws, mm := ((s.evalOf x n).keep s).mm } := rfl
    have targets : ((s.evalOf x n).keep s).mm.target = s.mm.target := rfl
    generalize (s.evalOf x n).keep s = t at kept targets
    unfold State.countTargets
    split
    · exact ⟨by rw [kept], targets, fun a _ => by rw [State.reg, kept, State.reg]⟩
    · have bumped := onlyRegs_setReg t Reg.MM_SAT_CNT (BitVec.ofNat 32 (min 0xFFFFFFFF ((t.reg Reg.MM_SAT_CNT).toNat + (s.nextTargets x n).2)))
      change OnlyRegs t (t.bumpBy Reg.MM_SAT_CNT (s.nextTargets x n).2) _ at bumped
      generalize t.bumpBy Reg.MM_SAT_CNT (s.nextTargets x n).2 = u at bumped
      have counted : PmuOnly u (u.count 426 (s.nextTargets x n).2) := PmuOnly.count ..
      generalize u.count 426 (s.nextTargets x n).2 = w at counted
      refine ⟨by rw [counted, bumped.1, kept], by rw [counted, bumped.1, targets], fun a ha => ?_⟩
      exact (counted.reg a).trans ((bumped.2 a ha).trans (by rw [State.reg, kept, State.reg]))

/-- The ramp pairs of a slot stand in its frame, and only the matrix and counts change besides. -/
theorem State.evalSlot_spec {s : State} {x : Nat} (again : Sparse.get (fun _ => 0) s.mm.evaluated x ≠ 0) (q : s.conQuiet) (n : Nat) :
    let t := s.evalSlot x n
    Sparse.get (fun _ => 0) t.mm.evaluated x = n + 1 ∧
      (∀ k, k < 128 → t.conWord (frameAddr x 0x100 + 8 * k) = Sparse.get (fun _ => 0) s.mm.target (128 * x + k) ∧
        (s.mm.holding = true → t.conWord (frameAddr x 0x100 + 8 * k + 4) = 0 ∧
          Sparse.get (fun _ => (0 : Word)) t.mm.target (128 * x + k) = Sparse.get (fun _ => 0) s.mm.target (128 * x + k))) ∧
      KeepsCon s t (frameAddr x 0x100) 1024 ∧ KeepsRegs s t [Reg.MM_SAT_CNT] ∧ t.cores = s.cores ∧ t.pool = s.pool := by
  obtain ⟨frame, -, kept⟩ := s.evalKept_frame x n
  have words := fun k (hk : k < 128) => s.getElem?_rampWords x n hk
  have size := s.length_rampWords x n
  have held : s.mm.holding = true → ∀ k, k < 128 → ((s.nextTargets x n).1[k]?).getD 0 =
      (Sparse.get (fun _ => (0 : Word)) s.mm.target (128 * x + k)).toInt := fun holding k hk => by
    unfold State.nextTargets
    rw [if_pos holding, s.getElem?_targetsOf x hk]
    rfl
  rw [State.evalSlot_again again]
  generalize s.evalKept x n = u at frame kept
  have con : u.con = s.con := by rw [frame]
  have quiet : u.conQuiet := by
    obtain ⟨unarmed, idle, good⟩ := q
    exact ⟨(State.bit_of_reg (kept _ (by decide)) 30).trans unarmed, by rw [frame]; exact idle, by rw [frame]; exact good⟩
  have wrote := State.conStore_wrote quiet (frameAddr x 0x100) (wordBytes (s.rampWords x n))
  change Wrote u (u.putFrames (frameAddr x 0x100) (s.rampWords x n)) _ _ at wrote
  generalize u.putFrames (frameAddr x 0x100) (s.rampWords x n) = v at wrote
  intro t
  have same : t.con = v.con := rfl
  have target : t.mm.target = (v.mm.evaluatedAt x n (s.nextTargets x n).1).target := rfl
  have evaluated : t.mm.evaluated = (v.mm.evaluatedAt x n (s.nextTargets x n).1).evaluated := rfl
  refine ⟨?_, fun k hk => ⟨?_, fun holding => ⟨?_, ?_⟩⟩, fun a ha => ?_, fun a ha => ?_, ?_, ?_⟩
  · rw [evaluated, ModMatrix.evaluatedAt, Sparse.get_put_same]
  · rw [State.conWord_congr same, ← wrote.conWord (words k hk).1]
    congr 1
    omega
  · have pair := (words k hk).2
    rw [held holding k hk, Int.sub_self, Int.zero_ediv] at pair
    have place : frameAddr x 0x100 + 8 * k + 4 = frameAddr x 0x100 + 4 * (2 * k + 1) := by omega
    rw [State.conWord_congr same, place, wrote.conWord pair]
    rfl
  · rw [target, ModMatrix.evaluatedAt, Sparse.get_foldl_put_range, if_pos (by omega), Nat.add_sub_cancel_left, held holding k hk, BitVec.ofInt_toInt]
  · rw [State.conByte_congr same, ← State.conByte_congr con]
    exact wrote.keeps a (by rw [length_wordBytes, size]; exact ha)
  · have reg : t.reg a = v.reg a := rfl
    rw [reg, State.reg, wrote.rest]
    exact kept a ha
  · change v.cores = _
    rw [wrote.rest, frame]
  · change v.pool = _
    rw [wrote.rest, frame]

/-! ### MODULATION_EVAL (R115) -/

section Evaluation

variable {s : State} {cycles : Nat} {x : Nat}

theorem modulationEval_idle (idle : s.running = false ∨ s.clk.boundaryDone ≤ s.period) : Completes (.modulationEval cycles) s (fun t => t = s) :=
  ⟨s, if_pos idle, rfl⟩

/-- The cycles of the longest evaluation. -/
def State.evalMax (s : State) (cycles : Nat) : Nat := max (s.fld Reg.MM_EVAL_MAX 0 16) (min 0xFFFF cycles)

theorem modulationEval_one (one : s.toEvaluate (s.period + 2) (decide (s.period < s.clk.expressDone)) = [x]) (runs : s.running = true)
    (due : s.period < s.clk.boundaryDone) : exec (.modulationEval cycles) s =
      (let t := ((s.evalSlot x (s.period + 2)).count 423 1).count 424 cycles
       .next (t.setFld Reg.MM_EVAL_MAX 0 16 (t.evalMax cycles))) := by
  refine (if_neg (by rw [runs]; simpa using due)).trans ?_
  dsimp only
  rw [one]
  rfl

theorem modulationEval_again (one : s.toEvaluate (s.period + 2) (decide (s.period < s.clk.expressDone)) = [x]) (runs : s.running = true)
    (due : s.period < s.clk.boundaryDone) (again : Sparse.get (fun _ => 0) s.mm.evaluated x ≠ 0) (q : s.conQuiet) :
    Completes (.modulationEval cycles) s (fun t => Sparse.get (fun _ => 0) t.mm.evaluated x = s.period + 2 + 1 ∧
      (∀ k, k < 128 → t.conWord (frameAddr x 0x100 + 8 * k) = Sparse.get (fun _ => 0) s.mm.target (128 * x + k) ∧
        (s.mm.holding = true → t.conWord (frameAddr x 0x100 + 8 * k + 4) = 0 ∧
          Sparse.get (fun _ => (0 : Word)) t.mm.target (128 * x + k) = Sparse.get (fun _ => 0) s.mm.target (128 * x + k))) ∧
      t.fld Reg.MM_EVAL_MAX 0 16 = max (s.fld Reg.MM_EVAL_MAX 0 16) (min 0xFFFF cycles) ∧
      KeepsCon s t (frameAddr x 0x100) 1024 ∧ KeepsCores s t [] ∧ KeepsSlots s t []) := by
  refine ⟨_, modulationEval_one one runs due, ?_⟩
  obtain ⟨evaluated, words, con, regs, cores, pool⟩ := s.evalSlot_spec again q (s.period + 2)
  generalize s.evalSlot x (s.period + 2) = u at evaluated words con regs cores pool
  have counted : PmuOnly u ((u.count 423 1).count 424 cycles) := (PmuOnly.count ..).trans (PmuOnly.count ..)
  generalize (u.count 423 1).count 424 cycles = v at counted
  have max_ : v.evalMax cycles = s.evalMax cycles := by
    unfold State.evalMax
    rw [State.fld_of_reg ((counted.reg _).trans (regs _ (by decide)))]
  have small : s.evalMax cycles < 2 ^ 16 := by
    have := s.fld_lt Reg.MM_EVAL_MAX 0 16
    unfold State.evalMax
    omega
  rw [max_]
  have only := onlyRegs_setFld v Reg.MM_EVAL_MAX 0 16 (s.evalMax cycles)
  have shown := State.fld_setFld_same v Reg.MM_EVAL_MAX (s.evalMax cycles) (show 0 + 16 ≤ 32 by decide)
  generalize v.setFld Reg.MM_EVAL_MAX 0 16 (s.evalMax cycles) = t at only shown
  have mm : t.mm = u.mm := by rw [only.1, counted]
  have bytes : t.con = u.con := by rw [only.1, counted]
  refine ⟨by rw [mm, evaluated], fun k hk => ?_, shown.trans (Nat.mod_eq_of_lt small), fun a ha => ?_, fun n _ => ?_, fun n _ => ?_⟩
  · rw [State.conWord_congr bytes, State.conWord_congr bytes, mm]
    exact words k hk
  · rw [State.conByte_congr bytes]
    exact con a ha
  · rw [State.core, only.1, counted, cores, State.core]
  · rw [State.slot, only.1, counted, pool, State.slot]

end Evaluation

/-- Settles O25: a host write and a table region are taken when their rules allow them, and an evaluation of a slot goes on from its present
targets. -/
theorem parameterCommands : Obligations.ParameterCommands := by
  unfold Obligations.ParameterCommands
  exact fun s path v r isCfg cycles => ⟨fun opens => ⟨hostParameterWrite_waits opens, hostParameterWrite_refused opens⟩, tableRegionWrite_spec,
    modulationEval_idle, fun x one runs due again q => modulationEval_again one runs due again q⟩

end Sys2Proof.Machine
end

section
/-! PROOFS. The boot sequencer: the end of INIT, its attempts and the host's go (R298, R365, R403, R406, R410). -/

namespace Sys2Proof.Machine

/-! ### Cores that enter service -/

/-- The registers that follow the cores in service. -/
def serviceRegs : List Nat := Reg.SCH_STAT :: (List.range 34).map Reg.SCH_CORE_BUSY

theorem vcResetVec_notMem (n : Nat) : Reg.VC_RESET_VEC n ∉ serviceRegs := by
  unfold serviceRegs
  rw [List.mem_cons, List.mem_map, not_or, not_exists]
  refine ⟨?_, fun k hk => ?_⟩
  · dsimp only [Reg.VC_RESET_VEC, Reg.SCH_STAT]
    omega
  · obtain ⟨inside, same⟩ := hk
    rw [List.mem_range] at inside
    dsimp only [Reg.VC_RESET_VEC, Reg.SCH_CORE_BUSY] at same
    omega

theorem OnlyRegs.foldl {α : Type} {f : State → α → State} {l : List Nat} (xs : List α) (step : ∀ u, ∀ x ∈ xs, OnlyRegs u (f u x) l) (s : State) :
    OnlyRegs s (xs.foldl f s) l := by
  induction xs generalizing s with
  | nil => exact OnlyRegs.refl s l
  | cons x xs ih =>
    exact ((step s x List.mem_cons_self).trans (ih (fun u y hy => step u y (List.mem_cons_of_mem x hy)) (f s x))).mono (by simp)

theorem State.showCores_regs (s : State) : OnlyRegs s s.showCores serviceRegs := by
  unfold State.showCores
  dsimp only
  refine ((onlyRegs_setFld s Reg.SCH_STAT 8 6 s.inService.length).trans (OnlyRegs.foldl (l := serviceRegs) _ (fun u n hn => ?_) _)).mono ?_
  · refine (onlyRegs_setReg u (Reg.SCH_CORE_BUSY n) _).mono fun x hx => ?_
    rw [List.mem_singleton.1 hx]
    exact List.mem_cons_of_mem _ (List.mem_map_of_mem hn)
  · intro x hx
    simp only [List.mem_append, List.mem_singleton] at hx
    exact hx.elim id fun e => e ▸ List.mem_cons_self

/-- The cores of `l` have entered service, and nothing else changes but the registers that show it. -/
structure Started (s t : State) (l : List Nat) : Prop where
  rest : t = { s with regs := t.regs, cores := t.cores }
  regs : KeepsRegs s t serviceRegs
  entered : ∀ n ∈ l, t.core n = (s.core n).entering (s.fld (Reg.VC_RESET_VEC n) 0 13)
  others : ∀ n, n ∉ l → t.core n = s.core n

theorem State.enterService_started (s : State) (n : Nat) : Started s (s.enterService n) [n] := by
  obtain ⟨own, other, -⟩ := s.enterService_frame n
  let u := s.updCore n (fun c => c.entering (s.fld (Reg.VC_RESET_VEC n) 0 13))
  have enter : s.enterService n = u.showCores := rfl
  have only := u.showCores_regs
  have cores : u = { s with cores := u.cores } := rfl
  have regs : ∀ a, u.reg a = s.reg a := fun _ => rfl
  rw [← enter] at only
  generalize s.enterService n = t at own other only
  clear_value u
  refine ⟨?_, fun a ha => (only.2 a ha).trans (regs a), fun m hm => ?_, fun m hm => other m fun e => hm (List.mem_singleton.2 e)⟩
  · have same : t.cores = u.cores := by rw [only.1]
    rw [only.1, cores]
  · rw [List.mem_singleton.1 hm, own]

theorem foldl_enterService (l : List Nat) (nodup : l.Nodup) (s : State) : Started s (l.foldl (fun t n => t.enterService n) s) l := by
  induction l generalizing s with
  | nil => exact ⟨rfl, fun _ _ => rfl, fun n hn => absurd hn List.not_mem_nil, fun _ _ => rfl⟩
  | cons n l ih =>
    obtain ⟨fresh, nodup⟩ := List.nodup_cons.1 nodup
    have first := s.enterService_started n
    rw [List.foldl_cons]
    generalize s.enterService n = t at first
    have more := ih nodup t
    generalize l.foldl (fun t n => t.enterService n) t = u at more
    refine ⟨by rw [more.rest, first.rest], fun a ha => (more.regs a ha).trans (first.regs a ha), fun m hm => ?_, fun m hm => ?_⟩
    · rcases List.mem_cons.1 hm with rfl | later
      · rw [more.others m fresh, first.entered m List.mem_cons_self]
      · rw [more.entered m later, first.others m fun e => fresh (List.mem_singleton.1 e ▸ later),
          State.fld_of_reg (first.regs _ (vcResetVec_notMem m))]
    · rw [List.mem_cons, not_or] at hm
      rw [more.others m hm.2, first.others m fun e => hm.1 (List.mem_singleton.1 e)]

/-! ### Attempts (R406) -/

/-- An attempt at image `which` has begun. -/
structure Tried (s t : State) (which : Nat) : Prop where
  state : t.bootState = which
  loading : t.pwr.loading = which
  counted : Counted s t Reg.BOOT_ATTEMPT_CNT
  irq : t.bit (Reg.PAGE_IRQ_STAT Page.boot) 0 = true

theorem State.bootTo_reports (s : State) {st : Nat} (h : st < 16) : (s.bootTo st).bootState = st ∧
    (s.bootTo st).bit (Reg.PAGE_IRQ_STAT Page.boot) 0 = true ∧ OnlyReports s (s.bootTo st) (Reg.BOOT_STAT :: raiseRegs Page.boot) := by
  unfold State.bootTo
  have set := onlyRegs_setFld s Reg.BOOT_STAT 24 4 st
  have shown := State.fld_setFld_same s Reg.BOOT_STAT st (show 24 + 4 ≤ 32 by decide)
  generalize s.setFld Reg.BOOT_STAT 24 4 st = t at set shown
  have raised := onlyReports_raise t Page.boot 0
  have irq := t.bit_raise_same Page.boot (b := 0) (by decide)
  generalize t.raise Page.boot 0 = u at raised irq
  refine ⟨?_, irq, set.onlyReports.trans raised⟩
  rw [State.bootState, State.fld_of_reg (raised.reg (by decide)), shown]
  exact Nat.mod_eq_of_lt h

theorem State.bootState_of_reg {s t : State} (h : t.reg Reg.BOOT_STAT = s.reg Reg.BOOT_STAT) : t.bootState = s.bootState := State.fld_of_reg h _ _

/-- The state with other records of the power and boot sequencers. -/
def State.withPwr (s : State) (p : Power) : State := { s with pwr := p }

theorem State.reg_withPwr (s : State) (p : Power) (a : Nat) : (s.withPwr p).reg a = s.reg a := rfl

theorem OnlyReports.withPwr {s t : State} {l : List Nat} (h : OnlyReports s t l) (p : Power) : OnlyReports (s.withPwr p) (t.withPwr p) l := by
  obtain ⟨frame, kept⟩ := h
  refine ⟨?_, kept⟩
  generalize t.regs = r at frame
  generalize t.pmu = m at frame
  generalize t.out = o at frame
  rw [frame]
  rfl

/-- The records of an attempt at image `which`. -/
def Power.trying (p : Power) (which : Nat) : Power :=
  { p with loading := which, triedB := if which = 3 then p.triedB else decide (which = 2) }

theorem State.attempt_eq (s : State) (which : Nat) : s.attempt which =
    ((s.bump Reg.BOOT_ATTEMPT_CNT).bootTo which).withPwr (((s.bump Reg.BOOT_ATTEMPT_CNT).bootTo which).pwr.trying which) := rfl

theorem State.attempt_spec (s : State) {which : Nat} (h : which < 16) : Tried s (s.attempt which) which ∧
    (s.attempt which).pwr = s.pwr.trying which ∧
    OnlyReports (s.withPwr (s.pwr.trying which)) (s.attempt which) ([Reg.BOOT_STAT, Reg.BOOT_ATTEMPT_CNT] ++ raiseRegs Page.boot) := by
  have bumped := onlyReports_bump s Reg.BOOT_ATTEMPT_CNT
  have counted := counted_bump s Reg.BOOT_ATTEMPT_CNT
  rw [State.attempt_eq]
  generalize s.bump Reg.BOOT_ATTEMPT_CNT = t at bumped counted
  obtain ⟨state, irq, reports⟩ := t.bootTo_reports h
  generalize t.bootTo which = u at state irq reports
  have all := bumped.trans reports
  have pwr : u.pwr = s.pwr := by rw [all.1]
  rw [pwr]
  have reg := u.reg_withPwr (s.pwr.trying which)
  have now : (u.withPwr (s.pwr.trying which)).pwr = s.pwr.trying which := rfl
  have told := all.withPwr (s.pwr.trying which)
  generalize u.withPwr (s.pwr.trying which) = w at reg now told
  refine ⟨⟨(State.bootState_of_reg (reg _)).trans state, by rw [now]; rfl,
    (counted.of_reg_eq_after (reports.reg (by decide))).of_reg_eq_after (reg _), (State.bit_of_reg (reg _) 0).trans irq⟩, now, told.mono ?_⟩
  intro a mem
  rw [List.mem_append, List.mem_singleton, List.mem_cons] at mem
  rcases mem with rfl | rfl | irqs
  · exact List.mem_cons_of_mem _ List.mem_cons_self
  · exact List.mem_cons_self
  · exact List.mem_append_right _ irqs

end Sys2Proof.Machine
end

section
/-! PROOFS. The end of INIT, the attempts after it, the host's go, and the fuse (R298, R365, R403, R406, R409, R410). -/

namespace Sys2Proof.Machine

theorem onlyRegs_setBit (s : State) (a i : Nat) (b : Bool) : OnlyRegs s (s.setBit a i b) [a] := onlyRegs_setReg s a _

/-! ### The end of INIT -/

/-- The lock bits of the three PLLs are set, and the Concourse is zeroed. -/
def State.initWoken (s : State) : State :=
  let t := (List.range 3).foldl (fun t k => t.setBit Reg.CLK_PLL_STAT k true) s
  { t with con := [], ctl := { t.ctl with bad := [], badParity := [], writeBack := [] } }

/-- Cores that passed wait in the Roundhouse. -/
def State.initSpares (s : State) (l : List Nat) : State := l.foldl (fun t n => t.updCore n (fun c => { c with svc := 1 })) s

theorem fieldOf_bits3 {v : Word} (h : ∀ i, i < 3 → v.toNat.testBit i = true) : fieldOf v 0 3 = 7 := by
  have b0 := h 0 (by decide)
  have b1 := h 1 (by decide)
  have b2 := h 2 (by decide)
  simp only [Nat.testBit_eq_decide_div_mod_eq, decide_eq_true_eq] at b0 b1 b2
  rw [fieldOf, bitsOf]
  omega

theorem State.initWoken_spec (s : State) : s.initWoken.con = [] ∧ s.initWoken.fld Reg.CLK_PLL_STAT 0 3 = 7 ∧
    KeepsRegs s s.initWoken [Reg.CLK_PLL_STAT] ∧ s.initWoken.cores = s.cores := by
  unfold State.initWoken
  have only : OnlyRegs s ((List.range 3).foldl (fun t k => t.setBit Reg.CLK_PLL_STAT k true) s) [Reg.CLK_PLL_STAT] :=
    OnlyRegs.foldl _ (fun u k _ => onlyRegs_setReg u _ _) s
  have bits : ∀ i, i < 3 → ((List.range 3).foldl (fun t k => t.setBit Reg.CLK_PLL_STAT k true) s).bit Reg.CLK_PLL_STAT i = true := by
    intro i hi
    rw [show List.range 3 = [0, 1, 2] from rfl]
    simp only [List.foldl_cons, List.foldl_nil]
    rw [State.bit_setBit _ _ _ (by decide), State.bit_setBit _ _ _ (by decide), State.bit_setBit _ _ _ (by decide)]
    interval_cases i <;> rfl
  generalize (List.range 3).foldl (fun t k => t.setBit Reg.CLK_PLL_STAT k true) s = t at only bits
  have cores : t.cores = s.cores := by rw [only.1]
  refine ⟨rfl, fieldOf_bits3 fun i hi => ?_, only.2, cores⟩
  have bit := bits i hi
  rwa [State.bit, decide_fieldOf_one] at bit

theorem State.initSpares_spec (l : List Nat) (s : State) : (s.initSpares l) = { s with cores := (s.initSpares l).cores } ∧
    (∀ n ∈ l, ((s.initSpares l).core n).svc = 1) ∧ ∀ n, n ∉ l → (s.initSpares l).core n = s.core n := by
  unfold State.initSpares
  induction l generalizing s with
  | nil => exact ⟨rfl, fun n hn => absurd hn List.not_mem_nil, fun _ _ => rfl⟩
  | cons m l ih =>
    obtain ⟨frame, own, other⟩ := ih (s.updCore m (fun c => { c with svc := 1 }))
    rw [List.foldl_cons]
    refine ⟨frame, fun n hn => ?_, fun n hn => ?_⟩
    · by_cases later : n ∈ l
      · exact own n later
      · have here : n = m := (List.mem_cons.1 hn).resolve_right later
        rw [other n later, here, State.core_updCore_same]
    · rw [List.mem_cons, not_or] at hn
      rw [other n hn.2, State.core_updCore_other s _ hn.1]

/-- Registers of the Express hold. -/
def holdRegs : List Nat := [Reg.SCH_STAT, Reg.SCH_HOLD] ++ raiseRegs Page.sch

theorem State.applyHold_regs (s : State) (fell : Bool) : KeepsRegs s (s.applyHold fell) holdRegs ∧ (s.applyHold fell).con = s.con ∧
    (s.applyHold fell).pwr = s.pwr := by
  unfold State.applyHold
  extract_lets cyc lmax n fits applied h was src s1
  obtain ⟨sch, set⟩ : ∃ x, OnlyRegs { s with sch := x } s1 [Reg.SCH_STAT, Reg.SCH_HOLD] :=
    ⟨_, (onlyRegs_setReg _ Reg.SCH_HOLD _).trans (onlyRegs_setReg _ Reg.SCH_STAT _)⟩
  clear_value s1
  have con : s1.con = s.con := by rw [set.1]
  have pwr : s1.pwr = s.pwr := by rw [set.1]
  have regs : KeepsRegs s s1 [Reg.SCH_STAT, Reg.SCH_HOLD] := set.2
  split
  · have raised := onlyReports_raise s1 Page.sch 1
    generalize s1.raise Page.sch 1 = u at raised
    exact ⟨regs.trans raised.keepsRegs, by rw [raised.1, con], by rw [raised.1, pwr]⟩
  · exact ⟨regs.mono (List.subset_append_left _ _), con, pwr⟩

/-- The state in which the first attempt begins. -/
def State.initDone (s : State) (good : List Nat) : State :=
  ((((good.take 32).foldl (fun t n => t.enterService n) s.initWoken).initSpares (good.drop 32)).showSpares 0).applyHold false

/-- Registers that the end of INIT changes before its attempt, but for CLK_PLL_STAT. -/
def initRegs : List Nat := serviceRegs ++ (Reg.SVC_RH :: raiseRegs Page.svc) ++ holdRegs

theorem State.initDone_spec (s : State) (good : List Nat) (nodup : good.Nodup) :
    let t := s.initDone good
    t.con = [] ∧ (∀ n ∈ good.take 32, t.core n = (s.core n).entering (s.fld (Reg.VC_RESET_VEC n) 0 13)) ∧
      (∀ n ∈ good.drop 32, (t.core n).svc = 1) ∧ (∀ n, n ∉ good → t.core n = s.core n) ∧ KeepsRegs s.initWoken t initRegs := by
  obtain ⟨con1, -, regs1, cores1⟩ := s.initWoken_spec
  have core1 : ∀ n, s.initWoken.core n = s.core n := fun n => by rw [State.core, cores1, State.core]
  have vec1 : ∀ n, s.initWoken.reg (Reg.VC_RESET_VEC n) = s.reg (Reg.VC_RESET_VEC n) := fun n => regs1 _ (by
    rw [List.mem_singleton]
    dsimp only [Reg.VC_RESET_VEC, Reg.CLK_PLL_STAT]
    omega)
  unfold State.initDone
  generalize s.initWoken = a at con1 regs1 core1 vec1
  have started := foldl_enterService (good.take 32) (nodup.sublist (List.take_sublist 32 good)) a
  generalize (good.take 32).foldl (fun t n => t.enterService n) a = b at started
  obtain ⟨frame, spare, other⟩ := State.initSpares_spec (good.drop 32) b
  generalize b.initSpares (good.drop 32) = c at frame spare other
  have shown := onlyReports_showSpares c 0
  generalize c.showSpares 0 = d at shown
  have held := (d.applyHold_frame false).1
  obtain ⟨heldRegs, heldCon, -⟩ := d.applyHold_regs false
  generalize d.applyHold false = e at held heldRegs heldCon
  have core : ∀ n, e.core n = c.core n := fun n => by rw [State.core, held, ← State.core, shown.core]
  have apart : ∀ n ∈ good.take 32, n ∉ good.drop 32 := fun n first later =>
    (List.disjoint_take_drop nodup (le_refl 32)) first later
  dsimp only
  refine ⟨?_, fun n hn => ?_, fun n hn => ?_, fun n hn => ?_, ?_⟩
  · rw [heldCon, shown.1, frame, started.rest, con1]
  · rw [core, other n (apart n hn), started.entered n hn, core1, State.fld_of_reg (vec1 n)]
  · rw [core, spare n hn]
  · rw [core, other n (fun h => hn (List.mem_of_mem_drop h)), started.others n (fun h => hn (List.mem_of_mem_take h)), core1]
  · have same : ∀ x, c.reg x = b.reg x := fun x => by rw [State.reg, frame]; rfl
    have first : KeepsRegs a c serviceRegs := fun x hx => (same x).trans (started.regs x hx)
    exact (first.trans shown.keepsRegs).trans heldRegs

/-- BOOT_INIT_DONE (R298, R365, R403, R406). -/
theorem bootInitDone_idle {s : State} {passed : BitVec 34} {validA validB : Bool} {seqA seqB : Word}
    (h : s.bootState ≠ 0 ∨ s.pwr.held = true ∨ s.pwr.thermalOff = true) :
    Completes (.bootInitDone passed validA validB seqA seqB) s (fun t => t = s) := ⟨s, if_pos h, rfl⟩

theorem bootInitDone_attempts {s : State} {passed : BitVec 34} {validA validB : Bool} {seqA seqB : Word}
    (h : ¬ (s.bootState ≠ 0 ∨ s.pwr.held = true ∨ s.pwr.thermalOff = true)) :
    let good := (List.range 34).filter (fun n => passed.getLsbD n)
    Completes (.bootInitDone passed validA validB seqA seqB) s (fun t =>
      Tried s t (if bootFirstB validA validB seqA seqB then 2 else 1) ∧ t.con = [] ∧
      t.fld Reg.CLK_PLL_STAT 0 3 = 7 ∧ (∀ n, n ∈ good.take 32 → (t.core n).svc = 2 ∧ (t.core n).pc = s.fld (Reg.VC_RESET_VEC n) 0 13) ∧
      (∀ n, n ∈ good.drop 32 → (t.core n).svc = 1) ∧ (∀ n, n ∉ good → t.core n = s.core n)) := by
  intro good
  have nodup : good.Nodup := List.nodup_range.filter _
  refine ⟨(s.initDone good).attempt (if bootFirstB validA validB seqA seqB then 2 else 1), if_neg h, ?_⟩
  obtain ⟨con, entered, spare, other, regs⟩ := s.initDone_spec good nodup
  obtain ⟨-, pll, woken, -⟩ := s.initWoken_spec
  generalize s.initWoken = a at pll woken regs
  generalize s.initDone good = t at con entered spare other regs
  have small : (if bootFirstB validA validB seqA seqB then 2 else 1) < 16 := by split <;> decide
  generalize (if bootFirstB validA validB seqA seqB then 2 else 1) = which at small
  obtain ⟨tried, -, told⟩ := t.attempt_spec small
  generalize t.attempt which = u at tried told
  have core : ∀ n, u.core n = t.core n := fun n => told.core n
  refine ⟨⟨tried.state, tried.loading, tried.counted.of_reg_eq ?_, tried.irq⟩, ?_, ?_, fun n hn => ?_, fun n hn => ?_, fun n hn => ?_⟩
  · exact (regs Reg.BOOT_ATTEMPT_CNT (by decide)).trans (woken _ (by decide))
  · rw [told.1]
    exact con
  · rw [State.fld_of_reg (told.reg (by decide)), State.fld_of_reg (t.reg_withPwr _ _), State.fld_of_reg (regs _ (by decide)), pll]
  · rw [core, entered n hn]
    exact ⟨rfl, rfl⟩
  · rw [core, spare n hn]
  · rw [core, other n hn]

/-! ### The next attempts -/

section
variable {s : State} {path : Path} {v : Word}

theorem backoffExpiry_attempts (h : s.bootState = 4) : Completes .backoffExpiry s (fun t =>
    Tried s t (if s.pwr.triedB then 1 else 2) ∧ t.pwr.triedB = !s.pwr.triedB ∧
      OnlyReports { s with pwr := t.pwr } t ([Reg.BOOT_STAT, Reg.BOOT_ATTEMPT_CNT] ++ raiseRegs Page.boot)) := by
  refine ⟨s.attempt s.nextFlash, if_neg (not_not.2 h), ?_⟩
  have next : s.nextFlash = if s.pwr.triedB then 1 else 2 := rfl
  rw [← next]
  have small : s.nextFlash < 16 ∧ (s.pwr.trying s.nextFlash).triedB = !s.pwr.triedB := by
    unfold State.nextFlash Power.trying
    cases s.pwr.triedB <;> exact ⟨by decide, rfl⟩
  generalize s.nextFlash = which at small
  obtain ⟨tried, pwr, told⟩ := s.attempt_spec small.1
  generalize s.attempt which = t at tried pwr told
  refine ⟨tried, by rw [pwr, small.2], ?_⟩
  rw [pwr]
  exact told

/-- BOOT_CTRL holds the word written, with HOST_GO as it is stored. -/
def State.goWritten (s : State) (v : Word) : State := s.setReg Reg.BOOT_CTRL (s.stored Reg.BOOT_CTRL (setFieldOf v 8 1 1))

theorem exec_hostImageGo (opens : s.writable Reg.BOOT_CTRL = true) : exec (.hostImageGo path v) s = .next (s.goWritten v).hostGo :=
  (congrArg Host.Outcome.next (State.hostWrite_of_writable opens)).trans
    (congrArg Host.Outcome.next (if_pos (fieldOf_setFieldOf_same v 1 (by decide))))

theorem State.goWritten_spec (s : State) (v : Word) : OnlyRegs s (s.goWritten v) [Reg.BOOT_CTRL] ∧
    (s.goWritten v).reg Reg.BOOT_CTRL = s.stored Reg.BOOT_CTRL (setFieldOf v 8 1 1) ∧ (s.goWritten v).bootState = s.bootState ∧
    (s.goWritten v).pageOn Page.boot = s.pageOn Page.boot :=
  ⟨onlyRegs_setReg s _ _, s.reg_setReg_same _ _, State.bootState_of_reg (s.reg_setReg_other _ (by decide)),
    State.bit_of_reg (s.reg_setReg_other _ (by decide)) 0⟩

theorem hostImageGo_ignored (opens : s.writable Reg.BOOT_CTRL = true) (h : s.pageOn Page.boot = false ∨ 5 ≤ s.bootState) :
    Completes (.hostImageGo path v) s (fun t => t.bit Reg.BOOT_STAT 8 = true ∧
      t.reg Reg.BOOT_CTRL = s.stored Reg.BOOT_CTRL (setFieldOf v 8 1 1) ∧ OnlyRegs s t [Reg.BOOT_CTRL, Reg.BOOT_STAT]) := by
  refine ⟨_, exec_hostImageGo opens, ?_⟩
  obtain ⟨only, word, st, on⟩ := s.goWritten_spec v
  generalize s.goWritten v = a at only word st on
  rw [State.hostGo]
  dsimp only
  rw [if_pos (by rwa [on, st])]
  exact ⟨State.bit_setBit_same a Reg.BOOT_STAT true (by decide), (a.reg_setBit_other 8 true (by decide)).trans word,
    (only.trans (onlyRegs_setBit a Reg.BOOT_STAT 8 true)).mono (by simp)⟩

theorem hostImageGo_attempts (opens : s.writable Reg.BOOT_CTRL = true) (h : ¬ (s.pageOn Page.boot = false ∨ 5 ≤ s.bootState))
    (waits : s.bootState = 4) : Completes (.hostImageGo path v) s (fun t =>
      Tried s t 3 ∧ t.reg Reg.BOOT_CTRL = s.stored Reg.BOOT_CTRL (setFieldOf v 8 1 1)) := by
  refine ⟨_, exec_hostImageGo opens, ?_⟩
  obtain ⟨only, word, st, on⟩ := s.goWritten_spec v
  generalize s.goWritten v = a at only word st on
  rw [State.hostGo]
  dsimp only
  rw [if_neg (by rwa [on, st]), if_pos (by rwa [st])]
  obtain ⟨tried, -, told⟩ := a.attempt_spec (which := 3) (by decide)
  generalize a.attempt 3 = t at tried told
  exact ⟨⟨tried.state, tried.loading, tried.counted.of_reg_eq (only.2 _ (by decide)), tried.irq⟩,
    (told.reg (by decide)).trans ((a.reg_withPwr _ _).trans word)⟩

theorem hostImageGo_waits (opens : s.writable Reg.BOOT_CTRL = true) (h : ¬ (s.pageOn Page.boot = false ∨ 5 ≤ s.bootState))
    (busy : s.bootState ≠ 4) : Completes (.hostImageGo path v) s (fun t => t.pwr = { s.pwr with hostGo := true } ∧
      t.reg Reg.BOOT_CTRL = s.stored Reg.BOOT_CTRL (setFieldOf v 8 1 1) ∧ t = { s with regs := t.regs, pwr := t.pwr } ∧
      KeepsRegs s t [Reg.BOOT_CTRL]) := by
  refine ⟨_, exec_hostImageGo opens, ?_⟩
  obtain ⟨only, word, st, on⟩ := s.goWritten_spec v
  generalize s.goWritten v = a at only word st on
  rw [State.hostGo]
  dsimp only
  rw [if_neg (by rwa [on, st]), if_neg (by rwa [st])]
  have pwr : a.pwr = s.pwr := by rw [only.1]
  refine ⟨by rw [pwr], word, ?_, only.2⟩
  obtain ⟨frame, -⟩ := only
  generalize a.regs = r at frame
  rw [frame]

/-! ### The fuse (R409) -/

/-- A request to program the fuse is refused. -/
def State.fuseRefuses (s : State) (v : Word) : Prop := fieldOf v 16 16 ≠ 0x4655 ∨ s.bootState ≠ 6 ∨ s.fld Reg.BOOT_FUSE_STAT 0 2 ≠ 0 ∨
  s.hashWords.all (fun w => decide (w = 0)) = true

theorem exec_fuseProgram (opens : s.writable Reg.BOOT_FUSE_CTRL = true) : (s.fuseRefuses v →
    exec (.fuseProgram path v) s = .next (s.setBit Reg.BOOT_STAT 9 true)) ∧
    (¬ s.fuseRefuses v → exec (.fuseProgram path v) s = .next (s.setBit Reg.BOOT_FUSE_STAT 1 true)) := by
  have run : exec (.fuseProgram path v) s = .next (actFuseCtrl s (rowAt Reg.BOOT_FUSE_CTRL) (s.reg Reg.BOOT_FUSE_CTRL) (setFieldOf v 0 1 1)) :=
    congrArg Host.Outcome.next (State.hostWrite_of_writable opens)
  have prog : ¬ fieldOf (setFieldOf v 0 1 1) 0 1 = 0 := by
    rw [fieldOf_setFieldOf_same v 1 (by decide)]
    decide
  have key : fieldOf (setFieldOf v 0 1 1) 16 16 = fieldOf v 16 16 := fieldOf_setFieldOf_other v 1 (by decide)
  rw [run, actFuseCtrl, if_neg prog, key]
  exact ⟨fun h => congrArg _ (if_pos h), fun h => congrArg _ (if_neg h)⟩

theorem fuseProgram_refused (opens : s.writable Reg.BOOT_FUSE_CTRL = true) (h : s.fuseRefuses v) :
    Completes (.fuseProgram path v) s (fun t => t.bit Reg.BOOT_STAT 9 = true ∧ OnlyRegs s t [Reg.BOOT_STAT]) :=
  ⟨_, (exec_fuseProgram opens).1 h, State.bit_setBit_same s _ _ (by decide), onlyRegs_setReg s _ _⟩

theorem fuseProgram_starts (opens : s.writable Reg.BOOT_FUSE_CTRL = true) (h : ¬ s.fuseRefuses v) :
    Completes (.fuseProgram path v) s (fun t => t.bit Reg.BOOT_FUSE_STAT 1 = true ∧ OnlyRegs s t [Reg.BOOT_FUSE_STAT]) :=
  ⟨_, (exec_fuseProgram opens).2 h, State.bit_setBit_same s _ _ (by decide), onlyRegs_setReg s _ _⟩

/-- The status after the fuse has been programmed. -/
def State.fuseShown (s : State) : State := (s.setBit Reg.BOOT_FUSE_STAT 1 false).setBit Reg.BOOT_FUSE_STAT 0 true

theorem State.fuseShown_spec (s : State) : s.fuseShown.bit Reg.BOOT_FUSE_STAT 1 = false ∧ s.fuseShown.bit Reg.BOOT_FUSE_STAT 0 = true ∧
    OnlyRegs s s.fuseShown [Reg.BOOT_FUSE_STAT] := by
  refine ⟨?_, State.bit_setBit_same _ _ _ (by decide), ((onlyRegs_setBit s _ 1 false).trans (onlyRegs_setBit _ _ 0 true)).mono (by simp)⟩
  rw [State.fuseShown, State.bit_setBit _ _ _ (by decide), if_neg (by decide), State.bit_setBit _ _ _ (by decide), if_pos rfl]

theorem fuseProgramDone_ends (h : s.bit Reg.BOOT_FUSE_STAT 1 = true) : Completes .fuseProgramDone s (fun t =>
    t.bit Reg.BOOT_FUSE_STAT 1 = false ∧ t.bit Reg.BOOT_FUSE_STAT 0 = true ∧ t.pwr = { s.pwr with fuse := s.hashWords } ∧
      t = { s with regs := t.regs, pwr := t.pwr } ∧ KeepsRegs s t [Reg.BOOT_FUSE_STAT]) := by
  have run : exec .fuseProgramDone s = .next (s.fuseShown.withPwr { s.fuseShown.pwr with fuse := s.hashWords }) :=
    if_neg (by rw [h]; exact Bool.noConfusion)
  refine ⟨_, run, ?_⟩
  obtain ⟨idle, done, frame, kept⟩ := s.fuseShown_spec
  generalize s.fuseShown = a at frame kept idle done
  have pwr : a.pwr = s.pwr := by rw [frame]
  rw [pwr]
  refine ⟨idle, done, rfl, ?_, kept⟩
  rw [State.withPwr]
  dsimp only
  generalize a.regs = r at frame
  rw [frame]

end

end Sys2Proof.Machine
end

section
/-! PROOFS. The check of a configuration image (R403, R407, R410). -/

namespace Sys2Proof.Machine

variable {s : State} {identified : Bool} {log : Fin 7} {bytes : List Byte}

/-- LAST_ERR of the check of a flash image. -/
def State.checkError (s : State) (identified : Bool) (log : Nat) (bytes : List Byte) : Nat :=
  if identified then s.imageError bytes (slotBytes log) else 1

/-- The image stands in the stream-ring range, and a waiting HOST_GO is taken. -/
def State.imageStored (s : State) (log : Nat) (bytes : List Byte) : State :=
  let t := s.conStore 0x01000000 (bytes.take (min (slotBytes log) (imageLength bytes)))
  t.withPwr { t.pwr with hostGo := false }

theorem State.imageError_le (s : State) (b : List Byte) (slot : Nat) : s.imageError b slot ≤ 7 := by
  unfold State.imageError
  dsimp only
  split
  · decide
  split
  · decide
  split
  · decide
  split
  · decide
  split
  · decide
  · split_ifs <;> decide

theorem State.imageError_fits {s : State} {b : List Byte} {slot : Nat} (h : s.imageError b slot = 0) :
    imageLength b ≤ slot ∧ imageLength b ≤ b.length := by
  by_contra wrong
  have long : slot < imageLength b ∨ leAt b 8 4 < 64 ∨ leAt b 8 4 % 8 ≠ 0 ∨ b.length < imageLength b := by omega
  unfold State.imageError at h
  dsimp only at h
  rw [if_pos long] at h
  split at h
  · omega
  · split at h <;> omega

theorem exec_imageCheck (state : s.bootState = 1 ∨ s.bootState = 2) (unarmed : s.bit (Reg.PAGE_ERR_INJ Page.boot) 30 = false) :
    exec (.imageCheck identified log bytes) s = .next (
      let t := s.imageStored log bytes
      let err := s.checkError identified log bytes
      if err ≠ 0 then
        let u := (t.imageFails err false).bootTo 4
        if s.pwr.hostGo then u.attempt 3 else u
      else (if s.pwr.hostGo then t.setBit Reg.BOOT_STAT 8 true else t).bootTo 5) := by
  have flash : decide (s.bootState = 3) = false := decide_eq_false (by omega)
  have checked : s.checkImage identified (decide (s.bootState = 3)) log bytes =
      (s.conStore 0x01000000 (bytes.take (min (slotBytes log) (imageLength bytes))), s.checkError identified log bytes, false) := by
    unfold State.checkImage
    dsimp only
    rw [State.check_unarmed unarmed, flash]
    rfl
  refine (if_neg (by omega)).trans ?_
  rw [checked]
  dsimp only
  split <;> rfl

theorem State.imageStored_spec (s : State) (log : Nat) (bytes : List Byte) :
    (∀ a, (s.imageStored log bytes).reg a = s.reg a) ∧ (s.imageStored log bytes).pwr = { s.pwr with hostGo := false } ∧
      (imageLength bytes ≤ slotBytes log → imageLength bytes ≤ bytes.length →
        (∀ i, i < imageLength bytes → (s.imageStored log bytes).conByte (0x01000000 + i) = ((bytes[i]?).getD 0)) ∧
        KeepsCon s (s.imageStored log bytes) 0x01000000 (imageLength bytes)) := by
  have put := s.putConBytes_frame 0x01000000 (bytes.take (min (slotBytes log) (imageLength bytes)))
  have con := s.conByte_putConBytes (bytes.take (min (slotBytes log) (imageLength bytes))) 0x01000000
  unfold State.imageStored State.conStore State.withPwr
  dsimp only
  generalize s.putConBytes 0x01000000 (bytes.take (min (slotBytes log) (imageLength bytes))) = t at put con
  have regs : t.regs = s.regs := by rw [put]
  have pwr : t.pwr = s.pwr := by rw [put]
  refine ⟨fun a => congrArg (fun r => Sparse.get regReset r a) regs, by rw [pwr], fun slot long => ?_⟩
  rw [Nat.min_eq_right slot] at con
  have length : (bytes.take (imageLength bytes)).length = imageLength bytes := by rw [List.length_take, Nat.min_eq_left long]
  refine ⟨fun i hi => (con _).trans ?_, fun x hx => (con x).trans ?_⟩
  · rw [if_neg (by omega), Nat.add_sub_cancel_left, List.getElem?_take, if_pos hi, List.getElem?_eq_getElem (by omega)]
    rfl
  · split
    · rfl
    · rw [List.getElem?_eq_none (by omega), Option.getD_none]

theorem State.imageFails_spec (s : State) (err : Nat) (inj : Bool) (h : err < 16) :
    (s.imageFails err inj).fld Reg.BOOT_STAT 28 4 = err ∧ (s.imageFails err inj).bit (Reg.PAGE_IRQ_STAT Page.boot) 1 = true ∧
      Counted s (s.imageFails err inj) (Reg.PAGE_ERR_CNT Page.boot) ∧ Counted s (s.imageFails err inj) Reg.ERR_LOG_CNT ∧
      OnlyReports s (s.imageFails err inj) ([Reg.BOOT_STAT, Reg.PAGE_ERR_CNT Page.boot] ++ raiseRegs Page.boot ++ logRegs) := by
  have set := onlyRegs_setFld s Reg.BOOT_STAT 28 4 err
  have shown := State.fld_setFld_same s Reg.BOOT_STAT err (show 28 + 4 ≤ 32 by decide)
  rw [Nat.mod_eq_of_lt (show err < 2 ^ 4 from h)] at shown
  unfold State.imageFails
  generalize s.setFld Reg.BOOT_STAT 28 4 err = a at set shown
  have raised := onlyReports_raise a Page.boot 1
  have irq := a.bit_raise_same Page.boot (b := 1) (by decide)
  generalize a.raise Page.boot 1 = b at raised irq
  have erred := onlyReports_pageErr b Page.boot
  have counted : Counted b (b.pageErr Page.boot) (Reg.PAGE_ERR_CNT Page.boot) := counted_bump b _
  generalize b.pageErr Page.boot = c at erred counted
  have logged := onlyReports_logError c 0x0400 0 err inj
  have entries := counted_logError c 0x0400 0 err inj
  generalize c.logError 0x0400 0 err inj = d at logged entries
  refine ⟨?_, ?_, ?_, ?_, (((set.onlyReports.trans raised).trans erred).trans logged).mono ?_⟩
  · rw [State.fld_of_reg (logged.reg (by decide)), State.fld_of_reg (erred.reg (by decide)), State.fld_of_reg (raised.reg (by decide)), shown]
  · rw [State.bit_of_reg (logged.reg (by decide)), State.bit_of_reg (erred.reg (by decide)), irq]
  · exact (counted.of_reg_eq ((raised.reg (by decide)).trans (set.2 _ (by decide)))).of_reg_eq_after (logged.reg (by decide))
  · exact entries.of_reg_eq ((erred.reg (by decide)).trans ((raised.reg (by decide)).trans (set.2 _ (by decide))))
  · decide

theorem State.checkError_lt (s : State) (identified : Bool) (log : Nat) (bytes : List Byte) : s.checkError identified log bytes < 16 := by
  unfold State.checkError
  have := s.imageError_le bytes (slotBytes log)
  split <;> omega

/-- A failed check: what it reports before the sequencer goes on (R407). -/
theorem State.imageFails_waits (s : State) (err : Nat) (h : err < 16) :
    let u := (s.imageFails err false).bootTo 4
    u.bootState = 4 ∧ u.fld Reg.BOOT_STAT 28 4 = err ∧ u.bit (Reg.PAGE_IRQ_STAT Page.boot) 1 = true ∧
      Counted s u (Reg.PAGE_ERR_CNT Page.boot) ∧ Counted s u Reg.ERR_LOG_CNT ∧ u.reg Reg.BOOT_ATTEMPT_CNT = s.reg Reg.BOOT_ATTEMPT_CNT := by
  obtain ⟨shown, irq, counted, entries, told⟩ := s.imageFails_spec err false h
  generalize s.imageFails err false = t at shown irq counted entries told
  have apart := State.fld_setFld_apart t Reg.BOOT_STAT (lo := 24) (w := 4) 4 (lo' := 28) (w' := 4) (by decide)
  have set := onlyRegs_setFld t Reg.BOOT_STAT 24 4 4
  have state := State.fld_setFld_same t Reg.BOOT_STAT 4 (show 24 + 4 ≤ 32 by decide)
  unfold State.bootTo
  generalize t.setFld Reg.BOOT_STAT 24 4 4 = a at apart set state
  have raised := onlyReports_raise a Page.boot 0
  have bits := State.bit_raise a Page.boot (b := 0) (by decide) 1
  generalize a.raise Page.boot 0 = u at raised bits
  dsimp only
  refine ⟨?_, ?_, ?_, ?_, ?_, ?_⟩
  · exact (State.bootState_of_reg (raised.reg (by decide))).trans state
  · rw [State.fld_of_reg (raised.reg (by decide)), apart, shown]
  · rw [bits, if_neg (by decide), State.bit_of_reg (set.2 _ (by decide)), irq]
  · exact counted.of_reg_eq_after ((raised.reg (by decide)).trans (set.2 _ (by decide)))
  · exact entries.of_reg_eq_after ((raised.reg (by decide)).trans (set.2 _ (by decide)))
  · exact (raised.reg (by decide)).trans ((set.2 _ (by decide)).trans (told.reg (by decide)))

/-- An attempt leaves the other interrupts of the BOOT page as they are. -/
theorem State.attempt_irq (s : State) (which : Nat) : (s.attempt which).bit (Reg.PAGE_IRQ_STAT Page.boot) 1 = s.bit (Reg.PAGE_IRQ_STAT Page.boot) 1 := by
  rw [State.attempt_eq, State.bit_of_reg (State.reg_withPwr _ _ _), State.bootTo, State.bit_raise _ _ (by decide), if_neg (by decide)]
  exact State.bit_of_reg (((onlyRegs_setFld _ _ _ _ _).2 _ (by decide)).trans ((onlyReports_bump s _).reg (by decide))) 1

theorem imageCheck_accepts (state : s.bootState = 1 ∨ s.bootState = 2) (unarmed : s.bit (Reg.PAGE_ERR_INJ Page.boot) 30 = false)
    (fine : s.checkError identified log bytes = 0) : Completes (.imageCheck identified log bytes) s (fun t =>
      t.bootState = 5 ∧ t.bit (Reg.PAGE_IRQ_STAT Page.boot) 0 = true ∧
      t.bit Reg.BOOT_STAT 8 = (s.bit Reg.BOOT_STAT 8 || s.pwr.hostGo) ∧ t.pwr = { s.pwr with hostGo := false } ∧
      (∀ i, i < imageLength bytes → t.conByte (0x01000000 + i) = ((bytes[i]?).getD 0)) ∧
      KeepsCon s t 0x01000000 (imageLength bytes)) := by
  have fits : imageLength bytes ≤ slotBytes log ∧ imageLength bytes ≤ bytes.length := by
    unfold State.checkError at fine
    split at fine
    · exact State.imageError_fits fine
    · exact absurd fine (by decide)
  obtain ⟨regs, pwr, con⟩ := s.imageStored_spec log bytes
  obtain ⟨image, kept⟩ := con fits.1 fits.2
  refine ⟨_, exec_imageCheck state unarmed, ?_⟩
  dsimp only
  generalize s.imageStored log bytes = a at regs pwr image kept
  rw [if_neg (not_not.2 fine)]
  have set : OnlyRegs a (if s.pwr.hostGo then a.setBit Reg.BOOT_STAT 8 true else a) [Reg.BOOT_STAT] := by
    split
    · exact onlyRegs_setBit a _ 8 true
    · exact OnlyRegs.refl a _
  have rejected : (if s.pwr.hostGo then a.setBit Reg.BOOT_STAT 8 true else a).bit Reg.BOOT_STAT 8 = (s.bit Reg.BOOT_STAT 8 || s.pwr.hostGo) := by
    cases s.pwr.hostGo
    · rw [if_neg Bool.noConfusion, State.bit_of_reg (regs _), Bool.or_false]
    · rw [if_pos rfl, State.bit_setBit_same a _ true (by decide), Bool.or_true]
  generalize (if s.pwr.hostGo then a.setBit Reg.BOOT_STAT 8 true else a) = b at set rejected
  have apart := State.fld_setFld_apart b Reg.BOOT_STAT (lo := 24) (w := 4) 5 (lo' := 8) (w' := 1) (by decide)
  have told := (b.bootTo_reports (st := 5) (by decide)).2.2
  obtain ⟨now, irq, -⟩ := b.bootTo_reports (st := 5) (by decide)
  have kept8 : (b.bootTo 5).bit Reg.BOOT_STAT 8 = b.bit Reg.BOOT_STAT 8 := by
    rw [State.bootTo, State.bit_of_reg ((onlyReports_raise _ Page.boot 0).reg (by decide)), State.bit, ← State.fld, apart, State.fld, State.bit]
  generalize b.bootTo 5 = u at told now irq kept8
  have same : u.con = a.con ∧ u.pwr = a.pwr := ⟨by rw [told.1, set.1], by rw [told.1, set.1]⟩
  have byte : ∀ x, u.conByte x = a.conByte x := fun x => by rw [State.conByte, same.1, State.conByte]
  exact ⟨now, irq, kept8.trans rejected, same.2.trans pwr, fun i hi => (byte _).trans (image i hi), fun x hx => (byte x).trans (kept x hx)⟩

theorem imageCheck_fails (state : s.bootState = 1 ∨ s.bootState = 2) (unarmed : s.bit (Reg.PAGE_ERR_INJ Page.boot) 30 = false)
    (wrong : s.checkError identified log bytes ≠ 0) (alone : s.pwr.hostGo = false) : Completes (.imageCheck identified log bytes) s (fun t =>
      t.bootState = 4 ∧ t.fld Reg.BOOT_STAT 28 4 = s.checkError identified log bytes ∧ t.bit (Reg.PAGE_IRQ_STAT Page.boot) 1 = true ∧
      Counted s t (Reg.PAGE_ERR_CNT Page.boot) ∧ Counted s t Reg.ERR_LOG_CNT) := by
  refine ⟨_, exec_imageCheck state unarmed, ?_⟩
  dsimp only
  rw [if_pos wrong, alone, if_neg Bool.noConfusion]
  have regs := (s.imageStored_spec log bytes).1
  generalize s.imageStored log bytes = a at regs
  obtain ⟨waits, shown, irq, counted, entries, -⟩ := a.imageFails_waits _ (s.checkError_lt identified log bytes)
  exact ⟨waits, shown, irq, counted.of_reg_eq (regs _), entries.of_reg_eq (regs _)⟩

theorem imageCheck_tries_host (state : s.bootState = 1 ∨ s.bootState = 2) (unarmed : s.bit (Reg.PAGE_ERR_INJ Page.boot) 30 = false)
    (wrong : s.checkError identified log bytes ≠ 0) (host : s.pwr.hostGo = true) : Completes (.imageCheck identified log bytes) s (fun t =>
      Tried s t 3 ∧ t.bit (Reg.PAGE_IRQ_STAT Page.boot) 1 = true) := by
  refine ⟨_, exec_imageCheck state unarmed, ?_⟩
  dsimp only
  rw [if_pos wrong, if_pos host]
  have regs := (s.imageStored_spec log bytes).1
  generalize s.imageStored log bytes = a at regs
  obtain ⟨-, -, irq, -, -, attempts⟩ := a.imageFails_waits _ (s.checkError_lt identified log bytes)
  generalize (a.imageFails (s.checkError identified log bytes) false).bootTo 4 = u at irq attempts
  obtain ⟨tried, -, -⟩ := u.attempt_spec (which := 3) (by decide)
  exact ⟨⟨tried.state, tried.loading, tried.counted.of_reg_eq (attempts.trans (regs _)), tried.irq⟩, (u.attempt_irq 3).trans irq⟩

end Sys2Proof.Machine
end

section
/-! PROOFS. The end of the boot: a checked image is applied, and the cores start (R403, R408). -/

namespace Sys2Proof.Machine

/-! ### The start of the cores -/

/-- The sequencer is done, after the image has been applied. -/
def State.bootFinished (s : State) (which : Nat) (b : List Byte) : State := ((s.imageApplied which b).bootTo 6).showMode

/-- The cores in service start at their reset vectors. -/
def State.coresStart (s : State) : State := s.inService.foldl (fun v n => v.enterService n) s

/-- Registers that the end of the boot changes. -/
def doneRegs : List Nat := Reg.BOOT_IMG_SEQ :: (Reg.BOOT_STAT :: raiseRegs Page.boot) ++ [Reg.CON_STAT] ++ serviceRegs

theorem State.bootFinished_spec (s : State) (which : Nat) (b : List Byte) :
    let t := s.bootFinished which b
    t.bootState = 6 ∧ t.fld Reg.BOOT_STAT 16 2 = which % 4 ∧ t.reg Reg.BOOT_IMG_SEQ = BitVec.ofNat 32 (leAt b 12 4) ∧
      t.fld Reg.CON_STAT 0 2 = (if s.bit Reg.CON_CTRL 0 then 2 else 0) ∧ t.bit (Reg.PAGE_IRQ_STAT Page.boot) 0 = true ∧
      t.con = s.con ∧ t.cores = s.cores ∧
      KeepsRegs s t (Reg.BOOT_IMG_SEQ :: (Reg.BOOT_STAT :: raiseRegs Page.boot) ++ [Reg.CON_STAT]) := by
  have set := onlyRegs_setFld s Reg.BOOT_STAT 16 2 which
  have image := State.fld_setFld_same s Reg.BOOT_STAT which (show 16 + 2 ≤ 32 by decide)
  unfold State.bootFinished State.imageApplied
  generalize s.setFld Reg.BOOT_STAT 16 2 which = a at set image
  have put := onlyRegs_setReg a Reg.BOOT_IMG_SEQ (BitVec.ofNat 32 (leAt b 12 4))
  have seq := a.reg_setReg_same Reg.BOOT_IMG_SEQ (BitVec.ofNat 32 (leAt b 12 4))
  generalize a.setReg Reg.BOOT_IMG_SEQ (BitVec.ofNat 32 (leAt b 12 4)) = c at put seq
  have apart := State.fld_setFld_apart c Reg.BOOT_STAT (lo := 24) (w := 4) 6 (lo' := 16) (w' := 2) (by decide)
  obtain ⟨state, irq, told⟩ := c.bootTo_reports (st := 6) (by decide)
  have kept : (c.bootTo 6).fld Reg.BOOT_STAT 16 2 = c.fld Reg.BOOT_STAT 16 2 := by
    rw [State.bootTo, State.fld_of_reg ((onlyReports_raise _ Page.boot 0).reg (by decide)), apart]
  generalize c.bootTo 6 = d at state irq told kept
  have all : OnlyReports s d (Reg.BOOT_IMG_SEQ :: Reg.BOOT_STAT :: raiseRegs Page.boot) := ((set.trans put).onlyReports.trans told).mono (by decide)
  have test : d.bit Reg.CON_CTRL 0 = s.bit Reg.CON_CTRL 0 := State.bit_of_reg (all.reg (by decide)) 0
  have mode : d.showMode = d.setFld Reg.CON_STAT 0 2 (if d.bit Reg.CON_CTRL 0 then 2 else 0) := if_neg (not_not.2 state)
  rw [mode, test]
  have shown := onlyRegs_setFld d Reg.CON_STAT 0 2 (if s.bit Reg.CON_CTRL 0 then 2 else 0)
  have shows := State.fld_setFld_same d Reg.CON_STAT (if s.bit Reg.CON_CTRL 0 then 2 else 0) (show 0 + 2 ≤ 32 by decide)
  generalize d.setFld Reg.CON_STAT 0 2 (if s.bit Reg.CON_CTRL 0 then 2 else 0) = e at shown shows
  have boot : e.reg Reg.BOOT_STAT = d.reg Reg.BOOT_STAT := shown.2 _ (by decide)
  dsimp only
  refine ⟨(State.bootState_of_reg boot).trans state, ?_, ?_, ?_, ?_, by rw [shown.1, all.1], by rw [shown.1, all.1], all.keepsRegs.trans shown.2⟩
  · exact (State.fld_of_reg boot 16 2).trans (kept.trans ((State.fld_of_reg (put.2 _ (by decide)) 16 2).trans image))
  · exact (shown.2 _ (by decide)).trans ((told.reg (by decide)).trans seq)
  · rw [shows]
    split <;> rfl
  · rw [State.bit_of_reg (shown.2 _ (by decide)), irq]

/-- The block after BOOT_DONE, where the image changed no core and no Concourse byte. -/
structure Booted (s t : State) (which : Nat) (b : List Byte) : Prop where
  state : t.bootState = 6
  image : t.fld Reg.BOOT_STAT 16 2 = which % 4
  seq : t.reg Reg.BOOT_IMG_SEQ = BitVec.ofNat 32 (leAt b 12 4)
  mode : t.fld Reg.CON_STAT 0 2 = (if s.bit Reg.CON_CTRL 0 then 2 else 0)
  irq : t.bit (Reg.PAGE_IRQ_STAT Page.boot) 0 = true
  cores : ∀ n, n < 34 → (s.core n).svc = 2 → (t.core n).svc = 2 ∧ (t.core n).pc = s.fld (Reg.VC_RESET_VEC n) 0 13
  con : KeepsCon s t 0 0

theorem vcResetVec_notMem_done (n : Nat) : Reg.VC_RESET_VEC n ∉ Reg.BOOT_IMG_SEQ :: (Reg.BOOT_STAT :: raiseRegs Page.boot) ++ [Reg.CON_STAT] := by
  simp only [raiseRegs, List.cons_append, List.nil_append, List.mem_cons, List.not_mem_nil, or_false, Reg.VC_RESET_VEC, Reg.BOOT_IMG_SEQ,
    Reg.BOOT_STAT, Reg.PAGE_IRQ_STAT, Reg.MSIX_PBA, Reg.CON_STAT, Page.boot]
  omega

theorem Started.con {s t : State} {l : List Nat} (h : Started s t l) : t.con = s.con := by rw [h.rest]

theorem booted (s : State) (which : Nat) (b : List Byte) : Booted s (s.bootFinished which b).coresStart which b ∧
    KeepsRegs s (s.bootFinished which b).coresStart doneRegs := by
  obtain ⟨state, image, seq, mode, irq, con, cores, regs⟩ := s.bootFinished_spec which b
  generalize s.bootFinished which b = t at state image seq mode irq con cores regs
  have core : ∀ n, t.core n = s.core n := fun n => by rw [State.core, cores, State.core]
  have started := foldl_enterService t.inService (List.nodup_range.filter _) t
  have run : t.coresStart = t.inService.foldl (fun v n => v.enterService n) t := rfl
  rw [← run] at started
  generalize t.coresStart = u at started
  have apart : ∀ a ∈ [Reg.BOOT_STAT, Reg.BOOT_IMG_SEQ, Reg.CON_STAT, Reg.PAGE_IRQ_STAT Page.boot], u.reg a = t.reg a := by
    intro a ha
    exact started.regs a (by revert a; decide)
  have bytes : u.con = t.con := started.con
  refine ⟨⟨?_, ?_, ?_, ?_, ?_, fun n hn svc => ?_, fun x _ => ?_⟩, regs.trans started.regs⟩
  · exact (State.bootState_of_reg (apart _ (by decide))).trans state
  · exact (State.fld_of_reg (apart _ (by decide)) 16 2).trans image
  · exact (apart _ (by decide)).trans seq
  · exact (State.fld_of_reg (apart _ (by decide)) 0 2).trans mode
  · exact (State.bit_of_reg (apart _ (by decide)) 0).trans irq
  · have mem : n ∈ t.inService := List.mem_filter.2 ⟨List.mem_range.2 hn, decide_eq_true ((congrArg Core.svc (core n)).trans svc)⟩
    rw [started.entered n mem, State.fld_of_reg (regs _ (vcResetVec_notMem_done n))]
    exact ⟨rfl, rfl⟩
  · rw [State.conByte, bytes, con, State.conByte]

/-! ### Register records (R408) -/

theorem exec_bootDone {s : State} (state : s.bootState = 5) (stays : (s.applyImage s.buffered).bootState = 5) :
    exec .bootDone s = .next ((s.applyImage s.buffered).bootFinished s.pwr.loading s.buffered).coresStart :=
  (if_neg (not_not.2 state)).trans (if_neg (not_not.2 stays))

/-- Registers of the records that the statement takes: plainly stored ones. -/
def recordRegs : List Nat := [Reg.ING_TT_CFG, Reg.CLK_LOCK_THR, Reg.DRC_CFG, Reg.PTP_CFG]

theorem actOf_record {off : Nat} (h : off ∈ recordRegs) : actOf off = storeAct off := by
  simp only [recordRegs, List.mem_cons, List.not_mem_nil, or_false] at h
  rcases h with rfl | rfl | rfl | rfl <;> rfl

theorem State.regWrite_record {s : State} {off : Nat} (h : off ∈ recordRegs) (unlocked : s.locked (off / 0x1000) = false) (v : Word) :
    s.regWrite .image off v = s.setReg off (s.stored off v) := by
  have row : (rowOf off).isSome = true := by
    simp only [recordRegs, List.mem_cons, List.not_mem_nil, or_false] at h
    rcases h with rfl | rfl | rfl | rfl <;> decide
  obtain ⟨r, found⟩ := Option.isSome_iff_exists.1 row
  have stored : s.stored off v = r.store (s.reg off) v := by rw [State.stored, rowAt, found, Option.getD_some]
  rw [State.regWrite, State.hostWrite, actOf_record h, stored, found]
  dsimp only
  rw [unlocked, if_neg (fun h => h.1 rfl), if_neg (fun h => h.1 rfl), if_neg (fun h => h.1 rfl), if_neg (fun h => Bool.noConfusion h.1)]
  rfl

theorem recordRegs_apart : ∀ off ∈ recordRegs, off ≠ Reg.BOOT_STAT ∧ Reg.PAGE_ERR_CNT (off / 0x1000) ≠ off ∧ Reg.SVC_REFUSE_CNT ≠ off ∧
    Reg.ERR_INJ_REJ_CNT ≠ off ∧ off ≠ Reg.BOOT_FUSE_CTRL ∧ off ≠ Reg.CON_CTRL ∧ off < 0x20000 ∧ off ∉ doneRegs := by decide

theorem State.refusals_setReg {s : State} {off : Nat} (h : off ∈ recordRegs) (v : Word) : (s.setReg off v).refusals off = s.refusals off := by
  obtain ⟨-, err, svc, inj, -⟩ := recordRegs_apart off h
  rw [State.refusals, s.reg_setReg_other v err, s.reg_setReg_other v svc, s.reg_setReg_other v inj, State.refusals]

/-- A record of a plainly stored register is a write of it. -/
theorem State.applyRecord_stores {s : State} {r : List Byte} (h : leAt r 0 4 ∈ recordRegs) (unlocked : s.locked (leAt r 0 4 / 0x1000) = false) :
    s.applyRecord s.bootState r = s.setReg (leAt r 0 4) (s.stored (leAt r 0 4) (BitVec.ofNat 32 (leAt r 4 4))) := by
  obtain ⟨boot, -, -, -, fuse, -⟩ := recordRegs_apart _ h
  rw [State.applyRecord, if_neg (not_not.2 rfl)]
  dsimp only
  generalize leAt r 0 4 = off at *
  generalize BitVec.ofNat 32 (leAt r 4 4) = v
  rw [State.regWrite_record h unlocked, if_neg (not_not.2 (State.bootState_of_reg (s.reg_setReg_other _ boot.symm))), State.refusals_setReg h,
    fuseRefused, decide_eq_false fuse, Bool.false_and, Bool.false_and]
  exact if_neg (not_or.2 ⟨lt_irrefl _, Bool.noConfusion⟩)

theorem eights_single {r : List Byte} (h : r.length = 8) : eights r = [r] := by
  rw [eights, h]
  exact congrArg (fun x => [x]) (List.take_of_length_le (Nat.le_of_eq h))

theorem State.applyImage_none {s : State} {b : List Byte} (h : imageItems b = some []) : s.applyImage b = s := by
  rw [State.applyImage, h]
  rfl

theorem State.applyImage_record {s : State} {b r : List Byte} (h : imageItems b = some [(1, r)]) (length : r.length = 8)
    (plain : leAt r 0 4 ∈ recordRegs) (unlocked : s.locked (leAt r 0 4 / 0x1000) = false) :
    s.applyImage b = s.setReg (leAt r 0 4) (s.stored (leAt r 0 4) (BitVec.ofNat 32 (leAt r 4 4))) := by
  rw [State.applyImage, h, ← State.applyRecord_stores plain unlocked]
  rw [Option.getD_some, List.foldl_cons, List.foldl_nil, if_neg (not_not.2 rfl), if_pos rfl, eights_single length]
  rfl

theorem bootDone_empty {s : State} (state : s.bootState = 5) (items : imageItems s.buffered = some []) :
    Completes .bootDone s (fun t => Booted s t s.pwr.loading s.buffered) := by
  have same := State.applyImage_none (s := s) items
  have run := exec_bootDone state ((congrArg State.bootState same).trans state)
  rw [same] at run
  exact ⟨_, run, (booted s s.pwr.loading s.buffered).1⟩

theorem bootDone_record {s : State} (state : s.bootState = 5) {r : List Byte} (items : imageItems s.buffered = some [(1, r)])
    (length : r.length = 8) (plain : leAt r 0 4 ∈ recordRegs) (unlocked : s.locked (leAt r 0 4 / 0x1000) = false) :
    Completes .bootDone s (fun t => Booted s t s.pwr.loading s.buffered ∧
      t.reg (leAt r 0 4) = s.stored (leAt r 0 4) (BitVec.ofNat 32 (leAt r 4 4))) := by
  have applied := State.applyImage_record items length plain unlocked
  obtain ⟨boot, -, -, -, -, con, page, done⟩ := recordRegs_apart _ plain
  generalize leAt r 0 4 = off at *
  generalize s.stored off (BitVec.ofNat 32 (leAt r 4 4)) = v at *
  have only := onlyRegs_setReg s off v
  have word := s.reg_setReg_same off v
  have stays : (s.applyImage s.buffered).bootState = 5 := by rw [applied, State.bootState_of_reg (s.reg_setReg_other v boot.symm), state]
  have run := exec_bootDone state stays
  rw [applied] at run
  refine ⟨_, run, ?_⟩
  obtain ⟨all, kept⟩ := booted (s.setReg off v) s.pwr.loading s.buffered
  generalize s.setReg off v = a at only word all kept
  generalize (a.bootFinished s.pwr.loading s.buffered).coresStart = t at all kept
  have core : ∀ n, a.core n = s.core n := fun n => by rw [only.1]; rfl
  refine ⟨⟨all.state, all.image, all.seq, ?_, all.irq, fun n hn svc => ?_, fun x hx => ?_⟩, (kept _ done).trans word⟩
  · rw [all.mode, State.bit_of_reg (only.2 _ (fun h => con (List.mem_singleton.1 h).symm))]
  · obtain ⟨svc', pc⟩ := all.cores n hn (by rw [core, svc])
    refine ⟨svc', pc.trans (State.fld_of_reg (only.2 _ ?_) 0 13)⟩
    rw [List.mem_singleton]
    dsimp only [Reg.VC_RESET_VEC]
    omega
  · rw [all.con x hx, only.1]
    rfl

/-- Settles O59: the boot sequencer clause by clause, each attempt through the one lemma about attempts. -/
theorem bootSequence : Obligations.BootSequence := by
  intro s path v passed validA validB identified seqA seqB log bytes
  dsimp only
  refine ⟨bootInitDone_idle, fun state on => ?_, fun h => ⟨s, if_pos h, rfl⟩, fun waits => ?_, fun opens => ⟨hostImageGo_ignored opens, ?_,
    hostImageGo_waits opens⟩, fun h => ⟨s, if_pos (by omega), rfl⟩, fun state unarmed => ⟨imageCheck_accepts state unarmed,
    imageCheck_fails state unarmed, fun wrong host => ?_⟩, fun h => ⟨s, if_pos h, rfl⟩, fun state => ⟨fun items => ?_, ?_⟩,
    fun opens => ⟨fuseProgram_refused opens, fuseProgram_starts opens⟩, fun idle => ⟨s, if_pos idle, rfl⟩, fuseProgramDone_ends⟩
  · obtain ⟨t, run, tried, rest⟩ := bootInitDone_attempts (passed := passed) (validA := validA) (validB := validB) (seqA := seqA) (seqB := seqB)
      (s := s) (fun h => h.elim (fun h => h state) on)
    exact ⟨t, run, ⟨tried.state, tried.loading, tried.counted, tried.irq⟩, rest⟩
  · obtain ⟨t, run, tried, rest⟩ := backoffExpiry_attempts waits
    exact ⟨t, run, ⟨tried.state, tried.loading, tried.counted, tried.irq⟩, rest⟩
  · intro on waits
    obtain ⟨t, run, tried, rest⟩ := hostImageGo_attempts opens on waits
    exact ⟨t, run, ⟨tried.state, tried.loading, tried.counted, tried.irq⟩, rest⟩
  · obtain ⟨t, run, tried, rest⟩ := imageCheck_tries_host state unarmed wrong host
    exact ⟨t, run, ⟨tried.state, tried.loading, tried.counted, tried.irq⟩, rest⟩
  · obtain ⟨t, run, done⟩ := bootDone_empty state items
    exact ⟨t, run, done.state, done.image, done.seq, done.mode, done.irq, done.cores, done.con⟩
  · intro r items length plain unlocked
    obtain ⟨t, run, done, word⟩ := bootDone_record state items length plain unlocked
    exact ⟨t, run, ⟨done.state, done.image, done.seq, done.mode, done.irq, done.cores, done.con⟩, word⟩

end Sys2Proof.Machine
end

section
/-! PROOFS. The end of a service operation and the writes of the Service Port that are refused (R355, R372, R374). -/

namespace Sys2Proof.Machine

/-! ### SVC_STAT as words -/

/-- SVC_STAT after the end of an operation. -/
def endWord (op : Nat) (auto late aborted fail bad : Bool) : Word :=
  BitVec.ofNat 32 (2 ^ 30 + (2 ^ 16 * op + (if auto then 2 ^ 5 else 0) + (if late then 2 ^ 4 else 0)) +
    (if aborted then 8 else 0) + (if fail then 4 else 0) + (if bad then 2 else 0))

/-- SVC_STAT after the start of an operation. -/
def startWord (op : Nat) (done auto : Bool) : Word :=
  BitVec.ofNat 32 (2 ^ 31 + (if done then 2 ^ 30 else 0) + 2 ^ 16 * (op % 256) + (if auto then 2 ^ 5 else 0))

theorem fieldOf_ofNat (n lo w : Nat) : fieldOf (BitVec.ofNat 32 n) lo w = n % 2 ^ 32 / 2 ^ lo % 2 ^ w := by
  rw [fieldOf, bitsOf, BitVec.toNat_ofNat, Nat.shiftRight_eq_div_pow]

theorem bit_of_ite (b : Bool) (k : Nat) : (if b then k else 0) = b.toNat * k := by cases b <;> simp

theorem decide_toNat (b : Bool) : decide (b.toNat = 1) = b := by cases b <;> rfl

theorem endWord_bits {op : Nat} (h : op < 256) (auto late aborted fail bad : Bool) :
    fieldOf (endWord op auto late aborted fail bad) 31 1 = 0 ∧ fieldOf (endWord op auto late aborted fail bad) 30 1 = 1 ∧
      fieldOf (endWord op auto late aborted fail bad) 16 8 = op ∧ fieldOf (endWord op auto late aborted fail bad) 5 1 = auto.toNat ∧
      fieldOf (endWord op auto late aborted fail bad) 3 1 = aborted.toNat ∧ fieldOf (endWord op auto late aborted fail bad) 2 1 = fail.toNat ∧
      fieldOf (endWord op auto late aborted fail bad) 1 1 = bad.toNat := by
  have ha := auto.toNat_le
  have hl := late.toNat_le
  have hb := aborted.toNat_le
  have hf := fail.toNat_le
  have hd := bad.toNat_le
  simp only [endWord, fieldOf_ofNat, bit_of_ite]
  generalize auto.toNat = a at *
  generalize late.toNat = l at *
  generalize aborted.toNat = b at *
  generalize fail.toNat = f at *
  generalize bad.toNat = d at *
  refine ⟨?_, ?_, ?_, ?_, ?_, ?_, ?_⟩ <;> omega

theorem startWord_bits {op : Nat} (h : op < 256) (done auto : Bool) : fieldOf (startWord op done auto) 31 1 = 1 ∧
    fieldOf (startWord op done auto) 16 8 = op ∧ fieldOf (startWord op done auto) 5 1 = auto.toNat := by
  have ha := auto.toNat_le
  have hd := done.toNat_le
  simp only [startWord, fieldOf_ofNat, bit_of_ite]
  generalize auto.toNat = a at *
  generalize done.toNat = d at *
  refine ⟨?_, ?_, ?_⟩ <;> omega

/-! ### The end of an operation -/

/-- Registers that the end of an operation writes. -/
def finishRegs : List Nat := [Reg.SVC_STAT, Reg.SVC_PROG, Reg.PAGE_STAT Page.svc, Reg.PAGE_CTRL Page.svc] ++ raiseRegs Page.svc

/-- From `s` to `t` nothing differs but an operation's own record, and the registers that its end writes. -/
structure Closes (s t : State) : Prop where
  rest : t = { s with regs := t.regs, pmu := t.pmu, out := t.out, svc := t.svc, deferred := t.deferred }
  regs : KeepsRegs s t finishRegs
  flash : t.out.flash = s.out.flash

theorem State.flash_raise (s : State) (p b : Nat) : (s.raise p b).out.flash = s.out.flash := by
  unfold State.raise
  dsimp only
  have set := (onlyRegs_setBit s (Reg.PAGE_IRQ_STAT p) b true).1
  generalize s.setBit (Reg.PAGE_IRQ_STAT p) b true = t at set
  have same : t.out = s.out := by rw [set]
  split
  · unfold State.deliver State.sendMsix
    split
    · split
      · rw [(onlyRegs_setBit t _ _ true).1, same]
      · change t.out.flash = s.out.flash
        rw [same]
    · rw [same]
  · rw [same]

namespace Closes

variable {s t u : State}

theorem refl (s : State) : Closes s s := ⟨rfl, fun _ _ => rfl, rfl⟩

theorem trans (h : Closes s t) (g : Closes t u) : Closes s u where
  rest := by rw [g.rest, h.rest]
  regs a ha := (g.regs a ha).trans (h.regs a ha)
  flash := g.flash.trans h.flash

theorem of_regs {l : List Nat} (h : OnlyRegs s t l) (sub : l ⊆ finishRegs) : Closes s t where
  rest := by rw [h.1]
  regs := (h.mono sub).2
  flash := by rw [h.1]

theorem raise (s : State) (b : Nat) : Closes s (s.raise Page.svc b) where
  rest := by rw [(onlyReports_raise s Page.svc b).1]
  regs := ((onlyReports_raise s Page.svc b).mono (List.subset_append_right _ _)).2
  flash := s.flash_raise Page.svc b

/-- What an end leaves as it is. -/
theorem kept (h : Closes s t) : t.cores = s.cores ∧ t.con = s.con ∧ t.dram = s.dram ∧ t.spf = s.spf ∧ t.ctl = s.ctl ∧ t.pwr = s.pwr := by
  refine ⟨?_, ?_, ?_, ?_, ?_, ?_⟩ <;> rw [h.rest]

theorem core (h : Closes s t) (n : Nat) : t.core n = s.core n := by rw [State.core, h.kept.1, State.core]

end Closes

/-- The Service Port's page becomes idle, if it waits for that. -/
theorem State.idle_svc (s : State) : OnlyRegs { s with deferred := (s.idle Page.svc).deferred } (s.idle Page.svc)
    [Reg.PAGE_STAT Page.svc, Reg.PAGE_CTRL Page.svc] := by
  by_cases waits : Page.svc ∈ s.deferred
  · have plain : ∀ u : State, u.startPage Page.svc = u.opened Page.svc := fun _ => rfl
    rw [s.idle_deferred waits, plain]
    have quiet := s.quieted_regs Page.svc
    generalize s.quieted Page.svc = a at quiet
    have opens := State.opened_regs { a with deferred := a.deferred.filter (fun q => decide (q ≠ Page.svc)) } Page.svc
    generalize State.opened { a with deferred := a.deferred.filter (fun q => decide (q ≠ Page.svc)) } Page.svc = b at opens
    refine ⟨by rw [opens.1, quiet.1], fun x hx => (opens.2 x ?_).trans (quiet.2 x ?_)⟩
    · exact fun mem => hx ((List.Perm.swap _ _ []).mem_iff.1 mem)
    · exact fun mem => hx (List.mem_cons.2 (Or.inl (List.mem_singleton.1 mem)))
  · rw [s.idle_settled waits]
    have quiet := s.quieted_regs Page.svc
    generalize s.quieted Page.svc = a at quiet
    exact ⟨by rw [quiet.1], fun x hx => quiet.2 x fun mem => hx (List.mem_cons.2 (Or.inl (List.mem_singleton.1 mem)))⟩

/-- SVC_STAT and SVC_PROG at the end of an operation, before it is reported. -/
def State.svcShown (s : State) (aborted fail bad : Bool) : State :=
  let s1 := s.setReg Reg.SVC_STAT (endWord s.svcOp (s.bit Reg.SVC_STAT 5) (s.bit Reg.SVC_STAT 4) aborted fail bad)
  if aborted ∨ bad then s1 else s1.setFld Reg.SVC_PROG 0 7 100

/-- The record of an operation that has ended. -/
def State.svcCleared (s : State) : State := { s with svc := Service.reset }

theorem State.svcFinish_eq (s : State) (aborted fail bad : Bool) : s.svcFinish aborted fail bad =
    if ((s.svcShown aborted fail bad).raise Page.svc 0).svcCleared.bit (Reg.PAGE_STAT Page.svc) 1 then
      ((s.svcShown aborted fail bad).raise Page.svc 0).svcCleared.idle Page.svc
    else ((s.svcShown aborted fail bad).raise Page.svc 0).svcCleared := rfl

theorem State.svcShown_spec (s : State) (aborted fail bad : Bool) : OnlyRegs s (s.svcShown aborted fail bad) [Reg.SVC_STAT, Reg.SVC_PROG] ∧
    (s.svcShown aborted fail bad).reg Reg.SVC_STAT = endWord s.svcOp (s.bit Reg.SVC_STAT 5) (s.bit Reg.SVC_STAT 4) aborted fail bad := by
  unfold State.svcShown
  have set := onlyRegs_setReg s Reg.SVC_STAT (endWord s.svcOp (s.bit Reg.SVC_STAT 5) (s.bit Reg.SVC_STAT 4) aborted fail bad)
  have word := s.reg_setReg_same Reg.SVC_STAT (endWord s.svcOp (s.bit Reg.SVC_STAT 5) (s.bit Reg.SVC_STAT 4) aborted fail bad)
  generalize s.setReg Reg.SVC_STAT (endWord s.svcOp (s.bit Reg.SVC_STAT 5) (s.bit Reg.SVC_STAT 4) aborted fail bad) = t at set word
  dsimp only
  split
  · exact ⟨set.mono (by simp), word⟩
  · have prog := onlyRegs_setFld t Reg.SVC_PROG 0 7 100
    exact ⟨(set.trans prog).mono (by simp), (prog.2 _ (by decide)).trans word⟩

/-- The running operation ends (R372). -/
theorem State.svcFinish_spec (s : State) (aborted fail bad : Bool) : SvcEnded (s.svcFinish aborted fail bad) aborted fail bad ∧
    (s.svcFinish aborted fail bad).svcOp = s.svcOp ∧ (s.svcFinish aborted fail bad).bit Reg.SVC_STAT 5 = s.bit Reg.SVC_STAT 5 ∧
    Closes s (s.svcFinish aborted fail bad) := by
  obtain ⟨shown, word⟩ := s.svcShown_spec aborted fail bad
  obtain ⟨idle, done, op, auto, abort, failed, bads⟩ := endWord_bits (op := s.svcOp) (State.fld_lt s Reg.SVC_STAT 16 8) (s.bit Reg.SVC_STAT 5)
    (s.bit Reg.SVC_STAT 4) aborted fail bad
  rw [State.svcFinish_eq]
  generalize s.svcShown aborted fail bad = a at shown word
  have raised := Closes.raise a 0
  have irq := a.bit_raise_same Page.svc (b := 0) (by decide)
  have stat := (onlyReports_raise a Page.svc 0).reg (a := Reg.SVC_STAT) (by decide)
  generalize a.raise Page.svc 0 = b at raised irq stat
  have before := (Closes.of_regs shown (by decide)).trans raised
  have cleared : Closes s b.svcCleared ∧ b.svcCleared.svc = Service.reset ∧ ∀ x, b.svcCleared.reg x = b.reg x :=
    ⟨⟨by rw [State.svcCleared, before.rest], before.regs, before.flash⟩, rfl, fun _ => rfl⟩
  generalize b.svcCleared = c at cleared
  obtain ⟨closed, svc, regs⟩ := cleared
  have last : Closes s (if c.bit (Reg.PAGE_STAT Page.svc) 1 then c.idle Page.svc else c) ∧
      (if c.bit (Reg.PAGE_STAT Page.svc) 1 then c.idle Page.svc else c).svc = Service.reset ∧
      ∀ x ∈ [Reg.SVC_STAT, Reg.PAGE_IRQ_STAT Page.svc], (if c.bit (Reg.PAGE_STAT Page.svc) 1 then c.idle Page.svc else c).reg x = c.reg x := by
    split
    · have only := c.idle_svc
      generalize c.idle Page.svc = d at only
      have closes : Closes c d := ⟨by rw [only.1], fun x hx => only.2 x fun mem => hx (by
        rcases List.mem_cons.1 mem with rfl | rest
        · decide
        · rw [List.mem_singleton.1 rest]
          decide), by rw [only.1]⟩
      refine ⟨closed.trans closes, by rw [only.1]; exact svc, fun x hx => only.2 x ?_⟩
      revert x
      decide
    · exact ⟨closed, svc, fun _ _ => rfl⟩
  generalize (if c.bit (Reg.PAGE_STAT Page.svc) 1 then c.idle Page.svc else c) = d at last
  obtain ⟨closes, reset, same⟩ := last
  have now : d.reg Reg.SVC_STAT = endWord s.svcOp (s.bit Reg.SVC_STAT 5) (s.bit Reg.SVC_STAT 4) aborted fail bad := by
    rw [same _ (by decide), regs, stat, word]
  refine ⟨⟨?_, ?_, ?_, ?_, ?_, ?_, reset⟩, ?_, ?_, closes⟩
  · rw [State.svcBusy, State.bit, now, idle]
    rfl
  · rw [State.bit, now, done]
    rfl
  · rw [State.bit, now, abort, decide_toNat]
  · rw [State.bit, now, failed, decide_toNat]
  · rw [State.bit, now, bads, decide_toNat]
  · rw [State.bit_of_reg (same _ (by decide)), State.bit_of_reg (regs _), irq]
  · exact (congrArg (fun w => fieldOf w 16 8) now).trans op
  · rw [State.bit, now, auto, decide_toNat]

end Sys2Proof.Machine
end

section
/-! PROOFS. The start of a service operation (R309, R312, R318, R319, R372, R373). -/

namespace Sys2Proof.Machine

/-! ### A write of SVC_CMD -/

/-- SVC_STAT and SVC_PROG at the start of an operation, and the count of automatic ones. -/
def State.svcStarting (s : State) (op : Nat) (auto : Bool) : State :=
  let s1 := s.setReg Reg.SVC_STAT (startWord op (s.bit Reg.SVC_STAT 30) auto)
  (if auto then s1.bump Reg.SVC_AUTO_CNT else s1).setFld Reg.SVC_PROG 0 7 0

/-- An operation that starts holds its argument. -/
def State.svcArmed (s : State) (op arg : Nat) (auto : Bool) : State :=
  { s.svcStarting op auto with svc := { Service.reset with arg := bitsOf arg 0 (if op = 5 then 20 else 32) } }

theorem State.svcStart_eq (s : State) (op arg : Nat) (auto : Bool) : s.svcStart op arg auto =
    if s.svcValid op arg then (s.svcArmed op arg auto).svcBegin op arg else (s.svcStarting op auto).svcFinish false false true := rfl

/-- Registers of the start of an operation. -/
def startRegs : List Nat := [Reg.SVC_STAT, Reg.SVC_PROG, Reg.SVC_AUTO_CNT]

theorem State.svcStarting_spec (s : State) {op : Nat} (h : op < 256) (auto : Bool) : let t := s.svcStarting op auto
    t.svcBusy = true ∧ t.svcOp = op ∧ t.bit Reg.SVC_STAT 5 = auto ∧ t.fld Reg.SVC_PROG 0 7 = 0 ∧ OnlyRegs s t startRegs ∧
      (auto = true → Counted s t Reg.SVC_AUTO_CNT) := by
  obtain ⟨busy, code, autos⟩ := startWord_bits h (s.bit Reg.SVC_STAT 30) auto
  unfold State.svcStarting
  have set := onlyRegs_setReg s Reg.SVC_STAT (startWord op (s.bit Reg.SVC_STAT 30) auto)
  have word := s.reg_setReg_same Reg.SVC_STAT (startWord op (s.bit Reg.SVC_STAT 30) auto)
  generalize startWord op (s.bit Reg.SVC_STAT 30) auto = w at *
  generalize s.setReg Reg.SVC_STAT w = a at set word
  have counted : OnlyRegs a (if auto then a.bump Reg.SVC_AUTO_CNT else a) [Reg.SVC_AUTO_CNT] ∧
      (auto = true → Counted a (if auto then a.bump Reg.SVC_AUTO_CNT else a) Reg.SVC_AUTO_CNT) := by
    cases auto
    · exact ⟨OnlyRegs.refl a _, fun h => Bool.noConfusion h⟩
    · exact ⟨onlyRegs_setReg a _ _, fun _ => counted_bump a _⟩
  dsimp only
  generalize (if auto then a.bump Reg.SVC_AUTO_CNT else a) = b at counted
  have prog := onlyRegs_setFld b Reg.SVC_PROG 0 7 0
  have zero := State.fld_setFld_same b Reg.SVC_PROG 0 (show 0 + 7 ≤ 32 by decide)
  generalize b.setFld Reg.SVC_PROG 0 7 0 = c at prog zero
  have now : c.reg Reg.SVC_STAT = w := (prog.2 _ (by decide)).trans ((counted.1.2 _ (by decide)).trans word)
  refine ⟨?_, ?_, ?_, zero, ((set.trans counted.1).trans prog).mono (by decide), fun h => ?_⟩
  · rw [State.svcBusy, State.bit, now, busy]
    rfl
  · exact (congrArg (fun w => fieldOf w 16 8) now).trans code
  · rw [State.bit, now, autos, decide_toNat]
  · exact ((counted.2 h).of_reg_eq (set.2 _ (by decide))).of_reg_eq_after (prog.2 _ (by decide))

/-- The state of an operation that has just started, with what the start leaves as it is. -/
structure Armed (s t : State) (op arg : Nat) : Prop where
  runs : SvcRuns t op arg
  rest : t = { s with regs := t.regs, svc := { Service.reset with arg := arg } }
  regs : KeepsRegs s t startRegs

theorem State.svcArmed_spec (s : State) {op : Nat} (h : op < 256) (arg : Nat) (auto : Bool) :
    Armed s (s.svcArmed op arg auto) op (bitsOf arg 0 (if op = 5 then 20 else 32)) := by
  obtain ⟨busy, code, -, prog, only, -⟩ := s.svcStarting_spec h auto
  unfold State.svcArmed
  generalize s.svcStarting op auto = t at busy code prog only
  exact ⟨⟨busy, code, prog, rfl⟩, by rw [only.1], only.2⟩

namespace Armed

variable {s t : State} {op arg : Nat}

theorem kept (h : Armed s t op arg) : t.cores = s.cores ∧ t.dram = s.dram ∧ t.out = s.out ∧ t.spf = s.spf ∧ t.pwr = s.pwr ∧ t.ctl = s.ctl := by
  refine ⟨?_, ?_, ?_, ?_, ?_, ?_⟩ <;> rw [h.rest]

theorem core (h : Armed s t op arg) (n : Nat) : t.core n = s.core n := by rw [State.core, h.kept.1, State.core]

theorem conBank (h : Armed s t op arg) (b : Nat) : t.reg (Reg.CON_BANK b) = s.reg (Reg.CON_BANK b) := h.regs _ (by
  simp only [startRegs, List.mem_cons, List.not_mem_nil, or_false, Reg.CON_BANK, Reg.SVC_STAT, Reg.SVC_PROG, Reg.SVC_AUTO_CNT]
  omega)

end Armed

theorem State.bankState_of_reg {s t : State} {b : Nat} (h : t.reg (Reg.CON_BANK b) = s.reg (Reg.CON_BANK b)) : t.bankState b = s.bankState b :=
  State.fld_of_reg h 29 3

theorem State.lowestSpare_congr {s t : State} (h : ∀ b, t.bankState b = s.bankState b) : t.lowestSpare = s.lowestSpare := by
  unfold State.lowestSpare
  simp only [h]

theorem State.rebuildTarget_congr {s t : State} (h : ∀ b, t.bankState b = s.bankState b) (arg : Nat) : t.rebuildTarget arg = s.rebuildTarget arg := by
  unfold State.rebuildTarget
  simp only [h, State.lowestSpare_congr h]

theorem State.lowestSpare_lt {s : State} {k : Nat} (h : s.lowestSpare = some k) : k < 74 :=
  List.mem_range.1 (List.mem_of_find?_eq_some h)

theorem State.rebuildTarget_lt {s : State} {arg k : Nat} (h : s.rebuildTarget arg = some k) : k < 74 := by
  unfold State.rebuildTarget at h
  dsimp only at h
  split at h
  · exact State.lowestSpare_lt h
  · split at h
    · next fits =>
      rw [← Option.some.inj h]
      exact fits.1
    · cases h

/-- An operation goes on running where its registers and its argument stay. -/
theorem SvcRuns.of_same {s t : State} {op arg : Nat} (h : SvcRuns s op arg) (stat : t.reg Reg.SVC_STAT = s.reg Reg.SVC_STAT)
    (prog : t.reg Reg.SVC_PROG = s.reg Reg.SVC_PROG) (held : t.svc.arg = s.svc.arg) : SvcRuns t op arg := by
  obtain ⟨busy, code, zero, same⟩ := h
  exact ⟨(State.bit_of_reg stat 31).trans busy, (State.fld_of_reg stat 16 8).trans code, (State.fld_of_reg prog 0 7).trans zero, held.trans same⟩

/-! ### What an operation does at its start -/

/-- The controller holds the bank that is being rebuilt. -/
def State.rebuilding (s : State) (bank : Nat) : State := { s with ctl := { s.ctl with rbBank := bank, rbPoison := [], rbParity := [] } }

theorem OnlyRegs.rebuilding {s t : State} {l : List Nat} (h : OnlyRegs s t l) (bank : Nat) :
    (∀ a, (t.rebuilding bank).reg a = t.reg a) ∧ (t.rebuilding bank).ctl.rbBank = bank ∧
      (t.rebuilding bank).ctl.rebuildQueue = s.ctl.rebuildQueue ∧
      t.rebuilding bank = { s with regs := (t.rebuilding bank).regs, ctl := (t.rebuilding bank).ctl } := by
  have frame := h.1
  generalize t.regs = r at frame
  subst frame
  exact ⟨fun _ => rfl, rfl, rfl, rfl⟩

/-- The word of CON_RB_STAT at the start of a rebuild. -/
def rebuildWord (target g j : Nat) : Word := BitVec.ofNat 32 (2 ^ 31 + 2 ^ 24 * target + 2 ^ 20 * g + 2 ^ 16 * j)

theorem rebuildWord_bits {target g j : Nat} (h : target < 74) (hg : g < 16) (hj : j < 16) : fieldOf (rebuildWord target g j) 31 1 = 1 ∧
    fieldOf (rebuildWord target g j) 0 15 = 0 ∧ fieldOf (rebuildWord target g j) 24 7 = target := by
  simp only [rebuildWord, fieldOf_ofNat]
  refine ⟨?_, ?_, ?_⟩ <;> omega

/-- The registers of a rebuild that starts. -/
def State.rebuildShown (s : State) (bank target : Nat) : State :=
  ((s.setBank target 2 0xF 0).setFld Reg.CON_STAT 8 4 (s.fld (Reg.CON_BANK bank) 24 4)).setReg Reg.CON_RB_STAT
    (rebuildWord target (s.fld (Reg.CON_BANK bank) 24 4) (s.fld (Reg.CON_BANK bank) 16 4))

theorem State.startRebuild_eq (s : State) (bank target : Nat) : s.startRebuild bank target = (s.rebuildShown bank target).rebuilding bank := rfl

theorem conBank_apart (b : Nat) : Reg.CON_BANK b ∉ [Reg.CON_STAT] ∧ Reg.CON_BANK b ∉ [Reg.CON_RB_STAT] := by
  simp only [List.mem_singleton, Reg.CON_BANK, Reg.CON_STAT, Reg.CON_RB_STAT]
  omega

theorem State.rebuildShown_spec (s : State) (bank target : Nat) :
    (s.rebuildShown bank target).reg Reg.CON_RB_STAT =
      rebuildWord target (s.fld (Reg.CON_BANK bank) 24 4) (s.fld (Reg.CON_BANK bank) 16 4) ∧
    (s.rebuildShown bank target).bankState target = 2 ∧
    OnlyRegs s (s.rebuildShown bank target) [Reg.CON_BANK target, Reg.CON_STAT, Reg.CON_RB_STAT] := by
  unfold State.rebuildShown
  generalize rebuildWord target (s.fld (Reg.CON_BANK bank) 24 4) (s.fld (Reg.CON_BANK bank) 16 4) = w
  generalize s.fld (Reg.CON_BANK bank) 24 4 = g
  have bankRegs := s.setBank_regs target 2 0xF 0
  have state := s.bankState_setBank target (st := 2) (by decide) 0xF 0
  generalize s.setBank target 2 0xF 0 = a at bankRegs state
  have shown := onlyRegs_setFld a Reg.CON_STAT 8 4 g
  generalize a.setFld Reg.CON_STAT 8 4 g = b at shown
  have set := onlyRegs_setReg b Reg.CON_RB_STAT w
  refine ⟨b.reg_setReg_same _ w, (State.bankState_of_reg ?_).trans state, ((bankRegs.trans shown).trans set).mono (by simp)⟩
  exact (set.2 _ (conBank_apart target).2).trans (shown.2 _ (conBank_apart target).1)

theorem State.startRebuild_spec (s : State) (bank : Nat) {target : Nat} (h : target < 74) : let t := s.startRebuild bank target
    t.bit Reg.CON_RB_STAT 31 = true ∧ t.fld Reg.CON_RB_STAT 0 15 = 0 ∧ t.ctl.rbBank = bank ∧ t.fld Reg.CON_RB_STAT 24 7 = target ∧
      t.bankState target = 2 ∧ t = { s with regs := t.regs, ctl := t.ctl } ∧ t.ctl.rebuildQueue = s.ctl.rebuildQueue ∧
      KeepsRegs s t [Reg.CON_BANK target, Reg.CON_STAT, Reg.CON_RB_STAT] := by
  obtain ⟨word, state, only⟩ := s.rebuildShown_spec bank target
  obtain ⟨on, row, place⟩ := rebuildWord_bits h (State.fld_lt s (Reg.CON_BANK bank) 24 4) (State.fld_lt s (Reg.CON_BANK bank) 16 4)
  rw [State.startRebuild_eq]
  generalize rebuildWord target (s.fld (Reg.CON_BANK bank) 24 4) (s.fld (Reg.CON_BANK bank) 16 4) = w at word on row place
  generalize s.rebuildShown bank target = c at word state only
  obtain ⟨same, own, queue, frame⟩ := only.rebuilding bank
  generalize c.rebuilding bank = t at same own queue frame
  have now := (same _).trans word
  refine ⟨?_, (congrArg (fun w => fieldOf w 0 15) now).trans row, own, (congrArg (fun w => fieldOf w 24 7) now).trans place,
    (State.bankState_of_reg (same _)).trans state, frame, queue, fun a ha => (same a).trans (only.2 a ha)⟩
  rw [State.bit, now, on]
  rfl

end Sys2Proof.Machine
end

section
/-! PROOFS. The commands that start a service operation, one by one (R309, R312, R318, R319, R372, R373, R411, R413). -/

namespace Sys2Proof.Machine

variable {s : State} {path : Path} {v : Word} {op : Nat} {c : Instr}

theorem svcCommands_lt (h : (op, c) ∈ svcCommands path v) : op < 256 := by
  simp only [svcCommands, List.mem_cons, Prod.mk.injEq, List.not_mem_nil, or_false] at h
  omega

theorem exec_svcCommands (h : (op, c) ∈ svcCommands path v) (s : State) : exec c s = .next (s.svcCommand path v op) := by
  simp only [svcCommands, List.mem_cons, Prod.mk.injEq, List.not_mem_nil, or_false] at h
  rcases h with ⟨rfl, rfl⟩ | ⟨rfl, rfl⟩ | ⟨rfl, rfl⟩ | ⟨rfl, rfl⟩ | ⟨rfl, rfl⟩ | ⟨rfl, rfl⟩ | ⟨rfl, rfl⟩ | ⟨rfl, rfl⟩ | ⟨rfl, rfl⟩ |
    ⟨rfl, rfl⟩ <;> rfl

theorem exec_svc (opens : s.writable Reg.SVC_CMD = true) (h : (op, c) ∈ svcCommands path v) :
    exec c s = .next (if s.svcBusy then s.svcRefuse else if s.pageOn Page.svc = false then s
      else s.svcStart op (s.reg Reg.SVC_ARG).toNat false) := by
  have code : fieldOf (setFieldOf v 0 8 op) 0 8 = op :=
    (fieldOf_setFieldOf_same v op (by decide)).trans (Nat.mod_eq_of_lt (svcCommands_lt h))
  rw [exec_svcCommands h s, State.svcCommand, State.hostWrite_of_writable opens, actSvcCmd, code]

theorem State.svcRefuse_spec (s : State) : Counted s s.svcRefuse Reg.SVC_REFUSE_CNT ∧ s.svcRefuse.bit (Reg.PAGE_IRQ_STAT Page.svc) 1 = true ∧
    OnlyReports s s.svcRefuse (Reg.SVC_REFUSE_CNT :: raiseRegs Page.svc) := by
  have counted := counted_bump s Reg.SVC_REFUSE_CNT
  have bumped := onlyReports_bump s Reg.SVC_REFUSE_CNT
  unfold State.svcRefuse
  generalize s.bump Reg.SVC_REFUSE_CNT = t at counted bumped
  have raised := onlyReports_raise t Page.svc 1
  have irq := t.bit_raise_same Page.svc (b := 1) (by decide)
  generalize t.raise Page.svc 1 = u at raised irq
  exact ⟨counted.of_reg_eq_after (raised.reg (by decide)), irq, (bumped.trans raised).mono (by simp)⟩

/-- The Service Port is free and its page enabled. -/
def State.svcFree (s : State) : Prop := s.svcBusy = false ∧ s.pageOn Page.svc = true

theorem exec_svc_starts (opens : s.writable Reg.SVC_CMD = true) (h : (op, c) ∈ svcCommands path v) (free : s.svcFree) :
    exec c s = .next (s.svcStart op (s.reg Reg.SVC_ARG).toNat false) := by
  rw [exec_svc opens h, free.1, if_neg Bool.noConfusion, if_neg (by rw [free.2]; exact Bool.noConfusion)]

/-- An operation whose argument is not valid ends at once. -/
theorem svc_badArgument (opens : s.writable Reg.SVC_CMD = true) (h : (op, c) ∈ svcCommands path v) (free : s.svcFree)
    (wrong : s.svcValid op (s.reg Reg.SVC_ARG).toNat = false) : Completes c s (fun t => SvcEnded t false false true ∧ t.svcOp = op ∧
      t = { s with regs := t.regs, pmu := t.pmu, out := t.out, svc := t.svc, deferred := t.deferred } ∧ KeepsRegs s t svcRegs) := by
  refine ⟨_, exec_svc_starts opens h free, ?_⟩
  rw [State.svcStart_eq, wrong, if_neg Bool.noConfusion]
  obtain ⟨-, code, -, -, only, -⟩ := s.svcStarting_spec (svcCommands_lt h) false
  generalize s.svcStarting op false = a at code only
  obtain ⟨ended, kept, -, closes⟩ := a.svcFinish_spec false false true
  generalize a.svcFinish false false true = t at ended kept closes
  refine ⟨ended, kept.trans code, by rw [closes.rest, only.1], KeepsRegs.mono (KeepsRegs.trans only.2 closes.regs) (by decide)⟩

section
variable (opens : s.writable Reg.SVC_CMD = true) (h : (op, c) ∈ svcCommands path v) (free : s.svcFree)
  (valid : s.svcValid op (s.reg Reg.SVC_ARG).toNat = true)
include opens h free valid

theorem exec_svc_begins : exec c s = .next ((s.svcArmed op (s.reg Reg.SVC_ARG).toNat false).svcBegin op (s.reg Reg.SVC_ARG).toNat) := by
  rw [exec_svc_starts opens h free, State.svcStart_eq, if_pos valid]

omit opens free valid in
theorem svc_armed : Armed s (s.svcArmed op (s.reg Reg.SVC_ARG).toNat false) op (bitsOf (s.reg Reg.SVC_ARG).toNat 0 (if op = 5 then 20 else 32)) :=
  s.svcArmed_spec (svcCommands_lt h) _ false

/-- An operation but DRAM_PAGE_RETIRE begins: it runs, and `P` holds where its own effect makes it hold. -/
theorem svc_begins (whole : op ≠ 5) {P : State → Prop} (effect : ∀ a, Armed s a op (s.reg Reg.SVC_ARG).toNat →
    SvcRuns (a.svcBegin op (s.reg Reg.SVC_ARG).toNat) op (s.reg Reg.SVC_ARG).toNat ∧ P (a.svcBegin op (s.reg Reg.SVC_ARG).toNat)) :
    Completes c s (fun t => SvcRuns t op (s.reg Reg.SVC_ARG).toNat ∧ P t) := by
  refine ⟨_, exec_svc_begins opens h free valid, effect _ ?_⟩
  have armed := svc_armed (s := s) h
  have all : bitsOf (s.reg Reg.SVC_ARG).toNat 0 32 = (s.reg Reg.SVC_ARG).toNat := Nat.mod_eq_of_lt (BitVec.isLt _)
  rwa [if_neg whole, all] at armed

end

/-! ### What each operation does -/

section
variable {a : State} {arg held : Nat}

theorem State.svcBegin_core {f : Core → Core} {n : Nat} (armed : Armed s a op held) (begins : a.svcBegin op arg = a.updCore n f) :
    SvcRuns (a.svcBegin op arg) op held ∧ (a.svcBegin op arg).core n = f (s.core n) ∧ KeepsCores s (a.svcBegin op arg) [n] := by
  rw [begins]
  refine ⟨armed.runs, ?_, fun m other => ?_⟩
  · rw [State.core_updCore_same, armed.core]
  · rw [State.core_updCore_other a _ (fun e => other (List.mem_singleton.2 e)), armed.core]

theorem coreRetire_begins (armed : Armed s a 1 held) (still : (s.core (bitsOf arg 0 6)).retire = false) :
    SvcRuns (a.svcBegin 1 arg) 1 held ∧ (a.svcBegin 1 arg).core (bitsOf arg 0 6) = { s.core (bitsOf arg 0 6) with retire := true } ∧
      KeepsCores s (a.svcBegin 1 arg) [bitsOf arg 0 6] := by
  have begins : a.svcBegin 1 arg = a.updCore (bitsOf arg 0 6) (fun c => { c with retire := true }) := by
    change (if (a.core (bitsOf arg 0 6)).retire then _ else _) = _
    rw [armed.core, still]
    rfl
  exact State.svcBegin_core armed begins

theorem coreRestore_begins (armed : Armed s a 2 held) : SvcRuns (a.svcBegin 2 arg) 2 held ∧
    (a.svcBegin 2 arg).core (bitsOf arg 0 6) = { s.core (bitsOf arg 0 6) with svc := 3 } ∧ KeepsCores s (a.svcBegin 2 arg) [bitsOf arg 0 6] :=
  State.svcBegin_core (f := fun c => { c with svc := 3 }) armed rfl

theorem bankRebuild_starts (armed : Armed s a 3 held) (valid : s.svcValid 3 arg = true) :
    ∃ target, s.rebuildTarget arg = some target ∧ a.svcBegin 3 arg = a.startRebuild (bitsOf arg 0 7) target := by
  have fine : (decide (bitsOf arg 0 7 < 74) && decide (s.bankState (bitsOf arg 0 7) = 0) && (s.rebuildTarget arg).isSome) = true := valid
  rw [Bool.and_eq_true] at fine
  obtain ⟨target, found⟩ := Option.isSome_iff_exists.1 fine.2
  have same : a.rebuildTarget arg = some target := (State.rebuildTarget_congr (fun b => State.bankState_of_reg (armed.conBank b)) arg).trans found
  refine ⟨target, found, ?_⟩
  change (match a.rebuildTarget arg with | some t => a.startRebuild (bitsOf arg 0 7) t | none => a) = _
  rw [same]

theorem svcRegs_notMem_rebuild (target : Nat) : ∀ r ∈ startRegs, r ∉ [Reg.CON_BANK target, Reg.CON_STAT, Reg.CON_RB_STAT] := by
  intro r hr
  simp only [startRegs, List.mem_cons, List.not_mem_nil, or_false] at hr
  simp only [List.mem_cons, List.not_mem_nil, or_false, Reg.CON_BANK, Reg.CON_STAT, Reg.CON_RB_STAT]
  rcases hr with rfl | rfl | rfl <;> simp only [Reg.SVC_STAT, Reg.SVC_PROG, Reg.SVC_AUTO_CNT] <;> omega

theorem bankRebuild_begins (armed : Armed s a 3 held) (valid : s.svcValid 3 arg = true) : SvcRuns (a.svcBegin 3 arg) 3 held ∧
    (a.svcBegin 3 arg).bit Reg.CON_RB_STAT 31 = true ∧ (a.svcBegin 3 arg).fld Reg.CON_RB_STAT 0 15 = 0 ∧
    (a.svcBegin 3 arg).ctl.rbBank = bitsOf arg 0 7 ∧
    (∀ b, s.rebuildTarget arg = some b → (a.svcBegin 3 arg).fld Reg.CON_RB_STAT 24 7 = b ∧ (a.svcBegin 3 arg).bankState b = 2) := by
  obtain ⟨target, found, begins⟩ := bankRebuild_starts armed valid
  obtain ⟨on, row, bank, place, state, frame, -, regs⟩ := a.startRebuild_spec (bitsOf arg 0 7) (State.rebuildTarget_lt found)
  have apart := svcRegs_notMem_rebuild target
  rw [begins]
  generalize a.startRebuild (bitsOf arg 0 7) target = t at on row bank place state frame regs
  refine ⟨armed.runs.of_same (regs _ (apart _ (by decide))) (regs _ (apart _ (by decide))) (by rw [frame]), on, row, bank, fun b hb => ?_⟩
  rw [found] at hb
  rw [← Option.some.inj hb]
  exact ⟨place, state⟩

theorem bankReturn_begins (armed : Armed s a 4 held) : SvcRuns (a.svcBegin 4 arg) 4 held ∧
    (a.svcBegin 4 arg).bankState (bitsOf arg 0 7) = 4 := by
  have begins : a.svcBegin 4 arg = a.setBank (bitsOf arg 0 7) 4 0xF 0 := rfl
  have only := a.setBank_regs (bitsOf arg 0 7) 4 0xF 0
  have state := a.bankState_setBank (bitsOf arg 0 7) (st := 4) (by decide) 0xF 0
  rw [begins]
  generalize a.setBank (bitsOf arg 0 7) 4 0xF 0 = t at only state
  have apart : Reg.SVC_STAT ∉ [Reg.CON_BANK (bitsOf arg 0 7), Reg.CON_STAT] ∧ Reg.SVC_PROG ∉ [Reg.CON_BANK (bitsOf arg 0 7), Reg.CON_STAT] := by
    simp only [List.mem_cons, List.not_mem_nil, or_false, Reg.SVC_STAT, Reg.SVC_PROG, Reg.CON_BANK, Reg.CON_STAT]
    omega
  exact ⟨armed.runs.of_same (only.2 _ apart.1) (only.2 _ apart.2) (by rw [only.1]), state⟩

theorem dramScrubFull_begins (armed : Armed s a 6 held) : SvcRuns (a.svcBegin 6 arg) 6 held ∧
    (a.svcBegin 6 arg).reg Reg.DRC_SCRUB_STAT = 0x80000000 ∧ (a.svcBegin 6 arg).dram.patrol = s.fld Reg.DRC_SCRUB_STAT 0 26 := by
  have word := a.reg_setReg_same Reg.DRC_SCRUB_STAT (0x80000000 : Word)
  have only := onlyRegs_setReg a Reg.DRC_SCRUB_STAT (0x80000000 : Word)
  have begins : a.svcBegin 6 arg = { a.setReg Reg.DRC_SCRUB_STAT 0x80000000 with dram := { a.dram with patrol := a.fld Reg.DRC_SCRUB_STAT 0 26 } } := rfl
  rw [begins]
  generalize a.setReg Reg.DRC_SCRUB_STAT (0x80000000 : Word) = t at word only
  refine ⟨SvcRuns.of_same (s := t) (armed.runs.of_same (only.2 _ (by decide)) (only.2 _ (by decide)) (by rw [only.1])) rfl rfl rfl, word, ?_⟩
  exact State.fld_of_reg (armed.regs _ (by decide)) 0 26

theorem cfgCommit_begins (armed : Armed s a 7 held) : SvcRuns (a.svcBegin 7 arg) 7 held ∧ (a.svcBegin 7 arg).dram = s.dram ∧
    (a.svcBegin 7 arg).out.flash = s.out.flash ∧ KeepsCores s (a.svcBegin 7 arg) [] := by
  obtain ⟨-, dram, out, -⟩ := armed.kept
  exact ⟨armed.runs, dram, congrArg Outside.flash out, fun n _ => armed.core n⟩

theorem cfgReload_begins (armed : Armed s a 8 held) : SvcRuns (a.svcBegin 8 arg) 8 held ∧
    ∀ e ∈ (a.svcBegin 8 arg).spf.streams, e.2.active = false := by
  let t : State := { a with spf := { a.spf with
    streams := a.spf.streams.map (fun e => (e.1, { e.2 with active := false, gen := a.spf.starts + 1 })), starts := a.spf.starts + 1 } }
  have only : OnlyRegs t (a.svcBegin 8 arg) [Reg.SPF_STAT] := onlyRegs_setReg t _ _
  have stopped : ∀ e ∈ t.spf.streams, e.2.active = false := by
    intro e he
    obtain ⟨x, -, rfl⟩ := List.mem_map.1 he
    rfl
  have runs : SvcRuns t 8 held := armed.runs
  generalize a.svcBegin 8 arg = u at only
  clear_value t
  refine ⟨runs.of_same (only.2 _ (by decide)) (only.2 _ (by decide)) (by rw [only.1]), ?_⟩
  rw [only.1]
  exact stopped

theorem standbyEnter_waits (armed : Armed s a 9 held) (runs : s.running = true) : SvcRuns (a.svcBegin 9 arg) 9 held ∧
    (a.svcBegin 9 arg).powerState = s.powerState ∧ (a.svcBegin 9 arg).svc.committed = false := by
  have run : a.running = true := (State.bit_of_reg (armed.regs _ (by decide)) 0).trans runs
  have begins : a.svcBegin 9 arg = a := if_pos run
  rw [begins]
  exact ⟨armed.runs, State.fld_of_reg (armed.regs _ (by decide)) 8 3, by rw [armed.rest]; rfl⟩

theorem portFailoverTest_begins (armed : Armed s a 10 held) : SvcRuns (a.svcBegin 10 arg) 10 held ∧
    (a.svcBegin 10 arg).svc.suppressed = some (bitsOf arg 0 1) ∧ (a.svcBegin 10 arg).svc.base = s.lossCount := by
  refine ⟨SvcRuns.of_same armed.runs rfl rfl rfl, rfl, ?_⟩
  change a.lossCount = s.lossCount
  rw [State.lossCount, armed.regs Reg.STRM_RX_UNDERRUN_CNT (by decide), armed.regs Reg.ING_NET_GAP_CNT (by decide), State.lossCount]

theorem dramPageRetire_begins {u : Nat} (armed : Armed s a 5 held) (unit : s.freeUnit = some u)
    (fresh : ¬ (s.dram.retiring.any (fun e => decide (e.1 = bitsOf arg 0 20))) = true) : SvcRuns (a.svcBegin 5 arg) 5 held ∧
      (a.svcBegin 5 arg).dram.retiring = s.dram.retiring ++ [(bitsOf arg 0 20, u)] := by
  have dram := armed.kept.2.1
  have free : a.freeUnit = some u := by rw [← unit, State.freeUnit, dram, State.freeUnit]
  let t : State := { a with dram := { a.dram with retiring := a.dram.retiring ++ [(bitsOf arg 0 20, u)] } }
  have retires : a.retirePage (bitsOf arg 0 20) = t.showUnits := by
    rw [State.retirePage, if_neg (by rw [dram]; exact fresh), free]
  have only : OnlyRegs t t.showUnits [Reg.DRC_STAT] := onlyRegs_setReg t _ _
  have list : t.dram.retiring = s.dram.retiring ++ [(bitsOf arg 0 20, u)] := by
    rw [← dram]
  have runs : SvcRuns t 5 held := armed.runs
  have begins : a.svcBegin 5 arg = t.showUnits := by
    change (if (a.retirePage (bitsOf arg 0 20)).dram.retiring.any (fun e => decide (e.1 = bitsOf arg 0 20)) then _ else _) = _
    rw [retires, if_pos]
    rw [only.1, list, List.any_append, Bool.or_eq_true]
    exact Or.inr (by simp)
  rw [begins]
  generalize t.showUnits = w at only
  clear_value t
  exact ⟨runs.of_same (only.2 _ (by decide)) (only.2 _ (by decide)) (by rw [only.1]), by rw [only.1, list]⟩

end

end Sys2Proof.Machine
end

section
/-! PROOFS. The commit point of STANDBY_ENTER, aborts, and automatic rebuilds (R66, R373 to R375, R413). -/

namespace Sys2Proof.Machine

/-! ### STANDBY_ENTER with media time at rest -/

/-- The records of the Service Port and of the power sequencer, and all registers outside of `l`, are kept. -/
structure KeepsService (s t : State) (l : List Nat) : Prop where
  svc : t.svc = s.svc
  pwr : t.pwr = s.pwr
  regs : KeepsRegs s t l

namespace KeepsService

variable {s t u : State} {l m : List Nat}

theorem trans (h : KeepsService s t l) (g : KeepsService t u m) : KeepsService s u (l ++ m) :=
  ⟨g.svc.trans h.svc, g.pwr.trans h.pwr, h.regs.trans g.regs⟩

theorem of_regs (h : OnlyRegs s t l) : KeepsService s t l := ⟨by rw [h.1], by rw [h.1], h.2⟩

theorem of_reports (h : OnlyReports s t l) : KeepsService s t l := ⟨by rw [h.1], by rw [h.1], h.2⟩

theorem of_took (h : Took s t) : KeepsService s t intakeRegs := ⟨by rw [h.rest], by rw [h.rest], h.regs⟩

theorem of_dac {cs : List Nat} (h : DacFrame s t l cs) : KeepsService s t l := ⟨by rw [h.rest], by rw [h.rest], h.regs⟩

end KeepsService

theorem State.discardEntries_took (s : State) (p : TtEntry → Bool) : Took s (s.discardEntries p) := by
  unfold State.discardEntries
  generalize s.ing.tt.filter p = l
  induction l generalizing s with
  | nil => exact Took.refl s
  | cons e l ih =>
    have erased : Took s { s with ing := { s.ing with tt := s.ing.tt.erase e } } := Took.setIng s rfl
    exact (erased.trans (State.dropEvent_took _ _ _ _ _ _)).trans (ih _)

theorem State.stopIngress_service (s : State) : KeepsService s s.stopIngress (Reg.PAGE_STAT Page.ing :: intakeRegs) := by
  have drains : OnlyRegs s (s.draining Page.ing) [Reg.PAGE_STAT Page.ing] :=
    ((onlyRegs_setBit s _ 1 true).trans (onlyRegs_setBit _ _ 0 false)).mono (by simp)
  have stops : KeepsService (s.draining Page.ing) { s.draining Page.ing with ing := { s.ing with stopPeriod := some s.period } } [] :=
    ⟨rfl, rfl, fun _ _ => rfl⟩
  exact ((KeepsService.of_regs drains).trans stops).trans (KeepsService.of_took (State.discardEntries_took _ _))

theorem State.dacReleaseAll_service (s : State) : KeepsService s s.dacReleaseAll (Reg.DAC_STAT :: (List.range 8).map (fun c => Reg.DAC_CH_STAT c)) :=
  KeepsService.of_dac (DacFrame.foldl (cs := List.range 8) (List.range 8) (fun u c hc => (dacFrame_dacRelease u c).mono
    (by simp only [List.cons_subset, List.nil_subset, and_true]
        exact ⟨List.mem_cons_of_mem _ (List.mem_map_of_mem hc), List.mem_cons_self⟩)
    (List.cons_subset.2 ⟨hc, List.nil_subset _⟩)) s)

/-- The records at the commit point of STANDBY_ENTER. -/
def State.standbyNoted (s : State) : State :=
  { s with svc := { s.svc with committed := true }, pwr := { s.pwr with ingWas := s.pageOn Page.ing, wakePending := false } }

/-- Ingress stops, if it is enabled. -/
def State.ingressOff (s : State) : State := if s.pageOn Page.ing then (s.setBit (Reg.PAGE_CTRL Page.ing) 0 false).stopIngress else s

/-- RUN is cleared, if it is set. -/
def State.runOff (s : State) : State := if s.run then s.requestStop else s

theorem State.ingressOff_spec (s : State) : s.ingressOff.pageOn Page.ing = false ∧
    KeepsService s s.ingressOff (Reg.PAGE_CTRL Page.ing :: Reg.PAGE_STAT Page.ing :: intakeRegs) := by
  unfold State.ingressOff
  split
  · have off := State.bit_setBit_same s (Reg.PAGE_CTRL Page.ing) false (i := 0) (by decide)
    have set := onlyRegs_setBit s (Reg.PAGE_CTRL Page.ing) 0 false
    generalize s.setBit (Reg.PAGE_CTRL Page.ing) 0 false = a at off set
    have stops := a.stopIngress_service
    generalize a.stopIngress = t at stops
    exact ⟨(State.bit_of_reg (stops.regs _ (by decide)) 0).trans off, (KeepsService.of_regs set).trans stops⟩
  · next off => exact ⟨Bool.not_eq_true _ ▸ off, rfl, rfl, fun _ _ => rfl⟩

theorem State.runOff_spec {s : State} (still : s.running = false) : s.runOff.run = false ∧
    KeepsService s s.runOff (Reg.CLK_MEDIA_CTRL :: clockRegs) := by
  unfold State.runOff
  split
  · rw [State.requestStop_still still]
    have off := State.bit_setBit_same s Reg.CLK_MEDIA_CTRL false (i := 0) (by decide)
    have set := onlyRegs_setBit s Reg.CLK_MEDIA_CTRL 0 false
    generalize s.setBit Reg.CLK_MEDIA_CTRL 0 false = a at off set
    have reports := a.setPll_reports 0
    generalize a.setPll 0 = t at reports
    exact ⟨(State.bit_of_reg (reports.reg (by decide)) 0).trans off, (KeepsService.of_regs set).trans (KeepsService.of_reports reports)⟩
  · next off => exact ⟨Bool.not_eq_true _ ▸ off, rfl, rfl, fun _ _ => rfl⟩

theorem State.standbyCommit_eq (s : State) (waits : ¬ (s.svcBusy = false ∨ s.svcOp ≠ 9 ∨ s.svc.committed = true)) : s.standbyCommit =
    if (s.standbyNoted.ingressOff.runOff.setFld Reg.PWR_STAT 8 3 1).running then s.standbyNoted.ingressOff.runOff.setFld Reg.PWR_STAT 8 3 1
    else (s.standbyNoted.ingressOff.runOff.setFld Reg.PWR_STAT 8 3 1).dacReleaseAll := if_neg waits

theorem State.standbyCommit_spec {s : State} (waits : ¬ (s.svcBusy = false ∨ s.svcOp ≠ 9 ∨ s.svc.committed = true)) (still : s.running = false) :
    s.standbyCommit.powerState = 1 ∧ s.standbyCommit.run = false ∧ s.standbyCommit.pageOn Page.ing = false ∧
      s.standbyCommit.svc.committed = true ∧ s.standbyCommit.pwr = { s.pwr with ingWas := s.pageOn Page.ing, wakePending := false } := by
  have noted : s.standbyNoted.svc.committed = true ∧ s.standbyNoted.pwr = { s.pwr with ingWas := s.pageOn Page.ing, wakePending := false } ∧
      ∀ a, s.standbyNoted.reg a = s.reg a := ⟨rfl, rfl, fun _ => rfl⟩
  rw [s.standbyCommit_eq waits]
  generalize s.standbyNoted = a at noted
  obtain ⟨committed, pwr, regs⟩ := noted
  obtain ⟨ingOff, kept1⟩ := a.ingressOff_spec
  generalize a.ingressOff = b at ingOff kept1
  have rests : b.running = false := (State.bit_of_reg ((kept1.regs _ (by decide)).trans (regs _)) 0).trans still
  obtain ⟨off, kept2⟩ := State.runOff_spec rests
  generalize b.runOff = d at off kept2
  have set := onlyRegs_setFld d Reg.PWR_STAT 8 3 1
  have shown := State.fld_setFld_same d Reg.PWR_STAT 1 (show 8 + 3 ≤ 32 by decide)
  generalize d.setFld Reg.PWR_STAT 8 3 1 = e at set shown
  have last : KeepsService e (if e.running then e else e.dacReleaseAll) (Reg.DAC_STAT :: (List.range 8).map (fun c => Reg.DAC_CH_STAT c)) := by
    split
    · exact ⟨rfl, rfl, fun _ _ => rfl⟩
    · exact e.dacReleaseAll_service
  generalize (if e.running then e else e.dacReleaseAll) = t at last
  have all := ((kept1.trans kept2).trans (KeepsService.of_regs set)).trans last
  refine ⟨(State.fld_of_reg (last.regs _ (by decide)) 8 3).trans shown, ?_, ?_, by rw [all.svc, committed], all.pwr.trans pwr⟩
  · exact (State.bit_of_reg ((last.regs _ (by decide)).trans (set.2 _ (by decide))) 0).trans off
  · exact (State.bit_of_reg ((last.regs _ (by decide)).trans ((set.2 _ (by decide)).trans (kept2.regs _ (by decide)))) 0).trans ingOff

theorem Armed.committed {s a : State} {op arg : Nat} (h : Armed s a op arg) : a.svc.committed = false := by rw [h.rest]; rfl

theorem standbyEnter_begins {s a : State} {arg held : Nat} (armed : Armed s a 9 held) (still : s.running = false) :
    let t := a.svcBegin 9 arg
    t.powerState = 1 ∧ t.run = false ∧ t.pageOn Page.ing = false ∧ t.svc.committed = true ∧
      t.pwr = { s.pwr with ingWas := s.pageOn Page.ing, wakePending := false } := by
  have rests : a.running = false := (State.bit_of_reg (armed.regs _ (by decide)) 0).trans still
  have begins : a.svcBegin 9 arg = a.standbyCommit := by
    change (if a.running then a else a.standbyCommit) = _
    rw [rests, if_neg Bool.noConfusion]
  obtain ⟨busy, code, -, -⟩ := armed.runs
  obtain ⟨state, run, ing, committed, pwr⟩ := State.standbyCommit_spec (s := a) (by rw [busy, code, armed.committed]; decide) rests
  have same : a.pageOn Page.ing = s.pageOn Page.ing := State.bit_of_reg (armed.regs _ (by decide)) 0
  rw [armed.kept.2.2.2.2.1, same] at pwr
  rw [begins]
  exact ⟨state, run, ing, committed, pwr⟩

theorem standbyEnter_commits {s : State} {path : Path} {v : Word} (opens : s.writable Reg.SVC_CMD = true) (free : s.svcFree)
    (zero : (s.reg Reg.SVC_ARG).toNat = 0) (still : s.running = false) : Completes (.standbyEnter path v) s (fun t =>
      t.powerState = 1 ∧ t.run = false ∧ t.pageOn Page.ing = false ∧ t.svc.committed = true ∧
      t.pwr = { s.pwr with ingWas := s.pageOn Page.ing, wakePending := false }) := by
  have mem : (9, Instr.standbyEnter path v) ∈ svcCommands path v := by simp [svcCommands]
  have valid : s.svcValid 9 (s.reg Reg.SVC_ARG).toNat = true := decide_eq_true zero
  exact ⟨_, exec_svc_begins opens mem free valid, standbyEnter_begins (svc_armed mem) still⟩

end Sys2Proof.Machine
end

section
/-! PROOFS. Aborts of a service operation, and rebuilds that start by themselves (R373 to R375). -/

namespace Sys2Proof.Machine

/-! ### SVC_ABORT -/

section
variable {s : State} {path : Path} {v : Word} (opens : s.writable Reg.SVC_ABORT = true)
include opens

theorem exec_svcAbort : exec (.svcAbort path v) s = .next (if s.svcBusy = false then s else if fieldOf v 0 8 = s.svcOp then s.svcAbort else s.svcRefuse) :=
  congrArg Host.Outcome.next (State.hostWrite_of_writable opens)

theorem svcAbort_idle (idle : s.svcBusy = false) : Completes (.svcAbort path v) s (fun t => t = s) := by
  refine ⟨_, exec_svcAbort opens, ?_⟩
  rw [if_pos idle]

theorem svcAbort_refused (busy : s.svcBusy = true) (other : fieldOf v 0 8 ≠ s.svcOp) : Completes (.svcAbort path v) s (fun t =>
    Counted s t Reg.SVC_REFUSE_CNT ∧ t.bit (Reg.PAGE_IRQ_STAT Page.svc) 1 = true ∧
      OnlyReports s t (Reg.SVC_REFUSE_CNT :: raiseRegs Page.svc)) := by
  refine ⟨_, exec_svcAbort opens, ?_⟩
  rw [busy, if_neg Bool.noConfusion, if_neg other]
  exact s.svcRefuse_spec

theorem svcAbort_late (busy : s.svcBusy = true) (own : fieldOf v 0 8 = s.svcOp) (late : s.svc.committed = true ∨ s.svc.finished = true) :
    Completes (.svcAbort path v) s (fun t => t.bit Reg.SVC_STAT 4 = true ∧ t.svcBusy = true ∧ OnlyRegs s t [Reg.SVC_STAT]) := by
  refine ⟨_, exec_svcAbort opens, ?_⟩
  have loses : s.svcAbort = s.setBit Reg.SVC_STAT 4 true := if_pos late
  rw [busy, if_neg Bool.noConfusion, if_pos own, loses]
  refine ⟨s.bit_setBit_same _ true (by decide), ?_, onlyRegs_setBit s _ _ _⟩
  rw [State.svcBusy, State.bit_setBit s _ _ (by decide), if_neg (by decide)]
  exact busy

/-- What an abort undoes, as it stands after the operation has ended. -/
theorem svcAbort_ends (busy : s.svcBusy = true) (own : fieldOf v 0 8 = s.svcOp) (early : s.svc.committed = false) (works : s.svc.finished = false)
    {P : State → Prop} (undone : ∀ t, Closes s.svcUndo t → P t) : Completes (.svcAbort path v) s (fun t => SvcEnded t true false false ∧ P t) := by
  refine ⟨_, exec_svcAbort opens, ?_⟩
  have ends : s.svcAbort = s.svcUndo.svcFinish true false false := if_neg (by rw [early, works]; decide)
  rw [busy, if_neg Bool.noConfusion, if_pos own, ends]
  obtain ⟨ended, -, -, closes⟩ := s.svcUndo.svcFinish_spec true false false
  exact ⟨ended, undone _ closes⟩

end

/-- The parts of an operation that an abort takes back. -/
structure Undone (s t : State) : Prop where
  retire : s.svcOp = 1 → s.svc.fail = false → (t.core (bitsOf s.svc.arg 0 6)).retire = false
  restore : s.svcOp = 2 → (t.core (bitsOf s.svc.arg 0 6)).svc = 0
  rebuild : s.svcOp = 3 → t.bit Reg.CON_RB_STAT 31 = false
  bank : s.svcOp = 4 → bitsOf s.svc.arg 0 7 < 74 → t.bankState (bitsOf s.svc.arg 0 7) = 3
  scrub : s.svcOp = 6 → t.reg Reg.DRC_SCRUB_STAT = BitVec.ofNat 32 s.dram.patrol

theorem conBank_notMem_finish {b : Nat} (h : b < 74) : Reg.CON_BANK b ∉ finishRegs := by
  simp only [finishRegs, raiseRegs, List.cons_append, List.nil_append, List.mem_cons, List.not_mem_nil, or_false, Reg.CON_BANK, Reg.SVC_STAT,
    Reg.SVC_PROG, Reg.PAGE_STAT, Reg.PAGE_CTRL, Reg.PAGE_IRQ_STAT, Reg.MSIX_PBA, Page.svc]
  omega

/-- The registers of a rebuild that ends without its commit. -/
def State.abortShown (s : State) : State :=
  ((s.setBank (s.fld Reg.CON_RB_STAT 24 7) 1 0xF 0).setFld Reg.CON_STAT 8 4 0xF).setBit Reg.CON_RB_STAT 31 false

/-- Nothing of a rebuild is held. -/
def State.rebuildForgotten (s : State) : State := { s with ctl := { s.ctl with rbPoison := [], rbParity := [] } }

theorem State.abortRebuild_eq (s : State) : s.abortRebuild = s.abortShown.rebuildForgotten := rfl

theorem State.reg_rebuildForgotten (s : State) (a : Nat) : s.rebuildForgotten.reg a = s.reg a := rfl

theorem State.abortRebuild_bit (s : State) : s.abortRebuild.bit Reg.CON_RB_STAT 31 = false := by
  rw [State.abortRebuild_eq, State.bit_of_reg (State.reg_rebuildForgotten _ _)]
  exact State.bit_setBit_same _ Reg.CON_RB_STAT false (by decide)

theorem State.svcUndo_undone (s t : State) (closes : Closes s.svcUndo t) : Undone s t := by
  constructor
  · intro op fail
    have undo : s.svcUndo = s.updCore (bitsOf s.svc.arg 0 6) (fun c => { c with retire := false }) := by
      rw [State.svcUndo, op, fail]
      rfl
    rw [closes.core, undo, State.core_updCore_same]
  · intro op
    have undo : s.svcUndo = s.updCore (bitsOf s.svc.arg 0 6) (fun c => { c with svc := 0 }) := by
      rw [State.svcUndo, op]
      rfl
    rw [closes.core, undo, State.core_updCore_same]
  · intro op
    have undo : s.svcUndo = s.abortRebuild := by
      rw [State.svcUndo, op]
      rfl
    rw [State.bit_of_reg (closes.regs _ (by decide)), undo, State.abortRebuild_bit]
  · intro op small
    have undo : s.svcUndo = s.setBank (bitsOf s.svc.arg 0 7) 3 0xF 0 := by
      rw [State.svcUndo, op]
      rfl
    rw [State.bankState_of_reg (closes.regs _ (conBank_notMem_finish small)), undo]
    exact s.bankState_setBank _ (by decide) 0xF 0
  · intro op
    have undo : s.svcUndo = s.setReg Reg.DRC_SCRUB_STAT (BitVec.ofNat 32 s.dram.patrol) := by
      rw [State.svcUndo, op]
      rfl
    rw [closes.regs _ (by decide), undo, State.reg_setReg_same]

/-! ### Automatic rebuilds (R375) -/

/-- The queue of rebuilds without its first bank. -/
def State.rebuildTaken (s : State) (rest : List Nat) : State := { s with ctl := { s.ctl with rebuildQueue := rest } }

theorem exec_autoRebuildStart {s : State} {b : Nat} {rest : List Nat} (queue : s.ctl.rebuildQueue = b :: rest) (free : s.svcFree) :
    exec .autoRebuildStart s = .next ((s.rebuildTaken rest).svcStart 3 (b + 2 ^ 8 * 0x7F) true) := by
  change execAutoRebuildStart s = _
  unfold execAutoRebuildStart
  rw [queue]
  dsimp only
  exact if_neg (by rw [free.1, free.2]; decide)

theorem autoRebuildStart_idle {s : State} (idle : s.ctl.rebuildQueue = [] ∨ s.svcBusy = true ∨ s.pageOn Page.svc = false) :
    Completes .autoRebuildStart s (fun t => t = s) := by
  refine ⟨s, ?_, rfl⟩
  change execAutoRebuildStart s = _
  unfold execAutoRebuildStart
  cases queue : s.ctl.rebuildQueue with
  | nil => rfl
  | cons b rest => exact if_pos (idle.resolve_left (by rw [queue]; exact List.cons_ne_nil b rest))

theorem State.rebuildTarget_none {s : State} (none_ : s.lowestSpare = none) (arg : Nat) : s.rebuildTarget arg = none := by
  unfold State.rebuildTarget
  dsimp only
  split
  · exact none_
  · refine if_neg fun spare => ?_
    have := List.find?_eq_none.1 none_ _ (List.mem_range.2 spare.1)
    exact this (decide_eq_true spare.2)

/-- The argument of an automatic rebuild names its bank and asks for the lowest spare. -/
theorem State.rebuildTarget_auto (s : State) {b : Nat} (h : b < 74) : bitsOf (b + 2 ^ 8 * 0x7F) 0 7 = b ∧
    s.rebuildTarget (b + 2 ^ 8 * 0x7F) = s.lowestSpare := by
  have bank : bitsOf (b + 2 ^ 8 * 0x7F) 0 7 = b := by
    rw [bitsOf, Nat.shiftRight_zero]
    omega
  have target : bitsOf (b + 2 ^ 8 * 0x7F) 8 7 = 0x7F := by
    rw [bitsOf, Nat.shiftRight_eq_div_pow]
    omega
  exact ⟨bank, if_pos target⟩

/-- A rebuild of `b` has started by itself, or has ended at once without a spare. -/
structure AutoStarted (s t : State) (b : Nat) (rest : List Nat) : Prop where
  queue : t.ctl.rebuildQueue = rest
  auto : t.bit Reg.SVC_STAT 5 = true
  counted : Counted s t Reg.SVC_AUTO_CNT
  op : t.svcOp = 3
  runs : b < 74 → s.bankState b = 0 → ∀ k, s.lowestSpare = some k → t.svcBusy = true ∧ t.bit Reg.CON_RB_STAT 31 = true ∧ t.ctl.rbBank = b ∧
    t.fld Reg.CON_RB_STAT 24 7 = k
  ends : s.lowestSpare = none → SvcEnded t false false true

theorem State.reg_svcArmed (s : State) (op arg : Nat) (auto : Bool) (r : Nat) : (s.svcArmed op arg auto).reg r = (s.svcStarting op auto).reg r := rfl

theorem autoRebuild_runs {s : State} {b : Nat} (valid : s.svcValid 3 (b + 2 ^ 8 * 0x7F) = true) :
    AutoStarted s (s.svcStart 3 (b + 2 ^ 8 * 0x7F) true) b s.ctl.rebuildQueue := by
  rw [State.svcStart_eq, if_pos valid]
  obtain ⟨busy, code, auto, -, -, counted⟩ := s.svcStarting_spec (op := 3) (by decide) true
  have armed := s.svcArmed_spec (op := 3) (by decide) (b + 2 ^ 8 * 0x7F) true
  have same : ∀ r, (s.svcArmed 3 (b + 2 ^ 8 * 0x7F) true).reg r = (s.svcStarting 3 true).reg r := s.reg_svcArmed 3 _ true
  obtain ⟨target, found, begins⟩ := bankRebuild_starts armed valid
  obtain ⟨-, on, -, bank, place⟩ := bankRebuild_begins armed valid
  rw [begins] at on bank place ⊢
  generalize s.svcArmed 3 (b + 2 ^ 8 * 0x7F) true = a at *
  generalize s.svcStarting 3 true = d at *
  obtain ⟨-, -, -, -, -, -, queue, regs⟩ := a.startRebuild_spec (bitsOf (b + 2 ^ 8 * 0x7F) 0 7) (State.rebuildTarget_lt found)
  generalize a.startRebuild (bitsOf (b + 2 ^ 8 * 0x7F) 0 7) target = t at *
  have shown : ∀ r ∈ startRegs, t.reg r = d.reg r := fun r hr => (regs r (svcRegs_notMem_rebuild target r hr)).trans (same r)
  have stat := shown Reg.SVC_STAT (by decide)
  refine ⟨by rw [queue, armed.kept.2.2.2.2.2], (State.bit_of_reg stat 5).trans auto, (counted rfl).of_reg_eq_after (shown _ (by decide)),
    (State.fld_of_reg stat 16 8).trans code, fun small _ k spare => ?_, fun none_ => ?_⟩
  · obtain ⟨own, lowest⟩ := s.rebuildTarget_auto small
    exact ⟨(State.bit_of_reg stat 31).trans busy, on, bank.trans own, (place k (lowest.trans spare)).1⟩
  · rw [State.rebuildTarget_none none_] at found
    cases found

theorem OnlyRegs.ctl {s t : State} {l : List Nat} (h : OnlyRegs s t l) : t.ctl = s.ctl := by rw [h.1]

theorem autoRebuild_ends {s : State} {b : Nat} (wrong : s.svcValid 3 (b + 2 ^ 8 * 0x7F) = false) :
    AutoStarted s (s.svcStart 3 (b + 2 ^ 8 * 0x7F) true) b s.ctl.rebuildQueue := by
  rw [State.svcStart_eq, wrong, if_neg Bool.noConfusion]
  obtain ⟨-, code, auto, -, only, counted⟩ := s.svcStarting_spec (op := 3) (by decide) true
  generalize s.svcStarting 3 true = d at *
  obtain ⟨ended, kept, five, closes⟩ := d.svcFinish_spec false false true
  generalize d.svcFinish false false true = t at *
  have queue : t.ctl.rebuildQueue = s.ctl.rebuildQueue := by rw [closes.kept.2.2.2.2.1, only.ctl]
  refine ⟨queue, five.trans auto, (counted rfl).of_reg_eq_after (closes.regs Reg.SVC_AUTO_CNT (by decide)), kept.trans code, fun small state k spare => ?_,
    fun _ => ended⟩
  obtain ⟨own, lowest⟩ := s.rebuildTarget_auto small
  have valid : s.svcValid 3 (b + 2 ^ 8 * 0x7F) = true := by
    change (decide (bitsOf (b + 2 ^ 8 * 0x7F) 0 7 < 74) && decide (s.bankState (bitsOf (b + 2 ^ 8 * 0x7F) 0 7) = 0) &&
      (s.rebuildTarget (b + 2 ^ 8 * 0x7F)).isSome) = true
    rw [own, lowest, spare, decide_eq_true small, decide_eq_true state]
    rfl
  rw [valid] at wrong
  cases wrong

theorem autoRebuildStart_starts {s : State} {b : Nat} {rest : List Nat} (queue : s.ctl.rebuildQueue = b :: rest) (free : s.svcFree) :
    Completes .autoRebuildStart s (fun t => AutoStarted s t b rest) := by
  refine ⟨_, exec_autoRebuildStart queue free, ?_⟩
  have started : AutoStarted (s.rebuildTaken rest) ((s.rebuildTaken rest).svcStart 3 (b + 2 ^ 8 * 0x7F) true) b rest := by
    cases valid : (s.rebuildTaken rest).svcValid 3 (b + 2 ^ 8 * 0x7F)
    · exact autoRebuild_ends valid
    · exact autoRebuild_runs valid
  exact ⟨started.queue, started.auto, started.counted, started.op, started.runs, started.ends⟩

end Sys2Proof.Machine
end

section
/-! PROOFS. The end of each service operation (R309, R312, R318, R319, R365, R372, R373, R411). -/

namespace Sys2Proof.Machine

variable {s : State} {fail : Bool} {log : Fin 7} {image : List Byte}

/-! ### Which end -/

theorem complete_idle (idle : s.svcBusy = false) : Completes (.serviceOperationComplete fail log image) s (fun t => t = s) := ⟨s, if_pos idle, rfl⟩

section
variable (busy : s.svcBusy = true)
include busy

theorem exec_complete : exec (.serviceOperationComplete fail log image) s =
    let op := s.svcOp
    let n := bitsOf s.svc.arg 0 6
    if op = 1 then
      if (s.core n).svc = 2 then .next s
      else .next ((s.setReg Reg.SVC_RESULT (if s.svc.committed then 0 else 1)).svcFinish false false false)
    else if op = 2 then
      if fail then .next ((s.updCore n (fun c => { c with svc := 0 })).svcFinish false true false)
      else .next ((s.restoreCore n).svcFinish false false false)
    else if 3 ≤ op ∧ op ≤ 6 then if s.svc.finished then .next (s.svcFinish false s.svc.fail false) else .next s
    else if op = 7 then .next ((s.commitImage fail log).1.svcFinish false (s.commitImage fail log).2 false)
    else if op = 8 then .next (s.reloadImage fail log image)
    else if op = 0xA then .next ((s.setReg Reg.SVC_RESULT (BitVec.ofNat 32 (s.lossCount - s.svc.base))).svcFinish false false false)
    else .next s := if_neg (by rw [busy]; exact Bool.noConfusion)

theorem complete_none (op : s.svcOp = 0 ∨ s.svcOp = 9 ∨ 10 < s.svcOp) : Completes (.serviceOperationComplete fail log image) s (fun t => t = s) := by
  refine ⟨s, ?_, rfl⟩
  rw [exec_complete busy]
  dsimp only
  rw [if_neg (by omega), if_neg (by omega), if_neg (by omega), if_neg (by omega), if_neg (by omega), if_neg (by omega)]

/-! ### CORE_RETIRE and PORT_FAILOVER_TEST -/

omit busy in
/-- An operation ends with a result. -/
theorem State.resulted (s : State) (w : Word) : let t := (s.setReg Reg.SVC_RESULT w).svcFinish false false false
    SvcEnded t false false false ∧ t.reg Reg.SVC_RESULT = w ∧ KeepsRegs s t (Reg.SVC_RESULT :: svcRegs) := by
  have set := onlyRegs_setReg s Reg.SVC_RESULT w
  have word := s.reg_setReg_same Reg.SVC_RESULT w
  generalize s.setReg Reg.SVC_RESULT w = a at set word
  obtain ⟨ended, -, -, closes⟩ := a.svcFinish_spec false false false
  exact ⟨ended, (closes.regs _ (by decide)).trans word, KeepsRegs.mono (KeepsRegs.trans set.2 closes.regs) (by decide)⟩

theorem coreRetire_waits (op : s.svcOp = 1) (serves : (s.core (bitsOf s.svc.arg 0 6)).svc = 2) :
    Completes (.serviceOperationComplete fail log image) s (fun t => t = s) := by
  refine ⟨s, ?_, rfl⟩
  rw [exec_complete busy]
  dsimp only
  rw [if_pos op, if_pos serves]

theorem coreRetire_ends (op : s.svcOp = 1) (left : (s.core (bitsOf s.svc.arg 0 6)).svc ≠ 2) :
    Completes (.serviceOperationComplete fail log image) s (fun t => SvcEnded t false false false ∧
      t.reg Reg.SVC_RESULT = (if s.svc.committed then 0 else 1) ∧ KeepsRegs s t (Reg.SVC_RESULT :: svcRegs)) := by
  refine ⟨_, ?_, s.resulted (if s.svc.committed then 0 else 1)⟩
  rw [exec_complete busy]
  dsimp only
  rw [if_pos op, if_neg left]

theorem portFailoverTest_ends (op : s.svcOp = 10) : Completes (.serviceOperationComplete fail log image) s (fun t => SvcEnded t false false false ∧
    t.reg Reg.SVC_RESULT = BitVec.ofNat 32 (s.lossCount - s.svc.base) ∧ KeepsRegs s t (Reg.SVC_RESULT :: svcRegs)) := by
  refine ⟨_, ?_, s.resulted (BitVec.ofNat 32 (s.lossCount - s.svc.base))⟩
  rw [exec_complete busy]
  dsimp only
  rw [if_neg (by omega), if_neg (by omega), if_neg (by omega), if_neg (by omega), if_neg (by omega), if_pos op]

/-! ### Operations whose end their own work announces -/

theorem work_waits (low : 3 ≤ s.svcOp) (high : s.svcOp ≤ 6) (working : s.svc.finished = false) :
    Completes (.serviceOperationComplete fail log image) s (fun t => t = s) := by
  refine ⟨s, ?_, rfl⟩
  rw [exec_complete busy]
  dsimp only
  rw [if_neg (by omega), if_neg (by omega), if_pos ⟨low, high⟩, working, if_neg Bool.noConfusion]

theorem work_ends (low : 3 ≤ s.svcOp) (high : s.svcOp ≤ 6) (finished : s.svc.finished = true) :
    Completes (.serviceOperationComplete fail log image) s (fun t => SvcEnded t false s.svc.fail false ∧ KeepsRegs s t svcRegs) := by
  refine ⟨s.svcFinish false s.svc.fail false, ?_, ?_⟩
  · rw [exec_complete busy]
    dsimp only
    rw [if_neg (by omega), if_neg (by omega), if_pos ⟨low, high⟩, if_pos finished]
  · obtain ⟨ended, -, -, closes⟩ := s.svcFinish_spec false s.svc.fail false
    exact ⟨ended, closes.regs.mono (by decide)⟩

/-! ### CORE_RESTORE -/

theorem coreRestore_fails (op : s.svcOp = 2) (failed : fail = true) : Completes (.serviceOperationComplete fail log image) s (fun t =>
    SvcEnded t false true false ∧ t.core (bitsOf s.svc.arg 0 6) = { s.core (bitsOf s.svc.arg 0 6) with svc := 0 } ∧
      KeepsCores s t [bitsOf s.svc.arg 0 6]) := by
  refine ⟨(s.updCore (bitsOf s.svc.arg 0 6) (fun c => { c with svc := 0 })).svcFinish false true false, ?_, ?_⟩
  · rw [exec_complete busy]
    dsimp only
    rw [if_neg (by omega), if_pos op, if_pos failed]
  · obtain ⟨ended, -, -, closes⟩ := (s.updCore (bitsOf s.svc.arg 0 6) (fun c => { c with svc := 0 })).svcFinish_spec false true false
    refine ⟨ended, ?_, fun m other => ?_⟩
    · rw [closes.core, State.core_updCore_same]
    · rw [closes.core, State.core_updCore_other s _ (fun e => other (List.mem_singleton.2 e))]

end

/-- A core that passed its test, before it is loaded. -/
def State.coreTested (s : State) (n : Nat) : State := (s.coreReset n).updCore n (fun c => { c with svc := 1 })

theorem State.coreTested_spec (s : State) (n : Nat) : ((s.coreTested n).core n).svc = 1 ∧ KeepsCores s (s.coreTested n) [n] := by
  unfold State.coreTested
  refine ⟨by rw [State.core_updCore_same], fun m other => ?_⟩
  rw [List.mem_singleton] at other
  rw [State.core_updCore_other _ _ other, State.coreReset, State.core_updCore_other _ _ other]
  rfl

theorem State.inService_coreTested (s : State) (n : Nat) : (s.coreTested n).inService = s.inService.filter (fun k => decide (k ≠ n)) := by
  obtain ⟨own, other⟩ := s.coreTested_spec n
  generalize s.coreTested n = t at own other
  rw [State.inService, State.inService, List.filter_filter]
  refine List.filter_congr fun k _ => ?_
  by_cases e : k = n
  · rw [e, own]
    simp
  · rw [other k (fun mem => e (List.mem_singleton.1 mem))]
    simp [e]

theorem State.restoreCore_eq (s : State) (n : Nat) : s.restoreCore n =
    if (s.coreTested n).inService.length < 32 then
      (((s.coreTested n).setPset n ((s.coreTested n).psetOf (((s.coreTested n).sch.vacant[0]?).getD n))).updCore n
        (fun c => { c with copyFrom := some (((s.coreTested n).sch.vacant[0]?).getD n) })).showSpares s.spares.length
    else (s.coreTested n).showSpares s.spares.length := rfl

theorem State.restoreCore_spec (s : State) (n : Nat) : ((s.restoreCore n).core n).svc = 1 ∧ KeepsCores s (s.restoreCore n) [n] ∧
    ((s.inService.filter (fun k => decide (k ≠ n))).length < 32 → ((s.restoreCore n).core n).copyFrom.isSome = true) := by
  obtain ⟨own, other⟩ := s.coreTested_spec n
  rw [State.restoreCore_eq, ← State.inService_coreTested]
  generalize s.coreTested n = t at own other
  generalize (t.sch.vacant[0]?).getD n = m
  have cores : ∀ k, (t.setPset n (t.psetOf m)).core k = t.core k := fun k => by
    rw [State.core, State.setPset, State.setFld_cores, State.core]
  generalize t.setPset n (t.psetOf m) = a at cores
  split
  · refine ⟨?_, fun k hk => ?_, fun _ => ?_⟩
    · rw [(onlyReports_showSpares _ _).core, State.core_updCore_same, cores, own]
    · rw [(onlyReports_showSpares _ _).core, State.core_updCore_other _ _ (fun e => hk (List.mem_singleton.2 e)), cores, other k hk]
    · rw [(onlyReports_showSpares _ _).core, State.core_updCore_same]
      rfl
  · next full =>
    refine ⟨?_, fun k hk => ?_, fun few => absurd few full⟩
    · rw [(onlyReports_showSpares _ _).core, own]
    · rw [(onlyReports_showSpares _ _).core, other k hk]

theorem coreRestore_passes (busy : s.svcBusy = true) (op : s.svcOp = 2) (passed : fail = false) :
    Completes (.serviceOperationComplete fail log image) s (fun t =>
      SvcEnded t false false false ∧ (t.core (bitsOf s.svc.arg 0 6)).svc = 1 ∧ KeepsCores s t [bitsOf s.svc.arg 0 6] ∧
      ((s.inService.filter (fun k => decide (k ≠ bitsOf s.svc.arg 0 6))).length < 32 → (t.core (bitsOf s.svc.arg 0 6)).copyFrom.isSome = true)) := by
  generalize named : bitsOf s.svc.arg 0 6 = n
  refine ⟨(s.restoreCore n).svcFinish false false false, ?_, ?_⟩
  · rw [exec_complete busy]
    dsimp only
    rw [if_neg (by omega), if_pos op, passed, if_neg Bool.noConfusion, named]
  · obtain ⟨own, others, loads⟩ := s.restoreCore_spec n
    generalize s.restoreCore n = a at own others loads
    obtain ⟨ended, -, -, closes⟩ := a.svcFinish_spec false false false
    refine ⟨ended, by rw [closes.core, own], fun k hk => (closes.core k).trans (others k hk), fun few => ?_⟩
    rw [closes.core]
    exact loads few

/-! ### CFG_COMMIT (R411) -/

theorem Sparse.get_foldl_put_zipIdx {α : Type} [DecidableEq α] (dflt : Nat → α) (base i : Nat) : ∀ (l : List α) (o : Nat) (m : Map α),
    Sparse.get dflt ((l.zipIdx o).foldl (fun m e => Sparse.put dflt m (base + e.2) e.1) m) (base + i) =
      if i < o then Sparse.get dflt m (base + i) else (l[i - o]?).getD (Sparse.get dflt m (base + i))
  | [], o, m => by simp
  | x :: l, o, m => by
    rw [List.zipIdx_cons, List.foldl_cons, Sparse.get_foldl_put_zipIdx dflt base i l, Sparse.get_put]
    rcases Nat.lt_trichotomy i o with below | here | above
    · rw [if_pos (by omega), if_neg (by omega), if_pos below]
    · subst here
      rw [if_pos (by omega), if_pos rfl, if_neg (by omega), Nat.sub_self, List.getElem?_cons_zero, Option.getD_some]
    · rw [if_neg (by omega), if_neg (by omega), if_neg (by omega), show i - o = (i - (o + 1)) + 1 by omega, List.getElem?_cons_succ]

/-- Where the image of a commit or a reload stands in the Concourse. -/
def State.imageAt (s : State) : Nat := bitsOf s.svc.arg 10 15 * 1024

/-- Whether a commit fails. -/
def State.commitFails (s : State) (fail : Bool) (log : Nat) : Bool :=
  fail || decide (slotBytes log < imageLength (s.conBytes s.imageAt 64)) || decide (2 ^ 25 < s.imageAt + imageLength (s.conBytes s.imageAt 64))

theorem State.commitFails_eq (s : State) (fail : Bool) (log : Nat) [Decidable (fail = true ∨ slotBytes log < imageLength (s.conBytes s.imageAt 64) ∨
    2 ^ 25 < s.imageAt + imageLength (s.conBytes s.imageAt 64))] : s.commitFails fail log =
      decide (fail = true ∨ slotBytes log < imageLength (s.conBytes s.imageAt 64) ∨ 2 ^ 25 < s.imageAt + imageLength (s.conBytes s.imageAt 64)) := by
  rw [Bool.eq_iff_iff, decide_eq_true_iff, State.commitFails, Bool.or_eq_true, Bool.or_eq_true, decide_eq_true_iff, decide_eq_true_iff, or_assoc]

/-- The image that a commit writes: the header with its VALID marker, and the rest as it stands. -/
def State.committed (s : State) : List Byte :=
  (s.conBytes s.imageAt 60 ++ [0, 0, 0, 0] ++ s.conBytes (s.imageAt + 64) (imageLength (s.conBytes s.imageAt 64) - 64)).take
    (imageLength (s.conBytes s.imageAt 64))

/-- The flash without the image in slot `which`. -/
def State.erased (s : State) (which : Nat) : Map Byte := s.out.flash.filter (fun e => decide (e.1 / 2 ^ 32 ≠ which))

/-- The flash after a commit. -/
def State.flashed (s : State) (which : Nat) : Map Byte :=
  s.committed.zipIdx.foldl (fun m e => Sparse.put (fun _ => 0xFF) m (which * 2 ^ 32 + e.2) e.1) (s.erased which)

/-- The state with another flash. -/
def State.withFlash (s : State) (m : Map Byte) : State := { s with out := { s.out with flash := m } }

theorem State.commitImage_eq (s : State) (fail : Bool) (log : Nat) : s.commitImage fail log =
    (s.withFlash (if s.commitFails fail log then s.erased (bitsOf s.svc.arg 31 1) else s.flashed (bitsOf s.svc.arg 31 1)), s.commitFails fail log) := rfl

theorem State.getElem?_conBytes (s : State) (a : Nat) {n i : Nat} (h : i < n) : (s.conBytes a n)[i]? = some (s.conByte (a + i)) := by
  rw [State.conBytes, List.getElem?_map, List.getElem?_range h]
  rfl

theorem State.length_conBytes (s : State) (a n : Nat) : (s.conBytes a n).length = n := by
  rw [State.conBytes, List.length_map, List.length_range]

theorem State.getElem?_committed (s : State) {i : Nat} (low : 64 ≤ i) (high : i < imageLength (s.conBytes s.imageAt 64)) :
    s.committed[i]? = some (s.conByte (s.imageAt + i)) := by
  have head : (s.conBytes s.imageAt 60 ++ [0, 0, 0, 0]).length = 64 := by rw [List.length_append, State.length_conBytes]; rfl
  rw [State.committed, List.getElem?_take, if_pos high, List.getElem?_append_right (by rw [head]; exact low), head,
    State.getElem?_conBytes s _ (Nat.sub_lt_sub_right low high), Nat.add_assoc, Nat.add_sub_cancel' low]

theorem State.get_flashed (s : State) (which : Nat) {i : Nat} (low : 64 ≤ i) (high : i < imageLength (s.conBytes s.imageAt 64)) :
    Sparse.get (fun _ => (0xFF : Byte)) (s.flashed which) (which * 2 ^ 32 + i) = s.conByte (s.imageAt + i) := by
  rw [State.flashed, Sparse.get_foldl_put_zipIdx, if_neg (by omega), Nat.sub_zero, State.getElem?_committed s low high, Option.getD_some]

theorem cfgCommit_ends (busy : s.svcBusy = true) (op : s.svcOp = 7) :
    Completes (.serviceOperationComplete fail log image) s (fun t => SvcEnded t false (s.commitFails fail log) false ∧ KeepsCon s t 0 0 ∧
      (s.commitFails fail log = false → ∀ i, 64 ≤ i → i < imageLength (s.conBytes s.imageAt 64) →
        Sparse.get (fun _ => (0xFF : Byte)) t.out.flash (bitsOf s.svc.arg 31 1 * 2 ^ 32 + i) = s.conByte (s.imageAt + i))) := by
  refine ⟨(s.commitImage fail log).1.svcFinish false (s.commitImage fail log).2 false, ?_, ?_⟩
  · rw [exec_complete busy]
    dsimp only
    rw [if_neg (by omega), if_neg (by omega), if_neg (by omega), if_pos op]
  · rw [State.commitImage_eq]
    dsimp only
    generalize s.commitFails fail log = bad
    generalize left : (if bad then s.erased (bitsOf s.svc.arg 31 1) else s.flashed (bitsOf s.svc.arg 31 1)) = m
    have now : (s.withFlash m).con = s.con ∧ (s.withFlash m).out.flash = m := ⟨rfl, rfl⟩
    generalize s.withFlash m = a at now
    obtain ⟨ended, -, -, closes⟩ := a.svcFinish_spec false bad false
    refine ⟨ended, fun x _ => ?_, fun fine i low high => ?_⟩
    · rw [State.conByte, closes.kept.2.1, now.1, State.conByte]
    · rw [closes.flash, now.2, ← left, fine, if_neg Bool.noConfusion]
      exact s.get_flashed _ low high

/-! ### CFG_RELOAD that fails -/

theorem State.reg_conStore (s : State) (a : Nat) (data : List Byte) (x : Nat) : (s.conStore a data).reg x = s.reg x := by
  have put := s.putConBytes_frame a data
  unfold State.conStore
  dsimp only
  generalize s.putConBytes a data = t at put
  have regs : t.regs = s.regs := by rw [put]
  exact congrArg (fun r => Sparse.get regReset r x) regs

theorem cfgReload_fails (busy : s.svcBusy = true) (op : s.svcOp = 8) (failed : fail = true) :
    Completes (.serviceOperationComplete fail log image) s (fun t => SvcEnded t false true false ∧ t.fld Reg.BOOT_STAT 28 4 = 1 ∧
      Counted s t (Reg.PAGE_ERR_CNT Page.boot) ∧ t.bit (Reg.PAGE_IRQ_STAT Page.boot) 1 = true) := by
  have checked : s.checkImage (!true) false log image = (s.conStore 0x01000000 (image.take (min (slotBytes log) (imageLength image))), 1, false) := by
    unfold State.checkImage
    dsimp only
    rw [Bool.not_true, if_neg Bool.noConfusion, if_neg Bool.noConfusion, if_neg Bool.noConfusion, decide_eq_true Nat.one_ne_zero]
    rfl
  have reloads : s.reloadImage true log image =
      ((s.conStore 0x01000000 (image.take (min (slotBytes log) (imageLength image)))).imageFails 1 false).svcFinish false true false := by
    unfold State.reloadImage
    rw [checked]
    exact if_pos Nat.one_ne_zero
  refine ⟨s.reloadImage true log image, ?_, ?_⟩
  · rw [exec_complete busy, failed]
    dsimp only
    rw [if_neg (by omega), if_neg (by omega), if_neg (by omega), if_neg (by omega), if_pos op]
  · rw [reloads]
    have regs := s.reg_conStore 0x01000000 (image.take (min (slotBytes log) (imageLength image)))
    generalize s.conStore 0x01000000 (image.take (min (slotBytes log) (imageLength image))) = a at regs
    obtain ⟨shown, irq, counted, -, -⟩ := a.imageFails_spec 1 false (by decide)
    generalize a.imageFails 1 false = b at shown irq counted
    obtain ⟨ended, -, -, closes⟩ := b.svcFinish_spec false true false
    generalize b.svcFinish false true false = t at ended closes
    exact ⟨ended, (State.fld_of_reg (closes.regs _ (by decide)) 28 4).trans shown,
      (counted.of_reg_eq (regs _)).of_reg_eq_after (closes.regs _ (by decide)), (State.bit_of_reg (closes.regs _ (by decide)) 1).trans irq⟩

end Sys2Proof.Machine
end

section
/-! PROOFS. Service operations (R372 to R375): the obligation. -/

namespace Sys2Proof.Machine

theorem svc_refused {s : State} {path : Path} {v : Word} {op : Nat} {c : Instr} (opens : s.writable Reg.SVC_CMD = true)
    (h : (op, c) ∈ svcCommands path v) (busy : s.svcBusy = true) : Completes c s (fun t =>
      Counted s t Reg.SVC_REFUSE_CNT ∧ t.bit (Reg.PAGE_IRQ_STAT Page.svc) 1 = true ∧ OnlyReports s t (Reg.SVC_REFUSE_CNT :: raiseRegs Page.svc)) := by
  refine ⟨_, exec_svc opens h, ?_⟩
  rw [busy, if_pos rfl]
  exact s.svcRefuse_spec

theorem svc_pageOff {s : State} {path : Path} {v : Word} {op : Nat} {c : Instr} (opens : s.writable Reg.SVC_CMD = true)
    (h : (op, c) ∈ svcCommands path v) (idle : s.svcBusy = false) (off : s.pageOn Page.svc = false) : Completes c s (fun t => t = s) := by
  refine ⟨_, exec_svc opens h, ?_⟩
  rw [idle, if_neg Bool.noConfusion, if_pos off]

/-- DRAM_PAGE_RETIRE starts with a free unit for its page. -/
theorem dramPageRetire_starts {s : State} {path : Path} {v : Word} {c : Instr} (opens : s.writable Reg.SVC_CMD = true)
    (h : (5, c) ∈ svcCommands path v) (free : s.svcFree) (valid : s.svcValid 5 (s.reg Reg.SVC_ARG).toNat = true) {u : Nat}
    (unit : s.freeUnit = some u)
    (fresh : ¬ (s.dram.retiring.any (fun e => decide (e.1 = bitsOf (s.reg Reg.SVC_ARG).toNat 0 20))) = true) : Completes c s (fun t =>
      SvcRuns t 5 (bitsOf (s.reg Reg.SVC_ARG).toNat 0 20) ∧
      t.dram.retiring = s.dram.retiring ++ [(bitsOf (s.reg Reg.SVC_ARG).toNat 0 20, u)]) := by
  refine ⟨_, exec_svc_begins opens h free valid, dramPageRetire_begins ?_ unit fresh⟩
  have armed := svc_armed (s := s) h
  rwa [if_pos rfl] at armed

/-- Settles O60: each operation's start, abort and end by its own lemma. -/
theorem serviceOperations : Obligations.ServiceOperations := by
  intro s path v fail log image op c
  dsimp only
  refine ⟨fun opens h => ⟨svc_refused opens h, svc_pageOff opens h, svc_badArgument opens h, ?_⟩, ?_, fun opens => ⟨svcAbort_idle opens,
    svcAbort_refused opens, svcAbort_late opens, fun busy own early works => ?_⟩, autoRebuildStart_idle, fun b rest queue free => ?_,
    complete_idle, fun code => ⟨fun serves busy => coreRetire_waits busy code serves, fun left busy => coreRetire_ends busy code left⟩,
    fun code _ => ⟨fun failed busy => coreRestore_fails busy code failed, fun passed busy => coreRestore_passes busy code passed⟩,
    fun low high => ⟨fun working busy => work_waits busy low high working, fun finished busy => work_ends busy low high finished⟩,
    fun code busy => ?_, fun code failed busy => cfgReload_fails busy code failed, fun code busy => portFailoverTest_ends busy code,
    fun code busy => complete_none busy code⟩
  · refine ⟨?_, ?_, ?_, ?_, ?_, ?_, ?_, ?_, ?_, ?_⟩
    · rintro rfl still free valid
      exact svc_begins opens h free valid (by decide) fun a armed => coreRetire_begins armed still
    · rintro rfl free valid
      exact svc_begins opens h free valid (by decide) fun a armed => coreRestore_begins armed
    · rintro rfl free valid
      exact svc_begins opens h free valid (by decide) fun a armed => bankRebuild_begins armed valid
    · rintro rfl free valid
      exact svc_begins opens h free valid (by decide) fun a armed => bankReturn_begins armed
    · rintro rfl free valid u unit fresh
      exact dramPageRetire_starts opens h free valid unit fresh
    · rintro rfl free valid
      exact svc_begins opens h free valid (by decide) fun a armed => dramScrubFull_begins armed
    · rintro rfl free valid
      exact svc_begins opens h free valid (by decide) fun a armed => cfgCommit_begins armed
    · rintro rfl free valid
      exact svc_begins opens h free valid (by decide) fun a armed => cfgReload_begins armed
    · rintro rfl runs free valid
      exact svc_begins opens h free valid (by decide) fun a armed => standbyEnter_waits armed runs
    · rintro rfl free valid
      exact svc_begins opens h free valid (by decide) fun a armed => portFailoverTest_begins armed
  · exact fun _ opens free zero still => standbyEnter_commits opens free zero still
  · obtain ⟨t, run, ended, undone⟩ := svcAbort_ends opens busy own early works (P := Undone s) fun t closes => s.svcUndo_undone t closes
    exact ⟨t, run, ended, undone.retire, undone.restore, undone.rebuild, undone.bank, undone.scrub⟩
  · obtain ⟨t, run, started⟩ := autoRebuildStart_starts queue free
    exact ⟨t, run, started.queue, started.auto, started.counted, started.op, started.runs, started.ends⟩
  · obtain ⟨t, run, ended, con, flash⟩ := cfgCommit_ends (fail := fail) (log := log) (image := image) busy code
    rw [State.commitFails_eq] at ended flash
    exact ⟨t, run, ended, con, fun fine => flash (decide_eq_false fine)⟩

end Sys2Proof.Machine
end

section
/-! PROOFS. What an allocation step keeps of the state that other blocks show: the relation, and the Concourse and Scheduler under it
(R67, R242, R244, R302). -/

namespace Sys2Proof.Machine

/-- From `s` to `t`, media time, the DACs and the queues stand, and so do the copies that a boundary step has taken: of the send map with its
register bit, of the channel counts and of the region attributes. -/
structure Stays (s t : State) : Prop where
  clk : t.clk = s.clk
  dac : t.dac = s.dac
  queues : t.queues = s.queues
  smap : t.mix.smapCur = s.mix.smapCur
  nch : t.mix.nchApplied = s.mix.nchApplied
  attrs : t.ctl.attrs = s.ctl.attrs
  shown : t.fld Reg.MIX_STAT 0 1 = s.fld Reg.MIX_STAT 0 1

namespace Stays

variable {s t u : State}

theorem refl (s : State) : Stays s s := ⟨rfl, rfl, rfl, rfl, rfl, rfl, rfl⟩

theorem trans (h : Stays s t) (g : Stays t u) : Stays s u :=
  ⟨g.clk.trans h.clk, g.dac.trans h.dac, g.queues.trans h.queues, g.smap.trans h.smap, g.nch.trans h.nch, g.attrs.trans h.attrs,
    g.shown.trans h.shown⟩

theorem ite {c : Prop} [Decidable c] (yes : Stays s t) (no : Stays s u) : Stays s (if c then t else u) := by
  split
  · exact yes
  · exact no

theorem foldl {α : Type} {f : State → α → State} (l : List α) (hf : ∀ u, ∀ x ∈ l, Stays u (f u x)) (s : State) : Stays s (l.foldl f s) := by
  induction l generalizing s with
  | nil => exact refl s
  | cons x l ih => exact (hf s x List.mem_cons_self).trans (ih (fun u y hy => hf u y (List.mem_cons_of_mem _ hy)) _)

/-! ### Registers and reports -/

theorem of_reports {l : List Nat} (h : OnlyReports s t l) (apart : Reg.MIX_STAT ∉ l) : Stays s t := by
  refine ⟨?_, ?_, ?_, ?_, ?_, ?_, State.fld_of_reg (h.2 _ apart) 0 1⟩ <;> rw [h.1]

theorem setReg (s : State) {a : Nat} (h : Reg.MIX_STAT ≠ a) (v : Word) : Stays s (s.setReg a v) :=
  of_reports (onlyReports_setReg s a v) (fun mem => h (List.mem_singleton.1 mem))

theorem setFld (s : State) {a : Nat} (h : Reg.MIX_STAT ≠ a) (lo w n : Nat) : Stays s (s.setFld a lo w n) := setReg s h _

theorem setBit (s : State) {a : Nat} (h : Reg.MIX_STAT ≠ a) (i : Nat) (b : Bool) : Stays s (s.setBit a i b) := setReg s h _

theorem bumpBy (s : State) {a : Nat} (h : Reg.MIX_STAT ≠ a) (n : Nat) : Stays s (s.bumpBy a n) := setReg s h _

theorem bump (s : State) {a : Nat} (h : Reg.MIX_STAT ≠ a) : Stays s (s.bump a) := setReg s h _

theorem count (s : State) (i n : Nat) : Stays s (s.count i n) := ⟨rfl, rfl, rfl, rfl, rfl, rfl, rfl⟩

theorem raise (s : State) (p b : Nat) : Stays s (s.raise p b) := of_reports (onlyReports_raise s p b) (by
  simp only [raiseRegs, List.mem_cons, List.not_mem_nil, or_false, Reg.MIX_STAT, Reg.PAGE_IRQ_STAT, Reg.MSIX_PBA]
  omega)

theorem logError (s : State) (ident sub info : Nat) (inj : Bool) : Stays s (s.logError ident sub info inj) :=
  of_reports (onlyReports_logError s ident sub info inj) (by decide)

theorem of_took (h : Took s t) : Stays s t := by
  refine ⟨?_, ?_, ?_, ?_, ?_, ?_, State.fld_of_reg (h.reg (by decide)) 0 1⟩ <;> rw [h.rest]

/-! ### Parts of the state beside these -/

theorem pool (s : State) (x : Pool) : Stays s { s with pool := x } := ⟨rfl, rfl, rfl, rfl, rfl, rfl, rfl⟩

theorem ing (s : State) (x : Ingress) : Stays s { s with ing := x } := ⟨rfl, rfl, rfl, rfl, rfl, rfl, rfl⟩

theorem sch (s : State) (x : Scheduler) : Stays s { s with sch := x } := ⟨rfl, rfl, rfl, rfl, rfl, rfl, rfl⟩

theorem spf (s : State) (x : Prefetcher) : Stays s { s with spf := x } := ⟨rfl, rfl, rfl, rfl, rfl, rfl, rfl⟩

theorem mm (s : State) (x : ModMatrix) : Stays s { s with mm := x } := ⟨rfl, rfl, rfl, rfl, rfl, rfl, rfl⟩

theorem dec (s : State) (x : Decimator) : Stays s { s with dec := x } := ⟨rfl, rfl, rfl, rfl, rfl, rfl, rfl⟩

theorem dram (s : State) (x : Dram) : Stays s { s with dram := x } := ⟨rfl, rfl, rfl, rfl, rfl, rfl, rfl⟩

theorem con (s : State) (x : Map Byte) : Stays s { s with con := x } := ⟨rfl, rfl, rfl, rfl, rfl, rfl, rfl⟩

theorem ctl (s : State) {x : ConCtl} (attrs : x.attrs = s.ctl.attrs) : Stays s { s with ctl := x } := ⟨rfl, rfl, rfl, rfl, rfl, attrs, rfl⟩

theorem mix (s : State) {x : Mixer} (smap : x.smapCur = s.mix.smapCur) (nch : x.nchApplied = s.mix.nchApplied) : Stays s { s with mix := x } :=
  ⟨rfl, rfl, rfl, smap, nch, rfl, rfl⟩

theorem draw (s : State) (w : Nat) : Stays s (s.draw w).2 := ⟨rfl, rfl, rfl, rfl, rfl, rfl, rfl⟩

theorem updSlot (s : State) (x : Nat) (f : Slot → Slot) : Stays s (s.updSlot x f) := pool s _

theorem setSlot (s : State) (x : Nat) (v : Slot) : Stays s (s.setSlot x v) := pool s _

theorem setCore (s : State) (n : Nat) (c : Core) : Stays s (s.setCore n c) := ⟨rfl, rfl, rfl, rfl, rfl, rfl, rfl⟩

theorem updCore (s : State) (n : Nat) (f : Core → Core) : Stays s (s.updCore n f) := setCore s n _

theorem setStream (s : State) (x k : Nat) (v : Stream) : Stays s (s.setStream x k v) := spf s _

theorem clearCon (s : State) (a n : Nat) : Stays s (s.clearCon a n) := con s _

theorem check (s : State) (p det sub : Nat) (real : Bool) : Stays s (s.check p det sub real).st := by
  have fired : Stays s ((s.setBit (Reg.PAGE_ERR_INJ p) 30 false).raise Page.err 0) :=
    (setBit s (a := Reg.PAGE_ERR_INJ p) (by simp only [Reg.MIX_STAT, Reg.PAGE_ERR_INJ]; omega) 30 false).trans (raise _ Page.err 0)
  rw [State.check]
  by_cases found : real = true
  · rw [if_pos found]
    exact refl s
  · rw [if_neg found]
    by_cases armed : s.armed p det sub = true
    · rw [if_pos armed]
      dsimp only
      exact fired
    · rw [if_neg armed]
      exact refl s

/-! ### The Concourse -/

theorem conUe (s : State) (m a : Nat) (inj : Bool) : Stays s (s.conUe m a inj) :=
  (((bump s (by decide)).trans (setReg _ (by decide) _)).trans (raise _ _ _)).trans (logError _ _ _ _ _)

/-- A word joins those that are uncorrectable. -/
theorem poisoned (s : State) (w : Nat) : Stays s { s with ctl := { s.ctl with bad := w :: s.ctl.bad } } := ctl s rfl

theorem queueRebuild (s : State) (b : Nat) : Stays s (s.queueRebuild b) := by
  unfold State.queueRebuild
  exact ite (ctl s rfl) (refl s)

theorem bankCe (s : State) (b : Nat) : Stays s (s.bankCe b) := by
  have counted := fun n => setFld s (a := Reg.CON_BANK b) (by simp only [Reg.MIX_STAT, Reg.CON_BANK]; omega) 0 16 n
  unfold State.bankCe
  exact ite ((counted _).trans (queueRebuild _ b)) (counted _)

theorem addWriteBack (s : State) (w : Nat) : Stays s (s.addWriteBack w) := by
  unfold State.addWriteBack
  exact ite (refl s) (ctl s rfl)

theorem parityCorrected (s : State) (m a bank : Nat) (inj : Bool) : Stays s (s.parityCorrected m a bank inj) :=
  (((bump s (by decide)).trans (setReg _ (by decide) _)).trans (raise _ _ _)).trans (logError _ _ _ _ _)

theorem singleCorrected (s : State) (m a bank : Nat) (inj : Bool) : Stays s (s.singleCorrected m a bank inj) :=
  ((((bump s (by decide)).trans (bankCe _ bank)).trans (setReg _ (by decide) _)).trans (raise _ _ _)).trans (logError _ _ _ _ _)

theorem conCheck (s : State) (m a : Nat) (upset : Upset) : Stays s (s.conCheck m a upset).1 := by
  rw [State.conCheck_eq]
  dsimp only
  generalize hue : s.check Page.con 2 (s.bankOf a) (s.ctl.bad.contains (a / 16) || decide (upset = .lost) ||
    (decide (upset = .rebuilt) && s.ctl.badParity.contains (conRowKey a))) = ue
  generalize hpr : s.check Page.con 1 (s.bankOf a) (decide (upset = .rebuilt)) = pr
  generalize hce : s.check Page.con 0 (s.bankOf a) (decide (upset = .single)) = ce
  have fromUe : Stays s ue.st := hue ▸ check s ..
  have fromPr : Stays s pr.st := hpr ▸ check s ..
  have fromCe : Stays s ce.st := hce ▸ check s ..
  split
  · have met := fromUe.trans (conUe ue.st m a ue.inj)
    exact ite (met.trans (poisoned _ _)) met
  · split
    · split
      · exact fromPr.trans (conUe pr.st m a pr.inj)
      · have corrected := fromPr.trans (parityCorrected pr.st m a (s.bankOf a) pr.inj)
        exact ite corrected (corrected.trans (addWriteBack _ _))
    · split
      · have corrected := fromCe.trans (singleCorrected ce.st m a (s.bankOf a) ce.inj)
        exact ite corrected (corrected.trans (addWriteBack _ _))
      · exact refl s

theorem btTouch (s : State) (cls : Cls) (a : Nat) : Stays s (s.btTouch cls a) := by
  have aborted := (count s 457 1).trans (ctl _ (x := { (s.count 457 1).ctl with btBorrow := none }) rfl)
  unfold State.btTouch
  exact ite (ite (aborted.trans ((setFld _ (by decide) _ _ _).trans (bump _ (by decide)))) (count s 457 1)) (refl s)

theorem putConBytes (s : State) (a : Nat) (data : List Byte) : Stays s (s.putConBytes a data) := of_took (Took.putConBytes s a data)

theorem conStore (s : State) (a : Nat) (data : List Byte) : Stays s (s.conStore a data) := by
  unfold State.conStore
  dsimp only
  have put := putConBytes s a data
  generalize s.putConBytes a data = t at put
  exact put.trans (ctl t rfl)

theorem conWriteWord (s : State) (m : Nat) (cls : Cls) (a : Nat) (data : List Byte) : Stays s (s.conWriteWord m cls a data Access.quiet).1 := by
  have counted : Stays s (((s.countPort m).btTouch cls a).count 455 4) := ((count s _ 1).trans (btTouch _ cls a)).trans (count _ 455 4)
  have same : s.conWriteWord m cls a data Access.quiet =
      if data.length < 16 then
        if ((((s.countPort m).btTouch cls a).count 455 4).conCheck m a .clean).2 then
          (((((s.countPort m).btTouch cls a).count 455 4).conCheck m a .clean).1, WriteResult.poisoned)
        else (((((s.countPort m).btTouch cls a).count 455 4).conCheck m a .clean).1.conStore a data, WriteResult.done)
      else ((((s.countPort m).btTouch cls a).count 455 4).conStore a data, WriteResult.done) := rfl
  rw [same]
  generalize ((s.countPort m).btTouch cls a).count 455 4 = u at *
  have checked := counted.trans (conCheck u m a .clean)
  generalize u.conCheck m a .clean = k at *
  split
  · split
    · exact checked
    · exact checked.trans (conStore _ a data)
  · exact counted.trans (conStore u a data)

theorem devStore (m : Nat) (cls : Cls) (fuel : Nat) (s : State) (a : Nat) (data : List Byte) : Stays s (s.devStore m cls a data fuel) := by
  induction fuel generalizing s a data with
  | zero => exact refl s
  | succ fuel ih =>
    unfold State.devStore
    exact ite (refl s) ((conWriteWord s m cls a _).trans (ih _ _ _))

theorem devWrite (s : State) (m : Nat) (cls : Cls) (a : Nat) (ws : List Word) : Stays s (s.devWrite m cls a ws) := devStore m cls _ s a _

theorem putFrame (s : State) (a : Nat) (v : Word) : Stays s (s.putFrame a v) := conStore s a _

theorem putFrames (s : State) (a : Nat) (ws : List Word) : Stays s (s.putFrames a ws) := conStore s a _

/-! ### Tasks -/

theorem updTask (s : State) (id : Nat) (f : Task → Task) : Stays s (s.updTask id f) := sch s _

theorem pushTask (s : State) (t : Task) : Stays s (s.pushTask t) := ⟨rfl, rfl, rfl, rfl, rfl, rfl, rfl⟩

theorem bumpEpoch (s : State) (x : Nat) : Stays s (s.bumpEpoch x) := by
  unfold State.bumpEpoch
  exact ite (updSlot s x _) (sch s _)

theorem setPlaced (s : State) (x n : Nat) : Stays s (s.setPlaced x n) := by
  unfold State.setPlaced
  exact ite (updSlot s x _) (sch s _)

theorem unstage (s : State) (id : Nat) : Stays s (s.unstage id) := foldl _ (fun u n _ => ite (setCore u n _) (refl u)) s

theorem dropTask (s : State) (id : Nat) : Stays s (s.dropTask id) := (unstage s id).trans (updTask _ id _)

theorem shuntEvent (s : State) (n : Nat) : Stays s (s.shuntEvent n) := ite (updCore s n _) (refl s)

theorem shunt (s : State) (x b : Nat) : Stays s (s.shunt x b) := by
  have told := ((((bumpEpoch s x).trans (setPlaced _ x b)).trans (bump _ (a := Reg.SCH_SHUNT_CNT) (by decide))).trans (count _ 447 1))
  unfold State.shunt
  dsimp only
  refine (told.trans (sch _ _)).trans (foldl _ (fun u t _ => ?_) _)
  cases t.phase with
  | dispatched n => exact ((shuntEvent u n).trans (updTask _ _ _)).trans (pushTask _ _)
  | yielded _ _ _ => exact (updTask u _ _).trans (pushTask _ _)
  | aborted _ => exact refl u
  | _ => exact (unstage u _).trans (updTask _ _ _)

theorem withdrawTasks (s : State) (x n : Nat) : Stays s (s.withdrawTasks x n) := by
  unfold State.withdrawTasks
  refine foldl _ (fun u t _ => ?_) s
  split
  · exact dropTask u t.order
  · split
    · exact (bumpEpoch u x).trans (updTask _ _ _)
    · exact refl u

theorem spend (s : State) (n : Nat) (t : Task) (k : Nat) : Stays s (s.spend n t k) := (sch s _).trans (count _ _ k)

end Stays

end Sys2Proof.Machine
end

section
/-! PROOFS. What an allocation step keeps: capture, Sample Memory, streams, the Timetable and the Parameter Store (R107 to R110, R227 to R239,
R255). -/

namespace Sys2Proof.Machine.Stays

/-! ### Capture -/

theorem writeCapture (s : State) (k t : Nat) (w : Word) : Stays s (s.writeCapture k t w) := by
  unfold State.writeCapture
  dsimp only
  have written := (devWrite s 36 .normal (s.captureAddr k t) [scale32 w (stopFactor s.dec.stopCap t)]).trans (count _ 475 1)
  generalize (s.devWrite 36 .normal (s.captureAddr k t) [scale32 w (stopFactor s.dec.stopCap t)]).count 475 1 = u at written
  exact written.trans (dec u _)

theorem captureInto (s : State) (k t : Nat) (second : Bool) (w : Word) : Stays s (s.captureInto k t second w) := by
  have written := fun (u : State) (o : Word × Bool) (kept : Stays s u) =>
    (kept.trans (ite (c := o.2 = true) (bump u (a := Reg.DEC_SAT_CNT) (by decide)) (refl u))).trans (writeCapture _ k t o.1)
  unfold State.captureInto
  dsimp only
  split
  · split
    · exact dec s _
    · split
      · exact dec s _
      · exact written _ _ (dec s _)
  · exact ite (refl s) (writeCapture s k t w)

theorem portSample (s : State) (port ch t : Nat) (second : Bool) (w : Word) : Stays s (s.portSample port ch t second w) := by
  unfold State.portSample
  refine foldl _ (fun u k _ => ?_) s
  exact ite (captureInto u k t second w) (refl u)

theorem captureClose (s : State) (m : Nat) : Stays s (s.captureClose m) := by
  unfold State.captureClose
  extract_lets times s1
  have closed : Stays s s1 := by
    refine foldl _ (fun u k _ => ?_) s
    extract_lets on missing v
    have filled : Stays u v := foldl _ (fun v t _ => devWrite v 36 .normal _ [0]) u
    clear_value v
    split
    · exact (filled.trans (bumpBy v (by decide) _)).trans (count _ 476 _)
    · exact filled
  clear_value s1
  exact closed.trans (dec s1 _)

theorem captureSets (s : State) : Stays s s.captureSets := (dec s _).trans (setBit _ (by decide) 1 _)

/-! ### Sample Memory -/

theorem retirePage (s : State) (page : Nat) : Stays s (s.retirePage page) := by
  unfold State.retirePage
  split
  · exact refl s
  · split
    · exact (dram s _).trans (setFld _ (by decide) _ _ _)
    · exact (setBit s (by decide) 30 true).trans (bump _ (by decide))

theorem trackPage (s : State) (page : Nat) : Stays s (s.trackPage page) := by
  unfold State.trackPage
  extract_lets thr n rest room
  split
  · exact (dram s _).trans (retirePage _ page)
  · exact dram s _

theorem drawLine (k : Nat) (s : State) : Stays s (s.drawLine k).1 := by
  induction k generalizing s with
  | zero => exact refl s
  | succ k ih => exact (draw s 64).trans (ih _)

theorem drcInfo (s : State) (line : Nat) (scrub write ue : Bool) : Stays s (s.drcInfo line scrub write ue) := setReg s (by decide) _

theorem lineCorrected (s : State) (line : Nat) (scrub inj : Bool) : Stays s (s.lineCorrected line scrub inj) := by
  unfold State.lineCorrected
  extract_lets s1
  have told : Stays s s1 :=
    ((((bump s (by decide)).trans (drcInfo _ line scrub false false)).trans (raise _ _ _)).trans (logError _ _ _ _ _)).trans (count _ _ _)
  clear_value s1
  exact ite told (told.trans (trackPage s1 _))

theorem lineLost (s : State) (line : Nat) (scrub write inj : Bool) : Stays s (s.lineLost line scrub write inj) := by
  unfold State.lineLost
  extract_lets s1
  have told : Stays s s1 := (((bump s (by decide)).trans (drcInfo _ line scrub write true)).trans (raise _ _ _)).trans (logError _ _ _ _ _)
  clear_value s1
  exact ite told ((told.trans (dram s1 _)).trans (retirePage _ _))

theorem readLine (s : State) (line errs : Nat) (scrub write : Bool) : Stays s (s.readLine line errs scrub write).1 := by
  unfold State.readLine
  extract_lets t s0 die open_ dr lost ue w ce
  have read : Stays s s0 := count s 462 1
  have drawn : Stays s dr.2 := by
    dsimp only [dr]
    split
    · exact read.trans (draw s0 1)
    · exact read
  have hue : Stays s ue.st := drawn.trans (check _ _ _ _ _)
  have hce : Stays s ce.st := drawn.trans (check _ _ _ _ _)
  have line8 : Stays s w.1 := drawn.trans (drawLine 8 _)
  clear_value s0 dr ue w ce
  split
  · exact hue.trans (lineLost ue.st line scrub write ue.inj)
  · split
    · exact line8.trans (lineCorrected w.1 line scrub false)
    · split
      · exact hce.trans (lineCorrected ce.st line scrub ce.inj)
      · exact read

theorem readDram (fuel : Nat) (s : State) (a n : Nat) (errs : List Nat) : Stays s (s.readDram a n errs fuel).1 := by
  induction fuel generalizing s a n errs with
  | zero => exact refl s
  | succ fuel ih =>
    unfold State.readDram
    split
    · exact refl s
    · exact (readLine s _ _ _ _).trans (ih _ _ _ _)

/-! ### Streams -/

theorem storeFrames (ring : Nat) (stereo : Bool) (cls : Cls) (frames : List (Word × Word)) (s : State) (f : Nat) :
    Stays s (s.storeFrames ring stereo cls f frames) := by
  induction frames generalizing s f with
  | nil => exact refl s
  | cons x frames ih =>
    obtain ⟨l, r⟩ := x
    rw [State.storeFrames]
    refine Stays.trans ?_ (ih _ (f + 1))
    split
    · exact (devWrite s 34 cls _ [l]).trans (devWrite _ 34 cls _ [r])
    · exact devWrite s 34 cls _ [l]

theorem issueFills (slot k fuel : Nat) (s : State) : Stays s (s.issueFills slot k fuel) := by
  induction fuel generalizing s with
  | zero => exact refl s
  | succ fuel ih =>
    unfold State.issueFills
    extract_lets x want stop n fill pos s1 s2
    split
    · exact refl s
    · split
      · split
        · exact (storeFrames _ _ _ _ s _).trans (setStream _ slot k _)
        · exact refl s
      · split
        · exact (setStream s slot k _).trans (ih _)
        · have asked : Stays s s1 := (setStream s slot k _).trans (count _ 459 1)
          have express : Stays s1 s2 := ite (count s1 460 1) (refl s1)
          clear_value s1 s2
          exact ((asked.trans express).trans (Stays.spf s2 _)).trans (ih _)

theorem streamFault (s : State) (slot k : Nat) : Stays s (s.streamFault slot k) := (setStream s slot k _).trans (bump _ (by decide))

theorem showActive (s : State) : Stays s s.showActive := setFld s (by decide) _ _ _

theorem tableEntry (s : State) (obj : Nat) : Stays s (s.tableEntry obj).1 := by
  unfold State.tableEntry
  dsimp only
  split
  · exact refl s
  · exact readDram _ s _ _ _

theorem endStream (s : State) (slot k : Nat) : Stays s (s.endStream slot k) :=
  ((Stays.spf s _).trans (setStream _ slot k _)).trans (showActive _)

theorem startStream (s : State) (slot k obj declared pos : Nat) : Stays s (s.startStream slot k obj declared pos) := by
  unfold State.startStream
  extract_lets s1 o src fresh e
  have ended : Stays s s1 := endStream s slot k
  have read : Stays s1 e.1 := by
    dsimp only [e]
    split
    · exact tableEntry s1 obj
    · exact refl s1
  have started := fun (u : State) (x : Stream) =>
    (((setStream u slot k x).trans (bump _ (a := Reg.SPF_START_CNT) (by decide))).trans (showActive _)).trans (issueFills slot k 1100 _)
  clear_value s1 e
  split
  · exact ended
  · split
    · exact ((ended.trans read).trans (setStream _ slot k _)).trans (streamFault _ slot k)
    · exact (ended.trans read).trans (started _ _)

theorem allocStreams (s : State) (slot part : Nat) : Stays s (s.allocStreams slot part) := by
  unfold State.allocStreams
  dsimp only
  refine foldl _ (fun u k _ => ?_) s
  have cleared := fun x => (endStream u slot k).trans (setStream _ slot k x)
  split
  · exact ((cleared _).trans (setStream _ slot k _)).trans (startStream _ slot k _ _ _)
  · exact cleared _

theorem freeStreams (s : State) (slot : Nat) : Stays s (s.freeStreams slot) := (endStream s slot 0).trans (endStream _ slot 1)

theorem releaseStreams (s : State) (slot : Nat) : Stays s (s.releaseStreams slot) := by
  unfold State.releaseStreams
  refine foldl _ (fun u k _ => ?_) s
  exact ite ((setStream u slot k _).trans (issueFills slot k 1100 _)) (refl u)

theorem swapStreams (s : State) (a b : Nat) : Stays s (s.swapStreams a b) := by
  unfold State.swapStreams
  extract_lets bound s1
  have swapped : Stays s s1 := foldl _ (fun u k _ => (setStream u a k _).trans (setStream _ b k _)) s
  clear_value s1
  exact swapped.trans (Stays.spf s1 _)

theorem applySpf (s : State) : Stays s s.applySpf := Stays.spf s _

/-! ### The Timetable -/

theorem postNtf (s : State) (e : List Byte) : Stays s (s.postNtf e) := of_took (s.postNtf_took e)

theorem reportRelease (s : State) (e : TtEntry) (sample : Nat) : Stays s (s.reportRelease e sample) := by
  unfold State.reportRelease
  extract_lets s1 s2
  have told : Stays s s2 := (count s 411 1).trans (ite (postNtf _ _) (refl _))
  clear_value s2
  exact ite (told.trans (postNtf s2 _)) told

theorem releaseOne (s : State) (e : TtEntry) (sample : Nat) : Stays s (s.releaseOne e sample) := ing s _

theorem releaseLoop (express : Bool) (n fuel : Nat) (s : State) : Stays s (s.releaseLoop express n fuel).1 := by
  induction fuel generalizing s with
  | zero => exact refl s
  | succ fuel ih =>
    unfold State.releaseLoop
    split
    · exact refl s
    · split
      · exact refl s
      · refine Stays.trans ?_ (ih _)
        exact (releaseOne s _ _).trans (ite (ing _ _) (refl _))

theorem ttRelease (s : State) (express : Bool) (n : Nat) : Stays s (s.ttRelease express n).1 := by
  unfold State.ttRelease
  extract_lets r excess s1 s2
  have released : Stays s s1 := (releaseLoop express n _ s).trans (ing _ _)
  clear_value s1
  exact released.trans (ite (refl s1) ((bumpBy s1 (by decide) excess).trans (raise _ Page.ing 7)))

theorem discardEntries (s : State) (p : TtEntry → Bool) : Stays s (s.discardEntries p) := of_took (s.discardEntries_took p)

/-! ### The Parameter Store -/

theorem setJournal (s : State) (x n count : Nat) : Stays s (s.setJournal x n count) := (putFrame s _ _).trans (putFrame _ _ _)

theorem journalMt (s : State) (x t : Nat) : Stays s (s.journalMt x t) := (putFrame s _ _).trans (putFrame _ _ _)

theorem addRecord (s : State) (x n : Nat) (word value : Word) : Stays s (s.addRecord x n word value) :=
  (((putFrame s _ _).trans (putFrame _ _ _)).trans (setJournal _ x n _)).trans (count _ 450 1)

theorem addRecords (s : State) (x n o : Nat) (l : List FrameWrite) : Stays s (s.addRecords x n o l) := by
  unfold State.addRecords
  exact foldl _ (fun u e _ => addRecord u x n _ _) s

theorem placeWrite (s : State) (n t a : Nat) (v : Word) : Stays s (s.placeWrite n t a v) := by
  unfold State.placeWrite
  exact ite (putFrame s a v) (pool s _)

theorem settle (s : State) (n : Nat) : Stays s (s.settle n) := by
  unfold State.settle
  extract_lets due src s1
  have settled : Stays s s1 := (pool s _).trans (foldl _ (fun u w _ => putFrame u w.addr w.value) _)
  clear_value s1
  refine settled.trans (foldl _ (fun u x _ => ?_) s1)
  exact ite (refl u) (putFrame u _ _)

theorem writeVoice (s : State) (x n t : Nat) (ws : List FrameWrite) : Stays s (s.writeVoice x n t ws) := by
  unfold State.writeVoice
  extract_lets s1
  have placed : Stays s s1 := foldl _ (fun u w _ => placeWrite u n t _ w.value) s
  clear_value s1
  exact (placed.trans (ite (addRecords s1 x n _ ws) (refl s1))).trans (journalMt _ x t)

theorem writePart (s : State) (p n t : Nat) (ws : List FrameWrite) : Stays s (s.writePart p n t ws) := by
  unfold State.writePart
  extract_lets s1
  have placed : Stays s s1 := foldl _ (fun u w _ => placeWrite u n t _ w.value) s
  clear_value s1
  refine placed.trans (foldl _ (fun u x _ => ?_) s1)
  exact Stays.trans (ite (addRecords u x n _ ws) (refl u)) (journalMt _ x t)

/-- The writes of a frame that wait and its uncorrectable words are forgotten. -/
theorem forgotten (s : State) (splits : List SplitWrite) (fb : Map Word) (bad : List Nat) :
    Stays s { s with pool := { s.pool with splits := splits, fb := fb }, ctl := { s.ctl with bad := bad } } :=
  ⟨rfl, rfl, rfl, rfl, rfl, rfl, rfl⟩

theorem prepareFrame (s : State) (x p n t : Nat) (note : Note) (tmpl : Word) : Stays s (s.prepareFrame x p n t note tmpl) := by
  unfold State.prepareFrame
  extract_lets base defaults s1 s2 noteWord pitch s3 gone src1 src2 s4
  have cleared : Stays s s2 := ((putFrames s _ _).trans (clearCon _ _ _)).trans (clearCon _ _ _)
  clear_value s2
  have named : Stays s2 s3 := (putFrames s2 _ _).trans (putFrames _ _ _)
  clear_value s3
  have kept : Stays s3 s4 := forgotten s3 _ _ _
  clear_value s4
  exact (((cleared.trans named).trans kept).trans (setJournal s4 x n 0)).trans (journalMt _ x t)

theorem moveFrame (s : State) (a b : Nat) : Stays s (s.moveFrame a b) := by
  unfold State.moveFrame
  extract_lets copy s1 fb moved
  have copied : ∀ (u : State) (x y n : Nat), Stays u (copy u x y n) := fun u x y n => (clearCon u y n).trans (conStore _ y _)
  have all : Stays s s1 := ((copied s _ _ _).trans (copied _ _ _ _)).trans (copied _ _ _ _)
  clear_value s1
  exact all.trans (pool s1 _)

theorem clearModulation (s : State) (x : Nat) : Stays s (s.clearModulation x) := mm s _

theorem moveModulation (s : State) (a b : Nat) : Stays s (s.moveModulation a b) := by
  unfold State.moveModulation
  exact (mm s _).trans (clearModulation _ a)

theorem forgetOutput (s : State) (x : Nat) : Stays s (s.forgetOutput x) := mix s rfl rfl

end Sys2Proof.Machine.Stays
end

section
/-! PROOFS. What an allocation step keeps: the voice pool (R69 to R99). -/

namespace Sys2Proof.Machine.Stays

/-! ### Voice ends and cancels -/

theorem voiceEnd (s : State) (x part : Nat) (note : Note) (last blocks reason : Nat) : Stays s (s.voiceEnd x part note last blocks reason) := by
  unfold State.voiceEnd
  extract_lets s1
  have told : Stays s s1 := (raise s Page.va 3).trans (count _ 420 1)
  clear_value s1
  exact ite (told.trans (postNtf s1 _)) told

theorem freeSlot (s : State) (x : Nat) : Stays s (s.freeSlot x) := by
  unfold State.freeSlot
  extract_lets src s1
  have freed : Stays s s1 := (updSlot s x _).trans (freeStreams _ x)
  clear_value s1
  split
  · exact ite ((freed.trans (sch s1 _)).trans (setBit _ (by decide) 31 false)) freed
  · exact freed

theorem endVoice (s : State) (x last reason : Nat) : Stays s (s.endVoice x last reason) := voiceEnd s _ _ _ _ _ _

theorem leave (s : State) (x last reason : Nat) : Stays s (s.leave x last reason) := (endVoice s x last reason).trans (freeSlot _ x)

theorem leaveCancelled (s : State) (x part block : Nat) (note : Note) : Stays s (s.leaveCancelled x part block note) :=
  (voiceEnd s x part note block 0 4).trans (freeSlot _ x)

theorem cancelVoice (s : State) (x : Nat) : Stays s (s.cancelVoice x) := by
  unfold State.cancelVoice
  extract_lets v s1
  have counted : Stays s s1 := bump s (by decide)
  clear_value s1
  split
  · exact refl s
  · have withdrawn := counted.trans (withdrawTasks s1 x v.firstBlock)
    exact ite (withdrawn.trans (updSlot _ x _)) (withdrawn.trans (leaveCancelled _ x _ _ _))

theorem cancelWaiting (s : State) (x : Nat) : Stays s (s.cancelWaiting x) := by
  unfold State.cancelWaiting
  split
  · split
    · exact refl s
    · exact (bump s (by decide)).trans (updSlot _ x _)
  · exact refl s

/-- Waiting notes are cancelled, one after another. -/
theorem cancelWaitings (s : State) (l : List Nat) : Stays s (l.foldl (fun u x => u.cancelWaiting x) s) :=
  foldl l (fun u x _ => cancelWaiting u x) s

/-! ### Fades, part resets and chokes -/

theorem fadeVoice (s : State) (x n : Nat) (ex : Bool) (reason : Nat) : Stays s (s.fadeVoice x n ex reason) := by
  unfold State.fadeVoice
  exact updSlot s x _

theorem partReset (s : State) (p n t : Nat) (ex : Bool) : Stays s (s.partReset p n t ex) := by
  unfold State.partReset
  extract_lets src s1 s2
  have cancelled : Stays s s1 := (pool s _).trans (foldl _ (fun u x _ => cancelVoice u x) _)
  clear_value s1
  have faded : Stays s1 s2 := foldl _ (fun u x _ => fadeVoice u x n ex 5) s1
  clear_value s2
  exact (cancelled.trans faded).trans (cancelWaitings s2 _)

theorem choke (s : State) (p n t : Nat) (ex : Bool) : Stays s (s.choke p n t ex) := by
  have counted := fun u : State => bump u (a := Reg.VA_CHOKE_CNT) (by decide)
  unfold State.choke
  extract_lets g
  refine ite (refl s) (foldl _ (fun u q _ => ?_) s)
  extract_lets src u0 u1 u2
  have noted : Stays u u0 := pool u _
  clear_value u0
  have cancelled : Stays u0 u1 := foldl _ (fun v x _ => ite (refl v) ((counted v).trans (cancelVoice _ x))) u0
  clear_value u1
  have faded : Stays u1 u2 := foldl _ (fun v x _ => (counted v).trans (fadeVoice _ x n ex 2)) u1
  clear_value u2
  exact ((noted.trans cancelled).trans faded).trans (foldl _ (fun v x _ => (counted v).trans (cancelWaiting _ x)) u2)

/-! ### Note-ons -/

theorem refuseNote (s : State) (p src reason : Nat) : Stays s (s.refuseNote p src reason) :=
  (((bump s (by decide)).trans (setReg _ (by decide) _)).trans (raise _ _ _)).trans (count _ _ _)

theorem startNote (s : State) (x p n t : Nat) (note : Note) (tmpl seed : Word) : Stays s (s.startNote x p n t note tmpl seed) := by
  unfold State.startNote
  extract_lets old s1 src v
  have prepared : Stays s s1 := ((prepareFrame s x p n t note tmpl).trans (clearModulation _ x)).trans (forgetOutput _ x)
  clear_value s1
  exact (prepared.trans (setSlot s1 x _)).trans (allocStreams _ x p)

theorem moveOutput (s : State) (a b : Nat) : Stays s (s.moveOutput a b) := by
  unfold State.moveOutput
  extract_lets s1
  have forgot : Stays s s1 := forgetOutput s b
  clear_value s1
  exact forgot.trans (mix s1 rfl rfl)

theorem steal (s : State) (k p n t : Nat) (ex express : Bool) (note : Note) (tmpl seed : Word) :
    Stays s (s.steal k p n t ex express note tmpl seed) := by
  unfold State.steal
  extract_lets v r cls s0
  have counted : Stays s s0 := Stays.trans (ite (withdrawTasks s k n) (refl s)) (bump _ (by decide))
  clear_value s0
  split
  next b _ =>
    extract_lets s1 s2
    have moved : Stays s0 s1 := (((moveFrame s0 k b).trans (moveModulation _ k b)).trans (moveOutput _ k b)).trans (swapStreams _ k b)
    clear_value s1
    have shadowed : Stays s1 s2 := setSlot s1 b _
    clear_value s2
    exact ((((counted.trans moved).trans shadowed).trans (startNote s2 k p n t note tmpl seed)).trans (raise _ Page.va 0)).trans (count _ 416 1)
  next w s1 src s2 _ _ =>
    have ending : Stays s0 s1 := setSlot s0 k _
    clear_value s1
    have withheld : Stays s1 s2 := pool s1 _
    clear_value s2
    exact ((((counted.trans ending).trans withheld).trans (bump s2 (by decide))).trans (raise _ Page.va 0)).trans (count _ 417 1)

theorem noteOn (s : State) (n : Nat) (ex : Bool) (r : Released) : Stays s (s.noteOn n ex r) := by
  unfold State.noteOn
  extract_lets p why note tmpl seed t src place
  have placed : ∀ x s1, place = some (x, s1) → Stays s s1 := by
    intro x s1 found
    dsimp only [place] at found
    split at found
    · cases found
      exact (pool s _).trans (startNote _ _ _ _ _ _ _ _)
    · cases found
      exact steal s _ _ _ _ _ _ _ _ _
    · cases found
  clear_value place
  split
  · exact refuseNote s _ _ _
  · split
    · exact refuseNote s _ _ _
    next x s1 =>
      extract_lets s2
      have choked : Stays s s2 := (((placed x s1 rfl).trans (bump s1 (by decide))).trans (count _ 415 1)).trans (choke _ p n t ex)
      clear_value s2
      split
      · exact choked.trans (ite (cancelWaiting s2 x) (cancelVoice s2 x))
      · exact choked

/-! ### Events moved to the next block, note-offs and sustain -/

theorem poolIng (s : State) (x : Pool) (y : Ingress) : Stays s { s with pool := x, ing := y } := ⟨rfl, rfl, rfl, rfl, rfl, rfl, rfl⟩

theorem moveEvent (s : State) (n : Nat) (r : Released) (split begun : Bool) : Stays s (s.moveEvent n r split begun) := by
  unfold State.moveEvent
  extract_lets t up s1
  have counted : Stays s s1 := by
    refine bump s ?_
    split <;> decide
  clear_value s1
  exact counted.trans (poolIng s1 _ _)

theorem releaseVoice (s : State) (x n t velocity : Nat) (attr : Word) : Stays s (s.releaseVoice x n t velocity attr) := by
  unfold State.releaseVoice
  extract_lets note w s1
  have written : Stays s s1 := writeVoice s x n t _
  clear_value s1
  exact ite (written.trans (updSlot s1 x _)) ((written.trans (updSlot s1 x _)).trans (releaseStreams _ x))

theorem holdOff (s : State) (x velocity : Nat) (attr : Word) : Stays s (s.holdOff x velocity attr) := updSlot s x _

theorem noteOff (s : State) (n : Nat) (ex : Bool) (r : Released) (xs : List Nat) (velocity : Nat) (attr : Word) :
    Stays s (s.noteOff n ex r xs velocity attr) := by
  unfold State.noteOff
  extract_lets t cancelled s1 rest held free s2
  have gone : Stays s s1 := foldl _ (fun u x _ => cancelVoice u x) s
  clear_value s1
  have holding : Stays s1 s2 := foldl _ (fun u x _ => holdOff u x velocity attr) s1
  clear_value s2
  split
  · exact gone.trans (moveEvent s1 n r false true)
  · split
    · exact (gone.trans holding).trans (foldl _ (fun u x _ => releaseVoice u x n t velocity attr) s2)
    · exact gone.trans (moveEvent s1 n r true true)

theorem sustainLift (s : State) (p n t : Nat) : Stays s (s.sustainLift p n t) := by
  unfold State.sustainLift
  exact ite (refl s) (foldl _ (fun u x _ => releaseVoice u x n t _ _) s)

/-! ### The events of a step -/

theorem channelEvent (s : State) (n : Nat) (ex : Bool) (r : Released) : Stays s (s.channelEvent n ex r) := by
  unfold State.channelEvent
  extract_lets p t
  split
  · exact bump s (by decide)
  · exact refl s
  next ws _ _ =>
    split
    · exact moveEvent s n r false true
    · extract_lets sus lift held s1
      have written : Stays s s1 := writePart s p n t ws
      clear_value s1
      split
      · exact ite (written.trans (sustainLift s1 p n t)) written
      · exact moveEvent s n r true true

theorem noteEvent (s : State) (n : Nat) (ex : Bool) (r : Released) : Stays s (s.noteEvent n ex r) := by
  unfold State.noteEvent
  extract_lets u t xs
  split
  · exact bump s (by decide)
  · split
    · exact moveEvent s n r false true
    · split
      · refine foldl _ (fun v x _ => ?_) s
        extract_lets w
        have written : Stays v w := writeVoice v x n t _
        clear_value w
        exact ite (written.trans (updSlot w x _)) written
      · exact moveEvent s n r true true

end Sys2Proof.Machine.Stays
end

section
/-! PROOFS. What an allocation step keeps: its events, ends, trims and host writes, rebalancing and host inputs (R67, R74, R82, R91, R98, R110,
R130, R343). -/

namespace Sys2Proof.Machine.Stays

/-! ### Events -/

/-- Reports that leave the bit that shows the send map. -/
theorem of_shown {s t : State} {l : List Nat} (h : OnlyReports s t l) (shown : t.fld Reg.MIX_STAT 0 1 = s.fld Reg.MIX_STAT 0 1) : Stays s t := by
  refine ⟨?_, ?_, ?_, ?_, ?_, ?_, shown⟩ <;> rw [h.1]

/-- A write of the upper bits of any register leaves that bit. -/
theorem setUpper (s : State) (a n : Nat) : Stays s (s.setFld a 25 7 n) := by
  refine of_shown (onlyReports_setReg s a _) ?_
  by_cases same : a = Reg.MIX_STAT
  · subst same
    exact State.fld_setFld_apart s Reg.MIX_STAT n (by decide)
  · exact (setFld s (Ne.symm same) 25 7 n).shown

theorem selectProgram (s : State) (p pgm : Nat) : Stays s (s.selectProgram p pgm) := by
  unfold State.selectProgram
  extract_lets off s1
  have stored : Stays s s1 := setUpper s off pgm
  clear_value s1
  exact stored.trans (pool s1 _)

theorem poolEvent (s : State) (n : Nat) (ex : Bool) (r : Released) : Stays s (s.poolEvent n ex r) := by
  unfold State.poolEvent
  extract_lets u p
  split
  · exact moveEvent s n r _ _
  · split
    · exact noteOn s n ex r
    · exact noteOff s n ex r _ _ _
    · split
      · exact partReset s p n _ ex
      · split
        next src s1 vel attr _ _ _ _ _ _ =>
          have begun : Stays s s1 := ite (refl s) ((pool s _).trans (cancelWaitings _ _))
          clear_value s1
          exact ((begun.trans (draw s1 16)).trans (draw _ 32)).trans (noteOff _ n ex r _ _ _)
        · exact channelEvent s n ex r
    · exact Stays.trans (ite (refl s) (selectProgram s p _)) (channelEvent _ n ex r)
    · exact channelEvent s n ex r
    · exact channelEvent s n ex r
    · exact channelEvent s n ex r
    · exact channelEvent s n ex r
    · exact channelEvent s n ex r
    · exact channelEvent s n ex r
    · exact noteEvent s n ex r

theorem releasedEvent (s : State) (n : Nat) (ex moved : Bool) (r : Released) : Stays s (s.releasedEvent n ex moved r) := by
  unfold State.releasedEvent
  split
  · exact ing s _
  · exact Stays.trans (ite (refl s) (reportRelease s _ _)) (poolEvent _ n ex r)

theorem poolEvents (s : State) (n : Nat) (ex moved : Bool) (l : List Released) : Stays s (s.poolEvents n ex moved l) :=
  foldl l (fun u r _ => releasedEvent u n ex moved r) s

/-! ### Ends, trims and host writes -/

theorem fadeEnds (s : State) (x last reason : Nat) : Stays s (s.fadeEnds x last reason) := by
  unfold State.fadeEnds
  extract_lets v
  split
  · exact leave s x last reason
  next s1 _ w _ =>
    have ended : Stays s s1 := ite (refl s) (endVoice s x last reason)
    clear_value s1
    exact ended.trans (ite (leaveCancelled s1 x _ _ _) (updSlot s1 x _))

theorem slotEnds (s : State) (n x : Nat) : Stays s (s.slotEnds n x) := by
  unfold State.slotEnds
  extract_lets v last s1
  have ended : Stays s s1 := by
    dsimp only [s1]
    split
    · exact refl s
    · split
      · split
        · exact leave s x last 0
        · split
          · exact (bump s (by decide)).trans (leave _ x last 1)
          · exact refl s
      · split
        · split
          · split
            · exact ite (leaveCancelled s x _ _ _) (refl s)
            · exact refl s
          · split
            · exact fadeEnds s x last _
            · split
              · exact fadeEnds s x _ _
              · exact refl s
        · exact refl s
  clear_value s1
  split
  · exact ended.trans (ite (startNote s1 x _ n _ _ _ _) (refl s1))
  · exact ended

theorem poolEnds (s : State) (n : Nat) : Stays s (s.poolEnds n) := by
  unfold State.poolEnds
  extract_lets s1
  have ended : Stays s s1 := foldl _ (fun u x _ => slotEnds u n x) s
  clear_value s1
  exact ended.trans (pool s1 _)

theorem drainPool (s : State) (n : Nat) : Stays s (s.drainPool n) := by
  unfold State.drainPool
  extract_lets src all s1 s2 s3
  have cancelled : Stays s s1 := foldl _ (fun u e _ => cancelVoice u e.1) s
  clear_value s1
  have faded : Stays s1 s2 := foldl _ (fun u e _ => fadeVoice u e.1 n false 5) s1
  clear_value s2
  have released : Stays s2 s3 := foldl _ (fun u e _ => cancelWaiting u e.1) s2
  clear_value s3
  split
  · exact pool s _
  · exact ite (refl s) (((cancelled.trans faded).trans released).trans (pool s3 _))

theorem trimPart (s : State) (p n : Nat) : Stays s (s.trimPart p n).1 := by
  unfold State.trimPart
  split
  · exact refl s
  · exact foldl _ (fun u c _ => ((fadeVoice u c.1 n false 3).trans (bump _ (by decide))).trans (count _ 419 1)) s

theorem trims (s : State) (n : Nat) : Stays s (s.trims n) := by
  have every : ∀ (l : List Nat) (r : State × Nat), Stays s r.1 →
      Stays s (l.foldl (fun r p => ((r.1.trimPart p n).1, r.2 + (r.1.trimPart p n).2)) r).1 := by
    intro l
    induction l with
    | nil => exact fun _ kept => kept
    | cons p l ih => exact fun r kept => ih _ (kept.trans (trimPart r.1 p n))
  have trimmed := every (List.range 64) (s, 0) (refl s)
  unfold State.trims
  extract_lets r
  exact ite trimmed (trimmed.trans (raise r.1 Page.va 2))

theorem applyHostWrites (s : State) (n : Nat) : Stays s (s.applyHostWrites n) := by
  unfold State.applyHostWrites
  extract_lets s1
  have written : Stays s s1 := by
    refine foldl _ (fun u w _ => ?_) s
    extract_lets v
    have put : Stays u v := ((putFrame u _ _).trans (bump _ (by decide))).trans (count _ 425 1)
    clear_value v
    exact ite (put.trans (sustainLift v _ n _)) put
  clear_value s1
  exact (written.trans (pool s1 _)).trans (setFld _ (by decide) 0 7 0)

theorem reportPool (s : State) : Stays s s.reportPool := by
  unfold State.reportPool
  extract_lets live voices s1 s2
  have shown : Stays s s1 := (setFld s (by decide) 0 11 _).trans (setFld _ (by decide) 16 7 _)
  clear_value s1
  have counted : Stays s1 s2 := by
    refine foldl _ (fun u p hp => setReg u ?_ _) s1
    have inRange : p < 64 := List.mem_range.1 hp
    simp only [Reg.MIX_STAT, Reg.VA_PART_CNT]
    omega
  clear_value s2
  exact (shown.trans counted).trans (pool s2 _)

theorem applyParts (s : State) : Stays s s.applyParts := pool s _

theorem allocate (s : State) (n : Nat) : Stays s (s.allocate n) := by
  unfold State.allocate
  extract_lets s0 r s1 moved src s2
  have released : Stays s r.1 := (applyParts s).trans (ttRelease s0 false n)
  clear_value r
  have ended : Stays r.1 s1 := (((poolEnds r.1 n).trans (drainPool _ n)).trans (trims _ n)).trans (applyHostWrites _ n)
  clear_value s1
  have taken : Stays s1 s2 := pool s1 _
  clear_value s2
  exact (((released.trans ended).trans taken).trans (poolEvents s2 n false true moved)).trans (poolEvents _ n false false r.2)

/-! ### Rebalancing, tasks and host inputs -/

theorem rebalanceSet (s : State) (pset : Nat) : Stays s (s.rebalanceSet pset) := by
  unfold State.rebalanceSet
  extract_lets l
  split
  next a b _ _ =>
    exact ite (refl s) (foldl _ (fun u x _ => shunt u x b) s)
  · exact refl s

theorem rebalance (s : State) : Stays s s.rebalance := by
  unfold State.rebalance
  exact ite (foldl _ (fun u p _ => rebalanceSet u p) s) (refl s)

theorem pruneTasks (s : State) (b : Nat) : Stays s (s.pruneTasks b) := sch s _

theorem hostInput (s : State) (k m : Nat) (b : List Byte) : Stays s (s.hostInput k m b) := by
  unfold State.hostInput
  extract_lets cfg c good s1
  have late : Stays s s1 := ite (refl s) (bump s (by decide))
  clear_value s1
  refine ite (refl s) (late.trans ?_)
  exact foldl _ (fun u j _ => foldl _ (fun v i _ => portSample v 3 _ _ false _) u) s1

theorem hostInputs (s : State) (m : Nat) (recs : List (List Byte)) : Stays s (s.hostInputs m recs) :=
  foldl _ (fun u k _ => hostInput u k m _) s

theorem boundaryCounts (s : State) (p : Nat) : Stays s (s.boundaryCounts p) :=
  (((((count s _ _).trans (count _ _ _)).trans (count _ _ _)).trans (count _ _ _)).trans (count _ _ _)).trans (count _ _ _)

/-! ### What comes into force before the copies -/

theorem splitRunning (s : State) : Stays s s.splitRunning := by
  unfold State.splitRunning
  refine foldl _ (fun u t _ => ?_) s
  split
  · exact (spend u _ t _).trans (updTask _ _ _)
  · exact refl u

theorem averages (s : State) : Stays s s.averages := by
  unfold State.averages
  extract_lets s0 sh s1
  have split : Stays s s0 := splitRunning s
  clear_value s0
  have shown : Stays s0 s1 := by
    refine foldl _ (fun u n hn => ?_) s0
    have inRange : n < 34 := List.mem_range.1 hn
    refine (setFld u ?_ 0 21 _).trans (setReg _ ?_ _) <;> simp only [Reg.MIX_STAT, Reg.SCH_CORE_BUSY, Reg.SCH_CORE_AVG] <;> omega
  clear_value s1
  exact (split.trans shown).trans (sch s1 _)

theorem applyHold (s : State) (fell : Bool) : Stays s (s.applyHold fell) := by
  unfold State.applyHold
  extract_lets cyc lmax n fits applied h was src s1
  have shown : Stays s s1 := ((sch s _).trans (setReg _ (by decide) _)).trans (setBit _ (by decide) 1 _)
  clear_value s1
  exact ite (shown.trans (raise s1 Page.sch 1)) shown

theorem applySched (s : State) : Stays s s.applySched := by
  unfold State.applySched
  extract_lets parts src s1
  have limits : Stays s s1 := sch s _
  clear_value s1
  refine limits.trans (foldl _ (fun u k _ => ?_) s1)
  extract_lets on was src' v
  have enabled : Stays u v := sch u _
  clear_value v
  exact ite (enabled.trans (setPlaced v _ _)) enabled

end Sys2Proof.Machine.Stays
end

section
/-! PROOFS. O36: the copies that a boundary step takes, and the Express step of an empty Timetable. -/

namespace Sys2Proof.Machine

/-! ### The registers of the copies -/

/-- A register of the MIX or the CON page. -/
def OnMixOrCon (a : Nat) : Prop := a / 0x1000 = Page.mix ∨ a / 0x1000 = Page.con

theorem OnMixOrCon.ne {a b : Nat} (h : OnMixOrCon a) (mix : b / 0x1000 ≠ Page.mix) (con : b / 0x1000 ≠ Page.con) : a ≠ b := by
  rintro rfl
  exact h.elim mix con

theorem copied_mixCtrl : OnMixOrCon Reg.MIX_CTRL := Or.inl rfl

theorem copied_partCfg {i : Nat} (h : i < 64) : OnMixOrCon (Reg.MIX_PART_CFG i) := by
  left
  simp only [Reg.MIX_PART_CFG, Page.mix]
  omega

theorem copied_attr {i : Nat} (h : i < 64) : OnMixOrCon (Reg.CON_ATTR i) := by
  right
  simp only [Reg.CON_ATTR, Page.con]
  omega

theorem State.reg_foldl_mem {α : Type} {f : State → α → State} {a : Nat} (l : List α) (hf : ∀ u, ∀ x ∈ l, (f u x).reg a = u.reg a) (s : State) :
    (l.foldl f s).reg a = s.reg a := by
  induction l generalizing s with
  | nil => rfl
  | cons x l ih => rw [List.foldl_cons, ih (fun u y hy => hf u y (List.mem_cons_of_mem _ hy)), hf s x List.mem_cons_self]

theorem State.reg_splitRunning (s : State) (a : Nat) : s.splitRunning.reg a = s.reg a := by
  unfold State.splitRunning
  refine State.reg_foldl_mem _ (fun u t _ => ?_) s
  split <;> rfl

section
variable {a : Nat} (copied : OnMixOrCon a)
include copied

theorem State.reg_averages (s : State) : s.averages.reg a = s.reg a := by
  unfold State.averages
  extract_lets s0 sh s1
  have split : s0.reg a = s.reg a := s.reg_splitRunning a
  clear_value s0
  have shown : s1.reg a = s0.reg a := by
    refine State.reg_foldl_mem _ (fun u n hn => ?_) s0
    have inRange : n < 34 := List.mem_range.1 hn
    have busy : a ≠ Reg.SCH_CORE_BUSY n := by apply copied.ne <;> simp only [Reg.SCH_CORE_BUSY, Page.mix, Page.con] <;> omega
    have avg : a ≠ Reg.SCH_CORE_AVG n := by apply copied.ne <;> simp only [Reg.SCH_CORE_AVG, Page.mix, Page.con] <;> omega
    exact (State.reg_setReg_other _ _ avg).trans (State.reg_setFld_other _ _ _ _ busy)
  clear_value s1
  exact shown.trans split

theorem State.reg_applyHold (s : State) (fell : Bool) : (s.applyHold fell).reg a = s.reg a := by
  refine (s.applyHold_regs fell).1 a ?_
  have apart : ∀ b ∈ holdRegs, b / 0x1000 ≠ Page.mix ∧ b / 0x1000 ≠ Page.con := by decide
  exact fun mem => copied.ne (apart a mem).1 (apart a mem).2 rfl

omit copied in
theorem State.reg_applySched (s : State) (a : Nat) : s.applySched.reg a = s.reg a := by
  unfold State.applySched
  extract_lets parts src s1
  have limits : s1.reg a = s.reg a := rfl
  clear_value s1
  refine (State.reg_foldl_mem _ (fun u k _ => ?_) s1).trans limits
  extract_lets on was src' v
  have enabled : v.reg a = u.reg a := rfl
  clear_value v
  split
  · exact (State.reg_setPlaced v _ _ a).trans enabled
  · exact enabled

omit copied in
theorem State.reg_applySpf (s : State) (a : Nat) : s.applySpf.reg a = s.reg a := rfl

theorem State.reg_captureSets (s : State) : s.captureSets.reg a = s.reg a :=
  State.reg_setBit_other _ _ _ (copied.ne (by decide) (by decide))

end

/-! ### The copies -/

theorem Sparse.get_foldl_put_index {α : Type} [DecidableEq α] (dflt : Nat → α) (m : Map α) (n : Nat) (f : Nat → α) {i : Nat} (h : i < n) :
    Sparse.get dflt ((List.range n).foldl (fun m k => Sparse.put dflt m k (f k)) m) i = f i := by
  have placed := Sparse.get_foldl_put_range dflt m 0 n f i
  simp only [Nat.zero_add] at placed
  rw [placed, if_pos ⟨Nat.zero_le i, h⟩, Nat.sub_zero]

theorem State.attrs_applyAttrs (s : State) {i : Nat} (h : i < 64) :
    Sparse.get (fun _ => 0) s.applyAttrs.ctl.attrs i = s.reg (Reg.CON_ATTR i) :=
  Sparse.get_foldl_put_index _ [] 64 (fun n => s.reg (Reg.CON_ATTR n)) h

theorem State.nch_applyMix (s : State) {i : Nat} (h : i < 64) :
    Sparse.get (fun _ => 0) s.applyMix.mix.nchApplied i = s.reg (Reg.MIX_PART_CFG i) := by
  have buses := Sparse.get_foldl_put_range (fun _ => (0 : Word))
    ((List.range 64).foldl (fun m n => Sparse.put (fun _ => (0 : Word)) m n (s.reg (Reg.MIX_PART_CFG n))) []) 64 64
    (fun n => s.reg (Reg.MIX_BUS_CFG n)) i
  rw [if_neg (by omega)] at buses
  exact buses.trans (Sparse.get_foldl_put_index _ [] 64 (fun n => s.reg (Reg.MIX_PART_CFG n)) h)

theorem State.shown_applyMix (s : State) : s.applyMix.fld Reg.MIX_STAT 0 1 = s.fld Reg.MIX_CTRL 0 1 := by
  have fits : s.fld Reg.MIX_CTRL 0 1 < 2 ^ 1 := State.fld_lt s Reg.MIX_CTRL 0 1
  unfold State.applyMix
  extract_lets parts nch sel src t
  rw [State.fld_setFld_same _ _ _ (by decide)]
  exact Nat.mod_eq_of_lt fits

/-- What comes into force at a block boundary. -/
def State.inForce (s : State) : State := (((((s.averages.applyHold false).applySched).applySpf).applyAttrs).captureSets).applyMix

/-- The copies that `t` holds are what the registers of `s` say. -/
structure Copies (s t : State) : Prop where
  clk : t.clk = s.clk
  dac : t.dac = s.dac
  queues : t.queues = s.queues
  smap : t.mix.smapCur = s.fld Reg.MIX_CTRL 0 1
  shown : t.fld Reg.MIX_STAT 0 1 = s.fld Reg.MIX_CTRL 0 1
  nch : ∀ i, i < 64 → Sparse.get (fun _ => 0) t.mix.nchApplied i = s.reg (Reg.MIX_PART_CFG i)
  attrs : ∀ i, i < 64 → Sparse.get (fun _ => 0) t.ctl.attrs i = s.reg (Reg.CON_ATTR i)

theorem Copies.stays {s t u : State} (h : Copies s t) (g : Stays t u) : Copies s u where
  clk := g.clk.trans h.clk
  dac := g.dac.trans h.dac
  queues := g.queues.trans h.queues
  smap := g.smap.trans h.smap
  shown := g.shown.trans h.shown
  nch := fun i hi => by rw [g.nch, h.nch i hi]
  attrs := fun i hi => by rw [g.attrs, h.attrs i hi]

theorem State.copies_inForce (s : State) : Copies s s.inForce := by
  unfold State.inForce
  have before : Stays s (((s.averages.applyHold false).applySched).applySpf) :=
    (((Stays.averages s).trans (Stays.applyHold _ false)).trans (Stays.applySched _)).trans (Stays.applySpf _)
  have regs : ∀ a, OnMixOrCon a → (((s.averages.applyHold false).applySched).applySpf).reg a = s.reg a := fun a copied =>
    by rw [State.reg_applySpf, State.reg_applySched, State.reg_applyHold copied, State.reg_averages copied]
  generalize ((s.averages.applyHold false).applySched).applySpf = u at before regs
  have attrs := fun i (hi : i < 64) => u.attrs_applyAttrs hi
  have taken : u.applyAttrs.clk = u.clk ∧ u.applyAttrs.dac = u.dac ∧ u.applyAttrs.queues = u.queues ∧ ∀ a, u.applyAttrs.reg a = u.reg a :=
    ⟨rfl, rfl, rfl, fun _ => rfl⟩
  generalize u.applyAttrs = v at attrs taken
  obtain ⟨clk, dac, queues, same⟩ := taken
  have captured := Stays.captureSets v
  have sets : ∀ a, OnMixOrCon a → v.captureSets.reg a = s.reg a := fun a copied =>
    (State.reg_captureSets copied v).trans ((same a).trans (regs a copied))
  generalize v.captureSets = w at captured sets
  have selected : w.fld Reg.MIX_CTRL 0 1 = s.fld Reg.MIX_CTRL 0 1 := State.fld_of_reg (sets _ copied_mixCtrl) 0 1
  exact {
    clk := captured.clk.trans (clk.trans before.clk)
    dac := captured.dac.trans (dac.trans before.dac)
    queues := captured.queues.trans (queues.trans before.queues)
    smap := selected
    shown := w.shown_applyMix.trans selected
    nch := fun i hi => (w.nch_applyMix hi).trans (sets _ (copied_partCfg hi))
    attrs := fun i hi => by
      have kept : w.applyMix.ctl.attrs = v.ctl.attrs := captured.attrs
      rw [kept, attrs i hi]
      exact regs _ (copied_attr hi) }

/-! ### The boundary step -/

/-- A boundary step has begun its period. -/
def State.boundaryBegun (s : State) : State :=
  { s with
    clk := { s.clk with boundaryDone := s.period + 1 }, pool := { s.pool with cancels := [] }, mm := { s.mm with holding := !s.pageOn Page.mm } }

/-- What a boundary step does once its copies are in force. -/
def State.boundaryRest (s : State) (p start : Nat) (recs : List (List Byte)) : State :=
  let s2 := (s.pruneTasks (p + 1)).settle (p + 1)
  let s3 := match s2.ing.stopPeriod with
    | some t => if t + 2 ≤ p then s2.discardEntries (fun _ => true) else s2
    | none => s2
  let s4 := ((s3.allocate (p + 2)).rebalance).reportPool
  let s5 := if start + 2 ≤ p then s4.captureClose (p - 2) else s4
  let s6 := if start + 1 ≤ p then s5.hostInputs (p - 1) recs else s5
  s6.boundaryCounts p

theorem Stays.boundaryRest (s : State) (p start : Nat) (recs : List (List Byte)) : Stays s (s.boundaryRest p start recs) := by
  unfold State.boundaryRest
  extract_lets s2 s3 s4 s5 s6
  have settled : Stays s s2 := (pruneTasks s _).trans (settle _ _)
  clear_value s2
  have stopped : Stays s2 s3 := by
    dsimp only [s3]
    split
    · exact ite (discardEntries s2 _) (refl s2)
    · exact refl s2
  clear_value s3
  have allocated : Stays s3 s4 := ((allocate s3 _).trans (rebalance _)).trans (reportPool _)
  clear_value s4
  have closed : Stays s4 s5 := ite (captureClose s4 _) (refl s4)
  clear_value s5
  have heard : Stays s5 s6 := ite (hostInputs s5 _ recs) (refl s5)
  clear_value s6
  exact ((((settled.trans stopped).trans allocated).trans closed).trans heard).trans (boundaryCounts s6 p)

theorem State.boundaryBegun_regs (s : State) : s.boundaryBegun.clk = { s.clk with boundaryDone := s.period + 1 } ∧
    s.boundaryBegun.dac = s.dac ∧ s.boundaryBegun.queues = s.queues ∧ s.boundaryBegun.regs = s.regs := ⟨rfl, rfl, rfl, rfl⟩

section Steps
variable {s : State} {recs : List (List Byte)}

theorem boundaryStep_nothing (h : ¬ (s.running = true ∧ s.run = true ∧ s.offset = 0 ∧ s.clk.boundaryDone ≤ s.period ∧ s.period < s.clk.deadlineDone)) :
    Completes (.boundaryStep recs) s (fun t => t = s) := by
  refine ⟨s, if_pos ?_, rfl⟩
  by_contra busy
  simp only [not_or, Bool.not_eq_false, not_not, not_lt, not_le] at busy
  exact h busy

theorem exec_boundaryStep (running : s.running = true) (run : s.run = true) (start : s.offset = 0) (once : s.clk.boundaryDone ≤ s.period)
    (before : s.period < s.clk.deadlineDone) : exec (.boundaryStep recs) s =
      .next (s.boundaryBegun.inForce.boundaryRest s.period s.clk.startPeriod recs) := by
  have due : ¬ (s.running = false ∨ s.run = false ∨ s.offset ≠ 0 ∨ s.period < s.clk.boundaryDone ∨ s.clk.deadlineDone ≤ s.period) := by
    simp only [not_or, Bool.not_eq_false, not_not, not_lt, not_le]
    exact ⟨running, run, start, once, before⟩
  change execBoundaryStep recs s = _
  unfold execBoundaryStep
  extract_lets p n src0 src1 src2 s0 s1 s2 s3 s4 s5 s6
  rw [if_neg due]
  have begun : s0 = s.boundaryBegun := rfl
  have copies : s1 = s0.inForce := rfl
  clear_value s1 s0
  rw [← begun, ← copies]
  rfl

theorem boundaryStep_copies (running : s.running = true) (run : s.run = true) (start : s.offset = 0) (once : s.clk.boundaryDone ≤ s.period)
    (before : s.period < s.clk.deadlineDone) : Completes (.boundaryStep recs) s (fun t => t.clk = { s.clk with boundaryDone := s.period + 1 } ∧
      t.mix.smapCur = s.fld Reg.MIX_CTRL 0 1 ∧ t.fld Reg.MIX_STAT 0 1 = s.fld Reg.MIX_CTRL 0 1 ∧
      (∀ i, i < 64 → Sparse.get (fun _ => 0) t.mix.nchApplied i = s.reg (Reg.MIX_PART_CFG i) ∧
        Sparse.get (fun _ => 0) t.ctl.attrs i = s.reg (Reg.CON_ATTR i)) ∧
      t.dac = s.dac ∧ t.queues = s.queues) := by
  refine ⟨_, exec_boundaryStep running run start once before, ?_⟩
  have copies := s.boundaryBegun.copies_inForce.stays (Stays.boundaryRest _ s.period s.clk.startPeriod recs)
  obtain ⟨clk, dac, queues, regs⟩ := s.boundaryBegun_regs
  generalize s.boundaryBegun.inForce.boundaryRest s.period s.clk.startPeriod recs = t at copies
  have reg : ∀ a, s.boundaryBegun.reg a = s.reg a := fun a => by rw [State.reg, regs, State.reg]
  have sel : s.boundaryBegun.fld Reg.MIX_CTRL 0 1 = s.fld Reg.MIX_CTRL 0 1 := State.fld_of_reg (reg _) 0 1
  exact ⟨copies.clk.trans clk, copies.smap.trans sel, copies.shown.trans sel,
    fun i hi => ⟨(copies.nch i hi).trans (reg _), (copies.attrs i hi).trans (reg _)⟩, copies.dac.trans dac, copies.queues.trans queues⟩

end Steps

/-! ### The Express step of an empty Timetable -/

theorem State.ttRelease_empty {s : State} (empty : s.ing.tt = []) (express : Bool) (n : Nat) :
    s.ttRelease express n = (s.pruneFloors ((n + 1) * s.blk - s.blk), []) := by
  unfold State.ttRelease
  extract_lets r excess s1 s2
  have loop : r = (s, []) := by
    dsimp only [r]
    rw [empty]
    rfl
  have none : excess = 0 := by
    dsimp only [excess]
    rw [loop, empty, List.filter_nil, List.length_nil, ite_self]
  have same : s2 = s1 := if_pos none
  rw [same, loop]
  dsimp only [s1]
  rw [loop]
  rfl

theorem State.poolEvents_nil (s : State) (n : Nat) (ex moved : Bool) : s.poolEvents n ex moved [] = s := rfl

/-- The registers in which the voice pool reports. -/
def poolRegs : List Nat := Reg.VA_STAT :: (List.range 64).map (fun p => Reg.VA_PART_CNT p)

theorem onlyPoolRegs_setReg (s : State) {a : Nat} (h : a ∈ poolRegs) (v : Word) : OnlyRegs s (s.setReg a v) poolRegs :=
  (onlyRegs_setReg s a v).mono (List.cons_subset.2 ⟨h, List.nil_subset _⟩)

theorem State.reg_withPool (s : State) (x : Pool) (a : Nat) : State.reg { s with pool := x } a = s.reg a := rfl

theorem onlyPoolRegs_trans {s t u : State} (h : OnlyRegs s t poolRegs) (g : OnlyRegs t u poolRegs) : OnlyRegs s u poolRegs :=
  (h.trans g).mono (List.append_subset.2 ⟨List.Subset.refl _, List.Subset.refl _⟩)

theorem State.reportPool_frame (s : State) : s.reportPool.pool.slots = s.pool.slots ∧ s.reportPool.con = s.con ∧
    KeepsRegs s s.reportPool poolRegs := by
  unfold State.reportPool
  extract_lets live voices s1 s2 code snap src
  have shown : OnlyRegs s s1 poolRegs :=
    onlyPoolRegs_trans (onlyPoolRegs_setReg s List.mem_cons_self _) (onlyPoolRegs_setReg _ List.mem_cons_self _)
  clear_value s1
  have counted : OnlyRegs s1 s2 poolRegs :=
    OnlyRegs.foldl _ (fun u p hp => onlyPoolRegs_setReg u (List.mem_cons_of_mem _ (List.mem_map_of_mem hp)) _) s1
  clear_value s2
  have both := onlyPoolRegs_trans shown counted
  have kept : KeepsRegs s s2 poolRegs := both.keepsRegs
  refine ⟨?_, ?_, fun a ha => ?_⟩
  · change s2.pool.slots = s.pool.slots
    rw [both.1]
  · change s2.con = s.con
    rw [both.1]
  · rw [State.reg_withPool]
    exact kept a ha

/-- An Express step has begun its period, and cleared the overload flag. -/
def State.expressBegun (s : State) : State :=
  State.setBit { s with clk := { s.clk with expressDone := s.period + 1 } } Reg.SCH_STAT 2 false

section Express
variable {s : State}

theorem expressStep_nothing (h : ¬ (s.running = true ∧ s.run = true ∧ s.offset = s.expCut ∧ s.clk.expressDone ≤ s.period ∧
    s.period < s.clk.boundaryDone)) : Completes .expressStep s (fun t => t = s) := by
  refine ⟨s, if_pos ?_, rfl⟩
  by_contra busy
  simp only [not_or, Bool.not_eq_false, not_not, not_lt, not_le] at busy
  exact h busy

theorem exec_expressStep (running : s.running = true) (run : s.run = true) (cut : s.offset = s.expCut) (once : s.clk.expressDone ≤ s.period)
    (after : s.period < s.clk.boundaryDone) : exec .expressStep s =
      .next (((s.expressBegun.ttRelease true (s.period + 2)).1.poolEvents (s.period + 2) true false
        (s.expressBegun.ttRelease true (s.period + 2)).2).reportPool) := by
  have due : ¬ (s.running = false ∨ s.run = false ∨ s.offset ≠ s.expCut ∨ s.period < s.clk.expressDone ∨ s.clk.boundaryDone ≤ s.period) := by
    simp only [not_or, Bool.not_eq_false, not_not, not_lt, not_le]
    exact ⟨running, run, cut, once, after⟩
  change execExpressStep s = _
  unfold execExpressStep
  extract_lets p src s0 r
  rw [if_neg due]
  have begun : r = s.expressBegun.ttRelease true (s.period + 2) := rfl
  rw [begun]

theorem expressStep_empty (running : s.running = true) (run : s.run = true) (cut : s.offset = s.expCut) (once : s.clk.expressDone ≤ s.period)
    (after : s.period < s.clk.boundaryDone) (empty : s.ing.tt = []) : Completes .expressStep s (fun t =>
      t.clk = { s.clk with expressDone := s.period + 1 } ∧ t.bit Reg.SCH_STAT 2 = false ∧ t.dac = s.dac ∧ t.queues = s.queues ∧
      KeepsSlots s t [] ∧ KeepsCon s t 0 0) := by
  refine ⟨_, exec_expressStep running run cut once after, ?_⟩
  have none : s.expressBegun.ing.tt = [] := empty
  rw [State.ttRelease_empty none, State.poolEvents_nil]
  have begun : s.expressBegun.clk = { s.clk with expressDone := s.period + 1 } ∧ s.expressBegun.dac = s.dac ∧ s.expressBegun.queues = s.queues ∧
      s.expressBegun.pool = s.pool ∧ s.expressBegun.con = s.con := ⟨rfl, rfl, rfl, rfl, rfl⟩
  have cleared : s.expressBegun.bit Reg.SCH_STAT 2 = false := State.bit_setBit_same _ _ false (by decide)
  generalize s.expressBegun = u at begun cleared
  obtain ⟨clk, dac, queues, pool, con⟩ := begun
  generalize (s.period + 2 + 1) * u.blk - u.blk = first
  have pruned : (u.pruneFloors first).clk = u.clk ∧ (u.pruneFloors first).dac = u.dac ∧ (u.pruneFloors first).queues = u.queues ∧
      (u.pruneFloors first).pool = u.pool ∧ (u.pruneFloors first).con = u.con ∧ (u.pruneFloors first).reg Reg.SCH_STAT = u.reg Reg.SCH_STAT :=
    ⟨rfl, rfl, rfl, rfl, rfl, rfl⟩
  generalize u.pruneFloors first = v at pruned
  obtain ⟨clk', dac', queues', pool', con', reg'⟩ := pruned
  have stays := Stays.reportPool v
  obtain ⟨slots, same, regs⟩ := v.reportPool_frame
  generalize v.reportPool = t at stays slots same regs
  have held : t.reg Reg.SCH_STAT = u.reg Reg.SCH_STAT := (regs _ (by decide)).trans reg'
  refine ⟨stays.clk.trans (clk'.trans clk), (State.bit_of_reg held 2).trans cleared, stays.dac.trans (dac'.trans dac),
    stays.queues.trans (queues'.trans queues), fun x _ => ?_, fun a _ => State.conByte_congr (same.trans (con'.trans con)) a⟩
  rw [State.slot, slots, pool', pool, State.slot]

end Express

/-- Settles O36: each step runs once in its place, what comes into force copies the registers, and nothing after it, the whole allocation
included, touches the copies; with an empty Timetable the Express step only clears the flag and reports. -/
theorem allocationSteps : Obligations.AllocationSteps := by
  unfold Obligations.AllocationSteps
  exact fun s recs => ⟨boundaryStep_nothing, fun ⟨running, run, start, once, before⟩ => boundaryStep_copies running run start once before,
    expressStep_nothing, fun ⟨running, run, cut, once, after⟩ empty => expressStep_empty running run cut once after empty⟩

end Sys2Proof.Machine
end
